-- ==== Sys2Proof/Word.lean ====
section
/-! DEFINITION. The words of the machine: bytes, 64-bit scalars, 32-bit instruction words and 256-bit handles, as bit vectors. -/

namespace Sys2Proof

/-- A byte of memory. -/
abbrev Byte := BitVec 8

/-- A scalar register's value (R153). -/
abbrev Word := BitVec 64

/-- An instruction word (R130). -/
abbrev IWord := BitVec 32

/-- A handle (R51). -/
abbrev Handle := BitVec 256

/-- A command packet of 64 bytes, byte 0 in bits 7:0 (R73, little-endian R55). -/
abbrev Packet := BitVec 512

end Sys2Proof
end

