-- ==== Sys2Proof/Machine/Num.lean ====
section
/-! DEFINITION. The shared functions of R5 and R227, R238: clamping, sign extension, rounding shifts, headroom, the hash,
and the immediates that an extension word widens (R133). All arithmetic is on unbounded integers, as R4 reads the pseudocode. -/

namespace Sys2Proof

/-- The minimum of the signed type of width `w` (R4). -/
def minI (w : Nat) : Int := -(2 ^ (w - 1))

/-- The maximum of the signed type of width `w` (R4). -/
def maxI (w : Nat) : Int := 2 ^ (w - 1) - 1

/-- Clamp to a range; the second value is the clamp flag (R5). -/
def satRange (lo hi x : Int) : Int × Bool := if x < lo then (lo, true) else if hi < x then (hi, true) else (x, false)

/-- Sat to the signed type of width `w` (R5). -/
def satI (w : Nat) (x : Int) : Int × Bool := satRange (minI w) (maxI w) x

/-- Sat to the unsigned type of width `w` (R5). -/
def satU (w : Nat) (x : Int) : Int × Bool := satRange 0 (2 ^ w - 1) x

/-- Bits w-1..0 of an integer, read unsigned (R4). -/
def lowBits (w : Nat) (x : Int) : Nat := (x % (2 ^ w : Nat)).toNat

/-- SignExt (R5): bits w-1..0 read as two's complement. -/
def signExt (w : Nat) (x : Int) : Int :=
  let v := lowBits w x
  if 2 ^ (w - 1) ≤ v then (v : Int) - 2 ^ w else v

/-- x >> n, the floor of x / 2^n (R4). -/
def asr (x : Int) (n : Nat) : Int := x / (2 ^ n : Nat)

/-- ShrRtz (R5): round toward zero. -/
def shrRtz (x : Int) (s : Nat) : Int := if 0 ≤ x then asr x s else -(asr (-x) s)

/-- ShrRne (R5): round half to even. -/
def shrRne (x : Int) (s : Nat) : Int :=
  if s = 0 then x
  else
    let q := asr x s
    let m := x - q * 2 ^ s
    if 2 ^ (s - 1) < m ∨ (m = 2 ^ (s - 1) ∧ q % 2 = 1) then q + 1 else q

/-- ShrSto (R5): stochastic rounding by the hash value `h`. -/
def shrSto (x : Int) (s h : Nat) : Int :=
  if s = 0 then x else asr (x + ((if s ≤ 32 then h / 2 ^ (32 - s) else h * 2 ^ (s - 32) : Nat) : Int)) s

/-- The number of bits below the top that repeat bit w-1, counted from the top (the loop of Headroom). -/
def headroomGo (x : Int) (top : Bool) : Nat → Nat
  | 0 => 0
  | i + 1 => if decide (asr x i % 2 = 1) = top then headroomGo x top i + 1 else 0

/-- Headroom (R5): w-1 for 0 and for -1. -/
def headroom (w : Nat) (x : Int) : Nat := headroomGo x (decide (asr x (w - 1) % 2 = 1)) (w - 1)

/-- Hash (R5). -/
def hash32 (seed idx step : Nat) : Nat :=
  let h := (seed + idx * 0x9E3779B1 + step * 0x632BE5AB) % 2 ^ 32
  let h := h ^^^ (h / 2 ^ 16)
  let h := (h * 0x045D9F3B) % 2 ^ 32
  h ^^^ (h / 2 ^ 16)

/-- A rounding mode of R45 applied to `x` and `s`: 0 RNE, 1 RTZ, otherwise STO with the hash inputs of R6. -/
def roundBy (mode : BitVec 2) (seed step : Nat) (idx : Nat) (x : Int) (s : Nat) : Int :=
  if mode = 0 then shrRne x s else if mode = 1 then shrRtz x s else shrSto x s (hash32 seed idx step)

/-- Narrow (R227). -/
def narrow (mode : BitVec 2) (seed step : Nat) (idx : Nat) (x : Int) (s w : Nat) : Int × Bool := satI w (roundBy mode seed step idx x s)

/-- ScaleRne (R238): a right shift by n, or a left shift by -n. -/
def scaleRne (x n : Int) : Int := if 0 ≤ n then shrRne x n.toNat else x * 2 ^ (-n).toNat

/-- DivRne (R238): n / m rounded half to even, for m other than 0. -/
def divRne (n m : Int) : Int :=
  let (n, m) := if m < 0 then (-n, -m) else (n, m)
  let q := n / m
  let r := n - q * m
  if m < 2 * r ∨ (2 * r = m ∧ q % 2 = 1) then q + 1 else q

/-- Bit length of a natural number. -/
def bitLen (n : Nat) : Nat := if n = 0 then 0 else Nat.log2 n + 1

/-- The number of one bits among the low `w` bits. -/
def popCount (n : Nat) : Nat → Nat
  | 0 => 0
  | w + 1 => (if n.testBit w then 1 else 0) + popCount n w

/-- Division truncated toward zero (R156), for a divisor other than 0. -/
def divTrunc (a b : Int) : Int := Int.tdiv a b

/-- An immediate of `n` bits with its optional extension, read unsigned (R133). -/
def immU (n : Nat) {w : Nat} (i : BitVec w) (ext : Option (BitVec 25)) : Nat :=
  match ext with
  | some e => e.toNat * 2 ^ n + i.toNat
  | none => i.toNat

/-- An immediate of `n` bits with its optional extension, read signed over n or n + 25 bits (R133). -/
def immS (n : Nat) {w : Nat} (i : BitVec w) (ext : Option (BitVec 25)) : Int :=
  match ext with
  | some e => signExt (n + 25) ((e.toNat * 2 ^ n + i.toNat : Nat) : Int)
  | none => signExt n (i.toNat : Int)

/-- The low 64 bits of an integer as a scalar value. -/
def wordOf (x : Int) : Word := BitVec.ofInt 64 x

/-- Clamp an integer to 0..63, as the register form of a shift does (R190, R222). -/
def clamp63 (x : Int) : Nat := if x < 0 then 0 else if 63 < x then 63 else x.toNat

/-- Bits hi..lo of a natural number. -/
def bitsOf (x hi lo : Nat) : Nat := x / 2 ^ lo % 2 ^ (hi + 1 - lo)

/-- The largest natural number in a list, 0 for the empty list. -/
def maxNat (l : List Nat) : Nat := l.foldl max 0

/-- Ceiling of a / b. -/
def ceilDiv (a b : Nat) : Nat := (a + b - 1) / b

/-- The sum of an integer list. -/
def sumInt (l : List Int) : Int := l.foldl (· + ·) 0

end Sys2Proof
end

