-- ==== Sys2Proof/Syntax.lean ====
section
/-! DEFINITION. The instruction set of the Osrek as one inductive: one constructor per row of the table of operations and events.
The 213 encoded words carry the fields of their encoding (R130, R141), without the chain bit C, which belongs to the bundle (R135);
a word whose entry accepts an E word carries the 25 extension bits when one follows it (R133).
The other 86 rows are the steps of the host, the Awl, the distributor, the engines, the links and the service machinery;
their arguments are what the outside world decides. -/

namespace Sys2Proof

/-- The two copy slots (R273). -/
inductive CopySlot where
  | ca | cb
deriving DecidableEq, Repr

/-- The engine slots of CTL.EMAP (R104). -/
inductive EngineSlot where
  | va | vb | ca | cb
deriving DecidableEq, Repr

/-- The axes of the torus (R327). -/
inductive Axis where
  | x | y | z
deriving DecidableEq, Repr

/-- Who hands a packet to the Awl: a host queue, or the ENQ inbox on behalf of a node (R88). -/
inductive PacketSource where
  | queue (q : BitVec 6)
  | inbox (uid : Nat)
deriving DecidableEq, Repr

/-- One element as an engine carries it: its integer, the shift of its block (0 for plain formats), and its poison mark (R278, R334). -/
structure Elem where
  e : Int
  m : Nat
  poison : Bool
deriving DecidableEq, Repr

/-- A send as it arrives at this module (R334 to R336, R395). `fromUid` names the sending node when the sender is on this module. `dest` and `odd` stand while it
crosses the pod: the peer module, and whether the sending core's index is odd (R330). -/
structure Delivery where
  x : BitVec 5
  y : BitVec 5
  z : BitVec 5
  serial : BitVec 32
  route : BitVec 2
  seq : BitVec 16
  space : BitVec 6
  core : BitVec 10
  cnt : BitVec 6
  hD : BitVec 256
  extents : List Nat
  elems : List Elem
  bytes : Nat
  empty : Bool
  fromUid : Option Nat
  epi : Bool := false
  dest : Option (BitVec 5 × BitVec 5 × BitVec 5) := none
  odd : Bool := false
  ord : Nat := 0
deriving DecidableEq, Repr

/-- What a peer answers to a send: an acknowledgement, or the cause code of its fault (R335, R336). -/
inductive SendAnswer where
  | ack
  | fault (code : BitVec 7)
deriving DecidableEq, Repr

/-- The tag of a collective (R340): address space, route index and sequence number. -/
structure CollTag where
  space : BitVec 6
  route : BitVec 2
  seq : BitVec 16
deriving DecidableEq, Repr

/-- A collective packet on its way (R340, R341): the tag, the remaining operation list, the payload with its width in bits,
the clamp bit, the extents of the window, the origin's hD and hash inputs, and whether it is still at the module of its origin, where it has not left. -/
structure CollPacket where
  tag : CollTag
  ops : List (BitVec 16)
  width : Nat
  elems : List Elem
  clamp : Bool
  extents : List Nat
  hD : BitVec 256
  seed : BitVec 32
  step : BitVec 32
  origin : Bool := false
deriving DecidableEq, Repr

/-- What an access to BAR0 writes (R74): its size in bytes and its value. -/
structure BarData where
  size : Nat
  value : BitVec 64
deriving DecidableEq, Repr

/-- A stack that passes its self-test (R362), with the row and the site of each front end that the test found failed (R16), and the row, the column and the
half of each slab half that it found bad (R9). -/
structure SelfTest where
  stack : BitVec 2
  fronts : List (Nat × Nat)
  halves : List (Nat × Nat × BitVec 1)
deriving DecidableEq, Repr

/-- The instruction set: one constructor per row of the table of operations and events. DESIGN CHOICE: log entry 55. DEDUCED: log entry 63. -/
inductive Instr where
  /-- ADD (R155): Writes the wrapping 64-bit sum of sA and sB to sD. -/
  | add (q : BitVec 2) (g : BitVec 4) (d : BitVec 5) (a : BitVec 5) (b : BitVec 5)
  /-- SUB (R155): Writes the wrapping 64-bit difference a − b to sD. -/
  | sub (q : BitVec 2) (g : BitVec 4) (d : BitVec 5) (a : BitVec 5) (b : BitVec 5)
  /-- ADD.s (R155): Writes the sum of sA and sB, saturated to .i64, to sD. -/
  | addS (q : BitVec 2) (g : BitVec 4) (d : BitVec 5) (a : BitVec 5) (b : BitVec 5)
  /-- SUB.s (R155): Writes the difference a − b, saturated to .i64, to sD. -/
  | subS (q : BitVec 2) (g : BitVec 4) (d : BitVec 5) (a : BitVec 5) (b : BitVec 5)
  /-- AND (R155): Writes the bitwise AND of sA and sB to sD. -/
  | and (q : BitVec 2) (g : BitVec 4) (d : BitVec 5) (a : BitVec 5) (b : BitVec 5)
  /-- OR (R155): Writes the bitwise OR of sA and sB to sD. -/
  | or (q : BitVec 2) (g : BitVec 4) (d : BitVec 5) (a : BitVec 5) (b : BitVec 5)
  /-- XOR (R155): Writes the bitwise XOR of sA and sB to sD. -/
  | xor (q : BitVec 2) (g : BitVec 4) (d : BitVec 5) (a : BitVec 5) (b : BitVec 5)
  /-- ANDN (R155): Writes a AND NOT b to sD. -/
  | andn (q : BitVec 2) (g : BitVec 4) (d : BitVec 5) (a : BitVec 5) (b : BitVec 5)
  /-- SHL (R155): Writes sA shifted left by ub bits to sD, wrapping, or 0 when ub ≥ 64. -/
  | shl (q : BitVec 2) (g : BitVec 4) (d : BitVec 5) (a : BitVec 5) (b : BitVec 5)
  /-- SHL.s (R155): Writes sA shifted left by ub bits to sD, saturated to .i64. -/
  | shlS (q : BitVec 2) (g : BitVec 4) (d : BitVec 5) (a : BitVec 5) (b : BitVec 5)
  /-- SHR (R155): Writes the logical right shift of sA by ub bits to sD. -/
  | shr (q : BitVec 2) (g : BitVec 4) (d : BitVec 5) (a : BitVec 5) (b : BitVec 5)
  /-- SAR (R155): Writes the arithmetic right shift of sA to sD, with the count clamped to 63. -/
  | sar (q : BitVec 2) (g : BitVec 4) (d : BitVec 5) (a : BitVec 5) (b : BitVec 5)
  /-- ROT (R155): Writes sA rotated left by ub mod 64 bits to sD. -/
  | rot (q : BitVec 2) (g : BitVec 4) (d : BitVec 5) (a : BitVec 5) (b : BitVec 5)
  /-- MUL (R155): Writes the low 64 bits of the product a × b to sD. -/
  | mul (q : BitVec 2) (g : BitVec 4) (d : BitVec 5) (a : BitVec 5) (b : BitVec 5)
  /-- MUL.s (R155): Writes the product a × b, saturated to .i64, to sD. -/
  | mulS (q : BitVec 2) (g : BitVec 4) (d : BitVec 5) (a : BitVec 5) (b : BitVec 5)
  /-- MULH (R155): Writes the high 64 bits of the signed product to sD. -/
  | mulh (q : BitVec 2) (g : BitVec 4) (d : BitVec 5) (a : BitVec 5) (b : BitVec 5)
  /-- MULHW (R155): Writes the high 64 bits of the unsigned product to sD. -/
  | mulhw (q : BitVec 2) (g : BitVec 4) (d : BitVec 5) (a : BitVec 5) (b : BitVec 5)
  /-- DIV (R156): Writes the signed quotient, truncated toward zero, to sD; it never traps. -/
  | div (q : BitVec 2) (g : BitVec 4) (d : BitVec 5) (a : BitVec 5) (b : BitVec 5)
  /-- DIVW (R156): Writes the unsigned quotient to sD; division by zero gives −1. -/
  | divw (q : BitVec 2) (g : BitVec 4) (d : BitVec 5) (a : BitVec 5) (b : BitVec 5)
  /-- REM (R156): Writes the signed remainder to sD; division by zero gives a. -/
  | rem (q : BitVec 2) (g : BitVec 4) (d : BitVec 5) (a : BitVec 5) (b : BitVec 5)
  /-- REMW (R156): Writes the unsigned remainder to sD; division by zero gives a. -/
  | remw (q : BitVec 2) (g : BitVec 4) (d : BitVec 5) (a : BitVec 5) (b : BitVec 5)
  /-- MIN (R155): Writes the signed minimum of sA and sB to sD. -/
  | min (q : BitVec 2) (g : BitVec 4) (d : BitVec 5) (a : BitVec 5) (b : BitVec 5)
  /-- MAX (R155): Writes the signed maximum of sA and sB to sD. -/
  | max (q : BitVec 2) (g : BitVec 4) (d : BitVec 5) (a : BitVec 5) (b : BitVec 5)
  /-- MINW (R155): Writes the unsigned minimum of sA and sB to sD. -/
  | minw (q : BitVec 2) (g : BitVec 4) (d : BitVec 5) (a : BitVec 5) (b : BitVec 5)
  /-- MAXW (R155): Writes the unsigned maximum of sA and sB to sD. -/
  | maxw (q : BitVec 2) (g : BitVec 4) (d : BitVec 5) (a : BitVec 5) (b : BitVec 5)
  /-- CLZ (R155): Writes the count of leading zeros of sA to sD. -/
  | clz (q : BitVec 2) (g : BitVec 4) (d : BitVec 5) (a : BitVec 5)
  /-- CLS (R155): Writes Headroom(a, 64) to sD. -/
  | cls (q : BitVec 2) (g : BitVec 4) (d : BitVec 5) (a : BitVec 5)
  /-- POPC (R155): Writes the number of one bits in sA to sD. -/
  | popc (q : BitVec 2) (g : BitVec 4) (d : BitVec 5) (a : BitVec 5)
  /-- BFX (R157): Extracts a zero-extended bit field of sA at the position and length given in sB. -/
  | bfx (q : BitVec 2) (g : BitVec 4) (d : BitVec 5) (a : BitVec 5) (b : BitVec 5)
  /-- BFI (R157): Inserts bits of sA into sD at the position and length given in sB. -/
  | bfi (q : BitVec 2) (g : BitVec 4) (d : BitVec 5) (a : BitVec 5) (b : BitVec 5)
  /-- SEL (R158): Writes sA to sD when the selector predicate is true, and sB otherwise. -/
  | sel (q : BitVec 2) (s : BitVec 4) (d : BitVec 5) (a : BitVec 5) (b : BitVec 5)
  /-- MOV (R155): Copies sA to sD. -/
  | mov (q : BitVec 2) (g : BitVec 4) (d : BitVec 5) (a : BitVec 5)
  /-- MOVP (R158): Writes to pD the AND or OR of two predicates, each of which may be negated. -/
  | movp (q : BitVec 2) (g : BitVec 4) (f : BitVec 1) (p : BitVec 3) (n : BitVec 1) (x : BitVec 3) (m : BitVec 1) (y : BitVec 3)
  /-- CMP.eq (R158): Sets pD to the result of a = b. -/
  | cmpEq (q : BitVec 2) (g : BitVec 4) (p : BitVec 3) (a : BitVec 5) (b : BitVec 5)
  /-- CMP.ne (R158): Sets pD to the result of a ≠ b. -/
  | cmpNe (q : BitVec 2) (g : BitVec 4) (p : BitVec 3) (a : BitVec 5) (b : BitVec 5)
  /-- CMP.lt (R158): Sets pD to the result of the signed comparison a < b. -/
  | cmpLt (q : BitVec 2) (g : BitVec 4) (p : BitVec 3) (a : BitVec 5) (b : BitVec 5)
  /-- CMP.ge (R158): Sets pD to the result of the signed comparison a ≥ b. -/
  | cmpGe (q : BitVec 2) (g : BitVec 4) (p : BitVec 3) (a : BitVec 5) (b : BitVec 5)
  /-- CMP.ltw (R158): Sets pD to the result of the unsigned comparison ua < ub. -/
  | cmpLtw (q : BitVec 2) (g : BitVec 4) (p : BitVec 3) (a : BitVec 5) (b : BitVec 5)
  /-- CMP.gew (R158): Sets pD to the result of the unsigned comparison ua ≥ ub. -/
  | cmpGew (q : BitVec 2) (g : BitVec 4) (p : BitVec 3) (a : BitVec 5) (b : BitVec 5)
  /-- ADDI (R161): Writes sA plus a signed immediate to sD. -/
  | addi (q : BitVec 2) (d : BitVec 5) (a : BitVec 5) (i : BitVec 11) (ext : Option (BitVec 25))
  /-- LI (R161): Loads a signed immediate into sD. -/
  | li (q : BitVec 2) (d : BitVec 5) (i : BitVec 16) (ext : Option (BitVec 25))
  /-- LIH (R161): Replaces the high 32 bits of sD with an unsigned immediate. -/
  | lih (q : BitVec 2) (d : BitVec 5) (i : BitVec 16) (ext : Option (BitVec 25))
  /-- CMPI.eq (R161): Sets pD to the result of sA = imm. -/
  | cmpiEq (q : BitVec 2) (p : BitVec 3) (a : BitVec 5) (i : BitVec 11) (ext : Option (BitVec 25))
  /-- CMPI.ne (R161): Sets pD to the result of sA ≠ imm. -/
  | cmpiNe (q : BitVec 2) (p : BitVec 3) (a : BitVec 5) (i : BitVec 11) (ext : Option (BitVec 25))
  /-- CMPI.lt (R161): Sets pD to the result of the signed comparison sA < imm. -/
  | cmpiLt (q : BitVec 2) (p : BitVec 3) (a : BitVec 5) (i : BitVec 11) (ext : Option (BitVec 25))
  /-- CMPI.ge (R161): Sets pD to the result of the signed comparison sA ≥ imm. -/
  | cmpiGe (q : BitVec 2) (p : BitVec 3) (a : BitVec 5) (i : BitVec 11) (ext : Option (BitVec 25))
  /-- CMPI.ltw (R161): Sets pD to the result of the unsigned comparison sA < imm. -/
  | cmpiLtw (q : BitVec 2) (p : BitVec 3) (a : BitVec 5) (i : BitVec 11) (ext : Option (BitVec 25))
  /-- CMPI.gew (R161): Sets pD to the result of the unsigned comparison sA ≥ imm. -/
  | cmpiGew (q : BitVec 2) (p : BitVec 3) (a : BitVec 5) (i : BitVec 11) (ext : Option (BitVec 25))
  /-- BR (R163): Branches to a packet-relative target at the end of its bundle. -/
  | brRel (q : BitVec 2) (g : BitVec 4) (k : BitVec 16) (ext : Option (BitVec 25))
  /-- BR (R163): Branches to an absolute instruction address. -/
  | brAbs (q : BitVec 2) (g : BitVec 4) (i : BitVec 16) (ext : Option (BitVec 25))
  /-- CALL (R163): Writes the return address to s30 and branches to a relative target. -/
  | callRel (q : BitVec 2) (g : BitVec 4) (k : BitVec 16) (ext : Option (BitVec 25))
  /-- CALL (R163): Writes the return address to s30 and branches to an absolute address. -/
  | callAbs (q : BitVec 2) (g : BitVec 4) (i : BitVec 16) (ext : Option (BitVec 25))
  /-- RET (R163): Transfers control to the address held in sA, or in s30 by default. -/
  | ret (q : BitVec 2) (g : BitVec 4) (a : BitVec 5)
  /-- BRC.cc (R164): Branches when a comparison of sA with zero holds. -/
  | brc (q : BitVec 2) (g : BitVec 4) (x : BitVec 3) (a : BitVec 5) (k : BitVec 9) (ext : Option (BitVec 25))
  /-- BRF (R165): Branches on the DONE or FAULT flag of an engine, sampled once at issue. -/
  | brf (q : BitVec 2) (g : BitVec 4) (t : BitVec 1) (e : BitVec 2) (n : BitVec 1) (k : BitVec 12) (ext : Option (BitVec 25))
  /-- LOOP (R171): Opens a loop level with the trip count in sA and latches its stride entries, or skips to the exit when the count is not positive. -/
  | loopOpen (q : BitVec 2) (n : BitVec 3) (a : BitVec 5) (j : BitVec 8) (ext : Option (BitVec 25))
  /-- LOOP (R172): Advances the level's index and strides, then loops back or exits and restores the origins. -/
  | loopClose (q : BitVec 2) (n : BitVec 3) (k : BitVec 11) (ext : Option (BitVec 25))
  /-- LOOPR (R172): Closes a loop level like LOOP and rotates the rotating tile base. -/
  | loopr (q : BitVec 2) (n : BitVec 3) (r : BitVec 2) (k : BitVec 11) (ext : Option (BitVec 25))
  /-- LBRK (R173): Leaves every active loop level from n upward, restores the origins, and branches. -/
  | lbrk (q : BitVec 2) (g : BitVec 4) (n : BitVec 3) (k : BitVec 14) (ext : Option (BitVec 25))
  /-- SEGX (R177): Starts the copy of an overlay segment into the other half of instruction memory. -/
  | segx (q : BitVec 2) (g : BitVec 4) (s : BitVec 6)
  /-- END (R179): Retires the node: fetch stops, the node enters RETIRING and its engines drain. -/
  | endNode
  /-- LD.b (R268): Loads one byte, sign-extended, into sD. -/
  | ldB (q : BitVec 2) (g : BitVec 4) (d : BitVec 5) (a : BitVec 5) (f : BitVec 6) (ext : Option (BitVec 25))
  /-- LD.h (R268): Loads two bytes, sign-extended, into sD. -/
  | ldH (q : BitVec 2) (g : BitVec 4) (d : BitVec 5) (a : BitVec 5) (f : BitVec 6) (ext : Option (BitVec 25))
  /-- LD.w (R268): Loads four bytes, sign-extended, into sD. -/
  | ldW (q : BitVec 2) (g : BitVec 4) (d : BitVec 5) (a : BitVec 5) (f : BitVec 6) (ext : Option (BitVec 25))
  /-- LD.d (R268): Loads eight bytes into sD. -/
  | ldD (q : BitVec 2) (g : BitVec 4) (d : BitVec 5) (a : BitVec 5) (f : BitVec 6) (ext : Option (BitVec 25))
  /-- LD.w8 (R268): Loads one byte, zero-extended, into sD. -/
  | ldW8 (q : BitVec 2) (g : BitVec 4) (d : BitVec 5) (a : BitVec 5) (f : BitVec 6) (ext : Option (BitVec 25))
  /-- LD.w16 (R268): Loads two bytes, zero-extended, into sD. -/
  | ldW16 (q : BitVec 2) (g : BitVec 4) (d : BitVec 5) (a : BitVec 5) (f : BitVec 6) (ext : Option (BitVec 25))
  /-- LD.w32 (R268): Loads four bytes, zero-extended, into sD. -/
  | ldW32 (q : BitVec 2) (g : BitVec 4) (d : BitVec 5) (a : BitVec 5) (f : BitVec 6) (ext : Option (BitVec 25))
  /-- LD.acq (R270): Loads a value with acquire at the encoded scope. -/
  | ldAcq (q : BitVec 2) (g : BitVec 4) (d : BitVec 5) (a : BitVec 5) (z : BitVec 2) (s : BitVec 4)
  /-- ST.b (R268): Stores the low byte of sV. -/
  | stB (q : BitVec 2) (g : BitVec 4) (v : BitVec 5) (a : BitVec 5) (f : BitVec 6) (ext : Option (BitVec 25))
  /-- ST.h (R268): Stores the low two bytes of sV. -/
  | stH (q : BitVec 2) (g : BitVec 4) (v : BitVec 5) (a : BitVec 5) (f : BitVec 6) (ext : Option (BitVec 25))
  /-- ST.w (R268): Stores the low four bytes of sV. -/
  | stW (q : BitVec 2) (g : BitVec 4) (v : BitVec 5) (a : BitVec 5) (f : BitVec 6) (ext : Option (BitVec 25))
  /-- ST.d (R268): Stores the eight bytes of sV. -/
  | stD (q : BitVec 2) (g : BitVec 4) (v : BitVec 5) (a : BitVec 5) (f : BitVec 6) (ext : Option (BitVec 25))
  /-- ST.rel (R270): Stores a value with release at the encoded scope. -/
  | stRel (q : BitVec 2) (g : BitVec 4) (v : BitVec 5) (a : BitVec 5) (z : BitVec 2) (s : BitVec 4)
  /-- LDH (R268): Loads 32 bytes into handle hD, from any level. -/
  | ldh (q : BitVec 2) (g : BitVec 4) (h : BitVec 4) (a : BitVec 5) (f : BitVec 7) (ext : Option (BitVec 25))
  /-- STH (R268): Stores the 256 bits of handle hB. -/
  | sth (q : BitVec 2) (g : BitVec 4) (h : BitVec 4) (a : BitVec 5) (f : BitVec 7) (ext : Option (BitVec 25))
  /-- AMO.ADD (R271): Atomically adds, wrapping, at the home of the location and returns the old value. -/
  | amoAdd (q : BitVec 2) (g : BitVec 4) (d : BitVec 5) (a : BitVec 5) (b : BitVec 5) (w : BitVec 1) (ext : Option (BitVec 25))
  /-- AMO.ADDS (R271): Atomically adds with saturation and returns the old value. -/
  | amoAdds (q : BitVec 2) (g : BitVec 4) (d : BitVec 5) (a : BitVec 5) (b : BitVec 5) (w : BitVec 1) (ext : Option (BitVec 25))
  /-- AMO.MIN (R271): Atomically takes the signed minimum and returns the old value. -/
  | amoMin (q : BitVec 2) (g : BitVec 4) (d : BitVec 5) (a : BitVec 5) (b : BitVec 5) (w : BitVec 1) (ext : Option (BitVec 25))
  /-- AMO.MAX (R271): Atomically takes the signed maximum and returns the old value. -/
  | amoMax (q : BitVec 2) (g : BitVec 4) (d : BitVec 5) (a : BitVec 5) (b : BitVec 5) (w : BitVec 1) (ext : Option (BitVec 25))
  /-- AMO.AND (R271): Atomically ANDs the operand into the location and returns the old value. -/
  | amoAnd (q : BitVec 2) (g : BitVec 4) (d : BitVec 5) (a : BitVec 5) (b : BitVec 5) (w : BitVec 1) (ext : Option (BitVec 25))
  /-- AMO.OR (R271): Atomically ORs the operand into the location and returns the old value. -/
  | amoOr (q : BitVec 2) (g : BitVec 4) (d : BitVec 5) (a : BitVec 5) (b : BitVec 5) (w : BitVec 1) (ext : Option (BitVec 25))
  /-- AMO.XOR (R271): Atomically XORs the operand into the location and returns the old value. -/
  | amoXor (q : BitVec 2) (g : BitVec 4) (d : BitVec 5) (a : BitVec 5) (b : BitVec 5) (w : BitVec 1) (ext : Option (BitVec 25))
  /-- AMO.SWAP (R271): Atomically swaps in the operand and returns the old value. -/
  | amoSwap (q : BitVec 2) (g : BitVec 4) (d : BitVec 5) (a : BitVec 5) (b : BitVec 5) (w : BitVec 1) (ext : Option (BitVec 25))
  /-- AMO.CAS (R271): Atomically writes bv when the old value equals the expected value in sD. -/
  | amoCas (q : BitVec 2) (g : BitVec 4) (d : BitVec 5) (a : BitVec 5) (b : BitVec 5) (w : BitVec 1) (ext : Option (BitVec 25))
  /-- AMO.INCW (R271): Atomically increments the value, wrapping it to 0 when it reaches the bound bv. -/
  | amoIncw (q : BitVec 2) (g : BitVec 4) (d : BitVec 5) (a : BitVec 5) (b : BitVec 5) (w : BitVec 1) (ext : Option (BitVec 25))
  /-- TRAP (R321): Takes the software trap with a 16-bit code. -/
  | trap (q : BitVec 2) (g : BitVec 4) (k : BitVec 16)
  /-- TRET (R350): Ends the trap handler, resumes at RA and replays the recorded in-flight results. -/
  | tret (q : BitVec 2)
  /-- UIRET (R285): Leaves the user-level handler, restores the primary bank and resumes at RA. -/
  | uiret (q : BitVec 2)
  /-- CTLR (R318): Reads a control register or counter into sD. -/
  | ctlr (q : BitVec 2) (g : BitVec 4) (d : BitVec 5) (n : BitVec 12)
  /-- CTLW (R318): Writes the RW fields of a control register from sA. -/
  | ctlw (q : BitVec 2) (g : BitVec 4) (s : BitVec 5) (n : BitVec 12)
  /-- FENCE (R293): Orders the node's memory accesses with acquire, release or both at a scope. -/
  | fence (q : BitVec 2) (g : BitVec 4) (a : BitVec 1) (l : BitVec 1) (s : BitVec 4)
  /-- BRK (R321): Takes the breakpoint trap with a 16-bit code. -/
  | brk (q : BitVec 2) (g : BitVec 4) (k : BitVec 16)
  /-- CMPT (R322): Takes the compare trap when sA and sB differ. -/
  | cmpt (q : BitVec 2) (g : BitVec 4) (a : BitVec 5) (b : BitVec 5)
  /-- ENQ (R314): Copies a 64-byte packet from a register group into the ENQ outbox, or reports a full outbox in pD. -/
  | enq (q : BitVec 2) (g : BitVec 4) (p : BitVec 3) (y : BitVec 2)
  /-- YIELD (R324): Unconditional switch point between resident nodes. -/
  | yield (q : BitVec 2) (g : BitVec 4)
  /-- GENR (R316): Writes the node's access tag (space, QGEN, ASGEN) to sD. -/
  | genr (q : BitVec 2) (g : BitVec 4) (d : BitVec 5)
  /-- IDLE (R325): Holds the next bundle until a user-level record is pending or none can arrive. -/
  | idle (q : BitVec 2)
  /-- VADD (R186): Adds two tiles element-wise, wrapping. -/
  | vadd (q : BitVec 2) (u : BitVec 1) (d : BitVec 6) (a : BitVec 6) (b : BitVec 6)
  /-- VSUB (R186): Subtracts two tiles element-wise, wrapping. -/
  | vsub (q : BitVec 2) (u : BitVec 1) (d : BitVec 6) (a : BitVec 6) (b : BitVec 6)
  /-- VADDS (R186): Adds two tiles element-wise with saturation. -/
  | vadds (q : BitVec 2) (u : BitVec 1) (d : BitVec 6) (a : BitVec 6) (b : BitVec 6)
  /-- VSUBS (R186): Subtracts two tiles element-wise with saturation. -/
  | vsubs (q : BitVec 2) (u : BitVec 1) (d : BitVec 6) (a : BitVec 6) (b : BitVec 6)
  /-- VMUL (R186): Multiplies two tiles element-wise, wrapping or saturating. -/
  | vmul (q : BitVec 2) (s : BitVec 1) (u : BitVec 1) (d : BitVec 6) (a : BitVec 6) (b : BitVec 6)
  /-- VMULH (R186): Writes the high part of each element-wise product. -/
  | vmulh (q : BitVec 2) (u : BitVec 1) (d : BitVec 6) (a : BitVec 6) (b : BitVec 6)
  /-- VMAC (R186): Adds the element-wise product of two tiles into the destination tile. -/
  | vmac (q : BitVec 2) (s : BitVec 1) (u : BitVec 1) (d : BitVec 6) (a : BitVec 6) (b : BitVec 6)
  /-- VMIN (R186): Writes the element-wise minimum of two tiles. -/
  | vmin (q : BitVec 2) (u : BitVec 1) (d : BitVec 6) (a : BitVec 6) (b : BitVec 6)
  /-- VMAX (R186): Writes the element-wise maximum of two tiles. -/
  | vmax (q : BitVec 2) (u : BitVec 1) (d : BitVec 6) (a : BitVec 6) (b : BitVec 6)
  /-- VAND (R187): Writes the element-wise AND of two tiles. -/
  | vand (q : BitVec 2) (d : BitVec 6) (a : BitVec 6) (b : BitVec 6)
  /-- VOR (R187): Writes the element-wise OR of two tiles. -/
  | vor (q : BitVec 2) (d : BitVec 6) (a : BitVec 6) (b : BitVec 6)
  /-- VXOR (R187): Writes the element-wise XOR of two tiles. -/
  | vxor (q : BitVec 2) (d : BitVec 6) (a : BitVec 6) (b : BitVec 6)
  /-- VANDN (R187): Writes the element-wise A AND NOT B. -/
  | vandn (q : BitVec 2) (d : BitVec 6) (a : BitVec 6) (b : BitVec 6)
  /-- VSEL (R187): Writes the elements of tA where the mask is non-zero and keeps the others. -/
  | vsel (q : BitVec 2) (d : BitVec 6) (a : BitVec 6) (b : BitVec 6)
  /-- VCMP.eq (R187): Writes −1 where the elements are equal and 0 elsewhere. -/
  | vcmpEq (q : BitVec 2) (d : BitVec 6) (a : BitVec 6) (b : BitVec 6)
  /-- VCMP.ne (R187): Writes −1 where the elements differ and 0 elsewhere. -/
  | vcmpNe (q : BitVec 2) (d : BitVec 6) (a : BitVec 6) (b : BitVec 6)
  /-- VCMP.lt (R187): Writes −1 where A < B, signed, and 0 elsewhere. -/
  | vcmpLt (q : BitVec 2) (d : BitVec 6) (a : BitVec 6) (b : BitVec 6)
  /-- VCMP.ge (R187): Writes −1 where A ≥ B, signed, and 0 elsewhere. -/
  | vcmpGe (q : BitVec 2) (d : BitVec 6) (a : BitVec 6) (b : BitVec 6)
  /-- VCMP.ltw (R187): Writes −1 where A < B, unsigned, and 0 elsewhere. -/
  | vcmpLtw (q : BitVec 2) (d : BitVec 6) (a : BitVec 6) (b : BitVec 6)
  /-- VCMP.gew (R187): Writes −1 where A ≥ B, unsigned, and 0 elsewhere. -/
  | vcmpGew (q : BitVec 2) (d : BitVec 6) (a : BitVec 6) (b : BitVec 6)
  /-- VPERM (R193): Permutes the elements within each row by index tile tB. -/
  | vperm (q : BitVec 2) (d : BitVec 6) (a : BitVec 6) (b : BitVec 6)
  /-- VGATH (R194): Gathers elements of tA by tile index. -/
  | vgath (q : BitVec 2) (d : BitVec 6) (a : BitVec 6) (b : BitVec 6)
  /-- VSCAT (R194): Scatters the elements of tA into tD by tile index. -/
  | vscat (q : BitVec 2) (d : BitVec 6) (a : BitVec 6) (b : BitVec 6)
  /-- VCMPT (R200): Compares two tiles bit for bit and takes the compare trap on a mismatch. -/
  | vcmpt (q : BitVec 2) (a : BitVec 6) (b : BitVec 6)
  /-- TLD (R203): Loads a tile through a handle and replaces its SAT bit with the load's clamp. -/
  | tld (q : BitVec 2) (g : BitVec 4) (h : BitVec 4) (t : BitVec 6)
  /-- TST (R204): Stores a tile through a handle, with rounding, census and flags. -/
  | tst (q : BitVec 2) (g : BitVec 4) (h : BitVec 4) (t : BitVec 6) (m : BitVec 2)
  /-- VSHL (R189): Shifts each element left by an immediate, scalar or per-element count. -/
  | vshl (q : BitVec 2) (x : BitVec 2) (d : BitVec 6) (a : BitVec 6) (b : BitVec 6)
  /-- VSHR (R189): Shifts each element right logically. -/
  | vshr (q : BitVec 2) (x : BitVec 2) (d : BitVec 6) (a : BitVec 6) (b : BitVec 6)
  /-- VSAR (R189): Shifts each element right arithmetically. -/
  | vsar (q : BitVec 2) (x : BitVec 2) (d : BitVec 6) (a : BitVec 6) (b : BitVec 6)
  /-- VSHRN (R190): Narrows each element by a rounded right shift, with saturation. -/
  | vshrn (q : BitVec 2) (m : BitVec 2) (d : BitVec 6) (a : BitVec 6) (b : BitVec 6) (ext : Option (BitVec 25))
  /-- VABS (R192): Writes the absolute value of each element, wrapping or saturating. -/
  | vabs (q : BitVec 2) (s : BitVec 1) (d : BitVec 6) (a : BitVec 6)
  /-- VNEG (R192): Writes the negation of each element, wrapping or saturating. -/
  | vneg (q : BitVec 2) (s : BitVec 1) (d : BitVec 6) (a : BitVec 6)
  /-- VCLZ (R192): Writes the count of leading zeros of each element. -/
  | vclz (q : BitVec 2) (d : BitVec 6) (a : BitVec 6)
  /-- VCLS (R192): Writes the headroom of each element. -/
  | vcls (q : BitVec 2) (d : BitVec 6) (a : BitVec 6)
  /-- VPOPC (R192): Writes the population count of each element. -/
  | vpopc (q : BitVec 2) (d : BitVec 6) (a : BitVec 6)
  /-- VCVT (R191): Converts elements to the destination width, with a left shift and saturation. -/
  | vcvt (q : BitVec 2) (u : BitVec 1) (d : BitVec 6) (a : BitVec 6) (b : BitVec 6)
  /-- VPACK (R191): Packs two tiles into one tile of half the element width. -/
  | vpack (q : BitVec 2) (w : BitVec 1) (d : BitVec 6) (a : BitVec 6) (b : BitVec 6)
  /-- VUNPK (R191): Unpacks alternate rows into a tile of double the element width. -/
  | vunpk (q : BitVec 2) (u : BitVec 1) (d : BitVec 6) (a : BitVec 6) (e : BitVec 1)
  /-- VROTL (R193): Rotates the elements along each row. -/
  | vrotl (q : BitVec 2) (x : BitVec 1) (d : BitVec 6) (a : BitVec 6) (b : BitVec 6) (ext : Option (BitVec 25))
  /-- VBCAST (R192): Broadcasts a scalar register into every element of a tile. -/
  | vbcast (q : BitVec 2) (d : BitVec 6) (s : BitVec 5)
  /-- VBCAST.row (R192): Broadcasts column 0 of each row along the row. -/
  | vbcastRow (q : BitVec 2) (d : BitVec 6) (a : BitVec 6)
  /-- VBCAST.col (R192): Broadcasts row 0 of each column down the column. -/
  | vbcastCol (q : BitVec 2) (d : BitVec 6) (a : BitVec 6)
  /-- VMOV (R192): Copies a tile bit for bit. -/
  | vmov (q : BitVec 2) (d : BitVec 6) (a : BitVec 6)
  /-- VREDSUM (R196): Sums a tile by row, by column or as a whole. -/
  | vredsum (q : BitVec 2) (x : BitVec 2) (d : BitVec 6) (a : BitVec 6) (u : BitVec 1)
  /-- VREDMAX (R196): Reduces a tile to its maximum by row, by column or as a whole. -/
  | vredmax (q : BitVec 2) (x : BitVec 2) (d : BitVec 6) (a : BitVec 6) (u : BitVec 1)
  /-- VREDMIN (R196): Reduces a tile to its minimum by row, by column or as a whole. -/
  | vredmin (q : BitVec 2) (x : BitVec 2) (d : BitVec 6) (a : BitVec 6) (u : BitVec 1)
  /-- VABSMAX (R196): Reduces a tile to its maximum absolute value. -/
  | vabsmax (q : BitVec 2) (x : BitVec 2) (d : BitVec 6) (a : BitVec 6)
  /-- VPART (R195): Turns a mask into a dense index list, or a count, per row. -/
  | vpart (q : BitVec 2) (n : BitVec 1) (d : BitVec 6) (a : BitVec 6)
  /-- VSCAN (R197): Writes inclusive or exclusive prefix sums along rows or columns. -/
  | vscan (q : BitVec 2) (x : BitVec 2) (d : BitVec 6) (a : BitVec 6) (s : BitVec 1) (u : BitVec 1)
  /-- VLUT3 (R198): Computes a three-input bitwise function given by an 8-bit table. -/
  | vlut3 (q : BitVec 2) (l : BitVec 8) (d : BitVec 5) (a : BitVec 6) (b : BitVec 5)
  /-- VFSL (R199): Funnel-shifts a pair of tiles left. -/
  | vfsl (q : BitVec 2) (d : BitVec 6) (a : BitVec 6) (b : BitVec 6) (n : BitVec 5)
  /-- VFSR (R199): Funnel-shifts a pair of tiles right. -/
  | vfsr (q : BitVec 2) (d : BitVec 6) (a : BitVec 6) (b : BitVec 6) (n : BitVec 5)
  /-- VEXP2 (R241): Computes 2^x for each element by the table routine. -/
  | vexp2 (q : BitVec 2) (d : BitVec 6) (a : BitVec 6) (f : BitVec 5) (ext : Option (BitVec 25))
  /-- VLOG2 (R241): Computes log2 x for each element. -/
  | vlog2 (q : BitVec 2) (d : BitVec 6) (a : BitVec 6) (f : BitVec 5) (ext : Option (BitVec 25))
  /-- VRCP (R241): Computes the reciprocal of each element. -/
  | vrcp (q : BitVec 2) (d : BitVec 6) (a : BitVec 6) (f : BitVec 5) (ext : Option (BitVec 25))
  /-- VRSQ (R241): Computes the reciprocal square root of each element. -/
  | vrsq (q : BitVec 2) (d : BitVec 6) (a : BitVec 6) (f : BitVec 5) (ext : Option (BitVec 25))
  /-- VSMAX (R242): Computes the softmax of each row. -/
  | vsmax (q : BitVec 2) (d : BitVec 6) (a : BitVec 6) (f : BitVec 5)
  /-- VRMSN (R243): Applies RMS normalisation to each row with a gain. -/
  | vrmsn (q : BitVec 2) (d : BitVec 6) (a : BitVec 6) (b : BitVec 6) (ext : Option (BitVec 25))
  /-- VLNRM (R243): Applies layer normalisation to each row with a gain. -/
  | vlnrm (q : BitVec 2) (d : BitVec 6) (a : BitVec 6) (b : BitVec 6) (ext : Option (BitVec 25))
  /-- VGELU (R241): Computes GELU for each element. -/
  | vgelu (q : BitVec 2) (d : BitVec 6) (a : BitVec 6) (f : BitVec 5) (ext : Option (BitVec 25))
  /-- VOPT.SGDM (R245): Applies an SGD-with-momentum update to weights and first moment. -/
  | voptSgdm (q : BitVec 2) (m : BitVec 2) (d : BitVec 6) (a : BitVec 6) (b : BitVec 6) (ext : Option (BitVec 25))
  /-- VOPT.LION (R245): Applies a Lion update to weights and first moment. -/
  | voptLion (q : BitVec 2) (m : BitVec 2) (d : BitVec 6) (a : BitVec 6) (b : BitVec 6) (ext : Option (BitVec 25))
  /-- VOPT.ADAM (R245): Applies an Adam update to weights and both moments. -/
  | voptAdam (q : BitVec 2) (m : BitVec 2) (d : BitVec 6) (a : BitVec 6) (b : BitVec 6) (ext : Option (BitVec 25))
  /-- MBEG (R223): Opens a matrix chain on an accumulator, optionally with checksums. -/
  | mbeg (q : BitVec 2) (d : BitVec 4) (k : BitVec 1)
  /-- MEND (R223): Closes the accumulator's chain and ends its run. -/
  | mend (q : BitVec 2) (d : BitVec 4)
  /-- MZERO (R223): Zeroes the accumulator and clears its marks and flags. -/
  | mzero (q : BitVec 2) (d : BitVec 4)
  /-- MMA (R225): Adds the products A(i,k)·B(j,k) into an accumulator. -/
  | mma (q : BitVec 2) (d : BitVec 4) (a : BitVec 6) (b : BitVec 6) (ext : Option (BitVec 25))
  /-- MMAT (R225): Adds the transposed products A(k,i)·B(k,j) into an accumulator. -/
  | mmat (q : BitVec 2) (d : BitVec 4) (a : BitVec 6) (b : BitVec 6) (ext : Option (BitVec 25))
  /-- EPI (R228): Narrows a block of the accumulator into a tile. -/
  | epi (q : BitVec 2) (t : BitVec 6) (a : BitVec 4) (x : BitVec 2) (y : BitVec 2) (m : BitVec 2) (s : BitVec 5) (ext : Option (BitVec 25))
  /-- EPI.ADD (R229): Narrows the accumulator and adds it, saturating, into an INT32 tensor. -/
  | epiAdd (q : BitVec 2) (h : BitVec 4) (a : BitVec 4) (m : BitVec 2) (s : BitVec 5) (e : BitVec 1) (l : BitVec 1) (o : BitVec 4) (ext : Option (BitVec 25))
  /-- EPI.SEND (R233): Narrows the accumulator and sends it to a peer over a route. -/
  | epiSend (q : BitVec 2) (r : BitVec 2) (h : BitVec 4) (a : BitVec 4) (m : BitVec 2) (s : BitVec 5) (ext : Option (BitVec 25))
  /-- EPI.CK (R234): Checks the accumulator against its checksums and writes the result to pD. -/
  | epiCk (q : BitVec 2) (p : BitVec 3) (a : BitVec 4)
  /-- HSET (R207): Writes one 64-bit quarter of a handle from sA. -/
  | hset (q : BitVec 2) (g : BitVec 4) (h : BitVec 4) (x : BitVec 2) (a : BitVec 5)
  /-- HLD (R209): Loads a handle from the node's scratchpad. -/
  | hld (q : BitVec 2) (g : BitVec 4) (h : BitVec 4) (f : BitVec 8) (a : BitVec 5)
  /-- HST (R209): Stores a handle to the node's scratchpad. -/
  | hst (q : BitVec 2) (g : BitVec 4) (h : BitVec 4) (f : BitVec 8) (a : BitVec 5)
  /-- HORG (R208): Sets one origin of a handle from a register. -/
  | horg (q : BitVec 2) (g : BitVec 4) (h : BitVec 4) (d : BitVec 3) (a : BitVec 5)
  /-- HORG (R208): Sets one origin of a handle from an immediate. -/
  | horgImm (q : BitVec 2) (g : BitVec 4) (h : BitVec 4) (d : BitVec 3) (i : BitVec 9) (ext : Option (BitVec 25))
  /-- HSTEP (R208): Adds a register value to one origin of a handle. -/
  | hstep (q : BitVec 2) (g : BitVec 4) (h : BitVec 4) (d : BitVec 3) (a : BitVec 5)
  /-- HSTEP (R208): Adds a signed immediate to one origin of a handle. -/
  | hstepImm (q : BitVec 2) (g : BitVec 4) (h : BitVec 4) (d : BitVec 3) (i : BitVec 9) (ext : Option (BitVec 25))
  /-- KSET (R210): Writes the masked fields of a scale register from sA. -/
  | kset (q : BitVec 2) (g : BitVec 4) (k : BitVec 6) (m : BitVec 5) (a : BitVec 5)
  /-- KGET (R211): Reads a scale register word, or its exponent, into sD. -/
  | kget (q : BitVec 2) (g : BitVec 4) (d : BitVec 5) (k : BitVec 6) (f : BitVec 1)
  /-- CEN.CLOSE (R212): Closes the census window of a scale register. -/
  | cenClose (q : BitVec 2) (g : BitVec 4) (k : BitVec 6)
  /-- CEN.GET (R211): Reads the closed or current census of a scale register into sD. -/
  | cenGet (q : BitVec 2) (g : BitVec 4) (d : BitVec 5) (k : BitVec 6) (f : BitVec 1)
  /-- SHIFT (R213): Writes to sD the narrowing shift that the census gives for width w. -/
  | shift (q : BitVec 2) (g : BitVec 4) (d : BitVec 5) (k : BitVec 6) (w : BitVec 6)
  /-- TSH (R217): Writes a tile shape register from sA. -/
  | tsh (q : BitVec 2) (g : BitVec 4) (t : BitVec 6) (s : BitVec 5)
  /-- TSH (R217): Reads a tile shape register into sD. -/
  | tshRead (q : BitVec 2) (g : BitVec 4) (t : BitVec 6) (s : BitVec 5)
  /-- TSHR (R218): Copies a shape register with SAT cleared, optionally replacing the row count. -/
  | tshr (q : BitVec 2) (g : BitVec 4) (t : BitVec 6) (u : BitVec 6) (b : BitVec 5)
  /-- CPY (R278): Queues a copy of a window between two handles on a copy slot. -/
  | cpy (q : BitVec 2) (g : BitVec 4) (h : BitVec 4) (s : BitVec 4) (w : BitVec 4)
  /-- CPYK (R278): Queues a copy that narrows or shifts each element. -/
  | cpyk (q : BitVec 2) (g : BitVec 4) (h : BitVec 4) (s : BitVec 4) (w : BitVec 4)
  /-- CPYF (R278): Queues a fill of a window with a scalar value. -/
  | cpyf (q : BitVec 2) (g : BitVec 4) (h : BitVec 4) (w : BitVec 4) (v : BitVec 5)
  /-- CPYB (R279): Queues a copy whose source is written several times at strided origins. -/
  | cpyb (q : BitVec 2) (g : BitVec 4) (h : BitVec 4) (s : BitVec 4) (w : BitVec 4) (m : BitVec 5)
  /-- CPYQ (R279): Arms a copy that fires when a counter reaches a threshold. -/
  | cpyq (q : BitVec 2) (g : BitVec 4) (h : BitVec 4) (s : BitVec 4) (w : BitVec 4) (t : BitVec 5)
  /-- CPYCAN (R282): Cancels armed and not-yet-writing copy commands of the selected slots. -/
  | cpycan (q : BitVec 2) (g : BitVec 4) (a : BitVec 1) (b : BitVec 1)
  /-- SEND (R334): Queues the send of a window to a peer node over a route. -/
  | send (q : BitVec 2) (g : BitVec 4) (h : BitVec 4) (s : BitVec 4) (w : BitVec 4) (r : BitVec 2)
  /-- SENDT (R337): Arms a send that fires when a counter reaches a threshold. -/
  | sendt (q : BitVec 2) (g : BitVec 4) (h : BitVec 4) (s : BitVec 4) (w : BitVec 4) (r : BitVec 2)
  /-- COLL (R340): Registers this rank's part in a listed collective with the link collective unit. -/
  | coll (q : BitVec 2) (g : BitVec 4) (h : BitVec 4) (s : BitVec 4) (w : BitVec 4) (r : BitVec 2)
  /-- ABORT (R342): Withdraws the route's last collective and floods an abort flit through the pod. -/
  | abort (q : BitVec 2) (g : BitVec 4) (r : BitVec 2)
  /-- CSET (R304): Sets a counter from a register. -/
  | cset (q : BitVec 2) (g : BitVec 4) (n : BitVec 6) (a : BitVec 5)
  /-- CSET (R304): Sets a counter from an immediate. -/
  | csetImm (q : BitVec 2) (g : BitVec 4) (n : BitVec 6) (i : BitVec 10) (ext : Option (BitVec 25))
  /-- CADD (R304): Adds a register value to a counter. -/
  | cadd (q : BitVec 2) (g : BitVec 4) (n : BitVec 6) (a : BitVec 5)
  /-- CADD (R304): Adds a signed immediate to a counter. -/
  | caddImm (q : BitVec 2) (g : BitVec 4) (n : BitVec 6) (i : BitVec 10) (ext : Option (BitVec 25))
  /-- CWAIT (R305): Holds the next bundle until the counter reaches a register target. -/
  | cwait (q : BitVec 2) (g : BitVec 4) (n : BitVec 6) (a : BitVec 5)
  /-- CWAIT (R305): Holds the next bundle until the counter reaches an immediate target. -/
  | cwaitImm (q : BitVec 2) (g : BitVec 4) (n : BitVec 6) (i : BitVec 10) (ext : Option (BitVec 25))
  /-- BARB (R306): Byte-counting barrier on a register target, which subtracts the target once it is met. -/
  | barb (q : BitVec 2) (g : BitVec 4) (n : BitVec 6) (a : BitVec 5)
  /-- BARB (R306): Byte-counting barrier on an immediate target. -/
  | barbImm (q : BitVec 2) (g : BitVec 4) (n : BitVec 6) (i : BitVec 10) (ext : Option (BitVec 25))
  /-- BAR (R307): Holds the next bundle until the selected engines report DONE. -/
  | bar (q : BitVec 2) (g : BitVec 4) (a : BitVec 1) (b : BitVec 1) (e : BitVec 1) (l : BitVec 1)
  /-- JCB.RAISE (R309): Raises the node's job control block EXPECTED by a register value and reports acceptance in pD. -/
  | jcbRaise (q : BitVec 2) (g : BitVec 4) (p : BitVec 3) (a : BitVec 5)
  /-- JCB.RAISE (R309): Raises the node's job control block EXPECTED by an immediate. -/
  | jcbRaiseImm (q : BitVec 2) (g : BitVec 4) (p : BitVec 3) (i : BitVec 13) (ext : Option (BitVec 25))
  /-- JCB.DONE (R310): Posts the node's one completion early. -/
  | jcbDone (q : BitVec 2) (g : BitVec 4)
  /-- TOK.GIVE (R312): Hands a TOKEN.GIVE packet, counted by a register, to the ENQ outbox. -/
  | tokGive (q : BitVec 2) (g : BitVec 4) (l : BitVec 6) (a : BitVec 5)
  /-- TOK.GIVE (R312): Hands a TOKEN.GIVE packet with an immediate count to the ENQ outbox. -/
  | tokGiveImm (q : BitVec 2) (g : BitVec 4) (l : BitVec 6) (i : BitVec 10) (ext : Option (BitVec 25))
  /-- TOK.TAKE (R313): Asks the Awl to take a register count of tokens from a link. -/
  | tokTake (q : BitVec 2) (g : BitVec 4) (p : BitVec 3) (l : BitVec 6) (a : BitVec 5)
  /-- TOK.TAKE (R313): Asks the Awl to take an immediate count of tokens from a link. -/
  | tokTakeImm (q : BitVec 2) (g : BitVec 4) (p : BitVec 3) (l : BitVec 6) (i : BitVec 7) (ext : Option (BitVec 25))
  /-- E (R133): Extends the immediate of the preceding word. -/
  | extensionWord (i : BitVec 25)
  /-- N (R137): N word; occupies no slot and has no effect. -/
  | nop (q : BitVec 2) (x : BitVec 25)
  /-- QTAIL_WRITE (R76): Host doorbell write that releases pending packets of a queue and checks their count. -/
  | qtailWrite (q : BitVec 6) (v : BitVec 64)
  /-- QUEUE_ENABLE (R75): A QCFG write that sets EN on a disabled queue, or withdraws a held clear. -/
  | queueEnable (q : BitVec 6) (v : BitVec 64)
  /-- QUEUE_DISABLE (R75): A QCFG write that clears EN, at once in IDLE and otherwise held. -/
  | queueDisable (q : BitVec 6) (v : BitVec 64)
  /-- QCTL_RST (R87): A QCTL write with RST set, which resets the queue as QRESET does. -/
  | qctlRst (q : BitVec 6) (v : BitVec 64)
  /-- TLINK_WRITE (R86): Configures a token link and sets its COUNT to 0. -/
  | tlinkWrite (n : BitVec 6) (v : BitVec 64)
  /-- EXCOMMIT (R83): Checks the EXSLOT table and installs it when every queue is disabled. -/
  | excommit (v : BitVec 64)
  /-- FLIPREQ_ACK (R89): Driver acknowledges a host-to-device flip; the Awl sets the device entry valid. -/
  | flipreqAck (v : BitVec 64)
  /-- FLIPREQ_TO_HOST (R89): Driver requests a device-to-host flip of a frame. -/
  | flipreqToHost (v : BitVec 64)
  /-- REGISTER_WRITE (R74): A write to a BAR0 register that has no behaviour of its own, such as QBASE, QCBASE or EXSLOT. -/
  | registerWrite (off : BitVec 20) (d : BarData)
  /-- AWL_SLOT (R83): A 125 ns slot of the cyclic executive begins, and its owner performs at most one step. -/
  | awlSlot
  /-- LAUNCH_GRAPH (R80): Validates a graph of nodes and makes the nodes with no predecessors READY. -/
  | launchGraph (src : PacketSource) (pkt : BitVec 512)
  /-- LAUNCH_NODE (R80): Validates and launches a single node. -/
  | launchNode (src : PacketSource) (pkt : BitVec 512)
  /-- WRITE (R80): Writes up to 32 bytes to a tensor-relative address. -/
  | write (src : PacketSource) (pkt : BitVec 512)
  /-- SIGNAL (R80): Stores a value, or atomically adds it, at a signal word. -/
  | signal (src : PacketSource) (pkt : BitVec 512)
  /-- WRITE_SIGNAL (R81): Writes data and then, once the data is visible, a signal. -/
  | writeSignal (src : PacketSource) (pkt : BitVec 512)
  /-- TOKEN_GIVE (R86): Adds COUNT tokens to a token link. -/
  | tokenGive (src : PacketSource) (pkt : BitVec 512)
  /-- TOKEN_WAIT (R86): Takes COUNT tokens from a link, or puts the queue in WAITING to retry. -/
  | tokenWait (src : PacketSource) (pkt : BitVec 512)
  /-- COPY (R80): Host packet that copies LEN bytes between tensor-relative addresses. -/
  | copy (src : PacketSource) (pkt : BitVec 512)
  /-- FENCE_PACKET (R81): Host packet that orders the queue's effects with acquire or release at a scope. -/
  | fencePacket (src : PacketSource) (pkt : BitVec 512)
  /-- QRESET (R87): Resets a queue: bumps its generation and stops its work. -/
  | qreset (src : PacketSource) (pkt : BitVec 512)
  /-- SLICE (R82): Sets the PRIO and time slice of a queue. -/
  | slice (src : PacketSource) (pkt : BitVec 512)
  /-- BIND_GANG (R105): Forms a gang of width 2 or 4 from a logical core. -/
  | bindGang (src : PacketSource) (pkt : BitVec 512)
  /-- BIND_DISSOLVE (R106): Dissolves a gang and unparks its front ends. -/
  | bindDissolve (src : PacketSource) (pkt : BitVec 512)
  /-- BIND_RESERVE (R102): Sets NMIN and NMAX of the communication reserve of the selected stacks. -/
  | bindReserve (src : PacketSource) (pkt : BitVec 512)
  /-- REPAIR_REBIND_HALF (R365): Rebinds the cores of a row away from a failing slab half. -/
  | repairRebindHalf (src : PacketSource) (pkt : BitVec 512)
  /-- REPAIR_DRAM_ROW (R366): Soft-repairs a DRAM row by remapping it to a spare row. -/
  | repairDramRow (src : PacketSource) (pkt : BitVec 512)
  /-- REPAIR_SPARE_LANE (R367): Takes a lane of a torus port out of service and brings in the spare lane. -/
  | repairSpareLane (src : PacketSource) (pkt : BitVec 512)
  /-- REPAIR_RETIRE_CORE (R363): Drains a logical core, retires it, and makes its halves spares. -/
  | repairRetireCore (src : PacketSource) (pkt : BitVec 512)
  /-- REPAIR_SCAN (R363): Self-tests the idle halves and lanes, and may set the power limit. -/
  | repairScan (src : PacketSource) (pkt : BitVec 512)
  /-- ATTEST_QUOTE (R370): Writes a quote record signed over a nonce and the module's measurement. -/
  | attestQuote (src : PacketSource) (pkt : BitVec 512)
  /-- ATTEST_PATCH (R90): Verifies a signed patch and installs it in the patch table. -/
  | attestPatch (src : PacketSource) (pkt : BitVec 512)
  /-- SIGNATURE_DONE (R84): Signature computation for a QUOTE or PATCH finishes in housekeeping, and the packet completes. -/
  | signatureDone
  /-- PACKET_COMPLETE (R78): A packet reaches completion and writes its completion record and interrupt. -/
  | packetComplete (q : BitVec 6) (i : BitVec 32)
  /-- QRESET_ACKS_DONE (R87): The last acknowledgement arrives; open blocks fail with Q_RESET and the queue enters IDLE. -/
  | qresetAcksDone (q : BitVec 6)
  /-- ASGEN_CHANGE_DONE (R264): Every agent has acknowledged the new ASGEN, and the WRITE completes. -/
  | asgenChangeDone (sp : BitVec 6)
  /-- FLIP_DRAIN_DONE (R89): Device accesses to the frame have drained, and FLIPSTAT.DONE is set. -/
  | flipDrainDone
  /-- ENQ_OUTBOX_ACCEPT (R108): The ENQ inbox accepts an outbox packet and frees its entry. -/
  | enqOutboxAccept (core : BitVec 10)
  /-- MAILBOX_RECORD_WRITE (R262): The Awl writes a pending mailbox record once the mailbox has room, and raises vector 64. -/
  | mailboxRecordWrite
  /-- ENTRY_REBUILD (R266): The Awl rebuilds a poisoned table entry from the shadow copy. -/
  | entryRebuild (sp : BitVec 6) (pa : BitVec 64)
  /-- SLICE_EXPIRY (R82): The holder's time slice expires, and holding passes on after the current packet. -/
  | sliceExpiry (prio : BitVec 3)
  /-- RESERVE_SAMPLE (R101): Once per µs the distributor samples the queued link flits of each stack. -/
  | reserveSample
  /-- RESERVE_DECISION (R101): Every 10 µs the reserve size N of each stack is grown or shrunk. -/
  | reserveDecision
  /-- RESERVE_CHANGE_DONE (R100): A joining or leaving core's last node of the other kind leaves, and its membership changes. -/
  | reserveChangeDone (core : BitVec 10)
  /-- PREEMPT_WAIT_EXPIRY (R99): A READY node has waited 100 µs, and the distributor requests pre-emption of a lower-PRIO node. -/
  | preemptWaitExpiry (uid : Nat)
  /-- DISTRIBUTOR_PLACE (R94): The distributor places a READY or SAVED node on a suitable core's run queue. -/
  | distributorPlace
  /-- SEGMENT_COPY_DONE (R178): An overlay segment finishes copying and the fetch freeze ends. -/
  | segmentCopyDone (core : BitVec 10)
  /-- WAIT_SATISFIED (R305): The counter of a waiting CWAIT or BARB reaches its target, and the node becomes runnable. -/
  | waitSatisfied (uid : Nat)
  /-- BAR_RELEASE (R307): Every engine in the mask reports DONE, and the next bundle issues. -/
  | barRelease (uid : Nat)
  /-- IDLE_END (R325): The IDLE condition comes to hold and issue continues. -/
  | idleEnd (uid : Nat)
  /-- JCB_RAISE_ANSWER (R308): The home stop's answer to a raise arrives, and pD is written. -/
  | jcbRaiseAnswer (uid : Nat)
  /-- CENSUS_CLOSE (R42): A CEN.CLOSE takes effect after the census writes of its window have merged. -/
  | censusClose (uid : Nat) (k : BitVec 6)
  /-- MATRIX_RUN_END (R48): A run of 65,536 k-steps ends, and its exact sum is added to the accumulator with saturation. -/
  | matrixRunEnd (uid : Nat) (a : BitVec 4)
  /-- COPY_COMPLETE (R280): A copy command completes: visibility, counter add, record and DONE. -/
  | copyComplete (uid : Nat) (slot : CopySlot)
  /-- CPYQ_FIRE (R279): An armed CPYQ's counter reaches its threshold, and the copy joins its slot's queue. -/
  | cpyqFire (uid : Nat) (slot : CopySlot) (i : Nat)
  /-- EPI_ADD_COMPLETE (R229): The epilogue engine finishes an EPI.ADD and releases at its scope. -/
  | epiAddComplete (uid : Nat)
  /-- SENDT_FIRE (R337): An armed SENDT's counter reaches its threshold, and the send joins the link queue. -/
  | sendtFire (uid : Nat) (i : Nat)
  /-- SEND_DELIVERY (R335): A send arrives at the peer node, which writes it, adds to its counter and acknowledges. -/
  | sendDelivery (d : Delivery)
  /-- SEND_COMPLETE (R338): A send's acknowledgement returns or its fault is recorded. -/
  | sendComplete (uid : Nat) (i : Nat) (ans : SendAnswer)
  /-- COLL_HOP (R341): A collective packet arrives at a module and its list entries are applied. -/
  | collHop (p : CollPacket)
  /-- COLL_DELIVER_APPLY (R341): A held DELIVER payload is written into the receiver once the commit flit has passed and the RECV is registered. -/
  | collDeliverApply (i : Nat)
  /-- ABORT_FLIT (R342): An abort control flit arrives at a module, which records the tag and discards its work. -/
  | abortFlit (tag : CollTag) (port : BitVec 4)
  /-- JCB_HOME_RAISE (R71): The home stop accepts or refuses a raise of EXPECTED. -/
  | jcbHomeRaise (uid : Nat)
  /-- JCB_HOME_COMPLETION (R71): The home stop counts a node completion and may complete the block. -/
  | jcbHomeCompletion (jcb : BitVec 12)
  /-- JCB_HOME_NODE_FAILURE (R71): The home stop records the first node failure and marks the block FAILED. -/
  | jcbHomeNodeFailure (jcb : BitVec 12) (node : BitVec 20) (status : BitVec 32)
  /-- NODE_COMMIT (R360): After the engines drain, a node commits its staged lines, merges its census and posts its completion. -/
  | nodeCommit (uid : Nat)
  /-- TRAP_ENTRY (R349): The highest trap cause is taken at a boundary, and the handler is entered or the node fails. -/
  | trapEntry (core : BitVec 10)
  /-- USER_INTERRUPT_ENTRY (R285): A queued completion record makes the front end enter the user-level handler. -/
  | userInterruptEntry (core : BitVec 10)
  /-- PREEMPT_QUIESCE (R354): The front end takes a pre-emption request at a boundary and records its in-flight and queued work. -/
  | preemptQuiesce (uid : Nat) (begun : Nat × Nat)
  /-- NODE_SAVE (R354): Once begun commands complete, the context and pool slice are written to the save area and the node is SAVED. -/
  | nodeSave (uid : Nat)
  /-- ERROR_CONSUMED (R358): A node consumes poisoned data or a detected uncorrectable error and is rolled back or failed. -/
  | errorConsumed (uid : Nat)
  /-- POWER_GOOD (R362): Module reset begins: ROM boot, patch load, DRAM hard repair and training. -/
  | powerGood
  /-- STACK_SELF_TEST_PASS (R362): A stack passes its welt self-test and joins service. -/
  | stackSelfTestPass (r : SelfTest)
  /-- BRINGUP_TIMEOUT (R362): All stacks have joined, or 4 s have passed, and clocks and PCIe step to full rate. -/
  | bringupTimeout
  /-- PROBE_RETURN (R362): A probe flit returns around an axis, which gives that axis's extent. -/
  | probeReturn (axis : Axis) (hops : BitVec 6)
  /-- PROBE_TIMEOUT (R362): A probe does not return within 1 ms and the extent is set to 1. -/
  | probeTimeout (axis : Axis)
  /-- ENGINE_CHECK_FAIL (R365): An engine instance fails its built-in check, and its half enters SPLIT. -/
  | engineCheckFail (core : BitVec 10) (slot : EngineSlot)
  /-- REBIND_DONE (R365): The affected cores have drained, and the welt is rebound and the half retired. -/
  | rebindDone
  /-- BIND_DRAIN_DONE (R105): The affected cores of a BIND have drained, and the welt is rebound and the command completes. -/
  | bindDrainDone
  /-- DRAM_SOFT_REPAIR (R366): The controller finds an uncorrectable row and soft-repairs it automatically. -/
  | dramSoftRepair (chan : BitVec 8) (bank : BitVec 8) (row : BitVec 32) (lost : List Nat)
  /-- LANE_RETRAIN_DONE (R367): A port finishes retraining onto the spare lane and sends its held flits. -/
  | laneRetrainDone (port : BitVec 4)
  /-- LANE_FAIL (R367): A lane fails while the spare is in service, and the port degrades to four lanes. -/
  | laneFail (port : BitVec 4) (lane : BitVec 4)
  /-- POWER_SAMPLE (R368): The heel die measures module power every 10 µs. -/
  | powerSample (watts : Nat)
  /-- CLOCK_STEP (R368): At most once per 100 µs the arithmetic clock steps down or up against the power limit. -/
  | clockStep
  /-- TELEMETRY_REFRESH (R369): The Awl refreshes the telemetry area every 1 ms. -/
  | telemetryRefresh
  /-- STACK_SELF_TEST_FAIL (R362): A stack fails its welt self-test during bring-up; on its second failure it is reported absent and its 256 logical coordinates read absent. -/
  | stackSelfTestFail (st : BitVec 2)
  /-- CORE_RETIRE_DRAIN_DONE (R363): The drain of a core named by REPAIR OP 3 completes; its coordinate then reads absent and its halves become spares. -/
  | coreRetireDrainDone (core : BitVec 10)
deriving DecidableEq, Repr

end Sys2Proof
end

