-- ==== Sys2Proof/Machine/Sig.lean ====
section
/-! DEFINITION. What the static checks need to know of each word: what it reads and writes, and the field rules of the entries (R131 to R133, R137, R141 and the entries),
the registers of the independence rule (R138), the bank ports (R139) and the pipe of each word (R136). -/

namespace Sys2Proof

/-- The registers of the independence rule (R138). -/
inductive Reg where
  | s (n : Nat) | p (n : Nat) | h (n : Nat) | k (n : Nat) | t (n : Nat) | ts (n : Nat) | a (n : Nat) | c (n : Nat) | e (n : Nat)
deriving DecidableEq, Repr

/-- The pipes of R136; class S is told apart because a second scalar-pipe word must be class S. -/
inductive Pipe where
  | sA | sc | v | m | c | none
deriving DecidableEq, Repr

/-- What the static checks need to know of a word: Q, guard, pipe, registers read and written, bank-port tiles,
whether it stands alone (R137), whether it is a CALL (R163), its extension, and whether its own fields are legal. -/
structure Sig where
  q : BitVec 2 := 0
  g : BitVec 4 := 0
  pipe : Pipe := .none
  reads : List Reg := []
  writes : List Reg := []
  bank : List (BitVec 6) := []
  alone : Bool := false
  call : Bool := false
  ext : Option (BitVec 25) := none
  legal : Bool := true
  word : Bool := true
deriving DecidableEq, Repr

/-- A scalar register as R138 counts it. -/
def sR (n : BitVec 5) : List Reg := [.s n.toNat]

/-- A run of scalar registers (R274, R314, R331). -/
def sBlock (first count : Nat) : List Reg := (List.range count).map fun i => .s (first + i)

/-- The predicate that a guard or selector names (R132, R158). -/
def pR (g : BitVec 4) : List Reg := [.p (g.extractLsb' 0 3).toNat]

/-- A tile read, with its shape register (R144). -/
def tR (t : BitVec 6) : List Reg := [.t t.toNat, .ts t.toNat]

/-- A shape register. -/
def tsR (t : BitVec 6) : List Reg := [.ts t.toNat]

/-- A tile written; the SAT bit that a vector word may set in its shape register is no write of the register (DESIGN CHOICE: log entry 101). -/
def tW (t : BitVec 6) : List Reg := [.t t.toNat]

/-- The register form of a shift field (R190): bit 5 chooses a scalar register. -/
def shiftReads (b : BitVec 6) : List Reg := if b.getLsbD 5 then sR (b.extractLsb' 0 5) else []

/-- The scalar register that R = 1 names in an epilogue word (R222). -/
def epiReads (s : BitVec 5) (ext : Option (BitVec 25)) : List Reg :=
  match ext with
  | some e => if e.getLsbD 0 then sR s else []
  | none => []

/-- The check handles of a matrix word (R222). -/
def mmaReads (ext : Option (BitVec 25)) : List Reg :=
  match ext with
  | some e => (if e.getLsbD 4 then [.h (e.extractLsb' 0 4).toNat] else []) ++ (if e.getLsbD 9 then [.h (e.extractLsb' 5 4).toNat] else [])
  | none => []

/-- The hyperparameter register, the index handle and the second moment of a VOPT word (R235). -/
def voptReads (ext : Option (BitVec 25)) (adam : Bool) : List Reg :=
  match ext with
  | some e => sR (e.extractLsb' 0 5) ++ (if e.getLsbD 9 then [.h (e.extractLsb' 5 4).toNat] else []) ++ (if adam then tR (e.extractLsb' 10 6) else [])
  | none => []

/-- The second moment that VOPT.ADAM writes (R236). -/
def voptWrites (ext : Option (BitVec 25)) : List Reg :=
  match ext with
  | some e => tW (e.extractLsb' 10 6)
  | none => []

/-- The third source of VLUT3 (R198): b = 2 b' + 1 - (a mod 2). -/
def lutThird (a : BitVec 6) (b : BitVec 5) : BitVec 6 := BitVec.ofNat 6 (2 * b.toNat + 1 - a.toNat % 2)

/-- The registers that CTLR of number n reads (R138, R318): the counter that a number shows is one of them (DESIGN CHOICE: log entry 101). -/
def ctlReads (n : BitVec 12) : List Reg :=
  if 0x30 ≤ n.toNat ∧ n.toNat ≤ 0x33 then [.e (n.toNat - 0x30)] else if 0x100 ≤ n.toNat ∧ n.toNat ≤ 0x13F then [.c (n.toNat - 0x100)] else []

/-- The registers that CTLW of number n writes (R318). -/
def ctlWrites (n : BitVec 12) : List Reg :=
  if 0x30 ≤ n.toNat ∧ n.toNat ≤ 0x33 then [.e (n.toNat - 0x30)] else []

/-- The control register numbers of R317. -/
def ctlNumberOk (n : BitVec 12) : Bool :=
  let n := n.toNat
  decide (n ≤ 6) || (decide (8 ≤ n) && decide (n ≤ 10)) || (decide (0x10 ≤ n) && decide (n ≤ 0x15)) || (decide (0x20 ≤ n) && decide (n ≤ 0x2B))
    || (decide (0x30 ≤ n) && decide (n ≤ 0x33)) || (decide (0x40 ≤ n) && decide (n ≤ 0x42)) || (decide (0x50 ≤ n) && decide (n ≤ 0x52))
    || (decide (0x100 ≤ n) && decide (n ≤ 0x13F))

/-- Bits 24 down to `lo` of the extension are zero. -/
def extTop (lo : Nat) (ext : Option (BitVec 25)) : Bool :=
  match ext with
  | some e => e.toNat / 2 ^ lo == 0
  | none => true

/-- A scope number that must name a scope: 1 to 12 (R221). -/
def scopeOk (s : BitVec 4) : Bool := decide (1 ≤ s.toNat) && decide (s.toNat ≤ 12)

/-- The SCOPE rule of R221: 0 with neither flag, 1 to 12 with either. -/
def scopeRule (acq rel : BitVec 1) (s : BitVec 4) : Bool := if acq == 1 || rel == 1 then scopeOk s else s == 0

/-- The extension of an atomic (R271). -/
def amoExtOk (ext : Option (BitVec 25)) : Bool :=
  match ext with
  | some e => e.toNat / 64 == 0 && scopeRule (e.extractLsb' 0 1) (e.extractLsb' 1 1) (e.extractLsb' 2 4)
  | none => true

/-- The extension of MMA and MMAT (R222). -/
def mmaExtOk (ext : Option (BitVec 25)) : Bool :=
  match ext with
  | some e => e.toNat / 1024 == 0 && (e.getLsbD 4 || (e.extractLsb' 0 4) == 0) && (e.getLsbD 9 || (e.extractLsb' 5 4) == 0)
  | none => true

/-- The extension and the distinct tiles of a VOPT word (R235). -/
def voptOk (d a b : BitVec 6) (ext : Option (BitVec 25)) (adam : Bool) : Bool :=
  match ext with
  | none => false
  | some e =>
    let v := e.extractLsb' 10 6
    e.toNat / 65536 == 0 && (e.getLsbD 9 || (e.extractLsb' 5 4) == 0) && (d != a && d != b && a != b)
      && (if adam then v != d && v != a && v != b else v == 0)

/-- An immediate token count (R311). -/
def tokenCountOk (n : Nat) : Bool := decide (1 ≤ n) && decide (n ≤ 65535)

/-- What the static checks need to know of an instruction. The rows without an encoding are no words. -/
def Instr.sig (i : Instr) : Sig :=
  match i with
  | .add q g d a b => { q := q, g := g, pipe := .sA, reads := sR a ++ sR b, writes := sR d }
  | .sub q g d a b => { q := q, g := g, pipe := .sA, reads := sR a ++ sR b, writes := sR d }
  | .addS q g d a b => { q := q, g := g, pipe := .sA, reads := sR a ++ sR b, writes := sR d }
  | .subS q g d a b => { q := q, g := g, pipe := .sA, reads := sR a ++ sR b, writes := sR d }
  | .and q g d a b => { q := q, g := g, pipe := .sA, reads := sR a ++ sR b, writes := sR d }
  | .or q g d a b => { q := q, g := g, pipe := .sA, reads := sR a ++ sR b, writes := sR d }
  | .xor q g d a b => { q := q, g := g, pipe := .sA, reads := sR a ++ sR b, writes := sR d }
  | .andn q g d a b => { q := q, g := g, pipe := .sA, reads := sR a ++ sR b, writes := sR d }
  | .shl q g d a b => { q := q, g := g, pipe := .sA, reads := sR a ++ sR b, writes := sR d }
  | .shlS q g d a b => { q := q, g := g, pipe := .sA, reads := sR a ++ sR b, writes := sR d }
  | .shr q g d a b => { q := q, g := g, pipe := .sA, reads := sR a ++ sR b, writes := sR d }
  | .sar q g d a b => { q := q, g := g, pipe := .sA, reads := sR a ++ sR b, writes := sR d }
  | .rot q g d a b => { q := q, g := g, pipe := .sA, reads := sR a ++ sR b, writes := sR d }
  | .mul q g d a b => { q := q, g := g, pipe := .sA, reads := sR a ++ sR b, writes := sR d }
  | .mulS q g d a b => { q := q, g := g, pipe := .sA, reads := sR a ++ sR b, writes := sR d }
  | .mulh q g d a b => { q := q, g := g, pipe := .sA, reads := sR a ++ sR b, writes := sR d }
  | .mulhw q g d a b => { q := q, g := g, pipe := .sA, reads := sR a ++ sR b, writes := sR d }
  | .div q g d a b => { q := q, g := g, pipe := .sA, reads := sR a ++ sR b, writes := sR d }
  | .divw q g d a b => { q := q, g := g, pipe := .sA, reads := sR a ++ sR b, writes := sR d }
  | .rem q g d a b => { q := q, g := g, pipe := .sA, reads := sR a ++ sR b, writes := sR d }
  | .remw q g d a b => { q := q, g := g, pipe := .sA, reads := sR a ++ sR b, writes := sR d }
  | .min q g d a b => { q := q, g := g, pipe := .sA, reads := sR a ++ sR b, writes := sR d }
  | .max q g d a b => { q := q, g := g, pipe := .sA, reads := sR a ++ sR b, writes := sR d }
  | .minw q g d a b => { q := q, g := g, pipe := .sA, reads := sR a ++ sR b, writes := sR d }
  | .maxw q g d a b => { q := q, g := g, pipe := .sA, reads := sR a ++ sR b, writes := sR d }
  | .clz q g d a => { q := q, g := g, pipe := .sA, reads := sR a, writes := sR d }
  | .cls q g d a => { q := q, g := g, pipe := .sA, reads := sR a, writes := sR d }
  | .popc q g d a => { q := q, g := g, pipe := .sA, reads := sR a, writes := sR d }
  | .bfx q g d a b => { q := q, g := g, pipe := .sA, reads := sR a ++ sR b, writes := sR d }
  | .bfi q g d a b => { q := q, g := g, pipe := .sA, reads := sR a ++ sR b ++ sR d, writes := sR d }
  | .sel q s d a b => { q := q, pipe := .sA, reads := pR s ++ sR a ++ sR b, writes := sR d, legal := s != 8 }
  | .mov q g d a => { q := q, g := g, pipe := .sA, reads := sR a, writes := sR d }
  | .movp q g _ p _ x _ y => { q := q, g := g, pipe := .sA, reads := [.p x.toNat] ++ [.p y.toNat], writes := [.p p.toNat] }
  | .cmpEq q g p a b => { q := q, g := g, pipe := .sA, reads := sR a ++ sR b, writes := [.p p.toNat] }
  | .cmpNe q g p a b => { q := q, g := g, pipe := .sA, reads := sR a ++ sR b, writes := [.p p.toNat] }
  | .cmpLt q g p a b => { q := q, g := g, pipe := .sA, reads := sR a ++ sR b, writes := [.p p.toNat] }
  | .cmpGe q g p a b => { q := q, g := g, pipe := .sA, reads := sR a ++ sR b, writes := [.p p.toNat] }
  | .cmpLtw q g p a b => { q := q, g := g, pipe := .sA, reads := sR a ++ sR b, writes := [.p p.toNat] }
  | .cmpGew q g p a b => { q := q, g := g, pipe := .sA, reads := sR a ++ sR b, writes := [.p p.toNat] }
  | .addi q d a _ ext => { q := q, pipe := .sc, reads := sR a, writes := sR d, ext := ext }
  | .li q d _ ext => { q := q, pipe := .sc, writes := sR d, ext := ext }
  | .lih q d _ ext => { q := q, pipe := .sc, reads := sR d, writes := sR d, ext := ext, legal := extTop 16 ext }
  | .cmpiEq q p a _ ext => { q := q, pipe := .sc, reads := sR a, writes := [.p p.toNat], ext := ext }
  | .cmpiNe q p a _ ext => { q := q, pipe := .sc, reads := sR a, writes := [.p p.toNat], ext := ext }
  | .cmpiLt q p a _ ext => { q := q, pipe := .sc, reads := sR a, writes := [.p p.toNat], ext := ext }
  | .cmpiGe q p a _ ext => { q := q, pipe := .sc, reads := sR a, writes := [.p p.toNat], ext := ext }
  | .cmpiLtw q p a _ ext => { q := q, pipe := .sc, reads := sR a, writes := [.p p.toNat], ext := ext }
  | .cmpiGew q p a _ ext => { q := q, pipe := .sc, reads := sR a, writes := [.p p.toNat], ext := ext }
  | .brRel q g _ ext => { q := q, g := g, pipe := .sc, ext := ext }
  | .brAbs q g _ ext => { q := q, g := g, pipe := .sc, ext := ext, legal := extTop 6 ext }
  | .callRel q g _ ext => { q := q, g := g, pipe := .sc, writes := [.s 30], call := true, ext := ext }
  | .callAbs q g _ ext => { q := q, g := g, pipe := .sc, writes := [.s 30], call := true, ext := ext, legal := extTop 6 ext }
  | .ret q g a => { q := q, g := g, pipe := .sc, reads := sR a }
  | .brc q g x a _ ext => { q := q, g := g, pipe := .sc, reads := sR a, ext := ext, legal := decide (x.toNat < 6) }
  | .brf q g _ _ _ _ ext => { q := q, g := g, pipe := .sc, ext := ext }
  | .loopOpen q n a _ ext => { q := q, pipe := .sc, reads := sR a, ext := ext, legal := decide (n.toNat < 6) }
  | .loopClose q n _ ext => { q := q, pipe := .sc, ext := ext, legal := decide (n.toNat < 6) }
  | .loopr q n _ _ ext => { q := q, pipe := .sc, ext := ext, legal := decide (n.toNat < 6) }
  | .lbrk q g n _ ext => { q := q, g := g, pipe := .sc, ext := ext, legal := decide (n.toNat < 6) }
  | .segx q g _ => { q := q, g := g, pipe := .sc }
  | .endNode => { pipe := .sc, alone := true }
  | .ldB q g d a _ ext => { q := q, g := g, pipe := .sc, reads := sR a, writes := sR d, ext := ext }
  | .ldH q g d a _ ext => { q := q, g := g, pipe := .sc, reads := sR a, writes := sR d, ext := ext }
  | .ldW q g d a _ ext => { q := q, g := g, pipe := .sc, reads := sR a, writes := sR d, ext := ext }
  | .ldD q g d a _ ext => { q := q, g := g, pipe := .sc, reads := sR a, writes := sR d, ext := ext }
  | .ldW8 q g d a _ ext => { q := q, g := g, pipe := .sc, reads := sR a, writes := sR d, ext := ext }
  | .ldW16 q g d a _ ext => { q := q, g := g, pipe := .sc, reads := sR a, writes := sR d, ext := ext }
  | .ldW32 q g d a _ ext => { q := q, g := g, pipe := .sc, reads := sR a, writes := sR d, ext := ext }
  | .ldAcq q g d a _ s => { q := q, g := g, pipe := .sc, reads := sR a, writes := sR d, legal := scopeOk s }
  | .stB q g v a _ ext => { q := q, g := g, pipe := .sc, reads := sR a ++ sR v, ext := ext }
  | .stH q g v a _ ext => { q := q, g := g, pipe := .sc, reads := sR a ++ sR v, ext := ext }
  | .stW q g v a _ ext => { q := q, g := g, pipe := .sc, reads := sR a ++ sR v, ext := ext }
  | .stD q g v a _ ext => { q := q, g := g, pipe := .sc, reads := sR a ++ sR v, ext := ext }
  | .stRel q g v a _ s => { q := q, g := g, pipe := .sc, reads := sR a ++ sR v, legal := scopeOk s }
  | .ldh q g h a _ ext => { q := q, g := g, pipe := .sc, reads := sR a, writes := [.h h.toNat], ext := ext }
  | .sth q g h a _ ext => { q := q, g := g, pipe := .sc, reads := sR a ++ [.h h.toNat], ext := ext }
  | .amoAdd q g d a b _ ext => { q := q, g := g, pipe := .sc, reads := sR a ++ sR b, writes := sR d, ext := ext, legal := amoExtOk ext }
  | .amoAdds q g d a b _ ext => { q := q, g := g, pipe := .sc, reads := sR a ++ sR b, writes := sR d, ext := ext, legal := amoExtOk ext }
  | .amoMin q g d a b _ ext => { q := q, g := g, pipe := .sc, reads := sR a ++ sR b, writes := sR d, ext := ext, legal := amoExtOk ext }
  | .amoMax q g d a b _ ext => { q := q, g := g, pipe := .sc, reads := sR a ++ sR b, writes := sR d, ext := ext, legal := amoExtOk ext }
  | .amoAnd q g d a b _ ext => { q := q, g := g, pipe := .sc, reads := sR a ++ sR b, writes := sR d, ext := ext, legal := amoExtOk ext }
  | .amoOr q g d a b _ ext => { q := q, g := g, pipe := .sc, reads := sR a ++ sR b, writes := sR d, ext := ext, legal := amoExtOk ext }
  | .amoXor q g d a b _ ext => { q := q, g := g, pipe := .sc, reads := sR a ++ sR b, writes := sR d, ext := ext, legal := amoExtOk ext }
  | .amoSwap q g d a b _ ext => { q := q, g := g, pipe := .sc, reads := sR a ++ sR b, writes := sR d, ext := ext, legal := amoExtOk ext }
  | .amoCas q g d a b _ ext => { q := q, g := g, pipe := .sc, reads := sR a ++ sR b ++ sR d, writes := sR d, ext := ext, legal := amoExtOk ext }
  | .amoIncw q g d a b _ ext => { q := q, g := g, pipe := .sc, reads := sR a ++ sR b, writes := sR d, ext := ext, legal := amoExtOk ext }
  | .trap q g _ => { q := q, g := g, pipe := .sc }
  | .tret q => { q := q, pipe := .sc, alone := true }
  | .uiret q => { q := q, pipe := .sc, alone := true }
  | .ctlr q g d n => { q := q, g := g, pipe := .sc, reads := ctlReads n, writes := sR d, legal := ctlNumberOk n }
  | .ctlw q g s n => { q := q, g := g, pipe := .sc, reads := sR s, writes := ctlWrites n, legal := ctlNumberOk n }
  | .fence q g a l s => { q := q, g := g, pipe := .sc, legal := (a == 1 || l == 1) && scopeOk s }
  | .brk q g _ => { q := q, g := g, pipe := .sc }
  | .cmpt q g a b => { q := q, g := g, pipe := .sc, reads := sR a ++ sR b }
  | .enq q g p y => { q := q, g := g, pipe := .sc, reads := sBlock (8 * y.toNat) 8, writes := [.p p.toNat], legal := y != 0 }
  | .yield q g => { q := q, g := g, pipe := .sc }
  | .genr q g d => { q := q, g := g, pipe := .sc, writes := sR d }
  | .idle q => { q := q, pipe := .sc, alone := true }
  | .vadd q _ d a b => { q := q, pipe := .v, reads := tR a ++ tR b ++ tsR d, writes := tW d, bank := [a, b] }
  | .vsub q _ d a b => { q := q, pipe := .v, reads := tR a ++ tR b ++ tsR d, writes := tW d, bank := [a, b] }
  | .vadds q _ d a b => { q := q, pipe := .v, reads := tR a ++ tR b ++ tsR d, writes := tW d, bank := [a, b] }
  | .vsubs q _ d a b => { q := q, pipe := .v, reads := tR a ++ tR b ++ tsR d, writes := tW d, bank := [a, b] }
  | .vmul q _ _ d a b => { q := q, pipe := .v, reads := tR a ++ tR b ++ tsR d, writes := tW d, bank := [a, b] }
  | .vmulh q _ d a b => { q := q, pipe := .v, reads := tR a ++ tR b ++ tsR d, writes := tW d, bank := [a, b] }
  | .vmac q _ _ d a b => { q := q, pipe := .v, reads := tR a ++ tR b ++ tR d, writes := tW d, bank := [a, b] }
  | .vmin q _ d a b => { q := q, pipe := .v, reads := tR a ++ tR b ++ tsR d, writes := tW d, bank := [a, b] }
  | .vmax q _ d a b => { q := q, pipe := .v, reads := tR a ++ tR b ++ tsR d, writes := tW d, bank := [a, b] }
  | .vand q d a b => { q := q, pipe := .v, reads := tR a ++ tR b ++ tsR d, writes := tW d, bank := [a, b] }
  | .vor q d a b => { q := q, pipe := .v, reads := tR a ++ tR b ++ tsR d, writes := tW d, bank := [a, b] }
  | .vxor q d a b => { q := q, pipe := .v, reads := tR a ++ tR b ++ tsR d, writes := tW d, bank := [a, b] }
  | .vandn q d a b => { q := q, pipe := .v, reads := tR a ++ tR b ++ tsR d, writes := tW d, bank := [a, b] }
  | .vsel q d a b => { q := q, pipe := .v, reads := tR a ++ tR b ++ tR d, writes := tW d, bank := [a, b] }
  | .vcmpEq q d a b => { q := q, pipe := .v, reads := tR a ++ tR b ++ tsR d, writes := tW d, bank := [a, b] }
  | .vcmpNe q d a b => { q := q, pipe := .v, reads := tR a ++ tR b ++ tsR d, writes := tW d, bank := [a, b] }
  | .vcmpLt q d a b => { q := q, pipe := .v, reads := tR a ++ tR b ++ tsR d, writes := tW d, bank := [a, b] }
  | .vcmpGe q d a b => { q := q, pipe := .v, reads := tR a ++ tR b ++ tsR d, writes := tW d, bank := [a, b] }
  | .vcmpLtw q d a b => { q := q, pipe := .v, reads := tR a ++ tR b ++ tsR d, writes := tW d, bank := [a, b] }
  | .vcmpGew q d a b => { q := q, pipe := .v, reads := tR a ++ tR b ++ tsR d, writes := tW d, bank := [a, b] }
  | .vperm q d a b => { q := q, pipe := .v, reads := tR a ++ tR b ++ tsR d, writes := tW d, bank := [a, b] }
  | .vgath q d a b => { q := q, pipe := .v, reads := tR a ++ tR b ++ tsR d, writes := tW d, bank := [a, b] }
  | .vscat q d a b => { q := q, pipe := .v, reads := tR a ++ tR b ++ tR d, writes := tW d, bank := [a, b] }
  | .vcmpt q a b => { q := q, pipe := .v, reads := tR a ++ tR b, bank := [a, b] }
  | .tld q g h t => { q := q, g := g, pipe := .v, reads := [.h h.toNat] ++ tsR t, writes := tW t ++ tsR t }
  | .tst q g h t m => { q := q, g := g, pipe := .v, reads := [.h h.toNat] ++ tR t, legal := m != 3 }
  | .vshl q x d a b => { q := q, pipe := .v, reads := tR a ++ tsR d ++ (if x = 1 then sR (b.extractLsb' 0 5) else if x = 2 then tR b else []), writes := tW d, bank := if x = 2 then [a, b] else [], legal := x != 3 && !(x == 1 && b.getLsbD 5) }
  | .vshr q x d a b => { q := q, pipe := .v, reads := tR a ++ tsR d ++ (if x = 1 then sR (b.extractLsb' 0 5) else if x = 2 then tR b else []), writes := tW d, bank := if x = 2 then [a, b] else [], legal := x != 3 && !(x == 1 && b.getLsbD 5) }
  | .vsar q x d a b => { q := q, pipe := .v, reads := tR a ++ tsR d ++ (if x = 1 then sR (b.extractLsb' 0 5) else if x = 2 then tR b else []), writes := tW d, bank := if x = 2 then [a, b] else [], legal := x != 3 && !(x == 1 && b.getLsbD 5) }
  | .vshrn q m d a b ext => { q := q, pipe := .v, reads := tR a ++ tsR d ++ shiftReads b ++ (match ext with | some e => [.h (e.extractLsb' 0 4).toNat] | none => []), writes := tW d, ext := ext, legal := m != 3 && (match ext with | some e => e.getLsbD 4 && e.toNat / 32 == 0 | none => true) }
  | .vabs q _ d a => { q := q, pipe := .v, reads := tR a ++ tsR d, writes := tW d }
  | .vneg q _ d a => { q := q, pipe := .v, reads := tR a ++ tsR d, writes := tW d }
  | .vclz q d a => { q := q, pipe := .v, reads := tR a ++ tsR d, writes := tW d }
  | .vcls q d a => { q := q, pipe := .v, reads := tR a ++ tsR d, writes := tW d }
  | .vpopc q d a => { q := q, pipe := .v, reads := tR a ++ tsR d, writes := tW d }
  | .vcvt q _ d a b => { q := q, pipe := .v, reads := tR a ++ tsR d ++ shiftReads b, writes := tW d }
  | .vpack q _ d a b => { q := q, pipe := .v, reads := tR a ++ tR b ++ tsR d, writes := tW d, bank := [a, b] }
  | .vunpk q _ d a _ => { q := q, pipe := .v, reads := tR a ++ tsR d, writes := tW d }
  | .vrotl q x d a b ext => { q := q, pipe := .v, reads := tR a ++ tsR d ++ (if x = 1 then sR (b.extractLsb' 0 5) else []), writes := tW d, ext := ext, legal := !(x == 1 && (b.getLsbD 5 || ext.isSome)) }
  | .vbcast q d s => { q := q, pipe := .v, reads := sR s ++ tsR d, writes := tW d }
  | .vbcastRow q d a => { q := q, pipe := .v, reads := tR a ++ tsR d, writes := tW d }
  | .vbcastCol q d a => { q := q, pipe := .v, reads := tR a ++ tsR d, writes := tW d }
  | .vmov q d a => { q := q, pipe := .v, reads := tR a ++ tsR d, writes := tW d }
  | .vredsum q x d a _ => { q := q, pipe := .v, reads := tR a ++ tsR d, writes := tW d, legal := x != 3 }
  | .vredmax q x d a _ => { q := q, pipe := .v, reads := tR a ++ tsR d, writes := tW d, legal := x != 3 }
  | .vredmin q x d a _ => { q := q, pipe := .v, reads := tR a ++ tsR d, writes := tW d, legal := x != 3 }
  | .vabsmax q x d a => { q := q, pipe := .v, reads := tR a ++ tsR d, writes := tW d, legal := x != 3 }
  | .vpart q _ d a => { q := q, pipe := .v, reads := tR a ++ tsR d, writes := tW d }
  | .vscan q _ d a _ _ => { q := q, pipe := .v, reads := tR a ++ tsR d, writes := tW d }
  | .vlut3 q _ d a b => { q := q, pipe := .v, reads := tR a ++ tR (lutThird a b) ++ tR (d.zeroExtend 6), writes := tW (d.zeroExtend 6) }
  | .vfsl q d a b _ => { q := q, pipe := .v, reads := tR a ++ tR b ++ tsR d, writes := tW d, bank := [a, b] }
  | .vfsr q d a b _ => { q := q, pipe := .v, reads := tR a ++ tR b ++ tsR d, writes := tW d, bank := [a, b] }
  | .vexp2 q d a _ ext => { q := q, pipe := .v, reads := tR a ++ tsR d, writes := tW d, ext := ext, legal := extTop 5 ext }
  | .vlog2 q d a _ ext => { q := q, pipe := .v, reads := tR a ++ tsR d, writes := tW d, ext := ext, legal := extTop 5 ext }
  | .vrcp q d a _ ext => { q := q, pipe := .v, reads := tR a ++ tsR d, writes := tW d, ext := ext, legal := extTop 5 ext }
  | .vrsq q d a _ ext => { q := q, pipe := .v, reads := tR a ++ tsR d, writes := tW d, ext := ext, legal := extTop 5 ext }
  | .vsmax q d a _ => { q := q, pipe := .v, reads := tR a ++ tsR d, writes := tW d }
  | .vrmsn q d a b ext => { q := q, pipe := .v, reads := tR a ++ tR b ++ tsR d, writes := tW d, bank := [a, b], ext := ext, legal := extTop 5 ext }
  | .vlnrm q d a b ext => { q := q, pipe := .v, reads := tR a ++ tR b ++ tsR d, writes := tW d, bank := [a, b], ext := ext, legal := extTop 5 ext }
  | .vgelu q d a _ ext => { q := q, pipe := .v, reads := tR a ++ tsR d, writes := tW d, ext := ext, legal := extTop 5 ext }
  | .voptSgdm q m d a b ext => { q := q, pipe := .v, reads := tR a ++ tR b ++ tR d ++ voptReads ext false, writes := tW d ++ tW b, bank := [a, b], ext := ext, legal := m != 3 && voptOk d a b ext false }
  | .voptLion q m d a b ext => { q := q, pipe := .v, reads := tR a ++ tR b ++ tR d ++ voptReads ext false, writes := tW d ++ tW b, bank := [a, b], ext := ext, legal := m != 3 && voptOk d a b ext false }
  | .voptAdam q m d a b ext => { q := q, pipe := .v, reads := tR a ++ tR b ++ tR d ++ voptReads ext true, writes := tW d ++ tW b ++ voptWrites ext, bank := [a, b], ext := ext, legal := m != 3 && voptOk d a b ext true }
  | .mbeg q d _ => { q := q, pipe := .m, reads := [.a d.toNat], writes := [.a d.toNat] }
  | .mend q d => { q := q, pipe := .m, reads := [.a d.toNat], writes := [.a d.toNat] }
  | .mzero q d => { q := q, pipe := .m, reads := [.a d.toNat], writes := [.a d.toNat] }
  | .mma q d a b ext => { q := q, pipe := .m, reads := [.a d.toNat] ++ tR a ++ tR b ++ mmaReads ext, writes := [.a d.toNat], bank := [a, b], ext := ext, legal := mmaExtOk ext }
  | .mmat q d a b ext => { q := q, pipe := .m, reads := [.a d.toNat] ++ tR a ++ tR b ++ mmaReads ext, writes := [.a d.toNat], bank := [a, b], ext := ext, legal := mmaExtOk ext }
  | .epi q t a _ _ m s ext => { q := q, pipe := .m, reads := [.a a.toNat] ++ tsR t ++ epiReads s ext ++ (match ext with | some e => if e.getLsbD 5 then [.h (e.extractLsb' 1 4).toNat] else [] | none => []), writes := tW t, ext := ext, legal := m != 3 && (match ext with | some e => e.toNat / 64 == 0 && (e.getLsbD 5 || (e.extractLsb' 1 4) == 0) | none => true) }
  | .epiAdd q h a m s e l o ext => { q := q, pipe := .m, reads := [.a a.toNat] ++ [.h h.toNat] ++ epiReads s ext, ext := ext, legal := m != 3 && extTop 1 ext && scopeRule e l o }
  | .epiSend q r h a m s ext => { q := q, pipe := .m, reads := [.a a.toNat] ++ [.h h.toNat] ++ [.e r.toNat] ++ epiReads s ext, writes := [.e r.toNat], ext := ext, legal := m != 3 && extTop 1 ext }
  | .epiCk q p a => { q := q, pipe := .m, reads := [.a a.toNat], writes := [.p p.toNat] }
  | .hset q g h _ a => { q := q, g := g, pipe := .sc, reads := sR a ++ [.h h.toNat], writes := [.h h.toNat] }
  | .hld q g h _ a => { q := q, g := g, pipe := .sc, reads := sR a, writes := [.h h.toNat] }
  | .hst q g h _ a => { q := q, g := g, pipe := .sc, reads := sR a ++ [.h h.toNat] }
  | .horg q g h d a => { q := q, g := g, pipe := .sc, reads := sR a ++ [.h h.toNat], writes := [.h h.toNat], legal := decide (d.toNat < 5) }
  | .horgImm q g h d _ ext => { q := q, g := g, pipe := .sc, reads := [.h h.toNat], writes := [.h h.toNat], ext := ext, legal := decide (d.toNat < 5) }
  | .hstep q g h d a => { q := q, g := g, pipe := .sc, reads := sR a ++ [.h h.toNat], writes := [.h h.toNat], legal := decide (d.toNat < 5) }
  | .hstepImm q g h d _ ext => { q := q, g := g, pipe := .sc, reads := [.h h.toNat], writes := [.h h.toNat], ext := ext, legal := decide (d.toNat < 5) }
  | .kset q g k m a => { q := q, g := g, pipe := .sc, reads := sR a ++ [.k k.toNat], writes := [.k k.toNat], legal := m != 0 }
  | .kget q g d k _ => { q := q, g := g, pipe := .sc, reads := [.k k.toNat], writes := sR d }
  | .cenClose q g k => { q := q, g := g, pipe := .sc, reads := [.k k.toNat], writes := [.k k.toNat] }
  | .cenGet q g d k _ => { q := q, g := g, pipe := .sc, reads := [.k k.toNat], writes := sR d }
  | .shift q g d k w => { q := q, g := g, pipe := .sc, reads := [.k k.toNat], writes := sR d, legal := decide (1 ≤ w.toNat) && decide (w.toNat ≤ 32) }
  | .tsh q g t s => { q := q, g := g, pipe := .sc, reads := sR s, writes := [.ts t.toNat] }
  | .tshRead q g t s => { q := q, g := g, pipe := .sc, reads := [.ts t.toNat], writes := sR s }
  | .tshr q g t u b => { q := q, g := g, pipe := .sc, reads := [.ts u.toNat] ++ sR b, writes := [.ts t.toNat] }
  | .cpy q g h s w => { q := q, g := g, pipe := .c, reads := [.h h.toNat] ++ [.h s.toNat] ++ sBlock (2 * w.toNat) 2, legal := w != 0 }
  | .cpyk q g h s w => { q := q, g := g, pipe := .c, reads := [.h h.toNat] ++ [.h s.toNat] ++ sBlock (2 * w.toNat) 2, legal := w != 0 }
  | .cpyf q g h w v => { q := q, g := g, pipe := .c, reads := [.h h.toNat] ++ sBlock (2 * w.toNat) 2 ++ sR v, legal := w != 0 }
  | .cpyb q g h s w m => { q := q, g := g, pipe := .c, reads := [.h h.toNat] ++ [.h s.toNat] ++ sBlock (2 * w.toNat) 2 ++ sR m, legal := w != 0 }
  | .cpyq q g h s w t => { q := q, g := g, pipe := .c, reads := [.h h.toNat] ++ [.h s.toNat] ++ sBlock (2 * w.toNat) 2 ++ sR t, legal := w != 0 }
  | .cpycan q g a b => { q := q, g := g, pipe := .c, legal := a == 1 || b == 1 }
  | .send q g h s w r => { q := q, g := g, pipe := .c, reads := [.h h.toNat] ++ [.h s.toNat] ++ [.e r.toNat] ++ sBlock (2 * w.toNat) 2, writes := [.e r.toNat], legal := w != 0 }
  | .sendt q g h s w r => { q := q, g := g, pipe := .c, reads := [.h h.toNat] ++ [.h s.toNat] ++ [.e r.toNat] ++ sBlock (2 * w.toNat) 3, writes := [.e r.toNat], legal := w != 0 && w != 15 }
  | .coll q g h s w r => { q := q, g := g, pipe := .c, reads := [.h h.toNat] ++ [.h s.toNat] ++ [.e r.toNat] ++ sBlock (2 * w.toNat) 4, writes := [.e r.toNat], legal := w != 0 && w != 15 }
  | .abort q g r => { q := q, g := g, pipe := .c, reads := [.e r.toNat] }
  | .cset q g n a => { q := q, g := g, pipe := .c, reads := sR a, writes := [.c n.toNat] }
  | .csetImm q g n _ ext => { q := q, g := g, pipe := .c, writes := [.c n.toNat], ext := ext }
  | .cadd q g n a => { q := q, g := g, pipe := .c, reads := sR a, writes := [.c n.toNat] }
  | .caddImm q g n _ ext => { q := q, g := g, pipe := .c, writes := [.c n.toNat], ext := ext }
  | .cwait q g n a => { q := q, g := g, pipe := .c, reads := sR a ++ [.c n.toNat] }
  | .cwaitImm q g n i ext => { q := q, g := g, pipe := .c, reads := [.c n.toNat], ext := ext, legal := decide (immU 10 i ext < 2 ^ 32) }
  | .barb q g n a => { q := q, g := g, pipe := .c, reads := sR a ++ [.c n.toNat], writes := [.c n.toNat] }
  | .barbImm q g n i ext => { q := q, g := g, pipe := .c, reads := [.c n.toNat], writes := [.c n.toNat], ext := ext, legal := decide (immU 10 i ext < 2 ^ 32) }
  | .bar q g a b e l => { q := q, g := g, pipe := .c, legal := a == 1 || b == 1 || e == 1 || l == 1 }
  | .jcbRaise q g p a => { q := q, g := g, pipe := .c, reads := sR a, writes := [.p p.toNat] }
  | .jcbRaiseImm q g p _ ext => { q := q, g := g, pipe := .c, writes := [.p p.toNat], ext := ext }
  | .jcbDone q g => { q := q, g := g, pipe := .c }
  | .tokGive q g _ a => { q := q, g := g, pipe := .c, reads := sR a }
  | .tokGiveImm q g _ i ext => { q := q, g := g, pipe := .c, ext := ext, legal := tokenCountOk (immU 10 i ext) }
  | .tokTake q g p _ a => { q := q, g := g, pipe := .c, reads := sR a, writes := [.p p.toNat] }
  | .tokTakeImm q g p _ i ext => { q := q, g := g, pipe := .c, writes := [.p p.toNat], ext := ext, legal := tokenCountOk (immU 7 i ext) }
  | .extensionWord _ => { pipe := .none }
  | .nop q _ => { q := q, pipe := .none }
  | .qtailWrite _ _ => { word := false }
  | .queueEnable _ _ => { word := false }
  | .queueDisable _ _ => { word := false }
  | .qctlRst _ _ => { word := false }
  | .tlinkWrite _ _ => { word := false }
  | .excommit _ => { word := false }
  | .flipreqAck _ => { word := false }
  | .flipreqToHost _ => { word := false }
  | .registerWrite _ _ => { word := false }
  | .awlSlot => { word := false }
  | .launchGraph _ _ => { word := false }
  | .launchNode _ _ => { word := false }
  | .write _ _ => { word := false }
  | .signal _ _ => { word := false }
  | .writeSignal _ _ => { word := false }
  | .tokenGive _ _ => { word := false }
  | .tokenWait _ _ => { word := false }
  | .copy _ _ => { word := false }
  | .fencePacket _ _ => { word := false }
  | .qreset _ _ => { word := false }
  | .slice _ _ => { word := false }
  | .bindGang _ _ => { word := false }
  | .bindDissolve _ _ => { word := false }
  | .bindReserve _ _ => { word := false }
  | .repairRebindHalf _ _ => { word := false }
  | .repairDramRow _ _ => { word := false }
  | .repairSpareLane _ _ => { word := false }
  | .repairRetireCore _ _ => { word := false }
  | .repairScan _ _ => { word := false }
  | .attestQuote _ _ => { word := false }
  | .attestPatch _ _ => { word := false }
  | .signatureDone => { word := false }
  | .packetComplete _ _ => { word := false }
  | .qresetAcksDone _ => { word := false }
  | .asgenChangeDone _ => { word := false }
  | .flipDrainDone => { word := false }
  | .enqOutboxAccept _ => { word := false }
  | .mailboxRecordWrite => { word := false }
  | .entryRebuild _ _ => { word := false }
  | .sliceExpiry _ => { word := false }
  | .reserveSample => { word := false }
  | .reserveDecision => { word := false }
  | .reserveChangeDone _ => { word := false }
  | .preemptWaitExpiry _ => { word := false }
  | .distributorPlace => { word := false }
  | .segmentCopyDone _ => { word := false }
  | .waitSatisfied _ => { word := false }
  | .barRelease _ => { word := false }
  | .idleEnd _ => { word := false }
  | .jcbRaiseAnswer _ => { word := false }
  | .censusClose _ _ => { word := false }
  | .matrixRunEnd _ _ => { word := false }
  | .copyComplete _ _ => { word := false }
  | .cpyqFire _ _ _ => { word := false }
  | .epiAddComplete _ => { word := false }
  | .sendtFire _ _ => { word := false }
  | .sendDelivery _ => { word := false }
  | .sendComplete _ _ _ => { word := false }
  | .collHop _ => { word := false }
  | .collDeliverApply _ => { word := false }
  | .abortFlit _ _ => { word := false }
  | .jcbHomeRaise _ => { word := false }
  | .jcbHomeCompletion _ => { word := false }
  | .jcbHomeNodeFailure _ _ _ => { word := false }
  | .nodeCommit _ => { word := false }
  | .trapEntry _ => { word := false }
  | .userInterruptEntry _ => { word := false }
  | .preemptQuiesce _ _ => { word := false }
  | .nodeSave _ => { word := false }
  | .errorConsumed _ => { word := false }
  | .powerGood => { word := false }
  | .stackSelfTestPass _ => { word := false }
  | .bringupTimeout => { word := false }
  | .probeReturn _ _ => { word := false }
  | .probeTimeout _ => { word := false }
  | .engineCheckFail _ _ => { word := false }
  | .rebindDone => { word := false }
  | .bindDrainDone => { word := false }
  | .dramSoftRepair _ _ _ _ => { word := false }
  | .laneRetrainDone _ => { word := false }
  | .laneFail _ _ => { word := false }
  | .powerSample _ => { word := false }
  | .clockStep => { word := false }
  | .telemetryRefresh => { word := false }
  | .stackSelfTestFail _ => { word := false }
  | .coreRetireDrainDone _ => { word := false }

/-- Every register that a word names, its guard's predicate included (R138). -/
def Sig.names (z : Sig) : List Reg := (if z.g.extractLsb' 0 3 = 0 then [] else pR z.g) ++ z.reads ++ z.writes

/-- The word's own encoding rules: Q (R131), guard (R132), bank ports (R139) and the entry's field rules. -/
def Sig.wordOk (z : Sig) : Bool :=
  z.q != 3 && z.g != 8 && z.legal &&
    (match z.bank with
     | [a, b] => a == b || a.getLsbD 0 != b.getLsbD 0
     | _ => true)

end Sys2Proof
end

