-- ==== Sys2Proof/Decode.lean ====
section
/-! DEFINITION. From words to instructions and back (R130 to R133, R141, R142 and the layouts of the entries). The decoder is total:
a word that the opcode map leaves unassigned, or that holds a value in a field its layout fixes, is rejected by name.
A word is read as a natural number below 2^32, so that every field is a quotient. -/

namespace Sys2Proof

/-- Why a word is no instruction: every case is an illegal point (R141). -/
inductive DecodeError where
  | noWord
  | reservedClass
  | unassignedOpcode (cls : String) (op : Nat)
  | fixedField (mnemonic : String)
deriving DecidableEq, Repr

/-- Class S of the opcode map (R141). -/
def decodeS (w : Nat) : Except DecodeError Instr :=
  let op := w / 32768 % 64
  if op = 0 then
    .ok (.add (BitVec.ofNat 2 (w / 536870912)) (BitVec.ofNat 4 (w / 2097152)) (BitVec.ofNat 5 (w / 1024)) (BitVec.ofNat 5 (w / 32)) (BitVec.ofNat 5 w))
  else if op = 1 then
    .ok (.sub (BitVec.ofNat 2 (w / 536870912)) (BitVec.ofNat 4 (w / 2097152)) (BitVec.ofNat 5 (w / 1024)) (BitVec.ofNat 5 (w / 32)) (BitVec.ofNat 5 w))
  else if op = 2 then
    .ok (.addS (BitVec.ofNat 2 (w / 536870912)) (BitVec.ofNat 4 (w / 2097152)) (BitVec.ofNat 5 (w / 1024)) (BitVec.ofNat 5 (w / 32)) (BitVec.ofNat 5 w))
  else if op = 3 then
    .ok (.subS (BitVec.ofNat 2 (w / 536870912)) (BitVec.ofNat 4 (w / 2097152)) (BitVec.ofNat 5 (w / 1024)) (BitVec.ofNat 5 (w / 32)) (BitVec.ofNat 5 w))
  else if op = 4 then
    .ok (.and (BitVec.ofNat 2 (w / 536870912)) (BitVec.ofNat 4 (w / 2097152)) (BitVec.ofNat 5 (w / 1024)) (BitVec.ofNat 5 (w / 32)) (BitVec.ofNat 5 w))
  else if op = 5 then
    .ok (.or (BitVec.ofNat 2 (w / 536870912)) (BitVec.ofNat 4 (w / 2097152)) (BitVec.ofNat 5 (w / 1024)) (BitVec.ofNat 5 (w / 32)) (BitVec.ofNat 5 w))
  else if op = 6 then
    .ok (.xor (BitVec.ofNat 2 (w / 536870912)) (BitVec.ofNat 4 (w / 2097152)) (BitVec.ofNat 5 (w / 1024)) (BitVec.ofNat 5 (w / 32)) (BitVec.ofNat 5 w))
  else if op = 7 then
    .ok (.andn (BitVec.ofNat 2 (w / 536870912)) (BitVec.ofNat 4 (w / 2097152)) (BitVec.ofNat 5 (w / 1024)) (BitVec.ofNat 5 (w / 32)) (BitVec.ofNat 5 w))
  else if op = 8 then
    .ok (.shl (BitVec.ofNat 2 (w / 536870912)) (BitVec.ofNat 4 (w / 2097152)) (BitVec.ofNat 5 (w / 1024)) (BitVec.ofNat 5 (w / 32)) (BitVec.ofNat 5 w))
  else if op = 9 then
    .ok (.shlS (BitVec.ofNat 2 (w / 536870912)) (BitVec.ofNat 4 (w / 2097152)) (BitVec.ofNat 5 (w / 1024)) (BitVec.ofNat 5 (w / 32)) (BitVec.ofNat 5 w))
  else if op = 10 then
    .ok (.shr (BitVec.ofNat 2 (w / 536870912)) (BitVec.ofNat 4 (w / 2097152)) (BitVec.ofNat 5 (w / 1024)) (BitVec.ofNat 5 (w / 32)) (BitVec.ofNat 5 w))
  else if op = 11 then
    .ok (.sar (BitVec.ofNat 2 (w / 536870912)) (BitVec.ofNat 4 (w / 2097152)) (BitVec.ofNat 5 (w / 1024)) (BitVec.ofNat 5 (w / 32)) (BitVec.ofNat 5 w))
  else if op = 12 then
    .ok (.rot (BitVec.ofNat 2 (w / 536870912)) (BitVec.ofNat 4 (w / 2097152)) (BitVec.ofNat 5 (w / 1024)) (BitVec.ofNat 5 (w / 32)) (BitVec.ofNat 5 w))
  else if op = 13 then
    .ok (.mul (BitVec.ofNat 2 (w / 536870912)) (BitVec.ofNat 4 (w / 2097152)) (BitVec.ofNat 5 (w / 1024)) (BitVec.ofNat 5 (w / 32)) (BitVec.ofNat 5 w))
  else if op = 14 then
    .ok (.mulS (BitVec.ofNat 2 (w / 536870912)) (BitVec.ofNat 4 (w / 2097152)) (BitVec.ofNat 5 (w / 1024)) (BitVec.ofNat 5 (w / 32)) (BitVec.ofNat 5 w))
  else if op = 15 then
    .ok (.mulh (BitVec.ofNat 2 (w / 536870912)) (BitVec.ofNat 4 (w / 2097152)) (BitVec.ofNat 5 (w / 1024)) (BitVec.ofNat 5 (w / 32)) (BitVec.ofNat 5 w))
  else if op = 16 then
    .ok (.mulhw (BitVec.ofNat 2 (w / 536870912)) (BitVec.ofNat 4 (w / 2097152)) (BitVec.ofNat 5 (w / 1024)) (BitVec.ofNat 5 (w / 32)) (BitVec.ofNat 5 w))
  else if op = 17 then
    .ok (.div (BitVec.ofNat 2 (w / 536870912)) (BitVec.ofNat 4 (w / 2097152)) (BitVec.ofNat 5 (w / 1024)) (BitVec.ofNat 5 (w / 32)) (BitVec.ofNat 5 w))
  else if op = 18 then
    .ok (.divw (BitVec.ofNat 2 (w / 536870912)) (BitVec.ofNat 4 (w / 2097152)) (BitVec.ofNat 5 (w / 1024)) (BitVec.ofNat 5 (w / 32)) (BitVec.ofNat 5 w))
  else if op = 19 then
    .ok (.rem (BitVec.ofNat 2 (w / 536870912)) (BitVec.ofNat 4 (w / 2097152)) (BitVec.ofNat 5 (w / 1024)) (BitVec.ofNat 5 (w / 32)) (BitVec.ofNat 5 w))
  else if op = 20 then
    .ok (.remw (BitVec.ofNat 2 (w / 536870912)) (BitVec.ofNat 4 (w / 2097152)) (BitVec.ofNat 5 (w / 1024)) (BitVec.ofNat 5 (w / 32)) (BitVec.ofNat 5 w))
  else if op = 21 then
    .ok (.min (BitVec.ofNat 2 (w / 536870912)) (BitVec.ofNat 4 (w / 2097152)) (BitVec.ofNat 5 (w / 1024)) (BitVec.ofNat 5 (w / 32)) (BitVec.ofNat 5 w))
  else if op = 22 then
    .ok (.max (BitVec.ofNat 2 (w / 536870912)) (BitVec.ofNat 4 (w / 2097152)) (BitVec.ofNat 5 (w / 1024)) (BitVec.ofNat 5 (w / 32)) (BitVec.ofNat 5 w))
  else if op = 23 then
    .ok (.minw (BitVec.ofNat 2 (w / 536870912)) (BitVec.ofNat 4 (w / 2097152)) (BitVec.ofNat 5 (w / 1024)) (BitVec.ofNat 5 (w / 32)) (BitVec.ofNat 5 w))
  else if op = 24 then
    .ok (.maxw (BitVec.ofNat 2 (w / 536870912)) (BitVec.ofNat 4 (w / 2097152)) (BitVec.ofNat 5 (w / 1024)) (BitVec.ofNat 5 (w / 32)) (BitVec.ofNat 5 w))
  else if op = 25 then
    if w % 32 = 0 then .ok (.clz (BitVec.ofNat 2 (w / 536870912)) (BitVec.ofNat 4 (w / 2097152)) (BitVec.ofNat 5 (w / 1024)) (BitVec.ofNat 5 (w / 32)))
    else .error (.fixedField "CLZ")
  else if op = 26 then
    if w % 32 = 0 then .ok (.cls (BitVec.ofNat 2 (w / 536870912)) (BitVec.ofNat 4 (w / 2097152)) (BitVec.ofNat 5 (w / 1024)) (BitVec.ofNat 5 (w / 32)))
    else .error (.fixedField "CLS")
  else if op = 27 then
    if w % 32 = 0 then .ok (.popc (BitVec.ofNat 2 (w / 536870912)) (BitVec.ofNat 4 (w / 2097152)) (BitVec.ofNat 5 (w / 1024)) (BitVec.ofNat 5 (w / 32)))
    else .error (.fixedField "POPC")
  else if op = 28 then
    .ok (.bfx (BitVec.ofNat 2 (w / 536870912)) (BitVec.ofNat 4 (w / 2097152)) (BitVec.ofNat 5 (w / 1024)) (BitVec.ofNat 5 (w / 32)) (BitVec.ofNat 5 w))
  else if op = 29 then
    .ok (.bfi (BitVec.ofNat 2 (w / 536870912)) (BitVec.ofNat 4 (w / 2097152)) (BitVec.ofNat 5 (w / 1024)) (BitVec.ofNat 5 (w / 32)) (BitVec.ofNat 5 w))
  else if op = 30 then
    .ok (.sel (BitVec.ofNat 2 (w / 536870912)) (BitVec.ofNat 4 (w / 2097152)) (BitVec.ofNat 5 (w / 1024)) (BitVec.ofNat 5 (w / 32)) (BitVec.ofNat 5 w))
  else if op = 31 then
    if w % 32 = 0 then .ok (.mov (BitVec.ofNat 2 (w / 536870912)) (BitVec.ofNat 4 (w / 2097152)) (BitVec.ofNat 5 (w / 1024)) (BitVec.ofNat 5 (w / 32)))
    else .error (.fixedField "MOV")
  else if op = 32 then
    if w / 16 % 2 = 0 ∧ w / 512 % 2 = 0 ∧ w / 16384 % 2 = 0 then .ok (.movp (BitVec.ofNat 2 (w / 536870912)) (BitVec.ofNat 4 (w / 2097152)) (BitVec.ofNat 1 (w / 8192)) (BitVec.ofNat 3 (w / 1024)) (BitVec.ofNat 1 (w / 256)) (BitVec.ofNat 3 (w / 32)) (BitVec.ofNat 1 (w / 8)) (BitVec.ofNat 3 w))
    else .error (.fixedField "MOVP")
  else if op = 33 then
    if w / 8192 % 4 = 0 then .ok (.cmpEq (BitVec.ofNat 2 (w / 536870912)) (BitVec.ofNat 4 (w / 2097152)) (BitVec.ofNat 3 (w / 1024)) (BitVec.ofNat 5 (w / 32)) (BitVec.ofNat 5 w))
    else .error (.fixedField "CMP.eq")
  else if op = 34 then
    if w / 8192 % 4 = 0 then .ok (.cmpNe (BitVec.ofNat 2 (w / 536870912)) (BitVec.ofNat 4 (w / 2097152)) (BitVec.ofNat 3 (w / 1024)) (BitVec.ofNat 5 (w / 32)) (BitVec.ofNat 5 w))
    else .error (.fixedField "CMP.ne")
  else if op = 35 then
    if w / 8192 % 4 = 0 then .ok (.cmpLt (BitVec.ofNat 2 (w / 536870912)) (BitVec.ofNat 4 (w / 2097152)) (BitVec.ofNat 3 (w / 1024)) (BitVec.ofNat 5 (w / 32)) (BitVec.ofNat 5 w))
    else .error (.fixedField "CMP.lt")
  else if op = 36 then
    if w / 8192 % 4 = 0 then .ok (.cmpGe (BitVec.ofNat 2 (w / 536870912)) (BitVec.ofNat 4 (w / 2097152)) (BitVec.ofNat 3 (w / 1024)) (BitVec.ofNat 5 (w / 32)) (BitVec.ofNat 5 w))
    else .error (.fixedField "CMP.ge")
  else if op = 37 then
    if w / 8192 % 4 = 0 then .ok (.cmpLtw (BitVec.ofNat 2 (w / 536870912)) (BitVec.ofNat 4 (w / 2097152)) (BitVec.ofNat 3 (w / 1024)) (BitVec.ofNat 5 (w / 32)) (BitVec.ofNat 5 w))
    else .error (.fixedField "CMP.ltw")
  else if op = 38 then
    if w / 8192 % 4 = 0 then .ok (.cmpGew (BitVec.ofNat 2 (w / 536870912)) (BitVec.ofNat 4 (w / 2097152)) (BitVec.ofNat 3 (w / 1024)) (BitVec.ofNat 5 (w / 32)) (BitVec.ofNat 5 w))
    else .error (.fixedField "CMP.gew")
  else .error (.unassignedOpcode "S" op)

/-- Class SI of the opcode map (R141). -/
def decodeSI (w : Nat) : Except DecodeError Instr :=
  let op := w / 2097152 % 16
  if op = 0 then
    .ok (.addi (BitVec.ofNat 2 (w / 536870912)) (BitVec.ofNat 5 (w / 65536)) (BitVec.ofNat 5 (w / 2048)) (BitVec.ofNat 11 w) none)
  else if op = 1 then
    .ok (.li (BitVec.ofNat 2 (w / 536870912)) (BitVec.ofNat 5 (w / 65536)) (BitVec.ofNat 16 w) none)
  else if op = 2 then
    .ok (.lih (BitVec.ofNat 2 (w / 536870912)) (BitVec.ofNat 5 (w / 65536)) (BitVec.ofNat 16 w) none)
  else if op = 3 then
    if w / 524288 % 4 = 0 then .ok (.cmpiEq (BitVec.ofNat 2 (w / 536870912)) (BitVec.ofNat 3 (w / 65536)) (BitVec.ofNat 5 (w / 2048)) (BitVec.ofNat 11 w) none)
    else .error (.fixedField "CMPI.eq")
  else if op = 4 then
    if w / 524288 % 4 = 0 then .ok (.cmpiNe (BitVec.ofNat 2 (w / 536870912)) (BitVec.ofNat 3 (w / 65536)) (BitVec.ofNat 5 (w / 2048)) (BitVec.ofNat 11 w) none)
    else .error (.fixedField "CMPI.ne")
  else if op = 5 then
    if w / 524288 % 4 = 0 then .ok (.cmpiLt (BitVec.ofNat 2 (w / 536870912)) (BitVec.ofNat 3 (w / 65536)) (BitVec.ofNat 5 (w / 2048)) (BitVec.ofNat 11 w) none)
    else .error (.fixedField "CMPI.lt")
  else if op = 6 then
    if w / 524288 % 4 = 0 then .ok (.cmpiGe (BitVec.ofNat 2 (w / 536870912)) (BitVec.ofNat 3 (w / 65536)) (BitVec.ofNat 5 (w / 2048)) (BitVec.ofNat 11 w) none)
    else .error (.fixedField "CMPI.ge")
  else if op = 7 then
    if w / 524288 % 4 = 0 then .ok (.cmpiLtw (BitVec.ofNat 2 (w / 536870912)) (BitVec.ofNat 3 (w / 65536)) (BitVec.ofNat 5 (w / 2048)) (BitVec.ofNat 11 w) none)
    else .error (.fixedField "CMPI.ltw")
  else if op = 8 then
    if w / 524288 % 4 = 0 then .ok (.cmpiGew (BitVec.ofNat 2 (w / 536870912)) (BitVec.ofNat 3 (w / 65536)) (BitVec.ofNat 5 (w / 2048)) (BitVec.ofNat 11 w) none)
    else .error (.fixedField "CMPI.gew")
  else .error (.unassignedOpcode "SI" op)

/-- Class B of the opcode map (R141). -/
def decodeB (w : Nat) : Except DecodeError Instr :=
  let op := w / 131072 % 16
  if op = 0 then
    if w / 65536 % 2 = 0 then .ok (.brRel (BitVec.ofNat 2 (w / 536870912)) (BitVec.ofNat 4 (w / 2097152)) (BitVec.ofNat 16 w) none)
    else if w / 65536 % 2 = 1 then .ok (.brAbs (BitVec.ofNat 2 (w / 536870912)) (BitVec.ofNat 4 (w / 2097152)) (BitVec.ofNat 16 w) none)
    else .error (.fixedField "BR")
  else if op = 1 then
    .ok (.brc (BitVec.ofNat 2 (w / 536870912)) (BitVec.ofNat 4 (w / 2097152)) (BitVec.ofNat 3 (w / 16384)) (BitVec.ofNat 5 (w / 512)) (BitVec.ofNat 9 w) none)
  else if op = 2 then
    if w / 65536 % 2 = 0 then .ok (.brf (BitVec.ofNat 2 (w / 536870912)) (BitVec.ofNat 4 (w / 2097152)) (BitVec.ofNat 1 (w / 32768)) (BitVec.ofNat 2 (w / 8192)) (BitVec.ofNat 1 (w / 4096)) (BitVec.ofNat 12 w) none)
    else .error (.fixedField "BRF")
  else if op = 3 then
    if w / 65536 % 2 = 0 then .ok (.callRel (BitVec.ofNat 2 (w / 536870912)) (BitVec.ofNat 4 (w / 2097152)) (BitVec.ofNat 16 w) none)
    else if w / 65536 % 2 = 1 then .ok (.callAbs (BitVec.ofNat 2 (w / 536870912)) (BitVec.ofNat 4 (w / 2097152)) (BitVec.ofNat 16 w) none)
    else .error (.fixedField "CALL")
  else if op = 4 then
    if w / 32 % 4096 = 0 then .ok (.ret (BitVec.ofNat 2 (w / 536870912)) (BitVec.ofNat 4 (w / 2097152)) (BitVec.ofNat 5 w))
    else .error (.fixedField "RET")
  else if op = 5 then
    if w / 2048 % 4 = 0 ∧ w / 65536 % 2 = 0 ∧ w / 2097152 % 16 = 0 then .ok (.loopClose (BitVec.ofNat 2 (w / 536870912)) (BitVec.ofNat 3 (w / 8192)) (BitVec.ofNat 11 w) none)
    else if w / 65536 % 2 = 1 ∧ w / 2097152 % 16 = 0 then .ok (.loopOpen (BitVec.ofNat 2 (w / 536870912)) (BitVec.ofNat 3 (w / 8192)) (BitVec.ofNat 5 (w / 256)) (BitVec.ofNat 8 w) none)
    else .error (.fixedField "LOOP")
  else if op = 6 then
    if w / 65536 % 2 = 0 ∧ w / 2097152 % 16 = 0 then .ok (.loopr (BitVec.ofNat 2 (w / 536870912)) (BitVec.ofNat 3 (w / 8192)) (BitVec.ofNat 2 (w / 2048)) (BitVec.ofNat 11 w) none)
    else .error (.fixedField "LOOPR")
  else if op = 7 then
    .ok (.lbrk (BitVec.ofNat 2 (w / 536870912)) (BitVec.ofNat 4 (w / 2097152)) (BitVec.ofNat 3 (w / 16384)) (BitVec.ofNat 14 w) none)
  else if op = 8 then
    if w % 2048 = 0 then .ok (.segx (BitVec.ofNat 2 (w / 536870912)) (BitVec.ofNat 4 (w / 2097152)) (BitVec.ofNat 6 (w / 2048)))
    else .error (.fixedField "SEGX")
  else if op = 9 then
    if w % 131072 = 0 ∧ w / 2097152 % 16 = 0 ∧ w / 536870912 % 4 = 0 then .ok (.endNode)
    else .error (.fixedField "END")
  else .error (.unassignedOpcode "B" op)

/-- Class SM of the opcode map (R141). -/
def decodeSM (w : Nat) : Except DecodeError Instr :=
  let op := w / 65536 % 32
  if op = 0 then
    .ok (.ldB (BitVec.ofNat 2 (w / 536870912)) (BitVec.ofNat 4 (w / 2097152)) (BitVec.ofNat 5 (w / 2048)) (BitVec.ofNat 5 (w / 64)) (BitVec.ofNat 6 w) none)
  else if op = 1 then
    .ok (.ldH (BitVec.ofNat 2 (w / 536870912)) (BitVec.ofNat 4 (w / 2097152)) (BitVec.ofNat 5 (w / 2048)) (BitVec.ofNat 5 (w / 64)) (BitVec.ofNat 6 w) none)
  else if op = 2 then
    .ok (.ldW (BitVec.ofNat 2 (w / 536870912)) (BitVec.ofNat 4 (w / 2097152)) (BitVec.ofNat 5 (w / 2048)) (BitVec.ofNat 5 (w / 64)) (BitVec.ofNat 6 w) none)
  else if op = 3 then
    .ok (.ldD (BitVec.ofNat 2 (w / 536870912)) (BitVec.ofNat 4 (w / 2097152)) (BitVec.ofNat 5 (w / 2048)) (BitVec.ofNat 5 (w / 64)) (BitVec.ofNat 6 w) none)
  else if op = 4 then
    .ok (.ldW8 (BitVec.ofNat 2 (w / 536870912)) (BitVec.ofNat 4 (w / 2097152)) (BitVec.ofNat 5 (w / 2048)) (BitVec.ofNat 5 (w / 64)) (BitVec.ofNat 6 w) none)
  else if op = 5 then
    .ok (.ldW16 (BitVec.ofNat 2 (w / 536870912)) (BitVec.ofNat 4 (w / 2097152)) (BitVec.ofNat 5 (w / 2048)) (BitVec.ofNat 5 (w / 64)) (BitVec.ofNat 6 w) none)
  else if op = 6 then
    .ok (.ldW32 (BitVec.ofNat 2 (w / 536870912)) (BitVec.ofNat 4 (w / 2097152)) (BitVec.ofNat 5 (w / 2048)) (BitVec.ofNat 5 (w / 64)) (BitVec.ofNat 6 w) none)
  else if op = 7 then
    .ok (.ldAcq (BitVec.ofNat 2 (w / 536870912)) (BitVec.ofNat 4 (w / 2097152)) (BitVec.ofNat 5 (w / 2048)) (BitVec.ofNat 5 (w / 64)) (BitVec.ofNat 2 (w / 16)) (BitVec.ofNat 4 w))
  else if op = 8 then
    .ok (.stB (BitVec.ofNat 2 (w / 536870912)) (BitVec.ofNat 4 (w / 2097152)) (BitVec.ofNat 5 (w / 2048)) (BitVec.ofNat 5 (w / 64)) (BitVec.ofNat 6 w) none)
  else if op = 9 then
    .ok (.stH (BitVec.ofNat 2 (w / 536870912)) (BitVec.ofNat 4 (w / 2097152)) (BitVec.ofNat 5 (w / 2048)) (BitVec.ofNat 5 (w / 64)) (BitVec.ofNat 6 w) none)
  else if op = 10 then
    .ok (.stW (BitVec.ofNat 2 (w / 536870912)) (BitVec.ofNat 4 (w / 2097152)) (BitVec.ofNat 5 (w / 2048)) (BitVec.ofNat 5 (w / 64)) (BitVec.ofNat 6 w) none)
  else if op = 11 then
    .ok (.stD (BitVec.ofNat 2 (w / 536870912)) (BitVec.ofNat 4 (w / 2097152)) (BitVec.ofNat 5 (w / 2048)) (BitVec.ofNat 5 (w / 64)) (BitVec.ofNat 6 w) none)
  else if op = 12 then
    .ok (.stRel (BitVec.ofNat 2 (w / 536870912)) (BitVec.ofNat 4 (w / 2097152)) (BitVec.ofNat 5 (w / 2048)) (BitVec.ofNat 5 (w / 64)) (BitVec.ofNat 2 (w / 16)) (BitVec.ofNat 4 w))
  else if op = 13 then
    .ok (.ldh (BitVec.ofNat 2 (w / 536870912)) (BitVec.ofNat 4 (w / 2097152)) (BitVec.ofNat 4 (w / 4096)) (BitVec.ofNat 5 (w / 128)) (BitVec.ofNat 7 w) none)
  else if op = 14 then
    .ok (.sth (BitVec.ofNat 2 (w / 536870912)) (BitVec.ofNat 4 (w / 2097152)) (BitVec.ofNat 4 (w / 4096)) (BitVec.ofNat 5 (w / 128)) (BitVec.ofNat 7 w) none)
  else if op = 16 then
    .ok (.amoAdd (BitVec.ofNat 2 (w / 536870912)) (BitVec.ofNat 4 (w / 2097152)) (BitVec.ofNat 5 (w / 2048)) (BitVec.ofNat 5 (w / 64)) (BitVec.ofNat 5 (w / 2)) (BitVec.ofNat 1 w) none)
  else if op = 17 then
    .ok (.amoAdds (BitVec.ofNat 2 (w / 536870912)) (BitVec.ofNat 4 (w / 2097152)) (BitVec.ofNat 5 (w / 2048)) (BitVec.ofNat 5 (w / 64)) (BitVec.ofNat 5 (w / 2)) (BitVec.ofNat 1 w) none)
  else if op = 18 then
    .ok (.amoMin (BitVec.ofNat 2 (w / 536870912)) (BitVec.ofNat 4 (w / 2097152)) (BitVec.ofNat 5 (w / 2048)) (BitVec.ofNat 5 (w / 64)) (BitVec.ofNat 5 (w / 2)) (BitVec.ofNat 1 w) none)
  else if op = 19 then
    .ok (.amoMax (BitVec.ofNat 2 (w / 536870912)) (BitVec.ofNat 4 (w / 2097152)) (BitVec.ofNat 5 (w / 2048)) (BitVec.ofNat 5 (w / 64)) (BitVec.ofNat 5 (w / 2)) (BitVec.ofNat 1 w) none)
  else if op = 20 then
    .ok (.amoAnd (BitVec.ofNat 2 (w / 536870912)) (BitVec.ofNat 4 (w / 2097152)) (BitVec.ofNat 5 (w / 2048)) (BitVec.ofNat 5 (w / 64)) (BitVec.ofNat 5 (w / 2)) (BitVec.ofNat 1 w) none)
  else if op = 21 then
    .ok (.amoOr (BitVec.ofNat 2 (w / 536870912)) (BitVec.ofNat 4 (w / 2097152)) (BitVec.ofNat 5 (w / 2048)) (BitVec.ofNat 5 (w / 64)) (BitVec.ofNat 5 (w / 2)) (BitVec.ofNat 1 w) none)
  else if op = 22 then
    .ok (.amoXor (BitVec.ofNat 2 (w / 536870912)) (BitVec.ofNat 4 (w / 2097152)) (BitVec.ofNat 5 (w / 2048)) (BitVec.ofNat 5 (w / 64)) (BitVec.ofNat 5 (w / 2)) (BitVec.ofNat 1 w) none)
  else if op = 23 then
    .ok (.amoSwap (BitVec.ofNat 2 (w / 536870912)) (BitVec.ofNat 4 (w / 2097152)) (BitVec.ofNat 5 (w / 2048)) (BitVec.ofNat 5 (w / 64)) (BitVec.ofNat 5 (w / 2)) (BitVec.ofNat 1 w) none)
  else if op = 24 then
    .ok (.amoCas (BitVec.ofNat 2 (w / 536870912)) (BitVec.ofNat 4 (w / 2097152)) (BitVec.ofNat 5 (w / 2048)) (BitVec.ofNat 5 (w / 64)) (BitVec.ofNat 5 (w / 2)) (BitVec.ofNat 1 w) none)
  else if op = 25 then
    .ok (.amoIncw (BitVec.ofNat 2 (w / 536870912)) (BitVec.ofNat 4 (w / 2097152)) (BitVec.ofNat 5 (w / 2048)) (BitVec.ofNat 5 (w / 64)) (BitVec.ofNat 5 (w / 2)) (BitVec.ofNat 1 w) none)
  else .error (.unassignedOpcode "SM" op)

/-- Class X of the opcode map (R141). -/
def decodeX (w : Nat) : Except DecodeError Instr :=
  let op := w / 131072 % 16
  if op = 0 then
    if w / 65536 % 2 = 0 then .ok (.trap (BitVec.ofNat 2 (w / 536870912)) (BitVec.ofNat 4 (w / 2097152)) (BitVec.ofNat 16 w))
    else .error (.fixedField "TRAP")
  else if op = 1 then
    if w % 131072 = 0 ∧ w / 2097152 % 16 = 0 then .ok (.tret (BitVec.ofNat 2 (w / 536870912)))
    else .error (.fixedField "TRET")
  else if op = 2 then
    if w % 131072 = 0 ∧ w / 2097152 % 16 = 0 then .ok (.uiret (BitVec.ofNat 2 (w / 536870912)))
    else .error (.fixedField "UIRET")
  else if op = 3 then
    .ok (.ctlr (BitVec.ofNat 2 (w / 536870912)) (BitVec.ofNat 4 (w / 2097152)) (BitVec.ofNat 5 (w / 4096)) (BitVec.ofNat 12 w))
  else if op = 4 then
    .ok (.ctlw (BitVec.ofNat 2 (w / 536870912)) (BitVec.ofNat 4 (w / 2097152)) (BitVec.ofNat 5 (w / 4096)) (BitVec.ofNat 12 w))
  else if op = 5 then
    if w % 2048 = 0 then .ok (.fence (BitVec.ofNat 2 (w / 536870912)) (BitVec.ofNat 4 (w / 2097152)) (BitVec.ofNat 1 (w / 65536)) (BitVec.ofNat 1 (w / 32768)) (BitVec.ofNat 4 (w / 2048)))
    else .error (.fixedField "FENCE")
  else if op = 6 then
    if w / 65536 % 2 = 0 then .ok (.brk (BitVec.ofNat 2 (w / 536870912)) (BitVec.ofNat 4 (w / 2097152)) (BitVec.ofNat 16 w))
    else .error (.fixedField "BRK")
  else if op = 7 then
    if w / 1024 % 128 = 0 then .ok (.cmpt (BitVec.ofNat 2 (w / 536870912)) (BitVec.ofNat 4 (w / 2097152)) (BitVec.ofNat 5 (w / 32)) (BitVec.ofNat 5 w))
    else .error (.fixedField "CMPT")
  else if op = 8 then
    if w % 4096 = 0 then .ok (.enq (BitVec.ofNat 2 (w / 536870912)) (BitVec.ofNat 4 (w / 2097152)) (BitVec.ofNat 3 (w / 16384)) (BitVec.ofNat 2 (w / 4096)))
    else .error (.fixedField "ENQ")
  else if op = 9 then
    if w % 131072 = 0 then .ok (.yield (BitVec.ofNat 2 (w / 536870912)) (BitVec.ofNat 4 (w / 2097152)))
    else .error (.fixedField "YIELD")
  else if op = 10 then
    if w % 4096 = 0 then .ok (.genr (BitVec.ofNat 2 (w / 536870912)) (BitVec.ofNat 4 (w / 2097152)) (BitVec.ofNat 5 (w / 4096)))
    else .error (.fixedField "GENR")
  else if op = 11 then
    if w % 131072 = 0 ∧ w / 2097152 % 16 = 0 then .ok (.idle (BitVec.ofNat 2 (w / 536870912)))
    else .error (.fixedField "IDLE")
  else .error (.unassignedOpcode "X" op)

/-- Class V of the opcode map (R141). -/
def decodeV (w : Nat) : Except DecodeError Instr :=
  let op := w / 1048576 % 32
  if op = 0 then
    if w / 524288 % 2 = 0 then .ok (.vadd (BitVec.ofNat 2 (w / 536870912)) (BitVec.ofNat 1 (w / 262144)) (BitVec.ofNat 6 (w / 4096)) (BitVec.ofNat 6 (w / 64)) (BitVec.ofNat 6 w))
    else .error (.fixedField "VADD")
  else if op = 1 then
    if w / 524288 % 2 = 0 then .ok (.vsub (BitVec.ofNat 2 (w / 536870912)) (BitVec.ofNat 1 (w / 262144)) (BitVec.ofNat 6 (w / 4096)) (BitVec.ofNat 6 (w / 64)) (BitVec.ofNat 6 w))
    else .error (.fixedField "VSUB")
  else if op = 2 then
    if w / 524288 % 2 = 0 then .ok (.vadds (BitVec.ofNat 2 (w / 536870912)) (BitVec.ofNat 1 (w / 262144)) (BitVec.ofNat 6 (w / 4096)) (BitVec.ofNat 6 (w / 64)) (BitVec.ofNat 6 w))
    else .error (.fixedField "VADDS")
  else if op = 3 then
    if w / 524288 % 2 = 0 then .ok (.vsubs (BitVec.ofNat 2 (w / 536870912)) (BitVec.ofNat 1 (w / 262144)) (BitVec.ofNat 6 (w / 4096)) (BitVec.ofNat 6 (w / 64)) (BitVec.ofNat 6 w))
    else .error (.fixedField "VSUBS")
  else if op = 4 then
    .ok (.vmul (BitVec.ofNat 2 (w / 536870912)) (BitVec.ofNat 1 (w / 524288)) (BitVec.ofNat 1 (w / 262144)) (BitVec.ofNat 6 (w / 4096)) (BitVec.ofNat 6 (w / 64)) (BitVec.ofNat 6 w))
  else if op = 5 then
    if w / 524288 % 2 = 0 then .ok (.vmulh (BitVec.ofNat 2 (w / 536870912)) (BitVec.ofNat 1 (w / 262144)) (BitVec.ofNat 6 (w / 4096)) (BitVec.ofNat 6 (w / 64)) (BitVec.ofNat 6 w))
    else .error (.fixedField "VMULH")
  else if op = 6 then
    .ok (.vmac (BitVec.ofNat 2 (w / 536870912)) (BitVec.ofNat 1 (w / 524288)) (BitVec.ofNat 1 (w / 262144)) (BitVec.ofNat 6 (w / 4096)) (BitVec.ofNat 6 (w / 64)) (BitVec.ofNat 6 w))
  else if op = 7 then
    if w / 524288 % 2 = 0 then .ok (.vmin (BitVec.ofNat 2 (w / 536870912)) (BitVec.ofNat 1 (w / 262144)) (BitVec.ofNat 6 (w / 4096)) (BitVec.ofNat 6 (w / 64)) (BitVec.ofNat 6 w))
    else .error (.fixedField "VMIN")
  else if op = 8 then
    if w / 524288 % 2 = 0 then .ok (.vmax (BitVec.ofNat 2 (w / 536870912)) (BitVec.ofNat 1 (w / 262144)) (BitVec.ofNat 6 (w / 4096)) (BitVec.ofNat 6 (w / 64)) (BitVec.ofNat 6 w))
    else .error (.fixedField "VMAX")
  else if op = 9 then
    if w / 262144 % 4 = 0 then .ok (.vand (BitVec.ofNat 2 (w / 536870912)) (BitVec.ofNat 6 (w / 4096)) (BitVec.ofNat 6 (w / 64)) (BitVec.ofNat 6 w))
    else .error (.fixedField "VAND")
  else if op = 10 then
    if w / 262144 % 4 = 0 then .ok (.vor (BitVec.ofNat 2 (w / 536870912)) (BitVec.ofNat 6 (w / 4096)) (BitVec.ofNat 6 (w / 64)) (BitVec.ofNat 6 w))
    else .error (.fixedField "VOR")
  else if op = 11 then
    if w / 262144 % 4 = 0 then .ok (.vxor (BitVec.ofNat 2 (w / 536870912)) (BitVec.ofNat 6 (w / 4096)) (BitVec.ofNat 6 (w / 64)) (BitVec.ofNat 6 w))
    else .error (.fixedField "VXOR")
  else if op = 12 then
    if w / 262144 % 4 = 0 then .ok (.vandn (BitVec.ofNat 2 (w / 536870912)) (BitVec.ofNat 6 (w / 4096)) (BitVec.ofNat 6 (w / 64)) (BitVec.ofNat 6 w))
    else .error (.fixedField "VANDN")
  else if op = 13 then
    if w / 262144 % 4 = 0 then .ok (.vsel (BitVec.ofNat 2 (w / 536870912)) (BitVec.ofNat 6 (w / 4096)) (BitVec.ofNat 6 (w / 64)) (BitVec.ofNat 6 w))
    else .error (.fixedField "VSEL")
  else if op = 14 then
    if w / 262144 % 4 = 0 then .ok (.vcmpEq (BitVec.ofNat 2 (w / 536870912)) (BitVec.ofNat 6 (w / 4096)) (BitVec.ofNat 6 (w / 64)) (BitVec.ofNat 6 w))
    else .error (.fixedField "VCMP.eq")
  else if op = 15 then
    if w / 262144 % 4 = 0 then .ok (.vcmpNe (BitVec.ofNat 2 (w / 536870912)) (BitVec.ofNat 6 (w / 4096)) (BitVec.ofNat 6 (w / 64)) (BitVec.ofNat 6 w))
    else .error (.fixedField "VCMP.ne")
  else if op = 16 then
    if w / 262144 % 4 = 0 then .ok (.vcmpLt (BitVec.ofNat 2 (w / 536870912)) (BitVec.ofNat 6 (w / 4096)) (BitVec.ofNat 6 (w / 64)) (BitVec.ofNat 6 w))
    else .error (.fixedField "VCMP.lt")
  else if op = 17 then
    if w / 262144 % 4 = 0 then .ok (.vcmpGe (BitVec.ofNat 2 (w / 536870912)) (BitVec.ofNat 6 (w / 4096)) (BitVec.ofNat 6 (w / 64)) (BitVec.ofNat 6 w))
    else .error (.fixedField "VCMP.ge")
  else if op = 18 then
    if w / 262144 % 4 = 0 then .ok (.vcmpLtw (BitVec.ofNat 2 (w / 536870912)) (BitVec.ofNat 6 (w / 4096)) (BitVec.ofNat 6 (w / 64)) (BitVec.ofNat 6 w))
    else .error (.fixedField "VCMP.ltw")
  else if op = 19 then
    if w / 262144 % 4 = 0 then .ok (.vcmpGew (BitVec.ofNat 2 (w / 536870912)) (BitVec.ofNat 6 (w / 4096)) (BitVec.ofNat 6 (w / 64)) (BitVec.ofNat 6 w))
    else .error (.fixedField "VCMP.gew")
  else if op = 20 then
    if w / 262144 % 4 = 0 then .ok (.vperm (BitVec.ofNat 2 (w / 536870912)) (BitVec.ofNat 6 (w / 4096)) (BitVec.ofNat 6 (w / 64)) (BitVec.ofNat 6 w))
    else .error (.fixedField "VPERM")
  else if op = 21 then
    if w / 262144 % 4 = 0 then .ok (.vgath (BitVec.ofNat 2 (w / 536870912)) (BitVec.ofNat 6 (w / 4096)) (BitVec.ofNat 6 (w / 64)) (BitVec.ofNat 6 w))
    else .error (.fixedField "VGATH")
  else if op = 22 then
    if w / 262144 % 4 = 0 then .ok (.vscat (BitVec.ofNat 2 (w / 536870912)) (BitVec.ofNat 6 (w / 4096)) (BitVec.ofNat 6 (w / 64)) (BitVec.ofNat 6 w))
    else .error (.fixedField "VSCAT")
  else if op = 23 then
    if w / 4096 % 256 = 0 then .ok (.vcmpt (BitVec.ofNat 2 (w / 536870912)) (BitVec.ofNat 6 (w / 64)) (BitVec.ofNat 6 w))
    else .error (.fixedField "VCMPT")
  else if op = 24 then
    if w % 64 = 0 then .ok (.tld (BitVec.ofNat 2 (w / 536870912)) (BitVec.ofNat 4 (w / 65536)) (BitVec.ofNat 4 (w / 4096)) (BitVec.ofNat 6 (w / 64)))
    else .error (.fixedField "TLD")
  else if op = 25 then
    if w % 16 = 0 then .ok (.tst (BitVec.ofNat 2 (w / 536870912)) (BitVec.ofNat 4 (w / 65536)) (BitVec.ofNat 4 (w / 4096)) (BitVec.ofNat 6 (w / 64)) (BitVec.ofNat 2 (w / 16)))
    else .error (.fixedField "TST")
  else .error (.unassignedOpcode "V" op)

/-- Class VI of the opcode map (R141). -/
def decodeVI (w : Nat) : Except DecodeError Instr :=
  let op := w / 1048576 % 32
  if op = 0 then
    .ok (.vshl (BitVec.ofNat 2 (w / 536870912)) (BitVec.ofNat 2 (w / 262144)) (BitVec.ofNat 6 (w / 4096)) (BitVec.ofNat 6 (w / 64)) (BitVec.ofNat 6 w))
  else if op = 1 then
    .ok (.vshr (BitVec.ofNat 2 (w / 536870912)) (BitVec.ofNat 2 (w / 262144)) (BitVec.ofNat 6 (w / 4096)) (BitVec.ofNat 6 (w / 64)) (BitVec.ofNat 6 w))
  else if op = 2 then
    .ok (.vsar (BitVec.ofNat 2 (w / 536870912)) (BitVec.ofNat 2 (w / 262144)) (BitVec.ofNat 6 (w / 4096)) (BitVec.ofNat 6 (w / 64)) (BitVec.ofNat 6 w))
  else if op = 3 then
    .ok (.vshrn (BitVec.ofNat 2 (w / 536870912)) (BitVec.ofNat 2 (w / 262144)) (BitVec.ofNat 6 (w / 4096)) (BitVec.ofNat 6 (w / 64)) (BitVec.ofNat 6 w) none)
  else if op = 4 then
    if w % 64 = 0 ∧ w / 524288 % 2 = 0 then .ok (.vabs (BitVec.ofNat 2 (w / 536870912)) (BitVec.ofNat 1 (w / 262144)) (BitVec.ofNat 6 (w / 4096)) (BitVec.ofNat 6 (w / 64)))
    else .error (.fixedField "VABS")
  else if op = 5 then
    if w % 64 = 0 ∧ w / 524288 % 2 = 0 then .ok (.vneg (BitVec.ofNat 2 (w / 536870912)) (BitVec.ofNat 1 (w / 262144)) (BitVec.ofNat 6 (w / 4096)) (BitVec.ofNat 6 (w / 64)))
    else .error (.fixedField "VNEG")
  else if op = 6 then
    if w % 64 = 0 ∧ w / 262144 % 4 = 0 then .ok (.vclz (BitVec.ofNat 2 (w / 536870912)) (BitVec.ofNat 6 (w / 4096)) (BitVec.ofNat 6 (w / 64)))
    else .error (.fixedField "VCLZ")
  else if op = 7 then
    if w % 64 = 0 ∧ w / 262144 % 4 = 0 then .ok (.vcls (BitVec.ofNat 2 (w / 536870912)) (BitVec.ofNat 6 (w / 4096)) (BitVec.ofNat 6 (w / 64)))
    else .error (.fixedField "VCLS")
  else if op = 8 then
    if w % 64 = 0 ∧ w / 262144 % 4 = 0 then .ok (.vpopc (BitVec.ofNat 2 (w / 536870912)) (BitVec.ofNat 6 (w / 4096)) (BitVec.ofNat 6 (w / 64)))
    else .error (.fixedField "VPOPC")
  else if op = 9 then
    if w / 524288 % 2 = 0 then .ok (.vcvt (BitVec.ofNat 2 (w / 536870912)) (BitVec.ofNat 1 (w / 262144)) (BitVec.ofNat 6 (w / 4096)) (BitVec.ofNat 6 (w / 64)) (BitVec.ofNat 6 w))
    else .error (.fixedField "VCVT")
  else if op = 10 then
    if w / 524288 % 2 = 0 then .ok (.vpack (BitVec.ofNat 2 (w / 536870912)) (BitVec.ofNat 1 (w / 262144)) (BitVec.ofNat 6 (w / 4096)) (BitVec.ofNat 6 (w / 64)) (BitVec.ofNat 6 w))
    else .error (.fixedField "VPACK")
  else if op = 11 then
    if w / 2 % 32 = 0 ∧ w / 524288 % 2 = 0 then .ok (.vunpk (BitVec.ofNat 2 (w / 536870912)) (BitVec.ofNat 1 (w / 262144)) (BitVec.ofNat 6 (w / 4096)) (BitVec.ofNat 6 (w / 64)) (BitVec.ofNat 1 w))
    else .error (.fixedField "VUNPK")
  else if op = 12 then
    if w / 524288 % 2 = 0 then .ok (.vrotl (BitVec.ofNat 2 (w / 536870912)) (BitVec.ofNat 1 (w / 262144)) (BitVec.ofNat 6 (w / 4096)) (BitVec.ofNat 6 (w / 64)) (BitVec.ofNat 6 w) none)
    else .error (.fixedField "VROTL")
  else if op = 13 then
    if w % 64 = 0 ∧ w / 2048 % 2 = 0 ∧ w / 262144 % 4 = 0 then .ok (.vbcast (BitVec.ofNat 2 (w / 536870912)) (BitVec.ofNat 6 (w / 4096)) (BitVec.ofNat 5 (w / 64)))
    else if w % 64 = 0 ∧ w / 262144 % 4 = 1 then .ok (.vbcastRow (BitVec.ofNat 2 (w / 536870912)) (BitVec.ofNat 6 (w / 4096)) (BitVec.ofNat 6 (w / 64)))
    else if w % 64 = 0 ∧ w / 262144 % 4 = 2 then .ok (.vbcastCol (BitVec.ofNat 2 (w / 536870912)) (BitVec.ofNat 6 (w / 4096)) (BitVec.ofNat 6 (w / 64)))
    else .error (.fixedField "VBCAST")
  else if op = 14 then
    if w % 64 = 0 ∧ w / 262144 % 4 = 0 then .ok (.vmov (BitVec.ofNat 2 (w / 536870912)) (BitVec.ofNat 6 (w / 4096)) (BitVec.ofNat 6 (w / 64)))
    else .error (.fixedField "VMOV")
  else if op = 15 then
    if w / 2 % 32 = 0 then .ok (.vredsum (BitVec.ofNat 2 (w / 536870912)) (BitVec.ofNat 2 (w / 262144)) (BitVec.ofNat 6 (w / 4096)) (BitVec.ofNat 6 (w / 64)) (BitVec.ofNat 1 w))
    else .error (.fixedField "VREDSUM")
  else if op = 16 then
    if w / 2 % 32 = 0 then .ok (.vredmax (BitVec.ofNat 2 (w / 536870912)) (BitVec.ofNat 2 (w / 262144)) (BitVec.ofNat 6 (w / 4096)) (BitVec.ofNat 6 (w / 64)) (BitVec.ofNat 1 w))
    else .error (.fixedField "VREDMAX")
  else if op = 17 then
    if w / 2 % 32 = 0 then .ok (.vredmin (BitVec.ofNat 2 (w / 536870912)) (BitVec.ofNat 2 (w / 262144)) (BitVec.ofNat 6 (w / 4096)) (BitVec.ofNat 6 (w / 64)) (BitVec.ofNat 1 w))
    else .error (.fixedField "VREDMIN")
  else if op = 18 then
    if w % 64 = 0 then .ok (.vabsmax (BitVec.ofNat 2 (w / 536870912)) (BitVec.ofNat 2 (w / 262144)) (BitVec.ofNat 6 (w / 4096)) (BitVec.ofNat 6 (w / 64)))
    else .error (.fixedField "VABSMAX")
  else if op = 19 then
    if w % 64 = 0 ∧ w / 524288 % 2 = 0 then .ok (.vpart (BitVec.ofNat 2 (w / 536870912)) (BitVec.ofNat 1 (w / 262144)) (BitVec.ofNat 6 (w / 4096)) (BitVec.ofNat 6 (w / 64)))
    else .error (.fixedField "VPART")
  else if op = 20 then
    if w / 4 % 16 = 0 then .ok (.vscan (BitVec.ofNat 2 (w / 536870912)) (BitVec.ofNat 2 (w / 262144)) (BitVec.ofNat 6 (w / 4096)) (BitVec.ofNat 6 (w / 64)) (BitVec.ofNat 1 (w / 2)) (BitVec.ofNat 1 w))
    else .error (.fixedField "VSCAN")
  else .error (.unassignedOpcode "VI" op)

/-- Class VL of the opcode map (R141). -/
def decodeVL (w : Nat) : Except DecodeError Instr :=
  if w / 16777216 % 2 = 0 then .ok (.vlut3 (BitVec.ofNat 2 (w / 536870912)) (BitVec.ofNat 8 (w / 65536)) (BitVec.ofNat 5 (w / 2048)) (BitVec.ofNat 6 (w / 32)) (BitVec.ofNat 5 w))
  else if w / 8388608 % 4 = 2 then .ok (.vfsl (BitVec.ofNat 2 (w / 536870912)) (BitVec.ofNat 6 (w / 131072)) (BitVec.ofNat 6 (w / 2048)) (BitVec.ofNat 6 (w / 32)) (BitVec.ofNat 5 w))
  else .ok (.vfsr (BitVec.ofNat 2 (w / 536870912)) (BitVec.ofNat 6 (w / 131072)) (BitVec.ofNat 6 (w / 2048)) (BitVec.ofNat 6 (w / 32)) (BitVec.ofNat 5 w))

/-- Class VR of the opcode map (R141). -/
def decodeVR (w : Nat) : Except DecodeError Instr :=
  let op := w / 1048576 % 32
  if op = 0 then
    if w / 32 % 2 = 0 ∧ w / 262144 % 4 = 0 then .ok (.vexp2 (BitVec.ofNat 2 (w / 536870912)) (BitVec.ofNat 6 (w / 4096)) (BitVec.ofNat 6 (w / 64)) (BitVec.ofNat 5 w) none)
    else .error (.fixedField "VEXP2")
  else if op = 1 then
    if w / 32 % 2 = 0 ∧ w / 262144 % 4 = 0 then .ok (.vlog2 (BitVec.ofNat 2 (w / 536870912)) (BitVec.ofNat 6 (w / 4096)) (BitVec.ofNat 6 (w / 64)) (BitVec.ofNat 5 w) none)
    else .error (.fixedField "VLOG2")
  else if op = 2 then
    if w / 32 % 2 = 0 ∧ w / 262144 % 4 = 0 then .ok (.vrcp (BitVec.ofNat 2 (w / 536870912)) (BitVec.ofNat 6 (w / 4096)) (BitVec.ofNat 6 (w / 64)) (BitVec.ofNat 5 w) none)
    else .error (.fixedField "VRCP")
  else if op = 3 then
    if w / 32 % 2 = 0 ∧ w / 262144 % 4 = 0 then .ok (.vrsq (BitVec.ofNat 2 (w / 536870912)) (BitVec.ofNat 6 (w / 4096)) (BitVec.ofNat 6 (w / 64)) (BitVec.ofNat 5 w) none)
    else .error (.fixedField "VRSQ")
  else if op = 4 then
    if w / 32 % 2 = 0 ∧ w / 262144 % 4 = 0 then .ok (.vsmax (BitVec.ofNat 2 (w / 536870912)) (BitVec.ofNat 6 (w / 4096)) (BitVec.ofNat 6 (w / 64)) (BitVec.ofNat 5 w))
    else .error (.fixedField "VSMAX")
  else if op = 5 then
    if w / 262144 % 4 = 0 then .ok (.vrmsn (BitVec.ofNat 2 (w / 536870912)) (BitVec.ofNat 6 (w / 4096)) (BitVec.ofNat 6 (w / 64)) (BitVec.ofNat 6 w) none)
    else .error (.fixedField "VRMSN")
  else if op = 6 then
    if w / 262144 % 4 = 0 then .ok (.vlnrm (BitVec.ofNat 2 (w / 536870912)) (BitVec.ofNat 6 (w / 4096)) (BitVec.ofNat 6 (w / 64)) (BitVec.ofNat 6 w) none)
    else .error (.fixedField "VLNRM")
  else if op = 7 then
    if w / 32 % 2 = 0 ∧ w / 262144 % 4 = 0 then .ok (.vgelu (BitVec.ofNat 2 (w / 536870912)) (BitVec.ofNat 6 (w / 4096)) (BitVec.ofNat 6 (w / 64)) (BitVec.ofNat 5 w) none)
    else .error (.fixedField "VGELU")
  else if op = 8 then
    .ok (.voptSgdm (BitVec.ofNat 2 (w / 536870912)) (BitVec.ofNat 2 (w / 262144)) (BitVec.ofNat 6 (w / 4096)) (BitVec.ofNat 6 (w / 64)) (BitVec.ofNat 6 w) none)
  else if op = 9 then
    .ok (.voptLion (BitVec.ofNat 2 (w / 536870912)) (BitVec.ofNat 2 (w / 262144)) (BitVec.ofNat 6 (w / 4096)) (BitVec.ofNat 6 (w / 64)) (BitVec.ofNat 6 w) none)
  else if op = 10 then
    .ok (.voptAdam (BitVec.ofNat 2 (w / 536870912)) (BitVec.ofNat 2 (w / 262144)) (BitVec.ofNat 6 (w / 4096)) (BitVec.ofNat 6 (w / 64)) (BitVec.ofNat 6 w) none)
  else .error (.unassignedOpcode "VR" op)

/-- Class M of the opcode map (R141). -/
def decodeM (w : Nat) : Except DecodeError Instr :=
  let op := w / 2097152 % 16
  if op = 0 then
    if w % 65536 = 0 then .ok (.mbeg (BitVec.ofNat 2 (w / 536870912)) (BitVec.ofNat 4 (w / 131072)) (BitVec.ofNat 1 (w / 65536)))
    else .error (.fixedField "MBEG")
  else if op = 1 then
    if w % 131072 = 0 then .ok (.mend (BitVec.ofNat 2 (w / 536870912)) (BitVec.ofNat 4 (w / 131072)))
    else .error (.fixedField "MEND")
  else if op = 2 then
    if w % 131072 = 0 then .ok (.mzero (BitVec.ofNat 2 (w / 536870912)) (BitVec.ofNat 4 (w / 131072)))
    else .error (.fixedField "MZERO")
  else if op = 3 then
    if w % 32 = 0 then .ok (.mma (BitVec.ofNat 2 (w / 536870912)) (BitVec.ofNat 4 (w / 131072)) (BitVec.ofNat 6 (w / 2048)) (BitVec.ofNat 6 (w / 32)) none)
    else .error (.fixedField "MMA")
  else if op = 4 then
    if w % 32 = 0 then .ok (.mmat (BitVec.ofNat 2 (w / 536870912)) (BitVec.ofNat 4 (w / 131072)) (BitVec.ofNat 6 (w / 2048)) (BitVec.ofNat 6 (w / 32)) none)
    else .error (.fixedField "MMAT")
  else if op = 5 then
    .ok (.epi (BitVec.ofNat 2 (w / 536870912)) (BitVec.ofNat 6 (w / 32768)) (BitVec.ofNat 4 (w / 2048)) (BitVec.ofNat 2 (w / 512)) (BitVec.ofNat 2 (w / 128)) (BitVec.ofNat 2 (w / 32)) (BitVec.ofNat 5 w) none)
  else if op = 6 then
    .ok (.epiAdd (BitVec.ofNat 2 (w / 536870912)) (BitVec.ofNat 4 (w / 131072)) (BitVec.ofNat 4 (w / 8192)) (BitVec.ofNat 2 (w / 2048)) (BitVec.ofNat 5 (w / 64)) (BitVec.ofNat 1 (w / 32)) (BitVec.ofNat 1 (w / 16)) (BitVec.ofNat 4 w) none)
  else if op = 7 then
    if w % 16 = 0 then .ok (.epiSend (BitVec.ofNat 2 (w / 536870912)) (BitVec.ofNat 2 (w / 524288)) (BitVec.ofNat 4 (w / 32768)) (BitVec.ofNat 4 (w / 2048)) (BitVec.ofNat 2 (w / 512)) (BitVec.ofNat 5 (w / 16)) none)
    else .error (.fixedField "EPI.SEND")
  else if op = 8 then
    if w % 16384 = 0 then .ok (.epiCk (BitVec.ofNat 2 (w / 536870912)) (BitVec.ofNat 3 (w / 262144)) (BitVec.ofNat 4 (w / 16384)))
    else .error (.fixedField "EPI.CK")
  else .error (.unassignedOpcode "M" op)

/-- Class T of the opcode map (R141). -/
def decodeT (w : Nat) : Except DecodeError Instr :=
  let op := w / 131072 % 16
  if op = 0 then
    if w / 32 % 64 = 0 then .ok (.hset (BitVec.ofNat 2 (w / 536870912)) (BitVec.ofNat 4 (w / 2097152)) (BitVec.ofNat 4 (w / 8192)) (BitVec.ofNat 2 (w / 2048)) (BitVec.ofNat 5 w))
    else .error (.fixedField "HSET")
  else if op = 1 then
    .ok (.hld (BitVec.ofNat 2 (w / 536870912)) (BitVec.ofNat 4 (w / 2097152)) (BitVec.ofNat 4 (w / 8192)) (BitVec.ofNat 8 (w / 32)) (BitVec.ofNat 5 w))
  else if op = 2 then
    .ok (.hst (BitVec.ofNat 2 (w / 536870912)) (BitVec.ofNat 4 (w / 2097152)) (BitVec.ofNat 4 (w / 8192)) (BitVec.ofNat 8 (w / 32)) (BitVec.ofNat 5 w))
  else if op = 3 then
    if w / 32 % 32 = 0 then .ok (.horg (BitVec.ofNat 2 (w / 536870912)) (BitVec.ofNat 4 (w / 2097152)) (BitVec.ofNat 4 (w / 8192)) (BitVec.ofNat 3 (w / 1024)) (BitVec.ofNat 5 w))
    else if w / 512 % 2 = 1 then .ok (.horgImm (BitVec.ofNat 2 (w / 536870912)) (BitVec.ofNat 4 (w / 2097152)) (BitVec.ofNat 4 (w / 8192)) (BitVec.ofNat 3 (w / 1024)) (BitVec.ofNat 9 w) none)
    else .error (.fixedField "HORG")
  else if op = 4 then
    if w / 32 % 32 = 0 then .ok (.hstep (BitVec.ofNat 2 (w / 536870912)) (BitVec.ofNat 4 (w / 2097152)) (BitVec.ofNat 4 (w / 8192)) (BitVec.ofNat 3 (w / 1024)) (BitVec.ofNat 5 w))
    else if w / 512 % 2 = 1 then .ok (.hstepImm (BitVec.ofNat 2 (w / 536870912)) (BitVec.ofNat 4 (w / 2097152)) (BitVec.ofNat 4 (w / 8192)) (BitVec.ofNat 3 (w / 1024)) (BitVec.ofNat 9 w) none)
    else .error (.fixedField "HSTEP")
  else if op = 5 then
    if w / 1024 % 2 = 0 then .ok (.kset (BitVec.ofNat 2 (w / 536870912)) (BitVec.ofNat 4 (w / 2097152)) (BitVec.ofNat 6 (w / 2048)) (BitVec.ofNat 5 (w / 32)) (BitVec.ofNat 5 w))
    else .error (.fixedField "KSET")
  else if op = 6 then
    if w % 32 = 0 then .ok (.kget (BitVec.ofNat 2 (w / 536870912)) (BitVec.ofNat 4 (w / 2097152)) (BitVec.ofNat 5 (w / 4096)) (BitVec.ofNat 6 (w / 64)) (BitVec.ofNat 1 (w / 32)))
    else .error (.fixedField "KGET")
  else if op = 7 then
    if w % 2048 = 0 then .ok (.cenClose (BitVec.ofNat 2 (w / 536870912)) (BitVec.ofNat 4 (w / 2097152)) (BitVec.ofNat 6 (w / 2048)))
    else .error (.fixedField "CEN.CLOSE")
  else if op = 8 then
    if w % 32 = 0 then .ok (.cenGet (BitVec.ofNat 2 (w / 536870912)) (BitVec.ofNat 4 (w / 2097152)) (BitVec.ofNat 5 (w / 4096)) (BitVec.ofNat 6 (w / 64)) (BitVec.ofNat 1 (w / 32)))
    else .error (.fixedField "CEN.GET")
  else if op = 9 then
    .ok (.shift (BitVec.ofNat 2 (w / 536870912)) (BitVec.ofNat 4 (w / 2097152)) (BitVec.ofNat 5 (w / 4096)) (BitVec.ofNat 6 (w / 64)) (BitVec.ofNat 6 w))
  else if op = 10 then
    if w / 32 % 32 = 0 ∧ w / 65536 % 2 = 0 then .ok (.tsh (BitVec.ofNat 2 (w / 536870912)) (BitVec.ofNat 4 (w / 2097152)) (BitVec.ofNat 6 (w / 1024)) (BitVec.ofNat 5 w))
    else if w / 32 % 32 = 0 ∧ w / 65536 % 2 = 1 then .ok (.tshRead (BitVec.ofNat 2 (w / 536870912)) (BitVec.ofNat 4 (w / 2097152)) (BitVec.ofNat 6 (w / 1024)) (BitVec.ofNat 5 w))
    else .error (.fixedField "TSH")
  else if op = 11 then
    .ok (.tshr (BitVec.ofNat 2 (w / 536870912)) (BitVec.ofNat 4 (w / 2097152)) (BitVec.ofNat 6 (w / 2048)) (BitVec.ofNat 6 (w / 32)) (BitVec.ofNat 5 w))
  else .error (.unassignedOpcode "T" op)

/-- Class C of the opcode map (R141). -/
def decodeC (w : Nat) : Except DecodeError Instr :=
  let op := w / 131072 % 16
  if op = 0 then
    if w % 32 = 0 then .ok (.cpy (BitVec.ofNat 2 (w / 536870912)) (BitVec.ofNat 4 (w / 2097152)) (BitVec.ofNat 4 (w / 8192)) (BitVec.ofNat 4 (w / 512)) (BitVec.ofNat 4 (w / 32)))
    else .error (.fixedField "CPY")
  else if op = 1 then
    if w % 32 = 0 then .ok (.cpyk (BitVec.ofNat 2 (w / 536870912)) (BitVec.ofNat 4 (w / 2097152)) (BitVec.ofNat 4 (w / 8192)) (BitVec.ofNat 4 (w / 512)) (BitVec.ofNat 4 (w / 32)))
    else .error (.fixedField "CPYK")
  else if op = 2 then
    if w / 512 % 16 = 0 then .ok (.cpyf (BitVec.ofNat 2 (w / 536870912)) (BitVec.ofNat 4 (w / 2097152)) (BitVec.ofNat 4 (w / 8192)) (BitVec.ofNat 4 (w / 32)) (BitVec.ofNat 5 w))
    else .error (.fixedField "CPYF")
  else if op = 3 then
    .ok (.cpyb (BitVec.ofNat 2 (w / 536870912)) (BitVec.ofNat 4 (w / 2097152)) (BitVec.ofNat 4 (w / 8192)) (BitVec.ofNat 4 (w / 512)) (BitVec.ofNat 4 (w / 32)) (BitVec.ofNat 5 w))
  else if op = 4 then
    .ok (.cpyq (BitVec.ofNat 2 (w / 536870912)) (BitVec.ofNat 4 (w / 2097152)) (BitVec.ofNat 4 (w / 8192)) (BitVec.ofNat 4 (w / 512)) (BitVec.ofNat 4 (w / 32)) (BitVec.ofNat 5 w))
  else if op = 5 then
    if w % 32768 = 0 then .ok (.cpycan (BitVec.ofNat 2 (w / 536870912)) (BitVec.ofNat 4 (w / 2097152)) (BitVec.ofNat 1 (w / 65536)) (BitVec.ofNat 1 (w / 32768)))
    else .error (.fixedField "CPYCAN")
  else if op = 6 then
    if w % 8 = 0 then .ok (.send (BitVec.ofNat 2 (w / 536870912)) (BitVec.ofNat 4 (w / 2097152)) (BitVec.ofNat 4 (w / 8192)) (BitVec.ofNat 4 (w / 512)) (BitVec.ofNat 4 (w / 32)) (BitVec.ofNat 2 (w / 8)))
    else .error (.fixedField "SEND")
  else if op = 7 then
    if w % 8 = 0 then .ok (.sendt (BitVec.ofNat 2 (w / 536870912)) (BitVec.ofNat 4 (w / 2097152)) (BitVec.ofNat 4 (w / 8192)) (BitVec.ofNat 4 (w / 512)) (BitVec.ofNat 4 (w / 32)) (BitVec.ofNat 2 (w / 8)))
    else .error (.fixedField "SENDT")
  else if op = 8 then
    if w % 8 = 0 then .ok (.coll (BitVec.ofNat 2 (w / 536870912)) (BitVec.ofNat 4 (w / 2097152)) (BitVec.ofNat 4 (w / 8192)) (BitVec.ofNat 4 (w / 512)) (BitVec.ofNat 4 (w / 32)) (BitVec.ofNat 2 (w / 8)))
    else .error (.fixedField "COLL")
  else if op = 9 then
    if w % 8 = 0 ∧ w / 32 % 4096 = 0 then .ok (.abort (BitVec.ofNat 2 (w / 536870912)) (BitVec.ofNat 4 (w / 2097152)) (BitVec.ofNat 2 (w / 8)))
    else .error (.fixedField "ABORT")
  else .error (.unassignedOpcode "C" op)

/-- Class Y of the opcode map (R141). -/
def decodeY (w : Nat) : Except DecodeError Instr :=
  let op := w / 131072 % 16
  if op = 0 then
    if w / 32 % 64 = 0 then .ok (.cset (BitVec.ofNat 2 (w / 536870912)) (BitVec.ofNat 4 (w / 2097152)) (BitVec.ofNat 6 (w / 2048)) (BitVec.ofNat 5 w))
    else if w / 1024 % 2 = 1 then .ok (.csetImm (BitVec.ofNat 2 (w / 536870912)) (BitVec.ofNat 4 (w / 2097152)) (BitVec.ofNat 6 (w / 2048)) (BitVec.ofNat 10 w) none)
    else .error (.fixedField "CSET")
  else if op = 1 then
    if w / 32 % 64 = 0 then .ok (.cadd (BitVec.ofNat 2 (w / 536870912)) (BitVec.ofNat 4 (w / 2097152)) (BitVec.ofNat 6 (w / 2048)) (BitVec.ofNat 5 w))
    else if w / 1024 % 2 = 1 then .ok (.caddImm (BitVec.ofNat 2 (w / 536870912)) (BitVec.ofNat 4 (w / 2097152)) (BitVec.ofNat 6 (w / 2048)) (BitVec.ofNat 10 w) none)
    else .error (.fixedField "CADD")
  else if op = 2 then
    if w / 32 % 64 = 0 then .ok (.cwait (BitVec.ofNat 2 (w / 536870912)) (BitVec.ofNat 4 (w / 2097152)) (BitVec.ofNat 6 (w / 2048)) (BitVec.ofNat 5 w))
    else if w / 1024 % 2 = 1 then .ok (.cwaitImm (BitVec.ofNat 2 (w / 536870912)) (BitVec.ofNat 4 (w / 2097152)) (BitVec.ofNat 6 (w / 2048)) (BitVec.ofNat 10 w) none)
    else .error (.fixedField "CWAIT")
  else if op = 3 then
    if w / 32 % 64 = 0 then .ok (.barb (BitVec.ofNat 2 (w / 536870912)) (BitVec.ofNat 4 (w / 2097152)) (BitVec.ofNat 6 (w / 2048)) (BitVec.ofNat 5 w))
    else if w / 1024 % 2 = 1 then .ok (.barbImm (BitVec.ofNat 2 (w / 536870912)) (BitVec.ofNat 4 (w / 2097152)) (BitVec.ofNat 6 (w / 2048)) (BitVec.ofNat 10 w) none)
    else .error (.fixedField "BARB")
  else if op = 4 then
    if w % 8192 = 0 then .ok (.bar (BitVec.ofNat 2 (w / 536870912)) (BitVec.ofNat 4 (w / 2097152)) (BitVec.ofNat 1 (w / 65536)) (BitVec.ofNat 1 (w / 32768)) (BitVec.ofNat 1 (w / 16384)) (BitVec.ofNat 1 (w / 8192)))
    else .error (.fixedField "BAR")
  else if op = 5 then
    if w / 32 % 512 = 0 then .ok (.jcbRaise (BitVec.ofNat 2 (w / 536870912)) (BitVec.ofNat 4 (w / 2097152)) (BitVec.ofNat 3 (w / 16384)) (BitVec.ofNat 5 w))
    else if w / 8192 % 2 = 1 then .ok (.jcbRaiseImm (BitVec.ofNat 2 (w / 536870912)) (BitVec.ofNat 4 (w / 2097152)) (BitVec.ofNat 3 (w / 16384)) (BitVec.ofNat 13 w) none)
    else .error (.fixedField "JCB.RAISE")
  else if op = 6 then
    if w % 131072 = 0 then .ok (.jcbDone (BitVec.ofNat 2 (w / 536870912)) (BitVec.ofNat 4 (w / 2097152)))
    else .error (.fixedField "JCB.DONE")
  else if op = 7 then
    if w / 32 % 64 = 0 then .ok (.tokGive (BitVec.ofNat 2 (w / 536870912)) (BitVec.ofNat 4 (w / 2097152)) (BitVec.ofNat 6 (w / 2048)) (BitVec.ofNat 5 w))
    else if w / 1024 % 2 = 1 then .ok (.tokGiveImm (BitVec.ofNat 2 (w / 536870912)) (BitVec.ofNat 4 (w / 2097152)) (BitVec.ofNat 6 (w / 2048)) (BitVec.ofNat 10 w) none)
    else .error (.fixedField "TOK.GIVE")
  else if op = 8 then
    if w / 32 % 8 = 0 then .ok (.tokTake (BitVec.ofNat 2 (w / 536870912)) (BitVec.ofNat 4 (w / 2097152)) (BitVec.ofNat 3 (w / 16384)) (BitVec.ofNat 6 (w / 256)) (BitVec.ofNat 5 w))
    else if w / 128 % 2 = 1 then .ok (.tokTakeImm (BitVec.ofNat 2 (w / 536870912)) (BitVec.ofNat 4 (w / 2097152)) (BitVec.ofNat 3 (w / 16384)) (BitVec.ofNat 6 (w / 256)) (BitVec.ofNat 7 w) none)
    else .error (.fixedField "TOK.TAKE")
  else .error (.unassignedOpcode "Y" op)

/-- Class E of the opcode map (R141). -/
def decodeE (w : Nat) : Except DecodeError Instr :=
  if w / 536870912 % 4 = 0 then .ok (.extensionWord (BitVec.ofNat 25 w))
  else .error (.fixedField "EXTENSION_WORD")

/-- Class N of the opcode map (R141). -/
def decodeN (w : Nat) : Except DecodeError Instr :=
  .ok (.nop (BitVec.ofNat 2 (w / 536870912)) (BitVec.ofNat 25 w))

/-- A word without its chain bit, by its class (R130, R141). -/
def decodeNat (w : Nat) : Except DecodeError Instr :=
  let cls := w / 33554432 % 16
  if cls = 0 then decodeS w
  else if cls = 1 then decodeSI w
  else if cls = 2 then decodeB w
  else if cls = 3 then decodeSM w
  else if cls = 4 then decodeX w
  else if cls = 5 then decodeV w
  else if cls = 6 then decodeVI w
  else if cls = 7 then decodeVL w
  else if cls = 8 then decodeVR w
  else if cls = 9 then decodeM w
  else if cls = 10 then decodeT w
  else if cls = 11 then decodeC w
  else if cls = 12 then decodeY w
  else if cls = 13 then decodeE w
  else if cls = 15 then decodeN w
  else .error .reservedClass

/-- A word without its chain bit. -/
def decodeWord (w : IWord) : Except DecodeError Instr := decodeNat w.toNat

/-- The chain bit C (R130). -/
def chains (w : IWord) : Bool := w.getLsbD 31

/-- The word with its extension, when its entry accepts an E word in this form (R133). -/
def Instr.withExt (i : Instr) (xw : BitVec 25) : Option Instr :=
  match i with
  | .addi q d a i _ => some (.addi q d a i (some xw))
  | .li q d i _ => some (.li q d i (some xw))
  | .lih q d i _ => some (.lih q d i (some xw))
  | .cmpiEq q p a i _ => some (.cmpiEq q p a i (some xw))
  | .cmpiNe q p a i _ => some (.cmpiNe q p a i (some xw))
  | .cmpiLt q p a i _ => some (.cmpiLt q p a i (some xw))
  | .cmpiGe q p a i _ => some (.cmpiGe q p a i (some xw))
  | .cmpiLtw q p a i _ => some (.cmpiLtw q p a i (some xw))
  | .cmpiGew q p a i _ => some (.cmpiGew q p a i (some xw))
  | .brRel q g k _ => some (.brRel q g k (some xw))
  | .brAbs q g i _ => some (.brAbs q g i (some xw))
  | .callRel q g k _ => some (.callRel q g k (some xw))
  | .callAbs q g i _ => some (.callAbs q g i (some xw))
  | .brc q g x a k _ => some (.brc q g x a k (some xw))
  | .brf q g t e n k _ => some (.brf q g t e n k (some xw))
  | .loopOpen q n a j _ => some (.loopOpen q n a j (some xw))
  | .loopClose q n k _ => some (.loopClose q n k (some xw))
  | .loopr q n r k _ => some (.loopr q n r k (some xw))
  | .lbrk q g n k _ => some (.lbrk q g n k (some xw))
  | .ldB q g d a f _ => some (.ldB q g d a f (some xw))
  | .ldH q g d a f _ => some (.ldH q g d a f (some xw))
  | .ldW q g d a f _ => some (.ldW q g d a f (some xw))
  | .ldD q g d a f _ => some (.ldD q g d a f (some xw))
  | .ldW8 q g d a f _ => some (.ldW8 q g d a f (some xw))
  | .ldW16 q g d a f _ => some (.ldW16 q g d a f (some xw))
  | .ldW32 q g d a f _ => some (.ldW32 q g d a f (some xw))
  | .stB q g v a f _ => some (.stB q g v a f (some xw))
  | .stH q g v a f _ => some (.stH q g v a f (some xw))
  | .stW q g v a f _ => some (.stW q g v a f (some xw))
  | .stD q g v a f _ => some (.stD q g v a f (some xw))
  | .ldh q g h a f _ => some (.ldh q g h a f (some xw))
  | .sth q g h a f _ => some (.sth q g h a f (some xw))
  | .amoAdd q g d a b w _ => some (.amoAdd q g d a b w (some xw))
  | .amoAdds q g d a b w _ => some (.amoAdds q g d a b w (some xw))
  | .amoMin q g d a b w _ => some (.amoMin q g d a b w (some xw))
  | .amoMax q g d a b w _ => some (.amoMax q g d a b w (some xw))
  | .amoAnd q g d a b w _ => some (.amoAnd q g d a b w (some xw))
  | .amoOr q g d a b w _ => some (.amoOr q g d a b w (some xw))
  | .amoXor q g d a b w _ => some (.amoXor q g d a b w (some xw))
  | .amoSwap q g d a b w _ => some (.amoSwap q g d a b w (some xw))
  | .amoCas q g d a b w _ => some (.amoCas q g d a b w (some xw))
  | .amoIncw q g d a b w _ => some (.amoIncw q g d a b w (some xw))
  | .vshrn q m d a b _ => some (.vshrn q m d a b (some xw))
  | .vrotl q x d a b _ => if x = 0 then some (.vrotl q x d a b (some xw)) else none
  | .vexp2 q d a f _ => some (.vexp2 q d a f (some xw))
  | .vlog2 q d a f _ => some (.vlog2 q d a f (some xw))
  | .vrcp q d a f _ => some (.vrcp q d a f (some xw))
  | .vrsq q d a f _ => some (.vrsq q d a f (some xw))
  | .vrmsn q d a b _ => some (.vrmsn q d a b (some xw))
  | .vlnrm q d a b _ => some (.vlnrm q d a b (some xw))
  | .vgelu q d a f _ => some (.vgelu q d a f (some xw))
  | .voptSgdm q m d a b _ => some (.voptSgdm q m d a b (some xw))
  | .voptLion q m d a b _ => some (.voptLion q m d a b (some xw))
  | .voptAdam q m d a b _ => some (.voptAdam q m d a b (some xw))
  | .mma q d a b _ => some (.mma q d a b (some xw))
  | .mmat q d a b _ => some (.mmat q d a b (some xw))
  | .epi q t a x y m s _ => some (.epi q t a x y m s (some xw))
  | .epiAdd q h a m s e l o _ => some (.epiAdd q h a m s e l o (some xw))
  | .epiSend q r h a m s _ => some (.epiSend q r h a m s (some xw))
  | .horgImm q g h d i _ => some (.horgImm q g h d i (some xw))
  | .hstepImm q g h d i _ => some (.hstepImm q g h d i (some xw))
  | .csetImm q g n i _ => some (.csetImm q g n i (some xw))
  | .caddImm q g n i _ => some (.caddImm q g n i (some xw))
  | .cwaitImm q g n i _ => some (.cwaitImm q g n i (some xw))
  | .barbImm q g n i _ => some (.barbImm q g n i (some xw))
  | .jcbRaiseImm q g p i _ => some (.jcbRaiseImm q g p i (some xw))
  | .tokGiveImm q g l i _ => some (.tokGiveImm q g l i (some xw))
  | .tokTakeImm q g p l i _ => some (.tokTakeImm q g p l i (some xw))
  | _ => none

/-- The extension bits, when the word is an E word with Q = 0 (R133). -/
def extensionOf (w : IWord) : Option (BitVec 25) :=
  match decodeWord w with
  | .ok (.extensionWord e) => some e
  | _ => none

/-- The first instruction of a list of words: the instruction, how many words it takes, and whether the bundle goes on after it. DEDUCED: log entry 63. -/
def decodeHead (ws : List IWord) : Except DecodeError (Instr × Nat × Bool) :=
  match ws with
  | [] => .error .noWord
  | w :: rest =>
    match decodeWord w with
    | .error r => .error r
    | .ok i =>
      match chains w, rest with
      | true, x :: _ =>
        match extensionOf x with
        | some e =>
          match i.withExt e with
          | some j => .ok (j, 2, chains x)
          | none => .ok (i, 1, true)
        | none => .ok (i, 1, true)
      | c, _ => .ok (i, 1, c)

/-- The word of an instruction with its chain bit clear, as a natural number, from the layouts of its entry. The rows without an encoding have none. -/
def Instr.encodeNat (i : Instr) : Option Nat :=
  match i with
  | .add q g d a b => some (q.toNat * 536870912 + g.toNat * 2097152 + d.toNat * 1024 + a.toNat * 32 + b.toNat)
  | .sub q g d a b => some (32768 + q.toNat * 536870912 + g.toNat * 2097152 + d.toNat * 1024 + a.toNat * 32 + b.toNat)
  | .addS q g d a b => some (65536 + q.toNat * 536870912 + g.toNat * 2097152 + d.toNat * 1024 + a.toNat * 32 + b.toNat)
  | .subS q g d a b => some (98304 + q.toNat * 536870912 + g.toNat * 2097152 + d.toNat * 1024 + a.toNat * 32 + b.toNat)
  | .and q g d a b => some (131072 + q.toNat * 536870912 + g.toNat * 2097152 + d.toNat * 1024 + a.toNat * 32 + b.toNat)
  | .or q g d a b => some (163840 + q.toNat * 536870912 + g.toNat * 2097152 + d.toNat * 1024 + a.toNat * 32 + b.toNat)
  | .xor q g d a b => some (196608 + q.toNat * 536870912 + g.toNat * 2097152 + d.toNat * 1024 + a.toNat * 32 + b.toNat)
  | .andn q g d a b => some (229376 + q.toNat * 536870912 + g.toNat * 2097152 + d.toNat * 1024 + a.toNat * 32 + b.toNat)
  | .shl q g d a b => some (262144 + q.toNat * 536870912 + g.toNat * 2097152 + d.toNat * 1024 + a.toNat * 32 + b.toNat)
  | .shlS q g d a b => some (294912 + q.toNat * 536870912 + g.toNat * 2097152 + d.toNat * 1024 + a.toNat * 32 + b.toNat)
  | .shr q g d a b => some (327680 + q.toNat * 536870912 + g.toNat * 2097152 + d.toNat * 1024 + a.toNat * 32 + b.toNat)
  | .sar q g d a b => some (360448 + q.toNat * 536870912 + g.toNat * 2097152 + d.toNat * 1024 + a.toNat * 32 + b.toNat)
  | .rot q g d a b => some (393216 + q.toNat * 536870912 + g.toNat * 2097152 + d.toNat * 1024 + a.toNat * 32 + b.toNat)
  | .mul q g d a b => some (425984 + q.toNat * 536870912 + g.toNat * 2097152 + d.toNat * 1024 + a.toNat * 32 + b.toNat)
  | .mulS q g d a b => some (458752 + q.toNat * 536870912 + g.toNat * 2097152 + d.toNat * 1024 + a.toNat * 32 + b.toNat)
  | .mulh q g d a b => some (491520 + q.toNat * 536870912 + g.toNat * 2097152 + d.toNat * 1024 + a.toNat * 32 + b.toNat)
  | .mulhw q g d a b => some (524288 + q.toNat * 536870912 + g.toNat * 2097152 + d.toNat * 1024 + a.toNat * 32 + b.toNat)
  | .div q g d a b => some (557056 + q.toNat * 536870912 + g.toNat * 2097152 + d.toNat * 1024 + a.toNat * 32 + b.toNat)
  | .divw q g d a b => some (589824 + q.toNat * 536870912 + g.toNat * 2097152 + d.toNat * 1024 + a.toNat * 32 + b.toNat)
  | .rem q g d a b => some (622592 + q.toNat * 536870912 + g.toNat * 2097152 + d.toNat * 1024 + a.toNat * 32 + b.toNat)
  | .remw q g d a b => some (655360 + q.toNat * 536870912 + g.toNat * 2097152 + d.toNat * 1024 + a.toNat * 32 + b.toNat)
  | .min q g d a b => some (688128 + q.toNat * 536870912 + g.toNat * 2097152 + d.toNat * 1024 + a.toNat * 32 + b.toNat)
  | .max q g d a b => some (720896 + q.toNat * 536870912 + g.toNat * 2097152 + d.toNat * 1024 + a.toNat * 32 + b.toNat)
  | .minw q g d a b => some (753664 + q.toNat * 536870912 + g.toNat * 2097152 + d.toNat * 1024 + a.toNat * 32 + b.toNat)
  | .maxw q g d a b => some (786432 + q.toNat * 536870912 + g.toNat * 2097152 + d.toNat * 1024 + a.toNat * 32 + b.toNat)
  | .clz q g d a => some (819200 + q.toNat * 536870912 + g.toNat * 2097152 + d.toNat * 1024 + a.toNat * 32)
  | .cls q g d a => some (851968 + q.toNat * 536870912 + g.toNat * 2097152 + d.toNat * 1024 + a.toNat * 32)
  | .popc q g d a => some (884736 + q.toNat * 536870912 + g.toNat * 2097152 + d.toNat * 1024 + a.toNat * 32)
  | .bfx q g d a b => some (917504 + q.toNat * 536870912 + g.toNat * 2097152 + d.toNat * 1024 + a.toNat * 32 + b.toNat)
  | .bfi q g d a b => some (950272 + q.toNat * 536870912 + g.toNat * 2097152 + d.toNat * 1024 + a.toNat * 32 + b.toNat)
  | .sel q s d a b => some (983040 + q.toNat * 536870912 + s.toNat * 2097152 + d.toNat * 1024 + a.toNat * 32 + b.toNat)
  | .mov q g d a => some (1015808 + q.toNat * 536870912 + g.toNat * 2097152 + d.toNat * 1024 + a.toNat * 32)
  | .movp q g f p n x m y => some (1048576 + q.toNat * 536870912 + g.toNat * 2097152 + f.toNat * 8192 + p.toNat * 1024 + n.toNat * 256 + x.toNat * 32 + m.toNat * 8 + y.toNat)
  | .cmpEq q g p a b => some (1081344 + q.toNat * 536870912 + g.toNat * 2097152 + p.toNat * 1024 + a.toNat * 32 + b.toNat)
  | .cmpNe q g p a b => some (1114112 + q.toNat * 536870912 + g.toNat * 2097152 + p.toNat * 1024 + a.toNat * 32 + b.toNat)
  | .cmpLt q g p a b => some (1146880 + q.toNat * 536870912 + g.toNat * 2097152 + p.toNat * 1024 + a.toNat * 32 + b.toNat)
  | .cmpGe q g p a b => some (1179648 + q.toNat * 536870912 + g.toNat * 2097152 + p.toNat * 1024 + a.toNat * 32 + b.toNat)
  | .cmpLtw q g p a b => some (1212416 + q.toNat * 536870912 + g.toNat * 2097152 + p.toNat * 1024 + a.toNat * 32 + b.toNat)
  | .cmpGew q g p a b => some (1245184 + q.toNat * 536870912 + g.toNat * 2097152 + p.toNat * 1024 + a.toNat * 32 + b.toNat)
  | .addi q d a i _ => some (33554432 + q.toNat * 536870912 + d.toNat * 65536 + a.toNat * 2048 + i.toNat)
  | .li q d i _ => some (35651584 + q.toNat * 536870912 + d.toNat * 65536 + i.toNat)
  | .lih q d i _ => some (37748736 + q.toNat * 536870912 + d.toNat * 65536 + i.toNat)
  | .cmpiEq q p a i _ => some (39845888 + q.toNat * 536870912 + p.toNat * 65536 + a.toNat * 2048 + i.toNat)
  | .cmpiNe q p a i _ => some (41943040 + q.toNat * 536870912 + p.toNat * 65536 + a.toNat * 2048 + i.toNat)
  | .cmpiLt q p a i _ => some (44040192 + q.toNat * 536870912 + p.toNat * 65536 + a.toNat * 2048 + i.toNat)
  | .cmpiGe q p a i _ => some (46137344 + q.toNat * 536870912 + p.toNat * 65536 + a.toNat * 2048 + i.toNat)
  | .cmpiLtw q p a i _ => some (48234496 + q.toNat * 536870912 + p.toNat * 65536 + a.toNat * 2048 + i.toNat)
  | .cmpiGew q p a i _ => some (50331648 + q.toNat * 536870912 + p.toNat * 65536 + a.toNat * 2048 + i.toNat)
  | .brRel q g k _ => some (67108864 + q.toNat * 536870912 + g.toNat * 2097152 + k.toNat)
  | .brAbs q g i _ => some (67174400 + q.toNat * 536870912 + g.toNat * 2097152 + i.toNat)
  | .callRel q g k _ => some (67502080 + q.toNat * 536870912 + g.toNat * 2097152 + k.toNat)
  | .callAbs q g i _ => some (67567616 + q.toNat * 536870912 + g.toNat * 2097152 + i.toNat)
  | .ret q g a => some (67633152 + q.toNat * 536870912 + g.toNat * 2097152 + a.toNat)
  | .brc q g x a k _ => some (67239936 + q.toNat * 536870912 + g.toNat * 2097152 + x.toNat * 16384 + a.toNat * 512 + k.toNat)
  | .brf q g t e n k _ => some (67371008 + q.toNat * 536870912 + g.toNat * 2097152 + t.toNat * 32768 + e.toNat * 8192 + n.toNat * 4096 + k.toNat)
  | .loopOpen q n a j _ => some (67829760 + q.toNat * 536870912 + n.toNat * 8192 + a.toNat * 256 + j.toNat)
  | .loopClose q n k _ => some (67764224 + q.toNat * 536870912 + n.toNat * 8192 + k.toNat)
  | .loopr q n r k _ => some (67895296 + q.toNat * 536870912 + n.toNat * 8192 + r.toNat * 2048 + k.toNat)
  | .lbrk q g n k _ => some (68026368 + q.toNat * 536870912 + g.toNat * 2097152 + n.toNat * 16384 + k.toNat)
  | .segx q g s => some (68157440 + q.toNat * 536870912 + g.toNat * 2097152 + s.toNat * 2048)
  | .endNode => some (68288512)
  | .ldB q g d a f _ => some (100663296 + q.toNat * 536870912 + g.toNat * 2097152 + d.toNat * 2048 + a.toNat * 64 + f.toNat)
  | .ldH q g d a f _ => some (100728832 + q.toNat * 536870912 + g.toNat * 2097152 + d.toNat * 2048 + a.toNat * 64 + f.toNat)
  | .ldW q g d a f _ => some (100794368 + q.toNat * 536870912 + g.toNat * 2097152 + d.toNat * 2048 + a.toNat * 64 + f.toNat)
  | .ldD q g d a f _ => some (100859904 + q.toNat * 536870912 + g.toNat * 2097152 + d.toNat * 2048 + a.toNat * 64 + f.toNat)
  | .ldW8 q g d a f _ => some (100925440 + q.toNat * 536870912 + g.toNat * 2097152 + d.toNat * 2048 + a.toNat * 64 + f.toNat)
  | .ldW16 q g d a f _ => some (100990976 + q.toNat * 536870912 + g.toNat * 2097152 + d.toNat * 2048 + a.toNat * 64 + f.toNat)
  | .ldW32 q g d a f _ => some (101056512 + q.toNat * 536870912 + g.toNat * 2097152 + d.toNat * 2048 + a.toNat * 64 + f.toNat)
  | .ldAcq q g d a z s => some (101122048 + q.toNat * 536870912 + g.toNat * 2097152 + d.toNat * 2048 + a.toNat * 64 + z.toNat * 16 + s.toNat)
  | .stB q g v a f _ => some (101187584 + q.toNat * 536870912 + g.toNat * 2097152 + v.toNat * 2048 + a.toNat * 64 + f.toNat)
  | .stH q g v a f _ => some (101253120 + q.toNat * 536870912 + g.toNat * 2097152 + v.toNat * 2048 + a.toNat * 64 + f.toNat)
  | .stW q g v a f _ => some (101318656 + q.toNat * 536870912 + g.toNat * 2097152 + v.toNat * 2048 + a.toNat * 64 + f.toNat)
  | .stD q g v a f _ => some (101384192 + q.toNat * 536870912 + g.toNat * 2097152 + v.toNat * 2048 + a.toNat * 64 + f.toNat)
  | .stRel q g v a z s => some (101449728 + q.toNat * 536870912 + g.toNat * 2097152 + v.toNat * 2048 + a.toNat * 64 + z.toNat * 16 + s.toNat)
  | .ldh q g h a f _ => some (101515264 + q.toNat * 536870912 + g.toNat * 2097152 + h.toNat * 4096 + a.toNat * 128 + f.toNat)
  | .sth q g h a f _ => some (101580800 + q.toNat * 536870912 + g.toNat * 2097152 + h.toNat * 4096 + a.toNat * 128 + f.toNat)
  | .amoAdd q g d a b w _ => some (101711872 + q.toNat * 536870912 + g.toNat * 2097152 + d.toNat * 2048 + a.toNat * 64 + b.toNat * 2 + w.toNat)
  | .amoAdds q g d a b w _ => some (101777408 + q.toNat * 536870912 + g.toNat * 2097152 + d.toNat * 2048 + a.toNat * 64 + b.toNat * 2 + w.toNat)
  | .amoMin q g d a b w _ => some (101842944 + q.toNat * 536870912 + g.toNat * 2097152 + d.toNat * 2048 + a.toNat * 64 + b.toNat * 2 + w.toNat)
  | .amoMax q g d a b w _ => some (101908480 + q.toNat * 536870912 + g.toNat * 2097152 + d.toNat * 2048 + a.toNat * 64 + b.toNat * 2 + w.toNat)
  | .amoAnd q g d a b w _ => some (101974016 + q.toNat * 536870912 + g.toNat * 2097152 + d.toNat * 2048 + a.toNat * 64 + b.toNat * 2 + w.toNat)
  | .amoOr q g d a b w _ => some (102039552 + q.toNat * 536870912 + g.toNat * 2097152 + d.toNat * 2048 + a.toNat * 64 + b.toNat * 2 + w.toNat)
  | .amoXor q g d a b w _ => some (102105088 + q.toNat * 536870912 + g.toNat * 2097152 + d.toNat * 2048 + a.toNat * 64 + b.toNat * 2 + w.toNat)
  | .amoSwap q g d a b w _ => some (102170624 + q.toNat * 536870912 + g.toNat * 2097152 + d.toNat * 2048 + a.toNat * 64 + b.toNat * 2 + w.toNat)
  | .amoCas q g d a b w _ => some (102236160 + q.toNat * 536870912 + g.toNat * 2097152 + d.toNat * 2048 + a.toNat * 64 + b.toNat * 2 + w.toNat)
  | .amoIncw q g d a b w _ => some (102301696 + q.toNat * 536870912 + g.toNat * 2097152 + d.toNat * 2048 + a.toNat * 64 + b.toNat * 2 + w.toNat)
  | .trap q g k => some (134217728 + q.toNat * 536870912 + g.toNat * 2097152 + k.toNat)
  | .tret q => some (134348800 + q.toNat * 536870912)
  | .uiret q => some (134479872 + q.toNat * 536870912)
  | .ctlr q g d n => some (134610944 + q.toNat * 536870912 + g.toNat * 2097152 + d.toNat * 4096 + n.toNat)
  | .ctlw q g s n => some (134742016 + q.toNat * 536870912 + g.toNat * 2097152 + s.toNat * 4096 + n.toNat)
  | .fence q g a l s => some (134873088 + q.toNat * 536870912 + g.toNat * 2097152 + a.toNat * 65536 + l.toNat * 32768 + s.toNat * 2048)
  | .brk q g k => some (135004160 + q.toNat * 536870912 + g.toNat * 2097152 + k.toNat)
  | .cmpt q g a b => some (135135232 + q.toNat * 536870912 + g.toNat * 2097152 + a.toNat * 32 + b.toNat)
  | .enq q g p y => some (135266304 + q.toNat * 536870912 + g.toNat * 2097152 + p.toNat * 16384 + y.toNat * 4096)
  | .yield q g => some (135397376 + q.toNat * 536870912 + g.toNat * 2097152)
  | .genr q g d => some (135528448 + q.toNat * 536870912 + g.toNat * 2097152 + d.toNat * 4096)
  | .idle q => some (135659520 + q.toNat * 536870912)
  | .vadd q u d a b => some (167772160 + q.toNat * 536870912 + u.toNat * 262144 + d.toNat * 4096 + a.toNat * 64 + b.toNat)
  | .vsub q u d a b => some (168820736 + q.toNat * 536870912 + u.toNat * 262144 + d.toNat * 4096 + a.toNat * 64 + b.toNat)
  | .vadds q u d a b => some (169869312 + q.toNat * 536870912 + u.toNat * 262144 + d.toNat * 4096 + a.toNat * 64 + b.toNat)
  | .vsubs q u d a b => some (170917888 + q.toNat * 536870912 + u.toNat * 262144 + d.toNat * 4096 + a.toNat * 64 + b.toNat)
  | .vmul q s u d a b => some (171966464 + q.toNat * 536870912 + s.toNat * 524288 + u.toNat * 262144 + d.toNat * 4096 + a.toNat * 64 + b.toNat)
  | .vmulh q u d a b => some (173015040 + q.toNat * 536870912 + u.toNat * 262144 + d.toNat * 4096 + a.toNat * 64 + b.toNat)
  | .vmac q s u d a b => some (174063616 + q.toNat * 536870912 + s.toNat * 524288 + u.toNat * 262144 + d.toNat * 4096 + a.toNat * 64 + b.toNat)
  | .vmin q u d a b => some (175112192 + q.toNat * 536870912 + u.toNat * 262144 + d.toNat * 4096 + a.toNat * 64 + b.toNat)
  | .vmax q u d a b => some (176160768 + q.toNat * 536870912 + u.toNat * 262144 + d.toNat * 4096 + a.toNat * 64 + b.toNat)
  | .vand q d a b => some (177209344 + q.toNat * 536870912 + d.toNat * 4096 + a.toNat * 64 + b.toNat)
  | .vor q d a b => some (178257920 + q.toNat * 536870912 + d.toNat * 4096 + a.toNat * 64 + b.toNat)
  | .vxor q d a b => some (179306496 + q.toNat * 536870912 + d.toNat * 4096 + a.toNat * 64 + b.toNat)
  | .vandn q d a b => some (180355072 + q.toNat * 536870912 + d.toNat * 4096 + a.toNat * 64 + b.toNat)
  | .vsel q d a b => some (181403648 + q.toNat * 536870912 + d.toNat * 4096 + a.toNat * 64 + b.toNat)
  | .vcmpEq q d a b => some (182452224 + q.toNat * 536870912 + d.toNat * 4096 + a.toNat * 64 + b.toNat)
  | .vcmpNe q d a b => some (183500800 + q.toNat * 536870912 + d.toNat * 4096 + a.toNat * 64 + b.toNat)
  | .vcmpLt q d a b => some (184549376 + q.toNat * 536870912 + d.toNat * 4096 + a.toNat * 64 + b.toNat)
  | .vcmpGe q d a b => some (185597952 + q.toNat * 536870912 + d.toNat * 4096 + a.toNat * 64 + b.toNat)
  | .vcmpLtw q d a b => some (186646528 + q.toNat * 536870912 + d.toNat * 4096 + a.toNat * 64 + b.toNat)
  | .vcmpGew q d a b => some (187695104 + q.toNat * 536870912 + d.toNat * 4096 + a.toNat * 64 + b.toNat)
  | .vperm q d a b => some (188743680 + q.toNat * 536870912 + d.toNat * 4096 + a.toNat * 64 + b.toNat)
  | .vgath q d a b => some (189792256 + q.toNat * 536870912 + d.toNat * 4096 + a.toNat * 64 + b.toNat)
  | .vscat q d a b => some (190840832 + q.toNat * 536870912 + d.toNat * 4096 + a.toNat * 64 + b.toNat)
  | .vcmpt q a b => some (191889408 + q.toNat * 536870912 + a.toNat * 64 + b.toNat)
  | .tld q g h t => some (192937984 + q.toNat * 536870912 + g.toNat * 65536 + h.toNat * 4096 + t.toNat * 64)
  | .tst q g h t m => some (193986560 + q.toNat * 536870912 + g.toNat * 65536 + h.toNat * 4096 + t.toNat * 64 + m.toNat * 16)
  | .vshl q x d a b => some (201326592 + q.toNat * 536870912 + x.toNat * 262144 + d.toNat * 4096 + a.toNat * 64 + b.toNat)
  | .vshr q x d a b => some (202375168 + q.toNat * 536870912 + x.toNat * 262144 + d.toNat * 4096 + a.toNat * 64 + b.toNat)
  | .vsar q x d a b => some (203423744 + q.toNat * 536870912 + x.toNat * 262144 + d.toNat * 4096 + a.toNat * 64 + b.toNat)
  | .vshrn q m d a b _ => some (204472320 + q.toNat * 536870912 + m.toNat * 262144 + d.toNat * 4096 + a.toNat * 64 + b.toNat)
  | .vabs q s d a => some (205520896 + q.toNat * 536870912 + s.toNat * 262144 + d.toNat * 4096 + a.toNat * 64)
  | .vneg q s d a => some (206569472 + q.toNat * 536870912 + s.toNat * 262144 + d.toNat * 4096 + a.toNat * 64)
  | .vclz q d a => some (207618048 + q.toNat * 536870912 + d.toNat * 4096 + a.toNat * 64)
  | .vcls q d a => some (208666624 + q.toNat * 536870912 + d.toNat * 4096 + a.toNat * 64)
  | .vpopc q d a => some (209715200 + q.toNat * 536870912 + d.toNat * 4096 + a.toNat * 64)
  | .vcvt q u d a b => some (210763776 + q.toNat * 536870912 + u.toNat * 262144 + d.toNat * 4096 + a.toNat * 64 + b.toNat)
  | .vpack q w d a b => some (211812352 + q.toNat * 536870912 + w.toNat * 262144 + d.toNat * 4096 + a.toNat * 64 + b.toNat)
  | .vunpk q u d a e => some (212860928 + q.toNat * 536870912 + u.toNat * 262144 + d.toNat * 4096 + a.toNat * 64 + e.toNat)
  | .vrotl q x d a b _ => some (213909504 + q.toNat * 536870912 + x.toNat * 262144 + d.toNat * 4096 + a.toNat * 64 + b.toNat)
  | .vbcast q d s => some (214958080 + q.toNat * 536870912 + d.toNat * 4096 + s.toNat * 64)
  | .vbcastRow q d a => some (215220224 + q.toNat * 536870912 + d.toNat * 4096 + a.toNat * 64)
  | .vbcastCol q d a => some (215482368 + q.toNat * 536870912 + d.toNat * 4096 + a.toNat * 64)
  | .vmov q d a => some (216006656 + q.toNat * 536870912 + d.toNat * 4096 + a.toNat * 64)
  | .vredsum q x d a u => some (217055232 + q.toNat * 536870912 + x.toNat * 262144 + d.toNat * 4096 + a.toNat * 64 + u.toNat)
  | .vredmax q x d a u => some (218103808 + q.toNat * 536870912 + x.toNat * 262144 + d.toNat * 4096 + a.toNat * 64 + u.toNat)
  | .vredmin q x d a u => some (219152384 + q.toNat * 536870912 + x.toNat * 262144 + d.toNat * 4096 + a.toNat * 64 + u.toNat)
  | .vabsmax q x d a => some (220200960 + q.toNat * 536870912 + x.toNat * 262144 + d.toNat * 4096 + a.toNat * 64)
  | .vpart q n d a => some (221249536 + q.toNat * 536870912 + n.toNat * 262144 + d.toNat * 4096 + a.toNat * 64)
  | .vscan q x d a s u => some (222298112 + q.toNat * 536870912 + x.toNat * 262144 + d.toNat * 4096 + a.toNat * 64 + s.toNat * 2 + u.toNat)
  | .vlut3 q l d a b => some (234881024 + q.toNat * 536870912 + l.toNat * 65536 + d.toNat * 2048 + a.toNat * 32 + b.toNat)
  | .vfsl q d a b n => some (251658240 + q.toNat * 536870912 + d.toNat * 131072 + a.toNat * 2048 + b.toNat * 32 + n.toNat)
  | .vfsr q d a b n => some (260046848 + q.toNat * 536870912 + d.toNat * 131072 + a.toNat * 2048 + b.toNat * 32 + n.toNat)
  | .vexp2 q d a f _ => some (268435456 + q.toNat * 536870912 + d.toNat * 4096 + a.toNat * 64 + f.toNat)
  | .vlog2 q d a f _ => some (269484032 + q.toNat * 536870912 + d.toNat * 4096 + a.toNat * 64 + f.toNat)
  | .vrcp q d a f _ => some (270532608 + q.toNat * 536870912 + d.toNat * 4096 + a.toNat * 64 + f.toNat)
  | .vrsq q d a f _ => some (271581184 + q.toNat * 536870912 + d.toNat * 4096 + a.toNat * 64 + f.toNat)
  | .vsmax q d a f => some (272629760 + q.toNat * 536870912 + d.toNat * 4096 + a.toNat * 64 + f.toNat)
  | .vrmsn q d a b _ => some (273678336 + q.toNat * 536870912 + d.toNat * 4096 + a.toNat * 64 + b.toNat)
  | .vlnrm q d a b _ => some (274726912 + q.toNat * 536870912 + d.toNat * 4096 + a.toNat * 64 + b.toNat)
  | .vgelu q d a f _ => some (275775488 + q.toNat * 536870912 + d.toNat * 4096 + a.toNat * 64 + f.toNat)
  | .voptSgdm q m d a b _ => some (276824064 + q.toNat * 536870912 + m.toNat * 262144 + d.toNat * 4096 + a.toNat * 64 + b.toNat)
  | .voptLion q m d a b _ => some (277872640 + q.toNat * 536870912 + m.toNat * 262144 + d.toNat * 4096 + a.toNat * 64 + b.toNat)
  | .voptAdam q m d a b _ => some (278921216 + q.toNat * 536870912 + m.toNat * 262144 + d.toNat * 4096 + a.toNat * 64 + b.toNat)
  | .mbeg q d k => some (301989888 + q.toNat * 536870912 + d.toNat * 131072 + k.toNat * 65536)
  | .mend q d => some (304087040 + q.toNat * 536870912 + d.toNat * 131072)
  | .mzero q d => some (306184192 + q.toNat * 536870912 + d.toNat * 131072)
  | .mma q d a b _ => some (308281344 + q.toNat * 536870912 + d.toNat * 131072 + a.toNat * 2048 + b.toNat * 32)
  | .mmat q d a b _ => some (310378496 + q.toNat * 536870912 + d.toNat * 131072 + a.toNat * 2048 + b.toNat * 32)
  | .epi q t a x y m s _ => some (312475648 + q.toNat * 536870912 + t.toNat * 32768 + a.toNat * 2048 + x.toNat * 512 + y.toNat * 128 + m.toNat * 32 + s.toNat)
  | .epiAdd q h a m s e l o _ => some (314572800 + q.toNat * 536870912 + h.toNat * 131072 + a.toNat * 8192 + m.toNat * 2048 + s.toNat * 64 + e.toNat * 32 + l.toNat * 16 + o.toNat)
  | .epiSend q r h a m s _ => some (316669952 + q.toNat * 536870912 + r.toNat * 524288 + h.toNat * 32768 + a.toNat * 2048 + m.toNat * 512 + s.toNat * 16)
  | .epiCk q p a => some (318767104 + q.toNat * 536870912 + p.toNat * 262144 + a.toNat * 16384)
  | .hset q g h x a => some (335544320 + q.toNat * 536870912 + g.toNat * 2097152 + h.toNat * 8192 + x.toNat * 2048 + a.toNat)
  | .hld q g h f a => some (335675392 + q.toNat * 536870912 + g.toNat * 2097152 + h.toNat * 8192 + f.toNat * 32 + a.toNat)
  | .hst q g h f a => some (335806464 + q.toNat * 536870912 + g.toNat * 2097152 + h.toNat * 8192 + f.toNat * 32 + a.toNat)
  | .horg q g h d a => some (335937536 + q.toNat * 536870912 + g.toNat * 2097152 + h.toNat * 8192 + d.toNat * 1024 + a.toNat)
  | .horgImm q g h d i _ => some (335938048 + q.toNat * 536870912 + g.toNat * 2097152 + h.toNat * 8192 + d.toNat * 1024 + i.toNat)
  | .hstep q g h d a => some (336068608 + q.toNat * 536870912 + g.toNat * 2097152 + h.toNat * 8192 + d.toNat * 1024 + a.toNat)
  | .hstepImm q g h d i _ => some (336069120 + q.toNat * 536870912 + g.toNat * 2097152 + h.toNat * 8192 + d.toNat * 1024 + i.toNat)
  | .kset q g k m a => some (336199680 + q.toNat * 536870912 + g.toNat * 2097152 + k.toNat * 2048 + m.toNat * 32 + a.toNat)
  | .kget q g d k f => some (336330752 + q.toNat * 536870912 + g.toNat * 2097152 + d.toNat * 4096 + k.toNat * 64 + f.toNat * 32)
  | .cenClose q g k => some (336461824 + q.toNat * 536870912 + g.toNat * 2097152 + k.toNat * 2048)
  | .cenGet q g d k f => some (336592896 + q.toNat * 536870912 + g.toNat * 2097152 + d.toNat * 4096 + k.toNat * 64 + f.toNat * 32)
  | .shift q g d k w => some (336723968 + q.toNat * 536870912 + g.toNat * 2097152 + d.toNat * 4096 + k.toNat * 64 + w.toNat)
  | .tsh q g t s => some (336855040 + q.toNat * 536870912 + g.toNat * 2097152 + t.toNat * 1024 + s.toNat)
  | .tshRead q g t s => some (336920576 + q.toNat * 536870912 + g.toNat * 2097152 + t.toNat * 1024 + s.toNat)
  | .tshr q g t u b => some (336986112 + q.toNat * 536870912 + g.toNat * 2097152 + t.toNat * 2048 + u.toNat * 32 + b.toNat)
  | .cpy q g h s w => some (369098752 + q.toNat * 536870912 + g.toNat * 2097152 + h.toNat * 8192 + s.toNat * 512 + w.toNat * 32)
  | .cpyk q g h s w => some (369229824 + q.toNat * 536870912 + g.toNat * 2097152 + h.toNat * 8192 + s.toNat * 512 + w.toNat * 32)
  | .cpyf q g h w v => some (369360896 + q.toNat * 536870912 + g.toNat * 2097152 + h.toNat * 8192 + w.toNat * 32 + v.toNat)
  | .cpyb q g h s w m => some (369491968 + q.toNat * 536870912 + g.toNat * 2097152 + h.toNat * 8192 + s.toNat * 512 + w.toNat * 32 + m.toNat)
  | .cpyq q g h s w t => some (369623040 + q.toNat * 536870912 + g.toNat * 2097152 + h.toNat * 8192 + s.toNat * 512 + w.toNat * 32 + t.toNat)
  | .cpycan q g a b => some (369754112 + q.toNat * 536870912 + g.toNat * 2097152 + a.toNat * 65536 + b.toNat * 32768)
  | .send q g h s w r => some (369885184 + q.toNat * 536870912 + g.toNat * 2097152 + h.toNat * 8192 + s.toNat * 512 + w.toNat * 32 + r.toNat * 8)
  | .sendt q g h s w r => some (370016256 + q.toNat * 536870912 + g.toNat * 2097152 + h.toNat * 8192 + s.toNat * 512 + w.toNat * 32 + r.toNat * 8)
  | .coll q g h s w r => some (370147328 + q.toNat * 536870912 + g.toNat * 2097152 + h.toNat * 8192 + s.toNat * 512 + w.toNat * 32 + r.toNat * 8)
  | .abort q g r => some (370278400 + q.toNat * 536870912 + g.toNat * 2097152 + r.toNat * 8)
  | .cset q g n a => some (402653184 + q.toNat * 536870912 + g.toNat * 2097152 + n.toNat * 2048 + a.toNat)
  | .csetImm q g n i _ => some (402654208 + q.toNat * 536870912 + g.toNat * 2097152 + n.toNat * 2048 + i.toNat)
  | .cadd q g n a => some (402784256 + q.toNat * 536870912 + g.toNat * 2097152 + n.toNat * 2048 + a.toNat)
  | .caddImm q g n i _ => some (402785280 + q.toNat * 536870912 + g.toNat * 2097152 + n.toNat * 2048 + i.toNat)
  | .cwait q g n a => some (402915328 + q.toNat * 536870912 + g.toNat * 2097152 + n.toNat * 2048 + a.toNat)
  | .cwaitImm q g n i _ => some (402916352 + q.toNat * 536870912 + g.toNat * 2097152 + n.toNat * 2048 + i.toNat)
  | .barb q g n a => some (403046400 + q.toNat * 536870912 + g.toNat * 2097152 + n.toNat * 2048 + a.toNat)
  | .barbImm q g n i _ => some (403047424 + q.toNat * 536870912 + g.toNat * 2097152 + n.toNat * 2048 + i.toNat)
  | .bar q g a b e l => some (403177472 + q.toNat * 536870912 + g.toNat * 2097152 + a.toNat * 65536 + b.toNat * 32768 + e.toNat * 16384 + l.toNat * 8192)
  | .jcbRaise q g p a => some (403308544 + q.toNat * 536870912 + g.toNat * 2097152 + p.toNat * 16384 + a.toNat)
  | .jcbRaiseImm q g p i _ => some (403316736 + q.toNat * 536870912 + g.toNat * 2097152 + p.toNat * 16384 + i.toNat)
  | .jcbDone q g => some (403439616 + q.toNat * 536870912 + g.toNat * 2097152)
  | .tokGive q g l a => some (403570688 + q.toNat * 536870912 + g.toNat * 2097152 + l.toNat * 2048 + a.toNat)
  | .tokGiveImm q g l i _ => some (403571712 + q.toNat * 536870912 + g.toNat * 2097152 + l.toNat * 2048 + i.toNat)
  | .tokTake q g p l a => some (403701760 + q.toNat * 536870912 + g.toNat * 2097152 + p.toNat * 16384 + l.toNat * 256 + a.toNat)
  | .tokTakeImm q g p l i _ => some (403701888 + q.toNat * 536870912 + g.toNat * 2097152 + p.toNat * 16384 + l.toNat * 256 + i.toNat)
  | .extensionWord i => some (436207616 + i.toNat)
  | .nop q x => some (503316480 + q.toNat * 536870912 + x.toNat)
  | _ => none

/-- The extension that an instruction carries. -/
def Instr.extOf (i : Instr) : Option (BitVec 25) := i.sig.ext

/-- The words of an instruction: its word, and its E word when it carries one. The last word has C = `c`. -/
def Instr.encodeWith (i : Instr) (c : Bool) : List IWord :=
  let top := if c then 2147483648 else 0
  match i.encodeNat, i.extOf with
  | some n, none => [BitVec.ofNat 32 (n + top)]
  | some n, some e => [BitVec.ofNat 32 (n + 2147483648), BitVec.ofNat 32 (436207616 + e.toNat + top)]
  | none, _ => []

/-- The words of an instruction that ends its bundle. DEDUCED: log entry 63. -/
def encode (i : Instr) : List IWord := i.encodeWith false

/-- What the decoder reads from an instruction whose bits are `w`, numbered as the opcode table numbers them; every bit above `nbits` is 0. -/
def decodeTableWord (nbits w : Nat) : Option Instr :=
  let v := w % 2 ^ nbits
  match decodeHead [BitVec.ofNat 32 v, BitVec.ofNat 32 (v / 2 ^ 32)] with
  | .ok (i, _, _) => some i
  | .error _ => none

end Sys2Proof
end

