-- ==== Sys2Proof/Machine/Fields.lean ====
section
/-! DEFINITION. The fields of handles (R51), shape registers (R215), scale registers (R37), link and copy words (R275, R276, R332) and route registers (R232). -/

namespace Sys2Proof

/-- Bits of a word as a natural number, by position and width. -/
def fieldN {w : Nat} (x : BitVec w) (lo n : Nat) : Nat := (x.extractLsb' lo n).toNat

def Handle.tid (h : Handle) : Nat := fieldN h 0 20
def Handle.fmt (h : Handle) : Nat := fieldN h 20 4
def Handle.rank (h : Handle) : Nat := fieldN h 24 3
def Handle.ori (h : Handle) : Bool := h.getLsbD 27
def Handle.keep (h : Handle) : Bool := h.getLsbD 28
def Handle.cen (h : Handle) : Bool := h.getLsbD 29
def Handle.stg (h : Handle) : Bool := h.getLsbD 30
def Handle.kidx (h : Handle) : Nat := fieldN h 32 6
def Handle.level (h : Handle) : Nat := fieldN h 38 2
/-- Extent of dimension d (EXT_d + 1, R51). -/
def Handle.ext (h : Handle) (d : Nat) : Nat := fieldN h (64 + 18 * d) 18 + 1
def Handle.org (h : Handle) (d : Nat) : Nat := fieldN h (154 + 18 * d) 18
def Handle.exts (h : Handle) : List Nat := (List.range 5).map h.ext
def Handle.orgs (h : Handle) : List Nat := (List.range 5).map h.org
/-- A reserved bit of R51 is set. -/
def Handle.reserved (h : Handle) : Bool := h.getLsbD 31 || fieldN h 40 24 != 0 || fieldN h 244 12 != 0

/-- The width of a format code (R28, R30). -/
def fmtWidth (f : Nat) : Nat := if f = 0 ∨ f = 4 then 4 else if f = 1 ∨ f = 5 then 8 else if f = 2 then 16 else 32
/-- B4 and B8. -/
def fmtBlock (f : Nat) : Bool := f == 4 || f == 5
/-- Format codes 0x6 to 0xF are reserved (R30). -/
def fmtReserved (f : Nat) : Bool := decide (6 ≤ f)

/-- The linear index of R53. -/
def linIndex (n x : List Nat) : Nat := (n.zip x).foldr (fun (e, c) acc => c + e * acc) 0

/-- Element count of a list of extents. -/
def prodN (l : List Nat) : Nat := l.foldl (· * ·) 1

def shapeW (t : BitVec 32) : Nat := 4 * 2 ^ fieldN t 0 2
def shapeRows (t : BitVec 32) : Nat := fieldN t 7 8 + 1
def shapeCols (t : BitVec 32) : Nat := 256 * (fieldN t 15 10 + 1)
def shapeSat (t : BitVec 32) : Bool := t.getLsbD 25

/-- A legal shape (R216) on n slabs. -/
def shapeLegal (n : Nat) (t : BitVec 32) : Bool := decide (shapeRows t * shapeCols t * shapeW t ≤ 262144 * n)

/-- The exponent of a scale register (R37). -/
def scaleE (k : BitVec 32) : Int := signExt 8 (fieldN k 0 8 : Int)
def scaleFmt (k : BitVec 32) : Nat := fieldN k 24 4

/-- The window extents of a copy or link word: X0 to X2 from its first register (R275), X3 and X4 from its second (R276, R332), plus one. -/
def windowExts (a b : BitVec 64) : List Nat := [fieldN a 0 18 + 1, fieldN a 18 18 + 1, fieldN a 36 18 + 1, fieldN b 0 18 + 1, fieldN b 18 18 + 1]

/-- The coordinates of the window element with linear index i, dimension 0 fastest. -/
def unlin (exts : List Nat) (i : Nat) : List Nat :=
  match exts with
  | [] => []
  | e :: rest => i % e :: unlin rest (i / e)

/-- Tensor coordinates of a window element (R52). -/
def addOrg (org j : List Nat) : List Nat := (org.zip j).map fun (a, b) => a + b

/-- Inside the extents in every dimension (R52). -/
def inside (exts x : List Nat) : Bool := (exts.zip x).all fun (n, c) => decide (c < n)

/-- The element count of a handle's tensor (R53). -/
def Handle.total (h : Handle) : Nat := prodN h.exts

/-- The byte offset of an element in the data plane (R53), and the bytes it takes. -/
def dataOff (w idx : Nat) : Nat := idx * w / 8
def dataLen (w : Nat) : Nat := (w + 7) / 8

/-- The size of the data plane and the start of the shift plane (R33). -/
def Handle.dataPlane (h : Handle) : Nat := (h.total * fmtWidth h.fmt + 7) / 8
def Handle.shiftPlane (h : Handle) : Nat := (h.dataPlane + 255) / 256 * 256

/-- A byte offset lies in the padding between the planes of a block-shift tensor (R33). -/
def Handle.padding (h : Handle) (off : Nat) : Bool := fmtBlock h.fmt && decide (h.dataPlane ≤ off) && decide (off < h.shiftPlane)

/-- The coordinates that count in the linear index of a handle: 0 in a dimension at or above RANK (R53). -/
def Handle.ranked (h : Handle) (x : List Nat) : List Nat := x.zipIdx.map fun e => if e.2 < h.rank then e.1 else 0

/-- The R53 index through an index handle, which is not checked under R52. DEDUCED: log entry 66. -/
def Handle.index (h : Handle) (x : List Nat) : Nat := linIndex h.exts (h.ranked x)

/-- The byte that an access through a handle reaches first: that of the element at its origin; no element of a window lies inside the extents when
that one does not (R52, R257, R259). DEDUCED: log entry 41. -/
def Handle.firstByte (h : Handle) : Nat := if inside h.exts h.orgs then dataOff (fmtWidth h.fmt) (linIndex h.exts h.orgs) else 0

/-- The frame of that byte. -/
def Handle.firstFrame (h : Handle) : Nat := h.firstByte / 65536

/-- Route register fields (R232). -/
def routeSeq (e : BitVec 64) : BitVec 16 := e.extractLsb' 48 16
def routeV (e : BitVec 64) : Bool := e.getLsbD 47
def routeRel (e : BitVec 64) : Bool := e.getLsbD 46
def routeScope (e : BitVec 64) : Nat := fieldN e 42 4
def routeCnt (e : BitVec 64) : BitVec 6 := e.extractLsb' 36 6
def routeCore (e : BitVec 64) : BitVec 10 := e.extractLsb' 26 10
def routeZ (e : BitVec 64) : BitVec 5 := e.extractLsb' 10 5
def routeY (e : BitVec 64) : BitVec 5 := e.extractLsb' 5 5
def routeX (e : BitVec 64) : BitVec 5 := e.extractLsb' 0 5
/-- SEQ + 1 modulo 2^16 (R233). -/
def routeNext (e : BitVec 64) : BitVec 64 := (e &&& 0x0000FFFFFFFFFFFF#64) ||| ((routeSeq e + 1).zeroExtend 64 <<< 48)

end Sys2Proof
end

