-- ==== Sys2Proof/Machine/Flags.lean ====
section
/-! DEFINITION. The flag computations: shift bytes with their check bits (R34, R35), the choice of a block's shift (R36),
census values (R39), and the saturating and wrapping writes of tile elements (R182, R184). -/

namespace Sys2Proof

/-- The shift byte of m (R34). -/
def shiftByte (m : Nat) : Byte :=
  let d0 := m.testBit 0
  let d1 := m.testBit 1
  let d2 := m.testBit 2
  let d3 := m.testBit 3
  let c0 := Bool.xor d0 (Bool.xor d1 d3)
  let c1 := Bool.xor d0 (Bool.xor d2 d3)
  let c2 := Bool.xor d1 (Bool.xor d2 d3)
  let c3 := Bool.xor (Bool.xor d0 d1) (Bool.xor (Bool.xor d2 d3) (Bool.xor c0 (Bool.xor c1 c2)))
  BitVec.ofNat 8 (m % 16 + (if c0 then 16 else 0) + (if c1 then 32 else 0) + (if c2 then 64 else 0) + (if c3 then 128 else 0))

/-- What a shift byte decodes to: the shift, whether it was corrected, whether the block is poisoned (R35). -/
structure ShiftRead where
  m : Nat
  corrected : Bool
  poisoned : Bool
deriving DecidableEq, Repr

/-- DecodeShift (R35). -/
def decodeShift (b : Byte) : ShiftRead :=
  let d := b.toNat % 16
  let d0 := b.getLsbD 0
  let d1 := b.getLsbD 1
  let d2 := b.getLsbD 2
  let d3 := b.getLsbD 3
  let s2 := Bool.xor (b.getLsbD 6) (Bool.xor d1 (Bool.xor d2 d3))
  let s1 := Bool.xor (b.getLsbD 5) (Bool.xor d0 (Bool.xor d2 d3))
  let s0 := Bool.xor (b.getLsbD 4) (Bool.xor d0 (Bool.xor d1 d3))
  let s := (if s2 then 4 else 0) + (if s1 then 2 else 0) + (if s0 then 1 else 0)
  let par := (popCount b.toNat 8) % 2
  if s = 0 ∧ par = 0 then { m := d, corrected := false, poisoned := false }
  else if par = 1 then
    let flip := if s = 3 then 1 else if s = 5 then 2 else if s = 6 then 4 else if s = 7 then 8 else 0
    { m := d ^^^ flip, corrected := true, poisoned := false }
  else { m := 0, corrected := false, poisoned := true }

/-- The rounding a narrowing applies: its mode and the hash inputs (R6, R45). -/
structure Rounding where
  mode : BitVec 2
  seed : Nat
  step : Nat
deriving DecidableEq, Repr

def Rounding.go (r : Rounding) (idx : Nat) (x : Int) (s : Nat) : Int := roundBy r.mode r.seed r.step idx x s

/-- The least shift of R36 that makes every value of the block fit width w, or 15. -/
def chooseShift (r : Rounding) (w : Nat) (vals : List (Nat × Int)) (m : Nat) : Nat → Nat
  | 0 => 15
  | n + 1 => if vals.all (fun v => (satI w (r.go v.1 v.2 m)).2 == false) then m else chooseShift r w vals (m + 1) n

/-- The elements and the shift of a block (R36): each element with its clamp flag. -/
def encodeBlock (r : Rounding) (w : Nat) (vals : List (Nat × Int)) : Nat × List (Int × Bool) :=
  let m := chooseShift r w vals 0 15
  (m, vals.map fun v => satI w (r.go v.1 v.2 m))

/-- The census value of a stored element (R39): headroom in 32 bits of e times 2^m. -/
def censusValue (e : Int) (m : Nat) : Nat := headroom 32 (e * 2 ^ m)

/-- Element i of a tile image, read as stored bits (R182, R396). -/
def tileBits (img w i : Nat) : Nat := img / 2 ^ (w * i) % 2 ^ w

/-- Get (R182): unsigned when u, otherwise signed. -/
def tileGet (img w : Nat) (u : Bool) (i : Nat) : Int :=
  let v := tileBits img w i
  if u then (v : Int) else signExt w (v : Int)

/-- One element to write: its stored bits and its clamp flag. Put (R182). -/
def putWrap (w : Nat) (v : Int) : Nat × Bool := (lowBits w v, false)

/-- PutS (R182). -/
def putSat (w : Nat) (u : Bool) (v : Int) : Nat × Bool :=
  let (x, f) := if u then satU w v else satI w v
  (lowBits w x, f)

/-- Pack stored bits of width w, element 0 lowest. -/
def packBits (w : Nat) (l : List Nat) : Nat := l.foldr (fun v acc => acc * 2 ^ w + v) 0

/-- The poison marks of elements as marks of their bits. DEDUCED: log entry 8. -/
def packPoison (w : Nat) (l : List Bool) : Nat := packBits w (l.map fun b => if b then 2 ^ w - 1 else 0)

/-- Whether element i has a poisoned bit. DEDUCED: log entry 8. -/
def elemPoison (poison w i : Nat) : Bool := tileBits poison w i != 0

end Sys2Proof
end

