-- ==== Sys2Proof/Config.lean ====
section
/-! DEFINITION. What an implementation or its site fixes, and the free values: opaque constants without a body, so that nothing is known of them.
A free value is applied to the counter `State.free`, which every use advances. -/

namespace Sys2Proof.Config

/-- The strap pins of the tray: the pod coordinate (R362). -/
opaque strapX : BitVec 5
opaque strapY : BitVec 5
opaque strapZ : BitVec 5

/-- Whether a spare slab half and a spare front end of a stack are good as shipped: manufacture may have used them up (R11). PRESUMED: log entry 58. -/
opaque spareHalfGood : Nat → Nat → Nat → Nat → Bool
opaque spareFrontEndGood : Nat → Nat → Bool

/-- The bank and the row of its channel that hold a byte of DRAM (R366): the place of a row among the bytes of a channel is the implementation's. -/
opaque dramBank : Nat → BitVec 8
opaque dramRow : Nat → BitVec 32

/-- The bytes of the telemetry header, of a port's and of a core's part (R369), by what they report and their offset: the places of the fields are the
implementation's. DESIGN CHOICE: log entry 39. -/
opaque headerByte : List Nat → List (String × Nat) → Nat → Byte
opaque portByte : List Nat → Nat → Byte
opaque coreByte : List (String × Nat) → Nat → Byte

/-- The measurement over the patch table, the binding map and the pending list, the module's serial, its certificate, and the patch summary by the number of
installed entries and the highest version (R370). PRESUMED: log entry 50. -/
opaque measurementByte : List Nat → Nat → Byte
opaque serialByte : Nat → Byte
opaque certificateByte : Nat → Byte
opaque patchSummary : Nat → Nat → Nat

/-- Where an implementation leaves a choice: a free truth value. DESIGN CHOICE: log entry 7. -/
opaque freeBool : Nat → Bool

/-- A free number. DESIGN CHOICE: log entry 7. -/
opaque freeNat : Nat → Nat

/-- A free byte. DESIGN CHOICE: log entry 7. -/
opaque freeByte : Nat → Nat → Byte

end Sys2Proof.Config
end

