-- ==== Sys2Proof/Machine/State.lean ====
section
/-! DEFINITION. The state of one module as plain data: the contexts of its nodes, its cores, its memories, the Awl, the distributor,
the link collective unit and the service machinery; the reasons a step can stop; and the machine right after reset. -/

namespace Sys2Proof.Machine

/-- Why the machine stops. Every case is an event offered to the machine where the rules do not let it happen. DESIGN CHOICE: log entry 54. -/
inductive Fault where
  /-- Raised by a row without an encoding whose event cannot happen in the state. Safe: the hardware never takes the step there. -/
  | notEnabled (row : String)
deriving DecidableEq, Repr

/-- Why an instruction has no meaning in the model. -/
inductive Refusal where
  /-- Raised by the dispatch for an instruction that has no meaning yet. Safe: nothing is proved about it. -/
  | notModelled (mnemonic : String)
deriving DecidableEq, Repr

/-- A tile: its bit image (R396) and the poison marks of the image's bits (R184). DEDUCED: log entry 8. -/
structure Tile where
  bits : Nat := 0
  poison : Nat := 0
deriving DecidableEq, Repr

/-- An accumulator (R220). Elements and sums are packed 48 bits each, checksums 64 bits each; `ended` holds the sums of runs that have ended
and are not yet added (R48), `part` the sum of the run in progress. -/
structure Acc where
  base : Nat := 0
  ended : List Nat := []
  part : Nat := 0
  sat : Nat := 0
  poison : Nat := 0
  sticky : Bool := false
  opened : Bool := false
  count : Nat := 0
  ckv : Bool := false
  rc : Nat := 0
  cc : Nat := 0
deriving DecidableEq, Repr

/-- What a result in flight does at its due bundle (R143, R148). DEDUCED: log entry 25. -/
inductive Effect where
  | s (shadow : Bool) (n : BitVec 5) (v : Word)
  | p (n : BitVec 3) (v : Bool)
  | pAnswer (id : Nat) (n : BitVec 3) (ans : Option Bool)
  | h (n : BitVec 4) (v : Handle)
  | k (n : BitVec 6) (mask v : BitVec 32)
  | c (n : BitVec 6) (v : BitVec 32)
  | cAdd (n : BitVec 6) (v : BitVec 32)
  | e (n : BitVec 2) (v : Word)
  | ts (slot : BitVec 6) (v : BitVec 32)
  | tile (slot : BitVec 6) (mask bits poison : Nat) (sat : Bool) (replaceSat : Bool)
  | acc (a : BitVec 4) (segs : List (Nat × Bool)) (poison : Nat) (sticky : Bool) (ck : Bool) (rc cc : Nat)
  | accEnd (a : BitVec 4)
  | accZero (a : BitVec 4)
  | cenClose (k : BitVec 6)
  | org (h : BitVec 4) (d : Nat) (delta : Int)
  | trap (cause : BitVec 7) (pos : BitVec 4) (fa : BitVec 22) (val : Word)
deriving DecidableEq, Repr

/-- A result in flight with the bundles that remain until it is due. -/
structure InFlight where
  dist : Nat
  eff : Effect
deriving DecidableEq, Repr

/-- The registers that results write (R37, R51, R153, R215, R220, R232, R303, R396). -/
structure Regs where
  s : Vector Word 32
  sh : Vector Word 8
  p : BitVec 8
  h : Vector Handle 16
  k : Vector (BitVec 32) 64
  c : Vector (BitVec 32) 64
  ts : Vector (BitVec 32) 64
  e : Vector Word 4
  tile : Vector Tile 64
  acc : Vector Acc 10
  /-- Census closes that have taken effect, per scale register (R42). -/
  closed : Vector Nat 64
  /-- CEN.CUR of later windows: scale register, window, minimum (R42). -/
  later : List (Nat × Nat × Nat)
deriving DecidableEq, Repr

/-- A loop level (R167) with its latched stride entries (R168). -/
structure Loop where
  act : Bool := false
  t : Nat := 0
  i : Nat := 0
  lat0 : Word := 0
  lat1 : Word := 0
deriving DecidableEq, Repr

/-- CTL.TRAP, CTL.TPC and CTL.TVAL (R347). -/
structure TrapRegs where
  vbase : BitVec 22 := 0
  en : Bool := false
  crb : Bool := false
  act : Bool := false
  pos : BitVec 4 := 0
  dly : Bool := false
  cause : BitVec 7 := 0
  ra : BitVec 22 := 0
  fa : BitVec 22 := 0
  val : Word := 0
  /-- RA as recorded at entry (R350). -/
  recRa : BitVec 22 := 0
deriving DecidableEq, Repr

/-- CTL.UIS and the list of completion records (R284). -/
structure UiRegs where
  ra : BitVec 22 := 0
  act : Bool := false
  ovf : Bool := false
  slot : BitVec 1 := 0
  cnt : BitVec 6 := 0
  recs : List (BitVec 1 × BitVec 6) := []
deriving DecidableEq, Repr

/-- A wait on the issue of the next bundle (R305 to R307, R325). -/
inductive Wait where
  | cwait (n : BitVec 6) (target : Word)
  | barb (n : BitVec 6) (target : Word)
  | bar (mask : BitVec 4)
  | idle
deriving DecidableEq, Repr

/-- The units of a guard record (R347): 0 scalar, 1 vector, 2 CA, 3 CB, 4 epilogue. DEDUCED: log entry 38. -/
structure GuardRec where
  entry : BitVec 2
  half : BitVec 1
  unit : BitVec 3
  off : Nat
  addr : Option (BitVec 22)
  more : Nat
deriving DecidableEq, Repr

/-- Control state of a node's context: loops, control registers, the trap and interrupt state, and the results in flight. -/
structure Ctl where
  pc : BitVec 22 := 0
  /-- The last transfer left the range of instruction addresses (R162): the next fetch faults. -/
  pcOut : Bool := false
  /-- The segment of the word that transferred last, or of RA at entry to a handler (R178). -/
  xseg : Nat := 0
  seed : BitVec 32 := 0
  step : BitVec 32 := 0
  rtb : BitVec 5 := 0
  loops : Vector Loop 6 := Vector.replicate 6 {}
  ls : Vector Word 12 := Vector.replicate 12 0
  cfa : Word := 0
  cfb : Word := 0
  ui : UiRegs := {}
  trap : TrapRegs := {}
  part : BitVec 32 := 0
  bank : Bool := false
  bankBefore : Bool := false
  /-- The conditions on the issue of the next bundle, in the order of their words. -/
  waits : List Wait := []
  /-- The conditions on the bundle that a user-level interrupt entered in front of, and on the one that a trap was taken in front of (R305). -/
  uiWaits : List Wait := []
  trapWaits : List Wait := []
  /-- A BARB has subtracted: its next bundle issues before a pre-emption is taken (R326); and the same of the bundles that `uiWaits` and `trapWaits` hold. -/
  mustIssue : Bool := false
  uiMust : Bool := false
  trapMust : Bool := false
  guard : Option GuardRec := Option.none
  /-- FAULT(e) for CA, CB, EPI, LINK in bits 0 to 3 (R165). -/
  flt : BitVec 4 := 0
  flight : List InFlight := []
  trapFlight : List InFlight := []
  uiFlight : List InFlight := []
  /-- Census closes issued, per scale register (R42). -/
  cissued : Vector Nat 64 := Vector.replicate 64 0
  /-- Closes whose wait has not ended (R42, R214). -/
  cwaiting : List (BitVec 6) := []
deriving DecidableEq, Repr

/-- The copy words (R274). -/
inductive CopyKind where
  | cpy | cpyk | cpyf | cpyb | cpyq
deriving DecidableEq, Repr

/-- A memory with a correctable-error counter of its own (R35, R369): a core's pool, a ring stop by segment and number, a DRAM channel, the host's. -/
inductive Memory where
  | pool
  | ring (segment stop : Nat)
  | dram (chan : Nat)
  | host
deriving DecidableEq, Repr

/-- Where an access of a node lands: a byte of its scratchpad, in a guard granule or not, or a physical address. -/
inductive Place where
  | pool (x : Nat) (guard : Bool)
  | phys (pa : Nat) (poison : Bool)
deriving DecidableEq, Repr

/-- An element as a node reads it: its stored bits, its block's shift, its poison, the corrected shift byte it was read with, by offset and memory, and
the guard byte touched. -/
structure ElemRead where
  bits : Nat
  m : Nat
  poison : Bool
  corrected : Option (Nat × Memory)
  guard : Option Nat
deriving DecidableEq, Repr

/-- How far an engine command has come: its parts that have been performed, a part being an element, or a block of a block-shift destination, by its number in
the order of R278; what their writes do to the scale register; and the source elements that have been read and are still to be written, by the number of their
part in the first copy (R279, R287). -/
structure Progress where
  done : List Nat := []
  census : Option Nat := none
  sat : Bool := false
  poi : Bool := false
  vals : List (Nat × List (Option ElemRead)) := []
deriving DecidableEq, Repr

/-- A copy command with all that it read at issue (R144, R274 to R279). -/
structure CopyCmd where
  kind : CopyKind
  hD : Handle
  hS : Handle
  sw : Word
  sw1 : Word
  x : Word
  seed : BitVec 32
  step : BitVec 32
  addr : BitVec 22
  /-- Window of the destination's scale register at issue (R42). -/
  win : Nat
  /-- The copy word as issued, with C = 0 (R389). -/
  word : IWord := 0
  /-- The place of the command among those of the node, and of a queued one among those of its slot over the core's resident nodes (R273, R292). -/
  ord : Nat := 0
  seq : Nat := 0
  /-- An armed command whose counter has reached its threshold (R279). -/
  fired : Bool := false
  progress : Progress := {}
deriving DecidableEq, Repr

/-- A value an epilogue narrowed at issue: its integer, its clamp bit and its poison mark (R227, R354). -/
structure EpiVal where
  v : Int
  clamp : Bool
  poison : Bool
deriving DecidableEq, Repr

/-- An EPI.ADD with the values it read at issue (R229). -/
structure EpiAdd where
  h : Handle
  vals : List EpiVal
  sticky : Bool
  win : Nat
  /-- ACQ of the word (R229, R292), and the command's place among those of the node. -/
  acq : Bool := false
  ord : Nat := 0
  progress : Progress := {}
deriving DecidableEq, Repr

/-- A send (R334, R233): the route data with its SEQ, the destination handle, and either the source to read or the payload. -/
structure SendCmd where
  epi : Bool
  route : BitVec 2
  er : Word
  hD : Handle
  hS : Handle
  sw : Word
  ctrl : Word
  trigger : Word
  payload : List Elem
  extents : List Nat
  coreIdx : BitVec 10
  /-- The delivery has been handed to the fabric. -/
  sent : Bool
  /-- Its source met an access fault (R395): it completes without an add or a record. -/
  bad : Bool := false
  /-- Its place among the commands of the node (R292), and of an armed one whether its counter has reached its threshold (R337). -/
  ord : Nat := 0
  fired : Bool := false
  /-- The elements of its source that have been read, by window index (R287). -/
  got : List (Nat × Option ElemRead) := []
deriving DecidableEq, Repr

/-- A collective of this node at the unit (R340). -/
structure CollCmd where
  tag : CollTag
  orig : Bool
  contr : Bool
  recv : Bool
  cnt : BitVec 6
  ui : Bool
  hD : Handle
  /-- The window extents of its word. -/
  exts : List Nat
  /-- Roles still to be done: ORIG, CONTR, RECV (R341). -/
  origDone : Bool
  contrDone : Bool
  recvDone : Bool
  /-- Its place among the commands of the node (R292), and the core that issued it (R101). -/
  ord : Nat := 0
  core : Nat := 0
deriving DecidableEq, Repr

/-- One entry of the epilogue's queue, in issue order (R230). -/
inductive EpiCmd where
  | add (c : EpiAdd)
  | send (c : SendCmd)
deriving DecidableEq, Repr

/-- A stream of R336: the sender's module and node serial, the route, and the SEQ last applied. -/
structure Stream where
  x : BitVec 5
  y : BitVec 5
  z : BitVec 5
  serial : BitVec 32
  route : BitVec 2
  seq : BitVec 16
deriving DecidableEq, Repr

/-- The engines of a node: their queues and armed commands (R273, R279, R337, R353), the stream table (R336). -/
structure Eng where
  ca : List CopyCmd := []
  cb : List CopyCmd := []
  caArmed : List CopyCmd := []
  cbArmed : List CopyCmd := []
  epi : List EpiCmd := []
  sends : List SendCmd := []
  armed : List SendCmd := []
  colls : List CollCmd := []
  streams : List Stream := []
  /-- The place of the next command of the node. -/
  nextOrd : Nat := 1
  /-- CPYCANs that have issued and not yet taken effect (R282): whether in slot CB, and the place before which the slot's commands stand. -/
  cancels : List (Bool × Nat) := []
  /-- ABORTs whose control flit a retraining port still holds (R342, R367). -/
  aborts : List CollTag := []
deriving DecidableEq, Repr

/-- A write of the node that waits for its commit, or its scratchpad: bytes in address order, with the poisoned ones (R68, R247). -/
structure Bytes where
  cells : List Host.Cell := []
  poison : List Nat := []
deriving DecidableEq, Repr

/-- An operand declaration (R63). -/
structure Operand where
  fwd : Bool
  mode : BitVec 2
  rank : BitVec 3
  fmt : BitVec 4
deriving DecidableEq, Repr

/-- A splice descriptor (R62). -/
structure SpliceDesc where
  body : BitVec 32
  bpkt : Nat
  level : Nat
  tmask : BitVec 64
  smask : BitVec 32
  amask : BitVec 16
  hmask : BitVec 16
  pmask : BitVec 8
deriving DecidableEq, Repr

/-- A segment of code (R61): its number, its words, and the poisoned ones by index. A non-overlay image has the one segment 0. -/
structure Segment where
  num : Nat
  words : List IWord
  poison : List Nat
deriving DecidableEq, Repr

/-- What the Awl keeps of a validated image (R56 to R63). -/
structure Image where
  imgid : Word := 0
  addr : Word := 0
  uirq : Bool := false
  comm : Bool := false
  gang : BitVec 2 := 0
  ovl : Bool := false
  splc : Bool := false
  splp : Bool := false
  unstg : Bool := false
  part : BitVec 32 := 0
  codeOff : Nat := 0
  codeLen : Nat := 0
  entry : BitVec 32 := 0
  uivec : BitVec 32 := 0
  budget : Nat := 0
  opnds : List Operand := []
  /-- Scratchpad allocations: TID, base, recorded size (R60, R247). -/
  scr : List (Nat × Nat × Nat) := []
  splice : Option SpliceDesc := none
  /-- Segment table: offset, packets, PRE (R61). -/
  segs : List (Nat × Nat × Bool) := []
deriving DecidableEq, Repr

/-- The states of a node (R66). -/
inductive NodeState where
  | absent | waiting | ready | placed | running | saved | retiring | committed | failed | removed
deriving DecidableEq, Repr

/-- What a node is, as launched (R64), and what the distributor keeps of it (R66, R91). -/
structure Desc where
  uid : Nat := 0
  graph : Nat := 0
  index : Nat := 0
  queue : BitVec 6 := 0
  launchOrder : Nat := 0
  readyOrder : Nat := 0
  addr : Word := 0
  prio : BitVec 3 := 0
  stage : BitVec 4 := 0
  anyStage : Bool := false
  jcb : Option (BitVec 12) := none
  image : Image := {}
  succs : List Nat := []
  args : List Word := []
  handles : List Handle := []
  srecs : List Word := []
  gseed : BitVec 32 := 0
  gstep : BitVec 32 := 0
  parent : Nat := 0
deriving DecidableEq, Repr

/-- The states of a splice (R124). -/
inductive SpliceState where
  | none | marked | check | refused | pOut | cOut | merged | aloneP | aloneC | drain | saved
deriving DecidableEq, Repr

/-- A candidate pair of a splice (R116): the handles of the TST and of the TLD, the tile named by each, and Q. -/
structure Candidate where
  hp : BitVec 4
  tp : BitVec 6
  pAddr : BitVec 22
  hc : BitVec 4
  tc : BitVec 6
  cAddr : BitVec 22
deriving DecidableEq, Repr

/-- A forwarding buffer (R118, R121): the TST's address, the parity of its iteration, its slot (in C's slice when `inC`),
the contents with the iteration that filled it, and the TST's handle for a late store (R123). -/
structure FwdBuffer where
  pAddr : BitVec 22
  odd : Bool
  slot : Nat
  inC : Bool
  iter : Option Nat
  taken : Bool
  tile : Tile
  shape : BitVec 32
  h : Handle
  /-- Where the TST that filled it stands: its bundle and its position in it. -/
  fa : BitVec 22 := 0
  pos : BitVec 4 := 0
deriving DecidableEq, Repr

/-- A pair of the splice unit of a core (R110 to R129). -/
structure Splice where
  st : SpliceState := .none
  code : BitVec 8 := 0
  p : Nat := 0
  c : Nat := 0
  cands : List Candidate := []
  /-- New names of C's tiles (R117). -/
  names : List (Nat × Nat) := []
  bufs : List FwdBuffer := []
  entry : Nat := 0
  m : Nat := 0
  /-- Which member issues the next bundle of a merged iteration, and whether each is still in the body. -/
  turnC : Bool := false
  pIter : Nat := 0
  cIter : Nat := 0
  pIn : Bool := false
  cIn : Bool := false
  pWaits : Bool := false
  cWaits : Bool := false
  pEnded : Bool := false
  cEnded : Bool := false
  /-- C's handler runs in front of a position whose two bundles issue as one: P's issues with C's after it (R122, R127). -/
  redo : Bool := false
  storesAll : Bool := false
deriving DecidableEq, Repr

/-- A raise on its way to the home stop and back (R308, R309): its number, the count, whether the node's own completion had been posted, and the answer. -/
structure RaiseReq where
  id : Nat
  n : Word
  posted : Bool
  ans : Option Bool
deriving DecidableEq, Repr

/-- A read that a node's front end has performed ahead of the word that asks for it (R287): the access, what it read, and the bytes it reached. -/
structure EarlyRead where
  tid : Nat
  off : Nat
  bytes : List (Byte × Bool)
  places : List Place
deriving DecidableEq, Repr

/-- What a run of the node has done beyond its context (R68 to R71, R308 to R313, R357). -/
structure Run where
  st : NodeState := .absent
  remaining : Nat := 0
  /-- The distributor has placed it behind its producer, and their pair has not been examined (R66, R113). -/
  behind : Bool := false
  /-- Space, TID and frame index that hold the node (R259), when it is held. -/
  mark : Option (Nat × Nat × Nat) := none
  serial : BitVec 32 := 0
  gangWidth : Nat := 1
  qgen : BitVec 16 := 0
  asgen : BitVec 16 := 0
  staged : Bytes := {}
  scr : Bytes := {}
  irrev : Bool := false
  raises : Nat := 0
  late : Nat := 0
  refused : Nat := 0
  staleCensus : Nat := 0
  doneIssued : Bool := false
  pendingRaise : List RaiseReq := []
  nextReq : Nat := 1
  tokens : List (BitVec 6 × Nat) := []
  compareRollbacks : Nat := 0
  preempt : Bool := false
  /-- A pre-emption has been taken: its work is recorded and its engines begin nothing more (R354). -/
  quiesced : Bool := false
  /-- First frame and number of frames of the save area (R355). -/
  saveArea : Option (Nat × Nat) := none
  /-- Size of its payload area in bytes. -/
  payload : Nat := 0
  partner : Nat := 0
  /-- The splice record of a saved pair, with its producer (R129). -/
  spliceRec : Option Splice := none
  /-- The refusal that CTL.SPLC shows while the node runs on: whether it is the producer, and the code (R113, R124). -/
  refusal : Option (Bool × BitVec 8) := none
  overridden : List Nat := []
  /-- The commit of its pair has begun: its home records, translated, by scale register and physical addresses (R126, R360). -/
  committing : Option (List (Nat × List Nat)) := none
  /-- Reads performed ahead of their words (R287). -/
  ahead : List EarlyRead := []
deriving DecidableEq, Repr

/-- A node with its whole context (R355). -/
structure Node where
  desc : Desc
  run : Run
  regs : Regs
  ctl : Ctl
  eng : Eng
deriving DecidableEq, Repr

/-- The value of R37's Reset column: FMT 1, CEN.PREV and CEN.CUR 32. -/
def scaleReset : BitVec 32 := 0x01082000#32

/-- Registers at launch before the loads of R65: every one at its Reset column. -/
def Regs.reset : Regs :=
  { s := Vector.replicate 32 0, sh := Vector.replicate 8 0, p := 1, h := Vector.replicate 16 0, k := Vector.replicate 64 scaleReset,
    c := Vector.replicate 64 0, ts := Vector.replicate 64 0, e := Vector.replicate 4 0, tile := Vector.replicate 64 {},
    acc := Vector.replicate 10 {}, closed := Vector.replicate 64 0, later := [] }

/-- A node that does not exist. -/
def Node.none : Node := { desc := {}, run := {}, regs := Regs.reset, ctl := {}, eng := {} }

/-- Code resident in a core's instruction memory (R176, R361). -/
structure Resident where
  imgid : Word
  space : BitVec 6
  ovl : Bool
  size : Nat
  launched : Nat
  segs : List Segment
  /-- Overlay halves: the segment each holds (R176). -/
  half0 : Option Nat
  half1 : Option Nat
  /-- Segment being copied and the half it goes to. -/
  copying : Option (Nat × Bool)
deriving DecidableEq, Repr

/-- A slab half bound to a core: row, column and half (0 A, 1 B) of its stack (R9, R103). -/
structure BoundHalf where
  y : Nat
  x : Nat
  half : BitVec 1
deriving DecidableEq, Repr

/-- The standing of a logical core (R15, R16, R362). -/
inductive CoreState where
  | absent | active | parked | retired
deriving DecidableEq, Repr

/-- One core: place, binding, run queue, stage, instruction memory, outbox and splice unit. -/
structure Core where
  idx : Nat
  state : CoreState := .absent
  siteX : Nat := 0
  halves : List BoundHalf := []
  gang : BitVec 2 := 0
  paired : Bool := false
  epoch : BitVec 8 := 0
  rsv : Bool := false
  join : Bool := false
  leaving : Bool := false
  emap : BitVec 8 := 0
  stage : BitVec 4 := 0
  /-- Run queue: four slots with the nodes they hold (R97), and the current node. -/
  slots : Vector Nat 4 := Vector.replicate 4 0
  current : Nat := 0
  lastSlot : Nat := 3
  imem : List Resident := []
  outbox : List (Nat × BitVec 512) := []
  /-- The splice unit: the marked and the accepted pairs of the core (R96, R110). -/
  pairs : List Splice := []
  /-- The unit map (R246): the node that holds each of the 48 units of every bound slab's pool, 0 for a free one. -/
  units : Vector Nat 48 := Vector.replicate 48 0
  /-- Telemetry counters (R369): name and count. -/
  tele : List (String × Nat) := []
  /-- The address of the last word that touched a guard granule (R347). -/
  guardAddr : Option (BitVec 22) := none
  /-- Binding before a gang formed, for R106: parked front ends and their halves. -/
  before : List (Nat × List BoundHalf) := []
deriving DecidableEq, Repr

/-- The states of a queue (R75). -/
inductive QState where
  | disabled | idle | active | waiting | suspended | error | resetting
deriving DecidableEq, Repr

/-- A packet taken by the Awl that still has steps to do (R78, R84), with the generation of its space when it started (R263). `waiting`: its effect
is under way and its last step follows an acknowledgement, a drain, a generation change or signature work. -/
structure InProgress where
  pkt : BitVec 512
  index : BitVec 32
  stepsLeft : Nat
  asgen : BitVec 16 := 0
  waiting : Bool := false
deriving DecidableEq, Repr

/-- A launch packet past its last step that has not completed (R78), and the graph whose end completes it. -/
structure Awaiting where
  index : BitVec 32
  pkt : BitVec 512
  graph : Nat
deriving DecidableEq, Repr

/-- A command queue (R74 to R77). -/
structure Queue where
  qbase : Word := 0
  qcbase : Word := 0
  slice : BitVec 16 := 0
  prio : BitVec 3 := 0
  logsize : BitVec 4 := 4
  en : Bool := false
  tail : BitVec 32 := 0
  head : BitVec 32 := 0
  gen : BitVec 16 := 0
  status : BitVec 16 := 0
  erridx : BitVec 16 := 0
  st : QState := .disabled
  heldClear : Bool := false
  tailError : Bool := false
  sliceEnd : Bool := false
  newhead : BitVec 32 := 0
  cur : Option InProgress := none
  awaiting : List Awaiting := []
  /-- The QRESET packets that wait for this reset: queue, index and packet. -/
  resetBy : List (BitVec 6 × BitVec 32 × BitVec 512) := []
  /-- Job control blocks of the work that this reset ended. -/
  jcbs : List (BitVec 12) := []
  /-- SLICE and PRIO that take effect at the next slice (R82). -/
  nextSlice : Option (BitVec 16 × BitVec 3) := none
  discarded : Nat := 0
deriving DecidableEq, Repr

/-- A token link (R86). -/
structure Link where
  en : Bool := false
  count : BitVec 16 := 0
  cons : BitVec 6 := 0
  prod : BitVec 6 := 0
deriving DecidableEq, Repr

/-- A graph in progress (R67, R72). -/
structure Graph where
  id : Nat
  queue : BitVec 6
  jcb : Option (BitVec 12)
  count : Nat
  failed : Option (BitVec 32)
  /-- Nodes that must still end before the launch completes after a failure (R78). -/
  live : List Nat
deriving DecidableEq, Repr

/-- A mailbox record (R262). -/
structure MailRec where
  kind : BitVec 8
  space : BitVec 8
  tid : Nat
  k : Nat
  hframe : Nat
deriving DecidableEq, Repr

/-- What an inbox entry asks of the Awl (R108, R313). -/
inductive InboxItem where
  | packet (uid : Nat) (core : Nat) (pkt : BitVec 512)
  | take (uid : Nat) (id : Nat) (link : BitVec 6) (count : Word)
deriving DecidableEq, Repr

/-- A flip request (R89): frame, and direction (ACK = 1 is host to device). `entry`: of a device-to-host flip under way, the tile-table entry that
mapped the frame. -/
structure Flip where
  frame : Nat
  ack : Bool
  entry : Nat := 0
deriving DecidableEq, Repr

/-- An entry of the patch table (R90): which of the 64 it is, its version and its bytes. -/
structure Patch where
  entry : Nat
  version : BitVec 32
  bytes : List Byte
deriving DecidableEq, Repr

/-- Signature work in housekeeping (R84, R90, R370), with the nonce or the patch that its packet has read. -/
structure SigWork where
  queue : BitVec 6
  index : BitVec 32
  pkt : BitVec 512
  input : List Byte
deriving DecidableEq, Repr

/-- A completion or failure on its way to the home stop of its job control block (R71): the node, and for a failure its index and status. -/
structure JcbPost where
  uid : Nat
  queue : BitVec 6
  jcb : BitVec 12
  fail : Option (BitVec 20 × BitVec 32)
deriving DecidableEq, Repr

/-- The Awl and its tables (R73 to R90, R259 to R266). -/
structure Awl where
  queues : Vector Queue 64
  links : Vector Link 64
  slots : List (BitVec 8)
  exslot : List (BitVec 8)
  slotNo : Nat
  /-- Holder of the rotation of each PRIO (R82). -/
  holder : Vector (Option (BitVec 6)) 8
  inbox : List InboxItem
  /-- The inbox packet under way: its node, the packet, the steps left, and the generation of its space when it started (R263). -/
  inboxStep : Option (Nat × BitVec 512 × Nat × BitVec 16)
  flips : List Flip
  flipNow : Option Flip
  flipDone : Bool
  flipFrame : Nat
  /-- Flip index: host frame and the entry that maps it, oldest first (R261). -/
  flipIndex : List (Nat × Nat)
  /-- Entries whose flip fault waits for the driver: host frame and entry (R261). -/
  flipWanted : List (Nat × Nat)
  mail : List MailRec
  mailDropped : Nat
  jcbOwner : List (Nat × Nat)
  posts : List JcbPost
  validated : List (Word × Image)
  graphs : List Graph
  nextGraph : Nat
  nextUid : Nat
  launchSeq : Nat
  readySeq : Nat
  nextSerial : Nat
  patches : List Patch
  newPatches : List Patch
  sigWork : List SigWork
  msix : List Nat
  asChange : List (Nat × BitVec 16 × BitVec 6 × BitVec 32)
  /-- Damaged table entries that translations have read: the space and the address (R266). -/
  poisonedEntries : List (BitVec 6 × Nat)
deriving DecidableEq, Repr

/-- The reserve of one stack (R100 to R102). -/
structure Reserve where
  n : Nat := 8
  nmin : Nat := 8
  nmax : Nat := 32
  up : Nat := 0
  dn : Nat := 0
  cool : Nat := 0
  /-- 0 NONE, 1 GROW, 2 SHRINK. -/
  last : BitVec 2 := 0
  samples : List Nat := []
deriving DecidableEq, Repr

/-- The states of a slab half (R365). -/
inductive HalfState where
  | good | split | rebinding | retired
deriving DecidableEq, Repr

/-- A BIND or REPAIR whose drain or rebinding is under way (R105, R365). -/
structure BindJob where
  /-- 0 GANG, 1 DISSOLVE, 2 rebind half, 3 retire core. -/
  op : BitVec 2
  core : Nat
  width : Nat
  cores : List Nat
  pkt : BitVec 512
  queue : BitVec 6
  index : BitVec 32
  site : Nat
  half : BitVec 2
  /-- Stack and row of the halves that a rebinding retires. -/
  stack : Nat := 0
  row : Nat := 0
  /-- The states that the halves had before the job began. -/
  was : List (BitVec 1 × HalfState) := []
  /-- The rebinding that the Awl has chosen: each core that changes, its front-end site, and its halves (R365). -/
  plan : List (Nat × Nat × List BoundHalf) := []
deriving DecidableEq, Repr

/-- The distributor beside the nodes themselves (R91, R99, R100). -/
structure Dist where
  reserve : Vector Reserve 4
  jobs : List BindJob
  /-- The ready pool (R91): the nodes that it holds; the READY and SAVED nodes beyond its 16,384 entries stand on the overflow list. -/
  pool : List Nat
  deferred : Bool
  /-- Nodes that a fault holds, in order of marking (R259). -/
  held : List Nat
  /-- The staging region in frames while a reservation stands (R253). -/
  stgFrames : Nat
deriving DecidableEq, Repr

/-- A contribution held at the unit (R340). -/
structure Contribution where
  tag : CollTag
  uid : Nat
  width : Nat
  elems : List Elem
deriving DecidableEq, Repr

/-- A DELIVER copy held at the unit (R341). -/
structure HeldDelivery where
  pkt : CollPacket
deriving DecidableEq, Repr

/-- A DELIVER copy whose commit flit has not passed this module: it stands with the packet that waits here (R341). -/
structure UnpassedCopy where
  waiting : CollPacket
  copy : HeldDelivery
deriving DecidableEq, Repr

/-- What this module hands to the fabric (R329): a send, a collective packet with its commit flit, an abort flit, an acknowledgement. -/
inductive Flit where
  | send (d : Delivery)
  | coll (p : CollPacket)
  | abort (tag : CollTag)
  | ack (d : Delivery) (ans : SendAnswer)
deriving DecidableEq, Repr

/-- The link collective unit and the ports (R327 to R342). -/
structure LinkUnit where
  x : BitVec 5
  y : BitVec 5
  z : BitVec 5
  dx : Nat
  dy : Nat
  dz : Nat
  /-- The axes whose probe has returned or timed out since power came up (R362). -/
  probed : BitVec 3
  contribs : List Contribution
  /-- Packets that wait at an ADDS hop for the local contribution. -/
  waiting : List CollPacket
  held : List HeldDelivery
  /-- DELIVER copies whose packet waits at this module with its commit flit behind it (R341). -/
  unpassed : List UnpassedCopy
  /-- Collectives registered at this module: tag and node. -/
  registered : List (CollTag × Nat)
  /-- Tags aborted, and the highest aborted SEQ of each space and route (R342). -/
  aborted : List CollTag
  highest : List CollTag
  out : List (Nat × Flit)
  /-- Deliveries that wait at the link stop for a resident node (R335). -/
  pending : List Delivery
  /-- Deliveries held for a gap in the SEQ of their stream (R336). -/
  gaps : List Delivery
deriving DecidableEq, Repr

/-- A flit that a port holds (R329, R367): the node of this module that it comes from, if any, the stack of the core that issued its command (R101), and
whether it has been counted as held by back-pressure (R369). -/
structure HeldFlit where
  uid : Nat
  stack : Option Nat
  flit : Flit
  pressed : Bool := false
deriving DecidableEq, Repr

/-- A port: its lanes (R367), and the credit of its channels (R329). -/
structure Port where
  lanes : Nat := 8
  spareUsed : Bool := false
  degraded : Bool := false
  retraining : Bool := false
  degradations : Nat := 0
  /-- The lane out of service. -/
  laneOut : Option Nat := none
  /-- The channels without credit: send, collective and control in bits 0 to 2 (R329). -/
  noCredit : BitVec 3 := 0
  /-- The flits that the port holds while it retrains or their channel has no credit, oldest first; and how many 256-bit flits it has held by back-pressure. -/
  held : List HeldFlit := []
  heldCount : Nat := 0
deriving DecidableEq, Repr

/-- A stack at bring-up (R362). -/
inductive StackState where
  | waiting | joined | absent
deriving DecidableEq, Repr

/-- A DRAM row under its remap table (R366), with the spare row of its channel that stands for it. -/
structure DramRow where
  chan : Nat
  bank : Nat
  row : Nat
  spare : Nat
deriving DecidableEq, Repr

/-- A row of the binding map in MRAM (R11, R365): a logical core that repair has moved or retired. -/
structure BindRow where
  idx : Nat
  retired : Bool
  siteX : Nat
  halves : List BoundHalf
deriving DecidableEq, Repr

/-- The service machinery (R362 to R370). -/
structure Service where
  phase : Nat
  stk : Vector StackState 4
  stackFails : Vector Nat 4
  slowStack : Option Nat
  clockStep : Nat
  powerLimit : Nat
  powerAvg : Nat
  powerSamples : List Nat
  ports : Vector Port 12
  /-- Halves that are not GOOD: stack, row, column, half and state. -/
  halfStates : List (Nat × Nat × Nat × BitVec 1 × HalfState)
  /-- Failed checks of a half: stack, row, column, half and count (R365). -/
  failedChecks : List (Nat × Nat × Nat × BitVec 1 × Nat)
  /-- Engine instances out of service by half: stack, row, column, half, and the bits of CTL.EMAP that stand for them (R104, R365). -/
  splitSlots : List (Nat × Nat × Nat × BitVec 1 × BitVec 8)
  /-- Good halves whose partner a rebinding has retired: free for pairing, and no spares (R365): stack, row, column and half. -/
  loneHalves : List (Nat × Nat × Nat × BitVec 1)
  /-- Front ends that a self-test found failed: stack, row and site (R16, R362). -/
  failedFronts : List (Nat × Nat × Nat)
  map : List BindRow
  remap : List DramRow
  mramPending : List DramRow
  dramCounts : List (Nat × Nat × Nat)
  tele : List (String × Nat)
deriving DecidableEq, Repr

/-- An engine whose commands can be half done (R281, R287). -/
inductive MoveEngine where
  | ca | cb | epi | link
deriving DecidableEq, Repr

/-- What moves next: an event of the table, the issue of a core's next bundle, or its issue with stores that are performed later, parts of the command at a place of an
engine's queue, each performed or only read, a read of a node's front end ahead of its word, the performance of a store that has issued, the effect of a CPYCAN in slot
CA or CB, bytes that a node has staged and that are found uncorrectable, or the credit that a channel of a port gains or runs out of. -/
inductive Agendum where
  | event (i : Instr)
  | issue (core : Nat)
  | issueLate (core : Nat)
  | move (uid : Nat) (e : MoveEngine) (place : Nat) (parts : List (Nat × Bool))
  | look (uid tid off len : Nat)
  | perform (i : Nat)
  | cancel (uid : Nat) (cb : Bool)
  | spoil (uid : Nat) (lost : List Nat)
  | credit (port chan : Nat) (has : Bool)
deriving DecidableEq, Repr

/-- How the bundle under way has been stopped: not at all, by a trap, rollback or failure that has been taken, or by a delay of its issue (R146). -/
inductive Stop where
  | none | taken | delayed
deriving DecidableEq, Repr

/-- What the end of the bundle under way does (R162, R172, R318): the next address, control writes, loop changes, node end. -/
inductive Post where
  | jump (target : BitVec 22) (out : Bool)
  | ctlw (n : BitVec 12) (v : Word)
  | loop (n : Nat) (l : Loop)
  | rotate (by_ : Nat)
  | close (k : BitVec 6)
  | wait (w : Wait)
  | switch
  | ended
deriving DecidableEq, Repr

/-- The bundle under way: its first word's address, the address after it, the position of the word that executes,
the slot of each copy word, the registers and results before its start, and what its end does. Empty between steps. -/
structure Bundle where
  fa : BitVec 22 := 0
  na : BitVec 22 := 0
  pos : BitVec 4 := 0
  addr : BitVec 22 := 0
  slotCB : Bool := false
  /-- The stores of the bundle are performed later (R287). -/
  late : Bool := false
  before : Option (Regs × List InFlight) := Option.none
  stop : Stop := .none
  post : List Post := []
deriving DecidableEq, Repr

/-- A store of an unstaged node that has issued and is performed later (R287): its bytes with their places. -/
structure LateStore where
  uid : Nat
  bytes : List (Place × Byte × Bool)
deriving DecidableEq, Repr

/-- The state of the module. `cur` is the current node of core `focus`; every other node stands in `nodes`. -/
structure State where
  agenda : List Agendum
  focus : Nat
  cur : Node
  nodes : List Node
  cores : List Core
  mem : List Host.Cell
  poison : List Nat
  awl : Awl
  dist : Dist
  link : LinkUnit
  svc : Service
  bnd : Bundle
  late : List LateStore
  free : Nat
deriving DecidableEq, Repr

/-- The default slot table of R83. -/
def defaultSlots : List (BitVec 8) :=
  (List.range 64).flatMap fun q => [BitVec.ofNat 8 q, if q % 4 = 0 ∨ q % 4 = 3 then 0x40 else if q % 4 = 1 then 0x41 else 0x42]

/-- The Awl after reset (R75, R83, R86). DESIGN CHOICE: log entry 6. -/
def Awl.reset : Awl :=
  { queues := Vector.replicate 64 {}, links := Vector.replicate 64 {}, slots := defaultSlots, exslot := defaultSlots, slotNo := 0,
    holder := Vector.replicate 8 none, inbox := [], inboxStep := none, flips := [], flipNow := none, flipDone := false, flipFrame := 0,
    flipIndex := [], flipWanted := [], mail := [], mailDropped := 0, jcbOwner := [], posts := [], validated := [], graphs := [], nextGraph := 1, nextUid := 1,
    launchSeq := 0, readySeq := 0, nextSerial := 1, patches := [], newPatches := [], sigWork := [], msix := [], asChange := [], poisonedEntries := [] }

/-- The distributor after reset (R102). -/
def Dist.reset : Dist := { reserve := Vector.replicate 4 {}, jobs := [], pool := [], deferred := false, held := [], stgFrames := 4096 }

/-- The links after reset: the coordinate of the strap pins, extents 1 until probed (R328, R362). DESIGN CHOICE: log entry 6. -/
def LinkUnit.reset : LinkUnit :=
  { x := Config.strapX, y := Config.strapY, z := Config.strapZ, dx := 1, dy := 1, dz := 1, probed := 0, contribs := [], waiting := [], held := [],
    unpassed := [], registered := [], aborted := [], highest := [], out := [], pending := [], gaps := [] }

/-- The service machinery after reset (R362, R368). -/
def Service.reset : Service :=
  { phase := 0, stk := Vector.replicate 4 .waiting, stackFails := Vector.replicate 4 0, slowStack := none, clockStep := 0, powerLimit := 3000,
    powerAvg := 0, powerSamples := [], ports := Vector.replicate 12 {}, halfStates := [], failedChecks := [], splitSlots := [], loneHalves := [], failedFronts := [], map := [], remap := [], mramPending := [],
    dramCounts := [], tele := [] }

/-- The machine right after reset: no node, no core in service before its stack has joined (R362), every register at its Reset column. DESIGN CHOICE: log entry 6. -/
def State.reset : State :=
  { agenda := [], focus := 0, cur := Node.none, nodes := [], cores := [], mem := [], poison := [], awl := Awl.reset, dist := Dist.reset,
    link := LinkUnit.reset, svc := Service.reset, bnd := {}, late := [], free := 0 }

end Sys2Proof.Machine
end

