-- ==== Sys2Proof/Machine/Ops.lean ====
section
/-! DEFINITION. The named operations over memory, nodes, cores, job control blocks and results in flight,
and the shared ways a node's stream is stopped: taking a trap (R348, R349), returning from one (R350), rollback (R69) and failure (R72). -/

namespace Sys2Proof.Machine

/-! ## Bytes -/

/-- Read a byte from cells in address order; an unlisted address gives none. -/
def cellGet? (m : List Host.Cell) (a : Nat) : Option Byte :=
  match m with
  | [] => none
  | (k, v) :: rest => if k = a then some v else cellGet? rest a

/-- Put a byte into cells in address order, whatever its value. -/
def cellPut (m : List Host.Cell) (a : Nat) (b : Byte) : List Host.Cell :=
  match m with
  | [] => [(a, b)]
  | (k, v) :: rest => if a < k then (a, b) :: (k, v) :: rest else if a = k then (a, b) :: rest else (k, v) :: cellPut rest a b

/-- Remove an address from cells in address order. -/
def cellDrop (m : List Host.Cell) (a : Nat) : List Host.Cell :=
  match m with
  | [] => []
  | (k, v) :: rest => if a < k then (k, v) :: rest else if a = k then rest else (k, v) :: cellDrop rest a

/-- What an unlisted address of a memory reads as: the reset value 4,096 of STGSZ at ring byte 1 (R250, R253), elsewhere 0 (DESIGN CHOICE, log entry 4). -/
def unlisted (a : Nat) : Byte := if a = 2 ^ 62 + 1 then 0x10 else 0

/-- Read a byte of a memory. -/
def memGet (m : List Host.Cell) (a : Nat) : Byte := (cellGet? m a).getD (unlisted a)

/-- Write a byte of a memory; writing what an unlisted address reads as removes the entry. -/
def memSet (m : List Host.Cell) (a : Nat) (b : Byte) : List Host.Cell := if b = unlisted a then cellDrop m a else cellPut m a b

/-- Insert into an ascending list without repeats. -/
def setAdd (l : List Nat) (a : Nat) : List Nat :=
  match l with
  | [] => [a]
  | k :: rest => if a < k then a :: k :: rest else if a = k then k :: rest else k :: setAdd rest a

/-- Add to a list without repeats. -/
def addNew {α : Type} [BEq α] (l : List α) (a : α) : List α := if l.contains a then l else l ++ [a]

/-- Remove from an ascending list. -/
def setDel (l : List Nat) (a : Nat) : List Nat :=
  match l with
  | [] => []
  | k :: rest => if a = k then rest else k :: setDel rest a

/-- Addresses strictly rise, and no entry equals what an unlisted address reads as. -/
def Memory.wf (m : List Host.Cell) : Bool :=
  match m with
  | [] => true
  | [(k, v)] => v != unlisted k
  | (k, v) :: (k', v') :: rest => v != unlisted k && decide (k < k') && Memory.wf ((k', v') :: rest)

/-- A physical address at level ring, DRAM or host (R249). -/
def ringPA (a : Nat) : Nat := 2 ^ 62 + a
def dramPA (a : Nat) : Nat := 2 ^ 63 + a
def hostPA (a : Nat) : Nat := 2 ^ 63 + 2 ^ 62 + a

/-- One byte of memory by physical address. DESIGN CHOICE: log entry 4. -/
def State.byte (s : State) (pa : Nat) : Byte := memGet s.mem pa

/-- Whether a byte of memory is poisoned (R358). -/
def State.poisoned (s : State) (pa : Nat) : Bool := s.poison.contains pa

/-- Write one byte of memory with its poison mark. DEDUCED: log entry 53. -/
def State.setByte (s : State) (pa : Nat) (b : Byte) (poison : Bool) : State :=
  { s with mem := memSet s.mem pa b, poison := if poison then setAdd s.poison pa else setDel s.poison pa }

/-- A little-endian number of `n` bytes at a physical address (R28, R55). DESIGN CHOICE: log entry 4. -/
def State.rd (s : State) (pa : Nat) : Nat → Nat
  | 0 => 0
  | n + 1 => (s.byte pa).toNat + 256 * State.rd s (pa + 1) n

/-- Write a little-endian number of `n` bytes at a physical address, clearing poison. -/
def State.wr (s : State) (pa v : Nat) : Nat → State
  | 0 => s
  | n + 1 => State.wr (s.setByte pa (BitVec.ofNat 8 v) false) (pa + 1) (v / 256) n

/-- Little-endian number of a list of bytes. -/
def leNat (l : List Byte) : Nat := l.foldr (fun b acc => b.toNat + 256 * acc) 0

/-- The low `n` bytes of a number, little-endian. -/
def leBytes (v : Nat) : Nat → List Byte
  | 0 => []
  | n + 1 => BitVec.ofNat 8 v :: leBytes (v / 256) n

/-! ## Cores and nodes -/

/-- The stack of a logical core. -/
def coreStack (idx : Nat) : Nat := idx / 256

/-- A core by its logical index. -/
def State.core (s : State) (idx : Nat) : Core := (s.cores.find? (fun c => c.idx == idx)).getD { idx := idx }

/-- Put a core into the ascending list of cores. -/
def coresPut (l : List Core) (c : Core) : List Core :=
  match l with
  | [] => [c]
  | d :: rest => if c.idx < d.idx then c :: d :: rest else if c.idx = d.idx then c :: rest else d :: coresPut rest c

def State.setCore (s : State) (c : Core) : State := { s with cores := coresPut s.cores c }

/-- A node by its identity; identity 0 is no node. -/
def State.node (s : State) (uid : Nat) : Node :=
  if uid = s.cur.desc.uid then s.cur else (s.nodes.find? (fun n => n.desc.uid == uid)).getD Node.none

/-- Put a node into the ascending list of nodes. -/
def nodesPut (l : List Node) (n : Node) : List Node :=
  match l with
  | [] => [n]
  | d :: rest => if n.desc.uid < d.desc.uid then n :: d :: rest else if n.desc.uid = d.desc.uid then n :: rest else d :: nodesPut rest n

def State.setNode (s : State) (n : Node) : State :=
  if n.desc.uid = s.cur.desc.uid then { s with cur := n } else if n.desc.uid = 0 then s else { s with nodes := nodesPut s.nodes n }

/-- Every node of the module. -/
def State.allNodes (s : State) : List Node := if s.cur.desc.uid = 0 then s.nodes else nodesPut s.nodes s.cur

/-- Change the current node. -/
def State.mapCur (s : State) (f : Node → Node) : State := { s with cur := f s.cur }

def State.mapRegs (s : State) (f : Regs → Regs) : State := s.mapCur fun n => { n with regs := f n.regs }
def State.mapCtl (s : State) (f : Ctl → Ctl) : State := s.mapCur fun n => { n with ctl := f n.ctl }
def State.mapEng (s : State) (f : Eng → Eng) : State := s.mapCur fun n => { n with eng := f n.eng }
def State.mapRun (s : State) (f : Run → Run) : State := s.mapCur fun n => { n with run := f n.run }

/-- The core whose run queue holds a node, if any. -/
def State.coreOf (s : State) (uid : Nat) : Option Core :=
  if uid = 0 then none else s.cores.find? fun c => c.slots.toList.contains uid

/-- Put the current node back and make another core the focus. -/
def State.focusOn (s : State) (idx : Nat) : State :=
  let nodes := if s.cur.desc.uid = 0 then s.nodes else nodesPut s.nodes s.cur
  let u := (s.core idx).current
  let n := (nodes.find? (fun n => n.desc.uid == u)).getD Node.none
  { s with focus := idx, nodes := nodes.filter (fun m => m.desc.uid != n.desc.uid), cur := n }

/-- Number of slabs bound to a core (R147): 1, 2 or 4. -/
def slabsOfGang (g : BitVec 2) : Nat := if g = 1 then 2 else if g = 2 then 4 else 1

/-- Number of slabs the current node runs on. -/
def State.slabs (s : State) : Nat := s.cur.run.gangWidth

/-- Add to a telemetry counter of a core (R369). -/
def countIn (l : List (String × Nat)) (name : String) : List (String × Nat) :=
  match l with
  | [] => [(name, 1)]
  | (k, v) :: rest => if k = name then (k, (v + 1) % 2 ^ 32) :: rest else (k, v) :: countIn rest name

def State.count (s : State) (name : String) : State := { s with svc := { s.svc with tele := countIn s.svc.tele name } }

def State.countCore (s : State) (idx : Nat) (name : String) : State :=
  let c := s.core idx
  s.setCore { c with tele := countIn c.tele name }

/-- Add to a telemetry counter of the core whose run queue holds a node (R369). DESIGN CHOICE: log entry 39. -/
def State.countFor (s : State) (uid : Nat) (name : String) : State :=
  match s.coreOf uid with
  | some c => s.countCore c.idx name
  | none => s

/-- Count an event of a DRAM channel: 0 soft repairs, 1 correctable errors, 2 uncorrectable errors, 3 full-table events (R369). -/
def countChan (l : List (Nat × Nat × Nat)) (chan kind : Nat) : List (Nat × Nat × Nat) :=
  match l with
  | [] => [(chan, kind, 1)]
  | (c, k, v) :: rest => if c = chan ∧ k = kind then (c, k, (v + 1) % 2 ^ 32) :: rest else (c, k, v) :: countChan rest chan kind

def State.noteChan (s : State) (chan kind : Nat) : State := { s with svc := { s.svc with dramCounts := countChan s.svc.dramCounts chan kind } }

/-- A correctable error is counted at the memory that held the byte (R35). -/
def State.countCorrectable (s : State) (uid : Nat) (m : Memory) : State :=
  match m with
  | .pool => s.countFor uid "correctable errors"
  | .ring g k => s.count ("correctable errors of ring stop " ++ toString (16 * g + k))
  | .dram c => s.noteChan c 1
  | .host => s.count "correctable errors of host memory"

/-- Count a cause of R345 by its code for a node's core. -/
def State.countCause (s : State) (uid : Nat) (code : Nat) : State := s.countFor uid ("cause " ++ toString code)

/-- Add to a counter of a node's core several times (R360). -/
def State.countMany (s : State) (uid : Nat) (name : String) : Nat → State
  | 0 => s
  | k + 1 => State.countMany (s.countFor uid name) uid name k

/-! ## Pairs of the splice unit (R96, R110) -/

/-- The pair of a core to which a node belongs; the empty pair when it belongs to none. -/
def Core.pairOf (c : Core) (uid : Nat) : Splice := if uid = 0 then {} else (c.pairs.find? fun sp => sp.p == uid || sp.c == uid).getD {}

/-- Put a pair into a core's splice unit, in the place of the pair with the same producer. -/
def Core.putPair (c : Core) (sp : Splice) : Core :=
  if c.pairs.any fun x => x.p == sp.p then { c with pairs := c.pairs.map fun x => if x.p = sp.p then sp else x } else { c with pairs := c.pairs ++ [sp] }

/-- Take the pair of a node out of a core's splice unit. -/
def Core.dropPair (c : Core) (uid : Nat) : Core := { c with pairs := c.pairs.filter fun sp => sp.p != uid && sp.c != uid }

/-- The pair to which a node belongs, on whichever core. -/
def State.pairOf (s : State) (uid : Nat) : Splice := match s.cores.find? fun c => (c.pairOf uid).st != .none with
  | some c => c.pairOf uid
  | none => {}

/-- Raise an MSI-X vector (R74); nothing raises vector 65. DESIGN CHOICE: log entry 86. -/
def State.raiseMsix (s : State) (v : Nat) : State := { s with awl := { s.awl with msix := s.awl.msix ++ [v] } }

/-- Take a free value and advance the counter of free values. -/
def State.takeFreeBool (s : State) : Bool × State := (Config.freeBool s.free, { s with free := s.free + 1 })
def State.takeFreeNat (s : State) : Nat × State := (Config.freeNat s.free, { s with free := s.free + 1 })

/-! ## Registers -/

/-- The value of a scalar register: s0 reads 0, and the shadow bank stands for s24 to s31 while it is selected (R153). -/
def Node.s (n : Node) (r : BitVec 5) : Word :=
  if r = 0 then 0 else if n.ctl.bank ∧ 24 ≤ r.toNat then n.regs.sh[r.toNat - 24]?.getD 0 else n.regs.s[r.toNat]

/-- A predicate: p0 reads true (R153). -/
def Node.p (n : Node) (r : BitVec 3) : Bool := r = 0 ∨ n.regs.p.getLsbD r.toNat

/-- A guard or selector (R132). -/
def Node.guardTrue (n : Node) (g : BitVec 4) : Bool := n.p (g.extractLsb' 0 3) != g.getLsbD 3

/-- The slot that a tile name reaches under the rotating base (R169). -/
def slotOf (base : BitVec 5) (t : BitVec 6) : BitVec 6 :=
  if t.toNat < 32 then t else BitVec.ofNat 6 (32 + (t.toNat - 32 + base.toNat) % 32)

def Node.slot (n : Node) (t : BitVec 6) : BitVec 6 := slotOf n.ctl.rtb t

/-- Every result of a node in flight, those that its handlers have recorded among them, in the order of issue (R349). -/
def Ctl.results (c : Ctl) : List InFlight := c.uiFlight ++ c.trapFlight ++ c.flight

/-- Add a result that falls due `dist` bundles after the issuing one (R143). DEDUCED: log entry 22. -/
def Node.push (n : Node) (dist : Nat) (e : Effect) : Node := { n with ctl := { n.ctl with flight := n.ctl.flight ++ [{ dist := dist, eff := e }] } }

def State.push (s : State) (dist : Nat) (e : Effect) : State := s.mapCur fun n => n.push dist e

/-- A result for a scalar register: a write to s0 is discarded, and the bank is chosen at issue (R153). -/
def State.pushS (s : State) (dist : Nat) (d : BitVec 5) (v : Word) : State :=
  if d = 0 then s else s.push dist (.s (s.cur.ctl.bank && decide (24 ≤ d.toNat)) d v)

/-- A result for a predicate: a write to p0 is discarded (R153). -/
def State.pushP (s : State) (dist : Nat) (d : BitVec 3) (v : Bool) : State := if d = 0 then s else s.push dist (.p d v)

/-- Add an end-of-bundle effect. -/
def State.addPost (s : State) (p : Post) : State := { s with bnd := { s.bnd with post := s.bnd.post ++ [p] } }

/-- Delay the issue of the bundle (R146). -/
def State.delay (s : State) : State := { s with bnd := { s.bnd with stop := .delayed } }

/-- An answer arrives for a request of the node (R308, R313): the result in flight that waits for it is filled. -/
def Ctl.answer (c : Ctl) (id : Nat) (v : Bool) : Ctl :=
  let fill := fun (l : List InFlight) => l.map fun f => match f.eff with
    | .pAnswer i n none => if i = id then { f with eff := .pAnswer i n (some v) } else f
    | _ => f
  { c with flight := fill c.flight, trapFlight := fill c.trapFlight, uiFlight := fill c.uiFlight }

/-! ## Accumulators (R48, R226) -/

/-- The packed two's-complement element `i` of width `w`. -/
def packGet (w : Nat) (x i : Nat) : Int := signExt w ((x / 2 ^ (w * i) % 2 ^ w : Nat) : Int)

/-- Pack a list of integers, `w` bits each, element 0 lowest. -/
def packList (w : Nat) (l : List Int) : Nat := l.foldr (fun v acc => acc * 2 ^ w + lowBits w v) 0

/-- Unpack the first `n` elements. -/
def unpack (w : Nat) (x : Nat) : Nat → List Int
  | 0 => []
  | n + 1 => signExt w ((x % 2 ^ w : Nat) : Int) :: unpack w (x / 2 ^ w) n

/-- Add one run's exact sums to an accumulator, as R48 states: a saturated element keeps its value. `n` elements. -/
def Acc.addRun (a : Acc) (n : Nat) (run : Nat) : Acc :=
  if run = 0 then a
  else
    let old := unpack 48 a.base n
    let add := unpack 48 run n
    let sat := (List.range n).map fun i => a.sat.testBit i
    let res := (old.zip (add.zip sat)).map fun (o, d, f) => if f then (o, false) else satI 48 (o + d)
    { a with base := packList 48 (res.map (·.1)), sat := a.sat ||| packList 1 (res.map fun r => if r.2 then 1 else 0),
             sticky := a.sticky || res.any (·.2) }

/-- Add the packed sums of a segment of k-steps to the run in progress. -/
def addPacked (n : Nat) (x y : Nat) : Nat :=
  if x = 0 then y else if y = 0 then x else packList 48 (((unpack 48 x n).zip (unpack 48 y n)).map fun (a, b) => a + b)

/-- The sums of a segment join the run in progress, which ends when the segment reaches its boundary. -/
def Acc.addSegs (a : Acc) (n : Nat) (segs : List (Nat × Bool)) : Acc :=
  segs.foldl (fun a seg =>
    let p := addPacked n a.part seg.1
    if seg.2 then { a with ended := a.ended ++ [p], part := 0 } else { a with part := p }) a

/-- The accumulator as a reader sees it: every run that has ended, and the run in progress as if it had ended (R226). -/
def Acc.read (a : Acc) (n : Nat) : Acc :=
  let b := (a.ended ++ [a.part]).foldl (fun acc r => acc.addRun n r) a
  { b with ended := [], part := 0 }

/-- Array rows and columns by the number of slabs (R219). -/
def matrixRows (slabs : Nat) : Nat := if slabs = 1 then 128 else 256
def matrixCols (slabs : Nat) : Nat := if slabs = 4 then 128 else 64
def accElems (slabs : Nat) : Nat := matrixRows slabs * matrixCols slabs

/-- Add packed 64-bit checksums modulo 2^64 (R234). -/
def addSums (n : Nat) (x y : Nat) : Nat :=
  if y = 0 then x else packList 64 (((unpack 64 x n).zip (unpack 64 y n)).map fun (a, b) => a + b)

/-! ## Census windows (R41, R42) -/

/-- CEN.CUR, CEN.PREV and CEN.V of a scale register word (R37). -/
def cenCur (k : BitVec 32) : Nat := (k.extractLsb' 8 6).toNat
def cenPrev (k : BitVec 32) : Nat := (k.extractLsb' 14 6).toNat
def cenV (k : BitVec 32) : Bool := k.getLsbD 20

/-- A scale register word with new census fields. -/
def setCensus (k : BitVec 32) (v : Bool) (prev cur : Nat) : BitVec 32 :=
  (k &&& 0xFFE000FF#32) ||| BitVec.ofNat 32 ((if v then 2 ^ 20 else 0) + min prev 32 * 2 ^ 14 + min cur 32 * 2 ^ 8)

/-- The close of R41, and the opening of the next window with the census already gathered for it. -/
def Regs.closeWindow (r : Regs) (k : BitVec 6) : Regs :=
  let i := k.toNat
  let old := r.k[i]
  let w := r.closed[i] + 1
  let next := ((r.later.filter fun e => e.1 == i && e.2.1 == w).map fun e => e.2.2).foldl min 32
  { r with k := r.k.setIfInBounds i (setCensus old (decide (cenCur old < 32)) (cenCur old) next), closed := r.closed.setIfInBounds i w,
           later := r.later.filter fun e => !(e.1 == i && e.2.1 == w) }

/-- A census write of value `c` that belongs to window `w` (R40, R42). -/
def Regs.census (r : Regs) (k : Nat) (w c : Nat) : Regs :=
  let old := r.k[k]?.getD 0
  if w ≤ r.closed[k]?.getD 0 then { r with k := r.k.setIfInBounds k (setCensus old (cenV old) (cenPrev old) (min (cenCur old) c)) }
  else { r with later := r.later ++ [(k, w, c)] }

/-- Set SAT (bit 21) or POI (bit 22) of a scale register. -/
def Regs.flagK (r : Regs) (k : Nat) (bit : Nat) (on : Bool) : Regs :=
  if on then { r with k := r.k.setIfInBounds k ((r.k[k]?.getD 0) ||| BitVec.ofNat 32 (2 ^ bit)) } else r

/-! ## Results that fall due (R143, R145) -/

/-- Origin `d` of a handle moved by an integer, modulo 2^18 (R172). -/
def moveOrg (h : Handle) (d : Nat) (delta : Int) : Handle :=
  let lo := 154 + 18 * d
  let old := (h.extractLsb' lo 18).toNat
  let new := lowBits 18 ((old : Int) + delta)
  (h &&& ~~~(BitVec.ofNat 256 ((2 ^ 18 - 1) * 2 ^ lo))) ||| BitVec.ofNat 256 (new * 2 ^ lo)

/-- One result is written. `n` is the number of bound slabs. -/
def Regs.apply (r : Regs) (n : Nat) (e : Effect) : Regs :=
  match e with
  | .s false d v => { r with s := r.s.setIfInBounds d.toNat v }
  | .s true d v => { r with sh := r.sh.setIfInBounds (d.toNat - 24) v }
  | .p d v => { r with p := if v then r.p ||| BitVec.ofNat 8 (2 ^ d.toNat) else r.p &&& ~~~(BitVec.ofNat 8 (2 ^ d.toNat)) }
  | .pAnswer _ d a => { r with p := if a = some true then r.p ||| BitVec.ofNat 8 (2 ^ d.toNat) else r.p &&& ~~~(BitVec.ofNat 8 (2 ^ d.toNat)) }
  | .h d v => { r with h := r.h.setIfInBounds d.toNat v }
  | .k d m v => { r with k := r.k.setIfInBounds d.toNat ((r.k[d.toNat] &&& ~~~m) ||| (v &&& m)) }
  | .c d v => { r with c := r.c.setIfInBounds d.toNat v }
  | .cAdd d v => { r with c := r.c.setIfInBounds d.toNat (r.c[d.toNat] + v) }
  | .e d v => { r with e := r.e.setIfInBounds d.toNat v }
  | .ts d v => { r with ts := r.ts.setIfInBounds d.toNat v }
  | .tile d mask bits poison sat replace =>
    let old := r.tile[d.toNat]
    let ts := r.ts[d.toNat]
    let keep := fun x : Nat => x ^^^ (x &&& mask)
    { r with tile := r.tile.setIfInBounds d.toNat { bits := keep old.bits ||| bits, poison := keep old.poison ||| poison },
             ts := r.ts.setIfInBounds d.toNat (if sat then ts ||| 0x02000000#32 else if replace then ts &&& ~~~0x02000000#32 else ts) }
  | .acc a segs poison sticky ck rc cc =>
    let old := r.acc[a.toNat]?.getD {}
    let new := Acc.addSegs old (accElems n) segs
    let rc := if ck then addSums (matrixRows n) new.rc rc else new.rc
    let cc := if ck then addSums (matrixCols n) new.cc cc else new.cc
    { r with acc := r.acc.setIfInBounds a.toNat { new with poison := new.poison ||| poison, sticky := new.sticky || sticky, rc := rc, cc := cc } }
  | .accEnd a =>
    let old := r.acc[a.toNat]?.getD {}
    { r with acc := r.acc.setIfInBounds a.toNat { old with ended := old.ended ++ [old.part], part := 0 } }
  | .accZero a =>
    let old := r.acc[a.toNat]?.getD {}
    { r with acc := r.acc.setIfInBounds a.toNat { old with base := 0, ended := [], part := 0, sat := 0, poison := 0, sticky := false, ckv := false } }
  | .cenClose k => r.closeWindow k
  | .org h d delta => { r with h := r.h.setIfInBounds h.toNat (moveOrg r.h[h.toNat] d delta) }
  | .trap .. => r

/-- Whether a result is an origin update, which is applied after the other results of its bundle (R172). -/
def Effect.isOrg : Effect → Bool
  | .org .. => true
  | _ => false

/-- The start of a bundle: every distance falls by one, and the results that are due are written, in issue order, origin updates last. DEDUCED: log entry 23. -/
def Node.begin (nd : Node) : Node :=
  let fl := nd.ctl.flight.map fun f => { f with dist := f.dist - 1 }
  let due := fl.filter fun f => f.dist == 0
  let rest := fl.filter fun f => f.dist != 0
  let first := due.filter fun f => !f.eff.isOrg
  let last := due.filter fun f => f.eff.isOrg
  let n := nd.run.gangWidth
  { nd with regs := (first ++ last).foldl (fun r f => r.apply n f.eff) nd.regs, ctl := { nd.ctl with flight := rest } }

/-! ## Job control blocks (R71) -/

/-- Where a job control block lies (R252). -/
def jcbPA (j : BitVec 12) : Nat := ringPA (0x10000 + 64 * j.toNat)

/-- The state of a block: 0 OPEN, 1 COMPLETE, 2 FAILED. -/
def State.jcbState (s : State) (j : BitVec 12) : Nat := s.rd (jcbPA j + 8) 4 % 4

/-- Set bits of a block's STATUS. -/
def State.jcbOr (s : State) (j : BitVec 12) (bits : Nat) : State := s.wr (jcbPA j + 8) (s.rd (jcbPA j + 8) 4 ||| bits) 4

/-- A raise by n at the home stop: accepted or refused (R71). `posted`: the raiser's own completion has been posted. -/
def State.jcbRaise (s : State) (j : BitVec 12) (n : Nat) (posted : Bool) : Bool × State :=
  let e := s.rd (jcbPA j) 4
  if posted ∨ s.jcbState j ≠ 0 then (false, s.jcbOr j 4)
  else if 2 ^ 32 ≤ e + n then (false, s.jcbOr j 8)
  else (true, s.wr (jcbPA j) (e + n) 4)

/-- A withdrawal by n at the home stop (R71). -/
def State.jcbWithdraw (s : State) (j : BitVec 12) (n : Nat) : State := s.wr (jcbPA j) ((s.rd (jcbPA j) 4 + 2 ^ 32 - n % 2 ^ 32) % 2 ^ 32) 4

/-- The owning queue of a block (R71). -/
def State.jcbOwner (s : State) (j : BitVec 12) : Option Nat := (s.awl.jcbOwner.find? (fun e => e.1 == j.toNat)).map (·.2)

/-- A failure post for a node with a valid block (R71, R72). -/
def State.postFailure (s : State) (n : Node) (fstat : BitVec 32) : State :=
  match n.desc.jcb with
  | none => s
  | some j => { s with awl := { s.awl with posts := s.awl.posts ++ [{ uid := n.desc.uid, queue := n.desc.queue, jcb := j, fail := some (BitVec.ofNat 20 n.desc.index, fstat) }] } }

/-! ## Leaving a core, rollback and failure -/

/-- A node leaves the run queue of its core and its pool units return to the free list (R97, R246); the core is left without a current node when it was
the current one. -/
def State.leaveCore (s : State) (uid : Nat) : State :=
  match s.coreOf uid with
  | none => s
  | some c =>
    let s := s.setCore { c with slots := c.slots.map (fun u => if u = uid then 0 else u), units := c.units.map (fun u => if u = uid then 0 else u),
                                current := if c.current = uid then 0 else c.current }
    if s.cur.desc.uid = uid then { s with nodes := nodesPut s.nodes s.cur, cur := Node.none } else s

/-- A context as it stands before the launch loads. -/
def Node.discard (n : Node) : Node :=
  let r := { n.run with staged := {}, scr := {}, irrev := false, raises := 0, late := 0, refused := 0, doneIssued := false }
  let r := { r with overridden := [], pendingRaise := [], tokens := [], preempt := false, quiesced := false, saveArea := Option.none, payload := 0, spliceRec := Option.none, refusal := Option.none, committing := Option.none, ahead := [] }
  { n with regs := Regs.reset, ctl := {}, eng := {}, run := r }

/-- Tokens go back to their links (R313). -/
def returnTokens (links : Vector Link 64) (l : List (BitVec 6 × Nat)) : Vector Link 64 :=
  l.foldl (fun ls e =>
    let old := ls[e.1.toNat]
    ls.setIfInBounds e.1.toNat { old with count := BitVec.ofNat 16 (old.count.toNat + e.2) }) links

/-- Clear the pair of a node from the splice unit of its core. -/
def State.unsplice (s : State) (uid : Nat) : State := if uid = 0 then s else { s with cores := s.cores.map fun c => c.dropPair uid }

/-- A step in which nodes become READY (R91): later ones stand behind them. -/
def State.nextReady (s : State) : State := { s with awl := { s.awl with readySeq := s.awl.readySeq + 1 } }

/-- A node becomes READY for the first time: it takes its place in the order of the step (R91). -/
def State.firstReady (s : State) (uid : Nat) : State :=
  let n := s.node uid
  if n.run.st = .ready ∧ n.desc.readyOrder = 0 then (s.setNode { n with desc := { n.desc with readyOrder := s.awl.readySeq + 1 } }).nextReady else s

/-- One node ends its run and goes to another state with its context discarded; it leaves its core. -/
def State.endRun (s : State) (uid : Nat) (st : NodeState) (remaining : Nat) (mark : Option (Nat × Nat × Nat)) : State :=
  let n := s.node uid
  let s := s.leaveCore uid
  let d := n.discard
  let s := if mark = none then s else { s with dist := { s.dist with held := s.dist.held.filter (fun u => u != uid) ++ [uid] } }
  (s.setNode { d with run := { d.run with st := st, remaining := remaining, mark := mark, partner := 0 } }).firstReady uid

/-- The raises of a run that the home stop has not answered reach it all the same (R309): what they add to EXPECTED, and the module. -/
def State.raiseOpen (s : State) (j : BitVec 12) : List RaiseReq → Nat × State
  | [] => (0, s)
  | r :: rest =>
    if r.ans.isSome then State.raiseOpen s j rest
    else
      let (ok, s) := s.jcbRaise j r.n.toNat r.posted
      let (k, s) := State.raiseOpen s j rest
      (k + (if ok then r.n.toNat else 0), s)

/-- The open raises of a run that ends without a rollback are applied at their home (R309). -/
def State.settleRaises (s : State) (uid : Nat) : State :=
  match (s.node uid).desc.jcb with
  | some j => (s.raiseOpen j (s.node uid).run.pendingRaise).2
  | none => s

/-- Withdraw the raises of a run and return its tokens (R69). -/
def State.withdrawRun (s : State) (uid : Nat) : State :=
  let n := s.node uid
  let s := match n.desc.jcb with
    | some j =>
      let (k, s) := s.raiseOpen j n.run.pendingRaise
      if n.run.raises + k = 0 then s else s.jcbWithdraw j (n.run.raises + k)
    | none => s
  { s with awl := { s.awl with links := returnTokens s.awl.links n.run.tokens, inbox := s.awl.inbox.filter fun i => match i with
      | .take u _ _ _ => u != uid
      | _ => true } }

/-- The status words of R79. -/
def stStageOverflow : BitVec 32 := 0x20
def stIrreversible : BitVec 32 := 0x21
def stUnstaged : BitVec 32 := 0x22
def stEnqBad : BitVec 32 := 0x23
def stNodeTrap (cause : BitVec 7) : BitVec 32 := BitVec.ofNat 32 (0x24 + cause.toNat * 2 ^ 16)
def stQReset : BitVec 32 := 0x30

/-- The graph of a failed node takes no further node into READY; the launch completes when the nodes that had begun have ended (R72, R78). DEDUCED: log entry 45. -/
def State.graphFailed (s : State) (g : Nat) (fstat : BitVec 32) : State :=
  let live := (s.allNodes.filter fun n => n.desc.graph == g &&
    (n.run.st == .placed || n.run.st == .running || n.run.st == .retiring || n.run.st == .saved)).map (·.desc.uid)
  { s with awl := { s.awl with graphs := s.awl.graphs.map fun e =>
      if e.id = g ∧ e.failed = none then { e with failed := some fstat, live := live } else e } }

/-- A node fails (R72): its failure is posted and it is final. In a pair the partner is ended without a post (R128). -/
def State.failNode (s : State) (uid : Nat) (fstat : BitVec 32) : State :=
  let n := s.node uid
  if uid = 0 then s
  else
    let s := (s.settleRaises uid).postFailure n fstat
    let s := if n.run.partner = 0 then s else s.settleRaises n.run.partner
    let s := s.graphFailed n.desc.graph fstat
    let s := s.endRun uid .failed 0 none
    let s := if n.run.partner = 0 then s else s.endRun n.run.partner .removed 0 none
    { (s.unsplice uid) with bnd := { s.bnd with stop := .taken, post := [] } }

/-- Whether R69 allows the rollback of a node: staged, with no irreversible operation by it or its partner (R128). -/
def State.mayRollBack (s : State) (uid : Nat) : Bool :=
  let n := s.node uid
  let q := s.node n.run.partner
  !n.desc.image.unstg && !n.run.irrev && (n.run.partner == 0 || !q.run.irrev)

/-- An error that rolls a node back, or fails it where R69 forbids that. A pair rolls back as one (R128). -/
def State.rollback (s : State) (uid : Nat) (mark : Option (Nat × Nat × Nat)) : State :=
  let n := s.node uid
  if uid = 0 then s
  else if n.desc.image.unstg then s.failNode uid stUnstaged
  else if !s.mayRollBack uid then s.failNode uid stIrreversible
  else
    let isC := n.run.partner != 0 && (s.pairOf uid).c == uid
    let s := s.withdrawRun uid
    let q := n.run.partner
    let s := if q = 0 then s else s.withdrawRun q
    let s := if isC then s.endRun uid .waiting 1 mark else s.endRun uid .ready 0 mark
    let s := if q = 0 then s else if isC then s.endRun q .ready 0 none else s.endRun q .waiting 1 none
    { (s.unsplice uid) with bnd := { s.bnd with stop := .taken, post := [] } }

/-! ## Traps (R345 to R351, R357) -/

/-- The vector of a cause (R345). -/
def trapVector (cause : BitVec 7) : Nat :=
  let c := cause.toNat
  if c ≤ 2 then 0 else if c ≤ 8 then 1 else if c ≤ 0xD then 2 else if c ≤ 0x12 then 3 else if c ≤ 0x19 then 4 else if c = 0x1A then 5 else 6

/-- A trap cause that has been found: code, position, whether it is delayed, the addresses of R347 and the value. -/
structure Cause where
  code : BitVec 7
  pos : BitVec 4
  dly : Bool
  fa : BitVec 22
  ra : BitVec 22
  val : Word
deriving DecidableEq, Repr

/-- The cause that a result in flight holds, when it is one. -/
def Effect.cause? (ra : BitVec 22) : Effect → Option Cause
  | .trap code pos fa val => some { code := code, pos := pos, dly := true, fa := fa, ra := ra, val := val }
  | _ => none

/-- The first delayed cause among results in flight (R351). -/
def firstCause (ra : BitVec 22) (l : List InFlight) : Option Cause := l.findSome? fun f => f.eff.cause? ra

/-- The state before the bundle under way began: its results are not yet written (R140, R349). DEDUCED: log entry 16. -/
def State.rewind (s : State) : State :=
  match s.bnd.before with
  | none => s
  | some (r, fl) => s.mapCur fun n => { n with regs := r, ctl := { n.ctl with flight := fl } }

/-- A close of a census window that is in flight is no register result: when a handler is entered it goes on taking effect (R42, R214). DEDUCED: log entry 60. -/
def Ctl.closing (c : Ctl) : List (BitVec 6) := c.flight.filterMap fun f => match f.eff with
  | .cenClose k => some k
  | _ => none

/-- The results in flight that a handler's entry records (R349). -/
def Ctl.recorded (c : Ctl) : List InFlight := c.flight.filter fun f => match f.eff with
  | .cenClose _ => false
  | _ => true

/-- Entry to the handler (R349): the record, the results in flight, ACT, the shadow bank, and the vector. DEDUCED: log entry 16. DEDUCED: log entry 20. -/
def Ctl.enterTrap (c : Ctl) (x : Cause) : Ctl :=
  { c with
    trap := { c.trap with cause := x.code, pos := x.pos, dly := x.dly, fa := x.fa, ra := x.ra, recRa := x.ra, val := x.val, act := true }
    trapFlight := c.recorded
    flight := []
    cwaiting := c.cwaiting ++ c.closing
    bankBefore := c.bank
    bank := true
    waits := []
    trapWaits := c.waits
    mustIssue := false
    trapMust := c.mustIssue
    xseg := x.ra.toNat / 65536
    pcOut := false
    pc := BitVec.ofNat 22 (c.trap.vbase.toNat + 12 * trapVector x.code) }

/-- The byte offset that alignment and packets count from: in an overlay image the offset within the segment (R61). DEDUCED: log entry 17. -/
def offsetOf (ovl : Bool) (a : Nat) : Nat := if ovl then a % 65536 else a

/-- Taking a trap (R348, R357): a compare trap with CRB rolls the node back where that is allowed and is not the third in a row;
otherwise the handler is entered when EN = 1 and ACT = 0, and the node fails with NODE_TRAP in every other case. A vector that is no multiple of 12
raises the target alignment fault with ACT = 1 (R134), so the node fails. Every trap is counted by its code (R345). DEDUCED: log entry 16. DEDUCED: log entry 17. DEDUCED: log entry 59. -/
def State.takeTrap (s : State) (x : Cause) : State :=
  let s := s.rewind
  let s := s.countCore s.focus ("cause " ++ toString x.code.toNat)
  let n := s.cur
  let cmp := decide (x.code = 0x18 ∨ x.code = 0x19)
  if cmp ∧ n.ctl.trap.crb ∧ s.mayRollBack n.desc.uid ∧ n.run.compareRollbacks < 2 then
    let s := s.countCore s.focus "compare rollbacks"
    let s := s.mapRun fun r => { r with compareRollbacks := r.compareRollbacks + 1 }
    s.rollback n.desc.uid none
  else
    let s := if cmp ∧ n.ctl.trap.crb ∧ s.mayRollBack n.desc.uid ∧ 2 ≤ n.run.compareRollbacks then s.countCore s.focus "reported for repair" else s
    if n.ctl.trap.en ∧ ¬ n.ctl.trap.act then
      if offsetOf n.desc.image.ovl (n.ctl.enterTrap x).pc.toNat % 12 ≠ 0 then (s.countCore s.focus ("cause " ++ toString 12)).failNode n.desc.uid (stNodeTrap 0x0C)
      else { (s.mapCtl fun c => c.enterTrap x) with bnd := { s.bnd with stop := .taken, post := [] } }
    else s.failNode n.desc.uid (stNodeTrap x.code)

/-- A trap that is precise at the bundle of the word that executes. DEDUCED: log entry 19. -/
def State.trapHere (s : State) (code : BitVec 7) (val : Word) : State :=
  s.takeTrap { code := code, pos := s.bnd.pos, dly := false, fa := s.bnd.fa, ra := s.bnd.fa, val := val }

/-- A trap that is taken before bundle b + `dist` issues (R269, R200): it stays in flight until then. -/
def State.trapLater (s : State) (dist : Nat) (code : BitVec 7) (val : Word) : State :=
  s.push dist (.trap code s.bnd.pos s.bnd.fa val)

/-- Return from a trap handler (R350): handler results not yet due are discarded, the bank and ACT are restored, issue resumes at RA,
and the recorded results fall due at their remaining distances. DEDUCED: log entry 20. -/
def Ctl.leaveTrap (c : Ctl) : Ctl :=
  { c with trap := { c.trap with act := false }, bank := c.bankBefore, flight := c.trapFlight, trapFlight := [], cwaiting := c.cwaiting ++ c.closing, pc := c.trap.ra,
           waits := c.trapWaits, trapWaits := [], mustIssue := c.trapMust, trapMust := false }

/-- Entry to the user-level handler (R285). DEDUCED: log entry 20. -/
def Ctl.enterUser (c : Ctl) (uivec : BitVec 22) : Ctl :=
  match c.ui.recs with
  | [] => c
  | (slot, cnt) :: rest =>
    { c with ui := { c.ui with slot := slot, cnt := cnt, recs := rest, ra := c.pc, act := true }, bank := true, uiFlight := c.recorded, flight := [], cwaiting := c.cwaiting ++ c.closing, xseg := c.pc.toNat / 65536,
             pcOut := false, pc := uivec, waits := [], uiWaits := c.waits.filter (fun w => w != .idle), mustIssue := false, uiMust := c.mustIssue }

/-- Return from the user-level handler (R285): the primary bank, ACT and OVF clear, the recorded results replayed, and issue resumes at RA. A delayed
cause of a handler word is no result and stays in flight, behind those of the words that issued before it (R346). DEDUCED: log entry 20. -/
def Ctl.leaveUser (c : Ctl) : Ctl :=
  { c with ui := { c.ui with act := false, ovf := false }, bank := false, flight := c.uiFlight ++ c.flight.filter (fun f => (f.eff.cause? 0).isSome), uiFlight := [],
           cwaiting := c.cwaiting ++ c.closing, pc := c.ui.ra, waits := c.uiWaits, uiWaits := [], mustIssue := c.uiMust, uiMust := false }

end Sys2Proof.Machine
end

