-- ==== Sys2Proof/Machine/Access.lean ====
section
/-! DEFINITION. The layout unit (R257 to R266): translation through the space descriptor, the tensor table and the tile table,
and a node's reads and writes of bytes with staging (R68), guard granules (R248), generations (R263) and poison (R358). -/

namespace Sys2Proof.Machine

/-- The faults of the layout unit (R258), the damaged entry of R266, and the staging overflow of R68. -/
inductive MFault where
  | translation (tid k : Nat)
  | flip (tid k entry hframe : Nat)
  | generation
  | access
  | damaged (tid k pa : Nat)
  | overflow
deriving DecidableEq, Repr

/-- The cause code of a fault that rolls a node back or fails it without a trap (R345). -/
def MFault.code : MFault → Option Nat
  | .translation .. => some 0x30
  | .flip .. => some 0x31
  | .generation => some 0x32
  | .damaged .. => some 0x33
  | .access => some 0x11
  | .overflow => none

/-- A space descriptor (R254). -/
structure Space where
  asgen : BitVec 16
  v : Bool
  tcount : Nat
  ttbl : Nat
  treg : Nat
  tlen : Nat
  shadow : Nat
deriving DecidableEq, Repr

/-- Where space descriptor s lies (R252). -/
def spacePA (sp : BitVec 6) : Nat := ringPA (0x1000 + 64 * sp.toNat)

def State.space (s : State) (sp : BitVec 6) : Space :=
  let a := spacePA sp
  { asgen := BitVec.ofNat 16 (s.rd a 2), v := s.rd (a + 2) 2 % 2 == 1, tcount := s.rd (a + 4) 4, ttbl := s.rd (a + 8) 8,
    treg := s.rd (a + 16) 8, tlen := s.rd (a + 24) 8, shadow := s.rd (a + 32) 8 }

/-- Whether any of n bytes is poisoned. DEDUCED: log entry 53. -/
def State.anyPoison (s : State) (pa : Nat) : Nat → Bool
  | 0 => false
  | n + 1 => s.poisoned pa || State.anyPoison s (pa + 1) n

/-- The permuted offset of R260. -/
def swizzle (code o : Nat) : Nat :=
  if code = 1 ∨ code = 6 then o / 256 * 256 + ((o / 16 % 16) ^^^ (o / 256 % 16)) * 16 + o % 16
  else if code = 2 then o / 1024 * 1024 + ((o / 64 % 16) ^^^ (o / 1024 % 16)) * 64 + o % 64
  else if code = 3 then o / 4096 * 4096 + ((o / 256 % 16) ^^^ (o / 4096 % 16)) * 256 + o % 256
  else o

/-- The channel of a granule (R260): by the swizzle code, the frame number and the permuted offset. For a ring frame it is taken modulo 16. -/
def channel (code frame o : Nat) : Nat :=
  if code = 4 ∨ code = 6 then (16 * frame + o / 4096) % 256
  else if code = 5 then frame % 256
  else if code = 7 then (o / 256) ^^^ (frame % 256)
  else o / 256

/-- The ring segment of a byte and its ring stop within the segment (R250). -/
def ringSegment (a : Nat) : Nat := a / 2 ^ 28 % 4
def ringStop (code frame o : Nat) : Nat := channel code frame o % 16

/-- The DRAM channels that can hold a byte of DRAM (R251, R260): the one that each swizzle code gives its granule. -/
def dramChannels (a : Nat) : List Nat := (List.range 8).map fun code => channel code (a / 65536) (a % 65536)

/-- The tensor-table tests of R257 up to V and LEVEL: the entry's TTA, LEVEL and SIZE. DESIGN CHOICE: log entry 40. -/
def State.tensorEntry (s : State) (sp : BitVec 6) (tid k : Nat) : Except MFault (Nat × Nat × Nat) :=
  let d := s.space sp
  if tid = 0 then .error (.translation tid k)
  else if !d.v then .error (.translation tid k)
  else if tid = 0xFFFFF ∨ d.tcount ≤ tid then .error .access
  else
    let a := d.ttbl + 16 * tid
    if s.anyPoison a 16 then .error (.damaged tid k a)
    else
      let hi := s.rd (a + 8) 8
      if hi % 2 = 0 then .error (.translation tid k)
      else if hi / 2 % 4 = 0 then .error .access
      else .ok (s.rd a 8, hi / 2 % 4, hi / 256 % 2 ^ 44)

/-- A node that holds a staging reservation (R68, R354). -/
def Node.reserves (n : Node) : Bool :=
  !n.desc.image.unstg && (n.run.st == .placed || n.run.st == .running || n.run.st == .retiring || n.run.st == .saved)

/-- The staging region's size in frames (R250, R253): 4,096 until the host sets it; a new value holds once no node holds a reservation. -/
def State.stgsz (s : State) : Nat :=
  let v := s.rd (ringPA 0) 4
  if s.allNodes.any Node.reserves then s.dist.stgFrames else v

/-- Translate (R257) for a tensor of the space: the physical address, and whether the frame is poisoned. DESIGN CHOICE: log entry 40. -/
def State.translate (s : State) (sp : BitVec 6) (host : Bool) (tid off : Nat) (write : Bool) : Except MFault (Nat × Bool) :=
  let k := off / 65536
  match s.tensorEntry sp tid k with
  | .error f => .error f
  | .ok (tta, level, size) =>
    if size ≤ off then .error (.translation tid k)
    else
      let o := off % 65536
      let ea := tta + 8 * k
      if s.anyPoison ea 8 then .error (.damaged tid k ea)
      else
        let e := s.rd ea 8
        let frame := bitsOf e 51 16
        let lvl := bitsOf e 7 6
        let swz := bitsOf e 5 3
        if e % 2 = 0 then .error (.translation tid k)
        else if bitsOf e 63 52 ≠ 0 ∨ bitsOf e 15 9 ≠ 0 ∨ lvl ≠ level then .error .access
        else if bitsOf e 1 1 = 0 ∧ level ≠ 3 then .error .access
        else if bitsOf e 1 1 = 0 ∧ !host then .error (.flip tid k ea frame)
        else if write ∧ bitsOf e 2 2 = 0 then .error .access
        else if level = 1 ∧ (frame < 1024 ∨ 16384 - s.stgsz ≤ frame) then .error .access
        else if level = 2 ∧ 2 ^ 24 ≤ frame then .error .access
        else if level = 2 ∧ 0xFC0000 ≤ frame then .error .access
        else if level = 3 ∧ swz ≠ 0 then .error .access
        else .ok (level * 2 ^ 62 + frame * 65536 + swizzle swz o, bitsOf e 8 8 == 1)

/-- The memory that holds a byte of a space's tensor: its level, and the ring stop or the channel that its tile-table entry gives it (R250, R251). -/
def State.memoryOf (s : State) (sp : BitVec 6) (tid off : Nat) : Memory :=
  match s.tensorEntry sp tid (off / 65536) with
  | .error _ => .host
  | .ok (tta, level, _) =>
    let e := s.rd (tta + 8 * (off / 65536)) 8
    let frame := bitsOf e 51 16
    let o := swizzle (bitsOf e 5 3) (off % 65536)
    if level = 1 then .ring (ringSegment (frame * 65536)) (ringStop (bitsOf e 5 3) frame o)
    else if level = 2 then .dram (channel (bitsOf e 5 3) frame o)
    else .host

/-- Two accesses reach the same byte. -/
def Place.same (a b : Place) : Bool :=
  match a, b with
  | .pool x _, .pool y _ => x == y
  | .phys x _, .phys y _ => x == y
  | _, _ => false

/-- The places of two accesses have no byte in common. -/
def disjointPlaces (l m : List Place) : Bool := l.all fun a => m.all fun b => !a.same b

/-- A place beyond the pool. -/
def Place.beyondPool (p : Place) : Bool := match p with
  | .pool _ _ => false
  | .phys _ _ => true

/-- The scratchpad allocation that a TID names: base and recorded size (R60, R247). -/
def Node.scratch (n : Node) (tid : Nat) : Option (Nat × Nat) := (n.desc.image.scr.find? (fun e => e.1 == tid)).map (·.2)

/-- Translate for a node (R257): its scratchpad TIDs come first. -/
def State.locate (s : State) (n : Node) (tid off : Nat) (write : Bool) : Except MFault Place :=
  match n.scratch tid with
  | some (base, size) => if size ≤ off then .error .access else .ok (.pool (base + off) (decide (size ≤ off + 256)))
  | none =>
    match s.translate n.desc.queue false tid off write with
    | .error f => .error f
    | .ok (pa, p) => .ok (.phys pa p)

/-- The memory that holds a byte of a node's tensor. -/
def State.memoryAt (s : State) (n : Node) (tid off : Nat) : Memory := if (n.scratch tid).isSome then .pool else s.memoryOf n.desc.queue tid off

/-- Check 1 of R52. -/
def handleStep1 (h : Handle) : Bool :=
  h.tid != 0 && !h.reserved && decide (1 ≤ h.rank) && decide (h.rank ≤ 5) &&
    ((List.range 5).all fun d => decide (d < h.rank) || (h.ext d == 1 && h.org d == 0))

/-- A byte lies in the padding of a block-shift tensor (R33) that the node has declared as an operand or that a handle register of it names. DEDUCED: log entry 67. -/
def Node.padding (n : Node) (tid off : Nat) : Bool := (n.desc.handles ++ n.regs.h.toList.filter handleStep1).any fun h => h.tid == tid && h.padding off

/-- The node's access tag is stale (R263). DEDUCED: log entry 62. -/
def State.stale (s : State) (n : Node) : Bool :=
  n.run.asgen != (s.space n.desc.queue).asgen || n.run.qgen != s.awl.queues[n.desc.queue.toNat].gen

/-- A byte that a node holds staged: its own staged bytes come first, then its splice partner's (R68, R125). -/
def State.seenStaged (s : State) (n : Node) (pa : Nat) : Option (Byte × Bool) :=
  let other := (if n.run.partner = 0 then Node.none else s.node n.run.partner).run
  match cellGet? n.run.staged.cells pa, cellGet? other.staged.cells pa with
  | some b, none => some (b, n.run.staged.poison.contains pa)
  | none, some b => some (b, other.staged.poison.contains pa)
  | some b, some b' => if n.run.overridden.contains pa then some (b', other.staged.poison.contains pa) else some (b, n.run.staged.poison.contains pa)
  | none, none => none

/-- A byte as a node reads it: value, poison, and the guard byte it touched. Padding reads zero (R33), and a read through an entry with P = 1 delivers
poisoned data wherever the byte comes from (R256). Beyond the pool a stale tag comes first, the staging area lying in the ring. DEDUCED: log entry 62. DEDUCED: log entry 67. -/
def State.readByte (s : State) (n : Node) (tid off : Nat) : Except MFault (Byte × Bool × Option Nat) :=
  match s.locate n tid off false with
  | .error f => .error f
  | .ok (.pool x true) => .ok (0, false, some x)
  | .ok (.pool x false) => .ok (if n.padding tid off then (0, false, none) else ((cellGet? n.run.scr.cells x).getD 0, n.run.scr.poison.contains x, none))
  | .ok (.phys pa p) =>
    if s.stale n then .error .generation
    else
      let (b, q) := (s.seenStaged n pa).getD (s.byte pa, s.poisoned pa)
      .ok (if n.padding tid off then (0, p, none) else (b, q || p, none))

/-- Bytes as a node reads them, with the first guard byte touched; the first fault in byte order ends the read. DEDUCED: log entry 3. -/
def State.readBytes (s : State) (n : Node) (tid off : Nat) : Nat → Except MFault (List (Byte × Bool) × Option Nat)
  | 0 => .ok ([], none)
  | len + 1 =>
    match s.readByte n tid off with
    | .error f => .error f
    | .ok (b, p, g) =>
      match State.readBytes s n tid (off + 1) len with
      | .error f => .error f
      | .ok (l, g') => .ok ((b, p) :: l, g <|> g')

/-- The places that the bytes of a range reach, those that fault left out. -/
def State.placesOf (s : State) (n : Node) (tid off len : Nat) : List Place :=
  (List.range len).filterMap fun i => match s.locate n tid (off + i) false with
    | .ok p => some p
    | .error _ => none

/-- Nothing that the front end has read ahead of an access's bytes stands (R288). -/
def State.forget (s : State) (l : List Place) : State := s.mapRun fun r => { r with ahead := r.ahead.filter fun e => disjointPlaces e.places l }

/-- An acquire of the front end: what it has read ahead is read anew by the words that issue from now on (R270, R292, R293). -/
def State.acquire (s : State) : State := s.mapRun fun r => { r with ahead := [] }

/-- The places of a write of n bytes; the first fault in byte order ends it. -/
def State.places (s : State) (n : Node) (tid off : Nat) : Nat → Except MFault (List Place)
  | 0 => .ok []
  | len + 1 =>
    match s.locate n tid off true with
    | .error f => .error f
    | .ok p =>
      match State.places s n tid (off + 1) len with
      | .error f => .error f
      | .ok l => .ok (p :: l)

/-- Put a byte into cells with its poison mark. -/
def Bytes.put (b : Bytes) (a : Nat) (v : Byte) (poison : Bool) : Bytes :=
  { cells := cellPut b.cells a v, poison := if poison then setAdd b.poison a else setDel b.poison a }

/-- Scratchpad bytes keep the canonical form of memory: a byte that reads 0 is not listed. -/
def Bytes.putScr (b : Bytes) (a : Nat) (v : Byte) (poison : Bool) : Bytes :=
  { cells := memSet b.cells a v, poison := if poison then setAdd b.poison a else setDel b.poison a }

/-- One byte written by node `uid` at a place (R68, R248, R263): scratchpad, guarded byte discarded, stale and dropped, written through, or staged. DEDUCED: log entry 62. -/
def State.writePlace (s : State) (uid : Nat) (pl : Place) (v : Byte) (poison : Bool) : State :=
  let n := s.node uid
  match pl with
  | .pool _ true => s
  | .pool x false => s.setNode { n with run := { n.run with scr := n.run.scr.putScr x v poison } }
  | .phys pa _ =>
    if s.stale n then s.countFor uid "stale-generation writes dropped"
    else if n.desc.image.unstg then s.setByte pa v poison
    else
      let s := s.setNode { n with run := { n.run with staged := n.run.staged.put pa v poison, overridden := setDel n.run.overridden pa } }
      let q := s.node n.run.partner
      if n.run.partner = 0 then s
      else if (cellGet? q.run.staged.cells pa).isSome then s.setNode { q with run := { q.run with overridden := setAdd q.run.overridden pa } }
      else s

/-- A store that has issued is performed (R287). -/
def State.performStore (s : State) (e : LateStore) : State := e.bytes.foldl (fun s b => s.writePlace e.uid b.1 b.2.1 b.2.2) { s with late := s.late.erase e }

/-- The stores of a node that are still to be performed are, in their order. -/
def State.drain (s : State) (uid : Nat) : State := (s.late.filter (·.uid == uid)).foldl State.performStore s

/-- The store at a place of the list is performed, unless an earlier one of its node that is still to be performed writes one of its bytes (R288).
DESIGN CHOICE: log entry 91. -/
def State.performAt (s : State) (i : Nat) : State :=
  match s.late[i]? with
  | none => s
  | some e => if (s.late.take i).all fun d => d.uid != e.uid || disjointPlaces (d.bytes.map (·.1)) (e.bytes.map (·.1)) then s.performStore e else s

/-- Lines of 64 bytes that a node holds staged (R68). -/
def lineCount (l : List Host.Cell) (last : Option Nat) : Nat :=
  match l with
  | [] => 0
  | (a, _) :: rest => (if last = some (a / 64) then 0 else 1) + lineCount rest (some (a / 64))

/-- The staged lines exceed the image's budget (R68). -/
def Node.overBudget (n : Node) : Bool := decide (n.desc.image.budget * 1024 < lineCount n.run.staged.cells Option.none) && !n.desc.image.unstg

/-- The first guarded byte among places. DEDUCED: log entry 38. -/
def firstGuard (l : List Place) : Option Nat :=
  match l with
  | [] => none
  | .pool x true :: _ => some x
  | _ :: rest => firstGuard rest

/-- Record a guard touch (R248): the first since the last report, or one more; the touching word's address is kept in telemetry too (R347).
DEDUCED: log entry 38. -/
def State.touch (s : State) (uid : Nat) (unit : BitVec 3) (addr : Option (BitVec 22)) (x : Option Nat) : State :=
  match x with
  | none => s
  | some x =>
    let n := s.node uid
    let s := s.countFor uid "guard touches"
    let s := match s.coreOf uid, addr with
      | some c, some a => s.setCore { c with guardAddr := some a }
      | _, _ => s
    match n.ctl.guard with
    | some g => s.setNode { n with ctl := { n.ctl with guard := some { g with more := g.more + 1 } } }
    | none =>
      let k := n.run.gangWidth
      let g := x / 256
      let half := match s.coreOf uid with
        | some c => if c.paired then (c.halves[g % 2]?.map (·.half)).getD 0 else BitVec.ofNat 1 (g / k)
        | none => BitVec.ofNat 1 (g / k)
      let entry := match s.coreOf uid with
        | some c => if c.paired then g % 2 else g % k
        | none => g % k
      s.setNode { n with ctl := { n.ctl with guard := some { entry := BitVec.ofNat 2 entry, half := half, unit := unit, off := x, addr := addr, more := 0 } } }

/-- Bytes written by a node at places that have been translated. -/
def State.writePlaces (s : State) (uid : Nat) (l : List (Place × Byte × Bool)) : State := l.foldl (fun s e => s.writePlace uid e.1 e.2.1 e.2.2) s

/-- Bytes written by a node from a tensor offset on: all of them are translated before any is written (R269). DEDUCED: log entry 3. -/
def State.writeBytes (s : State) (uid : Nat) (unit : BitVec 3) (addr : Option (BitVec 22)) (tid off : Nat) (l : List (Byte × Bool)) : Except MFault State :=
  match s.places (s.node uid) tid off l.length with
  | .error f => .error f
  | .ok ps =>
    let s := (s.writePlaces uid (ps.zip l)).touch uid unit addr (firstGuard ps)
    if (s.node uid).overBudget then .error .overflow else .ok s

/-! ## The effect of a fault on a node -/

/-- Keep a mailbox record pending (R262): the list holds 4,096, and only a flip request is never dropped. -/
def State.mail (s : State) (r : MailRec) : State :=
  if s.awl.mail.length < 4096 ∨ r.kind = 1 then { s with awl := { s.awl with mail := s.awl.mail ++ [r] } }
  else { s with awl := { s.awl with mailDropped := s.awl.mailDropped + 1 } }

/-- A fault of the layout unit other than an access fault (R258, R259, R261, R263, R266), or a staging overflow (R68), as it stops a node.
A translation fault leaves a mailbox record when the node is rolled back; a flip is requested in every case. The cause is counted by its code (R345).
DEDUCED: log entry 41. -/
def State.memFault (s : State) (uid : Nat) (f : MFault) : State :=
  let sp := (s.node uid).desc.queue
  let s := match f.code with
    | some c => s.countCause uid c
    | none => s
  match f with
  | .translation tid k =>
    let r : MailRec := { kind := 2, space := sp.zeroExtend 8, tid := tid, k := k, hframe := 0 }
    (if s.mayRollBack uid then s.mail r else s).rollback uid (some (sp.toNat, tid, k))
  | .flip tid k entry hframe =>
    let s := { s with awl := { s.awl with flipWanted := s.awl.flipWanted ++ [(hframe, entry)] } }
    (s.mail { kind := 1, space := sp.zeroExtend 8, tid := tid, k := k, hframe := hframe }).rollback uid (some (sp.toNat, tid, k))
  | .generation => s.rollback uid none
  | .damaged tid k pa =>
    let s := { s with awl := { s.awl with poisonedEntries := addNew s.awl.poisonedEntries (sp, pa) } }
    s.rollback uid (some (sp.toNat, tid, k))
  | .overflow => s.failNode uid stStageOverflow
  | .access => s.failNode uid (stNodeTrap 0x11)

/-! ## Handles (R52, R65) -/

/-- The block-shift extent condition of R32. -/
def blockExtentOk (h : Handle) : Bool :=
  if !fmtBlock h.fmt then true
  else if h.ori then decide (2 ≤ h.rank) && h.ext 1 % 32 == 0
  else h.ext 0 % 32 == 0

/-- Check 2 of R52. -/
def handleStep2 (n : Node) (h : Handle) : Bool :=
  !fmtReserved h.fmt && h.fmt == scaleFmt (n.regs.k[h.kidx]?.getD 0) && blockExtentOk h

/-- Check 3 of R52, for a write. -/
def handleStep3 (n : Node) (h : Handle) : Bool := h.level == 0 || h.stg == !n.desc.image.unstg

/-- The answer of check 4 of R52: passed, a handle fault, or the fault of the translation that reads the entry. -/
inductive LevelCheck where
  | pass | handle | proc (f : MFault)
deriving DecidableEq, Repr

/-- Check 4 of R52; a fault of the translation names the frame that the word reaches first (R259). -/
def State.handleStep4 (s : State) (n : Node) (h : Handle) : LevelCheck :=
  match n.scratch h.tid with
  | some _ => if h.level = 0 then .pass else .handle
  | none =>
    match s.tensorEntry n.desc.queue h.tid h.firstFrame with
    | .error f => .proc f
    | .ok (_, level, _) => if level = h.level then .pass else .handle

/-- A write through a TID that the node declares only IN (R65). DEDUCED: log entry 10. -/
def writeMode (n : Node) (tid : Nat) : Bool :=
  let ds := (n.desc.handles.zip n.desc.image.opnds).filter fun e => e.1.tid == tid
  ds.isEmpty || ds.any fun e => e.2.mode != 1

/-- The checks of R52 in order, then the MODE rule of R65: none, or the cause, or the fault of the translation. -/
inductive HandleFault where
  | cause (c : BitVec 7)
  | mem (f : MFault)
deriving DecidableEq, Repr

def State.checkHandle (s : State) (n : Node) (h : Handle) (write : Bool) : Option HandleFault :=
  if !handleStep1 h then some (.cause 5)
  else if !handleStep2 n h then some (.cause 4)
  else if write && !handleStep3 n h then some (.cause 5)
  else
    match s.handleStep4 n h with
    | .handle => some (.cause 5)
    | .proc f => some (.mem f)
    | .pass => if write && !writeMode n h.tid then some (.cause 5) else none

end Sys2Proof.Machine
end

