-- ==== Sys2Proof/WellFormed.lean ====
section
/-! DEFINITION. Well-formed instructions: the words that no rule on their own encoding makes an illegal point. -/

namespace Sys2Proof

/-- A word is well formed when no rule on its own encoding makes it an illegal point: Q is not 0b11 (R131), the guard is not 0b1000 (R132),
the bank rule holds (R139), and its entry's own field rules hold. A row without an encoding is always well formed. -/
def Instr.wf (i : Instr) : Bool := i.sig.wordOk

end Sys2Proof
end

