-- ==== Sys2Proof/Machine/Operands.lean ====
section
/-! DEFINITION. What every word has in common: the static checks (R131 to R141, R59), suppression by Q and guard (R131, R132),
the splice fault (R112), the operand forms that several families share, and the targets of transfers (R134, R162). -/

namespace Sys2Proof.Machine

/-- The outcome type of a step. -/
abbrev Result := Host.Outcome State Fault Refusal

/-- Tile n exists (R59). A partition of 17 to 31 pairs of tiles has some of t32 to t63. DEDUCED: log entry 73. -/
def tileExists (part : BitVec 32) (n : Nat) : Bool := decide (n < 2 * fieldN part 0 6)

/-- Accumulator n exists (R59): a10 to a15 never do. -/
def accExists (part : BitVec 32) (n : Nat) : Bool := decide (n < fieldN part 8 4 * 4 / 3) && decide (n < 10)

/-- The partition check of R59 on one register. -/
def regExists (part : BitVec 32) (r : Reg) : Bool :=
  match r with
  | .t n => tileExists part n
  | .ts n => tileExists part n
  | .a n => accExists part n
  | _ => true

/-- The partition check of a word (R59, R140). -/
def partitionOk (part : BitVec 32) (z : Sig) : Bool := z.names.all (regExists part)

/-- The innermost active loop level at or below index `k`. -/
def innermost (ls : Vector Loop 6) : Nat → Option Loop
  | 0 => none
  | k + 1 =>
    match ls[k]? with
    | some l => if l.act then some l else innermost ls k
    | none => innermost ls k

/-- Q admits the iteration (R131): a word in no active loop counts as first and last. -/
def qAdmits (ls : Vector Loop 6) (q : BitVec 2) : Bool :=
  match innermost ls 6 with
  | none => true
  | some l => if q = 1 then l.i == 0 else if q = 2 then l.i == l.t - 1 else true

/-- A word that its guard or Q suppresses (R132). -/
def suppressed (n : Node) (z : Sig) : Bool := !(n.guardTrue z.g) || !(qAdmits n.ctl.loops z.q)

/-- The splice of the focus core runs with the current node as a member (R119). -/
def State.spliced (s : State) : Bool :=
  let sp := (s.core s.focus).pairOf s.cur.desc.uid
  (sp.p == s.cur.desc.uid || sp.c == s.cur.desc.uid) && s.cur.desc.uid != 0 &&
    (sp.st == .pOut || sp.st == .cOut || sp.st == .merged || sp.st == .aloneP || sp.st == .aloneC || sp.st == .drain)

/-- A register that a splice descriptor's masks cover (R62): s0 and p0 need their bits like any other (R112). DEDUCED: log entry 24. -/
def maskCovers (d : SpliceDesc) (r : Reg) : Bool :=
  match r with
  | .s n => d.smask.getLsbD n
  | .p n => d.pmask.getLsbD n
  | .h n => d.hmask.getLsbD n
  | .t n => d.tmask.getLsbD n
  | .ts n => d.tmask.getLsbD n
  | .a n => d.amask.getLsbD n
  | _ => true

/-- The scale registers of a consumer's forwarded operands (R110, R116). -/
def forwardedScales (p c : Node) : List Nat :=
  let outs := ((p.desc.handles.zip p.desc.image.opnds).filter fun e => e.2.fwd && (e.2.mode == 2 || e.2.mode == 3)).map fun e => e.1.tid
  ((c.desc.handles.zip c.desc.image.opnds).filter fun e => e.2.fwd && e.2.mode == 1 && outs.contains e.1.tid).map fun e => e.1.kidx

/-- The splice fault of R112. -/
def State.spliceFault (s : State) (z : Sig) : Bool :=
  s.spliced &&
    ((match s.cur.desc.image.splice with
      | some d => z.names.any fun r => !maskCovers d r
      | none => false) ||
     (let sp := (s.core s.focus).pairOf s.cur.desc.uid
      s.cur.desc.uid == sp.c && z.names.any fun r => match r with
        | .k n => (forwardedScales (s.node sp.p) s.cur).contains n
        | _ => false))

/-- A word of the instruction set: an ill-formed word takes the illegal-encoding trap (R141), one that names a register outside the partition
the partition fault (R59); a suppressed word has no effect (R132); otherwise its entry's effect. -/
def word (i : Instr) (s : State) (body : State → State) : Result :=
  if !i.wf then .next (s.trapHere 1 0)
  else if !partitionOk s.cur.ctl.part i.sig then .next (s.trapHere 2 0)
  else if suppressed s.cur i.sig then .next s
  else if s.spliceFault i.sig then .next (s.trapHere 6 0)
  else .next (body s)

/-- Signed and unsigned values of a scalar register. -/
def State.sv (s : State) (r : BitVec 5) : Int := (s.cur.s r).toInt
def State.uv (s : State) (r : BitVec 5) : Nat := (s.cur.s r).toNat

/-- A truth value as a scalar or predicate result. -/
def State.setP (s : State) (p : BitVec 3) (v : Bool) : State := s.pushP 1 p v

/-! ## Transfers of control (R134, R162) -/

/-- The address of the packet that holds an address (R134, R162). -/
def packetOf (ovl : Bool) (a : BitVec 22) : Nat := a.toNat - offsetOf ovl a.toNat % 12

/-- A transfer to an instruction address: the target alignment fault when it is no multiple of 12 (R134). DEDUCED: log entry 19. -/
def State.jumpTo (s : State) (target : Nat) : State :=
  if 2 ^ 22 ≤ target ∨ offsetOf s.cur.desc.image.ovl target % 12 ≠ 0 then s.trapHere 0x0C (BitVec.ofNat 64 target)
  else s.addPost (.jump (BitVec.ofNat 22 target) false)

/-- A relative transfer by k packets (R162): in an overlay image on the byte offset within the segment, whose number stays that of P. A target outside
the range of addresses faults when it is fetched. -/
def State.jumpRel (s : State) (k : Int) : State :=
  let ovl := s.cur.desc.image.ovl
  let p := packetOf ovl s.bnd.addr
  let off := (offsetOf ovl p : Int) + 12 * k
  let lim : Int := if ovl then 65536 else 2 ^ 22
  let base := p - offsetOf ovl p
  s.addPost (.jump (BitVec.ofNat 22 (base + lowBits (if ovl then 16 else 22) off)) (decide (off < 0 ∨ lim ≤ off)))

/-! ## Engine flags (R165) -/

/-- DONE(e) for CA, CB, EPI, LINK. -/
def Node.done (n : Node) (e : BitVec 2) : Bool :=
  if e = 0 then n.eng.ca.isEmpty && n.eng.caArmed.isEmpty
  else if e = 1 then n.eng.cb.isEmpty && n.eng.cbArmed.isEmpty
  else if e = 2 then n.eng.epi.isEmpty
  else n.eng.sends.isEmpty && n.eng.armed.isEmpty && n.eng.colls.isEmpty && n.eng.aborts.isEmpty

/-- The engines of a node work while it runs or retires (R354, R360). -/
def Node.live (n : Node) : Bool := (n.run.st == .running || n.run.st == .retiring) && !n.run.quiesced

/-- CTL.EFLG (R319). -/
def Node.eflg (n : Node) : Word :=
  BitVec.ofNat 64 ((if n.done 0 then 1 else 0) + (if n.done 1 then 2 else 0) + (if n.done 2 then 4 else 0) + (if n.done 3 then 8 else 0) + 16 * n.ctl.flt.toNat)

/-- Set FAULT(e) (R165). -/
def Node.setFault (n : Node) (e : BitVec 2) : Node := { n with ctl := { n.ctl with flt := n.ctl.flt ||| BitVec.ofNat 4 (2 ^ e.toNat) } }

end Sys2Proof.Machine
end

