-- ==== Sys2Proof/Machine/Count.lean ====
section
/-! DEFINITION. The counters of a node and what waits on them (R279, R303 to R307, R325, R337): the control word of engine commands (R276), the queues of a
copy slot (R273), armed commands, and the conditions on the issue of a node's next bundle. Every counter addition of an engine goes through one operation. -/

namespace Sys2Proof.Machine

/-! ## Fields of the copy control word (R276) and of the extra registers (R279) -/

def ctlSh (c : Word) : Int := signExt 7 (fieldN c 53 7 : Int)
def ctlRm (c : Word) : BitVec 2 := c.extractLsb' 51 2
def ctlCe (c : Word) : Bool := c.getLsbD 50
def ctlScope (c : Word) : BitVec 4 := c.extractLsb' 46 4
def ctlRel (c : Word) : BitVec 1 := c.extractLsb' 45 1
def ctlAcq (c : Word) : BitVec 1 := c.extractLsb' 44 1
def ctlUi (c : Word) : Bool := c.getLsbD 43
def ctlCv (c : Word) : Bool := c.getLsbD 42
def ctlCnt (c : Word) : BitVec 6 := c.extractLsb' 36 6

def fanCount (x : Word) : Nat := fieldN x 0 5 + 1
def fanDim (x : Word) : Nat := fieldN x 5 3
def fanStride (x : Word) : Nat := fieldN x 8 18
def trigThreshold (x : Word) : Nat := fieldN x 0 32
def trigCounter (x : Word) : Nat := fieldN x 32 6

/-- Change a node in place. -/
def State.mapNode (s : State) (uid : Nat) (f : Node → Node) : State := s.setNode (f (s.node uid))

/-! ## The queues of a copy slot (R273) and of the link engine -/

def Eng.queue (e : Eng) (cb : Bool) : List CopyCmd := if cb then e.cb else e.ca
def Eng.armedOf (e : Eng) (cb : Bool) : List CopyCmd := if cb then e.cbArmed else e.caArmed
def Eng.setQueue (e : Eng) (cb : Bool) (l : List CopyCmd) : Eng := if cb then { e with cb := l } else { e with ca := l }
def Eng.setArmed (e : Eng) (cb : Bool) (l : List CopyCmd) : Eng := if cb then { e with cbArmed := l } else { e with caArmed := l }

/-- The nodes that share the engines of a node's core: the resident nodes, of which one that is to be resumed has none of its commands there yet (R356), or the node
alone when it is on no core. -/
def State.sharers (s : State) (uid : Nat) : List Node :=
  match s.coreOf uid with
  | some c => ((c.slots.toList.filter (· != 0)).map s.node).filter fun n => n.desc.uid == uid || !(n.run.st == .placed)
  | none => [s.node uid]

/-- Commands queued in a slot of a node's core, over its resident nodes (R273). -/
def State.slotLoad (s : State) (uid : Nat) (cb : Bool) : Nat := ((s.sharers uid).map fun n => (n.eng.queue cb).length).sum

/-- The commands of a slot that have fired and not yet joined its queue, for want of room, in arming order of the node (R279). DEDUCED: log entry 33. -/
def Eng.firedOf (e : Eng) (cb : Bool) : List CopyCmd := (e.armedOf cb).filter (·.fired)

/-- The place behind the last command of a slot (R273, R280). -/
def State.nextSeq (s : State) (uid : Nat) (cb : Bool) : Nat :=
  maxNat ((s.sharers uid).map fun n => maxNat ((n.eng.queue cb ++ n.eng.firedOf cb).map (·.seq))) + 1

/-- The commands of a queue up to the last that has begun writing: their number (R282, R354). -/
def begunLen : List CopyCmd → Nat
  | [] => 0
  | c :: rest => if 0 < begunLen rest then begunLen rest + 1 else if c.progress.done.isEmpty then 0 else 1

/-- The condition that fires an armed command holds (R279, R337). -/
def Node.triggered (n : Node) (x : Word) : Bool := decide (trigThreshold x ≤ (n.regs.c[trigCounter x]?.getD 0).toNat)

/-- The command with the least place. -/
def leastSeq : List (Nat × CopyCmd) → Option (Nat × CopyCmd)
  | [] => none
  | a :: rest =>
    match leastSeq rest with
    | none => some a
    | some b => if b.2.seq < a.2.seq then some b else some a

/-- The command that joins a slot's queue next, with its node: of those that have fired, over the core's resident nodes, the one that fired first (R273, R279).
DEDUCED: log entry 33. -/
def State.firstFired (s : State) (uid : Nat) (cb : Bool) : Option (Nat × CopyCmd) :=
  leastSeq ((s.sharers uid).flatMap fun n => (n.eng.firedOf cb).map fun c => (n.desc.uid, c))

/-- Commands of a slot that have fired join the tail of its queue in the order in which they fired, as far as it has room (R279). DEDUCED: log entry 33. -/
def State.joinFired (s : State) (uid : Nat) (cb : Bool) : Nat → State
  | 0 => s
  | fuel + 1 =>
    match s.firstFired uid cb with
    | none => s
    | some (v, c) =>
      if 16 ≤ s.slotLoad uid cb then s
      else
        let n := s.node v
        let e := n.eng.setArmed cb ((n.eng.armedOf cb).erase c)
        State.joinFired (s.setNode { n with eng := e.setQueue cb (e.queue cb ++ [c]) }) uid cb fuel

/-- Of armed commands, those that have fired in the order in which they did, those that fire now behind them in arming order, and the others (R279, R337). -/
def fireIn {α : Type} (fired fires : α → Bool) (mark : α → Nat → α) (l : List α) : List α :=
  l.filter fired ++ ((l.filter fun c => !fired c && fires c).zipIdx.map fun e => mark e.1 e.2) ++ l.filter fun c => !(fired c || fires c)

/-- The copy commands of a slot of a node that the test names fire now, behind everything of the slot. -/
def State.fireSlot (s : State) (uid : Nat) (cb : Bool) (fires : CopyCmd → Bool) : State :=
  let k := s.nextSeq uid cb
  let s := s.mapNode uid fun n => { n with eng := n.eng.setArmed cb (fireIn (·.fired) fires (fun c i => { c with fired := true, seq := k + i }) (n.eng.armedOf cb)) }
  s.joinFired uid cb ((s.node uid).eng.armedOf cb).length

/-- The queued copy commands of a node that comes to a core stand behind those of its slots there, in their own order, and join as far as there is room (R273).
DEDUCED: log entry 33. -/
def State.reseat (s : State) (uid : Nat) : State :=
  let seat := fun (s : State) (cb : Bool) =>
    let e := (s.node uid).eng
    let s := s.mapNode uid fun n => { n with eng := e.setQueue cb [] }
    let k := s.nextSeq uid cb
    let back := (e.queue cb ++ e.firedOf cb).zipIdx.map fun x => { x.1 with fired := true, seq := k + x.2 }
    let s := s.mapNode uid fun n => { n with eng := n.eng.setArmed cb (back ++ (e.armedOf cb).filter fun c => !c.fired) }
    s.joinFired uid cb back.length
  seat (seat s false) true

/-- Armed sends that have fired join the tail of the link engine's queue in the order in which they fired, as far as it has room (R337). DEDUCED: log entry 33. -/
def Eng.joinSends (e : Eng) : Nat → Eng
  | 0 => e
  | fuel + 1 =>
    match e.armed.find? (·.fired) with
    | none => e
    | some c => if 16 ≤ e.sends.length then e else Eng.joinSends { e with armed := e.armed.erase c, sends := e.sends ++ [c] } fuel

/-- Every armed command of a node whose counter has reached its threshold fires (R279, R337): it joins the tail of its queue, or stands before every later
command of its slot or engine until there is room. DEDUCED: log entry 33. -/
def State.fireArmed (s : State) (uid : Nat) : State :=
  let n := s.node uid
  let e := { n.eng with armed := fireIn (·.fired) (fun c => n.triggered c.trigger) (fun c _ => { c with fired := true }) n.eng.armed }
  if uid = 0 ∨ (n.eng.caArmed = [] ∧ n.eng.cbArmed = [] ∧ n.eng.armed = []) then s
  else
    let s := s.setNode { n with eng := e.joinSends e.armed.length }
    (s.fireSlot uid false fun c => n.triggered c.x).fireSlot uid true fun c => n.triggered c.x

/-! ## Conditions on the issue of the next bundle (R305 to R307, R325) -/

/-- A command with UI = 1 is outstanding (R325). -/
def Eng.uiPending (e : Eng) : Bool :=
  (e.ca ++ e.caArmed ++ e.cb ++ e.cbArmed).any (fun c => ctlUi c.sw1) || (e.sends ++ e.armed).any (fun c => ctlUi c.ctrl) || e.colls.any (·.ui)

/-- A condition on the issue of the next bundle holds. -/
def Node.holds (n : Node) (w : Wait) : Bool :=
  match w with
  | .cwait c t => decide (t.toNat ≤ (n.regs.c[c.toNat]).toNat)
  | .barb c t => decide (t.toNat ≤ (n.regs.c[c.toNat]).toNat)
  | .bar m => (List.range 4).all fun e => !m.getLsbD e || n.done (BitVec.ofNat 2 e)
  | .idle => !n.ctl.ui.recs.isEmpty || !n.eng.uiPending

/-- CWAIT and BARB wait on a counter. -/
def Wait.counts (w : Wait) : Bool :=
  match w with
  | .cwait .. => true
  | .barb .. => true
  | _ => false

/-- What the end of a wait subtracts: a BARB's target from its counter (R306). -/
def Node.subtract (n : Node) (w : Wait) : Node :=
  match w with
  | .barb c t => { n with regs := { n.regs with c := n.regs.c.setIfInBounds c.toNat (n.regs.c[c.toNat] - t.extractLsb' 0 32) } }
  | _ => n

/-- A BARB that has subtracted issues its next bundle before a pre-emption is taken (R326); one of 0 bytes subtracts nothing (R306). -/
def Wait.subtracts (w : Wait) : Bool :=
  match w with
  | .barb _ t => t != 0
  | _ => false

/-- Every condition that a node waits on: those of its next bundle, and those of the bundles that its handlers interrupt (R296). -/
def Ctl.allWaits (c : Ctl) : List Wait := c.waits ++ c.uiWaits ++ c.trapWaits

/-- A BARB of the node has subtracted and its next bundle has not issued (R326). -/
def Ctl.bound (c : Ctl) : Bool := c.mustIssue || c.uiMust || c.trapMust

/-- The conditions that hold end, all tested against the same values; what a BARB subtracts follows. Those that a handler interrupts are among them. The end of a
wait is an acquire: nothing that the front end has read ahead stands (R292).
DEDUCED: log entry 20. DEDUCED: log entry 76. -/
def Node.settleWaits (n : Node) : Node :=
  let c := n.ctl
  let left := fun (l : List Wait) => l.filter fun w => !n.holds w
  let sub := fun (l : List Wait) => (l.filter n.holds).any Wait.subtracts
  let m := (c.allWaits.filter n.holds).foldl Node.subtract n
  { m with run := { m.run with ahead := if c.allWaits.any n.holds then [] else m.run.ahead }
           ctl := { m.ctl with waits := left c.waits, uiWaits := left c.uiWaits, trapWaits := left c.trapWaits,
                               mustIssue := c.mustIssue || sub c.waits, uiMust := c.uiMust || sub c.uiWaits, trapMust := c.trapMust || sub c.trapWaits } }

/-- The waits of a node end directly after the counter update that satisfies them (R305, R306); a node that has been stopped for a pre-emption tests
them again when it runs (R326). -/
def State.settleWaits (s : State) (uid : Nat) : State :=
  let n := s.node uid
  if n.live && n.ctl.allWaits.any n.holds then s.setNode n.settleWaits else s

/-! ## Counters -/

/-- Add to a receive or completion counter, modulo 2^32 (R280). -/
def Node.addCounter (n : Node) (c : BitVec 6) (v : Nat) : Node :=
  { n with regs := { n.regs with c := n.regs.c.setIfInBounds c.toNat (n.regs.c[c.toNat] + BitVec.ofNat 32 v) } }

/-- An engine adds to a counter of a node (R281, R303): one update, directly followed by what it fires and by the waits that it satisfies. -/
def State.addCounter (s : State) (uid : Nat) (c : BitVec 6) (v : Nat) : State := ((s.mapNode uid fun n => n.addCounter c v).fireArmed uid).settleWaits uid

/-- Queue a completion record (R284). -/
def Node.addRecord (n : Node) (slot : BitVec 1) (cnt : BitVec 6) : Node :=
  let u := n.ctl.ui
  { n with ctl := { n.ctl with ui := if 32 ≤ u.recs.length then { u with ovf := true } else { u with recs := u.recs ++ [(slot, cnt)] } } }

/-! ## The order of a node's commands (R292) -/

/-- The places, among the node's commands, of those of one engine that are outstanding: an armed command that has not fired is none. -/
def Eng.ords (e : Eng) (engine : BitVec 2) : List Nat :=
  if engine = 0 then e.ca.map (·.ord) ++ (e.caArmed.filter (·.fired)).map (·.ord)
  else if engine = 1 then e.cb.map (·.ord) ++ (e.cbArmed.filter (·.fired)).map (·.ord)
  else if engine = 2 then e.epi.map fun c => match c with
    | .add c => c.ord
    | .send c => c.ord
  else e.sends.map (·.ord) ++ (e.armed.filter (·.fired)).map (·.ord) ++ e.colls.map (·.ord)

/-- Every command that the node issued before another, in another engine, has been performed: an acquire before the command's first read (R280, R292).
DEDUCED: log entry 3. -/
def Eng.acquired (e : Eng) (engine : BitVec 2) (ord : Nat) : Bool :=
  (List.range 4).all fun x => BitVec.ofNat 2 x == engine || (e.ords (BitVec.ofNat 2 x)).all fun o => decide (ord ≤ o)

/-- The next command of the node takes its place. -/
def Eng.take (e : Eng) : Eng := { e with nextOrd := e.nextOrd + 1 }

end Sys2Proof.Machine
end

