-- ==== Sys2Proof/Machine/Element.lean ====
section
/-! DEFINITION. Tensor elements through a handle: their bytes and shift bytes (R28 to R36, R52, R53), reads, planned writes, and what a write does
to the scale register (R37, R40, R46). Tiles are loaded and stored through these (R202 to R205), and the engines use them (R229, R278). -/

namespace Sys2Proof


/-- The block of an element (R32). -/
def Handle.block (h : Handle) (x : List Nat) : Nat :=
  if h.ori then
    let x0 := x.headD 0
    let x1 := (x.drop 1).headD 0
    x0 + h.ext 0 * (x1 / 32 + h.ext 1 / 32 * linIndex (h.exts.drop 2) (x.drop 2))
  else linIndex h.exts x / 32

/-- The position of an element in its block (R32). -/
def Handle.blockPos (h : Handle) (x : List Nat) : Nat := if h.ori then (x.drop 1).headD 0 % 32 else linIndex h.exts x % 32

/-- The coordinates of position i of the block that holds x (R32). -/
def Handle.blockCell (h : Handle) (x : List Nat) (i : Nat) : List Nat :=
  let d := if h.ori then 1 else 0
  (List.range 5).map fun k => if k = d then (x.getD k 0) / 32 * 32 + i else x.getD k 0

end Sys2Proof

namespace Sys2Proof.Machine

/-- The value of an element read: e, or e times 2^m (R31). -/
def ElemRead.value (e : ElemRead) (w : Nat) : Int := signExt w (e.bits : Int) * 2 ^ e.m

/-- The first byte of a range that does not translate: its offset. -/
def State.faultAt (s : State) (n : Node) (tid off len : Nat) (write : Bool) : Nat :=
  off + ((List.range len).find? fun k => match s.locate n tid (off + k) write with
    | .error _ => true
    | .ok _ => false).getD 0

/-- Read the element at tensor coordinates x: the fault and its byte offset, or the element. -/
def State.readElem (s : State) (n : Node) (h : Handle) (x : List Nat) : Except (MFault × Nat) ElemRead :=
  let w := fmtWidth h.fmt
  let idx := linIndex h.exts x
  let off := dataOff w idx
  match s.readBytes n h.tid off (dataLen w) with
  | .error f => .error (f, s.faultAt n h.tid off (dataLen w) false)
  | .ok (bs, g) =>
    let v := leNat (bs.map (·.1))
    let bits := if w = 4 then (if idx % 2 = 0 then v % 16 else v / 16) else v
    let poi := bs.any (·.2)
    if !fmtBlock h.fmt then .ok { bits := bits, m := 0, poison := poi, corrected := none, guard := g }
    else
      let so := h.shiftPlane + h.block x
      match s.readByte n h.tid so with
      | .error f => .error (f, so)
      | .ok (b, p, g') =>
        let sh := decodeShift b
        .ok { bits := bits, m := sh.m, poison := poi || p || sh.poisoned, corrected := if sh.corrected then some (so, s.memoryAt n h.tid so) else none,
              guard := g <|> g' }

/-- A byte to be written: its place, the bits of it that are written, their value and the poison mark. -/
structure ByteWrite where
  place : Place
  mask : Byte
  val : Byte
  poison : Bool
deriving DecidableEq, Repr

/-- A byte as it stands for a node at a place that has been translated. -/
def State.atPlace (s : State) (uid : Nat) (pl : Place) : Byte × Bool :=
  let n := s.node uid
  match pl with
  | .pool x _ => ((cellGet? n.run.scr.cells x).getD 0, n.run.scr.poison.contains x)
  | .phys pa p =>
    match s.seenStaged n pa with
    | some b => b
    | none => (s.byte pa, s.poisoned pa || p)

/-- The places that the accesses of elements reach, suppressed ones left out; none where one of them faults. -/
def State.elemPlaces (s : State) (n : Node) (h : Handle) (write : Bool) : List (List Nat) → Option (List Place)
  | [] => some []
  | x :: rest =>
    let w := fmtWidth h.fmt
    let offs := if inside h.exts x then (List.range (dataLen w)).map (dataOff w (linIndex h.exts x) + ·) ++ (if fmtBlock h.fmt then [h.shiftPlane + h.block x] else []) else []
    match offs.mapM (fun o => s.locate n h.tid o write), State.elemPlaces s n h write rest with
    | .ok ps, some l => some (ps ++ l)
    | _, _ => none

/-- Perform one planned byte write; the bits outside the mask keep their value and their poison (R29). DEDUCED: log entry 53. -/
def State.doWrite (s : State) (uid : Nat) (w : ByteWrite) : State :=
  let old := s.atPlace uid w.place
  s.writePlace uid w.place ((old.1 &&& ~~~w.mask) ||| (w.val &&& w.mask)) (w.poison || (w.mask != 0xFF#8 && old.2))

/-- Perform planned writes in order, with the guard granules they touch. -/
def State.doWrites (s : State) (uid : Nat) (unit : BitVec 3) (addr : Option (BitVec 22)) (l : List ByteWrite) : State :=
  (l.foldl (fun s w => s.doWrite uid w) s).touch uid unit addr (firstGuard (l.map (·.place)))

/-- Plan the write of the stored bits of one element: the fault and its byte offset, or its byte writes. The last nibble of an odd count stores zero above it (R29). -/
def State.planElem (s : State) (n : Node) (h : Handle) (x : List Nat) (bits : Nat) (poison : Bool) : Except (MFault × Nat) (List ByteWrite) :=
  let w := fmtWidth h.fmt
  let idx := linIndex h.exts x
  let off := dataOff w idx
  match s.places n h.tid off (dataLen w) with
  | .error f => .error (f, s.faultAt n h.tid off (dataLen w) true)
  | .ok ps =>
    if w = 4 then
      let last := idx + 1 == h.total && idx % 2 == 0
      let mask : Byte := if last then 0xFF else if idx % 2 = 0 then 0x0F else 0xF0
      let v : Byte := BitVec.ofNat 8 (if idx % 2 = 0 then bits % 16 else bits % 16 * 16)
      .ok (ps.map fun p => { place := p, mask := mask, val := v, poison := poison })
    else .ok ((ps.zip (leBytes bits (dataLen w))).map fun e => { place := e.1, mask := 0xFF, val := e.2, poison := poison })

/-- Plan the write of a block's shift byte (R33, R34). -/
def State.planShift (s : State) (n : Node) (h : Handle) (x : List Nat) (m : Nat) (poison : Bool) : Except (MFault × Nat) (List ByteWrite) :=
  let so := h.shiftPlane + h.block x
  match s.locate n h.tid so true with
  | .error f => .error (f, so)
  | .ok p => .ok [{ place := p, mask := 0xFF, val := shiftByte m, poison := poison }]

/-- Plan a list of writes; the first fault ends it. -/
def planAll {α : Type} (f : α → Except (MFault × Nat) (List ByteWrite)) : List α → Except (MFault × Nat) (List ByteWrite)
  | [] => .ok []
  | a :: rest =>
    match f a with
    | .error e => .error e
    | .ok l =>
      match planAll f rest with
      | .error e => .error e
      | .ok r => .ok (l ++ r)

/-- Corrected shift bytes among elements read, each counted once in the correctable-error counter of the memory that held it (R35, R369). -/
def State.countCorrected (s : State) (uid : Nat) (l : List (Option ElemRead)) : State :=
  let found := (l.filterMap fun e => e.bind (·.corrected)).foldl (fun (acc : List (Nat × Memory)) c => if acc.contains c then acc else acc ++ [c]) []
  found.foldl (fun s c => s.countCorrectable uid c.2) s

/-! ## What a write does to the scale register -/

/-- Census, SAT and POI of a write through a handle that belongs to a census window (R37, R40, R42, R46). -/
def Node.noteWrite (n : Node) (h : Handle) (win : Nat) (census : Option Nat) (sat poi : Bool) : Node :=
  let r := match census with
    | some c => if h.cen then n.regs.census h.kidx win c else n.regs
    | Option.none => n.regs
  { n with regs := (r.flagK h.kidx 21 sat).flagK h.kidx 22 poi }

/-- The census window in which a word of the node issues now (R42). -/
def Node.window (n : Node) (h : Handle) : Nat := n.ctl.cissued[h.kidx]?.getD 0

/-- The least of a list of census values; none for the empty list. -/
def leastCensus (l : List Nat) : Option Nat := if l.isEmpty then none else some (l.foldl min 32)

/-! ## Faults of address generators -/

/-- The tensor-relative address of a byte (R54). -/
def tensorAddr (tid off : Nat) : Word := BitVec.ofNat 64 (tid * 2 ^ 44 + off)

/-- A fault met by a word of the front end: an access fault is a trap before bundle b + 6 (R269, R397), every other one stops the node (R258). -/
def State.wordFault (s : State) (f : MFault) (val : Word) : State :=
  match f with
  | .access => s.trapLater 6 0x11 val
  | f => s.rewind.memFault s.cur.desc.uid f

/-- A handle that fails its checks at a word's bundle (R52, R65): the trap with the handle's number, bit 4 for a destination; an access
fault with the address of the first faulting byte (R347). -/
def State.handleFault (s : State) (f : HandleFault) (num : BitVec 4) (dest : Bool) (h : Handle) : State :=
  match f with
  | .cause c => s.trapHere c (BitVec.ofNat 64 (num.toNat + if dest then 16 else 0))
  | .mem m => s.wordFault m (tensorAddr h.tid h.firstByte)

/-- A handle that fails its checks at a word of an engine (R229, R277, R333): every trap is precise at the bundle, an access fault of check 4 too. -/
def State.engineFault (s : State) (f : HandleFault) (num : BitVec 4) (dest : Bool) (h : Handle) : State :=
  match f with
  | .mem .access => s.trapHere 0x11 (tensorAddr h.tid h.firstByte)
  | f => s.handleFault f num dest h

/-- The node consumes poisoned data (R358): it is rolled back, or fails; the cause is counted (R345). -/
def State.consume (s : State) : State := (s.rewind.countCause s.cur.desc.uid 0x33).rollback s.cur.desc.uid none

end Sys2Proof.Machine
end

