-- ==== Sys2Proof/Machine/Vector.lean ====
section
/-! DEFINITION. The words of classes V, VI and VL on tiles (R181 to R200). -/

namespace Sys2Proof.Machine

/-- A tile as a word reads it at issue (R144, R181): its slot, its shape, its image, its poison marks and its SAT bit. -/
structure TileView where
  slot : BitVec 6
  w : Nat
  rows : Nat
  cols : Nat
  bits : Nat
  poison : Nat
  sat : Bool
  legal : Bool
deriving DecidableEq, Repr

/-- The tile that a name reaches (R169). -/
def Node.tileView (n : Node) (slots : Nat) (t : BitVec 6) : TileView :=
  let sl := n.slot t
  let ts := n.regs.ts[sl.toNat]
  let im := n.regs.tile[sl.toNat]
  { slot := sl, w := shapeW ts, rows := shapeRows ts, cols := shapeCols ts, bits := im.bits, poison := im.poison, sat := shapeSat ts, legal := shapeLegal slots ts }

def State.tv (s : State) (t : BitVec 6) : TileView := s.cur.tileView s.slabs t

/-- N(t), the element count (R181). -/
def TileView.n (t : TileView) : Nat := t.rows * t.cols
def TileView.bit (t : TileView) (i : Nat) : Nat := tileBits t.bits t.w i
def TileView.get (t : TileView) (u : Bool) (i : Nat) : Int := tileGet t.bits t.w u i
def TileView.poi (t : TileView) (i : Nat) : Bool := elemPoison t.poison t.w i

/-- Same grid and same shape (R183). -/
def TileView.grid (t u : TileView) : Bool := t.rows == u.rows && t.cols == u.cols
def TileView.same (t u : TileView) : Bool := t.grid u && t.w == u.w

/-- The row-block count B (R147). -/
def State.blocks (s : State) (l : List TileView) : Nat := maxNat (l.map fun t => ceilDiv (t.rows * t.cols * t.w) (65536 * s.slabs))

/-- A vector word whose tiles break its conditions, or have an illegal shape, takes the tile shape fault (R183, R216). -/
def State.vword (s : State) (l : List TileView) (ok : Bool) (body : State → State) : State :=
  if (l.all fun t => t.legal) && ok then body s else s.trapHere 3 0

/-- The result of a vector word: every element of the destination, with its clamp and its poison; SAT is set by a clamp or a source's SAT (R184). -/
def State.putTile (s : State) (dist : Nat) (d : TileView) (out : List ((Nat × Bool) × Bool)) (srcSat : Bool) : State :=
  s.push dist (.tile d.slot (2 ^ (d.w * d.n) - 1) (packBits d.w (out.map fun e => e.1.1)) (packPoison d.w (out.map fun e => e.2))
    (srcSat || out.any fun e => e.1.2) false)

/-- One source, element by element. -/
def State.vun (s : State) (mul : Nat) (u : Bool) (d a : BitVec 6) (ok : TileView → TileView → Bool) (f : Nat → Nat → Int → Nat × Bool) : State :=
  let D := s.tv d
  let A := s.tv a
  s.vword [D, A] (ok D A) fun s =>
    s.putTile (mul * s.blocks [D, A]) D ((List.range D.n).map fun i => (f D.w A.w (A.get u i), A.poi i)) A.sat

/-- Two sources, element by element. -/
def State.vbin (s : State) (mul : Nat) (u : Bool) (d a b : BitVec 6) (ok : TileView → TileView → TileView → Bool)
    (f : Nat → Nat → Int → Int → Nat × Bool) : State :=
  let D := s.tv d
  let A := s.tv a
  let B := s.tv b
  s.vword [D, A, B] (ok D A B) fun s =>
    s.putTile (mul * s.blocks [D, A, B]) D ((List.range D.n).map fun i => (f D.w A.w (A.get u i) (B.get u i), A.poi i || B.poi i)) (A.sat || B.sat)

/-- Two sources and the destination as a third, element by element (R139). -/
def State.vtri (s : State) (mul : Nat) (u : Bool) (d a b : BitVec 6) (ok : TileView → TileView → TileView → Bool)
    (f : Nat → Int → Int → Int → Nat × Bool) : State :=
  let D := s.tv d
  let A := s.tv a
  let B := s.tv b
  s.vword [D, A, B] (ok D A B) fun s =>
    s.putTile (mul * s.blocks [D, A, B]) D
      ((List.range D.n).map fun i => (f D.w (A.get u i) (B.get u i) (D.get u i), A.poi i || B.poi i || D.poi i)) (A.sat || B.sat || D.sat)

/-- The shift of VSHRN and VCVT (R190): an immediate, or a scalar register clamped to 0..63. -/
def State.shiftCount (s : State) (b : BitVec 6) : Nat := if b.getLsbD 5 then clamp63 (s.sv (b.extractLsb' 0 5)) else fieldN b 0 5

/-- The rounding of the current node (R6, R45). -/
def State.rounding (s : State) (mode : BitVec 2) : Rounding := { mode := mode, seed := s.cur.ctl.seed.toNat, step := s.cur.ctl.step.toNat }

/-- The hash index of a tile element: through an index handle, or the index in the tile (R190). DEDUCED: log entry 66. -/
def tileIndex (hx : Option Handle) (cols i : Nat) : Nat :=
  match hx with
  | none => i
  | some h => h.index [h.org 0 + i % cols, h.org 1 + i / cols, h.org 2, h.org 3, h.org 4]

/-- The reductions of R196 over rows, columns or the whole tile. -/
def State.vreduce (s : State) (x : BitVec 2) (u : Bool) (d a : BitVec 6) (f : List Int → Int) : State :=
  let D := s.tv d
  let A := s.tv a
  s.vword [D, A] (A.grid D) fun s =>
    let set := fun r c : Nat =>
      if x = 0 then (List.range D.cols).map fun k => r * D.cols + k
      else if x = 1 then (List.range D.rows).map fun k => k * D.cols + c
      else List.range D.n
    let out := (List.range D.n).map fun i =>
      let r := i / D.cols
      let c := i % D.cols
      if (x = 0 ∧ c = 0) ∨ (x = 1 ∧ r = 0) ∨ (x = 2 ∧ i = 0) then
        (putSat D.w u (f ((set r c).map (A.get u))), (set r c).any A.poi)
      else ((0, false), false)
    s.putTile (4 * s.blocks [D, A] + 8) D out A.sat

/-- One element of VLUT3, bit by bit (R198). -/
def lutBits (lut x y z : Nat) : Nat → Nat
  | 0 => 0
  | w + 1 =>
    let k := (if x.testBit w then 4 else 0) + (if y.testBit w then 2 else 0) + (if z.testBit w then 1 else 0)
    (if lut.testBit k then 2 ^ w else 0) + lutBits lut x y z w

/-- VADD (R186): Adds two tiles element-wise, wrapping. -/
def execVadd (q : BitVec 2) (u : BitVec 1) (d : BitVec 6) (a : BitVec 6) (b : BitVec 6) (σ : State) : Result :=
  word (.vadd q u d a b) σ fun σ => σ.vbin 4 (u == 1) d a b (fun D A B => A.grid D && B.grid D && A.w == B.w && decide (A.w ≤ D.w)) fun w _ x y => putWrap w (x + y)

/-- VSUB (R186): Subtracts two tiles element-wise, wrapping. -/
def execVsub (q : BitVec 2) (u : BitVec 1) (d : BitVec 6) (a : BitVec 6) (b : BitVec 6) (σ : State) : Result :=
  word (.vsub q u d a b) σ fun σ => σ.vbin 4 (u == 1) d a b (fun D A B => A.grid D && B.grid D && A.w == B.w && decide (A.w ≤ D.w)) fun w _ x y => putWrap w (x - y)

/-- VADDS (R186): Adds two tiles element-wise with saturation. -/
def execVadds (q : BitVec 2) (u : BitVec 1) (d : BitVec 6) (a : BitVec 6) (b : BitVec 6) (σ : State) : Result :=
  word (.vadds q u d a b) σ fun σ => σ.vbin 4 (u == 1) d a b (fun D A B => A.grid D && B.grid D && A.w == B.w && decide (A.w ≤ D.w)) fun w _ x y => putSat w (u == 1) (x + y)

/-- VSUBS (R186): Subtracts two tiles element-wise with saturation. -/
def execVsubs (q : BitVec 2) (u : BitVec 1) (d : BitVec 6) (a : BitVec 6) (b : BitVec 6) (σ : State) : Result :=
  word (.vsubs q u d a b) σ fun σ => σ.vbin 4 (u == 1) d a b (fun D A B => A.grid D && B.grid D && A.w == B.w && decide (A.w ≤ D.w)) fun w _ x y => putSat w (u == 1) (x - y)

/-- VMUL (R186): Multiplies two tiles element-wise, wrapping or saturating. -/
def execVmul (q : BitVec 2) (s : BitVec 1) (u : BitVec 1) (d : BitVec 6) (a : BitVec 6) (b : BitVec 6) (σ : State) : Result :=
  word (.vmul q s u d a b) σ fun σ =>
    σ.vbin 6 (u == 1) d a b (fun D A B => A.grid D && B.grid D && A.w == B.w && decide (A.w ≤ D.w)) fun w _ x y => if s = 1 then putSat w (u == 1) (x * y) else putWrap w (x * y)

/-- VMULH (R186): Writes the high part of each element-wise product. -/
def execVmulh (q : BitVec 2) (u : BitVec 1) (d : BitVec 6) (a : BitVec 6) (b : BitVec 6) (σ : State) : Result :=
  word (.vmulh q u d a b) σ fun σ => σ.vbin 6 (u == 1) d a b (fun D A B => A.grid D && B.grid D && A.w == B.w && A.w == D.w) fun w wa x y => putWrap w (asr (x * y) wa)

/-- VMAC (R186): Adds the element-wise product of two tiles into the destination tile. -/
def execVmac (q : BitVec 2) (s : BitVec 1) (u : BitVec 1) (d : BitVec 6) (a : BitVec 6) (b : BitVec 6) (σ : State) : Result :=
  word (.vmac q s u d a b) σ fun σ =>
    σ.vtri 6 (u == 1) d a b (fun D A B => A.grid D && B.grid D && A.w == B.w && decide (A.w ≤ D.w)) fun w x y z => if s = 1 then putSat w (u == 1) (z + x * y) else putWrap w (z + x * y)

/-- VMIN (R186): Writes the element-wise minimum of two tiles. -/
def execVmin (q : BitVec 2) (u : BitVec 1) (d : BitVec 6) (a : BitVec 6) (b : BitVec 6) (σ : State) : Result :=
  word (.vmin q u d a b) σ fun σ => σ.vbin 4 (u == 1) d a b (fun D A B => A.grid D && B.grid D && A.w == B.w && A.w == D.w) fun w _ x y => putWrap w (min x y)

/-- VMAX (R186): Writes the element-wise maximum of two tiles. -/
def execVmax (q : BitVec 2) (u : BitVec 1) (d : BitVec 6) (a : BitVec 6) (b : BitVec 6) (σ : State) : Result :=
  word (.vmax q u d a b) σ fun σ => σ.vbin 4 (u == 1) d a b (fun D A B => A.grid D && B.grid D && A.w == B.w && A.w == D.w) fun w _ x y => putWrap w (max x y)

/-- VAND (R187): Writes the element-wise AND of two tiles. -/
def execVand (q : BitVec 2) (d : BitVec 6) (a : BitVec 6) (b : BitVec 6) (σ : State) : Result :=
  word (.vand q d a b) σ fun σ => σ.vbin 4 true d a b (fun D A B => A.grid D && B.grid D && A.w == B.w && A.w == D.w) fun w _ x y => putWrap w (((x.toNat &&& y.toNat) : Nat) : Int)

/-- VOR (R187): Writes the element-wise OR of two tiles. -/
def execVor (q : BitVec 2) (d : BitVec 6) (a : BitVec 6) (b : BitVec 6) (σ : State) : Result :=
  word (.vor q d a b) σ fun σ => σ.vbin 4 true d a b (fun D A B => A.grid D && B.grid D && A.w == B.w && A.w == D.w) fun w _ x y => putWrap w (((x.toNat ||| y.toNat) : Nat) : Int)

/-- VXOR (R187): Writes the element-wise XOR of two tiles. -/
def execVxor (q : BitVec 2) (d : BitVec 6) (a : BitVec 6) (b : BitVec 6) (σ : State) : Result :=
  word (.vxor q d a b) σ fun σ => σ.vbin 4 true d a b (fun D A B => A.grid D && B.grid D && A.w == B.w && A.w == D.w) fun w _ x y => putWrap w (((x.toNat ^^^ y.toNat) : Nat) : Int)

/-- VANDN (R187): Writes the element-wise A AND NOT B. -/
def execVandn (q : BitVec 2) (d : BitVec 6) (a : BitVec 6) (b : BitVec 6) (σ : State) : Result :=
  word (.vandn q d a b) σ fun σ =>
    σ.vbin 4 true d a b (fun D A B => A.grid D && B.grid D && A.w == B.w && A.w == D.w) fun w _ x y => putWrap w (((x.toNat ^^^ (x.toNat &&& y.toNat)) : Nat) : Int)

/-- VSEL (R187): Writes the elements of tA where the mask is non-zero and keeps the others. -/
def execVsel (q : BitVec 2) (d : BitVec 6) (a : BitVec 6) (b : BitVec 6) (σ : State) : Result :=
  word (.vsel q d a b) σ fun σ => σ.vtri 4 false d a b (fun D A B => A.grid D && B.grid D && A.w == D.w) fun w x y z => putWrap w (if y ≠ 0 then x else z)

/-- VCMP.eq (R187): Writes −1 where the elements are equal and 0 elsewhere. -/
def execVcmpEq (q : BitVec 2) (d : BitVec 6) (a : BitVec 6) (b : BitVec 6) (σ : State) : Result :=
  word (.vcmpEq q d a b) σ fun σ => σ.vbin 4 false d a b (fun D A B => A.grid D && B.grid D && A.w == B.w) fun w _ x y => putWrap w (if x = y then -1 else 0)

/-- VCMP.ne (R187): Writes −1 where the elements differ and 0 elsewhere. -/
def execVcmpNe (q : BitVec 2) (d : BitVec 6) (a : BitVec 6) (b : BitVec 6) (σ : State) : Result :=
  word (.vcmpNe q d a b) σ fun σ => σ.vbin 4 false d a b (fun D A B => A.grid D && B.grid D && A.w == B.w) fun w _ x y => putWrap w (if x ≠ y then -1 else 0)

/-- VCMP.lt (R187): Writes −1 where A < B, signed, and 0 elsewhere. -/
def execVcmpLt (q : BitVec 2) (d : BitVec 6) (a : BitVec 6) (b : BitVec 6) (σ : State) : Result :=
  word (.vcmpLt q d a b) σ fun σ => σ.vbin 4 false d a b (fun D A B => A.grid D && B.grid D && A.w == B.w) fun w _ x y => putWrap w (if x < y then -1 else 0)

/-- VCMP.ge (R187): Writes −1 where A ≥ B, signed, and 0 elsewhere. -/
def execVcmpGe (q : BitVec 2) (d : BitVec 6) (a : BitVec 6) (b : BitVec 6) (σ : State) : Result :=
  word (.vcmpGe q d a b) σ fun σ => σ.vbin 4 false d a b (fun D A B => A.grid D && B.grid D && A.w == B.w) fun w _ x y => putWrap w (if y ≤ x then -1 else 0)

/-- VCMP.ltw (R187): Writes −1 where A < B, unsigned, and 0 elsewhere. -/
def execVcmpLtw (q : BitVec 2) (d : BitVec 6) (a : BitVec 6) (b : BitVec 6) (σ : State) : Result :=
  word (.vcmpLtw q d a b) σ fun σ => σ.vbin 4 true d a b (fun D A B => A.grid D && B.grid D && A.w == B.w) fun w _ x y => putWrap w (if x < y then -1 else 0)

/-- VCMP.gew (R187): Writes −1 where A ≥ B, unsigned, and 0 elsewhere. -/
def execVcmpGew (q : BitVec 2) (d : BitVec 6) (a : BitVec 6) (b : BitVec 6) (σ : State) : Result :=
  word (.vcmpGew q d a b) σ fun σ => σ.vbin 4 true d a b (fun D A B => A.grid D && B.grid D && A.w == B.w) fun w _ x y => putWrap w (if y ≤ x then -1 else 0)

/-- VPERM (R193): Permutes the elements within each row by index tile tB. -/
def execVperm (q : BitVec 2) (d : BitVec 6) (a : BitVec 6) (b : BitVec 6) (σ : State) : Result :=
  word (.vperm q d a b) σ fun σ =>
    let D := σ.tv d
    let A := σ.tv a
    let B := σ.tv b
    σ.vword [D, A, B] (A.grid D && B.grid D && A.w == D.w) fun σ =>
      let src := (List.range D.n).map fun i => i / D.cols * D.cols + B.bit i % A.cols
      σ.putTile (6 * σ.blocks [D, A, B]) D (src.map fun j => ((A.bit j, false), A.poi j)) (A.sat || B.sat)

/-- VGATH (R194): Gathers elements of tA by tile index. -/
def execVgath (q : BitVec 2) (d : BitVec 6) (a : BitVec 6) (b : BitVec 6) (σ : State) : Result :=
  word (.vgath q d a b) σ fun σ =>
    let D := σ.tv d
    let A := σ.tv a
    let B := σ.tv b
    σ.vword [D, A, B] (B.grid D && A.w == D.w) fun σ =>
      let out := (List.range D.n).map fun i => if B.bit i < A.n then ((A.bit (B.bit i), false), A.poi (B.bit i)) else ((0, false), false)
      σ.putTile (8 * σ.blocks [D, A, B] + 8) D out (A.sat || B.sat)

/-- VSCAT (R194): Scatters the elements of tA into tD by tile index. -/
def execVscat (q : BitVec 2) (d : BitVec 6) (a : BitVec 6) (b : BitVec 6) (σ : State) : Result :=
  word (.vscat q d a b) σ fun σ =>
    let D := σ.tv d
    let A := σ.tv a
    let B := σ.tv b
    σ.vword [D, A, B] (A.grid B && A.w == D.w) fun σ =>
      let start := (List.range D.n).map fun i => ((D.bit i, false), D.poi i)
      let out := (List.range A.n).foldl (fun l i => l.set (B.bit i) ((A.bit i, false), A.poi i)) start
      σ.putTile (8 * σ.blocks [D, A, B] + 8) D out (A.sat || B.sat || D.sat)

/-- VCMPT (R200): Compares two tiles bit for bit and takes the compare trap on a mismatch. -/
def execVcmpt (q : BitVec 2) (a : BitVec 6) (b : BitVec 6) (σ : State) : Result :=
  word (.vcmpt q a b) σ fun σ =>
    let A := σ.tv a
    let B := σ.tv b
    σ.vword [A, B] (A.same B) fun σ =>
      match (List.range A.n).find? fun i => A.bit i != B.bit i with
      | none => σ
      | some i => σ.trapLater (4 * σ.blocks [A, B]) 0x19 (BitVec.ofNat 64 i)

/-- VSHL (R189): Shifts each element left by an immediate, scalar or per-element count. -/
def execVshl (q : BitVec 2) (x : BitVec 2) (d : BitVec 6) (a : BitVec 6) (b : BitVec 6) (σ : State) : Result :=
  word (.vshl q x d a b) σ fun σ =>
    let D := σ.tv d
    let A := σ.tv a
    let B := if x = 2 then σ.tv b else A
    σ.vword [D, A, B] (A.same D && B.grid A) fun σ =>
      let k := fun i => if x = 0 then b.toNat else if x = 1 then σ.uv (b.extractLsb' 0 5) else B.bit i
      let out := (List.range D.n).map fun i => ((putWrap D.w (if A.w ≤ k i then 0 else A.get false i * 2 ^ k i)), A.poi i || (x == 2 && B.poi i))
      σ.putTile (4 * σ.blocks [D, A, B]) D out (A.sat || (x == 2 && B.sat))

/-- VSHR (R189): Shifts each element right logically. -/
def execVshr (q : BitVec 2) (x : BitVec 2) (d : BitVec 6) (a : BitVec 6) (b : BitVec 6) (σ : State) : Result :=
  word (.vshr q x d a b) σ fun σ =>
    let D := σ.tv d
    let A := σ.tv a
    let B := if x = 2 then σ.tv b else A
    σ.vword [D, A, B] (A.same D && B.grid A) fun σ =>
      let k := fun i => if x = 0 then b.toNat else if x = 1 then σ.uv (b.extractLsb' 0 5) else B.bit i
      let out := (List.range D.n).map fun i => ((putWrap D.w (if A.w ≤ k i then 0 else asr (A.get true i) (k i))), A.poi i || (x == 2 && B.poi i))
      σ.putTile (4 * σ.blocks [D, A, B]) D out (A.sat || (x == 2 && B.sat))

/-- VSAR (R189): Shifts each element right arithmetically. -/
def execVsar (q : BitVec 2) (x : BitVec 2) (d : BitVec 6) (a : BitVec 6) (b : BitVec 6) (σ : State) : Result :=
  word (.vsar q x d a b) σ fun σ =>
    let D := σ.tv d
    let A := σ.tv a
    let B := if x = 2 then σ.tv b else A
    σ.vword [D, A, B] (A.same D && B.grid A) fun σ =>
      let k := fun i => if x = 0 then b.toNat else if x = 1 then σ.uv (b.extractLsb' 0 5) else B.bit i
      let out := (List.range D.n).map fun i => ((putWrap D.w (asr (A.get false i) (min (k i) (A.w - 1)))), A.poi i || (x == 2 && B.poi i))
      σ.putTile (4 * σ.blocks [D, A, B]) D out (A.sat || (x == 2 && B.sat))

/-- VSHRN (R190): Narrows each element by a rounded right shift, with saturation. -/
def execVshrn (q : BitVec 2) (m : BitVec 2) (d : BitVec 6) (a : BitVec 6) (b : BitVec 6) (ext : Option (BitVec 25)) (σ : State) : Result :=
  word (.vshrn q m d a b ext) σ fun σ =>
    let D := σ.tv d
    let A := σ.tv a
    σ.vword [D, A] (A.grid D && decide (8 ≤ A.w) && decide (D.w ≤ A.w)) fun σ =>
      let sh := σ.shiftCount b
      let hx := ext.map fun e => σ.cur.regs.h[(e.extractLsb' 0 4).toNat]
      let r := σ.rounding m
      let out := (List.range D.n).map fun i => (putSat D.w false (r.go (tileIndex hx D.cols i) (A.get false i) sh), A.poi i)
      σ.putTile (5 * σ.blocks [D, A]) D out A.sat

/-- VABS (R192): Writes the absolute value of each element, wrapping or saturating. -/
def execVabs (q : BitVec 2) (s : BitVec 1) (d : BitVec 6) (a : BitVec 6) (σ : State) : Result :=
  word (.vabs q s d a) σ fun σ => σ.vun 4 false d a (fun D A => A.same D) fun w _ x => if s = 1 then putSat w false x.natAbs else putWrap w x.natAbs

/-- VNEG (R192): Writes the negation of each element, wrapping or saturating. -/
def execVneg (q : BitVec 2) (s : BitVec 1) (d : BitVec 6) (a : BitVec 6) (σ : State) : Result :=
  word (.vneg q s d a) σ fun σ => σ.vun 4 false d a (fun D A => A.same D) fun w _ x => if s = 1 then putSat w false (-x) else putWrap w (-x)

/-- VCLZ (R192): Writes the count of leading zeros of each element. -/
def execVclz (q : BitVec 2) (d : BitVec 6) (a : BitVec 6) (σ : State) : Result :=
  word (.vclz q d a) σ fun σ => σ.vun 4 false d a (fun D A => A.grid D) fun w wa x => putSat w false ((wa : Int) - bitLen (lowBits wa x))

/-- VCLS (R192): Writes the headroom of each element. -/
def execVcls (q : BitVec 2) (d : BitVec 6) (a : BitVec 6) (σ : State) : Result :=
  word (.vcls q d a) σ fun σ => σ.vun 4 false d a (fun D A => A.grid D) fun w wa x => putSat w false (headroom wa x)

/-- VPOPC (R192): Writes the population count of each element. -/
def execVpopc (q : BitVec 2) (d : BitVec 6) (a : BitVec 6) (σ : State) : Result :=
  word (.vpopc q d a) σ fun σ => σ.vun 4 false d a (fun D A => A.grid D) fun w wa x => putSat w false (popCount (lowBits wa x) wa)

/-- VMOV (R192): Copies a tile bit for bit. -/
def execVmov (q : BitVec 2) (d : BitVec 6) (a : BitVec 6) (σ : State) : Result :=
  word (.vmov q d a) σ fun σ => σ.vun 4 false d a (fun D A => A.same D) fun w _ x => putWrap w x

/-- VCVT (R191): Converts elements to the destination width, with a left shift and saturation. -/
def execVcvt (q : BitVec 2) (u : BitVec 1) (d : BitVec 6) (a : BitVec 6) (b : BitVec 6) (σ : State) : Result :=
  word (.vcvt q u d a b) σ fun σ => σ.vun 5 (u == 1) d a (fun D A => A.grid D) fun w _ x => putSat w false (x * 2 ^ σ.shiftCount b)

/-- VPACK (R191): Packs two tiles into one tile of half the element width. -/
def execVpack (q : BitVec 2) (w : BitVec 1) (d : BitVec 6) (a : BitVec 6) (b : BitVec 6) (σ : State) : Result :=
  word (.vpack q w d a b) σ fun σ =>
    let D := σ.tv d
    let A := σ.tv a
    let B := σ.tv b
    σ.vword [D, A, B] (A.same B && decide (8 ≤ A.w) && D.w * 2 == A.w && D.cols == A.cols && D.rows == 2 * A.rows) fun σ =>
      let out := (List.range D.n).map fun i =>
        let r := i / D.cols
        let src := if r % 2 = 0 then A else B
        let j := r / 2 * D.cols + i % D.cols
        (if w = 1 then putWrap D.w (src.get false j) else putSat D.w false (src.get false j), src.poi j)
      σ.putTile (5 * σ.blocks [D, A, B]) D out (A.sat || B.sat)

/-- VUNPK (R191): Unpacks alternate rows into a tile of double the element width. -/
def execVunpk (q : BitVec 2) (u : BitVec 1) (d : BitVec 6) (a : BitVec 6) (e : BitVec 1) (σ : State) : Result :=
  word (.vunpk q u d a e) σ fun σ =>
    let D := σ.tv d
    let A := σ.tv a
    σ.vword [D, A] (A.rows % 2 == 0 && decide (A.w ≤ 16) && D.w == 2 * A.w && D.cols == A.cols && D.rows * 2 == A.rows) fun σ =>
      let out := (List.range D.n).map fun i =>
        let j := (2 * (i / D.cols) + e.toNat) * A.cols + i % D.cols
        (putWrap D.w (A.get (u == 1) j), A.poi j)
      σ.putTile (5 * σ.blocks [D, A]) D out A.sat

/-- VROTL (R193): Rotates the elements along each row. -/
def execVrotl (q : BitVec 2) (x : BitVec 1) (d : BitVec 6) (a : BitVec 6) (b : BitVec 6) (ext : Option (BitVec 25)) (σ : State) : Result :=
  word (.vrotl q x d a b ext) σ fun σ =>
    let D := σ.tv d
    let A := σ.tv a
    σ.vword [D, A] (A.same D) fun σ =>
      let k := if x = 0 then immU 6 b ext else σ.uv (b.extractLsb' 0 5)
      let out := (List.range D.n).map fun i =>
        let j := i / D.cols * D.cols + (i % D.cols + k) % D.cols
        ((A.bit j, false), A.poi j)
      σ.putTile (4 * σ.blocks [D, A]) D out A.sat

/-- VBCAST (R192): Broadcasts a scalar register into every element of a tile. -/
def execVbcast (q : BitVec 2) (d : BitVec 6) (s : BitVec 5) (σ : State) : Result :=
  word (.vbcast q d s) σ fun σ =>
    let D := σ.tv d
    σ.vword [D] true fun σ =>
      σ.putTile (4 * σ.blocks [D]) D ((List.range D.n).map fun _ => (putWrap D.w (σ.sv s), false)) false

/-- VBCAST.row (R192): Broadcasts column 0 of each row along the row. -/
def execVbcastRow (q : BitVec 2) (d : BitVec 6) (a : BitVec 6) (σ : State) : Result :=
  word (.vbcastRow q d a) σ fun σ =>
    let D := σ.tv d
    let A := σ.tv a
    σ.vword [D, A] (A.same D) fun σ =>
      let out := (List.range D.n).map fun i => ((A.bit (i / D.cols * D.cols), false), A.poi (i / D.cols * D.cols))
      σ.putTile (4 * σ.blocks [D, A]) D out A.sat

/-- VBCAST.col (R192): Broadcasts row 0 of each column down the column. -/
def execVbcastCol (q : BitVec 2) (d : BitVec 6) (a : BitVec 6) (σ : State) : Result :=
  word (.vbcastCol q d a) σ fun σ =>
    let D := σ.tv d
    let A := σ.tv a
    σ.vword [D, A] (A.same D) fun σ =>
      let out := (List.range D.n).map fun i => ((A.bit (i % D.cols), false), A.poi (i % D.cols))
      σ.putTile (4 * σ.blocks [D, A]) D out A.sat

/-- VREDSUM (R196): Sums a tile by row, by column or as a whole. -/
def execVredsum (q : BitVec 2) (x : BitVec 2) (d : BitVec 6) (a : BitVec 6) (u : BitVec 1) (σ : State) : Result :=
  word (.vredsum q x d a u) σ fun σ => σ.vreduce x (u == 1) d a sumInt

/-- VREDMAX (R196): Reduces a tile to its maximum by row, by column or as a whole. -/
def execVredmax (q : BitVec 2) (x : BitVec 2) (d : BitVec 6) (a : BitVec 6) (u : BitVec 1) (σ : State) : Result :=
  word (.vredmax q x d a u) σ fun σ => σ.vreduce x (u == 1) d a (fun l => l.foldl max (l.headD 0))

/-- VREDMIN (R196): Reduces a tile to its minimum by row, by column or as a whole. -/
def execVredmin (q : BitVec 2) (x : BitVec 2) (d : BitVec 6) (a : BitVec 6) (u : BitVec 1) (σ : State) : Result :=
  word (.vredmin q x d a u) σ fun σ => σ.vreduce x (u == 1) d a (fun l => l.foldl min (l.headD 0))

/-- VABSMAX (R196): Reduces a tile to its maximum absolute value. -/
def execVabsmax (q : BitVec 2) (x : BitVec 2) (d : BitVec 6) (a : BitVec 6) (σ : State) : Result :=
  word (.vabsmax q x d a) σ fun σ => σ.vreduce x false d a (fun l => (l.map fun v => (v.natAbs : Int)).foldl max 0)

/-- VPART (R195): Turns a mask into a dense index list, or a count, per row. A count that the destination cannot hold is a free value (DESIGN CHOICE, log entry 9) -/
def execVpart (q : BitVec 2) (n : BitVec 1) (d : BitVec 6) (a : BitVec 6) (σ : State) : Result :=
  word (.vpart q n d a) σ fun σ =>
    let D := σ.tv d
    let A := σ.tv a
    σ.vword [D, A] (A.grid D && decide (16 ≤ D.w) && (n == 1 || decide (A.n ≤ 2 ^ D.w))) fun σ =>
      let lat := 6 * σ.blocks [D, A] + 4
      if n = 0 then
        let row := fun r =>
          let cs := (List.range A.cols).map fun c => r * A.cols + c
          let bad := cs.any A.poi
          ((cs.filter fun i => A.bit i != 0) ++ cs.filter fun i => A.bit i == 0).map fun i => ((i, false), bad)
        σ.putTile lat D ((List.range A.rows).flatMap row) A.sat
      else
        let count := fun r => ((List.range A.cols).filter fun c => A.bit (r * A.cols + c) != 0).length
        let big := (List.range A.rows).any fun r => decide (2 ^ D.w ≤ count r)
        let row := fun r => (List.range A.cols).map fun c =>
          if c = 0 then
            ((if count r < 2 ^ D.w then count r else Config.freeNat (σ.free + r) % 2 ^ D.w, false), (List.range A.cols).any fun k => A.poi (r * A.cols + k))
          else ((0, false), false)
        let σ' := if big then { σ with free := σ.free + A.rows } else σ
        σ'.putTile lat D ((List.range A.rows).flatMap row) A.sat

/-- VSCAN (R197): Writes inclusive or exclusive prefix sums along rows or columns. -/
def execVscan (q : BitVec 2) (x : BitVec 2) (d : BitVec 6) (a : BitVec 6) (s : BitVec 1) (u : BitVec 1) (σ : State) : Result :=
  word (.vscan q x d a s u) σ fun σ =>
    let D := σ.tv d
    let A := σ.tv a
    σ.vword [D, A] (A.grid D) fun σ =>
      let set := fun i =>
        let r := i / D.cols
        let c := i % D.cols
        if x = 0 then (List.range (c + 1)).map fun k => r * D.cols + k
        else if x = 1 then (List.range c).map fun k => r * D.cols + k
        else if x = 2 then (List.range (r + 1)).map fun k => k * D.cols + c
        else (List.range r).map fun k => k * D.cols + c
      let out := (List.range D.n).map fun i =>
        let v := sumInt ((set i).map (A.get (u == 1)))
        (if s = 1 then putSat D.w (u == 1) v else putWrap D.w v, (set i).any A.poi)
      σ.putTile (4 * σ.blocks [D, A] + 8) D out A.sat

/-- VLUT3 (R198): Computes a three-input bitwise function given by an 8-bit table. -/
def execVlut3 (q : BitVec 2) (l : BitVec 8) (d : BitVec 5) (a : BitVec 6) (b : BitVec 5) (σ : State) : Result :=
  word (.vlut3 q l d a b) σ fun σ =>
    let D := σ.tv (d.zeroExtend 6)
    let A := σ.tv a
    let B := σ.tv (lutThird a b)
    σ.vword [D, A, B] (A.same D && B.same D) fun σ =>
      let out := (List.range D.n).map fun i => ((lutBits l.toNat (D.bit i) (A.bit i) (B.bit i) D.w, false), D.poi i || A.poi i || B.poi i)
      σ.putTile (4 * σ.blocks [D, A, B]) D out (D.sat || A.sat || B.sat)

/-- VFSL (R199): Funnel-shifts a pair of tiles left. -/
def execVfsl (q : BitVec 2) (d : BitVec 6) (a : BitVec 6) (b : BitVec 6) (n : BitVec 5) (σ : State) : Result :=
  word (.vfsl q d a b n) σ fun σ => σ.vbin 4 true d a b (fun D A B => A.same D && B.same D) fun w _ x y => putWrap w ((x * 2 ^ w + y) * 2 ^ (n.toNat % w) / 2 ^ w)

/-- VFSR (R199): Funnel-shifts a pair of tiles right. -/
def execVfsr (q : BitVec 2) (d : BitVec 6) (a : BitVec 6) (b : BitVec 6) (n : BitVec 5) (σ : State) : Result :=
  word (.vfsr q d a b n) σ fun σ => σ.vbin 4 true d a b (fun D A B => A.same D && B.same D) fun w _ x y => putWrap w ((y * 2 ^ w + x) / 2 ^ (n.toNat % w))

end Sys2Proof.Machine
end

