-- ==== Sys2Proof/Machine/Tile.lean ====
section
/-! DEFINITION. Tile loads and stores through handles, with the forwarding inside a splice (R201 to R205, R121). -/

namespace Sys2Proof.Machine

/-! ## Forwarding inside a splice (R121, R123) -/

/-- The pair of the current node on the focus core. -/
def State.pair (s : State) : Splice := (s.core s.focus).pairOf s.cur.desc.uid

def State.setPair (s : State) (sp : Splice) : State := s.setCore ((s.core s.focus).putPair sp)

/-- The word that executes is a candidate TST of a merged run whose stores may be elided (R121, R123). -/
def State.forwardsTst (s : State) : Bool :=
  let sp := s.pair
  s.cur.desc.uid != 0 && sp.st == .merged && sp.p == s.cur.desc.uid && !sp.storesAll && sp.cands.any fun c => c.pAddr == s.bnd.addr

/-- The buffer that a candidate TLD of a merged run takes (R121). -/
def State.forwardedTile (s : State) : Option FwdBuffer :=
  let sp := s.pair
  if s.cur.desc.uid != 0 && sp.st == .merged && sp.c == s.cur.desc.uid then
    match sp.cands.find? fun c => c.cAddr == s.bnd.addr with
    | some c => sp.bufs.find? fun b => b.pAddr == c.pAddr && b.odd == (sp.cIter % 2 == 1) && b.iter == some sp.cIter
    | none => none
  else none

/-- Fill the buffer of a candidate TST (R121). -/
def State.fillBuffer (s : State) (t : Tile) (shape : BitVec 32) (h : Handle) : State :=
  let sp := s.pair
  s.setPair { sp with bufs := sp.bufs.map fun b =>
    if b.pAddr == s.bnd.addr && b.odd == (sp.pIter % 2 == 1) then { b with iter := some sp.pIter, taken := false, tile := t, shape := shape, h := h, fa := s.bnd.fa, pos := s.bnd.pos } else b }

/-- Mark a buffer as consumed: by the first of its TLDs, where it has several (DESIGN CHOICE: log entry 98). -/
def State.takeBuffer (s : State) (b : FwdBuffer) : State :=
  let sp := s.pair
  s.setPair { sp with bufs := sp.bufs.map fun x => if x.pAddr == b.pAddr && x.odd == b.odd then { x with taken := true } else x }

/-! ## Reads of elements (R202, R203) -/

/-- The tensor coordinates of tile element i (R202). -/
def tileCell (h : Handle) (cols i : Nat) : List Nat := addOrg h.orgs [i % cols, i / cols, 0, 0, 0]

/-- Read elements in order; none for a suppressed one; the first fault ends the read. -/
def State.readCells (s : State) (n : Node) (h : Handle) : List (List Nat) → Except (MFault × Nat) (List (Option ElemRead))
  | [] => .ok []
  | x :: rest =>
    match (if inside h.exts x then (s.readElem n h x).map some else .ok none) with
    | .error e => .error e
    | .ok v =>
      match State.readCells s n h rest with
      | .error e => .error e
      | .ok l => .ok (v :: l)

/-- The first guard byte that elements read touched. -/
def guardOf (l : List (Option ElemRead)) : Option Nat := (l.filterMap fun e => e.bind (·.guard)).head?

/-! ## Stores (R204) -/

/-- An element to be stored: its coordinates, its value and its poison mark. -/
structure Cell where
  x : List Nat
  v : Int
  poison : Bool
deriving DecidableEq, Repr

/-- What a store plans: its byte writes, its census values, and whether an element clamped. -/
structure Plan where
  writes : List ByteWrite
  census : List Nat
  sat : Bool
deriving DecidableEq, Repr

/-- The result of planning: a fault of the layout unit, the format fault of a block not wholly covered (R36), or the plan. -/
inductive PlanResult where
  | mem (f : MFault) (off : Nat)
  | partBlock
  | ok (p : Plan)
deriving DecidableEq, Repr

/-- Store elements of a plain format: PutS to the element type (R204). -/
def State.planPlain (s : State) (n : Node) (h : Handle) (cells : List Cell) : PlanResult :=
  let w := fmtWidth h.fmt
  let vals := cells.map fun c => (c, satI w c.v)
  match planAll (fun (e : Cell × (Int × Bool)) => s.planElem n h e.1.x (lowBits w e.2.1) e.1.poison) vals with
  | .error (f, off) => .mem f off
  | .ok l => .ok { writes := l, census := vals.map fun e => censusValue e.2.1 0, sat := vals.any fun e => e.2.2 }

/-- The blocks that cells touch, each named by its first cell (R204). -/
def blocksOf (h : Handle) (cells : List Cell) : List Cell :=
  (cells.foldl (fun acc c => if acc.1.contains (h.block c.x) then acc else (h.block c.x :: acc.1, c :: acc.2)) ([], [])).2.reverse

/-- The 32 cells of the block of a cell, or none when the store does not cover it wholly. -/
def coverOf (h : Handle) (cells : List Cell) (c : Cell) : Option (List Cell) :=
  (List.range 32).mapM fun i => cells.find? fun e => e.x == h.blockCell c.x i

/-- Store whole blocks of a block-shift format (R36). -/
def State.planBlocks (s : State) (n : Node) (h : Handle) (r : Rounding) (cells : List Cell) : PlanResult :=
  let w := fmtWidth h.fmt
  match (blocksOf h cells).mapM (coverOf h cells) with
  | none => .partBlock
  | some bs =>
    let enc := bs.map fun b => (b, encodeBlock r w (b.map fun c => (linIndex h.exts c.x, c.v)))
    match planAll (fun (e : List Cell × (Nat × List (Int × Bool))) =>
        match planAll (fun (z : Cell × (Int × Bool)) => s.planElem n h z.1.x (lowBits w z.2.1) z.1.poison) (e.1.zip e.2.2) with
        | .error f => .error f
        | .ok l =>
          match e.1 with
          | [] => .ok l
          | c :: _ => (s.planShift n h c.x e.2.1 false).map fun k => l ++ k) enc with
    | .error (f, off) => .mem f off
    | .ok l => .ok { writes := l, census := enc.flatMap fun e => e.2.2.map fun v => censusValue v.1 e.2.1, sat := enc.any fun e => e.2.2.any (·.2) }

/-- Store elements through a handle (R204, R278). -/
def State.planCells (s : State) (n : Node) (h : Handle) (r : Rounding) (cells : List Cell) : PlanResult :=
  if fmtBlock h.fmt then s.planBlocks n h r cells else s.planPlain n h cells

/-- Perform a plan for node `uid`, and fail the node when its staged lines exceed the budget (R68). Nothing of these bytes that it has read ahead stands (R205). -/
def State.performPlan (s : State) (uid : Nat) (unit : BitVec 3) (addr : Option (BitVec 22)) (l : List ByteWrite) : State :=
  let n := s.node uid
  let s := s.setNode { n with run := { n.run with ahead := n.run.ahead.filter fun e => disjointPlaces e.places (l.map (·.place)) } }
  let s := s.doWrites uid unit addr l
  if (s.node uid).overBudget then s.memFault uid .overflow else s

/-- A forwarded TST: its buffer, element for element what the TLD would have read of the store (clamped to the handle's format, zero beyond the
extents), and its census, SAT and POI as a store would (R111, R121). -/
def State.elideTile (s : State) (h : Handle) (A : TileView) (cells : List Cell) : State :=
  let w := fmtWidth h.fmt
  let vals := cells.map fun c => satI w c.v
  let keep := fun i : Nat => inside h.exts (tileCell h A.cols i)
  let bits := packBits A.w ((List.range A.n).map fun i => if keep i then lowBits A.w (satI w (A.get false i)).1 else 0)
  let poi := packPoison A.w ((List.range A.n).map fun i => keep i && A.poi i)
  let s := s.fillBuffer { bits := bits, poison := poi } s.cur.regs.ts[A.slot.toNat] h
  let s := s.mapCur fun n =>
    n.noteWrite h (n.window h) (leastCensus (vals.map fun v => censusValue v.1 0)) (A.sat || vals.any (·.2)) (cells.any (·.poison))
  if h.keep then s else s.countCore s.focus "elided TST"

/-- TST (R204), with the forwarding of R121. -/
def State.storeTile (s : State) (hn : BitVec 4) (t : BitVec 6) (m : BitVec 2) : State :=
  let h := s.cur.regs.h[hn.toNat]
  let A := s.tv t
  match s.checkHandle s.cur h true with
  | some f => s.handleFault f hn true h
  | none =>
    let cells := ((List.range A.n).map fun i => ({ x := tileCell h A.cols i, v := A.get false i, poison := A.poi i } : Cell)).filter fun c => inside h.exts c.x
    match s.planCells s.cur h (s.rounding m) cells with
    | .partBlock => s.trapHere 4 (BitVec.ofNat 64 (hn.toNat + 16))
    | .mem f off => if s.forwardsTst && !h.keep then s.elideTile h A cells else s.wordFault f (tensorAddr h.tid off)
    | .ok p =>
      if s.forwardsTst then
        let s := s.elideTile h A cells
        if h.keep then s.performPlan s.cur.desc.uid 1 (some s.bnd.addr) p.writes else s
      else
        let s := s.mapCur fun n => n.noteWrite h (n.window h) (leastCensus p.census) (p.sat || A.sat) (cells.any (·.poison))
        s.performPlan s.cur.desc.uid 1 (some s.bnd.addr) p.writes

/-- A stored tile as cells of its handle (R123). DEDUCED: log entry 57. -/
def bufferCells (b : FwdBuffer) : List Cell :=
  let w := shapeW b.shape
  let cols := shapeCols b.shape
  ((List.range (shapeRows b.shape * cols)).map fun i => ({ x := tileCell b.h cols i, v := tileGet b.tile.bits w false i, poison := elemPoison b.tile.poison w i } : Cell)).filter
    fun e => inside b.h.exts e.x

/-- The poison marks of a forwarded tile: those that the TLD would have read had the store been performed (R121), the marks of a poisoned frame (R256) and of the other
half of a byte (R358) among them. -/
def State.forwardedPoison (s : State) (b : FwdBuffer) (h : Handle) (D : TileView) : Nat :=
  let p := s.pair.p
  match s.planCells (s.node p) b.h { mode := 0, seed := 0, step := 0 } (bufferCells b) with
  | .ok pl =>
    match (s.doWrites p 1 (some b.pAddr) pl.writes).readCells s.cur h ((List.range D.n).map (tileCell h D.cols)) with
    | .ok l => packPoison D.w (l.map fun e => match e with
      | some e => e.poison
      | none => false)
    | .error _ => b.tile.poison
  | _ => b.tile.poison

/-! ## TLD and TST -/

/-- TLD (R203): the tile and its SAT bit fall due together; the handle faults and the access fault by R397. -/
def State.loadTile (s : State) (hn : BitVec 4) (t : BitVec 6) : State :=
  let h := s.cur.regs.h[hn.toNat]
  let D := s.tv t
  match s.checkHandle s.cur h false with
  | some f => s.handleFault f hn false h
  | none =>
    let lat := 12 + 2 * s.blocks [D]
    match s.forwardedTile with
    | some b => (s.takeBuffer b).push lat (.tile D.slot (2 ^ (D.w * D.n) - 1) b.tile.bits (s.forwardedPoison b h D) false true)
    | none =>
      match s.readCells s.cur h ((List.range D.n).map (tileCell h D.cols)) with
      | .error (f, off) => s.wordFault f (tensorAddr h.tid off)
      | .ok l =>
        let w := fmtWidth h.fmt
        let out := l.map fun e => match e with
          | some e => (putSat D.w false (e.value w), e.poison)
          | none => ((0, false), false)
        let s := s.forget ((s.elemPlaces s.cur h false ((List.range D.n).map (tileCell h D.cols))).getD [])
        let s := (s.countCorrected s.cur.desc.uid l).touch s.cur.desc.uid 1 (some s.bnd.addr) (guardOf l)
        s.push lat (.tile D.slot (2 ^ (D.w * D.n) - 1) (packBits D.w (out.map fun e => e.1.1)) (packPoison D.w (out.map fun e => e.2))
          (out.any fun e => e.1.2) true)

/-- TLD (R203): Loads a tile through a handle and replaces its SAT bit with the load's clamp. -/
def execTld (q : BitVec 2) (g : BitVec 4) (h : BitVec 4) (t : BitVec 6) (σ : State) : Result :=
  word (.tld q g h t) σ fun σ => σ.vword [σ.tv t] true fun σ => σ.loadTile h t

/-- TST (R204): Stores a tile through a handle, with rounding, census and flags. -/
def execTst (q : BitVec 2) (g : BitVec 4) (h : BitVec 4) (t : BitVec 6) (m : BitVec 2) (σ : State) : Result :=
  word (.tst q g h t m) σ fun σ => σ.vword [σ.tv t] true fun σ => σ.storeTile h t m

end Sys2Proof.Machine
end

