-- ==== Sys2Proof/Machine/Copy.lean ====
section
/-! DEFINITION. Copy words (R273 to R279, R282), the transfer of a command (R278, R279) and its completion (R280, R283, R284). -/

namespace Sys2Proof.Machine

/-- The number of copies of a command (R279). -/
def CopyCmd.reps (c : CopyCmd) : Nat := if c.kind = .cpyb then fanCount c.x else 1

/-- The byte count of a window (R279). -/
def windowBytes (exts : List Nat) (w reps : Nat) : Nat := ceilDiv (prodN exts * w) 8 * reps

/-! ## Checks at issue (R277) -/

/-- The copy command fault (R277). -/
def copyBad (k : CopyKind) (uirq : Bool) (sw sw1 x : Word) : Bool :=
  fieldN sw 54 10 != 0 || fieldN sw1 60 4 != 0 || ctlRm sw1 == 3 || (k != .cpyk && (ctlSh sw1 != 0 || ctlRm sw1 != 0)) ||
    !scopeRule (ctlAcq sw1) (ctlRel sw1) (ctlScope sw1) || (ctlUi sw1 && !uirq) ||
    (k == .cpyb && (fieldN x 26 38 != 0 || decide (4 < fanDim x))) || (k == .cpyq && fieldN x 38 26 != 0)

/-- The handle that failed the first check, by R52's step numbers, hS before hD (R277): the fault and whether it is the destination. -/
def State.copyHandles (s : State) (n : Node) (hS : Option Handle) (hD : Handle) : Option (HandleFault × Bool) :=
  let src := fun (ok : Handle → Bool) => match hS with
    | some h => !ok h
    | none => false
  let lev := fun (h : Handle) => match s.handleStep4 n h with
    | .pass => none
    | .handle => some (HandleFault.cause 5)
    | .proc f => some (HandleFault.mem f)
  if src handleStep1 then some (.cause 5, false)
  else if !handleStep1 hD then some (.cause 5, true)
  else if src (handleStep2 n) then some (.cause 4, false)
  else if !handleStep2 n hD then some (.cause 4, true)
  else if !handleStep3 n hD then some (.cause 5, true)
  else
    match hS.bind lev with
    | some f => some (f, false)
    | none =>
      match lev hD with
      | some f => some (f, true)
      | none => if writeMode n hD.tid then none else some (.cause 5, true)

/-- The block dimension of a handle (R32). -/
def blockDim (h : Handle) : Nat := if h.ori then 1 else 0

/-- A window consists of whole blocks (R277). -/
def wholeBlocks (h : Handle) (exts : List Nat) : Bool := !fmtBlock h.fmt || (h.org (blockDim h) % 32 == 0 && exts.getD (blockDim h) 1 % 32 == 0)

/-- The format fault of check 3 (R277): the handle it concerns, true for the destination. The copies of a CPYB must land on whole blocks too (DEDUCED, log entry 11). DEDUCED: log entry 36. -/
def copyFormat (k : CopyKind) (hS : Option Handle) (hD : Handle) (exts : List Nat) (x : Word) : Option Bool :=
  let srcBad := match hS with
    | some h => !wholeBlocks h exts
    | none => false
  let kept := k == .cpy || k == .cpyb || k == .cpyq
  let differ := match hS with
    | some h => kept && (h.fmt != hD.fmt || (fmtBlock hD.fmt && h.ori != hD.ori))
    | none => false
  if differ then some true
  else if srcBad then some false
  else if !wholeBlocks hD exts || (k == .cpyb && fmtBlock hD.fmt && fanDim x == blockDim hD && decide (1 < fanCount x) && fanStride x % 32 != 0) then some true
  else none

/-- A copy command joins its slot's queue, or is armed (R273, R279). A full queue delays the issue, and so does a command of the slot, of whichever resident node,
that has fired and not yet joined; one that has fired keeps its place among the eight armed until it joins (R353). DEDUCED: log entry 33. -/
def State.queueCopy (s : State) (c : CopyCmd) : State :=
  let cb := s.bnd.slotCB
  let uid := s.cur.desc.uid
  let c := { c with ord := s.cur.eng.nextOrd }
  if c.kind != .cpyq || s.cur.triggered c.x then
    if decide (16 ≤ s.slotLoad uid cb) || (s.firstFired uid cb).isSome then s.delay
    else
      let q := s.nextSeq uid cb
      s.mapEng fun e => e.take.setQueue cb (e.queue cb ++ [{ c with seq := q }])
  else if 8 ≤ (s.cur.eng.armedOf cb).length then s.delay
  else s.mapEng fun e => e.take.setArmed cb (e.armedOf cb ++ [c])

/-- A copy word `i` at issue (R274, R277). `x`: the extra register, when the word has one. DEDUCED: log entry 36. -/
def State.issueCopy (s : State) (i : Instr) (k : CopyKind) (hd hs w : BitVec 4) (x : Option (BitVec 5)) : State :=
  let sw := s.cur.s (BitVec.ofNat 5 (2 * w.toNat))
  let sw1 := s.cur.s (BitVec.ofNat 5 (2 * w.toNat + 1))
  let xv := match x with
    | some r => s.cur.s r
    | none => 0
  let hD := s.cur.regs.h[hd.toNat]
  let hS := if k = .cpyf then none else some s.cur.regs.h[hs.toNat]
  if copyBad k s.cur.desc.image.uirq sw sw1 xv then s.trapHere 8 0
  else
    match s.copyHandles s.cur hS hD with
    | some (f, true) => s.engineFault f hd true hD
    | some (f, false) => s.engineFault f hs false (hS.getD 0)
    | none =>
      match copyFormat k hS hD (windowExts sw sw1) xv with
      | some true => s.trapHere 4 (BitVec.ofNat 64 (hd.toNat + 16))
      | some false => s.trapHere 4 (BitVec.ofNat 64 hs.toNat)
      | none =>
        s.queueCopy { kind := k, hD := hD, hS := hS.getD 0, sw := sw, sw1 := sw1, x := xv, seed := s.cur.ctl.seed, step := s.cur.ctl.step,
                      addr := s.bnd.addr, win := s.cur.window hD, word := (encode i).headD 0 }

/-- The effect of a CPYCAN in a slot (R282): of the commands that the node issued before it, the armed ones are cancelled, and the queued ones behind the last that
has begun. The engine may have begun or completed earlier ones, and armed ones may have fired, between its issue and this step. -/
def Eng.cancel (e : Eng) (cb : Bool) : Eng :=
  match e.cancels.find? fun c => c.1 == cb with
  | none => e
  | some c =>
    let k := begunLen (e.queue cb)
    let e := (e.setQueue cb ((e.queue cb).take k ++ ((e.queue cb).drop k).filter fun x => decide (c.2 ≤ x.ord))).setArmed cb ((e.armedOf cb).filter fun x => decide (c.2 ≤ x.ord))
    { e with cancels := e.cancels.erase c }

/-- CPYCAN issues in a slot (R282). -/
def State.cancelSlot (s : State) (cb : Bool) : State := s.mapEng fun e => { e with cancels := e.cancels ++ [(cb, e.nextOrd)] }

/-! ## What a command writes (R278, R279) -/

/-- How a command has run: to its end, up to an access fault at a window index, or into a fault that stops the node. -/
inductive CopyEnd where
  | done
  | access (elem : Nat)
  | stops (f : MFault)
deriving DecidableEq, Repr

/-- A command under way: the module, how far it has come, and how it stands. -/
structure CopyRun where
  st : State
  at_ : Progress
  fin : CopyEnd
deriving DecidableEq, Repr

/-- What a write of the command adds to what its writes do to the scale register. -/
def Progress.note (p : Progress) (census : List Nat) (sat poi : Bool) : Progress :=
  { p with census := match p.census, leastCensus census with
             | some a, some b => some (min a b)
             | some a, none => some a
             | none, b => b
           sat := p.sat || sat
           poi := p.poi || poi }

/-- A fault of the layout unit that an engine meets at window index i. -/
def engineEnd (f : MFault) (i : Nat) : CopyEnd :=
  match f with
  | .access => .access i
  | f => .stops f

/-- The element that an engine reads for window coordinates j: zero beyond the extents (R278). -/
def State.sourceElem (s : State) (n : Node) (h : Handle) (j : List Nat) : Except (MFault × Nat) (Option ElemRead) :=
  let x := addOrg h.orgs j
  if inside h.exts x then (s.readElem n h x).map some else .ok none

/-- The value of a source element for CPYK before saturation, with the rounding of R278. -/
def cpykValue (c : CopyCmd) (idx : Nat) (v : Int) : Int :=
  let sh := ctlSh c.sw1
  if 0 ≤ sh then roundBy (ctlRm c.sw1) c.seed.toNat c.step.toNat idx v sh.toNat else v * 2 ^ (-sh).toNat

/-- The value and the poison of an element read; zero for a suppressed one. -/
def readValue (w : Nat) (e : Option ElemRead) : Int × Bool :=
  match e with
  | some e => (e.value w, e.poison)
  | none => (0, false)

/-- The stored bits, the clamp and the poison of an element of a plain destination (R278). -/
def CopyCmd.plainOut (c : CopyCmd) (idx : Nat) (e : Option ElemRead) : Nat × Bool × Bool :=
  let w := fmtWidth c.hD.fmt
  let v := readValue (fmtWidth c.hS.fmt) e
  if c.kind = .cpyk then
    let r := satI w (cpykValue c idx v.1)
    (lowBits w r.1, r.2, v.2)
  else if c.kind = .cpyf then
    let r := satI w c.x.toInt
    (lowBits w r.1, r.2, false)
  else ((e.map (·.bits)).getD 0, false, v.2)

/-- The destination coordinates of window coordinates j in copy k (R278, R279). -/
def CopyCmd.destCell (c : CopyCmd) (k : Nat) (j : List Nat) : List Nat :=
  let x := addOrg c.hD.orgs j
  if c.kind = .cpyb then (List.range 5).map fun d => x.getD d 0 + (if d = fanDim c.x then k * fanStride c.x else 0) else x

/-- Perform byte writes for an engine: the module, or the staging overflow (R68). -/
def CopyRun.write (r : CopyRun) (uid : Nat) (unit : BitVec 3) (addr : Option (BitVec 22)) (l : List ByteWrite) : CopyRun :=
  let s := r.st.doWrites uid unit addr l
  { r with st := s, fin := if (s.node uid).overBudget then .stops .overflow else r.fin }

/-- The source elements of a part that have been read already. -/
def Progress.got (p : Progress) (j : Nat) : Option (List (Option ElemRead)) := (p.vals.find? fun e => e.1 == j).map (·.2)

/-- The source elements of the window indices `blk`, part j of a copy: as they were read before, or as memory has them now; they are kept until they are
written (R279, R287). `base`: the index of the copy's first element. -/
def CopyRun.fetch (r : CopyRun) (uid : Nat) (unit : BitVec 3) (c : CopyCmd) (base j : Nat) (blk : List Nat) : List (Option ElemRead) × CopyRun :=
  if c.kind = .cpyf then (blk.map fun _ => none, r)
  else
    match r.at_.got j with
    | some es => (es, r)
    | none =>
      match blk.mapM fun i => r.st.sourceElem (r.st.node uid) c.hS (unlin (windowExts c.sw c.sw1) i) with
      | .error (f, _) => ([], { r with fin := engineEnd f (base + blk.headD 0) })
      | .ok es => (es, { r with st := (r.st.countCorrected uid es).touch uid unit none (guardOf es), at_ := { r.at_ with vals := r.at_.vals ++ [(j, es)] } })

/-- One element of a command with a plain destination (R278): copy k, window index i, with its source element. DEDUCED: log entry 38. -/
def copyElem (uid : Nat) (unit : BitVec 3) (c : CopyCmd) (exts : List Nat) (r : CopyRun) (k i : Nat) (e : Option ElemRead) : CopyRun :=
  let x := c.destCell k (unlin exts i)
  if inside c.hD.exts x = false then r
  else
    let o := c.plainOut (linIndex c.hD.exts x) e
    match r.st.planElem (r.st.node uid) c.hD x o.1 o.2.2 with
    | .error (f, _) => { r with fin := engineEnd f (k * prodN exts + i) }
    | .ok l =>
      let r := { r with at_ := r.at_.note [censusValue (signExt (fmtWidth c.hD.fmt) (o.1 : Int)) 0] o.2.1 o.2.2 }
      r.write uid unit none l

/-- The window indices of each destination block, blocks in the order of their first element. -/
def windowBlocks (h : Handle) (exts : List Nat) : List (List Nat) :=
  let d := blockDim h
  let idx := List.range (prodN exts)
  let firsts := idx.filter fun i => (unlin exts i).getD d 0 % 32 == 0
  firsts.map fun i => (List.range 32).map fun z => linIndex exts ((List.range 5).map fun e => (unlin exts i).getD e 0 + (if e = d then z else 0))

/-- What a block of a block-shift destination receives: its shift, its elements with clamp and poison, and the poison of the shift byte (R278). -/
def CopyCmd.blockOut (c : CopyCmd) (idxs : List Nat) (es : List (Option ElemRead)) : Nat × List (Int × Bool × Bool) × Bool :=
  let w := fmtWidth c.hD.fmt
  if c.kind = .cpyk ∨ c.kind = .cpyf then
    let r : Rounding := { mode := if c.kind = .cpyk then ctlRm c.sw1 else 0, seed := c.seed.toNat, step := c.step.toNat }
    let vals := (idxs.zip es).map fun e =>
      if c.kind = .cpyf then (e.1, c.x.toInt, false)
      else (e.1, cpykValue c e.1 (readValue (fmtWidth c.hS.fmt) e.2).1, (readValue (fmtWidth c.hS.fmt) e.2).2)
    let enc := encodeBlock r w (vals.map fun v => (v.1, v.2.1))
    (enc.1, (enc.2.zip vals).map fun e => (e.1.1, e.1.2, e.2.2.2), false)
  else
    let m := match es with
      | some e :: _ => e.m
      | _ => 0
    let vals := es.map fun e => match e with
      | some e => (signExt w (e.bits : Int), false, e.poison)
      | none => (0, false, false)
    (m, vals, !vals.isEmpty && vals.all fun v => v.2.2)

/-- One block of a command with a block-shift destination (R36, R278): copy k, the window indices of its elements, with their source elements. DEDUCED: log entry 38. -/
def copyBlock (uid : Nat) (unit : BitVec 3) (c : CopyCmd) (exts : List Nat) (r : CopyRun) (k : Nat) (blk : List Nat) (es : List (Option ElemRead)) : CopyRun :=
  let xs := blk.map fun i => c.destCell k (unlin exts i)
  if !(xs.all (inside c.hD.exts)) then r
  else
    let o := c.blockOut (xs.map (linIndex c.hD.exts)) es
    let w := fmtWidth c.hD.fmt
    let s := r.st
    let n := s.node uid
    match planAll (fun (e : List Nat × (Int × Bool × Bool)) => s.planElem n c.hD e.1 (lowBits w e.2.1) e.2.2.2) (xs.zip o.2.1), s.planShift n c.hD (xs.headD []) o.1 o.2.2 with
    | .error (f, _), _ => { r with fin := engineEnd f (k * prodN exts + blk.headD 0) }
    | _, .error (f, _) => { r with fin := engineEnd f (k * prodN exts + blk.headD 0) }
    | .ok l, .ok l' =>
      let r : CopyRun := { r with at_ := r.at_.note (o.2.1.map fun v => censusValue v.1 o.1) (o.2.1.any fun v => v.2.1) (o.2.1.any fun v => v.2.2) }
      r.write uid unit none (l ++ l')

/-- The parts of one copy of a command in the order of R278: its elements, or the blocks of a block-shift destination. -/
def CopyCmd.parts (c : CopyCmd) : List (List Nat) :=
  let exts := windowExts c.sw c.sw1
  if fmtBlock c.hD.fmt then windowBlocks c.hD exts else (List.range (prodN exts)).map fun i => [i]

/-- The parts of a command that are still to be performed, over all its copies in the order of R278 and R279. -/
def CopyCmd.rest (c : CopyCmd) : List Nat := (List.range (c.reps * c.parts.length)).filter fun p => !c.progress.done.contains p

/-- A command has begun writing. -/
def Progress.begun (p : Progress) : Bool := !p.done.isEmpty

/-- A part has been performed; a CPYB keeps what it has read for its later copies (R279). -/
def Progress.did (p : Progress) (k : CopyKind) (part j : Nat) : Progress :=
  { p with done := setAdd p.done part, vals := if k = .cpyb then p.vals else p.vals.filter fun e => e.1 != j }

/-- One part of a command: part p over all its copies; a command that has ended does nothing more. -/
def copyPart (uid : Nat) (cb : Bool) (c : CopyCmd) (parts : List (List Nat)) (r : CopyRun) (p : Nat) : CopyRun :=
  let unit : BitVec 3 := if cb then 3 else 2
  let exts := windowExts c.sw c.sw1
  let k := p / parts.length
  let j := p % parts.length
  let blk := parts.getD j []
  if r.fin ≠ .done then r
  else
    let (es, r) := r.fetch uid unit c (k * prodN exts) j blk
    if r.fin ≠ .done then r
    else
      let r := if fmtBlock c.hD.fmt then copyBlock uid unit c exts r k blk es else copyElem uid unit c exts r k (blk.headD 0) (es.headD none)
      { r with at_ := r.at_.did c.kind p j }

/-- Parts of a command, one after the other. -/
def State.runCopy (s : State) (uid : Nat) (cb : Bool) (c : CopyCmd) (l : List Nat) : CopyRun :=
  l.foldl (copyPart uid cb c c.parts) { st := s, at_ := c.progress, fin := .done }

/-- The places that part p of a command still has to read and to write; none where one of them faults. -/
def State.partPlaces (s : State) (n : Node) (c : CopyCmd) (p : Nat) : Option (List Place × List Place) :=
  let exts := windowExts c.sw c.sw1
  let j := p % c.parts.length
  let blk := c.parts.getD j []
  let src := if c.kind = .cpyf ∨ (c.progress.got j).isSome then some []
    else s.elemPlaces n c.hS false (blk.map fun i => addOrg c.hS.orgs (unlin exts i))
  match src, s.elemPlaces n c.hD true (blk.map fun i => c.destCell (p / c.parts.length) (unlin exts i)) with
  | some a, some b => some (a, b)
  | _, _ => none

/-- Part p of a command may be performed now, or only its source read: what it reaches is reached by no earlier part that is still to be performed, so that at
every byte the order of R278 holds (R287, R288), and none of these would end the command. DESIGN CHOICE: log entry 5. -/
def State.mayMove (s : State) (uid : Nat) (c : CopyCmd) (p : Nat) (readOnly : Bool) : Bool :=
  let n := s.node uid
  c.rest.contains p && (!readOnly || (decide (p < c.parts.length) && c.kind != .cpyf && (c.progress.got p).isNone)) &&
    match s.partPlaces n c p with
    | none => false
    | some (src, dst) =>
      let mine := if readOnly then src else src ++ dst
      (c.rest.takeWhile (· < p)).all fun q => match s.partPlaces n c q with
        | some (a, b) => disjointPlaces mine (a ++ b)
        | none => false

/-! ## Completion (R280, R283, R284) -/

/-- The record of a slot's first fault (R283). -/
def Node.recordCopyFault (n : Node) (cb : Bool) (addr : BitVec 22) (elem : Nat) : Node :=
  let v : Word := BitVec.ofNat 64 (addr.toNat * 2 ^ 42 + elem % 2 ^ 32 * 2 ^ 8 + 0x80 + 0x11)
  let c := n.ctl
  let c := if cb then (if c.cfb.getLsbD 7 then c else { c with cfb := v }) else (if c.cfa.getLsbD 7 then c else { c with cfa := v })
  ({ n with ctl := c }).setFault (if cb then 1 else 0)

/-- With ACQ, everything that the node issued in other engines before a command has been performed (R280, R292); a command without reads has nothing to acquire. -/
def State.mayStart (s : State) (uid : Nat) (cb : Bool) (c : CopyCmd) : Bool :=
  c.progress.begun || ctlAcq c.sw1 == 0 || c.kind == .cpyf || (s.node uid).eng.acquired (if cb then 1 else 0) c.ord

/-- A command stands first in its slot over the core's resident nodes whose engines work (R273, R280). -/
def State.leads (s : State) (uid : Nat) (cb : Bool) (c : CopyCmd) : Bool :=
  (s.sharers uid).all fun m => match m.eng.queue cb with
    | d :: _ => !m.live || decide (c.seq ≤ d.seq)
    | [] => true

/-- The command at the head of a node's queue in a slot is the one that completes next (R280): the first of the slot, which may start. -/
def State.isNext (s : State) (uid : Nat) (cb : Bool) (c : CopyCmd) : Bool := s.mayStart uid cb c && s.leads uid cb c

/-- The engine of a slot works on the command at the head of a node's queue to its end. -/
def State.headMoves (s : State) (uid : Nat) (cb : Bool) (c : CopyCmd) : Bool := (s.node uid).live && s.isNext uid cb c

/-- The commands that stand before a command in its slot, with their nodes (R273). -/
def State.slotBefore (s : State) (uid : Nat) (cb : Bool) (c : CopyCmd) : List (Nat × CopyCmd) :=
  (s.sharers uid).flatMap fun m => if m.live then ((m.eng.queue cb).filter fun d => decide (d.seq < c.seq)).map fun d => (m.desc.uid, d) else []

/-- Part p of a command may go before the commands that stand before it in its slot (R280, R287): it reaches no byte that they still have to reach, and none of them
would end in a fault; with ACQ its node has no command among them, and with REL it writes behind all of them (R292). DESIGN CHOICE: log entry 5. -/
def State.mayPass (s : State) (uid : Nat) (cb : Bool) (c : CopyCmd) (p : Nat) (readOnly : Bool) : Bool :=
  let before := s.slotBefore uid cb c
  before.isEmpty ||
    ((ctlAcq c.sw1 == 0 || c.kind == .cpyf || !before.any (·.1 == uid)) && (readOnly || ctlRel c.sw1 == 0) &&
      match s.partPlaces (s.node uid) c p with
      | none => false
      | some (src, dst) =>
        let mine := if readOnly then src else src ++ dst
        before.all fun x => x.2.rest.all fun q => match s.partPlaces (s.node x.1) x.2 q with
          | some (a, b) => disjointPlaces mine (a ++ b)
          | none => false)

/-- One move of a command under way: a part performed, or its source read. One that may not move stays as it is. -/
def copyMove (uid : Nat) (cb : Bool) (c : CopyCmd) (r : CopyRun) (m : Nat × Bool) : CopyRun :=
  let now := { c with progress := r.at_ }
  if !r.st.mayMove uid now m.1 m.2 || !r.st.mayPass uid cb now m.1 m.2 then r
  else if m.2 then (r.fetch uid (if cb then 3 else 2) c 0 m.1 (c.parts.getD m.1 [])).2
  else copyPart uid cb c c.parts r m.1

/-- Parts of the command at a place of a slot's queue (R281, R287): its writes reach the node's other agents before it completes, in any order, apart from its reads,
and before those of earlier commands. Parts that would end the command in a fault are left to its completion. DESIGN CHOICE: log entry 5. -/
def State.moveCopy (s : State) (uid : Nat) (cb : Bool) (place : Nat) (moves : List (Nat × Bool)) : State :=
  match ((s.node uid).eng.queue cb)[place]? with
  | none => s
  | some c =>
    let r := moves.foldl (copyMove uid cb c) { st := s, at_ := c.progress, fin := .done }
    if !(s.node uid).live || !s.mayStart uid cb c || r.fin != .done then s
    else r.st.mapNode uid fun n => { n with eng := n.eng.setQueue cb ((n.eng.queue cb).set place { c with progress := r.at_ }) }

/-- The command at the head of a slot's queue is performed to its end and completes (R280, R283). -/
def State.completeCopy (s : State) (uid : Nat) (cb : Bool) (c : CopyCmd) : State :=
  let r := s.runCopy uid cb c c.rest
  match r.fin with
  | .stops f => r.st.memFault uid f
  | fin =>
    let s := r.st.mapNode uid fun n =>
      let n := n.noteWrite c.hD c.win (if ctlCe c.sw1 then r.at_.census else none) r.at_.sat r.at_.poi
      { n with eng := n.eng.setQueue cb ((n.eng.queue cb).drop 1) }
    match fin with
    | .access e => (s.countCause uid 0x11).mapNode uid fun n => n.recordCopyFault cb c.addr e
    | _ =>
      let s := if ctlCv c.sw1 then s.addCounter uid (ctlCnt c.sw1) (windowBytes (windowExts c.sw c.sw1) (fmtWidth c.hD.fmt) c.reps) else s
      if ctlUi c.sw1 then s.mapNode uid fun n => n.addRecord (if cb then 1 else 0) (ctlCnt c.sw1) else s

/-- CPY (R278): Queues a copy of a window between two handles on a copy slot. -/
def execCpy (q : BitVec 2) (g : BitVec 4) (h : BitVec 4) (s : BitVec 4) (w : BitVec 4) (σ : State) : Result :=
  word (.cpy q g h s w) σ fun σ => σ.issueCopy (.cpy q g h s w) .cpy h s w none

/-- CPYK (R278): Queues a copy that narrows or shifts each element. -/
def execCpyk (q : BitVec 2) (g : BitVec 4) (h : BitVec 4) (s : BitVec 4) (w : BitVec 4) (σ : State) : Result :=
  word (.cpyk q g h s w) σ fun σ => σ.issueCopy (.cpyk q g h s w) .cpyk h s w none

/-- CPYF (R278): Queues a fill of a window with a scalar value. -/
def execCpyf (q : BitVec 2) (g : BitVec 4) (h : BitVec 4) (w : BitVec 4) (v : BitVec 5) (σ : State) : Result :=
  word (.cpyf q g h w v) σ fun σ => σ.issueCopy (.cpyf q g h w v) .cpyf h 0 w (some v)

/-- CPYB (R279): Queues a copy whose source is written several times at strided origins. -/
def execCpyb (q : BitVec 2) (g : BitVec 4) (h : BitVec 4) (s : BitVec 4) (w : BitVec 4) (m : BitVec 5) (σ : State) : Result :=
  word (.cpyb q g h s w m) σ fun σ => σ.issueCopy (.cpyb q g h s w m) .cpyb h s w (some m)

/-- CPYQ (R279): Arms a copy that fires when a counter reaches a threshold. -/
def execCpyq (q : BitVec 2) (g : BitVec 4) (h : BitVec 4) (s : BitVec 4) (w : BitVec 4) (t : BitVec 5) (σ : State) : Result :=
  word (.cpyq q g h s w t) σ fun σ => σ.issueCopy (.cpyq q g h s w t) .cpyq h s w (some t)

/-- CPYCAN (R282): Cancels armed and not-yet-writing copy commands of the selected slots, at a later step of its own. DEDUCED: log entry 32. -/
def execCpycan (q : BitVec 2) (g : BitVec 4) (a : BitVec 1) (b : BitVec 1) (σ : State) : Result :=
  word (.cpycan q g a b) σ fun σ =>
    let σ := if a = 1 then σ.cancelSlot false else σ
    if b = 1 then σ.cancelSlot true else σ

end Sys2Proof.Machine
end

