-- ==== Sys2Proof/Machine/Launch.lean ====
section
/-! DEFINITION. Validation of images, nodes and graphs, and the nodes a launch creates (R55 to R67, R393). -/

namespace Sys2Proof.Machine

/-! ## What the Awl reads and writes for a packet (R54, R252, R254, R261) -/

/-- Where a tensor-relative address of a packet lies; the firmware tensor is reached by host packets alone (R252). A descriptor or an image may lie at any
level to which its address translates. DESIGN CHOICE: log entry 70. -/
def State.awlPA (s : State) (sp : BitVec 6) (host : Bool) (addr : Nat) (write : Bool) : Option (Nat × Bool) :=
  let tid := addr / 2 ^ 44
  let off := addr % 2 ^ 44
  if tid = 0xFFFFF then (if host ∧ off < 2 ^ 26 then some (ringPA off, false) else none)
  else
    match s.translate sp host tid off write with
    | .ok r => some r
    | .error _ => none

/-- Bytes of a tensor-relative range with their poison marks; none where a byte does not translate. -/
def State.awlBytes (s : State) (sp : BitVec 6) (host : Bool) (addr : Nat) : Nat → Option (List (Byte × Bool))
  | 0 => some []
  | n + 1 =>
    match s.awlPA sp host addr false, State.awlBytes s sp host (addr + 1) n with
    | some (pa, p), some l => some ((s.byte pa, s.poisoned pa || p) :: l)
    | _, _ => none

/-- The plain bytes of a range. -/
def State.awlRead (s : State) (sp : BitVec 6) (host : Bool) (addr n : Nat) : Option (List Byte) := (s.awlBytes sp host addr n).map fun l => l.map (·.1)

/-- A little-endian field of a list of bytes; bytes beyond the end read 0. -/
def fieldB (l : List Byte) (off n : Nat) : Nat := leNat ((l.drop off).take n)

/-- Bytes off to off + n - 1 are zero. -/
def zeroB (l : List Byte) (off n : Nat) : Bool := ((l.drop off).take n).all (· == 0)

/-! ## CRC-32 (R56) -/

def crcBit (c : Nat) : Nat := if c % 2 = 1 then (c / 2) ^^^ 0xEDB88320 else c / 2
def crcByte (c : Nat) (b : Byte) : Nat := crcBit (crcBit (crcBit (crcBit (crcBit (crcBit (crcBit (crcBit (c ^^^ b.toNat))))))))
def crc32 (l : List Byte) : Nat := (l.foldl crcByte 0xFFFFFFFF) ^^^ 0xFFFFFFFF

/-! ## Images (R56 to R63) -/

/-- Entry i of a table of entries of `size` bytes at `off`. -/
def entryB (l : List Byte) (off size i : Nat) : List Byte := (l.drop (off + size * i)).take size

/-- Flags and counts of an image's header. -/
def imgFlag (l : List Byte) (bit : Nat) : Bool := (fieldB l 0x10 4).testBit bit
def imgOperands (l : List Byte) : List (List Byte) := (List.range (fieldB l 0x29 1)).map fun i => entryB l (fieldB l 0x30 4) 4 i
def imgScratch (l : List Byte) : List (List Byte) := (List.range (fieldB l 0x38 2)).map fun i => entryB l (fieldB l 0x34 4) 8 i
/-- The segment table (R61): an image without FLAGS.OVL has none. -/
def imgSegments (l : List Byte) : List (List Byte) := if !imgFlag l 3 then [] else (List.range (fieldB l 0x28 1)).map fun i => entryB l (fieldB l 0x24 4) 16 i

/-- The splice descriptor of a marked image. -/
def imgSplice (l : List Byte) : Option (List Byte) :=
  if (imgFlag l 1 || imgFlag l 2) && fieldB l 0x2C 4 != 0 then some (entryB l (fieldB l 0x2C 4) 32 0) else none

/-- Stage 1 (R56): integrity. `room`: bytes of the tensor from the image's first byte on. -/
def imgIntact (l : List Byte) (room : Nat) : Bool :=
  fieldB l 0 4 == 0x01494B55 && fieldB l 4 2 == 1 && fieldB l 6 2 == 128 && decide (128 ≤ fieldB l 0x40 4) && decide (fieldB l 0x40 4 ≤ room)

/-- The CRC over the image with its own field taken as zero. -/
def imgCrcOk (l : List Byte) : Bool := crc32 (l.take 0x44 ++ [0, 0, 0, 0] ++ l.drop 0x48) == fieldB l 0x44 4

/-- Stage 2 (R55, R56): reserved fields. DEDUCED: log entry 29. DEDUCED: log entry 44. -/
def imgReservedOk (l : List Byte) : Bool :=
  let part := fieldB l 0x14 4
  fieldB l 0x10 4 / 256 == 0 && zeroB l 0x2A 1 && zeroB l 0x3A 2 && zeroB l 0x48 56 &&
    bitsOf part 31 22 == 0 && bitsOf part 15 12 == 0 && bitsOf part 7 6 == 0 &&
    ((imgScratch l).all fun e => fieldB e 4 4 / 2 ^ 20 == 0) &&
    ((imgSegments l).all fun e => fieldB e 6 1 / 2 == 0 && zeroB e 7 9) &&
    ((imgOperands l).all fun e => bitsOf (fieldB e 0 4) 31 19 == 0 && bitsOf (fieldB e 0 4) 15 11 == 0 && bitsOf (fieldB e 0 4) 7 4 == 0) &&
    (match imgSplice l with
      | some d => zeroB d 7 1 && zeroB d 0x19 7
      | none => true)

/-- Every element stands once. -/
def noRepeat (l : List Nat) : Bool :=
  match l with
  | [] => true
  | a :: rest => !rest.contains a && noRepeat rest

/-- Stage 3 (R56): every other limit, and no table or code range beyond the image; a table without entries whose offset lies beyond the image is taken as one that
extends beyond it (DESIGN CHOICE: log entry 92). DEDUCED: log entry 44. -/
def imgLimitsOk (l : List Byte) : Bool :=
  let len := fieldB l 0x40 4
  let part := fieldB l 0x14 4
  let tile := bitsOf part 5 0
  let acc := bitsOf part 11 8
  let scr := bitsOf part 21 16
  let ovl := imgFlag l 3
  let entry := fieldB l 0x20 4
  let segs := fieldB l 0x28 1
  fieldB l 8 8 != 0 && decide (tile ≤ 32) && decide (acc ≤ 8) && decide (tile + acc + scr ≤ 48) &&
    (if ovl then fieldB l 0x18 4 == 0 && fieldB l 0x1C 4 == 0 && decide (1 ≤ segs) && decide (segs ≤ 64) && entry % 65536 % 12 == 0
     else fieldB l 0x18 4 % 4 == 0 && fieldB l 0x1C 4 % 12 == 0 && decide (12 ≤ fieldB l 0x1C 4) && decide (fieldB l 0x1C 4 ≤ 262140) &&
       decide (fieldB l 0x18 4 + fieldB l 0x1C 4 ≤ len) && fieldB l 0x24 4 == 0 && segs == 0 && entry % 12 == 0) &&
    decide (fieldB l 0x29 1 ≤ 8) && decide (fieldB l 0x38 2 ≤ 1024) &&
    (if imgFlag l 0 then fieldB l 0x2B 1 == 0 else decide (1 ≤ fieldB l 0x2B 1) && decide (fieldB l 0x2B 1 ≤ 64)) &&
    (imgFlag l 1 || imgFlag l 2 || fieldB l 0x2C 4 == 0) &&
    decide (fieldB l 0x30 4 + 4 * fieldB l 0x29 1 ≤ len) && decide (fieldB l 0x34 4 + 8 * fieldB l 0x38 2 ≤ len) && decide (fieldB l 0x24 4 + 16 * segs ≤ len) &&
    ((imgScratch l).all fun e => fieldB e 0 4 != 0 && fieldB e 4 4 % 2 ^ 20 != 0) && noRepeat ((imgScratch l).map fun e => fieldB e 4 4 % 2 ^ 20) &&
    ((imgSegments l).all fun e => fieldB e 0 4 % 4 == 0 && decide (1 ≤ fieldB e 4 2) && decide (fieldB e 4 2 ≤ 5461) && decide (fieldB e 0 4 + 12 * fieldB e 4 2 ≤ len)) &&
    ((imgOperands l).all fun e =>
      let v := fieldB e 0 4
      bitsOf v 17 16 != 0 && decide (1 ≤ bitsOf v 10 8) && decide (bitsOf v 10 8 ≤ 5) && decide (bitsOf v 3 0 < 6)) &&
    (match imgSplice l with
      | some d => decide (1 ≤ fieldB d 4 2) && decide (fieldB d 4 2 ≤ 1024) && decide (fieldB d 6 1 ≤ 5) && decide (fieldB l 0x2C 4 + 32 ≤ len)
      | none => true)

/-- The layout of the scratchpad (R60, R247): TID, base and recorded size of each allocation, from `base` on. -/
def scratchLayout (base : Nat) : List (List Byte) → List (Nat × Nat × Nat)
  | [] => []
  | e :: rest =>
    let size := ceilDiv (fieldB e 0 4) 256 * 256 + 256
    (fieldB e 4 4 % 2 ^ 20, base, size) :: scratchLayout (base + size) rest

/-- An operand declaration (R63). -/
def operandOf (e : List Byte) : Operand :=
  let v := fieldB e 0 4
  { fwd := v.testBit 18, mode := BitVec.ofNat 2 (bitsOf v 17 16), rank := BitVec.ofNat 3 (bitsOf v 10 8), fmt := BitVec.ofNat 4 (bitsOf v 3 0) }

/-- A splice descriptor (R62). -/
def spliceOf (d : List Byte) : SpliceDesc :=
  { body := BitVec.ofNat 32 (fieldB d 0 4), bpkt := fieldB d 4 2, level := fieldB d 6 1, tmask := BitVec.ofNat 64 (fieldB d 8 8),
    smask := BitVec.ofNat 32 (fieldB d 0x10 4), amask := BitVec.ofNat 16 (fieldB d 0x14 2), hmask := BitVec.ofNat 16 (fieldB d 0x16 2),
    pmask := BitVec.ofNat 8 (fieldB d 0x18 1) }

/-- What the Awl keeps of an image at an address. -/
def imageOf (l : List Byte) (addr : Nat) : Image :=
  { imgid := BitVec.ofNat 64 (fieldB l 8 8), addr := BitVec.ofNat 64 addr, uirq := imgFlag l 7, comm := imgFlag l 6,
    gang := BitVec.ofNat 2 (bitsOf (fieldB l 0x10 4) 5 4), ovl := imgFlag l 3, splc := imgFlag l 2, splp := imgFlag l 1, unstg := imgFlag l 0,
    part := BitVec.ofNat 32 (fieldB l 0x14 4), codeOff := fieldB l 0x18 4, codeLen := fieldB l 0x1C 4, entry := BitVec.ofNat 32 (fieldB l 0x20 4),
    uivec := BitVec.ofNat 32 (fieldB l 0x3C 4), budget := fieldB l 0x2B 1, opnds := (imgOperands l).map operandOf,
    scr := scratchLayout 256 (imgScratch l), splice := (imgSplice l).map spliceOf,
    segs := (imgSegments l).map fun e => (fieldB e 0 4, fieldB e 4 2, (fieldB e 6 1).testBit 0) }

/-- How a check of a launch ends other than well: an address that does not translate, or a refusal (R393). -/
inductive LaunchFail where
  | xlate
  | refuse (code : Nat)
deriving DecidableEq, Repr

/-- The bytes of a tensor from an address on (R56); none where the address does not translate. -/
def State.roomAt (s : State) (sp : BitVec 6) (host : Bool) (addr : Nat) : Option Nat :=
  let tid := addr / 2 ^ 44
  let off := addr % 2 ^ 44
  if tid = 0xFFFFF then (if host then some (2 ^ 26 - off) else none)
  else
    match s.tensorEntry sp tid 0 with
    | .ok (_, _, size) => some (size - off)
    | .error _ => none

/-- An image as a launch presents it (R56, R393): an IMGID validated since reset is not checked again. Two contents under one IMGID are the case
that R56 leaves open: which of them counts is a free value. DESIGN CHOICE: log entry 52. -/
def State.launchImage (s : State) (sp : BitVec 6) (host : Bool) (addr : Nat) : State × Except LaunchFail Image :=
  match s.awlRead sp host addr 128, s.roomAt sp host addr with
  | some h, some room =>
    let known := s.awl.validated.find? fun e => e.1.toNat == fieldB h 8 8
    match known with
    | some (_, img) =>
      match s.awlRead sp host addr (min room (fieldB h 0x40 4)) with
      | none => (s, .ok { img with addr := BitVec.ofNat 64 addr })
      | some l =>
        let img : Image := { img with addr := BitVec.ofNat 64 addr }
        if imageOf l addr = img then (s, .ok img)
        else
          let (b, s) := s.takeFreeBool
          (s, .ok (if b then img else imageOf l addr))
    | none =>
      if !imgIntact h room then (s, .error (.refuse 0x10))
      else
        match s.awlRead sp host addr (fieldB h 0x40 4) with
        | none => (s, .error .xlate)
        | some l =>
          if !imgCrcOk l then (s, .error (.refuse 0x10))
          else if !imgReservedOk l then (s, .error (.refuse 0x02))
          else if !imgLimitsOk l then (s, .error (.refuse 0x10))
          else
            let img := imageOf l addr
            ({ s with awl := { s.awl with validated := s.awl.validated ++ [(img.imgid, img)] } }, .ok img)
  | _, _ => (s, .error .xlate)

/-! ## Node descriptors (R64, R65) -/

/-- The reserved fields of a descriptor; operand slots at or above OPND_CNT must be zero too. DEDUCED: log entry 44. -/
def nodeReservedOk (d : List Byte) : Bool :=
  let f := fieldB d 0 4
  bitsOf f 3 3 == 0 && f / 512 == 0 && bitsOf (fieldB d 4 2) 14 12 == 0 && zeroB d 0x1B 5 && zeroB d 0x60 32 &&
    ((List.range 8).all fun i => zeroB d (0xA8 + 48 * i) 8 && (decide (i < fieldB d 0x1A 1) || zeroB d (0x80 + 48 * i) 48))

/-- A handle of a descriptor, and the address of its scale record. -/
def nodeHandle (d : List Byte) (i : Nat) : Handle := BitVec.ofNat 256 (fieldB d (0x80 + 48 * i) 32)
def nodeSrec (d : List Byte) (i : Nat) : Word := BitVec.ofNat 64 (fieldB d (0xA0 + 48 * i) 8)

/-- A handle agrees with its declaration and with the staging mode (R65). -/
def operandAgrees (unstg : Bool) (h : Handle) (o : Operand) : Bool := h.rank == o.rank.toNat && h.fmt == o.fmt.toNat && h.stg == !unstg

/-- Two operands that name one scale register name one record (R65). -/
def kidxAgree : List (Handle × Word) → Bool
  | [] => true
  | e :: rest => (rest.all fun f => f.1.kidx != e.1.kidx || f.2 == e.2) && kidxAgree rest

/-- A node that has passed its checks: its description, its predecessor count and its successors by index. -/
structure Checked where
  desc : Desc
  pred : Nat
  succ : List Nat
deriving DecidableEq, Repr

/-- The checks of one node (R393, step 2). -/
def State.launchNodeCheck (s : State) (sp : BitVec 6) (host : Bool) (addr index : Nat) (solo : Bool) (seed step : BitVec 32) : State × Except LaunchFail Checked :=
  match s.awlRead sp host addr 512 with
  | none => (s, .error .xlate)
  | some d =>
    if !nodeReservedOk d then (s, .error (.refuse 0x02))
    else
    match s.awlRead sp host (fieldB d 0x10 8) (4 * fieldB d 0x18 2) with
    | none => (s, .error .xlate)
    | some sl =>
      let succ := (List.range (fieldB d 0x18 2)).map fun i => fieldB sl (4 * i) 4
      if succ.any (fun x => decide (2 ^ 20 ≤ x)) then (s, .error (.refuse 0x02))
      else
        match s.launchImage sp host (fieldB d 8 8) with
        | (s, .error e) => (s, .error e)
        | (s, .ok img) =>
          let n := fieldB d 0x1A 1
          let hs := (List.range n).map (nodeHandle d)
          let rs := (List.range n).map (nodeSrec d)
          if n ≠ img.opnds.length then (s, .error (.refuse 0x11))
          else if !((hs.zip img.opnds).all fun e => operandAgrees img.unstg e.1 e.2) || !kidxAgree (hs.zip rs) then (s, .error (.refuse 0x11))
          else if solo && (fieldB d 6 2 != 0 || fieldB d 0x18 2 != 0) then (s, .error (.refuse 0x12))
          else
            let f := fieldB d 0 4
            let j := fieldB d 4 2
            let desc : Desc :=
              { queue := sp, index := index, addr := BitVec.ofNat 64 addr, prio := BitVec.ofNat 3 (f % 8), stage := BitVec.ofNat 4 (f / 16 % 16),
                anyStage := f.testBit 8, jcb := if j.testBit 15 then some (BitVec.ofNat 12 (j % 4096)) else none, image := img,
                args := (List.range 8).map (fun i => BitVec.ofNat 64 (fieldB d (0x20 + 8 * i) 8)), handles := hs, srecs := rs, gseed := seed, gstep := step }
            (s, .ok { desc := desc, pred := fieldB d 6 2, succ := succ })

/-- The checks of the nodes of a launch in ascending index: the first failure with its index. -/
def State.launchNodes (s : State) (sp : BitVec 6) (host : Bool) (addr : Nat) (solo : Bool) (seed step : BitVec 32) (i : Nat) :
    Nat → State × Except (LaunchFail × Nat) (List Checked)
  | 0 => (s, .ok [])
  | n + 1 =>
    match s.launchNodeCheck sp host (addr + 512 * i) i solo seed step with
    | (s, .error e) => (s, .error (e, i))
    | (s, .ok c) =>
      match State.launchNodes s sp host addr solo seed step (i + 1) n with
      | (s, .error e) => (s, .error e)
      | (s, .ok l) => (s, .ok (c :: l))

/-! ## Graphs (R67) -/

/-- How often an index stands in the successor lists. -/
def predCount (l : List Checked) (i : Nat) : Nat := (l.map fun c => (c.succ.filter (· == i)).length).sum

/-- The lowest index that names a successor out of range or whose PRED differs from its count. -/
def graphBadCount (l : List Checked) : Option Nat :=
  (l.zipIdx.find? fun c => c.1.succ.any (fun x => decide (l.length ≤ x)) || c.1.pred != predCount l c.2).map (·.2)

/-- Remove zero-count nodes in turn: what is left, by index, count and successors. -/
def removeZero (l : List (Nat × Nat × List Nat)) : Nat → List (Nat × Nat × List Nat)
  | 0 => l
  | fuel + 1 =>
    let gone := l.filter fun e => e.2.1 == 0
    if gone.isEmpty then l
    else
      let named := gone.flatMap fun e => e.2.2
      removeZero ((l.filter fun e => e.2.1 != 0).map fun e => (e.1, e.2.1 - (named.filter (· == e.1)).length, e.2.2)) fuel

/-- The lowest index on a cycle or behind one, as the removal leaves it. -/
def graphCycle (l : List Checked) : Option Nat := ((removeZero (l.zipIdx.map fun c => (c.2, c.1.pred, c.1.succ)) l.length).map (·.1)).head?

/-- How a launch ends: the graph that now exists, an error-class XLATE, or a refusal with the node index it names. -/
inductive LaunchEnd where
  | graph (g : Nat)
  | xlate
  | refuse (code node : Nat)
deriving DecidableEq, Repr

/-- The nodes of a launch come into being (R66, R67): those without predecessors are READY. -/
def State.createNodes (s : State) (sp : BitVec 6) (jcb : Option (BitVec 12)) (parent : Nat) (l : List Checked) : Nat × State :=
  let g := s.awl.nextGraph
  let base := s.awl.nextUid
  let make := fun (c : Checked × Nat) =>
    let d : Desc := { c.1.desc with uid := base + c.2, graph := g, launchOrder := s.awl.launchSeq, readyOrder := if c.1.pred = 0 then s.awl.readySeq + 1 else 0,
                                    succs := c.1.succ.map (base + ·), parent := parent }
    let r : Run := { st := if c.1.pred = 0 then .ready else .waiting, remaining := c.1.pred }
    ({ desc := d, run := r, regs := Regs.reset, ctl := {}, eng := {} } : Node)
  let entry : Graph := { id := g, queue := sp, jcb := jcb, count := l.length, failed := none, live := [] }
  (g, { s with nodes := (l.zipIdx.map make).foldl nodesPut s.nodes,
               awl := { s.awl with nextGraph := g + 1, nextUid := base + l.length, launchSeq := s.awl.launchSeq + 1, readySeq := s.awl.readySeq + 1,
                                   graphs := s.awl.graphs ++ [entry] } })

/-- A launch of `n` nodes from an address (R393). -/
def State.launch (s : State) (sp : BitVec 6) (host : Bool) (addr n : Nat) (solo : Bool) (seed step : BitVec 32) (jcb : Option (BitVec 12)) (parent : Nat) :
    State × LaunchEnd :=
  match s.launchNodes sp host addr solo seed step 0 n with
  | (s, .error (.xlate, _)) => (s, .xlate)
  | (s, .error (.refuse c, i)) => (s, .refuse c i)
  | (s, .ok l) =>
    match if solo then none else graphBadCount l with
    | some i => (s, .refuse 0x12 i)
    | none =>
      match if solo then none else graphCycle l with
      | some i => (s, .refuse 0x13 i)
      | none =>
        let (g, s) := s.createNodes sp jcb parent l
        (s, .graph g)

/-! ## Ends of nodes and graphs (R66, R72, R78) -/

/-- A graph's launch has completed (R78). -/
def State.graphDone (s : State) (g : Nat) : Bool :=
  let ns := s.allNodes.filter fun n => n.desc.graph == g
  match s.awl.graphs.find? fun e => e.id == g with
  | none => true
  | some e =>
    match e.failed with
    | none => ns.all fun n => n.run.st == .committed
    | some _ => ns.all fun n => !e.live.contains n.desc.uid || n.run.st == .committed || n.run.st == .failed || n.run.st == .removed

/-- The status that a launch completes with (R78). -/
def State.graphStatus (s : State) (g : Nat) : BitVec 16 :=
  match (s.awl.graphs.find? fun e => e.id == g).bind (·.failed) with
  | none => 0
  | some f => f.extractLsb' 0 16

/-- One predecessor of a node has committed: its count falls, and at 0 it becomes READY unless its graph has failed (R66, R70, R72); a node that had begun at the
failure runs on, and so becomes READY again after a rollback. The nodes that one
commit makes READY do so together (R91). -/
def State.decrement (s : State) (uid : Nat) : State :=
  let n := s.node uid
  if n.run.st ≠ .waiting ∧ n.run.remaining = 0 then s
  else
    let r := n.run.remaining - 1
    let bad := s.awl.graphs.any fun e => e.id == n.desc.graph && e.failed.isSome && !e.live.contains uid
    if n.run.st = .waiting ∧ r = 0 ∧ !bad then
      s.setNode { n with run := { n.run with st := .ready, remaining := 0 }, desc := { n.desc with readyOrder := if n.desc.readyOrder = 0 then s.awl.readySeq + 1 else n.desc.readyOrder } }
    else s.setNode { n with run := { n.run with remaining := r } }

end Sys2Proof.Machine
end

