-- ==== Sys2Proof/Machine/Queue.lean ====
section
/-! DEFINITION. Command queues, their rotations and registers, completion and reset (R74 to R79, R82, R83, R86, R87, R89). -/

namespace Sys2Proof.Machine

/-! ## Queues and their states (R74 to R78, R82) -/

def State.queue (s : State) (q : BitVec 6) : Queue := s.awl.queues[q.toNat]
def State.setQueue (s : State) (q : BitVec 6) (x : Queue) : State := { s with awl := { s.awl with queues := s.awl.queues.setIfInBounds q.toNat x } }
def State.mapQueue (s : State) (q : BitVec 6) (f : Queue → Queue) : State := s.setQueue q (f (s.queue q))

/-- The packet in progress of a queue was started under a generation of its space that is no longer the current one (R263). -/
def State.packetStale (s : State) (q : BitVec 6) : Bool :=
  match (s.queue q).cur with
  | some c => c.asgen != (s.space q).asgen
  | none => false

/-- A write with a stale tag is discarded and counted (R263). -/
def State.dropWrite (s : State) : State := s.count "stale-generation writes dropped"

/-- Pending packets (R76). -/
def Queue.pending (x : Queue) : Nat := (x.tail - x.head).toNat

/-- The ring size in packets. -/
def Queue.ring (x : Queue) : Nat := 2 ^ x.logsize.toNat

/-- A queue in which packets wait to be taken. -/
def Queue.work (x : Queue) : Bool := x.pending != 0 && (x.st == .idle || x.st == .active || x.st == .waiting || x.st == .suspended)

/-- Enter ERROR with a status (R77, R79). -/
def Queue.fail (x : Queue) (status : BitVec 16) : Queue :=
  { x with st := .error, status := status, erridx := x.head.extractLsb' 0 16, cur := none, tailError := false, sliceEnd := false }

/-- Enter IDLE, or what takes its place: ERROR when the pending count is too large, DISABLED while a clear of EN is held (R76, R77). -/
def Queue.enterIdle (x : Queue) : Queue :=
  if x.ring < x.pending then x.fail 3
  else if x.heldClear then { x with st := .disabled, en := false, heldClear := false }
  else { x with st := .idle }

/-- SLICE and PRIO of a SLICE packet take effect. -/
def Queue.newSlice (x : Queue) : Queue :=
  match x.nextSlice with
  | some (sl, p) => { x with slice := sl, prio := p, nextSlice := none }
  | none => x

/-- The queues of a rotation in ascending order (R82). -/
def State.rotation (s : State) (prio : Nat) : List Nat :=
  (List.range 64).filter fun q => match s.awl.queues[q]? with
    | some x => x.slice != 0 && x.prio.toNat == prio && x.st != .disabled
    | none => false

/-- The next queue of a rotation after `q`, wrapping round, that has pending packets. -/
def State.nextInRotation (s : State) (l : List Nat) (q : Nat) : Option Nat :=
  (l.filter (fun x => decide (q < x)) ++ l.filter fun x => decide (x ≤ q)).find? fun x => x != q && (s.awl.queues[x]?.getD {}).work

/-- Holding passes to a queue, whose new slice starts. -/
def State.makeHolder (s : State) (prio : Nat) (q : Nat) : State :=
  let s := { s with awl := { s.awl with holder := s.awl.holder.setIfInBounds prio (some (BitVec.ofNat 6 q)) } }
  s.mapQueue (BitVec.ofNat 6 q) fun x => { x.newSlice with sliceEnd := false }

/-- The holder of a rotation as it must stand: one without packets to take, be it idle, in error or resetting, passes to the next queue with pending
packets at once, so that the rotation never stands still (R82). -/
def State.settleHolder (s : State) (prio : Nat) : State :=
  let l := s.rotation prio
  match s.awl.holder[prio]?.getD none with
  | none =>
    match l.find? fun q => (s.awl.queues[q]?.getD {}).work with
    | some q => s.makeHolder prio q
    | none => match l with
      | q :: _ => s.makeHolder prio q
      | [] => s
  | some h =>
    if !l.contains h.toNat then
      match s.nextInRotation l h.toNat with
      | some q => s.makeHolder prio q
      | none => match l with
        | q :: _ => s.makeHolder prio q
        | [] => { s with awl := { s.awl with holder := s.awl.holder.setIfInBounds prio none } }
    else if !(s.queue h).work then
      match s.nextInRotation l h.toNat with
      | some q => s.makeHolder prio q
      | none => s
    else s

/-- A queue is the holder of its rotation, or has no slice (R82, R91). -/
def State.holds (s : State) (q : BitVec 6) : Bool := (s.queue q).slice == 0 || s.awl.holder[(s.queue q).prio.toNat] == some q

/-- A queue as it must stand (R77): an IDLE queue with packets becomes ACTIVE or SUSPENDED, and the holder is not suspended. -/
def State.settleQueue (s : State) (q : BitVec 6) : State :=
  let x := s.queue q
  if x.st == .idle && x.pending != 0 then s.setQueue q { x with st := if s.holds q then .active else .suspended }
  else if x.st == .suspended && s.holds q then s.setQueue q { x with st := .active }
  else if (x.st == .active || x.st == .waiting) && !s.holds q && x.cur.isNone then s.setQueue q { x with st := .suspended }
  else s

/-- The number of queues whose SLICE and PRIO are still to change. -/
def State.slicesDue (s : State) : Nat := (s.awl.queues.toList.filter fun x => x.nextSlice.isSome).length

/-- Every holder as it must stand. A queue whose new slice takes it to another rotation leaves that one to be looked at again. -/
def State.settleHolders (s : State) : Nat → State
  | 0 => s
  | fuel + 1 =>
    let t := (List.range 8).foldl State.settleHolder s
    if t.slicesDue = s.slicesDue then t else State.settleHolders t fuel

/-- Every rotation and every queue as it must stand. -/
def State.settle (s : State) : State :=
  let s := s.settleHolders 65
  (List.range 64).foldl (fun s q => s.settleQueue (BitVec.ofNat 6 q)) s

/-- A slice ends after the last step of the packet that is running (R82): holding passes, or the holder starts a new slice. -/
def State.passHolder (s : State) (prio : Nat) : State :=
  match s.awl.holder[prio]?.getD none with
  | none => s
  | some h =>
    let s := s.mapQueue h fun x => { x.newSlice with sliceEnd := false }
    match s.nextInRotation (s.rotation prio) h.toNat with
    | none => s.settle
    | some q =>
      let s := s.mapQueue h fun x => if x.st == .active || x.st == .waiting then { x with st := .suspended } else x
      (s.makeHolder prio q).settle

/-- The steps of a queue's packet are over (R76, R77, R82): QHEAD has advanced, and a held error, a slice end or an empty ring takes effect. -/
def State.afterPacket (s : State) (q : BitVec 6) : State :=
  let x := s.queue q
  if x.st == .resetting || x.st == .error then s.settle
  else if x.tailError then (s.setQueue q (x.fail 3)).settle
  else
    let ends := x.sliceEnd
    let prio := x.prio.toNat
    let s := if x.pending = 0 then s.setQueue q x.enterIdle else s.setQueue q { x with st := .active }
    if ends then s.passHolder prio else s.settle

/-! ## Completion of packets (R78, R79) -/

/-- A field of a packet: `n` bytes at an offset (R73). -/
def pk (p : BitVec 512) (off n : Nat) : Nat := p.toNat / 2 ^ (8 * off) % 2 ^ (8 * n)

/-- Host memory by host address: 52 bits of it (R249). -/
def hostAddr (a : Nat) : Nat := hostPA (a % 2 ^ 52)

/-- A packet completes (R79): its completion record and its interrupt. -/
def State.completePacket (s : State) (q : BitVec 6) (index : BitVec 32) (p : BitVec 512) (status : BitVec 16) : State :=
  let x := s.queue q
  let fl := pk p 1 1
  let s := if fl.testBit 1 then
      let a := x.qcbase.toNat + 16 * (index.toNat % x.ring)
      (s.wr (hostAddr a) (pk p 2 2 + 2 ^ 16 * status.toNat) 8).wr (hostAddr (a + 8)) (pk p 8 8) 8
    else s
  if fl.testBit 2 then s.raiseMsix q.toNat else s

/-- A packet whose effect was under way is over (R78): its last step advances QHEAD, and it completes with a status. -/
def State.completeLater (s : State) (q : BitVec 6) (index : BitVec 32) (status : Nat) : State :=
  match (s.queue q).cur with
  | some c =>
    if c.waiting && c.index == index then
      ((s.mapQueue q fun x => { x with head := x.head + 1, cur := none }).completePacket q index c.pkt (BitVec.ofNat 16 status)).afterPacket q
    else s
  | none => s

/-- A packet whose effect was under way ends with a status of the error class, which puts its queue into ERROR at the packet's own index (R77, R79). -/
def State.failLater (s : State) (q : BitVec 6) (index : BitVec 32) (status : BitVec 16) : State :=
  match (s.queue q).cur with
  | some c => if c.waiting && c.index == index then (s.setQueue q ((s.queue q).fail status)).settle else s
  | none => s

/-! ## Queue reset (R87) -/

/-- The state of a half. -/
def setHalfState (l : List (Nat × Nat × Nat × BitVec 1 × HalfState)) (st y x : Nat) (h : BitVec 1) (v : HalfState) : List (Nat × Nat × Nat × BitVec 1 × HalfState) :=
  (l.filter fun e => !(e.1 == st && e.2.1 == y && e.2.2.1 == x && e.2.2.2.1 == h)) ++ (if v = .good then [] else [(st, y, x, h, v)])

/-- A BIND or REPAIR job is given up: the halves it was to retire stand as before. -/
def State.dropJob (s : State) (j : BindJob) : State :=
  { s with dist := { s.dist with jobs := s.dist.jobs.erase j },
           svc := { s.svc with halfStates := j.was.foldl (fun l e => setHalfState l j.stack j.row j.site e.1 e.2) s.svc.halfStates } }

/-- What the link unit and the ports still hold of a queue's work is dropped (R87 step 3, R300), its nodes ended or not: sends of this module that wait at the
link stop or in a port, contributions, and the packets that a COLL of this module has originated and that have not been transmitted. -/
def State.dropFlits (s : State) (q : BitVec 6) : State :=
  let l := s.link
  let own := fun (p : CollPacket) => p.origin && p.tag.space == q
  let drops := fun (h : HeldFlit) => (h.uid != 0 && (s.node h.uid).desc.queue == q) || match h.flit with
    | .coll p => own p
    | _ => false
  { s with link := { l with contribs := l.contribs.filter (fun c => c.tag.space != q), waiting := l.waiting.filter (fun p => !own p),
                            held := l.held.filter (fun h => !own h.pkt), unpassed := l.unpassed.filter (fun u => !own u.copy.pkt), registered := l.registered.filter (fun e => e.1.space != q),
                            pending := l.pending.filter (fun d => !(d.fromUid.isSome && d.space == q)),
                            gaps := l.gaps.filter fun d => !(d.fromUid.isSome && d.space == q) },
           svc := { s.svc with ports := s.svc.ports.map fun p => { p with held := p.held.filter fun f => !drops f } } }

/-- Queue reset up to the acknowledgements (R87 steps 1 to 3): the queue's work ends without commit, and nothing of it is left on the module; a block whose last
post is dropped is one of that work. A reset that
meets one under way begins again and ends the packets of both. QSTAT.STATUS and ERRIDX keep what they held (DESIGN CHOICE: log entry 79). DEDUCED: log entry 56. -/
def State.startReset (s : State) (q : BitVec 6) (newhead : BitVec 32) (by_ : Option (BitVec 6 × BitVec 32 × BitVec 512)) : State :=
  let ended := s.allNodes.filter fun n => n.desc.queue == q && !(n.run.st == .committed || n.run.st == .failed || n.run.st == .removed)
  let blocks := ended.filterMap (·.desc.jcb) ++ (s.awl.graphs.filter fun g => g.queue == q && !s.graphDone g.id).filterMap (·.jcb) ++
    (s.awl.posts.filter fun p => p.queue == q).map (·.jcb)
  let uids := ended.map (·.desc.uid)
  let by_ := (s.queue q).resetBy ++ by_.toList
  let s : State := { s with awl := { s.awl with queues := s.awl.queues.map fun y => { y with resetBy := y.resetBy.filter fun e => e.1 != q } } }
  let s := s.mapQueue q fun x => { x with st := .resetting, gen := x.gen + 1, newhead := newhead, resetBy := by_, jcbs := x.jcbs ++ blocks, cur := none,
                                          awaiting := [], tailError := false, sliceEnd := false }
  let s := (s.dist.jobs.filter fun j => j.queue == q && j.pkt != 0).foldl State.dropJob (s.dropFlits q)
  let s := uids.foldl (fun s u => (s.endRun u .removed 0 none).unsplice u) s
  { s with awl := { s.awl with posts := s.awl.posts.filter (fun p => p.queue != q), sigWork := s.awl.sigWork.filter (fun w => w.queue != q),
                               graphs := s.awl.graphs.filter (fun g => g.queue != q), asChange := s.awl.asChange.filter (fun e => e.2.2.1 != q),
                               inbox := s.awl.inbox.filter fun i => match i with
                                 | .take u _ _ _ => !uids.contains u
                                 | .packet .. => true } }

/-! ## Registers (R74, R75, R86) -/

/-- A write of QCFG (R75, R77). -/
def State.writeQcfg (s : State) (q : BitVec 6) (v : Word) : State :=
  let x := s.queue q
  let slice : BitVec 16 := v.extractLsb' 32 16
  let prio : BitVec 3 := v.extractLsb' 24 3
  let lg : BitVec 4 := v.extractLsb' 16 4
  let log : BitVec 4 := if lg.toNat < 4 then 4 else lg
  let en := v.getLsbD 0
  if x.st = .disabled then
    let x := { x with slice := slice, prio := prio, logsize := log, nextSlice := none }
    let owns := s.awl.slots.contains (BitVec.ofNat 8 q.toNat)
    (s.setQueue q (if en && owns then { x with en := true, heldClear := false }.enterIdle else x)).settle
  else if slice ≠ x.slice ∨ prio ≠ x.prio ∨ log ≠ x.logsize then s
  else if en then s.setQueue q { x with en := true, heldClear := false }
  else if x.st = .idle then (s.setQueue q { x with st := .disabled, en := false, heldClear := false }).settle
  else s.setQueue q { x with en := false, heldClear := true }

/-- A write of QTAIL (R76). -/
def State.writeQtail (s : State) (q : BitVec 6) (v : Word) : State :=
  let x := s.queue q
  let x := { x with tail := v.extractLsb' 0 32 }
  if x.st = .idle ∨ x.st = .active ∨ x.st = .waiting ∨ x.st = .suspended then
    if x.ring < x.pending then
      if x.cur.isSome then s.setQueue q { x with tailError := true } else (s.setQueue q (x.fail 3)).settle
    else (s.setQueue q x).settle
  else s.setQueue q x

/-- A write of QCTL (R75, R87). -/
def State.writeQctl (s : State) (q : BitVec 6) (v : Word) : State :=
  if v.getLsbD 0 && (s.queue q).st != .disabled then (s.startReset q (v.extractLsb' 32 32) none).settle else s

/-- A write of TLINK (R86). -/
def State.writeTlink (s : State) (n : BitVec 6) (v : Word) : State :=
  { s with awl := { s.awl with links := s.awl.links.setIfInBounds n.toNat { en := v.getLsbD 32, count := 0, cons := v.extractLsb' 8 6, prod := v.extractLsb' 0 6 } } }

/-- EXCOMMIT (R83). -/
def State.excommit (s : State) : State :=
  let t := s.awl.exslot
  let legal := t.all fun e => decide (e.toNat ≤ 0x42) || e == 0xFF
  let owns := fun (o : BitVec 8) => t.contains o
  let off := s.awl.queues.toList.all fun x => x.st == .disabled
  if off && legal && owns 0x40 && owns 0x41 && owns 0x42 then { s with awl := { s.awl with slots := t } } else s

/-- FLIPREQ (R89): requests are kept in arrival order. -/
def State.writeFlip (s : State) (v : Word) : State :=
  { s with awl := { s.awl with flips := s.awl.flips ++ [{ frame := (v.extractLsb' 0 36).toNat, ack := v.getLsbD 63 }] } }

/-- A write of `size` bytes at a BAR0 offset (R74): other sizes than 8 are ignored, and so are read-only and reserved offsets and offsets that are not aligned. -/
def State.writeBar (s : State) (off : Nat) (v : Word) (size : Nat) : State :=
  if size ≠ 8 ∨ off % 8 ≠ 0 then s
  else if off < 0x40000 then
    let q := BitVec.ofNat 6 (off / 0x1000)
    let r := off % 0x1000
    if r = 0 then s.mapQueue q fun x => { x with qbase := v &&& ~~~0x3F#64 }
    else if r = 8 then s.mapQueue q fun x => { x with qcbase := v &&& ~~~0x3F#64 }
    else if r = 0x10 then s.writeQcfg q v
    else if r = 0x18 then s.writeQtail q v
    else if r = 0x30 then s.writeQctl q v
    else s
  else if off < 0x40200 then s.writeTlink (BitVec.ofNat 6 ((off - 0x40000) / 8)) v
  else if 0x41000 ≤ off ∧ off < 0x41080 then
    let j := (off - 0x41000) / 8
    let bytes := (List.range 8).map fun i => (v.extractLsb' (8 * i) 8 : BitVec 8)
    { s with awl := { s.awl with exslot := s.awl.exslot.take (8 * j) ++ bytes ++ s.awl.exslot.drop (8 * j + 8) } }
  else if off = 0x41080 then s.excommit
  else if off = 0x42000 then s.writeFlip v
  else s

/-- The value of QSTAT (R75), for the host's reads. -/
def QState.code (x : QState) : Nat :=
  match x with
  | .disabled => 0 | .idle => 1 | .active => 2 | .waiting => 3 | .suspended => 4 | .error => 5 | .resetting => 6

/-- A BAR0 register as the host reads it with an access of `size` bytes (R74, R75, R86, R89); other sizes than 8 and all other offsets read 0,
and so do FLIPREQ and EXCOMMIT. DESIGN CHOICE: log entry 87. -/
def State.readBar (s : State) (off size : Nat) : Word :=
  if size ≠ 8 ∨ off % 8 ≠ 0 then 0
  else if off < 0x40000 then
    let x := s.queue (BitVec.ofNat 6 (off / 0x1000))
    let r := off % 0x1000
    if r = 0 then x.qbase
    else if r = 8 then x.qcbase
    else if r = 0x10 then BitVec.ofNat 64 (x.slice.toNat * 2 ^ 32 + x.prio.toNat * 2 ^ 24 + x.logsize.toNat * 2 ^ 16 + if x.en then 1 else 0)
    else if r = 0x18 then BitVec.ofNat 64 x.tail.toNat
    else if r = 0x20 then BitVec.ofNat 64 x.head.toNat
    else if r = 0x28 then BitVec.ofNat 64 (x.gen.toNat * 2 ^ 48 + x.status.toNat * 2 ^ 32 + x.erridx.toNat * 2 ^ 16 + x.st.code)
    else 0
  else if off < 0x40200 then
    let l := s.awl.links[(off - 0x40000) / 8]?.getD {}
    BitVec.ofNat 64 ((if l.en then 2 ^ 32 else 0) + l.count.toNat * 2 ^ 16 + l.cons.toNat * 2 ^ 8 + l.prod.toNat)
  else if 0x41000 ≤ off ∧ off < 0x41080 then
    BitVec.ofNat 64 (leNat ((s.awl.exslot.drop (off - 0x41000)).take 8))
  else if off = 0x42008 then BitVec.ofNat 64 (s.awl.flipFrame * 2 + if s.awl.flipDone then 1 else 0)
  else 0

/-- QTAIL_WRITE (R76): Host doorbell write that releases pending packets of a queue and checks their count. DESIGN CHOICE: log entry 65. -/
def execQtailWrite (q : BitVec 6) (v : BitVec 64) (σ : State) : Result :=
  .next (σ.writeQtail q v)

/-- QUEUE_ENABLE (R75): A QCFG write that sets EN on a disabled queue, or withdraws a held clear. -/
def execQueueEnable (q : BitVec 6) (v : BitVec 64) (σ : State) : Result :=
  if v.getLsbD 0 then .next (σ.writeQcfg q v) else .fault (.notEnabled "QUEUE_ENABLE")

/-- QUEUE_DISABLE (R75): A QCFG write that clears EN, at once in IDLE and otherwise held. -/
def execQueueDisable (q : BitVec 6) (v : BitVec 64) (σ : State) : Result :=
  if v.getLsbD 0 then .fault (.notEnabled "QUEUE_DISABLE") else .next (σ.writeQcfg q v)

/-- QCTL_RST (R87): A QCTL write with RST set, which resets the queue as QRESET does. -/
def execQctlRst (q : BitVec 6) (v : BitVec 64) (σ : State) : Result :=
  .next (σ.writeQctl q v)

/-- TLINK_WRITE (R86): Configures a token link and sets its COUNT to 0. -/
def execTlinkWrite (n : BitVec 6) (v : BitVec 64) (σ : State) : Result :=
  .next (σ.writeTlink n v)

/-- EXCOMMIT (R83): Checks the EXSLOT table and installs it when every queue is disabled. -/
def execExcommit (v : BitVec 64) (σ : State) : Result :=
  let _ := v
  .next σ.excommit

/-- FLIPREQ_ACK (R89): Driver acknowledges a host-to-device flip; the Awl sets the device entry valid. DESIGN CHOICE: log entry 65. -/
def execFlipreqAck (v : BitVec 64) (σ : State) : Result :=
  if v.getLsbD 63 then .next (σ.writeFlip v) else .fault (.notEnabled "FLIPREQ_ACK")

/-- FLIPREQ_TO_HOST (R89): Driver requests a device-to-host flip of a frame. -/
def execFlipreqToHost (v : BitVec 64) (σ : State) : Result :=
  if v.getLsbD 63 then .fault (.notEnabled "FLIPREQ_TO_HOST") else .next (σ.writeFlip v)

/-- REGISTER_WRITE (R74): A write to a BAR0 register that has no behaviour of its own, such as QBASE, QCBASE or EXSLOT, or of another access size.
DESIGN CHOICE: log entry 55. DESIGN CHOICE: log entry 65. -/
def execRegisterWrite (off : BitVec 20) (d : BarData) (σ : State) : Result :=
  .next (σ.writeBar off.toNat d.value d.size)

/-- SLICE_EXPIRY (R82): The holder's time slice expires, and holding passes on after the current packet. DESIGN CHOICE: log entry 64. -/
def execSliceExpiry (prio : BitVec 3) (σ : State) : Result :=
  match σ.awl.holder[prio.toNat] with
  | none => .fault (.notEnabled "SLICE_EXPIRY")
  | some h => if (σ.queue h).cur.isSome then .next (σ.mapQueue h fun x => { x with sliceEnd := true }) else .next (σ.passHolder prio.toNat)

/-- PACKET_COMPLETE (R78): A packet reaches completion and writes its completion record and interrupt. -/
def execPacketComplete (q : BitVec 6) (i : BitVec 32) (σ : State) : Result :=
  match (σ.queue q).awaiting.find? fun a => a.index == i with
  | none => .fault (.notEnabled "PACKET_COMPLETE")
  | some a =>
    if !σ.graphDone a.graph then .fault (.notEnabled "PACKET_COMPLETE")
    else
      let st := σ.graphStatus a.graph
      .next ((σ.mapQueue q fun x => { x with awaiting := x.awaiting.filter fun b => b.index != i }).completePacket q i a.pkt st)

/-- QRESET_ACKS_DONE (R87): The last acknowledgement arrives; open blocks fail with Q_RESET, the queue enters IDLE, and the QRESET packets complete.
FNODE of a block stays as it is. DESIGN CHOICE: log entry 89. DEDUCED: log entry 56. -/
def execQresetAcksDone (q : BitVec 6) (σ : State) : Result :=
  let x := σ.queue q
  if x.st ≠ .resetting then .fault (.notEnabled "QRESET_ACKS_DONE")
  else
    let σ := x.jcbs.foldl (fun s j => if s.jcbState j = 0 then (s.jcbOr j 2).wr (jcbPA j + 36) stQReset.toNat 4 else s) σ
    let σ := σ.setQueue q ({ x with head := x.newhead, jcbs := [], resetBy := [] }.enterIdle)
    .next (x.resetBy.foldl (fun s e => if e.1 = q then s.completePacket q e.2.1 e.2.2 0 else s.completeLater e.1 e.2.1 0) σ).settle

end Sys2Proof.Machine
end

