-- ==== Sys2Proof/Machine/Bind.lean ====
section
/-! DEFINITION. Sites, gangs, welt rebinding and repairs (R9 to R16, R99, R105 to R107, R363 to R367). -/

namespace Sys2Proof.Machine

/-! ## Sites, slabs and halves (R9 to R16) -/

def coreRow (idx : Nat) : Nat := idx / 16 % 16

/-- The row paired with row y (R10). -/
def pairedRow (y : Nat) : Nat := if y % 2 = 0 then y + 1 else y - 1

/-- A core with its own place, active. -/
def Core.active (c : Core) : Bool := c.state == .active

/-- The active cores of a stack. -/
def State.stackCores (s : State) (st : Nat) : List Core := s.cores.filter fun c => c.active && coreStack c.idx == st

/-- A half of a slab is good: in the state GOOD, and good as shipped when it is a spare (R11, R365). PRESUMED: log entry 58. -/
def State.halfGood (s : State) (st y x : Nat) (h : BitVec 1) : Bool :=
  decide (x < 18) && decide (y < 16) && (decide (x < 16) || Config.spareHalfGood st y x h.toNat) &&
    !(s.svc.halfStates.any fun e => e.1 == st && e.2.1 == y && e.2.2.1 == x && e.2.2.2.1 == h && e.2.2.2.2 != .good)

/-- The state of a half (R365). -/
def State.halfState (s : State) (st : Nat) (b : BoundHalf) : HalfState :=
  ((s.svc.halfStates.find? fun e => e.1 == st && e.2.1 == b.y && e.2.2.1 == b.x && e.2.2.2.1 == b.half).map (·.2.2.2.2)).getD .good

/-- A defective half (R14, R365): retired, or a spare that was shipped bad. PRESUMED: log entry 58. -/
def State.halfDefective (s : State) (st : Nat) (b : BoundHalf) : Bool :=
  s.halfState st b == .retired || (decide (16 ≤ b.x) && decide (b.x < 18) && decide (b.y < 16) && !Config.spareHalfGood st b.y b.x b.half.toNat)

/-- A rebinding that is under way is to bind the half: no other takes it (R365). -/
def State.promised (s : State) (st : Nat) (b : BoundHalf) : Bool := s.dist.jobs.any fun j => j.op == 2 && j.stack == st && j.plan.any fun e => e.2.2.contains b

/-- The active core that holds a half. -/
def State.holderOf (s : State) (st y x : Nat) (h : BitVec 1) : Option Core :=
  (s.stackCores st).find? fun c => c.halves.contains { y := y, x := x, half := h }

/-- A half that is good and bound to no core. -/
def State.halfUnbound (s : State) (st y x : Nat) (h : BitVec 1) : Bool := s.halfGood st y x h && (s.holderOf st y x h).isNone

/-- A half that a rebinding may take: good, bound to no core, and promised to no other rebinding. -/
def State.halfFree (s : State) (st y x : Nat) (h : BitVec 1) : Bool := s.halfUnbound st y x h && !s.promised st { y := y, x := x, half := h }

/-- Both halves of a slab. -/
def bothHalves (y x : Nat) : List BoundHalf := [{ y := y, x := x, half := 0 }, { y := y, x := x, half := 1 }]

/-- Halves in ascending (y, x) order. -/
def halvesOf (slabs : List (Nat × Nat)) : List BoundHalf := ((slabs.map fun p => p.1 * 32 + p.2).foldl setAdd []).flatMap fun k => bothHalves (k / 32) (k % 32)

/-- A paired core holds one half of each of two slabs (R14). -/
def pairedHalves (l : List BoundHalf) : Bool :=
  match l with
  | [a, b] => a.x != b.x || a.y != b.y
  | _ => false

/-- CTL.EMAP follows the bound halves (R104): a field reads sibling while the matching instance of one of them is out of service, but never both of a pair. -/
def State.emapOf (s : State) (st : Nat) (l : List BoundHalf) : BitVec 8 :=
  l.foldl (fun acc b =>
    let out := ((s.svc.splitSlots.find? fun e => e.1 == st && e.2.1 == b.y && e.2.2.1 == b.x && e.2.2.2.1 == b.half).map (·.2.2.2.2)).getD 0
    [0, 2, 4, 6].foldl (fun (acc : BitVec 8) k => if out.getLsbD k && !acc.getLsbD (if k % 4 = 0 then k + 2 else k - 2) then acc ||| BitVec.ofNat 8 (2 ^ k) else acc) acc) 0

/-- The spare halves of the module: of the stacks in service, good and bound to no core (R11); the good partner of a retired half is free for pairing alone,
and no spare (R365). DEDUCED: log entry 46. -/
def State.spareHalves (s : State) : Nat :=
  let one := fun (st y x : Nat) (h : BitVec 1) => if s.halfUnbound st y x h && !s.svc.loneHalves.contains (st, y, x, h) then 1 else 0
  (((List.range 4).filter fun st => s.svc.stk[st]?.getD .absent == .joined).map fun st =>
    ((List.range 16).map fun y => ((List.range 18).map fun x => one st y x 0 + one st y x 1).sum).sum).sum

/-- The spare front end of a row: site 16, good and not in use (R11), be the core behind it active or parked by a gang (R15). -/
def State.spareFront (s : State) (st y : Nat) : Bool :=
  Config.spareFrontEndGood st y && !s.svc.failedFronts.contains (st, y, 16) && !s.cores.any fun c => (c.active || c.state == .parked) && coreStack c.idx == st && coreRow c.idx == y && c.siteX == 16

/-- The spare front ends of the stacks in service. -/
def State.spareFronts (s : State) : Nat :=
  (((List.range 4).filter fun st => s.svc.stk[st]?.getD .absent == .joined).map fun st =>
    ((List.range 16).map fun y => if s.spareFront st y then 1 else 0).sum).sum

/-- SPARES of a result record (R363). A count of spare halves that its eight bits cannot hold reads as a free value. -/
def State.sparesWord (s : State) : Nat × State :=
  let halves := s.spareHalves
  let (h, s) := if halves < 256 then (halves, s) else
    let (v, s) := s.takeFreeNat
    (v % 256, s)
  let lanes := (s.svc.ports.toList.filter fun p => !p.spareUsed).length
  (s.spareFronts + 2 ^ 8 * h + 2 ^ 16 * lanes + 2 ^ 24 * ((4096 - s.svc.mramPending.length) / 16 % 256), s)

/-! ## Drains (R66, R99, R105) -/

/-- One node that has not been switched to leaves its run queue: it is READY again, SAVED when it was to be resumed, or WAITING when it is the consumer of a pair that
has not been examined and its predecessor has not committed (R66, R97, R113). DESIGN CHOICE: log entry 74. -/
def State.unplaceOne (s : State) (uid : Nat) : State :=
  let n := s.node uid
  let s := (s.leaveCore uid).unsplice uid
  let st : NodeState := if n.run.saveArea.isSome then .saved else if n.run.behind ∧ n.run.remaining ≠ 0 then .waiting else .ready
  (s.mapNode uid fun n => { n with run := { n.run with st := st, behind := false, refusal := if n.run.saveArea.isSome then n.run.refusal else none } }).firstReady uid

/-- A node that has not been switched to leaves its run queue, and with a member of a saved pair its partner (R129). -/
def State.unplace (s : State) (uid : Nat) : State :=
  let n := s.node uid
  if n.run.saveArea.isSome && n.run.partner != 0 then (s.unplaceOne uid).unplaceOne n.run.partner else s.unplaceOne uid

/-- The resident nodes of a core. -/
def Core.residents (c : Core) : List Nat := c.slots.toList.filter (· != 0)

/-- The drain of a core: nodes that have started are asked to be saved, the others go back to the ready pool. -/
def State.drainCore (s : State) (idx : Nat) : State :=
  (s.core idx).residents.foldl (fun s u =>
    match (s.node u).run.st with
    | .placed => s.unplace u
    | .running => s.mapNode u fun n => { n with run := { n.run with preempt := true } }
    | _ => s) s

/-- A BIND or REPAIR under way affects one of the cores. -/
def State.jobOn (s : State) (l : List Nat) : Bool := s.dist.jobs.any fun j => j.cores.any fun c => l.contains c

/-- A drain begins for a job. -/
def State.startJob (s : State) (j : BindJob) : State := j.cores.foldl State.drainCore { s with dist := { s.dist with jobs := s.dist.jobs ++ [j] } }

/-- The drain of a job is over: none of its cores holds a node. -/
def State.drained (s : State) (j : BindJob) : Bool := j.cores.all fun c => (s.core c).residents.isEmpty

/-! ## Gangs (R105 to R107) -/

/-- The slabs that a gang takes. -/
def gangSlabs (c : Core) (width : Nat) : List (Nat × Nat) :=
  let y := coreRow c.idx
  let y' := pairedRow y
  if width = 2 then
    let x := ((c.halves.map (·.x)).head?).getD c.siteX
    [(y, x), (y', x)]
  else [(y, c.siteX), (y, c.siteX + 1), (y', c.siteX), (y', c.siteX + 1)]

/-- The refusal of a BIND GANG, or the cores it affects (R105, R107). Of several causes it answers the first of: no such core, a ganged one, the shape, another affected
core that is busy, a pending job (DESIGN CHOICE: log entry 95). DEDUCED: log entry 46. -/
def State.gangCheck (s : State) (idx width : Nat) : Except Nat (List Nat) :=
  let c := s.core idx
  let st := coreStack idx
  if !c.active then .error 0x50
  else if c.gang ≠ 0 then .error 0x52
  else
    let slabs := gangSlabs c width
    let block := fun (p : Nat × Nat) => (p.2 == c.siteX || p.2 == c.siteX + 1) && (p.1 == coreRow idx || p.1 == pairedRow (coreRow idx))
    let holders := slabs.map fun p => (s.holderOf st p.1 p.2 0, s.holderOf st p.1 p.2 1)
    let owners := holders.map fun p => match p with
      | (some a, some b) => if a.idx = b.idx ∧ !a.paired then some a else none
      | _ => none
    if !(slabs.all fun p => block p && s.halfGood st p.1 p.2 0 && s.halfGood st p.1 p.2 1) || owners.any (·.isNone) then .error 0x51
    else
      let l := owners.filterMap id
      if l.any fun o => o.gang != 0 || o.rsv || o.join then .error 0x52
      else
        let idxs := (idx :: l.map (·.idx)).foldl setAdd []
        if s.jobOn idxs then .error 0x54 else .ok idxs

/-- The refusal of a BIND DISSOLVE, or the cores it affects (R106, R107). -/
def State.dissolveCheck (s : State) (idx : Nat) : Except Nat (List Nat) :=
  let c := s.core idx
  if !c.active then .error 0x50
  else if c.gang = 0 then .error 0x53
  else
    let idxs := c.before.map (·.1)
    if s.jobOn idxs then .error 0x54 else .ok idxs

/-- The gang stands (R105 steps 2 to 4): the engine map follows the halves that it takes, and a parked core belongs to no reserve (R100).
The EPOCH of the gang's first core alone counts the forming. DESIGN CHOICE: log entry 82. -/
def State.formGang (s : State) (j : BindJob) : State :=
  let c := s.core j.core
  let slabs := halvesOf (gangSlabs c j.width)
  let before := j.cores.map fun i => (i, (s.core i).halves)
  let s := (j.cores.filter (· != j.core)).foldl (fun s i =>
    s.setCore { s.core i with state := .parked, halves := [], rsv := false, join := false, leaving := false, emap := 0 }) s
  s.setCore { c with halves := slabs, gang := if j.width = 2 then 1 else 2, epoch := c.epoch + 1, emap := s.emapOf (coreStack j.core) slabs, before := before }

/-- The gang is dissolved (R106): each front end has the binding it held before. -/
def State.dissolveGang (s : State) (j : BindJob) : State :=
  let c := s.core j.core
  c.before.foldl (fun s e =>
    let d := s.core e.1
    s.setCore { d with state := .active, halves := e.2, gang := 0, epoch := d.epoch + 1, emap := s.emapOf (coreStack e.1) e.2, before := [] }) s

/-! ## Repair of the welt (R363 to R365) -/

/-- The halves that a REPAIR OP 0 takes out of service. -/
def repairHalves (half : BitVec 2) : List (BitVec 1) := if half = 0 then [0] else if half = 1 then [1] else [0, 1]

/-- The slabs of the block of a front end at column x (R13), the right-hand column and the row y first. -/
def blockSlabs (y x : Nat) : List (Nat × Nat) := [(y, x + 1), (pairedRow y, x + 1), (y, x), (pairedRow y, x)]

/-- The row of a core's slabs. -/
def Core.row (c : Core) : Nat := ((c.halves.head?).map (·.y)).getD (coreRow c.idx)

/-- A slab that a rebinding may take whole. -/
def State.slabFree (s : State) (st : Nat) (p : Nat × Nat) : Bool := s.halfFree st p.1 p.2 0 && s.halfFree st p.1 p.2 1

/-- The core that may make way by moving from a good slab that it holds whole: one of no gang. -/
def State.slabHolder (s : State) (st : Nat) (p : Nat × Nat) : Option Core :=
  match s.holderOf st p.1 p.2 0, s.holderOf st p.1 p.2 1 with
  | some b, some b' => if b.idx = b'.idx ∧ b.gang = 0 ∧ s.halfGood st p.1 p.2 0 ∧ s.halfGood st p.1 p.2 1 then some b else none
  | _, _ => none

/-- The shift of R16: the moves by which a core at column x of row y reaches a slab of its block further right, free or held by a core that moves right in its turn,
and so on; every move goes to the right (R365), the row first, then the row paired with it. At most so many moves. DEDUCED: log entry 46. -/
def State.shift (s : State) (st : Nat) : Nat → Core → Nat → Nat → Option (List (Nat × Nat × Nat))
  | 0, _, _, _ => none
  | n + 1, a, y, x =>
    ((blockSlabs y a.siteX).filter fun p => decide (x < p.2)).findSome? fun p =>
      if s.slabFree st p then some [(a.idx, p.1, p.2)]
      else
        match s.slabHolder st p with
        | some b => (State.shift s st n b p.1 p.2).map fun l => (a.idx, p.1, p.2) :: l
        | none => none

/-- The moves of a core to a whole slab, with the cores that make way, at most 17 of them (R363): the shift to the right of column x, or else a free slab of its own
block (R13). Each core, its site, and its new halves. -/
def State.shiftPlan (s : State) (c : Core) (y x : Nat) : Option (List (Nat × Nat × List BoundHalf)) :=
  let st := coreStack c.idx
  let own := ((blockSlabs y c.siteX).find? fun p => s.slabFree st p).map fun p => [(c.idx, p.1, p.2)]
  ((s.shift st 17 c y x).orElse fun _ => own).map fun l => l.map fun e => (e.1, if e.1 = c.idx then c.siteX else (s.core e.1).siteX, bothHalves e.2.1 e.2.2)

/-- Two good halves of the side-by-side slabs of row y at a site, each with a defective partner (R14), that are free or that the core keeps. -/
def State.pairAt (s : State) (idx y x : Nat) (gone : List BoundHalf) : Option (List BoundHalf) :=
  let st := coreStack idx
  let may := fun (b : BoundHalf) => !gone.contains b && s.halfGood st b.y b.x b.half && s.halfDefective st { b with half := 1 - b.half } && !s.promised st b &&
    (match s.holderOf st b.y b.x b.half with
     | none => true
     | some c => c.idx == idx)
  let one := fun (x : Nat) => [({ y := y, x := x, half := 0 } : BoundHalf), { y := y, x := x, half := 1 }].find? may
  match one x, one (x + 1) with
  | some a, some b => some [a, b]
  | _, _ => none

/-- The move of a core to a pair of halves in the block of a site, its own row first. -/
def State.pairPlan (s : State) (idx site : Nat) (gone : List BoundHalf) : Option (List (Nat × Nat × List BoundHalf)) :=
  let y := coreRow idx
  ((s.pairAt idx y site gone).orElse fun _ => s.pairAt idx (pairedRow y) site gone).map fun l => [(idx, site, l)]

/-- The column of a core's slab, or of the left one of two. -/
def Core.column (c : Core) : Nat := ((c.halves.head?).map (·.x)).getD c.siteX

/-- The rebinding that the Awl chooses for a core that loses halves (R365): pairing what it keeps with a free good half of the block whose partner is
defective (R14), or else the shift of R16, or else two such halves of the block. DEDUCED: log entry 46. -/
def State.chooseRebinding (s : State) (idx : Nat) (gone : List BoundHalf) : Option (List (Nat × Nat × List BoundHalf)) :=
  let c := s.core idx
  let st := coreStack idx
  let other := (s.shiftPlan c c.row c.column).orElse fun _ => s.pairPlan idx c.siteX gone
  match c.halves.filter fun b => !gone.contains b with
  | [k] =>
    let x := if k.x = c.siteX then c.siteX + 1 else c.siteX
    let one := fun (h : BitVec 1) => s.halfFree st k.y x h && s.halfDefective st { y := k.y, x := x, half := 1 - h }
    let two := fun (h : BitVec 1) => if x < k.x then [{ y := k.y, x := x, half := h }, k] else [k, { y := k.y, x := x, half := h }]
    if one 0 then some [(idx, c.siteX, two 0)] else if one 1 then some [(idx, c.siteX, two 1)] else other
  | _ => other

/-- The front end of a core has failed its self-test (R16). -/
def State.frontFailed (s : State) (c : Core) : Bool := s.svc.failedFronts.contains (coreStack c.idx, coreRow c.idx, c.siteX)

/-- The move of a core to the spare front end of its row, with halves of that front end's block: its own, a pair, or a slab (R14, R16, R365). DEDUCED: log
entry 46. -/
def State.frontPlan (s : State) (idx : Nat) (gone : List BoundHalf) : Option (List (Nat × Nat × List BoundHalf)) :=
  let c := s.core idx
  let y := coreRow idx
  let taken := s.dist.jobs.any fun j => j.plan.any fun e => e.2.1 == 16 && coreStack e.1 == coreStack idx && coreRow e.1 == y
  if !s.spareFront (coreStack idx) y || taken then none
  else if c.halves.all (fun b => decide (16 ≤ b.x) && !gone.contains b && s.halfGood (coreStack idx) b.y b.x b.half) then some [(idx, 16, c.halves)]
  else (s.pairPlan idx 16 gone).orElse fun _ => s.shiftPlan { c with siteX := 16 } y 15

/-- The plan for a core: a spare front end when its own has failed, or else other halves for those that are gone (R365). -/
def State.planFor (s : State) (idx : Nat) (gone : List BoundHalf) : Option (List (Nat × Nat × List BoundHalf)) :=
  if s.frontFailed (s.core idx) then s.frontPlan idx gone else s.chooseRebinding idx gone

/-- The refusal of a REPAIR OP 0, or the core that is rebound, the row of the halves, and the plan (R364, R365): the halves stand in the row in which CORE
holds a half of column x, or else in CORE's own row, and it is their holder that is rebound. A half that is REBINDING, or that another rebinding is to bind,
belongs to a REPAIR that is pending. DEDUCED: log entry 46. -/
def State.rebindCheck (s : State) (idx x : Nat) (half : BitVec 2) : Except Nat (Nat × Nat × List (Nat × Nat × List BoundHalf)) :=
  let c := s.core idx
  if !c.active || c.gang ≠ 0 then .error 0x60
  else
    let y := ((c.halves.find? fun b => b.x == x).map (·.y)).getD (coreRow idx)
    let targets : List BoundHalf := (repairHalves half).map fun h => { y := y, x := x, half := h }
    if targets.any (fun b => s.halfState (coreStack idx) b == .rebinding || s.promised (coreStack idx) b) then .error 0x62
    else
    let holders := ((targets.filterMap fun b => s.holderOf (coreStack idx) b.y b.x b.half).map (·.idx)).foldl setAdd []
    match holders with
    | [] => if s.jobOn [idx] then .error 0x62 else .ok (idx, y, [])
    | [i] =>
      if (s.core i).gang ≠ 0 then .error 0x61
      else
        match s.planFor i targets with
        | none => .error 0x61
        | some plan => if s.jobOn (i :: plan.map (·.1)) then .error 0x62 else .ok (i, y, plan)
    | _ => .error 0x61

/-- The halves of a rebinding are under way, a RETIRED one apart, and the cores that change are drained (R365). -/
def State.startRebind (s : State) (j : BindJob) (idx y : Nat) (plan : List (Nat × Nat × List BoundHalf)) : State :=
  let st := coreStack idx
  let gone := repairHalves j.half
  let states : List (BitVec 1 × HalfState) := gone.map fun h => (h, s.halfState st { y := y, x := j.site, half := h })
  let was := states.filter fun e => e.2 != .retired
  let s := { s with svc := { s.svc with halfStates := was.foldl (fun l (e : BitVec 1 × HalfState) => setHalfState l st y j.site e.1 .rebinding) s.svc.halfStates } }
  s.startJob { j with core := idx, cores := (plan.map (·.1)).foldl setAdd [], stack := st, row := y, was := was, plan := plan }

/-- The binding map keeps where repair has put a core (R365). -/
def State.noteBinding (s : State) (idx : Nat) : State :=
  let c := s.core idx
  { s with svc := { s.svc with map := (s.svc.map.filter fun r => r.idx != idx) ++ [{ idx := idx, retired := c.state == .retired, siteX := c.siteX, halves := c.halves }] } }

/-- A core has a new binding (R103, R104, R365): a new EPOCH, the engine map of its halves, and nothing resident behind another front end (R361). A half that it
leaves and whose partner is RETIRED is free for pairing alone. -/
def State.moveCore (s : State) (idx site : Nat) (l : List BoundHalf) : State :=
  let c := s.core idx
  let st := coreStack idx
  let alone := (c.halves.filter fun b => !l.contains b && s.halfGood st b.y b.x b.half && s.halfState st { b with half := 1 - b.half } == .retired).map
    fun b => (st, b.y, b.x, b.half)
  let s := { s with svc := { s.svc with loneHalves := (s.svc.loneHalves.filter fun e => !alone.contains e) ++ alone } }
  (s.setCore { c with siteX := site, halves := l, paired := pairedHalves l, epoch := c.epoch + 1, emap := s.emapOf (coreStack idx) l,
                      imem := if site = c.siteX then c.imem else [] }).noteBinding idx

/-- The moves of a plan, the last first: each core moves after the one that makes way for it (R365). -/
def State.applyPlan (s : State) (plan : List (Nat × Nat × List BoundHalf)) : State := plan.reverse.foldl (fun s e => s.moveCore e.1 e.2.1 e.2.2) s

/-- The rebinding is made (R365): the halves that go are retired, the plan is carried out, and a good half that is left alone is free for pairing. -/
def State.rebind (s : State) (j : BindJob) : State :=
  let gone := repairHalves j.half
  let at_ := fun (st y x : Nat) (h : BitVec 1) => st == j.stack && y == j.row && x == j.site && gone.contains h
  let v := s.svc
  let s := State.applyPlan { s with svc := { v with
    halfStates := gone.foldl (fun l h => setHalfState l j.stack j.row j.site h .retired) v.halfStates,
    failedChecks := v.failedChecks.filter (fun e => !at_ e.1 e.2.1 e.2.2.1 e.2.2.2.1),
    splitSlots := v.splitSlots.filter fun e => !at_ e.1 e.2.1 e.2.2.1 e.2.2.2.1 } } j.plan
  let alone := ([0, 1] : List (BitVec 1)).filter fun h => !gone.contains h && s.halfFree j.stack j.row j.site h
  { s with svc := { s.svc with loneHalves := s.svc.loneHalves.filter (fun e => !at_ e.1 e.2.1 e.2.2.1 (1 - e.2.2.2)) ++ alone.map fun h => (j.stack, j.row, j.site, h) } }

/-- A core is retired (R363): its coordinate reads absent, and its halves become spares. Its place in the reserve is filled at once (R26, R100) by the event that
retires it. DESIGN CHOICE: log entry 81. -/
def State.retireCore (s : State) (idx : Nat) : State :=
  let c := s.core idx
  let s := (s.setCore { c with state := .retired, halves := [], paired := false, rsv := false, join := false, leaving := false, emap := 0, imem := [] }).noteBinding idx
  { s with svc := { s.svc with loneHalves := s.svc.loneHalves.filter fun e => !(e.1 == coreStack idx && c.halves.contains { y := e.2.1, x := e.2.2.1, half := e.2.2.2 }) } }

/-- A core of a stack that comes into service with a failed front end or a half that is not good is rebound, or retired where nothing can be reached
(R13, R16, R362). -/
def State.mendCore (s : State) (idx : Nat) : State :=
  let c := s.core idx
  let bad := c.halves.filter fun b => !s.halfGood (coreStack idx) b.y b.x b.half
  if !c.active || (bad.isEmpty && !s.frontFailed c) then s
  else
    match s.planFor idx bad with
    | some plan => s.applyPlan plan
    | none => s.retireCore idx

/-- The address of a result record translates (R79). -/
def State.recordFits (s : State) (q : BitVec 6) (raddr : Nat) : Bool := raddr == 0 || (List.range 32).all fun i => (s.awlPA q true (raddr + i) true).isSome

/-- A result record (R363) at an address that translates; with a stale tag it is dropped (R263). -/
def State.resultRecord (s : State) (q : BitVec 6) (raddr status op moved failed : Nat) : State :=
  if raddr = 0 then s
  else if s.packetStale q then s.dropWrite
  else
    let (sp, s) := s.sparesWord
    let bytes := leBytes status 2 ++ leBytes op 1 ++ leBytes moved 1 ++ leBytes sp 4 ++ leBytes failed 4 ++ leBytes 0 20
    bytes.zipIdx.foldl (fun (st : State) e => match s.awlPA q true (raddr + e.2) true with
      | some (pa, _) => st.setByte pa e.1 false
      | none => st) s

/-! ## DRAM rows and lanes (R366, R367) -/

/-- A soft repair of a row finds room in the channel's table and in the list. -/
def State.repairRoom (s : State) (chan : Nat) : Bool :=
  decide ((s.svc.remap.filter fun r => r.chan == chan).length < 32) && decide (s.svc.mramPending.length < 4096)

/-- A soft repair (R366): the row maps to the lowest spare row of the channel that is not in use. -/
def State.softRepair (s : State) (chan bank row : Nat) : State :=
  let used := (s.svc.remap.filter fun r => r.chan == chan).map (·.spare)
  let r : DramRow := { chan := chan, bank := bank, row := row, spare := ((List.range 32).find? fun k => !used.contains k).getD 0 }
  { s.noteChan chan 0 with svc := { (s.noteChan chan 0).svc with remap := s.svc.remap ++ [r], mramPending := s.svc.mramPending ++ [r] } }

def State.port (s : State) (p : Nat) : Port := s.svc.ports[p]?.getD {}
def State.setPort (s : State) (p : Nat) (x : Port) : State := { s with svc := { s.svc with ports := s.svc.ports.setIfInBounds p x } }

/-- A port falls back to four lanes (R367). -/
def State.degrade (s : State) (p : Nat) : State :=
  let x := s.port p
  s.setPort p { x with lanes := 4, degraded := true, degradations := x.degradations + 1 }

end Sys2Proof.Machine
end

