-- ==== Sys2Proof/Machine/Control.lean ====
section
/-! DEFINITION. The words of class B: transfers of control, the nested-loop sequencer, overlays and END (R162 to R180), with N and E words. -/

namespace Sys2Proof.Machine

/-- A CALL that has branched writes the address after its bundle to s30, in the selected bank (R153, R163). -/
def State.writeLink (s : State) : State := if s.bnd.stop = .taken then s else s.pushS 1 30 (s.bnd.na.zeroExtend 64)

/-- The comparisons of BRC (R164). -/
def brcHolds (x : BitVec 3) (a : Int) : Bool :=
  if x = 0 then decide (a = 0) else if x = 1 then decide (a ≠ 0) else if x = 2 then decide (a < 0)
  else if x = 3 then decide (0 ≤ a) else if x = 4 then decide (0 < a) else decide (a ≤ 0)

/-- A loop level (R167). -/
def State.level (s : State) (n : BitVec 3) : Loop := s.cur.ctl.loops[n.toNat]?.getD {}

/-- The valid latched stride entries of a level (R168): handle, dimension, stride. -/
def Loop.entries (l : Loop) : List (BitVec 4 × Nat × Int) :=
  ([(l.lat0, 0), (l.lat0, 32), (l.lat1, 0), (l.lat1, 32)].filter fun e => e.1.getLsbD (e.2 + 31) && decide (fieldN e.1 (e.2 + 24) 3 < 5)).map
    fun e => (e.1.extractLsb' (e.2 + 27) 4, fieldN e.1 (e.2 + 24) 3, signExt 18 (fieldN e.1 e.2 18 : Int))

/-- Origin updates of a level's entries by a multiple of their strides, due at the next bundle (R172). DEDUCED: log entry 23. -/
def State.moveOrigins (s : State) (l : Loop) (times : Int) : State :=
  l.entries.foldl (fun s e => s.push 1 (.org e.1 e.2.1 (times * e.2.2))) s

/-- Some level above n is active (R172). -/
def State.innerActive (s : State) (n : BitVec 3) : Bool :=
  (List.range 6).any fun m => decide (n.toNat < m) && (s.cur.ctl.loops[m]?.getD {}).act

/-- LOOP and LOOPR close (R172); `rot` 0 rotates nothing. -/
def State.closeLoop (s : State) (n : BitVec 3) (k : Int) (rot : Nat) : State :=
  let l := s.level n
  if !l.act || s.innerActive n then s.trapHere 9 0
  else
    let s := if rot = 0 then s else s.addPost (.rotate rot)
    if l.i + 1 < l.t then
      ((s.moveOrigins l 1).addPost (.loop n.toNat { l with i := l.i + 1 })).jumpRel k
    else (s.moveOrigins l (-((l.t : Int) - 1))).addPost (.loop n.toNat {})

/-- LBRK leaves every active level from `top` down to n (R173). -/
def State.leaveLevels (s : State) (n : Nat) : Nat → State
  | 0 => s
  | m + 1 =>
    let l := s.cur.ctl.loops[m]?.getD {}
    let s := if n ≤ m ∧ l.act then (s.moveOrigins l (-(l.i : Int))).addPost (.loop m {}) else s
    State.leaveLevels s n m

/-- The resident code of an image on the focus core. -/
def State.resident (s : State) (imgid : Word) : Option Resident := (s.core s.focus).imem.find? fun r => r.imgid == imgid

/-- Change the resident code of an image on the focus core. -/
def State.setResident (s : State) (r : Resident) : State :=
  let c := s.core s.focus
  s.setCore { c with imem := c.imem.map fun x => if x.imgid = r.imgid then r else x }

/-- The half that does not hold a segment: true is half 1. When neither holds it, half 0 (R177, R178). DEDUCED: log entry 51. -/
def State.otherHalf (s : State) (seg : Nat) : Bool :=
  match s.resident s.cur.desc.image.imgid with
  | some r => r.half0 == some seg
  | none => false

/-- Start the copy of a segment into a half (R177): nothing when it is resident or being copied; the half's former segment ceases to be resident. -/
def State.startSegment (s : State) (seg : Nat) (half1 : Bool) : State :=
  match s.resident s.cur.desc.image.imgid with
  | none => s
  | some r =>
    if r.half0 = some seg ∨ r.half1 = some seg ∨ (r.copying.map (·.1)) = some seg then s
    else if half1 then s.setResident { r with half1 := none, copying := some (seg, true) }
    else s.setResident { r with half0 := none, copying := some (seg, false) }

/-- BR (R163): Branches to a packet-relative target at the end of its bundle. -/
def execBrRel (q : BitVec 2) (g : BitVec 4) (k : BitVec 16) (ext : Option (BitVec 25)) (σ : State) : Result :=
  word (.brRel q g k ext) σ fun σ => σ.jumpRel (immS 16 k ext)

/-- BR (R163): Branches to an absolute instruction address. -/
def execBrAbs (q : BitVec 2) (g : BitVec 4) (i : BitVec 16) (ext : Option (BitVec 25)) (σ : State) : Result :=
  word (.brAbs q g i ext) σ fun σ => σ.jumpTo (immU 16 i ext)

/-- CALL (R163): Writes the return address to s30 and branches to a relative target. -/
def execCallRel (q : BitVec 2) (g : BitVec 4) (k : BitVec 16) (ext : Option (BitVec 25)) (σ : State) : Result :=
  word (.callRel q g k ext) σ fun σ => (σ.jumpRel (immS 16 k ext)).writeLink

/-- CALL (R163): Writes the return address to s30 and branches to an absolute address. -/
def execCallAbs (q : BitVec 2) (g : BitVec 4) (i : BitVec 16) (ext : Option (BitVec 25)) (σ : State) : Result :=
  word (.callAbs q g i ext) σ fun σ => (σ.jumpTo (immU 16 i ext)).writeLink

/-- RET (R163): Transfers control to the address held in sA, or in s30 by default. -/
def execRet (q : BitVec 2) (g : BitVec 4) (a : BitVec 5) (σ : State) : Result :=
  word (.ret q g a) σ fun σ => σ.jumpTo (σ.uv a)

/-- BRC.cc (R164): Branches when a comparison of sA with zero holds. -/
def execBrc (q : BitVec 2) (g : BitVec 4) (x : BitVec 3) (a : BitVec 5) (k : BitVec 9) (ext : Option (BitVec 25)) (σ : State) : Result :=
  word (.brc q g x a k ext) σ fun σ => if brcHolds x (σ.sv a) then σ.jumpRel (immS 9 k ext) else σ

/-- BRF (R165): Branches on the DONE or FAULT flag of an engine, sampled once at issue. One that reads DONE = 1 is an acquire (R166, R292). -/
def execBrf (q : BitVec 2) (g : BitVec 4) (t : BitVec 1) (e : BitVec 2) (n : BitVec 1) (k : BitVec 12) (ext : Option (BitVec 25)) (σ : State) : Result :=
  word (.brf q g t e n k ext) σ fun σ =>
    let v := if t = 0 then σ.cur.done e else σ.cur.ctl.flt.getLsbD e.toNat
    let σ := if t = 0 ∧ v then σ.acquire else σ
    if v != (n == 1) then σ.jumpRel (immS 12 k ext) else σ

/-- LOOP (R171): Opens a loop level with the trip count in sA and latches its stride entries, or skips to the exit when the count is not positive. -/
def execLoopOpen (q : BitVec 2) (n : BitVec 3) (a : BitVec 5) (j : BitVec 8) (ext : Option (BitVec 25)) (σ : State) : Result :=
  word (.loopOpen q n a j ext) σ fun σ =>
    let l := σ.level n
    let t := σ.sv a
    if l.act then σ.trapHere 9 0
    else if t ≤ 0 then σ.jumpRel (immU 8 j ext)
    else if 2 ^ 31 - 1 < t then σ.trapHere 9 0
    else
      let i := n.toNat
      σ.addPost (.loop i { act := true, t := t.toNat, i := 0, lat0 := σ.cur.ctl.ls[2 * i]?.getD 0, lat1 := σ.cur.ctl.ls[2 * i + 1]?.getD 0 })

/-- LOOP (R172): Advances the level's index and strides, then loops back or exits and restores the origins. -/
def execLoopClose (q : BitVec 2) (n : BitVec 3) (k : BitVec 11) (ext : Option (BitVec 25)) (σ : State) : Result :=
  word (.loopClose q n k ext) σ fun σ => σ.closeLoop n (immS 11 k ext) 0

/-- LOOPR (R172): Closes a loop level like LOOP and rotates the rotating tile base. DEDUCED: log entry 23. -/
def execLoopr (q : BitVec 2) (n : BitVec 3) (r : BitVec 2) (k : BitVec 11) (ext : Option (BitVec 25)) (σ : State) : Result :=
  word (.loopr q n r k ext) σ fun σ => σ.closeLoop n (immS 11 k ext) (2 ^ (r.toNat + 1))

/-- LBRK (R173): Leaves every active loop level from n upward, restores the origins, and branches. -/
def execLbrk (q : BitVec 2) (g : BitVec 4) (n : BitVec 3) (k : BitVec 14) (ext : Option (BitVec 25)) (σ : State) : Result :=
  word (.lbrk q g n k ext) σ fun σ => if !(σ.level n).act then σ.trapHere 9 0 else (σ.leaveLevels n.toNat 6).jumpRel (immS 14 k ext)

/-- SEGX (R177): Starts the copy of an overlay segment into the other half of instruction memory. -/
def execSegx (q : BitVec 2) (g : BitVec 4) (s : BitVec 6) (σ : State) : Result :=
  word (.segx q g s) σ fun σ =>
    let im := σ.cur.desc.image
    if !im.ovl || decide (im.segs.length ≤ s.toNat) then σ
    else σ.startSegment s.toNat (σ.otherHalf (σ.bnd.addr.toNat / 65536))

/-- END (R179): Retires the node: fetch stops, the node enters RETIRING and its engines drain. DEDUCED: log entry 15. -/
def execEndNode (σ : State) : Result :=
  word .endNode σ fun σ => σ.addPost .ended

/-- N (R137): N word; occupies no slot and has no effect. -/
def execNop (q : BitVec 2) (x : BitVec 25) (σ : State) : Result :=
  word (.nop q x) σ fun σ => σ

/-- E (R133): carries the upper immediate bits of the word before it and no operation of its own; alone it stands at the head of a bundle only, which the bundle checks refuse -/
def execExtensionWord (i : BitVec 25) (σ : State) : Result :=
  word (.extensionWord i) σ fun σ => σ

end Sys2Proof.Machine
end

