-- ==== Sys2Proof/Machine/Code.lean ====
section
/-! DEFINITION. Code: the segments of an image in memory and in instruction memory, fetch, and the static checks of a bundle
(R61, R130 to R141, R162, R176 to R178, R361). -/

namespace Sys2Proof.Machine

/-! ## Segments (R61, R176) -/

/-- The segment of an instruction address, and the offset within it (R61). -/
def segOf (ovl : Bool) (a : Nat) : Nat := if ovl then a / 65536 else 0

/-- The length of a segment in bytes: of an image without overlay, its code. -/
def Image.segLen (im : Image) (seg : Nat) : Nat :=
  if im.ovl then (match im.segs[seg]? with
    | some e => 12 * e.2.1
    | none => 0)
  else if seg = 0 then im.codeLen else 0

/-- The offset of a segment in the image. -/
def Image.segOff (im : Image) (seg : Nat) : Nat := if im.ovl then (im.segs[seg]?.getD (0, 0, false)).1 else im.codeOff

/-- The bytes of a segment as a node's core reads them, with their poison marks; a stale tag of the node is the generation fault (R263). -/
def State.segBytes (s : State) (n : Node) (tid off : Nat) : Nat → Except MFault (List (Byte × Bool))
  | 0 => .ok []
  | len + 1 =>
    match s.translate n.desc.queue false tid off false with
    | .error f => .error f
    | .ok (pa, p) =>
      if s.stale n then .error .generation
      else
      match State.segBytes s n tid (off + 1) len with
      | .error f => .error f
      | .ok l => .ok ((s.byte pa, s.poisoned pa || p) :: l)

/-- Instruction words from bytes. -/
def wordsOf (l : List (Byte × Bool)) : Nat → List (IWord × Bool)
  | 0 => []
  | k + 1 => (BitVec.ofNat 32 (leNat ((l.take 4).map (·.1))), (l.take 4).any (·.2)) :: wordsOf (l.drop 4) k

/-- A segment as memory holds it. -/
def State.readSegment (s : State) (n : Node) (seg : Nat) : Except MFault Segment :=
  let im := n.desc.image
  let len := im.segLen seg
  let a := im.addr.toNat + im.segOff seg
  match s.segBytes n (im.addr.toNat / 2 ^ 44) (a % 2 ^ 44) len with
  | .error f => .error f
  | .ok l =>
    let ws := wordsOf l (len / 4)
    .ok { num := seg, words := ws.map (·.1), poison := (ws.zipIdx.filter fun e => e.1.2).map (·.2) }

/-- A segment stands in instruction memory: of an overlay image, when a half holds it. -/
def Resident.holds (r : Resident) (seg : Nat) : Bool := !r.ovl || r.half0 == some seg || r.half1 == some seg

/-- The contents of a segment in instruction memory. -/
def Resident.seg (r : Resident) (seg : Nat) : Option Segment := if r.holds seg then r.segs.find? fun x => x.num == seg else none

/-- A segment is put into a half; what neither half holds is dropped. -/
def Resident.put (r : Resident) (x : Segment) (half1 : Bool) : Resident :=
  let r := if half1 then { r with half1 := some x.num } else { r with half0 := some x.num }
  { r with segs := (r.segs.filter fun y => y.num != x.num && (r.half0 == some y.num || r.half1 == some y.num)) ++ [x], copying := none }

/-! ## Fetch (R134, R135, R178) -/

/-- What fetch finds at an address. -/
inductive Fetched where
  | word (w : IWord) (poison : Bool)
  | outside
  | absent (seg : Nat)
deriving DecidableEq, Repr

/-- The word of a node at an instruction address, given as a number because an address after the last segment has no 22 bits. -/
def State.fetchWord (s : State) (n : Node) (a : Nat) : Fetched :=
  let im := n.desc.image
  let seg := segOf im.ovl a
  let off := offsetOf im.ovl a
  if 2 ^ 22 ≤ a ∨ im.segLen seg ≤ off then .outside
  else
    match (s.resident im.imgid).bind (·.seg seg) with
    | none => .absent seg
    | some x =>
      match x.words[off / 4]? with
      | none => .outside
      | some w => .word w (x.poison.contains (off / 4))

/-- The words of a bundle as fetched. -/
inductive FetchedBundle where
  | words (l : List IWord) (na : Nat)
  /-- A chain into a fourth packet (R135), with the words of the three packets. -/
  | tooLong (l : List IWord)
  | outside (a pos : Nat)
  | absent (seg : Nat)
  | poisoned
deriving DecidableEq, Repr

/-- Put a word in front. -/
def FetchedBundle.cons (w : IWord) (b : FetchedBundle) : FetchedBundle :=
  match b with
  | .words l na => .words (w :: l) na
  | .tooLong l => .tooLong (w :: l)
  | b => b

/-- Fetch from address `a` on; `limit`: the first address of the fourth packet; `pos`: the position of the word at `a`. -/
def State.fetchFrom (s : State) (n : Node) (limit : Nat) (a pos : Nat) : Nat → FetchedBundle
  | 0 => .tooLong []
  | fuel + 1 =>
    match s.fetchWord n a with
    | .outside => .outside a pos
    | .absent seg => .absent seg
    | .word w poison =>
      if poison then .poisoned
      else if limit ≤ a then .tooLong []
      else if chains w then (State.fetchFrom s n limit (a + 4) (pos + 1) fuel).cons w
      else .words [w] (a + 4)

/-- The bundle of a node at an address. -/
def State.fetchBundle (s : State) (n : Node) (a : Nat) : FetchedBundle :=
  s.fetchFrom n (a - offsetOf n.desc.image.ovl a % 12 + 36) a 0 10

/-! ## The static checks of a bundle (R131 to R141, R59) -/

/-- A word of a bundle: its instruction, its position (R347) and its address. -/
structure BWord where
  i : Instr
  pos : Nat
  addr : Nat
deriving DecidableEq, Repr

/-- Decode the words of a bundle; the position of the first that does not decode. -/
def decodeBundle (a pos : Nat) (l : List IWord) : Nat → Except Nat (List BWord)
  | 0 => .ok []
  | fuel + 1 =>
    match l with
    | [] => .ok []
    | _ =>
      match decodeHead l with
      | .error _ => .error pos
      | .ok (i, k, _) =>
        match decodeBundle (a + 4 * k) (pos + k) (l.drop k) fuel with
        | .error p => .error p
        | .ok r => .ok ({ i := i, pos := pos, addr := a } :: r)

def BWord.sig (w : BWord) : Sig := w.i.sig

/-- An N word. -/
def isNop (i : Instr) : Bool :=
  match i with
  | .nop _ _ => true
  | _ => false

/-- An E word that extends no word of its bundle (R133). -/
def isLoneE (i : Instr) : Bool :=
  match i with
  | .extensionWord _ => true
  | _ => false

/-- The registers of R138 that a word reads and writes: s0 and p0 take no part as destinations. -/
def wordReads (z : Sig) : List Reg := (if z.g.extractLsb' 0 3 = 0 then [] else pR z.g) ++ z.reads
def wordWrites (z : Sig) : List Reg := z.writes.filter fun r => r != .s 0 && r != .p 0

/-- Two words of a bundle are dependent (R138). -/
def dependent (x y : Sig) : Bool :=
  (wordWrites x).any (fun r => (wordReads y).contains r || (wordWrites y).contains r) || (wordWrites y).any fun r => (wordReads x).contains r

/-- The first word, by position, that depends on a word before it. -/
def firstDependent (before : List BWord) : List BWord → Option Nat
  | [] => none
  | w :: rest => if before.any fun x => dependent x.sig w.sig then some w.pos else firstDependent (before ++ [w]) rest

/-- Words of one kind beyond the first `k`, by position. -/
def beyond (k : Nat) (l : List BWord) (f : Sig → Bool) : Option Nat := ((l.filter fun w => f w.sig)[k]?).map (·.pos)

/-- The scalar-pipe words of a bundle (R136). -/
def isScalarPipe (z : Sig) : Bool := z.pipe == .sA || z.pipe == .sc

/-- The first word that no slot takes (R136). -/
def firstSlotless (l : List BWord) : Option Nat :=
  let sc := l.filter fun w => isScalarPipe w.sig
  let bad2 := match sc[1]? with
    | some w => if w.sig.pipe == .sA then none else some w.pos
    | none => none
  bad2 <|> (sc[2]?).map (·.pos) <|> beyond 2 l (fun z => z.pipe == .v) <|> beyond 1 l (fun z => z.pipe == .m) <|>
    beyond (if 2 ≤ sc.length then 1 else 2) l (fun z => z.pipe == .c)

/-- A word that must stand alone and does not (R137). -/
def firstNotAlone (l : List BWord) : Option Nat :=
  (l.find? fun w => w.sig.alone && l.any fun x => x.pos != w.pos && !isNop x.i).map (·.pos)

/-- A CALL whose bundle does not end a packet (R163). -/
def firstBadCall (ovl : Bool) (na : Nat) (l : List BWord) : Option Nat :=
  if offsetOf ovl (na - 4) % 12 = 8 then none else (l.find? fun w => w.sig.call).map (·.pos)

/-- The first word whose own encoding is an illegal point. -/
def firstIllegal (l : List BWord) : Option Nat := (l.find? fun w => !w.i.wf || isLoneE w.i).map (·.pos)

/-- The checks of R140 on a decoded bundle: the cause and the position of the offending word, which is the first that fails the first check that fails: the later one
of a dependent pair, and the first that finds no slot (DESIGN CHOICE: log entry 100). -/
def bundleCheck (ovl : Bool) (part : BitVec 32) (na : Nat) (l : List BWord) : Option (BitVec 7 × Nat) :=
  match firstIllegal l <|> firstNotAlone l <|> firstSlotless l <|> firstDependent [] l <|> firstBadCall ovl na l with
  | some p => some (1, p)
  | none => (l.find? fun w => !partitionOk part w.sig).map fun w => (2, w.pos)

/-- SEGMENT_COPY_DONE (R178): An overlay segment finishes copying and the fetch freeze ends. -/
def execSegmentCopyDone (core : BitVec 10) (σ : State) : Result :=
  let c := σ.core core.toNat
  match c.imem.find? fun r => r.copying.isSome with
  | none => .fault (.notEnabled "SEGMENT_COPY_DONE")
  | some r =>
    match r.copying, (c.slots.toList.map σ.node).find? fun n => n.desc.uid != 0 && n.desc.image.imgid == r.imgid with
    | some (seg, half1), some n =>
      match σ.readSegment n seg with
      | .ok x => .next (σ.setCore { c with imem := c.imem.map fun y => if y.imgid = r.imgid then r.put x half1 else y })
      | .error f => .next (σ.memFault n.desc.uid f)
    | _, _ => .next (σ.setCore { c with imem := c.imem.map fun y => if y.imgid = r.imgid then { r with copying := none } else y })

end Sys2Proof.Machine
end

