-- ==== Sys2Proof/Machine/Matrix.lean ====
section
/-! DEFINITION. The words of class M: chains, products, the epilogue and the checksums (R219 to R234). -/

namespace Sys2Proof.Machine

/-- An accumulator of the current node (R220). -/
def State.accOf (s : State) (a : BitVec 4) : Acc := s.cur.regs.acc[a.toNat]?.getD {}

def State.setAcc (s : State) (a : BitVec 4) (x : Acc) : State := s.mapRegs fun r => { r with acc := r.acc.setIfInBounds a.toNat x }

/-- The matrix chain fault (R224). -/
def State.chainFault (s : State) : State := s.trapHere 0x0A 0

/-- The results in flight for one accumulator. -/
def Effect.forAcc (e : Effect) (a : BitVec 4) : Bool :=
  match e with
  | .acc b .. => a == b
  | .accEnd b => a == b
  | .accZero b => a == b
  | _ => false

/-- The accumulator as it stands after every word issued earlier (R223, MBEG.ck). -/
def State.accAfter (s : State) (a : BitVec 4) : Acc :=
  let r := (s.cur.ctl.results.filter fun f => f.eff.forAcc a).foldl (fun r f => r.apply s.slabs f.eff) s.cur.regs
  (r.acc[a.toNat]?.getD {}).read (accElems s.slabs)

/-- The elements of an accumulator as integers, row by row. -/
def Acc.elems (x : Acc) (slabs : Nat) : List Int := unpack 48 x.base (accElems slabs)

/-- The sums of the rows, and of the columns, of a list of elements. -/
def rowSums (mr mc : Nat) (l : List Int) : List Int := (List.range mr).map fun i => sumInt ((l.drop (i * mc)).take mc)
def colSums (mr mc : Nat) (l : List Int) : List Int := (List.range mr).foldl (fun acc i => (acc.zip ((l.drop (i * mc)).take mc)).map fun e => e.1 + e.2) (List.replicate mc 0)

/-- MBEG (R223). -/
def State.mbeg (s : State) (a : BitVec 4) (ck : Bool) : State :=
  let x := s.accOf a
  if x.opened then s.chainFault
  else
    let x := { x with opened := true, count := 0, ckv := ck }
    if !ck then s.setAcc a x
    else
      let mr := matrixRows s.slabs
      let mc := matrixCols s.slabs
      let l := (s.accAfter a).elems s.slabs
      let bare := fun (l : List InFlight) => l.map fun f => match f.eff with
        | .acc b segs p st _ _ _ => if b = a then { f with eff := .acc b segs p st false 0 0 } else f
        | _ => f
      let s := s.mapCtl fun c => { c with flight := bare c.flight, trapFlight := bare c.trapFlight, uiFlight := bare c.uiFlight }
      s.setAcc a { x with rc := packList 64 (rowSums mr mc l), cc := packList 64 (colSums mr mc l) }

/-- An effect on an accumulator follows those in flight on it: in the list that is written last, a handler's recorded results among them, at the last one's distance. -/
def Ctl.behind (c : Ctl) (a : BitVec 4) (e : Effect) : Option Ctl :=
  let last := fun (l : List InFlight) => maxNat ((l.filter fun f => f.eff.forAcc a).map (·.dist))
  let add := fun (l : List InFlight) => l ++ [{ dist := last l, eff := e }]
  if last c.uiFlight ≠ 0 then some { c with uiFlight := add c.uiFlight }
  else if last c.trapFlight ≠ 0 then some { c with trapFlight := add c.trapFlight }
  else if last c.flight ≠ 0 then some { c with flight := add c.flight }
  else none

/-- MEND (R223): the run in progress ends after the k-steps of every MMA issued before it. -/
def State.mend (s : State) (a : BitVec 4) : State :=
  let x := s.accOf a
  if !x.opened then s.chainFault
  else
    let s := s.setAcc a { x with opened := false }
    match s.cur.ctl.behind a (.accEnd a) with
    | none => s.mapRegs fun r => r.apply s.slabs (.accEnd a)
    | some c => s.mapCtl fun _ => c

/-- MZERO (R223). DEDUCED: log entry 25. -/
def State.mzero (s : State) (a : BitVec 4) : State := if (s.accOf a).opened then s.chainFault else s.push 1 (.accZero a)

/-- The segments of `k` k-steps from step `c` of the chain (R48): first step, number of steps, and whether a run ends there. -/
def runSegs (c first k : Nat) : Nat → List (Nat × Nat × Bool)
  | 0 => []
  | fuel + 1 =>
    if k = 0 then []
    else
      let len := min k (65536 - c % 65536)
      (first, len, (c + len) % 65536 == 0) :: runSegs (c + len) (first + len) (k - len) fuel

/-- The product sums of one segment for every element, packed: `ga i k` and `gb j k` read the operands, `m` rows and `n` columns take products. -/
def segSums (mr mc m n : Nat) (ga gb : Nat → Nat → Int) (first len : Nat) : Nat :=
  packList 48 ((List.range mr).flatMap fun i => (List.range mc).map fun j =>
    if i < m ∧ j < n then sumInt ((List.range len).map fun k => ga i (first + k) * gb j (first + k)) else 0)

/-- A check handle of MMA or MMAT (R225): a block-shift format must run along K. -/
def checkHandleBad (h : Handle) (ori : Bool) : Bool := fmtBlock h.fmt && h.ori != ori

/-- MMA and MMAT (R225). `t`: transposed. -/
def State.mma (s : State) (t : Bool) (d : BitVec 4) (a b : BitVec 6) (ext : Option (BitVec 25)) : State :=
  let A := s.tv a
  let B := s.tv b
  let mr := matrixRows s.slabs
  let mc := matrixCols s.slabs
  let ok := A.w == B.w && decide (A.w ≤ 16) &&
    (if t then A.rows == B.rows else A.cols == B.cols && decide (A.rows ≤ mr) && decide (B.rows ≤ mc))
  s.vword [A, B] ok fun s =>
    let e := ext.getD 0
    let ha : BitVec 4 := e.extractLsb' 0 4
    let hb : BitVec 4 := e.extractLsb' 5 4
    if e.getLsbD 4 && checkHandleBad s.cur.regs.h[ha.toNat] t then s.trapHere 4 (ha.zeroExtend 64)
    else if e.getLsbD 9 && checkHandleBad s.cur.regs.h[hb.toNat] t then s.trapHere 4 (hb.zeroExtend 64)
    else
      let x := s.accOf d
      let k := if t then A.rows else A.cols
      let m := if t then mr else A.rows
      let n := if t then mc else B.rows
      let ia := fun i k : Nat => if t then k * A.cols + i else i * A.cols + k
      let ib := fun j k : Nat => if t then k * B.cols + j else j * B.cols + k
      let ga := fun i k => A.get false (ia i k)
      let gb := fun j k => B.get false (ib j k)
      let start := if x.opened then x.count else 0
      let segs := runSegs start 0 k (k / 65536 + 2)
      let sums := segs.map fun g => (segSums mr mc m n ga gb g.1 g.2.1, g.2.2)
      let sums := if x.opened then sums else sums ++ [(0, true)]
      let badA := fun i => (List.range k).any fun z => A.poi (ia i z)
      let badB := fun j => (List.range k).any fun z => B.poi (ib j z)
      let pa := (List.range mr).map fun i => decide (i < m) && badA i
      let pb := (List.range mc).map fun j => decide (j < n) && badB j
      let poison := packBits 1 (((pa.zip (List.range mr)).flatMap fun p =>
        (pb.zip (List.range mc)).map fun q => if decide (p.2 < m) && decide (q.2 < n) && (p.1 || q.1) then 1 else 0))
      let rc := if x.ckv then packList 64 ((List.range mr).map fun i =>
        if i < m then sumInt ((List.range k).map fun z => ga i z * sumInt ((List.range n).map fun j => gb j z)) else 0) else 0
      let cc := if x.ckv then packList 64 ((List.range mc).map fun j =>
        if j < n then sumInt ((List.range k).map fun z => sumInt ((List.range m).map fun i => ga i z) * gb j z) else 0) else 0
      let s := if x.opened then s.setAcc d { x with count := x.count + k } else s
      s.push 24 (.acc d sums poison (A.sat || B.sat) x.ckv rc cc)

/-! ## The epilogue (R227 to R234) -/

/-- The shift of an epilogue word (R222): the immediate, or a register clamped to 0..63. -/
def State.epiShift (s : State) (sh : BitVec 5) (ext : Option (BitVec 25)) : Nat :=
  match ext with
  | some e => if e.getLsbD 0 then clamp63 (s.sv sh) else sh.toNat
  | none => sh.toNat

/-- Read a closed accumulator (R224, R226). -/
def State.readAcc (s : State) (a : BitVec 4) (k : Acc → State → State) : State :=
  let x := s.accOf a
  if x.opened then s.chainFault else k (x.read (accElems s.slabs)) s

/-- An element narrowed (R227). -/
def State.narrowEl (s : State) (m : BitVec 2) (sh w idx : Nat) (x : Int) : Int × Bool := satI w ((s.rounding m).go idx x sh)

/-- EPI (R228). With H = 1 the census takes in every element written, also those beyond hN's extents. DESIGN CHOICE: log entry 84. DEDUCED: log entry 66. -/
def State.epi (s : State) (t : BitVec 6) (a : BitVec 4) (cq rq m : BitVec 2) (sh : BitVec 5) (ext : Option (BitVec 25)) : State :=
  s.readAcc a fun x s =>
    let D := s.tv t
    let mr := matrixRows s.slabs
    let mc := matrixCols s.slabs
    let row0 := 64 * rq.toNat
    let col0 := 64 * cq.toNat
    s.vword [D] (decide (row0 < mr) && decide (col0 + mc ≤ D.cols)) fun s =>
      let e := ext.getD 0
      let hx := e.getLsbD 5
      let h := s.cur.regs.h[(e.extractLsb' 1 4).toNat]
      let k := s.epiShift sh ext
      let l := x.elems s.slabs
      let out := (List.range (min D.rows (mr - row0))).flatMap fun i =>
        (((l.drop ((row0 + i) * mc)).take mc).zip (List.range mc)).map fun v =>
          let n := i * D.cols + col0 + v.2
          let idx := if hx then h.index [h.org 0 + col0 + v.2, h.org 1 + i, h.org 2, h.org 3, h.org 4] else n
          (n, s.narrowEl m k D.w idx v.1, x.poison.testBit ((row0 + i) * mc + v.2))
      let put := fun (acc : Nat) (n v : Nat) => acc ||| v * 2 ^ (D.w * n)
      let full := 2 ^ D.w - 1
      let mask := out.foldl (fun acc o => put acc o.1 full) 0
      let bits := out.foldl (fun acc o => put acc o.1 (lowBits D.w o.2.1.1)) 0
      let poison := out.foldl (fun acc o => if o.2.2 then put acc o.1 full else acc) 0
      let s := if hx then s.mapCur fun nd => nd.noteWrite h (nd.window h) (leastCensus (out.map fun o => headroom 32 o.2.1.1)) false false else s
      s.push 8 (.tile D.slot mask bits poison (x.sticky || out.any fun o => o.2.1.2) false)

/-- The tensor coordinates of accumulator element n of an epilogue write (R229, R233): j0 = j, j1 = i. -/
def accCell (h : Handle) (mc n : Nat) : List Nat := addOrg h.orgs [n % mc, n / mc, 0, 0, 0]

/-- The narrowed elements of an accumulator for a tensor (R229, R233). -/
def State.epiVals (s : State) (x : Acc) (h : Handle) (m : BitVec 2) (k w : Nat) : List EpiVal :=
  let mc := matrixCols s.slabs
  ((x.elems s.slabs).zip (List.range (accElems s.slabs))).map fun v =>
    let r := s.narrowEl m k w (linIndex h.exts (accCell h mc v.2)) v.1
    { v := r.1, clamp := r.2, poison := x.poison.testBit v.2 }

/-- The queue limit of the epilogue (R353). -/
def State.epiRoom (s : State) (k : State → State) : State := if 8 ≤ s.cur.eng.epi.length then s.delay else k s

/-- EPI.ADD (R229): its checks and its narrowed values at issue; the epilogue engine adds them. -/
def State.epiAdd (s : State) (hn a : BitVec 4) (m : BitVec 2) (sh : BitVec 5) (acq : Bool) (ext : Option (BitVec 25)) : State :=
  s.readAcc a fun x s =>
    let h := s.cur.regs.h[hn.toNat]
    match s.checkHandle s.cur h true with
    | some f => s.engineFault f hn true h
    | none =>
      if h.fmt ≠ 3 then s.trapHere 4 (BitVec.ofNat 64 (hn.toNat + 16))
      else s.epiRoom fun s =>
        let c : EpiAdd := { h := h, vals := s.epiVals x h m (s.epiShift sh ext) 32, sticky := x.sticky, win := s.cur.window h,
                             acq := acq, ord := s.cur.eng.nextOrd }
        s.mapEng fun e => { e.take with epi := e.epi ++ [.add c] }

/-- The route fault (R233, R333). -/
def routeBad (e : Word) : Bool := !routeV e || (if routeRel e then routeScope e == 0 || decide (13 ≤ routeScope e) else routeScope e != 0)

/-- EPI.SEND (R233). -/
def State.epiSend (s : State) (r : BitVec 2) (hn a : BitVec 4) (m : BitVec 2) (sh : BitVec 5) (ext : Option (BitVec 25)) : State :=
  s.readAcc a fun x s =>
    let h := s.cur.regs.h[hn.toNat]
    let er := s.cur.regs.e[r.toNat]
    let val := BitVec.ofNat 64 (hn.toNat + 16)
    if routeBad er then s.trapHere 7 0
    else if !handleStep1 h then s.trapHere 5 val
    else if !handleStep2 s.cur h then s.trapHere 4 val
    else if fmtBlock h.fmt then s.trapHere 4 val
    else s.epiRoom fun s =>
      let w := fmtWidth h.fmt
      let mc := matrixCols s.slabs
      let vals := s.epiVals x h m (s.epiShift sh ext) w
      let seen := (vals.zip (List.range vals.length)).filter fun v => inside h.exts (accCell h mc v.2)
      let c : SendCmd := { epi := true, route := r, er := er, hD := h, hS := 0, sw := 0, ctrl := 0, trigger := 0,
                           payload := vals.map (fun v => { e := v.v, m := 0, poison := v.poison }), extents := [mc, matrixRows s.slabs, 1, 1, 1],
                           coreIdx := BitVec.ofNat 10 s.focus, sent := false, ord := s.cur.eng.nextOrd }
      let s := s.mapCur fun n => n.noteWrite h (n.window h) (leastCensus (seen.map fun v => censusValue v.1.v 0))
        (x.sticky || seen.any fun v => v.1.clamp) (seen.any fun v => v.1.poison)
      let s := s.mapRun fun q => { q with irrev := true }
      let s := s.mapEng fun e => { e.take with epi := e.epi ++ [.send c] }
      s.push 1 (.e r (routeNext er))

/-- EPI.CK (R234). -/
def State.epiCk (s : State) (p : BitVec 3) (a : BitVec 4) : State :=
  s.readAcc a fun x s =>
    if !x.ckv then s.chainFault
    else if x.poison ≠ 0 then s.consume
    else
      let mr := matrixRows s.slabs
      let mc := matrixCols s.slabs
      let l := x.elems s.slabs
      s.pushP 8 p (packList 64 (rowSums mr mc l) == x.rc && packList 64 (colSums mr mc l) == x.cc)

/-- MBEG (R223): Opens a matrix chain on an accumulator, optionally with checksums. -/
def execMbeg (q : BitVec 2) (d : BitVec 4) (k : BitVec 1) (σ : State) : Result :=
  word (.mbeg q d k) σ fun σ => σ.mbeg d (k == 1)

/-- MEND (R223): Closes the accumulator's chain and ends its run. -/
def execMend (q : BitVec 2) (d : BitVec 4) (σ : State) : Result :=
  word (.mend q d) σ fun σ => σ.mend d

/-- MZERO (R223): Zeroes the accumulator and clears its marks and flags. DEDUCED: log entry 25. -/
def execMzero (q : BitVec 2) (d : BitVec 4) (σ : State) : Result :=
  word (.mzero q d) σ fun σ => σ.mzero d

/-- MMA (R225): Adds the products A(i,k)·B(j,k) into an accumulator. -/
def execMma (q : BitVec 2) (d : BitVec 4) (a : BitVec 6) (b : BitVec 6) (ext : Option (BitVec 25)) (σ : State) : Result :=
  word (.mma q d a b ext) σ fun σ => σ.mma false d a b ext

/-- MMAT (R225): Adds the transposed products A(k,i)·B(k,j) into an accumulator. -/
def execMmat (q : BitVec 2) (d : BitVec 4) (a : BitVec 6) (b : BitVec 6) (ext : Option (BitVec 25)) (σ : State) : Result :=
  word (.mmat q d a b ext) σ fun σ => σ.mma true d a b ext

/-- EPI (R228): Narrows a block of the accumulator into a tile. -/
def execEpi (q : BitVec 2) (t : BitVec 6) (a : BitVec 4) (x : BitVec 2) (y : BitVec 2) (m : BitVec 2) (s : BitVec 5) (ext : Option (BitVec 25)) (σ : State) : Result :=
  word (.epi q t a x y m s ext) σ fun σ => σ.epi t a x y m s ext

/-- EPI.ADD (R229): Narrows the accumulator and adds it, saturating, into an INT32 tensor. -/
def execEpiAdd (q : BitVec 2) (h : BitVec 4) (a : BitVec 4) (m : BitVec 2) (s : BitVec 5) (e : BitVec 1) (l : BitVec 1) (o : BitVec 4) (ext : Option (BitVec 25)) (σ : State) : Result :=
  word (.epiAdd q h a m s e l o ext) σ fun σ => σ.epiAdd h a m s (e == 1) ext

/-- EPI.SEND (R233): Narrows the accumulator and sends it to a peer over a route. -/
def execEpiSend (q : BitVec 2) (r : BitVec 2) (h : BitVec 4) (a : BitVec 4) (m : BitVec 2) (s : BitVec 5) (ext : Option (BitVec 25)) (σ : State) : Result :=
  word (.epiSend q r h a m s ext) σ fun σ => σ.epiSend r h a m s ext

/-- EPI.CK (R234): Checks the accumulator against its checksums and writes the result to pD. -/
def execEpiCk (q : BitVec 2) (p : BitVec 3) (a : BitVec 4) (σ : State) : Result :=
  word (.epiCk q p a) σ fun σ => σ.epiCk p a

end Sys2Proof.Machine
end

