-- ==== Sys2Proof/Machine/Engine.lean ====
section
/-! DEFINITION. The steps that engines, waits, matrix runs, census windows and job control blocks take on their own (R42, R48, R71, R229, R279, R280, R305 to R309, R325, R358). -/

namespace Sys2Proof.Machine

/-! ## The epilogue engine (R229) -/

/-- One element of an EPI.ADD (R229). -/
def addElem (uid : Nat) (c : EpiAdd) (mc : Nat) (r : CopyRun) (vi : EpiVal × Nat) : CopyRun :=
  let x := accCell c.h mc vi.2
  let r := { r with at_ := r.at_.did .cpy vi.2 0 }
  if !inside c.h.exts x then r
  else
    let n := r.st.node uid
    match r.st.readElem n c.h x with
    | .error (f, _) => { r with fin := engineEnd f vi.2 }
    | .ok g =>
      let y := satI 32 (g.value 32 + vi.1.v)
      let poi := g.poison || vi.1.poison
      match r.st.planElem n c.h x (lowBits 32 y.1) poi with
      | .error (f, _) => { r with fin := engineEnd f vi.2 }
      | .ok l =>
        let r := { r with st := r.st.touch uid 4 none g.guard, at_ := r.at_.note [censusValue y.1 0] (vi.1.clamp || y.2) poi }
        r.write uid 4 none l

/-- The elements of an EPI.ADD that are still to be added, in ascending window linear index (R229). -/
def EpiAdd.rest (c : EpiAdd) : List (EpiVal × Nat) := c.vals.zipIdx.filter fun e => !c.progress.done.contains e.2

/-- Elements of an EPI.ADD, one after the other. -/
def State.runAdd (s : State) (uid : Nat) (c : EpiAdd) (l : List (EpiVal × Nat)) : CopyRun :=
  let mc := matrixCols (s.node uid).run.gangWidth
  l.foldl (fun r e => if r.fin = .done then addElem uid c mc r e else r) { st := s, at_ := c.progress, fin := .done }

/-- An element of an EPI.ADD may be added now: no earlier one that is still to be added reaches its bytes or would end the command (R229, R288). DESIGN CHOICE: log entry 5. -/
def State.mayAdd (s : State) (uid : Nat) (c : EpiAdd) (k : Nat) : Bool :=
  let n := s.node uid
  let reach := fun (i : Nat) => s.elemPlaces n c.h true [accCell c.h (matrixCols n.run.gangWidth) i]
  match reach k with
  | none => false
  | some mine => (c.rest.takeWhile fun e => decide (e.2 < k)).all fun e => match reach e.2 with
    | some l => disjointPlaces mine l
    | none => false

/-- One element of an EPI.ADD under way, if it may be added now. -/
def addMove (uid : Nat) (c : EpiAdd) (r : CopyRun) (k : Nat) : CopyRun :=
  let now := { c with progress := r.at_ }
  match now.rest.find? fun e => e.2 == k with
  | some e => if r.fin = .done ∧ r.st.mayAdd uid now k then addElem uid c (matrixCols (r.st.node uid).run.gangWidth) r e else r
  | none => r

/-- An EPI.ADD may read its first element (R229, R292). -/
def Node.addMoves (n : Node) (c : EpiAdd) : Bool := c.progress.begun || !c.acq || n.eng.acquired 2 c.ord

/-- Elements of the EPI.ADD at the head of the epilogue's queue (R230, R287), in any order: each is one indivisible step. Elements that would end it in a fault
are left to its completion. DESIGN CHOICE: log entry 5. -/
def State.moveAdd (s : State) (uid : Nat) (moves : List Nat) : State :=
  let n := s.node uid
  match n.eng.epi with
  | .add c :: rest =>
    let r := moves.foldl (addMove uid c) { st := s, at_ := c.progress, fin := .done }
    if !n.live || !n.addMoves c || r.fin != .done then s
    else r.st.mapNode uid fun n => { n with eng := { n.eng with epi := .add { c with progress := r.at_ } :: rest } }
  | _ => s

/-- The EPI.ADD at the head of the epilogue's queue is performed to its end and completes (R229). -/
def State.completeAdd (s : State) (uid : Nat) (c : EpiAdd) : State :=
  let r := s.runAdd uid c c.rest
  match r.fin with
  | .stops f => r.st.memFault uid f
  | fin =>
    let s := r.st.mapNode uid fun n =>
      let n := n.noteWrite c.h c.win r.at_.census (c.sticky || r.at_.sat) r.at_.poi
      { n with eng := { n.eng with epi := n.eng.epi.drop 1 } }
    match fin with
    | .access _ => (s.countCause uid 0x11).mapNode uid fun n => n.setFault 2
    | _ => s

/-! ## The census (R41, R42) -/

/-- Census writes of the window that closes next are still outstanding for a scale register. DEDUCED: log entry 60. -/
def Node.censusPending (n : Node) (k : BitVec 6) : Bool :=
  let w := n.regs.closed[k.toNat]
  let hits := fun (h : Handle) (win : Nat) => h.kidx == k.toNat && h.cen && decide (win ≤ w)
  (n.ctl.flight.any fun f => f.eff == .cenClose k) ||
  ((n.eng.ca ++ n.eng.caArmed ++ n.eng.cb ++ n.eng.cbArmed).any fun c => hits c.hD c.win) ||
  n.eng.epi.any fun e => match e with
    | .add a => hits a.h a.win
    | .send _ => false

/-! ## Job control blocks at their home (R71) -/

/-- Write eight bytes to a tensor-relative address of a space for the module itself: dropped where it does not translate. It meets no flip: a frame with
OWN = 0 takes it as it takes a host packet's write. DEDUCED: log entry 69. -/
def State.signalWrite (s : State) (sp : BitVec 6) (addr v : Nat) : Option State :=
  let tid := addr / 2 ^ 44
  let off := addr % 2 ^ 44
  (List.range 8).foldl (fun st i => match st with
    | none => none
    | some st => match s.translate sp true tid (off + i) true with
      | .ok (pa, _) => some (State.setByte st pa (BitVec.ofNat 8 (v / 2 ^ (8 * i))) false)
      | .error _ => none) (some s)

/-- A block fires its signal and its interrupt. -/
def State.jcbFire (s : State) (j : BitVec 12) : State :=
  let pa := jcbPA j
  let fl := s.rd (pa + 12) 4
  match s.jcbOwner j with
  | none => s
  | some q =>
    let s := if fl % 2 = 0 then s
      else match s.signalWrite (BitVec.ofNat 6 q) (s.rd (pa + 16) 8) (s.rd (pa + 24) 8) with
        | some s => s
        | none => s.count "signals dropped"
    if fl / 2 % 2 = 1 then s.raiseMsix q else s

/-- A completion at the home stop (R71). One at an open block whose DONE is above EXPECTED is counted. DESIGN CHOICE: log entry 85. -/
def State.jcbCompletion (s : State) (j : BitVec 12) : State :=
  let pa := jcbPA j
  let e := s.rd pa 4
  let d := s.rd (pa + 4) 4
  if s.jcbState j ≠ 0 ∨ d = e then s.jcbOr j 16
  else
    let s := s.wr (pa + 4) ((d + 1) % 2 ^ 32) 4
    if d + 1 = e then (s.jcbOr j 1).jcbFire j else s

/-- A node failure at the home stop (R71). -/
def State.jcbFailure (s : State) (j : BitVec 12) (node : BitVec 20) (status : BitVec 32) : State :=
  let pa := jcbPA j
  if s.jcbState j ≠ 0 then s else (((s.jcbOr j 2).wr (pa + 32) node.toNat 4).wr (pa + 36) status.toNat 4).jcbFire j

/-- Remove the first post that a test admits. -/
def dropPost (l : List JcbPost) (t : JcbPost → Bool) : List JcbPost :=
  match l with
  | [] => []
  | p :: rest => if t p then rest else p :: dropPost rest t

/-- The first raise of a node that has no answer yet, with the raises before it. -/
def firstOpen (l : List RaiseReq) : Option RaiseReq := l.find? fun r => r.ans == none
/-- COPY_COMPLETE (R280): A copy command completes: visibility, counter add, record and DONE. DESIGN CHOICE: log entry 5. -/
def execCopyComplete (uid : Nat) (slot : CopySlot) (σ : State) : Result :=
  let n := σ.node uid
  let cb := slot == .cb
  match n.eng.queue cb with
  | [] => .fault (.notEnabled "COPY_COMPLETE")
  | c :: _ => if !σ.headMoves uid cb c then .fault (.notEnabled "COPY_COMPLETE") else .next (σ.completeCopy uid cb c)

/-- CPYQ_FIRE (R279): An armed CPYQ whose counter has reached its threshold joins its slot's queue: at the update itself, or here when the queue had no room
then. DEDUCED: log entry 33. -/
def execCpyqFire (uid : Nat) (slot : CopySlot) (i : Nat) (σ : State) : Result :=
  let n := σ.node uid
  let cb := slot == .cb
  match (n.eng.armedOf cb)[i]? with
  | none => .fault (.notEnabled "CPYQ_FIRE")
  | some c =>
    if !n.live || σ.firstFired uid cb != some (uid, c) || decide (16 ≤ σ.slotLoad uid cb) then .fault (.notEnabled "CPYQ_FIRE")
    else .next (σ.joinFired uid cb 1)

/-- EPI_ADD_COMPLETE (R229): The epilogue engine finishes an EPI.ADD and releases at its scope. DESIGN CHOICE: log entry 5. -/
def execEpiAddComplete (uid : Nat) (σ : State) : Result :=
  let n := σ.node uid
  match n.eng.epi with
  | .add c :: _ => if !n.live || !n.addMoves c then .fault (.notEnabled "EPI_ADD_COMPLETE") else .next (σ.completeAdd uid c)
  | _ => .fault (.notEnabled "EPI_ADD_COMPLETE")

/-- MATRIX_RUN_END (R48): A run of 65,536 k-steps ends, and its exact sum is added to the accumulator with saturation. -/
def execMatrixRunEnd (uid : Nat) (a : BitVec 4) (σ : State) : Result :=
  let n := σ.node uid
  match n.regs.acc[a.toNat]? with
  | none => .fault (.notEnabled "MATRIX_RUN_END")
  | some x =>
    match x.ended with
    | [] => .fault (.notEnabled "MATRIX_RUN_END")
    | r :: rest =>
      let y := Acc.addRun x (accElems n.run.gangWidth) r
      .next (σ.setNode { n with regs := { n.regs with acc := n.regs.acc.setIfInBounds a.toNat { y with ended := rest } } })

/-- CENSUS_CLOSE (R42): A CEN.CLOSE takes effect after the census writes of its window have merged. -/
def execCensusClose (uid : Nat) (k : BitVec 6) (σ : State) : Result :=
  let n := σ.node uid
  if !n.ctl.cwaiting.contains k || n.censusPending k then .fault (.notEnabled "CENSUS_CLOSE")
  else .next (σ.setNode { n with regs := n.regs.closeWindow k, ctl := { n.ctl with cwaiting := n.ctl.cwaiting.erase k } })

/-- The end of a wait as an event of its own (R305, R307, R325): the conditions of a node that runs and that hold end. -/
def State.waitRow (s : State) (row : String) (uid : Nat) (kind : Wait → Bool) : Result :=
  let n := s.node uid
  if n.run.st == .running && n.live && n.ctl.allWaits.any (fun w => kind w && n.holds w) then .next (s.setNode n.settleWaits) else .fault (.notEnabled row)

/-- WAIT_SATISFIED (R305): The counter of a waiting CWAIT or BARB reaches its target, and the node becomes runnable. DEDUCED: log entry 76. -/
def execWaitSatisfied (uid : Nat) (σ : State) : Result :=
  σ.waitRow "WAIT_SATISFIED" uid Wait.counts

/-- BAR_RELEASE (R307): Every engine in the mask reports DONE, and the next bundle issues. -/
def execBarRelease (uid : Nat) (σ : State) : Result :=
  σ.waitRow "BAR_RELEASE" uid fun w => match w with
    | .bar _ => true
    | _ => false

/-- IDLE_END (R325): The IDLE condition comes to hold and issue continues. -/
def execIdleEnd (uid : Nat) (σ : State) : Result :=
  σ.waitRow "IDLE_END" uid fun w => w == .idle

/-- JCB_HOME_RAISE (R71): The home stop accepts or refuses a raise of EXPECTED. -/
def execJcbHomeRaise (uid : Nat) (σ : State) : Result :=
  let n := σ.node uid
  match firstOpen n.run.pendingRaise, n.desc.jcb with
  | some r, some j =>
    let (ok, σ) := σ.jcbRaise j r.n.toNat r.posted
    .next (σ.mapNode uid fun n =>
      let l := n.run.pendingRaise.map fun x => if x.id = r.id then { x with ans := some ok } else x
      let count := ok && !n.desc.image.unstg
      { n with run := { n.run with pendingRaise := l, raises := n.run.raises + (if count then r.n.toNat else 0), refused := n.run.refused + (if ok then 0 else 1) } })
  | _, _ => .fault (.notEnabled "JCB_HOME_RAISE")

/-- JCB_RAISE_ANSWER (R308): The home stop's answer to a raise arrives, and pD is written. -/
def execJcbRaiseAnswer (uid : Nat) (σ : State) : Result :=
  let n := σ.node uid
  match n.run.pendingRaise with
  | { id := id, n := _, posted := _, ans := some ok } :: rest =>
    .next (σ.setNode { n with ctl := n.ctl.answer id ok, run := { n.run with pendingRaise := rest } })
  | _ => .fault (.notEnabled "JCB_RAISE_ANSWER")

/-- JCB_HOME_COMPLETION (R71): The home stop counts a node completion and may complete the block. -/
def execJcbHomeCompletion (jcb : BitVec 12) (σ : State) : Result :=
  let here := fun (p : JcbPost) => p.jcb == jcb && p.fail == none
  match σ.awl.posts.find? here with
  | none => .fault (.notEnabled "JCB_HOME_COMPLETION")
  | some p =>
    if (firstOpen (σ.node p.uid).run.pendingRaise).any (fun r => !r.posted) then .fault (.notEnabled "JCB_HOME_COMPLETION")
    else .next ({ σ with awl := { σ.awl with posts := dropPost σ.awl.posts here } }.jcbCompletion jcb)

/-- JCB_HOME_NODE_FAILURE (R71): The home stop records the first node failure and marks the block FAILED. -/
def execJcbHomeNodeFailure (jcb : BitVec 12) (node : BitVec 20) (status : BitVec 32) (σ : State) : Result :=
  let here := fun (p : JcbPost) => p.jcb == jcb && p.fail == some (node, status)
  if !σ.awl.posts.any here then .fault (.notEnabled "JCB_HOME_NODE_FAILURE")
  else .next ({ σ with awl := { σ.awl with posts := dropPost σ.awl.posts here } }.jcbFailure jcb node status)

/-- ERROR_CONSUMED (R358): A node consumes poisoned data or a detected uncorrectable error and is rolled back or failed: the current node of its core at a
boundary, and so an error in another node's state only once that node is current. The commit of a pair, once begun, runs to its end (R360). DEDUCED: log entry 68. -/
def execErrorConsumed (uid : Nat) (σ : State) : Result :=
  let n := σ.node uid
  let current := (σ.coreOf uid).any fun c => c.current == uid
  if uid = 0 ∨ n.run.quiesced ∨ n.run.committing.isSome ∨ ¬((n.run.st = .running ∧ current) ∨ n.run.st = .retiring) then .fault (.notEnabled "ERROR_CONSUMED")
  else .next ((σ.countCause uid 0x33).rollback uid none)

end Sys2Proof.Machine
end

