-- ==== Sys2Proof/Machine/Link.lean ====
section
/-! DEFINITION. Link words, sends and their receipt, collectives and aborts (R327 to R344, R395). -/

namespace Sys2Proof.Machine

/-! ## Fields of link words (R332, R339) -/

def lnkOrig (c : Word) : Bool := c.getLsbD 63
def lnkContr (c : Word) : Bool := c.getLsbD 62
def lnkRecv (c : Word) : Bool := c.getLsbD 61
def lnkLen (c : Word) : Nat := fieldN c 56 4

/-- The operation list: entry i in bits 16(i mod 4) of the first or the second word (R339). -/
def opList (a b : Word) (n : Nat) : List (BitVec 16) :=
  (List.range n).map fun i => if i < 4 then a.extractLsb' (16 * i) 16 else b.extractLsb' (16 * (i - 4)) 16

def opPort (e : BitVec 16) : Nat := fieldN e 12 4
def opCode (e : BitVec 16) : Nat := fieldN e 9 3
def opArg (e : BitVec 16) : Nat := fieldN e 0 9

/-- The width of a width code of R339: 0 where it is illegal. -/
def opWidth (code : Nat) : Nat := if code = 1 then 8 else if code = 2 then 16 else if code = 3 then 32 else 0

/-- The target width that an entry gives the payload. -/
def opTarget (e : BitVec 16) (w : Nat) : Nat := if opCode e = 2 then opWidth (opArg e % 4) else if opCode e = 3 then opWidth (opArg e / 128) else w

/-- One entry is legal on a payload of width w with `rest` entries after it (R339). -/
def opLegal (e : BitVec 16) (w rest : Nat) : Bool :=
  let port := opPort e
  let arg := opArg e
  let op := opCode e
  !(decide (12 ≤ port) && port != 15) &&
    (if op = 0 then arg == 0 && port != 15
     else if op = 1 then arg == 0
     else if op = 2 then decide (arg < 4) && opWidth arg != 0 && decide (w ≤ opWidth arg)
     else if op = 3 then arg / 32 % 4 != 3 && opWidth (arg / 128) != 0
     else if op = 4 then arg == 0
     else if op = 5 then decide (arg < 8) && arg != 0 && decide (arg ≤ rest) && port != 15
     else false)

/-- A list is legal with the widths as they follow along it; the entries of an MCAST copy follow from the width at the MCAST (R339). -/
def opsLegal : Nat → List (BitVec 16) → Nat → Bool
  | 0, l, _ => l.isEmpty
  | _ + 1, [], _ => true
  | fuel + 1, e :: rest, w =>
    opLegal e w rest.length &&
      (if opCode e = 5 then opsLegal fuel (rest.take (opArg e)) w && opsLegal fuel (rest.drop (opArg e)) w else opsLegal fuel rest (opTarget e w))

/-- The widest element along a list (R333). -/
def opsWidest (l : List (BitVec 16)) (w : Nat) : Nat := l.foldl (fun m e => max m (opTarget e w)) w

/-! ## Checks at issue (R333) -/

/-- The fields of R332 that break their rule, and UI without FLAGS.UIRQ. -/
def linkCtlBad (uirq : Bool) (sw c : Word) : Bool :=
  fieldN sw 54 10 != 0 || c.getLsbD 60 || fieldN c 50 6 != 0 || c.getLsbD 45 || !scopeRule (ctlAcq c) 0 (ctlScope c) || (ctlUi c && !uirq)

/-- The copy command fault of a SEND or a SENDT. -/
def sendBad (uirq trig : Bool) (sw c t : Word) : Bool :=
  linkCtlBad uirq sw c || fieldN c 56 4 != 0 || fieldN c 61 3 != 0 || (trig && fieldN t 38 26 != 0)

/-- The copy command fault of a COLL. `hs`: the field that names the source. -/
def collBad (uirq : Bool) (hs : BitVec 4) (hS hD : Handle) (sw c l0 l1 : Word) : Bool :=
  let src := lnkOrig c || lnkContr c
  let w := fmtWidth hS.fmt
  let ops := opList l0 l1 (lnkLen c)
  let wide := if lnkOrig c then opsWidest ops w else if lnkContr c then w else fmtWidth hD.fmt
  linkCtlBad uirq sw c || ctlCv c || (lnkOrig c && lnkContr c) || (!src && !lnkRecv c) || ((hs != 0) != src) ||
    (if lnkOrig c then lnkLen c == 0 || decide (8 < lnkLen c) || !opsLegal 8 ops w else lnkLen c != 0) ||
    decide (2 ^ 23 < prodN (windowExts sw c) * wide)

/-- The handle checks of a link word (R333): hS as a read, of hD only what does not concern the peer. -/
def State.linkHandles (s : State) (hS : Option Handle) (hD : Handle) : Option (HandleFault × Bool) :=
  let bad := fun (f : Handle → Bool) => match hS with
    | some h => !f h
    | none => false
  if bad handleStep1 then some (.cause 5, false)
  else if !handleStep1 hD then some (.cause 5, true)
  else if bad (handleStep2 s.cur) then some (.cause 4, false)
  else if fmtReserved hD.fmt then some (.cause 4, true)
  else
    match hS with
    | none => none
    | some h =>
      match s.handleStep4 s.cur h with
      | .pass => none
      | .handle => some (.cause 5, false)
      | .proc f => some (.mem f, false)

/-- A word of the link engine is irreversible, and takes its SEQ from the route (R331, R333). -/
def State.irreversible (s : State) : State := s.mapRun fun r => { r with irrev := true }

/-- The register block of a link word: register i of it. -/
def State.linkReg (s : State) (w : BitVec 4) (i : Nat) : Word := s.cur.s (BitVec.ofNat 5 (2 * w.toNat + i))

/-- A handle that fails its checks at a link word: the fault, told apart by destination. -/
def State.linkFault (s : State) (f : HandleFault) (dest : Bool) (hd hs : BitVec 4) : State :=
  if dest then s.engineFault f hd true s.cur.regs.h[hd.toNat] else s.engineFault f hs false s.cur.regs.h[hs.toNat]

/-- SEND and SENDT at issue (R333, R334, R337). -/
def State.issueSend (s : State) (trig : Bool) (hd hs w : BitVec 4) (r : BitVec 2) : State :=
  let er := s.cur.regs.e[r.toNat]
  let sw := s.linkReg w 0
  let c := s.linkReg w 1
  let t := if trig then s.linkReg w 2 else 0
  let hD := s.cur.regs.h[hd.toNat]
  let hS := s.cur.regs.h[hs.toNat]
  let exts := windowExts sw c
  if routeBad er ∨ s.link.dx ≤ (routeX er).toNat ∨ s.link.dy ≤ (routeY er).toNat ∨ s.link.dz ≤ (routeZ er).toNat then s.trapHere 7 0
  else if sendBad s.cur.desc.image.uirq trig sw c t then s.trapHere 8 0
  else
    match s.linkHandles (some hS) hD with
    | some (f, dest) => s.linkFault f dest hd hs
    | none =>
      match copyFormat .cpy (some hS) hD exts 0 with
      | some true => s.trapHere 4 (BitVec.ofNat 64 (hd.toNat + 16))
      | some false => s.trapHere 4 (BitVec.ofNat 64 hs.toNat)
      | none =>
        let cmd : SendCmd := { epi := false, route := r, er := er, hD := hD, hS := hS, sw := sw, ctrl := c, trigger := t, payload := [], extents := exts,
                               coreIdx := BitVec.ofNat 10 s.focus, sent := false, ord := s.cur.eng.nextOrd }
        let fires := !trig || s.cur.triggered t
        if (fires && (decide (16 ≤ s.cur.eng.sends.length) || s.cur.eng.armed.any (·.fired))) || (!fires && decide (16 ≤ s.cur.eng.armed.length)) then s.delay
        else
          let s := s.irreversible.mapEng fun e => if fires then { e.take with sends := e.sends ++ [cmd] } else { e.take with armed := e.armed ++ [cmd] }
          s.push 1 (.e r (routeNext er))

/-! ## Aborts (R342) -/

/-- A SEQ at or before another, compared modulo 2^16 within 2^15. -/
def seqAtOrBefore (a b : BitVec 16) : Bool := decide ((b - a).toNat < 2 ^ 15)

/-- A tag at or before the highest recorded SEQ of its space and route. -/
def LinkUnit.tagAborted (l : LinkUnit) (t : CollTag) : Bool :=
  l.highest.any fun a => a.space == t.space && a.route == t.route && seqAtOrBefore t.seq a.seq

/-- Record an aborted tag: its SEQ becomes the highest of its space and route unless a higher one stands. -/
def LinkUnit.recordAbort (l : LinkUnit) (t : CollTag) : LinkUnit :=
  let same := fun (a : CollTag) => a.space == t.space && a.route == t.route
  { l with aborted := l.aborted ++ [t],
           highest := if l.highest.any (fun a => same a && seqAtOrBefore t.seq a.seq) then l.highest else (l.highest.filter fun a => !same a) ++ [t] }

/-- A COLL has done what its roles require. -/
def CollCmd.finished (c : CollCmd) : Bool := (!c.orig || c.origDone) && (!c.contr || c.contrDone) && (!c.recv || c.recvDone)

/-- Change the COLL of a tag at a node; a finished one leaves the engine, and queues its record when UI is set (R338, R341). The slot of a record
of a link command is a free value. DEDUCED: log entry 35. -/
def State.mapColl (s : State) (uid : Nat) (tag : CollTag) (f : CollCmd → CollCmd) : State :=
  let n := s.node uid
  match n.eng.colls.find? fun c => c.tag == tag with
  | none => s
  | some c =>
    let c := f c
    if !c.finished then s.setNode { n with eng := { n.eng with colls := n.eng.colls.map fun d => if d.tag = tag then c else d } }
    else
      let s := s.setNode { n with eng := { n.eng with colls := n.eng.colls.filter fun d => d.tag != tag } }
      let s := { s with link := { s.link with registered := s.link.registered.filter fun e => !(e.1 == tag && e.2 == uid) } }
      if !c.ui then s
      else
        let (b, s) := s.takeFreeBool
        s.mapNode uid fun n => n.addRecord (if b then 1 else 0) c.cnt

/-- The mark that an abort adds to a receiver's counter (R342). -/
def abortMark : Nat := 0x80000000

/-- A flit is a packet of a collective. -/
def Flit.carries (f : Flit) (tag : CollTag) : Bool :=
  match f with
  | .coll p => p.tag == tag
  | _ => false

/-- A port holds a flit that the test names (R329, R367). -/
def State.portsHold (s : State) (f : Flit → Bool) : Bool := s.svc.ports.toList.any fun p => p.held.any fun e => f e.flit

/-- An abort as one module applies it (R342): the tag is recorded, its payloads and contributions go, those that a port holds among them, and each RECV not applied completes ABORTED. DEDUCED: log entry 35. -/
def State.applyAbort (s : State) (tag : CollTag) : State :=
  let l := s.link.recordAbort tag
  let uids := (l.registered.filter fun e => e.1 == tag).map (·.2)
  let s := { s with link := { l with contribs := l.contribs.filter (fun c => c.tag != tag), waiting := l.waiting.filter (fun p => p.tag != tag),
                                     held := l.held.filter (fun h => h.pkt.tag != tag), unpassed := l.unpassed.filter fun u => u.copy.pkt.tag != tag }
                    svc := { s.svc with ports := s.svc.ports.map fun p => { p with held := p.held.filter fun f => !f.flit.carries tag } } }
  uids.foldl (fun s u =>
    let s := match (s.node u).eng.colls.find? fun c => c.tag == tag with
      | some c => if c.recv && !c.recvDone then s.addCounter u c.cnt abortMark else s
      | none => s
    s.mapColl u tag fun c => { c with origDone := true, contrDone := true, recvDone := true }) s

/-- The COLL whose packet a flit is while it is at the module of its origin, with its node. -/
def State.originColl (s : State) (p : CollPacket) : Option (Nat × CollCmd) :=
  if p.origin then
    (s.link.registered.filter fun e => e.1 == p.tag).findSome? fun e => ((s.node e.2).eng.colls.find? fun c => c.tag == p.tag && c.orig).map fun c => (e.2, c)
  else none

/-- The node of this module whose outstanding ABORT an abort flit belongs to. -/
def State.aborter (s : State) (tag : CollTag) : Option Nat := (s.allNodes.find? fun n => n.eng.aborts.contains tag).map (·.desc.uid)

/-- The node of this module that a flit comes from; 0 when it comes from none. -/
def State.flitNode (s : State) (f : Flit) : Nat :=
  match f with
  | .send d => d.fromUid.getD 0
  | .coll p => ((s.originColl p).map (·.1)).getD 0
  | .abort tag => (s.aborter tag).getD 0
  | .ack .. => 0

/-- The send of a node that a delivery carries. -/
def Eng.sendOf (e : Eng) (d : Delivery) : Option SendCmd :=
  (e.sends ++ e.epi.filterMap fun c => match c with
    | .send c => some c
    | .add _ => none).find? fun c => c.sent && c.route == d.route && routeSeq c.er == d.seq

/-- The core that issued the command that a flit belongs to (R101), if it is a command of this module. -/
def State.flitCore (s : State) (f : Flit) : Option Nat :=
  match f with
  | .send d => d.fromUid.bind fun u => ((s.node u).eng.sendOf d).map (·.coreIdx.toNat)
  | .coll p => (s.originColl p).map (·.2.core)
  | .abort tag => (s.aborter tag).bind fun u => (s.coreOf u).map (·.idx)
  | .ack .. => none

/-- Flits of 256 bits of a window's elements, with the shift bytes of its blocks (R327, R334). -/
def windowFlits (n w : Nat) (block : Bool) : Nat := ceilDiv (n * w + if block then 8 * ceilDiv n 32 else 0) 256

/-- A collective packet's flits: its payload and its commit flit (R340). -/
def collFlits (p : CollPacket) : Nat := windowFlits p.elems.length p.width false + 1

/-- The 256-bit flits that a hand-over to the fabric stands for. -/
def Flit.size (f : Flit) : Nat :=
  match f with
  | .send d => windowFlits (prodN d.extents) (fmtWidth (Handle.fmt d.hD)) (fmtBlock (Handle.fmt d.hD))
  | .coll p => collFlits p
  | _ => 1

/-- The channel of a flit (R329): 0 send, 1 collective, 2 control. -/
def Flit.chan (f : Flit) : Nat :=
  match f with
  | .send _ => 0
  | .coll _ => 1
  | _ => 2

/-- A flit as it leaves the module. -/
def Flit.plain (f : Flit) : Flit :=
  match f with
  | .coll p => .coll { p with origin := false }
  | f => f

/-- A port holds a flit while it retrains (R367) and while the flit's channel has no credit (R329). -/
def Port.holds (p : Port) (f : Flit) : Bool := p.retraining || p.noCredit.getLsbD f.chan

/-- The flits that a port holds without credit are counted, each once (R369). -/
def Port.press (p : Port) : Port :=
  let short := fun (h : HeldFlit) => p.noCredit.getLsbD h.flit.chan
  { p with heldCount := (p.heldCount + ((p.held.filter fun h => short h && !h.pressed).map (·.flit.size)).sum) % 2 ^ 32
           held := p.held.map fun h => { h with pressed := h.pressed || short h } }

/-- A flit handed to a port, which holds it or sends it on (R329, R367). Port 12 is the link stop of this module. DESIGN CHOICE: log entry 83. -/
def State.portOut (s : State) (p : Nat) (f : Flit) : State :=
  let out : State := { s with link := { s.link with out := s.link.out ++ [(p, f.plain)] } }
  match s.svc.ports[p]? with
  | some x =>
    if x.holds f then
      let h : HeldFlit := { uid := s.flitNode f, stack := (s.flitCore f).map coreStack, flit := f }
      { s with svc := { s.svc with ports := s.svc.ports.setIfInBounds p (Port.press { x with held := x.held ++ [h] }) } }
    else out
  | none => out

/-- Flits handed to ports. -/
def State.sendOut (s : State) (l : List (Nat × Flit)) : State := l.foldl (fun s e => s.portOut e.1 e.2) s

/-- An abort made at this module: applied, and its control flit floods from every port. -/
def State.startAbort (s : State) (tag : CollTag) : State := (s.applyAbort tag).sendOut ((List.range 12).map fun p => (p, .abort tag))

/-- FAULT(LINK) of a node with its cause counted (R336, R395). -/
def State.linkFlag (s : State) (uid : Nat) (code : Nat) : State := (s.countCause uid code).mapNode uid fun n => n.setFault 3

/-! ## COLL (R339 to R341) -/

/-- The bytes of a collective's payload. -/
def payloadBytes (n w : Nat) : Nat := ceilDiv (n * w) 8
def packetBytes (p : CollPacket) : Nat := payloadBytes p.elems.length p.width

/-- The bytes that payloads waiting at the module occupy of its collective buffer (R341). -/
def LinkUnit.buffered (l : LinkUnit) : Nat :=
  ((l.waiting ++ l.held.map (·.pkt) ++ l.unpassed.map (·.copy.pkt)).map packetBytes).sum

/-- The collective buffer of 16 MiB has room for a payload (R341). -/
def LinkUnit.roomFor (l : LinkUnit) (bytes : Nat) : Bool := decide (l.buffered + bytes ≤ 2 ^ 24)

/-- An element as an engine carries it: the stored integer, the shift of its block and the poison; zero for a suppressed one (R278, R334). -/
def carried (w : Nat) (e : Option ElemRead) : Elem :=
  match e with
  | some e => { e := signExt w (e.bits : Int), m := e.m, poison := e.poison }
  | none => { e := 0, m := 0, poison := false }

/-- The guard touch of a link engine: the code of its unit in the record is a free value. -/
def State.touchLink (s : State) (uid : Nat) (g : Option Nat) : State :=
  if g.isNone then s
  else
    let (u, s) := s.takeFreeNat
    s.touch uid (BitVec.ofNat 3 u) none g

/-- An element of a window as a link engine reads it: as it was read before, or as memory has it now (R287). -/
def State.windowElem (s : State) (uid : Nat) (h : Handle) (exts : List Nat) (got : List (Nat × Option ElemRead)) (i : Nat) : Except (MFault × Nat) (Option ElemRead) :=
  match got.find? fun e => e.1 == i with
  | some e => .ok e.2
  | none => s.sourceElem (s.node uid) h (unlin exts i)

/-- The window of a handle as a link engine reads it, apart from the elements that it has read before. -/
def State.readWindow (s : State) (uid : Nat) (h : Handle) (exts : List Nat) (got : List (Nat × Option ElemRead) := []) : Except MFault (List Elem × State) :=
  match (List.range (prodN exts)).mapM (s.windowElem uid h exts got) with
  | .error (f, _) => .error f
  | .ok es => .ok (es.map (carried (fmtWidth h.fmt)), (s.countCorrected uid es).touchLink uid (guardOf es))

/-! ## The accesses of a node's link engine that are outstanding (R286, R288, R294) -/

/-- The places of the elements of a window, those that fault left out. -/
def State.windowPlaces (s : State) (n : Node) (h : Handle) (exts : List Nat) (write : Bool) (l : List Nat) : List Place :=
  l.flatMap fun i => (s.elemPlaces n h write [addOrg h.orgs (unlin exts i)]).getD []

/-- Accesses of two nodes have a byte in common; a pool's bytes are its node's own. -/
def placesMeet (a b : Nat × List Place) : Bool := a.2.any fun x => b.2.any fun y => x.same y && (x.beyondPool || a.1 == b.1)

/-- The port by which flits for a module leave (R327, R330); 12 stands for the link stop of this module. -/
def LinkUnit.portTo (l : LinkUnit) (x y z : BitVec 5) (odd : Bool) : Nat :=
  let go := fun (a me peer ext : Nat) => 4 * a + (if (peer + ext - me) % ext ≤ (me + ext - peer) % ext then 0 else 2) + (if odd then 1 else 0)
  if x ≠ l.x then go 0 l.x.toNat x.toNat l.dx else if y ≠ l.y then go 1 l.y.toNat y.toNat l.dy else if z ≠ l.z then go 2 l.z.toNat z.toNat l.dz else 12

/-- The resident node that accepts what is sent to a core and a space: of those of the space, the one in the lowest run-queue slot (R335); one that has not begun, or
that is being saved, does not accept it yet. DEDUCED: log entry 34. -/
def State.receiverAt (s : State) (core : Nat) (space : BitVec 6) : Option Nat :=
  ((s.core core).slots.toList.find? fun u => u != 0 && (s.node u).desc.queue == space).filter fun u => (s.node u).live

def State.receiver (s : State) (d : Delivery) : Option Nat := s.receiverAt d.core.toNat d.space

/-- What a delivery writes at its receiver, or while it has none what its window is in the space. -/
def State.lands (s : State) (d : Delivery) : Nat × List Place :=
  let u := (s.receiver d).getD (d.fromUid.getD 0)
  (u, s.windowPlaces (s.node u) d.hD d.extents true (List.range (prodN d.extents)))

/-- The elements of a send's source that have not been read. -/
def SendCmd.unread (c : SendCmd) : List Nat := if c.sent then [] else (List.range (prodN c.extents)).filter fun i => !c.got.any fun e => e.1 == i

/-- What a send of a node writes at this module: nothing when its peer is another. -/
def State.sendLands (s : State) (n : Node) (c : SendCmd) : Nat × List Place :=
  if s.link.portTo (routeX c.er) (routeY c.er) (routeZ c.er) false ≠ 12 then (0, [])
  else
    let u := (s.receiverAt (routeCore c.er).toNat n.desc.queue).getD n.desc.uid
    (u, s.windowPlaces (s.node u) c.hD c.extents true (List.range (prodN c.extents)))

/-- What a RECV writes. -/
def State.recvLands (s : State) (n : Node) (c : CollCmd) : Nat × List Place := (n.desc.uid, s.windowPlaces n c.hD c.exts true (List.range (prodN c.exts)))

/-- The writes of a node's link engine at this module that stand before a command and are still to be made: deliveries that have arrived and are not applied, sends
that have not gone out, and RECVs. -/
def State.linkWrites (s : State) (n : Node) (ord : Nat) : List (Nat × List Place) :=
  (((s.link.pending ++ s.link.gaps).filter fun d => d.fromUid == some n.desc.uid && !d.epi && decide (d.ord < ord)).map s.lands) ++
    ((n.eng.sends.filter fun c => !c.sent && decide (c.ord < ord)).map (s.sendLands n)) ++
    ((n.eng.colls.filter fun c => c.recv && !c.recvDone && decide (c.ord < ord)).map (s.recvLands n))

/-- The reads of a node's link engine that stand before a command and are still to be made. -/
def State.linkReads (s : State) (n : Node) (ord : Nat) : List (Nat × List Place) :=
  ((n.eng.sends ++ n.eng.armed.filter (·.fired)).filter fun c => decide (c.ord < ord)).map fun c => (n.desc.uid, s.windowPlaces n c.hS c.extents false c.unread)

/-- A read of the link engine of a node may be performed before everything of the engine that stands before it: none of its bytes is one that this still writes or
reads (R288). -/
def State.mayRead (s : State) (n : Node) (ord : Nat) (l : List Place) : Bool := !(s.linkWrites n ord ++ s.linkReads n ord).any (placesMeet (n.desc.uid, l))

/-- COLL at issue (R333, R340, R342, R395). Its window is read at issue, so the word waits while earlier commands of the engine still have to write or read one of
its bytes (R288, R294), and with ACQ until every earlier command of the node has been performed (R292). With ORIG it waits for room in the collective buffer (R341).
DEDUCED: log entry 35. -/
def State.issueColl (s : State) (hd hs w : BitVec 4) (r : BitVec 2) : State :=
  let er := s.cur.regs.e[r.toNat]
  let sw := s.linkReg w 0
  let c := s.linkReg w 1
  let hD := s.cur.regs.h[hd.toNat]
  let hS := s.cur.regs.h[hs.toNat]
  let src := lnkOrig c || lnkContr c
  let exts := windowExts sw c
  let coll := fun (h : Handle) => h.fmt == 1 || h.fmt == 2 || h.fmt == 3
  let uid := s.cur.desc.uid
  if routeBad er then s.trapHere 7 0
  else if collBad s.cur.desc.image.uirq hs hS hD sw c (s.linkReg w 2) (s.linkReg w 3) then s.trapHere 8 0
  else
    match s.linkHandles (if src then some hS else none) hD with
    | some (f, dest) => s.linkFault f dest hd hs
    | none =>
      if src && !coll hS then s.trapHere 4 (BitVec.ofNat 64 hs.toNat)
      else if !coll hD then s.trapHere 4 (BitVec.ofNat 64 (hd.toNat + 16))
      else
        let tag : CollTag := { space := s.cur.desc.queue, route := r, seq := routeSeq er }
        let cmd : CollCmd := { tag := tag, orig := lnkOrig c, contr := lnkContr c, recv := lnkRecv c, cnt := ctlCnt c, ui := ctlUi c, hD := hD, exts := exts,
                               origDone := false, contrDone := false, recvDone := false, ord := s.cur.eng.nextOrd, core := s.focus }
        let behind := !s.mayRead s.cur s.cur.eng.nextOrd (s.windowPlaces s.cur hS exts false (List.range (prodN exts)))
        let full := lnkOrig c && !s.link.roomFor (payloadBytes (prodN exts) (fmtWidth hS.fmt))
        let acq := ctlAcq c == 1 && !(s.cur.eng.acquired 3 s.cur.eng.nextOrd && s.cur.eng.sends.isEmpty && s.cur.eng.colls.isEmpty)
        if src && (behind || acq || full) then s.delay
        else
        let s := (s.irreversible.mapEng Eng.take).push 1 (.e r (routeNext er))
        if s.link.tagAborted tag then
          let s := if lnkRecv c then s.addCounter uid (ctlCnt c) abortMark else s
          if !ctlUi c then s
          else
            let (b, s) := s.takeFreeBool
            s.mapCur fun n => n.addRecord (if b then 1 else 0) (ctlCnt c)
        else if s.link.registered.any (fun e => e.1 == tag) then s.linkFlag uid 0x22
        else
          let s := { s with link := { s.link with registered := s.link.registered ++ [(tag, uid)], aborted := s.link.aborted.filter fun t => t != tag } }
          let s := s.mapEng fun e => { e with colls := e.colls ++ [cmd] }
          if !src then s
          else
            match s.readWindow uid hS exts with
            | .error .access => ((s.mapColl uid tag fun c => { c with ui := false }).startAbort tag).linkFlag uid 0x24
            | .error f => s.memFault uid f
            | .ok (es, s) =>
              if lnkContr c then { s with link := { s.link with contribs := s.link.contribs ++ [{ tag := tag, uid := uid, width := fmtWidth hS.fmt, elems := es }] } }
              else
                let p : CollPacket := { tag := tag, ops := opList (s.linkReg w 2) (s.linkReg w 3) (lnkLen c), width := fmtWidth hS.fmt, elems := es, clamp := false,
                                        extents := exts, hD := hD, seed := s.cur.ctl.seed, step := s.cur.ctl.step, origin := true }
                { s with link := { s.link with waiting := s.link.waiting ++ [p] } }

/-- ABORT (R342): the tag of the last SEQ that the route gave. It is outstanding while a port holds its control flit. -/
def State.issueAbort (s : State) (r : BitVec 2) : State :=
  let er := s.cur.regs.e[r.toNat]
  if routeBad er then s.trapHere 7 0
  else
    let tag : CollTag := { space := s.cur.desc.queue, route := r, seq := routeSeq er - 1 }
    let s := (s.irreversible.mapEng fun e => { e with aborts := e.aborts ++ [tag] }).startAbort tag
    if s.portsHold (· == .abort tag) then s else s.mapEng fun e => { e with aborts := e.aborts.erase tag }

/-- ADDS on a payload (R339): sums saturated at the payload's width, with their clamps. -/
def packetAdds (p : CollPacket) (l : List Elem) : CollPacket :=
  let r := (p.elems.zip l).map fun e => (satI p.width (e.1.e + e.2.e), e.1.poison || e.2.poison)
  { p with elems := r.map (fun x => { e := x.1.1, m := 0, poison := x.2 }), clamp := p.clamp || r.any fun x => x.1.2 }

/-- NARROW on a payload (R339): idx is the index of the element in the origin's hD. -/
def packetNarrow (p : CollPacket) (arg : Nat) : CollPacket :=
  let w := opWidth (arg / 128)
  let hD : Handle := p.hD
  let one := fun (i : Nat) (x : Int) => narrow (BitVec.ofNat 2 (arg / 32 % 4)) p.seed.toNat p.step.toNat (linIndex hD.exts (hD.ranked (addOrg hD.orgs (unlin p.extents i)))) x (arg % 32) w
  let r := p.elems.zipIdx.map fun e => (one e.2 e.1.e, e.1.poison)
  { p with width := w, elems := r.map (fun x => { e := x.1.1, m := 0, poison := x.2 }), clamp := p.clamp || r.any fun x => x.1.2 }

/-- A flit is a packet of a collective at the module of its origin. -/
def Flit.starts (f : Flit) (tag : CollTag) : Bool :=
  match f with
  | .coll p => p.tag == tag && p.origin
  | _ => false

/-- The origin's commit flit has left with the last of its packets, once none waits here and no port holds one: its role is done (R341, R367). -/
def State.originLeft (s : State) (tag : CollTag) : State :=
  if s.portsHold (·.starts tag) || s.link.waiting.any (fun p => p.tag == tag && p.origin) then s
  else (s.link.registered.filter fun e => e.1 == tag).foldl (fun s e => s.mapColl e.2 tag fun c => if c.orig then { c with origDone := true } else c) s

/-- A packet has left this module or ended here. -/
def State.packetLeft (s : State) (p : CollPacket) : State := if p.origin then s.originLeft p.tag else s

/-- A packet leaves this module or ends here, its commit flit behind it: the DELIVER copies that it has left may be applied (R341). -/
def State.passed (s : State) (p : CollPacket) (mine : List HeldDelivery) : State :=
  ({ s with link := { s.link with held := s.link.held ++ mine } } : State).packetLeft p

/-- A packet waits at this module, with the DELIVER copies that its commit flit has not passed. -/
def State.waitsHere (s : State) (p : CollPacket) (mine : List HeldDelivery) : State :=
  { s with link := { s.link with waiting := s.link.waiting ++ [p], unpassed := s.link.unpassed ++ mine.map fun h => { waiting := p, copy := h } } }

/-- A packet at a hop (R341): entries are popped and applied until it leaves, ends, waits for a contribution or for room, or meets a contribution that does not fit.
`mine`: the DELIVER copies that it has left here and that its commit flit has not passed. DEDUCED: log entry 35. -/
def State.walk (s : State) (p : CollPacket) (mine : List HeldDelivery) : Nat → State
  | 0 => s.passed p mine
  | fuel + 1 =>
    match p.ops with
    | [] => s.passed p mine
    | e :: rest =>
      let q := { p with ops := rest }
      let go := fun (s : State) (q : CollPacket) => if opPort e = 15 then State.walk s q mine fuel else (s.sendOut [(opPort e, .coll q)]).passed q mine
      if opCode e = 1 then
        match s.link.contribs.find? fun c => c.tag == p.tag with
        | none => s.waitsHere p mine
        | some c =>
          if c.elems.length ≠ p.elems.length ∨ p.width < c.width then
            ((s.mapColl c.uid p.tag fun c => { c with ui := false }).startAbort p.tag).linkFlag c.uid 0x23
          else
            let s := { s with link := { s.link with contribs := s.link.contribs.filter fun d => d.tag != p.tag } }
            go (s.mapColl c.uid p.tag fun c => { c with contrDone := true }) (packetAdds q c.elems)
      else if opCode e = 2 then go s { q with width := opWidth (opArg e % 4) }
      else if opCode e = 3 then go s (packetNarrow q (opArg e))
      else if opCode e = 4 then
        if !s.link.roomFor (2 * packetBytes p + (mine.map fun h => packetBytes h.pkt).sum) then s.waitsHere p mine
        else if opPort e = 15 then State.walk s q (mine ++ [{ pkt := q }]) fuel
        else (s.sendOut [(opPort e, .coll q)]).passed q (mine ++ [{ pkt := q }])
      else if opCode e = 5 then State.walk (s.sendOut [(opPort e, .coll { q with ops := rest.take (opArg e) })]) { q with ops := rest.drop (opArg e) } mine fuel
      else go s q

/-- A packet at this module goes on, with the DELIVER copies that it has left here before it waited. -/
def State.hop (s : State) (p : CollPacket) (fuel : Nat) : State :=
  let own := fun (u : UnpassedCopy) => u.waiting == p
  ({ s with link := { s.link with unpassed := s.link.unpassed.filter fun u => !own u } } : State).walk p ((s.link.unpassed.filter own).map (·.copy)) fuel

/-! ## Delivered writes (R334, R335, R341) -/

/-- One byte that a delivery writes: never staged (R334). -/
def State.putDirect (s : State) (uid : Nat) (w : ByteWrite) : State :=
  let n := s.node uid
  let merge := fun (old : Byte) => (old &&& ~~~w.mask) ||| (w.val &&& w.mask)
  match w.place with
  | .pool _ true => s
  | .pool x false =>
    let old := (cellGet? n.run.scr.cells x).getD 0
    s.setNode { n with run := { n.run with scr := n.run.scr.putScr x (merge old) (w.poison || (w.mask != 0xFF#8 && n.run.scr.poison.contains x)) } }
  | .phys pa _ =>
    s.setByte pa (merge (s.byte pa)) (w.poison || (w.mask != 0xFF#8 && s.poisoned pa))

/-- Every element of the block of a window element is poisoned (R278, R334). -/
def blockPoisoned (h : Handle) (exts j : List Nat) (es : List Elem) : Bool :=
  let d := if h.ori then 1 else 0
  (List.range 32).all fun z => (es[linIndex exts ((List.range 5).map fun k => j.getD k 0 + if k = d then z else 0)]?).any (·.poison)

/-- What one element of a delivery at window coordinates j writes; a block's shift byte goes with its first element, poisoned when the whole block is. A stale
tag of the receiving node is the generation fault (R263, R341). DEDUCED: log entry 62. -/
def State.planDelivered (s : State) (uid : Nat) (h : Handle) (j : List Nat) (e : Elem) (blockBad : Bool) : Except MFault (List ByteWrite) :=
  let x := addOrg h.orgs j
  if !inside h.exts x then .ok []
  else
    let n := s.node uid
    match s.planElem n h x (lowBits (fmtWidth h.fmt) e.e) e.poison with
    | .error (f, _) => .error f
    | .ok l =>
      let beyond := l.any fun w => match w.place with
        | .phys .. => true
        | _ => false
      if beyond && s.stale n then .error .generation
      else
      let shift := if fmtBlock h.fmt && h.blockPos x == 0 then s.planShift n h x e.m blockBad else .ok []
      match shift with
      | .error (f, _) => .error f
      | .ok l' => .ok (l ++ l')

/-- One element of a delivery is written. -/
def State.deliverElem (s : State) (uid : Nat) (h : Handle) (j : List Nat) (e : Elem) (blockBad : Bool) : Except MFault State :=
  (s.planDelivered uid h j e blockBad).map fun l => (l.foldl (fun s w => s.putDirect uid w) s).touchLink uid (firstGuard (l.map (·.place)))

/-- The elements of a delivery in window order, up to the first fault, whose place it answers; `es`: all of them. -/
def State.deliverElems (s : State) (uid : Nat) (h : Handle) (exts : List Nat) (es : List Elem) : List (Elem × Nat) → State × Option Nat
  | [] => (s, none)
  | (e, i) :: rest =>
    if prodN exts ≤ i then (s, none)
    else
      match s.deliverElem uid h (unlin exts i) e (fmtBlock h.fmt && blockPoisoned h exts (unlin exts i) es) with
      | .error _ => (s, some i)
      | .ok s => State.deliverElems s uid h exts es rest

/-- The checks of hD that concern the peer: its scale register's format (R333), but of an EPI.SEND (R233), and its level. -/
def State.peerOk (s : State) (uid : Nat) (h : Handle) (epi : Bool) : Bool :=
  let n := s.node uid
  (epi || handleStep2 n h) && (match s.handleStep4 n h with
    | .pass => true
    | _ => false)

/-- A send applied at the receiving node (R335). -/
def State.applySend (s : State) (uid : Nat) (d : Delivery) : SendAnswer × State :=
  if d.empty then (.ack, s)
  else if !s.peerOk uid d.hD d.epi then (.fault 0x20, s.countCause uid 0x20)
  else
    let (s, fault) := s.deliverElems uid d.hD d.extents d.elems d.elems.zipIdx
    if fault.isNone then (.ack, s.addCounter uid d.cnt d.bytes) else (.fault 0x20, s.countCause uid 0x20)

/-- The answer to a delivery goes back to its sender's module. -/
def State.answer (s : State) (d : Delivery) (a : SendAnswer) : State :=
  s.sendOut [(s.link.portTo d.x d.y d.z (d.core.getLsbD 0), .ack d a)]

/-- The stream that a delivery belongs to (R336). -/
def Stream.holds (t : Stream) (d : Delivery) : Bool := t.x == d.x && t.y == d.y && t.z == d.z && t.serial == d.serial && t.route == d.route

/-- Note the SEQ last applied for the stream of a delivery. -/
def Eng.noteStream (e : Eng) (d : Delivery) : Eng :=
  if e.streams.any (fun t => t.holds d) then { e with streams := e.streams.map fun t => if t.holds d then { t with seq := d.seq } else t }
  else { e with streams := e.streams ++ [{ x := d.x, y := d.y, z := d.z, serial := d.serial, route := d.route, seq := d.seq }] }

/-- The delivery that is next in its stream is applied and answered. -/
def State.applyNext (s : State) (uid : Nat) (d : Delivery) : State :=
  let (a, s) := s.applySend uid d
  (s.mapNode uid fun n => { n with eng := n.eng.noteStream d }).answer d a

/-- Two deliveries wait for the same receiver. DEDUCED: log entry 34. -/
def sameReceiver (a b : Delivery) : Bool := a.core == b.core && a.space == b.space

/-- Two deliveries come from one engine of one node (R286). -/
def sameEngine (a b : Delivery) : Bool := a.x == b.x && a.y == b.y && a.z == b.z && a.serial == b.serial && a.epi == b.epi

/-- Two deliveries belong to one stream (R336). -/
def sameStream (a b : Delivery) : Bool := a.x == b.x && a.y == b.y && a.z == b.z && a.serial == b.serial && a.route == b.route

/-- The SEQ of a delivery lies beyond the next of its stream at a node (R336). -/
def Eng.gapBefore (e : Eng) (d : Delivery) : Bool :=
  match e.streams.find? fun t => t.holds d with
  | some t => decide (1 < (d.seq - t.seq).toNat) && decide ((d.seq - t.seq).toNat < 2 ^ 15)
  | none => false

/-- Held deliveries whose gap is filled follow (R336). -/
def State.releaseHeld (s : State) (uid : Nat) : Nat → State
  | 0 => s
  | fuel + 1 =>
    let e := (s.node uid).eng
    match s.link.gaps.find? fun d => s.receiver d == some uid && e.streams.any fun t => t.holds d && d.seq == t.seq + 1 with
    | none => s
    | some d => State.releaseHeld (({ s with link := { s.link with gaps := s.link.gaps.erase d } } : State).applyNext uid d) uid fuel

/-- An earlier delivery of a stream is held for the same receiver. -/
def LinkUnit.heldBefore (l : LinkUnit) (d : Delivery) : Bool := l.gaps.any fun h => sameStream h d && sameReceiver h d && h.seq != d.seq && seqAtOrBefore h.seq d.seq

/-- A delivery is held until its gap is filled (R336); it stays at the link stop when its receiver leaves the core (R335, R344). -/
def State.holdSend (s : State) (d : Delivery) : State :=
  if s.link.gaps.any fun h => sameStream h d && sameReceiver h d && h.seq == d.seq then s else { s with link := { s.link with gaps := s.link.gaps ++ [d] } }

/-- A delivery reaches a resident node (R336). -/
def State.acceptSend (s : State) (uid : Nat) (d : Delivery) : State :=
  let e := (s.node uid).eng
  match e.streams.find? fun t => t.holds d with
  | none =>
    if s.link.heldBefore d then s.holdSend d
    else if 32 ≤ e.streams.length then (s.countCause uid 0x21).answer d (.fault 0x21)
    else (s.applyNext uid d).releaseHeld uid s.link.gaps.length
  | some t =>
    let k := (d.seq - t.seq).toNat
    if k = 0 ∨ 2 ^ 15 ≤ k then s.answer d .ack
    else if k = 1 then (s.applyNext uid d).releaseHeld uid s.link.gaps.length
    else s.holdSend d

/-- A delivery of the same engine, by another route or for another receiver, that is held for its SEQ writes a byte that `d` would write: `d` follows it in the order of
that byte's writes (R288, R336). DEDUCED: log entry 34. -/
def State.gapHolds (s : State) (d : Delivery) : Bool :=
  (s.receiver d).isSome && s.link.gaps.any fun h => sameEngine h d && !(h.route == d.route && sameReceiver h d) && placesMeet (s.lands h) (s.lands d)

/-- A delivery that is held for its SEQ waits for one of its stream with a given SEQ (R336). -/
def State.awaited (s : State) (stream : Delivery → Bool) (seq : BitVec 16) : Bool := s.link.gaps.any fun h => stream h && seqAtOrBefore seq h.seq

/-- A delivery fills a gap that another of its stream is held for. -/
def State.fillsGap (s : State) (d : Delivery) : Bool := s.awaited (fun h => sameEngine h d && h.route == d.route) d.seq

/-- A delivery waits for those of its engine that are held for a gap which it does not itself fill. -/
def State.mustWait (s : State) (d : Delivery) : Bool := s.gapHolds d && !s.fillsGap d

/-- A delivery that waits at the link stop stands before another (R288, R329, R335): one for the same receiver, or from the same engine, unless it waits for a gap
that the other fills. DEDUCED: log entry 34. -/
def State.standsBefore (s : State) (p d : Delivery) : Bool := (sameReceiver p d || sameEngine p d) && !(s.mustWait p && s.fillsGap d)

/-- A delivery reaches this module: it is accepted, or waits at the link stop, behind those that stand before it (R329, R335). DEDUCED: log entry 34. -/
def State.arrive (s : State) (d : Delivery) : State :=
  let wait : State := { s with link := { s.link with pending := s.link.pending ++ [d] } }
  if s.link.pending.any (fun p => s.standsBefore p d) || s.mustWait d then wait
  else
    match s.receiver d with
    | some u => s.acceptSend u d
    | none => wait

/-- The sends of a node that are not complete: those of the link engine, then its EPI.SENDs. -/
def Eng.outSends (e : Eng) : List SendCmd := e.sends ++ e.epi.filterMap fun c => match c with
  | .send c => some c
  | .add _ => none

/-- Put a command back at its place among the sends, or remove it. -/
def Eng.setSend (e : Eng) (i : Nat) (c : Option SendCmd) : Eng :=
  if i < e.sends.length then { e with sends := match c with
    | some c => e.sends.set i c
    | none => e.sends.eraseIdx i }
  else
    let places := e.epi.zipIdx.filterMap fun x => match x.1 with
      | .send _ => some x.2
      | .add _ => none
    let k := places.getD (i - e.sends.length) e.epi.length
    { e with epi := match c with
      | some c => e.epi.set k (.send c)
      | none => e.epi.eraseIdx k }

/-- The next send that a node hands to the fabric: the first of either engine that has not been sent, sends of one engine in their order. An EPI.SEND
waits for the epilogue commands before it (R230). -/
def Eng.mayTransmit (e : Eng) (i : Nat) : Bool :=
  if i < e.sends.length then (e.sends.take i).all (·.sent)
  else
    let before := e.epi.takeWhile fun c => match c with
      | .send c => c.sent
      | .add _ => false
    let sentBefore := (before.filter fun c => match c with
      | .send _ => true
      | .add _ => false).length
    sentBefore == i - e.sends.length

/-- With ACQ, everything that the node issued before a send of its link engine has been performed (R292). -/
def Eng.sourceReady (e : Eng) (c : SendCmd) : Bool :=
  ctlAcq c.ctrl == 0 || ((e.sends.head?).any (fun d => d.ord == c.ord) && (e.colls.all fun d => decide (c.ord ≤ d.ord)) && e.acquired 3 c.ord)

/-- The fabric takes the next send of an engine (R288, R292, R329): no earlier delivery of the engine waits at the link stop of this module, but for a gap that this
send fills; what it still has to read and what it writes at this module, no earlier command of the engine still has to write; with ACQ everything that the node
issued before it has been performed; and with REL every earlier command of the engine has. -/
def State.fabricTakes (s : State) (n : Node) (i : Nat) (c : SendCmd) : Bool :=
  let u := n.desc.uid
  let first := if c.epi then (n.eng.epi.head?).any (fun x => match x with
      | .send d => d == c
      | .add _ => false)
    else i == 0 && n.eng.colls.all fun d => decide (c.ord ≤ d.ord)
  let fills := s.awaited (fun h => h.fromUid == some u && h.epi == c.epi && h.route == c.route) (routeSeq c.er)
  !(s.link.pending.any fun d => d.fromUid == some u && d.epi == c.epi && !(s.mustWait d && fills)) &&
    (c.epi || (n.eng.sourceReady c && !(s.linkWrites n c.ord).any (placesMeet (u, s.windowPlaces n c.hS c.extents false c.unread)) &&
      !((n.eng.colls.filter fun d => d.recv && !d.recvDone && decide (d.ord < c.ord)).map (s.recvLands n)).any (placesMeet (s.sendLands n c)))) &&
    (!routeRel c.er || first)

/-- An element of a send's window is read before the rest (R287): one whose bytes no earlier element that is still to be read shares, and no earlier command of the
engine still has to write or read (R288). A read that faults is left to the transmission. DESIGN CHOICE: log entry 5. -/
def SendCmd.readElem (c : SendCmd) (s : State) (uid i : Nat) : SendCmd × State :=
  let n := s.node uid
  let reach := fun (i : Nat) => s.elemPlaces n c.hS false [addOrg c.hS.orgs (unlin c.extents i)]
  let unread := fun (i : Nat) => !c.got.any fun e => e.1 == i
  let free := match reach i with
    | none => false
    | some mine => s.mayRead n c.ord mine && ((List.range i).filter unread).all fun j => match reach j with
      | some l => disjointPlaces mine l
      | none => false
  if prodN c.extents ≤ i ∨ !unread i ∨ !free then (c, s)
  else
    match s.sourceElem n c.hS (unlin c.extents i) with
    | .error _ => (c, s)
    | .ok e => ({ c with got := c.got ++ [(i, e.map fun x => { x with corrected := none, guard := none })] }, (s.countCorrected uid [e]).touchLink uid (guardOf [e]))

/-- Elements of the send at a place of a node's link queue are read, in any order and before those of earlier sends (R287). -/
def State.moveSend (s : State) (uid place : Nat) (moves : List Nat) : State :=
  let n := s.node uid
  match n.eng.sends[place]? with
  | none => s
  | some c =>
    if !n.live || c.sent || !n.eng.sourceReady c then s
    else
      let (c, s) := moves.foldl (fun (r : SendCmd × State) k => r.1.readElem r.2 uid k) (c, s)
      s.mapNode uid fun n => { n with eng := { n.eng with sends := n.eng.sends.set place c } }

/-- The delivery that a send hands to the fabric, or the fault of its source (R334, R395). -/
def State.transmit (s : State) (n : Node) (c : SendCmd) : Except MFault (Delivery × State) :=
  let mk := fun (es : List Elem) (empty : Bool) =>
    ({ x := s.link.x, y := s.link.y, z := s.link.z, serial := n.run.serial, route := c.route, seq := routeSeq c.er, space := n.desc.queue,
       core := routeCore c.er, cnt := routeCnt c.er, hD := c.hD, extents := c.extents, elems := es,
       bytes := windowBytes c.extents (fmtWidth c.hD.fmt) 1, empty := empty, fromUid := some n.desc.uid, epi := c.epi, ord := c.ord } : Delivery)
  if c.epi then .ok (mk c.payload false, s)
  else
    match s.readWindow n.desc.uid c.hS c.extents c.got with
    | .ok (es, s) => .ok (mk es false, s)
    | .error .access => .ok (mk [] true, s)
    | .error f => .error f

/-- The core that a node's link engine sends from (R330): the one it is resident on, be it resumed there or not. -/
def State.sendingCore (s : State) (uid : Nat) (c : SendCmd) : Nat :=
  match s.coreOf uid with
  | some k => k.idx
  | none => c.coreIdx.toNat

/-- A send in transit to another module (R330): the port that it leaves by. -/
def State.onward (s : State) (d : Delivery) : Option Nat :=
  d.dest.bind fun (x, y, z) => let p := s.link.portTo x y z d.odd
    if p = 12 then none else some p

/-- A delivery that leaves a node of this module: its send is marked, and it goes to the port or straight to the peer. -/
def State.leave (s : State) (uid i : Nat) (c : SendCmd) (d : Delivery) : State :=
  let s := s.mapNode uid fun n => { n with eng := n.eng.setSend i (some { c with sent := true, bad := c.bad || d.empty }) }
  let s := if d.empty then s.linkFlag uid 0x24 else s
  let odd := (s.sendingCore uid c) % 2 == 1
  let port := s.link.portTo (routeX c.er) (routeY c.er) (routeZ c.er) odd
  if port = 12 then s.arrive d else s.sendOut [(port, .send { d with dest := some (routeX c.er, routeY c.er, routeZ c.er), odd := odd })]
/-- SEND (R334): Queues the send of a window to a peer node over a route. -/
def execSend (q : BitVec 2) (g : BitVec 4) (h : BitVec 4) (s : BitVec 4) (w : BitVec 4) (r : BitVec 2) (σ : State) : Result :=
  word (.send q g h s w r) σ fun σ => σ.issueSend false h s w r

/-- SENDT (R337): Arms a send that fires when a counter reaches a threshold. -/
def execSendt (q : BitVec 2) (g : BitVec 4) (h : BitVec 4) (s : BitVec 4) (w : BitVec 4) (r : BitVec 2) (σ : State) : Result :=
  word (.sendt q g h s w r) σ fun σ => σ.issueSend true h s w r

/-- COLL (R340): Registers this rank's part in a listed collective with the link collective unit. -/
def execColl (q : BitVec 2) (g : BitVec 4) (h : BitVec 4) (s : BitVec 4) (w : BitVec 4) (r : BitVec 2) (σ : State) : Result :=
  word (.coll q g h s w r) σ fun σ => σ.issueColl h s w r

/-- ABORT (R342): Withdraws the route's last collective and floods an abort flit through the pod. -/
def execAbort (q : BitVec 2) (g : BitVec 4) (r : BitVec 2) (σ : State) : Result :=
  word (.abort q g r) σ fun σ => σ.issueAbort r

/-- SENDT_FIRE (R337): An armed SENDT whose counter has reached its threshold joins the link queue: at the update itself, or here when the queue had no room
then. DEDUCED: log entry 33. -/
def execSendtFire (uid : Nat) (i : Nat) (σ : State) : Result :=
  let n := σ.node uid
  match n.eng.armed[i]? with
  | none => .fault (.notEnabled "SENDT_FIRE")
  | some c =>
    if !n.live || !c.fired || (n.eng.armed.take i).any (·.fired) || decide (16 ≤ n.eng.sends.length) then .fault (.notEnabled "SENDT_FIRE")
    else .next (σ.setNode { n with eng := n.eng.joinSends 1 })

/-- SEND_DELIVERY (R335): A send arrives at the peer node, which writes it, adds to its counter and acknowledges. One in transit goes on by dimension order (R330),
and one that was held for its SEQ is accepted when its core has a receiver for which no gap stands (R336, R344). -/
def execSendDelivery (d : Delivery) (σ : State) : Result :=
  if σ.link.pending.contains d then
    if (σ.link.pending.takeWhile (· != d)).any (fun p => σ.standsBefore p d) || σ.mustWait d then .fault (.notEnabled "SEND_DELIVERY")
    else match σ.receiver d with
    | some u => .next ({ σ with link := { σ.link with pending := σ.link.pending.erase d } }.acceptSend u d)
    | none => .fault (.notEnabled "SEND_DELIVERY")
  else if σ.link.gaps.contains d then
    match σ.receiver d with
    | some u =>
      if (σ.node u).eng.gapBefore d || σ.link.heldBefore d || σ.mustWait d then .fault (.notEnabled "SEND_DELIVERY")
      else .next ({ σ with link := { σ.link with gaps := σ.link.gaps.erase d } }.acceptSend u d)
    | none => .fault (.notEnabled "SEND_DELIVERY")
  else
    match d.fromUid with
    | none => .next (match σ.onward d with
      | some p => σ.sendOut [(p, .send d)]
      | none => σ.arrive d)
    | some uid =>
      let n := σ.node uid
      match n.eng.outSends.findIdx? (fun c => !c.sent && c.route == d.route && routeSeq c.er == d.seq) with
      | none => .fault (.notEnabled "SEND_DELIVERY")
      | some i =>
        match n.eng.outSends[i]? with
        | none => .fault (.notEnabled "SEND_DELIVERY")
        | some c =>
          if !n.live || !n.eng.mayTransmit i || !σ.fabricTakes n i c then .fault (.notEnabled "SEND_DELIVERY")
          else
            match σ.transmit n c with
            | .error f => .next (σ.memFault uid f)
            | .ok (d', σ) => if d' = d then .next (σ.leave uid i c d) else .fault (.notEnabled "SEND_DELIVERY")

/-- SEND_COMPLETE (R338): A send's acknowledgement returns or its fault is recorded. -/
def execSendComplete (uid : Nat) (i : Nat) (ans : SendAnswer) (σ : State) : Result :=
  let n := σ.node uid
  match n.eng.outSends[i]? with
  | none => .fault (.notEnabled "SEND_COMPLETE")
  | some c =>
    let own := σ.link.portTo (routeX c.er) (routeY c.er) (routeZ c.er) false == 12
    let mine := fun (f : Nat × Flit) => match f.2 with
      | .ack d a => d.fromUid == some uid && d.route == c.route && d.seq == routeSeq c.er && a == ans
      | _ => false
    let unsent := σ.portsHold fun f => match f with
      | .send d => d.fromUid == some uid && d.route == c.route && d.seq == routeSeq c.er
      | _ => false
    if !n.live || !c.sent || unsent || (own && !σ.link.out.any mine) then .fault (.notEnabled "SEND_COMPLETE")
    else
      let σ := if own then { σ with link := { σ.link with out := σ.link.out.filter fun f => !mine f } } else σ
      let σ := σ.mapNode uid fun n => { n with eng := n.eng.setSend i none }
      match ans with
      | .fault _ => .next (σ.mapNode uid fun n => n.setFault (if c.epi then 2 else 3))
      | .ack =>
        if c.epi || c.bad then .next σ
        else
          let σ := if ctlCv c.ctrl then σ.addCounter uid (ctlCnt c.ctrl) (windowBytes c.extents (fmtWidth c.hD.fmt) 1) else σ
          if !ctlUi c.ctrl then .next σ
          else
            let (b, σ) := σ.takeFreeBool
            .next (σ.mapNode uid fun n => n.addRecord (if b then 1 else 0) (ctlCnt c.ctrl))

/-- COLL_HOP (R341): A collective packet arrives at a module and its list entries are applied. -/
def execCollHop (p : CollPacket) (σ : State) : Result :=
  if σ.link.aborted.contains p.tag then .next { σ with link := { σ.link with waiting := σ.link.waiting.erase p } }
  else if σ.link.waiting.contains p then
    let took : State := { σ with link := { σ.link with waiting := σ.link.waiting.erase p } }
    let stuck := match p.ops with
      | e :: _ => (opCode e == 1 && !σ.link.contribs.any fun c => c.tag == p.tag) || (opCode e == 4 && !took.link.roomFor (2 * packetBytes p))
      | [] => false
    if stuck then .fault (.notEnabled "COLL_HOP")
    else .next (took.hop p 8)
  else if !opsLegal 8 p.ops p.width || !σ.link.roomFor (packetBytes p) then .fault (.notEnabled "COLL_HOP")
  else .next (σ.hop { p with origin := false } 8)

/-- COLL_DELIVER_APPLY (R341): A held DELIVER payload is written into the receiver once the commit flit has passed and the RECV is registered; behind what earlier
commands of the receiver's link engine still have to write or read of its bytes (R288). -/
def execCollDeliverApply (i : Nat) (σ : State) : Result :=
  match σ.link.held[i]? with
  | none => .fault (.notEnabled "COLL_DELIVER_APPLY")
  | some h =>
    let p := h.pkt
    let open_ := σ.link.registered.find? fun e => e.1 == p.tag && (σ.node e.2).live && (σ.node e.2).eng.colls.any fun c => c.tag == p.tag && c.recv && !c.recvDone
    match open_ with
    | none => .fault (.notEnabled "COLL_DELIVER_APPLY")
    | some (_, uid) =>
      match (σ.node uid).eng.colls.find? fun c => c.tag == p.tag with
      | none => .fault (.notEnabled "COLL_DELIVER_APPLY")
      | some c =>
        if (σ.linkWrites (σ.node uid) c.ord ++ σ.linkReads (σ.node uid) c.ord).any (placesMeet (σ.recvLands (σ.node uid) c)) then .fault (.notEnabled "COLL_DELIVER_APPLY")
        else
        let σ := { σ with link := { σ.link with held := σ.link.held.eraseIdx i } }
        if p.width ≠ fmtWidth c.hD.fmt then .next ((σ.linkFlag uid 0x23).mapColl uid p.tag fun c => { c with recvDone := true, ui := false })
        else if !σ.peerOk uid c.hD false then .next ((σ.linkFlag uid 0x20).mapColl uid p.tag fun c => { c with recvDone := true, ui := false })
        else
          let (σ, fault) := σ.deliverElems uid c.hD c.exts p.elems p.elems.zipIdx
          let poi := (p.elems.zipIdx.take (fault.getD (prodN c.exts))).any fun e => e.1.poison && inside c.hD.exts (addOrg c.hD.orgs (unlin c.exts e.2))
          let σ := σ.mapNode uid fun n => { n with regs := n.regs.flagK c.hD.kidx 22 poi }
          if fault.isSome then .next ((σ.linkFlag uid 0x20).mapColl uid p.tag fun c => { c with recvDone := true, ui := false })
          else
            let σ := σ.mapNode uid fun n => { n with regs := n.regs.flagK c.hD.kidx 21 p.clamp }
            let σ := σ.addCounter uid c.cnt (windowBytes c.exts p.width 1)
            .next (σ.mapColl uid p.tag fun c => { c with recvDone := true })

/-- ABORT_FLIT (R342): An abort control flit arrives at a module, which records the tag and discards its work. -/
def execAbortFlit (tag : CollTag) (port : BitVec 4) (σ : State) : Result :=
  if σ.link.aborted.contains tag then .next σ
  else .next ((σ.applyAbort tag).sendOut (((List.range 12).filter fun p => p != port.toNat).map fun p => (p, Flit.abort tag)))

end Sys2Proof.Machine
end

