-- ==== Sys2Proof/Machine/Place.lean ====
section
/-! DEFINITION. The distributor: the ready pool, suitable cores, placement, pre-emption requests and the communication reserve (R91 to R102, R361). -/

namespace Sys2Proof.Machine

/-! ## The ready pool (R91) -/

/-- The placement key, field by field. -/
def State.key (s : State) (n : Node) : List Nat :=
  let x := s.queue n.desc.queue
  [7 - x.prio.toNat, if s.holds n.desc.queue then 0 else 1, 7 - n.desc.prio.toNat, n.desc.readyOrder, n.desc.queue.toNat, n.desc.launchOrder, n.desc.index]

/-- One key stands before another. -/
def keyBefore : List Nat → List Nat → Bool
  | a :: l, b :: m => decide (a < b) || (a == b && keyBefore l m)
  | _, _ => false

/-- The element with the least key. -/
def leastBy {α : Type} (key : α → List Nat) : List α → Option α
  | [] => none
  | a :: rest =>
    match leastBy key rest with
    | none => some a
    | some b => if keyBefore (key b) (key a) then some b else some a

/-- A node that the ready pool or its overflow list keeps: READY, or SAVED; of a saved pair the producer, which stands for both (R91, R129). -/
def Node.pooled (n : Node) : Bool := n.run.st == .ready || (n.run.st == .saved && (n.run.partner == 0 || n.run.spliceRec.isSome))

/-- Insert by key. -/
def insertBy {α : Type} (key : α → List Nat) (a : α) : List α → List α
  | [] => [a]
  | b :: rest => if keyBefore (key a) (key b) then a :: b :: rest else b :: insertBy key a rest

/-- The nodes of the overflow list move into the ready pool in the order of the key, as far as it has room (R91): so it stands after every step. DEDUCED: log entry 45. -/
def State.settlePool (s : State) : State :=
  let kept := s.dist.pool.filter fun u => (s.node u).pooled
  let more := s.allNodes.filter fun n => n.pooled && !kept.contains n.desc.uid
  let room := 16384 - kept.length
  let taken := if more.length ≤ room then more else ((more.foldl (fun l n => insertBy s.key n l) []).take room)
  { s with dist := { s.dist with pool := kept ++ taken.map (·.desc.uid) } }

/-- After a failure only the nodes of the graph that had begun run on (R72, R78). DEDUCED: log entry 45. -/
def State.mayRun (s : State) (n : Node) : Bool :=
  match s.awl.graphs.find? fun e => e.id == n.desc.graph with
  | some e => e.failed.isNone || e.live.contains n.desc.uid
  | none => true

/-- A node that the distributor may offer: READY without a mark, or SAVED; of a saved pair only the producer, which stands for both (R129, R259). DEDUCED: log entry 45. -/
def State.offered (s : State) (n : Node) : Bool :=
  (n.run.st == .ready && n.run.mark.isNone && s.mayRun n) ||
    (n.run.st == .saved && (n.run.partner == 0 || n.run.spliceRec.isSome))

/-- The nodes that are placed with a node: of a saved pair both. -/
def State.together (s : State) (n : Node) : List Node := if n.run.st == .saved && n.run.partner != 0 then [n, s.node n.run.partner] else [n]

/-! ## Suitable cores (R92, R93) -/

/-- Units of a pool request. -/
def poolUnits (part : BitVec 32) : Nat := fieldN part 0 6 + fieldN part 8 4 + fieldN part 16 6

/-- The end of the scratchpad layout (R60); 0 without allocations. -/
def scratchEnd (l : List (Nat × Nat × Nat)) : Nat := maxNat (l.map fun e => e.2.1 + e.2.2)

/-- Instruction memory that an image needs, in bytes (R92). -/
def imemNeed (im : Image) : Nat := if im.ovl then 131072 else ceilDiv im.codeLen 4096 * 4096

/-- Instruction memory that the images of nodes need, each counted once per IMGID. -/
def imemTotal (l : List Node) : Nat :=
  match l with
  | [] => 0
  | n :: rest => (if rest.any fun m => m.desc.image.imgid == n.desc.image.imgid then 0 else imemNeed n.desc.image) + imemTotal rest

/-- The gang width that FLAGS.GANG asks for fits a core (R57, R92). -/
def gangFits (want have_ : BitVec 2) : Bool := want == 0 || want.toNat == have_.toNat + 1

/-- Staging frames that are reserved (R68). -/
def State.stagedFrames (s : State) : Nat := ((s.allNodes.filter Node.reserves).map fun n => n.desc.image.budget).sum

/-- A core is suitable for nodes placed together but for room: the run queue, the pool and instruction memory. A core that joins the reserve takes
no node, and one that leaves it takes no communication node (R92, R100). -/
def State.fits (s : State) (ns : List Node) (c : Core) : Bool :=
  c.active && !s.jobOn [c.idx] && (!c.join || c.leaving) &&
    ns.all fun n =>
      gangFits n.desc.image.gang c.gang && n.desc.image.comm == (c.rsv && !c.leaving) && (n.desc.anyStage || n.desc.stage == c.stage || c.residents.isEmpty) &&
        (n.run.st != .saved || n.run.gangWidth == slabsOfGang c.gang) &&
        decide (scratchEnd n.desc.image.scr ≤ fieldN n.desc.image.part 16 6 * 65536 * slabsOfGang c.gang)

/-- Units of a core's pools that nodes other than those that stay do not hold (R246). -/
def Core.freeUnits (c : Core) (stay : List Node) : Nat := (c.units.toList.filter fun u => u == 0 || !stay.any fun n => n.desc.uid == u).length

/-- Room on a core for nodes placed together, beside the residents that stay. -/
def State.hasRoom (s : State) (c : Core) (ns : List Node) (stay : List Node) : Bool :=
  decide (stay.length + ns.length ≤ 4) && decide ((ns.map fun n => poolUnits n.desc.image.part).sum ≤ c.freeUnits stay) && decide (imemTotal (stay ++ ns) ≤ 262144) &&
    decide (s.stagedFrames + ((ns.filter fun n => !n.desc.image.unstg && n.run.st != .saved).map fun n => n.desc.image.budget).sum ≤ s.stgsz)

/-- The resident nodes of a core. -/
def State.residentNodes (s : State) (c : Core) : List Node := c.residents.map s.node

/-- A core is suitable (R92). DEDUCED: log entry 46. DEDUCED: log entry 49. -/
def State.suitable (s : State) (ns : List Node) (c : Core) : Bool := s.fits ns c && s.hasRoom c ns (s.residentNodes c)

/-- The order of R94 among suitable cores. -/
def coreKey (n : Node) (c : Core) : List Nat := [if c.imem.any fun r => r.imgid == n.desc.image.imgid then 0 else 1, c.residents.length, c.idx]

/-- The core for a node, if one is suitable. -/
def State.coreFor (s : State) (n : Node) : Option Core := leastBy (coreKey n) (s.cores.filter (s.suitable (s.together n)))

/-! ## Placement (R66, R92 to R97, R361) -/

/-- Evict images without a resident node, the one launched least recently first, until the images that stay need at most 256 KiB (R361). -/
def evict (used : List Word) (l : List Resident) : Nat → List Resident
  | 0 => l
  | fuel + 1 =>
    if (l.map (·.size)).sum ≤ 262144 then l
    else
      match leastBy (fun r => [r.launched]) (l.filter fun r => !used.contains r.imgid) with
      | none => l
      | some r => evict used (l.filter fun x => x.imgid != r.imgid) fuel

/-- Make room in instruction memory for an image that is about to be placed, beside the images of the resident nodes, be they loaded yet or not. -/
def State.makeRoom (s : State) (c : Core) (im : Image) : Core :=
  let images := im :: (s.residentNodes c).map (·.desc.image)
  let probe := fun (i : Image) => ({ imgid := i.imgid, space := 0, ovl := i.ovl, size := imemNeed i, launched := 0, segs := [], half0 := none, half1 := none, copying := none } : Resident)
  let unloaded := images.foldl (fun (l : List Resident) i => if (l ++ c.imem).any fun r => r.imgid == i.imgid then l else l ++ [probe i]) []
  let stay := evict (images.map (·.imgid)) (unloaded ++ c.imem) (c.imem.length + 1)
  { c with imem := c.imem.filter fun r => stay.any fun x => x.imgid == r.imgid }

/-- A node receives the lowest free units of the unit map (R246). DESIGN CHOICE: log entry 78. -/
def allotUnits (l : List Nat) (uid k : Nat) : List Nat :=
  match l with
  | [] => []
  | u :: rest => if u = 0 ∧ 0 < k then uid :: allotUnits rest uid (k - 1) else u :: allotUnits rest uid k

/-- The unit map of a core with a node's units. -/
def Core.allot (c : Core) (uid k : Nat) : Core :=
  let l := allotUnits c.units.toList uid k
  { c with units := Vector.ofFn fun i => l.getD i.val 0 }

/-- A free slot of a run queue, from slot `from_` on, wrapping round. DEDUCED: log entry 26. -/
def freeSlot (c : Core) (from_ : Nat) : Option Nat := ((List.range 4).map fun i => (from_ + i) % 4).find? fun i => c.slots[i]?.getD 1 == 0

/-- A node enters a slot of a core's run queue (R66, R93, R97). Its node serial is given at its first placement (R336). -/
def State.enter (s : State) (idx : Nat) (slot : Nat) (uid : Nat) : State :=
  let n := s.node uid
  let c := s.makeRoom (s.core idx) n.desc.image
  let stage := if n.desc.anyStage then c.stage else n.desc.stage
  let first := n.run.serial == 0
  let s := { s with dist := { s.dist with stgFrames := s.stgsz } }
  let s := s.setCore (Core.allot { c with slots := c.slots.setIfInBounds slot uid, stage := stage } uid (poolUnits n.desc.image.part))
  let serial := if first then BitVec.ofNat 32 s.awl.nextSerial else n.run.serial
  let s := if first then { s with awl := { s.awl with nextSerial := s.awl.nextSerial + 1 } } else s
  s.setNode { n with run := { n.run with st := .placed, gangWidth := slabsOfGang c.gang, serial := serial, preempt := false } }

/-- A node, or a saved pair, is placed on a core. -/
def State.placeOn (s : State) (n : Node) (idx : Nat) : State :=
  (s.together n).foldl (fun s m => match freeSlot (s.core idx) 0 with
    | some i => s.enter idx i m.desc.uid
    | none => s) s

/-- The producer behind which a consumer may be placed for a splice (R96): its one outstanding predecessor, placed and not yet started. A consumer that a fault holds
is not placed (R259). -/
def State.spliceProducer (s : State) (c : Node) : Option Node :=
  if !(c.run.st == .waiting && c.run.remaining == 1 && c.run.mark.isNone && c.desc.image.splc && s.mayRun c) then none
  else
    (s.allNodes.find? fun p => p.desc.succs.contains c.desc.uid && p.run.st != .committed).bind fun p =>
      let outs := ((p.desc.handles.zip p.desc.image.opnds).filter fun e => e.2.fwd && (e.2.mode == 2 || e.2.mode == 3)).map fun e => e.1.tid
      let shares := (c.desc.handles.zip c.desc.image.opnds).any fun e => e.2.fwd && e.2.mode == 1 && outs.contains e.1.tid
      if p.desc.image.splp && p.run.st == .placed && p.run.saveArea.isNone && p.run.partner == 0 && shares then some p else none

/-- A consumer that can be placed behind its producer now, with that producer and its core. Of several consumers of one producer the one launched first is taken, and
the others find the producer in a pair. DESIGN CHOICE: log entry 90. -/
def State.spliceReady (s : State) : Option (Node × Node × Core) :=
  s.allNodes.findSome? fun c => (s.spliceProducer c).bind fun p => (s.coreOf p.desc.uid).bind fun k =>
    if (k.pairOf p.desc.uid).st == .none && s.suitable [c] k then some (c, p, k) else none

/-- The slot directly behind a resident node. DEDUCED: log entry 26. -/
def slotOfNode (c : Core) (uid : Nat) : Nat := c.slots.toList.findIdx (· == uid)

/-- A consumer enters the run queue behind its producer, and the pair is marked (R96). DEDUCED: log entry 26. -/
def State.placeConsumer (s : State) (c p : Node) (k : Core) : State :=
  match freeSlot k (slotOfNode k p.desc.uid + 1) with
  | none => s
  | some i =>
    let s := (s.enter k.idx i c.desc.uid).mapNode c.desc.uid fun n => { n with run := { n.run with behind := true } }
    let k := s.core k.idx
    s.setCore (k.putPair { st := .marked, p := p.desc.uid, c := c.desc.uid })

/-- The node that the distributor places next, with its core: the first of the ready pool in the order of the key that has a suitable core (R91). -/
def State.nextPlacement (s : State) : Option (Node × Core) :=
  let pool := s.settlePool.dist.pool
  leastBy (fun e => s.key e.1) ((s.allNodes.filter fun n => s.offered n && pool.contains n.desc.uid).filterMap fun n => (s.coreFor n).map fun c => (n, c))

/-! ## Pre-emption for a waiting node (R99) -/

/-- The state in which a node that may be asked has left its core: one that has not started holds no staging reservation any more (R66, R68). -/
def State.ifGone (s : State) (v : Node) : State :=
  if v.run.st = .placed ∧ v.run.saveArea.isNone then s.mapNode v.desc.uid fun n => { n with run := { n.run with st := .ready } } else s

/-- A resident node that may be asked to make room for a waiting one: of a lower queue PRIO, on a core suitable but for room, where the waiting node
could then be placed; the latest is taken among these alone (DESIGN CHOICE: log entry 93). A RETIRING node is not asked. -/
def State.victims (s : State) (n : Node) : List Node :=
  let pr := (s.queue n.desc.queue).prio.toNat
  (s.cores.filter (s.fits (s.together n))).flatMap fun c =>
    (s.residentNodes c).filter fun v =>
      decide ((s.queue v.desc.queue).prio.toNat < pr) && (v.run.st == .running || v.run.st == .placed) &&
        (s.ifGone v).hasRoom c (s.together n) ((s.residentNodes c).filter fun m => m.desc.uid != v.desc.uid && (v.run.partner == 0 || m.desc.uid != v.run.partner))

/-- The element with the greatest key. -/
def latestBy {α : Type} (key : α → List Nat) : List α → Option α
  | [] => none
  | a :: rest =>
    match latestBy key rest with
    | none => some a
    | some b => if keyBefore (key b) (key a) then some a else some b

/-- A node is asked to leave its core (R99): one that has not started goes back at once. The consumer of a marked pair whose producer alone goes back stays
PLACED behind it, with its count. Of a pair a member that is RETIRING drops the request (R360). DESIGN CHOICE: log entry 74. -/
def State.askOut (s : State) (v : Node) : State :=
  if v.run.st = .placed then s.unplace v.desc.uid
  else
    let s := s.mapNode v.desc.uid fun n => { n with run := { n.run with preempt := true } }
    if v.run.partner = 0 then s else s.mapNode v.run.partner fun n => { n with run := { n.run with preempt := n.run.st == .running } }

/-! ## The communication reserve (R100 to R102) -/

/-- The flits that wait in the module's send queues for commands that cores of a stack issued (R101): the sends of resident nodes that have not left, the
collectives that have not been transmitted, and what ports hold. DEDUCED: log entry 47. -/
def State.waitingFlits (s : State) (st : Nat) : Nat :=
  let sends := (s.cores.flatMap s.residentNodes).flatMap fun n => n.eng.outSends.filter fun m => !m.sent && coreStack m.coreIdx.toNat == st
  let colls := s.link.waiting.filter fun p => (s.flitCore (.coll p)).map coreStack == some st
  let held := s.svc.ports.toList.flatMap fun p => p.held.filter fun f => f.stack == some st
  (sends.map fun m => windowFlits (prodN m.extents) (fmtWidth m.hD.fmt) (fmtBlock m.hD.fmt)).sum + (colls.map collFlits).sum + (held.map (·.flit.size)).sum

/-- A decision of R101. DEDUCED: log entry 47. -/
def Reserve.decide (r : Reserve) : Reserve :=
  let f := r.samples.sum
  let up := if 40960 * r.n < f then r.up + 1 else 0
  let dn := if f < 10240 * r.n then r.dn + 1 else 0
  let cool := r.cool - 1
  let r := { r with up := up, dn := dn, cool := cool }
  if r.n < r.nmin then { r with n := min r.nmin (r.n + 2) }
  else if r.nmax < r.n then { r with n := max r.nmax (r.n - 2) }
  else if 2 ≤ up ∧ r.n < r.nmax ∧ ¬(0 < cool ∧ r.last = 2) then { r with n := min r.nmax (r.n + 2), up := 0, dn := 0, cool := 5, last := 1 }
  else if 4 ≤ dn ∧ r.nmin < r.n ∧ ¬(0 < cool ∧ r.last = 1) then { r with n := max r.nmin (r.n - 2), up := 0, dn := 0, cool := 3, last := 2 }
  else r

/-- A core counts towards N: a member that does not leave, or one that joins (R100). -/
def Core.counts (c : Core) : Bool := (c.rsv && !c.leaving) || (c.join && !c.leaving)

/-- Membership follows N in a stack (R100): the highest-index cores join, the lowest-index members leave. N never exceeds the eligible cores. A core that a
BIND or REPAIR drains does not join, and one that still joins is no member yet and stops joining at once. DESIGN CHOICE: log entry 81. -/
def State.followReserve (s : State) (st : Nat) : State :=
  let n := (s.dist.reserve[st]?.getD {}).n
  let cs := s.stackCores st
  let members := cs.filter Core.counts
  let others := cs.filter fun c => !c.counts && !c.leaving && !s.jobOn [c.idx]
  if members.length < n then
    (others.reverse.take (n - members.length)).foldl (fun s c => s.setCore { c with join := true, leaving := false }) s
  else (members.take (members.length - n)).foldl (fun s c => s.setCore (if c.rsv then { c with join := true, leaving := true } else { c with join := false })) s

/-- N is at most the number of eligible cores. -/
def State.capReserve (s : State) (st : Nat) : State :=
  let r := s.dist.reserve[st]?.getD {}
  { s with dist := { s.dist with reserve := s.dist.reserve.setIfInBounds st { r with n := min r.n (s.stackCores st).length } } }

/-- A stack's reserve keeps to N, and N to the eligible cores, when a decision or a binding has changed either (R100): a core that is retired is replaced at
once. DESIGN CHOICE: log entry 81. -/
def State.keepReserve (s : State) (st : Nat) : State := (s.capReserve st).followReserve st

/-- DISTRIBUTOR_PLACE (R94): The distributor places a READY or SAVED node on a suitable core's run queue. -/
def execDistributorPlace (σ : State) : Result :=
  if σ.dist.deferred then .fault (.notEnabled "DISTRIBUTOR_PLACE")
  else
    match σ.spliceReady with
    | some (c, p, k) => .next (σ.placeConsumer c p k)
    | none =>
      match σ.nextPlacement with
      | some (n, c) => .next (σ.settlePool.placeOn n c.idx)
      | none => .fault (.notEnabled "DISTRIBUTOR_PLACE")

/-- PREEMPT_WAIT_EXPIRY (R99): A READY node has waited 100 µs, and the distributor requests pre-emption of a lower-PRIO node. DESIGN CHOICE: log entry 64. -/
def execPreemptWaitExpiry (uid : Nat) (σ : State) : Result :=
  let n := σ.node uid
  if uid = 0 ∨ !σ.offered n ∨ !σ.settlePool.dist.pool.contains uid ∨ (σ.coreFor n).isSome then .fault (.notEnabled "PREEMPT_WAIT_EXPIRY")
  else
    match latestBy σ.key (σ.victims n) with
    | some v => .next (σ.askOut v)
    | none => .next σ

/-- RESERVE_SAMPLE (R101): Once per µs the distributor samples the queued link flits of each stack. DEDUCED: log entry 47. -/
def execReserveSample (σ : State) : Result :=
  let r := (List.range 4).foldl (fun (r : Vector Reserve 4) i =>
    let x := r[i]?.getD {}
    r.setIfInBounds i { x with samples := (x.samples ++ [σ.waitingFlits i]).reverse.take 10 |>.reverse }) σ.dist.reserve
  .next { σ with dist := { σ.dist with reserve := r } }

/-- RESERVE_DECISION (R101): Every 10 µs the reserve size N of each stack is grown or shrunk. DEDUCED: log entry 47. -/
def execReserveDecision (σ : State) : Result :=
  let r := (List.range 4).foldl (fun (r : Vector Reserve 4) i => r.setIfInBounds i (r[i]?.getD {}).decide) σ.dist.reserve
  let σ := { σ with dist := { σ.dist with reserve := r } }
  .next ((List.range 4).foldl State.keepReserve σ)

/-- RESERVE_CHANGE_DONE (R100): A joining or leaving core's last node of the other kind leaves, and its membership changes. -/
def execReserveChangeDone (core : BitVec 10) (σ : State) : Result :=
  let c := σ.core core.toNat
  let left := fun (comm : Bool) => (σ.residentNodes c).all fun n => n.desc.image.comm != comm
  if !c.join then .fault (.notEnabled "RESERVE_CHANGE_DONE")
  else if c.leaving then
    if left true then .next (σ.setCore { c with rsv := false, join := false, leaving := false }) else .fault (.notEnabled "RESERVE_CHANGE_DONE")
  else if left false then .next (σ.setCore { c with rsv := true, join := false }) else .fault (.notEnabled "RESERVE_CHANGE_DONE")

end Sys2Proof.Machine
end

