-- ==== Sys2Proof/Machine/Splice.lean ====
section
/-! DEFINITION. The stitcher: the checks of a marked pair at launch, the checks of an entry, and the schedule of a spliced pair (R110 to R129). -/

namespace Sys2Proof.Machine

/-! ## Bodies (R62, R114, R115) -/

/-- A word of a body: its instruction address, its bits, and its instruction where it decodes. -/
structure BodyWord where
  addr : Nat
  raw : IWord
  i : Option Instr
deriving DecidableEq, Repr

/-- The words of a body with E words joined to the words they extend. DEDUCED: log entry 29. -/
def bodyFrom (addr : Nat) (l : List IWord) : Nat → List BodyWord
  | 0 => []
  | fuel + 1 =>
    match l with
    | [] => []
    | w :: _ =>
      match decodeHead l with
      | .error _ => { addr := addr, raw := w, i := none } :: bodyFrom (addr + 4) (l.drop 1) fuel
      | .ok (i, k, _) => { addr := addr, raw := w, i := some i } :: bodyFrom (addr + 4 * k) (l.drop k) fuel

/-- The words of a segment: from instruction memory where it stands there, otherwise from memory; none where it cannot be read. -/
def State.segWords (s : State) (n : Node) (seg : Nat) : Option (List IWord) :=
  match (s.resident n.desc.image.imgid).bind (·.seg seg) with
  | some x => some x.words
  | none =>
    match s.readSegment n seg with
    | .ok x => some x.words
    | .error _ => none

/-- The body of a node's image; none where it lies outside its code, crosses a segment, does not start a packet or cannot be read. DEDUCED: log entry 29. -/
def State.bodyOf (s : State) (n : Node) : Option (List BodyWord) :=
  let im := n.desc.image
  match im.splice with
  | none => none
  | some d =>
    let b := d.body.toNat
    let seg := segOf im.ovl b
    let off := offsetOf im.ovl b
    if d.bpkt = 0 ∨ 1024 < d.bpkt ∨ 5 < d.level ∨ 2 ^ 22 ≤ b ∨ off % 12 ≠ 0 ∨ im.segLen seg < off + 12 * d.bpkt then none
    else
      match s.segWords n seg with
      | none => none
      | some ws =>
        let l := (ws.drop (off / 4)).take (3 * d.bpkt)
        some (bodyFrom b l (l.length + 1))

/-- A body word names a register whose bit is clear in its image's masks (R62, R114). DEDUCED: log entry 24. -/
def bodyUnmasked (d : SpliceDesc) (w : BodyWord) : Bool :=
  match w.i with
  | some i => i.sig.names.any fun r => !maskCovers d r
  | none => false

/-- A word that a body may hold (R115), by its class and opcode; one that is an illegal point of an allowed class is none, so that the pair is refused with
SPL_WORDS (DESIGN CHOICE: log entry 96). -/
def bodyAllows (level : Nat) (w : BodyWord) : Bool :=
  let x := w.raw.toNat
  let cls := bitsOf x 28 25
  let op := bitsOf x 20 17
  let ok :=
    if cls = 4 then op == 6 || op == 7
    else if cls = 2 then op == 7 || (op == 5 && bitsOf x 16 16 == 0 && bitsOf x 15 13 == level) || (op == 6 && bitsOf x 15 13 == level)
    else if cls = 10 then decide (6 ≤ op)
    else cls == 0 || cls == 1 || (decide (5 ≤ cls) && decide (cls ≤ 9)) || cls == 13 || cls == 15
  match w.i with
  | some i => ok && i.wf
  | none => false

/-- The handle of a TST or a TLD of a body, with its tile, Q and guard. -/
def bodyTst (w : BodyWord) : Option (BitVec 4 × BitVec 6 × BitVec 2 × BitVec 4) :=
  match w.i with
  | some (.tst q g h t _) => some (h, t, q, g)
  | _ => none
def bodyTld (w : BodyWord) : Option (BitVec 4 × BitVec 6 × BitVec 2 × BitVec 4) :=
  match w.i with
  | some (.tld q g h t) => some (h, t, q, g)
  | _ => none

/-! ## Candidates, names and buffers (R116 to R118) -/

/-- The TID of operand i where it is declared as asked; none otherwise. -/
def operandTid (n : Node) (i : Nat) (f : Operand → Bool) : Option Nat :=
  match n.desc.handles[i]?, n.desc.image.opnds[i]? with
  | some h, some o => if f o then some h.tid else none
  | _, _ => none

def fwdOut (o : Operand) : Bool := o.fwd && (o.mode == 2 || o.mode == 3)
def fwdIn (o : Operand) : Bool := o.fwd && o.mode == 1

/-- The candidate pairs (R116). -/
def candidates (p c : Node) (bp bc : List BodyWord) : List Candidate :=
  bp.flatMap fun x => match bodyTst x with
    | none => []
    | some (hp, tp, qp, gp) =>
      match operandTid p hp.toNat fwdOut with
      | none => []
      | some tid =>
        bc.filterMap fun y => match bodyTld y with
          | none => none
          | some (hc, tc, qc, gc) =>
            if operandTid c hc.toNat fwdIn = some tid ∧ gp = 0 ∧ gc = 0 ∧ qp = qc then
              some { hp := hp, tp := tp, pAddr := BitVec.ofNat 22 x.addr, hc := hc, tc := tc, cAddr := BitVec.ofNat 22 y.addr }
            else none

/-- The TID that a handle holds at launch (R65). -/
def launchTid (n : Node) (h : BitVec 4) : Nat := ((n.desc.handles[h.toNat]?).map Handle.tid).getD 0

/-- SPL_CAND (R114): a forwardable TLD that is no candidate, or two TSTs of one TID. -/
def candBad (p c : Node) (bp bc : List BodyWord) (cands : List Candidate) : Bool :=
  let outs := (List.range 8).filterMap fun i => operandTid p i fwdOut
  let miss := bc.any fun y => match bodyTld y with
    | none => false
    | some (hc, _, _, _) =>
      (match operandTid c hc.toNat fwdIn with
        | some tid => outs.contains tid
        | none => false) && !(cands.any fun k => k.cAddr == BitVec.ofNat 22 y.addr)
  let tids := (bp.filterMap fun x => (bodyTst x).map fun e => launchTid p e.1).filter (· != 0)
  miss || !noRepeat tids

/-- Renumbering (R117): the new names of C's tiles below 32, in ascending order; none when no free name is left. -/
def renumber (pmask cmask : BitVec 64) (n : Nat) (taken : List (Nat × Nat)) : Nat → Option (List (Nat × Nat))
  | 0 => some taken
  | fuel + 1 =>
    if !cmask.getLsbD n then renumber pmask cmask (n + 1) taken fuel
    else
      match (List.range 32).find? fun m => m % 2 == n % 2 && !pmask.getLsbD m && !(taken.any fun e => e.2 == m) with
      | none => none
      | some m => renumber pmask cmask (n + 1) (taken ++ [(n, m)]) fuel

/-- Free slots of a tile slice (R118). -/
def freeSlots (n : Node) (mask : BitVec 64) : List Nat := (List.range 64).filter fun i => tileExists n.desc.image.part i && !mask.getLsbD i

/-- Forwarding buffers (R118): two per candidate TST; none when too few slots are free. -/
def buffersOf (p c : Node) (pmask cmask : BitVec 64) (cands : List Candidate) : Option (List FwdBuffer) :=
  let tsts := cands.foldl (fun (l : List (BitVec 22 × BitVec 4)) k => if l.any fun e => e.1 == k.pAddr then l else l ++ [(k.pAddr, k.hp)]) []
  let slots := ((freeSlots c cmask).map fun i => (i, true)) ++ (freeSlots p pmask).map fun i => (i, false)
  let want := tsts.flatMap fun e => [(e, false), (e, true)]
  if slots.length < want.length then none
  else some ((want.zip slots).map fun e =>
    { pAddr := e.1.1.1, odd := e.1.2, slot := e.2.1, inC := e.2.2, iter := none, taken := false, tile := {}, shape := 0, h := 0 })

/-! ## The checks at launch (R114) -/

/-- The first failing check of R114, or the splice that starts. DEDUCED: log entry 28. -/
def State.stitch (s : State) (p c : Node) : Except (BitVec 8) Splice :=
  match p.desc.image.splice, c.desc.image.splice, s.bodyOf p, s.bodyOf c with
  | some dp, some dc, some bp, some bc =>
    if bp.any (bodyUnmasked dp) || bc.any (bodyUnmasked dc) then .error 0x01
    else if p.desc.image.unstg || c.desc.image.unstg then .error 0x02
    else if bp.any (fun w => !bodyAllows dp.level w) || bc.any (fun w => !bodyAllows dc.level w) then .error 0x03
    else
      let cands := candidates p c bp bc
      if cands.isEmpty then .error 0x04
      else if candBad p c bp bc cands then .error 0x05
      else if 16 < cands.length then .error 0x0A
      else if dp.amask ≠ 0 ∧ dc.amask ≠ 0 then .error 0x06
      else if dp.tmask.extractLsb' 32 32 ≠ 0 ∧ dc.tmask.extractLsb' 32 32 ≠ 0 then .error 0x07
      else
        match renumber dp.tmask dc.tmask 0 [] 32 with
        | none => .error 0x08
        | some names =>
          match buffersOf p c dp.tmask dc.tmask cands with
          | none => .error 0x09
          | some bufs => .ok { st := .pOut, p := p.desc.uid, c := c.desc.uid, cands := cands, names := names, bufs := bufs }
  | _, _, _, _ => .error 0x01

/-- Count a refusal or a failed entry by its code (R124). -/
def spliceCodeName (code : BitVec 8) : String := "splice code " ++ toString code.toNat

/-! ## The checks of an entry (R120) -/

/-- The stride that a level's latched entries give a handle in a dimension, modulo 2^18; 0 for a level that is not active. -/
def strideAt (n : Node) (level : Nat) (h : BitVec 4) (d : Nat) : Nat :=
  let l := n.ctl.loops[level]?.getD {}
  if l.act then lowBits 18 (sumInt ((l.entries.filter fun e => e.1 == h && e.2.1 == d).map fun e => e.2.2)) else 0

/-- The strides of two handles agree at every level, levels of one number being compared (DESIGN CHOICE: log entry 97). -/
def stridesAgree (p c : Node) (hp hc : BitVec 4) : Bool :=
  (List.range 6).all fun m => (List.range 5).all fun d => strideAt p m hp d == strideAt c m hc d

/-- A body level as it stands. -/
def Node.bodyLoop (n : Node) : Loop :=
  match n.desc.image.splice with
  | some d => n.ctl.loops[d.level]?.getD {}
  | Option.none => {}

/-- The handles that a body word names, and whether it writes the tensor. -/
def bodyHandles (w : BodyWord) : List (BitVec 4) :=
  match w.i with
  | some i => i.sig.names.filterMap fun r => match r with
    | .h n => some (BitVec.ofNat 4 n)
    | _ => none
  | none => []
def bodyWrites (w : BodyWord) : Bool :=
  match w.i with
  | some (.tst ..) => true
  | some (.epiAdd ..) => true
  | _ => false

/-- The TIDs that a body writes, and those that its words other than candidates name. -/
def writtenTids (n : Node) (l : List BodyWord) : List Nat :=
  ((l.filter bodyWrites).flatMap fun w => (bodyHandles w).map fun h => (n.regs.h[h.toNat]).tid).filter (· != 0)
def namedTids (n : Node) (l : List BodyWord) (cand : Nat → Bool) : List Nat :=
  (l.filter fun w => !cand w.addr).flatMap fun w => (bodyHandles w).map fun h => (n.regs.h[h.toNat]).tid

/-- The first failing condition of R120; 0 when the entry passes. The registers are those that the streams' next bundles read: results due there count. -/
def State.entryCode (s : State) (sp : Splice) : BitVec 8 :=
  let p := (s.node sp.p).begin
  let c := (s.node sp.c).begin
  let lp := p.bodyLoop
  let lc := c.bodyLoop
  let handleBad := sp.cands.any fun k =>
    let a := p.regs.h[k.hp.toNat]
    let b := c.regs.h[k.hc.toNat]
    a.tid != b.tid || a.fmt != b.fmt || a.exts != b.exts || a.orgs != b.orgs || fmtBlock a.fmt || fmtBlock b.fmt || !stridesAgree p c k.hp k.hc
  let shapeBad := sp.cands.any fun k =>
    let a := p.regs.ts[(p.slot k.tp).toNat]
    let b := c.regs.ts[(c.slot k.tc).toNat]
    shapeW a != shapeW b || shapeRows a != shapeRows b || shapeCols a != shapeCols b
  let bp := (s.bodyOf p).getD []
  let bc := (s.bodyOf c).getD []
  let pw := writtenTids p bp
  let cw := writtenTids c bc
  let hazard := (namedTids p bp fun a => sp.cands.any fun k => k.pAddr.toNat == a).any cw.contains ||
    (namedTids c bc fun a => sp.cands.any fun k => k.cAddr.toNat == a).any pw.contains
  if (if lp.act then lp.t else 0) ≠ (if lc.act then lc.t else 0) then 0x10
  else if handleBad then 0x11
  else if shapeBad then 0x12
  else if hazard then 0x13
  else 0

/-! ## The states of a spliced pair (R119, R122, R123) -/

/-- An accepted pair, from P_OUT to DRAIN. -/
def SpliceState.accepted (x : SpliceState) : Bool :=
  match x with
  | .pOut | .cOut | .merged | .aloneP | .aloneC | .drain => true
  | _ => false

/-- The member whose bundle issues next; 0 when none does. -/
def Splice.stream (sp : Splice) : Nat :=
  match sp.st with
  | .pOut | .aloneP => sp.p
  | .cOut | .aloneC => sp.c
  | .merged => if sp.turnC then sp.c else sp.p
  | _ => 0

/-- No handler of the node runs. -/
def Node.noHandler (n : Node) : Bool := !n.ctl.trap.act && !n.ctl.ui.act

/-- The next fetch lies in the body, with the body's level active. -/
def Node.inBody (n : Node) : Bool :=
  match n.desc.image.splice with
  | some d => n.bodyLoop.act && !n.ctl.pcOut && decide (d.body.toNat ≤ n.ctl.pc.toNat) && decide (n.ctl.pc.toNat < d.body.toNat + 12 * d.bpkt)
  | Option.none => false

/-- The next fetch is an entry: it reaches BODY while the body's level is active, from outside the body. -/
def Node.atEntry (n : Node) : Bool :=
  match n.desc.image.splice with
  | some d => n.noHandler && n.bodyLoop.act && !n.ctl.pcOut && n.ctl.pc.toNat == d.body.toNat
  | Option.none => false

/-- A stream that was in the body is still in it: a handler of the stream runs, or the next fetch lies in the body (R127). -/
def Node.stays (n : Node) : Bool := n.run.st == .running && (!n.noHandler || n.inBody)

/-- The state after the pair's streams are both outside the body: P_OUT, C_OUT when P has ended, DRAIN when both have (R119). -/
def Splice.outside (sp : Splice) : Splice := { sp with st := if !sp.pEnded then .pOut else if !sp.cEnded then .cOut else .drain }

/-- A delayed cause of a word of the node's own program: it stands with the results of that program, which a running handler has recorded. -/
def Ctl.pushOwn (c : Ctl) (f : InFlight) : Ctl :=
  if c.ui.act then { c with uiFlight := c.uiFlight ++ [f] }
  else if c.trap.act then { c with trapFlight := c.trapFlight ++ [f] }
  else { c with flight := c.flight ++ [f] }

/-- A late store meets a fault as its TST would have (R123, R269): an access fault is a delayed cause of the TST, due at P's next boundary, and fails a P that has
ended; another fault stops the pair. DEDUCED: log entry 57. -/
def State.lateFault (s : State) (p : Nat) (b : FwdBuffer) (f : MFault) (off : Nat) : State :=
  if f = .access ∧ (s.node p).run.st = .running then
    s.mapNode p fun n => { n with ctl := n.ctl.pushOwn { dist := 1, eff := .trap 0x11 b.pos b.fa (tensorAddr b.h.tid off) } }
  else s.memFault p f

/-- Write the elided stores that no TLD took, as staged writes of P (R123). DEDUCED: log entry 57. -/
def State.lateStores (s : State) (p : Nat) : List FwdBuffer → State
  | [] => s
  | b :: rest =>
    if b.iter.isNone || b.taken || b.h.keep then State.lateStores s p rest
    else
      match s.planCells (s.node p) b.h { mode := 0, seed := 0, step := 0 } (bufferCells b) with
      | .ok pl => State.lateStores (s.performPlan p 1 (some b.pAddr) pl.writes) p rest
      | .mem f off => if f = .access then State.lateStores (s.lateFault p b f off) p rest else s.lateFault p b f off
      | .partBlock => State.lateStores s p rest

/-- A stream has a bundle in the merged iteration: P runs iteration m in it, and C iteration m - 1 (R122). -/
def Splice.pActive (sp : Splice) : Bool := sp.pIn && decide (sp.pIter ≤ sp.m)
def Splice.cActive (sp : Splice) : Bool := sp.cIn && decide (sp.cIter + 1 ≤ sp.m)

/-- The next merged position (R122). `afterC`: C's bundle issued last. DEDUCED: log entry 27. -/
def Splice.nextTurn (sp : Splice) (afterC : Bool) : Splice :=
  if sp.pActive || sp.cActive then { sp with turnC := if afterC then !sp.pActive else sp.cActive }
  else { sp with m := sp.m + 1, turnC := !sp.pIn }

/-- The merged run after a bundle of one member (R122, R123). `own`: a bundle of its body; one of a handler, its return too, ends no position, so that the
stream goes on where it was (R127). DEDUCED: log entry 27. DEDUCED: log entry 57. -/
def State.mergedAfter (s : State) (idx : Nat) (uid : Nat) (own : Bool) : State :=
  let sp := (s.core idx).pairOf uid
  if sp.st ≠ .merged then s
  else
    let p := s.node sp.p
    let c := s.node sp.c
    let pIn := sp.pIn && p.stays
    let cIn := sp.cIn && c.stays
    let left := sp.cIn && !cIn
    let now : Splice := { sp with pIn := pIn, cIn := cIn, pIter := if pIn then p.bodyLoop.i else sp.pIter, cIter := if cIn then c.bodyLoop.i else sp.cIter,
                                  storesAll := sp.storesAll || left }
    let goesOn := (!own || !(s.node uid).noHandler) && (if uid = sp.p then pIn else cIn)
    let next := if !goesOn then { now.nextTurn (uid == sp.c) with redo := false }
      else if sp.redo && (s.node uid).noHandler then { now with turnC := false, redo := false } else now
    let s := s.setCore ((s.core idx).putPair next)
    if left then s.lateStores sp.p sp.bufs else s

/-- One transition of R119 that issues no bundle, or none. DESIGN CHOICE: log entry 13. DEDUCED: log entry 27. -/
def State.pairTransition (s : State) (sp : Splice) : Option Splice :=
  let p := s.node sp.p
  let c := s.node sp.c
  match sp.st with
  | .pOut =>
    if sp.pEnded then some { sp with st := if sp.cEnded then .drain else .cOut }
    else if p.atEntry then some (if sp.cEnded then { sp with st := .aloneP } else { sp with st := .cOut, pWaits := true })
    else none
  | .cOut =>
    if sp.cEnded then some { sp with st := if sp.pEnded then .drain else if sp.pWaits then .aloneP else .pOut, pWaits := false }
    else if !c.atEntry then none
    else if sp.pEnded then some { sp with st := .aloneC }
    else
      let code := s.entryCode sp
      if code = 0 then
        some { sp with st := .merged, entry := sp.entry + 1, m := 0, turnC := false, pIter := 0, cIter := 0, pIn := true, cIn := true, pWaits := false,
                       cWaits := false, storesAll := false, bufs := sp.bufs.map fun b => { b with iter := none, taken := false } }
      else some { sp with st := .aloneP, code := code, entry := sp.entry + 1, pWaits := false, cWaits := true }
  | .merged => if !sp.pIn && !sp.cIn then some sp.outside else none
  | .aloneP => if sp.pEnded || !p.stays then some (if sp.cWaits then { sp with st := .aloneC, cWaits := false } else { sp with st := .pOut }) else none
  | .aloneC => if sp.cEnded || !c.stays then some sp.outside else none
  | _ => none

/-- Count what a transition reports (R124). -/
def State.countTransition (s : State) (idx : Nat) (old new : Splice) : State :=
  if old.st = .cOut ∧ new.st = .merged then s.countCore idx "merged entries"
  else if old.st = .cOut ∧ new.st = .aloneP ∧ new.cWaits then s.countCore idx (spliceCodeName new.code)
  else s

end Sys2Proof.Machine
end

