-- ==== Sys2Proof/Machine/System.lean ====
section
/-! DEFINITION. The words of classes X and Y: control registers, traps and returns, fences, device-issued packets, counters, waits, job control blocks and tokens (R303 to R326). -/

namespace Sys2Proof.Machine

/-! ## Control registers (R317 to R319) -/

/-- A slab entry of CTL.BIND for one slab: V, HB, HA, row and column (R103). -/
def slabEntry (y x : Nat) (ha hb : Bool) : Nat := 2 ^ 11 + (if hb then 2 ^ 10 else 0) + (if ha then 2 ^ 9 else 0) + y % 16 * 2 ^ 5 + x % 32

/-- The slabs of a core's halves, each once, in ascending (y, x) order. -/
def slabList (l : List BoundHalf) : List (Nat × Nat) :=
  setAddAll (l.map fun b => b.y * 32 + b.x) |>.map fun k => (k / 32, k % 32)
where
  /-- The keys in ascending order without repeats. -/
  setAddAll (l : List Nat) : List Nat := l.foldl setAdd []

/-- CTL.BIND (R103). -/
def Core.bind (c : Core) : Word :=
  let has := fun (p : Nat × Nat) (h : BitVec 1) => c.halves.any fun b => b.y == p.1 && b.x == p.2 && b.half == h
  let entries := (slabList c.halves).map fun p => slabEntry p.1 p.2 (has p 0) (has p 1)
  let e := fun i => entries.getD i 0
  BitVec.ofNat 64 (c.epoch.toNat * 2 ^ 56 + e 3 * 2 ^ 44 + e 2 * 2 ^ 32 + e 1 * 2 ^ 20 + e 0 * 2 ^ 8 + (if c.rsv then 32 else 0) + (if c.join then 16 else 0) +
    (if c.emap != 0 then 8 else 0) + (if c.paired then 4 else 0) + c.gang.toNat)

/-- The number of a splice state in CTL.SPLC (R124). -/
def SpliceState.code (x : SpliceState) : Nat :=
  match x with
  | .none => 0 | .marked => 1 | .check => 2 | .refused => 3 | .pOut => 4 | .cOut => 5 | .merged => 6 | .aloneP => 7 | .aloneC => 8 | .drain => 9 | .saved => 10

/-- CTL.SPLC as a node reads it (R124). -/
def Splice.word (sp : Splice) (uid : Nat) : Word :=
  if uid = 0 ∨ (sp.p ≠ uid ∧ sp.c ≠ uid) then 0
  else
    let nfwd := if sp.st = .refused then 0 else sp.cands.length
    BitVec.ofNat 64 (nfwd * 2 ^ 20 + (if sp.p = uid then 1 else 2) * 2 ^ 18 + sp.code.toNat * 2 ^ 8 + sp.st.code)

/-- CTL.SPLC of a node: its pair's, and after a refusal, while the node runs on, its ROLE and the code in state REFUSED (R113, R124). -/
def spliceWord (sp : Splice) (refusal : Option (Bool × BitVec 8)) (uid : Nat) : Word :=
  match refusal with
  | some (isP, code) =>
    if sp.st = .none then BitVec.ofNat 64 ((if isP then 1 else 2) * 2 ^ 18 + code.toNat * 2 ^ 8 + SpliceState.code .refused) else sp.word uid
  | none => sp.word uid

/-- CTL.LPn (R167). -/
def Loop.word (l : Loop) : Word := BitVec.ofNat 64 ((if l.act then 2 ^ 63 else 0) + l.t % 2 ^ 31 * 2 ^ 32 + l.i % 2 ^ 32)

/-- CTL.UIS (R284). -/
def UiRegs.word (u : UiRegs) : Word :=
  BitVec.ofNat 64 (u.ra.toNat * 2 ^ 32 + (if u.act then 2 ^ 31 else 0) + (if u.ovf then 2 ^ 30 else 0) + u.recs.length * 2 ^ 18 + u.slot.toNat * 2 ^ 7 + u.cnt.toNat)

/-- CTL.TRAP and CTL.TPC (R347). -/
def TrapRegs.trapWord (t : TrapRegs) : Word :=
  BitVec.ofNat 64 (t.vbase.toNat * 2 ^ 42 + (if t.en then 2 ^ 41 else 0) + (if t.crb then 2 ^ 40 else 0) + (if t.act then 2 ^ 32 else 0) + t.pos.toNat * 2 ^ 24 +
    (if t.dly then 2 ^ 7 else 0) + t.cause.toNat)
def TrapRegs.tpcWord (t : TrapRegs) : Word := BitVec.ofNat 64 (t.ra.toNat * 2 ^ 22 + t.fa.toNat)

/-- A control register as CTLR reads it (R317). -/
def State.ctlRead (s : State) (num : BitVec 12) : Word :=
  let n := num.toNat
  let c := s.core s.focus
  let k := s.cur.ctl
  if n = 0 then BitVec.ofNat 64 (c.stage.toNat * 2 ^ 10 + c.idx % 2 ^ 10)
  else if n = 1 then c.stage.zeroExtend 64
  else if n = 2 then k.part.zeroExtend 64
  else if n = 3 then c.bind
  else if n = 4 then c.emap.zeroExtend 64
  else if n = 5 then spliceWord (c.pairOf s.cur.desc.uid) s.cur.run.refusal s.cur.desc.uid
  else if n = 6 then s.cur.eflg
  else if n = 8 then k.seed.zeroExtend 64
  else if n = 9 then k.step.zeroExtend 64
  else if n = 0xA then k.rtb.zeroExtend 64
  else if 0x10 ≤ n ∧ n ≤ 0x15 then (k.loops[n - 0x10]?.getD {}).word
  else if 0x20 ≤ n ∧ n ≤ 0x2B then k.ls[n - 0x20]?.getD 0
  else if 0x30 ≤ n ∧ n ≤ 0x33 then s.cur.regs.e[n - 0x30]?.getD 0
  else if n = 0x40 then k.cfa
  else if n = 0x41 then k.cfb
  else if n = 0x42 then k.ui.word
  else if n = 0x50 then k.trap.trapWord
  else if n = 0x51 then k.trap.tpcWord
  else if n = 0x52 then k.trap.val
  else if 0x100 ≤ n ∧ n ≤ 0x13F then (s.cur.regs.c[n - 0x100]?.getD 0).zeroExtend 64
  else 0

/-- The bits of CTL.LSn that a write stores (R168). -/
def lsMask : Word := 0xFF03FFFFFF03FFFF#64

/-- The bits of CTL.ERn that a write stores (R232). -/
def erMask : Word := 0xFFFFFFFFFC007FFF#64

/-- CTLW at the end of its bundle (R318): the RW fields of the register. -/
def Node.ctlWrite (nd : Node) (num : BitVec 12) (v : Word) : Node :=
  let n := num.toNat
  let k := nd.ctl
  if n = 8 then { nd with ctl := { k with seed := v.extractLsb' 0 32 } }
  else if n = 9 then { nd with ctl := { k with step := v.extractLsb' 0 32 } }
  else if n = 0xA then { nd with ctl := { k with rtb := (v.extractLsb' 0 5) &&& 0x1E#5 } }
  else if 0x20 ≤ n ∧ n ≤ 0x2B then { nd with ctl := { k with ls := k.ls.setIfInBounds (n - 0x20) (v &&& lsMask) } }
  else if 0x30 ≤ n ∧ n ≤ 0x33 then { nd with regs := { nd.regs with e := nd.regs.e.setIfInBounds (n - 0x30) (v &&& erMask) } }
  else if n = 0x50 then { nd with ctl := { k with trap := { k.trap with vbase := v.extractLsb' 42 22, en := v.getLsbD 41, crb := v.getLsbD 40 } } }
  else if n = 0x51 then { nd with ctl := { k with trap := { k.trap with ra := v.extractLsb' 22 22 } } }
  else nd

/-! ## Returns (R323, R350) -/

/-- The address of the bundle after the trapped one, as VAL of a CMPT, TRAP or BRK holds it (R347). DEDUCED: log entry 18. -/
def TrapRegs.na (t : TrapRegs) : Option (BitVec 22) := if t.cause = 0x18 ∨ t.cause = 0x1A ∨ t.cause = 0x1B then some (t.val.extractLsb' 22 22) else none

/-- RA may be FA, NA, the recorded RA, or a multiple of 12 (R350). DEDUCED: log entry 18. -/
def TrapRegs.raOk (t : TrapRegs) (ovl : Bool) : Bool := t.ra == t.fa || some t.ra == t.na || t.ra == t.recRa || offsetOf ovl t.ra.toNat % 12 == 0

/-- The VAL of a CMPT, TRAP or BRK (R347). DEDUCED: log entry 18. -/
def State.naVal (s : State) (code : BitVec 16) : Word := BitVec.ofNat 64 (s.bnd.na.toNat * 2 ^ 22 + code.toNat)

/-! ## Requests that leave the node (R309, R312 to R314) -/

/-- JCB.RAISE by n (R309). -/
def State.raiseBy (s : State) (p : BitVec 3) (n : Word) : State :=
  let r := s.cur.run
  let stg := !s.cur.desc.image.unstg
  if s.cur.desc.jcb = none then s.pushP 6 p false
  else if n = 0 then s.pushP 6 p true
  else if stg && r.doneIssued then (s.mapRun fun r => { r with late := r.late + 1, refused := r.refused + 1 }).pushP 6 p false
  else
    let id := r.nextReq
    let s := s.mapRun fun r => { r with nextReq := id + 1, pendingRaise := r.pendingRaise ++ [{ id := id, n := n, posted := r.doneIssued, ans := none }] }
    s.push 6 (.pAnswer id p none)

/-- JCB.DONE (R310). -/
def State.doneEarly (s : State) : State :=
  let n := s.cur
  match n.desc.jcb with
  | none => s
  | some j =>
    if n.run.doneIssued then s
    else
      let s := s.mapRun fun r => { r with doneIssued := true }
      if n.desc.image.unstg then { s with awl := { s.awl with posts := s.awl.posts ++ [{ uid := n.desc.uid, queue := n.desc.queue, jcb := j, fail := none }] } } else s

/-- A packet enters the outbox of the focus core (R108); the node can no longer be rolled back (R69). -/
def State.toOutbox (s : State) (pkt : BitVec 512) : State :=
  let c := s.core s.focus
  (s.setCore { c with outbox := c.outbox ++ [(s.cur.desc.uid, pkt)] }).mapRun fun r => { r with irrev := true }

/-- The TOKEN.GIVE packet of a TOK.GIVE (R80, R312): a count outside 1 to 65,535 is handed over as 0, which the Awl refuses (R88). -/
def State.givePacket (s : State) (l : BitVec 6) (count : Nat) : BitVec 512 :=
  let c := if 1 ≤ count ∧ count ≤ 65535 then count else 0
  BitVec.ofNat 512 (6 + s.cur.run.qgen.toNat * 2 ^ 32 + l.toNat * 2 ^ 128 + c * 2 ^ 144)

/-- TOK.GIVE (R312): a full outbox delays the issue. -/
def State.give (s : State) (l : BitVec 6) (count : Nat) : State :=
  if 2 ≤ (s.core s.focus).outbox.length then s.delay else s.toOutbox (s.givePacket l count)

/-- TOK.TAKE (R313): a request to the Awl; pD waits for its answer. -/
def State.takeTok (s : State) (p : BitVec 3) (l : BitVec 6) (count : Word) : State :=
  let id := s.cur.run.nextReq
  let uid := s.cur.desc.uid
  let s := s.mapRun fun r => { r with nextReq := id + 1 }
  let s := { s with awl := { s.awl with inbox := s.awl.inbox ++ [InboxItem.take uid id l count] } }
  s.push 2 (.pAnswer id p none)

/-- The 64 bytes of a register group (R314). -/
def Node.groupPacket (n : Node) (g : BitVec 2) : BitVec 512 :=
  BitVec.ofNat 512 (packBits 64 ((List.range 8).map fun i => (n.s (BitVec.ofNat 5 (8 * g.toNat + i))).toNat))

/-- The access tag (R316). -/
def Node.tag (n : Node) : Word := BitVec.ofNat 64 (n.desc.queue.toNat * 2 ^ 32 + n.run.qgen.toNat * 2 ^ 16 + n.run.asgen.toNat)

/-- TRAP (R321): Takes the software trap with a 16-bit code. -/
def execTrap (q : BitVec 2) (g : BitVec 4) (k : BitVec 16) (σ : State) : Result :=
  word (.trap q g k) σ fun σ => σ.trapHere 0x1A (σ.naVal k)

/-- TRET (R350): Ends the trap handler, resumes at RA and replays the recorded in-flight results. A delayed cause of a handler word is taken inside the
handler, with ACT = 1 (R351). -/
def execTret (q : BitVec 2) (σ : State) : Result :=
  word (.tret q) σ fun σ =>
    let t := σ.cur.ctl.trap
    if !t.act then σ.trapHere 0x0B 0
    else if !t.raOk σ.cur.desc.image.ovl then σ.trapHere 0x0C (t.ra.zeroExtend 64)
    else match firstCause t.ra σ.cur.ctl.flight with
      | some x => σ.takeTrap x
      | none => (σ.mapCtl Ctl.leaveTrap).addPost (.jump t.ra false)

/-- UIRET (R285): Leaves the user-level handler, restores the primary bank and resumes at RA. -/
def execUiret (q : BitVec 2) (σ : State) : Result :=
  word (.uiret q) σ fun σ =>
    let u := σ.cur.ctl.ui
    if !u.act then σ.trapHere 0x0B 0 else (σ.mapCtl Ctl.leaveUser).addPost (.jump u.ra false)

/-- CTLR (R318): Reads a control register or counter into sD. -/
def execCtlr (q : BitVec 2) (g : BitVec 4) (d : BitVec 5) (n : BitVec 12) (σ : State) : Result :=
  word (.ctlr q g d n) σ fun σ => σ.pushS 2 d (σ.ctlRead n)

/-- CTLW (R318): Writes the RW fields of a control register from sA. -/
def execCtlw (q : BitVec 2) (g : BitVec 4) (s : BitVec 5) (n : BitVec 12) (σ : State) : Result :=
  word (.ctlw q g s n) σ fun σ => σ.addPost (.ctlw n (σ.cur.s s))

/-- FENCE (R293): Orders the node's memory accesses with acquire, release or both at a scope. DEDUCED: log entry 3. -/
def execFence (q : BitVec 2) (g : BitVec 4) (a : BitVec 1) (l : BitVec 1) (s : BitVec 4) (σ : State) : Result :=
  word (.fence q g a l s) σ fun σ => if a = 1 then σ.acquire else σ

/-- BRK (R321): Takes the breakpoint trap with a 16-bit code. -/
def execBrk (q : BitVec 2) (g : BitVec 4) (k : BitVec 16) (σ : State) : Result :=
  word (.brk q g k) σ fun σ => σ.trapHere 0x1B (σ.naVal k)

/-- CMPT (R322): Takes the compare trap when sA and sB differ. -/
def execCmpt (q : BitVec 2) (g : BitVec 4) (a : BitVec 5) (b : BitVec 5) (σ : State) : Result :=
  word (.cmpt q g a b) σ fun σ => if σ.cur.s a = σ.cur.s b then σ else σ.trapHere 0x18 (σ.naVal 0)

/-- ENQ (R314): Copies a 64-byte packet from a register group into the ENQ outbox, or reports a full outbox in pD. -/
def execEnq (q : BitVec 2) (g : BitVec 4) (p : BitVec 3) (y : BitVec 2) (σ : State) : Result :=
  word (.enq q g p y) σ fun σ =>
    if !σ.cur.run.pendingRaise.isEmpty then σ.delay
    else if 2 ≤ (σ.core σ.focus).outbox.length then σ.pushP 2 p false
    else (σ.toOutbox (σ.cur.groupPacket y)).pushP 2 p true

/-- YIELD (R324): Unconditional switch point between resident nodes. -/
def execYield (q : BitVec 2) (g : BitVec 4) (σ : State) : Result :=
  word (.yield q g) σ fun σ => σ.addPost .switch

/-- GENR (R316): Writes the node's access tag (space, QGEN, ASGEN) to sD. -/
def execGenr (q : BitVec 2) (g : BitVec 4) (d : BitVec 5) (σ : State) : Result :=
  word (.genr q g d) σ fun σ => σ.pushS 2 d σ.cur.tag

/-- IDLE (R325): Holds the next bundle until a user-level record is pending or none can arrive. -/
def execIdle (q : BitVec 2) (σ : State) : Result :=
  word (.idle q) σ fun σ => σ.addPost (.wait .idle)

/-- CSET (R304): Sets a counter from a register. -/
def execCset (q : BitVec 2) (g : BitVec 4) (n : BitVec 6) (a : BitVec 5) (σ : State) : Result :=
  word (.cset q g n a) σ fun σ => σ.push 1 (.c n ((σ.cur.s a).extractLsb' 0 32))

/-- CSET (R304): Sets a counter from an immediate. -/
def execCsetImm (q : BitVec 2) (g : BitVec 4) (n : BitVec 6) (i : BitVec 10) (ext : Option (BitVec 25)) (σ : State) : Result :=
  word (.csetImm q g n i ext) σ fun σ => σ.push 1 (.c n (BitVec.ofNat 32 (immU 10 i ext)))

/-- CADD (R304): Adds a register value to a counter. -/
def execCadd (q : BitVec 2) (g : BitVec 4) (n : BitVec 6) (a : BitVec 5) (σ : State) : Result :=
  word (.cadd q g n a) σ fun σ => σ.push 1 (.cAdd n ((σ.cur.s a).extractLsb' 0 32))

/-- CADD (R304): Adds a signed immediate to a counter. -/
def execCaddImm (q : BitVec 2) (g : BitVec 4) (n : BitVec 6) (i : BitVec 10) (ext : Option (BitVec 25)) (σ : State) : Result :=
  word (.caddImm q g n i ext) σ fun σ => σ.push 1 (.cAdd n (BitVec.ofInt 32 (immS 10 i ext)))

/-- CWAIT (R305): Holds the next bundle until the counter reaches a register target. -/
def execCwait (q : BitVec 2) (g : BitVec 4) (n : BitVec 6) (a : BitVec 5) (σ : State) : Result :=
  word (.cwait q g n a) σ fun σ => σ.addPost (.wait (.cwait n (σ.cur.s a)))

/-- CWAIT (R305): Holds the next bundle until the counter reaches an immediate target. -/
def execCwaitImm (q : BitVec 2) (g : BitVec 4) (n : BitVec 6) (i : BitVec 10) (ext : Option (BitVec 25)) (σ : State) : Result :=
  word (.cwaitImm q g n i ext) σ fun σ => σ.addPost (.wait (.cwait n (BitVec.ofNat 64 (immU 10 i ext))))

/-- BARB (R306): Byte-counting barrier on a register target, which subtracts the target once it is met. -/
def execBarb (q : BitVec 2) (g : BitVec 4) (n : BitVec 6) (a : BitVec 5) (σ : State) : Result :=
  word (.barb q g n a) σ fun σ => σ.addPost (.wait (.barb n (σ.cur.s a)))

/-- BARB (R306): Byte-counting barrier on an immediate target. -/
def execBarbImm (q : BitVec 2) (g : BitVec 4) (n : BitVec 6) (i : BitVec 10) (ext : Option (BitVec 25)) (σ : State) : Result :=
  word (.barbImm q g n i ext) σ fun σ => σ.addPost (.wait (.barb n (BitVec.ofNat 64 (immU 10 i ext))))

/-- BAR (R307): Holds the next bundle until the selected engines report DONE. -/
def execBar (q : BitVec 2) (g : BitVec 4) (a : BitVec 1) (b : BitVec 1) (e : BitVec 1) (l : BitVec 1) (σ : State) : Result :=
  word (.bar q g a b e l) σ fun σ => σ.addPost (.wait (.bar (l ++ e ++ b ++ a)))

/-- JCB.RAISE (R309): Raises the node's job control block EXPECTED by a register value and reports acceptance in pD. -/
def execJcbRaise (q : BitVec 2) (g : BitVec 4) (p : BitVec 3) (a : BitVec 5) (σ : State) : Result :=
  word (.jcbRaise q g p a) σ fun σ => σ.raiseBy p (σ.cur.s a)

/-- JCB.RAISE (R309): Raises the node's job control block EXPECTED by an immediate. -/
def execJcbRaiseImm (q : BitVec 2) (g : BitVec 4) (p : BitVec 3) (i : BitVec 13) (ext : Option (BitVec 25)) (σ : State) : Result :=
  word (.jcbRaiseImm q g p i ext) σ fun σ => σ.raiseBy p (BitVec.ofNat 64 (immU 13 i ext))

/-- JCB.DONE (R310): Posts the node's one completion early. -/
def execJcbDone (q : BitVec 2) (g : BitVec 4) (σ : State) : Result :=
  word (.jcbDone q g) σ fun σ => σ.doneEarly

/-- TOK.GIVE (R312): Hands a TOKEN.GIVE packet, counted by a register, to the ENQ outbox. -/
def execTokGive (q : BitVec 2) (g : BitVec 4) (l : BitVec 6) (a : BitVec 5) (σ : State) : Result :=
  word (.tokGive q g l a) σ fun σ => σ.give l (σ.uv a)

/-- TOK.GIVE (R312): Hands a TOKEN.GIVE packet with an immediate count to the ENQ outbox. -/
def execTokGiveImm (q : BitVec 2) (g : BitVec 4) (l : BitVec 6) (i : BitVec 10) (ext : Option (BitVec 25)) (σ : State) : Result :=
  word (.tokGiveImm q g l i ext) σ fun σ => σ.give l (immU 10 i ext)

/-- TOK.TAKE (R313): Asks the Awl to take a register count of tokens from a link. -/
def execTokTake (q : BitVec 2) (g : BitVec 4) (p : BitVec 3) (l : BitVec 6) (a : BitVec 5) (σ : State) : Result :=
  word (.tokTake q g p l a) σ fun σ => σ.takeTok p l (σ.cur.s a)

/-- TOK.TAKE (R313): Asks the Awl to take an immediate count of tokens from a link. -/
def execTokTakeImm (q : BitVec 2) (g : BitVec 4) (p : BitVec 3) (l : BitVec 6) (i : BitVec 7) (ext : Option (BitVec 25)) (σ : State) : Result :=
  word (.tokTakeImm q g p l i ext) σ fun σ => σ.takeTok p l (BitVec.ofNat 64 (immU 7 i ext))

end Sys2Proof.Machine
end

