-- ==== Sys2Proof/Machine/Front.lean ====
section
/-! DEFINITION. The front end: launch loads, resumption, switches between resident nodes, and what stands at a bundle boundary
(R65, R98, R113, R265, R285, R345 to R351, R356). -/

namespace Sys2Proof.Machine

/-! ## Launch (R61, R65, R176, R361) -/

/-- What a load of the launch meets: a fault, poisoned data, or the value. -/
inductive Loaded (α : Type) where
  | fault (f : MFault)
  | poisoned
  | ok (v : α)
deriving DecidableEq, Repr

/-- A scale register as a record's SCALE word loads it (R37): reserved bits read 0, and census fields hold at most 32. -/
def loadScale (v : Nat) : BitVec 32 :=
  let k := BitVec.ofNat 32 v &&& 0x0F7FFFFF#32
  setCensus k (cenV k) (cenPrev k) (cenCur k)

/-- The scale registers of the operands in operand order (R65); a record in a guard granule leaves the touch that any read does (R248). DEDUCED: log entry 38. -/
def State.loadScales (s : State) (uid : Nat) (k : Vector (BitVec 32) 64) : List (Handle × Word) → State × Loaded (Vector (BitVec 32) 64)
  | [] => (s, .ok k)
  | (h, a) :: rest =>
    match s.readBytes (s.node uid) (a.toNat / 2 ^ 44) (a.toNat % 2 ^ 44) 4 with
    | .error f => (s, .fault f)
    | .ok (l, g) =>
      let s := s.touch uid 0 none g
      if l.any (·.2) then (s, .poisoned) else State.loadScales s uid (k.setIfInBounds h.kidx (loadScale (leNat (l.map (·.1))))) rest

/-- The registers of a node at launch (R65). -/
def launchRegs (d : Desc) (k : Vector (BitVec 32) 64) : Regs :=
  { Regs.reset with
    s := ((List.range 8).foldl (fun (v : Vector Word 32) i => v.setIfInBounds (i + 1) (d.args[i]?.getD 0)) Regs.reset.s)
    h := (d.handles.zipIdx.foldl (fun (v : Vector Handle 16) e => v.setIfInBounds e.2 e.1) Regs.reset.h)
    k := k }

/-- The control state of a node at launch (R65). -/
def launchCtl (d : Desc) : Ctl :=
  { part := d.image.part, seed := d.gseed, step := d.gstep, pc := d.image.entry.extractLsb' 0 22, pcOut := decide (2 ^ 22 ≤ d.image.entry.toNat),
    xseg := segOf d.image.ovl (d.image.entry.toNat % 2 ^ 22) }

/-- The segments that a launch copies, each with its half: the one of ENTRY and the lowest that has PRE set (R61); when that is ENTRY's own, nothing goes into the
other half. DEDUCED: log entry 51. -/
def launchSegs (im : Image) (r : Resident) : List (Nat × Bool) :=
  let e := segOf im.ovl (im.entry.toNat % 2 ^ 22)
  let h := r.half1 == some e && r.half0 != some e
  let after := if r.holds e then r else { r with half0 := some e }
  let pre := (im.segs.zipIdx.find? fun x => x.1.2.2).map (·.2)
  (if r.holds e then [] else [(e, h)]) ++
    (match pre with
      | some p => if p = e ∨ after.holds p then [] else [(p, !h)]
      | none => [])

/-- Copy segments into a resident image. -/
def State.copySegs (s : State) (n : Node) (r : Resident) : List (Nat × Bool) → Except MFault Resident
  | [] => .ok r
  | (seg, half1) :: rest =>
    match s.readSegment n seg with
    | .error f => .error f
    | .ok x => State.copySegs s n (r.put x half1) rest

/-- An image's place in instruction memory before anything is copied. -/
def freshResident (im : Image) (sp : BitVec 6) : Resident :=
  { imgid := im.imgid, space := sp, ovl := im.ovl, size := imemNeed im, launched := 0, segs := [], half0 := none, half1 := none, copying := none }

/-- The code of a node is put into the focus core's instruction memory unless its IMGID is resident (R61, R98, R361). `first`: a launch, which
fills the halves of an overlay image; a resumption fetches them as it needs them (R178). DEDUCED: log entry 51. DESIGN CHOICE: log entry 52. -/
def State.ensureCode (s : State) (n : Node) (first : Bool) : Except MFault State :=
  let im := n.desc.image
  let c := s.core s.focus
  let old := c.imem.find? fun r => r.imgid == im.imgid
  let r := old.getD (freshResident im n.desc.queue)
  let r := if first then { r with launched := maxNat (c.imem.map (·.launched)) + 1 } else r
  let want := if im.ovl then (if first then launchSegs im r else []) else if old.isSome then [] else [(0, false)]
  match s.copySegs n r want with
  | .error f => .error f
  | .ok r => .ok (s.setCore { c with imem := (c.imem.filter fun x => x.imgid != im.imgid) ++ [r] })

/-- A node with the access tag that its first switch reads (R263). -/
def State.tagged (s : State) (n : Node) : Node :=
  { n with run := { n.run with asgen := (s.space n.desc.queue).asgen, qgen := s.awl.queues[n.desc.queue.toNat].gen } }

/-- A node's first switch: RUNNING, the access tag, the launch loads and the code. A fault of a load rolls the node back or fails it as a fault of its
first bundle would (R65). -/
def State.launchNode (s : State) (uid : Nat) : State :=
  let n := s.node uid
  let d := n.desc
  let n := s.tagged n
  let n := { n with run := { n.run with st := .running }, ctl := launchCtl d, eng := {} }
  let s := s.setNode n
  match s.loadScales uid Regs.reset.k (d.handles.zip d.srecs) with
  | (s, .fault f) => s.memFault uid f
  | (s, .poisoned) => (s.countCause uid 0x33).rollback uid none
  | (s, .ok k) =>
    match (s.mapNode uid fun n => { n with regs := launchRegs d k }).ensureCode n true with
    | .error f => s.memFault uid f
    | .ok s => s

/-- The stitcher examines a marked pair at the first switch to its producer (R113, R114); an accepted consumer is launched with it, and of a refused pair each
member keeps the refusal that its CTL.SPLC shows (R124). The consumer's code is read with the generations that are current (R263). DEDUCED: log entry 28. -/
def State.examine (s : State) (p : Nat) : State :=
  let k := s.core s.focus
  let sp := k.pairOf p
  if sp.st ≠ .marked ∨ sp.p ≠ p ∨ (s.node p).run.st ≠ .running then s
  else
    match s.stitch (s.node p) (s.tagged (s.node sp.c)) with
    | .error code =>
      let refused := fun (isP : Bool) (n : Node) => { n with run := { n.run with refusal := some (isP, code) } }
      (((s.setCore (k.dropPair p)).mapNode p (refused true)).mapNode sp.c fun n => { refused false n with run := { (refused false n).run with behind := false } }).countCore s.focus (spliceCodeName code)
    | .ok x =>
      let s := s.setCore (k.putPair x)
      let s := s.mapNode p fun n => { n with run := { n.run with partner := sp.c } }
      let s := s.mapNode sp.c fun n => { n with run := { n.run with partner := p, behind := false } }
      s.launchNode sp.c

/-! ## Resumption (R265, R356) -/

/-- A saved node takes its context back, with its splice record and its partner's (R129). DEDUCED: log entry 61. -/
def State.resumeNode (s : State) (uid : Nat) : State :=
  let n := s.node uid
  let q := n.run.partner
  if s.stale n || (q != 0 && s.stale (s.node q)) then s.memFault uid .generation
  else
    let sp := n.run.spliceRec
    let ended := fun u => match sp with
      | some x => (u == x.p && x.pEnded) || (u == x.c && x.cEnded)
      | none => false
    let back := fun (n : Node) => { n with run := { n.run with st := if ended n.desc.uid then NodeState.retiring else .running, quiesced := false, saveArea := none, payload := 0, spliceRec := none } }
    let s := ((s.mapNode uid back).reseat uid).fireArmed uid
    let s := if q = 0 then s else ((s.mapNode q back).reseat q).fireArmed q
    let s := match sp with
      | some x => s.setCore ((s.core s.focus).putPair x)
      | none => s
    match s.ensureCode (s.node uid) false with
    | .error f => s.memFault uid f
    | .ok s =>
      if q = 0 then s
      else
        match s.ensureCode (s.node q) false with
        | .error f => s.memFault q f
        | .ok s => s

/-! ## Room in the save region (R355) -/

/-- The accumulators that exist for a node (R59). -/
def accCount (part : BitVec 32) : Nat := fieldN part 8 4 * 4 / 3

/-- Bytes of the pool image and of the mark plane. -/
def Node.poolBytes (n : Node) : Nat := poolUnits n.ctl.part * 65536 * n.run.gangWidth
def Node.markBytes (n : Node) : Nat := accCount n.ctl.part * accElems n.run.gangWidth / 4

/-- A recorded tile, accumulator or epilogue value needs room in the payload area (R354, R355). -/
def Node.hasPayload (n : Node) : Bool :=
  !n.eng.epi.isEmpty || n.ctl.results.any fun f => match f.eff with
    | .tile .. => true
    | .acc .. => true
    | _ => false

/-- The size of the payload area of the k-th node that is saved at once: its encoding is the implementation's own, so its size is a free value when it holds
anything. DESIGN CHOICE: log entry 31. -/
def State.payloadSize (s : State) (k : Nat) (n : Node) : Nat := if n.hasPayload then Config.freeNat (s.free + k) % 2 ^ 24 else 0

/-- Frames of a save area with a payload area of a given size. -/
def Node.framesWith (n : Node) (payload : Nat) : Nat := 1 + ceilDiv (n.poolBytes + n.markBytes + payload) 65536

/-- The lowest frame from `base` on at which `k` frames of the save region are free, past the areas in use, given in ascending order. DESIGN CHOICE: log entry 31. -/
def firstFit (base k : Nat) : List (Nat × Nat) → Option Nat
  | [] => if base + k ≤ 0x1000000 then some base else none
  | (b, w) :: rest => if base + k ≤ b then some base else firstFit (max base (b + w)) k rest

/-- Keep save areas in ascending order. -/
def insertArea (e : Nat × Nat) : List (Nat × Nat) → List (Nat × Nat)
  | [] => [e]
  | x :: rest => if e.1 < x.1 then e :: x :: rest else x :: insertArea e rest

/-- Where the save areas of nodes that are saved at once would lie, beside those in use, with the sizes of their payload areas; none when one finds no room.
DESIGN CHOICE: log entry 31. -/
def State.saveAreas (s : State) (used : List (Nat × Nat)) (k : Nat) : List Node → Option (List (Nat × Nat))
  | [] => some []
  | n :: rest =>
    let p := s.payloadSize k n
    match firstFit 0xFC0000 (n.framesWith p) used with
    | none => none
    | some b => (State.saveAreas s (insertArea (b, n.framesWith p) used) (k + 1) rest).map ((b, p) :: ·)

/-- The nodes that are pre-empted with a node: of a spliced pair both, in a fixed order (R129). -/
def State.savedWith (s : State) (n : Node) : List Node :=
  if n.run.partner = 0 then [n] else if n.desc.uid < n.run.partner then [n, s.node n.run.partner] else [s.node n.run.partner, n]

/-- Room for the save areas of a node and of its partner. -/
def State.saveRoom (s : State) (n : Node) : Option (List (Nat × Nat)) :=
  s.saveAreas ((s.allNodes.filterMap fun m => m.run.saveArea).foldl (fun l e => insertArea e l) []) 0 (s.savedWith n)

/-- The front end takes a pending pre-emption request of the node, a pair's as one (R129): one that finds no room in the save region for all that is saved is
deferred (R355), and so is one that comes between the subtraction of a BARB and the bundle behind it (R326). -/
def State.stopsFor (s : State) (n : Node) : Bool :=
  let l := s.savedWith n
  l.any (·.run.preempt) && !(l.any fun m => m.ctl.bound) && (s.saveRoom n).isSome

/-! ## Switches (R98) -/

/-- The node waits at a CWAIT or a BARB whose condition does not hold. -/
def Node.blocked (n : Node) : Bool := n.ctl.waits.any fun w => w.counts && !n.holds w

/-- A resident node is runnable (R98): a member of a spliced pair only when its stream is the current one (R119), a consumer that does not run spliced
only when its remaining count is 0, and of a saved pair the producer for both. A node that
is to be resumed is runnable whatever its wait record holds, which is tested after its resumption (R356). DEDUCED: log entry 28. DEDUCED: log entry 61. -/
def State.runnable (s : State) (c : Core) (uid : Nat) : Bool :=
  let n := s.node uid
  let sp := c.pairOf uid
  let member := sp.st.accepted
  uid != 0 && (n.run.st == .placed || n.run.st == .running) && !s.stopsFor n && (n.run.st == .placed || (!n.run.quiesced && !n.blocked)) &&
    (if member then sp.stream == uid
     else if n.run.saveArea.isSome then n.run.partner == 0 || n.run.spliceRec.isSome
     else n.run.remaining == 0)

/-- The first runnable node after the last slot, in slot order, wrapping round. DEDUCED: log entry 21. -/
def State.nextRunnable (s : State) (idx : Nat) : Option Nat :=
  let c := s.core idx
  (((List.range 4).map fun i => (c.lastSlot + 1 + i) % 4).map fun i => c.slots[i]?.getD 0).find? (s.runnable c)

/-- The focus core's front end turns to a node. -/
def State.turnTo (s : State) (idx uid : Nat) : State :=
  let c := s.core idx
  (s.setCore { c with current := uid, lastSlot := if uid = 0 then c.lastSlot else slotOfNode c uid }).focusOn idx

/-- A switch to a node, with its launch or its resumption when it is its first on the core (R98, R356). DESIGN CHOICE: log entry 13. -/
def State.switchTo (s : State) (idx uid : Nat) : State :=
  let s := s.turnTo idx uid
  let n := s.node uid
  if n.run.st ≠ .placed then s
  else if n.run.saveArea.isSome then
    let s := s.resumeNode uid
    let sp := (s.core idx).pairOf uid
    if sp.st.accepted ∧ sp.p = uid then s.turnTo idx sp.stream else s
  else (s.launchNode uid).examine uid

/-- Turn to the next runnable node; the core idles when there is none. -/
def State.pickNext (s : State) (idx : Nat) : State :=
  match s.nextRunnable idx with
  | some u => s.switchTo idx u
  | none => s

/-! ## The boundary in front of a bundle (R285, R346) -/

/-- What stands at the boundary in front of the current node's next bundle. -/
inductive Boundary where
  /-- A delayed cause is due; the results that stay in flight. -/
  | delayed (x : Cause) (rest : List InFlight)
  /-- A cause of the boundary itself: fetch, encoding, partition or a pending guard touch. -/
  | cause (x : Cause)
  /-- The segment of the next bundle is not resident (R178). -/
  | frozen (seg : Nat)
  /-- An instruction word is poisoned (R358). -/
  | poisoned
  /-- A result that is due waits for its answer (R146). -/
  | stall
  | bundle (l : List BWord) (na : Nat)
deriving DecidableEq, Repr

/-- The delayed causes due at this boundary: the first in issue order, and the results without it. -/
def takeDue (l : List InFlight) : Option ((BitVec 7 × BitVec 4 × BitVec 22 × Word) × List InFlight) :=
  match l with
  | [] => none
  | f :: rest =>
    match f.eff with
    | .trap code pos fa val =>
      if f.dist ≤ 1 then some ((code, pos, fa, val), rest) else (takeDue rest).map fun r => (r.1, f :: r.2)
    | _ => (takeDue rest).map fun r => (r.1, f :: r.2)

/-- An answer is due that has not arrived. -/
def answerDue (l : List InFlight) : Bool := l.any fun f => decide (f.dist ≤ 1) && match f.eff with
  | .pAnswer _ _ none => true
  | _ => false

/-- A BARB, CWAIT or END (R248). -/
def guardPoint (i : Instr) : Bool :=
  match i with
  | .barb .. => true
  | .barbImm .. => true
  | .cwait .. => true
  | .cwaitImm .. => true
  | .endNode => true
  | _ => false

/-- VAL of a guard fault (R347). -/
def GuardRec.val (g : GuardRec) : Word :=
  BitVec.ofNat 64 (min g.more (2 ^ 24 - 1) * 2 ^ 40 + g.entry.toNat * 2 ^ 38 + g.half.toNat * 2 ^ 37 + g.unit.toNat * 2 ^ 34 + g.off % 2 ^ 34)

/-- The boundary of the current node (R346). An answer that is due and has not arrived delays the bundle before its predicates are read (R146). DEDUCED: log entry 14. DEDUCED: log entry 19. -/
def State.boundary (s : State) : Boundary :=
  let n := s.cur
  let k := n.ctl
  let here := fun (code : BitVec 7) (pos : Nat) (dly : Bool) (val : Word) =>
    ({ code := code, pos := BitVec.ofNat 4 pos, dly := dly, fa := k.pc, ra := k.pc, val := val } : Cause)
  match takeDue k.flight with
  | some ((code, pos, fa, val), rest) => .delayed { code := code, pos := pos, dly := true, fa := fa, ra := k.pc, val := val } rest
  | none =>
    if k.pcOut then .cause (here 0x0D 0 false (k.pc.zeroExtend 64))
    else
      match s.fetchBundle n k.pc.toNat with
      | .absent seg => .frozen seg
      | .poisoned => .poisoned
      | .outside a pos => .cause (here 0x0D pos false (BitVec.ofNat 64 a))
      | .tooLong l => .cause (here 1 l.length false 0)
      | .words ws na =>
        match decodeBundle k.pc.toNat 0 ws (ws.length + 1) with
        | .error p => .cause (here 1 p false 0)
        | .ok l =>
          match bundleCheck n.desc.image.ovl k.part na l with
          | some (code, p) => .cause (here code p false 0)
          | none =>
            let n' := n.begin
            if answerDue k.flight then .stall
            else
              match k.guard, l.find? (fun w => guardPoint w.i && !suppressed n' w.sig) with
              | some g, some w => .cause (here 0x12 w.pos true g.val)
              | _, _ => .bundle l na

/-- Take the cause that a boundary holds; a guard fault clears its record (R248). -/
def State.takeBoundary (s : State) (b : Boundary) : Option State :=
  match b with
  | .delayed x rest => some ((s.mapCtl fun k => { k with flight := rest }).takeTrap x)
  | .cause x => some ((if x.code = 0x12 then s.mapCtl fun k => { k with guard := none } else s).takeTrap x)
  | _ => none

/-- The current node of the focus core stands at a boundary at which it may go on. -/
def State.atBoundary (s : State) : Bool :=
  s.cur.desc.uid != 0 && s.cur.run.st == .running && !s.stopsFor s.cur && !s.cur.run.quiesced

/-- A completion record waits and the user-level handler may be entered (R285, R349). -/
def Node.userDue (n : Node) : Bool := !n.ctl.ui.recs.isEmpty && !n.ctl.ui.act && !n.ctl.trap.act

/-- Entry to the user-level handler (R285). A UIVEC that is no multiple of 12 raises the target alignment fault instead (R134). DEDUCED: log entry 17. -/
def State.enterUser (s : State) : State :=
  let v := s.cur.desc.image.uivec.toNat
  let pc := s.cur.ctl.pc
  if offsetOf s.cur.desc.image.ovl v % 12 ≠ 0 then
    s.takeTrap { code := 0x0C, pos := 0, dly := false, fa := pc, ra := pc, val := BitVec.ofNat 64 v }
  else s.acquire.mapCtl fun k => { k.enterUser (BitVec.ofNat 22 v) with pcOut := decide (2 ^ 22 ≤ v) }

/-- The bundle under way is over. -/
def State.clearBnd (s : State) : State := { s with bnd := {} }

/-- The cause that is taken now: while a wait holds the next bundle, only a delayed one that is due (R305). -/
def State.dueNow (s : State) : Option State :=
  match s.boundary with
  | .delayed x rest => s.takeBoundary (.delayed x rest)
  | b => if s.cur.ctl.waits = [] then s.takeBoundary b else none

/-- TRAP_ENTRY (R349): The highest trap cause is taken at a boundary, and the handler is entered or the node fails. -/
def execTrapEntry (core : BitVec 10) (σ : State) : Result :=
  let σ := σ.focusOn core.toNat
  if !σ.atBoundary then .fault (.notEnabled "TRAP_ENTRY")
  else
    match σ.dueNow with
    | some σ => .next σ.clearBnd
    | none => .fault (.notEnabled "TRAP_ENTRY")

/-- USER_INTERRUPT_ENTRY (R285): A queued completion record makes the front end enter the user-level handler. -/
def execUserInterruptEntry (core : BitVec 10) (σ : State) : Result :=
  let σ := σ.focusOn core.toNat
  if !σ.atBoundary || !σ.cur.userDue || σ.dueNow.isSome then .fault (.notEnabled "USER_INTERRUPT_ENTRY")
  else .next σ.enterUser.clearBnd

end Sys2Proof.Machine
end

