-- ==== Sys2Proof/Machine/Commit.lean ====
section
/-! DEFINITION. The commit of a node, and of a spliced pair one after the other (R43, R70, R126, R265, R360). -/

namespace Sys2Proof.Machine

/-! ## Census merges (R43) -/

/-- The closes that have been issued and have not taken effect do so, then every scale register whose CEN.CUR is below 32 is closed (R42, R43). -/
def Node.closeAll (n : Node) : Regs :=
  let issued := fun (r : Regs) (i : Nat) =>
    (List.range (n.ctl.cissued[i]?.getD 0 - r.closed[i]?.getD 0)).foldl (fun (r : Regs) _ => r.closeWindow (BitVec.ofNat 6 i)) r
  let r := (List.range 64).foldl issued n.regs
  (List.range 64).foldl (fun (r : Regs) i => if cenCur (r.k[i]?.getD 0) < 32 then r.closeWindow (BitVec.ofNat 6 i) else r) r

/-- The home records to be merged: scale register and record address, each once, of the registers closed at least once. -/
def mergeList (n : Node) (r : Regs) : List (Nat × Word) :=
  ((n.desc.handles.zip n.desc.srecs).map fun e => (e.1.kidx, e.2)).foldl (fun (l : List (Nat × Word)) e =>
    if l.contains e || r.closed[e.1]?.getD 0 == 0 then l else l ++ [e]) []

/-- The record's new value, and whether the merge is a stale census (R43). -/
def mergeScale (home : Nat) (k : BitVec 32) (step : Nat) : Nat × Bool :=
  let cstep := home / 2 ^ 32
  let old := BitVec.ofNat 32 home
  let flags := (old ||| k) &&& 0x00600000#32
  if step < cstep then (((old ||| flags).toNat) + cstep * 2 ^ 32, true)
  else
    let prev := if cstep < step then cenPrev k else min (cenPrev old) (cenPrev k)
    let v := if cstep < step then cenV k else cenV old || cenV k
    let e := if cstep < step then fieldN k 0 8 else lowBits 8 (max (scaleE old) (scaleE k))
    let new := (setCensus old v prev (cenCur old) &&& 0xFFFFFF00#32) ||| BitVec.ofNat 32 e ||| flags
    (new.toNat + (if cstep < step then step else cstep) * 2 ^ 32, false)

/-- The places of the records to be merged, all translated for writing; the first fault ends it. DEDUCED: log entry 30. -/
def State.mergePlaces (s : State) (n : Node) : List (Nat × Word) → Except MFault (List (Nat × List Place))
  | [] => .ok []
  | (k, a) :: rest =>
    match s.places n (a.toNat / 2 ^ 44) (a.toNat % 2 ^ 44) 8 with
    | .error f => .error f
    | .ok ps =>
      match State.mergePlaces s n rest with
      | .error f => .error f
      | .ok l => .ok ((k, ps) :: l)

/-- The physical addresses among places. -/
def physOf (l : List Place) : List Nat := l.filterMap fun p => match p with
  | .phys pa _ => some pa
  | _ => none

/-- One merge at its home (R43); the record's bytes keep their poison marks. -/
def State.mergeAt (s : State) (uid : Nat) (k : BitVec 32) (step : Nat) (pas : List Nat) : State :=
  let home := leNat (pas.map s.byte)
  let m := mergeScale home k step
  let s := pas.zipIdx.foldl (fun (s : State) e => s.setByte e.1 (BitVec.ofNat 8 (m.1 / 2 ^ (8 * e.2))) (s.poisoned e.1)) s
  if m.2 then s.mapNode uid fun n => { n with run := { n.run with staleCensus := n.run.staleCensus + 1 } } else s

/-! ## The steps of a commit (R360) -/

/-- A node's engines report empty and its raises are answered (R179, R308). -/
def Node.drained (n : Node) : Bool := n.done 0 && n.done 1 && n.done 2 && n.done 3 && n.run.pendingRaise.isEmpty

/-- Steps 2 to 4: how the commit fails, if it does. DEDUCED: log entry 30. -/
def State.commitStop (s : State) (uid : Nat) : Option State :=
  let n := s.node uid
  if n.ctl.guard.isSome then some ((s.countCause uid 0x12).failNode uid (stNodeTrap 0x12))
  else if s.stale n then some (s.memFault uid .generation)
  else
    match s.mergePlaces n (mergeList n n.closeAll) with
    | .error f => some (s.memFault uid f)
    | .ok _ => none

/-- The home records of a node by scale register and physical addresses; none of one that does not translate. -/
def State.mergePAs (s : State) (n : Node) : List (Nat × List Nat) :=
  match s.mergePlaces n (mergeList n n.closeAll) with
  | .ok l => l.map fun e => (e.1, physOf e.2)
  | .error _ => []

/-- The staged bytes become visible; poisoned ones are written as poisoned and counted with the commits of the node's core (R70, R360, R369). Of two
unordered nodes that stage a byte, the one that commits last leaves its value. DESIGN CHOICE: log entry 75. -/
def State.applyStaged (s : State) (uid : Nat) (b : Bytes) : State :=
  let s := b.cells.foldl (fun (s : State) c => s.setByte c.1 c.2 (b.poison.contains c.1)) s
  if b.poison.isEmpty then s else s.countFor uid "poisoned staged data"

/-- The successors of a node are counted down, each appearance once (R64, R70). -/
def State.countDown (s : State) (l : List Nat) : State := l.foldl State.decrement s

/-- Steps 5 and 6: the commit itself; the home records are translated before anything becomes visible (R43). DEDUCED: log entry 30. DEDUCED: log entry 59. -/
def State.commit (s : State) (uid : Nat) : State :=
  let n := s.node uid
  let r := n.closeAll
  let places := n.run.committing.getD (s.mergePAs n)
  let s := s.applyStaged uid n.run.staged
  let s := places.foldl (fun (s : State) e => s.mergeAt uid (r.k[e.1]?.getD 0) n.ctl.step.toNat e.2) s
  let s : State := match n.desc.jcb with
    | none => s
    | some j =>
      let s := if n.run.late = 0 then s else s.jcbOr j 4
      if n.desc.image.unstg && n.run.doneIssued then s
      else { s with awl := { s.awl with posts := s.awl.posts ++ [{ uid := uid, queue := n.desc.queue, jcb := j, fail := none }] } }
  let s := s.countMany uid "refused raises at commit" n.run.refused
  let s := s.countMany uid "stale census merges at commit" (s.node uid).run.staleCensus
  let s := (s.countDown n.desc.succs).nextReady
  let s := (s.endRun uid .committed 0 none).mapNode uid fun n => { n with run := { n.run with compareRollbacks := 0 } }
  s.unsplice uid

/-- The pair of a member has reached DRAIN (R126). -/
def State.pairDrained (s : State) (n : Node) : Bool :=
  let sp := s.pairOf n.desc.uid
  sp.st == .drain && sp.p == n.desc.uid && (s.node n.run.partner).drained

/-- NODE_COMMIT (R360): After the engines drain, a node commits its staged lines, merges its census and posts its completion. With the producer of a pair
the consumer's commit begins too: nothing stops it any more, and it follows in a step of its own (R126). -/
def execNodeCommit (uid : Nat) (σ : State) : Result :=
  let n := σ.node uid
  let q := n.run.partner
  if uid = 0 || n.run.st != .retiring || n.run.quiesced || !n.drained || (q != 0 && !σ.pairDrained n) then .fault (.notEnabled "NODE_COMMIT")
  else if n.run.committing.isSome then .next (σ.commit uid)
  else
    match σ.commitStop uid <|> (if q = 0 then none else σ.commitStop q) with
    | some σ => .next σ.clearBnd
    | none => .next ((if q = 0 then σ else σ.mapNode q fun c => { c with run := { c.run with partner := 0, committing := some (σ.mergePAs c) } }).commit uid)

end Sys2Proof.Machine
end

