-- ==== Sys2Proof/Machine/Memory.lean ====
section
/-! DEFINITION. The words of class SM, atomics, and the scratchpad handle words HLD and HST (R209, R267 to R272). -/

namespace Sys2Proof.Machine

/-- The parts of a tensor-relative address (R54). -/
def addrTid (ea : Word) : Nat := fieldN ea 44 20
def addrOff (ea : Word) : Nat := fieldN ea 0 44

/-- The access address of a scalar memory word (R268). -/
def State.ea (s : State) (a : BitVec 5) (off : Int) : Word := wordOf (s.sv a + off)

/-- The read of `len` bytes that the node has performed ahead (R287), if any. -/
def Run.early (r : Run) (tid off len : Nat) : Option (List (Byte × Bool)) :=
  (r.ahead.find? fun e => e.tid == tid && e.off == off && e.bytes.length == len).map (·.bytes)

/-- What a scalar read delivers: what the node has read ahead for this very access; otherwise what memory holds, and then nothing of these bytes that it has read ahead
stands, so that its reads of a byte never go back in that byte's order of writes (R287, R288). DESIGN CHOICE: log entry 91. -/
def State.delivered (s : State) (tid off : Nat) (bs : List (Byte × Bool)) : List (Byte × Bool) × State :=
  match s.cur.run.early tid off bs.length with
  | some e => (e, s)
  | none => (bs, s.forget (s.placesOf s.cur tid off bs.length))

/-- A scalar read of `len` bytes (R268, R269): `k` receives the value read, little-endian. -/
def State.load (s : State) (ea : Word) (len : Nat) (k : State → Nat → State) : State :=
  if ea.toNat % len ≠ 0 then s.trapLater 6 0x10 ea
  else
    match s.readBytes s.cur (addrTid ea) (addrOff ea) len with
    | .error f => s.wordFault f ea
    | .ok (bs, g) =>
      let (bs, t) := s.delivered (addrTid ea) (addrOff ea) bs
      if bs.any (·.2) then s.consume else k (t.touch s.cur.desc.uid 0 (some s.bnd.addr) g) (leNat (bs.map (·.1)))

/-- A read of a node's front end ahead of the word that asks for it (R287): of `len` bytes, a power of two as scalar reads have. A node with stores that are still to be
performed, or in a pair, reads nothing ahead. DESIGN CHOICE: log entry 91. -/
def State.lookAhead (s : State) (uid tid off len : Nat) : State :=
  let n := s.node uid
  if n.run.st ≠ .running ∨ n.run.quiesced ∨ n.run.partner ≠ 0 ∨ s.late.any (·.uid == uid) ∨ ¬[1, 2, 4, 8, 32].contains len ∨ off % len ≠ 0 then s
  else
    match s.readBytes n tid off len with
    | .ok (bs, none) =>
      let l := s.placesOf n tid off len
      s.setNode { n with run := { n.run with ahead := (n.run.ahead.filter fun e => disjointPlaces e.places l) ++ [{ tid := tid, off := off, bytes := bs, places := l }] } }
    | _ => s

/-- A write through a TID that the node declares only IN: a precise handle fault (R65, DEDUCED, log entry 10). -/
def State.modeChecked (s : State) (tid : Nat) (k : State → State) : State := if writeMode s.cur tid then k s else s.trapHere 5 0

/-- The places of a store whose performance comes later, when the bundle has issued so: an unstaged node's, beyond the pool (R287). DESIGN CHOICE: log entry 91. -/
def State.defers (s : State) (tid off len : Nat) : Option (List Place) :=
  if !s.bnd.late || !s.cur.desc.image.unstg then none
  else
    match s.places s.cur tid off len with
    | .ok ps => if ps.all Place.beyondPool then some ps else none
    | .error _ => none

/-- Write `len` bytes at a tensor-relative address (R269). Nothing of these bytes that the node has read ahead stands (R205). -/
def State.storeAt (s : State) (ea : Word) (len v : Nat) : State :=
  let l := (leBytes v len).map fun b => (b, false)
  let t := s.forget (s.placesOf s.cur (addrTid ea) (addrOff ea) len)
  match s.defers (addrTid ea) (addrOff ea) len with
  | some ps => { t with late := s.late ++ [{ uid := s.cur.desc.uid, bytes := ps.zip l }] }
  | none =>
    match t.writeBytes s.cur.desc.uid 0 (some s.bnd.addr) (addrTid ea) (addrOff ea) l with
    | .error f => s.wordFault f ea
    | .ok s => s

/-- A scalar write of `len` bytes (R268, R269). DEDUCED: log entry 10. -/
def State.store (s : State) (ea : Word) (len v : Nat) : State :=
  if ea.toNat % len ≠ 0 then s.trapLater 6 0x10 ea
  else s.modeChecked (addrTid ea) fun s => s.storeAt ea len v

/-- A load into a scalar register, sign-extended or zero-extended (R268). -/
def State.loadS (s : State) (d : BitVec 5) (ea : Word) (len : Nat) (signed : Bool) : State :=
  s.load ea len fun s v => s.pushS 6 d (if signed then wordOf (signExt (8 * len) (v : Int)) else BitVec.ofNat 64 v)

/-- The new value of an atomic, or none when nothing is written (R271). The values are the w-bit patterns. DEDUCED: log entry 37. -/
def amoNew (op : Nat) (w old b d : Nat) : Option Nat :=
  let so := signExt w (old : Int)
  let sb := signExt w (b : Int)
  if op = 0 then some ((old + b) % 2 ^ w)
  else if op = 1 then some (lowBits w (satI w (so + sb)).1)
  else if op = 2 then some (lowBits w (min so sb))
  else if op = 3 then some (lowBits w (max so sb))
  else if op = 4 then some (old &&& b)
  else if op = 5 then some (old ||| b)
  else if op = 6 then some (old ^^^ b)
  else if op = 7 then some b
  else if op = 8 then (if old = d then some b else none)
  else some (if b ≤ old then 0 else old + 1)

/-- A host-level atomic is FetchAdd, Swap or CAS (R272). -/
def amoHostOk (op : Nat) : Bool := op == 0 || op == 7 || op == 8

/-- Write bytes of an atomic at its places: at once, never staged (R272). -/
def State.amoWrite (s : State) (l : List (Place × Byte)) : State :=
  l.foldl (fun s e => match e.1 with
    | .pool _ true => s
    | .pool x false => s.mapRun fun r => { r with scr := r.scr.putScr x e.2 false }
    | .phys pa _ => s.setByte pa e.2 false) s

/-- The place of an atomic at which it cannot execute: a line that the node holds staged, or a host operation beyond R272. DEDUCED: log entry 37. -/
def Node.amoBarred (n : Node) (op : Nat) (pl : Place) : Bool :=
  match pl with
  | .pool _ _ => false
  | .phys pa _ => n.run.staged.cells.any (fun c => c.1 / 64 == pa / 64) || (decide (2 ^ 63 + 2 ^ 62 ≤ pa) && !amoHostOk op)

/-- The byte that an atomic reads at a place, past the node's own staging (R272) and its splice partner's (DESIGN CHOICE: log entry 99); padding reads zero (R33). -/
def State.amoByte (s : State) (tid off : Nat) (pl : Place) : Byte × Bool :=
  match pl with
  | .pool _ true => (0, false)
  | .pool x false => if s.cur.padding tid off then (0, false) else ((cellGet? s.cur.run.scr.cells x).getD 0, s.cur.run.scr.poison.contains x)
  | .phys pa p => if s.cur.padding tid off then (0, p) else (s.byte pa, s.poisoned pa || p)

/-- ACQ of an atomic (R271). -/
def amoAcq (ext : Option (BitVec 25)) : Bool := match ext with
  | some e => e.getLsbD 0
  | none => false

/-- An atomic (R271, R272). `op` counts the words of R271 from ADD; `acq`: its ACQ. DEDUCED: log entry 37. -/
def State.amo (s : State) (op : Nat) (d a b : BitVec 5) (wide : BitVec 1) (acq : Bool) : State :=
  let len := if wide = 1 then 8 else 4
  let w := 8 * len
  let ea := s.cur.s a
  if ea.toNat % len ≠ 0 then s.trapLater 6 0x10 ea
  else s.modeChecked (addrTid ea) fun s =>
    match s.places s.cur (addrTid ea) (addrOff ea) len with
    | .error f => s.wordFault f ea
    | .ok ps =>
      if ps.any (s.cur.amoBarred op) then s.trapLater 6 0x11 ea
      else if ps.any Place.beyondPool && s.stale s.cur then s.wordFault .generation ea
      else
        let bs := ps.zipIdx.map fun e => s.amoByte (addrTid ea) (addrOff ea + e.2) e.1
        if bs.any (·.2) then s.consume
        else
          let old := leNat (bs.map (·.1))
          let s := match amoNew op w old (s.uv b % 2 ^ w) (s.uv d % 2 ^ w) with
            | some v => s.amoWrite (ps.zip (leBytes v len))
            | none => s
          let s := if acq then s.acquire else s.forget ps
          let s := if ps.any Place.beyondPool then s.mapRun fun r => { r with irrev := true } else s
          let s := s.touch s.cur.desc.uid 0 (some s.bnd.addr) (firstGuard ps)
          s.pushS 6 d (if op = 9 then BitVec.ofNat 64 old else wordOf (signExt w (old : Int)))

/-- A scratchpad handle word (R209): its alignment, then that its 32 bytes lie in a scratchpad tensor of the node. -/
def State.scratchHandle (s : State) (ea : Word) (k : State → State) : State :=
  if ea.toNat % 32 ≠ 0 then s.trapHere 0x10 ea
  else
    match s.cur.scratch (addrTid ea) with
    | none => s.trapHere 0x11 ea
    | some (_, size) => if size < addrOff ea + 32 then s.trapHere 0x11 (tensorAddr (addrTid ea) (max size (addrOff ea))) else k s

/-- LD.b (R268): Loads one byte, sign-extended, into sD. -/
def execLdB (q : BitVec 2) (g : BitVec 4) (d : BitVec 5) (a : BitVec 5) (f : BitVec 6) (ext : Option (BitVec 25)) (σ : State) : Result :=
  word (.ldB q g d a f ext) σ fun σ => σ.loadS d (σ.ea a (immS 6 f ext * 1)) 1 true

/-- LD.h (R268): Loads two bytes, sign-extended, into sD. -/
def execLdH (q : BitVec 2) (g : BitVec 4) (d : BitVec 5) (a : BitVec 5) (f : BitVec 6) (ext : Option (BitVec 25)) (σ : State) : Result :=
  word (.ldH q g d a f ext) σ fun σ => σ.loadS d (σ.ea a (immS 6 f ext * 2)) 2 true

/-- LD.w (R268): Loads four bytes, sign-extended, into sD. -/
def execLdW (q : BitVec 2) (g : BitVec 4) (d : BitVec 5) (a : BitVec 5) (f : BitVec 6) (ext : Option (BitVec 25)) (σ : State) : Result :=
  word (.ldW q g d a f ext) σ fun σ => σ.loadS d (σ.ea a (immS 6 f ext * 4)) 4 true

/-- LD.d (R268): Loads eight bytes into sD. -/
def execLdD (q : BitVec 2) (g : BitVec 4) (d : BitVec 5) (a : BitVec 5) (f : BitVec 6) (ext : Option (BitVec 25)) (σ : State) : Result :=
  word (.ldD q g d a f ext) σ fun σ => σ.loadS d (σ.ea a (immS 6 f ext * 8)) 8 false

/-- LD.w8 (R268): Loads one byte, zero-extended, into sD. -/
def execLdW8 (q : BitVec 2) (g : BitVec 4) (d : BitVec 5) (a : BitVec 5) (f : BitVec 6) (ext : Option (BitVec 25)) (σ : State) : Result :=
  word (.ldW8 q g d a f ext) σ fun σ => σ.loadS d (σ.ea a (immS 6 f ext * 1)) 1 false

/-- LD.w16 (R268): Loads two bytes, zero-extended, into sD. -/
def execLdW16 (q : BitVec 2) (g : BitVec 4) (d : BitVec 5) (a : BitVec 5) (f : BitVec 6) (ext : Option (BitVec 25)) (σ : State) : Result :=
  word (.ldW16 q g d a f ext) σ fun σ => σ.loadS d (σ.ea a (immS 6 f ext * 2)) 2 false

/-- LD.w32 (R268): Loads four bytes, zero-extended, into sD. -/
def execLdW32 (q : BitVec 2) (g : BitVec 4) (d : BitVec 5) (a : BitVec 5) (f : BitVec 6) (ext : Option (BitVec 25)) (σ : State) : Result :=
  word (.ldW32 q g d a f ext) σ fun σ => σ.loadS d (σ.ea a (immS 6 f ext * 4)) 4 false

/-- LD.acq (R270): Loads a value with acquire at the encoded scope. -/
def execLdAcq (q : BitVec 2) (g : BitVec 4) (d : BitVec 5) (a : BitVec 5) (z : BitVec 2) (s : BitVec 4) (σ : State) : Result :=
  word (.ldAcq q g d a z s) σ fun σ => σ.acquire.loadS d (σ.cur.s a) (2 ^ z.toNat) true

/-- ST.b (R268): Stores the low byte of sV. -/
def execStB (q : BitVec 2) (g : BitVec 4) (v : BitVec 5) (a : BitVec 5) (f : BitVec 6) (ext : Option (BitVec 25)) (σ : State) : Result :=
  word (.stB q g v a f ext) σ fun σ => σ.store (σ.ea a (immS 6 f ext * 1)) 1 (σ.uv v)

/-- ST.h (R268): Stores the low two bytes of sV. -/
def execStH (q : BitVec 2) (g : BitVec 4) (v : BitVec 5) (a : BitVec 5) (f : BitVec 6) (ext : Option (BitVec 25)) (σ : State) : Result :=
  word (.stH q g v a f ext) σ fun σ => σ.store (σ.ea a (immS 6 f ext * 2)) 2 (σ.uv v)

/-- ST.w (R268): Stores the low four bytes of sV. -/
def execStW (q : BitVec 2) (g : BitVec 4) (v : BitVec 5) (a : BitVec 5) (f : BitVec 6) (ext : Option (BitVec 25)) (σ : State) : Result :=
  word (.stW q g v a f ext) σ fun σ => σ.store (σ.ea a (immS 6 f ext * 4)) 4 (σ.uv v)

/-- ST.d (R268): Stores the eight bytes of sV. -/
def execStD (q : BitVec 2) (g : BitVec 4) (v : BitVec 5) (a : BitVec 5) (f : BitVec 6) (ext : Option (BitVec 25)) (σ : State) : Result :=
  word (.stD q g v a f ext) σ fun σ => σ.store (σ.ea a (immS 6 f ext * 8)) 8 (σ.uv v)

/-- ST.rel (R270): Stores a value with release at the encoded scope. -/
def execStRel (q : BitVec 2) (g : BitVec 4) (v : BitVec 5) (a : BitVec 5) (z : BitVec 2) (s : BitVec 4) (σ : State) : Result :=
  word (.stRel q g v a z s) σ fun σ => σ.store (σ.cur.s a) (2 ^ z.toNat) (σ.uv v)

/-- LDH (R268): Loads 32 bytes into handle hD, from any level. -/
def execLdh (q : BitVec 2) (g : BitVec 4) (h : BitVec 4) (a : BitVec 5) (f : BitVec 7) (ext : Option (BitVec 25)) (σ : State) : Result :=
  word (.ldh q g h a f ext) σ fun σ => σ.load (σ.ea a (32 * (immU 7 f ext : Int))) 32 fun σ v => σ.push 6 (.h h (BitVec.ofNat 256 v))

/-- STH (R268): Stores the 256 bits of handle hB. -/
def execSth (q : BitVec 2) (g : BitVec 4) (h : BitVec 4) (a : BitVec 5) (f : BitVec 7) (ext : Option (BitVec 25)) (σ : State) : Result :=
  word (.sth q g h a f ext) σ fun σ => σ.store (σ.ea a (32 * (immU 7 f ext : Int))) 32 (σ.cur.regs.h[h.toNat]).toNat

/-- AMO.ADD (R271): Atomically adds, wrapping, at the home of the location and returns the old value. -/
def execAmoAdd (q : BitVec 2) (g : BitVec 4) (d : BitVec 5) (a : BitVec 5) (b : BitVec 5) (w : BitVec 1) (ext : Option (BitVec 25)) (σ : State) : Result :=
  word (.amoAdd q g d a b w ext) σ fun σ => σ.amo 0 d a b w (amoAcq ext)

/-- AMO.ADDS (R271): Atomically adds with saturation and returns the old value. -/
def execAmoAdds (q : BitVec 2) (g : BitVec 4) (d : BitVec 5) (a : BitVec 5) (b : BitVec 5) (w : BitVec 1) (ext : Option (BitVec 25)) (σ : State) : Result :=
  word (.amoAdds q g d a b w ext) σ fun σ => σ.amo 1 d a b w (amoAcq ext)

/-- AMO.MIN (R271): Atomically takes the signed minimum and returns the old value. -/
def execAmoMin (q : BitVec 2) (g : BitVec 4) (d : BitVec 5) (a : BitVec 5) (b : BitVec 5) (w : BitVec 1) (ext : Option (BitVec 25)) (σ : State) : Result :=
  word (.amoMin q g d a b w ext) σ fun σ => σ.amo 2 d a b w (amoAcq ext)

/-- AMO.MAX (R271): Atomically takes the signed maximum and returns the old value. -/
def execAmoMax (q : BitVec 2) (g : BitVec 4) (d : BitVec 5) (a : BitVec 5) (b : BitVec 5) (w : BitVec 1) (ext : Option (BitVec 25)) (σ : State) : Result :=
  word (.amoMax q g d a b w ext) σ fun σ => σ.amo 3 d a b w (amoAcq ext)

/-- AMO.AND (R271): Atomically ANDs the operand into the location and returns the old value. -/
def execAmoAnd (q : BitVec 2) (g : BitVec 4) (d : BitVec 5) (a : BitVec 5) (b : BitVec 5) (w : BitVec 1) (ext : Option (BitVec 25)) (σ : State) : Result :=
  word (.amoAnd q g d a b w ext) σ fun σ => σ.amo 4 d a b w (amoAcq ext)

/-- AMO.OR (R271): Atomically ORs the operand into the location and returns the old value. -/
def execAmoOr (q : BitVec 2) (g : BitVec 4) (d : BitVec 5) (a : BitVec 5) (b : BitVec 5) (w : BitVec 1) (ext : Option (BitVec 25)) (σ : State) : Result :=
  word (.amoOr q g d a b w ext) σ fun σ => σ.amo 5 d a b w (amoAcq ext)

/-- AMO.XOR (R271): Atomically XORs the operand into the location and returns the old value. -/
def execAmoXor (q : BitVec 2) (g : BitVec 4) (d : BitVec 5) (a : BitVec 5) (b : BitVec 5) (w : BitVec 1) (ext : Option (BitVec 25)) (σ : State) : Result :=
  word (.amoXor q g d a b w ext) σ fun σ => σ.amo 6 d a b w (amoAcq ext)

/-- AMO.SWAP (R271): Atomically swaps in the operand and returns the old value. -/
def execAmoSwap (q : BitVec 2) (g : BitVec 4) (d : BitVec 5) (a : BitVec 5) (b : BitVec 5) (w : BitVec 1) (ext : Option (BitVec 25)) (σ : State) : Result :=
  word (.amoSwap q g d a b w ext) σ fun σ => σ.amo 7 d a b w (amoAcq ext)

/-- AMO.CAS (R271): Atomically writes bv when the old value equals the expected value in sD. -/
def execAmoCas (q : BitVec 2) (g : BitVec 4) (d : BitVec 5) (a : BitVec 5) (b : BitVec 5) (w : BitVec 1) (ext : Option (BitVec 25)) (σ : State) : Result :=
  word (.amoCas q g d a b w ext) σ fun σ => σ.amo 8 d a b w (amoAcq ext)

/-- AMO.INCW (R271): Atomically increments the value, wrapping it to 0 when it reaches the bound bv. -/
def execAmoIncw (q : BitVec 2) (g : BitVec 4) (d : BitVec 5) (a : BitVec 5) (b : BitVec 5) (w : BitVec 1) (ext : Option (BitVec 25)) (σ : State) : Result :=
  word (.amoIncw q g d a b w ext) σ fun σ => σ.amo 9 d a b w (amoAcq ext)

/-- HLD (R209): Loads a handle from the node's scratchpad. -/
def execHld (q : BitVec 2) (g : BitVec 4) (h : BitVec 4) (f : BitVec 8) (a : BitVec 5) (σ : State) : Result :=
  word (.hld q g h f a) σ fun σ =>
    let ea := σ.ea a (32 * (f.toNat : Int))
    σ.scratchHandle ea fun σ => σ.load ea 32 fun σ v => σ.push 6 (.h h (BitVec.ofNat 256 v))

/-- HST (R209): Stores a handle to the node's scratchpad. -/
def execHst (q : BitVec 2) (g : BitVec 4) (h : BitVec 4) (f : BitVec 8) (a : BitVec 5) (σ : State) : Result :=
  word (.hst q g h f a) σ fun σ =>
    let ea := σ.ea a (32 * (f.toNat : Int))
    σ.scratchHandle ea fun σ => σ.storeAt ea 32 (σ.cur.regs.h[h.toNat]).toNat

end Sys2Proof.Machine
end

