-- ==== Sys2Proof/Machine/Packet.lean ====
section
/-! DEFINITION. Command packets: their checks, their steps and effects, the ENQ inbox, flips, mailbox records and the executive (R73, R77 to R90, R108, R109, R259 to R266, R313). -/

namespace Sys2Proof.Machine

/-! ## Fields and ranges (R73, R80) -/

/-- Every body byte outside the listed fields is zero. DEDUCED: log entry 42. -/
def bodyOk (p : BitVec 512) (used : List (Nat × Nat)) : Bool :=
  (List.range 48).all fun i => pk p (16 + i) 1 == 0 || used.any fun u => decide (u.1 ≤ 16 + i) && decide (16 + i < u.1 + u.2)

/-- The body fields of a type: offset and size. -/
def bodyFields (ty : Nat) : List (Nat × Nat) :=
  match ty with
  | 1 => [(0x10, 8), (0x18, 4), (0x1C, 4), (0x20, 4)]
  | 2 => [(0x10, 8), (0x18, 4), (0x1C, 4)]
  | 3 => [(0x10, 8), (0x18, 1), (0x20, 32)]
  | 4 => [(0x10, 8), (0x18, 8), (0x20, 1)]
  | 5 => [(0x10, 8), (0x18, 1), (0x19, 1), (0x20, 16), (0x30, 8), (0x38, 8)]
  | 6 => [(0x10, 1), (0x12, 2)]
  | 7 => [(0x10, 1), (0x12, 2)]
  | 8 => [(0x10, 8), (0x18, 8), (0x20, 4)]
  | 9 => [(0x10, 1), (0x11, 1)]
  | 10 => [(0x10, 1), (0x14, 4)]
  | 11 => [(0x10, 1), (0x11, 1), (0x12, 2)]
  | 12 => [(0x10, 1), (0x12, 2), (0x14, 1), (0x15, 1), (0x16, 1), (0x17, 1)]
  | 13 => [(0x10, 1), (0x12, 2), (0x14, 1), (0x15, 1), (0x16, 2), (0x18, 4), (0x1C, 1), (0x1D, 1), (0x1E, 1), (0x20, 8)]
  | 14 => [(0x10, 1), (0x18, 8), (0x20, 8), (0x28, 4)]
  | _ => []

/-- Every field lies in its range (R80); fields of another OP than the packet's are ignored. DESIGN CHOICE: log entry 88. A stack mask of BIND RESERVE
with one of bits 7:4 set is out of its range. DESIGN CHOICE: log entry 94. -/
def fieldsOk (p : BitVec 512) : Bool :=
  let f := pk p
  match f 0 1 with
  | 1 => f 0x10 8 % 64 == 0 && decide (1 ≤ f 0x18 4) && decide (f 0x18 4 ≤ 1048576)
  | 2 => f 0x10 8 % 64 == 0
  | 3 => decide (1 ≤ f 0x18 1) && decide (f 0x18 1 ≤ 32)
  | 4 => f 0x10 8 % 8 == 0 && decide (f 0x20 1 ≤ 1)
  | 5 => decide (1 ≤ f 0x18 1) && decide (f 0x18 1 ≤ 16) && decide (f 0x19 1 ≤ 1) && f 0x30 8 % 8 == 0
  | 6 => decide (f 0x10 1 ≤ 63) && f 0x12 2 != 0
  | 7 => decide (f 0x10 1 ≤ 63) && f 0x12 2 != 0
  | 8 => f 0x20 4 != 0
  | 9 => (f 0x10 1 == 6 || f 0x10 1 == 7 || f 0x10 1 == 12) && f 0x11 1 % 4 != 0
  | 10 => decide (f 0x10 1 ≤ 63)
  | 11 => decide (f 0x10 1 ≤ 63) && decide (f 0x11 1 ≤ 7)
  | 12 =>
    match f 0x10 1 with
    | 0 => decide (f 0x12 2 ≤ 1023) && (f 0x14 1 == 2 || f 0x14 1 == 4)
    | 1 => decide (f 0x12 2 ≤ 1023)
    | 2 => f 0x15 1 != 0 && decide (f 0x15 1 < 16) && decide (f 0x16 1 ≤ f 0x17 1) && decide (f 0x17 1 ≤ 64)
    | _ => false
  | 13 =>
    match f 0x10 1 with
    | 0 => decide (f 0x12 2 ≤ 1023) && decide (f 0x1D 1 ≤ 17) && decide (f 0x1E 1 ≤ 2)
    | 1 => decide (f 0x16 2 ≤ 255)
    | 2 => decide (f 0x14 1 ≤ 11) && decide (f 0x15 1 ≤ 8)
    | 3 => decide (f 0x12 2 ≤ 1023)
    | 4 => true
    | _ => false
  | 14 => decide (f 0x10 1 ≤ 1)
  | _ => false

/-- The error that a packet's header and body give before it runs (R73, R80): BAD_TYPE, FMT_RESERVED or BAD_FIELD. DEDUCED: log entry 42. -/
def packetError (p : BitVec 512) : Option (BitVec 16) :=
  let ty := pk p 0 1
  if ty = 0 ∨ 14 < ty then some 1
  else if 8 ≤ pk p 1 1 ∨ bitsOf (pk p 6 2) 14 12 ≠ 0 ∨ !bodyOk p (bodyFields ty) ∨ (ty = 9 ∧ 4 ≤ pk p 0x11 1) then some 2
  else if !fieldsOk p then some 3
  else none

/-- The job control block of a header (R73). DEDUCED: log entry 43. -/
def headerJcb (p : BitVec 512) : Option (BitVec 12) := if (pk p 6 2).testBit 15 then some (BitVec.ofNat 12 (pk p 6 2)) else none

/-! ## Writes that the Awl makes (R54, R71, R252, R253, R264) -/

/-- A byte of the firmware tensor that a host packet may write (R252): the listed fields of the configuration block and of the space descriptors,
and the job control blocks, whose reserved bytes read zero (R2). DEDUCED: log entry 42. DEDUCED: log entry 71. -/
def firmwareByte (o : Nat) : Bool :=
  (decide (o < 0x100) && (decide (o < 4) || (decide (8 ≤ o) && decide (o < 0x11)) || (decide (0x14 ≤ o) && decide (o < 0x1C)))) ||
    (decide (0x1000 ≤ o) && decide (o < 0x2000) && decide (o % 64 < 0x28)) || (decide (0x10000 ≤ o) && decide (o < 0x50000))

/-- A range of addresses that a host packet may write: beyond the firmware tensor, or bytes of it that are not the Awl's or reserved (R252). -/
def firmwareRange (addr n : Nat) : Bool := addr / 2 ^ 44 != 0xFFFFF || (List.range n).all fun i => firmwareByte (addr % 2 ^ 44 + i)

/-- The values that a write leaves in the configuration block are legal (R253). `s`: after the write. -/
def State.configOk (s : State) (touched : List Nat) : Bool :=
  let stg := s.rd (ringPA 0) 4
  let mbox := s.rd (ringPA 8) 8
  let lg := s.rd (ringPA 16) 1
  let hits := fun (lo hi : Nat) => touched.any fun o => decide (lo ≤ o) && decide (o < hi)
  (!hits 0 4 || (decide (256 ≤ stg) && decide (stg ≤ 8192))) && (!hits 8 16 || mbox % 32 == 0) && (!hits 16 17 || (decide (4 ≤ lg) && decide (lg ≤ 12)))

/-- The spaces whose ASGEN a write has changed; none when one changed to other than ASGEN + 1 (R264). -/
def State.asgenChanges (old new : State) (touched : List Nat) : Option (List Nat) :=
  let sps := (List.range 64).filter fun k => touched.any fun o => o == 0x1000 + 64 * k || o == 0x1001 + 64 * k
  let changed := sps.filter fun k => (old.space (BitVec.ofNat 6 k)).asgen != (new.space (BitVec.ofNat 6 k)).asgen
  if changed.all fun k => (new.space (BitVec.ofNat 6 k)).asgen == (old.space (BitVec.ofNat 6 k)).asgen + 1 then some changed else none

/-- A new generation of a space is in force (R264): its instruction memory is no longer resident. -/
def State.newGeneration (s : State) (k : Nat) (q : BitVec 6) (index : BitVec 32) : State :=
  { s with cores := s.cores.map (fun c => { c with imem := c.imem.filter fun r => r.space != BitVec.ofNat 6 k }),
           awl := { s.awl with asChange := s.awl.asChange ++ [(k, (s.space (BitVec.ofNat 6 k)).asgen, q, index)] } }

/-- The owner of the job control blocks whose SIGADDR, SIGVAL or BFLAGS a host packet writes (R71). -/
def State.ownJcbs (s : State) (q : BitVec 6) (touched : List Nat) : State :=
  let js := (touched.filterMap fun o => if 0x10000 ≤ o ∧ o < 0x50000 ∧ 0x0C ≤ o % 64 ∧ o % 64 < 0x20 then some ((o - 0x10000) / 64) else none).foldl setAdd []
  { s with awl := { s.awl with jcbOwner := (s.awl.jcbOwner.filter fun e => !js.contains e.1) ++ js.map fun j => (j, q.toNat) } }

/-- A write of a packet stands when every byte of the firmware tensor that it touches may be written, with legal values (R252, R253, R264):
the state, and the spaces with a new generation. `s'`: after the write. -/
def State.awlStands (s s' : State) (q : BitVec 6) (fw : List Nat) : Except (BitVec 16) (State × List Nat) :=
  if !(fw.all firmwareByte) || !s'.configOk fw then .error 3
  else
    match State.asgenChanges s s' fw with
    | none => .error 3
    | some ks => .ok (s'.ownJcbs q fw, ks)

/-- The offset in the firmware tensor that an address names, if it names one. -/
def firmwareOff (addr : Nat) : Option Nat := if addr / 2 ^ 44 = 0xFFFFF then some (addr % 2 ^ 44) else none

/-- The bits of a byte of the firmware tensor that are not reserved: of AFLAGS bit 0 (R254), of a job control block's STATUS bits 4:0, of its BFLAGS bits 1:0, and nothing
of its last 24 bytes (R71). -/
def firmwareBits (o : Nat) : Byte :=
  let d := o % 64
  if 0x1000 ≤ o ∧ o < 0x2000 then (if d = 2 then 0x01 else if d = 3 then 0 else 0xFF)
  else if 0x10000 ≤ o ∧ o < 0x50000 then
    (if d = 8 then 0x1F else if d = 0x0C then 0x03 else if (9 ≤ d ∧ d < 0x0C) ∨ (0x0D ≤ d ∧ d < 0x10) ∨ 0x28 ≤ d then 0 else 0xFF)
  else 0xFF

/-- A byte as a host packet leaves it at an address: reserved bits of the firmware tensor stay zero (R2). DEDUCED: log entry 71. -/
def awlByte (addr : Nat) (b : Byte) : Byte := match firmwareOff addr with
  | some o => b &&& firmwareBits o
  | none => b

/-- Write bytes with poison marks to a tensor-relative range for a packet: a status of the error class, or the state and the spaces with a new
generation. Every byte is checked before any is written. -/
def State.awlWrite (s : State) (q : BitVec 6) (host : Bool) (addr : Nat) (l : List (Byte × Bool)) : Except (BitVec 16) (State × List Nat) :=
  let pas := (List.range l.length).map fun i => s.awlPA q host (addr + i) true
  if pas.any (·.isNone) then .error 6
  else
    let s' := (pas.zip l).zipIdx.foldl (fun (s : State) e => match e.1.1 with
      | some (pa, _) => s.setByte pa (awlByte (addr + e.2) e.1.2.1) e.1.2.2
      | none => s) s
    s.awlStands s' q ((List.range l.length).filterMap fun i => firmwareOff (addr + i))

/-- A signal word: a store of a value, or a wrapping add (R80). -/
def State.awlSignal (s : State) (q : BitVec 6) (host : Bool) (addr value op : Nat) : Except (BitVec 16) (State × List Nat) :=
  match s.awlRead q host addr 8 with
  | none => .error 6
  | some l =>
    let v := if op = 0 then value else (leNat l + value) % 2 ^ 64
    s.awlWrite q host addr ((leBytes v 8).map fun b => (b, false))

/-- The bytes of a COPY packet, forward one by one (R80); none where one does not translate. -/
def State.copyBytes (s : State) (q : BitVec 6) (src dst : Nat) : Nat → Option State
  | 0 => some s
  | n + 1 =>
    match s.awlBytes q true src 1, s.awlPA q true dst true with
    | some [(b, p)], some (pa, _) => State.copyBytes (s.setByte pa (awlByte dst b) p) q (src + 1) (dst + 1) n
    | _, _ => none

/-- The copy of a COPY packet: it is checked as one write. -/
def State.awlCopy (s : State) (q : BitVec 6) (src dst n : Nat) : Except (BitVec 16) (State × List Nat) :=
  match s.copyBytes q src dst n with
  | none => .error 6
  | some s' => s.awlStands s' q ((List.range n).filterMap fun i => firmwareOff (dst + i))

/-! ## The effect of a packet (R80, R81, R86 to R88) -/

/-- How a packet's last step ends: complete with a status, waiting for a graph, under way until another event makes the last step, waiting for tokens,
held until earlier effects are visible, or an error. -/
inductive PacketEnd where
  | done (status : BitVec 16)
  | graph (g : Nat)
  | later
  | tokens
  | hold
  | error (status : BitVec 16)
deriving DecidableEq, Repr

/-- After a write: complete, or once the new generations are acknowledged (R264). -/
def State.written (s : State) (q : BitVec 6) (index : BitVec 32) (ks : List Nat) : State × PacketEnd :=
  if ks.isEmpty then (s, .done 0) else (ks.foldl (fun s k => s.newGeneration k q index) s, .later)

/-- The link of a token packet, when it is enabled and the queue has its role (R86). -/
def State.linkFor (s : State) (q : BitVec 6) (n : Nat) (give : Bool) : Option Link :=
  match s.awl.links[n]? with
  | some l => if l.en && (if give then l.prod == q else l.cons == q) then some l else none
  | none => none

def State.setLink (s : State) (n : Nat) (l : Link) : State := { s with awl := { s.awl with links := s.awl.links.setIfInBounds n l } }

/-- TOKEN.GIVE (R86). -/
def State.tokenGive (s : State) (q : BitVec 6) (n count : Nat) : State × PacketEnd :=
  match s.linkFor q n true with
  | none => (s, .error 4)
  | some l => if 65535 < l.count.toNat + count then (s, .error 5) else (s.setLink n { l with count := BitVec.ofNat 16 (l.count.toNat + count) }, .done 0)

/-- TOKEN.WAIT (R86). -/
def State.tokenWait (s : State) (q : BitVec 6) (n count : Nat) : State × PacketEnd :=
  match s.linkFor q n false with
  | none => (s, .error 4)
  | some l => if l.count.toNat < count then (s, .tokens) else (s.setLink n { l with count := BitVec.ofNat 16 (l.count.toNat - count) }, .done 0)

/-- A refusal is posted to the header's job control block (R79, R393). -/
def State.postRefusal (s : State) (q : BitVec 6) (jcb : Option (BitVec 12)) (code node : Nat) : State :=
  match jcb with
  | none => s
  | some j => { s with awl := { s.awl with posts := s.awl.posts ++ [{ uid := 0, queue := q, jcb := j, fail := some (BitVec.ofNat 20 node, BitVec.ofNat 32 code) }] } }

/-- SLICE (R82): for a queue that does not hold a slice now the change is made at once. -/
def State.sliceChange (s : State) (t : BitVec 6) (prio : BitVec 3) (slice : BitVec 16) : State :=
  let x := s.queue t
  let x := { x with nextSlice := some (slice, prio) }
  s.setQueue t (if x.slice != 0 && s.awl.holder[x.prio.toNat] == some t then x else x.newSlice)

/-- BIND (R102, R105 to R107). -/
def State.bindPacket (s : State) (q : BitVec 6) (index : BitVec 32) (p : BitVec 512) : State × PacketEnd :=
  let core := pk p 0x12 2
  let job : BindJob := { op := BitVec.ofNat 2 (pk p 0x10 1), core := core, width := pk p 0x14 1, cores := [], pkt := p, queue := q, index := index, site := 0, half := 0 }
  match pk p 0x10 1 with
  | 0 =>
    match s.gangCheck core (pk p 0x14 1) with
    | .error e => (s, .done (BitVec.ofNat 16 e))
    | .ok l => (s.startJob { job with cores := l }, .later)
  | 1 =>
    match s.dissolveCheck core with
    | .error e => (s, .done (BitVec.ofNat 16 e))
    | .ok l => (s.startJob { job with cores := l }, .later)
  | _ =>
    let r := (List.range 4).foldl (fun (r : Vector Reserve 4) i =>
      if (pk p 0x15 1).testBit i then r.setIfInBounds i { (r[i]?.getD {}) with nmin := pk p 0x16 1, nmax := pk p 0x17 1 } else r) s.dist.reserve
    ({ s with dist := { s.dist with reserve := r } }, .done 0)

/-- A REPAIR that is over at once: its result record and its status. -/
def State.repairDone (s : State) (q : BitVec 6) (p : BitVec 512) (status moved failed : Nat) : State × PacketEnd :=
  (s.resultRecord q (pk p 0x20 8) status (pk p 0x10 1) moved failed, .done (BitVec.ofNat 16 status))

/-- REPAIR (R363 to R368): nothing is done when the address of its record does not translate (R79), or is one of the firmware tensor that no host packet writes
(R252). DEDUCED: log entry 46. -/
def State.repairPacket (s : State) (q : BitVec 6) (index : BitVec 32) (p : BitVec 512) : State × PacketEnd :=
  let core := pk p 0x12 2
  let job : BindJob := { op := 2, core := core, width := 0, cores := [], pkt := p, queue := q, index := index, site := pk p 0x1D 1, half := BitVec.ofNat 2 (pk p 0x1E 1) }
  if !s.recordFits q (pk p 0x20 8) then (s, .error 6)
  else if !(pk p 0x20 8 == 0 || firmwareRange (pk p 0x20 8) 32) then (s, .error 3)
  else
  match pk p 0x10 1 with
  | 0 =>
    match s.rebindCheck core (pk p 0x1D 1) (BitVec.ofNat 2 (pk p 0x1E 1)) with
    | .error e => s.repairDone q p e 0 0
    | .ok (i, y, plan) => (s.startRebind job i y plan, .later)
  | 1 => if s.repairRoom (pk p 0x16 2) then (s.softRepair (pk p 0x16 2) (pk p 0x1C 1) (pk p 0x18 4)).repairDone q p 0 0 0 else s.repairDone q p 0x63 0 0
  | 2 =>
    let x := s.port (pk p 0x14 1)
    if x.retraining then s.repairDone q p 0x62 0 0
    else if x.degraded then s.repairDone q p 0x64 0 0
    else if x.spareUsed then (s.degrade (pk p 0x14 1)).repairDone q p 0 0 0
    else (s.setPort (pk p 0x14 1) { x with spareUsed := true, retraining := true, laneOut := some (pk p 0x15 1) }).repairDone q p 0 0 0
  | 3 =>
    let c := s.core core
    if !c.active || c.gang ≠ 0 then s.repairDone q p 0x60 0 0
    else if s.jobOn [core] then s.repairDone q p 0x62 0 0
    else (s.startJob { job with op := 3, cores := [core] }, .later)
  | _ =>
    let row := pk p 0x18 4
    if row ≠ 0 ∧ (row < 1200 ∨ 3000 < row) then s.repairDone q p 0x65 0 0
    else
      let s := if row = 0 then s else { s with svc := { s.svc with powerLimit := row } }
      let (k, s) := s.takeFreeNat
      s.repairDone q p 0 0 (k % (s.spareHalves + 12 * 9 + 1))

/-- ATTEST (R90, R370): its operands are reached now, and housekeeping does the rest. -/
def State.attestPacket (s : State) (q : BitVec 6) (index : BitVec 32) (p : BitVec 512) : State × PacketEnd :=
  let quote := pk p 0x10 1 = 0
  let outOk := !quote || (List.range 0x8500).all fun i => (s.awlPA q true (pk p 0x20 8 + i) true).isSome
  match s.awlRead q true (pk p 0x18 8) (if quote then 32 else pk p 0x28 4) with
  | none => (s, .error 6)
  | some l => if !outOk then (s, .error 6) else if quote && !firmwareRange (pk p 0x20 8) 0x8500 then (s, .error 3) else ({ s with awl := { s.awl with sigWork := s.awl.sigWork ++ [{ queue := q, index := index, pkt := p, input := l }] } }, .later)

/-- A launch packet (R67, R80, R393). -/
def State.launchPacket (s : State) (q : BitVec 6) (host : Bool) (parent : Nat) (p : BitVec 512) : State × LaunchEnd :=
  if pk p 0 1 = 1 then
    s.launch q host (pk p 0x10 8) (pk p 0x18 4) false (BitVec.ofNat 32 (pk p 0x1C 4)) (BitVec.ofNat 32 (pk p 0x20 4)) (headerJcb p) parent
  else s.launch q host (pk p 0x10 8) 1 true (BitVec.ofNat 32 (pk p 0x18 4)) (BitVec.ofNat 32 (pk p 0x1C 4)) (headerJcb p) parent

/-- What the queue's completed packets did is not all visible yet (R81): a completion or a failure of a node that it launched is on its way to its job
control block, while the launch has completed. -/
def State.unseen (s : State) (q : BitVec 6) : Bool :=
  s.awl.posts.any fun p => p.queue == q &&
    (p.uid == 0 || ((s.node p.uid).desc.parent == 0 && !(s.queue q).awaiting.any fun a => a.graph == (s.node p.uid).desc.graph))

/-- The effect of a packet of queue q with ring index `index`, at its last step (R80). A packet that a new generation of its space has made stale since it
started writes nothing, and ends with XLATE where it reads (R263). DEDUCED: log entry 62. -/
def State.performPacket (s : State) (q : BitVec 6) (index : BitVec 32) (p : BitVec 512) : State × PacketEnd :=
  let stale := s.packetStale q
  let ty := pk p 0 1
  let reads := ty == 1 || ty == 2 || (ty == 4 && pk p 0x20 1 == 1) || (ty == 5 && pk p 0x19 1 == 1) || ty == 8 || ty == 14
  let w := fun (r : Except (BitVec 16) (State × List Nat)) => match r with
    | .error e => (s, PacketEnd.error e)
    | .ok (s', ks) => if stale then (s.dropWrite, PacketEnd.done 0) else s'.written q index ks
  if stale && reads then (s, .error 6)
  else
  match ty with
  | 3 => w (s.awlWrite q true (pk p 0x10 8) ((leBytes (pk p 0x20 32) (pk p 0x18 1)).map fun b => (b, false)))
  | 4 => w (s.awlSignal q true (pk p 0x10 8) (pk p 0x18 8) (pk p 0x20 1))
  | 5 =>
    match s.awlWrite q true (pk p 0x10 8) ((leBytes (pk p 0x20 16) (pk p 0x18 1)).map fun b => (b, false)) with
    | .error e => (s, .error e)
    | .ok (s', ks) =>
      match s'.awlSignal q true (pk p 0x30 8) (pk p 0x38 8) (pk p 0x19 1) with
      | .error e => (s, .error e)
      | .ok (s', ks') => w (.ok (s', ks ++ ks'))
  | 6 => s.tokenGive q (pk p 0x10 1) (pk p 0x12 2)
  | 7 => s.tokenWait q (pk p 0x10 1) (pk p 0x12 2)
  | 8 => w (s.awlCopy q (pk p 0x10 8) (pk p 0x18 8) (pk p 0x20 4))
  | 9 => if (pk p 0x11 1).testBit 1 && s.unseen q then (s, .hold) else (s, .done 0)
  | 10 =>
    let t := BitVec.ofNat 6 (pk p 0x10 1)
    if (s.queue t).st = .disabled then (s, .error 3) else ((s.startReset t (BitVec.ofNat 32 (pk p 0x14 4)) (some (q, index, p))).settle, .later)
  | 11 => (s.sliceChange (BitVec.ofNat 6 (pk p 0x10 1)) (BitVec.ofNat 3 (pk p 0x11 1)) (BitVec.ofNat 16 (pk p 0x12 2)), .done 0)
  | 12 => s.bindPacket q index p
  | 13 => s.repairPacket q index p
  | 14 => s.attestPacket q index p
  | _ =>
    match s.launchPacket q true 0 p with
    | (s, .graph g) => (s, .graph g)
    | (s, .xlate) => (s, .error 6)
    | (s, .refuse c n) => (s.postRefusal q (headerJcb p) c n, .done (BitVec.ofNat 16 c))

/-! ## Steps of a queue (R77, R78, R84) -/

/-- The steps of a packet (R84). -/
def State.stepsOf (s : State) (q : BitVec 6) (p : BitVec 512) : Nat :=
  let num := fun (a n : Nat) => leNat ((s.awlRead q true a n).getD [])
  let imgLen := fun (a : Nat) =>
    let id := num (a + 8) 8
    if s.awl.validated.any fun e => e.1.toNat == id then 0 else num (a + 0x40) 4
  match pk p 0 1 with
  | 1 =>
    let nodes := (List.range (pk p 0x18 4)).map fun i => pk p 0x10 8 + 512 * i
    let e := (nodes.map fun a => num (a + 0x18) 2).sum
    let imgs := (nodes.map fun a => num (a + 8) 8).foldl setAdd []
    4 + ceilDiv (pk p 0x18 4) 16 + ceilDiv e 64 + ceilDiv ((imgs.map imgLen).sum) 4096
  | 2 => 4 + ceilDiv (imgLen (num (pk p 0x10 8 + 8) 8)) 4096
  | 5 => 2
  | 9 => 2
  | 8 => 1 + ceilDiv (pk p 0x20 4) (2 ^ 20)
  | 10 => 3
  | 12 => 3
  | 13 => 3
  | 14 => 2 + ceilDiv (pk p 0x28 4) 4096
  | _ => 1

/-- The packet at the head of a queue's ring (R76). -/
def State.headPacket (s : State) (q : BitVec 6) : BitVec 512 :=
  let x := s.queue q
  BitVec.ofNat 512 (s.rd (hostAddr (x.qbase.toNat + 64 * (x.head.toNat % x.ring))) 64)

/-- The offsets of a tensor at which a range of addresses enters its frames. -/
def rangeOffsets (addr n : Nat) : List Nat :=
  let off := addr % 2 ^ 44
  if n = 0 then [] else (List.range ((off + n - 1) / 65536 - off / 65536 + 1)).map fun i => max off ((off / 65536 + i) * 65536)

/-- The tensor-relative ranges that a packet reads or writes, and whether it writes them. -/
def State.packetRanges (s : State) (q : BitVec 6) (host : Bool) (p : BitVec 512) : List (Nat × Nat × Bool) :=
  let node := fun (a : Nat) => match s.awlRead q host a 512 with
    | none => []
    | some d =>
      let img := fieldB d 8 8
      let len := match s.awlRead q host img 128 with
        | some h => fieldB h 0x40 4
        | none => 128
      [(fieldB d 0x10 8, 4 * fieldB d 0x18 2, false), (img, max 128 len, false)]
  match pk p 0 1 with
  | 1 => (pk p 0x10 8, 512 * pk p 0x18 4, false) :: (List.range (pk p 0x18 4)).flatMap fun i => node (pk p 0x10 8 + 512 * i)
  | 2 => (pk p 0x10 8, 512, false) :: node (pk p 0x10 8)
  | 3 => [(pk p 0x10 8, pk p 0x18 1, true)]
  | 4 => [(pk p 0x10 8, 8, true)]
  | 5 => [(pk p 0x10 8, pk p 0x18 1, true), (pk p 0x30 8, 8, true)]
  | 8 => [(pk p 0x10 8, pk p 0x20 4, false), (pk p 0x18 8, pk p 0x20 4, true)]
  | 13 => [(pk p 0x20 8, 32, true)]
  | 14 => if pk p 0x10 1 = 0 then [(pk p 0x18 8, 32, false), (pk p 0x20 8, 0x8500, true)] else [(pk p 0x18 8, pk p 0x28 4, false)]
  | _ => []

/-- A device access to a host frame that the host holds asks for its flip (R89, R261). -/
def State.askFlip (s : State) (sp : BitVec 6) (tid k entry hframe : Nat) : State :=
  { s with awl := { s.awl with flipWanted := s.awl.flipWanted ++ [(hframe, entry)] } }.mail { kind := 1, space := sp.zeroExtend 8, tid := tid, k := k, hframe := hframe }

/-- What the Awl's failed translations for a packet leave: damaged entries that it has read are rebuilt (R266), and a device packet's flip faults raise flip
requests (R261). DEDUCED: log entry 41. -/
def State.noteFaults (s : State) (q : BitVec 6) (host : Bool) (p : BitVec 512) : State :=
  (s.packetRanges q host p).foldl (fun s r => (rangeOffsets r.1 r.2.1).foldl (fun (s : State) o =>
    if r.1 / 2 ^ 44 = 0xFFFFF then s
    else
      match s.translate q host (r.1 / 2 ^ 44) o r.2.2 with
      | .error (.damaged _ _ pa) => { s with awl := { s.awl with poisonedEntries := addNew s.awl.poisonedEntries (q, pa) } }
      | .error (.flip tid k entry hframe) => s.askFlip q tid k entry hframe
      | _ => s) s) s

/-- A packet stands in its queue as one that has begun, with `left` steps to do. -/
def State.inProgress (s : State) (q : BitVec 6) (index : BitVec 32) (p : BitVec 512) (left : Nat) (waiting : Bool) : State :=
  let c := ((s.queue q).cur).getD { pkt := p, index := index, stepsLeft := left, asgen := (s.space q).asgen }
  s.mapQueue q fun x => { x with st := .active, cur := some { c with stepsLeft := left, waiting := waiting } }

/-- The last step of a queue's packet (R77 to R79); of a packet whose effect ends with a later event, all that comes before it. -/
def State.lastStep (s : State) (q : BitVec 6) (index : BitVec 32) (p : BitVec 512) : State :=
  match s.performPacket q index p with
  | (s, .error e) =>
    let s := if e = 6 then s.noteFaults q true p else s
    (s.setQueue q ((s.queue q).fail e)).settle
  | (s, .tokens) => s.mapQueue q fun x => { x with st := .waiting, cur := none }
  | (s, .hold) => s.inProgress q index p 1 false
  | (s, .done st) =>
    let s := if (s.queue q).st = .resetting then s else s.mapQueue q fun x => { x with head := x.head + 1, cur := none }
    (s.completePacket q index p st).afterPacket q
  | (s, .graph g) =>
    let s := s.mapQueue q fun x => { x with head := x.head + 1, cur := none, awaiting := x.awaiting ++ [{ index := index, pkt := p, graph := g }] }
    s.afterPacket q
  | (s, .later) => if (s.queue q).st = .resetting then s else s.inProgress q index p 0 true

/-- What a queue can do with the packet at its head: nothing, discard it as stale, enter ERROR, wait for earlier packets, or start it. -/
inductive HeadStep where
  | none
  | stale
  | bad (status : BitVec 16)
  | wait
  | start (p : BitVec 512)
deriving DecidableEq, Repr

def State.headStep (s : State) (q : BitVec 6) : HeadStep :=
  let x := s.queue q
  if !(x.st == .active || x.st == .waiting) || x.pending == 0 then .none
  else
    let p := s.headPacket q
    if pk p 4 2 ≠ x.gen.toNat then .stale
    else
      match packetError p with
      | some e => .bad e
      | Option.none => if (pk p 1 1).testBit 0 && !x.awaiting.isEmpty then .wait else .start p

/-- One step of a queue (R77, R78, R83). -/
def State.queueStep (s : State) (q : BitVec 6) : State :=
  let x := s.queue q
  match x.cur with
  | some c =>
    if c.waiting then s
    else if c.stepsLeft ≤ 1 then s.lastStep q c.index c.pkt else s.setQueue q { x with cur := some { c with stepsLeft := c.stepsLeft - 1 } }
  | none =>
    match s.headStep q with
    | .none => s
    | .stale => (s.setQueue q { x with head := x.head + 1, discarded := x.discarded + 1 }).afterPacket q
    | .bad e => (s.setQueue q (x.fail e)).settle
    | .wait => s.setQueue q { x with st := .waiting }
    | .start p =>
      let s := s.setQueue q { x with st := .active }
      let n := s.stepsOf q p
      if n ≤ 1 then s.lastStep q x.head p else s.inProgress q x.head p (n - 1) false

/-! ## The ENQ inbox (R88, R108, R109, R312, R313) -/

/-- A packet that fails its checks at the inbox: a node failure with ENQ_BAD, at the header's block or at the node's own (R88).
FNODE names the issuing node. DESIGN CHOICE: log entry 89. DEDUCED: log entry 43. DEDUCED: log entry 56. -/
def State.enqBad (s : State) (uid : Nat) (p : BitVec 512) : State :=
  let n := s.node uid
  match headerJcb p with
  | some j => { s with awl := { s.awl with posts := s.awl.posts ++ [{ uid := uid, queue := n.desc.queue, jcb := j, fail := some (BitVec.ofNat 20 n.desc.index, stEnqBad) }] } }
  | none => s.postFailure n stEnqBad

/-- The effect of an inbox packet at its last step (R88). `asgen`: the generation of its space when it started (R263). A flip fault that it meets raises the
flip request, and the packet fails. DEDUCED: log entry 41. DEDUCED: log entry 62. -/
def State.performInbox (s : State) (uid : Nat) (p : BitVec 512) (asgen : BitVec 16) : State :=
  let q := (s.node uid).desc.queue
  let ty := pk p 0 1
  let allowed := ty == 2 || ty == 3 || ty == 4 || ty == 5 || ty == 6
  let stale := asgen != (s.space q).asgen
  let reads := ty == 2 || (ty == 4 && pk p 0x20 1 == 1) || (ty == 5 && pk p 0x19 1 == 1)
  let bad := (s.noteFaults q false p).enqBad uid p
  let w := fun (r : Except (BitVec 16) (State × List Nat)) => match r with
    | .error _ => bad
    | .ok (s', _) => if stale then s.dropWrite else s'
  if pk p 4 2 ≠ (s.queue q).gen.toNat then s.mapQueue q fun x => { x with discarded := x.discarded + 1 }
  else if !allowed || pk p 1 1 != 0 || (packetError p).isSome then s.enqBad uid p
  else if stale && reads then s.enqBad uid p
  else
    match ty with
    | 3 => w (s.awlWrite q false (pk p 0x10 8) ((leBytes (pk p 0x20 32) (pk p 0x18 1)).map fun b => (b, false)))
    | 4 => w (s.awlSignal q false (pk p 0x10 8) (pk p 0x18 8) (pk p 0x20 1))
    | 5 =>
      match s.awlWrite q false (pk p 0x10 8) ((leBytes (pk p 0x20 16) (pk p 0x18 1)).map fun b => (b, false)) with
      | .error _ => bad
      | .ok (s', _) => w (s'.awlSignal q false (pk p 0x30 8) (pk p 0x38 8) (pk p 0x19 1))
    | 6 =>
      match s.tokenGive q (pk p 0x10 1) (pk p 0x12 2) with
      | (s, .done _) => s
      | (s, _) => s.enqBad uid p
    | _ =>
      match s.launchPacket q false uid p with
      | (s, .graph _) => s
      | (s, .xlate) => (s.noteFaults q false p).enqBad uid p
      | (s, _) => s.enqBad uid p

/-- TOK.TAKE at the Awl (R313). -/
def State.serveTake (s : State) (uid id : Nat) (link : BitVec 6) (count : Word) : State :=
  let n := s.node uid
  let ok := decide (1 ≤ count.toNat) && decide (count.toNat ≤ 65535)
  match s.linkFor n.desc.queue link.toNat false with
  | some l =>
    if ok && decide (count.toNat ≤ l.count.toNat) then
      (s.setLink link.toNat { l with count := l.count - count.extractLsb' 0 16 }).mapNode uid fun n =>
        { n with ctl := n.ctl.answer id true, run := { n.run with tokens := n.run.tokens ++ [(link, count.toNat)] } }
    else s.mapNode uid fun n => { n with ctl := n.ctl.answer id false }
  | none => s.mapNode uid fun n => { n with ctl := n.ctl.answer id false }

/-- The generation under which the inbox packet of a node started: the current one when it starts now (R263). -/
def State.inboxAsgen (s : State) (uid : Nat) : BitVec 16 :=
  match s.awl.inboxStep with
  | some (_, _, _, a) => a
  | none => (s.space (s.node uid).desc.queue).asgen

/-- One step of the ENQ inbox (R83, R109, R313). -/
def State.inboxOnce (s : State) : State :=
  let drop := { s with awl := { s.awl with inbox := s.awl.inbox.drop 1, inboxStep := none } }
  match s.awl.inbox with
  | [] => s
  | .take uid id link count :: _ => drop.serveTake uid id link count
  | .packet uid _ p :: _ =>
    let asgen := s.inboxAsgen uid
    let k := match s.awl.inboxStep with
      | some (_, _, k, _) => k
      | none => s.stepsOf (s.node uid).desc.queue p
    if k ≤ 1 then drop.performInbox uid p asgen else { s with awl := { s.awl with inboxStep := some (uid, p, k - 1, asgen) } }

/-! ## Ownership flips (R89, R261) -/

/-- Clear or set OWN in a tile-table entry. -/
def State.setOwn (s : State) (entry : Nat) (own : Bool) : State :=
  let b := s.byte entry
  s.setByte entry (if own then b ||| 2 else b &&& ~~~2#8) (s.poisoned entry)

/-- A flip request that can be served (R89): a flip to the host of a frame whose flip to the device is under way, from its fault to the driver's
acknowledgement, waits for it. -/
def State.servable (s : State) (f : Flip) : Bool := f.ack || !s.awl.flipWanted.any fun e => e.1 == f.frame

/-- The entry that a flip to the device makes valid: the one that faulted, or the one that a flip to the host under way when the request came has cleared. -/
def State.flipEntry (s : State) (f : Flip) : Option Nat :=
  match s.awl.flipWanted.find? fun e => e.1 == f.frame with
  | some (_, entry) => some entry
  | none => if f.entry = 0 then none else some f.entry

/-- A flip to the host begins (R89, R261): its entry is no longer valid, and its device accesses drain. -/
def State.startDrain (s : State) (frame entry : Nat) : State :=
  let s := s.setOwn entry false
  { s with awl := { s.awl with flipNow := some { frame := frame, ack := false, entry := entry }, flipDone := false, flipFrame := frame,
                               flipIndex := s.awl.flipIndex.filter fun e => e.1 != frame } }

/-- A flip to the device is done: its entry is valid, and the index holds it (R261). -/
def State.endFlip (s : State) (frame entry : Nat) : State :=
  let s := s.setOwn entry true
  { s with awl := { s.awl with flipIndex := (s.awl.flipIndex.filter fun e => e.1 != frame) ++ [(frame, entry)],
                               flipWanted := s.awl.flipWanted.filter fun e => e.1 != frame } }

/-- One step of the flips (R89, R261): one request at a time, in arrival order. A full index first flips its longest-held frame back to the host.
DEDUCED: log entry 41. -/
def State.flipStep (s : State) : State :=
  match s.awl.flipNow, s.awl.flips.find? s.servable with
  | none, some f =>
    let served : State := { s with awl := { s.awl with flips := s.awl.flips.erase f } }
    if f.ack then
      match s.flipEntry f with
      | none => served
      | some entry =>
        let full := decide (65536 ≤ s.awl.flipIndex.length) && !s.awl.flipIndex.any fun e => e.1 == f.frame
        match s.awl.flipIndex.head? with
        | some (frame, old) => if full then s.startDrain frame old else served.endFlip f.frame entry
        | none => served.endFlip f.frame entry
    else
      match s.awl.flipIndex.find? fun e => e.1 == f.frame with
      | none => { served with awl := { served.awl with flipDone := true, flipFrame := f.frame } }
      | some (_, entry) => served.startDrain f.frame entry
  | _, _ => s

/-! ## Housekeeping (R259) -/

/-- The fault of a marked entry when it is read again: none, or one that keeps the node held. -/
def State.stillHeld (s : State) (uid : Nat) : Bool :=
  match (s.node uid).run.mark with
  | none => false
  | some (sp, tid, k) =>
    match s.translate (BitVec.ofNat 6 sp) false tid (k * 65536) false with
    | .ok _ => false
    | .error .access => false
    | .error _ => true

/-- The marked entries of up to 16 nodes are read again, in order of marking. DEDUCED: log entry 41. -/
def State.rereadMarks (s : State) : State :=
  (s.dist.held.take 16).foldl (fun s u =>
    if s.stillHeld u then s
    else { (s.mapNode u fun n => { n with run := { n.run with mark := none } }) with dist := { s.dist with held := s.dist.held.filter (· != u) } }) s

/-- One slot of the executive (R83). -/
def State.awlSlot (s : State) : State :=
  let o := (s.awl.slots[s.awl.slotNo]?.getD 0xFF).toNat
  let s := { s with awl := { s.awl with slotNo := (s.awl.slotNo + 1) % 128 } }
  if o < 0x40 then s.queueStep (BitVec.ofNat 6 o) else if o = 0x40 then s.inboxOnce else if o = 0x41 then s.flipStep else if o = 0x42 then s.rereadMarks else s

/-- A packet of one type is brought to its last step: the packet in progress or at the head of its queue, or the first of the inbox. -/
def State.packetRow (s : State) (row : String) (ty : Nat) (sub : Option Nat) (src : PacketSource) (p : BitVec 512) : Result :=
  let mine := pk p 0 1 == ty && (match sub with
    | some k => pk p 0x10 1 == k
    | none => true)
  if !mine || decide (s.svc.phase < 3) then .fault (.notEnabled row)
  else
    match src with
    | .queue q =>
      match (s.queue q).cur with
      | some c => if c.pkt = p ∧ !c.waiting then .next (s.lastStep q c.index p) else .fault (.notEnabled row)
      | none => if s.headStep q = .start p then .next ((s.mapQueue q fun x => { x with st := .active }).lastStep q (s.queue q).head p) else .fault (.notEnabled row)
    | .inbox uid =>
      match s.awl.inbox with
      | .packet u _ p' :: _ =>
        if u = uid ∧ p' = p then .next ({ s with awl := { s.awl with inbox := s.awl.inbox.drop 1, inboxStep := none } }.performInbox uid p (s.inboxAsgen uid)) else .fault (.notEnabled row)
      | _ => .fault (.notEnabled row)
/-- AWL_SLOT (R83): A 125 ns slot of the cyclic executive begins, and its owner performs at most one step. -/
def execAwlSlot (σ : State) : Result :=
  if σ.svc.phase < 3 then .fault (.notEnabled "AWL_SLOT") else .next σ.awlSlot

/-- LAUNCH_GRAPH (R80): Validates a graph of nodes and makes the nodes with no predecessors READY. -/
def execLaunchGraph (src : PacketSource) (pkt : BitVec 512) (σ : State) : Result :=
  σ.packetRow "LAUNCH_GRAPH" 1 none src pkt

/-- LAUNCH_NODE (R80): Validates and launches a single node. -/
def execLaunchNode (src : PacketSource) (pkt : BitVec 512) (σ : State) : Result :=
  σ.packetRow "LAUNCH_NODE" 2 none src pkt

/-- WRITE (R80): Writes up to 32 bytes to a tensor-relative address. -/
def execWrite (src : PacketSource) (pkt : BitVec 512) (σ : State) : Result :=
  σ.packetRow "WRITE" 3 none src pkt

/-- SIGNAL (R80): Stores a value, or atomically adds it, at a signal word. -/
def execSignal (src : PacketSource) (pkt : BitVec 512) (σ : State) : Result :=
  σ.packetRow "SIGNAL" 4 none src pkt

/-- WRITE_SIGNAL (R81): Writes data and then, once the data is visible, a signal. -/
def execWriteSignal (src : PacketSource) (pkt : BitVec 512) (σ : State) : Result :=
  σ.packetRow "WRITE_SIGNAL" 5 none src pkt

/-- TOKEN_GIVE (R86): Adds COUNT tokens to a token link. -/
def execTokenGive (src : PacketSource) (pkt : BitVec 512) (σ : State) : Result :=
  σ.packetRow "TOKEN_GIVE" 6 none src pkt

/-- TOKEN_WAIT (R86): Takes COUNT tokens from a link, or puts the queue in WAITING to retry. -/
def execTokenWait (src : PacketSource) (pkt : BitVec 512) (σ : State) : Result :=
  σ.packetRow "TOKEN_WAIT" 7 none src pkt

/-- COPY (R80): Host packet that copies LEN bytes between tensor-relative addresses. -/
def execCopy (src : PacketSource) (pkt : BitVec 512) (σ : State) : Result :=
  σ.packetRow "COPY" 8 none src pkt

/-- FENCE_PACKET (R81): Host packet that orders the queue's effects with acquire or release at a scope. -/
def execFencePacket (src : PacketSource) (pkt : BitVec 512) (σ : State) : Result :=
  σ.packetRow "FENCE_PACKET" 9 none src pkt

/-- QRESET (R87): Resets a queue: bumps its generation and stops its work. -/
def execQreset (src : PacketSource) (pkt : BitVec 512) (σ : State) : Result :=
  σ.packetRow "QRESET" 10 none src pkt

/-- SLICE (R82): Sets the PRIO and time slice of a queue. -/
def execSlice (src : PacketSource) (pkt : BitVec 512) (σ : State) : Result :=
  σ.packetRow "SLICE" 11 none src pkt

/-- BIND_GANG (R105): Forms a gang of width 2 or 4 from a logical core. -/
def execBindGang (src : PacketSource) (pkt : BitVec 512) (σ : State) : Result :=
  σ.packetRow "BIND_GANG" 12 (some 0) src pkt

/-- BIND_DISSOLVE (R106): Dissolves a gang and unparks its front ends. -/
def execBindDissolve (src : PacketSource) (pkt : BitVec 512) (σ : State) : Result :=
  σ.packetRow "BIND_DISSOLVE" 12 (some 1) src pkt

/-- BIND_RESERVE (R102): Sets NMIN and NMAX of the communication reserve of the selected stacks. -/
def execBindReserve (src : PacketSource) (pkt : BitVec 512) (σ : State) : Result :=
  σ.packetRow "BIND_RESERVE" 12 (some 2) src pkt

/-- REPAIR_REBIND_HALF (R365): Rebinds the cores of a row away from a failing slab half. -/
def execRepairRebindHalf (src : PacketSource) (pkt : BitVec 512) (σ : State) : Result :=
  σ.packetRow "REPAIR_REBIND_HALF" 13 (some 0) src pkt

/-- REPAIR_DRAM_ROW (R366): Soft-repairs a DRAM row by remapping it to a spare row. -/
def execRepairDramRow (src : PacketSource) (pkt : BitVec 512) (σ : State) : Result :=
  σ.packetRow "REPAIR_DRAM_ROW" 13 (some 1) src pkt

/-- REPAIR_SPARE_LANE (R367): Takes a lane of a torus port out of service and brings in the spare lane. -/
def execRepairSpareLane (src : PacketSource) (pkt : BitVec 512) (σ : State) : Result :=
  σ.packetRow "REPAIR_SPARE_LANE" 13 (some 2) src pkt

/-- REPAIR_RETIRE_CORE (R363): Drains a logical core, retires it, and makes its halves spares. -/
def execRepairRetireCore (src : PacketSource) (pkt : BitVec 512) (σ : State) : Result :=
  σ.packetRow "REPAIR_RETIRE_CORE" 13 (some 3) src pkt

/-- REPAIR_SCAN (R363): Self-tests the idle halves and lanes, and may set the power limit. -/
def execRepairScan (src : PacketSource) (pkt : BitVec 512) (σ : State) : Result :=
  σ.packetRow "REPAIR_SCAN" 13 (some 4) src pkt

/-- ATTEST_QUOTE (R370): Writes a quote record signed over a nonce and the module's measurement. -/
def execAttestQuote (src : PacketSource) (pkt : BitVec 512) (σ : State) : Result :=
  σ.packetRow "ATTEST_QUOTE" 14 (some 0) src pkt

/-- ATTEST_PATCH (R90): Verifies a signed patch and installs it in the patch table. -/
def execAttestPatch (src : PacketSource) (pkt : BitVec 512) (σ : State) : Result :=
  σ.packetRow "ATTEST_PATCH" 14 (some 1) src pkt

/-- ENQ_OUTBOX_ACCEPT (R108): The ENQ inbox accepts an outbox packet and frees its entry. -/
def execEnqOutboxAccept (core : BitVec 10) (σ : State) : Result :=
  let c := σ.core core.toNat
  let full := decide (256 ≤ (σ.awl.inbox.filter fun i => match i with
    | .packet .. => true
    | .take .. => false).length)
  match c.outbox with
  | [] => .fault (.notEnabled "ENQ_OUTBOX_ACCEPT")
  | (u, p) :: rest =>
    if full then .fault (.notEnabled "ENQ_OUTBOX_ACCEPT")
    else
      let σ := σ.setCore { c with outbox := rest }
      .next { σ with awl := { σ.awl with inbox := σ.awl.inbox ++ [.packet u c.idx p] } }

/-- ASGEN_CHANGE_DONE (R264): Every agent has acknowledged the new ASGEN, and the WRITE completes. -/
def execAsgenChangeDone (sp : BitVec 6) (σ : State) : Result :=
  let acked := σ.awl.asChange.filter fun e => e.1 == sp.toNat
  let rest := σ.awl.asChange.filter fun e => e.1 != sp.toNat
  let commits := fun (n : Node) => n.run.committing.isSome && acked.any fun e => e.1 == n.desc.queue.toNat
  if acked.isEmpty || σ.allNodes.any commits then .fault (.notEnabled "ASGEN_CHANGE_DONE")
  else
    .next (acked.foldl (fun s e => if rest.any (fun r => r.2.2.1 == e.2.2.1 && r.2.2.2 == e.2.2.2) then s else s.completeLater e.2.2.1 e.2.2.2 0)
      { σ with awl := { σ.awl with asChange := rest } })

/-- A node still holds staged bytes of a host frame, which its commit will write (R301). -/
def State.stagesFrame (s : State) (frame : Nat) : Bool := s.allNodes.any fun n => n.run.staged.cells.any fun c => c.1 / 65536 == hostPA (frame * 65536) / 65536

/-- FLIP_DRAIN_DONE (R89): Device accesses to the frame have drained, what nodes hold staged for it among them (R301), and FLIPSTAT.DONE is set. Requests to
flip the frame back, which came meanwhile, name the entry that was cleared. -/
def execFlipDrainDone (σ : State) : Result :=
  match σ.awl.flipNow with
  | none => .fault (.notEnabled "FLIP_DRAIN_DONE")
  | some f =>
    if σ.stagesFrame f.frame then .fault (.notEnabled "FLIP_DRAIN_DONE")
    else
      let back := fun (g : Flip) => if g.ack && g.frame == f.frame then { g with entry := f.entry } else g
      .next { σ with awl := { σ.awl with flipNow := none, flipDone := true, flipFrame := f.frame, flips := σ.awl.flips.map back } }

/-- MAILBOX_RECORD_WRITE (R262): The Awl writes a pending mailbox record once the mailbox has room, and raises vector 64. -/
def execMailboxRecordWrite (σ : State) : Result :=
  let mbox := σ.rd (ringPA 8) 8
  let size := 2 ^ σ.rd (ringPA 16) 1
  let head := σ.rd (ringPA 0x14) 4
  let tail := σ.rd (ringPA 0x18) 4
  match σ.awl.mail with
  | [] => .fault (.notEnabled "MAILBOX_RECORD_WRITE")
  | r :: rest =>
    if mbox = 0 ∨ (head + 2 ^ 32 - tail) % 2 ^ 32 = size then .fault (.notEnabled "MAILBOX_RECORD_WRITE")
    else
      let a := hostAddr (mbox + 32 * (head % size))
      let b := leBytes r.kind.toNat 1 ++ leBytes r.space.toNat 1 ++ leBytes 0 2 ++ leBytes r.tid 4 ++ leBytes r.k 8 ++ leBytes r.hframe 8 ++ leBytes 0 8
      let σ := σ.wr a (leNat b) 32
      let σ := σ.wr (ringPA 0x14) ((head + 1) % 2 ^ 32) 4
      .next ({ σ with awl := { σ.awl with mail := rest } }.raiseMsix 64)

/-- ENTRY_REBUILD (R266): The Awl rebuilds a poisoned table entry, which a translation of the space has read, from the shadow copy. -/
def execEntryRebuild (sp : BitVec 6) (pa : BitVec 64) (σ : State) : Result :=
  let a := pa.toNat
  let x := σ.space sp
  if !σ.awl.poisonedEntries.contains (sp, a) then .fault (.notEnabled "ENTRY_REBUILD")
  else
    let size := if x.ttbl ≤ a ∧ a < x.ttbl + 16 * x.tcount then 16 else 8
    let off := a - x.treg
    let inside := decide (x.treg ≤ a) && decide (a + size ≤ x.treg + x.tlen)
    let copy := hostAddr (x.shadow + off)
    let readable := inside && !σ.anyPoison copy size
    let σ := { σ with awl := { σ.awl with poisonedEntries := σ.awl.poisonedEntries.filter fun e => if readable then e.2 != a else e != (sp, a) } }
    let σ := if readable then σ.wr a (σ.rd copy size) size else σ
    .next (σ.mail { kind := if readable then 3 else 4, space := sp.zeroExtend 8, tid := 0, k := off, hframe := 0 })

end Sys2Proof.Machine
end

