-- ==== Sys2Proof/Machine/Preempt.lean ====
section
/-! DEFINITION. Pre-emption: the quiesce of a node, and its save area (R129, R352 to R355, R389, R394). -/

namespace Sys2Proof.Machine

/-! ## The quiesce (R352, R354) -/

/-- The answers that a pre-emption waits for have arrived (R352): raises, takes and the outbox. -/
def State.answered (s : State) (n : Node) : Bool :=
  let u := n.desc.uid
  n.run.pendingRaise.isEmpty && !(s.awl.inbox.any fun i => match i with
    | .take v _ _ _ => v == u
    | _ => false) && !(s.cores.any fun c => c.outbox.any fun e => e.1 == u)

/-- A node stands at a boundary at which a pre-emption may be taken: it runs, or has ended in a pair, and its answers have arrived (R352). DESIGN CHOICE: log entry 74. -/
def State.quiet (s : State) (n : Node) : Bool :=
  (n.run.st == .running || (n.run.st == .retiring && n.run.partner != 0)) && !n.run.quiesced && s.answered n

/-- Issue stops at a request that is taken (R354): the engines begin nothing more. -/
def Node.stop (n : Node) : Node := { n with run := { n.run with quiesced := true, preempt := false, ahead := [] } }

/-- The first commands of a slot's queue complete, one after the other, while their node is in the state in which its request was taken. -/
def State.finishCopies (s : State) (uid : Nat) (cb : Bool) (st : NodeState) : Nat → State
  | 0 => s
  | k + 1 =>
    match (s.node uid).eng.queue cb with
    | c :: _ => if (s.node uid).run.st = st then State.finishCopies (s.completeCopy uid cb c).clearBnd uid cb st k else s
    | [] => s

/-- The commands of a slot up to the last that has begun writing, by now or in the cycle of the request (`begun` of them), complete; the others are issued anew, and
read their sources again (R283). -/
def State.finishBegun (s : State) (uid : Nat) (cb : Bool) (begun : Nat) : State :=
  let n := s.node uid
  let t := s.finishCopies uid cb n.run.st (max begun (begunLen (n.eng.queue cb)))
  if (t.node uid).run.st = n.run.st then
    t.mapNode uid fun n => { n with eng := n.eng.setQueue cb ((n.eng.queue cb).map fun c => { c with progress := {} }) }
  else t

/-- An EPI.ADD that has begun completes. -/
def State.finishAdd (s : State) (uid : Nat) : State :=
  match (s.node uid).eng.epi with
  | .add c :: _ => if !c.progress.begun then s else (s.completeAdd uid c).clearBnd
  | _ => s

/-- CPYCANs that have issued take effect before the save (R282). -/
def Eng.cancelAll (e : Eng) : Eng := (e.cancels.map (·.1)).foldl Eng.cancel e

/-- A change of a node that still is in the state in which its request was taken: a fault of work that completes ends the request. -/
def State.whileIn (s : State) (uid : Nat) (st : NodeState) (f : State → State) : State := if (s.node uid).run.st = st then f s else s

/-- The copy of an overlay segment for a node that leaves is abandoned (R178). -/
def State.abandonSegment (s : State) (n : Node) : State :=
  { s with cores := s.cores.map fun c => if c.current = n.desc.uid then { c with imem := c.imem.map fun r => if r.imgid = n.desc.image.imgid then { r with copying := none } else r } else c }

/-- Commands of a slot that have begun writing complete in the order of the slot, so the first of them leads it; and those that begin in the cycle of the request are
the first `begun` of the queue, which may start. -/
def State.mayBegin (s : State) (uid : Nat) (cb : Bool) (begun : Nat) : Bool :=
  let n := s.node uid
  let q := n.eng.queue cb
  (begun == 0 && begunLen q == 0) ||
    (decide (begun ≤ q.length) && n.live && (q.take begun).all (s.mayStart uid cb) && match q with
      | c :: _ => s.leads uid cb c
      | [] => false)

/-- The quiesce of one node up to its save (R354): commands that have begun complete, and its save area, which starts at a frame and has a payload area of a
given size, is reserved. -/
def State.quiesceOne (s : State) (uid : Nat) (begun : Nat × Nat) (area : Nat × Nat) : State :=
  let n := s.node uid
  let s := (s.abandonSegment n).mapNode uid Node.stop
  let s := s.finishBegun uid false begun.1
  let s := s.whileIn uid n.run.st fun s => s.finishBegun uid true begun.2
  let s := s.whileIn uid n.run.st fun s => s.finishAdd uid
  s.whileIn uid n.run.st fun s => s.mapNode uid fun n =>
    let size := if n.hasPayload then area.2 else 0
    { n with eng := n.eng.cancelAll, run := { n.run with saveArea := some (area.1, n.framesWith size), payload := size } }

/-- The nodes that are saved together quiesce one after the other, while a fault of work that completes has not ended them. -/
def State.quiesceAll (s : State) (uid : Nat) (begun : Nat × Nat) : List (Node × Nat × Nat) → State
  | [] => s
  | (m, area) :: rest =>
    let t := s.quiesceOne m.desc.uid (if m.desc.uid = uid then begun else (0, 0)) area
    if (t.node m.desc.uid).run.st = m.run.st then State.quiesceAll t uid begun rest else t

/-- PREEMPT_QUIESCE (R354): The front end takes a pre-emption request at a boundary and records its in-flight and queued work. A pair is taken as one (R129),
unless both of it have ended. DESIGN CHOICE: log entry 74. -/
def execPreemptQuiesce (uid : Nat) (begun : Nat × Nat) (σ : State) : Result :=
  let n := σ.node uid
  let l := σ.savedWith n
  if uid = 0 || !σ.stopsFor n || !l.all σ.quiet || !l.any (·.run.st == .running) ||
      !l.all fun m => σ.mayBegin m.desc.uid false (if m.desc.uid = uid then begun.1 else 0) && σ.mayBegin m.desc.uid true (if m.desc.uid = uid then begun.2 else 0) then
    .fault (.notEnabled "PREEMPT_QUIESCE")
  else
    match σ.saveRoom n with
    | none => .fault (.notEnabled "PREEMPT_QUIESCE")
    | some areas => .next ({ σ with free := σ.free + l.length }.quiesceAll uid begun (l.zip areas))

/-! ## The save area (R355, R389, R394) -/

/-- The bytes of a number of `len` bytes at an offset, those that are not 0, in ascending order. -/
def cellsOf (off v : Nat) : Nat → List Host.Cell
  | 0 => []
  | len + 1 =>
    if v = 0 then []
    else if BitVec.ofNat 8 v = 0 then cellsOf (off + 1) (v / 256) len
    else (off, BitVec.ofNat 8 v) :: cellsOf (off + 1) (v / 256) len

/-- Fields of one width one after the other from an offset on. -/
def fieldCells (off width : Nat) : List Nat → List Host.Cell
  | [] => []
  | v :: rest => cellsOf off v width ++ fieldCells (off + width) width rest

/-- A region whose encoding is the implementation's own: free bytes. -/
def opaqueCells (key off len : Nat) : List Host.Cell :=
  ((List.range len).map fun i => (off + i, Config.freeByte key (off + i))).filter fun c => c.2 != 0

/-- The splice role as CTL.SPLC codes it: that of a member of an accepted pair, or of a refused one (R124). -/
def spliceRole (sp : Splice) (n : Node) : Nat :=
  if sp.st.accepted ∧ sp.p = n.desc.uid then 1
  else if sp.st.accepted ∧ sp.c = n.desc.uid then 2
  else match n.run.refusal with
    | some (isP, _) => if isP then 1 else 2
    | none => 0

/-- The gang width as CTL.BIND codes it. -/
def gangCode (w : Nat) : Nat := if w = 2 then 1 else if w = 4 then 2 else 0

/-- The record at the head of the header. -/
def recordFields (n : Node) (sp : Splice) : List Nat :=
  [n.run.serial.toNat, n.desc.addr.toNat, n.desc.image.imgid.toNat, n.desc.queue.toNat, n.tag.toNat, n.ctl.part.toNat, gangCode n.run.gangWidth,
   spliceRole sp n, n.poolBytes, n.markBytes, n.run.payload]

/-- The control block. -/
def controlFields (n : Node) : List Nat :=
  let k := n.ctl
  [k.seed.toNat, k.step.toNat, k.rtb.toNat] ++ (k.loops.toList.map fun l => l.word.toNat) ++ (k.ls.toList.map (·.toNat)) ++
    (k.loops.toList.flatMap fun l => [l.lat0.toNat, l.lat1.toNat]) ++ (n.regs.e.toList.map (·.toNat)) ++
    [k.cfa.toNat, k.cfb.toNat, k.ui.word.toNat, k.trap.trapWord.toNat, k.trap.tpcWord.toNat, k.trap.val.toNat, k.flt.toNat * 16] ++
    (match k.guard with
      | some g => [g.val.toNat, (match g.addr with
        | some a => 2 ^ 63 + a.toNat
        | none => 0)]
      | none => [0, 0])

/-- The wait record: its first eight bytes, the target, and the BARB pending count. It has room for one wait: a node that waits on several words of one
bundle has the first of them there. DESIGN CHOICE: log entry 31. -/
def waitFields (n : Node) : List Nat :=
  match n.ctl.waits with
  | [] => [0, 0, 0]
  | .cwait c t :: _ => [1 + c.toNat * 256, t.toNat, 0]
  | .barb c t :: _ => [2 + c.toNat * 256, t.toNat, t.toNat - (n.regs.c[c.toNat]).toNat]
  | .bar m :: _ => [3 + m.toNat * 256, 0, 0]
  | .idle :: _ => [4, 0, 0]

/-- An entry of the copy list (R389). -/
def copyEntry (cb armed : Bool) (order : Nat) (c : CopyCmd) : Nat :=
  (if armed then 2 else 1) + (if cb then 2 ^ 8 else 0) + order * 2 ^ 16 + c.word.toNat * 2 ^ 32 + c.addr.toNat * 2 ^ 64 + c.win % 2 ^ 32 * 2 ^ 96 +
    c.hD.toNat * 2 ^ 128 + c.hS.toNat * 2 ^ 384 + c.sw.toNat * 2 ^ 640 + c.sw1.toNat * 2 ^ 704 + c.x.toNat * 2 ^ 768

/-- The copy list: the queue of each slot, the commands that have fired and wait for room in it among them, then its armed commands. -/
def copyEntries (e : Eng) : List Nat :=
  let one := fun (cb : Bool) =>
    ((e.queue cb ++ e.firedOf cb).map (fun c => (c, false)) ++ ((e.armedOf cb).filter fun c => !c.fired).map fun c => (c, true)).zipIdx.map fun x => copyEntry cb x.1.2 x.2 x.1.1
  one false ++ one true

/-- The header of a node's save area, in address order. -/
def headerCells (key : Nat) (n : Node) (sp : Splice) : List Host.Cell :=
  let r := n.regs
  fieldCells 0 8 (recordFields n sp) ++
    fieldCells 0x100 8 (0 :: (r.s.toList.drop 1).map (·.toNat)) ++ fieldCells 0x200 8 (r.sh.toList.map (·.toNat)) ++
    fieldCells 0x240 1 ((List.range 8).map fun i => if n.p (BitVec.ofNat 3 i) then 1 else 0) ++ fieldCells 0x248 1 [if n.ctl.bank then 1 else 0] ++
    fieldCells 0x300 32 (r.h.toList.map (·.toNat)) ++ fieldCells 0x500 4 (r.k.toList.map (·.toNat)) ++ fieldCells 0x600 4 (r.ts.toList.map (·.toNat)) ++
    fieldCells 0x700 4 (r.c.toList.map (·.toNat)) ++ fieldCells 0x800 8 (controlFields n) ++ fieldCells 0xC00 8 (waitFields n) ++
    opaqueCells key 0xD00 768 ++ opaqueCells key 0x1000 4096 ++ fieldCells 0x2000 128 (copyEntries n.eng) ++
    opaqueCells key 0x3800 5888 ++ opaqueCells key 0x8000 30720

/-- The tile slot of a node's pool slice as its image travels: a slot that serves as a forwarding buffer of its pair holds the forwarded tile (R118, R129). -/
def Node.poolTile (n : Node) (sp : Splice) (i : Nat) : Tile :=
  match sp.bufs.find? fun b => b.iter.isSome && b.slot == i && b.inC == (sp.c == n.desc.uid) with
  | some b => b.tile
  | Option.none => n.regs.tile[i]?.getD {}

/-- The pool image (R246, R355): tile slots, then accumulators, then the scratchpad. -/
def poolCells (n : Node) (sp : Splice) : List Host.Cell :=
  let w := n.run.gangWidth
  let tile := fieldN n.ctl.part 0 6
  let acc := fieldN n.ctl.part 8 4
  let size := accElems w * 6
  ((List.range (2 * tile)).flatMap fun i => cellsOf (65536 + i * 32768 * w) (n.poolTile sp i).bits (32768 * w)) ++
    ((List.range (accCount n.ctl.part)).flatMap fun i => cellsOf (65536 + tile * 65536 * w + i * size) (n.regs.acc[i]?.getD {}).base size) ++
    n.run.scr.cells.map fun c => (65536 + (tile + acc) * 65536 * w + c.1, c.2)

/-- The mark plane: two bits per accumulator element, saturated in bit 0 and poison in bit 1. -/
def markCells (n : Node) : List Host.Cell :=
  let w := n.run.gangWidth
  let one := fun (a : Acc) => ((List.range (accElems w)).map fun i => (if a.sat.testBit i then 1 else 0) + (if a.poison.testBit i then 2 else 0)).foldr (fun b v => v * 4 + b) 0
  (List.range (accCount n.ctl.part)).flatMap fun i =>
    let a := n.regs.acc[i]?.getD {}
    if a.sat = 0 ∧ a.poison = 0 then [] else cellsOf (65536 + n.poolBytes + i * (accElems w / 4)) (one a) (accElems w / 4)

/-- The bytes of a number that are not 0, by offset: the poisoned bytes of an image. -/
def poisonBytes (off v len : Nat) : List Nat := (cellsOf off v len).map (·.1)

/-- The poisoned bytes of the pool image. -/
def poolPoison (n : Node) (sp : Splice) : List Nat :=
  let w := n.run.gangWidth
  let tile := fieldN n.ctl.part 0 6
  let acc := fieldN n.ctl.part 8 4
  let size := accElems w * 6
  ((List.range (2 * tile)).flatMap fun i => poisonBytes (65536 + i * 32768 * w) (n.poolTile sp i).poison (32768 * w)) ++
    ((List.range (accCount n.ctl.part)).flatMap fun i =>
      let a := n.regs.acc[i]?.getD {}
      if a.poison = 0 then []
      else ((List.range (accElems w)).filter a.poison.testBit).flatMap fun j => (List.range 6).map fun b => 65536 + tile * 65536 * w + i * size + 6 * j + b) ++
    n.run.scr.poison.map fun x => 65536 + (tile + acc) * 65536 * w + x

/-- Write a whole range of memory: the bytes given by offset, 0 elsewhere, and its poisoned bytes. -/
def State.writeArea (s : State) (base len : Nat) (cells : List Host.Cell) (poison : List Nat) : State :=
  { s with mem := cells.foldl (fun m c => memSet m (base + c.1) c.2) (s.mem.filter fun c => decide (c.1 < base) || decide (base + len ≤ c.1))
           poison := poison.foldl (fun l o => setAdd l (base + o)) (s.poison.filter fun a => decide (a < base) || decide (base + len ≤ a)) }

/-- The context of one node goes to its save area, and the node is SAVED with its staging reservation (R354). -/
def State.saveNode (s : State) (uid : Nat) (sp : Splice) : State :=
  let n := s.node uid
  match n.run.saveArea with
  | none => s
  | some (base, frames) =>
    let key := s.free
    let pay := opaqueCells key (65536 + n.poolBytes + n.markBytes) n.run.payload
    let s := { s.writeArea (dramPA (base * 65536)) (frames * 65536) (headerCells key n sp ++ poolCells n sp ++ markCells n ++ pay) (poolPoison n sp) with free := key + 1 }
    let s := s.leaveCore uid
    let again := fun (l : List SendCmd) => l.map fun c => { c with sent := false, got := [] }
    let rec_ := if sp.st.accepted ∧ sp.p = uid then some sp else none
    s.mapNode uid fun n =>
      { n with run := { n.run with st := .saved, preempt := false, quiesced := true, spliceRec := rec_ }
               eng := { n.eng with sends := again n.eng.sends, epi := n.eng.epi.map fun e => match e with
                 | .send c => .send { c with sent := false }
                 | e => e } }

/-- NODE_SAVE (R354): Once begun commands complete, the context and pool slice are written to the save area and the node is SAVED. A spliced pair is
saved as one (R129). -/
def execNodeSave (uid : Nat) (σ : State) : Result :=
  let n := σ.node uid
  let q := n.run.partner
  let here := fun (n : Node) => n.run.quiesced && (n.run.st == .running || n.run.st == .retiring)
  if uid = 0 || !here n || (q != 0 && !here (σ.node q)) then .fault (.notEnabled "NODE_SAVE")
  else
    let sp := σ.pairOf uid
    let σ := σ.saveNode uid sp
    let σ := if q = 0 then σ else σ.saveNode q sp
    .next (σ.unsplice uid)

end Sys2Proof.Machine
end

