-- ==== Sys2Proof/Machine/Routines.lean ====
section
/-! DEFINITION. The integer routines of class VR: their tables, cores and words (R235 to R245). -/

namespace Sys2Proof.Machine

/-- TE (R239): the nearest integers to 2^(15 + i/32), i = 0 to 32. -/
def tableTE : List Nat :=
  [32768, 33486, 34219, 34968, 35734, 36516, 37316, 38133, 38968, 39821, 40693, 41584, 42495, 43425, 44376, 45348, 46341, 47356, 48393, 49452, 50535, 51642, 52773, 53928, 55109, 56316, 57549, 58809, 60097, 61413, 62757, 64132] ++
  [65536]

/-- TL (R239): the nearest integers to 2^15 log2(1 + i/32), i = 0 to 32. -/
def tableTL : List Nat :=
  [0, 1455, 2866, 4236, 5568, 6863, 8124, 9352, 10549, 11716, 12855, 13968, 15055, 16117, 17156, 18173, 19168, 20143, 21098, 22034, 22952, 23852, 24736, 25604, 26455, 27292, 28114, 28922, 29717, 30498, 31267, 32024] ++
  [32768]

/-- TS (R239): the nearest integers to 2^15 / sqrt(1 + i/64), i = 0 to 63. -/
def tableTS : List Nat :=
  [32768, 32515, 32268, 32026, 31790, 31558, 31332, 31111, 30894, 30682, 30474, 30270, 30070, 29874, 29682, 29494, 29309, 29127, 28949, 28774, 28602, 28434, 28268, 28105, 27945, 27787, 27632, 27480, 27330, 27183, 27038, 26895] ++
  [26755, 26617, 26481, 26346, 26214, 26084, 25956, 25830, 25705, 25583, 25462, 25342, 25225, 25109, 24994, 24882, 24770, 24660, 24552, 24445, 24339, 24235, 24132, 24031, 23930, 23831, 23733, 23637, 23541, 23447, 23354, 23262]

/-- TG (R239): the nearest integers to 2^15 times the normal distribution function at (i - 128)/16, i = 0 to 255, and 32,768 at 256. -/
def tableTG : List Nat :=
  [0, 0, 0, 0, 0, 0, 0, 0, 0, 0, 0, 0, 0, 0, 0, 0, 0, 0, 0, 0, 0, 0, 0, 0, 0, 0, 0, 0, 0, 0, 0, 0] ++
  [0, 0, 0, 0, 0, 0, 0, 0, 0, 0, 0, 0, 0, 0, 0, 0, 0, 0, 0, 0, 0, 0, 0, 0, 0, 0, 0, 0, 0, 0, 1, 1] ++
  [1, 1, 2, 2, 3, 4, 5, 6, 8, 10, 12, 15, 19, 24, 29, 36, 44, 54, 66, 81, 98, 118, 142, 170, 203, 242, 288, 340, 401, 470, 550, 642] ++
  [745, 863, 996, 1145, 1313, 1499, 1707, 1936, 2189, 2467, 2771, 3102, 3462, 3851, 4269, 4719, 5199, 5710, 6252, 6824, 7426, 8057, 8716, 9401, 10110, 10842, 11594, 12364, 13150, 13947, 14754, 15567] ++
  [16384, 17201, 18014, 18821, 19618, 20404, 21174, 21926, 22658, 23367, 24052, 24711, 25342, 25944, 26516, 27058, 27569, 28049, 28499, 28917, 29306, 29666, 29997, 30301, 30579, 30832, 31061, 31269, 31455, 31623, 31772, 31905] ++
  [32023, 32126, 32218, 32298, 32367, 32428, 32480, 32526, 32565, 32598, 32626, 32650, 32670, 32687, 32702, 32714, 32724, 32732, 32739, 32744, 32749, 32753, 32756, 32758, 32760, 32762, 32763, 32764, 32765, 32766, 32766, 32767] ++
  [32767, 32767, 32767, 32768, 32768, 32768, 32768, 32768, 32768, 32768, 32768, 32768, 32768, 32768, 32768, 32768, 32768, 32768, 32768, 32768, 32768, 32768, 32768, 32768, 32768, 32768, 32768, 32768, 32768, 32768, 32768, 32768] ++
  [32768, 32768, 32768, 32768, 32768, 32768, 32768, 32768, 32768, 32768, 32768, 32768, 32768, 32768, 32768, 32768, 32768, 32768, 32768, 32768, 32768, 32768, 32768, 32768, 32768, 32768, 32768, 32768, 32768, 32768, 32768, 32768] ++
  [32768]

def teAt (i : Int) : Int := (tableTE.getD i.toNat 0 : Nat)
def tlAt (i : Int) : Int := (tableTL.getD i.toNat 0 : Nat)
def tsAt (i : Int) : Int := (tableTS.getD i.toNat 0 : Nat)
def tgAt (i : Int) : Int := (tableTG.getD i.toNat 0 : Nat)

/-- LOG2E and C2 (R239). -/
def constLOG2E : Int := 47274
def constC2 : Int := 0x5A82799A

/-- Exp2Core (R240): M and n. -/
def exp2Core (y : Int) : Int × Int :=
  let n := asr y 15
  let u := y - n * 2 ^ 15
  let i := asr u 10
  let r := u % 2 ^ 10
  (shrRne (teAt i * 2 ^ 10 + (teAt (i + 1) - teAt i) * r) 10, n)

/-- Log2Core (R240), for A > 0. -/
def log2Core (A : Int) (f : Nat) : Int :=
  let p := bitLen A.toNat - 1
  let z := A * 2 ^ 15 / 2 ^ p
  let u := z - 2 ^ 15
  let i := asr u 10
  let r := u % 2 ^ 10
  ((p : Int) - f) * 2 ^ 15 + shrRne (tlAt i * 2 ^ 10 + (tlAt (i + 1) - tlAt i) * r) 10

/-- RsqCore (R240), for A > 0: y and k. -/
def rsqCore (A : Int) (f : Nat) : Int × Int :=
  let p := bitLen A.toNat - 1
  let z := A * 2 ^ 30 / 2 ^ p
  let y0 := tsAt (asr z 24 - 64) * 2 ^ 15
  let s1 := shrRne (y0 * y0) 30
  let s2 := shrRne (z * s1) 30
  let s3 := 3 * 2 ^ 30 - s2
  let y1 := shrRne (y0 * s3) 31
  let q := (p : Int) - f
  if q % 2 = 0 then (y1, q / 2) else (shrRne (y1 * constC2) 30, (q + 1) / 2)

/-- The largest and the smallest value of a tile element, written with clamp = 1 (R241). -/
def putMax (w : Nat) : Nat × Bool := (lowBits w (maxI w), true)
def putMin (w : Nat) : Nat × Bool := (lowBits w (minI w), true)

/-- VEXP2 on one element (R241). -/
def vexp2El (f g : Nat) (w : Nat) (A : Int) : Nat × Bool :=
  let e := exp2Core (scaleRne A ((f : Int) - 15))
  putSat w false (scaleRne e.1 (15 - g - e.2))

/-- VLOG2 on one element (R241). -/
def vlog2El (f g : Nat) (w : Nat) (A : Int) : Nat × Bool :=
  if 0 < A then putSat w false (scaleRne (log2Core A f) (15 - g)) else putMin w

/-- VRCP on one element (R241). -/
def vrcpEl (f g : Nat) (w : Nat) (A : Int) : Nat × Bool := if A = 0 then putMax w else putSat w false (divRne (2 ^ (f + g)) A)

/-- VRSQ on one element (R241). -/
def vrsqEl (f g : Nat) (w : Nat) (A : Int) : Nat × Bool :=
  if 0 < A then
    let e := rsqCore A f
    putSat w false (scaleRne e.1 (30 + e.2 - g))
  else if A = 0 then putMax w
  else (0, true)

/-- VGELU on one element (R241). -/
def vgeluEl (f g : Nat) (w : Nat) (A : Int) : Nat × Bool :=
  let y := scaleRne A ((f : Int) - 15)
  let phi :=
    if y < -(2 ^ 18) then 0
    else if 2 ^ 18 ≤ y then 2 ^ 15
    else
      let j := asr y 11 + 128
      let r := y % 2 ^ 11
      shrRne (tgAt j * 2 ^ 11 + (tgAt (j + 1) - tgAt j) * r) 11
  putSat w false (scaleRne (y * phi) (30 - g))

/-- The output fraction of a routine word (R235). -/
def outFraction (ext : Option (BitVec 25)) (dflt : Nat) : Nat :=
  match ext with
  | some e => fieldN e 0 5
  | none => dflt

/-- The element-wise routines (R236, R237). -/
def State.vroutine (s : State) (d a : BitVec 6) (f : Nat → Int → Nat × Bool) : State :=
  let D := s.tv d
  let A := s.tv a
  s.vword [D, A] (A.grid D && decide (8 ≤ A.w) && decide (8 ≤ D.w)) fun s =>
    s.putTile (8 + 6 * s.blocks [D, A]) D ((List.range D.n).map fun i => (f D.w (A.get false i), A.poi i)) A.sat

/-- One row of VSMAX (R242). -/
def softmaxRow (f w : Nat) (row : List Int) : List (Nat × Bool) :=
  let mx := row.foldl max (row.headD 0)
  let e := row.map fun a =>
    let m := exp2Core (scaleRne ((a - mx) * constLOG2E) f)
    scaleRne m.1 (-m.2)
  let r := divRne (2 ^ 46) (sumInt e)
  e.map fun x => putSat w false (shrRne (x * r) (47 - w))

/-- One row of VRMSN, or of VLNRM when `mean` (R243). -/
def normRow (mean : Bool) (g w : Nat) (row gain : List Int) : List (Nat × Bool) :=
  let n : Int := row.length
  let mu := if mean then divRne (2 ^ 8 * sumInt row) n else 0
  let c := row.map fun a => if mean then 2 ^ 8 * a - mu else a
  let m := divRne (sumInt (c.map fun x => x * x)) n + (if mean then 2 ^ 16 else 1)
  let y := rsqCore m 0
  (c.zip gain).map fun e => putSat w false (scaleRne (e.1 * y.1 * e.2) (43 + y.2 - g))

/-- The routines over rows (R236, R237): `f` maps a row; the poison of a row reaches all of it, and `poi` adds that of a column. -/
def State.vrows (s : State) (D A : TileView) (tiles : List TileView) (f : List Int → List (Nat × Bool)) (poi : Nat → Bool) (sat : Bool) : State :=
  let out := (List.range A.rows).flatMap fun r =>
    let idx := (List.range A.cols).map fun c => r * A.cols + c
    let bad := idx.any A.poi
    ((f (idx.map (A.get false))).zip (List.range A.cols)).map fun e => (e.1, bad || poi e.2)
  s.putTile (16 + 12 * s.blocks tiles) D out sat

/-- VRMSN and VLNRM (R243). -/
def State.vnorm (s : State) (mean : Bool) (d a b : BitVec 6) (ext : Option (BitVec 25)) : State :=
  let D := s.tv d
  let A := s.tv a
  let G := s.tv b
  let okw := fun w : Nat => w == 8 || w == 16
  s.vword [D, A, G] (A.grid D && okw A.w && okw D.w && G.w == 16 && G.rows == 1 && G.cols == A.cols) fun s =>
    let gain := (List.range G.cols).map (G.get false)
    s.vrows D A [D, A, G] (normRow mean (outFraction ext (D.w - 4)) D.w · gain) G.poi (A.sat || G.sat)

/-- What sH gives a VOPT word (R244). -/
structure Hyper where
  epsx : Nat
  us : Nat
  lr : Int
  beta2 : Int
  beta1 : Int
deriving DecidableEq, Repr

def hyperOf (v : Word) : Hyper :=
  { epsx := fieldN v 54 5, us := fieldN v 48 6, lr := fieldN v 32 16, beta2 := fieldN v 16 16, beta1 := fieldN v 0 16 }

/-- A stored element and its clamp, with the integer that the stored bits stand for. -/
def stored (w : Nat) (v : Int) : (Nat × Bool) × Int := let p := putSat w false v; (p, signExt w (p.1 : Int))

/-- VOPT.SGDM on one element (R245): the moment and the weight. `rd` is RoundX by US. -/
def sgdmEl (hy : Hyper) (ww mw : Nat) (rd : Int → Nat → Int) (W G M : Int) : (Nat × Bool) × (Nat × Bool) :=
  let m := stored mw (shrRne (hy.beta1 * M + G * 2 ^ 16) 16)
  (m.1, putSat ww false (W - rd (hy.lr * m.2) hy.us))

/-- VOPT.LION on one element (R245). -/
def lionEl (hy : Hyper) (ww mw : Nat) (rd : Int → Nat → Int) (W G M : Int) : (Nat × Bool) × (Nat × Bool) :=
  let c := hy.beta1 * M + (2 ^ 16 - hy.beta1) * G
  (putSat mw false (shrRne (hy.beta2 * M + (2 ^ 16 - hy.beta2) * G) 16), putSat ww false (W - rd (hy.lr * c.sign) hy.us))

/-- VOPT.ADAM on one element (R245): the moments and the weight. -/
def adamEl (hy : Hyper) (ww mw : Nat) (rd : Int → Nat → Int) (W G M V : Int) : (Nat × Bool) × (Nat × Bool) × (Nat × Bool) :=
  let m := stored mw (shrRne (hy.beta1 * M + (2 ^ 16 - hy.beta1) * G) 16)
  let v := stored 32 (shrRne (hy.beta2 * V + (2 ^ 16 - hy.beta2) * G * G) 16)
  let t := v.2 + 2 ^ hy.epsx
  let w :=
    if 0 < t then
      let y := rsqCore t 0
      putSat ww false (W - rd (hy.lr * m.2 * y.1) (30 + y.2 + hy.us).toNat)
    else ((putSat ww false W).1, true)
  (m.1, v.1, w)

/-- The rounding of a VOPT word on element i (R238). -/
def State.voptRound (s : State) (m : BitVec 2) (e : BitVec 25) (cols i : Nat) (u : Int) (sh : Nat) : Int :=
  let hx := if e.getLsbD 9 then some s.cur.regs.h[(e.extractLsb' 5 4).toNat] else none
  (s.rounding m).go (tileIndex hx cols i) u sh

/-- VOPT.SGDM and VOPT.LION (R236, R237, R245): the moment tile and the weight tile fall due together. -/
def State.vopt2 (s : State) (m : BitVec 2) (d a b : BitVec 6) (ext : Option (BitVec 25))
    (f : Hyper → Nat → Nat → (Int → Nat → Int) → Int → Int → Int → (Nat × Bool) × (Nat × Bool)) : State :=
  let D := s.tv d
  let A := s.tv a
  let M := s.tv b
  let e := ext.getD 0
  s.vword [D, A, M] (A.grid D && M.grid D && (D.w == 8 || D.w == 16) && (A.w == 8 || A.w == 16) && (M.w == 16 || M.w == 32)) fun s =>
    let hy := hyperOf (s.cur.s (e.extractLsb' 0 5))
    let out := (List.range D.n).map fun i => f hy D.w M.w (s.voptRound m e D.cols i) (D.get false i) (A.get false i) (M.get false i)
    let lat := 8 + 8 * s.blocks [D, A, M]
    let mo := (out.zip (List.range D.n)).map fun (o, i) => (o.1, M.poi i || A.poi i)
    let wo := (out.zip (List.range D.n)).map fun (o, i) => (o.2, D.poi i || A.poi i || M.poi i)
    (s.putTile lat M mo (M.sat || A.sat)).putTile lat D wo (D.sat || A.sat || M.sat)

/-- VOPT.ADAM (R236, R237, R245). -/
def State.vopt3 (s : State) (m : BitVec 2) (d a b : BitVec 6) (ext : Option (BitVec 25)) : State :=
  let D := s.tv d
  let A := s.tv a
  let M := s.tv b
  let e := ext.getD 0
  let V := s.tv (e.extractLsb' 10 6)
  s.vword [D, A, M, V] (A.grid D && M.grid D && V.grid D && (D.w == 8 || D.w == 16) && (A.w == 8 || A.w == 16) && (M.w == 16 || M.w == 32) && V.w == 32) fun s =>
    let hy := hyperOf (s.cur.s (e.extractLsb' 0 5))
    let out := (List.range D.n).map fun i =>
      adamEl hy D.w M.w (s.voptRound m e D.cols i) (D.get false i) (A.get false i) (M.get false i) (V.get false i)
    let lat := 8 + 8 * s.blocks [D, A, M, V]
    let tagged := out.zip (List.range D.n)
    let mo := tagged.map fun (o, i) => (o.1, M.poi i || A.poi i)
    let vo := tagged.map fun (o, i) => (o.2.1, V.poi i || A.poi i)
    let wo := tagged.map fun (o, i) => (o.2.2, D.poi i || A.poi i || M.poi i || V.poi i)
    ((s.putTile lat M mo (M.sat || A.sat)).putTile lat V vo (V.sat || A.sat)).putTile lat D wo (D.sat || A.sat || M.sat || V.sat)

/-- VEXP2 (R241): Computes 2^x for each element by the table routine. -/
def execVexp2 (q : BitVec 2) (d : BitVec 6) (a : BitVec 6) (f : BitVec 5) (ext : Option (BitVec 25)) (σ : State) : Result :=
  word (.vexp2 q d a f ext) σ fun σ => σ.vroutine d a (vexp2El f.toNat (outFraction ext 15))

/-- VLOG2 (R241): Computes log2 x for each element. -/
def execVlog2 (q : BitVec 2) (d : BitVec 6) (a : BitVec 6) (f : BitVec 5) (ext : Option (BitVec 25)) (σ : State) : Result :=
  word (.vlog2 q d a f ext) σ fun σ => σ.vroutine d a (vlog2El f.toNat (outFraction ext 15))

/-- VRCP (R241): Computes the reciprocal of each element. -/
def execVrcp (q : BitVec 2) (d : BitVec 6) (a : BitVec 6) (f : BitVec 5) (ext : Option (BitVec 25)) (σ : State) : Result :=
  word (.vrcp q d a f ext) σ fun σ => σ.vroutine d a (vrcpEl f.toNat (outFraction ext 15))

/-- VRSQ (R241): Computes the reciprocal square root of each element. -/
def execVrsq (q : BitVec 2) (d : BitVec 6) (a : BitVec 6) (f : BitVec 5) (ext : Option (BitVec 25)) (σ : State) : Result :=
  word (.vrsq q d a f ext) σ fun σ => σ.vroutine d a (vrsqEl f.toNat (outFraction ext 15))

/-- VSMAX (R242): Computes the softmax of each row. -/
def execVsmax (q : BitVec 2) (d : BitVec 6) (a : BitVec 6) (f : BitVec 5) (σ : State) : Result :=
  word (.vsmax q d a f) σ fun σ =>
    let D := σ.tv d
    let A := σ.tv a
    let okw := fun w : Nat => w == 8 || w == 16
    σ.vword [D, A] (A.grid D && okw A.w && okw D.w) fun σ => σ.vrows D A [D, A] (softmaxRow f.toNat D.w) (fun _ => false) A.sat

/-- VGELU (R241): Computes GELU for each element. -/
def execVgelu (q : BitVec 2) (d : BitVec 6) (a : BitVec 6) (f : BitVec 5) (ext : Option (BitVec 25)) (σ : State) : Result :=
  word (.vgelu q d a f ext) σ fun σ => σ.vroutine d a (vgeluEl f.toNat (outFraction ext 15))

/-- VRMSN (R243): Applies RMS normalisation to each row with a gain. -/
def execVrmsn (q : BitVec 2) (d : BitVec 6) (a : BitVec 6) (b : BitVec 6) (ext : Option (BitVec 25)) (σ : State) : Result :=
  word (.vrmsn q d a b ext) σ fun σ => σ.vnorm false d a b ext

/-- VLNRM (R243): Applies layer normalisation to each row with a gain. -/
def execVlnrm (q : BitVec 2) (d : BitVec 6) (a : BitVec 6) (b : BitVec 6) (ext : Option (BitVec 25)) (σ : State) : Result :=
  word (.vlnrm q d a b ext) σ fun σ => σ.vnorm true d a b ext

/-- VOPT.SGDM (R245): Applies an SGD-with-momentum update to weights and first moment. -/
def execVoptSgdm (q : BitVec 2) (m : BitVec 2) (d : BitVec 6) (a : BitVec 6) (b : BitVec 6) (ext : Option (BitVec 25)) (σ : State) : Result :=
  word (.voptSgdm q m d a b ext) σ fun σ => σ.vopt2 m d a b ext sgdmEl

/-- VOPT.LION (R245): Applies a Lion update to weights and first moment. -/
def execVoptLion (q : BitVec 2) (m : BitVec 2) (d : BitVec 6) (a : BitVec 6) (b : BitVec 6) (ext : Option (BitVec 25)) (σ : State) : Result :=
  word (.voptLion q m d a b ext) σ fun σ => σ.vopt2 m d a b ext lionEl

/-- VOPT.ADAM (R245): Applies an Adam update to weights and both moments. -/
def execVoptAdam (q : BitVec 2) (m : BitVec 2) (d : BitVec 6) (a : BitVec 6) (b : BitVec 6) (ext : Option (BitVec 25)) (σ : State) : Result :=
  word (.voptAdam q m d a b ext) σ fun σ => σ.vopt3 m d a b ext

end Sys2Proof.Machine
end

