-- ==== Sys2Proof/Machine/Scalar.lean ====
section
/-! DEFINITION. The words of classes S and SI (R153 to R161). -/

namespace Sys2Proof.Machine

/-- DIV (R156). -/
def divS (a b : Int) : Word := if b = 0 then -1 else if a = minI 64 ∧ b = -1 then wordOf (minI 64) else wordOf (divTrunc a b)

/-- REM (R156). -/
def remS (a b : Int) : Word := if b = 0 then wordOf a else if a = minI 64 ∧ b = -1 then 0 else wordOf (a - b * divTrunc a b)

/-- The position and the length of a bit field (R157). -/
def bfPos (b : Word) : Nat := fieldN b 0 6
def bfLen (b : Word) : Nat := min (fieldN b 8 7) (64 - bfPos b)

/-- BFX (R157). -/
def bfx (a b : Word) : Word := BitVec.ofNat 64 (a.toNat / 2 ^ bfPos b % 2 ^ bfLen b)

/-- BFI (R157). -/
def bfi (d a b : Word) : Word :=
  let m := BitVec.ofNat 64 ((2 ^ bfLen b - 1) * 2 ^ bfPos b)
  (d &&& ~~~m) ||| ((a <<< bfPos b) &&& m)

/-- ADD (R155): Writes the wrapping 64-bit sum of sA and sB to sD. -/
def execAdd (q : BitVec 2) (g : BitVec 4) (d : BitVec 5) (a : BitVec 5) (b : BitVec 5) (σ : State) : Result :=
  word (.add q g d a b) σ fun σ => σ.pushS 1 d (σ.cur.s a + σ.cur.s b)

/-- SUB (R155): Writes the wrapping 64-bit difference a − b to sD. -/
def execSub (q : BitVec 2) (g : BitVec 4) (d : BitVec 5) (a : BitVec 5) (b : BitVec 5) (σ : State) : Result :=
  word (.sub q g d a b) σ fun σ => σ.pushS 1 d (σ.cur.s a - σ.cur.s b)

/-- ADD.s (R155): Writes the sum of sA and sB, saturated to .i64, to sD. -/
def execAddS (q : BitVec 2) (g : BitVec 4) (d : BitVec 5) (a : BitVec 5) (b : BitVec 5) (σ : State) : Result :=
  word (.addS q g d a b) σ fun σ => σ.pushS 1 d (wordOf (satI 64 (σ.sv a + σ.sv b)).1)

/-- SUB.s (R155): Writes the difference a − b, saturated to .i64, to sD. -/
def execSubS (q : BitVec 2) (g : BitVec 4) (d : BitVec 5) (a : BitVec 5) (b : BitVec 5) (σ : State) : Result :=
  word (.subS q g d a b) σ fun σ => σ.pushS 1 d (wordOf (satI 64 (σ.sv a - σ.sv b)).1)

/-- AND (R155): Writes the bitwise AND of sA and sB to sD. -/
def execAnd (q : BitVec 2) (g : BitVec 4) (d : BitVec 5) (a : BitVec 5) (b : BitVec 5) (σ : State) : Result :=
  word (.and q g d a b) σ fun σ => σ.pushS 1 d (σ.cur.s a &&& σ.cur.s b)

/-- OR (R155): Writes the bitwise OR of sA and sB to sD. -/
def execOr (q : BitVec 2) (g : BitVec 4) (d : BitVec 5) (a : BitVec 5) (b : BitVec 5) (σ : State) : Result :=
  word (.or q g d a b) σ fun σ => σ.pushS 1 d (σ.cur.s a ||| σ.cur.s b)

/-- XOR (R155): Writes the bitwise XOR of sA and sB to sD. -/
def execXor (q : BitVec 2) (g : BitVec 4) (d : BitVec 5) (a : BitVec 5) (b : BitVec 5) (σ : State) : Result :=
  word (.xor q g d a b) σ fun σ => σ.pushS 1 d (σ.cur.s a ^^^ σ.cur.s b)

/-- ANDN (R155): Writes a AND NOT b to sD. -/
def execAndn (q : BitVec 2) (g : BitVec 4) (d : BitVec 5) (a : BitVec 5) (b : BitVec 5) (σ : State) : Result :=
  word (.andn q g d a b) σ fun σ => σ.pushS 1 d (σ.cur.s a &&& ~~~(σ.cur.s b))

/-- SHL (R155): Writes sA shifted left by ub bits to sD, wrapping, or 0 when ub ≥ 64. -/
def execShl (q : BitVec 2) (g : BitVec 4) (d : BitVec 5) (a : BitVec 5) (b : BitVec 5) (σ : State) : Result :=
  word (.shl q g d a b) σ fun σ => σ.pushS 1 d (if 64 ≤ σ.uv b then 0 else σ.cur.s a <<< (σ.uv b))

/-- SHL.s (R155): Writes sA shifted left by ub bits to sD, saturated to .i64. -/
def execShlS (q : BitVec 2) (g : BitVec 4) (d : BitVec 5) (a : BitVec 5) (b : BitVec 5) (σ : State) : Result :=
  word (.shlS q g d a b) σ fun σ => σ.pushS 1 d (if σ.cur.s a = 0 then 0 else wordOf (satI 64 (σ.sv a * 2 ^ min (σ.uv b) 64)).1)

/-- SHR (R155): Writes the logical right shift of sA by ub bits to sD. -/
def execShr (q : BitVec 2) (g : BitVec 4) (d : BitVec 5) (a : BitVec 5) (b : BitVec 5) (σ : State) : Result :=
  word (.shr q g d a b) σ fun σ => σ.pushS 1 d (σ.cur.s a >>> min (σ.uv b) 64)

/-- SAR (R155): Writes the arithmetic right shift of sA to sD, with the count clamped to 63. -/
def execSar (q : BitVec 2) (g : BitVec 4) (d : BitVec 5) (a : BitVec 5) (b : BitVec 5) (σ : State) : Result :=
  word (.sar q g d a b) σ fun σ => σ.pushS 1 d ((σ.cur.s a).sshiftRight (min (σ.uv b) 63))

/-- ROT (R155): Writes sA rotated left by ub mod 64 bits to sD. -/
def execRot (q : BitVec 2) (g : BitVec 4) (d : BitVec 5) (a : BitVec 5) (b : BitVec 5) (σ : State) : Result :=
  word (.rot q g d a b) σ fun σ => σ.pushS 1 d ((σ.cur.s a).rotateLeft (σ.uv b % 64))

/-- MUL (R155): Writes the low 64 bits of the product a × b to sD. -/
def execMul (q : BitVec 2) (g : BitVec 4) (d : BitVec 5) (a : BitVec 5) (b : BitVec 5) (σ : State) : Result :=
  word (.mul q g d a b) σ fun σ => σ.pushS 3 d (σ.cur.s a * σ.cur.s b)

/-- MUL.s (R155): Writes the product a × b, saturated to .i64, to sD. -/
def execMulS (q : BitVec 2) (g : BitVec 4) (d : BitVec 5) (a : BitVec 5) (b : BitVec 5) (σ : State) : Result :=
  word (.mulS q g d a b) σ fun σ => σ.pushS 3 d (wordOf (satI 64 (σ.sv a * σ.sv b)).1)

/-- MULH (R155): Writes the high 64 bits of the signed product to sD. -/
def execMulh (q : BitVec 2) (g : BitVec 4) (d : BitVec 5) (a : BitVec 5) (b : BitVec 5) (σ : State) : Result :=
  word (.mulh q g d a b) σ fun σ => σ.pushS 3 d (wordOf (asr (σ.sv a * σ.sv b) 64))

/-- MULHW (R155): Writes the high 64 bits of the unsigned product to sD. -/
def execMulhw (q : BitVec 2) (g : BitVec 4) (d : BitVec 5) (a : BitVec 5) (b : BitVec 5) (σ : State) : Result :=
  word (.mulhw q g d a b) σ fun σ => σ.pushS 3 d (BitVec.ofNat 64 (σ.uv a * σ.uv b / 2 ^ 64))

/-- DIV (R156): Writes the signed quotient, truncated toward zero, to sD; it never traps. -/
def execDiv (q : BitVec 2) (g : BitVec 4) (d : BitVec 5) (a : BitVec 5) (b : BitVec 5) (σ : State) : Result :=
  word (.div q g d a b) σ fun σ => σ.pushS 18 d (divS (σ.sv a) (σ.sv b))

/-- DIVW (R156): Writes the unsigned quotient to sD; division by zero gives −1. -/
def execDivw (q : BitVec 2) (g : BitVec 4) (d : BitVec 5) (a : BitVec 5) (b : BitVec 5) (σ : State) : Result :=
  word (.divw q g d a b) σ fun σ => σ.pushS 18 d (if σ.uv b = 0 then -1 else BitVec.ofNat 64 (σ.uv a / σ.uv b))

/-- REM (R156): Writes the signed remainder to sD; division by zero gives a. -/
def execRem (q : BitVec 2) (g : BitVec 4) (d : BitVec 5) (a : BitVec 5) (b : BitVec 5) (σ : State) : Result :=
  word (.rem q g d a b) σ fun σ => σ.pushS 18 d (remS (σ.sv a) (σ.sv b))

/-- REMW (R156): Writes the unsigned remainder to sD; division by zero gives a. -/
def execRemw (q : BitVec 2) (g : BitVec 4) (d : BitVec 5) (a : BitVec 5) (b : BitVec 5) (σ : State) : Result :=
  word (.remw q g d a b) σ fun σ => σ.pushS 18 d (if σ.uv b = 0 then σ.cur.s a else BitVec.ofNat 64 (σ.uv a % σ.uv b))

/-- MIN (R155): Writes the signed minimum of sA and sB to sD. -/
def execMin (q : BitVec 2) (g : BitVec 4) (d : BitVec 5) (a : BitVec 5) (b : BitVec 5) (σ : State) : Result :=
  word (.min q g d a b) σ fun σ => σ.pushS 1 d (if σ.sv a ≤ σ.sv b then σ.cur.s a else σ.cur.s b)

/-- MAX (R155): Writes the signed maximum of sA and sB to sD. -/
def execMax (q : BitVec 2) (g : BitVec 4) (d : BitVec 5) (a : BitVec 5) (b : BitVec 5) (σ : State) : Result :=
  word (.max q g d a b) σ fun σ => σ.pushS 1 d (if σ.sv a ≤ σ.sv b then σ.cur.s b else σ.cur.s a)

/-- MINW (R155): Writes the unsigned minimum of sA and sB to sD. -/
def execMinw (q : BitVec 2) (g : BitVec 4) (d : BitVec 5) (a : BitVec 5) (b : BitVec 5) (σ : State) : Result :=
  word (.minw q g d a b) σ fun σ => σ.pushS 1 d (if σ.uv a ≤ σ.uv b then σ.cur.s a else σ.cur.s b)

/-- MAXW (R155): Writes the unsigned maximum of sA and sB to sD. -/
def execMaxw (q : BitVec 2) (g : BitVec 4) (d : BitVec 5) (a : BitVec 5) (b : BitVec 5) (σ : State) : Result :=
  word (.maxw q g d a b) σ fun σ => σ.pushS 1 d (if σ.uv a ≤ σ.uv b then σ.cur.s b else σ.cur.s a)

/-- CLZ (R155): Writes the count of leading zeros of sA to sD. -/
def execClz (q : BitVec 2) (g : BitVec 4) (d : BitVec 5) (a : BitVec 5) (σ : State) : Result :=
  word (.clz q g d a) σ fun σ => σ.pushS 1 d (BitVec.ofNat 64 (64 - bitLen (σ.uv a)))

/-- CLS (R155): Writes Headroom(a, 64) to sD. -/
def execCls (q : BitVec 2) (g : BitVec 4) (d : BitVec 5) (a : BitVec 5) (σ : State) : Result :=
  word (.cls q g d a) σ fun σ => σ.pushS 1 d (BitVec.ofNat 64 (headroom 64 (σ.sv a)))

/-- POPC (R155): Writes the number of one bits in sA to sD. -/
def execPopc (q : BitVec 2) (g : BitVec 4) (d : BitVec 5) (a : BitVec 5) (σ : State) : Result :=
  word (.popc q g d a) σ fun σ => σ.pushS 1 d (BitVec.ofNat 64 (popCount (σ.uv a) 64))

/-- BFX (R157): Extracts a zero-extended bit field of sA at the position and length given in sB. -/
def execBfx (q : BitVec 2) (g : BitVec 4) (d : BitVec 5) (a : BitVec 5) (b : BitVec 5) (σ : State) : Result :=
  word (.bfx q g d a b) σ fun σ => σ.pushS 1 d (bfx (σ.cur.s a) (σ.cur.s b))

/-- BFI (R157): Inserts bits of sA into sD at the position and length given in sB. -/
def execBfi (q : BitVec 2) (g : BitVec 4) (d : BitVec 5) (a : BitVec 5) (b : BitVec 5) (σ : State) : Result :=
  word (.bfi q g d a b) σ fun σ => σ.pushS 1 d (bfi (σ.cur.s d) (σ.cur.s a) (σ.cur.s b))

/-- SEL (R158): Writes sA to sD when the selector predicate is true, and sB otherwise. -/
def execSel (q : BitVec 2) (s : BitVec 4) (d : BitVec 5) (a : BitVec 5) (b : BitVec 5) (σ : State) : Result :=
  word (.sel q s d a b) σ fun σ => σ.pushS 1 d (if σ.cur.guardTrue s then σ.cur.s a else σ.cur.s b)

/-- MOV (R155): Copies sA to sD. -/
def execMov (q : BitVec 2) (g : BitVec 4) (d : BitVec 5) (a : BitVec 5) (σ : State) : Result :=
  word (.mov q g d a) σ fun σ => σ.pushS 1 d (σ.cur.s a)

/-- MOVP (R158): Writes to pD the AND or OR of two predicates, each of which may be negated. -/
def execMovp (q : BitVec 2) (g : BitVec 4) (f : BitVec 1) (p : BitVec 3) (n : BitVec 1) (x : BitVec 3) (m : BitVec 1) (y : BitVec 3) (σ : State) : Result :=
  word (.movp q g f p n x m y) σ fun σ =>
    let u := σ.cur.p x != (n == 1)
    let v := σ.cur.p y != (m == 1)
    σ.setP p (if f = 0 then u && v else u || v)

/-- CMP.eq (R158): Sets pD to the result of a = b. -/
def execCmpEq (q : BitVec 2) (g : BitVec 4) (p : BitVec 3) (a : BitVec 5) (b : BitVec 5) (σ : State) : Result :=
  word (.cmpEq q g p a b) σ fun σ => σ.setP p (decide (σ.cur.s a = σ.cur.s b))

/-- CMP.ne (R158): Sets pD to the result of a ≠ b. -/
def execCmpNe (q : BitVec 2) (g : BitVec 4) (p : BitVec 3) (a : BitVec 5) (b : BitVec 5) (σ : State) : Result :=
  word (.cmpNe q g p a b) σ fun σ => σ.setP p (decide (σ.cur.s a ≠ σ.cur.s b))

/-- CMP.lt (R158): Sets pD to the result of the signed comparison a < b. -/
def execCmpLt (q : BitVec 2) (g : BitVec 4) (p : BitVec 3) (a : BitVec 5) (b : BitVec 5) (σ : State) : Result :=
  word (.cmpLt q g p a b) σ fun σ => σ.setP p (decide (σ.sv a < σ.sv b))

/-- CMP.ge (R158): Sets pD to the result of the signed comparison a ≥ b. -/
def execCmpGe (q : BitVec 2) (g : BitVec 4) (p : BitVec 3) (a : BitVec 5) (b : BitVec 5) (σ : State) : Result :=
  word (.cmpGe q g p a b) σ fun σ => σ.setP p (decide (σ.sv b ≤ σ.sv a))

/-- CMP.ltw (R158): Sets pD to the result of the unsigned comparison ua < ub. -/
def execCmpLtw (q : BitVec 2) (g : BitVec 4) (p : BitVec 3) (a : BitVec 5) (b : BitVec 5) (σ : State) : Result :=
  word (.cmpLtw q g p a b) σ fun σ => σ.setP p (decide (σ.uv a < σ.uv b))

/-- CMP.gew (R158): Sets pD to the result of the unsigned comparison ua ≥ ub. -/
def execCmpGew (q : BitVec 2) (g : BitVec 4) (p : BitVec 3) (a : BitVec 5) (b : BitVec 5) (σ : State) : Result :=
  word (.cmpGew q g p a b) σ fun σ => σ.setP p (decide (σ.uv b ≤ σ.uv a))

/-- ADDI (R161): Writes sA plus a signed immediate to sD. -/
def execAddi (q : BitVec 2) (d : BitVec 5) (a : BitVec 5) (i : BitVec 11) (ext : Option (BitVec 25)) (σ : State) : Result :=
  word (.addi q d a i ext) σ fun σ => σ.pushS 1 d (wordOf (σ.sv a + immS 11 i ext))

/-- LI (R161): Loads a signed immediate into sD. -/
def execLi (q : BitVec 2) (d : BitVec 5) (i : BitVec 16) (ext : Option (BitVec 25)) (σ : State) : Result :=
  word (.li q d i ext) σ fun σ => σ.pushS 1 d (wordOf (immS 16 i ext))

/-- LIH (R161): Replaces the high 32 bits of sD with an unsigned immediate. -/
def execLih (q : BitVec 2) (d : BitVec 5) (i : BitVec 16) (ext : Option (BitVec 25)) (σ : State) : Result :=
  word (.lih q d i ext) σ fun σ => σ.pushS 1 d (((σ.cur.s d).setWidth 32).setWidth 64 ||| BitVec.ofNat 64 (immU 16 i ext % 2 ^ 32 * 2 ^ 32))

/-- CMPI.eq (R161): Sets pD to the result of sA = imm. -/
def execCmpiEq (q : BitVec 2) (p : BitVec 3) (a : BitVec 5) (i : BitVec 11) (ext : Option (BitVec 25)) (σ : State) : Result :=
  word (.cmpiEq q p a i ext) σ fun σ => σ.setP p (decide (σ.sv a = immS 11 i ext))

/-- CMPI.ne (R161): Sets pD to the result of sA ≠ imm. -/
def execCmpiNe (q : BitVec 2) (p : BitVec 3) (a : BitVec 5) (i : BitVec 11) (ext : Option (BitVec 25)) (σ : State) : Result :=
  word (.cmpiNe q p a i ext) σ fun σ => σ.setP p (decide (σ.sv a ≠ immS 11 i ext))

/-- CMPI.lt (R161): Sets pD to the result of the signed comparison sA < imm. -/
def execCmpiLt (q : BitVec 2) (p : BitVec 3) (a : BitVec 5) (i : BitVec 11) (ext : Option (BitVec 25)) (σ : State) : Result :=
  word (.cmpiLt q p a i ext) σ fun σ => σ.setP p (decide (σ.sv a < immS 11 i ext))

/-- CMPI.ge (R161): Sets pD to the result of the signed comparison sA ≥ imm. -/
def execCmpiGe (q : BitVec 2) (p : BitVec 3) (a : BitVec 5) (i : BitVec 11) (ext : Option (BitVec 25)) (σ : State) : Result :=
  word (.cmpiGe q p a i ext) σ fun σ => σ.setP p (decide (immS 11 i ext ≤ σ.sv a))

/-- CMPI.ltw (R161): Sets pD to the result of the unsigned comparison sA < imm. -/
def execCmpiLtw (q : BitVec 2) (p : BitVec 3) (a : BitVec 5) (i : BitVec 11) (ext : Option (BitVec 25)) (σ : State) : Result :=
  word (.cmpiLtw q p a i ext) σ fun σ => σ.setP p (decide (σ.uv a < immU 11 i ext))

/-- CMPI.gew (R161): Sets pD to the result of the unsigned comparison sA ≥ imm. -/
def execCmpiGew (q : BitVec 2) (p : BitVec 3) (a : BitVec 5) (i : BitVec 11) (ext : Option (BitVec 25)) (σ : State) : Result :=
  word (.cmpiGew q p a i ext) σ fun σ => σ.setP p (decide (immU 11 i ext ≤ σ.uv a))

end Sys2Proof.Machine
end

