-- ==== Sys2Proof/Machine/Service.lean ====
section
/-! DEFINITION. Bring-up, rebinding, repairs, power, telemetry and attestation (R90, R105, R106, R362 to R370). -/

namespace Sys2Proof.Machine

/-! ## Completion of packets that housekeeping ends -/

/-- The result record that a job ends with has an address that translates; a job without one has nothing to write (R79, R363). -/
def State.jobFits (s : State) (j : BindJob) : Bool := j.pkt == 0 || pk j.pkt 0 1 != 13 || s.recordFits j.queue (pk j.pkt 0x20 8)

/-- A job of BIND or REPAIR is over, with its effect `done` and the number of cores rebound: its result record when it has one, and its packet. The Awl's
own rebinding has no packet. Where the record's address no longer translates, the packet has no effect and puts its queue into ERROR with XLATE (R79). -/
def State.endJob (s : State) (j : BindJob) (moved : Nat) (done : State → State) : State :=
  if !s.jobFits j then (s.dropJob j).failLater j.queue j.index 6
  else
    let s := done s
    let s := { s with dist := { s.dist with jobs := s.dist.jobs.erase j } }
    if j.pkt = 0 then s
    else
      let s := if pk j.pkt 0 1 = 13 then s.resultRecord j.queue (pk j.pkt 0x20 8) 0 (pk j.pkt 0x10 1) moved 0 else s
      s.completeLater j.queue j.index 0

/-! ## Bring-up (R362) -/

/-- A core of a stack as it ships, or as the binding map of earlier repairs has it (R11, R365). The map has no row for a gang: power undoes every gang.
DESIGN CHOICE: log entry 72. PRESUMED: log entry 58. -/
def State.bootCore (s : State) (idx : Nat) : Core :=
  let y := idx / 16 % 16
  let x := idx % 16
  let c : Core := { idx := idx, state := .active, siteX := x, halves := bothHalves y x }
  match s.svc.map.find? fun r => r.idx == idx with
  | none => c
  | some r => if r.retired then { c with state := .retired, halves := [] } else { c with siteX := r.siteX, halves := r.halves, paired := pairedHalves r.halves }

/-- The cores of a stack come into service (R11, R13, R16): the halves that its test found bad are defective (R9); the cores whose front end has failed its test,
or whose halves are not good, are rebound or retired, in the order of their indices; and the reserve takes the N highest indices among the active ones (R100,
R102). DESIGN CHOICE: log entry 80. DEDUCED: log entry 46. -/
def State.bootStack (s : State) (st : Nat) (fronts : List (Nat × Nat)) (halves : List (Nat × Nat × BitVec 1)) : State :=
  let failed : List (Nat × Nat × Nat) := fronts.map fun e => (st, e.1, e.2)
  let s : State := { s with cores := ((List.range 256).map fun i => s.bootCore (256 * st + i)).foldl coresPut s.cores,
                            svc := { s.svc with halfStates := halves.foldl (fun l e => setHalfState l st e.1 e.2.1 e.2.2 .retired) s.svc.halfStates, failedFronts := s.svc.failedFronts ++ failed, stk := s.svc.stk.setIfInBounds st .joined } }
  let s := (List.range 256).foldl (fun (s : State) i => s.mendCore (256 * st + i)) s
  let members := (((s.stackCores st).map (·.idx)).reverse).take (s.dist.reserve[st]?.getD {}).n
  State.capReserve { s with cores := s.cores.map fun c => if members.contains c.idx then { c with rsv := true } else c } st

/-- The patches of the patch table as they stand in MRAM: installed ones replace those of the same entry. PRESUMED: log entry 50. -/
def mramPatches (old new : List Patch) : List Patch := (old.filter fun p => !(new.any fun n => n.entry == p.entry)) ++ new

/-- Each patch is checked again; whether its signature verifies is a free value (R90, R362). -/
def checkPatches (free : Nat) : List Patch → List Patch × List Patch
  | [] => ([], [])
  | p :: rest =>
    let r := checkPatches (free + 1) rest
    if Config.freeBool free then (p :: r.1, r.2) else (r.1, p :: r.2)

/-- POWER_GOOD (R362): Module reset begins: ROM boot, patch load, DRAM hard repair and training. DEDUCED: log entry 48. -/
def execPowerGood (σ : State) : Result :=
  let all := mramPatches σ.awl.patches σ.awl.newPatches
  let r := checkPatches σ.free all
  let base := State.reset
  let svc := { Service.reset with phase := 2, map := σ.svc.map, loneHalves := σ.svc.loneHalves, halfStates := σ.svc.halfStates.filter fun e => e.2.2.2.2 == HalfState.retired }
  let s : State := { base with agenda := σ.agenda, free := σ.free + all.length, mem := σ.mem.filter (fun c => decide (hostPA 0 ≤ c.1)),
                               poison := σ.poison.filter (fun a => decide (hostPA 0 ≤ a)), awl := { base.awl with patches := r.1, newPatches := r.2 }, svc := svc }
  .next (r.2.foldl (fun s _ => s.count "patches skipped") s)

/-- STACK_SELF_TEST_PASS (R362): A stack passes its welt self-test and joins service; front ends that the test found failed are marked so
(R16). The stack that runs slowly in phases 3 and 4 is the lowest-numbered one that has passed. DEDUCED: log entry 48. -/
def execStackSelfTestPass (r : SelfTest) (σ : State) : Result :=
  let v := σ.svc
  let st := r.stack
  if v.phase < 2 ∨ v.stk[st.toNat]?.getD .absent ≠ .waiting then .fault (.notEnabled "STACK_SELF_TEST_PASS")
  else
    let s := σ.bootStack st.toNat r.fronts r.halves
    let slow := if v.phase = 2 then some st.toNat else v.slowStack.map fun k => min k st.toNat
    .next { s with svc := { s.svc with phase := if v.phase = 2 then 3 else max v.phase 4, slowStack := slow } }

/-- STACK_SELF_TEST_FAIL (R362): A stack fails its welt self-test during bring-up; on its second failure it is reported absent and its 256 logical coordinates read absent. -/
def execStackSelfTestFail (st : BitVec 2) (σ : State) : Result :=
  let v := σ.svc
  if v.phase < 2 ∨ v.stk[st.toNat]?.getD .absent ≠ .waiting then .fault (.notEnabled "STACK_SELF_TEST_FAIL")
  else
    let n := v.stackFails[st.toNat]?.getD 0 + 1
    .next { σ with svc := { v with stackFails := v.stackFails.setIfInBounds st.toNat n, stk := if 2 ≤ n then v.stk.setIfInBounds st.toNat .absent else v.stk } }

/-- BRINGUP_TIMEOUT (R362): All stacks have joined, or 4 s have passed, and clocks and PCIe step to full rate. DEDUCED: log entry 48. DESIGN CHOICE: log entry 64. -/
def execBringupTimeout (σ : State) : Result :=
  if σ.svc.phase = 3 ∨ σ.svc.phase = 4 then .next { σ with svc := { σ.svc with phase := 5, slowStack := none } } else .fault (.notEnabled "BRINGUP_TIMEOUT")

/-- An axis's extent is set. -/
def State.setExtent (s : State) (axis : Axis) (n : Nat) : State :=
  { s with link := match axis with
    | .x => { s.link with dx := n }
    | .y => { s.link with dy := n }
    | .z => { s.link with dz := n } }

/-- The number of an axis. -/
def axisCode (a : Axis) : Nat :=
  match a with
  | .x => 0 | .y => 1 | .z => 2

/-- The probe of an axis is on its way: neither has it returned nor has its time passed (R362). -/
def State.probing (s : State) (axis : Axis) : Bool := decide (3 ≤ s.svc.phase) && !s.link.probed.getLsbD (axisCode axis)

/-- The probe of an axis ends with an extent. -/
def State.endProbe (s : State) (axis : Axis) (n : Nat) : State :=
  let s := s.setExtent axis n
  { s with link := { s.link with probed := s.link.probed ||| BitVec.ofNat 3 (2 ^ axisCode axis) } }

/-- PROBE_RETURN (R362): A probe flit returns around an axis, which gives that axis's extent. -/
def execProbeReturn (axis : Axis) (hops : BitVec 6) (σ : State) : Result :=
  if !σ.probing axis ∨ hops = 0 ∨ 32 < hops.toNat then .fault (.notEnabled "PROBE_RETURN") else .next (σ.endProbe axis hops.toNat)

/-- PROBE_TIMEOUT (R362): A probe does not return within 1 ms and the extent is set to 1. -/
def execProbeTimeout (axis : Axis) (σ : State) : Result :=
  if !σ.probing axis then .fault (.notEnabled "PROBE_TIMEOUT") else .next (σ.endProbe axis 1)

/-! ## Engine checks and rebinding (R104 to R106, R363, R365) -/

/-- The lowest bit of a slot's field in CTL.EMAP, and of its sibling's (R104). -/
def emapBit (x : EngineSlot) : Nat :=
  match x with
  | .va => 0 | .vb => 2 | .ca => 4 | .cb => 6
def emapSibling (x : EngineSlot) : EngineSlot :=
  match x with
  | .va => .vb | .vb => .va | .ca => .cb | .cb => .ca

/-- The Awl's own decision to rebind a half after 64 failed checks (R365). -/
def State.ownRebind (s : State) (idx : Nat) (b : BoundHalf) : State :=
  let half : BitVec 2 := b.half.zeroExtend 2
  match s.rebindCheck idx b.x half with
  | .error _ => s
  | .ok (i, y, plan) => s.startRebind { op := 2, core := i, width := 0, cores := [], pkt := 0, queue := 0, index := 0, site := b.x, half := half } i y plan

/-- Failed checks of a half (R365). -/
def State.failCount (s : State) (st : Nat) (b : BoundHalf) : Nat :=
  ((s.svc.failedChecks.find? fun e => e.1 == st && e.2.1 == b.y && e.2.2.1 == b.x && e.2.2.2.1 == b.half).map (·.2.2.2.2)).getD 0

/-- A failed check of a half: one more for the half, which enters SPLIT when it was GOOD, and its instance of the slot is out of service (R104, R365). -/
def State.failHalf (s : State) (st : Nat) (b : BoundHalf) (slot : EngineSlot) : State :=
  let v := s.svc
  let at_ := fun (y x : Nat) (h : BitVec 1) => y == b.y && x == b.x && h == b.half
  let out := ((v.splitSlots.find? fun e => e.1 == st && at_ e.2.1 e.2.2.1 e.2.2.2.1).map (·.2.2.2.2)).getD 0
  { s with svc := { v with
      halfStates := if s.halfState st b = .good then setHalfState v.halfStates st b.y b.x b.half .split else v.halfStates
      failedChecks := (v.failedChecks.filter fun e => !(e.1 == st && at_ e.2.1 e.2.2.1 e.2.2.2.1)) ++ [(st, b.y, b.x, b.half, s.failCount st b + 1)]
      splitSlots := (v.splitSlots.filter fun e => !(e.1 == st && at_ e.2.1 e.2.2.1 e.2.2.2.1)) ++ [(st, b.y, b.x, b.half, out ||| BitVec.ofNat 8 (2 ^ emapBit slot))] } }

/-- ENGINE_CHECK_FAIL (R365): An engine check fails: its half enters SPLIT and the core's EMAP field for the slot reads sibling, unless its sibling's does
(R104). Which of the core's halves holds the engine is a free value. From the 64th failed check of a half on, the Awl decides to rebind it. -/
def execEngineCheckFail (core : BitVec 10) (slot : EngineSlot) (σ : State) : Result :=
  let c := σ.core core.toNat
  if !c.active then .fault (.notEnabled "ENGINE_CHECK_FAIL")
  else
    let (k, σ) := σ.takeFreeNat
    match c.halves[k % max 1 c.halves.length]? with
    | none => .fault (.notEnabled "ENGINE_CHECK_FAIL")
    | some b =>
      let st := coreStack c.idx
      let σ := (σ.setCore { c with emap := if c.emap.getLsbD (emapBit (emapSibling slot)) then c.emap else c.emap ||| BitVec.ofNat 8 (2 ^ emapBit slot) }).failHalf st b slot
      .next (if 64 ≤ σ.failCount st b ∧ σ.halfState st b = .split then σ.ownRebind c.idx b else σ)

/-- REBIND_DONE (R365): The affected cores have drained, and the welt is rebound and the half retired. -/
def execRebindDone (σ : State) : Result :=
  match σ.dist.jobs.find? fun j => j.op == 2 && σ.drained j with
  | none => .fault (.notEnabled "REBIND_DONE")
  | some j => .next (σ.endJob j j.plan.length fun s => s.rebind j)

/-- BIND_DRAIN_DONE (R105): The affected cores of a BIND have drained, and the welt is rebound and the command completes. -/
def execBindDrainDone (σ : State) : Result :=
  match σ.dist.jobs.find? fun j => (j.op == 0 || j.op == 1) && σ.drained j with
  | none => .fault (.notEnabled "BIND_DRAIN_DONE")
  | some j => .next (σ.endJob j 0 fun s => (if j.op = 0 then s.formGang j else s.dissolveGang j).keepReserve (coreStack j.core))

/-- CORE_RETIRE_DRAIN_DONE (R363): The drain of a core named by REPAIR OP 3 completes; its coordinate then reads absent and its halves become spares. -/
def execCoreRetireDrainDone (core : BitVec 10) (σ : State) : Result :=
  match σ.dist.jobs.find? fun j => j.op == 3 && j.core == core.toNat && σ.drained j with
  | none => .fault (.notEnabled "CORE_RETIRE_DRAIN_DONE")
  | some j => .next (σ.endJob j 0 fun s => (s.retireCore core.toNat).keepReserve (coreStack core.toNat))

/-! ## DRAM rows and lanes (R366, R367) -/

/-- DRAM_SOFT_REPAIR (R366): The controller finds an uncorrectable row and soft-repairs it automatically. `lost`: the bytes that were uncorrectable, which lie
in the row: their granule is on the channel under the swizzle code of some entry (R251, R260), and their bank and row are the implementation's. -/
def execDramSoftRepair (chan : BitVec 8) (bank : BitVec 8) (row : BitVec 32) (lost : List Nat) (σ : State) : Result :=
  let here := fun (a : Nat) => decide (dramPA 0 ≤ a) && decide (a < hostPA 0) && (dramChannels (a - dramPA 0)).contains chan.toNat &&
    Config.dramBank (a - dramPA 0) == bank && Config.dramRow (a - dramPA 0) == row
  if !lost.all here then .fault (.notEnabled "DRAM_SOFT_REPAIR")
  else
    let σ := (lost.foldl (fun (s : State) a => s.setByte a (s.byte a) true) σ).noteChan chan.toNat 2
    .next (if σ.repairRoom chan.toNat then σ.softRepair chan.toNat bank.toNat row.toNat else σ.noteChan chan.toNat 3)

/-- The flits that a port need hold no longer leave, the oldest first (R329, R367): with the last held flit of a packet its origin's role is done (R341), and an
ABORT whose control flit no port holds any longer completes (R342). -/
def State.releaseFlits (s : State) (port : Nat) : State :=
  let x := s.port port
  let l := (x.held.filter fun h => !x.holds h.flit).map (·.flit)
  let s := s.setPort port (Port.press { x with held := x.held.filter fun h => x.holds h.flit })
  let s := { s with link := { s.link with out := s.link.out ++ l.map fun f => (port, f.plain) } }
  let s := l.foldl (fun (s : State) f => match f with
    | .coll p => s.packetLeft p
    | _ => s) s
  (s.allNodes.filter fun n => !n.eng.aborts.isEmpty).foldl (fun (s : State) n =>
    s.mapNode n.desc.uid fun m => { m with eng := { m.eng with aborts := m.eng.aborts.filter fun t => s.portsHold (· == .abort t) } }) s

/-- LANE_RETRAIN_DONE (R367): A port finishes retraining onto the spare lane and sends its held flits, the oldest first. -/
def execLaneRetrainDone (port : BitVec 4) (σ : State) : Result :=
  let x := σ.port port.toNat
  if 12 ≤ port.toNat ∨ !x.retraining then .fault (.notEnabled "LANE_RETRAIN_DONE")
  else .next ((σ.setPort port.toNat { x with retraining := false }).releaseFlits port.toNat)

/-- A channel of a port gains credit or runs out of it (R329): without credit the port holds the channel's flits, and with it they leave in their order. DESIGN CHOICE: log entry 83. -/
def State.creditPort (s : State) (port chan : Nat) (has : Bool) : State :=
  let x := s.port port
  if 12 ≤ port ∨ 3 ≤ chan then s
  else
    let bit := BitVec.ofNat 3 (2 ^ chan)
    (s.setPort port { x with noCredit := if has then x.noCredit &&& ~~~bit else x.noCredit ||| bit }).releaseFlits port

/-- LANE_FAIL (R367): A lane fails while the spare is in service, and the port degrades to four lanes. -/
def execLaneFail (port : BitVec 4) (lane : BitVec 4) (σ : State) : Result :=
  let x := σ.port port.toNat
  if 12 ≤ port.toNat ∨ 9 ≤ lane.toNat ∨ !x.spareUsed ∨ x.degraded then .fault (.notEnabled "LANE_FAIL") else .next (σ.degrade port.toNat)

/-! ## Power (R368) -/

/-- POWER_SAMPLE (R368): The heel die measures module power every 10 µs; the average runs over the last ten samples, of which the telemetry shows whole
watts. DEDUCED: log entry 49. DESIGN CHOICE: log entry 55. -/
def execPowerSample (watts : Nat) (σ : State) : Result :=
  let l := ((σ.svc.powerSamples ++ [watts]).reverse.take 10).reverse
  .next { σ with svc := { σ.svc with powerSamples := l, powerAvg := l.sum / l.length } }

/-- CLOCK_STEP (R368): At most once per 100 µs the arithmetic clock steps down or up against the power limit, by the exact average. `clockStep` counts sixteenths of
1.7 GHz below full rate; 8 is 0.85 GHz. DEDUCED: log entry 49. -/
def execClockStep (σ : State) : Result :=
  let v := σ.svc
  let sum := v.powerSamples.sum
  let number := v.powerSamples.length
  let hot := decide (v.powerLimit * number < sum)
  let cool := decide (sum * 100 < v.powerLimit * 95 * number)
  if hot then
    if v.clockStep < 8 then .next { σ with svc := { v with clockStep := v.clockStep + 1 } }
    else if σ.dist.deferred then .fault (.notEnabled "CLOCK_STEP")
    else .next { σ with dist := { σ.dist with deferred := true } }
  else if cool ∧ 0 < v.clockStep then .next { σ with svc := { v with clockStep := v.clockStep - 1 }, dist := { σ.dist with deferred := false } }
  else if σ.dist.deferred then .next { σ with dist := { σ.dist with deferred := false } }
  else .fault (.notEnabled "CLOCK_STEP")

/-! ## Telemetry (R369) -/

/-- A counter of a DRAM channel. -/
def chanCount (l : List (Nat × Nat × Nat)) (chan kind : Nat) : Nat := ((l.find? fun e => e.1 == chan && e.2.1 == kind).map (·.2.2)).getD 0

/-- The per-channel part: soft repairs, correctable errors, uncorrectable errors, full-table events, four bytes each. DESIGN CHOICE: log entry 39. -/
def chanCells (l : List (Nat × Nat × Nat)) : List Host.Cell :=
  fieldCells 0x1000 4 ((List.range 256).flatMap fun c => (List.range 4).map fun k => chanCount l c k)

/-- How far a stack has come at bring-up, as a number. -/
def StackState.code (x : StackState) : Nat :=
  match x with
  | .waiting => 0 | .joined => 1 | .absent => 2

/-- What the telemetry header reports, with the spare counts of R363; the mailbox records that have been dropped (R262) and the other counters of the module that R369
gives no place of their own are reported with it. -/
def State.headerContent (s : State) (spares : Nat) : List Nat :=
  [s.svc.phase] ++ s.svc.stk.toList.map StackState.code ++
    [s.svc.clockStep, s.svc.powerAvg, s.svc.powerLimit, s.link.x.toNat, s.link.y.toNat, s.link.z.toNat, s.link.dx, s.link.dy, s.link.dz, spares, s.awl.mailDropped % 2 ^ 32]

/-- What the telemetry reports of a port. -/
def Port.content (p : Port) : List Nat := [p.lanes, p.degradations, p.heldCount]

/-- What the telemetry reports of a core: its counters, and the address of the last word that touched a guard granule (R347). -/
def Core.content (c : Core) : List (String × Nat) :=
  match c.guardAddr with
  | some a => c.tele ++ [("guard touch address", a.toNat)]
  | none => c.tele

/-- The bytes of a part of the area, from an offset on, that are not 0. -/
def partCells (off len : Nat) (f : Nat → Byte) : List Host.Cell := ((List.range len).map fun i => (off + i, f i)).filter fun c => c.2 != 0

/-- TELEMETRY_REFRESH (R369): The Awl refreshes the telemetry area every 1 ms. The places of the fields within the header, a port's and a core's part are the
implementation's: each byte is an uninterpreted function of what the part reports. DESIGN CHOICE: log entry 39. -/
def execTelemetryRefresh (σ : State) : Result :=
  if σ.svc.phase < 3 then .fault (.notEnabled "TELEMETRY_REFRESH")
  else
    let base := ringPA 0x50000
    let (spares, σ) := σ.sparesWord
    let head := partCells 0 0x100 (Config.headerByte (σ.headerContent spares) σ.svc.tele)
    let ports := (List.range 12).flatMap fun p => partCells (0x2000 + 64 * p) 64 (Config.portByte (σ.port p).content)
    let cores := (List.range 1024).flatMap fun i => partCells (512 * i) 512 (Config.coreByte (σ.core i).content)
    let σ := σ.writeArea base 0x2300 (head ++ chanCells σ.svc.dramCounts ++ ports) []
    .next (σ.writeArea (base + 0x3000) 0x80000 cores [])

/-! ## Attestation (R90, R370) -/

/-- Write bytes to a tensor-relative range of the host's, or nothing where one does not translate. -/
def State.awlPut (s : State) (q : BitVec 6) (addr : Nat) (l : List Byte) : Option State :=
  if (List.range l.length).all fun i => (s.awlPA q true (addr + i) true).isSome then
    some (l.zipIdx.foldl (fun (s : State) e => match s.awlPA q true (addr + e.2) true with
      | some (pa, _) => s.setByte pa e.1 false
      | none => s) s)
  else none

/-- Free bytes. -/
def freeBytes (key n : Nat) : List Byte := (List.range n).map (Config.freeByte key)

/-- What the measurement is taken over, beside the ROM (R370): the patch table as loaded, the binding map, and the pending DRAM list. -/
def State.measured (s : State) : List Nat :=
  (s.awl.patches.flatMap fun p => [p.entry, p.version.toNat, p.bytes.length] ++ p.bytes.map (·.toNat)) ++ [s.svc.map.length] ++
    (s.svc.map.flatMap fun r => [r.idx, if r.retired then 1 else 0, r.siteX, r.halves.length] ++ r.halves.flatMap fun b => [b.y, b.x, b.half.toNat]) ++
    [s.svc.mramPending.length] ++ s.svc.mramPending.flatMap fun r => [r.chan, r.bank, r.row]

/-- The quote record (R370). The measurement is an uninterpreted function of what it is taken over, the serial and the certificate are constants of the module,
and the signature is free. PRESUMED: log entry 50. -/
def State.quoteRecord (s : State) (key : Nat) (nonce : List Byte) (spares : Nat) : List Byte :=
  let l := mramPatches s.awl.patches s.awl.newPatches
  nonce ++ (List.range 64).map (Config.measurementByte s.measured) ++ (List.range 8).map Config.serialByte ++
    leBytes (Config.patchSummary l.length (maxNat (l.map fun p => p.version.toNat))) 4 ++ leBytes spares 4 ++ List.replicate 16 0 ++
    freeBytes key 29792 ++ List.replicate 32 0 ++ (List.range 4096).map Config.certificateByte

/-- A QUOTE is signed (R370): its record is written at OUTADDR; with a stale tag it is dropped (R263), and at an address that no longer translates the packet
ends with XLATE. -/
def State.quoteDone (s : State) (w : SigWork) : State :=
  if s.packetStale w.queue then s.dropWrite.completeLater w.queue w.index 0
  else
    let (spares, t) := s.sparesWord
    match { t with free := t.free + 1 }.awlPut w.queue (pk w.pkt 0x20 8) (t.quoteRecord t.free w.input spares) with
    | none => s.failLater w.queue w.index 6
    | some t => t.completeLater w.queue w.index 0

/-- The check of a PATCH ends (R90): with a signature that verifies and a higher version it replaces its entry from the next reset on. -/
def State.patchDone (s : State) (w : SigWork) : State :=
  let (ok, s) := s.takeFreeBool
  let (entry, s) := s.takeFreeNat
  let (version, s) := s.takeFreeNat
  let p : Patch := { entry := entry % 64, version := BitVec.ofNat 32 version, bytes := w.input }
  if !ok then s.completeLater w.queue w.index 0x40
  else if (mramPatches s.awl.patches s.awl.newPatches).any fun x => x.entry == p.entry && decide (p.version.toNat ≤ x.version.toNat) then
    s.completeLater w.queue w.index 0x41
  else { s with awl := { s.awl with newPatches := mramPatches s.awl.newPatches [p] } }.completeLater w.queue w.index 0

/-- SIGNATURE_DONE (R90): Signature work ends: the PATCH installs or the QUOTE completes. A patch's entry, its version and whether its signature verifies
are free values. PRESUMED: log entry 50. -/
def execSignatureDone (σ : State) : Result :=
  match σ.awl.sigWork with
  | [] => .fault (.notEnabled "SIGNATURE_DONE")
  | w :: rest =>
    let σ := { σ with awl := { σ.awl with sigWork := rest } }
    .next (if pk w.pkt 0x10 1 = 0 then σ.quoteDone w else σ.patchDone w)

end Sys2Proof.Machine
end

