-- ==== Sys2Proof/Machine/Tensor.lean ====
section
/-! DEFINITION. The words of class T but HLD and HST: handles, scale registers, the census and tile shapes (R206 to R218). -/

namespace Sys2Proof.Machine

/-- A word that names a scale register delays its issue while a close, or an update of the register through a handle, is outstanding (R214). DEDUCED: log entry 60. -/
def Node.scaleBusy (n : Node) (k : BitVec 6) : Bool :=
  n.ctl.cwaiting.contains k ||
  (n.ctl.flight.any fun f => f.eff == .cenClose k) ||
  ((n.eng.ca ++ n.eng.caArmed ++ n.eng.cb ++ n.eng.cbArmed).any fun c => c.hD.kidx == k.toNat) ||
  (n.eng.epi.any fun e => match e with
    | .add a => a.h.kidx == k.toNat
    | .send _ => false) ||
  (n.eng.colls.any fun c => c.recv && c.hD.kidx == k.toNat)

/-- Wait for the scale register (R214). -/
def State.kword (s : State) (k : BitVec 6) (body : State → State) : State := if s.cur.scaleBusy k then s.delay else body s

/-- The bits of a scale register that a field mask of KSET selects (R210). -/
def ksetMask (m : BitVec 5) : BitVec 32 :=
  (if m.getLsbD 0 then 0x000000FF#32 else 0) ||| (if m.getLsbD 1 then 0x001FFF00#32 else 0) ||| (if m.getLsbD 2 then 0x00200000#32 else 0) |||
    (if m.getLsbD 3 then 0x00400000#32 else 0) ||| (if m.getLsbD 4 then 0x0F000000#32 else 0)

/-- A scale register word as KSET writes it: census values above 32 are stored as 32 (R37, R210). -/
def ksetValue (v : Word) : BitVec 32 :=
  let w : BitVec 32 := v.extractLsb' 0 32
  setCensus w (cenV w) (cenPrev w) (cenCur w)

/-- Bits that a shape register keeps of a word (R215, R217). -/
def shapeBits (v : BitVec 32) : BitVec 32 := v &&& 0x03FFFF83#32

/-- Write a shape register, or take the tile shape fault (R216). -/
def State.putShape (s : State) (t : BitVec 6) (v : BitVec 32) : State :=
  if shapeLegal s.slabs v then s.push 1 (.ts (s.cur.slot t) v) else s.trapHere 3 0

/-- A shape with another row count (R218). -/
def withRows (v : BitVec 32) (rows : Nat) : BitVec 32 := (v &&& ~~~0x00007F80#32) ||| BitVec.ofNat 32 ((rows - 1) * 128)

/-- An origin set to a value modulo 2^18 (R208). -/
def setOrg (h : Handle) (d : Nat) (v : Nat) : Handle := moveOrg h d ((v : Int) - (h.org d : Int))

/-- HSET (R207): Writes one 64-bit quarter of a handle from sA. -/
def execHset (q : BitVec 2) (g : BitVec 4) (h : BitVec 4) (x : BitVec 2) (a : BitVec 5) (σ : State) : Result :=
  word (.hset q g h x a) σ fun σ =>
    let sh := 64 * x.toNat
    let old := σ.cur.regs.h[h.toNat]
    let mask : BitVec 256 := BitVec.ofNat 256 (2 ^ 64 - 1) <<< sh
    σ.push 1 (.h h ((old &&& ~~~mask) ||| ((σ.cur.s a).zeroExtend 256 <<< sh)))

/-- HORG (R208): Sets one origin of a handle from a register. -/
def execHorg (q : BitVec 2) (g : BitVec 4) (h : BitVec 4) (d : BitVec 3) (a : BitVec 5) (σ : State) : Result :=
  word (.horg q g h d a) σ fun σ => σ.push 1 (.h h (setOrg σ.cur.regs.h[h.toNat] d.toNat (σ.uv a)))

/-- HORG (R208): Sets one origin of a handle from an immediate. -/
def execHorgImm (q : BitVec 2) (g : BitVec 4) (h : BitVec 4) (d : BitVec 3) (i : BitVec 9) (ext : Option (BitVec 25)) (σ : State) : Result :=
  word (.horgImm q g h d i ext) σ fun σ => σ.push 1 (.h h (setOrg σ.cur.regs.h[h.toNat] d.toNat (immU 9 i ext)))

/-- HSTEP (R208): Adds a register value to one origin of a handle. -/
def execHstep (q : BitVec 2) (g : BitVec 4) (h : BitVec 4) (d : BitVec 3) (a : BitVec 5) (σ : State) : Result :=
  word (.hstep q g h d a) σ fun σ => σ.push 1 (.h h (moveOrg σ.cur.regs.h[h.toNat] d.toNat (σ.sv a)))

/-- HSTEP (R208): Adds a signed immediate to one origin of a handle. -/
def execHstepImm (q : BitVec 2) (g : BitVec 4) (h : BitVec 4) (d : BitVec 3) (i : BitVec 9) (ext : Option (BitVec 25)) (σ : State) : Result :=
  word (.hstepImm q g h d i ext) σ fun σ => σ.push 1 (.h h (moveOrg σ.cur.regs.h[h.toNat] d.toNat (immS 9 i ext)))

/-- KSET (R210): Writes the masked fields of a scale register from sA. -/
def execKset (q : BitVec 2) (g : BitVec 4) (k : BitVec 6) (m : BitVec 5) (a : BitVec 5) (σ : State) : Result :=
  word (.kset q g k m a) σ fun σ => σ.kword k fun σ => σ.push 1 (.k k (ksetMask m) (ksetValue (σ.cur.s a)))

/-- KGET (R211): Reads a scale register word, or its exponent, into sD. -/
def execKget (q : BitVec 2) (g : BitVec 4) (d : BitVec 5) (k : BitVec 6) (f : BitVec 1) (σ : State) : Result :=
  word (.kget q g d k f) σ fun σ =>
    σ.kword k fun σ =>
      let w := σ.cur.regs.k[k.toNat]
      σ.pushS 1 d (if f = 0 then w.zeroExtend 64 else wordOf (scaleE w))

/-- CEN.CLOSE (R212): Closes the census window of a scale register. -/
def execCenClose (q : BitVec 2) (g : BitVec 4) (k : BitVec 6) (σ : State) : Result :=
  word (.cenClose q g k) σ fun σ => σ.addPost (.close k)

/-- CEN.GET (R211): Reads the closed or current census of a scale register into sD. -/
def execCenGet (q : BitVec 2) (g : BitVec 4) (d : BitVec 5) (k : BitVec 6) (f : BitVec 1) (σ : State) : Result :=
  word (.cenGet q g d k f) σ fun σ =>
    σ.kword k fun σ =>
      let w := σ.cur.regs.k[k.toNat]
      σ.pushS 1 d (BitVec.ofNat 64 (if f = 0 then (if cenV w then 64 else 0) + cenPrev w else cenCur w))

/-- SHIFT (R213): Writes to sD the narrowing shift that the census gives for width w. -/
def execShift (q : BitVec 2) (g : BitVec 4) (d : BitVec 5) (k : BitVec 6) (w : BitVec 6) (σ : State) : Result :=
  word (.shift q g d k w) σ fun σ => σ.kword k fun σ => σ.pushS 1 d (BitVec.ofNat 64 (32 - cenPrev σ.cur.regs.k[k.toNat] - w.toNat))

/-- TSH (R217): Writes a tile shape register from sA. -/
def execTsh (q : BitVec 2) (g : BitVec 4) (t : BitVec 6) (s : BitVec 5) (σ : State) : Result :=
  word (.tsh q g t s) σ fun σ => σ.putShape t (shapeBits ((σ.cur.s s).extractLsb' 0 32))

/-- TSH (R217): Reads a tile shape register into sD. -/
def execTshRead (q : BitVec 2) (g : BitVec 4) (t : BitVec 6) (s : BitVec 5) (σ : State) : Result :=
  word (.tshRead q g t s) σ fun σ => σ.pushS 1 s (σ.cur.regs.ts[(σ.cur.slot t).toNat].zeroExtend 64)

/-- TSHR (R218): Copies a shape register with SAT cleared, optionally replacing the row count. -/
def execTshr (q : BitVec 2) (g : BitVec 4) (t : BitVec 6) (u : BitVec 6) (b : BitVec 5) (σ : State) : Result :=
  word (.tshr q g t u b) σ fun σ =>
    let v := σ.cur.regs.ts[(σ.cur.slot u).toNat] &&& ~~~0x02000000#32
    if b = 0 then σ.putShape t v
    else if σ.uv b < 1 ∨ 256 < σ.uv b then σ.trapHere 3 0
    else σ.putShape t (withRows v (σ.uv b))

end Sys2Proof.Machine
end

