-- ==== Sys2Proof/Machine/Dispatch.lean ====
section
/-! DEFINITION. The dispatch: one arm per row of the table of operations and events, each a call of the row's meaning. -/

namespace Sys2Proof.Machine

/-- The effect of one word of the bundle under way, or of one event. -/
def exec (i : Instr) (s : State) : Host.Outcome State Fault Refusal :=
  match i with
  | .add q g d a b => Sys2Proof.Machine.execAdd q g d a b s
  | .sub q g d a b => Sys2Proof.Machine.execSub q g d a b s
  | .addS q g d a b => Sys2Proof.Machine.execAddS q g d a b s
  | .subS q g d a b => Sys2Proof.Machine.execSubS q g d a b s
  | .and q g d a b => Sys2Proof.Machine.execAnd q g d a b s
  | .or q g d a b => Sys2Proof.Machine.execOr q g d a b s
  | .xor q g d a b => Sys2Proof.Machine.execXor q g d a b s
  | .andn q g d a b => Sys2Proof.Machine.execAndn q g d a b s
  | .shl q g d a b => Sys2Proof.Machine.execShl q g d a b s
  | .shlS q g d a b => Sys2Proof.Machine.execShlS q g d a b s
  | .shr q g d a b => Sys2Proof.Machine.execShr q g d a b s
  | .sar q g d a b => Sys2Proof.Machine.execSar q g d a b s
  | .rot q g d a b => Sys2Proof.Machine.execRot q g d a b s
  | .mul q g d a b => Sys2Proof.Machine.execMul q g d a b s
  | .mulS q g d a b => Sys2Proof.Machine.execMulS q g d a b s
  | .mulh q g d a b => Sys2Proof.Machine.execMulh q g d a b s
  | .mulhw q g d a b => Sys2Proof.Machine.execMulhw q g d a b s
  | .div q g d a b => Sys2Proof.Machine.execDiv q g d a b s
  | .divw q g d a b => Sys2Proof.Machine.execDivw q g d a b s
  | .rem q g d a b => Sys2Proof.Machine.execRem q g d a b s
  | .remw q g d a b => Sys2Proof.Machine.execRemw q g d a b s
  | .min q g d a b => Sys2Proof.Machine.execMin q g d a b s
  | .max q g d a b => Sys2Proof.Machine.execMax q g d a b s
  | .minw q g d a b => Sys2Proof.Machine.execMinw q g d a b s
  | .maxw q g d a b => Sys2Proof.Machine.execMaxw q g d a b s
  | .clz q g d a => Sys2Proof.Machine.execClz q g d a s
  | .cls q g d a => Sys2Proof.Machine.execCls q g d a s
  | .popc q g d a => Sys2Proof.Machine.execPopc q g d a s
  | .bfx q g d a b => Sys2Proof.Machine.execBfx q g d a b s
  | .bfi q g d a b => Sys2Proof.Machine.execBfi q g d a b s
  | .sel q sx d a b => Sys2Proof.Machine.execSel q sx d a b s
  | .mov q g d a => Sys2Proof.Machine.execMov q g d a s
  | .movp q g f p n x m y => Sys2Proof.Machine.execMovp q g f p n x m y s
  | .cmpEq q g p a b => Sys2Proof.Machine.execCmpEq q g p a b s
  | .cmpNe q g p a b => Sys2Proof.Machine.execCmpNe q g p a b s
  | .cmpLt q g p a b => Sys2Proof.Machine.execCmpLt q g p a b s
  | .cmpGe q g p a b => Sys2Proof.Machine.execCmpGe q g p a b s
  | .cmpLtw q g p a b => Sys2Proof.Machine.execCmpLtw q g p a b s
  | .cmpGew q g p a b => Sys2Proof.Machine.execCmpGew q g p a b s
  | .addi q d a imm0 ext => Sys2Proof.Machine.execAddi q d a imm0 ext s
  | .li q d imm0 ext => Sys2Proof.Machine.execLi q d imm0 ext s
  | .lih q d imm0 ext => Sys2Proof.Machine.execLih q d imm0 ext s
  | .cmpiEq q p a imm0 ext => Sys2Proof.Machine.execCmpiEq q p a imm0 ext s
  | .cmpiNe q p a imm0 ext => Sys2Proof.Machine.execCmpiNe q p a imm0 ext s
  | .cmpiLt q p a imm0 ext => Sys2Proof.Machine.execCmpiLt q p a imm0 ext s
  | .cmpiGe q p a imm0 ext => Sys2Proof.Machine.execCmpiGe q p a imm0 ext s
  | .cmpiLtw q p a imm0 ext => Sys2Proof.Machine.execCmpiLtw q p a imm0 ext s
  | .cmpiGew q p a imm0 ext => Sys2Proof.Machine.execCmpiGew q p a imm0 ext s
  | .brRel q g k ext => Sys2Proof.Machine.execBrRel q g k ext s
  | .brAbs q g imm0 ext => Sys2Proof.Machine.execBrAbs q g imm0 ext s
  | .callRel q g k ext => Sys2Proof.Machine.execCallRel q g k ext s
  | .callAbs q g imm0 ext => Sys2Proof.Machine.execCallAbs q g imm0 ext s
  | .ret q g a => Sys2Proof.Machine.execRet q g a s
  | .brc q g x a k ext => Sys2Proof.Machine.execBrc q g x a k ext s
  | .brf q g t e n k ext => Sys2Proof.Machine.execBrf q g t e n k ext s
  | .loopOpen q n a j ext => Sys2Proof.Machine.execLoopOpen q n a j ext s
  | .loopClose q n k ext => Sys2Proof.Machine.execLoopClose q n k ext s
  | .loopr q n r k ext => Sys2Proof.Machine.execLoopr q n r k ext s
  | .lbrk q g n k ext => Sys2Proof.Machine.execLbrk q g n k ext s
  | .segx q g sx => Sys2Proof.Machine.execSegx q g sx s
  | .endNode => Sys2Proof.Machine.execEndNode s
  | .ldB q g d a f ext => Sys2Proof.Machine.execLdB q g d a f ext s
  | .ldH q g d a f ext => Sys2Proof.Machine.execLdH q g d a f ext s
  | .ldW q g d a f ext => Sys2Proof.Machine.execLdW q g d a f ext s
  | .ldD q g d a f ext => Sys2Proof.Machine.execLdD q g d a f ext s
  | .ldW8 q g d a f ext => Sys2Proof.Machine.execLdW8 q g d a f ext s
  | .ldW16 q g d a f ext => Sys2Proof.Machine.execLdW16 q g d a f ext s
  | .ldW32 q g d a f ext => Sys2Proof.Machine.execLdW32 q g d a f ext s
  | .ldAcq q g d a z sx => Sys2Proof.Machine.execLdAcq q g d a z sx s
  | .stB q g v a f ext => Sys2Proof.Machine.execStB q g v a f ext s
  | .stH q g v a f ext => Sys2Proof.Machine.execStH q g v a f ext s
  | .stW q g v a f ext => Sys2Proof.Machine.execStW q g v a f ext s
  | .stD q g v a f ext => Sys2Proof.Machine.execStD q g v a f ext s
  | .stRel q g v a z sx => Sys2Proof.Machine.execStRel q g v a z sx s
  | .ldh q g h a f ext => Sys2Proof.Machine.execLdh q g h a f ext s
  | .sth q g h a f ext => Sys2Proof.Machine.execSth q g h a f ext s
  | .amoAdd q g d a b w ext => Sys2Proof.Machine.execAmoAdd q g d a b w ext s
  | .amoAdds q g d a b w ext => Sys2Proof.Machine.execAmoAdds q g d a b w ext s
  | .amoMin q g d a b w ext => Sys2Proof.Machine.execAmoMin q g d a b w ext s
  | .amoMax q g d a b w ext => Sys2Proof.Machine.execAmoMax q g d a b w ext s
  | .amoAnd q g d a b w ext => Sys2Proof.Machine.execAmoAnd q g d a b w ext s
  | .amoOr q g d a b w ext => Sys2Proof.Machine.execAmoOr q g d a b w ext s
  | .amoXor q g d a b w ext => Sys2Proof.Machine.execAmoXor q g d a b w ext s
  | .amoSwap q g d a b w ext => Sys2Proof.Machine.execAmoSwap q g d a b w ext s
  | .amoCas q g d a b w ext => Sys2Proof.Machine.execAmoCas q g d a b w ext s
  | .amoIncw q g d a b w ext => Sys2Proof.Machine.execAmoIncw q g d a b w ext s
  | .trap q g k => Sys2Proof.Machine.execTrap q g k s
  | .tret q => Sys2Proof.Machine.execTret q s
  | .uiret q => Sys2Proof.Machine.execUiret q s
  | .ctlr q g d n => Sys2Proof.Machine.execCtlr q g d n s
  | .ctlw q g sx n => Sys2Proof.Machine.execCtlw q g sx n s
  | .fence q g a l sx => Sys2Proof.Machine.execFence q g a l sx s
  | .brk q g k => Sys2Proof.Machine.execBrk q g k s
  | .cmpt q g a b => Sys2Proof.Machine.execCmpt q g a b s
  | .enq q g p y => Sys2Proof.Machine.execEnq q g p y s
  | .yield q g => Sys2Proof.Machine.execYield q g s
  | .genr q g d => Sys2Proof.Machine.execGenr q g d s
  | .idle q => Sys2Proof.Machine.execIdle q s
  | .vadd q u d a b => Sys2Proof.Machine.execVadd q u d a b s
  | .vsub q u d a b => Sys2Proof.Machine.execVsub q u d a b s
  | .vadds q u d a b => Sys2Proof.Machine.execVadds q u d a b s
  | .vsubs q u d a b => Sys2Proof.Machine.execVsubs q u d a b s
  | .vmul q sx u d a b => Sys2Proof.Machine.execVmul q sx u d a b s
  | .vmulh q u d a b => Sys2Proof.Machine.execVmulh q u d a b s
  | .vmac q sx u d a b => Sys2Proof.Machine.execVmac q sx u d a b s
  | .vmin q u d a b => Sys2Proof.Machine.execVmin q u d a b s
  | .vmax q u d a b => Sys2Proof.Machine.execVmax q u d a b s
  | .vand q d a b => Sys2Proof.Machine.execVand q d a b s
  | .vor q d a b => Sys2Proof.Machine.execVor q d a b s
  | .vxor q d a b => Sys2Proof.Machine.execVxor q d a b s
  | .vandn q d a b => Sys2Proof.Machine.execVandn q d a b s
  | .vsel q d a b => Sys2Proof.Machine.execVsel q d a b s
  | .vcmpEq q d a b => Sys2Proof.Machine.execVcmpEq q d a b s
  | .vcmpNe q d a b => Sys2Proof.Machine.execVcmpNe q d a b s
  | .vcmpLt q d a b => Sys2Proof.Machine.execVcmpLt q d a b s
  | .vcmpGe q d a b => Sys2Proof.Machine.execVcmpGe q d a b s
  | .vcmpLtw q d a b => Sys2Proof.Machine.execVcmpLtw q d a b s
  | .vcmpGew q d a b => Sys2Proof.Machine.execVcmpGew q d a b s
  | .vperm q d a b => Sys2Proof.Machine.execVperm q d a b s
  | .vgath q d a b => Sys2Proof.Machine.execVgath q d a b s
  | .vscat q d a b => Sys2Proof.Machine.execVscat q d a b s
  | .vcmpt q a b => Sys2Proof.Machine.execVcmpt q a b s
  | .tld q g h t => Sys2Proof.Machine.execTld q g h t s
  | .tst q g h t m => Sys2Proof.Machine.execTst q g h t m s
  | .vshl q x d a b => Sys2Proof.Machine.execVshl q x d a b s
  | .vshr q x d a b => Sys2Proof.Machine.execVshr q x d a b s
  | .vsar q x d a b => Sys2Proof.Machine.execVsar q x d a b s
  | .vshrn q m d a b ext => Sys2Proof.Machine.execVshrn q m d a b ext s
  | .vabs q sx d a => Sys2Proof.Machine.execVabs q sx d a s
  | .vneg q sx d a => Sys2Proof.Machine.execVneg q sx d a s
  | .vclz q d a => Sys2Proof.Machine.execVclz q d a s
  | .vcls q d a => Sys2Proof.Machine.execVcls q d a s
  | .vpopc q d a => Sys2Proof.Machine.execVpopc q d a s
  | .vcvt q u d a b => Sys2Proof.Machine.execVcvt q u d a b s
  | .vpack q w d a b => Sys2Proof.Machine.execVpack q w d a b s
  | .vunpk q u d a e => Sys2Proof.Machine.execVunpk q u d a e s
  | .vrotl q x d a b ext => Sys2Proof.Machine.execVrotl q x d a b ext s
  | .vbcast q d sx => Sys2Proof.Machine.execVbcast q d sx s
  | .vbcastRow q d a => Sys2Proof.Machine.execVbcastRow q d a s
  | .vbcastCol q d a => Sys2Proof.Machine.execVbcastCol q d a s
  | .vmov q d a => Sys2Proof.Machine.execVmov q d a s
  | .vredsum q x d a u => Sys2Proof.Machine.execVredsum q x d a u s
  | .vredmax q x d a u => Sys2Proof.Machine.execVredmax q x d a u s
  | .vredmin q x d a u => Sys2Proof.Machine.execVredmin q x d a u s
  | .vabsmax q x d a => Sys2Proof.Machine.execVabsmax q x d a s
  | .vpart q n d a => Sys2Proof.Machine.execVpart q n d a s
  | .vscan q x d a sx u => Sys2Proof.Machine.execVscan q x d a sx u s
  | .vlut3 q l d a b => Sys2Proof.Machine.execVlut3 q l d a b s
  | .vfsl q d a b n => Sys2Proof.Machine.execVfsl q d a b n s
  | .vfsr q d a b n => Sys2Proof.Machine.execVfsr q d a b n s
  | .vexp2 q d a f ext => Sys2Proof.Machine.execVexp2 q d a f ext s
  | .vlog2 q d a f ext => Sys2Proof.Machine.execVlog2 q d a f ext s
  | .vrcp q d a f ext => Sys2Proof.Machine.execVrcp q d a f ext s
  | .vrsq q d a f ext => Sys2Proof.Machine.execVrsq q d a f ext s
  | .vsmax q d a f => Sys2Proof.Machine.execVsmax q d a f s
  | .vrmsn q d a b ext => Sys2Proof.Machine.execVrmsn q d a b ext s
  | .vlnrm q d a b ext => Sys2Proof.Machine.execVlnrm q d a b ext s
  | .vgelu q d a f ext => Sys2Proof.Machine.execVgelu q d a f ext s
  | .voptSgdm q m d a b ext => Sys2Proof.Machine.execVoptSgdm q m d a b ext s
  | .voptLion q m d a b ext => Sys2Proof.Machine.execVoptLion q m d a b ext s
  | .voptAdam q m d a b ext => Sys2Proof.Machine.execVoptAdam q m d a b ext s
  | .mbeg q d k => Sys2Proof.Machine.execMbeg q d k s
  | .mend q d => Sys2Proof.Machine.execMend q d s
  | .mzero q d => Sys2Proof.Machine.execMzero q d s
  | .mma q d a b ext => Sys2Proof.Machine.execMma q d a b ext s
  | .mmat q d a b ext => Sys2Proof.Machine.execMmat q d a b ext s
  | .epi q t a x y m sx ext => Sys2Proof.Machine.execEpi q t a x y m sx ext s
  | .epiAdd q h a m sx e l o ext => Sys2Proof.Machine.execEpiAdd q h a m sx e l o ext s
  | .epiSend q r h a m sx ext => Sys2Proof.Machine.execEpiSend q r h a m sx ext s
  | .epiCk q p a => Sys2Proof.Machine.execEpiCk q p a s
  | .hset q g h x a => Sys2Proof.Machine.execHset q g h x a s
  | .hld q g h f a => Sys2Proof.Machine.execHld q g h f a s
  | .hst q g h f a => Sys2Proof.Machine.execHst q g h f a s
  | .horg q g h d a => Sys2Proof.Machine.execHorg q g h d a s
  | .horgImm q g h d imm0 ext => Sys2Proof.Machine.execHorgImm q g h d imm0 ext s
  | .hstep q g h d a => Sys2Proof.Machine.execHstep q g h d a s
  | .hstepImm q g h d imm0 ext => Sys2Proof.Machine.execHstepImm q g h d imm0 ext s
  | .kset q g k m a => Sys2Proof.Machine.execKset q g k m a s
  | .kget q g d k f => Sys2Proof.Machine.execKget q g d k f s
  | .cenClose q g k => Sys2Proof.Machine.execCenClose q g k s
  | .cenGet q g d k f => Sys2Proof.Machine.execCenGet q g d k f s
  | .shift q g d k w => Sys2Proof.Machine.execShift q g d k w s
  | .tsh q g t sx => Sys2Proof.Machine.execTsh q g t sx s
  | .tshRead q g t sx => Sys2Proof.Machine.execTshRead q g t sx s
  | .tshr q g t u b => Sys2Proof.Machine.execTshr q g t u b s
  | .cpy q g h sx w => Sys2Proof.Machine.execCpy q g h sx w s
  | .cpyk q g h sx w => Sys2Proof.Machine.execCpyk q g h sx w s
  | .cpyf q g h w v => Sys2Proof.Machine.execCpyf q g h w v s
  | .cpyb q g h sx w m => Sys2Proof.Machine.execCpyb q g h sx w m s
  | .cpyq q g h sx w t => Sys2Proof.Machine.execCpyq q g h sx w t s
  | .cpycan q g a b => Sys2Proof.Machine.execCpycan q g a b s
  | .send q g h sx w r => Sys2Proof.Machine.execSend q g h sx w r s
  | .sendt q g h sx w r => Sys2Proof.Machine.execSendt q g h sx w r s
  | .coll q g h sx w r => Sys2Proof.Machine.execColl q g h sx w r s
  | .abort q g r => Sys2Proof.Machine.execAbort q g r s
  | .cset q g n a => Sys2Proof.Machine.execCset q g n a s
  | .csetImm q g n imm0 ext => Sys2Proof.Machine.execCsetImm q g n imm0 ext s
  | .cadd q g n a => Sys2Proof.Machine.execCadd q g n a s
  | .caddImm q g n imm0 ext => Sys2Proof.Machine.execCaddImm q g n imm0 ext s
  | .cwait q g n a => Sys2Proof.Machine.execCwait q g n a s
  | .cwaitImm q g n imm0 ext => Sys2Proof.Machine.execCwaitImm q g n imm0 ext s
  | .barb q g n a => Sys2Proof.Machine.execBarb q g n a s
  | .barbImm q g n imm0 ext => Sys2Proof.Machine.execBarbImm q g n imm0 ext s
  | .bar q g a b e l => Sys2Proof.Machine.execBar q g a b e l s
  | .jcbRaise q g p a => Sys2Proof.Machine.execJcbRaise q g p a s
  | .jcbRaiseImm q g p imm0 ext => Sys2Proof.Machine.execJcbRaiseImm q g p imm0 ext s
  | .jcbDone q g => Sys2Proof.Machine.execJcbDone q g s
  | .tokGive q g l a => Sys2Proof.Machine.execTokGive q g l a s
  | .tokGiveImm q g l imm0 ext => Sys2Proof.Machine.execTokGiveImm q g l imm0 ext s
  | .tokTake q g p l a => Sys2Proof.Machine.execTokTake q g p l a s
  | .tokTakeImm q g p l imm0 ext => Sys2Proof.Machine.execTokTakeImm q g p l imm0 ext s
  | .extensionWord imm0 => Sys2Proof.Machine.execExtensionWord imm0 s
  | .nop q x => Sys2Proof.Machine.execNop q x s
  | .qtailWrite q v => Sys2Proof.Machine.execQtailWrite q v s
  | .queueEnable q v => Sys2Proof.Machine.execQueueEnable q v s
  | .queueDisable q v => Sys2Proof.Machine.execQueueDisable q v s
  | .qctlRst q v => Sys2Proof.Machine.execQctlRst q v s
  | .tlinkWrite n v => Sys2Proof.Machine.execTlinkWrite n v s
  | .excommit v => Sys2Proof.Machine.execExcommit v s
  | .flipreqAck v => Sys2Proof.Machine.execFlipreqAck v s
  | .flipreqToHost v => Sys2Proof.Machine.execFlipreqToHost v s
  | .registerWrite off d => Sys2Proof.Machine.execRegisterWrite off d s
  | .awlSlot => Sys2Proof.Machine.execAwlSlot s
  | .launchGraph src pkt => Sys2Proof.Machine.execLaunchGraph src pkt s
  | .launchNode src pkt => Sys2Proof.Machine.execLaunchNode src pkt s
  | .write src pkt => Sys2Proof.Machine.execWrite src pkt s
  | .signal src pkt => Sys2Proof.Machine.execSignal src pkt s
  | .writeSignal src pkt => Sys2Proof.Machine.execWriteSignal src pkt s
  | .tokenGive src pkt => Sys2Proof.Machine.execTokenGive src pkt s
  | .tokenWait src pkt => Sys2Proof.Machine.execTokenWait src pkt s
  | .copy src pkt => Sys2Proof.Machine.execCopy src pkt s
  | .fencePacket src pkt => Sys2Proof.Machine.execFencePacket src pkt s
  | .qreset src pkt => Sys2Proof.Machine.execQreset src pkt s
  | .slice src pkt => Sys2Proof.Machine.execSlice src pkt s
  | .bindGang src pkt => Sys2Proof.Machine.execBindGang src pkt s
  | .bindDissolve src pkt => Sys2Proof.Machine.execBindDissolve src pkt s
  | .bindReserve src pkt => Sys2Proof.Machine.execBindReserve src pkt s
  | .repairRebindHalf src pkt => Sys2Proof.Machine.execRepairRebindHalf src pkt s
  | .repairDramRow src pkt => Sys2Proof.Machine.execRepairDramRow src pkt s
  | .repairSpareLane src pkt => Sys2Proof.Machine.execRepairSpareLane src pkt s
  | .repairRetireCore src pkt => Sys2Proof.Machine.execRepairRetireCore src pkt s
  | .repairScan src pkt => Sys2Proof.Machine.execRepairScan src pkt s
  | .attestQuote src pkt => Sys2Proof.Machine.execAttestQuote src pkt s
  | .attestPatch src pkt => Sys2Proof.Machine.execAttestPatch src pkt s
  | .signatureDone => Sys2Proof.Machine.execSignatureDone s
  | .packetComplete q imm0 => Sys2Proof.Machine.execPacketComplete q imm0 s
  | .qresetAcksDone q => Sys2Proof.Machine.execQresetAcksDone q s
  | .asgenChangeDone sp => Sys2Proof.Machine.execAsgenChangeDone sp s
  | .flipDrainDone => Sys2Proof.Machine.execFlipDrainDone s
  | .enqOutboxAccept core => Sys2Proof.Machine.execEnqOutboxAccept core s
  | .mailboxRecordWrite => Sys2Proof.Machine.execMailboxRecordWrite s
  | .entryRebuild sp pa => Sys2Proof.Machine.execEntryRebuild sp pa s
  | .sliceExpiry prio => Sys2Proof.Machine.execSliceExpiry prio s
  | .reserveSample => Sys2Proof.Machine.execReserveSample s
  | .reserveDecision => Sys2Proof.Machine.execReserveDecision s
  | .reserveChangeDone core => Sys2Proof.Machine.execReserveChangeDone core s
  | .preemptWaitExpiry uid => Sys2Proof.Machine.execPreemptWaitExpiry uid s
  | .distributorPlace => Sys2Proof.Machine.execDistributorPlace s
  | .segmentCopyDone core => Sys2Proof.Machine.execSegmentCopyDone core s
  | .waitSatisfied uid => Sys2Proof.Machine.execWaitSatisfied uid s
  | .barRelease uid => Sys2Proof.Machine.execBarRelease uid s
  | .idleEnd uid => Sys2Proof.Machine.execIdleEnd uid s
  | .jcbRaiseAnswer uid => Sys2Proof.Machine.execJcbRaiseAnswer uid s
  | .censusClose uid k => Sys2Proof.Machine.execCensusClose uid k s
  | .matrixRunEnd uid a => Sys2Proof.Machine.execMatrixRunEnd uid a s
  | .copyComplete uid slot => Sys2Proof.Machine.execCopyComplete uid slot s
  | .cpyqFire uid slot imm0 => Sys2Proof.Machine.execCpyqFire uid slot imm0 s
  | .epiAddComplete uid => Sys2Proof.Machine.execEpiAddComplete uid s
  | .sendtFire uid imm0 => Sys2Proof.Machine.execSendtFire uid imm0 s
  | .sendDelivery d => Sys2Proof.Machine.execSendDelivery d s
  | .sendComplete uid imm0 ans => Sys2Proof.Machine.execSendComplete uid imm0 ans s
  | .collHop p => Sys2Proof.Machine.execCollHop p s
  | .collDeliverApply imm0 => Sys2Proof.Machine.execCollDeliverApply imm0 s
  | .abortFlit tag port => Sys2Proof.Machine.execAbortFlit tag port s
  | .jcbHomeRaise uid => Sys2Proof.Machine.execJcbHomeRaise uid s
  | .jcbHomeCompletion jcb => Sys2Proof.Machine.execJcbHomeCompletion jcb s
  | .jcbHomeNodeFailure jcb node status => Sys2Proof.Machine.execJcbHomeNodeFailure jcb node status s
  | .nodeCommit uid => Sys2Proof.Machine.execNodeCommit uid s
  | .trapEntry core => Sys2Proof.Machine.execTrapEntry core s
  | .userInterruptEntry core => Sys2Proof.Machine.execUserInterruptEntry core s
  | .preemptQuiesce uid begun => Sys2Proof.Machine.execPreemptQuiesce uid begun s
  | .nodeSave uid => Sys2Proof.Machine.execNodeSave uid s
  | .errorConsumed uid => Sys2Proof.Machine.execErrorConsumed uid s
  | .powerGood => Sys2Proof.Machine.execPowerGood s
  | .stackSelfTestPass r => Sys2Proof.Machine.execStackSelfTestPass r s
  | .bringupTimeout => Sys2Proof.Machine.execBringupTimeout s
  | .probeReturn axis hops => Sys2Proof.Machine.execProbeReturn axis hops s
  | .probeTimeout axis => Sys2Proof.Machine.execProbeTimeout axis s
  | .engineCheckFail core slot => Sys2Proof.Machine.execEngineCheckFail core slot s
  | .rebindDone => Sys2Proof.Machine.execRebindDone s
  | .bindDrainDone => Sys2Proof.Machine.execBindDrainDone s
  | .dramSoftRepair chan bank row lost => Sys2Proof.Machine.execDramSoftRepair chan bank row lost s
  | .laneRetrainDone port => Sys2Proof.Machine.execLaneRetrainDone port s
  | .laneFail port lane => Sys2Proof.Machine.execLaneFail port lane s
  | .powerSample watts => Sys2Proof.Machine.execPowerSample watts s
  | .clockStep => Sys2Proof.Machine.execClockStep s
  | .telemetryRefresh => Sys2Proof.Machine.execTelemetryRefresh s
  | .stackSelfTestFail st => Sys2Proof.Machine.execStackSelfTestFail st s
  | .coreRetireDrainDone core => Sys2Proof.Machine.execCoreRetireDrainDone core s

end Sys2Proof.Machine
end

