-- ==== Sys2Proof/Machine/Issue.lean ====
section
/-! DEFINITION. The issue of a core's next bundle: the order of its words, the choice between a trap, a delay, a user-level interrupt and the bundle itself,
the end of the bundle, the switch points, and the transitions of a splice between bundles (R98, R119, R137 to R146, R162, R172, R178, R285, R305 to R307, R346, R358). -/

namespace Sys2Proof.Machine

/-! ## The words of a bundle -/

/-- A copy word takes slot CB when a second scalar-pipe word stands in the bundle or an earlier copy word has slot CA (R136). -/
def takesCB (l : List BWord) (w : BWord) : Bool :=
  decide (2 ≤ (l.filter fun x => isScalarPipe x.sig).length) || l.any fun x => x.sig.pipe == .c && decide (x.pos < w.pos)

/-- The bundle stands at one of its words. -/
def State.atWord (s : State) (l : List BWord) (w : BWord) : State :=
  { s with bnd := { s.bnd with pos := BitVec.ofNat 4 w.pos, addr := BitVec.ofNat 22 w.addr, slotCB := takesCB l w } }

/-- A word of the memory or the copy pipe. -/
def isMemWord (w : BWord) : Bool := w.sig.pipe == .m || w.sig.pipe == .c

/-- A word that reads a scale register outside those pipes. -/
def readsScale (w : BWord) : Bool := !isMemWord w && w.sig.reads.any fun r => match r with
  | .k _ => true
  | _ => false

/-- The words of a bundle in the order in which their effects are applied: every word reads the registers as they stand at the bundle's start (R138), so
readers of the scale registers go before the words whose memory accesses change census fields. DEDUCED: log entry 12. -/
def issueOrder (l : List BWord) : List BWord :=
  (l.filter readsScale) ++ (l.filter fun w => !readsScale w && !isMemWord w) ++ l.filter isMemWord

/-- Run the words of a bundle one after the other; a stop ends it. DEDUCED: log entry 12. -/
def State.runWords (s : State) (l : List BWord) : List BWord → Result
  | [] => .next s
  | w :: rest =>
    match exec w.i (s.atWord l w) with
    | .next t => if t.bnd.stop = .none then State.runWords t l rest else .next t
    | o => o

/-- The first word, by position, that a trap, a rollback or a failure stops when it alone is tried, with the state it leaves (R346). DEDUCED: log entry 12. -/
def State.firstStopped (s : State) (l : List BWord) : List BWord → Option State
  | [] => none
  | w :: rest =>
    match exec w.i (s.atWord l w) with
    | .next t => if t.bnd.stop = .taken then some t else State.firstStopped s l rest
    | _ => State.firstStopped s l rest

/-! ## The end of a bundle -/

/-- A CEN.CLOSE at the end of its bundle (R42): it waits while census writes of its window are outstanding. DEDUCED: log entry 60. -/
def Node.issueClose (n : Node) (k : BitVec 6) : Node :=
  let i := k.toNat
  let n := { n with ctl := { n.ctl with cissued := n.ctl.cissued.setIfInBounds i ((n.ctl.cissued[i]?.getD 0) + 1) } }
  if n.ctl.cwaiting.contains k || n.censusPending k then { n with ctl := { n.ctl with cwaiting := n.ctl.cwaiting ++ [k] } } else n.push 1 (.cenClose k)

/-- What the end of the bundle does to the node (R162, R172, R305 to R307, R318, R325). Each waiting word of a bundle is a condition of its own.
DEDUCED: log entry 15. -/
def Node.post (n : Node) (fa : BitVec 22) (p : Post) : Node :=
  match p with
  | .jump t out => { n with ctl := { n.ctl with pc := t, pcOut := out, xseg := segOf n.desc.image.ovl fa.toNat } }
  | .ctlw num v => n.ctlWrite num v
  | .loop i l => { n with ctl := { n.ctl with loops := n.ctl.loops.setIfInBounds i l } }
  | .rotate by_ => { n with ctl := { n.ctl with rtb := n.ctl.rtb - BitVec.ofNat 5 by_ } }
  | .close k => n.issueClose k
  | .wait w => { n with ctl := { n.ctl with waits := n.ctl.waits ++ [w] } }
  | .switch => n
  | .ended =>
    { n with run := { n.run with st := .retiring, preempt := false }
             ctl := { n.ctl with waits := [], uiWaits := [], trapWaits := [], mustIssue := false, uiMust := false, trapMust := false, flight := [], trapFlight := [], uiFlight := [], loops := Vector.replicate 6 {} } }

/-- The node goes on after its bundle, which is the one that a BARB's subtraction asked for, unless it has come back from a handler to the bundle that does (R326):
without a transfer of control, at the address that follows (R162). -/
def Node.advance (n : Node) (na : Nat) (out back : Bool) : Node :=
  { n with ctl := { n.ctl with pc := BitVec.ofNat 22 na, pcOut := out, mustIssue := back && n.ctl.mustIssue } }

/-- A bundle has returned from a handler: `old` is what stood before it. -/
def Ctl.cameBack (old new : Ctl) : Bool := (old.trap.act && !new.trap.act) || (old.ui.act && !new.ui.act)

/-- The splice record of a pair whose member has ended (R119). -/
def Splice.markEnded (sp : Splice) (uid : Nat) : Splice :=
  if !sp.st.accepted then sp else { sp with pEnded := sp.pEnded || sp.p == uid, cEnded := sp.cEnded || sp.c == uid }

/-- END leaves the core without a current node (R98, R179). DEDUCED: log entry 15. -/
def State.endStream (s : State) (uid : Nat) : State :=
  let c := s.core s.focus
  s.setCore { c with pairs := c.pairs.map fun sp => sp.markEnded uid }

/-- Leave the current node: the front end chooses again. -/
def State.noCurrent (s : State) : State := s.turnTo s.focus 0

/-- The first runnable node other than the current one (R98). DEDUCED: log entry 21. -/
def State.nextOther (s : State) (idx : Nat) : Option Nat :=
  let c := s.core idx
  (((List.range 4).map fun i => (c.lastSlot + 1 + i) % 4).map fun i => c.slots[i]?.getD 0).find? fun u => u != c.current && s.runnable c u

/-- YIELD, or a wait whose condition does not hold: switch if another node is runnable (R98). DEDUCED: log entry 21. -/
def State.switchOther (s : State) : Option State := (s.nextOther s.focus).map fun u => s.switchTo s.focus u

/-- The end of the bundle. The conditions of its words that hold already end at once (R305 to R307). `old`: the node before the bundle. -/
def State.finish (s : State) (na : Nat) (old : Node) : State :=
  let uid := s.cur.desc.uid
  let posts := s.bnd.post
  let s := s.mapCur fun n => posts.foldl (fun (n : Node) p => n.post s.bnd.fa p) (n.advance na (decide (2 ^ 22 ≤ na)) (old.ctl.cameBack n.ctl))
  let ended := posts.contains .ended
  let s := if ended then s.endStream uid else s.mapCur Node.settleWaits
  let s := s.mergedAfter s.focus uid old.noHandler
  if ended then s.noCurrent else if posts.contains .switch then s.switchOther.getD s else s

/-! ## Issue -/

/-- The state in which the words of a bundle execute: results that are due have been written (R143), and what stood before is kept for a trap. -/
def State.enterBundle (s : State) (na : Nat) : State :=
  let k := s.cur.ctl
  { s with cur := s.cur.begin, bnd := { fa := k.pc, na := BitVec.ofNat 22 na, late := s.bnd.late, before := some (s.cur.regs, k.flight) } }

/-- The results in flight, the registers and the address are as before: nothing has issued; a user-level interrupt may still be entered. -/
def State.orInterrupt (s : State) : Option Result := if s.cur.userDue then some (.next s.enterUser.clearBnd) else none

/-- A bundle with two vector words while VA or VB is out of service is counted in the core's repair telemetry (R104, R149). -/
def State.noteShared (s : State) (emap : BitVec 8) (l : List BWord) : State :=
  if decide (2 ≤ (l.filter fun w => w.sig.pipe == .v).length) && (emap.getLsbD 0 || emap.getLsbD 2) then s.countCore s.focus "bundles on shared vector units" else s

/-- Register results of a node in flight (R353); a delayed cause is none. -/
def Node.inFlight (n : Node) : Nat := (n.ctl.results.filter fun f => (f.eff.cause? 0).isNone).length

/-- How the issue of a bundle turns out: an engine, a unit or the limit of results in flight delays it, and nothing has issued (R146, R353); a word of it
stops the node; or it has issued to its end. -/
inductive BundleEnd where
  | held
  | stopped (t : State)
  | ran (t : State)
  | other (o : Result)

/-- The issue of a bundle that has passed its checks, by the current node. What is due at its start fires armed commands (R279). DEDUCED: log entry 12.
DEDUCED: log entry 22. -/
def State.tryBundle (s : State) (l : List BWord) (na : Nat) : BundleEnd :=
  let b := s.enterBundle na
  match b.firstStopped l l with
  | some t => .stopped t.clearBnd
  | none =>
    match (b.fireArmed s.cur.desc.uid).runWords l (issueOrder l) with
    | .next t =>
      match t.bnd.stop with
      | .taken => .stopped t.clearBnd
      | .delayed => .held
      | .none => if 128 < t.cur.inFlight then .held else .ran (t.finish na s.cur).clearBnd
    | o => .other o

/-- A bundle that has passed its checks. A trap that it raises comes before a user-level interrupt, and the interrupt before its issue (R285). -/
def State.issueBundle (s : State) (l : List BWord) (na : Nat) : Option Result :=
  match s.tryBundle l na with
  | .held => s.orInterrupt
  | .stopped t => some (.next t)
  | .ran t => if s.cur.userDue then s.orInterrupt else some (.next (t.noteShared (s.core s.focus).emap l))
  | .other o => some o

/-! ## Two bundles of a merged position as one (R122, R127) -/

/-- The bundle of C that issues as one with the bundle `l` of P, the current node: both streams have a bundle at the position, and the words together fit the
slots of one bundle, at most six of them beside E words (R122). DEDUCED: log entry 27. -/
def State.joint (s : State) (l : List BWord) : Option (Nat × List BWord × Nat) :=
  let sp := (s.core s.focus).pairOf s.cur.desc.uid
  let t := s.turnTo s.focus sp.c
  if sp.st ≠ .merged ∨ sp.turnC ∨ !sp.pActive ∨ !sp.cActive ∨ !s.cur.noHandler ∨ !t.cur.noHandler ∨ !t.atBoundary ∨ t.cur.ctl.waits ≠ [] then none
  else
    match t.boundary with
    | .bundle l' na' => if (l ++ l').length ≤ 6 ∧ firstSlotless (l ++ l') = none then some (sp.c, l', na') else none
    | _ => none

/-- C enters a handler in front of a position whose two bundles issue as one: after it, P's bundle issues with C's (R127). -/
def State.markRedo (s : State) (c : Nat) : State :=
  let k := s.core s.focus
  let sp := k.pairOf c
  if sp.st = .merged then s.setCore (k.putPair { sp with turnC := true, redo := true }) else s

/-- P's bundle and C's bundle issue as one (R122): neither takes effect when a word of either stops its member or is delayed, and a trap is its own member's
(R127). DEDUCED: log entry 27. -/
def State.issueBoth (s : State) (l : List BWord) (na : Nat) (c : Nat) (l' : List BWord) (na' : Nat) : Option Result :=
  let t := s.turnTo s.focus c
  let interruptC := if t.cur.userDue then some (Host.Outcome.next (t.enterUser.clearBnd.markRedo c)) else none
  match s.tryBundle l na, t.tryBundle l' na' with
  | .held, _ => s.orInterrupt
  | .stopped x, _ => some (.next x)
  | .other o, _ => some o
  | .ran p, y =>
    if s.cur.userDue then s.orInterrupt
    else
      match y with
      | .held => interruptC
      | .stopped x => some (.next (x.markRedo c))
      | .other o => some o
      | .ran _ =>
        if t.cur.userDue then interruptC
        else
          match (p.turnTo s.focus c).tryBundle l' na' with
          | .held => some (.next (p.noteShared (s.core s.focus).emap l))
          | .stopped x => some (.next (x.noteShared (s.core s.focus).emap l))
          | .ran x => some (.next (x.noteShared (s.core s.focus).emap (l ++ l')))
          | .other o => some o

/-- The next bundle's segment is not in instruction memory (R178, R361). -/
def State.awaitSegment (s : State) (seg : Nat) : Option Result :=
  let n := s.cur
  match s.resident n.desc.image.imgid with
  | none =>
    some (.next (if s.stale n then (s.memFault n.desc.uid .generation).clearBnd
      else match s.ensureCode n false with
        | .ok t => t
        | .error f => (s.memFault n.desc.uid f).clearBnd))
  | some r => if (r.copying.map (·.1)) = some seg then none else some (.next (s.startSegment seg (s.otherHalf n.ctl.xseg)))

/-- A word with which stores may still be outstanding: a plain store, or a word that reaches no memory, engine or control register. -/
def quietWord (i : Instr) : Bool :=
  match i with
  | .stB .. | .stH .. | .stW .. | .stD .. | .sth .. | .addi .. | .li .. | .lih .. => true
  | i => i.sig.pipe == .sA || i.sig.pipe == .v

/-- A store of the current node is still to be performed (R287) when a bundle that may have to stand behind it issues. -/
def State.owesStores (s : State) : Bool := !s.bnd.late && s.late.any (·.uid == s.cur.desc.uid)

/-- The current node of the focus core at a boundary with no wait. Its stores that are still to be performed are, before a bundle that may have to stand behind them
issues. DEDUCED: log entry 14. DESIGN CHOICE: log entry 91. -/
def State.issueHere (s : State) : Option Result :=
  match s.boundary with
  | .delayed x rest => (s.takeBoundary (.delayed x rest)).map fun t => .next t.clearBnd
  | .cause x => (s.takeBoundary (.cause x)).map fun t => .next t.clearBnd
  | .frozen seg => s.awaitSegment seg
  | .poisoned => some (.next ((s.countCause s.cur.desc.uid 0x33).rollback s.cur.desc.uid none).clearBnd)
  | .stall => s.orInterrupt
  | .bundle l na =>
    if s.owesStores then some (.next (s.drain s.cur.desc.uid))
    else
      match s.joint l with
      | some (c, l', na') => s.issueBoth l na c l' na'
      | none => s.issueBundle l na

/-- The current node of the focus core at a boundary that a wait holds (R98, R305 to R307, R325). A condition that holds ends in a step of its own, as after a
resumption, when it is tested again (R326). DEDUCED: log entry 14. -/
def State.issueWaiting (s : State) : Option Result :=
  match s.dueNow with
  | some t => some (.next t.clearBnd)
  | none =>
    if s.cur.ctl.waits.any s.cur.holds then some (.next (s.mapCur Node.settleWaits))
    else if s.cur.userDue then s.orInterrupt
    else if s.cur.blocked then s.switchOther.map .next
    else none

/-- A transition of a pair of the focus core that issues no bundle (R119), unless the pair has been stopped for a pre-emption: the pair before and after. -/
def State.pairStep (s : State) : Option (Splice × Splice) :=
  (s.core s.focus).pairs.findSome? fun sp =>
    if (s.node sp.p).run.quiesced || (s.node sp.c).run.quiesced then none else (s.pairTransition sp).map fun x => (sp, x)

/-- What the focus core's front end does next; none when it can do nothing. DESIGN CHOICE: log entry 2. DESIGN CHOICE: log entry 13. -/
def State.issue (s : State) : Option Result :=
  let c := s.core s.focus
  match s.pairStep with
  | some (sp, x) =>
    let t := (s.setCore (c.putPair x)).countTransition s.focus sp x
    some (.next (if c.current ≠ 0 ∧ (sp.p = c.current ∨ sp.c = c.current) ∧ x.stream ≠ 0 then t.turnTo s.focus x.stream else t))
  | none =>
    let sp := c.pairOf c.current
    if c.current = 0 then (if (s.nextRunnable s.focus).isSome then some (.next (s.pickNext s.focus)) else none)
    else if sp.st.accepted ∧ sp.stream ≠ 0 ∧ sp.stream ≠ c.current then some (.next (s.turnTo s.focus sp.stream))
    else if !s.atBoundary then none
    else if s.cur.ctl.waits = [] then s.issueHere
    else s.issueWaiting

/-- A core's next bundle issues with stores that are performed later (R287), where the node is unstaged and in no pair and every word of the bundle allows it; otherwise
it issues as ever. DESIGN CHOICE: log entry 91. -/
def State.issueLate (s : State) : Option Result :=
  match s.boundary with
  | .bundle l _ => if s.cur.desc.image.unstg && s.cur.run.partner == 0 && l.all (fun w => quietWord w.i) then ({ s with bnd := { late := true } } : State).issue else s.issue
  | _ => s.issue

/-- After a step the ready pool stands filled from the overflow list (R91). DEDUCED: log entry 45. -/
def settled (r : Result) : Result :=
  match r with
  | .next t => .next t.settlePool
  | o => o

/-! ## What the module does by itself -/

/-- Parts of the command at a place of an engine's queue (R281, R287): each performed, or for a copy only read. The epilogue performs its words in issue order (R230). -/
def State.moveEngine (s : State) (uid : Nat) (e : MoveEngine) (place : Nat) (parts : List (Nat × Bool)) : State :=
  match e with
  | .ca => s.moveCopy uid false place parts
  | .cb => s.moveCopy uid true place parts
  | .epi => s.moveAdd uid (parts.map (·.1))
  | .link => s.moveSend uid place (parts.map (·.1))

/-- A CPYCAN that has issued takes effect in a slot (R282). DEDUCED: log entry 32. -/
def State.cancelNow (s : State) (uid : Nat) (cb : Bool) : State := if (s.node uid).live then s.mapNode uid fun n => { n with eng := n.eng.cancel cb } else s

/-- Data that a node has staged is found uncorrectable (R358, R360): it is poisoned where it stands. DESIGN CHOICE: log entry 77. -/
def State.spoil (s : State) (uid : Nat) (lost : List Nat) : State :=
  s.mapNode uid fun n =>
    let here := lost.filter fun a => n.run.staged.cells.any fun c => c.1 == a
    { n with run := { n.run with staged := { n.run.staged with poison := here.foldl setAdd n.run.staged.poison } } }

/-- The events of a node that no outside party decides. -/
def nodeEvents (n : Node) : List (State → Result) :=
  let u := n.desc.uid
  (n.eng.cancels.map fun c => fun (s : State) => if (s.node u).live then .next (s.cancelNow u c.1) else .fault (.notEnabled "CPYCAN")) ++
    [execJcbHomeRaise u, execJcbRaiseAnswer u, execCopyComplete u .ca, execCopyComplete u .cb] ++ (List.range n.eng.caArmed.length).map (fun i => execCpyqFire u .ca i) ++
    (List.range n.eng.cbArmed.length).map (fun i => execCpyqFire u .cb i) ++ [execEpiAddComplete u] ++ (List.range n.eng.armed.length).map (fun i => execSendtFire u i) ++
    (List.range 10).map (fun a => execMatrixRunEnd u (BitVec.ofNat 4 a)) ++ n.ctl.cwaiting.map (fun k => execCensusClose u k) ++
    [execWaitSatisfied u, execBarRelease u, execIdleEnd u, execPreemptQuiesce u (0, 0), execNodeSave u, execNodeCommit u]

/-- The events of the module that no outside party decides, in the order in which the default takes them (DESIGN CHOICE, log entry 2). -/
def State.ownEvents (s : State) : List (State → Result) :=
  ((List.range s.late.length).map fun i => fun (s : State) => .next (s.performAt i)) ++ (s.allNodes.flatMap nodeEvents) ++ (s.cores.flatMap fun c => [execSegmentCopyDone (BitVec.ofNat 10 c.idx), execEnqOutboxAccept (BitVec.ofNat 10 c.idx)]) ++
    (s.awl.posts.map fun p => match p.fail with
      | none => execJcbHomeCompletion p.jcb
      | some (i, st) => execJcbHomeNodeFailure p.jcb i st) ++
    ((List.range 64).flatMap fun q => (s.queue (BitVec.ofNat 6 q)).awaiting.map fun a => execPacketComplete (BitVec.ofNat 6 q) a.index) ++
    (s.awl.asChange.map fun e => execAsgenChangeDone (BitVec.ofNat 6 e.1)) ++ (s.dist.jobs.map fun j => execCoreRetireDrainDone (BitVec.ofNat 10 j.core)) ++
    [execFlipDrainDone, execMailboxRecordWrite, execBindDrainDone, execRebindDone, execDistributorPlace, execAwlSlot]

/-- The first event that can happen, with what it leaves; the machine stands still when none can. -/
def State.firstEvent (s : State) : List (State → Result) → State
  | [] => s
  | e :: rest =>
    match e s with
    | .next t => t.clearBnd
    | _ => State.firstEvent s rest

end Sys2Proof.Machine
end

