-- ==== Sys2Proof/Machine/Step.lean ====
section
/-! DEFINITION. One step of the module, and the state in which a given word is fetched next. -/

namespace Sys2Proof.Machine

/-- One step (DESIGN CHOICE, log entry 2): the head of the agenda, an event, the issue of a core's next bundle or another step of a unit; with no agenda, the focus core
issues, and when it cannot, the first event that the module can take by itself happens. After every step the ready pool stands filled (R91). DESIGN CHOICE: log entry 54. -/
def step (s : State) : Host.Outcome State Fault Refusal :=
  settled <| match s.agenda with
  | .event i :: rest =>
    match exec i { s with agenda := rest } with
    | .next t => .next t.clearBnd
    | o => o
  | .move uid e place parts :: rest => .next (({ s with agenda := rest } : State).moveEngine uid e place parts).clearBnd
  | .look uid tid off len :: rest => .next (({ s with agenda := rest } : State).lookAhead uid tid off len)
  | .perform i :: rest => .next (({ s with agenda := rest } : State).performAt i)
  | .cancel uid cb :: rest => .next (({ s with agenda := rest } : State).cancelNow uid cb)
  | .spoil uid lost :: rest => .next (({ s with agenda := rest } : State).spoil uid lost)
  | .credit port chan has :: rest => .next (({ s with agenda := rest } : State).creditPort port chan has)
  | .issue idx :: rest =>
    let t := ({ s with agenda := rest } : State).focusOn idx
    match t.issue with
    | some o => o
    | none => .next t
  | .issueLate idx :: rest =>
    let t := ({ s with agenda := rest } : State).focusOn idx
    match t.issueLate with
    | some (.next u) => .next u.clearBnd
    | some o => o
    | none => .next t
  | [] =>
    match s.issue with
    | some o => o
    | none => .next (s.firstEvent s.ownEvents)

/-- The image of a node that is placed from outside (DESIGN CHOICE, log entry 1): the whole partition, and 16 packets of code at offset 0. -/
def probeImage : Image := { part := 0x00080820#32, codeLen := 192 }

/-- Code that holds the words of `w` from the last word of the first packet on, and zero words elsewhere. DESIGN CHOICE: log entry 1. -/
def probeCode (nbits w : Nat) : List IWord :=
  [0#32, 0#32] ++ (List.range 46).map fun i => BitVec.ofNat 32 (if 32 * i < nbits then w / 2 ^ (32 * i) else 0)

/-- `s` with a node placed on the focus core whose next bundle starts with the word `w` (DESIGN CHOICE, log entry 1): the node is RUNNING, its code is resident,
and its address is the last word of a packet, where a CALL may stand (R163). -/
def State.withFetchWord (s : State) (nbits w : Nat) : State :=
  let u := s.awl.nextUid
  let n : Node := { desc := { uid := u, image := probeImage }, run := { st := .running }, regs := Regs.reset, ctl := { part := probeImage.part, pc := 8 }, eng := {} }
  let r : Resident := { imgid := 0, space := 0, ovl := false, size := 1, launched := 1, segs := [{ num := 0, words := probeCode nbits (w % 2 ^ nbits), poison := [] }], half0 := none, half1 := none, copying := none }
  let c : Core := { idx := s.focus, state := .active, slots := #v[u, 0, 0, 0], current := u, lastSlot := 0, imem := [r] }
  { s with agenda := [], cur := n, nodes := if s.cur.desc.uid = 0 then s.nodes else nodesPut s.nodes s.cur, cores := coresPut s.cores c,
           awl := { s.awl with nextUid := u + 1 }, bnd := {} }

end Sys2Proof.Machine
end

