-- ==== Sys2Proof/Safety.lean ====
section
/-! DEFINITION. The terms in which statements speak of runs: when a word has its own effect, what a result in flight is, what the whole of a tile result says,
and the canonical form of memory. -/

namespace Sys2Proof.Machine

/-- The word has its own effect in this state: its encoding is well formed (R141), its tiles and accumulators exist (R59), its guard and Q admit it
(R131, R132), and the splice names every register that it names (R112). -/
abbrev Runs (i : Instr) (s : State) : Prop :=
  i.wf = true ∧ partitionOk s.cur.ctl.part i.sig = true ∧ suppressed s.cur i.sig = false ∧ s.spliceFault i.sig = false

/-- Results join those in flight of the current node, and nothing else changes. -/
def State.withResults (s : State) (l : List InFlight) : State :=
  { s with cur := { s.cur with ctl := { s.cur.ctl with flight := s.cur.ctl.flight ++ l } } }

/-- The result that a scalar destination receives `dist` bundles later: none for s0, and the shadow bank where it is selected (R153). -/
def scalarResult (s : State) (dist : Nat) (d : BitVec 5) (v : Word) : List InFlight :=
  if d = 0 then [] else [{ dist := dist, eff := .s (s.cur.ctl.bank && decide (24 ≤ d.toNat)) d v }]

/-- The result that a predicate receives `dist` bundles later: none for p0 (R153). -/
def predResult (dist : Nat) (d : BitVec 3) (v : Bool) : List InFlight := if d = 0 then [] else [{ dist := dist, eff := .p d v }]

/-- sD receives a value and nothing else changes. -/
abbrev GivesS (i : Instr) (s : State) (dist : Nat) (d : BitVec 5) (v : Word) : Prop := exec i s = .next (s.withResults (scalarResult s dist d v))

/-- pD receives a value and nothing else changes. -/
abbrev GivesP (i : Instr) (s : State) (d : BitVec 3) (v : Bool) : Prop := exec i s = .next (s.withResults (predResult 1 d v))

/-- A tile receives a value for every element, with its poison marks and its SAT bit, and nothing else changes: element j holds the bits `bit j` and is
poisoned when `poi j` (R182, R184). -/
def GivesTile (i : Instr) (s : State) (dist : Nat) (D : TileView) (bit : Nat → Nat) (poi : Nat → Bool) (sat : Bool) : Prop :=
  ∃ bits poison : Nat,
    exec i s = .next (s.withResults [{ dist := dist, eff := .tile D.slot (2 ^ (D.w * D.n) - 1) bits poison sat false }]) ∧
    bits < 2 ^ (D.w * D.n) ∧ poison < 2 ^ (D.w * D.n) ∧ ∀ j < D.n, tileBits bits D.w j = bit j ∧ elemPoison poison D.w j = poi j

/-- Memory in canonical form. -/
abbrev Canonical (s : State) : Prop := Memory.wf s.mem = true

/-- Every byte of memory reads as before but those of a set of addresses. -/
def SameMemoryBut (s t : State) (changed : Nat → Prop) : Prop := ∀ a, ¬ changed a → t.byte a = s.byte a

/-! ## Scalar memory accesses -/

/-- The signed or unsigned value of a little-endian number of `len` bytes, as a scalar holds it. -/
def loadedWord (len : Nat) (signed : Bool) (v : Nat) : Word :=
  if signed ∧ 2 ^ (8 * len - 1) ≤ v then BitVec.ofInt 64 ((v : Int) - 2 ^ (8 * len)) else BitVec.ofNat 64 v

/-- The state after an access by a word of the current node, with the guard granule that it touched noted (R248). -/
def State.touched (s : State) (g : Option Nat) : State := s.touch s.cur.desc.uid 0 (some s.bnd.addr) g

/-- A word of `s` reads `len` bytes at a tensor-relative address of `u`, which is `s`, or for an acquire `s` without what has been read ahead (R268 to R270): off its
alignment it traps before bundle b + 6; a fault of the layout unit traps or stops the node; poison is consumed; else `k` gives the result of the bytes that the read
delivers, lowest address first (log entry 91), and nothing else changes but the note of a touched guard and what stands of what has been read ahead. -/
def LoadsIn (i : Instr) (s u : State) (ea : Word) (len : Nat) (k : State → Nat → List InFlight) : Prop :=
  let bytes := u.readBytes u.cur (addrTid ea) (addrOff ea) len
  let got := fun (l : List (Byte × Bool)) => u.delivered (addrTid ea) (addrOff ea) l
  (ea.toNat % len ≠ 0 → exec i s = .next (u.withResults [{ dist := 6, eff := .trap 0x10 u.bnd.pos u.bnd.fa ea }])) ∧
  (ea.toNat % len = 0 → ∀ f, bytes = .error f → exec i s = .next (u.wordFault f ea)) ∧
  (ea.toNat % len = 0 → ∀ l g, bytes = .ok (l, g) → (got l).1.any (·.2) = true → exec i s = .next u.consume) ∧
  (ea.toNat % len = 0 → ∀ l g, bytes = .ok (l, g) → (got l).1.any (·.2) = false →
    exec i s = .next (((got l).2.touched g).withResults (k u (leNat ((got l).1.map (·.1))))))

/-- A word reads in the state in which it executes. -/
abbrev LoadsFrom (i : Instr) (s : State) (ea : Word) (len : Nat) (k : State → Nat → List InFlight) : Prop := LoadsIn i s s ea len k

/-- The bytes that a store writes, each at its place, in address order. -/
def storedBytes (ps : List Place) (v len : Nat) : List (Place × Byte × Bool) := ps.zip ((leBytes v len).map fun b => (b, false))

/-- A word stores the low `len` bytes of `v` at a tensor-relative address (R268, R269): off its alignment it traps before bundle b + 6; all of its bytes are
translated before any is written; a store that brings the staged lines above the budget fails the node (R68). Nothing of its bytes that has been read ahead stands; in a
bundle that issues with stores outstanding, one of an unstaged node beyond the pool joins the stores that are still to be performed, and is written later (R287; the
model's choice, log entry 91). `aligned` is what its entry asks of the address, and `allowed` whether its entry asks for a tensor that the node may write (R65, log
entry 10). -/
def StoresTo (i : Instr) (s : State) (ea : Word) (len v : Nat) (aligned allowed : Prop) : Prop :=
  let uid := s.cur.desc.uid
  let places := s.places s.cur (addrTid ea) (addrOff ea) len
  let later := s.bnd.late = true ∧ s.cur.desc.image.unstg = true
  let beyond := fun (ps : List Place) => ∀ p ∈ ps, ∃ a g, p = Place.phys a g
  let t := s.forget (s.placesOf s.cur (addrTid ea) (addrOff ea) len)
  let done := fun ps => (t.writePlaces uid (storedBytes ps v len)).touch uid 0 (some s.bnd.addr) (firstGuard ps)
  (aligned → allowed → ∀ f, places = .error f → exec i s = .next (s.wordFault f ea)) ∧
  (aligned → allowed → ∀ ps, places = .ok ps → later → beyond ps → exec i s = .next { t with late := s.late ++ [{ uid := uid, bytes := storedBytes ps v len }] }) ∧
  (aligned → allowed → ∀ ps, places = .ok ps → ¬ (later ∧ beyond ps) → ((done ps).node uid).overBudget = false → exec i s = .next (done ps)) ∧
  (aligned → allowed → ∀ ps, places = .ok ps → ¬ (later ∧ beyond ps) → ((done ps).node uid).overBudget = true → exec i s = .next (s.wordFault .overflow ea))

/-- The alignment trap of R269 and the handle fault of a tensor that the node only reads (R65, log entry 10). -/
def StoreTraps (i : Instr) (s : State) (ea : Word) (len : Nat) : Prop :=
  (ea.toNat % len ≠ 0 → exec i s = .next (s.withResults [{ dist := 6, eff := .trap 0x10 s.bnd.pos s.bnd.fa ea }])) ∧
  (ea.toNat % len = 0 → writeMode s.cur (addrTid ea) = false → exec i s = .next (s.trapHere 5 0))

/-! ## Tile words -/

/-- A value clamped to the signed or unsigned type of width `w`, and whether that changes it (R5, R182). -/
def clampTo (w : Nat) (u : Bool) (x : Int) : Int := if u then max 0 (min x (2 ^ w - 1)) else max (-(2 ^ (w - 1))) (min x (2 ^ (w - 1) - 1))
def clamps (w : Nat) (u : Bool) (x : Int) : Bool := decide (clampTo w u x ≠ x)

/-- Some element of a tile clamps. -/
def anyClamps (n w : Nat) (u : Bool) (f : Nat → Int) : Bool := (List.range n).any fun j => clamps w u (f j)

/-- A vector word whose tiles have legal shapes and meet its conditions gives `D` every element; any other takes the tile shape fault (R183, R216). -/
def VectorGives (i : Instr) (s : State) (dist : Nat) (l : List TileView) (ok : Prop) (D : TileView) (bit : Nat → Nat) (poi : Nat → Bool) (sat : Bool) : Prop :=
  ((∀ t ∈ l, t.legal = true) ∧ ok → GivesTile i s dist D bit poi sat) ∧ (¬((∀ t ∈ l, t.legal = true) ∧ ok) → exec i s = .next (s.trapHere 3 0))

/-- Same grid; same shape (R183). -/
def SameGrid (t u : TileView) : Prop := t.rows = u.rows ∧ t.cols = u.cols
def SameShape (t u : TileView) : Prop := SameGrid t u ∧ t.w = u.w

/-- Elements that are written wrapped: the low bits of an integer. -/
def VectorWraps (i : Instr) (s : State) (dist : Nat) (l : List TileView) (ok : Prop) (D : TileView) (f : Nat → Int) (poi : Nat → Bool) (sat : Bool) : Prop :=
  VectorGives i s dist l ok D (fun j => lowBits D.w (f j)) poi sat

/-- Elements that are written saturated, with SAT set where one clamps. -/
def VectorClamps (i : Instr) (s : State) (dist : Nat) (l : List TileView) (ok : Prop) (D : TileView) (u : Bool) (f : Nat → Int) (poi : Nat → Bool)
    (sat : Bool) : Prop :=
  VectorGives i s dist l ok D (fun j => lowBits D.w (clampTo D.w u (f j))) poi (sat || anyClamps D.n D.w u f)

/-- Elements with their stored bits and clamp flags. -/
def VectorStores (i : Instr) (s : State) (dist : Nat) (l : List TileView) (ok : Prop) (D : TileView) (f : Nat → Nat × Bool) (poi : Nat → Bool) (sat : Bool) : Prop :=
  VectorGives i s dist l ok D (fun j => (f j).1) poi (sat || (List.range D.n).any fun j => (f j).2)

/-! ## Packets -/

/-- A packet of queue q has done its last step and completes (R78, R79): QHEAD advances unless the queue is being reset, its record and its interrupt follow, and the queue
stands as R77 and R82 have it. -/
def State.retired (s : State) (q : BitVec 6) (index : BitVec 32) (p : BitVec 512) (status : BitVec 16) : State :=
  let t := if (s.queue q).st = .resetting then s else s.mapQueue q fun x => { x with head := x.head + 1, cur := none }
  (t.completePacket q index p status).afterPacket q

/-- A launch packet of queue q has done its last step and completes with the graph `graph` (R78): QHEAD advances. -/
def State.leftWaiting (s : State) (q : BitVec 6) (index : BitVec 32) (p : BitVec 512) (graph : Nat) : State :=
  (s.mapQueue q fun x => { x with head := x.head + 1, cur := none, awaiting := x.awaiting ++ [{ index := index, pkt := p, graph := graph }] }).afterPacket q

/-- The effect of a packet of queue q is under way, and a later event makes its last step (R78), unless the packet has reset its own queue. -/
def State.underWay (s : State) (q : BitVec 6) (index : BitVec 32) (p : BitVec 512) : State :=
  if (s.queue q).st = .resetting then s else s.inProgress q index p 0 true

/-- A packet puts its queue into ERROR (R75, R79); with XLATE, what its failed translations leave is noted first (R261, R266). -/
def State.inError (s : State) (q : BitVec 6) (p : BitVec 512) (status : BitVec 16) : State :=
  let s := if status = 6 then s.noteFaults q true p else s
  (s.setQueue q ((s.queue q).fail status)).settle

/-- An image that a launch presents and that has been validated since reset (R56): its header and its content can be read, and its content is that of the image
validated under its IMGID. -/
def State.imageKnown (s : State) (sp : BitVec 6) (host : Bool) (addr : Nat) (img : Image) : Prop :=
  ∃ (h l : List Byte) (room : Nat) (e : Word × Image), s.awlRead sp host addr 128 = some h ∧ s.roomAt sp host addr = some room ∧
    s.awl.validated.find? (fun e => e.1.toNat == fieldB h 8 8) = some e ∧ s.awlRead sp host addr (min room (fieldB h 0x40 4)) = some l ∧
    imageOf l addr = { e.2 with addr := BitVec.ofNat 64 addr } ∧ img = imageOf l addr

/-- The descriptor at an address passes the checks of R393 as node `index` of a launch, with an image validated since reset: `c` is what it describes (R64, R65). -/
def State.launchable (s : State) (sp : BitVec 6) (host : Bool) (addr index : Nat) (solo : Bool) (seed step : BitVec 32) (c : Checked) : Prop :=
  ∃ (d sl : List Byte) (img : Image),
    let n := fieldB d 0x1A 1
    let hs := (List.range n).map (nodeHandle d)
    let rs := (List.range n).map (nodeSrec d)
    let j := fieldB d 4 2
    s.awlRead sp host addr 512 = some d ∧ nodeReservedOk d = true ∧ s.awlRead sp host (fieldB d 0x10 8) (4 * fieldB d 0x18 2) = some sl ∧
    (∀ i < fieldB d 0x18 2, fieldB sl (4 * i) 4 < 2 ^ 20) ∧ s.imageKnown sp host (fieldB d 8 8) img ∧ n = img.opnds.length ∧
    (∀ e ∈ hs.zip img.opnds, operandAgrees img.unstg e.1 e.2 = true) ∧ kidxAgree (hs.zip rs) = true ∧ (solo = true → fieldB d 6 2 = 0 ∧ fieldB d 0x18 2 = 0) ∧
    c.pred = fieldB d 6 2 ∧ c.succ = (List.range (fieldB d 0x18 2)).map (fun i => fieldB sl (4 * i) 4) ∧
    c.desc = { queue := sp, index := index, addr := BitVec.ofNat 64 addr, prio := BitVec.ofNat 3 (fieldB d 0 4 % 8), stage := BitVec.ofNat 4 (fieldB d 0 4 / 16 % 16),
               anyStage := (fieldB d 0 4).testBit 8, jcb := if j.testBit 15 then some (BitVec.ofNat 12 (j % 4096)) else none, image := img,
               args := (List.range 8).map (fun i => BitVec.ofNat 64 (fieldB d (0x20 + 8 * i) 8)), handles := hs, srecs := rs, gseed := seed, gstep := step }

/-- A packet of this type, and operation where it has one, is at its last step in queue q of a module whose Awl runs (R84, R362). -/
def State.atLastStep (s : State) (q : BitVec 6) (index : BitVec 32) (p : BitVec 512) (type : Nat) (op : Option Nat) : Prop :=
  3 ≤ s.svc.phase ∧ (∃ c, (s.queue q).cur = some c ∧ c.pkt = p ∧ c.index = index ∧ c.waiting = false) ∧ pk p 0 1 = type ∧ ∀ k, op = some k → pk p 0x10 1 = k

/-- What a write of the Awl leads to: an error, completion, or completion once the new generations have been acknowledged (R264). A packet that a new generation of
its space has made stale writes nothing, and ends with XLATE where it `reads` (R263). -/
def AwlWrites (i : Instr) (s : State) (q : BitVec 6) (index : BitVec 32) (p : BitVec 512) (reads : Prop) (r : Except (BitVec 16) (State × List Nat)) : Prop :=
  (s.packetStale q = true → reads → exec i s = .next (s.inError q p 6)) ∧
  (¬ (s.packetStale q = true ∧ reads) → ∀ e, r = .error e → exec i s = .next (s.inError q p e)) ∧
  (s.packetStale q = true → ¬ reads → ∀ t ks, r = .ok (t, ks) → exec i s = .next (s.dropWrite.retired q index p 0)) ∧
  (s.packetStale q = false → ∀ t, r = .ok (t, []) → exec i s = .next (t.retired q index p 0)) ∧
  (s.packetStale q = false → ∀ t k ks, r = .ok (t, k :: ks) → exec i s = .next (((k :: ks).foldl (fun s k => s.newGeneration k q index) t).underWay q index p))

/-! ## Nodes and cores -/

/-- Every node but those of a list stands as before. -/
def SameNodesBut (s t : State) (l : List Nat) : Prop := ∀ v, v ≠ 0 → v ∉ l → t.node v = s.node v

/-- A node has entered slot `i` of a core's run queue (R66, R92, R93, R97, R246, R361): it is PLACED at the core's width, with a node serial of its own, and takes the
lowest units of the pools that are free, as many as its partition asks for (the model's choice, log entry 78); a node that fixes its stage gives it to the core;
the code of the core's nodes and of its own image stays in instruction memory. No other node or core changes, and no memory. -/
def Entered (s t : State) (idx i uid : Nat) : Prop :=
  let n := s.node uid
  let m := t.node uid
  let c := s.core idx
  let d := t.core idx
  (m.desc = n.desc ∧ m.regs = n.regs ∧ m.ctl = n.ctl ∧ m.eng = n.eng) ∧ (m.run.st = .placed ∧ m.run.gangWidth = slabsOfGang c.gang ∧ m.run.preempt = false) ∧
  (n.run.serial ≠ 0 → m.run.serial = n.run.serial ∧ t.awl = s.awl) ∧
  (n.run.serial = 0 → m.run.serial = BitVec.ofNat 32 s.awl.nextSerial ∧ t.awl = { s.awl with nextSerial := s.awl.nextSerial + 1 }) ∧
  d.slots = c.slots.setIfInBounds i uid ∧ d.stage = (if n.desc.anyStage then c.stage else n.desc.stage) ∧ d.pairs = c.pairs ∧
  (∀ k : Fin 48, d.units[k] = if c.units[k] = 0 ∧ ((c.units.toList.take k).filter (· == 0)).length < poolUnits n.desc.image.part then uid else c.units[k]) ∧
  (∀ r ∈ d.imem, r ∈ c.imem) ∧
  (∀ r ∈ c.imem, r.imgid = n.desc.image.imgid ∨ (∃ v ∈ s.residentNodes c, v.desc.image.imgid = r.imgid) → r ∈ d.imem) ∧
  SameNodesBut s t [uid] ∧ (∀ k, k ≠ idx → t.core k = s.core k) ∧ t.mem = s.mem ∧ t.poison = s.poison

/-- A node has left the run queue of its core, if it stood in one, and its units are free again (R97, R246). -/
def LeftItsCore (s t : State) (uid : Nat) : Prop :=
  ∀ c, s.coreOf uid = some c → (t.core c.idx).slots = c.slots.map (fun u => if u = uid then 0 else u) ∧
    (t.core c.idx).units = c.units.map (fun u => if u = uid then 0 else u) ∧ (t.core c.idx).current = (if c.current = uid then 0 else c.current)

/-- What the save area of a node holds (R355, R394) where the node is one that a core can run: its record, registers, control block, wait record and pool image, from a DRAM
frame on. The encodings that R394 leaves to the implementation are left out. -/
def SavedAt (t : State) (frame : Nat) (n : Node) (sp : Splice) : Prop :=
  let a := dramPA (frame * 65536)
  let w := n.run.gangWidth
  let k := n.ctl
  let r := n.regs
  let tiles := fieldN k.part 0 6
  let accs := fieldN k.part 8 4
  let words := fun (off : Nat) (l : List Nat) => ∀ i v, l[i]? = some v → t.rd (a + off + 8 * i) 8 = v % 2 ^ 64
  words 0 [n.run.serial.toNat, n.desc.addr.toNat, n.desc.image.imgid.toNat, n.desc.queue.toNat, n.tag.toNat, k.part.toNat,
    if w = 2 then 1 else if w = 4 then 2 else 0, spliceRole sp n, n.poolBytes, n.markBytes, n.run.payload] ∧
  (∀ i : Fin 32, t.rd (a + 0x100 + 8 * i) 8 = if i = 0 then 0 else r.s[i].toNat) ∧
  (∀ i : Fin 8, t.rd (a + 0x200 + 8 * i) 8 = r.sh[i].toNat ∧ t.rd (a + 0x240 + i) 1 = if n.p (BitVec.ofNat 3 i) then 1 else 0) ∧
  t.rd (a + 0x248) 1 = (if k.bank then 1 else 0) ∧ (∀ i : Fin 16, t.rd (a + 0x300 + 32 * i) 32 = r.h[i].toNat) ∧
  (∀ i : Fin 64, t.rd (a + 0x500 + 4 * i) 4 = r.k[i].toNat ∧ t.rd (a + 0x600 + 4 * i) 4 = r.ts[i].toNat ∧ t.rd (a + 0x700 + 4 * i) 4 = r.c[i].toNat) ∧
  words 0x800 ([k.seed.toNat, k.step.toNat, k.rtb.toNat] ++ (k.loops.toList.map fun l => l.word.toNat) ++ (k.ls.toList.map fun v => v.toNat) ++
    (k.loops.toList.flatMap fun l => [l.lat0.toNat, l.lat1.toNat]) ++ (r.e.toList.map fun v => v.toNat) ++
    [k.cfa.toNat, k.cfb.toNat, k.ui.word.toNat, k.trap.trapWord.toNat, k.trap.tpcWord.toNat, k.trap.val.toNat, k.flt.toNat * 16]) ∧
  (∀ g, k.guard = some g → t.rd (a + 0x960) 8 = g.val.toNat) ∧
  (k.waits = [] → words 0xC00 [0, 0, 0]) ∧ (∀ c v l, k.waits = .cwait c v :: l → words 0xC00 [1 + 256 * c.toNat, v.toNat, 0]) ∧
  (∀ c v l, k.waits = .barb c v :: l → words 0xC00 [2 + 256 * c.toNat, v.toNat, v.toNat - (r.c[c.toNat]).toNat]) ∧
  (∀ m l, k.waits = .bar m :: l → words 0xC00 [3 + 256 * m.toNat, 0, 0]) ∧ (∀ l, k.waits = .idle :: l → words 0xC00 [4, 0, 0]) ∧
  (∀ i < 2 * tiles, ∀ b < 32768 * w, (t.byte (a + 65536 + i * (32768 * w) + b)).toNat = (n.poolTile sp i).bits / 2 ^ (8 * b) % 256) ∧
  (∀ i < accCount k.part, ∀ b < 6 * accElems w, (t.byte (a + 65536 + tiles * 65536 * w + i * (6 * accElems w) + b)).toNat =
    (r.acc[i]?.getD {}).base / 2 ^ (8 * b) % 256) ∧
  ∀ b < fieldN k.part 16 6 * 65536 * w, t.byte (a + 65536 + (tiles + accs) * 65536 * w + b) = (cellGet? n.run.scr.cells b).getD 0

/-! ## Steps -/

/-- The focus core's node may issue its next bundle: no event waits, and no pair of a splice, wait, pre-emption or interrupt of the node. -/
structure Issues (s : State) : Prop where
  agenda : s.agenda = []
  node : s.cur.desc.uid ≠ 0
  current : (s.core s.focus).current = s.cur.desc.uid
  pairs : (s.core s.focus).pairs = []
  running : s.cur.run.st = .running
  stays : s.cur.run.preempt = false ∧ s.cur.run.quiesced = false
  quiet : s.cur.ctl.waits = [] ∧ s.cur.userDue = false

/-- The focus core stands in front of a bundle of one word `w` that decodes to `i`, and nothing else is due there: no delayed cause, guard record, missing
answer or store that is still to be performed, and the bundle passes its static checks. -/
structure StandsAtWord (s : State) (w : IWord) (i : Instr) : Prop extends Issues s where
  inside : s.cur.ctl.pcOut = false ∧ s.cur.ctl.guard = none
  due : takeDue s.cur.ctl.flight = none ∧ answerDue s.cur.ctl.flight = false
  stored : s.owesStores = false
  fetched : s.fetchWord s.cur s.cur.ctl.pc.toNat = .word w false
  last : chains w = false
  decoded : decodeWord w = .ok i
  checked : bundleCheck s.cur.desc.image.ovl s.cur.ctl.part (s.cur.ctl.pc.toNat + 4) [{ i := i, pos := 0, addr := s.cur.ctl.pc.toNat }] = none

/-- The state in which that word is tried for a trap: the results that are due have been written (R143), and the bundle's place is noted. -/
def tried (s : State) (i : Instr) : State :=
  let w : BWord := { i := i, pos := 0, addr := s.cur.ctl.pc.toNat }
  (s.enterBundle (s.cur.ctl.pc.toNat + 4)).atWord [w] w

/-- The state in which that word executes: the counters that are due have fired armed commands, too (R279). -/
def inItsBundle (s : State) (i : Instr) : State :=
  let w : BWord := { i := i, pos := 0, addr := s.cur.ctl.pc.toNat }
  ((s.enterBundle (s.cur.ctl.pc.toNat + 4)).fireArmed s.cur.desc.uid).atWord [w] w

end Sys2Proof.Machine
end

