-- ==== Sys2Proof/Certificates/Slice0/Obligations.lean ====
section
/-! DEFINITION. The statements about the model, one definition each. -/

open Sys2Proof Sys2Proof.Machine

/-! ## Encodings and steps -/

/-- Words of the spec's own worked listings, and words written out from the layouts: what the decoder reads from each (R130 to R133, R141, R142). -/
def Obligations.DecodesTheWrittenWords : Prop :=
  decodeHead [0x80000C22#32] = .ok (.add 0 0 3 1 2, 1, true) ∧
  decodeHead [0x00069422#32] = .ok (.mul 0 0 5 1 2, 1, false) ∧
  decodeHead [0x220C6001#32] = .ok (.addi 1 12 12 1 none, 1, false) ∧
  decodeHead [0x840B0505#32] = .ok (.loopOpen 0 0 5 5 none, 1, true) ∧
  decodeHead [0x840A07FD#32] = .ok (.loopClose 0 0 0x7FD none, 1, true) ∧
  decodeHead [0x06024883#32] = .ok (.ldW 0 0 9 2 3 none, 1, false) ∧
  decodeHead [0x08020000#32] = .ok (.tret 0, 1, false) ∧
  decodeHead [0x8A004087#32] = .ok (.vadd 0 0 4 2 7, 1, true) ∧
  decodeHead [0x0CE0A080#32] = .ok (.vmov 0 10 2, 1, false) ∧
  decodeHead [0x8E9610A4#32] = .ok (.vlut3 0 0x96 2 5 4, 1, true) ∧
  decodeHead [0x90305080#32, 0x1A00000E#32] = .ok (.vrsq 0 5 2 0 (some 14), 2, false) ∧
  decodeHead [0x12010000#32] = .ok (.mbeg 0 0 1, 1, false) ∧
  decodeHead [0x1400400A#32] = .ok (.hset 0 0 2 0 10, 1, false) ∧
  decodeHead [0x96004040#32] = .ok (.cpy 0 0 2 0 2, 1, true) ∧
  decodeHead [0x18061809#32] = .ok (.barb 0 0 3 9, 1, false) ∧
  decodeHead [0x1E000000#32] = .ok (.nop 0 0, 1, false)

/-- Every well-formed instruction that has words reads back from its words with every operand, whatever follows them, and with either chain bit where nothing
follows (R130, R133, R141, R142). -/
def Obligations.DecodeOfEncode : Prop :=
  ∀ i : Instr, i.wf = true → i.encodeNat.isSome = true →
    (∀ rest : List IWord, decodeHead (encode i ++ rest) = .ok (i, (encode i).length, false)) ∧
    (∀ c : Bool, decodeHead (i.encodeWith c) = .ok (i, (i.encodeWith c).length, c))

/-- A word that decodes is the one word of its instruction: no two words stand for the same instruction, and no assigned layout leaves a bit unread (R130,
R141, R142). The codes that the opcode map leaves unassigned decode to no instruction (R141): class 0b1110, and the unassigned opcodes of every other class. -/
def Obligations.WordsAndInstructionsCorrespond : Prop :=
  (∀ w : IWord, ∀ i : Instr, decodeWord w = .ok i → i.encodeNat = some (w.toNat % 2 ^ 31)) ∧
  (∀ w : IWord,
    let cls := fieldN w 25 4
    let bad := fun (lo n : Nat) (l : List Nat) => l.contains (fieldN w lo n)
    (cls = 14 ∨ (cls = 0 ∧ 0x27 ≤ fieldN w 15 6) ∨ (cls = 1 ∧ 9 ≤ fieldN w 21 4) ∨ (cls = 2 ∧ 10 ≤ fieldN w 17 4) ∨
      (cls = 3 ∧ bad 16 5 [0x0F, 0x1A, 0x1B, 0x1C, 0x1D, 0x1E, 0x1F]) ∨ (cls = 4 ∧ 12 ≤ fieldN w 17 4) ∨ (cls = 5 ∧ 0x1A ≤ fieldN w 20 5) ∨
      (cls = 6 ∧ 0x15 ≤ fieldN w 20 5) ∨ (cls = 8 ∧ 0x0B ≤ fieldN w 20 5) ∨ (cls = 9 ∧ 9 ≤ fieldN w 21 4) ∨ (cls = 10 ∧ 12 ≤ fieldN w 17 4) ∨
      (cls = 11 ∧ 10 ≤ fieldN w 17 4) ∨ (cls = 12 ∧ 9 ≤ fieldN w 17 4)) →
    ∃ e, decodeWord w = .error e)

/-- A step runs the decoded instruction: the results that are due are written, the instruction executes, and either the bundle ends (the pc moves past the
word, and the transfers, control writes, loop changes and waits of the bundle take effect), or a trap, rollback or failure has been taken in front of it, which
stands as it is, or an engine, a unit or the limit of 128 results in flight delays it (R146, R353): then nothing of it has issued, and the step is the first event
that the module takes by itself (log entry 2). After every step the ready pool stands filled (R91; log entry 45). The same of a bundle of several words, which are tried for a trap first, by position, and then run one after the
other (R138, R346; log entry 12); and what a fetch of two chained words gives. In front of a bundle that may have to stand behind stores of the node that are still to be
performed, the step performs them (R287; the model's choice, log entry 91). -/
def Obligations.StepRunsTheDecodedWord : Prop :=
  (∀ (s : State) (w : IWord) (i : Instr) (u : State), StandsAtWord s w i → exec i (tried s i) = .next u →
    (u.bnd.stop = .taken → step s = .next u.clearBnd.settlePool) ∧
    (u.bnd.stop ≠ .taken → ∀ t, exec i (inItsBundle s i) = .next t →
      (t.bnd.stop = .none → t.cur.inFlight ≤ 128 → step s = .next (t.finish (s.cur.ctl.pc.toNat + 4) s.cur).clearBnd.settlePool) ∧
      (t.bnd.stop = .taken → step s = .next t.clearBnd.settlePool) ∧
      (t.bnd.stop = .delayed ∨ (t.bnd.stop = .none ∧ 128 < t.cur.inFlight) → step s = .next (s.firstEvent s.ownEvents).settlePool))) ∧
  (∀ (s : State) (l : List BWord) (na : Nat), Issues s → s.boundary = .bundle l na → s.owesStores = true → step s = .next (s.drain s.cur.desc.uid).settlePool) ∧
  (∀ (s : State) (l : List BWord) (na : Nat), Issues s → s.boundary = .bundle l na → s.owesStores = false →
    let b := s.enterBundle na
    (∀ u, b.firstStopped l l = some u → step s = .next u.clearBnd.settlePool) ∧
    (b.firstStopped l l = none → ∀ t, (b.fireArmed s.cur.desc.uid).runWords l (issueOrder l) = .next t →
      (t.bnd.stop = .none → t.cur.inFlight ≤ 128 →
        step s = .next ((t.finish na s.cur).clearBnd.noteShared (s.core s.focus).emap l).settlePool) ∧
      (t.bnd.stop = .taken → step s = .next t.clearBnd.settlePool) ∧
      (t.bnd.stop = .delayed ∨ (t.bnd.stop = .none ∧ 128 < t.cur.inFlight) → step s = .next (s.firstEvent s.ownEvents).settlePool))) ∧
  (∀ (s : State) (l rest : List BWord) (w : BWord) (t : State), exec w.i (s.atWord l w) = .next t →
    (t.bnd.stop = .none → s.runWords l (w :: rest) = t.runWords l rest) ∧ (t.bnd.stop ≠ .none → s.runWords l (w :: rest) = .next t) ∧
    (t.bnd.stop = .taken → s.firstStopped l (w :: rest) = some t) ∧ (t.bnd.stop ≠ .taken → s.firstStopped l (w :: rest) = s.firstStopped l rest)) ∧
  (∀ (s : State) (w w' : IWord) (i i' : Instr) (c c' : Bool),
    let pc := s.cur.ctl.pc.toNat
    let l : List BWord := [{ i := i, pos := 0, addr := pc }, { i := i', pos := 1, addr := pc + 4 }]
    s.cur.ctl.pcOut = false → s.cur.ctl.guard = none → takeDue s.cur.ctl.flight = none → answerDue s.cur.ctl.flight = false →
    s.fetchWord s.cur pc = .word w false → chains w = true → s.fetchWord s.cur (pc + 4) = .word w' false → chains w' = false →
    decodeHead [w, w'] = .ok (i, 1, c) → decodeHead [w'] = .ok (i', 1, c') → bundleCheck s.cur.desc.image.ovl s.cur.ctl.part (pc + 8) l = none →
    s.boundary = .bundle l (pc + 8))

/-- An event at the head of the agenda happens, and one that the rules do not let happen stops the machine under its own name. The agenda is the model's own
(log entry 2). -/
def Obligations.StepTakesTheAgendaEvent : Prop :=
  ∀ (s : State) (i : Instr) (rest : List Agendum), s.agenda = .event i :: rest →
    (∀ t, exec i { s with agenda := rest } = .next t → step s = .next t.clearBnd.settlePool) ∧
    (∀ f, exec i { s with agenda := rest } = .fault f → step s = .fault f)

/-- Every word of the instruction set answers a next state in every state: an ill-formed one takes the illegal-encoding trap (R141), one that names a tile or
accumulator outside the partition the partition fault (R59), a suppressed one changes nothing (R132), and one that names a register which its splice
descriptor does not name takes the splice fault (R112); only then does it have its own effect. -/
def Obligations.EveryWordAnswersANextState : Prop :=
  ∀ (i : Instr) (s : State), i.encodeNat.isSome = true →
    (∃ t, exec i s = .next t) ∧
    (i.wf = false → exec i s = .next (s.trapHere 1 0)) ∧
    (i.wf = true → partitionOk s.cur.ctl.part i.sig = false → exec i s = .next (s.trapHere 2 0)) ∧
    (i.wf = true → partitionOk s.cur.ctl.part i.sig = true → suppressed s.cur i.sig = true → exec i s = .next s) ∧
    (i.wf = true → partitionOk s.cur.ctl.part i.sig = true → suppressed s.cur i.sig = false → s.spliceFault i.sig = true → exec i s = .next (s.trapHere 6 0))

/-! ## State -/

/-- Every step keeps memory in its canonical form. -/
def Obligations.EveryStepKeepsMemoryCanonical : Prop :=
  ∀ s t : State, Canonical s → step s = .next t → Canonical t

/-- After reset memory is in canonical form and no node, core or packet is there; the values that the rules give for reset: every queue DISABLED with its
registers 0 (R75), the slot tables of R83, the reserve of every stack at N = 8 between 8 and 32 (R102), a power limit of 3,000 W (R368), and STGSZ at 4,096
(R250). The values that no rule gives, such as those of QTAIL and QHEAD, are the model's (log entry 6). A node's registers before its launch loads are at their
Reset columns: scalars, undeclared handles, p1 to p7 and control registers 0, every scale register that no operand names with FMT 1 and both census fields 32
(R37, R65). -/
def Obligations.ResetState : Prop :=
  (Canonical State.reset ∧ State.reset.nodes = [] ∧ State.reset.cores = [] ∧ State.reset.cur = Node.none ∧
  (∀ q : BitVec 6, (State.reset.queue q).st = .disabled ∧ (State.reset.queue q).head = 0 ∧ (State.reset.queue q).tail = 0 ∧ (State.reset.queue q).gen = 0) ∧
  State.reset.awl.slots = State.reset.awl.exslot ∧ State.reset.awl.slots.length = 128 ∧
  (∀ q < 64, State.reset.awl.slots[2 * q]? = some (BitVec.ofNat 8 q)) ∧
  (∀ i < 4, State.reset.dist.reserve[i]? = some { n := 8, nmin := 8, nmax := 32 }) ∧
  State.reset.svc.powerLimit = 3000 ∧ State.reset.stgsz = 4096) ∧
  (∀ (d : Desc) (k : Vector (BitVec 32) 64),
    (launchRegs d k).s[0] = 0 ∧ (∀ i : Fin 8, (launchRegs d k).s[i.val + 1]? = some (d.args[i.val]?.getD 0)) ∧
    (∀ i : Fin 23, (launchRegs d k).s[i.val + 9]? = some 0) ∧ (launchRegs d k).sh = Vector.replicate 8 0 ∧
    (launchRegs d k).c = Vector.replicate 64 0 ∧ (launchRegs d k).ts = Vector.replicate 64 0 ∧ (launchRegs d k).e = Vector.replicate 4 0 ∧ (launchRegs d k).k = k ∧
    (d.handles.length ≤ 16 → ∀ (i : Nat) (h : Handle), d.handles[i]? = some h → (launchRegs d k).h[i]? = some h) ∧
    (∀ i < 16, d.handles.length ≤ i → (launchRegs d k).h[i]? = some 0) ∧ (∀ j < 8, 1 ≤ j → (launchRegs d k).p.getLsbD j = false) ∧
    (∀ (s t : State) (uid : Nat) (l : List (Handle × Word)) (k' : Vector (BitVec 32) 64), s.loadScales uid Regs.reset.k l = (t, .ok k') →
      ∀ j < 64, (∀ e ∈ l, e.1.kidx ≠ j) → k'[j]? = some scaleReset) ∧
    (launchCtl d).part = d.image.part ∧ (launchCtl d).seed = d.gseed ∧ (launchCtl d).step = d.gstep ∧ (launchCtl d).pc = d.image.entry.setWidth 22 ∧
    (launchCtl d).loops = Vector.replicate 6 {} ∧ (launchCtl d).flight = [] ∧ (launchCtl d).waits = [] ∧ (launchCtl d).trap = {} ∧
    scaleReset = 0x01082000#32)

/-- Memory returns the byte last written at an address and keeps every other byte, with its poison mark (R358), and stays canonical; that the mark is kept for each
byte is the model's choice, of which R358 says nothing (log entry 53). Numbers in memory are
little-endian (R55): what is written over n bytes reads back modulo 2^(8n), byte k holds bits 8k+7 to 8k, and every byte outside reads as before. -/
def Obligations.MemoryReadsWhatWasWritten : Prop :=
  (∀ (s : State) (pa : Nat) (b : Byte) (p : Bool), Canonical s → s.poison.Pairwise (· < ·) →
    Canonical (s.setByte pa b p) ∧
    ∀ a, (s.setByte pa b p).byte a = (if a = pa then b else s.byte a) ∧ (s.setByte pa b p).poisoned a = (if a = pa then p else s.poisoned a)) ∧
  (∀ (s : State) (pa v n : Nat), Canonical s →
    (s.wr pa v n).rd pa n = v % 2 ^ (8 * n) ∧ (∀ k < n, (s.wr pa v n).byte (pa + k) = BitVec.ofNat 8 (v / 2 ^ (8 * k))) ∧
    SameMemoryBut s (s.wr pa v n) fun a => pa ≤ a ∧ a < pa + n)

/-- s0 reads 0 and p0 reads true, whatever the register file holds, and a result for either is discarded (R153). Inside a user-level handler, and in any other
state with the shadow bank selected, s24 to s31 read the shadow bank, and every other name the primary one. A result of latency k + 1 is not seen by the
bundles before its due bundle, and is written at the start of that bundle; of two results for one register that fall due together the one issued later stands
(R143, R145). What each kind of due result writes: handles, route registers, counters, the bits of a scale register that a mask selects, predicates, the elements and
poison marks of a tile that a mask selects with its SAT bit, the state of an accumulator, the close of a census window, and origins; it writes nothing else. An origin update
comes after the other results of its bundle (R172; log entries 23 and 25). -/
def Obligations.RegistersAndResultsInFlight : Prop :=
  (∀ (n : Node) (s : State) (dist : Nat) (v : Word) (x : Bool),
    n.s 0 = 0 ∧ n.p 0 = true ∧ s.pushS dist 0 v = s ∧ s.pushP dist 0 x = s ∧
    (∀ r : BitVec 5, r ≠ 0 → r.toNat < 24 ∨ n.ctl.bank = false → n.s r = n.regs.s[r.toNat]) ∧
    (∀ r : BitVec 5, 24 ≤ r.toNat → n.ctl.bank = true → some (n.s r) = n.regs.sh[r.toNat - 24]?) ∧
    (∀ d : BitVec 5, d ≠ 0 → s.pushS dist d v = s.withResults [{ dist := dist, eff := .s (s.cur.ctl.bank && decide (24 ≤ d.toNat)) d v }])) ∧
  (∀ (n : Node) (e : Effect) (k : Nat), 0 < k →
    (n.push (k + 1) e).begin = n.begin.push k e ∧
    (∀ (d : BitVec 5) (v : Word), (n.push 1 (.s false d v)).begin.regs.s = n.begin.regs.s.setIfInBounds d.toNat v) ∧
    (∀ (d : BitVec 5) (v : Word), (n.push 1 (.s true d v)).begin.regs.sh = n.begin.regs.sh.setIfInBounds (d.toNat - 24) v) ∧
    (∀ (d : BitVec 3) (v : Bool) (j : Nat), j < 8 → (n.push 1 (.p d v)).begin.regs.p.getLsbD j = if j = d.toNat then v else n.begin.regs.p.getLsbD j) ∧
    (∀ (d : BitVec 6) (v : BitVec 32), (n.push 1 (.ts d v)).begin.regs.ts = n.begin.regs.ts.setIfInBounds d.toNat v)) ∧
  (∀ (r : Regs) (n : Nat),
    (∀ (d : BitVec 4) (v : Handle), r.apply n (.h d v) = { r with h := r.h.setIfInBounds d.toNat v }) ∧
    (∀ (d : BitVec 2) (v : Word), r.apply n (.e d v) = { r with e := r.e.setIfInBounds d.toNat v }) ∧
    (∀ (d : BitVec 6) (v : BitVec 32), r.apply n (.c d v) = { r with c := r.c.setIfInBounds d.toNat v } ∧
      r.apply n (.cAdd d v) = { r with c := r.c.setIfInBounds d.toNat (BitVec.ofNat 32 (r.c[d.toNat].toNat + v.toNat)) }) ∧
    (∀ (d : BitVec 6) (m v : BitVec 32), let t := r.apply n (.k d m v)
      { t with k := r.k } = r ∧ (∀ i : Fin 64, i.val ≠ d.toNat → t.k[i] = r.k[i]) ∧
      ∀ j < 32, t.k[d.toNat].getLsbD j = if m.getLsbD j then v.getLsbD j else r.k[d.toNat].getLsbD j) ∧
    (∀ (id : Nat) (d : BitVec 3) (a : Option Bool), let t := r.apply n (.pAnswer id d a)
      { t with p := r.p } = r ∧ ∀ j < 8, t.p.getLsbD j = if j = d.toNat then decide (a = some true) else r.p.getLsbD j) ∧
    (∀ (d : BitVec 6) (mask bits poison : Nat) (sat replace : Bool), let t := r.apply n (.tile d mask bits poison sat replace)
      { t with tile := r.tile, ts := r.ts } = r ∧ (∀ i : Fin 64, i.val ≠ d.toNat → t.tile[i] = r.tile[i] ∧ t.ts[i] = r.ts[i]) ∧
      (∀ j, (t.tile[d.toNat]).bits.testBit j = ((r.tile[d.toNat]).bits.testBit j && !mask.testBit j || bits.testBit j) ∧
        (t.tile[d.toNat]).poison.testBit j = ((r.tile[d.toNat]).poison.testBit j && !mask.testBit j || poison.testBit j)) ∧
      ∀ j < 32, t.ts[d.toNat].getLsbD j = if j = 25 ∧ (sat = true ∨ replace = true) then sat else r.ts[d.toNat].getLsbD j) ∧
    (∀ (a : BitVec 4) (segs : List (Nat × Bool)) (poison rc cc : Nat) (sticky ck : Bool),
      { r.apply n (.acc a segs poison sticky ck rc cc) with acc := r.acc } = r ∧
      (∀ i : Fin 10, i.val ≠ a.toNat → (r.apply n (.acc a segs poison sticky ck rc cc)).acc[i] = r.acc[i])) ∧
    (∀ (a : BitVec 4) (x : Acc), r.acc[a.toNat]? = some x →
      r.apply n (.accEnd a) = { r with acc := r.acc.setIfInBounds a.toNat { x with ended := x.ended ++ [x.part], part := 0 } } ∧
      r.apply n (.accZero a) = { r with acc := r.acc.setIfInBounds a.toNat { x with base := 0, ended := [], part := 0, sat := 0, poison := 0, sticky := false, ckv := false } }) ∧
    (∀ k : BitVec 6, r.apply n (.cenClose k) = r.closeWindow k) ∧
    (∀ (h : BitVec 4) (d : Nat) (by_ : Int), r.apply n (.org h d by_) = { r with h := r.h.setIfInBounds h.toNat (moveOrg r.h[h.toNat] d by_) }) ∧
    (∀ (x : BitVec 7) (pos : BitVec 4) (fa : BitVec 22) (v : Word), r.apply n (.trap x pos fa v) = r)) ∧
  (∀ (n : Node) (h : BitVec 4) (d : Nat) (by_ : Int) (v : Handle),
    some (moveOrg v d by_) = ({ n with ctl := { n.ctl with flight := [{ dist := 1, eff := .org h d by_ }, { dist := 1, eff := .h h v }] } } : Node).begin.regs.h[h.toNat]?)

/-- Shift bytes (R34, R35): the sixteen valid bytes read back as their shift; a byte with one wrong bit still reads as it and counts as corrected; a byte with
two wrong bits reads as poisoned. -/
def Obligations.ShiftBytesCorrectOneBit : Prop :=
  (List.range 16).map shiftByte = [0x00#8, 0xB1#8, 0xD2#8, 0x63#8, 0xE4#8, 0x55#8, 0x36#8, 0x87#8, 0x78#8, 0xC9#8, 0xAA#8, 0x1B#8, 0x9C#8, 0x2D#8, 0x4E#8, 0xFF#8] ∧
  (∀ m : Fin 16, decodeShift (shiftByte m.val) = { m := m.val, corrected := false, poisoned := false }) ∧
  (∀ (m : Fin 16) (j : Fin 8), decodeShift (shiftByte m.val ^^^ (1#8 <<< j.val)) = { m := m.val, corrected := true, poisoned := false }) ∧
  (∀ (m : Fin 16) (j k : Fin 8), j ≠ k → decodeShift (shiftByte m.val ^^^ (1#8 <<< j.val) ^^^ (1#8 <<< k.val)) = { m := 0, corrected := false, poisoned := true })

/-! ## Scalar and predicate words -/

/-- Every scalar arithmetic word gives sD the result of the table of R155, three bundles later for the multiplies and at the next bundle for the others, the latencies
of the table of R148, and changes nothing else; a result for s0 is discarded. A and B are the signed values of the sources, UA and UB the unsigned ones. The bitwise words,
MOV and the counting words of R155: each bit of a bitwise result, the count of leading zeros (64 for 0), the headroom of R5 and the number of ones; nothing
else changes. -/
def Obligations.ScalarArithmetic : Prop :=
  (∀ (s : State) (q : BitVec 2) (g : BitVec 4) (d a b : BitVec 5),
    let A := (s.cur.s a).toInt
    let B := (s.cur.s b).toInt
    let UA := (s.cur.s a).toNat
    let UB := (s.cur.s b).toNat
    let clamp : Int → Int := fun x => max (-(2 ^ 63)) (min x (2 ^ 63 - 1))
    (Runs (.add q g d a b) s → GivesS (.add q g d a b) s 1 d (BitVec.ofInt 64 (A + B))) ∧
    (Runs (.sub q g d a b) s → GivesS (.sub q g d a b) s 1 d (BitVec.ofInt 64 (A - B))) ∧
    (Runs (.addS q g d a b) s → GivesS (.addS q g d a b) s 1 d (BitVec.ofInt 64 (clamp (A + B)))) ∧
    (Runs (.subS q g d a b) s → GivesS (.subS q g d a b) s 1 d (BitVec.ofInt 64 (clamp (A - B)))) ∧
    (Runs (.mul q g d a b) s → GivesS (.mul q g d a b) s 3 d (BitVec.ofInt 64 (A * B))) ∧
    (Runs (.mulS q g d a b) s → GivesS (.mulS q g d a b) s 3 d (BitVec.ofInt 64 (clamp (A * B)))) ∧
    (Runs (.mulh q g d a b) s → GivesS (.mulh q g d a b) s 3 d (BitVec.ofInt 64 (A * B / 2 ^ 64))) ∧
    (Runs (.mulhw q g d a b) s → GivesS (.mulhw q g d a b) s 3 d (BitVec.ofNat 64 (UA * UB / 2 ^ 64))) ∧
    (Runs (.shl q g d a b) s → GivesS (.shl q g d a b) s 1 d (if 64 ≤ UB then 0 else BitVec.ofNat 64 (UA * 2 ^ UB))) ∧
    (Runs (.shlS q g d a b) s → GivesS (.shlS q g d a b) s 1 d (if A = 0 then 0 else BitVec.ofInt 64 (clamp (A * 2 ^ min UB 64)))) ∧
    (Runs (.shr q g d a b) s → GivesS (.shr q g d a b) s 1 d (BitVec.ofNat 64 (UA / 2 ^ min UB 64))) ∧
    (Runs (.sar q g d a b) s → GivesS (.sar q g d a b) s 1 d (BitVec.ofInt 64 (A / 2 ^ min UB 63))) ∧
    (Runs (.rot q g d a b) s → GivesS (.rot q g d a b) s 1 d (BitVec.ofNat 64 ((UA * 2 ^ (UB % 64) + UA / 2 ^ (64 - UB % 64)) % 2 ^ 64))) ∧
    (Runs (.min q g d a b) s → GivesS (.min q g d a b) s 1 d (BitVec.ofInt 64 (min A B))) ∧
    (Runs (.max q g d a b) s → GivesS (.max q g d a b) s 1 d (BitVec.ofInt 64 (max A B))) ∧
    (Runs (.minw q g d a b) s → GivesS (.minw q g d a b) s 1 d (BitVec.ofNat 64 (min UA UB))) ∧
    (Runs (.maxw q g d a b) s → GivesS (.maxw q g d a b) s 1 d (BitVec.ofNat 64 (max UA UB)))) ∧
  (∀ (s : State) (q : BitVec 2) (g : BitVec 4) (d a b : BitVec 5),
    let x := s.cur.s a
    let y := s.cur.s b
    (Runs (.and q g d a b) s → ∃ v, GivesS (.and q g d a b) s 1 d v ∧ ∀ j < 64, v.getLsbD j = (x.getLsbD j && y.getLsbD j)) ∧
    (Runs (.or q g d a b) s → ∃ v, GivesS (.or q g d a b) s 1 d v ∧ ∀ j < 64, v.getLsbD j = (x.getLsbD j || y.getLsbD j)) ∧
    (Runs (.xor q g d a b) s → ∃ v, GivesS (.xor q g d a b) s 1 d v ∧ ∀ j < 64, v.getLsbD j = (x.getLsbD j != y.getLsbD j)) ∧
    (Runs (.andn q g d a b) s → ∃ v, GivesS (.andn q g d a b) s 1 d v ∧ ∀ j < 64, v.getLsbD j = (x.getLsbD j && !y.getLsbD j)) ∧
    (Runs (.mov q g d a) s → GivesS (.mov q g d a) s 1 d x) ∧
    (Runs (.clz q g d a) s → ∃ k ≤ 64, GivesS (.clz q g d a) s 1 d (BitVec.ofNat 64 (64 - k)) ∧ x.toNat < 2 ^ k ∧ ∀ j < k, 2 ^ j ≤ x.toNat) ∧
    (Runs (.cls q g d a) s → ∃ k ≤ 63, GivesS (.cls q g d a) s 1 d (BitVec.ofNat 64 k) ∧ (∀ j < k, x.getLsbD (62 - j) = x.getLsbD 63) ∧
      (k < 63 → x.getLsbD (62 - k) = !x.getLsbD 63)) ∧
    (Runs (.popc q g d a) s → GivesS (.popc q g d a) s 1 d (BitVec.ofNat 64 ((List.range 64).countP fun j => x.getLsbD j))))

/-- Division truncates toward zero and never traps (R156): the quotient of equal signs is the quotient of the magnitudes, that of unlike signs its negation; a
divisor of 0 and the one quotient out of range have their stated results. -/
def Obligations.ScalarDivision : Prop :=
  ∀ (s : State) (q : BitVec 2) (g : BitVec 4) (d a b : BitVec 5),
    let A := (s.cur.s a).toInt
    let B := (s.cur.s b).toInt
    let UA := (s.cur.s a).toNat
    let UB := (s.cur.s b).toNat
    let quot : Int := if B = 0 then -1 else if A = -(2 ^ 63) ∧ B = -1 then -(2 ^ 63) else A.sign * B.sign * ((A.natAbs / B.natAbs : Nat) : Int)
    (Runs (.div q g d a b) s → GivesS (.div q g d a b) s 18 d (BitVec.ofInt 64 quot)) ∧
    (Runs (.rem q g d a b) s → GivesS (.rem q g d a b) s 18 d
      (BitVec.ofInt 64 (if B = 0 then A else if A = -(2 ^ 63) ∧ B = -1 then 0 else A - B * quot))) ∧
    (Runs (.divw q g d a b) s → GivesS (.divw q g d a b) s 18 d (if UB = 0 then BitVec.ofInt 64 (-1) else BitVec.ofNat 64 (UA / UB))) ∧
    (Runs (.remw q g d a b) s → GivesS (.remw q g d a b) s 18 d (if UB = 0 then s.cur.s a else BitVec.ofNat 64 (UA - UB * (UA / UB)))) ∧
    divS (-7) 2 = BitVec.ofInt 64 (-3) ∧ remS (-7) 2 = BitVec.ofInt 64 (-1)

/-- Bit fields (R157): the position is bits 5:0 of sB and the length bits 14:8, cut at bit 63; BFX extracts with zeros above, BFI replaces that field of sD
and keeps its other bits; the other bits of sB are ignored. -/
def Obligations.BitFields : Prop :=
  ∀ (s : State) (q : BitVec 2) (g : BitVec 4) (d a b : BitVec 5),
    let UB := (s.cur.s b).toNat
    let p := UB % 64
    let l := min (UB / 256 % 128) (64 - p)
    (Runs (.bfx q g d a b) s → GivesS (.bfx q g d a b) s 1 d (BitVec.ofNat 64 ((s.cur.s a).toNat / 2 ^ p % 2 ^ l))) ∧
    (Runs (.bfi q g d a b) s → ∃ v, GivesS (.bfi q g d a b) s 1 d v ∧
      ∀ j < 64, v.getLsbD j = if p ≤ j ∧ j < p + l then (s.cur.s a).getLsbD (j - p) else (s.cur.s d).getLsbD j)

/-- Comparisons, the selection between two scalars by a predicate or its negation, and the AND and OR of predicates (R158, R161): each gives its result at the
next bundle and changes nothing else; a result for p0 is discarded. ADDI, LI and LIH (R161): a signed immediate of 11 or 36 bits is added, one of 16 or 41
bits is loaded, and an unsigned one of 16 or 32 bits replaces the high half of sD. -/
def Obligations.PredicateAndImmediateWords : Prop :=
  (∀ (s : State) (q : BitVec 2) (g : BitVec 4) (p : BitVec 3) (a b d : BitVec 5) (i : BitVec 11) (ext : Option (BitVec 25)),
    let A := (s.cur.s a).toInt
    let B := (s.cur.s b).toInt
    let UA := (s.cur.s a).toNat
    let UB := (s.cur.s b).toNat
    (Runs (.cmpEq q g p a b) s → GivesP (.cmpEq q g p a b) s p (decide (A = B))) ∧
    (Runs (.cmpNe q g p a b) s → GivesP (.cmpNe q g p a b) s p (decide (A ≠ B))) ∧
    (Runs (.cmpLt q g p a b) s → GivesP (.cmpLt q g p a b) s p (decide (A < B))) ∧
    (Runs (.cmpGe q g p a b) s → GivesP (.cmpGe q g p a b) s p (decide (B ≤ A))) ∧
    (Runs (.cmpLtw q g p a b) s → GivesP (.cmpLtw q g p a b) s p (decide (UA < UB))) ∧
    (Runs (.cmpGew q g p a b) s → GivesP (.cmpGew q g p a b) s p (decide (UB ≤ UA))) ∧
    (Runs (.cmpiEq q p a i ext) s → GivesP (.cmpiEq q p a i ext) s p (decide (A = immS 11 i ext))) ∧
    (Runs (.cmpiNe q p a i ext) s → GivesP (.cmpiNe q p a i ext) s p (decide (A ≠ immS 11 i ext))) ∧
    (Runs (.cmpiLt q p a i ext) s → GivesP (.cmpiLt q p a i ext) s p (decide (A < immS 11 i ext))) ∧
    (Runs (.cmpiGe q p a i ext) s → GivesP (.cmpiGe q p a i ext) s p (decide (immS 11 i ext ≤ A))) ∧
    (Runs (.cmpiLtw q p a i ext) s → GivesP (.cmpiLtw q p a i ext) s p (decide (UA < immU 11 i ext))) ∧
    (Runs (.cmpiGew q p a i ext) s → GivesP (.cmpiGew q p a i ext) s p (decide (immU 11 i ext ≤ UA))) ∧
    (Runs (.sel q g d a b) s → GivesS (.sel q g d a b) s 1 d (if (s.cur.p (g.extractLsb' 0 3) != g.getLsbD 3) = true then s.cur.s a else s.cur.s b)) ∧
    (∀ (f n m : BitVec 1) (x y : BitVec 3), Runs (.movp q g f p n x m y) s → GivesP (.movp q g f p n x m y) s p
      (if f = 0 then (s.cur.p x != (n == 1)) && (s.cur.p y != (m == 1)) else (s.cur.p x != (n == 1)) || (s.cur.p y != (m == 1))))) ∧
  (∀ (s : State) (q : BitVec 2) (d a : BitVec 5) (i : BitVec 11) (j : BitVec 16) (e : BitVec 25),
    (Runs (.addi q d a i none) s → GivesS (.addi q d a i none) s 1 d (BitVec.ofInt 64 ((s.cur.s a).toInt + i.toInt))) ∧
    (Runs (.addi q d a i (some e)) s → GivesS (.addi q d a i (some e)) s 1 d (BitVec.ofInt 64 ((s.cur.s a).toInt + (e ++ i).toInt))) ∧
    (Runs (.li q d j none) s → GivesS (.li q d j none) s 1 d (BitVec.ofInt 64 j.toInt)) ∧
    (Runs (.li q d j (some e)) s → GivesS (.li q d j (some e)) s 1 d (BitVec.ofInt 64 (e ++ j).toInt)) ∧
    (Runs (.lih q d j none) s → GivesS (.lih q d j none) s 1 d (BitVec.ofNat 64 ((s.cur.s d).toNat % 2 ^ 32 + j.toNat * 2 ^ 32))) ∧
    (e.toNat < 2 ^ 16 → Runs (.lih q d j (some e)) s → GivesS (.lih q d j (some e)) s 1 d (BitVec.ofNat 64 ((s.cur.s d).toNat % 2 ^ 32 + (e ++ j).toNat * 2 ^ 32))) ∧
    (2 ^ 16 ≤ e.toNat → exec (.lih q d j (some e)) s = .next (s.trapHere 1 0)))

/-! ## Transfers of control and loops -/

/-- A transfer ends its bundle at the address that it names (R134, R162): a relative one at its packet plus 12 k, inside the segment in an overlay image, with
an address outside the range kept for the fetch to refuse (the model's reading, log entry 19), as is that an overlay image counts packets and alignment from its
segment (log entry 17); an absolute or register one at its target, or the target alignment fault when that is no multiple
of 12 or exceeds 22 bits. BR, CALL, RET, BRC and BRF (R163 to R165): the transfer that each makes and when; a taken CALL also gives s30 the address after its
bundle, unless its target faults; a branch not taken changes nothing. A BRF that reads DONE = 1 is an acquire (R166, R292): nothing that has been read ahead stands (log entry
91). The engine flags (R165): DONE is 1 exactly when no command of that engine is
outstanding, armed ones included, and FAULT(e), once set, is not cleared by setting another. At launch every DONE is 1 and every FAULT is 0. -/
def Obligations.TransfersAndBranches : Prop :=
  (∀ (s : State) (k : Int) (t : Nat),
    let P : Nat := s.bnd.addr.toNat - (if s.cur.desc.image.ovl then s.bnd.addr.toNat % 65536 else s.bnd.addr.toNat) % 12
    (s.cur.desc.image.ovl = false → 0 ≤ (P : Int) + 12 * k → (P : Int) + 12 * k < 2 ^ 22 →
      s.jumpRel k = s.addPost (.jump (BitVec.ofInt 22 (P + 12 * k)) false)) ∧
    (s.cur.desc.image.ovl = true → 0 ≤ ((P % 65536 : Nat) : Int) + 12 * k → ((P % 65536 : Nat) : Int) + 12 * k < 65536 →
      s.jumpRel k = s.addPost (.jump (BitVec.ofInt 22 (P + 12 * k)) false)) ∧
    (s.cur.desc.image.ovl = false → (P : Int) + 12 * k < 0 ∨ 2 ^ 22 ≤ (P : Int) + 12 * k → ∃ x, s.jumpRel k = s.addPost (.jump x true)) ∧
    (s.cur.desc.image.ovl = true → ((P % 65536 : Nat) : Int) + 12 * k < 0 ∨ 65536 ≤ ((P % 65536 : Nat) : Int) + 12 * k →
      ∃ x, s.jumpRel k = s.addPost (.jump x true)) ∧
    (t < 2 ^ 22 → (if s.cur.desc.image.ovl then t % 65536 else t) % 12 = 0 → s.jumpTo t = s.addPost (.jump (BitVec.ofNat 22 t) false)) ∧
    (2 ^ 22 ≤ t ∨ (if s.cur.desc.image.ovl then t % 65536 else t) % 12 ≠ 0 → s.jumpTo t = s.trapHere 0x0C (BitVec.ofNat 64 t)) ∧
    (∀ (n : Node) (fa x : BitVec 22) (out : Bool), (n.post fa (.jump x out)).ctl.pc = x ∧ (n.post fa (.jump x out)).ctl.pcOut = out ∧
      (n.post fa (.jump x out)).regs = n.regs ∧ (n.post fa (.jump x out)).ctl.loops = n.ctl.loops ∧ (n.post fa (.jump x out)).ctl.flight = n.ctl.flight)) ∧
  (∀ (s : State) (q : BitVec 2) (g : BitVec 4) (i : BitVec 16) (ext : Option (BitVec 25)) (a : BitVec 5) (x : BitVec 3) (k : BitVec 9) (kf : BitVec 12)
      (f n : BitVec 1) (e : BitVec 2), s.bnd.stop = .none →
    let A := (s.cur.s a).toInt
    let flag := if f = 0 then s.cur.done e else s.cur.ctl.flt.getLsbD e.toNat
    let read := if f = 0 ∧ s.cur.done e = true then s.acquire else s
    (Runs (.brRel q g i ext) s → exec (.brRel q g i ext) s = .next (s.jumpRel (immS 16 i ext))) ∧
    (Runs (.brAbs q g i ext) s → exec (.brAbs q g i ext) s = .next (s.jumpTo (immU 16 i ext))) ∧
    (Runs (.callRel q g i ext) s → exec (.callRel q g i ext) s = .next ((s.jumpRel (immS 16 i ext)).pushS 1 30 (s.bnd.na.setWidth 64))) ∧
    (Runs (.callAbs q g i ext) s → immU 16 i ext < 2 ^ 22 → (if s.cur.desc.image.ovl then immU 16 i ext % 65536 else immU 16 i ext) % 12 = 0 →
      exec (.callAbs q g i ext) s = .next ((s.addPost (.jump (BitVec.ofNat 22 (immU 16 i ext)) false)).pushS 1 30 (s.bnd.na.setWidth 64))) ∧
    (Runs (.callAbs q g i ext) s → (s.jumpTo (immU 16 i ext)).bnd.stop = .taken → exec (.callAbs q g i ext) s = .next (s.jumpTo (immU 16 i ext))) ∧
    (Runs (.ret q g a) s → exec (.ret q g a) s = .next (s.jumpTo (s.cur.s a).toNat)) ∧
    (Runs (.brc q g x a k ext) s →
      let taken : Prop := (x = 0 ∧ A = 0) ∨ (x = 1 ∧ A ≠ 0) ∨ (x = 2 ∧ A < 0) ∨ (x = 3 ∧ 0 ≤ A) ∨ (x = 4 ∧ 0 < A) ∨ (x = 5 ∧ A ≤ 0)
      (taken → exec (.brc q g x a k ext) s = .next (s.jumpRel (immS 9 k ext))) ∧ (¬ taken → exec (.brc q g x a k ext) s = .next s)) ∧
    (6 ≤ x.toNat → exec (.brc q g x a k ext) s = .next (s.trapHere 1 0)) ∧
    (Runs (.brf q g f e n kf ext) s →
      ((flag != (n == 1)) = true → exec (.brf q g f e n kf ext) s = .next (read.jumpRel (immS 12 kf ext))) ∧
      ((flag != (n == 1)) = false → exec (.brf q g f e n kf ext) s = .next read))) ∧
  (∀ n : Node,
    (n.done 0 = true ↔ n.eng.ca = [] ∧ n.eng.caArmed = []) ∧ (n.done 1 = true ↔ n.eng.cb = [] ∧ n.eng.cbArmed = []) ∧
    (n.done 2 = true ↔ n.eng.epi = []) ∧ (n.done 3 = true ↔ n.eng.sends = [] ∧ n.eng.armed = [] ∧ n.eng.colls = [] ∧ n.eng.aborts = []) ∧
    (∀ e f : BitVec 2, ((n.setFault e).ctl.flt.getLsbD f.toNat) = (decide (f = e) || n.ctl.flt.getLsbD f.toNat)) ∧
    (∀ d : Desc, (launchCtl d).flt = 0) ∧ ∀ e : BitVec 2, ({ n with eng := {} } : Node).done e = true)

/-- LOOP open (R171): an active level or a trip count above 2^31 - 1 takes the loop fault, a count that is not positive skips the loop by j packets, and any
other opens the level at index 0 with its stride entries latched. -/
def Obligations.LoopOpens : Prop :=
  ∀ (s : State) (q : BitVec 2) (n : Fin 6) (a : BitVec 5) (j : BitVec 8) (ext : Option (BitVec 25)),
    let i : Instr := .loopOpen q (BitVec.ofNat 3 n.val) a j ext
    let t := (s.cur.s a).toInt
    let active := (s.cur.ctl.loops[n.val]).act
    Runs i s →
      (active = true → exec i s = .next (s.trapHere 9 0)) ∧
      (active = false → t ≤ 0 → exec i s = .next (s.jumpRel (immU 8 j ext))) ∧
      (active = false → 2 ^ 31 - 1 < t → exec i s = .next (s.trapHere 9 0)) ∧
      (active = false → 0 < t → t ≤ 2 ^ 31 - 1 → exec i s = .next (s.addPost
        (.loop n.val { act := true, t := t.toNat, i := 0, lat0 := s.cur.ctl.ls[2 * n.val], lat1 := s.cur.ctl.ls[2 * n.val + 1] })))

/-- LOOP close and LOOPR (R172): on an inactive level, or below an active one, the loop fault; else BASE rotates (LOOPR), and the level goes to its next
iteration with every latched valid entry's origin moved by its stride, or is left with the origins moved back by T - 1 strides. A stride moves one origin of a
handle modulo 2^18 and no other field (R172), and only valid latched entries with a dimension below 5 move one (R168): each entry's update, by the multiple of its stride,
falls due at the next bundle and moves that handle alone. LBRK (R173): an inactive level takes
the loop fault; else every active level from the highest down to n is left with its origins moved back by I strides, no rotation happens, and control goes to
the target. -/
def Obligations.LoopCloses : Prop :=
  (∀ (s : State) (q : BitVec 2) (n : Fin 6) (k : BitVec 11) (r : BitVec 2) (ext : Option (BitVec 25)),
    let l := s.cur.ctl.loops[n.val]
    let bad : Prop := l.act = false ∨ ∃ m : Fin 6, n < m ∧ (s.cur.ctl.loops[m.val]).act = true
    let goes := fun (s : State) => ((s.moveOrigins l 1).addPost (.loop n.val { l with i := l.i + 1 })).jumpRel (immS 11 k ext)
    let leaves := fun (s : State) => (s.moveOrigins l (-((l.t : Int) - 1))).addPost (.loop n.val {})
    let close : Instr := .loopClose q (BitVec.ofNat 3 n.val) k ext
    let turn : Instr := .loopr q (BitVec.ofNat 3 n.val) r k ext
    let turned := s.addPost (.rotate (2 ^ (r.toNat + 1)))
    (Runs close s → (bad → exec close s = .next (s.trapHere 9 0)) ∧ (¬ bad → l.i + 1 < l.t → exec close s = .next (goes s)) ∧
      (¬ bad → l.t ≤ l.i + 1 → exec close s = .next (leaves s))) ∧
    (Runs turn s → (bad → exec turn s = .next (s.trapHere 9 0)) ∧ (¬ bad → l.i + 1 < l.t → exec turn s = .next (goes turned)) ∧
      (¬ bad → l.t ≤ l.i + 1 → exec turn s = .next (leaves turned))) ∧
    (∀ (nd : Node) (fa : BitVec 22) (by_ : Nat), (nd.post fa (.rotate by_)).ctl.rtb = nd.ctl.rtb - BitVec.ofNat 5 by_) ∧
    (∀ (nd : Node) (fa : BitVec 22) (x : Loop), (nd.post fa (.loop n.val x)).ctl.loops[n.val] = x)) ∧
  ((∀ (h : Handle) (d : Fin 5) (delta : Int),
    ((moveOrg h d.val delta).toNat / 2 ^ (154 + 18 * d.val) % 2 ^ 18 : Int) = ((h.toNat / 2 ^ (154 + 18 * d.val) % 2 ^ 18 : Nat) + delta) % 2 ^ 18 ∧
    ∀ j < 256, j < 154 + 18 * d.val ∨ 172 + 18 * d.val ≤ j → (moveOrg h d.val delta).getLsbD j = h.getLsbD j) ∧
  (∀ (l : Loop) (e : BitVec 4 × Nat × Int), e ∈ l.entries ↔
    ∃ w ∈ [l.lat0, l.lat1], ∃ lo ∈ [0, 32], w.getLsbD (lo + 31) = true ∧ w.toNat / 2 ^ (lo + 24) % 8 < 5 ∧
      e = (w.extractLsb' (lo + 27) 4, w.toNat / 2 ^ (lo + 24) % 8, (w.extractLsb' lo 18).toInt)) ∧
  (∀ (s : State) (l : Loop) (times : Int), s.moveOrigins l times = s.withResults (l.entries.map fun e => { dist := 1, eff := .org e.1 e.2.1 (times * e.2.2) })) ∧
  (∀ (r : Regs) (n : Nat) (h : Fin 16) (d : Nat) (by_ : Int), let t := r.apply n (.org (BitVec.ofNat 4 h.val) d by_)
    t.h[h] = moveOrg r.h[h] d by_ ∧ (∀ i : Fin 16, i ≠ h → t.h[i] = r.h[i]) ∧ { t with h := r.h } = r)) ∧
  (∀ (s : State) (q : BitVec 2) (g : BitVec 4) (n : Fin 6) (k : BitVec 14) (ext : Option (BitVec 25)),
    let i : Instr := .lbrk q g (BitVec.ofNat 3 n.val) k ext
    let leave := fun (s : State) (m : Nat) =>
      let l := s.cur.ctl.loops[m]?.getD {}
      if n.val ≤ m ∧ l.act = true then (s.moveOrigins l (-(l.i : Int))).addPost (.loop m {}) else s
    Runs i s →
      ((s.cur.ctl.loops[n.val]).act = false → exec i s = .next (s.trapHere 9 0)) ∧
      ((s.cur.ctl.loops[n.val]).act = true → exec i s = .next (([5, 4, 3, 2, 1, 0].foldl leave s).jumpRel (immS 14 k ext))))

/-- SEGX, END, N and the E word (R133, R137, R175, R177, R179): SEGX of a segment that the image has and that is neither resident nor being copied starts its copy
into the other half; END ends the node's stream at the end of its bundle, with its loops (R175), its results in flight and its delayed causes gone, the last of which is the
model's reading (log entry 15); N and E change nothing. -/
def Obligations.SegmentsEndAndEmptyWords : Prop :=
  ∀ (s : State) (q : BitVec 2) (g : BitVec 4) (n : BitVec 6) (x : BitVec 25),
    (Runs (.segx q g n) s → s.cur.desc.image.ovl = false ∨ s.cur.desc.image.segs.length ≤ n.toNat → exec (.segx q g n) s = .next s) ∧
    (∀ r, Runs (.segx q g n) s → s.cur.desc.image.ovl = true → n.toNat < s.cur.desc.image.segs.length → s.resident s.cur.desc.image.imgid = some r →
      (r.half0 = some n.toNat ∨ r.half1 = some n.toNat ∨ (∃ b, r.copying = some (n.toNat, b)) → exec (.segx q g n) s = .next s) ∧
      (¬ (r.half0 = some n.toNat ∨ r.half1 = some n.toNat ∨ ∃ b, r.copying = some (n.toNat, b)) →
        (r.half0 = some (s.bnd.addr.toNat / 65536) →
          exec (.segx q g n) s = .next (s.setResident { r with half1 := none, copying := some (n.toNat, true) })) ∧
        (r.half0 ≠ some (s.bnd.addr.toNat / 65536) →
          exec (.segx q g n) s = .next (s.setResident { r with half0 := none, copying := some (n.toNat, false) })))) ∧
    (Runs .endNode s → exec .endNode s = .next (s.addPost .ended)) ∧
    (∀ (nd : Node) (fa : BitVec 22), (nd.post fa .ended).run.st = .retiring ∧ (nd.post fa .ended).ctl.flight = [] ∧ (nd.post fa .ended).ctl.waits = [] ∧
      (nd.post fa .ended).ctl.loops = Vector.replicate 6 {} ∧ (nd.post fa .ended).regs = nd.regs ∧ (nd.post fa .ended).eng = nd.eng) ∧
    (Runs (.nop q x) s → exec (.nop q x) s = .next s) ∧
    (Runs (.extensionWord x) s → exec (.extensionWord x) s = .next s)

/-! ## Scalar memory words, atomics and handles -/

/-- The loads of R268 to R270, LDH and HLD: address, width, extension and destination of each; the result falls due at bundle b + 6, and no byte of memory
changes. HLD also takes its precise alignment and access traps (R209). What a read delivers (R287, R288; the model's choice, log entry 91): the bytes that the node has
read ahead for this very access, or else what its memory holds, and then nothing that it has read ahead of these bytes stands; LD.acq ends all that has been read ahead. -/
def Obligations.Loads : Prop :=
  ∀ (s : State) (q : BitVec 2) (g : BitVec 4) (d a : BitVec 5) (f : BitVec 6) (fh : BitVec 7) (fs : BitVec 8) (h : BitVec 4) (z : BitVec 2) (sc : BitVec 4)
      (ext : Option (BitVec 25)),
    let ea := fun (k : Int) => BitVec.ofInt 64 ((s.cur.s a).toInt + immS 6 f ext * k)
    let toS := fun len signed => fun (s : State) (v : Nat) => scalarResult s 6 d (loadedWord len signed v)
    let toH := fun (_ : State) (v : Nat) => [({ dist := 6, eff := .h h (BitVec.ofNat 256 v) } : InFlight)]
    (Runs (.ldB q g d a f ext) s → LoadsFrom (.ldB q g d a f ext) s (ea 1) 1 (toS 1 true)) ∧
    (Runs (.ldH q g d a f ext) s → LoadsFrom (.ldH q g d a f ext) s (ea 2) 2 (toS 2 true)) ∧
    (Runs (.ldW q g d a f ext) s → LoadsFrom (.ldW q g d a f ext) s (ea 4) 4 (toS 4 true)) ∧
    (Runs (.ldD q g d a f ext) s → LoadsFrom (.ldD q g d a f ext) s (ea 8) 8 (toS 8 false)) ∧
    (Runs (.ldW8 q g d a f ext) s → LoadsFrom (.ldW8 q g d a f ext) s (ea 1) 1 (toS 1 false)) ∧
    (Runs (.ldW16 q g d a f ext) s → LoadsFrom (.ldW16 q g d a f ext) s (ea 2) 2 (toS 2 false)) ∧
    (Runs (.ldW32 q g d a f ext) s → LoadsFrom (.ldW32 q g d a f ext) s (ea 4) 4 (toS 4 false)) ∧
    (Runs (.ldAcq q g d a z sc) s → LoadsIn (.ldAcq q g d a z sc) s s.acquire (s.cur.s a) (2 ^ z.toNat) (toS (2 ^ z.toNat) true)) ∧
    (Runs (.ldh q g h a fh ext) s → LoadsFrom (.ldh q g h a fh ext) s (BitVec.ofInt 64 ((s.cur.s a).toInt + 32 * (immU 7 fh ext : Int))) 32 toH) ∧
    (Runs (.hld q g h fs a) s →
      let e := BitVec.ofInt 64 ((s.cur.s a).toInt + 32 * (fs.toNat : Int))
      (e.toNat % 32 ≠ 0 → exec (.hld q g h fs a) s = .next (s.trapHere 0x10 e)) ∧
      (e.toNat % 32 = 0 → s.cur.scratch (addrTid e) = none → exec (.hld q g h fs a) s = .next (s.trapHere 0x11 e)) ∧
      ∀ base size, e.toNat % 32 = 0 → s.cur.scratch (addrTid e) = some (base, size) →
        (size < addrOff e + 32 → exec (.hld q g h fs a) s = .next (s.trapHere 0x11 (tensorAddr (addrTid e) (max size (addrOff e))))) ∧
        (addrOff e + 32 ≤ size → LoadsFrom (.hld q g h fs a) s e 32 toH)) ∧
    (∀ g, (s.touched g).mem = s.mem ∧ (s.touched g).poison = s.poison ∧ (s.touched g).cur.regs = s.cur.regs ∧ (s.touched g).nodes = s.nodes) ∧
    (∀ (tid off : Nat) (l : List (Byte × Bool)),
      let mine := fun (e : EarlyRead) => e.tid = tid ∧ e.off = off ∧ e.bytes.length = l.length
      let kept := fun (f : List EarlyRead) => ({ s with cur := { s.cur with run := { s.cur.run with ahead := f } } } : State)
      s.acquire = kept [] ∧ (s.cur.run.ahead = [] → s.delivered tid off l = (l, s)) ∧
      ((∀ e ∈ s.cur.run.ahead, ¬ mine e) → s.delivered tid off l =
        (l, kept (s.cur.run.ahead.filter fun e => disjointPlaces e.places (s.placesOf s.cur tid off l.length)))) ∧
      ∀ before e after, s.cur.run.ahead = before ++ e :: after → mine e → (∀ x ∈ before, ¬ mine x) → s.delivered tid off l = (e.bytes, s))

/-- The stores of R268 to R270, STH and HST (R209): address, width and bytes of each, with its traps. A store through a TID that the node declares only IN takes the
handle fault (R65), HST apart, which names the scratchpad: the model's reading (log entry 10). Where each byte goes is said by WritesReachTheirPlaces. -/
def Obligations.Stores : Prop :=
  ∀ (s : State) (q : BitVec 2) (g : BitVec 4) (v a : BitVec 5) (f : BitVec 6) (fh : BitVec 7) (fs : BitVec 8) (h : BitVec 4) (z : BitVec 2) (sc : BitVec 4)
      (ext : Option (BitVec 25)),
    let ea := fun (k : Int) => BitVec.ofInt 64 ((s.cur.s a).toInt + immS 6 f ext * k)
    let V := (s.cur.s v).toNat
    let H := (s.cur.regs.h[h.toNat]).toNat
    let stores := fun (i : Instr) (e : Word) (len v : Nat) => StoreTraps i s e len ∧ StoresTo i s e len v (e.toNat % len = 0) (writeMode s.cur (addrTid e) = true)
    (Runs (.stB q g v a f ext) s → stores (.stB q g v a f ext) (ea 1) 1 V) ∧
    (Runs (.stH q g v a f ext) s → stores (.stH q g v a f ext) (ea 2) 2 V) ∧
    (Runs (.stW q g v a f ext) s → stores (.stW q g v a f ext) (ea 4) 4 V) ∧
    (Runs (.stD q g v a f ext) s → stores (.stD q g v a f ext) (ea 8) 8 V) ∧
    (Runs (.stRel q g v a z sc) s → stores (.stRel q g v a z sc) (s.cur.s a) (2 ^ z.toNat) V) ∧
    (Runs (.sth q g h a fh ext) s → stores (.sth q g h a fh ext) (BitVec.ofInt 64 ((s.cur.s a).toInt + 32 * (immU 7 fh ext : Int))) 32 H) ∧
    (Runs (.hst q g h fs a) s →
      let e := BitVec.ofInt 64 ((s.cur.s a).toInt + 32 * (fs.toNat : Int))
      (e.toNat % 32 ≠ 0 → exec (.hst q g h fs a) s = .next (s.trapHere 0x10 e)) ∧
      (e.toNat % 32 = 0 → s.cur.scratch (addrTid e) = none → exec (.hst q g h fs a) s = .next (s.trapHere 0x11 e)) ∧
      ∀ base size, e.toNat % 32 = 0 → s.cur.scratch (addrTid e) = some (base, size) →
        (size < addrOff e + 32 → exec (.hst q g h fs a) s = .next (s.trapHere 0x11 (tensorAddr (addrTid e) (max size (addrOff e))))) ∧
        (addrOff e + 32 ≤ size → StoresTo (.hst q g h fs a) s e 32 H True True))

/-- Where a byte of the current node goes (R68, R247, R248, R263): into its scratchpad, nowhere when it lies in a guard granule, into its staged lines, or,
for an unstaged node, straight to memory, unless the node's generation is stale, when a byte beyond the scratchpad goes nowhere (log entry 62); no other byte of memory,
scratchpad or staging changes. The same of a store of several bytes (R68, R269): every byte of the scratchpad, of the staged lines and of memory holds the last byte
written there, and where none was, what it held before. No place of an unstaged node lies in the generation field of the node's own space descriptor, which a node's
translation never gives (R257). Where the bytes of a plan go (R29, R68): after the planned writes of the
current node every byte of memory outside their places reads as before, and for a staged node every byte of memory does. A store that has issued and is still to be
performed is performed as any other, at the latest before the next bundle of its node that may have to stand behind it, and not before an earlier one of its node
that writes one of its bytes (R287, R288; the model's choice, log entry 91). -/
def Obligations.WritesReachTheirPlaces : Prop :=
  (∀ (s : State) (x : Nat) (v : Byte) (p g : Bool),
    let u := s.cur.desc.uid
    s.writePlace u (.pool x true) v p = s ∧
    (Memory.wf s.cur.run.scr.cells = true →
      let t := s.writePlace u (.pool x false) v p
      t.mem = s.mem ∧ t.poison = s.poison ∧ memGet t.cur.run.scr.cells x = v ∧ (∀ y, y ≠ x → memGet t.cur.run.scr.cells y = memGet s.cur.run.scr.cells y) ∧
      t.cur.run.staged = s.cur.run.staged) ∧
    (s.cur.desc.image.unstg = false → s.stale s.cur = false →
      let t := s.writePlace u (.phys x g) v p
      t.mem = s.mem ∧ t.poison = s.poison ∧ cellGet? t.cur.run.staged.cells x = some v ∧
      (∀ y, y ≠ x → cellGet? t.cur.run.staged.cells y = cellGet? s.cur.run.staged.cells y) ∧ t.cur.run.scr = s.cur.run.scr) ∧
    (s.cur.desc.image.unstg = true → s.stale s.cur = false → s.writePlace u (.phys x g) v p = s.setByte x v p) ∧
    (s.stale s.cur = true →
      (s.writePlace u (.phys x g) v p).mem = s.mem ∧ (s.writePlace u (.phys x g) v p).poison = s.poison ∧ (s.writePlace u (.phys x g) v p).cur = s.cur)) ∧
  (∀ (s : State) (l : List (Place × Byte × Bool)), Canonical s → Memory.wf s.cur.run.scr.cells = true → s.stale s.cur = false →
    (s.cur.desc.image.unstg = true → ∀ e ∈ l, ∀ x g, e.1 = .phys x g → x < spacePA s.cur.desc.queue ∨ spacePA s.cur.desc.queue + 2 ≤ x) →
    let t := s.writePlaces s.cur.desc.uid l
    let staged := fun (u : State) (a : Nat) => cellGet? u.cur.run.staged.cells a
    let last := fun (pl : Place → Bool) => ((l.filter fun e => pl e.1).getLast?).map (·.2.1)
    let inPool := fun (x : Nat) (pl : Place) => decide (pl = .pool x false)
    let beyond := fun (a : Nat) (pl : Place) => decide (pl = .phys a true ∨ pl = .phys a false)
    (∀ x, memGet t.cur.run.scr.cells x = (last (inPool x)).getD (memGet s.cur.run.scr.cells x)) ∧
    (s.cur.desc.image.unstg = true → (∀ a, t.byte a = (last (beyond a)).getD (s.byte a)) ∧ t.cur.run.staged = s.cur.run.staged) ∧
    (s.cur.desc.image.unstg = false → (∀ a, staged t a = (last (beyond a)).orElse fun _ => staged s a) ∧ t.mem = s.mem ∧ t.poison = s.poison)) ∧
  (∀ (s : State) (l : List (Place × Byte × Bool)), Memory.wf s.cur.run.scr.cells = true → s.stale s.cur = true →
    let t := s.writePlaces s.cur.desc.uid l
    t.mem = s.mem ∧ t.poison = s.poison ∧ t.cur.run.staged = s.cur.run.staged ∧
    ∀ x, memGet t.cur.run.scr.cells x = (((l.filter fun e => e.1 == .pool x false).getLast?).map (·.2.1)).getD (memGet s.cur.run.scr.cells x)) ∧
  (∀ (s : State) (l : List ByteWrite) (unit : BitVec 3) (a : Option (BitVec 22)), Canonical s →
    let t := s.doWrites s.cur.desc.uid unit a l
    Canonical t ∧ SameMemoryBut s t (fun x => ∃ w ∈ l, ∃ g, w.place = .phys x g) ∧ (s.cur.desc.image.unstg = false → t.mem = s.mem) ∧
    t.cur.regs = s.cur.regs ∧ t.cur.ctl.flight = s.cur.ctl.flight) ∧
  (∀ (s : State) (before after : List LateStore) (e : LateStore),
    let places := fun (d : LateStore) => d.bytes.map fun b => b.1
    let waits := ∃ d ∈ before, d.uid = e.uid ∧ disjointPlaces (places d) (places e) = false
    s.performStore e = ({ s with late := s.late.erase e } : State).writePlaces e.uid e.bytes ∧
    (∀ uid, (s.drain uid).late = s.late.filter fun d => d.uid != uid) ∧
    (s.late = before ++ e :: after → (¬ waits → s.performAt before.length = s.performStore e) ∧ (waits → s.performAt before.length = s)))

/-- The atomics of R271: the old value goes to sD, sign-extended (zero-extended for INCW), the new value to the location at once and past the node's staging,
and an atomic beyond the scratchpad makes the run irreversible (R272). A tensor that the node declares only IN takes the handle fault (R65; log entry 10); what bars an
atomic, the order of its faults and the stale tag, and where poison and padding come in are the model's reading (log entries 37 and 67), and it reads and writes past
what a splice partner has staged by the model's choice (log entry 99). With ACQ nothing that has been read ahead stands, and else nothing of the location (log entry
91). The new value that each atomic writes, on bit patterns of either width (R271). -/
def Obligations.Atomics : Prop :=
  (∀ (s : State) (q : BitVec 2) (g : BitVec 4) (d a b : BitVec 5) (w : BitVec 1) (ext : Option (BitVec 25)),
    let len := if w = 1 then 8 else 4
    let ea := s.cur.s a
    let read := fun (ps : List Place) => ps.zipIdx.map fun x => s.amoByte (addrTid ea) (addrOff ea + x.2) x.1
    let forms : List (Instr × Nat) := [(.amoAdd q g d a b w ext, 0), (.amoAdds q g d a b w ext, 1), (.amoMin q g d a b w ext, 2), (.amoMax q g d a b w ext, 3),
      (.amoAnd q g d a b w ext, 4), (.amoOr q g d a b w ext, 5), (.amoXor q g d a b w ext, 6), (.amoSwap q g d a b w ext, 7), (.amoCas q g d a b w ext, 8),
      (.amoIncw q g d a b w ext, 9)]
    ∀ e ∈ forms, Runs e.1 s →
      StoreTraps e.1 s ea len ∧
      (ea.toNat % len = 0 → writeMode s.cur (addrTid ea) = true → ∀ x, s.places s.cur (addrTid ea) (addrOff ea) len = .error x →
        exec e.1 s = .next (s.wordFault x ea)) ∧
      (ea.toNat % len = 0 → writeMode s.cur (addrTid ea) = true → ∀ ps, s.places s.cur (addrTid ea) (addrOff ea) len = .ok ps →
        (ps.any (s.cur.amoBarred e.2) = true → exec e.1 s = .next (s.withResults [{ dist := 6, eff := .trap 0x11 s.bnd.pos s.bnd.fa ea }])) ∧
        (ps.any (s.cur.amoBarred e.2) = false → ps.any Place.beyondPool = true → s.stale s.cur = true → exec e.1 s = .next (s.wordFault .generation ea)) ∧
        (ps.any (s.cur.amoBarred e.2) = false → (ps.any Place.beyondPool = true → s.stale s.cur = false) → (read ps).any (·.2) = true →
          exec e.1 s = .next s.consume) ∧
        (ps.any (s.cur.amoBarred e.2) = false → (ps.any Place.beyondPool = true → s.stale s.cur = false) → (read ps).any (·.2) = false →
          let old := leNat ((read ps).map (·.1))
          let written := match amoNew e.2 (8 * len) old ((s.cur.s b).toNat % 2 ^ (8 * len)) ((s.cur.s d).toNat % 2 ^ (8 * len)) with
            | some v => s.amoWrite (ps.zip (leBytes v len))
            | none => s
          let kept := if (ext.any fun e => e.getLsbD 0) = true then written.acquire else written.forget ps
          let noted := if ps.any Place.beyondPool then kept.mapRun fun r => { r with irrev := true } else kept
          exec e.1 s = .next ((noted.touch s.cur.desc.uid 0 (some s.bnd.addr) (firstGuard ps)).withResults
            (scalarResult s 6 d (loadedWord len (e.2 != 9) old)))))) ∧
  (∀ w ∈ [32, 64], ∀ x b d : BitVec w,
    let clamp : Int → Int := fun v => max (-(2 ^ (w - 1))) (min v (2 ^ (w - 1) - 1))
    amoNew 0 w x.toNat b.toNat d.toNat = some (x + b).toNat ∧
    amoNew 1 w x.toNat b.toNat d.toNat = some (BitVec.ofInt w (clamp (x.toInt + b.toInt))).toNat ∧
    amoNew 2 w x.toNat b.toNat d.toNat = some (if x.sle b then x.toNat else b.toNat) ∧
    amoNew 3 w x.toNat b.toNat d.toNat = some (if x.sle b then b.toNat else x.toNat) ∧
    amoNew 4 w x.toNat b.toNat d.toNat = some (x &&& b).toNat ∧
    amoNew 5 w x.toNat b.toNat d.toNat = some (x ||| b).toNat ∧
    amoNew 6 w x.toNat b.toNat d.toNat = some (x ^^^ b).toNat ∧
    amoNew 7 w x.toNat b.toNat d.toNat = some b.toNat ∧
    amoNew 8 w x.toNat b.toNat d.toNat = (if x = d then some b.toNat else none) ∧
    amoNew 9 w x.toNat b.toNat d.toNat = some (if b.toNat ≤ x.toNat then 0 else x.toNat + 1))

/-- HSET replaces one quarter of a handle; HORG and HSTEP set and move one origin modulo 2^18 (R207, R208): the named field takes its value, every other bit
of the handle stays, and nothing else changes. -/
def Obligations.HandleWords : Prop :=
  ∀ (s : State) (q : BitVec 2) (g : BitVec 4) (h : BitVec 4) (x : BitVec 2) (d : BitVec 3) (a : BitVec 5) (i : BitVec 9) (ext : Option (BitVec 25)),
    let old := s.cur.regs.h[h.toNat]
    let lo := 154 + 18 * d.toNat
    let gives := fun (w : Instr) (v : Handle) => exec w s = .next (s.withResults [{ dist := 1, eff := .h h v }])
    let setsOrigin := fun (w : Instr) (n : Int) => ∃ v, gives w v ∧ ((v.toNat / 2 ^ lo % 2 ^ 18 : Nat) : Int) = n % 2 ^ 18 ∧
      ∀ j < 256, j < lo ∨ lo + 18 ≤ j → v.getLsbD j = old.getLsbD j
    let O : Int := (old.toNat / 2 ^ lo % 2 ^ 18 : Nat)
    (Runs (.hset q g h x a) s → ∃ v, gives (.hset q g h x a) v ∧
      ∀ j < 256, v.getLsbD j = if j / 64 = x.toNat then (s.cur.s a).getLsbD (j % 64) else old.getLsbD j) ∧
    (Runs (.horg q g h d a) s → setsOrigin (.horg q g h d a) (s.cur.s a).toInt) ∧
    (Runs (.horgImm q g h d i ext) s → setsOrigin (.horgImm q g h d i ext) (immU 9 i ext)) ∧
    (Runs (.hstep q g h d a) s → setsOrigin (.hstep q g h d a) (O + (s.cur.s a).toInt)) ∧
    (Runs (.hstepImm q g h d i ext) s → setsOrigin (.hstepImm q g h d i ext) (O + immS 9 i ext))

/-- KSET, KGET, CEN.GET, CEN.CLOSE and SHIFT (R210 to R213): while a close or an update of the register through a handle is outstanding, the words that name
it wait (R214); else KSET writes the fields that its mask selects, with census values above 32 stored as 32, KGET reads the register or its exponent, CEN.GET
the closed or the current census, SHIFT the narrowing shift for a width. CEN.CLOSE is issued at the end of its bundle, and closes its window one bundle later; while a
census write of that window is outstanding, or an earlier close, it waits for it and closes the window when that has ended (R42, R148). Which commands hold those words
and a close, armed and undelivered ones among them, and when a close counts as issued, is the model's reading (log entry 60). -/
def Obligations.ScaleRegisterWords : Prop :=
  ∀ (s : State) (q : BitVec 2) (g : BitVec 4) (k : BitVec 6) (m : BitVec 5) (a d : BitVec 5) (f : BitVec 1) (w : BitVec 6),
    let r := s.cur.regs.k[k.toNat]
    (s.cur.scaleBusy k = true →
      (Runs (.kset q g k m a) s → exec (.kset q g k m a) s = .next s.delay) ∧ (Runs (.kget q g d k f) s → exec (.kget q g d k f) s = .next s.delay) ∧
      (Runs (.cenGet q g d k f) s → exec (.cenGet q g d k f) s = .next s.delay) ∧ (Runs (.shift q g d k w) s → exec (.shift q g d k w) s = .next s.delay)) ∧
    (s.cur.scaleBusy k = false →
      (Runs (.kset q g k m a) s → exec (.kset q g k m a) s = .next (s.withResults [{ dist := 1, eff := .k k (ksetMask m) (ksetValue (s.cur.s a)) }])) ∧
      (Runs (.kget q g d k f) s → GivesS (.kget q g d k f) s 1 d (if f = 0 then BitVec.ofNat 64 r.toNat else BitVec.ofInt 64 (r.extractLsb' 0 8).toInt)) ∧
      (Runs (.cenGet q g d k f) s → GivesS (.cenGet q g d k f) s 1 d
        (BitVec.ofNat 64 (if f = 0 then (if r.getLsbD 20 then 64 else 0) + (r.extractLsb' 14 6).toNat else (r.extractLsb' 8 6).toNat))) ∧
      (Runs (.shift q g d k w) s → GivesS (.shift q g d k w) s 1 d (BitVec.ofNat 64 (32 - (r.extractLsb' 14 6).toNat - w.toNat)))) ∧
    (Runs (.cenClose q g k) s → exec (.cenClose q g k) s = .next (s.addPost (.close k))) ∧
    (∀ (n : Node) (fa : BitVec 22),
      let copies := n.eng.ca ++ n.eng.caArmed ++ n.eng.cb ++ n.eng.cbArmed
      let closing := ∃ x ∈ n.ctl.flight, x.eff = .cenClose k
      let adds := fun (p : EpiAdd → Prop) => ∃ x, .add x ∈ n.eng.epi ∧ p x
      let open_ := fun (h : Handle) (win : Nat) => h.kidx = k.toNat ∧ h.cen = true ∧ win ≤ n.regs.closed[k.toNat]
      let holds := k ∈ n.ctl.cwaiting ∨ closing ∨ (∃ c ∈ copies, c.hD.kidx = k.toNat) ∨ adds (fun x => x.h.kidx = k.toNat) ∨
        ∃ c ∈ n.eng.colls, c.recv = true ∧ c.hD.kidx = k.toNat
      let waits := k ∈ n.ctl.cwaiting ∨ closing ∨ (∃ c ∈ copies, open_ c.hD c.win) ∨ adds (fun x => open_ x.h x.win)
      let ctl : Ctl := { n.ctl with cissued := n.ctl.cissued.setIfInBounds k.toNat (n.ctl.cissued[k.toNat] + 1) }
      (n.scaleBusy k = true ↔ holds) ∧
      (waits → n.post fa (.close k) = { n with ctl := { ctl with cwaiting := ctl.cwaiting ++ [k] } }) ∧
      (¬ waits → n.post fa (.close k) = { n with ctl := { ctl with flight := ctl.flight ++ [{ dist := 1, eff := .cenClose k }] } })) ∧
    (∀ (v : Word) (j : Nat), j < 32 → (ksetMask m).getLsbD j = (decide (j < 8) && m.getLsbD 0 || decide (8 ≤ j ∧ j < 21) && m.getLsbD 1 ||
      decide (j = 21) && m.getLsbD 2 || decide (j = 22) && m.getLsbD 3 || decide (24 ≤ j ∧ j < 28) && m.getLsbD 4) ∧
      (j < 8 ∨ 20 ≤ j → (ksetValue v).getLsbD j = v.getLsbD j) ∧
      cenCur (ksetValue v) = min ((v.extractLsb' 8 6).toNat) 32 ∧ cenPrev (ksetValue v) = min ((v.extractLsb' 14 6).toNat) 32)

/-- A census close (R41): CEN.V tells whether the window saw a value below 32, CEN.PREV takes CEN.CUR, and CEN.CUR starts at the least value that the next
window has already seen, or 32; a census write lowers CEN.CUR of its own window and no other field (R40, R42). -/
def Obligations.CensusWindows : Prop :=
  ∀ (r : Regs) (k : BitVec 6) (w c : Nat), (∀ i : Fin 64, cenCur r.k[i] ≤ 32 ∧ cenPrev r.k[i] ≤ 32) → c ≤ 32 →
    let old := r.k[k.toNat]
    let new := (r.closeWindow k).k[k.toNat]
    let seen := (r.later.filter fun e => e.1 == k.toNat && e.2.1 == r.closed[k.toNat] + 1).map fun e => e.2.2
    cenV new = decide (cenCur old < 32) ∧ cenPrev new = cenCur old ∧ cenCur new = seen.foldl min 32 ∧
    (∀ j < 32, j < 8 ∨ 21 ≤ j → new.getLsbD j = old.getLsbD j) ∧ (∀ i : Fin 64, i.val ≠ k.toNat → (r.closeWindow k).k[i] = r.k[i]) ∧
    (r.closeWindow k).closed[k.toNat] = r.closed[k.toNat] + 1 ∧
    (w ≤ r.closed[k.toNat] → cenCur (r.census k.toNat w c).k[k.toNat] = min (cenCur old) c ∧ cenPrev (r.census k.toNat w c).k[k.toNat] = cenPrev old ∧
      cenV (r.census k.toNat w c).k[k.toNat] = cenV old ∧ (r.census k.toNat w c).later = r.later) ∧
    (r.closed[k.toNat] < w → (r.census k.toNat w c).k = r.k ∧ (r.census k.toNat w c).later = r.later ++ [(k.toNat, w, c)])

/-- TSH and TSHR (R216 to R218): a legal shape goes to the register that the tile's name reaches, an illegal one takes the tile shape fault; TSHR copies a
shape without its SAT bit and with the row count in sB, which must lie between 1 and 256. -/
def Obligations.ShapeWords : Prop :=
  ∀ (s : State) (q : BitVec 2) (g : BitVec 4) (t u : BitVec 6) (a : BitVec 5),
    let sets := fun (i : Instr) (v : BitVec 32) =>
      (shapeRows v * shapeCols v * shapeW v ≤ 262144 * s.slabs → exec i s = .next (s.withResults [{ dist := 1, eff := .ts (s.cur.slot t) v }])) ∧
      (262144 * s.slabs < shapeRows v * shapeCols v * shapeW v → exec i s = .next (s.trapHere 3 0))
    let v := (s.cur.s a).extractLsb' 0 32 &&& 0x03FFFF83#32
    let c := s.cur.regs.ts[(s.cur.slot u).toNat] &&& 0xFDFFFFFF#32
    let rows := (s.cur.s a).toNat
    (Runs (.tsh q g t a) s → sets (.tsh q g t a) v) ∧
    (Runs (.tshRead q g t a) s → GivesS (.tshRead q g t a) s 1 a (BitVec.ofNat 64 (s.cur.regs.ts[(s.cur.slot t).toNat]).toNat)) ∧
    (Runs (.tshr q g t u 0) s → sets (.tshr q g t u 0) c) ∧
    (a ≠ 0 → Runs (.tshr q g t u a) s → rows = 0 ∨ 256 < rows → exec (.tshr q g t u a) s = .next (s.trapHere 3 0)) ∧
    (a ≠ 0 → Runs (.tshr q g t u a) s → 1 ≤ rows → rows ≤ 256 → ∃ x : BitVec 32, shapeRows x = rows ∧
      (∀ j < 32, j < 7 ∨ 15 ≤ j → x.getLsbD j = c.getLsbD j) ∧ sets (.tshr q g t u a) x)

/-! ## Tile words -/

/-- The arithmetic of R186 on tiles, element by element: wrapping, or saturating with SAT set; poison and SAT come from every source (R184); the conditions on
the shapes; the latencies of R147; nothing else changes. -/
def Obligations.VectorArithmetic : Prop :=
  ∀ (s : State) (q : BitVec 2) (st un : BitVec 1) (d a b : BitVec 6),
    let u := un == 1
    let D := s.tv d
    let A := s.tv a
    let B := s.tv b
    let L := s.blocks [D, A, B]
    let X := fun j => A.get u j
    let Y := fun j => B.get u j
    let poi := fun j => A.poi j || B.poi j
    let sat := A.sat || B.sat
    let grids := SameGrid A D ∧ SameGrid B D ∧ A.w = B.w
    let wraps := fun (i : Instr) (lat : Nat) (ok : Prop) (f : Nat → Int) => Runs i s → VectorWraps i s lat [D, A, B] (grids ∧ ok) D f poi sat
    let clampsTo := fun (i : Instr) (lat : Nat) (ok : Prop) (f : Nat → Int) => Runs i s → VectorClamps i s lat [D, A, B] (grids ∧ ok) D u f poi sat
    wraps (.vadd q un d a b) (4 * L) (A.w ≤ D.w) (fun j => X j + Y j) ∧
    wraps (.vsub q un d a b) (4 * L) (A.w ≤ D.w) (fun j => X j - Y j) ∧
    clampsTo (.vadds q un d a b) (4 * L) (A.w ≤ D.w) (fun j => X j + Y j) ∧
    clampsTo (.vsubs q un d a b) (4 * L) (A.w ≤ D.w) (fun j => X j - Y j) ∧
    (st ≠ 1 → wraps (.vmul q st un d a b) (6 * L) (A.w ≤ D.w) (fun j => X j * Y j)) ∧
    (st = 1 → clampsTo (.vmul q st un d a b) (6 * L) (A.w ≤ D.w) (fun j => X j * Y j)) ∧
    wraps (.vmulh q un d a b) (6 * L) (A.w = D.w) (fun j => X j * Y j / 2 ^ A.w) ∧
    wraps (.vmin q un d a b) (4 * L) (A.w = D.w) (fun j => min (X j) (Y j)) ∧
    wraps (.vmax q un d a b) (4 * L) (A.w = D.w) (fun j => max (X j) (Y j)) ∧
    (Runs (.vmac q st un d a b) s →
      (st ≠ 1 → VectorWraps (.vmac q st un d a b) s (6 * L) [D, A, B] (grids ∧ A.w ≤ D.w) D (fun j => D.get u j + X j * Y j) (fun j => poi j || D.poi j) (sat || D.sat)) ∧
      (st = 1 → VectorClamps (.vmac q st un d a b) s (6 * L) [D, A, B] (grids ∧ A.w ≤ D.w) D u (fun j => D.get u j + X j * Y j) (fun j => poi j || D.poi j) (sat || D.sat)))

/-- The bitwise words, the selection and the comparisons of R187 on tiles, VLUT3 (R198) and the funnel shifts (R199), element by element. A comparison writes
all ones or zero. -/
def Obligations.VectorLogicAndComparisons : Prop :=
  ∀ (s : State) (q : BitVec 2) (d a b : BitVec 6) (n : BitVec 5),
    let D := s.tv d
    let A := s.tv a
    let B := s.tv b
    let L := 4 * s.blocks [D, A, B]
    let poi := fun j => A.poi j || B.poi j
    let grids := SameGrid A D ∧ SameGrid B D
    let gives := fun (i : Instr) (ok : Prop) (f : Nat → Nat) => Runs i s → VectorGives i s L [D, A, B] (grids ∧ ok) D f poi (A.sat || B.sat)
    let mask := fun (c : Nat → Bool) (j : Nat) => if c j then 2 ^ D.w - 1 else 0
    gives (.vand q d a b) (A.w = B.w ∧ A.w = D.w) (fun j => A.bit j &&& B.bit j) ∧
    gives (.vor q d a b) (A.w = B.w ∧ A.w = D.w) (fun j => A.bit j ||| B.bit j) ∧
    gives (.vxor q d a b) (A.w = B.w ∧ A.w = D.w) (fun j => A.bit j ^^^ B.bit j) ∧
    gives (.vandn q d a b) (A.w = B.w ∧ A.w = D.w) (fun j => A.bit j &&& (2 ^ D.w - 1 - B.bit j)) ∧
    gives (.vcmpEq q d a b) (A.w = B.w) (mask fun j => A.bit j == B.bit j) ∧
    gives (.vcmpNe q d a b) (A.w = B.w) (mask fun j => A.bit j != B.bit j) ∧
    gives (.vcmpLt q d a b) (A.w = B.w) (mask fun j => decide (A.get false j < B.get false j)) ∧
    gives (.vcmpGe q d a b) (A.w = B.w) (mask fun j => decide (B.get false j ≤ A.get false j)) ∧
    gives (.vcmpLtw q d a b) (A.w = B.w) (mask fun j => decide (A.bit j < B.bit j)) ∧
    gives (.vcmpGew q d a b) (A.w = B.w) (mask fun j => decide (B.bit j ≤ A.bit j)) ∧
    (Runs (.vsel q d a b) s → VectorGives (.vsel q d a b) s L [D, A, B] (grids ∧ A.w = D.w) D (fun j => if B.bit j ≠ 0 then A.bit j else D.bit j)
      (fun j => poi j || D.poi j) (A.sat || B.sat || D.sat)) ∧
    gives (.vfsl q d a b n) (A.w = B.w ∧ A.w = D.w) (fun j => (A.bit j * 2 ^ (n.toNat % D.w) + B.bit j / 2 ^ (D.w - n.toNat % D.w)) % 2 ^ D.w) ∧
    gives (.vfsr q d a b n) (A.w = B.w ∧ A.w = D.w) (fun j => (A.bit j / 2 ^ (n.toNat % D.w) + B.bit j * 2 ^ (D.w - n.toNat % D.w)) % 2 ^ D.w) ∧
    (∀ (l : BitVec 8) (d5 b5 : BitVec 5), Runs (.vlut3 q l d5 a b5) s →
      let D := s.tv (d5.setWidth 6)
      let B := s.tv (lutThird a b5)
      ∃ f, VectorGives (.vlut3 q l d5 a b5) s (4 * s.blocks [D, A, B]) [D, A, B] (SameShape A D ∧ SameShape B D) D f
          (fun j => D.poi j || A.poi j || B.poi j) (D.sat || A.sat || B.sat) ∧
        ∀ j k, k < D.w → (f j).testBit k =
          l.getLsbD ((if (D.bit j).testBit k then 4 else 0) + (if (A.bit j).testBit k then 2 else 0) + (if (B.bit j).testBit k then 1 else 0)))

/-- The shifts of R189 by an immediate, a scalar or a tile of counts, the narrowing shift VSHRN (R190), VCVT (R191) and the words of one source (R192). The index of
VSHRN's stochastic rounding is the element's number in the tile, or R53's index through the handle of its extension, by whose RANK coordinates count as 0: the model's
reading (log entry 66). -/
def Obligations.VectorShiftsAndUnary : Prop :=
  ∀ (s : State) (q x m : BitVec 2) (d a b : BitVec 6) (st un : BitVec 1) (ext : Option (BitVec 25)),
    let D := s.tv d
    let A := s.tv a
    let B := if x = 2 then s.tv b else A
    let L := s.blocks [D, A]
    let LB := 4 * s.blocks [D, A, B]
    let k := fun j => if x = 0 then b.toNat else if x = 1 then (s.cur.s (b.extractLsb' 0 5)).toNat else B.bit j
    let poi := fun j => A.poi j || (x == 2 && B.poi j)
    let sat := A.sat || (x == 2 && B.sat)
    let shapes := SameShape A D ∧ SameGrid B A
    let X := s.cur.regs.h[((ext.getD 0).extractLsb' 0 4).toNat]
    let coords := fun j => ([X.org 0 + j % D.cols, X.org 1 + j / D.cols, X.org 2, X.org 3, X.org 4].zipIdx.map fun c => if c.2 < X.rank then c.1 else 0 : List Nat)
    let idx := fun j => if ext.isSome then linIndex X.exts (coords j) else j
    (Runs (.vshl q x d a b) s → VectorGives (.vshl q x d a b) s LB [D, A, B] shapes D (fun j => if D.w ≤ k j then 0 else A.bit j * 2 ^ k j % 2 ^ D.w) poi sat) ∧
    (Runs (.vshr q x d a b) s → VectorGives (.vshr q x d a b) s LB [D, A, B] shapes D (fun j => if D.w ≤ k j then 0 else A.bit j / 2 ^ k j) poi sat) ∧
    (Runs (.vsar q x d a b) s → VectorWraps (.vsar q x d a b) s LB [D, A, B] shapes D (fun j => A.get false j / 2 ^ min (k j) (D.w - 1)) poi sat) ∧
    (Runs (.vshrn q m d a b ext) s → VectorClamps (.vshrn q m d a b ext) s (5 * L) [D, A] (SameGrid A D ∧ 8 ≤ A.w ∧ D.w ≤ A.w) D false
      (fun j => roundBy m s.cur.ctl.seed.toNat s.cur.ctl.step.toNat (idx j) (A.get false j) (s.shiftCount b)) A.poi A.sat) ∧
    (Runs (.vcvt q un d a b) s → VectorClamps (.vcvt q un d a b) s (5 * L) [D, A] (SameGrid A D) D false (fun j => A.get (un == 1) j * 2 ^ s.shiftCount b) A.poi A.sat) ∧
    (Runs (.vabs q st d a) s →
      (st ≠ 1 → VectorWraps (.vabs q st d a) s (4 * L) [D, A] (SameShape A D) D (fun j => |A.get false j|) A.poi A.sat) ∧
      (st = 1 → VectorClamps (.vabs q st d a) s (4 * L) [D, A] (SameShape A D) D false (fun j => |A.get false j|) A.poi A.sat)) ∧
    (Runs (.vneg q st d a) s →
      (st ≠ 1 → VectorWraps (.vneg q st d a) s (4 * L) [D, A] (SameShape A D) D (fun j => -A.get false j) A.poi A.sat) ∧
      (st = 1 → VectorClamps (.vneg q st d a) s (4 * L) [D, A] (SameShape A D) D false (fun j => -A.get false j) A.poi A.sat)) ∧
    (Runs (.vclz q d a) s → VectorClamps (.vclz q d a) s (4 * L) [D, A] (SameGrid A D) D false (fun j => (A.w : Int) - bitLen (A.bit j)) A.poi A.sat) ∧
    (Runs (.vcls q d a) s → VectorClamps (.vcls q d a) s (4 * L) [D, A] (SameGrid A D) D false (fun j => headroom A.w (A.get false j)) A.poi A.sat) ∧
    (Runs (.vpopc q d a) s → VectorClamps (.vpopc q d a) s (4 * L) [D, A] (SameGrid A D) D false
      (fun j => ((List.range A.w).countP fun k => (A.bit j).testBit k : Nat)) A.poi A.sat) ∧
    (Runs (.vmov q d a) s → VectorGives (.vmov q d a) s (4 * L) [D, A] (SameShape A D) D A.bit A.poi A.sat)

/-- The words that move elements (R191 to R194): permutation within a row, gather, rotation, the two unpacks and packs, and the broadcasts; VCMPT takes its
trap at the first element that differs and changes nothing where none does (R200). -/
def Obligations.VectorMoves : Prop :=
  ∀ (s : State) (q : BitVec 2) (d a b : BitVec 6) (x e : BitVec 1) (c : BitVec 5) (ext : Option (BitVec 25)),
    let D := s.tv d
    let A := s.tv a
    let B := s.tv b
    let L3 := s.blocks [D, A, B]
    let L2 := s.blocks [D, A]
    let row := fun j => j / D.cols
    let col := fun j => j % D.cols
    let from_ := fun (i : Instr) (lat : Nat) (l : List TileView) (ok : Prop) (src : Nat → Nat) (sat : Bool) =>
      Runs i s → VectorGives i s lat l ok D (fun j => A.bit (src j)) (fun j => A.poi (src j)) sat
    from_ (.vperm q d a b) (6 * L3) [D, A, B] (SameGrid A D ∧ SameGrid B D ∧ A.w = D.w) (fun j => row j * D.cols + B.bit j % D.cols) (A.sat || B.sat) ∧
    (Runs (.vgath q d a b) s → VectorGives (.vgath q d a b) s (8 * L3 + 8) [D, A, B] (SameGrid B D ∧ A.w = D.w) D
      (fun j => if B.bit j < A.n then A.bit (B.bit j) else 0) (fun j => decide (B.bit j < A.n) && A.poi (B.bit j)) (A.sat || B.sat)) ∧
    from_ (.vrotl q x d a b ext) (4 * L2) [D, A] (SameShape A D)
      (fun j => row j * D.cols + (col j + if x = 0 then immU 6 b ext else (s.cur.s (b.extractLsb' 0 5)).toNat) % D.cols) A.sat ∧
    from_ (.vbcastRow q d a) (4 * L2) [D, A] (SameShape A D) (fun j => row j * D.cols) A.sat ∧
    from_ (.vbcastCol q d a) (4 * L2) [D, A] (SameShape A D) col A.sat ∧
    (Runs (.vbcast q d c) s → VectorWraps (.vbcast q d c) s (4 * s.blocks [D]) [D] True D (fun _ => (s.cur.s c).toInt) (fun _ => false) false) ∧
    (Runs (.vpack q x d a b) s →
      let ok := SameShape A B ∧ 8 ≤ A.w ∧ 2 * D.w = A.w ∧ D.cols = A.cols ∧ D.rows = 2 * A.rows
      let src := fun j => if row j % 2 = 0 then A else B
      let v := fun j => (src j).get false (row j / 2 * D.cols + col j)
      let poi := fun j => (src j).poi (row j / 2 * D.cols + col j)
      (x = 1 → VectorWraps (.vpack q x d a b) s (5 * L3) [D, A, B] ok D v poi (A.sat || B.sat)) ∧
      (x ≠ 1 → VectorClamps (.vpack q x d a b) s (5 * L3) [D, A, B] ok D false v poi (A.sat || B.sat))) ∧
    (Runs (.vunpk q x d a e) s → VectorWraps (.vunpk q x d a e) s (5 * L2) [D, A]
      (A.rows % 2 = 0 ∧ A.w ≤ 16 ∧ D.w = 2 * A.w ∧ D.cols = A.cols ∧ 2 * D.rows = A.rows) D
      (fun j => A.get (x == 1) ((2 * row j + e.toNat) * D.cols + col j)) (fun j => A.poi ((2 * row j + e.toNat) * D.cols + col j)) A.sat) ∧
    (Runs (.vcmpt q a b) s →
      ((A.legal = true ∧ B.legal = true ∧ SameShape A B) → (∀ j < A.n, A.bit j = B.bit j) → exec (.vcmpt q a b) s = .next s) ∧
      ((A.legal = true ∧ B.legal = true ∧ SameShape A B) → ∀ j < A.n, A.bit j ≠ B.bit j → (∀ k < j, A.bit k = B.bit k) →
        exec (.vcmpt q a b) s = .next (s.withResults [{ dist := 4 * s.blocks [A, B], eff := .trap 0x19 s.bnd.pos s.bnd.fa (BitVec.ofNat 64 j) }])) ∧
      (¬(A.legal = true ∧ B.legal = true ∧ SameShape A B) → exec (.vcmpt q a b) s = .next (s.trapHere 3 0)))

/-- VSCAT (R194) writes each element of tA at its index, the one with the highest number last, and keeps every element of tD that no index names; VPART (R195)
lists, row by row, the numbers of the non-zero elements and then of the zero ones, or counts the former (a count that the destination cannot hold is a free
value, log entry 9). -/
def Obligations.VectorScatterAndPartition : Prop :=
  ∀ (s : State) (q : BitVec 2) (d a b : BitVec 6),
    let D := s.tv d
    let A := s.tv a
    let B := s.tv b
    let nonzero := fun r => (List.range A.cols).filter fun c => A.bit (r * A.cols + c) != 0
    let zero := fun r => (List.range A.cols).filter fun c => A.bit (r * A.cols + c) == 0
    let bad := fun r => (List.range A.cols).any fun c => A.poi (r * A.cols + c)
    (Runs (.vscat q d a b) s → ∃ (bit : Nat → Nat) (poi : Nat → Bool),
      VectorGives (.vscat q d a b) s (8 * s.blocks [D, A, B] + 8) [D, A, B] (SameGrid A B ∧ A.w = D.w) D bit poi (A.sat || B.sat || D.sat) ∧
      (∀ j < D.n, (∀ i < A.n, B.bit i ≠ j) → bit j = D.bit j ∧ poi j = D.poi j) ∧
      (∀ i < A.n, B.bit i < D.n → (∀ k < A.n, i < k → B.bit k ≠ B.bit i) → bit (B.bit i) = A.bit i ∧ poi (B.bit i) = A.poi i)) ∧
    (Runs (.vpart q 0 d a) s → VectorGives (.vpart q 0 d a) s (6 * s.blocks [D, A] + 4) [D, A] (SameGrid A D ∧ 16 ≤ D.w ∧ A.n ≤ 2 ^ D.w) D
      (fun j => let r := j / D.cols; r * A.cols + (nonzero r ++ zero r).getD (j % D.cols) 0) (fun j => bad (j / D.cols)) A.sat) ∧
    (Runs (.vpart q 1 d a) s → (∀ t ∈ [D, A], t.legal = true) ∧ SameGrid A D ∧ 16 ≤ D.w →
      ∃ bits poison : Nat, ∃ free : Nat,
        exec (.vpart q 1 d a) s = .next (({ s with free := free } : State).withResults
          [{ dist := 6 * s.blocks [D, A] + 4, eff := .tile D.slot (2 ^ (D.w * D.n) - 1) bits poison A.sat false }]) ∧
        ∀ j < D.n, (j % D.cols = 0 → (nonzero (j / D.cols)).length < 2 ^ D.w → tileBits bits D.w j = (nonzero (j / D.cols)).length) ∧
          (j % D.cols = 0 → elemPoison poison D.w j = bad (j / D.cols)) ∧
          (j % D.cols ≠ 0 → tileBits bits D.w j = 0 ∧ elemPoison poison D.w j = false)) ∧
    (Runs (.vpart q 1 d a) s → ¬((∀ t ∈ [D, A], t.legal = true) ∧ SameGrid A D ∧ 16 ≤ D.w) → exec (.vpart q 1 d a) s = .next (s.trapHere 3 0))

/-- The reductions (R196) by row, column or the whole tile, saturated into the first element of their line with zeros elsewhere, and the prefix sums of R197. -/
def Obligations.VectorReductions : Prop :=
  ∀ (s : State) (q x : BitVec 2) (d a : BitVec 6) (un st : BitVec 1),
    let D := s.tv d
    let A := s.tv a
    let lat := 4 * s.blocks [D, A] + 8
    let u := un == 1
    let line := fun j => if x = 0 then (List.range D.cols).map fun k => j / D.cols * D.cols + k
      else if x = 1 then (List.range D.rows).map fun k => k * D.cols + j % D.cols else List.range (D.rows * D.cols)
    let first := fun j => (x = 0 ∧ j % D.cols = 0) ∨ (x = 1 ∧ j / D.cols = 0) ∨ (x = 2 ∧ j = 0)
    let reduces := fun (i : Instr) (u : Bool) (f : List Int → Int) => Runs i s → ∃ (bit : Nat → Nat) (poi : Nat → Bool) (sat : Bool),
      VectorGives i s lat [D, A] (SameGrid A D) D bit poi sat ∧
      (∀ j < D.n, (first j → bit j = lowBits D.w (clampTo D.w u (f ((line j).map (A.get u)))) ∧ poi j = (line j).any A.poi) ∧
        (¬ first j → bit j = 0 ∧ poi j = false)) ∧
      (sat = true ↔ A.sat = true ∨ ∃ j < D.n, first j ∧ clamps D.w u (f ((line j).map (A.get u))) = true)
    let prefixOf := fun j => if x = 0 then (List.range (j % D.cols + 1)).map fun k => j / D.cols * D.cols + k
      else if x = 1 then (List.range (j % D.cols)).map fun k => j / D.cols * D.cols + k
      else if x = 2 then (List.range (j / D.cols + 1)).map fun k => k * D.cols + j % D.cols
      else (List.range (j / D.cols)).map fun k => k * D.cols + j % D.cols
    reduces (.vredsum q x d a un) u List.sum ∧
    reduces (.vredmax q x d a un) u (fun l => (l.max?).getD 0) ∧
    reduces (.vredmin q x d a un) u (fun l => (l.min?).getD 0) ∧
    reduces (.vabsmax q x d a) false (fun l => ((l.map fun v => |v|).max?).getD 0) ∧
    (Runs (.vscan q x d a st un) s →
      let v := fun j => ((prefixOf j).map (A.get u)).sum
      let poi := fun j => (prefixOf j).any A.poi
      (st = 1 → VectorClamps (.vscan q x d a st un) s lat [D, A] (SameGrid A D) D u v poi A.sat) ∧
      (st ≠ 1 → VectorWraps (.vscan q x d a st un) s lat [D, A] (SameGrid A D) D v poi A.sat))

/-- The tables of R239 hold the nearest integers to the values that the rule names: TE to 2^(15 + i/32), TL to 2^15 log2(1 + i/32), TS to 2^15 / sqrt(1 +
i/64), each said by powers of integers; TG rises from 0 to 32,768, takes the values that the rule names, and is antisymmetric about its middle. A rounding is to the nearest integer, a tie to even
(R5). The element-wise routines of R241 and the row routines of R242 and R243: their shape conditions, latencies, and the function of R240 to R243 that each
applies to every element or row, with poison and SAT; the values of VEXP2, VLOG2, VRCP, VRSQ and VGELU of every element, the softmax of a row and its
normalisation, by the cores of R240 and the rounded quotient of R238; and the worked example of R241. -/
def Obligations.RoutineWords : Prop :=
  (tableTE.length = 33 ∧ tableTL.length = 33 ∧ tableTS.length = 64 ∧ tableTG.length = 257 ∧
  (∀ i < 33, (2 * tableTE.getD i 0 - 1) ^ 32 ≤ 2 ^ (512 + i) ∧ 2 ^ (512 + i) ≤ (2 * tableTE.getD i 0 + 1) ^ 32) ∧
  (∀ i < 33, 2 ^ (2 * tableTL.getD i 0 - 1) * 32 ^ 65536 ≤ (32 + i) ^ 65536 ∧ (32 + i) ^ 65536 ≤ 2 ^ (2 * tableTL.getD i 0 + 1) * 32 ^ 65536) ∧
  (∀ i < 64, (2 * tableTS.getD i 0 - 1) ^ 2 * (64 + i) ≤ 2 ^ 38 ∧ 2 ^ 38 ≤ (2 * tableTS.getD i 0 + 1) ^ 2 * (64 + i)) ∧
  (∀ i < 256, tableTG.getD i 0 ≤ tableTG.getD (i + 1) 0) ∧ (∀ i < 257, tableTG.getD i 0 + tableTG.getD (256 - i) 0 = 32768) ∧
  tableTG.getD 0 0 = 0 ∧ tableTG.getD 112 0 = 5199 ∧ tableTG.getD 128 0 = 16384 ∧ tableTG.getD 144 0 = 27569 ∧ tableTG.getD 256 0 = 32768) ∧
  (∀ (x : Int) (k : Nat),
    let rest := 2 * (x - shrRne x k * 2 ^ k)
    rest ≤ 2 ^ k ∧ -(2 ^ k) ≤ rest ∧ (0 < k → rest = 2 ^ k ∨ rest = -(2 ^ k) → shrRne x k % 2 = 0) ∧ scaleRne x k = shrRne x k ∧ scaleRne x (-k) = x * 2 ^ k) ∧
  (∀ (n m : Int), 0 < m →
    let rest := 2 * (n - divRne n m * m)
    rest ≤ m ∧ -m ≤ rest ∧ (rest = m ∨ rest = -m → divRne n m % 2 = 0) ∧ divRne (-n) (-m) = divRne n m) ∧
  (∀ (f g w : Nat) (A : Int) (mean : Bool) (row gain : List Int), 0 < w →
    let put := fun (v : Int) => (lowBits w (clampTo w false v), clamps w false v)
    let at_ := fun (t : List Nat) (i : Int) => ((t.getD i.toNat 0 : Nat) : Int)
    let between := fun (t : List Nat) (u : Int) (k : Nat) => shrRne (at_ t (u / 2 ^ k) * 2 ^ k + (at_ t (u / 2 ^ k + 1) - at_ t (u / 2 ^ k)) * (u % 2 ^ k)) k
    let y := scaleRne A ((f : Int) - 15)
    let exp2 := fun (v : Int) => between tableTE (v % 2 ^ 15) 10
    let log2 := fun (v : Int) => ((Nat.log2 v.toNat : Int) - f) * 2 ^ 15 + between tableTL (v * 2 ^ 15 / 2 ^ Nat.log2 v.toNat - 2 ^ 15) 10
    let rsq := fun (v : Int) (f : Nat) =>
      let z := v * 2 ^ 30 / 2 ^ Nat.log2 v.toNat
      let y0 := at_ tableTS (z / 2 ^ 24 - 64) * 2 ^ 15
      let y1 := shrRne (y0 * (3 * 2 ^ 30 - shrRne (z * shrRne (y0 * y0) 30) 30)) 31
      let q := (Nat.log2 v.toNat : Int) - f
      if q % 2 = 0 then (y1, q / 2) else (shrRne (y1 * 0x5A82799A) 30, (q + 1) / 2)
    vexp2El f g w A = put (scaleRne (exp2 y) (15 - g - y / 2 ^ 15)) ∧
    (0 < A → vlog2El f g w A = put (scaleRne (log2 A) (15 - g))) ∧
    (A ≠ 0 → vrcpEl f g w A = put (divRne (2 ^ (f + g)) A)) ∧
    (0 < A → vrsqEl f g w A = put (scaleRne (rsq A f).1 (30 + (rsq A f).2 - g))) ∧
    vgeluEl f g w A = put (scaleRne (y * if y < -(2 ^ 18) then 0 else if 2 ^ 18 ≤ y then 2 ^ 15 else between tableTG (y + 2 ^ 18) 11) (30 - g)) ∧
    (row ≠ [] → w ≤ 47 →
      let shifted := fun (a : Int) => scaleRne ((a - (row.max?).getD 0) * 47274) f
      let e := fun (a : Int) => scaleRne (exp2 (shifted a)) (-(shifted a / 2 ^ 15))
      softmaxRow f w row = row.map fun a => put (shrRne (e a * divRne (2 ^ 46) (row.map e).sum) (47 - w))) ∧
    (row ≠ [] →
      let mu := divRne (2 ^ 8 * row.sum) row.length
      let c := fun (a : Int) => if mean then 2 ^ 8 * a - mu else a
      let m := divRne (row.map fun a => c a * c a).sum row.length + if mean then 2 ^ 16 else 1
      normRow mean g w row gain = (row.zip gain).map fun e => put (scaleRne (c e.1 * (rsq m 0).1 * e.2) (43 + (rsq m 0).2 - g)))) ∧
  (∀ (s : State) (q : BitVec 2) (d a b : BitVec 6) (f : BitVec 5) (ext : Option (BitVec 25)),
    let D := s.tv d
    let A := s.tv a
    let G := s.tv b
    let out := fun (dflt : Nat) => (ext.map fun e => (e.extractLsb' 0 5).toNat).getD dflt
    let each := fun (i : Instr) (el : Nat → Int → Nat × Bool) => Runs i s →
      VectorStores i s (8 + 6 * s.blocks [D, A]) [D, A] (SameGrid A D ∧ 8 ≤ A.w ∧ 8 ≤ D.w) D (fun j => el D.w (A.get false j)) A.poi A.sat
    let rowOf := fun (t : TileView) (r : Nat) => (List.range t.cols).map fun c => t.get false (r * t.cols + c)
    let bad := fun (r : Nat) => (List.range A.cols).any fun c => A.poi (r * A.cols + c)
    let narrow := fun (w : Nat) => w = 8 ∨ w = 16
    each (.vexp2 q d a f ext) (vexp2El f.toNat (out 15)) ∧ each (.vlog2 q d a f ext) (vlog2El f.toNat (out 15)) ∧
    each (.vrcp q d a f ext) (vrcpEl f.toNat (out 15)) ∧ each (.vrsq q d a f ext) (vrsqEl f.toNat (out 15)) ∧
    each (.vgelu q d a f ext) (vgeluEl f.toNat (out 15)) ∧
    (Runs (.vsmax q d a f) s → VectorStores (.vsmax q d a f) s (16 + 12 * s.blocks [D, A]) [D, A] (SameGrid A D ∧ narrow A.w ∧ narrow D.w) D
      (fun j => (softmaxRow f.toNat D.w (rowOf A (j / A.cols))).getD (j % A.cols) (0, false)) (fun j => bad (j / A.cols)) A.sat) ∧
    (∀ mean : Bool, let i : Instr := if mean then .vlnrm q d a b ext else .vrmsn q d a b ext
      Runs i s → VectorStores i s (16 + 12 * s.blocks [D, A, G]) [D, A, G]
        (SameGrid A D ∧ narrow A.w ∧ narrow D.w ∧ G.w = 16 ∧ G.rows = 1 ∧ G.cols = A.cols) D
        (fun j => (normRow mean (out (D.w - 4)) D.w (rowOf A (j / A.cols)) (rowOf G 0)).getD (j % A.cols) (0, false))
        (fun j => bad (j / A.cols) || G.poi (j % A.cols)) (A.sat || G.sat)) ∧
    vexp2El 15 15 16 (-32768) = (16384, false) ∧ vexp2El 15 15 16 (-32256) = (16564, false) ∧ vexp2El 15 15 16 (-49152) = (11585, false) ∧
    vexp2El 15 15 16 0 = (32767, true) ∧ vgeluEl 15 15 16 32768 = (27569, false) ∧ vgeluEl 15 15 16 (-32768) = (60337, false) ∧ vrsqEl 0 14 16 3 = (9459, false) ∧ vrsqEl 0 14 16 1 = (16384, false) ∧ vrsqEl 0 14 16 0 = (32767, true) ∧
    (∀ f g w A, A ≤ 0 → vlog2El f g w A = (lowBits w (-(2 ^ (w - 1))), true)) ∧
    (∀ f g w, vrcpEl f g w 0 = (lowBits w (2 ^ (w - 1) - 1), true)) ∧ (∀ f g w A, A < 0 → vrsqEl f g w A = (0, true)))

/-- The optimizer words (R244, R245): the moment tiles and the weight tile fall due together, every element by the update of its entry, with the rounding of
the word's mode on the weight; a shape that the entry does not allow takes the tile shape fault. The index of a stochastic rounding is the element's number in the tile,
or R53's through the handle of the extension (R238), by whose RANK coordinates count as 0: the model's reading (log entry 66). The fields of the hyperparameters, the arithmetic of each
word, and the worked example of R245. -/
def Obligations.OptimizerWords : Prop :=
  (∀ (v : Word), let h := hyperOf v
    h.epsx = v.toNat / 2 ^ 54 % 32 ∧ h.us = v.toNat / 2 ^ 48 % 64 ∧ h.lr = (v.toNat / 2 ^ 32 % 65536 : Nat) ∧ h.beta2 = (v.toNat / 2 ^ 16 % 65536 : Nat) ∧
    h.beta1 = (v.toNat % 65536 : Nat)) ∧
  (∀ (h : Hyper) (ww mw : Nat) (rd : Int → Nat → Int) (W G M V : Int), 0 < ww → 0 < mw →
    let put := fun (w : Nat) (v : Int) => (lowBits w (clampTo w false v), clamps w false v)
    let m := shrRne (h.beta1 * M + G * 2 ^ 16) 16
    let c := h.beta1 * M + (2 ^ 16 - h.beta1) * G
    let v := shrRne (h.beta2 * V + (2 ^ 16 - h.beta2) * G * G) 16
    let x := clampTo 32 false v + 2 ^ h.epsx
    sgdmEl h ww mw rd W G M = (put mw m, put ww (W - rd (h.lr * clampTo mw false m) h.us)) ∧
    lionEl h ww mw rd W G M = (put mw (shrRne (h.beta2 * M + (2 ^ 16 - h.beta2) * G) 16),
      put ww (W - rd (if c < 0 then -h.lr else if c = 0 then 0 else h.lr) h.us)) ∧
    (adamEl h ww mw rd W G M V).1 = put mw (shrRne c 16) ∧ (adamEl h ww mw rd W G M V).2.1 = put 32 v ∧
    (0 < x → (adamEl h ww mw rd W G M V).2.2 =
      put ww (W - rd (h.lr * clampTo mw false (shrRne c 16) * (rsqCore x 0).1) (30 + (rsqCore x 0).2 + h.us).toNat)) ∧
    (x ≤ 0 → (adamEl h ww mw rd W G M V).2.2 = ((put ww W).1, true))) ∧
  (let h := hyperOf 0x000400030000E666
   sgdmEl h 8 16 shrRne 50 20 100 = ((110, false), (29, false)) ∧ sgdmEl h 8 16 shrRne (-120) (-128) 500 = ((322, false), (128, true))) ∧
  ∀ (s : State) (q m : BitVec 2) (d a b : BitVec 6) (e : BitVec 25),
    let D := s.tv d
    let A := s.tv a
    let M := s.tv b
    let V := s.tv (e.extractLsb' 10 6)
    let hy := hyperOf (s.cur.s (e.extractLsb' 0 5))
    let shapes := SameGrid A D ∧ SameGrid M D ∧ (D.w = 8 ∨ D.w = 16) ∧ (A.w = 8 ∨ A.w = 16) ∧ (M.w = 16 ∨ M.w = 32)
    let X := s.cur.regs.h[(e.extractLsb' 5 4).toNat]
    let coords := fun j => ([X.org 0 + j % D.cols, X.org 1 + j / D.cols, X.org 2, X.org 3, X.org 4].zipIdx.map fun c => if c.2 < X.rank then c.1 else 0 : List Nat)
    let idx := fun j => if e.getLsbD 9 then linIndex X.exts (coords j) else j
    let rd := fun j (v : Int) (n : Nat) => roundBy m s.cur.ctl.seed.toNat s.cur.ctl.step.toNat (idx j) v n
    let full := fun (t : TileView) (x : Effect) (f : Nat → Nat × Bool) (poi : Nat → Bool) (sat : Bool) => ∃ bits poison,
      x = .tile t.slot (2 ^ (t.w * t.n) - 1) bits poison (sat || (List.range t.n).any fun j => (f j).2) false ∧
      ∀ j < t.n, tileBits bits t.w j = (f j).1 ∧ elemPoison poison t.w j = poi j
    let two := fun (i : Instr) (f : Hyper → Nat → Nat → (Int → Nat → Int) → Int → Int → Int → (Nat × Bool) × (Nat × Bool)) => Runs i s →
      let out := fun j => f hy D.w M.w (rd j) (D.get false j) (A.get false j) (M.get false j)
      let ok := (∀ t ∈ [D, A, M], t.legal = true) ∧ shapes
      (ok → ∃ em ew : Effect,
        exec i s = .next (s.withResults [{ dist := 8 + 8 * s.blocks [D, A, M], eff := em }, { dist := 8 + 8 * s.blocks [D, A, M], eff := ew }]) ∧
        full M em (fun j => (out j).1) (fun j => M.poi j || A.poi j) (M.sat || A.sat) ∧
        full D ew (fun j => (out j).2) (fun j => D.poi j || A.poi j || M.poi j) (D.sat || A.sat || M.sat)) ∧
      (¬ ok → exec i s = .next (s.trapHere 3 0))
    two (.voptSgdm q m d a b (some e)) sgdmEl ∧ two (.voptLion q m d a b (some e)) lionEl ∧
    (Runs (.voptAdam q m d a b (some e)) s →
      let out := fun j => adamEl hy D.w M.w (rd j) (D.get false j) (A.get false j) (M.get false j) (V.get false j)
      let ok := (∀ t ∈ [D, A, M, V], t.legal = true) ∧ shapes ∧ SameGrid V D ∧ V.w = 32
      let lat := 8 + 8 * s.blocks [D, A, M, V]
      (ok → ∃ em ev ew : Effect,
        exec (.voptAdam q m d a b (some e)) s = .next (s.withResults [{ dist := lat, eff := em }, { dist := lat, eff := ev }, { dist := lat, eff := ew }]) ∧
        full M em (fun j => (out j).1) (fun j => M.poi j || A.poi j) (M.sat || A.sat) ∧
        full V ev (fun j => (out j).2.1) (fun j => V.poi j || A.poi j) (V.sat || A.sat) ∧
        full D ew (fun j => (out j).2.2) (fun j => D.poi j || A.poi j || M.poi j || V.poi j) (D.sat || A.sat || M.sat || V.sat)) ∧
      (¬ ok → exec (.voptAdam q m d a b (some e)) s = .next (s.trapHere 3 0)))

/-! ## Matrix, epilogue, copy and link words -/

/-- TLD (R202, R203): every element of the tile takes the element of the tensor at its place, saturated to the tile's width, or zero beyond the extents; the
SAT bit is replaced; a handle that fails its checks takes its fault, and so does the first element, in element order, that the layout unit refuses; a forwarded
tile comes from its buffer, with the poison that the TLD would have read (R121, R256, R358). TST (R204): the elements inside the extents are planned and stored together, the scale register takes its census, SAT and
POI, a block not wholly covered takes the format fault, a plan that the layout unit refuses its fault, and no byte of memory changes but those of the plan, none
for a staged node. Nothing of the bytes that a TLD reads or a TST writes stands of what has been read ahead (log entry 91). A forwarded TST (R111, R121) fills its buffer with what a TLD would have read of the store, with the census, SAT and POI of the store, and
stores only where its handle has KEEP set. -/
def Obligations.TileLoadsAndStores : Prop :=
  ∀ (s : State) (q : BitVec 2) (g h : BitVec 4) (t : BitVec 6) (m : BitVec 2),
    let H := s.cur.regs.h[h.toNat]
    let T := s.tv t
    let ld : Instr := .tld q g h t
    let st : Instr := .tst q g h t m
    let at_ := fun j => addOrg H.orgs [j % T.cols, j / T.cols, 0, 0, 0]
    let lat := 12 + 2 * s.blocks [T]
    (Runs ld s →
      (T.legal = false → exec ld s = .next (s.trapHere 3 0)) ∧
      (T.legal = true →
        (∀ f, s.checkHandle s.cur H false = some f → exec ld s = .next (s.handleFault f h false H)) ∧
        (s.checkHandle s.cur H false = none →
          (∀ b, s.forwardedTile = some b → exec ld s = .next ((s.takeBuffer b).withResults
            [{ dist := lat, eff := .tile T.slot (2 ^ (T.w * T.n) - 1) b.tile.bits (s.forwardedPoison b H T) false true }]) ∧
            ∀ pl, s.planCells (s.node s.pair.p) b.h { mode := 0, seed := 0, step := 0 } (bufferCells b) = .ok pl → ∀ e : Nat → ElemRead,
              let stored := s.doWrites s.pair.p 1 (some b.pAddr) pl.writes
              (∀ j < T.n, inside H.exts (at_ j) = true → stored.readElem s.cur H (at_ j) = .ok (e j)) →
              ∀ j < T.n, elemPoison (s.forwardedPoison b H T) T.w j = (inside H.exts (at_ j) && (e j).poison)) ∧
          (s.forwardedTile = none → ∀ j < T.n, inside H.exts (at_ j) = true → ∀ f off, s.readElem s.cur H (at_ j) = .error (f, off) →
            (∀ k < j, inside H.exts (at_ k) = true → ∃ e, s.readElem s.cur H (at_ k) = .ok e) → exec ld s = .next (s.wordFault f (tensorAddr H.tid off))) ∧
          (s.forwardedTile = none → ∀ e : Nat → ElemRead,
            (∀ j < T.n, inside H.exts (at_ j) = true → s.readElem s.cur H (at_ j) = .ok (e j)) →
            let l := (List.range T.n).map fun j => if inside H.exts (at_ j) then some (e j) else none
            let v := fun j => if inside H.exts (at_ j) then (e j).value (fmtWidth H.fmt) else 0
            let u := s.forget ((s.elemPlaces s.cur H false ((List.range T.n).map at_)).getD [])
            ∃ bits poison, exec ld s = .next (((u.countCorrected s.cur.desc.uid l).touch s.cur.desc.uid 1 (some s.bnd.addr) (guardOf l)).withResults
                [{ dist := lat, eff := .tile T.slot (2 ^ (T.w * T.n) - 1) bits poison (anyClamps T.n T.w false v) true }]) ∧
              ∀ j < T.n, tileBits bits T.w j = lowBits T.w (clampTo T.w false (v j)) ∧ elemPoison poison T.w j = (inside H.exts (at_ j) && (e j).poison))))) ∧
    (Runs st s →
      let cells := ((List.range T.n).map fun j => ({ x := at_ j, v := T.get false j, poison := T.poi j } : Cell)).filter fun c => inside H.exts c.x
      (T.legal = false → exec st s = .next (s.trapHere 3 0)) ∧
      (T.legal = true →
        (∀ f, s.checkHandle s.cur H true = some f → exec st s = .next (s.handleFault f h true H)) ∧
        (s.checkHandle s.cur H true = none →
          (s.planCells s.cur H (s.rounding m) cells = .partBlock → exec st s = .next (s.trapHere 4 (BitVec.ofNat 64 (h.toNat + 16)))) ∧
          (∀ f off, s.planCells s.cur H (s.rounding m) cells = .mem f off →
            (s.forwardsTst = false ∨ H.keep = true → exec st s = .next (s.wordFault f (tensorAddr H.tid off))) ∧
            (s.forwardsTst = true → H.keep = false → exec st s = .next (s.elideTile H T cells))) ∧
          (∀ p, s.planCells s.cur H (s.rounding m) cells = .ok p →
            let noted := if s.forwardsTst = true then s.elideTile H T cells
              else s.mapCur fun n => n.noteWrite H (n.window H) (leastCensus p.census) (p.sat || T.sat) (cells.any (·.poison))
            let t := (noted.forget (p.writes.map fun w => w.place)).doWrites s.cur.desc.uid 1 (some s.bnd.addr) p.writes
            (s.forwardsTst = true → H.keep = false → exec st s = .next noted) ∧
            (s.forwardsTst = false ∨ H.keep = true → (t.node s.cur.desc.uid).overBudget = true → exec st s = .next (t.memFault s.cur.desc.uid .overflow)) ∧
            (s.forwardsTst = false ∨ H.keep = true → (t.node s.cur.desc.uid).overBudget = false → exec st s = .next t ∧
              (Canonical s → SameMemoryBut s t fun x => ∃ w ∈ p.writes, ∃ g, w.place = .phys x g) ∧
              (s.cur.desc.image.unstg = false → t.mem = s.mem) ∧ t.cur.ctl.flight = s.cur.ctl.flight ∧ t.cur.regs.tile = s.cur.regs.tile ∧ t.cur.regs.s = s.cur.regs.s)) ∧
          (s.forwardsTst = true →
            let w := fmtWidth H.fmt
            let t := s.elideTile H T cells
            ∃ tile : Tile,
              t.pair.bufs = (s.pair.bufs.map fun b => if b.pAddr = s.bnd.addr ∧ b.odd = (s.pair.pIter % 2 == 1) then
                { b with iter := some s.pair.pIter, taken := false, tile := tile, shape := s.cur.regs.ts[T.slot.toNat], h := H } else b) ∧
              (∀ j < T.n, tileBits tile.bits T.w j = (if inside H.exts (at_ j) then lowBits T.w (clampTo w false (T.get false j)) else 0) ∧
                elemPoison tile.poison T.w j = (inside H.exts (at_ j) && T.poi j)) ∧
              t.mem = s.mem ∧ t.nodes = s.nodes ∧
              t.cur = s.cur.noteWrite H (s.cur.window H) (leastCensus (cells.map fun c => censusValue (clampTo w false c.v) 0))
                (T.sat || cells.any fun c => clamps w false c.v) (cells.any (·.poison))))))

/-- MBEG, MEND and MZERO (R223): MBEG opens a closed accumulator at count 0, with the sums of its rows and columns when it checks; MEND closes an open one,
and the run in progress ends after every product issued before, those that a handler's entry has recorded among them (R349); MZERO clears a closed one; each of them on the other state takes the matrix chain fault
(R224). -/
def Obligations.MatrixChains : Prop :=
  ∀ (s : State) (q : BitVec 2) (a : BitVec 4) (k : BitVec 1),
    let x := s.accOf a
    let mc := matrixCols s.slabs
    let others := fun (t : State) => { t.cur.regs with acc := s.cur.regs.acc } = s.cur.regs ∧
      ∀ b : Fin 10, b.val ≠ a.toNat → t.cur.regs.acc[b] = s.cur.regs.acc[b]
    (Runs (.mbeg q a k) s →
      (x.opened = true → exec (.mbeg q a k) s = .next (s.trapHere 0x0A 0)) ∧
      (x.opened = false → k ≠ 1 → ∃ t, exec (.mbeg q a k) s = .next t ∧ t.cur.regs.acc[a.toNat]? = some { x with opened := true, count := 0, ckv := false } ∧
        others t ∧ t.cur.ctl = s.cur.ctl ∧ t.mem = s.mem) ∧
      (x.opened = false → k = 1 → ∃ t rc cc, exec (.mbeg q a k) s = .next t ∧
        t.cur.regs.acc[a.toNat]? = some { x with opened := true, count := 0, ckv := true, rc := rc, cc := cc } ∧ others t ∧ t.mem = s.mem ∧
        (∀ i < matrixRows s.slabs, rc / 2 ^ (64 * i) % 2 ^ 64 = lowBits 64 (((List.range mc).map fun j => packGet 48 (s.accAfter a).base (i * mc + j)).sum)) ∧
        (∀ j < mc, cc / 2 ^ (64 * j) % 2 ^ 64 =
          lowBits 64 (((List.range (matrixRows s.slabs)).map fun i => packGet 48 (s.accAfter a).base (i * mc + j)).sum)))) ∧
    (Runs (.mend q a) s →
      (x.opened = false → exec (.mend q a) s = .next (s.trapHere 0x0A 0)) ∧
      let c := s.cur.ctl
      let free := fun (l : List InFlight) => ∀ f ∈ l, f.eff.forAcc a = false
      let last := fun (l : List InFlight) (d : Nat) => 0 < d ∧ (∃ f ∈ l, f.eff.forAcc a = true ∧ f.dist = d) ∧ ∀ f ∈ l, f.eff.forAcc a = true → f.dist ≤ d
      let ends := fun (ctl : Ctl) => ∃ t, exec (.mend q a) s = .next t ∧ t.cur.regs.acc[a.toNat]? = some { x with opened := false } ∧ others t ∧ t.cur.ctl = ctl ∧ t.mem = s.mem
      (x.opened = true → free c.uiFlight → free c.trapFlight → free c.flight → ∃ t, exec (.mend q a) s = .next t ∧
        t.cur.regs.acc[a.toNat]? = some { x with opened := false, ended := x.ended ++ [x.part], part := 0 } ∧ others t ∧ t.cur.ctl = s.cur.ctl ∧ t.mem = s.mem) ∧
      (x.opened = true → free c.uiFlight → free c.trapFlight → ∀ d, last c.flight d → ends { c with flight := c.flight ++ [{ dist := d, eff := .accEnd a }] }) ∧
      (x.opened = true → free c.uiFlight → ∀ d, last c.trapFlight d → ends { c with trapFlight := c.trapFlight ++ [{ dist := d, eff := .accEnd a }] }) ∧
      (x.opened = true → ∀ d, last c.uiFlight d → ends { c with uiFlight := c.uiFlight ++ [{ dist := d, eff := .accEnd a }] })) ∧
    (Runs (.mzero q a) s →
      (x.opened = true → exec (.mzero q a) s = .next (s.trapHere 0x0A 0)) ∧
      (x.opened = false → exec (.mzero q a) s = .next (s.withResults [{ dist := 1, eff := .accZero a }]))) ∧
    (∀ (r : Regs) (n : Nat) (b : Fin 10), (r.apply n (.accZero (BitVec.ofNat 4 b.val))).acc[b] =
      { r.acc[b] with base := 0, ended := [], part := 0, sat := 0, poison := 0, sticky := false, ckv := false })

/-- MMA and MMAT (R225): 24 bundles later the accumulator takes, for every element, the sum of the products of its row and its column over all k-steps, cut
into runs of 65,536 k-steps (R48), each segment holding exactly the k-steps of its run, which joins the run in progress when the product is due and ends it at its
boundary; the checksums grow by its sums (R234); the chain's count grows, a product outside a chain is a run of its own, poison of an operand reaches its row or column, and
a check handle of the wrong block direction or a shape that does not fit takes its fault. -/
def Obligations.MatrixProducts : Prop :=
  ∀ (s : State) (q : BitVec 2) (d : BitVec 4) (a b : BitVec 6) (ext : Option (BitVec 25)) (t : Bool),
    let i : Instr := if t then .mmat q d a b ext else .mma q d a b ext
    let A := s.tv a
    let B := s.tv b
    let mr := matrixRows s.slabs
    let mc := matrixCols s.slabs
    let x := s.accOf d
    let K := if t then A.rows else A.cols
    let M := if t then mr else A.rows
    let N := if t then mc else B.rows
    let ia := fun i k => if t then k * A.cols + i else i * A.cols + k
    let ib := fun j k => if t then k * B.cols + j else j * B.cols + k
    let fits := A.legal = true ∧ B.legal = true ∧ A.w = B.w ∧ A.w ≤ 16 ∧ (if t then A.rows = B.rows else A.cols = B.cols ∧ A.rows ≤ mr ∧ B.rows ≤ mc)
    let e := ext.getD 0
    let bad := fun (lo : Nat) (on : Nat) => e.getLsbD on && checkHandleBad s.cur.regs.h[(e.extractLsb' lo 4).toNat] t
    Runs i s →
      (¬ fits → exec i s = .next (s.trapHere 3 0)) ∧
      (fits → bad 0 4 = true → exec i s = .next (s.trapHere 4 (BitVec.ofNat 64 (e.extractLsb' 0 4).toNat))) ∧
      (fits → bad 0 4 = false → bad 5 9 = true → exec i s = .next (s.trapHere 4 (BitVec.ofNat 64 (e.extractLsb' 5 4).toNat))) ∧
      (fits → bad 0 4 = false → bad 5 9 = false → ∃ (segs : List (Nat × Bool)) (poison rc cc : Nat),
        exec i s = .next ((if x.opened then s.setAcc d { x with count := x.count + K } else s).withResults
          [{ dist := 24, eff := .acc d segs poison (A.sat || B.sat) x.ckv rc cc }]) ∧
        (∀ r < mr, ∀ c < mc,
          (segs.map fun g => packGet 48 g.1 (r * mc + c)).sum =
            (if r < M ∧ c < N then ((List.range K).map fun k => A.get false (ia r k) * B.get false (ib c k)).sum else 0) ∧
          poison.testBit (r * mc + c) = (decide (r < M) && decide (c < N) && (((List.range K).any fun k => A.poi (ia r k)) || (List.range K).any fun k => B.poi (ib c k)))) ∧
        (segs.filter (·.2)).length = (if x.opened then (x.count % 65536 + K) / 65536 else K / 65536 + 1) ∧
        (let first := if x.opened then x.count else 0
          ∀ (z : Nat) (g : Nat × Bool), segs[z]? = some g →
            g.2 = (decide (65536 * (first / 65536 + z + 1) ≤ first + K) || (!x.opened && z + 1 == segs.length)) ∧
            ∀ r < mr, ∀ c < mc, packGet 48 g.1 (r * mc + c) = (if r < M ∧ c < N then
              (((List.range K).filter fun k => (first + k) / 65536 == first / 65536 + z).map fun k => A.get false (ia r k) * B.get false (ib c k)).sum else 0)) ∧
        (x.ckv = true → ∀ r < mr, rc / 2 ^ (64 * r) % 2 ^ 64 =
          lowBits 64 (if r < M then ((List.range K).map fun k => A.get false (ia r k) * ((List.range N).map fun c => B.get false (ib c k)).sum).sum else 0)) ∧
        (x.ckv = true → ∀ c < mc, cc / 2 ^ (64 * c) % 2 ^ 64 =
          lowBits 64 (if c < N then ((List.range K).map fun k => ((List.range M).map fun r => A.get false (ia r k)).sum * B.get false (ib c k)).sum else 0))) ∧
    (∀ (r : Regs) (n : Nat) (x : Acc) (segs : List (Nat × Bool)) (poison rc cc : Nat) (sticky ck : Bool), r.acc[d.toNat]? = some x →
      ∃ y, (r.apply n (.acc d segs poison sticky ck rc cc)).acc[d.toNat]? = some y ∧ y.base = x.base ∧ y.sat = x.sat ∧ y.opened = x.opened ∧ y.count = x.count ∧
        y.ckv = x.ckv ∧ y.poison = x.poison ||| poison ∧ y.sticky = (x.sticky || sticky) ∧ y.ended = (x.addSegs (accElems n) segs).ended ∧
        y.part = (x.addSegs (accElems n) segs).part ∧
        (∀ i < matrixRows n, y.rc / 2 ^ (64 * i) % 2 ^ 64 = (if ck then (x.rc / 2 ^ (64 * i) + rc / 2 ^ (64 * i)) % 2 ^ 64 else x.rc / 2 ^ (64 * i) % 2 ^ 64)) ∧
        (∀ j < matrixCols n, y.cc / 2 ^ (64 * j) % 2 ^ 64 = (if ck then (x.cc / 2 ^ (64 * j) + cc / 2 ^ (64 * j)) % 2 ^ 64 else x.cc / 2 ^ (64 * j) % 2 ^ 64))) ∧
    (∀ (x : Acc) (m v : Nat) (rest : List (Nat × Bool)),
      x.addSegs m [] = x ∧
      ∃ w, x.addSegs m ((v, false) :: rest) = ({ x with part := w } : Acc).addSegs m rest ∧
        x.addSegs m ((v, true) :: rest) = ({ x with ended := x.ended ++ [w], part := 0 } : Acc).addSegs m rest ∧
        ∀ i < m, -(2 ^ 47) ≤ packGet 48 x.part i + packGet 48 v i → packGet 48 x.part i + packGet 48 v i < 2 ^ 47 →
          packGet 48 w i = packGet 48 x.part i + packGet 48 v i)

/-- The end of a run (R48, R226): its exact sum is added to each element with saturation to 48 bits, an element that has saturated keeps its value, and SAT
and the sticky bit are set; MATRIX_RUN_END does so for the oldest run that has ended, of the current node and of any other, whatever else the node does. -/
def Obligations.RunsSaturate : Prop :=
  (∀ (a : Acc) (n run : Nat), (a.addRun n run).poison = a.poison ∧ (a.addRun n run).opened = a.opened ∧
    ∀ i < n,
      let sum := packGet 48 a.base i + packGet 48 run i
      packGet 48 (a.addRun n run).base i = (if a.sat.testBit i then packGet 48 a.base i else clampTo 48 false sum) ∧
      (a.addRun n run).sat.testBit i = (a.sat.testBit i || clamps 48 false sum) ∧
      (a.sat.testBit i = false → clamps 48 false sum = true → (a.addRun n run).sticky = true)) ∧
  (∀ (s : State) (a : BitVec 4) (r : Nat) (rest : List Nat), a.toNat < 10 → ((s.accOf a).ended = r :: rest) →
    exec (.matrixRunEnd s.cur.desc.uid a) s = .next (s.setAcc a { (s.accOf a).addRun (accElems s.slabs) r with ended := rest })) ∧
  (∀ (s : State) (a : BitVec 4), (s.accOf a).ended = [] → exec (.matrixRunEnd s.cur.desc.uid a) s = .fault (.notEnabled "MATRIX_RUN_END")) ∧
  (∀ (s : State) (uid : Nat) (a : BitVec 4),
    let n := s.node uid
    (∀ x r rest, n.regs.acc[a.toNat]? = some x → x.ended = r :: rest → exec (.matrixRunEnd uid a) s =
      .next (s.setNode { n with regs := { n.regs with acc := n.regs.acc.setIfInBounds a.toNat { x.addRun (accElems n.run.gangWidth) r with ended := rest } } })) ∧
    ((∀ x, n.regs.acc[a.toNat]? = some x → x.ended = []) → exec (.matrixRunEnd uid a) s = .fault (.notEnabled "MATRIX_RUN_END")))

/-- The epilogue words (R224 to R234): on an open accumulator the chain fault; EPI gives a block of tile elements their narrowed values and leaves the others,
EPI.ADD and EPI.SEND queue their narrowed values behind the earlier commands and wait while the queue is full, with their handle, format and route faults,
EPI.SEND takes the next SEQ of its route and cannot be rolled back, and EPI.CK tells whether the sums of the rows and columns agree with the checksums.
That the coordinates beyond hN's RANK count as 0 in the index is the model's reading (log entry 66), and so is the order of the chain, route and handle faults
(log entry 19); that EPI's census counts the elements beyond hN's extents is its choice (log entry 84). -/
def Obligations.EpilogueWords : Prop :=
  ∀ (s : State) (q : BitVec 2) (t : BitVec 6) (a h : BitVec 4) (cq rq m r : BitVec 2) (sh : BitVec 5) (e1 l1 : BitVec 1) (o : BitVec 4) (p : BitVec 3) (ext : Option (BitVec 25)),
    let x := (s.accOf a).read (accElems s.slabs)
    let D := s.tv t
    let mr := matrixRows s.slabs
    let mc := matrixCols s.slabs
    let H := s.cur.regs.h[h.toNat]
    let er := s.cur.regs.e[r.toNat]
    let row0 := 64 * rq.toNat
    let col0 := 64 * cq.toNat
    let e := ext.getD 0
    let hx := e.getLsbD 5
    let X := s.cur.regs.h[(e.extractLsb' 1 4).toNat]
    let k := s.epiShift sh ext
    let val : Word := BitVec.ofNat 64 (h.toNat + 16)
    let iEpi : Instr := .epi q t a cq rq m sh ext
    let iAdd : Instr := .epiAdd q h a m sh e1 l1 o ext
    let iSend : Instr := .epiSend q r h a m sh ext
    let iCk : Instr := .epiCk q p a
    ((s.accOf a).opened = true → ∀ i ∈ [iEpi, iAdd, iSend, iCk], Runs i s → exec i s = .next (s.trapHere 0x0A 0)) ∧
    ((s.accOf a).opened = false →
      (Runs iEpi s →
        (¬ (D.legal = true ∧ row0 < mr ∧ col0 + mc ≤ D.cols) → exec iEpi s = .next (s.trapHere 3 0)) ∧
        (D.legal = true ∧ row0 < mr ∧ col0 + mc ≤ D.cols →
          let in_ := fun i j => i < mr - row0 ∧ col0 ≤ j ∧ j < col0 + mc
          let from_ := fun i j => (row0 + i) * mc + (j - col0)
          let coords := fun i j => ([X.org 0 + j, X.org 1 + i, X.org 2, X.org 3, X.org 4].zipIdx.map fun e => if e.2 < X.rank then e.1 else 0 : List Nat)
          let idx := fun i j => if hx then linIndex X.exts (coords i j) else i * D.cols + j
          let v := fun i j => narrow m s.cur.ctl.seed.toNat s.cur.ctl.step.toNat (idx i j) (packGet 48 x.base (from_ i j)) k D.w
          ∃ mask bits poison sat, exec iEpi s = .next ((if hx then s.mapCur fun n => n.noteWrite X (n.window X)
              (leastCensus ((List.range (min D.rows (mr - row0))).flatMap fun i => (List.range mc).map fun j => headroom 32 (v i (col0 + j)).1)) false false else s).withResults
              [{ dist := 8, eff := .tile D.slot mask bits poison sat false }]) ∧
            (∀ i < D.rows, ∀ j < D.cols,
              (in_ i j → tileBits mask D.w (i * D.cols + j) = 2 ^ D.w - 1 ∧ tileBits bits D.w (i * D.cols + j) = lowBits D.w (v i j).1 ∧
                elemPoison poison D.w (i * D.cols + j) = x.poison.testBit (from_ i j)) ∧
              (¬ in_ i j → tileBits mask D.w (i * D.cols + j) = 0 ∧ tileBits bits D.w (i * D.cols + j) = 0 ∧ elemPoison poison D.w (i * D.cols + j) = false)) ∧
            (sat = true ↔ x.sticky = true ∨ ∃ i j, i < D.rows ∧ j < D.cols ∧ in_ i j ∧ (v i j).2 = true))) ∧
      (Runs iAdd s →
        (∀ f, s.checkHandle s.cur H true = some f → exec iAdd s = .next (s.engineFault f h true H)) ∧
        (s.checkHandle s.cur H true = none → H.fmt ≠ 3 → exec iAdd s = .next (s.trapHere 4 val)) ∧
        (s.checkHandle s.cur H true = none → H.fmt = 3 → 8 ≤ s.cur.eng.epi.length → exec iAdd s = .next s.delay) ∧
        (s.checkHandle s.cur H true = none → H.fmt = 3 → s.cur.eng.epi.length < 8 → exec iAdd s = .next (s.mapEng fun g => { g with
          nextOrd := g.nextOrd + 1
          epi := g.epi ++ [.add { h := H, vals := s.epiVals x H m k 32, sticky := x.sticky, win := s.cur.window H, acq := e1 == 1, ord := g.nextOrd }] }))) ∧
      (Runs iSend s →
        (routeBad er = true → exec iSend s = .next (s.trapHere 7 0)) ∧
        (routeBad er = false → handleStep1 H = false → exec iSend s = .next (s.trapHere 5 val)) ∧
        (routeBad er = false → handleStep1 H = true → handleStep2 s.cur H = false ∨ fmtBlock H.fmt = true → exec iSend s = .next (s.trapHere 4 val)) ∧
        (routeBad er = false → handleStep1 H = true → handleStep2 s.cur H = true → fmtBlock H.fmt = false →
          (8 ≤ s.cur.eng.epi.length → exec iSend s = .next s.delay) ∧
          (s.cur.eng.epi.length < 8 → ∃ u c, exec iSend s = .next u ∧ u.cur.run.irrev = true ∧ u.cur.eng = { s.cur.eng with nextOrd := s.cur.eng.nextOrd + 1, epi := s.cur.eng.epi ++ [.send c] } ∧
            u.cur.ctl.flight = s.cur.ctl.flight ++ [{ dist := 1, eff := .e r (routeNext er) }] ∧ u.mem = s.mem ∧ u.nodes = s.nodes ∧
            c.epi = true ∧ c.route = r ∧ c.er = er ∧ c.hD = H ∧ c.extents = [mc, mr, 1, 1, 1] ∧ c.sent = false ∧ c.ord = s.cur.eng.nextOrd ∧
            c.payload = (s.epiVals x H m k (fmtWidth H.fmt)).map fun v => { e := v.v, m := 0, poison := v.poison }))) ∧
      (Runs iCk s →
        (x.ckv = false → exec iCk s = .next (s.trapHere 0x0A 0)) ∧
        (x.ckv = true → x.poison ≠ 0 → exec iCk s = .next s.consume) ∧
        (x.ckv = true → x.poison = 0 → exec iCk s = .next (s.withResults (predResult 8 p
          (packList 64 (rowSums mr mc (x.elems s.slabs)) == x.rc && packList 64 (colSums mr mc (x.elems s.slabs)) == x.cc))))) ∧
      (∀ v ∈ s.epiVals x H m k 32, ∃ n < mr * mc, v.v = (narrow m s.cur.ctl.seed.toNat s.cur.ctl.step.toNat (linIndex H.exts (accCell H mc n)) (packGet 48 x.base n) k 32).1 ∧
        v.poison = x.poison.testBit n))

/-- The copy words at issue (R273 to R279): the copy command fault, the handle faults in the order of R277 and the format fault; else the command joins its
slot's queue with all that it read at issue, or, a CPYQ below its threshold, is armed, and a full queue delays the bundle, as does a command of the slot, of whichever resident
node, that has fired and found no room (log entry 33), and as do eight armed commands, of which one that has fired keeps its place until it joins (R353). A node that
is still to be resumed has none of its commands in the slot (R356). CPYCAN issues for each slot that it names, and takes effect in a later step (R282): of the commands that the node issued before it,
the armed ones leave the slot, and so do those behind the last command that has begun writing; the other slot stays as it is. How far the engine has come by then is left open (log
entry 32). -/
def Obligations.CopyWords : Prop :=
  ∀ (s : State) (q : BitVec 2) (g hd hs w : BitVec 4) (v : BitVec 5) (ca cb : BitVec 1),
    let sw := s.cur.s (BitVec.ofNat 5 (2 * w.toNat))
    let sw1 := s.cur.s (BitVec.ofNat 5 (2 * w.toNat + 1))
    let hD := s.cur.regs.h[hd.toNat]
    let hS := s.cur.regs.h[hs.toNat]
    let forms : List (Instr × CopyKind × Option Handle × BitVec 4 × Word) :=
      [(.cpy q g hd hs w, .cpy, some hS, hs, 0), (.cpyk q g hd hs w, .cpyk, some hS, hs, 0), (.cpyf q g hd w v, .cpyf, none, 0, s.cur.s v),
       (.cpyb q g hd hs w v, .cpyb, some hS, hs, s.cur.s v), (.cpyq q g hd hs w v, .cpyq, some hS, hs, s.cur.s v)]
    (∀ f ∈ forms, Runs f.1 s →
      let i := f.1
      let k := f.2.1
      let src := f.2.2.1
      let x := f.2.2.2.2
      let b := s.bnd.slotCB
      let uid := s.cur.desc.uid
      let cmd : CopyCmd := { kind := k, hD := hD, hS := src.getD 0, sw := sw, sw1 := sw1, x := x, seed := s.cur.ctl.seed, step := s.cur.ctl.step, addr := s.bnd.addr,
                             win := s.cur.window hD, word := (encode i).headD 0, ord := s.cur.eng.nextOrd }
      let behind : Prop := ∃ n ∈ s.sharers uid, ∃ c ∈ n.eng.armedOf b, c.fired = true
      let armed := s.cur.eng.armedOf b
      let fires := k ≠ .cpyq ∨ trigThreshold x ≤ (s.cur.regs.c[trigCounter x]?.getD 0).toNat
      (copyBad k s.cur.desc.image.uirq sw sw1 x = true → exec i s = .next (s.trapHere 8 0)) ∧
      (copyBad k s.cur.desc.image.uirq sw sw1 x = false →
        (∀ e, s.copyHandles s.cur src hD = some (e, true) → exec i s = .next (s.engineFault e hd true hD)) ∧
        (∀ e, s.copyHandles s.cur src hD = some (e, false) → exec i s = .next (s.engineFault e f.2.2.2.1 false (src.getD 0))) ∧
        (s.copyHandles s.cur src hD = none →
          (copyFormat k src hD (windowExts sw sw1) x = some true → exec i s = .next (s.trapHere 4 (BitVec.ofNat 64 (hd.toNat + 16)))) ∧
          (copyFormat k src hD (windowExts sw sw1) x = some false → exec i s = .next (s.trapHere 4 (BitVec.ofNat 64 f.2.2.2.1.toNat))) ∧
          (copyFormat k src hD (windowExts sw sw1) x = none →
            (fires → s.slotLoad uid b < 16 → ¬ behind → exec i s = .next (s.mapEng fun n =>
              ({ n with nextOrd := n.nextOrd + 1 } : Eng).setQueue b (n.queue b ++ [{ cmd with seq := s.nextSeq uid b }]))) ∧
            (fires → 16 ≤ s.slotLoad uid b ∨ behind → exec i s = .next s.delay) ∧
            (¬ fires → armed.length < 8 → exec i s = .next (s.mapEng fun n =>
              ({ n with nextOrd := n.nextOrd + 1 } : Eng).setArmed b (n.armedOf b ++ [cmd]))) ∧
            (¬ fires → 8 ≤ armed.length → exec i s = .next s.delay))))) ∧
    (Runs (.cpycan q g ca cb) s → exec (.cpycan q g ca cb) s = .next (s.mapEng fun e => { e with
      cancels := e.cancels ++ (if ca = 1 then [(false, e.nextOrd)] else []) ++ (if cb = 1 then [(true, e.nextOrd)] else []) })) ∧
    (∀ (uid : Nat) (b : Bool) (k : Nat) (rest : List Agendum), s.agenda = .cancel uid b :: rest → s.cur.desc.uid = uid → s.cur.live = true →
      s.cur.eng.cancels.find? (fun c => c.1 == b) = some (b, k) →
      let e := s.cur.eng
      ∃ t, step s = .next t ∧ t.mem = s.mem ∧ t.cur.regs = s.cur.regs ∧ t.cur.ctl = s.cur.ctl ∧ t.nodes = s.nodes ∧
        (∃ begun stay : List CopyCmd, e.queue b = begun ++ stay ∧ (∀ c ∈ begun.getLast?, c.progress.done ≠ []) ∧ (∀ c ∈ stay, c.progress.done = []) ∧
          t.cur.eng.queue b = begun ++ stay.filter fun c => decide (k ≤ c.ord)) ∧
        t.cur.eng.armedOf b = (e.armedOf b).filter (fun c => decide (k ≤ c.ord)) ∧
        t.cur.eng.queue (!b) = e.queue (!b) ∧ t.cur.eng.armedOf (!b) = e.armedOf (!b) ∧
        { t.cur.eng with ca := e.ca, cb := e.cb, caArmed := e.caArmed, cbArmed := e.cbArmed } = { e with cancels := e.cancels.erase (b, k) }) ∧
    (∀ (uid : Nat) (k : Core) (b : Bool), s.coreOf uid = some k →
      (∀ n, n ∈ s.sharers uid ↔ ∃ u ∈ k.slots.toList, u ≠ 0 ∧ n = s.node u ∧ (n.desc.uid = uid ∨ n.run.st ≠ .placed)) ∧
      s.slotLoad uid b = ((s.sharers uid).map fun n => (n.eng.queue b).length).sum)

/-- The link words at issue (R331 to R342): the route fault, the copy command fault, the handle and format faults; else SEND joins the link queue, SENDT does
so once its counter has reached its threshold and is armed before, COLL is registered with the unit, and ABORT withdraws the last collective of its route;
each makes the run irreversible, and all but ABORT take the next SEQ of the route. A COLL that reads a window waits while an earlier command of the node's
link engine still has to write or read one of its bytes (R288, R294), with ORIG until the collective buffer of 16 MiB has room for its payload (R341), and, with ACQ, until
every earlier command has been performed (R292); one of an aborted tag completes ABORTED, one of a registered tag and one
whose source takes an access fault set FAULT(LINK) (R342, R395). An ABORT is outstanding while a port holds its control flit. The waits of a COLL, the record of one of an
aborted tag and none on a fault are the model's reading (log entry 35), with the slot bit of the record a free value (log entries 7 and 34); so is the delay of a send behind
one that has fired without room (log entry 33), which keeps its place among the sixteen armed ones until it joins (R353). -/
def Obligations.LinkWords : Prop :=
  ∀ (s : State) (q : BitVec 2) (g hd hs w : BitVec 4) (r : BitVec 2) (trig : Bool),
    let er := s.cur.regs.e[r.toNat]
    let sw := s.linkReg w 0
    let c := s.linkReg w 1
    let tr := if trig then s.linkReg w 2 else 0
    let hD := s.cur.regs.h[hd.toNat]
    let hS := s.cur.regs.h[hs.toNat]
    let exts := windowExts sw c
    let send : Instr := if trig then .sendt q g hd hs w r else .send q g hd hs w r
    let offMap := s.link.dx ≤ (routeX er).toNat ∨ s.link.dy ≤ (routeY er).toNat ∨ s.link.dz ≤ (routeZ er).toNat
    let fires := trig = false ∨ trigThreshold tr ≤ (s.cur.regs.c[trigCounter tr]?.getD 0).toNat
    let cmd : SendCmd := { epi := false, route := r, er := er, hD := hD, hS := hS, sw := sw, ctrl := c, trigger := tr, payload := [], extents := exts,
                           coreIdx := BitVec.ofNat 10 s.focus, sent := false, ord := s.cur.eng.nextOrd }
    let behind : Prop := ∃ c ∈ s.cur.eng.armed, c.fired = true
    let uid := s.cur.desc.uid
    let take := fun (e : Eng) => { e with nextOrd := e.nextOrd + 1 }
    let goes := fun (f : Eng → Eng) => (((s.mapRun fun x => { x with irrev := true }).mapEng f).withResults [{ dist := 1, eff := .e r (routeNext er) }])
    (Runs send s →
      (routeBad er = true ∨ offMap → exec send s = .next (s.trapHere 7 0)) ∧
      (¬ (routeBad er = true ∨ offMap) →
        (sendBad s.cur.desc.image.uirq trig sw c tr = true → exec send s = .next (s.trapHere 8 0)) ∧
        (sendBad s.cur.desc.image.uirq trig sw c tr = false →
          (∀ f dest, s.linkHandles (some hS) hD = some (f, dest) → exec send s = .next (s.linkFault f dest hd hs)) ∧
          (s.linkHandles (some hS) hD = none →
            (copyFormat .cpy (some hS) hD exts 0 = some true → exec send s = .next (s.trapHere 4 (BitVec.ofNat 64 (hd.toNat + 16)))) ∧
            (copyFormat .cpy (some hS) hD exts 0 = some false → exec send s = .next (s.trapHere 4 (BitVec.ofNat 64 hs.toNat))) ∧
            (copyFormat .cpy (some hS) hD exts 0 = none →
              (fires → s.cur.eng.sends.length < 16 → ¬ behind → exec send s = .next (goes fun e => { e with nextOrd := e.nextOrd + 1, sends := e.sends ++ [cmd] })) ∧
              (fires → 16 ≤ s.cur.eng.sends.length ∨ behind → exec send s = .next s.delay) ∧
              (¬ fires → s.cur.eng.armed.length < 16 → exec send s = .next (goes fun e => { e with nextOrd := e.nextOrd + 1, armed := e.armed ++ [cmd] })) ∧
              (¬ fires → 16 ≤ s.cur.eng.armed.length → exec send s = .next s.delay)))))) ∧
    (Runs (.coll q g hd hs w r) s →
      let tag : CollTag := { space := s.cur.desc.queue, route := r, seq := routeSeq er }
      (routeBad er = true → exec (.coll q g hd hs w r) s = .next (s.trapHere 7 0)) ∧
      (routeBad er = false → collBad s.cur.desc.image.uirq hs hS hD sw c (s.linkReg w 2) (s.linkReg w 3) = true → exec (.coll q g hd hs w r) s = .next (s.trapHere 8 0)) ∧
      (routeBad er = false → collBad s.cur.desc.image.uirq hs hS hD sw c (s.linkReg w 2) (s.linkReg w 3) = false →
        let src := lnkOrig c || lnkContr c
        let coll := fun (h : Handle) => h.fmt = 1 ∨ h.fmt = 2 ∨ h.fmt = 3
        (∀ f dest, s.linkHandles (if src then some hS else none) hD = some (f, dest) → exec (.coll q g hd hs w r) s = .next (s.linkFault f dest hd hs)) ∧
        (s.linkHandles (if src then some hS else none) hD = none →
          (src = true → ¬ coll hS → exec (.coll q g hd hs w r) s = .next (s.trapHere 4 (BitVec.ofNat 64 hs.toNat))) ∧
          ((src = true → coll hS) → ¬ coll hD → exec (.coll q g hd hs w r) s = .next (s.trapHere 4 (BitVec.ofNat 64 (hd.toNat + 16)))) ∧
          (let ord := s.cur.eng.nextOrd
           let window := (uid, s.windowPlaces s.cur hS exts false (List.range (prodN exts)))
           let clash := ∃ x ∈ s.linkWrites s.cur ord ++ s.linkReads s.cur ord, placesMeet window x = true
           let buffered := ((s.link.waiting ++ (s.link.held.map fun h => h.pkt) ++ s.link.unpassed.map fun u => u.copy.pkt).map fun p => ceilDiv (p.elems.length * p.width) 8).sum
           let full := lnkOrig c = true ∧ 2 ^ 24 < buffered + ceilDiv (prodN exts * fmtWidth hS.fmt) 8
           let waits : Prop := src = true ∧ (clash ∨ full ∨ (ctlAcq c = 1 ∧ ¬ (s.cur.eng.acquired 3 s.cur.eng.nextOrd = true ∧ s.cur.eng.sends = [] ∧ s.cur.eng.colls = [])))
           ((src = true → coll hS) → coll hD → waits → exec (.coll q g hd hs w r) s = .next s.delay) ∧
           ((src = true → coll hS) → coll hD → ¬ waits → s.link.tagAborted tag = true →
            let u := if lnkRecv c then (goes take).addCounter uid (ctlCnt c) abortMark else goes take
            (ctlUi c = false → exec (.coll q g hd hs w r) s = .next u) ∧
            (ctlUi c = true → ∃ b, exec (.coll q g hd hs w r) s = .next (({ u with free := u.free + 1 } : State).mapCur fun n => n.addRecord b (ctlCnt c)))) ∧
           ((src = true → coll hS) → coll hD → ¬ waits → s.link.tagAborted tag = false → s.link.registered.any (fun e => e.1 == tag) = true →
            exec (.coll q g hd hs w r) s = .next ((goes take).linkFlag uid 0x22)) ∧
           ((src = true → coll hS) → coll hD → ¬ waits → s.link.tagAborted tag = false → s.link.registered.any (fun e => e.1 == tag) = false →
            let k : CollCmd := { tag := tag, orig := lnkOrig c, contr := lnkContr c, recv := lnkRecv c, cnt := ctlCnt c, ui := ctlUi c, hD := hD, exts := exts,
                                 origDone := false, contrDone := false, recvDone := false, ord := s.cur.eng.nextOrd, core := s.focus }
            let u := goes fun e => { take e with colls := e.colls ++ [k] }
            let joined : State := { u with link := { u.link with registered := u.link.registered ++ [(tag, s.cur.desc.uid)],
                                                                 aborted := u.link.aborted.filter fun t => t != tag } }
            (src = false → exec (.coll q g hd hs w r) s = .next joined) ∧
            (src = true → joined.readWindow uid hS exts = .error .access →
              exec (.coll q g hd hs w r) s = .next (((joined.mapColl uid tag fun c => { c with ui := false }).startAbort tag).linkFlag uid 0x24)) ∧
            (src = true → ∀ f, f ≠ .access → joined.readWindow uid hS exts = .error f → exec (.coll q g hd hs w r) s = .next (joined.memFault uid f)) ∧
            (∀ es v, joined.readWindow s.cur.desc.uid hS exts = .ok (es, v) → lnkContr c = true → exec (.coll q g hd hs w r) s = .next { v with link := { v.link with
              contribs := v.link.contribs ++ [{ tag := tag, uid := s.cur.desc.uid, width := fmtWidth hS.fmt, elems := es }] } }) ∧
            (∀ es v, joined.readWindow s.cur.desc.uid hS exts = .ok (es, v) → lnkOrig c = true → exec (.coll q g hd hs w r) s = .next { v with link := { v.link with
              waiting := v.link.waiting ++ [{ tag := tag, ops := opList (s.linkReg w 2) (s.linkReg w 3) (lnkLen c), width := fmtWidth hS.fmt, elems := es, clamp := false,
                                              extents := exts, hD := hD, seed := s.cur.ctl.seed, step := s.cur.ctl.step, origin := true }] } })))))) ∧
    (Runs (.abort q g r) s →
      (routeBad er = true → exec (.abort q g r) s = .next (s.trapHere 7 0)) ∧
      (routeBad er = false →
        let tag : CollTag := { space := s.cur.desc.queue, route := r, seq := routeSeq er - 1 }
        let t := ((s.mapRun fun x => { x with irrev := true }).mapEng fun e => { e with aborts := e.aborts ++ [tag] }).startAbort tag
        exec (.abort q g r) s = .next (if t.portsHold (· == .abort tag) then t else t.mapEng fun e => { e with aborts := e.aborts.erase tag })))

/-! ## Traps, control registers, counters, waits and requests -/

/-- Taking a trap (R345 to R349, R357). With EN = 1 and ACT = 0 the handler is entered: cause, position, DLY, FA, RA and VAL are recorded, the results in
flight leave for the record, ACT is set, the shadow bank is selected, and issue goes on at VBASE plus 12 times the vector; the bundle has had no effect. In
every other case the node fails with NODE_TRAP. A compare trap with CRB = 1 rolls the node back instead, where that is allowed and is not the third in a row.
Every trap adds 1 to its cause's counter of the core (R345), and a third compare trap in a row is reported where its rollback would be allowed. Of these the following are the model's reading: the rewind to the
registers before the results that were due (log entry 16), a vector that is no multiple of 12 failing the node with cause 0x0C, which is counted, too (17), the waits that are kept (20), the third
compare trap in a row (59), and a census close in flight, which is no register result and goes on to take effect (60). -/
def Obligations.TrapEntry : Prop :=
  ∀ (s : State) (x : Cause),
    let before := s.rewind.countCore s.focus ("cause " ++ toString x.code.toNat)
    let n := before.cur
    let isCompare := x.code = 0x18 ∨ x.code = 0x19
    let back := isCompare ∧ n.ctl.trap.crb = true ∧ before.mayRollBack n.desc.uid = true ∧ n.run.compareRollbacks < 2
    let vector := BitVec.ofNat 22 (n.ctl.trap.vbase.toNat + 12 * trapVector x.code)
    let aligned := (if n.desc.image.ovl then vector.toNat % 65536 else vector.toNat) % 12 = 0
    let t := s.takeTrap x
    (¬ back → n.ctl.trap.en = true → n.ctl.trap.act = false → aligned →
      t.cur.ctl.trap = { n.ctl.trap with cause := x.code, pos := x.pos, dly := x.dly, fa := x.fa, ra := x.ra, recRa := x.ra, val := x.val, act := true } ∧
      t.cur.ctl.pc = vector ∧ t.cur.ctl.trapFlight = n.ctl.recorded ∧ t.cur.ctl.cwaiting = n.ctl.cwaiting ++ n.ctl.closing ∧ t.cur.ctl.flight = [] ∧ t.cur.ctl.bank = true ∧ t.cur.ctl.bankBefore = n.ctl.bank ∧
      t.cur.ctl.waits = [] ∧ t.cur.ctl.trapWaits = n.ctl.waits ∧ t.cur.ctl.mustIssue = false ∧ t.cur.ctl.trapMust = n.ctl.mustIssue ∧ t.cur.ctl.loops = n.ctl.loops ∧ t.cur.regs = n.regs ∧ t.cur.eng = n.eng ∧ t.mem = s.mem ∧
      t.nodes = s.nodes ∧ t.bnd.stop = .taken ∧ t.bnd.post = []) ∧
    (¬ (isCompare ∧ n.ctl.trap.crb = true) → n.ctl.trap.en = false ∨ n.ctl.trap.act = true → t = before.failNode n.desc.uid (stNodeTrap x.code)) ∧
    (¬ (isCompare ∧ n.ctl.trap.crb = true) → n.ctl.trap.en = true → n.ctl.trap.act = false → ¬ aligned →
      t = (before.countCore s.focus "cause 12").failNode n.desc.uid (stNodeTrap 0x0C)) ∧
    (isCompare → n.ctl.trap.crb = true → ¬ back → n.ctl.trap.en = false ∨ n.ctl.trap.act = true →
      t = (if before.mayRollBack n.desc.uid = true ∧ 2 ≤ n.run.compareRollbacks then before.countCore s.focus "reported for repair" else before).failNode n.desc.uid (stNodeTrap x.code)) ∧
    (back → t = ((before.countCore s.focus "compare rollbacks").mapRun fun r => { r with compareRollbacks := r.compareRollbacks + 1 }).rollback n.desc.uid none) ∧
    (∀ (r : Regs) (fl : List InFlight), s.bnd.before = some (r, fl) → n.regs = r ∧ n.ctl = { s.cur.ctl with flight := fl }) ∧ (s.bnd.before = none → n = s.cur) ∧
    (∀ (c : Ctl) (f : InFlight) (k : BitVec 6), (f ∈ c.recorded ↔ f ∈ c.flight ∧ ∀ j, f.eff ≠ .cenClose j) ∧ (k ∈ c.closing ↔ ∃ g ∈ c.flight, g.eff = .cenClose k)) ∧
    (∀ c : BitVec 7, trapVector c = if c.toNat ≤ 2 then 0 else if c.toNat ≤ 8 then 1 else if c.toNat ≤ 0xD then 2 else if c.toNat ≤ 0x12 then 3
      else if c.toNat ≤ 0x19 then 4 else if c.toNat = 0x1A then 5 else 6)

/-- TRAP, BRK and CMPT take their traps with the address of the next bundle and their code in VAL (R321, R322, R347); TRET and UIRET leave their handlers: the
bank and the recorded results come back, results of the handler that are not due are gone, ACT falls, and issue goes on at RA; outside a handler they take the
return fault, and TRET with an RA that R350 does not allow the target alignment fault. A delayed cause of a handler word is no result: TRET takes it with ACT =
1 (R351), and after UIRET it stays in flight, behind those issued earlier (R346). Which causes let RA be the address after the bundle (log entry 18), that an overlay image
counts packets from its segment (17), that a BARB's subtraction still asks for its next bundle after the return (76; R326), and the waits and results that come back (20), with closes in flight going on (60), are the model's reading. -/
def Obligations.TrapAndReturnWords : Prop :=
  ∀ (s : State) (q : BitVec 2) (g : BitVec 4) (k : BitVec 16) (a b : BitVec 5),
    let na := fun (code : BitVec 16) => BitVec.ofNat 64 (s.bnd.na.toNat * 2 ^ 22 + code.toNat)
    let c := s.cur.ctl
    let ra := c.trap.ra
    let raOk := ra = c.trap.fa ∨ ra = c.trap.recRa ∨ ((c.trap.cause = 0x18 ∨ c.trap.cause = 0x1A ∨ c.trap.cause = 0x1B) ∧ ra = c.trap.val.extractLsb' 22 22) ∨
      (if s.cur.desc.image.ovl then ra.toNat % 65536 else ra.toNat) % 12 = 0
    (Runs (.trap q g k) s → exec (.trap q g k) s = .next (s.trapHere 0x1A (na k))) ∧
    (Runs (.brk q g k) s → exec (.brk q g k) s = .next (s.trapHere 0x1B (na k))) ∧
    (Runs (.cmpt q g a b) s → (s.cur.s a = s.cur.s b → exec (.cmpt q g a b) s = .next s) ∧
      (s.cur.s a ≠ s.cur.s b → exec (.cmpt q g a b) s = .next (s.trapHere 0x18 (na 0)))) ∧
    (Runs (.tret q) s →
      (c.trap.act = false → exec (.tret q) s = .next (s.trapHere 0x0B 0)) ∧
      (c.trap.act = true → ¬ raOk → exec (.tret q) s = .next (s.trapHere 0x0C (BitVec.ofNat 64 ra.toNat))) ∧
      (c.trap.act = true → raOk → ∀ x, firstCause ra c.flight = some x → exec (.tret q) s = .next (s.takeTrap x)) ∧
      (c.trap.act = true → raOk → (∀ f ∈ c.flight, f.eff.cause? ra = none) → exec (.tret q) s = .next (({ s with cur := { s.cur with ctl := { c with
        trap := { c.trap with act := false }, bank := c.bankBefore, flight := c.trapFlight, trapFlight := [], cwaiting := c.cwaiting ++ c.closing, pc := ra, waits := c.trapWaits, trapWaits := [],
        mustIssue := c.trapMust, trapMust := false } } } : State).addPost
          (.jump ra false)))) ∧
    (Runs (.uiret q) s →
      (c.ui.act = false → exec (.uiret q) s = .next (s.trapHere 0x0B 0)) ∧
      (c.ui.act = true → exec (.uiret q) s = .next (({ s with cur := { s.cur with ctl := { c with
        ui := { c.ui with act := false, ovf := false }, bank := false, flight := c.uiFlight ++ c.flight.filter (fun f => (f.eff.cause? 0).isSome), uiFlight := [],
        cwaiting := c.cwaiting ++ c.closing, pc := c.ui.ra, waits := c.uiWaits, uiWaits := [], mustIssue := c.uiMust, uiMust := false } } } : State).addPost
          (.jump c.ui.ra false)))) ∧
    (∀ (old n : Node) (at_ : Nat) (out : Bool),
      let back := (old.ctl.trap.act = true ∧ n.ctl.trap.act = false) ∨ (old.ctl.ui.act = true ∧ n.ctl.ui.act = false)
      let t := n.advance at_ out (old.ctl.cameBack n.ctl)
      (back → t.ctl.mustIssue = n.ctl.mustIssue) ∧ (¬ back → t.ctl.mustIssue = false))

/-- CTLR reads a control register at issue into sD two bundles later (R318): the coordinate and the binding of the core (R103), EMAP (R104), the splice state (R124), the
loop levels (R167), UIS (R284), the registers of R319, R347, R169, R58 and the counters as given here. CTLW
writes the RW fields at the end of its bundle and keeps the others: a register that is read-only, or a counter, stays as it is, and reserved bits are not
stored. -/
def Obligations.ControlRegisterWords : Prop :=
  ∀ (s : State) (q : BitVec 2) (g : BitVec 4) (d : BitVec 5) (n : BitVec 12) (nd : Node) (fa : BitVec 22) (v : Word),
    let c := s.cur.ctl
    (Runs (.ctlr q g d n) s → GivesS (.ctlr q g d n) s 2 d (s.ctlRead n)) ∧
    (Runs (.ctlw q g d n) s → exec (.ctlw q g d n) s = .next (s.addPost (.ctlw n (s.cur.s d)))) ∧
    s.ctlRead 2 = BitVec.ofNat 64 c.part.toNat ∧ s.ctlRead 8 = BitVec.ofNat 64 c.seed.toNat ∧ s.ctlRead 9 = BitVec.ofNat 64 c.step.toNat ∧
    s.ctlRead 0x0A = BitVec.ofNat 64 c.rtb.toNat ∧ s.ctlRead 0x40 = c.cfa ∧ s.ctlRead 0x41 = c.cfb ∧ s.ctlRead 0x52 = c.trap.val ∧
    s.ctlRead 0x51 = BitVec.ofNat 64 (c.trap.ra.toNat * 2 ^ 22 + c.trap.fa.toNat) ∧
    s.ctlRead 0x50 = BitVec.ofNat 64 (c.trap.vbase.toNat * 2 ^ 42 + c.trap.en.toNat * 2 ^ 41 + c.trap.crb.toNat * 2 ^ 40 + c.trap.act.toNat * 2 ^ 32 +
      c.trap.pos.toNat * 2 ^ 24 + c.trap.dly.toNat * 2 ^ 7 + c.trap.cause.toNat) ∧
    (∀ i : Fin 64, s.ctlRead (BitVec.ofNat 12 (0x100 + i.val)) = BitVec.ofNat 64 (s.cur.regs.c[i]).toNat) ∧
    (let k := s.core s.focus
     let has := fun (y x : Nat) (h : BitVec 1) => k.halves.any fun b => b.y == y && b.x == x && b.half == h
     let slab := fun (p : Nat × Nat) => 2 ^ 11 + (has p.1 p.2 1).toNat * 2 ^ 10 + (has p.1 p.2 0).toNat * 2 ^ 9 + p.1 % 16 * 2 ^ 5 + p.2 % 32
     let pair := k.pairOf s.cur.desc.uid
     let mine := s.cur.desc.uid ≠ 0 ∧ (pair.p = s.cur.desc.uid ∨ pair.c = s.cur.desc.uid)
     let role := if pair.p = s.cur.desc.uid then 1 else 2
     s.ctlRead 0 = BitVec.ofNat 64 (k.stage.toNat * 2 ^ 10 + k.idx % 2 ^ 10) ∧ s.ctlRead 1 = BitVec.ofNat 64 k.stage.toNat ∧ s.ctlRead 4 = BitVec.ofNat 64 k.emap.toNat ∧
     (∀ slabs : List (Nat × Nat), slabs.Pairwise (fun a b => a.1 * 32 + a.2 < b.1 * 32 + b.2) → (∀ p, p ∈ slabs ↔ ∃ b ∈ k.halves, p = (b.y, b.x)) → (∀ b ∈ k.halves, b.x < 32) →
       let entry := fun (i : Nat) => ((slabs.map slab)[i]?).getD 0
       s.ctlRead 3 = BitVec.ofNat 64 (k.epoch.toNat * 2 ^ 56 + entry 3 * 2 ^ 44 + entry 2 * 2 ^ 32 + entry 1 * 2 ^ 20 + entry 0 * 2 ^ 8 + k.rsv.toNat * 2 ^ 5 + k.join.toNat * 2 ^ 4 +
         (k.emap != 0).toNat * 2 ^ 3 + k.paired.toNat * 2 ^ 2 + k.gang.toNat)) ∧
     (pair.st ≠ .none ∨ s.cur.run.refusal = none → s.ctlRead 5 = if mine then
       BitVec.ofNat 64 ((if pair.st = .refused then 0 else pair.cands.length) * 2 ^ 20 + role * 2 ^ 18 + pair.code.toNat * 2 ^ 8 + pair.st.code) else 0) ∧
     (∀ isP code, pair.st = .none → s.cur.run.refusal = some (isP, code) →
       s.ctlRead 5 = BitVec.ofNat 64 ((if isP then 1 else 2) * 2 ^ 18 + code.toNat * 2 ^ 8 + 3)) ∧
     ([.none, .marked, .check, .refused, .pOut, .cOut, .merged, .aloneP, .aloneC, .drain, .saved].map SpliceState.code = List.range 11) ∧
     (∀ e : Fin 4, (s.ctlRead 6).getLsbD e.val = s.cur.done (BitVec.ofNat 2 e.val) ∧ (s.ctlRead 6).getLsbD (4 + e.val) = c.flt.getLsbD e.val) ∧
     (∀ j, 8 ≤ j → (s.ctlRead 6).getLsbD j = false) ∧
     (∀ i : Fin 6, let l := c.loops[i]
       s.ctlRead (BitVec.ofNat 12 (0x10 + i.val)) = BitVec.ofNat 64 (l.act.toNat * 2 ^ 63 + l.t % 2 ^ 31 * 2 ^ 32 + l.i % 2 ^ 32)) ∧
     s.ctlRead 0x42 = BitVec.ofNat 64 (c.ui.ra.toNat * 2 ^ 32 + c.ui.act.toNat * 2 ^ 31 + c.ui.ovf.toNat * 2 ^ 30 + c.ui.recs.length * 2 ^ 18 + c.ui.slot.toNat * 2 ^ 7 + c.ui.cnt.toNat)) ∧
    (∀ i : Fin 12, s.ctlRead (BitVec.ofNat 12 (0x20 + i.val)) = c.ls[i]) ∧ (∀ i : Fin 4, s.ctlRead (BitVec.ofNat 12 (0x30 + i.val)) = s.cur.regs.e[i]) ∧
    (let w := nd.post fa (.ctlw n v)
     w.run = nd.run ∧ w.eng = nd.eng ∧ w.ctl.pc = nd.ctl.pc ∧ w.ctl.flight = nd.ctl.flight ∧ w.ctl.loops = nd.ctl.loops ∧ w.ctl.part = nd.ctl.part ∧
     (n = 8 → w.ctl.seed = v.extractLsb' 0 32) ∧ (n = 9 → w.ctl.step = v.extractLsb' 0 32) ∧ (n = 0x0A → w.ctl.rtb = (v.extractLsb' 0 5) &&& 0x1E#5) ∧
     (n = 0x50 → w.ctl.trap = { nd.ctl.trap with vbase := v.extractLsb' 42 22, en := v.getLsbD 41, crb := v.getLsbD 40 }) ∧
     (n = 0x51 → w.ctl.trap = { nd.ctl.trap with ra := v.extractLsb' 22 22 }) ∧
     (∀ i : Fin 12, n = BitVec.ofNat 12 (0x20 + i.val) → w.ctl.ls[i] = v &&& 0xFF03FFFFFF03FFFF#64) ∧
     (∀ i : Fin 4, n = BitVec.ofNat 12 (0x30 + i.val) → w.regs.e[i] = v &&& 0xFFFFFFFFFC007FFF#64) ∧
     (n ≠ 8 → w.ctl.seed = nd.ctl.seed) ∧ (n ≠ 9 → w.ctl.step = nd.ctl.step) ∧ (n ≠ 0x50 → n ≠ 0x51 → w.ctl.trap = nd.ctl.trap) ∧
     (n.toNat < 8 ∨ n = 0x52 ∨ (0x10 ≤ n.toNat ∧ n.toNat < 0x16) ∨ (0x40 ≤ n.toNat ∧ n.toNat < 0x43) ∨ 0x100 ≤ n.toNat → w = nd))

/-- The counter words, the waits and the words that only order or switch (R293, R304 to R307, R324, R325). CSET and CADD change a counter at the next bundle,
modulo 2^32. CWAIT, BARB, BAR and IDLE leave their condition on the next bundle, each its own, and a condition that holds ends: at the end of the bundle at
once, and later directly after the update that satisfies it; BARB subtracts its target when it is met, and its next bundle issues before a pre-emption (R326).
The conditions of a bundle that a handler interrupts are
among them (R296; log entry 20), and all of a node are tested against the same values (log entry 76). A wait that ends and a FENCE with acquire are acquires (R292,
R293): nothing that has been read ahead stands; a FENCE with release changes nothing, its node's stores having been performed before its bundle issues (log entries 3 and
91). YIELD at the end of its bundle turns the core to the first runnable node other than the current one, in slot order behind the slot of the last switch (R98, R324;
log entry 21), and does nothing where there is none. -/
def Obligations.CountersAndWaits : Prop :=
  ∀ (s : State) (q : BitVec 2) (g : BitVec 4) (n : BitVec 6) (a : BitVec 5) (i : BitVec 10) (x y z w : BitVec 1) (sc : BitVec 4) (ext : Option (BitVec 25)),
    let lo := (s.cur.s a).extractLsb' 0 32
    let gives := fun (w : Instr) (e : Effect) => Runs w s → exec w s = .next (s.withResults [{ dist := 1, eff := e }])
    let waits := fun (w : Instr) (c : Wait) => Runs w s → exec w s = .next (s.addPost (.wait c))
    gives (.cset q g n a) (.c n lo) ∧ gives (.csetImm q g n i ext) (.c n (BitVec.ofNat 32 (immU 10 i ext))) ∧
    gives (.cadd q g n a) (.cAdd n lo) ∧ gives (.caddImm q g n i ext) (.cAdd n (BitVec.ofInt 32 (immS 10 i ext))) ∧
    (∀ (r : Regs) (k : Nat) (v : BitVec 32), (r.apply k (.c n v)).c[n.toNat] = v ∧ (r.apply k (.cAdd n v)).c[n.toNat] = r.c[n.toNat] + v) ∧
    waits (.cwait q g n a) (.cwait n (s.cur.s a)) ∧ waits (.cwaitImm q g n i ext) (.cwait n (BitVec.ofNat 64 (immU 10 i ext))) ∧
    waits (.barb q g n a) (.barb n (s.cur.s a)) ∧ waits (.barbImm q g n i ext) (.barb n (BitVec.ofNat 64 (immU 10 i ext))) ∧
    waits (.bar q g x y z w) (.bar (w ++ z ++ y ++ x)) ∧ waits (.idle q) .idle ∧
    (Runs (.fence q g x y sc) s → exec (.fence q g x y sc) s = .next (if x = 1 then s.acquire else s)) ∧ (Runs (.yield q g) s → exec (.yield q g) s = .next (s.addPost .switch)) ∧
    (∀ (na : Nat) (old : Node), s.bnd.post = [.switch] →
      let t := (s.mapCur fun n => (n.advance na (decide (2 ^ 22 ≤ na)) (old.ctl.cameBack n.ctl)).settleWaits).mergedAfter s.focus s.cur.desc.uid old.noHandler
      s.finish na old = t.switchOther.getD t) ∧
    (let k := s.core s.focus
     let slot := fun (i : Nat) => (k.slots[(k.lastSlot + 1 + i) % 4]?).getD 0
     let may := fun (u : Nat) => u ≠ k.current ∧ s.runnable k u = true
     ((∀ i < 4, ¬ may (slot i)) → s.switchOther = none) ∧
     ∀ i < 4, may (slot i) → (∀ j < i, ¬ may (slot j)) → s.switchOther = some (s.switchTo s.focus (slot i))) ∧
    (∀ (nd : Node) (fa : BitVec 22) (c : BitVec 6) (t : Word) (m : BitVec 4),
      let free : Node := { nd with run := { nd.run with ahead := [] }, ctl := { nd.ctl with waits := [], uiWaits := [], trapWaits := [] } }
      let must := fun (n : Node) (k : Fin 3) => ({ n with ctl := { n.ctl with mustIssue := n.ctl.mustIssue || k == 0, uiMust := n.ctl.uiMust || k == 1,
                                                                              trapMust := n.ctl.trapMust || k == 2 } } : Node)
      (∀ w, nd.post fa (.wait w) = { nd with ctl := { nd.ctl with waits := nd.ctl.waits ++ [w] } }) ∧
      (∀ w, (w ∈ nd.settleWaits.ctl.waits ↔ w ∈ nd.ctl.waits ∧ nd.holds w = false) ∧
        (w ∈ nd.settleWaits.ctl.uiWaits ↔ w ∈ nd.ctl.uiWaits ∧ nd.holds w = false) ∧
        (w ∈ nd.settleWaits.ctl.trapWaits ↔ w ∈ nd.ctl.trapWaits ∧ nd.holds w = false)) ∧
      ∀ k : Fin 3,
      let held := fun (w : Wait) => ({ nd with ctl := { nd.ctl with waits := if k = 0 then [w] else [], uiWaits := if k = 1 then [w] else [],
                                                                    trapWaits := if k = 2 then [w] else [] } } : Node)
      (t.toNat ≤ (nd.regs.c[c.toNat]).toNat → (held (.cwait c t)).settleWaits = free ∧
        (held (.barb c t)).settleWaits = { (if t = 0 then free else must free k) with
          regs := { nd.regs with c := nd.regs.c.setIfInBounds c.toNat (nd.regs.c[c.toNat] - t.extractLsb' 0 32) } }) ∧
      ((nd.regs.c[c.toNat]).toNat < t.toNat → (held (.cwait c t)).settleWaits = held (.cwait c t) ∧ (held (.barb c t)).settleWaits = held (.barb c t)) ∧
      ((∀ e : Fin 4, m.getLsbD e = true → nd.done (BitVec.ofNat 2 e) = true) → (held (.bar m)).settleWaits = free) ∧
      ((∃ e : Fin 4, m.getLsbD e = true ∧ nd.done (BitVec.ofNat 2 e) = false) → (held (.bar m)).settleWaits = held (.bar m)) ∧
      (nd.ctl.ui.recs ≠ [] ∨ nd.eng.uiPending = false → (held .idle).settleWaits = free) ∧
      (nd.ctl.ui.recs = [] → nd.eng.uiPending = true → (held .idle).settleWaits = held .idle)) ∧
    (∀ uid, (s.node uid).live = true → (∃ c ∈ (s.node uid).ctl.waits ++ (s.node uid).ctl.uiWaits ++ (s.node uid).ctl.trapWaits, (s.node uid).holds c = true) → s.settleWaits uid = s.setNode (s.node uid).settleWaits) ∧
    (∀ nd : Node, nd.ctl.mustIssue = true ∨ nd.ctl.uiMust = true ∨ nd.ctl.trapMust = true → s.stopsFor nd = false)

/-- The words that ask another unit (R309 to R316). ENQ waits for the answers of earlier raises, reports a full outbox, or copies its group; TOK.GIVE waits
for room; a packet in the outbox makes the run irreversible (R69). JCB.RAISE without a block, by 0, or after JCB.DONE of a staged node answers at once, else
the request goes out and pD waits; TOK.TAKE puts its request into the inbox; JCB.DONE posts once, at once for an unstaged node; GENR reads the access tag. -/
def Obligations.RequestWords : Prop :=
  ∀ (s : State) (q : BitVec 2) (g : BitVec 4) (p : BitVec 3) (y : BitVec 2) (d a : BitVec 5) (l : BitVec 6) (i10 : BitVec 10) (i13 : BitVec 13) (i7 : BitVec 7)
      (ext : Option (BitVec 25)),
    let core := s.core s.focus
    let sent := fun (pkt : BitVec 512) => ((s.setCore { core with outbox := core.outbox ++ [(s.cur.desc.uid, pkt)] }).mapRun fun r => { r with irrev := true })
    let id := s.cur.run.nextReq
    let give := fun (w : Instr) (count : Nat) => Runs w s →
      (2 ≤ core.outbox.length → exec w s = .next s.delay) ∧
      (core.outbox.length < 2 → exec w s = .next (sent (BitVec.ofNat 512 (6 + s.cur.run.qgen.toNat * 2 ^ 32 + l.toNat * 2 ^ 128 +
        (if 1 ≤ count ∧ count ≤ 65535 then count else 0) * 2 ^ 144))))
    let take := fun (w : Instr) (count : Word) => Runs w s → exec w s = .next
      (({ (s.mapRun fun r => { r with nextReq := id + 1 }) with awl := { s.awl with inbox := s.awl.inbox ++ [.take s.cur.desc.uid id l count] } } : State).withResults
        [{ dist := 2, eff := .pAnswer id p none }])
    let raise := fun (w : Instr) (n : Word) => Runs w s →
      (s.cur.desc.jcb = none → exec w s = .next (s.withResults (predResult 6 p false))) ∧
      (s.cur.desc.jcb ≠ none → n = 0 → exec w s = .next (s.withResults (predResult 6 p true))) ∧
      (s.cur.desc.jcb ≠ none → n ≠ 0 → s.cur.desc.image.unstg = false → s.cur.run.doneIssued = true → exec w s = .next
        ((s.mapRun fun r => { r with late := r.late + 1, refused := r.refused + 1 }).withResults (predResult 6 p false))) ∧
      (s.cur.desc.jcb ≠ none → n ≠ 0 → s.cur.desc.image.unstg = true ∨ s.cur.run.doneIssued = false → exec w s = .next
        ((s.mapRun fun r => { r with nextReq := id + 1, pendingRaise := r.pendingRaise ++ [{ id := id, n := n, posted := r.doneIssued, ans := none }] }).withResults
          [{ dist := 6, eff := .pAnswer id p none }]))
    (Runs (.enq q g p y) s →
      (s.cur.run.pendingRaise ≠ [] → exec (.enq q g p y) s = .next s.delay) ∧
      (s.cur.run.pendingRaise = [] → 2 ≤ core.outbox.length → exec (.enq q g p y) s = .next (s.withResults (predResult 2 p false))) ∧
      (s.cur.run.pendingRaise = [] → core.outbox.length < 2 → ∃ pkt, exec (.enq q g p y) s = .next ((sent pkt).withResults (predResult 2 p true)) ∧
        ∀ j : Fin 8, pkt.extractLsb' (64 * j.val) 64 = s.cur.s (BitVec.ofNat 5 (8 * y.toNat + j.val)))) ∧
    give (.tokGive q g l a) (s.cur.s a).toNat ∧ give (.tokGiveImm q g l i10 ext) (immU 10 i10 ext) ∧
    take (.tokTake q g p l a) (s.cur.s a) ∧ take (.tokTakeImm q g p l i7 ext) (BitVec.ofNat 64 (immU 7 i7 ext)) ∧
    raise (.jcbRaise q g p a) (s.cur.s a) ∧ raise (.jcbRaiseImm q g p i13 ext) (BitVec.ofNat 64 (immU 13 i13 ext)) ∧
    (Runs (.jcbDone q g) s →
      (s.cur.desc.jcb = none ∨ s.cur.run.doneIssued = true → exec (.jcbDone q g) s = .next s) ∧
      (∀ j, s.cur.desc.jcb = some j → s.cur.run.doneIssued = false →
        (s.cur.desc.image.unstg = false → exec (.jcbDone q g) s = .next (s.mapRun fun r => { r with doneIssued := true })) ∧
        (s.cur.desc.image.unstg = true → exec (.jcbDone q g) s = .next { (s.mapRun fun r => { r with doneIssued := true }) with awl := { s.awl with
          posts := s.awl.posts ++ [{ uid := s.cur.desc.uid, queue := s.cur.desc.queue, jcb := j, fail := none }] } }))) ∧
    (Runs (.genr q g d) s → GivesS (.genr q g d) s 2 d (BitVec.ofNat 64 (s.cur.desc.queue.toNat * 2 ^ 32 + s.cur.run.qgen.toNat * 2 ^ 16 + s.cur.run.asgen.toNat)))

/-! ## Host registers and packets -/

/-- The host's register writes (R74 to R76, R82, R83, R86, R87, R89). QTAIL takes the value, and more pending packets than the ring holds put the queue into
ERROR, after the packet that is running; QCFG sets the fields of a disabled queue, enables it when it owns a slot, and disables an idle one at once and any other
when it comes to IDLE;
QCTL.RST resets a queue that is not disabled; TLINK sets its fields and COUNT to 0; EXCOMMIT installs a legal table when every queue is disabled; FLIPREQ
queues its request; the plain registers keep their RW bits, EXSLOT takes its eight bytes, a write of another size than 8 bytes is ignored, and a read of another
size or at an offset that is not aligned returns zero (R74); a read of a queue's registers returns what they hold; and a slice that expires ends after the
packet that is running. -/
def Obligations.HostRegisterWrites : Prop :=
  ∀ (s : State) (q n : BitVec 6) (v : Word) (off : BitVec 20) (prio : BitVec 3),
    let x := s.queue q
    let y : Queue := { x with tail := v.extractLsb' 0 32 }
    let counted := x.st = .idle ∨ x.st = .active ∨ x.st = .waiting ∨ x.st = .suspended
    let same := v.extractLsb' 32 16 = x.slice ∧ v.extractLsb' 24 3 = x.prio ∧ (if (v.extractLsb' 16 4).toNat < 4 then 4 else v.extractLsb' 16 4) = x.logsize
    let put := fun (x : Queue) => s.setQueue q x
    (¬ counted → exec (.qtailWrite q v) s = .next (put y)) ∧
    (counted → y.pending ≤ x.ring → exec (.qtailWrite q v) s = .next (put y).settle) ∧
    (counted → x.ring < y.pending → x.cur = none → exec (.qtailWrite q v) s = .next (put (y.fail 3)).settle) ∧
    (counted → x.ring < y.pending → x.cur ≠ none → exec (.qtailWrite q v) s = .next (put { y with tailError := true })) ∧
    (v.getLsbD 0 = true → x.st = .disabled → s.awl.slots.contains (BitVec.ofNat 8 q.toNat) = true → exec (.queueEnable q v) s = .next
      (put ({ x with slice := v.extractLsb' 32 16, prio := v.extractLsb' 24 3, logsize := if (v.extractLsb' 16 4).toNat < 4 then 4 else v.extractLsb' 16 4,
                     nextSlice := none, en := true, heldClear := false } : Queue).enterIdle).settle) ∧
    (let set : Queue := { x with slice := v.extractLsb' 32 16, prio := v.extractLsb' 24 3, logsize := if (v.extractLsb' 16 4).toNat < 4 then 4 else v.extractLsb' 16 4,
                                 nextSlice := none }
     (v.getLsbD 0 = false → x.st = .disabled → exec (.queueDisable q v) s = .next (put set).settle) ∧
     (v.getLsbD 0 = true → x.st = .disabled → s.awl.slots.contains (BitVec.ofNat 8 q.toNat) = false → exec (.queueEnable q v) s = .next (put set).settle)) ∧
    (v.getLsbD 0 = true → x.st ≠ .disabled → same → exec (.queueEnable q v) s = .next (put { x with en := true, heldClear := false })) ∧
    (v.getLsbD 0 = false → x.st = .idle → same → exec (.queueDisable q v) s = .next (put { x with st := .disabled, en := false, heldClear := false }).settle) ∧
    (v.getLsbD 0 = false → x.st ≠ .disabled → x.st ≠ .idle → same → exec (.queueDisable q v) s = .next (put { x with en := false, heldClear := true })) ∧
    (x.st ≠ .disabled → ¬ same → (v.getLsbD 0 = true → exec (.queueEnable q v) s = .next s) ∧ (v.getLsbD 0 = false → exec (.queueDisable q v) s = .next s)) ∧
    (v.getLsbD 0 = true → x.st ≠ .disabled → exec (.qctlRst q v) s = .next (s.startReset q (v.extractLsb' 32 32) none).settle) ∧
    (v.getLsbD 0 = false ∨ x.st = .disabled → exec (.qctlRst q v) s = .next s) ∧
    exec (.tlinkWrite n v) s = .next { s with awl := { s.awl with links := s.awl.links.setIfInBounds n.toNat  ({ en := v.getLsbD 32, count := 0, cons := v.extractLsb' 8 6, prod := v.extractLsb' 0 6 } : Link) } } ∧
    (let t := s.awl.exslot
     let ok := (∀ q : BitVec 6, (s.queue q).st = .disabled) ∧ (∀ e ∈ t, e.toNat ≤ 0x42 ∨ e = 0xFF) ∧ 0x40 ∈ t ∧ 0x41 ∈ t ∧ 0x42 ∈ t
     (ok → exec (.excommit v) s = .next { s with awl := { s.awl with slots := t } }) ∧ (¬ ok → exec (.excommit v) s = .next s)) ∧
    (v.getLsbD 63 = true → exec (.flipreqAck v) s = .next { s with awl := { s.awl with flips := s.awl.flips ++ [({ frame := (v.extractLsb' 0 36).toNat, ack := true } : Flip)] } }) ∧
    (v.getLsbD 63 = false → exec (.flipreqToHost v) s = .next { s with awl := { s.awl with flips := s.awl.flips ++ [({ frame := (v.extractLsb' 0 36).toNat, ack := false } : Flip)] } }) ∧
    (∀ size, size ≠ 8 → exec (.registerWrite off { size := size, value := v }) s = .next s) ∧
    (∃ t, exec (.registerWrite off { size := 8, value := v }) s = .next t ∧ t.mem = s.mem ∧
      (∀ j < 16, off = BitVec.ofNat 20 (0x41000 + 8 * j) → s.awl.exslot.length = 128 →
        t = { s with awl := { s.awl with exslot := t.awl.exslot } } ∧ t.awl.exslot.length = 128 ∧
        ∀ i < 128, t.awl.exslot[i]? = if 8 * j ≤ i ∧ i < 8 * j + 8 then some (v.extractLsb' (8 * (i - 8 * j)) 8) else s.awl.exslot[i]?) ∧
      (off = BitVec.ofNat 20 (0x1000 * q.toNat) → t = put { x with qbase := v &&& ~~~0x3F#64 }) ∧ (off = BitVec.ofNat 20 (0x1000 * q.toNat + 8) → t = put { x with qcbase := v &&& ~~~0x3F#64 }) ∧
      (off.toNat % 8 ≠ 0 → t = s)) ∧
    (∀ size, size ≠ 8 ∨ off.toNat % 8 ≠ 0 → s.readBar off.toNat size = 0) ∧
    (let reads := fun (r : Nat) => s.readBar (0x1000 * q.toNat + r) 8
     reads 0 = x.qbase ∧ reads 8 = x.qcbase ∧ reads 0x18 = x.tail.setWidth 64 ∧ reads 0x20 = x.head.setWidth 64 ∧ reads 0x30 = 0 ∧
     (reads 0x10).extractLsb' 32 16 = x.slice ∧ (reads 0x10).extractLsb' 24 3 = x.prio ∧ (reads 0x10).extractLsb' 16 4 = x.logsize ∧ (reads 0x10).getLsbD 0 = x.en ∧
     (reads 0x28).extractLsb' 48 16 = x.gen ∧ (reads 0x28).extractLsb' 32 16 = x.status ∧ (reads 0x28).extractLsb' 16 16 = x.erridx) ∧
    (∀ h, s.awl.holder[prio.toNat] = some h →
      ((s.queue h).cur ≠ none → exec (.sliceExpiry prio) s = .next (s.mapQueue h fun x => { x with sliceEnd := true })) ∧
      ((s.queue h).cur = none → exec (.sliceExpiry prio) s = .next (s.passHolder prio.toNat)))

/-- The packets of a host queue at their last step (R78 to R82, R86, R87, R263, R264, R393): writes, signals and copies of the Awl complete, wait for the new
generations, or put the queue into ERROR; one whose space has changed its generation since it started writes nothing, and ends with XLATE where it reads
(the model's reading, log entry 62); WRITE_SIGNAL stores its signal after its data; tokens are given up to 65,535 and waited for; QRESET resets another queue and waits for its acknowledgements;
SLICE and a refused launch complete at once, the latter with its code and a post to the block that its header names; a FENCE completes at once, one with REL
once what the queue's completed packets did is visible (R81; in a machine that performs one memory access after another, log entry 3); a launch that begins
waits for its graph, and a launch of nodes that all pass the checks of R393 begins. A packet row happens for the packet at its last step, and for one at the
head of its queue, which it takes; otherwise it is not enabled. The packet that the inbox holds first is performed on behalf of its node (R88): with a stale
generation it is discarded before any other check (the model's reading, log entry 42), one that is not allowed there or has a fault of its own is a failure of the node with ENQ_BAD, and WRITE, SIGNAL, WRITE_SIGNAL,
TOKEN_GIVE and LAUNCH_NODE have their effect. -/
def Obligations.HostPackets : Prop :=
  (∀ (s : State) (q : BitVec 6) (idx : BitVec 32) (p : BitVec 512),
    let at_ := fun (type : Nat) => s.atLastStep q idx p type none
    let src : PacketSource := .queue q
    let n := pk p 0x10 1
    let count := pk p 0x12 2
    (at_ 3 → AwlWrites (.write src p) s q idx p False (s.awlWrite q true (pk p 0x10 8) ((leBytes (pk p 0x20 32) (pk p 0x18 1)).map fun b => (b, false)))) ∧
    (at_ 4 → AwlWrites (.signal src p) s q idx p (pk p 0x20 1 = 1) (s.awlSignal q true (pk p 0x10 8) (pk p 0x18 8) (pk p 0x20 1))) ∧
    (at_ 8 → AwlWrites (.copy src p) s q idx p True (s.awlCopy q (pk p 0x10 8) (pk p 0x18 8) (pk p 0x20 4))) ∧
    (at_ 5 → AwlWrites (.writeSignal src p) s q idx p (pk p 0x19 1 = 1)
      (match s.awlWrite q true (pk p 0x10 8) ((leBytes (pk p 0x20 16) (pk p 0x18 1)).map fun b => (b, false)) with
       | .error e => .error e
       | .ok (t, ks) => match t.awlSignal q true (pk p 0x30 8) (pk p 0x38 8) (pk p 0x19 1) with
         | .error e => .error e
         | .ok (u, ks') => .ok (u, ks ++ ks'))) ∧
    (at_ 6 → ∀ l, s.awl.links[n]? = some l →
      (l.en = true → l.prod = q → l.count.toNat + count ≤ 65535 → exec (.tokenGive src p) s =
        .next ((s.setLink n { l with count := BitVec.ofNat 16 (l.count.toNat + count) }).retired q idx p 0)) ∧
      (l.en = true → l.prod = q → 65535 < l.count.toNat + count → exec (.tokenGive src p) s = .next (s.inError q p 5)) ∧
      (l.en = false ∨ l.prod ≠ q → exec (.tokenGive src p) s = .next (s.inError q p 4))) ∧
    (at_ 7 → ∀ l, s.awl.links[n]? = some l →
      (l.en = true → l.cons = q → count ≤ l.count.toNat → exec (.tokenWait src p) s =
        .next ((s.setLink n { l with count := BitVec.ofNat 16 (l.count.toNat - count) }).retired q idx p 0)) ∧
      (l.en = true → l.cons = q → l.count.toNat < count → exec (.tokenWait src p) s = .next (s.mapQueue q fun x => { x with st := .waiting, cur := none })) ∧
      (l.en = false ∨ l.cons ≠ q → exec (.tokenWait src p) s = .next (s.inError q p 4))) ∧
    (at_ 9 →
      ((pk p 0x11 1).testBit 1 = true → s.unseen q = true → exec (.fencePacket src p) s = .next (s.inProgress q idx p 1 false)) ∧
      ((pk p 0x11 1).testBit 1 = false ∨ s.unseen q = false → exec (.fencePacket src p) s = .next (s.retired q idx p 0))) ∧
    (at_ 10 →
      let t := BitVec.ofNat 6 n
      ((s.queue t).st = .disabled → exec (.qreset src p) s = .next (s.inError q p 3)) ∧
      ((s.queue t).st ≠ .disabled → exec (.qreset src p) s = .next ((s.startReset t (BitVec.ofNat 32 (pk p 0x14 4)) (some (q, idx, p))).settle.underWay q idx p))) ∧
    (at_ 11 → exec (.slice src p) s = .next ((s.sliceChange (BitVec.ofNat 6 n) (BitVec.ofNat 3 (pk p 0x11 1)) (BitVec.ofNat 16 count)).retired q idx p 0)) ∧
    (∀ type ∈ [1, 2], at_ type →
      let i : Instr := if type = 1 then .launchGraph src p else .launchNode src p
      let solo : Bool := type == 2
      let nodes := if type = 1 then pk p 0x18 4 else 1
      let seed := BitVec.ofNat 32 (if type = 1 then pk p 0x1C 4 else pk p 0x18 4)
      let step := BitVec.ofNat 32 (if type = 1 then pk p 0x20 4 else pk p 0x1C 4)
      let r := s.launch q true (pk p 0x10 8) nodes solo seed step (headerJcb p) 0
      (s.packetStale q = true → exec i s = .next (s.inError q p 6)) ∧
      (s.packetStale q = false →
        (∀ t g, r = (t, .graph g) → exec i s = .next (t.leftWaiting q idx p g)) ∧
        (∀ t, r = (t, .xlate) → exec i s = .next (t.inError q p 6)) ∧
        (∀ t c m, r = (t, .refuse c m) → exec i s = .next ((t.postRefusal q (headerJcb p) c m).retired q idx p (BitVec.ofNat 16 c))) ∧
        (∀ l : List Checked, l.length = nodes → (∀ k c, l[k]? = some c → s.launchable q true (pk p 0x10 8 + 512 * k) k solo seed step c) →
          (solo = false → graphBadCount l = none ∧ graphCycle l = none) →
          let u := (s.createNodes q (headerJcb p) 0 l).2
          exec i s = .next (u.leftWaiting q idx p s.awl.nextGraph) ∧
          ∀ k c, l[k]? = some c → ∃ m ∈ u.nodes, m.desc.uid = s.awl.nextUid + k ∧ m.desc.graph = s.awl.nextGraph ∧ m.desc.args = c.desc.args ∧
            m.desc.handles = c.desc.handles ∧ m.desc.image = c.desc.image ∧ m.run.remaining = c.pred ∧
            m.run.st = if c.pred = 0 then NodeState.ready else .waiting)))) ∧
  (∀ (s : State) (q : BitVec 6) (p : BitVec 512),
    let src : PacketSource := .queue q
    let rows : List (Nat × Instr × String) := [(1, .launchGraph src p, "LAUNCH_GRAPH"), (2, .launchNode src p, "LAUNCH_NODE"), (3, .write src p, "WRITE"),
      (4, .signal src p, "SIGNAL"), (5, .writeSignal src p, "WRITE_SIGNAL"), (6, .tokenGive src p, "TOKEN_GIVE"), (7, .tokenWait src p, "TOKEN_WAIT"),
      (8, .copy src p, "COPY"), (9, .fencePacket src p, "FENCE_PACKET"), (10, .qreset src p, "QRESET"), (11, .slice src p, "SLICE")]
    ∀ r ∈ rows,
      (pk p 0 1 ≠ r.1 ∨ s.svc.phase < 3 → exec r.2.1 s = .fault (.notEnabled r.2.2)) ∧
      (pk p 0 1 = r.1 → 3 ≤ s.svc.phase →
        (∀ c, (s.queue q).cur = some c → (c.pkt = p → c.waiting = false → exec r.2.1 s = .next (s.lastStep q c.index p)) ∧
          (c.pkt ≠ p ∨ c.waiting = true → exec r.2.1 s = .fault (.notEnabled r.2.2))) ∧
        ((s.queue q).cur = none →
          (s.headStep q = .start p → exec r.2.1 s = .next ((s.mapQueue q fun x => { x with st := .active }).lastStep q (s.queue q).head p)) ∧
          (s.headStep q ≠ .start p → exec r.2.1 s = .fault (.notEnabled r.2.2))))) ∧
  (∀ (s : State) (uid core : Nat) (p : BitVec 512) (rest : List InboxItem), s.awl.inbox = .packet uid core p :: rest → 3 ≤ s.svc.phase →
    let taken : State := { s with awl := { s.awl with inbox := rest, inboxStep := none } }
    let q := (s.node uid).desc.queue
    let rows : List (Nat × Instr) := [(1, .launchGraph (.inbox uid) p), (2, .launchNode (.inbox uid) p), (3, .write (.inbox uid) p), (4, .signal (.inbox uid) p),
      (5, .writeSignal (.inbox uid) p), (6, .tokenGive (.inbox uid) p), (7, .tokenWait (.inbox uid) p), (8, .copy (.inbox uid) p), (9, .fencePacket (.inbox uid) p)]
    let stale := s.inboxAsgen uid ≠ (s.space q).asgen
    let bad := (taken.noteFaults q false p).enqBad uid p
    let writes := fun (i : Instr) (r : Except (BitVec 16) (State × List Nat)) =>
      (∀ e, r = .error e → exec i s = .next bad) ∧ (∀ t ks, r = .ok (t, ks) → exec i s = .next (if stale then taken.dropWrite else t))
    ∀ r ∈ rows, pk p 0 1 = r.1 →
      (pk p 4 2 ≠ (s.queue q).gen.toNat → exec r.2 s = .next (taken.mapQueue q fun x => { x with discarded := x.discarded + 1 })) ∧
      (pk p 4 2 = (s.queue q).gen.toNat → r.1 = 1 ∨ 7 ≤ r.1 ∨ pk p 1 1 ≠ 0 ∨ (packetError p).isSome = true → exec r.2 s = .next (taken.enqBad uid p)) ∧
      (pk p 4 2 = (s.queue q).gen.toNat → pk p 1 1 = 0 → packetError p = none →
        (stale → r.1 = 2 ∨ (r.1 = 4 ∧ pk p 0x20 1 = 1) ∨ (r.1 = 5 ∧ pk p 0x19 1 = 1) → exec r.2 s = .next (taken.enqBad uid p)) ∧
        (r.1 = 3 → writes r.2 (taken.awlWrite q false (pk p 0x10 8) ((leBytes (pk p 0x20 32) (pk p 0x18 1)).map fun b => (b, false)))) ∧
        (r.1 = 4 → ¬ (stale ∧ pk p 0x20 1 = 1) → writes r.2 (taken.awlSignal q false (pk p 0x10 8) (pk p 0x18 8) (pk p 0x20 1))) ∧
        (r.1 = 5 → ¬ (stale ∧ pk p 0x19 1 = 1) → writes r.2
          (match taken.awlWrite q false (pk p 0x10 8) ((leBytes (pk p 0x20 16) (pk p 0x18 1)).map fun b => (b, false)) with
           | .error e => .error e
           | .ok (t, _) => t.awlSignal q false (pk p 0x30 8) (pk p 0x38 8) (pk p 0x19 1))) ∧
        (r.1 = 2 → ¬ stale →
          let l := taken.launch q false (pk p 0x10 8) 1 true (BitVec.ofNat 32 (pk p 0x18 4)) (BitVec.ofNat 32 (pk p 0x1C 4)) (headerJcb p) uid
          (∀ t g, l = (t, .graph g) → exec r.2 s = .next t) ∧ (∀ t, l = (t, .xlate) → exec r.2 s = .next ((t.noteFaults q false p).enqBad uid p)) ∧
          (∀ t c m, l = (t, .refuse c m) → exec r.2 s = .next (t.enqBad uid p))) ∧
        (r.1 = 6 → ∀ l, s.awl.links[pk p 0x10 1]? = some l →
          (l.en = true → l.prod = q → l.count.toNat + pk p 0x12 2 ≤ 65535 →
            exec r.2 s = .next (taken.setLink (pk p 0x10 1) { l with count := BitVec.ofNat 16 (l.count.toNat + pk p 0x12 2) })) ∧
          (¬ (l.en = true ∧ l.prod = q ∧ l.count.toNat + pk p 0x12 2 ≤ 65535) → exec r.2 s = .next (taken.enqBad uid p)))))

/-- BIND, REPAIR and ATTEST at their last step (R90, R102, R105, R106, R363 to R370): a request that its checks refuse completes with the status of the rule;
a gang, its dissolution, a rebinding and a retirement start their drain and complete after it, the halves of a rebinding being REBINDING meanwhile; the reserve's limits, a soft repair, a spare lane and a scan
take effect at once; attestation reads its input and goes to housekeeping. A REPAIR whose record's address does not translate has no effect and puts its queue
into ERROR (R79), and so does one whose record would lie in bytes that the firmware keeps, with BAD_FIELD (R252), as an ATTEST quote does. Signature work ends (R90, R370): a quote writes its record and completes, or its queue errs where it does not translate; a patch completes
with 0x40 when its signature fails, with 0x41 when its version is not above the installed one, and else is installed from the next reset on. Whether a patch's
signature verifies, its entry and its version are free values (the model's choice, log entry 50). By the model's reading, a space whose generation has changed
since the packet started ends ATTEST with XLATE and lets a quote's record go (log entry 62); FAILED of a scan is a free value (log entries 7 and 46); a port
whose spare lane is in use and which is not degraded falls back to four lanes at an OP 2 (an inference from R367); and a half that is RETIRED already stays so
(log entry 46). -/
def Obligations.ServicePackets : Prop :=
  (∀ (s : State) (q : BitVec 6) (idx : BitVec 32) (p : BitVec 512),
    let at_ := fun (type op : Nat) => s.atLastStep q idx p type (some op)
    let src : PacketSource := .queue q
    let core := pk p 0x12 2
    let job : BindJob := { op := 0, core := core, width := pk p 0x14 1, cores := [], pkt := p, queue := q, index := idx, site := 0, half := 0 }
    let repair : BindJob := { job with op := 2, width := 0, site := pk p 0x1D 1, half := BitVec.ofNat 2 (pk p 0x1E 1) }
    let kept := pk p 0x20 8 ≠ 0 ∧ pk p 0x20 8 / 2 ^ 44 = 0xFFFFF ∧ ∃ k < 32, firmwareByte (pk p 0x20 8 % 2 ^ 44 + k) = false
    let reaches := s.recordFits q (pk p 0x20 8) = true
    let fits := reaches ∧ ¬ kept
    let closes := fun (i : Instr) (t : State) (status moved failed : Nat) =>
      exec i s = .next ((t.resultRecord q (pk p 0x20 8) status (pk p 0x10 1) moved failed).retired q idx p (BitVec.ofNat 16 status))
    (at_ 12 0 → (∀ e, s.gangCheck core (pk p 0x14 1) = .error e → exec (.bindGang src p) s = .next (s.retired q idx p (BitVec.ofNat 16 e))) ∧
      (∀ l, s.gangCheck core (pk p 0x14 1) = .ok l → exec (.bindGang src p) s = .next ((s.startJob { job with cores := l }).underWay q idx p))) ∧
    (at_ 12 1 → (∀ e, s.dissolveCheck core = .error e → exec (.bindDissolve src p) s = .next (s.retired q idx p (BitVec.ofNat 16 e))) ∧
      (∀ l, s.dissolveCheck core = .ok l → exec (.bindDissolve src p) s = .next ((s.startJob { job with op := 1, cores := l }).underWay q idx p))) ∧
    (at_ 12 2 → ∃ r : Vector Reserve 4, exec (.bindReserve src p) s = .next (({ s with dist := { s.dist with reserve := r } } : State).retired q idx p 0) ∧
      ∀ i : Fin 4, r[i] = if (pk p 0x15 1).testBit i then { s.dist.reserve[i] with nmin := pk p 0x16 1, nmax := pk p 0x17 1 } else s.dist.reserve[i]) ∧
    (¬ fits → let e : BitVec 16 := if s.recordFits q (pk p 0x20 8) then 3 else 6
      (at_ 13 0 → exec (.repairRebindHalf src p) s = .next (s.inError q p e)) ∧ (at_ 13 1 → exec (.repairDramRow src p) s = .next (s.inError q p e)) ∧
      (at_ 13 2 → exec (.repairSpareLane src p) s = .next (s.inError q p e)) ∧ (at_ 13 3 → exec (.repairRetireCore src p) s = .next (s.inError q p e)) ∧
      (at_ 13 4 → exec (.repairScan src p) s = .next (s.inError q p e))) ∧
    (fits → at_ 13 0 → (∀ e, s.rebindCheck core (pk p 0x1D 1) repair.half = .error e → closes (.repairRebindHalf src p) s e 0 0) ∧
      (∀ k y plan, s.rebindCheck core (pk p 0x1D 1) repair.half = .ok (k, y, plan) → exec (.repairRebindHalf src p) s = .next ((s.startRebind repair k y plan).underWay q idx p))) ∧
    (fits → at_ 13 1 → (s.repairRoom (pk p 0x16 2) = true → closes (.repairDramRow src p) (s.softRepair (pk p 0x16 2) (pk p 0x1C 1) (pk p 0x18 4)) 0 0 0) ∧
      (s.repairRoom (pk p 0x16 2) = false → closes (.repairDramRow src p) s 0x63 0 0)) ∧
    (fits → at_ 13 2 →
      let x := s.port (pk p 0x14 1)
      (x.retraining = true → closes (.repairSpareLane src p) s 0x62 0 0) ∧
      (x.retraining = false → x.degraded = true → closes (.repairSpareLane src p) s 0x64 0 0) ∧
      (x.retraining = false → x.degraded = false → x.spareUsed = true → closes (.repairSpareLane src p) (s.degrade (pk p 0x14 1)) 0 0 0) ∧
      (x.retraining = false → x.degraded = false → x.spareUsed = false →
        closes (.repairSpareLane src p) (s.setPort (pk p 0x14 1) { x with spareUsed := true, retraining := true, laneOut := some (pk p 0x15 1) }) 0 0 0)) ∧
    (fits → at_ 13 3 →
      let c := s.core core
      (c.active = false ∨ c.gang ≠ 0 → closes (.repairRetireCore src p) s 0x60 0 0) ∧
      (c.active = true → c.gang = 0 → s.jobOn [core] = true → closes (.repairRetireCore src p) s 0x62 0 0) ∧
      (c.active = true → c.gang = 0 → s.jobOn [core] = false → exec (.repairRetireCore src p) s =
        .next ((s.startJob { repair with op := 3, cores := [core] }).underWay q idx p))) ∧
    (fits → at_ 13 4 →
      let watts := pk p 0x18 4
      (watts ≠ 0 → watts < 1200 ∨ 3000 < watts → closes (.repairScan src p) s 0x65 0 0) ∧
      (watts = 0 ∨ (1200 ≤ watts ∧ watts ≤ 3000) → ∃ failed, closes (.repairScan src p)
        { s with svc := { s.svc with powerLimit := if watts = 0 then s.svc.powerLimit else watts }, free := s.free + 1 } 0 0 failed)) ∧
    (∀ op ∈ [0, 1], at_ 14 op →
      let i : Instr := if op = 0 then .attestQuote src p else .attestPatch src p
      let input := s.awlRead q true (pk p 0x18 8) (if op = 0 then 32 else pk p 0x28 4)
      let reached := op = 0 → ∀ k < 0x8500, (s.awlPA q true (pk p 0x20 8 + k) true).isSome = true
      let kept := op = 0 ∧ pk p 0x20 8 / 2 ^ 44 = 0xFFFFF ∧ ∃ k < 0x8500, firmwareByte (pk p 0x20 8 % 2 ^ 44 + k) = false
      (s.packetStale q = true ∨ input = none ∨ ¬ reached → exec i s = .next (s.inError q p 6)) ∧
      (s.packetStale q = false → input ≠ none → reached → kept → exec i s = .next (s.inError q p 3)) ∧
      (∀ l, s.packetStale q = false → input = some l → reached → ¬ kept → exec i s = .next (({ s with awl := { s.awl with
        sigWork := s.awl.sigWork ++ [{ queue := q, index := idx, pkt := p, input := l }] } } : State).underWay q idx p)))) ∧
  (∀ (s : State),
    (s.awl.sigWork = [] → exec .signatureDone s = .fault (.notEnabled "SIGNATURE_DONE")) ∧
    (∀ w rest, s.awl.sigWork = w :: rest →
      let t : State := { s with awl := { s.awl with sigWork := rest } }
      (pk w.pkt 0x10 1 = 0 →
        (t.packetStale w.queue = true → exec .signatureDone s = .next (t.dropWrite.completeLater w.queue w.index 0)) ∧
        (t.packetStale w.queue = false →
          let u := t.sparesWord.2
          let r := ({ u with free := u.free + 1 } : State).awlPut w.queue (pk w.pkt 0x20 8) (u.quoteRecord u.free w.input t.sparesWord.1)
          (r = none → exec .signatureDone s = .next (t.failLater w.queue w.index 6)) ∧
          (∀ z, r = some z → exec .signatureDone s = .next (z.completeLater w.queue w.index 0)))) ∧
      (pk w.pkt 0x10 1 ≠ 0 →
        let u : State := { t with free := t.free + 3 }
        let ok := Config.freeBool t.free = true
        let p : Patch := { entry := Config.freeNat (t.free + 1) % 64, version := BitVec.ofNat 32 (Config.freeNat (t.free + 2)), bytes := w.input }
        let newer := ∀ e ∈ mramPatches s.awl.patches s.awl.newPatches, e.entry = p.entry → e.version.toNat < p.version.toNat
        (¬ ok → exec .signatureDone s = .next (u.completeLater w.queue w.index 0x40)) ∧
        (ok → ¬ newer → exec .signatureDone s = .next (u.completeLater w.queue w.index 0x41)) ∧
        (ok → newer → exec .signatureDone s = .next
          (({ u with awl := { u.awl with newPatches := mramPatches s.awl.newPatches [p] } } : State).completeLater w.queue w.index 0))))) ∧
  (∀ (s : State) (q : BitVec 6) (idx : BitVec 32) (c : InProgress) (status : Nat) (code : BitVec 16), (s.queue q).cur = some c → c.waiting = true → c.index = idx →
    s.completeLater q idx status = ((s.mapQueue q fun x => { x with head := x.head + 1, cur := none }).completePacket q idx c.pkt (BitVec.ofNat 16 status)).afterPacket q ∧
    s.failLater q idx code = (s.setQueue q ((s.queue q).fail code)).settle) ∧
  (∀ (s : State) (j : BindJob) (k y st : Nat) (plan : List (Nat × Nat × List BoundHalf)) (b : BoundHalf),
    let named := st = coreStack k ∧ b.y = y ∧ b.x = j.site ∧ b.half ∈ repairHalves j.half ∧ s.halfState st b ≠ .retired
    (named → (s.startRebind j k y plan).halfState st b = .rebinding) ∧ (¬ named → (s.startRebind j k y plan).halfState st b = s.halfState st b)) ∧
  (∀ (s : State) (nonce : List Byte) (key spares k : Nat), nonce.length = 32 →
    let r := s.quoteRecord key nonce spares
    let l := mramPatches s.awl.patches s.awl.newPatches
    r.length = 0x8500 ∧ (k < 32 → r[k]? = nonce[k]?) ∧ (k < 64 → r[32 + k]? = some (Config.measurementByte s.measured k)) ∧
    (k < 8 → r[96 + k]? = some (Config.serialByte k)) ∧
    (k < 4 → r[104 + k]? = (leBytes (Config.patchSummary l.length (maxNat (l.map fun p => p.version.toNat))) 4)[k]? ∧ r[108 + k]? = (leBytes spares 4)[k]?) ∧
    (k < 16 → r[112 + k]? = some 0) ∧ (k < 4096 → r[29952 + k]? = some (Config.certificateByte k)))

/-! ## Events -/

/-- Events of the Awl (R78, R83, R87, R89, R90, R108, R262, R264, R266). A slot belongs to its owner of the slot table, which performs at most one step, and
the next slot follows modulo 128; a launch completes when its graph has ended, with the graph's status; a reset ends with its open blocks FAILED with Q_RESET
and its queue at NEWHEAD, and completes every QRESET packet that waits for it; the inbox accepts an outbox packet while it holds fewer than 256; a changed
generation completes the packets that wait for no other, once no commit of a node of its space is under way (R300); a drained flip is noted once no node holds staged bytes of its frame (R301), and a request to flip
back names its entry; a mailbox record is written at the producer index while the mailbox has room, and raises vector 64; a table entry that a translation of
a space has found poisoned is rebuilt from the space's shadow copy where that is readable, once. None of them happens when its condition does not hold. By the model's
reading the acknowledgements of a reset are one event, which completes the QRESETs of an earlier reset, too (log entry 56), and a flip is drained when no node holds
staged bytes of its frame (log entry 41); that a reset leaves STATUS, ERRIDX and FNODE as they stand is its choice (log entries 79 and 89). -/
def Obligations.AwlEvents : Prop :=
  ∀ (s : State) (q sp : BitVec 6) (i : BitVec 32) (core : BitVec 10) (pa : BitVec 64),
    let x := s.queue q
    (3 ≤ s.svc.phase →
      let o := (s.awl.slots[s.awl.slotNo]?.getD 0xFF).toNat
      let t : State := { s with awl := { s.awl with slotNo := (s.awl.slotNo + 1) % 128 } }
      (o < 0x40 → exec .awlSlot s = .next (t.queueStep (BitVec.ofNat 6 o))) ∧ (o = 0x40 → exec .awlSlot s = .next t.inboxOnce) ∧
      (o = 0x41 → exec .awlSlot s = .next t.flipStep) ∧ (o = 0x42 → exec .awlSlot s = .next t.rereadMarks) ∧ (0x42 < o → exec .awlSlot s = .next t)) ∧
    (s.svc.phase < 3 → exec .awlSlot s = .fault (.notEnabled "AWL_SLOT")) ∧
    (∀ a, x.awaiting.find? (fun a => a.index == i) = some a → s.graphDone a.graph = true → exec (.packetComplete q i) s =
      .next ((s.mapQueue q fun y => { y with awaiting := y.awaiting.filter fun b => b.index != i }).completePacket q i a.pkt (s.graphStatus a.graph))) ∧
    ((∀ a, x.awaiting.find? (fun a => a.index == i) = some a → s.graphDone a.graph = false) →
      exec (.packetComplete q i) s = .fault (.notEnabled "PACKET_COMPLETE")) ∧
    (x.st = .resetting →
      let t := x.jcbs.foldl (fun s j => if s.jcbState j = 0 then (s.jcbOr j 2).wr (jcbPA j + 36) 0x30 4 else s) s
      let u := t.setQueue q ({ x with head := x.newhead, jcbs := [], resetBy := [] } : Queue).enterIdle
      exec (.qresetAcksDone q) s =
        .next (x.resetBy.foldl (fun s e => if e.1 = q then s.completePacket q e.2.1 e.2.2 0 else s.completeLater e.1 e.2.1 0) u).settle) ∧
    (x.st ≠ .resetting → exec (.qresetAcksDone q) s = .fault (.notEnabled "QRESET_ACKS_DONE")) ∧
    (let c := s.core core.toNat
     let held := (s.awl.inbox.filter fun e => match e with
       | .packet .. => true
       | .take .. => false).length
     (∀ u p rest, c.outbox = (u, p) :: rest → held < 256 → exec (.enqOutboxAccept core) s =
       .next { s.setCore { c with outbox := rest } with awl := { s.awl with inbox := s.awl.inbox ++ [.packet u c.idx p] } }) ∧
     (c.outbox = [] ∨ 256 ≤ held → exec (.enqOutboxAccept core) s = .fault (.notEnabled "ENQ_OUTBOX_ACCEPT"))) ∧
    (let acked := s.awl.asChange.filter fun e => e.1 == sp.toNat
     let rest := s.awl.asChange.filter fun e => e.1 != sp.toNat
     let t : State := { s with awl := { s.awl with asChange := rest } }
     let commits := ∃ n ∈ s.allNodes, n.run.committing ≠ none ∧ n.desc.queue = sp
     (∀ e, acked = [e] → ¬ commits →
       ((∃ r ∈ rest, r.2.2 = e.2.2) → exec (.asgenChangeDone sp) s = .next t) ∧
       ((∀ r ∈ rest, r.2.2 ≠ e.2.2) → exec (.asgenChangeDone sp) s = .next (t.completeLater e.2.2.1 e.2.2.2 0))) ∧
     (acked ≠ [] → ¬ commits → exec (.asgenChangeDone sp) s =
       .next ((acked.filter fun e => rest.all fun r => !(r.2.2.1 == e.2.2.1 && r.2.2.2 == e.2.2.2)).foldl (fun s e => s.completeLater e.2.2.1 e.2.2.2 0) t)) ∧
     (acked = [] ∨ commits → exec (.asgenChangeDone sp) s = .fault (.notEnabled "ASGEN_CHANGE_DONE"))) ∧
    (∀ f, s.awl.flipNow = some f →
      let staged := ∃ n ∈ s.allNodes, ∃ c ∈ n.run.staged.cells, c.1 / 65536 = hostPA (f.frame * 65536) / 65536
      (staged → exec .flipDrainDone s = .fault (.notEnabled "FLIP_DRAIN_DONE")) ∧
      (¬ staged → exec .flipDrainDone s = .next { s with awl := { s.awl with
        flipNow := none, flipDone := true, flipFrame := f.frame,
        flips := s.awl.flips.map fun g => if g.ack && g.frame == f.frame then { g with entry := f.entry } else g } })) ∧
    (s.awl.flipNow = none → exec .flipDrainDone s = .fault (.notEnabled "FLIP_DRAIN_DONE")) ∧
    (let mbox := s.rd (ringPA 8) 8
     let size := 2 ^ s.rd (ringPA 16) 1
     let head := s.rd (ringPA 0x14) 4
     let full := (head + 2 ^ 32 - s.rd (ringPA 0x18) 4) % 2 ^ 32 = size
     (∀ r rest, s.awl.mail = r :: rest → mbox ≠ 0 → ¬ full →
       let bytes := [r.kind, r.space, 0, 0] ++ leBytes r.tid 4 ++ leBytes r.k 8 ++ leBytes r.hframe 8 ++ leBytes 0 8
       let t := (s.wr (hostAddr (mbox + 32 * (head % size))) (leNat bytes) 32).wr (ringPA 0x14) ((head + 1) % 2 ^ 32) 4
       exec .mailboxRecordWrite s = .next { t with awl := { s.awl with mail := rest, msix := s.awl.msix ++ [64] } }) ∧
     (s.awl.mail = [] ∨ mbox = 0 ∨ full → exec .mailboxRecordWrite s = .fault (.notEnabled "MAILBOX_RECORD_WRITE"))) ∧
    (let y := s.space sp
     let a := pa.toNat
     let bad := s.awl.poisonedEntries.contains (sp, a) = true
     let size := if y.ttbl ≤ a ∧ a < y.ttbl + 16 * y.tcount then 16 else 8
     let good := (y.treg ≤ a ∧ a + size ≤ y.treg + y.tlen) ∧ s.anyPoison (hostAddr (y.shadow + (a - y.treg))) size = false
     let t := fun (l : List (BitVec 6 × Nat)) => ({ s with awl := { s.awl with poisonedEntries := l } } : State)
     let record := fun (kind : BitVec 8) => ({ kind := kind, space := sp.zeroExtend 8, tid := 0, k := a - y.treg, hframe := 0 } : MailRec)
     (bad → good → exec (.entryRebuild sp pa) s =
       .next (((t (s.awl.poisonedEntries.filter fun e => e.2 != a)).wr a (s.rd (hostAddr (y.shadow + (a - y.treg))) size) size).mail (record 3))) ∧
     (bad → ¬ good → exec (.entryRebuild sp pa) s = .next ((t (s.awl.poisonedEntries.filter fun e => e != (sp, a))).mail (record 4))) ∧ (¬ bad → exec (.entryRebuild sp pa) s = .fault (.notEnabled "ENTRY_REBUILD")))

/-- Events of the distributor (R91 to R100, R105, R178, R352 to R355, R394; R129 of spec/06 and R326 of spec/15). It places a consumer behind its producer, else the
first of the ready pool, in the order of its key, that has a suitable core, on the first such core, unless placement is deferred, and a node that is placed enters a
free slot; a node that waits in the pool asks out the last of the nodes that may make room for it, and that node goes back where it has not started and is asked to
leave where it runs; a core joins or leaves the reserve when its last node of the other kind has left; a segment that has been copied is put into its half; a front
end takes a pre-emption when its node stands at a boundary and the save region has room, and a pair is taken as one; a node that has quiesced is saved, with its
registers, control block, wait and pool in its save area, a pair both members at once. By the model's choice the areas are the lowest frames that are free, a payload
area has a free size, and the record holds one wait (log entry 31); of a pair a member that has ended is saved with the other, and of one that is asked out it is asked
no more (log entry 74); a request that comes between the subtraction of a BARB and the bundle behind it waits (R326, log entry 76). A node takes the first free slot and
a consumer the first free one behind its producer, by the model's reading (log entry 26), and the pool units are the lowest free ones, by its choice (log entry 78). A
node that goes back is WAITING where it is the consumer of a pair that has not been examined and its predecessor has not committed, and else READY (R66). -/
def Obligations.DistributorEvents : Prop :=
  ∀ (s : State) (uid : Nat) (core : BitVec 10) (begun : Nat × Nat),
    let n := s.node uid
    let c := s.core core.toNat
    (s.dist.deferred = false →
      (∀ k p b, s.spliceReady = some (k, p, b) → exec .distributorPlace s = .next (s.placeConsumer k p b)) ∧
      (s.spliceReady = none → ∀ m b, s.nextPlacement = some (m, b) → exec .distributorPlace s = .next (s.settlePool.placeOn m b.idx))) ∧
    (s.dist.deferred = true ∨ (s.spliceReady = none ∧ s.nextPlacement = none) → exec .distributorPlace s = .fault (.notEnabled "DISTRIBUTOR_PLACE")) ∧
    (∀ m b, s.nextPlacement = some (m, b) →
      let fit := fun (v : Node) (k : Core) => k ∈ s.cores ∧ s.suitable (s.together v) k = true
      let may := fun (v : Node) => v ∈ s.allNodes ∧ s.offered v = true ∧ v.desc.uid ∈ s.settlePool.dist.pool
      may m ∧ fit m b ∧ (∀ k, fit m k → keyBefore (coreKey m k) (coreKey m b) = false) ∧ ∀ v k, may v → fit v k → keyBefore (s.key v) (s.key m) = false) ∧
    (∀ idx, n.desc.uid = uid → uid ≠ 0 →
      let k := s.core idx
      let q := n.run.partner
      (n.run.st ≠ .saved ∨ q = 0 → ∀ i : Fin 4, k.slots[i] = 0 → (∀ j < i, k.slots[j] ≠ 0) → Entered s (s.placeOn n idx) idx i uid) ∧
      (n.run.st = .saved → q ≠ 0 → q ≠ uid → (s.node q).desc.uid = q → ∀ i j : Fin 4, i < j → k.slots[i] = 0 → k.slots[j] = 0 →
        (∀ m < j, m ≠ i → k.slots[m] ≠ 0) → ∃ t, Entered s t idx i uid ∧ Entered t (s.placeOn n idx) idx j q)) ∧
    (∀ (p : Node) (k : Core) (j : Nat), n.desc.uid = uid → uid ≠ 0 → k = s.core k.idx → (∀ sp ∈ k.pairs, sp.p ≠ p.desc.uid) → j < 4 →
      let behind := fun (j : Nat) => (slotOfNode k p.desc.uid + 1 + j) % 4
      k.slots.toList.getD (behind j) 1 = 0 → (∀ i < j, k.slots.toList.getD (behind i) 1 ≠ 0) →
      ∃ t, Entered s t k.idx (behind j) uid ∧ (t.node uid).run.behind = true ∧
        s.placeConsumer n p k = t.setCore { t.core k.idx with pairs := k.pairs ++ [{ st := .marked, p := p.desc.uid, c := uid }] }) ∧
    (n.desc.uid = uid → uid ≠ 0 →
      let q := n.run.partner
      (n.run.st ≠ .placed → q ≠ uid →
        (s.askOut n).node uid = { n with run := { n.run with preempt := true } } ∧ SameNodesBut s (s.askOut n) [uid, q] ∧ (s.askOut n).cores = s.cores ∧ (s.askOut n).mem = s.mem ∧
        (q ≠ 0 → (s.node q).desc.uid = q →
          (s.askOut n).node q = { s.node q with run := { (s.node q).run with preempt := decide ((s.node q).run.st = .running) } })) ∧
      (n.run.st = .placed → q = 0 ∨ n.run.saveArea = none →
        let back : Run := { n.run with
          st := if n.run.saveArea.isSome then .saved else if n.run.behind = true ∧ n.run.remaining ≠ 0 then .waiting else .ready
          behind := false
          refusal := if n.run.saveArea.isSome then n.run.refusal else none }
        ((s.askOut n).node uid).run = back ∧ ((s.askOut n).node uid).regs = n.regs ∧ LeftItsCore s (s.askOut n) uid ∧ SameNodesBut s (s.askOut n) [uid] ∧
        (s.askOut n).mem = s.mem ∧ ∀ k ∈ (s.askOut n).cores, ∀ sp ∈ k.pairs, sp.p ≠ uid ∧ sp.c ≠ uid)) ∧
    (∀ v ∈ s.victims n, (s.queue v.desc.queue).prio < (s.queue n.desc.queue).prio ∧ (v.run.st = .running ∨ v.run.st = .placed)) ∧
    (let waits := uid ≠ 0 ∧ s.offered n = true ∧ uid ∈ s.settlePool.dist.pool ∧ s.coreFor n = none
     (waits → ∀ v, latestBy s.key (s.victims n) = some v → exec (.preemptWaitExpiry uid) s = .next (s.askOut v)) ∧
     (waits → latestBy s.key (s.victims n) = none → exec (.preemptWaitExpiry uid) s = .next s) ∧
     (¬ waits → exec (.preemptWaitExpiry uid) s = .fault (.notEnabled "PREEMPT_WAIT_EXPIRY"))) ∧
    (let free := fun (comm : Bool) => ∀ m ∈ s.residentNodes c, m.desc.image.comm ≠ comm
     (c.join = true → c.leaving = true → free true → exec (.reserveChangeDone core) s = .next (s.setCore { c with rsv := false, join := false, leaving := false })) ∧
     (c.join = true → c.leaving = false → free false → exec (.reserveChangeDone core) s = .next (s.setCore { c with rsv := true, join := false })) ∧
     (c.join = false ∨ ¬ free c.leaving → exec (.reserveChangeDone core) s = .fault (.notEnabled "RESERVE_CHANGE_DONE"))) ∧
    (let put := fun (x : Resident) => s.setCore { c with imem := c.imem.map fun y => if y.imgid = x.imgid then x else y }
     (∀ r seg half, c.imem.find? (fun r => r.copying.isSome) = some r → r.copying = some (seg, half) →
       let owner := (c.slots.toList.map s.node).find? fun m => m.desc.uid != 0 && m.desc.image.imgid == r.imgid
       (∀ m x, owner = some m → s.readSegment m seg = .ok x →
         exec (.segmentCopyDone core) s = .next (s.setCore { c with imem := c.imem.map fun y => if y.imgid = r.imgid then r.put x half else y })) ∧
       (∀ m f, owner = some m → s.readSegment m seg = .error f → exec (.segmentCopyDone core) s = .next (s.memFault m.desc.uid f)) ∧
       (owner = none → exec (.segmentCopyDone core) s = .next (put { r with copying := none }))) ∧
     ((∀ r ∈ c.imem, r.copying = none) → exec (.segmentCopyDone core) s = .fault (.notEnabled "SEGMENT_COPY_DONE"))) ∧
    (let l := s.savedWith n
     let quiet := fun (m : Node) => (m.run.st = .running ∨ (m.run.st = .retiring ∧ m.run.partner ≠ 0)) ∧ m.run.quiesced = false ∧ s.answered m = true
     let asked := (∃ m ∈ l, m.run.preempt = true) ∧ ∀ m ∈ l, m.ctl.bound = false
     let mayLeave := uid ≠ 0 ∧ asked ∧ (∀ m ∈ l, quiet m) ∧ (∃ m ∈ l, m.run.st = .running) ∧
       ∀ m ∈ l, s.mayBegin m.desc.uid false (if m.desc.uid = uid then begun.1 else 0) = true ∧ s.mayBegin m.desc.uid true (if m.desc.uid = uid then begun.2 else 0) = true
     (mayLeave → ∀ areas, s.saveRoom n = some areas → exec (.preemptQuiesce uid begun) s =
       .next (({ s with free := s.free + l.length } : State).quiesceAll uid begun (l.zip areas))) ∧
     (¬ mayLeave ∨ s.saveRoom n = none → exec (.preemptQuiesce uid begun) s = .fault (.notEnabled "PREEMPT_QUIESCE")) ∧
     (n.run.partner = 0 → l = [n]) ∧ (n.run.partner ≠ 0 → l = [n, s.node n.run.partner] ∨ l = [s.node n.run.partner, n]) ∧
     (∀ areas, s.saveRoom n = some areas → areas.length = l.length ∧ ∀ (m : Node) (b p : Nat), (m, b, p) ∈ l.zip areas →
       0xFC0000 ≤ b ∧ b + m.framesWith p ≤ 0x1000000 ∧ (m.hasPayload = false → p = 0) ∧
       ∀ v ∈ s.allNodes, ∀ a, v.run.saveArea = some a → b + m.framesWith p ≤ a.1 ∨ a.1 + a.2 ≤ b)) ∧
    (s.quiesceAll uid begun [] = s ∧ ∀ (m : Node) (area : Nat × Nat) (rest : List (Node × Nat × Nat)),
      let t := s.quiesceOne m.desc.uid (if m.desc.uid = uid then begun else (0, 0)) area
      s.quiesceAll uid begun ((m, area) :: rest) = if (t.node m.desc.uid).run.st = m.run.st then t.quiesceAll uid begun rest else t) ∧
    (∀ area : Nat × Nat,
      let here := fun (f : State → State) (t : State) => if (t.node uid).run.st = n.run.st then f t else t
      let t := (s.abandonSegment n).mapNode uid fun m => { m with run := { m.run with quiesced := true, preempt := false, ahead := [] } }
      let u := here (fun t => t.finishAdd uid) (here (fun t => t.finishBegun uid true begun.2) (t.finishBegun uid false begun.1))
      s.quiesceOne uid begun area = here (fun u => u.mapNode uid fun m =>
        let size := if m.hasPayload then area.2 else 0
        { m with eng := m.eng.cancelAll, run := { m.run with saveArea := some (area.1, m.framesWith size), payload := size } }) u) ∧
    (∀ (sp : Splice) (base frames : Nat), n.desc.uid = uid → uid ≠ 0 → n.run.saveArea = some (base, frames) → Canonical s →
      let t := s.saveNode uid sp
      let m := t.node uid
      (m.desc = n.desc ∧ m.regs = n.regs ∧ m.ctl = n.ctl ∧ m.run = { n.run with
        st := .saved, preempt := false, quiesced := true, spliceRec := if sp.st.accepted = true ∧ sp.p = uid then some sp else none }) ∧
      LeftItsCore s t uid ∧ SameNodesBut s t [uid] ∧
      (frames = n.framesWith n.run.payload → n.run.gangWidth ∈ [1, 2, 4] → (copyEntries n.eng).length ≤ 48 → (n.run.scr.cells.map fun c => c.1).Nodup →
        (∀ c ∈ n.run.scr.cells, c.1 < fieldN n.ctl.part 16 6 * 65536 * n.run.gangWidth) →
        SavedAt t base n sp ∧ SameMemoryBut s t fun a => dramPA (base * 65536) ≤ a ∧ a < dramPA ((base + frames) * 65536))) ∧
    (let quiet := fun (m : Node) => m.run.quiesced = true ∧ (m.run.st = .running ∨ m.run.st = .retiring)
     let q := n.run.partner
     let sp := s.pairOf uid
     (uid ≠ 0 → quiet n → q = 0 → exec (.nodeSave uid) s = .next ((s.saveNode uid sp).unsplice uid)) ∧
     (uid ≠ 0 → quiet n → q ≠ 0 → quiet (s.node q) → exec (.nodeSave uid) s = .next (((s.saveNode uid sp).saveNode q sp).unsplice uid)) ∧
     (uid = 0 ∨ ¬ quiet n ∨ (q ≠ 0 ∧ ¬ quiet (s.node q)) → exec (.nodeSave uid) s = .fault (.notEnabled "NODE_SAVE")))

/-- The reserve of a stack at a decision (R101): F is the sum of its last ten samples; UP counts decisions above 40,960 N and DN those below 10,240 N; a size
outside NMIN and NMAX steps by two towards them; it grows by two after two decisions up unless it has just shrunk, shrinks by two after four down unless it
has just grown, and else stays. -/
def Obligations.ReserveDecisions : Prop :=
  ∀ (x : Reserve) (s : State),
    let f := x.samples.sum
    let up := if 40960 * x.n < f then x.up + 1 else 0
    let dn := if f < 10240 * x.n then x.dn + 1 else 0
    let inRange := x.nmin ≤ x.n ∧ x.n ≤ x.nmax
    let grows := 2 ≤ up ∧ x.n < x.nmax ∧ (x.cool ≤ 1 ∨ x.last ≠ 2)
    let shrinks := 4 ≤ dn ∧ x.nmin < x.n ∧ (x.cool ≤ 1 ∨ x.last ≠ 1)
    let kept : Reserve := { x with up := up, dn := dn, cool := x.cool - 1 }
    (x.n < x.nmin → x.decide = { kept with n := min x.nmin (x.n + 2) }) ∧
    (x.nmin ≤ x.n → x.nmax < x.n → x.decide = { kept with n := max x.nmax (x.n - 2) }) ∧
    (inRange → grows → x.decide = { kept with n := min x.nmax (x.n + 2), up := 0, dn := 0, cool := 5, last := 1 }) ∧
    (inRange → ¬ grows → shrinks → x.decide = { kept with n := max x.nmin (x.n - 2), up := 0, dn := 0, cool := 3, last := 2 }) ∧
    (inRange → ¬ grows → ¬ shrinks → x.decide = kept) ∧
    (∃ r : Vector Reserve 4, exec .reserveSample s = .next { s with dist := { s.dist with reserve := r } } ∧ ∀ i : Fin 4,
      let l := s.dist.reserve[i].samples ++ [s.waitingFlits i.val]
      r[i] = { s.dist.reserve[i] with samples := l.drop (l.length - 10) }) ∧
    (∃ r : Vector Reserve 4, (∀ i : Fin 4, r[i] = s.dist.reserve[i].decide) ∧ exec .reserveDecision s =
      .next ([0, 1, 2, 3].foldl State.keepReserve { s with dist := { s.dist with reserve := r } }))

/-- A node commits when it retires, its engines report DONE and its raises are answered, and a pair has drained (R126, R360): a pending guard touch fails it
with cause 0x12, a stale generation or an unreadable home record stops it, and else it is committed; of a pair both members are checked before the producer commits,
and the consumer follows in a step of its own that nothing stops (the model's reading, log entry 30). The commit makes the staged bytes visible at their homes (R70);
closes the open census windows and merges each scale register that has closed one into the home records of the operands that name it, by the table of R43; marks the
block LATE where a raise came late (R309), and posts the completion unless JCB.DONE has (R70, R71); counts the successors down, of which a waiting one whose last
predecessor this was becomes READY (R66, R72); and leaves the node COMMITTED without context, slot, units or pair (R360). -/
def Obligations.NodesCommit : Prop :=
  (∀ (s : State) (uid : Nat),
    let n := s.node uid
    let ready := uid ≠ 0 ∧ n.run.st = .retiring ∧ n.run.quiesced = false ∧ ((∀ e : BitVec 2, n.done e = true) ∧ n.run.pendingRaise = []) ∧
      (n.run.partner ≠ 0 → s.pairDrained n = true)
    let begins := ready ∧ n.run.committing = none
    let q := n.run.partner
    let passes := n.ctl.guard = none ∧ s.stale n = false ∧ ∃ l, s.mergePlaces n (mergeList n n.closeAll) = .ok l
    (ready → n.run.committing ≠ none → exec (.nodeCommit uid) s = .next (s.commit uid)) ∧
    (begins → n.ctl.guard ≠ none → exec (.nodeCommit uid) s = .next ((s.countCause uid 0x12).failNode uid (stNodeTrap 0x12)).clearBnd) ∧
    (begins → n.ctl.guard = none → s.stale n = true → exec (.nodeCommit uid) s = .next (s.memFault uid .generation).clearBnd) ∧
    (begins → n.ctl.guard = none → s.stale n = false → ∀ f, s.mergePlaces n (mergeList n n.closeAll) = .error f →
      exec (.nodeCommit uid) s = .next (s.memFault uid f).clearBnd) ∧
    (begins → passes → q = 0 → exec (.nodeCommit uid) s = .next (s.commit uid)) ∧
    (begins → passes → q ≠ 0 →
      (∀ t, s.commitStop q = some t → exec (.nodeCommit uid) s = .next t.clearBnd) ∧
      (s.commitStop q = none → exec (.nodeCommit uid) s =
        .next ((s.mapNode q fun c => { c with run := { c.run with partner := 0, committing := some (s.mergePAs c) } }).commit uid))) ∧
    (¬ ready → exec (.nodeCommit uid) s = .fault (.notEnabled "NODE_COMMIT"))) ∧
  (∀ (s : State) (uid : Nat),
    let n := s.node uid
    let t := s.commit uid
    let places := n.run.committing.getD (s.mergePAs n)
    let homes := places.flatMap fun e => e.2
    let staged := n.run.staged.cells.map fun c => c.1
    let status := if n.run.late = 0 then [] else (n.desc.jcb.map fun j => (List.range 4).map fun i => jcbPA j + 8 + i).getD []
    n.desc.uid = uid → uid ≠ 0 →
    (Canonical s → s.poison.Nodup → (staged ++ homes ++ status).Nodup → (∀ e ∈ places, e.2.length = 8) →
      (∀ c ∈ n.run.staged.cells, t.byte c.1 = c.2 ∧ t.poisoned c.1 = n.run.staged.poison.contains c.1) ∧
      (∀ e ∈ places, leNat (e.2.map t.byte) = (mergeScale (leNat (e.2.map s.byte)) ((n.closeAll.k[e.1]?).getD 0) n.ctl.step.toNat).1 ∧
        ∀ a ∈ e.2, t.poisoned a = s.poisoned a) ∧
      (∀ j, n.desc.jcb = some j → n.run.late ≠ 0 → t.rd (jcbPA j + 8) 4 = s.rd (jcbPA j + 8) 4 ||| 4) ∧
      (∀ a, a ∉ staged ++ homes ++ status → t.byte a = s.byte a ∧ t.poisoned a = s.poisoned a)) ∧
    (t.awl.posts = s.awl.posts ++ match n.desc.jcb with
      | none => []
      | some j => if n.desc.image.unstg = true ∧ n.run.doneIssued = true then [] else [{ uid := uid, queue := n.desc.queue, jcb := j, fail := none }]) ∧
    (uid ∉ n.desc.succs → SameNodesBut s t (uid :: n.desc.succs) ∧ ∀ v ∈ n.desc.succs, n.desc.succs.count v = 1 → v ≠ 0 → (s.node v).desc.uid = v →
      let m := s.node v
      let barred := ∃ e ∈ s.awl.graphs, e.id = m.desc.graph ∧ e.failed ≠ none ∧ v ∉ e.live
      (m.run.st = .waiting → m.run.remaining ≤ 1 → ¬ barred → (t.node v).run = { m.run with st := .ready, remaining := 0 }) ∧
      (m.run.st ≠ .waiting ∨ 1 < m.run.remaining ∨ barred → (t.node v).run = { m.run with remaining := m.run.remaining - 1 })) ∧
    (uid ∉ n.desc.succs →
      let m := t.node uid
      m.desc = n.desc ∧ m.regs = Regs.reset ∧ m.ctl = {} ∧ m.eng = {} ∧ m.run.st = .committed ∧ m.run.staged = {} ∧ m.run.scr = {} ∧ m.run.partner = 0 ∧
      m.run.saveArea = none ∧
      (∀ c, s.coreOf uid = some c → (t.core c.idx).slots = c.slots.map (fun u => if u = uid then 0 else u) ∧
        (t.core c.idx).units = c.units.map fun u => if u = uid then 0 else u) ∧
      ∀ c ∈ t.cores, ∀ sp ∈ c.pairs, sp.p ≠ uid ∧ sp.c ≠ uid)) ∧
  (∀ (n : Node) (r : Regs), (mergeList n r).Nodup ∧ ∀ (k : Nat) (a : Word), (k, a) ∈ mergeList n r ↔
    (∃ h, (h, a) ∈ n.desc.handles.zip n.desc.srecs ∧ Handle.kidx h = k) ∧ (r.closed[k]?).getD 0 ≠ 0) ∧
  (∀ (n : Node), (∀ i : Fin 64, n.ctl.cissued[i] ≤ n.regs.closed[i]) → ∀ i : Fin 64,
    (cenCur n.regs.k[i] < 32 → n.closeAll.k[i] = (n.regs.closeWindow (BitVec.ofNat 6 i)).k[i] ∧ n.closeAll.closed[i] = n.regs.closed[i] + 1) ∧
    (32 ≤ cenCur n.regs.k[i] → n.closeAll.k[i] = n.regs.k[i] ∧ n.closeAll.closed[i] = n.regs.closed[i])) ∧
  (∀ (home : Nat) (k : BitVec 32) (step : Nat),
    let old := BitVec.ofNat 32 home
    let was := home / 2 ^ 32
    let v := BitVec.ofNat 32 (mergeScale home k step).1
    (mergeScale home k step).1 / 2 ^ 32 = max was step ∧ ((mergeScale home k step).2 = true ↔ step < was) ∧
    v.extractLsb' 24 4 = old.extractLsb' 24 4 ∧ v.getLsbD 21 = (old.getLsbD 21 || k.getLsbD 21) ∧ v.getLsbD 22 = (old.getLsbD 22 || k.getLsbD 22) ∧
    (step < was → v.extractLsb' 0 21 = old.extractLsb' 0 21) ∧
    (was < step → cenV v = cenV k ∧ cenPrev v = min (cenPrev k) 32 ∧ v.extractLsb' 0 8 = k.extractLsb' 0 8) ∧
    (was = step → cenV v = (cenV old || cenV k) ∧ cenPrev v = min (min (cenPrev old) (cenPrev k)) 32 ∧
      (v.extractLsb' 0 8).toInt = max (old.extractLsb' 0 8).toInt (k.extractLsb' 0 8).toInt))

/-- Events of engines, waits and boundaries of a node (R42, R69, R229, R278 to R280, R283 to R285, R305 to R307, R325, R349, R358). The command that the engine of a
copy slot works on, or the head of the epilogue, completes; a copy that has fired joins its slot's queue when there is room, of those of the core's nodes the one that fired
first (the model's reading, log entry 33); a pending close takes effect when its census writes are done; the waits of a node whose conditions hold end together, and what a
BARB subtracts follows; the boundary's cause is taken, or the user-level handler is entered when no cause stands before it; a consumed error rolls back the node that is
current on its core, or one that has ended and whose pair has not begun to commit, and counts its cause (the model's reading, log entry 68). What a command writes: its
parts one after the other, each element as its word has it, at its place in the destination and in the copies of a CPYB, none beyond the extents; then the census, SAT and POI
of the scale register, the counter and the record follow, and an access fault ends it with its record instead; an EPI.ADD adds with saturation. The entry to the user-level
handler records what its return needs; a rollback discards the run, returns its tokens and withdraws its raises. By the model's reading the waits are kept at that entry
and an IDLE ends (log entry 20), a close in flight is not recorded (log entry 60), and the waits of a node are tested against the same values (log entry 76). A wait that
ends and that entry are acquires: nothing that has been read ahead stands (R292; log entry 91). -/
def Obligations.NodeEvents : Prop :=
  (∀ (s : State) (uid i : Nat) (slot : CopySlot) (k : BitVec 6) (core : BitVec 10),
    let n := s.node uid
    let cb := slot == .cb
    (∀ c rest, n.eng.queue cb = c :: rest → s.headMoves uid cb c = true → exec (.copyComplete uid slot) s = .next (s.completeCopy uid cb c)) ∧
    ((∀ c rest, n.eng.queue cb = c :: rest → s.headMoves uid cb c = false) → exec (.copyComplete uid slot) s = .fault (.notEnabled "COPY_COMPLETE")) ∧
    (let fires := fun (c : CopyCmd) => n.live = true ∧ s.firstFired uid cb = some (uid, c) ∧ s.slotLoad uid cb < 16
     let joined := fun (c : CopyCmd) => (n.eng.setArmed cb ((n.eng.armedOf cb).erase c)).setQueue cb (n.eng.queue cb ++ [c])
     (∀ v c, s.firstFired uid cb = some (v, c) → (∃ m ∈ s.sharers uid, m.desc.uid = v ∧ c ∈ m.eng.armedOf cb ∧ c.fired = true) ∧
       ∀ m ∈ s.sharers uid, ∀ d ∈ m.eng.armedOf cb, d.fired = true → c.seq ≤ d.seq) ∧
     (∀ c, (n.eng.armedOf cb)[i]? = some c → fires c → exec (.cpyqFire uid slot i) s = .next (s.setNode { n with eng := joined c })) ∧
     ((∀ c, (n.eng.armedOf cb)[i]? = some c → ¬ fires c) → exec (.cpyqFire uid slot i) s = .fault (.notEnabled "CPYQ_FIRE"))) ∧
    (∀ c rest, n.eng.epi = .add c :: rest → n.live = true → n.addMoves c = true → exec (.epiAddComplete uid) s = .next (s.completeAdd uid c)) ∧
    ((∀ c rest, n.eng.epi = .add c :: rest → n.live = false ∨ n.addMoves c = false) → exec (.epiAddComplete uid) s = .fault (.notEnabled "EPI_ADD_COMPLETE")) ∧
    (k ∈ n.ctl.cwaiting → n.censusPending k = false → exec (.censusClose uid k) s =
      .next (s.setNode { n with regs := n.regs.closeWindow k, ctl := { n.ctl with cwaiting := n.ctl.cwaiting.erase k } })) ∧
    (k ∉ n.ctl.cwaiting ∨ n.censusPending k = true → exec (.censusClose uid k) s = .fault (.notEnabled "CENSUS_CLOSE")) ∧
    (let runs := n.run.st = .running ∧ n.live = true
     let held := n.ctl.waits ++ n.ctl.uiWaits ++ n.ctl.trapWaits
     let ends := fun (i : Instr) (row : String) (w : Prop) => (runs ∧ w → exec i s = .next (s.setNode n.settleWaits)) ∧ (¬ (runs ∧ w) → exec i s = .fault (.notEnabled row))
     ends (.waitSatisfied uid) "WAIT_SATISFIED" (∃ c t, (.cwait c t ∈ held ∨ .barb c t ∈ held) ∧ t.toNat ≤ (n.regs.c[c.toNat]).toNat) ∧
     ends (.barRelease uid) "BAR_RELEASE" (∃ m, .bar m ∈ held ∧ ∀ e : Fin 4, m.getLsbD e = true → n.done (BitVec.ofNat 2 e) = true) ∧
     ends (.idleEnd uid) "IDLE_END" (.idle ∈ held ∧ (n.ctl.ui.recs ≠ [] ∨ n.eng.uiPending = false))) ∧
    (∀ (c : BitVec 6) (t : Word) (m : BitVec 4), n.ctl.uiWaits = [] → n.ctl.trapWaits = [] →
      let freed : Node := { n with run := { n.run with ahead := [] }, ctl := { n.ctl with waits := [] } }
      (n.ctl.waits = [.cwait c t] → t.toNat ≤ (n.regs.c[c.toNat]).toNat → n.settleWaits = freed) ∧
      (n.ctl.waits = [.barb c t] → t.toNat ≤ (n.regs.c[c.toNat]).toNat → n.settleWaits =
        { freed with regs := { n.regs with c := n.regs.c.setIfInBounds c.toNat (n.regs.c[c.toNat] - t.extractLsb' 0 32) },
                     ctl := { freed.ctl with mustIssue := n.ctl.mustIssue || t != 0 } }) ∧
      (n.ctl.waits = [.bar m] → (∀ e : Fin 4, m.getLsbD e = true → n.done (BitVec.ofNat 2 e) = true) → n.settleWaits = freed) ∧
      (n.ctl.waits = [.idle] → n.ctl.ui.recs ≠ [] ∨ n.eng.uiPending = false → n.settleWaits = freed)) ∧
    (let t := s.focusOn core.toNat
     (∀ u, t.atBoundary = true → t.dueNow = some u → exec (.trapEntry core) s = .next u.clearBnd) ∧
     (t.atBoundary = false ∨ t.dueNow = none → exec (.trapEntry core) s = .fault (.notEnabled "TRAP_ENTRY")) ∧
     (let may := t.atBoundary = true ∧ t.cur.ctl.ui.recs ≠ [] ∧ t.cur.ctl.ui.act = false ∧ t.cur.ctl.trap.act = false ∧ t.dueNow = none
      (may → exec (.userInterruptEntry core) s = .next t.enterUser.clearBnd) ∧ (¬ may → exec (.userInterruptEntry core) s = .fault (.notEnabled "USER_INTERRUPT_ENTRY")))) ∧
    (let may := uid ≠ 0 ∧ n.run.quiesced = false ∧ n.run.committing = none ∧ ((n.run.st = .running ∧ ∃ c, s.coreOf uid = some c ∧ c.current = uid) ∨ n.run.st = .retiring)
     (may → exec (.errorConsumed uid) s = .next ((s.countCause uid 0x33).rollback uid none)) ∧ (¬ may → exec (.errorConsumed uid) s = .fault (.notEnabled "ERROR_CONSUMED")))) ∧
  (∀ (c : CopyCmd) (k x idx : Nat) (j : List Nat) (e : Option ElemRead), 0 < fmtWidth c.hD.fmt →
    let w := fmtWidth c.hD.fmt
    let exts := windowExts c.sw c.sw1
    let put := fun (v : Int) (poison : Bool) => (lowBits w (clampTo w false v), clamps w false v, poison)
    let value := (e.map fun y => y.value (fmtWidth c.hS.fmt)).getD 0
    let poison := (e.map fun y => y.poison).getD false
    let sh := ctlSh c.sw1
    (c.kind = .cpy ∨ c.kind = .cpyb ∨ c.kind = .cpyq → c.plainOut idx e = ((e.map fun y => y.bits).getD 0, false, poison)) ∧
    (c.kind = .cpyf → c.plainOut idx e = put c.x.toInt false) ∧
    (c.kind = .cpyk → 0 ≤ sh → c.plainOut idx e = put (roundBy (ctlRm c.sw1) c.seed.toNat c.step.toNat idx value sh.toNat) poison) ∧
    (c.kind = .cpyk → sh < 0 → c.plainOut idx e = put (value * 2 ^ (-sh).toNat) poison) ∧
    (5 ≤ j.length → ∀ d < 5, (c.destCell k j).getD d 0 = Handle.org c.hD d + j.getD d 0 + if c.kind = .cpyb ∧ d = fanDim c.x then k * fanStride c.x else 0) ∧
    (fmtBlock c.hD.fmt = false → c.parts = (List.range (prodN exts)).map fun i => [i]) ∧
    (x ∈ c.rest ↔ x < (if c.kind = .cpyb then fanCount c.x else 1) * c.parts.length ∧ x ∉ c.progress.done)) ∧
  (∀ (s : State) (uid : Nat) (cb : Bool) (c : CopyCmd) (p : Nat) (at_ : Progress), 0 < c.parts.length →
    let unit : BitVec 3 := if cb then 3 else 2
    let exts := windowExts c.sw c.sw1
    let k := p / c.parts.length
    let j := p % c.parts.length
    let blk := c.parts.getD j []
    let run : CopyRun := { st := s, at_ := at_, fin := .done }
    let read := fun (i : Nat) => s.sourceElem (s.node uid) c.hS (unlin exts i)
    let fetched := run.fetch uid unit c (k * prodN exts) j blk
    let t := fetched.2.st
    let m := t.node uid
    let r := copyPart uid cb c c.parts run p
    let xs := blk.map fun i => c.destCell k (unlin exts i)
    let idx := fun (x : List Nat) => linIndex c.hD.exts x
    (c.kind = .cpyf → fetched = (blk.map fun _ => none, run)) ∧
    (c.kind ≠ .cpyf → ∀ es, at_.got j = some es → fetched = (es, run)) ∧
    (c.kind ≠ .cpyf → at_.got j = none → (∀ f i l, blk = i :: l → (read i = .error f → fetched.1 = [] ∧ fetched.2 = { run with fin := engineEnd f.1 (k * prodN exts + i) }))) ∧
    (c.kind ≠ .cpyf → at_.got j = none → (∀ es : List (Option ElemRead), es.length = blk.length → (∀ e ∈ blk.zip es, read e.1 = .ok e.2) →
      fetched.1 = es ∧ fetched.2.fin = .done ∧ t = (s.countCorrected uid es).touch uid unit none (guardOf es))) ∧
    (fetched.2.fin ≠ .done → r = fetched.2) ∧
    (fetched.2.fin = .done → r.at_.done = setAdd at_.done p) ∧
    (fetched.2.fin = .done → fmtBlock c.hD.fmt = false → ∀ i, blk = [i] →
      let x := c.destCell k (unlin exts i)
      let o := c.plainOut (idx x) (fetched.1.headD none)
      (inside c.hD.exts x = false → r.st = t ∧ r.fin = .done) ∧
      (inside c.hD.exts x = true → ∀ f off, t.planElem m c.hD x o.1 o.2.2 = .error (f, off) → r.st = t ∧ r.fin = engineEnd f (k * prodN exts + i)) ∧
      (inside c.hD.exts x = true → ∀ l, t.planElem m c.hD x o.1 o.2.2 = .ok l → r.st = t.doWrites uid unit none l ∧
        r.fin = (if (r.st.node uid).overBudget then .stops .overflow else .done) ∧ r.at_.sat = (at_.sat || o.2.1) ∧ r.at_.poi = (at_.poi || o.2.2))) ∧
    (fetched.2.fin = .done → fmtBlock c.hD.fmt = true →
      let o := c.blockOut (xs.map idx) fetched.1
      ((∃ x ∈ xs, inside c.hD.exts x = false) → r.st = t ∧ r.fin = .done) ∧
      ((∀ x ∈ xs, inside c.hD.exts x = true) → ∀ l l',
        planAll (fun (e : List Nat × (Int × Bool × Bool)) => t.planElem m c.hD e.1 (lowBits (fmtWidth c.hD.fmt) e.2.1) e.2.2.2) (xs.zip o.2.1) = .ok l →
        t.planShift m c.hD (xs.headD []) o.1 o.2.2 = .ok l' → r.st = t.doWrites uid unit none (l ++ l')))) ∧
  (∀ (s : State) (uid : Nat) (cb : Bool) (c : CopyCmd),
    let r := c.rest.foldl (copyPart uid cb c c.parts) { st := s, at_ := c.progress, fin := .done }
    let ended := r.st.mapNode uid fun n =>
      let m := n.noteWrite c.hD c.win (if ctlCe c.sw1 then r.at_.census else none) r.at_.sat r.at_.poi
      { m with eng := m.eng.setQueue cb ((m.eng.queue cb).drop 1) }
    let added := if ctlCv c.sw1 then
        ended.addCounter uid (ctlCnt c.sw1) (windowBytes (windowExts c.sw c.sw1) (fmtWidth c.hD.fmt) (if c.kind = .cpyb then fanCount c.x else 1))
      else ended
    (∀ f, r.fin = .stops f → s.completeCopy uid cb c = r.st.memFault uid f) ∧
    (∀ e, r.fin = .access e → s.completeCopy uid cb c = (ended.countCause uid 0x11).mapNode uid fun n => n.recordCopyFault cb c.addr e) ∧
    (r.fin = .done → ctlUi c.sw1 = false → s.completeCopy uid cb c = added) ∧
    (r.fin = .done → ctlUi c.sw1 = true → s.completeCopy uid cb c = added.mapNode uid fun n => n.addRecord (if cb then 1 else 0) (ctlCnt c.sw1))) ∧
  (∀ (s : State) (uid : Nat) (c : EpiAdd),
    let r := s.runAdd uid c c.rest
    let ended := r.st.mapNode uid fun n =>
      let m := n.noteWrite c.h c.win r.at_.census (c.sticky || r.at_.sat) r.at_.poi
      { m with eng := { m.eng with epi := m.eng.epi.drop 1 } }
    (∀ f, r.fin = .stops f → s.completeAdd uid c = r.st.memFault uid f) ∧
    (∀ e, r.fin = .access e → s.completeAdd uid c = (ended.countCause uid 0x11).mapNode uid fun n => n.setFault 2) ∧
    (r.fin = .done → s.completeAdd uid c = ended) ∧
    (s.runAdd uid c [] = { st := s, at_ := c.progress, fin := .done }) ∧
    (∀ (v : EpiVal) (i : Nat),
      let x := accCell c.h (matrixCols (s.node uid).run.gangWidth) i
      let n := s.node uid
      let one := s.runAdd uid c [(v, i)]
      (inside c.h.exts x = false → one.st = s ∧ one.fin = .done) ∧
      (inside c.h.exts x = true → ∀ f off, s.readElem n c.h x = .error (f, off) → one.st = s ∧ one.fin = engineEnd f i) ∧
      (inside c.h.exts x = true → ∀ g, s.readElem n c.h x = .ok g →
        let sum := ElemRead.value g 32 + v.v
        (∀ f off, s.planElem n c.h x (lowBits 32 (clampTo 32 false sum)) (g.poison || v.poison) = .error (f, off) → one.st = s ∧ one.fin = engineEnd f i) ∧
        ∀ l, s.planElem n c.h x (lowBits 32 (clampTo 32 false sum)) (g.poison || v.poison) = .ok l →
          one.st = (s.touch uid 4 none g.guard).doWrites uid 4 none l ∧ one.at_.sat = (c.progress.sat || v.clamp || clamps 32 false sum)))) ∧
  (∀ (s : State) (slot : BitVec 1) (cnt : BitVec 6) (rest : List (BitVec 1 × BitVec 6)),
    let k := s.cur.ctl
    let v := s.cur.desc.image.uivec.toNat
    s.cur.ctl.ui.recs = (slot, cnt) :: rest → offsetOf s.cur.desc.image.ovl v % 12 = 0 →
    let u := s.enterUser
    let g := u.cur.ctl
    u.cur = { s.cur with run := { s.cur.run with ahead := [] }, ctl := g } ∧ u.nodes = s.nodes ∧ u.mem = s.mem ∧ g.ui = { k.ui with slot := slot, cnt := cnt, recs := rest, ra := k.pc, act := true } ∧
    g.bank = true ∧ g.pc = BitVec.ofNat 22 v ∧ g.flight = [] ∧ g.uiFlight = (k.flight.filter fun f => match f.eff with
      | .cenClose _ => false
      | _ => true) ∧
    g.waits = [] ∧ g.uiWaits = k.waits.filter (fun w => w != .idle) ∧ g.mustIssue = false ∧ g.uiMust = k.mustIssue ∧ g.loops = k.loops ∧ g.trap = k.trap) ∧
  (∀ (s : State) (uid : Nat) (mark : Option (Nat × Nat × Nat)),
    let n := s.node uid
    let t := s.rollback uid mark
    n.desc.uid = uid → uid ≠ 0 →
    (n.desc.image.unstg = true → t = s.failNode uid 0x22) ∧
    (n.desc.image.unstg = false → n.run.irrev = true ∨ (n.run.partner ≠ 0 ∧ (s.node n.run.partner).run.irrev = true) → t = s.failNode uid 0x21) ∧
    (n.desc.image.unstg = false → n.run.irrev = false → n.run.partner = 0 →
      let m := t.node uid
      (m.regs = Regs.reset ∧ m.ctl = {} ∧ m.eng = {} ∧ m.run.st = .ready ∧ m.run.remaining = 0 ∧ m.run.mark = mark ∧ m.run.staged = {} ∧ m.run.scr = {} ∧ m.run.raises = 0 ∧
        m.run.tokens = [] ∧ m.desc.image = n.desc.image ∧ m.desc.args = n.desc.args ∧ m.desc.handles = n.desc.handles) ∧
      SameNodesBut s t [uid] ∧ t.awl.links = returnTokens s.awl.links n.run.tokens ∧
      (∀ c, s.coreOf uid = some c → (t.core c.idx).slots = c.slots.map (fun u => if u = uid then 0 else u) ∧
        (t.core c.idx).units = c.units.map fun u => if u = uid then 0 else u) ∧
      (n.run.pendingRaise = [] → Canonical s →
        (n.desc.jcb = none ∨ n.run.raises = 0 → t.mem = s.mem) ∧
        (∀ j, n.desc.jcb = some j → n.run.raises < 2 ^ 32 → (t.rd (jcbPA j) 4 + n.run.raises) % 2 ^ 32 = s.rd (jcbPA j) 4 ∧
          SameMemoryBut s t fun a => jcbPA j ≤ a ∧ a < jcbPA j + 4))))

/-- Job control blocks at their home (R71, R308): a raise is accepted while the block is OPEN, the raiser's completion has not been posted and EXPECTED stays
below 2^32, and else is refused with its flag; its answer writes pD when the node's earlier answers have come; a completion adds to DONE and the last one sets
COMPLETE and fires; on a block that is not OPEN or whose DONE equals EXPECTED it sets EXTRA; a failure of an OPEN block sets FAILED, records its node and status and
fires. That a completion counts where DONE is above EXPECTED, a case that no row of R71's table covers, is the model's choice (log entry 85). -/
def Obligations.JobControlBlocks : Prop :=
  ∀ (s : State) (uid : Nat) (jcb : BitVec 12) (node : BitVec 20) (status : BitVec 32),
    let n := s.node uid
    let pa := jcbPA jcb
    let opened := s.rd (pa + 8) 4 % 4 = 0
    let orStatus := fun (t : State) (bits : Nat) => t.wr (pa + 8) (t.rd (pa + 8) 4 ||| bits) 4
    (∀ r, n.run.pendingRaise.find? (fun r => r.ans == none) = some r → n.desc.jcb = some jcb →
      let e := s.rd pa 4
      let answered := fun (t : State) (ok : Bool) => t.mapNode uid fun m => { m with run := { m.run with
        pendingRaise := m.run.pendingRaise.map (fun x => if x.id = r.id then { x with ans := some ok } else x),
        raises := m.run.raises + (if ok = true ∧ m.desc.image.unstg = false then r.n.toNat else 0), refused := m.run.refused + (if ok then 0 else 1) } }
      (r.posted = false → opened → e + r.n.toNat < 2 ^ 32 → exec (.jcbHomeRaise uid) s = .next (answered (s.wr pa (e + r.n.toNat) 4) true)) ∧
      (r.posted = true ∨ ¬ opened → exec (.jcbHomeRaise uid) s = .next (answered (orStatus s 4) false)) ∧
      (r.posted = false → opened → 2 ^ 32 ≤ e + r.n.toNat → exec (.jcbHomeRaise uid) s = .next (answered (orStatus s 8) false))) ∧
    ((∀ r ∈ n.run.pendingRaise, r.ans ≠ none) ∨ n.desc.jcb = none → exec (.jcbHomeRaise uid) s = .fault (.notEnabled "JCB_HOME_RAISE")) ∧
    (∀ r ok rest, n.run.pendingRaise = r :: rest → r.ans = some ok → exec (.jcbRaiseAnswer uid) s =
      .next (s.setNode { n with ctl := n.ctl.answer r.id ok, run := { n.run with pendingRaise := rest } })) ∧
    ((∀ r, n.run.pendingRaise.head? = some r → r.ans = none) → exec (.jcbRaiseAnswer uid) s = .fault (.notEnabled "JCB_RAISE_ANSWER")) ∧
    (let here := fun (p : JcbPost) => p.jcb == jcb && p.fail == none
     let t : State := { s with awl := { s.awl with posts := dropPost s.awl.posts here } }
     let e := s.rd pa 4
     let d := s.rd (pa + 4) 4
     (∀ p, s.awl.posts.find? here = some p →
       let first := (s.node p.uid).run.pendingRaise.find? fun r => r.ans == none
       ((∀ r, first = some r → r.posted = true) →
         (¬ opened ∨ d = e → exec (.jcbHomeCompletion jcb) s = .next (orStatus t 16)) ∧
         (opened → d ≠ e → d + 1 ≠ e → exec (.jcbHomeCompletion jcb) s = .next (t.wr (pa + 4) ((d + 1) % 2 ^ 32) 4)) ∧
         (opened → d + 1 = e → exec (.jcbHomeCompletion jcb) s = .next ((orStatus (t.wr (pa + 4) ((d + 1) % 2 ^ 32) 4) 1).jcbFire jcb))) ∧
       (∀ r, first = some r → r.posted = false → exec (.jcbHomeCompletion jcb) s = .fault (.notEnabled "JCB_HOME_COMPLETION"))) ∧
     ((∀ p ∈ s.awl.posts, here p = false) → exec (.jcbHomeCompletion jcb) s = .fault (.notEnabled "JCB_HOME_COMPLETION"))) ∧
    (let here := fun (p : JcbPost) => p.jcb == jcb && p.fail == some (node, status)
     let t : State := { s with awl := { s.awl with posts := dropPost s.awl.posts here } }
     ((∃ p ∈ s.awl.posts, here p = true) →
       (¬ opened → exec (.jcbHomeNodeFailure jcb node status) s = .next t) ∧
       (opened → exec (.jcbHomeNodeFailure jcb node status) s =
         .next ((((orStatus t 2).wr (pa + 32) node.toNat 4).wr (pa + 36) status.toNat 4).jcbFire jcb))) ∧
     ((∀ p ∈ s.awl.posts, here p = false) → exec (.jcbHomeNodeFailure jcb node status) s = .fault (.notEnabled "JCB_HOME_NODE_FAILURE")))

/-- Events of the links (R286, R288, R292, R329, R330, R335 to R342). A send that has fired joins the queue, the one that fired first before the others, while there is room
(the model's reading, log entry 33); a delivery in transit to another module goes on by dimension order; one that is for this module goes to the node that accepts it or waits
at the link stop, behind those for its receiver or from its engine unless it fills the gap that they wait for (the model's reading, log entry 34), and one that waits is accepted
when its receiver is there; a send leaves its node in its engine's order and as its scopes let it; an answer completes a send, with a counter's bytes and a record, or sets its FAULT; a send within the module is
answered by its own peer; one that is held for a gap of its stream is accepted when its receiver is there and no gap stands before it (R336, R344); a packet of an
aborted tag is dropped, one that needs a contribution waits for it, one that the collective buffer has no room for waits (R341), any other that a list can hold is carried
out; a held delivery is written once its RECV is registered and no earlier command of the receiver's engine still has to write or read one of its bytes (R288), element by element up to the first fault, with POI, and with SAT and the counter where there is no fault; an abort is
applied once and flooded on. That a tag counts as registered while the unit holds its COLL, and that a RECV that ends in a fault queues no record, is the model's reading (log
entry 35). Which of the codes 0 and 1 a record of a send has is a free value (the model's choice, log entry 34). -/
def Obligations.LinkEvents : Prop :=
  ∀ (s : State) (uid i : Nat) (d : Delivery) (p : CollPacket) (tag : CollTag) (port : BitVec 4) (ans : SendAnswer),
    let n := s.node uid
    (let fires := fun (c : SendCmd) => n.live = true ∧ c.fired = true ∧ (∀ b ∈ n.eng.armed.take i, b.fired = false) ∧ n.eng.sends.length < 16
     (∀ c, n.eng.armed[i]? = some c → fires c → exec (.sendtFire uid i) s =
       .next (s.setNode { n with eng := { n.eng with armed := n.eng.armed.eraseIdx i, sends := n.eng.sends ++ [c] } })) ∧
     ((∀ c, n.eng.armed[i]? = some c → ¬ fires c) → exec (.sendtFire uid i) s = .fault (.notEnabled "SENDT_FIRE"))) ∧
    (let behind := (∃ p ∈ s.link.pending.takeWhile (· != d), s.standsBefore p d = true) ∨ s.mustWait d = true
     (d ∈ s.link.pending → ¬ behind → ∀ u, s.receiver d = some u →
       exec (.sendDelivery d) s = .next (({ s with link := { s.link with pending := s.link.pending.erase d } } : State).acceptSend u d)) ∧
     (d ∈ s.link.pending → behind ∨ s.receiver d = none → exec (.sendDelivery d) s = .fault (.notEnabled "SEND_DELIVERY"))) ∧
    (∀ q : Delivery, s.standsBefore q d = true ↔
      ((q.core = d.core ∧ q.space = d.space) ∨ (q.x = d.x ∧ q.y = d.y ∧ q.z = d.z ∧ q.serial = d.serial ∧ q.epi = d.epi)) ∧
        ¬ (s.mustWait q = true ∧ s.fillsGap d = true)) ∧
    (let behind := (∀ u, s.receiver d = some u → (s.node u).eng.gapBefore d = true) ∨ s.link.heldBefore d = true ∨ s.mustWait d = true
     d ∉ s.link.pending → d ∈ s.link.gaps →
       (∀ u, s.receiver d = some u → ¬ behind → exec (.sendDelivery d) s = .next (({ s with link := { s.link with gaps := s.link.gaps.erase d } } : State).acceptSend u d)) ∧
       (s.receiver d = none ∨ behind → exec (.sendDelivery d) s = .fault (.notEnabled "SEND_DELIVERY"))) ∧
    (d ∉ s.link.pending → d ∉ s.link.gaps → d.fromUid = none →
      let port := fun (x y z : BitVec 5) => s.link.portTo x y z d.odd
      (∀ x y z, d.dest = some (x, y, z) → port x y z ≠ 12 → exec (.sendDelivery d) s = .next (s.sendOut [(port x y z, .send d)])) ∧
      (d.dest = none ∨ (∃ x y z, d.dest = some (x, y, z) ∧ port x y z = 12) → exec (.sendDelivery d) s = .next (s.arrive d))) ∧
    ((∃ q ∈ s.link.pending, s.standsBefore q d = true) ∨ s.mustWait d = true ∨ s.receiver d = none →
      s.arrive d = { s with link := { s.link with pending := s.link.pending ++ [d] } }) ∧
    (∀ u, (∀ q ∈ s.link.pending, s.standsBefore q d = false) → s.mustWait d = false → s.receiver d = some u → s.arrive d = s.acceptSend u d) ∧
    (∀ v, d ∉ s.link.pending → d ∉ s.link.gaps → d.fromUid = some v → ∀ k c, (s.node v).eng.outSends.findIdx? (fun c => !c.sent && c.route == d.route && routeSeq c.er == d.seq) = some k →
      (s.node v).eng.outSends[k]? = some c →
      let leaves := (s.node v).live = true ∧ (s.node v).eng.mayTransmit k = true ∧ s.fabricTakes (s.node v) k c = true
      (leaves → ∀ f, s.transmit (s.node v) c = .error f → exec (.sendDelivery d) s = .next (s.memFault v f)) ∧
      (leaves → ∀ t, s.transmit (s.node v) c = .ok (d, t) → exec (.sendDelivery d) s = .next (t.leave v k c d)) ∧
      (leaves → ∀ e t, s.transmit (s.node v) c = .ok (e, t) → e ≠ d → exec (.sendDelivery d) s = .fault (.notEnabled "SEND_DELIVERY")) ∧
      (¬ leaves → exec (.sendDelivery d) s = .fault (.notEnabled "SEND_DELIVERY"))) ∧
    (∀ c, n.eng.outSends[i]? = some c →
      let own := s.link.portTo (routeX c.er) (routeY c.er) (routeZ c.er) false = 12
      let mine := fun (f : Nat × Flit) => match f.2 with
        | .ack d a => d.fromUid == some uid && d.route == c.route && d.seq == routeSeq c.er && a == ans
        | _ => false
      let unsent := s.portsHold fun f => match f with
        | .send d => d.fromUid == some uid && d.route == c.route && d.seq == routeSeq c.er
        | _ => false
      let may := n.live = true ∧ c.sent = true ∧ unsent = false ∧ (own → ∃ f ∈ s.link.out, mine f = true)
      let came : State := if own then { s with link := { s.link with out := s.link.out.filter fun f => !mine f } } else s
      let t := came.mapNode uid fun m => { m with eng := m.eng.setSend i none }
      (may → ∀ k, ans = .fault k → exec (.sendComplete uid i ans) s = .next (t.mapNode uid fun m => m.setFault (if c.epi then 2 else 3))) ∧
      (may → ans = .ack → c.epi = true ∨ c.bad = true → exec (.sendComplete uid i ans) s = .next t) ∧
      (may → ans = .ack → c.epi = false → c.bad = false →
        let u := if ctlCv c.ctrl then t.addCounter uid (ctlCnt c.ctrl) (windowBytes c.extents (fmtWidth c.hD.fmt) 1) else t
        (ctlUi c.ctrl = false → exec (.sendComplete uid i ans) s = .next u) ∧
        (ctlUi c.ctrl = true → exec (.sendComplete uid i ans) s =
          .next (({ u with free := u.free + 1 } : State).mapNode uid fun m => m.addRecord (if Config.freeBool u.free then 1 else 0) (ctlCnt c.ctrl)))) ∧
      (¬ may → exec (.sendComplete uid i ans) s = .fault (.notEnabled "SEND_COMPLETE"))) ∧
    (n.eng.outSends[i]? = none → exec (.sendComplete uid i ans) s = .fault (.notEnabled "SEND_COMPLETE")) ∧
    (let took : State := { s with link := { s.link with waiting := s.link.waiting.erase p } }
     let bytes := fun (p : CollPacket) => ceilDiv (p.elems.length * p.width) 8
     let buffered := fun (l : List CollPacket) => ((l ++ (s.link.held.map fun h => h.pkt) ++ s.link.unpassed.map fun u => u.copy.pkt).map bytes).sum
     let needs := ∃ e rest, p.ops = e :: rest ∧
       ((opCode e = 1 ∧ ∀ c ∈ s.link.contribs, c.tag ≠ p.tag) ∨ (opCode e = 4 ∧ 2 ^ 24 < buffered (s.link.waiting.erase p) + 2 * bytes p))
     let room := buffered s.link.waiting + bytes p ≤ 2 ^ 24
     (p.tag ∈ s.link.aborted → exec (.collHop p) s = .next took) ∧
     (p.tag ∉ s.link.aborted → p ∈ s.link.waiting → needs → exec (.collHop p) s = .fault (.notEnabled "COLL_HOP")) ∧
     (p.tag ∉ s.link.aborted → p ∈ s.link.waiting → ¬ needs → exec (.collHop p) s = .next (took.hop p 8)) ∧
     (p.tag ∉ s.link.aborted → p ∉ s.link.waiting → opsLegal 8 p.ops p.width = true → room → exec (.collHop p) s = .next (s.hop { p with origin := false } 8)) ∧
     (p.tag ∉ s.link.aborted → p ∉ s.link.waiting → opsLegal 8 p.ops p.width = false ∨ ¬ room → exec (.collHop p) s = .fault (.notEnabled "COLL_HOP"))) ∧
    (s.link.held[i]? = none → exec (.collDeliverApply i) s = .fault (.notEnabled "COLL_DELIVER_APPLY")) ∧
    (∀ h, s.link.held[i]? = some h →
      let registered := s.link.registered.find? fun e => e.1 == h.pkt.tag && (s.node e.2).live && (s.node e.2).eng.colls.any fun c => c.tag == h.pkt.tag && c.recv && !c.recvDone
      (registered = none → exec (.collDeliverApply i) s = .fault (.notEnabled "COLL_DELIVER_APPLY")) ∧
      (∀ v c, registered = some (h.pkt.tag, v) → (s.node v).eng.colls.find? (fun c => c.tag == h.pkt.tag) = some c →
        let t : State := { s with link := { s.link with held := s.link.held.eraseIdx i } }
        let clash := ∃ x ∈ s.linkWrites (s.node v) c.ord ++ s.linkReads (s.node v) c.ord, placesMeet (s.recvLands (s.node v) c) x = true
        let flagged := fun (u : State) (code : Nat) => (u.linkFlag v code).mapColl v h.pkt.tag fun c => { c with recvDone := true, ui := false }
        let r := t.deliverElems v c.hD c.exts h.pkt.elems h.pkt.elems.zipIdx
        let poi := (h.pkt.elems.zipIdx.take (r.2.getD (prodN c.exts))).any fun e => e.1.poison && inside c.hD.exts (addOrg c.hD.orgs (unlin c.exts e.2))
        let u := r.1.mapNode v fun m => { m with regs := m.regs.flagK c.hD.kidx 22 poi }
        (clash → exec (.collDeliverApply i) s = .fault (.notEnabled "COLL_DELIVER_APPLY")) ∧
        (¬ clash → h.pkt.width ≠ fmtWidth c.hD.fmt → exec (.collDeliverApply i) s = .next (flagged t 0x23)) ∧
        (¬ clash → h.pkt.width = fmtWidth c.hD.fmt → t.peerOk v c.hD false = false → exec (.collDeliverApply i) s = .next (flagged t 0x20)) ∧
        (¬ clash → h.pkt.width = fmtWidth c.hD.fmt → t.peerOk v c.hD false = true → r.2 ≠ none → exec (.collDeliverApply i) s = .next (flagged u 0x20)) ∧
        (¬ clash → h.pkt.width = fmtWidth c.hD.fmt → t.peerOk v c.hD false = true → r.2 = none → exec (.collDeliverApply i) s =
          .next (((u.mapNode v fun m => { m with regs := m.regs.flagK c.hD.kidx 21 h.pkt.clamp }).addCounter v c.cnt
            (windowBytes c.exts h.pkt.width 1)).mapColl v h.pkt.tag fun c => { c with recvDone := true })))) ∧
    (tag ∈ s.link.aborted → exec (.abortFlit tag port) s = .next s) ∧
    (tag ∉ s.link.aborted → exec (.abortFlit tag port) s =
      .next ((s.applyAbort tag).sendOut (((List.range 12).filter fun p => p != port.toNat).map fun p => (p, Flit.abort tag))))

/-- Bring-up (R9, R16, R100, R362, R365): POWER_GOOD resets the module but for host memory, which outlives it, and for what MRAM and the binding map hold; a stack joins
with its cores at its first success, the halves that its test found bad being RETIRED then, a core with a failed front end or a half that is not good is rebound, or
retired where it finds no other, and the reserve takes its highest active cores; a stack is absent after a second failure; after the time-out the module runs at full
rate; a probe gives its axis's extent, 1 without an answer, and ends once. What POWER_GOOD keeps and clears, the phases, the slow stack being the lowest-numbered one that has
passed, and a probe that ends once are the model's reading (log entry 48); that ring and DRAM read as 0 is its choice (log entry 4), and so is the order in which the cores
of a row are served (log entry 80). -/
def Obligations.BringUp : Prop :=
  ∀ (s : State) (st : BitVec 2) (fronts : List (Nat × Nat)) (halves : List (Nat × Nat × BitVec 1)) (axis : Axis) (hops : BitVec 6),
    let v := s.svc
    let waiting := 2 ≤ v.phase ∧ v.stk[st.toNat] = .waiting
    (∃ t, exec .powerGood s = .next t ∧ t.svc.phase = 2 ∧ t.nodes = [] ∧ t.cur = Node.none ∧ t.cores = [] ∧ t.link = LinkUnit.reset ∧ t.dist = Dist.reset ∧ t.svc.map = v.map ∧
      t.svc.loneHalves = v.loneHalves ∧ t.svc.halfStates = v.halfStates.filter (fun e => e.2.2.2.2 == HalfState.retired) ∧
      (∀ q : BitVec 6, t.queue q = {}) ∧ (Canonical s → (∀ a, hostPA 0 ≤ a → t.byte a = s.byte a) ∧ ∀ a, a < hostPA 0 → t.byte a = unlisted a)) ∧
    (waiting →
      let cores := ((List.range 256).map fun i => s.bootCore (256 * st.toNat + i)).foldl coresPut s.cores
      let b : State := { s with cores := cores, svc := { v with
        failedFronts := v.failedFronts ++ fronts.map fun e => (st.toNat, e.1, e.2), stk := v.stk.setIfInBounds st.toNat .joined
        halfStates := halves.foldl (fun l e => setHalfState l st.toNat e.1 e.2.1 e.2.2 .retired) v.halfStates } }
      let m := (List.range 256).foldl (fun (t : State) i => t.mendCore (256 * st.toNat + i)) b
      let members := (((m.stackCores st.toNat).map (·.idx)).reverse).take (m.dist.reserve[st.toNat]).n
      let w := { m.svc with phase := if v.phase = 2 then 3 else max v.phase 4, slowStack := if v.phase = 2 then some st.toNat else v.slowStack.map fun k => min k st.toNat }
      let u := ({ m with cores := (m.cores.map fun c => if members.contains c.idx then { c with rsv := true } else c) } : State).capReserve st.toNat
      exec (.stackSelfTestPass { stack := st, fronts := fronts, halves := halves }) s = .next { u with svc := w } ∧ u.svc = m.svc) ∧
    (∀ idx : Nat,
      let c := s.core idx
      let bad := c.halves.filter fun b => !s.halfGood (coreStack idx) b.y b.x b.half
      let mend := c.active = true ∧ (bad ≠ [] ∨ s.frontFailed c = true)
      (¬ mend → s.mendCore idx = s) ∧ (mend → ∀ plan, s.planFor idx bad = some plan → s.mendCore idx = s.applyPlan plan) ∧
      (mend → s.planFor idx bad = none → s.mendCore idx = s.retireCore idx)) ∧
    (¬ waiting → exec (.stackSelfTestPass { stack := st, fronts := fronts, halves := halves }) s = .fault (.notEnabled "STACK_SELF_TEST_PASS") ∧
      exec (.stackSelfTestFail st) s = .fault (.notEnabled "STACK_SELF_TEST_FAIL")) ∧
    (waiting → let k := v.stackFails[st.toNat] + 1
      let w := { v with stackFails := v.stackFails.setIfInBounds st.toNat k }
      (k < 2 → exec (.stackSelfTestFail st) s = .next { s with svc := w }) ∧
      (2 ≤ k → exec (.stackSelfTestFail st) s = .next { s with svc := { w with stk := v.stk.setIfInBounds st.toNat .absent } })) ∧
    (v.phase = 3 ∨ v.phase = 4 → exec .bringupTimeout s = .next { s with svc := { v with phase := 5, slowStack := none } }) ∧
    (v.phase ≠ 3 → v.phase ≠ 4 → exec .bringupTimeout s = .fault (.notEnabled "BRINGUP_TIMEOUT")) ∧
    (let bit : Nat := match axis with
       | .x => 0 | .y => 1 | .z => 2
     let set := fun (k : Nat) => ({ s with link := match axis with
       | .x => { s.link with dx := k, probed := s.link.probed ||| 1 }
       | .y => { s.link with dy := k, probed := s.link.probed ||| 2 }
       | .z => { s.link with dz := k, probed := s.link.probed ||| 4 } } : State)
     let out := 3 ≤ v.phase ∧ s.link.probed.getLsbD bit = false
     (out → 1 ≤ hops.toNat → hops.toNat ≤ 32 → exec (.probeReturn axis hops) s = .next (set hops.toNat)) ∧
     (¬ out ∨ hops.toNat = 0 ∨ 32 < hops.toNat → exec (.probeReturn axis hops) s = .fault (.notEnabled "PROBE_RETURN")) ∧
     (out → exec (.probeTimeout axis) s = .next (set 1)) ∧ (¬ out → exec (.probeTimeout axis) s = .fault (.notEnabled "PROBE_TIMEOUT")))

/-- Checks, drains and repairs (R104, R105, R363, R365 to R367). A failed check sends the slot's field of EMAP to its sibling unless the sibling's is already
there; its half, which one of the core's halves it is being a free value (the model's choice, log entry 7), is SPLIT when it was GOOD and has one failed check
more, and no other half changes; from its 64th failed check on the Awl decides to rebind it, which its own checks may refuse. A drained job rebinds, its halves being RETIRED then, forms or
dissolves a gang, or retires its core, and completes its packet with its record, or puts the queue into ERROR and does nothing where the record has no place
left; the bytes of a DRAM row that was lost, which lie in that channel and row, are poisoned, and a spare row takes its place while the channel has one; a
port's retraining ends and its held flits leave, the oldest first, but for those whose channel has no credit (R329), which are counted once (log entry 83), so that the
origin of a collective and an ABORT whose flits it held may complete, and a port whose spare lane is in use falls back to four lanes. A stack's reserve keeps to N when a
gang or a retirement has changed its cores (the model's choice, log entry 81). -/
def Obligations.ServiceEvents : Prop :=
  ∀ (s : State) (core : BitVec 10) (slot : EngineSlot) (chan bank : BitVec 8) (row : BitVec 32) (lost : List Nat) (port lane : BitVec 4) (j : BindJob),
    let c := s.core core.toNat
    (∀ b, c.active = true → c.halves[Config.freeNat s.free % c.halves.length]? = some b →
      let st := coreStack c.idx
      let emap := if c.emap.getLsbD (emapBit (emapSibling slot)) then c.emap else c.emap ||| BitVec.ofNat 8 (2 ^ emapBit slot)
      let t := (({ s with free := s.free + 1 } : State).setCore { c with emap := emap }).failHalf st b slot
      let soon := 64 ≤ s.failCount st b + 1 ∧ (s.halfState st b = .good ∨ s.halfState st b = .split)
      (¬ soon → exec (.engineCheckFail core slot) s = .next t) ∧
      (soon → exec (.engineCheckFail core slot) s = .next (t.ownRebind c.idx b)) ∧
      t.halfState st b = (if s.halfState st b = .good then .split else s.halfState st b) ∧ t.failCount st b = s.failCount st b + 1 ∧
      (∀ st' b', st' ≠ st ∨ b' ≠ b → t.halfState st' b' = s.halfState st' b' ∧ t.failCount st' b' = s.failCount st' b') ∧
      (∀ e, t.rebindCheck c.idx b.x (b.half.zeroExtend 2) = .error e → t.ownRebind c.idx b = t) ∧
      (∀ i y plan, t.rebindCheck c.idx b.x (b.half.zeroExtend 2) = .ok (i, y, plan) → t.ownRebind c.idx b =
        t.startRebind { op := 2, core := i, width := 0, cores := [], pkt := 0, queue := 0, index := 0, site := b.x, half := b.half.zeroExtend 2 } i y plan)) ∧
    (c.active = true → c.halves ≠ [] → ∃ t, exec (.engineCheckFail core slot) s = .next t) ∧
    (c.active = false ∨ c.halves = [] → exec (.engineCheckFail core slot) s = .fault (.notEnabled "ENGINE_CHECK_FAIL")) ∧
    (s.dist.jobs.find? (fun j => j.op == 2 && s.drained j) = some j → exec .rebindDone s = .next (s.endJob j j.plan.length fun s => s.rebind j)) ∧
    (∀ st b, let named := st = j.stack ∧ b.y = j.row ∧ b.x = j.site ∧ b.half ∈ repairHalves j.half
      (named → (s.rebind j).halfState st b = .retired) ∧ (¬ named → (s.rebind j).halfState st b = s.halfState st b)) ∧
    (s.dist.jobs.find? (fun j => j.op == 2 && s.drained j) = none → exec .rebindDone s = .fault (.notEnabled "REBIND_DONE")) ∧
    (s.dist.jobs.find? (fun j => (j.op == 0 || j.op == 1) && s.drained j) = some j →
      (j.op = 0 → exec .bindDrainDone s = .next (s.endJob j 0 fun s => (s.formGang j).keepReserve (coreStack j.core))) ∧
      (j.op = 1 → exec .bindDrainDone s = .next (s.endJob j 0 fun s => (s.dissolveGang j).keepReserve (coreStack j.core)))) ∧
    (s.dist.jobs.find? (fun j => (j.op == 0 || j.op == 1) && s.drained j) = none → exec .bindDrainDone s = .fault (.notEnabled "BIND_DRAIN_DONE")) ∧
    (s.dist.jobs.find? (fun j => j.op == 3 && j.core == core.toNat && s.drained j) = some j → exec (.coreRetireDrainDone core) s =
      .next (s.endJob j 0 fun s => (s.retireCore core.toNat).keepReserve (coreStack core.toNat))) ∧
    (s.dist.jobs.find? (fun j => j.op == 3 && j.core == core.toNat && s.drained j) = none → exec (.coreRetireDrainDone core) s = .fault (.notEnabled "CORE_RETIRE_DRAIN_DONE")) ∧
    (∀ (moved : Nat) (done : State → State),
      let ended := fun (t : State) => ({ t with dist := { t.dist with jobs := t.dist.jobs.erase j } } : State)
      let repair := pk j.pkt 0 1 = 13
      let fits := repair → s.recordFits j.queue (pk j.pkt 0x20 8) = true
      (j.pkt = 0 → s.endJob j moved done = ended (done s)) ∧
      (j.pkt ≠ 0 → ¬ repair → s.endJob j moved done = (ended (done s)).completeLater j.queue j.index 0) ∧
      (j.pkt ≠ 0 → repair → fits → s.endJob j moved done =
        ((ended (done s)).resultRecord j.queue (pk j.pkt 0x20 8) 0 (pk j.pkt 0x10 1) moved 0).completeLater j.queue j.index 0) ∧
      (j.pkt ≠ 0 → ¬ fits → s.endJob j moved done = (s.dropJob j).failLater j.queue j.index 6)) ∧
    (let here := fun (a : Nat) => dramPA 0 ≤ a ∧ a < hostPA 0 ∧ chan.toNat ∈ dramChannels (a - dramPA 0) ∧ Config.dramBank (a - dramPA 0) = bank ∧
       Config.dramRow (a - dramPA 0) = row
     ((∀ a ∈ lost, here a) →
       let t := (lost.foldl (fun (t : State) a => t.setByte a (t.byte a) true) s).noteChan chan.toNat 2
       (t.repairRoom chan.toNat = true → exec (.dramSoftRepair chan bank row lost) s = .next (t.softRepair chan.toNat bank.toNat row.toNat)) ∧
       (t.repairRoom chan.toNat = false → exec (.dramSoftRepair chan bank row lost) s = .next (t.noteChan chan.toNat 3))) ∧
     ((∃ a ∈ lost, ¬ here a) → exec (.dramSoftRepair chan bank row lost) s = .fault (.notEnabled "DRAM_SOFT_REPAIR"))) ∧
    (let x := s.port port.toNat
     (port.toNat < 12 → x.retraining = true →
       let short := fun (h : HeldFlit) => x.noCredit.getLsbD h.flit.chan
       let goes := (x.held.filter fun h => !short h).map fun h => h.flit
       let u := s.setPort port.toNat { x with
         retraining := false, held := (x.held.filter short).map fun h => { h with pressed := true }
         heldCount := (x.heldCount + ((x.held.filter fun h => short h && !h.pressed).map fun h => h.flit.size).sum) % 2 ^ 32 }
       let t : State := { u with link := { s.link with out := s.link.out ++ goes.map fun f => (port.toNat, f.plain) } }
       let left := goes.foldl (fun (t : State) f => match f with
         | .coll p => if p.origin = false ∨ t.portsHold (·.starts p.tag) = true ∨ (t.link.waiting.any fun q => q.tag == p.tag && q.origin) = true then t
           else (t.link.registered.filter fun e => e.1 == p.tag).foldl (fun (t : State) e => t.mapColl e.2 p.tag fun c => if c.orig then { c with origDone := true } else c) t
         | _ => t) t
       exec (.laneRetrainDone port) s = .next ((left.allNodes.filter fun n => !n.eng.aborts.isEmpty).foldl (fun (t : State) n => t.mapNode n.desc.uid fun m =>
         { m with eng := { m.eng with aborts := m.eng.aborts.filter fun tag => t.portsHold (· == .abort tag) } }) left)) ∧
     (12 ≤ port.toNat ∨ x.retraining = false → exec (.laneRetrainDone port) s = .fault (.notEnabled "LANE_RETRAIN_DONE")) ∧
     (port.toNat < 12 → lane.toNat < 9 → x.spareUsed = true → x.degraded = false → exec (.laneFail port lane) s =
       .next (s.setPort port.toNat { x with lanes := 4, degraded := true, degradations := x.degradations + 1 })) ∧
     (12 ≤ port.toNat ∨ 9 ≤ lane.toNat ∨ x.spareUsed = false ∨ x.degraded = true → exec (.laneFail port lane) s = .fault (.notEnabled "LANE_FAIL")))

/-- Power and telemetry (R368, R369). The average runs over the last ten samples, and is compared with the limit exactly: the clock steps down while it is
above the limit, defers placement when it is at its lowest, and steps up below 95 % of the limit; the telemetry area's per-channel counters are written as they
stand, the header, the ports and the cores as functions of what they report, and nothing outside the area changes. The places of the fields within the header,
a port's and a core's part are the implementation's (log entry 39). That the average of fewer than ten samples is taken over those there are, that it is compared
exactly, and that powerAvg shows whole watts is the model's reading (log entry 49). -/
def Obligations.PowerAndTelemetry : Prop :=
  ∀ (s : State) (watts : Nat),
    let v := s.svc
    let sum := v.powerSamples.sum
    let number := v.powerSamples.length
    let hot := v.powerLimit * number < sum
    let cool := sum * 100 < v.powerLimit * 95 * number
    let defer := fun (w : Service) (b : Bool) => ({ s with svc := w, dist := { s.dist with deferred := b } } : State)
    (let l := (v.powerSamples ++ [watts]).drop (v.powerSamples.length + 1 - 10)
     exec (.powerSample watts) s = .next { s with svc := { v with powerSamples := l, powerAvg := l.sum / l.length } }) ∧
    (hot → v.clockStep < 8 → exec .clockStep s = .next { s with svc := { v with clockStep := v.clockStep + 1 } }) ∧
    (hot → 8 ≤ v.clockStep → s.dist.deferred = false → exec .clockStep s = .next (defer v true)) ∧
    (hot → 8 ≤ v.clockStep → s.dist.deferred = true → exec .clockStep s = .fault (.notEnabled "CLOCK_STEP")) ∧
    (¬ hot → cool → 0 < v.clockStep → exec .clockStep s = .next (defer { v with clockStep := v.clockStep - 1 } false)) ∧
    (¬ hot → ¬ cool ∨ v.clockStep = 0 → s.dist.deferred = true → exec .clockStep s = .next (defer v false)) ∧
    (¬ hot → ¬ cool ∨ v.clockStep = 0 → s.dist.deferred = false → exec .clockStep s = .fault (.notEnabled "CLOCK_STEP")) ∧
    (v.phase < 3 → exec .telemetryRefresh s = .fault (.notEnabled "TELEMETRY_REFRESH")) ∧
    (3 ≤ v.phase → Canonical s → ∃ t, exec .telemetryRefresh s = .next t ∧ t.cur = s.cur ∧ t.nodes = s.nodes ∧ t.cores = s.cores ∧ t.awl = s.awl ∧
      SameMemoryBut s t (fun a => (ringPA 0x50000 ≤ a ∧ a < ringPA 0x52300) ∨ (ringPA 0x53000 ≤ a ∧ a < ringPA 0xD3000)) ∧
      (∀ (ch : Fin 256) (k : Fin 4), t.rd (ringPA 0x51000 + 16 * ch.val + 4 * k.val) 4 = chanCount v.dramCounts ch.val k.val % 2 ^ 32) ∧
      (∀ i < 256, t.byte (ringPA 0x50000 + i) = Config.headerByte (s.headerContent s.sparesWord.1) s.svc.tele i) ∧
      (∀ (p : Fin 12) (i : Fin 64), t.byte (ringPA 0x52000 + 64 * p.val + i.val) = Config.portByte (s.port p.val).content i.val) ∧
      ∀ (c : Fin 1024) (i : Fin 512), t.byte (ringPA 0x53000 + 512 * c.val + i.val) = Config.coreByte (s.core c.val).content i.val)
end

