-- ==== Sys2Proof/Laws/Memory.lean ====
section
/-! SUPPORT. Cells in address order: what a write leaves at each address, and that every operation keeps the canonical form. -/

namespace Sys2Proof.Machine

/-- Addresses strictly rise. -/
abbrev Rising (m : List Host.Cell) : Prop := m.Pairwise fun c d => c.1 < d.1

theorem Memory.wf_iff (m : List Host.Cell) : Memory.wf m = true ↔ Rising m ∧ ∀ c ∈ m, c.2 ≠ unlisted c.1 := by
  induction m with
  | nil => simp [Memory.wf]
  | cons c rest ih =>
    obtain ⟨k, v⟩ := c
    cases rest with
    | nil => simp [Memory.wf]
    | cons d rest =>
      obtain ⟨k', v'⟩ := d
      simp only [Memory.wf, Bool.and_eq_true, bne_iff_ne, decide_eq_true_eq, ih, Rising, List.pairwise_cons, List.mem_cons, forall_eq_or_imp]
      constructor
      · rintro ⟨⟨hv, hk⟩, ⟨h1, h2⟩, hv', h3⟩
        exact ⟨⟨⟨hk, fun a ha => hk.trans (h1 a ha)⟩, h1, h2⟩, hv, hv', h3⟩
      · rintro ⟨⟨⟨hk, _⟩, h1, h2⟩, hv, hv', h3⟩
        exact ⟨⟨hv, hk⟩, ⟨h1, h2⟩, hv', h3⟩

theorem Memory.wf_nil : Memory.wf [] = true := rfl

/-! ## Reads -/

theorem cellGet?_cons (c : Host.Cell) (m : List Host.Cell) (a : Nat) : cellGet? (c :: m) a = if c.1 = a then some c.2 else cellGet? m a := rfl

theorem cellGet?_eq_none {m : List Host.Cell} {a : Nat} (h : ∀ c ∈ m, c.1 ≠ a) : cellGet? m a = none := by
  induction m with
  | nil => rfl
  | cons c m ih =>
    rw [cellGet?_cons, if_neg (h c (by simp)), ih fun d hd => h d (by simp [hd])]

theorem cellGet?_eq_some_mem {m : List Host.Cell} {a : Nat} {v : Byte} (h : cellGet? m a = some v) : (a, v) ∈ m := by
  induction m with
  | nil => simp [cellGet?] at h
  | cons c m ih =>
    rw [cellGet?_cons] at h
    split at h
    · next hc => simp only [Option.some.injEq] at h; subst hc h; simp
    · simp [ih h]

theorem cellGet?_of_mem {m : List Host.Cell} (hr : Rising m) {c : Host.Cell} (h : c ∈ m) : cellGet? m c.1 = some c.2 := by
  induction m with
  | nil => simp at h
  | cons d m ih =>
    simp only [Rising, List.pairwise_cons] at hr
    rw [cellGet?_cons]
    rcases List.mem_cons.mp h with rfl | h
    · simp
    · rw [if_neg (Nat.ne_of_lt (hr.1 c h)), ih hr.2 h]

/-! ## Writes -/

theorem cellPut_get (m : List Host.Cell) (a : Nat) (b : Byte) (x : Nat) : cellGet? (cellPut m a b) x = if x = a then some b else cellGet? m x := by
  induction m with
  | nil => simp [cellPut, cellGet?, eq_comm]
  | cons c m ih =>
    obtain ⟨k, v⟩ := c
    simp only [cellPut]
    split
    · next h => simp only [cellGet?_cons, eq_comm (a := a)]
    · split
      · next h h' => subst h'; simp only [cellGet?_cons, eq_comm (a := a)]; split <;> rfl
      · next h h' =>
        simp only [cellGet?_cons, ih]
        split
        · next hk => subst hk; rw [if_neg (fun e => h' e.symm)]
        · rfl

theorem mem_cellPut {m : List Host.Cell} {a : Nat} {b : Byte} {c : Host.Cell} (h : c ∈ cellPut m a b) : c = (a, b) ∨ c ∈ m := by
  induction m with
  | nil => simpa [cellPut] using h
  | cons d m ih =>
    obtain ⟨k, v⟩ := d
    simp only [cellPut] at h
    split at h
    · simpa using h
    · split at h
      · rcases List.mem_cons.mp h with h | h <;> simp [h]
      · rcases List.mem_cons.mp h with h | h
        · simp [h]
        · rcases ih h with h | h <;> simp [h]

theorem cellPut_rising {m : List Host.Cell} (hr : Rising m) (a : Nat) (b : Byte) : Rising (cellPut m a b) := by
  induction m with
  | nil => simp [cellPut, Rising]
  | cons d m ih =>
    obtain ⟨k, v⟩ := d
    have hr' := hr
    simp only [Rising, List.pairwise_cons] at hr
    simp only [cellPut]
    split
    · next h =>
      simp only [Rising, List.pairwise_cons, List.mem_cons, forall_eq_or_imp]
      exact ⟨⟨h, fun c hc => h.trans (hr.1 c hc)⟩, hr.1, hr.2⟩
    · split
      · next h' => subst h'; simp only [Rising, List.pairwise_cons]; exact hr
      · next h h' =>
        simp only [Rising, List.pairwise_cons]
        refine ⟨fun c hc => ?_, ih hr.2⟩
        rcases mem_cellPut hc with rfl | hc
        · simp only; omega
        · exact hr.1 c hc

theorem mem_cellDrop {m : List Host.Cell} {a : Nat} {c : Host.Cell} (h : c ∈ cellDrop m a) : c ∈ m := by
  induction m with
  | nil => exact h
  | cons d m ih =>
    obtain ⟨k, v⟩ := d
    simp only [cellDrop] at h
    split at h
    · exact h
    · split at h
      · simp [h]
      · rcases List.mem_cons.mp h with h | h
        · simp [h]
        · simp [ih h]

theorem cellDrop_rising {m : List Host.Cell} (hr : Rising m) (a : Nat) : Rising (cellDrop m a) := by
  induction m with
  | nil => exact hr
  | cons d m ih =>
    obtain ⟨k, v⟩ := d
    have hr' := hr
    simp only [Rising, List.pairwise_cons] at hr
    simp only [cellDrop]
    split
    · exact hr'
    · split
      · exact hr.2
      · simp only [Rising, List.pairwise_cons]
        exact ⟨fun c hc => hr.1 c (mem_cellDrop hc), ih hr.2⟩

theorem cellDrop_get {m : List Host.Cell} (hr : Rising m) (a x : Nat) : cellGet? (cellDrop m a) x = if x = a then none else cellGet? m x := by
  induction m with
  | nil => simp [cellDrop, cellGet?]
  | cons d m ih =>
    obtain ⟨k, v⟩ := d
    simp only [Rising, List.pairwise_cons] at hr
    simp only [cellDrop]
    split
    · next h =>
      split
      · next hx =>
        subst hx
        refine cellGet?_eq_none fun c hc => ?_
        rcases List.mem_cons.mp hc with rfl | hc
        · simp only; omega
        · have := hr.1 c hc
          omega
      · rfl
    · split
      · next h h' =>
        subst h'
        split
        · next hx => subst hx; exact cellGet?_eq_none fun c hc => Nat.ne_of_gt (hr.1 c hc)
        · next hx => rw [cellGet?_cons, if_neg fun e => hx e.symm]
      · next h h' =>
        simp only [cellGet?_cons, ih hr.2]
        split
        · next hk => subst hk; rw [if_neg fun e => h' e.symm]
        · rfl

/-- A write keeps the canonical form. -/
theorem memSet_wf {m : List Host.Cell} (h : Memory.wf m = true) (a : Nat) (b : Byte) : Memory.wf (memSet m a b) = true := by
  rw [Memory.wf_iff] at h ⊢
  unfold memSet
  split
  · exact ⟨cellDrop_rising h.1 a, fun c hc => h.2 c (mem_cellDrop hc)⟩
  · next hb =>
    refine ⟨cellPut_rising h.1 a b, fun c hc => ?_⟩
    rcases mem_cellPut hc with rfl | hc
    · exact hb
    · exact h.2 c hc

/-- A byte reads as it was written, and every other byte as before. -/
theorem memSet_get {m : List Host.Cell} (h : Memory.wf m = true) (a : Nat) (b : Byte) (x : Nat) : memGet (memSet m a b) x = if x = a then b else memGet m x := by
  rw [Memory.wf_iff] at h
  unfold memSet memGet
  split
  · next hb =>
    rw [cellDrop_get h.1]
    split
    · next hx => simp [hx, hb]
    · rfl
  · rw [cellPut_get]
    split <;> rfl

/-- Two memories in canonical form that read alike are equal data. -/
theorem memory_ext {m n : List Host.Cell} (hm : Memory.wf m = true) (hn : Memory.wf n = true) (h : ∀ a, memGet m a = memGet n a) : m = n := by
  rw [Memory.wf_iff] at hm hn
  have key : ∀ {x y : List Host.Cell}, Rising x → (∀ c ∈ x, c.2 ≠ unlisted c.1) → Rising y → (∀ a, memGet x a = memGet y a) → ∀ c ∈ x, c ∈ y := by
    intro x y hx hxu _ hg c hc
    have h1 : memGet x c.1 = c.2 := by simp [memGet, cellGet?_of_mem hx hc]
    have h2 := (hg c.1).symm.trans h1
    cases hy : cellGet? y c.1 with
    | none => rw [memGet, hy] at h2; exact absurd h2.symm (hxu c hc)
    | some v =>
      rw [memGet, hy] at h2
      simp only [Option.getD_some] at h2
      subst h2
      exact cellGet?_eq_some_mem hy
  have e : ∀ c, c ∈ m ↔ c ∈ n := fun c => ⟨key hm.1 hm.2 hn.1 h c, key hn.1 hn.2 hm.1 (fun a => (h a).symm) c⟩
  have nd : ∀ {x : List Host.Cell}, Rising x → x.Nodup := fun hx => hx.imp fun h e => by simp [e] at h
  have hp : m.Perm n := (List.perm_ext_iff_of_nodup (nd hm.1) (nd hn.1)).mpr e
  exact hp.eq_of_pairwise (fun a b _ _ h1 h2 => absurd h1 (Nat.lt_asymm h2)) hm.1 hn.1

theorem filter_wf {m : List Host.Cell} (h : Memory.wf m = true) (p : Host.Cell → Bool) : Memory.wf (m.filter p) = true := by
  rw [Memory.wf_iff] at h ⊢
  exact ⟨h.1.filter p, fun c hc => h.2 c (List.mem_filter.mp hc).1⟩

/-! ## Ascending lists without repeats -/

theorem mem_setAdd {l : List Nat} {a x : Nat} : x ∈ setAdd l a ↔ x = a ∨ x ∈ l := by
  induction l with
  | nil => simp [setAdd]
  | cons k l ih =>
    simp only [setAdd]
    split
    · simp
    · split
      · next h => subst h; simp
      · simp [ih]; tauto

theorem setAdd_pairwise {l : List Nat} (h : l.Pairwise (· < ·)) (a : Nat) : (setAdd l a).Pairwise (· < ·) := by
  induction l with
  | nil => simp [setAdd]
  | cons k l ih =>
    have h' := h
    rw [List.pairwise_cons] at h
    simp only [setAdd]
    split
    · next hk => exact List.pairwise_cons.mpr ⟨fun b hb => (List.mem_cons.mp hb).elim (fun e => e ▸ hk) fun hb => hk.trans (h.1 b hb), h'⟩
    · split
      · exact h'
      · refine List.pairwise_cons.mpr ⟨fun b hb => ?_, ih h.2⟩
        rcases mem_setAdd.mp hb with rfl | hb
        · omega
        · exact h.1 b hb

theorem mem_setDel {l : List Nat} (h : l.Pairwise (· < ·)) {a x : Nat} : x ∈ setDel l a ↔ x ≠ a ∧ x ∈ l := by
  induction l with
  | nil => simp [setDel]
  | cons k l ih =>
    rw [List.pairwise_cons] at h
    simp only [setDel]
    split
    · next hk =>
      subst hk
      constructor
      · exact fun hx => ⟨Nat.ne_of_gt (h.1 x hx), by simp [hx]⟩
      · rintro ⟨h1, h2⟩
        exact (List.mem_cons.mp h2).resolve_left h1
    · simp only [List.mem_cons, ih h.2]
      constructor
      · rintro (rfl | h)
        · exact ⟨fun e => by omega, .inl rfl⟩
        · exact ⟨h.1, .inr h.2⟩
      · rintro ⟨h1, rfl | h2⟩
        · exact .inl rfl
        · exact .inr ⟨h1, h2⟩

theorem setDel_pairwise {l : List Nat} (h : l.Pairwise (· < ·)) (a : Nat) : (setDel l a).Pairwise (· < ·) := by
  induction l with
  | nil => simp [setDel]
  | cons k l ih =>
    have h' := h
    rw [List.pairwise_cons] at h
    simp only [setDel]
    split
    · exact h.2
    · exact List.pairwise_cons.mpr ⟨fun b hb => h.1 b ((mem_setDel h.2).mp hb).2, ih h.2⟩

/-! ## State -/

theorem State.setByte_canonical {s : State} (h : Memory.wf s.mem = true) (a : Nat) (b : Byte) (p : Bool) : Memory.wf (s.setByte a b p).mem = true :=
  memSet_wf h a b

theorem State.wr_canonical {s : State} (h : Memory.wf s.mem = true) (a v n : Nat) : Memory.wf (s.wr a v n).mem = true := by
  induction n generalizing s a v with
  | zero => exact h
  | succ n ih => exact ih (s.setByte_canonical h a _ _) _ _

theorem State.wr_fields (s : State) (a v n : Nat) : ∃ m p, s.wr a v n = { s with mem := m, poison := p } := by
  induction n generalizing s a v with
  | zero => exact ⟨_, _, rfl⟩
  | succ n ih =>
    obtain ⟨m, p, h⟩ := ih (s.setByte a (BitVec.ofNat 8 v) false) (a + 1) (v / 256)
    exact ⟨m, p, h⟩

end Sys2Proof.Machine
end

