-- ==== Sys2Proof/Laws/Area.lean ====
section
/-! SUPPORT. Ranges of memory and the save area: what a byte reads as after many bytes have been written, and where the bytes of a number stand. -/

namespace Sys2Proof.Machine

/-- Bytes written one after the other: a byte reads as the last one written there, or as before. -/
theorem memSet_foldl_get {m : List Host.Cell} (h : Memory.wf m = true) (base : Nat) (cells : List Host.Cell) (x : Nat) :
    Memory.wf (cells.foldl (fun m c => memSet m (base + c.1) c.2) m) = true ∧
      memGet (cells.foldl (fun m c => memSet m (base + c.1) c.2) m) x =
        match cells.reverse.find? fun c => base + c.1 == x with
        | some c => c.2
        | none => memGet m x := by
  induction cells using List.reverseRecOn with
  | nil => exact ⟨h, rfl⟩
  | append_singleton l c ih =>
    rw [List.foldl_append, List.foldl_cons, List.foldl_nil, List.reverse_append, List.reverse_singleton, List.singleton_append, List.find?_cons]
    refine ⟨memSet_wf ih.1 _ _, ?_⟩
    rw [memSet_get ih.1, ih.2]
    by_cases e : base + c.1 = x
    · simp [e]
    · simp [Ne.symm e, beq_eq_false_iff_ne.mpr e]

/-- A cell list from which some addresses have been taken away. -/
theorem cellGet?_filter (m : List Host.Cell) (p : Nat → Bool) (x : Nat) : cellGet? (m.filter fun c => p c.1) x = if p x then cellGet? m x else none := by
  induction m with
  | nil => simp [cellGet?]
  | cons c m ih =>
    rw [List.filter_cons, cellGet?_cons]
    by_cases e : c.1 = x
    · subst e; by_cases hp : p c.1 <;> simp [hp, ih, cellGet?_cons]
    · by_cases hp : p c.1 <;> simp [hp, ih, cellGet?_cons, e]

/-- Where the bytes of a number stand: every byte that is not 0, at its offset. -/
theorem mem_cellsOf (off v len : Nat) (c : Host.Cell) :
    c ∈ cellsOf off v len ↔ off ≤ c.1 ∧ c.1 < off + len ∧ c.2 = BitVec.ofNat 8 (v / 2 ^ (8 * (c.1 - off))) ∧ c.2 ≠ 0 := by
  induction len generalizing off v with
  | zero => simp [cellsOf]; omega
  | succ len ih =>
    have next : off + 1 ≤ c.1 → v / 256 / 2 ^ (8 * (c.1 - (off + 1))) = v / 2 ^ (8 * (c.1 - off)) := by
      intro hx
      rw [Nat.div_div_eq_div_mul, show 8 * (c.1 - off) = 8 + 8 * (c.1 - (off + 1)) by omega, Nat.pow_add]
    have cut : off ≤ c.1 ↔ c.1 = off ∨ off + 1 ≤ c.1 := by omega
    have here : c.1 = off → v / 2 ^ (8 * (c.1 - off)) = v := by rintro e; simp [e]
    unfold cellsOf
    split
    · next hv => subst hv; simp
    · split
      · next hz =>
        rw [ih]
        constructor
        · rintro ⟨h1, h2, h3, h4⟩; exact ⟨by omega, by omega, next h1 ▸ h3, h4⟩
        · rintro ⟨h1, h2, h3, h4⟩
          rcases cut.mp h1 with e | e
          · rw [here e, hz] at h3; exact absurd h3 h4
          · exact ⟨e, by omega, (next e).symm ▸ h3, h4⟩
      · next hz =>
        rw [List.mem_cons, ih]
        constructor
        · rintro (rfl | ⟨h1, h2, h3, h4⟩)
          · exact ⟨le_rfl, by simp, by simp, hz⟩
          · exact ⟨by omega, by omega, next h1 ▸ h3, h4⟩
        · rintro ⟨h1, h2, h3, h4⟩
          rcases cut.mp h1 with e | e
          · exact .inl (Prod.ext e (by rw [h3, here e]))
          · exact .inr ⟨e, by omega, (next e).symm ▸ h3, h4⟩

/-- What `State.writeArea` does: the range reads as the bytes given, and as nothing has written it where none is; every byte beyond it reads as before. -/
theorem State.writeArea_byte {s : State} (h : Memory.wf s.mem = true) (base len : Nat) (cells : List Host.Cell) (poison : List Nat) (x : Nat) :
    Memory.wf (s.writeArea base len cells poison).mem = true ∧
      (s.writeArea base len cells poison).byte x =
        match cells.reverse.find? fun c => base + c.1 == x with
        | some c => c.2
        | none => if x < base ∨ base + len ≤ x then s.byte x else unlisted x := by
  have hw := filter_wf h fun c => decide (c.1 < base) || decide (base + len ≤ c.1)
  obtain ⟨h1, h2⟩ := memSet_foldl_get hw base cells x
  refine ⟨h1, ?_⟩
  have h3 : memGet (s.mem.filter fun c => decide (c.1 < base) || decide (base + len ≤ c.1)) x = if x < base ∨ base + len ≤ x then memGet s.mem x else unlisted x := by
    unfold memGet
    rw [cellGet?_filter s.mem fun a => decide (a < base) || decide (base + len ≤ a)]
    by_cases hx : x < base ∨ base + len ≤ x
    · simp [hx]
    · simp [hx]
  exact h2.trans (by rw [h3]; rfl)

end Sys2Proof.Machine
end

