-- ==== Sys2Proof/Laws/Exec.lean ====
section
/-! SUPPORT. exec of each constructor is its meaning: one lemma per arm, so that no later proof unfolds the dispatch. -/

namespace Sys2Proof.Machine

variable (σ : State)

@[simp] theorem exec_add q g d a b : exec (.add q g d a b) σ = execAdd q g d a b σ := rfl
@[simp] theorem exec_sub q g d a b : exec (.sub q g d a b) σ = execSub q g d a b σ := rfl
@[simp] theorem exec_addS q g d a b : exec (.addS q g d a b) σ = execAddS q g d a b σ := rfl
@[simp] theorem exec_subS q g d a b : exec (.subS q g d a b) σ = execSubS q g d a b σ := rfl
@[simp] theorem exec_and q g d a b : exec (.and q g d a b) σ = execAnd q g d a b σ := rfl
@[simp] theorem exec_or q g d a b : exec (.or q g d a b) σ = execOr q g d a b σ := rfl
@[simp] theorem exec_xor q g d a b : exec (.xor q g d a b) σ = execXor q g d a b σ := rfl
@[simp] theorem exec_andn q g d a b : exec (.andn q g d a b) σ = execAndn q g d a b σ := rfl
@[simp] theorem exec_shl q g d a b : exec (.shl q g d a b) σ = execShl q g d a b σ := rfl
@[simp] theorem exec_shlS q g d a b : exec (.shlS q g d a b) σ = execShlS q g d a b σ := rfl
@[simp] theorem exec_shr q g d a b : exec (.shr q g d a b) σ = execShr q g d a b σ := rfl
@[simp] theorem exec_sar q g d a b : exec (.sar q g d a b) σ = execSar q g d a b σ := rfl
@[simp] theorem exec_rot q g d a b : exec (.rot q g d a b) σ = execRot q g d a b σ := rfl
@[simp] theorem exec_mul q g d a b : exec (.mul q g d a b) σ = execMul q g d a b σ := rfl
@[simp] theorem exec_mulS q g d a b : exec (.mulS q g d a b) σ = execMulS q g d a b σ := rfl
@[simp] theorem exec_mulh q g d a b : exec (.mulh q g d a b) σ = execMulh q g d a b σ := rfl
@[simp] theorem exec_mulhw q g d a b : exec (.mulhw q g d a b) σ = execMulhw q g d a b σ := rfl
@[simp] theorem exec_div q g d a b : exec (.div q g d a b) σ = execDiv q g d a b σ := rfl
@[simp] theorem exec_divw q g d a b : exec (.divw q g d a b) σ = execDivw q g d a b σ := rfl
@[simp] theorem exec_rem q g d a b : exec (.rem q g d a b) σ = execRem q g d a b σ := rfl
@[simp] theorem exec_remw q g d a b : exec (.remw q g d a b) σ = execRemw q g d a b σ := rfl
@[simp] theorem exec_min q g d a b : exec (.min q g d a b) σ = execMin q g d a b σ := rfl
@[simp] theorem exec_max q g d a b : exec (.max q g d a b) σ = execMax q g d a b σ := rfl
@[simp] theorem exec_minw q g d a b : exec (.minw q g d a b) σ = execMinw q g d a b σ := rfl
@[simp] theorem exec_maxw q g d a b : exec (.maxw q g d a b) σ = execMaxw q g d a b σ := rfl
@[simp] theorem exec_clz q g d a : exec (.clz q g d a) σ = execClz q g d a σ := rfl
@[simp] theorem exec_cls q g d a : exec (.cls q g d a) σ = execCls q g d a σ := rfl
@[simp] theorem exec_popc q g d a : exec (.popc q g d a) σ = execPopc q g d a σ := rfl
@[simp] theorem exec_bfx q g d a b : exec (.bfx q g d a b) σ = execBfx q g d a b σ := rfl
@[simp] theorem exec_bfi q g d a b : exec (.bfi q g d a b) σ = execBfi q g d a b σ := rfl
@[simp] theorem exec_sel q sx d a b : exec (.sel q sx d a b) σ = execSel q sx d a b σ := rfl
@[simp] theorem exec_mov q g d a : exec (.mov q g d a) σ = execMov q g d a σ := rfl
@[simp] theorem exec_movp q g f p n x m y : exec (.movp q g f p n x m y) σ = execMovp q g f p n x m y σ := rfl
@[simp] theorem exec_cmpEq q g p a b : exec (.cmpEq q g p a b) σ = execCmpEq q g p a b σ := rfl
@[simp] theorem exec_cmpNe q g p a b : exec (.cmpNe q g p a b) σ = execCmpNe q g p a b σ := rfl
@[simp] theorem exec_cmpLt q g p a b : exec (.cmpLt q g p a b) σ = execCmpLt q g p a b σ := rfl
@[simp] theorem exec_cmpGe q g p a b : exec (.cmpGe q g p a b) σ = execCmpGe q g p a b σ := rfl
@[simp] theorem exec_cmpLtw q g p a b : exec (.cmpLtw q g p a b) σ = execCmpLtw q g p a b σ := rfl
@[simp] theorem exec_cmpGew q g p a b : exec (.cmpGew q g p a b) σ = execCmpGew q g p a b σ := rfl
@[simp] theorem exec_addi q d a imm0 ext : exec (.addi q d a imm0 ext) σ = execAddi q d a imm0 ext σ := rfl
@[simp] theorem exec_li q d imm0 ext : exec (.li q d imm0 ext) σ = execLi q d imm0 ext σ := rfl
@[simp] theorem exec_lih q d imm0 ext : exec (.lih q d imm0 ext) σ = execLih q d imm0 ext σ := rfl
@[simp] theorem exec_cmpiEq q p a imm0 ext : exec (.cmpiEq q p a imm0 ext) σ = execCmpiEq q p a imm0 ext σ := rfl
@[simp] theorem exec_cmpiNe q p a imm0 ext : exec (.cmpiNe q p a imm0 ext) σ = execCmpiNe q p a imm0 ext σ := rfl
@[simp] theorem exec_cmpiLt q p a imm0 ext : exec (.cmpiLt q p a imm0 ext) σ = execCmpiLt q p a imm0 ext σ := rfl
@[simp] theorem exec_cmpiGe q p a imm0 ext : exec (.cmpiGe q p a imm0 ext) σ = execCmpiGe q p a imm0 ext σ := rfl
@[simp] theorem exec_cmpiLtw q p a imm0 ext : exec (.cmpiLtw q p a imm0 ext) σ = execCmpiLtw q p a imm0 ext σ := rfl
@[simp] theorem exec_cmpiGew q p a imm0 ext : exec (.cmpiGew q p a imm0 ext) σ = execCmpiGew q p a imm0 ext σ := rfl
@[simp] theorem exec_brRel q g k ext : exec (.brRel q g k ext) σ = execBrRel q g k ext σ := rfl
@[simp] theorem exec_brAbs q g imm0 ext : exec (.brAbs q g imm0 ext) σ = execBrAbs q g imm0 ext σ := rfl
@[simp] theorem exec_callRel q g k ext : exec (.callRel q g k ext) σ = execCallRel q g k ext σ := rfl
@[simp] theorem exec_callAbs q g imm0 ext : exec (.callAbs q g imm0 ext) σ = execCallAbs q g imm0 ext σ := rfl
@[simp] theorem exec_ret q g a : exec (.ret q g a) σ = execRet q g a σ := rfl
@[simp] theorem exec_brc q g x a k ext : exec (.brc q g x a k ext) σ = execBrc q g x a k ext σ := rfl
@[simp] theorem exec_brf q g t e n k ext : exec (.brf q g t e n k ext) σ = execBrf q g t e n k ext σ := rfl
@[simp] theorem exec_loopOpen q n a j ext : exec (.loopOpen q n a j ext) σ = execLoopOpen q n a j ext σ := rfl
@[simp] theorem exec_loopClose q n k ext : exec (.loopClose q n k ext) σ = execLoopClose q n k ext σ := rfl
@[simp] theorem exec_loopr q n r k ext : exec (.loopr q n r k ext) σ = execLoopr q n r k ext σ := rfl
@[simp] theorem exec_lbrk q g n k ext : exec (.lbrk q g n k ext) σ = execLbrk q g n k ext σ := rfl
@[simp] theorem exec_segx q g sx : exec (.segx q g sx) σ = execSegx q g sx σ := rfl
@[simp] theorem exec_endNode : exec .endNode σ = execEndNode σ := rfl
@[simp] theorem exec_ldB q g d a f ext : exec (.ldB q g d a f ext) σ = execLdB q g d a f ext σ := rfl
@[simp] theorem exec_ldH q g d a f ext : exec (.ldH q g d a f ext) σ = execLdH q g d a f ext σ := rfl
@[simp] theorem exec_ldW q g d a f ext : exec (.ldW q g d a f ext) σ = execLdW q g d a f ext σ := rfl
@[simp] theorem exec_ldD q g d a f ext : exec (.ldD q g d a f ext) σ = execLdD q g d a f ext σ := rfl
@[simp] theorem exec_ldW8 q g d a f ext : exec (.ldW8 q g d a f ext) σ = execLdW8 q g d a f ext σ := rfl
@[simp] theorem exec_ldW16 q g d a f ext : exec (.ldW16 q g d a f ext) σ = execLdW16 q g d a f ext σ := rfl
@[simp] theorem exec_ldW32 q g d a f ext : exec (.ldW32 q g d a f ext) σ = execLdW32 q g d a f ext σ := rfl
@[simp] theorem exec_ldAcq q g d a z sx : exec (.ldAcq q g d a z sx) σ = execLdAcq q g d a z sx σ := rfl
@[simp] theorem exec_stB q g v a f ext : exec (.stB q g v a f ext) σ = execStB q g v a f ext σ := rfl
@[simp] theorem exec_stH q g v a f ext : exec (.stH q g v a f ext) σ = execStH q g v a f ext σ := rfl
@[simp] theorem exec_stW q g v a f ext : exec (.stW q g v a f ext) σ = execStW q g v a f ext σ := rfl
@[simp] theorem exec_stD q g v a f ext : exec (.stD q g v a f ext) σ = execStD q g v a f ext σ := rfl
@[simp] theorem exec_stRel q g v a z sx : exec (.stRel q g v a z sx) σ = execStRel q g v a z sx σ := rfl
@[simp] theorem exec_ldh q g h a f ext : exec (.ldh q g h a f ext) σ = execLdh q g h a f ext σ := rfl
@[simp] theorem exec_sth q g h a f ext : exec (.sth q g h a f ext) σ = execSth q g h a f ext σ := rfl
@[simp] theorem exec_amoAdd q g d a b w ext : exec (.amoAdd q g d a b w ext) σ = execAmoAdd q g d a b w ext σ := rfl
@[simp] theorem exec_amoAdds q g d a b w ext : exec (.amoAdds q g d a b w ext) σ = execAmoAdds q g d a b w ext σ := rfl
@[simp] theorem exec_amoMin q g d a b w ext : exec (.amoMin q g d a b w ext) σ = execAmoMin q g d a b w ext σ := rfl
@[simp] theorem exec_amoMax q g d a b w ext : exec (.amoMax q g d a b w ext) σ = execAmoMax q g d a b w ext σ := rfl
@[simp] theorem exec_amoAnd q g d a b w ext : exec (.amoAnd q g d a b w ext) σ = execAmoAnd q g d a b w ext σ := rfl
@[simp] theorem exec_amoOr q g d a b w ext : exec (.amoOr q g d a b w ext) σ = execAmoOr q g d a b w ext σ := rfl
@[simp] theorem exec_amoXor q g d a b w ext : exec (.amoXor q g d a b w ext) σ = execAmoXor q g d a b w ext σ := rfl
@[simp] theorem exec_amoSwap q g d a b w ext : exec (.amoSwap q g d a b w ext) σ = execAmoSwap q g d a b w ext σ := rfl
@[simp] theorem exec_amoCas q g d a b w ext : exec (.amoCas q g d a b w ext) σ = execAmoCas q g d a b w ext σ := rfl
@[simp] theorem exec_amoIncw q g d a b w ext : exec (.amoIncw q g d a b w ext) σ = execAmoIncw q g d a b w ext σ := rfl
@[simp] theorem exec_trap q g k : exec (.trap q g k) σ = execTrap q g k σ := rfl
@[simp] theorem exec_tret q : exec (.tret q) σ = execTret q σ := rfl
@[simp] theorem exec_uiret q : exec (.uiret q) σ = execUiret q σ := rfl
@[simp] theorem exec_ctlr q g d n : exec (.ctlr q g d n) σ = execCtlr q g d n σ := rfl
@[simp] theorem exec_ctlw q g sx n : exec (.ctlw q g sx n) σ = execCtlw q g sx n σ := rfl
@[simp] theorem exec_fence q g a l sx : exec (.fence q g a l sx) σ = execFence q g a l sx σ := rfl
@[simp] theorem exec_brk q g k : exec (.brk q g k) σ = execBrk q g k σ := rfl
@[simp] theorem exec_cmpt q g a b : exec (.cmpt q g a b) σ = execCmpt q g a b σ := rfl
@[simp] theorem exec_enq q g p y : exec (.enq q g p y) σ = execEnq q g p y σ := rfl
@[simp] theorem exec_yield q g : exec (.yield q g) σ = execYield q g σ := rfl
@[simp] theorem exec_genr q g d : exec (.genr q g d) σ = execGenr q g d σ := rfl
@[simp] theorem exec_idle q : exec (.idle q) σ = execIdle q σ := rfl
@[simp] theorem exec_vadd q u d a b : exec (.vadd q u d a b) σ = execVadd q u d a b σ := rfl
@[simp] theorem exec_vsub q u d a b : exec (.vsub q u d a b) σ = execVsub q u d a b σ := rfl
@[simp] theorem exec_vadds q u d a b : exec (.vadds q u d a b) σ = execVadds q u d a b σ := rfl
@[simp] theorem exec_vsubs q u d a b : exec (.vsubs q u d a b) σ = execVsubs q u d a b σ := rfl
@[simp] theorem exec_vmul q sx u d a b : exec (.vmul q sx u d a b) σ = execVmul q sx u d a b σ := rfl
@[simp] theorem exec_vmulh q u d a b : exec (.vmulh q u d a b) σ = execVmulh q u d a b σ := rfl
@[simp] theorem exec_vmac q sx u d a b : exec (.vmac q sx u d a b) σ = execVmac q sx u d a b σ := rfl
@[simp] theorem exec_vmin q u d a b : exec (.vmin q u d a b) σ = execVmin q u d a b σ := rfl
@[simp] theorem exec_vmax q u d a b : exec (.vmax q u d a b) σ = execVmax q u d a b σ := rfl
@[simp] theorem exec_vand q d a b : exec (.vand q d a b) σ = execVand q d a b σ := rfl
@[simp] theorem exec_vor q d a b : exec (.vor q d a b) σ = execVor q d a b σ := rfl
@[simp] theorem exec_vxor q d a b : exec (.vxor q d a b) σ = execVxor q d a b σ := rfl
@[simp] theorem exec_vandn q d a b : exec (.vandn q d a b) σ = execVandn q d a b σ := rfl
@[simp] theorem exec_vsel q d a b : exec (.vsel q d a b) σ = execVsel q d a b σ := rfl
@[simp] theorem exec_vcmpEq q d a b : exec (.vcmpEq q d a b) σ = execVcmpEq q d a b σ := rfl
@[simp] theorem exec_vcmpNe q d a b : exec (.vcmpNe q d a b) σ = execVcmpNe q d a b σ := rfl
@[simp] theorem exec_vcmpLt q d a b : exec (.vcmpLt q d a b) σ = execVcmpLt q d a b σ := rfl
@[simp] theorem exec_vcmpGe q d a b : exec (.vcmpGe q d a b) σ = execVcmpGe q d a b σ := rfl
@[simp] theorem exec_vcmpLtw q d a b : exec (.vcmpLtw q d a b) σ = execVcmpLtw q d a b σ := rfl
@[simp] theorem exec_vcmpGew q d a b : exec (.vcmpGew q d a b) σ = execVcmpGew q d a b σ := rfl
@[simp] theorem exec_vperm q d a b : exec (.vperm q d a b) σ = execVperm q d a b σ := rfl
@[simp] theorem exec_vgath q d a b : exec (.vgath q d a b) σ = execVgath q d a b σ := rfl
@[simp] theorem exec_vscat q d a b : exec (.vscat q d a b) σ = execVscat q d a b σ := rfl
@[simp] theorem exec_vcmpt q a b : exec (.vcmpt q a b) σ = execVcmpt q a b σ := rfl
@[simp] theorem exec_tld q g h t : exec (.tld q g h t) σ = execTld q g h t σ := rfl
@[simp] theorem exec_tst q g h t m : exec (.tst q g h t m) σ = execTst q g h t m σ := rfl
@[simp] theorem exec_vshl q x d a b : exec (.vshl q x d a b) σ = execVshl q x d a b σ := rfl
@[simp] theorem exec_vshr q x d a b : exec (.vshr q x d a b) σ = execVshr q x d a b σ := rfl
@[simp] theorem exec_vsar q x d a b : exec (.vsar q x d a b) σ = execVsar q x d a b σ := rfl
@[simp] theorem exec_vshrn q m d a b ext : exec (.vshrn q m d a b ext) σ = execVshrn q m d a b ext σ := rfl
@[simp] theorem exec_vabs q sx d a : exec (.vabs q sx d a) σ = execVabs q sx d a σ := rfl
@[simp] theorem exec_vneg q sx d a : exec (.vneg q sx d a) σ = execVneg q sx d a σ := rfl
@[simp] theorem exec_vclz q d a : exec (.vclz q d a) σ = execVclz q d a σ := rfl
@[simp] theorem exec_vcls q d a : exec (.vcls q d a) σ = execVcls q d a σ := rfl
@[simp] theorem exec_vpopc q d a : exec (.vpopc q d a) σ = execVpopc q d a σ := rfl
@[simp] theorem exec_vcvt q u d a b : exec (.vcvt q u d a b) σ = execVcvt q u d a b σ := rfl
@[simp] theorem exec_vpack q w d a b : exec (.vpack q w d a b) σ = execVpack q w d a b σ := rfl
@[simp] theorem exec_vunpk q u d a e : exec (.vunpk q u d a e) σ = execVunpk q u d a e σ := rfl
@[simp] theorem exec_vrotl q x d a b ext : exec (.vrotl q x d a b ext) σ = execVrotl q x d a b ext σ := rfl
@[simp] theorem exec_vbcast q d sx : exec (.vbcast q d sx) σ = execVbcast q d sx σ := rfl
@[simp] theorem exec_vbcastRow q d a : exec (.vbcastRow q d a) σ = execVbcastRow q d a σ := rfl
@[simp] theorem exec_vbcastCol q d a : exec (.vbcastCol q d a) σ = execVbcastCol q d a σ := rfl
@[simp] theorem exec_vmov q d a : exec (.vmov q d a) σ = execVmov q d a σ := rfl
@[simp] theorem exec_vredsum q x d a u : exec (.vredsum q x d a u) σ = execVredsum q x d a u σ := rfl
@[simp] theorem exec_vredmax q x d a u : exec (.vredmax q x d a u) σ = execVredmax q x d a u σ := rfl
@[simp] theorem exec_vredmin q x d a u : exec (.vredmin q x d a u) σ = execVredmin q x d a u σ := rfl
@[simp] theorem exec_vabsmax q x d a : exec (.vabsmax q x d a) σ = execVabsmax q x d a σ := rfl
@[simp] theorem exec_vpart q n d a : exec (.vpart q n d a) σ = execVpart q n d a σ := rfl
@[simp] theorem exec_vscan q x d a sx u : exec (.vscan q x d a sx u) σ = execVscan q x d a sx u σ := rfl
@[simp] theorem exec_vlut3 q l d a b : exec (.vlut3 q l d a b) σ = execVlut3 q l d a b σ := rfl
@[simp] theorem exec_vfsl q d a b n : exec (.vfsl q d a b n) σ = execVfsl q d a b n σ := rfl
@[simp] theorem exec_vfsr q d a b n : exec (.vfsr q d a b n) σ = execVfsr q d a b n σ := rfl
@[simp] theorem exec_vexp2 q d a f ext : exec (.vexp2 q d a f ext) σ = execVexp2 q d a f ext σ := rfl
@[simp] theorem exec_vlog2 q d a f ext : exec (.vlog2 q d a f ext) σ = execVlog2 q d a f ext σ := rfl
@[simp] theorem exec_vrcp q d a f ext : exec (.vrcp q d a f ext) σ = execVrcp q d a f ext σ := rfl
@[simp] theorem exec_vrsq q d a f ext : exec (.vrsq q d a f ext) σ = execVrsq q d a f ext σ := rfl
@[simp] theorem exec_vsmax q d a f : exec (.vsmax q d a f) σ = execVsmax q d a f σ := rfl
@[simp] theorem exec_vrmsn q d a b ext : exec (.vrmsn q d a b ext) σ = execVrmsn q d a b ext σ := rfl
@[simp] theorem exec_vlnrm q d a b ext : exec (.vlnrm q d a b ext) σ = execVlnrm q d a b ext σ := rfl
@[simp] theorem exec_vgelu q d a f ext : exec (.vgelu q d a f ext) σ = execVgelu q d a f ext σ := rfl
@[simp] theorem exec_voptSgdm q m d a b ext : exec (.voptSgdm q m d a b ext) σ = execVoptSgdm q m d a b ext σ := rfl
@[simp] theorem exec_voptLion q m d a b ext : exec (.voptLion q m d a b ext) σ = execVoptLion q m d a b ext σ := rfl
@[simp] theorem exec_voptAdam q m d a b ext : exec (.voptAdam q m d a b ext) σ = execVoptAdam q m d a b ext σ := rfl
@[simp] theorem exec_mbeg q d k : exec (.mbeg q d k) σ = execMbeg q d k σ := rfl
@[simp] theorem exec_mend q d : exec (.mend q d) σ = execMend q d σ := rfl
@[simp] theorem exec_mzero q d : exec (.mzero q d) σ = execMzero q d σ := rfl
@[simp] theorem exec_mma q d a b ext : exec (.mma q d a b ext) σ = execMma q d a b ext σ := rfl
@[simp] theorem exec_mmat q d a b ext : exec (.mmat q d a b ext) σ = execMmat q d a b ext σ := rfl
@[simp] theorem exec_epi q t a x y m sx ext : exec (.epi q t a x y m sx ext) σ = execEpi q t a x y m sx ext σ := rfl
@[simp] theorem exec_epiAdd q h a m sx e l o ext : exec (.epiAdd q h a m sx e l o ext) σ = execEpiAdd q h a m sx e l o ext σ := rfl
@[simp] theorem exec_epiSend q r h a m sx ext : exec (.epiSend q r h a m sx ext) σ = execEpiSend q r h a m sx ext σ := rfl
@[simp] theorem exec_epiCk q p a : exec (.epiCk q p a) σ = execEpiCk q p a σ := rfl
@[simp] theorem exec_hset q g h x a : exec (.hset q g h x a) σ = execHset q g h x a σ := rfl
@[simp] theorem exec_hld q g h f a : exec (.hld q g h f a) σ = execHld q g h f a σ := rfl
@[simp] theorem exec_hst q g h f a : exec (.hst q g h f a) σ = execHst q g h f a σ := rfl
@[simp] theorem exec_horg q g h d a : exec (.horg q g h d a) σ = execHorg q g h d a σ := rfl
@[simp] theorem exec_horgImm q g h d imm0 ext : exec (.horgImm q g h d imm0 ext) σ = execHorgImm q g h d imm0 ext σ := rfl
@[simp] theorem exec_hstep q g h d a : exec (.hstep q g h d a) σ = execHstep q g h d a σ := rfl
@[simp] theorem exec_hstepImm q g h d imm0 ext : exec (.hstepImm q g h d imm0 ext) σ = execHstepImm q g h d imm0 ext σ := rfl
@[simp] theorem exec_kset q g k m a : exec (.kset q g k m a) σ = execKset q g k m a σ := rfl
@[simp] theorem exec_kget q g d k f : exec (.kget q g d k f) σ = execKget q g d k f σ := rfl
@[simp] theorem exec_cenClose q g k : exec (.cenClose q g k) σ = execCenClose q g k σ := rfl
@[simp] theorem exec_cenGet q g d k f : exec (.cenGet q g d k f) σ = execCenGet q g d k f σ := rfl
@[simp] theorem exec_shift q g d k w : exec (.shift q g d k w) σ = execShift q g d k w σ := rfl
@[simp] theorem exec_tsh q g t sx : exec (.tsh q g t sx) σ = execTsh q g t sx σ := rfl
@[simp] theorem exec_tshRead q g t sx : exec (.tshRead q g t sx) σ = execTshRead q g t sx σ := rfl
@[simp] theorem exec_tshr q g t u b : exec (.tshr q g t u b) σ = execTshr q g t u b σ := rfl
@[simp] theorem exec_cpy q g h sx w : exec (.cpy q g h sx w) σ = execCpy q g h sx w σ := rfl
@[simp] theorem exec_cpyk q g h sx w : exec (.cpyk q g h sx w) σ = execCpyk q g h sx w σ := rfl
@[simp] theorem exec_cpyf q g h w v : exec (.cpyf q g h w v) σ = execCpyf q g h w v σ := rfl
@[simp] theorem exec_cpyb q g h sx w m : exec (.cpyb q g h sx w m) σ = execCpyb q g h sx w m σ := rfl
@[simp] theorem exec_cpyq q g h sx w t : exec (.cpyq q g h sx w t) σ = execCpyq q g h sx w t σ := rfl
@[simp] theorem exec_cpycan q g a b : exec (.cpycan q g a b) σ = execCpycan q g a b σ := rfl
@[simp] theorem exec_send q g h sx w r : exec (.send q g h sx w r) σ = execSend q g h sx w r σ := rfl
@[simp] theorem exec_sendt q g h sx w r : exec (.sendt q g h sx w r) σ = execSendt q g h sx w r σ := rfl
@[simp] theorem exec_coll q g h sx w r : exec (.coll q g h sx w r) σ = execColl q g h sx w r σ := rfl
@[simp] theorem exec_abort q g r : exec (.abort q g r) σ = execAbort q g r σ := rfl
@[simp] theorem exec_cset q g n a : exec (.cset q g n a) σ = execCset q g n a σ := rfl
@[simp] theorem exec_csetImm q g n imm0 ext : exec (.csetImm q g n imm0 ext) σ = execCsetImm q g n imm0 ext σ := rfl
@[simp] theorem exec_cadd q g n a : exec (.cadd q g n a) σ = execCadd q g n a σ := rfl
@[simp] theorem exec_caddImm q g n imm0 ext : exec (.caddImm q g n imm0 ext) σ = execCaddImm q g n imm0 ext σ := rfl
@[simp] theorem exec_cwait q g n a : exec (.cwait q g n a) σ = execCwait q g n a σ := rfl
@[simp] theorem exec_cwaitImm q g n imm0 ext : exec (.cwaitImm q g n imm0 ext) σ = execCwaitImm q g n imm0 ext σ := rfl
@[simp] theorem exec_barb q g n a : exec (.barb q g n a) σ = execBarb q g n a σ := rfl
@[simp] theorem exec_barbImm q g n imm0 ext : exec (.barbImm q g n imm0 ext) σ = execBarbImm q g n imm0 ext σ := rfl
@[simp] theorem exec_bar q g a b e l : exec (.bar q g a b e l) σ = execBar q g a b e l σ := rfl
@[simp] theorem exec_jcbRaise q g p a : exec (.jcbRaise q g p a) σ = execJcbRaise q g p a σ := rfl
@[simp] theorem exec_jcbRaiseImm q g p imm0 ext : exec (.jcbRaiseImm q g p imm0 ext) σ = execJcbRaiseImm q g p imm0 ext σ := rfl
@[simp] theorem exec_jcbDone q g : exec (.jcbDone q g) σ = execJcbDone q g σ := rfl
@[simp] theorem exec_tokGive q g l a : exec (.tokGive q g l a) σ = execTokGive q g l a σ := rfl
@[simp] theorem exec_tokGiveImm q g l imm0 ext : exec (.tokGiveImm q g l imm0 ext) σ = execTokGiveImm q g l imm0 ext σ := rfl
@[simp] theorem exec_tokTake q g p l a : exec (.tokTake q g p l a) σ = execTokTake q g p l a σ := rfl
@[simp] theorem exec_tokTakeImm q g p l imm0 ext : exec (.tokTakeImm q g p l imm0 ext) σ = execTokTakeImm q g p l imm0 ext σ := rfl
@[simp] theorem exec_extensionWord imm0 : exec (.extensionWord imm0) σ = execExtensionWord imm0 σ := rfl
@[simp] theorem exec_nop q x : exec (.nop q x) σ = execNop q x σ := rfl
@[simp] theorem exec_qtailWrite q v : exec (.qtailWrite q v) σ = execQtailWrite q v σ := rfl
@[simp] theorem exec_queueEnable q v : exec (.queueEnable q v) σ = execQueueEnable q v σ := rfl
@[simp] theorem exec_queueDisable q v : exec (.queueDisable q v) σ = execQueueDisable q v σ := rfl
@[simp] theorem exec_qctlRst q v : exec (.qctlRst q v) σ = execQctlRst q v σ := rfl
@[simp] theorem exec_tlinkWrite n v : exec (.tlinkWrite n v) σ = execTlinkWrite n v σ := rfl
@[simp] theorem exec_excommit v : exec (.excommit v) σ = execExcommit v σ := rfl
@[simp] theorem exec_flipreqAck v : exec (.flipreqAck v) σ = execFlipreqAck v σ := rfl
@[simp] theorem exec_flipreqToHost v : exec (.flipreqToHost v) σ = execFlipreqToHost v σ := rfl
@[simp] theorem exec_registerWrite off d : exec (.registerWrite off d) σ = execRegisterWrite off d σ := rfl
@[simp] theorem exec_awlSlot : exec .awlSlot σ = execAwlSlot σ := rfl
@[simp] theorem exec_launchGraph src pkt : exec (.launchGraph src pkt) σ = execLaunchGraph src pkt σ := rfl
@[simp] theorem exec_launchNode src pkt : exec (.launchNode src pkt) σ = execLaunchNode src pkt σ := rfl
@[simp] theorem exec_write src pkt : exec (.write src pkt) σ = execWrite src pkt σ := rfl
@[simp] theorem exec_signal src pkt : exec (.signal src pkt) σ = execSignal src pkt σ := rfl
@[simp] theorem exec_writeSignal src pkt : exec (.writeSignal src pkt) σ = execWriteSignal src pkt σ := rfl
@[simp] theorem exec_tokenGive src pkt : exec (.tokenGive src pkt) σ = execTokenGive src pkt σ := rfl
@[simp] theorem exec_tokenWait src pkt : exec (.tokenWait src pkt) σ = execTokenWait src pkt σ := rfl
@[simp] theorem exec_copy src pkt : exec (.copy src pkt) σ = execCopy src pkt σ := rfl
@[simp] theorem exec_fencePacket src pkt : exec (.fencePacket src pkt) σ = execFencePacket src pkt σ := rfl
@[simp] theorem exec_qreset src pkt : exec (.qreset src pkt) σ = execQreset src pkt σ := rfl
@[simp] theorem exec_slice src pkt : exec (.slice src pkt) σ = execSlice src pkt σ := rfl
@[simp] theorem exec_bindGang src pkt : exec (.bindGang src pkt) σ = execBindGang src pkt σ := rfl
@[simp] theorem exec_bindDissolve src pkt : exec (.bindDissolve src pkt) σ = execBindDissolve src pkt σ := rfl
@[simp] theorem exec_bindReserve src pkt : exec (.bindReserve src pkt) σ = execBindReserve src pkt σ := rfl
@[simp] theorem exec_repairRebindHalf src pkt : exec (.repairRebindHalf src pkt) σ = execRepairRebindHalf src pkt σ := rfl
@[simp] theorem exec_repairDramRow src pkt : exec (.repairDramRow src pkt) σ = execRepairDramRow src pkt σ := rfl
@[simp] theorem exec_repairSpareLane src pkt : exec (.repairSpareLane src pkt) σ = execRepairSpareLane src pkt σ := rfl
@[simp] theorem exec_repairRetireCore src pkt : exec (.repairRetireCore src pkt) σ = execRepairRetireCore src pkt σ := rfl
@[simp] theorem exec_repairScan src pkt : exec (.repairScan src pkt) σ = execRepairScan src pkt σ := rfl
@[simp] theorem exec_attestQuote src pkt : exec (.attestQuote src pkt) σ = execAttestQuote src pkt σ := rfl
@[simp] theorem exec_attestPatch src pkt : exec (.attestPatch src pkt) σ = execAttestPatch src pkt σ := rfl
@[simp] theorem exec_signatureDone : exec .signatureDone σ = execSignatureDone σ := rfl
@[simp] theorem exec_packetComplete q imm0 : exec (.packetComplete q imm0) σ = execPacketComplete q imm0 σ := rfl
@[simp] theorem exec_qresetAcksDone q : exec (.qresetAcksDone q) σ = execQresetAcksDone q σ := rfl
@[simp] theorem exec_asgenChangeDone sp : exec (.asgenChangeDone sp) σ = execAsgenChangeDone sp σ := rfl
@[simp] theorem exec_flipDrainDone : exec .flipDrainDone σ = execFlipDrainDone σ := rfl
@[simp] theorem exec_enqOutboxAccept core : exec (.enqOutboxAccept core) σ = execEnqOutboxAccept core σ := rfl
@[simp] theorem exec_mailboxRecordWrite : exec .mailboxRecordWrite σ = execMailboxRecordWrite σ := rfl
@[simp] theorem exec_entryRebuild sp pa : exec (.entryRebuild sp pa) σ = execEntryRebuild sp pa σ := rfl
@[simp] theorem exec_sliceExpiry prio : exec (.sliceExpiry prio) σ = execSliceExpiry prio σ := rfl
@[simp] theorem exec_reserveSample : exec .reserveSample σ = execReserveSample σ := rfl
@[simp] theorem exec_reserveDecision : exec .reserveDecision σ = execReserveDecision σ := rfl
@[simp] theorem exec_reserveChangeDone core : exec (.reserveChangeDone core) σ = execReserveChangeDone core σ := rfl
@[simp] theorem exec_preemptWaitExpiry uid : exec (.preemptWaitExpiry uid) σ = execPreemptWaitExpiry uid σ := rfl
@[simp] theorem exec_distributorPlace : exec .distributorPlace σ = execDistributorPlace σ := rfl
@[simp] theorem exec_segmentCopyDone core : exec (.segmentCopyDone core) σ = execSegmentCopyDone core σ := rfl
@[simp] theorem exec_waitSatisfied uid : exec (.waitSatisfied uid) σ = execWaitSatisfied uid σ := rfl
@[simp] theorem exec_barRelease uid : exec (.barRelease uid) σ = execBarRelease uid σ := rfl
@[simp] theorem exec_idleEnd uid : exec (.idleEnd uid) σ = execIdleEnd uid σ := rfl
@[simp] theorem exec_jcbRaiseAnswer uid : exec (.jcbRaiseAnswer uid) σ = execJcbRaiseAnswer uid σ := rfl
@[simp] theorem exec_censusClose uid k : exec (.censusClose uid k) σ = execCensusClose uid k σ := rfl
@[simp] theorem exec_matrixRunEnd uid a : exec (.matrixRunEnd uid a) σ = execMatrixRunEnd uid a σ := rfl
@[simp] theorem exec_copyComplete uid slot : exec (.copyComplete uid slot) σ = execCopyComplete uid slot σ := rfl
@[simp] theorem exec_cpyqFire uid slot imm0 : exec (.cpyqFire uid slot imm0) σ = execCpyqFire uid slot imm0 σ := rfl
@[simp] theorem exec_epiAddComplete uid : exec (.epiAddComplete uid) σ = execEpiAddComplete uid σ := rfl
@[simp] theorem exec_sendtFire uid imm0 : exec (.sendtFire uid imm0) σ = execSendtFire uid imm0 σ := rfl
@[simp] theorem exec_sendDelivery d : exec (.sendDelivery d) σ = execSendDelivery d σ := rfl
@[simp] theorem exec_sendComplete uid imm0 ans : exec (.sendComplete uid imm0 ans) σ = execSendComplete uid imm0 ans σ := rfl
@[simp] theorem exec_collHop p : exec (.collHop p) σ = execCollHop p σ := rfl
@[simp] theorem exec_collDeliverApply imm0 : exec (.collDeliverApply imm0) σ = execCollDeliverApply imm0 σ := rfl
@[simp] theorem exec_abortFlit tag port : exec (.abortFlit tag port) σ = execAbortFlit tag port σ := rfl
@[simp] theorem exec_jcbHomeRaise uid : exec (.jcbHomeRaise uid) σ = execJcbHomeRaise uid σ := rfl
@[simp] theorem exec_jcbHomeCompletion jcb : exec (.jcbHomeCompletion jcb) σ = execJcbHomeCompletion jcb σ := rfl
@[simp] theorem exec_jcbHomeNodeFailure jcb node status : exec (.jcbHomeNodeFailure jcb node status) σ = execJcbHomeNodeFailure jcb node status σ := rfl
@[simp] theorem exec_nodeCommit uid : exec (.nodeCommit uid) σ = execNodeCommit uid σ := rfl
@[simp] theorem exec_trapEntry core : exec (.trapEntry core) σ = execTrapEntry core σ := rfl
@[simp] theorem exec_userInterruptEntry core : exec (.userInterruptEntry core) σ = execUserInterruptEntry core σ := rfl
@[simp] theorem exec_preemptQuiesce uid begun : exec (.preemptQuiesce uid begun) σ = execPreemptQuiesce uid begun σ := rfl
@[simp] theorem exec_nodeSave uid : exec (.nodeSave uid) σ = execNodeSave uid σ := rfl
@[simp] theorem exec_errorConsumed uid : exec (.errorConsumed uid) σ = execErrorConsumed uid σ := rfl
@[simp] theorem exec_powerGood : exec .powerGood σ = execPowerGood σ := rfl
@[simp] theorem exec_stackSelfTestPass r : exec (.stackSelfTestPass r) σ = execStackSelfTestPass r σ := rfl
@[simp] theorem exec_bringupTimeout : exec .bringupTimeout σ = execBringupTimeout σ := rfl
@[simp] theorem exec_probeReturn axis hops : exec (.probeReturn axis hops) σ = execProbeReturn axis hops σ := rfl
@[simp] theorem exec_probeTimeout axis : exec (.probeTimeout axis) σ = execProbeTimeout axis σ := rfl
@[simp] theorem exec_engineCheckFail core slot : exec (.engineCheckFail core slot) σ = execEngineCheckFail core slot σ := rfl
@[simp] theorem exec_rebindDone : exec .rebindDone σ = execRebindDone σ := rfl
@[simp] theorem exec_bindDrainDone : exec .bindDrainDone σ = execBindDrainDone σ := rfl
@[simp] theorem exec_dramSoftRepair chan bank row lost : exec (.dramSoftRepair chan bank row lost) σ = execDramSoftRepair chan bank row lost σ := rfl
@[simp] theorem exec_laneRetrainDone port : exec (.laneRetrainDone port) σ = execLaneRetrainDone port σ := rfl
@[simp] theorem exec_laneFail port lane : exec (.laneFail port lane) σ = execLaneFail port lane σ := rfl
@[simp] theorem exec_powerSample watts : exec (.powerSample watts) σ = execPowerSample watts σ := rfl
@[simp] theorem exec_clockStep : exec .clockStep σ = execClockStep σ := rfl
@[simp] theorem exec_telemetryRefresh : exec .telemetryRefresh σ = execTelemetryRefresh σ := rfl
@[simp] theorem exec_stackSelfTestFail st : exec (.stackSelfTestFail st) σ = execStackSelfTestFail st σ := rfl
@[simp] theorem exec_coreRetireDrainDone core : exec (.coreRetireDrainDone core) σ = execCoreRetireDrainDone core σ := rfl

end Sys2Proof.Machine
end

