-- ==== Sys2Proof/Laws/PerInstr.lean ====
section
/-! SUPPORT. Per instruction: what the encoder writes, the decoder reads back. -/

set_option linter.unusedSimpArgs false
set_option linter.unusedVariables false

namespace Sys2Proof.Laws

/-- A number laid out in fields, each a width and a value, highest first. -/
def pack : List (Nat × Nat) → Nat
  | [] => 0
  | f :: r => f.2 * 2 ^ (r.map (·.1)).sum + pack r

/-- Every field's value fits its width. -/
def Fits : List (Nat × Nat) → Prop
  | [] => True
  | f :: r => f.2 < 2 ^ f.1 ∧ Fits r

theorem pack_lt : ∀ {l : List (Nat × Nat)}, Fits l → pack l < 2 ^ (l.map (·.1)).sum
  | [], _ => by decide
  | f :: r, h => by
    have := pack_lt h.2
    have h1 := h.1
    simp only [pack, List.map_cons, List.sum_cons, Nat.pow_add]
    nlinarith [Nat.mul_le_mul_right (2 ^ (r.map (·.1)).sum) (Nat.succ_le_of_lt h1)]

theorem pack_append (a b : List (Nat × Nat)) : pack (a ++ b) = pack a * 2 ^ (b.map (·.1)).sum + pack b := by
  induction a with
  | nil => simp [pack]
  | cons f r ih => simp only [List.cons_append, pack, ih, List.map_append, List.sum_append, Nat.pow_add]; ring

theorem Fits.append {a b : List (Nat × Nat)} : Fits (a ++ b) ↔ Fits a ∧ Fits b := by
  induction a with
  | nil => simp [Fits]
  | cons f r ih => simp [Fits, ih, and_assoc]

/-- Dividing by the weight of the fields below drops them. -/
theorem pack_div (a b : List (Nat × Nat)) (h : Fits (a ++ b)) : pack (a ++ b) / 2 ^ (b.map (·.1)).sum = pack a := by
  rw [pack_append, Nat.add_comm, Nat.add_mul_div_right _ _ (Nat.two_pow_pos _), Nat.div_eq_of_lt (pack_lt (Fits.append.1 h).2), Nat.zero_add]

/-- The remainder by the weight of the lowest fields keeps them. -/
theorem pack_mod (a b : List (Nat × Nat)) (h : Fits (a ++ b)) : pack (a ++ b) % 2 ^ (b.map (·.1)).sum = pack b := by
  rw [pack_append, Nat.add_comm, Nat.add_mul_mod_self_right, Nat.mod_eq_of_lt (pack_lt (Fits.append.1 h).2)]

/-- A group of fields read out of the middle: `n` bits wide above `k` bits. -/
theorem pack_field (a b c : List (Nat × Nat)) (k n : Nat) {l : List (Nat × Nat)} {x d m v : Nat} (hx : x = pack l) (h : Fits l) (hl : l = (a ++ b) ++ c)
    (hk : (c.map (·.1)).sum = k) (hn : (b.map (·.1)).sum = n) (hd : d = 2 ^ k) (hm : m = 2 ^ n) (hv : pack b = v) : x / d % m = v := by
  subst hx hl hd hm hv hk hn
  rw [pack_div _ _ h, pack_mod _ _ (Fits.append.1 h).1]

/-- The lowest fields, `n` bits wide. -/
theorem pack_low (a b : List (Nat × Nat)) (n : Nat) {l : List (Nat × Nat)} {x m v : Nat} (hx : x = pack l) (h : Fits l) (hl : l = a ++ b)
    (hn : (b.map (·.1)).sum = n) (hm : m = 2 ^ n) (hv : pack b = v) : x % m = v := by
  subst hx hl hm hv hn; exact pack_mod _ _ h

/-- A field of the middle, as the decoder reads it. -/
theorem ofNat_field (a : List (Nat × Nat)) {w : Nat} (v : BitVec w) (c : List (Nat × Nat)) (k : Nat) {l : List (Nat × Nat)} {x d : Nat} (hx : x = pack l) (h : Fits l)
    (hl : l = (a ++ [(w, v.toNat)]) ++ c) (hk : (c.map (·.1)).sum = k) (hd : d = 2 ^ k) : BitVec.ofNat w (x / d) = v :=
  BitVec.eq_of_toNat_eq (by
    rw [BitVec.toNat_ofNat]
    exact pack_field a [(w, v.toNat)] c k w hx h hl hk (by simp) hd rfl (by simp [pack]))

/-- The lowest field, as the decoder reads it. -/
theorem ofNat_low (a : List (Nat × Nat)) {w : Nat} (v : BitVec w) {l : List (Nat × Nat)} {x : Nat} (hx : x = pack l) (h : Fits l)
    (hl : l = a ++ [(w, v.toNat)]) : BitVec.ofNat w x = v :=
  BitVec.eq_of_toNat_eq (by
    rw [BitVec.toNat_ofNat]
    exact pack_low a [(w, v.toNat)] w hx h hl (by simp) rfl (by simp [pack]))

/-- A layout of `k` bits. -/
theorem pack_bound {l : List (Nat × Nat)} (k : Nat) {x : Nat} (hx : x = pack l) (h : Fits l) (hk : (l.map (·.1)).sum = k) : x < 2 ^ k := by
  subst hx hk; exact pack_lt h

/-- One more field on top of a layout of `k` bits. -/
theorem pack_cons (w k : Nat) {v d y : Nat} {r : List (Nat × Nat)} (h : pack r = y) (hk : (r.map (·.1)).sum = k) (hd : d = 2 ^ k) : pack ((w, v) :: r) = v * d + y := by
  subst h hk hd; rfl

theorem pack_nil : pack [] = 0 := rfl

/-- The word of a well-formed instruction leaves the chain bit clear, and the decoder reads from it the instruction without its extension. -/
def EncodeDecode.Statement (i : Instr) : Prop :=
  i.wf = true → ∀ n : Nat, i.encodeNat = some n → n < 2147483648 ∧ ∃ j : Instr, decodeNat n = .ok j ∧ j.extOf = none ∧
    (match i.extOf with
     | none => j = i
     | some e => j.withExt e = some i)

theorem EncodeDecode.add (q : BitVec 2) (g : BitVec 4) (d : BitVec 5) (a : BitVec 5) (b : BitVec 5) : EncodeDecode.Statement (.add q g d a b) := by
  intro hwf x hx
  replace hx : q.toNat * 536870912 + g.toNat * 2097152 + d.toNat * 1024 + a.toNat * 32 + b.toNat = x := Option.some.inj hx
  have hp : x = pack [(2, q.toNat), (4, 0), (4, g.toNat), (6, 0), (5, d.toNat), (5, a.toNat), (5, b.toNat)] := by
    rw [pack_cons 2 29 (pack_cons 4 25 (pack_cons 4 21 (pack_cons 6 15 (pack_cons 5 10 (pack_cons 5 5 (pack_cons 5 0 pack_nil rfl (rfl : 1 = 2 ^ 0)) rfl (rfl : 32 = 2 ^ 5)) rfl (rfl : 1024 = 2 ^ 10)) rfl (rfl : 32768 = 2 ^ 15)) rfl (rfl : 2097152 = 2 ^ 21)) rfl (rfl : 33554432 = 2 ^ 25)) rfl (rfl : 536870912 = 2 ^ 29)]
    omega
  have hf : Fits [(2, q.toNat), (4, 0), (4, g.toNat), (6, 0), (5, d.toNat), (5, a.toNat), (5, b.toNat)] := ⟨q.isLt, by decide, g.isLt, by decide, d.isLt, a.isLt, b.isLt, trivial⟩
  have h0 : x / 33554432 % 16 = 0 := pack_field [(2, q.toNat)] [(4, 0)] [(4, g.toNat), (6, 0), (5, d.toNat), (5, a.toNat), (5, b.toNat)] 25 4 hp hf rfl rfl rfl rfl rfl rfl
  have h1 : x / 32768 % 64 = 0 := pack_field [(2, q.toNat), (4, 0), (4, g.toNat)] [(6, 0)] [(5, d.toNat), (5, a.toNat), (5, b.toNat)] 15 6 hp hf rfl rfl rfl rfl rfl rfl
  have e0 : BitVec.ofNat 2 (x / 536870912) = q := ofNat_field [] q [(4, 0), (4, g.toNat), (6, 0), (5, d.toNat), (5, a.toNat), (5, b.toNat)] 29 hp hf rfl rfl rfl
  have e1 : BitVec.ofNat 4 (x / 2097152) = g := ofNat_field [(2, q.toNat), (4, 0)] g [(6, 0), (5, d.toNat), (5, a.toNat), (5, b.toNat)] 21 hp hf rfl rfl rfl
  have e2 : BitVec.ofNat 5 (x / 1024) = d := ofNat_field [(2, q.toNat), (4, 0), (4, g.toNat), (6, 0)] d [(5, a.toNat), (5, b.toNat)] 10 hp hf rfl rfl rfl
  have e3 : BitVec.ofNat 5 (x / 32) = a := ofNat_field [(2, q.toNat), (4, 0), (4, g.toNat), (6, 0), (5, d.toNat)] a [(5, b.toNat)] 5 hp hf rfl rfl rfl
  have e4 : BitVec.ofNat 5 x = b := ofNat_low [(2, q.toNat), (4, 0), (4, g.toNat), (6, 0), (5, d.toNat), (5, a.toNat)] b hp hf rfl
  refine ⟨pack_bound 31 hp hf rfl, (.add q g d a b), ?_, rfl, ?_⟩
  · simp only [decodeNat, decodeS, h0, h1, ↓reduceIte]
    rw [e0, e1, e2, e3, e4]
    try rfl
  · rfl

theorem EncodeDecode.sub (q : BitVec 2) (g : BitVec 4) (d : BitVec 5) (a : BitVec 5) (b : BitVec 5) : EncodeDecode.Statement (.sub q g d a b) := by
  intro hwf x hx
  replace hx : 32768 + q.toNat * 536870912 + g.toNat * 2097152 + d.toNat * 1024 + a.toNat * 32 + b.toNat = x := Option.some.inj hx
  have hp : x = pack [(2, q.toNat), (4, 0), (4, g.toNat), (6, 1), (5, d.toNat), (5, a.toNat), (5, b.toNat)] := by
    rw [pack_cons 2 29 (pack_cons 4 25 (pack_cons 4 21 (pack_cons 6 15 (pack_cons 5 10 (pack_cons 5 5 (pack_cons 5 0 pack_nil rfl (rfl : 1 = 2 ^ 0)) rfl (rfl : 32 = 2 ^ 5)) rfl (rfl : 1024 = 2 ^ 10)) rfl (rfl : 32768 = 2 ^ 15)) rfl (rfl : 2097152 = 2 ^ 21)) rfl (rfl : 33554432 = 2 ^ 25)) rfl (rfl : 536870912 = 2 ^ 29)]
    omega
  have hf : Fits [(2, q.toNat), (4, 0), (4, g.toNat), (6, 1), (5, d.toNat), (5, a.toNat), (5, b.toNat)] := ⟨q.isLt, by decide, g.isLt, by decide, d.isLt, a.isLt, b.isLt, trivial⟩
  have h0 : x / 33554432 % 16 = 0 := pack_field [(2, q.toNat)] [(4, 0)] [(4, g.toNat), (6, 1), (5, d.toNat), (5, a.toNat), (5, b.toNat)] 25 4 hp hf rfl rfl rfl rfl rfl rfl
  have h1 : x / 32768 % 64 = 1 := pack_field [(2, q.toNat), (4, 0), (4, g.toNat)] [(6, 1)] [(5, d.toNat), (5, a.toNat), (5, b.toNat)] 15 6 hp hf rfl rfl rfl rfl rfl rfl
  have e0 : BitVec.ofNat 2 (x / 536870912) = q := ofNat_field [] q [(4, 0), (4, g.toNat), (6, 1), (5, d.toNat), (5, a.toNat), (5, b.toNat)] 29 hp hf rfl rfl rfl
  have e1 : BitVec.ofNat 4 (x / 2097152) = g := ofNat_field [(2, q.toNat), (4, 0)] g [(6, 1), (5, d.toNat), (5, a.toNat), (5, b.toNat)] 21 hp hf rfl rfl rfl
  have e2 : BitVec.ofNat 5 (x / 1024) = d := ofNat_field [(2, q.toNat), (4, 0), (4, g.toNat), (6, 1)] d [(5, a.toNat), (5, b.toNat)] 10 hp hf rfl rfl rfl
  have e3 : BitVec.ofNat 5 (x / 32) = a := ofNat_field [(2, q.toNat), (4, 0), (4, g.toNat), (6, 1), (5, d.toNat)] a [(5, b.toNat)] 5 hp hf rfl rfl rfl
  have e4 : BitVec.ofNat 5 x = b := ofNat_low [(2, q.toNat), (4, 0), (4, g.toNat), (6, 1), (5, d.toNat), (5, a.toNat)] b hp hf rfl
  refine ⟨pack_bound 31 hp hf rfl, (.sub q g d a b), ?_, rfl, ?_⟩
  · simp only [decodeNat, decodeS, h0, h1, ↓reduceIte]
    rw [e0, e1, e2, e3, e4]
    try rfl
  · rfl

theorem EncodeDecode.addS (q : BitVec 2) (g : BitVec 4) (d : BitVec 5) (a : BitVec 5) (b : BitVec 5) : EncodeDecode.Statement (.addS q g d a b) := by
  intro hwf x hx
  replace hx : 65536 + q.toNat * 536870912 + g.toNat * 2097152 + d.toNat * 1024 + a.toNat * 32 + b.toNat = x := Option.some.inj hx
  have hp : x = pack [(2, q.toNat), (4, 0), (4, g.toNat), (6, 2), (5, d.toNat), (5, a.toNat), (5, b.toNat)] := by
    rw [pack_cons 2 29 (pack_cons 4 25 (pack_cons 4 21 (pack_cons 6 15 (pack_cons 5 10 (pack_cons 5 5 (pack_cons 5 0 pack_nil rfl (rfl : 1 = 2 ^ 0)) rfl (rfl : 32 = 2 ^ 5)) rfl (rfl : 1024 = 2 ^ 10)) rfl (rfl : 32768 = 2 ^ 15)) rfl (rfl : 2097152 = 2 ^ 21)) rfl (rfl : 33554432 = 2 ^ 25)) rfl (rfl : 536870912 = 2 ^ 29)]
    omega
  have hf : Fits [(2, q.toNat), (4, 0), (4, g.toNat), (6, 2), (5, d.toNat), (5, a.toNat), (5, b.toNat)] := ⟨q.isLt, by decide, g.isLt, by decide, d.isLt, a.isLt, b.isLt, trivial⟩
  have h0 : x / 33554432 % 16 = 0 := pack_field [(2, q.toNat)] [(4, 0)] [(4, g.toNat), (6, 2), (5, d.toNat), (5, a.toNat), (5, b.toNat)] 25 4 hp hf rfl rfl rfl rfl rfl rfl
  have h1 : x / 32768 % 64 = 2 := pack_field [(2, q.toNat), (4, 0), (4, g.toNat)] [(6, 2)] [(5, d.toNat), (5, a.toNat), (5, b.toNat)] 15 6 hp hf rfl rfl rfl rfl rfl rfl
  have e0 : BitVec.ofNat 2 (x / 536870912) = q := ofNat_field [] q [(4, 0), (4, g.toNat), (6, 2), (5, d.toNat), (5, a.toNat), (5, b.toNat)] 29 hp hf rfl rfl rfl
  have e1 : BitVec.ofNat 4 (x / 2097152) = g := ofNat_field [(2, q.toNat), (4, 0)] g [(6, 2), (5, d.toNat), (5, a.toNat), (5, b.toNat)] 21 hp hf rfl rfl rfl
  have e2 : BitVec.ofNat 5 (x / 1024) = d := ofNat_field [(2, q.toNat), (4, 0), (4, g.toNat), (6, 2)] d [(5, a.toNat), (5, b.toNat)] 10 hp hf rfl rfl rfl
  have e3 : BitVec.ofNat 5 (x / 32) = a := ofNat_field [(2, q.toNat), (4, 0), (4, g.toNat), (6, 2), (5, d.toNat)] a [(5, b.toNat)] 5 hp hf rfl rfl rfl
  have e4 : BitVec.ofNat 5 x = b := ofNat_low [(2, q.toNat), (4, 0), (4, g.toNat), (6, 2), (5, d.toNat), (5, a.toNat)] b hp hf rfl
  refine ⟨pack_bound 31 hp hf rfl, (.addS q g d a b), ?_, rfl, ?_⟩
  · simp only [decodeNat, decodeS, h0, h1, ↓reduceIte]
    rw [e0, e1, e2, e3, e4]
    try rfl
  · rfl

theorem EncodeDecode.subS (q : BitVec 2) (g : BitVec 4) (d : BitVec 5) (a : BitVec 5) (b : BitVec 5) : EncodeDecode.Statement (.subS q g d a b) := by
  intro hwf x hx
  replace hx : 98304 + q.toNat * 536870912 + g.toNat * 2097152 + d.toNat * 1024 + a.toNat * 32 + b.toNat = x := Option.some.inj hx
  have hp : x = pack [(2, q.toNat), (4, 0), (4, g.toNat), (6, 3), (5, d.toNat), (5, a.toNat), (5, b.toNat)] := by
    rw [pack_cons 2 29 (pack_cons 4 25 (pack_cons 4 21 (pack_cons 6 15 (pack_cons 5 10 (pack_cons 5 5 (pack_cons 5 0 pack_nil rfl (rfl : 1 = 2 ^ 0)) rfl (rfl : 32 = 2 ^ 5)) rfl (rfl : 1024 = 2 ^ 10)) rfl (rfl : 32768 = 2 ^ 15)) rfl (rfl : 2097152 = 2 ^ 21)) rfl (rfl : 33554432 = 2 ^ 25)) rfl (rfl : 536870912 = 2 ^ 29)]
    omega
  have hf : Fits [(2, q.toNat), (4, 0), (4, g.toNat), (6, 3), (5, d.toNat), (5, a.toNat), (5, b.toNat)] := ⟨q.isLt, by decide, g.isLt, by decide, d.isLt, a.isLt, b.isLt, trivial⟩
  have h0 : x / 33554432 % 16 = 0 := pack_field [(2, q.toNat)] [(4, 0)] [(4, g.toNat), (6, 3), (5, d.toNat), (5, a.toNat), (5, b.toNat)] 25 4 hp hf rfl rfl rfl rfl rfl rfl
  have h1 : x / 32768 % 64 = 3 := pack_field [(2, q.toNat), (4, 0), (4, g.toNat)] [(6, 3)] [(5, d.toNat), (5, a.toNat), (5, b.toNat)] 15 6 hp hf rfl rfl rfl rfl rfl rfl
  have e0 : BitVec.ofNat 2 (x / 536870912) = q := ofNat_field [] q [(4, 0), (4, g.toNat), (6, 3), (5, d.toNat), (5, a.toNat), (5, b.toNat)] 29 hp hf rfl rfl rfl
  have e1 : BitVec.ofNat 4 (x / 2097152) = g := ofNat_field [(2, q.toNat), (4, 0)] g [(6, 3), (5, d.toNat), (5, a.toNat), (5, b.toNat)] 21 hp hf rfl rfl rfl
  have e2 : BitVec.ofNat 5 (x / 1024) = d := ofNat_field [(2, q.toNat), (4, 0), (4, g.toNat), (6, 3)] d [(5, a.toNat), (5, b.toNat)] 10 hp hf rfl rfl rfl
  have e3 : BitVec.ofNat 5 (x / 32) = a := ofNat_field [(2, q.toNat), (4, 0), (4, g.toNat), (6, 3), (5, d.toNat)] a [(5, b.toNat)] 5 hp hf rfl rfl rfl
  have e4 : BitVec.ofNat 5 x = b := ofNat_low [(2, q.toNat), (4, 0), (4, g.toNat), (6, 3), (5, d.toNat), (5, a.toNat)] b hp hf rfl
  refine ⟨pack_bound 31 hp hf rfl, (.subS q g d a b), ?_, rfl, ?_⟩
  · simp only [decodeNat, decodeS, h0, h1, ↓reduceIte]
    rw [e0, e1, e2, e3, e4]
    try rfl
  · rfl

theorem EncodeDecode.and (q : BitVec 2) (g : BitVec 4) (d : BitVec 5) (a : BitVec 5) (b : BitVec 5) : EncodeDecode.Statement (.and q g d a b) := by
  intro hwf x hx
  replace hx : 131072 + q.toNat * 536870912 + g.toNat * 2097152 + d.toNat * 1024 + a.toNat * 32 + b.toNat = x := Option.some.inj hx
  have hp : x = pack [(2, q.toNat), (4, 0), (4, g.toNat), (6, 4), (5, d.toNat), (5, a.toNat), (5, b.toNat)] := by
    rw [pack_cons 2 29 (pack_cons 4 25 (pack_cons 4 21 (pack_cons 6 15 (pack_cons 5 10 (pack_cons 5 5 (pack_cons 5 0 pack_nil rfl (rfl : 1 = 2 ^ 0)) rfl (rfl : 32 = 2 ^ 5)) rfl (rfl : 1024 = 2 ^ 10)) rfl (rfl : 32768 = 2 ^ 15)) rfl (rfl : 2097152 = 2 ^ 21)) rfl (rfl : 33554432 = 2 ^ 25)) rfl (rfl : 536870912 = 2 ^ 29)]
    omega
  have hf : Fits [(2, q.toNat), (4, 0), (4, g.toNat), (6, 4), (5, d.toNat), (5, a.toNat), (5, b.toNat)] := ⟨q.isLt, by decide, g.isLt, by decide, d.isLt, a.isLt, b.isLt, trivial⟩
  have h0 : x / 33554432 % 16 = 0 := pack_field [(2, q.toNat)] [(4, 0)] [(4, g.toNat), (6, 4), (5, d.toNat), (5, a.toNat), (5, b.toNat)] 25 4 hp hf rfl rfl rfl rfl rfl rfl
  have h1 : x / 32768 % 64 = 4 := pack_field [(2, q.toNat), (4, 0), (4, g.toNat)] [(6, 4)] [(5, d.toNat), (5, a.toNat), (5, b.toNat)] 15 6 hp hf rfl rfl rfl rfl rfl rfl
  have e0 : BitVec.ofNat 2 (x / 536870912) = q := ofNat_field [] q [(4, 0), (4, g.toNat), (6, 4), (5, d.toNat), (5, a.toNat), (5, b.toNat)] 29 hp hf rfl rfl rfl
  have e1 : BitVec.ofNat 4 (x / 2097152) = g := ofNat_field [(2, q.toNat), (4, 0)] g [(6, 4), (5, d.toNat), (5, a.toNat), (5, b.toNat)] 21 hp hf rfl rfl rfl
  have e2 : BitVec.ofNat 5 (x / 1024) = d := ofNat_field [(2, q.toNat), (4, 0), (4, g.toNat), (6, 4)] d [(5, a.toNat), (5, b.toNat)] 10 hp hf rfl rfl rfl
  have e3 : BitVec.ofNat 5 (x / 32) = a := ofNat_field [(2, q.toNat), (4, 0), (4, g.toNat), (6, 4), (5, d.toNat)] a [(5, b.toNat)] 5 hp hf rfl rfl rfl
  have e4 : BitVec.ofNat 5 x = b := ofNat_low [(2, q.toNat), (4, 0), (4, g.toNat), (6, 4), (5, d.toNat), (5, a.toNat)] b hp hf rfl
  refine ⟨pack_bound 31 hp hf rfl, (.and q g d a b), ?_, rfl, ?_⟩
  · simp only [decodeNat, decodeS, h0, h1, ↓reduceIte]
    rw [e0, e1, e2, e3, e4]
    try rfl
  · rfl

theorem EncodeDecode.or (q : BitVec 2) (g : BitVec 4) (d : BitVec 5) (a : BitVec 5) (b : BitVec 5) : EncodeDecode.Statement (.or q g d a b) := by
  intro hwf x hx
  replace hx : 163840 + q.toNat * 536870912 + g.toNat * 2097152 + d.toNat * 1024 + a.toNat * 32 + b.toNat = x := Option.some.inj hx
  have hp : x = pack [(2, q.toNat), (4, 0), (4, g.toNat), (6, 5), (5, d.toNat), (5, a.toNat), (5, b.toNat)] := by
    rw [pack_cons 2 29 (pack_cons 4 25 (pack_cons 4 21 (pack_cons 6 15 (pack_cons 5 10 (pack_cons 5 5 (pack_cons 5 0 pack_nil rfl (rfl : 1 = 2 ^ 0)) rfl (rfl : 32 = 2 ^ 5)) rfl (rfl : 1024 = 2 ^ 10)) rfl (rfl : 32768 = 2 ^ 15)) rfl (rfl : 2097152 = 2 ^ 21)) rfl (rfl : 33554432 = 2 ^ 25)) rfl (rfl : 536870912 = 2 ^ 29)]
    omega
  have hf : Fits [(2, q.toNat), (4, 0), (4, g.toNat), (6, 5), (5, d.toNat), (5, a.toNat), (5, b.toNat)] := ⟨q.isLt, by decide, g.isLt, by decide, d.isLt, a.isLt, b.isLt, trivial⟩
  have h0 : x / 33554432 % 16 = 0 := pack_field [(2, q.toNat)] [(4, 0)] [(4, g.toNat), (6, 5), (5, d.toNat), (5, a.toNat), (5, b.toNat)] 25 4 hp hf rfl rfl rfl rfl rfl rfl
  have h1 : x / 32768 % 64 = 5 := pack_field [(2, q.toNat), (4, 0), (4, g.toNat)] [(6, 5)] [(5, d.toNat), (5, a.toNat), (5, b.toNat)] 15 6 hp hf rfl rfl rfl rfl rfl rfl
  have e0 : BitVec.ofNat 2 (x / 536870912) = q := ofNat_field [] q [(4, 0), (4, g.toNat), (6, 5), (5, d.toNat), (5, a.toNat), (5, b.toNat)] 29 hp hf rfl rfl rfl
  have e1 : BitVec.ofNat 4 (x / 2097152) = g := ofNat_field [(2, q.toNat), (4, 0)] g [(6, 5), (5, d.toNat), (5, a.toNat), (5, b.toNat)] 21 hp hf rfl rfl rfl
  have e2 : BitVec.ofNat 5 (x / 1024) = d := ofNat_field [(2, q.toNat), (4, 0), (4, g.toNat), (6, 5)] d [(5, a.toNat), (5, b.toNat)] 10 hp hf rfl rfl rfl
  have e3 : BitVec.ofNat 5 (x / 32) = a := ofNat_field [(2, q.toNat), (4, 0), (4, g.toNat), (6, 5), (5, d.toNat)] a [(5, b.toNat)] 5 hp hf rfl rfl rfl
  have e4 : BitVec.ofNat 5 x = b := ofNat_low [(2, q.toNat), (4, 0), (4, g.toNat), (6, 5), (5, d.toNat), (5, a.toNat)] b hp hf rfl
  refine ⟨pack_bound 31 hp hf rfl, (.or q g d a b), ?_, rfl, ?_⟩
  · simp only [decodeNat, decodeS, h0, h1, ↓reduceIte]
    rw [e0, e1, e2, e3, e4]
    try rfl
  · rfl

theorem EncodeDecode.xor (q : BitVec 2) (g : BitVec 4) (d : BitVec 5) (a : BitVec 5) (b : BitVec 5) : EncodeDecode.Statement (.xor q g d a b) := by
  intro hwf x hx
  replace hx : 196608 + q.toNat * 536870912 + g.toNat * 2097152 + d.toNat * 1024 + a.toNat * 32 + b.toNat = x := Option.some.inj hx
  have hp : x = pack [(2, q.toNat), (4, 0), (4, g.toNat), (6, 6), (5, d.toNat), (5, a.toNat), (5, b.toNat)] := by
    rw [pack_cons 2 29 (pack_cons 4 25 (pack_cons 4 21 (pack_cons 6 15 (pack_cons 5 10 (pack_cons 5 5 (pack_cons 5 0 pack_nil rfl (rfl : 1 = 2 ^ 0)) rfl (rfl : 32 = 2 ^ 5)) rfl (rfl : 1024 = 2 ^ 10)) rfl (rfl : 32768 = 2 ^ 15)) rfl (rfl : 2097152 = 2 ^ 21)) rfl (rfl : 33554432 = 2 ^ 25)) rfl (rfl : 536870912 = 2 ^ 29)]
    omega
  have hf : Fits [(2, q.toNat), (4, 0), (4, g.toNat), (6, 6), (5, d.toNat), (5, a.toNat), (5, b.toNat)] := ⟨q.isLt, by decide, g.isLt, by decide, d.isLt, a.isLt, b.isLt, trivial⟩
  have h0 : x / 33554432 % 16 = 0 := pack_field [(2, q.toNat)] [(4, 0)] [(4, g.toNat), (6, 6), (5, d.toNat), (5, a.toNat), (5, b.toNat)] 25 4 hp hf rfl rfl rfl rfl rfl rfl
  have h1 : x / 32768 % 64 = 6 := pack_field [(2, q.toNat), (4, 0), (4, g.toNat)] [(6, 6)] [(5, d.toNat), (5, a.toNat), (5, b.toNat)] 15 6 hp hf rfl rfl rfl rfl rfl rfl
  have e0 : BitVec.ofNat 2 (x / 536870912) = q := ofNat_field [] q [(4, 0), (4, g.toNat), (6, 6), (5, d.toNat), (5, a.toNat), (5, b.toNat)] 29 hp hf rfl rfl rfl
  have e1 : BitVec.ofNat 4 (x / 2097152) = g := ofNat_field [(2, q.toNat), (4, 0)] g [(6, 6), (5, d.toNat), (5, a.toNat), (5, b.toNat)] 21 hp hf rfl rfl rfl
  have e2 : BitVec.ofNat 5 (x / 1024) = d := ofNat_field [(2, q.toNat), (4, 0), (4, g.toNat), (6, 6)] d [(5, a.toNat), (5, b.toNat)] 10 hp hf rfl rfl rfl
  have e3 : BitVec.ofNat 5 (x / 32) = a := ofNat_field [(2, q.toNat), (4, 0), (4, g.toNat), (6, 6), (5, d.toNat)] a [(5, b.toNat)] 5 hp hf rfl rfl rfl
  have e4 : BitVec.ofNat 5 x = b := ofNat_low [(2, q.toNat), (4, 0), (4, g.toNat), (6, 6), (5, d.toNat), (5, a.toNat)] b hp hf rfl
  refine ⟨pack_bound 31 hp hf rfl, (.xor q g d a b), ?_, rfl, ?_⟩
  · simp only [decodeNat, decodeS, h0, h1, ↓reduceIte]
    rw [e0, e1, e2, e3, e4]
    try rfl
  · rfl

theorem EncodeDecode.andn (q : BitVec 2) (g : BitVec 4) (d : BitVec 5) (a : BitVec 5) (b : BitVec 5) : EncodeDecode.Statement (.andn q g d a b) := by
  intro hwf x hx
  replace hx : 229376 + q.toNat * 536870912 + g.toNat * 2097152 + d.toNat * 1024 + a.toNat * 32 + b.toNat = x := Option.some.inj hx
  have hp : x = pack [(2, q.toNat), (4, 0), (4, g.toNat), (6, 7), (5, d.toNat), (5, a.toNat), (5, b.toNat)] := by
    rw [pack_cons 2 29 (pack_cons 4 25 (pack_cons 4 21 (pack_cons 6 15 (pack_cons 5 10 (pack_cons 5 5 (pack_cons 5 0 pack_nil rfl (rfl : 1 = 2 ^ 0)) rfl (rfl : 32 = 2 ^ 5)) rfl (rfl : 1024 = 2 ^ 10)) rfl (rfl : 32768 = 2 ^ 15)) rfl (rfl : 2097152 = 2 ^ 21)) rfl (rfl : 33554432 = 2 ^ 25)) rfl (rfl : 536870912 = 2 ^ 29)]
    omega
  have hf : Fits [(2, q.toNat), (4, 0), (4, g.toNat), (6, 7), (5, d.toNat), (5, a.toNat), (5, b.toNat)] := ⟨q.isLt, by decide, g.isLt, by decide, d.isLt, a.isLt, b.isLt, trivial⟩
  have h0 : x / 33554432 % 16 = 0 := pack_field [(2, q.toNat)] [(4, 0)] [(4, g.toNat), (6, 7), (5, d.toNat), (5, a.toNat), (5, b.toNat)] 25 4 hp hf rfl rfl rfl rfl rfl rfl
  have h1 : x / 32768 % 64 = 7 := pack_field [(2, q.toNat), (4, 0), (4, g.toNat)] [(6, 7)] [(5, d.toNat), (5, a.toNat), (5, b.toNat)] 15 6 hp hf rfl rfl rfl rfl rfl rfl
  have e0 : BitVec.ofNat 2 (x / 536870912) = q := ofNat_field [] q [(4, 0), (4, g.toNat), (6, 7), (5, d.toNat), (5, a.toNat), (5, b.toNat)] 29 hp hf rfl rfl rfl
  have e1 : BitVec.ofNat 4 (x / 2097152) = g := ofNat_field [(2, q.toNat), (4, 0)] g [(6, 7), (5, d.toNat), (5, a.toNat), (5, b.toNat)] 21 hp hf rfl rfl rfl
  have e2 : BitVec.ofNat 5 (x / 1024) = d := ofNat_field [(2, q.toNat), (4, 0), (4, g.toNat), (6, 7)] d [(5, a.toNat), (5, b.toNat)] 10 hp hf rfl rfl rfl
  have e3 : BitVec.ofNat 5 (x / 32) = a := ofNat_field [(2, q.toNat), (4, 0), (4, g.toNat), (6, 7), (5, d.toNat)] a [(5, b.toNat)] 5 hp hf rfl rfl rfl
  have e4 : BitVec.ofNat 5 x = b := ofNat_low [(2, q.toNat), (4, 0), (4, g.toNat), (6, 7), (5, d.toNat), (5, a.toNat)] b hp hf rfl
  refine ⟨pack_bound 31 hp hf rfl, (.andn q g d a b), ?_, rfl, ?_⟩
  · simp only [decodeNat, decodeS, h0, h1, ↓reduceIte]
    rw [e0, e1, e2, e3, e4]
    try rfl
  · rfl

theorem EncodeDecode.shl (q : BitVec 2) (g : BitVec 4) (d : BitVec 5) (a : BitVec 5) (b : BitVec 5) : EncodeDecode.Statement (.shl q g d a b) := by
  intro hwf x hx
  replace hx : 262144 + q.toNat * 536870912 + g.toNat * 2097152 + d.toNat * 1024 + a.toNat * 32 + b.toNat = x := Option.some.inj hx
  have hp : x = pack [(2, q.toNat), (4, 0), (4, g.toNat), (6, 8), (5, d.toNat), (5, a.toNat), (5, b.toNat)] := by
    rw [pack_cons 2 29 (pack_cons 4 25 (pack_cons 4 21 (pack_cons 6 15 (pack_cons 5 10 (pack_cons 5 5 (pack_cons 5 0 pack_nil rfl (rfl : 1 = 2 ^ 0)) rfl (rfl : 32 = 2 ^ 5)) rfl (rfl : 1024 = 2 ^ 10)) rfl (rfl : 32768 = 2 ^ 15)) rfl (rfl : 2097152 = 2 ^ 21)) rfl (rfl : 33554432 = 2 ^ 25)) rfl (rfl : 536870912 = 2 ^ 29)]
    omega
  have hf : Fits [(2, q.toNat), (4, 0), (4, g.toNat), (6, 8), (5, d.toNat), (5, a.toNat), (5, b.toNat)] := ⟨q.isLt, by decide, g.isLt, by decide, d.isLt, a.isLt, b.isLt, trivial⟩
  have h0 : x / 33554432 % 16 = 0 := pack_field [(2, q.toNat)] [(4, 0)] [(4, g.toNat), (6, 8), (5, d.toNat), (5, a.toNat), (5, b.toNat)] 25 4 hp hf rfl rfl rfl rfl rfl rfl
  have h1 : x / 32768 % 64 = 8 := pack_field [(2, q.toNat), (4, 0), (4, g.toNat)] [(6, 8)] [(5, d.toNat), (5, a.toNat), (5, b.toNat)] 15 6 hp hf rfl rfl rfl rfl rfl rfl
  have e0 : BitVec.ofNat 2 (x / 536870912) = q := ofNat_field [] q [(4, 0), (4, g.toNat), (6, 8), (5, d.toNat), (5, a.toNat), (5, b.toNat)] 29 hp hf rfl rfl rfl
  have e1 : BitVec.ofNat 4 (x / 2097152) = g := ofNat_field [(2, q.toNat), (4, 0)] g [(6, 8), (5, d.toNat), (5, a.toNat), (5, b.toNat)] 21 hp hf rfl rfl rfl
  have e2 : BitVec.ofNat 5 (x / 1024) = d := ofNat_field [(2, q.toNat), (4, 0), (4, g.toNat), (6, 8)] d [(5, a.toNat), (5, b.toNat)] 10 hp hf rfl rfl rfl
  have e3 : BitVec.ofNat 5 (x / 32) = a := ofNat_field [(2, q.toNat), (4, 0), (4, g.toNat), (6, 8), (5, d.toNat)] a [(5, b.toNat)] 5 hp hf rfl rfl rfl
  have e4 : BitVec.ofNat 5 x = b := ofNat_low [(2, q.toNat), (4, 0), (4, g.toNat), (6, 8), (5, d.toNat), (5, a.toNat)] b hp hf rfl
  refine ⟨pack_bound 31 hp hf rfl, (.shl q g d a b), ?_, rfl, ?_⟩
  · simp only [decodeNat, decodeS, h0, h1, ↓reduceIte]
    rw [e0, e1, e2, e3, e4]
    try rfl
  · rfl

theorem EncodeDecode.shlS (q : BitVec 2) (g : BitVec 4) (d : BitVec 5) (a : BitVec 5) (b : BitVec 5) : EncodeDecode.Statement (.shlS q g d a b) := by
  intro hwf x hx
  replace hx : 294912 + q.toNat * 536870912 + g.toNat * 2097152 + d.toNat * 1024 + a.toNat * 32 + b.toNat = x := Option.some.inj hx
  have hp : x = pack [(2, q.toNat), (4, 0), (4, g.toNat), (6, 9), (5, d.toNat), (5, a.toNat), (5, b.toNat)] := by
    rw [pack_cons 2 29 (pack_cons 4 25 (pack_cons 4 21 (pack_cons 6 15 (pack_cons 5 10 (pack_cons 5 5 (pack_cons 5 0 pack_nil rfl (rfl : 1 = 2 ^ 0)) rfl (rfl : 32 = 2 ^ 5)) rfl (rfl : 1024 = 2 ^ 10)) rfl (rfl : 32768 = 2 ^ 15)) rfl (rfl : 2097152 = 2 ^ 21)) rfl (rfl : 33554432 = 2 ^ 25)) rfl (rfl : 536870912 = 2 ^ 29)]
    omega
  have hf : Fits [(2, q.toNat), (4, 0), (4, g.toNat), (6, 9), (5, d.toNat), (5, a.toNat), (5, b.toNat)] := ⟨q.isLt, by decide, g.isLt, by decide, d.isLt, a.isLt, b.isLt, trivial⟩
  have h0 : x / 33554432 % 16 = 0 := pack_field [(2, q.toNat)] [(4, 0)] [(4, g.toNat), (6, 9), (5, d.toNat), (5, a.toNat), (5, b.toNat)] 25 4 hp hf rfl rfl rfl rfl rfl rfl
  have h1 : x / 32768 % 64 = 9 := pack_field [(2, q.toNat), (4, 0), (4, g.toNat)] [(6, 9)] [(5, d.toNat), (5, a.toNat), (5, b.toNat)] 15 6 hp hf rfl rfl rfl rfl rfl rfl
  have e0 : BitVec.ofNat 2 (x / 536870912) = q := ofNat_field [] q [(4, 0), (4, g.toNat), (6, 9), (5, d.toNat), (5, a.toNat), (5, b.toNat)] 29 hp hf rfl rfl rfl
  have e1 : BitVec.ofNat 4 (x / 2097152) = g := ofNat_field [(2, q.toNat), (4, 0)] g [(6, 9), (5, d.toNat), (5, a.toNat), (5, b.toNat)] 21 hp hf rfl rfl rfl
  have e2 : BitVec.ofNat 5 (x / 1024) = d := ofNat_field [(2, q.toNat), (4, 0), (4, g.toNat), (6, 9)] d [(5, a.toNat), (5, b.toNat)] 10 hp hf rfl rfl rfl
  have e3 : BitVec.ofNat 5 (x / 32) = a := ofNat_field [(2, q.toNat), (4, 0), (4, g.toNat), (6, 9), (5, d.toNat)] a [(5, b.toNat)] 5 hp hf rfl rfl rfl
  have e4 : BitVec.ofNat 5 x = b := ofNat_low [(2, q.toNat), (4, 0), (4, g.toNat), (6, 9), (5, d.toNat), (5, a.toNat)] b hp hf rfl
  refine ⟨pack_bound 31 hp hf rfl, (.shlS q g d a b), ?_, rfl, ?_⟩
  · simp only [decodeNat, decodeS, h0, h1, ↓reduceIte]
    rw [e0, e1, e2, e3, e4]
    try rfl
  · rfl

theorem EncodeDecode.shr (q : BitVec 2) (g : BitVec 4) (d : BitVec 5) (a : BitVec 5) (b : BitVec 5) : EncodeDecode.Statement (.shr q g d a b) := by
  intro hwf x hx
  replace hx : 327680 + q.toNat * 536870912 + g.toNat * 2097152 + d.toNat * 1024 + a.toNat * 32 + b.toNat = x := Option.some.inj hx
  have hp : x = pack [(2, q.toNat), (4, 0), (4, g.toNat), (6, 10), (5, d.toNat), (5, a.toNat), (5, b.toNat)] := by
    rw [pack_cons 2 29 (pack_cons 4 25 (pack_cons 4 21 (pack_cons 6 15 (pack_cons 5 10 (pack_cons 5 5 (pack_cons 5 0 pack_nil rfl (rfl : 1 = 2 ^ 0)) rfl (rfl : 32 = 2 ^ 5)) rfl (rfl : 1024 = 2 ^ 10)) rfl (rfl : 32768 = 2 ^ 15)) rfl (rfl : 2097152 = 2 ^ 21)) rfl (rfl : 33554432 = 2 ^ 25)) rfl (rfl : 536870912 = 2 ^ 29)]
    omega
  have hf : Fits [(2, q.toNat), (4, 0), (4, g.toNat), (6, 10), (5, d.toNat), (5, a.toNat), (5, b.toNat)] := ⟨q.isLt, by decide, g.isLt, by decide, d.isLt, a.isLt, b.isLt, trivial⟩
  have h0 : x / 33554432 % 16 = 0 := pack_field [(2, q.toNat)] [(4, 0)] [(4, g.toNat), (6, 10), (5, d.toNat), (5, a.toNat), (5, b.toNat)] 25 4 hp hf rfl rfl rfl rfl rfl rfl
  have h1 : x / 32768 % 64 = 10 := pack_field [(2, q.toNat), (4, 0), (4, g.toNat)] [(6, 10)] [(5, d.toNat), (5, a.toNat), (5, b.toNat)] 15 6 hp hf rfl rfl rfl rfl rfl rfl
  have e0 : BitVec.ofNat 2 (x / 536870912) = q := ofNat_field [] q [(4, 0), (4, g.toNat), (6, 10), (5, d.toNat), (5, a.toNat), (5, b.toNat)] 29 hp hf rfl rfl rfl
  have e1 : BitVec.ofNat 4 (x / 2097152) = g := ofNat_field [(2, q.toNat), (4, 0)] g [(6, 10), (5, d.toNat), (5, a.toNat), (5, b.toNat)] 21 hp hf rfl rfl rfl
  have e2 : BitVec.ofNat 5 (x / 1024) = d := ofNat_field [(2, q.toNat), (4, 0), (4, g.toNat), (6, 10)] d [(5, a.toNat), (5, b.toNat)] 10 hp hf rfl rfl rfl
  have e3 : BitVec.ofNat 5 (x / 32) = a := ofNat_field [(2, q.toNat), (4, 0), (4, g.toNat), (6, 10), (5, d.toNat)] a [(5, b.toNat)] 5 hp hf rfl rfl rfl
  have e4 : BitVec.ofNat 5 x = b := ofNat_low [(2, q.toNat), (4, 0), (4, g.toNat), (6, 10), (5, d.toNat), (5, a.toNat)] b hp hf rfl
  refine ⟨pack_bound 31 hp hf rfl, (.shr q g d a b), ?_, rfl, ?_⟩
  · simp only [decodeNat, decodeS, h0, h1, ↓reduceIte]
    rw [e0, e1, e2, e3, e4]
    try rfl
  · rfl

theorem EncodeDecode.sar (q : BitVec 2) (g : BitVec 4) (d : BitVec 5) (a : BitVec 5) (b : BitVec 5) : EncodeDecode.Statement (.sar q g d a b) := by
  intro hwf x hx
  replace hx : 360448 + q.toNat * 536870912 + g.toNat * 2097152 + d.toNat * 1024 + a.toNat * 32 + b.toNat = x := Option.some.inj hx
  have hp : x = pack [(2, q.toNat), (4, 0), (4, g.toNat), (6, 11), (5, d.toNat), (5, a.toNat), (5, b.toNat)] := by
    rw [pack_cons 2 29 (pack_cons 4 25 (pack_cons 4 21 (pack_cons 6 15 (pack_cons 5 10 (pack_cons 5 5 (pack_cons 5 0 pack_nil rfl (rfl : 1 = 2 ^ 0)) rfl (rfl : 32 = 2 ^ 5)) rfl (rfl : 1024 = 2 ^ 10)) rfl (rfl : 32768 = 2 ^ 15)) rfl (rfl : 2097152 = 2 ^ 21)) rfl (rfl : 33554432 = 2 ^ 25)) rfl (rfl : 536870912 = 2 ^ 29)]
    omega
  have hf : Fits [(2, q.toNat), (4, 0), (4, g.toNat), (6, 11), (5, d.toNat), (5, a.toNat), (5, b.toNat)] := ⟨q.isLt, by decide, g.isLt, by decide, d.isLt, a.isLt, b.isLt, trivial⟩
  have h0 : x / 33554432 % 16 = 0 := pack_field [(2, q.toNat)] [(4, 0)] [(4, g.toNat), (6, 11), (5, d.toNat), (5, a.toNat), (5, b.toNat)] 25 4 hp hf rfl rfl rfl rfl rfl rfl
  have h1 : x / 32768 % 64 = 11 := pack_field [(2, q.toNat), (4, 0), (4, g.toNat)] [(6, 11)] [(5, d.toNat), (5, a.toNat), (5, b.toNat)] 15 6 hp hf rfl rfl rfl rfl rfl rfl
  have e0 : BitVec.ofNat 2 (x / 536870912) = q := ofNat_field [] q [(4, 0), (4, g.toNat), (6, 11), (5, d.toNat), (5, a.toNat), (5, b.toNat)] 29 hp hf rfl rfl rfl
  have e1 : BitVec.ofNat 4 (x / 2097152) = g := ofNat_field [(2, q.toNat), (4, 0)] g [(6, 11), (5, d.toNat), (5, a.toNat), (5, b.toNat)] 21 hp hf rfl rfl rfl
  have e2 : BitVec.ofNat 5 (x / 1024) = d := ofNat_field [(2, q.toNat), (4, 0), (4, g.toNat), (6, 11)] d [(5, a.toNat), (5, b.toNat)] 10 hp hf rfl rfl rfl
  have e3 : BitVec.ofNat 5 (x / 32) = a := ofNat_field [(2, q.toNat), (4, 0), (4, g.toNat), (6, 11), (5, d.toNat)] a [(5, b.toNat)] 5 hp hf rfl rfl rfl
  have e4 : BitVec.ofNat 5 x = b := ofNat_low [(2, q.toNat), (4, 0), (4, g.toNat), (6, 11), (5, d.toNat), (5, a.toNat)] b hp hf rfl
  refine ⟨pack_bound 31 hp hf rfl, (.sar q g d a b), ?_, rfl, ?_⟩
  · simp only [decodeNat, decodeS, h0, h1, ↓reduceIte]
    rw [e0, e1, e2, e3, e4]
    try rfl
  · rfl

theorem EncodeDecode.rot (q : BitVec 2) (g : BitVec 4) (d : BitVec 5) (a : BitVec 5) (b : BitVec 5) : EncodeDecode.Statement (.rot q g d a b) := by
  intro hwf x hx
  replace hx : 393216 + q.toNat * 536870912 + g.toNat * 2097152 + d.toNat * 1024 + a.toNat * 32 + b.toNat = x := Option.some.inj hx
  have hp : x = pack [(2, q.toNat), (4, 0), (4, g.toNat), (6, 12), (5, d.toNat), (5, a.toNat), (5, b.toNat)] := by
    rw [pack_cons 2 29 (pack_cons 4 25 (pack_cons 4 21 (pack_cons 6 15 (pack_cons 5 10 (pack_cons 5 5 (pack_cons 5 0 pack_nil rfl (rfl : 1 = 2 ^ 0)) rfl (rfl : 32 = 2 ^ 5)) rfl (rfl : 1024 = 2 ^ 10)) rfl (rfl : 32768 = 2 ^ 15)) rfl (rfl : 2097152 = 2 ^ 21)) rfl (rfl : 33554432 = 2 ^ 25)) rfl (rfl : 536870912 = 2 ^ 29)]
    omega
  have hf : Fits [(2, q.toNat), (4, 0), (4, g.toNat), (6, 12), (5, d.toNat), (5, a.toNat), (5, b.toNat)] := ⟨q.isLt, by decide, g.isLt, by decide, d.isLt, a.isLt, b.isLt, trivial⟩
  have h0 : x / 33554432 % 16 = 0 := pack_field [(2, q.toNat)] [(4, 0)] [(4, g.toNat), (6, 12), (5, d.toNat), (5, a.toNat), (5, b.toNat)] 25 4 hp hf rfl rfl rfl rfl rfl rfl
  have h1 : x / 32768 % 64 = 12 := pack_field [(2, q.toNat), (4, 0), (4, g.toNat)] [(6, 12)] [(5, d.toNat), (5, a.toNat), (5, b.toNat)] 15 6 hp hf rfl rfl rfl rfl rfl rfl
  have e0 : BitVec.ofNat 2 (x / 536870912) = q := ofNat_field [] q [(4, 0), (4, g.toNat), (6, 12), (5, d.toNat), (5, a.toNat), (5, b.toNat)] 29 hp hf rfl rfl rfl
  have e1 : BitVec.ofNat 4 (x / 2097152) = g := ofNat_field [(2, q.toNat), (4, 0)] g [(6, 12), (5, d.toNat), (5, a.toNat), (5, b.toNat)] 21 hp hf rfl rfl rfl
  have e2 : BitVec.ofNat 5 (x / 1024) = d := ofNat_field [(2, q.toNat), (4, 0), (4, g.toNat), (6, 12)] d [(5, a.toNat), (5, b.toNat)] 10 hp hf rfl rfl rfl
  have e3 : BitVec.ofNat 5 (x / 32) = a := ofNat_field [(2, q.toNat), (4, 0), (4, g.toNat), (6, 12), (5, d.toNat)] a [(5, b.toNat)] 5 hp hf rfl rfl rfl
  have e4 : BitVec.ofNat 5 x = b := ofNat_low [(2, q.toNat), (4, 0), (4, g.toNat), (6, 12), (5, d.toNat), (5, a.toNat)] b hp hf rfl
  refine ⟨pack_bound 31 hp hf rfl, (.rot q g d a b), ?_, rfl, ?_⟩
  · simp only [decodeNat, decodeS, h0, h1, ↓reduceIte]
    rw [e0, e1, e2, e3, e4]
    try rfl
  · rfl

theorem EncodeDecode.mul (q : BitVec 2) (g : BitVec 4) (d : BitVec 5) (a : BitVec 5) (b : BitVec 5) : EncodeDecode.Statement (.mul q g d a b) := by
  intro hwf x hx
  replace hx : 425984 + q.toNat * 536870912 + g.toNat * 2097152 + d.toNat * 1024 + a.toNat * 32 + b.toNat = x := Option.some.inj hx
  have hp : x = pack [(2, q.toNat), (4, 0), (4, g.toNat), (6, 13), (5, d.toNat), (5, a.toNat), (5, b.toNat)] := by
    rw [pack_cons 2 29 (pack_cons 4 25 (pack_cons 4 21 (pack_cons 6 15 (pack_cons 5 10 (pack_cons 5 5 (pack_cons 5 0 pack_nil rfl (rfl : 1 = 2 ^ 0)) rfl (rfl : 32 = 2 ^ 5)) rfl (rfl : 1024 = 2 ^ 10)) rfl (rfl : 32768 = 2 ^ 15)) rfl (rfl : 2097152 = 2 ^ 21)) rfl (rfl : 33554432 = 2 ^ 25)) rfl (rfl : 536870912 = 2 ^ 29)]
    omega
  have hf : Fits [(2, q.toNat), (4, 0), (4, g.toNat), (6, 13), (5, d.toNat), (5, a.toNat), (5, b.toNat)] := ⟨q.isLt, by decide, g.isLt, by decide, d.isLt, a.isLt, b.isLt, trivial⟩
  have h0 : x / 33554432 % 16 = 0 := pack_field [(2, q.toNat)] [(4, 0)] [(4, g.toNat), (6, 13), (5, d.toNat), (5, a.toNat), (5, b.toNat)] 25 4 hp hf rfl rfl rfl rfl rfl rfl
  have h1 : x / 32768 % 64 = 13 := pack_field [(2, q.toNat), (4, 0), (4, g.toNat)] [(6, 13)] [(5, d.toNat), (5, a.toNat), (5, b.toNat)] 15 6 hp hf rfl rfl rfl rfl rfl rfl
  have e0 : BitVec.ofNat 2 (x / 536870912) = q := ofNat_field [] q [(4, 0), (4, g.toNat), (6, 13), (5, d.toNat), (5, a.toNat), (5, b.toNat)] 29 hp hf rfl rfl rfl
  have e1 : BitVec.ofNat 4 (x / 2097152) = g := ofNat_field [(2, q.toNat), (4, 0)] g [(6, 13), (5, d.toNat), (5, a.toNat), (5, b.toNat)] 21 hp hf rfl rfl rfl
  have e2 : BitVec.ofNat 5 (x / 1024) = d := ofNat_field [(2, q.toNat), (4, 0), (4, g.toNat), (6, 13)] d [(5, a.toNat), (5, b.toNat)] 10 hp hf rfl rfl rfl
  have e3 : BitVec.ofNat 5 (x / 32) = a := ofNat_field [(2, q.toNat), (4, 0), (4, g.toNat), (6, 13), (5, d.toNat)] a [(5, b.toNat)] 5 hp hf rfl rfl rfl
  have e4 : BitVec.ofNat 5 x = b := ofNat_low [(2, q.toNat), (4, 0), (4, g.toNat), (6, 13), (5, d.toNat), (5, a.toNat)] b hp hf rfl
  refine ⟨pack_bound 31 hp hf rfl, (.mul q g d a b), ?_, rfl, ?_⟩
  · simp only [decodeNat, decodeS, h0, h1, ↓reduceIte]
    rw [e0, e1, e2, e3, e4]
    try rfl
  · rfl

theorem EncodeDecode.mulS (q : BitVec 2) (g : BitVec 4) (d : BitVec 5) (a : BitVec 5) (b : BitVec 5) : EncodeDecode.Statement (.mulS q g d a b) := by
  intro hwf x hx
  replace hx : 458752 + q.toNat * 536870912 + g.toNat * 2097152 + d.toNat * 1024 + a.toNat * 32 + b.toNat = x := Option.some.inj hx
  have hp : x = pack [(2, q.toNat), (4, 0), (4, g.toNat), (6, 14), (5, d.toNat), (5, a.toNat), (5, b.toNat)] := by
    rw [pack_cons 2 29 (pack_cons 4 25 (pack_cons 4 21 (pack_cons 6 15 (pack_cons 5 10 (pack_cons 5 5 (pack_cons 5 0 pack_nil rfl (rfl : 1 = 2 ^ 0)) rfl (rfl : 32 = 2 ^ 5)) rfl (rfl : 1024 = 2 ^ 10)) rfl (rfl : 32768 = 2 ^ 15)) rfl (rfl : 2097152 = 2 ^ 21)) rfl (rfl : 33554432 = 2 ^ 25)) rfl (rfl : 536870912 = 2 ^ 29)]
    omega
  have hf : Fits [(2, q.toNat), (4, 0), (4, g.toNat), (6, 14), (5, d.toNat), (5, a.toNat), (5, b.toNat)] := ⟨q.isLt, by decide, g.isLt, by decide, d.isLt, a.isLt, b.isLt, trivial⟩
  have h0 : x / 33554432 % 16 = 0 := pack_field [(2, q.toNat)] [(4, 0)] [(4, g.toNat), (6, 14), (5, d.toNat), (5, a.toNat), (5, b.toNat)] 25 4 hp hf rfl rfl rfl rfl rfl rfl
  have h1 : x / 32768 % 64 = 14 := pack_field [(2, q.toNat), (4, 0), (4, g.toNat)] [(6, 14)] [(5, d.toNat), (5, a.toNat), (5, b.toNat)] 15 6 hp hf rfl rfl rfl rfl rfl rfl
  have e0 : BitVec.ofNat 2 (x / 536870912) = q := ofNat_field [] q [(4, 0), (4, g.toNat), (6, 14), (5, d.toNat), (5, a.toNat), (5, b.toNat)] 29 hp hf rfl rfl rfl
  have e1 : BitVec.ofNat 4 (x / 2097152) = g := ofNat_field [(2, q.toNat), (4, 0)] g [(6, 14), (5, d.toNat), (5, a.toNat), (5, b.toNat)] 21 hp hf rfl rfl rfl
  have e2 : BitVec.ofNat 5 (x / 1024) = d := ofNat_field [(2, q.toNat), (4, 0), (4, g.toNat), (6, 14)] d [(5, a.toNat), (5, b.toNat)] 10 hp hf rfl rfl rfl
  have e3 : BitVec.ofNat 5 (x / 32) = a := ofNat_field [(2, q.toNat), (4, 0), (4, g.toNat), (6, 14), (5, d.toNat)] a [(5, b.toNat)] 5 hp hf rfl rfl rfl
  have e4 : BitVec.ofNat 5 x = b := ofNat_low [(2, q.toNat), (4, 0), (4, g.toNat), (6, 14), (5, d.toNat), (5, a.toNat)] b hp hf rfl
  refine ⟨pack_bound 31 hp hf rfl, (.mulS q g d a b), ?_, rfl, ?_⟩
  · simp only [decodeNat, decodeS, h0, h1, ↓reduceIte]
    rw [e0, e1, e2, e3, e4]
    try rfl
  · rfl

theorem EncodeDecode.mulh (q : BitVec 2) (g : BitVec 4) (d : BitVec 5) (a : BitVec 5) (b : BitVec 5) : EncodeDecode.Statement (.mulh q g d a b) := by
  intro hwf x hx
  replace hx : 491520 + q.toNat * 536870912 + g.toNat * 2097152 + d.toNat * 1024 + a.toNat * 32 + b.toNat = x := Option.some.inj hx
  have hp : x = pack [(2, q.toNat), (4, 0), (4, g.toNat), (6, 15), (5, d.toNat), (5, a.toNat), (5, b.toNat)] := by
    rw [pack_cons 2 29 (pack_cons 4 25 (pack_cons 4 21 (pack_cons 6 15 (pack_cons 5 10 (pack_cons 5 5 (pack_cons 5 0 pack_nil rfl (rfl : 1 = 2 ^ 0)) rfl (rfl : 32 = 2 ^ 5)) rfl (rfl : 1024 = 2 ^ 10)) rfl (rfl : 32768 = 2 ^ 15)) rfl (rfl : 2097152 = 2 ^ 21)) rfl (rfl : 33554432 = 2 ^ 25)) rfl (rfl : 536870912 = 2 ^ 29)]
    omega
  have hf : Fits [(2, q.toNat), (4, 0), (4, g.toNat), (6, 15), (5, d.toNat), (5, a.toNat), (5, b.toNat)] := ⟨q.isLt, by decide, g.isLt, by decide, d.isLt, a.isLt, b.isLt, trivial⟩
  have h0 : x / 33554432 % 16 = 0 := pack_field [(2, q.toNat)] [(4, 0)] [(4, g.toNat), (6, 15), (5, d.toNat), (5, a.toNat), (5, b.toNat)] 25 4 hp hf rfl rfl rfl rfl rfl rfl
  have h1 : x / 32768 % 64 = 15 := pack_field [(2, q.toNat), (4, 0), (4, g.toNat)] [(6, 15)] [(5, d.toNat), (5, a.toNat), (5, b.toNat)] 15 6 hp hf rfl rfl rfl rfl rfl rfl
  have e0 : BitVec.ofNat 2 (x / 536870912) = q := ofNat_field [] q [(4, 0), (4, g.toNat), (6, 15), (5, d.toNat), (5, a.toNat), (5, b.toNat)] 29 hp hf rfl rfl rfl
  have e1 : BitVec.ofNat 4 (x / 2097152) = g := ofNat_field [(2, q.toNat), (4, 0)] g [(6, 15), (5, d.toNat), (5, a.toNat), (5, b.toNat)] 21 hp hf rfl rfl rfl
  have e2 : BitVec.ofNat 5 (x / 1024) = d := ofNat_field [(2, q.toNat), (4, 0), (4, g.toNat), (6, 15)] d [(5, a.toNat), (5, b.toNat)] 10 hp hf rfl rfl rfl
  have e3 : BitVec.ofNat 5 (x / 32) = a := ofNat_field [(2, q.toNat), (4, 0), (4, g.toNat), (6, 15), (5, d.toNat)] a [(5, b.toNat)] 5 hp hf rfl rfl rfl
  have e4 : BitVec.ofNat 5 x = b := ofNat_low [(2, q.toNat), (4, 0), (4, g.toNat), (6, 15), (5, d.toNat), (5, a.toNat)] b hp hf rfl
  refine ⟨pack_bound 31 hp hf rfl, (.mulh q g d a b), ?_, rfl, ?_⟩
  · simp only [decodeNat, decodeS, h0, h1, ↓reduceIte]
    rw [e0, e1, e2, e3, e4]
    try rfl
  · rfl

theorem EncodeDecode.mulhw (q : BitVec 2) (g : BitVec 4) (d : BitVec 5) (a : BitVec 5) (b : BitVec 5) : EncodeDecode.Statement (.mulhw q g d a b) := by
  intro hwf x hx
  replace hx : 524288 + q.toNat * 536870912 + g.toNat * 2097152 + d.toNat * 1024 + a.toNat * 32 + b.toNat = x := Option.some.inj hx
  have hp : x = pack [(2, q.toNat), (4, 0), (4, g.toNat), (6, 16), (5, d.toNat), (5, a.toNat), (5, b.toNat)] := by
    rw [pack_cons 2 29 (pack_cons 4 25 (pack_cons 4 21 (pack_cons 6 15 (pack_cons 5 10 (pack_cons 5 5 (pack_cons 5 0 pack_nil rfl (rfl : 1 = 2 ^ 0)) rfl (rfl : 32 = 2 ^ 5)) rfl (rfl : 1024 = 2 ^ 10)) rfl (rfl : 32768 = 2 ^ 15)) rfl (rfl : 2097152 = 2 ^ 21)) rfl (rfl : 33554432 = 2 ^ 25)) rfl (rfl : 536870912 = 2 ^ 29)]
    omega
  have hf : Fits [(2, q.toNat), (4, 0), (4, g.toNat), (6, 16), (5, d.toNat), (5, a.toNat), (5, b.toNat)] := ⟨q.isLt, by decide, g.isLt, by decide, d.isLt, a.isLt, b.isLt, trivial⟩
  have h0 : x / 33554432 % 16 = 0 := pack_field [(2, q.toNat)] [(4, 0)] [(4, g.toNat), (6, 16), (5, d.toNat), (5, a.toNat), (5, b.toNat)] 25 4 hp hf rfl rfl rfl rfl rfl rfl
  have h1 : x / 32768 % 64 = 16 := pack_field [(2, q.toNat), (4, 0), (4, g.toNat)] [(6, 16)] [(5, d.toNat), (5, a.toNat), (5, b.toNat)] 15 6 hp hf rfl rfl rfl rfl rfl rfl
  have e0 : BitVec.ofNat 2 (x / 536870912) = q := ofNat_field [] q [(4, 0), (4, g.toNat), (6, 16), (5, d.toNat), (5, a.toNat), (5, b.toNat)] 29 hp hf rfl rfl rfl
  have e1 : BitVec.ofNat 4 (x / 2097152) = g := ofNat_field [(2, q.toNat), (4, 0)] g [(6, 16), (5, d.toNat), (5, a.toNat), (5, b.toNat)] 21 hp hf rfl rfl rfl
  have e2 : BitVec.ofNat 5 (x / 1024) = d := ofNat_field [(2, q.toNat), (4, 0), (4, g.toNat), (6, 16)] d [(5, a.toNat), (5, b.toNat)] 10 hp hf rfl rfl rfl
  have e3 : BitVec.ofNat 5 (x / 32) = a := ofNat_field [(2, q.toNat), (4, 0), (4, g.toNat), (6, 16), (5, d.toNat)] a [(5, b.toNat)] 5 hp hf rfl rfl rfl
  have e4 : BitVec.ofNat 5 x = b := ofNat_low [(2, q.toNat), (4, 0), (4, g.toNat), (6, 16), (5, d.toNat), (5, a.toNat)] b hp hf rfl
  refine ⟨pack_bound 31 hp hf rfl, (.mulhw q g d a b), ?_, rfl, ?_⟩
  · simp only [decodeNat, decodeS, h0, h1, ↓reduceIte]
    rw [e0, e1, e2, e3, e4]
    try rfl
  · rfl

theorem EncodeDecode.div (q : BitVec 2) (g : BitVec 4) (d : BitVec 5) (a : BitVec 5) (b : BitVec 5) : EncodeDecode.Statement (.div q g d a b) := by
  intro hwf x hx
  replace hx : 557056 + q.toNat * 536870912 + g.toNat * 2097152 + d.toNat * 1024 + a.toNat * 32 + b.toNat = x := Option.some.inj hx
  have hp : x = pack [(2, q.toNat), (4, 0), (4, g.toNat), (6, 17), (5, d.toNat), (5, a.toNat), (5, b.toNat)] := by
    rw [pack_cons 2 29 (pack_cons 4 25 (pack_cons 4 21 (pack_cons 6 15 (pack_cons 5 10 (pack_cons 5 5 (pack_cons 5 0 pack_nil rfl (rfl : 1 = 2 ^ 0)) rfl (rfl : 32 = 2 ^ 5)) rfl (rfl : 1024 = 2 ^ 10)) rfl (rfl : 32768 = 2 ^ 15)) rfl (rfl : 2097152 = 2 ^ 21)) rfl (rfl : 33554432 = 2 ^ 25)) rfl (rfl : 536870912 = 2 ^ 29)]
    omega
  have hf : Fits [(2, q.toNat), (4, 0), (4, g.toNat), (6, 17), (5, d.toNat), (5, a.toNat), (5, b.toNat)] := ⟨q.isLt, by decide, g.isLt, by decide, d.isLt, a.isLt, b.isLt, trivial⟩
  have h0 : x / 33554432 % 16 = 0 := pack_field [(2, q.toNat)] [(4, 0)] [(4, g.toNat), (6, 17), (5, d.toNat), (5, a.toNat), (5, b.toNat)] 25 4 hp hf rfl rfl rfl rfl rfl rfl
  have h1 : x / 32768 % 64 = 17 := pack_field [(2, q.toNat), (4, 0), (4, g.toNat)] [(6, 17)] [(5, d.toNat), (5, a.toNat), (5, b.toNat)] 15 6 hp hf rfl rfl rfl rfl rfl rfl
  have e0 : BitVec.ofNat 2 (x / 536870912) = q := ofNat_field [] q [(4, 0), (4, g.toNat), (6, 17), (5, d.toNat), (5, a.toNat), (5, b.toNat)] 29 hp hf rfl rfl rfl
  have e1 : BitVec.ofNat 4 (x / 2097152) = g := ofNat_field [(2, q.toNat), (4, 0)] g [(6, 17), (5, d.toNat), (5, a.toNat), (5, b.toNat)] 21 hp hf rfl rfl rfl
  have e2 : BitVec.ofNat 5 (x / 1024) = d := ofNat_field [(2, q.toNat), (4, 0), (4, g.toNat), (6, 17)] d [(5, a.toNat), (5, b.toNat)] 10 hp hf rfl rfl rfl
  have e3 : BitVec.ofNat 5 (x / 32) = a := ofNat_field [(2, q.toNat), (4, 0), (4, g.toNat), (6, 17), (5, d.toNat)] a [(5, b.toNat)] 5 hp hf rfl rfl rfl
  have e4 : BitVec.ofNat 5 x = b := ofNat_low [(2, q.toNat), (4, 0), (4, g.toNat), (6, 17), (5, d.toNat), (5, a.toNat)] b hp hf rfl
  refine ⟨pack_bound 31 hp hf rfl, (.div q g d a b), ?_, rfl, ?_⟩
  · simp only [decodeNat, decodeS, h0, h1, ↓reduceIte]
    rw [e0, e1, e2, e3, e4]
    try rfl
  · rfl

theorem EncodeDecode.divw (q : BitVec 2) (g : BitVec 4) (d : BitVec 5) (a : BitVec 5) (b : BitVec 5) : EncodeDecode.Statement (.divw q g d a b) := by
  intro hwf x hx
  replace hx : 589824 + q.toNat * 536870912 + g.toNat * 2097152 + d.toNat * 1024 + a.toNat * 32 + b.toNat = x := Option.some.inj hx
  have hp : x = pack [(2, q.toNat), (4, 0), (4, g.toNat), (6, 18), (5, d.toNat), (5, a.toNat), (5, b.toNat)] := by
    rw [pack_cons 2 29 (pack_cons 4 25 (pack_cons 4 21 (pack_cons 6 15 (pack_cons 5 10 (pack_cons 5 5 (pack_cons 5 0 pack_nil rfl (rfl : 1 = 2 ^ 0)) rfl (rfl : 32 = 2 ^ 5)) rfl (rfl : 1024 = 2 ^ 10)) rfl (rfl : 32768 = 2 ^ 15)) rfl (rfl : 2097152 = 2 ^ 21)) rfl (rfl : 33554432 = 2 ^ 25)) rfl (rfl : 536870912 = 2 ^ 29)]
    omega
  have hf : Fits [(2, q.toNat), (4, 0), (4, g.toNat), (6, 18), (5, d.toNat), (5, a.toNat), (5, b.toNat)] := ⟨q.isLt, by decide, g.isLt, by decide, d.isLt, a.isLt, b.isLt, trivial⟩
  have h0 : x / 33554432 % 16 = 0 := pack_field [(2, q.toNat)] [(4, 0)] [(4, g.toNat), (6, 18), (5, d.toNat), (5, a.toNat), (5, b.toNat)] 25 4 hp hf rfl rfl rfl rfl rfl rfl
  have h1 : x / 32768 % 64 = 18 := pack_field [(2, q.toNat), (4, 0), (4, g.toNat)] [(6, 18)] [(5, d.toNat), (5, a.toNat), (5, b.toNat)] 15 6 hp hf rfl rfl rfl rfl rfl rfl
  have e0 : BitVec.ofNat 2 (x / 536870912) = q := ofNat_field [] q [(4, 0), (4, g.toNat), (6, 18), (5, d.toNat), (5, a.toNat), (5, b.toNat)] 29 hp hf rfl rfl rfl
  have e1 : BitVec.ofNat 4 (x / 2097152) = g := ofNat_field [(2, q.toNat), (4, 0)] g [(6, 18), (5, d.toNat), (5, a.toNat), (5, b.toNat)] 21 hp hf rfl rfl rfl
  have e2 : BitVec.ofNat 5 (x / 1024) = d := ofNat_field [(2, q.toNat), (4, 0), (4, g.toNat), (6, 18)] d [(5, a.toNat), (5, b.toNat)] 10 hp hf rfl rfl rfl
  have e3 : BitVec.ofNat 5 (x / 32) = a := ofNat_field [(2, q.toNat), (4, 0), (4, g.toNat), (6, 18), (5, d.toNat)] a [(5, b.toNat)] 5 hp hf rfl rfl rfl
  have e4 : BitVec.ofNat 5 x = b := ofNat_low [(2, q.toNat), (4, 0), (4, g.toNat), (6, 18), (5, d.toNat), (5, a.toNat)] b hp hf rfl
  refine ⟨pack_bound 31 hp hf rfl, (.divw q g d a b), ?_, rfl, ?_⟩
  · simp only [decodeNat, decodeS, h0, h1, ↓reduceIte]
    rw [e0, e1, e2, e3, e4]
    try rfl
  · rfl

theorem EncodeDecode.rem (q : BitVec 2) (g : BitVec 4) (d : BitVec 5) (a : BitVec 5) (b : BitVec 5) : EncodeDecode.Statement (.rem q g d a b) := by
  intro hwf x hx
  replace hx : 622592 + q.toNat * 536870912 + g.toNat * 2097152 + d.toNat * 1024 + a.toNat * 32 + b.toNat = x := Option.some.inj hx
  have hp : x = pack [(2, q.toNat), (4, 0), (4, g.toNat), (6, 19), (5, d.toNat), (5, a.toNat), (5, b.toNat)] := by
    rw [pack_cons 2 29 (pack_cons 4 25 (pack_cons 4 21 (pack_cons 6 15 (pack_cons 5 10 (pack_cons 5 5 (pack_cons 5 0 pack_nil rfl (rfl : 1 = 2 ^ 0)) rfl (rfl : 32 = 2 ^ 5)) rfl (rfl : 1024 = 2 ^ 10)) rfl (rfl : 32768 = 2 ^ 15)) rfl (rfl : 2097152 = 2 ^ 21)) rfl (rfl : 33554432 = 2 ^ 25)) rfl (rfl : 536870912 = 2 ^ 29)]
    omega
  have hf : Fits [(2, q.toNat), (4, 0), (4, g.toNat), (6, 19), (5, d.toNat), (5, a.toNat), (5, b.toNat)] := ⟨q.isLt, by decide, g.isLt, by decide, d.isLt, a.isLt, b.isLt, trivial⟩
  have h0 : x / 33554432 % 16 = 0 := pack_field [(2, q.toNat)] [(4, 0)] [(4, g.toNat), (6, 19), (5, d.toNat), (5, a.toNat), (5, b.toNat)] 25 4 hp hf rfl rfl rfl rfl rfl rfl
  have h1 : x / 32768 % 64 = 19 := pack_field [(2, q.toNat), (4, 0), (4, g.toNat)] [(6, 19)] [(5, d.toNat), (5, a.toNat), (5, b.toNat)] 15 6 hp hf rfl rfl rfl rfl rfl rfl
  have e0 : BitVec.ofNat 2 (x / 536870912) = q := ofNat_field [] q [(4, 0), (4, g.toNat), (6, 19), (5, d.toNat), (5, a.toNat), (5, b.toNat)] 29 hp hf rfl rfl rfl
  have e1 : BitVec.ofNat 4 (x / 2097152) = g := ofNat_field [(2, q.toNat), (4, 0)] g [(6, 19), (5, d.toNat), (5, a.toNat), (5, b.toNat)] 21 hp hf rfl rfl rfl
  have e2 : BitVec.ofNat 5 (x / 1024) = d := ofNat_field [(2, q.toNat), (4, 0), (4, g.toNat), (6, 19)] d [(5, a.toNat), (5, b.toNat)] 10 hp hf rfl rfl rfl
  have e3 : BitVec.ofNat 5 (x / 32) = a := ofNat_field [(2, q.toNat), (4, 0), (4, g.toNat), (6, 19), (5, d.toNat)] a [(5, b.toNat)] 5 hp hf rfl rfl rfl
  have e4 : BitVec.ofNat 5 x = b := ofNat_low [(2, q.toNat), (4, 0), (4, g.toNat), (6, 19), (5, d.toNat), (5, a.toNat)] b hp hf rfl
  refine ⟨pack_bound 31 hp hf rfl, (.rem q g d a b), ?_, rfl, ?_⟩
  · simp only [decodeNat, decodeS, h0, h1, ↓reduceIte]
    rw [e0, e1, e2, e3, e4]
    try rfl
  · rfl

theorem EncodeDecode.remw (q : BitVec 2) (g : BitVec 4) (d : BitVec 5) (a : BitVec 5) (b : BitVec 5) : EncodeDecode.Statement (.remw q g d a b) := by
  intro hwf x hx
  replace hx : 655360 + q.toNat * 536870912 + g.toNat * 2097152 + d.toNat * 1024 + a.toNat * 32 + b.toNat = x := Option.some.inj hx
  have hp : x = pack [(2, q.toNat), (4, 0), (4, g.toNat), (6, 20), (5, d.toNat), (5, a.toNat), (5, b.toNat)] := by
    rw [pack_cons 2 29 (pack_cons 4 25 (pack_cons 4 21 (pack_cons 6 15 (pack_cons 5 10 (pack_cons 5 5 (pack_cons 5 0 pack_nil rfl (rfl : 1 = 2 ^ 0)) rfl (rfl : 32 = 2 ^ 5)) rfl (rfl : 1024 = 2 ^ 10)) rfl (rfl : 32768 = 2 ^ 15)) rfl (rfl : 2097152 = 2 ^ 21)) rfl (rfl : 33554432 = 2 ^ 25)) rfl (rfl : 536870912 = 2 ^ 29)]
    omega
  have hf : Fits [(2, q.toNat), (4, 0), (4, g.toNat), (6, 20), (5, d.toNat), (5, a.toNat), (5, b.toNat)] := ⟨q.isLt, by decide, g.isLt, by decide, d.isLt, a.isLt, b.isLt, trivial⟩
  have h0 : x / 33554432 % 16 = 0 := pack_field [(2, q.toNat)] [(4, 0)] [(4, g.toNat), (6, 20), (5, d.toNat), (5, a.toNat), (5, b.toNat)] 25 4 hp hf rfl rfl rfl rfl rfl rfl
  have h1 : x / 32768 % 64 = 20 := pack_field [(2, q.toNat), (4, 0), (4, g.toNat)] [(6, 20)] [(5, d.toNat), (5, a.toNat), (5, b.toNat)] 15 6 hp hf rfl rfl rfl rfl rfl rfl
  have e0 : BitVec.ofNat 2 (x / 536870912) = q := ofNat_field [] q [(4, 0), (4, g.toNat), (6, 20), (5, d.toNat), (5, a.toNat), (5, b.toNat)] 29 hp hf rfl rfl rfl
  have e1 : BitVec.ofNat 4 (x / 2097152) = g := ofNat_field [(2, q.toNat), (4, 0)] g [(6, 20), (5, d.toNat), (5, a.toNat), (5, b.toNat)] 21 hp hf rfl rfl rfl
  have e2 : BitVec.ofNat 5 (x / 1024) = d := ofNat_field [(2, q.toNat), (4, 0), (4, g.toNat), (6, 20)] d [(5, a.toNat), (5, b.toNat)] 10 hp hf rfl rfl rfl
  have e3 : BitVec.ofNat 5 (x / 32) = a := ofNat_field [(2, q.toNat), (4, 0), (4, g.toNat), (6, 20), (5, d.toNat)] a [(5, b.toNat)] 5 hp hf rfl rfl rfl
  have e4 : BitVec.ofNat 5 x = b := ofNat_low [(2, q.toNat), (4, 0), (4, g.toNat), (6, 20), (5, d.toNat), (5, a.toNat)] b hp hf rfl
  refine ⟨pack_bound 31 hp hf rfl, (.remw q g d a b), ?_, rfl, ?_⟩
  · simp only [decodeNat, decodeS, h0, h1, ↓reduceIte]
    rw [e0, e1, e2, e3, e4]
    try rfl
  · rfl

theorem EncodeDecode.min (q : BitVec 2) (g : BitVec 4) (d : BitVec 5) (a : BitVec 5) (b : BitVec 5) : EncodeDecode.Statement (.min q g d a b) := by
  intro hwf x hx
  replace hx : 688128 + q.toNat * 536870912 + g.toNat * 2097152 + d.toNat * 1024 + a.toNat * 32 + b.toNat = x := Option.some.inj hx
  have hp : x = pack [(2, q.toNat), (4, 0), (4, g.toNat), (6, 21), (5, d.toNat), (5, a.toNat), (5, b.toNat)] := by
    rw [pack_cons 2 29 (pack_cons 4 25 (pack_cons 4 21 (pack_cons 6 15 (pack_cons 5 10 (pack_cons 5 5 (pack_cons 5 0 pack_nil rfl (rfl : 1 = 2 ^ 0)) rfl (rfl : 32 = 2 ^ 5)) rfl (rfl : 1024 = 2 ^ 10)) rfl (rfl : 32768 = 2 ^ 15)) rfl (rfl : 2097152 = 2 ^ 21)) rfl (rfl : 33554432 = 2 ^ 25)) rfl (rfl : 536870912 = 2 ^ 29)]
    omega
  have hf : Fits [(2, q.toNat), (4, 0), (4, g.toNat), (6, 21), (5, d.toNat), (5, a.toNat), (5, b.toNat)] := ⟨q.isLt, by decide, g.isLt, by decide, d.isLt, a.isLt, b.isLt, trivial⟩
  have h0 : x / 33554432 % 16 = 0 := pack_field [(2, q.toNat)] [(4, 0)] [(4, g.toNat), (6, 21), (5, d.toNat), (5, a.toNat), (5, b.toNat)] 25 4 hp hf rfl rfl rfl rfl rfl rfl
  have h1 : x / 32768 % 64 = 21 := pack_field [(2, q.toNat), (4, 0), (4, g.toNat)] [(6, 21)] [(5, d.toNat), (5, a.toNat), (5, b.toNat)] 15 6 hp hf rfl rfl rfl rfl rfl rfl
  have e0 : BitVec.ofNat 2 (x / 536870912) = q := ofNat_field [] q [(4, 0), (4, g.toNat), (6, 21), (5, d.toNat), (5, a.toNat), (5, b.toNat)] 29 hp hf rfl rfl rfl
  have e1 : BitVec.ofNat 4 (x / 2097152) = g := ofNat_field [(2, q.toNat), (4, 0)] g [(6, 21), (5, d.toNat), (5, a.toNat), (5, b.toNat)] 21 hp hf rfl rfl rfl
  have e2 : BitVec.ofNat 5 (x / 1024) = d := ofNat_field [(2, q.toNat), (4, 0), (4, g.toNat), (6, 21)] d [(5, a.toNat), (5, b.toNat)] 10 hp hf rfl rfl rfl
  have e3 : BitVec.ofNat 5 (x / 32) = a := ofNat_field [(2, q.toNat), (4, 0), (4, g.toNat), (6, 21), (5, d.toNat)] a [(5, b.toNat)] 5 hp hf rfl rfl rfl
  have e4 : BitVec.ofNat 5 x = b := ofNat_low [(2, q.toNat), (4, 0), (4, g.toNat), (6, 21), (5, d.toNat), (5, a.toNat)] b hp hf rfl
  refine ⟨pack_bound 31 hp hf rfl, (.min q g d a b), ?_, rfl, ?_⟩
  · simp only [decodeNat, decodeS, h0, h1, ↓reduceIte]
    rw [e0, e1, e2, e3, e4]
    try rfl
  · rfl

theorem EncodeDecode.max (q : BitVec 2) (g : BitVec 4) (d : BitVec 5) (a : BitVec 5) (b : BitVec 5) : EncodeDecode.Statement (.max q g d a b) := by
  intro hwf x hx
  replace hx : 720896 + q.toNat * 536870912 + g.toNat * 2097152 + d.toNat * 1024 + a.toNat * 32 + b.toNat = x := Option.some.inj hx
  have hp : x = pack [(2, q.toNat), (4, 0), (4, g.toNat), (6, 22), (5, d.toNat), (5, a.toNat), (5, b.toNat)] := by
    rw [pack_cons 2 29 (pack_cons 4 25 (pack_cons 4 21 (pack_cons 6 15 (pack_cons 5 10 (pack_cons 5 5 (pack_cons 5 0 pack_nil rfl (rfl : 1 = 2 ^ 0)) rfl (rfl : 32 = 2 ^ 5)) rfl (rfl : 1024 = 2 ^ 10)) rfl (rfl : 32768 = 2 ^ 15)) rfl (rfl : 2097152 = 2 ^ 21)) rfl (rfl : 33554432 = 2 ^ 25)) rfl (rfl : 536870912 = 2 ^ 29)]
    omega
  have hf : Fits [(2, q.toNat), (4, 0), (4, g.toNat), (6, 22), (5, d.toNat), (5, a.toNat), (5, b.toNat)] := ⟨q.isLt, by decide, g.isLt, by decide, d.isLt, a.isLt, b.isLt, trivial⟩
  have h0 : x / 33554432 % 16 = 0 := pack_field [(2, q.toNat)] [(4, 0)] [(4, g.toNat), (6, 22), (5, d.toNat), (5, a.toNat), (5, b.toNat)] 25 4 hp hf rfl rfl rfl rfl rfl rfl
  have h1 : x / 32768 % 64 = 22 := pack_field [(2, q.toNat), (4, 0), (4, g.toNat)] [(6, 22)] [(5, d.toNat), (5, a.toNat), (5, b.toNat)] 15 6 hp hf rfl rfl rfl rfl rfl rfl
  have e0 : BitVec.ofNat 2 (x / 536870912) = q := ofNat_field [] q [(4, 0), (4, g.toNat), (6, 22), (5, d.toNat), (5, a.toNat), (5, b.toNat)] 29 hp hf rfl rfl rfl
  have e1 : BitVec.ofNat 4 (x / 2097152) = g := ofNat_field [(2, q.toNat), (4, 0)] g [(6, 22), (5, d.toNat), (5, a.toNat), (5, b.toNat)] 21 hp hf rfl rfl rfl
  have e2 : BitVec.ofNat 5 (x / 1024) = d := ofNat_field [(2, q.toNat), (4, 0), (4, g.toNat), (6, 22)] d [(5, a.toNat), (5, b.toNat)] 10 hp hf rfl rfl rfl
  have e3 : BitVec.ofNat 5 (x / 32) = a := ofNat_field [(2, q.toNat), (4, 0), (4, g.toNat), (6, 22), (5, d.toNat)] a [(5, b.toNat)] 5 hp hf rfl rfl rfl
  have e4 : BitVec.ofNat 5 x = b := ofNat_low [(2, q.toNat), (4, 0), (4, g.toNat), (6, 22), (5, d.toNat), (5, a.toNat)] b hp hf rfl
  refine ⟨pack_bound 31 hp hf rfl, (.max q g d a b), ?_, rfl, ?_⟩
  · simp only [decodeNat, decodeS, h0, h1, ↓reduceIte]
    rw [e0, e1, e2, e3, e4]
    try rfl
  · rfl

theorem EncodeDecode.minw (q : BitVec 2) (g : BitVec 4) (d : BitVec 5) (a : BitVec 5) (b : BitVec 5) : EncodeDecode.Statement (.minw q g d a b) := by
  intro hwf x hx
  replace hx : 753664 + q.toNat * 536870912 + g.toNat * 2097152 + d.toNat * 1024 + a.toNat * 32 + b.toNat = x := Option.some.inj hx
  have hp : x = pack [(2, q.toNat), (4, 0), (4, g.toNat), (6, 23), (5, d.toNat), (5, a.toNat), (5, b.toNat)] := by
    rw [pack_cons 2 29 (pack_cons 4 25 (pack_cons 4 21 (pack_cons 6 15 (pack_cons 5 10 (pack_cons 5 5 (pack_cons 5 0 pack_nil rfl (rfl : 1 = 2 ^ 0)) rfl (rfl : 32 = 2 ^ 5)) rfl (rfl : 1024 = 2 ^ 10)) rfl (rfl : 32768 = 2 ^ 15)) rfl (rfl : 2097152 = 2 ^ 21)) rfl (rfl : 33554432 = 2 ^ 25)) rfl (rfl : 536870912 = 2 ^ 29)]
    omega
  have hf : Fits [(2, q.toNat), (4, 0), (4, g.toNat), (6, 23), (5, d.toNat), (5, a.toNat), (5, b.toNat)] := ⟨q.isLt, by decide, g.isLt, by decide, d.isLt, a.isLt, b.isLt, trivial⟩
  have h0 : x / 33554432 % 16 = 0 := pack_field [(2, q.toNat)] [(4, 0)] [(4, g.toNat), (6, 23), (5, d.toNat), (5, a.toNat), (5, b.toNat)] 25 4 hp hf rfl rfl rfl rfl rfl rfl
  have h1 : x / 32768 % 64 = 23 := pack_field [(2, q.toNat), (4, 0), (4, g.toNat)] [(6, 23)] [(5, d.toNat), (5, a.toNat), (5, b.toNat)] 15 6 hp hf rfl rfl rfl rfl rfl rfl
  have e0 : BitVec.ofNat 2 (x / 536870912) = q := ofNat_field [] q [(4, 0), (4, g.toNat), (6, 23), (5, d.toNat), (5, a.toNat), (5, b.toNat)] 29 hp hf rfl rfl rfl
  have e1 : BitVec.ofNat 4 (x / 2097152) = g := ofNat_field [(2, q.toNat), (4, 0)] g [(6, 23), (5, d.toNat), (5, a.toNat), (5, b.toNat)] 21 hp hf rfl rfl rfl
  have e2 : BitVec.ofNat 5 (x / 1024) = d := ofNat_field [(2, q.toNat), (4, 0), (4, g.toNat), (6, 23)] d [(5, a.toNat), (5, b.toNat)] 10 hp hf rfl rfl rfl
  have e3 : BitVec.ofNat 5 (x / 32) = a := ofNat_field [(2, q.toNat), (4, 0), (4, g.toNat), (6, 23), (5, d.toNat)] a [(5, b.toNat)] 5 hp hf rfl rfl rfl
  have e4 : BitVec.ofNat 5 x = b := ofNat_low [(2, q.toNat), (4, 0), (4, g.toNat), (6, 23), (5, d.toNat), (5, a.toNat)] b hp hf rfl
  refine ⟨pack_bound 31 hp hf rfl, (.minw q g d a b), ?_, rfl, ?_⟩
  · simp only [decodeNat, decodeS, h0, h1, ↓reduceIte]
    rw [e0, e1, e2, e3, e4]
    try rfl
  · rfl

theorem EncodeDecode.maxw (q : BitVec 2) (g : BitVec 4) (d : BitVec 5) (a : BitVec 5) (b : BitVec 5) : EncodeDecode.Statement (.maxw q g d a b) := by
  intro hwf x hx
  replace hx : 786432 + q.toNat * 536870912 + g.toNat * 2097152 + d.toNat * 1024 + a.toNat * 32 + b.toNat = x := Option.some.inj hx
  have hp : x = pack [(2, q.toNat), (4, 0), (4, g.toNat), (6, 24), (5, d.toNat), (5, a.toNat), (5, b.toNat)] := by
    rw [pack_cons 2 29 (pack_cons 4 25 (pack_cons 4 21 (pack_cons 6 15 (pack_cons 5 10 (pack_cons 5 5 (pack_cons 5 0 pack_nil rfl (rfl : 1 = 2 ^ 0)) rfl (rfl : 32 = 2 ^ 5)) rfl (rfl : 1024 = 2 ^ 10)) rfl (rfl : 32768 = 2 ^ 15)) rfl (rfl : 2097152 = 2 ^ 21)) rfl (rfl : 33554432 = 2 ^ 25)) rfl (rfl : 536870912 = 2 ^ 29)]
    omega
  have hf : Fits [(2, q.toNat), (4, 0), (4, g.toNat), (6, 24), (5, d.toNat), (5, a.toNat), (5, b.toNat)] := ⟨q.isLt, by decide, g.isLt, by decide, d.isLt, a.isLt, b.isLt, trivial⟩
  have h0 : x / 33554432 % 16 = 0 := pack_field [(2, q.toNat)] [(4, 0)] [(4, g.toNat), (6, 24), (5, d.toNat), (5, a.toNat), (5, b.toNat)] 25 4 hp hf rfl rfl rfl rfl rfl rfl
  have h1 : x / 32768 % 64 = 24 := pack_field [(2, q.toNat), (4, 0), (4, g.toNat)] [(6, 24)] [(5, d.toNat), (5, a.toNat), (5, b.toNat)] 15 6 hp hf rfl rfl rfl rfl rfl rfl
  have e0 : BitVec.ofNat 2 (x / 536870912) = q := ofNat_field [] q [(4, 0), (4, g.toNat), (6, 24), (5, d.toNat), (5, a.toNat), (5, b.toNat)] 29 hp hf rfl rfl rfl
  have e1 : BitVec.ofNat 4 (x / 2097152) = g := ofNat_field [(2, q.toNat), (4, 0)] g [(6, 24), (5, d.toNat), (5, a.toNat), (5, b.toNat)] 21 hp hf rfl rfl rfl
  have e2 : BitVec.ofNat 5 (x / 1024) = d := ofNat_field [(2, q.toNat), (4, 0), (4, g.toNat), (6, 24)] d [(5, a.toNat), (5, b.toNat)] 10 hp hf rfl rfl rfl
  have e3 : BitVec.ofNat 5 (x / 32) = a := ofNat_field [(2, q.toNat), (4, 0), (4, g.toNat), (6, 24), (5, d.toNat)] a [(5, b.toNat)] 5 hp hf rfl rfl rfl
  have e4 : BitVec.ofNat 5 x = b := ofNat_low [(2, q.toNat), (4, 0), (4, g.toNat), (6, 24), (5, d.toNat), (5, a.toNat)] b hp hf rfl
  refine ⟨pack_bound 31 hp hf rfl, (.maxw q g d a b), ?_, rfl, ?_⟩
  · simp only [decodeNat, decodeS, h0, h1, ↓reduceIte]
    rw [e0, e1, e2, e3, e4]
    try rfl
  · rfl

theorem EncodeDecode.clz (q : BitVec 2) (g : BitVec 4) (d : BitVec 5) (a : BitVec 5) : EncodeDecode.Statement (.clz q g d a) := by
  intro hwf x hx
  replace hx : 819200 + q.toNat * 536870912 + g.toNat * 2097152 + d.toNat * 1024 + a.toNat * 32 = x := Option.some.inj hx
  have hp : x = pack [(2, q.toNat), (4, 0), (4, g.toNat), (6, 25), (5, d.toNat), (5, a.toNat), (5, 0)] := by
    rw [pack_cons 2 29 (pack_cons 4 25 (pack_cons 4 21 (pack_cons 6 15 (pack_cons 5 10 (pack_cons 5 5 (pack_cons 5 0 pack_nil rfl (rfl : 1 = 2 ^ 0)) rfl (rfl : 32 = 2 ^ 5)) rfl (rfl : 1024 = 2 ^ 10)) rfl (rfl : 32768 = 2 ^ 15)) rfl (rfl : 2097152 = 2 ^ 21)) rfl (rfl : 33554432 = 2 ^ 25)) rfl (rfl : 536870912 = 2 ^ 29)]
    omega
  have hf : Fits [(2, q.toNat), (4, 0), (4, g.toNat), (6, 25), (5, d.toNat), (5, a.toNat), (5, 0)] := ⟨q.isLt, by decide, g.isLt, by decide, d.isLt, a.isLt, by decide, trivial⟩
  have h0 : x / 33554432 % 16 = 0 := pack_field [(2, q.toNat)] [(4, 0)] [(4, g.toNat), (6, 25), (5, d.toNat), (5, a.toNat), (5, 0)] 25 4 hp hf rfl rfl rfl rfl rfl rfl
  have h1 : x / 32768 % 64 = 25 := pack_field [(2, q.toNat), (4, 0), (4, g.toNat)] [(6, 25)] [(5, d.toNat), (5, a.toNat), (5, 0)] 15 6 hp hf rfl rfl rfl rfl rfl rfl
  have h2 : x % 32 = 0 := pack_low [(2, q.toNat), (4, 0), (4, g.toNat), (6, 25), (5, d.toNat), (5, a.toNat)] [(5, 0)] 5 hp hf rfl rfl rfl rfl
  have e0 : BitVec.ofNat 2 (x / 536870912) = q := ofNat_field [] q [(4, 0), (4, g.toNat), (6, 25), (5, d.toNat), (5, a.toNat), (5, 0)] 29 hp hf rfl rfl rfl
  have e1 : BitVec.ofNat 4 (x / 2097152) = g := ofNat_field [(2, q.toNat), (4, 0)] g [(6, 25), (5, d.toNat), (5, a.toNat), (5, 0)] 21 hp hf rfl rfl rfl
  have e2 : BitVec.ofNat 5 (x / 1024) = d := ofNat_field [(2, q.toNat), (4, 0), (4, g.toNat), (6, 25)] d [(5, a.toNat), (5, 0)] 10 hp hf rfl rfl rfl
  have e3 : BitVec.ofNat 5 (x / 32) = a := ofNat_field [(2, q.toNat), (4, 0), (4, g.toNat), (6, 25), (5, d.toNat)] a [(5, 0)] 5 hp hf rfl rfl rfl
  refine ⟨pack_bound 31 hp hf rfl, (.clz q g d a), ?_, rfl, ?_⟩
  · simp only [decodeNat, decodeS, h0, h1, h2, ↓reduceIte]
    rw [e0, e1, e2, e3]
    try rfl
  · rfl

theorem EncodeDecode.cls (q : BitVec 2) (g : BitVec 4) (d : BitVec 5) (a : BitVec 5) : EncodeDecode.Statement (.cls q g d a) := by
  intro hwf x hx
  replace hx : 851968 + q.toNat * 536870912 + g.toNat * 2097152 + d.toNat * 1024 + a.toNat * 32 = x := Option.some.inj hx
  have hp : x = pack [(2, q.toNat), (4, 0), (4, g.toNat), (6, 26), (5, d.toNat), (5, a.toNat), (5, 0)] := by
    rw [pack_cons 2 29 (pack_cons 4 25 (pack_cons 4 21 (pack_cons 6 15 (pack_cons 5 10 (pack_cons 5 5 (pack_cons 5 0 pack_nil rfl (rfl : 1 = 2 ^ 0)) rfl (rfl : 32 = 2 ^ 5)) rfl (rfl : 1024 = 2 ^ 10)) rfl (rfl : 32768 = 2 ^ 15)) rfl (rfl : 2097152 = 2 ^ 21)) rfl (rfl : 33554432 = 2 ^ 25)) rfl (rfl : 536870912 = 2 ^ 29)]
    omega
  have hf : Fits [(2, q.toNat), (4, 0), (4, g.toNat), (6, 26), (5, d.toNat), (5, a.toNat), (5, 0)] := ⟨q.isLt, by decide, g.isLt, by decide, d.isLt, a.isLt, by decide, trivial⟩
  have h0 : x / 33554432 % 16 = 0 := pack_field [(2, q.toNat)] [(4, 0)] [(4, g.toNat), (6, 26), (5, d.toNat), (5, a.toNat), (5, 0)] 25 4 hp hf rfl rfl rfl rfl rfl rfl
  have h1 : x / 32768 % 64 = 26 := pack_field [(2, q.toNat), (4, 0), (4, g.toNat)] [(6, 26)] [(5, d.toNat), (5, a.toNat), (5, 0)] 15 6 hp hf rfl rfl rfl rfl rfl rfl
  have h2 : x % 32 = 0 := pack_low [(2, q.toNat), (4, 0), (4, g.toNat), (6, 26), (5, d.toNat), (5, a.toNat)] [(5, 0)] 5 hp hf rfl rfl rfl rfl
  have e0 : BitVec.ofNat 2 (x / 536870912) = q := ofNat_field [] q [(4, 0), (4, g.toNat), (6, 26), (5, d.toNat), (5, a.toNat), (5, 0)] 29 hp hf rfl rfl rfl
  have e1 : BitVec.ofNat 4 (x / 2097152) = g := ofNat_field [(2, q.toNat), (4, 0)] g [(6, 26), (5, d.toNat), (5, a.toNat), (5, 0)] 21 hp hf rfl rfl rfl
  have e2 : BitVec.ofNat 5 (x / 1024) = d := ofNat_field [(2, q.toNat), (4, 0), (4, g.toNat), (6, 26)] d [(5, a.toNat), (5, 0)] 10 hp hf rfl rfl rfl
  have e3 : BitVec.ofNat 5 (x / 32) = a := ofNat_field [(2, q.toNat), (4, 0), (4, g.toNat), (6, 26), (5, d.toNat)] a [(5, 0)] 5 hp hf rfl rfl rfl
  refine ⟨pack_bound 31 hp hf rfl, (.cls q g d a), ?_, rfl, ?_⟩
  · simp only [decodeNat, decodeS, h0, h1, h2, ↓reduceIte]
    rw [e0, e1, e2, e3]
    try rfl
  · rfl

theorem EncodeDecode.popc (q : BitVec 2) (g : BitVec 4) (d : BitVec 5) (a : BitVec 5) : EncodeDecode.Statement (.popc q g d a) := by
  intro hwf x hx
  replace hx : 884736 + q.toNat * 536870912 + g.toNat * 2097152 + d.toNat * 1024 + a.toNat * 32 = x := Option.some.inj hx
  have hp : x = pack [(2, q.toNat), (4, 0), (4, g.toNat), (6, 27), (5, d.toNat), (5, a.toNat), (5, 0)] := by
    rw [pack_cons 2 29 (pack_cons 4 25 (pack_cons 4 21 (pack_cons 6 15 (pack_cons 5 10 (pack_cons 5 5 (pack_cons 5 0 pack_nil rfl (rfl : 1 = 2 ^ 0)) rfl (rfl : 32 = 2 ^ 5)) rfl (rfl : 1024 = 2 ^ 10)) rfl (rfl : 32768 = 2 ^ 15)) rfl (rfl : 2097152 = 2 ^ 21)) rfl (rfl : 33554432 = 2 ^ 25)) rfl (rfl : 536870912 = 2 ^ 29)]
    omega
  have hf : Fits [(2, q.toNat), (4, 0), (4, g.toNat), (6, 27), (5, d.toNat), (5, a.toNat), (5, 0)] := ⟨q.isLt, by decide, g.isLt, by decide, d.isLt, a.isLt, by decide, trivial⟩
  have h0 : x / 33554432 % 16 = 0 := pack_field [(2, q.toNat)] [(4, 0)] [(4, g.toNat), (6, 27), (5, d.toNat), (5, a.toNat), (5, 0)] 25 4 hp hf rfl rfl rfl rfl rfl rfl
  have h1 : x / 32768 % 64 = 27 := pack_field [(2, q.toNat), (4, 0), (4, g.toNat)] [(6, 27)] [(5, d.toNat), (5, a.toNat), (5, 0)] 15 6 hp hf rfl rfl rfl rfl rfl rfl
  have h2 : x % 32 = 0 := pack_low [(2, q.toNat), (4, 0), (4, g.toNat), (6, 27), (5, d.toNat), (5, a.toNat)] [(5, 0)] 5 hp hf rfl rfl rfl rfl
  have e0 : BitVec.ofNat 2 (x / 536870912) = q := ofNat_field [] q [(4, 0), (4, g.toNat), (6, 27), (5, d.toNat), (5, a.toNat), (5, 0)] 29 hp hf rfl rfl rfl
  have e1 : BitVec.ofNat 4 (x / 2097152) = g := ofNat_field [(2, q.toNat), (4, 0)] g [(6, 27), (5, d.toNat), (5, a.toNat), (5, 0)] 21 hp hf rfl rfl rfl
  have e2 : BitVec.ofNat 5 (x / 1024) = d := ofNat_field [(2, q.toNat), (4, 0), (4, g.toNat), (6, 27)] d [(5, a.toNat), (5, 0)] 10 hp hf rfl rfl rfl
  have e3 : BitVec.ofNat 5 (x / 32) = a := ofNat_field [(2, q.toNat), (4, 0), (4, g.toNat), (6, 27), (5, d.toNat)] a [(5, 0)] 5 hp hf rfl rfl rfl
  refine ⟨pack_bound 31 hp hf rfl, (.popc q g d a), ?_, rfl, ?_⟩
  · simp only [decodeNat, decodeS, h0, h1, h2, ↓reduceIte]
    rw [e0, e1, e2, e3]
    try rfl
  · rfl

theorem EncodeDecode.bfx (q : BitVec 2) (g : BitVec 4) (d : BitVec 5) (a : BitVec 5) (b : BitVec 5) : EncodeDecode.Statement (.bfx q g d a b) := by
  intro hwf x hx
  replace hx : 917504 + q.toNat * 536870912 + g.toNat * 2097152 + d.toNat * 1024 + a.toNat * 32 + b.toNat = x := Option.some.inj hx
  have hp : x = pack [(2, q.toNat), (4, 0), (4, g.toNat), (6, 28), (5, d.toNat), (5, a.toNat), (5, b.toNat)] := by
    rw [pack_cons 2 29 (pack_cons 4 25 (pack_cons 4 21 (pack_cons 6 15 (pack_cons 5 10 (pack_cons 5 5 (pack_cons 5 0 pack_nil rfl (rfl : 1 = 2 ^ 0)) rfl (rfl : 32 = 2 ^ 5)) rfl (rfl : 1024 = 2 ^ 10)) rfl (rfl : 32768 = 2 ^ 15)) rfl (rfl : 2097152 = 2 ^ 21)) rfl (rfl : 33554432 = 2 ^ 25)) rfl (rfl : 536870912 = 2 ^ 29)]
    omega
  have hf : Fits [(2, q.toNat), (4, 0), (4, g.toNat), (6, 28), (5, d.toNat), (5, a.toNat), (5, b.toNat)] := ⟨q.isLt, by decide, g.isLt, by decide, d.isLt, a.isLt, b.isLt, trivial⟩
  have h0 : x / 33554432 % 16 = 0 := pack_field [(2, q.toNat)] [(4, 0)] [(4, g.toNat), (6, 28), (5, d.toNat), (5, a.toNat), (5, b.toNat)] 25 4 hp hf rfl rfl rfl rfl rfl rfl
  have h1 : x / 32768 % 64 = 28 := pack_field [(2, q.toNat), (4, 0), (4, g.toNat)] [(6, 28)] [(5, d.toNat), (5, a.toNat), (5, b.toNat)] 15 6 hp hf rfl rfl rfl rfl rfl rfl
  have e0 : BitVec.ofNat 2 (x / 536870912) = q := ofNat_field [] q [(4, 0), (4, g.toNat), (6, 28), (5, d.toNat), (5, a.toNat), (5, b.toNat)] 29 hp hf rfl rfl rfl
  have e1 : BitVec.ofNat 4 (x / 2097152) = g := ofNat_field [(2, q.toNat), (4, 0)] g [(6, 28), (5, d.toNat), (5, a.toNat), (5, b.toNat)] 21 hp hf rfl rfl rfl
  have e2 : BitVec.ofNat 5 (x / 1024) = d := ofNat_field [(2, q.toNat), (4, 0), (4, g.toNat), (6, 28)] d [(5, a.toNat), (5, b.toNat)] 10 hp hf rfl rfl rfl
  have e3 : BitVec.ofNat 5 (x / 32) = a := ofNat_field [(2, q.toNat), (4, 0), (4, g.toNat), (6, 28), (5, d.toNat)] a [(5, b.toNat)] 5 hp hf rfl rfl rfl
  have e4 : BitVec.ofNat 5 x = b := ofNat_low [(2, q.toNat), (4, 0), (4, g.toNat), (6, 28), (5, d.toNat), (5, a.toNat)] b hp hf rfl
  refine ⟨pack_bound 31 hp hf rfl, (.bfx q g d a b), ?_, rfl, ?_⟩
  · simp only [decodeNat, decodeS, h0, h1, ↓reduceIte]
    rw [e0, e1, e2, e3, e4]
    try rfl
  · rfl

theorem EncodeDecode.bfi (q : BitVec 2) (g : BitVec 4) (d : BitVec 5) (a : BitVec 5) (b : BitVec 5) : EncodeDecode.Statement (.bfi q g d a b) := by
  intro hwf x hx
  replace hx : 950272 + q.toNat * 536870912 + g.toNat * 2097152 + d.toNat * 1024 + a.toNat * 32 + b.toNat = x := Option.some.inj hx
  have hp : x = pack [(2, q.toNat), (4, 0), (4, g.toNat), (6, 29), (5, d.toNat), (5, a.toNat), (5, b.toNat)] := by
    rw [pack_cons 2 29 (pack_cons 4 25 (pack_cons 4 21 (pack_cons 6 15 (pack_cons 5 10 (pack_cons 5 5 (pack_cons 5 0 pack_nil rfl (rfl : 1 = 2 ^ 0)) rfl (rfl : 32 = 2 ^ 5)) rfl (rfl : 1024 = 2 ^ 10)) rfl (rfl : 32768 = 2 ^ 15)) rfl (rfl : 2097152 = 2 ^ 21)) rfl (rfl : 33554432 = 2 ^ 25)) rfl (rfl : 536870912 = 2 ^ 29)]
    omega
  have hf : Fits [(2, q.toNat), (4, 0), (4, g.toNat), (6, 29), (5, d.toNat), (5, a.toNat), (5, b.toNat)] := ⟨q.isLt, by decide, g.isLt, by decide, d.isLt, a.isLt, b.isLt, trivial⟩
  have h0 : x / 33554432 % 16 = 0 := pack_field [(2, q.toNat)] [(4, 0)] [(4, g.toNat), (6, 29), (5, d.toNat), (5, a.toNat), (5, b.toNat)] 25 4 hp hf rfl rfl rfl rfl rfl rfl
  have h1 : x / 32768 % 64 = 29 := pack_field [(2, q.toNat), (4, 0), (4, g.toNat)] [(6, 29)] [(5, d.toNat), (5, a.toNat), (5, b.toNat)] 15 6 hp hf rfl rfl rfl rfl rfl rfl
  have e0 : BitVec.ofNat 2 (x / 536870912) = q := ofNat_field [] q [(4, 0), (4, g.toNat), (6, 29), (5, d.toNat), (5, a.toNat), (5, b.toNat)] 29 hp hf rfl rfl rfl
  have e1 : BitVec.ofNat 4 (x / 2097152) = g := ofNat_field [(2, q.toNat), (4, 0)] g [(6, 29), (5, d.toNat), (5, a.toNat), (5, b.toNat)] 21 hp hf rfl rfl rfl
  have e2 : BitVec.ofNat 5 (x / 1024) = d := ofNat_field [(2, q.toNat), (4, 0), (4, g.toNat), (6, 29)] d [(5, a.toNat), (5, b.toNat)] 10 hp hf rfl rfl rfl
  have e3 : BitVec.ofNat 5 (x / 32) = a := ofNat_field [(2, q.toNat), (4, 0), (4, g.toNat), (6, 29), (5, d.toNat)] a [(5, b.toNat)] 5 hp hf rfl rfl rfl
  have e4 : BitVec.ofNat 5 x = b := ofNat_low [(2, q.toNat), (4, 0), (4, g.toNat), (6, 29), (5, d.toNat), (5, a.toNat)] b hp hf rfl
  refine ⟨pack_bound 31 hp hf rfl, (.bfi q g d a b), ?_, rfl, ?_⟩
  · simp only [decodeNat, decodeS, h0, h1, ↓reduceIte]
    rw [e0, e1, e2, e3, e4]
    try rfl
  · rfl

theorem EncodeDecode.sel (q : BitVec 2) (s : BitVec 4) (d : BitVec 5) (a : BitVec 5) (b : BitVec 5) : EncodeDecode.Statement (.sel q s d a b) := by
  intro hwf x hx
  replace hx : 983040 + q.toNat * 536870912 + s.toNat * 2097152 + d.toNat * 1024 + a.toNat * 32 + b.toNat = x := Option.some.inj hx
  have hp : x = pack [(2, q.toNat), (4, 0), (4, s.toNat), (6, 30), (5, d.toNat), (5, a.toNat), (5, b.toNat)] := by
    rw [pack_cons 2 29 (pack_cons 4 25 (pack_cons 4 21 (pack_cons 6 15 (pack_cons 5 10 (pack_cons 5 5 (pack_cons 5 0 pack_nil rfl (rfl : 1 = 2 ^ 0)) rfl (rfl : 32 = 2 ^ 5)) rfl (rfl : 1024 = 2 ^ 10)) rfl (rfl : 32768 = 2 ^ 15)) rfl (rfl : 2097152 = 2 ^ 21)) rfl (rfl : 33554432 = 2 ^ 25)) rfl (rfl : 536870912 = 2 ^ 29)]
    omega
  have hf : Fits [(2, q.toNat), (4, 0), (4, s.toNat), (6, 30), (5, d.toNat), (5, a.toNat), (5, b.toNat)] := ⟨q.isLt, by decide, s.isLt, by decide, d.isLt, a.isLt, b.isLt, trivial⟩
  have h0 : x / 33554432 % 16 = 0 := pack_field [(2, q.toNat)] [(4, 0)] [(4, s.toNat), (6, 30), (5, d.toNat), (5, a.toNat), (5, b.toNat)] 25 4 hp hf rfl rfl rfl rfl rfl rfl
  have h1 : x / 32768 % 64 = 30 := pack_field [(2, q.toNat), (4, 0), (4, s.toNat)] [(6, 30)] [(5, d.toNat), (5, a.toNat), (5, b.toNat)] 15 6 hp hf rfl rfl rfl rfl rfl rfl
  have e0 : BitVec.ofNat 2 (x / 536870912) = q := ofNat_field [] q [(4, 0), (4, s.toNat), (6, 30), (5, d.toNat), (5, a.toNat), (5, b.toNat)] 29 hp hf rfl rfl rfl
  have e1 : BitVec.ofNat 4 (x / 2097152) = s := ofNat_field [(2, q.toNat), (4, 0)] s [(6, 30), (5, d.toNat), (5, a.toNat), (5, b.toNat)] 21 hp hf rfl rfl rfl
  have e2 : BitVec.ofNat 5 (x / 1024) = d := ofNat_field [(2, q.toNat), (4, 0), (4, s.toNat), (6, 30)] d [(5, a.toNat), (5, b.toNat)] 10 hp hf rfl rfl rfl
  have e3 : BitVec.ofNat 5 (x / 32) = a := ofNat_field [(2, q.toNat), (4, 0), (4, s.toNat), (6, 30), (5, d.toNat)] a [(5, b.toNat)] 5 hp hf rfl rfl rfl
  have e4 : BitVec.ofNat 5 x = b := ofNat_low [(2, q.toNat), (4, 0), (4, s.toNat), (6, 30), (5, d.toNat), (5, a.toNat)] b hp hf rfl
  refine ⟨pack_bound 31 hp hf rfl, (.sel q s d a b), ?_, rfl, ?_⟩
  · simp only [decodeNat, decodeS, h0, h1, ↓reduceIte]
    rw [e0, e1, e2, e3, e4]
    try rfl
  · rfl

theorem EncodeDecode.mov (q : BitVec 2) (g : BitVec 4) (d : BitVec 5) (a : BitVec 5) : EncodeDecode.Statement (.mov q g d a) := by
  intro hwf x hx
  replace hx : 1015808 + q.toNat * 536870912 + g.toNat * 2097152 + d.toNat * 1024 + a.toNat * 32 = x := Option.some.inj hx
  have hp : x = pack [(2, q.toNat), (4, 0), (4, g.toNat), (6, 31), (5, d.toNat), (5, a.toNat), (5, 0)] := by
    rw [pack_cons 2 29 (pack_cons 4 25 (pack_cons 4 21 (pack_cons 6 15 (pack_cons 5 10 (pack_cons 5 5 (pack_cons 5 0 pack_nil rfl (rfl : 1 = 2 ^ 0)) rfl (rfl : 32 = 2 ^ 5)) rfl (rfl : 1024 = 2 ^ 10)) rfl (rfl : 32768 = 2 ^ 15)) rfl (rfl : 2097152 = 2 ^ 21)) rfl (rfl : 33554432 = 2 ^ 25)) rfl (rfl : 536870912 = 2 ^ 29)]
    omega
  have hf : Fits [(2, q.toNat), (4, 0), (4, g.toNat), (6, 31), (5, d.toNat), (5, a.toNat), (5, 0)] := ⟨q.isLt, by decide, g.isLt, by decide, d.isLt, a.isLt, by decide, trivial⟩
  have h0 : x / 33554432 % 16 = 0 := pack_field [(2, q.toNat)] [(4, 0)] [(4, g.toNat), (6, 31), (5, d.toNat), (5, a.toNat), (5, 0)] 25 4 hp hf rfl rfl rfl rfl rfl rfl
  have h1 : x / 32768 % 64 = 31 := pack_field [(2, q.toNat), (4, 0), (4, g.toNat)] [(6, 31)] [(5, d.toNat), (5, a.toNat), (5, 0)] 15 6 hp hf rfl rfl rfl rfl rfl rfl
  have h2 : x % 32 = 0 := pack_low [(2, q.toNat), (4, 0), (4, g.toNat), (6, 31), (5, d.toNat), (5, a.toNat)] [(5, 0)] 5 hp hf rfl rfl rfl rfl
  have e0 : BitVec.ofNat 2 (x / 536870912) = q := ofNat_field [] q [(4, 0), (4, g.toNat), (6, 31), (5, d.toNat), (5, a.toNat), (5, 0)] 29 hp hf rfl rfl rfl
  have e1 : BitVec.ofNat 4 (x / 2097152) = g := ofNat_field [(2, q.toNat), (4, 0)] g [(6, 31), (5, d.toNat), (5, a.toNat), (5, 0)] 21 hp hf rfl rfl rfl
  have e2 : BitVec.ofNat 5 (x / 1024) = d := ofNat_field [(2, q.toNat), (4, 0), (4, g.toNat), (6, 31)] d [(5, a.toNat), (5, 0)] 10 hp hf rfl rfl rfl
  have e3 : BitVec.ofNat 5 (x / 32) = a := ofNat_field [(2, q.toNat), (4, 0), (4, g.toNat), (6, 31), (5, d.toNat)] a [(5, 0)] 5 hp hf rfl rfl rfl
  refine ⟨pack_bound 31 hp hf rfl, (.mov q g d a), ?_, rfl, ?_⟩
  · simp only [decodeNat, decodeS, h0, h1, h2, ↓reduceIte]
    rw [e0, e1, e2, e3]
    try rfl
  · rfl

theorem EncodeDecode.movp (q : BitVec 2) (g : BitVec 4) (f : BitVec 1) (p : BitVec 3) (n : BitVec 1) (x0 : BitVec 3) (m : BitVec 1) (y : BitVec 3) : EncodeDecode.Statement (.movp q g f p n x0 m y) := by
  intro hwf x hx
  replace hx : 1048576 + q.toNat * 536870912 + g.toNat * 2097152 + f.toNat * 8192 + p.toNat * 1024 + n.toNat * 256 + x0.toNat * 32 + m.toNat * 8 + y.toNat = x := Option.some.inj hx
  have hp : x = pack [(2, q.toNat), (4, 0), (4, g.toNat), (6, 32), (1, 0), (1, f.toNat), (3, p.toNat), (1, 0), (1, n.toNat), (3, x0.toNat), (1, 0), (1, m.toNat), (3, y.toNat)] := by
    rw [pack_cons 2 29 (pack_cons 4 25 (pack_cons 4 21 (pack_cons 6 15 (pack_cons 1 14 (pack_cons 1 13 (pack_cons 3 10 (pack_cons 1 9 (pack_cons 1 8 (pack_cons 3 5 (pack_cons 1 4 (pack_cons 1 3 (pack_cons 3 0 pack_nil rfl (rfl : 1 = 2 ^ 0)) rfl (rfl : 8 = 2 ^ 3)) rfl (rfl : 16 = 2 ^ 4)) rfl (rfl : 32 = 2 ^ 5)) rfl (rfl : 256 = 2 ^ 8)) rfl (rfl : 512 = 2 ^ 9)) rfl (rfl : 1024 = 2 ^ 10)) rfl (rfl : 8192 = 2 ^ 13)) rfl (rfl : 16384 = 2 ^ 14)) rfl (rfl : 32768 = 2 ^ 15)) rfl (rfl : 2097152 = 2 ^ 21)) rfl (rfl : 33554432 = 2 ^ 25)) rfl (rfl : 536870912 = 2 ^ 29)]
    omega
  have hf : Fits [(2, q.toNat), (4, 0), (4, g.toNat), (6, 32), (1, 0), (1, f.toNat), (3, p.toNat), (1, 0), (1, n.toNat), (3, x0.toNat), (1, 0), (1, m.toNat), (3, y.toNat)] := ⟨q.isLt, by decide, g.isLt, by decide, by decide, f.isLt, p.isLt, by decide, n.isLt, x0.isLt, by decide, m.isLt, y.isLt, trivial⟩
  have h0 : x / 33554432 % 16 = 0 := pack_field [(2, q.toNat)] [(4, 0)] [(4, g.toNat), (6, 32), (1, 0), (1, f.toNat), (3, p.toNat), (1, 0), (1, n.toNat), (3, x0.toNat), (1, 0), (1, m.toNat), (3, y.toNat)] 25 4 hp hf rfl rfl rfl rfl rfl rfl
  have h1 : x / 32768 % 64 = 32 := pack_field [(2, q.toNat), (4, 0), (4, g.toNat)] [(6, 32)] [(1, 0), (1, f.toNat), (3, p.toNat), (1, 0), (1, n.toNat), (3, x0.toNat), (1, 0), (1, m.toNat), (3, y.toNat)] 15 6 hp hf rfl rfl rfl rfl rfl rfl
  have h2 : x / 16 % 2 = 0 := pack_field [(2, q.toNat), (4, 0), (4, g.toNat), (6, 32), (1, 0), (1, f.toNat), (3, p.toNat), (1, 0), (1, n.toNat), (3, x0.toNat)] [(1, 0)] [(1, m.toNat), (3, y.toNat)] 4 1 hp hf rfl rfl rfl rfl rfl rfl
  have h3 : x / 512 % 2 = 0 := pack_field [(2, q.toNat), (4, 0), (4, g.toNat), (6, 32), (1, 0), (1, f.toNat), (3, p.toNat)] [(1, 0)] [(1, n.toNat), (3, x0.toNat), (1, 0), (1, m.toNat), (3, y.toNat)] 9 1 hp hf rfl rfl rfl rfl rfl rfl
  have h4 : x / 16384 % 2 = 0 := pack_field [(2, q.toNat), (4, 0), (4, g.toNat), (6, 32)] [(1, 0)] [(1, f.toNat), (3, p.toNat), (1, 0), (1, n.toNat), (3, x0.toNat), (1, 0), (1, m.toNat), (3, y.toNat)] 14 1 hp hf rfl rfl rfl rfl rfl rfl
  have e0 : BitVec.ofNat 2 (x / 536870912) = q := ofNat_field [] q [(4, 0), (4, g.toNat), (6, 32), (1, 0), (1, f.toNat), (3, p.toNat), (1, 0), (1, n.toNat), (3, x0.toNat), (1, 0), (1, m.toNat), (3, y.toNat)] 29 hp hf rfl rfl rfl
  have e1 : BitVec.ofNat 4 (x / 2097152) = g := ofNat_field [(2, q.toNat), (4, 0)] g [(6, 32), (1, 0), (1, f.toNat), (3, p.toNat), (1, 0), (1, n.toNat), (3, x0.toNat), (1, 0), (1, m.toNat), (3, y.toNat)] 21 hp hf rfl rfl rfl
  have e2 : BitVec.ofNat 1 (x / 8192) = f := ofNat_field [(2, q.toNat), (4, 0), (4, g.toNat), (6, 32), (1, 0)] f [(3, p.toNat), (1, 0), (1, n.toNat), (3, x0.toNat), (1, 0), (1, m.toNat), (3, y.toNat)] 13 hp hf rfl rfl rfl
  have e3 : BitVec.ofNat 3 (x / 1024) = p := ofNat_field [(2, q.toNat), (4, 0), (4, g.toNat), (6, 32), (1, 0), (1, f.toNat)] p [(1, 0), (1, n.toNat), (3, x0.toNat), (1, 0), (1, m.toNat), (3, y.toNat)] 10 hp hf rfl rfl rfl
  have e4 : BitVec.ofNat 1 (x / 256) = n := ofNat_field [(2, q.toNat), (4, 0), (4, g.toNat), (6, 32), (1, 0), (1, f.toNat), (3, p.toNat), (1, 0)] n [(3, x0.toNat), (1, 0), (1, m.toNat), (3, y.toNat)] 8 hp hf rfl rfl rfl
  have e5 : BitVec.ofNat 3 (x / 32) = x0 := ofNat_field [(2, q.toNat), (4, 0), (4, g.toNat), (6, 32), (1, 0), (1, f.toNat), (3, p.toNat), (1, 0), (1, n.toNat)] x0 [(1, 0), (1, m.toNat), (3, y.toNat)] 5 hp hf rfl rfl rfl
  have e6 : BitVec.ofNat 1 (x / 8) = m := ofNat_field [(2, q.toNat), (4, 0), (4, g.toNat), (6, 32), (1, 0), (1, f.toNat), (3, p.toNat), (1, 0), (1, n.toNat), (3, x0.toNat), (1, 0)] m [(3, y.toNat)] 3 hp hf rfl rfl rfl
  have e7 : BitVec.ofNat 3 x = y := ofNat_low [(2, q.toNat), (4, 0), (4, g.toNat), (6, 32), (1, 0), (1, f.toNat), (3, p.toNat), (1, 0), (1, n.toNat), (3, x0.toNat), (1, 0), (1, m.toNat)] y hp hf rfl
  refine ⟨pack_bound 31 hp hf rfl, (.movp q g f p n x0 m y), ?_, rfl, ?_⟩
  · simp only [decodeNat, decodeS, h0, h1, h2, h3, h4, ↓reduceIte, and_self, and_true, true_and, and_false, false_and, one_ne_zero, OfNat.ofNat_ne_zero]
    rw [e0, e1, e2, e3, e4, e5, e6, e7]
    try rfl
  · rfl

theorem EncodeDecode.cmpEq (q : BitVec 2) (g : BitVec 4) (p : BitVec 3) (a : BitVec 5) (b : BitVec 5) : EncodeDecode.Statement (.cmpEq q g p a b) := by
  intro hwf x hx
  replace hx : 1081344 + q.toNat * 536870912 + g.toNat * 2097152 + p.toNat * 1024 + a.toNat * 32 + b.toNat = x := Option.some.inj hx
  have hp : x = pack [(2, q.toNat), (4, 0), (4, g.toNat), (6, 33), (2, 0), (3, p.toNat), (5, a.toNat), (5, b.toNat)] := by
    rw [pack_cons 2 29 (pack_cons 4 25 (pack_cons 4 21 (pack_cons 6 15 (pack_cons 2 13 (pack_cons 3 10 (pack_cons 5 5 (pack_cons 5 0 pack_nil rfl (rfl : 1 = 2 ^ 0)) rfl (rfl : 32 = 2 ^ 5)) rfl (rfl : 1024 = 2 ^ 10)) rfl (rfl : 8192 = 2 ^ 13)) rfl (rfl : 32768 = 2 ^ 15)) rfl (rfl : 2097152 = 2 ^ 21)) rfl (rfl : 33554432 = 2 ^ 25)) rfl (rfl : 536870912 = 2 ^ 29)]
    omega
  have hf : Fits [(2, q.toNat), (4, 0), (4, g.toNat), (6, 33), (2, 0), (3, p.toNat), (5, a.toNat), (5, b.toNat)] := ⟨q.isLt, by decide, g.isLt, by decide, by decide, p.isLt, a.isLt, b.isLt, trivial⟩
  have h0 : x / 33554432 % 16 = 0 := pack_field [(2, q.toNat)] [(4, 0)] [(4, g.toNat), (6, 33), (2, 0), (3, p.toNat), (5, a.toNat), (5, b.toNat)] 25 4 hp hf rfl rfl rfl rfl rfl rfl
  have h1 : x / 32768 % 64 = 33 := pack_field [(2, q.toNat), (4, 0), (4, g.toNat)] [(6, 33)] [(2, 0), (3, p.toNat), (5, a.toNat), (5, b.toNat)] 15 6 hp hf rfl rfl rfl rfl rfl rfl
  have h2 : x / 8192 % 4 = 0 := pack_field [(2, q.toNat), (4, 0), (4, g.toNat), (6, 33)] [(2, 0)] [(3, p.toNat), (5, a.toNat), (5, b.toNat)] 13 2 hp hf rfl rfl rfl rfl rfl rfl
  have e0 : BitVec.ofNat 2 (x / 536870912) = q := ofNat_field [] q [(4, 0), (4, g.toNat), (6, 33), (2, 0), (3, p.toNat), (5, a.toNat), (5, b.toNat)] 29 hp hf rfl rfl rfl
  have e1 : BitVec.ofNat 4 (x / 2097152) = g := ofNat_field [(2, q.toNat), (4, 0)] g [(6, 33), (2, 0), (3, p.toNat), (5, a.toNat), (5, b.toNat)] 21 hp hf rfl rfl rfl
  have e2 : BitVec.ofNat 3 (x / 1024) = p := ofNat_field [(2, q.toNat), (4, 0), (4, g.toNat), (6, 33), (2, 0)] p [(5, a.toNat), (5, b.toNat)] 10 hp hf rfl rfl rfl
  have e3 : BitVec.ofNat 5 (x / 32) = a := ofNat_field [(2, q.toNat), (4, 0), (4, g.toNat), (6, 33), (2, 0), (3, p.toNat)] a [(5, b.toNat)] 5 hp hf rfl rfl rfl
  have e4 : BitVec.ofNat 5 x = b := ofNat_low [(2, q.toNat), (4, 0), (4, g.toNat), (6, 33), (2, 0), (3, p.toNat), (5, a.toNat)] b hp hf rfl
  refine ⟨pack_bound 31 hp hf rfl, (.cmpEq q g p a b), ?_, rfl, ?_⟩
  · simp only [decodeNat, decodeS, h0, h1, h2, ↓reduceIte]
    rw [e0, e1, e2, e3, e4]
    try rfl
  · rfl

theorem EncodeDecode.cmpNe (q : BitVec 2) (g : BitVec 4) (p : BitVec 3) (a : BitVec 5) (b : BitVec 5) : EncodeDecode.Statement (.cmpNe q g p a b) := by
  intro hwf x hx
  replace hx : 1114112 + q.toNat * 536870912 + g.toNat * 2097152 + p.toNat * 1024 + a.toNat * 32 + b.toNat = x := Option.some.inj hx
  have hp : x = pack [(2, q.toNat), (4, 0), (4, g.toNat), (6, 34), (2, 0), (3, p.toNat), (5, a.toNat), (5, b.toNat)] := by
    rw [pack_cons 2 29 (pack_cons 4 25 (pack_cons 4 21 (pack_cons 6 15 (pack_cons 2 13 (pack_cons 3 10 (pack_cons 5 5 (pack_cons 5 0 pack_nil rfl (rfl : 1 = 2 ^ 0)) rfl (rfl : 32 = 2 ^ 5)) rfl (rfl : 1024 = 2 ^ 10)) rfl (rfl : 8192 = 2 ^ 13)) rfl (rfl : 32768 = 2 ^ 15)) rfl (rfl : 2097152 = 2 ^ 21)) rfl (rfl : 33554432 = 2 ^ 25)) rfl (rfl : 536870912 = 2 ^ 29)]
    omega
  have hf : Fits [(2, q.toNat), (4, 0), (4, g.toNat), (6, 34), (2, 0), (3, p.toNat), (5, a.toNat), (5, b.toNat)] := ⟨q.isLt, by decide, g.isLt, by decide, by decide, p.isLt, a.isLt, b.isLt, trivial⟩
  have h0 : x / 33554432 % 16 = 0 := pack_field [(2, q.toNat)] [(4, 0)] [(4, g.toNat), (6, 34), (2, 0), (3, p.toNat), (5, a.toNat), (5, b.toNat)] 25 4 hp hf rfl rfl rfl rfl rfl rfl
  have h1 : x / 32768 % 64 = 34 := pack_field [(2, q.toNat), (4, 0), (4, g.toNat)] [(6, 34)] [(2, 0), (3, p.toNat), (5, a.toNat), (5, b.toNat)] 15 6 hp hf rfl rfl rfl rfl rfl rfl
  have h2 : x / 8192 % 4 = 0 := pack_field [(2, q.toNat), (4, 0), (4, g.toNat), (6, 34)] [(2, 0)] [(3, p.toNat), (5, a.toNat), (5, b.toNat)] 13 2 hp hf rfl rfl rfl rfl rfl rfl
  have e0 : BitVec.ofNat 2 (x / 536870912) = q := ofNat_field [] q [(4, 0), (4, g.toNat), (6, 34), (2, 0), (3, p.toNat), (5, a.toNat), (5, b.toNat)] 29 hp hf rfl rfl rfl
  have e1 : BitVec.ofNat 4 (x / 2097152) = g := ofNat_field [(2, q.toNat), (4, 0)] g [(6, 34), (2, 0), (3, p.toNat), (5, a.toNat), (5, b.toNat)] 21 hp hf rfl rfl rfl
  have e2 : BitVec.ofNat 3 (x / 1024) = p := ofNat_field [(2, q.toNat), (4, 0), (4, g.toNat), (6, 34), (2, 0)] p [(5, a.toNat), (5, b.toNat)] 10 hp hf rfl rfl rfl
  have e3 : BitVec.ofNat 5 (x / 32) = a := ofNat_field [(2, q.toNat), (4, 0), (4, g.toNat), (6, 34), (2, 0), (3, p.toNat)] a [(5, b.toNat)] 5 hp hf rfl rfl rfl
  have e4 : BitVec.ofNat 5 x = b := ofNat_low [(2, q.toNat), (4, 0), (4, g.toNat), (6, 34), (2, 0), (3, p.toNat), (5, a.toNat)] b hp hf rfl
  refine ⟨pack_bound 31 hp hf rfl, (.cmpNe q g p a b), ?_, rfl, ?_⟩
  · simp only [decodeNat, decodeS, h0, h1, h2, ↓reduceIte]
    rw [e0, e1, e2, e3, e4]
    try rfl
  · rfl

theorem EncodeDecode.cmpLt (q : BitVec 2) (g : BitVec 4) (p : BitVec 3) (a : BitVec 5) (b : BitVec 5) : EncodeDecode.Statement (.cmpLt q g p a b) := by
  intro hwf x hx
  replace hx : 1146880 + q.toNat * 536870912 + g.toNat * 2097152 + p.toNat * 1024 + a.toNat * 32 + b.toNat = x := Option.some.inj hx
  have hp : x = pack [(2, q.toNat), (4, 0), (4, g.toNat), (6, 35), (2, 0), (3, p.toNat), (5, a.toNat), (5, b.toNat)] := by
    rw [pack_cons 2 29 (pack_cons 4 25 (pack_cons 4 21 (pack_cons 6 15 (pack_cons 2 13 (pack_cons 3 10 (pack_cons 5 5 (pack_cons 5 0 pack_nil rfl (rfl : 1 = 2 ^ 0)) rfl (rfl : 32 = 2 ^ 5)) rfl (rfl : 1024 = 2 ^ 10)) rfl (rfl : 8192 = 2 ^ 13)) rfl (rfl : 32768 = 2 ^ 15)) rfl (rfl : 2097152 = 2 ^ 21)) rfl (rfl : 33554432 = 2 ^ 25)) rfl (rfl : 536870912 = 2 ^ 29)]
    omega
  have hf : Fits [(2, q.toNat), (4, 0), (4, g.toNat), (6, 35), (2, 0), (3, p.toNat), (5, a.toNat), (5, b.toNat)] := ⟨q.isLt, by decide, g.isLt, by decide, by decide, p.isLt, a.isLt, b.isLt, trivial⟩
  have h0 : x / 33554432 % 16 = 0 := pack_field [(2, q.toNat)] [(4, 0)] [(4, g.toNat), (6, 35), (2, 0), (3, p.toNat), (5, a.toNat), (5, b.toNat)] 25 4 hp hf rfl rfl rfl rfl rfl rfl
  have h1 : x / 32768 % 64 = 35 := pack_field [(2, q.toNat), (4, 0), (4, g.toNat)] [(6, 35)] [(2, 0), (3, p.toNat), (5, a.toNat), (5, b.toNat)] 15 6 hp hf rfl rfl rfl rfl rfl rfl
  have h2 : x / 8192 % 4 = 0 := pack_field [(2, q.toNat), (4, 0), (4, g.toNat), (6, 35)] [(2, 0)] [(3, p.toNat), (5, a.toNat), (5, b.toNat)] 13 2 hp hf rfl rfl rfl rfl rfl rfl
  have e0 : BitVec.ofNat 2 (x / 536870912) = q := ofNat_field [] q [(4, 0), (4, g.toNat), (6, 35), (2, 0), (3, p.toNat), (5, a.toNat), (5, b.toNat)] 29 hp hf rfl rfl rfl
  have e1 : BitVec.ofNat 4 (x / 2097152) = g := ofNat_field [(2, q.toNat), (4, 0)] g [(6, 35), (2, 0), (3, p.toNat), (5, a.toNat), (5, b.toNat)] 21 hp hf rfl rfl rfl
  have e2 : BitVec.ofNat 3 (x / 1024) = p := ofNat_field [(2, q.toNat), (4, 0), (4, g.toNat), (6, 35), (2, 0)] p [(5, a.toNat), (5, b.toNat)] 10 hp hf rfl rfl rfl
  have e3 : BitVec.ofNat 5 (x / 32) = a := ofNat_field [(2, q.toNat), (4, 0), (4, g.toNat), (6, 35), (2, 0), (3, p.toNat)] a [(5, b.toNat)] 5 hp hf rfl rfl rfl
  have e4 : BitVec.ofNat 5 x = b := ofNat_low [(2, q.toNat), (4, 0), (4, g.toNat), (6, 35), (2, 0), (3, p.toNat), (5, a.toNat)] b hp hf rfl
  refine ⟨pack_bound 31 hp hf rfl, (.cmpLt q g p a b), ?_, rfl, ?_⟩
  · simp only [decodeNat, decodeS, h0, h1, h2, ↓reduceIte]
    rw [e0, e1, e2, e3, e4]
    try rfl
  · rfl

theorem EncodeDecode.cmpGe (q : BitVec 2) (g : BitVec 4) (p : BitVec 3) (a : BitVec 5) (b : BitVec 5) : EncodeDecode.Statement (.cmpGe q g p a b) := by
  intro hwf x hx
  replace hx : 1179648 + q.toNat * 536870912 + g.toNat * 2097152 + p.toNat * 1024 + a.toNat * 32 + b.toNat = x := Option.some.inj hx
  have hp : x = pack [(2, q.toNat), (4, 0), (4, g.toNat), (6, 36), (2, 0), (3, p.toNat), (5, a.toNat), (5, b.toNat)] := by
    rw [pack_cons 2 29 (pack_cons 4 25 (pack_cons 4 21 (pack_cons 6 15 (pack_cons 2 13 (pack_cons 3 10 (pack_cons 5 5 (pack_cons 5 0 pack_nil rfl (rfl : 1 = 2 ^ 0)) rfl (rfl : 32 = 2 ^ 5)) rfl (rfl : 1024 = 2 ^ 10)) rfl (rfl : 8192 = 2 ^ 13)) rfl (rfl : 32768 = 2 ^ 15)) rfl (rfl : 2097152 = 2 ^ 21)) rfl (rfl : 33554432 = 2 ^ 25)) rfl (rfl : 536870912 = 2 ^ 29)]
    omega
  have hf : Fits [(2, q.toNat), (4, 0), (4, g.toNat), (6, 36), (2, 0), (3, p.toNat), (5, a.toNat), (5, b.toNat)] := ⟨q.isLt, by decide, g.isLt, by decide, by decide, p.isLt, a.isLt, b.isLt, trivial⟩
  have h0 : x / 33554432 % 16 = 0 := pack_field [(2, q.toNat)] [(4, 0)] [(4, g.toNat), (6, 36), (2, 0), (3, p.toNat), (5, a.toNat), (5, b.toNat)] 25 4 hp hf rfl rfl rfl rfl rfl rfl
  have h1 : x / 32768 % 64 = 36 := pack_field [(2, q.toNat), (4, 0), (4, g.toNat)] [(6, 36)] [(2, 0), (3, p.toNat), (5, a.toNat), (5, b.toNat)] 15 6 hp hf rfl rfl rfl rfl rfl rfl
  have h2 : x / 8192 % 4 = 0 := pack_field [(2, q.toNat), (4, 0), (4, g.toNat), (6, 36)] [(2, 0)] [(3, p.toNat), (5, a.toNat), (5, b.toNat)] 13 2 hp hf rfl rfl rfl rfl rfl rfl
  have e0 : BitVec.ofNat 2 (x / 536870912) = q := ofNat_field [] q [(4, 0), (4, g.toNat), (6, 36), (2, 0), (3, p.toNat), (5, a.toNat), (5, b.toNat)] 29 hp hf rfl rfl rfl
  have e1 : BitVec.ofNat 4 (x / 2097152) = g := ofNat_field [(2, q.toNat), (4, 0)] g [(6, 36), (2, 0), (3, p.toNat), (5, a.toNat), (5, b.toNat)] 21 hp hf rfl rfl rfl
  have e2 : BitVec.ofNat 3 (x / 1024) = p := ofNat_field [(2, q.toNat), (4, 0), (4, g.toNat), (6, 36), (2, 0)] p [(5, a.toNat), (5, b.toNat)] 10 hp hf rfl rfl rfl
  have e3 : BitVec.ofNat 5 (x / 32) = a := ofNat_field [(2, q.toNat), (4, 0), (4, g.toNat), (6, 36), (2, 0), (3, p.toNat)] a [(5, b.toNat)] 5 hp hf rfl rfl rfl
  have e4 : BitVec.ofNat 5 x = b := ofNat_low [(2, q.toNat), (4, 0), (4, g.toNat), (6, 36), (2, 0), (3, p.toNat), (5, a.toNat)] b hp hf rfl
  refine ⟨pack_bound 31 hp hf rfl, (.cmpGe q g p a b), ?_, rfl, ?_⟩
  · simp only [decodeNat, decodeS, h0, h1, h2, ↓reduceIte]
    rw [e0, e1, e2, e3, e4]
    try rfl
  · rfl

theorem EncodeDecode.cmpLtw (q : BitVec 2) (g : BitVec 4) (p : BitVec 3) (a : BitVec 5) (b : BitVec 5) : EncodeDecode.Statement (.cmpLtw q g p a b) := by
  intro hwf x hx
  replace hx : 1212416 + q.toNat * 536870912 + g.toNat * 2097152 + p.toNat * 1024 + a.toNat * 32 + b.toNat = x := Option.some.inj hx
  have hp : x = pack [(2, q.toNat), (4, 0), (4, g.toNat), (6, 37), (2, 0), (3, p.toNat), (5, a.toNat), (5, b.toNat)] := by
    rw [pack_cons 2 29 (pack_cons 4 25 (pack_cons 4 21 (pack_cons 6 15 (pack_cons 2 13 (pack_cons 3 10 (pack_cons 5 5 (pack_cons 5 0 pack_nil rfl (rfl : 1 = 2 ^ 0)) rfl (rfl : 32 = 2 ^ 5)) rfl (rfl : 1024 = 2 ^ 10)) rfl (rfl : 8192 = 2 ^ 13)) rfl (rfl : 32768 = 2 ^ 15)) rfl (rfl : 2097152 = 2 ^ 21)) rfl (rfl : 33554432 = 2 ^ 25)) rfl (rfl : 536870912 = 2 ^ 29)]
    omega
  have hf : Fits [(2, q.toNat), (4, 0), (4, g.toNat), (6, 37), (2, 0), (3, p.toNat), (5, a.toNat), (5, b.toNat)] := ⟨q.isLt, by decide, g.isLt, by decide, by decide, p.isLt, a.isLt, b.isLt, trivial⟩
  have h0 : x / 33554432 % 16 = 0 := pack_field [(2, q.toNat)] [(4, 0)] [(4, g.toNat), (6, 37), (2, 0), (3, p.toNat), (5, a.toNat), (5, b.toNat)] 25 4 hp hf rfl rfl rfl rfl rfl rfl
  have h1 : x / 32768 % 64 = 37 := pack_field [(2, q.toNat), (4, 0), (4, g.toNat)] [(6, 37)] [(2, 0), (3, p.toNat), (5, a.toNat), (5, b.toNat)] 15 6 hp hf rfl rfl rfl rfl rfl rfl
  have h2 : x / 8192 % 4 = 0 := pack_field [(2, q.toNat), (4, 0), (4, g.toNat), (6, 37)] [(2, 0)] [(3, p.toNat), (5, a.toNat), (5, b.toNat)] 13 2 hp hf rfl rfl rfl rfl rfl rfl
  have e0 : BitVec.ofNat 2 (x / 536870912) = q := ofNat_field [] q [(4, 0), (4, g.toNat), (6, 37), (2, 0), (3, p.toNat), (5, a.toNat), (5, b.toNat)] 29 hp hf rfl rfl rfl
  have e1 : BitVec.ofNat 4 (x / 2097152) = g := ofNat_field [(2, q.toNat), (4, 0)] g [(6, 37), (2, 0), (3, p.toNat), (5, a.toNat), (5, b.toNat)] 21 hp hf rfl rfl rfl
  have e2 : BitVec.ofNat 3 (x / 1024) = p := ofNat_field [(2, q.toNat), (4, 0), (4, g.toNat), (6, 37), (2, 0)] p [(5, a.toNat), (5, b.toNat)] 10 hp hf rfl rfl rfl
  have e3 : BitVec.ofNat 5 (x / 32) = a := ofNat_field [(2, q.toNat), (4, 0), (4, g.toNat), (6, 37), (2, 0), (3, p.toNat)] a [(5, b.toNat)] 5 hp hf rfl rfl rfl
  have e4 : BitVec.ofNat 5 x = b := ofNat_low [(2, q.toNat), (4, 0), (4, g.toNat), (6, 37), (2, 0), (3, p.toNat), (5, a.toNat)] b hp hf rfl
  refine ⟨pack_bound 31 hp hf rfl, (.cmpLtw q g p a b), ?_, rfl, ?_⟩
  · simp only [decodeNat, decodeS, h0, h1, h2, ↓reduceIte]
    rw [e0, e1, e2, e3, e4]
    try rfl
  · rfl

theorem EncodeDecode.cmpGew (q : BitVec 2) (g : BitVec 4) (p : BitVec 3) (a : BitVec 5) (b : BitVec 5) : EncodeDecode.Statement (.cmpGew q g p a b) := by
  intro hwf x hx
  replace hx : 1245184 + q.toNat * 536870912 + g.toNat * 2097152 + p.toNat * 1024 + a.toNat * 32 + b.toNat = x := Option.some.inj hx
  have hp : x = pack [(2, q.toNat), (4, 0), (4, g.toNat), (6, 38), (2, 0), (3, p.toNat), (5, a.toNat), (5, b.toNat)] := by
    rw [pack_cons 2 29 (pack_cons 4 25 (pack_cons 4 21 (pack_cons 6 15 (pack_cons 2 13 (pack_cons 3 10 (pack_cons 5 5 (pack_cons 5 0 pack_nil rfl (rfl : 1 = 2 ^ 0)) rfl (rfl : 32 = 2 ^ 5)) rfl (rfl : 1024 = 2 ^ 10)) rfl (rfl : 8192 = 2 ^ 13)) rfl (rfl : 32768 = 2 ^ 15)) rfl (rfl : 2097152 = 2 ^ 21)) rfl (rfl : 33554432 = 2 ^ 25)) rfl (rfl : 536870912 = 2 ^ 29)]
    omega
  have hf : Fits [(2, q.toNat), (4, 0), (4, g.toNat), (6, 38), (2, 0), (3, p.toNat), (5, a.toNat), (5, b.toNat)] := ⟨q.isLt, by decide, g.isLt, by decide, by decide, p.isLt, a.isLt, b.isLt, trivial⟩
  have h0 : x / 33554432 % 16 = 0 := pack_field [(2, q.toNat)] [(4, 0)] [(4, g.toNat), (6, 38), (2, 0), (3, p.toNat), (5, a.toNat), (5, b.toNat)] 25 4 hp hf rfl rfl rfl rfl rfl rfl
  have h1 : x / 32768 % 64 = 38 := pack_field [(2, q.toNat), (4, 0), (4, g.toNat)] [(6, 38)] [(2, 0), (3, p.toNat), (5, a.toNat), (5, b.toNat)] 15 6 hp hf rfl rfl rfl rfl rfl rfl
  have h2 : x / 8192 % 4 = 0 := pack_field [(2, q.toNat), (4, 0), (4, g.toNat), (6, 38)] [(2, 0)] [(3, p.toNat), (5, a.toNat), (5, b.toNat)] 13 2 hp hf rfl rfl rfl rfl rfl rfl
  have e0 : BitVec.ofNat 2 (x / 536870912) = q := ofNat_field [] q [(4, 0), (4, g.toNat), (6, 38), (2, 0), (3, p.toNat), (5, a.toNat), (5, b.toNat)] 29 hp hf rfl rfl rfl
  have e1 : BitVec.ofNat 4 (x / 2097152) = g := ofNat_field [(2, q.toNat), (4, 0)] g [(6, 38), (2, 0), (3, p.toNat), (5, a.toNat), (5, b.toNat)] 21 hp hf rfl rfl rfl
  have e2 : BitVec.ofNat 3 (x / 1024) = p := ofNat_field [(2, q.toNat), (4, 0), (4, g.toNat), (6, 38), (2, 0)] p [(5, a.toNat), (5, b.toNat)] 10 hp hf rfl rfl rfl
  have e3 : BitVec.ofNat 5 (x / 32) = a := ofNat_field [(2, q.toNat), (4, 0), (4, g.toNat), (6, 38), (2, 0), (3, p.toNat)] a [(5, b.toNat)] 5 hp hf rfl rfl rfl
  have e4 : BitVec.ofNat 5 x = b := ofNat_low [(2, q.toNat), (4, 0), (4, g.toNat), (6, 38), (2, 0), (3, p.toNat), (5, a.toNat)] b hp hf rfl
  refine ⟨pack_bound 31 hp hf rfl, (.cmpGew q g p a b), ?_, rfl, ?_⟩
  · simp only [decodeNat, decodeS, h0, h1, h2, ↓reduceIte]
    rw [e0, e1, e2, e3, e4]
    try rfl
  · rfl

theorem EncodeDecode.addi (q : BitVec 2) (d : BitVec 5) (a : BitVec 5) (i : BitVec 11) (ext : Option (BitVec 25)) : EncodeDecode.Statement (.addi q d a i ext) := by
  intro hwf x hx
  replace hx : 33554432 + q.toNat * 536870912 + d.toNat * 65536 + a.toNat * 2048 + i.toNat = x := Option.some.inj hx
  have hp : x = pack [(2, q.toNat), (4, 1), (4, 0), (5, d.toNat), (5, a.toNat), (11, i.toNat)] := by
    rw [pack_cons 2 29 (pack_cons 4 25 (pack_cons 4 21 (pack_cons 5 16 (pack_cons 5 11 (pack_cons 11 0 pack_nil rfl (rfl : 1 = 2 ^ 0)) rfl (rfl : 2048 = 2 ^ 11)) rfl (rfl : 65536 = 2 ^ 16)) rfl (rfl : 2097152 = 2 ^ 21)) rfl (rfl : 33554432 = 2 ^ 25)) rfl (rfl : 536870912 = 2 ^ 29)]
    omega
  have hf : Fits [(2, q.toNat), (4, 1), (4, 0), (5, d.toNat), (5, a.toNat), (11, i.toNat)] := ⟨q.isLt, by decide, by decide, d.isLt, a.isLt, i.isLt, trivial⟩
  have h0 : x / 33554432 % 16 = 1 := pack_field [(2, q.toNat)] [(4, 1)] [(4, 0), (5, d.toNat), (5, a.toNat), (11, i.toNat)] 25 4 hp hf rfl rfl rfl rfl rfl rfl
  have h1 : x / 2097152 % 16 = 0 := pack_field [(2, q.toNat), (4, 1)] [(4, 0)] [(5, d.toNat), (5, a.toNat), (11, i.toNat)] 21 4 hp hf rfl rfl rfl rfl rfl rfl
  have e0 : BitVec.ofNat 2 (x / 536870912) = q := ofNat_field [] q [(4, 1), (4, 0), (5, d.toNat), (5, a.toNat), (11, i.toNat)] 29 hp hf rfl rfl rfl
  have e1 : BitVec.ofNat 5 (x / 65536) = d := ofNat_field [(2, q.toNat), (4, 1), (4, 0)] d [(5, a.toNat), (11, i.toNat)] 16 hp hf rfl rfl rfl
  have e2 : BitVec.ofNat 5 (x / 2048) = a := ofNat_field [(2, q.toNat), (4, 1), (4, 0), (5, d.toNat)] a [(11, i.toNat)] 11 hp hf rfl rfl rfl
  have e3 : BitVec.ofNat 11 x = i := ofNat_low [(2, q.toNat), (4, 1), (4, 0), (5, d.toNat), (5, a.toNat)] i hp hf rfl
  refine ⟨pack_bound 31 hp hf rfl, (.addi q d a i none), ?_, rfl, ?_⟩
  · simp only [decodeNat, decodeSI, h0, h1, ↓reduceIte]
    rw [e0, e1, e2, e3]
    try rfl
  · cases ext <;> first | rfl

theorem EncodeDecode.li (q : BitVec 2) (d : BitVec 5) (i : BitVec 16) (ext : Option (BitVec 25)) : EncodeDecode.Statement (.li q d i ext) := by
  intro hwf x hx
  replace hx : 35651584 + q.toNat * 536870912 + d.toNat * 65536 + i.toNat = x := Option.some.inj hx
  have hp : x = pack [(2, q.toNat), (4, 1), (4, 1), (5, d.toNat), (16, i.toNat)] := by
    rw [pack_cons 2 29 (pack_cons 4 25 (pack_cons 4 21 (pack_cons 5 16 (pack_cons 16 0 pack_nil rfl (rfl : 1 = 2 ^ 0)) rfl (rfl : 65536 = 2 ^ 16)) rfl (rfl : 2097152 = 2 ^ 21)) rfl (rfl : 33554432 = 2 ^ 25)) rfl (rfl : 536870912 = 2 ^ 29)]
    omega
  have hf : Fits [(2, q.toNat), (4, 1), (4, 1), (5, d.toNat), (16, i.toNat)] := ⟨q.isLt, by decide, by decide, d.isLt, i.isLt, trivial⟩
  have h0 : x / 33554432 % 16 = 1 := pack_field [(2, q.toNat)] [(4, 1)] [(4, 1), (5, d.toNat), (16, i.toNat)] 25 4 hp hf rfl rfl rfl rfl rfl rfl
  have h1 : x / 2097152 % 16 = 1 := pack_field [(2, q.toNat), (4, 1)] [(4, 1)] [(5, d.toNat), (16, i.toNat)] 21 4 hp hf rfl rfl rfl rfl rfl rfl
  have e0 : BitVec.ofNat 2 (x / 536870912) = q := ofNat_field [] q [(4, 1), (4, 1), (5, d.toNat), (16, i.toNat)] 29 hp hf rfl rfl rfl
  have e1 : BitVec.ofNat 5 (x / 65536) = d := ofNat_field [(2, q.toNat), (4, 1), (4, 1)] d [(16, i.toNat)] 16 hp hf rfl rfl rfl
  have e2 : BitVec.ofNat 16 x = i := ofNat_low [(2, q.toNat), (4, 1), (4, 1), (5, d.toNat)] i hp hf rfl
  refine ⟨pack_bound 31 hp hf rfl, (.li q d i none), ?_, rfl, ?_⟩
  · simp only [decodeNat, decodeSI, h0, h1, ↓reduceIte]
    rw [e0, e1, e2]
    try rfl
  · cases ext <;> first | rfl

theorem EncodeDecode.lih (q : BitVec 2) (d : BitVec 5) (i : BitVec 16) (ext : Option (BitVec 25)) : EncodeDecode.Statement (.lih q d i ext) := by
  intro hwf x hx
  replace hx : 37748736 + q.toNat * 536870912 + d.toNat * 65536 + i.toNat = x := Option.some.inj hx
  have hp : x = pack [(2, q.toNat), (4, 1), (4, 2), (5, d.toNat), (16, i.toNat)] := by
    rw [pack_cons 2 29 (pack_cons 4 25 (pack_cons 4 21 (pack_cons 5 16 (pack_cons 16 0 pack_nil rfl (rfl : 1 = 2 ^ 0)) rfl (rfl : 65536 = 2 ^ 16)) rfl (rfl : 2097152 = 2 ^ 21)) rfl (rfl : 33554432 = 2 ^ 25)) rfl (rfl : 536870912 = 2 ^ 29)]
    omega
  have hf : Fits [(2, q.toNat), (4, 1), (4, 2), (5, d.toNat), (16, i.toNat)] := ⟨q.isLt, by decide, by decide, d.isLt, i.isLt, trivial⟩
  have h0 : x / 33554432 % 16 = 1 := pack_field [(2, q.toNat)] [(4, 1)] [(4, 2), (5, d.toNat), (16, i.toNat)] 25 4 hp hf rfl rfl rfl rfl rfl rfl
  have h1 : x / 2097152 % 16 = 2 := pack_field [(2, q.toNat), (4, 1)] [(4, 2)] [(5, d.toNat), (16, i.toNat)] 21 4 hp hf rfl rfl rfl rfl rfl rfl
  have e0 : BitVec.ofNat 2 (x / 536870912) = q := ofNat_field [] q [(4, 1), (4, 2), (5, d.toNat), (16, i.toNat)] 29 hp hf rfl rfl rfl
  have e1 : BitVec.ofNat 5 (x / 65536) = d := ofNat_field [(2, q.toNat), (4, 1), (4, 2)] d [(16, i.toNat)] 16 hp hf rfl rfl rfl
  have e2 : BitVec.ofNat 16 x = i := ofNat_low [(2, q.toNat), (4, 1), (4, 2), (5, d.toNat)] i hp hf rfl
  refine ⟨pack_bound 31 hp hf rfl, (.lih q d i none), ?_, rfl, ?_⟩
  · simp only [decodeNat, decodeSI, h0, h1, ↓reduceIte]
    rw [e0, e1, e2]
    try rfl
  · cases ext <;> first | rfl

theorem EncodeDecode.cmpiEq (q : BitVec 2) (p : BitVec 3) (a : BitVec 5) (i : BitVec 11) (ext : Option (BitVec 25)) : EncodeDecode.Statement (.cmpiEq q p a i ext) := by
  intro hwf x hx
  replace hx : 39845888 + q.toNat * 536870912 + p.toNat * 65536 + a.toNat * 2048 + i.toNat = x := Option.some.inj hx
  have hp : x = pack [(2, q.toNat), (4, 1), (4, 3), (2, 0), (3, p.toNat), (5, a.toNat), (11, i.toNat)] := by
    rw [pack_cons 2 29 (pack_cons 4 25 (pack_cons 4 21 (pack_cons 2 19 (pack_cons 3 16 (pack_cons 5 11 (pack_cons 11 0 pack_nil rfl (rfl : 1 = 2 ^ 0)) rfl (rfl : 2048 = 2 ^ 11)) rfl (rfl : 65536 = 2 ^ 16)) rfl (rfl : 524288 = 2 ^ 19)) rfl (rfl : 2097152 = 2 ^ 21)) rfl (rfl : 33554432 = 2 ^ 25)) rfl (rfl : 536870912 = 2 ^ 29)]
    omega
  have hf : Fits [(2, q.toNat), (4, 1), (4, 3), (2, 0), (3, p.toNat), (5, a.toNat), (11, i.toNat)] := ⟨q.isLt, by decide, by decide, by decide, p.isLt, a.isLt, i.isLt, trivial⟩
  have h0 : x / 33554432 % 16 = 1 := pack_field [(2, q.toNat)] [(4, 1)] [(4, 3), (2, 0), (3, p.toNat), (5, a.toNat), (11, i.toNat)] 25 4 hp hf rfl rfl rfl rfl rfl rfl
  have h1 : x / 2097152 % 16 = 3 := pack_field [(2, q.toNat), (4, 1)] [(4, 3)] [(2, 0), (3, p.toNat), (5, a.toNat), (11, i.toNat)] 21 4 hp hf rfl rfl rfl rfl rfl rfl
  have h2 : x / 524288 % 4 = 0 := pack_field [(2, q.toNat), (4, 1), (4, 3)] [(2, 0)] [(3, p.toNat), (5, a.toNat), (11, i.toNat)] 19 2 hp hf rfl rfl rfl rfl rfl rfl
  have e0 : BitVec.ofNat 2 (x / 536870912) = q := ofNat_field [] q [(4, 1), (4, 3), (2, 0), (3, p.toNat), (5, a.toNat), (11, i.toNat)] 29 hp hf rfl rfl rfl
  have e1 : BitVec.ofNat 3 (x / 65536) = p := ofNat_field [(2, q.toNat), (4, 1), (4, 3), (2, 0)] p [(5, a.toNat), (11, i.toNat)] 16 hp hf rfl rfl rfl
  have e2 : BitVec.ofNat 5 (x / 2048) = a := ofNat_field [(2, q.toNat), (4, 1), (4, 3), (2, 0), (3, p.toNat)] a [(11, i.toNat)] 11 hp hf rfl rfl rfl
  have e3 : BitVec.ofNat 11 x = i := ofNat_low [(2, q.toNat), (4, 1), (4, 3), (2, 0), (3, p.toNat), (5, a.toNat)] i hp hf rfl
  refine ⟨pack_bound 31 hp hf rfl, (.cmpiEq q p a i none), ?_, rfl, ?_⟩
  · simp only [decodeNat, decodeSI, h0, h1, h2, ↓reduceIte]
    rw [e0, e1, e2, e3]
    try rfl
  · cases ext <;> first | rfl

theorem EncodeDecode.cmpiNe (q : BitVec 2) (p : BitVec 3) (a : BitVec 5) (i : BitVec 11) (ext : Option (BitVec 25)) : EncodeDecode.Statement (.cmpiNe q p a i ext) := by
  intro hwf x hx
  replace hx : 41943040 + q.toNat * 536870912 + p.toNat * 65536 + a.toNat * 2048 + i.toNat = x := Option.some.inj hx
  have hp : x = pack [(2, q.toNat), (4, 1), (4, 4), (2, 0), (3, p.toNat), (5, a.toNat), (11, i.toNat)] := by
    rw [pack_cons 2 29 (pack_cons 4 25 (pack_cons 4 21 (pack_cons 2 19 (pack_cons 3 16 (pack_cons 5 11 (pack_cons 11 0 pack_nil rfl (rfl : 1 = 2 ^ 0)) rfl (rfl : 2048 = 2 ^ 11)) rfl (rfl : 65536 = 2 ^ 16)) rfl (rfl : 524288 = 2 ^ 19)) rfl (rfl : 2097152 = 2 ^ 21)) rfl (rfl : 33554432 = 2 ^ 25)) rfl (rfl : 536870912 = 2 ^ 29)]
    omega
  have hf : Fits [(2, q.toNat), (4, 1), (4, 4), (2, 0), (3, p.toNat), (5, a.toNat), (11, i.toNat)] := ⟨q.isLt, by decide, by decide, by decide, p.isLt, a.isLt, i.isLt, trivial⟩
  have h0 : x / 33554432 % 16 = 1 := pack_field [(2, q.toNat)] [(4, 1)] [(4, 4), (2, 0), (3, p.toNat), (5, a.toNat), (11, i.toNat)] 25 4 hp hf rfl rfl rfl rfl rfl rfl
  have h1 : x / 2097152 % 16 = 4 := pack_field [(2, q.toNat), (4, 1)] [(4, 4)] [(2, 0), (3, p.toNat), (5, a.toNat), (11, i.toNat)] 21 4 hp hf rfl rfl rfl rfl rfl rfl
  have h2 : x / 524288 % 4 = 0 := pack_field [(2, q.toNat), (4, 1), (4, 4)] [(2, 0)] [(3, p.toNat), (5, a.toNat), (11, i.toNat)] 19 2 hp hf rfl rfl rfl rfl rfl rfl
  have e0 : BitVec.ofNat 2 (x / 536870912) = q := ofNat_field [] q [(4, 1), (4, 4), (2, 0), (3, p.toNat), (5, a.toNat), (11, i.toNat)] 29 hp hf rfl rfl rfl
  have e1 : BitVec.ofNat 3 (x / 65536) = p := ofNat_field [(2, q.toNat), (4, 1), (4, 4), (2, 0)] p [(5, a.toNat), (11, i.toNat)] 16 hp hf rfl rfl rfl
  have e2 : BitVec.ofNat 5 (x / 2048) = a := ofNat_field [(2, q.toNat), (4, 1), (4, 4), (2, 0), (3, p.toNat)] a [(11, i.toNat)] 11 hp hf rfl rfl rfl
  have e3 : BitVec.ofNat 11 x = i := ofNat_low [(2, q.toNat), (4, 1), (4, 4), (2, 0), (3, p.toNat), (5, a.toNat)] i hp hf rfl
  refine ⟨pack_bound 31 hp hf rfl, (.cmpiNe q p a i none), ?_, rfl, ?_⟩
  · simp only [decodeNat, decodeSI, h0, h1, h2, ↓reduceIte]
    rw [e0, e1, e2, e3]
    try rfl
  · cases ext <;> first | rfl

theorem EncodeDecode.cmpiLt (q : BitVec 2) (p : BitVec 3) (a : BitVec 5) (i : BitVec 11) (ext : Option (BitVec 25)) : EncodeDecode.Statement (.cmpiLt q p a i ext) := by
  intro hwf x hx
  replace hx : 44040192 + q.toNat * 536870912 + p.toNat * 65536 + a.toNat * 2048 + i.toNat = x := Option.some.inj hx
  have hp : x = pack [(2, q.toNat), (4, 1), (4, 5), (2, 0), (3, p.toNat), (5, a.toNat), (11, i.toNat)] := by
    rw [pack_cons 2 29 (pack_cons 4 25 (pack_cons 4 21 (pack_cons 2 19 (pack_cons 3 16 (pack_cons 5 11 (pack_cons 11 0 pack_nil rfl (rfl : 1 = 2 ^ 0)) rfl (rfl : 2048 = 2 ^ 11)) rfl (rfl : 65536 = 2 ^ 16)) rfl (rfl : 524288 = 2 ^ 19)) rfl (rfl : 2097152 = 2 ^ 21)) rfl (rfl : 33554432 = 2 ^ 25)) rfl (rfl : 536870912 = 2 ^ 29)]
    omega
  have hf : Fits [(2, q.toNat), (4, 1), (4, 5), (2, 0), (3, p.toNat), (5, a.toNat), (11, i.toNat)] := ⟨q.isLt, by decide, by decide, by decide, p.isLt, a.isLt, i.isLt, trivial⟩
  have h0 : x / 33554432 % 16 = 1 := pack_field [(2, q.toNat)] [(4, 1)] [(4, 5), (2, 0), (3, p.toNat), (5, a.toNat), (11, i.toNat)] 25 4 hp hf rfl rfl rfl rfl rfl rfl
  have h1 : x / 2097152 % 16 = 5 := pack_field [(2, q.toNat), (4, 1)] [(4, 5)] [(2, 0), (3, p.toNat), (5, a.toNat), (11, i.toNat)] 21 4 hp hf rfl rfl rfl rfl rfl rfl
  have h2 : x / 524288 % 4 = 0 := pack_field [(2, q.toNat), (4, 1), (4, 5)] [(2, 0)] [(3, p.toNat), (5, a.toNat), (11, i.toNat)] 19 2 hp hf rfl rfl rfl rfl rfl rfl
  have e0 : BitVec.ofNat 2 (x / 536870912) = q := ofNat_field [] q [(4, 1), (4, 5), (2, 0), (3, p.toNat), (5, a.toNat), (11, i.toNat)] 29 hp hf rfl rfl rfl
  have e1 : BitVec.ofNat 3 (x / 65536) = p := ofNat_field [(2, q.toNat), (4, 1), (4, 5), (2, 0)] p [(5, a.toNat), (11, i.toNat)] 16 hp hf rfl rfl rfl
  have e2 : BitVec.ofNat 5 (x / 2048) = a := ofNat_field [(2, q.toNat), (4, 1), (4, 5), (2, 0), (3, p.toNat)] a [(11, i.toNat)] 11 hp hf rfl rfl rfl
  have e3 : BitVec.ofNat 11 x = i := ofNat_low [(2, q.toNat), (4, 1), (4, 5), (2, 0), (3, p.toNat), (5, a.toNat)] i hp hf rfl
  refine ⟨pack_bound 31 hp hf rfl, (.cmpiLt q p a i none), ?_, rfl, ?_⟩
  · simp only [decodeNat, decodeSI, h0, h1, h2, ↓reduceIte]
    rw [e0, e1, e2, e3]
    try rfl
  · cases ext <;> first | rfl

theorem EncodeDecode.cmpiGe (q : BitVec 2) (p : BitVec 3) (a : BitVec 5) (i : BitVec 11) (ext : Option (BitVec 25)) : EncodeDecode.Statement (.cmpiGe q p a i ext) := by
  intro hwf x hx
  replace hx : 46137344 + q.toNat * 536870912 + p.toNat * 65536 + a.toNat * 2048 + i.toNat = x := Option.some.inj hx
  have hp : x = pack [(2, q.toNat), (4, 1), (4, 6), (2, 0), (3, p.toNat), (5, a.toNat), (11, i.toNat)] := by
    rw [pack_cons 2 29 (pack_cons 4 25 (pack_cons 4 21 (pack_cons 2 19 (pack_cons 3 16 (pack_cons 5 11 (pack_cons 11 0 pack_nil rfl (rfl : 1 = 2 ^ 0)) rfl (rfl : 2048 = 2 ^ 11)) rfl (rfl : 65536 = 2 ^ 16)) rfl (rfl : 524288 = 2 ^ 19)) rfl (rfl : 2097152 = 2 ^ 21)) rfl (rfl : 33554432 = 2 ^ 25)) rfl (rfl : 536870912 = 2 ^ 29)]
    omega
  have hf : Fits [(2, q.toNat), (4, 1), (4, 6), (2, 0), (3, p.toNat), (5, a.toNat), (11, i.toNat)] := ⟨q.isLt, by decide, by decide, by decide, p.isLt, a.isLt, i.isLt, trivial⟩
  have h0 : x / 33554432 % 16 = 1 := pack_field [(2, q.toNat)] [(4, 1)] [(4, 6), (2, 0), (3, p.toNat), (5, a.toNat), (11, i.toNat)] 25 4 hp hf rfl rfl rfl rfl rfl rfl
  have h1 : x / 2097152 % 16 = 6 := pack_field [(2, q.toNat), (4, 1)] [(4, 6)] [(2, 0), (3, p.toNat), (5, a.toNat), (11, i.toNat)] 21 4 hp hf rfl rfl rfl rfl rfl rfl
  have h2 : x / 524288 % 4 = 0 := pack_field [(2, q.toNat), (4, 1), (4, 6)] [(2, 0)] [(3, p.toNat), (5, a.toNat), (11, i.toNat)] 19 2 hp hf rfl rfl rfl rfl rfl rfl
  have e0 : BitVec.ofNat 2 (x / 536870912) = q := ofNat_field [] q [(4, 1), (4, 6), (2, 0), (3, p.toNat), (5, a.toNat), (11, i.toNat)] 29 hp hf rfl rfl rfl
  have e1 : BitVec.ofNat 3 (x / 65536) = p := ofNat_field [(2, q.toNat), (4, 1), (4, 6), (2, 0)] p [(5, a.toNat), (11, i.toNat)] 16 hp hf rfl rfl rfl
  have e2 : BitVec.ofNat 5 (x / 2048) = a := ofNat_field [(2, q.toNat), (4, 1), (4, 6), (2, 0), (3, p.toNat)] a [(11, i.toNat)] 11 hp hf rfl rfl rfl
  have e3 : BitVec.ofNat 11 x = i := ofNat_low [(2, q.toNat), (4, 1), (4, 6), (2, 0), (3, p.toNat), (5, a.toNat)] i hp hf rfl
  refine ⟨pack_bound 31 hp hf rfl, (.cmpiGe q p a i none), ?_, rfl, ?_⟩
  · simp only [decodeNat, decodeSI, h0, h1, h2, ↓reduceIte]
    rw [e0, e1, e2, e3]
    try rfl
  · cases ext <;> first | rfl

theorem EncodeDecode.cmpiLtw (q : BitVec 2) (p : BitVec 3) (a : BitVec 5) (i : BitVec 11) (ext : Option (BitVec 25)) : EncodeDecode.Statement (.cmpiLtw q p a i ext) := by
  intro hwf x hx
  replace hx : 48234496 + q.toNat * 536870912 + p.toNat * 65536 + a.toNat * 2048 + i.toNat = x := Option.some.inj hx
  have hp : x = pack [(2, q.toNat), (4, 1), (4, 7), (2, 0), (3, p.toNat), (5, a.toNat), (11, i.toNat)] := by
    rw [pack_cons 2 29 (pack_cons 4 25 (pack_cons 4 21 (pack_cons 2 19 (pack_cons 3 16 (pack_cons 5 11 (pack_cons 11 0 pack_nil rfl (rfl : 1 = 2 ^ 0)) rfl (rfl : 2048 = 2 ^ 11)) rfl (rfl : 65536 = 2 ^ 16)) rfl (rfl : 524288 = 2 ^ 19)) rfl (rfl : 2097152 = 2 ^ 21)) rfl (rfl : 33554432 = 2 ^ 25)) rfl (rfl : 536870912 = 2 ^ 29)]
    omega
  have hf : Fits [(2, q.toNat), (4, 1), (4, 7), (2, 0), (3, p.toNat), (5, a.toNat), (11, i.toNat)] := ⟨q.isLt, by decide, by decide, by decide, p.isLt, a.isLt, i.isLt, trivial⟩
  have h0 : x / 33554432 % 16 = 1 := pack_field [(2, q.toNat)] [(4, 1)] [(4, 7), (2, 0), (3, p.toNat), (5, a.toNat), (11, i.toNat)] 25 4 hp hf rfl rfl rfl rfl rfl rfl
  have h1 : x / 2097152 % 16 = 7 := pack_field [(2, q.toNat), (4, 1)] [(4, 7)] [(2, 0), (3, p.toNat), (5, a.toNat), (11, i.toNat)] 21 4 hp hf rfl rfl rfl rfl rfl rfl
  have h2 : x / 524288 % 4 = 0 := pack_field [(2, q.toNat), (4, 1), (4, 7)] [(2, 0)] [(3, p.toNat), (5, a.toNat), (11, i.toNat)] 19 2 hp hf rfl rfl rfl rfl rfl rfl
  have e0 : BitVec.ofNat 2 (x / 536870912) = q := ofNat_field [] q [(4, 1), (4, 7), (2, 0), (3, p.toNat), (5, a.toNat), (11, i.toNat)] 29 hp hf rfl rfl rfl
  have e1 : BitVec.ofNat 3 (x / 65536) = p := ofNat_field [(2, q.toNat), (4, 1), (4, 7), (2, 0)] p [(5, a.toNat), (11, i.toNat)] 16 hp hf rfl rfl rfl
  have e2 : BitVec.ofNat 5 (x / 2048) = a := ofNat_field [(2, q.toNat), (4, 1), (4, 7), (2, 0), (3, p.toNat)] a [(11, i.toNat)] 11 hp hf rfl rfl rfl
  have e3 : BitVec.ofNat 11 x = i := ofNat_low [(2, q.toNat), (4, 1), (4, 7), (2, 0), (3, p.toNat), (5, a.toNat)] i hp hf rfl
  refine ⟨pack_bound 31 hp hf rfl, (.cmpiLtw q p a i none), ?_, rfl, ?_⟩
  · simp only [decodeNat, decodeSI, h0, h1, h2, ↓reduceIte]
    rw [e0, e1, e2, e3]
    try rfl
  · cases ext <;> first | rfl

theorem EncodeDecode.cmpiGew (q : BitVec 2) (p : BitVec 3) (a : BitVec 5) (i : BitVec 11) (ext : Option (BitVec 25)) : EncodeDecode.Statement (.cmpiGew q p a i ext) := by
  intro hwf x hx
  replace hx : 50331648 + q.toNat * 536870912 + p.toNat * 65536 + a.toNat * 2048 + i.toNat = x := Option.some.inj hx
  have hp : x = pack [(2, q.toNat), (4, 1), (4, 8), (2, 0), (3, p.toNat), (5, a.toNat), (11, i.toNat)] := by
    rw [pack_cons 2 29 (pack_cons 4 25 (pack_cons 4 21 (pack_cons 2 19 (pack_cons 3 16 (pack_cons 5 11 (pack_cons 11 0 pack_nil rfl (rfl : 1 = 2 ^ 0)) rfl (rfl : 2048 = 2 ^ 11)) rfl (rfl : 65536 = 2 ^ 16)) rfl (rfl : 524288 = 2 ^ 19)) rfl (rfl : 2097152 = 2 ^ 21)) rfl (rfl : 33554432 = 2 ^ 25)) rfl (rfl : 536870912 = 2 ^ 29)]
    omega
  have hf : Fits [(2, q.toNat), (4, 1), (4, 8), (2, 0), (3, p.toNat), (5, a.toNat), (11, i.toNat)] := ⟨q.isLt, by decide, by decide, by decide, p.isLt, a.isLt, i.isLt, trivial⟩
  have h0 : x / 33554432 % 16 = 1 := pack_field [(2, q.toNat)] [(4, 1)] [(4, 8), (2, 0), (3, p.toNat), (5, a.toNat), (11, i.toNat)] 25 4 hp hf rfl rfl rfl rfl rfl rfl
  have h1 : x / 2097152 % 16 = 8 := pack_field [(2, q.toNat), (4, 1)] [(4, 8)] [(2, 0), (3, p.toNat), (5, a.toNat), (11, i.toNat)] 21 4 hp hf rfl rfl rfl rfl rfl rfl
  have h2 : x / 524288 % 4 = 0 := pack_field [(2, q.toNat), (4, 1), (4, 8)] [(2, 0)] [(3, p.toNat), (5, a.toNat), (11, i.toNat)] 19 2 hp hf rfl rfl rfl rfl rfl rfl
  have e0 : BitVec.ofNat 2 (x / 536870912) = q := ofNat_field [] q [(4, 1), (4, 8), (2, 0), (3, p.toNat), (5, a.toNat), (11, i.toNat)] 29 hp hf rfl rfl rfl
  have e1 : BitVec.ofNat 3 (x / 65536) = p := ofNat_field [(2, q.toNat), (4, 1), (4, 8), (2, 0)] p [(5, a.toNat), (11, i.toNat)] 16 hp hf rfl rfl rfl
  have e2 : BitVec.ofNat 5 (x / 2048) = a := ofNat_field [(2, q.toNat), (4, 1), (4, 8), (2, 0), (3, p.toNat)] a [(11, i.toNat)] 11 hp hf rfl rfl rfl
  have e3 : BitVec.ofNat 11 x = i := ofNat_low [(2, q.toNat), (4, 1), (4, 8), (2, 0), (3, p.toNat), (5, a.toNat)] i hp hf rfl
  refine ⟨pack_bound 31 hp hf rfl, (.cmpiGew q p a i none), ?_, rfl, ?_⟩
  · simp only [decodeNat, decodeSI, h0, h1, h2, ↓reduceIte]
    rw [e0, e1, e2, e3]
    try rfl
  · cases ext <;> first | rfl

theorem EncodeDecode.brRel (q : BitVec 2) (g : BitVec 4) (k : BitVec 16) (ext : Option (BitVec 25)) : EncodeDecode.Statement (.brRel q g k ext) := by
  intro hwf x hx
  replace hx : 67108864 + q.toNat * 536870912 + g.toNat * 2097152 + k.toNat = x := Option.some.inj hx
  have hp : x = pack [(2, q.toNat), (4, 2), (4, g.toNat), (4, 0), (1, 0), (16, k.toNat)] := by
    rw [pack_cons 2 29 (pack_cons 4 25 (pack_cons 4 21 (pack_cons 4 17 (pack_cons 1 16 (pack_cons 16 0 pack_nil rfl (rfl : 1 = 2 ^ 0)) rfl (rfl : 65536 = 2 ^ 16)) rfl (rfl : 131072 = 2 ^ 17)) rfl (rfl : 2097152 = 2 ^ 21)) rfl (rfl : 33554432 = 2 ^ 25)) rfl (rfl : 536870912 = 2 ^ 29)]
    omega
  have hf : Fits [(2, q.toNat), (4, 2), (4, g.toNat), (4, 0), (1, 0), (16, k.toNat)] := ⟨q.isLt, by decide, g.isLt, by decide, by decide, k.isLt, trivial⟩
  have h0 : x / 33554432 % 16 = 2 := pack_field [(2, q.toNat)] [(4, 2)] [(4, g.toNat), (4, 0), (1, 0), (16, k.toNat)] 25 4 hp hf rfl rfl rfl rfl rfl rfl
  have h1 : x / 131072 % 16 = 0 := pack_field [(2, q.toNat), (4, 2), (4, g.toNat)] [(4, 0)] [(1, 0), (16, k.toNat)] 17 4 hp hf rfl rfl rfl rfl rfl rfl
  have h2 : x / 65536 % 2 = 0 := pack_field [(2, q.toNat), (4, 2), (4, g.toNat), (4, 0)] [(1, 0)] [(16, k.toNat)] 16 1 hp hf rfl rfl rfl rfl rfl rfl
  have e0 : BitVec.ofNat 2 (x / 536870912) = q := ofNat_field [] q [(4, 2), (4, g.toNat), (4, 0), (1, 0), (16, k.toNat)] 29 hp hf rfl rfl rfl
  have e1 : BitVec.ofNat 4 (x / 2097152) = g := ofNat_field [(2, q.toNat), (4, 2)] g [(4, 0), (1, 0), (16, k.toNat)] 21 hp hf rfl rfl rfl
  have e2 : BitVec.ofNat 16 x = k := ofNat_low [(2, q.toNat), (4, 2), (4, g.toNat), (4, 0), (1, 0)] k hp hf rfl
  refine ⟨pack_bound 31 hp hf rfl, (.brRel q g k none), ?_, rfl, ?_⟩
  · simp only [decodeNat, decodeB, h0, h1, h2, ↓reduceIte]
    rw [e0, e1, e2]
    try rfl
  · cases ext <;> first | rfl

theorem EncodeDecode.brAbs (q : BitVec 2) (g : BitVec 4) (i : BitVec 16) (ext : Option (BitVec 25)) : EncodeDecode.Statement (.brAbs q g i ext) := by
  intro hwf x hx
  replace hx : 67174400 + q.toNat * 536870912 + g.toNat * 2097152 + i.toNat = x := Option.some.inj hx
  have hp : x = pack [(2, q.toNat), (4, 2), (4, g.toNat), (4, 0), (1, 1), (16, i.toNat)] := by
    rw [pack_cons 2 29 (pack_cons 4 25 (pack_cons 4 21 (pack_cons 4 17 (pack_cons 1 16 (pack_cons 16 0 pack_nil rfl (rfl : 1 = 2 ^ 0)) rfl (rfl : 65536 = 2 ^ 16)) rfl (rfl : 131072 = 2 ^ 17)) rfl (rfl : 2097152 = 2 ^ 21)) rfl (rfl : 33554432 = 2 ^ 25)) rfl (rfl : 536870912 = 2 ^ 29)]
    omega
  have hf : Fits [(2, q.toNat), (4, 2), (4, g.toNat), (4, 0), (1, 1), (16, i.toNat)] := ⟨q.isLt, by decide, g.isLt, by decide, by decide, i.isLt, trivial⟩
  have h0 : x / 33554432 % 16 = 2 := pack_field [(2, q.toNat)] [(4, 2)] [(4, g.toNat), (4, 0), (1, 1), (16, i.toNat)] 25 4 hp hf rfl rfl rfl rfl rfl rfl
  have h1 : x / 131072 % 16 = 0 := pack_field [(2, q.toNat), (4, 2), (4, g.toNat)] [(4, 0)] [(1, 1), (16, i.toNat)] 17 4 hp hf rfl rfl rfl rfl rfl rfl
  have h2 : x / 65536 % 2 = 1 := pack_field [(2, q.toNat), (4, 2), (4, g.toNat), (4, 0)] [(1, 1)] [(16, i.toNat)] 16 1 hp hf rfl rfl rfl rfl rfl rfl
  have e0 : BitVec.ofNat 2 (x / 536870912) = q := ofNat_field [] q [(4, 2), (4, g.toNat), (4, 0), (1, 1), (16, i.toNat)] 29 hp hf rfl rfl rfl
  have e1 : BitVec.ofNat 4 (x / 2097152) = g := ofNat_field [(2, q.toNat), (4, 2)] g [(4, 0), (1, 1), (16, i.toNat)] 21 hp hf rfl rfl rfl
  have e2 : BitVec.ofNat 16 x = i := ofNat_low [(2, q.toNat), (4, 2), (4, g.toNat), (4, 0), (1, 1)] i hp hf rfl
  refine ⟨pack_bound 31 hp hf rfl, (.brAbs q g i none), ?_, rfl, ?_⟩
  · simp only [decodeNat, decodeB, h0, h1, h2, ↓reduceIte]
    rw [e0, e1, e2]
    try rfl
  · cases ext <;> first | rfl

theorem EncodeDecode.callRel (q : BitVec 2) (g : BitVec 4) (k : BitVec 16) (ext : Option (BitVec 25)) : EncodeDecode.Statement (.callRel q g k ext) := by
  intro hwf x hx
  replace hx : 67502080 + q.toNat * 536870912 + g.toNat * 2097152 + k.toNat = x := Option.some.inj hx
  have hp : x = pack [(2, q.toNat), (4, 2), (4, g.toNat), (4, 3), (1, 0), (16, k.toNat)] := by
    rw [pack_cons 2 29 (pack_cons 4 25 (pack_cons 4 21 (pack_cons 4 17 (pack_cons 1 16 (pack_cons 16 0 pack_nil rfl (rfl : 1 = 2 ^ 0)) rfl (rfl : 65536 = 2 ^ 16)) rfl (rfl : 131072 = 2 ^ 17)) rfl (rfl : 2097152 = 2 ^ 21)) rfl (rfl : 33554432 = 2 ^ 25)) rfl (rfl : 536870912 = 2 ^ 29)]
    omega
  have hf : Fits [(2, q.toNat), (4, 2), (4, g.toNat), (4, 3), (1, 0), (16, k.toNat)] := ⟨q.isLt, by decide, g.isLt, by decide, by decide, k.isLt, trivial⟩
  have h0 : x / 33554432 % 16 = 2 := pack_field [(2, q.toNat)] [(4, 2)] [(4, g.toNat), (4, 3), (1, 0), (16, k.toNat)] 25 4 hp hf rfl rfl rfl rfl rfl rfl
  have h1 : x / 131072 % 16 = 3 := pack_field [(2, q.toNat), (4, 2), (4, g.toNat)] [(4, 3)] [(1, 0), (16, k.toNat)] 17 4 hp hf rfl rfl rfl rfl rfl rfl
  have h2 : x / 65536 % 2 = 0 := pack_field [(2, q.toNat), (4, 2), (4, g.toNat), (4, 3)] [(1, 0)] [(16, k.toNat)] 16 1 hp hf rfl rfl rfl rfl rfl rfl
  have e0 : BitVec.ofNat 2 (x / 536870912) = q := ofNat_field [] q [(4, 2), (4, g.toNat), (4, 3), (1, 0), (16, k.toNat)] 29 hp hf rfl rfl rfl
  have e1 : BitVec.ofNat 4 (x / 2097152) = g := ofNat_field [(2, q.toNat), (4, 2)] g [(4, 3), (1, 0), (16, k.toNat)] 21 hp hf rfl rfl rfl
  have e2 : BitVec.ofNat 16 x = k := ofNat_low [(2, q.toNat), (4, 2), (4, g.toNat), (4, 3), (1, 0)] k hp hf rfl
  refine ⟨pack_bound 31 hp hf rfl, (.callRel q g k none), ?_, rfl, ?_⟩
  · simp only [decodeNat, decodeB, h0, h1, h2, ↓reduceIte]
    rw [e0, e1, e2]
    try rfl
  · cases ext <;> first | rfl

theorem EncodeDecode.callAbs (q : BitVec 2) (g : BitVec 4) (i : BitVec 16) (ext : Option (BitVec 25)) : EncodeDecode.Statement (.callAbs q g i ext) := by
  intro hwf x hx
  replace hx : 67567616 + q.toNat * 536870912 + g.toNat * 2097152 + i.toNat = x := Option.some.inj hx
  have hp : x = pack [(2, q.toNat), (4, 2), (4, g.toNat), (4, 3), (1, 1), (16, i.toNat)] := by
    rw [pack_cons 2 29 (pack_cons 4 25 (pack_cons 4 21 (pack_cons 4 17 (pack_cons 1 16 (pack_cons 16 0 pack_nil rfl (rfl : 1 = 2 ^ 0)) rfl (rfl : 65536 = 2 ^ 16)) rfl (rfl : 131072 = 2 ^ 17)) rfl (rfl : 2097152 = 2 ^ 21)) rfl (rfl : 33554432 = 2 ^ 25)) rfl (rfl : 536870912 = 2 ^ 29)]
    omega
  have hf : Fits [(2, q.toNat), (4, 2), (4, g.toNat), (4, 3), (1, 1), (16, i.toNat)] := ⟨q.isLt, by decide, g.isLt, by decide, by decide, i.isLt, trivial⟩
  have h0 : x / 33554432 % 16 = 2 := pack_field [(2, q.toNat)] [(4, 2)] [(4, g.toNat), (4, 3), (1, 1), (16, i.toNat)] 25 4 hp hf rfl rfl rfl rfl rfl rfl
  have h1 : x / 131072 % 16 = 3 := pack_field [(2, q.toNat), (4, 2), (4, g.toNat)] [(4, 3)] [(1, 1), (16, i.toNat)] 17 4 hp hf rfl rfl rfl rfl rfl rfl
  have h2 : x / 65536 % 2 = 1 := pack_field [(2, q.toNat), (4, 2), (4, g.toNat), (4, 3)] [(1, 1)] [(16, i.toNat)] 16 1 hp hf rfl rfl rfl rfl rfl rfl
  have e0 : BitVec.ofNat 2 (x / 536870912) = q := ofNat_field [] q [(4, 2), (4, g.toNat), (4, 3), (1, 1), (16, i.toNat)] 29 hp hf rfl rfl rfl
  have e1 : BitVec.ofNat 4 (x / 2097152) = g := ofNat_field [(2, q.toNat), (4, 2)] g [(4, 3), (1, 1), (16, i.toNat)] 21 hp hf rfl rfl rfl
  have e2 : BitVec.ofNat 16 x = i := ofNat_low [(2, q.toNat), (4, 2), (4, g.toNat), (4, 3), (1, 1)] i hp hf rfl
  refine ⟨pack_bound 31 hp hf rfl, (.callAbs q g i none), ?_, rfl, ?_⟩
  · simp only [decodeNat, decodeB, h0, h1, h2, ↓reduceIte]
    rw [e0, e1, e2]
    try rfl
  · cases ext <;> first | rfl

theorem EncodeDecode.ret (q : BitVec 2) (g : BitVec 4) (a : BitVec 5) : EncodeDecode.Statement (.ret q g a) := by
  intro hwf x hx
  replace hx : 67633152 + q.toNat * 536870912 + g.toNat * 2097152 + a.toNat = x := Option.some.inj hx
  have hp : x = pack [(2, q.toNat), (4, 2), (4, g.toNat), (4, 4), (12, 0), (5, a.toNat)] := by
    rw [pack_cons 2 29 (pack_cons 4 25 (pack_cons 4 21 (pack_cons 4 17 (pack_cons 12 5 (pack_cons 5 0 pack_nil rfl (rfl : 1 = 2 ^ 0)) rfl (rfl : 32 = 2 ^ 5)) rfl (rfl : 131072 = 2 ^ 17)) rfl (rfl : 2097152 = 2 ^ 21)) rfl (rfl : 33554432 = 2 ^ 25)) rfl (rfl : 536870912 = 2 ^ 29)]
    omega
  have hf : Fits [(2, q.toNat), (4, 2), (4, g.toNat), (4, 4), (12, 0), (5, a.toNat)] := ⟨q.isLt, by decide, g.isLt, by decide, by decide, a.isLt, trivial⟩
  have h0 : x / 33554432 % 16 = 2 := pack_field [(2, q.toNat)] [(4, 2)] [(4, g.toNat), (4, 4), (12, 0), (5, a.toNat)] 25 4 hp hf rfl rfl rfl rfl rfl rfl
  have h1 : x / 131072 % 16 = 4 := pack_field [(2, q.toNat), (4, 2), (4, g.toNat)] [(4, 4)] [(12, 0), (5, a.toNat)] 17 4 hp hf rfl rfl rfl rfl rfl rfl
  have h2 : x / 32 % 4096 = 0 := pack_field [(2, q.toNat), (4, 2), (4, g.toNat), (4, 4)] [(12, 0)] [(5, a.toNat)] 5 12 hp hf rfl rfl rfl rfl rfl rfl
  have e0 : BitVec.ofNat 2 (x / 536870912) = q := ofNat_field [] q [(4, 2), (4, g.toNat), (4, 4), (12, 0), (5, a.toNat)] 29 hp hf rfl rfl rfl
  have e1 : BitVec.ofNat 4 (x / 2097152) = g := ofNat_field [(2, q.toNat), (4, 2)] g [(4, 4), (12, 0), (5, a.toNat)] 21 hp hf rfl rfl rfl
  have e2 : BitVec.ofNat 5 x = a := ofNat_low [(2, q.toNat), (4, 2), (4, g.toNat), (4, 4), (12, 0)] a hp hf rfl
  refine ⟨pack_bound 31 hp hf rfl, (.ret q g a), ?_, rfl, ?_⟩
  · simp only [decodeNat, decodeB, h0, h1, h2, ↓reduceIte]
    rw [e0, e1, e2]
    try rfl
  · rfl

theorem EncodeDecode.brc (q : BitVec 2) (g : BitVec 4) (x0 : BitVec 3) (a : BitVec 5) (k : BitVec 9) (ext : Option (BitVec 25)) : EncodeDecode.Statement (.brc q g x0 a k ext) := by
  intro hwf x hx
  replace hx : 67239936 + q.toNat * 536870912 + g.toNat * 2097152 + x0.toNat * 16384 + a.toNat * 512 + k.toNat = x := Option.some.inj hx
  have hp : x = pack [(2, q.toNat), (4, 2), (4, g.toNat), (4, 1), (3, x0.toNat), (5, a.toNat), (9, k.toNat)] := by
    rw [pack_cons 2 29 (pack_cons 4 25 (pack_cons 4 21 (pack_cons 4 17 (pack_cons 3 14 (pack_cons 5 9 (pack_cons 9 0 pack_nil rfl (rfl : 1 = 2 ^ 0)) rfl (rfl : 512 = 2 ^ 9)) rfl (rfl : 16384 = 2 ^ 14)) rfl (rfl : 131072 = 2 ^ 17)) rfl (rfl : 2097152 = 2 ^ 21)) rfl (rfl : 33554432 = 2 ^ 25)) rfl (rfl : 536870912 = 2 ^ 29)]
    omega
  have hf : Fits [(2, q.toNat), (4, 2), (4, g.toNat), (4, 1), (3, x0.toNat), (5, a.toNat), (9, k.toNat)] := ⟨q.isLt, by decide, g.isLt, by decide, x0.isLt, a.isLt, k.isLt, trivial⟩
  have h0 : x / 33554432 % 16 = 2 := pack_field [(2, q.toNat)] [(4, 2)] [(4, g.toNat), (4, 1), (3, x0.toNat), (5, a.toNat), (9, k.toNat)] 25 4 hp hf rfl rfl rfl rfl rfl rfl
  have h1 : x / 131072 % 16 = 1 := pack_field [(2, q.toNat), (4, 2), (4, g.toNat)] [(4, 1)] [(3, x0.toNat), (5, a.toNat), (9, k.toNat)] 17 4 hp hf rfl rfl rfl rfl rfl rfl
  have e0 : BitVec.ofNat 2 (x / 536870912) = q := ofNat_field [] q [(4, 2), (4, g.toNat), (4, 1), (3, x0.toNat), (5, a.toNat), (9, k.toNat)] 29 hp hf rfl rfl rfl
  have e1 : BitVec.ofNat 4 (x / 2097152) = g := ofNat_field [(2, q.toNat), (4, 2)] g [(4, 1), (3, x0.toNat), (5, a.toNat), (9, k.toNat)] 21 hp hf rfl rfl rfl
  have e2 : BitVec.ofNat 3 (x / 16384) = x0 := ofNat_field [(2, q.toNat), (4, 2), (4, g.toNat), (4, 1)] x0 [(5, a.toNat), (9, k.toNat)] 14 hp hf rfl rfl rfl
  have e3 : BitVec.ofNat 5 (x / 512) = a := ofNat_field [(2, q.toNat), (4, 2), (4, g.toNat), (4, 1), (3, x0.toNat)] a [(9, k.toNat)] 9 hp hf rfl rfl rfl
  have e4 : BitVec.ofNat 9 x = k := ofNat_low [(2, q.toNat), (4, 2), (4, g.toNat), (4, 1), (3, x0.toNat), (5, a.toNat)] k hp hf rfl
  refine ⟨pack_bound 31 hp hf rfl, (.brc q g x0 a k none), ?_, rfl, ?_⟩
  · simp only [decodeNat, decodeB, h0, h1, ↓reduceIte]
    rw [e0, e1, e2, e3, e4]
    try rfl
  · cases ext <;> first | rfl

theorem EncodeDecode.brf (q : BitVec 2) (g : BitVec 4) (t : BitVec 1) (e : BitVec 2) (n : BitVec 1) (k : BitVec 12) (ext : Option (BitVec 25)) : EncodeDecode.Statement (.brf q g t e n k ext) := by
  intro hwf x hx
  replace hx : 67371008 + q.toNat * 536870912 + g.toNat * 2097152 + t.toNat * 32768 + e.toNat * 8192 + n.toNat * 4096 + k.toNat = x := Option.some.inj hx
  have hp : x = pack [(2, q.toNat), (4, 2), (4, g.toNat), (4, 2), (1, 0), (1, t.toNat), (2, e.toNat), (1, n.toNat), (12, k.toNat)] := by
    rw [pack_cons 2 29 (pack_cons 4 25 (pack_cons 4 21 (pack_cons 4 17 (pack_cons 1 16 (pack_cons 1 15 (pack_cons 2 13 (pack_cons 1 12 (pack_cons 12 0 pack_nil rfl (rfl : 1 = 2 ^ 0)) rfl (rfl : 4096 = 2 ^ 12)) rfl (rfl : 8192 = 2 ^ 13)) rfl (rfl : 32768 = 2 ^ 15)) rfl (rfl : 65536 = 2 ^ 16)) rfl (rfl : 131072 = 2 ^ 17)) rfl (rfl : 2097152 = 2 ^ 21)) rfl (rfl : 33554432 = 2 ^ 25)) rfl (rfl : 536870912 = 2 ^ 29)]
    omega
  have hf : Fits [(2, q.toNat), (4, 2), (4, g.toNat), (4, 2), (1, 0), (1, t.toNat), (2, e.toNat), (1, n.toNat), (12, k.toNat)] := ⟨q.isLt, by decide, g.isLt, by decide, by decide, t.isLt, e.isLt, n.isLt, k.isLt, trivial⟩
  have h0 : x / 33554432 % 16 = 2 := pack_field [(2, q.toNat)] [(4, 2)] [(4, g.toNat), (4, 2), (1, 0), (1, t.toNat), (2, e.toNat), (1, n.toNat), (12, k.toNat)] 25 4 hp hf rfl rfl rfl rfl rfl rfl
  have h1 : x / 131072 % 16 = 2 := pack_field [(2, q.toNat), (4, 2), (4, g.toNat)] [(4, 2)] [(1, 0), (1, t.toNat), (2, e.toNat), (1, n.toNat), (12, k.toNat)] 17 4 hp hf rfl rfl rfl rfl rfl rfl
  have h2 : x / 65536 % 2 = 0 := pack_field [(2, q.toNat), (4, 2), (4, g.toNat), (4, 2)] [(1, 0)] [(1, t.toNat), (2, e.toNat), (1, n.toNat), (12, k.toNat)] 16 1 hp hf rfl rfl rfl rfl rfl rfl
  have e0 : BitVec.ofNat 2 (x / 536870912) = q := ofNat_field [] q [(4, 2), (4, g.toNat), (4, 2), (1, 0), (1, t.toNat), (2, e.toNat), (1, n.toNat), (12, k.toNat)] 29 hp hf rfl rfl rfl
  have e1 : BitVec.ofNat 4 (x / 2097152) = g := ofNat_field [(2, q.toNat), (4, 2)] g [(4, 2), (1, 0), (1, t.toNat), (2, e.toNat), (1, n.toNat), (12, k.toNat)] 21 hp hf rfl rfl rfl
  have e2 : BitVec.ofNat 1 (x / 32768) = t := ofNat_field [(2, q.toNat), (4, 2), (4, g.toNat), (4, 2), (1, 0)] t [(2, e.toNat), (1, n.toNat), (12, k.toNat)] 15 hp hf rfl rfl rfl
  have e3 : BitVec.ofNat 2 (x / 8192) = e := ofNat_field [(2, q.toNat), (4, 2), (4, g.toNat), (4, 2), (1, 0), (1, t.toNat)] e [(1, n.toNat), (12, k.toNat)] 13 hp hf rfl rfl rfl
  have e4 : BitVec.ofNat 1 (x / 4096) = n := ofNat_field [(2, q.toNat), (4, 2), (4, g.toNat), (4, 2), (1, 0), (1, t.toNat), (2, e.toNat)] n [(12, k.toNat)] 12 hp hf rfl rfl rfl
  have e5 : BitVec.ofNat 12 x = k := ofNat_low [(2, q.toNat), (4, 2), (4, g.toNat), (4, 2), (1, 0), (1, t.toNat), (2, e.toNat), (1, n.toNat)] k hp hf rfl
  refine ⟨pack_bound 31 hp hf rfl, (.brf q g t e n k none), ?_, rfl, ?_⟩
  · simp only [decodeNat, decodeB, h0, h1, h2, ↓reduceIte]
    rw [e0, e1, e2, e3, e4, e5]
    try rfl
  · cases ext <;> first | rfl

theorem EncodeDecode.loopOpen (q : BitVec 2) (n : BitVec 3) (a : BitVec 5) (j : BitVec 8) (ext : Option (BitVec 25)) : EncodeDecode.Statement (.loopOpen q n a j ext) := by
  intro hwf x hx
  replace hx : 67829760 + q.toNat * 536870912 + n.toNat * 8192 + a.toNat * 256 + j.toNat = x := Option.some.inj hx
  have hp : x = pack [(2, q.toNat), (4, 2), (4, 0), (4, 5), (1, 1), (3, n.toNat), (5, a.toNat), (8, j.toNat)] := by
    rw [pack_cons 2 29 (pack_cons 4 25 (pack_cons 4 21 (pack_cons 4 17 (pack_cons 1 16 (pack_cons 3 13 (pack_cons 5 8 (pack_cons 8 0 pack_nil rfl (rfl : 1 = 2 ^ 0)) rfl (rfl : 256 = 2 ^ 8)) rfl (rfl : 8192 = 2 ^ 13)) rfl (rfl : 65536 = 2 ^ 16)) rfl (rfl : 131072 = 2 ^ 17)) rfl (rfl : 2097152 = 2 ^ 21)) rfl (rfl : 33554432 = 2 ^ 25)) rfl (rfl : 536870912 = 2 ^ 29)]
    omega
  have hf : Fits [(2, q.toNat), (4, 2), (4, 0), (4, 5), (1, 1), (3, n.toNat), (5, a.toNat), (8, j.toNat)] := ⟨q.isLt, by decide, by decide, by decide, by decide, n.isLt, a.isLt, j.isLt, trivial⟩
  have h0 : x / 33554432 % 16 = 2 := pack_field [(2, q.toNat)] [(4, 2)] [(4, 0), (4, 5), (1, 1), (3, n.toNat), (5, a.toNat), (8, j.toNat)] 25 4 hp hf rfl rfl rfl rfl rfl rfl
  have h1 : x / 131072 % 16 = 5 := pack_field [(2, q.toNat), (4, 2), (4, 0)] [(4, 5)] [(1, 1), (3, n.toNat), (5, a.toNat), (8, j.toNat)] 17 4 hp hf rfl rfl rfl rfl rfl rfl
  have h3 : x / 65536 % 2 = 1 := pack_field [(2, q.toNat), (4, 2), (4, 0), (4, 5)] [(1, 1)] [(3, n.toNat), (5, a.toNat), (8, j.toNat)] 16 1 hp hf rfl rfl rfl rfl rfl rfl
  have h4 : x / 2097152 % 16 = 0 := pack_field [(2, q.toNat), (4, 2)] [(4, 0)] [(4, 5), (1, 1), (3, n.toNat), (5, a.toNat), (8, j.toNat)] 21 4 hp hf rfl rfl rfl rfl rfl rfl
  have := q.isLt
  have := n.isLt
  have := a.isLt
  have := j.isLt
  have h5 : ¬(x / 2048 % 4 = 0 ∧ x / 65536 % 2 = 0 ∧ x / 2097152 % 16 = 0) := by omega
  have e0 : BitVec.ofNat 2 (x / 536870912) = q := ofNat_field [] q [(4, 2), (4, 0), (4, 5), (1, 1), (3, n.toNat), (5, a.toNat), (8, j.toNat)] 29 hp hf rfl rfl rfl
  have e1 : BitVec.ofNat 3 (x / 8192) = n := ofNat_field [(2, q.toNat), (4, 2), (4, 0), (4, 5), (1, 1)] n [(5, a.toNat), (8, j.toNat)] 13 hp hf rfl rfl rfl
  have e2 : BitVec.ofNat 5 (x / 256) = a := ofNat_field [(2, q.toNat), (4, 2), (4, 0), (4, 5), (1, 1), (3, n.toNat)] a [(8, j.toNat)] 8 hp hf rfl rfl rfl
  have e3 : BitVec.ofNat 8 x = j := ofNat_low [(2, q.toNat), (4, 2), (4, 0), (4, 5), (1, 1), (3, n.toNat), (5, a.toNat)] j hp hf rfl
  refine ⟨pack_bound 31 hp hf rfl, (.loopOpen q n a j none), ?_, rfl, ?_⟩
  · simp only [decodeNat, decodeB, h0, h1, h3, h4, if_neg h5, ↓reduceIte, and_self, and_true, true_and, and_false, false_and, one_ne_zero, OfNat.ofNat_ne_zero]
    rw [e0, e1, e2, e3]
    try rfl
  · cases ext <;> first | rfl

theorem EncodeDecode.loopClose (q : BitVec 2) (n : BitVec 3) (k : BitVec 11) (ext : Option (BitVec 25)) : EncodeDecode.Statement (.loopClose q n k ext) := by
  intro hwf x hx
  replace hx : 67764224 + q.toNat * 536870912 + n.toNat * 8192 + k.toNat = x := Option.some.inj hx
  have hp : x = pack [(2, q.toNat), (4, 2), (4, 0), (4, 5), (1, 0), (3, n.toNat), (2, 0), (11, k.toNat)] := by
    rw [pack_cons 2 29 (pack_cons 4 25 (pack_cons 4 21 (pack_cons 4 17 (pack_cons 1 16 (pack_cons 3 13 (pack_cons 2 11 (pack_cons 11 0 pack_nil rfl (rfl : 1 = 2 ^ 0)) rfl (rfl : 2048 = 2 ^ 11)) rfl (rfl : 8192 = 2 ^ 13)) rfl (rfl : 65536 = 2 ^ 16)) rfl (rfl : 131072 = 2 ^ 17)) rfl (rfl : 2097152 = 2 ^ 21)) rfl (rfl : 33554432 = 2 ^ 25)) rfl (rfl : 536870912 = 2 ^ 29)]
    omega
  have hf : Fits [(2, q.toNat), (4, 2), (4, 0), (4, 5), (1, 0), (3, n.toNat), (2, 0), (11, k.toNat)] := ⟨q.isLt, by decide, by decide, by decide, by decide, n.isLt, by decide, k.isLt, trivial⟩
  have h0 : x / 33554432 % 16 = 2 := pack_field [(2, q.toNat)] [(4, 2)] [(4, 0), (4, 5), (1, 0), (3, n.toNat), (2, 0), (11, k.toNat)] 25 4 hp hf rfl rfl rfl rfl rfl rfl
  have h1 : x / 131072 % 16 = 5 := pack_field [(2, q.toNat), (4, 2), (4, 0)] [(4, 5)] [(1, 0), (3, n.toNat), (2, 0), (11, k.toNat)] 17 4 hp hf rfl rfl rfl rfl rfl rfl
  have h2 : x / 2048 % 4 = 0 := pack_field [(2, q.toNat), (4, 2), (4, 0), (4, 5), (1, 0), (3, n.toNat)] [(2, 0)] [(11, k.toNat)] 11 2 hp hf rfl rfl rfl rfl rfl rfl
  have h3 : x / 65536 % 2 = 0 := pack_field [(2, q.toNat), (4, 2), (4, 0), (4, 5)] [(1, 0)] [(3, n.toNat), (2, 0), (11, k.toNat)] 16 1 hp hf rfl rfl rfl rfl rfl rfl
  have h4 : x / 2097152 % 16 = 0 := pack_field [(2, q.toNat), (4, 2)] [(4, 0)] [(4, 5), (1, 0), (3, n.toNat), (2, 0), (11, k.toNat)] 21 4 hp hf rfl rfl rfl rfl rfl rfl
  have e0 : BitVec.ofNat 2 (x / 536870912) = q := ofNat_field [] q [(4, 2), (4, 0), (4, 5), (1, 0), (3, n.toNat), (2, 0), (11, k.toNat)] 29 hp hf rfl rfl rfl
  have e1 : BitVec.ofNat 3 (x / 8192) = n := ofNat_field [(2, q.toNat), (4, 2), (4, 0), (4, 5), (1, 0)] n [(2, 0), (11, k.toNat)] 13 hp hf rfl rfl rfl
  have e2 : BitVec.ofNat 11 x = k := ofNat_low [(2, q.toNat), (4, 2), (4, 0), (4, 5), (1, 0), (3, n.toNat), (2, 0)] k hp hf rfl
  refine ⟨pack_bound 31 hp hf rfl, (.loopClose q n k none), ?_, rfl, ?_⟩
  · simp only [decodeNat, decodeB, h0, h1, h2, h3, h4, ↓reduceIte, and_self, and_true, true_and, and_false, false_and, one_ne_zero, OfNat.ofNat_ne_zero]
    rw [e0, e1, e2]
    try rfl
  · cases ext <;> first | rfl

theorem EncodeDecode.loopr (q : BitVec 2) (n : BitVec 3) (r : BitVec 2) (k : BitVec 11) (ext : Option (BitVec 25)) : EncodeDecode.Statement (.loopr q n r k ext) := by
  intro hwf x hx
  replace hx : 67895296 + q.toNat * 536870912 + n.toNat * 8192 + r.toNat * 2048 + k.toNat = x := Option.some.inj hx
  have hp : x = pack [(2, q.toNat), (4, 2), (4, 0), (4, 6), (1, 0), (3, n.toNat), (2, r.toNat), (11, k.toNat)] := by
    rw [pack_cons 2 29 (pack_cons 4 25 (pack_cons 4 21 (pack_cons 4 17 (pack_cons 1 16 (pack_cons 3 13 (pack_cons 2 11 (pack_cons 11 0 pack_nil rfl (rfl : 1 = 2 ^ 0)) rfl (rfl : 2048 = 2 ^ 11)) rfl (rfl : 8192 = 2 ^ 13)) rfl (rfl : 65536 = 2 ^ 16)) rfl (rfl : 131072 = 2 ^ 17)) rfl (rfl : 2097152 = 2 ^ 21)) rfl (rfl : 33554432 = 2 ^ 25)) rfl (rfl : 536870912 = 2 ^ 29)]
    omega
  have hf : Fits [(2, q.toNat), (4, 2), (4, 0), (4, 6), (1, 0), (3, n.toNat), (2, r.toNat), (11, k.toNat)] := ⟨q.isLt, by decide, by decide, by decide, by decide, n.isLt, r.isLt, k.isLt, trivial⟩
  have h0 : x / 33554432 % 16 = 2 := pack_field [(2, q.toNat)] [(4, 2)] [(4, 0), (4, 6), (1, 0), (3, n.toNat), (2, r.toNat), (11, k.toNat)] 25 4 hp hf rfl rfl rfl rfl rfl rfl
  have h1 : x / 131072 % 16 = 6 := pack_field [(2, q.toNat), (4, 2), (4, 0)] [(4, 6)] [(1, 0), (3, n.toNat), (2, r.toNat), (11, k.toNat)] 17 4 hp hf rfl rfl rfl rfl rfl rfl
  have h2 : x / 65536 % 2 = 0 := pack_field [(2, q.toNat), (4, 2), (4, 0), (4, 6)] [(1, 0)] [(3, n.toNat), (2, r.toNat), (11, k.toNat)] 16 1 hp hf rfl rfl rfl rfl rfl rfl
  have h3 : x / 2097152 % 16 = 0 := pack_field [(2, q.toNat), (4, 2)] [(4, 0)] [(4, 6), (1, 0), (3, n.toNat), (2, r.toNat), (11, k.toNat)] 21 4 hp hf rfl rfl rfl rfl rfl rfl
  have e0 : BitVec.ofNat 2 (x / 536870912) = q := ofNat_field [] q [(4, 2), (4, 0), (4, 6), (1, 0), (3, n.toNat), (2, r.toNat), (11, k.toNat)] 29 hp hf rfl rfl rfl
  have e1 : BitVec.ofNat 3 (x / 8192) = n := ofNat_field [(2, q.toNat), (4, 2), (4, 0), (4, 6), (1, 0)] n [(2, r.toNat), (11, k.toNat)] 13 hp hf rfl rfl rfl
  have e2 : BitVec.ofNat 2 (x / 2048) = r := ofNat_field [(2, q.toNat), (4, 2), (4, 0), (4, 6), (1, 0), (3, n.toNat)] r [(11, k.toNat)] 11 hp hf rfl rfl rfl
  have e3 : BitVec.ofNat 11 x = k := ofNat_low [(2, q.toNat), (4, 2), (4, 0), (4, 6), (1, 0), (3, n.toNat), (2, r.toNat)] k hp hf rfl
  refine ⟨pack_bound 31 hp hf rfl, (.loopr q n r k none), ?_, rfl, ?_⟩
  · simp only [decodeNat, decodeB, h0, h1, h2, h3, ↓reduceIte, and_self, and_true, true_and, and_false, false_and, one_ne_zero, OfNat.ofNat_ne_zero]
    rw [e0, e1, e2, e3]
    try rfl
  · cases ext <;> first | rfl

theorem EncodeDecode.lbrk (q : BitVec 2) (g : BitVec 4) (n : BitVec 3) (k : BitVec 14) (ext : Option (BitVec 25)) : EncodeDecode.Statement (.lbrk q g n k ext) := by
  intro hwf x hx
  replace hx : 68026368 + q.toNat * 536870912 + g.toNat * 2097152 + n.toNat * 16384 + k.toNat = x := Option.some.inj hx
  have hp : x = pack [(2, q.toNat), (4, 2), (4, g.toNat), (4, 7), (3, n.toNat), (14, k.toNat)] := by
    rw [pack_cons 2 29 (pack_cons 4 25 (pack_cons 4 21 (pack_cons 4 17 (pack_cons 3 14 (pack_cons 14 0 pack_nil rfl (rfl : 1 = 2 ^ 0)) rfl (rfl : 16384 = 2 ^ 14)) rfl (rfl : 131072 = 2 ^ 17)) rfl (rfl : 2097152 = 2 ^ 21)) rfl (rfl : 33554432 = 2 ^ 25)) rfl (rfl : 536870912 = 2 ^ 29)]
    omega
  have hf : Fits [(2, q.toNat), (4, 2), (4, g.toNat), (4, 7), (3, n.toNat), (14, k.toNat)] := ⟨q.isLt, by decide, g.isLt, by decide, n.isLt, k.isLt, trivial⟩
  have h0 : x / 33554432 % 16 = 2 := pack_field [(2, q.toNat)] [(4, 2)] [(4, g.toNat), (4, 7), (3, n.toNat), (14, k.toNat)] 25 4 hp hf rfl rfl rfl rfl rfl rfl
  have h1 : x / 131072 % 16 = 7 := pack_field [(2, q.toNat), (4, 2), (4, g.toNat)] [(4, 7)] [(3, n.toNat), (14, k.toNat)] 17 4 hp hf rfl rfl rfl rfl rfl rfl
  have e0 : BitVec.ofNat 2 (x / 536870912) = q := ofNat_field [] q [(4, 2), (4, g.toNat), (4, 7), (3, n.toNat), (14, k.toNat)] 29 hp hf rfl rfl rfl
  have e1 : BitVec.ofNat 4 (x / 2097152) = g := ofNat_field [(2, q.toNat), (4, 2)] g [(4, 7), (3, n.toNat), (14, k.toNat)] 21 hp hf rfl rfl rfl
  have e2 : BitVec.ofNat 3 (x / 16384) = n := ofNat_field [(2, q.toNat), (4, 2), (4, g.toNat), (4, 7)] n [(14, k.toNat)] 14 hp hf rfl rfl rfl
  have e3 : BitVec.ofNat 14 x = k := ofNat_low [(2, q.toNat), (4, 2), (4, g.toNat), (4, 7), (3, n.toNat)] k hp hf rfl
  refine ⟨pack_bound 31 hp hf rfl, (.lbrk q g n k none), ?_, rfl, ?_⟩
  · simp only [decodeNat, decodeB, h0, h1, ↓reduceIte]
    rw [e0, e1, e2, e3]
    try rfl
  · cases ext <;> first | rfl

theorem EncodeDecode.segx (q : BitVec 2) (g : BitVec 4) (s : BitVec 6) : EncodeDecode.Statement (.segx q g s) := by
  intro hwf x hx
  replace hx : 68157440 + q.toNat * 536870912 + g.toNat * 2097152 + s.toNat * 2048 = x := Option.some.inj hx
  have hp : x = pack [(2, q.toNat), (4, 2), (4, g.toNat), (4, 8), (6, s.toNat), (11, 0)] := by
    rw [pack_cons 2 29 (pack_cons 4 25 (pack_cons 4 21 (pack_cons 4 17 (pack_cons 6 11 (pack_cons 11 0 pack_nil rfl (rfl : 1 = 2 ^ 0)) rfl (rfl : 2048 = 2 ^ 11)) rfl (rfl : 131072 = 2 ^ 17)) rfl (rfl : 2097152 = 2 ^ 21)) rfl (rfl : 33554432 = 2 ^ 25)) rfl (rfl : 536870912 = 2 ^ 29)]
    omega
  have hf : Fits [(2, q.toNat), (4, 2), (4, g.toNat), (4, 8), (6, s.toNat), (11, 0)] := ⟨q.isLt, by decide, g.isLt, by decide, s.isLt, by decide, trivial⟩
  have h0 : x / 33554432 % 16 = 2 := pack_field [(2, q.toNat)] [(4, 2)] [(4, g.toNat), (4, 8), (6, s.toNat), (11, 0)] 25 4 hp hf rfl rfl rfl rfl rfl rfl
  have h1 : x / 131072 % 16 = 8 := pack_field [(2, q.toNat), (4, 2), (4, g.toNat)] [(4, 8)] [(6, s.toNat), (11, 0)] 17 4 hp hf rfl rfl rfl rfl rfl rfl
  have h2 : x % 2048 = 0 := pack_low [(2, q.toNat), (4, 2), (4, g.toNat), (4, 8), (6, s.toNat)] [(11, 0)] 11 hp hf rfl rfl rfl rfl
  have e0 : BitVec.ofNat 2 (x / 536870912) = q := ofNat_field [] q [(4, 2), (4, g.toNat), (4, 8), (6, s.toNat), (11, 0)] 29 hp hf rfl rfl rfl
  have e1 : BitVec.ofNat 4 (x / 2097152) = g := ofNat_field [(2, q.toNat), (4, 2)] g [(4, 8), (6, s.toNat), (11, 0)] 21 hp hf rfl rfl rfl
  have e2 : BitVec.ofNat 6 (x / 2048) = s := ofNat_field [(2, q.toNat), (4, 2), (4, g.toNat), (4, 8)] s [(11, 0)] 11 hp hf rfl rfl rfl
  refine ⟨pack_bound 31 hp hf rfl, (.segx q g s), ?_, rfl, ?_⟩
  · simp only [decodeNat, decodeB, h0, h1, h2, ↓reduceIte]
    rw [e0, e1, e2]
    try rfl
  · rfl

theorem EncodeDecode.endNode : EncodeDecode.Statement .endNode := by
  intro hwf x hx
  replace hx : 68288512 = x := Option.some.inj hx
  have hp : x = pack [(2, 0), (4, 2), (4, 0), (4, 9), (17, 0)] := by
    rw [pack_cons 2 29 (pack_cons 4 25 (pack_cons 4 21 (pack_cons 4 17 (pack_cons 17 0 pack_nil rfl (rfl : 1 = 2 ^ 0)) rfl (rfl : 131072 = 2 ^ 17)) rfl (rfl : 2097152 = 2 ^ 21)) rfl (rfl : 33554432 = 2 ^ 25)) rfl (rfl : 536870912 = 2 ^ 29)]
    omega
  have hf : Fits [(2, 0), (4, 2), (4, 0), (4, 9), (17, 0)] := ⟨by decide, by decide, by decide, by decide, by decide, trivial⟩
  have h0 : x / 33554432 % 16 = 2 := pack_field [(2, 0)] [(4, 2)] [(4, 0), (4, 9), (17, 0)] 25 4 hp hf rfl rfl rfl rfl rfl rfl
  have h1 : x / 131072 % 16 = 9 := pack_field [(2, 0), (4, 2), (4, 0)] [(4, 9)] [(17, 0)] 17 4 hp hf rfl rfl rfl rfl rfl rfl
  have h2 : x % 131072 = 0 := pack_low [(2, 0), (4, 2), (4, 0), (4, 9)] [(17, 0)] 17 hp hf rfl rfl rfl rfl
  have h3 : x / 2097152 % 16 = 0 := pack_field [(2, 0), (4, 2)] [(4, 0)] [(4, 9), (17, 0)] 21 4 hp hf rfl rfl rfl rfl rfl rfl
  have h4 : x / 536870912 % 4 = 0 := pack_field [] [(2, 0)] [(4, 2), (4, 0), (4, 9), (17, 0)] 29 2 hp hf rfl rfl rfl rfl rfl rfl
  refine ⟨pack_bound 31 hp hf rfl, .endNode, ?_, rfl, ?_⟩
  · simp only [decodeNat, decodeB, h0, h1, h2, h3, h4, ↓reduceIte, and_self, and_true, true_and, and_false, false_and, one_ne_zero, OfNat.ofNat_ne_zero]
    try rfl
  · rfl

theorem EncodeDecode.ldB (q : BitVec 2) (g : BitVec 4) (d : BitVec 5) (a : BitVec 5) (f : BitVec 6) (ext : Option (BitVec 25)) : EncodeDecode.Statement (.ldB q g d a f ext) := by
  intro hwf x hx
  replace hx : 100663296 + q.toNat * 536870912 + g.toNat * 2097152 + d.toNat * 2048 + a.toNat * 64 + f.toNat = x := Option.some.inj hx
  have hp : x = pack [(2, q.toNat), (4, 3), (4, g.toNat), (5, 0), (5, d.toNat), (5, a.toNat), (6, f.toNat)] := by
    rw [pack_cons 2 29 (pack_cons 4 25 (pack_cons 4 21 (pack_cons 5 16 (pack_cons 5 11 (pack_cons 5 6 (pack_cons 6 0 pack_nil rfl (rfl : 1 = 2 ^ 0)) rfl (rfl : 64 = 2 ^ 6)) rfl (rfl : 2048 = 2 ^ 11)) rfl (rfl : 65536 = 2 ^ 16)) rfl (rfl : 2097152 = 2 ^ 21)) rfl (rfl : 33554432 = 2 ^ 25)) rfl (rfl : 536870912 = 2 ^ 29)]
    omega
  have hf : Fits [(2, q.toNat), (4, 3), (4, g.toNat), (5, 0), (5, d.toNat), (5, a.toNat), (6, f.toNat)] := ⟨q.isLt, by decide, g.isLt, by decide, d.isLt, a.isLt, f.isLt, trivial⟩
  have h0 : x / 33554432 % 16 = 3 := pack_field [(2, q.toNat)] [(4, 3)] [(4, g.toNat), (5, 0), (5, d.toNat), (5, a.toNat), (6, f.toNat)] 25 4 hp hf rfl rfl rfl rfl rfl rfl
  have h1 : x / 65536 % 32 = 0 := pack_field [(2, q.toNat), (4, 3), (4, g.toNat)] [(5, 0)] [(5, d.toNat), (5, a.toNat), (6, f.toNat)] 16 5 hp hf rfl rfl rfl rfl rfl rfl
  have e0 : BitVec.ofNat 2 (x / 536870912) = q := ofNat_field [] q [(4, 3), (4, g.toNat), (5, 0), (5, d.toNat), (5, a.toNat), (6, f.toNat)] 29 hp hf rfl rfl rfl
  have e1 : BitVec.ofNat 4 (x / 2097152) = g := ofNat_field [(2, q.toNat), (4, 3)] g [(5, 0), (5, d.toNat), (5, a.toNat), (6, f.toNat)] 21 hp hf rfl rfl rfl
  have e2 : BitVec.ofNat 5 (x / 2048) = d := ofNat_field [(2, q.toNat), (4, 3), (4, g.toNat), (5, 0)] d [(5, a.toNat), (6, f.toNat)] 11 hp hf rfl rfl rfl
  have e3 : BitVec.ofNat 5 (x / 64) = a := ofNat_field [(2, q.toNat), (4, 3), (4, g.toNat), (5, 0), (5, d.toNat)] a [(6, f.toNat)] 6 hp hf rfl rfl rfl
  have e4 : BitVec.ofNat 6 x = f := ofNat_low [(2, q.toNat), (4, 3), (4, g.toNat), (5, 0), (5, d.toNat), (5, a.toNat)] f hp hf rfl
  refine ⟨pack_bound 31 hp hf rfl, (.ldB q g d a f none), ?_, rfl, ?_⟩
  · simp only [decodeNat, decodeSM, h0, h1, ↓reduceIte]
    rw [e0, e1, e2, e3, e4]
    try rfl
  · cases ext <;> first | rfl

theorem EncodeDecode.ldH (q : BitVec 2) (g : BitVec 4) (d : BitVec 5) (a : BitVec 5) (f : BitVec 6) (ext : Option (BitVec 25)) : EncodeDecode.Statement (.ldH q g d a f ext) := by
  intro hwf x hx
  replace hx : 100728832 + q.toNat * 536870912 + g.toNat * 2097152 + d.toNat * 2048 + a.toNat * 64 + f.toNat = x := Option.some.inj hx
  have hp : x = pack [(2, q.toNat), (4, 3), (4, g.toNat), (5, 1), (5, d.toNat), (5, a.toNat), (6, f.toNat)] := by
    rw [pack_cons 2 29 (pack_cons 4 25 (pack_cons 4 21 (pack_cons 5 16 (pack_cons 5 11 (pack_cons 5 6 (pack_cons 6 0 pack_nil rfl (rfl : 1 = 2 ^ 0)) rfl (rfl : 64 = 2 ^ 6)) rfl (rfl : 2048 = 2 ^ 11)) rfl (rfl : 65536 = 2 ^ 16)) rfl (rfl : 2097152 = 2 ^ 21)) rfl (rfl : 33554432 = 2 ^ 25)) rfl (rfl : 536870912 = 2 ^ 29)]
    omega
  have hf : Fits [(2, q.toNat), (4, 3), (4, g.toNat), (5, 1), (5, d.toNat), (5, a.toNat), (6, f.toNat)] := ⟨q.isLt, by decide, g.isLt, by decide, d.isLt, a.isLt, f.isLt, trivial⟩
  have h0 : x / 33554432 % 16 = 3 := pack_field [(2, q.toNat)] [(4, 3)] [(4, g.toNat), (5, 1), (5, d.toNat), (5, a.toNat), (6, f.toNat)] 25 4 hp hf rfl rfl rfl rfl rfl rfl
  have h1 : x / 65536 % 32 = 1 := pack_field [(2, q.toNat), (4, 3), (4, g.toNat)] [(5, 1)] [(5, d.toNat), (5, a.toNat), (6, f.toNat)] 16 5 hp hf rfl rfl rfl rfl rfl rfl
  have e0 : BitVec.ofNat 2 (x / 536870912) = q := ofNat_field [] q [(4, 3), (4, g.toNat), (5, 1), (5, d.toNat), (5, a.toNat), (6, f.toNat)] 29 hp hf rfl rfl rfl
  have e1 : BitVec.ofNat 4 (x / 2097152) = g := ofNat_field [(2, q.toNat), (4, 3)] g [(5, 1), (5, d.toNat), (5, a.toNat), (6, f.toNat)] 21 hp hf rfl rfl rfl
  have e2 : BitVec.ofNat 5 (x / 2048) = d := ofNat_field [(2, q.toNat), (4, 3), (4, g.toNat), (5, 1)] d [(5, a.toNat), (6, f.toNat)] 11 hp hf rfl rfl rfl
  have e3 : BitVec.ofNat 5 (x / 64) = a := ofNat_field [(2, q.toNat), (4, 3), (4, g.toNat), (5, 1), (5, d.toNat)] a [(6, f.toNat)] 6 hp hf rfl rfl rfl
  have e4 : BitVec.ofNat 6 x = f := ofNat_low [(2, q.toNat), (4, 3), (4, g.toNat), (5, 1), (5, d.toNat), (5, a.toNat)] f hp hf rfl
  refine ⟨pack_bound 31 hp hf rfl, (.ldH q g d a f none), ?_, rfl, ?_⟩
  · simp only [decodeNat, decodeSM, h0, h1, ↓reduceIte]
    rw [e0, e1, e2, e3, e4]
    try rfl
  · cases ext <;> first | rfl

theorem EncodeDecode.ldW (q : BitVec 2) (g : BitVec 4) (d : BitVec 5) (a : BitVec 5) (f : BitVec 6) (ext : Option (BitVec 25)) : EncodeDecode.Statement (.ldW q g d a f ext) := by
  intro hwf x hx
  replace hx : 100794368 + q.toNat * 536870912 + g.toNat * 2097152 + d.toNat * 2048 + a.toNat * 64 + f.toNat = x := Option.some.inj hx
  have hp : x = pack [(2, q.toNat), (4, 3), (4, g.toNat), (5, 2), (5, d.toNat), (5, a.toNat), (6, f.toNat)] := by
    rw [pack_cons 2 29 (pack_cons 4 25 (pack_cons 4 21 (pack_cons 5 16 (pack_cons 5 11 (pack_cons 5 6 (pack_cons 6 0 pack_nil rfl (rfl : 1 = 2 ^ 0)) rfl (rfl : 64 = 2 ^ 6)) rfl (rfl : 2048 = 2 ^ 11)) rfl (rfl : 65536 = 2 ^ 16)) rfl (rfl : 2097152 = 2 ^ 21)) rfl (rfl : 33554432 = 2 ^ 25)) rfl (rfl : 536870912 = 2 ^ 29)]
    omega
  have hf : Fits [(2, q.toNat), (4, 3), (4, g.toNat), (5, 2), (5, d.toNat), (5, a.toNat), (6, f.toNat)] := ⟨q.isLt, by decide, g.isLt, by decide, d.isLt, a.isLt, f.isLt, trivial⟩
  have h0 : x / 33554432 % 16 = 3 := pack_field [(2, q.toNat)] [(4, 3)] [(4, g.toNat), (5, 2), (5, d.toNat), (5, a.toNat), (6, f.toNat)] 25 4 hp hf rfl rfl rfl rfl rfl rfl
  have h1 : x / 65536 % 32 = 2 := pack_field [(2, q.toNat), (4, 3), (4, g.toNat)] [(5, 2)] [(5, d.toNat), (5, a.toNat), (6, f.toNat)] 16 5 hp hf rfl rfl rfl rfl rfl rfl
  have e0 : BitVec.ofNat 2 (x / 536870912) = q := ofNat_field [] q [(4, 3), (4, g.toNat), (5, 2), (5, d.toNat), (5, a.toNat), (6, f.toNat)] 29 hp hf rfl rfl rfl
  have e1 : BitVec.ofNat 4 (x / 2097152) = g := ofNat_field [(2, q.toNat), (4, 3)] g [(5, 2), (5, d.toNat), (5, a.toNat), (6, f.toNat)] 21 hp hf rfl rfl rfl
  have e2 : BitVec.ofNat 5 (x / 2048) = d := ofNat_field [(2, q.toNat), (4, 3), (4, g.toNat), (5, 2)] d [(5, a.toNat), (6, f.toNat)] 11 hp hf rfl rfl rfl
  have e3 : BitVec.ofNat 5 (x / 64) = a := ofNat_field [(2, q.toNat), (4, 3), (4, g.toNat), (5, 2), (5, d.toNat)] a [(6, f.toNat)] 6 hp hf rfl rfl rfl
  have e4 : BitVec.ofNat 6 x = f := ofNat_low [(2, q.toNat), (4, 3), (4, g.toNat), (5, 2), (5, d.toNat), (5, a.toNat)] f hp hf rfl
  refine ⟨pack_bound 31 hp hf rfl, (.ldW q g d a f none), ?_, rfl, ?_⟩
  · simp only [decodeNat, decodeSM, h0, h1, ↓reduceIte]
    rw [e0, e1, e2, e3, e4]
    try rfl
  · cases ext <;> first | rfl

theorem EncodeDecode.ldD (q : BitVec 2) (g : BitVec 4) (d : BitVec 5) (a : BitVec 5) (f : BitVec 6) (ext : Option (BitVec 25)) : EncodeDecode.Statement (.ldD q g d a f ext) := by
  intro hwf x hx
  replace hx : 100859904 + q.toNat * 536870912 + g.toNat * 2097152 + d.toNat * 2048 + a.toNat * 64 + f.toNat = x := Option.some.inj hx
  have hp : x = pack [(2, q.toNat), (4, 3), (4, g.toNat), (5, 3), (5, d.toNat), (5, a.toNat), (6, f.toNat)] := by
    rw [pack_cons 2 29 (pack_cons 4 25 (pack_cons 4 21 (pack_cons 5 16 (pack_cons 5 11 (pack_cons 5 6 (pack_cons 6 0 pack_nil rfl (rfl : 1 = 2 ^ 0)) rfl (rfl : 64 = 2 ^ 6)) rfl (rfl : 2048 = 2 ^ 11)) rfl (rfl : 65536 = 2 ^ 16)) rfl (rfl : 2097152 = 2 ^ 21)) rfl (rfl : 33554432 = 2 ^ 25)) rfl (rfl : 536870912 = 2 ^ 29)]
    omega
  have hf : Fits [(2, q.toNat), (4, 3), (4, g.toNat), (5, 3), (5, d.toNat), (5, a.toNat), (6, f.toNat)] := ⟨q.isLt, by decide, g.isLt, by decide, d.isLt, a.isLt, f.isLt, trivial⟩
  have h0 : x / 33554432 % 16 = 3 := pack_field [(2, q.toNat)] [(4, 3)] [(4, g.toNat), (5, 3), (5, d.toNat), (5, a.toNat), (6, f.toNat)] 25 4 hp hf rfl rfl rfl rfl rfl rfl
  have h1 : x / 65536 % 32 = 3 := pack_field [(2, q.toNat), (4, 3), (4, g.toNat)] [(5, 3)] [(5, d.toNat), (5, a.toNat), (6, f.toNat)] 16 5 hp hf rfl rfl rfl rfl rfl rfl
  have e0 : BitVec.ofNat 2 (x / 536870912) = q := ofNat_field [] q [(4, 3), (4, g.toNat), (5, 3), (5, d.toNat), (5, a.toNat), (6, f.toNat)] 29 hp hf rfl rfl rfl
  have e1 : BitVec.ofNat 4 (x / 2097152) = g := ofNat_field [(2, q.toNat), (4, 3)] g [(5, 3), (5, d.toNat), (5, a.toNat), (6, f.toNat)] 21 hp hf rfl rfl rfl
  have e2 : BitVec.ofNat 5 (x / 2048) = d := ofNat_field [(2, q.toNat), (4, 3), (4, g.toNat), (5, 3)] d [(5, a.toNat), (6, f.toNat)] 11 hp hf rfl rfl rfl
  have e3 : BitVec.ofNat 5 (x / 64) = a := ofNat_field [(2, q.toNat), (4, 3), (4, g.toNat), (5, 3), (5, d.toNat)] a [(6, f.toNat)] 6 hp hf rfl rfl rfl
  have e4 : BitVec.ofNat 6 x = f := ofNat_low [(2, q.toNat), (4, 3), (4, g.toNat), (5, 3), (5, d.toNat), (5, a.toNat)] f hp hf rfl
  refine ⟨pack_bound 31 hp hf rfl, (.ldD q g d a f none), ?_, rfl, ?_⟩
  · simp only [decodeNat, decodeSM, h0, h1, ↓reduceIte]
    rw [e0, e1, e2, e3, e4]
    try rfl
  · cases ext <;> first | rfl

theorem EncodeDecode.ldW8 (q : BitVec 2) (g : BitVec 4) (d : BitVec 5) (a : BitVec 5) (f : BitVec 6) (ext : Option (BitVec 25)) : EncodeDecode.Statement (.ldW8 q g d a f ext) := by
  intro hwf x hx
  replace hx : 100925440 + q.toNat * 536870912 + g.toNat * 2097152 + d.toNat * 2048 + a.toNat * 64 + f.toNat = x := Option.some.inj hx
  have hp : x = pack [(2, q.toNat), (4, 3), (4, g.toNat), (5, 4), (5, d.toNat), (5, a.toNat), (6, f.toNat)] := by
    rw [pack_cons 2 29 (pack_cons 4 25 (pack_cons 4 21 (pack_cons 5 16 (pack_cons 5 11 (pack_cons 5 6 (pack_cons 6 0 pack_nil rfl (rfl : 1 = 2 ^ 0)) rfl (rfl : 64 = 2 ^ 6)) rfl (rfl : 2048 = 2 ^ 11)) rfl (rfl : 65536 = 2 ^ 16)) rfl (rfl : 2097152 = 2 ^ 21)) rfl (rfl : 33554432 = 2 ^ 25)) rfl (rfl : 536870912 = 2 ^ 29)]
    omega
  have hf : Fits [(2, q.toNat), (4, 3), (4, g.toNat), (5, 4), (5, d.toNat), (5, a.toNat), (6, f.toNat)] := ⟨q.isLt, by decide, g.isLt, by decide, d.isLt, a.isLt, f.isLt, trivial⟩
  have h0 : x / 33554432 % 16 = 3 := pack_field [(2, q.toNat)] [(4, 3)] [(4, g.toNat), (5, 4), (5, d.toNat), (5, a.toNat), (6, f.toNat)] 25 4 hp hf rfl rfl rfl rfl rfl rfl
  have h1 : x / 65536 % 32 = 4 := pack_field [(2, q.toNat), (4, 3), (4, g.toNat)] [(5, 4)] [(5, d.toNat), (5, a.toNat), (6, f.toNat)] 16 5 hp hf rfl rfl rfl rfl rfl rfl
  have e0 : BitVec.ofNat 2 (x / 536870912) = q := ofNat_field [] q [(4, 3), (4, g.toNat), (5, 4), (5, d.toNat), (5, a.toNat), (6, f.toNat)] 29 hp hf rfl rfl rfl
  have e1 : BitVec.ofNat 4 (x / 2097152) = g := ofNat_field [(2, q.toNat), (4, 3)] g [(5, 4), (5, d.toNat), (5, a.toNat), (6, f.toNat)] 21 hp hf rfl rfl rfl
  have e2 : BitVec.ofNat 5 (x / 2048) = d := ofNat_field [(2, q.toNat), (4, 3), (4, g.toNat), (5, 4)] d [(5, a.toNat), (6, f.toNat)] 11 hp hf rfl rfl rfl
  have e3 : BitVec.ofNat 5 (x / 64) = a := ofNat_field [(2, q.toNat), (4, 3), (4, g.toNat), (5, 4), (5, d.toNat)] a [(6, f.toNat)] 6 hp hf rfl rfl rfl
  have e4 : BitVec.ofNat 6 x = f := ofNat_low [(2, q.toNat), (4, 3), (4, g.toNat), (5, 4), (5, d.toNat), (5, a.toNat)] f hp hf rfl
  refine ⟨pack_bound 31 hp hf rfl, (.ldW8 q g d a f none), ?_, rfl, ?_⟩
  · simp only [decodeNat, decodeSM, h0, h1, ↓reduceIte]
    rw [e0, e1, e2, e3, e4]
    try rfl
  · cases ext <;> first | rfl

theorem EncodeDecode.ldW16 (q : BitVec 2) (g : BitVec 4) (d : BitVec 5) (a : BitVec 5) (f : BitVec 6) (ext : Option (BitVec 25)) : EncodeDecode.Statement (.ldW16 q g d a f ext) := by
  intro hwf x hx
  replace hx : 100990976 + q.toNat * 536870912 + g.toNat * 2097152 + d.toNat * 2048 + a.toNat * 64 + f.toNat = x := Option.some.inj hx
  have hp : x = pack [(2, q.toNat), (4, 3), (4, g.toNat), (5, 5), (5, d.toNat), (5, a.toNat), (6, f.toNat)] := by
    rw [pack_cons 2 29 (pack_cons 4 25 (pack_cons 4 21 (pack_cons 5 16 (pack_cons 5 11 (pack_cons 5 6 (pack_cons 6 0 pack_nil rfl (rfl : 1 = 2 ^ 0)) rfl (rfl : 64 = 2 ^ 6)) rfl (rfl : 2048 = 2 ^ 11)) rfl (rfl : 65536 = 2 ^ 16)) rfl (rfl : 2097152 = 2 ^ 21)) rfl (rfl : 33554432 = 2 ^ 25)) rfl (rfl : 536870912 = 2 ^ 29)]
    omega
  have hf : Fits [(2, q.toNat), (4, 3), (4, g.toNat), (5, 5), (5, d.toNat), (5, a.toNat), (6, f.toNat)] := ⟨q.isLt, by decide, g.isLt, by decide, d.isLt, a.isLt, f.isLt, trivial⟩
  have h0 : x / 33554432 % 16 = 3 := pack_field [(2, q.toNat)] [(4, 3)] [(4, g.toNat), (5, 5), (5, d.toNat), (5, a.toNat), (6, f.toNat)] 25 4 hp hf rfl rfl rfl rfl rfl rfl
  have h1 : x / 65536 % 32 = 5 := pack_field [(2, q.toNat), (4, 3), (4, g.toNat)] [(5, 5)] [(5, d.toNat), (5, a.toNat), (6, f.toNat)] 16 5 hp hf rfl rfl rfl rfl rfl rfl
  have e0 : BitVec.ofNat 2 (x / 536870912) = q := ofNat_field [] q [(4, 3), (4, g.toNat), (5, 5), (5, d.toNat), (5, a.toNat), (6, f.toNat)] 29 hp hf rfl rfl rfl
  have e1 : BitVec.ofNat 4 (x / 2097152) = g := ofNat_field [(2, q.toNat), (4, 3)] g [(5, 5), (5, d.toNat), (5, a.toNat), (6, f.toNat)] 21 hp hf rfl rfl rfl
  have e2 : BitVec.ofNat 5 (x / 2048) = d := ofNat_field [(2, q.toNat), (4, 3), (4, g.toNat), (5, 5)] d [(5, a.toNat), (6, f.toNat)] 11 hp hf rfl rfl rfl
  have e3 : BitVec.ofNat 5 (x / 64) = a := ofNat_field [(2, q.toNat), (4, 3), (4, g.toNat), (5, 5), (5, d.toNat)] a [(6, f.toNat)] 6 hp hf rfl rfl rfl
  have e4 : BitVec.ofNat 6 x = f := ofNat_low [(2, q.toNat), (4, 3), (4, g.toNat), (5, 5), (5, d.toNat), (5, a.toNat)] f hp hf rfl
  refine ⟨pack_bound 31 hp hf rfl, (.ldW16 q g d a f none), ?_, rfl, ?_⟩
  · simp only [decodeNat, decodeSM, h0, h1, ↓reduceIte]
    rw [e0, e1, e2, e3, e4]
    try rfl
  · cases ext <;> first | rfl

theorem EncodeDecode.ldW32 (q : BitVec 2) (g : BitVec 4) (d : BitVec 5) (a : BitVec 5) (f : BitVec 6) (ext : Option (BitVec 25)) : EncodeDecode.Statement (.ldW32 q g d a f ext) := by
  intro hwf x hx
  replace hx : 101056512 + q.toNat * 536870912 + g.toNat * 2097152 + d.toNat * 2048 + a.toNat * 64 + f.toNat = x := Option.some.inj hx
  have hp : x = pack [(2, q.toNat), (4, 3), (4, g.toNat), (5, 6), (5, d.toNat), (5, a.toNat), (6, f.toNat)] := by
    rw [pack_cons 2 29 (pack_cons 4 25 (pack_cons 4 21 (pack_cons 5 16 (pack_cons 5 11 (pack_cons 5 6 (pack_cons 6 0 pack_nil rfl (rfl : 1 = 2 ^ 0)) rfl (rfl : 64 = 2 ^ 6)) rfl (rfl : 2048 = 2 ^ 11)) rfl (rfl : 65536 = 2 ^ 16)) rfl (rfl : 2097152 = 2 ^ 21)) rfl (rfl : 33554432 = 2 ^ 25)) rfl (rfl : 536870912 = 2 ^ 29)]
    omega
  have hf : Fits [(2, q.toNat), (4, 3), (4, g.toNat), (5, 6), (5, d.toNat), (5, a.toNat), (6, f.toNat)] := ⟨q.isLt, by decide, g.isLt, by decide, d.isLt, a.isLt, f.isLt, trivial⟩
  have h0 : x / 33554432 % 16 = 3 := pack_field [(2, q.toNat)] [(4, 3)] [(4, g.toNat), (5, 6), (5, d.toNat), (5, a.toNat), (6, f.toNat)] 25 4 hp hf rfl rfl rfl rfl rfl rfl
  have h1 : x / 65536 % 32 = 6 := pack_field [(2, q.toNat), (4, 3), (4, g.toNat)] [(5, 6)] [(5, d.toNat), (5, a.toNat), (6, f.toNat)] 16 5 hp hf rfl rfl rfl rfl rfl rfl
  have e0 : BitVec.ofNat 2 (x / 536870912) = q := ofNat_field [] q [(4, 3), (4, g.toNat), (5, 6), (5, d.toNat), (5, a.toNat), (6, f.toNat)] 29 hp hf rfl rfl rfl
  have e1 : BitVec.ofNat 4 (x / 2097152) = g := ofNat_field [(2, q.toNat), (4, 3)] g [(5, 6), (5, d.toNat), (5, a.toNat), (6, f.toNat)] 21 hp hf rfl rfl rfl
  have e2 : BitVec.ofNat 5 (x / 2048) = d := ofNat_field [(2, q.toNat), (4, 3), (4, g.toNat), (5, 6)] d [(5, a.toNat), (6, f.toNat)] 11 hp hf rfl rfl rfl
  have e3 : BitVec.ofNat 5 (x / 64) = a := ofNat_field [(2, q.toNat), (4, 3), (4, g.toNat), (5, 6), (5, d.toNat)] a [(6, f.toNat)] 6 hp hf rfl rfl rfl
  have e4 : BitVec.ofNat 6 x = f := ofNat_low [(2, q.toNat), (4, 3), (4, g.toNat), (5, 6), (5, d.toNat), (5, a.toNat)] f hp hf rfl
  refine ⟨pack_bound 31 hp hf rfl, (.ldW32 q g d a f none), ?_, rfl, ?_⟩
  · simp only [decodeNat, decodeSM, h0, h1, ↓reduceIte]
    rw [e0, e1, e2, e3, e4]
    try rfl
  · cases ext <;> first | rfl

theorem EncodeDecode.ldAcq (q : BitVec 2) (g : BitVec 4) (d : BitVec 5) (a : BitVec 5) (z : BitVec 2) (s : BitVec 4) : EncodeDecode.Statement (.ldAcq q g d a z s) := by
  intro hwf x hx
  replace hx : 101122048 + q.toNat * 536870912 + g.toNat * 2097152 + d.toNat * 2048 + a.toNat * 64 + z.toNat * 16 + s.toNat = x := Option.some.inj hx
  have hp : x = pack [(2, q.toNat), (4, 3), (4, g.toNat), (5, 7), (5, d.toNat), (5, a.toNat), (2, z.toNat), (4, s.toNat)] := by
    rw [pack_cons 2 29 (pack_cons 4 25 (pack_cons 4 21 (pack_cons 5 16 (pack_cons 5 11 (pack_cons 5 6 (pack_cons 2 4 (pack_cons 4 0 pack_nil rfl (rfl : 1 = 2 ^ 0)) rfl (rfl : 16 = 2 ^ 4)) rfl (rfl : 64 = 2 ^ 6)) rfl (rfl : 2048 = 2 ^ 11)) rfl (rfl : 65536 = 2 ^ 16)) rfl (rfl : 2097152 = 2 ^ 21)) rfl (rfl : 33554432 = 2 ^ 25)) rfl (rfl : 536870912 = 2 ^ 29)]
    omega
  have hf : Fits [(2, q.toNat), (4, 3), (4, g.toNat), (5, 7), (5, d.toNat), (5, a.toNat), (2, z.toNat), (4, s.toNat)] := ⟨q.isLt, by decide, g.isLt, by decide, d.isLt, a.isLt, z.isLt, s.isLt, trivial⟩
  have h0 : x / 33554432 % 16 = 3 := pack_field [(2, q.toNat)] [(4, 3)] [(4, g.toNat), (5, 7), (5, d.toNat), (5, a.toNat), (2, z.toNat), (4, s.toNat)] 25 4 hp hf rfl rfl rfl rfl rfl rfl
  have h1 : x / 65536 % 32 = 7 := pack_field [(2, q.toNat), (4, 3), (4, g.toNat)] [(5, 7)] [(5, d.toNat), (5, a.toNat), (2, z.toNat), (4, s.toNat)] 16 5 hp hf rfl rfl rfl rfl rfl rfl
  have e0 : BitVec.ofNat 2 (x / 536870912) = q := ofNat_field [] q [(4, 3), (4, g.toNat), (5, 7), (5, d.toNat), (5, a.toNat), (2, z.toNat), (4, s.toNat)] 29 hp hf rfl rfl rfl
  have e1 : BitVec.ofNat 4 (x / 2097152) = g := ofNat_field [(2, q.toNat), (4, 3)] g [(5, 7), (5, d.toNat), (5, a.toNat), (2, z.toNat), (4, s.toNat)] 21 hp hf rfl rfl rfl
  have e2 : BitVec.ofNat 5 (x / 2048) = d := ofNat_field [(2, q.toNat), (4, 3), (4, g.toNat), (5, 7)] d [(5, a.toNat), (2, z.toNat), (4, s.toNat)] 11 hp hf rfl rfl rfl
  have e3 : BitVec.ofNat 5 (x / 64) = a := ofNat_field [(2, q.toNat), (4, 3), (4, g.toNat), (5, 7), (5, d.toNat)] a [(2, z.toNat), (4, s.toNat)] 6 hp hf rfl rfl rfl
  have e4 : BitVec.ofNat 2 (x / 16) = z := ofNat_field [(2, q.toNat), (4, 3), (4, g.toNat), (5, 7), (5, d.toNat), (5, a.toNat)] z [(4, s.toNat)] 4 hp hf rfl rfl rfl
  have e5 : BitVec.ofNat 4 x = s := ofNat_low [(2, q.toNat), (4, 3), (4, g.toNat), (5, 7), (5, d.toNat), (5, a.toNat), (2, z.toNat)] s hp hf rfl
  refine ⟨pack_bound 31 hp hf rfl, (.ldAcq q g d a z s), ?_, rfl, ?_⟩
  · simp only [decodeNat, decodeSM, h0, h1, ↓reduceIte]
    rw [e0, e1, e2, e3, e4, e5]
    try rfl
  · rfl

theorem EncodeDecode.stB (q : BitVec 2) (g : BitVec 4) (v : BitVec 5) (a : BitVec 5) (f : BitVec 6) (ext : Option (BitVec 25)) : EncodeDecode.Statement (.stB q g v a f ext) := by
  intro hwf x hx
  replace hx : 101187584 + q.toNat * 536870912 + g.toNat * 2097152 + v.toNat * 2048 + a.toNat * 64 + f.toNat = x := Option.some.inj hx
  have hp : x = pack [(2, q.toNat), (4, 3), (4, g.toNat), (5, 8), (5, v.toNat), (5, a.toNat), (6, f.toNat)] := by
    rw [pack_cons 2 29 (pack_cons 4 25 (pack_cons 4 21 (pack_cons 5 16 (pack_cons 5 11 (pack_cons 5 6 (pack_cons 6 0 pack_nil rfl (rfl : 1 = 2 ^ 0)) rfl (rfl : 64 = 2 ^ 6)) rfl (rfl : 2048 = 2 ^ 11)) rfl (rfl : 65536 = 2 ^ 16)) rfl (rfl : 2097152 = 2 ^ 21)) rfl (rfl : 33554432 = 2 ^ 25)) rfl (rfl : 536870912 = 2 ^ 29)]
    omega
  have hf : Fits [(2, q.toNat), (4, 3), (4, g.toNat), (5, 8), (5, v.toNat), (5, a.toNat), (6, f.toNat)] := ⟨q.isLt, by decide, g.isLt, by decide, v.isLt, a.isLt, f.isLt, trivial⟩
  have h0 : x / 33554432 % 16 = 3 := pack_field [(2, q.toNat)] [(4, 3)] [(4, g.toNat), (5, 8), (5, v.toNat), (5, a.toNat), (6, f.toNat)] 25 4 hp hf rfl rfl rfl rfl rfl rfl
  have h1 : x / 65536 % 32 = 8 := pack_field [(2, q.toNat), (4, 3), (4, g.toNat)] [(5, 8)] [(5, v.toNat), (5, a.toNat), (6, f.toNat)] 16 5 hp hf rfl rfl rfl rfl rfl rfl
  have e0 : BitVec.ofNat 2 (x / 536870912) = q := ofNat_field [] q [(4, 3), (4, g.toNat), (5, 8), (5, v.toNat), (5, a.toNat), (6, f.toNat)] 29 hp hf rfl rfl rfl
  have e1 : BitVec.ofNat 4 (x / 2097152) = g := ofNat_field [(2, q.toNat), (4, 3)] g [(5, 8), (5, v.toNat), (5, a.toNat), (6, f.toNat)] 21 hp hf rfl rfl rfl
  have e2 : BitVec.ofNat 5 (x / 2048) = v := ofNat_field [(2, q.toNat), (4, 3), (4, g.toNat), (5, 8)] v [(5, a.toNat), (6, f.toNat)] 11 hp hf rfl rfl rfl
  have e3 : BitVec.ofNat 5 (x / 64) = a := ofNat_field [(2, q.toNat), (4, 3), (4, g.toNat), (5, 8), (5, v.toNat)] a [(6, f.toNat)] 6 hp hf rfl rfl rfl
  have e4 : BitVec.ofNat 6 x = f := ofNat_low [(2, q.toNat), (4, 3), (4, g.toNat), (5, 8), (5, v.toNat), (5, a.toNat)] f hp hf rfl
  refine ⟨pack_bound 31 hp hf rfl, (.stB q g v a f none), ?_, rfl, ?_⟩
  · simp only [decodeNat, decodeSM, h0, h1, ↓reduceIte]
    rw [e0, e1, e2, e3, e4]
    try rfl
  · cases ext <;> first | rfl

theorem EncodeDecode.stH (q : BitVec 2) (g : BitVec 4) (v : BitVec 5) (a : BitVec 5) (f : BitVec 6) (ext : Option (BitVec 25)) : EncodeDecode.Statement (.stH q g v a f ext) := by
  intro hwf x hx
  replace hx : 101253120 + q.toNat * 536870912 + g.toNat * 2097152 + v.toNat * 2048 + a.toNat * 64 + f.toNat = x := Option.some.inj hx
  have hp : x = pack [(2, q.toNat), (4, 3), (4, g.toNat), (5, 9), (5, v.toNat), (5, a.toNat), (6, f.toNat)] := by
    rw [pack_cons 2 29 (pack_cons 4 25 (pack_cons 4 21 (pack_cons 5 16 (pack_cons 5 11 (pack_cons 5 6 (pack_cons 6 0 pack_nil rfl (rfl : 1 = 2 ^ 0)) rfl (rfl : 64 = 2 ^ 6)) rfl (rfl : 2048 = 2 ^ 11)) rfl (rfl : 65536 = 2 ^ 16)) rfl (rfl : 2097152 = 2 ^ 21)) rfl (rfl : 33554432 = 2 ^ 25)) rfl (rfl : 536870912 = 2 ^ 29)]
    omega
  have hf : Fits [(2, q.toNat), (4, 3), (4, g.toNat), (5, 9), (5, v.toNat), (5, a.toNat), (6, f.toNat)] := ⟨q.isLt, by decide, g.isLt, by decide, v.isLt, a.isLt, f.isLt, trivial⟩
  have h0 : x / 33554432 % 16 = 3 := pack_field [(2, q.toNat)] [(4, 3)] [(4, g.toNat), (5, 9), (5, v.toNat), (5, a.toNat), (6, f.toNat)] 25 4 hp hf rfl rfl rfl rfl rfl rfl
  have h1 : x / 65536 % 32 = 9 := pack_field [(2, q.toNat), (4, 3), (4, g.toNat)] [(5, 9)] [(5, v.toNat), (5, a.toNat), (6, f.toNat)] 16 5 hp hf rfl rfl rfl rfl rfl rfl
  have e0 : BitVec.ofNat 2 (x / 536870912) = q := ofNat_field [] q [(4, 3), (4, g.toNat), (5, 9), (5, v.toNat), (5, a.toNat), (6, f.toNat)] 29 hp hf rfl rfl rfl
  have e1 : BitVec.ofNat 4 (x / 2097152) = g := ofNat_field [(2, q.toNat), (4, 3)] g [(5, 9), (5, v.toNat), (5, a.toNat), (6, f.toNat)] 21 hp hf rfl rfl rfl
  have e2 : BitVec.ofNat 5 (x / 2048) = v := ofNat_field [(2, q.toNat), (4, 3), (4, g.toNat), (5, 9)] v [(5, a.toNat), (6, f.toNat)] 11 hp hf rfl rfl rfl
  have e3 : BitVec.ofNat 5 (x / 64) = a := ofNat_field [(2, q.toNat), (4, 3), (4, g.toNat), (5, 9), (5, v.toNat)] a [(6, f.toNat)] 6 hp hf rfl rfl rfl
  have e4 : BitVec.ofNat 6 x = f := ofNat_low [(2, q.toNat), (4, 3), (4, g.toNat), (5, 9), (5, v.toNat), (5, a.toNat)] f hp hf rfl
  refine ⟨pack_bound 31 hp hf rfl, (.stH q g v a f none), ?_, rfl, ?_⟩
  · simp only [decodeNat, decodeSM, h0, h1, ↓reduceIte]
    rw [e0, e1, e2, e3, e4]
    try rfl
  · cases ext <;> first | rfl

theorem EncodeDecode.stW (q : BitVec 2) (g : BitVec 4) (v : BitVec 5) (a : BitVec 5) (f : BitVec 6) (ext : Option (BitVec 25)) : EncodeDecode.Statement (.stW q g v a f ext) := by
  intro hwf x hx
  replace hx : 101318656 + q.toNat * 536870912 + g.toNat * 2097152 + v.toNat * 2048 + a.toNat * 64 + f.toNat = x := Option.some.inj hx
  have hp : x = pack [(2, q.toNat), (4, 3), (4, g.toNat), (5, 10), (5, v.toNat), (5, a.toNat), (6, f.toNat)] := by
    rw [pack_cons 2 29 (pack_cons 4 25 (pack_cons 4 21 (pack_cons 5 16 (pack_cons 5 11 (pack_cons 5 6 (pack_cons 6 0 pack_nil rfl (rfl : 1 = 2 ^ 0)) rfl (rfl : 64 = 2 ^ 6)) rfl (rfl : 2048 = 2 ^ 11)) rfl (rfl : 65536 = 2 ^ 16)) rfl (rfl : 2097152 = 2 ^ 21)) rfl (rfl : 33554432 = 2 ^ 25)) rfl (rfl : 536870912 = 2 ^ 29)]
    omega
  have hf : Fits [(2, q.toNat), (4, 3), (4, g.toNat), (5, 10), (5, v.toNat), (5, a.toNat), (6, f.toNat)] := ⟨q.isLt, by decide, g.isLt, by decide, v.isLt, a.isLt, f.isLt, trivial⟩
  have h0 : x / 33554432 % 16 = 3 := pack_field [(2, q.toNat)] [(4, 3)] [(4, g.toNat), (5, 10), (5, v.toNat), (5, a.toNat), (6, f.toNat)] 25 4 hp hf rfl rfl rfl rfl rfl rfl
  have h1 : x / 65536 % 32 = 10 := pack_field [(2, q.toNat), (4, 3), (4, g.toNat)] [(5, 10)] [(5, v.toNat), (5, a.toNat), (6, f.toNat)] 16 5 hp hf rfl rfl rfl rfl rfl rfl
  have e0 : BitVec.ofNat 2 (x / 536870912) = q := ofNat_field [] q [(4, 3), (4, g.toNat), (5, 10), (5, v.toNat), (5, a.toNat), (6, f.toNat)] 29 hp hf rfl rfl rfl
  have e1 : BitVec.ofNat 4 (x / 2097152) = g := ofNat_field [(2, q.toNat), (4, 3)] g [(5, 10), (5, v.toNat), (5, a.toNat), (6, f.toNat)] 21 hp hf rfl rfl rfl
  have e2 : BitVec.ofNat 5 (x / 2048) = v := ofNat_field [(2, q.toNat), (4, 3), (4, g.toNat), (5, 10)] v [(5, a.toNat), (6, f.toNat)] 11 hp hf rfl rfl rfl
  have e3 : BitVec.ofNat 5 (x / 64) = a := ofNat_field [(2, q.toNat), (4, 3), (4, g.toNat), (5, 10), (5, v.toNat)] a [(6, f.toNat)] 6 hp hf rfl rfl rfl
  have e4 : BitVec.ofNat 6 x = f := ofNat_low [(2, q.toNat), (4, 3), (4, g.toNat), (5, 10), (5, v.toNat), (5, a.toNat)] f hp hf rfl
  refine ⟨pack_bound 31 hp hf rfl, (.stW q g v a f none), ?_, rfl, ?_⟩
  · simp only [decodeNat, decodeSM, h0, h1, ↓reduceIte]
    rw [e0, e1, e2, e3, e4]
    try rfl
  · cases ext <;> first | rfl

theorem EncodeDecode.stD (q : BitVec 2) (g : BitVec 4) (v : BitVec 5) (a : BitVec 5) (f : BitVec 6) (ext : Option (BitVec 25)) : EncodeDecode.Statement (.stD q g v a f ext) := by
  intro hwf x hx
  replace hx : 101384192 + q.toNat * 536870912 + g.toNat * 2097152 + v.toNat * 2048 + a.toNat * 64 + f.toNat = x := Option.some.inj hx
  have hp : x = pack [(2, q.toNat), (4, 3), (4, g.toNat), (5, 11), (5, v.toNat), (5, a.toNat), (6, f.toNat)] := by
    rw [pack_cons 2 29 (pack_cons 4 25 (pack_cons 4 21 (pack_cons 5 16 (pack_cons 5 11 (pack_cons 5 6 (pack_cons 6 0 pack_nil rfl (rfl : 1 = 2 ^ 0)) rfl (rfl : 64 = 2 ^ 6)) rfl (rfl : 2048 = 2 ^ 11)) rfl (rfl : 65536 = 2 ^ 16)) rfl (rfl : 2097152 = 2 ^ 21)) rfl (rfl : 33554432 = 2 ^ 25)) rfl (rfl : 536870912 = 2 ^ 29)]
    omega
  have hf : Fits [(2, q.toNat), (4, 3), (4, g.toNat), (5, 11), (5, v.toNat), (5, a.toNat), (6, f.toNat)] := ⟨q.isLt, by decide, g.isLt, by decide, v.isLt, a.isLt, f.isLt, trivial⟩
  have h0 : x / 33554432 % 16 = 3 := pack_field [(2, q.toNat)] [(4, 3)] [(4, g.toNat), (5, 11), (5, v.toNat), (5, a.toNat), (6, f.toNat)] 25 4 hp hf rfl rfl rfl rfl rfl rfl
  have h1 : x / 65536 % 32 = 11 := pack_field [(2, q.toNat), (4, 3), (4, g.toNat)] [(5, 11)] [(5, v.toNat), (5, a.toNat), (6, f.toNat)] 16 5 hp hf rfl rfl rfl rfl rfl rfl
  have e0 : BitVec.ofNat 2 (x / 536870912) = q := ofNat_field [] q [(4, 3), (4, g.toNat), (5, 11), (5, v.toNat), (5, a.toNat), (6, f.toNat)] 29 hp hf rfl rfl rfl
  have e1 : BitVec.ofNat 4 (x / 2097152) = g := ofNat_field [(2, q.toNat), (4, 3)] g [(5, 11), (5, v.toNat), (5, a.toNat), (6, f.toNat)] 21 hp hf rfl rfl rfl
  have e2 : BitVec.ofNat 5 (x / 2048) = v := ofNat_field [(2, q.toNat), (4, 3), (4, g.toNat), (5, 11)] v [(5, a.toNat), (6, f.toNat)] 11 hp hf rfl rfl rfl
  have e3 : BitVec.ofNat 5 (x / 64) = a := ofNat_field [(2, q.toNat), (4, 3), (4, g.toNat), (5, 11), (5, v.toNat)] a [(6, f.toNat)] 6 hp hf rfl rfl rfl
  have e4 : BitVec.ofNat 6 x = f := ofNat_low [(2, q.toNat), (4, 3), (4, g.toNat), (5, 11), (5, v.toNat), (5, a.toNat)] f hp hf rfl
  refine ⟨pack_bound 31 hp hf rfl, (.stD q g v a f none), ?_, rfl, ?_⟩
  · simp only [decodeNat, decodeSM, h0, h1, ↓reduceIte]
    rw [e0, e1, e2, e3, e4]
    try rfl
  · cases ext <;> first | rfl

theorem EncodeDecode.stRel (q : BitVec 2) (g : BitVec 4) (v : BitVec 5) (a : BitVec 5) (z : BitVec 2) (s : BitVec 4) : EncodeDecode.Statement (.stRel q g v a z s) := by
  intro hwf x hx
  replace hx : 101449728 + q.toNat * 536870912 + g.toNat * 2097152 + v.toNat * 2048 + a.toNat * 64 + z.toNat * 16 + s.toNat = x := Option.some.inj hx
  have hp : x = pack [(2, q.toNat), (4, 3), (4, g.toNat), (5, 12), (5, v.toNat), (5, a.toNat), (2, z.toNat), (4, s.toNat)] := by
    rw [pack_cons 2 29 (pack_cons 4 25 (pack_cons 4 21 (pack_cons 5 16 (pack_cons 5 11 (pack_cons 5 6 (pack_cons 2 4 (pack_cons 4 0 pack_nil rfl (rfl : 1 = 2 ^ 0)) rfl (rfl : 16 = 2 ^ 4)) rfl (rfl : 64 = 2 ^ 6)) rfl (rfl : 2048 = 2 ^ 11)) rfl (rfl : 65536 = 2 ^ 16)) rfl (rfl : 2097152 = 2 ^ 21)) rfl (rfl : 33554432 = 2 ^ 25)) rfl (rfl : 536870912 = 2 ^ 29)]
    omega
  have hf : Fits [(2, q.toNat), (4, 3), (4, g.toNat), (5, 12), (5, v.toNat), (5, a.toNat), (2, z.toNat), (4, s.toNat)] := ⟨q.isLt, by decide, g.isLt, by decide, v.isLt, a.isLt, z.isLt, s.isLt, trivial⟩
  have h0 : x / 33554432 % 16 = 3 := pack_field [(2, q.toNat)] [(4, 3)] [(4, g.toNat), (5, 12), (5, v.toNat), (5, a.toNat), (2, z.toNat), (4, s.toNat)] 25 4 hp hf rfl rfl rfl rfl rfl rfl
  have h1 : x / 65536 % 32 = 12 := pack_field [(2, q.toNat), (4, 3), (4, g.toNat)] [(5, 12)] [(5, v.toNat), (5, a.toNat), (2, z.toNat), (4, s.toNat)] 16 5 hp hf rfl rfl rfl rfl rfl rfl
  have e0 : BitVec.ofNat 2 (x / 536870912) = q := ofNat_field [] q [(4, 3), (4, g.toNat), (5, 12), (5, v.toNat), (5, a.toNat), (2, z.toNat), (4, s.toNat)] 29 hp hf rfl rfl rfl
  have e1 : BitVec.ofNat 4 (x / 2097152) = g := ofNat_field [(2, q.toNat), (4, 3)] g [(5, 12), (5, v.toNat), (5, a.toNat), (2, z.toNat), (4, s.toNat)] 21 hp hf rfl rfl rfl
  have e2 : BitVec.ofNat 5 (x / 2048) = v := ofNat_field [(2, q.toNat), (4, 3), (4, g.toNat), (5, 12)] v [(5, a.toNat), (2, z.toNat), (4, s.toNat)] 11 hp hf rfl rfl rfl
  have e3 : BitVec.ofNat 5 (x / 64) = a := ofNat_field [(2, q.toNat), (4, 3), (4, g.toNat), (5, 12), (5, v.toNat)] a [(2, z.toNat), (4, s.toNat)] 6 hp hf rfl rfl rfl
  have e4 : BitVec.ofNat 2 (x / 16) = z := ofNat_field [(2, q.toNat), (4, 3), (4, g.toNat), (5, 12), (5, v.toNat), (5, a.toNat)] z [(4, s.toNat)] 4 hp hf rfl rfl rfl
  have e5 : BitVec.ofNat 4 x = s := ofNat_low [(2, q.toNat), (4, 3), (4, g.toNat), (5, 12), (5, v.toNat), (5, a.toNat), (2, z.toNat)] s hp hf rfl
  refine ⟨pack_bound 31 hp hf rfl, (.stRel q g v a z s), ?_, rfl, ?_⟩
  · simp only [decodeNat, decodeSM, h0, h1, ↓reduceIte]
    rw [e0, e1, e2, e3, e4, e5]
    try rfl
  · rfl

theorem EncodeDecode.ldh (q : BitVec 2) (g : BitVec 4) (h : BitVec 4) (a : BitVec 5) (f : BitVec 7) (ext : Option (BitVec 25)) : EncodeDecode.Statement (.ldh q g h a f ext) := by
  intro hwf x hx
  replace hx : 101515264 + q.toNat * 536870912 + g.toNat * 2097152 + h.toNat * 4096 + a.toNat * 128 + f.toNat = x := Option.some.inj hx
  have hp : x = pack [(2, q.toNat), (4, 3), (4, g.toNat), (5, 13), (4, h.toNat), (5, a.toNat), (7, f.toNat)] := by
    rw [pack_cons 2 29 (pack_cons 4 25 (pack_cons 4 21 (pack_cons 5 16 (pack_cons 4 12 (pack_cons 5 7 (pack_cons 7 0 pack_nil rfl (rfl : 1 = 2 ^ 0)) rfl (rfl : 128 = 2 ^ 7)) rfl (rfl : 4096 = 2 ^ 12)) rfl (rfl : 65536 = 2 ^ 16)) rfl (rfl : 2097152 = 2 ^ 21)) rfl (rfl : 33554432 = 2 ^ 25)) rfl (rfl : 536870912 = 2 ^ 29)]
    omega
  have hf : Fits [(2, q.toNat), (4, 3), (4, g.toNat), (5, 13), (4, h.toNat), (5, a.toNat), (7, f.toNat)] := ⟨q.isLt, by decide, g.isLt, by decide, h.isLt, a.isLt, f.isLt, trivial⟩
  have h0 : x / 33554432 % 16 = 3 := pack_field [(2, q.toNat)] [(4, 3)] [(4, g.toNat), (5, 13), (4, h.toNat), (5, a.toNat), (7, f.toNat)] 25 4 hp hf rfl rfl rfl rfl rfl rfl
  have h1 : x / 65536 % 32 = 13 := pack_field [(2, q.toNat), (4, 3), (4, g.toNat)] [(5, 13)] [(4, h.toNat), (5, a.toNat), (7, f.toNat)] 16 5 hp hf rfl rfl rfl rfl rfl rfl
  have e0 : BitVec.ofNat 2 (x / 536870912) = q := ofNat_field [] q [(4, 3), (4, g.toNat), (5, 13), (4, h.toNat), (5, a.toNat), (7, f.toNat)] 29 hp hf rfl rfl rfl
  have e1 : BitVec.ofNat 4 (x / 2097152) = g := ofNat_field [(2, q.toNat), (4, 3)] g [(5, 13), (4, h.toNat), (5, a.toNat), (7, f.toNat)] 21 hp hf rfl rfl rfl
  have e2 : BitVec.ofNat 4 (x / 4096) = h := ofNat_field [(2, q.toNat), (4, 3), (4, g.toNat), (5, 13)] h [(5, a.toNat), (7, f.toNat)] 12 hp hf rfl rfl rfl
  have e3 : BitVec.ofNat 5 (x / 128) = a := ofNat_field [(2, q.toNat), (4, 3), (4, g.toNat), (5, 13), (4, h.toNat)] a [(7, f.toNat)] 7 hp hf rfl rfl rfl
  have e4 : BitVec.ofNat 7 x = f := ofNat_low [(2, q.toNat), (4, 3), (4, g.toNat), (5, 13), (4, h.toNat), (5, a.toNat)] f hp hf rfl
  refine ⟨pack_bound 31 hp hf rfl, (.ldh q g h a f none), ?_, rfl, ?_⟩
  · simp only [decodeNat, decodeSM, h0, h1, ↓reduceIte]
    rw [e0, e1, e2, e3, e4]
    try rfl
  · cases ext <;> first | rfl

theorem EncodeDecode.sth (q : BitVec 2) (g : BitVec 4) (h : BitVec 4) (a : BitVec 5) (f : BitVec 7) (ext : Option (BitVec 25)) : EncodeDecode.Statement (.sth q g h a f ext) := by
  intro hwf x hx
  replace hx : 101580800 + q.toNat * 536870912 + g.toNat * 2097152 + h.toNat * 4096 + a.toNat * 128 + f.toNat = x := Option.some.inj hx
  have hp : x = pack [(2, q.toNat), (4, 3), (4, g.toNat), (5, 14), (4, h.toNat), (5, a.toNat), (7, f.toNat)] := by
    rw [pack_cons 2 29 (pack_cons 4 25 (pack_cons 4 21 (pack_cons 5 16 (pack_cons 4 12 (pack_cons 5 7 (pack_cons 7 0 pack_nil rfl (rfl : 1 = 2 ^ 0)) rfl (rfl : 128 = 2 ^ 7)) rfl (rfl : 4096 = 2 ^ 12)) rfl (rfl : 65536 = 2 ^ 16)) rfl (rfl : 2097152 = 2 ^ 21)) rfl (rfl : 33554432 = 2 ^ 25)) rfl (rfl : 536870912 = 2 ^ 29)]
    omega
  have hf : Fits [(2, q.toNat), (4, 3), (4, g.toNat), (5, 14), (4, h.toNat), (5, a.toNat), (7, f.toNat)] := ⟨q.isLt, by decide, g.isLt, by decide, h.isLt, a.isLt, f.isLt, trivial⟩
  have h0 : x / 33554432 % 16 = 3 := pack_field [(2, q.toNat)] [(4, 3)] [(4, g.toNat), (5, 14), (4, h.toNat), (5, a.toNat), (7, f.toNat)] 25 4 hp hf rfl rfl rfl rfl rfl rfl
  have h1 : x / 65536 % 32 = 14 := pack_field [(2, q.toNat), (4, 3), (4, g.toNat)] [(5, 14)] [(4, h.toNat), (5, a.toNat), (7, f.toNat)] 16 5 hp hf rfl rfl rfl rfl rfl rfl
  have e0 : BitVec.ofNat 2 (x / 536870912) = q := ofNat_field [] q [(4, 3), (4, g.toNat), (5, 14), (4, h.toNat), (5, a.toNat), (7, f.toNat)] 29 hp hf rfl rfl rfl
  have e1 : BitVec.ofNat 4 (x / 2097152) = g := ofNat_field [(2, q.toNat), (4, 3)] g [(5, 14), (4, h.toNat), (5, a.toNat), (7, f.toNat)] 21 hp hf rfl rfl rfl
  have e2 : BitVec.ofNat 4 (x / 4096) = h := ofNat_field [(2, q.toNat), (4, 3), (4, g.toNat), (5, 14)] h [(5, a.toNat), (7, f.toNat)] 12 hp hf rfl rfl rfl
  have e3 : BitVec.ofNat 5 (x / 128) = a := ofNat_field [(2, q.toNat), (4, 3), (4, g.toNat), (5, 14), (4, h.toNat)] a [(7, f.toNat)] 7 hp hf rfl rfl rfl
  have e4 : BitVec.ofNat 7 x = f := ofNat_low [(2, q.toNat), (4, 3), (4, g.toNat), (5, 14), (4, h.toNat), (5, a.toNat)] f hp hf rfl
  refine ⟨pack_bound 31 hp hf rfl, (.sth q g h a f none), ?_, rfl, ?_⟩
  · simp only [decodeNat, decodeSM, h0, h1, ↓reduceIte]
    rw [e0, e1, e2, e3, e4]
    try rfl
  · cases ext <;> first | rfl

theorem EncodeDecode.amoAdd (q : BitVec 2) (g : BitVec 4) (d : BitVec 5) (a : BitVec 5) (b : BitVec 5) (w : BitVec 1) (ext : Option (BitVec 25)) : EncodeDecode.Statement (.amoAdd q g d a b w ext) := by
  intro hwf x hx
  replace hx : 101711872 + q.toNat * 536870912 + g.toNat * 2097152 + d.toNat * 2048 + a.toNat * 64 + b.toNat * 2 + w.toNat = x := Option.some.inj hx
  have hp : x = pack [(2, q.toNat), (4, 3), (4, g.toNat), (5, 16), (5, d.toNat), (5, a.toNat), (5, b.toNat), (1, w.toNat)] := by
    rw [pack_cons 2 29 (pack_cons 4 25 (pack_cons 4 21 (pack_cons 5 16 (pack_cons 5 11 (pack_cons 5 6 (pack_cons 5 1 (pack_cons 1 0 pack_nil rfl (rfl : 1 = 2 ^ 0)) rfl (rfl : 2 = 2 ^ 1)) rfl (rfl : 64 = 2 ^ 6)) rfl (rfl : 2048 = 2 ^ 11)) rfl (rfl : 65536 = 2 ^ 16)) rfl (rfl : 2097152 = 2 ^ 21)) rfl (rfl : 33554432 = 2 ^ 25)) rfl (rfl : 536870912 = 2 ^ 29)]
    omega
  have hf : Fits [(2, q.toNat), (4, 3), (4, g.toNat), (5, 16), (5, d.toNat), (5, a.toNat), (5, b.toNat), (1, w.toNat)] := ⟨q.isLt, by decide, g.isLt, by decide, d.isLt, a.isLt, b.isLt, w.isLt, trivial⟩
  have h0 : x / 33554432 % 16 = 3 := pack_field [(2, q.toNat)] [(4, 3)] [(4, g.toNat), (5, 16), (5, d.toNat), (5, a.toNat), (5, b.toNat), (1, w.toNat)] 25 4 hp hf rfl rfl rfl rfl rfl rfl
  have h1 : x / 65536 % 32 = 16 := pack_field [(2, q.toNat), (4, 3), (4, g.toNat)] [(5, 16)] [(5, d.toNat), (5, a.toNat), (5, b.toNat), (1, w.toNat)] 16 5 hp hf rfl rfl rfl rfl rfl rfl
  have e0 : BitVec.ofNat 2 (x / 536870912) = q := ofNat_field [] q [(4, 3), (4, g.toNat), (5, 16), (5, d.toNat), (5, a.toNat), (5, b.toNat), (1, w.toNat)] 29 hp hf rfl rfl rfl
  have e1 : BitVec.ofNat 4 (x / 2097152) = g := ofNat_field [(2, q.toNat), (4, 3)] g [(5, 16), (5, d.toNat), (5, a.toNat), (5, b.toNat), (1, w.toNat)] 21 hp hf rfl rfl rfl
  have e2 : BitVec.ofNat 5 (x / 2048) = d := ofNat_field [(2, q.toNat), (4, 3), (4, g.toNat), (5, 16)] d [(5, a.toNat), (5, b.toNat), (1, w.toNat)] 11 hp hf rfl rfl rfl
  have e3 : BitVec.ofNat 5 (x / 64) = a := ofNat_field [(2, q.toNat), (4, 3), (4, g.toNat), (5, 16), (5, d.toNat)] a [(5, b.toNat), (1, w.toNat)] 6 hp hf rfl rfl rfl
  have e4 : BitVec.ofNat 5 (x / 2) = b := ofNat_field [(2, q.toNat), (4, 3), (4, g.toNat), (5, 16), (5, d.toNat), (5, a.toNat)] b [(1, w.toNat)] 1 hp hf rfl rfl rfl
  have e5 : BitVec.ofNat 1 x = w := ofNat_low [(2, q.toNat), (4, 3), (4, g.toNat), (5, 16), (5, d.toNat), (5, a.toNat), (5, b.toNat)] w hp hf rfl
  refine ⟨pack_bound 31 hp hf rfl, (.amoAdd q g d a b w none), ?_, rfl, ?_⟩
  · simp only [decodeNat, decodeSM, h0, h1, ↓reduceIte]
    rw [e0, e1, e2, e3, e4, e5]
    try rfl
  · cases ext <;> first | rfl

theorem EncodeDecode.amoAdds (q : BitVec 2) (g : BitVec 4) (d : BitVec 5) (a : BitVec 5) (b : BitVec 5) (w : BitVec 1) (ext : Option (BitVec 25)) : EncodeDecode.Statement (.amoAdds q g d a b w ext) := by
  intro hwf x hx
  replace hx : 101777408 + q.toNat * 536870912 + g.toNat * 2097152 + d.toNat * 2048 + a.toNat * 64 + b.toNat * 2 + w.toNat = x := Option.some.inj hx
  have hp : x = pack [(2, q.toNat), (4, 3), (4, g.toNat), (5, 17), (5, d.toNat), (5, a.toNat), (5, b.toNat), (1, w.toNat)] := by
    rw [pack_cons 2 29 (pack_cons 4 25 (pack_cons 4 21 (pack_cons 5 16 (pack_cons 5 11 (pack_cons 5 6 (pack_cons 5 1 (pack_cons 1 0 pack_nil rfl (rfl : 1 = 2 ^ 0)) rfl (rfl : 2 = 2 ^ 1)) rfl (rfl : 64 = 2 ^ 6)) rfl (rfl : 2048 = 2 ^ 11)) rfl (rfl : 65536 = 2 ^ 16)) rfl (rfl : 2097152 = 2 ^ 21)) rfl (rfl : 33554432 = 2 ^ 25)) rfl (rfl : 536870912 = 2 ^ 29)]
    omega
  have hf : Fits [(2, q.toNat), (4, 3), (4, g.toNat), (5, 17), (5, d.toNat), (5, a.toNat), (5, b.toNat), (1, w.toNat)] := ⟨q.isLt, by decide, g.isLt, by decide, d.isLt, a.isLt, b.isLt, w.isLt, trivial⟩
  have h0 : x / 33554432 % 16 = 3 := pack_field [(2, q.toNat)] [(4, 3)] [(4, g.toNat), (5, 17), (5, d.toNat), (5, a.toNat), (5, b.toNat), (1, w.toNat)] 25 4 hp hf rfl rfl rfl rfl rfl rfl
  have h1 : x / 65536 % 32 = 17 := pack_field [(2, q.toNat), (4, 3), (4, g.toNat)] [(5, 17)] [(5, d.toNat), (5, a.toNat), (5, b.toNat), (1, w.toNat)] 16 5 hp hf rfl rfl rfl rfl rfl rfl
  have e0 : BitVec.ofNat 2 (x / 536870912) = q := ofNat_field [] q [(4, 3), (4, g.toNat), (5, 17), (5, d.toNat), (5, a.toNat), (5, b.toNat), (1, w.toNat)] 29 hp hf rfl rfl rfl
  have e1 : BitVec.ofNat 4 (x / 2097152) = g := ofNat_field [(2, q.toNat), (4, 3)] g [(5, 17), (5, d.toNat), (5, a.toNat), (5, b.toNat), (1, w.toNat)] 21 hp hf rfl rfl rfl
  have e2 : BitVec.ofNat 5 (x / 2048) = d := ofNat_field [(2, q.toNat), (4, 3), (4, g.toNat), (5, 17)] d [(5, a.toNat), (5, b.toNat), (1, w.toNat)] 11 hp hf rfl rfl rfl
  have e3 : BitVec.ofNat 5 (x / 64) = a := ofNat_field [(2, q.toNat), (4, 3), (4, g.toNat), (5, 17), (5, d.toNat)] a [(5, b.toNat), (1, w.toNat)] 6 hp hf rfl rfl rfl
  have e4 : BitVec.ofNat 5 (x / 2) = b := ofNat_field [(2, q.toNat), (4, 3), (4, g.toNat), (5, 17), (5, d.toNat), (5, a.toNat)] b [(1, w.toNat)] 1 hp hf rfl rfl rfl
  have e5 : BitVec.ofNat 1 x = w := ofNat_low [(2, q.toNat), (4, 3), (4, g.toNat), (5, 17), (5, d.toNat), (5, a.toNat), (5, b.toNat)] w hp hf rfl
  refine ⟨pack_bound 31 hp hf rfl, (.amoAdds q g d a b w none), ?_, rfl, ?_⟩
  · simp only [decodeNat, decodeSM, h0, h1, ↓reduceIte]
    rw [e0, e1, e2, e3, e4, e5]
    try rfl
  · cases ext <;> first | rfl

theorem EncodeDecode.amoMin (q : BitVec 2) (g : BitVec 4) (d : BitVec 5) (a : BitVec 5) (b : BitVec 5) (w : BitVec 1) (ext : Option (BitVec 25)) : EncodeDecode.Statement (.amoMin q g d a b w ext) := by
  intro hwf x hx
  replace hx : 101842944 + q.toNat * 536870912 + g.toNat * 2097152 + d.toNat * 2048 + a.toNat * 64 + b.toNat * 2 + w.toNat = x := Option.some.inj hx
  have hp : x = pack [(2, q.toNat), (4, 3), (4, g.toNat), (5, 18), (5, d.toNat), (5, a.toNat), (5, b.toNat), (1, w.toNat)] := by
    rw [pack_cons 2 29 (pack_cons 4 25 (pack_cons 4 21 (pack_cons 5 16 (pack_cons 5 11 (pack_cons 5 6 (pack_cons 5 1 (pack_cons 1 0 pack_nil rfl (rfl : 1 = 2 ^ 0)) rfl (rfl : 2 = 2 ^ 1)) rfl (rfl : 64 = 2 ^ 6)) rfl (rfl : 2048 = 2 ^ 11)) rfl (rfl : 65536 = 2 ^ 16)) rfl (rfl : 2097152 = 2 ^ 21)) rfl (rfl : 33554432 = 2 ^ 25)) rfl (rfl : 536870912 = 2 ^ 29)]
    omega
  have hf : Fits [(2, q.toNat), (4, 3), (4, g.toNat), (5, 18), (5, d.toNat), (5, a.toNat), (5, b.toNat), (1, w.toNat)] := ⟨q.isLt, by decide, g.isLt, by decide, d.isLt, a.isLt, b.isLt, w.isLt, trivial⟩
  have h0 : x / 33554432 % 16 = 3 := pack_field [(2, q.toNat)] [(4, 3)] [(4, g.toNat), (5, 18), (5, d.toNat), (5, a.toNat), (5, b.toNat), (1, w.toNat)] 25 4 hp hf rfl rfl rfl rfl rfl rfl
  have h1 : x / 65536 % 32 = 18 := pack_field [(2, q.toNat), (4, 3), (4, g.toNat)] [(5, 18)] [(5, d.toNat), (5, a.toNat), (5, b.toNat), (1, w.toNat)] 16 5 hp hf rfl rfl rfl rfl rfl rfl
  have e0 : BitVec.ofNat 2 (x / 536870912) = q := ofNat_field [] q [(4, 3), (4, g.toNat), (5, 18), (5, d.toNat), (5, a.toNat), (5, b.toNat), (1, w.toNat)] 29 hp hf rfl rfl rfl
  have e1 : BitVec.ofNat 4 (x / 2097152) = g := ofNat_field [(2, q.toNat), (4, 3)] g [(5, 18), (5, d.toNat), (5, a.toNat), (5, b.toNat), (1, w.toNat)] 21 hp hf rfl rfl rfl
  have e2 : BitVec.ofNat 5 (x / 2048) = d := ofNat_field [(2, q.toNat), (4, 3), (4, g.toNat), (5, 18)] d [(5, a.toNat), (5, b.toNat), (1, w.toNat)] 11 hp hf rfl rfl rfl
  have e3 : BitVec.ofNat 5 (x / 64) = a := ofNat_field [(2, q.toNat), (4, 3), (4, g.toNat), (5, 18), (5, d.toNat)] a [(5, b.toNat), (1, w.toNat)] 6 hp hf rfl rfl rfl
  have e4 : BitVec.ofNat 5 (x / 2) = b := ofNat_field [(2, q.toNat), (4, 3), (4, g.toNat), (5, 18), (5, d.toNat), (5, a.toNat)] b [(1, w.toNat)] 1 hp hf rfl rfl rfl
  have e5 : BitVec.ofNat 1 x = w := ofNat_low [(2, q.toNat), (4, 3), (4, g.toNat), (5, 18), (5, d.toNat), (5, a.toNat), (5, b.toNat)] w hp hf rfl
  refine ⟨pack_bound 31 hp hf rfl, (.amoMin q g d a b w none), ?_, rfl, ?_⟩
  · simp only [decodeNat, decodeSM, h0, h1, ↓reduceIte]
    rw [e0, e1, e2, e3, e4, e5]
    try rfl
  · cases ext <;> first | rfl

theorem EncodeDecode.amoMax (q : BitVec 2) (g : BitVec 4) (d : BitVec 5) (a : BitVec 5) (b : BitVec 5) (w : BitVec 1) (ext : Option (BitVec 25)) : EncodeDecode.Statement (.amoMax q g d a b w ext) := by
  intro hwf x hx
  replace hx : 101908480 + q.toNat * 536870912 + g.toNat * 2097152 + d.toNat * 2048 + a.toNat * 64 + b.toNat * 2 + w.toNat = x := Option.some.inj hx
  have hp : x = pack [(2, q.toNat), (4, 3), (4, g.toNat), (5, 19), (5, d.toNat), (5, a.toNat), (5, b.toNat), (1, w.toNat)] := by
    rw [pack_cons 2 29 (pack_cons 4 25 (pack_cons 4 21 (pack_cons 5 16 (pack_cons 5 11 (pack_cons 5 6 (pack_cons 5 1 (pack_cons 1 0 pack_nil rfl (rfl : 1 = 2 ^ 0)) rfl (rfl : 2 = 2 ^ 1)) rfl (rfl : 64 = 2 ^ 6)) rfl (rfl : 2048 = 2 ^ 11)) rfl (rfl : 65536 = 2 ^ 16)) rfl (rfl : 2097152 = 2 ^ 21)) rfl (rfl : 33554432 = 2 ^ 25)) rfl (rfl : 536870912 = 2 ^ 29)]
    omega
  have hf : Fits [(2, q.toNat), (4, 3), (4, g.toNat), (5, 19), (5, d.toNat), (5, a.toNat), (5, b.toNat), (1, w.toNat)] := ⟨q.isLt, by decide, g.isLt, by decide, d.isLt, a.isLt, b.isLt, w.isLt, trivial⟩
  have h0 : x / 33554432 % 16 = 3 := pack_field [(2, q.toNat)] [(4, 3)] [(4, g.toNat), (5, 19), (5, d.toNat), (5, a.toNat), (5, b.toNat), (1, w.toNat)] 25 4 hp hf rfl rfl rfl rfl rfl rfl
  have h1 : x / 65536 % 32 = 19 := pack_field [(2, q.toNat), (4, 3), (4, g.toNat)] [(5, 19)] [(5, d.toNat), (5, a.toNat), (5, b.toNat), (1, w.toNat)] 16 5 hp hf rfl rfl rfl rfl rfl rfl
  have e0 : BitVec.ofNat 2 (x / 536870912) = q := ofNat_field [] q [(4, 3), (4, g.toNat), (5, 19), (5, d.toNat), (5, a.toNat), (5, b.toNat), (1, w.toNat)] 29 hp hf rfl rfl rfl
  have e1 : BitVec.ofNat 4 (x / 2097152) = g := ofNat_field [(2, q.toNat), (4, 3)] g [(5, 19), (5, d.toNat), (5, a.toNat), (5, b.toNat), (1, w.toNat)] 21 hp hf rfl rfl rfl
  have e2 : BitVec.ofNat 5 (x / 2048) = d := ofNat_field [(2, q.toNat), (4, 3), (4, g.toNat), (5, 19)] d [(5, a.toNat), (5, b.toNat), (1, w.toNat)] 11 hp hf rfl rfl rfl
  have e3 : BitVec.ofNat 5 (x / 64) = a := ofNat_field [(2, q.toNat), (4, 3), (4, g.toNat), (5, 19), (5, d.toNat)] a [(5, b.toNat), (1, w.toNat)] 6 hp hf rfl rfl rfl
  have e4 : BitVec.ofNat 5 (x / 2) = b := ofNat_field [(2, q.toNat), (4, 3), (4, g.toNat), (5, 19), (5, d.toNat), (5, a.toNat)] b [(1, w.toNat)] 1 hp hf rfl rfl rfl
  have e5 : BitVec.ofNat 1 x = w := ofNat_low [(2, q.toNat), (4, 3), (4, g.toNat), (5, 19), (5, d.toNat), (5, a.toNat), (5, b.toNat)] w hp hf rfl
  refine ⟨pack_bound 31 hp hf rfl, (.amoMax q g d a b w none), ?_, rfl, ?_⟩
  · simp only [decodeNat, decodeSM, h0, h1, ↓reduceIte]
    rw [e0, e1, e2, e3, e4, e5]
    try rfl
  · cases ext <;> first | rfl

theorem EncodeDecode.amoAnd (q : BitVec 2) (g : BitVec 4) (d : BitVec 5) (a : BitVec 5) (b : BitVec 5) (w : BitVec 1) (ext : Option (BitVec 25)) : EncodeDecode.Statement (.amoAnd q g d a b w ext) := by
  intro hwf x hx
  replace hx : 101974016 + q.toNat * 536870912 + g.toNat * 2097152 + d.toNat * 2048 + a.toNat * 64 + b.toNat * 2 + w.toNat = x := Option.some.inj hx
  have hp : x = pack [(2, q.toNat), (4, 3), (4, g.toNat), (5, 20), (5, d.toNat), (5, a.toNat), (5, b.toNat), (1, w.toNat)] := by
    rw [pack_cons 2 29 (pack_cons 4 25 (pack_cons 4 21 (pack_cons 5 16 (pack_cons 5 11 (pack_cons 5 6 (pack_cons 5 1 (pack_cons 1 0 pack_nil rfl (rfl : 1 = 2 ^ 0)) rfl (rfl : 2 = 2 ^ 1)) rfl (rfl : 64 = 2 ^ 6)) rfl (rfl : 2048 = 2 ^ 11)) rfl (rfl : 65536 = 2 ^ 16)) rfl (rfl : 2097152 = 2 ^ 21)) rfl (rfl : 33554432 = 2 ^ 25)) rfl (rfl : 536870912 = 2 ^ 29)]
    omega
  have hf : Fits [(2, q.toNat), (4, 3), (4, g.toNat), (5, 20), (5, d.toNat), (5, a.toNat), (5, b.toNat), (1, w.toNat)] := ⟨q.isLt, by decide, g.isLt, by decide, d.isLt, a.isLt, b.isLt, w.isLt, trivial⟩
  have h0 : x / 33554432 % 16 = 3 := pack_field [(2, q.toNat)] [(4, 3)] [(4, g.toNat), (5, 20), (5, d.toNat), (5, a.toNat), (5, b.toNat), (1, w.toNat)] 25 4 hp hf rfl rfl rfl rfl rfl rfl
  have h1 : x / 65536 % 32 = 20 := pack_field [(2, q.toNat), (4, 3), (4, g.toNat)] [(5, 20)] [(5, d.toNat), (5, a.toNat), (5, b.toNat), (1, w.toNat)] 16 5 hp hf rfl rfl rfl rfl rfl rfl
  have e0 : BitVec.ofNat 2 (x / 536870912) = q := ofNat_field [] q [(4, 3), (4, g.toNat), (5, 20), (5, d.toNat), (5, a.toNat), (5, b.toNat), (1, w.toNat)] 29 hp hf rfl rfl rfl
  have e1 : BitVec.ofNat 4 (x / 2097152) = g := ofNat_field [(2, q.toNat), (4, 3)] g [(5, 20), (5, d.toNat), (5, a.toNat), (5, b.toNat), (1, w.toNat)] 21 hp hf rfl rfl rfl
  have e2 : BitVec.ofNat 5 (x / 2048) = d := ofNat_field [(2, q.toNat), (4, 3), (4, g.toNat), (5, 20)] d [(5, a.toNat), (5, b.toNat), (1, w.toNat)] 11 hp hf rfl rfl rfl
  have e3 : BitVec.ofNat 5 (x / 64) = a := ofNat_field [(2, q.toNat), (4, 3), (4, g.toNat), (5, 20), (5, d.toNat)] a [(5, b.toNat), (1, w.toNat)] 6 hp hf rfl rfl rfl
  have e4 : BitVec.ofNat 5 (x / 2) = b := ofNat_field [(2, q.toNat), (4, 3), (4, g.toNat), (5, 20), (5, d.toNat), (5, a.toNat)] b [(1, w.toNat)] 1 hp hf rfl rfl rfl
  have e5 : BitVec.ofNat 1 x = w := ofNat_low [(2, q.toNat), (4, 3), (4, g.toNat), (5, 20), (5, d.toNat), (5, a.toNat), (5, b.toNat)] w hp hf rfl
  refine ⟨pack_bound 31 hp hf rfl, (.amoAnd q g d a b w none), ?_, rfl, ?_⟩
  · simp only [decodeNat, decodeSM, h0, h1, ↓reduceIte]
    rw [e0, e1, e2, e3, e4, e5]
    try rfl
  · cases ext <;> first | rfl

theorem EncodeDecode.amoOr (q : BitVec 2) (g : BitVec 4) (d : BitVec 5) (a : BitVec 5) (b : BitVec 5) (w : BitVec 1) (ext : Option (BitVec 25)) : EncodeDecode.Statement (.amoOr q g d a b w ext) := by
  intro hwf x hx
  replace hx : 102039552 + q.toNat * 536870912 + g.toNat * 2097152 + d.toNat * 2048 + a.toNat * 64 + b.toNat * 2 + w.toNat = x := Option.some.inj hx
  have hp : x = pack [(2, q.toNat), (4, 3), (4, g.toNat), (5, 21), (5, d.toNat), (5, a.toNat), (5, b.toNat), (1, w.toNat)] := by
    rw [pack_cons 2 29 (pack_cons 4 25 (pack_cons 4 21 (pack_cons 5 16 (pack_cons 5 11 (pack_cons 5 6 (pack_cons 5 1 (pack_cons 1 0 pack_nil rfl (rfl : 1 = 2 ^ 0)) rfl (rfl : 2 = 2 ^ 1)) rfl (rfl : 64 = 2 ^ 6)) rfl (rfl : 2048 = 2 ^ 11)) rfl (rfl : 65536 = 2 ^ 16)) rfl (rfl : 2097152 = 2 ^ 21)) rfl (rfl : 33554432 = 2 ^ 25)) rfl (rfl : 536870912 = 2 ^ 29)]
    omega
  have hf : Fits [(2, q.toNat), (4, 3), (4, g.toNat), (5, 21), (5, d.toNat), (5, a.toNat), (5, b.toNat), (1, w.toNat)] := ⟨q.isLt, by decide, g.isLt, by decide, d.isLt, a.isLt, b.isLt, w.isLt, trivial⟩
  have h0 : x / 33554432 % 16 = 3 := pack_field [(2, q.toNat)] [(4, 3)] [(4, g.toNat), (5, 21), (5, d.toNat), (5, a.toNat), (5, b.toNat), (1, w.toNat)] 25 4 hp hf rfl rfl rfl rfl rfl rfl
  have h1 : x / 65536 % 32 = 21 := pack_field [(2, q.toNat), (4, 3), (4, g.toNat)] [(5, 21)] [(5, d.toNat), (5, a.toNat), (5, b.toNat), (1, w.toNat)] 16 5 hp hf rfl rfl rfl rfl rfl rfl
  have e0 : BitVec.ofNat 2 (x / 536870912) = q := ofNat_field [] q [(4, 3), (4, g.toNat), (5, 21), (5, d.toNat), (5, a.toNat), (5, b.toNat), (1, w.toNat)] 29 hp hf rfl rfl rfl
  have e1 : BitVec.ofNat 4 (x / 2097152) = g := ofNat_field [(2, q.toNat), (4, 3)] g [(5, 21), (5, d.toNat), (5, a.toNat), (5, b.toNat), (1, w.toNat)] 21 hp hf rfl rfl rfl
  have e2 : BitVec.ofNat 5 (x / 2048) = d := ofNat_field [(2, q.toNat), (4, 3), (4, g.toNat), (5, 21)] d [(5, a.toNat), (5, b.toNat), (1, w.toNat)] 11 hp hf rfl rfl rfl
  have e3 : BitVec.ofNat 5 (x / 64) = a := ofNat_field [(2, q.toNat), (4, 3), (4, g.toNat), (5, 21), (5, d.toNat)] a [(5, b.toNat), (1, w.toNat)] 6 hp hf rfl rfl rfl
  have e4 : BitVec.ofNat 5 (x / 2) = b := ofNat_field [(2, q.toNat), (4, 3), (4, g.toNat), (5, 21), (5, d.toNat), (5, a.toNat)] b [(1, w.toNat)] 1 hp hf rfl rfl rfl
  have e5 : BitVec.ofNat 1 x = w := ofNat_low [(2, q.toNat), (4, 3), (4, g.toNat), (5, 21), (5, d.toNat), (5, a.toNat), (5, b.toNat)] w hp hf rfl
  refine ⟨pack_bound 31 hp hf rfl, (.amoOr q g d a b w none), ?_, rfl, ?_⟩
  · simp only [decodeNat, decodeSM, h0, h1, ↓reduceIte]
    rw [e0, e1, e2, e3, e4, e5]
    try rfl
  · cases ext <;> first | rfl

theorem EncodeDecode.amoXor (q : BitVec 2) (g : BitVec 4) (d : BitVec 5) (a : BitVec 5) (b : BitVec 5) (w : BitVec 1) (ext : Option (BitVec 25)) : EncodeDecode.Statement (.amoXor q g d a b w ext) := by
  intro hwf x hx
  replace hx : 102105088 + q.toNat * 536870912 + g.toNat * 2097152 + d.toNat * 2048 + a.toNat * 64 + b.toNat * 2 + w.toNat = x := Option.some.inj hx
  have hp : x = pack [(2, q.toNat), (4, 3), (4, g.toNat), (5, 22), (5, d.toNat), (5, a.toNat), (5, b.toNat), (1, w.toNat)] := by
    rw [pack_cons 2 29 (pack_cons 4 25 (pack_cons 4 21 (pack_cons 5 16 (pack_cons 5 11 (pack_cons 5 6 (pack_cons 5 1 (pack_cons 1 0 pack_nil rfl (rfl : 1 = 2 ^ 0)) rfl (rfl : 2 = 2 ^ 1)) rfl (rfl : 64 = 2 ^ 6)) rfl (rfl : 2048 = 2 ^ 11)) rfl (rfl : 65536 = 2 ^ 16)) rfl (rfl : 2097152 = 2 ^ 21)) rfl (rfl : 33554432 = 2 ^ 25)) rfl (rfl : 536870912 = 2 ^ 29)]
    omega
  have hf : Fits [(2, q.toNat), (4, 3), (4, g.toNat), (5, 22), (5, d.toNat), (5, a.toNat), (5, b.toNat), (1, w.toNat)] := ⟨q.isLt, by decide, g.isLt, by decide, d.isLt, a.isLt, b.isLt, w.isLt, trivial⟩
  have h0 : x / 33554432 % 16 = 3 := pack_field [(2, q.toNat)] [(4, 3)] [(4, g.toNat), (5, 22), (5, d.toNat), (5, a.toNat), (5, b.toNat), (1, w.toNat)] 25 4 hp hf rfl rfl rfl rfl rfl rfl
  have h1 : x / 65536 % 32 = 22 := pack_field [(2, q.toNat), (4, 3), (4, g.toNat)] [(5, 22)] [(5, d.toNat), (5, a.toNat), (5, b.toNat), (1, w.toNat)] 16 5 hp hf rfl rfl rfl rfl rfl rfl
  have e0 : BitVec.ofNat 2 (x / 536870912) = q := ofNat_field [] q [(4, 3), (4, g.toNat), (5, 22), (5, d.toNat), (5, a.toNat), (5, b.toNat), (1, w.toNat)] 29 hp hf rfl rfl rfl
  have e1 : BitVec.ofNat 4 (x / 2097152) = g := ofNat_field [(2, q.toNat), (4, 3)] g [(5, 22), (5, d.toNat), (5, a.toNat), (5, b.toNat), (1, w.toNat)] 21 hp hf rfl rfl rfl
  have e2 : BitVec.ofNat 5 (x / 2048) = d := ofNat_field [(2, q.toNat), (4, 3), (4, g.toNat), (5, 22)] d [(5, a.toNat), (5, b.toNat), (1, w.toNat)] 11 hp hf rfl rfl rfl
  have e3 : BitVec.ofNat 5 (x / 64) = a := ofNat_field [(2, q.toNat), (4, 3), (4, g.toNat), (5, 22), (5, d.toNat)] a [(5, b.toNat), (1, w.toNat)] 6 hp hf rfl rfl rfl
  have e4 : BitVec.ofNat 5 (x / 2) = b := ofNat_field [(2, q.toNat), (4, 3), (4, g.toNat), (5, 22), (5, d.toNat), (5, a.toNat)] b [(1, w.toNat)] 1 hp hf rfl rfl rfl
  have e5 : BitVec.ofNat 1 x = w := ofNat_low [(2, q.toNat), (4, 3), (4, g.toNat), (5, 22), (5, d.toNat), (5, a.toNat), (5, b.toNat)] w hp hf rfl
  refine ⟨pack_bound 31 hp hf rfl, (.amoXor q g d a b w none), ?_, rfl, ?_⟩
  · simp only [decodeNat, decodeSM, h0, h1, ↓reduceIte]
    rw [e0, e1, e2, e3, e4, e5]
    try rfl
  · cases ext <;> first | rfl

theorem EncodeDecode.amoSwap (q : BitVec 2) (g : BitVec 4) (d : BitVec 5) (a : BitVec 5) (b : BitVec 5) (w : BitVec 1) (ext : Option (BitVec 25)) : EncodeDecode.Statement (.amoSwap q g d a b w ext) := by
  intro hwf x hx
  replace hx : 102170624 + q.toNat * 536870912 + g.toNat * 2097152 + d.toNat * 2048 + a.toNat * 64 + b.toNat * 2 + w.toNat = x := Option.some.inj hx
  have hp : x = pack [(2, q.toNat), (4, 3), (4, g.toNat), (5, 23), (5, d.toNat), (5, a.toNat), (5, b.toNat), (1, w.toNat)] := by
    rw [pack_cons 2 29 (pack_cons 4 25 (pack_cons 4 21 (pack_cons 5 16 (pack_cons 5 11 (pack_cons 5 6 (pack_cons 5 1 (pack_cons 1 0 pack_nil rfl (rfl : 1 = 2 ^ 0)) rfl (rfl : 2 = 2 ^ 1)) rfl (rfl : 64 = 2 ^ 6)) rfl (rfl : 2048 = 2 ^ 11)) rfl (rfl : 65536 = 2 ^ 16)) rfl (rfl : 2097152 = 2 ^ 21)) rfl (rfl : 33554432 = 2 ^ 25)) rfl (rfl : 536870912 = 2 ^ 29)]
    omega
  have hf : Fits [(2, q.toNat), (4, 3), (4, g.toNat), (5, 23), (5, d.toNat), (5, a.toNat), (5, b.toNat), (1, w.toNat)] := ⟨q.isLt, by decide, g.isLt, by decide, d.isLt, a.isLt, b.isLt, w.isLt, trivial⟩
  have h0 : x / 33554432 % 16 = 3 := pack_field [(2, q.toNat)] [(4, 3)] [(4, g.toNat), (5, 23), (5, d.toNat), (5, a.toNat), (5, b.toNat), (1, w.toNat)] 25 4 hp hf rfl rfl rfl rfl rfl rfl
  have h1 : x / 65536 % 32 = 23 := pack_field [(2, q.toNat), (4, 3), (4, g.toNat)] [(5, 23)] [(5, d.toNat), (5, a.toNat), (5, b.toNat), (1, w.toNat)] 16 5 hp hf rfl rfl rfl rfl rfl rfl
  have e0 : BitVec.ofNat 2 (x / 536870912) = q := ofNat_field [] q [(4, 3), (4, g.toNat), (5, 23), (5, d.toNat), (5, a.toNat), (5, b.toNat), (1, w.toNat)] 29 hp hf rfl rfl rfl
  have e1 : BitVec.ofNat 4 (x / 2097152) = g := ofNat_field [(2, q.toNat), (4, 3)] g [(5, 23), (5, d.toNat), (5, a.toNat), (5, b.toNat), (1, w.toNat)] 21 hp hf rfl rfl rfl
  have e2 : BitVec.ofNat 5 (x / 2048) = d := ofNat_field [(2, q.toNat), (4, 3), (4, g.toNat), (5, 23)] d [(5, a.toNat), (5, b.toNat), (1, w.toNat)] 11 hp hf rfl rfl rfl
  have e3 : BitVec.ofNat 5 (x / 64) = a := ofNat_field [(2, q.toNat), (4, 3), (4, g.toNat), (5, 23), (5, d.toNat)] a [(5, b.toNat), (1, w.toNat)] 6 hp hf rfl rfl rfl
  have e4 : BitVec.ofNat 5 (x / 2) = b := ofNat_field [(2, q.toNat), (4, 3), (4, g.toNat), (5, 23), (5, d.toNat), (5, a.toNat)] b [(1, w.toNat)] 1 hp hf rfl rfl rfl
  have e5 : BitVec.ofNat 1 x = w := ofNat_low [(2, q.toNat), (4, 3), (4, g.toNat), (5, 23), (5, d.toNat), (5, a.toNat), (5, b.toNat)] w hp hf rfl
  refine ⟨pack_bound 31 hp hf rfl, (.amoSwap q g d a b w none), ?_, rfl, ?_⟩
  · simp only [decodeNat, decodeSM, h0, h1, ↓reduceIte]
    rw [e0, e1, e2, e3, e4, e5]
    try rfl
  · cases ext <;> first | rfl

theorem EncodeDecode.amoCas (q : BitVec 2) (g : BitVec 4) (d : BitVec 5) (a : BitVec 5) (b : BitVec 5) (w : BitVec 1) (ext : Option (BitVec 25)) : EncodeDecode.Statement (.amoCas q g d a b w ext) := by
  intro hwf x hx
  replace hx : 102236160 + q.toNat * 536870912 + g.toNat * 2097152 + d.toNat * 2048 + a.toNat * 64 + b.toNat * 2 + w.toNat = x := Option.some.inj hx
  have hp : x = pack [(2, q.toNat), (4, 3), (4, g.toNat), (5, 24), (5, d.toNat), (5, a.toNat), (5, b.toNat), (1, w.toNat)] := by
    rw [pack_cons 2 29 (pack_cons 4 25 (pack_cons 4 21 (pack_cons 5 16 (pack_cons 5 11 (pack_cons 5 6 (pack_cons 5 1 (pack_cons 1 0 pack_nil rfl (rfl : 1 = 2 ^ 0)) rfl (rfl : 2 = 2 ^ 1)) rfl (rfl : 64 = 2 ^ 6)) rfl (rfl : 2048 = 2 ^ 11)) rfl (rfl : 65536 = 2 ^ 16)) rfl (rfl : 2097152 = 2 ^ 21)) rfl (rfl : 33554432 = 2 ^ 25)) rfl (rfl : 536870912 = 2 ^ 29)]
    omega
  have hf : Fits [(2, q.toNat), (4, 3), (4, g.toNat), (5, 24), (5, d.toNat), (5, a.toNat), (5, b.toNat), (1, w.toNat)] := ⟨q.isLt, by decide, g.isLt, by decide, d.isLt, a.isLt, b.isLt, w.isLt, trivial⟩
  have h0 : x / 33554432 % 16 = 3 := pack_field [(2, q.toNat)] [(4, 3)] [(4, g.toNat), (5, 24), (5, d.toNat), (5, a.toNat), (5, b.toNat), (1, w.toNat)] 25 4 hp hf rfl rfl rfl rfl rfl rfl
  have h1 : x / 65536 % 32 = 24 := pack_field [(2, q.toNat), (4, 3), (4, g.toNat)] [(5, 24)] [(5, d.toNat), (5, a.toNat), (5, b.toNat), (1, w.toNat)] 16 5 hp hf rfl rfl rfl rfl rfl rfl
  have e0 : BitVec.ofNat 2 (x / 536870912) = q := ofNat_field [] q [(4, 3), (4, g.toNat), (5, 24), (5, d.toNat), (5, a.toNat), (5, b.toNat), (1, w.toNat)] 29 hp hf rfl rfl rfl
  have e1 : BitVec.ofNat 4 (x / 2097152) = g := ofNat_field [(2, q.toNat), (4, 3)] g [(5, 24), (5, d.toNat), (5, a.toNat), (5, b.toNat), (1, w.toNat)] 21 hp hf rfl rfl rfl
  have e2 : BitVec.ofNat 5 (x / 2048) = d := ofNat_field [(2, q.toNat), (4, 3), (4, g.toNat), (5, 24)] d [(5, a.toNat), (5, b.toNat), (1, w.toNat)] 11 hp hf rfl rfl rfl
  have e3 : BitVec.ofNat 5 (x / 64) = a := ofNat_field [(2, q.toNat), (4, 3), (4, g.toNat), (5, 24), (5, d.toNat)] a [(5, b.toNat), (1, w.toNat)] 6 hp hf rfl rfl rfl
  have e4 : BitVec.ofNat 5 (x / 2) = b := ofNat_field [(2, q.toNat), (4, 3), (4, g.toNat), (5, 24), (5, d.toNat), (5, a.toNat)] b [(1, w.toNat)] 1 hp hf rfl rfl rfl
  have e5 : BitVec.ofNat 1 x = w := ofNat_low [(2, q.toNat), (4, 3), (4, g.toNat), (5, 24), (5, d.toNat), (5, a.toNat), (5, b.toNat)] w hp hf rfl
  refine ⟨pack_bound 31 hp hf rfl, (.amoCas q g d a b w none), ?_, rfl, ?_⟩
  · simp only [decodeNat, decodeSM, h0, h1, ↓reduceIte]
    rw [e0, e1, e2, e3, e4, e5]
    try rfl
  · cases ext <;> first | rfl

theorem EncodeDecode.amoIncw (q : BitVec 2) (g : BitVec 4) (d : BitVec 5) (a : BitVec 5) (b : BitVec 5) (w : BitVec 1) (ext : Option (BitVec 25)) : EncodeDecode.Statement (.amoIncw q g d a b w ext) := by
  intro hwf x hx
  replace hx : 102301696 + q.toNat * 536870912 + g.toNat * 2097152 + d.toNat * 2048 + a.toNat * 64 + b.toNat * 2 + w.toNat = x := Option.some.inj hx
  have hp : x = pack [(2, q.toNat), (4, 3), (4, g.toNat), (5, 25), (5, d.toNat), (5, a.toNat), (5, b.toNat), (1, w.toNat)] := by
    rw [pack_cons 2 29 (pack_cons 4 25 (pack_cons 4 21 (pack_cons 5 16 (pack_cons 5 11 (pack_cons 5 6 (pack_cons 5 1 (pack_cons 1 0 pack_nil rfl (rfl : 1 = 2 ^ 0)) rfl (rfl : 2 = 2 ^ 1)) rfl (rfl : 64 = 2 ^ 6)) rfl (rfl : 2048 = 2 ^ 11)) rfl (rfl : 65536 = 2 ^ 16)) rfl (rfl : 2097152 = 2 ^ 21)) rfl (rfl : 33554432 = 2 ^ 25)) rfl (rfl : 536870912 = 2 ^ 29)]
    omega
  have hf : Fits [(2, q.toNat), (4, 3), (4, g.toNat), (5, 25), (5, d.toNat), (5, a.toNat), (5, b.toNat), (1, w.toNat)] := ⟨q.isLt, by decide, g.isLt, by decide, d.isLt, a.isLt, b.isLt, w.isLt, trivial⟩
  have h0 : x / 33554432 % 16 = 3 := pack_field [(2, q.toNat)] [(4, 3)] [(4, g.toNat), (5, 25), (5, d.toNat), (5, a.toNat), (5, b.toNat), (1, w.toNat)] 25 4 hp hf rfl rfl rfl rfl rfl rfl
  have h1 : x / 65536 % 32 = 25 := pack_field [(2, q.toNat), (4, 3), (4, g.toNat)] [(5, 25)] [(5, d.toNat), (5, a.toNat), (5, b.toNat), (1, w.toNat)] 16 5 hp hf rfl rfl rfl rfl rfl rfl
  have e0 : BitVec.ofNat 2 (x / 536870912) = q := ofNat_field [] q [(4, 3), (4, g.toNat), (5, 25), (5, d.toNat), (5, a.toNat), (5, b.toNat), (1, w.toNat)] 29 hp hf rfl rfl rfl
  have e1 : BitVec.ofNat 4 (x / 2097152) = g := ofNat_field [(2, q.toNat), (4, 3)] g [(5, 25), (5, d.toNat), (5, a.toNat), (5, b.toNat), (1, w.toNat)] 21 hp hf rfl rfl rfl
  have e2 : BitVec.ofNat 5 (x / 2048) = d := ofNat_field [(2, q.toNat), (4, 3), (4, g.toNat), (5, 25)] d [(5, a.toNat), (5, b.toNat), (1, w.toNat)] 11 hp hf rfl rfl rfl
  have e3 : BitVec.ofNat 5 (x / 64) = a := ofNat_field [(2, q.toNat), (4, 3), (4, g.toNat), (5, 25), (5, d.toNat)] a [(5, b.toNat), (1, w.toNat)] 6 hp hf rfl rfl rfl
  have e4 : BitVec.ofNat 5 (x / 2) = b := ofNat_field [(2, q.toNat), (4, 3), (4, g.toNat), (5, 25), (5, d.toNat), (5, a.toNat)] b [(1, w.toNat)] 1 hp hf rfl rfl rfl
  have e5 : BitVec.ofNat 1 x = w := ofNat_low [(2, q.toNat), (4, 3), (4, g.toNat), (5, 25), (5, d.toNat), (5, a.toNat), (5, b.toNat)] w hp hf rfl
  refine ⟨pack_bound 31 hp hf rfl, (.amoIncw q g d a b w none), ?_, rfl, ?_⟩
  · simp only [decodeNat, decodeSM, h0, h1, ↓reduceIte]
    rw [e0, e1, e2, e3, e4, e5]
    try rfl
  · cases ext <;> first | rfl

theorem EncodeDecode.trap (q : BitVec 2) (g : BitVec 4) (k : BitVec 16) : EncodeDecode.Statement (.trap q g k) := by
  intro hwf x hx
  replace hx : 134217728 + q.toNat * 536870912 + g.toNat * 2097152 + k.toNat = x := Option.some.inj hx
  have hp : x = pack [(2, q.toNat), (4, 4), (4, g.toNat), (4, 0), (1, 0), (16, k.toNat)] := by
    rw [pack_cons 2 29 (pack_cons 4 25 (pack_cons 4 21 (pack_cons 4 17 (pack_cons 1 16 (pack_cons 16 0 pack_nil rfl (rfl : 1 = 2 ^ 0)) rfl (rfl : 65536 = 2 ^ 16)) rfl (rfl : 131072 = 2 ^ 17)) rfl (rfl : 2097152 = 2 ^ 21)) rfl (rfl : 33554432 = 2 ^ 25)) rfl (rfl : 536870912 = 2 ^ 29)]
    omega
  have hf : Fits [(2, q.toNat), (4, 4), (4, g.toNat), (4, 0), (1, 0), (16, k.toNat)] := ⟨q.isLt, by decide, g.isLt, by decide, by decide, k.isLt, trivial⟩
  have h0 : x / 33554432 % 16 = 4 := pack_field [(2, q.toNat)] [(4, 4)] [(4, g.toNat), (4, 0), (1, 0), (16, k.toNat)] 25 4 hp hf rfl rfl rfl rfl rfl rfl
  have h1 : x / 131072 % 16 = 0 := pack_field [(2, q.toNat), (4, 4), (4, g.toNat)] [(4, 0)] [(1, 0), (16, k.toNat)] 17 4 hp hf rfl rfl rfl rfl rfl rfl
  have h2 : x / 65536 % 2 = 0 := pack_field [(2, q.toNat), (4, 4), (4, g.toNat), (4, 0)] [(1, 0)] [(16, k.toNat)] 16 1 hp hf rfl rfl rfl rfl rfl rfl
  have e0 : BitVec.ofNat 2 (x / 536870912) = q := ofNat_field [] q [(4, 4), (4, g.toNat), (4, 0), (1, 0), (16, k.toNat)] 29 hp hf rfl rfl rfl
  have e1 : BitVec.ofNat 4 (x / 2097152) = g := ofNat_field [(2, q.toNat), (4, 4)] g [(4, 0), (1, 0), (16, k.toNat)] 21 hp hf rfl rfl rfl
  have e2 : BitVec.ofNat 16 x = k := ofNat_low [(2, q.toNat), (4, 4), (4, g.toNat), (4, 0), (1, 0)] k hp hf rfl
  refine ⟨pack_bound 31 hp hf rfl, (.trap q g k), ?_, rfl, ?_⟩
  · simp only [decodeNat, decodeX, h0, h1, h2, ↓reduceIte]
    rw [e0, e1, e2]
    try rfl
  · rfl

theorem EncodeDecode.tret (q : BitVec 2) : EncodeDecode.Statement (.tret q) := by
  intro hwf x hx
  replace hx : 134348800 + q.toNat * 536870912 = x := Option.some.inj hx
  have hp : x = pack [(2, q.toNat), (4, 4), (4, 0), (4, 1), (17, 0)] := by
    rw [pack_cons 2 29 (pack_cons 4 25 (pack_cons 4 21 (pack_cons 4 17 (pack_cons 17 0 pack_nil rfl (rfl : 1 = 2 ^ 0)) rfl (rfl : 131072 = 2 ^ 17)) rfl (rfl : 2097152 = 2 ^ 21)) rfl (rfl : 33554432 = 2 ^ 25)) rfl (rfl : 536870912 = 2 ^ 29)]
    omega
  have hf : Fits [(2, q.toNat), (4, 4), (4, 0), (4, 1), (17, 0)] := ⟨q.isLt, by decide, by decide, by decide, by decide, trivial⟩
  have h0 : x / 33554432 % 16 = 4 := pack_field [(2, q.toNat)] [(4, 4)] [(4, 0), (4, 1), (17, 0)] 25 4 hp hf rfl rfl rfl rfl rfl rfl
  have h1 : x / 131072 % 16 = 1 := pack_field [(2, q.toNat), (4, 4), (4, 0)] [(4, 1)] [(17, 0)] 17 4 hp hf rfl rfl rfl rfl rfl rfl
  have h2 : x % 131072 = 0 := pack_low [(2, q.toNat), (4, 4), (4, 0), (4, 1)] [(17, 0)] 17 hp hf rfl rfl rfl rfl
  have h3 : x / 2097152 % 16 = 0 := pack_field [(2, q.toNat), (4, 4)] [(4, 0)] [(4, 1), (17, 0)] 21 4 hp hf rfl rfl rfl rfl rfl rfl
  have e0 : BitVec.ofNat 2 (x / 536870912) = q := ofNat_field [] q [(4, 4), (4, 0), (4, 1), (17, 0)] 29 hp hf rfl rfl rfl
  refine ⟨pack_bound 31 hp hf rfl, (.tret q), ?_, rfl, ?_⟩
  · simp only [decodeNat, decodeX, h0, h1, h2, h3, ↓reduceIte, and_self, and_true, true_and, and_false, false_and, one_ne_zero, OfNat.ofNat_ne_zero]
    rw [e0]
    try rfl
  · rfl

theorem EncodeDecode.uiret (q : BitVec 2) : EncodeDecode.Statement (.uiret q) := by
  intro hwf x hx
  replace hx : 134479872 + q.toNat * 536870912 = x := Option.some.inj hx
  have hp : x = pack [(2, q.toNat), (4, 4), (4, 0), (4, 2), (17, 0)] := by
    rw [pack_cons 2 29 (pack_cons 4 25 (pack_cons 4 21 (pack_cons 4 17 (pack_cons 17 0 pack_nil rfl (rfl : 1 = 2 ^ 0)) rfl (rfl : 131072 = 2 ^ 17)) rfl (rfl : 2097152 = 2 ^ 21)) rfl (rfl : 33554432 = 2 ^ 25)) rfl (rfl : 536870912 = 2 ^ 29)]
    omega
  have hf : Fits [(2, q.toNat), (4, 4), (4, 0), (4, 2), (17, 0)] := ⟨q.isLt, by decide, by decide, by decide, by decide, trivial⟩
  have h0 : x / 33554432 % 16 = 4 := pack_field [(2, q.toNat)] [(4, 4)] [(4, 0), (4, 2), (17, 0)] 25 4 hp hf rfl rfl rfl rfl rfl rfl
  have h1 : x / 131072 % 16 = 2 := pack_field [(2, q.toNat), (4, 4), (4, 0)] [(4, 2)] [(17, 0)] 17 4 hp hf rfl rfl rfl rfl rfl rfl
  have h2 : x % 131072 = 0 := pack_low [(2, q.toNat), (4, 4), (4, 0), (4, 2)] [(17, 0)] 17 hp hf rfl rfl rfl rfl
  have h3 : x / 2097152 % 16 = 0 := pack_field [(2, q.toNat), (4, 4)] [(4, 0)] [(4, 2), (17, 0)] 21 4 hp hf rfl rfl rfl rfl rfl rfl
  have e0 : BitVec.ofNat 2 (x / 536870912) = q := ofNat_field [] q [(4, 4), (4, 0), (4, 2), (17, 0)] 29 hp hf rfl rfl rfl
  refine ⟨pack_bound 31 hp hf rfl, (.uiret q), ?_, rfl, ?_⟩
  · simp only [decodeNat, decodeX, h0, h1, h2, h3, ↓reduceIte, and_self, and_true, true_and, and_false, false_and, one_ne_zero, OfNat.ofNat_ne_zero]
    rw [e0]
    try rfl
  · rfl

theorem EncodeDecode.ctlr (q : BitVec 2) (g : BitVec 4) (d : BitVec 5) (n : BitVec 12) : EncodeDecode.Statement (.ctlr q g d n) := by
  intro hwf x hx
  replace hx : 134610944 + q.toNat * 536870912 + g.toNat * 2097152 + d.toNat * 4096 + n.toNat = x := Option.some.inj hx
  have hp : x = pack [(2, q.toNat), (4, 4), (4, g.toNat), (4, 3), (5, d.toNat), (12, n.toNat)] := by
    rw [pack_cons 2 29 (pack_cons 4 25 (pack_cons 4 21 (pack_cons 4 17 (pack_cons 5 12 (pack_cons 12 0 pack_nil rfl (rfl : 1 = 2 ^ 0)) rfl (rfl : 4096 = 2 ^ 12)) rfl (rfl : 131072 = 2 ^ 17)) rfl (rfl : 2097152 = 2 ^ 21)) rfl (rfl : 33554432 = 2 ^ 25)) rfl (rfl : 536870912 = 2 ^ 29)]
    omega
  have hf : Fits [(2, q.toNat), (4, 4), (4, g.toNat), (4, 3), (5, d.toNat), (12, n.toNat)] := ⟨q.isLt, by decide, g.isLt, by decide, d.isLt, n.isLt, trivial⟩
  have h0 : x / 33554432 % 16 = 4 := pack_field [(2, q.toNat)] [(4, 4)] [(4, g.toNat), (4, 3), (5, d.toNat), (12, n.toNat)] 25 4 hp hf rfl rfl rfl rfl rfl rfl
  have h1 : x / 131072 % 16 = 3 := pack_field [(2, q.toNat), (4, 4), (4, g.toNat)] [(4, 3)] [(5, d.toNat), (12, n.toNat)] 17 4 hp hf rfl rfl rfl rfl rfl rfl
  have e0 : BitVec.ofNat 2 (x / 536870912) = q := ofNat_field [] q [(4, 4), (4, g.toNat), (4, 3), (5, d.toNat), (12, n.toNat)] 29 hp hf rfl rfl rfl
  have e1 : BitVec.ofNat 4 (x / 2097152) = g := ofNat_field [(2, q.toNat), (4, 4)] g [(4, 3), (5, d.toNat), (12, n.toNat)] 21 hp hf rfl rfl rfl
  have e2 : BitVec.ofNat 5 (x / 4096) = d := ofNat_field [(2, q.toNat), (4, 4), (4, g.toNat), (4, 3)] d [(12, n.toNat)] 12 hp hf rfl rfl rfl
  have e3 : BitVec.ofNat 12 x = n := ofNat_low [(2, q.toNat), (4, 4), (4, g.toNat), (4, 3), (5, d.toNat)] n hp hf rfl
  refine ⟨pack_bound 31 hp hf rfl, (.ctlr q g d n), ?_, rfl, ?_⟩
  · simp only [decodeNat, decodeX, h0, h1, ↓reduceIte]
    rw [e0, e1, e2, e3]
    try rfl
  · rfl

theorem EncodeDecode.ctlw (q : BitVec 2) (g : BitVec 4) (s : BitVec 5) (n : BitVec 12) : EncodeDecode.Statement (.ctlw q g s n) := by
  intro hwf x hx
  replace hx : 134742016 + q.toNat * 536870912 + g.toNat * 2097152 + s.toNat * 4096 + n.toNat = x := Option.some.inj hx
  have hp : x = pack [(2, q.toNat), (4, 4), (4, g.toNat), (4, 4), (5, s.toNat), (12, n.toNat)] := by
    rw [pack_cons 2 29 (pack_cons 4 25 (pack_cons 4 21 (pack_cons 4 17 (pack_cons 5 12 (pack_cons 12 0 pack_nil rfl (rfl : 1 = 2 ^ 0)) rfl (rfl : 4096 = 2 ^ 12)) rfl (rfl : 131072 = 2 ^ 17)) rfl (rfl : 2097152 = 2 ^ 21)) rfl (rfl : 33554432 = 2 ^ 25)) rfl (rfl : 536870912 = 2 ^ 29)]
    omega
  have hf : Fits [(2, q.toNat), (4, 4), (4, g.toNat), (4, 4), (5, s.toNat), (12, n.toNat)] := ⟨q.isLt, by decide, g.isLt, by decide, s.isLt, n.isLt, trivial⟩
  have h0 : x / 33554432 % 16 = 4 := pack_field [(2, q.toNat)] [(4, 4)] [(4, g.toNat), (4, 4), (5, s.toNat), (12, n.toNat)] 25 4 hp hf rfl rfl rfl rfl rfl rfl
  have h1 : x / 131072 % 16 = 4 := pack_field [(2, q.toNat), (4, 4), (4, g.toNat)] [(4, 4)] [(5, s.toNat), (12, n.toNat)] 17 4 hp hf rfl rfl rfl rfl rfl rfl
  have e0 : BitVec.ofNat 2 (x / 536870912) = q := ofNat_field [] q [(4, 4), (4, g.toNat), (4, 4), (5, s.toNat), (12, n.toNat)] 29 hp hf rfl rfl rfl
  have e1 : BitVec.ofNat 4 (x / 2097152) = g := ofNat_field [(2, q.toNat), (4, 4)] g [(4, 4), (5, s.toNat), (12, n.toNat)] 21 hp hf rfl rfl rfl
  have e2 : BitVec.ofNat 5 (x / 4096) = s := ofNat_field [(2, q.toNat), (4, 4), (4, g.toNat), (4, 4)] s [(12, n.toNat)] 12 hp hf rfl rfl rfl
  have e3 : BitVec.ofNat 12 x = n := ofNat_low [(2, q.toNat), (4, 4), (4, g.toNat), (4, 4), (5, s.toNat)] n hp hf rfl
  refine ⟨pack_bound 31 hp hf rfl, (.ctlw q g s n), ?_, rfl, ?_⟩
  · simp only [decodeNat, decodeX, h0, h1, ↓reduceIte]
    rw [e0, e1, e2, e3]
    try rfl
  · rfl

theorem EncodeDecode.fence (q : BitVec 2) (g : BitVec 4) (a : BitVec 1) (l : BitVec 1) (s : BitVec 4) : EncodeDecode.Statement (.fence q g a l s) := by
  intro hwf x hx
  replace hx : 134873088 + q.toNat * 536870912 + g.toNat * 2097152 + a.toNat * 65536 + l.toNat * 32768 + s.toNat * 2048 = x := Option.some.inj hx
  have hp : x = pack [(2, q.toNat), (4, 4), (4, g.toNat), (4, 5), (1, a.toNat), (1, l.toNat), (4, s.toNat), (11, 0)] := by
    rw [pack_cons 2 29 (pack_cons 4 25 (pack_cons 4 21 (pack_cons 4 17 (pack_cons 1 16 (pack_cons 1 15 (pack_cons 4 11 (pack_cons 11 0 pack_nil rfl (rfl : 1 = 2 ^ 0)) rfl (rfl : 2048 = 2 ^ 11)) rfl (rfl : 32768 = 2 ^ 15)) rfl (rfl : 65536 = 2 ^ 16)) rfl (rfl : 131072 = 2 ^ 17)) rfl (rfl : 2097152 = 2 ^ 21)) rfl (rfl : 33554432 = 2 ^ 25)) rfl (rfl : 536870912 = 2 ^ 29)]
    omega
  have hf : Fits [(2, q.toNat), (4, 4), (4, g.toNat), (4, 5), (1, a.toNat), (1, l.toNat), (4, s.toNat), (11, 0)] := ⟨q.isLt, by decide, g.isLt, by decide, a.isLt, l.isLt, s.isLt, by decide, trivial⟩
  have h0 : x / 33554432 % 16 = 4 := pack_field [(2, q.toNat)] [(4, 4)] [(4, g.toNat), (4, 5), (1, a.toNat), (1, l.toNat), (4, s.toNat), (11, 0)] 25 4 hp hf rfl rfl rfl rfl rfl rfl
  have h1 : x / 131072 % 16 = 5 := pack_field [(2, q.toNat), (4, 4), (4, g.toNat)] [(4, 5)] [(1, a.toNat), (1, l.toNat), (4, s.toNat), (11, 0)] 17 4 hp hf rfl rfl rfl rfl rfl rfl
  have h2 : x % 2048 = 0 := pack_low [(2, q.toNat), (4, 4), (4, g.toNat), (4, 5), (1, a.toNat), (1, l.toNat), (4, s.toNat)] [(11, 0)] 11 hp hf rfl rfl rfl rfl
  have e0 : BitVec.ofNat 2 (x / 536870912) = q := ofNat_field [] q [(4, 4), (4, g.toNat), (4, 5), (1, a.toNat), (1, l.toNat), (4, s.toNat), (11, 0)] 29 hp hf rfl rfl rfl
  have e1 : BitVec.ofNat 4 (x / 2097152) = g := ofNat_field [(2, q.toNat), (4, 4)] g [(4, 5), (1, a.toNat), (1, l.toNat), (4, s.toNat), (11, 0)] 21 hp hf rfl rfl rfl
  have e2 : BitVec.ofNat 1 (x / 65536) = a := ofNat_field [(2, q.toNat), (4, 4), (4, g.toNat), (4, 5)] a [(1, l.toNat), (4, s.toNat), (11, 0)] 16 hp hf rfl rfl rfl
  have e3 : BitVec.ofNat 1 (x / 32768) = l := ofNat_field [(2, q.toNat), (4, 4), (4, g.toNat), (4, 5), (1, a.toNat)] l [(4, s.toNat), (11, 0)] 15 hp hf rfl rfl rfl
  have e4 : BitVec.ofNat 4 (x / 2048) = s := ofNat_field [(2, q.toNat), (4, 4), (4, g.toNat), (4, 5), (1, a.toNat), (1, l.toNat)] s [(11, 0)] 11 hp hf rfl rfl rfl
  refine ⟨pack_bound 31 hp hf rfl, (.fence q g a l s), ?_, rfl, ?_⟩
  · simp only [decodeNat, decodeX, h0, h1, h2, ↓reduceIte]
    rw [e0, e1, e2, e3, e4]
    try rfl
  · rfl

theorem EncodeDecode.brk (q : BitVec 2) (g : BitVec 4) (k : BitVec 16) : EncodeDecode.Statement (.brk q g k) := by
  intro hwf x hx
  replace hx : 135004160 + q.toNat * 536870912 + g.toNat * 2097152 + k.toNat = x := Option.some.inj hx
  have hp : x = pack [(2, q.toNat), (4, 4), (4, g.toNat), (4, 6), (1, 0), (16, k.toNat)] := by
    rw [pack_cons 2 29 (pack_cons 4 25 (pack_cons 4 21 (pack_cons 4 17 (pack_cons 1 16 (pack_cons 16 0 pack_nil rfl (rfl : 1 = 2 ^ 0)) rfl (rfl : 65536 = 2 ^ 16)) rfl (rfl : 131072 = 2 ^ 17)) rfl (rfl : 2097152 = 2 ^ 21)) rfl (rfl : 33554432 = 2 ^ 25)) rfl (rfl : 536870912 = 2 ^ 29)]
    omega
  have hf : Fits [(2, q.toNat), (4, 4), (4, g.toNat), (4, 6), (1, 0), (16, k.toNat)] := ⟨q.isLt, by decide, g.isLt, by decide, by decide, k.isLt, trivial⟩
  have h0 : x / 33554432 % 16 = 4 := pack_field [(2, q.toNat)] [(4, 4)] [(4, g.toNat), (4, 6), (1, 0), (16, k.toNat)] 25 4 hp hf rfl rfl rfl rfl rfl rfl
  have h1 : x / 131072 % 16 = 6 := pack_field [(2, q.toNat), (4, 4), (4, g.toNat)] [(4, 6)] [(1, 0), (16, k.toNat)] 17 4 hp hf rfl rfl rfl rfl rfl rfl
  have h2 : x / 65536 % 2 = 0 := pack_field [(2, q.toNat), (4, 4), (4, g.toNat), (4, 6)] [(1, 0)] [(16, k.toNat)] 16 1 hp hf rfl rfl rfl rfl rfl rfl
  have e0 : BitVec.ofNat 2 (x / 536870912) = q := ofNat_field [] q [(4, 4), (4, g.toNat), (4, 6), (1, 0), (16, k.toNat)] 29 hp hf rfl rfl rfl
  have e1 : BitVec.ofNat 4 (x / 2097152) = g := ofNat_field [(2, q.toNat), (4, 4)] g [(4, 6), (1, 0), (16, k.toNat)] 21 hp hf rfl rfl rfl
  have e2 : BitVec.ofNat 16 x = k := ofNat_low [(2, q.toNat), (4, 4), (4, g.toNat), (4, 6), (1, 0)] k hp hf rfl
  refine ⟨pack_bound 31 hp hf rfl, (.brk q g k), ?_, rfl, ?_⟩
  · simp only [decodeNat, decodeX, h0, h1, h2, ↓reduceIte]
    rw [e0, e1, e2]
    try rfl
  · rfl

theorem EncodeDecode.cmpt (q : BitVec 2) (g : BitVec 4) (a : BitVec 5) (b : BitVec 5) : EncodeDecode.Statement (.cmpt q g a b) := by
  intro hwf x hx
  replace hx : 135135232 + q.toNat * 536870912 + g.toNat * 2097152 + a.toNat * 32 + b.toNat = x := Option.some.inj hx
  have hp : x = pack [(2, q.toNat), (4, 4), (4, g.toNat), (4, 7), (7, 0), (5, a.toNat), (5, b.toNat)] := by
    rw [pack_cons 2 29 (pack_cons 4 25 (pack_cons 4 21 (pack_cons 4 17 (pack_cons 7 10 (pack_cons 5 5 (pack_cons 5 0 pack_nil rfl (rfl : 1 = 2 ^ 0)) rfl (rfl : 32 = 2 ^ 5)) rfl (rfl : 1024 = 2 ^ 10)) rfl (rfl : 131072 = 2 ^ 17)) rfl (rfl : 2097152 = 2 ^ 21)) rfl (rfl : 33554432 = 2 ^ 25)) rfl (rfl : 536870912 = 2 ^ 29)]
    omega
  have hf : Fits [(2, q.toNat), (4, 4), (4, g.toNat), (4, 7), (7, 0), (5, a.toNat), (5, b.toNat)] := ⟨q.isLt, by decide, g.isLt, by decide, by decide, a.isLt, b.isLt, trivial⟩
  have h0 : x / 33554432 % 16 = 4 := pack_field [(2, q.toNat)] [(4, 4)] [(4, g.toNat), (4, 7), (7, 0), (5, a.toNat), (5, b.toNat)] 25 4 hp hf rfl rfl rfl rfl rfl rfl
  have h1 : x / 131072 % 16 = 7 := pack_field [(2, q.toNat), (4, 4), (4, g.toNat)] [(4, 7)] [(7, 0), (5, a.toNat), (5, b.toNat)] 17 4 hp hf rfl rfl rfl rfl rfl rfl
  have h2 : x / 1024 % 128 = 0 := pack_field [(2, q.toNat), (4, 4), (4, g.toNat), (4, 7)] [(7, 0)] [(5, a.toNat), (5, b.toNat)] 10 7 hp hf rfl rfl rfl rfl rfl rfl
  have e0 : BitVec.ofNat 2 (x / 536870912) = q := ofNat_field [] q [(4, 4), (4, g.toNat), (4, 7), (7, 0), (5, a.toNat), (5, b.toNat)] 29 hp hf rfl rfl rfl
  have e1 : BitVec.ofNat 4 (x / 2097152) = g := ofNat_field [(2, q.toNat), (4, 4)] g [(4, 7), (7, 0), (5, a.toNat), (5, b.toNat)] 21 hp hf rfl rfl rfl
  have e2 : BitVec.ofNat 5 (x / 32) = a := ofNat_field [(2, q.toNat), (4, 4), (4, g.toNat), (4, 7), (7, 0)] a [(5, b.toNat)] 5 hp hf rfl rfl rfl
  have e3 : BitVec.ofNat 5 x = b := ofNat_low [(2, q.toNat), (4, 4), (4, g.toNat), (4, 7), (7, 0), (5, a.toNat)] b hp hf rfl
  refine ⟨pack_bound 31 hp hf rfl, (.cmpt q g a b), ?_, rfl, ?_⟩
  · simp only [decodeNat, decodeX, h0, h1, h2, ↓reduceIte]
    rw [e0, e1, e2, e3]
    try rfl
  · rfl

theorem EncodeDecode.enq (q : BitVec 2) (g : BitVec 4) (p : BitVec 3) (y : BitVec 2) : EncodeDecode.Statement (.enq q g p y) := by
  intro hwf x hx
  replace hx : 135266304 + q.toNat * 536870912 + g.toNat * 2097152 + p.toNat * 16384 + y.toNat * 4096 = x := Option.some.inj hx
  have hp : x = pack [(2, q.toNat), (4, 4), (4, g.toNat), (4, 8), (3, p.toNat), (2, y.toNat), (12, 0)] := by
    rw [pack_cons 2 29 (pack_cons 4 25 (pack_cons 4 21 (pack_cons 4 17 (pack_cons 3 14 (pack_cons 2 12 (pack_cons 12 0 pack_nil rfl (rfl : 1 = 2 ^ 0)) rfl (rfl : 4096 = 2 ^ 12)) rfl (rfl : 16384 = 2 ^ 14)) rfl (rfl : 131072 = 2 ^ 17)) rfl (rfl : 2097152 = 2 ^ 21)) rfl (rfl : 33554432 = 2 ^ 25)) rfl (rfl : 536870912 = 2 ^ 29)]
    omega
  have hf : Fits [(2, q.toNat), (4, 4), (4, g.toNat), (4, 8), (3, p.toNat), (2, y.toNat), (12, 0)] := ⟨q.isLt, by decide, g.isLt, by decide, p.isLt, y.isLt, by decide, trivial⟩
  have h0 : x / 33554432 % 16 = 4 := pack_field [(2, q.toNat)] [(4, 4)] [(4, g.toNat), (4, 8), (3, p.toNat), (2, y.toNat), (12, 0)] 25 4 hp hf rfl rfl rfl rfl rfl rfl
  have h1 : x / 131072 % 16 = 8 := pack_field [(2, q.toNat), (4, 4), (4, g.toNat)] [(4, 8)] [(3, p.toNat), (2, y.toNat), (12, 0)] 17 4 hp hf rfl rfl rfl rfl rfl rfl
  have h2 : x % 4096 = 0 := pack_low [(2, q.toNat), (4, 4), (4, g.toNat), (4, 8), (3, p.toNat), (2, y.toNat)] [(12, 0)] 12 hp hf rfl rfl rfl rfl
  have e0 : BitVec.ofNat 2 (x / 536870912) = q := ofNat_field [] q [(4, 4), (4, g.toNat), (4, 8), (3, p.toNat), (2, y.toNat), (12, 0)] 29 hp hf rfl rfl rfl
  have e1 : BitVec.ofNat 4 (x / 2097152) = g := ofNat_field [(2, q.toNat), (4, 4)] g [(4, 8), (3, p.toNat), (2, y.toNat), (12, 0)] 21 hp hf rfl rfl rfl
  have e2 : BitVec.ofNat 3 (x / 16384) = p := ofNat_field [(2, q.toNat), (4, 4), (4, g.toNat), (4, 8)] p [(2, y.toNat), (12, 0)] 14 hp hf rfl rfl rfl
  have e3 : BitVec.ofNat 2 (x / 4096) = y := ofNat_field [(2, q.toNat), (4, 4), (4, g.toNat), (4, 8), (3, p.toNat)] y [(12, 0)] 12 hp hf rfl rfl rfl
  refine ⟨pack_bound 31 hp hf rfl, (.enq q g p y), ?_, rfl, ?_⟩
  · simp only [decodeNat, decodeX, h0, h1, h2, ↓reduceIte]
    rw [e0, e1, e2, e3]
    try rfl
  · rfl

theorem EncodeDecode.yield (q : BitVec 2) (g : BitVec 4) : EncodeDecode.Statement (.yield q g) := by
  intro hwf x hx
  replace hx : 135397376 + q.toNat * 536870912 + g.toNat * 2097152 = x := Option.some.inj hx
  have hp : x = pack [(2, q.toNat), (4, 4), (4, g.toNat), (4, 9), (17, 0)] := by
    rw [pack_cons 2 29 (pack_cons 4 25 (pack_cons 4 21 (pack_cons 4 17 (pack_cons 17 0 pack_nil rfl (rfl : 1 = 2 ^ 0)) rfl (rfl : 131072 = 2 ^ 17)) rfl (rfl : 2097152 = 2 ^ 21)) rfl (rfl : 33554432 = 2 ^ 25)) rfl (rfl : 536870912 = 2 ^ 29)]
    omega
  have hf : Fits [(2, q.toNat), (4, 4), (4, g.toNat), (4, 9), (17, 0)] := ⟨q.isLt, by decide, g.isLt, by decide, by decide, trivial⟩
  have h0 : x / 33554432 % 16 = 4 := pack_field [(2, q.toNat)] [(4, 4)] [(4, g.toNat), (4, 9), (17, 0)] 25 4 hp hf rfl rfl rfl rfl rfl rfl
  have h1 : x / 131072 % 16 = 9 := pack_field [(2, q.toNat), (4, 4), (4, g.toNat)] [(4, 9)] [(17, 0)] 17 4 hp hf rfl rfl rfl rfl rfl rfl
  have h2 : x % 131072 = 0 := pack_low [(2, q.toNat), (4, 4), (4, g.toNat), (4, 9)] [(17, 0)] 17 hp hf rfl rfl rfl rfl
  have e0 : BitVec.ofNat 2 (x / 536870912) = q := ofNat_field [] q [(4, 4), (4, g.toNat), (4, 9), (17, 0)] 29 hp hf rfl rfl rfl
  have e1 : BitVec.ofNat 4 (x / 2097152) = g := ofNat_field [(2, q.toNat), (4, 4)] g [(4, 9), (17, 0)] 21 hp hf rfl rfl rfl
  refine ⟨pack_bound 31 hp hf rfl, (.yield q g), ?_, rfl, ?_⟩
  · simp only [decodeNat, decodeX, h0, h1, h2, ↓reduceIte]
    rw [e0, e1]
    try rfl
  · rfl

theorem EncodeDecode.genr (q : BitVec 2) (g : BitVec 4) (d : BitVec 5) : EncodeDecode.Statement (.genr q g d) := by
  intro hwf x hx
  replace hx : 135528448 + q.toNat * 536870912 + g.toNat * 2097152 + d.toNat * 4096 = x := Option.some.inj hx
  have hp : x = pack [(2, q.toNat), (4, 4), (4, g.toNat), (4, 10), (5, d.toNat), (12, 0)] := by
    rw [pack_cons 2 29 (pack_cons 4 25 (pack_cons 4 21 (pack_cons 4 17 (pack_cons 5 12 (pack_cons 12 0 pack_nil rfl (rfl : 1 = 2 ^ 0)) rfl (rfl : 4096 = 2 ^ 12)) rfl (rfl : 131072 = 2 ^ 17)) rfl (rfl : 2097152 = 2 ^ 21)) rfl (rfl : 33554432 = 2 ^ 25)) rfl (rfl : 536870912 = 2 ^ 29)]
    omega
  have hf : Fits [(2, q.toNat), (4, 4), (4, g.toNat), (4, 10), (5, d.toNat), (12, 0)] := ⟨q.isLt, by decide, g.isLt, by decide, d.isLt, by decide, trivial⟩
  have h0 : x / 33554432 % 16 = 4 := pack_field [(2, q.toNat)] [(4, 4)] [(4, g.toNat), (4, 10), (5, d.toNat), (12, 0)] 25 4 hp hf rfl rfl rfl rfl rfl rfl
  have h1 : x / 131072 % 16 = 10 := pack_field [(2, q.toNat), (4, 4), (4, g.toNat)] [(4, 10)] [(5, d.toNat), (12, 0)] 17 4 hp hf rfl rfl rfl rfl rfl rfl
  have h2 : x % 4096 = 0 := pack_low [(2, q.toNat), (4, 4), (4, g.toNat), (4, 10), (5, d.toNat)] [(12, 0)] 12 hp hf rfl rfl rfl rfl
  have e0 : BitVec.ofNat 2 (x / 536870912) = q := ofNat_field [] q [(4, 4), (4, g.toNat), (4, 10), (5, d.toNat), (12, 0)] 29 hp hf rfl rfl rfl
  have e1 : BitVec.ofNat 4 (x / 2097152) = g := ofNat_field [(2, q.toNat), (4, 4)] g [(4, 10), (5, d.toNat), (12, 0)] 21 hp hf rfl rfl rfl
  have e2 : BitVec.ofNat 5 (x / 4096) = d := ofNat_field [(2, q.toNat), (4, 4), (4, g.toNat), (4, 10)] d [(12, 0)] 12 hp hf rfl rfl rfl
  refine ⟨pack_bound 31 hp hf rfl, (.genr q g d), ?_, rfl, ?_⟩
  · simp only [decodeNat, decodeX, h0, h1, h2, ↓reduceIte]
    rw [e0, e1, e2]
    try rfl
  · rfl

theorem EncodeDecode.idle (q : BitVec 2) : EncodeDecode.Statement (.idle q) := by
  intro hwf x hx
  replace hx : 135659520 + q.toNat * 536870912 = x := Option.some.inj hx
  have hp : x = pack [(2, q.toNat), (4, 4), (4, 0), (4, 11), (17, 0)] := by
    rw [pack_cons 2 29 (pack_cons 4 25 (pack_cons 4 21 (pack_cons 4 17 (pack_cons 17 0 pack_nil rfl (rfl : 1 = 2 ^ 0)) rfl (rfl : 131072 = 2 ^ 17)) rfl (rfl : 2097152 = 2 ^ 21)) rfl (rfl : 33554432 = 2 ^ 25)) rfl (rfl : 536870912 = 2 ^ 29)]
    omega
  have hf : Fits [(2, q.toNat), (4, 4), (4, 0), (4, 11), (17, 0)] := ⟨q.isLt, by decide, by decide, by decide, by decide, trivial⟩
  have h0 : x / 33554432 % 16 = 4 := pack_field [(2, q.toNat)] [(4, 4)] [(4, 0), (4, 11), (17, 0)] 25 4 hp hf rfl rfl rfl rfl rfl rfl
  have h1 : x / 131072 % 16 = 11 := pack_field [(2, q.toNat), (4, 4), (4, 0)] [(4, 11)] [(17, 0)] 17 4 hp hf rfl rfl rfl rfl rfl rfl
  have h2 : x % 131072 = 0 := pack_low [(2, q.toNat), (4, 4), (4, 0), (4, 11)] [(17, 0)] 17 hp hf rfl rfl rfl rfl
  have h3 : x / 2097152 % 16 = 0 := pack_field [(2, q.toNat), (4, 4)] [(4, 0)] [(4, 11), (17, 0)] 21 4 hp hf rfl rfl rfl rfl rfl rfl
  have e0 : BitVec.ofNat 2 (x / 536870912) = q := ofNat_field [] q [(4, 4), (4, 0), (4, 11), (17, 0)] 29 hp hf rfl rfl rfl
  refine ⟨pack_bound 31 hp hf rfl, (.idle q), ?_, rfl, ?_⟩
  · simp only [decodeNat, decodeX, h0, h1, h2, h3, ↓reduceIte, and_self, and_true, true_and, and_false, false_and, one_ne_zero, OfNat.ofNat_ne_zero]
    rw [e0]
    try rfl
  · rfl

theorem EncodeDecode.vadd (q : BitVec 2) (u : BitVec 1) (d : BitVec 6) (a : BitVec 6) (b : BitVec 6) : EncodeDecode.Statement (.vadd q u d a b) := by
  intro hwf x hx
  replace hx : 167772160 + q.toNat * 536870912 + u.toNat * 262144 + d.toNat * 4096 + a.toNat * 64 + b.toNat = x := Option.some.inj hx
  have hp : x = pack [(2, q.toNat), (4, 5), (5, 0), (1, 0), (1, u.toNat), (6, d.toNat), (6, a.toNat), (6, b.toNat)] := by
    rw [pack_cons 2 29 (pack_cons 4 25 (pack_cons 5 20 (pack_cons 1 19 (pack_cons 1 18 (pack_cons 6 12 (pack_cons 6 6 (pack_cons 6 0 pack_nil rfl (rfl : 1 = 2 ^ 0)) rfl (rfl : 64 = 2 ^ 6)) rfl (rfl : 4096 = 2 ^ 12)) rfl (rfl : 262144 = 2 ^ 18)) rfl (rfl : 524288 = 2 ^ 19)) rfl (rfl : 1048576 = 2 ^ 20)) rfl (rfl : 33554432 = 2 ^ 25)) rfl (rfl : 536870912 = 2 ^ 29)]
    omega
  have hf : Fits [(2, q.toNat), (4, 5), (5, 0), (1, 0), (1, u.toNat), (6, d.toNat), (6, a.toNat), (6, b.toNat)] := ⟨q.isLt, by decide, by decide, by decide, u.isLt, d.isLt, a.isLt, b.isLt, trivial⟩
  have h0 : x / 33554432 % 16 = 5 := pack_field [(2, q.toNat)] [(4, 5)] [(5, 0), (1, 0), (1, u.toNat), (6, d.toNat), (6, a.toNat), (6, b.toNat)] 25 4 hp hf rfl rfl rfl rfl rfl rfl
  have h1 : x / 1048576 % 32 = 0 := pack_field [(2, q.toNat), (4, 5)] [(5, 0)] [(1, 0), (1, u.toNat), (6, d.toNat), (6, a.toNat), (6, b.toNat)] 20 5 hp hf rfl rfl rfl rfl rfl rfl
  have h2 : x / 524288 % 2 = 0 := pack_field [(2, q.toNat), (4, 5), (5, 0)] [(1, 0)] [(1, u.toNat), (6, d.toNat), (6, a.toNat), (6, b.toNat)] 19 1 hp hf rfl rfl rfl rfl rfl rfl
  have e0 : BitVec.ofNat 2 (x / 536870912) = q := ofNat_field [] q [(4, 5), (5, 0), (1, 0), (1, u.toNat), (6, d.toNat), (6, a.toNat), (6, b.toNat)] 29 hp hf rfl rfl rfl
  have e1 : BitVec.ofNat 1 (x / 262144) = u := ofNat_field [(2, q.toNat), (4, 5), (5, 0), (1, 0)] u [(6, d.toNat), (6, a.toNat), (6, b.toNat)] 18 hp hf rfl rfl rfl
  have e2 : BitVec.ofNat 6 (x / 4096) = d := ofNat_field [(2, q.toNat), (4, 5), (5, 0), (1, 0), (1, u.toNat)] d [(6, a.toNat), (6, b.toNat)] 12 hp hf rfl rfl rfl
  have e3 : BitVec.ofNat 6 (x / 64) = a := ofNat_field [(2, q.toNat), (4, 5), (5, 0), (1, 0), (1, u.toNat), (6, d.toNat)] a [(6, b.toNat)] 6 hp hf rfl rfl rfl
  have e4 : BitVec.ofNat 6 x = b := ofNat_low [(2, q.toNat), (4, 5), (5, 0), (1, 0), (1, u.toNat), (6, d.toNat), (6, a.toNat)] b hp hf rfl
  refine ⟨pack_bound 31 hp hf rfl, (.vadd q u d a b), ?_, rfl, ?_⟩
  · simp only [decodeNat, decodeV, h0, h1, h2, ↓reduceIte]
    rw [e0, e1, e2, e3, e4]
    try rfl
  · rfl

theorem EncodeDecode.vsub (q : BitVec 2) (u : BitVec 1) (d : BitVec 6) (a : BitVec 6) (b : BitVec 6) : EncodeDecode.Statement (.vsub q u d a b) := by
  intro hwf x hx
  replace hx : 168820736 + q.toNat * 536870912 + u.toNat * 262144 + d.toNat * 4096 + a.toNat * 64 + b.toNat = x := Option.some.inj hx
  have hp : x = pack [(2, q.toNat), (4, 5), (5, 1), (1, 0), (1, u.toNat), (6, d.toNat), (6, a.toNat), (6, b.toNat)] := by
    rw [pack_cons 2 29 (pack_cons 4 25 (pack_cons 5 20 (pack_cons 1 19 (pack_cons 1 18 (pack_cons 6 12 (pack_cons 6 6 (pack_cons 6 0 pack_nil rfl (rfl : 1 = 2 ^ 0)) rfl (rfl : 64 = 2 ^ 6)) rfl (rfl : 4096 = 2 ^ 12)) rfl (rfl : 262144 = 2 ^ 18)) rfl (rfl : 524288 = 2 ^ 19)) rfl (rfl : 1048576 = 2 ^ 20)) rfl (rfl : 33554432 = 2 ^ 25)) rfl (rfl : 536870912 = 2 ^ 29)]
    omega
  have hf : Fits [(2, q.toNat), (4, 5), (5, 1), (1, 0), (1, u.toNat), (6, d.toNat), (6, a.toNat), (6, b.toNat)] := ⟨q.isLt, by decide, by decide, by decide, u.isLt, d.isLt, a.isLt, b.isLt, trivial⟩
  have h0 : x / 33554432 % 16 = 5 := pack_field [(2, q.toNat)] [(4, 5)] [(5, 1), (1, 0), (1, u.toNat), (6, d.toNat), (6, a.toNat), (6, b.toNat)] 25 4 hp hf rfl rfl rfl rfl rfl rfl
  have h1 : x / 1048576 % 32 = 1 := pack_field [(2, q.toNat), (4, 5)] [(5, 1)] [(1, 0), (1, u.toNat), (6, d.toNat), (6, a.toNat), (6, b.toNat)] 20 5 hp hf rfl rfl rfl rfl rfl rfl
  have h2 : x / 524288 % 2 = 0 := pack_field [(2, q.toNat), (4, 5), (5, 1)] [(1, 0)] [(1, u.toNat), (6, d.toNat), (6, a.toNat), (6, b.toNat)] 19 1 hp hf rfl rfl rfl rfl rfl rfl
  have e0 : BitVec.ofNat 2 (x / 536870912) = q := ofNat_field [] q [(4, 5), (5, 1), (1, 0), (1, u.toNat), (6, d.toNat), (6, a.toNat), (6, b.toNat)] 29 hp hf rfl rfl rfl
  have e1 : BitVec.ofNat 1 (x / 262144) = u := ofNat_field [(2, q.toNat), (4, 5), (5, 1), (1, 0)] u [(6, d.toNat), (6, a.toNat), (6, b.toNat)] 18 hp hf rfl rfl rfl
  have e2 : BitVec.ofNat 6 (x / 4096) = d := ofNat_field [(2, q.toNat), (4, 5), (5, 1), (1, 0), (1, u.toNat)] d [(6, a.toNat), (6, b.toNat)] 12 hp hf rfl rfl rfl
  have e3 : BitVec.ofNat 6 (x / 64) = a := ofNat_field [(2, q.toNat), (4, 5), (5, 1), (1, 0), (1, u.toNat), (6, d.toNat)] a [(6, b.toNat)] 6 hp hf rfl rfl rfl
  have e4 : BitVec.ofNat 6 x = b := ofNat_low [(2, q.toNat), (4, 5), (5, 1), (1, 0), (1, u.toNat), (6, d.toNat), (6, a.toNat)] b hp hf rfl
  refine ⟨pack_bound 31 hp hf rfl, (.vsub q u d a b), ?_, rfl, ?_⟩
  · simp only [decodeNat, decodeV, h0, h1, h2, ↓reduceIte]
    rw [e0, e1, e2, e3, e4]
    try rfl
  · rfl

theorem EncodeDecode.vadds (q : BitVec 2) (u : BitVec 1) (d : BitVec 6) (a : BitVec 6) (b : BitVec 6) : EncodeDecode.Statement (.vadds q u d a b) := by
  intro hwf x hx
  replace hx : 169869312 + q.toNat * 536870912 + u.toNat * 262144 + d.toNat * 4096 + a.toNat * 64 + b.toNat = x := Option.some.inj hx
  have hp : x = pack [(2, q.toNat), (4, 5), (5, 2), (1, 0), (1, u.toNat), (6, d.toNat), (6, a.toNat), (6, b.toNat)] := by
    rw [pack_cons 2 29 (pack_cons 4 25 (pack_cons 5 20 (pack_cons 1 19 (pack_cons 1 18 (pack_cons 6 12 (pack_cons 6 6 (pack_cons 6 0 pack_nil rfl (rfl : 1 = 2 ^ 0)) rfl (rfl : 64 = 2 ^ 6)) rfl (rfl : 4096 = 2 ^ 12)) rfl (rfl : 262144 = 2 ^ 18)) rfl (rfl : 524288 = 2 ^ 19)) rfl (rfl : 1048576 = 2 ^ 20)) rfl (rfl : 33554432 = 2 ^ 25)) rfl (rfl : 536870912 = 2 ^ 29)]
    omega
  have hf : Fits [(2, q.toNat), (4, 5), (5, 2), (1, 0), (1, u.toNat), (6, d.toNat), (6, a.toNat), (6, b.toNat)] := ⟨q.isLt, by decide, by decide, by decide, u.isLt, d.isLt, a.isLt, b.isLt, trivial⟩
  have h0 : x / 33554432 % 16 = 5 := pack_field [(2, q.toNat)] [(4, 5)] [(5, 2), (1, 0), (1, u.toNat), (6, d.toNat), (6, a.toNat), (6, b.toNat)] 25 4 hp hf rfl rfl rfl rfl rfl rfl
  have h1 : x / 1048576 % 32 = 2 := pack_field [(2, q.toNat), (4, 5)] [(5, 2)] [(1, 0), (1, u.toNat), (6, d.toNat), (6, a.toNat), (6, b.toNat)] 20 5 hp hf rfl rfl rfl rfl rfl rfl
  have h2 : x / 524288 % 2 = 0 := pack_field [(2, q.toNat), (4, 5), (5, 2)] [(1, 0)] [(1, u.toNat), (6, d.toNat), (6, a.toNat), (6, b.toNat)] 19 1 hp hf rfl rfl rfl rfl rfl rfl
  have e0 : BitVec.ofNat 2 (x / 536870912) = q := ofNat_field [] q [(4, 5), (5, 2), (1, 0), (1, u.toNat), (6, d.toNat), (6, a.toNat), (6, b.toNat)] 29 hp hf rfl rfl rfl
  have e1 : BitVec.ofNat 1 (x / 262144) = u := ofNat_field [(2, q.toNat), (4, 5), (5, 2), (1, 0)] u [(6, d.toNat), (6, a.toNat), (6, b.toNat)] 18 hp hf rfl rfl rfl
  have e2 : BitVec.ofNat 6 (x / 4096) = d := ofNat_field [(2, q.toNat), (4, 5), (5, 2), (1, 0), (1, u.toNat)] d [(6, a.toNat), (6, b.toNat)] 12 hp hf rfl rfl rfl
  have e3 : BitVec.ofNat 6 (x / 64) = a := ofNat_field [(2, q.toNat), (4, 5), (5, 2), (1, 0), (1, u.toNat), (6, d.toNat)] a [(6, b.toNat)] 6 hp hf rfl rfl rfl
  have e4 : BitVec.ofNat 6 x = b := ofNat_low [(2, q.toNat), (4, 5), (5, 2), (1, 0), (1, u.toNat), (6, d.toNat), (6, a.toNat)] b hp hf rfl
  refine ⟨pack_bound 31 hp hf rfl, (.vadds q u d a b), ?_, rfl, ?_⟩
  · simp only [decodeNat, decodeV, h0, h1, h2, ↓reduceIte]
    rw [e0, e1, e2, e3, e4]
    try rfl
  · rfl

theorem EncodeDecode.vsubs (q : BitVec 2) (u : BitVec 1) (d : BitVec 6) (a : BitVec 6) (b : BitVec 6) : EncodeDecode.Statement (.vsubs q u d a b) := by
  intro hwf x hx
  replace hx : 170917888 + q.toNat * 536870912 + u.toNat * 262144 + d.toNat * 4096 + a.toNat * 64 + b.toNat = x := Option.some.inj hx
  have hp : x = pack [(2, q.toNat), (4, 5), (5, 3), (1, 0), (1, u.toNat), (6, d.toNat), (6, a.toNat), (6, b.toNat)] := by
    rw [pack_cons 2 29 (pack_cons 4 25 (pack_cons 5 20 (pack_cons 1 19 (pack_cons 1 18 (pack_cons 6 12 (pack_cons 6 6 (pack_cons 6 0 pack_nil rfl (rfl : 1 = 2 ^ 0)) rfl (rfl : 64 = 2 ^ 6)) rfl (rfl : 4096 = 2 ^ 12)) rfl (rfl : 262144 = 2 ^ 18)) rfl (rfl : 524288 = 2 ^ 19)) rfl (rfl : 1048576 = 2 ^ 20)) rfl (rfl : 33554432 = 2 ^ 25)) rfl (rfl : 536870912 = 2 ^ 29)]
    omega
  have hf : Fits [(2, q.toNat), (4, 5), (5, 3), (1, 0), (1, u.toNat), (6, d.toNat), (6, a.toNat), (6, b.toNat)] := ⟨q.isLt, by decide, by decide, by decide, u.isLt, d.isLt, a.isLt, b.isLt, trivial⟩
  have h0 : x / 33554432 % 16 = 5 := pack_field [(2, q.toNat)] [(4, 5)] [(5, 3), (1, 0), (1, u.toNat), (6, d.toNat), (6, a.toNat), (6, b.toNat)] 25 4 hp hf rfl rfl rfl rfl rfl rfl
  have h1 : x / 1048576 % 32 = 3 := pack_field [(2, q.toNat), (4, 5)] [(5, 3)] [(1, 0), (1, u.toNat), (6, d.toNat), (6, a.toNat), (6, b.toNat)] 20 5 hp hf rfl rfl rfl rfl rfl rfl
  have h2 : x / 524288 % 2 = 0 := pack_field [(2, q.toNat), (4, 5), (5, 3)] [(1, 0)] [(1, u.toNat), (6, d.toNat), (6, a.toNat), (6, b.toNat)] 19 1 hp hf rfl rfl rfl rfl rfl rfl
  have e0 : BitVec.ofNat 2 (x / 536870912) = q := ofNat_field [] q [(4, 5), (5, 3), (1, 0), (1, u.toNat), (6, d.toNat), (6, a.toNat), (6, b.toNat)] 29 hp hf rfl rfl rfl
  have e1 : BitVec.ofNat 1 (x / 262144) = u := ofNat_field [(2, q.toNat), (4, 5), (5, 3), (1, 0)] u [(6, d.toNat), (6, a.toNat), (6, b.toNat)] 18 hp hf rfl rfl rfl
  have e2 : BitVec.ofNat 6 (x / 4096) = d := ofNat_field [(2, q.toNat), (4, 5), (5, 3), (1, 0), (1, u.toNat)] d [(6, a.toNat), (6, b.toNat)] 12 hp hf rfl rfl rfl
  have e3 : BitVec.ofNat 6 (x / 64) = a := ofNat_field [(2, q.toNat), (4, 5), (5, 3), (1, 0), (1, u.toNat), (6, d.toNat)] a [(6, b.toNat)] 6 hp hf rfl rfl rfl
  have e4 : BitVec.ofNat 6 x = b := ofNat_low [(2, q.toNat), (4, 5), (5, 3), (1, 0), (1, u.toNat), (6, d.toNat), (6, a.toNat)] b hp hf rfl
  refine ⟨pack_bound 31 hp hf rfl, (.vsubs q u d a b), ?_, rfl, ?_⟩
  · simp only [decodeNat, decodeV, h0, h1, h2, ↓reduceIte]
    rw [e0, e1, e2, e3, e4]
    try rfl
  · rfl

theorem EncodeDecode.vmul (q : BitVec 2) (s : BitVec 1) (u : BitVec 1) (d : BitVec 6) (a : BitVec 6) (b : BitVec 6) : EncodeDecode.Statement (.vmul q s u d a b) := by
  intro hwf x hx
  replace hx : 171966464 + q.toNat * 536870912 + s.toNat * 524288 + u.toNat * 262144 + d.toNat * 4096 + a.toNat * 64 + b.toNat = x := Option.some.inj hx
  have hp : x = pack [(2, q.toNat), (4, 5), (5, 4), (1, s.toNat), (1, u.toNat), (6, d.toNat), (6, a.toNat), (6, b.toNat)] := by
    rw [pack_cons 2 29 (pack_cons 4 25 (pack_cons 5 20 (pack_cons 1 19 (pack_cons 1 18 (pack_cons 6 12 (pack_cons 6 6 (pack_cons 6 0 pack_nil rfl (rfl : 1 = 2 ^ 0)) rfl (rfl : 64 = 2 ^ 6)) rfl (rfl : 4096 = 2 ^ 12)) rfl (rfl : 262144 = 2 ^ 18)) rfl (rfl : 524288 = 2 ^ 19)) rfl (rfl : 1048576 = 2 ^ 20)) rfl (rfl : 33554432 = 2 ^ 25)) rfl (rfl : 536870912 = 2 ^ 29)]
    omega
  have hf : Fits [(2, q.toNat), (4, 5), (5, 4), (1, s.toNat), (1, u.toNat), (6, d.toNat), (6, a.toNat), (6, b.toNat)] := ⟨q.isLt, by decide, by decide, s.isLt, u.isLt, d.isLt, a.isLt, b.isLt, trivial⟩
  have h0 : x / 33554432 % 16 = 5 := pack_field [(2, q.toNat)] [(4, 5)] [(5, 4), (1, s.toNat), (1, u.toNat), (6, d.toNat), (6, a.toNat), (6, b.toNat)] 25 4 hp hf rfl rfl rfl rfl rfl rfl
  have h1 : x / 1048576 % 32 = 4 := pack_field [(2, q.toNat), (4, 5)] [(5, 4)] [(1, s.toNat), (1, u.toNat), (6, d.toNat), (6, a.toNat), (6, b.toNat)] 20 5 hp hf rfl rfl rfl rfl rfl rfl
  have e0 : BitVec.ofNat 2 (x / 536870912) = q := ofNat_field [] q [(4, 5), (5, 4), (1, s.toNat), (1, u.toNat), (6, d.toNat), (6, a.toNat), (6, b.toNat)] 29 hp hf rfl rfl rfl
  have e1 : BitVec.ofNat 1 (x / 524288) = s := ofNat_field [(2, q.toNat), (4, 5), (5, 4)] s [(1, u.toNat), (6, d.toNat), (6, a.toNat), (6, b.toNat)] 19 hp hf rfl rfl rfl
  have e2 : BitVec.ofNat 1 (x / 262144) = u := ofNat_field [(2, q.toNat), (4, 5), (5, 4), (1, s.toNat)] u [(6, d.toNat), (6, a.toNat), (6, b.toNat)] 18 hp hf rfl rfl rfl
  have e3 : BitVec.ofNat 6 (x / 4096) = d := ofNat_field [(2, q.toNat), (4, 5), (5, 4), (1, s.toNat), (1, u.toNat)] d [(6, a.toNat), (6, b.toNat)] 12 hp hf rfl rfl rfl
  have e4 : BitVec.ofNat 6 (x / 64) = a := ofNat_field [(2, q.toNat), (4, 5), (5, 4), (1, s.toNat), (1, u.toNat), (6, d.toNat)] a [(6, b.toNat)] 6 hp hf rfl rfl rfl
  have e5 : BitVec.ofNat 6 x = b := ofNat_low [(2, q.toNat), (4, 5), (5, 4), (1, s.toNat), (1, u.toNat), (6, d.toNat), (6, a.toNat)] b hp hf rfl
  refine ⟨pack_bound 31 hp hf rfl, (.vmul q s u d a b), ?_, rfl, ?_⟩
  · simp only [decodeNat, decodeV, h0, h1, ↓reduceIte]
    rw [e0, e1, e2, e3, e4, e5]
    try rfl
  · rfl

theorem EncodeDecode.vmulh (q : BitVec 2) (u : BitVec 1) (d : BitVec 6) (a : BitVec 6) (b : BitVec 6) : EncodeDecode.Statement (.vmulh q u d a b) := by
  intro hwf x hx
  replace hx : 173015040 + q.toNat * 536870912 + u.toNat * 262144 + d.toNat * 4096 + a.toNat * 64 + b.toNat = x := Option.some.inj hx
  have hp : x = pack [(2, q.toNat), (4, 5), (5, 5), (1, 0), (1, u.toNat), (6, d.toNat), (6, a.toNat), (6, b.toNat)] := by
    rw [pack_cons 2 29 (pack_cons 4 25 (pack_cons 5 20 (pack_cons 1 19 (pack_cons 1 18 (pack_cons 6 12 (pack_cons 6 6 (pack_cons 6 0 pack_nil rfl (rfl : 1 = 2 ^ 0)) rfl (rfl : 64 = 2 ^ 6)) rfl (rfl : 4096 = 2 ^ 12)) rfl (rfl : 262144 = 2 ^ 18)) rfl (rfl : 524288 = 2 ^ 19)) rfl (rfl : 1048576 = 2 ^ 20)) rfl (rfl : 33554432 = 2 ^ 25)) rfl (rfl : 536870912 = 2 ^ 29)]
    omega
  have hf : Fits [(2, q.toNat), (4, 5), (5, 5), (1, 0), (1, u.toNat), (6, d.toNat), (6, a.toNat), (6, b.toNat)] := ⟨q.isLt, by decide, by decide, by decide, u.isLt, d.isLt, a.isLt, b.isLt, trivial⟩
  have h0 : x / 33554432 % 16 = 5 := pack_field [(2, q.toNat)] [(4, 5)] [(5, 5), (1, 0), (1, u.toNat), (6, d.toNat), (6, a.toNat), (6, b.toNat)] 25 4 hp hf rfl rfl rfl rfl rfl rfl
  have h1 : x / 1048576 % 32 = 5 := pack_field [(2, q.toNat), (4, 5)] [(5, 5)] [(1, 0), (1, u.toNat), (6, d.toNat), (6, a.toNat), (6, b.toNat)] 20 5 hp hf rfl rfl rfl rfl rfl rfl
  have h2 : x / 524288 % 2 = 0 := pack_field [(2, q.toNat), (4, 5), (5, 5)] [(1, 0)] [(1, u.toNat), (6, d.toNat), (6, a.toNat), (6, b.toNat)] 19 1 hp hf rfl rfl rfl rfl rfl rfl
  have e0 : BitVec.ofNat 2 (x / 536870912) = q := ofNat_field [] q [(4, 5), (5, 5), (1, 0), (1, u.toNat), (6, d.toNat), (6, a.toNat), (6, b.toNat)] 29 hp hf rfl rfl rfl
  have e1 : BitVec.ofNat 1 (x / 262144) = u := ofNat_field [(2, q.toNat), (4, 5), (5, 5), (1, 0)] u [(6, d.toNat), (6, a.toNat), (6, b.toNat)] 18 hp hf rfl rfl rfl
  have e2 : BitVec.ofNat 6 (x / 4096) = d := ofNat_field [(2, q.toNat), (4, 5), (5, 5), (1, 0), (1, u.toNat)] d [(6, a.toNat), (6, b.toNat)] 12 hp hf rfl rfl rfl
  have e3 : BitVec.ofNat 6 (x / 64) = a := ofNat_field [(2, q.toNat), (4, 5), (5, 5), (1, 0), (1, u.toNat), (6, d.toNat)] a [(6, b.toNat)] 6 hp hf rfl rfl rfl
  have e4 : BitVec.ofNat 6 x = b := ofNat_low [(2, q.toNat), (4, 5), (5, 5), (1, 0), (1, u.toNat), (6, d.toNat), (6, a.toNat)] b hp hf rfl
  refine ⟨pack_bound 31 hp hf rfl, (.vmulh q u d a b), ?_, rfl, ?_⟩
  · simp only [decodeNat, decodeV, h0, h1, h2, ↓reduceIte]
    rw [e0, e1, e2, e3, e4]
    try rfl
  · rfl

theorem EncodeDecode.vmac (q : BitVec 2) (s : BitVec 1) (u : BitVec 1) (d : BitVec 6) (a : BitVec 6) (b : BitVec 6) : EncodeDecode.Statement (.vmac q s u d a b) := by
  intro hwf x hx
  replace hx : 174063616 + q.toNat * 536870912 + s.toNat * 524288 + u.toNat * 262144 + d.toNat * 4096 + a.toNat * 64 + b.toNat = x := Option.some.inj hx
  have hp : x = pack [(2, q.toNat), (4, 5), (5, 6), (1, s.toNat), (1, u.toNat), (6, d.toNat), (6, a.toNat), (6, b.toNat)] := by
    rw [pack_cons 2 29 (pack_cons 4 25 (pack_cons 5 20 (pack_cons 1 19 (pack_cons 1 18 (pack_cons 6 12 (pack_cons 6 6 (pack_cons 6 0 pack_nil rfl (rfl : 1 = 2 ^ 0)) rfl (rfl : 64 = 2 ^ 6)) rfl (rfl : 4096 = 2 ^ 12)) rfl (rfl : 262144 = 2 ^ 18)) rfl (rfl : 524288 = 2 ^ 19)) rfl (rfl : 1048576 = 2 ^ 20)) rfl (rfl : 33554432 = 2 ^ 25)) rfl (rfl : 536870912 = 2 ^ 29)]
    omega
  have hf : Fits [(2, q.toNat), (4, 5), (5, 6), (1, s.toNat), (1, u.toNat), (6, d.toNat), (6, a.toNat), (6, b.toNat)] := ⟨q.isLt, by decide, by decide, s.isLt, u.isLt, d.isLt, a.isLt, b.isLt, trivial⟩
  have h0 : x / 33554432 % 16 = 5 := pack_field [(2, q.toNat)] [(4, 5)] [(5, 6), (1, s.toNat), (1, u.toNat), (6, d.toNat), (6, a.toNat), (6, b.toNat)] 25 4 hp hf rfl rfl rfl rfl rfl rfl
  have h1 : x / 1048576 % 32 = 6 := pack_field [(2, q.toNat), (4, 5)] [(5, 6)] [(1, s.toNat), (1, u.toNat), (6, d.toNat), (6, a.toNat), (6, b.toNat)] 20 5 hp hf rfl rfl rfl rfl rfl rfl
  have e0 : BitVec.ofNat 2 (x / 536870912) = q := ofNat_field [] q [(4, 5), (5, 6), (1, s.toNat), (1, u.toNat), (6, d.toNat), (6, a.toNat), (6, b.toNat)] 29 hp hf rfl rfl rfl
  have e1 : BitVec.ofNat 1 (x / 524288) = s := ofNat_field [(2, q.toNat), (4, 5), (5, 6)] s [(1, u.toNat), (6, d.toNat), (6, a.toNat), (6, b.toNat)] 19 hp hf rfl rfl rfl
  have e2 : BitVec.ofNat 1 (x / 262144) = u := ofNat_field [(2, q.toNat), (4, 5), (5, 6), (1, s.toNat)] u [(6, d.toNat), (6, a.toNat), (6, b.toNat)] 18 hp hf rfl rfl rfl
  have e3 : BitVec.ofNat 6 (x / 4096) = d := ofNat_field [(2, q.toNat), (4, 5), (5, 6), (1, s.toNat), (1, u.toNat)] d [(6, a.toNat), (6, b.toNat)] 12 hp hf rfl rfl rfl
  have e4 : BitVec.ofNat 6 (x / 64) = a := ofNat_field [(2, q.toNat), (4, 5), (5, 6), (1, s.toNat), (1, u.toNat), (6, d.toNat)] a [(6, b.toNat)] 6 hp hf rfl rfl rfl
  have e5 : BitVec.ofNat 6 x = b := ofNat_low [(2, q.toNat), (4, 5), (5, 6), (1, s.toNat), (1, u.toNat), (6, d.toNat), (6, a.toNat)] b hp hf rfl
  refine ⟨pack_bound 31 hp hf rfl, (.vmac q s u d a b), ?_, rfl, ?_⟩
  · simp only [decodeNat, decodeV, h0, h1, ↓reduceIte]
    rw [e0, e1, e2, e3, e4, e5]
    try rfl
  · rfl

theorem EncodeDecode.vmin (q : BitVec 2) (u : BitVec 1) (d : BitVec 6) (a : BitVec 6) (b : BitVec 6) : EncodeDecode.Statement (.vmin q u d a b) := by
  intro hwf x hx
  replace hx : 175112192 + q.toNat * 536870912 + u.toNat * 262144 + d.toNat * 4096 + a.toNat * 64 + b.toNat = x := Option.some.inj hx
  have hp : x = pack [(2, q.toNat), (4, 5), (5, 7), (1, 0), (1, u.toNat), (6, d.toNat), (6, a.toNat), (6, b.toNat)] := by
    rw [pack_cons 2 29 (pack_cons 4 25 (pack_cons 5 20 (pack_cons 1 19 (pack_cons 1 18 (pack_cons 6 12 (pack_cons 6 6 (pack_cons 6 0 pack_nil rfl (rfl : 1 = 2 ^ 0)) rfl (rfl : 64 = 2 ^ 6)) rfl (rfl : 4096 = 2 ^ 12)) rfl (rfl : 262144 = 2 ^ 18)) rfl (rfl : 524288 = 2 ^ 19)) rfl (rfl : 1048576 = 2 ^ 20)) rfl (rfl : 33554432 = 2 ^ 25)) rfl (rfl : 536870912 = 2 ^ 29)]
    omega
  have hf : Fits [(2, q.toNat), (4, 5), (5, 7), (1, 0), (1, u.toNat), (6, d.toNat), (6, a.toNat), (6, b.toNat)] := ⟨q.isLt, by decide, by decide, by decide, u.isLt, d.isLt, a.isLt, b.isLt, trivial⟩
  have h0 : x / 33554432 % 16 = 5 := pack_field [(2, q.toNat)] [(4, 5)] [(5, 7), (1, 0), (1, u.toNat), (6, d.toNat), (6, a.toNat), (6, b.toNat)] 25 4 hp hf rfl rfl rfl rfl rfl rfl
  have h1 : x / 1048576 % 32 = 7 := pack_field [(2, q.toNat), (4, 5)] [(5, 7)] [(1, 0), (1, u.toNat), (6, d.toNat), (6, a.toNat), (6, b.toNat)] 20 5 hp hf rfl rfl rfl rfl rfl rfl
  have h2 : x / 524288 % 2 = 0 := pack_field [(2, q.toNat), (4, 5), (5, 7)] [(1, 0)] [(1, u.toNat), (6, d.toNat), (6, a.toNat), (6, b.toNat)] 19 1 hp hf rfl rfl rfl rfl rfl rfl
  have e0 : BitVec.ofNat 2 (x / 536870912) = q := ofNat_field [] q [(4, 5), (5, 7), (1, 0), (1, u.toNat), (6, d.toNat), (6, a.toNat), (6, b.toNat)] 29 hp hf rfl rfl rfl
  have e1 : BitVec.ofNat 1 (x / 262144) = u := ofNat_field [(2, q.toNat), (4, 5), (5, 7), (1, 0)] u [(6, d.toNat), (6, a.toNat), (6, b.toNat)] 18 hp hf rfl rfl rfl
  have e2 : BitVec.ofNat 6 (x / 4096) = d := ofNat_field [(2, q.toNat), (4, 5), (5, 7), (1, 0), (1, u.toNat)] d [(6, a.toNat), (6, b.toNat)] 12 hp hf rfl rfl rfl
  have e3 : BitVec.ofNat 6 (x / 64) = a := ofNat_field [(2, q.toNat), (4, 5), (5, 7), (1, 0), (1, u.toNat), (6, d.toNat)] a [(6, b.toNat)] 6 hp hf rfl rfl rfl
  have e4 : BitVec.ofNat 6 x = b := ofNat_low [(2, q.toNat), (4, 5), (5, 7), (1, 0), (1, u.toNat), (6, d.toNat), (6, a.toNat)] b hp hf rfl
  refine ⟨pack_bound 31 hp hf rfl, (.vmin q u d a b), ?_, rfl, ?_⟩
  · simp only [decodeNat, decodeV, h0, h1, h2, ↓reduceIte]
    rw [e0, e1, e2, e3, e4]
    try rfl
  · rfl

theorem EncodeDecode.vmax (q : BitVec 2) (u : BitVec 1) (d : BitVec 6) (a : BitVec 6) (b : BitVec 6) : EncodeDecode.Statement (.vmax q u d a b) := by
  intro hwf x hx
  replace hx : 176160768 + q.toNat * 536870912 + u.toNat * 262144 + d.toNat * 4096 + a.toNat * 64 + b.toNat = x := Option.some.inj hx
  have hp : x = pack [(2, q.toNat), (4, 5), (5, 8), (1, 0), (1, u.toNat), (6, d.toNat), (6, a.toNat), (6, b.toNat)] := by
    rw [pack_cons 2 29 (pack_cons 4 25 (pack_cons 5 20 (pack_cons 1 19 (pack_cons 1 18 (pack_cons 6 12 (pack_cons 6 6 (pack_cons 6 0 pack_nil rfl (rfl : 1 = 2 ^ 0)) rfl (rfl : 64 = 2 ^ 6)) rfl (rfl : 4096 = 2 ^ 12)) rfl (rfl : 262144 = 2 ^ 18)) rfl (rfl : 524288 = 2 ^ 19)) rfl (rfl : 1048576 = 2 ^ 20)) rfl (rfl : 33554432 = 2 ^ 25)) rfl (rfl : 536870912 = 2 ^ 29)]
    omega
  have hf : Fits [(2, q.toNat), (4, 5), (5, 8), (1, 0), (1, u.toNat), (6, d.toNat), (6, a.toNat), (6, b.toNat)] := ⟨q.isLt, by decide, by decide, by decide, u.isLt, d.isLt, a.isLt, b.isLt, trivial⟩
  have h0 : x / 33554432 % 16 = 5 := pack_field [(2, q.toNat)] [(4, 5)] [(5, 8), (1, 0), (1, u.toNat), (6, d.toNat), (6, a.toNat), (6, b.toNat)] 25 4 hp hf rfl rfl rfl rfl rfl rfl
  have h1 : x / 1048576 % 32 = 8 := pack_field [(2, q.toNat), (4, 5)] [(5, 8)] [(1, 0), (1, u.toNat), (6, d.toNat), (6, a.toNat), (6, b.toNat)] 20 5 hp hf rfl rfl rfl rfl rfl rfl
  have h2 : x / 524288 % 2 = 0 := pack_field [(2, q.toNat), (4, 5), (5, 8)] [(1, 0)] [(1, u.toNat), (6, d.toNat), (6, a.toNat), (6, b.toNat)] 19 1 hp hf rfl rfl rfl rfl rfl rfl
  have e0 : BitVec.ofNat 2 (x / 536870912) = q := ofNat_field [] q [(4, 5), (5, 8), (1, 0), (1, u.toNat), (6, d.toNat), (6, a.toNat), (6, b.toNat)] 29 hp hf rfl rfl rfl
  have e1 : BitVec.ofNat 1 (x / 262144) = u := ofNat_field [(2, q.toNat), (4, 5), (5, 8), (1, 0)] u [(6, d.toNat), (6, a.toNat), (6, b.toNat)] 18 hp hf rfl rfl rfl
  have e2 : BitVec.ofNat 6 (x / 4096) = d := ofNat_field [(2, q.toNat), (4, 5), (5, 8), (1, 0), (1, u.toNat)] d [(6, a.toNat), (6, b.toNat)] 12 hp hf rfl rfl rfl
  have e3 : BitVec.ofNat 6 (x / 64) = a := ofNat_field [(2, q.toNat), (4, 5), (5, 8), (1, 0), (1, u.toNat), (6, d.toNat)] a [(6, b.toNat)] 6 hp hf rfl rfl rfl
  have e4 : BitVec.ofNat 6 x = b := ofNat_low [(2, q.toNat), (4, 5), (5, 8), (1, 0), (1, u.toNat), (6, d.toNat), (6, a.toNat)] b hp hf rfl
  refine ⟨pack_bound 31 hp hf rfl, (.vmax q u d a b), ?_, rfl, ?_⟩
  · simp only [decodeNat, decodeV, h0, h1, h2, ↓reduceIte]
    rw [e0, e1, e2, e3, e4]
    try rfl
  · rfl

theorem EncodeDecode.vand (q : BitVec 2) (d : BitVec 6) (a : BitVec 6) (b : BitVec 6) : EncodeDecode.Statement (.vand q d a b) := by
  intro hwf x hx
  replace hx : 177209344 + q.toNat * 536870912 + d.toNat * 4096 + a.toNat * 64 + b.toNat = x := Option.some.inj hx
  have hp : x = pack [(2, q.toNat), (4, 5), (5, 9), (2, 0), (6, d.toNat), (6, a.toNat), (6, b.toNat)] := by
    rw [pack_cons 2 29 (pack_cons 4 25 (pack_cons 5 20 (pack_cons 2 18 (pack_cons 6 12 (pack_cons 6 6 (pack_cons 6 0 pack_nil rfl (rfl : 1 = 2 ^ 0)) rfl (rfl : 64 = 2 ^ 6)) rfl (rfl : 4096 = 2 ^ 12)) rfl (rfl : 262144 = 2 ^ 18)) rfl (rfl : 1048576 = 2 ^ 20)) rfl (rfl : 33554432 = 2 ^ 25)) rfl (rfl : 536870912 = 2 ^ 29)]
    omega
  have hf : Fits [(2, q.toNat), (4, 5), (5, 9), (2, 0), (6, d.toNat), (6, a.toNat), (6, b.toNat)] := ⟨q.isLt, by decide, by decide, by decide, d.isLt, a.isLt, b.isLt, trivial⟩
  have h0 : x / 33554432 % 16 = 5 := pack_field [(2, q.toNat)] [(4, 5)] [(5, 9), (2, 0), (6, d.toNat), (6, a.toNat), (6, b.toNat)] 25 4 hp hf rfl rfl rfl rfl rfl rfl
  have h1 : x / 1048576 % 32 = 9 := pack_field [(2, q.toNat), (4, 5)] [(5, 9)] [(2, 0), (6, d.toNat), (6, a.toNat), (6, b.toNat)] 20 5 hp hf rfl rfl rfl rfl rfl rfl
  have h2 : x / 262144 % 4 = 0 := pack_field [(2, q.toNat), (4, 5), (5, 9)] [(2, 0)] [(6, d.toNat), (6, a.toNat), (6, b.toNat)] 18 2 hp hf rfl rfl rfl rfl rfl rfl
  have e0 : BitVec.ofNat 2 (x / 536870912) = q := ofNat_field [] q [(4, 5), (5, 9), (2, 0), (6, d.toNat), (6, a.toNat), (6, b.toNat)] 29 hp hf rfl rfl rfl
  have e1 : BitVec.ofNat 6 (x / 4096) = d := ofNat_field [(2, q.toNat), (4, 5), (5, 9), (2, 0)] d [(6, a.toNat), (6, b.toNat)] 12 hp hf rfl rfl rfl
  have e2 : BitVec.ofNat 6 (x / 64) = a := ofNat_field [(2, q.toNat), (4, 5), (5, 9), (2, 0), (6, d.toNat)] a [(6, b.toNat)] 6 hp hf rfl rfl rfl
  have e3 : BitVec.ofNat 6 x = b := ofNat_low [(2, q.toNat), (4, 5), (5, 9), (2, 0), (6, d.toNat), (6, a.toNat)] b hp hf rfl
  refine ⟨pack_bound 31 hp hf rfl, (.vand q d a b), ?_, rfl, ?_⟩
  · simp only [decodeNat, decodeV, h0, h1, h2, ↓reduceIte]
    rw [e0, e1, e2, e3]
    try rfl
  · rfl

theorem EncodeDecode.vor (q : BitVec 2) (d : BitVec 6) (a : BitVec 6) (b : BitVec 6) : EncodeDecode.Statement (.vor q d a b) := by
  intro hwf x hx
  replace hx : 178257920 + q.toNat * 536870912 + d.toNat * 4096 + a.toNat * 64 + b.toNat = x := Option.some.inj hx
  have hp : x = pack [(2, q.toNat), (4, 5), (5, 10), (2, 0), (6, d.toNat), (6, a.toNat), (6, b.toNat)] := by
    rw [pack_cons 2 29 (pack_cons 4 25 (pack_cons 5 20 (pack_cons 2 18 (pack_cons 6 12 (pack_cons 6 6 (pack_cons 6 0 pack_nil rfl (rfl : 1 = 2 ^ 0)) rfl (rfl : 64 = 2 ^ 6)) rfl (rfl : 4096 = 2 ^ 12)) rfl (rfl : 262144 = 2 ^ 18)) rfl (rfl : 1048576 = 2 ^ 20)) rfl (rfl : 33554432 = 2 ^ 25)) rfl (rfl : 536870912 = 2 ^ 29)]
    omega
  have hf : Fits [(2, q.toNat), (4, 5), (5, 10), (2, 0), (6, d.toNat), (6, a.toNat), (6, b.toNat)] := ⟨q.isLt, by decide, by decide, by decide, d.isLt, a.isLt, b.isLt, trivial⟩
  have h0 : x / 33554432 % 16 = 5 := pack_field [(2, q.toNat)] [(4, 5)] [(5, 10), (2, 0), (6, d.toNat), (6, a.toNat), (6, b.toNat)] 25 4 hp hf rfl rfl rfl rfl rfl rfl
  have h1 : x / 1048576 % 32 = 10 := pack_field [(2, q.toNat), (4, 5)] [(5, 10)] [(2, 0), (6, d.toNat), (6, a.toNat), (6, b.toNat)] 20 5 hp hf rfl rfl rfl rfl rfl rfl
  have h2 : x / 262144 % 4 = 0 := pack_field [(2, q.toNat), (4, 5), (5, 10)] [(2, 0)] [(6, d.toNat), (6, a.toNat), (6, b.toNat)] 18 2 hp hf rfl rfl rfl rfl rfl rfl
  have e0 : BitVec.ofNat 2 (x / 536870912) = q := ofNat_field [] q [(4, 5), (5, 10), (2, 0), (6, d.toNat), (6, a.toNat), (6, b.toNat)] 29 hp hf rfl rfl rfl
  have e1 : BitVec.ofNat 6 (x / 4096) = d := ofNat_field [(2, q.toNat), (4, 5), (5, 10), (2, 0)] d [(6, a.toNat), (6, b.toNat)] 12 hp hf rfl rfl rfl
  have e2 : BitVec.ofNat 6 (x / 64) = a := ofNat_field [(2, q.toNat), (4, 5), (5, 10), (2, 0), (6, d.toNat)] a [(6, b.toNat)] 6 hp hf rfl rfl rfl
  have e3 : BitVec.ofNat 6 x = b := ofNat_low [(2, q.toNat), (4, 5), (5, 10), (2, 0), (6, d.toNat), (6, a.toNat)] b hp hf rfl
  refine ⟨pack_bound 31 hp hf rfl, (.vor q d a b), ?_, rfl, ?_⟩
  · simp only [decodeNat, decodeV, h0, h1, h2, ↓reduceIte]
    rw [e0, e1, e2, e3]
    try rfl
  · rfl

theorem EncodeDecode.vxor (q : BitVec 2) (d : BitVec 6) (a : BitVec 6) (b : BitVec 6) : EncodeDecode.Statement (.vxor q d a b) := by
  intro hwf x hx
  replace hx : 179306496 + q.toNat * 536870912 + d.toNat * 4096 + a.toNat * 64 + b.toNat = x := Option.some.inj hx
  have hp : x = pack [(2, q.toNat), (4, 5), (5, 11), (2, 0), (6, d.toNat), (6, a.toNat), (6, b.toNat)] := by
    rw [pack_cons 2 29 (pack_cons 4 25 (pack_cons 5 20 (pack_cons 2 18 (pack_cons 6 12 (pack_cons 6 6 (pack_cons 6 0 pack_nil rfl (rfl : 1 = 2 ^ 0)) rfl (rfl : 64 = 2 ^ 6)) rfl (rfl : 4096 = 2 ^ 12)) rfl (rfl : 262144 = 2 ^ 18)) rfl (rfl : 1048576 = 2 ^ 20)) rfl (rfl : 33554432 = 2 ^ 25)) rfl (rfl : 536870912 = 2 ^ 29)]
    omega
  have hf : Fits [(2, q.toNat), (4, 5), (5, 11), (2, 0), (6, d.toNat), (6, a.toNat), (6, b.toNat)] := ⟨q.isLt, by decide, by decide, by decide, d.isLt, a.isLt, b.isLt, trivial⟩
  have h0 : x / 33554432 % 16 = 5 := pack_field [(2, q.toNat)] [(4, 5)] [(5, 11), (2, 0), (6, d.toNat), (6, a.toNat), (6, b.toNat)] 25 4 hp hf rfl rfl rfl rfl rfl rfl
  have h1 : x / 1048576 % 32 = 11 := pack_field [(2, q.toNat), (4, 5)] [(5, 11)] [(2, 0), (6, d.toNat), (6, a.toNat), (6, b.toNat)] 20 5 hp hf rfl rfl rfl rfl rfl rfl
  have h2 : x / 262144 % 4 = 0 := pack_field [(2, q.toNat), (4, 5), (5, 11)] [(2, 0)] [(6, d.toNat), (6, a.toNat), (6, b.toNat)] 18 2 hp hf rfl rfl rfl rfl rfl rfl
  have e0 : BitVec.ofNat 2 (x / 536870912) = q := ofNat_field [] q [(4, 5), (5, 11), (2, 0), (6, d.toNat), (6, a.toNat), (6, b.toNat)] 29 hp hf rfl rfl rfl
  have e1 : BitVec.ofNat 6 (x / 4096) = d := ofNat_field [(2, q.toNat), (4, 5), (5, 11), (2, 0)] d [(6, a.toNat), (6, b.toNat)] 12 hp hf rfl rfl rfl
  have e2 : BitVec.ofNat 6 (x / 64) = a := ofNat_field [(2, q.toNat), (4, 5), (5, 11), (2, 0), (6, d.toNat)] a [(6, b.toNat)] 6 hp hf rfl rfl rfl
  have e3 : BitVec.ofNat 6 x = b := ofNat_low [(2, q.toNat), (4, 5), (5, 11), (2, 0), (6, d.toNat), (6, a.toNat)] b hp hf rfl
  refine ⟨pack_bound 31 hp hf rfl, (.vxor q d a b), ?_, rfl, ?_⟩
  · simp only [decodeNat, decodeV, h0, h1, h2, ↓reduceIte]
    rw [e0, e1, e2, e3]
    try rfl
  · rfl

theorem EncodeDecode.vandn (q : BitVec 2) (d : BitVec 6) (a : BitVec 6) (b : BitVec 6) : EncodeDecode.Statement (.vandn q d a b) := by
  intro hwf x hx
  replace hx : 180355072 + q.toNat * 536870912 + d.toNat * 4096 + a.toNat * 64 + b.toNat = x := Option.some.inj hx
  have hp : x = pack [(2, q.toNat), (4, 5), (5, 12), (2, 0), (6, d.toNat), (6, a.toNat), (6, b.toNat)] := by
    rw [pack_cons 2 29 (pack_cons 4 25 (pack_cons 5 20 (pack_cons 2 18 (pack_cons 6 12 (pack_cons 6 6 (pack_cons 6 0 pack_nil rfl (rfl : 1 = 2 ^ 0)) rfl (rfl : 64 = 2 ^ 6)) rfl (rfl : 4096 = 2 ^ 12)) rfl (rfl : 262144 = 2 ^ 18)) rfl (rfl : 1048576 = 2 ^ 20)) rfl (rfl : 33554432 = 2 ^ 25)) rfl (rfl : 536870912 = 2 ^ 29)]
    omega
  have hf : Fits [(2, q.toNat), (4, 5), (5, 12), (2, 0), (6, d.toNat), (6, a.toNat), (6, b.toNat)] := ⟨q.isLt, by decide, by decide, by decide, d.isLt, a.isLt, b.isLt, trivial⟩
  have h0 : x / 33554432 % 16 = 5 := pack_field [(2, q.toNat)] [(4, 5)] [(5, 12), (2, 0), (6, d.toNat), (6, a.toNat), (6, b.toNat)] 25 4 hp hf rfl rfl rfl rfl rfl rfl
  have h1 : x / 1048576 % 32 = 12 := pack_field [(2, q.toNat), (4, 5)] [(5, 12)] [(2, 0), (6, d.toNat), (6, a.toNat), (6, b.toNat)] 20 5 hp hf rfl rfl rfl rfl rfl rfl
  have h2 : x / 262144 % 4 = 0 := pack_field [(2, q.toNat), (4, 5), (5, 12)] [(2, 0)] [(6, d.toNat), (6, a.toNat), (6, b.toNat)] 18 2 hp hf rfl rfl rfl rfl rfl rfl
  have e0 : BitVec.ofNat 2 (x / 536870912) = q := ofNat_field [] q [(4, 5), (5, 12), (2, 0), (6, d.toNat), (6, a.toNat), (6, b.toNat)] 29 hp hf rfl rfl rfl
  have e1 : BitVec.ofNat 6 (x / 4096) = d := ofNat_field [(2, q.toNat), (4, 5), (5, 12), (2, 0)] d [(6, a.toNat), (6, b.toNat)] 12 hp hf rfl rfl rfl
  have e2 : BitVec.ofNat 6 (x / 64) = a := ofNat_field [(2, q.toNat), (4, 5), (5, 12), (2, 0), (6, d.toNat)] a [(6, b.toNat)] 6 hp hf rfl rfl rfl
  have e3 : BitVec.ofNat 6 x = b := ofNat_low [(2, q.toNat), (4, 5), (5, 12), (2, 0), (6, d.toNat), (6, a.toNat)] b hp hf rfl
  refine ⟨pack_bound 31 hp hf rfl, (.vandn q d a b), ?_, rfl, ?_⟩
  · simp only [decodeNat, decodeV, h0, h1, h2, ↓reduceIte]
    rw [e0, e1, e2, e3]
    try rfl
  · rfl

theorem EncodeDecode.vsel (q : BitVec 2) (d : BitVec 6) (a : BitVec 6) (b : BitVec 6) : EncodeDecode.Statement (.vsel q d a b) := by
  intro hwf x hx
  replace hx : 181403648 + q.toNat * 536870912 + d.toNat * 4096 + a.toNat * 64 + b.toNat = x := Option.some.inj hx
  have hp : x = pack [(2, q.toNat), (4, 5), (5, 13), (2, 0), (6, d.toNat), (6, a.toNat), (6, b.toNat)] := by
    rw [pack_cons 2 29 (pack_cons 4 25 (pack_cons 5 20 (pack_cons 2 18 (pack_cons 6 12 (pack_cons 6 6 (pack_cons 6 0 pack_nil rfl (rfl : 1 = 2 ^ 0)) rfl (rfl : 64 = 2 ^ 6)) rfl (rfl : 4096 = 2 ^ 12)) rfl (rfl : 262144 = 2 ^ 18)) rfl (rfl : 1048576 = 2 ^ 20)) rfl (rfl : 33554432 = 2 ^ 25)) rfl (rfl : 536870912 = 2 ^ 29)]
    omega
  have hf : Fits [(2, q.toNat), (4, 5), (5, 13), (2, 0), (6, d.toNat), (6, a.toNat), (6, b.toNat)] := ⟨q.isLt, by decide, by decide, by decide, d.isLt, a.isLt, b.isLt, trivial⟩
  have h0 : x / 33554432 % 16 = 5 := pack_field [(2, q.toNat)] [(4, 5)] [(5, 13), (2, 0), (6, d.toNat), (6, a.toNat), (6, b.toNat)] 25 4 hp hf rfl rfl rfl rfl rfl rfl
  have h1 : x / 1048576 % 32 = 13 := pack_field [(2, q.toNat), (4, 5)] [(5, 13)] [(2, 0), (6, d.toNat), (6, a.toNat), (6, b.toNat)] 20 5 hp hf rfl rfl rfl rfl rfl rfl
  have h2 : x / 262144 % 4 = 0 := pack_field [(2, q.toNat), (4, 5), (5, 13)] [(2, 0)] [(6, d.toNat), (6, a.toNat), (6, b.toNat)] 18 2 hp hf rfl rfl rfl rfl rfl rfl
  have e0 : BitVec.ofNat 2 (x / 536870912) = q := ofNat_field [] q [(4, 5), (5, 13), (2, 0), (6, d.toNat), (6, a.toNat), (6, b.toNat)] 29 hp hf rfl rfl rfl
  have e1 : BitVec.ofNat 6 (x / 4096) = d := ofNat_field [(2, q.toNat), (4, 5), (5, 13), (2, 0)] d [(6, a.toNat), (6, b.toNat)] 12 hp hf rfl rfl rfl
  have e2 : BitVec.ofNat 6 (x / 64) = a := ofNat_field [(2, q.toNat), (4, 5), (5, 13), (2, 0), (6, d.toNat)] a [(6, b.toNat)] 6 hp hf rfl rfl rfl
  have e3 : BitVec.ofNat 6 x = b := ofNat_low [(2, q.toNat), (4, 5), (5, 13), (2, 0), (6, d.toNat), (6, a.toNat)] b hp hf rfl
  refine ⟨pack_bound 31 hp hf rfl, (.vsel q d a b), ?_, rfl, ?_⟩
  · simp only [decodeNat, decodeV, h0, h1, h2, ↓reduceIte]
    rw [e0, e1, e2, e3]
    try rfl
  · rfl

theorem EncodeDecode.vcmpEq (q : BitVec 2) (d : BitVec 6) (a : BitVec 6) (b : BitVec 6) : EncodeDecode.Statement (.vcmpEq q d a b) := by
  intro hwf x hx
  replace hx : 182452224 + q.toNat * 536870912 + d.toNat * 4096 + a.toNat * 64 + b.toNat = x := Option.some.inj hx
  have hp : x = pack [(2, q.toNat), (4, 5), (5, 14), (2, 0), (6, d.toNat), (6, a.toNat), (6, b.toNat)] := by
    rw [pack_cons 2 29 (pack_cons 4 25 (pack_cons 5 20 (pack_cons 2 18 (pack_cons 6 12 (pack_cons 6 6 (pack_cons 6 0 pack_nil rfl (rfl : 1 = 2 ^ 0)) rfl (rfl : 64 = 2 ^ 6)) rfl (rfl : 4096 = 2 ^ 12)) rfl (rfl : 262144 = 2 ^ 18)) rfl (rfl : 1048576 = 2 ^ 20)) rfl (rfl : 33554432 = 2 ^ 25)) rfl (rfl : 536870912 = 2 ^ 29)]
    omega
  have hf : Fits [(2, q.toNat), (4, 5), (5, 14), (2, 0), (6, d.toNat), (6, a.toNat), (6, b.toNat)] := ⟨q.isLt, by decide, by decide, by decide, d.isLt, a.isLt, b.isLt, trivial⟩
  have h0 : x / 33554432 % 16 = 5 := pack_field [(2, q.toNat)] [(4, 5)] [(5, 14), (2, 0), (6, d.toNat), (6, a.toNat), (6, b.toNat)] 25 4 hp hf rfl rfl rfl rfl rfl rfl
  have h1 : x / 1048576 % 32 = 14 := pack_field [(2, q.toNat), (4, 5)] [(5, 14)] [(2, 0), (6, d.toNat), (6, a.toNat), (6, b.toNat)] 20 5 hp hf rfl rfl rfl rfl rfl rfl
  have h2 : x / 262144 % 4 = 0 := pack_field [(2, q.toNat), (4, 5), (5, 14)] [(2, 0)] [(6, d.toNat), (6, a.toNat), (6, b.toNat)] 18 2 hp hf rfl rfl rfl rfl rfl rfl
  have e0 : BitVec.ofNat 2 (x / 536870912) = q := ofNat_field [] q [(4, 5), (5, 14), (2, 0), (6, d.toNat), (6, a.toNat), (6, b.toNat)] 29 hp hf rfl rfl rfl
  have e1 : BitVec.ofNat 6 (x / 4096) = d := ofNat_field [(2, q.toNat), (4, 5), (5, 14), (2, 0)] d [(6, a.toNat), (6, b.toNat)] 12 hp hf rfl rfl rfl
  have e2 : BitVec.ofNat 6 (x / 64) = a := ofNat_field [(2, q.toNat), (4, 5), (5, 14), (2, 0), (6, d.toNat)] a [(6, b.toNat)] 6 hp hf rfl rfl rfl
  have e3 : BitVec.ofNat 6 x = b := ofNat_low [(2, q.toNat), (4, 5), (5, 14), (2, 0), (6, d.toNat), (6, a.toNat)] b hp hf rfl
  refine ⟨pack_bound 31 hp hf rfl, (.vcmpEq q d a b), ?_, rfl, ?_⟩
  · simp only [decodeNat, decodeV, h0, h1, h2, ↓reduceIte]
    rw [e0, e1, e2, e3]
    try rfl
  · rfl

theorem EncodeDecode.vcmpNe (q : BitVec 2) (d : BitVec 6) (a : BitVec 6) (b : BitVec 6) : EncodeDecode.Statement (.vcmpNe q d a b) := by
  intro hwf x hx
  replace hx : 183500800 + q.toNat * 536870912 + d.toNat * 4096 + a.toNat * 64 + b.toNat = x := Option.some.inj hx
  have hp : x = pack [(2, q.toNat), (4, 5), (5, 15), (2, 0), (6, d.toNat), (6, a.toNat), (6, b.toNat)] := by
    rw [pack_cons 2 29 (pack_cons 4 25 (pack_cons 5 20 (pack_cons 2 18 (pack_cons 6 12 (pack_cons 6 6 (pack_cons 6 0 pack_nil rfl (rfl : 1 = 2 ^ 0)) rfl (rfl : 64 = 2 ^ 6)) rfl (rfl : 4096 = 2 ^ 12)) rfl (rfl : 262144 = 2 ^ 18)) rfl (rfl : 1048576 = 2 ^ 20)) rfl (rfl : 33554432 = 2 ^ 25)) rfl (rfl : 536870912 = 2 ^ 29)]
    omega
  have hf : Fits [(2, q.toNat), (4, 5), (5, 15), (2, 0), (6, d.toNat), (6, a.toNat), (6, b.toNat)] := ⟨q.isLt, by decide, by decide, by decide, d.isLt, a.isLt, b.isLt, trivial⟩
  have h0 : x / 33554432 % 16 = 5 := pack_field [(2, q.toNat)] [(4, 5)] [(5, 15), (2, 0), (6, d.toNat), (6, a.toNat), (6, b.toNat)] 25 4 hp hf rfl rfl rfl rfl rfl rfl
  have h1 : x / 1048576 % 32 = 15 := pack_field [(2, q.toNat), (4, 5)] [(5, 15)] [(2, 0), (6, d.toNat), (6, a.toNat), (6, b.toNat)] 20 5 hp hf rfl rfl rfl rfl rfl rfl
  have h2 : x / 262144 % 4 = 0 := pack_field [(2, q.toNat), (4, 5), (5, 15)] [(2, 0)] [(6, d.toNat), (6, a.toNat), (6, b.toNat)] 18 2 hp hf rfl rfl rfl rfl rfl rfl
  have e0 : BitVec.ofNat 2 (x / 536870912) = q := ofNat_field [] q [(4, 5), (5, 15), (2, 0), (6, d.toNat), (6, a.toNat), (6, b.toNat)] 29 hp hf rfl rfl rfl
  have e1 : BitVec.ofNat 6 (x / 4096) = d := ofNat_field [(2, q.toNat), (4, 5), (5, 15), (2, 0)] d [(6, a.toNat), (6, b.toNat)] 12 hp hf rfl rfl rfl
  have e2 : BitVec.ofNat 6 (x / 64) = a := ofNat_field [(2, q.toNat), (4, 5), (5, 15), (2, 0), (6, d.toNat)] a [(6, b.toNat)] 6 hp hf rfl rfl rfl
  have e3 : BitVec.ofNat 6 x = b := ofNat_low [(2, q.toNat), (4, 5), (5, 15), (2, 0), (6, d.toNat), (6, a.toNat)] b hp hf rfl
  refine ⟨pack_bound 31 hp hf rfl, (.vcmpNe q d a b), ?_, rfl, ?_⟩
  · simp only [decodeNat, decodeV, h0, h1, h2, ↓reduceIte]
    rw [e0, e1, e2, e3]
    try rfl
  · rfl

theorem EncodeDecode.vcmpLt (q : BitVec 2) (d : BitVec 6) (a : BitVec 6) (b : BitVec 6) : EncodeDecode.Statement (.vcmpLt q d a b) := by
  intro hwf x hx
  replace hx : 184549376 + q.toNat * 536870912 + d.toNat * 4096 + a.toNat * 64 + b.toNat = x := Option.some.inj hx
  have hp : x = pack [(2, q.toNat), (4, 5), (5, 16), (2, 0), (6, d.toNat), (6, a.toNat), (6, b.toNat)] := by
    rw [pack_cons 2 29 (pack_cons 4 25 (pack_cons 5 20 (pack_cons 2 18 (pack_cons 6 12 (pack_cons 6 6 (pack_cons 6 0 pack_nil rfl (rfl : 1 = 2 ^ 0)) rfl (rfl : 64 = 2 ^ 6)) rfl (rfl : 4096 = 2 ^ 12)) rfl (rfl : 262144 = 2 ^ 18)) rfl (rfl : 1048576 = 2 ^ 20)) rfl (rfl : 33554432 = 2 ^ 25)) rfl (rfl : 536870912 = 2 ^ 29)]
    omega
  have hf : Fits [(2, q.toNat), (4, 5), (5, 16), (2, 0), (6, d.toNat), (6, a.toNat), (6, b.toNat)] := ⟨q.isLt, by decide, by decide, by decide, d.isLt, a.isLt, b.isLt, trivial⟩
  have h0 : x / 33554432 % 16 = 5 := pack_field [(2, q.toNat)] [(4, 5)] [(5, 16), (2, 0), (6, d.toNat), (6, a.toNat), (6, b.toNat)] 25 4 hp hf rfl rfl rfl rfl rfl rfl
  have h1 : x / 1048576 % 32 = 16 := pack_field [(2, q.toNat), (4, 5)] [(5, 16)] [(2, 0), (6, d.toNat), (6, a.toNat), (6, b.toNat)] 20 5 hp hf rfl rfl rfl rfl rfl rfl
  have h2 : x / 262144 % 4 = 0 := pack_field [(2, q.toNat), (4, 5), (5, 16)] [(2, 0)] [(6, d.toNat), (6, a.toNat), (6, b.toNat)] 18 2 hp hf rfl rfl rfl rfl rfl rfl
  have e0 : BitVec.ofNat 2 (x / 536870912) = q := ofNat_field [] q [(4, 5), (5, 16), (2, 0), (6, d.toNat), (6, a.toNat), (6, b.toNat)] 29 hp hf rfl rfl rfl
  have e1 : BitVec.ofNat 6 (x / 4096) = d := ofNat_field [(2, q.toNat), (4, 5), (5, 16), (2, 0)] d [(6, a.toNat), (6, b.toNat)] 12 hp hf rfl rfl rfl
  have e2 : BitVec.ofNat 6 (x / 64) = a := ofNat_field [(2, q.toNat), (4, 5), (5, 16), (2, 0), (6, d.toNat)] a [(6, b.toNat)] 6 hp hf rfl rfl rfl
  have e3 : BitVec.ofNat 6 x = b := ofNat_low [(2, q.toNat), (4, 5), (5, 16), (2, 0), (6, d.toNat), (6, a.toNat)] b hp hf rfl
  refine ⟨pack_bound 31 hp hf rfl, (.vcmpLt q d a b), ?_, rfl, ?_⟩
  · simp only [decodeNat, decodeV, h0, h1, h2, ↓reduceIte]
    rw [e0, e1, e2, e3]
    try rfl
  · rfl

theorem EncodeDecode.vcmpGe (q : BitVec 2) (d : BitVec 6) (a : BitVec 6) (b : BitVec 6) : EncodeDecode.Statement (.vcmpGe q d a b) := by
  intro hwf x hx
  replace hx : 185597952 + q.toNat * 536870912 + d.toNat * 4096 + a.toNat * 64 + b.toNat = x := Option.some.inj hx
  have hp : x = pack [(2, q.toNat), (4, 5), (5, 17), (2, 0), (6, d.toNat), (6, a.toNat), (6, b.toNat)] := by
    rw [pack_cons 2 29 (pack_cons 4 25 (pack_cons 5 20 (pack_cons 2 18 (pack_cons 6 12 (pack_cons 6 6 (pack_cons 6 0 pack_nil rfl (rfl : 1 = 2 ^ 0)) rfl (rfl : 64 = 2 ^ 6)) rfl (rfl : 4096 = 2 ^ 12)) rfl (rfl : 262144 = 2 ^ 18)) rfl (rfl : 1048576 = 2 ^ 20)) rfl (rfl : 33554432 = 2 ^ 25)) rfl (rfl : 536870912 = 2 ^ 29)]
    omega
  have hf : Fits [(2, q.toNat), (4, 5), (5, 17), (2, 0), (6, d.toNat), (6, a.toNat), (6, b.toNat)] := ⟨q.isLt, by decide, by decide, by decide, d.isLt, a.isLt, b.isLt, trivial⟩
  have h0 : x / 33554432 % 16 = 5 := pack_field [(2, q.toNat)] [(4, 5)] [(5, 17), (2, 0), (6, d.toNat), (6, a.toNat), (6, b.toNat)] 25 4 hp hf rfl rfl rfl rfl rfl rfl
  have h1 : x / 1048576 % 32 = 17 := pack_field [(2, q.toNat), (4, 5)] [(5, 17)] [(2, 0), (6, d.toNat), (6, a.toNat), (6, b.toNat)] 20 5 hp hf rfl rfl rfl rfl rfl rfl
  have h2 : x / 262144 % 4 = 0 := pack_field [(2, q.toNat), (4, 5), (5, 17)] [(2, 0)] [(6, d.toNat), (6, a.toNat), (6, b.toNat)] 18 2 hp hf rfl rfl rfl rfl rfl rfl
  have e0 : BitVec.ofNat 2 (x / 536870912) = q := ofNat_field [] q [(4, 5), (5, 17), (2, 0), (6, d.toNat), (6, a.toNat), (6, b.toNat)] 29 hp hf rfl rfl rfl
  have e1 : BitVec.ofNat 6 (x / 4096) = d := ofNat_field [(2, q.toNat), (4, 5), (5, 17), (2, 0)] d [(6, a.toNat), (6, b.toNat)] 12 hp hf rfl rfl rfl
  have e2 : BitVec.ofNat 6 (x / 64) = a := ofNat_field [(2, q.toNat), (4, 5), (5, 17), (2, 0), (6, d.toNat)] a [(6, b.toNat)] 6 hp hf rfl rfl rfl
  have e3 : BitVec.ofNat 6 x = b := ofNat_low [(2, q.toNat), (4, 5), (5, 17), (2, 0), (6, d.toNat), (6, a.toNat)] b hp hf rfl
  refine ⟨pack_bound 31 hp hf rfl, (.vcmpGe q d a b), ?_, rfl, ?_⟩
  · simp only [decodeNat, decodeV, h0, h1, h2, ↓reduceIte]
    rw [e0, e1, e2, e3]
    try rfl
  · rfl

theorem EncodeDecode.vcmpLtw (q : BitVec 2) (d : BitVec 6) (a : BitVec 6) (b : BitVec 6) : EncodeDecode.Statement (.vcmpLtw q d a b) := by
  intro hwf x hx
  replace hx : 186646528 + q.toNat * 536870912 + d.toNat * 4096 + a.toNat * 64 + b.toNat = x := Option.some.inj hx
  have hp : x = pack [(2, q.toNat), (4, 5), (5, 18), (2, 0), (6, d.toNat), (6, a.toNat), (6, b.toNat)] := by
    rw [pack_cons 2 29 (pack_cons 4 25 (pack_cons 5 20 (pack_cons 2 18 (pack_cons 6 12 (pack_cons 6 6 (pack_cons 6 0 pack_nil rfl (rfl : 1 = 2 ^ 0)) rfl (rfl : 64 = 2 ^ 6)) rfl (rfl : 4096 = 2 ^ 12)) rfl (rfl : 262144 = 2 ^ 18)) rfl (rfl : 1048576 = 2 ^ 20)) rfl (rfl : 33554432 = 2 ^ 25)) rfl (rfl : 536870912 = 2 ^ 29)]
    omega
  have hf : Fits [(2, q.toNat), (4, 5), (5, 18), (2, 0), (6, d.toNat), (6, a.toNat), (6, b.toNat)] := ⟨q.isLt, by decide, by decide, by decide, d.isLt, a.isLt, b.isLt, trivial⟩
  have h0 : x / 33554432 % 16 = 5 := pack_field [(2, q.toNat)] [(4, 5)] [(5, 18), (2, 0), (6, d.toNat), (6, a.toNat), (6, b.toNat)] 25 4 hp hf rfl rfl rfl rfl rfl rfl
  have h1 : x / 1048576 % 32 = 18 := pack_field [(2, q.toNat), (4, 5)] [(5, 18)] [(2, 0), (6, d.toNat), (6, a.toNat), (6, b.toNat)] 20 5 hp hf rfl rfl rfl rfl rfl rfl
  have h2 : x / 262144 % 4 = 0 := pack_field [(2, q.toNat), (4, 5), (5, 18)] [(2, 0)] [(6, d.toNat), (6, a.toNat), (6, b.toNat)] 18 2 hp hf rfl rfl rfl rfl rfl rfl
  have e0 : BitVec.ofNat 2 (x / 536870912) = q := ofNat_field [] q [(4, 5), (5, 18), (2, 0), (6, d.toNat), (6, a.toNat), (6, b.toNat)] 29 hp hf rfl rfl rfl
  have e1 : BitVec.ofNat 6 (x / 4096) = d := ofNat_field [(2, q.toNat), (4, 5), (5, 18), (2, 0)] d [(6, a.toNat), (6, b.toNat)] 12 hp hf rfl rfl rfl
  have e2 : BitVec.ofNat 6 (x / 64) = a := ofNat_field [(2, q.toNat), (4, 5), (5, 18), (2, 0), (6, d.toNat)] a [(6, b.toNat)] 6 hp hf rfl rfl rfl
  have e3 : BitVec.ofNat 6 x = b := ofNat_low [(2, q.toNat), (4, 5), (5, 18), (2, 0), (6, d.toNat), (6, a.toNat)] b hp hf rfl
  refine ⟨pack_bound 31 hp hf rfl, (.vcmpLtw q d a b), ?_, rfl, ?_⟩
  · simp only [decodeNat, decodeV, h0, h1, h2, ↓reduceIte]
    rw [e0, e1, e2, e3]
    try rfl
  · rfl

theorem EncodeDecode.vcmpGew (q : BitVec 2) (d : BitVec 6) (a : BitVec 6) (b : BitVec 6) : EncodeDecode.Statement (.vcmpGew q d a b) := by
  intro hwf x hx
  replace hx : 187695104 + q.toNat * 536870912 + d.toNat * 4096 + a.toNat * 64 + b.toNat = x := Option.some.inj hx
  have hp : x = pack [(2, q.toNat), (4, 5), (5, 19), (2, 0), (6, d.toNat), (6, a.toNat), (6, b.toNat)] := by
    rw [pack_cons 2 29 (pack_cons 4 25 (pack_cons 5 20 (pack_cons 2 18 (pack_cons 6 12 (pack_cons 6 6 (pack_cons 6 0 pack_nil rfl (rfl : 1 = 2 ^ 0)) rfl (rfl : 64 = 2 ^ 6)) rfl (rfl : 4096 = 2 ^ 12)) rfl (rfl : 262144 = 2 ^ 18)) rfl (rfl : 1048576 = 2 ^ 20)) rfl (rfl : 33554432 = 2 ^ 25)) rfl (rfl : 536870912 = 2 ^ 29)]
    omega
  have hf : Fits [(2, q.toNat), (4, 5), (5, 19), (2, 0), (6, d.toNat), (6, a.toNat), (6, b.toNat)] := ⟨q.isLt, by decide, by decide, by decide, d.isLt, a.isLt, b.isLt, trivial⟩
  have h0 : x / 33554432 % 16 = 5 := pack_field [(2, q.toNat)] [(4, 5)] [(5, 19), (2, 0), (6, d.toNat), (6, a.toNat), (6, b.toNat)] 25 4 hp hf rfl rfl rfl rfl rfl rfl
  have h1 : x / 1048576 % 32 = 19 := pack_field [(2, q.toNat), (4, 5)] [(5, 19)] [(2, 0), (6, d.toNat), (6, a.toNat), (6, b.toNat)] 20 5 hp hf rfl rfl rfl rfl rfl rfl
  have h2 : x / 262144 % 4 = 0 := pack_field [(2, q.toNat), (4, 5), (5, 19)] [(2, 0)] [(6, d.toNat), (6, a.toNat), (6, b.toNat)] 18 2 hp hf rfl rfl rfl rfl rfl rfl
  have e0 : BitVec.ofNat 2 (x / 536870912) = q := ofNat_field [] q [(4, 5), (5, 19), (2, 0), (6, d.toNat), (6, a.toNat), (6, b.toNat)] 29 hp hf rfl rfl rfl
  have e1 : BitVec.ofNat 6 (x / 4096) = d := ofNat_field [(2, q.toNat), (4, 5), (5, 19), (2, 0)] d [(6, a.toNat), (6, b.toNat)] 12 hp hf rfl rfl rfl
  have e2 : BitVec.ofNat 6 (x / 64) = a := ofNat_field [(2, q.toNat), (4, 5), (5, 19), (2, 0), (6, d.toNat)] a [(6, b.toNat)] 6 hp hf rfl rfl rfl
  have e3 : BitVec.ofNat 6 x = b := ofNat_low [(2, q.toNat), (4, 5), (5, 19), (2, 0), (6, d.toNat), (6, a.toNat)] b hp hf rfl
  refine ⟨pack_bound 31 hp hf rfl, (.vcmpGew q d a b), ?_, rfl, ?_⟩
  · simp only [decodeNat, decodeV, h0, h1, h2, ↓reduceIte]
    rw [e0, e1, e2, e3]
    try rfl
  · rfl

theorem EncodeDecode.vperm (q : BitVec 2) (d : BitVec 6) (a : BitVec 6) (b : BitVec 6) : EncodeDecode.Statement (.vperm q d a b) := by
  intro hwf x hx
  replace hx : 188743680 + q.toNat * 536870912 + d.toNat * 4096 + a.toNat * 64 + b.toNat = x := Option.some.inj hx
  have hp : x = pack [(2, q.toNat), (4, 5), (5, 20), (2, 0), (6, d.toNat), (6, a.toNat), (6, b.toNat)] := by
    rw [pack_cons 2 29 (pack_cons 4 25 (pack_cons 5 20 (pack_cons 2 18 (pack_cons 6 12 (pack_cons 6 6 (pack_cons 6 0 pack_nil rfl (rfl : 1 = 2 ^ 0)) rfl (rfl : 64 = 2 ^ 6)) rfl (rfl : 4096 = 2 ^ 12)) rfl (rfl : 262144 = 2 ^ 18)) rfl (rfl : 1048576 = 2 ^ 20)) rfl (rfl : 33554432 = 2 ^ 25)) rfl (rfl : 536870912 = 2 ^ 29)]
    omega
  have hf : Fits [(2, q.toNat), (4, 5), (5, 20), (2, 0), (6, d.toNat), (6, a.toNat), (6, b.toNat)] := ⟨q.isLt, by decide, by decide, by decide, d.isLt, a.isLt, b.isLt, trivial⟩
  have h0 : x / 33554432 % 16 = 5 := pack_field [(2, q.toNat)] [(4, 5)] [(5, 20), (2, 0), (6, d.toNat), (6, a.toNat), (6, b.toNat)] 25 4 hp hf rfl rfl rfl rfl rfl rfl
  have h1 : x / 1048576 % 32 = 20 := pack_field [(2, q.toNat), (4, 5)] [(5, 20)] [(2, 0), (6, d.toNat), (6, a.toNat), (6, b.toNat)] 20 5 hp hf rfl rfl rfl rfl rfl rfl
  have h2 : x / 262144 % 4 = 0 := pack_field [(2, q.toNat), (4, 5), (5, 20)] [(2, 0)] [(6, d.toNat), (6, a.toNat), (6, b.toNat)] 18 2 hp hf rfl rfl rfl rfl rfl rfl
  have e0 : BitVec.ofNat 2 (x / 536870912) = q := ofNat_field [] q [(4, 5), (5, 20), (2, 0), (6, d.toNat), (6, a.toNat), (6, b.toNat)] 29 hp hf rfl rfl rfl
  have e1 : BitVec.ofNat 6 (x / 4096) = d := ofNat_field [(2, q.toNat), (4, 5), (5, 20), (2, 0)] d [(6, a.toNat), (6, b.toNat)] 12 hp hf rfl rfl rfl
  have e2 : BitVec.ofNat 6 (x / 64) = a := ofNat_field [(2, q.toNat), (4, 5), (5, 20), (2, 0), (6, d.toNat)] a [(6, b.toNat)] 6 hp hf rfl rfl rfl
  have e3 : BitVec.ofNat 6 x = b := ofNat_low [(2, q.toNat), (4, 5), (5, 20), (2, 0), (6, d.toNat), (6, a.toNat)] b hp hf rfl
  refine ⟨pack_bound 31 hp hf rfl, (.vperm q d a b), ?_, rfl, ?_⟩
  · simp only [decodeNat, decodeV, h0, h1, h2, ↓reduceIte]
    rw [e0, e1, e2, e3]
    try rfl
  · rfl

theorem EncodeDecode.vgath (q : BitVec 2) (d : BitVec 6) (a : BitVec 6) (b : BitVec 6) : EncodeDecode.Statement (.vgath q d a b) := by
  intro hwf x hx
  replace hx : 189792256 + q.toNat * 536870912 + d.toNat * 4096 + a.toNat * 64 + b.toNat = x := Option.some.inj hx
  have hp : x = pack [(2, q.toNat), (4, 5), (5, 21), (2, 0), (6, d.toNat), (6, a.toNat), (6, b.toNat)] := by
    rw [pack_cons 2 29 (pack_cons 4 25 (pack_cons 5 20 (pack_cons 2 18 (pack_cons 6 12 (pack_cons 6 6 (pack_cons 6 0 pack_nil rfl (rfl : 1 = 2 ^ 0)) rfl (rfl : 64 = 2 ^ 6)) rfl (rfl : 4096 = 2 ^ 12)) rfl (rfl : 262144 = 2 ^ 18)) rfl (rfl : 1048576 = 2 ^ 20)) rfl (rfl : 33554432 = 2 ^ 25)) rfl (rfl : 536870912 = 2 ^ 29)]
    omega
  have hf : Fits [(2, q.toNat), (4, 5), (5, 21), (2, 0), (6, d.toNat), (6, a.toNat), (6, b.toNat)] := ⟨q.isLt, by decide, by decide, by decide, d.isLt, a.isLt, b.isLt, trivial⟩
  have h0 : x / 33554432 % 16 = 5 := pack_field [(2, q.toNat)] [(4, 5)] [(5, 21), (2, 0), (6, d.toNat), (6, a.toNat), (6, b.toNat)] 25 4 hp hf rfl rfl rfl rfl rfl rfl
  have h1 : x / 1048576 % 32 = 21 := pack_field [(2, q.toNat), (4, 5)] [(5, 21)] [(2, 0), (6, d.toNat), (6, a.toNat), (6, b.toNat)] 20 5 hp hf rfl rfl rfl rfl rfl rfl
  have h2 : x / 262144 % 4 = 0 := pack_field [(2, q.toNat), (4, 5), (5, 21)] [(2, 0)] [(6, d.toNat), (6, a.toNat), (6, b.toNat)] 18 2 hp hf rfl rfl rfl rfl rfl rfl
  have e0 : BitVec.ofNat 2 (x / 536870912) = q := ofNat_field [] q [(4, 5), (5, 21), (2, 0), (6, d.toNat), (6, a.toNat), (6, b.toNat)] 29 hp hf rfl rfl rfl
  have e1 : BitVec.ofNat 6 (x / 4096) = d := ofNat_field [(2, q.toNat), (4, 5), (5, 21), (2, 0)] d [(6, a.toNat), (6, b.toNat)] 12 hp hf rfl rfl rfl
  have e2 : BitVec.ofNat 6 (x / 64) = a := ofNat_field [(2, q.toNat), (4, 5), (5, 21), (2, 0), (6, d.toNat)] a [(6, b.toNat)] 6 hp hf rfl rfl rfl
  have e3 : BitVec.ofNat 6 x = b := ofNat_low [(2, q.toNat), (4, 5), (5, 21), (2, 0), (6, d.toNat), (6, a.toNat)] b hp hf rfl
  refine ⟨pack_bound 31 hp hf rfl, (.vgath q d a b), ?_, rfl, ?_⟩
  · simp only [decodeNat, decodeV, h0, h1, h2, ↓reduceIte]
    rw [e0, e1, e2, e3]
    try rfl
  · rfl

theorem EncodeDecode.vscat (q : BitVec 2) (d : BitVec 6) (a : BitVec 6) (b : BitVec 6) : EncodeDecode.Statement (.vscat q d a b) := by
  intro hwf x hx
  replace hx : 190840832 + q.toNat * 536870912 + d.toNat * 4096 + a.toNat * 64 + b.toNat = x := Option.some.inj hx
  have hp : x = pack [(2, q.toNat), (4, 5), (5, 22), (2, 0), (6, d.toNat), (6, a.toNat), (6, b.toNat)] := by
    rw [pack_cons 2 29 (pack_cons 4 25 (pack_cons 5 20 (pack_cons 2 18 (pack_cons 6 12 (pack_cons 6 6 (pack_cons 6 0 pack_nil rfl (rfl : 1 = 2 ^ 0)) rfl (rfl : 64 = 2 ^ 6)) rfl (rfl : 4096 = 2 ^ 12)) rfl (rfl : 262144 = 2 ^ 18)) rfl (rfl : 1048576 = 2 ^ 20)) rfl (rfl : 33554432 = 2 ^ 25)) rfl (rfl : 536870912 = 2 ^ 29)]
    omega
  have hf : Fits [(2, q.toNat), (4, 5), (5, 22), (2, 0), (6, d.toNat), (6, a.toNat), (6, b.toNat)] := ⟨q.isLt, by decide, by decide, by decide, d.isLt, a.isLt, b.isLt, trivial⟩
  have h0 : x / 33554432 % 16 = 5 := pack_field [(2, q.toNat)] [(4, 5)] [(5, 22), (2, 0), (6, d.toNat), (6, a.toNat), (6, b.toNat)] 25 4 hp hf rfl rfl rfl rfl rfl rfl
  have h1 : x / 1048576 % 32 = 22 := pack_field [(2, q.toNat), (4, 5)] [(5, 22)] [(2, 0), (6, d.toNat), (6, a.toNat), (6, b.toNat)] 20 5 hp hf rfl rfl rfl rfl rfl rfl
  have h2 : x / 262144 % 4 = 0 := pack_field [(2, q.toNat), (4, 5), (5, 22)] [(2, 0)] [(6, d.toNat), (6, a.toNat), (6, b.toNat)] 18 2 hp hf rfl rfl rfl rfl rfl rfl
  have e0 : BitVec.ofNat 2 (x / 536870912) = q := ofNat_field [] q [(4, 5), (5, 22), (2, 0), (6, d.toNat), (6, a.toNat), (6, b.toNat)] 29 hp hf rfl rfl rfl
  have e1 : BitVec.ofNat 6 (x / 4096) = d := ofNat_field [(2, q.toNat), (4, 5), (5, 22), (2, 0)] d [(6, a.toNat), (6, b.toNat)] 12 hp hf rfl rfl rfl
  have e2 : BitVec.ofNat 6 (x / 64) = a := ofNat_field [(2, q.toNat), (4, 5), (5, 22), (2, 0), (6, d.toNat)] a [(6, b.toNat)] 6 hp hf rfl rfl rfl
  have e3 : BitVec.ofNat 6 x = b := ofNat_low [(2, q.toNat), (4, 5), (5, 22), (2, 0), (6, d.toNat), (6, a.toNat)] b hp hf rfl
  refine ⟨pack_bound 31 hp hf rfl, (.vscat q d a b), ?_, rfl, ?_⟩
  · simp only [decodeNat, decodeV, h0, h1, h2, ↓reduceIte]
    rw [e0, e1, e2, e3]
    try rfl
  · rfl

theorem EncodeDecode.vcmpt (q : BitVec 2) (a : BitVec 6) (b : BitVec 6) : EncodeDecode.Statement (.vcmpt q a b) := by
  intro hwf x hx
  replace hx : 191889408 + q.toNat * 536870912 + a.toNat * 64 + b.toNat = x := Option.some.inj hx
  have hp : x = pack [(2, q.toNat), (4, 5), (5, 23), (8, 0), (6, a.toNat), (6, b.toNat)] := by
    rw [pack_cons 2 29 (pack_cons 4 25 (pack_cons 5 20 (pack_cons 8 12 (pack_cons 6 6 (pack_cons 6 0 pack_nil rfl (rfl : 1 = 2 ^ 0)) rfl (rfl : 64 = 2 ^ 6)) rfl (rfl : 4096 = 2 ^ 12)) rfl (rfl : 1048576 = 2 ^ 20)) rfl (rfl : 33554432 = 2 ^ 25)) rfl (rfl : 536870912 = 2 ^ 29)]
    omega
  have hf : Fits [(2, q.toNat), (4, 5), (5, 23), (8, 0), (6, a.toNat), (6, b.toNat)] := ⟨q.isLt, by decide, by decide, by decide, a.isLt, b.isLt, trivial⟩
  have h0 : x / 33554432 % 16 = 5 := pack_field [(2, q.toNat)] [(4, 5)] [(5, 23), (8, 0), (6, a.toNat), (6, b.toNat)] 25 4 hp hf rfl rfl rfl rfl rfl rfl
  have h1 : x / 1048576 % 32 = 23 := pack_field [(2, q.toNat), (4, 5)] [(5, 23)] [(8, 0), (6, a.toNat), (6, b.toNat)] 20 5 hp hf rfl rfl rfl rfl rfl rfl
  have h2 : x / 4096 % 256 = 0 := pack_field [(2, q.toNat), (4, 5), (5, 23)] [(8, 0)] [(6, a.toNat), (6, b.toNat)] 12 8 hp hf rfl rfl rfl rfl rfl rfl
  have e0 : BitVec.ofNat 2 (x / 536870912) = q := ofNat_field [] q [(4, 5), (5, 23), (8, 0), (6, a.toNat), (6, b.toNat)] 29 hp hf rfl rfl rfl
  have e1 : BitVec.ofNat 6 (x / 64) = a := ofNat_field [(2, q.toNat), (4, 5), (5, 23), (8, 0)] a [(6, b.toNat)] 6 hp hf rfl rfl rfl
  have e2 : BitVec.ofNat 6 x = b := ofNat_low [(2, q.toNat), (4, 5), (5, 23), (8, 0), (6, a.toNat)] b hp hf rfl
  refine ⟨pack_bound 31 hp hf rfl, (.vcmpt q a b), ?_, rfl, ?_⟩
  · simp only [decodeNat, decodeV, h0, h1, h2, ↓reduceIte]
    rw [e0, e1, e2]
    try rfl
  · rfl

theorem EncodeDecode.tld (q : BitVec 2) (g : BitVec 4) (h : BitVec 4) (t : BitVec 6) : EncodeDecode.Statement (.tld q g h t) := by
  intro hwf x hx
  replace hx : 192937984 + q.toNat * 536870912 + g.toNat * 65536 + h.toNat * 4096 + t.toNat * 64 = x := Option.some.inj hx
  have hp : x = pack [(2, q.toNat), (4, 5), (5, 24), (4, g.toNat), (4, h.toNat), (6, t.toNat), (6, 0)] := by
    rw [pack_cons 2 29 (pack_cons 4 25 (pack_cons 5 20 (pack_cons 4 16 (pack_cons 4 12 (pack_cons 6 6 (pack_cons 6 0 pack_nil rfl (rfl : 1 = 2 ^ 0)) rfl (rfl : 64 = 2 ^ 6)) rfl (rfl : 4096 = 2 ^ 12)) rfl (rfl : 65536 = 2 ^ 16)) rfl (rfl : 1048576 = 2 ^ 20)) rfl (rfl : 33554432 = 2 ^ 25)) rfl (rfl : 536870912 = 2 ^ 29)]
    omega
  have hf : Fits [(2, q.toNat), (4, 5), (5, 24), (4, g.toNat), (4, h.toNat), (6, t.toNat), (6, 0)] := ⟨q.isLt, by decide, by decide, g.isLt, h.isLt, t.isLt, by decide, trivial⟩
  have h0 : x / 33554432 % 16 = 5 := pack_field [(2, q.toNat)] [(4, 5)] [(5, 24), (4, g.toNat), (4, h.toNat), (6, t.toNat), (6, 0)] 25 4 hp hf rfl rfl rfl rfl rfl rfl
  have h1 : x / 1048576 % 32 = 24 := pack_field [(2, q.toNat), (4, 5)] [(5, 24)] [(4, g.toNat), (4, h.toNat), (6, t.toNat), (6, 0)] 20 5 hp hf rfl rfl rfl rfl rfl rfl
  have h2 : x % 64 = 0 := pack_low [(2, q.toNat), (4, 5), (5, 24), (4, g.toNat), (4, h.toNat), (6, t.toNat)] [(6, 0)] 6 hp hf rfl rfl rfl rfl
  have e0 : BitVec.ofNat 2 (x / 536870912) = q := ofNat_field [] q [(4, 5), (5, 24), (4, g.toNat), (4, h.toNat), (6, t.toNat), (6, 0)] 29 hp hf rfl rfl rfl
  have e1 : BitVec.ofNat 4 (x / 65536) = g := ofNat_field [(2, q.toNat), (4, 5), (5, 24)] g [(4, h.toNat), (6, t.toNat), (6, 0)] 16 hp hf rfl rfl rfl
  have e2 : BitVec.ofNat 4 (x / 4096) = h := ofNat_field [(2, q.toNat), (4, 5), (5, 24), (4, g.toNat)] h [(6, t.toNat), (6, 0)] 12 hp hf rfl rfl rfl
  have e3 : BitVec.ofNat 6 (x / 64) = t := ofNat_field [(2, q.toNat), (4, 5), (5, 24), (4, g.toNat), (4, h.toNat)] t [(6, 0)] 6 hp hf rfl rfl rfl
  refine ⟨pack_bound 31 hp hf rfl, (.tld q g h t), ?_, rfl, ?_⟩
  · simp only [decodeNat, decodeV, h0, h1, h2, ↓reduceIte]
    rw [e0, e1, e2, e3]
    try rfl
  · rfl

theorem EncodeDecode.tst (q : BitVec 2) (g : BitVec 4) (h : BitVec 4) (t : BitVec 6) (m : BitVec 2) : EncodeDecode.Statement (.tst q g h t m) := by
  intro hwf x hx
  replace hx : 193986560 + q.toNat * 536870912 + g.toNat * 65536 + h.toNat * 4096 + t.toNat * 64 + m.toNat * 16 = x := Option.some.inj hx
  have hp : x = pack [(2, q.toNat), (4, 5), (5, 25), (4, g.toNat), (4, h.toNat), (6, t.toNat), (2, m.toNat), (4, 0)] := by
    rw [pack_cons 2 29 (pack_cons 4 25 (pack_cons 5 20 (pack_cons 4 16 (pack_cons 4 12 (pack_cons 6 6 (pack_cons 2 4 (pack_cons 4 0 pack_nil rfl (rfl : 1 = 2 ^ 0)) rfl (rfl : 16 = 2 ^ 4)) rfl (rfl : 64 = 2 ^ 6)) rfl (rfl : 4096 = 2 ^ 12)) rfl (rfl : 65536 = 2 ^ 16)) rfl (rfl : 1048576 = 2 ^ 20)) rfl (rfl : 33554432 = 2 ^ 25)) rfl (rfl : 536870912 = 2 ^ 29)]
    omega
  have hf : Fits [(2, q.toNat), (4, 5), (5, 25), (4, g.toNat), (4, h.toNat), (6, t.toNat), (2, m.toNat), (4, 0)] := ⟨q.isLt, by decide, by decide, g.isLt, h.isLt, t.isLt, m.isLt, by decide, trivial⟩
  have h0 : x / 33554432 % 16 = 5 := pack_field [(2, q.toNat)] [(4, 5)] [(5, 25), (4, g.toNat), (4, h.toNat), (6, t.toNat), (2, m.toNat), (4, 0)] 25 4 hp hf rfl rfl rfl rfl rfl rfl
  have h1 : x / 1048576 % 32 = 25 := pack_field [(2, q.toNat), (4, 5)] [(5, 25)] [(4, g.toNat), (4, h.toNat), (6, t.toNat), (2, m.toNat), (4, 0)] 20 5 hp hf rfl rfl rfl rfl rfl rfl
  have h2 : x % 16 = 0 := pack_low [(2, q.toNat), (4, 5), (5, 25), (4, g.toNat), (4, h.toNat), (6, t.toNat), (2, m.toNat)] [(4, 0)] 4 hp hf rfl rfl rfl rfl
  have e0 : BitVec.ofNat 2 (x / 536870912) = q := ofNat_field [] q [(4, 5), (5, 25), (4, g.toNat), (4, h.toNat), (6, t.toNat), (2, m.toNat), (4, 0)] 29 hp hf rfl rfl rfl
  have e1 : BitVec.ofNat 4 (x / 65536) = g := ofNat_field [(2, q.toNat), (4, 5), (5, 25)] g [(4, h.toNat), (6, t.toNat), (2, m.toNat), (4, 0)] 16 hp hf rfl rfl rfl
  have e2 : BitVec.ofNat 4 (x / 4096) = h := ofNat_field [(2, q.toNat), (4, 5), (5, 25), (4, g.toNat)] h [(6, t.toNat), (2, m.toNat), (4, 0)] 12 hp hf rfl rfl rfl
  have e3 : BitVec.ofNat 6 (x / 64) = t := ofNat_field [(2, q.toNat), (4, 5), (5, 25), (4, g.toNat), (4, h.toNat)] t [(2, m.toNat), (4, 0)] 6 hp hf rfl rfl rfl
  have e4 : BitVec.ofNat 2 (x / 16) = m := ofNat_field [(2, q.toNat), (4, 5), (5, 25), (4, g.toNat), (4, h.toNat), (6, t.toNat)] m [(4, 0)] 4 hp hf rfl rfl rfl
  refine ⟨pack_bound 31 hp hf rfl, (.tst q g h t m), ?_, rfl, ?_⟩
  · simp only [decodeNat, decodeV, h0, h1, h2, ↓reduceIte]
    rw [e0, e1, e2, e3, e4]
    try rfl
  · rfl

theorem EncodeDecode.vshl (q : BitVec 2) (x0 : BitVec 2) (d : BitVec 6) (a : BitVec 6) (b : BitVec 6) : EncodeDecode.Statement (.vshl q x0 d a b) := by
  intro hwf x hx
  replace hx : 201326592 + q.toNat * 536870912 + x0.toNat * 262144 + d.toNat * 4096 + a.toNat * 64 + b.toNat = x := Option.some.inj hx
  have hp : x = pack [(2, q.toNat), (4, 6), (5, 0), (2, x0.toNat), (6, d.toNat), (6, a.toNat), (6, b.toNat)] := by
    rw [pack_cons 2 29 (pack_cons 4 25 (pack_cons 5 20 (pack_cons 2 18 (pack_cons 6 12 (pack_cons 6 6 (pack_cons 6 0 pack_nil rfl (rfl : 1 = 2 ^ 0)) rfl (rfl : 64 = 2 ^ 6)) rfl (rfl : 4096 = 2 ^ 12)) rfl (rfl : 262144 = 2 ^ 18)) rfl (rfl : 1048576 = 2 ^ 20)) rfl (rfl : 33554432 = 2 ^ 25)) rfl (rfl : 536870912 = 2 ^ 29)]
    omega
  have hf : Fits [(2, q.toNat), (4, 6), (5, 0), (2, x0.toNat), (6, d.toNat), (6, a.toNat), (6, b.toNat)] := ⟨q.isLt, by decide, by decide, x0.isLt, d.isLt, a.isLt, b.isLt, trivial⟩
  have h0 : x / 33554432 % 16 = 6 := pack_field [(2, q.toNat)] [(4, 6)] [(5, 0), (2, x0.toNat), (6, d.toNat), (6, a.toNat), (6, b.toNat)] 25 4 hp hf rfl rfl rfl rfl rfl rfl
  have h1 : x / 1048576 % 32 = 0 := pack_field [(2, q.toNat), (4, 6)] [(5, 0)] [(2, x0.toNat), (6, d.toNat), (6, a.toNat), (6, b.toNat)] 20 5 hp hf rfl rfl rfl rfl rfl rfl
  have e0 : BitVec.ofNat 2 (x / 536870912) = q := ofNat_field [] q [(4, 6), (5, 0), (2, x0.toNat), (6, d.toNat), (6, a.toNat), (6, b.toNat)] 29 hp hf rfl rfl rfl
  have e1 : BitVec.ofNat 2 (x / 262144) = x0 := ofNat_field [(2, q.toNat), (4, 6), (5, 0)] x0 [(6, d.toNat), (6, a.toNat), (6, b.toNat)] 18 hp hf rfl rfl rfl
  have e2 : BitVec.ofNat 6 (x / 4096) = d := ofNat_field [(2, q.toNat), (4, 6), (5, 0), (2, x0.toNat)] d [(6, a.toNat), (6, b.toNat)] 12 hp hf rfl rfl rfl
  have e3 : BitVec.ofNat 6 (x / 64) = a := ofNat_field [(2, q.toNat), (4, 6), (5, 0), (2, x0.toNat), (6, d.toNat)] a [(6, b.toNat)] 6 hp hf rfl rfl rfl
  have e4 : BitVec.ofNat 6 x = b := ofNat_low [(2, q.toNat), (4, 6), (5, 0), (2, x0.toNat), (6, d.toNat), (6, a.toNat)] b hp hf rfl
  refine ⟨pack_bound 31 hp hf rfl, (.vshl q x0 d a b), ?_, rfl, ?_⟩
  · simp only [decodeNat, decodeVI, h0, h1, ↓reduceIte]
    rw [e0, e1, e2, e3, e4]
    try rfl
  · rfl

theorem EncodeDecode.vshr (q : BitVec 2) (x0 : BitVec 2) (d : BitVec 6) (a : BitVec 6) (b : BitVec 6) : EncodeDecode.Statement (.vshr q x0 d a b) := by
  intro hwf x hx
  replace hx : 202375168 + q.toNat * 536870912 + x0.toNat * 262144 + d.toNat * 4096 + a.toNat * 64 + b.toNat = x := Option.some.inj hx
  have hp : x = pack [(2, q.toNat), (4, 6), (5, 1), (2, x0.toNat), (6, d.toNat), (6, a.toNat), (6, b.toNat)] := by
    rw [pack_cons 2 29 (pack_cons 4 25 (pack_cons 5 20 (pack_cons 2 18 (pack_cons 6 12 (pack_cons 6 6 (pack_cons 6 0 pack_nil rfl (rfl : 1 = 2 ^ 0)) rfl (rfl : 64 = 2 ^ 6)) rfl (rfl : 4096 = 2 ^ 12)) rfl (rfl : 262144 = 2 ^ 18)) rfl (rfl : 1048576 = 2 ^ 20)) rfl (rfl : 33554432 = 2 ^ 25)) rfl (rfl : 536870912 = 2 ^ 29)]
    omega
  have hf : Fits [(2, q.toNat), (4, 6), (5, 1), (2, x0.toNat), (6, d.toNat), (6, a.toNat), (6, b.toNat)] := ⟨q.isLt, by decide, by decide, x0.isLt, d.isLt, a.isLt, b.isLt, trivial⟩
  have h0 : x / 33554432 % 16 = 6 := pack_field [(2, q.toNat)] [(4, 6)] [(5, 1), (2, x0.toNat), (6, d.toNat), (6, a.toNat), (6, b.toNat)] 25 4 hp hf rfl rfl rfl rfl rfl rfl
  have h1 : x / 1048576 % 32 = 1 := pack_field [(2, q.toNat), (4, 6)] [(5, 1)] [(2, x0.toNat), (6, d.toNat), (6, a.toNat), (6, b.toNat)] 20 5 hp hf rfl rfl rfl rfl rfl rfl
  have e0 : BitVec.ofNat 2 (x / 536870912) = q := ofNat_field [] q [(4, 6), (5, 1), (2, x0.toNat), (6, d.toNat), (6, a.toNat), (6, b.toNat)] 29 hp hf rfl rfl rfl
  have e1 : BitVec.ofNat 2 (x / 262144) = x0 := ofNat_field [(2, q.toNat), (4, 6), (5, 1)] x0 [(6, d.toNat), (6, a.toNat), (6, b.toNat)] 18 hp hf rfl rfl rfl
  have e2 : BitVec.ofNat 6 (x / 4096) = d := ofNat_field [(2, q.toNat), (4, 6), (5, 1), (2, x0.toNat)] d [(6, a.toNat), (6, b.toNat)] 12 hp hf rfl rfl rfl
  have e3 : BitVec.ofNat 6 (x / 64) = a := ofNat_field [(2, q.toNat), (4, 6), (5, 1), (2, x0.toNat), (6, d.toNat)] a [(6, b.toNat)] 6 hp hf rfl rfl rfl
  have e4 : BitVec.ofNat 6 x = b := ofNat_low [(2, q.toNat), (4, 6), (5, 1), (2, x0.toNat), (6, d.toNat), (6, a.toNat)] b hp hf rfl
  refine ⟨pack_bound 31 hp hf rfl, (.vshr q x0 d a b), ?_, rfl, ?_⟩
  · simp only [decodeNat, decodeVI, h0, h1, ↓reduceIte]
    rw [e0, e1, e2, e3, e4]
    try rfl
  · rfl

theorem EncodeDecode.vsar (q : BitVec 2) (x0 : BitVec 2) (d : BitVec 6) (a : BitVec 6) (b : BitVec 6) : EncodeDecode.Statement (.vsar q x0 d a b) := by
  intro hwf x hx
  replace hx : 203423744 + q.toNat * 536870912 + x0.toNat * 262144 + d.toNat * 4096 + a.toNat * 64 + b.toNat = x := Option.some.inj hx
  have hp : x = pack [(2, q.toNat), (4, 6), (5, 2), (2, x0.toNat), (6, d.toNat), (6, a.toNat), (6, b.toNat)] := by
    rw [pack_cons 2 29 (pack_cons 4 25 (pack_cons 5 20 (pack_cons 2 18 (pack_cons 6 12 (pack_cons 6 6 (pack_cons 6 0 pack_nil rfl (rfl : 1 = 2 ^ 0)) rfl (rfl : 64 = 2 ^ 6)) rfl (rfl : 4096 = 2 ^ 12)) rfl (rfl : 262144 = 2 ^ 18)) rfl (rfl : 1048576 = 2 ^ 20)) rfl (rfl : 33554432 = 2 ^ 25)) rfl (rfl : 536870912 = 2 ^ 29)]
    omega
  have hf : Fits [(2, q.toNat), (4, 6), (5, 2), (2, x0.toNat), (6, d.toNat), (6, a.toNat), (6, b.toNat)] := ⟨q.isLt, by decide, by decide, x0.isLt, d.isLt, a.isLt, b.isLt, trivial⟩
  have h0 : x / 33554432 % 16 = 6 := pack_field [(2, q.toNat)] [(4, 6)] [(5, 2), (2, x0.toNat), (6, d.toNat), (6, a.toNat), (6, b.toNat)] 25 4 hp hf rfl rfl rfl rfl rfl rfl
  have h1 : x / 1048576 % 32 = 2 := pack_field [(2, q.toNat), (4, 6)] [(5, 2)] [(2, x0.toNat), (6, d.toNat), (6, a.toNat), (6, b.toNat)] 20 5 hp hf rfl rfl rfl rfl rfl rfl
  have e0 : BitVec.ofNat 2 (x / 536870912) = q := ofNat_field [] q [(4, 6), (5, 2), (2, x0.toNat), (6, d.toNat), (6, a.toNat), (6, b.toNat)] 29 hp hf rfl rfl rfl
  have e1 : BitVec.ofNat 2 (x / 262144) = x0 := ofNat_field [(2, q.toNat), (4, 6), (5, 2)] x0 [(6, d.toNat), (6, a.toNat), (6, b.toNat)] 18 hp hf rfl rfl rfl
  have e2 : BitVec.ofNat 6 (x / 4096) = d := ofNat_field [(2, q.toNat), (4, 6), (5, 2), (2, x0.toNat)] d [(6, a.toNat), (6, b.toNat)] 12 hp hf rfl rfl rfl
  have e3 : BitVec.ofNat 6 (x / 64) = a := ofNat_field [(2, q.toNat), (4, 6), (5, 2), (2, x0.toNat), (6, d.toNat)] a [(6, b.toNat)] 6 hp hf rfl rfl rfl
  have e4 : BitVec.ofNat 6 x = b := ofNat_low [(2, q.toNat), (4, 6), (5, 2), (2, x0.toNat), (6, d.toNat), (6, a.toNat)] b hp hf rfl
  refine ⟨pack_bound 31 hp hf rfl, (.vsar q x0 d a b), ?_, rfl, ?_⟩
  · simp only [decodeNat, decodeVI, h0, h1, ↓reduceIte]
    rw [e0, e1, e2, e3, e4]
    try rfl
  · rfl

theorem EncodeDecode.vshrn (q : BitVec 2) (m : BitVec 2) (d : BitVec 6) (a : BitVec 6) (b : BitVec 6) (ext : Option (BitVec 25)) : EncodeDecode.Statement (.vshrn q m d a b ext) := by
  intro hwf x hx
  replace hx : 204472320 + q.toNat * 536870912 + m.toNat * 262144 + d.toNat * 4096 + a.toNat * 64 + b.toNat = x := Option.some.inj hx
  have hp : x = pack [(2, q.toNat), (4, 6), (5, 3), (2, m.toNat), (6, d.toNat), (6, a.toNat), (6, b.toNat)] := by
    rw [pack_cons 2 29 (pack_cons 4 25 (pack_cons 5 20 (pack_cons 2 18 (pack_cons 6 12 (pack_cons 6 6 (pack_cons 6 0 pack_nil rfl (rfl : 1 = 2 ^ 0)) rfl (rfl : 64 = 2 ^ 6)) rfl (rfl : 4096 = 2 ^ 12)) rfl (rfl : 262144 = 2 ^ 18)) rfl (rfl : 1048576 = 2 ^ 20)) rfl (rfl : 33554432 = 2 ^ 25)) rfl (rfl : 536870912 = 2 ^ 29)]
    omega
  have hf : Fits [(2, q.toNat), (4, 6), (5, 3), (2, m.toNat), (6, d.toNat), (6, a.toNat), (6, b.toNat)] := ⟨q.isLt, by decide, by decide, m.isLt, d.isLt, a.isLt, b.isLt, trivial⟩
  have h0 : x / 33554432 % 16 = 6 := pack_field [(2, q.toNat)] [(4, 6)] [(5, 3), (2, m.toNat), (6, d.toNat), (6, a.toNat), (6, b.toNat)] 25 4 hp hf rfl rfl rfl rfl rfl rfl
  have h1 : x / 1048576 % 32 = 3 := pack_field [(2, q.toNat), (4, 6)] [(5, 3)] [(2, m.toNat), (6, d.toNat), (6, a.toNat), (6, b.toNat)] 20 5 hp hf rfl rfl rfl rfl rfl rfl
  have e0 : BitVec.ofNat 2 (x / 536870912) = q := ofNat_field [] q [(4, 6), (5, 3), (2, m.toNat), (6, d.toNat), (6, a.toNat), (6, b.toNat)] 29 hp hf rfl rfl rfl
  have e1 : BitVec.ofNat 2 (x / 262144) = m := ofNat_field [(2, q.toNat), (4, 6), (5, 3)] m [(6, d.toNat), (6, a.toNat), (6, b.toNat)] 18 hp hf rfl rfl rfl
  have e2 : BitVec.ofNat 6 (x / 4096) = d := ofNat_field [(2, q.toNat), (4, 6), (5, 3), (2, m.toNat)] d [(6, a.toNat), (6, b.toNat)] 12 hp hf rfl rfl rfl
  have e3 : BitVec.ofNat 6 (x / 64) = a := ofNat_field [(2, q.toNat), (4, 6), (5, 3), (2, m.toNat), (6, d.toNat)] a [(6, b.toNat)] 6 hp hf rfl rfl rfl
  have e4 : BitVec.ofNat 6 x = b := ofNat_low [(2, q.toNat), (4, 6), (5, 3), (2, m.toNat), (6, d.toNat), (6, a.toNat)] b hp hf rfl
  refine ⟨pack_bound 31 hp hf rfl, (.vshrn q m d a b none), ?_, rfl, ?_⟩
  · simp only [decodeNat, decodeVI, h0, h1, ↓reduceIte]
    rw [e0, e1, e2, e3, e4]
    try rfl
  · cases ext <;> first | rfl

theorem EncodeDecode.vabs (q : BitVec 2) (s : BitVec 1) (d : BitVec 6) (a : BitVec 6) : EncodeDecode.Statement (.vabs q s d a) := by
  intro hwf x hx
  replace hx : 205520896 + q.toNat * 536870912 + s.toNat * 262144 + d.toNat * 4096 + a.toNat * 64 = x := Option.some.inj hx
  have hp : x = pack [(2, q.toNat), (4, 6), (5, 4), (1, 0), (1, s.toNat), (6, d.toNat), (6, a.toNat), (6, 0)] := by
    rw [pack_cons 2 29 (pack_cons 4 25 (pack_cons 5 20 (pack_cons 1 19 (pack_cons 1 18 (pack_cons 6 12 (pack_cons 6 6 (pack_cons 6 0 pack_nil rfl (rfl : 1 = 2 ^ 0)) rfl (rfl : 64 = 2 ^ 6)) rfl (rfl : 4096 = 2 ^ 12)) rfl (rfl : 262144 = 2 ^ 18)) rfl (rfl : 524288 = 2 ^ 19)) rfl (rfl : 1048576 = 2 ^ 20)) rfl (rfl : 33554432 = 2 ^ 25)) rfl (rfl : 536870912 = 2 ^ 29)]
    omega
  have hf : Fits [(2, q.toNat), (4, 6), (5, 4), (1, 0), (1, s.toNat), (6, d.toNat), (6, a.toNat), (6, 0)] := ⟨q.isLt, by decide, by decide, by decide, s.isLt, d.isLt, a.isLt, by decide, trivial⟩
  have h0 : x / 33554432 % 16 = 6 := pack_field [(2, q.toNat)] [(4, 6)] [(5, 4), (1, 0), (1, s.toNat), (6, d.toNat), (6, a.toNat), (6, 0)] 25 4 hp hf rfl rfl rfl rfl rfl rfl
  have h1 : x / 1048576 % 32 = 4 := pack_field [(2, q.toNat), (4, 6)] [(5, 4)] [(1, 0), (1, s.toNat), (6, d.toNat), (6, a.toNat), (6, 0)] 20 5 hp hf rfl rfl rfl rfl rfl rfl
  have h2 : x % 64 = 0 := pack_low [(2, q.toNat), (4, 6), (5, 4), (1, 0), (1, s.toNat), (6, d.toNat), (6, a.toNat)] [(6, 0)] 6 hp hf rfl rfl rfl rfl
  have h3 : x / 524288 % 2 = 0 := pack_field [(2, q.toNat), (4, 6), (5, 4)] [(1, 0)] [(1, s.toNat), (6, d.toNat), (6, a.toNat), (6, 0)] 19 1 hp hf rfl rfl rfl rfl rfl rfl
  have e0 : BitVec.ofNat 2 (x / 536870912) = q := ofNat_field [] q [(4, 6), (5, 4), (1, 0), (1, s.toNat), (6, d.toNat), (6, a.toNat), (6, 0)] 29 hp hf rfl rfl rfl
  have e1 : BitVec.ofNat 1 (x / 262144) = s := ofNat_field [(2, q.toNat), (4, 6), (5, 4), (1, 0)] s [(6, d.toNat), (6, a.toNat), (6, 0)] 18 hp hf rfl rfl rfl
  have e2 : BitVec.ofNat 6 (x / 4096) = d := ofNat_field [(2, q.toNat), (4, 6), (5, 4), (1, 0), (1, s.toNat)] d [(6, a.toNat), (6, 0)] 12 hp hf rfl rfl rfl
  have e3 : BitVec.ofNat 6 (x / 64) = a := ofNat_field [(2, q.toNat), (4, 6), (5, 4), (1, 0), (1, s.toNat), (6, d.toNat)] a [(6, 0)] 6 hp hf rfl rfl rfl
  refine ⟨pack_bound 31 hp hf rfl, (.vabs q s d a), ?_, rfl, ?_⟩
  · simp only [decodeNat, decodeVI, h0, h1, h2, h3, ↓reduceIte, and_self, and_true, true_and, and_false, false_and, one_ne_zero, OfNat.ofNat_ne_zero]
    rw [e0, e1, e2, e3]
    try rfl
  · rfl

theorem EncodeDecode.vneg (q : BitVec 2) (s : BitVec 1) (d : BitVec 6) (a : BitVec 6) : EncodeDecode.Statement (.vneg q s d a) := by
  intro hwf x hx
  replace hx : 206569472 + q.toNat * 536870912 + s.toNat * 262144 + d.toNat * 4096 + a.toNat * 64 = x := Option.some.inj hx
  have hp : x = pack [(2, q.toNat), (4, 6), (5, 5), (1, 0), (1, s.toNat), (6, d.toNat), (6, a.toNat), (6, 0)] := by
    rw [pack_cons 2 29 (pack_cons 4 25 (pack_cons 5 20 (pack_cons 1 19 (pack_cons 1 18 (pack_cons 6 12 (pack_cons 6 6 (pack_cons 6 0 pack_nil rfl (rfl : 1 = 2 ^ 0)) rfl (rfl : 64 = 2 ^ 6)) rfl (rfl : 4096 = 2 ^ 12)) rfl (rfl : 262144 = 2 ^ 18)) rfl (rfl : 524288 = 2 ^ 19)) rfl (rfl : 1048576 = 2 ^ 20)) rfl (rfl : 33554432 = 2 ^ 25)) rfl (rfl : 536870912 = 2 ^ 29)]
    omega
  have hf : Fits [(2, q.toNat), (4, 6), (5, 5), (1, 0), (1, s.toNat), (6, d.toNat), (6, a.toNat), (6, 0)] := ⟨q.isLt, by decide, by decide, by decide, s.isLt, d.isLt, a.isLt, by decide, trivial⟩
  have h0 : x / 33554432 % 16 = 6 := pack_field [(2, q.toNat)] [(4, 6)] [(5, 5), (1, 0), (1, s.toNat), (6, d.toNat), (6, a.toNat), (6, 0)] 25 4 hp hf rfl rfl rfl rfl rfl rfl
  have h1 : x / 1048576 % 32 = 5 := pack_field [(2, q.toNat), (4, 6)] [(5, 5)] [(1, 0), (1, s.toNat), (6, d.toNat), (6, a.toNat), (6, 0)] 20 5 hp hf rfl rfl rfl rfl rfl rfl
  have h2 : x % 64 = 0 := pack_low [(2, q.toNat), (4, 6), (5, 5), (1, 0), (1, s.toNat), (6, d.toNat), (6, a.toNat)] [(6, 0)] 6 hp hf rfl rfl rfl rfl
  have h3 : x / 524288 % 2 = 0 := pack_field [(2, q.toNat), (4, 6), (5, 5)] [(1, 0)] [(1, s.toNat), (6, d.toNat), (6, a.toNat), (6, 0)] 19 1 hp hf rfl rfl rfl rfl rfl rfl
  have e0 : BitVec.ofNat 2 (x / 536870912) = q := ofNat_field [] q [(4, 6), (5, 5), (1, 0), (1, s.toNat), (6, d.toNat), (6, a.toNat), (6, 0)] 29 hp hf rfl rfl rfl
  have e1 : BitVec.ofNat 1 (x / 262144) = s := ofNat_field [(2, q.toNat), (4, 6), (5, 5), (1, 0)] s [(6, d.toNat), (6, a.toNat), (6, 0)] 18 hp hf rfl rfl rfl
  have e2 : BitVec.ofNat 6 (x / 4096) = d := ofNat_field [(2, q.toNat), (4, 6), (5, 5), (1, 0), (1, s.toNat)] d [(6, a.toNat), (6, 0)] 12 hp hf rfl rfl rfl
  have e3 : BitVec.ofNat 6 (x / 64) = a := ofNat_field [(2, q.toNat), (4, 6), (5, 5), (1, 0), (1, s.toNat), (6, d.toNat)] a [(6, 0)] 6 hp hf rfl rfl rfl
  refine ⟨pack_bound 31 hp hf rfl, (.vneg q s d a), ?_, rfl, ?_⟩
  · simp only [decodeNat, decodeVI, h0, h1, h2, h3, ↓reduceIte, and_self, and_true, true_and, and_false, false_and, one_ne_zero, OfNat.ofNat_ne_zero]
    rw [e0, e1, e2, e3]
    try rfl
  · rfl

theorem EncodeDecode.vclz (q : BitVec 2) (d : BitVec 6) (a : BitVec 6) : EncodeDecode.Statement (.vclz q d a) := by
  intro hwf x hx
  replace hx : 207618048 + q.toNat * 536870912 + d.toNat * 4096 + a.toNat * 64 = x := Option.some.inj hx
  have hp : x = pack [(2, q.toNat), (4, 6), (5, 6), (2, 0), (6, d.toNat), (6, a.toNat), (6, 0)] := by
    rw [pack_cons 2 29 (pack_cons 4 25 (pack_cons 5 20 (pack_cons 2 18 (pack_cons 6 12 (pack_cons 6 6 (pack_cons 6 0 pack_nil rfl (rfl : 1 = 2 ^ 0)) rfl (rfl : 64 = 2 ^ 6)) rfl (rfl : 4096 = 2 ^ 12)) rfl (rfl : 262144 = 2 ^ 18)) rfl (rfl : 1048576 = 2 ^ 20)) rfl (rfl : 33554432 = 2 ^ 25)) rfl (rfl : 536870912 = 2 ^ 29)]
    omega
  have hf : Fits [(2, q.toNat), (4, 6), (5, 6), (2, 0), (6, d.toNat), (6, a.toNat), (6, 0)] := ⟨q.isLt, by decide, by decide, by decide, d.isLt, a.isLt, by decide, trivial⟩
  have h0 : x / 33554432 % 16 = 6 := pack_field [(2, q.toNat)] [(4, 6)] [(5, 6), (2, 0), (6, d.toNat), (6, a.toNat), (6, 0)] 25 4 hp hf rfl rfl rfl rfl rfl rfl
  have h1 : x / 1048576 % 32 = 6 := pack_field [(2, q.toNat), (4, 6)] [(5, 6)] [(2, 0), (6, d.toNat), (6, a.toNat), (6, 0)] 20 5 hp hf rfl rfl rfl rfl rfl rfl
  have h2 : x % 64 = 0 := pack_low [(2, q.toNat), (4, 6), (5, 6), (2, 0), (6, d.toNat), (6, a.toNat)] [(6, 0)] 6 hp hf rfl rfl rfl rfl
  have h3 : x / 262144 % 4 = 0 := pack_field [(2, q.toNat), (4, 6), (5, 6)] [(2, 0)] [(6, d.toNat), (6, a.toNat), (6, 0)] 18 2 hp hf rfl rfl rfl rfl rfl rfl
  have e0 : BitVec.ofNat 2 (x / 536870912) = q := ofNat_field [] q [(4, 6), (5, 6), (2, 0), (6, d.toNat), (6, a.toNat), (6, 0)] 29 hp hf rfl rfl rfl
  have e1 : BitVec.ofNat 6 (x / 4096) = d := ofNat_field [(2, q.toNat), (4, 6), (5, 6), (2, 0)] d [(6, a.toNat), (6, 0)] 12 hp hf rfl rfl rfl
  have e2 : BitVec.ofNat 6 (x / 64) = a := ofNat_field [(2, q.toNat), (4, 6), (5, 6), (2, 0), (6, d.toNat)] a [(6, 0)] 6 hp hf rfl rfl rfl
  refine ⟨pack_bound 31 hp hf rfl, (.vclz q d a), ?_, rfl, ?_⟩
  · simp only [decodeNat, decodeVI, h0, h1, h2, h3, ↓reduceIte, and_self, and_true, true_and, and_false, false_and, one_ne_zero, OfNat.ofNat_ne_zero]
    rw [e0, e1, e2]
    try rfl
  · rfl

theorem EncodeDecode.vcls (q : BitVec 2) (d : BitVec 6) (a : BitVec 6) : EncodeDecode.Statement (.vcls q d a) := by
  intro hwf x hx
  replace hx : 208666624 + q.toNat * 536870912 + d.toNat * 4096 + a.toNat * 64 = x := Option.some.inj hx
  have hp : x = pack [(2, q.toNat), (4, 6), (5, 7), (2, 0), (6, d.toNat), (6, a.toNat), (6, 0)] := by
    rw [pack_cons 2 29 (pack_cons 4 25 (pack_cons 5 20 (pack_cons 2 18 (pack_cons 6 12 (pack_cons 6 6 (pack_cons 6 0 pack_nil rfl (rfl : 1 = 2 ^ 0)) rfl (rfl : 64 = 2 ^ 6)) rfl (rfl : 4096 = 2 ^ 12)) rfl (rfl : 262144 = 2 ^ 18)) rfl (rfl : 1048576 = 2 ^ 20)) rfl (rfl : 33554432 = 2 ^ 25)) rfl (rfl : 536870912 = 2 ^ 29)]
    omega
  have hf : Fits [(2, q.toNat), (4, 6), (5, 7), (2, 0), (6, d.toNat), (6, a.toNat), (6, 0)] := ⟨q.isLt, by decide, by decide, by decide, d.isLt, a.isLt, by decide, trivial⟩
  have h0 : x / 33554432 % 16 = 6 := pack_field [(2, q.toNat)] [(4, 6)] [(5, 7), (2, 0), (6, d.toNat), (6, a.toNat), (6, 0)] 25 4 hp hf rfl rfl rfl rfl rfl rfl
  have h1 : x / 1048576 % 32 = 7 := pack_field [(2, q.toNat), (4, 6)] [(5, 7)] [(2, 0), (6, d.toNat), (6, a.toNat), (6, 0)] 20 5 hp hf rfl rfl rfl rfl rfl rfl
  have h2 : x % 64 = 0 := pack_low [(2, q.toNat), (4, 6), (5, 7), (2, 0), (6, d.toNat), (6, a.toNat)] [(6, 0)] 6 hp hf rfl rfl rfl rfl
  have h3 : x / 262144 % 4 = 0 := pack_field [(2, q.toNat), (4, 6), (5, 7)] [(2, 0)] [(6, d.toNat), (6, a.toNat), (6, 0)] 18 2 hp hf rfl rfl rfl rfl rfl rfl
  have e0 : BitVec.ofNat 2 (x / 536870912) = q := ofNat_field [] q [(4, 6), (5, 7), (2, 0), (6, d.toNat), (6, a.toNat), (6, 0)] 29 hp hf rfl rfl rfl
  have e1 : BitVec.ofNat 6 (x / 4096) = d := ofNat_field [(2, q.toNat), (4, 6), (5, 7), (2, 0)] d [(6, a.toNat), (6, 0)] 12 hp hf rfl rfl rfl
  have e2 : BitVec.ofNat 6 (x / 64) = a := ofNat_field [(2, q.toNat), (4, 6), (5, 7), (2, 0), (6, d.toNat)] a [(6, 0)] 6 hp hf rfl rfl rfl
  refine ⟨pack_bound 31 hp hf rfl, (.vcls q d a), ?_, rfl, ?_⟩
  · simp only [decodeNat, decodeVI, h0, h1, h2, h3, ↓reduceIte, and_self, and_true, true_and, and_false, false_and, one_ne_zero, OfNat.ofNat_ne_zero]
    rw [e0, e1, e2]
    try rfl
  · rfl

theorem EncodeDecode.vpopc (q : BitVec 2) (d : BitVec 6) (a : BitVec 6) : EncodeDecode.Statement (.vpopc q d a) := by
  intro hwf x hx
  replace hx : 209715200 + q.toNat * 536870912 + d.toNat * 4096 + a.toNat * 64 = x := Option.some.inj hx
  have hp : x = pack [(2, q.toNat), (4, 6), (5, 8), (2, 0), (6, d.toNat), (6, a.toNat), (6, 0)] := by
    rw [pack_cons 2 29 (pack_cons 4 25 (pack_cons 5 20 (pack_cons 2 18 (pack_cons 6 12 (pack_cons 6 6 (pack_cons 6 0 pack_nil rfl (rfl : 1 = 2 ^ 0)) rfl (rfl : 64 = 2 ^ 6)) rfl (rfl : 4096 = 2 ^ 12)) rfl (rfl : 262144 = 2 ^ 18)) rfl (rfl : 1048576 = 2 ^ 20)) rfl (rfl : 33554432 = 2 ^ 25)) rfl (rfl : 536870912 = 2 ^ 29)]
    omega
  have hf : Fits [(2, q.toNat), (4, 6), (5, 8), (2, 0), (6, d.toNat), (6, a.toNat), (6, 0)] := ⟨q.isLt, by decide, by decide, by decide, d.isLt, a.isLt, by decide, trivial⟩
  have h0 : x / 33554432 % 16 = 6 := pack_field [(2, q.toNat)] [(4, 6)] [(5, 8), (2, 0), (6, d.toNat), (6, a.toNat), (6, 0)] 25 4 hp hf rfl rfl rfl rfl rfl rfl
  have h1 : x / 1048576 % 32 = 8 := pack_field [(2, q.toNat), (4, 6)] [(5, 8)] [(2, 0), (6, d.toNat), (6, a.toNat), (6, 0)] 20 5 hp hf rfl rfl rfl rfl rfl rfl
  have h2 : x % 64 = 0 := pack_low [(2, q.toNat), (4, 6), (5, 8), (2, 0), (6, d.toNat), (6, a.toNat)] [(6, 0)] 6 hp hf rfl rfl rfl rfl
  have h3 : x / 262144 % 4 = 0 := pack_field [(2, q.toNat), (4, 6), (5, 8)] [(2, 0)] [(6, d.toNat), (6, a.toNat), (6, 0)] 18 2 hp hf rfl rfl rfl rfl rfl rfl
  have e0 : BitVec.ofNat 2 (x / 536870912) = q := ofNat_field [] q [(4, 6), (5, 8), (2, 0), (6, d.toNat), (6, a.toNat), (6, 0)] 29 hp hf rfl rfl rfl
  have e1 : BitVec.ofNat 6 (x / 4096) = d := ofNat_field [(2, q.toNat), (4, 6), (5, 8), (2, 0)] d [(6, a.toNat), (6, 0)] 12 hp hf rfl rfl rfl
  have e2 : BitVec.ofNat 6 (x / 64) = a := ofNat_field [(2, q.toNat), (4, 6), (5, 8), (2, 0), (6, d.toNat)] a [(6, 0)] 6 hp hf rfl rfl rfl
  refine ⟨pack_bound 31 hp hf rfl, (.vpopc q d a), ?_, rfl, ?_⟩
  · simp only [decodeNat, decodeVI, h0, h1, h2, h3, ↓reduceIte, and_self, and_true, true_and, and_false, false_and, one_ne_zero, OfNat.ofNat_ne_zero]
    rw [e0, e1, e2]
    try rfl
  · rfl

theorem EncodeDecode.vcvt (q : BitVec 2) (u : BitVec 1) (d : BitVec 6) (a : BitVec 6) (b : BitVec 6) : EncodeDecode.Statement (.vcvt q u d a b) := by
  intro hwf x hx
  replace hx : 210763776 + q.toNat * 536870912 + u.toNat * 262144 + d.toNat * 4096 + a.toNat * 64 + b.toNat = x := Option.some.inj hx
  have hp : x = pack [(2, q.toNat), (4, 6), (5, 9), (1, 0), (1, u.toNat), (6, d.toNat), (6, a.toNat), (6, b.toNat)] := by
    rw [pack_cons 2 29 (pack_cons 4 25 (pack_cons 5 20 (pack_cons 1 19 (pack_cons 1 18 (pack_cons 6 12 (pack_cons 6 6 (pack_cons 6 0 pack_nil rfl (rfl : 1 = 2 ^ 0)) rfl (rfl : 64 = 2 ^ 6)) rfl (rfl : 4096 = 2 ^ 12)) rfl (rfl : 262144 = 2 ^ 18)) rfl (rfl : 524288 = 2 ^ 19)) rfl (rfl : 1048576 = 2 ^ 20)) rfl (rfl : 33554432 = 2 ^ 25)) rfl (rfl : 536870912 = 2 ^ 29)]
    omega
  have hf : Fits [(2, q.toNat), (4, 6), (5, 9), (1, 0), (1, u.toNat), (6, d.toNat), (6, a.toNat), (6, b.toNat)] := ⟨q.isLt, by decide, by decide, by decide, u.isLt, d.isLt, a.isLt, b.isLt, trivial⟩
  have h0 : x / 33554432 % 16 = 6 := pack_field [(2, q.toNat)] [(4, 6)] [(5, 9), (1, 0), (1, u.toNat), (6, d.toNat), (6, a.toNat), (6, b.toNat)] 25 4 hp hf rfl rfl rfl rfl rfl rfl
  have h1 : x / 1048576 % 32 = 9 := pack_field [(2, q.toNat), (4, 6)] [(5, 9)] [(1, 0), (1, u.toNat), (6, d.toNat), (6, a.toNat), (6, b.toNat)] 20 5 hp hf rfl rfl rfl rfl rfl rfl
  have h2 : x / 524288 % 2 = 0 := pack_field [(2, q.toNat), (4, 6), (5, 9)] [(1, 0)] [(1, u.toNat), (6, d.toNat), (6, a.toNat), (6, b.toNat)] 19 1 hp hf rfl rfl rfl rfl rfl rfl
  have e0 : BitVec.ofNat 2 (x / 536870912) = q := ofNat_field [] q [(4, 6), (5, 9), (1, 0), (1, u.toNat), (6, d.toNat), (6, a.toNat), (6, b.toNat)] 29 hp hf rfl rfl rfl
  have e1 : BitVec.ofNat 1 (x / 262144) = u := ofNat_field [(2, q.toNat), (4, 6), (5, 9), (1, 0)] u [(6, d.toNat), (6, a.toNat), (6, b.toNat)] 18 hp hf rfl rfl rfl
  have e2 : BitVec.ofNat 6 (x / 4096) = d := ofNat_field [(2, q.toNat), (4, 6), (5, 9), (1, 0), (1, u.toNat)] d [(6, a.toNat), (6, b.toNat)] 12 hp hf rfl rfl rfl
  have e3 : BitVec.ofNat 6 (x / 64) = a := ofNat_field [(2, q.toNat), (4, 6), (5, 9), (1, 0), (1, u.toNat), (6, d.toNat)] a [(6, b.toNat)] 6 hp hf rfl rfl rfl
  have e4 : BitVec.ofNat 6 x = b := ofNat_low [(2, q.toNat), (4, 6), (5, 9), (1, 0), (1, u.toNat), (6, d.toNat), (6, a.toNat)] b hp hf rfl
  refine ⟨pack_bound 31 hp hf rfl, (.vcvt q u d a b), ?_, rfl, ?_⟩
  · simp only [decodeNat, decodeVI, h0, h1, h2, ↓reduceIte]
    rw [e0, e1, e2, e3, e4]
    try rfl
  · rfl

theorem EncodeDecode.vpack (q : BitVec 2) (w : BitVec 1) (d : BitVec 6) (a : BitVec 6) (b : BitVec 6) : EncodeDecode.Statement (.vpack q w d a b) := by
  intro hwf x hx
  replace hx : 211812352 + q.toNat * 536870912 + w.toNat * 262144 + d.toNat * 4096 + a.toNat * 64 + b.toNat = x := Option.some.inj hx
  have hp : x = pack [(2, q.toNat), (4, 6), (5, 10), (1, 0), (1, w.toNat), (6, d.toNat), (6, a.toNat), (6, b.toNat)] := by
    rw [pack_cons 2 29 (pack_cons 4 25 (pack_cons 5 20 (pack_cons 1 19 (pack_cons 1 18 (pack_cons 6 12 (pack_cons 6 6 (pack_cons 6 0 pack_nil rfl (rfl : 1 = 2 ^ 0)) rfl (rfl : 64 = 2 ^ 6)) rfl (rfl : 4096 = 2 ^ 12)) rfl (rfl : 262144 = 2 ^ 18)) rfl (rfl : 524288 = 2 ^ 19)) rfl (rfl : 1048576 = 2 ^ 20)) rfl (rfl : 33554432 = 2 ^ 25)) rfl (rfl : 536870912 = 2 ^ 29)]
    omega
  have hf : Fits [(2, q.toNat), (4, 6), (5, 10), (1, 0), (1, w.toNat), (6, d.toNat), (6, a.toNat), (6, b.toNat)] := ⟨q.isLt, by decide, by decide, by decide, w.isLt, d.isLt, a.isLt, b.isLt, trivial⟩
  have h0 : x / 33554432 % 16 = 6 := pack_field [(2, q.toNat)] [(4, 6)] [(5, 10), (1, 0), (1, w.toNat), (6, d.toNat), (6, a.toNat), (6, b.toNat)] 25 4 hp hf rfl rfl rfl rfl rfl rfl
  have h1 : x / 1048576 % 32 = 10 := pack_field [(2, q.toNat), (4, 6)] [(5, 10)] [(1, 0), (1, w.toNat), (6, d.toNat), (6, a.toNat), (6, b.toNat)] 20 5 hp hf rfl rfl rfl rfl rfl rfl
  have h2 : x / 524288 % 2 = 0 := pack_field [(2, q.toNat), (4, 6), (5, 10)] [(1, 0)] [(1, w.toNat), (6, d.toNat), (6, a.toNat), (6, b.toNat)] 19 1 hp hf rfl rfl rfl rfl rfl rfl
  have e0 : BitVec.ofNat 2 (x / 536870912) = q := ofNat_field [] q [(4, 6), (5, 10), (1, 0), (1, w.toNat), (6, d.toNat), (6, a.toNat), (6, b.toNat)] 29 hp hf rfl rfl rfl
  have e1 : BitVec.ofNat 1 (x / 262144) = w := ofNat_field [(2, q.toNat), (4, 6), (5, 10), (1, 0)] w [(6, d.toNat), (6, a.toNat), (6, b.toNat)] 18 hp hf rfl rfl rfl
  have e2 : BitVec.ofNat 6 (x / 4096) = d := ofNat_field [(2, q.toNat), (4, 6), (5, 10), (1, 0), (1, w.toNat)] d [(6, a.toNat), (6, b.toNat)] 12 hp hf rfl rfl rfl
  have e3 : BitVec.ofNat 6 (x / 64) = a := ofNat_field [(2, q.toNat), (4, 6), (5, 10), (1, 0), (1, w.toNat), (6, d.toNat)] a [(6, b.toNat)] 6 hp hf rfl rfl rfl
  have e4 : BitVec.ofNat 6 x = b := ofNat_low [(2, q.toNat), (4, 6), (5, 10), (1, 0), (1, w.toNat), (6, d.toNat), (6, a.toNat)] b hp hf rfl
  refine ⟨pack_bound 31 hp hf rfl, (.vpack q w d a b), ?_, rfl, ?_⟩
  · simp only [decodeNat, decodeVI, h0, h1, h2, ↓reduceIte]
    rw [e0, e1, e2, e3, e4]
    try rfl
  · rfl

theorem EncodeDecode.vunpk (q : BitVec 2) (u : BitVec 1) (d : BitVec 6) (a : BitVec 6) (e : BitVec 1) : EncodeDecode.Statement (.vunpk q u d a e) := by
  intro hwf x hx
  replace hx : 212860928 + q.toNat * 536870912 + u.toNat * 262144 + d.toNat * 4096 + a.toNat * 64 + e.toNat = x := Option.some.inj hx
  have hp : x = pack [(2, q.toNat), (4, 6), (5, 11), (1, 0), (1, u.toNat), (6, d.toNat), (6, a.toNat), (5, 0), (1, e.toNat)] := by
    rw [pack_cons 2 29 (pack_cons 4 25 (pack_cons 5 20 (pack_cons 1 19 (pack_cons 1 18 (pack_cons 6 12 (pack_cons 6 6 (pack_cons 5 1 (pack_cons 1 0 pack_nil rfl (rfl : 1 = 2 ^ 0)) rfl (rfl : 2 = 2 ^ 1)) rfl (rfl : 64 = 2 ^ 6)) rfl (rfl : 4096 = 2 ^ 12)) rfl (rfl : 262144 = 2 ^ 18)) rfl (rfl : 524288 = 2 ^ 19)) rfl (rfl : 1048576 = 2 ^ 20)) rfl (rfl : 33554432 = 2 ^ 25)) rfl (rfl : 536870912 = 2 ^ 29)]
    omega
  have hf : Fits [(2, q.toNat), (4, 6), (5, 11), (1, 0), (1, u.toNat), (6, d.toNat), (6, a.toNat), (5, 0), (1, e.toNat)] := ⟨q.isLt, by decide, by decide, by decide, u.isLt, d.isLt, a.isLt, by decide, e.isLt, trivial⟩
  have h0 : x / 33554432 % 16 = 6 := pack_field [(2, q.toNat)] [(4, 6)] [(5, 11), (1, 0), (1, u.toNat), (6, d.toNat), (6, a.toNat), (5, 0), (1, e.toNat)] 25 4 hp hf rfl rfl rfl rfl rfl rfl
  have h1 : x / 1048576 % 32 = 11 := pack_field [(2, q.toNat), (4, 6)] [(5, 11)] [(1, 0), (1, u.toNat), (6, d.toNat), (6, a.toNat), (5, 0), (1, e.toNat)] 20 5 hp hf rfl rfl rfl rfl rfl rfl
  have h2 : x / 2 % 32 = 0 := pack_field [(2, q.toNat), (4, 6), (5, 11), (1, 0), (1, u.toNat), (6, d.toNat), (6, a.toNat)] [(5, 0)] [(1, e.toNat)] 1 5 hp hf rfl rfl rfl rfl rfl rfl
  have h3 : x / 524288 % 2 = 0 := pack_field [(2, q.toNat), (4, 6), (5, 11)] [(1, 0)] [(1, u.toNat), (6, d.toNat), (6, a.toNat), (5, 0), (1, e.toNat)] 19 1 hp hf rfl rfl rfl rfl rfl rfl
  have e0 : BitVec.ofNat 2 (x / 536870912) = q := ofNat_field [] q [(4, 6), (5, 11), (1, 0), (1, u.toNat), (6, d.toNat), (6, a.toNat), (5, 0), (1, e.toNat)] 29 hp hf rfl rfl rfl
  have e1 : BitVec.ofNat 1 (x / 262144) = u := ofNat_field [(2, q.toNat), (4, 6), (5, 11), (1, 0)] u [(6, d.toNat), (6, a.toNat), (5, 0), (1, e.toNat)] 18 hp hf rfl rfl rfl
  have e2 : BitVec.ofNat 6 (x / 4096) = d := ofNat_field [(2, q.toNat), (4, 6), (5, 11), (1, 0), (1, u.toNat)] d [(6, a.toNat), (5, 0), (1, e.toNat)] 12 hp hf rfl rfl rfl
  have e3 : BitVec.ofNat 6 (x / 64) = a := ofNat_field [(2, q.toNat), (4, 6), (5, 11), (1, 0), (1, u.toNat), (6, d.toNat)] a [(5, 0), (1, e.toNat)] 6 hp hf rfl rfl rfl
  have e4 : BitVec.ofNat 1 x = e := ofNat_low [(2, q.toNat), (4, 6), (5, 11), (1, 0), (1, u.toNat), (6, d.toNat), (6, a.toNat), (5, 0)] e hp hf rfl
  refine ⟨pack_bound 31 hp hf rfl, (.vunpk q u d a e), ?_, rfl, ?_⟩
  · simp only [decodeNat, decodeVI, h0, h1, h2, h3, ↓reduceIte, and_self, and_true, true_and, and_false, false_and, one_ne_zero, OfNat.ofNat_ne_zero]
    rw [e0, e1, e2, e3, e4]
    try rfl
  · rfl

theorem EncodeDecode.vrotl (q : BitVec 2) (x0 : BitVec 1) (d : BitVec 6) (a : BitVec 6) (b : BitVec 6) (ext : Option (BitVec 25)) : EncodeDecode.Statement (.vrotl q x0 d a b ext) := by
  intro hwf x hx
  replace hx : 213909504 + q.toNat * 536870912 + x0.toNat * 262144 + d.toNat * 4096 + a.toNat * 64 + b.toNat = x := Option.some.inj hx
  have hp : x = pack [(2, q.toNat), (4, 6), (5, 12), (1, 0), (1, x0.toNat), (6, d.toNat), (6, a.toNat), (6, b.toNat)] := by
    rw [pack_cons 2 29 (pack_cons 4 25 (pack_cons 5 20 (pack_cons 1 19 (pack_cons 1 18 (pack_cons 6 12 (pack_cons 6 6 (pack_cons 6 0 pack_nil rfl (rfl : 1 = 2 ^ 0)) rfl (rfl : 64 = 2 ^ 6)) rfl (rfl : 4096 = 2 ^ 12)) rfl (rfl : 262144 = 2 ^ 18)) rfl (rfl : 524288 = 2 ^ 19)) rfl (rfl : 1048576 = 2 ^ 20)) rfl (rfl : 33554432 = 2 ^ 25)) rfl (rfl : 536870912 = 2 ^ 29)]
    omega
  have hf : Fits [(2, q.toNat), (4, 6), (5, 12), (1, 0), (1, x0.toNat), (6, d.toNat), (6, a.toNat), (6, b.toNat)] := ⟨q.isLt, by decide, by decide, by decide, x0.isLt, d.isLt, a.isLt, b.isLt, trivial⟩
  have h0 : x / 33554432 % 16 = 6 := pack_field [(2, q.toNat)] [(4, 6)] [(5, 12), (1, 0), (1, x0.toNat), (6, d.toNat), (6, a.toNat), (6, b.toNat)] 25 4 hp hf rfl rfl rfl rfl rfl rfl
  have h1 : x / 1048576 % 32 = 12 := pack_field [(2, q.toNat), (4, 6)] [(5, 12)] [(1, 0), (1, x0.toNat), (6, d.toNat), (6, a.toNat), (6, b.toNat)] 20 5 hp hf rfl rfl rfl rfl rfl rfl
  have h2 : x / 524288 % 2 = 0 := pack_field [(2, q.toNat), (4, 6), (5, 12)] [(1, 0)] [(1, x0.toNat), (6, d.toNat), (6, a.toNat), (6, b.toNat)] 19 1 hp hf rfl rfl rfl rfl rfl rfl
  have e0 : BitVec.ofNat 2 (x / 536870912) = q := ofNat_field [] q [(4, 6), (5, 12), (1, 0), (1, x0.toNat), (6, d.toNat), (6, a.toNat), (6, b.toNat)] 29 hp hf rfl rfl rfl
  have e1 : BitVec.ofNat 1 (x / 262144) = x0 := ofNat_field [(2, q.toNat), (4, 6), (5, 12), (1, 0)] x0 [(6, d.toNat), (6, a.toNat), (6, b.toNat)] 18 hp hf rfl rfl rfl
  have e2 : BitVec.ofNat 6 (x / 4096) = d := ofNat_field [(2, q.toNat), (4, 6), (5, 12), (1, 0), (1, x0.toNat)] d [(6, a.toNat), (6, b.toNat)] 12 hp hf rfl rfl rfl
  have e3 : BitVec.ofNat 6 (x / 64) = a := ofNat_field [(2, q.toNat), (4, 6), (5, 12), (1, 0), (1, x0.toNat), (6, d.toNat)] a [(6, b.toNat)] 6 hp hf rfl rfl rfl
  have e4 : BitVec.ofNat 6 x = b := ofNat_low [(2, q.toNat), (4, 6), (5, 12), (1, 0), (1, x0.toNat), (6, d.toNat), (6, a.toNat)] b hp hf rfl
  refine ⟨pack_bound 31 hp hf rfl, (.vrotl q x0 d a b none), ?_, rfl, ?_⟩
  · simp only [decodeNat, decodeVI, h0, h1, h2, ↓reduceIte]
    rw [e0, e1, e2, e3, e4]
    try rfl
  · cases ext with
    | none => rfl
    | some e =>
      have hl : (Instr.vrotl q x0 d a b (some e)).sig.legal = true := by
        have hw : (Instr.vrotl q x0 d a b (some e)).sig.wordOk = true := hwf
        unfold Sig.wordOk at hw
        simp only [Bool.and_eq_true] at hw
        exact hw.1.2
      have hl' : (!(x0 == 1 && (b.getLsbD 5 || true))) = true := hl
      have hx0 : x0 = 0 := by
        have hc : x0 = 0 ∨ x0 = 1 := by bv_omega
        rcases hc with hc | hc
        · exact hc
        · subst hc
          simp at hl'
      subst hx0
      rfl

theorem EncodeDecode.vbcast (q : BitVec 2) (d : BitVec 6) (s : BitVec 5) : EncodeDecode.Statement (.vbcast q d s) := by
  intro hwf x hx
  replace hx : 214958080 + q.toNat * 536870912 + d.toNat * 4096 + s.toNat * 64 = x := Option.some.inj hx
  have hp : x = pack [(2, q.toNat), (4, 6), (5, 13), (2, 0), (6, d.toNat), (1, 0), (5, s.toNat), (6, 0)] := by
    rw [pack_cons 2 29 (pack_cons 4 25 (pack_cons 5 20 (pack_cons 2 18 (pack_cons 6 12 (pack_cons 1 11 (pack_cons 5 6 (pack_cons 6 0 pack_nil rfl (rfl : 1 = 2 ^ 0)) rfl (rfl : 64 = 2 ^ 6)) rfl (rfl : 2048 = 2 ^ 11)) rfl (rfl : 4096 = 2 ^ 12)) rfl (rfl : 262144 = 2 ^ 18)) rfl (rfl : 1048576 = 2 ^ 20)) rfl (rfl : 33554432 = 2 ^ 25)) rfl (rfl : 536870912 = 2 ^ 29)]
    omega
  have hf : Fits [(2, q.toNat), (4, 6), (5, 13), (2, 0), (6, d.toNat), (1, 0), (5, s.toNat), (6, 0)] := ⟨q.isLt, by decide, by decide, by decide, d.isLt, by decide, s.isLt, by decide, trivial⟩
  have h0 : x / 33554432 % 16 = 6 := pack_field [(2, q.toNat)] [(4, 6)] [(5, 13), (2, 0), (6, d.toNat), (1, 0), (5, s.toNat), (6, 0)] 25 4 hp hf rfl rfl rfl rfl rfl rfl
  have h1 : x / 1048576 % 32 = 13 := pack_field [(2, q.toNat), (4, 6)] [(5, 13)] [(2, 0), (6, d.toNat), (1, 0), (5, s.toNat), (6, 0)] 20 5 hp hf rfl rfl rfl rfl rfl rfl
  have h2 : x % 64 = 0 := pack_low [(2, q.toNat), (4, 6), (5, 13), (2, 0), (6, d.toNat), (1, 0), (5, s.toNat)] [(6, 0)] 6 hp hf rfl rfl rfl rfl
  have h3 : x / 2048 % 2 = 0 := pack_field [(2, q.toNat), (4, 6), (5, 13), (2, 0), (6, d.toNat)] [(1, 0)] [(5, s.toNat), (6, 0)] 11 1 hp hf rfl rfl rfl rfl rfl rfl
  have h4 : x / 262144 % 4 = 0 := pack_field [(2, q.toNat), (4, 6), (5, 13)] [(2, 0)] [(6, d.toNat), (1, 0), (5, s.toNat), (6, 0)] 18 2 hp hf rfl rfl rfl rfl rfl rfl
  have e0 : BitVec.ofNat 2 (x / 536870912) = q := ofNat_field [] q [(4, 6), (5, 13), (2, 0), (6, d.toNat), (1, 0), (5, s.toNat), (6, 0)] 29 hp hf rfl rfl rfl
  have e1 : BitVec.ofNat 6 (x / 4096) = d := ofNat_field [(2, q.toNat), (4, 6), (5, 13), (2, 0)] d [(1, 0), (5, s.toNat), (6, 0)] 12 hp hf rfl rfl rfl
  have e2 : BitVec.ofNat 5 (x / 64) = s := ofNat_field [(2, q.toNat), (4, 6), (5, 13), (2, 0), (6, d.toNat), (1, 0)] s [(6, 0)] 6 hp hf rfl rfl rfl
  refine ⟨pack_bound 31 hp hf rfl, (.vbcast q d s), ?_, rfl, ?_⟩
  · simp only [decodeNat, decodeVI, h0, h1, h2, h3, h4, ↓reduceIte, and_self, and_true, true_and, and_false, false_and, one_ne_zero, OfNat.ofNat_ne_zero]
    rw [e0, e1, e2]
    try rfl
  · rfl

theorem EncodeDecode.vbcastRow (q : BitVec 2) (d : BitVec 6) (a : BitVec 6) : EncodeDecode.Statement (.vbcastRow q d a) := by
  intro hwf x hx
  replace hx : 215220224 + q.toNat * 536870912 + d.toNat * 4096 + a.toNat * 64 = x := Option.some.inj hx
  have hp : x = pack [(2, q.toNat), (4, 6), (5, 13), (2, 1), (6, d.toNat), (6, a.toNat), (6, 0)] := by
    rw [pack_cons 2 29 (pack_cons 4 25 (pack_cons 5 20 (pack_cons 2 18 (pack_cons 6 12 (pack_cons 6 6 (pack_cons 6 0 pack_nil rfl (rfl : 1 = 2 ^ 0)) rfl (rfl : 64 = 2 ^ 6)) rfl (rfl : 4096 = 2 ^ 12)) rfl (rfl : 262144 = 2 ^ 18)) rfl (rfl : 1048576 = 2 ^ 20)) rfl (rfl : 33554432 = 2 ^ 25)) rfl (rfl : 536870912 = 2 ^ 29)]
    omega
  have hf : Fits [(2, q.toNat), (4, 6), (5, 13), (2, 1), (6, d.toNat), (6, a.toNat), (6, 0)] := ⟨q.isLt, by decide, by decide, by decide, d.isLt, a.isLt, by decide, trivial⟩
  have h0 : x / 33554432 % 16 = 6 := pack_field [(2, q.toNat)] [(4, 6)] [(5, 13), (2, 1), (6, d.toNat), (6, a.toNat), (6, 0)] 25 4 hp hf rfl rfl rfl rfl rfl rfl
  have h1 : x / 1048576 % 32 = 13 := pack_field [(2, q.toNat), (4, 6)] [(5, 13)] [(2, 1), (6, d.toNat), (6, a.toNat), (6, 0)] 20 5 hp hf rfl rfl rfl rfl rfl rfl
  have h2 : x % 64 = 0 := pack_low [(2, q.toNat), (4, 6), (5, 13), (2, 1), (6, d.toNat), (6, a.toNat)] [(6, 0)] 6 hp hf rfl rfl rfl rfl
  have h4 : x / 262144 % 4 = 1 := pack_field [(2, q.toNat), (4, 6), (5, 13)] [(2, 1)] [(6, d.toNat), (6, a.toNat), (6, 0)] 18 2 hp hf rfl rfl rfl rfl rfl rfl
  have := q.isLt
  have := d.isLt
  have := a.isLt
  have h5 : ¬(x % 64 = 0 ∧ x / 2048 % 2 = 0 ∧ x / 262144 % 4 = 0) := by omega
  have e0 : BitVec.ofNat 2 (x / 536870912) = q := ofNat_field [] q [(4, 6), (5, 13), (2, 1), (6, d.toNat), (6, a.toNat), (6, 0)] 29 hp hf rfl rfl rfl
  have e1 : BitVec.ofNat 6 (x / 4096) = d := ofNat_field [(2, q.toNat), (4, 6), (5, 13), (2, 1)] d [(6, a.toNat), (6, 0)] 12 hp hf rfl rfl rfl
  have e2 : BitVec.ofNat 6 (x / 64) = a := ofNat_field [(2, q.toNat), (4, 6), (5, 13), (2, 1), (6, d.toNat)] a [(6, 0)] 6 hp hf rfl rfl rfl
  refine ⟨pack_bound 31 hp hf rfl, (.vbcastRow q d a), ?_, rfl, ?_⟩
  · simp only [decodeNat, decodeVI, h0, h1, h2, h4, if_neg h5, ↓reduceIte, and_self, and_true, true_and, and_false, false_and, one_ne_zero, OfNat.ofNat_ne_zero]
    rw [e0, e1, e2]
    try rfl
  · rfl

theorem EncodeDecode.vbcastCol (q : BitVec 2) (d : BitVec 6) (a : BitVec 6) : EncodeDecode.Statement (.vbcastCol q d a) := by
  intro hwf x hx
  replace hx : 215482368 + q.toNat * 536870912 + d.toNat * 4096 + a.toNat * 64 = x := Option.some.inj hx
  have hp : x = pack [(2, q.toNat), (4, 6), (5, 13), (2, 2), (6, d.toNat), (6, a.toNat), (6, 0)] := by
    rw [pack_cons 2 29 (pack_cons 4 25 (pack_cons 5 20 (pack_cons 2 18 (pack_cons 6 12 (pack_cons 6 6 (pack_cons 6 0 pack_nil rfl (rfl : 1 = 2 ^ 0)) rfl (rfl : 64 = 2 ^ 6)) rfl (rfl : 4096 = 2 ^ 12)) rfl (rfl : 262144 = 2 ^ 18)) rfl (rfl : 1048576 = 2 ^ 20)) rfl (rfl : 33554432 = 2 ^ 25)) rfl (rfl : 536870912 = 2 ^ 29)]
    omega
  have hf : Fits [(2, q.toNat), (4, 6), (5, 13), (2, 2), (6, d.toNat), (6, a.toNat), (6, 0)] := ⟨q.isLt, by decide, by decide, by decide, d.isLt, a.isLt, by decide, trivial⟩
  have h0 : x / 33554432 % 16 = 6 := pack_field [(2, q.toNat)] [(4, 6)] [(5, 13), (2, 2), (6, d.toNat), (6, a.toNat), (6, 0)] 25 4 hp hf rfl rfl rfl rfl rfl rfl
  have h1 : x / 1048576 % 32 = 13 := pack_field [(2, q.toNat), (4, 6)] [(5, 13)] [(2, 2), (6, d.toNat), (6, a.toNat), (6, 0)] 20 5 hp hf rfl rfl rfl rfl rfl rfl
  have h2 : x % 64 = 0 := pack_low [(2, q.toNat), (4, 6), (5, 13), (2, 2), (6, d.toNat), (6, a.toNat)] [(6, 0)] 6 hp hf rfl rfl rfl rfl
  have h4 : x / 262144 % 4 = 2 := pack_field [(2, q.toNat), (4, 6), (5, 13)] [(2, 2)] [(6, d.toNat), (6, a.toNat), (6, 0)] 18 2 hp hf rfl rfl rfl rfl rfl rfl
  have := q.isLt
  have := d.isLt
  have := a.isLt
  have h5 : ¬(x % 64 = 0 ∧ x / 2048 % 2 = 0 ∧ x / 262144 % 4 = 0) := by omega
  have e0 : BitVec.ofNat 2 (x / 536870912) = q := ofNat_field [] q [(4, 6), (5, 13), (2, 2), (6, d.toNat), (6, a.toNat), (6, 0)] 29 hp hf rfl rfl rfl
  have e1 : BitVec.ofNat 6 (x / 4096) = d := ofNat_field [(2, q.toNat), (4, 6), (5, 13), (2, 2)] d [(6, a.toNat), (6, 0)] 12 hp hf rfl rfl rfl
  have e2 : BitVec.ofNat 6 (x / 64) = a := ofNat_field [(2, q.toNat), (4, 6), (5, 13), (2, 2), (6, d.toNat)] a [(6, 0)] 6 hp hf rfl rfl rfl
  refine ⟨pack_bound 31 hp hf rfl, (.vbcastCol q d a), ?_, rfl, ?_⟩
  · simp only [decodeNat, decodeVI, h0, h1, h2, h4, if_neg h5, ↓reduceIte, and_self, and_true, true_and, and_false, false_and, one_ne_zero, OfNat.ofNat_ne_zero]
    rw [e0, e1, e2]
    try rfl
  · rfl

theorem EncodeDecode.vmov (q : BitVec 2) (d : BitVec 6) (a : BitVec 6) : EncodeDecode.Statement (.vmov q d a) := by
  intro hwf x hx
  replace hx : 216006656 + q.toNat * 536870912 + d.toNat * 4096 + a.toNat * 64 = x := Option.some.inj hx
  have hp : x = pack [(2, q.toNat), (4, 6), (5, 14), (2, 0), (6, d.toNat), (6, a.toNat), (6, 0)] := by
    rw [pack_cons 2 29 (pack_cons 4 25 (pack_cons 5 20 (pack_cons 2 18 (pack_cons 6 12 (pack_cons 6 6 (pack_cons 6 0 pack_nil rfl (rfl : 1 = 2 ^ 0)) rfl (rfl : 64 = 2 ^ 6)) rfl (rfl : 4096 = 2 ^ 12)) rfl (rfl : 262144 = 2 ^ 18)) rfl (rfl : 1048576 = 2 ^ 20)) rfl (rfl : 33554432 = 2 ^ 25)) rfl (rfl : 536870912 = 2 ^ 29)]
    omega
  have hf : Fits [(2, q.toNat), (4, 6), (5, 14), (2, 0), (6, d.toNat), (6, a.toNat), (6, 0)] := ⟨q.isLt, by decide, by decide, by decide, d.isLt, a.isLt, by decide, trivial⟩
  have h0 : x / 33554432 % 16 = 6 := pack_field [(2, q.toNat)] [(4, 6)] [(5, 14), (2, 0), (6, d.toNat), (6, a.toNat), (6, 0)] 25 4 hp hf rfl rfl rfl rfl rfl rfl
  have h1 : x / 1048576 % 32 = 14 := pack_field [(2, q.toNat), (4, 6)] [(5, 14)] [(2, 0), (6, d.toNat), (6, a.toNat), (6, 0)] 20 5 hp hf rfl rfl rfl rfl rfl rfl
  have h2 : x % 64 = 0 := pack_low [(2, q.toNat), (4, 6), (5, 14), (2, 0), (6, d.toNat), (6, a.toNat)] [(6, 0)] 6 hp hf rfl rfl rfl rfl
  have h3 : x / 262144 % 4 = 0 := pack_field [(2, q.toNat), (4, 6), (5, 14)] [(2, 0)] [(6, d.toNat), (6, a.toNat), (6, 0)] 18 2 hp hf rfl rfl rfl rfl rfl rfl
  have e0 : BitVec.ofNat 2 (x / 536870912) = q := ofNat_field [] q [(4, 6), (5, 14), (2, 0), (6, d.toNat), (6, a.toNat), (6, 0)] 29 hp hf rfl rfl rfl
  have e1 : BitVec.ofNat 6 (x / 4096) = d := ofNat_field [(2, q.toNat), (4, 6), (5, 14), (2, 0)] d [(6, a.toNat), (6, 0)] 12 hp hf rfl rfl rfl
  have e2 : BitVec.ofNat 6 (x / 64) = a := ofNat_field [(2, q.toNat), (4, 6), (5, 14), (2, 0), (6, d.toNat)] a [(6, 0)] 6 hp hf rfl rfl rfl
  refine ⟨pack_bound 31 hp hf rfl, (.vmov q d a), ?_, rfl, ?_⟩
  · simp only [decodeNat, decodeVI, h0, h1, h2, h3, ↓reduceIte, and_self, and_true, true_and, and_false, false_and, one_ne_zero, OfNat.ofNat_ne_zero]
    rw [e0, e1, e2]
    try rfl
  · rfl

theorem EncodeDecode.vredsum (q : BitVec 2) (x0 : BitVec 2) (d : BitVec 6) (a : BitVec 6) (u : BitVec 1) : EncodeDecode.Statement (.vredsum q x0 d a u) := by
  intro hwf x hx
  replace hx : 217055232 + q.toNat * 536870912 + x0.toNat * 262144 + d.toNat * 4096 + a.toNat * 64 + u.toNat = x := Option.some.inj hx
  have hp : x = pack [(2, q.toNat), (4, 6), (5, 15), (2, x0.toNat), (6, d.toNat), (6, a.toNat), (5, 0), (1, u.toNat)] := by
    rw [pack_cons 2 29 (pack_cons 4 25 (pack_cons 5 20 (pack_cons 2 18 (pack_cons 6 12 (pack_cons 6 6 (pack_cons 5 1 (pack_cons 1 0 pack_nil rfl (rfl : 1 = 2 ^ 0)) rfl (rfl : 2 = 2 ^ 1)) rfl (rfl : 64 = 2 ^ 6)) rfl (rfl : 4096 = 2 ^ 12)) rfl (rfl : 262144 = 2 ^ 18)) rfl (rfl : 1048576 = 2 ^ 20)) rfl (rfl : 33554432 = 2 ^ 25)) rfl (rfl : 536870912 = 2 ^ 29)]
    omega
  have hf : Fits [(2, q.toNat), (4, 6), (5, 15), (2, x0.toNat), (6, d.toNat), (6, a.toNat), (5, 0), (1, u.toNat)] := ⟨q.isLt, by decide, by decide, x0.isLt, d.isLt, a.isLt, by decide, u.isLt, trivial⟩
  have h0 : x / 33554432 % 16 = 6 := pack_field [(2, q.toNat)] [(4, 6)] [(5, 15), (2, x0.toNat), (6, d.toNat), (6, a.toNat), (5, 0), (1, u.toNat)] 25 4 hp hf rfl rfl rfl rfl rfl rfl
  have h1 : x / 1048576 % 32 = 15 := pack_field [(2, q.toNat), (4, 6)] [(5, 15)] [(2, x0.toNat), (6, d.toNat), (6, a.toNat), (5, 0), (1, u.toNat)] 20 5 hp hf rfl rfl rfl rfl rfl rfl
  have h2 : x / 2 % 32 = 0 := pack_field [(2, q.toNat), (4, 6), (5, 15), (2, x0.toNat), (6, d.toNat), (6, a.toNat)] [(5, 0)] [(1, u.toNat)] 1 5 hp hf rfl rfl rfl rfl rfl rfl
  have e0 : BitVec.ofNat 2 (x / 536870912) = q := ofNat_field [] q [(4, 6), (5, 15), (2, x0.toNat), (6, d.toNat), (6, a.toNat), (5, 0), (1, u.toNat)] 29 hp hf rfl rfl rfl
  have e1 : BitVec.ofNat 2 (x / 262144) = x0 := ofNat_field [(2, q.toNat), (4, 6), (5, 15)] x0 [(6, d.toNat), (6, a.toNat), (5, 0), (1, u.toNat)] 18 hp hf rfl rfl rfl
  have e2 : BitVec.ofNat 6 (x / 4096) = d := ofNat_field [(2, q.toNat), (4, 6), (5, 15), (2, x0.toNat)] d [(6, a.toNat), (5, 0), (1, u.toNat)] 12 hp hf rfl rfl rfl
  have e3 : BitVec.ofNat 6 (x / 64) = a := ofNat_field [(2, q.toNat), (4, 6), (5, 15), (2, x0.toNat), (6, d.toNat)] a [(5, 0), (1, u.toNat)] 6 hp hf rfl rfl rfl
  have e4 : BitVec.ofNat 1 x = u := ofNat_low [(2, q.toNat), (4, 6), (5, 15), (2, x0.toNat), (6, d.toNat), (6, a.toNat), (5, 0)] u hp hf rfl
  refine ⟨pack_bound 31 hp hf rfl, (.vredsum q x0 d a u), ?_, rfl, ?_⟩
  · simp only [decodeNat, decodeVI, h0, h1, h2, ↓reduceIte]
    rw [e0, e1, e2, e3, e4]
    try rfl
  · rfl

theorem EncodeDecode.vredmax (q : BitVec 2) (x0 : BitVec 2) (d : BitVec 6) (a : BitVec 6) (u : BitVec 1) : EncodeDecode.Statement (.vredmax q x0 d a u) := by
  intro hwf x hx
  replace hx : 218103808 + q.toNat * 536870912 + x0.toNat * 262144 + d.toNat * 4096 + a.toNat * 64 + u.toNat = x := Option.some.inj hx
  have hp : x = pack [(2, q.toNat), (4, 6), (5, 16), (2, x0.toNat), (6, d.toNat), (6, a.toNat), (5, 0), (1, u.toNat)] := by
    rw [pack_cons 2 29 (pack_cons 4 25 (pack_cons 5 20 (pack_cons 2 18 (pack_cons 6 12 (pack_cons 6 6 (pack_cons 5 1 (pack_cons 1 0 pack_nil rfl (rfl : 1 = 2 ^ 0)) rfl (rfl : 2 = 2 ^ 1)) rfl (rfl : 64 = 2 ^ 6)) rfl (rfl : 4096 = 2 ^ 12)) rfl (rfl : 262144 = 2 ^ 18)) rfl (rfl : 1048576 = 2 ^ 20)) rfl (rfl : 33554432 = 2 ^ 25)) rfl (rfl : 536870912 = 2 ^ 29)]
    omega
  have hf : Fits [(2, q.toNat), (4, 6), (5, 16), (2, x0.toNat), (6, d.toNat), (6, a.toNat), (5, 0), (1, u.toNat)] := ⟨q.isLt, by decide, by decide, x0.isLt, d.isLt, a.isLt, by decide, u.isLt, trivial⟩
  have h0 : x / 33554432 % 16 = 6 := pack_field [(2, q.toNat)] [(4, 6)] [(5, 16), (2, x0.toNat), (6, d.toNat), (6, a.toNat), (5, 0), (1, u.toNat)] 25 4 hp hf rfl rfl rfl rfl rfl rfl
  have h1 : x / 1048576 % 32 = 16 := pack_field [(2, q.toNat), (4, 6)] [(5, 16)] [(2, x0.toNat), (6, d.toNat), (6, a.toNat), (5, 0), (1, u.toNat)] 20 5 hp hf rfl rfl rfl rfl rfl rfl
  have h2 : x / 2 % 32 = 0 := pack_field [(2, q.toNat), (4, 6), (5, 16), (2, x0.toNat), (6, d.toNat), (6, a.toNat)] [(5, 0)] [(1, u.toNat)] 1 5 hp hf rfl rfl rfl rfl rfl rfl
  have e0 : BitVec.ofNat 2 (x / 536870912) = q := ofNat_field [] q [(4, 6), (5, 16), (2, x0.toNat), (6, d.toNat), (6, a.toNat), (5, 0), (1, u.toNat)] 29 hp hf rfl rfl rfl
  have e1 : BitVec.ofNat 2 (x / 262144) = x0 := ofNat_field [(2, q.toNat), (4, 6), (5, 16)] x0 [(6, d.toNat), (6, a.toNat), (5, 0), (1, u.toNat)] 18 hp hf rfl rfl rfl
  have e2 : BitVec.ofNat 6 (x / 4096) = d := ofNat_field [(2, q.toNat), (4, 6), (5, 16), (2, x0.toNat)] d [(6, a.toNat), (5, 0), (1, u.toNat)] 12 hp hf rfl rfl rfl
  have e3 : BitVec.ofNat 6 (x / 64) = a := ofNat_field [(2, q.toNat), (4, 6), (5, 16), (2, x0.toNat), (6, d.toNat)] a [(5, 0), (1, u.toNat)] 6 hp hf rfl rfl rfl
  have e4 : BitVec.ofNat 1 x = u := ofNat_low [(2, q.toNat), (4, 6), (5, 16), (2, x0.toNat), (6, d.toNat), (6, a.toNat), (5, 0)] u hp hf rfl
  refine ⟨pack_bound 31 hp hf rfl, (.vredmax q x0 d a u), ?_, rfl, ?_⟩
  · simp only [decodeNat, decodeVI, h0, h1, h2, ↓reduceIte]
    rw [e0, e1, e2, e3, e4]
    try rfl
  · rfl

theorem EncodeDecode.vredmin (q : BitVec 2) (x0 : BitVec 2) (d : BitVec 6) (a : BitVec 6) (u : BitVec 1) : EncodeDecode.Statement (.vredmin q x0 d a u) := by
  intro hwf x hx
  replace hx : 219152384 + q.toNat * 536870912 + x0.toNat * 262144 + d.toNat * 4096 + a.toNat * 64 + u.toNat = x := Option.some.inj hx
  have hp : x = pack [(2, q.toNat), (4, 6), (5, 17), (2, x0.toNat), (6, d.toNat), (6, a.toNat), (5, 0), (1, u.toNat)] := by
    rw [pack_cons 2 29 (pack_cons 4 25 (pack_cons 5 20 (pack_cons 2 18 (pack_cons 6 12 (pack_cons 6 6 (pack_cons 5 1 (pack_cons 1 0 pack_nil rfl (rfl : 1 = 2 ^ 0)) rfl (rfl : 2 = 2 ^ 1)) rfl (rfl : 64 = 2 ^ 6)) rfl (rfl : 4096 = 2 ^ 12)) rfl (rfl : 262144 = 2 ^ 18)) rfl (rfl : 1048576 = 2 ^ 20)) rfl (rfl : 33554432 = 2 ^ 25)) rfl (rfl : 536870912 = 2 ^ 29)]
    omega
  have hf : Fits [(2, q.toNat), (4, 6), (5, 17), (2, x0.toNat), (6, d.toNat), (6, a.toNat), (5, 0), (1, u.toNat)] := ⟨q.isLt, by decide, by decide, x0.isLt, d.isLt, a.isLt, by decide, u.isLt, trivial⟩
  have h0 : x / 33554432 % 16 = 6 := pack_field [(2, q.toNat)] [(4, 6)] [(5, 17), (2, x0.toNat), (6, d.toNat), (6, a.toNat), (5, 0), (1, u.toNat)] 25 4 hp hf rfl rfl rfl rfl rfl rfl
  have h1 : x / 1048576 % 32 = 17 := pack_field [(2, q.toNat), (4, 6)] [(5, 17)] [(2, x0.toNat), (6, d.toNat), (6, a.toNat), (5, 0), (1, u.toNat)] 20 5 hp hf rfl rfl rfl rfl rfl rfl
  have h2 : x / 2 % 32 = 0 := pack_field [(2, q.toNat), (4, 6), (5, 17), (2, x0.toNat), (6, d.toNat), (6, a.toNat)] [(5, 0)] [(1, u.toNat)] 1 5 hp hf rfl rfl rfl rfl rfl rfl
  have e0 : BitVec.ofNat 2 (x / 536870912) = q := ofNat_field [] q [(4, 6), (5, 17), (2, x0.toNat), (6, d.toNat), (6, a.toNat), (5, 0), (1, u.toNat)] 29 hp hf rfl rfl rfl
  have e1 : BitVec.ofNat 2 (x / 262144) = x0 := ofNat_field [(2, q.toNat), (4, 6), (5, 17)] x0 [(6, d.toNat), (6, a.toNat), (5, 0), (1, u.toNat)] 18 hp hf rfl rfl rfl
  have e2 : BitVec.ofNat 6 (x / 4096) = d := ofNat_field [(2, q.toNat), (4, 6), (5, 17), (2, x0.toNat)] d [(6, a.toNat), (5, 0), (1, u.toNat)] 12 hp hf rfl rfl rfl
  have e3 : BitVec.ofNat 6 (x / 64) = a := ofNat_field [(2, q.toNat), (4, 6), (5, 17), (2, x0.toNat), (6, d.toNat)] a [(5, 0), (1, u.toNat)] 6 hp hf rfl rfl rfl
  have e4 : BitVec.ofNat 1 x = u := ofNat_low [(2, q.toNat), (4, 6), (5, 17), (2, x0.toNat), (6, d.toNat), (6, a.toNat), (5, 0)] u hp hf rfl
  refine ⟨pack_bound 31 hp hf rfl, (.vredmin q x0 d a u), ?_, rfl, ?_⟩
  · simp only [decodeNat, decodeVI, h0, h1, h2, ↓reduceIte]
    rw [e0, e1, e2, e3, e4]
    try rfl
  · rfl

theorem EncodeDecode.vabsmax (q : BitVec 2) (x0 : BitVec 2) (d : BitVec 6) (a : BitVec 6) : EncodeDecode.Statement (.vabsmax q x0 d a) := by
  intro hwf x hx
  replace hx : 220200960 + q.toNat * 536870912 + x0.toNat * 262144 + d.toNat * 4096 + a.toNat * 64 = x := Option.some.inj hx
  have hp : x = pack [(2, q.toNat), (4, 6), (5, 18), (2, x0.toNat), (6, d.toNat), (6, a.toNat), (6, 0)] := by
    rw [pack_cons 2 29 (pack_cons 4 25 (pack_cons 5 20 (pack_cons 2 18 (pack_cons 6 12 (pack_cons 6 6 (pack_cons 6 0 pack_nil rfl (rfl : 1 = 2 ^ 0)) rfl (rfl : 64 = 2 ^ 6)) rfl (rfl : 4096 = 2 ^ 12)) rfl (rfl : 262144 = 2 ^ 18)) rfl (rfl : 1048576 = 2 ^ 20)) rfl (rfl : 33554432 = 2 ^ 25)) rfl (rfl : 536870912 = 2 ^ 29)]
    omega
  have hf : Fits [(2, q.toNat), (4, 6), (5, 18), (2, x0.toNat), (6, d.toNat), (6, a.toNat), (6, 0)] := ⟨q.isLt, by decide, by decide, x0.isLt, d.isLt, a.isLt, by decide, trivial⟩
  have h0 : x / 33554432 % 16 = 6 := pack_field [(2, q.toNat)] [(4, 6)] [(5, 18), (2, x0.toNat), (6, d.toNat), (6, a.toNat), (6, 0)] 25 4 hp hf rfl rfl rfl rfl rfl rfl
  have h1 : x / 1048576 % 32 = 18 := pack_field [(2, q.toNat), (4, 6)] [(5, 18)] [(2, x0.toNat), (6, d.toNat), (6, a.toNat), (6, 0)] 20 5 hp hf rfl rfl rfl rfl rfl rfl
  have h2 : x % 64 = 0 := pack_low [(2, q.toNat), (4, 6), (5, 18), (2, x0.toNat), (6, d.toNat), (6, a.toNat)] [(6, 0)] 6 hp hf rfl rfl rfl rfl
  have e0 : BitVec.ofNat 2 (x / 536870912) = q := ofNat_field [] q [(4, 6), (5, 18), (2, x0.toNat), (6, d.toNat), (6, a.toNat), (6, 0)] 29 hp hf rfl rfl rfl
  have e1 : BitVec.ofNat 2 (x / 262144) = x0 := ofNat_field [(2, q.toNat), (4, 6), (5, 18)] x0 [(6, d.toNat), (6, a.toNat), (6, 0)] 18 hp hf rfl rfl rfl
  have e2 : BitVec.ofNat 6 (x / 4096) = d := ofNat_field [(2, q.toNat), (4, 6), (5, 18), (2, x0.toNat)] d [(6, a.toNat), (6, 0)] 12 hp hf rfl rfl rfl
  have e3 : BitVec.ofNat 6 (x / 64) = a := ofNat_field [(2, q.toNat), (4, 6), (5, 18), (2, x0.toNat), (6, d.toNat)] a [(6, 0)] 6 hp hf rfl rfl rfl
  refine ⟨pack_bound 31 hp hf rfl, (.vabsmax q x0 d a), ?_, rfl, ?_⟩
  · simp only [decodeNat, decodeVI, h0, h1, h2, ↓reduceIte]
    rw [e0, e1, e2, e3]
    try rfl
  · rfl

theorem EncodeDecode.vpart (q : BitVec 2) (n : BitVec 1) (d : BitVec 6) (a : BitVec 6) : EncodeDecode.Statement (.vpart q n d a) := by
  intro hwf x hx
  replace hx : 221249536 + q.toNat * 536870912 + n.toNat * 262144 + d.toNat * 4096 + a.toNat * 64 = x := Option.some.inj hx
  have hp : x = pack [(2, q.toNat), (4, 6), (5, 19), (1, 0), (1, n.toNat), (6, d.toNat), (6, a.toNat), (6, 0)] := by
    rw [pack_cons 2 29 (pack_cons 4 25 (pack_cons 5 20 (pack_cons 1 19 (pack_cons 1 18 (pack_cons 6 12 (pack_cons 6 6 (pack_cons 6 0 pack_nil rfl (rfl : 1 = 2 ^ 0)) rfl (rfl : 64 = 2 ^ 6)) rfl (rfl : 4096 = 2 ^ 12)) rfl (rfl : 262144 = 2 ^ 18)) rfl (rfl : 524288 = 2 ^ 19)) rfl (rfl : 1048576 = 2 ^ 20)) rfl (rfl : 33554432 = 2 ^ 25)) rfl (rfl : 536870912 = 2 ^ 29)]
    omega
  have hf : Fits [(2, q.toNat), (4, 6), (5, 19), (1, 0), (1, n.toNat), (6, d.toNat), (6, a.toNat), (6, 0)] := ⟨q.isLt, by decide, by decide, by decide, n.isLt, d.isLt, a.isLt, by decide, trivial⟩
  have h0 : x / 33554432 % 16 = 6 := pack_field [(2, q.toNat)] [(4, 6)] [(5, 19), (1, 0), (1, n.toNat), (6, d.toNat), (6, a.toNat), (6, 0)] 25 4 hp hf rfl rfl rfl rfl rfl rfl
  have h1 : x / 1048576 % 32 = 19 := pack_field [(2, q.toNat), (4, 6)] [(5, 19)] [(1, 0), (1, n.toNat), (6, d.toNat), (6, a.toNat), (6, 0)] 20 5 hp hf rfl rfl rfl rfl rfl rfl
  have h2 : x % 64 = 0 := pack_low [(2, q.toNat), (4, 6), (5, 19), (1, 0), (1, n.toNat), (6, d.toNat), (6, a.toNat)] [(6, 0)] 6 hp hf rfl rfl rfl rfl
  have h3 : x / 524288 % 2 = 0 := pack_field [(2, q.toNat), (4, 6), (5, 19)] [(1, 0)] [(1, n.toNat), (6, d.toNat), (6, a.toNat), (6, 0)] 19 1 hp hf rfl rfl rfl rfl rfl rfl
  have e0 : BitVec.ofNat 2 (x / 536870912) = q := ofNat_field [] q [(4, 6), (5, 19), (1, 0), (1, n.toNat), (6, d.toNat), (6, a.toNat), (6, 0)] 29 hp hf rfl rfl rfl
  have e1 : BitVec.ofNat 1 (x / 262144) = n := ofNat_field [(2, q.toNat), (4, 6), (5, 19), (1, 0)] n [(6, d.toNat), (6, a.toNat), (6, 0)] 18 hp hf rfl rfl rfl
  have e2 : BitVec.ofNat 6 (x / 4096) = d := ofNat_field [(2, q.toNat), (4, 6), (5, 19), (1, 0), (1, n.toNat)] d [(6, a.toNat), (6, 0)] 12 hp hf rfl rfl rfl
  have e3 : BitVec.ofNat 6 (x / 64) = a := ofNat_field [(2, q.toNat), (4, 6), (5, 19), (1, 0), (1, n.toNat), (6, d.toNat)] a [(6, 0)] 6 hp hf rfl rfl rfl
  refine ⟨pack_bound 31 hp hf rfl, (.vpart q n d a), ?_, rfl, ?_⟩
  · simp only [decodeNat, decodeVI, h0, h1, h2, h3, ↓reduceIte, and_self, and_true, true_and, and_false, false_and, one_ne_zero, OfNat.ofNat_ne_zero]
    rw [e0, e1, e2, e3]
    try rfl
  · rfl

theorem EncodeDecode.vscan (q : BitVec 2) (x0 : BitVec 2) (d : BitVec 6) (a : BitVec 6) (s : BitVec 1) (u : BitVec 1) : EncodeDecode.Statement (.vscan q x0 d a s u) := by
  intro hwf x hx
  replace hx : 222298112 + q.toNat * 536870912 + x0.toNat * 262144 + d.toNat * 4096 + a.toNat * 64 + s.toNat * 2 + u.toNat = x := Option.some.inj hx
  have hp : x = pack [(2, q.toNat), (4, 6), (5, 20), (2, x0.toNat), (6, d.toNat), (6, a.toNat), (4, 0), (1, s.toNat), (1, u.toNat)] := by
    rw [pack_cons 2 29 (pack_cons 4 25 (pack_cons 5 20 (pack_cons 2 18 (pack_cons 6 12 (pack_cons 6 6 (pack_cons 4 2 (pack_cons 1 1 (pack_cons 1 0 pack_nil rfl (rfl : 1 = 2 ^ 0)) rfl (rfl : 2 = 2 ^ 1)) rfl (rfl : 4 = 2 ^ 2)) rfl (rfl : 64 = 2 ^ 6)) rfl (rfl : 4096 = 2 ^ 12)) rfl (rfl : 262144 = 2 ^ 18)) rfl (rfl : 1048576 = 2 ^ 20)) rfl (rfl : 33554432 = 2 ^ 25)) rfl (rfl : 536870912 = 2 ^ 29)]
    omega
  have hf : Fits [(2, q.toNat), (4, 6), (5, 20), (2, x0.toNat), (6, d.toNat), (6, a.toNat), (4, 0), (1, s.toNat), (1, u.toNat)] := ⟨q.isLt, by decide, by decide, x0.isLt, d.isLt, a.isLt, by decide, s.isLt, u.isLt, trivial⟩
  have h0 : x / 33554432 % 16 = 6 := pack_field [(2, q.toNat)] [(4, 6)] [(5, 20), (2, x0.toNat), (6, d.toNat), (6, a.toNat), (4, 0), (1, s.toNat), (1, u.toNat)] 25 4 hp hf rfl rfl rfl rfl rfl rfl
  have h1 : x / 1048576 % 32 = 20 := pack_field [(2, q.toNat), (4, 6)] [(5, 20)] [(2, x0.toNat), (6, d.toNat), (6, a.toNat), (4, 0), (1, s.toNat), (1, u.toNat)] 20 5 hp hf rfl rfl rfl rfl rfl rfl
  have h2 : x / 4 % 16 = 0 := pack_field [(2, q.toNat), (4, 6), (5, 20), (2, x0.toNat), (6, d.toNat), (6, a.toNat)] [(4, 0)] [(1, s.toNat), (1, u.toNat)] 2 4 hp hf rfl rfl rfl rfl rfl rfl
  have e0 : BitVec.ofNat 2 (x / 536870912) = q := ofNat_field [] q [(4, 6), (5, 20), (2, x0.toNat), (6, d.toNat), (6, a.toNat), (4, 0), (1, s.toNat), (1, u.toNat)] 29 hp hf rfl rfl rfl
  have e1 : BitVec.ofNat 2 (x / 262144) = x0 := ofNat_field [(2, q.toNat), (4, 6), (5, 20)] x0 [(6, d.toNat), (6, a.toNat), (4, 0), (1, s.toNat), (1, u.toNat)] 18 hp hf rfl rfl rfl
  have e2 : BitVec.ofNat 6 (x / 4096) = d := ofNat_field [(2, q.toNat), (4, 6), (5, 20), (2, x0.toNat)] d [(6, a.toNat), (4, 0), (1, s.toNat), (1, u.toNat)] 12 hp hf rfl rfl rfl
  have e3 : BitVec.ofNat 6 (x / 64) = a := ofNat_field [(2, q.toNat), (4, 6), (5, 20), (2, x0.toNat), (6, d.toNat)] a [(4, 0), (1, s.toNat), (1, u.toNat)] 6 hp hf rfl rfl rfl
  have e4 : BitVec.ofNat 1 (x / 2) = s := ofNat_field [(2, q.toNat), (4, 6), (5, 20), (2, x0.toNat), (6, d.toNat), (6, a.toNat), (4, 0)] s [(1, u.toNat)] 1 hp hf rfl rfl rfl
  have e5 : BitVec.ofNat 1 x = u := ofNat_low [(2, q.toNat), (4, 6), (5, 20), (2, x0.toNat), (6, d.toNat), (6, a.toNat), (4, 0), (1, s.toNat)] u hp hf rfl
  refine ⟨pack_bound 31 hp hf rfl, (.vscan q x0 d a s u), ?_, rfl, ?_⟩
  · simp only [decodeNat, decodeVI, h0, h1, h2, ↓reduceIte]
    rw [e0, e1, e2, e3, e4, e5]
    try rfl
  · rfl

theorem EncodeDecode.vlut3 (q : BitVec 2) (l : BitVec 8) (d : BitVec 5) (a : BitVec 6) (b : BitVec 5) : EncodeDecode.Statement (.vlut3 q l d a b) := by
  intro hwf x hx
  replace hx : 234881024 + q.toNat * 536870912 + l.toNat * 65536 + d.toNat * 2048 + a.toNat * 32 + b.toNat = x := Option.some.inj hx
  have hp : x = pack [(2, q.toNat), (4, 7), (1, 0), (8, l.toNat), (5, d.toNat), (6, a.toNat), (5, b.toNat)] := by
    rw [pack_cons 2 29 (pack_cons 4 25 (pack_cons 1 24 (pack_cons 8 16 (pack_cons 5 11 (pack_cons 6 5 (pack_cons 5 0 pack_nil rfl (rfl : 1 = 2 ^ 0)) rfl (rfl : 32 = 2 ^ 5)) rfl (rfl : 2048 = 2 ^ 11)) rfl (rfl : 65536 = 2 ^ 16)) rfl (rfl : 16777216 = 2 ^ 24)) rfl (rfl : 33554432 = 2 ^ 25)) rfl (rfl : 536870912 = 2 ^ 29)]
    omega
  have hf : Fits [(2, q.toNat), (4, 7), (1, 0), (8, l.toNat), (5, d.toNat), (6, a.toNat), (5, b.toNat)] := ⟨q.isLt, by decide, by decide, l.isLt, d.isLt, a.isLt, b.isLt, trivial⟩
  have h0 : x / 33554432 % 16 = 7 := pack_field [(2, q.toNat)] [(4, 7)] [(1, 0), (8, l.toNat), (5, d.toNat), (6, a.toNat), (5, b.toNat)] 25 4 hp hf rfl rfl rfl rfl rfl rfl
  have h1 : x / 16777216 % 2 = 0 := pack_field [(2, q.toNat), (4, 7)] [(1, 0)] [(8, l.toNat), (5, d.toNat), (6, a.toNat), (5, b.toNat)] 24 1 hp hf rfl rfl rfl rfl rfl rfl
  have e0 : BitVec.ofNat 2 (x / 536870912) = q := ofNat_field [] q [(4, 7), (1, 0), (8, l.toNat), (5, d.toNat), (6, a.toNat), (5, b.toNat)] 29 hp hf rfl rfl rfl
  have e1 : BitVec.ofNat 8 (x / 65536) = l := ofNat_field [(2, q.toNat), (4, 7), (1, 0)] l [(5, d.toNat), (6, a.toNat), (5, b.toNat)] 16 hp hf rfl rfl rfl
  have e2 : BitVec.ofNat 5 (x / 2048) = d := ofNat_field [(2, q.toNat), (4, 7), (1, 0), (8, l.toNat)] d [(6, a.toNat), (5, b.toNat)] 11 hp hf rfl rfl rfl
  have e3 : BitVec.ofNat 6 (x / 32) = a := ofNat_field [(2, q.toNat), (4, 7), (1, 0), (8, l.toNat), (5, d.toNat)] a [(5, b.toNat)] 5 hp hf rfl rfl rfl
  have e4 : BitVec.ofNat 5 x = b := ofNat_low [(2, q.toNat), (4, 7), (1, 0), (8, l.toNat), (5, d.toNat), (6, a.toNat)] b hp hf rfl
  refine ⟨pack_bound 31 hp hf rfl, (.vlut3 q l d a b), ?_, rfl, ?_⟩
  · simp only [decodeNat, decodeVL, h0, h1, ↓reduceIte]
    rw [e0, e1, e2, e3, e4]
    try rfl
  · rfl

theorem EncodeDecode.vfsl (q : BitVec 2) (d : BitVec 6) (a : BitVec 6) (b : BitVec 6) (n : BitVec 5) : EncodeDecode.Statement (.vfsl q d a b n) := by
  intro hwf x hx
  replace hx : 251658240 + q.toNat * 536870912 + d.toNat * 131072 + a.toNat * 2048 + b.toNat * 32 + n.toNat = x := Option.some.inj hx
  have hp : x = pack [(2, q.toNat), (4, 7), (1, 1), (1, 0), (6, d.toNat), (6, a.toNat), (6, b.toNat), (5, n.toNat)] := by
    rw [pack_cons 2 29 (pack_cons 4 25 (pack_cons 1 24 (pack_cons 1 23 (pack_cons 6 17 (pack_cons 6 11 (pack_cons 6 5 (pack_cons 5 0 pack_nil rfl (rfl : 1 = 2 ^ 0)) rfl (rfl : 32 = 2 ^ 5)) rfl (rfl : 2048 = 2 ^ 11)) rfl (rfl : 131072 = 2 ^ 17)) rfl (rfl : 8388608 = 2 ^ 23)) rfl (rfl : 16777216 = 2 ^ 24)) rfl (rfl : 33554432 = 2 ^ 25)) rfl (rfl : 536870912 = 2 ^ 29)]
    omega
  have hf : Fits [(2, q.toNat), (4, 7), (1, 1), (1, 0), (6, d.toNat), (6, a.toNat), (6, b.toNat), (5, n.toNat)] := ⟨q.isLt, by decide, by decide, by decide, d.isLt, a.isLt, b.isLt, n.isLt, trivial⟩
  have h0 : x / 33554432 % 16 = 7 := pack_field [(2, q.toNat)] [(4, 7)] [(1, 1), (1, 0), (6, d.toNat), (6, a.toNat), (6, b.toNat), (5, n.toNat)] 25 4 hp hf rfl rfl rfl rfl rfl rfl
  have h1 : x / 16777216 % 2 = 1 := pack_field [(2, q.toNat), (4, 7)] [(1, 1)] [(1, 0), (6, d.toNat), (6, a.toNat), (6, b.toNat), (5, n.toNat)] 24 1 hp hf rfl rfl rfl rfl rfl rfl
  have h2 : x / 8388608 % 4 = 2 := pack_field [(2, q.toNat), (4, 7)] [(1, 1), (1, 0)] [(6, d.toNat), (6, a.toNat), (6, b.toNat), (5, n.toNat)] 23 2 hp hf rfl rfl rfl rfl rfl rfl
  have e0 : BitVec.ofNat 2 (x / 536870912) = q := ofNat_field [] q [(4, 7), (1, 1), (1, 0), (6, d.toNat), (6, a.toNat), (6, b.toNat), (5, n.toNat)] 29 hp hf rfl rfl rfl
  have e1 : BitVec.ofNat 6 (x / 131072) = d := ofNat_field [(2, q.toNat), (4, 7), (1, 1), (1, 0)] d [(6, a.toNat), (6, b.toNat), (5, n.toNat)] 17 hp hf rfl rfl rfl
  have e2 : BitVec.ofNat 6 (x / 2048) = a := ofNat_field [(2, q.toNat), (4, 7), (1, 1), (1, 0), (6, d.toNat)] a [(6, b.toNat), (5, n.toNat)] 11 hp hf rfl rfl rfl
  have e3 : BitVec.ofNat 6 (x / 32) = b := ofNat_field [(2, q.toNat), (4, 7), (1, 1), (1, 0), (6, d.toNat), (6, a.toNat)] b [(5, n.toNat)] 5 hp hf rfl rfl rfl
  have e4 : BitVec.ofNat 5 x = n := ofNat_low [(2, q.toNat), (4, 7), (1, 1), (1, 0), (6, d.toNat), (6, a.toNat), (6, b.toNat)] n hp hf rfl
  refine ⟨pack_bound 31 hp hf rfl, (.vfsl q d a b n), ?_, rfl, ?_⟩
  · simp only [decodeNat, decodeVL, h0, h1, h2, ↓reduceIte]
    rw [e0, e1, e2, e3, e4]
    try rfl
  · rfl

theorem EncodeDecode.vfsr (q : BitVec 2) (d : BitVec 6) (a : BitVec 6) (b : BitVec 6) (n : BitVec 5) : EncodeDecode.Statement (.vfsr q d a b n) := by
  intro hwf x hx
  replace hx : 260046848 + q.toNat * 536870912 + d.toNat * 131072 + a.toNat * 2048 + b.toNat * 32 + n.toNat = x := Option.some.inj hx
  have hp : x = pack [(2, q.toNat), (4, 7), (1, 1), (1, 1), (6, d.toNat), (6, a.toNat), (6, b.toNat), (5, n.toNat)] := by
    rw [pack_cons 2 29 (pack_cons 4 25 (pack_cons 1 24 (pack_cons 1 23 (pack_cons 6 17 (pack_cons 6 11 (pack_cons 6 5 (pack_cons 5 0 pack_nil rfl (rfl : 1 = 2 ^ 0)) rfl (rfl : 32 = 2 ^ 5)) rfl (rfl : 2048 = 2 ^ 11)) rfl (rfl : 131072 = 2 ^ 17)) rfl (rfl : 8388608 = 2 ^ 23)) rfl (rfl : 16777216 = 2 ^ 24)) rfl (rfl : 33554432 = 2 ^ 25)) rfl (rfl : 536870912 = 2 ^ 29)]
    omega
  have hf : Fits [(2, q.toNat), (4, 7), (1, 1), (1, 1), (6, d.toNat), (6, a.toNat), (6, b.toNat), (5, n.toNat)] := ⟨q.isLt, by decide, by decide, by decide, d.isLt, a.isLt, b.isLt, n.isLt, trivial⟩
  have h0 : x / 33554432 % 16 = 7 := pack_field [(2, q.toNat)] [(4, 7)] [(1, 1), (1, 1), (6, d.toNat), (6, a.toNat), (6, b.toNat), (5, n.toNat)] 25 4 hp hf rfl rfl rfl rfl rfl rfl
  have h1 : x / 16777216 % 2 = 1 := pack_field [(2, q.toNat), (4, 7)] [(1, 1)] [(1, 1), (6, d.toNat), (6, a.toNat), (6, b.toNat), (5, n.toNat)] 24 1 hp hf rfl rfl rfl rfl rfl rfl
  have h2 : x / 8388608 % 4 = 3 := pack_field [(2, q.toNat), (4, 7)] [(1, 1), (1, 1)] [(6, d.toNat), (6, a.toNat), (6, b.toNat), (5, n.toNat)] 23 2 hp hf rfl rfl rfl rfl rfl rfl
  have e0 : BitVec.ofNat 2 (x / 536870912) = q := ofNat_field [] q [(4, 7), (1, 1), (1, 1), (6, d.toNat), (6, a.toNat), (6, b.toNat), (5, n.toNat)] 29 hp hf rfl rfl rfl
  have e1 : BitVec.ofNat 6 (x / 131072) = d := ofNat_field [(2, q.toNat), (4, 7), (1, 1), (1, 1)] d [(6, a.toNat), (6, b.toNat), (5, n.toNat)] 17 hp hf rfl rfl rfl
  have e2 : BitVec.ofNat 6 (x / 2048) = a := ofNat_field [(2, q.toNat), (4, 7), (1, 1), (1, 1), (6, d.toNat)] a [(6, b.toNat), (5, n.toNat)] 11 hp hf rfl rfl rfl
  have e3 : BitVec.ofNat 6 (x / 32) = b := ofNat_field [(2, q.toNat), (4, 7), (1, 1), (1, 1), (6, d.toNat), (6, a.toNat)] b [(5, n.toNat)] 5 hp hf rfl rfl rfl
  have e4 : BitVec.ofNat 5 x = n := ofNat_low [(2, q.toNat), (4, 7), (1, 1), (1, 1), (6, d.toNat), (6, a.toNat), (6, b.toNat)] n hp hf rfl
  refine ⟨pack_bound 31 hp hf rfl, (.vfsr q d a b n), ?_, rfl, ?_⟩
  · simp only [decodeNat, decodeVL, h0, h1, h2, ↓reduceIte]
    rw [e0, e1, e2, e3, e4]
    try rfl
  · rfl

theorem EncodeDecode.vexp2 (q : BitVec 2) (d : BitVec 6) (a : BitVec 6) (f : BitVec 5) (ext : Option (BitVec 25)) : EncodeDecode.Statement (.vexp2 q d a f ext) := by
  intro hwf x hx
  replace hx : 268435456 + q.toNat * 536870912 + d.toNat * 4096 + a.toNat * 64 + f.toNat = x := Option.some.inj hx
  have hp : x = pack [(2, q.toNat), (4, 8), (5, 0), (2, 0), (6, d.toNat), (6, a.toNat), (1, 0), (5, f.toNat)] := by
    rw [pack_cons 2 29 (pack_cons 4 25 (pack_cons 5 20 (pack_cons 2 18 (pack_cons 6 12 (pack_cons 6 6 (pack_cons 1 5 (pack_cons 5 0 pack_nil rfl (rfl : 1 = 2 ^ 0)) rfl (rfl : 32 = 2 ^ 5)) rfl (rfl : 64 = 2 ^ 6)) rfl (rfl : 4096 = 2 ^ 12)) rfl (rfl : 262144 = 2 ^ 18)) rfl (rfl : 1048576 = 2 ^ 20)) rfl (rfl : 33554432 = 2 ^ 25)) rfl (rfl : 536870912 = 2 ^ 29)]
    omega
  have hf : Fits [(2, q.toNat), (4, 8), (5, 0), (2, 0), (6, d.toNat), (6, a.toNat), (1, 0), (5, f.toNat)] := ⟨q.isLt, by decide, by decide, by decide, d.isLt, a.isLt, by decide, f.isLt, trivial⟩
  have h0 : x / 33554432 % 16 = 8 := pack_field [(2, q.toNat)] [(4, 8)] [(5, 0), (2, 0), (6, d.toNat), (6, a.toNat), (1, 0), (5, f.toNat)] 25 4 hp hf rfl rfl rfl rfl rfl rfl
  have h1 : x / 1048576 % 32 = 0 := pack_field [(2, q.toNat), (4, 8)] [(5, 0)] [(2, 0), (6, d.toNat), (6, a.toNat), (1, 0), (5, f.toNat)] 20 5 hp hf rfl rfl rfl rfl rfl rfl
  have h2 : x / 32 % 2 = 0 := pack_field [(2, q.toNat), (4, 8), (5, 0), (2, 0), (6, d.toNat), (6, a.toNat)] [(1, 0)] [(5, f.toNat)] 5 1 hp hf rfl rfl rfl rfl rfl rfl
  have h3 : x / 262144 % 4 = 0 := pack_field [(2, q.toNat), (4, 8), (5, 0)] [(2, 0)] [(6, d.toNat), (6, a.toNat), (1, 0), (5, f.toNat)] 18 2 hp hf rfl rfl rfl rfl rfl rfl
  have e0 : BitVec.ofNat 2 (x / 536870912) = q := ofNat_field [] q [(4, 8), (5, 0), (2, 0), (6, d.toNat), (6, a.toNat), (1, 0), (5, f.toNat)] 29 hp hf rfl rfl rfl
  have e1 : BitVec.ofNat 6 (x / 4096) = d := ofNat_field [(2, q.toNat), (4, 8), (5, 0), (2, 0)] d [(6, a.toNat), (1, 0), (5, f.toNat)] 12 hp hf rfl rfl rfl
  have e2 : BitVec.ofNat 6 (x / 64) = a := ofNat_field [(2, q.toNat), (4, 8), (5, 0), (2, 0), (6, d.toNat)] a [(1, 0), (5, f.toNat)] 6 hp hf rfl rfl rfl
  have e3 : BitVec.ofNat 5 x = f := ofNat_low [(2, q.toNat), (4, 8), (5, 0), (2, 0), (6, d.toNat), (6, a.toNat), (1, 0)] f hp hf rfl
  refine ⟨pack_bound 31 hp hf rfl, (.vexp2 q d a f none), ?_, rfl, ?_⟩
  · simp only [decodeNat, decodeVR, h0, h1, h2, h3, ↓reduceIte, and_self, and_true, true_and, and_false, false_and, one_ne_zero, OfNat.ofNat_ne_zero]
    rw [e0, e1, e2, e3]
    try rfl
  · cases ext <;> first | rfl

theorem EncodeDecode.vlog2 (q : BitVec 2) (d : BitVec 6) (a : BitVec 6) (f : BitVec 5) (ext : Option (BitVec 25)) : EncodeDecode.Statement (.vlog2 q d a f ext) := by
  intro hwf x hx
  replace hx : 269484032 + q.toNat * 536870912 + d.toNat * 4096 + a.toNat * 64 + f.toNat = x := Option.some.inj hx
  have hp : x = pack [(2, q.toNat), (4, 8), (5, 1), (2, 0), (6, d.toNat), (6, a.toNat), (1, 0), (5, f.toNat)] := by
    rw [pack_cons 2 29 (pack_cons 4 25 (pack_cons 5 20 (pack_cons 2 18 (pack_cons 6 12 (pack_cons 6 6 (pack_cons 1 5 (pack_cons 5 0 pack_nil rfl (rfl : 1 = 2 ^ 0)) rfl (rfl : 32 = 2 ^ 5)) rfl (rfl : 64 = 2 ^ 6)) rfl (rfl : 4096 = 2 ^ 12)) rfl (rfl : 262144 = 2 ^ 18)) rfl (rfl : 1048576 = 2 ^ 20)) rfl (rfl : 33554432 = 2 ^ 25)) rfl (rfl : 536870912 = 2 ^ 29)]
    omega
  have hf : Fits [(2, q.toNat), (4, 8), (5, 1), (2, 0), (6, d.toNat), (6, a.toNat), (1, 0), (5, f.toNat)] := ⟨q.isLt, by decide, by decide, by decide, d.isLt, a.isLt, by decide, f.isLt, trivial⟩
  have h0 : x / 33554432 % 16 = 8 := pack_field [(2, q.toNat)] [(4, 8)] [(5, 1), (2, 0), (6, d.toNat), (6, a.toNat), (1, 0), (5, f.toNat)] 25 4 hp hf rfl rfl rfl rfl rfl rfl
  have h1 : x / 1048576 % 32 = 1 := pack_field [(2, q.toNat), (4, 8)] [(5, 1)] [(2, 0), (6, d.toNat), (6, a.toNat), (1, 0), (5, f.toNat)] 20 5 hp hf rfl rfl rfl rfl rfl rfl
  have h2 : x / 32 % 2 = 0 := pack_field [(2, q.toNat), (4, 8), (5, 1), (2, 0), (6, d.toNat), (6, a.toNat)] [(1, 0)] [(5, f.toNat)] 5 1 hp hf rfl rfl rfl rfl rfl rfl
  have h3 : x / 262144 % 4 = 0 := pack_field [(2, q.toNat), (4, 8), (5, 1)] [(2, 0)] [(6, d.toNat), (6, a.toNat), (1, 0), (5, f.toNat)] 18 2 hp hf rfl rfl rfl rfl rfl rfl
  have e0 : BitVec.ofNat 2 (x / 536870912) = q := ofNat_field [] q [(4, 8), (5, 1), (2, 0), (6, d.toNat), (6, a.toNat), (1, 0), (5, f.toNat)] 29 hp hf rfl rfl rfl
  have e1 : BitVec.ofNat 6 (x / 4096) = d := ofNat_field [(2, q.toNat), (4, 8), (5, 1), (2, 0)] d [(6, a.toNat), (1, 0), (5, f.toNat)] 12 hp hf rfl rfl rfl
  have e2 : BitVec.ofNat 6 (x / 64) = a := ofNat_field [(2, q.toNat), (4, 8), (5, 1), (2, 0), (6, d.toNat)] a [(1, 0), (5, f.toNat)] 6 hp hf rfl rfl rfl
  have e3 : BitVec.ofNat 5 x = f := ofNat_low [(2, q.toNat), (4, 8), (5, 1), (2, 0), (6, d.toNat), (6, a.toNat), (1, 0)] f hp hf rfl
  refine ⟨pack_bound 31 hp hf rfl, (.vlog2 q d a f none), ?_, rfl, ?_⟩
  · simp only [decodeNat, decodeVR, h0, h1, h2, h3, ↓reduceIte, and_self, and_true, true_and, and_false, false_and, one_ne_zero, OfNat.ofNat_ne_zero]
    rw [e0, e1, e2, e3]
    try rfl
  · cases ext <;> first | rfl

theorem EncodeDecode.vrcp (q : BitVec 2) (d : BitVec 6) (a : BitVec 6) (f : BitVec 5) (ext : Option (BitVec 25)) : EncodeDecode.Statement (.vrcp q d a f ext) := by
  intro hwf x hx
  replace hx : 270532608 + q.toNat * 536870912 + d.toNat * 4096 + a.toNat * 64 + f.toNat = x := Option.some.inj hx
  have hp : x = pack [(2, q.toNat), (4, 8), (5, 2), (2, 0), (6, d.toNat), (6, a.toNat), (1, 0), (5, f.toNat)] := by
    rw [pack_cons 2 29 (pack_cons 4 25 (pack_cons 5 20 (pack_cons 2 18 (pack_cons 6 12 (pack_cons 6 6 (pack_cons 1 5 (pack_cons 5 0 pack_nil rfl (rfl : 1 = 2 ^ 0)) rfl (rfl : 32 = 2 ^ 5)) rfl (rfl : 64 = 2 ^ 6)) rfl (rfl : 4096 = 2 ^ 12)) rfl (rfl : 262144 = 2 ^ 18)) rfl (rfl : 1048576 = 2 ^ 20)) rfl (rfl : 33554432 = 2 ^ 25)) rfl (rfl : 536870912 = 2 ^ 29)]
    omega
  have hf : Fits [(2, q.toNat), (4, 8), (5, 2), (2, 0), (6, d.toNat), (6, a.toNat), (1, 0), (5, f.toNat)] := ⟨q.isLt, by decide, by decide, by decide, d.isLt, a.isLt, by decide, f.isLt, trivial⟩
  have h0 : x / 33554432 % 16 = 8 := pack_field [(2, q.toNat)] [(4, 8)] [(5, 2), (2, 0), (6, d.toNat), (6, a.toNat), (1, 0), (5, f.toNat)] 25 4 hp hf rfl rfl rfl rfl rfl rfl
  have h1 : x / 1048576 % 32 = 2 := pack_field [(2, q.toNat), (4, 8)] [(5, 2)] [(2, 0), (6, d.toNat), (6, a.toNat), (1, 0), (5, f.toNat)] 20 5 hp hf rfl rfl rfl rfl rfl rfl
  have h2 : x / 32 % 2 = 0 := pack_field [(2, q.toNat), (4, 8), (5, 2), (2, 0), (6, d.toNat), (6, a.toNat)] [(1, 0)] [(5, f.toNat)] 5 1 hp hf rfl rfl rfl rfl rfl rfl
  have h3 : x / 262144 % 4 = 0 := pack_field [(2, q.toNat), (4, 8), (5, 2)] [(2, 0)] [(6, d.toNat), (6, a.toNat), (1, 0), (5, f.toNat)] 18 2 hp hf rfl rfl rfl rfl rfl rfl
  have e0 : BitVec.ofNat 2 (x / 536870912) = q := ofNat_field [] q [(4, 8), (5, 2), (2, 0), (6, d.toNat), (6, a.toNat), (1, 0), (5, f.toNat)] 29 hp hf rfl rfl rfl
  have e1 : BitVec.ofNat 6 (x / 4096) = d := ofNat_field [(2, q.toNat), (4, 8), (5, 2), (2, 0)] d [(6, a.toNat), (1, 0), (5, f.toNat)] 12 hp hf rfl rfl rfl
  have e2 : BitVec.ofNat 6 (x / 64) = a := ofNat_field [(2, q.toNat), (4, 8), (5, 2), (2, 0), (6, d.toNat)] a [(1, 0), (5, f.toNat)] 6 hp hf rfl rfl rfl
  have e3 : BitVec.ofNat 5 x = f := ofNat_low [(2, q.toNat), (4, 8), (5, 2), (2, 0), (6, d.toNat), (6, a.toNat), (1, 0)] f hp hf rfl
  refine ⟨pack_bound 31 hp hf rfl, (.vrcp q d a f none), ?_, rfl, ?_⟩
  · simp only [decodeNat, decodeVR, h0, h1, h2, h3, ↓reduceIte, and_self, and_true, true_and, and_false, false_and, one_ne_zero, OfNat.ofNat_ne_zero]
    rw [e0, e1, e2, e3]
    try rfl
  · cases ext <;> first | rfl

theorem EncodeDecode.vrsq (q : BitVec 2) (d : BitVec 6) (a : BitVec 6) (f : BitVec 5) (ext : Option (BitVec 25)) : EncodeDecode.Statement (.vrsq q d a f ext) := by
  intro hwf x hx
  replace hx : 271581184 + q.toNat * 536870912 + d.toNat * 4096 + a.toNat * 64 + f.toNat = x := Option.some.inj hx
  have hp : x = pack [(2, q.toNat), (4, 8), (5, 3), (2, 0), (6, d.toNat), (6, a.toNat), (1, 0), (5, f.toNat)] := by
    rw [pack_cons 2 29 (pack_cons 4 25 (pack_cons 5 20 (pack_cons 2 18 (pack_cons 6 12 (pack_cons 6 6 (pack_cons 1 5 (pack_cons 5 0 pack_nil rfl (rfl : 1 = 2 ^ 0)) rfl (rfl : 32 = 2 ^ 5)) rfl (rfl : 64 = 2 ^ 6)) rfl (rfl : 4096 = 2 ^ 12)) rfl (rfl : 262144 = 2 ^ 18)) rfl (rfl : 1048576 = 2 ^ 20)) rfl (rfl : 33554432 = 2 ^ 25)) rfl (rfl : 536870912 = 2 ^ 29)]
    omega
  have hf : Fits [(2, q.toNat), (4, 8), (5, 3), (2, 0), (6, d.toNat), (6, a.toNat), (1, 0), (5, f.toNat)] := ⟨q.isLt, by decide, by decide, by decide, d.isLt, a.isLt, by decide, f.isLt, trivial⟩
  have h0 : x / 33554432 % 16 = 8 := pack_field [(2, q.toNat)] [(4, 8)] [(5, 3), (2, 0), (6, d.toNat), (6, a.toNat), (1, 0), (5, f.toNat)] 25 4 hp hf rfl rfl rfl rfl rfl rfl
  have h1 : x / 1048576 % 32 = 3 := pack_field [(2, q.toNat), (4, 8)] [(5, 3)] [(2, 0), (6, d.toNat), (6, a.toNat), (1, 0), (5, f.toNat)] 20 5 hp hf rfl rfl rfl rfl rfl rfl
  have h2 : x / 32 % 2 = 0 := pack_field [(2, q.toNat), (4, 8), (5, 3), (2, 0), (6, d.toNat), (6, a.toNat)] [(1, 0)] [(5, f.toNat)] 5 1 hp hf rfl rfl rfl rfl rfl rfl
  have h3 : x / 262144 % 4 = 0 := pack_field [(2, q.toNat), (4, 8), (5, 3)] [(2, 0)] [(6, d.toNat), (6, a.toNat), (1, 0), (5, f.toNat)] 18 2 hp hf rfl rfl rfl rfl rfl rfl
  have e0 : BitVec.ofNat 2 (x / 536870912) = q := ofNat_field [] q [(4, 8), (5, 3), (2, 0), (6, d.toNat), (6, a.toNat), (1, 0), (5, f.toNat)] 29 hp hf rfl rfl rfl
  have e1 : BitVec.ofNat 6 (x / 4096) = d := ofNat_field [(2, q.toNat), (4, 8), (5, 3), (2, 0)] d [(6, a.toNat), (1, 0), (5, f.toNat)] 12 hp hf rfl rfl rfl
  have e2 : BitVec.ofNat 6 (x / 64) = a := ofNat_field [(2, q.toNat), (4, 8), (5, 3), (2, 0), (6, d.toNat)] a [(1, 0), (5, f.toNat)] 6 hp hf rfl rfl rfl
  have e3 : BitVec.ofNat 5 x = f := ofNat_low [(2, q.toNat), (4, 8), (5, 3), (2, 0), (6, d.toNat), (6, a.toNat), (1, 0)] f hp hf rfl
  refine ⟨pack_bound 31 hp hf rfl, (.vrsq q d a f none), ?_, rfl, ?_⟩
  · simp only [decodeNat, decodeVR, h0, h1, h2, h3, ↓reduceIte, and_self, and_true, true_and, and_false, false_and, one_ne_zero, OfNat.ofNat_ne_zero]
    rw [e0, e1, e2, e3]
    try rfl
  · cases ext <;> first | rfl

theorem EncodeDecode.vsmax (q : BitVec 2) (d : BitVec 6) (a : BitVec 6) (f : BitVec 5) : EncodeDecode.Statement (.vsmax q d a f) := by
  intro hwf x hx
  replace hx : 272629760 + q.toNat * 536870912 + d.toNat * 4096 + a.toNat * 64 + f.toNat = x := Option.some.inj hx
  have hp : x = pack [(2, q.toNat), (4, 8), (5, 4), (2, 0), (6, d.toNat), (6, a.toNat), (1, 0), (5, f.toNat)] := by
    rw [pack_cons 2 29 (pack_cons 4 25 (pack_cons 5 20 (pack_cons 2 18 (pack_cons 6 12 (pack_cons 6 6 (pack_cons 1 5 (pack_cons 5 0 pack_nil rfl (rfl : 1 = 2 ^ 0)) rfl (rfl : 32 = 2 ^ 5)) rfl (rfl : 64 = 2 ^ 6)) rfl (rfl : 4096 = 2 ^ 12)) rfl (rfl : 262144 = 2 ^ 18)) rfl (rfl : 1048576 = 2 ^ 20)) rfl (rfl : 33554432 = 2 ^ 25)) rfl (rfl : 536870912 = 2 ^ 29)]
    omega
  have hf : Fits [(2, q.toNat), (4, 8), (5, 4), (2, 0), (6, d.toNat), (6, a.toNat), (1, 0), (5, f.toNat)] := ⟨q.isLt, by decide, by decide, by decide, d.isLt, a.isLt, by decide, f.isLt, trivial⟩
  have h0 : x / 33554432 % 16 = 8 := pack_field [(2, q.toNat)] [(4, 8)] [(5, 4), (2, 0), (6, d.toNat), (6, a.toNat), (1, 0), (5, f.toNat)] 25 4 hp hf rfl rfl rfl rfl rfl rfl
  have h1 : x / 1048576 % 32 = 4 := pack_field [(2, q.toNat), (4, 8)] [(5, 4)] [(2, 0), (6, d.toNat), (6, a.toNat), (1, 0), (5, f.toNat)] 20 5 hp hf rfl rfl rfl rfl rfl rfl
  have h2 : x / 32 % 2 = 0 := pack_field [(2, q.toNat), (4, 8), (5, 4), (2, 0), (6, d.toNat), (6, a.toNat)] [(1, 0)] [(5, f.toNat)] 5 1 hp hf rfl rfl rfl rfl rfl rfl
  have h3 : x / 262144 % 4 = 0 := pack_field [(2, q.toNat), (4, 8), (5, 4)] [(2, 0)] [(6, d.toNat), (6, a.toNat), (1, 0), (5, f.toNat)] 18 2 hp hf rfl rfl rfl rfl rfl rfl
  have e0 : BitVec.ofNat 2 (x / 536870912) = q := ofNat_field [] q [(4, 8), (5, 4), (2, 0), (6, d.toNat), (6, a.toNat), (1, 0), (5, f.toNat)] 29 hp hf rfl rfl rfl
  have e1 : BitVec.ofNat 6 (x / 4096) = d := ofNat_field [(2, q.toNat), (4, 8), (5, 4), (2, 0)] d [(6, a.toNat), (1, 0), (5, f.toNat)] 12 hp hf rfl rfl rfl
  have e2 : BitVec.ofNat 6 (x / 64) = a := ofNat_field [(2, q.toNat), (4, 8), (5, 4), (2, 0), (6, d.toNat)] a [(1, 0), (5, f.toNat)] 6 hp hf rfl rfl rfl
  have e3 : BitVec.ofNat 5 x = f := ofNat_low [(2, q.toNat), (4, 8), (5, 4), (2, 0), (6, d.toNat), (6, a.toNat), (1, 0)] f hp hf rfl
  refine ⟨pack_bound 31 hp hf rfl, (.vsmax q d a f), ?_, rfl, ?_⟩
  · simp only [decodeNat, decodeVR, h0, h1, h2, h3, ↓reduceIte, and_self, and_true, true_and, and_false, false_and, one_ne_zero, OfNat.ofNat_ne_zero]
    rw [e0, e1, e2, e3]
    try rfl
  · rfl

theorem EncodeDecode.vrmsn (q : BitVec 2) (d : BitVec 6) (a : BitVec 6) (b : BitVec 6) (ext : Option (BitVec 25)) : EncodeDecode.Statement (.vrmsn q d a b ext) := by
  intro hwf x hx
  replace hx : 273678336 + q.toNat * 536870912 + d.toNat * 4096 + a.toNat * 64 + b.toNat = x := Option.some.inj hx
  have hp : x = pack [(2, q.toNat), (4, 8), (5, 5), (2, 0), (6, d.toNat), (6, a.toNat), (6, b.toNat)] := by
    rw [pack_cons 2 29 (pack_cons 4 25 (pack_cons 5 20 (pack_cons 2 18 (pack_cons 6 12 (pack_cons 6 6 (pack_cons 6 0 pack_nil rfl (rfl : 1 = 2 ^ 0)) rfl (rfl : 64 = 2 ^ 6)) rfl (rfl : 4096 = 2 ^ 12)) rfl (rfl : 262144 = 2 ^ 18)) rfl (rfl : 1048576 = 2 ^ 20)) rfl (rfl : 33554432 = 2 ^ 25)) rfl (rfl : 536870912 = 2 ^ 29)]
    omega
  have hf : Fits [(2, q.toNat), (4, 8), (5, 5), (2, 0), (6, d.toNat), (6, a.toNat), (6, b.toNat)] := ⟨q.isLt, by decide, by decide, by decide, d.isLt, a.isLt, b.isLt, trivial⟩
  have h0 : x / 33554432 % 16 = 8 := pack_field [(2, q.toNat)] [(4, 8)] [(5, 5), (2, 0), (6, d.toNat), (6, a.toNat), (6, b.toNat)] 25 4 hp hf rfl rfl rfl rfl rfl rfl
  have h1 : x / 1048576 % 32 = 5 := pack_field [(2, q.toNat), (4, 8)] [(5, 5)] [(2, 0), (6, d.toNat), (6, a.toNat), (6, b.toNat)] 20 5 hp hf rfl rfl rfl rfl rfl rfl
  have h2 : x / 262144 % 4 = 0 := pack_field [(2, q.toNat), (4, 8), (5, 5)] [(2, 0)] [(6, d.toNat), (6, a.toNat), (6, b.toNat)] 18 2 hp hf rfl rfl rfl rfl rfl rfl
  have e0 : BitVec.ofNat 2 (x / 536870912) = q := ofNat_field [] q [(4, 8), (5, 5), (2, 0), (6, d.toNat), (6, a.toNat), (6, b.toNat)] 29 hp hf rfl rfl rfl
  have e1 : BitVec.ofNat 6 (x / 4096) = d := ofNat_field [(2, q.toNat), (4, 8), (5, 5), (2, 0)] d [(6, a.toNat), (6, b.toNat)] 12 hp hf rfl rfl rfl
  have e2 : BitVec.ofNat 6 (x / 64) = a := ofNat_field [(2, q.toNat), (4, 8), (5, 5), (2, 0), (6, d.toNat)] a [(6, b.toNat)] 6 hp hf rfl rfl rfl
  have e3 : BitVec.ofNat 6 x = b := ofNat_low [(2, q.toNat), (4, 8), (5, 5), (2, 0), (6, d.toNat), (6, a.toNat)] b hp hf rfl
  refine ⟨pack_bound 31 hp hf rfl, (.vrmsn q d a b none), ?_, rfl, ?_⟩
  · simp only [decodeNat, decodeVR, h0, h1, h2, ↓reduceIte]
    rw [e0, e1, e2, e3]
    try rfl
  · cases ext <;> first | rfl

theorem EncodeDecode.vlnrm (q : BitVec 2) (d : BitVec 6) (a : BitVec 6) (b : BitVec 6) (ext : Option (BitVec 25)) : EncodeDecode.Statement (.vlnrm q d a b ext) := by
  intro hwf x hx
  replace hx : 274726912 + q.toNat * 536870912 + d.toNat * 4096 + a.toNat * 64 + b.toNat = x := Option.some.inj hx
  have hp : x = pack [(2, q.toNat), (4, 8), (5, 6), (2, 0), (6, d.toNat), (6, a.toNat), (6, b.toNat)] := by
    rw [pack_cons 2 29 (pack_cons 4 25 (pack_cons 5 20 (pack_cons 2 18 (pack_cons 6 12 (pack_cons 6 6 (pack_cons 6 0 pack_nil rfl (rfl : 1 = 2 ^ 0)) rfl (rfl : 64 = 2 ^ 6)) rfl (rfl : 4096 = 2 ^ 12)) rfl (rfl : 262144 = 2 ^ 18)) rfl (rfl : 1048576 = 2 ^ 20)) rfl (rfl : 33554432 = 2 ^ 25)) rfl (rfl : 536870912 = 2 ^ 29)]
    omega
  have hf : Fits [(2, q.toNat), (4, 8), (5, 6), (2, 0), (6, d.toNat), (6, a.toNat), (6, b.toNat)] := ⟨q.isLt, by decide, by decide, by decide, d.isLt, a.isLt, b.isLt, trivial⟩
  have h0 : x / 33554432 % 16 = 8 := pack_field [(2, q.toNat)] [(4, 8)] [(5, 6), (2, 0), (6, d.toNat), (6, a.toNat), (6, b.toNat)] 25 4 hp hf rfl rfl rfl rfl rfl rfl
  have h1 : x / 1048576 % 32 = 6 := pack_field [(2, q.toNat), (4, 8)] [(5, 6)] [(2, 0), (6, d.toNat), (6, a.toNat), (6, b.toNat)] 20 5 hp hf rfl rfl rfl rfl rfl rfl
  have h2 : x / 262144 % 4 = 0 := pack_field [(2, q.toNat), (4, 8), (5, 6)] [(2, 0)] [(6, d.toNat), (6, a.toNat), (6, b.toNat)] 18 2 hp hf rfl rfl rfl rfl rfl rfl
  have e0 : BitVec.ofNat 2 (x / 536870912) = q := ofNat_field [] q [(4, 8), (5, 6), (2, 0), (6, d.toNat), (6, a.toNat), (6, b.toNat)] 29 hp hf rfl rfl rfl
  have e1 : BitVec.ofNat 6 (x / 4096) = d := ofNat_field [(2, q.toNat), (4, 8), (5, 6), (2, 0)] d [(6, a.toNat), (6, b.toNat)] 12 hp hf rfl rfl rfl
  have e2 : BitVec.ofNat 6 (x / 64) = a := ofNat_field [(2, q.toNat), (4, 8), (5, 6), (2, 0), (6, d.toNat)] a [(6, b.toNat)] 6 hp hf rfl rfl rfl
  have e3 : BitVec.ofNat 6 x = b := ofNat_low [(2, q.toNat), (4, 8), (5, 6), (2, 0), (6, d.toNat), (6, a.toNat)] b hp hf rfl
  refine ⟨pack_bound 31 hp hf rfl, (.vlnrm q d a b none), ?_, rfl, ?_⟩
  · simp only [decodeNat, decodeVR, h0, h1, h2, ↓reduceIte]
    rw [e0, e1, e2, e3]
    try rfl
  · cases ext <;> first | rfl

theorem EncodeDecode.vgelu (q : BitVec 2) (d : BitVec 6) (a : BitVec 6) (f : BitVec 5) (ext : Option (BitVec 25)) : EncodeDecode.Statement (.vgelu q d a f ext) := by
  intro hwf x hx
  replace hx : 275775488 + q.toNat * 536870912 + d.toNat * 4096 + a.toNat * 64 + f.toNat = x := Option.some.inj hx
  have hp : x = pack [(2, q.toNat), (4, 8), (5, 7), (2, 0), (6, d.toNat), (6, a.toNat), (1, 0), (5, f.toNat)] := by
    rw [pack_cons 2 29 (pack_cons 4 25 (pack_cons 5 20 (pack_cons 2 18 (pack_cons 6 12 (pack_cons 6 6 (pack_cons 1 5 (pack_cons 5 0 pack_nil rfl (rfl : 1 = 2 ^ 0)) rfl (rfl : 32 = 2 ^ 5)) rfl (rfl : 64 = 2 ^ 6)) rfl (rfl : 4096 = 2 ^ 12)) rfl (rfl : 262144 = 2 ^ 18)) rfl (rfl : 1048576 = 2 ^ 20)) rfl (rfl : 33554432 = 2 ^ 25)) rfl (rfl : 536870912 = 2 ^ 29)]
    omega
  have hf : Fits [(2, q.toNat), (4, 8), (5, 7), (2, 0), (6, d.toNat), (6, a.toNat), (1, 0), (5, f.toNat)] := ⟨q.isLt, by decide, by decide, by decide, d.isLt, a.isLt, by decide, f.isLt, trivial⟩
  have h0 : x / 33554432 % 16 = 8 := pack_field [(2, q.toNat)] [(4, 8)] [(5, 7), (2, 0), (6, d.toNat), (6, a.toNat), (1, 0), (5, f.toNat)] 25 4 hp hf rfl rfl rfl rfl rfl rfl
  have h1 : x / 1048576 % 32 = 7 := pack_field [(2, q.toNat), (4, 8)] [(5, 7)] [(2, 0), (6, d.toNat), (6, a.toNat), (1, 0), (5, f.toNat)] 20 5 hp hf rfl rfl rfl rfl rfl rfl
  have h2 : x / 32 % 2 = 0 := pack_field [(2, q.toNat), (4, 8), (5, 7), (2, 0), (6, d.toNat), (6, a.toNat)] [(1, 0)] [(5, f.toNat)] 5 1 hp hf rfl rfl rfl rfl rfl rfl
  have h3 : x / 262144 % 4 = 0 := pack_field [(2, q.toNat), (4, 8), (5, 7)] [(2, 0)] [(6, d.toNat), (6, a.toNat), (1, 0), (5, f.toNat)] 18 2 hp hf rfl rfl rfl rfl rfl rfl
  have e0 : BitVec.ofNat 2 (x / 536870912) = q := ofNat_field [] q [(4, 8), (5, 7), (2, 0), (6, d.toNat), (6, a.toNat), (1, 0), (5, f.toNat)] 29 hp hf rfl rfl rfl
  have e1 : BitVec.ofNat 6 (x / 4096) = d := ofNat_field [(2, q.toNat), (4, 8), (5, 7), (2, 0)] d [(6, a.toNat), (1, 0), (5, f.toNat)] 12 hp hf rfl rfl rfl
  have e2 : BitVec.ofNat 6 (x / 64) = a := ofNat_field [(2, q.toNat), (4, 8), (5, 7), (2, 0), (6, d.toNat)] a [(1, 0), (5, f.toNat)] 6 hp hf rfl rfl rfl
  have e3 : BitVec.ofNat 5 x = f := ofNat_low [(2, q.toNat), (4, 8), (5, 7), (2, 0), (6, d.toNat), (6, a.toNat), (1, 0)] f hp hf rfl
  refine ⟨pack_bound 31 hp hf rfl, (.vgelu q d a f none), ?_, rfl, ?_⟩
  · simp only [decodeNat, decodeVR, h0, h1, h2, h3, ↓reduceIte, and_self, and_true, true_and, and_false, false_and, one_ne_zero, OfNat.ofNat_ne_zero]
    rw [e0, e1, e2, e3]
    try rfl
  · cases ext <;> first | rfl

theorem EncodeDecode.voptSgdm (q : BitVec 2) (m : BitVec 2) (d : BitVec 6) (a : BitVec 6) (b : BitVec 6) (ext : Option (BitVec 25)) : EncodeDecode.Statement (.voptSgdm q m d a b ext) := by
  intro hwf x hx
  replace hx : 276824064 + q.toNat * 536870912 + m.toNat * 262144 + d.toNat * 4096 + a.toNat * 64 + b.toNat = x := Option.some.inj hx
  have hp : x = pack [(2, q.toNat), (4, 8), (5, 8), (2, m.toNat), (6, d.toNat), (6, a.toNat), (6, b.toNat)] := by
    rw [pack_cons 2 29 (pack_cons 4 25 (pack_cons 5 20 (pack_cons 2 18 (pack_cons 6 12 (pack_cons 6 6 (pack_cons 6 0 pack_nil rfl (rfl : 1 = 2 ^ 0)) rfl (rfl : 64 = 2 ^ 6)) rfl (rfl : 4096 = 2 ^ 12)) rfl (rfl : 262144 = 2 ^ 18)) rfl (rfl : 1048576 = 2 ^ 20)) rfl (rfl : 33554432 = 2 ^ 25)) rfl (rfl : 536870912 = 2 ^ 29)]
    omega
  have hf : Fits [(2, q.toNat), (4, 8), (5, 8), (2, m.toNat), (6, d.toNat), (6, a.toNat), (6, b.toNat)] := ⟨q.isLt, by decide, by decide, m.isLt, d.isLt, a.isLt, b.isLt, trivial⟩
  have h0 : x / 33554432 % 16 = 8 := pack_field [(2, q.toNat)] [(4, 8)] [(5, 8), (2, m.toNat), (6, d.toNat), (6, a.toNat), (6, b.toNat)] 25 4 hp hf rfl rfl rfl rfl rfl rfl
  have h1 : x / 1048576 % 32 = 8 := pack_field [(2, q.toNat), (4, 8)] [(5, 8)] [(2, m.toNat), (6, d.toNat), (6, a.toNat), (6, b.toNat)] 20 5 hp hf rfl rfl rfl rfl rfl rfl
  have e0 : BitVec.ofNat 2 (x / 536870912) = q := ofNat_field [] q [(4, 8), (5, 8), (2, m.toNat), (6, d.toNat), (6, a.toNat), (6, b.toNat)] 29 hp hf rfl rfl rfl
  have e1 : BitVec.ofNat 2 (x / 262144) = m := ofNat_field [(2, q.toNat), (4, 8), (5, 8)] m [(6, d.toNat), (6, a.toNat), (6, b.toNat)] 18 hp hf rfl rfl rfl
  have e2 : BitVec.ofNat 6 (x / 4096) = d := ofNat_field [(2, q.toNat), (4, 8), (5, 8), (2, m.toNat)] d [(6, a.toNat), (6, b.toNat)] 12 hp hf rfl rfl rfl
  have e3 : BitVec.ofNat 6 (x / 64) = a := ofNat_field [(2, q.toNat), (4, 8), (5, 8), (2, m.toNat), (6, d.toNat)] a [(6, b.toNat)] 6 hp hf rfl rfl rfl
  have e4 : BitVec.ofNat 6 x = b := ofNat_low [(2, q.toNat), (4, 8), (5, 8), (2, m.toNat), (6, d.toNat), (6, a.toNat)] b hp hf rfl
  refine ⟨pack_bound 31 hp hf rfl, (.voptSgdm q m d a b none), ?_, rfl, ?_⟩
  · simp only [decodeNat, decodeVR, h0, h1, ↓reduceIte]
    rw [e0, e1, e2, e3, e4]
    try rfl
  · cases ext <;> first | rfl

theorem EncodeDecode.voptLion (q : BitVec 2) (m : BitVec 2) (d : BitVec 6) (a : BitVec 6) (b : BitVec 6) (ext : Option (BitVec 25)) : EncodeDecode.Statement (.voptLion q m d a b ext) := by
  intro hwf x hx
  replace hx : 277872640 + q.toNat * 536870912 + m.toNat * 262144 + d.toNat * 4096 + a.toNat * 64 + b.toNat = x := Option.some.inj hx
  have hp : x = pack [(2, q.toNat), (4, 8), (5, 9), (2, m.toNat), (6, d.toNat), (6, a.toNat), (6, b.toNat)] := by
    rw [pack_cons 2 29 (pack_cons 4 25 (pack_cons 5 20 (pack_cons 2 18 (pack_cons 6 12 (pack_cons 6 6 (pack_cons 6 0 pack_nil rfl (rfl : 1 = 2 ^ 0)) rfl (rfl : 64 = 2 ^ 6)) rfl (rfl : 4096 = 2 ^ 12)) rfl (rfl : 262144 = 2 ^ 18)) rfl (rfl : 1048576 = 2 ^ 20)) rfl (rfl : 33554432 = 2 ^ 25)) rfl (rfl : 536870912 = 2 ^ 29)]
    omega
  have hf : Fits [(2, q.toNat), (4, 8), (5, 9), (2, m.toNat), (6, d.toNat), (6, a.toNat), (6, b.toNat)] := ⟨q.isLt, by decide, by decide, m.isLt, d.isLt, a.isLt, b.isLt, trivial⟩
  have h0 : x / 33554432 % 16 = 8 := pack_field [(2, q.toNat)] [(4, 8)] [(5, 9), (2, m.toNat), (6, d.toNat), (6, a.toNat), (6, b.toNat)] 25 4 hp hf rfl rfl rfl rfl rfl rfl
  have h1 : x / 1048576 % 32 = 9 := pack_field [(2, q.toNat), (4, 8)] [(5, 9)] [(2, m.toNat), (6, d.toNat), (6, a.toNat), (6, b.toNat)] 20 5 hp hf rfl rfl rfl rfl rfl rfl
  have e0 : BitVec.ofNat 2 (x / 536870912) = q := ofNat_field [] q [(4, 8), (5, 9), (2, m.toNat), (6, d.toNat), (6, a.toNat), (6, b.toNat)] 29 hp hf rfl rfl rfl
  have e1 : BitVec.ofNat 2 (x / 262144) = m := ofNat_field [(2, q.toNat), (4, 8), (5, 9)] m [(6, d.toNat), (6, a.toNat), (6, b.toNat)] 18 hp hf rfl rfl rfl
  have e2 : BitVec.ofNat 6 (x / 4096) = d := ofNat_field [(2, q.toNat), (4, 8), (5, 9), (2, m.toNat)] d [(6, a.toNat), (6, b.toNat)] 12 hp hf rfl rfl rfl
  have e3 : BitVec.ofNat 6 (x / 64) = a := ofNat_field [(2, q.toNat), (4, 8), (5, 9), (2, m.toNat), (6, d.toNat)] a [(6, b.toNat)] 6 hp hf rfl rfl rfl
  have e4 : BitVec.ofNat 6 x = b := ofNat_low [(2, q.toNat), (4, 8), (5, 9), (2, m.toNat), (6, d.toNat), (6, a.toNat)] b hp hf rfl
  refine ⟨pack_bound 31 hp hf rfl, (.voptLion q m d a b none), ?_, rfl, ?_⟩
  · simp only [decodeNat, decodeVR, h0, h1, ↓reduceIte]
    rw [e0, e1, e2, e3, e4]
    try rfl
  · cases ext <;> first | rfl

theorem EncodeDecode.voptAdam (q : BitVec 2) (m : BitVec 2) (d : BitVec 6) (a : BitVec 6) (b : BitVec 6) (ext : Option (BitVec 25)) : EncodeDecode.Statement (.voptAdam q m d a b ext) := by
  intro hwf x hx
  replace hx : 278921216 + q.toNat * 536870912 + m.toNat * 262144 + d.toNat * 4096 + a.toNat * 64 + b.toNat = x := Option.some.inj hx
  have hp : x = pack [(2, q.toNat), (4, 8), (5, 10), (2, m.toNat), (6, d.toNat), (6, a.toNat), (6, b.toNat)] := by
    rw [pack_cons 2 29 (pack_cons 4 25 (pack_cons 5 20 (pack_cons 2 18 (pack_cons 6 12 (pack_cons 6 6 (pack_cons 6 0 pack_nil rfl (rfl : 1 = 2 ^ 0)) rfl (rfl : 64 = 2 ^ 6)) rfl (rfl : 4096 = 2 ^ 12)) rfl (rfl : 262144 = 2 ^ 18)) rfl (rfl : 1048576 = 2 ^ 20)) rfl (rfl : 33554432 = 2 ^ 25)) rfl (rfl : 536870912 = 2 ^ 29)]
    omega
  have hf : Fits [(2, q.toNat), (4, 8), (5, 10), (2, m.toNat), (6, d.toNat), (6, a.toNat), (6, b.toNat)] := ⟨q.isLt, by decide, by decide, m.isLt, d.isLt, a.isLt, b.isLt, trivial⟩
  have h0 : x / 33554432 % 16 = 8 := pack_field [(2, q.toNat)] [(4, 8)] [(5, 10), (2, m.toNat), (6, d.toNat), (6, a.toNat), (6, b.toNat)] 25 4 hp hf rfl rfl rfl rfl rfl rfl
  have h1 : x / 1048576 % 32 = 10 := pack_field [(2, q.toNat), (4, 8)] [(5, 10)] [(2, m.toNat), (6, d.toNat), (6, a.toNat), (6, b.toNat)] 20 5 hp hf rfl rfl rfl rfl rfl rfl
  have e0 : BitVec.ofNat 2 (x / 536870912) = q := ofNat_field [] q [(4, 8), (5, 10), (2, m.toNat), (6, d.toNat), (6, a.toNat), (6, b.toNat)] 29 hp hf rfl rfl rfl
  have e1 : BitVec.ofNat 2 (x / 262144) = m := ofNat_field [(2, q.toNat), (4, 8), (5, 10)] m [(6, d.toNat), (6, a.toNat), (6, b.toNat)] 18 hp hf rfl rfl rfl
  have e2 : BitVec.ofNat 6 (x / 4096) = d := ofNat_field [(2, q.toNat), (4, 8), (5, 10), (2, m.toNat)] d [(6, a.toNat), (6, b.toNat)] 12 hp hf rfl rfl rfl
  have e3 : BitVec.ofNat 6 (x / 64) = a := ofNat_field [(2, q.toNat), (4, 8), (5, 10), (2, m.toNat), (6, d.toNat)] a [(6, b.toNat)] 6 hp hf rfl rfl rfl
  have e4 : BitVec.ofNat 6 x = b := ofNat_low [(2, q.toNat), (4, 8), (5, 10), (2, m.toNat), (6, d.toNat), (6, a.toNat)] b hp hf rfl
  refine ⟨pack_bound 31 hp hf rfl, (.voptAdam q m d a b none), ?_, rfl, ?_⟩
  · simp only [decodeNat, decodeVR, h0, h1, ↓reduceIte]
    rw [e0, e1, e2, e3, e4]
    try rfl
  · cases ext <;> first | rfl

theorem EncodeDecode.mbeg (q : BitVec 2) (d : BitVec 4) (k : BitVec 1) : EncodeDecode.Statement (.mbeg q d k) := by
  intro hwf x hx
  replace hx : 301989888 + q.toNat * 536870912 + d.toNat * 131072 + k.toNat * 65536 = x := Option.some.inj hx
  have hp : x = pack [(2, q.toNat), (4, 9), (4, 0), (4, d.toNat), (1, k.toNat), (16, 0)] := by
    rw [pack_cons 2 29 (pack_cons 4 25 (pack_cons 4 21 (pack_cons 4 17 (pack_cons 1 16 (pack_cons 16 0 pack_nil rfl (rfl : 1 = 2 ^ 0)) rfl (rfl : 65536 = 2 ^ 16)) rfl (rfl : 131072 = 2 ^ 17)) rfl (rfl : 2097152 = 2 ^ 21)) rfl (rfl : 33554432 = 2 ^ 25)) rfl (rfl : 536870912 = 2 ^ 29)]
    omega
  have hf : Fits [(2, q.toNat), (4, 9), (4, 0), (4, d.toNat), (1, k.toNat), (16, 0)] := ⟨q.isLt, by decide, by decide, d.isLt, k.isLt, by decide, trivial⟩
  have h0 : x / 33554432 % 16 = 9 := pack_field [(2, q.toNat)] [(4, 9)] [(4, 0), (4, d.toNat), (1, k.toNat), (16, 0)] 25 4 hp hf rfl rfl rfl rfl rfl rfl
  have h1 : x / 2097152 % 16 = 0 := pack_field [(2, q.toNat), (4, 9)] [(4, 0)] [(4, d.toNat), (1, k.toNat), (16, 0)] 21 4 hp hf rfl rfl rfl rfl rfl rfl
  have h2 : x % 65536 = 0 := pack_low [(2, q.toNat), (4, 9), (4, 0), (4, d.toNat), (1, k.toNat)] [(16, 0)] 16 hp hf rfl rfl rfl rfl
  have e0 : BitVec.ofNat 2 (x / 536870912) = q := ofNat_field [] q [(4, 9), (4, 0), (4, d.toNat), (1, k.toNat), (16, 0)] 29 hp hf rfl rfl rfl
  have e1 : BitVec.ofNat 4 (x / 131072) = d := ofNat_field [(2, q.toNat), (4, 9), (4, 0)] d [(1, k.toNat), (16, 0)] 17 hp hf rfl rfl rfl
  have e2 : BitVec.ofNat 1 (x / 65536) = k := ofNat_field [(2, q.toNat), (4, 9), (4, 0), (4, d.toNat)] k [(16, 0)] 16 hp hf rfl rfl rfl
  refine ⟨pack_bound 31 hp hf rfl, (.mbeg q d k), ?_, rfl, ?_⟩
  · simp only [decodeNat, decodeM, h0, h1, h2, ↓reduceIte]
    rw [e0, e1, e2]
    try rfl
  · rfl

theorem EncodeDecode.mend (q : BitVec 2) (d : BitVec 4) : EncodeDecode.Statement (.mend q d) := by
  intro hwf x hx
  replace hx : 304087040 + q.toNat * 536870912 + d.toNat * 131072 = x := Option.some.inj hx
  have hp : x = pack [(2, q.toNat), (4, 9), (4, 1), (4, d.toNat), (17, 0)] := by
    rw [pack_cons 2 29 (pack_cons 4 25 (pack_cons 4 21 (pack_cons 4 17 (pack_cons 17 0 pack_nil rfl (rfl : 1 = 2 ^ 0)) rfl (rfl : 131072 = 2 ^ 17)) rfl (rfl : 2097152 = 2 ^ 21)) rfl (rfl : 33554432 = 2 ^ 25)) rfl (rfl : 536870912 = 2 ^ 29)]
    omega
  have hf : Fits [(2, q.toNat), (4, 9), (4, 1), (4, d.toNat), (17, 0)] := ⟨q.isLt, by decide, by decide, d.isLt, by decide, trivial⟩
  have h0 : x / 33554432 % 16 = 9 := pack_field [(2, q.toNat)] [(4, 9)] [(4, 1), (4, d.toNat), (17, 0)] 25 4 hp hf rfl rfl rfl rfl rfl rfl
  have h1 : x / 2097152 % 16 = 1 := pack_field [(2, q.toNat), (4, 9)] [(4, 1)] [(4, d.toNat), (17, 0)] 21 4 hp hf rfl rfl rfl rfl rfl rfl
  have h2 : x % 131072 = 0 := pack_low [(2, q.toNat), (4, 9), (4, 1), (4, d.toNat)] [(17, 0)] 17 hp hf rfl rfl rfl rfl
  have e0 : BitVec.ofNat 2 (x / 536870912) = q := ofNat_field [] q [(4, 9), (4, 1), (4, d.toNat), (17, 0)] 29 hp hf rfl rfl rfl
  have e1 : BitVec.ofNat 4 (x / 131072) = d := ofNat_field [(2, q.toNat), (4, 9), (4, 1)] d [(17, 0)] 17 hp hf rfl rfl rfl
  refine ⟨pack_bound 31 hp hf rfl, (.mend q d), ?_, rfl, ?_⟩
  · simp only [decodeNat, decodeM, h0, h1, h2, ↓reduceIte]
    rw [e0, e1]
    try rfl
  · rfl

theorem EncodeDecode.mzero (q : BitVec 2) (d : BitVec 4) : EncodeDecode.Statement (.mzero q d) := by
  intro hwf x hx
  replace hx : 306184192 + q.toNat * 536870912 + d.toNat * 131072 = x := Option.some.inj hx
  have hp : x = pack [(2, q.toNat), (4, 9), (4, 2), (4, d.toNat), (17, 0)] := by
    rw [pack_cons 2 29 (pack_cons 4 25 (pack_cons 4 21 (pack_cons 4 17 (pack_cons 17 0 pack_nil rfl (rfl : 1 = 2 ^ 0)) rfl (rfl : 131072 = 2 ^ 17)) rfl (rfl : 2097152 = 2 ^ 21)) rfl (rfl : 33554432 = 2 ^ 25)) rfl (rfl : 536870912 = 2 ^ 29)]
    omega
  have hf : Fits [(2, q.toNat), (4, 9), (4, 2), (4, d.toNat), (17, 0)] := ⟨q.isLt, by decide, by decide, d.isLt, by decide, trivial⟩
  have h0 : x / 33554432 % 16 = 9 := pack_field [(2, q.toNat)] [(4, 9)] [(4, 2), (4, d.toNat), (17, 0)] 25 4 hp hf rfl rfl rfl rfl rfl rfl
  have h1 : x / 2097152 % 16 = 2 := pack_field [(2, q.toNat), (4, 9)] [(4, 2)] [(4, d.toNat), (17, 0)] 21 4 hp hf rfl rfl rfl rfl rfl rfl
  have h2 : x % 131072 = 0 := pack_low [(2, q.toNat), (4, 9), (4, 2), (4, d.toNat)] [(17, 0)] 17 hp hf rfl rfl rfl rfl
  have e0 : BitVec.ofNat 2 (x / 536870912) = q := ofNat_field [] q [(4, 9), (4, 2), (4, d.toNat), (17, 0)] 29 hp hf rfl rfl rfl
  have e1 : BitVec.ofNat 4 (x / 131072) = d := ofNat_field [(2, q.toNat), (4, 9), (4, 2)] d [(17, 0)] 17 hp hf rfl rfl rfl
  refine ⟨pack_bound 31 hp hf rfl, (.mzero q d), ?_, rfl, ?_⟩
  · simp only [decodeNat, decodeM, h0, h1, h2, ↓reduceIte]
    rw [e0, e1]
    try rfl
  · rfl

theorem EncodeDecode.mma (q : BitVec 2) (d : BitVec 4) (a : BitVec 6) (b : BitVec 6) (ext : Option (BitVec 25)) : EncodeDecode.Statement (.mma q d a b ext) := by
  intro hwf x hx
  replace hx : 308281344 + q.toNat * 536870912 + d.toNat * 131072 + a.toNat * 2048 + b.toNat * 32 = x := Option.some.inj hx
  have hp : x = pack [(2, q.toNat), (4, 9), (4, 3), (4, d.toNat), (6, a.toNat), (6, b.toNat), (5, 0)] := by
    rw [pack_cons 2 29 (pack_cons 4 25 (pack_cons 4 21 (pack_cons 4 17 (pack_cons 6 11 (pack_cons 6 5 (pack_cons 5 0 pack_nil rfl (rfl : 1 = 2 ^ 0)) rfl (rfl : 32 = 2 ^ 5)) rfl (rfl : 2048 = 2 ^ 11)) rfl (rfl : 131072 = 2 ^ 17)) rfl (rfl : 2097152 = 2 ^ 21)) rfl (rfl : 33554432 = 2 ^ 25)) rfl (rfl : 536870912 = 2 ^ 29)]
    omega
  have hf : Fits [(2, q.toNat), (4, 9), (4, 3), (4, d.toNat), (6, a.toNat), (6, b.toNat), (5, 0)] := ⟨q.isLt, by decide, by decide, d.isLt, a.isLt, b.isLt, by decide, trivial⟩
  have h0 : x / 33554432 % 16 = 9 := pack_field [(2, q.toNat)] [(4, 9)] [(4, 3), (4, d.toNat), (6, a.toNat), (6, b.toNat), (5, 0)] 25 4 hp hf rfl rfl rfl rfl rfl rfl
  have h1 : x / 2097152 % 16 = 3 := pack_field [(2, q.toNat), (4, 9)] [(4, 3)] [(4, d.toNat), (6, a.toNat), (6, b.toNat), (5, 0)] 21 4 hp hf rfl rfl rfl rfl rfl rfl
  have h2 : x % 32 = 0 := pack_low [(2, q.toNat), (4, 9), (4, 3), (4, d.toNat), (6, a.toNat), (6, b.toNat)] [(5, 0)] 5 hp hf rfl rfl rfl rfl
  have e0 : BitVec.ofNat 2 (x / 536870912) = q := ofNat_field [] q [(4, 9), (4, 3), (4, d.toNat), (6, a.toNat), (6, b.toNat), (5, 0)] 29 hp hf rfl rfl rfl
  have e1 : BitVec.ofNat 4 (x / 131072) = d := ofNat_field [(2, q.toNat), (4, 9), (4, 3)] d [(6, a.toNat), (6, b.toNat), (5, 0)] 17 hp hf rfl rfl rfl
  have e2 : BitVec.ofNat 6 (x / 2048) = a := ofNat_field [(2, q.toNat), (4, 9), (4, 3), (4, d.toNat)] a [(6, b.toNat), (5, 0)] 11 hp hf rfl rfl rfl
  have e3 : BitVec.ofNat 6 (x / 32) = b := ofNat_field [(2, q.toNat), (4, 9), (4, 3), (4, d.toNat), (6, a.toNat)] b [(5, 0)] 5 hp hf rfl rfl rfl
  refine ⟨pack_bound 31 hp hf rfl, (.mma q d a b none), ?_, rfl, ?_⟩
  · simp only [decodeNat, decodeM, h0, h1, h2, ↓reduceIte]
    rw [e0, e1, e2, e3]
    try rfl
  · cases ext <;> first | rfl

theorem EncodeDecode.mmat (q : BitVec 2) (d : BitVec 4) (a : BitVec 6) (b : BitVec 6) (ext : Option (BitVec 25)) : EncodeDecode.Statement (.mmat q d a b ext) := by
  intro hwf x hx
  replace hx : 310378496 + q.toNat * 536870912 + d.toNat * 131072 + a.toNat * 2048 + b.toNat * 32 = x := Option.some.inj hx
  have hp : x = pack [(2, q.toNat), (4, 9), (4, 4), (4, d.toNat), (6, a.toNat), (6, b.toNat), (5, 0)] := by
    rw [pack_cons 2 29 (pack_cons 4 25 (pack_cons 4 21 (pack_cons 4 17 (pack_cons 6 11 (pack_cons 6 5 (pack_cons 5 0 pack_nil rfl (rfl : 1 = 2 ^ 0)) rfl (rfl : 32 = 2 ^ 5)) rfl (rfl : 2048 = 2 ^ 11)) rfl (rfl : 131072 = 2 ^ 17)) rfl (rfl : 2097152 = 2 ^ 21)) rfl (rfl : 33554432 = 2 ^ 25)) rfl (rfl : 536870912 = 2 ^ 29)]
    omega
  have hf : Fits [(2, q.toNat), (4, 9), (4, 4), (4, d.toNat), (6, a.toNat), (6, b.toNat), (5, 0)] := ⟨q.isLt, by decide, by decide, d.isLt, a.isLt, b.isLt, by decide, trivial⟩
  have h0 : x / 33554432 % 16 = 9 := pack_field [(2, q.toNat)] [(4, 9)] [(4, 4), (4, d.toNat), (6, a.toNat), (6, b.toNat), (5, 0)] 25 4 hp hf rfl rfl rfl rfl rfl rfl
  have h1 : x / 2097152 % 16 = 4 := pack_field [(2, q.toNat), (4, 9)] [(4, 4)] [(4, d.toNat), (6, a.toNat), (6, b.toNat), (5, 0)] 21 4 hp hf rfl rfl rfl rfl rfl rfl
  have h2 : x % 32 = 0 := pack_low [(2, q.toNat), (4, 9), (4, 4), (4, d.toNat), (6, a.toNat), (6, b.toNat)] [(5, 0)] 5 hp hf rfl rfl rfl rfl
  have e0 : BitVec.ofNat 2 (x / 536870912) = q := ofNat_field [] q [(4, 9), (4, 4), (4, d.toNat), (6, a.toNat), (6, b.toNat), (5, 0)] 29 hp hf rfl rfl rfl
  have e1 : BitVec.ofNat 4 (x / 131072) = d := ofNat_field [(2, q.toNat), (4, 9), (4, 4)] d [(6, a.toNat), (6, b.toNat), (5, 0)] 17 hp hf rfl rfl rfl
  have e2 : BitVec.ofNat 6 (x / 2048) = a := ofNat_field [(2, q.toNat), (4, 9), (4, 4), (4, d.toNat)] a [(6, b.toNat), (5, 0)] 11 hp hf rfl rfl rfl
  have e3 : BitVec.ofNat 6 (x / 32) = b := ofNat_field [(2, q.toNat), (4, 9), (4, 4), (4, d.toNat), (6, a.toNat)] b [(5, 0)] 5 hp hf rfl rfl rfl
  refine ⟨pack_bound 31 hp hf rfl, (.mmat q d a b none), ?_, rfl, ?_⟩
  · simp only [decodeNat, decodeM, h0, h1, h2, ↓reduceIte]
    rw [e0, e1, e2, e3]
    try rfl
  · cases ext <;> first | rfl

theorem EncodeDecode.epi (q : BitVec 2) (t : BitVec 6) (a : BitVec 4) (x0 : BitVec 2) (y : BitVec 2) (m : BitVec 2) (s : BitVec 5) (ext : Option (BitVec 25)) : EncodeDecode.Statement (.epi q t a x0 y m s ext) := by
  intro hwf x hx
  replace hx : 312475648 + q.toNat * 536870912 + t.toNat * 32768 + a.toNat * 2048 + x0.toNat * 512 + y.toNat * 128 + m.toNat * 32 + s.toNat = x := Option.some.inj hx
  have hp : x = pack [(2, q.toNat), (4, 9), (4, 5), (6, t.toNat), (4, a.toNat), (2, x0.toNat), (2, y.toNat), (2, m.toNat), (5, s.toNat)] := by
    rw [pack_cons 2 29 (pack_cons 4 25 (pack_cons 4 21 (pack_cons 6 15 (pack_cons 4 11 (pack_cons 2 9 (pack_cons 2 7 (pack_cons 2 5 (pack_cons 5 0 pack_nil rfl (rfl : 1 = 2 ^ 0)) rfl (rfl : 32 = 2 ^ 5)) rfl (rfl : 128 = 2 ^ 7)) rfl (rfl : 512 = 2 ^ 9)) rfl (rfl : 2048 = 2 ^ 11)) rfl (rfl : 32768 = 2 ^ 15)) rfl (rfl : 2097152 = 2 ^ 21)) rfl (rfl : 33554432 = 2 ^ 25)) rfl (rfl : 536870912 = 2 ^ 29)]
    omega
  have hf : Fits [(2, q.toNat), (4, 9), (4, 5), (6, t.toNat), (4, a.toNat), (2, x0.toNat), (2, y.toNat), (2, m.toNat), (5, s.toNat)] := ⟨q.isLt, by decide, by decide, t.isLt, a.isLt, x0.isLt, y.isLt, m.isLt, s.isLt, trivial⟩
  have h0 : x / 33554432 % 16 = 9 := pack_field [(2, q.toNat)] [(4, 9)] [(4, 5), (6, t.toNat), (4, a.toNat), (2, x0.toNat), (2, y.toNat), (2, m.toNat), (5, s.toNat)] 25 4 hp hf rfl rfl rfl rfl rfl rfl
  have h1 : x / 2097152 % 16 = 5 := pack_field [(2, q.toNat), (4, 9)] [(4, 5)] [(6, t.toNat), (4, a.toNat), (2, x0.toNat), (2, y.toNat), (2, m.toNat), (5, s.toNat)] 21 4 hp hf rfl rfl rfl rfl rfl rfl
  have e0 : BitVec.ofNat 2 (x / 536870912) = q := ofNat_field [] q [(4, 9), (4, 5), (6, t.toNat), (4, a.toNat), (2, x0.toNat), (2, y.toNat), (2, m.toNat), (5, s.toNat)] 29 hp hf rfl rfl rfl
  have e1 : BitVec.ofNat 6 (x / 32768) = t := ofNat_field [(2, q.toNat), (4, 9), (4, 5)] t [(4, a.toNat), (2, x0.toNat), (2, y.toNat), (2, m.toNat), (5, s.toNat)] 15 hp hf rfl rfl rfl
  have e2 : BitVec.ofNat 4 (x / 2048) = a := ofNat_field [(2, q.toNat), (4, 9), (4, 5), (6, t.toNat)] a [(2, x0.toNat), (2, y.toNat), (2, m.toNat), (5, s.toNat)] 11 hp hf rfl rfl rfl
  have e3 : BitVec.ofNat 2 (x / 512) = x0 := ofNat_field [(2, q.toNat), (4, 9), (4, 5), (6, t.toNat), (4, a.toNat)] x0 [(2, y.toNat), (2, m.toNat), (5, s.toNat)] 9 hp hf rfl rfl rfl
  have e4 : BitVec.ofNat 2 (x / 128) = y := ofNat_field [(2, q.toNat), (4, 9), (4, 5), (6, t.toNat), (4, a.toNat), (2, x0.toNat)] y [(2, m.toNat), (5, s.toNat)] 7 hp hf rfl rfl rfl
  have e5 : BitVec.ofNat 2 (x / 32) = m := ofNat_field [(2, q.toNat), (4, 9), (4, 5), (6, t.toNat), (4, a.toNat), (2, x0.toNat), (2, y.toNat)] m [(5, s.toNat)] 5 hp hf rfl rfl rfl
  have e6 : BitVec.ofNat 5 x = s := ofNat_low [(2, q.toNat), (4, 9), (4, 5), (6, t.toNat), (4, a.toNat), (2, x0.toNat), (2, y.toNat), (2, m.toNat)] s hp hf rfl
  refine ⟨pack_bound 31 hp hf rfl, (.epi q t a x0 y m s none), ?_, rfl, ?_⟩
  · simp only [decodeNat, decodeM, h0, h1, ↓reduceIte]
    rw [e0, e1, e2, e3, e4, e5, e6]
    try rfl
  · cases ext <;> first | rfl

theorem EncodeDecode.epiAdd (q : BitVec 2) (h : BitVec 4) (a : BitVec 4) (m : BitVec 2) (s : BitVec 5) (e : BitVec 1) (l : BitVec 1) (o : BitVec 4) (ext : Option (BitVec 25)) : EncodeDecode.Statement (.epiAdd q h a m s e l o ext) := by
  intro hwf x hx
  replace hx : 314572800 + q.toNat * 536870912 + h.toNat * 131072 + a.toNat * 8192 + m.toNat * 2048 + s.toNat * 64 + e.toNat * 32 + l.toNat * 16 + o.toNat = x := Option.some.inj hx
  have hp : x = pack [(2, q.toNat), (4, 9), (4, 6), (4, h.toNat), (4, a.toNat), (2, m.toNat), (5, s.toNat), (1, e.toNat), (1, l.toNat), (4, o.toNat)] := by
    rw [pack_cons 2 29 (pack_cons 4 25 (pack_cons 4 21 (pack_cons 4 17 (pack_cons 4 13 (pack_cons 2 11 (pack_cons 5 6 (pack_cons 1 5 (pack_cons 1 4 (pack_cons 4 0 pack_nil rfl (rfl : 1 = 2 ^ 0)) rfl (rfl : 16 = 2 ^ 4)) rfl (rfl : 32 = 2 ^ 5)) rfl (rfl : 64 = 2 ^ 6)) rfl (rfl : 2048 = 2 ^ 11)) rfl (rfl : 8192 = 2 ^ 13)) rfl (rfl : 131072 = 2 ^ 17)) rfl (rfl : 2097152 = 2 ^ 21)) rfl (rfl : 33554432 = 2 ^ 25)) rfl (rfl : 536870912 = 2 ^ 29)]
    omega
  have hf : Fits [(2, q.toNat), (4, 9), (4, 6), (4, h.toNat), (4, a.toNat), (2, m.toNat), (5, s.toNat), (1, e.toNat), (1, l.toNat), (4, o.toNat)] := ⟨q.isLt, by decide, by decide, h.isLt, a.isLt, m.isLt, s.isLt, e.isLt, l.isLt, o.isLt, trivial⟩
  have h0 : x / 33554432 % 16 = 9 := pack_field [(2, q.toNat)] [(4, 9)] [(4, 6), (4, h.toNat), (4, a.toNat), (2, m.toNat), (5, s.toNat), (1, e.toNat), (1, l.toNat), (4, o.toNat)] 25 4 hp hf rfl rfl rfl rfl rfl rfl
  have h1 : x / 2097152 % 16 = 6 := pack_field [(2, q.toNat), (4, 9)] [(4, 6)] [(4, h.toNat), (4, a.toNat), (2, m.toNat), (5, s.toNat), (1, e.toNat), (1, l.toNat), (4, o.toNat)] 21 4 hp hf rfl rfl rfl rfl rfl rfl
  have e0 : BitVec.ofNat 2 (x / 536870912) = q := ofNat_field [] q [(4, 9), (4, 6), (4, h.toNat), (4, a.toNat), (2, m.toNat), (5, s.toNat), (1, e.toNat), (1, l.toNat), (4, o.toNat)] 29 hp hf rfl rfl rfl
  have e1 : BitVec.ofNat 4 (x / 131072) = h := ofNat_field [(2, q.toNat), (4, 9), (4, 6)] h [(4, a.toNat), (2, m.toNat), (5, s.toNat), (1, e.toNat), (1, l.toNat), (4, o.toNat)] 17 hp hf rfl rfl rfl
  have e2 : BitVec.ofNat 4 (x / 8192) = a := ofNat_field [(2, q.toNat), (4, 9), (4, 6), (4, h.toNat)] a [(2, m.toNat), (5, s.toNat), (1, e.toNat), (1, l.toNat), (4, o.toNat)] 13 hp hf rfl rfl rfl
  have e3 : BitVec.ofNat 2 (x / 2048) = m := ofNat_field [(2, q.toNat), (4, 9), (4, 6), (4, h.toNat), (4, a.toNat)] m [(5, s.toNat), (1, e.toNat), (1, l.toNat), (4, o.toNat)] 11 hp hf rfl rfl rfl
  have e4 : BitVec.ofNat 5 (x / 64) = s := ofNat_field [(2, q.toNat), (4, 9), (4, 6), (4, h.toNat), (4, a.toNat), (2, m.toNat)] s [(1, e.toNat), (1, l.toNat), (4, o.toNat)] 6 hp hf rfl rfl rfl
  have e5 : BitVec.ofNat 1 (x / 32) = e := ofNat_field [(2, q.toNat), (4, 9), (4, 6), (4, h.toNat), (4, a.toNat), (2, m.toNat), (5, s.toNat)] e [(1, l.toNat), (4, o.toNat)] 5 hp hf rfl rfl rfl
  have e6 : BitVec.ofNat 1 (x / 16) = l := ofNat_field [(2, q.toNat), (4, 9), (4, 6), (4, h.toNat), (4, a.toNat), (2, m.toNat), (5, s.toNat), (1, e.toNat)] l [(4, o.toNat)] 4 hp hf rfl rfl rfl
  have e7 : BitVec.ofNat 4 x = o := ofNat_low [(2, q.toNat), (4, 9), (4, 6), (4, h.toNat), (4, a.toNat), (2, m.toNat), (5, s.toNat), (1, e.toNat), (1, l.toNat)] o hp hf rfl
  refine ⟨pack_bound 31 hp hf rfl, (.epiAdd q h a m s e l o none), ?_, rfl, ?_⟩
  · simp only [decodeNat, decodeM, h0, h1, ↓reduceIte]
    rw [e0, e1, e2, e3, e4, e5, e6, e7]
    try rfl
  · cases ext <;> first | rfl

theorem EncodeDecode.epiSend (q : BitVec 2) (r : BitVec 2) (h : BitVec 4) (a : BitVec 4) (m : BitVec 2) (s : BitVec 5) (ext : Option (BitVec 25)) : EncodeDecode.Statement (.epiSend q r h a m s ext) := by
  intro hwf x hx
  replace hx : 316669952 + q.toNat * 536870912 + r.toNat * 524288 + h.toNat * 32768 + a.toNat * 2048 + m.toNat * 512 + s.toNat * 16 = x := Option.some.inj hx
  have hp : x = pack [(2, q.toNat), (4, 9), (4, 7), (2, r.toNat), (4, h.toNat), (4, a.toNat), (2, m.toNat), (5, s.toNat), (4, 0)] := by
    rw [pack_cons 2 29 (pack_cons 4 25 (pack_cons 4 21 (pack_cons 2 19 (pack_cons 4 15 (pack_cons 4 11 (pack_cons 2 9 (pack_cons 5 4 (pack_cons 4 0 pack_nil rfl (rfl : 1 = 2 ^ 0)) rfl (rfl : 16 = 2 ^ 4)) rfl (rfl : 512 = 2 ^ 9)) rfl (rfl : 2048 = 2 ^ 11)) rfl (rfl : 32768 = 2 ^ 15)) rfl (rfl : 524288 = 2 ^ 19)) rfl (rfl : 2097152 = 2 ^ 21)) rfl (rfl : 33554432 = 2 ^ 25)) rfl (rfl : 536870912 = 2 ^ 29)]
    omega
  have hf : Fits [(2, q.toNat), (4, 9), (4, 7), (2, r.toNat), (4, h.toNat), (4, a.toNat), (2, m.toNat), (5, s.toNat), (4, 0)] := ⟨q.isLt, by decide, by decide, r.isLt, h.isLt, a.isLt, m.isLt, s.isLt, by decide, trivial⟩
  have h0 : x / 33554432 % 16 = 9 := pack_field [(2, q.toNat)] [(4, 9)] [(4, 7), (2, r.toNat), (4, h.toNat), (4, a.toNat), (2, m.toNat), (5, s.toNat), (4, 0)] 25 4 hp hf rfl rfl rfl rfl rfl rfl
  have h1 : x / 2097152 % 16 = 7 := pack_field [(2, q.toNat), (4, 9)] [(4, 7)] [(2, r.toNat), (4, h.toNat), (4, a.toNat), (2, m.toNat), (5, s.toNat), (4, 0)] 21 4 hp hf rfl rfl rfl rfl rfl rfl
  have h2 : x % 16 = 0 := pack_low [(2, q.toNat), (4, 9), (4, 7), (2, r.toNat), (4, h.toNat), (4, a.toNat), (2, m.toNat), (5, s.toNat)] [(4, 0)] 4 hp hf rfl rfl rfl rfl
  have e0 : BitVec.ofNat 2 (x / 536870912) = q := ofNat_field [] q [(4, 9), (4, 7), (2, r.toNat), (4, h.toNat), (4, a.toNat), (2, m.toNat), (5, s.toNat), (4, 0)] 29 hp hf rfl rfl rfl
  have e1 : BitVec.ofNat 2 (x / 524288) = r := ofNat_field [(2, q.toNat), (4, 9), (4, 7)] r [(4, h.toNat), (4, a.toNat), (2, m.toNat), (5, s.toNat), (4, 0)] 19 hp hf rfl rfl rfl
  have e2 : BitVec.ofNat 4 (x / 32768) = h := ofNat_field [(2, q.toNat), (4, 9), (4, 7), (2, r.toNat)] h [(4, a.toNat), (2, m.toNat), (5, s.toNat), (4, 0)] 15 hp hf rfl rfl rfl
  have e3 : BitVec.ofNat 4 (x / 2048) = a := ofNat_field [(2, q.toNat), (4, 9), (4, 7), (2, r.toNat), (4, h.toNat)] a [(2, m.toNat), (5, s.toNat), (4, 0)] 11 hp hf rfl rfl rfl
  have e4 : BitVec.ofNat 2 (x / 512) = m := ofNat_field [(2, q.toNat), (4, 9), (4, 7), (2, r.toNat), (4, h.toNat), (4, a.toNat)] m [(5, s.toNat), (4, 0)] 9 hp hf rfl rfl rfl
  have e5 : BitVec.ofNat 5 (x / 16) = s := ofNat_field [(2, q.toNat), (4, 9), (4, 7), (2, r.toNat), (4, h.toNat), (4, a.toNat), (2, m.toNat)] s [(4, 0)] 4 hp hf rfl rfl rfl
  refine ⟨pack_bound 31 hp hf rfl, (.epiSend q r h a m s none), ?_, rfl, ?_⟩
  · simp only [decodeNat, decodeM, h0, h1, h2, ↓reduceIte]
    rw [e0, e1, e2, e3, e4, e5]
    try rfl
  · cases ext <;> first | rfl

theorem EncodeDecode.epiCk (q : BitVec 2) (p : BitVec 3) (a : BitVec 4) : EncodeDecode.Statement (.epiCk q p a) := by
  intro hwf x hx
  replace hx : 318767104 + q.toNat * 536870912 + p.toNat * 262144 + a.toNat * 16384 = x := Option.some.inj hx
  have hp : x = pack [(2, q.toNat), (4, 9), (4, 8), (3, p.toNat), (4, a.toNat), (14, 0)] := by
    rw [pack_cons 2 29 (pack_cons 4 25 (pack_cons 4 21 (pack_cons 3 18 (pack_cons 4 14 (pack_cons 14 0 pack_nil rfl (rfl : 1 = 2 ^ 0)) rfl (rfl : 16384 = 2 ^ 14)) rfl (rfl : 262144 = 2 ^ 18)) rfl (rfl : 2097152 = 2 ^ 21)) rfl (rfl : 33554432 = 2 ^ 25)) rfl (rfl : 536870912 = 2 ^ 29)]
    omega
  have hf : Fits [(2, q.toNat), (4, 9), (4, 8), (3, p.toNat), (4, a.toNat), (14, 0)] := ⟨q.isLt, by decide, by decide, p.isLt, a.isLt, by decide, trivial⟩
  have h0 : x / 33554432 % 16 = 9 := pack_field [(2, q.toNat)] [(4, 9)] [(4, 8), (3, p.toNat), (4, a.toNat), (14, 0)] 25 4 hp hf rfl rfl rfl rfl rfl rfl
  have h1 : x / 2097152 % 16 = 8 := pack_field [(2, q.toNat), (4, 9)] [(4, 8)] [(3, p.toNat), (4, a.toNat), (14, 0)] 21 4 hp hf rfl rfl rfl rfl rfl rfl
  have h2 : x % 16384 = 0 := pack_low [(2, q.toNat), (4, 9), (4, 8), (3, p.toNat), (4, a.toNat)] [(14, 0)] 14 hp hf rfl rfl rfl rfl
  have e0 : BitVec.ofNat 2 (x / 536870912) = q := ofNat_field [] q [(4, 9), (4, 8), (3, p.toNat), (4, a.toNat), (14, 0)] 29 hp hf rfl rfl rfl
  have e1 : BitVec.ofNat 3 (x / 262144) = p := ofNat_field [(2, q.toNat), (4, 9), (4, 8)] p [(4, a.toNat), (14, 0)] 18 hp hf rfl rfl rfl
  have e2 : BitVec.ofNat 4 (x / 16384) = a := ofNat_field [(2, q.toNat), (4, 9), (4, 8), (3, p.toNat)] a [(14, 0)] 14 hp hf rfl rfl rfl
  refine ⟨pack_bound 31 hp hf rfl, (.epiCk q p a), ?_, rfl, ?_⟩
  · simp only [decodeNat, decodeM, h0, h1, h2, ↓reduceIte]
    rw [e0, e1, e2]
    try rfl
  · rfl

theorem EncodeDecode.hset (q : BitVec 2) (g : BitVec 4) (h : BitVec 4) (x0 : BitVec 2) (a : BitVec 5) : EncodeDecode.Statement (.hset q g h x0 a) := by
  intro hwf x hx
  replace hx : 335544320 + q.toNat * 536870912 + g.toNat * 2097152 + h.toNat * 8192 + x0.toNat * 2048 + a.toNat = x := Option.some.inj hx
  have hp : x = pack [(2, q.toNat), (4, 10), (4, g.toNat), (4, 0), (4, h.toNat), (2, x0.toNat), (6, 0), (5, a.toNat)] := by
    rw [pack_cons 2 29 (pack_cons 4 25 (pack_cons 4 21 (pack_cons 4 17 (pack_cons 4 13 (pack_cons 2 11 (pack_cons 6 5 (pack_cons 5 0 pack_nil rfl (rfl : 1 = 2 ^ 0)) rfl (rfl : 32 = 2 ^ 5)) rfl (rfl : 2048 = 2 ^ 11)) rfl (rfl : 8192 = 2 ^ 13)) rfl (rfl : 131072 = 2 ^ 17)) rfl (rfl : 2097152 = 2 ^ 21)) rfl (rfl : 33554432 = 2 ^ 25)) rfl (rfl : 536870912 = 2 ^ 29)]
    omega
  have hf : Fits [(2, q.toNat), (4, 10), (4, g.toNat), (4, 0), (4, h.toNat), (2, x0.toNat), (6, 0), (5, a.toNat)] := ⟨q.isLt, by decide, g.isLt, by decide, h.isLt, x0.isLt, by decide, a.isLt, trivial⟩
  have h0 : x / 33554432 % 16 = 10 := pack_field [(2, q.toNat)] [(4, 10)] [(4, g.toNat), (4, 0), (4, h.toNat), (2, x0.toNat), (6, 0), (5, a.toNat)] 25 4 hp hf rfl rfl rfl rfl rfl rfl
  have h1 : x / 131072 % 16 = 0 := pack_field [(2, q.toNat), (4, 10), (4, g.toNat)] [(4, 0)] [(4, h.toNat), (2, x0.toNat), (6, 0), (5, a.toNat)] 17 4 hp hf rfl rfl rfl rfl rfl rfl
  have h2 : x / 32 % 64 = 0 := pack_field [(2, q.toNat), (4, 10), (4, g.toNat), (4, 0), (4, h.toNat), (2, x0.toNat)] [(6, 0)] [(5, a.toNat)] 5 6 hp hf rfl rfl rfl rfl rfl rfl
  have e0 : BitVec.ofNat 2 (x / 536870912) = q := ofNat_field [] q [(4, 10), (4, g.toNat), (4, 0), (4, h.toNat), (2, x0.toNat), (6, 0), (5, a.toNat)] 29 hp hf rfl rfl rfl
  have e1 : BitVec.ofNat 4 (x / 2097152) = g := ofNat_field [(2, q.toNat), (4, 10)] g [(4, 0), (4, h.toNat), (2, x0.toNat), (6, 0), (5, a.toNat)] 21 hp hf rfl rfl rfl
  have e2 : BitVec.ofNat 4 (x / 8192) = h := ofNat_field [(2, q.toNat), (4, 10), (4, g.toNat), (4, 0)] h [(2, x0.toNat), (6, 0), (5, a.toNat)] 13 hp hf rfl rfl rfl
  have e3 : BitVec.ofNat 2 (x / 2048) = x0 := ofNat_field [(2, q.toNat), (4, 10), (4, g.toNat), (4, 0), (4, h.toNat)] x0 [(6, 0), (5, a.toNat)] 11 hp hf rfl rfl rfl
  have e4 : BitVec.ofNat 5 x = a := ofNat_low [(2, q.toNat), (4, 10), (4, g.toNat), (4, 0), (4, h.toNat), (2, x0.toNat), (6, 0)] a hp hf rfl
  refine ⟨pack_bound 31 hp hf rfl, (.hset q g h x0 a), ?_, rfl, ?_⟩
  · simp only [decodeNat, decodeT, h0, h1, h2, ↓reduceIte]
    rw [e0, e1, e2, e3, e4]
    try rfl
  · rfl

theorem EncodeDecode.hld (q : BitVec 2) (g : BitVec 4) (h : BitVec 4) (f : BitVec 8) (a : BitVec 5) : EncodeDecode.Statement (.hld q g h f a) := by
  intro hwf x hx
  replace hx : 335675392 + q.toNat * 536870912 + g.toNat * 2097152 + h.toNat * 8192 + f.toNat * 32 + a.toNat = x := Option.some.inj hx
  have hp : x = pack [(2, q.toNat), (4, 10), (4, g.toNat), (4, 1), (4, h.toNat), (8, f.toNat), (5, a.toNat)] := by
    rw [pack_cons 2 29 (pack_cons 4 25 (pack_cons 4 21 (pack_cons 4 17 (pack_cons 4 13 (pack_cons 8 5 (pack_cons 5 0 pack_nil rfl (rfl : 1 = 2 ^ 0)) rfl (rfl : 32 = 2 ^ 5)) rfl (rfl : 8192 = 2 ^ 13)) rfl (rfl : 131072 = 2 ^ 17)) rfl (rfl : 2097152 = 2 ^ 21)) rfl (rfl : 33554432 = 2 ^ 25)) rfl (rfl : 536870912 = 2 ^ 29)]
    omega
  have hf : Fits [(2, q.toNat), (4, 10), (4, g.toNat), (4, 1), (4, h.toNat), (8, f.toNat), (5, a.toNat)] := ⟨q.isLt, by decide, g.isLt, by decide, h.isLt, f.isLt, a.isLt, trivial⟩
  have h0 : x / 33554432 % 16 = 10 := pack_field [(2, q.toNat)] [(4, 10)] [(4, g.toNat), (4, 1), (4, h.toNat), (8, f.toNat), (5, a.toNat)] 25 4 hp hf rfl rfl rfl rfl rfl rfl
  have h1 : x / 131072 % 16 = 1 := pack_field [(2, q.toNat), (4, 10), (4, g.toNat)] [(4, 1)] [(4, h.toNat), (8, f.toNat), (5, a.toNat)] 17 4 hp hf rfl rfl rfl rfl rfl rfl
  have e0 : BitVec.ofNat 2 (x / 536870912) = q := ofNat_field [] q [(4, 10), (4, g.toNat), (4, 1), (4, h.toNat), (8, f.toNat), (5, a.toNat)] 29 hp hf rfl rfl rfl
  have e1 : BitVec.ofNat 4 (x / 2097152) = g := ofNat_field [(2, q.toNat), (4, 10)] g [(4, 1), (4, h.toNat), (8, f.toNat), (5, a.toNat)] 21 hp hf rfl rfl rfl
  have e2 : BitVec.ofNat 4 (x / 8192) = h := ofNat_field [(2, q.toNat), (4, 10), (4, g.toNat), (4, 1)] h [(8, f.toNat), (5, a.toNat)] 13 hp hf rfl rfl rfl
  have e3 : BitVec.ofNat 8 (x / 32) = f := ofNat_field [(2, q.toNat), (4, 10), (4, g.toNat), (4, 1), (4, h.toNat)] f [(5, a.toNat)] 5 hp hf rfl rfl rfl
  have e4 : BitVec.ofNat 5 x = a := ofNat_low [(2, q.toNat), (4, 10), (4, g.toNat), (4, 1), (4, h.toNat), (8, f.toNat)] a hp hf rfl
  refine ⟨pack_bound 31 hp hf rfl, (.hld q g h f a), ?_, rfl, ?_⟩
  · simp only [decodeNat, decodeT, h0, h1, ↓reduceIte]
    rw [e0, e1, e2, e3, e4]
    try rfl
  · rfl

theorem EncodeDecode.hst (q : BitVec 2) (g : BitVec 4) (h : BitVec 4) (f : BitVec 8) (a : BitVec 5) : EncodeDecode.Statement (.hst q g h f a) := by
  intro hwf x hx
  replace hx : 335806464 + q.toNat * 536870912 + g.toNat * 2097152 + h.toNat * 8192 + f.toNat * 32 + a.toNat = x := Option.some.inj hx
  have hp : x = pack [(2, q.toNat), (4, 10), (4, g.toNat), (4, 2), (4, h.toNat), (8, f.toNat), (5, a.toNat)] := by
    rw [pack_cons 2 29 (pack_cons 4 25 (pack_cons 4 21 (pack_cons 4 17 (pack_cons 4 13 (pack_cons 8 5 (pack_cons 5 0 pack_nil rfl (rfl : 1 = 2 ^ 0)) rfl (rfl : 32 = 2 ^ 5)) rfl (rfl : 8192 = 2 ^ 13)) rfl (rfl : 131072 = 2 ^ 17)) rfl (rfl : 2097152 = 2 ^ 21)) rfl (rfl : 33554432 = 2 ^ 25)) rfl (rfl : 536870912 = 2 ^ 29)]
    omega
  have hf : Fits [(2, q.toNat), (4, 10), (4, g.toNat), (4, 2), (4, h.toNat), (8, f.toNat), (5, a.toNat)] := ⟨q.isLt, by decide, g.isLt, by decide, h.isLt, f.isLt, a.isLt, trivial⟩
  have h0 : x / 33554432 % 16 = 10 := pack_field [(2, q.toNat)] [(4, 10)] [(4, g.toNat), (4, 2), (4, h.toNat), (8, f.toNat), (5, a.toNat)] 25 4 hp hf rfl rfl rfl rfl rfl rfl
  have h1 : x / 131072 % 16 = 2 := pack_field [(2, q.toNat), (4, 10), (4, g.toNat)] [(4, 2)] [(4, h.toNat), (8, f.toNat), (5, a.toNat)] 17 4 hp hf rfl rfl rfl rfl rfl rfl
  have e0 : BitVec.ofNat 2 (x / 536870912) = q := ofNat_field [] q [(4, 10), (4, g.toNat), (4, 2), (4, h.toNat), (8, f.toNat), (5, a.toNat)] 29 hp hf rfl rfl rfl
  have e1 : BitVec.ofNat 4 (x / 2097152) = g := ofNat_field [(2, q.toNat), (4, 10)] g [(4, 2), (4, h.toNat), (8, f.toNat), (5, a.toNat)] 21 hp hf rfl rfl rfl
  have e2 : BitVec.ofNat 4 (x / 8192) = h := ofNat_field [(2, q.toNat), (4, 10), (4, g.toNat), (4, 2)] h [(8, f.toNat), (5, a.toNat)] 13 hp hf rfl rfl rfl
  have e3 : BitVec.ofNat 8 (x / 32) = f := ofNat_field [(2, q.toNat), (4, 10), (4, g.toNat), (4, 2), (4, h.toNat)] f [(5, a.toNat)] 5 hp hf rfl rfl rfl
  have e4 : BitVec.ofNat 5 x = a := ofNat_low [(2, q.toNat), (4, 10), (4, g.toNat), (4, 2), (4, h.toNat), (8, f.toNat)] a hp hf rfl
  refine ⟨pack_bound 31 hp hf rfl, (.hst q g h f a), ?_, rfl, ?_⟩
  · simp only [decodeNat, decodeT, h0, h1, ↓reduceIte]
    rw [e0, e1, e2, e3, e4]
    try rfl
  · rfl

theorem EncodeDecode.horg (q : BitVec 2) (g : BitVec 4) (h : BitVec 4) (d : BitVec 3) (a : BitVec 5) : EncodeDecode.Statement (.horg q g h d a) := by
  intro hwf x hx
  replace hx : 335937536 + q.toNat * 536870912 + g.toNat * 2097152 + h.toNat * 8192 + d.toNat * 1024 + a.toNat = x := Option.some.inj hx
  have hp : x = pack [(2, q.toNat), (4, 10), (4, g.toNat), (4, 3), (4, h.toNat), (3, d.toNat), (5, 0), (5, a.toNat)] := by
    rw [pack_cons 2 29 (pack_cons 4 25 (pack_cons 4 21 (pack_cons 4 17 (pack_cons 4 13 (pack_cons 3 10 (pack_cons 5 5 (pack_cons 5 0 pack_nil rfl (rfl : 1 = 2 ^ 0)) rfl (rfl : 32 = 2 ^ 5)) rfl (rfl : 1024 = 2 ^ 10)) rfl (rfl : 8192 = 2 ^ 13)) rfl (rfl : 131072 = 2 ^ 17)) rfl (rfl : 2097152 = 2 ^ 21)) rfl (rfl : 33554432 = 2 ^ 25)) rfl (rfl : 536870912 = 2 ^ 29)]
    omega
  have hf : Fits [(2, q.toNat), (4, 10), (4, g.toNat), (4, 3), (4, h.toNat), (3, d.toNat), (5, 0), (5, a.toNat)] := ⟨q.isLt, by decide, g.isLt, by decide, h.isLt, d.isLt, by decide, a.isLt, trivial⟩
  have h0 : x / 33554432 % 16 = 10 := pack_field [(2, q.toNat)] [(4, 10)] [(4, g.toNat), (4, 3), (4, h.toNat), (3, d.toNat), (5, 0), (5, a.toNat)] 25 4 hp hf rfl rfl rfl rfl rfl rfl
  have h1 : x / 131072 % 16 = 3 := pack_field [(2, q.toNat), (4, 10), (4, g.toNat)] [(4, 3)] [(4, h.toNat), (3, d.toNat), (5, 0), (5, a.toNat)] 17 4 hp hf rfl rfl rfl rfl rfl rfl
  have h2 : x / 32 % 32 = 0 := pack_field [(2, q.toNat), (4, 10), (4, g.toNat), (4, 3), (4, h.toNat), (3, d.toNat)] [(5, 0)] [(5, a.toNat)] 5 5 hp hf rfl rfl rfl rfl rfl rfl
  have e0 : BitVec.ofNat 2 (x / 536870912) = q := ofNat_field [] q [(4, 10), (4, g.toNat), (4, 3), (4, h.toNat), (3, d.toNat), (5, 0), (5, a.toNat)] 29 hp hf rfl rfl rfl
  have e1 : BitVec.ofNat 4 (x / 2097152) = g := ofNat_field [(2, q.toNat), (4, 10)] g [(4, 3), (4, h.toNat), (3, d.toNat), (5, 0), (5, a.toNat)] 21 hp hf rfl rfl rfl
  have e2 : BitVec.ofNat 4 (x / 8192) = h := ofNat_field [(2, q.toNat), (4, 10), (4, g.toNat), (4, 3)] h [(3, d.toNat), (5, 0), (5, a.toNat)] 13 hp hf rfl rfl rfl
  have e3 : BitVec.ofNat 3 (x / 1024) = d := ofNat_field [(2, q.toNat), (4, 10), (4, g.toNat), (4, 3), (4, h.toNat)] d [(5, 0), (5, a.toNat)] 10 hp hf rfl rfl rfl
  have e4 : BitVec.ofNat 5 x = a := ofNat_low [(2, q.toNat), (4, 10), (4, g.toNat), (4, 3), (4, h.toNat), (3, d.toNat), (5, 0)] a hp hf rfl
  refine ⟨pack_bound 31 hp hf rfl, (.horg q g h d a), ?_, rfl, ?_⟩
  · simp only [decodeNat, decodeT, h0, h1, h2, ↓reduceIte]
    rw [e0, e1, e2, e3, e4]
    try rfl
  · rfl

theorem EncodeDecode.horgImm (q : BitVec 2) (g : BitVec 4) (h : BitVec 4) (d : BitVec 3) (i : BitVec 9) (ext : Option (BitVec 25)) : EncodeDecode.Statement (.horgImm q g h d i ext) := by
  intro hwf x hx
  replace hx : 335938048 + q.toNat * 536870912 + g.toNat * 2097152 + h.toNat * 8192 + d.toNat * 1024 + i.toNat = x := Option.some.inj hx
  have hp : x = pack [(2, q.toNat), (4, 10), (4, g.toNat), (4, 3), (4, h.toNat), (3, d.toNat), (1, 1), (9, i.toNat)] := by
    rw [pack_cons 2 29 (pack_cons 4 25 (pack_cons 4 21 (pack_cons 4 17 (pack_cons 4 13 (pack_cons 3 10 (pack_cons 1 9 (pack_cons 9 0 pack_nil rfl (rfl : 1 = 2 ^ 0)) rfl (rfl : 512 = 2 ^ 9)) rfl (rfl : 1024 = 2 ^ 10)) rfl (rfl : 8192 = 2 ^ 13)) rfl (rfl : 131072 = 2 ^ 17)) rfl (rfl : 2097152 = 2 ^ 21)) rfl (rfl : 33554432 = 2 ^ 25)) rfl (rfl : 536870912 = 2 ^ 29)]
    omega
  have hf : Fits [(2, q.toNat), (4, 10), (4, g.toNat), (4, 3), (4, h.toNat), (3, d.toNat), (1, 1), (9, i.toNat)] := ⟨q.isLt, by decide, g.isLt, by decide, h.isLt, d.isLt, by decide, i.isLt, trivial⟩
  have h0 : x / 33554432 % 16 = 10 := pack_field [(2, q.toNat)] [(4, 10)] [(4, g.toNat), (4, 3), (4, h.toNat), (3, d.toNat), (1, 1), (9, i.toNat)] 25 4 hp hf rfl rfl rfl rfl rfl rfl
  have h1 : x / 131072 % 16 = 3 := pack_field [(2, q.toNat), (4, 10), (4, g.toNat)] [(4, 3)] [(4, h.toNat), (3, d.toNat), (1, 1), (9, i.toNat)] 17 4 hp hf rfl rfl rfl rfl rfl rfl
  have := q.isLt
  have := g.isLt
  have := h.isLt
  have := d.isLt
  have := i.isLt
  have h3 : ¬(x / 32 % 32 = 0) := by omega
  have h4 : x / 512 % 2 = 1 := pack_field [(2, q.toNat), (4, 10), (4, g.toNat), (4, 3), (4, h.toNat), (3, d.toNat)] [(1, 1)] [(9, i.toNat)] 9 1 hp hf rfl rfl rfl rfl rfl rfl
  have e0 : BitVec.ofNat 2 (x / 536870912) = q := ofNat_field [] q [(4, 10), (4, g.toNat), (4, 3), (4, h.toNat), (3, d.toNat), (1, 1), (9, i.toNat)] 29 hp hf rfl rfl rfl
  have e1 : BitVec.ofNat 4 (x / 2097152) = g := ofNat_field [(2, q.toNat), (4, 10)] g [(4, 3), (4, h.toNat), (3, d.toNat), (1, 1), (9, i.toNat)] 21 hp hf rfl rfl rfl
  have e2 : BitVec.ofNat 4 (x / 8192) = h := ofNat_field [(2, q.toNat), (4, 10), (4, g.toNat), (4, 3)] h [(3, d.toNat), (1, 1), (9, i.toNat)] 13 hp hf rfl rfl rfl
  have e3 : BitVec.ofNat 3 (x / 1024) = d := ofNat_field [(2, q.toNat), (4, 10), (4, g.toNat), (4, 3), (4, h.toNat)] d [(1, 1), (9, i.toNat)] 10 hp hf rfl rfl rfl
  have e4 : BitVec.ofNat 9 x = i := ofNat_low [(2, q.toNat), (4, 10), (4, g.toNat), (4, 3), (4, h.toNat), (3, d.toNat), (1, 1)] i hp hf rfl
  refine ⟨pack_bound 31 hp hf rfl, (.horgImm q g h d i none), ?_, rfl, ?_⟩
  · simp only [decodeNat, decodeT, h0, h1, if_neg h3, h4, ↓reduceIte]
    rw [e0, e1, e2, e3, e4]
    try rfl
  · cases ext <;> first | rfl

theorem EncodeDecode.hstep (q : BitVec 2) (g : BitVec 4) (h : BitVec 4) (d : BitVec 3) (a : BitVec 5) : EncodeDecode.Statement (.hstep q g h d a) := by
  intro hwf x hx
  replace hx : 336068608 + q.toNat * 536870912 + g.toNat * 2097152 + h.toNat * 8192 + d.toNat * 1024 + a.toNat = x := Option.some.inj hx
  have hp : x = pack [(2, q.toNat), (4, 10), (4, g.toNat), (4, 4), (4, h.toNat), (3, d.toNat), (5, 0), (5, a.toNat)] := by
    rw [pack_cons 2 29 (pack_cons 4 25 (pack_cons 4 21 (pack_cons 4 17 (pack_cons 4 13 (pack_cons 3 10 (pack_cons 5 5 (pack_cons 5 0 pack_nil rfl (rfl : 1 = 2 ^ 0)) rfl (rfl : 32 = 2 ^ 5)) rfl (rfl : 1024 = 2 ^ 10)) rfl (rfl : 8192 = 2 ^ 13)) rfl (rfl : 131072 = 2 ^ 17)) rfl (rfl : 2097152 = 2 ^ 21)) rfl (rfl : 33554432 = 2 ^ 25)) rfl (rfl : 536870912 = 2 ^ 29)]
    omega
  have hf : Fits [(2, q.toNat), (4, 10), (4, g.toNat), (4, 4), (4, h.toNat), (3, d.toNat), (5, 0), (5, a.toNat)] := ⟨q.isLt, by decide, g.isLt, by decide, h.isLt, d.isLt, by decide, a.isLt, trivial⟩
  have h0 : x / 33554432 % 16 = 10 := pack_field [(2, q.toNat)] [(4, 10)] [(4, g.toNat), (4, 4), (4, h.toNat), (3, d.toNat), (5, 0), (5, a.toNat)] 25 4 hp hf rfl rfl rfl rfl rfl rfl
  have h1 : x / 131072 % 16 = 4 := pack_field [(2, q.toNat), (4, 10), (4, g.toNat)] [(4, 4)] [(4, h.toNat), (3, d.toNat), (5, 0), (5, a.toNat)] 17 4 hp hf rfl rfl rfl rfl rfl rfl
  have h2 : x / 32 % 32 = 0 := pack_field [(2, q.toNat), (4, 10), (4, g.toNat), (4, 4), (4, h.toNat), (3, d.toNat)] [(5, 0)] [(5, a.toNat)] 5 5 hp hf rfl rfl rfl rfl rfl rfl
  have e0 : BitVec.ofNat 2 (x / 536870912) = q := ofNat_field [] q [(4, 10), (4, g.toNat), (4, 4), (4, h.toNat), (3, d.toNat), (5, 0), (5, a.toNat)] 29 hp hf rfl rfl rfl
  have e1 : BitVec.ofNat 4 (x / 2097152) = g := ofNat_field [(2, q.toNat), (4, 10)] g [(4, 4), (4, h.toNat), (3, d.toNat), (5, 0), (5, a.toNat)] 21 hp hf rfl rfl rfl
  have e2 : BitVec.ofNat 4 (x / 8192) = h := ofNat_field [(2, q.toNat), (4, 10), (4, g.toNat), (4, 4)] h [(3, d.toNat), (5, 0), (5, a.toNat)] 13 hp hf rfl rfl rfl
  have e3 : BitVec.ofNat 3 (x / 1024) = d := ofNat_field [(2, q.toNat), (4, 10), (4, g.toNat), (4, 4), (4, h.toNat)] d [(5, 0), (5, a.toNat)] 10 hp hf rfl rfl rfl
  have e4 : BitVec.ofNat 5 x = a := ofNat_low [(2, q.toNat), (4, 10), (4, g.toNat), (4, 4), (4, h.toNat), (3, d.toNat), (5, 0)] a hp hf rfl
  refine ⟨pack_bound 31 hp hf rfl, (.hstep q g h d a), ?_, rfl, ?_⟩
  · simp only [decodeNat, decodeT, h0, h1, h2, ↓reduceIte]
    rw [e0, e1, e2, e3, e4]
    try rfl
  · rfl

theorem EncodeDecode.hstepImm (q : BitVec 2) (g : BitVec 4) (h : BitVec 4) (d : BitVec 3) (i : BitVec 9) (ext : Option (BitVec 25)) : EncodeDecode.Statement (.hstepImm q g h d i ext) := by
  intro hwf x hx
  replace hx : 336069120 + q.toNat * 536870912 + g.toNat * 2097152 + h.toNat * 8192 + d.toNat * 1024 + i.toNat = x := Option.some.inj hx
  have hp : x = pack [(2, q.toNat), (4, 10), (4, g.toNat), (4, 4), (4, h.toNat), (3, d.toNat), (1, 1), (9, i.toNat)] := by
    rw [pack_cons 2 29 (pack_cons 4 25 (pack_cons 4 21 (pack_cons 4 17 (pack_cons 4 13 (pack_cons 3 10 (pack_cons 1 9 (pack_cons 9 0 pack_nil rfl (rfl : 1 = 2 ^ 0)) rfl (rfl : 512 = 2 ^ 9)) rfl (rfl : 1024 = 2 ^ 10)) rfl (rfl : 8192 = 2 ^ 13)) rfl (rfl : 131072 = 2 ^ 17)) rfl (rfl : 2097152 = 2 ^ 21)) rfl (rfl : 33554432 = 2 ^ 25)) rfl (rfl : 536870912 = 2 ^ 29)]
    omega
  have hf : Fits [(2, q.toNat), (4, 10), (4, g.toNat), (4, 4), (4, h.toNat), (3, d.toNat), (1, 1), (9, i.toNat)] := ⟨q.isLt, by decide, g.isLt, by decide, h.isLt, d.isLt, by decide, i.isLt, trivial⟩
  have h0 : x / 33554432 % 16 = 10 := pack_field [(2, q.toNat)] [(4, 10)] [(4, g.toNat), (4, 4), (4, h.toNat), (3, d.toNat), (1, 1), (9, i.toNat)] 25 4 hp hf rfl rfl rfl rfl rfl rfl
  have h1 : x / 131072 % 16 = 4 := pack_field [(2, q.toNat), (4, 10), (4, g.toNat)] [(4, 4)] [(4, h.toNat), (3, d.toNat), (1, 1), (9, i.toNat)] 17 4 hp hf rfl rfl rfl rfl rfl rfl
  have := q.isLt
  have := g.isLt
  have := h.isLt
  have := d.isLt
  have := i.isLt
  have h3 : ¬(x / 32 % 32 = 0) := by omega
  have h4 : x / 512 % 2 = 1 := pack_field [(2, q.toNat), (4, 10), (4, g.toNat), (4, 4), (4, h.toNat), (3, d.toNat)] [(1, 1)] [(9, i.toNat)] 9 1 hp hf rfl rfl rfl rfl rfl rfl
  have e0 : BitVec.ofNat 2 (x / 536870912) = q := ofNat_field [] q [(4, 10), (4, g.toNat), (4, 4), (4, h.toNat), (3, d.toNat), (1, 1), (9, i.toNat)] 29 hp hf rfl rfl rfl
  have e1 : BitVec.ofNat 4 (x / 2097152) = g := ofNat_field [(2, q.toNat), (4, 10)] g [(4, 4), (4, h.toNat), (3, d.toNat), (1, 1), (9, i.toNat)] 21 hp hf rfl rfl rfl
  have e2 : BitVec.ofNat 4 (x / 8192) = h := ofNat_field [(2, q.toNat), (4, 10), (4, g.toNat), (4, 4)] h [(3, d.toNat), (1, 1), (9, i.toNat)] 13 hp hf rfl rfl rfl
  have e3 : BitVec.ofNat 3 (x / 1024) = d := ofNat_field [(2, q.toNat), (4, 10), (4, g.toNat), (4, 4), (4, h.toNat)] d [(1, 1), (9, i.toNat)] 10 hp hf rfl rfl rfl
  have e4 : BitVec.ofNat 9 x = i := ofNat_low [(2, q.toNat), (4, 10), (4, g.toNat), (4, 4), (4, h.toNat), (3, d.toNat), (1, 1)] i hp hf rfl
  refine ⟨pack_bound 31 hp hf rfl, (.hstepImm q g h d i none), ?_, rfl, ?_⟩
  · simp only [decodeNat, decodeT, h0, h1, if_neg h3, h4, ↓reduceIte]
    rw [e0, e1, e2, e3, e4]
    try rfl
  · cases ext <;> first | rfl

theorem EncodeDecode.kset (q : BitVec 2) (g : BitVec 4) (k : BitVec 6) (m : BitVec 5) (a : BitVec 5) : EncodeDecode.Statement (.kset q g k m a) := by
  intro hwf x hx
  replace hx : 336199680 + q.toNat * 536870912 + g.toNat * 2097152 + k.toNat * 2048 + m.toNat * 32 + a.toNat = x := Option.some.inj hx
  have hp : x = pack [(2, q.toNat), (4, 10), (4, g.toNat), (4, 5), (6, k.toNat), (1, 0), (5, m.toNat), (5, a.toNat)] := by
    rw [pack_cons 2 29 (pack_cons 4 25 (pack_cons 4 21 (pack_cons 4 17 (pack_cons 6 11 (pack_cons 1 10 (pack_cons 5 5 (pack_cons 5 0 pack_nil rfl (rfl : 1 = 2 ^ 0)) rfl (rfl : 32 = 2 ^ 5)) rfl (rfl : 1024 = 2 ^ 10)) rfl (rfl : 2048 = 2 ^ 11)) rfl (rfl : 131072 = 2 ^ 17)) rfl (rfl : 2097152 = 2 ^ 21)) rfl (rfl : 33554432 = 2 ^ 25)) rfl (rfl : 536870912 = 2 ^ 29)]
    omega
  have hf : Fits [(2, q.toNat), (4, 10), (4, g.toNat), (4, 5), (6, k.toNat), (1, 0), (5, m.toNat), (5, a.toNat)] := ⟨q.isLt, by decide, g.isLt, by decide, k.isLt, by decide, m.isLt, a.isLt, trivial⟩
  have h0 : x / 33554432 % 16 = 10 := pack_field [(2, q.toNat)] [(4, 10)] [(4, g.toNat), (4, 5), (6, k.toNat), (1, 0), (5, m.toNat), (5, a.toNat)] 25 4 hp hf rfl rfl rfl rfl rfl rfl
  have h1 : x / 131072 % 16 = 5 := pack_field [(2, q.toNat), (4, 10), (4, g.toNat)] [(4, 5)] [(6, k.toNat), (1, 0), (5, m.toNat), (5, a.toNat)] 17 4 hp hf rfl rfl rfl rfl rfl rfl
  have h2 : x / 1024 % 2 = 0 := pack_field [(2, q.toNat), (4, 10), (4, g.toNat), (4, 5), (6, k.toNat)] [(1, 0)] [(5, m.toNat), (5, a.toNat)] 10 1 hp hf rfl rfl rfl rfl rfl rfl
  have e0 : BitVec.ofNat 2 (x / 536870912) = q := ofNat_field [] q [(4, 10), (4, g.toNat), (4, 5), (6, k.toNat), (1, 0), (5, m.toNat), (5, a.toNat)] 29 hp hf rfl rfl rfl
  have e1 : BitVec.ofNat 4 (x / 2097152) = g := ofNat_field [(2, q.toNat), (4, 10)] g [(4, 5), (6, k.toNat), (1, 0), (5, m.toNat), (5, a.toNat)] 21 hp hf rfl rfl rfl
  have e2 : BitVec.ofNat 6 (x / 2048) = k := ofNat_field [(2, q.toNat), (4, 10), (4, g.toNat), (4, 5)] k [(1, 0), (5, m.toNat), (5, a.toNat)] 11 hp hf rfl rfl rfl
  have e3 : BitVec.ofNat 5 (x / 32) = m := ofNat_field [(2, q.toNat), (4, 10), (4, g.toNat), (4, 5), (6, k.toNat), (1, 0)] m [(5, a.toNat)] 5 hp hf rfl rfl rfl
  have e4 : BitVec.ofNat 5 x = a := ofNat_low [(2, q.toNat), (4, 10), (4, g.toNat), (4, 5), (6, k.toNat), (1, 0), (5, m.toNat)] a hp hf rfl
  refine ⟨pack_bound 31 hp hf rfl, (.kset q g k m a), ?_, rfl, ?_⟩
  · simp only [decodeNat, decodeT, h0, h1, h2, ↓reduceIte]
    rw [e0, e1, e2, e3, e4]
    try rfl
  · rfl

theorem EncodeDecode.kget (q : BitVec 2) (g : BitVec 4) (d : BitVec 5) (k : BitVec 6) (f : BitVec 1) : EncodeDecode.Statement (.kget q g d k f) := by
  intro hwf x hx
  replace hx : 336330752 + q.toNat * 536870912 + g.toNat * 2097152 + d.toNat * 4096 + k.toNat * 64 + f.toNat * 32 = x := Option.some.inj hx
  have hp : x = pack [(2, q.toNat), (4, 10), (4, g.toNat), (4, 6), (5, d.toNat), (6, k.toNat), (1, f.toNat), (5, 0)] := by
    rw [pack_cons 2 29 (pack_cons 4 25 (pack_cons 4 21 (pack_cons 4 17 (pack_cons 5 12 (pack_cons 6 6 (pack_cons 1 5 (pack_cons 5 0 pack_nil rfl (rfl : 1 = 2 ^ 0)) rfl (rfl : 32 = 2 ^ 5)) rfl (rfl : 64 = 2 ^ 6)) rfl (rfl : 4096 = 2 ^ 12)) rfl (rfl : 131072 = 2 ^ 17)) rfl (rfl : 2097152 = 2 ^ 21)) rfl (rfl : 33554432 = 2 ^ 25)) rfl (rfl : 536870912 = 2 ^ 29)]
    omega
  have hf : Fits [(2, q.toNat), (4, 10), (4, g.toNat), (4, 6), (5, d.toNat), (6, k.toNat), (1, f.toNat), (5, 0)] := ⟨q.isLt, by decide, g.isLt, by decide, d.isLt, k.isLt, f.isLt, by decide, trivial⟩
  have h0 : x / 33554432 % 16 = 10 := pack_field [(2, q.toNat)] [(4, 10)] [(4, g.toNat), (4, 6), (5, d.toNat), (6, k.toNat), (1, f.toNat), (5, 0)] 25 4 hp hf rfl rfl rfl rfl rfl rfl
  have h1 : x / 131072 % 16 = 6 := pack_field [(2, q.toNat), (4, 10), (4, g.toNat)] [(4, 6)] [(5, d.toNat), (6, k.toNat), (1, f.toNat), (5, 0)] 17 4 hp hf rfl rfl rfl rfl rfl rfl
  have h2 : x % 32 = 0 := pack_low [(2, q.toNat), (4, 10), (4, g.toNat), (4, 6), (5, d.toNat), (6, k.toNat), (1, f.toNat)] [(5, 0)] 5 hp hf rfl rfl rfl rfl
  have e0 : BitVec.ofNat 2 (x / 536870912) = q := ofNat_field [] q [(4, 10), (4, g.toNat), (4, 6), (5, d.toNat), (6, k.toNat), (1, f.toNat), (5, 0)] 29 hp hf rfl rfl rfl
  have e1 : BitVec.ofNat 4 (x / 2097152) = g := ofNat_field [(2, q.toNat), (4, 10)] g [(4, 6), (5, d.toNat), (6, k.toNat), (1, f.toNat), (5, 0)] 21 hp hf rfl rfl rfl
  have e2 : BitVec.ofNat 5 (x / 4096) = d := ofNat_field [(2, q.toNat), (4, 10), (4, g.toNat), (4, 6)] d [(6, k.toNat), (1, f.toNat), (5, 0)] 12 hp hf rfl rfl rfl
  have e3 : BitVec.ofNat 6 (x / 64) = k := ofNat_field [(2, q.toNat), (4, 10), (4, g.toNat), (4, 6), (5, d.toNat)] k [(1, f.toNat), (5, 0)] 6 hp hf rfl rfl rfl
  have e4 : BitVec.ofNat 1 (x / 32) = f := ofNat_field [(2, q.toNat), (4, 10), (4, g.toNat), (4, 6), (5, d.toNat), (6, k.toNat)] f [(5, 0)] 5 hp hf rfl rfl rfl
  refine ⟨pack_bound 31 hp hf rfl, (.kget q g d k f), ?_, rfl, ?_⟩
  · simp only [decodeNat, decodeT, h0, h1, h2, ↓reduceIte]
    rw [e0, e1, e2, e3, e4]
    try rfl
  · rfl

theorem EncodeDecode.cenClose (q : BitVec 2) (g : BitVec 4) (k : BitVec 6) : EncodeDecode.Statement (.cenClose q g k) := by
  intro hwf x hx
  replace hx : 336461824 + q.toNat * 536870912 + g.toNat * 2097152 + k.toNat * 2048 = x := Option.some.inj hx
  have hp : x = pack [(2, q.toNat), (4, 10), (4, g.toNat), (4, 7), (6, k.toNat), (11, 0)] := by
    rw [pack_cons 2 29 (pack_cons 4 25 (pack_cons 4 21 (pack_cons 4 17 (pack_cons 6 11 (pack_cons 11 0 pack_nil rfl (rfl : 1 = 2 ^ 0)) rfl (rfl : 2048 = 2 ^ 11)) rfl (rfl : 131072 = 2 ^ 17)) rfl (rfl : 2097152 = 2 ^ 21)) rfl (rfl : 33554432 = 2 ^ 25)) rfl (rfl : 536870912 = 2 ^ 29)]
    omega
  have hf : Fits [(2, q.toNat), (4, 10), (4, g.toNat), (4, 7), (6, k.toNat), (11, 0)] := ⟨q.isLt, by decide, g.isLt, by decide, k.isLt, by decide, trivial⟩
  have h0 : x / 33554432 % 16 = 10 := pack_field [(2, q.toNat)] [(4, 10)] [(4, g.toNat), (4, 7), (6, k.toNat), (11, 0)] 25 4 hp hf rfl rfl rfl rfl rfl rfl
  have h1 : x / 131072 % 16 = 7 := pack_field [(2, q.toNat), (4, 10), (4, g.toNat)] [(4, 7)] [(6, k.toNat), (11, 0)] 17 4 hp hf rfl rfl rfl rfl rfl rfl
  have h2 : x % 2048 = 0 := pack_low [(2, q.toNat), (4, 10), (4, g.toNat), (4, 7), (6, k.toNat)] [(11, 0)] 11 hp hf rfl rfl rfl rfl
  have e0 : BitVec.ofNat 2 (x / 536870912) = q := ofNat_field [] q [(4, 10), (4, g.toNat), (4, 7), (6, k.toNat), (11, 0)] 29 hp hf rfl rfl rfl
  have e1 : BitVec.ofNat 4 (x / 2097152) = g := ofNat_field [(2, q.toNat), (4, 10)] g [(4, 7), (6, k.toNat), (11, 0)] 21 hp hf rfl rfl rfl
  have e2 : BitVec.ofNat 6 (x / 2048) = k := ofNat_field [(2, q.toNat), (4, 10), (4, g.toNat), (4, 7)] k [(11, 0)] 11 hp hf rfl rfl rfl
  refine ⟨pack_bound 31 hp hf rfl, (.cenClose q g k), ?_, rfl, ?_⟩
  · simp only [decodeNat, decodeT, h0, h1, h2, ↓reduceIte]
    rw [e0, e1, e2]
    try rfl
  · rfl

theorem EncodeDecode.cenGet (q : BitVec 2) (g : BitVec 4) (d : BitVec 5) (k : BitVec 6) (f : BitVec 1) : EncodeDecode.Statement (.cenGet q g d k f) := by
  intro hwf x hx
  replace hx : 336592896 + q.toNat * 536870912 + g.toNat * 2097152 + d.toNat * 4096 + k.toNat * 64 + f.toNat * 32 = x := Option.some.inj hx
  have hp : x = pack [(2, q.toNat), (4, 10), (4, g.toNat), (4, 8), (5, d.toNat), (6, k.toNat), (1, f.toNat), (5, 0)] := by
    rw [pack_cons 2 29 (pack_cons 4 25 (pack_cons 4 21 (pack_cons 4 17 (pack_cons 5 12 (pack_cons 6 6 (pack_cons 1 5 (pack_cons 5 0 pack_nil rfl (rfl : 1 = 2 ^ 0)) rfl (rfl : 32 = 2 ^ 5)) rfl (rfl : 64 = 2 ^ 6)) rfl (rfl : 4096 = 2 ^ 12)) rfl (rfl : 131072 = 2 ^ 17)) rfl (rfl : 2097152 = 2 ^ 21)) rfl (rfl : 33554432 = 2 ^ 25)) rfl (rfl : 536870912 = 2 ^ 29)]
    omega
  have hf : Fits [(2, q.toNat), (4, 10), (4, g.toNat), (4, 8), (5, d.toNat), (6, k.toNat), (1, f.toNat), (5, 0)] := ⟨q.isLt, by decide, g.isLt, by decide, d.isLt, k.isLt, f.isLt, by decide, trivial⟩
  have h0 : x / 33554432 % 16 = 10 := pack_field [(2, q.toNat)] [(4, 10)] [(4, g.toNat), (4, 8), (5, d.toNat), (6, k.toNat), (1, f.toNat), (5, 0)] 25 4 hp hf rfl rfl rfl rfl rfl rfl
  have h1 : x / 131072 % 16 = 8 := pack_field [(2, q.toNat), (4, 10), (4, g.toNat)] [(4, 8)] [(5, d.toNat), (6, k.toNat), (1, f.toNat), (5, 0)] 17 4 hp hf rfl rfl rfl rfl rfl rfl
  have h2 : x % 32 = 0 := pack_low [(2, q.toNat), (4, 10), (4, g.toNat), (4, 8), (5, d.toNat), (6, k.toNat), (1, f.toNat)] [(5, 0)] 5 hp hf rfl rfl rfl rfl
  have e0 : BitVec.ofNat 2 (x / 536870912) = q := ofNat_field [] q [(4, 10), (4, g.toNat), (4, 8), (5, d.toNat), (6, k.toNat), (1, f.toNat), (5, 0)] 29 hp hf rfl rfl rfl
  have e1 : BitVec.ofNat 4 (x / 2097152) = g := ofNat_field [(2, q.toNat), (4, 10)] g [(4, 8), (5, d.toNat), (6, k.toNat), (1, f.toNat), (5, 0)] 21 hp hf rfl rfl rfl
  have e2 : BitVec.ofNat 5 (x / 4096) = d := ofNat_field [(2, q.toNat), (4, 10), (4, g.toNat), (4, 8)] d [(6, k.toNat), (1, f.toNat), (5, 0)] 12 hp hf rfl rfl rfl
  have e3 : BitVec.ofNat 6 (x / 64) = k := ofNat_field [(2, q.toNat), (4, 10), (4, g.toNat), (4, 8), (5, d.toNat)] k [(1, f.toNat), (5, 0)] 6 hp hf rfl rfl rfl
  have e4 : BitVec.ofNat 1 (x / 32) = f := ofNat_field [(2, q.toNat), (4, 10), (4, g.toNat), (4, 8), (5, d.toNat), (6, k.toNat)] f [(5, 0)] 5 hp hf rfl rfl rfl
  refine ⟨pack_bound 31 hp hf rfl, (.cenGet q g d k f), ?_, rfl, ?_⟩
  · simp only [decodeNat, decodeT, h0, h1, h2, ↓reduceIte]
    rw [e0, e1, e2, e3, e4]
    try rfl
  · rfl

theorem EncodeDecode.shift (q : BitVec 2) (g : BitVec 4) (d : BitVec 5) (k : BitVec 6) (w : BitVec 6) : EncodeDecode.Statement (.shift q g d k w) := by
  intro hwf x hx
  replace hx : 336723968 + q.toNat * 536870912 + g.toNat * 2097152 + d.toNat * 4096 + k.toNat * 64 + w.toNat = x := Option.some.inj hx
  have hp : x = pack [(2, q.toNat), (4, 10), (4, g.toNat), (4, 9), (5, d.toNat), (6, k.toNat), (6, w.toNat)] := by
    rw [pack_cons 2 29 (pack_cons 4 25 (pack_cons 4 21 (pack_cons 4 17 (pack_cons 5 12 (pack_cons 6 6 (pack_cons 6 0 pack_nil rfl (rfl : 1 = 2 ^ 0)) rfl (rfl : 64 = 2 ^ 6)) rfl (rfl : 4096 = 2 ^ 12)) rfl (rfl : 131072 = 2 ^ 17)) rfl (rfl : 2097152 = 2 ^ 21)) rfl (rfl : 33554432 = 2 ^ 25)) rfl (rfl : 536870912 = 2 ^ 29)]
    omega
  have hf : Fits [(2, q.toNat), (4, 10), (4, g.toNat), (4, 9), (5, d.toNat), (6, k.toNat), (6, w.toNat)] := ⟨q.isLt, by decide, g.isLt, by decide, d.isLt, k.isLt, w.isLt, trivial⟩
  have h0 : x / 33554432 % 16 = 10 := pack_field [(2, q.toNat)] [(4, 10)] [(4, g.toNat), (4, 9), (5, d.toNat), (6, k.toNat), (6, w.toNat)] 25 4 hp hf rfl rfl rfl rfl rfl rfl
  have h1 : x / 131072 % 16 = 9 := pack_field [(2, q.toNat), (4, 10), (4, g.toNat)] [(4, 9)] [(5, d.toNat), (6, k.toNat), (6, w.toNat)] 17 4 hp hf rfl rfl rfl rfl rfl rfl
  have e0 : BitVec.ofNat 2 (x / 536870912) = q := ofNat_field [] q [(4, 10), (4, g.toNat), (4, 9), (5, d.toNat), (6, k.toNat), (6, w.toNat)] 29 hp hf rfl rfl rfl
  have e1 : BitVec.ofNat 4 (x / 2097152) = g := ofNat_field [(2, q.toNat), (4, 10)] g [(4, 9), (5, d.toNat), (6, k.toNat), (6, w.toNat)] 21 hp hf rfl rfl rfl
  have e2 : BitVec.ofNat 5 (x / 4096) = d := ofNat_field [(2, q.toNat), (4, 10), (4, g.toNat), (4, 9)] d [(6, k.toNat), (6, w.toNat)] 12 hp hf rfl rfl rfl
  have e3 : BitVec.ofNat 6 (x / 64) = k := ofNat_field [(2, q.toNat), (4, 10), (4, g.toNat), (4, 9), (5, d.toNat)] k [(6, w.toNat)] 6 hp hf rfl rfl rfl
  have e4 : BitVec.ofNat 6 x = w := ofNat_low [(2, q.toNat), (4, 10), (4, g.toNat), (4, 9), (5, d.toNat), (6, k.toNat)] w hp hf rfl
  refine ⟨pack_bound 31 hp hf rfl, (.shift q g d k w), ?_, rfl, ?_⟩
  · simp only [decodeNat, decodeT, h0, h1, ↓reduceIte]
    rw [e0, e1, e2, e3, e4]
    try rfl
  · rfl

theorem EncodeDecode.tsh (q : BitVec 2) (g : BitVec 4) (t : BitVec 6) (s : BitVec 5) : EncodeDecode.Statement (.tsh q g t s) := by
  intro hwf x hx
  replace hx : 336855040 + q.toNat * 536870912 + g.toNat * 2097152 + t.toNat * 1024 + s.toNat = x := Option.some.inj hx
  have hp : x = pack [(2, q.toNat), (4, 10), (4, g.toNat), (4, 10), (1, 0), (6, t.toNat), (5, 0), (5, s.toNat)] := by
    rw [pack_cons 2 29 (pack_cons 4 25 (pack_cons 4 21 (pack_cons 4 17 (pack_cons 1 16 (pack_cons 6 10 (pack_cons 5 5 (pack_cons 5 0 pack_nil rfl (rfl : 1 = 2 ^ 0)) rfl (rfl : 32 = 2 ^ 5)) rfl (rfl : 1024 = 2 ^ 10)) rfl (rfl : 65536 = 2 ^ 16)) rfl (rfl : 131072 = 2 ^ 17)) rfl (rfl : 2097152 = 2 ^ 21)) rfl (rfl : 33554432 = 2 ^ 25)) rfl (rfl : 536870912 = 2 ^ 29)]
    omega
  have hf : Fits [(2, q.toNat), (4, 10), (4, g.toNat), (4, 10), (1, 0), (6, t.toNat), (5, 0), (5, s.toNat)] := ⟨q.isLt, by decide, g.isLt, by decide, by decide, t.isLt, by decide, s.isLt, trivial⟩
  have h0 : x / 33554432 % 16 = 10 := pack_field [(2, q.toNat)] [(4, 10)] [(4, g.toNat), (4, 10), (1, 0), (6, t.toNat), (5, 0), (5, s.toNat)] 25 4 hp hf rfl rfl rfl rfl rfl rfl
  have h1 : x / 131072 % 16 = 10 := pack_field [(2, q.toNat), (4, 10), (4, g.toNat)] [(4, 10)] [(1, 0), (6, t.toNat), (5, 0), (5, s.toNat)] 17 4 hp hf rfl rfl rfl rfl rfl rfl
  have h2 : x / 32 % 32 = 0 := pack_field [(2, q.toNat), (4, 10), (4, g.toNat), (4, 10), (1, 0), (6, t.toNat)] [(5, 0)] [(5, s.toNat)] 5 5 hp hf rfl rfl rfl rfl rfl rfl
  have h3 : x / 65536 % 2 = 0 := pack_field [(2, q.toNat), (4, 10), (4, g.toNat), (4, 10)] [(1, 0)] [(6, t.toNat), (5, 0), (5, s.toNat)] 16 1 hp hf rfl rfl rfl rfl rfl rfl
  have e0 : BitVec.ofNat 2 (x / 536870912) = q := ofNat_field [] q [(4, 10), (4, g.toNat), (4, 10), (1, 0), (6, t.toNat), (5, 0), (5, s.toNat)] 29 hp hf rfl rfl rfl
  have e1 : BitVec.ofNat 4 (x / 2097152) = g := ofNat_field [(2, q.toNat), (4, 10)] g [(4, 10), (1, 0), (6, t.toNat), (5, 0), (5, s.toNat)] 21 hp hf rfl rfl rfl
  have e2 : BitVec.ofNat 6 (x / 1024) = t := ofNat_field [(2, q.toNat), (4, 10), (4, g.toNat), (4, 10), (1, 0)] t [(5, 0), (5, s.toNat)] 10 hp hf rfl rfl rfl
  have e3 : BitVec.ofNat 5 x = s := ofNat_low [(2, q.toNat), (4, 10), (4, g.toNat), (4, 10), (1, 0), (6, t.toNat), (5, 0)] s hp hf rfl
  refine ⟨pack_bound 31 hp hf rfl, (.tsh q g t s), ?_, rfl, ?_⟩
  · simp only [decodeNat, decodeT, h0, h1, h2, h3, ↓reduceIte, and_self, and_true, true_and, and_false, false_and, one_ne_zero, OfNat.ofNat_ne_zero]
    rw [e0, e1, e2, e3]
    try rfl
  · rfl

theorem EncodeDecode.tshRead (q : BitVec 2) (g : BitVec 4) (t : BitVec 6) (s : BitVec 5) : EncodeDecode.Statement (.tshRead q g t s) := by
  intro hwf x hx
  replace hx : 336920576 + q.toNat * 536870912 + g.toNat * 2097152 + t.toNat * 1024 + s.toNat = x := Option.some.inj hx
  have hp : x = pack [(2, q.toNat), (4, 10), (4, g.toNat), (4, 10), (1, 1), (6, t.toNat), (5, 0), (5, s.toNat)] := by
    rw [pack_cons 2 29 (pack_cons 4 25 (pack_cons 4 21 (pack_cons 4 17 (pack_cons 1 16 (pack_cons 6 10 (pack_cons 5 5 (pack_cons 5 0 pack_nil rfl (rfl : 1 = 2 ^ 0)) rfl (rfl : 32 = 2 ^ 5)) rfl (rfl : 1024 = 2 ^ 10)) rfl (rfl : 65536 = 2 ^ 16)) rfl (rfl : 131072 = 2 ^ 17)) rfl (rfl : 2097152 = 2 ^ 21)) rfl (rfl : 33554432 = 2 ^ 25)) rfl (rfl : 536870912 = 2 ^ 29)]
    omega
  have hf : Fits [(2, q.toNat), (4, 10), (4, g.toNat), (4, 10), (1, 1), (6, t.toNat), (5, 0), (5, s.toNat)] := ⟨q.isLt, by decide, g.isLt, by decide, by decide, t.isLt, by decide, s.isLt, trivial⟩
  have h0 : x / 33554432 % 16 = 10 := pack_field [(2, q.toNat)] [(4, 10)] [(4, g.toNat), (4, 10), (1, 1), (6, t.toNat), (5, 0), (5, s.toNat)] 25 4 hp hf rfl rfl rfl rfl rfl rfl
  have h1 : x / 131072 % 16 = 10 := pack_field [(2, q.toNat), (4, 10), (4, g.toNat)] [(4, 10)] [(1, 1), (6, t.toNat), (5, 0), (5, s.toNat)] 17 4 hp hf rfl rfl rfl rfl rfl rfl
  have h2 : x / 32 % 32 = 0 := pack_field [(2, q.toNat), (4, 10), (4, g.toNat), (4, 10), (1, 1), (6, t.toNat)] [(5, 0)] [(5, s.toNat)] 5 5 hp hf rfl rfl rfl rfl rfl rfl
  have h3 : x / 65536 % 2 = 1 := pack_field [(2, q.toNat), (4, 10), (4, g.toNat), (4, 10)] [(1, 1)] [(6, t.toNat), (5, 0), (5, s.toNat)] 16 1 hp hf rfl rfl rfl rfl rfl rfl
  have e0 : BitVec.ofNat 2 (x / 536870912) = q := ofNat_field [] q [(4, 10), (4, g.toNat), (4, 10), (1, 1), (6, t.toNat), (5, 0), (5, s.toNat)] 29 hp hf rfl rfl rfl
  have e1 : BitVec.ofNat 4 (x / 2097152) = g := ofNat_field [(2, q.toNat), (4, 10)] g [(4, 10), (1, 1), (6, t.toNat), (5, 0), (5, s.toNat)] 21 hp hf rfl rfl rfl
  have e2 : BitVec.ofNat 6 (x / 1024) = t := ofNat_field [(2, q.toNat), (4, 10), (4, g.toNat), (4, 10), (1, 1)] t [(5, 0), (5, s.toNat)] 10 hp hf rfl rfl rfl
  have e3 : BitVec.ofNat 5 x = s := ofNat_low [(2, q.toNat), (4, 10), (4, g.toNat), (4, 10), (1, 1), (6, t.toNat), (5, 0)] s hp hf rfl
  refine ⟨pack_bound 31 hp hf rfl, (.tshRead q g t s), ?_, rfl, ?_⟩
  · simp only [decodeNat, decodeT, h0, h1, h2, h3, ↓reduceIte, and_self, and_true, true_and, and_false, false_and, one_ne_zero, OfNat.ofNat_ne_zero]
    rw [e0, e1, e2, e3]
    try rfl
  · rfl

theorem EncodeDecode.tshr (q : BitVec 2) (g : BitVec 4) (t : BitVec 6) (u : BitVec 6) (b : BitVec 5) : EncodeDecode.Statement (.tshr q g t u b) := by
  intro hwf x hx
  replace hx : 336986112 + q.toNat * 536870912 + g.toNat * 2097152 + t.toNat * 2048 + u.toNat * 32 + b.toNat = x := Option.some.inj hx
  have hp : x = pack [(2, q.toNat), (4, 10), (4, g.toNat), (4, 11), (6, t.toNat), (6, u.toNat), (5, b.toNat)] := by
    rw [pack_cons 2 29 (pack_cons 4 25 (pack_cons 4 21 (pack_cons 4 17 (pack_cons 6 11 (pack_cons 6 5 (pack_cons 5 0 pack_nil rfl (rfl : 1 = 2 ^ 0)) rfl (rfl : 32 = 2 ^ 5)) rfl (rfl : 2048 = 2 ^ 11)) rfl (rfl : 131072 = 2 ^ 17)) rfl (rfl : 2097152 = 2 ^ 21)) rfl (rfl : 33554432 = 2 ^ 25)) rfl (rfl : 536870912 = 2 ^ 29)]
    omega
  have hf : Fits [(2, q.toNat), (4, 10), (4, g.toNat), (4, 11), (6, t.toNat), (6, u.toNat), (5, b.toNat)] := ⟨q.isLt, by decide, g.isLt, by decide, t.isLt, u.isLt, b.isLt, trivial⟩
  have h0 : x / 33554432 % 16 = 10 := pack_field [(2, q.toNat)] [(4, 10)] [(4, g.toNat), (4, 11), (6, t.toNat), (6, u.toNat), (5, b.toNat)] 25 4 hp hf rfl rfl rfl rfl rfl rfl
  have h1 : x / 131072 % 16 = 11 := pack_field [(2, q.toNat), (4, 10), (4, g.toNat)] [(4, 11)] [(6, t.toNat), (6, u.toNat), (5, b.toNat)] 17 4 hp hf rfl rfl rfl rfl rfl rfl
  have e0 : BitVec.ofNat 2 (x / 536870912) = q := ofNat_field [] q [(4, 10), (4, g.toNat), (4, 11), (6, t.toNat), (6, u.toNat), (5, b.toNat)] 29 hp hf rfl rfl rfl
  have e1 : BitVec.ofNat 4 (x / 2097152) = g := ofNat_field [(2, q.toNat), (4, 10)] g [(4, 11), (6, t.toNat), (6, u.toNat), (5, b.toNat)] 21 hp hf rfl rfl rfl
  have e2 : BitVec.ofNat 6 (x / 2048) = t := ofNat_field [(2, q.toNat), (4, 10), (4, g.toNat), (4, 11)] t [(6, u.toNat), (5, b.toNat)] 11 hp hf rfl rfl rfl
  have e3 : BitVec.ofNat 6 (x / 32) = u := ofNat_field [(2, q.toNat), (4, 10), (4, g.toNat), (4, 11), (6, t.toNat)] u [(5, b.toNat)] 5 hp hf rfl rfl rfl
  have e4 : BitVec.ofNat 5 x = b := ofNat_low [(2, q.toNat), (4, 10), (4, g.toNat), (4, 11), (6, t.toNat), (6, u.toNat)] b hp hf rfl
  refine ⟨pack_bound 31 hp hf rfl, (.tshr q g t u b), ?_, rfl, ?_⟩
  · simp only [decodeNat, decodeT, h0, h1, ↓reduceIte]
    rw [e0, e1, e2, e3, e4]
    try rfl
  · rfl

theorem EncodeDecode.cpy (q : BitVec 2) (g : BitVec 4) (h : BitVec 4) (s : BitVec 4) (w : BitVec 4) : EncodeDecode.Statement (.cpy q g h s w) := by
  intro hwf x hx
  replace hx : 369098752 + q.toNat * 536870912 + g.toNat * 2097152 + h.toNat * 8192 + s.toNat * 512 + w.toNat * 32 = x := Option.some.inj hx
  have hp : x = pack [(2, q.toNat), (4, 11), (4, g.toNat), (4, 0), (4, h.toNat), (4, s.toNat), (4, w.toNat), (5, 0)] := by
    rw [pack_cons 2 29 (pack_cons 4 25 (pack_cons 4 21 (pack_cons 4 17 (pack_cons 4 13 (pack_cons 4 9 (pack_cons 4 5 (pack_cons 5 0 pack_nil rfl (rfl : 1 = 2 ^ 0)) rfl (rfl : 32 = 2 ^ 5)) rfl (rfl : 512 = 2 ^ 9)) rfl (rfl : 8192 = 2 ^ 13)) rfl (rfl : 131072 = 2 ^ 17)) rfl (rfl : 2097152 = 2 ^ 21)) rfl (rfl : 33554432 = 2 ^ 25)) rfl (rfl : 536870912 = 2 ^ 29)]
    omega
  have hf : Fits [(2, q.toNat), (4, 11), (4, g.toNat), (4, 0), (4, h.toNat), (4, s.toNat), (4, w.toNat), (5, 0)] := ⟨q.isLt, by decide, g.isLt, by decide, h.isLt, s.isLt, w.isLt, by decide, trivial⟩
  have h0 : x / 33554432 % 16 = 11 := pack_field [(2, q.toNat)] [(4, 11)] [(4, g.toNat), (4, 0), (4, h.toNat), (4, s.toNat), (4, w.toNat), (5, 0)] 25 4 hp hf rfl rfl rfl rfl rfl rfl
  have h1 : x / 131072 % 16 = 0 := pack_field [(2, q.toNat), (4, 11), (4, g.toNat)] [(4, 0)] [(4, h.toNat), (4, s.toNat), (4, w.toNat), (5, 0)] 17 4 hp hf rfl rfl rfl rfl rfl rfl
  have h2 : x % 32 = 0 := pack_low [(2, q.toNat), (4, 11), (4, g.toNat), (4, 0), (4, h.toNat), (4, s.toNat), (4, w.toNat)] [(5, 0)] 5 hp hf rfl rfl rfl rfl
  have e0 : BitVec.ofNat 2 (x / 536870912) = q := ofNat_field [] q [(4, 11), (4, g.toNat), (4, 0), (4, h.toNat), (4, s.toNat), (4, w.toNat), (5, 0)] 29 hp hf rfl rfl rfl
  have e1 : BitVec.ofNat 4 (x / 2097152) = g := ofNat_field [(2, q.toNat), (4, 11)] g [(4, 0), (4, h.toNat), (4, s.toNat), (4, w.toNat), (5, 0)] 21 hp hf rfl rfl rfl
  have e2 : BitVec.ofNat 4 (x / 8192) = h := ofNat_field [(2, q.toNat), (4, 11), (4, g.toNat), (4, 0)] h [(4, s.toNat), (4, w.toNat), (5, 0)] 13 hp hf rfl rfl rfl
  have e3 : BitVec.ofNat 4 (x / 512) = s := ofNat_field [(2, q.toNat), (4, 11), (4, g.toNat), (4, 0), (4, h.toNat)] s [(4, w.toNat), (5, 0)] 9 hp hf rfl rfl rfl
  have e4 : BitVec.ofNat 4 (x / 32) = w := ofNat_field [(2, q.toNat), (4, 11), (4, g.toNat), (4, 0), (4, h.toNat), (4, s.toNat)] w [(5, 0)] 5 hp hf rfl rfl rfl
  refine ⟨pack_bound 31 hp hf rfl, (.cpy q g h s w), ?_, rfl, ?_⟩
  · simp only [decodeNat, decodeC, h0, h1, h2, ↓reduceIte]
    rw [e0, e1, e2, e3, e4]
    try rfl
  · rfl

theorem EncodeDecode.cpyk (q : BitVec 2) (g : BitVec 4) (h : BitVec 4) (s : BitVec 4) (w : BitVec 4) : EncodeDecode.Statement (.cpyk q g h s w) := by
  intro hwf x hx
  replace hx : 369229824 + q.toNat * 536870912 + g.toNat * 2097152 + h.toNat * 8192 + s.toNat * 512 + w.toNat * 32 = x := Option.some.inj hx
  have hp : x = pack [(2, q.toNat), (4, 11), (4, g.toNat), (4, 1), (4, h.toNat), (4, s.toNat), (4, w.toNat), (5, 0)] := by
    rw [pack_cons 2 29 (pack_cons 4 25 (pack_cons 4 21 (pack_cons 4 17 (pack_cons 4 13 (pack_cons 4 9 (pack_cons 4 5 (pack_cons 5 0 pack_nil rfl (rfl : 1 = 2 ^ 0)) rfl (rfl : 32 = 2 ^ 5)) rfl (rfl : 512 = 2 ^ 9)) rfl (rfl : 8192 = 2 ^ 13)) rfl (rfl : 131072 = 2 ^ 17)) rfl (rfl : 2097152 = 2 ^ 21)) rfl (rfl : 33554432 = 2 ^ 25)) rfl (rfl : 536870912 = 2 ^ 29)]
    omega
  have hf : Fits [(2, q.toNat), (4, 11), (4, g.toNat), (4, 1), (4, h.toNat), (4, s.toNat), (4, w.toNat), (5, 0)] := ⟨q.isLt, by decide, g.isLt, by decide, h.isLt, s.isLt, w.isLt, by decide, trivial⟩
  have h0 : x / 33554432 % 16 = 11 := pack_field [(2, q.toNat)] [(4, 11)] [(4, g.toNat), (4, 1), (4, h.toNat), (4, s.toNat), (4, w.toNat), (5, 0)] 25 4 hp hf rfl rfl rfl rfl rfl rfl
  have h1 : x / 131072 % 16 = 1 := pack_field [(2, q.toNat), (4, 11), (4, g.toNat)] [(4, 1)] [(4, h.toNat), (4, s.toNat), (4, w.toNat), (5, 0)] 17 4 hp hf rfl rfl rfl rfl rfl rfl
  have h2 : x % 32 = 0 := pack_low [(2, q.toNat), (4, 11), (4, g.toNat), (4, 1), (4, h.toNat), (4, s.toNat), (4, w.toNat)] [(5, 0)] 5 hp hf rfl rfl rfl rfl
  have e0 : BitVec.ofNat 2 (x / 536870912) = q := ofNat_field [] q [(4, 11), (4, g.toNat), (4, 1), (4, h.toNat), (4, s.toNat), (4, w.toNat), (5, 0)] 29 hp hf rfl rfl rfl
  have e1 : BitVec.ofNat 4 (x / 2097152) = g := ofNat_field [(2, q.toNat), (4, 11)] g [(4, 1), (4, h.toNat), (4, s.toNat), (4, w.toNat), (5, 0)] 21 hp hf rfl rfl rfl
  have e2 : BitVec.ofNat 4 (x / 8192) = h := ofNat_field [(2, q.toNat), (4, 11), (4, g.toNat), (4, 1)] h [(4, s.toNat), (4, w.toNat), (5, 0)] 13 hp hf rfl rfl rfl
  have e3 : BitVec.ofNat 4 (x / 512) = s := ofNat_field [(2, q.toNat), (4, 11), (4, g.toNat), (4, 1), (4, h.toNat)] s [(4, w.toNat), (5, 0)] 9 hp hf rfl rfl rfl
  have e4 : BitVec.ofNat 4 (x / 32) = w := ofNat_field [(2, q.toNat), (4, 11), (4, g.toNat), (4, 1), (4, h.toNat), (4, s.toNat)] w [(5, 0)] 5 hp hf rfl rfl rfl
  refine ⟨pack_bound 31 hp hf rfl, (.cpyk q g h s w), ?_, rfl, ?_⟩
  · simp only [decodeNat, decodeC, h0, h1, h2, ↓reduceIte]
    rw [e0, e1, e2, e3, e4]
    try rfl
  · rfl

theorem EncodeDecode.cpyf (q : BitVec 2) (g : BitVec 4) (h : BitVec 4) (w : BitVec 4) (v : BitVec 5) : EncodeDecode.Statement (.cpyf q g h w v) := by
  intro hwf x hx
  replace hx : 369360896 + q.toNat * 536870912 + g.toNat * 2097152 + h.toNat * 8192 + w.toNat * 32 + v.toNat = x := Option.some.inj hx
  have hp : x = pack [(2, q.toNat), (4, 11), (4, g.toNat), (4, 2), (4, h.toNat), (4, 0), (4, w.toNat), (5, v.toNat)] := by
    rw [pack_cons 2 29 (pack_cons 4 25 (pack_cons 4 21 (pack_cons 4 17 (pack_cons 4 13 (pack_cons 4 9 (pack_cons 4 5 (pack_cons 5 0 pack_nil rfl (rfl : 1 = 2 ^ 0)) rfl (rfl : 32 = 2 ^ 5)) rfl (rfl : 512 = 2 ^ 9)) rfl (rfl : 8192 = 2 ^ 13)) rfl (rfl : 131072 = 2 ^ 17)) rfl (rfl : 2097152 = 2 ^ 21)) rfl (rfl : 33554432 = 2 ^ 25)) rfl (rfl : 536870912 = 2 ^ 29)]
    omega
  have hf : Fits [(2, q.toNat), (4, 11), (4, g.toNat), (4, 2), (4, h.toNat), (4, 0), (4, w.toNat), (5, v.toNat)] := ⟨q.isLt, by decide, g.isLt, by decide, h.isLt, by decide, w.isLt, v.isLt, trivial⟩
  have h0 : x / 33554432 % 16 = 11 := pack_field [(2, q.toNat)] [(4, 11)] [(4, g.toNat), (4, 2), (4, h.toNat), (4, 0), (4, w.toNat), (5, v.toNat)] 25 4 hp hf rfl rfl rfl rfl rfl rfl
  have h1 : x / 131072 % 16 = 2 := pack_field [(2, q.toNat), (4, 11), (4, g.toNat)] [(4, 2)] [(4, h.toNat), (4, 0), (4, w.toNat), (5, v.toNat)] 17 4 hp hf rfl rfl rfl rfl rfl rfl
  have h2 : x / 512 % 16 = 0 := pack_field [(2, q.toNat), (4, 11), (4, g.toNat), (4, 2), (4, h.toNat)] [(4, 0)] [(4, w.toNat), (5, v.toNat)] 9 4 hp hf rfl rfl rfl rfl rfl rfl
  have e0 : BitVec.ofNat 2 (x / 536870912) = q := ofNat_field [] q [(4, 11), (4, g.toNat), (4, 2), (4, h.toNat), (4, 0), (4, w.toNat), (5, v.toNat)] 29 hp hf rfl rfl rfl
  have e1 : BitVec.ofNat 4 (x / 2097152) = g := ofNat_field [(2, q.toNat), (4, 11)] g [(4, 2), (4, h.toNat), (4, 0), (4, w.toNat), (5, v.toNat)] 21 hp hf rfl rfl rfl
  have e2 : BitVec.ofNat 4 (x / 8192) = h := ofNat_field [(2, q.toNat), (4, 11), (4, g.toNat), (4, 2)] h [(4, 0), (4, w.toNat), (5, v.toNat)] 13 hp hf rfl rfl rfl
  have e3 : BitVec.ofNat 4 (x / 32) = w := ofNat_field [(2, q.toNat), (4, 11), (4, g.toNat), (4, 2), (4, h.toNat), (4, 0)] w [(5, v.toNat)] 5 hp hf rfl rfl rfl
  have e4 : BitVec.ofNat 5 x = v := ofNat_low [(2, q.toNat), (4, 11), (4, g.toNat), (4, 2), (4, h.toNat), (4, 0), (4, w.toNat)] v hp hf rfl
  refine ⟨pack_bound 31 hp hf rfl, (.cpyf q g h w v), ?_, rfl, ?_⟩
  · simp only [decodeNat, decodeC, h0, h1, h2, ↓reduceIte]
    rw [e0, e1, e2, e3, e4]
    try rfl
  · rfl

theorem EncodeDecode.cpyb (q : BitVec 2) (g : BitVec 4) (h : BitVec 4) (s : BitVec 4) (w : BitVec 4) (m : BitVec 5) : EncodeDecode.Statement (.cpyb q g h s w m) := by
  intro hwf x hx
  replace hx : 369491968 + q.toNat * 536870912 + g.toNat * 2097152 + h.toNat * 8192 + s.toNat * 512 + w.toNat * 32 + m.toNat = x := Option.some.inj hx
  have hp : x = pack [(2, q.toNat), (4, 11), (4, g.toNat), (4, 3), (4, h.toNat), (4, s.toNat), (4, w.toNat), (5, m.toNat)] := by
    rw [pack_cons 2 29 (pack_cons 4 25 (pack_cons 4 21 (pack_cons 4 17 (pack_cons 4 13 (pack_cons 4 9 (pack_cons 4 5 (pack_cons 5 0 pack_nil rfl (rfl : 1 = 2 ^ 0)) rfl (rfl : 32 = 2 ^ 5)) rfl (rfl : 512 = 2 ^ 9)) rfl (rfl : 8192 = 2 ^ 13)) rfl (rfl : 131072 = 2 ^ 17)) rfl (rfl : 2097152 = 2 ^ 21)) rfl (rfl : 33554432 = 2 ^ 25)) rfl (rfl : 536870912 = 2 ^ 29)]
    omega
  have hf : Fits [(2, q.toNat), (4, 11), (4, g.toNat), (4, 3), (4, h.toNat), (4, s.toNat), (4, w.toNat), (5, m.toNat)] := ⟨q.isLt, by decide, g.isLt, by decide, h.isLt, s.isLt, w.isLt, m.isLt, trivial⟩
  have h0 : x / 33554432 % 16 = 11 := pack_field [(2, q.toNat)] [(4, 11)] [(4, g.toNat), (4, 3), (4, h.toNat), (4, s.toNat), (4, w.toNat), (5, m.toNat)] 25 4 hp hf rfl rfl rfl rfl rfl rfl
  have h1 : x / 131072 % 16 = 3 := pack_field [(2, q.toNat), (4, 11), (4, g.toNat)] [(4, 3)] [(4, h.toNat), (4, s.toNat), (4, w.toNat), (5, m.toNat)] 17 4 hp hf rfl rfl rfl rfl rfl rfl
  have e0 : BitVec.ofNat 2 (x / 536870912) = q := ofNat_field [] q [(4, 11), (4, g.toNat), (4, 3), (4, h.toNat), (4, s.toNat), (4, w.toNat), (5, m.toNat)] 29 hp hf rfl rfl rfl
  have e1 : BitVec.ofNat 4 (x / 2097152) = g := ofNat_field [(2, q.toNat), (4, 11)] g [(4, 3), (4, h.toNat), (4, s.toNat), (4, w.toNat), (5, m.toNat)] 21 hp hf rfl rfl rfl
  have e2 : BitVec.ofNat 4 (x / 8192) = h := ofNat_field [(2, q.toNat), (4, 11), (4, g.toNat), (4, 3)] h [(4, s.toNat), (4, w.toNat), (5, m.toNat)] 13 hp hf rfl rfl rfl
  have e3 : BitVec.ofNat 4 (x / 512) = s := ofNat_field [(2, q.toNat), (4, 11), (4, g.toNat), (4, 3), (4, h.toNat)] s [(4, w.toNat), (5, m.toNat)] 9 hp hf rfl rfl rfl
  have e4 : BitVec.ofNat 4 (x / 32) = w := ofNat_field [(2, q.toNat), (4, 11), (4, g.toNat), (4, 3), (4, h.toNat), (4, s.toNat)] w [(5, m.toNat)] 5 hp hf rfl rfl rfl
  have e5 : BitVec.ofNat 5 x = m := ofNat_low [(2, q.toNat), (4, 11), (4, g.toNat), (4, 3), (4, h.toNat), (4, s.toNat), (4, w.toNat)] m hp hf rfl
  refine ⟨pack_bound 31 hp hf rfl, (.cpyb q g h s w m), ?_, rfl, ?_⟩
  · simp only [decodeNat, decodeC, h0, h1, ↓reduceIte]
    rw [e0, e1, e2, e3, e4, e5]
    try rfl
  · rfl

theorem EncodeDecode.cpyq (q : BitVec 2) (g : BitVec 4) (h : BitVec 4) (s : BitVec 4) (w : BitVec 4) (t : BitVec 5) : EncodeDecode.Statement (.cpyq q g h s w t) := by
  intro hwf x hx
  replace hx : 369623040 + q.toNat * 536870912 + g.toNat * 2097152 + h.toNat * 8192 + s.toNat * 512 + w.toNat * 32 + t.toNat = x := Option.some.inj hx
  have hp : x = pack [(2, q.toNat), (4, 11), (4, g.toNat), (4, 4), (4, h.toNat), (4, s.toNat), (4, w.toNat), (5, t.toNat)] := by
    rw [pack_cons 2 29 (pack_cons 4 25 (pack_cons 4 21 (pack_cons 4 17 (pack_cons 4 13 (pack_cons 4 9 (pack_cons 4 5 (pack_cons 5 0 pack_nil rfl (rfl : 1 = 2 ^ 0)) rfl (rfl : 32 = 2 ^ 5)) rfl (rfl : 512 = 2 ^ 9)) rfl (rfl : 8192 = 2 ^ 13)) rfl (rfl : 131072 = 2 ^ 17)) rfl (rfl : 2097152 = 2 ^ 21)) rfl (rfl : 33554432 = 2 ^ 25)) rfl (rfl : 536870912 = 2 ^ 29)]
    omega
  have hf : Fits [(2, q.toNat), (4, 11), (4, g.toNat), (4, 4), (4, h.toNat), (4, s.toNat), (4, w.toNat), (5, t.toNat)] := ⟨q.isLt, by decide, g.isLt, by decide, h.isLt, s.isLt, w.isLt, t.isLt, trivial⟩
  have h0 : x / 33554432 % 16 = 11 := pack_field [(2, q.toNat)] [(4, 11)] [(4, g.toNat), (4, 4), (4, h.toNat), (4, s.toNat), (4, w.toNat), (5, t.toNat)] 25 4 hp hf rfl rfl rfl rfl rfl rfl
  have h1 : x / 131072 % 16 = 4 := pack_field [(2, q.toNat), (4, 11), (4, g.toNat)] [(4, 4)] [(4, h.toNat), (4, s.toNat), (4, w.toNat), (5, t.toNat)] 17 4 hp hf rfl rfl rfl rfl rfl rfl
  have e0 : BitVec.ofNat 2 (x / 536870912) = q := ofNat_field [] q [(4, 11), (4, g.toNat), (4, 4), (4, h.toNat), (4, s.toNat), (4, w.toNat), (5, t.toNat)] 29 hp hf rfl rfl rfl
  have e1 : BitVec.ofNat 4 (x / 2097152) = g := ofNat_field [(2, q.toNat), (4, 11)] g [(4, 4), (4, h.toNat), (4, s.toNat), (4, w.toNat), (5, t.toNat)] 21 hp hf rfl rfl rfl
  have e2 : BitVec.ofNat 4 (x / 8192) = h := ofNat_field [(2, q.toNat), (4, 11), (4, g.toNat), (4, 4)] h [(4, s.toNat), (4, w.toNat), (5, t.toNat)] 13 hp hf rfl rfl rfl
  have e3 : BitVec.ofNat 4 (x / 512) = s := ofNat_field [(2, q.toNat), (4, 11), (4, g.toNat), (4, 4), (4, h.toNat)] s [(4, w.toNat), (5, t.toNat)] 9 hp hf rfl rfl rfl
  have e4 : BitVec.ofNat 4 (x / 32) = w := ofNat_field [(2, q.toNat), (4, 11), (4, g.toNat), (4, 4), (4, h.toNat), (4, s.toNat)] w [(5, t.toNat)] 5 hp hf rfl rfl rfl
  have e5 : BitVec.ofNat 5 x = t := ofNat_low [(2, q.toNat), (4, 11), (4, g.toNat), (4, 4), (4, h.toNat), (4, s.toNat), (4, w.toNat)] t hp hf rfl
  refine ⟨pack_bound 31 hp hf rfl, (.cpyq q g h s w t), ?_, rfl, ?_⟩
  · simp only [decodeNat, decodeC, h0, h1, ↓reduceIte]
    rw [e0, e1, e2, e3, e4, e5]
    try rfl
  · rfl

theorem EncodeDecode.cpycan (q : BitVec 2) (g : BitVec 4) (a : BitVec 1) (b : BitVec 1) : EncodeDecode.Statement (.cpycan q g a b) := by
  intro hwf x hx
  replace hx : 369754112 + q.toNat * 536870912 + g.toNat * 2097152 + a.toNat * 65536 + b.toNat * 32768 = x := Option.some.inj hx
  have hp : x = pack [(2, q.toNat), (4, 11), (4, g.toNat), (4, 5), (1, a.toNat), (1, b.toNat), (15, 0)] := by
    rw [pack_cons 2 29 (pack_cons 4 25 (pack_cons 4 21 (pack_cons 4 17 (pack_cons 1 16 (pack_cons 1 15 (pack_cons 15 0 pack_nil rfl (rfl : 1 = 2 ^ 0)) rfl (rfl : 32768 = 2 ^ 15)) rfl (rfl : 65536 = 2 ^ 16)) rfl (rfl : 131072 = 2 ^ 17)) rfl (rfl : 2097152 = 2 ^ 21)) rfl (rfl : 33554432 = 2 ^ 25)) rfl (rfl : 536870912 = 2 ^ 29)]
    omega
  have hf : Fits [(2, q.toNat), (4, 11), (4, g.toNat), (4, 5), (1, a.toNat), (1, b.toNat), (15, 0)] := ⟨q.isLt, by decide, g.isLt, by decide, a.isLt, b.isLt, by decide, trivial⟩
  have h0 : x / 33554432 % 16 = 11 := pack_field [(2, q.toNat)] [(4, 11)] [(4, g.toNat), (4, 5), (1, a.toNat), (1, b.toNat), (15, 0)] 25 4 hp hf rfl rfl rfl rfl rfl rfl
  have h1 : x / 131072 % 16 = 5 := pack_field [(2, q.toNat), (4, 11), (4, g.toNat)] [(4, 5)] [(1, a.toNat), (1, b.toNat), (15, 0)] 17 4 hp hf rfl rfl rfl rfl rfl rfl
  have h2 : x % 32768 = 0 := pack_low [(2, q.toNat), (4, 11), (4, g.toNat), (4, 5), (1, a.toNat), (1, b.toNat)] [(15, 0)] 15 hp hf rfl rfl rfl rfl
  have e0 : BitVec.ofNat 2 (x / 536870912) = q := ofNat_field [] q [(4, 11), (4, g.toNat), (4, 5), (1, a.toNat), (1, b.toNat), (15, 0)] 29 hp hf rfl rfl rfl
  have e1 : BitVec.ofNat 4 (x / 2097152) = g := ofNat_field [(2, q.toNat), (4, 11)] g [(4, 5), (1, a.toNat), (1, b.toNat), (15, 0)] 21 hp hf rfl rfl rfl
  have e2 : BitVec.ofNat 1 (x / 65536) = a := ofNat_field [(2, q.toNat), (4, 11), (4, g.toNat), (4, 5)] a [(1, b.toNat), (15, 0)] 16 hp hf rfl rfl rfl
  have e3 : BitVec.ofNat 1 (x / 32768) = b := ofNat_field [(2, q.toNat), (4, 11), (4, g.toNat), (4, 5), (1, a.toNat)] b [(15, 0)] 15 hp hf rfl rfl rfl
  refine ⟨pack_bound 31 hp hf rfl, (.cpycan q g a b), ?_, rfl, ?_⟩
  · simp only [decodeNat, decodeC, h0, h1, h2, ↓reduceIte]
    rw [e0, e1, e2, e3]
    try rfl
  · rfl

theorem EncodeDecode.send (q : BitVec 2) (g : BitVec 4) (h : BitVec 4) (s : BitVec 4) (w : BitVec 4) (r : BitVec 2) : EncodeDecode.Statement (.send q g h s w r) := by
  intro hwf x hx
  replace hx : 369885184 + q.toNat * 536870912 + g.toNat * 2097152 + h.toNat * 8192 + s.toNat * 512 + w.toNat * 32 + r.toNat * 8 = x := Option.some.inj hx
  have hp : x = pack [(2, q.toNat), (4, 11), (4, g.toNat), (4, 6), (4, h.toNat), (4, s.toNat), (4, w.toNat), (2, r.toNat), (3, 0)] := by
    rw [pack_cons 2 29 (pack_cons 4 25 (pack_cons 4 21 (pack_cons 4 17 (pack_cons 4 13 (pack_cons 4 9 (pack_cons 4 5 (pack_cons 2 3 (pack_cons 3 0 pack_nil rfl (rfl : 1 = 2 ^ 0)) rfl (rfl : 8 = 2 ^ 3)) rfl (rfl : 32 = 2 ^ 5)) rfl (rfl : 512 = 2 ^ 9)) rfl (rfl : 8192 = 2 ^ 13)) rfl (rfl : 131072 = 2 ^ 17)) rfl (rfl : 2097152 = 2 ^ 21)) rfl (rfl : 33554432 = 2 ^ 25)) rfl (rfl : 536870912 = 2 ^ 29)]
    omega
  have hf : Fits [(2, q.toNat), (4, 11), (4, g.toNat), (4, 6), (4, h.toNat), (4, s.toNat), (4, w.toNat), (2, r.toNat), (3, 0)] := ⟨q.isLt, by decide, g.isLt, by decide, h.isLt, s.isLt, w.isLt, r.isLt, by decide, trivial⟩
  have h0 : x / 33554432 % 16 = 11 := pack_field [(2, q.toNat)] [(4, 11)] [(4, g.toNat), (4, 6), (4, h.toNat), (4, s.toNat), (4, w.toNat), (2, r.toNat), (3, 0)] 25 4 hp hf rfl rfl rfl rfl rfl rfl
  have h1 : x / 131072 % 16 = 6 := pack_field [(2, q.toNat), (4, 11), (4, g.toNat)] [(4, 6)] [(4, h.toNat), (4, s.toNat), (4, w.toNat), (2, r.toNat), (3, 0)] 17 4 hp hf rfl rfl rfl rfl rfl rfl
  have h2 : x % 8 = 0 := pack_low [(2, q.toNat), (4, 11), (4, g.toNat), (4, 6), (4, h.toNat), (4, s.toNat), (4, w.toNat), (2, r.toNat)] [(3, 0)] 3 hp hf rfl rfl rfl rfl
  have e0 : BitVec.ofNat 2 (x / 536870912) = q := ofNat_field [] q [(4, 11), (4, g.toNat), (4, 6), (4, h.toNat), (4, s.toNat), (4, w.toNat), (2, r.toNat), (3, 0)] 29 hp hf rfl rfl rfl
  have e1 : BitVec.ofNat 4 (x / 2097152) = g := ofNat_field [(2, q.toNat), (4, 11)] g [(4, 6), (4, h.toNat), (4, s.toNat), (4, w.toNat), (2, r.toNat), (3, 0)] 21 hp hf rfl rfl rfl
  have e2 : BitVec.ofNat 4 (x / 8192) = h := ofNat_field [(2, q.toNat), (4, 11), (4, g.toNat), (4, 6)] h [(4, s.toNat), (4, w.toNat), (2, r.toNat), (3, 0)] 13 hp hf rfl rfl rfl
  have e3 : BitVec.ofNat 4 (x / 512) = s := ofNat_field [(2, q.toNat), (4, 11), (4, g.toNat), (4, 6), (4, h.toNat)] s [(4, w.toNat), (2, r.toNat), (3, 0)] 9 hp hf rfl rfl rfl
  have e4 : BitVec.ofNat 4 (x / 32) = w := ofNat_field [(2, q.toNat), (4, 11), (4, g.toNat), (4, 6), (4, h.toNat), (4, s.toNat)] w [(2, r.toNat), (3, 0)] 5 hp hf rfl rfl rfl
  have e5 : BitVec.ofNat 2 (x / 8) = r := ofNat_field [(2, q.toNat), (4, 11), (4, g.toNat), (4, 6), (4, h.toNat), (4, s.toNat), (4, w.toNat)] r [(3, 0)] 3 hp hf rfl rfl rfl
  refine ⟨pack_bound 31 hp hf rfl, (.send q g h s w r), ?_, rfl, ?_⟩
  · simp only [decodeNat, decodeC, h0, h1, h2, ↓reduceIte]
    rw [e0, e1, e2, e3, e4, e5]
    try rfl
  · rfl

theorem EncodeDecode.sendt (q : BitVec 2) (g : BitVec 4) (h : BitVec 4) (s : BitVec 4) (w : BitVec 4) (r : BitVec 2) : EncodeDecode.Statement (.sendt q g h s w r) := by
  intro hwf x hx
  replace hx : 370016256 + q.toNat * 536870912 + g.toNat * 2097152 + h.toNat * 8192 + s.toNat * 512 + w.toNat * 32 + r.toNat * 8 = x := Option.some.inj hx
  have hp : x = pack [(2, q.toNat), (4, 11), (4, g.toNat), (4, 7), (4, h.toNat), (4, s.toNat), (4, w.toNat), (2, r.toNat), (3, 0)] := by
    rw [pack_cons 2 29 (pack_cons 4 25 (pack_cons 4 21 (pack_cons 4 17 (pack_cons 4 13 (pack_cons 4 9 (pack_cons 4 5 (pack_cons 2 3 (pack_cons 3 0 pack_nil rfl (rfl : 1 = 2 ^ 0)) rfl (rfl : 8 = 2 ^ 3)) rfl (rfl : 32 = 2 ^ 5)) rfl (rfl : 512 = 2 ^ 9)) rfl (rfl : 8192 = 2 ^ 13)) rfl (rfl : 131072 = 2 ^ 17)) rfl (rfl : 2097152 = 2 ^ 21)) rfl (rfl : 33554432 = 2 ^ 25)) rfl (rfl : 536870912 = 2 ^ 29)]
    omega
  have hf : Fits [(2, q.toNat), (4, 11), (4, g.toNat), (4, 7), (4, h.toNat), (4, s.toNat), (4, w.toNat), (2, r.toNat), (3, 0)] := ⟨q.isLt, by decide, g.isLt, by decide, h.isLt, s.isLt, w.isLt, r.isLt, by decide, trivial⟩
  have h0 : x / 33554432 % 16 = 11 := pack_field [(2, q.toNat)] [(4, 11)] [(4, g.toNat), (4, 7), (4, h.toNat), (4, s.toNat), (4, w.toNat), (2, r.toNat), (3, 0)] 25 4 hp hf rfl rfl rfl rfl rfl rfl
  have h1 : x / 131072 % 16 = 7 := pack_field [(2, q.toNat), (4, 11), (4, g.toNat)] [(4, 7)] [(4, h.toNat), (4, s.toNat), (4, w.toNat), (2, r.toNat), (3, 0)] 17 4 hp hf rfl rfl rfl rfl rfl rfl
  have h2 : x % 8 = 0 := pack_low [(2, q.toNat), (4, 11), (4, g.toNat), (4, 7), (4, h.toNat), (4, s.toNat), (4, w.toNat), (2, r.toNat)] [(3, 0)] 3 hp hf rfl rfl rfl rfl
  have e0 : BitVec.ofNat 2 (x / 536870912) = q := ofNat_field [] q [(4, 11), (4, g.toNat), (4, 7), (4, h.toNat), (4, s.toNat), (4, w.toNat), (2, r.toNat), (3, 0)] 29 hp hf rfl rfl rfl
  have e1 : BitVec.ofNat 4 (x / 2097152) = g := ofNat_field [(2, q.toNat), (4, 11)] g [(4, 7), (4, h.toNat), (4, s.toNat), (4, w.toNat), (2, r.toNat), (3, 0)] 21 hp hf rfl rfl rfl
  have e2 : BitVec.ofNat 4 (x / 8192) = h := ofNat_field [(2, q.toNat), (4, 11), (4, g.toNat), (4, 7)] h [(4, s.toNat), (4, w.toNat), (2, r.toNat), (3, 0)] 13 hp hf rfl rfl rfl
  have e3 : BitVec.ofNat 4 (x / 512) = s := ofNat_field [(2, q.toNat), (4, 11), (4, g.toNat), (4, 7), (4, h.toNat)] s [(4, w.toNat), (2, r.toNat), (3, 0)] 9 hp hf rfl rfl rfl
  have e4 : BitVec.ofNat 4 (x / 32) = w := ofNat_field [(2, q.toNat), (4, 11), (4, g.toNat), (4, 7), (4, h.toNat), (4, s.toNat)] w [(2, r.toNat), (3, 0)] 5 hp hf rfl rfl rfl
  have e5 : BitVec.ofNat 2 (x / 8) = r := ofNat_field [(2, q.toNat), (4, 11), (4, g.toNat), (4, 7), (4, h.toNat), (4, s.toNat), (4, w.toNat)] r [(3, 0)] 3 hp hf rfl rfl rfl
  refine ⟨pack_bound 31 hp hf rfl, (.sendt q g h s w r), ?_, rfl, ?_⟩
  · simp only [decodeNat, decodeC, h0, h1, h2, ↓reduceIte]
    rw [e0, e1, e2, e3, e4, e5]
    try rfl
  · rfl

theorem EncodeDecode.coll (q : BitVec 2) (g : BitVec 4) (h : BitVec 4) (s : BitVec 4) (w : BitVec 4) (r : BitVec 2) : EncodeDecode.Statement (.coll q g h s w r) := by
  intro hwf x hx
  replace hx : 370147328 + q.toNat * 536870912 + g.toNat * 2097152 + h.toNat * 8192 + s.toNat * 512 + w.toNat * 32 + r.toNat * 8 = x := Option.some.inj hx
  have hp : x = pack [(2, q.toNat), (4, 11), (4, g.toNat), (4, 8), (4, h.toNat), (4, s.toNat), (4, w.toNat), (2, r.toNat), (3, 0)] := by
    rw [pack_cons 2 29 (pack_cons 4 25 (pack_cons 4 21 (pack_cons 4 17 (pack_cons 4 13 (pack_cons 4 9 (pack_cons 4 5 (pack_cons 2 3 (pack_cons 3 0 pack_nil rfl (rfl : 1 = 2 ^ 0)) rfl (rfl : 8 = 2 ^ 3)) rfl (rfl : 32 = 2 ^ 5)) rfl (rfl : 512 = 2 ^ 9)) rfl (rfl : 8192 = 2 ^ 13)) rfl (rfl : 131072 = 2 ^ 17)) rfl (rfl : 2097152 = 2 ^ 21)) rfl (rfl : 33554432 = 2 ^ 25)) rfl (rfl : 536870912 = 2 ^ 29)]
    omega
  have hf : Fits [(2, q.toNat), (4, 11), (4, g.toNat), (4, 8), (4, h.toNat), (4, s.toNat), (4, w.toNat), (2, r.toNat), (3, 0)] := ⟨q.isLt, by decide, g.isLt, by decide, h.isLt, s.isLt, w.isLt, r.isLt, by decide, trivial⟩
  have h0 : x / 33554432 % 16 = 11 := pack_field [(2, q.toNat)] [(4, 11)] [(4, g.toNat), (4, 8), (4, h.toNat), (4, s.toNat), (4, w.toNat), (2, r.toNat), (3, 0)] 25 4 hp hf rfl rfl rfl rfl rfl rfl
  have h1 : x / 131072 % 16 = 8 := pack_field [(2, q.toNat), (4, 11), (4, g.toNat)] [(4, 8)] [(4, h.toNat), (4, s.toNat), (4, w.toNat), (2, r.toNat), (3, 0)] 17 4 hp hf rfl rfl rfl rfl rfl rfl
  have h2 : x % 8 = 0 := pack_low [(2, q.toNat), (4, 11), (4, g.toNat), (4, 8), (4, h.toNat), (4, s.toNat), (4, w.toNat), (2, r.toNat)] [(3, 0)] 3 hp hf rfl rfl rfl rfl
  have e0 : BitVec.ofNat 2 (x / 536870912) = q := ofNat_field [] q [(4, 11), (4, g.toNat), (4, 8), (4, h.toNat), (4, s.toNat), (4, w.toNat), (2, r.toNat), (3, 0)] 29 hp hf rfl rfl rfl
  have e1 : BitVec.ofNat 4 (x / 2097152) = g := ofNat_field [(2, q.toNat), (4, 11)] g [(4, 8), (4, h.toNat), (4, s.toNat), (4, w.toNat), (2, r.toNat), (3, 0)] 21 hp hf rfl rfl rfl
  have e2 : BitVec.ofNat 4 (x / 8192) = h := ofNat_field [(2, q.toNat), (4, 11), (4, g.toNat), (4, 8)] h [(4, s.toNat), (4, w.toNat), (2, r.toNat), (3, 0)] 13 hp hf rfl rfl rfl
  have e3 : BitVec.ofNat 4 (x / 512) = s := ofNat_field [(2, q.toNat), (4, 11), (4, g.toNat), (4, 8), (4, h.toNat)] s [(4, w.toNat), (2, r.toNat), (3, 0)] 9 hp hf rfl rfl rfl
  have e4 : BitVec.ofNat 4 (x / 32) = w := ofNat_field [(2, q.toNat), (4, 11), (4, g.toNat), (4, 8), (4, h.toNat), (4, s.toNat)] w [(2, r.toNat), (3, 0)] 5 hp hf rfl rfl rfl
  have e5 : BitVec.ofNat 2 (x / 8) = r := ofNat_field [(2, q.toNat), (4, 11), (4, g.toNat), (4, 8), (4, h.toNat), (4, s.toNat), (4, w.toNat)] r [(3, 0)] 3 hp hf rfl rfl rfl
  refine ⟨pack_bound 31 hp hf rfl, (.coll q g h s w r), ?_, rfl, ?_⟩
  · simp only [decodeNat, decodeC, h0, h1, h2, ↓reduceIte]
    rw [e0, e1, e2, e3, e4, e5]
    try rfl
  · rfl

theorem EncodeDecode.abort (q : BitVec 2) (g : BitVec 4) (r : BitVec 2) : EncodeDecode.Statement (.abort q g r) := by
  intro hwf x hx
  replace hx : 370278400 + q.toNat * 536870912 + g.toNat * 2097152 + r.toNat * 8 = x := Option.some.inj hx
  have hp : x = pack [(2, q.toNat), (4, 11), (4, g.toNat), (4, 9), (12, 0), (2, r.toNat), (3, 0)] := by
    rw [pack_cons 2 29 (pack_cons 4 25 (pack_cons 4 21 (pack_cons 4 17 (pack_cons 12 5 (pack_cons 2 3 (pack_cons 3 0 pack_nil rfl (rfl : 1 = 2 ^ 0)) rfl (rfl : 8 = 2 ^ 3)) rfl (rfl : 32 = 2 ^ 5)) rfl (rfl : 131072 = 2 ^ 17)) rfl (rfl : 2097152 = 2 ^ 21)) rfl (rfl : 33554432 = 2 ^ 25)) rfl (rfl : 536870912 = 2 ^ 29)]
    omega
  have hf : Fits [(2, q.toNat), (4, 11), (4, g.toNat), (4, 9), (12, 0), (2, r.toNat), (3, 0)] := ⟨q.isLt, by decide, g.isLt, by decide, by decide, r.isLt, by decide, trivial⟩
  have h0 : x / 33554432 % 16 = 11 := pack_field [(2, q.toNat)] [(4, 11)] [(4, g.toNat), (4, 9), (12, 0), (2, r.toNat), (3, 0)] 25 4 hp hf rfl rfl rfl rfl rfl rfl
  have h1 : x / 131072 % 16 = 9 := pack_field [(2, q.toNat), (4, 11), (4, g.toNat)] [(4, 9)] [(12, 0), (2, r.toNat), (3, 0)] 17 4 hp hf rfl rfl rfl rfl rfl rfl
  have h2 : x % 8 = 0 := pack_low [(2, q.toNat), (4, 11), (4, g.toNat), (4, 9), (12, 0), (2, r.toNat)] [(3, 0)] 3 hp hf rfl rfl rfl rfl
  have h3 : x / 32 % 4096 = 0 := pack_field [(2, q.toNat), (4, 11), (4, g.toNat), (4, 9)] [(12, 0)] [(2, r.toNat), (3, 0)] 5 12 hp hf rfl rfl rfl rfl rfl rfl
  have e0 : BitVec.ofNat 2 (x / 536870912) = q := ofNat_field [] q [(4, 11), (4, g.toNat), (4, 9), (12, 0), (2, r.toNat), (3, 0)] 29 hp hf rfl rfl rfl
  have e1 : BitVec.ofNat 4 (x / 2097152) = g := ofNat_field [(2, q.toNat), (4, 11)] g [(4, 9), (12, 0), (2, r.toNat), (3, 0)] 21 hp hf rfl rfl rfl
  have e2 : BitVec.ofNat 2 (x / 8) = r := ofNat_field [(2, q.toNat), (4, 11), (4, g.toNat), (4, 9), (12, 0)] r [(3, 0)] 3 hp hf rfl rfl rfl
  refine ⟨pack_bound 31 hp hf rfl, (.abort q g r), ?_, rfl, ?_⟩
  · simp only [decodeNat, decodeC, h0, h1, h2, h3, ↓reduceIte, and_self, and_true, true_and, and_false, false_and, one_ne_zero, OfNat.ofNat_ne_zero]
    rw [e0, e1, e2]
    try rfl
  · rfl

theorem EncodeDecode.cset (q : BitVec 2) (g : BitVec 4) (n : BitVec 6) (a : BitVec 5) : EncodeDecode.Statement (.cset q g n a) := by
  intro hwf x hx
  replace hx : 402653184 + q.toNat * 536870912 + g.toNat * 2097152 + n.toNat * 2048 + a.toNat = x := Option.some.inj hx
  have hp : x = pack [(2, q.toNat), (4, 12), (4, g.toNat), (4, 0), (6, n.toNat), (6, 0), (5, a.toNat)] := by
    rw [pack_cons 2 29 (pack_cons 4 25 (pack_cons 4 21 (pack_cons 4 17 (pack_cons 6 11 (pack_cons 6 5 (pack_cons 5 0 pack_nil rfl (rfl : 1 = 2 ^ 0)) rfl (rfl : 32 = 2 ^ 5)) rfl (rfl : 2048 = 2 ^ 11)) rfl (rfl : 131072 = 2 ^ 17)) rfl (rfl : 2097152 = 2 ^ 21)) rfl (rfl : 33554432 = 2 ^ 25)) rfl (rfl : 536870912 = 2 ^ 29)]
    omega
  have hf : Fits [(2, q.toNat), (4, 12), (4, g.toNat), (4, 0), (6, n.toNat), (6, 0), (5, a.toNat)] := ⟨q.isLt, by decide, g.isLt, by decide, n.isLt, by decide, a.isLt, trivial⟩
  have h0 : x / 33554432 % 16 = 12 := pack_field [(2, q.toNat)] [(4, 12)] [(4, g.toNat), (4, 0), (6, n.toNat), (6, 0), (5, a.toNat)] 25 4 hp hf rfl rfl rfl rfl rfl rfl
  have h1 : x / 131072 % 16 = 0 := pack_field [(2, q.toNat), (4, 12), (4, g.toNat)] [(4, 0)] [(6, n.toNat), (6, 0), (5, a.toNat)] 17 4 hp hf rfl rfl rfl rfl rfl rfl
  have h2 : x / 32 % 64 = 0 := pack_field [(2, q.toNat), (4, 12), (4, g.toNat), (4, 0), (6, n.toNat)] [(6, 0)] [(5, a.toNat)] 5 6 hp hf rfl rfl rfl rfl rfl rfl
  have e0 : BitVec.ofNat 2 (x / 536870912) = q := ofNat_field [] q [(4, 12), (4, g.toNat), (4, 0), (6, n.toNat), (6, 0), (5, a.toNat)] 29 hp hf rfl rfl rfl
  have e1 : BitVec.ofNat 4 (x / 2097152) = g := ofNat_field [(2, q.toNat), (4, 12)] g [(4, 0), (6, n.toNat), (6, 0), (5, a.toNat)] 21 hp hf rfl rfl rfl
  have e2 : BitVec.ofNat 6 (x / 2048) = n := ofNat_field [(2, q.toNat), (4, 12), (4, g.toNat), (4, 0)] n [(6, 0), (5, a.toNat)] 11 hp hf rfl rfl rfl
  have e3 : BitVec.ofNat 5 x = a := ofNat_low [(2, q.toNat), (4, 12), (4, g.toNat), (4, 0), (6, n.toNat), (6, 0)] a hp hf rfl
  refine ⟨pack_bound 31 hp hf rfl, (.cset q g n a), ?_, rfl, ?_⟩
  · simp only [decodeNat, decodeY, h0, h1, h2, ↓reduceIte]
    rw [e0, e1, e2, e3]
    try rfl
  · rfl

theorem EncodeDecode.csetImm (q : BitVec 2) (g : BitVec 4) (n : BitVec 6) (i : BitVec 10) (ext : Option (BitVec 25)) : EncodeDecode.Statement (.csetImm q g n i ext) := by
  intro hwf x hx
  replace hx : 402654208 + q.toNat * 536870912 + g.toNat * 2097152 + n.toNat * 2048 + i.toNat = x := Option.some.inj hx
  have hp : x = pack [(2, q.toNat), (4, 12), (4, g.toNat), (4, 0), (6, n.toNat), (1, 1), (10, i.toNat)] := by
    rw [pack_cons 2 29 (pack_cons 4 25 (pack_cons 4 21 (pack_cons 4 17 (pack_cons 6 11 (pack_cons 1 10 (pack_cons 10 0 pack_nil rfl (rfl : 1 = 2 ^ 0)) rfl (rfl : 1024 = 2 ^ 10)) rfl (rfl : 2048 = 2 ^ 11)) rfl (rfl : 131072 = 2 ^ 17)) rfl (rfl : 2097152 = 2 ^ 21)) rfl (rfl : 33554432 = 2 ^ 25)) rfl (rfl : 536870912 = 2 ^ 29)]
    omega
  have hf : Fits [(2, q.toNat), (4, 12), (4, g.toNat), (4, 0), (6, n.toNat), (1, 1), (10, i.toNat)] := ⟨q.isLt, by decide, g.isLt, by decide, n.isLt, by decide, i.isLt, trivial⟩
  have h0 : x / 33554432 % 16 = 12 := pack_field [(2, q.toNat)] [(4, 12)] [(4, g.toNat), (4, 0), (6, n.toNat), (1, 1), (10, i.toNat)] 25 4 hp hf rfl rfl rfl rfl rfl rfl
  have h1 : x / 131072 % 16 = 0 := pack_field [(2, q.toNat), (4, 12), (4, g.toNat)] [(4, 0)] [(6, n.toNat), (1, 1), (10, i.toNat)] 17 4 hp hf rfl rfl rfl rfl rfl rfl
  have := q.isLt
  have := g.isLt
  have := n.isLt
  have := i.isLt
  have h3 : ¬(x / 32 % 64 = 0) := by omega
  have h4 : x / 1024 % 2 = 1 := pack_field [(2, q.toNat), (4, 12), (4, g.toNat), (4, 0), (6, n.toNat)] [(1, 1)] [(10, i.toNat)] 10 1 hp hf rfl rfl rfl rfl rfl rfl
  have e0 : BitVec.ofNat 2 (x / 536870912) = q := ofNat_field [] q [(4, 12), (4, g.toNat), (4, 0), (6, n.toNat), (1, 1), (10, i.toNat)] 29 hp hf rfl rfl rfl
  have e1 : BitVec.ofNat 4 (x / 2097152) = g := ofNat_field [(2, q.toNat), (4, 12)] g [(4, 0), (6, n.toNat), (1, 1), (10, i.toNat)] 21 hp hf rfl rfl rfl
  have e2 : BitVec.ofNat 6 (x / 2048) = n := ofNat_field [(2, q.toNat), (4, 12), (4, g.toNat), (4, 0)] n [(1, 1), (10, i.toNat)] 11 hp hf rfl rfl rfl
  have e3 : BitVec.ofNat 10 x = i := ofNat_low [(2, q.toNat), (4, 12), (4, g.toNat), (4, 0), (6, n.toNat), (1, 1)] i hp hf rfl
  refine ⟨pack_bound 31 hp hf rfl, (.csetImm q g n i none), ?_, rfl, ?_⟩
  · simp only [decodeNat, decodeY, h0, h1, if_neg h3, h4, ↓reduceIte]
    rw [e0, e1, e2, e3]
    try rfl
  · cases ext <;> first | rfl

theorem EncodeDecode.cadd (q : BitVec 2) (g : BitVec 4) (n : BitVec 6) (a : BitVec 5) : EncodeDecode.Statement (.cadd q g n a) := by
  intro hwf x hx
  replace hx : 402784256 + q.toNat * 536870912 + g.toNat * 2097152 + n.toNat * 2048 + a.toNat = x := Option.some.inj hx
  have hp : x = pack [(2, q.toNat), (4, 12), (4, g.toNat), (4, 1), (6, n.toNat), (6, 0), (5, a.toNat)] := by
    rw [pack_cons 2 29 (pack_cons 4 25 (pack_cons 4 21 (pack_cons 4 17 (pack_cons 6 11 (pack_cons 6 5 (pack_cons 5 0 pack_nil rfl (rfl : 1 = 2 ^ 0)) rfl (rfl : 32 = 2 ^ 5)) rfl (rfl : 2048 = 2 ^ 11)) rfl (rfl : 131072 = 2 ^ 17)) rfl (rfl : 2097152 = 2 ^ 21)) rfl (rfl : 33554432 = 2 ^ 25)) rfl (rfl : 536870912 = 2 ^ 29)]
    omega
  have hf : Fits [(2, q.toNat), (4, 12), (4, g.toNat), (4, 1), (6, n.toNat), (6, 0), (5, a.toNat)] := ⟨q.isLt, by decide, g.isLt, by decide, n.isLt, by decide, a.isLt, trivial⟩
  have h0 : x / 33554432 % 16 = 12 := pack_field [(2, q.toNat)] [(4, 12)] [(4, g.toNat), (4, 1), (6, n.toNat), (6, 0), (5, a.toNat)] 25 4 hp hf rfl rfl rfl rfl rfl rfl
  have h1 : x / 131072 % 16 = 1 := pack_field [(2, q.toNat), (4, 12), (4, g.toNat)] [(4, 1)] [(6, n.toNat), (6, 0), (5, a.toNat)] 17 4 hp hf rfl rfl rfl rfl rfl rfl
  have h2 : x / 32 % 64 = 0 := pack_field [(2, q.toNat), (4, 12), (4, g.toNat), (4, 1), (6, n.toNat)] [(6, 0)] [(5, a.toNat)] 5 6 hp hf rfl rfl rfl rfl rfl rfl
  have e0 : BitVec.ofNat 2 (x / 536870912) = q := ofNat_field [] q [(4, 12), (4, g.toNat), (4, 1), (6, n.toNat), (6, 0), (5, a.toNat)] 29 hp hf rfl rfl rfl
  have e1 : BitVec.ofNat 4 (x / 2097152) = g := ofNat_field [(2, q.toNat), (4, 12)] g [(4, 1), (6, n.toNat), (6, 0), (5, a.toNat)] 21 hp hf rfl rfl rfl
  have e2 : BitVec.ofNat 6 (x / 2048) = n := ofNat_field [(2, q.toNat), (4, 12), (4, g.toNat), (4, 1)] n [(6, 0), (5, a.toNat)] 11 hp hf rfl rfl rfl
  have e3 : BitVec.ofNat 5 x = a := ofNat_low [(2, q.toNat), (4, 12), (4, g.toNat), (4, 1), (6, n.toNat), (6, 0)] a hp hf rfl
  refine ⟨pack_bound 31 hp hf rfl, (.cadd q g n a), ?_, rfl, ?_⟩
  · simp only [decodeNat, decodeY, h0, h1, h2, ↓reduceIte]
    rw [e0, e1, e2, e3]
    try rfl
  · rfl

theorem EncodeDecode.caddImm (q : BitVec 2) (g : BitVec 4) (n : BitVec 6) (i : BitVec 10) (ext : Option (BitVec 25)) : EncodeDecode.Statement (.caddImm q g n i ext) := by
  intro hwf x hx
  replace hx : 402785280 + q.toNat * 536870912 + g.toNat * 2097152 + n.toNat * 2048 + i.toNat = x := Option.some.inj hx
  have hp : x = pack [(2, q.toNat), (4, 12), (4, g.toNat), (4, 1), (6, n.toNat), (1, 1), (10, i.toNat)] := by
    rw [pack_cons 2 29 (pack_cons 4 25 (pack_cons 4 21 (pack_cons 4 17 (pack_cons 6 11 (pack_cons 1 10 (pack_cons 10 0 pack_nil rfl (rfl : 1 = 2 ^ 0)) rfl (rfl : 1024 = 2 ^ 10)) rfl (rfl : 2048 = 2 ^ 11)) rfl (rfl : 131072 = 2 ^ 17)) rfl (rfl : 2097152 = 2 ^ 21)) rfl (rfl : 33554432 = 2 ^ 25)) rfl (rfl : 536870912 = 2 ^ 29)]
    omega
  have hf : Fits [(2, q.toNat), (4, 12), (4, g.toNat), (4, 1), (6, n.toNat), (1, 1), (10, i.toNat)] := ⟨q.isLt, by decide, g.isLt, by decide, n.isLt, by decide, i.isLt, trivial⟩
  have h0 : x / 33554432 % 16 = 12 := pack_field [(2, q.toNat)] [(4, 12)] [(4, g.toNat), (4, 1), (6, n.toNat), (1, 1), (10, i.toNat)] 25 4 hp hf rfl rfl rfl rfl rfl rfl
  have h1 : x / 131072 % 16 = 1 := pack_field [(2, q.toNat), (4, 12), (4, g.toNat)] [(4, 1)] [(6, n.toNat), (1, 1), (10, i.toNat)] 17 4 hp hf rfl rfl rfl rfl rfl rfl
  have := q.isLt
  have := g.isLt
  have := n.isLt
  have := i.isLt
  have h3 : ¬(x / 32 % 64 = 0) := by omega
  have h4 : x / 1024 % 2 = 1 := pack_field [(2, q.toNat), (4, 12), (4, g.toNat), (4, 1), (6, n.toNat)] [(1, 1)] [(10, i.toNat)] 10 1 hp hf rfl rfl rfl rfl rfl rfl
  have e0 : BitVec.ofNat 2 (x / 536870912) = q := ofNat_field [] q [(4, 12), (4, g.toNat), (4, 1), (6, n.toNat), (1, 1), (10, i.toNat)] 29 hp hf rfl rfl rfl
  have e1 : BitVec.ofNat 4 (x / 2097152) = g := ofNat_field [(2, q.toNat), (4, 12)] g [(4, 1), (6, n.toNat), (1, 1), (10, i.toNat)] 21 hp hf rfl rfl rfl
  have e2 : BitVec.ofNat 6 (x / 2048) = n := ofNat_field [(2, q.toNat), (4, 12), (4, g.toNat), (4, 1)] n [(1, 1), (10, i.toNat)] 11 hp hf rfl rfl rfl
  have e3 : BitVec.ofNat 10 x = i := ofNat_low [(2, q.toNat), (4, 12), (4, g.toNat), (4, 1), (6, n.toNat), (1, 1)] i hp hf rfl
  refine ⟨pack_bound 31 hp hf rfl, (.caddImm q g n i none), ?_, rfl, ?_⟩
  · simp only [decodeNat, decodeY, h0, h1, if_neg h3, h4, ↓reduceIte]
    rw [e0, e1, e2, e3]
    try rfl
  · cases ext <;> first | rfl

theorem EncodeDecode.cwait (q : BitVec 2) (g : BitVec 4) (n : BitVec 6) (a : BitVec 5) : EncodeDecode.Statement (.cwait q g n a) := by
  intro hwf x hx
  replace hx : 402915328 + q.toNat * 536870912 + g.toNat * 2097152 + n.toNat * 2048 + a.toNat = x := Option.some.inj hx
  have hp : x = pack [(2, q.toNat), (4, 12), (4, g.toNat), (4, 2), (6, n.toNat), (6, 0), (5, a.toNat)] := by
    rw [pack_cons 2 29 (pack_cons 4 25 (pack_cons 4 21 (pack_cons 4 17 (pack_cons 6 11 (pack_cons 6 5 (pack_cons 5 0 pack_nil rfl (rfl : 1 = 2 ^ 0)) rfl (rfl : 32 = 2 ^ 5)) rfl (rfl : 2048 = 2 ^ 11)) rfl (rfl : 131072 = 2 ^ 17)) rfl (rfl : 2097152 = 2 ^ 21)) rfl (rfl : 33554432 = 2 ^ 25)) rfl (rfl : 536870912 = 2 ^ 29)]
    omega
  have hf : Fits [(2, q.toNat), (4, 12), (4, g.toNat), (4, 2), (6, n.toNat), (6, 0), (5, a.toNat)] := ⟨q.isLt, by decide, g.isLt, by decide, n.isLt, by decide, a.isLt, trivial⟩
  have h0 : x / 33554432 % 16 = 12 := pack_field [(2, q.toNat)] [(4, 12)] [(4, g.toNat), (4, 2), (6, n.toNat), (6, 0), (5, a.toNat)] 25 4 hp hf rfl rfl rfl rfl rfl rfl
  have h1 : x / 131072 % 16 = 2 := pack_field [(2, q.toNat), (4, 12), (4, g.toNat)] [(4, 2)] [(6, n.toNat), (6, 0), (5, a.toNat)] 17 4 hp hf rfl rfl rfl rfl rfl rfl
  have h2 : x / 32 % 64 = 0 := pack_field [(2, q.toNat), (4, 12), (4, g.toNat), (4, 2), (6, n.toNat)] [(6, 0)] [(5, a.toNat)] 5 6 hp hf rfl rfl rfl rfl rfl rfl
  have e0 : BitVec.ofNat 2 (x / 536870912) = q := ofNat_field [] q [(4, 12), (4, g.toNat), (4, 2), (6, n.toNat), (6, 0), (5, a.toNat)] 29 hp hf rfl rfl rfl
  have e1 : BitVec.ofNat 4 (x / 2097152) = g := ofNat_field [(2, q.toNat), (4, 12)] g [(4, 2), (6, n.toNat), (6, 0), (5, a.toNat)] 21 hp hf rfl rfl rfl
  have e2 : BitVec.ofNat 6 (x / 2048) = n := ofNat_field [(2, q.toNat), (4, 12), (4, g.toNat), (4, 2)] n [(6, 0), (5, a.toNat)] 11 hp hf rfl rfl rfl
  have e3 : BitVec.ofNat 5 x = a := ofNat_low [(2, q.toNat), (4, 12), (4, g.toNat), (4, 2), (6, n.toNat), (6, 0)] a hp hf rfl
  refine ⟨pack_bound 31 hp hf rfl, (.cwait q g n a), ?_, rfl, ?_⟩
  · simp only [decodeNat, decodeY, h0, h1, h2, ↓reduceIte]
    rw [e0, e1, e2, e3]
    try rfl
  · rfl

theorem EncodeDecode.cwaitImm (q : BitVec 2) (g : BitVec 4) (n : BitVec 6) (i : BitVec 10) (ext : Option (BitVec 25)) : EncodeDecode.Statement (.cwaitImm q g n i ext) := by
  intro hwf x hx
  replace hx : 402916352 + q.toNat * 536870912 + g.toNat * 2097152 + n.toNat * 2048 + i.toNat = x := Option.some.inj hx
  have hp : x = pack [(2, q.toNat), (4, 12), (4, g.toNat), (4, 2), (6, n.toNat), (1, 1), (10, i.toNat)] := by
    rw [pack_cons 2 29 (pack_cons 4 25 (pack_cons 4 21 (pack_cons 4 17 (pack_cons 6 11 (pack_cons 1 10 (pack_cons 10 0 pack_nil rfl (rfl : 1 = 2 ^ 0)) rfl (rfl : 1024 = 2 ^ 10)) rfl (rfl : 2048 = 2 ^ 11)) rfl (rfl : 131072 = 2 ^ 17)) rfl (rfl : 2097152 = 2 ^ 21)) rfl (rfl : 33554432 = 2 ^ 25)) rfl (rfl : 536870912 = 2 ^ 29)]
    omega
  have hf : Fits [(2, q.toNat), (4, 12), (4, g.toNat), (4, 2), (6, n.toNat), (1, 1), (10, i.toNat)] := ⟨q.isLt, by decide, g.isLt, by decide, n.isLt, by decide, i.isLt, trivial⟩
  have h0 : x / 33554432 % 16 = 12 := pack_field [(2, q.toNat)] [(4, 12)] [(4, g.toNat), (4, 2), (6, n.toNat), (1, 1), (10, i.toNat)] 25 4 hp hf rfl rfl rfl rfl rfl rfl
  have h1 : x / 131072 % 16 = 2 := pack_field [(2, q.toNat), (4, 12), (4, g.toNat)] [(4, 2)] [(6, n.toNat), (1, 1), (10, i.toNat)] 17 4 hp hf rfl rfl rfl rfl rfl rfl
  have := q.isLt
  have := g.isLt
  have := n.isLt
  have := i.isLt
  have h3 : ¬(x / 32 % 64 = 0) := by omega
  have h4 : x / 1024 % 2 = 1 := pack_field [(2, q.toNat), (4, 12), (4, g.toNat), (4, 2), (6, n.toNat)] [(1, 1)] [(10, i.toNat)] 10 1 hp hf rfl rfl rfl rfl rfl rfl
  have e0 : BitVec.ofNat 2 (x / 536870912) = q := ofNat_field [] q [(4, 12), (4, g.toNat), (4, 2), (6, n.toNat), (1, 1), (10, i.toNat)] 29 hp hf rfl rfl rfl
  have e1 : BitVec.ofNat 4 (x / 2097152) = g := ofNat_field [(2, q.toNat), (4, 12)] g [(4, 2), (6, n.toNat), (1, 1), (10, i.toNat)] 21 hp hf rfl rfl rfl
  have e2 : BitVec.ofNat 6 (x / 2048) = n := ofNat_field [(2, q.toNat), (4, 12), (4, g.toNat), (4, 2)] n [(1, 1), (10, i.toNat)] 11 hp hf rfl rfl rfl
  have e3 : BitVec.ofNat 10 x = i := ofNat_low [(2, q.toNat), (4, 12), (4, g.toNat), (4, 2), (6, n.toNat), (1, 1)] i hp hf rfl
  refine ⟨pack_bound 31 hp hf rfl, (.cwaitImm q g n i none), ?_, rfl, ?_⟩
  · simp only [decodeNat, decodeY, h0, h1, if_neg h3, h4, ↓reduceIte]
    rw [e0, e1, e2, e3]
    try rfl
  · cases ext <;> first | rfl

theorem EncodeDecode.barb (q : BitVec 2) (g : BitVec 4) (n : BitVec 6) (a : BitVec 5) : EncodeDecode.Statement (.barb q g n a) := by
  intro hwf x hx
  replace hx : 403046400 + q.toNat * 536870912 + g.toNat * 2097152 + n.toNat * 2048 + a.toNat = x := Option.some.inj hx
  have hp : x = pack [(2, q.toNat), (4, 12), (4, g.toNat), (4, 3), (6, n.toNat), (6, 0), (5, a.toNat)] := by
    rw [pack_cons 2 29 (pack_cons 4 25 (pack_cons 4 21 (pack_cons 4 17 (pack_cons 6 11 (pack_cons 6 5 (pack_cons 5 0 pack_nil rfl (rfl : 1 = 2 ^ 0)) rfl (rfl : 32 = 2 ^ 5)) rfl (rfl : 2048 = 2 ^ 11)) rfl (rfl : 131072 = 2 ^ 17)) rfl (rfl : 2097152 = 2 ^ 21)) rfl (rfl : 33554432 = 2 ^ 25)) rfl (rfl : 536870912 = 2 ^ 29)]
    omega
  have hf : Fits [(2, q.toNat), (4, 12), (4, g.toNat), (4, 3), (6, n.toNat), (6, 0), (5, a.toNat)] := ⟨q.isLt, by decide, g.isLt, by decide, n.isLt, by decide, a.isLt, trivial⟩
  have h0 : x / 33554432 % 16 = 12 := pack_field [(2, q.toNat)] [(4, 12)] [(4, g.toNat), (4, 3), (6, n.toNat), (6, 0), (5, a.toNat)] 25 4 hp hf rfl rfl rfl rfl rfl rfl
  have h1 : x / 131072 % 16 = 3 := pack_field [(2, q.toNat), (4, 12), (4, g.toNat)] [(4, 3)] [(6, n.toNat), (6, 0), (5, a.toNat)] 17 4 hp hf rfl rfl rfl rfl rfl rfl
  have h2 : x / 32 % 64 = 0 := pack_field [(2, q.toNat), (4, 12), (4, g.toNat), (4, 3), (6, n.toNat)] [(6, 0)] [(5, a.toNat)] 5 6 hp hf rfl rfl rfl rfl rfl rfl
  have e0 : BitVec.ofNat 2 (x / 536870912) = q := ofNat_field [] q [(4, 12), (4, g.toNat), (4, 3), (6, n.toNat), (6, 0), (5, a.toNat)] 29 hp hf rfl rfl rfl
  have e1 : BitVec.ofNat 4 (x / 2097152) = g := ofNat_field [(2, q.toNat), (4, 12)] g [(4, 3), (6, n.toNat), (6, 0), (5, a.toNat)] 21 hp hf rfl rfl rfl
  have e2 : BitVec.ofNat 6 (x / 2048) = n := ofNat_field [(2, q.toNat), (4, 12), (4, g.toNat), (4, 3)] n [(6, 0), (5, a.toNat)] 11 hp hf rfl rfl rfl
  have e3 : BitVec.ofNat 5 x = a := ofNat_low [(2, q.toNat), (4, 12), (4, g.toNat), (4, 3), (6, n.toNat), (6, 0)] a hp hf rfl
  refine ⟨pack_bound 31 hp hf rfl, (.barb q g n a), ?_, rfl, ?_⟩
  · simp only [decodeNat, decodeY, h0, h1, h2, ↓reduceIte]
    rw [e0, e1, e2, e3]
    try rfl
  · rfl

theorem EncodeDecode.barbImm (q : BitVec 2) (g : BitVec 4) (n : BitVec 6) (i : BitVec 10) (ext : Option (BitVec 25)) : EncodeDecode.Statement (.barbImm q g n i ext) := by
  intro hwf x hx
  replace hx : 403047424 + q.toNat * 536870912 + g.toNat * 2097152 + n.toNat * 2048 + i.toNat = x := Option.some.inj hx
  have hp : x = pack [(2, q.toNat), (4, 12), (4, g.toNat), (4, 3), (6, n.toNat), (1, 1), (10, i.toNat)] := by
    rw [pack_cons 2 29 (pack_cons 4 25 (pack_cons 4 21 (pack_cons 4 17 (pack_cons 6 11 (pack_cons 1 10 (pack_cons 10 0 pack_nil rfl (rfl : 1 = 2 ^ 0)) rfl (rfl : 1024 = 2 ^ 10)) rfl (rfl : 2048 = 2 ^ 11)) rfl (rfl : 131072 = 2 ^ 17)) rfl (rfl : 2097152 = 2 ^ 21)) rfl (rfl : 33554432 = 2 ^ 25)) rfl (rfl : 536870912 = 2 ^ 29)]
    omega
  have hf : Fits [(2, q.toNat), (4, 12), (4, g.toNat), (4, 3), (6, n.toNat), (1, 1), (10, i.toNat)] := ⟨q.isLt, by decide, g.isLt, by decide, n.isLt, by decide, i.isLt, trivial⟩
  have h0 : x / 33554432 % 16 = 12 := pack_field [(2, q.toNat)] [(4, 12)] [(4, g.toNat), (4, 3), (6, n.toNat), (1, 1), (10, i.toNat)] 25 4 hp hf rfl rfl rfl rfl rfl rfl
  have h1 : x / 131072 % 16 = 3 := pack_field [(2, q.toNat), (4, 12), (4, g.toNat)] [(4, 3)] [(6, n.toNat), (1, 1), (10, i.toNat)] 17 4 hp hf rfl rfl rfl rfl rfl rfl
  have := q.isLt
  have := g.isLt
  have := n.isLt
  have := i.isLt
  have h3 : ¬(x / 32 % 64 = 0) := by omega
  have h4 : x / 1024 % 2 = 1 := pack_field [(2, q.toNat), (4, 12), (4, g.toNat), (4, 3), (6, n.toNat)] [(1, 1)] [(10, i.toNat)] 10 1 hp hf rfl rfl rfl rfl rfl rfl
  have e0 : BitVec.ofNat 2 (x / 536870912) = q := ofNat_field [] q [(4, 12), (4, g.toNat), (4, 3), (6, n.toNat), (1, 1), (10, i.toNat)] 29 hp hf rfl rfl rfl
  have e1 : BitVec.ofNat 4 (x / 2097152) = g := ofNat_field [(2, q.toNat), (4, 12)] g [(4, 3), (6, n.toNat), (1, 1), (10, i.toNat)] 21 hp hf rfl rfl rfl
  have e2 : BitVec.ofNat 6 (x / 2048) = n := ofNat_field [(2, q.toNat), (4, 12), (4, g.toNat), (4, 3)] n [(1, 1), (10, i.toNat)] 11 hp hf rfl rfl rfl
  have e3 : BitVec.ofNat 10 x = i := ofNat_low [(2, q.toNat), (4, 12), (4, g.toNat), (4, 3), (6, n.toNat), (1, 1)] i hp hf rfl
  refine ⟨pack_bound 31 hp hf rfl, (.barbImm q g n i none), ?_, rfl, ?_⟩
  · simp only [decodeNat, decodeY, h0, h1, if_neg h3, h4, ↓reduceIte]
    rw [e0, e1, e2, e3]
    try rfl
  · cases ext <;> first | rfl

theorem EncodeDecode.bar (q : BitVec 2) (g : BitVec 4) (a : BitVec 1) (b : BitVec 1) (e : BitVec 1) (l : BitVec 1) : EncodeDecode.Statement (.bar q g a b e l) := by
  intro hwf x hx
  replace hx : 403177472 + q.toNat * 536870912 + g.toNat * 2097152 + a.toNat * 65536 + b.toNat * 32768 + e.toNat * 16384 + l.toNat * 8192 = x := Option.some.inj hx
  have hp : x = pack [(2, q.toNat), (4, 12), (4, g.toNat), (4, 4), (1, a.toNat), (1, b.toNat), (1, e.toNat), (1, l.toNat), (13, 0)] := by
    rw [pack_cons 2 29 (pack_cons 4 25 (pack_cons 4 21 (pack_cons 4 17 (pack_cons 1 16 (pack_cons 1 15 (pack_cons 1 14 (pack_cons 1 13 (pack_cons 13 0 pack_nil rfl (rfl : 1 = 2 ^ 0)) rfl (rfl : 8192 = 2 ^ 13)) rfl (rfl : 16384 = 2 ^ 14)) rfl (rfl : 32768 = 2 ^ 15)) rfl (rfl : 65536 = 2 ^ 16)) rfl (rfl : 131072 = 2 ^ 17)) rfl (rfl : 2097152 = 2 ^ 21)) rfl (rfl : 33554432 = 2 ^ 25)) rfl (rfl : 536870912 = 2 ^ 29)]
    omega
  have hf : Fits [(2, q.toNat), (4, 12), (4, g.toNat), (4, 4), (1, a.toNat), (1, b.toNat), (1, e.toNat), (1, l.toNat), (13, 0)] := ⟨q.isLt, by decide, g.isLt, by decide, a.isLt, b.isLt, e.isLt, l.isLt, by decide, trivial⟩
  have h0 : x / 33554432 % 16 = 12 := pack_field [(2, q.toNat)] [(4, 12)] [(4, g.toNat), (4, 4), (1, a.toNat), (1, b.toNat), (1, e.toNat), (1, l.toNat), (13, 0)] 25 4 hp hf rfl rfl rfl rfl rfl rfl
  have h1 : x / 131072 % 16 = 4 := pack_field [(2, q.toNat), (4, 12), (4, g.toNat)] [(4, 4)] [(1, a.toNat), (1, b.toNat), (1, e.toNat), (1, l.toNat), (13, 0)] 17 4 hp hf rfl rfl rfl rfl rfl rfl
  have h2 : x % 8192 = 0 := pack_low [(2, q.toNat), (4, 12), (4, g.toNat), (4, 4), (1, a.toNat), (1, b.toNat), (1, e.toNat), (1, l.toNat)] [(13, 0)] 13 hp hf rfl rfl rfl rfl
  have e0 : BitVec.ofNat 2 (x / 536870912) = q := ofNat_field [] q [(4, 12), (4, g.toNat), (4, 4), (1, a.toNat), (1, b.toNat), (1, e.toNat), (1, l.toNat), (13, 0)] 29 hp hf rfl rfl rfl
  have e1 : BitVec.ofNat 4 (x / 2097152) = g := ofNat_field [(2, q.toNat), (4, 12)] g [(4, 4), (1, a.toNat), (1, b.toNat), (1, e.toNat), (1, l.toNat), (13, 0)] 21 hp hf rfl rfl rfl
  have e2 : BitVec.ofNat 1 (x / 65536) = a := ofNat_field [(2, q.toNat), (4, 12), (4, g.toNat), (4, 4)] a [(1, b.toNat), (1, e.toNat), (1, l.toNat), (13, 0)] 16 hp hf rfl rfl rfl
  have e3 : BitVec.ofNat 1 (x / 32768) = b := ofNat_field [(2, q.toNat), (4, 12), (4, g.toNat), (4, 4), (1, a.toNat)] b [(1, e.toNat), (1, l.toNat), (13, 0)] 15 hp hf rfl rfl rfl
  have e4 : BitVec.ofNat 1 (x / 16384) = e := ofNat_field [(2, q.toNat), (4, 12), (4, g.toNat), (4, 4), (1, a.toNat), (1, b.toNat)] e [(1, l.toNat), (13, 0)] 14 hp hf rfl rfl rfl
  have e5 : BitVec.ofNat 1 (x / 8192) = l := ofNat_field [(2, q.toNat), (4, 12), (4, g.toNat), (4, 4), (1, a.toNat), (1, b.toNat), (1, e.toNat)] l [(13, 0)] 13 hp hf rfl rfl rfl
  refine ⟨pack_bound 31 hp hf rfl, (.bar q g a b e l), ?_, rfl, ?_⟩
  · simp only [decodeNat, decodeY, h0, h1, h2, ↓reduceIte]
    rw [e0, e1, e2, e3, e4, e5]
    try rfl
  · rfl

theorem EncodeDecode.jcbRaise (q : BitVec 2) (g : BitVec 4) (p : BitVec 3) (a : BitVec 5) : EncodeDecode.Statement (.jcbRaise q g p a) := by
  intro hwf x hx
  replace hx : 403308544 + q.toNat * 536870912 + g.toNat * 2097152 + p.toNat * 16384 + a.toNat = x := Option.some.inj hx
  have hp : x = pack [(2, q.toNat), (4, 12), (4, g.toNat), (4, 5), (3, p.toNat), (9, 0), (5, a.toNat)] := by
    rw [pack_cons 2 29 (pack_cons 4 25 (pack_cons 4 21 (pack_cons 4 17 (pack_cons 3 14 (pack_cons 9 5 (pack_cons 5 0 pack_nil rfl (rfl : 1 = 2 ^ 0)) rfl (rfl : 32 = 2 ^ 5)) rfl (rfl : 16384 = 2 ^ 14)) rfl (rfl : 131072 = 2 ^ 17)) rfl (rfl : 2097152 = 2 ^ 21)) rfl (rfl : 33554432 = 2 ^ 25)) rfl (rfl : 536870912 = 2 ^ 29)]
    omega
  have hf : Fits [(2, q.toNat), (4, 12), (4, g.toNat), (4, 5), (3, p.toNat), (9, 0), (5, a.toNat)] := ⟨q.isLt, by decide, g.isLt, by decide, p.isLt, by decide, a.isLt, trivial⟩
  have h0 : x / 33554432 % 16 = 12 := pack_field [(2, q.toNat)] [(4, 12)] [(4, g.toNat), (4, 5), (3, p.toNat), (9, 0), (5, a.toNat)] 25 4 hp hf rfl rfl rfl rfl rfl rfl
  have h1 : x / 131072 % 16 = 5 := pack_field [(2, q.toNat), (4, 12), (4, g.toNat)] [(4, 5)] [(3, p.toNat), (9, 0), (5, a.toNat)] 17 4 hp hf rfl rfl rfl rfl rfl rfl
  have h2 : x / 32 % 512 = 0 := pack_field [(2, q.toNat), (4, 12), (4, g.toNat), (4, 5), (3, p.toNat)] [(9, 0)] [(5, a.toNat)] 5 9 hp hf rfl rfl rfl rfl rfl rfl
  have e0 : BitVec.ofNat 2 (x / 536870912) = q := ofNat_field [] q [(4, 12), (4, g.toNat), (4, 5), (3, p.toNat), (9, 0), (5, a.toNat)] 29 hp hf rfl rfl rfl
  have e1 : BitVec.ofNat 4 (x / 2097152) = g := ofNat_field [(2, q.toNat), (4, 12)] g [(4, 5), (3, p.toNat), (9, 0), (5, a.toNat)] 21 hp hf rfl rfl rfl
  have e2 : BitVec.ofNat 3 (x / 16384) = p := ofNat_field [(2, q.toNat), (4, 12), (4, g.toNat), (4, 5)] p [(9, 0), (5, a.toNat)] 14 hp hf rfl rfl rfl
  have e3 : BitVec.ofNat 5 x = a := ofNat_low [(2, q.toNat), (4, 12), (4, g.toNat), (4, 5), (3, p.toNat), (9, 0)] a hp hf rfl
  refine ⟨pack_bound 31 hp hf rfl, (.jcbRaise q g p a), ?_, rfl, ?_⟩
  · simp only [decodeNat, decodeY, h0, h1, h2, ↓reduceIte]
    rw [e0, e1, e2, e3]
    try rfl
  · rfl

theorem EncodeDecode.jcbRaiseImm (q : BitVec 2) (g : BitVec 4) (p : BitVec 3) (i : BitVec 13) (ext : Option (BitVec 25)) : EncodeDecode.Statement (.jcbRaiseImm q g p i ext) := by
  intro hwf x hx
  replace hx : 403316736 + q.toNat * 536870912 + g.toNat * 2097152 + p.toNat * 16384 + i.toNat = x := Option.some.inj hx
  have hp : x = pack [(2, q.toNat), (4, 12), (4, g.toNat), (4, 5), (3, p.toNat), (1, 1), (13, i.toNat)] := by
    rw [pack_cons 2 29 (pack_cons 4 25 (pack_cons 4 21 (pack_cons 4 17 (pack_cons 3 14 (pack_cons 1 13 (pack_cons 13 0 pack_nil rfl (rfl : 1 = 2 ^ 0)) rfl (rfl : 8192 = 2 ^ 13)) rfl (rfl : 16384 = 2 ^ 14)) rfl (rfl : 131072 = 2 ^ 17)) rfl (rfl : 2097152 = 2 ^ 21)) rfl (rfl : 33554432 = 2 ^ 25)) rfl (rfl : 536870912 = 2 ^ 29)]
    omega
  have hf : Fits [(2, q.toNat), (4, 12), (4, g.toNat), (4, 5), (3, p.toNat), (1, 1), (13, i.toNat)] := ⟨q.isLt, by decide, g.isLt, by decide, p.isLt, by decide, i.isLt, trivial⟩
  have h0 : x / 33554432 % 16 = 12 := pack_field [(2, q.toNat)] [(4, 12)] [(4, g.toNat), (4, 5), (3, p.toNat), (1, 1), (13, i.toNat)] 25 4 hp hf rfl rfl rfl rfl rfl rfl
  have h1 : x / 131072 % 16 = 5 := pack_field [(2, q.toNat), (4, 12), (4, g.toNat)] [(4, 5)] [(3, p.toNat), (1, 1), (13, i.toNat)] 17 4 hp hf rfl rfl rfl rfl rfl rfl
  have := q.isLt
  have := g.isLt
  have := p.isLt
  have := i.isLt
  have h3 : ¬(x / 32 % 512 = 0) := by omega
  have h4 : x / 8192 % 2 = 1 := pack_field [(2, q.toNat), (4, 12), (4, g.toNat), (4, 5), (3, p.toNat)] [(1, 1)] [(13, i.toNat)] 13 1 hp hf rfl rfl rfl rfl rfl rfl
  have e0 : BitVec.ofNat 2 (x / 536870912) = q := ofNat_field [] q [(4, 12), (4, g.toNat), (4, 5), (3, p.toNat), (1, 1), (13, i.toNat)] 29 hp hf rfl rfl rfl
  have e1 : BitVec.ofNat 4 (x / 2097152) = g := ofNat_field [(2, q.toNat), (4, 12)] g [(4, 5), (3, p.toNat), (1, 1), (13, i.toNat)] 21 hp hf rfl rfl rfl
  have e2 : BitVec.ofNat 3 (x / 16384) = p := ofNat_field [(2, q.toNat), (4, 12), (4, g.toNat), (4, 5)] p [(1, 1), (13, i.toNat)] 14 hp hf rfl rfl rfl
  have e3 : BitVec.ofNat 13 x = i := ofNat_low [(2, q.toNat), (4, 12), (4, g.toNat), (4, 5), (3, p.toNat), (1, 1)] i hp hf rfl
  refine ⟨pack_bound 31 hp hf rfl, (.jcbRaiseImm q g p i none), ?_, rfl, ?_⟩
  · simp only [decodeNat, decodeY, h0, h1, if_neg h3, h4, ↓reduceIte]
    rw [e0, e1, e2, e3]
    try rfl
  · cases ext <;> first | rfl

theorem EncodeDecode.jcbDone (q : BitVec 2) (g : BitVec 4) : EncodeDecode.Statement (.jcbDone q g) := by
  intro hwf x hx
  replace hx : 403439616 + q.toNat * 536870912 + g.toNat * 2097152 = x := Option.some.inj hx
  have hp : x = pack [(2, q.toNat), (4, 12), (4, g.toNat), (4, 6), (17, 0)] := by
    rw [pack_cons 2 29 (pack_cons 4 25 (pack_cons 4 21 (pack_cons 4 17 (pack_cons 17 0 pack_nil rfl (rfl : 1 = 2 ^ 0)) rfl (rfl : 131072 = 2 ^ 17)) rfl (rfl : 2097152 = 2 ^ 21)) rfl (rfl : 33554432 = 2 ^ 25)) rfl (rfl : 536870912 = 2 ^ 29)]
    omega
  have hf : Fits [(2, q.toNat), (4, 12), (4, g.toNat), (4, 6), (17, 0)] := ⟨q.isLt, by decide, g.isLt, by decide, by decide, trivial⟩
  have h0 : x / 33554432 % 16 = 12 := pack_field [(2, q.toNat)] [(4, 12)] [(4, g.toNat), (4, 6), (17, 0)] 25 4 hp hf rfl rfl rfl rfl rfl rfl
  have h1 : x / 131072 % 16 = 6 := pack_field [(2, q.toNat), (4, 12), (4, g.toNat)] [(4, 6)] [(17, 0)] 17 4 hp hf rfl rfl rfl rfl rfl rfl
  have h2 : x % 131072 = 0 := pack_low [(2, q.toNat), (4, 12), (4, g.toNat), (4, 6)] [(17, 0)] 17 hp hf rfl rfl rfl rfl
  have e0 : BitVec.ofNat 2 (x / 536870912) = q := ofNat_field [] q [(4, 12), (4, g.toNat), (4, 6), (17, 0)] 29 hp hf rfl rfl rfl
  have e1 : BitVec.ofNat 4 (x / 2097152) = g := ofNat_field [(2, q.toNat), (4, 12)] g [(4, 6), (17, 0)] 21 hp hf rfl rfl rfl
  refine ⟨pack_bound 31 hp hf rfl, (.jcbDone q g), ?_, rfl, ?_⟩
  · simp only [decodeNat, decodeY, h0, h1, h2, ↓reduceIte]
    rw [e0, e1]
    try rfl
  · rfl

theorem EncodeDecode.tokGive (q : BitVec 2) (g : BitVec 4) (l : BitVec 6) (a : BitVec 5) : EncodeDecode.Statement (.tokGive q g l a) := by
  intro hwf x hx
  replace hx : 403570688 + q.toNat * 536870912 + g.toNat * 2097152 + l.toNat * 2048 + a.toNat = x := Option.some.inj hx
  have hp : x = pack [(2, q.toNat), (4, 12), (4, g.toNat), (4, 7), (6, l.toNat), (6, 0), (5, a.toNat)] := by
    rw [pack_cons 2 29 (pack_cons 4 25 (pack_cons 4 21 (pack_cons 4 17 (pack_cons 6 11 (pack_cons 6 5 (pack_cons 5 0 pack_nil rfl (rfl : 1 = 2 ^ 0)) rfl (rfl : 32 = 2 ^ 5)) rfl (rfl : 2048 = 2 ^ 11)) rfl (rfl : 131072 = 2 ^ 17)) rfl (rfl : 2097152 = 2 ^ 21)) rfl (rfl : 33554432 = 2 ^ 25)) rfl (rfl : 536870912 = 2 ^ 29)]
    omega
  have hf : Fits [(2, q.toNat), (4, 12), (4, g.toNat), (4, 7), (6, l.toNat), (6, 0), (5, a.toNat)] := ⟨q.isLt, by decide, g.isLt, by decide, l.isLt, by decide, a.isLt, trivial⟩
  have h0 : x / 33554432 % 16 = 12 := pack_field [(2, q.toNat)] [(4, 12)] [(4, g.toNat), (4, 7), (6, l.toNat), (6, 0), (5, a.toNat)] 25 4 hp hf rfl rfl rfl rfl rfl rfl
  have h1 : x / 131072 % 16 = 7 := pack_field [(2, q.toNat), (4, 12), (4, g.toNat)] [(4, 7)] [(6, l.toNat), (6, 0), (5, a.toNat)] 17 4 hp hf rfl rfl rfl rfl rfl rfl
  have h2 : x / 32 % 64 = 0 := pack_field [(2, q.toNat), (4, 12), (4, g.toNat), (4, 7), (6, l.toNat)] [(6, 0)] [(5, a.toNat)] 5 6 hp hf rfl rfl rfl rfl rfl rfl
  have e0 : BitVec.ofNat 2 (x / 536870912) = q := ofNat_field [] q [(4, 12), (4, g.toNat), (4, 7), (6, l.toNat), (6, 0), (5, a.toNat)] 29 hp hf rfl rfl rfl
  have e1 : BitVec.ofNat 4 (x / 2097152) = g := ofNat_field [(2, q.toNat), (4, 12)] g [(4, 7), (6, l.toNat), (6, 0), (5, a.toNat)] 21 hp hf rfl rfl rfl
  have e2 : BitVec.ofNat 6 (x / 2048) = l := ofNat_field [(2, q.toNat), (4, 12), (4, g.toNat), (4, 7)] l [(6, 0), (5, a.toNat)] 11 hp hf rfl rfl rfl
  have e3 : BitVec.ofNat 5 x = a := ofNat_low [(2, q.toNat), (4, 12), (4, g.toNat), (4, 7), (6, l.toNat), (6, 0)] a hp hf rfl
  refine ⟨pack_bound 31 hp hf rfl, (.tokGive q g l a), ?_, rfl, ?_⟩
  · simp only [decodeNat, decodeY, h0, h1, h2, ↓reduceIte]
    rw [e0, e1, e2, e3]
    try rfl
  · rfl

theorem EncodeDecode.tokGiveImm (q : BitVec 2) (g : BitVec 4) (l : BitVec 6) (i : BitVec 10) (ext : Option (BitVec 25)) : EncodeDecode.Statement (.tokGiveImm q g l i ext) := by
  intro hwf x hx
  replace hx : 403571712 + q.toNat * 536870912 + g.toNat * 2097152 + l.toNat * 2048 + i.toNat = x := Option.some.inj hx
  have hp : x = pack [(2, q.toNat), (4, 12), (4, g.toNat), (4, 7), (6, l.toNat), (1, 1), (10, i.toNat)] := by
    rw [pack_cons 2 29 (pack_cons 4 25 (pack_cons 4 21 (pack_cons 4 17 (pack_cons 6 11 (pack_cons 1 10 (pack_cons 10 0 pack_nil rfl (rfl : 1 = 2 ^ 0)) rfl (rfl : 1024 = 2 ^ 10)) rfl (rfl : 2048 = 2 ^ 11)) rfl (rfl : 131072 = 2 ^ 17)) rfl (rfl : 2097152 = 2 ^ 21)) rfl (rfl : 33554432 = 2 ^ 25)) rfl (rfl : 536870912 = 2 ^ 29)]
    omega
  have hf : Fits [(2, q.toNat), (4, 12), (4, g.toNat), (4, 7), (6, l.toNat), (1, 1), (10, i.toNat)] := ⟨q.isLt, by decide, g.isLt, by decide, l.isLt, by decide, i.isLt, trivial⟩
  have h0 : x / 33554432 % 16 = 12 := pack_field [(2, q.toNat)] [(4, 12)] [(4, g.toNat), (4, 7), (6, l.toNat), (1, 1), (10, i.toNat)] 25 4 hp hf rfl rfl rfl rfl rfl rfl
  have h1 : x / 131072 % 16 = 7 := pack_field [(2, q.toNat), (4, 12), (4, g.toNat)] [(4, 7)] [(6, l.toNat), (1, 1), (10, i.toNat)] 17 4 hp hf rfl rfl rfl rfl rfl rfl
  have := q.isLt
  have := g.isLt
  have := l.isLt
  have := i.isLt
  have h3 : ¬(x / 32 % 64 = 0) := by omega
  have h4 : x / 1024 % 2 = 1 := pack_field [(2, q.toNat), (4, 12), (4, g.toNat), (4, 7), (6, l.toNat)] [(1, 1)] [(10, i.toNat)] 10 1 hp hf rfl rfl rfl rfl rfl rfl
  have e0 : BitVec.ofNat 2 (x / 536870912) = q := ofNat_field [] q [(4, 12), (4, g.toNat), (4, 7), (6, l.toNat), (1, 1), (10, i.toNat)] 29 hp hf rfl rfl rfl
  have e1 : BitVec.ofNat 4 (x / 2097152) = g := ofNat_field [(2, q.toNat), (4, 12)] g [(4, 7), (6, l.toNat), (1, 1), (10, i.toNat)] 21 hp hf rfl rfl rfl
  have e2 : BitVec.ofNat 6 (x / 2048) = l := ofNat_field [(2, q.toNat), (4, 12), (4, g.toNat), (4, 7)] l [(1, 1), (10, i.toNat)] 11 hp hf rfl rfl rfl
  have e3 : BitVec.ofNat 10 x = i := ofNat_low [(2, q.toNat), (4, 12), (4, g.toNat), (4, 7), (6, l.toNat), (1, 1)] i hp hf rfl
  refine ⟨pack_bound 31 hp hf rfl, (.tokGiveImm q g l i none), ?_, rfl, ?_⟩
  · simp only [decodeNat, decodeY, h0, h1, if_neg h3, h4, ↓reduceIte]
    rw [e0, e1, e2, e3]
    try rfl
  · cases ext <;> first | rfl

theorem EncodeDecode.tokTake (q : BitVec 2) (g : BitVec 4) (p : BitVec 3) (l : BitVec 6) (a : BitVec 5) : EncodeDecode.Statement (.tokTake q g p l a) := by
  intro hwf x hx
  replace hx : 403701760 + q.toNat * 536870912 + g.toNat * 2097152 + p.toNat * 16384 + l.toNat * 256 + a.toNat = x := Option.some.inj hx
  have hp : x = pack [(2, q.toNat), (4, 12), (4, g.toNat), (4, 8), (3, p.toNat), (6, l.toNat), (3, 0), (5, a.toNat)] := by
    rw [pack_cons 2 29 (pack_cons 4 25 (pack_cons 4 21 (pack_cons 4 17 (pack_cons 3 14 (pack_cons 6 8 (pack_cons 3 5 (pack_cons 5 0 pack_nil rfl (rfl : 1 = 2 ^ 0)) rfl (rfl : 32 = 2 ^ 5)) rfl (rfl : 256 = 2 ^ 8)) rfl (rfl : 16384 = 2 ^ 14)) rfl (rfl : 131072 = 2 ^ 17)) rfl (rfl : 2097152 = 2 ^ 21)) rfl (rfl : 33554432 = 2 ^ 25)) rfl (rfl : 536870912 = 2 ^ 29)]
    omega
  have hf : Fits [(2, q.toNat), (4, 12), (4, g.toNat), (4, 8), (3, p.toNat), (6, l.toNat), (3, 0), (5, a.toNat)] := ⟨q.isLt, by decide, g.isLt, by decide, p.isLt, l.isLt, by decide, a.isLt, trivial⟩
  have h0 : x / 33554432 % 16 = 12 := pack_field [(2, q.toNat)] [(4, 12)] [(4, g.toNat), (4, 8), (3, p.toNat), (6, l.toNat), (3, 0), (5, a.toNat)] 25 4 hp hf rfl rfl rfl rfl rfl rfl
  have h1 : x / 131072 % 16 = 8 := pack_field [(2, q.toNat), (4, 12), (4, g.toNat)] [(4, 8)] [(3, p.toNat), (6, l.toNat), (3, 0), (5, a.toNat)] 17 4 hp hf rfl rfl rfl rfl rfl rfl
  have h2 : x / 32 % 8 = 0 := pack_field [(2, q.toNat), (4, 12), (4, g.toNat), (4, 8), (3, p.toNat), (6, l.toNat)] [(3, 0)] [(5, a.toNat)] 5 3 hp hf rfl rfl rfl rfl rfl rfl
  have e0 : BitVec.ofNat 2 (x / 536870912) = q := ofNat_field [] q [(4, 12), (4, g.toNat), (4, 8), (3, p.toNat), (6, l.toNat), (3, 0), (5, a.toNat)] 29 hp hf rfl rfl rfl
  have e1 : BitVec.ofNat 4 (x / 2097152) = g := ofNat_field [(2, q.toNat), (4, 12)] g [(4, 8), (3, p.toNat), (6, l.toNat), (3, 0), (5, a.toNat)] 21 hp hf rfl rfl rfl
  have e2 : BitVec.ofNat 3 (x / 16384) = p := ofNat_field [(2, q.toNat), (4, 12), (4, g.toNat), (4, 8)] p [(6, l.toNat), (3, 0), (5, a.toNat)] 14 hp hf rfl rfl rfl
  have e3 : BitVec.ofNat 6 (x / 256) = l := ofNat_field [(2, q.toNat), (4, 12), (4, g.toNat), (4, 8), (3, p.toNat)] l [(3, 0), (5, a.toNat)] 8 hp hf rfl rfl rfl
  have e4 : BitVec.ofNat 5 x = a := ofNat_low [(2, q.toNat), (4, 12), (4, g.toNat), (4, 8), (3, p.toNat), (6, l.toNat), (3, 0)] a hp hf rfl
  refine ⟨pack_bound 31 hp hf rfl, (.tokTake q g p l a), ?_, rfl, ?_⟩
  · simp only [decodeNat, decodeY, h0, h1, h2, ↓reduceIte]
    rw [e0, e1, e2, e3, e4]
    try rfl
  · rfl

theorem EncodeDecode.tokTakeImm (q : BitVec 2) (g : BitVec 4) (p : BitVec 3) (l : BitVec 6) (i : BitVec 7) (ext : Option (BitVec 25)) : EncodeDecode.Statement (.tokTakeImm q g p l i ext) := by
  intro hwf x hx
  replace hx : 403701888 + q.toNat * 536870912 + g.toNat * 2097152 + p.toNat * 16384 + l.toNat * 256 + i.toNat = x := Option.some.inj hx
  have hp : x = pack [(2, q.toNat), (4, 12), (4, g.toNat), (4, 8), (3, p.toNat), (6, l.toNat), (1, 1), (7, i.toNat)] := by
    rw [pack_cons 2 29 (pack_cons 4 25 (pack_cons 4 21 (pack_cons 4 17 (pack_cons 3 14 (pack_cons 6 8 (pack_cons 1 7 (pack_cons 7 0 pack_nil rfl (rfl : 1 = 2 ^ 0)) rfl (rfl : 128 = 2 ^ 7)) rfl (rfl : 256 = 2 ^ 8)) rfl (rfl : 16384 = 2 ^ 14)) rfl (rfl : 131072 = 2 ^ 17)) rfl (rfl : 2097152 = 2 ^ 21)) rfl (rfl : 33554432 = 2 ^ 25)) rfl (rfl : 536870912 = 2 ^ 29)]
    omega
  have hf : Fits [(2, q.toNat), (4, 12), (4, g.toNat), (4, 8), (3, p.toNat), (6, l.toNat), (1, 1), (7, i.toNat)] := ⟨q.isLt, by decide, g.isLt, by decide, p.isLt, l.isLt, by decide, i.isLt, trivial⟩
  have h0 : x / 33554432 % 16 = 12 := pack_field [(2, q.toNat)] [(4, 12)] [(4, g.toNat), (4, 8), (3, p.toNat), (6, l.toNat), (1, 1), (7, i.toNat)] 25 4 hp hf rfl rfl rfl rfl rfl rfl
  have h1 : x / 131072 % 16 = 8 := pack_field [(2, q.toNat), (4, 12), (4, g.toNat)] [(4, 8)] [(3, p.toNat), (6, l.toNat), (1, 1), (7, i.toNat)] 17 4 hp hf rfl rfl rfl rfl rfl rfl
  have := q.isLt
  have := g.isLt
  have := p.isLt
  have := l.isLt
  have := i.isLt
  have h3 : ¬(x / 32 % 8 = 0) := by omega
  have h4 : x / 128 % 2 = 1 := pack_field [(2, q.toNat), (4, 12), (4, g.toNat), (4, 8), (3, p.toNat), (6, l.toNat)] [(1, 1)] [(7, i.toNat)] 7 1 hp hf rfl rfl rfl rfl rfl rfl
  have e0 : BitVec.ofNat 2 (x / 536870912) = q := ofNat_field [] q [(4, 12), (4, g.toNat), (4, 8), (3, p.toNat), (6, l.toNat), (1, 1), (7, i.toNat)] 29 hp hf rfl rfl rfl
  have e1 : BitVec.ofNat 4 (x / 2097152) = g := ofNat_field [(2, q.toNat), (4, 12)] g [(4, 8), (3, p.toNat), (6, l.toNat), (1, 1), (7, i.toNat)] 21 hp hf rfl rfl rfl
  have e2 : BitVec.ofNat 3 (x / 16384) = p := ofNat_field [(2, q.toNat), (4, 12), (4, g.toNat), (4, 8)] p [(6, l.toNat), (1, 1), (7, i.toNat)] 14 hp hf rfl rfl rfl
  have e3 : BitVec.ofNat 6 (x / 256) = l := ofNat_field [(2, q.toNat), (4, 12), (4, g.toNat), (4, 8), (3, p.toNat)] l [(1, 1), (7, i.toNat)] 8 hp hf rfl rfl rfl
  have e4 : BitVec.ofNat 7 x = i := ofNat_low [(2, q.toNat), (4, 12), (4, g.toNat), (4, 8), (3, p.toNat), (6, l.toNat), (1, 1)] i hp hf rfl
  refine ⟨pack_bound 31 hp hf rfl, (.tokTakeImm q g p l i none), ?_, rfl, ?_⟩
  · simp only [decodeNat, decodeY, h0, h1, if_neg h3, h4, ↓reduceIte]
    rw [e0, e1, e2, e3, e4]
    try rfl
  · cases ext <;> first | rfl

theorem EncodeDecode.extensionWord (i : BitVec 25) : EncodeDecode.Statement (.extensionWord i) := by
  intro hwf x hx
  replace hx : 436207616 + i.toNat = x := Option.some.inj hx
  have hp : x = pack [(2, 0), (4, 13), (25, i.toNat)] := by
    rw [pack_cons 2 29 (pack_cons 4 25 (pack_cons 25 0 pack_nil rfl (rfl : 1 = 2 ^ 0)) rfl (rfl : 33554432 = 2 ^ 25)) rfl (rfl : 536870912 = 2 ^ 29)]
    omega
  have hf : Fits [(2, 0), (4, 13), (25, i.toNat)] := ⟨by decide, by decide, i.isLt, trivial⟩
  have h0 : x / 33554432 % 16 = 13 := pack_field [(2, 0)] [(4, 13)] [(25, i.toNat)] 25 4 hp hf rfl rfl rfl rfl rfl rfl
  have h1 : x / 536870912 % 4 = 0 := pack_field [] [(2, 0)] [(4, 13), (25, i.toNat)] 29 2 hp hf rfl rfl rfl rfl rfl rfl
  have e0 : BitVec.ofNat 25 x = i := ofNat_low [(2, 0), (4, 13)] i hp hf rfl
  refine ⟨pack_bound 31 hp hf rfl, (.extensionWord i), ?_, rfl, ?_⟩
  · simp only [decodeNat, decodeE, h0, h1, ↓reduceIte]
    rw [e0]
    try rfl
  · rfl

theorem EncodeDecode.nop (q : BitVec 2) (x0 : BitVec 25) : EncodeDecode.Statement (.nop q x0) := by
  intro hwf x hx
  replace hx : 503316480 + q.toNat * 536870912 + x0.toNat = x := Option.some.inj hx
  have hp : x = pack [(2, q.toNat), (4, 15), (25, x0.toNat)] := by
    rw [pack_cons 2 29 (pack_cons 4 25 (pack_cons 25 0 pack_nil rfl (rfl : 1 = 2 ^ 0)) rfl (rfl : 33554432 = 2 ^ 25)) rfl (rfl : 536870912 = 2 ^ 29)]
    omega
  have hf : Fits [(2, q.toNat), (4, 15), (25, x0.toNat)] := ⟨q.isLt, by decide, x0.isLt, trivial⟩
  have h0 : x / 33554432 % 16 = 15 := pack_field [(2, q.toNat)] [(4, 15)] [(25, x0.toNat)] 25 4 hp hf rfl rfl rfl rfl rfl rfl
  have e0 : BitVec.ofNat 2 (x / 536870912) = q := ofNat_field [] q [(4, 15), (25, x0.toNat)] 29 hp hf rfl rfl rfl
  have e1 : BitVec.ofNat 25 x = x0 := ofNat_low [(2, q.toNat), (4, 15)] x0 hp hf rfl
  refine ⟨pack_bound 31 hp hf rfl, (.nop q x0), ?_, rfl, ?_⟩
  · simp only [decodeNat, decodeN, h0, ↓reduceIte]
    rw [e0, e1]
    try rfl
  · rfl

theorem EncodeDecode.qtailWrite (q : BitVec 6) (v : BitVec 64) : EncodeDecode.Statement (.qtailWrite q v) := fun _ _ h => nomatch (h : Option.none = _)

theorem EncodeDecode.queueEnable (q : BitVec 6) (v : BitVec 64) : EncodeDecode.Statement (.queueEnable q v) := fun _ _ h => nomatch (h : Option.none = _)

theorem EncodeDecode.queueDisable (q : BitVec 6) (v : BitVec 64) : EncodeDecode.Statement (.queueDisable q v) := fun _ _ h => nomatch (h : Option.none = _)

theorem EncodeDecode.qctlRst (q : BitVec 6) (v : BitVec 64) : EncodeDecode.Statement (.qctlRst q v) := fun _ _ h => nomatch (h : Option.none = _)

theorem EncodeDecode.tlinkWrite (n : BitVec 6) (v : BitVec 64) : EncodeDecode.Statement (.tlinkWrite n v) := fun _ _ h => nomatch (h : Option.none = _)

theorem EncodeDecode.excommit (v : BitVec 64) : EncodeDecode.Statement (.excommit v) := fun _ _ h => nomatch (h : Option.none = _)

theorem EncodeDecode.flipreqAck (v : BitVec 64) : EncodeDecode.Statement (.flipreqAck v) := fun _ _ h => nomatch (h : Option.none = _)

theorem EncodeDecode.flipreqToHost (v : BitVec 64) : EncodeDecode.Statement (.flipreqToHost v) := fun _ _ h => nomatch (h : Option.none = _)

theorem EncodeDecode.registerWrite (off : BitVec 20) (d : BarData) : EncodeDecode.Statement (.registerWrite off d) := fun _ _ h => nomatch (h : Option.none = _)

theorem EncodeDecode.awlSlot : EncodeDecode.Statement .awlSlot := fun _ _ h => nomatch (h : Option.none = _)

theorem EncodeDecode.launchGraph (src : PacketSource) (pkt : BitVec 512) : EncodeDecode.Statement (.launchGraph src pkt) := fun _ _ h => nomatch (h : Option.none = _)

theorem EncodeDecode.launchNode (src : PacketSource) (pkt : BitVec 512) : EncodeDecode.Statement (.launchNode src pkt) := fun _ _ h => nomatch (h : Option.none = _)

theorem EncodeDecode.write (src : PacketSource) (pkt : BitVec 512) : EncodeDecode.Statement (.write src pkt) := fun _ _ h => nomatch (h : Option.none = _)

theorem EncodeDecode.signal (src : PacketSource) (pkt : BitVec 512) : EncodeDecode.Statement (.signal src pkt) := fun _ _ h => nomatch (h : Option.none = _)

theorem EncodeDecode.writeSignal (src : PacketSource) (pkt : BitVec 512) : EncodeDecode.Statement (.writeSignal src pkt) := fun _ _ h => nomatch (h : Option.none = _)

theorem EncodeDecode.tokenGive (src : PacketSource) (pkt : BitVec 512) : EncodeDecode.Statement (.tokenGive src pkt) := fun _ _ h => nomatch (h : Option.none = _)

theorem EncodeDecode.tokenWait (src : PacketSource) (pkt : BitVec 512) : EncodeDecode.Statement (.tokenWait src pkt) := fun _ _ h => nomatch (h : Option.none = _)

theorem EncodeDecode.copy (src : PacketSource) (pkt : BitVec 512) : EncodeDecode.Statement (.copy src pkt) := fun _ _ h => nomatch (h : Option.none = _)

theorem EncodeDecode.fencePacket (src : PacketSource) (pkt : BitVec 512) : EncodeDecode.Statement (.fencePacket src pkt) := fun _ _ h => nomatch (h : Option.none = _)

theorem EncodeDecode.qreset (src : PacketSource) (pkt : BitVec 512) : EncodeDecode.Statement (.qreset src pkt) := fun _ _ h => nomatch (h : Option.none = _)

theorem EncodeDecode.slice (src : PacketSource) (pkt : BitVec 512) : EncodeDecode.Statement (.slice src pkt) := fun _ _ h => nomatch (h : Option.none = _)

theorem EncodeDecode.bindGang (src : PacketSource) (pkt : BitVec 512) : EncodeDecode.Statement (.bindGang src pkt) := fun _ _ h => nomatch (h : Option.none = _)

theorem EncodeDecode.bindDissolve (src : PacketSource) (pkt : BitVec 512) : EncodeDecode.Statement (.bindDissolve src pkt) := fun _ _ h => nomatch (h : Option.none = _)

theorem EncodeDecode.bindReserve (src : PacketSource) (pkt : BitVec 512) : EncodeDecode.Statement (.bindReserve src pkt) := fun _ _ h => nomatch (h : Option.none = _)

theorem EncodeDecode.repairRebindHalf (src : PacketSource) (pkt : BitVec 512) : EncodeDecode.Statement (.repairRebindHalf src pkt) := fun _ _ h => nomatch (h : Option.none = _)

theorem EncodeDecode.repairDramRow (src : PacketSource) (pkt : BitVec 512) : EncodeDecode.Statement (.repairDramRow src pkt) := fun _ _ h => nomatch (h : Option.none = _)

theorem EncodeDecode.repairSpareLane (src : PacketSource) (pkt : BitVec 512) : EncodeDecode.Statement (.repairSpareLane src pkt) := fun _ _ h => nomatch (h : Option.none = _)

theorem EncodeDecode.repairRetireCore (src : PacketSource) (pkt : BitVec 512) : EncodeDecode.Statement (.repairRetireCore src pkt) := fun _ _ h => nomatch (h : Option.none = _)

theorem EncodeDecode.repairScan (src : PacketSource) (pkt : BitVec 512) : EncodeDecode.Statement (.repairScan src pkt) := fun _ _ h => nomatch (h : Option.none = _)

theorem EncodeDecode.attestQuote (src : PacketSource) (pkt : BitVec 512) : EncodeDecode.Statement (.attestQuote src pkt) := fun _ _ h => nomatch (h : Option.none = _)

theorem EncodeDecode.attestPatch (src : PacketSource) (pkt : BitVec 512) : EncodeDecode.Statement (.attestPatch src pkt) := fun _ _ h => nomatch (h : Option.none = _)

theorem EncodeDecode.signatureDone : EncodeDecode.Statement .signatureDone := fun _ _ h => nomatch (h : Option.none = _)

theorem EncodeDecode.packetComplete (q : BitVec 6) (i : BitVec 32) : EncodeDecode.Statement (.packetComplete q i) := fun _ _ h => nomatch (h : Option.none = _)

theorem EncodeDecode.qresetAcksDone (q : BitVec 6) : EncodeDecode.Statement (.qresetAcksDone q) := fun _ _ h => nomatch (h : Option.none = _)

theorem EncodeDecode.asgenChangeDone (sp : BitVec 6) : EncodeDecode.Statement (.asgenChangeDone sp) := fun _ _ h => nomatch (h : Option.none = _)

theorem EncodeDecode.flipDrainDone : EncodeDecode.Statement .flipDrainDone := fun _ _ h => nomatch (h : Option.none = _)

theorem EncodeDecode.enqOutboxAccept (core : BitVec 10) : EncodeDecode.Statement (.enqOutboxAccept core) := fun _ _ h => nomatch (h : Option.none = _)

theorem EncodeDecode.mailboxRecordWrite : EncodeDecode.Statement .mailboxRecordWrite := fun _ _ h => nomatch (h : Option.none = _)

theorem EncodeDecode.entryRebuild (sp : BitVec 6) (pa : BitVec 64) : EncodeDecode.Statement (.entryRebuild sp pa) := fun _ _ h => nomatch (h : Option.none = _)

theorem EncodeDecode.sliceExpiry (prio : BitVec 3) : EncodeDecode.Statement (.sliceExpiry prio) := fun _ _ h => nomatch (h : Option.none = _)

theorem EncodeDecode.reserveSample : EncodeDecode.Statement .reserveSample := fun _ _ h => nomatch (h : Option.none = _)

theorem EncodeDecode.reserveDecision : EncodeDecode.Statement .reserveDecision := fun _ _ h => nomatch (h : Option.none = _)

theorem EncodeDecode.reserveChangeDone (core : BitVec 10) : EncodeDecode.Statement (.reserveChangeDone core) := fun _ _ h => nomatch (h : Option.none = _)

theorem EncodeDecode.preemptWaitExpiry (uid : Nat) : EncodeDecode.Statement (.preemptWaitExpiry uid) := fun _ _ h => nomatch (h : Option.none = _)

theorem EncodeDecode.distributorPlace : EncodeDecode.Statement .distributorPlace := fun _ _ h => nomatch (h : Option.none = _)

theorem EncodeDecode.segmentCopyDone (core : BitVec 10) : EncodeDecode.Statement (.segmentCopyDone core) := fun _ _ h => nomatch (h : Option.none = _)

theorem EncodeDecode.waitSatisfied (uid : Nat) : EncodeDecode.Statement (.waitSatisfied uid) := fun _ _ h => nomatch (h : Option.none = _)

theorem EncodeDecode.barRelease (uid : Nat) : EncodeDecode.Statement (.barRelease uid) := fun _ _ h => nomatch (h : Option.none = _)

theorem EncodeDecode.idleEnd (uid : Nat) : EncodeDecode.Statement (.idleEnd uid) := fun _ _ h => nomatch (h : Option.none = _)

theorem EncodeDecode.jcbRaiseAnswer (uid : Nat) : EncodeDecode.Statement (.jcbRaiseAnswer uid) := fun _ _ h => nomatch (h : Option.none = _)

theorem EncodeDecode.censusClose (uid : Nat) (k : BitVec 6) : EncodeDecode.Statement (.censusClose uid k) := fun _ _ h => nomatch (h : Option.none = _)

theorem EncodeDecode.matrixRunEnd (uid : Nat) (a : BitVec 4) : EncodeDecode.Statement (.matrixRunEnd uid a) := fun _ _ h => nomatch (h : Option.none = _)

theorem EncodeDecode.copyComplete (uid : Nat) (slot : CopySlot) : EncodeDecode.Statement (.copyComplete uid slot) := fun _ _ h => nomatch (h : Option.none = _)

theorem EncodeDecode.cpyqFire (uid : Nat) (slot : CopySlot) (i : Nat) : EncodeDecode.Statement (.cpyqFire uid slot i) := fun _ _ h => nomatch (h : Option.none = _)

theorem EncodeDecode.epiAddComplete (uid : Nat) : EncodeDecode.Statement (.epiAddComplete uid) := fun _ _ h => nomatch (h : Option.none = _)

theorem EncodeDecode.sendtFire (uid : Nat) (i : Nat) : EncodeDecode.Statement (.sendtFire uid i) := fun _ _ h => nomatch (h : Option.none = _)

theorem EncodeDecode.sendDelivery (d : Delivery) : EncodeDecode.Statement (.sendDelivery d) := fun _ _ h => nomatch (h : Option.none = _)

theorem EncodeDecode.sendComplete (uid : Nat) (i : Nat) (ans : SendAnswer) : EncodeDecode.Statement (.sendComplete uid i ans) := fun _ _ h => nomatch (h : Option.none = _)

theorem EncodeDecode.collHop (p : CollPacket) : EncodeDecode.Statement (.collHop p) := fun _ _ h => nomatch (h : Option.none = _)

theorem EncodeDecode.collDeliverApply (i : Nat) : EncodeDecode.Statement (.collDeliverApply i) := fun _ _ h => nomatch (h : Option.none = _)

theorem EncodeDecode.abortFlit (tag : CollTag) (port : BitVec 4) : EncodeDecode.Statement (.abortFlit tag port) := fun _ _ h => nomatch (h : Option.none = _)

theorem EncodeDecode.jcbHomeRaise (uid : Nat) : EncodeDecode.Statement (.jcbHomeRaise uid) := fun _ _ h => nomatch (h : Option.none = _)

theorem EncodeDecode.jcbHomeCompletion (jcb : BitVec 12) : EncodeDecode.Statement (.jcbHomeCompletion jcb) := fun _ _ h => nomatch (h : Option.none = _)

theorem EncodeDecode.jcbHomeNodeFailure (jcb : BitVec 12) (node : BitVec 20) (status : BitVec 32) : EncodeDecode.Statement (.jcbHomeNodeFailure jcb node status) := fun _ _ h => nomatch (h : Option.none = _)

theorem EncodeDecode.nodeCommit (uid : Nat) : EncodeDecode.Statement (.nodeCommit uid) := fun _ _ h => nomatch (h : Option.none = _)

theorem EncodeDecode.trapEntry (core : BitVec 10) : EncodeDecode.Statement (.trapEntry core) := fun _ _ h => nomatch (h : Option.none = _)

theorem EncodeDecode.userInterruptEntry (core : BitVec 10) : EncodeDecode.Statement (.userInterruptEntry core) := fun _ _ h => nomatch (h : Option.none = _)

theorem EncodeDecode.preemptQuiesce (uid : Nat) (begun : Nat × Nat) : EncodeDecode.Statement (.preemptQuiesce uid begun) := fun _ _ h => nomatch (h : Option.none = _)

theorem EncodeDecode.nodeSave (uid : Nat) : EncodeDecode.Statement (.nodeSave uid) := fun _ _ h => nomatch (h : Option.none = _)

theorem EncodeDecode.errorConsumed (uid : Nat) : EncodeDecode.Statement (.errorConsumed uid) := fun _ _ h => nomatch (h : Option.none = _)

theorem EncodeDecode.powerGood : EncodeDecode.Statement .powerGood := fun _ _ h => nomatch (h : Option.none = _)

theorem EncodeDecode.stackSelfTestPass (r : SelfTest) : EncodeDecode.Statement (.stackSelfTestPass r) := fun _ _ h => nomatch (h : Option.none = _)

theorem EncodeDecode.bringupTimeout : EncodeDecode.Statement .bringupTimeout := fun _ _ h => nomatch (h : Option.none = _)

theorem EncodeDecode.probeReturn (axis : Axis) (hops : BitVec 6) : EncodeDecode.Statement (.probeReturn axis hops) := fun _ _ h => nomatch (h : Option.none = _)

theorem EncodeDecode.probeTimeout (axis : Axis) : EncodeDecode.Statement (.probeTimeout axis) := fun _ _ h => nomatch (h : Option.none = _)

theorem EncodeDecode.engineCheckFail (core : BitVec 10) (slot : EngineSlot) : EncodeDecode.Statement (.engineCheckFail core slot) := fun _ _ h => nomatch (h : Option.none = _)

theorem EncodeDecode.rebindDone : EncodeDecode.Statement .rebindDone := fun _ _ h => nomatch (h : Option.none = _)

theorem EncodeDecode.bindDrainDone : EncodeDecode.Statement .bindDrainDone := fun _ _ h => nomatch (h : Option.none = _)

theorem EncodeDecode.dramSoftRepair (chan : BitVec 8) (bank : BitVec 8) (row : BitVec 32) (lost : List Nat) : EncodeDecode.Statement (.dramSoftRepair chan bank row lost) := fun _ _ h => nomatch (h : Option.none = _)

theorem EncodeDecode.laneRetrainDone (port : BitVec 4) : EncodeDecode.Statement (.laneRetrainDone port) := fun _ _ h => nomatch (h : Option.none = _)

theorem EncodeDecode.laneFail (port : BitVec 4) (lane : BitVec 4) : EncodeDecode.Statement (.laneFail port lane) := fun _ _ h => nomatch (h : Option.none = _)

theorem EncodeDecode.powerSample (watts : Nat) : EncodeDecode.Statement (.powerSample watts) := fun _ _ h => nomatch (h : Option.none = _)

theorem EncodeDecode.clockStep : EncodeDecode.Statement .clockStep := fun _ _ h => nomatch (h : Option.none = _)

theorem EncodeDecode.telemetryRefresh : EncodeDecode.Statement .telemetryRefresh := fun _ _ h => nomatch (h : Option.none = _)

theorem EncodeDecode.stackSelfTestFail (st : BitVec 2) : EncodeDecode.Statement (.stackSelfTestFail st) := fun _ _ h => nomatch (h : Option.none = _)

theorem EncodeDecode.coreRetireDrainDone (core : BitVec 10) : EncodeDecode.Statement (.coreRetireDrainDone core) := fun _ _ h => nomatch (h : Option.none = _)

end Sys2Proof.Laws
end

