-- ==== Sys2Proof/Laws/State.lean ====
section
/-! SUPPORT. One lemma per field of State and update: what the update makes of the field. -/

namespace Sys2Proof.Machine

variable (s : State)

@[simp] theorem State.mapCur_agenda (f : Node → Node) : (s.mapCur f).agenda = s.agenda := rfl
@[simp] theorem State.mapCur_focus (f : Node → Node) : (s.mapCur f).focus = s.focus := rfl
@[simp] theorem State.mapCur_cur (f : Node → Node) : (s.mapCur f).cur = f s.cur := rfl
@[simp] theorem State.mapCur_nodes (f : Node → Node) : (s.mapCur f).nodes = s.nodes := rfl
@[simp] theorem State.mapCur_cores (f : Node → Node) : (s.mapCur f).cores = s.cores := rfl
@[simp] theorem State.mapCur_mem (f : Node → Node) : (s.mapCur f).mem = s.mem := rfl
@[simp] theorem State.mapCur_poison (f : Node → Node) : (s.mapCur f).poison = s.poison := rfl
@[simp] theorem State.mapCur_awl (f : Node → Node) : (s.mapCur f).awl = s.awl := rfl
@[simp] theorem State.mapCur_dist (f : Node → Node) : (s.mapCur f).dist = s.dist := rfl
@[simp] theorem State.mapCur_link (f : Node → Node) : (s.mapCur f).link = s.link := rfl
@[simp] theorem State.mapCur_svc (f : Node → Node) : (s.mapCur f).svc = s.svc := rfl
@[simp] theorem State.mapCur_bnd (f : Node → Node) : (s.mapCur f).bnd = s.bnd := rfl
@[simp] theorem State.mapCur_late (f : Node → Node) : (s.mapCur f).late = s.late := rfl
@[simp] theorem State.mapCur_free (f : Node → Node) : (s.mapCur f).free = s.free := rfl

@[simp] theorem State.mapRegs_agenda (f : Regs → Regs) : (s.mapRegs f).agenda = s.agenda := rfl
@[simp] theorem State.mapRegs_focus (f : Regs → Regs) : (s.mapRegs f).focus = s.focus := rfl
@[simp] theorem State.mapRegs_cur (f : Regs → Regs) : (s.mapRegs f).cur = { s.cur with regs := f s.cur.regs } := rfl
@[simp] theorem State.mapRegs_nodes (f : Regs → Regs) : (s.mapRegs f).nodes = s.nodes := rfl
@[simp] theorem State.mapRegs_cores (f : Regs → Regs) : (s.mapRegs f).cores = s.cores := rfl
@[simp] theorem State.mapRegs_mem (f : Regs → Regs) : (s.mapRegs f).mem = s.mem := rfl
@[simp] theorem State.mapRegs_poison (f : Regs → Regs) : (s.mapRegs f).poison = s.poison := rfl
@[simp] theorem State.mapRegs_awl (f : Regs → Regs) : (s.mapRegs f).awl = s.awl := rfl
@[simp] theorem State.mapRegs_dist (f : Regs → Regs) : (s.mapRegs f).dist = s.dist := rfl
@[simp] theorem State.mapRegs_link (f : Regs → Regs) : (s.mapRegs f).link = s.link := rfl
@[simp] theorem State.mapRegs_svc (f : Regs → Regs) : (s.mapRegs f).svc = s.svc := rfl
@[simp] theorem State.mapRegs_bnd (f : Regs → Regs) : (s.mapRegs f).bnd = s.bnd := rfl
@[simp] theorem State.mapRegs_late (f : Regs → Regs) : (s.mapRegs f).late = s.late := rfl
@[simp] theorem State.mapRegs_free (f : Regs → Regs) : (s.mapRegs f).free = s.free := rfl

@[simp] theorem State.mapCtl_agenda (f : Ctl → Ctl) : (s.mapCtl f).agenda = s.agenda := rfl
@[simp] theorem State.mapCtl_focus (f : Ctl → Ctl) : (s.mapCtl f).focus = s.focus := rfl
@[simp] theorem State.mapCtl_cur (f : Ctl → Ctl) : (s.mapCtl f).cur = { s.cur with ctl := f s.cur.ctl } := rfl
@[simp] theorem State.mapCtl_nodes (f : Ctl → Ctl) : (s.mapCtl f).nodes = s.nodes := rfl
@[simp] theorem State.mapCtl_cores (f : Ctl → Ctl) : (s.mapCtl f).cores = s.cores := rfl
@[simp] theorem State.mapCtl_mem (f : Ctl → Ctl) : (s.mapCtl f).mem = s.mem := rfl
@[simp] theorem State.mapCtl_poison (f : Ctl → Ctl) : (s.mapCtl f).poison = s.poison := rfl
@[simp] theorem State.mapCtl_awl (f : Ctl → Ctl) : (s.mapCtl f).awl = s.awl := rfl
@[simp] theorem State.mapCtl_dist (f : Ctl → Ctl) : (s.mapCtl f).dist = s.dist := rfl
@[simp] theorem State.mapCtl_link (f : Ctl → Ctl) : (s.mapCtl f).link = s.link := rfl
@[simp] theorem State.mapCtl_svc (f : Ctl → Ctl) : (s.mapCtl f).svc = s.svc := rfl
@[simp] theorem State.mapCtl_bnd (f : Ctl → Ctl) : (s.mapCtl f).bnd = s.bnd := rfl
@[simp] theorem State.mapCtl_late (f : Ctl → Ctl) : (s.mapCtl f).late = s.late := rfl
@[simp] theorem State.mapCtl_free (f : Ctl → Ctl) : (s.mapCtl f).free = s.free := rfl

@[simp] theorem State.mapEng_agenda (f : Eng → Eng) : (s.mapEng f).agenda = s.agenda := rfl
@[simp] theorem State.mapEng_focus (f : Eng → Eng) : (s.mapEng f).focus = s.focus := rfl
@[simp] theorem State.mapEng_cur (f : Eng → Eng) : (s.mapEng f).cur = { s.cur with eng := f s.cur.eng } := rfl
@[simp] theorem State.mapEng_nodes (f : Eng → Eng) : (s.mapEng f).nodes = s.nodes := rfl
@[simp] theorem State.mapEng_cores (f : Eng → Eng) : (s.mapEng f).cores = s.cores := rfl
@[simp] theorem State.mapEng_mem (f : Eng → Eng) : (s.mapEng f).mem = s.mem := rfl
@[simp] theorem State.mapEng_poison (f : Eng → Eng) : (s.mapEng f).poison = s.poison := rfl
@[simp] theorem State.mapEng_awl (f : Eng → Eng) : (s.mapEng f).awl = s.awl := rfl
@[simp] theorem State.mapEng_dist (f : Eng → Eng) : (s.mapEng f).dist = s.dist := rfl
@[simp] theorem State.mapEng_link (f : Eng → Eng) : (s.mapEng f).link = s.link := rfl
@[simp] theorem State.mapEng_svc (f : Eng → Eng) : (s.mapEng f).svc = s.svc := rfl
@[simp] theorem State.mapEng_bnd (f : Eng → Eng) : (s.mapEng f).bnd = s.bnd := rfl
@[simp] theorem State.mapEng_late (f : Eng → Eng) : (s.mapEng f).late = s.late := rfl
@[simp] theorem State.mapEng_free (f : Eng → Eng) : (s.mapEng f).free = s.free := rfl

@[simp] theorem State.mapRun_agenda (f : Run → Run) : (s.mapRun f).agenda = s.agenda := rfl
@[simp] theorem State.mapRun_focus (f : Run → Run) : (s.mapRun f).focus = s.focus := rfl
@[simp] theorem State.mapRun_cur (f : Run → Run) : (s.mapRun f).cur = { s.cur with run := f s.cur.run } := rfl
@[simp] theorem State.mapRun_nodes (f : Run → Run) : (s.mapRun f).nodes = s.nodes := rfl
@[simp] theorem State.mapRun_cores (f : Run → Run) : (s.mapRun f).cores = s.cores := rfl
@[simp] theorem State.mapRun_mem (f : Run → Run) : (s.mapRun f).mem = s.mem := rfl
@[simp] theorem State.mapRun_poison (f : Run → Run) : (s.mapRun f).poison = s.poison := rfl
@[simp] theorem State.mapRun_awl (f : Run → Run) : (s.mapRun f).awl = s.awl := rfl
@[simp] theorem State.mapRun_dist (f : Run → Run) : (s.mapRun f).dist = s.dist := rfl
@[simp] theorem State.mapRun_link (f : Run → Run) : (s.mapRun f).link = s.link := rfl
@[simp] theorem State.mapRun_svc (f : Run → Run) : (s.mapRun f).svc = s.svc := rfl
@[simp] theorem State.mapRun_bnd (f : Run → Run) : (s.mapRun f).bnd = s.bnd := rfl
@[simp] theorem State.mapRun_late (f : Run → Run) : (s.mapRun f).late = s.late := rfl
@[simp] theorem State.mapRun_free (f : Run → Run) : (s.mapRun f).free = s.free := rfl

@[simp] theorem State.push_agenda (k : Nat) (e : Effect) : (s.push k e).agenda = s.agenda := rfl
@[simp] theorem State.push_focus (k : Nat) (e : Effect) : (s.push k e).focus = s.focus := rfl
@[simp] theorem State.push_cur (k : Nat) (e : Effect) : (s.push k e).cur = s.cur.push k e := rfl
@[simp] theorem State.push_nodes (k : Nat) (e : Effect) : (s.push k e).nodes = s.nodes := rfl
@[simp] theorem State.push_cores (k : Nat) (e : Effect) : (s.push k e).cores = s.cores := rfl
@[simp] theorem State.push_mem (k : Nat) (e : Effect) : (s.push k e).mem = s.mem := rfl
@[simp] theorem State.push_poison (k : Nat) (e : Effect) : (s.push k e).poison = s.poison := rfl
@[simp] theorem State.push_awl (k : Nat) (e : Effect) : (s.push k e).awl = s.awl := rfl
@[simp] theorem State.push_dist (k : Nat) (e : Effect) : (s.push k e).dist = s.dist := rfl
@[simp] theorem State.push_link (k : Nat) (e : Effect) : (s.push k e).link = s.link := rfl
@[simp] theorem State.push_svc (k : Nat) (e : Effect) : (s.push k e).svc = s.svc := rfl
@[simp] theorem State.push_bnd (k : Nat) (e : Effect) : (s.push k e).bnd = s.bnd := rfl
@[simp] theorem State.push_late (k : Nat) (e : Effect) : (s.push k e).late = s.late := rfl
@[simp] theorem State.push_free (k : Nat) (e : Effect) : (s.push k e).free = s.free := rfl

@[simp] theorem State.addPost_agenda (p : Post) : (s.addPost p).agenda = s.agenda := rfl
@[simp] theorem State.addPost_focus (p : Post) : (s.addPost p).focus = s.focus := rfl
@[simp] theorem State.addPost_cur (p : Post) : (s.addPost p).cur = s.cur := rfl
@[simp] theorem State.addPost_nodes (p : Post) : (s.addPost p).nodes = s.nodes := rfl
@[simp] theorem State.addPost_cores (p : Post) : (s.addPost p).cores = s.cores := rfl
@[simp] theorem State.addPost_mem (p : Post) : (s.addPost p).mem = s.mem := rfl
@[simp] theorem State.addPost_poison (p : Post) : (s.addPost p).poison = s.poison := rfl
@[simp] theorem State.addPost_awl (p : Post) : (s.addPost p).awl = s.awl := rfl
@[simp] theorem State.addPost_dist (p : Post) : (s.addPost p).dist = s.dist := rfl
@[simp] theorem State.addPost_link (p : Post) : (s.addPost p).link = s.link := rfl
@[simp] theorem State.addPost_svc (p : Post) : (s.addPost p).svc = s.svc := rfl
@[simp] theorem State.addPost_bnd (p : Post) : (s.addPost p).bnd = { s.bnd with post := s.bnd.post ++ [p] } := rfl
@[simp] theorem State.addPost_late (p : Post) : (s.addPost p).late = s.late := rfl
@[simp] theorem State.addPost_free (p : Post) : (s.addPost p).free = s.free := rfl

@[simp] theorem State.delay_agenda : (s.delay).agenda = s.agenda := rfl
@[simp] theorem State.delay_focus : (s.delay).focus = s.focus := rfl
@[simp] theorem State.delay_cur : (s.delay).cur = s.cur := rfl
@[simp] theorem State.delay_nodes : (s.delay).nodes = s.nodes := rfl
@[simp] theorem State.delay_cores : (s.delay).cores = s.cores := rfl
@[simp] theorem State.delay_mem : (s.delay).mem = s.mem := rfl
@[simp] theorem State.delay_poison : (s.delay).poison = s.poison := rfl
@[simp] theorem State.delay_awl : (s.delay).awl = s.awl := rfl
@[simp] theorem State.delay_dist : (s.delay).dist = s.dist := rfl
@[simp] theorem State.delay_link : (s.delay).link = s.link := rfl
@[simp] theorem State.delay_svc : (s.delay).svc = s.svc := rfl
@[simp] theorem State.delay_bnd : (s.delay).bnd = { s.bnd with stop := .delayed } := rfl
@[simp] theorem State.delay_late : (s.delay).late = s.late := rfl
@[simp] theorem State.delay_free : (s.delay).free = s.free := rfl

@[simp] theorem State.setByte_agenda (a : Nat) (b : Byte) (p : Bool) : (s.setByte a b p).agenda = s.agenda := rfl
@[simp] theorem State.setByte_focus (a : Nat) (b : Byte) (p : Bool) : (s.setByte a b p).focus = s.focus := rfl
@[simp] theorem State.setByte_cur (a : Nat) (b : Byte) (p : Bool) : (s.setByte a b p).cur = s.cur := rfl
@[simp] theorem State.setByte_nodes (a : Nat) (b : Byte) (p : Bool) : (s.setByte a b p).nodes = s.nodes := rfl
@[simp] theorem State.setByte_cores (a : Nat) (b : Byte) (p : Bool) : (s.setByte a b p).cores = s.cores := rfl
@[simp] theorem State.setByte_mem (a : Nat) (b : Byte) (p : Bool) : (s.setByte a b p).mem = memSet s.mem a b := rfl
@[simp] theorem State.setByte_poison (a : Nat) (b : Byte) (p : Bool) : (s.setByte a b p).poison = if p then setAdd s.poison a else setDel s.poison a := rfl
@[simp] theorem State.setByte_awl (a : Nat) (b : Byte) (p : Bool) : (s.setByte a b p).awl = s.awl := rfl
@[simp] theorem State.setByte_dist (a : Nat) (b : Byte) (p : Bool) : (s.setByte a b p).dist = s.dist := rfl
@[simp] theorem State.setByte_link (a : Nat) (b : Byte) (p : Bool) : (s.setByte a b p).link = s.link := rfl
@[simp] theorem State.setByte_svc (a : Nat) (b : Byte) (p : Bool) : (s.setByte a b p).svc = s.svc := rfl
@[simp] theorem State.setByte_bnd (a : Nat) (b : Byte) (p : Bool) : (s.setByte a b p).bnd = s.bnd := rfl
@[simp] theorem State.setByte_late (a : Nat) (b : Byte) (p : Bool) : (s.setByte a b p).late = s.late := rfl
@[simp] theorem State.setByte_free (a : Nat) (b : Byte) (p : Bool) : (s.setByte a b p).free = s.free := rfl

@[simp] theorem State.count_agenda (n : String) : (s.count n).agenda = s.agenda := rfl
@[simp] theorem State.count_focus (n : String) : (s.count n).focus = s.focus := rfl
@[simp] theorem State.count_cur (n : String) : (s.count n).cur = s.cur := rfl
@[simp] theorem State.count_nodes (n : String) : (s.count n).nodes = s.nodes := rfl
@[simp] theorem State.count_cores (n : String) : (s.count n).cores = s.cores := rfl
@[simp] theorem State.count_mem (n : String) : (s.count n).mem = s.mem := rfl
@[simp] theorem State.count_poison (n : String) : (s.count n).poison = s.poison := rfl
@[simp] theorem State.count_awl (n : String) : (s.count n).awl = s.awl := rfl
@[simp] theorem State.count_dist (n : String) : (s.count n).dist = s.dist := rfl
@[simp] theorem State.count_link (n : String) : (s.count n).link = s.link := rfl
@[simp] theorem State.count_svc (n : String) : (s.count n).svc = { s.svc with tele := countIn s.svc.tele n } := rfl
@[simp] theorem State.count_bnd (n : String) : (s.count n).bnd = s.bnd := rfl
@[simp] theorem State.count_late (n : String) : (s.count n).late = s.late := rfl
@[simp] theorem State.count_free (n : String) : (s.count n).free = s.free := rfl

@[simp] theorem State.raiseMsix_agenda (v : Nat) : (s.raiseMsix v).agenda = s.agenda := rfl
@[simp] theorem State.raiseMsix_focus (v : Nat) : (s.raiseMsix v).focus = s.focus := rfl
@[simp] theorem State.raiseMsix_cur (v : Nat) : (s.raiseMsix v).cur = s.cur := rfl
@[simp] theorem State.raiseMsix_nodes (v : Nat) : (s.raiseMsix v).nodes = s.nodes := rfl
@[simp] theorem State.raiseMsix_cores (v : Nat) : (s.raiseMsix v).cores = s.cores := rfl
@[simp] theorem State.raiseMsix_mem (v : Nat) : (s.raiseMsix v).mem = s.mem := rfl
@[simp] theorem State.raiseMsix_poison (v : Nat) : (s.raiseMsix v).poison = s.poison := rfl
@[simp] theorem State.raiseMsix_awl (v : Nat) : (s.raiseMsix v).awl = { s.awl with msix := s.awl.msix ++ [v] } := rfl
@[simp] theorem State.raiseMsix_dist (v : Nat) : (s.raiseMsix v).dist = s.dist := rfl
@[simp] theorem State.raiseMsix_link (v : Nat) : (s.raiseMsix v).link = s.link := rfl
@[simp] theorem State.raiseMsix_svc (v : Nat) : (s.raiseMsix v).svc = s.svc := rfl
@[simp] theorem State.raiseMsix_bnd (v : Nat) : (s.raiseMsix v).bnd = s.bnd := rfl
@[simp] theorem State.raiseMsix_late (v : Nat) : (s.raiseMsix v).late = s.late := rfl
@[simp] theorem State.raiseMsix_free (v : Nat) : (s.raiseMsix v).free = s.free := rfl

@[simp] theorem State.setCore_agenda (c : Core) : (s.setCore c).agenda = s.agenda := rfl
@[simp] theorem State.setCore_focus (c : Core) : (s.setCore c).focus = s.focus := rfl
@[simp] theorem State.setCore_cur (c : Core) : (s.setCore c).cur = s.cur := rfl
@[simp] theorem State.setCore_nodes (c : Core) : (s.setCore c).nodes = s.nodes := rfl
@[simp] theorem State.setCore_cores (c : Core) : (s.setCore c).cores = coresPut s.cores c := rfl
@[simp] theorem State.setCore_mem (c : Core) : (s.setCore c).mem = s.mem := rfl
@[simp] theorem State.setCore_poison (c : Core) : (s.setCore c).poison = s.poison := rfl
@[simp] theorem State.setCore_awl (c : Core) : (s.setCore c).awl = s.awl := rfl
@[simp] theorem State.setCore_dist (c : Core) : (s.setCore c).dist = s.dist := rfl
@[simp] theorem State.setCore_link (c : Core) : (s.setCore c).link = s.link := rfl
@[simp] theorem State.setCore_svc (c : Core) : (s.setCore c).svc = s.svc := rfl
@[simp] theorem State.setCore_bnd (c : Core) : (s.setCore c).bnd = s.bnd := rfl
@[simp] theorem State.setCore_late (c : Core) : (s.setCore c).late = s.late := rfl
@[simp] theorem State.setCore_free (c : Core) : (s.setCore c).free = s.free := rfl

@[simp] theorem State.withResults_agenda (l : List InFlight) : (s.withResults l).agenda = s.agenda := rfl
@[simp] theorem State.withResults_focus (l : List InFlight) : (s.withResults l).focus = s.focus := rfl
@[simp] theorem State.withResults_cur (l : List InFlight) : (s.withResults l).cur = { s.cur with ctl := { s.cur.ctl with flight := s.cur.ctl.flight ++ l } } := rfl
@[simp] theorem State.withResults_nodes (l : List InFlight) : (s.withResults l).nodes = s.nodes := rfl
@[simp] theorem State.withResults_cores (l : List InFlight) : (s.withResults l).cores = s.cores := rfl
@[simp] theorem State.withResults_mem (l : List InFlight) : (s.withResults l).mem = s.mem := rfl
@[simp] theorem State.withResults_poison (l : List InFlight) : (s.withResults l).poison = s.poison := rfl
@[simp] theorem State.withResults_awl (l : List InFlight) : (s.withResults l).awl = s.awl := rfl
@[simp] theorem State.withResults_dist (l : List InFlight) : (s.withResults l).dist = s.dist := rfl
@[simp] theorem State.withResults_link (l : List InFlight) : (s.withResults l).link = s.link := rfl
@[simp] theorem State.withResults_svc (l : List InFlight) : (s.withResults l).svc = s.svc := rfl
@[simp] theorem State.withResults_bnd (l : List InFlight) : (s.withResults l).bnd = s.bnd := rfl
@[simp] theorem State.withResults_late (l : List InFlight) : (s.withResults l).late = s.late := rfl
@[simp] theorem State.withResults_free (l : List InFlight) : (s.withResults l).free = s.free := rfl

@[simp] theorem State.clearBnd_agenda : (s.clearBnd).agenda = s.agenda := rfl
@[simp] theorem State.clearBnd_focus : (s.clearBnd).focus = s.focus := rfl
@[simp] theorem State.clearBnd_cur : (s.clearBnd).cur = s.cur := rfl
@[simp] theorem State.clearBnd_nodes : (s.clearBnd).nodes = s.nodes := rfl
@[simp] theorem State.clearBnd_cores : (s.clearBnd).cores = s.cores := rfl
@[simp] theorem State.clearBnd_mem : (s.clearBnd).mem = s.mem := rfl
@[simp] theorem State.clearBnd_poison : (s.clearBnd).poison = s.poison := rfl
@[simp] theorem State.clearBnd_awl : (s.clearBnd).awl = s.awl := rfl
@[simp] theorem State.clearBnd_dist : (s.clearBnd).dist = s.dist := rfl
@[simp] theorem State.clearBnd_link : (s.clearBnd).link = s.link := rfl
@[simp] theorem State.clearBnd_svc : (s.clearBnd).svc = s.svc := rfl
@[simp] theorem State.clearBnd_bnd : (s.clearBnd).bnd = {} := rfl
@[simp] theorem State.clearBnd_late : (s.clearBnd).late = s.late := rfl
@[simp] theorem State.clearBnd_free : (s.clearBnd).free = s.free := rfl

@[simp] theorem State.setLink_agenda (n : Nat) (l : Link) : (s.setLink n l).agenda = s.agenda := rfl
@[simp] theorem State.setLink_focus (n : Nat) (l : Link) : (s.setLink n l).focus = s.focus := rfl
@[simp] theorem State.setLink_cur (n : Nat) (l : Link) : (s.setLink n l).cur = s.cur := rfl
@[simp] theorem State.setLink_nodes (n : Nat) (l : Link) : (s.setLink n l).nodes = s.nodes := rfl
@[simp] theorem State.setLink_cores (n : Nat) (l : Link) : (s.setLink n l).cores = s.cores := rfl
@[simp] theorem State.setLink_mem (n : Nat) (l : Link) : (s.setLink n l).mem = s.mem := rfl
@[simp] theorem State.setLink_poison (n : Nat) (l : Link) : (s.setLink n l).poison = s.poison := rfl
@[simp] theorem State.setLink_awl (n : Nat) (l : Link) : (s.setLink n l).awl = { s.awl with links := s.awl.links.setIfInBounds n l } := rfl
@[simp] theorem State.setLink_dist (n : Nat) (l : Link) : (s.setLink n l).dist = s.dist := rfl
@[simp] theorem State.setLink_link (n : Nat) (l : Link) : (s.setLink n l).link = s.link := rfl
@[simp] theorem State.setLink_svc (n : Nat) (l : Link) : (s.setLink n l).svc = s.svc := rfl
@[simp] theorem State.setLink_bnd (n : Nat) (l : Link) : (s.setLink n l).bnd = s.bnd := rfl
@[simp] theorem State.setLink_late (n : Nat) (l : Link) : (s.setLink n l).late = s.late := rfl
@[simp] theorem State.setLink_free (n : Nat) (l : Link) : (s.setLink n l).free = s.free := rfl

@[simp] theorem State.setPort_agenda (n : Nat) (x : Port) : (s.setPort n x).agenda = s.agenda := rfl
@[simp] theorem State.setPort_focus (n : Nat) (x : Port) : (s.setPort n x).focus = s.focus := rfl
@[simp] theorem State.setPort_cur (n : Nat) (x : Port) : (s.setPort n x).cur = s.cur := rfl
@[simp] theorem State.setPort_nodes (n : Nat) (x : Port) : (s.setPort n x).nodes = s.nodes := rfl
@[simp] theorem State.setPort_cores (n : Nat) (x : Port) : (s.setPort n x).cores = s.cores := rfl
@[simp] theorem State.setPort_mem (n : Nat) (x : Port) : (s.setPort n x).mem = s.mem := rfl
@[simp] theorem State.setPort_poison (n : Nat) (x : Port) : (s.setPort n x).poison = s.poison := rfl
@[simp] theorem State.setPort_awl (n : Nat) (x : Port) : (s.setPort n x).awl = s.awl := rfl
@[simp] theorem State.setPort_dist (n : Nat) (x : Port) : (s.setPort n x).dist = s.dist := rfl
@[simp] theorem State.setPort_link (n : Nat) (x : Port) : (s.setPort n x).link = s.link := rfl
@[simp] theorem State.setPort_svc (n : Nat) (x : Port) : (s.setPort n x).svc = { s.svc with ports := s.svc.ports.setIfInBounds n x } := rfl
@[simp] theorem State.setPort_bnd (n : Nat) (x : Port) : (s.setPort n x).bnd = s.bnd := rfl
@[simp] theorem State.setPort_late (n : Nat) (x : Port) : (s.setPort n x).late = s.late := rfl
@[simp] theorem State.setPort_free (n : Nat) (x : Port) : (s.setPort n x).free = s.free := rfl

@[simp] theorem State.setQueue_agenda (q : BitVec 6) (x : Queue) : (s.setQueue q x).agenda = s.agenda := rfl
@[simp] theorem State.setQueue_focus (q : BitVec 6) (x : Queue) : (s.setQueue q x).focus = s.focus := rfl
@[simp] theorem State.setQueue_cur (q : BitVec 6) (x : Queue) : (s.setQueue q x).cur = s.cur := rfl
@[simp] theorem State.setQueue_nodes (q : BitVec 6) (x : Queue) : (s.setQueue q x).nodes = s.nodes := rfl
@[simp] theorem State.setQueue_cores (q : BitVec 6) (x : Queue) : (s.setQueue q x).cores = s.cores := rfl
@[simp] theorem State.setQueue_mem (q : BitVec 6) (x : Queue) : (s.setQueue q x).mem = s.mem := rfl
@[simp] theorem State.setQueue_poison (q : BitVec 6) (x : Queue) : (s.setQueue q x).poison = s.poison := rfl
@[simp] theorem State.setQueue_awl (q : BitVec 6) (x : Queue) : (s.setQueue q x).awl = { s.awl with queues := s.awl.queues.setIfInBounds q.toNat x } := rfl
@[simp] theorem State.setQueue_dist (q : BitVec 6) (x : Queue) : (s.setQueue q x).dist = s.dist := rfl
@[simp] theorem State.setQueue_link (q : BitVec 6) (x : Queue) : (s.setQueue q x).link = s.link := rfl
@[simp] theorem State.setQueue_svc (q : BitVec 6) (x : Queue) : (s.setQueue q x).svc = s.svc := rfl
@[simp] theorem State.setQueue_bnd (q : BitVec 6) (x : Queue) : (s.setQueue q x).bnd = s.bnd := rfl
@[simp] theorem State.setQueue_late (q : BitVec 6) (x : Queue) : (s.setQueue q x).late = s.late := rfl
@[simp] theorem State.setQueue_free (q : BitVec 6) (x : Queue) : (s.setQueue q x).free = s.free := rfl

@[simp] theorem State.mapQueue_agenda (q : BitVec 6) (f : Queue → Queue) : (s.mapQueue q f).agenda = s.agenda := rfl
@[simp] theorem State.mapQueue_focus (q : BitVec 6) (f : Queue → Queue) : (s.mapQueue q f).focus = s.focus := rfl
@[simp] theorem State.mapQueue_cur (q : BitVec 6) (f : Queue → Queue) : (s.mapQueue q f).cur = s.cur := rfl
@[simp] theorem State.mapQueue_nodes (q : BitVec 6) (f : Queue → Queue) : (s.mapQueue q f).nodes = s.nodes := rfl
@[simp] theorem State.mapQueue_cores (q : BitVec 6) (f : Queue → Queue) : (s.mapQueue q f).cores = s.cores := rfl
@[simp] theorem State.mapQueue_mem (q : BitVec 6) (f : Queue → Queue) : (s.mapQueue q f).mem = s.mem := rfl
@[simp] theorem State.mapQueue_poison (q : BitVec 6) (f : Queue → Queue) : (s.mapQueue q f).poison = s.poison := rfl
@[simp] theorem State.mapQueue_awl (q : BitVec 6) (f : Queue → Queue) : (s.mapQueue q f).awl = { s.awl with queues := s.awl.queues.setIfInBounds q.toNat (f (s.queue q)) } := rfl
@[simp] theorem State.mapQueue_dist (q : BitVec 6) (f : Queue → Queue) : (s.mapQueue q f).dist = s.dist := rfl
@[simp] theorem State.mapQueue_link (q : BitVec 6) (f : Queue → Queue) : (s.mapQueue q f).link = s.link := rfl
@[simp] theorem State.mapQueue_svc (q : BitVec 6) (f : Queue → Queue) : (s.mapQueue q f).svc = s.svc := rfl
@[simp] theorem State.mapQueue_bnd (q : BitVec 6) (f : Queue → Queue) : (s.mapQueue q f).bnd = s.bnd := rfl
@[simp] theorem State.mapQueue_late (q : BitVec 6) (f : Queue → Queue) : (s.mapQueue q f).late = s.late := rfl
@[simp] theorem State.mapQueue_free (q : BitVec 6) (f : Queue → Queue) : (s.mapQueue q f).free = s.free := rfl

@[simp] theorem State.countCore_agenda (i : Nat) (n : String) : (s.countCore i n).agenda = s.agenda := rfl
@[simp] theorem State.countCore_focus (i : Nat) (n : String) : (s.countCore i n).focus = s.focus := rfl
@[simp] theorem State.countCore_cur (i : Nat) (n : String) : (s.countCore i n).cur = s.cur := rfl
@[simp] theorem State.countCore_nodes (i : Nat) (n : String) : (s.countCore i n).nodes = s.nodes := rfl
@[simp] theorem State.countCore_cores (i : Nat) (n : String) : (s.countCore i n).cores = coresPut s.cores { s.core i with tele := countIn (s.core i).tele n } := rfl
@[simp] theorem State.countCore_mem (i : Nat) (n : String) : (s.countCore i n).mem = s.mem := rfl
@[simp] theorem State.countCore_poison (i : Nat) (n : String) : (s.countCore i n).poison = s.poison := rfl
@[simp] theorem State.countCore_awl (i : Nat) (n : String) : (s.countCore i n).awl = s.awl := rfl
@[simp] theorem State.countCore_dist (i : Nat) (n : String) : (s.countCore i n).dist = s.dist := rfl
@[simp] theorem State.countCore_link (i : Nat) (n : String) : (s.countCore i n).link = s.link := rfl
@[simp] theorem State.countCore_svc (i : Nat) (n : String) : (s.countCore i n).svc = s.svc := rfl
@[simp] theorem State.countCore_bnd (i : Nat) (n : String) : (s.countCore i n).bnd = s.bnd := rfl
@[simp] theorem State.countCore_late (i : Nat) (n : String) : (s.countCore i n).late = s.late := rfl
@[simp] theorem State.countCore_free (i : Nat) (n : String) : (s.countCore i n).free = s.free := rfl

@[simp] theorem State.noteChan_agenda (c k : Nat) : (s.noteChan c k).agenda = s.agenda := rfl
@[simp] theorem State.noteChan_focus (c k : Nat) : (s.noteChan c k).focus = s.focus := rfl
@[simp] theorem State.noteChan_cur (c k : Nat) : (s.noteChan c k).cur = s.cur := rfl
@[simp] theorem State.noteChan_nodes (c k : Nat) : (s.noteChan c k).nodes = s.nodes := rfl
@[simp] theorem State.noteChan_cores (c k : Nat) : (s.noteChan c k).cores = s.cores := rfl
@[simp] theorem State.noteChan_mem (c k : Nat) : (s.noteChan c k).mem = s.mem := rfl
@[simp] theorem State.noteChan_poison (c k : Nat) : (s.noteChan c k).poison = s.poison := rfl
@[simp] theorem State.noteChan_awl (c k : Nat) : (s.noteChan c k).awl = s.awl := rfl
@[simp] theorem State.noteChan_dist (c k : Nat) : (s.noteChan c k).dist = s.dist := rfl
@[simp] theorem State.noteChan_link (c k : Nat) : (s.noteChan c k).link = s.link := rfl
@[simp] theorem State.noteChan_svc (c k : Nat) : (s.noteChan c k).svc = { s.svc with dramCounts := countChan s.svc.dramCounts c k } := rfl
@[simp] theorem State.noteChan_bnd (c k : Nat) : (s.noteChan c k).bnd = s.bnd := rfl
@[simp] theorem State.noteChan_late (c k : Nat) : (s.noteChan c k).late = s.late := rfl
@[simp] theorem State.noteChan_free (c k : Nat) : (s.noteChan c k).free = s.free := rfl

@[simp] theorem State.nextReady_agenda : (s.nextReady).agenda = s.agenda := rfl
@[simp] theorem State.nextReady_focus : (s.nextReady).focus = s.focus := rfl
@[simp] theorem State.nextReady_cur : (s.nextReady).cur = s.cur := rfl
@[simp] theorem State.nextReady_nodes : (s.nextReady).nodes = s.nodes := rfl
@[simp] theorem State.nextReady_cores : (s.nextReady).cores = s.cores := rfl
@[simp] theorem State.nextReady_mem : (s.nextReady).mem = s.mem := rfl
@[simp] theorem State.nextReady_poison : (s.nextReady).poison = s.poison := rfl
@[simp] theorem State.nextReady_awl : (s.nextReady).awl = { s.awl with readySeq := s.awl.readySeq + 1 } := rfl
@[simp] theorem State.nextReady_dist : (s.nextReady).dist = s.dist := rfl
@[simp] theorem State.nextReady_link : (s.nextReady).link = s.link := rfl
@[simp] theorem State.nextReady_svc : (s.nextReady).svc = s.svc := rfl
@[simp] theorem State.nextReady_bnd : (s.nextReady).bnd = s.bnd := rfl
@[simp] theorem State.nextReady_late : (s.nextReady).late = s.late := rfl
@[simp] theorem State.nextReady_free : (s.nextReady).free = s.free := rfl

@[simp] theorem State.mail_agenda (r : MailRec) : (s.mail r).agenda = s.agenda := by unfold State.mail; split <;> rfl
@[simp] theorem State.mail_focus (r : MailRec) : (s.mail r).focus = s.focus := by unfold State.mail; split <;> rfl
@[simp] theorem State.mail_cur (r : MailRec) : (s.mail r).cur = s.cur := by unfold State.mail; split <;> rfl
@[simp] theorem State.mail_nodes (r : MailRec) : (s.mail r).nodes = s.nodes := by unfold State.mail; split <;> rfl
@[simp] theorem State.mail_cores (r : MailRec) : (s.mail r).cores = s.cores := by unfold State.mail; split <;> rfl
@[simp] theorem State.mail_mem (r : MailRec) : (s.mail r).mem = s.mem := by unfold State.mail; split <;> rfl
@[simp] theorem State.mail_poison (r : MailRec) : (s.mail r).poison = s.poison := by unfold State.mail; split <;> rfl
@[simp] theorem State.mail_dist (r : MailRec) : (s.mail r).dist = s.dist := by unfold State.mail; split <;> rfl
@[simp] theorem State.mail_link (r : MailRec) : (s.mail r).link = s.link := by unfold State.mail; split <;> rfl
@[simp] theorem State.mail_svc (r : MailRec) : (s.mail r).svc = s.svc := by unfold State.mail; split <;> rfl
@[simp] theorem State.mail_bnd (r : MailRec) : (s.mail r).bnd = s.bnd := by unfold State.mail; split <;> rfl
@[simp] theorem State.mail_late (r : MailRec) : (s.mail r).late = s.late := by unfold State.mail; split <;> rfl
@[simp] theorem State.mail_free (r : MailRec) : (s.mail r).free = s.free := by unfold State.mail; split <;> rfl

@[simp] theorem State.portOut_agenda (n : Nat) (f : Flit) : (s.portOut n f).agenda = s.agenda := by unfold State.portOut; split <;> [(split <;> rfl); rfl]
@[simp] theorem State.portOut_focus (n : Nat) (f : Flit) : (s.portOut n f).focus = s.focus := by unfold State.portOut; split <;> [(split <;> rfl); rfl]
@[simp] theorem State.portOut_cur (n : Nat) (f : Flit) : (s.portOut n f).cur = s.cur := by unfold State.portOut; split <;> [(split <;> rfl); rfl]
@[simp] theorem State.portOut_nodes (n : Nat) (f : Flit) : (s.portOut n f).nodes = s.nodes := by unfold State.portOut; split <;> [(split <;> rfl); rfl]
@[simp] theorem State.portOut_cores (n : Nat) (f : Flit) : (s.portOut n f).cores = s.cores := by unfold State.portOut; split <;> [(split <;> rfl); rfl]
@[simp] theorem State.portOut_mem (n : Nat) (f : Flit) : (s.portOut n f).mem = s.mem := by unfold State.portOut; split <;> [(split <;> rfl); rfl]
@[simp] theorem State.portOut_poison (n : Nat) (f : Flit) : (s.portOut n f).poison = s.poison := by unfold State.portOut; split <;> [(split <;> rfl); rfl]
@[simp] theorem State.portOut_awl (n : Nat) (f : Flit) : (s.portOut n f).awl = s.awl := by unfold State.portOut; split <;> [(split <;> rfl); rfl]
@[simp] theorem State.portOut_dist (n : Nat) (f : Flit) : (s.portOut n f).dist = s.dist := by unfold State.portOut; split <;> [(split <;> rfl); rfl]
@[simp] theorem State.portOut_bnd (n : Nat) (f : Flit) : (s.portOut n f).bnd = s.bnd := by unfold State.portOut; split <;> [(split <;> rfl); rfl]
@[simp] theorem State.portOut_late (n : Nat) (f : Flit) : (s.portOut n f).late = s.late := by unfold State.portOut; split <;> [(split <;> rfl); rfl]
@[simp] theorem State.portOut_free (n : Nat) (f : Flit) : (s.portOut n f).free = s.free := by unfold State.portOut; split <;> [(split <;> rfl); rfl]

@[simp] theorem State.sendOut_agenda (l : List (Nat × Flit)) : (s.sendOut l).agenda = s.agenda := List.foldlRecOn l _ (motive := fun t => State.agenda t = s.agenda) rfl fun _ h _ _ => by simp [h]
@[simp] theorem State.sendOut_focus (l : List (Nat × Flit)) : (s.sendOut l).focus = s.focus := List.foldlRecOn l _ (motive := fun t => State.focus t = s.focus) rfl fun _ h _ _ => by simp [h]
@[simp] theorem State.sendOut_cur (l : List (Nat × Flit)) : (s.sendOut l).cur = s.cur := List.foldlRecOn l _ (motive := fun t => State.cur t = s.cur) rfl fun _ h _ _ => by simp [h]
@[simp] theorem State.sendOut_nodes (l : List (Nat × Flit)) : (s.sendOut l).nodes = s.nodes := List.foldlRecOn l _ (motive := fun t => State.nodes t = s.nodes) rfl fun _ h _ _ => by simp [h]
@[simp] theorem State.sendOut_cores (l : List (Nat × Flit)) : (s.sendOut l).cores = s.cores := List.foldlRecOn l _ (motive := fun t => State.cores t = s.cores) rfl fun _ h _ _ => by simp [h]
@[simp] theorem State.sendOut_mem (l : List (Nat × Flit)) : (s.sendOut l).mem = s.mem := List.foldlRecOn l _ (motive := fun t => State.mem t = s.mem) rfl fun _ h _ _ => by simp [h]
@[simp] theorem State.sendOut_poison (l : List (Nat × Flit)) : (s.sendOut l).poison = s.poison := List.foldlRecOn l _ (motive := fun t => State.poison t = s.poison) rfl fun _ h _ _ => by simp [h]
@[simp] theorem State.sendOut_awl (l : List (Nat × Flit)) : (s.sendOut l).awl = s.awl := List.foldlRecOn l _ (motive := fun t => State.awl t = s.awl) rfl fun _ h _ _ => by simp [h]
@[simp] theorem State.sendOut_dist (l : List (Nat × Flit)) : (s.sendOut l).dist = s.dist := List.foldlRecOn l _ (motive := fun t => State.dist t = s.dist) rfl fun _ h _ _ => by simp [h]
@[simp] theorem State.sendOut_bnd (l : List (Nat × Flit)) : (s.sendOut l).bnd = s.bnd := List.foldlRecOn l _ (motive := fun t => State.bnd t = s.bnd) rfl fun _ h _ _ => by simp [h]
@[simp] theorem State.sendOut_late (l : List (Nat × Flit)) : (s.sendOut l).late = s.late := List.foldlRecOn l _ (motive := fun t => State.late t = s.late) rfl fun _ h _ _ => by simp [h]
@[simp] theorem State.sendOut_free (l : List (Nat × Flit)) : (s.sendOut l).free = s.free := List.foldlRecOn l _ (motive := fun t => State.free t = s.free) rfl fun _ h _ _ => by simp [h]

@[simp] theorem State.settlePool_agenda : s.settlePool.agenda = s.agenda := rfl
@[simp] theorem State.settlePool_focus : s.settlePool.focus = s.focus := rfl
@[simp] theorem State.settlePool_cur : s.settlePool.cur = s.cur := rfl
@[simp] theorem State.settlePool_nodes : s.settlePool.nodes = s.nodes := rfl
@[simp] theorem State.settlePool_cores : s.settlePool.cores = s.cores := rfl
@[simp] theorem State.settlePool_mem : s.settlePool.mem = s.mem := rfl
@[simp] theorem State.settlePool_poison : s.settlePool.poison = s.poison := rfl
@[simp] theorem State.settlePool_awl : s.settlePool.awl = s.awl := rfl
@[simp] theorem State.settlePool_link : s.settlePool.link = s.link := rfl
@[simp] theorem State.settlePool_svc : s.settlePool.svc = s.svc := rfl
@[simp] theorem State.settlePool_bnd : s.settlePool.bnd = s.bnd := rfl
@[simp] theorem State.settlePool_late : s.settlePool.late = s.late := rfl
@[simp] theorem State.settlePool_free : s.settlePool.free = s.free := rfl

@[simp] theorem State.acquire_agenda : s.acquire.agenda = s.agenda := rfl
@[simp] theorem State.acquire_focus : s.acquire.focus = s.focus := rfl
@[simp] theorem State.acquire_cur : s.acquire.cur = { s.cur with run := { s.cur.run with ahead := [] } } := rfl
@[simp] theorem State.acquire_nodes : s.acquire.nodes = s.nodes := rfl
@[simp] theorem State.acquire_cores : s.acquire.cores = s.cores := rfl
@[simp] theorem State.acquire_mem : s.acquire.mem = s.mem := rfl
@[simp] theorem State.acquire_poison : s.acquire.poison = s.poison := rfl
@[simp] theorem State.acquire_awl : s.acquire.awl = s.awl := rfl
@[simp] theorem State.acquire_dist : s.acquire.dist = s.dist := rfl
@[simp] theorem State.acquire_link : s.acquire.link = s.link := rfl
@[simp] theorem State.acquire_svc : s.acquire.svc = s.svc := rfl
@[simp] theorem State.acquire_bnd : s.acquire.bnd = s.bnd := rfl
@[simp] theorem State.acquire_late : s.acquire.late = s.late := rfl
@[simp] theorem State.acquire_free : s.acquire.free = s.free := rfl

@[simp] theorem State.forget_agenda (l : List Place) : (s.forget l).agenda = s.agenda := rfl
@[simp] theorem State.forget_focus (l : List Place) : (s.forget l).focus = s.focus := rfl
@[simp] theorem State.forget_cur (l : List Place) : (s.forget l).cur = { s.cur with run := { s.cur.run with ahead := s.cur.run.ahead.filter fun e => disjointPlaces e.places l } } := rfl
@[simp] theorem State.forget_nodes (l : List Place) : (s.forget l).nodes = s.nodes := rfl
@[simp] theorem State.forget_cores (l : List Place) : (s.forget l).cores = s.cores := rfl
@[simp] theorem State.forget_mem (l : List Place) : (s.forget l).mem = s.mem := rfl
@[simp] theorem State.forget_poison (l : List Place) : (s.forget l).poison = s.poison := rfl
@[simp] theorem State.forget_awl (l : List Place) : (s.forget l).awl = s.awl := rfl
@[simp] theorem State.forget_dist (l : List Place) : (s.forget l).dist = s.dist := rfl
@[simp] theorem State.forget_link (l : List Place) : (s.forget l).link = s.link := rfl
@[simp] theorem State.forget_svc (l : List Place) : (s.forget l).svc = s.svc := rfl
@[simp] theorem State.forget_bnd (l : List Place) : (s.forget l).bnd = s.bnd := rfl
@[simp] theorem State.forget_late (l : List Place) : (s.forget l).late = s.late := rfl
@[simp] theorem State.forget_free (l : List Place) : (s.forget l).free = s.free := rfl

@[simp] theorem State.tagged_desc (n : Node) : (s.tagged n).desc = n.desc := rfl
@[simp] theorem State.tagged_regs (n : Node) : (s.tagged n).regs = n.regs := rfl
@[simp] theorem State.tagged_ctl (n : Node) : (s.tagged n).ctl = n.ctl := rfl
@[simp] theorem State.tagged_eng (n : Node) : (s.tagged n).eng = n.eng := rfl

@[simp] theorem State.setNode_agenda (n : Node) : (s.setNode n).agenda = s.agenda := by unfold State.setNode; split <;> [rfl; (split <;> rfl)]
@[simp] theorem State.setNode_focus (n : Node) : (s.setNode n).focus = s.focus := by unfold State.setNode; split <;> [rfl; (split <;> rfl)]
@[simp] theorem State.setNode_cores (n : Node) : (s.setNode n).cores = s.cores := by unfold State.setNode; split <;> [rfl; (split <;> rfl)]
@[simp] theorem State.setNode_mem (n : Node) : (s.setNode n).mem = s.mem := by unfold State.setNode; split <;> [rfl; (split <;> rfl)]
@[simp] theorem State.setNode_poison (n : Node) : (s.setNode n).poison = s.poison := by unfold State.setNode; split <;> [rfl; (split <;> rfl)]
@[simp] theorem State.setNode_awl (n : Node) : (s.setNode n).awl = s.awl := by unfold State.setNode; split <;> [rfl; (split <;> rfl)]
@[simp] theorem State.setNode_dist (n : Node) : (s.setNode n).dist = s.dist := by unfold State.setNode; split <;> [rfl; (split <;> rfl)]
@[simp] theorem State.setNode_link (n : Node) : (s.setNode n).link = s.link := by unfold State.setNode; split <;> [rfl; (split <;> rfl)]
@[simp] theorem State.setNode_svc (n : Node) : (s.setNode n).svc = s.svc := by unfold State.setNode; split <;> [rfl; (split <;> rfl)]
@[simp] theorem State.setNode_bnd (n : Node) : (s.setNode n).bnd = s.bnd := by unfold State.setNode; split <;> [rfl; (split <;> rfl)]
@[simp] theorem State.setNode_late (n : Node) : (s.setNode n).late = s.late := by unfold State.setNode; split <;> [rfl; (split <;> rfl)]
@[simp] theorem State.setNode_free (n : Node) : (s.setNode n).free = s.free := by unfold State.setNode; split <;> [rfl; (split <;> rfl)]
@[simp] theorem State.pushS_agenda (k : Nat) (d : BitVec 5) (v : Word) : (s.pushS k d v).agenda = s.agenda := by unfold State.pushS; split <;> rfl
@[simp] theorem State.pushS_focus (k : Nat) (d : BitVec 5) (v : Word) : (s.pushS k d v).focus = s.focus := by unfold State.pushS; split <;> rfl
@[simp] theorem State.pushS_nodes (k : Nat) (d : BitVec 5) (v : Word) : (s.pushS k d v).nodes = s.nodes := by unfold State.pushS; split <;> rfl
@[simp] theorem State.pushS_cores (k : Nat) (d : BitVec 5) (v : Word) : (s.pushS k d v).cores = s.cores := by unfold State.pushS; split <;> rfl
@[simp] theorem State.pushS_mem (k : Nat) (d : BitVec 5) (v : Word) : (s.pushS k d v).mem = s.mem := by unfold State.pushS; split <;> rfl
@[simp] theorem State.pushS_poison (k : Nat) (d : BitVec 5) (v : Word) : (s.pushS k d v).poison = s.poison := by unfold State.pushS; split <;> rfl
@[simp] theorem State.pushS_awl (k : Nat) (d : BitVec 5) (v : Word) : (s.pushS k d v).awl = s.awl := by unfold State.pushS; split <;> rfl
@[simp] theorem State.pushS_dist (k : Nat) (d : BitVec 5) (v : Word) : (s.pushS k d v).dist = s.dist := by unfold State.pushS; split <;> rfl
@[simp] theorem State.pushS_link (k : Nat) (d : BitVec 5) (v : Word) : (s.pushS k d v).link = s.link := by unfold State.pushS; split <;> rfl
@[simp] theorem State.pushS_svc (k : Nat) (d : BitVec 5) (v : Word) : (s.pushS k d v).svc = s.svc := by unfold State.pushS; split <;> rfl
@[simp] theorem State.pushS_bnd (k : Nat) (d : BitVec 5) (v : Word) : (s.pushS k d v).bnd = s.bnd := by unfold State.pushS; split <;> rfl
@[simp] theorem State.pushS_late (k : Nat) (d : BitVec 5) (v : Word) : (s.pushS k d v).late = s.late := by unfold State.pushS; split <;> rfl
@[simp] theorem State.pushS_free (k : Nat) (d : BitVec 5) (v : Word) : (s.pushS k d v).free = s.free := by unfold State.pushS; split <;> rfl
@[simp] theorem State.pushP_agenda (k : Nat) (d : BitVec 3) (v : Bool) : (s.pushP k d v).agenda = s.agenda := by unfold State.pushP; split <;> rfl
@[simp] theorem State.pushP_focus (k : Nat) (d : BitVec 3) (v : Bool) : (s.pushP k d v).focus = s.focus := by unfold State.pushP; split <;> rfl
@[simp] theorem State.pushP_nodes (k : Nat) (d : BitVec 3) (v : Bool) : (s.pushP k d v).nodes = s.nodes := by unfold State.pushP; split <;> rfl
@[simp] theorem State.pushP_cores (k : Nat) (d : BitVec 3) (v : Bool) : (s.pushP k d v).cores = s.cores := by unfold State.pushP; split <;> rfl
@[simp] theorem State.pushP_mem (k : Nat) (d : BitVec 3) (v : Bool) : (s.pushP k d v).mem = s.mem := by unfold State.pushP; split <;> rfl
@[simp] theorem State.pushP_poison (k : Nat) (d : BitVec 3) (v : Bool) : (s.pushP k d v).poison = s.poison := by unfold State.pushP; split <;> rfl
@[simp] theorem State.pushP_awl (k : Nat) (d : BitVec 3) (v : Bool) : (s.pushP k d v).awl = s.awl := by unfold State.pushP; split <;> rfl
@[simp] theorem State.pushP_dist (k : Nat) (d : BitVec 3) (v : Bool) : (s.pushP k d v).dist = s.dist := by unfold State.pushP; split <;> rfl
@[simp] theorem State.pushP_link (k : Nat) (d : BitVec 3) (v : Bool) : (s.pushP k d v).link = s.link := by unfold State.pushP; split <;> rfl
@[simp] theorem State.pushP_svc (k : Nat) (d : BitVec 3) (v : Bool) : (s.pushP k d v).svc = s.svc := by unfold State.pushP; split <;> rfl
@[simp] theorem State.pushP_bnd (k : Nat) (d : BitVec 3) (v : Bool) : (s.pushP k d v).bnd = s.bnd := by unfold State.pushP; split <;> rfl
@[simp] theorem State.pushP_late (k : Nat) (d : BitVec 3) (v : Bool) : (s.pushP k d v).late = s.late := by unfold State.pushP; split <;> rfl
@[simp] theorem State.pushP_free (k : Nat) (d : BitVec 3) (v : Bool) : (s.pushP k d v).free = s.free := by unfold State.pushP; split <;> rfl

@[simp] theorem Node.push_desc (n : Node) (k : Nat) (e : Effect) : (n.push k e).desc = n.desc := rfl
@[simp] theorem Node.push_run (n : Node) (k : Nat) (e : Effect) : (n.push k e).run = n.run := rfl
@[simp] theorem Node.push_regs (n : Node) (k : Nat) (e : Effect) : (n.push k e).regs = n.regs := rfl
@[simp] theorem Node.push_eng (n : Node) (k : Nat) (e : Effect) : (n.push k e).eng = n.eng := rfl
@[simp] theorem Node.push_flight (n : Node) (k : Nat) (e : Effect) : (n.push k e).ctl.flight = n.ctl.flight ++ [{ dist := k, eff := e }] := rfl

end Sys2Proof.Machine
end

