-- ==== Sys2Proof/Laws/Shared.lean ====
section
/-! SUPPORT. What shared operations can do: the pool after a step, firing and joining, places that are apart, the reserve, and the flits of a port. -/

namespace Sys2Proof.Machine

/-! ## Steps -/

theorem settled_next {r : Result} {t : State} : settled r = .next t ↔ ∃ u, r = .next u ∧ t = u.settlePool := by
  cases r <;> simp [settled, eq_comm]

@[simp] theorem settled_fault (f : Fault) : settled (.fault f) = .fault f := rfl
@[simp] theorem settled_refused (f : Refusal) : settled (.refused f) = .refused f := rfl

/-! ## Lists -/

theorem mem_addNew {α : Type} [BEq α] [LawfulBEq α] {l : List α} {a x : α} : x ∈ addNew l a ↔ x = a ∨ x ∈ l := by
  unfold addNew
  split
  · next h => simp at h; constructor <;> intro hx <;> [exact .inr hx; (rcases hx with rfl | hx <;> assumption)]
  · simp [or_comm]

/-- Of commands that have fired, the one that fired first. -/
theorem leastSeq_spec {l : List (Nat × CopyCmd)} {a : Nat × CopyCmd} (h : leastSeq l = some a) : a ∈ l ∧ ∀ b ∈ l, a.2.seq ≤ b.2.seq := by
  induction l generalizing a with
  | nil => simp [leastSeq] at h
  | cons c l ih =>
    unfold leastSeq at h
    split at h
    · next hl =>
      obtain rfl : c = a := by simpa using h
      cases l with
      | nil => simp
      | cons d l => exfalso; unfold leastSeq at hl; split at hl <;> [skip; split at hl] <;> simp at hl
    · next b hb =>
      obtain ⟨h1, h2⟩ := ih hb
      split at h <;> obtain rfl := Option.some.inj h
      · exact ⟨.tail _ h1, fun d hd => (List.mem_cons.mp hd).elim (fun e => e ▸ by omega) (h2 d)⟩
      · exact ⟨.head _, fun d hd => (List.mem_cons.mp hd).elim (fun e => e ▸ le_rfl) fun hd => by have := h2 d hd; omega⟩

/-- The command that joins a slot's queue next has fired, on a node that shares the slot, and no other there has fired before it (R279). -/
theorem State.firstFired_spec {s : State} {uid v : Nat} {cb : Bool} {c : CopyCmd} (h : s.firstFired uid cb = some (v, c)) :
    (∃ n ∈ s.sharers uid, n.desc.uid = v ∧ c ∈ n.eng.firedOf cb) ∧ ∀ n ∈ s.sharers uid, ∀ d ∈ n.eng.firedOf cb, c.seq ≤ d.seq := by
  obtain ⟨h1, h2⟩ := leastSeq_spec h
  simp only [List.mem_flatMap, List.mem_map, Prod.mk.injEq] at h1
  obtain ⟨n, hn, d, hd, rfl, rfl⟩ := h1
  exact ⟨⟨n, hn, rfl, hd⟩, fun m hm e he => h2 (m.desc.uid, e) (List.mem_flatMap.mpr ⟨m, hm, List.mem_map.mpr ⟨e, he, rfl⟩⟩)⟩

/-- Commands that fire stand behind those that have, and before those that still wait; none is lost (R279, R337). -/
theorem fireIn_length {α : Type} (fired fires : α → Bool) (mark : α → Nat → α) (l : List α) : (fireIn fired fires mark l).length = l.length := by
  induction l with
  | nil => rfl
  | cons a l ih =>
    simp only [fireIn, List.length_append, List.length_map, List.length_zipIdx, List.filter_cons, Bool.not_or] at ih ⊢
    cases fired a <;> cases fires a <;> simp <;> omega

/-- Where nothing fires now, what has fired comes first and nothing else changes. -/
theorem fireIn_none {α : Type} {fired fires : α → Bool} (mark : α → Nat → α) {l : List α} (h : ∀ a ∈ l, fires a = false) :
    fireIn fired fires mark l = l.filter fired ++ l.filter fun a => !fired a := by
  have h1 : (l.filter fun a => !fired a && fires a) = [] := List.filter_eq_nil_iff.mpr fun a ha => by simp [h a ha]
  have h2 : (l.filter fun a => !(fired a || fires a)) = l.filter fun a => !fired a := List.filter_congr fun a ha => by simp [h a ha]
  rw [fireIn, h1, h2]; simp

/-! ## Engine commands -/

theorem disjointPlaces_iff (l m : List Place) : disjointPlaces l m = true ↔ ∀ a ∈ l, ∀ b ∈ m, a.same b = false := by
  simp [disjointPlaces]

theorem disjointPlaces_nil (l : List Place) : disjointPlaces l [] = true := by simp [disjointPlaces]

@[simp] theorem Progress.did_done (p : Progress) (k : CopyKind) (part j : Nat) : (p.did k part j).done = setAdd p.done part := rfl

/-- A part that has been performed is done, and with it the command has begun. -/
theorem Progress.did_begun (p : Progress) (k : CopyKind) (part j : Nat) : (p.did k part j).begun = true := by
  have h : setAdd p.done part ≠ [] := by
    cases hp : p.done <;> simp [setAdd]
    split <;> [skip; split] <;> simp
  simpa [Progress.begun] using h

/-- A part may move only while it is still to be performed. -/
theorem State.mayMove_rest {s : State} {uid p : Nat} {c : CopyCmd} {r : Bool} (h : s.mayMove uid c p r = true) : p ∈ c.rest := by
  simp only [State.mayMove, Bool.and_eq_true, List.contains_iff_mem] at h
  exact h.1.1

/-! ## The reserve -/

/-- Keeping the reserve changes cores and the limits of the reserve, and nothing else (R100). -/
theorem State.keepReserve_eq (s : State) (st : Nat) : ∃ cs r, s.keepReserve st = { s with cores := cs, dist := { s.dist with reserve := r } } := by
  have fold : ∀ (g : Core → Core) (l : List Core) (t : State), ∃ cs, l.foldl (fun s c => s.setCore (g c)) t = { t with cores := cs } := by
    intro g l
    induction l with
    | nil => exact fun t => ⟨_, rfl⟩
    | cons c l ih => intro t; obtain ⟨cs, h⟩ := ih (t.setCore (g c)); exact ⟨cs, h⟩
  unfold State.keepReserve State.followReserve State.capReserve
  dsimp only
  split
  · obtain ⟨cs, h⟩ := fold (fun c => { c with join := true, leaving := false }) _ _; exact ⟨cs, _, h⟩
  · obtain ⟨cs, h⟩ := fold (fun c => if c.rsv then { c with join := true, leaving := true } else { c with join := false }) _ _; exact ⟨cs, _, h⟩

/-! ## Flits -/

@[simp] theorem State.mapColl_mem (s : State) (uid : Nat) (tag : CollTag) (f : CollCmd → CollCmd) : (s.mapColl uid tag f).mem = s.mem := by
  unfold State.mapColl
  dsimp only
  split
  · rfl
  · split
    · simp
    · split
      · simp
      · simp [State.takeFreeBool, State.mapNode]

@[simp] theorem State.originLeft_mem (s : State) (tag : CollTag) : (s.originLeft tag).mem = s.mem := by
  unfold State.originLeft
  split
  · rfl
  · exact List.foldlRecOn _ _ (motive := fun t => State.mem t = s.mem) rfl fun _ h _ _ => by simp [h]

@[simp] theorem State.packetLeft_mem (s : State) (p : CollPacket) : (s.packetLeft p).mem = s.mem := by
  unfold State.packetLeft; split <;> simp

/-- Flits that leave change no memory. -/
@[simp] theorem State.releaseFlits_mem (s : State) (port : Nat) : (s.releaseFlits port).mem = s.mem := by
  unfold State.releaseFlits
  dsimp only
  refine List.foldlRecOn _ _ (motive := fun t => State.mem t = s.mem) ?_ fun _ h _ _ => by simp [State.mapNode, h]
  exact List.foldlRecOn _ _ (motive := fun t => State.mem t = s.mem) (by simp) fun t h f _ => by cases f <;> simp [h]

@[simp] theorem State.creditPort_mem (s : State) (port chan : Nat) (has : Bool) : (s.creditPort port chan has).mem = s.mem := by
  unfold State.creditPort
  dsimp only
  split <;> simp

end Sys2Proof.Machine
end

