-- ==== Sys2Proof/Laws/Words.lean ====
section
/-! SUPPORT. What `word` can do, and the plain forms of the results that words give. -/

namespace Sys2Proof.Machine

/-- A word that has its own effect answers the next state of its body. -/
theorem word_runs {i : Instr} {s : State} (h : Runs i s) (body : State → State) : word i s body = .next (body s) := by
  obtain ⟨h1, h2, h3, h4⟩ := h
  simp [word, h1, h2, h3, h4]

/-- An ill-formed word takes the illegal-encoding trap. -/
theorem word_illFormed {i : Instr} {s : State} (h : i.wf = false) (body : State → State) : word i s body = .next (s.trapHere 1 0) := by
  simp [word, h]

/-- A word that names a register outside the partition takes the partition fault. -/
theorem word_partition {i : Instr} {s : State} (h : i.wf = true) (h' : partitionOk s.cur.ctl.part i.sig = false) (body : State → State) :
    word i s body = .next (s.trapHere 2 0) := by
  simp [word, h, h']

/-- A suppressed word changes nothing. -/
theorem word_suppressed {i : Instr} {s : State} (h1 : i.wf = true) (h2 : partitionOk s.cur.ctl.part i.sig = true) (h3 : suppressed s.cur i.sig = true)
    (body : State → State) : word i s body = .next s := by
  simp [word, h1, h2, h3]

/-- A word that the splice does not allow takes the splice fault. -/
theorem word_splice {i : Instr} {s : State} (h1 : i.wf = true) (h2 : partitionOk s.cur.ctl.part i.sig = true) (h3 : suppressed s.cur i.sig = false)
    (h4 : s.spliceFault i.sig = true) (body : State → State) : word i s body = .next (s.trapHere 6 0) := by
  simp [word, h1, h2, h3, h4]

/-- Everything that a word can do. -/
theorem word_cases (i : Instr) (s : State) (body : State → State) :
    (i.wf = false ∧ word i s body = .next (s.trapHere 1 0)) ∨
    (i.wf = true ∧ partitionOk s.cur.ctl.part i.sig = false ∧ word i s body = .next (s.trapHere 2 0)) ∨
    (i.wf = true ∧ partitionOk s.cur.ctl.part i.sig = true ∧ suppressed s.cur i.sig = true ∧ word i s body = .next s) ∨
    (i.wf = true ∧ partitionOk s.cur.ctl.part i.sig = true ∧ suppressed s.cur i.sig = false ∧ s.spliceFault i.sig = true ∧ word i s body = .next (s.trapHere 6 0)) ∨
    (Runs i s ∧ word i s body = .next (body s)) := by
  cases h1 : i.wf
  · exact .inl ⟨rfl, word_illFormed h1 body⟩
  · cases h2 : partitionOk s.cur.ctl.part i.sig
    · exact .inr (.inl ⟨rfl, rfl, word_partition h1 h2 body⟩)
    · cases h3 : suppressed s.cur i.sig
      · cases h4 : s.spliceFault i.sig
        · exact .inr (.inr (.inr (.inr ⟨⟨h1, h2, h3, h4⟩, word_runs ⟨h1, h2, h3, h4⟩ body⟩)))
        · exact .inr (.inr (.inr (.inl ⟨rfl, rfl, rfl, rfl, word_splice h1 h2 h3 h4 body⟩)))
      · exact .inr (.inr (.inl ⟨rfl, rfl, rfl, word_suppressed h1 h2 h3 body⟩))

/-- A word always answers a next state. -/
theorem word_next (i : Instr) (s : State) (body : State → State) : ∃ t, word i s body = .next t := by
  rcases word_cases i s body with h | h | h | h | h <;> exact ⟨_, by tauto⟩

/-! ## Results -/

theorem State.push_eq (s : State) (k : Nat) (e : Effect) : s.push k e = s.withResults [{ dist := k, eff := e }] := rfl

theorem State.pushS_eq (s : State) (k : Nat) (d : BitVec 5) (v : Word) : s.pushS k d v = s.withResults (scalarResult s k d v) := by
  unfold State.pushS scalarResult
  split <;> simp [State.push, State.mapCur, Node.push, State.withResults]

theorem State.pushP_eq (s : State) (k : Nat) (d : BitVec 3) (v : Bool) : s.pushP k d v = s.withResults (predResult k d v) := by
  unfold State.pushP predResult
  split <;> simp [State.push, State.mapCur, Node.push, State.withResults]

@[simp] theorem State.withResults_nil (s : State) : s.withResults [] = s := by simp [State.withResults]

theorem givesS_of_word {i : Instr} {s : State} {k : Nat} {d : BitVec 5} {v : Word} {f : State → State} (e : exec i s = word i s f) (h : Runs i s)
    (hf : f s = s.pushS k d v) : GivesS i s k d v := by
  rw [GivesS, e, word_runs h, hf, State.pushS_eq]

theorem givesP_of_word {i : Instr} {s : State} {d : BitVec 3} {v : Bool} {f : State → State} (e : exec i s = word i s f) (h : Runs i s)
    (hf : f s = s.pushP 1 d v) : GivesP i s d v := by
  rw [GivesP, e, word_runs h, hf, State.pushP_eq]

end Sys2Proof.Machine
end

