-- ==== Sys2Proof/Tests/Slice0.lean ====
section
/-! SUPPORT. Small tests: ill-formed words that are refused, words written out from the layouts of the spec, one step of instructions with results worked out by
hand from their entries, and for every statement with hypotheses states and operands that meet them. -/

open Sys2Proof Sys2Proof.Machine

namespace Sys2Proof.Tests

-- One theorem after another: the tests evaluate much, and side by side they need more memory than one run may take.
set_option Elab.async false

/-! ## States -/

/-- An image with a scratchpad tensor 0x100 of 4,096 bytes, the last 256 of them guarded (R248). -/
def image : Image := { probeImage with scr := [(0x100, 0, 4096)], budget := 1 }

/-- A node that runs on core 0, with the whole partition. -/
def node : Node := { desc := { uid := 1, image := image }, run := { st := .running }, regs := Regs.reset, ctl := { part := image.part }, eng := {} }

/-- A core with two slab halves that holds node 1. -/
def core : Core :=
  { idx := 0, state := .active, halves := [{ y := 0, x := 0, half := 0 }, { y := 0, x := 0, half := 1 }], slots := #v[1, 0, 0, 0], current := 1, lastSlot := 0 }

/-- A module past bring-up whose current node is `n`. -/
def base (n : Node) : State := { State.reset with cur := n, cores := [core], svc := { State.reset.svc with phase := 3 },
                                                     awl := { State.reset.awl with nextUid := 2 } }

def withS (n : Node) (l : List (Nat × Word)) : Node := { n with regs := { n.regs with s := l.foldl (fun v e => v.setIfInBounds e.1 e.2) n.regs.s } }
def withH (n : Node) (l : List (Nat × Handle)) : Node := { n with regs := { n.regs with h := l.foldl (fun v e => v.setIfInBounds e.1 e.2) n.regs.h } }
def withT (n : Node) (l : List (Nat × BitVec 32 × Nat)) : Node :=
  { n with regs := { n.regs with ts := l.foldl (fun v e => v.setIfInBounds e.1 e.2.1) n.regs.ts,
                                 tile := l.foldl (fun v e => v.setIfInBounds e.1 { bits := e.2.2 }) n.regs.tile } }

/-- The state after an instruction, where it answers one. -/
def after (i : Instr) (s : State) : Option State :=
  match exec i s with
  | .next t => some t
  | _ => none

/-- The results in flight after a word. -/
def flight (i : Instr) (n : Node) : List InFlight := ((after i (base n)).map fun t => t.cur.ctl.flight).getD []

/-- The trap that a word takes in front of its bundle. -/
def trapOf (i : Instr) (n : Node) : Option (BitVec 7 × Word) :=
  (after i (base { n with ctl := { n.ctl with trap := { n.ctl.trap with en := true } } })).map fun t => (t.cur.ctl.trap.cause, t.cur.ctl.trap.val)

/-- The first four elements of a tile result, with its latency and its SAT bit. -/
def tileOut (w : Nat) (i : Instr) (n : Node) : Option (Nat × List Nat × Bool) :=
  match flight i n with
  | [{ dist := d, eff := .tile _ _ bits _ sat _ }] => some (d, (List.range 4).map (tileBits bits w), sat)
  | _ => none

/-- A handle over tensor `tid`: plain format, rank 2, scale register k, extents and origins 0. -/
def handle (tid fmt k e0 e1 : Nat) : Handle :=
  BitVec.ofNat 256 (tid + fmt * 2 ^ 20 + 2 * 2 ^ 24 + k * 2 ^ 32 + (e0 - 1) * 2 ^ 64 + (e1 - 1) * 2 ^ 82)

/-- Scalars: s1 = 7, s2 = -2, s3 the greatest, s4 the least; s5 a byte address in tensor 0x100, s6 the same plus 1, s7 = 64. -/
def n1 : Node :=
  withS node [(1, 7), (2, BitVec.ofInt 64 (-2)), (3, BitVec.ofNat 64 (2 ^ 63 - 1)), (4, BitVec.ofNat 64 (2 ^ 63)), (5, tensorAddr 0x100 64), (6, tensorAddr 0x100 65), (7, 64)]

/-- Tiles of 4 bits: t1 = 7, -1, 3, -8, 0 ...; t2 = 1, 2, -3, -1, 0 ...; t3 = 0; t5 = 0, 1, 0, 2, 0 ...; of 8 bits t8 = 20, -20, 100, 5, 0 ...,
t9 = 0; of 16 bits t12 = 3, 1, 0 ... and t13 = 0; t14 of two rows of 4 bits. -/
def n2 : Node :=
  withT n1 [(1, 0, 0x83F7), (2, 0, 0xFD21), (5, 0, 0x2010), (8, 1, 0x0564EC14), (9, 1, 0), (12, 2, 0x10003), (13, 2, 0), (14, 0x80, 0x83F7 + 0xFD21 * 2 ^ 1024)]

/-- n2 with handles: h1 over bytes 0 to 255 of tensor 0x100, h2 over 16-bit elements (k2), h3 over 32-bit elements (k3), and words of window extents. -/
def n3 : Node :=
  let n := withH n2 [(1, handle 0x100 1 0 16 16), (2, handle 0x100 2 2 16 4), (3, handle 0x100 3 3 8 4)]
  { n with regs := { n.regs with k := (n.regs.k.setIfInBounds 2 0x02082000).setIfInBounds 3 0x03082000 } }

/-! ## Words that are refused -/

/-- One word for each check on encodings (R131, R132, R139, R141 and the entries' own rules). -/
def illFormed : List Instr :=
  [.add 3 0 1 2 3, .add 0 8 1 2 3, .sel 0 8 1 2 3, .vadd 0 0 1 2 4, .lih 0 1 0 (some 0x10000), .brAbs 0 0 0 (some 64), .callAbs 0 0 0 (some 64),
   .brc 0 0 6 1 0 none, .loopOpen 0 6 1 0 none, .loopClose 0 6 0 none, .loopr 0 6 0 0 none, .lbrk 0 0 7 0 none, .ldAcq 0 0 1 2 0 0, .stRel 0 0 1 2 0 13,
   .amoAdd 0 0 1 2 3 0 (some 64), .amoCas 0 0 1 2 3 0 (some 1), .ctlr 0 0 1 7, .ctlw 0 0 1 0x53, .fence 0 0 0 0 1, .fence 0 0 1 0 0, .enq 0 0 1 0,
   .tst 0 0 1 1 3, .vshl 0 3 1 2 3, .vshr 0 1 1 2 32, .vsar 0 3 1 2 3, .vshrn 0 3 1 2 3 none, .vrotl 0 1 1 2 32 none, .vredsum 0 3 1 2 0, .vredmax 0 3 1 2 0,
   .vredmin 0 3 1 2 0, .vabsmax 0 3 1 2, .vexp2 0 1 2 0 (some 32), .vlog2 0 1 2 0 (some 32), .vrcp 0 1 2 0 (some 32), .vrsq 0 1 2 0 (some 32),
   .vrmsn 0 1 2 3 (some 32), .vlnrm 0 1 2 4 none, .vgelu 0 1 2 0 (some 32), .voptSgdm 0 0 1 2 3 none, .voptLion 0 0 1 1 3 (some 0),
   .voptAdam 0 0 1 2 3 (some 0x400), .mma 0 1 2 3 (some 1024), .mmat 0 1 2 3 (some 1), .epi 0 1 1 0 0 3 0 none, .epiAdd 0 1 1 0 0 0 0 1 none,
   .epiSend 0 0 1 1 3 0 none, .horg 0 0 1 5 2, .horgImm 0 0 1 5 0 none, .hstep 0 0 1 5 2, .hstepImm 0 0 1 5 0 none, .kset 0 0 1 0 2, .shift 0 0 1 2 0,
   .shift 0 0 1 2 33, .cpy 0 0 1 2 0, .cpyk 0 0 1 2 0, .cpyf 0 0 1 0 2, .cpyb 0 0 1 2 0 3, .cpyq 0 0 1 2 0 3, .cpycan 0 0 0 0, .send 0 0 1 2 0 0,
   .sendt 0 0 1 2 15 0, .coll 0 0 1 2 15 0, .cwaitImm 0 0 1 0 (some (BitVec.ofNat 25 (2 ^ 24))), .barbImm 0 0 1 0 (some (BitVec.ofNat 25 (2 ^ 24))),
   .bar 0 0 0 0 0 0, .tokGiveImm 0 0 1 0 none, .tokTakeImm 0 0 1 1 0 none]

theorem test_ill_formed_words_are_refused : ∀ i ∈ illFormed, i.wf = false ∧ trapOf i n1 = some (1, 0) := by decide +kernel

/-- A node with 16 tiles and 2 accumulators takes the partition fault on the others (R59). -/
theorem test_partition_fault : ∀ i ∈ ([.vadd 0 0 63 1 2, .mzero 0 9, .tsh 0 0 40 1] : List Instr),
    trapOf i { n1 with ctl := { n1.ctl with part := 0x00080208#32 } } = some (2, 0) := by decide +kernel

/-- A false guard suppresses a word; so does Q = first or last in the second of three iterations (R131, R132). -/
theorem test_suppressed_words : flight (.add 0 1 9 1 1) n1 = [] ∧ flight (.add 0 9 9 1 1) n1 ≠ [] ∧
    (let n := { n1 with ctl := { n1.ctl with loops := n1.ctl.loops.setIfInBounds 0 { act := true, t := 3, i := 1 } } }
     flight (.add 1 0 9 1 1) n = [] ∧ flight (.add 2 0 9 1 1) n = [] ∧ flight (.add 0 0 9 1 1) n ≠ []) := by decide +kernel

/-! ## Words written out from the layouts -/

theorem test_decode_scalar : decodeWord 0x80000C22#32 = .ok (.add 0 0 3 1 2) ∧ decodeWord 0x00069422#32 = .ok (.mul 0 0 5 1 2) ∧
    decodeWord 0x220C6001#32 = .ok (.addi 1 12 12 1 none) := by decide +kernel
theorem test_decode_control : decodeWord 0x840B0505#32 = .ok (.loopOpen 0 0 5 5 none) ∧ decodeWord 0x840C2000#32 = .ok (.loopr 0 1 0 0 none) ∧
    decodeWord 0x04120000#32 = .ok .endNode := by decide +kernel
theorem test_decode_memory : decodeWord 0x06024883#32 = .ok (.ldW 0 0 9 2 3 none) ∧ decodeWord 0x06004983#32 = .ok (.ldB 0 0 9 6 3 none) := by decide +kernel
theorem test_decode_system : decodeWord 0x08000042#32 = .ok (.trap 0 0 0x42) ∧ decodeWord 0x08078052#32 = .ok (.ctlr 0 0 24 0x52) ∧
    decodeWord 0x08098051#32 = .ok (.ctlw 0 0 24 0x51) ∧ decodeWord 0x080BB000#32 = .ok (.fence 0 0 1 1 6) ∧ decodeWord 0x0810A000#32 = .ok (.enq 0 0 2 2) := by
  decide +kernel
theorem test_decode_vector : decodeWord 0x8A004087#32 = .ok (.vadd 0 0 4 2 7) ∧ decodeWord 0x0B0060C4#32 = .ok (.vcmpLt 0 6 3 4) ∧
    decodeWord 0x0B50C0C8#32 = .ok (.vgath 0 12 3 8) ∧ decodeWord 0x0CD04000#32 = .ok (.vbcast 0 4 0) ∧ decodeWord 0x8D308180#32 = .ok (.vpart 0 0 8 6) ∧
    decodeWord 0x0D34A180#32 = .ok (.vpart 0 1 10 6) ∧ decodeWord 0x8E9610A4#32 = .ok (.vlut3 0 0x96 2 5 4) := by decide +kernel
theorem test_decode_routine : decodeWord 0x1000604F#32 = .ok (.vexp2 0 6 1 15 none) ∧ decodeHead [0x90305080#32, 0x1A00000E#32] = .ok (.vrsq 0 5 2 0 (some 14), 2, false) ∧
    decodeHead [0x908040C6#32, 0x1A000009#32] = .ok (.voptSgdm 0 0 4 3 6 (some 9), 2, false) := by decide +kernel
theorem test_decode_matrix : decodeWord 0x12010000#32 = .ok (.mbeg 0 0 1) ∧ decodeWord 0x126010A0#32 = .ok (.mma 0 0 2 5 none) ∧
    decodeWord 0x12200000#32 = .ok (.mend 0 0) ∧ decodeWord 0x13040000#32 = .ok (.epiCk 0 1 0) := by decide +kernel
theorem test_decode_tensor_copy_and_link : decodeWord 0x1400400A#32 = .ok (.hset 0 0 2 0 10) ∧ decodeWord 0x16026240#32 = .ok (.cpyk 0 0 3 1 2) ∧
    decodeWord 0x161042A0#32 = .ok (.coll 0 0 2 1 5 0) := by decide +kernel
theorem test_decode_synchronisation : decodeWord 0x18061809#32 = .ok (.barb 0 0 3 9) ∧ decodeWord 0x180A6001#32 = .ok (.jcbRaiseImm 0 0 1 1 none) ∧
    decodeWord 0x1E000000#32 = .ok (.nop 0 0) ∧ decodeWord 0x1A00000E#32 = .ok (.extensionWord 14) := by decide +kernel
def refused (w : IWord) : Bool :=
  match decodeWord w with
  | .error _ => true
  | .ok _ => false

/-- Unassigned codes and a field that its layout fixes are refused (R130, R141). -/
theorem test_decode_refuses : ([0x1C000000#32, 0x00138000#32, 0x060F0000#32, 0x14180000#32, 0x04120001#32].map refused) = [true, true, true, true, true] := by decide +kernel

/-! ## Scalar words -/

/-- Results for s9 with their latencies (R147, R155 to R157), worked out by hand; DIV and REM truncate toward zero (the examples of R156). -/
theorem test_scalar_words : ∀ e ∈ ([(.add 0 0 9 1 2, 1, 5), (.sub 0 0 9 1 2, 1, 9), (.addS 0 0 9 3 1, 1, 2 ^ 63 - 1), (.subS 0 0 9 4 1, 1, -(2 ^ 63)), (.add 0 0 9 3 1, 1, -(2 ^ 63) + 6),
    (.and 0 0 9 1 2, 1, 6), (.or 0 0 9 1 2, 1, -1), (.xor 0 0 9 1 2, 1, -7), (.andn 0 0 9 1 2, 1, 1), (.shl 0 0 9 1 1, 1, 896), (.shl 0 0 9 1 7, 1, 0),
    (.shlS 0 0 9 1 7, 1, 2 ^ 63 - 1), (.shr 0 0 9 2 1, 1, 2 ^ 57 - 1), (.sar 0 0 9 4 7, 1, -1), (.sar 0 0 9 2 1, 1, -1), (.rot 0 0 9 2 1, 1, -129),
    (.mul 0 0 9 1 2, 3, -14), (.mulS 0 0 9 3 1, 3, 2 ^ 63 - 1), (.mulh 0 0 9 2 1, 3, -1), (.mulhw 0 0 9 2 1, 3, 6),
    (.div 0 0 9 2 1, 18, 0), (.div 0 0 9 1 2, 18, -3), (.rem 0 0 9 1 2, 18, 1), (.div 0 0 9 1 0, 18, -1), (.rem 0 0 9 1 0, 18, 7), (.divw 0 0 9 2 7, 18, 2 ^ 58 - 1),
    (.remw 0 0 9 2 7, 18, 62), (.min 0 0 9 1 2, 1, -2), (.max 0 0 9 1 2, 1, 7), (.minw 0 0 9 1 2, 1, 7), (.maxw 0 0 9 1 2, 1, -2),
    (.clz 0 0 9 1, 1, 61), (.clz 0 0 9 0, 1, 64), (.cls 0 0 9 2, 1, 62), (.popc 0 0 9 2, 1, 63), (.mov 0 0 9 1, 1, 7), (.sel 0 1 9 1 2, 1, -2), (.sel 0 0 9 1 2, 1, 7),
    (.addi 0 9 1 0x7FF none, 1, 6), (.li 0 9 0x8000 none, 1, -32768), (.li 0 9 0 (some 1), 1, 65536), (.lih 0 1 1 none, 1, 2 ^ 32 + 7)] : List (Instr × Nat × Int)),
    (flight e.1 n1).map (fun f => (f.dist, f.eff)) = [(e.2.1, .s false (match e.1 with | .lih .. => 1 | _ => 9) (BitVec.ofInt 64 e.2.2))] := by decide +kernel

/-- BFX takes 8 bits from position 4, BFI puts them there (R157): sB = 0x804. -/
theorem test_bit_fields : let n := withS n1 [(8, 0x804), (9, 0xABCD)]
    flight (.bfx 0 0 10 9 8) n = [{ dist := 1, eff := .s false 10 0xBC }] ∧ flight (.bfi 0 0 9 1 8) n = [{ dist := 1, eff := .s false 9 0xA07D }] := by decide +kernel

/-- The quotients that the rule on division writes out (R156): (2^64 - 7) / 2 without sign, and the one quotient out of range. -/
theorem test_division_corners : flight (.div 0 0 9 4 10) (withS n1 [(10, BitVec.ofInt 64 (-1))]) = [{ dist := 18, eff := .s false 9 (BitVec.ofInt 64 (-(2 ^ 63))) }] ∧
    flight (.rem 0 0 9 4 10) (withS n1 [(10, BitVec.ofInt 64 (-1))]) = [{ dist := 18, eff := .s false 9 0 }] ∧
    flight (.divw 0 0 9 10 11) (withS n1 [(10, BitVec.ofInt 64 (-7)), (11, 2)]) = [{ dist := 18, eff := .s false 9 0x7FFFFFFFFFFFFFFC }] ∧
    flight (.divw 0 0 9 1 0) n1 = [{ dist := 18, eff := .s false 9 (BitVec.ofInt 64 (-1)) }] ∧ flight (.remw 0 0 9 1 0) n1 = [{ dist := 18, eff := .s false 9 7 }] := by decide +kernel

/-- Comparisons and predicates (R158, R161): s1 = 7, s2 = -2; p0 is true and p1 false. -/
theorem test_predicate_words : ∀ e ∈ ([(.cmpEq 0 0 3 1 1, true), (.cmpNe 0 0 3 1 1, false), (.cmpLt 0 0 3 2 1, true), (.cmpGe 0 0 3 2 1, false), (.cmpLtw 0 0 3 2 1, false),
    (.cmpGew 0 0 3 2 1, true), (.cmpiEq 0 3 1 7 none, true), (.cmpiNe 0 3 1 7 none, false), (.cmpiLt 0 3 2 0x7FF none, true), (.cmpiGe 0 3 2 0x7FF none, false),
    (.cmpiLtw 0 3 1 8 none, true), (.cmpiGew 0 3 1 8 none, false), (.movp 0 0 0 3 0 0 0 1, false), (.movp 0 0 1 3 0 0 0 1, true), (.movp 0 0 0 3 0 0 1 1, true)] : List (Instr × Bool)),
    flight e.1 n1 = [{ dist := 1, eff := .p 3 e.2 }] := by decide +kernel

/-- s0 and p0 take no result (R153). -/
theorem test_hard_wired_registers : flight (.add 0 0 0 1 2) n1 = [] ∧ flight (.cmpEq 0 0 0 1 1) n1 = [] ∧ (withS node [(0, 5)]).s 0 = 0 := by decide +kernel

/-! ## Control -/

/-- What the end of the bundle does after a word at address 24 with its bundle's end at 28. -/
def ends (i : Instr) (n : Node) : List Post :=
  ((after i { base n with bnd := { fa := 24, na := 28, addr := 24 } }).map fun t => t.bnd.post).getD []

/-- Transfers (R162 to R165): relative ones in packets of 12 bytes, absolute ones in bytes. -/
theorem test_transfers : ends (.brRel 0 0 2 none) n1 = [.jump 48 false] ∧ ends (.brRel 0 0 0xFFFE none) n1 = [.jump 0 false] ∧ ends (.brAbs 0 0 36 none) n1 = [.jump 36 false] ∧
    ends (.callRel 0 0 1 none) n1 = [.jump 36 false] ∧ flight (.callAbs 0 0 36 none) n1 = [{ dist := 1, eff := .s false 30 0 }] ∧ ends (.ret 0 0 9) (withS n1 [(9, 60)]) = [.jump 60 false] ∧
    ends (.brc 0 0 2 2 1 none) n1 = [.jump 36 false] ∧ ends (.brc 0 0 4 2 1 none) n1 = [] ∧ ends (.brc 0 0 0 0 1 none) n1 = [.jump 36 false] ∧
    ends (.brf 0 0 0 0 0 1 none) n1 = [.jump 36 false] ∧ ends (.brf 0 0 1 0 0 1 none) n1 = [] ∧ ends (.brRel 0 0 0x8000 none) n1 = [.jump (BitVec.ofInt 22 (24 - 12 * 32768)) true] := by
  decide +kernel

/-- A target off its packet takes the target alignment fault (R134). -/
theorem test_target_alignment : trapOf (.ret 0 0 9) (withS n1 [(9, 61)]) = some (0x0C, 61) ∧ trapOf (.brAbs 0 0 37 none) n1 = some (0x0C, 37) ∧
    trapOf (.ret 0 0 9) (withS n1 [(9, 0x400000)]) = some (0x0C, 0x400000) := by decide +kernel

def looping (n : Node) (k : Nat) (t i : Nat) : Node := { n with ctl := { n.ctl with loops := n.ctl.loops.setIfInBounds k { act := true, t := t, i := i } } }

/-- LOOP open, LOOP close, LOOPR and LBRK (R171 to R173). -/
theorem test_loops : ends (.loopOpen 0 2 1 3 none) n1 = [.loop 2 { act := true, t := 7, i := 0 }] ∧ ends (.loopOpen 0 2 2 3 none) n1 = [.jump 60 false] ∧
    ends (.loopClose 0 2 0x7FF none) (looping n1 2 3 1) = [.loop 2 { act := true, t := 3, i := 2 }, .jump 12 false] ∧
    ends (.loopClose 0 2 0x7FF none) (looping n1 2 3 2) = [.loop 2 {}] ∧ ends (.loopr 0 2 1 0x7FF none) (looping n1 2 3 2) = [.rotate 4, .loop 2 {}] ∧
    ends (.lbrk 0 0 2 4 none) (looping (looping n1 2 3 1) 4 3 1) = [.loop 4 {}, .loop 2 {}, .jump 72 false] := by decide +kernel
theorem test_loop_faults : trapOf (.loopOpen 0 2 1 3 none) (looping n1 2 3 1) = some (9, 0) ∧ trapOf (.loopOpen 0 2 3 3 none) n1 = some (9, 0) ∧
    trapOf (.loopClose 0 2 0 none) n1 = some (9, 0) ∧ trapOf (.loopr 0 2 0 0 none) (looping (looping n1 2 3 1) 3 3 1) = some (9, 0) ∧
    trapOf (.lbrk 0 0 2 4 none) n1 = some (9, 0) := by decide +kernel

/-- A stride of 5 on dimension 1 of h1, latched by a level, moves its origin at the close, and back by T - 1 strides where the level is left (R168, R172). -/
theorem test_stride : let l : Loop := { act := true, t := 3, i := 1, lat0 := BitVec.ofNat 64 (2 ^ 31 + 1 * 2 ^ 27 + 1 * 2 ^ 24 + 5) }
    let n := { n3 with ctl := { n3.ctl with loops := n3.ctl.loops.setIfInBounds 2 l } }
    let m := { n3 with ctl := { n3.ctl with loops := n3.ctl.loops.setIfInBounds 2 { l with i := 2 } } }
    flight (.loopClose 0 2 0x7FF none) n = [{ dist := 1, eff := .org 1 1 5 }] ∧ flight (.loopClose 0 2 0x7FF none) m = [{ dist := 1, eff := .org 1 1 (-10) }] := by decide +kernel

/-- SEGX outside an overlay image, N and the E word change nothing; END ends the node's stream (R133, R137, R177, R179). -/
theorem test_end_and_empty_words : ends .endNode n1 = [.ended] ∧ ends (.nop 0 0) n1 = [] ∧ ends (.segx 0 0 1) n1 = [] ∧ ends (.extensionWord 5) n1 = [] ∧
    (n1.post 0 .ended).run.st = .retiring := by decide +kernel

/-! ## Scalar memory, atomics, handles, scale registers and shapes -/

/-- n3 with bytes 0x85, 0xFF, 1, 2, 5, 6, 7, 8 at offset 64 of its scratchpad. -/
def n4 : Node := { n3 with run := { n3.run with scr := { cells := [(64, 0x85), (65, 0xFF), (66, 1), (67, 2), (68, 5), (69, 6), (70, 7), (71, 8)] } } }

/-- Loads: width, extension and latency (R268 to R270). -/
theorem test_loads : ∀ e ∈ ([(.ldB 0 0 9 5 0 none, -123), (.ldH 0 0 9 5 0 none, -123), (.ldW 0 0 9 5 0 none, 0x0201FF85), (.ldD 0 0 9 5 0 none, 0x080706050201FF85),
    (.ldW8 0 0 9 5 0 none, 0x85), (.ldW16 0 0 9 5 0 none, 0xFF85), (.ldW32 0 0 9 5 0 none, 0x0201FF85), (.ldW 0 0 9 5 1 none, 0x08070605), (.ldAcq 0 0 9 5 2 1, 0x0201FF85)] : List (Instr × Int)),
    flight e.1 n4 = [{ dist := 6, eff := .s false 9 (BitVec.ofInt 64 e.2) }] := by decide +kernel

/-- LDH and HLD read 32 bytes; their low 8 bytes are those of the scratchpad (R209, R268). -/
theorem test_handle_loads : (flight (.ldh 0 0 4 5 0 none) n4 = [{ dist := 6, eff := .h 4 0x080706050201FF85 }]) ∧
    (flight (.hld 0 0 4 0 5) n4 = [{ dist := 6, eff := .h 4 0x080706050201FF85 }]) := by decide +kernel

/-- A misaligned access traps before bundle b + 6, and HLD at once (R209, R268, R269). -/
theorem test_misaligned : flight (.ldW 0 0 9 6 0 none) n4 = [{ dist := 6, eff := .trap 0x10 0 0 (tensorAddr 0x100 65) }] ∧
    flight (.stH 0 0 9 6 0 none) n4 = [{ dist := 6, eff := .trap 0x10 0 0 (tensorAddr 0x100 65) }] ∧
    flight (.amoAdd 0 0 9 6 1 0 none) n4 = [{ dist := 6, eff := .trap 0x10 0 0 (tensorAddr 0x100 65) }] ∧ trapOf (.hld 0 0 4 0 6) n4 = some (0x10, tensorAddr 0x100 65) ∧
    trapOf (.hst 0 0 4 0 6) n4 = some (0x10, tensorAddr 0x100 65) := by decide +kernel

/-- The bytes at offsets 64 to 71 after a word. -/
def bytesAfter (i : Instr) (n : Node) : List Byte := ((after i (base n)).map fun t => (List.range 8).map fun k => memGet t.cur.run.scr.cells (64 + k)).getD []

/-- Stores write the low bytes of their register and no other byte (R268). -/
theorem test_stores : bytesAfter (.stB 0 0 2 5 0 none) n4 = [0xFE, 0xFF, 1, 2, 5, 6, 7, 8] ∧ bytesAfter (.stH 0 0 1 5 0 none) n4 = [7, 0, 1, 2, 5, 6, 7, 8] ∧
    bytesAfter (.stW 0 0 1 5 0 none) n4 = [7, 0, 0, 0, 5, 6, 7, 8] ∧ bytesAfter (.stD 0 0 1 5 0 none) n4 = [7, 0, 0, 0, 0, 0, 0, 0] ∧
    bytesAfter (.stW 0 0 2 5 1 none) n4 = [0x85, 0xFF, 1, 2, 0xFE, 0xFF, 0xFF, 0xFF] ∧ bytesAfter (.stRel 0 0 1 5 1 1) n4 = [7, 0, 1, 2, 5, 6, 7, 8] ∧
    bytesAfter (.sth 0 0 4 5 0 none) (withH n4 [(4, 0x0807060504030201)]) = [1, 2, 3, 4, 5, 6, 7, 8] ∧
    bytesAfter (.hst 0 0 4 0 5) (withH n4 [(4, 0x0807060504030201)]) = [1, 2, 3, 4, 5, 6, 7, 8] := by decide +kernel

/-- Atomics of 4 bytes: the old value goes to s9, the new one to the location (R271); s1 = 7, s2 = -2, s8 = 0x0201FF85. -/
theorem test_atomics : ∀ e ∈ ([(.amoAdd 0 0 9 5 1 0 none, [0x8C, 0xFF, 1, 2]), (.amoAdds 0 0 9 5 1 0 none, [0x8C, 0xFF, 1, 2]), (.amoMin 0 0 9 5 2 0 none, [0xFE, 0xFF, 0xFF, 0xFF]),
    (.amoMax 0 0 9 5 2 0 none, [0x85, 0xFF, 1, 2]), (.amoAnd 0 0 9 5 1 0 none, [5, 0, 0, 0]), (.amoOr 0 0 9 5 1 0 none, [0x87, 0xFF, 1, 2]), (.amoXor 0 0 9 5 1 0 none, [0x82, 0xFF, 1, 2]),
    (.amoSwap 0 0 9 5 1 0 none, [7, 0, 0, 0]), (.amoCas 0 0 9 5 1 0 none, [7, 0, 0, 0]), (.amoIncw 0 0 9 5 1 0 none, [0, 0, 0, 0])] : List (Instr × List Byte)),
    flight e.1 (withS n4 [(9, 0x0201FF85)]) = [{ dist := 6, eff := .s false 9 0x0201FF85 }] ∧ (bytesAfter e.1 (withS n4 [(9, 0x0201FF85)])).take 4 = e.2 := by decide +kernel

/-- A compare-and-swap whose comparison fails writes nothing (R271). -/
theorem test_cas_fails : (bytesAfter (.amoCas 0 0 9 5 1 0 none) n4).take 4 = [0x85, 0xFF, 1, 2] := by decide +kernel

/-- A handle's origin field of dimension 1 lies in bits 189 to 172, quarter 1 in bits 127 to 64 (R51, R207, R208). -/
theorem test_handle_words : flight (.horg 0 0 4 1 1) n3 = [{ dist := 1, eff := .h 4 (BitVec.ofNat 256 (7 * 2 ^ 172)) }] ∧
    flight (.horgImm 0 0 4 0 9 none) n3 = [{ dist := 1, eff := .h 4 (BitVec.ofNat 256 (9 * 2 ^ 154)) }] ∧
    flight (.hstep 0 0 4 1 2) n3 = [{ dist := 1, eff := .h 4 (BitVec.ofNat 256 ((2 ^ 18 - 2) * 2 ^ 172)) }] ∧
    flight (.hstepImm 0 0 4 0 0x1FF none) n3 = [{ dist := 1, eff := .h 4 (BitVec.ofNat 256 ((2 ^ 18 - 1) * 2 ^ 154)) }] ∧
    flight (.hset 0 0 4 1 1) n3 = [{ dist := 1, eff := .h 4 (BitVec.ofNat 256 (7 * 2 ^ 64)) }] := by decide +kernel

/-- Scale registers (R37, R210 to R213): k0 after reset has FMT 1, CEN.PREV and CEN.CUR 32 and CEN.V 0. -/
theorem test_scale_words : flight (.kget 0 0 9 0 0) n3 = [{ dist := 1, eff := .s false 9 0x01082000 }] ∧ flight (.kget 0 0 9 0 1) n3 = [{ dist := 1, eff := .s false 9 0 }] ∧
    flight (.cenGet 0 0 9 0 0) n3 = [{ dist := 1, eff := .s false 9 32 }] ∧ flight (.cenGet 0 0 9 0 1) n3 = [{ dist := 1, eff := .s false 9 32 }] ∧
    flight (.shift 0 0 9 0 8) n3 = [{ dist := 1, eff := .s false 9 0 }] ∧ flight (.kset 0 0 0 1 1) n3 = [{ dist := 1, eff := .k 0 0xFF 7 }] ∧
    ends (.cenClose 0 0 0) n3 = [.close 0] := by decide +kernel

/-- A shape is read from a scalar and back; TSHR replaces the row count (R216 to R218). -/
theorem test_shape_words : flight (.tsh 0 0 20 9) (withS n3 [(9, 0x8082)]) = [{ dist := 1, eff := .ts 20 0x8082 }] ∧ flight (.tshRead 0 0 12 9) n3 = [{ dist := 1, eff := .s false 9 2 }] ∧
    flight (.tshr 0 0 20 12 1) n3 = [{ dist := 1, eff := .ts 20 0x302 }] ∧ flight (.tshr 0 0 20 12 0) n3 = [{ dist := 1, eff := .ts 20 2 }] ∧
    trapOf (.tshr 0 0 20 12 2) n3 = some (3, 0) ∧ trapOf (.tsh 0 0 20 9) (withS n3 [(9, 0x1FFFF83)]) = some (3, 0) := by decide +kernel

/-! ## System words, counters, waits and requests -/

/-- TRAP, BRK and CMPT record the address of the next bundle and their code (R321, R322, R347). -/
theorem test_trap_words : trapOf (.trap 0 0 0x42) n1 = some (0x1A, 0x42) ∧ trapOf (.brk 0 0 0x42) n1 = some (0x1B, 0x42) ∧ trapOf (.cmpt 0 0 1 2) n1 = some (0x18, 0) ∧
    flight (.cmpt 0 0 1 1) n1 = [] ∧ trapOf (.tret 0) n1 = some (0x0B, 0) ∧ trapOf (.uiret 0) n1 = some (0x0B, 0) := by decide +kernel

/-- A trap with VBASE 0x600 enters at vector 5, and TRET goes back to RA (the listing of ch. 17: TRAP 0x42 at 0x304). -/
theorem test_trap_entry_and_return :
    let n : Node := { n1 with ctl := { n1.ctl with pc := 0x304, trap := { en := true, vbase := 0x600 } } }
    let t := (after (.trap 0 0 0x42) { base n with bnd := { fa := 0x304, na := 0x308, addr := 0x304 } }).getD (base n)
    t.cur.ctl.pc = 0x63C ∧ t.cur.ctl.trap.act = true ∧ t.cur.ctl.bank = true ∧ t.ctlRead 0x51 = 0xC1000304 ∧ t.ctlRead 0x52 = 0xC2000042 ∧
    (let u := (after (.tret 0) (base t.cur)).getD (base n)
     u.cur.ctl.trap.act = false ∧ u.cur.ctl.bank = false ∧ u.bnd.post = [.jump 0x304 false]) := by decide +kernel

theorem test_user_return : let n : Node := { n1 with ctl := { n1.ctl with bank := true, ui := { act := true, ra := 0x120 } } }
    let u := (after (.uiret 0) (base n)).getD (base n)
    u.cur.ctl.ui.act = false ∧ u.cur.ctl.bank = false ∧ u.bnd.post = [.jump 0x120 false] := by decide +kernel

/-- Control registers (R317 to R319). -/
theorem test_control_registers : flight (.ctlr 0 0 9 2) n1 = [{ dist := 2, eff := .s false 9 0x00080820 }] ∧ flight (.ctlr 0 0 9 0x105) n1 = [{ dist := 2, eff := .s false 9 0 }] ∧
    ends (.ctlw 0 0 1 8) n1 = [.ctlw 8 7] ∧ (n1.post 0 (.ctlw 8 7)).ctl.seed = 7 ∧ (n1.post 0 (.ctlw 0x0A 7)).ctl.rtb = 6 := by decide +kernel

/-- Counters and waits (R304 to R307, R325). -/
theorem test_counters_and_waits : flight (.cset 0 0 3 1) n1 = [{ dist := 1, eff := .c 3 7 }] ∧ flight (.csetImm 0 0 3 5 none) n1 = [{ dist := 1, eff := .c 3 5 }] ∧
    flight (.cadd 0 0 3 2) n1 = [{ dist := 1, eff := .cAdd 3 0xFFFFFFFE }] ∧ flight (.caddImm 0 0 3 0x3FF none) n1 = [{ dist := 1, eff := .cAdd 3 0xFFFFFFFF }] ∧
    ends (.cwait 0 0 3 1) n1 = [.wait (.cwait 3 7)] ∧ ends (.cwaitImm 0 0 3 5 none) n1 = [.wait (.cwait 3 5)] ∧ ends (.barb 0 0 3 1) n1 = [.wait (.barb 3 7)] ∧
    ends (.barbImm 0 0 3 5 none) n1 = [.wait (.barb 3 5)] ∧ ends (.bar 0 0 1 0 0 1) n1 = [.wait (.bar 9)] ∧ ends (.idle 0) n1 = [.wait .idle] ∧
    ends (.fence 0 0 1 0 6) n1 = [] ∧ ends (.yield 0 0) n1 = [.switch] := by decide +kernel

/-- Counter 3 at 7: BARB subtracts its target when it is met, and a wait above it holds (R305, R306). -/
theorem test_waits_at_the_end_of_a_bundle : let n : Node := { n1 with regs := { n1.regs with c := n1.regs.c.setIfInBounds 3 7 } }
    let w := fun (l : List Wait) => (l.foldl (fun (n : Node) x => n.post 0 (.wait x)) n).settleWaits
    (w [.barb 3 5]).regs.c[3] = 2 ∧ (w [.barb 3 5]).ctl.waits = [] ∧ (w [.barb 3 5]).ctl.mustIssue = true ∧ (w [.cwait 3 7]).ctl.waits = [] ∧
    (w [.cwait 3 8]).ctl.waits = [.cwait 3 8] ∧ (w [.bar 15]).ctl.waits = [] ∧ (w [.cwait 3 8, .bar 15, .barb 3 5]).ctl.waits = [.cwait 3 8] ∧
    (w [.barb 3 5, .cwait 3 7]).regs.c[3] = 2 ∧ (w [.barb 3 5, .cwait 3 7]).ctl.waits = [] := by decide +kernel

def withJcb (n : Node) : Node := { n with desc := { n.desc with jcb := some 5 } }

/-- Requests (R309 to R316). -/
theorem test_requests : flight (.enq 0 0 3 1) n1 = [{ dist := 2, eff := .p 3 true }] ∧ ((after (.enq 0 0 3 1) (base n1)).map fun t => (t.core 0).outbox.length) = some 1 ∧
    ((after (.tokGive 0 0 4 1) (base n1)).map fun t => (t.core 0).outbox.map fun e => pk e.2 0x12 2) = some [7] ∧
    ((after (.tokGiveImm 0 0 4 9 none) (base n1)).map fun t => (t.core 0).outbox.map fun e => pk e.2 0x12 2) = some [9] ∧
    flight (.tokTake 0 0 3 4 1) n1 = [{ dist := 2, eff := .pAnswer 1 3 none }] ∧ flight (.tokTakeImm 0 0 3 4 9 none) n1 = [{ dist := 2, eff := .pAnswer 1 3 none }] ∧
    flight (.jcbRaise 0 0 3 1) n1 = [{ dist := 6, eff := .p 3 false }] ∧ flight (.jcbRaise 0 0 3 1) (withJcb n1) = [{ dist := 6, eff := .pAnswer 1 3 none }] ∧
    flight (.jcbRaiseImm 0 0 3 0 none) (withJcb n1) = [{ dist := 6, eff := .p 3 true }] ∧ ((after (.jcbDone 0 0) (base (withJcb n1))).map fun t => t.cur.run.doneIssued) = some true ∧
    flight (.genr 0 0 9) { n1 with run := { n1.run with qgen := 3, asgen := 4 } } = [{ dist := 2, eff := .s false 9 0x30004 }] := by decide +kernel

/-! ## Tile words -/

/-- Element by element on t1 = 7, -1, 3, -8 and t2 = 1, 2, -3, -1 of 4 bits (R186, R187, R198, R199): the first four elements of t3, and its SAT bit. -/
theorem test_vector_arithmetic : ∀ e ∈ ([(.vadd 0 0 3 1 2, 4, [8, 1, 0, 7], false), (.vsub 0 0 3 1 2, 4, [6, 13, 6, 9], false), (.vadds 0 0 3 1 2, 4, [7, 1, 0, 8], true),
    (.vsubs 0 0 3 1 2, 4, [6, 13, 6, 9], false), (.vadds 0 1 3 1 2, 4, [8, 15, 15, 15], true), (.vmul 0 0 0 3 1 2, 6, [7, 14, 7, 8], false), (.vmul 0 1 0 3 1 2, 6, [7, 14, 8, 7], true),
    (.vmulh 0 0 3 1 2, 6, [0, 15, 15, 0], false), (.vmac 0 0 0 1 1 2, 6, [14, 13, 10, 0], false), (.vmin 0 0 3 1 2, 4, [1, 15, 13, 8], false),
    (.vmax 0 0 3 1 2, 4, [7, 2, 3, 15], false), (.vmax 0 1 3 1 2, 4, [7, 15, 13, 15], false)] : List (Instr × Nat × List Nat × Bool)),
    tileOut 4 e.1 n2 = some e.2 := by decide +kernel
theorem test_vector_logic : ∀ e ∈ ([(.vand 0 3 1 2, [1, 2, 1, 8]), (.vor 0 3 1 2, [7, 15, 15, 15]), (.vxor 0 3 1 2, [6, 13, 14, 7]), (.vandn 0 3 1 2, [6, 13, 2, 0]),
    (.vsel 0 3 1 2, [7, 15, 3, 8]), (.vcmpEq 0 3 1 2, [0, 0, 0, 0]), (.vcmpNe 0 3 1 2, [15, 15, 15, 15]), (.vcmpLt 0 3 1 2, [0, 15, 0, 15]), (.vcmpGe 0 3 1 2, [15, 0, 15, 0]),
    (.vcmpLtw 0 3 1 2, [0, 0, 15, 15]), (.vcmpGew 0 3 1 2, [15, 15, 0, 0]), (.vlut3 0 0x96 3 1 1, [6, 13, 14, 7]), (.vfsl 0 3 1 2 1, [14, 14, 7, 1]),
    (.vfsr 0 3 1 2 1, [11, 7, 9, 12])] : List (Instr × List Nat)),
    tileOut 4 e.1 n2 = some (4, e.2, false) := by decide +kernel
/-- Shifts by an immediate, the words of one source, broadcasts and moves within a row (R189, R191 to R194). -/
theorem test_vector_shifts_and_unary : ∀ e ∈ ([(.vshl 0 0 3 1 1, 4, [14, 14, 6, 0], false), (.vshr 0 0 3 1 1, 4, [3, 7, 1, 4], false), (.vsar 0 0 3 1 1, 4, [3, 15, 1, 12], false),
    (.vshl 0 1 3 1 1, 4, [0, 0, 0, 0], false), (.vshl 0 2 3 1 2, 4, [14, 12, 0, 0], false), (.vabs 0 0 3 1, 4, [7, 1, 3, 8], false), (.vabs 0 1 3 1, 4, [7, 1, 3, 7], true),
    (.vneg 0 0 3 1, 4, [9, 1, 13, 8], false), (.vneg 0 1 3 1, 4, [9, 1, 13, 7], true), (.vclz 0 3 1, 4, [1, 0, 2, 0], false), (.vcls 0 3 1, 4, [0, 3, 1, 0], false),
    (.vpopc 0 3 1, 4, [3, 4, 2, 1], false), (.vmov 0 3 1, 4, [7, 15, 3, 8], false), (.vrotl 0 0 3 1 1 none, 4, [15, 3, 8, 0], false), (.vbcast 0 3 2, 4, [14, 14, 14, 14], false),
    (.vbcastRow 0 3 1, 4, [7, 7, 7, 7], false), (.vbcastCol 0 3 1, 4, [7, 15, 3, 8], false), (.vperm 0 3 1 2, 6, [15, 3, 0, 0], false), (.vgath 0 3 1 2, 16, [15, 3, 0, 0], false),
    (.vscat 0 3 1 2, 16, [0, 7, 15, 0], false)] : List (Instr × Nat × List Nat × Bool)),
    tileOut 4 e.1 n2 = some e.2 := by decide +kernel
/-- Words that change the width: t8 = 20, -20, 100, 5 of 8 bits (R190, R191, R193). -/
theorem test_vector_widths : tileOut 4 (.vshrn 0 0 3 8 2 none) n2 = some (5, [5, 11, 7, 1], true) ∧ tileOut 8 (.vcvt 0 0 9 1 1) n2 = some (5, [14, 254, 6, 240], false) ∧
    tileOut 4 (.vpack 0 0 14 8 9) n2 = some (5, [7, 8, 7, 5], true) ∧ tileOut 4 (.vpack 0 1 14 8 9) n2 = some (5, [4, 12, 4, 5], false) ∧
    tileOut 8 (.vunpk 0 0 9 14 0) n2 = some (5, [7, 255, 3, 248], false) ∧ tileOut 8 (.vunpk 0 1 9 14 1) n2 = some (5, [1, 2, 13, 15], false) := by decide +kernel
/-- Reductions of the row (R196), its prefix sums (R197) and its partition (R195): t5 = 0, 1, 0, 2. -/
theorem test_vector_reductions : ∀ e ∈ ([(.vredsum 0 0 3 1 0, [1, 0, 0, 0], false), (.vredmax 0 0 3 1 0, [7, 0, 0, 0], false), (.vredmin 0 0 3 1 0, [8, 0, 0, 0], false),
    (.vabsmax 0 0 3 1, [7, 0, 0, 0], true), (.vscan 0 1 3 1 0 0, [0, 7, 6, 9], false)] : List (Instr × List Nat × Bool)),
    tileOut 4 e.1 n2 = some (12, e.2) := by decide +kernel
theorem test_vector_partition : [tileOut 16 (.vpart 0 0 13 5) n2, tileOut 16 (.vpart 0 1 13 5) n2] = [some (10, [1, 3, 0, 2], false), some (10, [2, 0, 0, 0], false)] := by
  decide +kernel
/-- VCMPT traps at the first element that differs; shapes that do not fit take the tile shape fault (R183, R200). -/
theorem test_vector_compare_and_shape_faults : flight (.vcmpt 0 1 1) n2 = [] ∧ flight (.vcmpt 0 1 2) n2 = [{ dist := 4, eff := .trap 0x19 0 0 0 }] ∧
    trapOf (.vadd 0 0 3 1 8) n2 = some (3, 0) ∧ trapOf (.vmov 0 9 1) n2 = some (3, 0) ∧ trapOf (.vcmpt 0 1 8) n2 = some (3, 0) ∧ trapOf (.vpart 0 1 9 5) n2 = some (3, 0) ∧
    trapOf (.vexp2 0 3 1 0 none) n2 = some (3, 0) := by decide +kernel
/-- VGATH beyond the tile's elements reads 0, and a poisoned source poisons its element alone (R184, R194). -/
theorem test_vector_poison : let n := { n2 with regs := { n2.regs with tile := n2.regs.tile.setIfInBounds 1 { bits := 0x83F7, poison := 0xF0 } } }
    (flight (.vneg 0 0 3 1) n).map (fun f => match f.eff with | .tile _ _ _ p _ _ => p | _ => 0) = [0xF0] ∧
    (flight (.vrotl 0 0 3 1 1 none) n).map (fun f => match f.eff with | .tile _ _ _ p _ _ => p | _ => 0) = [0xF] := by decide +kernel

/-! ## Routines, optimizers, matrix words -/

/-- Values of the routines' own entries (R241): 2^x of -32256 and 0 in 15 fraction bits, 1/sqrt of 3, 1 and 0 in 14. -/
theorem test_routine_elements : vexp2El 15 15 16 (-32256) = (16564, false) ∧ vexp2El 15 15 16 0 = (32767, true) ∧ (vrsqEl 0 14 16 3).1 = 9459 ∧ vrsqEl 0 14 16 1 = (16384, false) ∧
    vrsqEl 0 14 16 0 = (32767, true) := by decide +kernel

/-- Routines on t12 = 3, 1, 0, 0 of 16 bits: log2 of 1 is 0 and that of 0 clamps, 1/1 is 16,384 in 14 fraction bits, GELU of 0 is 0 (R241). -/
theorem test_routine_words : tileOut 16 (.vrsq 0 13 12 0 (some 14)) n2 = some (14, [9459, 16384, 32767, 32767], true) ∧
    (tileOut 16 (.vlog2 0 13 12 0 (some 8)) n2).map (fun e => (e.1, e.2.1.drop 1)) = some (14, [0, 32768, 32768]) ∧
    (tileOut 16 (.vrcp 0 13 12 0 (some 14)) n2).map (fun e => (e.1, e.2.1.drop 1)) = some (14, [16384, 32767, 32767]) ∧
    (tileOut 16 (.vgelu 0 13 12 4 none) n2).map (fun e => (e.1, e.2.1.drop 2)) = some (14, [0, 0]) ∧ (tileOut 16 (.vexp2 0 13 12 15 none) n2).isSome = true := by decide +kernel

/-- Rows (R242, R243): a row of equal values has equal shares, and a gain of 0 gives 0. -/
theorem test_row_routines : (tileOut 16 (.vsmax 0 12 13 0) n2).map (fun e => (e.1, e.2.1)) = some (28, [128, 128, 128, 128]) ∧
    (tileOut 16 (.vrmsn 0 13 12 13 none) n2).map (fun e => (e.1, e.2.1)) = some (28, [0, 0, 0, 0]) ∧
    (tileOut 16 (.vlnrm 0 13 12 13 none) n2).map (fun e => (e.1, e.2.1)) = some (28, [0, 0, 0, 0]) := by decide +kernel

/-- The momentum step of ch. 11: W = 50, -120; G = 20, -128; M = 100, 500; BETA1 0.9, LR 3, US 4. -/
def optimizing : Node :=
  withS (withT node [(4, 1, 50 + 136 * 256), (3, 1, 20 + 128 * 256), (6, 2, 100 + 500 * 65536), (10, 3, 0), (8, 2, 0)]) [(9, 0x000400030000E666)]

theorem test_momentum_step : (flight (.voptSgdm 0 0 4 3 6 (some 9)) optimizing).map (fun f => (f.dist, match f.eff with
    | .tile t _ bits _ sat _ => (t, (List.range 2).map (tileBits bits (if t = 6 then 16 else 8)), sat)
    | _ => (0, [], false))) = [(16, 6, [110, 322], false), (16, 4, [29, 128], true)] := by decide +kernel
theorem test_other_optimizers : (flight (.voptLion 0 0 4 3 6 (some 9)) optimizing).map (·.dist) = [16, 16] ∧
    (flight (.voptAdam 0 0 4 3 6 (some (BitVec.ofNat 25 (9 + 10 * 1024)))) optimizing).map (·.dist) = [16, 16, 16] := by decide +kernel

def withAcc (n : Node) (a : Acc) : Node := { n with regs := { n.regs with acc := n.regs.acc.setIfInBounds 0 a } }

/-- Chains (R223, R224). -/
theorem test_chains : ((after (.mbeg 0 0 1) (base n2)).map fun t => (t.cur.regs.acc[0].opened, t.cur.regs.acc[0].ckv)) = some (true, true) ∧
    trapOf (.mend 0 0) n2 = some (0x0A, 0) ∧ ((after (.mend 0 0) (base (withAcc n2 { opened := true, part := 9 }))).map fun t => (t.cur.regs.acc[0].opened, t.cur.regs.acc[0].ended)) = some (false, [9]) ∧
    flight (.mzero 0 0) n2 = [{ dist := 1, eff := .accZero 0 }] ∧ trapOf (.mzero 0 0) (withAcc n2 { opened := true }) = some (0x0A, 0) ∧
    trapOf (.mbeg 0 0 0) (withAcc n2 { opened := true }) = some (0x0A, 0) := by decide +kernel

def product (i : Instr) (n : Node) : List (Nat × Int) :=
  (flight i n).map fun f => (f.dist, match f.eff with
    | .acc _ segs _ _ _ _ _ => (segs.map fun g => packGet 48 g.1 0).sum
    | _ => 0)

/-- Row 0 of t1 by row 0 of t2: 7 - 2 - 9 + 8 = 4 (R225); by columns of t1 and of t2 the first product is 7. -/
theorem test_products : product (.mma 0 0 1 2 none) n2 = [(24, 4)] ∧ product (.mmat 0 0 1 2 none) n2 = [(24, 7)] ∧ trapOf (.mma 0 0 1 8 none) n2 = some (3, 0) := by decide +kernel

/-- The accumulator of the example of ch. 10: 5,382 and 2,698 in column 0 narrow by 5 to 127, clamped, and 84; its checksums agree. -/
def chained : Node := withAcc (withT node [(8, 0x81, 0)]) { base := 5382 + 2698 * 2 ^ (48 * 64), ckv := true, rc := 5382 + 2698 * 2 ^ 64, cc := 8080 }

theorem test_epilogue : (flight (.epi 0 8 0 0 0 0 5 none) chained).map (fun f => (f.dist, match f.eff with
    | .tile _ _ bits _ sat _ => (tileBits bits 8 0, tileBits bits 8 256, tileBits bits 8 1, sat)
    | _ => (0, 0, 0, false))) = [(8, 127, 84, 0, true)] := by decide +kernel
theorem test_checksums : packList 64 (rowSums 2 2 [5382, 0, 2698, 0]) = chained.regs.acc[0].rc ∧ packList 64 (colSums 2 2 [5382, 0, 2698, 0]) = chained.regs.acc[0].cc ∧
    trapOf (.epiCk 0 1 0) node = some (0x0A, 0) := by decide +kernel

/-- Epilogues through a handle join the queue; EPI.SEND also takes the next SEQ of its route (R229, R233). -/
def sending (n : Node) : Node := { n with regs := { n.regs with e := n.regs.e.setIfInBounds 0 (BitVec.ofNat 64 (2 ^ 47)) } }

theorem test_epilogue_commands : ((after (.epiAdd 0 3 0 0 0 0 0 0 none) (base n3)).map fun t => t.cur.eng.epi.length) = some 1 ∧ trapOf (.epiAdd 0 1 0 0 0 0 0 0 none) n3 = some (4, 17) ∧
    flight (.epiSend 0 0 3 0 0 0 none) (sending n3) = [{ dist := 1, eff := .e 0 (BitVec.ofNat 64 (2 ^ 47 + 2 ^ 48)) }] ∧ trapOf (.epiSend 0 0 3 0 0 0 none) n3 = some (7, 0) := by decide +kernel

/-! ## Tiles through handles, copies and links -/

/-- A row of 256 elements of 8 bits in the scratchpad, with the bytes of n4 at offset 64. -/
def n5 : Node := { withH n4 [(1, handle 0x100 1 0 256 4)] with eng := {} }

/-- TLD gives the tile the elements of the tensor (R203); TST stores them and lowers the census (R204). -/
theorem test_tile_load : tileOut 8 (.tld 0 0 1 9) (withH n5 [(1, handle 0x100 1 0 256 4 + BitVec.ofNat 256 (64 * 2 ^ 154))]) = some (14, [0x85, 0xFF, 1, 2], false) ∧
    trapOf (.tld 0 0 2 9) (withH n5 [(2, 0)]) = some (5, 2) ∧ trapOf (.tld 0 0 2 9) (withH n5 [(2, handle 0x100 2 0 256 4)]) = some (4, 2) := by decide +kernel
theorem test_tile_store : (after (.tst 0 0 1 8 0) (base (withH n5 [(1, handle 0x100 1 0 256 4 + BitVec.ofNat 256 (2 ^ 29))]))).map (fun t => ((List.range 5).map (memGet t.cur.run.scr.cells), cenCur t.cur.regs.k[0])) = some ([20, 0xEC, 100, 5, 0], 24) := by
  decide +kernel

/-- The window of one element with counter updates: SW and SW + 1 in s10 and s11 (R275, R276). -/
def copying (n : Node) : Node := withS n [(10, 3), (11, 0), (12, BitVec.ofNat 64 (2 ^ 32 * 3 + 5))]

theorem test_copies : ∀ e ∈ ([(.cpy 0 0 1 1 5, .cpy), (.cpyk 0 0 1 3 5, .cpyk), (.cpyf 0 0 1 5 1, .cpyf), (.cpyb 0 0 1 1 5 0, .cpyb)] : List (Instr × CopyKind)),
    ((after e.1 (base (copying n5))).map fun t => t.cur.eng.ca.map fun c => (c.kind, windowExts c.sw c.sw1)) = some [(e.2, [4, 1, 1, 1, 1])] := by decide +kernel
/-- A CPYQ is armed until its counter, here c3, reaches its threshold, here 5 (R279). -/
theorem test_triggered_copies : ((after (.cpyq 0 0 1 1 5 12) (base (copying n5))).map fun t => (t.cur.eng.ca.length, t.cur.eng.caArmed.length)) = some (0, 1) ∧
    ((after (.cpyq 0 0 1 1 5 12) (base { copying n5 with regs := { (copying n5).regs with c := n5.regs.c.setIfInBounds 3 5 } })).map
      fun t => (t.cur.eng.ca.length, t.cur.eng.caArmed.length)) = some (1, 0) ∧
    trapOf (.cpy 0 0 1 2 5) (copying n5) = some (4, 17) ∧ trapOf (.cpy 0 0 1 1 6) (withS n5 [(12, BitVec.ofNat 64 (2 ^ 60))]) = some (8, 0) := by decide +kernel
/-- CPYCAN of CA removes the armed commands and those queued that have not begun, by the time it takes effect, and none that issued after it (R282). -/
theorem test_cancel :
    let c := fun (o p : Nat) => ({ kind := .cpyq, hD := 0, hS := 0, sw := 0, sw1 := 0, x := 0, seed := 0, step := 0, addr := 0, win := 0, ord := o, progress := { done := if p = 0 then [] else [0] } } : CopyCmd)
    let t := (after (.cpycan 0 0 1 0) (base { n5 with eng := { ca := [c 0 1, c 1 0], caArmed := [c 2 0], cb := [c 3 0], nextOrd := 4 } })).getD (base n5)
    t.cur.eng.caArmed.length = 1 ∧ t.cur.eng.cancels = [(false, 4)] ∧
    (let u := ({ t with cur := { t.cur with eng := { t.cur.eng with caArmed := t.cur.eng.caArmed ++ [c 4 0] } } } : State).cancelNow 1 false
     (u.cur.eng.ca.map (·.ord), u.cur.eng.caArmed.map (·.ord), u.cur.eng.cb.length, u.cur.eng.cancels) = ([0], [4], 1, [])) := by decide +kernel

def linking (n : Node) : Node := sending (copying n)

/-- A module alone in its pod, whose coordinate is that of its straps' place 0. -/
def alone (n : Node) : State := { base n with link := { LinkUnit.reset with x := 0, y := 0, z := 0 } }

/-- SEND and SENDT take the next SEQ of their route and join the link queue or are armed (R333, R337). -/
theorem test_sends : ((after (.send 0 0 1 1 5 0) (alone (linking n5))).map fun t => (t.cur.eng.sends.length, t.cur.run.irrev)) = some (1, true) ∧
    ((after (.sendt 0 0 1 1 5 0) (alone (linking n5))).map fun t => (t.cur.eng.sends.length, t.cur.eng.armed.length)) = some (0, 1) ∧
    trapOf (.send 0 0 1 1 5 1) (linking n5) = some (7, 0) := by decide +kernel
/-- COLL with CONTR registers its tag and hands in its contribution; ABORT names the last SEQ of its route (R340, R342). -/
theorem test_collectives : let n := withS (linking n5) [(11, BitVec.ofNat 64 (2 ^ 62)), (13, 0)]
    ((after (.coll 0 0 1 1 5 0) (alone n)).map fun t => (t.link.registered.map (·.2), t.link.contribs.map fun c => c.elems.length, t.cur.eng.colls.length)) = some ([1], [4], 1) ∧
    trapOf (.coll 0 0 1 1 5 1) n = some (7, 0) ∧ trapOf (.abort 0 0 1) n = some (7, 0) ∧
    ((after (.abort 0 0 0) (alone n)).map fun t => t.link.aborted) = some [{ space := 0, route := 0, seq := 0xFFFF }] := by decide +kernel

/-! ## Witnesses for the words -/

/-! One form of every word of the instruction set. -/

def samples1 : List Instr :=
  [.add 0 0 9 1 2, .sub 0 0 9 1 2, .addS 0 0 9 1 2, .subS 0 0 9 1 2, .and 0 0 9 1 2, .or 0 0 9 1 2, .xor 0 0 9 1 2, .andn 0 0 9 1 2, .shl 0 0 9 1 2,
   .shlS 0 0 9 1 2, .shr 0 0 9 1 2, .sar 0 0 9 1 2, .rot 0 0 9 1 2, .mul 0 0 9 1 2, .mulS 0 0 9 1 2, .mulh 0 0 9 1 2, .mulhw 0 0 9 1 2, .div 0 0 9 1 2,
   .divw 0 0 9 1 2, .rem 0 0 9 1 2, .remw 0 0 9 1 2, .min 0 0 9 1 2, .max 0 0 9 1 2, .minw 0 0 9 1 2, .maxw 0 0 9 1 2, .clz 0 0 9 1, .cls 0 0 9 1,
   .popc 0 0 9 1, .bfx 0 0 9 1 2, .bfi 0 0 9 1 2, .sel 0 0 9 1 2, .mov 0 0 9 1, .movp 0 0 0 3 0 0 0 1, .cmpEq 0 0 3 1 2, .cmpNe 0 0 3 1 2,
   .cmpLt 0 0 3 1 2, .cmpGe 0 0 3 1 2, .cmpLtw 0 0 3 1 2, .cmpGew 0 0 3 1 2, .addi 0 9 1 1 none, .li 0 9 1 none, .lih 0 9 1 none, .cmpiEq 0 3 1 1 none,
   .cmpiNe 0 3 1 1 none, .cmpiLt 0 3 1 1 none, .cmpiGe 0 3 1 1 none, .cmpiLtw 0 3 1 1 none, .cmpiGew 0 3 1 1 none]
def samples2 : List Instr :=
  [.brRel 0 0 1 none, .brAbs 0 0 1 none, .callRel 0 0 1 none, .callAbs 0 0 1 none, .ret 0 0 1, .brc 0 0 2 2 1 none, .brf 0 0 0 0 0 1 none,
   .loopOpen 0 1 1 1 none, .loopClose 0 1 1 none, .loopr 0 1 0 1 none, .lbrk 0 0 1 1 none, .segx 0 0 1, .endNode, .ldB 0 0 9 5 1 none,
   .ldH 0 0 9 5 1 none, .ldW 0 0 9 5 1 none, .ldD 0 0 9 5 1 none, .ldW8 0 0 9 5 1 none, .ldW16 0 0 9 5 1 none, .ldW32 0 0 9 5 1 none,
   .ldAcq 0 0 9 5 2 1, .stB 0 0 1 5 0 none, .stH 0 0 1 5 0 none, .stW 0 0 1 5 0 none, .stD 0 0 1 5 0 none, .stRel 0 0 1 5 1 1, .ldh 0 0 4 5 1 none,
   .sth 0 0 4 5 1 none, .amoAdd 0 0 9 5 1 0 none, .amoAdds 0 0 9 5 1 0 none, .amoMin 0 0 9 5 1 0 none, .amoMax 0 0 9 5 1 0 none,
   .amoAnd 0 0 9 5 1 0 none, .amoOr 0 0 9 5 1 0 none, .amoXor 0 0 9 5 1 0 none, .amoSwap 0 0 9 5 1 0 none, .amoCas 0 0 9 5 1 0 none,
   .amoIncw 0 0 9 5 1 0 none, .trap 0 0 1, .tret 0, .uiret 0, .ctlr 0 0 9 2, .ctlw 0 0 1 8, .fence 0 0 1 0 6, .brk 0 0 1, .cmpt 0 0 1 2, .enq 0 0 3 1,
   .yield 0 0]
def samples3 : List Instr :=
  [.genr 0 0 9, .idle 0, .vadd 0 0 3 1 2, .vsub 0 0 3 1 2, .vadds 0 0 3 1 2, .vsubs 0 0 3 1 2, .vmul 0 0 0 3 1 2, .vmulh 0 0 3 1 2, .vmac 0 0 0 3 1 2,
   .vmin 0 0 3 1 2, .vmax 0 0 3 1 2, .vand 0 3 1 2, .vor 0 3 1 2, .vxor 0 3 1 2, .vandn 0 3 1 2, .vsel 0 3 1 2, .vcmpEq 0 3 1 2, .vcmpNe 0 3 1 2,
   .vcmpLt 0 3 1 2, .vcmpGe 0 3 1 2, .vcmpLtw 0 3 1 2, .vcmpGew 0 3 1 2, .vperm 0 3 1 2, .vgath 0 3 1 2, .vscat 0 3 1 2, .vcmpt 0 1 2, .tld 0 0 1 9,
   .tst 0 0 1 8 0, .vshl 0 0 3 1 2, .vshr 0 0 3 1 2, .vsar 0 0 3 1 2, .vshrn 0 0 3 1 2 none, .vabs 0 0 3 1, .vneg 0 0 3 1, .vclz 0 3 1, .vcls 0 3 1,
   .vpopc 0 3 1, .vcvt 0 0 3 1 2, .vpack 0 0 3 1 2, .vunpk 0 0 3 1 0, .vrotl 0 0 3 1 2 none, .vbcast 0 3 1, .vbcastRow 0 3 1, .vbcastCol 0 3 1,
   .vmov 0 3 1, .vredsum 0 0 3 1 0, .vredmax 0 0 3 1 0, .vredmin 0 0 3 1 0]
def samples4 : List Instr :=
  [.vabsmax 0 0 3 1, .vpart 0 0 3 1, .vscan 0 0 3 1 0 0, .vlut3 0 0x96 3 1 1, .vfsl 0 3 1 2 0, .vfsr 0 3 1 2 0, .vexp2 0 3 1 0 none,
   .vlog2 0 3 1 0 none, .vrcp 0 3 1 0 none, .vrsq 0 3 1 0 none, .vsmax 0 3 1 0, .vrmsn 0 13 12 13 none, .vlnrm 0 13 12 13 none, .vgelu 0 3 1 0 none,
   .voptSgdm 0 0 4 3 6 (some 9), .voptLion 0 0 4 3 6 (some 9), .voptAdam 0 0 4 3 6 (some (BitVec.ofNat 25 10249)), .mbeg 0 0 0, .mend 0 0, .mzero 0 0,
   .mma 0 0 1 2 none, .mmat 0 0 1 2 none, .epi 0 8 0 0 0 0 5 none, .epiAdd 0 3 0 0 0 0 0 0 none, .epiSend 0 0 3 0 0 0 none, .epiCk 0 1 0,
   .hset 0 0 4 0 1, .hld 0 0 4 0 5, .hst 0 0 4 0 5, .horg 0 0 4 1 1, .horgImm 0 0 4 1 1 none, .hstep 0 0 4 1 1, .hstepImm 0 0 4 1 1 none,
   .kset 0 0 0 1 1, .kget 0 0 9 1 0, .cenClose 0 0 1, .cenGet 0 0 9 1 0, .shift 0 0 9 0 8, .tsh 0 0 1 1, .tshRead 0 0 1 1, .tshr 0 0 1 1 2,
   .cpy 0 0 1 1 5, .cpyk 0 0 1 1 5, .cpyf 0 0 1 5 1, .cpyb 0 0 1 1 5 0, .cpyq 0 0 1 1 5 12, .cpycan 0 0 1 0, .send 0 0 1 1 5 0]
def samples5 : List Instr :=
  [.sendt 0 0 1 1 5 0, .coll 0 0 1 1 5 0, .abort 0 0 0, .cset 0 0 1 1, .csetImm 0 0 1 1 none, .cadd 0 0 1 1, .caddImm 0 0 1 1 none, .cwait 0 0 1 1,
   .cwaitImm 0 0 1 1 none, .barb 0 0 1 1, .barbImm 0 0 1 1 none, .bar 0 0 1 0 0 1, .jcbRaise 0 0 3 1, .jcbRaiseImm 0 0 3 1 none, .jcbDone 0 0,
   .tokGive 0 0 1 1, .tokGiveImm 0 0 4 9 none, .tokTake 0 0 3 1 1, .tokTakeImm 0 0 3 4 9 none, .extensionWord 1, .nop 0 1]
def samples : List Instr := samples1 ++ samples2 ++ samples3 ++ samples4 ++ samples5

/-- Every word has its own effect in some state: the hypothesis of the statements about words. -/
theorem witness_runs : samples.length = 213 ∧ ∀ i ∈ samples, Runs i (base n5) := by decide +kernel
theorem witness_encoded : ∀ i ∈ samples, i.wf = true ∧ i.encodeNat.isSome = true := by decide +kernel

/-! ## Witnesses for the statements about words -/

def errOf {ε α : Type} (x : Except ε α) : Option ε :=
  match x with
  | .error e => some e
  | .ok _ => none

def okOf {ε α : Type} (x : Except ε α) : Option α :=
  match x with
  | .error _ => none
  | .ok a => some a

/-- Space 0 with the tensor 1 in the ring: 64 KiB at frame 0x800 (R252, R254 to R257). -/
def mapped (s : State) : State :=
  let t := ((s.wr (spacePA 0 + 2) 1 2).wr (spacePA 0 + 4) 16 4).wr (spacePA 0 + 8) (ringPA 0x200000) 8
  ((t.wr (ringPA 0x200010) (ringPA 0x201000) 8).wr (ringPA 0x200018) (3 + 65536 * 256) 8).wr (ringPA 0x201000) (0x47 + 0x800 * 65536) 8

/-- n5 with s14 at tensor 1, h5 over it in the ring, staged. -/
def n6 : Node := withH (withS n5 [(14, tensorAddr 1 0)]) [(5, handle 1 1 0 256 4 + BitVec.ofNat 256 (2 ^ 38 + 2 ^ 30))]

/-- The address that the layout unit gives for tensor 1 (R257), and a staged store that leaves memory as it is (R68). -/
theorem test_translation : okOf ((mapped (base n6)).locate n6 1 5 true) = some (.phys (ringPA 0x8000005) false) ∧
    errOf ((mapped (base n6)).locate n6 2 5 true) = some (.translation 2 0) ∧ errOf ((mapped (base n6)).locate n6 20 5 true) = some .access ∧
    ((after (.stW 0 0 1 14 0 none) (mapped (base n6))).map fun t => (t.cur.run.staged.cells, t.byte (ringPA 0x8000000))) =
      some ([(ringPA 0x8000000, 7), (ringPA 0x8000001, 0), (ringPA 0x8000002, 0), (ringPA 0x8000003, 0)], 0) := by decide +kernel

def fetching (w : Nat) : State := State.reset.withFetchWord 32 w

theorem witness_StandsAtWord : StandsAtWord (fetching 0x0C22) 0x0C22#32 (.add 0 0 3 1 2) ∧ StandsAtWord (fetching 0x08000042) 0x08000042#32 (.trap 0 0 0x42) := by
  constructor <;> constructor <;> first | decide +kernel | (constructor <;> decide +kernel)
theorem witness_StepRunsTheDecodedWord :
    ((after (.add 0 0 3 1 2) (inItsBundle (fetching 0x0C22) (.add 0 0 3 1 2))).map fun t => t.bnd.stop) = some .none ∧
    ((after (.trap 0 0 0x42) (inItsBundle (fetching 0x08000042) (.trap 0 0 0x42))).map fun t => t.bnd.stop) = some .taken := by decide +kernel

def stepped (s : State) : Option State :=
  match step s with
  | .next t => some t
  | _ => none

/-- One whole step: the pc moves past the word; END makes the node RETIRING; a trap without EN fails it (R134, R179, R348). -/
theorem test_steps : ((stepped (fetching 0x0C22)).map fun t => (t.cur.ctl.pc, t.cur.ctl.flight.length)) = some (12, 1) ∧
    ((stepped (fetching 0x04120000)).map fun t => (t.node 1).run.st) = some .retiring ∧ ((stepped (fetching 0x08000042)).map fun t => (t.node 1).run.st) = some .failed := by
  decide +kernel

def faultOf (i : Instr) (s : State) : Option Fault :=
  match exec i s with
  | .fault f => some f
  | _ => none

theorem witness_StepTakesTheAgendaEvent : (after .reserveSample (base n1)).isSome = true ∧ faultOf .flipDrainDone (base n1) = some (.notEnabled "FLIP_DRAIN_DONE") := by decide +kernel

/-- A producer inside its splice whose descriptor names no register at all. -/
def spliced : State :=
  let n : Node := { n1 with desc := { n1.desc with image := { image with
    splice := some { body := 0, bpkt := 1, level := 0, tmask := 0, smask := 0, amask := 0, hmask := 0, pmask := 0 } } } }
  { base n with cores := [{ core with pairs := [{ st := .merged, p := 1, c := 2 }] }] }

/-- Each hypothesis of the statement on all words: ill-formed, outside the partition, suppressed, and not named by the splice. -/
theorem witness_EveryWordAnswersANextState : (Instr.add 3 0 9 1 2).wf = false ∧ (Instr.add 3 0 9 1 2).encodeNat.isSome = true ∧
    (Instr.mzero 0 9).wf = true ∧ partitionOk 0x00080208#32 (Instr.mzero 0 9).sig = false ∧ partitionOk image.part (Instr.mzero 0 9).sig = true ∧
    suppressed n1 (Instr.add 0 1 9 1 2).sig = true ∧ suppressed n1 (Instr.add 0 0 9 1 2).sig = false ∧ spliced.spliceFault (Instr.add 0 0 9 1 2).sig = true ∧
    suppressed spliced.cur (Instr.add 0 0 9 1 2).sig = false := by decide +kernel

/-- The unassigned codes of every class, each at the first of its range. -/
theorem witness_unassigned_codes : ∀ e ∈ [(0x1C000000#32, 14, 0, 1, 0), (0x00138000#32, 0, 15, 6, 0x27), (0x03200000#32, 1, 21, 4, 9), (0x04140000#32, 2, 17, 4, 10), (0x060F0000#32, 3, 16, 5, 0x0F),
    (0x061A0000#32, 3, 16, 5, 0x1A), (0x061F0000#32, 3, 16, 5, 0x1F), (0x08180000#32, 4, 17, 4, 12), (0x0BA00000#32, 5, 20, 5, 0x1A), (0x0D500000#32, 6, 20, 5, 0x15), (0x10B00000#32, 8, 20, 5, 0x0B),
    (0x13200000#32, 9, 21, 4, 9), (0x14180000#32, 10, 17, 4, 12), (0x16140000#32, 11, 17, 4, 10), (0x18120000#32, 12, 17, 4, 9)],
    fieldN e.1 25 4 = e.2.1 ∧ fieldN e.1 e.2.2.1 e.2.2.2.1 = e.2.2.2.2 ∧ refused e.1 = true := by decide +kernel

/-- Memory that is not empty and canonical, with a poisoned byte; a step from it. -/
theorem witness_memory : let s : State := { fetching 0x0C22 with mem := [(5, 7), (9, 1)], poison := [5] }
    Canonical s ∧ s.poison.Pairwise (· < ·) ∧ (stepped s).isSome = true := by decide +kernel
theorem test_memory : let t := (base n1).wr 100 0x01020304 4
    t.rd 100 4 = 0x01020304 ∧ t.byte 100 = 4 ∧ t.byte 103 = 1 ∧ t.byte 104 = 0 ∧ (t.wr 100 0 4).mem = [] := by decide +kernel

/-- Registers at the edge of the banks, and a launch with handles (R65, R153). -/
theorem witness_registers : let n : Node := { n1 with ctl := { n1.ctl with bank := true }, regs := { n1.regs with sh := n1.regs.sh.setIfInBounds 0 9 } }
    n.s 24 = 9 ∧ n.s 23 = 0 ∧ n1.s 24 = 0 ∧ n1.s 1 = 7 ∧ ({ uid := 1, handles := [1, 2] } : Desc).handles.length ≤ 16 ∧
    (launchRegs { uid := 1, handles := [1, 2] } Regs.reset.k).h[1] = 2 := by decide +kernel

/-- The long form of LIH at the edge of its immediate (R161). -/
theorem witness_PredicateAndImmediateWords : Runs (.lih 0 9 0 (some 0xFFFF)) (base n1) ∧ (0xFFFF#25).toNat < 2 ^ 16 ∧ trapOf (.lih 0 9 0 (some 0x10000)) n1 = some (1, 0) := by decide +kernel

def overlay (n : Node) : Node := { n with desc := { n.desc with image := { n.desc.image with ovl := true, segs := [(0, 1, false), (0, 1, false), (0, 1, false)] } } }
def placed (s : State) (a : Nat) : State := { s with bnd := { addr := BitVec.ofNat 22 a, fa := BitVec.ofNat 22 a, na := BitVec.ofNat 22 (a + 4) } }

/-- Relative targets at the edges of the address range and of a segment, absolute ones on and off a packet (R134, R162); P is the packet that holds the word. -/
theorem witness_transfers : let P : Nat := (placed (base n1) 28).bnd.addr.toNat - (placed (base n1) 28).bnd.addr.toNat % 12
    let Q : Nat := (65536 + 65520 + 4) - ((65536 + 65520 + 4) % 65536) % 12
    P = 24 ∧ 0 ≤ (P : Int) + 12 * (-2) ∧ (P : Int) + 12 * (-3) < 0 ∧ (P : Int) + 12 * 349522 < 2 ^ 22 ∧ 2 ^ 22 ≤ (P : Int) + 12 * 349524 ∧
    Q = 65536 + 65520 ∧ ((Q % 65536 : Nat) : Int) + 12 * 1 < 65536 ∧ 65536 ≤ ((Q % 65536 : Nat) : Int) + 12 * 2 ∧ ((Q % 65536 : Nat) : Int) + 12 * (-5461) < 0 ∧
    (overlay n1).desc.image.ovl = true ∧ n1.desc.image.ovl = false ∧ (base n1).bnd.stop = .none ∧ ((base n1).jumpTo 37).bnd.stop = .taken := by decide +kernel
/-- BRC with each of its conditions met and not met, and BRF with each value of its flag (R164, R165). -/
theorem witness_branches : (∀ e ∈ ([(0, 0), (1, 7), (2, -2), (3, 0), (4, 7), (5, -2)] : List (BitVec 3 × Int)), ends (.brc 0 0 e.1 9 1 none) (withS n1 [(9, BitVec.ofInt 64 e.2)]) = [.jump 36 false]) ∧
    (∀ e ∈ ([(0, 7), (1, 0), (2, 0), (3, -2), (4, 0), (5, 7)] : List (BitVec 3 × Int)), ends (.brc 0 0 e.1 9 1 none) (withS n1 [(9, BitVec.ofInt 64 e.2)]) = []) ∧
    Runs (.brc 0 0 5 9 1 none) (base n1) ∧ n1.done 3 = true ∧ (0 : BitVec 4).getLsbD 3 = false := by decide +kernel

/-- LOOP open with trip counts 0, 1, 2^31 - 1 and 2^31, at an inactive and at an active level (R171). -/
theorem witness_LoopOpens : ∀ t ∈ [(0 : Int), 1, 2 ^ 31 - 1, 2 ^ 31], let n := withS n1 [(9, BitVec.ofInt 64 t)]
    Runs (.loopOpen 0 5 9 1 none) (base n) ∧ ((base n).cur.s 9).toInt = t ∧ (n.ctl.loops[5]).act = false ∧ ((looping n 5 3 1).ctl.loops[5]).act = true ∧
    Runs (.loopOpen 0 5 9 1 none) (base (looping n 5 3 1)) := by decide +kernel
/-- LOOP close, LOOPR and LBRK at an inactive level, below an active one, before the last iteration and at it (R172, R173). -/
theorem witness_LoopCloses : ∀ n ∈ [n1, looping (looping n1 2 3 1) 3 3 1, looping n1 2 3 1, looping n1 2 3 2], ∀ i ∈ ([.loopClose 0 2 0 none, .loopr 0 2 1 0 none, .lbrk 0 0 2 0 none] : List Instr),
    Runs i (base n) := by decide +kernel

/-- SEGX outside an overlay image, of a resident segment, and of one that is copied into either half (R177). -/
def overlaid (h0 h1 : Option Nat) (cp : Option (Nat × Bool)) : State :=
  placed { base (overlay n1) with cores := [{ core with imem := [{ imgid := 0, space := 0, ovl := true, size := 1, launched := 1, segs := [], half0 := h0, half1 := h1, copying := cp }] }] } 0
theorem witness_SegmentsEndAndEmptyWords : Runs (.segx 0 0 2) (overlaid (some 0) (some 1) none) ∧ ((after (.segx 0 0 1) (overlaid (some 0) (some 1) none)).map fun t => t.cores) = some (overlaid (some 0) (some 1) none).cores ∧
    ((after (.segx 0 0 2) (overlaid (some 0) (some 1) none)).map fun t => t.cores) = some (overlaid (some 0) none (some (2, true))).cores ∧
    ((after (.segx 0 0 2) (overlaid (some 1) (some 0) none)).map fun t => t.cores) = some (overlaid none (some 0) (some (2, false))).cores := by decide +kernel

/-- Loads: aligned and readable, misaligned, at a place that faults, and poisoned (R268, R269); HLD off its tensor, beyond its end, and inside it (R209). -/
theorem witness_Loads : let s := base n4
    let p := base { n4 with run := { n4.run with scr := { n4.run.scr with poison := [66] } } }
    (okOf (s.readBytes s.cur 0x100 64 4)).isSome = true ∧ (s.cur.s 5).toNat % 4 = 0 ∧ (s.cur.s 6).toNat % 2 = 1 ∧ addrTid (s.cur.s 5) = 0x100 ∧ addrOff (s.cur.s 5) = 64 ∧
    errOf (s.readBytes s.cur 0x101 64 4) = some (.translation 0x101 0) ∧ (okOf (p.readBytes p.cur 0x100 64 4)).map (fun l => l.1.any (·.2)) = some true ∧
    s.cur.scratch 0x100 = some (0, 4096) ∧ s.cur.scratch 0x101 = none ∧ 4096 < addrOff (tensorAddr 0x100 4096) + 32 := by decide +kernel

/-- A node whose tensor 1 is an input only (R63, R65). -/
def reading (n : Node) : Node := { n with desc := { n.desc with handles := [handle 1 1 0 256 4], image := { n.desc.image with opnds := [{ fwd := false, mode := 1, rank := 2, fmt := 1 }] } } }

/-- Stores: to the scratchpad, to a place that faults, through an input, and above the budget of staged lines (R65, R68, R269). -/
theorem witness_Stores : let s := mapped (base n6)
    let tight := mapped (base { n6 with desc := { n6.desc with image := { n6.desc.image with budget := 0 } } })
    (okOf (s.places s.cur 0x100 64 4)).isSome = true ∧ writeMode s.cur 0x100 = true ∧ s.cur.overBudget = false ∧ errOf (s.places s.cur 2 0 4) = some (.translation 2 0) ∧
    writeMode (reading n6) 1 = false ∧ Runs (.stW 0 0 1 14 0 none) (mapped (base (reading n6))) ∧
    (okOf (tight.places tight.cur 1 0 4)).map (fun ps => ((tight.writePlaces 1 (storedBytes ps 7 4)).node 1).overBudget) = some true ∧ addrTid (s.cur.s 14) = 1 := by decide +kernel

def unstaged (n : Node) : Node := { n with desc := { n.desc with image := { n.desc.image with unstg := true } } }

/-- Where bytes go: a staged node, an unstaged one, and one whose generation is stale (R68, R263). -/
theorem witness_WritesReachTheirPlaces : let s := mapped (base n6)
    let u := mapped (base (unstaged n6))
    let x := mapped (base { unstaged n6 with run := { n6.run with qgen := 1 } })
    Canonical u ∧ s.cur.desc.image.unstg = false ∧ u.cur.desc.image.unstg = true ∧ u.stale u.cur = false ∧ x.stale x.cur = true ∧ Memory.wf n4.run.scr.cells = true ∧
    (∀ e ∈ [((.phys (ringPA 0x8000000) false, 7, false) : Place × Byte × Bool)], ∀ a ∈ [ringPA 0x8000000], e.1 = .phys a false ∧ (a < spacePA u.cur.desc.queue ∨ spacePA u.cur.desc.queue + 2 ≤ a)) ∧
    ((after (.stB 0 0 1 14 0 none) u).map fun t => (t.byte (ringPA 0x8000000), t.byte (ringPA 0x8000001))) = some (7, 0) := by decide +kernel

/-- Atomics: through an input, at a place that faults, barred by a staged line, stale, poisoned, and free of all (R271, R272). -/
theorem witness_Atomics : let s := mapped (base n6)
    let staged := { n6 with run := { n6.run with staged := { cells := [(ringPA 0x8000010, 7)] } } }
    let pl : Place := .phys (ringPA 0x8000000) false
    okOf (s.places s.cur 1 0 1) = some [pl] ∧ s.cur.amoBarred 0 pl = false ∧ staged.amoBarred 0 pl = true ∧ pl.beyondPool = true ∧ s.stale s.cur = false ∧
    s.stale { n6 with run := { n6.run with qgen := 1 } } = true ∧ (s.amoByte 1 0 pl).2 = false ∧ ({ s with poison := [ringPA 0x8000000] } : State).amoByte 1 0 pl = (0, true) ∧
    Runs (.amoAdd 0 0 9 14 1 0 none) s ∧ Runs (.amoIncw 0 0 9 14 1 1 none) s ∧ errOf (s.places s.cur 2 0 4) = some (.translation 2 0) ∧ writeMode s.cur 1 = true := by decide +kernel
theorem test_atomic_in_memory : ((after (.amoAdd 0 0 9 14 1 0 none) (mapped (base n6))).map fun t => (t.byte (ringPA 0x8000000), t.cur.run.irrev, t.cur.run.staged.cells)) = some (7, true, []) := by decide +kernel

/-- Scale registers busy and free (R214), and a window closed with a later one open (R41, R42). -/
theorem witness_scale_words : let busy : Node := { n5 with ctl := { n5.ctl with cwaiting := [0] } }
    busy.scaleBusy 0 = true ∧ n5.scaleBusy 0 = false ∧ (∀ i ∈ ([.kset 0 0 0 1 1, .kget 0 0 9 0 0, .cenGet 0 0 9 0 0, .shift 0 0 9 0 8] : List Instr), Runs i (base busy)) ∧
    ((after (.kget 0 0 9 0 0) (base busy)).map fun t => t.bnd.stop) = some .delayed := by decide +kernel
theorem witness_CensusWindows : let r : Regs := { Regs.reset with closed := Regs.reset.closed.setIfInBounds 3 1, later := [(3, 2, 9)] }
    (∀ i : Fin 64, cenCur r.k[i] ≤ 32 ∧ cenPrev r.k[i] ≤ 32) ∧ 1 ≤ r.closed[3] ∧ r.closed[3] < 2 ∧ cenCur (r.closeWindow 3).k[3] = 9 ∧ cenV (r.closeWindow 3).k[3] = false := by decide +kernel

/-- Shapes that fit and that do not, and the edges of the row count of TSHR (R216 to R218). -/
theorem witness_ShapeWords : (∀ a ∈ [(0 : Int), 1, 256, 257], Runs (.tshr 0 0 20 12 9) (base (withS n5 [(9, BitVec.ofInt 64 a)])) ∧ ((base (withS n5 [(9, BitVec.ofInt 64 a)])).cur.s 9).toInt = a) ∧
    shapeRows 0x8082#32 * shapeCols 0x8082#32 * shapeW 0x8082#32 ≤ 262144 * (base n5).slabs ∧ 262144 * (base n5).slabs < shapeRows 0x1FFFF83#32 * shapeCols 0x1FFFF83#32 * shapeW 0x1FFFF83#32 ∧
    Runs (.tsh 0 0 20 9) (base n5) ∧ Runs (.tshr 0 0 20 12 0) (base n5) := by decide +kernel

/-- Tiles with the shapes that each family of tile words asks for: the same grid and width, half and double width, two rows, 16-bit destinations of partitions
and routines, gains of one row, and optimizer operands; and a pair that does not fit (R183). -/
theorem witness_tile_shapes : let s := base n5
    let o := base optimizing
    (∀ t ∈ [s.tv 1, s.tv 2, s.tv 3, s.tv 5, s.tv 8, s.tv 9, s.tv 12, s.tv 13, s.tv 14, o.tv 4, o.tv 3, o.tv 6, o.tv 10], t.legal = true) ∧
    ((s.tv 1).rows, (s.tv 1).cols, (s.tv 1).w) = ((s.tv 3).rows, (s.tv 3).cols, (s.tv 3).w) ∧ ((s.tv 8).rows, (s.tv 8).cols, (s.tv 8).w) = (1, 256, 8) ∧
    ((s.tv 14).rows, (s.tv 14).cols, (s.tv 14).w) = (2, 256, 4) ∧ ((s.tv 12).rows, (s.tv 12).cols, (s.tv 12).w) = (1, 256, 16) ∧ ((s.tv 1).rows, (s.tv 1).cols, (s.tv 1).w) = (1, 256, 4) ∧
    ((o.tv 4).rows, (o.tv 4).cols, (o.tv 4).w, (o.tv 3).w, (o.tv 6).w, (o.tv 10).w) = (1, 256, 8, 8, 16, 32) := by decide +kernel
/-- A tile whose shape register no longer fits its slot is not legal, and words on it take the tile shape fault (R183, R216). -/
theorem witness_illegal_tile : ((base (withT n5 [(1, 0x1FFFF83, 0)])).tv 1).legal = false ∧ trapOf (.vneg 0 0 3 1) (withT n5 [(1, 0x1FFFF83, 0)]) = some (3, 0) ∧
    trapOf (.tld 0 0 1 1) (withT n5 [(1, 0x1FFFF83, 0)]) = some (3, 0) ∧ trapOf (.epi 0 1 0 0 0 0 5 none) (withT n5 [(1, 0x1FFFF83, 0)]) = some (3, 0) := by decide +kernel
/-- VCMPT at the first element, and at a later one behind equal ones; an index of VSCAT that one element alone names (R194, R200). -/
theorem witness_vector_elements : let s := base n5
    (s.tv 1).bit 0 ≠ (s.tv 2).bit 0 ∧ (∀ k < 1, (s.tv 3).bit k = (s.tv 5).bit k) ∧ (s.tv 3).bit 1 ≠ (s.tv 5).bit 1 ∧ (s.tv 2).bit 1 < (s.tv 3).n ∧
    (∀ k < 256, 1 < k → (s.tv 2).bit k ≠ (s.tv 2).bit 1) ∧ (∀ i < 256, (s.tv 2).bit i ≠ 4) ∧ (s.tv 14).rows % 2 = 0 := by decide +kernel
/-- The second half of the routines' conditions: a gain of 16 bits and one row (R243). -/
theorem witness_RoutineWords : let s := base n5
    SameGrid (s.tv 12) (s.tv 13) ∧ (s.tv 13).w = 16 ∧ (s.tv 13).rows = 1 ∧ (s.tv 13).cols = (s.tv 12).cols ∧ 8 ≤ (s.tv 12).w := by
  refine ⟨⟨?_, ?_⟩, ?_⟩ <;> decide +kernel

/-- TLD: a handle that passes, one that fails each check, a tile in a forwarding buffer, and elements that are all readable; TST: a plan, a block not wholly
covered, and no forwarding (R36, R52, R121, R203, R204). -/
theorem witness_tile_loads : let s := base n5
    let H := s.cur.regs.h[1]
    s.checkHandle s.cur H false = none ∧ s.checkHandle s.cur 0 false = some (.cause 5) ∧ s.checkHandle s.cur (handle 0x100 2 0 256 4) false = some (.cause 4) ∧ s.forwardedTile = none ∧
    (∀ j < 256, inside H.exts (addOrg H.orgs [j, 0, 0, 0, 0]) = true ∧ (okOf (s.readElem s.cur H (addOrg H.orgs [j, 0, 0, 0, 0]))).isSome = true) := by decide +kernel
def consuming : State :=
  { base n5 with cores := [{ core with pairs := [{ st := .merged, p := 2, c := 1, cands := [{ hp := 1, tp := 1, pAddr := 12, hc := 1, tc := 9, cAddr := 0 }], bufs := [{ pAddr := 12, odd := false, slot := 3, inC := false, iter := some 0, taken := false, tile := { bits := 5 }, shape := 1, h := handle 0x100 1 0 256 4 }] }] }] }
theorem witness_forwarded_tile : consuming.forwardedTile.isSome = true ∧ ((after (.tld 0 0 1 9) consuming).map fun t => t.cur.ctl.flight.map fun f => match f.eff with
    | .tile _ _ bits _ _ _ => bits
    | _ => 0) = some [5] := by decide +kernel
theorem witness_tile_stores : let s := base n5
    let cell : Cell := { x := [0, 0, 0, 0, 0], v := 5, poison := false }
    (match s.planCells s.cur (handle 0x100 1 0 256 4) (s.rounding 0) [cell] with | .ok _ => true | _ => false) = true ∧
    (match s.planCells s.cur (handle 0x100 5 0 256 4) (s.rounding 0) [cell] with | .partBlock => true | _ => false) = true ∧ s.forwardsTst = false := by decide +kernel

/-- Accumulators open and closed; a product in flight when MEND issues (R223). -/
theorem witness_MatrixChains : let busy := { withAcc n5 { opened := true } with ctl := { n5.ctl with flight := [{ dist := 9, eff := .acc 0 [(5, false)] 0 false false 0 0 }, { dist := 3, eff := .s false 9 7 }] } }
    (withAcc n5 { opened := true }).regs.acc[0].opened = true ∧ n5.regs.acc[0].opened = false ∧ Runs (.mend 0 0) (base busy) ∧ Runs (.mbeg 0 0 1) (base n5) ∧ Runs (.mzero 0 0) (base n5) ∧
    (∃ f ∈ busy.ctl.flight, f.eff.forAcc 0 = true ∧ f.dist = 9) ∧ (∀ f ∈ busy.ctl.flight, f.eff.forAcc 0 = true → f.dist ≤ 9) ∧
    ((after (.mend 0 0) (base busy)).map fun t => (t.cur.regs.acc[0].opened, t.cur.ctl.flight.length)) = some (false, 3) := by decide +kernel
/-- Operands of a product that fit and that do not, check handles of the right and of the wrong block direction, and a chain that checks (R222, R225). -/
theorem witness_MatrixProducts : let s := base n5
    (s.tv 1).legal = true ∧ (s.tv 1).w = (s.tv 2).w ∧ (s.tv 1).w ≤ 16 ∧ (s.tv 1).cols = (s.tv 2).cols ∧ (s.tv 1).rows ≤ matrixRows s.slabs ∧ (s.tv 2).rows ≤ matrixCols s.slabs ∧
    (s.tv 1).w ≠ (s.tv 8).w ∧ (withAcc n5 { opened := true, ckv := true }).regs.acc[0].ckv = true := by decide +kernel
theorem witness_check_handles : let col := handle 0x100 5 0 256 32 + BitVec.ofNat 256 (2 ^ 27)
    checkHandleBad col false = true ∧ checkHandleBad col true = false ∧ checkHandleBad (handle 0x100 5 0 256 32) true = true ∧
    (∀ i ∈ ([.mma 0 0 1 2 (some 0x10), .mma 0 0 1 2 (some 0x200), .mmat 0 0 1 2 (some 0x210)] : List Instr), Runs i (base n5)) := by decide +kernel
theorem witness_RunsSaturate : ((base (withAcc n5 { ended := [7] })).accOf 0).ended = [7] ∧ (0 : BitVec 4).toNat < 10 ∧ faultOf (.matrixRunEnd 1 0) (base n5) = some (.notEnabled "MATRIX_RUN_END") ∧
    (({ base := 2 ^ 47 - 1 } : Acc).addRun 1 1).sticky = true ∧ (({ base := 2 ^ 47 - 1 } : Acc).addRun 1 1).base = 2 ^ 47 - 1 := by decide +kernel

def adds (k : Nat) : List EpiCmd := List.replicate k (.add { h := 0, vals := [], sticky := false, win := 0 })

/-- The epilogue words: open and closed accumulators, the blocks of EPI, the checks of the handle and the route, and queues with room and full (R224 to R233). -/
theorem witness_EpilogueWords : let s := base (sending n3)
    let H := s.cur.regs.h[3]
    (s.accOf 0).opened = false ∧ ((base (withAcc n3 { opened := true })).accOf 0).opened = true ∧ 64 * 1 < matrixRows s.slabs ∧ 64 * 3 + matrixCols s.slabs ≤ (s.tv 8).cols ∧
    ¬ 64 * 2 < matrixRows s.slabs ∧ s.checkHandle s.cur H true = none ∧ H.fmt = 3 ∧ s.checkHandle s.cur (s.cur.regs.h[1]) true = none ∧ (s.cur.regs.h[1]).fmt ≠ 3 ∧
    s.checkHandle s.cur 0 true = some (.cause 5) ∧ s.cur.eng.epi.length < 8 ∧ 8 ≤ (adds 8).length ∧ routeBad (s.cur.regs.e[0]) = false ∧ routeBad (s.cur.regs.e[1]) = true ∧
    handleStep1 H = true ∧ handleStep1 0 = false ∧ handleStep2 s.cur H = true ∧ handleStep2 s.cur (handle 0x100 2 0 16 16) = false ∧ fmtBlock H.fmt = false := by decide +kernel
theorem witness_full_epilogue : let n := { sending n3 with eng := { n3.eng with epi := adds 8 } }
    (∀ i ∈ ([.epiAdd 0 3 0 0 0 0 0 0 none, .epiSend 0 0 3 0 0 0 none] : List Instr), Runs i (base n) ∧ ((after i (base n)).map fun t => t.bnd.stop) = some .delayed) ∧
    ((withAcc n3 { poison := 1, ckv := true }).regs.acc[0].poison ≠ 0) ∧ (n3.regs.acc[0].ckv = false) ∧
    (∀ i ∈ ([.epi 0 8 0 0 0 0 5 none, .epiAdd 0 3 0 0 0 0 0 0 none, .epiSend 0 0 3 0 0 0 none, .epiCk 0 1 0] : List Instr), trapOf i (withAcc (sending n3) { opened := true }) = some (0x0A, 0)) := by decide +kernel

def cmdOf (x : Word) : CopyCmd := { kind := .cpyq, hD := handle 0x100 1 0 256 4, hS := 0, sw := 3, sw1 := 0, x := x, seed := 0, step := 0, addr := 0, win := 0 }

/-- Copy words: bad control words, handles that fail, formats that differ, windows of part of a block, and queues and armed lists with room and full (R273 to R279). -/
theorem witness_CopyWords : let s := base (copying n5)
    let h1 := s.cur.regs.h[1]
    let h2 := s.cur.regs.h[2]
    let b8 := handle 0x100 5 0 256 32
    copyBad .cpy false 3 0 0 = false ∧ copyBad .cpy false 3 (BitVec.ofNat 64 (2 ^ 60)) 0 = true ∧ s.copyHandles s.cur (some h1) h1 = none ∧
    s.copyHandles s.cur (some h1) 0 = some (.cause 5, true) ∧ s.copyHandles s.cur (some 0) h1 = some (.cause 5, false) ∧ s.copyHandles s.cur none h1 = none ∧
    copyFormat .cpy (some h1) h1 [4, 1, 1, 1, 1] 0 = none ∧ copyFormat .cpy (some h1) h2 [4, 1, 1, 1, 1] 0 = some true ∧ copyFormat .cpyk (some b8) h1 [4, 1, 1, 1, 1] 0 = some false := by decide +kernel
theorem witness_copy_queues : let full := base { copying n5 with eng := { ca := List.replicate 16 (cmdOf 0), caArmed := List.replicate 8 (cmdOf 5) } }
    (base (copying n5)).slotLoad 1 false = 0 ∧ 16 ≤ full.slotLoad 1 false ∧ 8 ≤ (full.cur.eng.armedOf false).length ∧
    (∀ i ∈ ([.cpy 0 0 1 1 5, .cpyk 0 0 1 1 5, .cpyf 0 0 1 5 1, .cpyb 0 0 1 1 5 0, .cpyq 0 0 1 1 5 12] : List Instr), Runs i full ∧ ((after i full).map fun t => t.bnd.stop) = some .delayed) ∧
    trigThreshold (full.cur.s 12) = 5 ∧ trigCounter (full.cur.s 12) = 3 ∧ Runs (.cpycan 0 0 1 1) full := by decide +kernel

def sendOf (t : Word) : SendCmd :=
  { epi := false, route := 0, er := BitVec.ofNat 64 (2 ^ 47), hD := handle 0x100 1 0 256 4, hS := handle 0x100 1 0 256 4, sw := 3, ctrl := 0, trigger := t, payload := [],
    extents := [4, 1, 1, 1, 1], coreIdx := 0, sent := false }

/-- Link words: routes, coordinates beyond the pod, control words, handles, formats, and queues with room and full (R331 to R342). -/
theorem witness_LinkWords : let s := alone (linking n5)
    let h1 := s.cur.regs.h[1]
    let full := alone { linking n5 with eng := { sends := List.replicate 16 (sendOf 0), armed := List.replicate 16 (sendOf 5) } }
    routeBad (s.cur.regs.e[0]) = false ∧ routeBad (s.cur.regs.e[1]) = true ∧ s.link.dx ≤ (routeX 1).toNat ∧ ¬ s.link.dx ≤ (routeX (s.cur.regs.e[0])).toNat ∧
    sendBad false false 3 0 0 = false ∧ sendBad false false 3 (BitVec.ofNat 64 (2 ^ 63)) 0 = true ∧ s.linkHandles (some h1) h1 = none ∧ s.linkHandles (some 0) h1 = some (.cause 5, false) ∧
    s.linkHandles (some h1) 0 = some (.cause 5, true) ∧ copyFormat .cpy (some h1) h1 [4, 1, 1, 1, 1] 0 = none ∧ s.cur.eng.sends.length < 16 ∧ 16 ≤ full.cur.eng.sends.length ∧
    16 ≤ full.cur.eng.armed.length := by decide +kernel
theorem witness_full_links : let full := alone { linking n5 with eng := { sends := List.replicate 16 (sendOf 0), armed := List.replicate 16 (sendOf 5) } }
    (∀ i ∈ ([.send 0 0 1 1 5 0, .sendt 0 0 1 1 5 0] : List Instr), Runs i full ∧ ((after i full).map fun t => t.bnd.stop) = some .delayed) := by decide +kernel
/-- COLL as an origin with a list of one DELIVER here, as a contributor, and as a receiver alone (R340). -/
theorem witness_collectives : let f := fun (c : Word) (hs : BitVec 4) => collBad false hs (handle 0x100 1 0 256 4) (handle 0x100 1 0 256 4) 3 c 0xF800 0
    f (BitVec.ofNat 64 (2 ^ 63 + 2 ^ 56)) 1 = false ∧ f (BitVec.ofNat 64 (2 ^ 62)) 1 = false ∧ f (BitVec.ofNat 64 (2 ^ 61)) 0 = false ∧ f 0 0 = true ∧
    (okOf ((alone n5).readWindow 1 (handle 0x100 1 0 256 4) [4, 1, 1, 1, 1])).isSome = true ∧ (alone n5).link.tagAborted { space := 0, route := 0, seq := 0 } = false := by decide +kernel

/-- Causes of a trap and a node for each way to take it: the handler, a failure, a vector off its packet, and a compare that rolls back (R345 to R349, R357). -/
def traps (vbase : BitVec 22) (en act crb : Bool) : State := base { n5 with ctl := { n5.ctl with trap := { vbase := vbase, en := en, act := act, crb := crb } } }
theorem witness_TrapEntry : (∀ v ∈ [(0, 0), (1, 0), (2, 0), (3, 12), (8, 12), (9, 24), (0xD, 24), (0xE, 36), (0x12, 36), (0x13, 48), (0x19, 48), (0x1A, 60), (0x1B, 72)], 12 * trapVector (BitVec.ofNat 7 v.1) = v.2) ∧
    ((traps 0x600 true false false).takeTrap { code := 3, pos := 1, dly := false, fa := 24, ra := 24, val := 7 }).cur.ctl.pc = 0x60C ∧
    (((traps 0x600 false false false).takeTrap { code := 3, pos := 1, dly := false, fa := 24, ra := 24, val := 7 }).node 1).run.st = .failed ∧
    (((traps 0x600 true true false).takeTrap { code := 3, pos := 1, dly := false, fa := 24, ra := 24, val := 7 }).node 1).run.st = .failed ∧
    (((traps 0x601 true false false).takeTrap { code := 3, pos := 1, dly := false, fa := 24, ra := 24, val := 7 }).node 1).run.st = .failed ∧
    (traps 0x600 true false true).mayRollBack 1 = true ∧ (traps 0x600 true false true).cur.run.compareRollbacks < 2 ∧
    (((traps 0x600 true false true).takeTrap { code := 0x18, pos := 1, dly := false, fa := 24, ra := 24, val := 7 }).node 1).run.st = .ready := by decide +kernel

/-- Returns: RA at the next bundle, changed to a packet, and changed to no address that R350 allows. -/
theorem witness_TrapAndReturnWords : let h := fun (ra : BitVec 22) => base { n5 with ctl := { n5.ctl with bank := true, trap := { en := true, act := true, cause := 3, ra := ra, fa := 0x304, recRa := 0x304, val := 0 } } }
    Runs (.tret 0) (h 0x304) ∧ ((after (.tret 0) (h 0x304)).map fun t => t.bnd.post) = some [.jump 0x304 false] ∧ ((after (.tret 0) (h 24)).map fun t => t.bnd.post) = some [.jump 24 false] ∧
    ((after (.tret 0) (h 25)).map fun t => (t.node 1).run.st) = some .failed ∧ Runs (.cmpt 0 0 1 1) (h 24) ∧ Runs (.uiret 0) (h 24) := by decide +kernel

/-- Waits whose condition holds and does not, at its edge (R305 to R307, R325); requests of a node with and without a block, before and after JCB.DONE, with room in
the outbox and without (R309 to R316). -/
theorem witness_waits : let n := { n5 with regs := { n5.regs with c := n5.regs.c.setIfInBounds 3 7 }, eng := { n5.eng with ca := [cmdOf 0] } }
    (7 : Word).toNat ≤ (n.regs.c[3]).toNat ∧ (n.regs.c[3]).toNat < (8 : Word).toNat ∧ n.done 0 = false ∧ n.done 1 = true ∧ (1 : BitVec 4).getLsbD 0 = true ∧ n5.eng.uiPending = false ∧
    { n.eng with ca := [{ cmdOf 0 with sw1 := BitVec.ofNat 64 (2 ^ 43) }] }.uiPending = true ∧ n.ctl.ui.recs = [] := by decide +kernel
theorem witness_RequestWords : let full : State := { base n5 with cores := [{ core with outbox := [(1, 0), (1, 0)] }] }
    2 ≤ (full.core full.focus).outbox.length ∧ ((base n5).core 0).outbox.length < 2 ∧ ((after (.enq 0 0 3 1) full).map fun t => t.cur.ctl.flight) = some [{ dist := 2, eff := .p 3 false }] ∧
    ((after (.tokGive 0 0 4 1) full).map fun t => t.bnd.stop) = some .delayed ∧ (withJcb n5).desc.jcb = some 5 ∧ n5.desc.jcb = none ∧
    flight (.jcbRaise 0 0 3 1) { withJcb n5 with run := { n5.run with doneIssued := true } } = [{ dist := 6, eff := .p 3 false }] ∧
    flight (.jcbRaise 0 0 3 1) { unstaged (withJcb n5) with run := { n5.run with doneIssued := true } } = [{ dist := 6, eff := .pAnswer 1 3 none }] ∧
    ((after (.enq 0 0 3 1) (base { withJcb n5 with run := { n5.run with pendingRaise := [{ id := 1, n := 1, posted := false, ans := none }] } })).map fun t => t.bnd.stop) = some .delayed ∧
    ((after (.jcbDone 0 0) (base (unstaged (withJcb n5)))).map fun t => t.awl.posts.length) = some 1 := by decide +kernel

/-! ## Host registers and packets -/

/-- A packet from fields: byte offset, byte count, value. -/
def packet (l : List (Nat × Nat × Nat)) : BitVec 512 := BitVec.ofNat 512 (l.map fun e => e.2.2 % 2 ^ (8 * e.2.1) * 2 ^ (8 * e.1)).sum

/-- Queue 0 with the packet in its last step; queue 1 is idle. -/
def taking (p : BitVec 512) : State :=
  ((base n6).setQueue 0 { st := .active, en := true, tail := 1, cur := some { pkt := p, index := 0, stepsLeft := 1 } }).setQueue 1 { st := .idle, en := true }

/-- An image of 140 bytes with one packet of code, its CRC-32 computed outside, and a descriptor of 512 bytes that names it, in the firmware tensor (R56, R64). -/
def firmware (o : Nat) : Nat := 0xFFFFF * 2 ^ 44 + o
def launchable (s : State) : State :=
  let put := fun (s : State) (e : Nat × Nat × Nat) => s.wr (ringPA e.1) e.2.2 e.2.1
  ([(0x101000, 4, 0x01494B55), (0x101004, 2, 1), (0x101006, 2, 128), (0x101008, 8, 5), (0x101014, 4, 0x00080820), (0x101018, 4, 128), (0x10101C, 4, 12), (0x10102B, 1, 1), (0x101040, 4, 140),
    (0x101044, 4, 0xef30b3af), (0x101080, 4, 0x04120000), (0x101084, 4, 0x1E000000), (0x101088, 4, 0x1E000000), (0x100008, 8, firmware 0x101000), (0x100020, 8, 99)] : List (Nat × Nat × Nat)).foldl put s

/-- A module whose one core has no node. -/
def vacant : State := { State.reset with cores := [{ core with slots := #v[0, 0, 0, 0], current := 0, lastSlot := 3 }], svc := { State.reset.svc with phase := 3 } }

/-- The launch of the node at its last step in queue 0. -/
def nodePacket : BitVec 512 := packet [(0, 1, 2), (0x10, 8, firmware 0x100000)]
def launching : State := launchable (vacant.setQueue 0 { st := .active, en := true, tail := 1, cur := some { pkt := nodePacket, index := 0, stepsLeft := 1 } })

/-- The launch makes one node READY with its arguments (R66, R393), and a copy of it with a spoilt image is refused with code 0x10. -/
theorem test_launch : ((after (.launchNode (.queue 0) nodePacket) launching).map fun t => (t.nodes.map fun n => (n.run.st, n.desc.args.headD 0), (t.queue 0).awaiting.map (·.graph), (t.queue 0).head)) =
      some ([(.ready, 99)], [1], 1) ∧
    (match (launching.launch 0 true (firmware 0x100000) 1 true 0 0 none 0).2 with | .graph g => g | _ => 0) = 1 ∧
    (match ((launching.wr (ringPA 0x101080) 0 4).launch 0 true (firmware 0x100000) 1 true 0 0 none 0).2 with | .refuse c _ => c | _ => 0) = 0x10 ∧
    (match (launching.launch 0 true (2 ^ 44) 1 true 0 0 none 0).2 with | .xlate => true | _ => false) = true := by decide +kernel

/-- A graph of one node launches the same way (R67). -/
theorem test_graph_launch : ((after (.launchGraph (.queue 0) (packet [(0, 1, 1), (0x10, 8, firmware 0x100000), (0x18, 4, 1)]))
    (launching.setQueue 0 { st := .active, en := true, tail := 1, cur := some { pkt := packet [(0, 1, 1), (0x10, 8, firmware 0x100000), (0x18, 4, 1)], index := 0, stepsLeft := 1 } })).map
      fun t => (t.nodes.map fun n => n.run.st, (t.queue 0).awaiting.length)) = some ([.ready], 1) := by decide +kernel

/-- What a packet of queue 0 leads to: the queue's head, its state, its error status, packets that wait, and bytes 0 and 8 of tensor 1. -/
structure Outcome where
  head : BitVec 32
  st : QState
  status : BitVec 16
  waiting : Nat
  bytes : List Byte
deriving DecidableEq, Repr

def took (row : BitVec 512 → Instr) (p : BitVec 512) (f : State → State) : Option Outcome :=
  (after (row p) (f (taking p))).map fun t => { head := (t.queue 0).head, st := (t.queue 0).st, status := (t.queue 0).status, waiting := (t.queue 0).awaiting.length,
                                                bytes := [t.byte (ringPA 0x8000000), t.byte (ringPA 0x8000008)] }

def linked (c : BitVec 16) (s : State) : State := { s with awl := { s.awl with links := s.awl.links.setIfInBounds 4 { en := true, count := c, cons := 0, prod := 0 } } }

/-- Writes and signals of the Awl, and the errors of an address that does not translate and of an atomic off its alignment (R80, R81, R79). -/
theorem test_packets_of_the_awl :
    took (.write (.queue 0)) (packet [(0, 1, 3), (0x10, 8, 2 ^ 44), (0x18, 1, 4), (0x20, 4, 0x55)]) mapped = some ⟨1, .idle, 0, 0, [0x55, 0]⟩ ∧
    took (.write (.queue 0)) (packet [(0, 1, 3), (0x10, 8, 2 ^ 45), (0x18, 1, 4), (0x20, 4, 0x55)]) mapped = some ⟨0, .error, 6, 0, [0, 0]⟩ ∧
    took (.copy (.queue 0)) (packet [(0, 1, 8), (0x10, 8, 2 ^ 44), (0x18, 8, 2 ^ 44 + 8), (0x20, 4, 4)]) (fun s => (mapped s).wr (ringPA 0x8000000) 9 4) = some ⟨1, .idle, 0, 0, [9, 9]⟩ ∧
    (took (.writeSignal (.queue 0)) (packet [(0, 1, 5), (0x10, 8, 2 ^ 44), (0x18, 1, 4), (0x20, 4, 0x55), (0x30, 8, 2 ^ 44 + 8), (0x38, 8, 3)]) mapped).isSome = true ∧
    (took (.signal (.queue 0)) (packet [(0, 1, 4), (0x10, 8, 2 ^ 44), (0x18, 8, 3)]) mapped).isSome = true := by decide +kernel
/-- Tokens (R86, R87): given up to 65,535, waited for, and errors on a link that is not this queue's. -/
theorem test_token_packets : took (.tokenGive (.queue 0)) (packet [(0, 1, 6), (0x10, 1, 4), (0x12, 2, 5)]) (linked 65530) = some ⟨1, .idle, 0, 0, [0, 0]⟩ ∧
    took (.tokenGive (.queue 0)) (packet [(0, 1, 6), (0x10, 1, 4), (0x12, 2, 6)]) (linked 65530) = some ⟨0, .error, 5, 0, [0, 0]⟩ ∧
    took (.tokenGive (.queue 0)) (packet [(0, 1, 6), (0x10, 1, 5), (0x12, 2, 6)]) (linked 0) = some ⟨0, .error, 4, 0, [0, 0]⟩ ∧
    took (.tokenWait (.queue 0)) (packet [(0, 1, 7), (0x10, 1, 4), (0x12, 2, 5)]) (linked 5) = some ⟨1, .idle, 0, 0, [0, 0]⟩ ∧
    took (.tokenWait (.queue 0)) (packet [(0, 1, 7), (0x10, 1, 4), (0x12, 2, 5)]) (linked 4) = some ⟨0, .waiting, 0, 0, [0, 0]⟩ := by decide +kernel
/-- FENCE, SLICE, a reset of another queue and one of a disabled queue (R80, R82, R86, R393). -/
theorem test_queue_packets : took (.fencePacket (.queue 0)) (packet [(0, 1, 9)]) id = some ⟨1, .idle, 0, 0, [0, 0]⟩ ∧
    took (.slice (.queue 0)) (packet [(0, 1, 11), (0x10, 1, 1), (0x11, 1, 2), (0x12, 2, 7)]) id = some ⟨1, .idle, 0, 0, [0, 0]⟩ ∧
    took (.qreset (.queue 0)) (packet [(0, 1, 10), (0x10, 1, 1)]) id = some ⟨0, .active, 0, 0, [0, 0]⟩ ∧
    took (.qreset (.queue 0)) (packet [(0, 1, 10), (0x10, 1, 2)]) id = some ⟨0, .error, 3, 0, [0, 0]⟩ := by decide +kernel
/-- Each packet is at its last step in queue 0, and a row whose packet is not there does not happen (R78). -/
theorem witness_HostPackets : let p := packet [(0, 1, 9)]
    ((taking p).queue 0).cur = some { pkt := p, index := 0, stepsLeft := 1 } ∧ pk p 0 1 = 9 ∧ faultOf (.fencePacket (.queue 0) p) (taking (packet [(0, 1, 11)])) = some (.notEnabled "FENCE_PACKET") ∧
    (linked 65530 (taking p)).awl.links[4]? = some { en := true, count := 65530, cons := 0, prod := 0 } := by decide +kernel
/-- Packets of the inbox on behalf of node 1: performed, discarded with a stale generation, and failures of the node (R88, R108, R109). -/
def asking (p : BitVec 512) : State := { mapped (base n6) with awl := { (base n6).awl with inbox := [.packet 1 0 p], links := (linked 0 (base n6)).awl.links } }
theorem witness_inbox : let give := packet [(0, 1, 6), (0x10, 1, 4), (0x12, 2, 5)]
    let stale := packet [(0, 1, 6), (4, 2, 1), (0x10, 1, 4), (0x12, 2, 5)]
    pk give 4 2 = ((asking give).queue 0).gen.toNat ∧ pk give 1 1 = 0 ∧ packetError give = none ∧ pk stale 4 2 ≠ ((asking stale).queue 0).gen.toNat ∧ (packetError (packet [(0, 1, 9), (0x11, 1, 9)])).isSome = true ∧
    ((after (.tokenGive (.inbox 1) give) (asking give)).map fun t => (t.awl.links[4].count, t.awl.inbox.length)) = some (5, 0) ∧
    ((after (.tokenGive (.inbox 1) stale) (asking stale)).map fun t => (t.awl.links[4].count, (t.queue 0).discarded)) = some (0, 1) ∧
    ((after (.fencePacket (.inbox 1) (packet [(0, 1, 9), (6, 2, 0x8005)])) (asking (packet [(0, 1, 9), (6, 2, 0x8005)]))).map fun t => t.awl.posts.map (·.jcb)) = some [5] := by decide +kernel

/-! ## Host registers, service packets and the Awl -/

def enabled : Queue := { st := .idle, en := true }

/-- Queue 0 in each state that a register write asks for (R74 to R76, R82). -/
theorem witness_HostRegisterWrites : let at_ := fun (x : Queue) => (base n5).setQueue 0 x
    ((base n5).queue 0).st = .disabled ∧ (base n5).awl.slots.contains 0 = true ∧ ({ enabled with tail := 16 } : Queue).pending ≤ enabled.ring ∧ enabled.ring < ({ enabled with tail := 17 } : Queue).pending ∧
    ((after (.qtailWrite 0 16) (at_ enabled)).map fun t => ((t.queue 0).tail, (t.queue 0).st)) = some (16, .active) ∧ ((after (.qtailWrite 0 17) (at_ enabled)).map fun t => ((t.queue 0).st, (t.queue 0).status)) = some (.error, 3) ∧
    ((after (.qtailWrite 0 17) (at_ { enabled with st := .active, cur := some { pkt := 0, index := 0, stepsLeft := 2 } })).map fun t => ((t.queue 0).st, (t.queue 0).tailError)) = some (.active, true) ∧
    ((after (.queueEnable 0 (BitVec.ofNat 64 (2 ^ 32 * 9 + 2 ^ 24 * 2 + 5 * 2 ^ 16 + 1))) (base n5)).map fun t => ((t.queue 0).slice, (t.queue 0).prio, (t.queue 0).logsize, (t.queue 0).st)) = some (9, 2, 5, .idle) := by decide +kernel
theorem witness_queue_control : let at_ := fun (x : Queue) => (base n5).setQueue 0 x
    let same : Word := BitVec.ofNat 64 (4 * 2 ^ 16)
    ((after (.queueEnable 0 (same + 1)) (at_ { enabled with heldClear := true })).map fun t => (t.queue 0).heldClear) = some false ∧
    ((after (.queueDisable 0 same) (at_ enabled)).map fun t => (t.queue 0).st) = some .disabled ∧ ((after (.queueDisable 0 same) (at_ { enabled with st := .waiting })).map fun t => ((t.queue 0).st, (t.queue 0).heldClear)) = some (.waiting, true) ∧
    ((after (.queueDisable 0 0x60000) (at_ enabled)).map fun t => (t.queue 0).st) = some .idle ∧ ((after (.qctlRst 0 1) (at_ enabled)).map fun t => (t.queue 0).st) = some .resetting ∧
    ((after (.qctlRst 0 0) (at_ enabled)).map fun t => (t.queue 0).st) = some .idle := by decide +kernel
/-- The tables of the Awl: a link, the slot table with every queue disabled and with one that is not, flips, a register, the end of a slice (R82, R83, R86, R89). -/
theorem test_awl_registers : ((after (.tlinkWrite 4 (BitVec.ofNat 64 (2 ^ 32 + 3 * 256 + 2))) (base n5)).map fun t => t.awl.links[4]) = some { en := true, count := 0, cons := 3, prod := 2 } ∧
    ((after (.excommit 0) { base n5 with awl := { (base n5).awl with exslot := [0x40, 0x41, 0x42, 0xFF] } }).map fun t => t.awl.slots.length) = some 4 ∧
    ((after (.excommit 0) ({ base n5 with awl := { (base n5).awl with exslot := [0x40, 0x41, 0x42, 0xFF] } }.setQueue 9 enabled)).map fun t => t.awl.slots.length) = some 128 ∧
    ((after (.excommit 0) { base n5 with awl := { (base n5).awl with exslot := [0x40, 0x41, 0x43] } }).map fun t => t.awl.slots.length) = some 128 ∧
    ((after (.flipreqAck (BitVec.ofNat 64 (2 ^ 63 + 5))) (base n5)).map fun t => t.awl.flips) = some [{ frame := 5, ack := true }] ∧
    ((after (.flipreqToHost 5) (base n5)).map fun t => t.awl.flips) = some [{ frame := 5, ack := false }] ∧
    ((after (.registerWrite 0x1000 { size := 8, value := 0x12345 }) (base n5)).map fun t => (t.queue 1).qbase) = some 0x12340 ∧ ((after (.registerWrite 0x1008 { size := 8, value := 0x12345 }) (base n5)).map fun t => (t.queue 1).qcbase) = some 0x12340 ∧
    ((after (.sliceExpiry 2) ({ base n5 with awl := { (base n5).awl with holder := (base n5).awl.holder.setIfInBounds 2 (some 0) } }.setQueue 0
      { enabled with st := .active, cur := some { pkt := 0, index := 0, stepsLeft := 2 } })).map fun t => (t.queue 0).sliceEnd) = some true := by decide +kernel

/-- Four cores of rows 0 and 1 without nodes, as bring-up leaves them, and a packet of queue 0. -/
def rows (p : BitVec 512) : State :=
  let c := fun (i x y : Nat) => ({ idx := i, state := .active, siteX := x, halves := [{ y := y, x := x, half := 0 }, { y := y, x := x, half := 1 }] } : Core)
  { taking p with cur := Node.none, cores := [c 0 0 0, c 1 1 0, c 16 0 1, c 17 1 1] }
def served (row : BitVec 512 → Instr) (p : BitVec 512) (f : State → State) : Option (BitVec 32 × List Nat) :=
  (after (row p) (f (rows p))).map fun t => ((t.queue 0).head, t.dist.jobs.map fun j => j.cores.length)

/-- A gang of two, its refusals, the limits of the reserve, a rebinding, a retirement (R102, R105 to R107, R363, R365). -/
theorem test_binding_packets : served (.bindGang (.queue 0)) (packet [(0, 1, 12), (0x12, 2, 0), (0x14, 1, 2)]) id = some (0, [2]) ∧
    served (.bindGang (.queue 0)) (packet [(0, 1, 12), (0x12, 2, 5), (0x14, 1, 2)]) id = some (1, []) ∧ served (.bindDissolve (.queue 0)) (packet [(0, 1, 12), (0x10, 1, 1)]) id = some (1, []) ∧
    served (.repairRetireCore (.queue 0)) (packet [(0, 1, 13), (0x10, 1, 3)]) id = some (0, [1]) ∧ served (.repairRetireCore (.queue 0)) (packet [(0, 1, 13), (0x10, 1, 3), (0x12, 2, 9)]) id = some (1, []) ∧
    (served (.repairRebindHalf (.queue 0)) (packet [(0, 1, 13), (0x1D, 1, 9)]) id).map (·.2) = some [0] ∧ served (.repairRebindHalf (.queue 0)) (packet [(0, 1, 13), (0x12, 2, 9)]) id = some (1, []) := by decide +kernel
theorem test_dissolve_packet : let p := packet [(0, 1, 12), (0x10, 1, 1)]
    ((after (.bindDissolve (.queue 0) p) ((rows p).setCore { (rows p).core 0 with gang := 1, before := [(0, []), (16, [])] })).map fun t => t.dist.jobs.map fun j => j.cores) = some [[0, 16]] := by decide +kernel
theorem test_reserve_packet : let p := packet [(0, 1, 12), (0x10, 1, 2), (0x15, 1, 2), (0x16, 1, 3), (0x17, 1, 9)]
    ((after (.bindReserve (.queue 0) p) (rows p)).map fun t => (t.dist.reserve[1].nmin, t.dist.reserve[1].nmax, t.dist.reserve[0].nmin)) = some (3, 9, 8) := by decide +kernel
/-- Repairs that take effect at once, and an attestation that goes to housekeeping (R90, R366 to R368, R370). -/
theorem test_repair_packets : let row := packet [(0, 1, 13), (0x10, 1, 1), (0x16, 2, 7), (0x18, 4, 5), (0x1C, 1, 3)]
    let lane := packet [(0, 1, 13), (0x10, 1, 2), (0x14, 1, 3), (0x15, 1, 2)]
    let scan := packet [(0, 1, 13), (0x10, 1, 4), (0x18, 4, 1200)]
    ((after (.repairDramRow (.queue 0) row) (rows row)).map fun t => t.svc.remap) = some [{ chan := 7, bank := 3, row := 5, spare := 0 }] ∧
    ((after (.repairSpareLane (.queue 0) lane) (rows lane)).map fun t => (t.svc.ports[3].spareUsed, t.svc.ports[3].retraining)) = some (true, true) ∧
    ((after (.repairScan (.queue 0) scan) (rows scan)).map fun t => t.svc.powerLimit) = some 1200 := by decide +kernel
theorem test_attest_packets : let quote := packet [(0, 1, 14), (0x18, 8, firmware 0x60000), (0x20, 8, firmware 0x60000)]
    let patch := packet [(0, 1, 14), (0x10, 1, 1), (0x18, 8, firmware 0x60000), (0x28, 4, 8)]
    ((after (.attestPatch (.queue 0) patch) (rows patch)).map fun t => (t.awl.sigWork.map (·.input), (t.queue 0).cur.map (·.waiting))) = some ([List.replicate 8 0], some true) ∧ ((rows quote).awlPA 0 true (firmware 0x60000) true).isSome = true ∧
    (rows quote).atLastStep 0 0 quote 14 (some 0) := by
  refine ⟨by decide +kernel, by decide +kernel, by decide +kernel, ⟨_, rfl, rfl, rfl, rfl⟩, by decide +kernel, ?_⟩
  rintro k h
  cases h
  decide +kernel

/-- The checks of the service packets, met and not met (R105 to R107, R363 to R368). -/
theorem witness_ServicePackets_bind : let s := rows (packet [(0, 1, 12)])
    okOf (s.gangCheck 0 2) = some [0, 16] ∧ errOf (s.gangCheck 5 2) = some 0x50 ∧ errOf (s.dissolveCheck 0) = some 0x53 ∧
    okOf ((s.setCore { s.core 0 with gang := 1, before := [(0, []), (16, [])] }).dissolveCheck 0) = some [0, 16] ∧ (okOf (s.rebindCheck 0 9 0)).map (fun e => (e.1, e.2.1, e.2.2.length)) = some (0, 0, 0) ∧ errOf (s.rebindCheck 9 0 0) = some 0x60 := by decide +kernel
theorem witness_ServicePackets_repair : let s := rows (packet [(0, 1, 13)])
    s.repairRoom 7 = true ∧ ({ s with svc := { s.svc with remap := List.replicate 32 { chan := 7, bank := 0, row := 0, spare := 0 } } } : State).repairRoom 7 = false ∧
    (s.port 3).retraining = false ∧ (s.port 3).degraded = false ∧ (s.port 3).spareUsed = false ∧ s.jobOn [0] = false ∧ s.recordFits 0 0 = true ∧ s.recordFits 0 (2 ^ 45) = false ∧
    (s.awlPA 0 true (2 ^ 45) true).isSome = false := by decide +kernel
/-- Signature work: a quote whose nonce is readable, a patch, and none (R90, R370). -/
theorem witness_signature : let w : SigWork := { queue := 0, index := 0, pkt := packet [(0, 1, 14), (0x10, 1, 1), (0x18, 8, firmware 0x60000), (0x28, 4, 8)], input := [0, 0, 0, 0, 0, 0, 0, 0] }
    pk w.pkt 0x10 1 ≠ 0 ∧ faultOf .signatureDone (base n5) = some (.notEnabled "SIGNATURE_DONE") ∧ ((base n5).awlRead 0 true (firmware 0x60000) 32).isSome = true ∧
    ((base n5).awlRead 0 true (2 ^ 45) 32).isSome = false := by decide +kernel

/-! ## Events of the Awl and the distributor -/

def woken (n : Node) : State := base n

/-- A slot of the Awl, a packet whose graph has ended and one whose graph runs, a reset that ends, an outbox packet, a generation change, a flip (R78, R83, R87, R89, R108, R264). -/
theorem test_awl_events : ((after .awlSlot (base n5)).map fun t => t.awl.slotNo) = some 1 ∧ faultOf .awlSlot State.reset = some (.notEnabled "AWL_SLOT") ∧
    ((after (.packetComplete 0 3) ((base n5).setQueue 0 { enabled with awaiting := [{ index := 3, pkt := 0, graph := 9 }] })).map fun t => (t.queue 0).awaiting.length) = some 0 ∧
    faultOf (.packetComplete 0 3) (({ base { n5 with desc := { n5.desc with graph := 9 } } with awl := { (base n5).awl with graphs := [{ id := 9, queue := 0, jcb := none, count := 1, failed := none, live := [] }] } } : State).setQueue 0
      { enabled with awaiting := [{ index := 3, pkt := 0, graph := 9 }] }) = some (.notEnabled "PACKET_COMPLETE") ∧
    ((after (.qresetAcksDone 0) ((base n5).setQueue 0 { enabled with st := .resetting, newhead := 7, tail := 7, jcbs := [5] })).map fun t => ((t.queue 0).st, (t.queue 0).head, t.jcbState 5)) = some (.idle, 7, 2) ∧
    faultOf (.qresetAcksDone 0) (base n5) = some (.notEnabled "QRESET_ACKS_DONE") := by decide +kernel
theorem test_awl_queues : ((after (.enqOutboxAccept 0) { base n5 with cores := [{ core with outbox := [(1, 5)] }] }).map fun t => (t.awl.inbox, (t.core 0).outbox)) = some ([.packet 1 0 5], []) ∧
    faultOf (.enqOutboxAccept 0) (base n5) = some (.notEnabled "ENQ_OUTBOX_ACCEPT") ∧
    ((after (.asgenChangeDone 4) { base n5 with awl := { (base n5).awl with asChange := [(4, 1, 0, 3)] } }).map fun t => t.awl.asChange.length) = some 0 ∧
    faultOf (.asgenChangeDone 4) (base n5) = some (.notEnabled "ASGEN_CHANGE_DONE") ∧
    ((after .flipDrainDone { base n5 with awl := { (base n5).awl with flipNow := some { frame := 6, ack := true } } }).map fun t => (t.awl.flipDone, t.awl.flipFrame)) = some (true, 6) ∧
    faultOf .flipDrainDone (base n5) = some (.notEnabled "FLIP_DRAIN_DONE") := by decide +kernel
/-- A mailbox of 4 records in host memory, with room and full (R262); a damaged table entry with a good shadow copy and with none (R266). -/
def mailing (head tail : Nat) : State :=
  { (((base n5).wr (ringPA 8) (hostPA 64) 8).wr (ringPA 0x14) head 4).wr (ringPA 0x18) tail 4 with
    awl := { (base n5).awl with mail := [{ kind := 2, space := 0, tid := 9, k := 1, hframe := 0 }] } }
theorem test_mailbox : ((after .mailboxRecordWrite ((mailing 0 0).wr (ringPA 16) 2 1)).map fun t => (t.rd (hostPA 64) 1, t.rd (hostPA 68) 4, t.rd (ringPA 0x14) 4, t.awl.msix)) = some (2, 9, 1, [64]) ∧
    faultOf .mailboxRecordWrite ((mailing 4 0).wr (ringPA 16) 2 1) = some (.notEnabled "MAILBOX_RECORD_WRITE") := by decide +kernel
def damaged : State :=
  let t := mapped (base n5)
  { ((t.wr (spacePA 0 + 16) (ringPA 0x200000) 8).wr (spacePA 0 + 24) 4096 8).wr (spacePA 0 + 32) (ringPA 0x300000) 8 with poison := [ringPA 0x200010], awl := { t.awl with poisonedEntries := [(0, ringPA 0x200010)] } }
theorem test_entry_rebuild : ((after (.entryRebuild 0 (BitVec.ofNat 64 (ringPA 0x200010))) (damaged.wr (hostPA 0x300010) 77 8)).map fun t => (t.rd (ringPA 0x200010) 8, t.awl.mail.map (·.kind), t.poisoned (ringPA 0x200010))) = some (77, [3], false) ∧
    ((after (.entryRebuild 0 (BitVec.ofNat 64 (ringPA 0x200010))) { damaged with poison := [ringPA 0x200010, hostPA 0x300010] }).map fun t => t.awl.mail.map (·.kind)) = some [4] ∧
    faultOf (.entryRebuild 0 (BitVec.ofNat 64 (ringPA 0x200020))) damaged = some (.notEnabled "ENTRY_REBUILD") := by decide +kernel

/-- A node READY beside a core with room, one beside a full core whose resident node has a lower PRIO, and none (R91 to R99). -/
def waitingNode (u : Nat) (q : BitVec 6) : Node := { n5 with desc := { n5.desc with uid := u, queue := q }, run := { n5.run with st := .ready } }
theorem test_placement : ((after .distributorPlace { vacant with nodes := [waitingNode 1 0] }).map fun t => (t.nodes.map fun n => n.run.st, (t.core 0).slots.toList)) = some ([.placed], [1, 0, 0, 0]) ∧
    faultOf .distributorPlace vacant = some (.notEnabled "DISTRIBUTOR_PLACE") ∧
    faultOf .distributorPlace { vacant with nodes := [waitingNode 1 0], dist := { vacant.dist with deferred := true } } = some (.notEnabled "DISTRIBUTOR_PLACE") := by decide +kernel
theorem test_preemption_request : let s := ({ base n5 with nodes := [waitingNode 2 1], cores := [core.allot 1 48] } : State).setQueue 1 { enabled with prio := 3 }
    s.offered (s.node 2) = true ∧ s.coreFor (s.node 2) = none ∧ (latestBy s.key (s.victims (s.node 2))).map (fun n => n.desc.uid) = some 1 ∧
    ((after (.preemptWaitExpiry 2) s).map fun t => (t.node 1).run.preempt) = some true ∧ faultOf (.preemptWaitExpiry 1) s = some (.notEnabled "PREEMPT_WAIT_EXPIRY") ∧
    latestBy s.key ({ base n5 with nodes := [waitingNode 2 1] } : State).allNodes ≠ none := by decide +kernel
theorem test_reserve_change : ((after (.reserveChangeDone 0) { vacant with cores := [{ core with slots := #v[0, 0, 0, 0], current := 0, join := true }] }).map fun t => ((t.core 0).rsv, (t.core 0).join)) = some (true, false) ∧
    ((after (.reserveChangeDone 0) { vacant with cores := [{ core with slots := #v[0, 0, 0, 0], current := 0, rsv := true, join := true, leaving := true }] }).map fun t => ((t.core 0).rsv, (t.core 0).leaving)) = some (false, false) ∧
    faultOf (.reserveChangeDone 0) vacant = some (.notEnabled "RESERVE_CHANGE_DONE") ∧ faultOf (.reserveChangeDone 0) { base n5 with cores := [{ core with join := true }] } = some (.notEnabled "RESERVE_CHANGE_DONE") := by decide +kernel
theorem test_segment_copy : let s := { mapped (base { overlay n5 with desc := { (overlay n5).desc with image := { (overlay n5).desc.image with addr := BitVec.ofNat 64 (2 ^ 44) } } }) with
      cores := [{ core with imem := [{ imgid := 0, space := 0, ovl := true, size := 1, launched := 1, segs := [], half0 := some 0, half1 := none, copying := some (1, true) }] }] }
    ((after (.segmentCopyDone 0) s).map fun t => (t.core 0).imem.map fun r => (r.half0, r.half1, r.copying)) = some [(some 0, some 1, none)] ∧
    faultOf (.segmentCopyDone 0) (base n5) = some (.notEnabled "SEGMENT_COPY_DONE") := by decide +kernel
/-- A pre-emption is taken, and then the node is saved (R352 to R355). -/
theorem test_save : let s := base { n5 with run := { n5.run with preempt := true } }
    let t := (after (.preemptQuiesce 1 (0, 0)) s).getD s
    t.cur.run.quiesced = true ∧ t.cur.run.saveArea.isSome = true ∧ faultOf (.preemptQuiesce 1 (0, 0)) (base n5) = some (.notEnabled "PREEMPT_QUIESCE") ∧
    faultOf (.nodeSave 1) s = some (.notEnabled "NODE_SAVE") := by decide +kernel
theorem test_node_save : ((after (.nodeSave 1) (base { n5 with run := { n5.run with quiesced := true, saveArea := some (0xFC0000, 4) } })).map fun t => (t.node 1).run.st) = some .saved := by decide +kernel

/-- The reserve (R101) at its thresholds: above 40,960 N twice, below 10,240 N four times, below NMIN, above NMAX, and unchanged. -/
theorem test_reserve_decisions : (({ n := 8, up := 1, samples := [327681] } : Reserve).decide).n = 10 ∧ (({ n := 8, up := 1, samples := [327680] } : Reserve).decide).n = 8 ∧
    (({ n := 10, dn := 3, samples := [102399] } : Reserve).decide).n = 8 ∧ (({ n := 10, dn := 3, samples := [102400] } : Reserve).decide).n = 10 ∧ (({ n := 4 } : Reserve).decide).n = 6 ∧
    (({ n := 34 } : Reserve).decide).n = 32 ∧ (({ n := 8, up := 1, cool := 3, last := 2, samples := [327681] } : Reserve).decide).n = 8 ∧
    ((after .reserveSample (base n5)).map fun t => t.dist.reserve[0].samples.length) = some 1 ∧ (after .reserveDecision (base n5)).isSome = true := by decide +kernel

/-! ## Events of nodes, blocks and links -/

def retiring (n : Node) : Node := { n with run := { n.run with st := .retiring } }

/-- A node that retires and has drained commits: its staged bytes reach memory (R70, R360); a pending guard touch fails it, a stale generation stops it. -/
theorem test_commit : let n := retiring { n6 with run := { n6.run with staged := { cells := [(ringPA 0x8000000, 7)] } } }
    ((after (.nodeCommit 1) (mapped (base n))).map fun t => ((t.node 1).run.st, t.byte (ringPA 0x8000000))) = some (.committed, 7) ∧
    faultOf (.nodeCommit 1) (mapped (base n6)) = some (.notEnabled "NODE_COMMIT") ∧
    ((after (.nodeCommit 1) (mapped (base { n with ctl := { n.ctl with guard := some { entry := 0, half := 0, unit := 0, off := 0, addr := none, more := 0 } } }))).map fun t => (t.node 1).run.st) = some .failed ∧
    ((after (.nodeCommit 1) (mapped (base { n with run := { n.run with qgen := 1 } }))).map fun t => (t.node 1).run.st) = some .ready := by decide +kernel
/-- A scale register with a home record that does not translate stops the commit too (R70, R360). -/
theorem witness_NodesCommit : let n := retiring { n6 with desc := { n6.desc with handles := [handle 1 1 0 256 4], srecs := [BitVec.ofNat 64 (2 * 2 ^ 44)], image := { n6.desc.image with opnds := [{ fwd := false, mode := 2, rank := 2, fmt := 1 }] } } }
    n.run.st = .retiring ∧ n.run.quiesced = false ∧ n.drained = true ∧ n.run.pendingRaise = [] ∧ n.ctl.guard = none ∧ (mapped (base n)).stale n = false ∧ n.run.partner = 0 ∧
    (okOf ((mapped (base n6)).mergePlaces n6 (mergeList n6 n6.closeAll))).isSome = true := by decide +kernel
/-- A pair that has drained (R126): the producer's members, its splice in DRAIN, and both checks passed. -/
def drainedPair : State :=
  let p := retiring { n5 with run := { n5.run with partner := 2 } }
  let c := retiring { n5 with desc := { n5.desc with uid := 2 }, run := { n5.run with partner := 1 } }
  { base p with nodes := [c], cores := [{ core with slots := #v[1, 2, 0, 0], pairs := [{ st := .drain, p := 1, c := 2 }] }] }
theorem witness_pair_commits : drainedPair.pairDrained (drainedPair.node 1) = true ∧ (drainedPair.commitStop 2).isSome = false ∧
    ((after (.nodeCommit 1) drainedPair).map fun t => ((t.node 1).run.st, (t.node 2).run.partner)) = some (.committed, 0) := by decide +kernel

/-- Engines (R279, R280, R229): the head of a slot completes, an armed copy fires at its threshold and not below it, an EPI.ADD completes. -/
theorem test_engine_events : let n := { copying n5 with eng := { ca := [{ cmdOf 0 with kind := .cpyf, hS := 0 }] } }
    let a := fun (k : BitVec 32) => base { copying n5 with eng := { caArmed := [{ cmdOf (BitVec.ofNat 64 (2 ^ 32 * 3 + 5)) with fired := 5 ≤ k }] }, regs := { n5.regs with c := n5.regs.c.setIfInBounds 3 k } }
    ((after (.copyComplete 1 .ca) (base n)).map fun t => t.cur.eng.ca.length) = some 0 ∧ faultOf (.copyComplete 1 .cb) (base n) = some (.notEnabled "COPY_COMPLETE") ∧
    ((after (.cpyqFire 1 .ca 0) (a 5)).map fun t => (t.cur.eng.ca.length, t.cur.eng.caArmed.length)) = some (1, 0) ∧ faultOf (.cpyqFire 1 .ca 0) (a 4) = some (.notEnabled "CPYQ_FIRE") ∧
    ((after (.epiAddComplete 1) (base { n3 with eng := { epi := [.add { h := n3.regs.h[3], vals := [{ v := 5, clamp := false, poison := false }], sticky := false, win := 0 }] } })).map fun t => t.cur.eng.epi.length) = some 0 ∧
    faultOf (.epiAddComplete 1) (base n5) = some (.notEnabled "EPI_ADD_COMPLETE") := by decide +kernel
/-- Waits end when their condition holds (R305 to R307, R325), and a close takes effect (R42). -/
theorem test_wait_events : let w := fun (x : Wait) (k : BitVec 32) => base { n5 with ctl := { n5.ctl with waits := [x] }, regs := { n5.regs with c := n5.regs.c.setIfInBounds 3 k } }
    ((after (.waitSatisfied 1) (w (.barb 3 5) 7)).map fun t => (t.cur.ctl.waits, t.cur.regs.c[3])) = some ([], 2) ∧ ((after (.waitSatisfied 1) (w (.cwait 3 5) 5)).map fun t => t.cur.regs.c[3]) = some 5 ∧
    faultOf (.waitSatisfied 1) (w (.cwait 3 5) 4) = some (.notEnabled "WAIT_SATISFIED") ∧ ((after (.barRelease 1) (w (.bar 15) 0)).map fun t => t.cur.ctl.waits) = some [] ∧
    faultOf (.barRelease 1) (base n5) = some (.notEnabled "BAR_RELEASE") ∧ ((after (.idleEnd 1) (w .idle 0)).map fun t => t.cur.ctl.waits) = some [] ∧ faultOf (.idleEnd 1) (base n5) = some (.notEnabled "IDLE_END") := by decide +kernel
theorem test_census_close : ((after (.censusClose 1 3) (base { n5 with ctl := { n5.ctl with cwaiting := [3] } })).map fun t => (t.cur.regs.closed[3], t.cur.ctl.cwaiting)) = some (1, []) ∧
    faultOf (.censusClose 1 3) (base n5) = some (.notEnabled "CENSUS_CLOSE") := by decide +kernel
/-- A delayed trap that is due is taken at a boundary, and else the user-level handler is entered (R285, R349); a consumed error rolls a node back (R357). -/
theorem test_boundary_events : let due := base { n5 with ctl := { n5.ctl with trap := { n5.ctl.trap with en := true }, flight := [{ dist := 0, eff := .trap 0x10 1 24 7 }] } }
    let user := base { n5 with desc := { n5.desc with image := { n5.desc.image with uivec := 0x120 } }, ctl := { n5.ctl with ui := { n5.ctl.ui with recs := [(0, 5)] } } }
    ((after (.trapEntry 0) due).map fun t => (t.cur.ctl.trap.cause, t.cur.ctl.trap.dly)) = some (0x10, true) ∧ faultOf (.trapEntry 0) (base n5) = some (.notEnabled "TRAP_ENTRY") ∧
    ((after (.userInterruptEntry 0) user).map fun t => (t.cur.ctl.pc, t.cur.ctl.ui.act, t.cur.ctl.ui.cnt)) = some (0x120, true, 5) ∧ faultOf (.userInterruptEntry 0) (base n5) = some (.notEnabled "USER_INTERRUPT_ENTRY") ∧
    ((after (.errorConsumed 1) (base n5)).map fun t => (t.node 1).run.st) = some .ready ∧ faultOf (.errorConsumed 2) (base n5) = some (.notEnabled "ERROR_CONSUMED") := by decide +kernel

/-- Block 5 with EXPECTED 1 and DONE 0 (R71): a raise, one after the node's own completion, one above 2^32, the last completion, one more, and a failure. -/
def raising (posted : Bool) (n : Word) (e : Nat) : State :=
  (base { withJcb n5 with run := { n5.run with pendingRaise := [{ id := 1, n := n, posted := posted, ans := none }] }, ctl := { n5.ctl with flight := [{ dist := 3, eff := .pAnswer 1 3 none }] } }).wr (jcbPA 5) e 4
def posting (d : Nat) (fail : Option (BitVec 20 × BitVec 32)) : State :=
  let s := ((base (withJcb n5)).wr (jcbPA 5) 1 4).wr (jcbPA 5 + 4) d 4
  { s with awl := { s.awl with posts := [{ uid := 1, queue := 0, jcb := 5, fail := fail }] } }
theorem test_home_raise : ((after (.jcbHomeRaise 1) (raising false 2 1)).map fun t => (t.rd (jcbPA 5) 4, t.rd (jcbPA 5 + 8) 4, t.cur.run.pendingRaise.map (·.ans))) = some (3, 0, [some true]) ∧
    ((after (.jcbHomeRaise 1) (raising true 2 1)).map fun t => (t.rd (jcbPA 5) 4, t.rd (jcbPA 5 + 8) 4)) = some (1, 4) ∧
    ((after (.jcbHomeRaise 1) (raising false 2 (2 ^ 32 - 2))).map fun t => (t.rd (jcbPA 5) 4, t.rd (jcbPA 5 + 8) 4)) = some (2 ^ 32 - 2, 8) ∧
    faultOf (.jcbHomeRaise 1) (base n5) = some (.notEnabled "JCB_HOME_RAISE") := by decide +kernel
theorem test_raise_answer : ((after (.jcbRaiseAnswer 1) (base { n5 with run := { n5.run with pendingRaise := [{ id := 1, n := 1, posted := false, ans := some true }] }, ctl := { n5.ctl with flight := [{ dist := 3, eff := .pAnswer 1 3 none }] } })).map
      fun t => (t.cur.run.pendingRaise.length, t.cur.ctl.flight)) = some (0, [{ dist := 3, eff := .pAnswer 1 3 (some true) }]) ∧ faultOf (.jcbRaiseAnswer 1) (raising false 2 1) = some (.notEnabled "JCB_RAISE_ANSWER") := by decide +kernel
theorem test_home_completion : ((after (.jcbHomeCompletion 5) (posting 0 none)).map fun t => (t.rd (jcbPA 5 + 4) 4, t.rd (jcbPA 5 + 8) 4 % 4)) = some (1, 1) ∧
    ((after (.jcbHomeCompletion 5) (posting 1 none)).map fun t => (t.rd (jcbPA 5 + 4) 4, t.rd (jcbPA 5 + 8) 4)) = some (1, 16) ∧ faultOf (.jcbHomeCompletion 4) (posting 1 none) = some (.notEnabled "JCB_HOME_COMPLETION") ∧
    ((after (.jcbHomeNodeFailure 5 9 0x30) (posting 0 (some (9, 0x30)))).map fun t => (t.rd (jcbPA 5 + 8) 4 % 4, t.rd (jcbPA 5 + 32) 4, t.rd (jcbPA 5 + 36) 4)) = some (2, 9, 0x30) ∧
    faultOf (.jcbHomeNodeFailure 5 8 0x30) (posting 0 (some (9, 0x30))) = some (.notEnabled "JCB_HOME_NODE_FAILURE") := by decide +kernel

/-- A delivery of one byte to node 1 from a module at (1, 0, 0). -/
def delivery : Delivery :=
  { x := 1, y := 0, z := 0, serial := 1, route := 0, seq := 0, space := 0, core := 0, cnt := 3, hD := handle 0x100 1 0 256 4, extents := [1, 1, 1, 1, 1], elems := [{ e := 9, m := 0, poison := false }],
    bytes := 1, empty := false, fromUid := none }
theorem test_send_events : let armed := alone { n5 with eng := { armed := [{ sendOf (BitVec.ofNat 64 (2 ^ 32 * 3 + 5)) with fired := true }] }, regs := { n5.regs with c := n5.regs.c.setIfInBounds 3 5 } }
    ((after (.sendtFire 1 0) armed).map fun t => (t.cur.eng.sends.length, t.cur.eng.armed.length)) = some (1, 0) ∧ faultOf (.sendtFire 1 1) armed = some (.notEnabled "SENDT_FIRE") ∧
    ((after (.sendDelivery delivery) (alone n5)).map fun t => (memGet t.cur.run.scr.cells 0, t.cur.regs.c[3], t.cur.eng.streams.length)) = some (9, 1, 1) ∧
    ((after (.sendDelivery { delivery with core := 9 }) (alone n5)).map fun t => t.link.pending.length) = some 1 ∧
    faultOf (.sendDelivery { delivery with core := 9 }) { alone n5 with link := { (alone n5).link with pending := [{ delivery with core := 9 }] } } = some (.notEnabled "SEND_DELIVERY") ∧
    ((after (.sendDelivery delivery) { alone n5 with link := { (alone n5).link with pending := [delivery] } }).map fun t => (t.link.pending.length, memGet t.cur.run.scr.cells 0)) = some (0, 9) := by decide +kernel
/-- The answer of a peer at (1, 0, 0) of a pod of extent 2 (R336). -/
def sentOut : State :=
  { alone { n5 with eng := { sends := [{ sendOf 0 with er := BitVec.ofNat 64 (2 ^ 47 + 1), ctrl := BitVec.ofNat 64 (2 ^ 42 + 2 ^ 36 * 3), sent := true }] } } with link := { (alone n5).link with dx := 2 } }
theorem test_send_answers : ((after (.sendComplete 1 0 .ack) sentOut).map fun t => (t.cur.eng.sends.length, t.cur.regs.c[3])) = some (0, 4) ∧
    ((after (.sendComplete 1 0 (.fault 0x20)) sentOut).map fun t => (t.cur.eng.sends.length, t.cur.ctl.flt)) = some (0, 8) ∧ faultOf (.sendComplete 1 1 .ack) sentOut = some (.notEnabled "SEND_COMPLETE") := by decide +kernel

/-- A packet whose last entry delivers here (R339, R341). -/
def collPacket : CollPacket :=
  { tag := { space := 0, route := 0, seq := 0 }, ops := [0xF800], width := 8, elems := [{ e := 9, m := 0, poison := false }], clamp := false, extents := [1, 1, 1, 1, 1], hD := handle 0x100 1 0 256 4, seed := 0, step := 0 }
def receiving (w : Nat) : State :=
  { alone { n5 with eng := { colls := [{ tag := collPacket.tag, orig := false, contr := false, recv := true, cnt := 3, ui := false, hD := handle 0x100 1 0 256 4, exts := [1, 1, 1, 1, 1], origDone := true, contrDone := true, recvDone := false }] } } with
    link := { (alone n5).link with registered := [(collPacket.tag, 1)], held := [{ pkt := { collPacket with width := w } }] } }
theorem test_collective_events : ((after (.collHop collPacket) (alone n5)).map fun t => t.link.held.length) = some 1 ∧
    ((after (.collHop collPacket) { alone n5 with link := { (alone n5).link with aborted := [collPacket.tag] } }).map fun t => t.link.held.length) = some 0 ∧
    faultOf (.collHop { collPacket with ops := [0xF200, 0xF800] }) { alone n5 with link := { (alone n5).link with waiting := [{ collPacket with ops := [0xF200, 0xF800] }] } } = some (.notEnabled "COLL_HOP") ∧
    ((after (.collDeliverApply 0) (receiving 8)).map fun t => (memGet t.cur.run.scr.cells 0, t.cur.regs.c[3], t.link.held.length)) = some (9, 1, 0) ∧
    ((after (.collDeliverApply 0) (receiving 16)).map fun t => (memGet t.cur.run.scr.cells 0, t.cur.ctl.flt)) = some (0, 8) ∧ faultOf (.collDeliverApply 1) (receiving 8) = some (.notEnabled "COLL_DELIVER_APPLY") := by decide +kernel
theorem test_abort_flit : ((after (.abortFlit collPacket.tag 3) (alone n5)).map fun t => (t.link.aborted, t.link.out.length)) = some ([collPacket.tag], 11) ∧
    ((after (.abortFlit collPacket.tag 3) { alone n5 with link := { (alone n5).link with aborted := [collPacket.tag] } }).map fun t => t.link.out.length) = some 0 := by decide +kernel

/-! ## Bring-up, service and power -/

def inPhase (p : Nat) : State := { rows 0 with svc := { (rows 0).svc with phase := p } }
theorem test_power_good : ((after .powerGood (((base n6).wr (hostPA 8) 7 1).wr (ringPA 8) 7 1)).map fun t => (t.svc.phase, t.nodes.length, t.byte (hostPA 8), t.byte (ringPA 8))) = some (2, 0, 7, 0) := by
  decide +kernel
/-- A stack joins and takes its 256 cores to their places, or fails and then is absent (R371 to R373). -/
theorem test_stacks : ((after (.stackSelfTestPass { stack := 1, fronts := [], halves := [] }) (inPhase 2)).map fun t => (t.svc.phase, t.svc.stk[1], t.cores.length)) = some (3, .joined, 260) ∧
    faultOf (.stackSelfTestPass { stack := 1, fronts := [], halves := [] }) (inPhase 1) = some (.notEnabled "STACK_SELF_TEST_PASS") ∧ faultOf (.stackSelfTestFail 1) (inPhase 1) = some (.notEnabled "STACK_SELF_TEST_FAIL") ∧
    ((after (.stackSelfTestFail 1) (inPhase 2)).map fun t => (t.svc.stackFails[1], t.svc.stk[1])) = some (1, .waiting) ∧
    ((after (.stackSelfTestFail 1) { inPhase 2 with svc := { (inPhase 2).svc with stackFails := (inPhase 2).svc.stackFails.setIfInBounds 1 1 } }).map fun t => t.svc.stk[1]) = some .absent := by decide +kernel
theorem test_probes : ((after .bringupTimeout (inPhase 3)).map fun t => t.svc.phase) = some 5 ∧ faultOf .bringupTimeout (inPhase 5) = some (.notEnabled "BRINGUP_TIMEOUT") ∧
    ((after (.probeReturn .y 32) (inPhase 3)).map fun t => (t.link.dx, t.link.dy, t.link.dz)) = some ((inPhase 3).link.dx, 32, (inPhase 3).link.dz) ∧
    faultOf (.probeReturn .y 33) (inPhase 3) = some (.notEnabled "PROBE_RETURN") ∧ faultOf (.probeReturn .y 0) (inPhase 3) = some (.notEnabled "PROBE_RETURN") ∧
    ((after (.probeTimeout .z) (inPhase 3)).map fun t => t.link.dz) = some 1 ∧ faultOf (.probeTimeout .z) (inPhase 2) = some (.notEnabled "PROBE_TIMEOUT") := by decide +kernel

/-- The jobs of the distributor end when their cores hold no node (R100, R105 to R107, R363, R365). -/
def jobOf (op : BitVec 2) (cores : List Nat) : BindJob := { op := op, core := 0, width := 2, cores := cores, pkt := 0, queue := 0, index := 0, site := 9, half := 0 }
def withJob (j : BindJob) : State := { rows 0 with dist := { (rows 0).dist with jobs := [j] } }
theorem test_jobs_end : ((after .bindDrainDone (withJob (jobOf 0 [0, 16]))).map fun t => ((t.core 0).gang, (t.core 0).halves.length, (t.core 16).active, t.dist.jobs.length)) = some (1, 4, false, 0) ∧
    ((after .bindDrainDone ((withJob (jobOf 1 [0, 16])).setCore { (rows 0).core 0 with gang := 1, before := [(0, []), (16, [])] })).map fun t => (t.core 0).gang) = some 0 ∧
    ((after (.coreRetireDrainDone 0) (withJob (jobOf 3 [0]))).map fun t => ((t.core 0).state, (t.core 0).halves.length, t.dist.jobs.length)) = some (.retired, 0, 0) ∧
    ((after .rebindDone (withJob (jobOf 2 [0]))).map fun t => t.dist.jobs.length) = some 0 := by decide +kernel
theorem test_jobs_wait : let held := { (rows 0).core 0 with slots := #v[1, 0, 0, 0] }
    faultOf .bindDrainDone ((withJob (jobOf 0 [0, 16])).setCore held) = some (.notEnabled "BIND_DRAIN_DONE") ∧ faultOf .rebindDone (withJob (jobOf 0 [0])) = some (.notEnabled "REBIND_DONE") ∧
    faultOf (.coreRetireDrainDone 1) (withJob (jobOf 3 [0])) = some (.notEnabled "CORE_RETIRE_DRAIN_DONE") := by decide +kernel
/-- A core in service with a half for every free value, halves at their 63rd failed check, and a core that is absent. -/
theorem witness_engine_check : let s := rows 0
    let worn := { s with svc := { s.svc with failedChecks := [(0, 0, 0, 0, 63), (0, 0, 0, 1, 63)] } }
    (s.core 0).active = true ∧ (s.core 0).halves ≠ [] ∧ (s.core 5).active = false ∧ (∀ b ∈ (s.core 0).halves, s.failCount 0 b = 0 ∧ worn.failCount 0 b = 63 ∧ s.halfState 0 b = .good) ∧
    (∃ b, (s.core 0).halves[Config.freeNat s.free % (s.core 0).halves.length]? = some b) := by
  refine ⟨by decide +kernel, by decide +kernel, by decide +kernel, by decide +kernel, ⟨_, List.getElem?_eq_getElem (Nat.mod_lt _ (by decide +kernel))⟩⟩
theorem test_channel_repair : let full := { rows 0 with svc := { (rows 0).svc with remap := (List.range 32).map fun k => { chan := 3, bank := 0, row := k, spare := k } } }
    ((rows 0).noteChan 3 2).repairRoom 3 = true ∧ (full.noteChan 3 2).repairRoom 3 = false ∧ ((after (.dramSoftRepair 3 1 5 []) (rows 0)).map fun t => t.svc.remap.length) = some 1 ∧
    ((after (.dramSoftRepair 3 1 5 []) full).map fun t => (t.svc.remap.length, chanCount t.svc.dramCounts 3 3)) = some (32, 1) ∧ faultOf (.dramSoftRepair 3 1 5 [ringPA 0]) (rows 0) = some (.notEnabled "DRAM_SOFT_REPAIR") := by
  decide +kernel
/-- Lost bytes of a row: a byte lies in the row of its own channel, bank and row. -/
theorem witness_lost_bytes : let a := dramPA 0x305
    dramPA 0 ≤ a ∧ a < hostPA 0 ∧ 3 ∈ dramChannels (a - dramPA 0) ∧ Config.dramBank (a - dramPA 0) = Config.dramBank 0x305 ∧ Config.dramRow (a - dramPA 0) = Config.dramRow 0x305 :=
  ⟨by decide, by decide, by decide, rfl, rfl⟩
theorem test_lanes : ((after (.laneRetrainDone 3) ((rows 0).setPort 3 { retraining := true })).map fun t => t.svc.ports[3].retraining) = some false ∧ faultOf (.laneRetrainDone 12) (rows 0) = some (.notEnabled "LANE_RETRAIN_DONE") ∧
    ((after (.laneFail 11 8) ((rows 0).setPort 11 { spareUsed := true })).map fun t => (t.svc.ports[11].lanes, t.svc.ports[11].degradations)) = some (4, 1) ∧
    ((["LANE_FAIL"] : List String).map fun n => some (Fault.notEnabled n)) = [faultOf (.laneFail 11 8) (rows 0)] ∧ faultOf (.laneFail 11 9) ((rows 0).setPort 11 { spareUsed := true }) = some (.notEnabled "LANE_FAIL") := by decide +kernel

/-- A module with power samples, the clock `k` steps down. -/
def powered (l : List Nat) (k : Nat) (deferred : Bool) : State :=
  { rows 0 with svc := { (rows 0).svc with powerSamples := l, clockStep := k }, dist := { (rows 0).dist with deferred := deferred } }
/-- The average stands against the limit exactly: ten samples of 30,005 W in all are above 3,000 W (R368). -/
theorem test_clock : let out := fun (s : State) => (after .clockStep s).map fun t => (t.svc.clockStep, t.dist.deferred)
    out (powered [3001] 7 false) = some (8, false) ∧ out (powered [3001] 8 false) = some (8, true) ∧ out (powered [3001] 8 true) = none ∧ out (powered [2849] 8 true) = some (7, false) ∧
    out (powered [2850] 8 true) = some (8, false) ∧ out (powered [3000] 8 false) = none ∧ out (powered [2000] 0 true) = some (0, false) ∧
    out (powered (3005 :: List.replicate 9 3000) 0 false) = some (1, false) := by decide +kernel
theorem test_power_mean : ((after (.powerSample 40) { rows 0 with svc := { (rows 0).svc with powerSamples := [9, 10, 20, 10, 20, 10, 20, 10, 20, 0] } }).map fun t => (t.svc.powerSamples.length, t.svc.powerAvg)) = some (10, 16) := by
  decide +kernel
theorem test_telemetry : faultOf .telemetryRefresh (inPhase 2) = some (.notEnabled "TELEMETRY_REFRESH") := by decide +kernel

/-- Memories in their form, past bring-up too. -/
theorem witness_canonical : Canonical State.reset ∧ Canonical (inPhase 3) ∧ (inPhase 3).svc.phase = 3 := by decide +kernel

/-! ## Witnesses for several words, delays, pairs and queues under change -/

/-- Two chained words, and a word that a pending close delays (R138, R146, R214). -/
def fetchingTwo : State := State.reset.withFetchWord 64 (0x80000C22 + 0x00002502 * 2 ^ 32)
def fetchingDelayed : State :=
  let s := State.reset.withFetchWord 32 (((Instr.kget 0 0 9 0 0).encodeNat).getD 0)
  { s with cur := { s.cur with ctl := { s.cur.ctl with cwaiting := [0] } } }
def bundleOf (s : State) : List Instr :=
  match s.boundary with
  | .bundle l _ => l.map (·.i)
  | _ => []
theorem witness_issues : Issues fetchingTwo ∧ Issues fetchingDelayed := by constructor <;> (constructor <;> decide +kernel)
theorem test_bundle_of_two : bundleOf fetchingTwo = [.add 0 0 3 1 2, .add 0 0 9 8 2] ∧
    ((stepped fetchingTwo).map fun t => (t.cur.ctl.pc, t.cur.ctl.flight.length)) = some (16, 2) := by decide +kernel
theorem test_delayed_step : ((after (.kget 0 0 9 0 0) (inItsBundle fetchingDelayed (.kget 0 0 9 0 0))).map fun t => t.bnd.stop) = some .delayed ∧
    ((stepped fetchingDelayed).map fun t => (t.cur.ctl.pc, t.cur.ctl.flight.length)) = some (8, 0) := by decide +kernel

/-- A second launch of a node whose image has been validated: its descriptor passes the checks (R56, R393). -/
def relaunchDesc : List Byte := (launching.awlRead 0 true (firmware 0x100000) 512).getD []
def relaunchImage : List Byte := (launching.awlRead 0 true (firmware 0x101000) 140).getD []
def relaunching : State := { launching with awl := { launching.awl with validated := [(5, imageOf relaunchImage (firmware 0x101000))] } }
theorem witness_image_known : relaunching.imageKnown 0 true (fieldB relaunchDesc 8 8) (imageOf relaunchImage (firmware 0x101000)) := by
  refine ⟨(relaunching.awlRead 0 true (firmware 0x101000) 128).getD [], relaunchImage, (relaunching.roomAt 0 true (firmware 0x101000)).getD 0, (5, imageOf relaunchImage (firmware 0x101000)), ?_, ?_, ?_, ?_, ?_, ?_⟩ <;>
    decide +kernel
/-- What a descriptor without operands, job control block and successors describes. -/
def plainNode (d : List Byte) (img : Image) (addr : Nat) : Checked :=
  { desc := { queue := 0, index := 0, addr := BitVec.ofNat 64 addr, prio := BitVec.ofNat 3 (fieldB d 0 4 % 8), stage := BitVec.ofNat 4 (fieldB d 0 4 / 16 % 16),
              anyStage := (fieldB d 0 4).testBit 8, jcb := none, image := img, args := (List.range 8).map (fun i => BitVec.ofNat 64 (fieldB d (0x20 + 8 * i) 8)),
              handles := [], srecs := [], gseed := 0, gstep := 0 },
    pred := 0, succ := [] }
theorem launchable_of (s : State) (d : List Byte) (img : Image) (addr : Nat) (hd : s.awlRead 0 true addr 512 = some d) (hr : nodeReservedOk d = true)
    (hs : s.awlRead 0 true (fieldB d 0x10 8) (4 * fieldB d 0x18 2) = some []) (hn : fieldB d 0x18 2 = 0) (hi : s.imageKnown 0 true (fieldB d 8 8) img)
    (ho : fieldB d 0x1A 1 = 0) (hp : fieldB d 6 2 = 0) (hj : (fieldB d 4 2).testBit 15 = false) (hl : img.opnds = []) (hk : kidxAgree [] = true) :
    s.launchable 0 true addr 0 true 0 0 (plainNode d img addr) := by
  refine ⟨d, [], img, hd, hr, hs, ?_, hi, ?_, ?_, ?_, ?_, ?_, ?_, ?_⟩ <;> simp [hn, ho, hp, hj, hl, hk, plainNode]
theorem relaunch_descriptor : relaunching.awlRead 0 true (firmware 0x100000) 512 = some relaunchDesc := by decide +kernel
theorem relaunch_reserved : nodeReservedOk relaunchDesc = true := by decide +kernel
theorem relaunch_successors : relaunching.awlRead 0 true (fieldB relaunchDesc 0x10 8) (4 * fieldB relaunchDesc 0x18 2) = some [] := by decide +kernel
theorem relaunch_counts : fieldB relaunchDesc 0x18 2 = 0 ∧ fieldB relaunchDesc 0x1A 1 = 0 ∧ fieldB relaunchDesc 6 2 = 0 ∧ (fieldB relaunchDesc 4 2).testBit 15 = false := by decide +kernel
theorem relaunch_operands : (imageOf relaunchImage (firmware 0x101000)).opnds = [] := by decide +kernel
theorem witness_launchable : relaunching.launchable 0 true (firmware 0x100000) 0 true 0 0 (plainNode relaunchDesc (imageOf relaunchImage (firmware 0x101000)) (firmware 0x100000)) :=
  launchable_of _ _ _ _ relaunch_descriptor relaunch_reserved relaunch_successors relaunch_counts.1 witness_image_known relaunch_counts.2.1 relaunch_counts.2.2.1 relaunch_counts.2.2.2
    relaunch_operands rfl
theorem witness_relaunch : relaunching.packetStale 0 = false := by decide +kernel

/-- What the inbox performs for a node (R88, R109): a write, a signal, both, and a launch that its own queue's checks admit; a write with a stale tag is dropped (R263). -/
theorem test_inbox_writes : let run := fun (row : BitVec 512 → Instr) (p : BitVec 512) => (after (row p) (asking p)).map fun t => (t.byte (ringPA 0x8000000), t.byte (ringPA 0x8000008), t.awl.inbox.length)
    run (.write (.inbox 1)) (packet [(0, 1, 3), (0x10, 8, 2 ^ 44), (0x18, 1, 4), (0x20, 4, 0x55)]) = some (0x55, 0, 0) ∧
    run (.signal (.inbox 1)) (packet [(0, 1, 4), (0x10, 8, 2 ^ 44), (0x18, 8, 3)]) = some (3, 0, 0) ∧
    run (.writeSignal (.inbox 1)) (packet [(0, 1, 5), (0x10, 8, 2 ^ 44), (0x18, 1, 4), (0x20, 4, 0x55), (0x30, 8, 2 ^ 44 + 8), (0x38, 8, 3)]) = some (0x55, 3, 0) := by decide +kernel
theorem test_inbox_stale : let p := packet [(0, 1, 3), (0x10, 8, 2 ^ 44), (0x18, 1, 4), (0x20, 4, 0x55)]
    let s := asking p
    let old : State := { s with awl := { s.awl with inboxStep := some (1, p, 1, 7) } }
    old.inboxAsgen 1 ≠ (old.space 0).asgen ∧ s.inboxAsgen 1 = (s.space 0).asgen ∧ ((after (.write (.inbox 1) p) old).map fun t => (t.byte (ringPA 0x8000000), t.awl.inbox.length)) = some (0, 0) := by decide +kernel
theorem test_inbox_launch : let p := packet [(0, 1, 2), (0x10, 8, firmware 0x100000)]
    ((after (.launchNode (.inbox 1) p) (asking p)).map fun t => t.awl.inbox.length) = some 0 := by decide +kernel

/-- Queue 0 with a packet that was started under another generation of its space (R263). -/
theorem test_stale_packet : let w := packet [(0, 1, 3), (0x10, 8, 2 ^ 44), (0x18, 1, 4), (0x20, 4, 0x55)]
    let c := packet [(0, 1, 8), (0x10, 8, 2 ^ 44), (0x18, 8, 2 ^ 44 + 8), (0x20, 4, 4)]
    let old := fun (p : BitVec 512) => (mapped (taking p)).setQueue 0 { st := .active, en := true, tail := 1, cur := some { pkt := p, index := 0, stepsLeft := 1, asgen := 7 } }
    (old w).packetStale 0 = true ∧ ((after (.write (.queue 0) w) (old w)).map fun t => (t.byte (ringPA 0x8000000), (t.queue 0).head, (t.queue 0).st)) = some (0, 1, .idle) ∧
    ((after (.copy (.queue 0) c) (old c)).map fun t => ((t.queue 0).head, (t.queue 0).st, (t.queue 0).status)) = some (0, .error, 6) := by decide +kernel
/-- A FENCE with REL waits for the posts of its queue's completed work (R81); the packet of another row, or one that waits, is not enabled. -/
theorem test_fence_waits : let p := packet [(0, 1, 9), (0x11, 1, 2)]
    let s := taking p
    let held : State := { s with awl := { s.awl with posts := [{ uid := 9, queue := 0, jcb := 5, fail := none }] } }
    held.unseen 0 = true ∧ s.unseen 0 = false ∧ ((after (.fencePacket (.queue 0) p) held).map fun t => ((t.queue 0).head, (t.queue 0).st)) = some (0, .active) ∧
    ((after (.fencePacket (.queue 0) p) s).map fun t => (t.queue 0).head) = some 1 ∧
    faultOf (.fencePacket (.queue 0) p) (s.setQueue 0 { st := .active, en := true, tail := 1, cur := some { pkt := p, index := 0, stepsLeft := 1, waiting := true } }) = some (.notEnabled "FENCE_PACKET") := by decide +kernel

/-- The QCFG of a disabled queue without EN, an access of another size, and eight bytes of EXSLOT (R74 to R76, R83). -/
theorem test_register_writes : ((after (.queueDisable 0 (BitVec.ofNat 64 (2 ^ 32 * 9 + 2 ^ 24 * 2 + 5 * 2 ^ 16))) (base n5)).map fun t => ((t.queue 0).slice, (t.queue 0).prio, (t.queue 0).logsize, (t.queue 0).st)) = some (9, 2, 5, .disabled) ∧
    ((after (.registerWrite 0x1000 { size := 4, value := 0x12345 }) (base n5)).map fun t => (t.queue 1).qbase) = some 0 ∧
    ((after (.registerWrite 0x41008 { size := 8, value := 0x0807060504030201 }) (base n5)).map fun t => ((t.awl.exslot.drop 8).take 8, t.awl.exslot.length)) = some ([1, 2, 3, 4, 5, 6, 7, 8], 128) ∧
    ((after (.registerWrite 0x1000 { size := 8, value := 0x12345 }) (base n5)).map fun t => (t.readBar 0x1000 8, t.readBar 0x1000 4, t.readBar 0x1004 8)) = some (0x12340, 0, 0) := by decide +kernel
/-- A reset that another queue's QRESET waits for (R87), and a drain that staged bytes hold up (R301). -/
theorem test_reset_and_flip : let p := packet [(0, 1, 10), (0x10, 1, 1)]
    let s := (base n5).setQueue 0 { enabled with st := .active, tail := 1, cur := some { pkt := p, index := 0, stepsLeft := 0, waiting := true } }
    ((after (.qresetAcksDone 1) (s.setQueue 1 { enabled with st := .resetting, resetBy := [(0, 0, p)] })).map fun t => ((t.queue 0).head, (t.queue 0).st, (t.queue 1).st)) = some (1, .idle, .idle) ∧
    (let n := { n6 with run := { n6.run with staged := { cells := [(hostPA (6 * 65536) + 3, 7)] } } }
     faultOf .flipDrainDone { base n with awl := { (base n).awl with flipNow := some { frame := 6, ack := false } } } = some (.notEnabled "FLIP_DRAIN_DONE")) := by decide +kernel

/-- A candidate TST of a merged run: its buffer holds what a TLD would read of the store, clamped to the handle's format, and no byte is stored (R111, R121). -/
def producing : State :=
  let buf : FwdBuffer := { pAddr := 0, odd := false, slot := 3, inC := true, iter := none, taken := false, tile := { bits := 5 }, shape := 1, h := handle 0x100 1 0 256 4 }
  let pair : Splice := { st := .merged, p := 1, c := 2, cands := [{ hp := 1, tp := 12, pAddr := 0, hc := 1, tc := 9, cAddr := 12 }], bufs := [buf] }
  { base (withT n5 [(12, 2, 300 + 65000 * 65536)]) with cores := [{ core with pairs := [pair] }] }
theorem test_forwarded_store : producing.forwardsTst = true ∧ (producing.cur.regs.h[1]).keep = false ∧
    ((after (.tst 0 0 1 12 0) producing).map fun t => (t.pair.bufs.map fun b => (b.iter, tileBits b.tile.bits 16 0, tileBits b.tile.bits 16 1), t.cur.run.scr.cells.length, (t.cur.regs.k[0]).getLsbD 21)) =
      some ([(some 0, 127, 65408)], n5.run.scr.cells.length, true) := by decide +kernel
/-- A TLD whose first element that the layout unit refuses is its first, and a TST whose plan faults: each its access or translation fault (R203, R204). -/
theorem witness_tile_faults : let s := mapped (base (withH n6 [(6, handle 1 1 0 256 1024 + BitVec.ofNat 256 (2 ^ 38 + 2 ^ 30))]))
    let H := s.cur.regs.h[6]
    s.checkHandle s.cur H false = none ∧ errOf (s.readElem s.cur H [0, 300, 0, 0, 0]) ≠ none ∧
    (match s.planCells s.cur H (s.rounding 0) [{ x := [0, 300, 0, 0, 0], v := 5, poison := false }] with | .mem _ _ => true | _ => false) = true := by decide +kernel

/-- The end of a run at a node that is not current (R226). -/
theorem test_run_end_elsewhere : let other := withAcc { n5 with desc := { n5.desc with uid := 2 } } { ended := [7, 8] }
    ((after (.matrixRunEnd 2 0) { base n5 with nodes := [other] }).map fun t => ((t.node 2).regs.acc[0].base, (t.node 2).regs.acc[0].ended)) = some (7, [8]) := by decide +kernel
/-- Where GELU interpolates and where it does not, at the edges of its range, and the sign of 0 in LION (R241, R245). -/
theorem test_gelu_edges : (vgeluEl 15 15 32 (-(2 ^ 18) - 1)).1 = 0 ∧ vgeluEl 15 15 32 (2 ^ 18) = (2 ^ 18, false) ∧ (vgeluEl 15 15 32 (2 ^ 18 - 1)).2 = false ∧
    (lionEl (hyperOf 0x000400030000E666) 8 16 shrRne 50 0 0).2 = (50, false) ∧
    (adamEl (hyperOf 0xFFFF0000) 8 16 shrRne 50 0 0 (-5)).2.2 = (50, true) ∧ clampTo 32 false (shrRne (65535 * (-5)) 16) + 2 ^ 0 ≤ 0 := by decide +kernel

/-- A cancel of a slot takes effect in a step of its own (R282). -/
theorem witness_cancel : let c := fun (o p : Nat) => ({ cmdOf 5 with ord := o, progress := { done := if p = 0 then [] else [0] } } : CopyCmd)
    let s : State := { base { n5 with eng := { ca := [c 0 1, c 1 0], caArmed := [c 2 0], cb := [c 3 0], cancels := [(false, 3)], nextOrd := 4 } } with agenda := [.cancel 1 false] }
    s.cur.live = true ∧ s.cur.eng.cancels.find? (fun c => c.1 == false) = some (false, 3) ∧
    ((stepped s).map fun t => (t.cur.eng.ca.map (·.ord), t.cur.eng.caArmed.length, t.cur.eng.cb.length, t.cur.eng.cancels)) = some ([0], 0, 1, []) := by decide +kernel
/-- An armed command with one that has fired before it stays where it is (R279, R337). -/
theorem test_fire_order : let t := BitVec.ofNat 64 (2 ^ 32 * 3 + 5)
    let s := alone { copying n5 with eng := { caArmed := [{ cmdOf t with fired := true, seq := 1 }, { cmdOf t with fired := true, seq := 2 }], armed := [{ sendOf t with fired := true }, { sendOf t with fired := true }] } }
    faultOf (.cpyqFire 1 .ca 1) s = some (.notEnabled "CPYQ_FIRE") ∧ faultOf (.sendtFire 1 1) s = some (.notEnabled "SENDT_FIRE") ∧
    (after (.cpyqFire 1 .ca 0) s).isSome = true ∧ (after (.sendtFire 1 0) s).isSome = true ∧
    ((after (.cpy 0 0 1 1 5) s).map fun t => t.bnd.stop) = some .delayed := by decide +kernel
/-- COLL: a send of the node that has not read its window, an aborted tag, and a tag that is registered (R286, R340, R342). -/
theorem test_collective_waits : let n := withS (linking n5) [(11, BitVec.ofNat 64 (2 ^ 62)), (13, 0)]
    let tag : CollTag := { space := 0, route := 0, seq := 0 }
    let dead : State := { alone n with link := { (alone n).link with highest := [tag] } }
    let twice : State := { alone n with link := { (alone n).link with registered := [(tag, 9)] } }
    ((after (.coll 0 0 1 1 5 0) (alone { n with eng := { sends := [sendOf 0] } })).map fun t => t.bnd.stop) = some .delayed ∧
    dead.link.tagAborted tag = true ∧ ((after (.coll 0 0 1 1 5 0) dead).map fun t => (t.cur.eng.colls.length, t.cur.ctl.flt)) = some (0, 0) ∧
    ((after (.coll 0 0 1 1 5 0) twice).map fun t => (t.cur.eng.colls.length, t.cur.ctl.flt)) = some (0, 8) := by decide +kernel
/-- The answer of this module's own peer waits at its port (R336). -/
theorem test_own_answer : let n := { n5 with eng := { sends := [{ sendOf 0 with sent := true }] } }
    let d := { delivery with fromUid := some 1, seq := routeSeq (sendOf 0).er }
    let s := alone n
    faultOf (.sendComplete 1 0 .ack) s = some (.notEnabled "SEND_COMPLETE") ∧
    ((after (.sendComplete 1 0 .ack) { s with link := { s.link with out := [(12, .ack d .ack)] } }).map fun t => (t.cur.eng.sends.length, t.link.out.length)) = some (0, 0) := by decide +kernel
/-- TRET with a delayed cause of a handler word in flight (R351), and a raise that its block's home has not seen yet (R308). -/
theorem test_handler_cause : let s := base { n5 with ctl := { n5.ctl with bank := true, flight := [{ dist := 4, eff := .trap 0x10 1 24 7 }], trap := { en := true, act := true, cause := 3, ra := 24, fa := 24, recRa := 24, val := 0 } } }
    (firstCause 24 s.cur.ctl.flight).isSome = true ∧ ((after (.tret 0) s).map fun t => (t.node 1).run.st) = some .failed ∧
    (let r := { (posting 0 none) with cur := { (posting 0 none).cur with run := { (posting 0 none).cur.run with pendingRaise := [{ id := 1, n := 1, posted := false, ans := none }] } } }
     faultOf (.jcbHomeCompletion 5) r = some (.notEnabled "JCB_HOME_COMPLETION")) := by decide +kernel

/-- Both members of a pair are asked and stand quiet: they quiesce together, and are saved together (R129, R354). -/
def askedPair (q : Bool) : State :=
  let p := { n5 with run := { n5.run with partner := 2, preempt := true, quiesced := q, saveArea := if q then some (0xFC0000, 4) else none } }
  let c := { n5 with desc := { n5.desc with uid := 2 }, run := { n5.run with partner := 1, preempt := true, quiesced := q, saveArea := if q then some (0xFC0010, 4) else none } }
  { base p with nodes := [c], cores := [{ core with slots := #v[1, 2, 0, 0], pairs := [{ st := .merged, p := 1, c := 2 }] }] }
theorem test_pair_leaves : ((after (.preemptQuiesce 1 (0, 0)) (askedPair false)).map fun t => ((t.node 1).run.quiesced, (t.node 2).run.quiesced)) = some (true, true) ∧
    ((after (.nodeSave 1) (askedPair true)).map fun t => ((t.node 1).run.st, (t.node 2).run.st)) = some (.saved, .saved) ∧
    (base { n5 with ctl := { n5.ctl with mustIssue := true }, run := { n5.run with preempt := true } }).stopsFor { n5 with ctl := { n5.ctl with mustIssue := true }, run := { n5.run with preempt := true } } = false ∧
    ((base n5).saveRoom n5).isSome = true := by decide +kernel

/-- A probe that has ended does not end again, and a port's held flits leave when it has retrained (R362, R367). -/
theorem test_ends_once : let s := (after (.probeReturn .y 4) (inPhase 3)).getD (inPhase 3)
    faultOf (.probeReturn .y 5) s = some (.notEnabled "PROBE_RETURN") ∧ faultOf (.probeTimeout .y) s = some (.notEnabled "PROBE_TIMEOUT") ∧
    ((after (.laneRetrainDone 3) ((rows 0).setPort 3 { retraining := true, held := [{ uid := 0, stack := none, flit := .abort collPacket.tag, pressed := false }] })).map fun t => (t.link.out, (t.port 3).held)) = some ([(3, .abort collPacket.tag)], []) := by decide +kernel
/-- An ABORT is outstanding while a retraining port holds its control flit (R342, R367). -/
theorem test_abort_held : let s := (alone (linking n5)).setPort 3 { retraining := true }
    let t := (after (.abort 0 0 0) s).getD s
    (t.cur.done 3, ((after (.laneRetrainDone 3) t).map fun u => ((u.node n5.desc.uid).done 3, u.link.out.length))) = (false, some (true, 12)) := by decide +kernel
/-- A core with a failed front end, one with a retired half that is bound to other halves, and one that finds none and is retired (R13, R16, R365). -/
theorem test_mended_cores : let s : State := rows 0
    let front := { s with svc := { s.svc with failedFronts := [(0, 0, 1)] } }
    let half := { s with svc := { s.svc with halfStates := [(0, 0, 1, 0, HalfState.retired)] } }
    let gone := fun (e : Nat × Nat) => [(0, e.1, e.2, (0 : BitVec 1), HalfState.retired), (0, e.1, e.2, (1 : BitVec 1), HalfState.retired)]
    let none := { s with svc := { s.svc with halfStates := [(0, 1), (0, 2), (1, 1), (1, 2)].flatMap gone } }
    front.frontFailed (front.core 1) = true ∧ s.frontFailed (s.core 1) = false ∧ ((half.mendCore 1).core 1).active = true ∧
    (((half.mendCore 1).core 1).halves.all fun b => half.halfGood 0 b.y b.x b.half) = true ∧ (none.planFor 1 (none.core 1).halves).isNone = true ∧ ((none.mendCore 1).core 1).active = false := by decide +kernel
/-- A job whose record has no place left does nothing and puts its queue into ERROR (R79, R363). -/
theorem test_job_without_place : let p := packet [(0, 1, 13), (0x10, 1, 3), (0x20, 8, 2 ^ 45)]
    let j := { jobOf 3 [0] with pkt := p }
    let s : State := { (rows p) with dist := { (rows p).dist with jobs := [j] } }
    (s.recordFits 0 (pk p 0x20 8)) = false ∧ ((after (.coreRetireDrainDone 0) (s.mapQueue 0 fun x => { x with cur := some { pkt := p, index := 0, stepsLeft := 0, waiting := true } })).map fun t =>
      ((t.core 0).active, (t.queue 0).st, (t.queue 0).status, t.dist.jobs.length)) = some (true, .error, 6, 0) := by decide +kernel

/-! ## Orders of engines, pairs and ports -/

/-- Parts of a copy in another order than R278's, one of them read before it is written, and one that reaches the bytes of an earlier part and waits (R281, R287, R288). -/
theorem test_parts_in_any_order : let src := handle 0x100 1 0 256 4 + BitVec.ofNat 256 (64 * 2 ^ 154)
    let c := { cmdOf 0 with kind := .cpy, hS := src }
    let s := base { n5 with eng := { ca := [c] } }
    let t := s.moveCopy 1 false 0 [(2, false), (0, true)]
    let bytes := fun (u : State) => (List.range 4).map (memGet u.cur.run.scr.cells)
    (bytes t, t.cur.eng.ca.map fun x => (x.progress.done, x.progress.vals.map (·.1))) = ([0, 0, 1, 0], [([2], [0])]) ∧
    ((after (.copyComplete 1 .ca) t).map bytes) = some [0x85, 0xFF, 1, 2] ∧
    (let near := { c with hD := handle 0x100 1 0 256 4 + BitVec.ofNat 256 (65 * 2 ^ 154) }
     ((base { n5 with eng := { ca := [near] } }).moveCopy 1 false 0 [(1, false)]).cur.eng.ca.map (·.progress.done)) = [[]] := by decide +kernel
/-- A fired command of another resident node joins a slot's queue first when it fired first (R279). -/
theorem test_first_fired : let t := BitVec.ofNat 64 (2 ^ 32 * 3 + 5)
    let armed := fun (k : Nat) => ({ caArmed := [{ cmdOf t with fired := true, seq := k }] } : Eng)
    let s : State := { base { n5 with eng := armed 2 } with nodes := [{ n5 with desc := { n5.desc with uid := 2 }, eng := armed 1 }], cores := [{ core with slots := #v[1, 2, 0, 0] }] }
    (s.firstFired 1 false).map (·.1) = some 2 ∧ faultOf (.cpyqFire 1 .ca 0) s = some (.notEnabled "CPYQ_FIRE") ∧
    ((after (.cpyqFire 2 .ca 0) s).map fun u => (u.node 2).eng.ca.length) = some 1 := by decide +kernel
/-- A run of products that a trap has recorded is ended behind it, and a wait of the interrupted stream ends while the handler runs (R223, R296, R349). -/
theorem test_under_handlers : let n := withAcc n2 { opened := true }
    let s := base { n with ctl := { n.ctl with trapFlight := [{ dist := 5, eff := .acc 0 [] 0 false false 0 0 }], trapWaits := [.cwait 3 5] }, regs := { n.regs with c := n.regs.c.setIfInBounds 3 5 } }
    ((after (.mend 0 0) s).map fun t => (t.cur.regs.acc[0].opened, t.cur.regs.acc[0].ended, t.cur.ctl.trapFlight.map (·.dist))) = some (false, [], [5, 5]) ∧
    ((after (.waitSatisfied 1) s).map fun t => t.cur.ctl.trapWaits) = some [] := by decide +kernel
/-- A stale node reads no byte that it has staged and stages none (R68, R263). -/
theorem test_stale_staging : let n := { n6 with run := { n6.run with qgen := 1, staged := { cells := [(ringPA 0x8000005, 7)] } } }
    let s := mapped (base n)
    s.stale s.cur = true ∧ errOf (s.readByte s.cur 1 5) = some .generation ∧ ((after (.stB 0 0 2 14 0 none) s).map fun t => (t.cur.run.staged.cells, t.byte (ringPA 0x8000000))) = some ([(ringPA 0x8000005, 7)], 0) := by decide +kernel
/-- The consumer of a pair enters the slot behind its producer's, with the next units, and the pair is marked (R96, R97). -/
theorem witness_placeConsumer : let p := { waitingNode 1 0 with desc := { (waitingNode 1 0).desc with succs := [2] }, run := { n5.run with st := .placed } }
    let c := { waitingNode 2 0 with run := { n5.run with st := .waiting, remaining := 1 } }
    let s : State := { vacant with nodes := [p, c], cores := [{ core with slots := #v[0, 0, 0, 1], current := 0 }] }
    slotOfNode (s.core 0) 1 = 3 ∧ freeSlot (s.core 0) 4 = some 0 ∧
    (let t := s.placeConsumer (s.node 2) (s.node 1) (s.core 0)
     ((t.core 0).slots.toList, (t.core 0).pairs.map fun x => (x.st, x.p, x.c), (t.node 2).run.st, (t.node 2).run.serial)) = ([2, 0, 0, 1], [(.marked, 1, 2)], .placed, 1) := by decide +kernel
/-- A node whose save area holds its context (R355, R394). -/
theorem witness_save_area : let n := { n1 with run := { n1.run with quiesced := true, saveArea := some (0xFC0000, n1.framesWith 0), scr := { cells := [(64, 7)] } } }
    (base n).node 1 = n ∧ n.run.saveArea = some (0xFC0000, n.framesWith n.run.payload) ∧ n.run.gangWidth = 1 ∧ (copyEntries n.eng).length ≤ 48 ∧ (n.run.scr.cells.map fun c => c.1).Nodup ∧
    (∀ c ∈ n.run.scr.cells, c.1 < fieldN n.ctl.part 16 6 * 65536 * n.run.gangWidth) ∧ ((base n).coreOf 1).isSome = true ∧ (after (.nodeSave 1) (base n)).isSome = true := by decide +kernel
/-- With the producer's commit the consumer's has begun: no error stops it (R126, R360); a successor whose last predecessor commits becomes READY (R66, R70). -/
theorem test_commit_follows : let t := (after (.nodeCommit 1) drainedPair).getD drainedPair
    (t.node 2).run.committing = some [] ∧ faultOf (.errorConsumed 2) t = some (.notEnabled "ERROR_CONSUMED") ∧ ((after (.nodeCommit 2) t).map fun u => (u.node 2).run.st) = some .committed ∧
    (let n := retiring { n5 with desc := { n5.desc with succs := [2] } }
     let s : State := { base n with nodes := [{ waitingNode 2 0 with run := { n5.run with st := .waiting, remaining := 1 } }] }
     ((after (.nodeCommit 1) s).map fun u => ((u.node 2).run.st, (u.node 2).run.remaining))) = some (.ready, 0) := by decide +kernel
/-- A delivery in transit goes on (R330), one of an engine whose earlier delivery waits stands behind it (R288), and one that fills the gap passes (R336). -/
theorem test_deliveries_in_order : let away := { delivery with dest := some (1, 0, 0) }
    let s : State := { alone n5 with link := { (alone n5).link with dx := 2 } }
    let held := { alone n5 with link := { (alone n5).link with gaps := [{ delivery with seq := 1 }] } }
    ((after (.sendDelivery away) s).map fun t => (t.link.out.map (·.2), t.link.pending.length)) = some ([.send away], 0) ∧
    ((after (.sendDelivery delivery) { s with link := { s.link with pending := [{ delivery with core := 9 }] } }).map fun t => t.link.pending.length) = some 2 ∧
    held.mustWait { delivery with route := 1 } = true ∧ held.fillsGap delivery = true ∧ held.mustWait delivery = false ∧
    ((after (.sendDelivery { delivery with route := 1 }) held).map fun t => t.link.pending.length) = some 1 := by decide +kernel
/-- A channel without credit holds its flits, counts them once, and sends them when the credit is back (R329, R369). -/
theorem test_credit : let s := (rows 0).creditPort 3 2 false
    let t := s.portOut 3 (.abort collPacket.tag)
    let u := (t.creditPort 3 0 false).creditPort 3 2 true
    (t.link.out.length, (t.port 3).held.length, (t.port 3).heldCount) = (0, 1, 1) ∧ (u.link.out, (u.port 3).held.length, (u.port 3).heldCount) = ([(3, .abort collPacket.tag)], 0, 1) := by decide +kernel
/-- A half that a pending rebinding is to bind has a refusal of its own (R364, R365), and so has one that is under way; one that is RETIRED stays so. -/
theorem test_promised_half : let b : BoundHalf := { y := 0, x := 1, half := 0 }
    let j := { jobOf 2 [16] with plan := [(16, 0, [{ y := 1, x := 0, half := 0 }, b])] }
    let code := fun (s : State) => errOf (s.rebindCheck 0 1 0)
    let gone : State := { rows 0 with svc := { (rows 0).svc with halfStates := [(0, 0, 1, 0, .retired)] } }
    (withJob j).promised 0 b = true ∧ code (withJob j) = some 0x62 ∧ code { rows 0 with svc := { (rows 0).svc with halfStates := [(0, 0, 1, 0, .rebinding)] } } = some 0x62 ∧
    (gone.startRebind { jobOf 2 [] with site := 1 } 0 0 []).halfState 0 b = .retired := by decide +kernel
/-- A record within the bytes that the firmware keeps (R252). -/
theorem test_record_of_the_firmware : firmwareRange (firmware 0x10000) 32 = true ∧ firmwareRange (firmware 0x60000) 32 = false ∧ firmwareRange (2 * 2 ^ 44) 32 = true ∧
    (let p := packet [(0, 1, 13), (0x10, 1, 4), (0x20, 8, firmware 0x60000)]
     (rows p).recordFits 0 (pk p 0x20 8) = true ∧ ((after (.repairScan (.queue 0) p) (rows p)).map fun t => ((t.queue 0).st, (t.queue 0).status)) = some (.error, 3)) := by decide +kernel

/-! ## Accesses out of order, collectives in order, and who may be sent away -/

/-- A store that issues and is performed later, and a bundle that has to stand behind it (R287, R292). -/
def owing : State :=
  let s := fetchingTwo
  { s with cur := { s.cur with desc := { s.cur.desc with image := { s.cur.desc.image with unstg := true } } }, late := [{ uid := s.cur.desc.uid, bytes := [(.phys (ringPA 0x8000000) false, 7, false)] }] }
theorem witness_owed_stores : owing.owesStores = true ∧ Issues owing ∧ ((stepped owing).map fun t => (t.late, t.byte (ringPA 0x8000000), t.cur.ctl.pc)) = some ([], 7, owing.cur.ctl.pc) := by
  refine ⟨by decide +kernel, ?_, by decide +kernel⟩
  constructor <;> decide +kernel
theorem test_late_store : let s := mapped (base (unstaged n6))
    let a := ringPA 0x8000000
    let t := (after (.stB 0 0 1 14 0 none) { s with bnd := { late := true } }).getD s
    ((after (.stB 0 0 1 14 0 none) s).map fun t => (t.byte a, t.late.length)) = some (7, 0) ∧ (t.byte a, t.late.map fun e => e.bytes.map (·.1)) = (0, [[.phys a false]]) ∧
    ((t.performAt 0).byte a, (t.performAt 0).late.length) = (7, 0) ∧
    (let u : State := { t with late := t.late ++ t.late }
     (u.performAt 1).late.length = 2 ∧ (u.drain 1).late = []) := by decide +kernel
/-- A read performed ahead of its word, before a store that it does not see; an acquire has it read anew (R287, R292). -/
theorem test_early_read : let s := (base n5).lookAhead 1 0x100 64 1
    let moved : State := { s with cur := { s.cur with run := { s.cur.run with scr := { cells := [(64, 9)] } } } }
    let ld := fun (s : State) => (after (.ldB 0 0 9 5 0 none) s).map fun t => t.cur.ctl.flight.map (·.eff)
    s.cur.run.ahead.length = 1 ∧ ld moved = some [.s false 9 (BitVec.ofInt 64 (-123))] ∧ ld moved.acquire = some [.s false 9 9] ∧ moved.acquire.cur.run.ahead = [] := by decide +kernel

/-- A DELIVER copy stays until the packet that left it goes on (R341), and a packet waits for room in the buffer of 16 MiB. -/
theorem test_commit_flit : let p := { collPacket with ops := [0xF800, 0xF200] }
    let t := (after (.collHop p) (alone n5)).getD (alone n5)
    let full : State := { alone n5 with link := { (alone n5).link with waiting := [{ collPacket with width := 2 ^ 27 }] } }
    (t.link.held.length, t.link.unpassed.length, t.link.waiting.length) = (0, 1, 1) ∧ ((after (.abortFlit p.tag 3) t).map fun u => (u.link.unpassed.length, u.link.waiting.length)) = some (0, 0) ∧
    full.link.roomFor 1 = false ∧ (alone n5).link.roomFor 1 = true ∧ faultOf (.collHop collPacket) full = some (.notEnabled "COLL_HOP") := by decide +kernel
/-- A RECV behind a send of the same engine whose write has arrived and is not applied (R288). -/
theorem test_receive_in_order : let s := receiving 8
    let held : State := { s with link := { s.link with pending := [{ delivery with fromUid := some 1, ord := 0 }] } }
    let c := { (s.cur.eng.colls.headD { tag := collPacket.tag, orig := false, contr := false, recv := true, cnt := 0, ui := false, hD := 0, exts := [], origDone := true, contrDone := true, recvDone := false }) with ord := 1 }
    let late : State := { held with cur := { held.cur with eng := { held.cur.eng with colls := [c] } } }
    faultOf (.collDeliverApply 0) late = some (.notEnabled "COLL_DELIVER_APPLY") ∧ ((after (.collDeliverApply 0) { late with link := { late.link with pending := [] } }).map fun t => memGet t.cur.run.scr.cells 0) = some 9 := by decide +kernel
/-- A delivery beyond a gap stays at the link stop, and a new receiver for which no gap stands accepts it (R336, R344). -/
theorem test_gap : let s := (after (.sendDelivery delivery) (alone n5)).getD (alone n5)
    let d := { delivery with seq := 2, cnt := 4 }
    let t := (after (.sendDelivery d) s).getD s
    let fresh : State := { alone n5 with link := { (alone n5).link with gaps := [d] } }
    (t.link.gaps.map (·.seq), t.cur.regs.c[4]) = ([2], 0) ∧ faultOf (.sendDelivery d) t = some (.notEnabled "SEND_DELIVERY") ∧
    ((after (.sendDelivery { delivery with seq := 1 }) t).map fun u => (u.link.gaps.length, u.cur.regs.c[4])) = some (0, 1) ∧
    ((after (.sendDelivery d) fresh).map fun u => (u.link.gaps.length, u.cur.regs.c[4])) = some (0, 1) := by decide +kernel

/-- The consumer of a pair that is not examined goes back to WAITING, one whose pair has been refused to READY (R66). -/
theorem test_sent_back : let n := fun (b : Bool) => { n5 with run := { n5.run with st := .placed, remaining := 1, behind := b } }
    (((base (n true)).unplaceOne 1).node 1).run.st = .waiting ∧ (((base (n false)).unplaceOne 1).node 1).run.st = .ready := by decide +kernel
/-- A generation change is not done while a node of its space commits behind its producer (R300). -/
theorem test_generation_waits : let s : State := { base n5 with awl := { (base n5).awl with asChange := [(0, 1, 0, 3)] } }
    (after (.asgenChangeDone 0) s).isSome = true ∧
    faultOf (.asgenChangeDone 0) { s with cur := { n5 with run := { n5.run with committing := some [] } } } = some (.notEnabled "ASGEN_CHANGE_DONE") := by decide +kernel
/-- TRET in front of a bundle that a BARB asked for leaves it asked for (R326). -/
theorem test_barb_over_handler : let s := fetching 0x0C22
    let old := { s.cur with ctl := { s.cur.ctl with trap := { s.cur.ctl.trap with act := true } } }
    let back : State := { s with cur := { s.cur with ctl := { s.cur.ctl with mustIssue := true } } }
    (back.finish 12 old).cur.ctl.mustIssue = true ∧ (back.finish 12 s.cur).cur.ctl.mustIssue = false := by decide +kernel
/-- YIELD with another node to run, and with none (R324). -/
theorem test_yield : let s := base n5
    let two : State := { s with nodes := [{ waitingNode 2 0 with run := { n5.run with st := .running } }], cores := [{ core with slots := #v[1, 2, 0, 0] }] }
    s.nextOther 0 = none ∧ two.nextOther 0 = some 2 ∧ s.switchOther.isNone = true ∧ (two.switchOther.map fun t => t.cur.desc.uid) = some 2 := by decide +kernel
/-- CPYCAN leaves what stands before a command that has begun (R282). -/
theorem test_cancel_behind_begun : let c := fun (o p : Nat) => ({ cmdOf 5 with ord := o, progress := { done := if p = 0 then [] else [0] } } : CopyCmd)
    let s := base { n5 with eng := { ca := [c 0 0, c 1 1, c 2 0], cancels := [(false, 3)], nextOrd := 4 } }
    begunLen s.cur.eng.ca = 2 ∧ (s.cancelNow 1 false).cur.eng.ca.map (·.ord) = [0, 1] := by decide +kernel
/-- Reserved bits that a host WRITE sets read zero (R2, R71, R254). -/
theorem test_reserved_bits : awlByte (firmware 0x10008) 0xFF = 0x1F ∧ awlByte (firmware 0x1000C) 0xFF = 3 ∧ awlByte (firmware 0x10028) 0xFF = 0 ∧ awlByte (firmware 0x1002) 0xFF = 1 ∧
    awlByte (firmware 0x10004) 0xFF = 0xFF ∧ awlByte (2 ^ 44) 0xFF = 0xFF := by decide +kernel
/-- An image without FLAGS.OVL has no segment table, and s0 needs its bit in a mask (R61, R62). -/
theorem test_image_readings : imgSegments (leBytes (2 ^ 0x143) 140) = [] ∧
    maskCovers { body := 0, bpkt := 1, level := 0, tmask := 0, smask := 0, amask := 0, hmask := 0, pmask := 0 } (.s 0) = false ∧
    maskCovers { body := 0, bpkt := 1, level := 0, tmask := 0, smask := 1, amask := 0, hmask := 0, pmask := 0 } (.s 0) = true := by decide +kernel
/-- A half that OP 0 takes is no half of the new binding, and a core that finds no other keeps its own (R14, R364). -/
theorem test_no_pair_left : let bad := [(0, 0, 1), (0, 1, 1), (1, 0, 0), (1, 0, 1), (1, 1, 0), (1, 1, 1)]
    let paired := { (rows 0).core 0 with halves := [{ y := 0, x := 0, half := 0 }, { y := 0, x := 1, half := 0 }] }
    let s : State := { rows 0 with cores := [paired], svc := { (rows 0).svc with halfStates := bad.map fun e => (0, e.1, e.2.1, BitVec.ofNat 1 e.2.2, .retired) } }
    paired.halves.all (fun b => s.halfGood 0 b.y b.x b.half) = true ∧ (s.pairAt 0 0 0 []).map (·.length) = some 2 ∧ errOf (s.rebindCheck 0 0 0) = some 0x61 := by decide +kernel
/-- A forwarded element of 4 bits beside one that is poisoned is poisoned, as the TLD would read it (R121, R358). -/
theorem test_forwarded_poison : let H := handle 1 0 0 1 1 + BitVec.ofNat 256 (2 ^ 38 + 2 ^ 30)
    let buf : FwdBuffer := { pAddr := 0, odd := false, slot := 3, inC := true, iter := some 0, taken := false, tile := { bits := 5 }, shape := 0, h := H }
    let c := { n6 with desc := { n6.desc with uid := 2 } }
    let s : State := { mapped (base c) with nodes := [n6], cores := [{ core with slots := #v[1, 2, 0, 0], current := 2, pairs := [{ st := .merged, p := 1, c := 2, bufs := [buf] }] }] }
    (s.forwardedPoison buf H (s.tv 0), ({ s with poison := [ringPA 0x8000000] } : State).forwardedPoison buf H (s.tv 0)) = (0, 15) := by decide +kernel
/-- A bundle that issues with its store outstanding (R287). -/
theorem test_issue_late : let s := fetching (((Instr.stB 0 0 1 14 0 none).encodeNat).getD 0)
    let n := { s.cur with desc := { s.cur.desc with image := { s.cur.desc.image with unstg := true } }, regs := { s.cur.regs with s := s.cur.regs.s.setIfInBounds 14 (tensorAddr 1 0) } }
    let t : State := { mapped { s with cur := n } with agenda := [.issueLate s.focus] }
    ((stepped t).map fun u => (u.cur.ctl.pc, u.late.length, u.bnd.late)) = some (12, 1, false) := by decide +kernel
/-- CTL.BIND of a core with one whole slab, CTL.SPLC of a producer whose pair is refused while marked, and after it has left, and CTL.EFLG (R103, R124, R319). -/
theorem test_control_reads : let s := base n1
    let sp := fun (x : SpliceState) => ({ s with cores := [{ core with pairs := [{ st := x, p := 1, c := 2, code := 5 }] }] } : State)
    let gone : State := { s with cur := { n1 with run := { n1.run with refusal := some (false, 5) } } }
    (core.halves.all fun b => decide (b.x < 32)) = true ∧ s.ctlRead 3 = BitVec.ofNat 64 (3584 * 2 ^ 8) ∧ (sp .merged).ctlRead 5 = BitVec.ofNat 64 (2 ^ 18 + 5 * 2 ^ 8 + 6) ∧
    gone.ctlRead 5 = BitVec.ofNat 64 (2 * 2 ^ 18 + 5 * 2 ^ 8 + 3) ∧ s.ctlRead 5 = 0 ∧ s.ctlRead 6 = 15 := by decide +kernel
/-- A close that nothing holds takes effect one bundle later, and one behind an open copy waits (R42, R148). -/
theorem test_close : let c := { cmdOf 5 with hD := handle 0x100 1 3 256 4 + BitVec.ofNat 256 (2 ^ 29) }
    let busy := { n5 with eng := { ca := [c] } }
    ((n5.post 0 (.close 3)).ctl.flight.map (·.eff), (n5.post 0 (.close 3)).ctl.cwaiting) = ([.cenClose 3], []) ∧
    ((busy.post 0 (.close 3)).ctl.flight.length, (busy.post 0 (.close 3)).ctl.cwaiting) = (0, [3]) ∧ busy.scaleBusy 3 = true ∧ n5.scaleBusy 3 = false := by decide +kernel

end Sys2Proof.Tests
end

section
/-! Proofs about the scalar and control words of spec/08: division (R156), bit fields (R157) and the opening of a loop level (R171). -/

open Sys2Proof Sys2Proof.Machine

namespace Sys2Proof.Proofs

/-! ## Division (R156) -/

/-- The signed quotient of R156 as an integer: its two stated results, and else the quotient of the magnitudes under the product of the signs. -/
def truncQuot (a b : Int) : Int :=
  if b = 0 then -1 else if a = -(2 ^ 63) ∧ b = -1 then -(2 ^ 63) else a.sign * b.sign * ((a.natAbs / b.natAbs : Nat) : Int)

/-- The signed remainder of R156 as an integer. -/
def truncRem (a b : Int) : Int :=
  if b = 0 then a else if a = -(2 ^ 63) ∧ b = -1 then 0 else a - b * truncQuot a b

theorem minI_64 : minI 64 = -(2 ^ 63) := rfl

theorem divTrunc_eq_signs_mul (a b : Int) : divTrunc a b = a.sign * b.sign * ((a.natAbs / b.natAbs : Nat) : Int) := by
  have key (m n : Nat) : ((m / n : Nat) : Int) = (m : Int).sign * (n : Int).sign * ((m / n : Nat) : Int) := by
    rcases m.eq_zero_or_pos with rfl | hm
    · simp
    · rcases n.eq_zero_or_pos with rfl | hn
      · simp
      · simp [Int.sign_eq_one_of_pos, hm, hn]
  unfold divTrunc
  obtain ⟨m, rfl | rfl⟩ := a.eq_nat_or_neg <;> obtain ⟨n, rfl | rfl⟩ := b.eq_nat_or_neg <;>
    simpa [Int.neg_tdiv, Int.tdiv_neg, Int.sign_neg] using key m n

theorem divS_eq_truncQuot (a b : Int) : divS a b = BitVec.ofInt 64 (truncQuot a b) := by
  unfold divS truncQuot
  rw [minI_64, divTrunc_eq_signs_mul]
  split
  · rfl
  · split <;> rfl

theorem remS_eq_truncRem (a b : Int) : remS a b = BitVec.ofInt 64 (truncRem a b) := by
  unfold remS truncRem
  rw [minI_64]
  split
  · rfl
  · next hb =>
    split
    · rfl
    · next hm => rw [truncQuot, if_neg hb, if_neg hm, divTrunc_eq_signs_mul]; rfl

/-- Settles O13: each word's result is that of R156, which the signed words compute through `divTrunc`. -/
theorem scalarDivision : Obligations.ScalarDivision := by
  unfold Obligations.ScalarDivision
  intro s q g d a b
  refine ⟨fun h => ?div, fun h => ?rem, fun h => ?divw, fun h => ?remw, by decide, by decide⟩
  case div => exact givesS_of_word (exec_div s q g d a b) h (congrArg (s.pushS 18 d) (divS_eq_truncQuot (s.sv a) (s.sv b)))
  case rem => exact givesS_of_word (exec_rem s q g d a b) h (congrArg (s.pushS 18 d) (remS_eq_truncRem (s.sv a) (s.sv b)))
  case divw => exact givesS_of_word (exec_divw s q g d a b) h rfl
  case remw =>
    rw [← Nat.mod_eq_sub]
    exact givesS_of_word (exec_remw s q g d a b) h rfl

/-! ## Bit fields (R157) -/

theorem fieldN_eq_div_mod {w : Nat} (x : BitVec w) (lo n : Nat) : fieldN x lo n = x.toNat / 2 ^ lo % 2 ^ n := by
  rw [fieldN, BitVec.extractLsb'_toNat, Nat.shiftRight_eq_div_pow]

theorem bfPos_eq (b : Word) : bfPos b = b.toNat % 64 := by
  simp [bfPos, fieldN_eq_div_mod]

theorem bfLen_eq (b : Word) : bfLen b = min (b.toNat / 256 % 128) (64 - b.toNat % 64) := by
  simp [bfLen, fieldN_eq_div_mod, bfPos_eq]

/-- The mask of R157: ones in the field, zeros elsewhere. -/
theorem getLsbD_fieldMask (p l : Nat) {j : Nat} (hj : j < 64) :
    (BitVec.ofNat 64 ((2 ^ l - 1) * 2 ^ p)).getLsbD j = decide (p ≤ j ∧ j < p + l) := by
  rw [BitVec.getLsbD_ofNat, Nat.testBit_mul_two_pow, Nat.testBit_two_pow_sub_one, Bool.eq_iff_iff]
  simp only [Bool.and_eq_true, decide_eq_true_eq]
  omega

/-- BFI bit by bit: the low bits of `a` inside the field, the bits of `d` outside. -/
theorem getLsbD_bfi (d a b : Word) {j : Nat} (hj : j < 64) :
    (bfi d a b).getLsbD j = if bfPos b ≤ j ∧ j < bfPos b + bfLen b then a.getLsbD (j - bfPos b) else d.getLsbD j := by
  unfold bfi
  simp only [BitVec.getLsbD_or, BitVec.getLsbD_and, BitVec.getLsbD_not, BitVec.getLsbD_shiftLeft, getLsbD_fieldMask _ _ hj]
  split <;> next hf => simp [hf, hj]

/-- Settles O14: the two words are `bfx` and `bfi`, whose field is the one that R157 reads from sB. -/
theorem bitFields : Obligations.BitFields := by
  unfold Obligations.BitFields
  intro s q g d a b UB p l
  have hp : p = bfPos (s.cur.s b) := (bfPos_eq _).symm
  have hl : l = bfLen (s.cur.s b) := (bfLen_eq _).symm
  rw [hp, hl]
  exact ⟨fun h => givesS_of_word (exec_bfx s q g d a b) h rfl,
    fun h => ⟨bfi (s.cur.s d) (s.cur.s a) (s.cur.s b), givesS_of_word (exec_bfi s q g d a b) h rfl, fun _ hj => getLsbD_bfi _ _ _ hj⟩⟩

/-! ## LOOP open (R171) -/

theorem toNat_levelField (n : Fin 6) : (BitVec.ofNat 3 n.val).toNat = n.val := by
  rw [BitVec.toNat_ofNat, Nat.mod_eq_of_lt (by omega)]

theorem level_ofNat (s : State) (n : Fin 6) : s.level (BitVec.ofNat 3 n.val) = s.cur.ctl.loops[n.val] := by
  rw [State.level, toNat_levelField, Vector.getElem?_eq_getElem n.isLt, Option.getD_some]

/-- The stride entries that LOOP open latches stand in the registers 2n and 2n + 1 of a level that exists (R168). -/
theorem strideEntries_getD (v : Vector Word 12) (n : Fin 6) :
    v[2 * n.val]?.getD 0 = v[2 * n.val] ∧ v[2 * n.val + 1]?.getD 0 = v[2 * n.val + 1] := by
  constructor <;> rw [Vector.getElem?_eq_getElem (by omega), Option.getD_some]

/-- Settles O17: the four cases are the four branches of the word's body. -/
theorem loopOpens : Obligations.LoopOpens := by
  unfold Obligations.LoopOpens
  intro s q n a j ext i t active h
  have run := (exec_loopOpen s q (BitVec.ofNat 3 n.val) a j ext).trans (word_runs h _)
  obtain ⟨lat0, lat1⟩ := strideEntries_getD s.cur.ctl.ls n
  dsimp only at run
  rw [level_ofNat, toNat_levelField, lat0, lat1, show s.sv a = t from rfl] at run
  refine ⟨fun hact => ?active, fun hact ht => ?skip, fun hact ht => ?tooLong, fun hact ht ht' => ?opens⟩
  case active => rw [run, if_pos hact]
  case skip => rw [run, if_neg (Bool.eq_false_iff.mp hact), if_pos ht]
  case tooLong => rw [run, if_neg (Bool.eq_false_iff.mp hact), if_neg (show ¬ t ≤ 0 by omega), if_pos ht]
  case opens => rw [run, if_neg (Bool.eq_false_iff.mp hact), if_neg (Int.not_le.mpr ht), if_neg (Int.not_lt.mpr ht')]

end Sys2Proof.Proofs
end

