-- ==== Sys2Proof/Proofs/Encoding.lean ====
section
/-! Proofs about the decoder and the encoder of spec/07: the chain bit is no part of a word's layout, every word that has a layout is read back, and a word that
decodes is the word of its instruction (R130, R133, R141, R142). -/

namespace Sys2Proof.Proofs

open Sys2Proof Sys2Proof.Machine

-- One theorem after another: side by side they need more memory than one run may take.
set_option Elab.async false

/-! ## The chain bit is read by no layout (R130) -/

theorem ofNat_div_add_chain (n k d : Nat) (h : d * 2 ^ k ∣ 2147483648) (hd : 0 < d) : BitVec.ofNat k ((n + 2147483648) / d) = BitVec.ofNat k (n / d) := by
  obtain ⟨m, hm⟩ := h
  apply BitVec.eq_of_toNat_eq
  rw [BitVec.toNat_ofNat, BitVec.toNat_ofNat, hm, mul_assoc, Nat.add_mul_div_left _ _ hd, Nat.add_mul_mod_self_left]

theorem ofNat_add_chain (n k : Nat) (h : 2 ^ k ∣ 2147483648) : BitVec.ofNat k (n + 2147483648) = BitVec.ofNat k n := by
  simpa using ofNat_div_add_chain n k 1 (by simpa using h) Nat.one_pos

theorem div_mod_add_chain (n d m : Nat) (h : d * m ∣ 2147483648) (hd : 0 < d) : (n + 2147483648) / d % m = n / d % m := by
  obtain ⟨c, hc⟩ := h
  rw [hc, mul_assoc, Nat.add_mul_div_left _ _ hd, Nat.add_mul_mod_self_left]

theorem mod_add_chain (n m : Nat) (h : m ∣ 2147483648) : (n + 2147483648) % m = n % m := by
  obtain ⟨c, hc⟩ := h
  rw [hc, Nat.add_mul_mod_self_left]

/-- One arm of a class's opcode map, and the arms after it. -/
theorem ite_arm {α : Type} {c : Prop} [Decidable c] {a b a' b' : α} (h : a = a') (h' : b = b') : (if c then a else b) = if c then a' else b' := by
  rw [h, h']

theorem decodeS_add_chain (n : Nat) : decodeS (n + 2147483648) = decodeS n := by
  unfold decodeS
  dsimp only
  rw [div_mod_add_chain n _ _ (by decide) (by decide)]
  iterate 39 (apply ite_arm; · simp (disch := decide) only [ofNat_div_add_chain, ofNat_add_chain, div_mod_add_chain, mod_add_chain])
  rfl

theorem decodeSI_add_chain (n : Nat) : decodeSI (n + 2147483648) = decodeSI n := by
  unfold decodeSI
  dsimp only
  rw [div_mod_add_chain n _ _ (by decide) (by decide)]
  iterate 9 (apply ite_arm; · simp (disch := decide) only [ofNat_div_add_chain, ofNat_add_chain, div_mod_add_chain, mod_add_chain])
  rfl

theorem decodeB_add_chain (n : Nat) : decodeB (n + 2147483648) = decodeB n := by
  unfold decodeB
  dsimp only
  rw [div_mod_add_chain n _ _ (by decide) (by decide)]
  iterate 10 (apply ite_arm; · simp (disch := decide) only [ofNat_div_add_chain, ofNat_add_chain, div_mod_add_chain, mod_add_chain])
  rfl

theorem decodeSM_add_chain (n : Nat) : decodeSM (n + 2147483648) = decodeSM n := by
  unfold decodeSM
  dsimp only
  rw [div_mod_add_chain n _ _ (by decide) (by decide)]
  iterate 25 (apply ite_arm; · simp (disch := decide) only [ofNat_div_add_chain, ofNat_add_chain, div_mod_add_chain, mod_add_chain])
  rfl

theorem decodeX_add_chain (n : Nat) : decodeX (n + 2147483648) = decodeX n := by
  unfold decodeX
  dsimp only
  rw [div_mod_add_chain n _ _ (by decide) (by decide)]
  iterate 12 (apply ite_arm; · simp (disch := decide) only [ofNat_div_add_chain, ofNat_add_chain, div_mod_add_chain, mod_add_chain])
  rfl

theorem decodeV_add_chain (n : Nat) : decodeV (n + 2147483648) = decodeV n := by
  unfold decodeV
  dsimp only
  rw [div_mod_add_chain n _ _ (by decide) (by decide)]
  iterate 26 (apply ite_arm; · simp (disch := decide) only [ofNat_div_add_chain, ofNat_add_chain, div_mod_add_chain, mod_add_chain])
  rfl

theorem decodeVI_add_chain (n : Nat) : decodeVI (n + 2147483648) = decodeVI n := by
  unfold decodeVI
  dsimp only
  rw [div_mod_add_chain n _ _ (by decide) (by decide)]
  iterate 21 (apply ite_arm; · simp (disch := decide) only [ofNat_div_add_chain, ofNat_add_chain, div_mod_add_chain, mod_add_chain])
  rfl

theorem decodeVL_add_chain (n : Nat) : decodeVL (n + 2147483648) = decodeVL n := by
  simp (disch := decide) only [decodeVL, ofNat_div_add_chain, ofNat_add_chain, div_mod_add_chain, mod_add_chain]

theorem decodeVR_add_chain (n : Nat) : decodeVR (n + 2147483648) = decodeVR n := by
  unfold decodeVR
  dsimp only
  rw [div_mod_add_chain n _ _ (by decide) (by decide)]
  iterate 11 (apply ite_arm; · simp (disch := decide) only [ofNat_div_add_chain, ofNat_add_chain, div_mod_add_chain, mod_add_chain])
  rfl

theorem decodeM_add_chain (n : Nat) : decodeM (n + 2147483648) = decodeM n := by
  unfold decodeM
  dsimp only
  rw [div_mod_add_chain n _ _ (by decide) (by decide)]
  iterate 9 (apply ite_arm; · simp (disch := decide) only [ofNat_div_add_chain, ofNat_add_chain, div_mod_add_chain, mod_add_chain])
  rfl

theorem decodeT_add_chain (n : Nat) : decodeT (n + 2147483648) = decodeT n := by
  unfold decodeT
  dsimp only
  rw [div_mod_add_chain n _ _ (by decide) (by decide)]
  iterate 12 (apply ite_arm; · simp (disch := decide) only [ofNat_div_add_chain, ofNat_add_chain, div_mod_add_chain, mod_add_chain])
  rfl

theorem decodeC_add_chain (n : Nat) : decodeC (n + 2147483648) = decodeC n := by
  unfold decodeC
  dsimp only
  rw [div_mod_add_chain n _ _ (by decide) (by decide)]
  iterate 10 (apply ite_arm; · simp (disch := decide) only [ofNat_div_add_chain, ofNat_add_chain, div_mod_add_chain, mod_add_chain])
  rfl

theorem decodeY_add_chain (n : Nat) : decodeY (n + 2147483648) = decodeY n := by
  unfold decodeY
  dsimp only
  rw [div_mod_add_chain n _ _ (by decide) (by decide)]
  iterate 9 (apply ite_arm; · simp (disch := decide) only [ofNat_div_add_chain, ofNat_add_chain, div_mod_add_chain, mod_add_chain])
  rfl

theorem decodeE_add_chain (n : Nat) : decodeE (n + 2147483648) = decodeE n := by
  simp (disch := decide) only [decodeE, ofNat_div_add_chain, ofNat_add_chain, div_mod_add_chain, mod_add_chain]

theorem decodeN_add_chain (n : Nat) : decodeN (n + 2147483648) = decodeN n := by
  simp (disch := decide) only [decodeN, ofNat_div_add_chain, ofNat_add_chain, div_mod_add_chain, mod_add_chain]

theorem decodeNat_add_chain (n : Nat) : decodeNat (n + 2147483648) = decodeNat n := by
  unfold decodeNat
  dsimp only
  rw [div_mod_add_chain n _ _ (by decide) (by decide)]
  simp only [decodeS_add_chain, decodeSI_add_chain, decodeB_add_chain, decodeSM_add_chain, decodeX_add_chain, decodeV_add_chain, decodeVI_add_chain, decodeVL_add_chain, decodeVR_add_chain, decodeM_add_chain, decodeT_add_chain, decodeC_add_chain, decodeY_add_chain, decodeE_add_chain, decodeN_add_chain]

/-! ## A word that decodes is the word of its instruction (R141, R142) -/

/-- The instruction's word is `w` without its chain bit. -/
def WordOf (w : Nat) (r : Except DecodeError Instr) : Prop := ∀ i, r = .ok i → i.encodeNat = some (w % 2147483648)

theorem wordOf_error (w : Nat) (e : DecodeError) : WordOf w (.error e) := fun _ h => nomatch h

theorem wordOf_ok {w n : Nat} {i : Instr} (h : i.encodeNat = some n) (hn : n = w % 2147483648) : WordOf w (.ok i) :=
  fun _ e => Except.ok.inj e ▸ hn ▸ h

theorem wordOf_ite {w : Nat} {c : Prop} [Decidable c] {a b : Except DecodeError Instr} (ha : c → WordOf w a) (hb : WordOf w b) :
    WordOf w (if c then a else b) := by
  split
  · next h => exact ha h
  · exact hb

/-- The words with three operands. -/
theorem wordOf_decodeS_low {w : Nat} (hc : w / 33554432 % 16 = 0) (ho : w / 32768 % 64 < 25) : WordOf w (decodeS w) := by
  unfold decodeS
  dsimp only
  iterate 25 refine wordOf_ite (fun _ => wordOf_ok rfl (by simp only [BitVec.toNat_ofNat]; omega)) ?_
  repeat refine wordOf_ite (fun _ => by omega) ?_
  exact wordOf_error _ _

/-- The words of one source, the bit fields, SEL, the moves and the comparisons. -/
theorem wordOf_decodeS_high {w : Nat} (hc : w / 33554432 % 16 = 0) (ho : 25 ≤ w / 32768 % 64) : WordOf w (decodeS w) := by
  unfold decodeS
  dsimp only
  iterate 25 refine wordOf_ite (fun _ => by omega) ?_
  repeat' refine wordOf_ite (fun _ => ?_) ?_
  all_goals first
    | exact wordOf_error _ _
    | (refine wordOf_ok rfl ?_; simp only [BitVec.toNat_ofNat]; omega)

theorem wordOf_decodeS {w : Nat} (hc : w / 33554432 % 16 = 0) : WordOf w (decodeS w) :=
  (Nat.lt_or_ge _ _).elim (wordOf_decodeS_low hc) (wordOf_decodeS_high hc)

theorem wordOf_decodeSI {w : Nat} (hc : w / 33554432 % 16 = 1) : WordOf w (decodeSI w) := by
  unfold decodeSI
  dsimp only
  repeat' refine wordOf_ite (fun _ => ?_) ?_
  all_goals first
    | exact wordOf_error _ _
    | (refine wordOf_ok rfl ?_; simp only [BitVec.toNat_ofNat]; omega)

theorem wordOf_decodeB {w : Nat} (hc : w / 33554432 % 16 = 2) : WordOf w (decodeB w) := by
  unfold decodeB
  dsimp only
  repeat' refine wordOf_ite (fun _ => ?_) ?_
  all_goals first
    | exact wordOf_error _ _
    | (refine wordOf_ok rfl ?_; simp only [BitVec.toNat_ofNat]; omega)
    | exact wordOf_ok rfl (by omega)

theorem wordOf_decodeSM {w : Nat} (hc : w / 33554432 % 16 = 3) : WordOf w (decodeSM w) := by
  unfold decodeSM
  dsimp only
  repeat' refine wordOf_ite (fun _ => ?_) ?_
  all_goals first
    | exact wordOf_error _ _
    | (refine wordOf_ok rfl ?_; simp only [BitVec.toNat_ofNat]; omega)

theorem wordOf_decodeX {w : Nat} (hc : w / 33554432 % 16 = 4) : WordOf w (decodeX w) := by
  unfold decodeX
  dsimp only
  repeat' refine wordOf_ite (fun _ => ?_) ?_
  all_goals first
    | exact wordOf_error _ _
    | (refine wordOf_ok rfl ?_; simp only [BitVec.toNat_ofNat]; omega)
    | exact wordOf_ok rfl (by omega)

theorem wordOf_decodeV {w : Nat} (hc : w / 33554432 % 16 = 5) : WordOf w (decodeV w) := by
  unfold decodeV
  dsimp only
  repeat' refine wordOf_ite (fun _ => ?_) ?_
  all_goals first
    | exact wordOf_error _ _
    | (refine wordOf_ok rfl ?_; simp only [BitVec.toNat_ofNat]; omega)

theorem wordOf_decodeVI {w : Nat} (hc : w / 33554432 % 16 = 6) : WordOf w (decodeVI w) := by
  unfold decodeVI
  dsimp only
  repeat' refine wordOf_ite (fun _ => ?_) ?_
  all_goals first
    | exact wordOf_error _ _
    | (refine wordOf_ok rfl ?_; simp only [BitVec.toNat_ofNat]; omega)

theorem wordOf_decodeVL {w : Nat} (hc : w / 33554432 % 16 = 7) : WordOf w (decodeVL w) := by
  unfold decodeVL
  split_ifs <;> (refine wordOf_ok rfl ?_; simp only [BitVec.toNat_ofNat]; omega)

theorem wordOf_decodeVR {w : Nat} (hc : w / 33554432 % 16 = 8) : WordOf w (decodeVR w) := by
  unfold decodeVR
  dsimp only
  repeat' refine wordOf_ite (fun _ => ?_) ?_
  all_goals first
    | exact wordOf_error _ _
    | (refine wordOf_ok rfl ?_; simp only [BitVec.toNat_ofNat]; omega)

theorem wordOf_decodeM {w : Nat} (hc : w / 33554432 % 16 = 9) : WordOf w (decodeM w) := by
  unfold decodeM
  dsimp only
  repeat' refine wordOf_ite (fun _ => ?_) ?_
  all_goals first
    | exact wordOf_error _ _
    | (refine wordOf_ok rfl ?_; simp only [BitVec.toNat_ofNat]; omega)

theorem wordOf_decodeT {w : Nat} (hc : w / 33554432 % 16 = 10) : WordOf w (decodeT w) := by
  unfold decodeT
  dsimp only
  repeat' refine wordOf_ite (fun _ => ?_) ?_
  all_goals first
    | exact wordOf_error _ _
    | (refine wordOf_ok rfl ?_; simp only [BitVec.toNat_ofNat]; omega)

theorem wordOf_decodeC {w : Nat} (hc : w / 33554432 % 16 = 11) : WordOf w (decodeC w) := by
  unfold decodeC
  dsimp only
  repeat' refine wordOf_ite (fun _ => ?_) ?_
  all_goals first
    | exact wordOf_error _ _
    | (refine wordOf_ok rfl ?_; simp only [BitVec.toNat_ofNat]; omega)

theorem wordOf_decodeY {w : Nat} (hc : w / 33554432 % 16 = 12) : WordOf w (decodeY w) := by
  unfold decodeY
  dsimp only
  repeat' refine wordOf_ite (fun _ => ?_) ?_
  all_goals first
    | exact wordOf_error _ _
    | (refine wordOf_ok rfl ?_; simp only [BitVec.toNat_ofNat]; omega)

theorem wordOf_decodeE {w : Nat} (hc : w / 33554432 % 16 = 13) : WordOf w (decodeE w) := by
  unfold decodeE
  repeat' refine wordOf_ite (fun _ => ?_) ?_
  all_goals first
    | exact wordOf_error _ _
    | (refine wordOf_ok rfl ?_; simp only [BitVec.toNat_ofNat]; omega)

theorem wordOf_decodeN {w : Nat} (hc : w / 33554432 % 16 = 15) : WordOf w (decodeN w) := by
  unfold decodeN
  all_goals first
    | exact wordOf_error _ _
    | (refine wordOf_ok rfl ?_; simp only [BitVec.toNat_ofNat]; omega)

theorem wordOf_decodeNat (w : Nat) : WordOf w (decodeNat w) := by
  unfold decodeNat
  dsimp only
  refine wordOf_ite wordOf_decodeS ?_
  refine wordOf_ite wordOf_decodeSI ?_
  refine wordOf_ite wordOf_decodeB ?_
  refine wordOf_ite wordOf_decodeSM ?_
  refine wordOf_ite wordOf_decodeX ?_
  refine wordOf_ite wordOf_decodeV ?_
  refine wordOf_ite wordOf_decodeVI ?_
  refine wordOf_ite wordOf_decodeVL ?_
  refine wordOf_ite wordOf_decodeVR ?_
  refine wordOf_ite wordOf_decodeM ?_
  refine wordOf_ite wordOf_decodeT ?_
  refine wordOf_ite wordOf_decodeC ?_
  refine wordOf_ite wordOf_decodeY ?_
  refine wordOf_ite wordOf_decodeE ?_
  refine wordOf_ite wordOf_decodeN ?_
  exact wordOf_error _ _

/-! ## Unassigned codes (R141) -/

/-- An arm of an opcode map that is not the word's. -/
theorem error_of_ite {c : Prop} [Decidable c] {a b : Except DecodeError Instr} (h : ¬c) (hb : ∃ e, b = .error e) : ∃ e, (if c then a else b) = .error e := by
  rwa [if_neg h]

theorem decodeS_unassigned {w : Nat} (h : 0x27 ≤ w / 32768 % 64) : ∃ e, decodeS w = .error e := by
  unfold decodeS
  dsimp only
  iterate 39 refine error_of_ite (by omega) ?_
  exact ⟨_, rfl⟩

theorem decodeSI_unassigned {w : Nat} (h : 9 ≤ w / 2097152 % 16) : ∃ e, decodeSI w = .error e := by
  unfold decodeSI
  dsimp only
  iterate 9 refine error_of_ite (by omega) ?_
  exact ⟨_, rfl⟩

theorem decodeB_unassigned {w : Nat} (h : 10 ≤ w / 131072 % 16) : ∃ e, decodeB w = .error e := by
  unfold decodeB
  dsimp only
  iterate 10 refine error_of_ite (by omega) ?_
  exact ⟨_, rfl⟩

theorem decodeSM_unassigned {w : Nat} (h : w / 65536 % 32 ∈ [0x0F, 0x1A, 0x1B, 0x1C, 0x1D, 0x1E, 0x1F]) : ∃ e, decodeSM w = .error e := by
  unfold decodeSM
  dsimp only
  simp only [List.mem_cons, List.not_mem_nil, or_false] at h
  iterate 25 refine error_of_ite (by omega) ?_
  exact ⟨_, rfl⟩

theorem decodeX_unassigned {w : Nat} (h : 12 ≤ w / 131072 % 16) : ∃ e, decodeX w = .error e := by
  unfold decodeX
  dsimp only
  iterate 12 refine error_of_ite (by omega) ?_
  exact ⟨_, rfl⟩

theorem decodeV_unassigned {w : Nat} (h : 0x1A ≤ w / 1048576 % 32) : ∃ e, decodeV w = .error e := by
  unfold decodeV
  dsimp only
  iterate 26 refine error_of_ite (by omega) ?_
  exact ⟨_, rfl⟩

theorem decodeVI_unassigned {w : Nat} (h : 0x15 ≤ w / 1048576 % 32) : ∃ e, decodeVI w = .error e := by
  unfold decodeVI
  dsimp only
  iterate 21 refine error_of_ite (by omega) ?_
  exact ⟨_, rfl⟩

theorem decodeVR_unassigned {w : Nat} (h : 0x0B ≤ w / 1048576 % 32) : ∃ e, decodeVR w = .error e := by
  unfold decodeVR
  dsimp only
  iterate 11 refine error_of_ite (by omega) ?_
  exact ⟨_, rfl⟩

theorem decodeM_unassigned {w : Nat} (h : 9 ≤ w / 2097152 % 16) : ∃ e, decodeM w = .error e := by
  unfold decodeM
  dsimp only
  iterate 9 refine error_of_ite (by omega) ?_
  exact ⟨_, rfl⟩

theorem decodeT_unassigned {w : Nat} (h : 12 ≤ w / 131072 % 16) : ∃ e, decodeT w = .error e := by
  unfold decodeT
  dsimp only
  iterate 12 refine error_of_ite (by omega) ?_
  exact ⟨_, rfl⟩

theorem decodeC_unassigned {w : Nat} (h : 10 ≤ w / 131072 % 16) : ∃ e, decodeC w = .error e := by
  unfold decodeC
  dsimp only
  iterate 10 refine error_of_ite (by omega) ?_
  exact ⟨_, rfl⟩

theorem decodeY_unassigned {w : Nat} (h : 9 ≤ w / 131072 % 16) : ∃ e, decodeY w = .error e := by
  unfold decodeY
  dsimp only
  iterate 9 refine error_of_ite (by omega) ?_
  exact ⟨_, rfl⟩

/-- The decoder goes to the map of the word's class. -/
theorem decodeNat_class {w : Nat} :
    (w / 33554432 % 16 = 0 → decodeNat w = decodeS w) ∧
    (w / 33554432 % 16 = 1 → decodeNat w = decodeSI w) ∧
    (w / 33554432 % 16 = 2 → decodeNat w = decodeB w) ∧
    (w / 33554432 % 16 = 3 → decodeNat w = decodeSM w) ∧
    (w / 33554432 % 16 = 4 → decodeNat w = decodeX w) ∧
    (w / 33554432 % 16 = 5 → decodeNat w = decodeV w) ∧
    (w / 33554432 % 16 = 6 → decodeNat w = decodeVI w) ∧
    (w / 33554432 % 16 = 7 → decodeNat w = decodeVL w) ∧
    (w / 33554432 % 16 = 8 → decodeNat w = decodeVR w) ∧
    (w / 33554432 % 16 = 9 → decodeNat w = decodeM w) ∧
    (w / 33554432 % 16 = 10 → decodeNat w = decodeT w) ∧
    (w / 33554432 % 16 = 11 → decodeNat w = decodeC w) ∧
    (w / 33554432 % 16 = 12 → decodeNat w = decodeY w) ∧
    (w / 33554432 % 16 = 13 → decodeNat w = decodeE w) ∧
    (w / 33554432 % 16 = 15 → decodeNat w = decodeN w) ∧
    (w / 33554432 % 16 = 14 → decodeNat w = .error .reservedClass) := by
  unfold decodeNat
  dsimp only
  refine ⟨?_, ?_, ?_, ?_, ?_, ?_, ?_, ?_, ?_, ?_, ?_, ?_, ?_, ?_, ?_, ?_⟩ <;> intro h <;> rw [h] <;> rfl

/-- Settles O3, arm by arm of the opcode map. -/
theorem wordsAndInstructionsCorrespond : Obligations.WordsAndInstructionsCorrespond := by
  unfold Obligations.WordsAndInstructionsCorrespond
  refine ⟨fun w i h => wordOf_decodeNat w.toNat i h, fun w => ?_⟩
  simp only [fieldN_eq_div_mod, List.contains_iff_mem, decodeWord]
  norm_num only
  obtain ⟨hS, hSI, hB, hSM, hX, hV, hVI, hVL, hVR, hM, hT, hC, hY, hE, hN, hNone⟩ := decodeNat_class (w := w.toNat)
  rintro (h | ⟨hc, h⟩ | ⟨hc, h⟩ | ⟨hc, h⟩ | ⟨hc, h⟩ | ⟨hc, h⟩ | ⟨hc, h⟩ | ⟨hc, h⟩ | ⟨hc, h⟩ | ⟨hc, h⟩ | ⟨hc, h⟩ | ⟨hc, h⟩ | ⟨hc, h⟩)
  · exact ⟨_, hNone h⟩
  · exact hS hc ▸ decodeS_unassigned h
  · exact hSI hc ▸ decodeSI_unassigned h
  · exact hB hc ▸ decodeB_unassigned h
  · exact hSM hc ▸ decodeSM_unassigned h
  · exact hX hc ▸ decodeX_unassigned h
  · exact hV hc ▸ decodeV_unassigned h
  · exact hVI hc ▸ decodeVI_unassigned h
  · exact hVR hc ▸ decodeVR_unassigned h
  · exact hM hc ▸ decodeM_unassigned h
  · exact hT hc ▸ decodeT_unassigned h
  · exact hC hc ▸ decodeC_unassigned h
  · exact hY hc ▸ decodeY_unassigned h

/-! ## Every word that has a layout reads back (R130, R133) -/

theorem encodeDecode (i : Instr) : Laws.EncodeDecode.Statement i := by
  cases i with
  | add => exact Laws.EncodeDecode.add _ _ _ _ _
  | sub => exact Laws.EncodeDecode.sub _ _ _ _ _
  | addS => exact Laws.EncodeDecode.addS _ _ _ _ _
  | subS => exact Laws.EncodeDecode.subS _ _ _ _ _
  | and => exact Laws.EncodeDecode.and _ _ _ _ _
  | or => exact Laws.EncodeDecode.or _ _ _ _ _
  | xor => exact Laws.EncodeDecode.xor _ _ _ _ _
  | andn => exact Laws.EncodeDecode.andn _ _ _ _ _
  | shl => exact Laws.EncodeDecode.shl _ _ _ _ _
  | shlS => exact Laws.EncodeDecode.shlS _ _ _ _ _
  | shr => exact Laws.EncodeDecode.shr _ _ _ _ _
  | sar => exact Laws.EncodeDecode.sar _ _ _ _ _
  | rot => exact Laws.EncodeDecode.rot _ _ _ _ _
  | mul => exact Laws.EncodeDecode.mul _ _ _ _ _
  | mulS => exact Laws.EncodeDecode.mulS _ _ _ _ _
  | mulh => exact Laws.EncodeDecode.mulh _ _ _ _ _
  | mulhw => exact Laws.EncodeDecode.mulhw _ _ _ _ _
  | div => exact Laws.EncodeDecode.div _ _ _ _ _
  | divw => exact Laws.EncodeDecode.divw _ _ _ _ _
  | rem => exact Laws.EncodeDecode.rem _ _ _ _ _
  | remw => exact Laws.EncodeDecode.remw _ _ _ _ _
  | min => exact Laws.EncodeDecode.min _ _ _ _ _
  | max => exact Laws.EncodeDecode.max _ _ _ _ _
  | minw => exact Laws.EncodeDecode.minw _ _ _ _ _
  | maxw => exact Laws.EncodeDecode.maxw _ _ _ _ _
  | clz => exact Laws.EncodeDecode.clz _ _ _ _
  | cls => exact Laws.EncodeDecode.cls _ _ _ _
  | popc => exact Laws.EncodeDecode.popc _ _ _ _
  | bfx => exact Laws.EncodeDecode.bfx _ _ _ _ _
  | bfi => exact Laws.EncodeDecode.bfi _ _ _ _ _
  | sel => exact Laws.EncodeDecode.sel _ _ _ _ _
  | mov => exact Laws.EncodeDecode.mov _ _ _ _
  | movp => exact Laws.EncodeDecode.movp _ _ _ _ _ _ _ _
  | cmpEq => exact Laws.EncodeDecode.cmpEq _ _ _ _ _
  | cmpNe => exact Laws.EncodeDecode.cmpNe _ _ _ _ _
  | cmpLt => exact Laws.EncodeDecode.cmpLt _ _ _ _ _
  | cmpGe => exact Laws.EncodeDecode.cmpGe _ _ _ _ _
  | cmpLtw => exact Laws.EncodeDecode.cmpLtw _ _ _ _ _
  | cmpGew => exact Laws.EncodeDecode.cmpGew _ _ _ _ _
  | addi => exact Laws.EncodeDecode.addi _ _ _ _ _
  | li => exact Laws.EncodeDecode.li _ _ _ _
  | lih => exact Laws.EncodeDecode.lih _ _ _ _
  | cmpiEq => exact Laws.EncodeDecode.cmpiEq _ _ _ _ _
  | cmpiNe => exact Laws.EncodeDecode.cmpiNe _ _ _ _ _
  | cmpiLt => exact Laws.EncodeDecode.cmpiLt _ _ _ _ _
  | cmpiGe => exact Laws.EncodeDecode.cmpiGe _ _ _ _ _
  | cmpiLtw => exact Laws.EncodeDecode.cmpiLtw _ _ _ _ _
  | cmpiGew => exact Laws.EncodeDecode.cmpiGew _ _ _ _ _
  | brRel => exact Laws.EncodeDecode.brRel _ _ _ _
  | brAbs => exact Laws.EncodeDecode.brAbs _ _ _ _
  | callRel => exact Laws.EncodeDecode.callRel _ _ _ _
  | callAbs => exact Laws.EncodeDecode.callAbs _ _ _ _
  | ret => exact Laws.EncodeDecode.ret _ _ _
  | brc => exact Laws.EncodeDecode.brc _ _ _ _ _ _
  | brf => exact Laws.EncodeDecode.brf _ _ _ _ _ _ _
  | loopOpen => exact Laws.EncodeDecode.loopOpen _ _ _ _ _
  | loopClose => exact Laws.EncodeDecode.loopClose _ _ _ _
  | loopr => exact Laws.EncodeDecode.loopr _ _ _ _ _
  | lbrk => exact Laws.EncodeDecode.lbrk _ _ _ _ _
  | segx => exact Laws.EncodeDecode.segx _ _ _
  | endNode => exact Laws.EncodeDecode.endNode
  | ldB => exact Laws.EncodeDecode.ldB _ _ _ _ _ _
  | ldH => exact Laws.EncodeDecode.ldH _ _ _ _ _ _
  | ldW => exact Laws.EncodeDecode.ldW _ _ _ _ _ _
  | ldD => exact Laws.EncodeDecode.ldD _ _ _ _ _ _
  | ldW8 => exact Laws.EncodeDecode.ldW8 _ _ _ _ _ _
  | ldW16 => exact Laws.EncodeDecode.ldW16 _ _ _ _ _ _
  | ldW32 => exact Laws.EncodeDecode.ldW32 _ _ _ _ _ _
  | ldAcq => exact Laws.EncodeDecode.ldAcq _ _ _ _ _ _
  | stB => exact Laws.EncodeDecode.stB _ _ _ _ _ _
  | stH => exact Laws.EncodeDecode.stH _ _ _ _ _ _
  | stW => exact Laws.EncodeDecode.stW _ _ _ _ _ _
  | stD => exact Laws.EncodeDecode.stD _ _ _ _ _ _
  | stRel => exact Laws.EncodeDecode.stRel _ _ _ _ _ _
  | ldh => exact Laws.EncodeDecode.ldh _ _ _ _ _ _
  | sth => exact Laws.EncodeDecode.sth _ _ _ _ _ _
  | amoAdd => exact Laws.EncodeDecode.amoAdd _ _ _ _ _ _ _
  | amoAdds => exact Laws.EncodeDecode.amoAdds _ _ _ _ _ _ _
  | amoMin => exact Laws.EncodeDecode.amoMin _ _ _ _ _ _ _
  | amoMax => exact Laws.EncodeDecode.amoMax _ _ _ _ _ _ _
  | amoAnd => exact Laws.EncodeDecode.amoAnd _ _ _ _ _ _ _
  | amoOr => exact Laws.EncodeDecode.amoOr _ _ _ _ _ _ _
  | amoXor => exact Laws.EncodeDecode.amoXor _ _ _ _ _ _ _
  | amoSwap => exact Laws.EncodeDecode.amoSwap _ _ _ _ _ _ _
  | amoCas => exact Laws.EncodeDecode.amoCas _ _ _ _ _ _ _
  | amoIncw => exact Laws.EncodeDecode.amoIncw _ _ _ _ _ _ _
  | trap => exact Laws.EncodeDecode.trap _ _ _
  | tret => exact Laws.EncodeDecode.tret _
  | uiret => exact Laws.EncodeDecode.uiret _
  | ctlr => exact Laws.EncodeDecode.ctlr _ _ _ _
  | ctlw => exact Laws.EncodeDecode.ctlw _ _ _ _
  | fence => exact Laws.EncodeDecode.fence _ _ _ _ _
  | brk => exact Laws.EncodeDecode.brk _ _ _
  | cmpt => exact Laws.EncodeDecode.cmpt _ _ _ _
  | enq => exact Laws.EncodeDecode.enq _ _ _ _
  | yield => exact Laws.EncodeDecode.yield _ _
  | genr => exact Laws.EncodeDecode.genr _ _ _
  | idle => exact Laws.EncodeDecode.idle _
  | vadd => exact Laws.EncodeDecode.vadd _ _ _ _ _
  | vsub => exact Laws.EncodeDecode.vsub _ _ _ _ _
  | vadds => exact Laws.EncodeDecode.vadds _ _ _ _ _
  | vsubs => exact Laws.EncodeDecode.vsubs _ _ _ _ _
  | vmul => exact Laws.EncodeDecode.vmul _ _ _ _ _ _
  | vmulh => exact Laws.EncodeDecode.vmulh _ _ _ _ _
  | vmac => exact Laws.EncodeDecode.vmac _ _ _ _ _ _
  | vmin => exact Laws.EncodeDecode.vmin _ _ _ _ _
  | vmax => exact Laws.EncodeDecode.vmax _ _ _ _ _
  | vand => exact Laws.EncodeDecode.vand _ _ _ _
  | vor => exact Laws.EncodeDecode.vor _ _ _ _
  | vxor => exact Laws.EncodeDecode.vxor _ _ _ _
  | vandn => exact Laws.EncodeDecode.vandn _ _ _ _
  | vsel => exact Laws.EncodeDecode.vsel _ _ _ _
  | vcmpEq => exact Laws.EncodeDecode.vcmpEq _ _ _ _
  | vcmpNe => exact Laws.EncodeDecode.vcmpNe _ _ _ _
  | vcmpLt => exact Laws.EncodeDecode.vcmpLt _ _ _ _
  | vcmpGe => exact Laws.EncodeDecode.vcmpGe _ _ _ _
  | vcmpLtw => exact Laws.EncodeDecode.vcmpLtw _ _ _ _
  | vcmpGew => exact Laws.EncodeDecode.vcmpGew _ _ _ _
  | vperm => exact Laws.EncodeDecode.vperm _ _ _ _
  | vgath => exact Laws.EncodeDecode.vgath _ _ _ _
  | vscat => exact Laws.EncodeDecode.vscat _ _ _ _
  | vcmpt => exact Laws.EncodeDecode.vcmpt _ _ _
  | tld => exact Laws.EncodeDecode.tld _ _ _ _
  | tst => exact Laws.EncodeDecode.tst _ _ _ _ _
  | vshl => exact Laws.EncodeDecode.vshl _ _ _ _ _
  | vshr => exact Laws.EncodeDecode.vshr _ _ _ _ _
  | vsar => exact Laws.EncodeDecode.vsar _ _ _ _ _
  | vshrn => exact Laws.EncodeDecode.vshrn _ _ _ _ _ _
  | vabs => exact Laws.EncodeDecode.vabs _ _ _ _
  | vneg => exact Laws.EncodeDecode.vneg _ _ _ _
  | vclz => exact Laws.EncodeDecode.vclz _ _ _
  | vcls => exact Laws.EncodeDecode.vcls _ _ _
  | vpopc => exact Laws.EncodeDecode.vpopc _ _ _
  | vcvt => exact Laws.EncodeDecode.vcvt _ _ _ _ _
  | vpack => exact Laws.EncodeDecode.vpack _ _ _ _ _
  | vunpk => exact Laws.EncodeDecode.vunpk _ _ _ _ _
  | vrotl => exact Laws.EncodeDecode.vrotl _ _ _ _ _ _
  | vbcast => exact Laws.EncodeDecode.vbcast _ _ _
  | vbcastRow => exact Laws.EncodeDecode.vbcastRow _ _ _
  | vbcastCol => exact Laws.EncodeDecode.vbcastCol _ _ _
  | vmov => exact Laws.EncodeDecode.vmov _ _ _
  | vredsum => exact Laws.EncodeDecode.vredsum _ _ _ _ _
  | vredmax => exact Laws.EncodeDecode.vredmax _ _ _ _ _
  | vredmin => exact Laws.EncodeDecode.vredmin _ _ _ _ _
  | vabsmax => exact Laws.EncodeDecode.vabsmax _ _ _ _
  | vpart => exact Laws.EncodeDecode.vpart _ _ _ _
  | vscan => exact Laws.EncodeDecode.vscan _ _ _ _ _ _
  | vlut3 => exact Laws.EncodeDecode.vlut3 _ _ _ _ _
  | vfsl => exact Laws.EncodeDecode.vfsl _ _ _ _ _
  | vfsr => exact Laws.EncodeDecode.vfsr _ _ _ _ _
  | vexp2 => exact Laws.EncodeDecode.vexp2 _ _ _ _ _
  | vlog2 => exact Laws.EncodeDecode.vlog2 _ _ _ _ _
  | vrcp => exact Laws.EncodeDecode.vrcp _ _ _ _ _
  | vrsq => exact Laws.EncodeDecode.vrsq _ _ _ _ _
  | vsmax => exact Laws.EncodeDecode.vsmax _ _ _ _
  | vrmsn => exact Laws.EncodeDecode.vrmsn _ _ _ _ _
  | vlnrm => exact Laws.EncodeDecode.vlnrm _ _ _ _ _
  | vgelu => exact Laws.EncodeDecode.vgelu _ _ _ _ _
  | voptSgdm => exact Laws.EncodeDecode.voptSgdm _ _ _ _ _ _
  | voptLion => exact Laws.EncodeDecode.voptLion _ _ _ _ _ _
  | voptAdam => exact Laws.EncodeDecode.voptAdam _ _ _ _ _ _
  | mbeg => exact Laws.EncodeDecode.mbeg _ _ _
  | mend => exact Laws.EncodeDecode.mend _ _
  | mzero => exact Laws.EncodeDecode.mzero _ _
  | mma => exact Laws.EncodeDecode.mma _ _ _ _ _
  | mmat => exact Laws.EncodeDecode.mmat _ _ _ _ _
  | epi => exact Laws.EncodeDecode.epi _ _ _ _ _ _ _ _
  | epiAdd => exact Laws.EncodeDecode.epiAdd _ _ _ _ _ _ _ _ _
  | epiSend => exact Laws.EncodeDecode.epiSend _ _ _ _ _ _ _
  | epiCk => exact Laws.EncodeDecode.epiCk _ _ _
  | hset => exact Laws.EncodeDecode.hset _ _ _ _ _
  | hld => exact Laws.EncodeDecode.hld _ _ _ _ _
  | hst => exact Laws.EncodeDecode.hst _ _ _ _ _
  | horg => exact Laws.EncodeDecode.horg _ _ _ _ _
  | horgImm => exact Laws.EncodeDecode.horgImm _ _ _ _ _ _
  | hstep => exact Laws.EncodeDecode.hstep _ _ _ _ _
  | hstepImm => exact Laws.EncodeDecode.hstepImm _ _ _ _ _ _
  | kset => exact Laws.EncodeDecode.kset _ _ _ _ _
  | kget => exact Laws.EncodeDecode.kget _ _ _ _ _
  | cenClose => exact Laws.EncodeDecode.cenClose _ _ _
  | cenGet => exact Laws.EncodeDecode.cenGet _ _ _ _ _
  | shift => exact Laws.EncodeDecode.shift _ _ _ _ _
  | tsh => exact Laws.EncodeDecode.tsh _ _ _ _
  | tshRead => exact Laws.EncodeDecode.tshRead _ _ _ _
  | tshr => exact Laws.EncodeDecode.tshr _ _ _ _ _
  | cpy => exact Laws.EncodeDecode.cpy _ _ _ _ _
  | cpyk => exact Laws.EncodeDecode.cpyk _ _ _ _ _
  | cpyf => exact Laws.EncodeDecode.cpyf _ _ _ _ _
  | cpyb => exact Laws.EncodeDecode.cpyb _ _ _ _ _ _
  | cpyq => exact Laws.EncodeDecode.cpyq _ _ _ _ _ _
  | cpycan => exact Laws.EncodeDecode.cpycan _ _ _ _
  | send => exact Laws.EncodeDecode.send _ _ _ _ _ _
  | sendt => exact Laws.EncodeDecode.sendt _ _ _ _ _ _
  | coll => exact Laws.EncodeDecode.coll _ _ _ _ _ _
  | abort => exact Laws.EncodeDecode.abort _ _ _
  | cset => exact Laws.EncodeDecode.cset _ _ _ _
  | csetImm => exact Laws.EncodeDecode.csetImm _ _ _ _ _
  | cadd => exact Laws.EncodeDecode.cadd _ _ _ _
  | caddImm => exact Laws.EncodeDecode.caddImm _ _ _ _ _
  | cwait => exact Laws.EncodeDecode.cwait _ _ _ _
  | cwaitImm => exact Laws.EncodeDecode.cwaitImm _ _ _ _ _
  | barb => exact Laws.EncodeDecode.barb _ _ _ _
  | barbImm => exact Laws.EncodeDecode.barbImm _ _ _ _ _
  | bar => exact Laws.EncodeDecode.bar _ _ _ _ _ _
  | jcbRaise => exact Laws.EncodeDecode.jcbRaise _ _ _ _
  | jcbRaiseImm => exact Laws.EncodeDecode.jcbRaiseImm _ _ _ _ _
  | jcbDone => exact Laws.EncodeDecode.jcbDone _ _
  | tokGive => exact Laws.EncodeDecode.tokGive _ _ _ _
  | tokGiveImm => exact Laws.EncodeDecode.tokGiveImm _ _ _ _ _
  | tokTake => exact Laws.EncodeDecode.tokTake _ _ _ _ _
  | tokTakeImm => exact Laws.EncodeDecode.tokTakeImm _ _ _ _ _ _
  | extensionWord => exact Laws.EncodeDecode.extensionWord _
  | nop => exact Laws.EncodeDecode.nop _ _
  | qtailWrite => exact Laws.EncodeDecode.qtailWrite _ _
  | queueEnable => exact Laws.EncodeDecode.queueEnable _ _
  | queueDisable => exact Laws.EncodeDecode.queueDisable _ _
  | qctlRst => exact Laws.EncodeDecode.qctlRst _ _
  | tlinkWrite => exact Laws.EncodeDecode.tlinkWrite _ _
  | excommit => exact Laws.EncodeDecode.excommit _
  | flipreqAck => exact Laws.EncodeDecode.flipreqAck _
  | flipreqToHost => exact Laws.EncodeDecode.flipreqToHost _
  | registerWrite => exact Laws.EncodeDecode.registerWrite _ _
  | awlSlot => exact Laws.EncodeDecode.awlSlot
  | launchGraph => exact Laws.EncodeDecode.launchGraph _ _
  | launchNode => exact Laws.EncodeDecode.launchNode _ _
  | write => exact Laws.EncodeDecode.write _ _
  | signal => exact Laws.EncodeDecode.signal _ _
  | writeSignal => exact Laws.EncodeDecode.writeSignal _ _
  | tokenGive => exact Laws.EncodeDecode.tokenGive _ _
  | tokenWait => exact Laws.EncodeDecode.tokenWait _ _
  | copy => exact Laws.EncodeDecode.copy _ _
  | fencePacket => exact Laws.EncodeDecode.fencePacket _ _
  | qreset => exact Laws.EncodeDecode.qreset _ _
  | slice => exact Laws.EncodeDecode.slice _ _
  | bindGang => exact Laws.EncodeDecode.bindGang _ _
  | bindDissolve => exact Laws.EncodeDecode.bindDissolve _ _
  | bindReserve => exact Laws.EncodeDecode.bindReserve _ _
  | repairRebindHalf => exact Laws.EncodeDecode.repairRebindHalf _ _
  | repairDramRow => exact Laws.EncodeDecode.repairDramRow _ _
  | repairSpareLane => exact Laws.EncodeDecode.repairSpareLane _ _
  | repairRetireCore => exact Laws.EncodeDecode.repairRetireCore _ _
  | repairScan => exact Laws.EncodeDecode.repairScan _ _
  | attestQuote => exact Laws.EncodeDecode.attestQuote _ _
  | attestPatch => exact Laws.EncodeDecode.attestPatch _ _
  | signatureDone => exact Laws.EncodeDecode.signatureDone
  | packetComplete => exact Laws.EncodeDecode.packetComplete _ _
  | qresetAcksDone => exact Laws.EncodeDecode.qresetAcksDone _
  | asgenChangeDone => exact Laws.EncodeDecode.asgenChangeDone _
  | flipDrainDone => exact Laws.EncodeDecode.flipDrainDone
  | enqOutboxAccept => exact Laws.EncodeDecode.enqOutboxAccept _
  | mailboxRecordWrite => exact Laws.EncodeDecode.mailboxRecordWrite
  | entryRebuild => exact Laws.EncodeDecode.entryRebuild _ _
  | sliceExpiry => exact Laws.EncodeDecode.sliceExpiry _
  | reserveSample => exact Laws.EncodeDecode.reserveSample
  | reserveDecision => exact Laws.EncodeDecode.reserveDecision
  | reserveChangeDone => exact Laws.EncodeDecode.reserveChangeDone _
  | preemptWaitExpiry => exact Laws.EncodeDecode.preemptWaitExpiry _
  | distributorPlace => exact Laws.EncodeDecode.distributorPlace
  | segmentCopyDone => exact Laws.EncodeDecode.segmentCopyDone _
  | waitSatisfied => exact Laws.EncodeDecode.waitSatisfied _
  | barRelease => exact Laws.EncodeDecode.barRelease _
  | idleEnd => exact Laws.EncodeDecode.idleEnd _
  | jcbRaiseAnswer => exact Laws.EncodeDecode.jcbRaiseAnswer _
  | censusClose => exact Laws.EncodeDecode.censusClose _ _
  | matrixRunEnd => exact Laws.EncodeDecode.matrixRunEnd _ _
  | copyComplete => exact Laws.EncodeDecode.copyComplete _ _
  | cpyqFire => exact Laws.EncodeDecode.cpyqFire _ _ _
  | epiAddComplete => exact Laws.EncodeDecode.epiAddComplete _
  | sendtFire => exact Laws.EncodeDecode.sendtFire _ _
  | sendDelivery => exact Laws.EncodeDecode.sendDelivery _
  | sendComplete => exact Laws.EncodeDecode.sendComplete _ _ _
  | collHop => exact Laws.EncodeDecode.collHop _
  | collDeliverApply => exact Laws.EncodeDecode.collDeliverApply _
  | abortFlit => exact Laws.EncodeDecode.abortFlit _ _
  | jcbHomeRaise => exact Laws.EncodeDecode.jcbHomeRaise _
  | jcbHomeCompletion => exact Laws.EncodeDecode.jcbHomeCompletion _
  | jcbHomeNodeFailure => exact Laws.EncodeDecode.jcbHomeNodeFailure _ _ _
  | nodeCommit => exact Laws.EncodeDecode.nodeCommit _
  | trapEntry => exact Laws.EncodeDecode.trapEntry _
  | userInterruptEntry => exact Laws.EncodeDecode.userInterruptEntry _
  | preemptQuiesce => exact Laws.EncodeDecode.preemptQuiesce _ _
  | nodeSave => exact Laws.EncodeDecode.nodeSave _
  | errorConsumed => exact Laws.EncodeDecode.errorConsumed _
  | powerGood => exact Laws.EncodeDecode.powerGood
  | stackSelfTestPass => exact Laws.EncodeDecode.stackSelfTestPass _
  | bringupTimeout => exact Laws.EncodeDecode.bringupTimeout
  | probeReturn => exact Laws.EncodeDecode.probeReturn _ _
  | probeTimeout => exact Laws.EncodeDecode.probeTimeout _
  | engineCheckFail => exact Laws.EncodeDecode.engineCheckFail _ _
  | rebindDone => exact Laws.EncodeDecode.rebindDone
  | bindDrainDone => exact Laws.EncodeDecode.bindDrainDone
  | dramSoftRepair => exact Laws.EncodeDecode.dramSoftRepair _ _ _ _
  | laneRetrainDone => exact Laws.EncodeDecode.laneRetrainDone _
  | laneFail => exact Laws.EncodeDecode.laneFail _ _
  | powerSample => exact Laws.EncodeDecode.powerSample _
  | clockStep => exact Laws.EncodeDecode.clockStep
  | telemetryRefresh => exact Laws.EncodeDecode.telemetryRefresh
  | stackSelfTestFail => exact Laws.EncodeDecode.stackSelfTestFail _
  | coreRetireDrainDone => exact Laws.EncodeDecode.coreRetireDrainDone _

theorem chains_ofNat {n : Nat} (h : n < 2147483648) : chains (BitVec.ofNat 32 n) = false ∧ chains (BitVec.ofNat 32 (n + 2147483648)) = true := by
  simp only [chains, BitVec.getLsbD_ofNat, Nat.testBit_eq_decide_div_mod_eq]
  constructor <;> simp <;> omega

theorem decodeWord_ofNat {n : Nat} (h : n < 2147483648) :
    decodeWord (BitVec.ofNat 32 n) = decodeNat n ∧ decodeWord (BitVec.ofNat 32 (n + 2147483648)) = decodeNat n := by
  constructor
  · rw [decodeWord, BitVec.toNat_ofNat, Nat.mod_eq_of_lt (by omega)]
  · rw [decodeWord, BitVec.toNat_ofNat, Nat.mod_eq_of_lt (by omega), decodeNat_add_chain]

/-- The E word of an extension, with either chain bit (R133). -/
theorem extensionOf_ofNat (e : BitVec 25) (c : Bool) : extensionOf (BitVec.ofNat 32 (436207616 + e.toNat + if c then 2147483648 else 0)) = some e := by
  have he := e.isLt
  have key : decodeNat (436207616 + e.toNat) = .ok (.extensionWord e) := by
    obtain ⟨-, j, hj, hext, hji⟩ := encodeDecode (.extensionWord e) rfl _ rfl
    rw [hj]; exact congrArg _ hji
  have hw := decodeWord_ofNat (n := 436207616 + e.toNat) (by omega)
  unfold extensionOf
  cases c
  · simp only [Bool.false_eq_true, if_false, Nat.add_zero, hw.1, key]
  · simp only [if_true, hw.2, key]

theorem chains_extension (e : BitVec 25) (c : Bool) : chains (BitVec.ofNat 32 (436207616 + e.toNat + if c then 2147483648 else 0)) = c := by
  have he := e.isLt
  have h := chains_ofNat (n := 436207616 + e.toNat) (by omega)
  cases c
  · simpa using h.1
  · simpa using h.2

/-- A word that ends its bundle, or that nothing follows, is read alone. -/
theorem decodeHead_alone {w : IWord} {i : Instr} {rest : List IWord} (h : decodeWord w = .ok i) (hr : chains w = false ∨ rest = []) :
    decodeHead (w :: rest) = .ok (i, 1, chains w) := by
  rcases hr with hr | rfl
  · simp [decodeHead, h, hr]
  · simp [decodeHead, h]

/-- A chained word takes the E word behind it where its entry accepts one (R133). -/
theorem decodeHead_extended {w x : IWord} {i j : Instr} {e : BitVec 25} (rest : List IWord) (h : decodeWord w = .ok j) (hc : chains w = true)
    (hx : extensionOf x = some e) (hj : j.withExt e = some i) : decodeHead (w :: x :: rest) = .ok (i, 2, chains x) := by
  simp [decodeHead, h, hc, hx, hj]

theorem encodeWith_alone {i : Instr} {n : Nat} (hn : i.encodeNat = some n) (he : i.extOf = none) (c : Bool) :
    i.encodeWith c = [BitVec.ofNat 32 (n + if c then 2147483648 else 0)] := by
  rw [Instr.encodeWith, hn, he]

theorem encodeWith_extended {i : Instr} {n : Nat} {e : BitVec 25} (hn : i.encodeNat = some n) (he : i.extOf = some e) (c : Bool) :
    i.encodeWith c = [BitVec.ofNat 32 (n + 2147483648), BitVec.ofNat 32 (436207616 + e.toNat + if c then 2147483648 else 0)] := by
  rw [Instr.encodeWith, hn, he]

/-- The words of an instruction read back, with the chain bit of the last, where that is clear or nothing follows. -/
theorem decodeHead_encodeWith {i : Instr} {n : Nat} (hwf : i.wf = true) (hn : i.encodeNat = some n) (c : Bool) (rest : List IWord) (hr : c = false ∨ rest = []) :
    decodeHead (i.encodeWith c ++ rest) = .ok (i, (i.encodeWith c).length, c) := by
  obtain ⟨hlt, j, hj, -, hji⟩ := encodeDecode i hwf n hn
  obtain ⟨hch, hch'⟩ := chains_ofNat hlt
  obtain ⟨hd, hd'⟩ := decodeWord_ofNat hlt
  cases he : i.extOf with
  | none =>
    simp only [he] at hji
    subst hji
    rw [encodeWith_alone hn he]
    have alone (hc : chains (BitVec.ofNat 32 (n + if c then 2147483648 else 0)) = c) (hw : decodeWord (BitVec.ofNat 32 (n + if c then 2147483648 else 0)) = .ok j) :=
      hc ▸ decodeHead_alone (rest := rest) hw (hc.symm ▸ hr)
    cases c
    · exact alone hch (hd.trans hj)
    · exact alone hch' (hd'.trans hj)
  | some e =>
    simp only [he] at hji
    rw [encodeWith_extended hn he]
    have read := decodeHead_extended rest (hd'.trans hj) hch' (extensionOf_ofNat e c) hji
    rw [chains_extension] at read
    exact read

/-- Settles O2: every word's own law (`encodeDecode`), read through the chain bit and the E word. -/
theorem decodeOfEncode : Obligations.DecodeOfEncode := by
  unfold Obligations.DecodeOfEncode
  intro i hwf hsome
  obtain ⟨n, hn⟩ := Option.isSome_iff_exists.mp hsome
  exact ⟨fun rest => decodeHead_encodeWith hwf hn false rest (.inl rfl), fun c => by
    simpa using decodeHead_encodeWith hwf hn c [] (.inr rfl)⟩

end Sys2Proof.Proofs
end

