-- ==== Sys2Proof/Proofs/Words.lean ====
section
/-! Proofs about what every word has in common (R112, R132, R141), and about the scalar and predicate words of spec/08 (R155, R158, R161). -/

namespace Sys2Proof.Proofs

open Sys2Proof Sys2Proof.Machine

-- One theorem after another: side by side they need more memory than one run may take.
set_option Elab.async false

/-! ## The checks of every word come first -/

/-- The outcome of a word in the order of its checks. -/
def Answers (i : Instr) (s : State) (r : Result) : Prop :=
  (∃ t, r = .next t) ∧
  (i.wf = false → r = .next (s.trapHere 1 0)) ∧
  (i.wf = true → partitionOk s.cur.ctl.part i.sig = false → r = .next (s.trapHere 2 0)) ∧
  (i.wf = true → partitionOk s.cur.ctl.part i.sig = true → suppressed s.cur i.sig = true → r = .next s) ∧
  (i.wf = true → partitionOk s.cur.ctl.part i.sig = true → suppressed s.cur i.sig = false → s.spliceFault i.sig = true → r = .next (s.trapHere 6 0))

theorem answers_word (i : Instr) (s : State) (body : State → State) : Answers i s (word i s body) :=
  ⟨word_next i s body, fun h => word_illFormed h body, fun h h' => word_partition h h' body, fun h h' h'' => word_suppressed h h' h'' body,
    fun h h' h'' h''' => word_splice h h' h'' h''' body⟩

/-- Settles O6: the meaning of every instruction that has words is `word` of a body of its own. -/
theorem everyWordAnswersANextState : Obligations.EveryWordAnswersANextState := by
  unfold Obligations.EveryWordAnswersANextState
  intro i s h
  change Answers i s (exec i s)
  cases i with
  | add => exact exec_add s _ _ _ _ _ ▸ answers_word _ s _
  | sub => exact exec_sub s _ _ _ _ _ ▸ answers_word _ s _
  | addS => exact exec_addS s _ _ _ _ _ ▸ answers_word _ s _
  | subS => exact exec_subS s _ _ _ _ _ ▸ answers_word _ s _
  | and => exact exec_and s _ _ _ _ _ ▸ answers_word _ s _
  | or => exact exec_or s _ _ _ _ _ ▸ answers_word _ s _
  | xor => exact exec_xor s _ _ _ _ _ ▸ answers_word _ s _
  | andn => exact exec_andn s _ _ _ _ _ ▸ answers_word _ s _
  | shl => exact exec_shl s _ _ _ _ _ ▸ answers_word _ s _
  | shlS => exact exec_shlS s _ _ _ _ _ ▸ answers_word _ s _
  | shr => exact exec_shr s _ _ _ _ _ ▸ answers_word _ s _
  | sar => exact exec_sar s _ _ _ _ _ ▸ answers_word _ s _
  | rot => exact exec_rot s _ _ _ _ _ ▸ answers_word _ s _
  | mul => exact exec_mul s _ _ _ _ _ ▸ answers_word _ s _
  | mulS => exact exec_mulS s _ _ _ _ _ ▸ answers_word _ s _
  | mulh => exact exec_mulh s _ _ _ _ _ ▸ answers_word _ s _
  | mulhw => exact exec_mulhw s _ _ _ _ _ ▸ answers_word _ s _
  | div => exact exec_div s _ _ _ _ _ ▸ answers_word _ s _
  | divw => exact exec_divw s _ _ _ _ _ ▸ answers_word _ s _
  | rem => exact exec_rem s _ _ _ _ _ ▸ answers_word _ s _
  | remw => exact exec_remw s _ _ _ _ _ ▸ answers_word _ s _
  | min => exact exec_min s _ _ _ _ _ ▸ answers_word _ s _
  | max => exact exec_max s _ _ _ _ _ ▸ answers_word _ s _
  | minw => exact exec_minw s _ _ _ _ _ ▸ answers_word _ s _
  | maxw => exact exec_maxw s _ _ _ _ _ ▸ answers_word _ s _
  | clz => exact exec_clz s _ _ _ _ ▸ answers_word _ s _
  | cls => exact exec_cls s _ _ _ _ ▸ answers_word _ s _
  | popc => exact exec_popc s _ _ _ _ ▸ answers_word _ s _
  | bfx => exact exec_bfx s _ _ _ _ _ ▸ answers_word _ s _
  | bfi => exact exec_bfi s _ _ _ _ _ ▸ answers_word _ s _
  | sel => exact exec_sel s _ _ _ _ _ ▸ answers_word _ s _
  | mov => exact exec_mov s _ _ _ _ ▸ answers_word _ s _
  | movp => exact exec_movp s _ _ _ _ _ _ _ _ ▸ answers_word _ s _
  | cmpEq => exact exec_cmpEq s _ _ _ _ _ ▸ answers_word _ s _
  | cmpNe => exact exec_cmpNe s _ _ _ _ _ ▸ answers_word _ s _
  | cmpLt => exact exec_cmpLt s _ _ _ _ _ ▸ answers_word _ s _
  | cmpGe => exact exec_cmpGe s _ _ _ _ _ ▸ answers_word _ s _
  | cmpLtw => exact exec_cmpLtw s _ _ _ _ _ ▸ answers_word _ s _
  | cmpGew => exact exec_cmpGew s _ _ _ _ _ ▸ answers_word _ s _
  | addi => exact exec_addi s _ _ _ _ _ ▸ answers_word _ s _
  | li => exact exec_li s _ _ _ _ ▸ answers_word _ s _
  | lih => exact exec_lih s _ _ _ _ ▸ answers_word _ s _
  | cmpiEq => exact exec_cmpiEq s _ _ _ _ _ ▸ answers_word _ s _
  | cmpiNe => exact exec_cmpiNe s _ _ _ _ _ ▸ answers_word _ s _
  | cmpiLt => exact exec_cmpiLt s _ _ _ _ _ ▸ answers_word _ s _
  | cmpiGe => exact exec_cmpiGe s _ _ _ _ _ ▸ answers_word _ s _
  | cmpiLtw => exact exec_cmpiLtw s _ _ _ _ _ ▸ answers_word _ s _
  | cmpiGew => exact exec_cmpiGew s _ _ _ _ _ ▸ answers_word _ s _
  | brRel => exact exec_brRel s _ _ _ _ ▸ answers_word _ s _
  | brAbs => exact exec_brAbs s _ _ _ _ ▸ answers_word _ s _
  | callRel => exact exec_callRel s _ _ _ _ ▸ answers_word _ s _
  | callAbs => exact exec_callAbs s _ _ _ _ ▸ answers_word _ s _
  | ret => exact exec_ret s _ _ _ ▸ answers_word _ s _
  | brc => exact exec_brc s _ _ _ _ _ _ ▸ answers_word _ s _
  | brf => exact exec_brf s _ _ _ _ _ _ _ ▸ answers_word _ s _
  | loopOpen => exact exec_loopOpen s _ _ _ _ _ ▸ answers_word _ s _
  | loopClose => exact exec_loopClose s _ _ _ _ ▸ answers_word _ s _
  | loopr => exact exec_loopr s _ _ _ _ _ ▸ answers_word _ s _
  | lbrk => exact exec_lbrk s _ _ _ _ _ ▸ answers_word _ s _
  | segx => exact exec_segx s _ _ _ ▸ answers_word _ s _
  | endNode => exact exec_endNode s ▸ answers_word _ s _
  | ldB => exact exec_ldB s _ _ _ _ _ _ ▸ answers_word _ s _
  | ldH => exact exec_ldH s _ _ _ _ _ _ ▸ answers_word _ s _
  | ldW => exact exec_ldW s _ _ _ _ _ _ ▸ answers_word _ s _
  | ldD => exact exec_ldD s _ _ _ _ _ _ ▸ answers_word _ s _
  | ldW8 => exact exec_ldW8 s _ _ _ _ _ _ ▸ answers_word _ s _
  | ldW16 => exact exec_ldW16 s _ _ _ _ _ _ ▸ answers_word _ s _
  | ldW32 => exact exec_ldW32 s _ _ _ _ _ _ ▸ answers_word _ s _
  | ldAcq => exact exec_ldAcq s _ _ _ _ _ _ ▸ answers_word _ s _
  | stB => exact exec_stB s _ _ _ _ _ _ ▸ answers_word _ s _
  | stH => exact exec_stH s _ _ _ _ _ _ ▸ answers_word _ s _
  | stW => exact exec_stW s _ _ _ _ _ _ ▸ answers_word _ s _
  | stD => exact exec_stD s _ _ _ _ _ _ ▸ answers_word _ s _
  | stRel => exact exec_stRel s _ _ _ _ _ _ ▸ answers_word _ s _
  | ldh => exact exec_ldh s _ _ _ _ _ _ ▸ answers_word _ s _
  | sth => exact exec_sth s _ _ _ _ _ _ ▸ answers_word _ s _
  | amoAdd => exact exec_amoAdd s _ _ _ _ _ _ _ ▸ answers_word _ s _
  | amoAdds => exact exec_amoAdds s _ _ _ _ _ _ _ ▸ answers_word _ s _
  | amoMin => exact exec_amoMin s _ _ _ _ _ _ _ ▸ answers_word _ s _
  | amoMax => exact exec_amoMax s _ _ _ _ _ _ _ ▸ answers_word _ s _
  | amoAnd => exact exec_amoAnd s _ _ _ _ _ _ _ ▸ answers_word _ s _
  | amoOr => exact exec_amoOr s _ _ _ _ _ _ _ ▸ answers_word _ s _
  | amoXor => exact exec_amoXor s _ _ _ _ _ _ _ ▸ answers_word _ s _
  | amoSwap => exact exec_amoSwap s _ _ _ _ _ _ _ ▸ answers_word _ s _
  | amoCas => exact exec_amoCas s _ _ _ _ _ _ _ ▸ answers_word _ s _
  | amoIncw => exact exec_amoIncw s _ _ _ _ _ _ _ ▸ answers_word _ s _
  | trap => exact exec_trap s _ _ _ ▸ answers_word _ s _
  | tret => exact exec_tret s _ ▸ answers_word _ s _
  | uiret => exact exec_uiret s _ ▸ answers_word _ s _
  | ctlr => exact exec_ctlr s _ _ _ _ ▸ answers_word _ s _
  | ctlw => exact exec_ctlw s _ _ _ _ ▸ answers_word _ s _
  | fence => exact exec_fence s _ _ _ _ _ ▸ answers_word _ s _
  | brk => exact exec_brk s _ _ _ ▸ answers_word _ s _
  | cmpt => exact exec_cmpt s _ _ _ _ ▸ answers_word _ s _
  | enq => exact exec_enq s _ _ _ _ ▸ answers_word _ s _
  | yield => exact exec_yield s _ _ ▸ answers_word _ s _
  | genr => exact exec_genr s _ _ _ ▸ answers_word _ s _
  | idle => exact exec_idle s _ ▸ answers_word _ s _
  | vadd => exact exec_vadd s _ _ _ _ _ ▸ answers_word _ s _
  | vsub => exact exec_vsub s _ _ _ _ _ ▸ answers_word _ s _
  | vadds => exact exec_vadds s _ _ _ _ _ ▸ answers_word _ s _
  | vsubs => exact exec_vsubs s _ _ _ _ _ ▸ answers_word _ s _
  | vmul => exact exec_vmul s _ _ _ _ _ _ ▸ answers_word _ s _
  | vmulh => exact exec_vmulh s _ _ _ _ _ ▸ answers_word _ s _
  | vmac => exact exec_vmac s _ _ _ _ _ _ ▸ answers_word _ s _
  | vmin => exact exec_vmin s _ _ _ _ _ ▸ answers_word _ s _
  | vmax => exact exec_vmax s _ _ _ _ _ ▸ answers_word _ s _
  | vand => exact exec_vand s _ _ _ _ ▸ answers_word _ s _
  | vor => exact exec_vor s _ _ _ _ ▸ answers_word _ s _
  | vxor => exact exec_vxor s _ _ _ _ ▸ answers_word _ s _
  | vandn => exact exec_vandn s _ _ _ _ ▸ answers_word _ s _
  | vsel => exact exec_vsel s _ _ _ _ ▸ answers_word _ s _
  | vcmpEq => exact exec_vcmpEq s _ _ _ _ ▸ answers_word _ s _
  | vcmpNe => exact exec_vcmpNe s _ _ _ _ ▸ answers_word _ s _
  | vcmpLt => exact exec_vcmpLt s _ _ _ _ ▸ answers_word _ s _
  | vcmpGe => exact exec_vcmpGe s _ _ _ _ ▸ answers_word _ s _
  | vcmpLtw => exact exec_vcmpLtw s _ _ _ _ ▸ answers_word _ s _
  | vcmpGew => exact exec_vcmpGew s _ _ _ _ ▸ answers_word _ s _
  | vperm => exact exec_vperm s _ _ _ _ ▸ answers_word _ s _
  | vgath => exact exec_vgath s _ _ _ _ ▸ answers_word _ s _
  | vscat => exact exec_vscat s _ _ _ _ ▸ answers_word _ s _
  | vcmpt => exact exec_vcmpt s _ _ _ ▸ answers_word _ s _
  | tld => exact exec_tld s _ _ _ _ ▸ answers_word _ s _
  | tst => exact exec_tst s _ _ _ _ _ ▸ answers_word _ s _
  | vshl => exact exec_vshl s _ _ _ _ _ ▸ answers_word _ s _
  | vshr => exact exec_vshr s _ _ _ _ _ ▸ answers_word _ s _
  | vsar => exact exec_vsar s _ _ _ _ _ ▸ answers_word _ s _
  | vshrn => exact exec_vshrn s _ _ _ _ _ _ ▸ answers_word _ s _
  | vabs => exact exec_vabs s _ _ _ _ ▸ answers_word _ s _
  | vneg => exact exec_vneg s _ _ _ _ ▸ answers_word _ s _
  | vclz => exact exec_vclz s _ _ _ ▸ answers_word _ s _
  | vcls => exact exec_vcls s _ _ _ ▸ answers_word _ s _
  | vpopc => exact exec_vpopc s _ _ _ ▸ answers_word _ s _
  | vcvt => exact exec_vcvt s _ _ _ _ _ ▸ answers_word _ s _
  | vpack => exact exec_vpack s _ _ _ _ _ ▸ answers_word _ s _
  | vunpk => exact exec_vunpk s _ _ _ _ _ ▸ answers_word _ s _
  | vrotl => exact exec_vrotl s _ _ _ _ _ _ ▸ answers_word _ s _
  | vbcast => exact exec_vbcast s _ _ _ ▸ answers_word _ s _
  | vbcastRow => exact exec_vbcastRow s _ _ _ ▸ answers_word _ s _
  | vbcastCol => exact exec_vbcastCol s _ _ _ ▸ answers_word _ s _
  | vmov => exact exec_vmov s _ _ _ ▸ answers_word _ s _
  | vredsum => exact exec_vredsum s _ _ _ _ _ ▸ answers_word _ s _
  | vredmax => exact exec_vredmax s _ _ _ _ _ ▸ answers_word _ s _
  | vredmin => exact exec_vredmin s _ _ _ _ _ ▸ answers_word _ s _
  | vabsmax => exact exec_vabsmax s _ _ _ _ ▸ answers_word _ s _
  | vpart => exact exec_vpart s _ _ _ _ ▸ answers_word _ s _
  | vscan => exact exec_vscan s _ _ _ _ _ _ ▸ answers_word _ s _
  | vlut3 => exact exec_vlut3 s _ _ _ _ _ ▸ answers_word _ s _
  | vfsl => exact exec_vfsl s _ _ _ _ _ ▸ answers_word _ s _
  | vfsr => exact exec_vfsr s _ _ _ _ _ ▸ answers_word _ s _
  | vexp2 => exact exec_vexp2 s _ _ _ _ _ ▸ answers_word _ s _
  | vlog2 => exact exec_vlog2 s _ _ _ _ _ ▸ answers_word _ s _
  | vrcp => exact exec_vrcp s _ _ _ _ _ ▸ answers_word _ s _
  | vrsq => exact exec_vrsq s _ _ _ _ _ ▸ answers_word _ s _
  | vsmax => exact exec_vsmax s _ _ _ _ ▸ answers_word _ s _
  | vrmsn => exact exec_vrmsn s _ _ _ _ _ ▸ answers_word _ s _
  | vlnrm => exact exec_vlnrm s _ _ _ _ _ ▸ answers_word _ s _
  | vgelu => exact exec_vgelu s _ _ _ _ _ ▸ answers_word _ s _
  | voptSgdm => exact exec_voptSgdm s _ _ _ _ _ _ ▸ answers_word _ s _
  | voptLion => exact exec_voptLion s _ _ _ _ _ _ ▸ answers_word _ s _
  | voptAdam => exact exec_voptAdam s _ _ _ _ _ _ ▸ answers_word _ s _
  | mbeg => exact exec_mbeg s _ _ _ ▸ answers_word _ s _
  | mend => exact exec_mend s _ _ ▸ answers_word _ s _
  | mzero => exact exec_mzero s _ _ ▸ answers_word _ s _
  | mma => exact exec_mma s _ _ _ _ _ ▸ answers_word _ s _
  | mmat => exact exec_mmat s _ _ _ _ _ ▸ answers_word _ s _
  | epi => exact exec_epi s _ _ _ _ _ _ _ _ ▸ answers_word _ s _
  | epiAdd => exact exec_epiAdd s _ _ _ _ _ _ _ _ _ ▸ answers_word _ s _
  | epiSend => exact exec_epiSend s _ _ _ _ _ _ _ ▸ answers_word _ s _
  | epiCk => exact exec_epiCk s _ _ _ ▸ answers_word _ s _
  | hset => exact exec_hset s _ _ _ _ _ ▸ answers_word _ s _
  | hld => exact exec_hld s _ _ _ _ _ ▸ answers_word _ s _
  | hst => exact exec_hst s _ _ _ _ _ ▸ answers_word _ s _
  | horg => exact exec_horg s _ _ _ _ _ ▸ answers_word _ s _
  | horgImm => exact exec_horgImm s _ _ _ _ _ _ ▸ answers_word _ s _
  | hstep => exact exec_hstep s _ _ _ _ _ ▸ answers_word _ s _
  | hstepImm => exact exec_hstepImm s _ _ _ _ _ _ ▸ answers_word _ s _
  | kset => exact exec_kset s _ _ _ _ _ ▸ answers_word _ s _
  | kget => exact exec_kget s _ _ _ _ _ ▸ answers_word _ s _
  | cenClose => exact exec_cenClose s _ _ _ ▸ answers_word _ s _
  | cenGet => exact exec_cenGet s _ _ _ _ _ ▸ answers_word _ s _
  | shift => exact exec_shift s _ _ _ _ _ ▸ answers_word _ s _
  | tsh => exact exec_tsh s _ _ _ _ ▸ answers_word _ s _
  | tshRead => exact exec_tshRead s _ _ _ _ ▸ answers_word _ s _
  | tshr => exact exec_tshr s _ _ _ _ _ ▸ answers_word _ s _
  | cpy => exact exec_cpy s _ _ _ _ _ ▸ answers_word _ s _
  | cpyk => exact exec_cpyk s _ _ _ _ _ ▸ answers_word _ s _
  | cpyf => exact exec_cpyf s _ _ _ _ _ ▸ answers_word _ s _
  | cpyb => exact exec_cpyb s _ _ _ _ _ _ ▸ answers_word _ s _
  | cpyq => exact exec_cpyq s _ _ _ _ _ _ ▸ answers_word _ s _
  | cpycan => exact exec_cpycan s _ _ _ _ ▸ answers_word _ s _
  | send => exact exec_send s _ _ _ _ _ _ ▸ answers_word _ s _
  | sendt => exact exec_sendt s _ _ _ _ _ _ ▸ answers_word _ s _
  | coll => exact exec_coll s _ _ _ _ _ _ ▸ answers_word _ s _
  | abort => exact exec_abort s _ _ _ ▸ answers_word _ s _
  | cset => exact exec_cset s _ _ _ _ ▸ answers_word _ s _
  | csetImm => exact exec_csetImm s _ _ _ _ _ ▸ answers_word _ s _
  | cadd => exact exec_cadd s _ _ _ _ ▸ answers_word _ s _
  | caddImm => exact exec_caddImm s _ _ _ _ _ ▸ answers_word _ s _
  | cwait => exact exec_cwait s _ _ _ _ ▸ answers_word _ s _
  | cwaitImm => exact exec_cwaitImm s _ _ _ _ _ ▸ answers_word _ s _
  | barb => exact exec_barb s _ _ _ _ ▸ answers_word _ s _
  | barbImm => exact exec_barbImm s _ _ _ _ _ ▸ answers_word _ s _
  | bar => exact exec_bar s _ _ _ _ _ _ ▸ answers_word _ s _
  | jcbRaise => exact exec_jcbRaise s _ _ _ _ ▸ answers_word _ s _
  | jcbRaiseImm => exact exec_jcbRaiseImm s _ _ _ _ _ ▸ answers_word _ s _
  | jcbDone => exact exec_jcbDone s _ _ ▸ answers_word _ s _
  | tokGive => exact exec_tokGive s _ _ _ _ ▸ answers_word _ s _
  | tokGiveImm => exact exec_tokGiveImm s _ _ _ _ _ ▸ answers_word _ s _
  | tokTake => exact exec_tokTake s _ _ _ _ _ ▸ answers_word _ s _
  | tokTakeImm => exact exec_tokTakeImm s _ _ _ _ _ _ ▸ answers_word _ s _
  | extensionWord => exact exec_extensionWord s _ ▸ answers_word _ s _
  | nop => exact exec_nop s _ _ ▸ answers_word _ s _
  | _ => exact absurd h Bool.false_ne_true


/-! ## Arithmetic and bitwise words (R155) -/

theorem satRange_fst {lo hi : Int} (h : lo ≤ hi) (x : Int) : (satRange lo hi x).1 = max lo (min x hi) := by
  unfold satRange
  split
  · simp only; omega
  · split <;> simp only <;> omega

theorem satI_64_fst (x : Int) : (satI 64 x).1 = max (-(2 ^ 63)) (min x (2 ^ 63 - 1)) := satRange_fst (by decide) x

theorem ofInt_ite_toInt {c : Prop} [Decidable c] (x y : Word) : (if c then x else y) = BitVec.ofInt 64 (if c then x.toInt else y.toInt) := by
  split <;> exact (BitVec.ofInt_toInt).symm

theorem ofNat_ite_toNat {c : Prop} [Decidable c] (x y : Word) : (if c then x else y) = BitVec.ofNat 64 (if c then x.toNat else y.toNat) := by
  split <;> exact (by simp)

theorem shl_eq (x : Word) (n : Nat) : x <<< n = BitVec.ofNat 64 (x.toNat * 2 ^ n) :=
  BitVec.eq_of_toNat_eq (by rw [BitVec.toNat_shiftLeft, BitVec.toNat_ofNat, Nat.shiftLeft_eq])

theorem shr_eq (x : Word) (n : Nat) : x >>> n = BitVec.ofNat 64 (x.toNat / 2 ^ n) :=
  BitVec.eq_of_toNat_eq (by
    rw [BitVec.toNat_ushiftRight, BitVec.toNat_ofNat, Nat.shiftRight_eq_div_pow, Nat.mod_eq_of_lt ((Nat.div_le_self _ _).trans_lt x.isLt)])

theorem sar_eq (x : Word) (n : Nat) : x.sshiftRight n = BitVec.ofInt 64 (x.toInt / 2 ^ n) := by
  rw [BitVec.sshiftRight, Int.shiftRight_eq_div_pow]; norm_cast

theorem rotateLeft_eq (x : Word) (n : Nat) (h : n < 64) :
    x.rotateLeft n = BitVec.ofNat 64 ((x.toNat * 2 ^ n + x.toNat / 2 ^ (64 - n)) % 2 ^ 64) := by
  have hsplit : (2 : Nat) ^ 64 = 2 ^ (64 - n) * 2 ^ n := by rw [← Nat.pow_add, Nat.sub_add_cancel h.le]
  have hhi : x.toNat / 2 ^ (64 - n) < 2 ^ n := Nat.div_lt_of_lt_mul (hsplit ▸ x.isLt)
  have hlo : x.toNat * 2 ^ n % 2 ^ 64 = 2 ^ n * (x.toNat % 2 ^ (64 - n)) := by rw [hsplit, Nat.mul_mod_mul_right, Nat.mul_comm]
  have hsum : 2 ^ n * (x.toNat % 2 ^ (64 - n)) + x.toNat / 2 ^ (64 - n) < 2 ^ 64 := by
    have := Nat.mod_lt x.toNat (Nat.two_pow_pos (64 - n))
    rw [hsplit]; nlinarith [Nat.mul_le_mul_left (2 ^ n) (Nat.succ_le_of_lt this)]
  apply BitVec.eq_of_toNat_eq
  rw [BitVec.toNat_rotateLeft, BitVec.toNat_ofNat, Nat.mod_mod, Nat.mod_eq_of_lt h, Nat.shiftLeft_eq, Nat.shiftRight_eq_div_pow, hlo,
    ← Nat.two_pow_add_eq_or_of_lt hhi, ← Nat.mod_add_mod, hlo, Nat.mod_eq_of_lt hsum]

theorem bitLen_spec (n : Nat) : n < 2 ^ bitLen n ∧ ∀ j < bitLen n, 2 ^ j ≤ n := by
  unfold bitLen
  split
  · next h => simp [h]
  · next h =>
    refine ⟨Nat.lt_log2_self, fun j hj => ?_⟩
    exact (Nat.pow_le_pow_right (by decide) (by omega)).trans (Nat.log2_self_le h)

theorem bitLen_le {n k : Nat} (h : n < 2 ^ k) : bitLen n ≤ k := by
  by_contra hk
  exact absurd ((bitLen_spec n).2 k (by omega)) (by omega)

/-- A bit of the two's complement representation. -/
theorem asr_toInt_mod_two (x : Word) {j : Nat} (hj : j < 64) : decide (asr x.toInt j % 2 = 1) = x.getLsbD j := by
  have hbit : x.getLsbD j = (x.sshiftRight j).getLsbD 0 := by rw [BitVec.getLsbD_sshiftRight]; simp [hj]
  have hlow (y : Int) : (BitVec.ofInt 64 y).getLsbD 0 = decide (y % 2 = 1) := by
    rw [BitVec.getLsbD, BitVec.toNat_ofInt, Nat.testBit_zero, decide_eq_decide]
    omega
  rw [hbit, sar_eq, hlow, asr]
  norm_cast

theorem headroomGo_spec (x : Int) (top : Bool) (i : Nat) :
    headroomGo x top i ≤ i ∧ (∀ j < headroomGo x top i, decide (asr x (i - 1 - j) % 2 = 1) = top) ∧
      (headroomGo x top i < i → decide (asr x (i - 1 - headroomGo x top i) % 2 = 1) = !top) := by
  induction i with
  | zero => simp [headroomGo]
  | succ i ih =>
    obtain ⟨hle, hrep, hend⟩ := ih
    unfold headroomGo
    split
    · next h =>
      refine ⟨by omega, fun j hj => ?_, fun hlt => ?_⟩
      · rcases j with _ | j
        · exact h
        · rw [show i + 1 - 1 - (j + 1) = i - 1 - j by omega]; exact hrep j (by omega)
      · rw [show i + 1 - 1 - (headroomGo x top i + 1) = i - 1 - headroomGo x top i by omega]; exact hend (by omega)
    · next h => exact ⟨by omega, fun j hj => absurd hj (by omega), fun _ => Bool.eq_not_of_ne h⟩

/-- Headroom of a scalar (R5): the bits below the top that repeat it. -/
theorem headroom_64_spec (x : Word) :
    headroom 64 x.toInt ≤ 63 ∧ (∀ j < headroom 64 x.toInt, x.getLsbD (62 - j) = x.getLsbD 63) ∧
      (headroom 64 x.toInt < 63 → x.getLsbD (62 - headroom 64 x.toInt) = !x.getLsbD 63) := by
  have top := asr_toInt_mod_two x (j := 63) (by decide)
  obtain ⟨hle, hrep, hend⟩ := headroomGo_spec x.toInt (x.getLsbD 63) 63
  rw [headroom, top]
  exact ⟨hle, fun j hj => (asr_toInt_mod_two x (by omega)).symm.trans (hrep j hj), fun hlt => (asr_toInt_mod_two x (by omega)).symm.trans (hend hlt)⟩

theorem popCount_eq_countP (n w : Nat) : popCount n w = (List.range w).countP fun j => n.testBit j := by
  induction w with
  | zero => rfl
  | succ w ih => rw [popCount, ih, List.range_succ, List.countP_append, List.countP_singleton, Nat.add_comm]


theorem popCount_toNat (x : Word) : popCount x.toNat 64 = (List.range 64).countP fun j => x.getLsbD j := popCount_eq_countP x.toNat 64

/-- Settles O12: each word's result is its row of the table of R155. -/
theorem scalarArithmetic : Obligations.ScalarArithmetic := by
  unfold Obligations.ScalarArithmetic
  dsimp only
  constructor
  · intro s q g d a b
    refine ⟨fun h => ?add, fun h => ?sub, fun h => ?addS, fun h => ?subS, fun h => ?mul, fun h => ?mulS, fun h => ?mulh, fun h => ?mulhw, fun h => ?shl,
      fun h => ?shlS, fun h => ?shr, fun h => ?sar, fun h => ?rot, fun h => ?min, fun h => ?max, fun h => ?minw, fun h => ?maxw⟩
    case add => exact givesS_of_word (exec_add s q g d a b) h (congrArg (s.pushS 1 d) (by simp [BitVec.ofInt_add]))
    case sub => exact givesS_of_word (exec_sub s q g d a b) h (congrArg (s.pushS 1 d) (by simp [Int.sub_eq_add_neg, BitVec.ofInt_add, BitVec.ofInt_neg, BitVec.sub_eq_add_neg]))
    case mul => exact givesS_of_word (exec_mul s q g d a b) h (congrArg (s.pushS 3 d) (by simp [BitVec.ofInt_mul]))
    case addS => exact givesS_of_word (exec_addS s q g d a b) h (congrArg (fun x => s.pushS 1 d (wordOf x)) (satI_64_fst _))
    case subS => exact givesS_of_word (exec_subS s q g d a b) h (congrArg (fun x => s.pushS 1 d (wordOf x)) (satI_64_fst _))
    case mulS => exact givesS_of_word (exec_mulS s q g d a b) h (congrArg (fun x => s.pushS 3 d (wordOf x)) (satI_64_fst _))
    case mulh => exact givesS_of_word (exec_mulh s q g d a b) h rfl
    case mulhw => exact givesS_of_word (exec_mulhw s q g d a b) h rfl
    case shl => exact givesS_of_word (exec_shl s q g d a b) h (congrArg (fun x => s.pushS 1 d (if 64 ≤ (s.cur.s b).toNat then 0 else x)) (shl_eq _ _))
    case shlS =>
      have zero : s.cur.s a = 0 ↔ (s.cur.s a).toInt = 0 := ⟨fun h => by rw [h]; rfl, fun h => BitVec.eq_of_toInt_eq h⟩
      refine givesS_of_word (exec_shlS s q g d a b) h (congrArg (s.pushS 1 d) ?_)
      rw [satI_64_fst]
      exact if_congr zero rfl rfl
    case shr => exact givesS_of_word (exec_shr s q g d a b) h (congrArg (s.pushS 1 d) (shr_eq _ _))
    case sar => exact givesS_of_word (exec_sar s q g d a b) h (congrArg (s.pushS 1 d) (sar_eq _ _))
    case rot => exact givesS_of_word (exec_rot s q g d a b) h (congrArg (s.pushS 1 d) (rotateLeft_eq _ _ (Nat.mod_lt _ (by decide))))
    case min => exact givesS_of_word (exec_min s q g d a b) h (congrArg (s.pushS 1 d) (ofInt_ite_toInt _ _))
    case max => exact givesS_of_word (exec_max s q g d a b) h (congrArg (s.pushS 1 d) (ofInt_ite_toInt _ _))
    case minw => exact givesS_of_word (exec_minw s q g d a b) h (congrArg (s.pushS 1 d) (ofNat_ite_toNat _ _))
    case maxw => exact givesS_of_word (exec_maxw s q g d a b) h (congrArg (s.pushS 1 d) (ofNat_ite_toNat _ _))
  · intro s q g d a b
    refine ⟨fun h => ⟨_, givesS_of_word (exec_and s q g d a b) h rfl, fun j _ => BitVec.getLsbD_and⟩,
      fun h => ⟨_, givesS_of_word (exec_or s q g d a b) h rfl, fun j _ => BitVec.getLsbD_or⟩,
      fun h => ⟨_, givesS_of_word (exec_xor s q g d a b) h rfl, fun j _ => BitVec.getLsbD_xor⟩,
      fun h => ⟨_, givesS_of_word (exec_andn s q g d a b) h rfl, fun j hj => ?andn⟩,
      fun h => givesS_of_word (exec_mov s q g d a) h rfl,
      fun h => ⟨bitLen (s.cur.s a).toNat, bitLen_le (s.cur.s a).isLt, givesS_of_word (exec_clz s q g d a) h rfl, bitLen_spec _⟩,
      fun h => ?cls, fun h => givesS_of_word (exec_popc s q g d a) h (congrArg (fun k => s.pushS 1 d (BitVec.ofNat 64 k)) (popCount_toNat _))⟩
    case andn => simp [hj]
    case cls =>
      obtain ⟨hle, hrep, hend⟩ := headroom_64_spec (s.cur.s a)
      exact ⟨_, hle, givesS_of_word (exec_cls s q g d a) h rfl, hrep, hend⟩

/-! ## Comparisons, selections and immediates (R158, R161) -/

theorem signExt_toNat {w : Nat} (x : BitVec w) (h : 0 < w) : signExt w (x.toNat : Int) = x.toInt := by
  have hx := x.isLt
  have hlow : lowBits w (x.toNat : Int) = x.toNat := by
    rw [lowBits]; norm_cast; exact Nat.mod_eq_of_lt hx
  have hw : 2 ^ w = 2 * 2 ^ (w - 1) := by rw [← pow_succ', Nat.sub_add_cancel h]
  simp only [signExt, hlow, BitVec.toInt_eq_toNat_cond]
  split <;> split <;> first | rfl | (exfalso; omega)

theorem toNat_append_eq (e : BitVec 25) {w : Nat} (i : BitVec w) : (e ++ i).toNat = e.toNat * 2 ^ w + i.toNat := by
  rw [BitVec.toNat_append, ← Nat.shiftLeft_add_eq_or_of_lt i.isLt, Nat.shiftLeft_eq]

theorem immS_none {w : Nat} (i : BitVec w) (h : 0 < w) : immS w i none = i.toInt := signExt_toNat i h

theorem immS_some {w : Nat} (i : BitVec w) (e : BitVec 25) : immS w i (some e) = (e ++ i).toInt := by
  rw [← signExt_toNat (e ++ i) (by omega), toNat_append_eq, Nat.add_comm 25 w, immS]

theorem decide_eq_toInt (x y : Word) : decide (x = y) = decide (x.toInt = y.toInt) := by simp [BitVec.toInt_inj]

/-- An entry's field rules are part of its encoding (R141). -/
theorem wf_of_not_legal {i : Instr} (h : i.sig.legal = false) : i.wf = false := by simp [Instr.wf, Sig.wordOk, h]

/-- LIH: the low half of sD stays below the immediate. -/
theorem lih_value (x : Word) {n : Nat} (h : n < 2 ^ 32) :
    ((x.setWidth 32).setWidth 64 ||| BitVec.ofNat 64 (n % 2 ^ 32 * 2 ^ 32)) = BitVec.ofNat 64 (x.toNat % 2 ^ 32 + n * 2 ^ 32) := by
  apply BitVec.eq_of_toNat_eq
  have hx : x.toNat % 2 ^ 32 < 2 ^ 32 := Nat.mod_lt _ (by decide)
  have hor := Nat.two_pow_add_eq_or_of_lt hx n
  have hlow : ((x.setWidth 32).setWidth 64).toNat = x.toNat % 2 ^ 32 := by
    rw [BitVec.toNat_setWidth, BitVec.toNat_setWidth, Nat.mod_eq_of_lt (hx.trans (by decide))]
  have hhigh : (BitVec.ofNat 64 (n % 2 ^ 32 * 2 ^ 32)).toNat = 2 ^ 32 * n := by
    rw [BitVec.toNat_ofNat, Nat.mod_eq_of_lt h, Nat.mod_eq_of_lt (by omega), Nat.mul_comm]
  rw [BitVec.toNat_or, hlow, hhigh, BitVec.toNat_ofNat, Nat.or_comm, ← hor, Nat.mod_eq_of_lt (a := _ + _) (by omega)]
  omega

/-- Settles O15. -/
theorem predicateAndImmediateWords : Obligations.PredicateAndImmediateWords := by
  unfold Obligations.PredicateAndImmediateWords
  dsimp only
  constructor
  · intro s q g p a b d i ext
    refine ⟨fun h => givesP_of_word (exec_cmpEq s q g p a b) h (congrArg (s.pushP 1 p) (decide_eq_toInt _ _)),
      fun h => givesP_of_word (exec_cmpNe s q g p a b) h (congrArg (s.pushP 1 p) ?ne),
      fun h => givesP_of_word (exec_cmpLt s q g p a b) h rfl, fun h => givesP_of_word (exec_cmpGe s q g p a b) h rfl,
      fun h => givesP_of_word (exec_cmpLtw s q g p a b) h rfl, fun h => givesP_of_word (exec_cmpGew s q g p a b) h rfl,
      fun h => givesP_of_word (exec_cmpiEq s q p a i ext) h rfl, fun h => givesP_of_word (exec_cmpiNe s q p a i ext) h rfl,
      fun h => givesP_of_word (exec_cmpiLt s q p a i ext) h rfl, fun h => givesP_of_word (exec_cmpiGe s q p a i ext) h rfl,
      fun h => givesP_of_word (exec_cmpiLtw s q p a i ext) h rfl, fun h => givesP_of_word (exec_cmpiGew s q p a i ext) h rfl,
      fun h => givesS_of_word (exec_sel s q g d a b) h rfl, fun f n m x y h => givesP_of_word (exec_movp s q g f p n x m y) h rfl⟩
    case ne => rw [decide_not, decide_not, decide_eq_toInt]
  · intro s q d a i j e
    have lih_unextended : j.toNat < 2 ^ 32 := j.isLt.trans (by decide)
    refine ⟨fun h => givesS_of_word (exec_addi s q d a i none) h (congrArg (fun x => s.pushS 1 d (wordOf (s.sv a + x))) (immS_none i (by decide))),
      fun h => givesS_of_word (exec_addi s q d a i (some e)) h (congrArg (fun x => s.pushS 1 d (wordOf (s.sv a + x))) (immS_some i e)),
      fun h => givesS_of_word (exec_li s q d j none) h (congrArg (fun x => s.pushS 1 d (wordOf x)) (immS_none j (by decide))),
      fun h => givesS_of_word (exec_li s q d j (some e)) h (congrArg (fun x => s.pushS 1 d (wordOf x)) (immS_some j e)),
      fun h => givesS_of_word (exec_lih s q d j none) h (congrArg (s.pushS 1 d) (lih_value _ lih_unextended)),
      fun he h => givesS_of_word (exec_lih s q d j (some e)) h (congrArg (s.pushS 1 d) ?wide), fun he => ?illegal⟩
    case wide =>
      rw [toNat_append_eq]
      exact lih_value _ (by have := j.isLt; simp only [immU]; omega)
    case illegal =>
      have high : e.toNat / 2 ^ 16 ≠ 0 := (Nat.div_pos he (by decide)).ne'
      exact (exec_lih s q d j (some e)).trans (word_illFormed (wf_of_not_legal (i := .lih q d j (some e)) (beq_eq_false_iff_ne.mpr high)) _)

end Sys2Proof.Proofs
end

