-- ==== Sys2Proof/Proofs/Control.lean ====
section
/-! Proofs about the transfers, loops and segments of spec/08 (R162 to R179), and about fields that are replaced in a word. -/

namespace Sys2Proof.Proofs

open Sys2Proof Sys2Proof.Machine

-- One theorem after another: side by side they need more memory than one run may take.
set_option Elab.async false

/-- A word that has its own effect answers the next state of its body. -/
theorem runs_of_word {i : Instr} {s : State} {body : State → State} (e : exec i s = word i s body) (h : Runs i s) : exec i s = .next (body s) :=
  e.trans (word_runs h body)

/-! ## A field of a word that is replaced -/

theorem getLsbD_setField {w : Nat} (h : BitVec w) {lo n v : Nat} (hv : v < 2 ^ n) {j : Nat} (hj : j < w) :
    ((h &&& ~~~(BitVec.ofNat w ((2 ^ n - 1) * 2 ^ lo))) ||| BitVec.ofNat w (v * 2 ^ lo)).getLsbD j =
      if lo ≤ j ∧ j < lo + n then v.testBit (j - lo) else h.getLsbD j := by
  have above : lo + n ≤ j → v.testBit (j - lo) = false := fun h => Nat.testBit_lt_two_pow (hv.trans_le (Nat.pow_le_pow_right (by decide) (by omega)))
  simp only [BitVec.getLsbD_or, BitVec.getLsbD_and, BitVec.getLsbD_not, BitVec.getLsbD_ofNat, Nat.testBit_mul_two_pow, Nat.testBit_two_pow_sub_one, hj,
    decide_true, Bool.true_and]
  by_cases h1 : lo ≤ j
  · by_cases h2 : j < lo + n
    · simp [h1, h2, show j - lo < n by omega]
    · simp [h1, h2, show ¬ j - lo < n by omega, above (by omega)]
  · simp [h1]

/-- The field itself holds the new value. -/
theorem setField_field {w : Nat} (h : BitVec w) {lo n v : Nat} (hv : v < 2 ^ n) (hw : lo + n ≤ w) :
    ((h &&& ~~~(BitVec.ofNat w ((2 ^ n - 1) * 2 ^ lo))) ||| BitVec.ofNat w (v * 2 ^ lo)).toNat / 2 ^ lo % 2 ^ n = v := by
  apply Nat.eq_of_testBit_eq
  intro j
  rw [Nat.testBit_mod_two_pow, Nat.testBit_div_two_pow]
  by_cases hj : j < n
  · have := getLsbD_setField h (lo := lo) hv (j := j + lo) (by omega)
    rw [if_pos (by omega), Nat.add_sub_cancel] at this
    rw [decide_eq_true hj, Bool.true_and]
    exact this
  · simp [hj, Nat.testBit_lt_two_pow (hv.trans_le (Nat.pow_le_pow_right (by decide) (Nat.le_of_not_lt hj)))]

/-! ## Targets (R134, R162) -/

theorem lowBits_of_range {w : Nat} {x : Int} (h : 0 ≤ x) (h' : x < 2 ^ w) : (lowBits w x : Int) = x := by
  rw [lowBits, Int.emod_eq_of_lt h (by exact_mod_cast h'), Int.toNat_of_nonneg h]

theorem offsetOf_le (ovl : Bool) (a : Nat) : offsetOf ovl a ≤ a := by
  unfold offsetOf; split <;> omega

/-- A relative target inside the range of its segment. -/
theorem jumpRel_inside {s : State} {k : Int} (h : 0 ≤ (offsetOf s.cur.desc.image.ovl (packetOf s.cur.desc.image.ovl s.bnd.addr) : Int) + 12 * k)
    (h' : (offsetOf s.cur.desc.image.ovl (packetOf s.cur.desc.image.ovl s.bnd.addr) : Int) + 12 * k < 2 ^ (if s.cur.desc.image.ovl then 16 else 22)) :
    s.jumpRel k = s.addPost (.jump (BitVec.ofInt 22 (packetOf s.cur.desc.image.ovl s.bnd.addr + 12 * k)) false) := by
  have hle := offsetOf_le s.cur.desc.image.ovl (packetOf s.cur.desc.image.ovl s.bnd.addr)
  have hlim : (if s.cur.desc.image.ovl then 65536 else 2 ^ 22 : Int) = 2 ^ (if s.cur.desc.image.ovl then 16 else 22) := by split <;> rfl
  have htarget : ((packetOf s.cur.desc.image.ovl s.bnd.addr - offsetOf s.cur.desc.image.ovl (packetOf s.cur.desc.image.ovl s.bnd.addr) +
      lowBits (if s.cur.desc.image.ovl then 16 else 22) (offsetOf s.cur.desc.image.ovl (packetOf s.cur.desc.image.ovl s.bnd.addr) + 12 * k) : Nat) : Int) =
      packetOf s.cur.desc.image.ovl s.bnd.addr + 12 * k := by
    have := lowBits_of_range h h'
    omega
  rw [State.jumpRel, hlim, decide_eq_false (by omega), ← htarget, BitVec.ofInt_natCast]

/-- A relative target outside that range, which the fetch refuses. -/
theorem jumpRel_outside {s : State} {k : Int}
    (h : (offsetOf s.cur.desc.image.ovl (packetOf s.cur.desc.image.ovl s.bnd.addr) : Int) + 12 * k < 0 ∨
      (if s.cur.desc.image.ovl then 65536 else 2 ^ 22 : Int) ≤ (offsetOf s.cur.desc.image.ovl (packetOf s.cur.desc.image.ovl s.bnd.addr) : Int) + 12 * k) :
    ∃ x, s.jumpRel k = s.addPost (.jump x true) := ⟨_, by rw [State.jumpRel, decide_eq_true h]⟩

@[simp] theorem addPost_stop (s : State) (p : Post) : (s.addPost p).bnd.stop = s.bnd.stop := rfl

/-- A CALL whose transfer stands also gives s30 the address after its bundle. -/
theorem writeLink_addPost {s : State} (h : s.bnd.stop = .none) (p : Post) : (s.addPost p).writeLink = (s.addPost p).pushS 1 30 (s.bnd.na.setWidth 64) := by
  rw [State.writeLink, addPost_stop, h]; rfl

theorem jumpTo_aligned {s : State} {t : Nat} (h : t < 2 ^ 22) (h' : offsetOf s.cur.desc.image.ovl t % 12 = 0) :
    s.jumpTo t = s.addPost (.jump (BitVec.ofNat 22 t) false) := if_neg (by rintro (h1 | h1) <;> omega)

theorem jumpRel_eq_addPost (s : State) (k : Int) : ∃ p, s.jumpRel k = s.addPost p := ⟨_, rfl⟩

/-- The comparisons of BRC (R164). -/
theorem brcHolds_iff {x : BitVec 3} (hx : x.toNat < 6) (a : Int) :
    brcHolds x a = true ↔ (x = 0 ∧ a = 0) ∨ (x = 1 ∧ a ≠ 0) ∨ (x = 2 ∧ a < 0) ∨ (x = 3 ∧ 0 ≤ a) ∨ (x = 4 ∧ 0 < a) ∨ (x = 5 ∧ a ≤ 0) := by
  have : x = 0 ∨ x = 1 ∨ x = 2 ∨ x = 3 ∨ x = 4 ∨ x = 5 := by revert x; decide
  rcases this with rfl | rfl | rfl | rfl | rfl | rfl <;> simp [brcHolds]

/-- A fault flag that is set leaves the others (R165). -/
theorem setFault_flag (n : Node) (e f : BitVec 2) : (n.setFault e).ctl.flt.getLsbD f.toNat = (decide (f = e) || n.ctl.flt.getLsbD f.toNat) := by
  have key : ∀ e f : BitVec 2, (BitVec.ofNat 4 (2 ^ e.toNat)).getLsbD f.toNat = decide (f = e) := by decide
  rw [Node.setFault, BitVec.getLsbD_or, key, Bool.or_comm]

theorem wf_legal {i : Instr} (h : i.wf = true) : i.sig.legal = true := by
  by_contra hl
  rw [wf_of_not_legal (Bool.eq_false_iff.mpr hl)] at h
  exact Bool.false_ne_true h

/-- Settles O16. -/
theorem transfersAndBranches : Obligations.TransfersAndBranches := by
  unfold Obligations.TransfersAndBranches
  refine ⟨fun s k t => ?targets, fun s q g i ext a x k kf f n e hstop => ?words, fun n => ?flags⟩
  case targets =>
    dsimp only
    refine ⟨fun ho h h' => jumpRel_inside ?_ ?_, fun ho h h' => jumpRel_inside ?_ ?_, fun ho h => jumpRel_outside ?_, fun ho h => jumpRel_outside ?_,
      fun h h' => jumpTo_aligned h h', fun h => if_pos h, fun _ _ _ _ => ⟨rfl, rfl, rfl, rfl, rfl⟩⟩
    all_goals (simp only [ho] at *; assumption)
  case words =>
    dsimp only
    refine ⟨fun h => runs_of_word (exec_brRel s q g i ext) h, fun h => runs_of_word (exec_brAbs s q g i ext) h,
      fun h => (runs_of_word (exec_callRel s q g i ext) h).trans ?callRel, fun h ht ha => (runs_of_word (exec_callAbs s q g i ext) h).trans ?callAbs,
      fun h hs => (runs_of_word (exec_callAbs s q g i ext) h).trans ?callFaults, fun h => runs_of_word (exec_ret s q g a) h, fun h => ?brc, fun hx => ?bad,
      fun h => ?brf⟩
    case callRel =>
      obtain ⟨p, hp⟩ := jumpRel_eq_addPost s (immS 16 i ext)
      rw [hp, writeLink_addPost hstop]
    case callAbs => rw [jumpTo_aligned ht ha, writeLink_addPost hstop]
    case callFaults => rw [State.writeLink, if_pos hs]
    case brc =>
      have hx : x.toNat < 6 := of_decide_eq_true (wf_legal h.1)
      have run := runs_of_word (exec_brc s q g x a k ext) h
      exact ⟨fun ht => run.trans (by rw [if_pos ((brcHolds_iff hx (s.sv a)).mpr ht)]), fun ht => run.trans (by rw [if_neg (mt (brcHolds_iff hx (s.sv a)).mp ht)])⟩
    case bad => exact (exec_brc s q g x a k ext).trans (word_illFormed (wf_of_not_legal (i := .brc q g x a k ext) (decide_eq_false (by omega))) _)
    case brf =>
      have run := runs_of_word (exec_brf s q g f e n kf ext) h
      have hread : (if f = 0 ∧ (if f = 0 then s.cur.done e else s.cur.ctl.flt.getLsbD e.toNat) = true then s.acquire else s) =
          if f = 0 ∧ s.cur.done e = true then s.acquire else s := by
        by_cases hf : f = 0
        · simp only [if_pos hf]
        · simp only [hf, false_and]
      dsimp only at run
      rw [hread] at run
      exact ⟨fun hv => by rw [run, if_pos hv], fun hv => by rw [run, if_neg (Bool.eq_false_iff.mp hv)]⟩
  case flags =>
    refine ⟨?_, ?_, ?_, ?_, setFault_flag n, fun _ => rfl, ?_⟩
    · simp [Node.done]
    · simp [Node.done]
    · simp [Node.done]
    · simp [Node.done, and_assoc]
    · intro e
      unfold Node.done
      split_ifs <;> rfl

/-! ## Loops (R167 to R173) -/

theorem level_field (s : State) (n : Fin 6) : s.level (BitVec.ofNat 3 n.val) = s.cur.ctl.loops[n.val] ∧ (BitVec.ofNat 3 n.val).toNat = n.val :=
  ⟨level_ofNat s n, toNat_levelField n⟩

theorem innerActive_iff (s : State) (n : Fin 6) :
    s.innerActive (BitVec.ofNat 3 n.val) = true ↔ ∃ m : Fin 6, n < m ∧ (s.cur.ctl.loops[m.val]).act = true := by
  simp only [State.innerActive, toNat_levelField, List.any_eq_true, List.mem_range, Bool.and_eq_true, decide_eq_true_eq]
  constructor
  · rintro ⟨m, hm, hlt, hact⟩
    rw [Vector.getElem?_eq_getElem hm] at hact
    exact ⟨⟨m, hm⟩, hlt, hact⟩
  · rintro ⟨m, hlt, hact⟩
    exact ⟨m.val, m.isLt, hlt, by rw [Vector.getElem?_eq_getElem m.isLt]; exact hact⟩

/-- What closing a level does, by the state of its levels (R172). -/
theorem closeLoop_cases (s : State) (n : Fin 6) (k : Int) (rot : Nat) :
    let l := s.cur.ctl.loops[n.val]
    let bad : Prop := l.act = false ∨ ∃ m : Fin 6, n < m ∧ (s.cur.ctl.loops[m.val]).act = true
    let t := if rot = 0 then s else s.addPost (.rotate rot)
    (bad → s.closeLoop (BitVec.ofNat 3 n.val) k rot = s.trapHere 9 0) ∧
    (¬ bad → l.i + 1 < l.t → s.closeLoop (BitVec.ofNat 3 n.val) k rot = ((t.moveOrigins l 1).addPost (.loop n.val { l with i := l.i + 1 })).jumpRel k) ∧
    (¬ bad → l.t ≤ l.i + 1 → s.closeLoop (BitVec.ofNat 3 n.val) k rot = (t.moveOrigins l (-((l.t : Int) - 1))).addPost (.loop n.val {})) := by
  intro l bad t
  have hbad : (!l.act || s.innerActive (BitVec.ofNat 3 n.val)) = true ↔ bad := by
    rw [Bool.or_eq_true, innerActive_iff, Bool.not_eq_true']
  simp only [State.closeLoop, level_ofNat, toNat_levelField]
  exact ⟨fun h => if_pos (hbad.mpr h), fun h hlt => by rw [if_neg (mt hbad.mp h), if_pos hlt],
    fun h hle => by rw [if_neg (mt hbad.mp h), if_neg (Nat.not_lt.mpr hle)]⟩

theorem withResults_append (s : State) (l m : List InFlight) : (s.withResults l).withResults m = s.withResults (l ++ m) := by
  simp [State.withResults]

/-- Origin updates of a level fall due at the next bundle (R172). -/
theorem moveOrigins_eq (s : State) (l : Loop) (times : Int) :
    s.moveOrigins l times = s.withResults (l.entries.map fun e => { dist := 1, eff := .org e.1 e.2.1 (times * e.2.2) }) := by
  unfold State.moveOrigins
  generalize l.entries = es
  induction es generalizing s with
  | nil => simp
  | cons e es ih => rw [List.foldl_cons, ih, State.push_eq, withResults_append, List.map_cons, List.singleton_append]

theorem signExt_extractLsb' {w : Nat} (x : BitVec w) (lo n : Nat) (hn : 0 < n) : signExt n (fieldN x lo n : Int) = (x.extractLsb' lo n).toInt :=
  signExt_toNat (x.extractLsb' lo n) hn

/-- A latched stride entry that is valid (R168). -/
theorem mem_entries (l : Loop) (e : BitVec 4 × Nat × Int) : e ∈ l.entries ↔
    ∃ w ∈ [l.lat0, l.lat1], ∃ lo ∈ [0, 32], w.getLsbD (lo + 31) = true ∧ w.toNat / 2 ^ (lo + 24) % 8 < 5 ∧
      e = (w.extractLsb' (lo + 27) 4, w.toNat / 2 ^ (lo + 24) % 8, (w.extractLsb' lo 18).toInt) := by
  have entry : e ∈ l.entries ↔ ∃ x ∈ [(l.lat0, 0), (l.lat0, 32), (l.lat1, 0), (l.lat1, 32)], x.1.getLsbD (x.2 + 31) = true ∧ fieldN x.1 (x.2 + 24) 3 < 5 ∧
      e = (x.1.extractLsb' (x.2 + 27) 4, fieldN x.1 (x.2 + 24) 3, (x.1.extractLsb' x.2 18).toInt) := by
    simp only [Loop.entries, List.mem_map, List.mem_filter, Bool.and_eq_true, decide_eq_true_eq, signExt_extractLsb' _ _ 18 (by decide), and_assoc,
      eq_comm (b := e)]
  rw [entry]
  simp only [fieldN_eq_div_mod, List.mem_cons, List.not_mem_nil, or_false, exists_eq_or_imp, exists_eq_left, or_assoc, Nat.reducePow]

/-- A stride moves one origin modulo 2^18 and no other bit of the handle (R172). -/
theorem moveOrg_spec (h : Handle) (d : Fin 5) (delta : Int) :
    ((moveOrg h d.val delta).toNat / 2 ^ (154 + 18 * d.val) % 2 ^ 18 : Int) = ((h.toNat / 2 ^ (154 + 18 * d.val) % 2 ^ 18 : Nat) + delta) % 2 ^ 18 ∧
    ∀ j < 256, j < 154 + 18 * d.val ∨ 172 + 18 * d.val ≤ j → (moveOrg h d.val delta).getLsbD j = h.getLsbD j := by
  have hd := d.isLt
  have hlt (x : Int) : lowBits 18 x < 2 ^ 18 := by
    have := Int.emod_lt_of_pos x (b := (2 ^ 18 : Nat)) (by decide)
    rw [lowBits]; omega
  have hval (x : Int) : (lowBits 18 x : Int) = x % 2 ^ 18 := Int.toNat_of_nonneg (Int.emod_nonneg _ (by decide))
  constructor
  · have := setField_field h (lo := 154 + 18 * d.val) (hlt (((h.extractLsb' (154 + 18 * d.val) 18).toNat : Int) + delta)) (by omega)
    rw [moveOrg]
    norm_cast
    rw [this, hval, ← fieldN, fieldN_eq_div_mod]
    rfl
  · intro j hj hout
    rw [moveOrg]
    exact (getLsbD_setField h (hlt _) hj).trans (if_neg (by omega))

theorem apply_org (r : Regs) (n : Nat) (h : Fin 16) (d : Nat) (by_ : Int) :
    (r.apply n (.org (BitVec.ofNat 4 h.val) d by_)).h[h] = moveOrg r.h[h] d by_ ∧
    (∀ i : Fin 16, i ≠ h → (r.apply n (.org (BitVec.ofNat 4 h.val) d by_)).h[i] = r.h[i]) := by
  constructor
  · simp [Regs.apply]
  · intro i hi
    have : h.val ≠ i.val := fun e => hi (Fin.ext e.symm)
    simp [Regs.apply, this]

/-- Settles O18. -/
theorem loopCloses : Obligations.LoopCloses := by
  unfold Obligations.LoopCloses
  refine ⟨fun s q n k r ext => ?close, ⟨moveOrg_spec, mem_entries, moveOrigins_eq, fun r n h d by_ => ?org⟩, fun s q g n k ext => ?lbrk⟩
  case close =>
    dsimp only
    have turn : (2 : Nat) ^ (r.toNat + 1) ≠ 0 := (Nat.two_pow_pos _).ne'
    obtain ⟨c1, c2, c3⟩ := closeLoop_cases s n (immS 11 k ext) 0
    obtain ⟨t1, t2, t3⟩ := closeLoop_cases s n (immS 11 k ext) (2 ^ (r.toNat + 1))
    simp only [if_pos] at c1 c2 c3
    simp only [if_neg turn] at t1 t2 t3
    refine ⟨fun h => ?_, fun h => ?_, fun _ _ _ => rfl, fun nd fa x => by simp [Node.post]⟩
    · have run := runs_of_word (exec_loopClose s q (BitVec.ofNat 3 n.val) k ext) h
      exact ⟨fun hb => run.trans (congrArg _ (c1 hb)), fun hb hl => run.trans (congrArg _ (c2 hb hl)), fun hb hl => run.trans (congrArg _ (c3 hb hl))⟩
    · have run := runs_of_word (exec_loopr s q (BitVec.ofNat 3 n.val) r k ext) h
      exact ⟨fun hb => run.trans (congrArg _ (t1 hb)), fun hb hl => run.trans (congrArg _ (t2 hb hl)), fun hb hl => run.trans (congrArg _ (t3 hb hl))⟩
  case org => exact ⟨(apply_org r n h d by_).1, (apply_org r n h d by_).2, rfl⟩
  case lbrk =>
    dsimp only
    intro h
    have run := runs_of_word (exec_lbrk s q g (BitVec.ofNat 3 n.val) k ext) h
    rw [level_ofNat, toNat_levelField] at run
    exact ⟨fun ha => by rw [run, ha]; rfl, fun ha => by rw [run, ha]; rfl⟩

/-! ## Overlay segments and the end of a stream (R137, R177, R179) -/

theorem copying_iff (r : Resident) (seg : Nat) : r.copying.map (·.1) = some seg ↔ ∃ b, r.copying = some (seg, b) := by
  simp [Option.map_eq_some_iff]

/-- SEGX of a segment of an overlay image whose code is resident on the core (R177). -/
theorem exec_segx_resident {s : State} {q : BitVec 2} {g : BitVec 4} {n : BitVec 6} {r : Resident} (h : Runs (.segx q g n) s)
    (ho : s.cur.desc.image.ovl = true) (hn : n.toNat < s.cur.desc.image.segs.length) (hr : s.resident s.cur.desc.image.imgid = some r) :
    exec (.segx q g n) s = .next
      (if r.half0 = some n.toNat ∨ r.half1 = some n.toNat ∨ (r.copying.map (·.1)) = some n.toNat then s
       else if r.half0 == some (s.bnd.addr.toNat / 65536) then s.setResident { r with half1 := none, copying := some (n.toNat, true) }
       else s.setResident { r with half0 := none, copying := some (n.toNat, false) }) := by
  have hskip : (!s.cur.desc.image.ovl || decide (s.cur.desc.image.segs.length ≤ n.toNat)) = false := by simp [ho, hn]
  have run := runs_of_word (exec_segx s q g n) h
  dsimp only at run
  simp only [run, hskip, Bool.false_eq_true, if_false, State.startSegment, State.otherHalf, hr]

/-- Settles O19. -/
theorem segmentsEndAndEmptyWords : Obligations.SegmentsEndAndEmptyWords := by
  unfold Obligations.SegmentsEndAndEmptyWords
  intro s q g n x
  refine ⟨fun h hskip => ?outside, fun r h ho hn hr => ?inside, fun h => runs_of_word (exec_endNode s) h,
    fun nd fa => ⟨rfl, rfl, rfl, rfl, rfl, rfl⟩, fun h => runs_of_word (exec_nop s q x) h, fun h => runs_of_word (exec_extensionWord s x) h⟩
  case outside =>
    refine (runs_of_word (exec_segx s q g n) h).trans (congrArg _ (if_pos ?_))
    rcases hskip with ho | hn
    · simp [ho]
    · simp [hn]
  case inside =>
    have run := exec_segx_resident h ho hn hr
    simp only [copying_iff] at run
    rw [run]
    exact ⟨fun hres => by rw [if_pos hres], fun hres => ⟨fun h0 => by rw [if_neg hres, if_pos (beq_iff_eq.mpr h0)],
      fun h0 => by rw [if_neg hres, if_neg (mt beq_iff_eq.mp h0)]⟩⟩

end Sys2Proof.Proofs
end

