-- ==== Sys2Proof/Proofs/State.lean ====
section
/-! Proofs about memory (R55, R358) and about the registers and the results in flight (R143, R145, R153, R172). -/

namespace Sys2Proof.Proofs

open Sys2Proof Sys2Proof.Machine

-- One theorem after another: side by side they need more memory than one run may take.
set_option Elab.async false

/-! ## Bytes and numbers of memory (R55, R358) -/

theorem setByte_byte {s : State} (h : Canonical s) (pa : Nat) (b : Byte) (p : Bool) (a : Nat) :
    (s.setByte pa b p).byte a = if a = pa then b else s.byte a := memSet_get h pa b a

theorem setByte_poisoned {s : State} (h : s.poison.Pairwise (· < ·)) (pa : Nat) (b : Byte) (p : Bool) (a : Nat) :
    (s.setByte pa b p).poisoned a = if a = pa then p else s.poisoned a := by
  have contains (l : List Nat) : l.contains a = decide (a ∈ l) := List.contains_eq_mem a l
  unfold State.poisoned State.setByte
  cases p
  · simp only [Bool.false_eq_true, if_false, contains, mem_setDel h]
    by_cases ha : a = pa <;> simp [ha]
  · simp only [if_true, contains, mem_setAdd]
    by_cases ha : a = pa <;> simp [ha]

/-- Where the bytes of a number go, lowest first (R55). -/
theorem wr_byte {s : State} (h : Canonical s) (pa v n a : Nat) :
    (s.wr pa v n).byte a = if pa ≤ a ∧ a < pa + n then BitVec.ofNat 8 (v / 2 ^ (8 * (a - pa))) else s.byte a := by
  induction n generalizing s pa v with
  | zero => rw [if_neg (by omega)]; rfl
  | succ n ih =>
    rw [State.wr, ih (s.setByte_canonical h pa _ _), setByte_byte h]
    rcases Nat.lt_trichotomy a pa with hlt | rfl | hgt
    · rw [if_neg (by omega), if_neg (by omega), if_neg (by omega)]
    · simp
    · rw [if_neg (by omega : ¬ a = pa)]
      have hv : v / 256 / 2 ^ (8 * (a - (pa + 1))) = v / 2 ^ (8 * (a - pa)) := by
        rw [Nat.div_div_eq_div_mul, show 8 * (a - pa) = 8 + 8 * (a - (pa + 1)) by omega, Nat.pow_add]
      by_cases hin : a < pa + (n + 1)
      · rw [if_pos (by omega), if_pos (by omega), hv]
      · rw [if_neg (by omega), if_neg (by omega)]

/-- A number is read from its bytes, lowest first (R55). -/
theorem rd_of_bytes {s : State} {pa v n : Nat} (h : ∀ k < n, s.byte (pa + k) = BitVec.ofNat 8 (v / 2 ^ (8 * k))) : s.rd pa n = v % 2 ^ (8 * n) := by
  induction n generalizing pa v with
  | zero => simp [State.rd, Nat.mod_one]
  | succ n ih =>
    have low := h 0 (by omega)
    have rest : s.rd (pa + 1) n = v / 256 % 2 ^ (8 * n) := ih fun k hk => by
      have := h (k + 1) (by omega)
      rwa [show pa + 1 + k = pa + (k + 1) by omega, Nat.div_div_eq_div_mul, show 256 * 2 ^ (8 * k) = 2 ^ (8 * (k + 1)) by rw [Nat.mul_add, Nat.pow_add, Nat.mul_comm]]
    rw [State.rd, rest, show pa = pa + 0 from rfl, low, BitVec.toNat_ofNat, Nat.mul_zero, Nat.pow_zero, Nat.div_one,
      show 2 ^ (8 * (n + 1)) = 256 * 2 ^ (8 * n) by rw [Nat.mul_add, Nat.pow_add, Nat.mul_comm], Nat.mod_mul]

/-- Settles O9. -/
theorem memoryReadsWhatWasWritten : Obligations.MemoryReadsWhatWasWritten := by
  unfold Obligations.MemoryReadsWhatWasWritten
  refine ⟨fun s pa b p h hp => ⟨s.setByte_canonical h pa b p, fun a => ⟨setByte_byte h pa b p a, setByte_poisoned hp pa b p a⟩⟩, fun s pa v n h => ?_⟩
  have bytes : ∀ k < n, (s.wr pa v n).byte (pa + k) = BitVec.ofNat 8 (v / 2 ^ (8 * k)) := fun k hk => by
    rw [wr_byte h, if_pos (by omega), Nat.add_sub_cancel_left]
  exact ⟨rd_of_bytes bytes, bytes, fun a ha => by rw [wr_byte h, if_neg ha]⟩

/-! ## Registers (R153) -/

theorem node_s_primary {n : Node} {r : BitVec 5} (hr : r ≠ 0) (h : r.toNat < 24 ∨ n.ctl.bank = false) : n.s r = n.regs.s[r.toNat] := by
  have hb : ¬ (n.ctl.bank = true ∧ 24 ≤ r.toNat) := by
    rintro ⟨hb, h24⟩
    rcases h with h | h
    · omega
    · simp [h] at hb
  rw [Node.s, if_neg hr, if_neg hb]

theorem node_s_shadow {n : Node} {r : BitVec 5} (h : 24 ≤ r.toNat) (hb : n.ctl.bank = true) : some (n.s r) = n.regs.sh[r.toNat - 24]? := by
  have hr : r ≠ 0 := by rintro rfl; exact absurd h (by decide)
  have hlt : r.toNat - 24 < 8 := by have := r.isLt; omega
  rw [Node.s, if_neg hr, if_pos ⟨hb, h⟩, Vector.getElem?_eq_getElem hlt, Option.getD_some]

/-! ## Results that fall due (R143, R145, R172) -/

/-- The results of a node that are due at the next bundle, in the order in which they are written: origin updates last (R172). -/
def dueFirst (l : List InFlight) : List InFlight := ((l.map fun f => { f with dist := f.dist - 1 }).filter fun f => f.dist == 0).filter fun f => !f.eff.isOrg
def dueLast (l : List InFlight) : List InFlight := ((l.map fun f => { f with dist := f.dist - 1 }).filter fun f => f.dist == 0).filter fun f => f.eff.isOrg

theorem begin_regs (n : Node) :
    n.begin.regs = (dueLast n.ctl.flight).foldl (fun r f => r.apply n.run.gangWidth f.eff)
      ((dueFirst n.ctl.flight).foldl (fun r f => r.apply n.run.gangWidth f.eff) n.regs) := List.foldl_append

/-- Origin updates change handles only (R172). -/
theorem foldl_origins (n : Nat) (r : Regs) {l : List InFlight} (h : ∀ f ∈ l, f.eff.isOrg = true) :
    { l.foldl (fun r f => r.apply n f.eff) r with h := r.h } = r := by
  induction l generalizing r with
  | nil => rfl
  | cons f l ih =>
    have hf := h f (by simp)
    obtain ⟨a, d, b, he⟩ : ∃ a d b, f.eff = .org a d b := by
      revert hf; cases f.eff <;> simp [Effect.isOrg]
    have := ih (r.apply n f.eff) fun g hg => h g (by simp [hg])
    rw [he] at this
    rw [List.foldl_cons, he]
    exact congrArg (fun x : Regs => { x with h := r.h }) this

theorem begin_regs_but_handles (n : Node) :
    { n.begin.regs with h := n.regs.h } = { (dueFirst n.ctl.flight).foldl (fun r f => r.apply n.run.gangWidth f.eff) n.regs with h := n.regs.h } := by
  have := foldl_origins n.run.gangWidth ((dueFirst n.ctl.flight).foldl (fun r f => r.apply n.run.gangWidth f.eff) n.regs) (l := dueLast n.ctl.flight)
    fun f hf => (List.mem_filter.mp hf).2
  rw [begin_regs]
  exact congrArg (fun x : Regs => { x with h := n.regs.h }) this

theorem dueFirst_push (l : List InFlight) (e : Effect) (h : e.isOrg = false) : dueFirst (l ++ [{ dist := 1, eff := e }]) = dueFirst l ++ [{ dist := 0, eff := e }] := by
  simp [dueFirst, h]

/-- A result that is no origin update and falls due next is written behind the others. -/
theorem begin_push_next (n : Node) {e : Effect} (h : e.isOrg = false) :
    { (n.push 1 e).begin.regs with h := n.regs.h } =
      { ((dueFirst n.ctl.flight).foldl (fun r f => r.apply n.run.gangWidth f.eff) n.regs).apply n.run.gangWidth e with h := n.regs.h } := by
  have := begin_regs_but_handles (n.push 1 e)
  rw [show (n.push 1 e).ctl.flight = n.ctl.flight ++ [{ dist := 1, eff := e }] from rfl, dueFirst_push _ _ h, List.foldl_append] at this
  exact this

/-- A result that falls due later only comes one bundle nearer. -/
theorem begin_push_later (n : Node) (e : Effect) {k : Nat} (h : 0 < k) : (n.push (k + 1) e).begin = n.begin.push k e := by
  have hk : k ≠ 0 := h.ne'
  simp [Node.begin, Node.push, hk]

theorem getLsbD_setBit (x : BitVec 8) (d : BitVec 3) (v : Bool) {j : Nat} (hj : j < 8) :
    (if v then x ||| BitVec.ofNat 8 (2 ^ d.toNat) else x &&& ~~~(BitVec.ofNat 8 (2 ^ d.toNat))).getLsbD j = if j = d.toNat then v else x.getLsbD j := by
  have bit : (BitVec.ofNat 8 (2 ^ d.toNat)).getLsbD j = decide (d.toNat = j) := by
    rw [BitVec.getLsbD_ofNat, Nat.testBit_two_pow]; simp [hj]
  cases v
  · simp only [Bool.false_eq_true, if_false, BitVec.getLsbD_and, BitVec.getLsbD_not, bit]
    by_cases h : j = d.toNat
    · simp [h]
    · simp [h, hj, Ne.symm h]
  · simp only [if_true, BitVec.getLsbD_or, bit]
    by_cases h : j = d.toNat
    · simp [h]
    · simp [h, Ne.symm h]

theorem testBit_keep (x mask bits j : Nat) : ((x ^^^ (x &&& mask)) ||| bits).testBit j = (x.testBit j && !mask.testBit j || bits.testBit j) := by
  rw [Nat.testBit_or, Nat.testBit_xor, Nat.testBit_and]
  cases x.testBit j <;> cases mask.testBit j <;> rfl

/-- The SAT bit of a shape register (R182). -/
theorem getLsbD_sat (ts : BitVec 32) (sat replace : Bool) {j : Nat} (hj : j < 32) :
    (if sat then ts ||| 0x02000000#32 else if replace then ts &&& ~~~0x02000000#32 else ts).getLsbD j =
      if j = 25 ∧ (sat = true ∨ replace = true) then sat else ts.getLsbD j := by
  have bit : (0x02000000#32).getLsbD j = decide (j = 25) := by
    interval_cases j <;> rfl
  have set : (ts ||| 0x02000000#32).getLsbD j = (ts.getLsbD j || decide (j = 25)) := by rw [BitVec.getLsbD_or, bit]
  have clear : (ts &&& ~~~0x02000000#32).getLsbD j = (ts.getLsbD j && !decide (j = 25)) := by rw [BitVec.getLsbD_and, BitVec.getLsbD_not, bit, decide_eq_true hj, Bool.true_and]
  cases sat
  · cases replace
    · simp
    · simp only [Bool.false_eq_true, if_false, if_true, clear]
      by_cases h : j = 25 <;> simp [h]
  · simp only [if_true, set]
    by_cases h : j = 25 <;> simp [h]

/-- Settles O10. -/
theorem registersAndResultsInFlight : Obligations.RegistersAndResultsInFlight := by
  unfold Obligations.RegistersAndResultsInFlight
  refine ⟨fun n s dist v x => ⟨rfl, ?_, rfl, rfl, fun r hr h => node_s_primary hr h, fun r h hb => node_s_shadow h hb, fun d hd => ?_⟩,
    fun n e k hk => ⟨begin_push_later n e hk, fun d v => ?_, fun d v => ?_, fun d v j hj => ?_, fun d v => ?_⟩, fun r n => ?_, fun n h d by_ v => ?_⟩
  · simp [Node.p]
  · rw [State.pushS_eq, scalarResult, if_neg hd]
  · exact (congrArg Regs.s (begin_push_next n (e := .s false d v) rfl)).trans (congrArg (fun x : Regs => x.s.setIfInBounds d.toNat v) (begin_regs_but_handles n)).symm
  · exact (congrArg Regs.sh (begin_push_next n (e := .s true d v) rfl)).trans
      (congrArg (fun x : Regs => x.sh.setIfInBounds (d.toNat - 24) v) (begin_regs_but_handles n)).symm
  · have hp := congrArg Regs.p (begin_push_next n (e := .p d v) rfl)
    have h0 := congrArg Regs.p (begin_regs_but_handles n)
    dsimp only at hp h0
    rw [hp, h0]
    exact getLsbD_setBit _ d v hj
  · exact (congrArg Regs.ts (begin_push_next n (e := .ts d v) rfl)).trans (congrArg (fun x : Regs => x.ts.setIfInBounds d.toNat v) (begin_regs_but_handles n)).symm
  · refine ⟨fun _ _ => rfl, fun _ _ => rfl, fun d v => ⟨rfl, ?_⟩, fun d m v => ⟨rfl, fun i hi => ?_, fun j hj => ?_⟩, fun id d a => ⟨rfl, fun j hj => ?_⟩,
      fun d mask bits poison sat replace => ⟨rfl, fun i hi => ?_, fun j => ?_, fun j hj => ?_⟩, fun a segs poison rc cc sticky ck => ⟨rfl, fun i hi => ?_⟩,
      fun a x hx => ?_, fun _ => rfl, fun _ _ _ => rfl, fun _ _ _ _ => rfl⟩
    · simp [Regs.apply, BitVec.ofNat_add]
    · simp [Regs.apply, Ne.symm hi]
    · have hd : d.toNat < 64 := d.isLt
      simp only [Regs.apply, Vector.getElem_setIfInBounds_self, BitVec.getLsbD_or, BitVec.getLsbD_and, BitVec.getLsbD_not, hj]
      cases m.getLsbD j <;> simp
    · exact (getLsbD_setBit r.p d (decide (a = some true)) hj ▸ by simp [Regs.apply])
    · simp [Regs.apply, Ne.symm hi]
    · have hd : d.toNat < 64 := d.isLt
      simp only [Regs.apply, Vector.getElem_setIfInBounds_self]
      exact ⟨testBit_keep _ _ _ _, testBit_keep _ _ _ _⟩
    · have hd : d.toNat < 64 := d.isLt
      simp only [Regs.apply, Vector.getElem_setIfInBounds_self]
      exact getLsbD_sat _ sat replace hj
    · simp [Regs.apply, Ne.symm hi]
    · simp [Regs.apply, hx]
  · have := h.isLt
    simp [Node.begin, Effect.isOrg, Regs.apply, this]

end Sys2Proof.Proofs
end

