-- ==== Sys2Proof/Proofs/Steps.lean ====
section
/-! Proofs about steps: the events of the agenda (log entry 2), and why the bundle of a node whose partner is asked out does not issue. -/

namespace Sys2Proof.Proofs

open Sys2Proof Sys2Proof.Machine

-- One theorem after another: side by side they need more memory than one run may take.
set_option Elab.async false

/-- Settles O5. -/
theorem stepTakesTheAgendaEvent : Obligations.StepTakesTheAgendaEvent := by
  unfold Obligations.StepTakesTheAgendaEvent
  intro s i rest h
  refine ⟨fun t ht => ?_, fun f hf => ?_⟩
  · simp only [step, h, ht]; rfl
  · simp only [step, h, hf]; rfl

/-! ## A node whose partner has been asked out

`Issues` says that the node itself is not asked to leave and that its core holds no pair; it leaves open the node's partner. A front end stops a node at its boundary
where either of the two has been asked out (`State.stopsFor`, R129). -/

/-- The focus core in front of an N word of such a node. -/
def partnerAskedOut : State :=
  let s := State.reset.withFetchWord 32 0x1E000000
  { s with cur := { s.cur with run := { s.cur.run with partner := 2 } },
           nodes := [{ s.cur with desc := { s.cur.desc with uid := 2 }, run := { s.cur.run with preempt := true } }] }

theorem partnerAskedOut_stands : StandsAtWord partnerAskedOut 0x1E000000#32 (.nop 0 0) := by
  constructor
  case toIssues => constructor <;> decide +kernel
  all_goals decide +kernel

/-- Where the current node stands after a step. -/
def pcAfter (r : Result) : Option (BitVec 22) :=
  match r with
  | .next t => some t.cur.ctl.pc
  | _ => none

/-- Refutes O4: the node stands at its word, the word neither traps nor is delayed, and the step leaves the node in front of it. -/
theorem not_stepRunsTheDecodedWord : ¬ Obligations.StepRunsTheDecodedWord := by
  unfold Obligations.StepRunsTheDecodedWord
  rintro ⟨one, -⟩
  have try_ : exec (.nop 0 0) (tried partnerAskedOut (.nop 0 0)) = .next (tried partnerAskedOut (.nop 0 0)) :=
    runs_of_word (exec_nop _ 0 0) (by decide +kernel)
  have run : exec (.nop 0 0) (inItsBundle partnerAskedOut (.nop 0 0)) = .next (inItsBundle partnerAskedOut (.nop 0 0)) :=
    runs_of_word (exec_nop _ 0 0) (by decide +kernel)
  have past := ((one _ _ _ _ partnerAskedOut_stands try_).2 (by decide +kernel) _ run).1 (by decide +kernel) (by decide +kernel)
  have stays : pcAfter (step partnerAskedOut) = some 8#22 := by decide +kernel
  have moves : pcAfter (.next ((inItsBundle partnerAskedOut (.nop 0 0)).finish (partnerAskedOut.cur.ctl.pc.toNat + 4) partnerAskedOut.cur).clearBnd.settlePool) =
      some 12#22 := by decide +kernel
  rw [past, moves] at stays
  exact absurd stays (by decide)

/-! ## Words read out from the spec, shift bytes -/

/-- Settles O1. -/
theorem decodesTheWrittenWords : Obligations.DecodesTheWrittenWords := by
  unfold Obligations.DecodesTheWrittenWords
  exact ⟨rfl, rfl, rfl, rfl, rfl, rfl, rfl, rfl, rfl, rfl, rfl, rfl, rfl, rfl, rfl, rfl⟩

/-- Settles O11, over the sixteen shifts and the eight bits of a byte. -/
theorem shiftBytesCorrectOneBit : Obligations.ShiftBytesCorrectOneBit := by
  unfold Obligations.ShiftBytesCorrectOneBit
  decide +kernel

/-! ## Reset and launch (R37, R65, R75, R83, R102, R250, R368) -/

/-- Handles are put into their registers in operand order (R65). -/
theorem putHandles_get (l : List Handle) (k : Nat) (v : Vector Handle 16) {i : Nat} (hi : i < 16) :
    ((l.zipIdx k).foldl (fun (v : Vector Handle 16) e => v.setIfInBounds e.2 e.1) v)[i]? = if k ≤ i then (l[i - k]?).or v[i]? else v[i]? := by
  induction l generalizing k v with
  | nil => simp
  | cons h l ih =>
    rw [List.zipIdx_cons, List.foldl_cons, ih, Vector.getElem?_setIfInBounds]
    rcases Nat.lt_trichotomy i k with hlt | rfl | hgt
    · rw [if_neg (by omega), if_neg (by omega), if_neg (by omega)]
    · rw [if_neg (by omega), if_pos rfl, if_pos hi, if_pos le_rfl]; simp
    · rw [if_pos (by omega), if_neg (by omega), if_pos (by omega), show i - k = (i - (k + 1)) + 1 by omega]; simp

/-- The arguments go to s1 and the registers behind it (R65). -/
theorem putArgs_get (a : Nat → Word) (n : Nat) (v : Vector Word 32) {j : Nat} (hj : j < 32) :
    ((List.range n).foldl (fun (v : Vector Word 32) i => v.setIfInBounds (i + 1) (a i)) v)[j]? = if 1 ≤ j ∧ j ≤ n then some (a (j - 1)) else v[j]? := by
  induction n with
  | zero => rw [if_neg (by omega)]; rfl
  | succ n ih =>
    rw [List.range_succ, List.foldl_append, List.foldl_cons, List.foldl_nil, Vector.getElem?_setIfInBounds, ih]
    by_cases h : n + 1 = j
    · subst h; rw [if_pos rfl, if_pos hj, if_pos (by omega), Nat.add_sub_cancel]
    · rw [if_neg h]
      by_cases h' : 1 ≤ j ∧ j ≤ n
      · rw [if_pos h', if_pos (by omega)]
      · rw [if_neg h', if_neg (by omega)]

theorem launchRegs_s (d : Desc) (k : Vector (BitVec 32) 64) {j : Nat} (hj : j < 32) :
    (launchRegs d k).s[j]? = some (if 1 ≤ j ∧ j ≤ 8 then d.args[j - 1]?.getD 0 else 0) := by
  refine (putArgs_get (fun i => d.args[i]?.getD 0) 8 Regs.reset.s hj).trans ?_
  split
  · rfl
  · exact Vector.getElem?_replicate.trans (if_pos hj)

/-- A scale register that no operand names keeps its Reset column (R37, R65). -/
theorem loadScales_keeps {s t : State} {uid : Nat} {l : List (Handle × Word)} {k k' : Vector (BitVec 32) 64} (h : s.loadScales uid k l = (t, .ok k')) {j : Nat}
    (hj : ∀ e ∈ l, e.1.kidx ≠ j) : k'[j]? = k[j]? := by
  induction l generalizing s k with
  | nil =>
    obtain ⟨-, hk⟩ := Prod.mk.inj h
    rw [Loaded.ok.inj hk]
  | cons e l ih =>
    obtain ⟨hd, a⟩ := e
    rw [State.loadScales] at h
    split at h
    · exact nomatch (Prod.mk.inj h).2
    · dsimp only at h
      split at h
      · exact nomatch (Prod.mk.inj h).2
      · rw [ih h fun e he => hj e (by simp [he]), Vector.getElem?_setIfInBounds_ne (hj (hd, a) (by simp))]

/-- Settles O8. -/
theorem resetState : Obligations.ResetState := by
  unfold Obligations.ResetState
  constructor
  · refine ⟨rfl, rfl, rfl, rfl, fun q => ?_, rfl, by decide +kernel, by decide +kernel, ?_, rfl, by decide +kernel⟩
    · have hq : q.toNat < 64 := q.isLt
      have : State.reset.queue q = {} := Vector.getElem_replicate (hq)
      rw [this]
      exact ⟨rfl, rfl, rfl, rfl⟩
    · intro i hi
      exact Vector.getElem?_replicate.trans (if_pos hi)
  · intro d k
    refine ⟨?_, fun i => ?_, fun i => ?_, rfl, rfl, rfl, rfl, rfl, fun hlen i h hi => ?_, fun i hi hle => ?_, fun j hj h1 => ?_, fun s t uid l k' h j hj hl => ?_,
      rfl, rfl, rfl, rfl, rfl, rfl, rfl, rfl, rfl⟩
    · exact Option.some.inj ((Vector.getElem?_eq_getElem (by decide)).symm.trans (launchRegs_s d k (by decide)))
    · rw [launchRegs_s d k (by omega), if_pos (by omega), Nat.add_sub_cancel]
    · rw [launchRegs_s d k (by omega), if_neg (by omega)]
    · have hlt : i < 16 := by have := (List.getElem?_eq_some_iff.mp hi).1; omega
      exact (putHandles_get d.handles 0 Regs.reset.h hlt).trans (by simp [hi])
    · exact (putHandles_get d.handles 0 Regs.reset.h hi).trans (by simp [List.getElem?_eq_none hle, Regs.reset, hi])
    · have : (launchRegs d k).p = 1 := rfl
      rw [this]
      interval_cases j <;> rfl
    · rw [loadScales_keeps h hl]
      exact Vector.getElem?_replicate.trans (if_pos hj)

end Sys2Proof.Proofs
end

