-- ==== Sys2Proof/Proofs/Memory.lean ====
section
/-! Proofs about the scalar memory words: loads, stores and atomics (R68, R209, R247, R248, R263, R268 to R272, R287). -/

namespace Sys2Proof.Proofs

open Sys2Proof Sys2Proof.Machine

-- One theorem after another: side by side they need more memory than one run may take.
set_option Elab.async false

/-! ## A guard touch of the current node (R248) -/

theorem node_own (s : State) : s.node s.cur.desc.uid = s.cur := if_pos rfl

theorem countFor_keeps (s : State) (uid : Nat) (n : String) : ∃ cs, s.countFor uid n = { s with cores := cs } := by
  unfold State.countFor
  cases s.coreOf uid with
  | none => exact ⟨s.cores, rfl⟩
  | some c => exact ⟨_, rfl⟩

/-- A touch by the current node changes the telemetry of cores and the node's own guard record only. -/
theorem touch_own (s : State) (unit : BitVec 3) (a : Option (BitVec 22)) (x : Option Nat) :
    ∃ cs g, s.touch s.cur.desc.uid unit a x = { s with cores := cs, cur := { s.cur with ctl := { s.cur.ctl with guard := g } } } := by
  have own (t : State) (ht : t.cur = s.cur) (g : Option GuardRec) :
      t.setNode { s.cur with ctl := { s.cur.ctl with guard := g } } = { t with cur := { s.cur with ctl := { s.cur.ctl with guard := g } } } := by
    rw [State.setNode, if_pos (by rw [ht])]
  cases x with
  | none => exact ⟨s.cores, s.cur.ctl.guard, rfl⟩
  | some x =>
    obtain ⟨cs, hcs⟩ := countFor_keeps s s.cur.desc.uid "guard touches"
    simp only [State.touch, node_own, hcs]
    cases s.cur.ctl.guard with
    | some g => dsimp only; split <;> exact ⟨_, _, own _ (by rfl) _⟩
    | none => dsimp only; split <;> exact ⟨_, _, own _ (by rfl) _⟩

theorem touched_keeps (s : State) (g : Option Nat) :
    (s.touched g).mem = s.mem ∧ (s.touched g).poison = s.poison ∧ (s.touched g).cur.regs = s.cur.regs ∧ (s.touched g).nodes = s.nodes := by
  obtain ⟨cs, x, h⟩ := touch_own s 0 (some s.bnd.addr) g
  rw [State.touched, h]
  exact ⟨rfl, rfl, rfl, rfl⟩

/-! ## What a read delivers (R287, R288) -/

theorem readBytes_length {s : State} {n : Node} {tid : Nat} : ∀ {len off : Nat} {l : List (Byte × Bool)} {g : Option Nat},
    s.readBytes n tid off len = .ok (l, g) → l.length = len
  | 0, _, _, _, h => by cases h; rfl
  | len + 1, off, l, g, h => by
    rw [State.readBytes] at h
    split at h
    · cases h
    · split at h
      · cases h
      · next hrest => cases h; exact congrArg (· + 1) (readBytes_length hrest)

theorem early_eq_some {r : Run} {tid off len : Nat} {l : List (Byte × Bool)} (h : r.early tid off len = some l) : l.length = len := by
  obtain ⟨e, he, rfl⟩ := Option.map_eq_some_iff.mp h
  have := List.find?_some he
  simp only [Bool.and_eq_true, beq_iff_eq] at this
  exact this.2

theorem delivered_length (s : State) (tid off : Nat) (l : List (Byte × Bool)) : (s.delivered tid off l).1.length = l.length := by
  unfold State.delivered
  split
  · next h => exact early_eq_some h
  · rfl

theorem delivered_uid (s : State) (tid off : Nat) (l : List (Byte × Bool)) :
    (s.delivered tid off l).2.cur.desc = s.cur.desc ∧ (s.delivered tid off l).2.cur.ctl = s.cur.ctl ∧ (s.delivered tid off l).2.bnd = s.bnd := by
  unfold State.delivered
  split <;> exact ⟨rfl, rfl, rfl⟩

theorem leNat_lt (l : List Byte) : leNat l < 2 ^ (8 * l.length) := by
  induction l with
  | nil => exact Nat.one_pos
  | cons b l ih =>
    have hb := b.isLt
    have : 2 ^ (8 * (b :: l).length) = 256 * 2 ^ (8 * l.length) := by rw [List.length_cons, Nat.mul_add, Nat.pow_add, Nat.mul_comm]
    change b.toNat + 256 * leNat l < _
    omega

/-! ## Loads (R268 to R270) -/

/-- A word whose body is a load: each of its outcomes, where the result of the bytes does not depend on what the read has noted. -/
theorem loadsIn_of_load {i : Instr} {s u : State} {ea : Word} {len : Nat} {k : State → Nat → State} {r : State → Nat → List InFlight}
    (e : exec i s = .next (u.load ea len k)) (hk : ∀ t v, v < 2 ^ (8 * len) → t.cur.ctl.bank = u.cur.ctl.bank → k t v = t.withResults (r u v)) :
    LoadsIn i s u ea len r := by
  refine ⟨fun h => ?_, fun h f hf => ?_, fun h l g hl hp => ?_, fun h l g hl hp => ?_⟩
  · rw [e, State.load, if_pos h]; rfl
  · rw [e, State.load, if_neg (by omega), hf]
  · rw [e, State.load, if_neg (by omega), hl]
    exact congrArg _ (if_pos hp)
  · rw [e, State.load, if_neg (by omega), hl]
    refine congrArg _ ((if_neg fun h' => absurd (hp.symm.trans h') Bool.false_ne_true).trans ?_)
    obtain ⟨hdesc, hctl, hbnd⟩ := delivered_uid u (addrTid ea) (addrOff ea) l
    have hlen : leNat ((u.delivered (addrTid ea) (addrOff ea) l).1.map (·.1)) < 2 ^ (8 * len) := by
      have := leNat_lt ((u.delivered (addrTid ea) (addrOff ea) l).1.map (·.1))
      rwa [List.length_map, delivered_length, readBytes_length hl] at this
    rw [State.touched, hdesc, hbnd]
    have hbank : ((u.delivered (addrTid ea) (addrOff ea) l).2.touch u.cur.desc.uid 0 (some u.bnd.addr) g).cur.ctl.bank = u.cur.ctl.bank := by
      obtain ⟨cs, x, ht⟩ := touch_own (u.delivered (addrTid ea) (addrOff ea) l).2 0 (some u.bnd.addr) g
      rw [hdesc] at ht
      rw [ht, ← hctl]
    exact hk _ _ hlen hbank

theorem loadedWord_eq {len v : Nat} (signed : Bool) (h : v < 2 ^ (8 * len)) :
    (if signed then wordOf (signExt (8 * len) (v : Int)) else BitVec.ofNat 64 v) = loadedWord len signed v := by
  cases signed
  · exact (if_neg (fun h => by cases h.1)).symm
  · have hlow : lowBits (8 * len) (v : Int) = v := by
      rw [lowBits, Int.emod_eq_of_lt (by omega) (by exact_mod_cast h), Int.toNat_natCast]
    simp only [if_true, signExt, hlow, loadedWord, true_and]
    split
    · next h => rw [wordOf]
    · exact BitVec.ofInt_natCast ..

theorem loadsIn_scalar {i : Instr} {s u : State} {d : BitVec 5} {ea : Word} {len : Nat} {signed : Bool} (e : exec i s = .next (u.loadS d ea len signed)) :
    LoadsIn i s u ea len fun t v => scalarResult t 6 d (loadedWord len signed v) :=
  loadsIn_of_load e fun t v hv hb => by rw [State.pushS_eq, loadedWord_eq signed hv, scalarResult, hb]; rfl

theorem loadsIn_handle {i : Instr} {s u : State} {h : BitVec 4} {ea : Word} (e : exec i s = .next (u.load ea 32 fun t v => t.push 6 (.h h (BitVec.ofNat 256 v)))) :
    LoadsIn i s u ea 32 fun _ v => [{ dist := 6, eff := .h h (BitVec.ofNat 256 v) }] :=
  loadsIn_of_load e fun _ _ _ _ => rfl

theorem delivered_of_not_early {s : State} {tid off : Nat} {l : List (Byte × Bool)}
    (h : ∀ e ∈ s.cur.run.ahead, ¬ (e.tid = tid ∧ e.off = off ∧ e.bytes.length = l.length)) :
    s.delivered tid off l = (l, s.forget (s.placesOf s.cur tid off l.length)) := by
  have : s.cur.run.early tid off l.length = none := by
    rw [Run.early, List.find?_eq_none.mpr, Option.map_none]
    intro e he
    simpa [and_assoc] using h e he
  rw [State.delivered, this]

theorem delivered_of_early {s : State} {tid off : Nat} {l : List (Byte × Bool)} {before after : List EarlyRead} {e : EarlyRead}
    (hs : s.cur.run.ahead = before ++ e :: after) (he : e.tid = tid ∧ e.off = off ∧ e.bytes.length = l.length)
    (hb : ∀ x ∈ before, ¬ (x.tid = tid ∧ x.off = off ∧ x.bytes.length = l.length)) : s.delivered tid off l = (e.bytes, s) := by
  have : s.cur.run.early tid off l.length = some e.bytes := by
    rw [Run.early, hs, List.find?_append, List.find?_eq_none.mpr (by intro x hx; simpa [and_assoc] using hb x hx), Option.none_or, List.find?_cons_of_pos]
    · rfl
    · simp [he]
  rw [State.delivered, this]

/-- The checks of a scratchpad handle word (R209), in their order. -/
theorem scratchHandle_spec (s : State) (e : Word) (k : State → State) :
    (e.toNat % 32 ≠ 0 → s.scratchHandle e k = s.trapHere 0x10 e) ∧
    (e.toNat % 32 = 0 → s.cur.scratch (addrTid e) = none → s.scratchHandle e k = s.trapHere 0x11 e) ∧
    ∀ base size, e.toNat % 32 = 0 → s.cur.scratch (addrTid e) = some (base, size) →
      (size < addrOff e + 32 → s.scratchHandle e k = s.trapHere 0x11 (tensorAddr (addrTid e) (max size (addrOff e)))) ∧
      (addrOff e + 32 ≤ size → s.scratchHandle e k = k s) := by
  refine ⟨fun h => if_pos h, fun h hn => ?_, fun base size h hs => ⟨fun hlt => ?_, fun hle => ?_⟩⟩
  · rw [State.scratchHandle, if_neg (by omega), hn]
  · rw [State.scratchHandle, if_neg (by omega), hs]; exact if_pos hlt
  · rw [State.scratchHandle, if_neg (by omega), hs]; exact if_neg (by omega)

/-- Settles O20. -/
theorem loads : Obligations.Loads := by
  unfold Obligations.Loads
  intro s q g d a f fh fs h z sc ext
  refine ⟨fun hr => loadsIn_scalar (runs_of_word (exec_ldB s q g d a f ext) hr), fun hr => loadsIn_scalar (runs_of_word (exec_ldH s q g d a f ext) hr),
    fun hr => loadsIn_scalar (runs_of_word (exec_ldW s q g d a f ext) hr), fun hr => loadsIn_scalar (runs_of_word (exec_ldD s q g d a f ext) hr),
    fun hr => loadsIn_scalar (runs_of_word (exec_ldW8 s q g d a f ext) hr), fun hr => loadsIn_scalar (runs_of_word (exec_ldW16 s q g d a f ext) hr),
    fun hr => loadsIn_scalar (runs_of_word (exec_ldW32 s q g d a f ext) hr), fun hr => loadsIn_scalar (runs_of_word (exec_ldAcq s q g d a z sc) hr),
    fun hr => loadsIn_handle (runs_of_word (exec_ldh s q g h a fh ext) hr), fun hr => ?_, touched_keeps s,
    fun tid off l => ⟨rfl, fun h => ?_, fun h => delivered_of_not_early h, fun before e after hs he hb => delivered_of_early hs he hb⟩⟩
  · intro e
    have run := runs_of_word (exec_hld s q g h fs a) hr
    obtain ⟨unaligned, outside, inside⟩ := scratchHandle_spec s e fun σ => σ.load e 32 fun σ v => σ.push 6 (.h h (BitVec.ofNat 256 v))
    exact ⟨fun he => run.trans (congrArg _ (unaligned he)), fun he hn => run.trans (congrArg _ (outside he hn)), fun base size he hs =>
      ⟨fun hlt => run.trans (congrArg _ ((inside base size he hs).1 hlt)), fun hle => loadsIn_handle (run.trans (congrArg _ ((inside base size he hs).2 hle)))⟩⟩
  · rw [delivered_of_not_early (by simp [h])]
    have : s.cur.run.ahead.filter (fun e => disjointPlaces e.places (s.placesOf s.cur tid off l.length)) = s.cur.run.ahead := by rw [h]; rfl
    exact congrArg (fun x => (l, ({ s with cur := { s.cur with run := { s.cur.run with ahead := x } } } : State))) this

/-! ## Stores (R268 to R270, R209) -/

theorem leBytes_length (v n : Nat) : (leBytes v n).length = n := by
  induction n generalizing v with
  | zero => rfl
  | succ n ih => exact congrArg (· + 1) (ih _)

theorem storedBytes_eq (ps : List Place) (v len : Nat) : ps.zip ((leBytes v len).map fun b => (b, false)) = storedBytes ps v len := rfl

/-! Translation depends on memory and on the staging region's size only. -/

theorem rd_congr {s t : State} (hm : t.mem = s.mem) (pa n : Nat) : t.rd pa n = s.rd pa n := by
  have hb (a : Nat) : t.byte a = s.byte a := by rw [State.byte, State.byte, hm]
  induction n generalizing pa with
  | zero => rfl
  | succ n ih => rw [State.rd, State.rd, hb, ih]

theorem anyPoison_congr {s t : State} (hp : t.poison = s.poison) (pa n : Nat) : t.anyPoison pa n = s.anyPoison pa n := by
  have hb (a : Nat) : t.poisoned a = s.poisoned a := by rw [State.poisoned, State.poisoned, hp]
  induction n generalizing pa with
  | zero => rfl
  | succ n ih => rw [State.anyPoison, State.anyPoison, hb, ih]

theorem space_congr {s t : State} (hm : t.mem = s.mem) (sp : BitVec 6) : t.space sp = s.space sp := by
  simp only [State.space, rd_congr hm]

theorem tensorEntry_congr {s t : State} (hm : t.mem = s.mem) (hp : t.poison = s.poison) (sp : BitVec 6) (tid k : Nat) :
    t.tensorEntry sp tid k = s.tensorEntry sp tid k := by
  simp only [State.tensorEntry, space_congr hm, rd_congr hm, anyPoison_congr hp]

theorem translate_congr {s t : State} (hm : t.mem = s.mem) (hp : t.poison = s.poison) (hg : t.stgsz = s.stgsz) (sp : BitVec 6) (host : Bool)
    (tid off : Nat) (write : Bool) : t.translate sp host tid off write = s.translate sp host tid off write := by
  simp only [State.translate, tensorEntry_congr hm hp, rd_congr hm, anyPoison_congr hp, hg]

theorem locate_congr {s t : State} (hm : t.mem = s.mem) (hp : t.poison = s.poison) (hg : t.stgsz = s.stgsz) {n m : Node} (hd : m.desc = n.desc)
    (tid off : Nat) (write : Bool) : t.locate m tid off write = s.locate n tid off write := by
  simp only [State.locate, Node.scratch, hd, translate_congr hm hp hg]

theorem places_congr {s t : State} (hm : t.mem = s.mem) (hp : t.poison = s.poison) (hg : t.stgsz = s.stgsz) {n m : Node} (hd : m.desc = n.desc)
    (tid : Nat) : ∀ len off, t.places m tid off len = s.places n tid off len
  | 0, _ => rfl
  | len + 1, off => by rw [State.places, State.places, locate_congr hm hp hg hd, places_congr hm hp hg hd tid len (off + 1)]

theorem nodesPut_any (p : Node → Bool) {n m : Node} (hu : m.desc.uid = n.desc.uid) (hp : p m = p n) : ∀ l, (nodesPut l m).any p = (nodesPut l n).any p
  | [] => by rw [nodesPut, nodesPut, List.any_cons, List.any_cons, hp]
  | x :: l => by
    rw [nodesPut, nodesPut, hu]
    by_cases h1 : n.desc.uid < x.desc.uid
    · rw [if_pos h1, if_pos h1, List.any_cons, List.any_cons (l := x :: l), hp]
    · rw [if_neg h1, if_neg h1]
      by_cases h2 : n.desc.uid = x.desc.uid
      · rw [if_pos h2, if_pos h2, List.any_cons, List.any_cons, hp]
      · rw [if_neg h2, if_neg h2, List.any_cons, List.any_cons, nodesPut_any p hu hp l]

theorem forget_stgsz (s : State) (l : List Place) : (s.forget l).stgsz = s.stgsz := by
  have : (s.forget l).allNodes.any Node.reserves = s.allNodes.any Node.reserves := by
    change (if s.cur.desc.uid = 0 then s.nodes else nodesPut s.nodes (s.forget l).cur).any Node.reserves =
      (if s.cur.desc.uid = 0 then s.nodes else nodesPut s.nodes s.cur).any Node.reserves
    split
    · rfl
    · exact nodesPut_any (n := s.cur) (m := (s.forget l).cur) Node.reserves rfl rfl s.nodes
  rw [State.stgsz, State.stgsz, this, rd_congr (s.forget_mem l), State.forget_dist]

/-- Forgetting what has been read ahead changes no translation. -/
theorem forget_places (s : State) (l : List Place) (tid len off : Nat) : (s.forget l).places (s.forget l).cur tid off len = s.places s.cur tid off len :=
  places_congr (n := s.cur) (m := (s.forget l).cur) (s.forget_mem l) (s.forget_poison l) (forget_stgsz s l) rfl tid len off

theorem all_beyondPool_iff (ps : List Place) : ps.all Place.beyondPool = true ↔ ∀ p ∈ ps, ∃ a g, p = Place.phys a g := by
  rw [List.all_eq_true]
  refine forall₂_congr fun p _ => ?_
  cases p <;> simp [Place.beyondPool]

theorem defers_of_error {s : State} {tid off len : Nat} {f : MFault} (h : s.places s.cur tid off len = .error f) : s.defers tid off len = none := by
  unfold State.defers
  split
  · rfl
  · rw [h]

theorem defers_some {s : State} {tid off len : Nat} {ps : List Place} (h : s.places s.cur tid off len = .ok ps)
    (hl : s.bnd.late = true ∧ s.cur.desc.image.unstg = true) (hb : ∀ p ∈ ps, ∃ a g, p = Place.phys a g) : s.defers tid off len = some ps := by
  rw [State.defers, if_neg (by simp [hl]), h]
  exact if_pos ((all_beyondPool_iff ps).mpr hb)

theorem defers_none {s : State} {tid off len : Nat} {ps : List Place} (h : s.places s.cur tid off len = .ok ps)
    (hn : ¬ ((s.bnd.late = true ∧ s.cur.desc.image.unstg = true) ∧ ∀ p ∈ ps, ∃ a g, p = Place.phys a g)) : s.defers tid off len = none := by
  unfold State.defers
  split
  · rfl
  · next hl =>
    simp only [Bool.or_eq_true, Bool.not_eq_true', not_or, Bool.not_eq_false] at hl
    rw [h]
    exact if_neg fun hb => hn ⟨hl, (all_beyondPool_iff ps).mp hb⟩

/-- A store that is performed with its word. -/
theorem storeAt_of_error {s : State} {ea : Word} {len v : Nat} {f : MFault} (hd : s.defers (addrTid ea) (addrOff ea) len = none)
    (hw : (s.forget (s.placesOf s.cur (addrTid ea) (addrOff ea) len)).writeBytes s.cur.desc.uid 0 (some s.bnd.addr) (addrTid ea) (addrOff ea)
      ((leBytes v len).map fun b => (b, false)) = .error f) : s.storeAt ea len v = s.wordFault f ea := by
  simp only [State.storeAt, hd, hw]

theorem storeAt_of_ok {s t : State} {ea : Word} {len v : Nat} (hd : s.defers (addrTid ea) (addrOff ea) len = none)
    (hw : (s.forget (s.placesOf s.cur (addrTid ea) (addrOff ea) len)).writeBytes s.cur.desc.uid 0 (some s.bnd.addr) (addrTid ea) (addrOff ea)
      ((leBytes v len).map fun b => (b, false)) = .ok t) : s.storeAt ea len v = t := by
  simp only [State.storeAt, hd, hw]

/-- A word whose body is a store that its entry's conditions allow: each of its outcomes. -/
theorem storesTo_of_storeAt {i : Instr} {s : State} {ea : Word} {len v : Nat} {aligned allowed : Prop}
    (e : aligned → allowed → exec i s = .next (s.storeAt ea len v)) : StoresTo i s ea len v aligned allowed := by
  have own : (s.forget (s.placesOf s.cur (addrTid ea) (addrOff ea) len)).node s.cur.desc.uid = (s.forget (s.placesOf s.cur (addrTid ea) (addrOff ea) len)).cur :=
    node_own (s.forget _)
  have hlen : ((leBytes v len).map fun b => (b, false)).length = len := by rw [List.length_map, leBytes_length]
  refine ⟨fun ha hp f hf => ?_, fun ha hp ps hps hl hb => ?_, fun ha hp ps hps hn ho => ?_, fun ha hp ps hps hn ho => ?_⟩
  · rw [e ha hp, storeAt_of_error (defers_of_error hf)]
    rw [State.writeBytes, own, hlen, forget_places, hf]
  · simp only [e ha hp, State.storeAt, defers_some hps hl hb]
    rfl
  · refine (e ha hp).trans (congrArg _ (storeAt_of_ok (defers_none hps hn) ?_))
    rw [State.writeBytes, own, hlen, forget_places, hps]
    exact if_neg (by dsimp only at ho; rw [storedBytes_eq, ho]; exact Bool.false_ne_true)
  · refine (e ha hp).trans (congrArg _ (storeAt_of_error (defers_none hps hn) ?_))
    rw [State.writeBytes, own, hlen, forget_places, hps]
    exact if_pos ho

/-- A word whose body is a scalar store. -/
theorem stores_of_store {i : Instr} {s : State} {ea : Word} {len v : Nat} (e : exec i s = .next (s.store ea len v)) :
    StoreTraps i s ea len ∧ StoresTo i s ea len v (ea.toNat % len = 0) (writeMode s.cur (addrTid ea) = true) := by
  refine ⟨⟨fun h => ?_, fun h hm => ?_⟩, storesTo_of_storeAt fun h hm => ?_⟩
  · rw [e, State.store, if_pos h]; rfl
  · rw [e, State.store, if_neg (by omega), State.modeChecked, if_neg (by rw [hm]; decide)]
  · rw [e, State.store, if_neg (by omega), State.modeChecked, if_pos hm]

/-- Settles O21. -/
theorem stores : Obligations.Stores := by
  unfold Obligations.Stores
  intro s q g v a f fh fs h z sc ext
  refine ⟨fun hr => stores_of_store (runs_of_word (exec_stB s q g v a f ext) hr), fun hr => stores_of_store (runs_of_word (exec_stH s q g v a f ext) hr),
    fun hr => stores_of_store (runs_of_word (exec_stW s q g v a f ext) hr), fun hr => stores_of_store (runs_of_word (exec_stD s q g v a f ext) hr),
    fun hr => stores_of_store (runs_of_word (exec_stRel s q g v a z sc) hr), fun hr => stores_of_store (runs_of_word (exec_sth s q g h a fh ext) hr), fun hr => ?_⟩
  intro e
  have run := runs_of_word (exec_hst s q g h fs a) hr
  obtain ⟨unaligned, outside, inside⟩ := scratchHandle_spec s e fun σ => σ.storeAt e 32 (σ.cur.regs.h[h.toNat]).toNat
  exact ⟨fun he => run.trans (congrArg _ (unaligned he)), fun he hn => run.trans (congrArg _ (outside he hn)), fun base size he hs =>
    ⟨fun hlt => run.trans (congrArg _ ((inside base size he hs).1 hlt)),
      fun hle => storesTo_of_storeAt fun _ _ => run.trans (congrArg _ ((inside base size he hs).2 hle))⟩⟩

/-! ## Where a byte of the current node goes (R68, R247, R248, R263) -/

theorem stale_congr {s t : State} (hm : t.mem = s.mem) (ha : t.awl = s.awl) {n m : Node} (hd : m.desc = n.desc) (hg : m.run.asgen = n.run.asgen)
    (hq : m.run.qgen = n.run.qgen) : t.stale m = s.stale n := by
  simp only [State.stale, space_congr hm, ha, hd, hg, hq]

theorem setNode_own (s : State) (r : Run) : s.setNode { s.cur with run := r } = { s with cur := { s.cur with run := r } } := if_pos rfl

/-- A node's note of its partner's newer bytes changes no other field of the current node. -/
theorem setNode_overridden (s : State) (p : Nat) {pa : Nat} (h : (cellGet? (s.node p).run.staged.cells pa).isSome = true) (l : List Nat) :
    ∃ ov ns, s.setNode { s.node p with run := { (s.node p).run with overridden := l } } = { s with cur := { s.cur with run := { s.cur.run with overridden := ov } }, nodes := ns } := by
  by_cases hp : p = s.cur.desc.uid
  · subst hp
    rw [node_own]
    exact ⟨l, s.nodes, setNode_own s _⟩
  · have hn : (s.node p).desc.uid ≠ s.cur.desc.uid := by
      rw [State.node, if_neg hp] at h ⊢
      cases hf : s.nodes.find? (fun n => n.desc.uid == p) with
      | none => rw [hf] at h; exact absurd h Bool.false_ne_true
      | some n =>
        have hu : n.desc.uid = p := by simpa using List.find?_some hf
        rw [Option.getD_some, hu]
        exact hp
    rw [State.setNode, if_neg (by exact hn)]
    split
    · exact ⟨s.cur.run.overridden, s.nodes, rfl⟩
    · exact ⟨s.cur.run.overridden, _, rfl⟩

theorem writePlace_scratch (s : State) (x : Nat) (v : Byte) (p : Bool) :
    s.writePlace s.cur.desc.uid (.pool x false) v p = { s with cur := { s.cur with run := { s.cur.run with scr := s.cur.run.scr.putScr x v p } } } := by
  simp only [State.writePlace, node_own]
  exact setNode_own s _

theorem writePlace_stale {s : State} (h : s.stale s.cur = true) (x : Nat) (g : Bool) (v : Byte) (p : Bool) :
    ∃ cs, s.writePlace s.cur.desc.uid (.phys x g) v p = { s with cores := cs } := by
  simp only [State.writePlace, node_own, h, if_true]
  exact countFor_keeps s _ _

theorem writePlace_through {s : State} (h : s.stale s.cur = false) (hu : s.cur.desc.image.unstg = true) (x : Nat) (g : Bool) (v : Byte) (p : Bool) :
    s.writePlace s.cur.desc.uid (.phys x g) v p = s.setByte x v p := by
  simp only [State.writePlace, node_own, h, hu, if_true, Bool.false_eq_true, if_false]

theorem writePlace_staged {s : State} (h : s.stale s.cur = false) (hu : s.cur.desc.image.unstg = false) (x : Nat) (g : Bool) (v : Byte) (p : Bool) :
    ∃ ov ns, s.writePlace s.cur.desc.uid (.phys x g) v p =
      { s with cur := { s.cur with run := { s.cur.run with staged := s.cur.run.staged.put x v p, overridden := ov } }, nodes := ns } := by
  simp only [State.writePlace, node_own, h, hu, Bool.false_eq_true, if_false]
  rw [setNode_own]
  split
  · exact ⟨_, _, rfl⟩
  · split
    · next hs =>
      obtain ⟨ov, ns, ho⟩ := setNode_overridden _ _ hs _
      exact ⟨ov, ns, ho⟩
    · exact ⟨_, _, rfl⟩

/-- What one byte of the current node changes at most. -/
theorem writePlace_fields (s : State) (pl : Place) (v : Byte) (p : Bool) :
    ∃ scr st ov ns cs m po, s.writePlace s.cur.desc.uid pl v p =
      { s with cur := { s.cur with run := { s.cur.run with scr := scr, staged := st, overridden := ov } }, nodes := ns, cores := cs, mem := m, poison := po } := by
  cases pl with
  | pool x g =>
    cases g with
    | true => exact ⟨_, _, _, _, _, _, _, rfl⟩
    | false => exact ⟨_, _, _, _, _, _, _, writePlace_scratch s x v p⟩
  | phys x g =>
    cases h : s.stale s.cur with
    | true => obtain ⟨cs, e⟩ := writePlace_stale h x g v p; exact ⟨_, _, _, _, _, _, _, e⟩
    | false =>
      cases hu : s.cur.desc.image.unstg with
      | true => exact ⟨_, _, _, _, _, _, _, writePlace_through h hu x g v p⟩
      | false => obtain ⟨ov, ns, e⟩ := writePlace_staged h hu x g v p; exact ⟨_, _, _, _, _, _, _, e⟩

/-- What one byte of the current node does to memory. -/
theorem writePlace_memory {s : State} (hc : Canonical s) (pl : Place) (v : Byte) (p : Bool) :
    Canonical (s.writePlace s.cur.desc.uid pl v p) ∧ (∀ a, (∀ g, pl ≠ .phys a g) → (s.writePlace s.cur.desc.uid pl v p).byte a = s.byte a) ∧
    (s.cur.desc.image.unstg = false → (s.writePlace s.cur.desc.uid pl v p).mem = s.mem) := by
  have same {t : State} (ht : t.mem = s.mem) : Canonical t ∧ (∀ a, (∀ g, pl ≠ .phys a g) → t.byte a = s.byte a) ∧ (s.cur.desc.image.unstg = false → t.mem = s.mem) :=
    ⟨by rw [Canonical, ht]; exact hc, fun a _ => by rw [State.byte, State.byte, ht], fun _ => ht⟩
  cases pl with
  | pool x g =>
    cases g with
    | true => exact same rfl
    | false => exact same (by rw [writePlace_scratch])
  | phys x g =>
    cases h : s.stale s.cur with
    | true => obtain ⟨cs, e⟩ := writePlace_stale h x g v p; exact same (by rw [e])
    | false =>
      cases hu : s.cur.desc.image.unstg with
      | false => obtain ⟨ov, ns, e⟩ := writePlace_staged h hu x g v p; exact hu ▸ same (t := s.writePlace s.cur.desc.uid (.phys x g) v p) (by rw [e])
      | true =>
        rw [writePlace_through h hu]
        refine ⟨s.setByte_canonical hc x v p, fun a ha => ?_, fun h => absurd h (by simp)⟩
        rw [setByte_byte hc, if_neg]
        rintro rfl
        exact ha g rfl

/-! ## Where several bytes of the current node go (R29, R68, R269) -/

/-- The last of a list's entries that satisfies a test, where the list has grown at its front. -/
theorem last_cons {α β : Type} (p : α → Bool) (f : α → β) (e : α) (l : List α) (d : β) :
    (((e :: l).filter p).getLast?.map f).getD d = ((l.filter p).getLast?.map f).getD (if p e then f e else d) := by
  by_cases hp : p e = true
  · rw [List.filter_cons_of_pos hp, List.getLast?_cons, if_pos hp]
    cases (l.filter p).getLast? <;> rfl
  · rw [List.filter_cons_of_neg (by simpa using hp), if_neg hp]

theorem last_cons_orElse {α β : Type} (p : α → Bool) (f : α → β) (e : α) (l : List α) (d : Option β) :
    (((e :: l).filter p).getLast?.map f).orElse (fun _ => d) = ((l.filter p).getLast?.map f).orElse fun _ => if p e then some (f e) else d := by
  by_cases hp : p e = true
  · rw [List.filter_cons_of_pos hp, List.getLast?_cons, if_pos hp]
    cases (l.filter p).getLast? <;> rfl
  · rw [List.filter_cons_of_neg (by simpa using hp), if_neg hp]

/-- The fields of the current node on which its writes rest. -/
structure SameWriter (s t : State) : Prop where
  desc : t.cur.desc = s.cur.desc
  asgen : t.cur.run.asgen = s.cur.run.asgen
  qgen : t.cur.run.qgen = s.cur.run.qgen
  regs : t.cur.regs = s.cur.regs
  ctl : t.cur.ctl = s.cur.ctl
  awl : t.awl = s.awl

theorem writePlace_sameWriter (s : State) (pl : Place) (v : Byte) (p : Bool) : SameWriter s (s.writePlace s.cur.desc.uid pl v p) := by
  obtain ⟨scr, st, ov, ns, cs, m, po, e⟩ := writePlace_fields s pl v p
  rw [e]
  exact ⟨rfl, rfl, rfl, rfl, rfl, rfl⟩

theorem SameWriter.stale {s t : State} (h : SameWriter s t) (hm : t.mem = s.mem) : t.stale t.cur = s.stale s.cur := stale_congr hm h.awl h.desc h.asgen h.qgen

theorem putScr_get {b : Bytes} (h : Memory.wf b.cells = true) (x : Nat) (v : Byte) (p : Bool) (y : Nat) :
    Memory.wf (b.putScr x v p).cells = true ∧ memGet (b.putScr x v p).cells y = if y = x then v else memGet b.cells y :=
  ⟨memSet_wf h x v, memSet_get h x v y⟩

/-- What a byte of the current node does to its scratchpad. -/
theorem writePlace_pool {s : State} (h : Memory.wf s.cur.run.scr.cells = true) (pl : Place) (v : Byte) (p : Bool) (y : Nat) :
    Memory.wf (s.writePlace s.cur.desc.uid pl v p).cur.run.scr.cells = true ∧
    memGet (s.writePlace s.cur.desc.uid pl v p).cur.run.scr.cells y = if decide (pl = .pool y false) = true then v else memGet s.cur.run.scr.cells y := by
  cases pl with
  | pool x g =>
    cases g with
    | true => exact ⟨h, (if_neg (by simp)).symm⟩
    | false =>
      rw [writePlace_scratch]
      refine ⟨(putScr_get h x v p y).1, (putScr_get h x v p y).2.trans ?_⟩
      by_cases hy : y = x
      · simp [hy]
      · simp [hy, Ne.symm hy]
  | phys x g =>
    have : (s.writePlace s.cur.desc.uid (.phys x g) v p).cur.run.scr = s.cur.run.scr := by
      cases hs : s.stale s.cur with
      | true => obtain ⟨cs, e⟩ := writePlace_stale hs x g v p; rw [e]
      | false =>
        cases hu : s.cur.desc.image.unstg with
        | true => rw [writePlace_through hs hu]; rfl
        | false => obtain ⟨ov, ns, e⟩ := writePlace_staged hs hu x g v p; rw [e]
    rw [this]
    exact ⟨h, (if_neg (by simp)).symm⟩

/-- Every byte of the scratchpad holds the last byte written there. -/
theorem writePlaces_pool {uid : Nat} (l : List (Place × Byte × Bool)) {s : State} (hu : s.cur.desc.uid = uid) (h : Memory.wf s.cur.run.scr.cells = true) (x : Nat) :
    memGet (s.writePlaces uid l).cur.run.scr.cells x =
      ((l.filter fun e => decide (e.1 = .pool x false)).getLast?.map (·.2.1)).getD (memGet s.cur.run.scr.cells x) := by
  induction l generalizing s with
  | nil => rfl
  | cons e l ih =>
    obtain ⟨hw, hx⟩ := writePlace_pool h e.1 e.2.1 e.2.2 x
    have hd := (writePlace_sameWriter s e.1 e.2.1 e.2.2).desc
    rw [hu] at hw hx hd
    rw [last_cons, ← hx]
    exact ih (by rw [hd, hu]) hw

/-- The lowest bytes of the generation field are read from memory alone. -/
theorem stale_of_bytes {s t : State} (h : SameWriter s t) (hb : ∀ k < 2, t.byte (spacePA s.cur.desc.queue + k) = s.byte (spacePA s.cur.desc.queue + k)) :
    t.stale t.cur = s.stale s.cur := by
  have hg : (t.space s.cur.desc.queue).asgen = (s.space s.cur.desc.queue).asgen := by
    have h0 := hb 0 (by decide)
    have h1 := hb 1 (by decide)
    simp only [State.space, State.rd]
    rw [show spacePA s.cur.desc.queue = spacePA s.cur.desc.queue + 0 from rfl, h0, h1]
  simp only [State.stale, h.desc, h.asgen, h.qgen, h.awl, hg]

/-- An unstaged node's bytes beyond the scratchpad go to memory. -/
theorem writePlaces_through {uid : Nat} (l : List (Place × Byte × Bool)) {s : State} (hu : s.cur.desc.uid = uid) (hc : Canonical s) (hs : s.stale s.cur = false)
    (hun : s.cur.desc.image.unstg = true) (hl : ∀ e ∈ l, ∀ x g, e.1 = .phys x g → x < spacePA s.cur.desc.queue ∨ spacePA s.cur.desc.queue + 2 ≤ x) :
    (∀ a, (s.writePlaces uid l).byte a = ((l.filter fun e => decide (e.1 = .phys a true ∨ e.1 = .phys a false)).getLast?.map (·.2.1)).getD (s.byte a)) ∧
    (s.writePlaces uid l).cur.run.staged = s.cur.run.staged := by
  induction l generalizing s with
  | nil => exact ⟨fun _ => rfl, rfl⟩
  | cons e l ih =>
    obtain ⟨hc', hkeep, -⟩ := writePlace_memory hc e.1 e.2.1 e.2.2
    have hw := writePlace_sameWriter s e.1 e.2.1 e.2.2
    have hs' := stale_of_bytes hw fun k hk => hkeep _ fun g hg => by have := hl e (by simp) _ _ hg; omega
    have step : (∀ a, (s.writePlace s.cur.desc.uid e.1 e.2.1 e.2.2).byte a =
        if decide (e.1 = .phys a true ∨ e.1 = .phys a false) = true then e.2.1 else s.byte a) ∧
        (s.writePlace s.cur.desc.uid e.1 e.2.1 e.2.2).cur.run.staged = s.cur.run.staged := by
      obtain ⟨pl, v, p⟩ := e
      cases pl with
      | pool x g =>
        refine ⟨fun a => (hkeep a fun g h => by cases h).trans (if_neg (by simp)).symm, ?_⟩
        cases g with
        | true => rfl
        | false => rw [writePlace_scratch]
      | phys x g =>
        rw [writePlace_through hs hun]
        refine ⟨fun a => (setByte_byte hc x v p a).trans ?_, rfl⟩
        by_cases ha : a = x
        · cases g <;> simp [ha]
        · simp [ha, Ne.symm ha]
    rw [hu] at hc' hw hs' step
    obtain ⟨hbytes, hstg⟩ := ih (by rw [hw.desc, hu]) hc' (by rw [hs', hs]) (by rw [hw.desc, hun]) fun e he => by rw [hw.desc]; exact hl e (List.mem_cons_of_mem _ he)
    exact ⟨fun a => by rw [last_cons, ← step.1 a]; exact hbytes a, hstg.trans step.2⟩

/-- A staged node's bytes beyond the scratchpad go to its staged lines. -/
theorem writePlaces_staged {uid : Nat} (l : List (Place × Byte × Bool)) {s : State} (hu : s.cur.desc.uid = uid) (hs : s.stale s.cur = false)
    (hun : s.cur.desc.image.unstg = false) :
    (∀ a, cellGet? (s.writePlaces uid l).cur.run.staged.cells a =
      ((l.filter fun e => decide (e.1 = .phys a true ∨ e.1 = .phys a false)).getLast?.map (·.2.1)).orElse fun _ => cellGet? s.cur.run.staged.cells a) ∧
    (s.writePlaces uid l).mem = s.mem ∧ (s.writePlaces uid l).poison = s.poison := by
  induction l generalizing s with
  | nil => exact ⟨fun _ => rfl, rfl, rfl⟩
  | cons e l ih =>
    have hw := writePlace_sameWriter s e.1 e.2.1 e.2.2
    have step : (∀ a, cellGet? (s.writePlace s.cur.desc.uid e.1 e.2.1 e.2.2).cur.run.staged.cells a =
        if decide (e.1 = .phys a true ∨ e.1 = .phys a false) = true then some e.2.1 else cellGet? s.cur.run.staged.cells a) ∧
        (s.writePlace s.cur.desc.uid e.1 e.2.1 e.2.2).mem = s.mem ∧ (s.writePlace s.cur.desc.uid e.1 e.2.1 e.2.2).poison = s.poison := by
      obtain ⟨pl, v, p⟩ := e
      cases pl with
      | pool x g =>
        have other (a : Nat) : cellGet? s.cur.run.staged.cells a = if decide (Place.pool x g = .phys a true ∨ Place.pool x g = .phys a false) = true then some v
            else cellGet? s.cur.run.staged.cells a := (if_neg (by simp)).symm
        cases g with
        | true => exact ⟨other, rfl, rfl⟩
        | false => rw [writePlace_scratch]; exact ⟨other, rfl, rfl⟩
      | phys x g =>
        obtain ⟨ov, ns, e⟩ := writePlace_staged hs hun x g v p
        rw [e]
        refine ⟨fun a => (cellPut_get _ x v a).trans ?_, rfl, rfl⟩
        by_cases ha : a = x
        · cases g <;> simp [ha]
        · simp [ha, Ne.symm ha]
    have hs' := hw.stale step.2.1
    rw [hu] at hw hs' step
    obtain ⟨hbytes, hmem, hpoison⟩ := ih (by rw [hw.desc, hu]) (by rw [hs', hs]) (by rw [hw.desc, hun])
    exact ⟨fun a => by rw [last_cons_orElse, ← step.1 a]; exact hbytes a, hmem.trans step.2.1, hpoison.trans step.2.2⟩

/-- With a stale tag no byte beyond the scratchpad is written. -/
theorem writePlaces_stale {uid : Nat} (l : List (Place × Byte × Bool)) {s : State} (hu : s.cur.desc.uid = uid) (hs : s.stale s.cur = true) :
    (s.writePlaces uid l).mem = s.mem ∧ (s.writePlaces uid l).poison = s.poison ∧ (s.writePlaces uid l).cur.run.staged = s.cur.run.staged := by
  induction l generalizing s with
  | nil => exact ⟨rfl, rfl, rfl⟩
  | cons e l ih =>
    have hw := writePlace_sameWriter s e.1 e.2.1 e.2.2
    have step : (s.writePlace s.cur.desc.uid e.1 e.2.1 e.2.2).mem = s.mem ∧ (s.writePlace s.cur.desc.uid e.1 e.2.1 e.2.2).poison = s.poison ∧
        (s.writePlace s.cur.desc.uid e.1 e.2.1 e.2.2).cur.run.staged = s.cur.run.staged := by
      obtain ⟨pl, v, p⟩ := e
      cases pl with
      | pool x g =>
        cases g with
        | true => exact ⟨rfl, rfl, rfl⟩
        | false => rw [writePlace_scratch]; exact ⟨rfl, rfl, rfl⟩
      | phys x g => obtain ⟨cs, e⟩ := writePlace_stale hs x g v p; rw [e]; exact ⟨rfl, rfl, rfl⟩
    have hs' := hw.stale step.1
    rw [hu] at hw hs' step
    obtain ⟨hmem, hpoison, hstg⟩ := ih (by rw [hw.desc, hu]) (by rw [hs', hs])
    exact ⟨hmem.trans step.1, hpoison.trans step.2.1, hstg.trans step.2.2⟩

/-- Planned writes of the current node. -/
theorem doWrite_fold {uid : Nat} (l : List ByteWrite) {s : State} (hu : s.cur.desc.uid = uid) (hc : Canonical s) :
    Canonical (l.foldl (fun s w => s.doWrite uid w) s) ∧
    (∀ a, (¬ ∃ w ∈ l, ∃ g, w.place = .phys a g) → (l.foldl (fun s w => s.doWrite uid w) s).byte a = s.byte a) ∧
    (s.cur.desc.image.unstg = false → (l.foldl (fun s w => s.doWrite uid w) s).mem = s.mem) ∧
    SameWriter s (l.foldl (fun s w => s.doWrite uid w) s) := by
  induction l generalizing s with
  | nil => exact ⟨hc, fun _ _ => rfl, fun _ => rfl, rfl, rfl, rfl, rfl, rfl, rfl⟩
  | cons w l ih =>
    have hw : SameWriter s (s.doWrite s.cur.desc.uid w) := writePlace_sameWriter s _ _ _
    have hm : Canonical (s.doWrite s.cur.desc.uid w) ∧ (∀ a, (∀ g, w.place ≠ .phys a g) → (s.doWrite s.cur.desc.uid w).byte a = s.byte a) ∧
        (s.cur.desc.image.unstg = false → (s.doWrite s.cur.desc.uid w).mem = s.mem) := writePlace_memory hc _ _ _
    rw [hu] at hw hm
    obtain ⟨hc', hkeep, hstaged⟩ := hm
    obtain ⟨ic, ikeep, istaged, iw⟩ := ih (by rw [hw.desc, hu]) hc'
    refine ⟨ic, fun a ha => (ikeep a fun ⟨v, hv, hg⟩ => ha ⟨v, List.mem_cons_of_mem _ hv, hg⟩).trans (hkeep a fun g hg => ha ⟨w, by simp, g, hg⟩),
      fun h => (istaged (by rw [hw.desc]; exact h)).trans (hstaged h), ?_⟩
    exact ⟨iw.desc.trans hw.desc, iw.asgen.trans hw.asgen, iw.qgen.trans hw.qgen, iw.regs.trans hw.regs, iw.ctl.trans hw.ctl, iw.awl.trans hw.awl⟩

theorem doWrites_own {s : State} (hc : Canonical s) (unit : BitVec 3) (a : Option (BitVec 22)) (l : List ByteWrite) :
    Canonical (s.doWrites s.cur.desc.uid unit a l) ∧ SameMemoryBut s (s.doWrites s.cur.desc.uid unit a l) (fun x => ∃ w ∈ l, ∃ g, w.place = .phys x g) ∧
    (s.cur.desc.image.unstg = false → (s.doWrites s.cur.desc.uid unit a l).mem = s.mem) ∧
    (s.doWrites s.cur.desc.uid unit a l).cur.regs = s.cur.regs ∧ (s.doWrites s.cur.desc.uid unit a l).cur.ctl.flight = s.cur.ctl.flight := by
  obtain ⟨ic, ikeep, istaged, iw⟩ := doWrite_fold l rfl hc
  obtain ⟨cs, g, e⟩ := touch_own (l.foldl (fun u w => u.doWrite s.cur.desc.uid w) s) unit a (firstGuard (l.map (·.place)))
  rw [iw.desc] at e
  have hf := congrArg Ctl.flight iw.ctl
  rw [State.doWrites, e]
  exact ⟨ic, ikeep, istaged, iw.regs, hf⟩

/-! ## Stores that are performed later (R287, R288) -/

theorem writePlace_late (s : State) (uid : Nat) (pl : Place) (v : Byte) (p : Bool) : (s.writePlace uid pl v p).late = s.late := by
  unfold State.writePlace
  split
  · rfl
  · exact State.setNode_late ..
  · dsimp only
    split
    · obtain ⟨cs, e⟩ := countFor_keeps s uid "stale-generation writes dropped"
      rw [e]
    · split
      · rfl
      · split
        · exact State.setNode_late ..
        · split
          · rw [State.setNode_late, State.setNode_late]
          · exact State.setNode_late ..

theorem writePlaces_late (uid : Nat) (l : List (Place × Byte × Bool)) (s : State) : (s.writePlaces uid l).late = s.late := by
  induction l generalizing s with
  | nil => rfl
  | cons e l ih => exact (ih _).trans (writePlace_late s uid e.1 e.2.1 e.2.2)

theorem performStore_late (s : State) (e : LateStore) : (s.performStore e).late = s.late.erase e := writePlaces_late e.uid e.bytes _

theorem foldl_erase_filter {α : Type} [BEq α] [LawfulBEq α] (p : α → Bool) (l a : List α) (ha : ∀ x ∈ a, p x = false) :
    (l.filter p).foldl List.erase (a ++ l) = a ++ l.filter fun x => !p x := by
  induction l generalizing a with
  | nil => simp
  | cons e l ih =>
    by_cases he : p e = true
    · have hn : e ∉ a := fun h => by rw [ha e h] at he; cases he
      rw [List.filter_cons_of_pos he, List.filter_cons_of_neg (by simp [he]), List.foldl_cons, List.erase_append_right _ hn, List.erase_cons_head]
      exact ih a ha
    · rw [List.filter_cons_of_neg he, List.filter_cons_of_pos (by simpa using he)]
      have := ih (a ++ [e]) (by simpa [or_imp, forall_and] using ⟨ha, Bool.not_eq_true _ ▸ he⟩)
      simpa using this

theorem drain_late (s : State) (uid : Nat) : (s.drain uid).late = s.late.filter fun d => d.uid != uid := by
  have fold (l : List LateStore) (t : State) : (l.foldl State.performStore t).late = l.foldl List.erase t.late := by
    induction l generalizing t with
    | nil => rfl
    | cons e l ih => rw [List.foldl_cons, List.foldl_cons, ih, performStore_late]
  exact (fold _ s).trans (foldl_erase_filter (fun d : LateStore => d.uid == uid) s.late [] (by simp))

/-- A store at a place of the list is performed unless an earlier one of its node keeps it (R288). -/
theorem performAt_eq {s : State} {before after : List LateStore} {e : LateStore} (h : s.late = before ++ e :: after) :
    s.performAt before.length = if ∃ d ∈ before, d.uid = e.uid ∧ disjointPlaces (d.bytes.map fun b => b.1) (e.bytes.map fun b => b.1) = false
      then s else s.performStore e := by
  have hget : s.late[before.length]? = some e := by rw [h]; simp
  have htake : s.late.take before.length = before := by rw [h]; simp
  rw [State.performAt, hget]
  dsimp only
  rw [htake]
  by_cases hw : ∃ d ∈ before, d.uid = e.uid ∧ disjointPlaces (d.bytes.map fun b => b.1) (e.bytes.map fun b => b.1) = false
  · rw [if_pos hw, if_neg]
    obtain ⟨d, hd, hu, hp⟩ := hw
    intro hall
    have := List.all_eq_true.mp hall d hd
    rw [hu, hp] at this
    simp at this
  · rw [if_neg hw, if_pos]
    refine List.all_eq_true.mpr fun d hd => ?_
    by_cases hu : d.uid = e.uid
    · have : disjointPlaces (d.bytes.map fun b => b.1) (e.bytes.map fun b => b.1) = true := by
        by_contra hp
        exact hw ⟨d, hd, hu, by simpa using hp⟩
      simp [this]
    · simp [hu]

/-- Settles O22. -/
theorem writesReachTheirPlaces : Obligations.WritesReachTheirPlaces := by
  unfold Obligations.WritesReachTheirPlaces
  refine ⟨fun s x v p g => ⟨rfl, fun h => ?_, fun hu hs => ?_, fun hu hs => writePlace_through hs hu x g v p, fun hs => ?_⟩, fun s l hc hp hs hl => ?_,
    fun s l hp hs => ?_, fun s l unit a hc => doWrites_own hc unit a l, fun s before after e => ⟨rfl, fun uid => drain_late s uid, fun h => ⟨fun hw => ?_, fun hw => ?_⟩⟩⟩
  · dsimp only
    rw [writePlace_scratch]
    exact ⟨rfl, rfl, (putScr_get h x v p x).2.trans (if_pos rfl), fun y hy => (putScr_get h x v p y).2.trans (if_neg hy), rfl⟩
  · obtain ⟨ov, ns, e⟩ := writePlace_staged hs hu x g v p
    dsimp only
    rw [e]
    exact ⟨rfl, rfl, (cellPut_get _ x v x).trans (if_pos rfl), fun y hy => (cellPut_get _ x v y).trans (if_neg hy), rfl⟩
  · obtain ⟨cs, e⟩ := writePlace_stale hs x g v p
    rw [e]
    exact ⟨rfl, rfl, rfl⟩
  · exact ⟨writePlaces_pool l rfl hp, fun hu => writePlaces_through l rfl hc hs hu (hl hu), fun hu => writePlaces_staged l rfl hs hu⟩
  · obtain ⟨hm, hpo, hst⟩ := writePlaces_stale l rfl hs
    exact ⟨hm, hpo, hst, writePlaces_pool l rfl hp⟩
  · exact (performAt_eq h).trans (if_neg hw)
  · exact (performAt_eq h).trans (if_pos hw)

/-! ## Atomics (R271, R272) -/

theorem amoAcq_eq (ext : Option (BitVec 25)) : amoAcq ext = ext.any fun e => e.getLsbD 0 := by
  cases ext <;> rfl

theorem places_length {s : State} {n : Node} {tid : Nat} : ∀ {len off : Nat} {ps : List Place}, s.places n tid off len = .ok ps → ps.length = len
  | 0, _, _, h => by cases h; rfl
  | len + 1, off, ps, h => by
    rw [State.places] at h
    split at h
    · cases h
    · split at h
      · cases h
      · next hrest => cases h; exact congrArg (· + 1) (places_length hrest)

/-- An atomic's write changes the scratchpad of its node and memory only. -/
theorem amoWrite_fields (l : List (Place × Byte)) (s : State) : ∃ r m p, s.amoWrite l = { s with cur := { s.cur with run := r }, mem := m, poison := p } := by
  induction l generalizing s with
  | nil => exact ⟨_, _, _, rfl⟩
  | cons e l ih =>
    obtain ⟨pl, v⟩ := e
    cases pl with
    | phys x g => obtain ⟨r, m, p, h⟩ := ih (s.setByte x v false); exact ⟨r, m, p, h⟩
    | pool x g =>
      cases g with
      | true => exact ih s
      | false =>
        obtain ⟨r, m, p, h⟩ := ih (s.mapRun fun r => { r with scr := r.scr.putScr x v false })
        exact ⟨r, m, p, h⟩

/-- What an atomic that is performed does before its result: it writes, forgets what has been read ahead, and notes that the run is irreversible. -/
def amoDone (s : State) (op : Nat) (d b : BitVec 5) (len : Nat) (acq : Bool) (ps : List Place) (old : Nat) : State :=
  let written := match amoNew op (8 * len) old ((s.cur.s b).toNat % 2 ^ (8 * len)) ((s.cur.s d).toNat % 2 ^ (8 * len)) with
    | some v => s.amoWrite (ps.zip (leBytes v len))
    | none => s
  let kept := if acq = true then written.acquire else written.forget ps
  if ps.any Place.beyondPool then kept.mapRun fun r => { r with irrev := true } else kept

theorem amoDone_fields (s : State) (op : Nat) (d b : BitVec 5) (len : Nat) (acq : Bool) (ps : List Place) (old : Nat) :
    ∃ r m p, amoDone s op d b len acq ps old = { s with cur := { s.cur with run := r }, mem := m, poison := p } := by
  obtain ⟨r, m, p, hw⟩ : ∃ r m p, (match amoNew op (8 * len) old ((s.cur.s b).toNat % 2 ^ (8 * len)) ((s.cur.s d).toNat % 2 ^ (8 * len)) with
      | some v => s.amoWrite (ps.zip (leBytes v len))
      | none => s) = { s with cur := { s.cur with run := r }, mem := m, poison := p } := by
    split
    · exact amoWrite_fields _ s
    · exact ⟨_, _, _, rfl⟩
  obtain ⟨r', hk⟩ : ∃ r', (if acq = true then ({ s with cur := { s.cur with run := r }, mem := m, poison := p } : State).acquire
      else ({ s with cur := { s.cur with run := r }, mem := m, poison := p } : State).forget ps) = { s with cur := { s.cur with run := r' }, mem := m, poison := p } := by
    split <;> exact ⟨_, rfl⟩
  simp only [amoDone, hw, hk]
  split <;> exact ⟨_, _, _, rfl⟩

/-- Each of the outcomes of a word whose body is an atomic. -/
theorem atomic_outcomes {i : Instr} {s : State} {op : Nat} {d a b : BitVec 5} {w : BitVec 1} {acq : Bool} (e : exec i s = .next (s.amo op d a b w acq)) :
    let len := if w = 1 then 8 else 4
    let ea := s.cur.s a
    let read := fun (ps : List Place) => ps.zipIdx.map fun x => s.amoByte (addrTid ea) (addrOff ea + x.2) x.1
    StoreTraps i s ea len ∧
    (ea.toNat % len = 0 → writeMode s.cur (addrTid ea) = true → ∀ x, s.places s.cur (addrTid ea) (addrOff ea) len = .error x → exec i s = .next (s.wordFault x ea)) ∧
    (ea.toNat % len = 0 → writeMode s.cur (addrTid ea) = true → ∀ ps, s.places s.cur (addrTid ea) (addrOff ea) len = .ok ps →
      (ps.any (s.cur.amoBarred op) = true → exec i s = .next (s.withResults [{ dist := 6, eff := .trap 0x11 s.bnd.pos s.bnd.fa ea }])) ∧
      (ps.any (s.cur.amoBarred op) = false → ps.any Place.beyondPool = true → s.stale s.cur = true → exec i s = .next (s.wordFault .generation ea)) ∧
      (ps.any (s.cur.amoBarred op) = false → (ps.any Place.beyondPool = true → s.stale s.cur = false) → (read ps).any (·.2) = true → exec i s = .next s.consume) ∧
      (ps.any (s.cur.amoBarred op) = false → (ps.any Place.beyondPool = true → s.stale s.cur = false) → (read ps).any (·.2) = false →
        exec i s = .next (((amoDone s op d b len acq ps (leNat ((read ps).map (·.1)))).touch s.cur.desc.uid 0 (some s.bnd.addr) (firstGuard ps)).withResults
          (scalarResult s 6 d (loadedWord len (op != 9) (leNat ((read ps).map (·.1)))))))) := by
  intro len ea read
  have allowed (h : ea.toNat % len = 0) (hm : writeMode s.cur (addrTid ea) = true) : exec i s = .next (match s.places s.cur (addrTid ea) (addrOff ea) len with
      | .error f => s.wordFault f ea
      | .ok ps =>
        if ps.any (s.cur.amoBarred op) then s.trapLater 6 0x11 ea
        else if ps.any Place.beyondPool && s.stale s.cur then s.wordFault .generation ea
        else if (read ps).any (·.2) then s.consume
        else ((amoDone s op d b len acq ps (leNat ((read ps).map (·.1)))).touch
            (amoDone s op d b len acq ps (leNat ((read ps).map (·.1)))).cur.desc.uid 0
            (some (amoDone s op d b len acq ps (leNat ((read ps).map (·.1)))).bnd.addr) (firstGuard ps)).pushS 6 d
          (if op = 9 then BitVec.ofNat 64 (leNat ((read ps).map (·.1))) else wordOf (signExt (8 * len) (leNat ((read ps).map (·.1)) : Int)))) := by
    rw [e]
    exact congrArg _ ((if_neg (not_not_intro h)).trans ((if_pos hm).trans rfl))
  refine ⟨⟨fun h => ?_, fun h hm => ?_⟩, fun h hm x hx => ?_, fun h hm ps hps => ⟨fun hb => ?_, fun hb hp hs => ?_, fun hb hs hp => ?_, fun hb hs hp => ?_⟩⟩
  · rw [e]; exact congrArg _ (if_pos h)
  · rw [e]
    refine congrArg _ ((if_neg (not_not_intro h)).trans ?_)
    rw [State.modeChecked, if_neg (by rw [hm]; decide)]
  · rw [allowed h hm, hx]
  · rw [allowed h hm, hps]; exact congrArg _ (if_pos hb)
  · rw [allowed h hm, hps]
    dsimp only
    rw [hb, hp, hs]
    rfl
  · have hn : (ps.any Place.beyondPool && s.stale s.cur) = false := by
      cases hp' : ps.any Place.beyondPool with
      | false => rfl
      | true => exact hs hp'
    rw [allowed h hm, hps]
    dsimp only
    rw [hb, hn, hp]
    rfl
  · have hn : (ps.any Place.beyondPool && s.stale s.cur) = false := by
      cases hp' : ps.any Place.beyondPool with
      | false => rfl
      | true => exact hs hp'
    rw [allowed h hm, hps]
    dsimp only
    rw [hb, hn, hp]
    refine congrArg _ (?_ : State.pushS _ _ _ _ = _)
    have hold : leNat ((read ps).map (·.1)) < 2 ^ (8 * len) := by
      have := leNat_lt ((read ps).map (·.1))
      rwa [List.length_map, List.length_map, List.length_zipIdx, places_length hps] at this
    have hv := loadedWord_eq (len := len) (op != 9) hold
    generalize leNat ((read ps).map (·.1)) = old at hold hv ⊢
    obtain ⟨r, m, p, hd⟩ := amoDone_fields s op d b len acq ps old
    have huid : (amoDone s op d b len acq ps old).cur.desc.uid = s.cur.desc.uid := by rw [hd]
    have hbnd : (amoDone s op d b len acq ps old).bnd = s.bnd := by rw [hd]
    have hctl : (amoDone s op d b len acq ps old).cur.ctl = s.cur.ctl := by rw [hd]
    rw [State.pushS_eq, ← hv, huid, hbnd]
    obtain ⟨cs, g, ht⟩ := touch_own (amoDone s op d b len acq ps old) 0 (some s.bnd.addr) (firstGuard ps)
    rw [huid] at ht
    have hbank : ((amoDone s op d b len acq ps old).touch s.cur.desc.uid 0 (some s.bnd.addr) (firstGuard ps)).cur.ctl.bank = s.cur.ctl.bank := by
      rw [ht, ← hctl]
    have hop : (if op = 9 then BitVec.ofNat 64 old else wordOf (signExt (8 * len) (old : Int))) =
        (if (op != 9) = true then wordOf (signExt (8 * len) (old : Int)) else BitVec.ofNat 64 old) := by
      by_cases h9 : op = 9 <;> simp [h9]
    rw [scalarResult, hbank, hop]
    rfl

/-! ### The new values (R271) -/

theorem lowBits_toInt {w : Nat} (x : BitVec w) : lowBits w x.toInt = x.toNat := by
  have := congrArg BitVec.toNat (BitVec.ofInt_toInt (x := x))
  rwa [BitVec.toNat_ofInt] at this

theorem amoNew_spec {w : Nat} (hw : 0 < w) (x b d : BitVec w) :
    let clamp : Int → Int := fun v => max (-(2 ^ (w - 1))) (min v (2 ^ (w - 1) - 1))
    amoNew 0 w x.toNat b.toNat d.toNat = some (x + b).toNat ∧
    amoNew 1 w x.toNat b.toNat d.toNat = some (BitVec.ofInt w (clamp (x.toInt + b.toInt))).toNat ∧
    amoNew 2 w x.toNat b.toNat d.toNat = some (if x.sle b then x.toNat else b.toNat) ∧
    amoNew 3 w x.toNat b.toNat d.toNat = some (if x.sle b then b.toNat else x.toNat) ∧
    amoNew 4 w x.toNat b.toNat d.toNat = some (x &&& b).toNat ∧
    amoNew 5 w x.toNat b.toNat d.toNat = some (x ||| b).toNat ∧
    amoNew 6 w x.toNat b.toNat d.toNat = some (x ^^^ b).toNat ∧
    amoNew 7 w x.toNat b.toNat d.toNat = some b.toNat ∧
    amoNew 8 w x.toNat b.toNat d.toNat = (if x = d then some b.toNat else none) ∧
    amoNew 9 w x.toNat b.toNat d.toNat = some (if b.toNat ≤ x.toNat then 0 else x.toNat + 1) := by
  have hlohi : minI w ≤ maxI w := by
    have : (0 : Int) < 2 ^ (w - 1) := by positivity
    simp only [minI, maxI]; omega
  have sle : x.sle b = true ↔ x.toInt ≤ b.toInt := BitVec.sle_iff_toInt_le
  refine ⟨congrArg some (BitVec.toNat_add x b).symm, ?_, ?_, ?_, rfl, rfl, rfl, rfl, ?_, rfl⟩
  · change some (lowBits w (satI w (signExt w x.toNat + signExt w b.toNat)).1) = _
    rw [signExt_toNat x hw, signExt_toNat b hw, satI, satRange_fst hlohi, BitVec.toNat_ofInt]
    rfl
  · change some (lowBits w (min (signExt w x.toNat) (signExt w b.toNat))) = _
    rw [signExt_toNat x hw, signExt_toNat b hw]
    by_cases h : x.toInt ≤ b.toInt
    · rw [min_eq_left h, lowBits_toInt, if_pos (sle.mpr h)]
    · rw [min_eq_right (by omega), lowBits_toInt, if_neg (fun h' => h (sle.mp h'))]
  · change some (lowBits w (max (signExt w x.toNat) (signExt w b.toNat))) = _
    rw [signExt_toNat x hw, signExt_toNat b hw]
    by_cases h : x.toInt ≤ b.toInt
    · rw [max_eq_right h, lowBits_toInt, if_pos (sle.mpr h)]
    · rw [max_eq_left (by omega), lowBits_toInt, if_neg (fun h' => h (sle.mp h'))]
  · change (if x.toNat = d.toNat then some b.toNat else none) = _
    simp only [BitVec.toNat_inj]

/-- Settles O23. -/
theorem atomics : Obligations.Atomics := by
  unfold Obligations.Atomics
  refine ⟨fun s q g d a b w ext => ?_, fun w hw x b d => amoNew_spec (by rcases List.mem_pair.mp hw with rfl | rfl <;> decide) x b d⟩
  intro len ea read forms e he hr
  rw [← amoAcq_eq ext]
  have mem (j : Instr) (op : Nat) : (j, op) ∈ forms → exec j s = word j s (fun s => s.amo op d a b w (amoAcq ext)) := by
    intro h
    simp only [forms, List.mem_cons, List.not_mem_nil, or_false, Prod.mk.injEq] at h
    rcases h with h | h | h | h | h | h | h | h | h | h <;> obtain ⟨rfl, rfl⟩ := h <;> rfl
  exact atomic_outcomes (runs_of_word (mem e.1 e.2 he) hr)

end Sys2Proof.Proofs
end

