-- ==== Sys2Proof/Proofs/Tensor.lean ====
section
/-! Proofs about the words of class T: handles, scale registers, the census and tile shapes (R41, R42, R206 to R218). -/

namespace Sys2Proof.Proofs

open Sys2Proof Sys2Proof.Machine

-- One theorem after another: side by side they need more memory than one run may take.
set_option Elab.async false

/-! ## Handles (R207, R208) -/

theorem setOrigin_spec {d : BitVec 3} (hd : d.toNat < 5) (h : Handle) (delta n : Int)
    (hn : ((h.toNat / 2 ^ (154 + 18 * d.toNat) % 2 ^ 18 : Nat) + delta : Int) % 2 ^ 18 = n % 2 ^ 18) :
    (((moveOrg h d.toNat delta).toNat / 2 ^ (154 + 18 * d.toNat) % 2 ^ 18 : Nat) : Int) = n % 2 ^ 18 ∧
    ∀ j < 256, j < 154 + 18 * d.toNat ∨ 154 + 18 * d.toNat + 18 ≤ j → (moveOrg h d.toNat delta).getLsbD j = h.getLsbD j := by
  obtain ⟨hv, hj⟩ := moveOrg_spec h ⟨d.toNat, hd⟩ delta
  refine ⟨?_, fun j hlt h' => hj j hlt (by dsimp only; omega)⟩
  rw [← hn, ← hv]
  norm_cast

theorem org_eq (h : Handle) (d : Nat) : h.org d = h.toNat / 2 ^ (154 + 18 * d) % 2 ^ 18 := fieldN_eq_div_mod h _ _

theorem setOrg_spec {d : BitVec 3} (hd : d.toNat < 5) (h : Handle) (v : Nat) (n : Int) (hn : (v : Int) % 2 ^ 18 = n % 2 ^ 18) :
    (((setOrg h d.toNat v).toNat / 2 ^ (154 + 18 * d.toNat) % 2 ^ 18 : Nat) : Int) = n % 2 ^ 18 ∧
    ∀ j < 256, j < 154 + 18 * d.toNat ∨ 154 + 18 * d.toNat + 18 ≤ j → (setOrg h d.toNat v).getLsbD j = h.getLsbD j :=
  setOrigin_spec hd h _ n (by rw [← org_eq, ← hn]; congr 1; omega)

/-- The low bits of a scalar register are the same read signed or unsigned. -/
theorem toNat_emod_toInt (x : Word) : (x.toNat : Int) % 2 ^ 18 = x.toInt % 2 ^ 18 := by
  rw [BitVec.toInt_eq_toNat_cond]
  split
  · rfl
  · push_cast; omega

/-- One quarter of a handle (R207). -/
theorem getLsbD_setQuarter (old : Handle) (v : Word) (x : BitVec 2) {j : Nat} (hj : j < 256) :
    ((old &&& ~~~(BitVec.ofNat 256 (2 ^ 64 - 1) <<< (64 * x.toNat))) ||| (v.zeroExtend 256 <<< (64 * x.toNat))).getLsbD j =
      if j / 64 = x.toNat then v.getLsbD (j % 64) else old.getLsbD j := by
  have hx := x.isLt
  simp only [BitVec.getLsbD_or, BitVec.getLsbD_and, BitVec.getLsbD_not, BitVec.getLsbD_shiftLeft, BitVec.getLsbD_ofNat, Nat.testBit_two_pow_sub_one, hj,
    BitVec.zeroExtend, BitVec.getLsbD_setWidth, decide_true, Bool.true_and]
  by_cases h1 : j < 64 * x.toNat
  · rw [if_neg (by omega)]; simp [h1]
  · by_cases h2 : j - 64 * x.toNat < 64
    · rw [if_pos (by omega), show j % 64 = j - 64 * x.toNat by omega]
      simp [h1, h2, show j - 64 * x.toNat < 256 by omega]
    · rw [if_neg (by omega), BitVec.getLsbD_of_ge v _ (by omega)]
      simp [h2]

/-- Settles O24. -/
theorem handleWords : Obligations.HandleWords := by
  unfold Obligations.HandleWords
  intro s q g h x d a i ext
  dsimp only
  have five {w : Instr} (hw : Runs w s) (hl : w.sig.legal = decide (d.toNat < 5)) : d.toNat < 5 := of_decide_eq_true (hl ▸ wf_legal hw.1)
  refine ⟨fun hr => ⟨_, runs_of_word (exec_hset s q g h x a) hr, fun j hj => getLsbD_setQuarter _ _ _ hj⟩,
    fun hr => ⟨_, runs_of_word (exec_horg s q g h d a) hr, setOrg_spec (five hr rfl) _ _ _ (toNat_emod_toInt _)⟩,
    fun hr => ⟨_, runs_of_word (exec_horgImm s q g h d i ext) hr, setOrg_spec (five hr rfl) _ _ _ rfl⟩,
    fun hr => ⟨_, runs_of_word (exec_hstep s q g h d a) hr, setOrigin_spec (five hr rfl) _ _ _ rfl⟩,
    fun hr => ⟨_, runs_of_word (exec_hstepImm s q g h d i ext) hr, setOrigin_spec (five hr rfl) _ _ _ rfl⟩⟩

/-! ## Scale registers (R37, R210 to R214) -/

theorem cenCur_eq (k : BitVec 32) : cenCur k = k.toNat / 2 ^ 8 % 2 ^ 6 := fieldN_eq_div_mod k 8 6
theorem cenPrev_eq (k : BitVec 32) : cenPrev k = k.toNat / 2 ^ 14 % 2 ^ 6 := fieldN_eq_div_mod k 14 6

/-- The census fields of a scale register, as one number. -/
def censusField (v : Bool) (prev cur : Nat) : Nat := (if v then 2 ^ 12 else 0) + min prev 32 * 2 ^ 6 + min cur 32

theorem censusField_lt (v : Bool) (prev cur : Nat) : censusField v prev cur < 2 ^ 13 := by
  unfold censusField
  split <;> omega

theorem setCensus_eq (k : BitVec 32) (v : Bool) (prev cur : Nat) :
    setCensus k v prev cur = (k &&& ~~~(BitVec.ofNat 32 ((2 ^ 13 - 1) * 2 ^ 8))) ||| BitVec.ofNat 32 (censusField v prev cur * 2 ^ 8) := by
  have : (if v then 2 ^ 20 else 0) + min prev 32 * 2 ^ 14 + min cur 32 * 2 ^ 8 = censusField v prev cur * 2 ^ 8 := by
    unfold censusField
    split <;> omega
  rw [setCensus, this]
  rfl

/-- The fields of a scale register with new census fields (R37, R41). -/
theorem setCensus_spec (k : BitVec 32) (v : Bool) (prev cur : Nat) :
    cenV (setCensus k v prev cur) = v ∧ cenPrev (setCensus k v prev cur) = min prev 32 ∧ cenCur (setCensus k v prev cur) = min cur 32 ∧
    ∀ j < 32, j < 8 ∨ 21 ≤ j → (setCensus k v prev cur).getLsbD j = k.getLsbD j := by
  have hlt := censusField_lt v prev cur
  have hfield := setField_field k (lo := 8) hlt (by decide)
  rw [← setCensus_eq] at hfield
  have hbits (j : Nat) (hj : j < 32) := getLsbD_setField k (lo := 8) hlt hj
  rw [← setCensus_eq] at hbits
  refine ⟨?_, ?_, ?_, fun j hj h => (hbits j hj).trans (if_neg (by omega))⟩
  · rw [cenV, hbits 20 (by decide), if_pos (by decide), Nat.testBit_eq_decide_div_mod_eq]
    unfold censusField
    cases v <;> simp <;> omega
  · rw [cenPrev_eq]
    unfold censusField at hfield
    split at hfield <;> omega
  · rw [cenCur_eq]
    unfold censusField at hfield
    split at hfield <;> omega

theorem kword_of_busy {s : State} {k : BitVec 6} (h : s.cur.scaleBusy k = true) (body : State → State) : s.kword k body = s.delay := if_pos h
theorem kword_of_free {s : State} {k : BitVec 6} (h : s.cur.scaleBusy k = false) (body : State → State) : s.kword k body = body s := if_neg (by simp [h])

theorem scaleE_eq (r : BitVec 32) : scaleE r = (r.extractLsb' 0 8).toInt := signExt_toNat _ (by decide)

/-- The bits that a mask of KSET selects (R210). -/
theorem getLsbD_ksetMask (m : BitVec 5) {j : Nat} (hj : j < 32) :
    (ksetMask m).getLsbD j = (decide (j < 8) && m.getLsbD 0 || decide (8 ≤ j ∧ j < 21) && m.getLsbD 1 ||
      decide (j = 21) && m.getLsbD 2 || decide (j = 22) && m.getLsbD 3 || decide (24 ≤ j ∧ j < 28) && m.getLsbD 4) := by
  unfold ksetMask
  generalize m.getLsbD 0 = b0
  generalize m.getLsbD 1 = b1
  generalize m.getLsbD 2 = b2
  generalize m.getLsbD 3 = b3
  generalize m.getLsbD 4 = b4
  revert j b0 b1 b2 b3 b4
  decide

/-- A KSET value keeps every bit but those of the census, whose values are at most 32 (R37, R210). -/
theorem ksetValue_spec (v : Word) :
    (∀ j < 32, j < 8 ∨ 20 ≤ j → (ksetValue v).getLsbD j = v.getLsbD j) ∧
    cenCur (ksetValue v) = min ((v.extractLsb' 8 6).toNat) 32 ∧ cenPrev (ksetValue v) = min ((v.extractLsb' 14 6).toNat) 32 := by
  obtain ⟨hv, hp, hc, hb⟩ := setCensus_spec (v.extractLsb' 0 32) (cenV (v.extractLsb' 0 32)) (cenPrev (v.extractLsb' 0 32)) (cenCur (v.extractLsb' 0 32))
  have low {j : Nat} (hj : j < 32) : (v.extractLsb' 0 32).getLsbD j = v.getLsbD j := by rw [BitVec.getLsbD_extractLsb', Nat.zero_add]; simp only [hj, decide_true, Bool.true_and]
  have field (lo : Nat) (h : lo + 6 ≤ 32) : (v.extractLsb' 0 32).extractLsb' lo 6 = v.extractLsb' lo 6 := by
    ext j hj
    simp only [← BitVec.getLsbD_eq_getElem, BitVec.getLsbD_extractLsb', Nat.zero_add, hj, decide_true, Bool.true_and, show lo + j < 32 by omega]
  refine ⟨fun j hj h => ?_, hc.trans (by rw [cenCur, field 8 (by decide)]), hp.trans (by rw [cenPrev, field 14 (by decide)])⟩
  by_cases h20 : j = 20
  · subst h20
    exact hv.trans (low (by decide))
  · exact (hb j hj (by omega)).trans (low hj)

/-- A test of the queued EPI.ADD commands. -/
theorem any_add_iff (l : List EpiCmd) (f : EpiCmd → Bool) (p : EpiAdd → Prop) (ha : ∀ a, f (.add a) = true ↔ p a) (hs : ∀ c, f (.send c) = false) :
    l.any f = true ↔ ∃ x, .add x ∈ l ∧ p x := by
  rw [List.any_eq_true]
  constructor
  · rintro ⟨e, he, h⟩
    cases e with
    | add a => exact ⟨a, he, (ha a).mp h⟩
    | send c => exact absurd h (by simp [hs c])
  · rintro ⟨x, hx, h⟩
    exact ⟨_, hx, (ha x).mpr h⟩

/-- The commands that hold a scale register (R214). -/
theorem scaleBusy_iff (n : Node) (k : BitVec 6) : n.scaleBusy k = true ↔
    k ∈ n.ctl.cwaiting ∨ (∃ x ∈ n.ctl.flight, x.eff = .cenClose k) ∨ (∃ c ∈ n.eng.ca ++ n.eng.caArmed ++ n.eng.cb ++ n.eng.cbArmed, c.hD.kidx = k.toNat) ∨
      (∃ x, .add x ∈ n.eng.epi ∧ x.h.kidx = k.toNat) ∨ ∃ c ∈ n.eng.colls, c.recv = true ∧ c.hD.kidx = k.toNat := by
  rw [Node.scaleBusy, Bool.or_eq_true, Bool.or_eq_true, Bool.or_eq_true, Bool.or_eq_true,
    any_add_iff n.eng.epi _ (fun x => x.h.kidx = k.toNat) (fun _ => beq_iff_eq) fun _ => rfl]
  simp only [List.contains_iff_mem, List.any_eq_true, beq_iff_eq, Bool.and_eq_true, or_assoc]

/-- What a close waits for (R42). -/
theorem censusPending_iff (n : Node) (k : BitVec 6) : n.censusPending k = true ↔
    (∃ x ∈ n.ctl.flight, x.eff = .cenClose k) ∨
    (∃ c ∈ n.eng.ca ++ n.eng.caArmed ++ n.eng.cb ++ n.eng.cbArmed, c.hD.kidx = k.toNat ∧ c.hD.cen = true ∧ c.win ≤ n.regs.closed[k.toNat]) ∨
      ∃ x, .add x ∈ n.eng.epi ∧ x.h.kidx = k.toNat ∧ x.h.cen = true ∧ x.win ≤ n.regs.closed[k.toNat] := by
  rw [Node.censusPending, Bool.or_eq_true, Bool.or_eq_true,
    any_add_iff n.eng.epi _ (fun x => x.h.kidx = k.toNat ∧ x.h.cen = true ∧ x.win ≤ n.regs.closed[k.toNat]) (fun _ => by simp [and_assoc]) fun _ => rfl]
  simp only [List.any_eq_true, beq_iff_eq, Bool.and_eq_true, decide_eq_true_eq, or_assoc, and_assoc]

/-- A close at the end of its bundle, with what it waits for (R42). -/
theorem post_close (n : Node) (fa : BitVec 22) (k : BitVec 6) : n.post fa (.close k) =
    if k ∈ n.ctl.cwaiting ∨ n.censusPending k = true
    then { n with ctl := { n.ctl with cissued := n.ctl.cissued.setIfInBounds k.toNat (n.ctl.cissued[k.toNat] + 1), cwaiting := n.ctl.cwaiting ++ [k] } }
    else { n with ctl := { n.ctl with cissued := n.ctl.cissued.setIfInBounds k.toNat (n.ctl.cissued[k.toNat] + 1), flight := n.ctl.flight ++ [{ dist := 1, eff := .cenClose k }] } } := by
  have hk : k.toNat < 64 := k.isLt
  have hget : n.ctl.cissued[k.toNat]?.getD 0 = n.ctl.cissued[k.toNat] := by rw [Vector.getElem?_eq_getElem hk, Option.getD_some]
  simp only [Node.post, Node.issueClose, hget, Bool.or_eq_true, List.contains_iff_mem]
  rfl

/-- Settles O25. -/
theorem scaleRegisterWords : Obligations.ScaleRegisterWords := by
  unfold Obligations.ScaleRegisterWords
  intro s q g k m a d f w
  refine ⟨fun hb => ⟨fun hr => ?_, fun hr => ?_, fun hr => ?_, fun hr => ?_⟩, fun hf => ⟨fun hr => ?_, fun hr => ?_, fun hr => ?_, fun hr => ?_⟩,
    fun hr => runs_of_word (exec_cenClose s q g k) hr, fun n fa => ⟨scaleBusy_iff n k, fun hw => ?_, fun hw => ?_⟩,
    fun v j hj => ⟨getLsbD_ksetMask m hj, (ksetValue_spec v).1 j hj, (ksetValue_spec v).2⟩⟩
  · exact (runs_of_word (exec_kset s q g k m a) hr).trans (congrArg _ (kword_of_busy hb _))
  · exact (runs_of_word (exec_kget s q g d k f) hr).trans (congrArg _ (kword_of_busy hb _))
  · exact (runs_of_word (exec_cenGet s q g d k f) hr).trans (congrArg _ (kword_of_busy hb _))
  · exact (runs_of_word (exec_shift s q g d k w) hr).trans (congrArg _ (kword_of_busy hb _))
  · exact (runs_of_word (exec_kset s q g k m a) hr).trans (congrArg _ (kword_of_free hf _))
  · refine givesS_of_word (exec_kget s q g d k f) hr ((kword_of_free hf _).trans ?_)
    rw [BitVec.ofNat_toNat, ← scaleE_eq]
    rfl
  · exact givesS_of_word (exec_cenGet s q g d k f) hr (kword_of_free hf _)
  · exact givesS_of_word (exec_shift s q g d k w) hr (kword_of_free hf _)
  · rw [post_close, if_pos]
    rcases hw with h | h | h | h
    · exact .inl h
    · exact .inr ((censusPending_iff n k).mpr (.inl h))
    · exact .inr ((censusPending_iff n k).mpr (.inr (.inl h)))
    · exact .inr ((censusPending_iff n k).mpr (.inr (.inr h)))
  · rw [post_close, if_neg]
    rintro (h | h)
    · exact hw (.inl h)
    · exact hw (.inr ((censusPending_iff n k).mp h))

/-! ## Census windows (R40 to R42) -/

theorem foldl_min_le (l : List Nat) (a : Nat) : l.foldl min a ≤ a := by
  induction l generalizing a with
  | nil => exact le_rfl
  | cons b l ih => exact (ih _).trans (min_le_left a b)

/-- Settles O26. -/
theorem censusWindows : Obligations.CensusWindows := by
  unfold Obligations.CensusWindows
  intro r k w c hr hc
  have hk : k.toNat < 64 := k.isLt
  obtain ⟨hcur, hprev⟩ := hr ⟨k.toNat, hk⟩
  dsimp only [Fin.getElem_fin] at hcur hprev
  intro old new seen
  have hseen : seen.foldl min 32 ≤ 32 := foldl_min_le seen 32
  have hnew : new = setCensus old (decide (cenCur old < 32)) (cenCur old) (seen.foldl min 32) := Vector.getElem_setIfInBounds_self ..
  obtain ⟨hv, hp, hq, hb⟩ := setCensus_spec old (decide (cenCur old < 32)) (cenCur old) (seen.foldl min 32)
  rw [← hnew] at hv hp hq hb
  have hcensus (h : w ≤ r.closed[k.toNat]) : (r.census k.toNat w c).k[k.toNat] = setCensus old (cenV old) (cenPrev old) (min (cenCur old) c) ∧
      (r.census k.toNat w c).later = r.later := by
    have he : r.census k.toNat w c = { r with k := r.k.setIfInBounds k.toNat (setCensus old (cenV old) (cenPrev old) (min (cenCur old) c)) } := by
      simp only [Regs.census, Vector.getElem?_eq_getElem hk, Option.getD_some, if_pos h]
      rfl
    rw [he]
    exact ⟨Vector.getElem_setIfInBounds_self .., rfl⟩
  refine ⟨hv, hp.trans (min_eq_left hcur), hq.trans (min_eq_left hseen), hb, fun i hi => Vector.getElem_setIfInBounds_ne i.isLt (Ne.symm hi),
    Vector.getElem_setIfInBounds_self .., fun h => ?_, fun h => ?_⟩
  · obtain ⟨he, hl⟩ := hcensus h
    obtain ⟨hv', hp', hq', -⟩ := setCensus_spec old (cenV old) (cenPrev old) (min (cenCur old) c)
    rw [he]
    exact ⟨hq'.trans (min_eq_left (min_le_of_left_le hcur)), hp'.trans (min_eq_left hprev), hv', hl⟩
  · have : r.census k.toNat w c = { r with later := r.later ++ [(k.toNat, w, c)] } := by
      simp only [Regs.census, Vector.getElem?_eq_getElem hk, Option.getD_some, if_neg (show ¬ w ≤ r.closed[k.toNat] by omega)]
    rw [this]
    exact ⟨rfl, rfl⟩

/-! ## Tile shapes (R215 to R218) -/

theorem putShape_spec (s : State) (t : BitVec 6) (v : BitVec 32) :
    (shapeRows v * shapeCols v * shapeW v ≤ 262144 * s.slabs → s.putShape t v = s.withResults [{ dist := 1, eff := .ts (s.cur.slot t) v }]) ∧
    (262144 * s.slabs < shapeRows v * shapeCols v * shapeW v → s.putShape t v = s.trapHere 3 0) :=
  ⟨fun h => if_pos (decide_eq_true h), fun h => if_neg (by simpa [shapeLegal] using h)⟩

theorem sets_of_putShape {i : Instr} {s : State} {t : BitVec 6} {v : BitVec 32} (e : exec i s = .next (s.putShape t v)) :
    (shapeRows v * shapeCols v * shapeW v ≤ 262144 * s.slabs → exec i s = .next (s.withResults [{ dist := 1, eff := .ts (s.cur.slot t) v }])) ∧
    (262144 * s.slabs < shapeRows v * shapeCols v * shapeW v → exec i s = .next (s.trapHere 3 0)) :=
  ⟨fun h => e.trans (congrArg _ ((putShape_spec s t v).1 h)), fun h => e.trans (congrArg _ ((putShape_spec s t v).2 h))⟩

/-- A shape with another row count (R218). -/
theorem withRows_spec (v : BitVec 32) {rows : Nat} (h1 : 1 ≤ rows) (h2 : rows ≤ 256) :
    shapeRows (withRows v rows) = rows ∧ ∀ j < 32, j < 7 ∨ 15 ≤ j → (withRows v rows).getLsbD j = v.getLsbD j := by
  have hlt : rows - 1 < 2 ^ 8 := by omega
  have he : withRows v rows = (v &&& ~~~(BitVec.ofNat 32 ((2 ^ 8 - 1) * 2 ^ 7))) ||| BitVec.ofNat 32 ((rows - 1) * 2 ^ 7) := rfl
  have hf := setField_field v (lo := 7) hlt (by decide)
  rw [← he] at hf
  refine ⟨?_, fun j hj h => ?_⟩
  · rw [shapeRows, fieldN_eq_div_mod, hf]; omega
  · rw [he, getLsbD_setField v hlt hj, if_neg (by omega)]

/-- Settles O27. -/
theorem shapeWords : Obligations.ShapeWords := by
  unfold Obligations.ShapeWords
  intro s q g t u a
  dsimp only
  have row (h0 : a ≠ 0) (hr : Runs (.tshr q g t u a) s) : exec (.tshr q g t u a) s =
      .next (if s.uv a < 1 ∨ 256 < s.uv a then s.trapHere 3 0
        else s.putShape t (withRows (s.cur.regs.ts[(s.cur.slot u).toNat] &&& 0xFDFFFFFF#32) (s.uv a))) :=
    (runs_of_word (exec_tshr s q g t u a) hr).trans (congrArg _ (if_neg h0))
  refine ⟨fun hr => sets_of_putShape (runs_of_word (exec_tsh s q g t a) hr), fun hr => givesS_of_word (exec_tshRead s q g t a) hr ?_,
    fun hr => sets_of_putShape (runs_of_word (exec_tshr s q g t u 0) hr), fun h0 hr h => ?_, fun h0 hr h1 h2 => ?_⟩
  · rw [BitVec.ofNat_toNat]
  · rw [row h0 hr, if_pos]
    exact h.imp_left fun h => by rw [State.uv]; omega
  · obtain ⟨hrows, hbits⟩ := withRows_spec (s.cur.regs.ts[(s.cur.slot u).toNat] &&& 0xFDFFFFFF#32) h1 h2
    refine ⟨_, hrows, hbits, sets_of_putShape ((row h0 hr).trans (congrArg _ (if_neg ?_)))⟩
    rw [State.uv]
    omega

end Sys2Proof.Proofs
end

