-- ==== Sys2Proof/Proofs/Vectors.lean ====
section
/-! Proofs about the words of classes V, VI and VL on tiles (R181 to R200): what a tile result holds, and the element of each word. -/

namespace Sys2Proof.Proofs

open Sys2Proof Sys2Proof.Machine

-- One theorem after another: side by side they need more memory than one run may take.
set_option Elab.async false

/-! ## Packed elements (R182) -/

theorem packBits_spec {w : Nat} : ∀ {l : List Nat}, (∀ v ∈ l, v < 2 ^ w) → packBits w l < 2 ^ (w * l.length) ∧
    ∀ j, (h : j < l.length) → tileBits (packBits w l) w j = l[j]
  | [], _ => ⟨Nat.one_pos, fun j h => absurd h (Nat.not_lt_zero j)⟩
  | v :: l, hv => by
    have hv0 : v < 2 ^ w := hv v (by simp)
    obtain ⟨ih, ihj⟩ := packBits_spec (l := l) fun x hx => hv x (by simp [hx])
    have hcons : packBits w (v :: l) = packBits w l * 2 ^ w + v := rfl
    refine ⟨?_, fun j h => ?_⟩
    · rw [hcons, List.length_cons, Nat.mul_succ, Nat.pow_add]
      calc packBits w l * 2 ^ w + v < packBits w l * 2 ^ w + 2 ^ w := by omega
        _ = (packBits w l + 1) * 2 ^ w := by ring
        _ ≤ 2 ^ (w * l.length) * 2 ^ w := Nat.mul_le_mul_right _ ih
    · cases j with
      | zero => rw [tileBits, hcons, Nat.mul_zero, Nat.pow_zero, Nat.div_one, Nat.mul_add_mod', Nat.mod_eq_of_lt hv0]; rfl
      | succ j =>
        have := ihj j (Nat.lt_of_succ_lt_succ h)
        rw [tileBits] at this ⊢
        rw [hcons, Nat.mul_succ, Nat.add_comm (w * j), Nat.pow_add, ← Nat.div_div_eq_div_mul, Nat.mul_comm (packBits w l), Nat.mul_add_div (Nat.two_pow_pos w),
          Nat.div_eq_of_lt hv0, Nat.add_zero, this]
        rfl

theorem tv_w_pos (s : State) (t : BitVec 6) : 0 < (s.tv t).w := Nat.mul_pos (by decide) (Nat.two_pow_pos _)

theorem bit_lt (t : TileView) (j : Nat) : t.bit j < 2 ^ t.w := Nat.mod_lt _ (Nat.two_pow_pos _)

theorem lowBits_lt (w : Nat) (x : Int) : lowBits w x < 2 ^ w := by
  have h1 := Int.emod_nonneg x (b := (2 ^ w : Nat)) (by positivity)
  have h2 := Int.emod_lt_of_pos x (b := (2 ^ w : Nat)) (by positivity)
  rw [lowBits]; omega

theorem lowBits_natCast {w n : Nat} (h : n < 2 ^ w) : lowBits w (n : Int) = n := by
  rw [lowBits]; norm_cast; exact Nat.mod_eq_of_lt h

theorem cast_lowBits (w : Nat) (x : Int) : (lowBits w x : Int) = x % 2 ^ w := by
  rw [lowBits, Int.toNat_of_nonneg (Int.emod_nonneg _ (by positivity))]; norm_cast

theorem lowBits_congr {w : Nat} {x y : Int} (h : x % 2 ^ w = y % 2 ^ w) : lowBits w x = lowBits w y := by
  have : (lowBits w x : Int) = lowBits w y := by rw [cast_lowBits, cast_lowBits, h]
  exact_mod_cast this

/-- A sign-extended value is the value modulo 2^w. -/
theorem signExt_emod (w : Nat) (x : Int) : signExt w x % 2 ^ w = x % 2 ^ w := by
  simp only [signExt]
  split
  · rw [Int.sub_emod_right, cast_lowBits, Int.emod_emod]
  · rw [cast_lowBits, Int.emod_emod]

theorem lowBits_get (t : TileView) (u : Bool) (j : Nat) : lowBits t.w (t.get u j) = t.bit j := by
  cases u
  · exact (lowBits_congr (signExt_emod t.w _)).trans (lowBits_natCast (bit_lt t j))
  · exact lowBits_natCast (bit_lt t j)

/-! ## Results with clamping (R5, R182) -/

theorem clampTo_eq (w : Nat) (u : Bool) (x : Int) : (if u then satU w x else satI w x) = (clampTo w u x, clamps w u x) := by
  have hp : (0 : Int) < 2 ^ (w - 1) := by positivity
  have hq : (0 : Int) < 2 ^ w := by positivity
  have range {lo hi : Int} (h : lo ≤ hi) : satRange lo hi x = (max lo (min x hi), decide (max lo (min x hi) ≠ x)) := by
    unfold satRange
    split
    · rw [decide_eq_true (by omega)]; congr 1; omega
    · split
      · rw [decide_eq_true (by omega)]; congr 1; omega
      · rw [decide_eq_false (by omega)]; congr 1; omega
  cases u
  · exact range (by simp only [minI, maxI]; omega)
  · exact range (by omega)

theorem putSat_eq (w : Nat) (u : Bool) (x : Int) : putSat w u x = (lowBits w (clampTo w u x), clamps w u x) := by
  rw [putSat, clampTo_eq w u x]

theorem any_range_congr {n : Nat} {f g : Nat → Bool} (h : ∀ j < n, f j = g j) : (List.range n).any f = (List.range n).any g := by
  rw [Bool.eq_iff_iff, List.any_eq_true, List.any_eq_true]
  exact exists_congr fun j => and_congr_right fun hj => by rw [h j (List.mem_range.mp hj)]

/-! ## A tile result (R181 to R184) -/

theorem grid_iff (t u : TileView) : t.grid u = true ↔ SameGrid t u := by simp [TileView.grid, SameGrid]
theorem same_iff (t u : TileView) : t.same u = true ↔ SameShape t u := by simp [TileView.same, SameShape, grid_iff]

/-- The elements and the poison marks of a tile result. -/
theorem packed_elements {w : Nat} (hw : 0 < w) {out : List ((Nat × Bool) × Bool)} (hv : ∀ x ∈ out, x.1.1 < 2 ^ w) :
    packBits w (out.map fun x => x.1.1) < 2 ^ (w * out.length) ∧ packPoison w (out.map fun x => x.2) < 2 ^ (w * out.length) ∧
    ∀ j, (hj : j < out.length) → tileBits (packBits w (out.map fun x => x.1.1)) w j = out[j].1.1 ∧ elemPoison (packPoison w (out.map fun x => x.2)) w j = out[j].2 := by
  obtain ⟨hb, hbj⟩ := packBits_spec (w := w) (l := out.map fun x => x.1.1) (by
    intro v hv'
    obtain ⟨x, hx, rfl⟩ := List.mem_map.mp hv'
    exact hv x hx)
  obtain ⟨hp, hpj⟩ := packBits_spec (w := w) (l := (out.map fun x => x.2).map fun b => if b then 2 ^ w - 1 else 0) (by
    have := Nat.two_pow_pos w
    intro v hv'
    obtain ⟨b, -, rfl⟩ := List.mem_map.mp hv'
    cases b
    · exact this
    · exact Nat.sub_lt this Nat.one_pos)
  rw [List.length_map] at hb
  rw [List.length_map, List.length_map] at hp
  refine ⟨hb, hp, fun j hj => ⟨?_, ?_⟩⟩
  · rw [hbj j (by rw [List.length_map]; exact hj), List.getElem_map]
  · rw [elemPoison, packPoison, hpj j (by rw [List.length_map, List.length_map]; exact hj), List.getElem_map, List.getElem_map]
    have : 2 ^ w - 1 ≠ 0 := by
      have : 2 ^ 1 ≤ 2 ^ w := Nat.pow_le_pow_right (by decide) hw
      omega
    cases out[j].2
    · simp
    · simp only [if_true, bne_iff_ne]; exact this

/-- A result of a whole tile, element by element. -/
theorem givesTile_of_putTile {i : Instr} {s : State} {dist : Nat} {D : TileView} {out : List ((Nat × Bool) × Bool)} {src : Bool} (hw : 0 < D.w)
    (e : exec i s = .next (s.putTile dist D out src)) (hlen : out.length = D.n) (hv : ∀ x ∈ out, x.1.1 < 2 ^ D.w) {bit : Nat → Nat} {poi : Nat → Bool}
    (h : ∀ j, (hj : j < out.length) → out[j].1.1 = bit j ∧ out[j].2 = poi j) :
    GivesTile i s dist D bit poi (src || out.any fun x => x.1.2) := by
  obtain ⟨hb, hp, hj⟩ := packed_elements hw hv
  rw [hlen] at hb hp
  refine ⟨_, _, e, hb, hp, fun j hn => ?_⟩
  obtain ⟨h1, h2⟩ := h j (hlen ▸ hn)
  exact ⟨(hj j (hlen ▸ hn)).1.trans h1, (hj j (hlen ▸ hn)).2.trans h2⟩

/-- A vector word, whose tiles have legal shapes and meet its conditions or not. -/
theorem vectorGives_of_vword {i : Instr} {s : State} {dist : Nat} {l : List TileView} {okb : Bool} {ok : Prop} {D : TileView} {out : List ((Nat × Bool) × Bool)}
    {src sat : Bool} {bit : Nat → Nat} {poi : Nat → Bool} (hw : 0 < D.w)
    {body : State → State} (e : exec i s = .next (s.vword l okb body)) (hb : body s = s.putTile dist D out src) (hok : okb = true ↔ ok) (hlen : ok → out.length = D.n)
    (hv : ok → ∀ x ∈ out, x.1.1 < 2 ^ D.w) (h : ok → ∀ j, (hj : j < out.length) → out[j].1.1 = bit j ∧ out[j].2 = poi j)
    (hsat : ok → (src || out.any fun x => x.1.2) = sat) : VectorGives i s dist l ok D bit poi sat := by
  have hall : (l.all fun t => t.legal) = true ↔ ∀ t ∈ l, t.legal = true := List.all_eq_true
  refine ⟨fun ⟨hl, ho⟩ => ?_, fun hn => e.trans (congrArg _ (if_neg ?_))⟩
  · rw [← hsat ho]
    exact givesTile_of_putTile hw (e.trans (congrArg _ ((if_pos (by rw [Bool.and_eq_true, hall, hok]; exact ⟨hl, ho⟩)).trans hb))) (hlen ho) (hv ho) (h ho)
  · rwa [Bool.and_eq_true, hall, hok]

/-- A vector word that gives every element of its destination a value of its own. -/
theorem vectorGives_of_map {i : Instr} {s : State} {dist : Nat} {l : List TileView} {okb : Bool} {ok : Prop} {D : TileView} {f : Nat → (Nat × Bool) × Bool}
    {src sat : Bool} {bit : Nat → Nat} {poi : Nat → Bool} (hw : 0 < D.w)
    {body : State → State} (e : exec i s = .next (s.vword l okb body)) (hb : body s = s.putTile dist D ((List.range D.n).map f) src) (hok : okb = true ↔ ok)
    (hv : ok → ∀ j < D.n, bit j < 2 ^ D.w) (h : ok → ∀ j < D.n, (f j).1.1 = bit j ∧ (f j).2 = poi j)
    (hsat : ok → (src || (List.range D.n).any fun j => (f j).1.2) = sat) : VectorGives i s dist l ok D bit poi sat := by
  refine vectorGives_of_vword hw e hb hok (fun _ => by simp) (fun ho x hx => ?_) (fun ho j hj => ?_) fun ho => ?_
  · obtain ⟨j, hj, rfl⟩ := List.mem_map.mp hx
    rw [(h ho j (List.mem_range.mp hj)).1]
    exact hv ho j (List.mem_range.mp hj)
  · have hj' : j < D.n := by simpa using hj
    rw [List.getElem_map, List.getElem_range]
    exact h ho j hj'
  · rw [List.any_map]; exact hsat ho

/-- The same for elements that come without a clamp flag. -/
theorem vectorGives_of_bits {i : Instr} {s : State} {dist : Nat} {l : List TileView} {okb : Bool} {ok : Prop} {D : TileView} {f : Nat → (Nat × Bool) × Bool}
    {src : Bool} {bit : Nat → Nat} {poi : Nat → Bool} (hw : 0 < D.w)
    {body : State → State} (e : exec i s = .next (s.vword l okb body)) (hb : body s = s.putTile dist D ((List.range D.n).map f) src) (hok : okb = true ↔ ok)
    (hv : ok → ∀ j < D.n, bit j < 2 ^ D.w) (h : ok → ∀ j < D.n, f j = ((bit j, false), poi j)) : VectorGives i s dist l ok D bit poi src := by
  refine vectorGives_of_map hw e hb hok hv (fun ho j hj => by rw [h ho j hj]; exact ⟨rfl, rfl⟩) fun ho => ?_
  have : ((List.range D.n).any fun j => (f j).1.2) = false := List.any_eq_false.mpr fun j hj => by rw [h ho j (List.mem_range.mp hj)]; exact Bool.false_ne_true
  rw [this, Bool.or_false]

theorem vectorWraps_of_map {i : Instr} {s : State} {dist : Nat} {l : List TileView} {okb : Bool} {ok : Prop} {D : TileView} {f : Nat → (Nat × Bool) × Bool}
    {src : Bool} {v : Nat → Int} {poi : Nat → Bool} (hw : 0 < D.w)
    {body : State → State} (e : exec i s = .next (s.vword l okb body)) (hb : body s = s.putTile dist D ((List.range D.n).map f) src) (hok : okb = true ↔ ok)
    (h : ok → ∀ j < D.n, f j = (putWrap D.w (v j), poi j)) : VectorWraps i s dist l ok D v poi src :=
  vectorGives_of_bits hw e hb hok (fun _ _ _ => lowBits_lt _ _) h

theorem vectorClamps_of_map {i : Instr} {s : State} {dist : Nat} {l : List TileView} {okb : Bool} {ok : Prop} {D : TileView} {f : Nat → (Nat × Bool) × Bool}
    {src : Bool} {u : Bool} {v : Nat → Int} {poi : Nat → Bool} (hw : 0 < D.w)
    {body : State → State} (e : exec i s = .next (s.vword l okb body)) (hb : body s = s.putTile dist D ((List.range D.n).map f) src) (hok : okb = true ↔ ok)
    (h : ok → ∀ j < D.n, f j = (putSat D.w u (v j), poi j)) : VectorClamps i s dist l ok D u v poi src := by
  refine vectorGives_of_map hw e hb hok (fun _ _ _ => lowBits_lt _ _) (fun ho j hj => by rw [h ho j hj, putSat_eq]; exact ⟨rfl, rfl⟩) fun ho => ?_
  rw [anyClamps, any_range_congr fun j hj => by rw [h ho j hj, putSat_eq]]

/-! ## Words of one, two and three sources, element by element -/

theorem vun_eq (s : State) (mul : Nat) (u : Bool) (d a : BitVec 6) (okb : TileView → TileView → Bool) (f : Nat → Nat → Int → Nat × Bool) :
    s.vun mul u d a okb f = s.vword [s.tv d, s.tv a] (okb (s.tv d) (s.tv a)) fun t => t.putTile (mul * t.blocks [s.tv d, s.tv a]) (s.tv d)
      ((List.range (s.tv d).n).map fun j => (f (s.tv d).w (s.tv a).w ((s.tv a).get u j), (s.tv a).poi j)) (s.tv a).sat := rfl

theorem vbin_eq (s : State) (mul : Nat) (u : Bool) (d a b : BitVec 6) (okb : TileView → TileView → TileView → Bool) (f : Nat → Nat → Int → Int → Nat × Bool) :
    s.vbin mul u d a b okb f = s.vword [s.tv d, s.tv a, s.tv b] (okb (s.tv d) (s.tv a) (s.tv b)) fun t =>
      t.putTile (mul * t.blocks [s.tv d, s.tv a, s.tv b]) (s.tv d)
        ((List.range (s.tv d).n).map fun j => (f (s.tv d).w (s.tv a).w ((s.tv a).get u j) ((s.tv b).get u j), (s.tv a).poi j || (s.tv b).poi j))
        ((s.tv a).sat || (s.tv b).sat) := rfl

theorem vtri_eq (s : State) (mul : Nat) (u : Bool) (d a b : BitVec 6) (okb : TileView → TileView → TileView → Bool) (f : Nat → Int → Int → Int → Nat × Bool) :
    s.vtri mul u d a b okb f = s.vword [s.tv d, s.tv a, s.tv b] (okb (s.tv d) (s.tv a) (s.tv b)) fun t =>
      t.putTile (mul * t.blocks [s.tv d, s.tv a, s.tv b]) (s.tv d)
        ((List.range (s.tv d).n).map fun j =>
          (f (s.tv d).w ((s.tv a).get u j) ((s.tv b).get u j) ((s.tv d).get u j), (s.tv a).poi j || (s.tv b).poi j || (s.tv d).poi j))
        ((s.tv a).sat || (s.tv b).sat || (s.tv d).sat) := rfl

section
variable {i : Instr} {s : State} {mul : Nat} {u u' : Bool} {d a b : BitVec 6} {ok : Prop}

theorem vun_clamps {okb : TileView → TileView → Bool} {f : Nat → Nat → Int → Nat × Bool} {v : Nat → Int} (e : exec i s = .next (s.vun mul u d a okb f))
    (hok : okb (s.tv d) (s.tv a) = true ↔ ok) (h : ok → ∀ j, f (s.tv d).w (s.tv a).w ((s.tv a).get u j) = putSat (s.tv d).w u' (v j)) :
    VectorClamps i s (mul * s.blocks [s.tv d, s.tv a]) [s.tv d, s.tv a] ok (s.tv d) u' v (s.tv a).poi (s.tv a).sat :=
  vectorClamps_of_map (tv_w_pos s d) (e.trans (congrArg _ (vun_eq ..))) rfl hok fun ho j _ => by rw [h ho]

theorem vun_wraps {okb : TileView → TileView → Bool} {f : Nat → Nat → Int → Nat × Bool} {v : Nat → Int} (e : exec i s = .next (s.vun mul u d a okb f))
    (hok : okb (s.tv d) (s.tv a) = true ↔ ok) (h : ok → ∀ j, f (s.tv d).w (s.tv a).w ((s.tv a).get u j) = putWrap (s.tv d).w (v j)) :
    VectorWraps i s (mul * s.blocks [s.tv d, s.tv a]) [s.tv d, s.tv a] ok (s.tv d) v (s.tv a).poi (s.tv a).sat :=
  vectorWraps_of_map (tv_w_pos s d) (e.trans (congrArg _ (vun_eq ..))) rfl hok fun ho j _ => by rw [h ho]

theorem vbin_wraps {okb : TileView → TileView → TileView → Bool} {f : Nat → Nat → Int → Int → Nat × Bool} {v : Nat → Int}
    (e : exec i s = .next (s.vbin mul u d a b okb f)) (hok : okb (s.tv d) (s.tv a) (s.tv b) = true ↔ ok)
    (h : ok → ∀ j, f (s.tv d).w (s.tv a).w ((s.tv a).get u j) ((s.tv b).get u j) = putWrap (s.tv d).w (v j)) :
    VectorWraps i s (mul * s.blocks [s.tv d, s.tv a, s.tv b]) [s.tv d, s.tv a, s.tv b] ok (s.tv d) v (fun j => (s.tv a).poi j || (s.tv b).poi j)
      ((s.tv a).sat || (s.tv b).sat) :=
  vectorWraps_of_map (tv_w_pos s d) (e.trans (congrArg _ (vbin_eq ..))) rfl hok fun ho j _ => by rw [h ho]

theorem vbin_clamps {okb : TileView → TileView → TileView → Bool} {f : Nat → Nat → Int → Int → Nat × Bool} {v : Nat → Int}
    (e : exec i s = .next (s.vbin mul u d a b okb f)) (hok : okb (s.tv d) (s.tv a) (s.tv b) = true ↔ ok)
    (h : ok → ∀ j, f (s.tv d).w (s.tv a).w ((s.tv a).get u j) ((s.tv b).get u j) = putSat (s.tv d).w u' (v j)) :
    VectorClamps i s (mul * s.blocks [s.tv d, s.tv a, s.tv b]) [s.tv d, s.tv a, s.tv b] ok (s.tv d) u' v (fun j => (s.tv a).poi j || (s.tv b).poi j)
      ((s.tv a).sat || (s.tv b).sat) :=
  vectorClamps_of_map (tv_w_pos s d) (e.trans (congrArg _ (vbin_eq ..))) rfl hok fun ho j _ => by rw [h ho]

theorem vbin_gives {okb : TileView → TileView → TileView → Bool} {f : Nat → Nat → Int → Int → Nat × Bool} {bit : Nat → Nat}
    (e : exec i s = .next (s.vbin mul u d a b okb f)) (hok : okb (s.tv d) (s.tv a) (s.tv b) = true ↔ ok) (hb : ok → ∀ j, bit j < 2 ^ (s.tv d).w)
    (h : ok → ∀ j, f (s.tv d).w (s.tv a).w ((s.tv a).get u j) ((s.tv b).get u j) = (bit j, false)) :
    VectorGives i s (mul * s.blocks [s.tv d, s.tv a, s.tv b]) [s.tv d, s.tv a, s.tv b] ok (s.tv d) bit (fun j => (s.tv a).poi j || (s.tv b).poi j)
      ((s.tv a).sat || (s.tv b).sat) :=
  vectorGives_of_bits (tv_w_pos s d) (e.trans (congrArg _ (vbin_eq ..))) rfl hok (fun ho j _ => hb ho j) fun ho j _ => by rw [h ho]

theorem vtri_wraps {okb : TileView → TileView → TileView → Bool} {f : Nat → Int → Int → Int → Nat × Bool} {v : Nat → Int}
    (e : exec i s = .next (s.vtri mul u d a b okb f)) (hok : okb (s.tv d) (s.tv a) (s.tv b) = true ↔ ok)
    (h : ok → ∀ j, f (s.tv d).w ((s.tv a).get u j) ((s.tv b).get u j) ((s.tv d).get u j) = putWrap (s.tv d).w (v j)) :
    VectorWraps i s (mul * s.blocks [s.tv d, s.tv a, s.tv b]) [s.tv d, s.tv a, s.tv b] ok (s.tv d) v
      (fun j => (s.tv a).poi j || (s.tv b).poi j || (s.tv d).poi j) ((s.tv a).sat || (s.tv b).sat || (s.tv d).sat) :=
  vectorWraps_of_map (tv_w_pos s d) (e.trans (congrArg _ (vtri_eq ..))) rfl hok fun ho j _ => by rw [h ho]

theorem vtri_clamps {okb : TileView → TileView → TileView → Bool} {f : Nat → Int → Int → Int → Nat × Bool} {v : Nat → Int}
    (e : exec i s = .next (s.vtri mul u d a b okb f)) (hok : okb (s.tv d) (s.tv a) (s.tv b) = true ↔ ok)
    (h : ok → ∀ j, f (s.tv d).w ((s.tv a).get u j) ((s.tv b).get u j) ((s.tv d).get u j) = putSat (s.tv d).w u' (v j)) :
    VectorClamps i s (mul * s.blocks [s.tv d, s.tv a, s.tv b]) [s.tv d, s.tv a, s.tv b] ok (s.tv d) u' v
      (fun j => (s.tv a).poi j || (s.tv b).poi j || (s.tv d).poi j) ((s.tv a).sat || (s.tv b).sat || (s.tv d).sat) :=
  vectorClamps_of_map (tv_w_pos s d) (e.trans (congrArg _ (vtri_eq ..))) rfl hok fun ho j _ => by rw [h ho]

end

/-- The conditions on the shapes of two sources and a destination (R183, R186). -/
theorem grids_iff (D A B : TileView) (x : Bool) {p : Prop} (h : x = true ↔ p) :
    (A.grid D && B.grid D && A.w == B.w && x) = true ↔ (SameGrid A D ∧ SameGrid B D ∧ A.w = B.w) ∧ p := by
  simp only [Bool.and_eq_true, grid_iff, beq_iff_eq, h, and_assoc]

/-- Settles O28. -/
theorem vectorArithmetic : Obligations.VectorArithmetic := by
  unfold Obligations.VectorArithmetic
  intro s q st un d a b
  have le := grids_iff (s.tv d) (s.tv a) (s.tv b) _ (decide_eq_true_iff (p := (s.tv a).w ≤ (s.tv d).w))
  have eq := grids_iff (s.tv d) (s.tv a) (s.tv b) _ (beq_iff_eq (a := (s.tv a).w) (b := (s.tv d).w))
  refine ⟨fun h => vbin_wraps (runs_of_word (exec_vadd s q un d a b) h) le fun _ _ => rfl, fun h => vbin_wraps (runs_of_word (exec_vsub s q un d a b) h) le fun _ _ => rfl,
    fun h => vbin_clamps (runs_of_word (exec_vadds s q un d a b) h) le fun _ _ => rfl, fun h => vbin_clamps (runs_of_word (exec_vsubs s q un d a b) h) le fun _ _ => rfl,
    fun hs h => vbin_wraps (runs_of_word (exec_vmul s q st un d a b) h) le fun _ _ => if_neg hs,
    fun hs h => vbin_clamps (runs_of_word (exec_vmul s q st un d a b) h) le fun _ _ => if_pos hs,
    fun h => vbin_wraps (runs_of_word (exec_vmulh s q un d a b) h) eq fun _ _ => ?_, fun h => vbin_wraps (runs_of_word (exec_vmin s q un d a b) h) eq fun _ _ => rfl,
    fun h => vbin_wraps (runs_of_word (exec_vmax s q un d a b) h) eq fun _ _ => rfl,
    fun h => ⟨fun hs => vtri_wraps (runs_of_word (exec_vmac s q st un d a b) h) le fun _ _ => if_neg hs,
      fun hs => vtri_clamps (runs_of_word (exec_vmac s q st un d a b) h) le fun _ _ => if_pos hs⟩⟩
  rw [asr]; norm_cast

/-! ## Bitwise words, comparisons and selection (R187, R198, R199) -/

theorem putWrap_natCast {w n : Nat} (h : n < 2 ^ w) : putWrap w (n : Int) = (n, false) := congrArg (·, false) (lowBits_natCast h)

theorem get_eq_iff {t u : TileView} (h : t.w = u.w) (j : Nat) : t.get false j = u.get false j ↔ t.bit j = u.bit j := by
  constructor
  · intro he
    rw [← lowBits_get t false j, he, h, lowBits_get]
  · intro he
    change signExt t.w (t.bit j : Int) = signExt u.w (u.bit j : Int)
    rw [he, h]

theorem get_eq_zero_iff (t : TileView) (j : Nat) : t.get false j = 0 ↔ t.bit j = 0 := by
  constructor
  · intro he
    rw [← lowBits_get t false j, he]
    exact lowBits_natCast (n := 0) (Nat.two_pow_pos _)
  · intro he
    have hp : 0 < 2 ^ (t.w - 1) := Nat.two_pow_pos _
    change signExt t.w (t.bit j : Int) = 0
    simp only [signExt, he, lowBits_natCast (n := 0) (Nat.two_pow_pos t.w)]
    rw [if_neg (by omega)]
    rfl

theorem lowBits_neg_one (w : Nat) : lowBits w (-1) = 2 ^ w - 1 := by
  have h1 : ((2 ^ w - 1 : Nat) : Int) = 2 ^ w - 1 := by rw [Nat.cast_sub (Nat.one_le_two_pow)]; norm_cast
  have : (lowBits w (-1) : Int) = (2 ^ w - 1 : Nat) := by
    rw [cast_lowBits, h1, show (-1 : Int) = (2 ^ w - 1) + (-1) * 2 ^ w by ring, Int.add_mul_emod_self_right, Int.emod_eq_of_lt]
    · have : (0 : Int) < 2 ^ w := by positivity
      omega
    · omega
  exact_mod_cast this

/-- A comparison writes all ones or zero. -/
theorem putWrap_compare (w : Nat) {p : Prop} [Decidable p] {c : Bool} (h : p ↔ c = true) :
    putWrap w (if p then -1 else 0) = (if c then 2 ^ w - 1 else 0, false) := by
  by_cases hp : p
  · rw [if_pos hp, if_pos (h.mp hp), putWrap, lowBits_neg_one]
  · rw [if_neg hp, if_neg (fun hc => hp (h.mpr hc))]
    exact putWrap_natCast (n := 0) (Nat.two_pow_pos w)

theorem mask_lt (w : Nat) (c : Bool) : (if c then 2 ^ w - 1 else 0) < 2 ^ w := by
  have := Nat.two_pow_pos w
  split <;> omega

theorem xor_and_eq {w x y : Nat} (hx : x < 2 ^ w) : x ^^^ (x &&& y) = x &&& (2 ^ w - 1 - y % 2 ^ w) := by
  apply Nat.eq_of_testBit_eq
  intro j
  have hy : y % 2 ^ w < 2 ^ w := Nat.mod_lt _ (Nat.two_pow_pos w)
  rw [Nat.sub_sub, Nat.add_comm 1, Nat.testBit_xor, Nat.testBit_and, Nat.testBit_and, Nat.testBit_two_pow_sub_succ hy, Nat.testBit_mod_two_pow]
  by_cases hj : j < w
  · cases x.testBit j <;> simp [hj]
  · have : x.testBit j = false := Nat.testBit_lt_two_pow (hx.trans_le (Nat.pow_le_pow_right (by decide) (by omega)))
    simp [this]

theorem testBit_lutBits (lut x y z : Nat) : ∀ w, lutBits lut x y z w < 2 ^ w ∧ ∀ k < w, (lutBits lut x y z w).testBit k =
    lut.testBit ((if x.testBit k then 4 else 0) + (if y.testBit k then 2 else 0) + (if z.testBit k then 1 else 0))
  | 0 => ⟨Nat.one_pos, fun k h => absurd h (Nat.not_lt_zero k)⟩
  | w + 1 => by
    obtain ⟨hlt, ih⟩ := testBit_lutBits lut x y z w
    obtain ⟨c, hc⟩ : ∃ c, lut.testBit ((if x.testBit w then 4 else 0) + (if y.testBit w then 2 else 0) + (if z.testBit w then 1 else 0)) = c := ⟨_, rfl⟩
    have hsplit : lutBits lut x y z (w + 1) = (if c then 2 ^ w else 0) + lutBits lut x y z w := by rw [← hc]; rfl
    have hpow : 2 ^ (w + 1) = 2 ^ w + 2 ^ w := by rw [Nat.pow_succ]; omega
    rw [hsplit]
    refine ⟨by split <;> omega, fun k hk => ?_⟩
    rcases Nat.lt_succ_iff_lt_or_eq.mp hk with h | rfl
    · rw [← ih k h]
      cases c
      · exact congrArg (Nat.testBit · k) (Nat.zero_add _)
      · exact Nat.testBit_two_pow_add_gt h _
    · rw [hc]
      cases c
      · exact (congrArg (Nat.testBit · k) (Nat.zero_add _)).trans (Nat.testBit_lt_two_pow hlt)
      · rw [if_pos rfl, Nat.testBit_two_pow_add_eq, Nat.testBit_lt_two_pow hlt]; rfl

/-- The high word of a funnel shift left (R199). -/
theorem funnel_left {w k x y : Nat} (hk : k < w) : (x * 2 ^ w + y) * 2 ^ k / 2 ^ w % 2 ^ w = (x * 2 ^ k + y / 2 ^ (w - k)) % 2 ^ w := by
  have hw : 2 ^ w = 2 ^ k * 2 ^ (w - k) := by rw [← Nat.pow_add]; congr 1; omega
  have h1 : (x * 2 ^ w + y) * 2 ^ k / 2 ^ w = x * 2 ^ k + y / 2 ^ (w - k) := by
    have h2 : (x * 2 ^ w + y) * 2 ^ k = 2 ^ w * (x * 2 ^ k) + y * 2 ^ k := by ring
    have h3 : y * 2 ^ k / 2 ^ w = y / 2 ^ (w - k) := by rw [hw, Nat.mul_comm y, Nat.mul_div_mul_left _ _ (Nat.two_pow_pos k)]
    rw [h2, Nat.mul_add_div (Nat.two_pow_pos w), h3]
  rw [h1]

/-- The low word of a funnel shift right (R199). -/
theorem funnel_right {w k x y : Nat} (hk : k < w) : (y * 2 ^ w + x) / 2 ^ k % 2 ^ w = (x / 2 ^ k + y * 2 ^ (w - k)) % 2 ^ w := by
  have hw : 2 ^ w = 2 ^ k * 2 ^ (w - k) := by rw [← Nat.pow_add]; congr 1; omega
  have h1 : (y * 2 ^ w + x) / 2 ^ k = x / 2 ^ k + y * 2 ^ (w - k) := by
    rw [hw, show y * (2 ^ k * 2 ^ (w - k)) + x = 2 ^ k * (y * 2 ^ (w - k)) + x by ring, Nat.mul_add_div (Nat.two_pow_pos k), Nat.add_comm]
  rw [h1]

/-- Settles O29. -/
theorem vectorLogicAndComparisons : Obligations.VectorLogicAndComparisons := by
  unfold Obligations.VectorLogicAndComparisons
  intro s q d a b n D A B L poi grids gives mask
  have eqw : (A.grid D && B.grid D && A.w == B.w && A.w == D.w) = true ↔ grids ∧ A.w = B.w ∧ A.w = D.w := by
    simp only [grids, Bool.and_eq_true, grid_iff, beq_iff_eq, and_assoc]
  have cmp : (A.grid D && B.grid D && A.w == B.w) = true ↔ grids ∧ A.w = B.w := by
    simp only [grids, Bool.and_eq_true, grid_iff, beq_iff_eq, and_assoc]
  have same : (A.same D && B.same D) = true ↔ grids ∧ A.w = B.w ∧ A.w = D.w := by
    simp only [grids, Bool.and_eq_true, same_iff, SameShape]
    constructor
    · rintro ⟨⟨h1, h2⟩, h3, h4⟩; exact ⟨⟨h1, h3⟩, h2.trans h4.symm, h2⟩
    · rintro ⟨⟨h1, h3⟩, h4, h2⟩; exact ⟨⟨h1, h2⟩, h3, h4.symm.trans h2⟩
  have ltA (h : grids ∧ A.w = B.w ∧ A.w = D.w) (j : Nat) : A.bit j < 2 ^ D.w := h.2.2 ▸ bit_lt A j
  have ltB (h : grids ∧ A.w = B.w ∧ A.w = D.w) (j : Nat) : B.bit j < 2 ^ D.w := by rw [← h.2.2, h.2.1]; exact bit_lt B j
  have compares {i : Instr} {u : Bool} {f : Nat → Nat → Int → Int → Nat × Bool} {c : Nat → Bool} (e : Runs i s → exec i s = .next (s.vbin 4 u d a b
      (fun D A B => A.grid D && B.grid D && A.w == B.w) f))
      (h : A.w = B.w → ∀ j, f D.w A.w (A.get u j) (B.get u j) = (if c j then 2 ^ D.w - 1 else 0, false)) : gives i (A.w = B.w) (mask c) := fun hr =>
    vbin_gives (e hr) cmp (fun _ j => mask_lt D.w (c j)) fun ho => h ho.2
  refine ⟨fun h => vbin_gives (runs_of_word (exec_vand s q d a b) h) eqw (fun ho j => Nat.and_lt_two_pow _ (ltB ho j)) fun ho j => ?_,
    fun h => vbin_gives (runs_of_word (exec_vor s q d a b) h) eqw (fun ho j => Nat.or_lt_two_pow (ltA ho j) (ltB ho j)) fun ho j => ?_,
    fun h => vbin_gives (runs_of_word (exec_vxor s q d a b) h) eqw (fun ho j => Nat.xor_lt_two_pow (ltA ho j) (ltB ho j)) fun ho j => ?_,
    fun h => vbin_gives (runs_of_word (exec_vandn s q d a b) h) eqw (fun ho j => (Nat.and_le_left).trans_lt (ltA ho j)) fun ho j => ?_,
    compares (runs_of_word (exec_vcmpEq s q d a b)) fun hw j => putWrap_compare D.w ((get_eq_iff hw j).trans (by simp)),
    compares (runs_of_word (exec_vcmpNe s q d a b)) fun hw j => putWrap_compare D.w ((get_eq_iff hw j).not.trans (by simp)),
    compares (runs_of_word (exec_vcmpLt s q d a b)) fun hw j => putWrap_compare D.w (by simp),
    compares (runs_of_word (exec_vcmpGe s q d a b)) fun hw j => putWrap_compare D.w (by simp),
    compares (runs_of_word (exec_vcmpLtw s q d a b)) fun hw j => putWrap_compare D.w ?_,
    compares (runs_of_word (exec_vcmpGew s q d a b)) fun hw j => putWrap_compare D.w ?_, fun h => ?_,
    fun h => vbin_gives (runs_of_word (exec_vfsl s q d a b n) h) same (fun _ _ => Nat.mod_lt _ (Nat.two_pow_pos _)) fun ho j => ?_,
    fun h => vbin_gives (runs_of_word (exec_vfsr s q d a b n) h) same (fun _ _ => Nat.mod_lt _ (Nat.two_pow_pos _)) fun ho j => ?_, fun l d5 b5 h => ?_⟩
  · exact putWrap_natCast (Nat.and_lt_two_pow _ (ltB ho j))
  · exact putWrap_natCast (Nat.or_lt_two_pow (ltA ho j) (ltB ho j))
  · exact putWrap_natCast (Nat.xor_lt_two_pow (ltA ho j) (ltB ho j))
  · have hx := xor_and_eq (y := B.bit j) (ltA ho j)
    rw [Nat.mod_eq_of_lt (ltB ho j)] at hx
    change putWrap D.w ((A.bit j ^^^ (A.bit j &&& B.bit j) : Nat) : Int) = _
    rw [hx]
    exact putWrap_natCast (Nat.and_le_left.trans_lt (ltA ho j))
  · change (A.bit j : Int) < (B.bit j : Int) ↔ _
    simp
  · change (B.bit j : Int) ≤ (A.bit j : Int) ↔ _
    simp
  · refine vectorGives_of_bits (tv_w_pos s d) ((runs_of_word (exec_vsel s q d a b) h).trans (congrArg _ (vtri_eq ..))) rfl ?_ (fun ho j _ => ?_) fun ho j _ => ?_
    · simp only [grids, Bool.and_eq_true, grid_iff, beq_iff_eq]; rfl
    · split
      · exact ho.2 ▸ bit_lt A j
      · exact bit_lt D j
    · refine congrArg (·, _) (congrArg (·, false) ?_)
      by_cases hb : B.bit j = 0
      · rw [if_neg (not_not_intro ((get_eq_zero_iff _ _).mpr hb)), if_neg (not_not_intro hb)]
        exact lowBits_get D false j
      · rw [if_pos (fun h => hb ((get_eq_zero_iff _ _).mp h)), if_pos hb, ← lowBits_get A false j, ho.2]
  · have hk : n.toNat % D.w < D.w := Nat.mod_lt _ (tv_w_pos s d)
    change putWrap D.w (((A.bit j : Int) * 2 ^ D.w + (B.bit j : Int)) * 2 ^ (n.toNat % D.w) / 2 ^ D.w) = _
    rw [← funnel_left hk]
    refine congrArg (·, false) ?_
    rw [lowBits]
    norm_cast
  · have hk : n.toNat % D.w < D.w := Nat.mod_lt _ (tv_w_pos s d)
    change putWrap D.w (((B.bit j : Int) * 2 ^ D.w + (A.bit j : Int)) / 2 ^ (n.toNat % D.w)) = _
    rw [← funnel_right hk]
    refine congrArg (·, false) ?_
    rw [lowBits]
    norm_cast
  · intro D B
    refine ⟨fun j => lutBits l.toNat (D.bit j) (A.bit j) (B.bit j) D.w,
      vectorGives_of_bits (tv_w_pos s _) (runs_of_word (exec_vlut3 s q l d5 a b5) h) rfl ?_ (fun _ j _ => (testBit_lutBits _ _ _ _ _).1) fun _ _ _ => rfl,
      fun j k hk => (testBit_lutBits _ _ _ _ _).2 k hk⟩
    simp only [Bool.and_eq_true, same_iff]
    rfl

/-! ## Shifts, narrowing, conversion and words of one source (R189 to R192) -/

/-- A signed value of a tile stands for its stored bits modulo 2^w. -/
theorem get_emod (t : TileView) (u : Bool) (j : Nat) : t.get u j % 2 ^ t.w = (t.bit j : Int) := by
  rw [← cast_lowBits, lowBits_get]

theorem asr_natCast (x n : Nat) : asr (x : Int) n = ((x / 2 ^ n : Nat) : Int) := by rw [asr]; norm_cast

theorem lowBits_natCast_mod (w n : Nat) : lowBits w (n : Int) = n % 2 ^ w := by
  rw [lowBits]; norm_cast

/-- A shift left of the signed value stores the shifted bits. -/
theorem lowBits_get_shl {t : TileView} {w : Nat} (h : t.w = w) (j k : Nat) : lowBits w (t.get false j * 2 ^ k) = t.bit j * 2 ^ k % 2 ^ w := by
  subst h
  have hmod : t.get false j ≡ (t.bit j : Int) [ZMOD 2 ^ t.w] := by
    rw [Int.ModEq, get_emod, Int.emod_eq_of_lt (by omega) (by exact_mod_cast bit_lt t j)]
  rw [lowBits_congr (hmod.mul_right (2 ^ k)), ← lowBits_natCast_mod]
  norm_cast

theorem zipIdx_five (a b c d e : Nat) : [a, b, c, d, e].zipIdx = [(a, 0), (b, 1), (c, 2), (d, 3), (e, 4)] := rfl

/-- The word of a shift, whose counts are an immediate, a scalar or a tile (R189). -/
theorem shift_gives {i : Instr} {s : State} {D A B : TileView} {sat : Bool} {f : Nat → Int} {bit : Nat → Nat} {poi : Nat → Bool} (hw : 0 < D.w)
    (e : exec i s = .next (s.vword [D, A, B] (A.same D && B.grid A) fun t =>
      t.putTile (4 * t.blocks [D, A, B]) D ((List.range D.n).map fun j => (putWrap D.w (f j), poi j)) sat))
    (hb : A.w = D.w → ∀ j, bit j < 2 ^ D.w) (h : A.w = D.w → ∀ j, lowBits D.w (f j) = bit j) :
    VectorGives i s (4 * s.blocks [D, A, B]) [D, A, B] (SameShape A D ∧ SameGrid B A) D bit poi sat := by
  refine vectorGives_of_bits hw e rfl ?_ (fun ho j _ => hb ho.1.2 j) fun ho j _ => ?_
  · rw [Bool.and_eq_true, same_iff, grid_iff]
  · rw [putWrap, h ho.1.2 j]

theorem vshl_gives {A D : TileView} {k : Nat → Nat} :
    (∀ j, (if D.w ≤ k j then 0 else A.bit j * 2 ^ k j % 2 ^ D.w) < 2 ^ D.w) ∧
    (A.w = D.w → ∀ j, lowBits D.w (if A.w ≤ k j then 0 else A.get false j * 2 ^ k j) = if D.w ≤ k j then 0 else A.bit j * 2 ^ k j % 2 ^ D.w) := by
  refine ⟨fun j => ?_, fun hA j => ?_⟩
  · split
    · exact Nat.two_pow_pos _
    · exact Nat.mod_lt _ (Nat.two_pow_pos _)
  · rw [← hA]
    split
    · exact lowBits_natCast (n := 0) (Nat.two_pow_pos _)
    · exact lowBits_get_shl rfl _ _

theorem vshr_gives {A D : TileView} {k : Nat → Nat} (hA : A.w = D.w) (j : Nat) :
    (if D.w ≤ k j then 0 else A.bit j / 2 ^ k j) < 2 ^ D.w ∧
    lowBits D.w (if A.w ≤ k j then 0 else asr (A.get true j) (k j)) = if D.w ≤ k j then 0 else A.bit j / 2 ^ k j := by
  have hlt : A.bit j / 2 ^ k j < 2 ^ A.w := (Nat.div_le_self _ _).trans_lt (bit_lt A j)
  rw [← hA]
  split
  · exact ⟨Nat.two_pow_pos _, lowBits_natCast (n := 0) (Nat.two_pow_pos _)⟩
  · exact ⟨hlt, (congrArg (lowBits A.w) (asr_natCast (A.bit j) (k j))).trans (lowBits_natCast hlt)⟩

/-- The operand of a shift: an immediate, a scalar or a tile of counts, with the poison and the SAT that it brings (R189). -/
def shiftTile (s : State) (x : BitVec 2) (a b : BitVec 6) : TileView := if x = 2 then s.tv b else s.tv a
def shiftBy (s : State) (x : BitVec 2) (a b : BitVec 6) (j : Nat) : Nat :=
  if x = 0 then b.toNat else if x = 1 then (s.cur.s (b.extractLsb' 0 5)).toNat else (shiftTile s x a b).bit j
def shiftPoi (s : State) (x : BitVec 2) (a b : BitVec 6) (j : Nat) : Bool := (s.tv a).poi j || (x == 2 && (shiftTile s x a b).poi j)
def shiftSat (s : State) (x : BitVec 2) (a b : BitVec 6) : Bool := (s.tv a).sat || (x == 2 && (shiftTile s x a b).sat)

/-- A shift word, with the value that it puts into each element. -/
def shiftWord (s : State) (x : BitVec 2) (d a b : BitVec 6) (f : Nat → Int) : State :=
  s.vword [s.tv d, s.tv a, shiftTile s x a b] ((s.tv a).same (s.tv d) && (shiftTile s x a b).grid (s.tv a)) fun t =>
    t.putTile (4 * t.blocks [s.tv d, s.tv a, shiftTile s x a b]) (s.tv d) ((List.range (s.tv d).n).map fun j => (putWrap (s.tv d).w (f j), shiftPoi s x a b j))
      (shiftSat s x a b)

section
variable {s : State} {q x : BitVec 2} {d a b : BitVec 6}

theorem vshl_shiftWord (h : Runs (.vshl q x d a b) s) : exec (.vshl q x d a b) s =
    .next (shiftWord s x d a b fun j => if (s.tv a).w ≤ shiftBy s x a b j then 0 else (s.tv a).get false j * 2 ^ shiftBy s x a b j) :=
  runs_of_word (exec_vshl s q x d a b) h

theorem vshr_shiftWord (h : Runs (.vshr q x d a b) s) : exec (.vshr q x d a b) s =
    .next (shiftWord s x d a b fun j => if (s.tv a).w ≤ shiftBy s x a b j then 0 else asr ((s.tv a).get true j) (shiftBy s x a b j)) :=
  runs_of_word (exec_vshr s q x d a b) h

theorem vsar_shiftWord (h : Runs (.vsar q x d a b) s) : exec (.vsar q x d a b) s =
    .next (shiftWord s x d a b fun j => asr ((s.tv a).get false j) (min (shiftBy s x a b j) ((s.tv a).w - 1))) :=
  runs_of_word (exec_vsar s q x d a b) h

theorem shiftWord_gives {i : Instr} {f : Nat → Int} {bit : Nat → Nat} (e : exec i s = .next (shiftWord s x d a b f))
    (hb : (s.tv a).w = (s.tv d).w → ∀ j, bit j < 2 ^ (s.tv d).w) (h : (s.tv a).w = (s.tv d).w → ∀ j, lowBits (s.tv d).w (f j) = bit j) :
    VectorGives i s (4 * s.blocks [s.tv d, s.tv a, shiftTile s x a b]) [s.tv d, s.tv a, shiftTile s x a b]
      (SameShape (s.tv a) (s.tv d) ∧ SameGrid (shiftTile s x a b) (s.tv a)) (s.tv d) bit (shiftPoi s x a b) (shiftSat s x a b) :=
  shift_gives (tv_w_pos s d) e hb h

theorem vshl_spec (h : Runs (.vshl q x d a b) s) : VectorGives (.vshl q x d a b) s (4 * s.blocks [s.tv d, s.tv a, shiftTile s x a b])
    [s.tv d, s.tv a, shiftTile s x a b] (SameShape (s.tv a) (s.tv d) ∧ SameGrid (shiftTile s x a b) (s.tv a)) (s.tv d)
    (fun j => if (s.tv d).w ≤ shiftBy s x a b j then 0 else (s.tv a).bit j * 2 ^ shiftBy s x a b j % 2 ^ (s.tv d).w) (shiftPoi s x a b) (shiftSat s x a b) :=
  shiftWord_gives (vshl_shiftWord h) (fun _ => vshl_gives.1) vshl_gives.2

theorem vshr_spec (h : Runs (.vshr q x d a b) s) : VectorGives (.vshr q x d a b) s (4 * s.blocks [s.tv d, s.tv a, shiftTile s x a b])
    [s.tv d, s.tv a, shiftTile s x a b] (SameShape (s.tv a) (s.tv d) ∧ SameGrid (shiftTile s x a b) (s.tv a)) (s.tv d)
    (fun j => if (s.tv d).w ≤ shiftBy s x a b j then 0 else (s.tv a).bit j / 2 ^ shiftBy s x a b j) (shiftPoi s x a b) (shiftSat s x a b) :=
  shiftWord_gives (vshr_shiftWord h) (fun hA j => (vshr_gives hA j).1) fun hA j => (vshr_gives hA j).2

theorem vsar_spec (h : Runs (.vsar q x d a b) s) : VectorWraps (.vsar q x d a b) s (4 * s.blocks [s.tv d, s.tv a, shiftTile s x a b])
    [s.tv d, s.tv a, shiftTile s x a b] (SameShape (s.tv a) (s.tv d) ∧ SameGrid (shiftTile s x a b) (s.tv a)) (s.tv d)
    (fun j => (s.tv a).get false j / 2 ^ min (shiftBy s x a b j) ((s.tv d).w - 1)) (shiftPoi s x a b) (shiftSat s x a b) := by
  refine shiftWord_gives (vsar_shiftWord h) (fun _ _ => lowBits_lt _ _) fun hA j => ?_
  rw [hA, asr]
  norm_cast

end

theorem rounding_go (s : State) (m : BitVec 2) (i : Nat) (x : Int) (n : Nat) :
    (s.rounding m).go i x n = roundBy m s.cur.ctl.seed.toNat s.cur.ctl.step.toNat i x n := rfl

/-- VSHRN, with the index of each element that it hashes (R190). -/
theorem vshrn_spec {s : State} {q m : BitVec 2} {d a b : BitVec 6} {ext : Option (BitVec 25)} {idx : Nat → Nat}
    (hidx : ∀ j, tileIndex (ext.map fun e => s.cur.regs.h[(e.extractLsb' 0 4).toNat]) (s.tv d).cols j = idx j) (h : Runs (.vshrn q m d a b ext) s) :
    VectorClamps (.vshrn q m d a b ext) s (5 * s.blocks [s.tv d, s.tv a]) [s.tv d, s.tv a] (SameGrid (s.tv a) (s.tv d) ∧ 8 ≤ (s.tv a).w ∧ (s.tv d).w ≤ (s.tv a).w)
      (s.tv d) false (fun j => roundBy m s.cur.ctl.seed.toNat s.cur.ctl.step.toNat (idx j) ((s.tv a).get false j) (s.shiftCount b)) (s.tv a).poi (s.tv a).sat := by
  have e : exec (.vshrn q m d a b ext) s = .next (s.vword [s.tv d, s.tv a]
      ((s.tv a).grid (s.tv d) && decide (8 ≤ (s.tv a).w) && decide ((s.tv d).w ≤ (s.tv a).w)) fun t =>
      t.putTile (5 * t.blocks [s.tv d, s.tv a]) (s.tv d) ((List.range (s.tv d).n).map fun j => (putSat (s.tv d).w false
        ((t.rounding m).go (tileIndex (ext.map fun e => t.cur.regs.h[(e.extractLsb' 0 4).toNat]) (s.tv d).cols j) ((s.tv a).get false j) (t.shiftCount b)),
          (s.tv a).poi j)) (s.tv a).sat) := runs_of_word (exec_vshrn s q m d a b ext) h
  refine vectorClamps_of_map (tv_w_pos s d) e rfl ?_ fun _ j _ => ?_
  · simp only [Bool.and_eq_true, decide_eq_true_eq, grid_iff, and_assoc]
  · rw [hidx, rounding_go]

theorem vmov_spec {s : State} {q : BitVec 2} {d a : BitVec 6} (h : Runs (.vmov q d a) s) :
    VectorGives (.vmov q d a) s (4 * s.blocks [s.tv d, s.tv a]) [s.tv d, s.tv a] (SameShape (s.tv a) (s.tv d)) (s.tv d) (s.tv a).bit (s.tv a).poi (s.tv a).sat := by
  refine vectorGives_of_bits (tv_w_pos s d) ((runs_of_word (exec_vmov s q d a) h).trans (congrArg _ (vun_eq ..))) rfl (same_iff _ _)
    (fun ho j _ => ho.2 ▸ bit_lt (s.tv a) j) fun ho j _ => ?_
  rw [← ho.2, putWrap, lowBits_get]

/-- Settles O30. -/
theorem vectorShiftsAndUnary : Obligations.VectorShiftsAndUnary := by
  unfold Obligations.VectorShiftsAndUnary
  intro s q x m d a b st un ext
  have grid := grid_iff (s.tv a) (s.tv d)
  have same := same_iff (s.tv a) (s.tv d)
  exact ⟨vshl_spec, vshr_spec, vsar_spec, vshrn_spec fun j => by cases ext <;> rfl,
    fun h => vun_clamps (runs_of_word (exec_vcvt s q un d a b) h) grid fun _ _ => rfl,
    fun h => ⟨fun hs => vun_wraps (runs_of_word (exec_vabs s q st d a) h) same fun _ j => (if_neg hs).trans (congrArg (putWrap _) (Int.natCast_natAbs _)),
      fun hs => vun_clamps (runs_of_word (exec_vabs s q st d a) h) same fun _ j => (if_pos hs).trans (congrArg (putSat _ false) (Int.natCast_natAbs _))⟩,
    fun h => ⟨fun hs => vun_wraps (runs_of_word (exec_vneg s q st d a) h) same fun _ _ => if_neg hs,
      fun hs => vun_clamps (runs_of_word (exec_vneg s q st d a) h) same fun _ _ => if_pos hs⟩,
    fun h => vun_clamps (runs_of_word (exec_vclz s q d a) h) grid fun _ j => by rw [lowBits_get],
    fun h => vun_clamps (runs_of_word (exec_vcls s q d a) h) grid fun _ _ => rfl,
    fun h => vun_clamps (runs_of_word (exec_vpopc s q d a) h) grid fun _ j => by rw [lowBits_get, popCount_eq_countP],
    vmov_spec⟩

/-! ## Words that move elements (R191 to R194, R200) -/

/-- A word that takes every element from a place of one tile. -/
theorem moves_of_map {i : Instr} {s : State} {dist : Nat} {l : List TileView} {okb : Bool} {ok : Prop} {D A : TileView} {src src' : Nat → Nat} {sat : Bool}
    {body : State → State} (hw : 0 < D.w) (e : exec i s = .next (s.vword l okb body))
    (hb : body s = s.putTile dist D ((List.range D.n).map fun j => ((A.bit (src' j), false), A.poi (src' j))) sat) (hok : okb = true ↔ ok) (hA : ok → A.w = D.w)
    (hs : ok → ∀ j, src' j = src j) : VectorGives i s dist l ok D (fun j => A.bit (src j)) (fun j => A.poi (src j)) sat :=
  vectorGives_of_bits hw e hb hok (fun ho j _ => hA ho ▸ bit_lt A (src j)) fun ho j _ => by rw [hs ho]

/-- The first place at which two tiles differ (R200). -/
theorem find?_range_eq_some {n j : Nat} {p : Nat → Bool} (hj : j < n) (hp : p j = true) (h : ∀ k < j, p k = false) : (List.range n).find? p = some j := by
  rw [List.find?_range_eq_some]
  exact ⟨hp, List.mem_range.mpr hj, fun k hk => by simp [h k hk]⟩

/-- Settles O31. -/
theorem vectorMoves : Obligations.VectorMoves := by
  unfold Obligations.VectorMoves
  intro s q d a b x e c ext D A B L3 L2 row col from_
  have hw : 0 < D.w := tv_w_pos s d
  refine ⟨fun h => ?_, fun h => ?_, fun h => ?_, fun h => ?_, fun h => ?_, fun h => ?_, fun h => ?_, fun h => ?_, fun h => ?_⟩
  · refine moves_of_map (src' := fun j => j / D.cols * D.cols + B.bit j % A.cols) hw (runs_of_word (exec_vperm s q d a b) h) ?_ ?_ (fun ho => ho.2.2) fun ho j => ?_
    · dsimp only; rw [List.map_map]; rfl
    · simp only [Bool.and_eq_true, grid_iff, beq_iff_eq, and_assoc]; rfl
    · rw [ho.1.2]
  · refine vectorGives_of_bits hw (runs_of_word (exec_vgath s q d a b) h) rfl ?_ (fun ho j _ => ?_) fun ho j _ => ?_
    · simp only [Bool.and_eq_true, grid_iff, beq_iff_eq]; rfl
    · split
      · exact ho.2 ▸ bit_lt A _
      · exact Nat.two_pow_pos _
    · by_cases hb : B.bit j < A.n
      · simp only [if_pos hb, decide_eq_true hb, Bool.true_and]; exact if_pos hb
      · simp only [if_neg hb, decide_eq_false hb, Bool.false_and]; exact if_neg hb
  · exact moves_of_map hw (runs_of_word (exec_vrotl s q x d a b ext) h) rfl (same_iff A D) (fun ho => ho.2) fun _ _ => rfl
  · exact moves_of_map hw (runs_of_word (exec_vbcastRow s q d a) h) rfl (same_iff A D) (fun ho => ho.2) fun _ _ => rfl
  · exact moves_of_map hw (runs_of_word (exec_vbcastCol s q d a) h) rfl (same_iff A D) (fun ho => ho.2) fun _ _ => rfl
  · exact vectorWraps_of_map hw (runs_of_word (exec_vbcast s q d c) h) rfl (by simp) fun _ _ _ => rfl
  · intro ok src v poi
    have e := runs_of_word (exec_vpack s q x d a b) h
    have hok : (A.same B && decide (8 ≤ A.w) && D.w * 2 == A.w && D.cols == A.cols && D.rows == 2 * A.rows) = true ↔ ok := by
      simp only [ok, Bool.and_eq_true, same_iff, decide_eq_true_eq, beq_iff_eq, and_assoc, Nat.mul_comm D.w]
    exact ⟨fun hx => vectorWraps_of_map hw e rfl hok fun _ j _ => congrArg (·, poi j) (if_pos hx),
      fun hx => vectorClamps_of_map hw e rfl hok fun _ j _ => congrArg (·, poi j) (if_neg hx)⟩
  · refine vectorWraps_of_map hw (runs_of_word (exec_vunpk s q x d a e) h) rfl ?_ fun ho j _ => ?_
    · simp only [Bool.and_eq_true, decide_eq_true_eq, beq_iff_eq, and_assoc, Nat.mul_comm (s.tv d).rows]
      rfl
    · have hc : A.cols = D.cols := ho.2.2.2.1.symm
      change (putWrap D.w (A.get (x == 1) ((2 * (j / D.cols) + e.toNat) * A.cols + j % D.cols)), A.poi ((2 * (j / D.cols) + e.toNat) * A.cols + j % D.cols)) = _
      rw [hc]
  · have run := runs_of_word (exec_vcmpt s q a b) h
    have legal : ((([A, B].all fun t => t.legal) && A.same B) = true) ↔ A.legal = true ∧ B.legal = true ∧ SameShape A B := by
      simp [same_iff, and_assoc]
    refine ⟨fun hl he => ?_, fun hl j hj hne hk => ?_, fun hl => run.trans (congrArg _ (if_neg (legal.not.mpr hl)))⟩
    · have hf : (List.range A.n).find? (fun i => A.bit i != B.bit i) = none := by
        rw [List.find?_eq_none]
        intro i hi
        simpa using he i (List.mem_range.mp hi)
      refine run.trans (congrArg _ ((if_pos (legal.mpr hl)).trans ?_))
      dsimp only
      rw [hf]
    · have hf : (List.range A.n).find? (fun i => A.bit i != B.bit i) = some j :=
        find?_range_eq_some hj (by simpa using hne) fun k h => by simpa using hk k h
      refine run.trans (congrArg _ ((if_pos (legal.mpr hl)).trans ?_))
      dsimp only
      rw [hf]
      rfl

/-! ## Scatter and partition (R194, R195) -/

/-- The elements of a scatter: at each index the value with the highest number that goes there. -/
theorem scatter_spec {β : Type} (idx : Nat → Nat) (val : Nat → β) (l : List β) : ∀ m,
    ((List.range m).foldl (fun l i => l.set (idx i) (val i)) l).length = l.length ∧
    ∀ j, (hj : j < l.length) →
      ((∀ i < m, idx i ≠ j) → ((List.range m).foldl (fun l i => l.set (idx i) (val i)) l)[j]? = some l[j]) ∧
      ∀ i < m, idx i = j → (∀ k < m, i < k → idx k ≠ j) → ((List.range m).foldl (fun l i => l.set (idx i) (val i)) l)[j]? = some (val i)
  | 0 => ⟨rfl, fun j hj => ⟨fun _ => List.getElem?_eq_getElem hj, fun i hi => absurd hi (Nat.not_lt_zero i)⟩⟩
  | m + 1 => by
    obtain ⟨hlen, ih⟩ := scatter_spec idx val l m
    simp only [List.range_succ, List.foldl_append, List.foldl_cons, List.foldl_nil, List.length_set]
    refine ⟨hlen, fun j hj => ⟨fun h => ?_, fun i hi he h => ?_⟩⟩
    · rw [List.getElem?_set_ne (h m (by omega))]
      exact (ih j hj).1 fun i hi => h i (by omega)
    · rcases Nat.lt_succ_iff_lt_or_eq.mp hi with hlt | rfl
      · rw [List.getElem?_set_ne (h m (by omega) hlt)]
        exact (ih j hj).2 i hlt he fun k hk => h k (by omega)
      · rw [he, List.getElem?_set_self (by rw [hlen]; exact hj)]

theorem scatter_forall {β : Type} (idx : Nat → Nat) (val : Nat → β) {P : β → Prop} (hval : ∀ i, P (val i)) (m : List Nat) {l : List β} (hl : ∀ x ∈ l, P x) :
    ∀ x ∈ m.foldl (fun l i => l.set (idx i) (val i)) l, P x := by
  induction m generalizing l with
  | nil => exact hl
  | cons i m ih =>
    refine ih fun x hx => ?_
    rcases List.mem_or_eq_of_mem_set hx with h | rfl
    · exact hl x h
    · exact hval i

/-- Rows of the same length, one after the other. -/
theorem flatMap_rows {β : Type} {f : Nat → List β} {c : Nat} (h : ∀ r, (f r).length = c) : ∀ R, ((List.range R).flatMap f).length = R * c ∧
    ∀ j < R * c, ((List.range R).flatMap f)[j]? = (f (j / c))[j % c]?
  | 0 => ⟨(Nat.zero_mul c).symm, fun j hj => absurd hj (by omega)⟩
  | R + 1 => by
    obtain ⟨hlen, ih⟩ := flatMap_rows h R
    rw [List.range_succ, List.flatMap_append, List.length_append, hlen, List.flatMap_cons, List.flatMap_nil, List.append_nil, h, Nat.succ_mul]
    refine ⟨rfl, fun j hj => ?_⟩
    by_cases hlt : j < R * c
    · rw [List.getElem?_append_left (by rw [hlen]; exact hlt), ih j hlt]
    · have hc : 0 < c := by omega
      have hdiv : j / c = R := by
        rw [Nat.div_eq_iff hc]
        constructor
        · omega
        · omega
      have hmod : j % c = j - R * c := by rw [Nat.mod_eq_sub_mul_div, hdiv, Nat.mul_comm]
      rw [List.getElem?_append_right (by rw [hlen]; omega), hlen, hdiv, hmod]

theorem length_filter_add_not {α : Type} (p : α → Bool) (l : List α) : ((l.filter p) ++ l.filter fun a => !p a).length = l.length := by
  rw [List.length_append, ← List.countP_eq_length_filter, ← List.countP_eq_length_filter]
  simpa using (List.length_eq_countP_add_countP p (l := l)).symm

/-- VSCAT: every element by its index, the one with the highest number last (R194). -/
theorem vscat_spec {s : State} {q : BitVec 2} {d a b : BitVec 6} (h : Runs (.vscat q d a b) s) :
    ∃ (bit : Nat → Nat) (poi : Nat → Bool), VectorGives (.vscat q d a b) s (8 * s.blocks [s.tv d, s.tv a, s.tv b] + 8) [s.tv d, s.tv a, s.tv b]
        (SameGrid (s.tv a) (s.tv b) ∧ (s.tv a).w = (s.tv d).w) (s.tv d) bit poi ((s.tv a).sat || (s.tv b).sat || (s.tv d).sat) ∧
      (∀ j < (s.tv d).n, (∀ i < (s.tv a).n, (s.tv b).bit i ≠ j) → bit j = (s.tv d).bit j ∧ poi j = (s.tv d).poi j) ∧
      (∀ i < (s.tv a).n, (s.tv b).bit i < (s.tv d).n → (∀ k < (s.tv a).n, i < k → (s.tv b).bit k ≠ (s.tv b).bit i) →
        bit ((s.tv b).bit i) = (s.tv a).bit i ∧ poi ((s.tv b).bit i) = (s.tv a).poi i) := by
  have run := runs_of_word (exec_vscat s q d a b) h
  generalize hstart : (List.range (s.tv d).n).map (fun i => (((s.tv d).bit i, false), (s.tv d).poi i)) = start
  have hlen0 : start.length = (s.tv d).n := by rw [← hstart, List.length_map, List.length_range]
  have hget0 (j : Nat) (hj : j < start.length) : start[j] = (((s.tv d).bit j, false), (s.tv d).poi j) := by simp [← hstart]
  obtain ⟨hlen, hspec⟩ := scatter_spec (fun i => (s.tv b).bit i) (fun i => (((s.tv a).bit i, false), (s.tv a).poi i)) start (s.tv a).n
  generalize hout : (List.range (s.tv a).n).foldl (fun l i => l.set ((s.tv b).bit i) (((s.tv a).bit i, false), (s.tv a).poi i)) start = out at hlen hspec
  have hall (hw : (s.tv a).w = (s.tv d).w) : ∀ x ∈ out, x.1.1 < 2 ^ (s.tv d).w ∧ x.1.2 = false := by
    rw [← hout]
    refine scatter_forall _ _ (fun i => ⟨hw ▸ bit_lt (s.tv a) i, rfl⟩) _ fun x hx => ?_
    rw [← hstart] at hx
    obtain ⟨j, -, rfl⟩ := List.mem_map.mp hx
    exact ⟨bit_lt (s.tv d) j, rfl⟩
  refine ⟨fun j => (out[j]?.getD ((0, false), false)).1.1, fun j => (out[j]?.getD ((0, false), false)).2,
    vectorGives_of_vword (out := out) (tv_w_pos s d) run
      (congrArg (fun o => s.putTile (8 * s.blocks [s.tv d, s.tv a, s.tv b] + 8) (s.tv d) o ((s.tv a).sat || (s.tv b).sat || (s.tv d).sat)) (by rw [hstart, hout])) (by simp only [Bool.and_eq_true, grid_iff, beq_iff_eq]) (fun _ => hlen.trans hlen0)
      (fun ho x hx => (hall ho.2 x hx).1) (fun _ j hj => by rw [List.getElem?_eq_getElem hj]; exact ⟨rfl, rfl⟩) (fun ho => ?_), fun j hj hn => ?_, fun i hi hj hk => ?_⟩
  · have : (out.any fun x => x.1.2) = false := List.any_eq_false.mpr fun x hx => by rw [(hall ho.2 x hx).2]; exact Bool.false_ne_true
    rw [this, Bool.or_false]
  · have hj' : j < start.length := by rw [hlen0]; exact hj
    have := (hspec j hj').1 hn
    rw [hget0 j hj'] at this
    simp only [this, Option.getD_some, and_self]
  · have := (hspec _ (by rw [hlen0]; exact hj)).2 i hi rfl hk
    simp only [this, Option.getD_some, and_self]

/-! The rows of VPART (R195). -/

section
variable (A : TileView)

/-- The columns of a row whose element is non-zero, and those whose element is zero. -/
def nonzeroCols (r : Nat) : List Nat := (List.range A.cols).filter fun c => A.bit (r * A.cols + c) != 0
def zeroCols (r : Nat) : List Nat := (List.range A.cols).filter fun c => A.bit (r * A.cols + c) == 0
def poisonRow (r : Nat) : Bool := (List.range A.cols).any fun c => A.poi (r * A.cols + c)

/-- A row of the list of numbers. -/
def partRow (r : Nat) : List ((Nat × Bool) × Bool) := (nonzeroCols A r ++ zeroCols A r).map fun c => ((r * A.cols + c, false), poisonRow A r)

/-- A row of the counts, with the free value of a count that does not fit. -/
def countRow (w free r : Nat) : List ((Nat × Bool) × Bool) := (List.range A.cols).map fun c =>
  if c = 0 then ((if (nonzeroCols A r).length < 2 ^ w then (nonzeroCols A r).length else Config.freeNat (free + r) % 2 ^ w, false), poisonRow A r)
  else ((0, false), false)

theorem cols_length (r : Nat) : (nonzeroCols A r ++ zeroCols A r).length = A.cols := by
  have := length_filter_add_not (fun c => A.bit (r * A.cols + c) != 0) (List.range A.cols)
  rw [List.length_range] at this
  rw [← this, nonzeroCols, zeroCols]
  simp only [bne, Bool.not_not]

theorem partRow_length (r : Nat) : (partRow A r).length = A.cols := by rw [partRow, List.length_map, cols_length]
theorem countRow_length (w free r : Nat) : (countRow A w free r).length = A.cols := by rw [countRow, List.length_map, List.length_range]

theorem nonzeroCols_lt {r c : Nat} (h : c ∈ nonzeroCols A r ++ zeroCols A r) : c < A.cols := by
  rcases List.mem_append.mp h with h | h <;> exact List.mem_range.mp (List.mem_filter.mp h).1

/-- The number of an element lies below the element count. -/
theorem number_lt {r c : Nat} (hr : r < A.rows) (hc : c < A.cols) : r * A.cols + c < A.n := by
  have : (r + 1) * A.cols ≤ A.rows * A.cols := Nat.mul_le_mul_right _ hr
  rw [Nat.succ_mul] at this
  rw [TileView.n]
  omega

end

theorem partRow_eq (A : TileView) (r : Nat) :
    (((((List.range A.cols).map fun c => r * A.cols + c).filter fun i => A.bit i != 0) ++ ((List.range A.cols).map fun c => r * A.cols + c).filter fun i => A.bit i == 0).map
      fun i => ((i, false), ((List.range A.cols).map fun c => r * A.cols + c).any A.poi)) = partRow A r := by
  rw [List.filter_map, List.filter_map, ← List.map_append, List.map_map, List.any_map]
  rfl

theorem tv_cols_pos (s : State) (t : BitVec 6) : 0 < (s.tv t).cols := Nat.mul_pos (by decide) (Nat.succ_pos _)

/-- VPART as a list of numbers. -/
theorem vpart_list_spec {s : State} {q : BitVec 2} {d a : BitVec 6} (h : Runs (.vpart q 0 d a) s) :
    VectorGives (.vpart q 0 d a) s (6 * s.blocks [s.tv d, s.tv a] + 4) [s.tv d, s.tv a]
      (SameGrid (s.tv a) (s.tv d) ∧ 16 ≤ (s.tv d).w ∧ (s.tv a).n ≤ 2 ^ (s.tv d).w) (s.tv d)
      (fun j => j / (s.tv d).cols * (s.tv a).cols + (nonzeroCols (s.tv a) (j / (s.tv d).cols) ++ zeroCols (s.tv a) (j / (s.tv d).cols)).getD (j % (s.tv d).cols) 0)
      (fun j => poisonRow (s.tv a) (j / (s.tv d).cols)) (s.tv a).sat := by
  obtain ⟨hlen, hget⟩ := flatMap_rows (partRow_length (s.tv a)) (s.tv a).rows
  have hmem : ∀ x ∈ (List.range (s.tv a).rows).flatMap (partRow (s.tv a)), x.1.1 < (s.tv a).n ∧ x.1.2 = false := by
    intro x hx
    obtain ⟨r, hr, hx⟩ := List.mem_flatMap.mp hx
    obtain ⟨c, hc, rfl⟩ := List.mem_map.mp hx
    exact ⟨number_lt _ (List.mem_range.mp hr) (nonzeroCols_lt _ hc), rfl⟩
  refine vectorGives_of_vword (out := (List.range (s.tv a).rows).flatMap (partRow (s.tv a))) (src := (s.tv a).sat) (tv_w_pos s d) (runs_of_word (exec_vpart s q 0 d a) h) ?_ ?_
    (fun ho => hlen.trans ?_) (fun ho x hx => (hmem x hx).1.trans_le ho.2.2) (fun ho j hj => ?_) fun _ => ?_
  · exact congrArg (fun f => s.putTile (6 * s.blocks [s.tv d, s.tv a] + 4) (s.tv d) ((List.range (s.tv a).rows).flatMap f) (s.tv a).sat) (funext (partRow_eq (s.tv a)))
  · have : ((0 : BitVec 1) == 1) = false := by decide
    simp only [Bool.and_eq_true, grid_iff, decide_eq_true_eq, this, Bool.false_or, and_assoc]
  · rw [TileView.n, ho.1.1, ho.1.2]
  · rw [hlen] at hj
    have hc := hget j hj
    have hmod : j % (s.tv a).cols < (nonzeroCols (s.tv a) (j / (s.tv a).cols) ++ zeroCols (s.tv a) (j / (s.tv a).cols)).length := by
      rw [cols_length]; exact Nat.mod_lt _ (tv_cols_pos s a)
    rw [List.getElem?_eq_getElem (by rw [hlen]; exact hj), partRow, List.getElem?_map, List.getElem?_eq_getElem hmod] at hc
    rw [← ho.1.2, List.getD_eq_getElem _ _ hmod, Option.some.inj hc]
    exact ⟨rfl, rfl⟩
  · have : (((List.range (s.tv a).rows).flatMap (partRow (s.tv a))).any fun x => x.1.2) = false :=
      List.any_eq_false.mpr fun x hx => by rw [(hmem x hx).2]; exact Bool.false_ne_true
    rw [this, Bool.or_false]

theorem vpart_fault {s : State} {q : BitVec 2} {d a : BitVec 6} (h : Runs (.vpart q 1 d a) s)
    (hn : ¬ ((∀ t ∈ [s.tv d, s.tv a], t.legal = true) ∧ SameGrid (s.tv a) (s.tv d) ∧ 16 ≤ (s.tv d).w)) : exec (.vpart q 1 d a) s = .next (s.trapHere 3 0) := by
  refine (runs_of_word (exec_vpart s q 1 d a) h).trans (congrArg _ (if_neg ?_))
  have : ((1 : BitVec 1) == 1) = true := by decide
  simpa [grid_iff, this] using hn

/-- VPART as counts, of which one that the destination cannot hold is a free value. -/
theorem vpart_count_eq {s : State} {q : BitVec 2} {d a : BitVec 6} (h : Runs (.vpart q 1 d a) s)
    (ho : (∀ t ∈ [s.tv d, s.tv a], t.legal = true) ∧ SameGrid (s.tv a) (s.tv d) ∧ 16 ≤ (s.tv d).w) :
    ∃ free, exec (.vpart q 1 d a) s = .next (({ s with free := free } : State).putTile (6 * s.blocks [s.tv d, s.tv a] + 4) (s.tv d)
      ((List.range (s.tv a).rows).flatMap (countRow (s.tv a) (s.tv d).w s.free)) (s.tv a).sat) := by
  have run := runs_of_word (exec_vpart s q 1 d a) h
  have one : ((1 : BitVec 1) == 1) = true := by decide
  have hok : (([s.tv d, s.tv a].all fun t => t.legal) && ((s.tv a).grid (s.tv d) && decide (16 ≤ (s.tv d).w) && ((1 : BitVec 1) == 1 || decide ((s.tv a).n ≤ 2 ^ (s.tv d).w)))) = true := by
    simpa [grid_iff, one, and_assoc] using ho
  have body := run.trans (congrArg _ ((if_pos hok).trans (if_neg (by decide))))
  dsimp only at body
  split at body
  · exact ⟨_, body⟩
  · exact ⟨s.free, body⟩

theorem vpart_count_spec {s : State} {q : BitVec 2} {d a : BitVec 6} (h : Runs (.vpart q 1 d a) s)
    (ho : (∀ t ∈ [s.tv d, s.tv a], t.legal = true) ∧ SameGrid (s.tv a) (s.tv d) ∧ 16 ≤ (s.tv d).w) :
    ∃ bits poison : Nat, ∃ free : Nat,
      exec (.vpart q 1 d a) s = .next (({ s with free := free } : State).withResults
        [{ dist := 6 * s.blocks [s.tv d, s.tv a] + 4, eff := .tile (s.tv d).slot (2 ^ ((s.tv d).w * (s.tv d).n) - 1) bits poison (s.tv a).sat false }]) ∧
      ∀ j < (s.tv d).n, (j % (s.tv d).cols = 0 → (nonzeroCols (s.tv a) (j / (s.tv d).cols)).length < 2 ^ (s.tv d).w →
          tileBits bits (s.tv d).w j = (nonzeroCols (s.tv a) (j / (s.tv d).cols)).length) ∧
        (j % (s.tv d).cols = 0 → elemPoison poison (s.tv d).w j = poisonRow (s.tv a) (j / (s.tv d).cols)) ∧
        (j % (s.tv d).cols ≠ 0 → tileBits bits (s.tv d).w j = 0 ∧ elemPoison poison (s.tv d).w j = false) := by
  obtain ⟨free, e⟩ := vpart_count_eq h ho
  obtain ⟨hlen, hget⟩ := flatMap_rows (countRow_length (s.tv a) (s.tv d).w s.free) (s.tv a).rows
  have hmem : ∀ x ∈ (List.range (s.tv a).rows).flatMap (countRow (s.tv a) (s.tv d).w s.free), x.1.1 < 2 ^ (s.tv d).w ∧ x.1.2 = false := by
    intro x hx
    obtain ⟨r, -, hx⟩ := List.mem_flatMap.mp hx
    obtain ⟨c, -, rfl⟩ := List.mem_map.mp hx
    have := Nat.two_pow_pos (s.tv d).w
    split
    · refine ⟨?_, rfl⟩
      dsimp only
      split
      · assumption
      · exact Nat.mod_lt _ this
    · exact ⟨this, rfl⟩
  generalize hout : (List.range (s.tv a).rows).flatMap (countRow (s.tv a) (s.tv d).w s.free) = out at e hlen hget hmem
  have hflag : (out.any fun x => x.1.2) = false := List.any_eq_false.mpr fun x hx => by rw [(hmem x hx).2]; exact Bool.false_ne_true
  obtain ⟨-, -, hj⟩ := packed_elements (tv_w_pos s d) fun x hx => (hmem x hx).1
  refine ⟨_, _, free, e.trans (by rw [State.putTile, hflag, Bool.or_false]; rfl), fun j hn => ?_⟩
  have hn' : j < (s.tv a).rows * (s.tv a).cols := by rw [ho.2.1.1, ho.2.1.2]; exact hn
  have hc : (s.tv a).cols = (s.tv d).cols := ho.2.1.2
  have he := hget j hn'
  rw [hc, countRow, List.getElem?_map, List.getElem?_range (by rw [hc]; exact Nat.mod_lt _ (tv_cols_pos s d)), Option.map_some,
    List.getElem?_eq_getElem (by rw [hlen]; exact hn')] at he
  obtain ⟨hb, hp⟩ := hj j (by rw [hlen]; exact hn')
  rw [Option.some.inj he] at hb hp
  refine ⟨fun h0 hlt => ?_, fun h0 => ?_, fun h0 => ?_⟩
  · rw [hb, if_pos h0]; exact if_pos hlt
  · rw [hp, if_pos h0]
  · rw [hb, hp, if_neg h0]; exact ⟨rfl, rfl⟩

/-- Settles O32. -/
theorem vectorScatterAndPartition : Obligations.VectorScatterAndPartition := by
  unfold Obligations.VectorScatterAndPartition
  intro s q d a b
  exact ⟨vscat_spec, vpart_list_spec, vpart_count_spec, vpart_fault⟩

end Sys2Proof.Proofs
end

