-- ==== Sys2Proof/Proofs/Routines.lean ====
section
/-! Reductions, prefix sums, routine words and optimizer words (R196, R197, R238 to R245). -/
namespace Sys2Proof.Proofs
open Sys2Proof Sys2Proof.Machine

-- One theorem after another: side by side they need more memory than one run may take.
set_option Elab.async false

theorem sumInt_eq (l : List Int) : sumInt l = l.sum := by
  rw [sumInt, ← List.sum_eq_foldl]

theorem foldl_max_headD (l : List Int) : l.foldl max (l.headD 0) = (l.max?).getD 0 := by
  cases l with
  | nil => rfl
  | cons a l => rw [List.max?_cons', Option.getD_some, List.headD_cons, List.foldl_cons, max_self]

theorem foldl_min_headD (l : List Int) : l.foldl min (l.headD 0) = (l.min?).getD 0 := by
  cases l with
  | nil => rfl
  | cons a l => rw [List.min?_cons', Option.getD_some, List.headD_cons, List.foldl_cons, min_self]

/-- No absolute value is below 0, from which the model's maximum starts. -/
theorem foldl_max_abs (l : List Int) : (l.map fun v => (v.natAbs : Int)).foldl max 0 = ((l.map fun v => |v|).max?).getD 0 := by
  cases l with
  | nil => rfl
  | cons a l =>
    rw [List.map_congr_left fun v _ => (Int.abs_eq_natAbs v).symm, List.map_cons, List.max?_cons', Option.getD_some, List.foldl_cons,
      max_eq_right (abs_nonneg a)]

section
variable {s : State} {x : BitVec 2} {u : Bool} {d a : BitVec 6} {f g : List Int → Int}

/-- The elements that a reduction combines into element j (R196). -/
def reducedLine (x : BitVec 2) (D : TileView) (j : Nat) : List Nat :=
  if x = 0 then (List.range D.cols).map fun k => j / D.cols * D.cols + k
  else if x = 1 then (List.range D.rows).map fun k => k * D.cols + j % D.cols else List.range (D.rows * D.cols)

/-- The elements of a destination that take a reduction's value (R196). -/
abbrev ReducedFirst (x : BitVec 2) (D : TileView) (j : Nat) : Prop := (x = 0 ∧ j % D.cols = 0) ∨ (x = 1 ∧ j / D.cols = 0) ∨ (x = 2 ∧ j = 0)

/-- Element j of a reduced tile with its clamp flag and its poison. -/
def reducedAt (x : BitVec 2) (u : Bool) (f : List Int → Int) (D A : TileView) (j : Nat) : (Nat × Bool) × Bool :=
  if ReducedFirst x D j then (putSat D.w u (f ((reducedLine x D j).map (A.get u))), (reducedLine x D j).any A.poi) else ((0, false), false)

theorem vreduce_eq (s : State) (x : BitVec 2) (u : Bool) (d a : BitVec 6) (f : List Int → Int) :
    s.vreduce x u d a f = s.vword [s.tv d, s.tv a] ((s.tv a).grid (s.tv d)) fun t =>
      t.putTile (4 * t.blocks [s.tv d, s.tv a] + 8) (s.tv d) ((List.range (s.tv d).n).map (reducedAt x u f (s.tv d) (s.tv a))) (s.tv a).sat := rfl

/-- A reduction as R196 has it, from the function that the model applies to each line. -/
theorem reduces_of_word {i : Instr} (e : exec i s = .next (s.vreduce x u d a f)) (hf : ∀ l, f l = g l) :
    ∃ (bit : Nat → Nat) (poi : Nat → Bool) (sat : Bool),
      VectorGives i s (4 * s.blocks [s.tv d, s.tv a] + 8) [s.tv d, s.tv a] (SameGrid (s.tv a) (s.tv d)) (s.tv d) bit poi sat ∧
      (∀ j < (s.tv d).n,
        (ReducedFirst x (s.tv d) j → bit j = lowBits (s.tv d).w (clampTo (s.tv d).w u (g ((reducedLine x (s.tv d) j).map ((s.tv a).get u)))) ∧
          poi j = (reducedLine x (s.tv d) j).any (s.tv a).poi) ∧
        (¬ ReducedFirst x (s.tv d) j → bit j = 0 ∧ poi j = false)) ∧
      (sat = true ↔ (s.tv a).sat = true ∨ ∃ j < (s.tv d).n, ReducedFirst x (s.tv d) j ∧ clamps (s.tv d).w u (g ((reducedLine x (s.tv d) j).map ((s.tv a).get u))) = true) := by
  have hfg : f = g := funext hf
  subst hfg
  set out := reducedAt x u f (s.tv d) (s.tv a) with hout
  have hfirst : ∀ j, ReducedFirst x (s.tv d) j → out j =
      (putSat (s.tv d).w u (f ((reducedLine x (s.tv d) j).map ((s.tv a).get u))), (reducedLine x (s.tv d) j).any (s.tv a).poi) := fun _ h => if_pos h
  have hrest : ∀ j, ¬ ReducedFirst x (s.tv d) j → out j = ((0, false), false) := fun _ h => if_neg h
  have hlt : ∀ j, (out j).1.1 < 2 ^ (s.tv d).w := fun j => by
    by_cases h : ReducedFirst x (s.tv d) j
    · rw [hfirst j h, putSat_eq]; exact lowBits_lt _ _
    · rw [hrest j h]; exact Nat.two_pow_pos _
  refine ⟨fun j => (out j).1.1, fun j => (out j).2, (s.tv a).sat || (List.range (s.tv d).n).any fun j => (out j).1.2, ?_, fun j _ => ⟨fun h => ?_, fun h => ?_⟩, ?_⟩
  · exact vectorGives_of_map (tv_w_pos s d) (e.trans (congrArg _ (vreduce_eq ..))) rfl (grid_iff _ _) (fun _ j _ => hlt j) (fun _ _ _ => ⟨rfl, rfl⟩) fun _ => rfl
  · dsimp only; rw [hfirst j h, putSat_eq]; exact ⟨rfl, rfl⟩
  · dsimp only; rw [hrest j h]; exact ⟨rfl, rfl⟩
  · rw [Bool.or_eq_true, List.any_eq_true]
    refine or_congr_right (exists_congr fun j => and_congr List.mem_range ?_)
    by_cases h : ReducedFirst x (s.tv d) j
    · rw [hfirst j h, putSat_eq]; exact ⟨fun hc => ⟨h, hc⟩, And.right⟩
    · rw [hrest j h]; exact ⟨fun hc => absurd hc Bool.false_ne_true, fun hc => absurd hc.1 h⟩

end

/-- Settles O33. -/
theorem vectorReductions : Obligations.VectorReductions := by
  unfold Obligations.VectorReductions
  intro s q x d a un st
  dsimp only
  refine ⟨fun h => ?_, fun h => ?_, fun h => ?_, fun h => ?_, fun h => ⟨fun h1 => ?_, fun h1 => ?_⟩⟩
  · exact reduces_of_word (g := List.sum) (runs_of_word (exec_vredsum s q x d a un) h) sumInt_eq
  · exact reduces_of_word (g := fun l => (l.max?).getD 0) (runs_of_word (exec_vredmax s q x d a un) h) foldl_max_headD
  · exact reduces_of_word (g := fun l => (l.min?).getD 0) (runs_of_word (exec_vredmin s q x d a un) h) foldl_min_headD
  · exact reduces_of_word (g := fun l => ((l.map fun v => |v|).max?).getD 0) (runs_of_word (exec_vabsmax s q x d a) h) foldl_max_abs
  · refine vectorClamps_of_map (tv_w_pos s d) (runs_of_word (exec_vscan s q x d a st un) h) rfl (grid_iff _ _) fun _ j _ => ?_
    dsimp only
    rw [if_pos h1, sumInt_eq]
  · refine vectorWraps_of_map (tv_w_pos s d) (runs_of_word (exec_vscan s q x d a st un) h) rfl (grid_iff _ _) fun _ j _ => ?_
    dsimp only
    rw [if_neg h1, sumInt_eq]

/-! ## Roundings (R5, R238) -/

/-- The quotient of R5 and R238: q is the floor of n / m, and what the choice between it and its successor gives. -/
theorem nearest_even {n m q p : Int} (hq : q * m ≤ n) (hlt : n < (q + 1) * m)
    (hp : p = if m < 2 * (n - q * m) ∨ (2 * (n - q * m) = m ∧ q % 2 = 1) then q + 1 else q) :
    2 * (n - p * m) ≤ m ∧ -m ≤ 2 * (n - p * m) ∧ (2 * (n - p * m) = m ∨ 2 * (n - p * m) = -m → p % 2 = 0) := by
  have hs : (q + 1) * m = q * m + m := by ring
  generalize hy : q * m = y at *
  subst hp
  split
  · rw [hs]
    omega
  · rw [hy]
    omega

theorem asr_eq (x : Int) (k : Nat) : asr x k = x / 2 ^ k := by rw [asr]; norm_cast

/-- ShrRne is the nearest integer, a tie to even. -/
theorem shrRne_spec (x : Int) (k : Nat) :
    2 * (x - shrRne x k * 2 ^ k) ≤ 2 ^ k ∧ -(2 ^ k) ≤ 2 * (x - shrRne x k * 2 ^ k) ∧
    (0 < k → 2 * (x - shrRne x k * 2 ^ k) = 2 ^ k ∨ 2 * (x - shrRne x k * 2 ^ k) = -(2 ^ k) → shrRne x k % 2 = 0) := by
  cases k with
  | zero => simp [shrRne]
  | succ k =>
    have hpos : (0 : Int) < 2 ^ (k + 1) := by positivity
    have hdiv := Int.mul_ediv_add_emod x (2 ^ (k + 1))
    have hmod := Int.emod_lt_of_pos x hpos
    have hnn := Int.emod_nonneg x hpos.ne'
    obtain ⟨h1, h2, h3⟩ := nearest_even (n := x) (m := 2 ^ (k + 1)) (q := x / 2 ^ (k + 1)) (p := shrRne x (k + 1)) (by rw [mul_comm]; omega)
      (by rw [add_mul, one_mul, mul_comm]; omega) (by
        rw [shrRne, if_neg (Nat.succ_ne_zero k)]
        simp only [asr_eq, Nat.add_sub_cancel, pow_succ]
        refine if_congr (or_congr ?_ (and_congr_left' ?_)) rfl rfl <;> omega)
    exact ⟨h1, h2, fun _ => h3⟩

theorem divRne_spec (n : Int) {m : Int} (hm : 0 < m) :
    2 * (n - divRne n m * m) ≤ m ∧ -m ≤ 2 * (n - divRne n m * m) ∧ (2 * (n - divRne n m * m) = m ∨ 2 * (n - divRne n m * m) = -m → divRne n m % 2 = 0) := by
  have hdiv := Int.mul_ediv_add_emod n m
  have hmod := Int.emod_lt_of_pos n hm
  have hnn := Int.emod_nonneg n hm.ne'
  exact nearest_even (q := n / m) (by rw [mul_comm]; omega) (by rw [add_mul, one_mul, mul_comm]; omega) (by rw [divRne, if_neg (by omega)])

theorem divRne_neg (n : Int) {m : Int} (hm : 0 < m) : divRne (-n) (-m) = divRne n m := by
  rw [divRne, divRne, if_pos (by omega), if_neg (by omega)]
  simp only [neg_neg]

theorem scaleRne_of_nat (x : Int) (k : Nat) : scaleRne x k = shrRne x k := by rw [scaleRne, if_pos (Int.natCast_nonneg k), Int.toNat_natCast]

theorem scaleRne_neg (x : Int) (k : Nat) : scaleRne x (-k) = x * 2 ^ k := by
  cases k with
  | zero => rw [Nat.cast_zero, neg_zero, pow_zero, mul_one]; exact scaleRne_of_nat x 0
  | succ k => rw [scaleRne, if_neg (by omega), neg_neg, Int.toNat_natCast]

/-! ## The cores (R240) -/

/-- A table at a whole number of its steps. -/
def tableAt (t : List Nat) (i : Int) : Int := ((t.getD i.toNat 0 : Nat) : Int)

/-- A table between two of its steps (R240). -/
def between (t : List Nat) (u : Int) (k : Nat) : Int :=
  shrRne (tableAt t (u / 2 ^ k) * 2 ^ k + (tableAt t (u / 2 ^ k + 1) - tableAt t (u / 2 ^ k)) * (u % 2 ^ k)) k

theorem exp2Core_eq (y : Int) : exp2Core y = (between tableTE (y % 2 ^ 15) 10, y / 2 ^ 15) := by
  have h : y - y / 2 ^ 15 * 2 ^ 15 = y % 2 ^ 15 := by rw [Int.emod_def, mul_comm]
  simp only [exp2Core, asr_eq, h]
  rfl

theorem bitLen_pred (n : Nat) : bitLen n - 1 = Nat.log2 n := by
  rw [bitLen]
  split
  · subst n; decide
  · exact Nat.add_sub_cancel ..

theorem log2Core_eq (A : Int) (f : Nat) :
    log2Core A f = ((Nat.log2 A.toNat : Int) - f) * 2 ^ 15 + between tableTL (A * 2 ^ 15 / 2 ^ Nat.log2 A.toNat - 2 ^ 15) 10 := by
  simp only [log2Core, bitLen_pred]
  rw [asr_eq]
  rfl

/-- The inverse square root of R240: y and k. -/
def rsqOf (v : Int) (f : Nat) : Int × Int :=
  let z := v * 2 ^ 30 / 2 ^ Nat.log2 v.toNat
  let y0 := tableAt tableTS (z / 2 ^ 24 - 64) * 2 ^ 15
  let y1 := shrRne (y0 * (3 * 2 ^ 30 - shrRne (z * shrRne (y0 * y0) 30) 30)) 31
  let q := (Nat.log2 v.toNat : Int) - f
  if q % 2 = 0 then (y1, q / 2) else (shrRne (y1 * 0x5A82799A) 30, (q + 1) / 2)

theorem rsqCore_eq (A : Int) (f : Nat) : rsqCore A f = rsqOf A f := by
  simp only [rsqCore, bitLen_pred]
  rw [asr_eq]
  rfl

/-! ## The routines of one element and of one row (R241 to R243) -/

/-- A stored value with its clamp flag. -/
abbrev putClamped (w : Nat) (v : Int) : Nat × Bool := (lowBits w (clampTo w false v), clamps w false v)

theorem vexp2El_eq (f g w : Nat) (A : Int) : vexp2El f g w A =
    putClamped w (scaleRne (between tableTE (scaleRne A ((f : Int) - 15) % 2 ^ 15) 10) (15 - g - scaleRne A ((f : Int) - 15) / 2 ^ 15)) := by
  rw [vexp2El, exp2Core_eq, putSat_eq]

theorem vlog2El_eq (f g w : Nat) (A : Int) (hA : 0 < A) : vlog2El f g w A =
    putClamped w (scaleRne (((Nat.log2 A.toNat : Int) - f) * 2 ^ 15 + between tableTL (A * 2 ^ 15 / 2 ^ Nat.log2 A.toNat - 2 ^ 15) 10) (15 - g)) := by
  rw [vlog2El, if_pos hA, log2Core_eq, putSat_eq]

theorem vrcpEl_eq (f g w : Nat) (A : Int) (hA : A ≠ 0) : vrcpEl f g w A = putClamped w (divRne (2 ^ (f + g)) A) := by
  rw [vrcpEl, if_neg hA, putSat_eq]

theorem vrsqEl_eq (f g w : Nat) (A : Int) (hA : 0 < A) : vrsqEl f g w A = putClamped w (scaleRne (rsqOf A f).1 (30 + (rsqOf A f).2 - g)) := by
  rw [vrsqEl, if_pos hA, rsqCore_eq, putSat_eq]

theorem vgeluEl_eq (f g w : Nat) (A : Int) : vgeluEl f g w A =
    putClamped w (scaleRne (scaleRne A ((f : Int) - 15) * (if scaleRne A ((f : Int) - 15) < -(2 ^ 18) then 0
      else if 2 ^ 18 ≤ scaleRne A ((f : Int) - 15) then 2 ^ 15 else between tableTG (scaleRne A ((f : Int) - 15) + 2 ^ 18) 11)) (30 - g)) := by
  rw [vgeluEl]
  dsimp only
  generalize scaleRne A ((f : Int) - 15) = y
  have hdiv : (y + 2 ^ 18) / 2 ^ 11 = asr y 11 + 128 := by rw [asr_eq]; omega
  have hmod : (y + 2 ^ 18) % 2 ^ 11 = y % 2 ^ 11 := by omega
  rw [putSat_eq, between, hdiv, hmod]
  rfl

theorem softmaxRow_eq (f w : Nat) (row : List Int) :
    let shifted := fun (a : Int) => scaleRne ((a - (row.max?).getD 0) * 47274) f
    let e := fun (a : Int) => scaleRne (between tableTE (shifted a % 2 ^ 15) 10) (-(shifted a / 2 ^ 15))
    softmaxRow f w row = row.map fun a => putClamped w (shrRne (e a * divRne (2 ^ 46) (row.map e).sum) (47 - w)) := by
  dsimp only
  rw [softmaxRow, foldl_max_headD]
  dsimp only
  simp only [exp2Core_eq, sumInt_eq, List.map_map, putSat_eq]
  rfl

theorem normRow_eq (mean : Bool) (g w : Nat) (row gain : List Int) :
    let mu := divRne (2 ^ 8 * row.sum) row.length
    let c := fun (a : Int) => if mean then 2 ^ 8 * a - mu else a
    let m := divRne (row.map fun a => c a * c a).sum row.length + if mean then 2 ^ 16 else 1
    normRow mean g w row gain = (row.zip gain).map fun e => putClamped w (scaleRne (c e.1 * (rsqOf m 0).1 * e.2) (43 + (rsqOf m 0).2 - g)) := by
  simp only [normRow, sumInt_eq, List.map_map, rsqCore_eq, putSat_eq, List.zip_map_left]
  cases mean <;> rfl

/-! ## The routine words -/

theorem outFraction_eq (ext : Option (BitVec 25)) (dflt : Nat) : outFraction ext dflt = (ext.map fun e => (e.extractLsb' 0 5).toNat).getD dflt := by
  cases ext with
  | none => rfl
  | some e => rfl

theorem vroutine_eq (s : State) (d a : BitVec 6) (f : Nat → Int → Nat × Bool) :
    s.vroutine d a f = s.vword [s.tv d, s.tv a] ((s.tv a).grid (s.tv d) && decide (8 ≤ (s.tv a).w) && decide (8 ≤ (s.tv d).w)) fun t =>
      t.putTile (8 + 6 * t.blocks [s.tv d, s.tv a]) (s.tv d)
        ((List.range (s.tv d).n).map fun i => (f (s.tv d).w ((s.tv a).get false i), (s.tv a).poi i)) (s.tv a).sat := rfl

/-- An element-wise routine word (R236, R237). -/
theorem vroutine_stores {i : Instr} {s : State} {d a : BitVec 6} {f : Nat → Int → Nat × Bool} (e : exec i s = .next (s.vroutine d a f))
    (hf : ∀ w x, (f w x).1 < 2 ^ w) :
    VectorStores i s (8 + 6 * s.blocks [s.tv d, s.tv a]) [s.tv d, s.tv a] (SameGrid (s.tv a) (s.tv d) ∧ 8 ≤ (s.tv a).w ∧ 8 ≤ (s.tv d).w) (s.tv d)
      (fun j => f (s.tv d).w ((s.tv a).get false j)) (s.tv a).poi (s.tv a).sat := by
  refine vectorGives_of_map (tv_w_pos s d) (e.trans (congrArg _ (vroutine_eq ..))) rfl ?_ (fun _ j _ => hf _ _) (fun _ _ _ => ⟨rfl, rfl⟩) fun _ => rfl
  simp only [Bool.and_eq_true, decide_eq_true_eq, grid_iff, and_assoc]

theorem putSat_lt (w : Nat) (u : Bool) (v : Int) : (putSat w u v).1 < 2 ^ w := by rw [putSat_eq]; exact lowBits_lt _ _

theorem vlog2El_lt (f g w : Nat) (x : Int) : (vlog2El f g w x).1 < 2 ^ w := by
  rw [vlog2El]
  split
  · exact putSat_lt ..
  · exact lowBits_lt _ _

theorem vrcpEl_lt (f g w : Nat) (x : Int) : (vrcpEl f g w x).1 < 2 ^ w := by
  rw [vrcpEl]
  split
  · exact lowBits_lt _ _
  · exact putSat_lt ..

theorem vrsqEl_lt (f g w : Nat) (x : Int) : (vrsqEl f g w x).1 < 2 ^ w := by
  rw [vrsqEl]
  split
  · exact putSat_lt ..
  · split
    · exact lowBits_lt _ _
    · exact Nat.two_pow_pos w

/-- The values of a tile's row. -/
def rowValues (t : TileView) (r : Nat) : List Int := (List.range t.cols).map fun c => t.get false (r * t.cols + c)

/-- The results of a row with its poison (R236, R237). -/
def rowResults (f : List Int → List (Nat × Bool)) (poi : Nat → Bool) (A : TileView) (r : Nat) : List ((Nat × Bool) × Bool) :=
  ((f (rowValues A r)).zip (List.range A.cols)).map fun e => (e.1, ((List.range A.cols).any fun c => A.poi (r * A.cols + c)) || poi e.2)

theorem vrows_eq (s : State) (D A : TileView) (tiles : List TileView) (f : List Int → List (Nat × Bool)) (poi : Nat → Bool) (sat : Bool) :
    s.vrows D A tiles f poi sat = s.putTile (16 + 12 * s.blocks tiles) D ((List.range A.rows).flatMap (rowResults f poi A)) sat := by
  simp only [State.vrows, List.map_map, List.any_map]
  rfl

/-- A routine word over rows (R236, R237): `f` keeps the length of a row and stores bits of the destination's width. -/
theorem vrows_stores {i : Instr} {s : State} {d a : BitVec 6} {tiles : List TileView} {okb : Bool} {ok : Prop} {f : List Int → List (Nat × Bool)}
    {poi : Nat → Bool} {sat : Bool} {body : State → State} (e : exec i s = .next (s.vword tiles okb body))
    (hb : body s = s.vrows (s.tv d) (s.tv a) tiles f poi sat) (hok : okb = true ↔ ok) (hg : ok → SameGrid (s.tv a) (s.tv d))
    (hlen : ok → ∀ r, (f (rowValues (s.tv a) r)).length = (s.tv a).cols) (hlt : ∀ l, ∀ x ∈ f l, x.1 < 2 ^ (s.tv d).w) :
    VectorStores i s (16 + 12 * s.blocks tiles) tiles ok (s.tv d) (fun j => (f (rowValues (s.tv a) (j / (s.tv a).cols))).getD (j % (s.tv a).cols) (0, false))
      (fun j => ((List.range (s.tv a).cols).any fun c => (s.tv a).poi (j / (s.tv a).cols * (s.tv a).cols + c)) || poi (j % (s.tv a).cols)) sat := by
  have hout : ok → (List.range (s.tv a).rows).flatMap (rowResults f poi (s.tv a)) = (List.range (s.tv d).n).map fun j =>
      ((f (rowValues (s.tv a) (j / (s.tv a).cols))).getD (j % (s.tv a).cols) (0, false),
        ((List.range (s.tv a).cols).any fun c => (s.tv a).poi (j / (s.tv a).cols * (s.tv a).cols + c)) || poi (j % (s.tv a).cols)) := fun ho => by
    have hrow : ∀ r, (rowResults f poi (s.tv a) r).length = (s.tv a).cols := fun r => by
      rw [rowResults, List.length_map, List.length_zip, hlen ho r, List.length_range, Nat.min_self]
    obtain ⟨hl, hget⟩ := flatMap_rows hrow (s.tv a).rows
    have hn : (s.tv a).rows * (s.tv a).cols = (s.tv d).n := by rw [(hg ho).1, (hg ho).2]; rfl
    refine List.ext_getElem? fun j => ?_
    by_cases hj : j < (s.tv d).n
    · have hc : j % (s.tv a).cols < (s.tv a).cols := Nat.mod_lt _ (tv_cols_pos s a)
      have hc' : j % (s.tv a).cols < (f (rowValues (s.tv a) (j / (s.tv a).cols))).length := by rw [hlen ho]; exact hc
      have hz : ((f (rowValues (s.tv a) (j / (s.tv a).cols))).zip (List.range (s.tv a).cols))[j % (s.tv a).cols]? =
          some ((f (rowValues (s.tv a) (j / (s.tv a).cols)))[j % (s.tv a).cols], j % (s.tv a).cols) :=
        List.getElem?_zip_eq_some.mpr ⟨List.getElem?_eq_getElem hc', List.getElem?_range hc⟩
      rw [hget j (hn ▸ hj), rowResults, List.getElem?_map, List.getElem?_map, List.getElem?_range hj, Option.map_some,
        hz, Option.map_some, List.getD_eq_getElem _ _ hc']
    · rw [List.getElem?_eq_none (by omega), List.getElem?_eq_none (by rw [List.length_map, List.length_range]; omega)]
  refine vectorGives_of_vword (out := (List.range (s.tv a).rows).flatMap (rowResults f poi (s.tv a))) (tv_w_pos s d) e (hb.trans (vrows_eq ..)) hok
    (fun ho => ?_) (fun ho x hx => ?_) (fun ho j hj => ?_) fun ho => ?_
  · rw [hout ho, List.length_map, List.length_range]
  · obtain ⟨r, -, hx⟩ := List.mem_flatMap.mp hx
    obtain ⟨y, hy, rfl⟩ := List.mem_map.mp hx
    exact hlt _ _ (List.of_mem_zip hy).1
  · simp only [hout ho, List.getElem_map, List.getElem_range, and_self]
  · rw [hout ho, List.any_map]; rfl

theorem rowValues_length (t : TileView) (r : Nat) : (rowValues t r).length = t.cols := by rw [rowValues, List.length_map, List.length_range]

theorem softmaxRow_length (f w : Nat) (row : List Int) : (softmaxRow f w row).length = row.length := by rw [softmaxRow_eq, List.length_map]

theorem normRow_length (mean : Bool) (g w : Nat) (row gain : List Int) : (normRow mean g w row gain).length = min row.length gain.length := by
  rw [normRow_eq, List.length_map, List.length_zip]

theorem vsmax_spec {s : State} {q : BitVec 2} {d a : BitVec 6} {f : BitVec 5} (h : Runs (.vsmax q d a f) s) :
    VectorStores (.vsmax q d a f) s (16 + 12 * s.blocks [s.tv d, s.tv a]) [s.tv d, s.tv a]
      (SameGrid (s.tv a) (s.tv d) ∧ ((s.tv a).w = 8 ∨ (s.tv a).w = 16) ∧ ((s.tv d).w = 8 ∨ (s.tv d).w = 16)) (s.tv d)
      (fun j => (softmaxRow f.toNat (s.tv d).w (rowValues (s.tv a) (j / (s.tv a).cols))).getD (j % (s.tv a).cols) (0, false))
      (fun j => (List.range (s.tv a).cols).any fun c => (s.tv a).poi (j / (s.tv a).cols * (s.tv a).cols + c)) (s.tv a).sat := by
  have := vrows_stores (ok := SameGrid (s.tv a) (s.tv d) ∧ ((s.tv a).w = 8 ∨ (s.tv a).w = 16) ∧ ((s.tv d).w = 8 ∨ (s.tv d).w = 16)) (runs_of_word (exec_vsmax s q d a f) h) rfl (by simp only [Bool.and_eq_true, Bool.or_eq_true, beq_iff_eq, grid_iff, and_assoc]) And.left
    (fun _ r => by rw [softmaxRow_length, rowValues_length]) fun l x hx => by
      rw [softmaxRow_eq] at hx
      obtain ⟨a, -, rfl⟩ := List.mem_map.mp hx
      exact lowBits_lt _ _
  simpa only [Bool.or_false] using this

theorem vnorm_eq (s : State) (mean : Bool) (d a b : BitVec 6) (ext : Option (BitVec 25)) :
    s.vnorm mean d a b ext = s.vword [s.tv d, s.tv a, s.tv b] ((s.tv a).grid (s.tv d) && ((s.tv a).w == 8 || (s.tv a).w == 16) &&
      ((s.tv d).w == 8 || (s.tv d).w == 16) && (s.tv b).w == 16 && (s.tv b).rows == 1 && (s.tv b).cols == (s.tv a).cols) fun t =>
      t.vrows (s.tv d) (s.tv a) [s.tv d, s.tv a, s.tv b] (normRow mean (outFraction ext ((s.tv d).w - 4)) (s.tv d).w ·
        ((List.range (s.tv b).cols).map ((s.tv b).get false))) (s.tv b).poi ((s.tv a).sat || (s.tv b).sat) := rfl

theorem vnorm_spec {i : Instr} {mean : Bool} {s : State} {d a b : BitVec 6} {ext : Option (BitVec 25)} (e : exec i s = .next (s.vnorm mean d a b ext)) :
    VectorStores i s (16 + 12 * s.blocks [s.tv d, s.tv a, s.tv b]) [s.tv d, s.tv a, s.tv b]
      (SameGrid (s.tv a) (s.tv d) ∧ ((s.tv a).w = 8 ∨ (s.tv a).w = 16) ∧ ((s.tv d).w = 8 ∨ (s.tv d).w = 16) ∧ (s.tv b).w = 16 ∧ (s.tv b).rows = 1 ∧
        (s.tv b).cols = (s.tv a).cols) (s.tv d)
      (fun j => (normRow mean (outFraction ext ((s.tv d).w - 4)) (s.tv d).w (rowValues (s.tv a) (j / (s.tv a).cols)) (rowValues (s.tv b) 0)).getD
        (j % (s.tv a).cols) (0, false))
      (fun j => ((List.range (s.tv a).cols).any fun c => (s.tv a).poi (j / (s.tv a).cols * (s.tv a).cols + c)) || (s.tv b).poi (j % (s.tv a).cols))
      ((s.tv a).sat || (s.tv b).sat) := by
  have hgain : (List.range (s.tv b).cols).map ((s.tv b).get false) = rowValues (s.tv b) 0 := by simp only [rowValues, Nat.zero_mul, Nat.zero_add]
  rw [vnorm_eq, hgain] at e
  refine vrows_stores (f := (normRow mean (outFraction ext ((s.tv d).w - 4)) (s.tv d).w · (rowValues (s.tv b) 0))) (poi := (s.tv b).poi) e rfl
    (by simp only [Bool.and_eq_true, Bool.or_eq_true, beq_iff_eq, grid_iff, and_assoc]) And.left
    (fun ho r => ?_) fun l x hx => ?_
  · obtain ⟨-, -, -, -, -, hc⟩ := ho
    rw [normRow_length, rowValues_length, rowValues_length, hc, Nat.min_self]
  · rw [normRow_eq] at hx
    obtain ⟨y, -, rfl⟩ := List.mem_map.mp hx
    exact lowBits_lt _ _

/-! ## The tables (R239) -/

theorem tableTE_spec : tableTE.length = 33 ∧
    ∀ i < 33, (2 * tableTE.getD i 0 - 1) ^ 32 ≤ 2 ^ (512 + i) ∧ 2 ^ (512 + i) ≤ (2 * tableTE.getD i 0 + 1) ^ 32 := by decide +kernel

theorem tableTL_spec : tableTL.length = 33 ∧
    ∀ i < 33, 2 ^ (2 * tableTL.getD i 0 - 1) * 32 ^ 65536 ≤ (32 + i) ^ 65536 ∧ (32 + i) ^ 65536 ≤ 2 ^ (2 * tableTL.getD i 0 + 1) * 32 ^ 65536 := by decide +kernel

theorem tableTS_spec : tableTS.length = 64 ∧
    ∀ i < 64, (2 * tableTS.getD i 0 - 1) ^ 2 * (64 + i) ≤ 2 ^ 38 ∧ 2 ^ 38 ≤ (2 * tableTS.getD i 0 + 1) ^ 2 * (64 + i) := by decide +kernel

theorem tableTG_spec : tableTG.length = 257 ∧ (∀ i < 256, tableTG.getD i 0 ≤ tableTG.getD (i + 1) 0) ∧
    (∀ i < 257, tableTG.getD i 0 + tableTG.getD (256 - i) 0 = 32768) ∧ tableTG.getD 0 0 = 0 ∧ tableTG.getD 112 0 = 5199 ∧ tableTG.getD 128 0 = 16384 ∧
    tableTG.getD 144 0 = 27569 ∧ tableTG.getD 256 0 = 32768 := by decide +kernel

/-- Settles O34. -/
theorem routineWords : Obligations.RoutineWords := by
  unfold Obligations.RoutineWords
  obtain ⟨te, te'⟩ := tableTE_spec
  obtain ⟨tl, tl'⟩ := tableTL_spec
  obtain ⟨ts, ts'⟩ := tableTS_spec
  obtain ⟨tg, tg'⟩ := tableTG_spec
  refine ⟨⟨te, tl, ts, tg, te', tl', ts', tg'⟩, fun x k => ?_, fun n m hm => ?_, fun f g w A mean row gain _ => ?_, fun s q d a b f ext => ?_⟩
  · obtain ⟨h1, h2, h3⟩ := shrRne_spec x k
    exact ⟨h1, h2, h3, scaleRne_of_nat x k, scaleRne_neg x k⟩
  · obtain ⟨h1, h2, h3⟩ := divRne_spec n hm
    exact ⟨h1, h2, h3, divRne_neg n hm⟩
  · exact ⟨vexp2El_eq f g w A, vlog2El_eq f g w A, vrcpEl_eq f g w A, vrsqEl_eq f g w A, vgeluEl_eq f g w A, fun _ _ => softmaxRow_eq f w row,
      fun _ => normRow_eq mean g w row gain⟩
  · dsimp only
    simp only [← outFraction_eq]
    refine ⟨fun h => vroutine_stores (runs_of_word (exec_vexp2 s q d a f ext) h) fun _ _ => putSat_lt ..,
      fun h => vroutine_stores (runs_of_word (exec_vlog2 s q d a f ext) h) fun _ _ => vlog2El_lt ..,
      fun h => vroutine_stores (runs_of_word (exec_vrcp s q d a f ext) h) fun _ _ => vrcpEl_lt ..,
      fun h => vroutine_stores (runs_of_word (exec_vrsq s q d a f ext) h) fun _ _ => vrsqEl_lt ..,
      fun h => vroutine_stores (runs_of_word (exec_vgelu s q d a f ext) h) fun _ _ => putSat_lt .., vsmax_spec, fun mean => ?_,
      by decide +kernel, by decide +kernel, by decide +kernel, by decide +kernel, by decide +kernel, by decide +kernel, by decide +kernel, by decide +kernel,
      by decide +kernel, fun f g w A hA => if_neg (by omega), fun f g w => if_pos rfl, fun f g w A hA => (if_neg (by omega)).trans (if_neg (by omega))⟩
    cases mean with
    | false => exact fun h => vnorm_spec (runs_of_word (exec_vrmsn s q d a b ext) h)
    | true => exact fun h => vnorm_spec (runs_of_word (exec_vlnrm s q d a b ext) h)

/-! ## The optimizer words (R244, R245) -/

/-- A clamped value reads back from its stored bits. -/
theorem signExt_clampTo {w : Nat} (hw : 0 < w) (v : Int) : signExt w (lowBits w (clampTo w false v) : Int) = clampTo w false v := by
  have hp : (2 : Int) ^ w = 2 * 2 ^ (w - 1) := by rw [← pow_succ', Nat.sub_add_cancel hw]
  have hpos : (0 : Int) < 2 ^ (w - 1) := by positivity
  have hc : -(2 ^ (w - 1)) ≤ clampTo w false v ∧ clampTo w false v ≤ 2 ^ (w - 1) - 1 := by
    simp only [clampTo, Bool.false_eq_true, if_false]
    omega
  generalize clampTo w false v = c at hc ⊢
  have hb : (lowBits w c : Int) = c % 2 ^ w := cast_lowBits w c
  rw [signExt, lowBits_natCast (lowBits_lt w c)]
  have hle : 2 ^ (w - 1) ≤ lowBits w c ↔ (2 : Int) ^ (w - 1) ≤ c % 2 ^ w := by rw [← hb]; norm_cast
  rw [if_congr hle rfl rfl, hb]
  by_cases h0 : 0 ≤ c
  · rw [Int.emod_eq_of_lt h0 (by omega), if_neg (by omega)]
  · rw [← Int.add_emod_right c, Int.emod_eq_of_lt (by omega) (by omega), if_pos (by omega), add_sub_cancel_right]

theorem stored_eq {w : Nat} (hw : 0 < w) (v : Int) : stored w v = (putClamped w v, clampTo w false v) := by
  simp only [stored, putSat_eq, signExt_clampTo hw]

theorem hyperOf_spec (v : Word) : (hyperOf v).epsx = v.toNat / 2 ^ 54 % 32 ∧ (hyperOf v).us = v.toNat / 2 ^ 48 % 64 ∧
    (hyperOf v).lr = (v.toNat / 2 ^ 32 % 65536 : Nat) ∧ (hyperOf v).beta2 = (v.toNat / 2 ^ 16 % 65536 : Nat) ∧ (hyperOf v).beta1 = (v.toNat % 65536 : Nat) := by
  simp only [hyperOf, fieldN, BitVec.extractLsb'_toNat, Nat.shiftRight_eq_div_pow, Nat.reducePow, Nat.div_one, and_self]

section
variable (h : Hyper) (ww mw : Nat) (rd : Int → Nat → Int) (W G M V : Int)

theorem sgdmEl_eq (hm : 0 < mw) : sgdmEl h ww mw rd W G M = (putClamped mw (shrRne (h.beta1 * M + G * 2 ^ 16) 16),
    putClamped ww (W - rd (h.lr * clampTo mw false (shrRne (h.beta1 * M + G * 2 ^ 16) 16)) h.us)) := by
  rw [sgdmEl, stored_eq hm, putSat_eq]

theorem lionEl_eq : lionEl h ww mw rd W G M = (putClamped mw (shrRne (h.beta2 * M + (2 ^ 16 - h.beta2) * G) 16),
    putClamped ww (W - rd (if h.beta1 * M + (2 ^ 16 - h.beta1) * G < 0 then -h.lr else if h.beta1 * M + (2 ^ 16 - h.beta1) * G = 0 then 0 else h.lr) h.us)) := by
  rw [lionEl]
  generalize h.beta1 * M + (2 ^ 16 - h.beta1) * G = c
  have hs : h.lr * c.sign = if c < 0 then -h.lr else if c = 0 then 0 else h.lr := by
    rcases lt_trichotomy c 0 with hc | rfl | hc
    · rw [if_pos hc, Int.sign_eq_neg_one_of_neg hc, mul_neg_one]
    · rw [if_neg (lt_irrefl 0), if_pos rfl, Int.sign_zero, mul_zero]
    · rw [if_neg hc.not_gt, if_neg hc.ne', Int.sign_eq_one_of_pos hc, mul_one]
  rw [hs, putSat_eq, putSat_eq]

theorem adamEl_moments (hm : 0 < mw) : (adamEl h ww mw rd W G M V).1 = putClamped mw (shrRne (h.beta1 * M + (2 ^ 16 - h.beta1) * G) 16) ∧
    (adamEl h ww mw rd W G M V).2.1 = putClamped 32 (shrRne (h.beta2 * V + (2 ^ 16 - h.beta2) * G * G) 16) := by
  rw [adamEl, stored_eq hm, stored_eq (by decide)]
  exact ⟨rfl, rfl⟩

/-- The denominator of VOPT.ADAM. -/
def adamT : Int := clampTo 32 false (shrRne (h.beta2 * V + (2 ^ 16 - h.beta2) * G * G) 16) + 2 ^ h.epsx

theorem adamEl_weight (hm : 0 < mw) (hx : 0 < adamT h G V) : (adamEl h ww mw rd W G M V).2.2 =
    putClamped ww (W - rd (h.lr * clampTo mw false (shrRne (h.beta1 * M + (2 ^ 16 - h.beta1) * G) 16) * (rsqCore (adamT h G V) 0).1)
      (30 + (rsqCore (adamT h G V) 0).2 + h.us).toNat) := by
  rw [adamEl, stored_eq hm, stored_eq (by decide)]
  exact (if_pos hx).trans (putSat_eq ..)

theorem adamEl_kept (hm : 0 < mw) (hx : adamT h G V ≤ 0) : (adamEl h ww mw rd W G M V).2.2 = ((putClamped ww W).1, true) := by
  rw [adamEl, stored_eq hm, stored_eq (by decide)]
  exact (if_neg (by rw [← adamT]; omega)).trans (by rw [putSat_eq])

end

theorem adamEl_lt (h : Hyper) (ww mw : Nat) (rd : Int → Nat → Int) (W G M V : Int) : (adamEl h ww mw rd W G M V).2.2.1 < 2 ^ ww := by
  rw [adamEl]
  dsimp only
  split
  · exact putSat_lt ..
  · exact putSat_lt ww false W

theorem zip_range {β : Type} (n : Nat) (g : Nat → β) : ((List.range n).map g).zip (List.range n) = (List.range n).map fun i => (g i, i) := by
  exact List.ext_getElem (by simp) fun i _ _ => by simp

/-- An effect that writes every element of a tile (R184). -/
def FullTile (t : TileView) (x : Effect) (f : Nat → Nat × Bool) (poi : Nat → Bool) (sat : Bool) : Prop := ∃ bits poison,
  x = .tile t.slot (2 ^ (t.w * t.n) - 1) bits poison (sat || (List.range t.n).any fun j => (f j).2) false ∧
  ∀ j < t.n, tileBits bits t.w j = (f j).1 ∧ elemPoison poison t.w j = poi j

/-- The result that a tile receives from a value and a poison mark of each of its elements. -/
def tileResult (dist : Nat) (t : TileView) (f : Nat → Nat × Bool) (poi : Nat → Bool) (sat : Bool) : InFlight :=
  { dist := dist, eff := .tile t.slot (2 ^ (t.w * t.n) - 1) (packBits t.w ((List.range t.n).map fun j => (f j).1)) (packPoison t.w ((List.range t.n).map poi))
      (sat || (List.range t.n).any fun j => (f j).2) false }

theorem putTile_eq (s : State) (dist : Nat) (t : TileView) (f : Nat → Nat × Bool) (poi : Nat → Bool) (sat : Bool) {n : Nat} (hn : n = t.n) :
    s.putTile dist t ((List.range n).map fun j => (f j, poi j)) sat = s.withResults [tileResult dist t f poi sat] := by
  subst hn
  rw [State.putTile, State.push_eq, List.map_map, List.map_map, List.any_map]
  rfl

theorem fullTile_tileResult (dist : Nat) {t : TileView} (hw : 0 < t.w) {f : Nat → Nat × Bool} (hf : ∀ j, (f j).1 < 2 ^ t.w) (poi : Nat → Bool) (sat : Bool) :
    FullTile t (tileResult dist t f poi sat).eff f poi sat := by
  obtain ⟨-, -, h⟩ := packed_elements hw (out := (List.range t.n).map fun j => (f j, poi j)) fun x hx => by
    obtain ⟨j, -, rfl⟩ := List.mem_map.mp hx
    exact hf j
  refine ⟨_, _, rfl, fun j hj => ?_⟩
  have := h j (by rw [List.length_map, List.length_range]; exact hj)
  simp only [List.map_map, List.getElem_map, List.getElem_range] at this
  exact this

/-- The index of an optimizer word's rounding (R53, R238). -/
def voptIndex (s : State) (e : BitVec 25) (cols j : Nat) : Nat :=
  let X := s.cur.regs.h[(e.extractLsb' 5 4).toNat]
  if e.getLsbD 9 then
    linIndex X.exts ([X.org 0 + j % cols, X.org 1 + j / cols, X.org 2, X.org 3, X.org 4].zipIdx.map fun c => if c.2 < X.rank then c.1 else 0)
  else j

theorem voptRound_eq (s : State) (m : BitVec 2) (e : BitVec 25) (cols j : Nat) :
    s.voptRound m e cols j = fun v n => roundBy m s.cur.ctl.seed.toNat s.cur.ctl.step.toNat (voptIndex s e cols j) v n := by
  funext v n
  rw [State.voptRound, rounding_go, voptIndex]
  cases e.getLsbD 9 <;> rfl

/-- The shapes of an optimizer word (R236, R244). -/
def OptimizerShapes (D A M : TileView) : Prop := SameGrid A D ∧ SameGrid M D ∧ (D.w = 8 ∨ D.w = 16) ∧ (A.w = 8 ∨ A.w = 16) ∧ (M.w = 16 ∨ M.w = 32)

section
variable {s : State} {m : BitVec 2} {d a b : BitVec 6} {e : BitVec 25}

/-- VOPT.SGDM and VOPT.LION on tiles that their entries allow, and on others. -/
theorem vopt2_eq (f : Hyper → Nat → Nat → (Int → Nat → Int) → Int → Int → Int → (Nat × Bool) × (Nat × Bool)) :
    let D := s.tv d
    let A := s.tv a
    let M := s.tv b
    let out := fun j => f (hyperOf (s.cur.s (e.extractLsb' 0 5))) D.w M.w
      (fun v n => roundBy m s.cur.ctl.seed.toNat s.cur.ctl.step.toNat (voptIndex s e D.cols j) v n) (D.get false j) (A.get false j) (M.get false j)
    let lat := 8 + 8 * s.blocks [D, A, M]
    let ok := (∀ t ∈ [D, A, M], t.legal = true) ∧ OptimizerShapes D A M
    (ok → s.vopt2 m d a b (some e) f = s.withResults [tileResult lat M (fun j => (out j).1) (fun j => M.poi j || A.poi j) (M.sat || A.sat),
      tileResult lat D (fun j => (out j).2) (fun j => D.poi j || A.poi j || M.poi j) (D.sat || A.sat || M.sat)]) ∧
    (¬ ok → s.vopt2 m d a b (some e) f = s.trapHere 3 0) := by
  intro D A M out lat ok
  have hok : (([D, A, M].all fun t => t.legal) &&
      (A.grid D && M.grid D && (D.w == 8 || D.w == 16) && (A.w == 8 || A.w == 16) && (M.w == 16 || M.w == 32))) = true ↔ ok := by
    simp only [ok, OptimizerShapes, Bool.and_eq_true, Bool.or_eq_true, beq_iff_eq, grid_iff, List.all_eq_true, and_assoc]
  refine ⟨fun h => ?_, fun h => if_neg (mt hok.mp h)⟩
  have hn : D.n = M.n := by rw [TileView.n, TileView.n, h.2.2.1.1, h.2.2.1.2]
  refine (if_pos (hok.mpr h)).trans ?_
  simp only [voptRound_eq, zip_range, List.map_map]
  refine (congrArg (State.putTile · _ _ _ _) (putTile_eq s lat M (fun j => (out j).1) (fun j => M.poi j || A.poi j) _ hn)).trans ?_
  exact (putTile_eq _ lat D (fun j => (out j).2) (fun j => D.poi j || A.poi j || M.poi j) _ rfl).trans (withResults_append ..)

/-- VOPT.ADAM on tiles that its entry allows, and on others. -/
theorem vopt3_eq :
    let D := s.tv d
    let A := s.tv a
    let M := s.tv b
    let V := s.tv (e.extractLsb' 10 6)
    let out := fun j => adamEl (hyperOf (s.cur.s (e.extractLsb' 0 5))) D.w M.w
      (fun v n => roundBy m s.cur.ctl.seed.toNat s.cur.ctl.step.toNat (voptIndex s e D.cols j) v n) (D.get false j) (A.get false j) (M.get false j) (V.get false j)
    let lat := 8 + 8 * s.blocks [D, A, M, V]
    let ok := (∀ t ∈ [D, A, M, V], t.legal = true) ∧ OptimizerShapes D A M ∧ SameGrid V D ∧ V.w = 32
    (ok → s.vopt3 m d a b (some e) = s.withResults [tileResult lat M (fun j => (out j).1) (fun j => M.poi j || A.poi j) (M.sat || A.sat),
      tileResult lat V (fun j => (out j).2.1) (fun j => V.poi j || A.poi j) (V.sat || A.sat),
      tileResult lat D (fun j => (out j).2.2) (fun j => D.poi j || A.poi j || M.poi j || V.poi j) (D.sat || A.sat || M.sat || V.sat)]) ∧
    (¬ ok → s.vopt3 m d a b (some e) = s.trapHere 3 0) := by
  intro D A M V out lat ok
  have hok : (([D, A, M, V].all fun t => t.legal) &&
      (A.grid D && M.grid D && V.grid D && (D.w == 8 || D.w == 16) && (A.w == 8 || A.w == 16) && (M.w == 16 || M.w == 32) && V.w == 32)) = true ↔ ok := by
    simp only [ok, OptimizerShapes, Bool.and_eq_true, Bool.or_eq_true, beq_iff_eq, grid_iff, List.all_eq_true]
    tauto
  refine ⟨fun h => ?_, fun h => if_neg (mt hok.mp h)⟩
  have hm : D.n = M.n := by rw [TileView.n, TileView.n, h.2.1.2.1.1, h.2.1.2.1.2]
  have hv : D.n = V.n := by rw [TileView.n, TileView.n, h.2.2.1.1, h.2.2.1.2]
  refine (if_pos (hok.mpr h)).trans ?_
  simp only [voptRound_eq, zip_range, List.map_map]
  refine (congrArg (fun t => State.putTile (State.putTile t _ _ _ _) _ _ _ _) (putTile_eq s lat M (fun j => (out j).1) (fun j => M.poi j || A.poi j) _ hm)).trans ?_
  refine (congrArg (State.putTile · _ _ _ _) (putTile_eq _ lat V (fun j => (out j).2.1) (fun j => V.poi j || A.poi j) _ hv)).trans ?_
  refine (putTile_eq _ lat D (fun j => (out j).2.2) (fun j => D.poi j || A.poi j || M.poi j || V.poi j) _ rfl).trans ?_
  rw [withResults_append, withResults_append]
  rfl

/-- An optimizer word of two tiles, whose entry gives each element bits of the tiles' widths. -/
theorem vopt2_spec {i : Instr} {f : Hyper → Nat → Nat → (Int → Nat → Int) → Int → Int → Int → (Nat × Bool) × (Nat × Bool)}
    (he : exec i s = .next (s.vopt2 m d a b (some e) f)) (hf : ∀ h ww mw rd W G M, 0 < mw → (f h ww mw rd W G M).1.1 < 2 ^ mw ∧ (f h ww mw rd W G M).2.1 < 2 ^ ww) :
    let D := s.tv d
    let A := s.tv a
    let M := s.tv b
    let out := fun j => f (hyperOf (s.cur.s (e.extractLsb' 0 5))) D.w M.w
      (fun v n => roundBy m s.cur.ctl.seed.toNat s.cur.ctl.step.toNat (voptIndex s e D.cols j) v n) (D.get false j) (A.get false j) (M.get false j)
    let ok := (∀ t ∈ [D, A, M], t.legal = true) ∧ OptimizerShapes D A M
    (ok → ∃ em ew : Effect,
      exec i s = .next (s.withResults [{ dist := 8 + 8 * s.blocks [D, A, M], eff := em }, { dist := 8 + 8 * s.blocks [D, A, M], eff := ew }]) ∧
      FullTile M em (fun j => (out j).1) (fun j => M.poi j || A.poi j) (M.sat || A.sat) ∧
      FullTile D ew (fun j => (out j).2) (fun j => D.poi j || A.poi j || M.poi j) (D.sat || A.sat || M.sat)) ∧
    (¬ ok → exec i s = .next (s.trapHere 3 0)) := by
  intro D A M out ok
  obtain ⟨hgood, hbad⟩ := vopt2_eq (s := s) (m := m) (d := d) (a := a) (b := b) (e := e) f
  have hlt := fun j => hf (hyperOf (s.cur.s (e.extractLsb' 0 5))) D.w M.w
    (fun v n => roundBy m s.cur.ctl.seed.toNat s.cur.ctl.step.toNat (voptIndex s e D.cols j) v n) (D.get false j) (A.get false j) (M.get false j) (tv_w_pos s b)
  exact ⟨fun h => ⟨_, _, he.trans (congrArg _ (hgood h)), fullTile_tileResult 0 (tv_w_pos s b) (fun j => (hlt j).1) _ _,
    fullTile_tileResult 0 (tv_w_pos s d) (fun j => (hlt j).2) _ _⟩, fun h => he.trans (congrArg _ (hbad h))⟩

end

/-- Settles O35. -/
theorem optimizerWords : Obligations.OptimizerWords := by
  unfold Obligations.OptimizerWords
  refine ⟨hyperOf_spec, fun h ww mw rd W G M V hw hm => ?_, by decide +kernel, fun s q m d a b e => ?_⟩
  · obtain ⟨h1, h2⟩ := adamEl_moments h ww mw rd W G M V hm
    exact ⟨sgdmEl_eq h ww mw rd W G M hm, lionEl_eq h ww mw rd W G M, h1, h2, adamEl_weight h ww mw rd W G M V hm, adamEl_kept h ww mw rd W G M V hm⟩
  · refine ⟨fun h => vopt2_spec (runs_of_word (exec_voptSgdm s q m d a b (some e)) h) fun h ww mw rd W G M hm => ?_,
      fun h => vopt2_spec (runs_of_word (exec_voptLion s q m d a b (some e)) h) fun h ww mw rd W G M _ => ?_, fun h => ?_⟩
    · rw [sgdmEl_eq h ww mw rd W G M hm]; exact ⟨lowBits_lt _ _, lowBits_lt _ _⟩
    · rw [lionEl_eq]; exact ⟨lowBits_lt _ _, lowBits_lt _ _⟩
    · obtain ⟨hgood, hbad⟩ := vopt3_eq (s := s) (m := m) (d := d) (a := a) (b := b) (e := e)
      have he := runs_of_word (exec_voptAdam s q m d a b (some e)) h
      have hmv := fun (j : Nat) => adamEl_moments (hyperOf (s.cur.s (e.extractLsb' 0 5))) (s.tv d).w (s.tv b).w
        (fun v n => roundBy m s.cur.ctl.seed.toNat s.cur.ctl.step.toNat (voptIndex s e (s.tv d).cols j) v n) ((s.tv d).get false j) ((s.tv a).get false j)
        ((s.tv b).get false j) ((s.tv (e.extractLsb' 10 6)).get false j) (tv_w_pos s b)
      refine ⟨fun ho => ⟨_, _, _, he.trans (congrArg _ (hgood ho)), fullTile_tileResult 0 (tv_w_pos s b) (fun j => ?_) _ _,
        fullTile_tileResult 0 (tv_w_pos s _) (fun j => ?_) _ _, fullTile_tileResult 0 (tv_w_pos s d) (fun j => adamEl_lt ..) _ _⟩,
        fun ho => he.trans (congrArg _ (hbad ho))⟩
      · rw [(hmv j).1]; exact lowBits_lt _ _
      · rw [(hmv j).2, ho.2.2.2]; exact lowBits_lt _ _

end Sys2Proof.Proofs
end

