-- ==== Sys2Proof/Proofs/Matrix.lean ====
section
/-! Forwarded stores, matrix words and epilogue words (R121, R223 to R234). -/
namespace Sys2Proof.Proofs
open Sys2Proof Sys2Proof.Machine

-- One theorem after another: side by side they need more memory than one run may take.
set_option Elab.async false

/-- A node in front of a candidate TST of its merged run, at another bundle than the one that filled the TST's buffer before. -/
def storesForward : State :=
  let image : Image := { scr := [(0x100, 0, 4096)] }
  let handle : Handle := BitVec.ofNat 256 (0x100 + 1 * 2 ^ 20 + 1 * 2 ^ 24 + 3 * 2 ^ 64)
  let buffer : FwdBuffer := { pAddr := 24, odd := false, slot := 3, inC := true, iter := none, taken := false, tile := { bits := 0 }, shape := 1, h := handle, fa := 12 }
  let pair : Splice := { st := .merged, p := 1, c := 2, cands := [{ hp := 1, tp := 1, pAddr := 24, hc := 1, tc := 1, cAddr := 12 }], bufs := [buffer] }
  { State.reset with
    cur := { desc := { uid := 1, image := image }, run := { st := .running }, regs := { Regs.reset with h := Regs.reset.h.set 1 handle },
             ctl := { part := 0xFFFFFFFF }, eng := {} },
    cores := [{ idx := 0, slots := #v[1, 0, 0, 0], current := 1, pairs := [pair] }],
    bnd := { State.reset.bnd with fa := 24, addr := 24 } }

theorem runs_storesForward : Runs (.tst 0 0 1 1 0) storesForward := by decide +kernel
/-- Another TST fills the buffer: the model notes its bundle there. -/
theorem storesForward_fills (l : List Cell) : ((storesForward.elideTile (storesForward.cur.regs.h[1]) (storesForward.tv 1) l).pair.bufs.map FwdBuffer.fa) = [24] := rfl

/-- Refutes O36: the buffer that a forwarded TST fills takes the bundle and the position of the TST, too (`fa` and `pos`), of which the statement says that they stay
as they were. In `storesForward` the buffer was filled by the bundle at 12, and the TST of the bundle at 24 fills it anew. -/
theorem not_tileLoadsAndStores : ¬ Obligations.TileLoadsAndStores := by
  unfold Obligations.TileLoadsAndStores
  intro h
  have legal : (storesForward.tv 1).legal = true := by decide +kernel
  have checked : storesForward.checkHandle storesForward.cur storesForward.cur.regs.h[(1 : BitVec 4).toNat] true = none := by decide +kernel
  have forwards : storesForward.forwardsTst = true := by decide +kernel
  obtain ⟨-, hst⟩ := h storesForward 0 0 1 1 0
  obtain ⟨-, hlegal⟩ := hst runs_storesForward
  obtain ⟨-, hchecked⟩ := hlegal legal
  obtain ⟨-, -, -, hforwards⟩ := hchecked checked
  obtain ⟨tile, hbufs, -⟩ := hforwards forwards
  have hfa := congrArg (List.map FwdBuffer.fa) hbufs
  have kept : (storesForward.pair.bufs.map FwdBuffer.fa) = [12] := rfl
  refine absurd ((storesForward_fills _).symm.trans (hfa.trans ((List.map_map ..).trans ((List.map_congr_left fun b _ => ?_).trans kept)))) (by decide)
  dsimp only [Function.comp]
  split
  · rfl
  · rfl

/-! ## Packed elements of accumulators (R220) -/

theorem unpack_eq (w : Nat) : ∀ (n x : Nat), unpack w x n = (List.range n).map (packGet w x)
  | 0, _ => rfl
  | n + 1, x => by
    rw [unpack, unpack_eq w n, List.range_succ_eq_map, List.map_cons, List.map_map]
    refine congrArg₂ _ (by rw [packGet, Nat.mul_zero, Nat.pow_zero, Nat.div_one]) (List.map_congr_left fun i _ => ?_)
    rw [packGet, Nat.div_div_eq_div_mul, ← Nat.pow_add, Function.comp, packGet, Nat.mul_succ, Nat.add_comm]

theorem packList_eq (w : Nat) (l : List Int) : packList w l = packBits w (l.map (lowBits w)) := by
  rw [packList, packBits, List.foldr_map]

/-- Element j of a packed list. -/
theorem packList_bits (w : Nat) {l : List Int} {j : Nat} (hj : j < l.length) : packList w l / 2 ^ (w * j) % 2 ^ w = lowBits w l[j] := by
  obtain ⟨-, h⟩ := packBits_spec (w := w) (l := l.map (lowBits w)) fun v hv => by
    obtain ⟨x, -, rfl⟩ := List.mem_map.mp hv
    exact lowBits_lt _ _
  rw [packList_eq]
  exact (h j (by rw [List.length_map]; exact hj)).trans (List.getElem_map ..)

theorem packList_range_bits (w : Nat) (f : Nat → Int) {n j : Nat} (hj : j < n) :
    packList w ((List.range n).map f) / 2 ^ (w * j) % 2 ^ w = lowBits w (f j) := by
  rw [packList_bits w (by rw [List.length_map, List.length_range]; exact hj), List.getElem_map, List.getElem_range]

/-- Bits beyond a packed list are zero. -/
theorem packList_lt (w : Nat) (l : List Int) : packList w l < 2 ^ (w * l.length) := by
  obtain ⟨h, -⟩ := packBits_spec (w := w) (l := l.map (lowBits w)) fun v hv => by
    obtain ⟨x, -, rfl⟩ := List.mem_map.mp hv
    exact lowBits_lt _ _
  rwa [packList_eq, ← List.length_map (f := lowBits w)]

/-- An integer that fits its width reads back from its low bits. -/
theorem signExt_lowBits {w : Nat} (hw : 0 < w) {v : Int} (h1 : -(2 ^ (w - 1)) ≤ v) (h2 : v < 2 ^ (w - 1)) : signExt w (lowBits w v : Int) = v := by
  have hc : clampTo w false v = v := by simp only [clampTo, Bool.false_eq_true, if_false]; omega
  rw [← hc]; exact signExt_clampTo hw v

theorem packGet_packList_range {w : Nat} (hw : 0 < w) (f : Nat → Int) {n j : Nat} (hj : j < n) (h1 : -(2 ^ (w - 1)) ≤ f j) (h2 : f j < 2 ^ (w - 1)) :
    packGet w (packList w ((List.range n).map f)) j = f j := by
  rw [packGet, packList_range_bits w f hj]; exact signExt_lowBits hw h1 h2

/-- A packed element lies within the signed type of its width. -/
theorem packGet_bounds {w : Nat} (hw : 0 < w) (x i : Nat) : -(2 ^ (w - 1)) ≤ packGet w x i ∧ packGet w x i < 2 ^ (w - 1) := by
  have hp : (2 : Int) ^ w = 2 * 2 ^ (w - 1) := by rw [← pow_succ', Nat.sub_add_cancel hw]
  have hb : ((x / 2 ^ (w * i) % 2 ^ w : Nat) : Int) < 2 ^ w := by exact_mod_cast Nat.mod_lt _ (Nat.two_pow_pos w)
  rw [packGet]
  have hlt : x / 2 ^ (w * i) % 2 ^ w < 2 ^ w := Nat.mod_lt _ (Nat.two_pow_pos w)
  generalize x / 2 ^ (w * i) % 2 ^ w = y at hb hlt
  rw [signExt, lowBits_natCast hlt]
  have hle : 2 ^ (w - 1) ≤ y ↔ (2 : Int) ^ (w - 1) ≤ (y : Int) := by norm_cast
  split
  · rename_i h
    have := hle.mp h
    omega
  · rename_i h
    have := mt hle.mpr h
    have : (0 : Int) < 2 ^ (w - 1) := by positivity
    omega

theorem packGet_zero (w i : Nat) : packGet w 0 i = 0 := by
  rw [packGet, Nat.zero_div, Nat.zero_mod, signExt]
  have : lowBits w ((0 : Nat) : Int) = 0 := lowBits_natCast (Nat.two_pow_pos w)
  rw [this, if_neg (by have := Nat.two_pow_pos (w - 1); omega)]
  rfl

/-! ## The end of a run (R48, R226) -/

section
variable (a : Acc) (n run : Nat)

/-- Element i of an accumulator when a run ends, with its clamp flag. -/
def runElem (i : Nat) : Int × Bool :=
  if a.sat.testBit i then (packGet 48 a.base i, false)
  else (clampTo 48 false (packGet 48 a.base i + packGet 48 run i), clamps 48 false (packGet 48 a.base i + packGet 48 run i))

theorem satI_eq (w : Nat) (x : Int) : satI w x = (clampTo w false x, clamps w false x) := by
  have h := clampTo_eq w false x
  exact h

theorem addRun_eq (h : run ≠ 0) : a.addRun n run = { a with
    base := packList 48 ((List.range n).map fun i => (runElem a run i).1), sat := a.sat ||| packList 1 ((List.range n).map fun i => if (runElem a run i).2 then 1 else 0),
    sticky := a.sticky || (List.range n).any fun i => (runElem a run i).2 } := by
  have hres : ((unpack 48 a.base n).zip ((unpack 48 run n).zip ((List.range n).map fun i => a.sat.testBit i))).map
      (fun e => if e.2.2 then (e.1, false) else satI 48 (e.1 + e.2.1)) = (List.range n).map (runElem a run) := by
    simp only [unpack_eq, List.zip_map', List.map_map, satI_eq]
    rfl
  rw [Acc.addRun, if_neg h]
  refine (congrArg (fun l : List (Int × Bool) => ({ a with
    base := packList 48 (l.map (·.1)), sat := a.sat ||| packList 1 (l.map fun r => if r.2 then 1 else 0), sticky := a.sticky || l.any (·.2) } : Acc)) hres).trans ?_
  simp only [List.map_map, List.any_map]
  rfl

theorem testBit_packList_one (f : Nat → Bool) {i : Nat} (hi : i < n) : (packList 1 ((List.range n).map fun i => if f i then 1 else 0)).testBit i = f i := by
  have h := packList_range_bits 1 (fun i => if f i then 1 else 0) hi
  rw [Nat.one_mul, Nat.pow_one] at h
  rw [Nat.testBit_eq_decide_div_mod_eq, h]
  cases f i <;> rfl

/-- A value within the type of its width is not clamped. -/
theorem clampTo_of_bounds {w : Nat} {v : Int} (h : -(2 ^ (w - 1)) ≤ v ∧ v < 2 ^ (w - 1)) : clampTo w false v = v := by
  simp only [clampTo, Bool.false_eq_true, if_false]; omega

theorem clampTo_bounds (w : Nat) (v : Int) : -(2 ^ (w - 1)) ≤ clampTo w false v ∧ clampTo w false v < 2 ^ (w - 1) := by
  have : (0 : Int) < 2 ^ (w - 1) := by positivity
  simp only [clampTo, Bool.false_eq_true, if_false]; omega

/-- The end of a run, element by element. -/
theorem addRun_spec {i : Nat} (hi : i < n) :
    packGet 48 (a.addRun n run).base i = (if a.sat.testBit i then packGet 48 a.base i else clampTo 48 false (packGet 48 a.base i + packGet 48 run i)) ∧
    (a.addRun n run).sat.testBit i = (a.sat.testBit i || clamps 48 false (packGet 48 a.base i + packGet 48 run i)) ∧
    (a.sat.testBit i = false → clamps 48 false (packGet 48 a.base i + packGet 48 run i) = true → (a.addRun n run).sticky = true) := by
  by_cases h0 : run = 0
  · subst h0
    have hc : clampTo 48 false (packGet 48 a.base i) = packGet 48 a.base i := clampTo_of_bounds (packGet_bounds (by decide) _ _)
    have hcl : clamps 48 false (packGet 48 a.base i) = false := decide_eq_false (not_not_intro hc)
    simp only [Acc.addRun, if_true, packGet_zero, add_zero, hc, hcl, Bool.or_false, ite_self, Bool.false_eq_true, false_implies, implies_true, and_self]
  · have hb : -(2 ^ (48 - 1)) ≤ (runElem a run i).1 ∧ (runElem a run i).1 < 2 ^ (48 - 1) := by
      rw [runElem]
      split
      · exact packGet_bounds (by decide) _ _
      · exact clampTo_bounds 48 _
    rw [addRun_eq a n run h0]
    refine ⟨?_, ?_, fun hs hcl => ?_⟩
    · rw [packGet_packList_range (by decide) _ hi hb.1 hb.2, runElem]
      split <;> rfl
    · rw [Nat.testBit_or, testBit_packList_one n _ hi, runElem]
      cases a.sat.testBit i <;> rfl
    · have : (runElem a run i).2 = true := by rw [runElem, if_neg (by rw [hs]; decide)]; exact hcl
      exact Bool.or_eq_true_iff.mpr (Or.inr (List.any_eq_true.mpr ⟨i, List.mem_range.mpr hi, this⟩))

theorem addRun_keeps : (a.addRun n run).poison = a.poison ∧ (a.addRun n run).opened = a.opened := by
  rw [Acc.addRun]
  split
  · exact ⟨rfl, rfl⟩
  · exact ⟨rfl, rfl⟩

end

theorem matrixRunEnd_some {s : State} {uid : Nat} {a : BitVec 4} {x : Acc} {r : Nat} {rest : List Nat} (hx : (s.node uid).regs.acc[a.toNat]? = some x)
    (he : x.ended = r :: rest) : exec (.matrixRunEnd uid a) s = .next (s.setNode { s.node uid with
      regs := { (s.node uid).regs with acc := (s.node uid).regs.acc.setIfInBounds a.toNat { x.addRun (accElems (s.node uid).run.gangWidth) r with ended := rest } } }) := by
  rw [exec_matrixRunEnd, execMatrixRunEnd]
  simp only [hx, he]

theorem matrixRunEnd_none {s : State} {uid : Nat} {a : BitVec 4} (h : ∀ x, (s.node uid).regs.acc[a.toNat]? = some x → x.ended = []) :
    exec (.matrixRunEnd uid a) s = .fault (.notEnabled "MATRIX_RUN_END") := by
  rw [exec_matrixRunEnd, execMatrixRunEnd]
  cases hx : (s.node uid).regs.acc[a.toNat]? with
  | none => rfl
  | some x => simp only [h x hx]

theorem accOf_getElem {s : State} {a : BitVec 4} (h : a.toNat < 10) : s.cur.regs.acc[a.toNat]? = some (s.accOf a) := by
  rw [State.accOf, Vector.getElem?_eq_getElem h]; rfl

theorem accOf_of_some {s : State} {a : BitVec 4} {x : Acc} (h : s.cur.regs.acc[a.toNat]? = some x) : s.accOf a = x := by rw [State.accOf, h]; rfl

/-- Settles O39. -/
theorem runsSaturate : Obligations.RunsSaturate := by
  unfold Obligations.RunsSaturate
  refine ⟨fun a n run => ?_, fun s a r rest ha he => ?_, fun s a he => ?_, fun s uid a => ⟨fun x r rest hx he => matrixRunEnd_some hx he, matrixRunEnd_none⟩⟩
  · obtain ⟨hp, ho⟩ := addRun_keeps a n run
    exact ⟨hp, ho, fun i hi => addRun_spec a n run hi⟩
  · refine (matrixRunEnd_some (by rw [node_own]; exact accOf_getElem ha) he).trans ?_
    rw [node_own]
    exact congrArg _ (if_pos rfl)
  · refine matrixRunEnd_none fun x hx => ?_
    rw [node_own] at hx
    rwa [← accOf_of_some hx]

/-! ## Matrix chains (R223, R224) -/

/-- A word that names an accumulator runs only where the accumulator exists (R59). -/
theorem acc_lt_of_names {i : Instr} {s : State} {a : BitVec 4} (h : Runs i s) (hn : Reg.a a.toNat ∈ i.sig.names) : a.toNat < 10 := by
  have := List.all_eq_true.mp h.2.1 _ hn
  simp only [regExists, accExists, Bool.and_eq_true, decide_eq_true_eq] at this
  exact this.2

/-- No register but an accumulator has changed, and no other accumulator than `a`. -/
def OthersKept (s t : State) (a : BitVec 4) : Prop := { t.cur.regs with acc := s.cur.regs.acc } = s.cur.regs ∧
  ∀ b : Fin 10, b.val ≠ a.toNat → t.cur.regs.acc[b] = s.cur.regs.acc[b]

theorem setAcc_spec (s : State) {a : BitVec 4} (ha : a.toNat < 10) (x : Acc) : (s.setAcc a x).cur.regs.acc[a.toNat]? = some x ∧ OthersKept s (s.setAcc a x) a := by
  refine ⟨Vector.getElem?_setIfInBounds_self_of_lt ha, rfl, fun b hb => ?_⟩
  exact Vector.getElem_setIfInBounds_ne b.isLt (Ne.symm hb)

theorem take_drop_range {β : Type} (f : Nat → β) {a b n : Nat} (h : a + b ≤ n) : (((List.range n).map f).drop a).take b = (List.range b).map fun j => f (a + j) := by
  refine List.ext_getElem ?_ fun j h1 h2 => ?_
  · simp only [List.length_take, List.length_drop, List.length_map, List.length_range]; omega
  · simp only [List.getElem_take, List.getElem_drop, List.getElem_map, List.getElem_range]

/-- Row i of the elements of an accumulator. -/
theorem row_of_elems {mr mc i : Nat} (base : Nat) (hi : i < mr) :
    ((unpack 48 base (mr * mc)).drop (i * mc)).take mc = (List.range mc).map fun j => packGet 48 base (i * mc + j) := by
  have : (i + 1) * mc ≤ mr * mc := Nat.mul_le_mul_right _ hi
  rw [unpack_eq, take_drop_range]
  rw [Nat.add_mul, Nat.one_mul] at this
  exact this

theorem rowSums_eq (mr mc base : Nat) : rowSums mr mc (unpack 48 base (mr * mc)) = (List.range mr).map fun i => ((List.range mc).map fun j => packGet 48 base (i * mc + j)).sum :=
  List.map_congr_left fun i hi => by rw [row_of_elems base (List.mem_range.mp hi), sumInt_eq]

/-- Rows added one after the other. -/
theorem foldl_addRows (n : Nat) (g : Nat → Nat → Int) (l : List Nat) (h : Nat → Int) :
    l.foldl (fun acc i => (acc.zip ((List.range n).map (g i))).map fun e => e.1 + e.2) ((List.range n).map h) =
      (List.range n).map fun j => h j + (l.map fun i => g i j).sum := by
  induction l generalizing h with
  | nil => simp only [List.foldl_nil, List.map_nil, List.sum_nil, add_zero]
  | cons i l ih =>
    rw [List.foldl_cons, List.zip_map', List.map_map]
    refine (ih fun j => h j + g i j).trans ?_
    simp only [List.map_cons, List.sum_cons, add_assoc]

theorem colSums_eq (mr mc base : Nat) : colSums mr mc (unpack 48 base (mr * mc)) = (List.range mc).map fun j => ((List.range mr).map fun i => packGet 48 base (i * mc + j)).sum := by
  have hrep : List.replicate mc (0 : Int) = (List.range mc).map fun _ => 0 := by rw [List.map_const', List.length_range]
  rw [colSums, hrep, List.foldl_ext _ _ _ fun acc i hi => by rw [row_of_elems base (List.mem_range.mp hi)], foldl_addRows]
  simp only [zero_add]

/-- The accumulator that MBEG with checksums leaves. -/
def State.checkedAcc (s : State) (a : BitVec 4) : Acc :=
  let l := (s.accAfter a).elems s.slabs
  { s.accOf a with
    opened := true, count := 0, ckv := true, rc := packList 64 (rowSums (matrixRows s.slabs) (matrixCols s.slabs) l),
    cc := packList 64 (colSums (matrixRows s.slabs) (matrixCols s.slabs) l) }

theorem mbeg_spec {s : State} {a : BitVec 4} (ha : a.toNat < 10) (hx : (s.accOf a).opened = false) :
    (∃ t, s.mbeg a false = t ∧ t.cur.regs.acc[a.toNat]? = some { s.accOf a with opened := true, count := 0, ckv := false } ∧ OthersKept s t a ∧ t.cur.ctl = s.cur.ctl ∧
      t.mem = s.mem) ∧
    (∃ t rc cc, s.mbeg a true = t ∧ t.cur.regs.acc[a.toNat]? = some { s.accOf a with opened := true, count := 0, ckv := true, rc := rc, cc := cc } ∧
      OthersKept s t a ∧ t.mem = s.mem ∧
      (∀ i < matrixRows s.slabs, rc / 2 ^ (64 * i) % 2 ^ 64 =
        lowBits 64 (((List.range (matrixCols s.slabs)).map fun j => packGet 48 (s.accAfter a).base (i * matrixCols s.slabs + j)).sum)) ∧
      (∀ j < matrixCols s.slabs, cc / 2 ^ (64 * j) % 2 ^ 64 =
        lowBits 64 (((List.range (matrixRows s.slabs)).map fun i => packGet 48 (s.accAfter a).base (i * matrixCols s.slabs + j)).sum))) := by
  constructor
  · obtain ⟨h1, h2⟩ := setAcc_spec s ha { s.accOf a with opened := true, count := 0, ckv := false }
    refine ⟨_, ?_, h1, h2, rfl, rfl⟩
    rw [State.mbeg, if_neg (by rw [hx]; decide)]
    rfl
  · have e : s.mbeg a true = (s.mapCtl fun c => _).setAcc a (State.checkedAcc s a) := if_neg (by rw [hx]; decide)
    obtain ⟨h1, h2⟩ := setAcc_spec (s.mapCtl fun c => _) ha (State.checkedAcc s a)
    refine ⟨_, _, _, e, h1, h2, rfl, fun i hi => ?_, fun j hj => ?_⟩
    · rw [Acc.elems, accElems, rowSums_eq, packList_range_bits 64 _ hi]
    · rw [Acc.elems, accElems, colSums_eq, packList_range_bits 64 _ hj]

/-! ### MEND -/

/-- The distance of the last result in flight for an accumulator: 0 where there is none. -/
def lastFor (a : BitVec 4) (l : List InFlight) : Nat := maxNat ((l.filter fun f => f.eff.forAcc a).map (·.dist))

theorem lastFor_of_free {a : BitVec 4} {l : List InFlight} (h : ∀ f ∈ l, f.eff.forAcc a = false) : lastFor a l = 0 := by
  rw [lastFor, List.filter_eq_nil_iff.mpr fun f hf => by rw [h f hf]; exact Bool.false_ne_true]
  rfl

theorem le_maxNat {l : List Nat} {x : Nat} (h : x ∈ l) : x ≤ maxNat l := by
  have key : ∀ (l : List Nat) (d : Nat), d ≤ l.foldl max d ∧ ∀ x ∈ l, x ≤ l.foldl max d := fun l => by
    induction l with
    | nil => exact fun d => ⟨le_rfl, fun x hx => absurd hx List.not_mem_nil⟩
    | cons b l ih =>
      intro d
      obtain ⟨h1, h2⟩ := ih (max d b)
      refine ⟨(le_max_left d b).trans h1, fun x hx => ?_⟩
      rcases List.mem_cons.mp hx with rfl | hx
      · exact (le_max_right d x).trans h1
      · exact h2 x hx
  exact (key l 0).2 x h

theorem maxNat_le {l : List Nat} {d : Nat} (h : ∀ x ∈ l, x ≤ d) : maxNat l ≤ d := by
  have key : ∀ (l : List Nat) (c : Nat), c ≤ d → (∀ x ∈ l, x ≤ d) → l.foldl max c ≤ d := fun l => by
    induction l with
    | nil => exact fun c hc _ => hc
    | cons b l ih => exact fun c hc hl => ih _ (max_le hc (hl b (by simp))) fun x hx => hl x (by simp [hx])
  exact key l 0 (Nat.zero_le d) h

theorem lastFor_of_last {a : BitVec 4} {l : List InFlight} {d : Nat} (h : ∃ f ∈ l, f.eff.forAcc a = true ∧ f.dist = d) (hle : ∀ f ∈ l, f.eff.forAcc a = true → f.dist ≤ d) :
    lastFor a l = d := by
  obtain ⟨f, hf, hfa, rfl⟩ := h
  refine le_antisymm (maxNat_le fun x hx => ?_) (le_maxNat (List.mem_map.mpr ⟨f, List.mem_filter.mpr ⟨hf, hfa⟩, rfl⟩))
  obtain ⟨g, hg, rfl⟩ := List.mem_map.mp hx
  obtain ⟨hg, hga⟩ := List.mem_filter.mp hg
  exact hle g hg hga

theorem mend_of_none {s : State} {a : BitVec 4} (hx : (s.accOf a).opened = true) (hb : s.cur.ctl.behind a (.accEnd a) = none) :
    s.mend a = (s.setAcc a { s.accOf a with opened := false }).mapRegs fun r => r.apply s.slabs (.accEnd a) := by
  have hb' : (s.setAcc a { s.accOf a with opened := false }).cur.ctl.behind a (.accEnd a) = none := hb
  simp only [State.mend, hx, Bool.not_true, Bool.false_eq_true, if_false, hb']
  rfl

theorem mend_of_some {s : State} {a : BitVec 4} {c : Ctl} (hx : (s.accOf a).opened = true) (hb : s.cur.ctl.behind a (.accEnd a) = some c) :
    s.mend a = (s.setAcc a { s.accOf a with opened := false }).mapCtl fun _ => c := by
  have hb' : (s.setAcc a { s.accOf a with opened := false }).cur.ctl.behind a (.accEnd a) = some c := hb
  simp only [State.mend, hx, Bool.not_true, Bool.false_eq_true, if_false, hb']

section
variable {c : Ctl} {a : BitVec 4} {e : Effect}

theorem behind_none (hu : lastFor a c.uiFlight = 0) (ht : lastFor a c.trapFlight = 0) (hf : lastFor a c.flight = 0) : c.behind a e = none :=
  (if_neg (not_not_intro hu)).trans ((if_neg (not_not_intro ht)).trans (if_neg (not_not_intro hf)))

theorem behind_flight (hu : lastFor a c.uiFlight = 0) (ht : lastFor a c.trapFlight = 0) (hf : lastFor a c.flight ≠ 0) :
    c.behind a e = some { c with flight := c.flight ++ [{ dist := lastFor a c.flight, eff := e }] } :=
  (if_neg (not_not_intro hu)).trans ((if_neg (not_not_intro ht)).trans (if_pos hf))

theorem behind_trapFlight (hu : lastFor a c.uiFlight = 0) (ht : lastFor a c.trapFlight ≠ 0) :
    c.behind a e = some { c with trapFlight := c.trapFlight ++ [{ dist := lastFor a c.trapFlight, eff := e }] } := (if_neg (not_not_intro hu)).trans (if_pos ht)

theorem behind_uiFlight (hu : lastFor a c.uiFlight ≠ 0) : c.behind a e = some { c with uiFlight := c.uiFlight ++ [{ dist := lastFor a c.uiFlight, eff := e }] } := if_pos hu

end

/-- MEND of an open accumulator with no result of it in flight: the run in progress ends. -/
theorem mend_idle {s : State} {a : BitVec 4} (ha : a.toNat < 10) (hx : (s.accOf a).opened = true) (hb : s.cur.ctl.behind a (.accEnd a) = none) :
    ∃ t, s.mend a = t ∧ t.cur.regs.acc[a.toNat]? = some { s.accOf a with opened := false, ended := (s.accOf a).ended ++ [(s.accOf a).part], part := 0 } ∧
      OthersKept s t a ∧ t.cur.ctl = s.cur.ctl ∧ t.mem = s.mem := by
  obtain ⟨h1, -, hother⟩ := setAcc_spec s ha { s.accOf a with opened := false }
  have hold : (s.setAcc a { s.accOf a with opened := false }).accOf a = { s.accOf a with opened := false } := accOf_of_some h1
  refine ⟨_, mend_of_none hx hb, ?_, ⟨rfl, fun b hb => ?_⟩, rfl, rfl⟩
  · refine (Vector.getElem?_setIfInBounds_self_of_lt ha).trans (congrArg some ?_)
    exact congrArg (fun x : Acc => { x with ended := x.ended ++ [x.part], part := 0 }) hold
  · exact (Vector.getElem_setIfInBounds_ne b.isLt (Ne.symm hb)).trans (hother b hb)

/-- MEND of an open accumulator with results in flight. -/
theorem mend_ends {s : State} {a : BitVec 4} {c : Ctl} (ha : a.toNat < 10) (hx : (s.accOf a).opened = true) (hb : s.cur.ctl.behind a (.accEnd a) = some c) :
    ∃ t, s.mend a = t ∧ t.cur.regs.acc[a.toNat]? = some { s.accOf a with opened := false } ∧ OthersKept s t a ∧ t.cur.ctl = c ∧ t.mem = s.mem := by
  obtain ⟨h1, h2⟩ := setAcc_spec s ha { s.accOf a with opened := false }
  exact ⟨_, mend_of_some hx hb, h1, h2, rfl, rfl⟩

theorem apply_accZero (r : Regs) (n : Nat) (b : Fin 10) : (r.apply n (.accZero (BitVec.ofNat 4 b.val))).acc[b] =
    { r.acc[b] with base := 0, ended := [], part := 0, sat := 0, poison := 0, sticky := false, ckv := false } := by
  have hb : (BitVec.ofNat 4 b.val).toNat = b.val := by rw [BitVec.toNat_ofNat]; exact Nat.mod_eq_of_lt (by omega)
  have h : (r.apply n (.accZero (BitVec.ofNat 4 b.val))).acc =
    r.acc.setIfInBounds b.val { r.acc[b.val]?.getD {} with base := 0, ended := [], part := 0, sat := 0, poison := 0, sticky := false, ckv := false } := by
    rw [Regs.apply, hb]
  rw [Fin.getElem_fin, h, Vector.getElem_setIfInBounds_self, Vector.getElem?_eq_getElem b.isLt]
  rfl

/-- Settles O37. -/
theorem matrixChains : Obligations.MatrixChains := by
  unfold Obligations.MatrixChains
  intro s q a k
  dsimp only
  refine ⟨fun h => ?_, fun h => ?_, fun h => ?_, apply_accZero⟩
  · have ha : a.toNat < 10 := acc_lt_of_names h (by exact List.mem_cons_self ..)
    have e := runs_of_word (exec_mbeg s q a k) h
    refine ⟨fun hx => e.trans (congrArg _ (if_pos hx)), fun hx hk => ?_, fun hx hk => ?_⟩
    · obtain ⟨⟨t, ht, h1, h2⟩, -⟩ := mbeg_spec ha hx
      exact ⟨t, by rw [e, beq_false_of_ne hk, ht], h1, h2⟩
    · obtain ⟨-, t, rc, cc, ht, h1⟩ := mbeg_spec ha hx
      exact ⟨t, rc, cc, by rw [e, hk, ← ht]; rfl, h1⟩
  · have ha : a.toNat < 10 := acc_lt_of_names h (by exact List.mem_cons_self ..)
    have e := runs_of_word (exec_mend s q a) h
    have out {P : State → Prop} : (∃ t, s.mend a = t ∧ P t) → ∃ t, exec (.mend q a) s = .next t ∧ P t := fun ⟨t, ht, hp⟩ => ⟨t, by rw [e, ht], hp⟩
    have last0 {l : List InFlight} {d : Nat} (hl : 0 < d ∧ (∃ f ∈ l, f.eff.forAcc a = true ∧ f.dist = d) ∧ ∀ f ∈ l, f.eff.forAcc a = true → f.dist ≤ d) :
        lastFor a l = d ∧ lastFor a l ≠ 0 := by
      have := lastFor_of_last hl.2.1 hl.2.2
      exact ⟨this, by omega⟩
    refine ⟨fun hx => e.trans (congrArg _ (if_pos (by rw [hx]; rfl))), fun hx hu ht hf => out (mend_idle ha hx (behind_none (lastFor_of_free hu) (lastFor_of_free ht) (lastFor_of_free hf))),
      fun hx hu ht d hd => ?_, fun hx hu d hd => ?_, fun hx d hd => ?_⟩
    · obtain ⟨rfl, h0⟩ := last0 hd
      exact out (mend_ends ha hx (behind_flight (lastFor_of_free hu) (lastFor_of_free ht) h0))
    · obtain ⟨rfl, h0⟩ := last0 hd
      exact out (mend_ends ha hx (behind_trapFlight (lastFor_of_free hu) h0))
    · obtain ⟨rfl, h0⟩ := last0 hd
      exact out (mend_ends ha hx (behind_uiFlight h0))
  · have e := runs_of_word (exec_mzero s q a) h
    exact ⟨fun hx => e.trans (congrArg _ (if_pos hx)), fun hx => e.trans (congrArg _ (if_neg (by rw [hx]; decide)))⟩

/-! ## Runs of k-steps (R48) -/

/-- What `l` holds of the k-steps `first` to `first + k - 1` of a product, of which the first is step `c` of its chain: one segment for each run of 65,536 steps
that they reach. -/
structure CutIntoRuns (c first k : Nat) (l : List (Nat × Nat × Bool)) : Prop where
  total : ∀ F : Nat → Int, (l.map fun g => ((List.range g.2.1).map fun t => F (g.1 + t)).sum).sum = ((List.range k).map fun t => F (first + t)).sum
  ends : (l.filter (·.2.2)).length = (c % 65536 + k) / 65536
  enough : ∀ t < k, (c + t) / 65536 < c / 65536 + l.length
  within : ∀ z g, l[z]? = some g → g.2.2 = decide (65536 * (c / 65536 + z + 1) ≤ c + k) ∧ g.2.1 ≤ 65536 ∧ first ≤ g.1 ∧ g.1 + g.2.1 ≤ first + k ∧
    ∀ t < k, (c + t) / 65536 = c / 65536 + z ↔ g.1 ≤ first + t ∧ first + t < g.1 + g.2.1

theorem cutIntoRuns_nil (c first : Nat) : CutIntoRuns c first 0 [] where
  total _ := rfl
  ends := (Nat.div_eq_of_lt (by omega)).symm
  enough t h := absurd h (Nat.not_lt_zero t)
  within z g h := by rw [List.getElem?_nil] at h; cases h

theorem sum_range_add (F : Nat → Int) (a b : Nat) :
    ((List.range (a + b)).map F).sum = ((List.range a).map F).sum + ((List.range b).map fun t => F (a + t)).sum := by
  rw [List.range_add, List.map_append, List.sum_append, List.map_map]; rfl

theorem runSegs_spec : ∀ (fuel c first k : Nat), k = 0 ∨ c % 65536 + k ≤ 65536 * fuel → CutIntoRuns c first k (runSegs c first k fuel)
  | 0, c, first, k, h => by
    obtain rfl : k = 0 := by omega
    exact cutIntoRuns_nil c first
  | fuel + 1, c, first, k, h => by
    rw [runSegs]
    split
    · subst k; exact cutIntoRuns_nil c first
    · rename_i hk
      obtain ⟨len, hlen⟩ : ∃ len, min k (65536 - c % 65536) = len := ⟨_, rfl⟩
      dsimp only
      rw [hlen]
      have ih := runSegs_spec fuel (c + len) (first + len) (k - len) (by omega)
      have hkl : k = len + (k - len) := by omega
      exact {
        total := fun F => by
          rw [List.map_cons, List.sum_cons, ih.total, hkl, sum_range_add, Nat.add_sub_cancel_left]
          simp only [Nat.add_assoc]
        ends := by
          have he : ((c + len) % 65536 == 0) = decide ((c + len) % 65536 = 0) := rfl
          rw [List.filter_cons, he]
          split
          · rename_i hd
            have hd := of_decide_eq_true hd
            rw [List.length_cons, ih.ends]
            omega
          · rename_i hd
            have hd : ¬ (c + len) % 65536 = 0 := fun h => hd (decide_eq_true h)
            rw [ih.ends]
            omega
        enough := fun t ht => by
          rw [List.length_cons]
          by_cases hlt : t < len
          · omega
          · have := ih.enough (t - len) (by omega)
            rw [show c + len + (t - len) = c + t by omega] at this
            omega
        within := fun z g hg => by
          cases z with
          | zero =>
            obtain rfl := Option.some.inj hg
            dsimp only
            refine ⟨decide_eq_decide.mpr ?_, ?_, ?_, ?_, fun t ht => ?_⟩ <;> omega
          | succ z =>
            obtain ⟨hb, hl, h1, h2, hin⟩ := ih.within z g hg
            have hpos : 0 < k - len := by
              rcases Nat.eq_zero_or_pos (k - len) with h0 | h0
              · rw [h0] at hg
                cases fuel <;> cases hg
              · exact h0
            refine ⟨hb.trans (decide_eq_decide.mpr ?_), hl, ?_, ?_, fun t ht => ?_⟩
            · omega
            · omega
            · omega
            · by_cases hlt : t < len
              · omega
              · have := hin (t - len) (by omega)
                rw [show c + len + (t - len) = c + t by omega, show first + len + (t - len) = first + t by omega] at this
                rw [← this]
                omega }

/-- A run's elements of a sum are those of its segment. -/
theorem filter_interval {n lo len : Nat} {p : Nat → Bool} (h : lo + len ≤ n) (hp : ∀ t < n, p t = true ↔ lo ≤ t ∧ t < lo + len) :
    (List.range n).filter p = (List.range len).map (lo + ·) := by
  obtain ⟨c, rfl⟩ := Nat.exists_eq_add_of_le h
  have h1 : (List.range lo).filter p = [] := List.filter_eq_nil_iff.mpr fun t ht => by
    have := List.mem_range.mp ht
    rw [hp t (by omega)]; omega
  have h2 : ((List.range len).map (lo + ·)).filter p = (List.range len).map (lo + ·) := List.filter_eq_self.mpr fun t ht => by
    obtain ⟨j, hj, rfl⟩ := List.mem_map.mp ht
    have := List.mem_range.mp hj
    rw [hp _ (by omega)]; omega
  have h3 : ((List.range c).map (lo + len + ·)).filter p = [] := List.filter_eq_nil_iff.mpr fun t ht => by
    obtain ⟨j, hj, rfl⟩ := List.mem_map.mp ht
    have := List.mem_range.mp hj
    rw [hp _ (by omega)]; omega
  rw [List.range_add, List.range_add, List.filter_append, List.filter_append, h1, h2, h3, List.nil_append, List.append_nil]

/-! ## Elements of a grid -/

theorem grid_index {r c mc mr : Nat} (hr : r < mr) (hc : c < mc) : r * mc + c < mr * mc ∧ (r * mc + c) / mc = r ∧ (r * mc + c) % mc = c := by
  refine ⟨?_, ?_, ?_⟩
  · have : (r + 1) * mc ≤ mr * mc := Nat.mul_le_mul_right _ hr
    rw [Nat.add_mul, Nat.one_mul] at this
    omega
  · rw [Nat.mul_comm, Nat.mul_add_div (by omega), Nat.div_eq_of_lt hc, Nat.add_zero]
  · rw [Nat.mul_comm, Nat.mul_add_mod, Nat.mod_eq_of_lt hc]

theorem flatMap_grid {β : Type} (g : Nat → Nat → β) {mr mc r c : Nat} (hr : r < mr) (hc : c < mc) :
    ((List.range mr).flatMap fun i => (List.range mc).map (g i))[r * mc + c]? = some (g r c) := by
  obtain ⟨-, h⟩ := flatMap_rows (f := fun i => (List.range mc).map (g i)) (c := mc) (fun i => by rw [List.length_map, List.length_range]) mr
  obtain ⟨hlt, hd, hm⟩ := grid_index hr hc
  rw [h _ hlt, hd, hm, List.getElem?_map, List.getElem?_range hc, Option.map_some]

/-- An element of a packed grid. -/
theorem packList_grid (w : Nat) (g : Nat → Nat → Int) {mr mc r c : Nat} (hr : r < mr) (hc : c < mc) :
    packList w ((List.range mr).flatMap fun i => (List.range mc).map (g i)) / 2 ^ (w * (r * mc + c)) % 2 ^ w = lowBits w (g r c) := by
  obtain ⟨hlt, he⟩ := List.getElem?_eq_some_iff.mp (flatMap_grid g hr hc)
  rw [packList_bits w hlt, he]

theorem testBit_packBits_grid (g : Nat → Nat → Bool) {mr mc r c : Nat} (hr : r < mr) (hc : c < mc) :
    (packBits 1 ((List.range mr).flatMap fun i => (List.range mc).map fun j => if g i j then 1 else 0)).testBit (r * mc + c) = g r c := by
  obtain ⟨hlt, he⟩ := List.getElem?_eq_some_iff.mp (flatMap_grid (fun i j => if g i j then 1 else 0) hr hc)
  obtain ⟨-, h⟩ := packBits_spec (w := 1) (l := (List.range mr).flatMap fun i => (List.range mc).map fun j => if g i j then 1 else 0) fun v hv => by
    obtain ⟨i, -, hv⟩ := List.mem_flatMap.mp hv
    obtain ⟨j, -, rfl⟩ := List.mem_map.mp hv
    split <;> decide
  have := h _ hlt
  rw [tileBits, Nat.one_mul, Nat.pow_one] at this
  rw [Nat.testBit_eq_decide_div_mod_eq, this, he]
  cases g r c <;> rfl

/-! ## Products (R225) -/

theorem abs_sum_le (F : Nat → Int) (b : Int) : ∀ n, (∀ t < n, |F t| ≤ b) → |((List.range n).map F).sum| ≤ n * b
  | 0, _ => by simp
  | n + 1, h => by
    rw [List.range_succ, List.map_append, List.sum_append, List.map_singleton, List.sum_singleton]
    have := abs_sum_le F b n fun t ht => h t (by omega)
    calc _ ≤ _ := abs_add_le _ _
      _ ≤ n * b + b := add_le_add this (h n (by omega))
      _ = _ := by push_cast; ring

/-- An element of at most 16 bits is of magnitude at most 2^15. -/
theorem abs_get_le {t : TileView} (h0 : 0 < t.w) (h : t.w ≤ 16) (j : Nat) : |t.get false j| ≤ 2 ^ 15 := by
  obtain ⟨h1, h2⟩ := packGet_bounds h0 t.bits j
  have hle : (2 : Int) ^ (t.w - 1) ≤ 2 ^ 15 := pow_le_pow_right₀ (by decide) (by omega)
  have e : t.get false j = packGet t.w t.bits j := rfl
  rw [abs_le, e]
  omega

/-- The sum of a segment of at most 65,536 products of 16-bit values fits 48 bits. -/
theorem segment_bounds {A B : TileView} (hA : 0 < A.w) (hB : 0 < B.w) (hAw : A.w ≤ 16) (hBw : B.w ≤ 16) (f g : Nat → Nat) {len : Nat} (hlen : len ≤ 65536) :
    -(2 ^ (48 - 1)) ≤ ((List.range len).map fun t => A.get false (f t) * B.get false (g t)).sum ∧
    ((List.range len).map fun t => A.get false (f t) * B.get false (g t)).sum < 2 ^ (48 - 1) := by
  have h := abs_sum_le (fun t => A.get false (f t) * B.get false (g t)) (2 ^ 30) len fun t _ => by
    rw [abs_mul]
    calc _ ≤ (2 : Int) ^ 15 * 2 ^ 15 := mul_le_mul (abs_get_le hA hAw _) (abs_get_le hB hBw _) (abs_nonneg _) (by positivity)
      _ = _ := by norm_num
  have hl : (len : Int) * 2 ^ 30 ≤ 65536 * 2 ^ 30 := mul_le_mul_of_nonneg_right (by exact_mod_cast hlen) (by positivity)
  obtain ⟨h1, h2⟩ := abs_le.mp h
  constructor <;> omega

section
variable {mr mc m n : Nat} {ga gb : Nat → Nat → Int} {r c : Nat}

/-- The products of every segment of a run fit 48 bits. -/
def SegmentsFit (ga gb : Nat → Nat → Int) : Prop := ∀ i j f len, len ≤ 65536 →
  -(2 ^ (48 - 1)) ≤ ((List.range len).map fun t => ga i (f + t) * gb j (f + t)).sum ∧ ((List.range len).map fun t => ga i (f + t) * gb j (f + t)).sum < 2 ^ (48 - 1)

theorem segSums_get (hfit : SegmentsFit ga gb) (hr : r < mr) (hc : c < mc) {f len : Nat} (hlen : len ≤ 65536) :
    packGet 48 (segSums mr mc m n ga gb f len) (r * mc + c) = if r < m ∧ c < n then ((List.range len).map fun t => ga r (f + t) * gb c (f + t)).sum else 0 := by
  rw [packGet, segSums, packList_grid 48 (fun i j => if i < m ∧ j < n then sumInt ((List.range len).map fun t => ga i (f + t) * gb j (f + t)) else 0) hr hc, sumInt_eq]
  split
  · obtain ⟨h1, h2⟩ := hfit r c f len hlen
    exact signExt_lowBits (by decide) h1 h2
  · exact signExt_lowBits (by decide) (by norm_num) (by norm_num)

/-- The segments of a product with their packed sums; a product outside a chain is a run of its own (R225). -/
def productSums (mr mc m n : Nat) (ga gb : Nat → Nat → Int) (start k : Nat) (opened : Bool) : List (Nat × Bool) :=
  let sums := (runSegs start 0 k (k / 65536 + 2)).map fun g => (segSums mr mc m n ga gb g.1 g.2.1, g.2.2)
  if opened then sums else sums ++ [(0, true)]

theorem runSegs_cut (start k : Nat) : CutIntoRuns start 0 k (runSegs start 0 k (k / 65536 + 2)) := runSegs_spec _ start 0 k (Or.inr (by omega))

/-- All segments together hold the sum of the products of a row and a column. -/
theorem productSums_total (hfit : SegmentsFit ga gb) (hr : r < mr) (hc : c < mc) (start k : Nat) (opened : Bool) :
    ((productSums mr mc m n ga gb start k opened).map fun g => packGet 48 g.1 (r * mc + c)).sum =
      if r < m ∧ c < n then ((List.range k).map fun t => ga r t * gb c t).sum else 0 := by
  have hcut := runSegs_cut start k
  have hseg : ((runSegs start 0 k (k / 65536 + 2)).map fun g => packGet 48 (segSums mr mc m n ga gb g.1 g.2.1) (r * mc + c)).sum =
      if r < m ∧ c < n then ((List.range k).map fun t => ga r t * gb c t).sum else 0 := by
    rw [List.map_congr_left fun g hg => by
      obtain ⟨z, hz⟩ := List.mem_iff_getElem?.mp hg
      exact segSums_get hfit hr hc (hcut.within z g hz).2.1]
    by_cases hin : r < m ∧ c < n
    · simp only [if_pos hin]
      have := hcut.total fun t => ga r t * gb c t
      simpa only [Nat.zero_add] using this
    · simp only [if_neg hin, List.map_const', List.sum_replicate, smul_zero]
  cases opened with
  | true => rw [productSums, if_pos rfl, List.map_map]; exact hseg
  | false =>
    rw [productSums, if_neg Bool.false_ne_true, List.map_append, List.sum_append, List.map_map, List.map_singleton, List.sum_singleton, packGet_zero, add_zero]
    exact hseg

theorem productSums_ends (start k : Nat) (opened : Bool) (h : opened = false → start = 0) :
    ((productSums mr mc m n ga gb start k opened).filter (·.2)).length = if opened then (start % 65536 + k) / 65536 else k / 65536 + 1 := by
  have hends : (((runSegs start 0 k (k / 65536 + 2)).map fun g => (segSums mr mc m n ga gb g.1 g.2.1, g.2.2)).filter (·.2)).length = (start % 65536 + k) / 65536 := by
    rw [List.filter_map, List.length_map]; exact (runSegs_cut start k).ends
  cases opened with
  | true => exact hends
  | false =>
    rw [productSums, if_neg Bool.false_ne_true, List.filter_append, List.length_append, hends, h rfl, Nat.zero_mod, Nat.zero_add]
    rfl

/-- Each segment holds exactly the k-steps of its run. -/
theorem productSums_segment (hfit : SegmentsFit ga gb) {start k : Nat} {opened : Bool} (hstart : opened = false → start = 0) {z : Nat} {g : Nat × Bool}
    (hz : (productSums mr mc m n ga gb start k opened)[z]? = some g) :
    g.2 = (decide (65536 * (start / 65536 + z + 1) ≤ start + k) || (!opened && z + 1 == (productSums mr mc m n ga gb start k opened).length)) ∧
    ∀ r < mr, ∀ c < mc, packGet 48 g.1 (r * mc + c) = (if r < m ∧ c < n then
      (((List.range k).filter fun t => (start + t) / 65536 == start / 65536 + z).map fun t => ga r t * gb c t).sum else 0) := by
  have hcut := runSegs_cut start k
  have hin : ∀ g', (runSegs start 0 k (k / 65536 + 2))[z]? = some g' →
      g'.2.2 = decide (65536 * (start / 65536 + z + 1) ≤ start + k) ∧ ∀ r < mr, ∀ c < mc, packGet 48 (segSums mr mc m n ga gb g'.1 g'.2.1) (r * mc + c) =
        (if r < m ∧ c < n then (((List.range k).filter fun t => (start + t) / 65536 == start / 65536 + z).map fun t => ga r t * gb c t).sum else 0) := fun g' hg' => by
    obtain ⟨hb, hl, -, hle, ht⟩ := hcut.within z g' hg'
    refine ⟨hb, fun r hr c hc => ?_⟩
    rw [segSums_get hfit hr hc hl, filter_interval (lo := g'.1) (len := g'.2.1) (by omega) fun t htk => by rw [beq_iff_eq, ht t htk]; omega, List.map_map]
    rfl
  cases opened with
  | true =>
    rw [productSums, if_pos rfl, List.getElem?_map, Option.map_eq_some_iff] at hz
    obtain ⟨g', hg', rfl⟩ := hz
    obtain ⟨h1, h2⟩ := hin g' hg'
    exact ⟨by rw [h1, Bool.not_true, Bool.false_and, Bool.or_false], h2⟩
  | false =>
    obtain rfl := hstart rfl
    have hlen : (productSums mr mc m n ga gb 0 k false).length = (runSegs 0 0 k (k / 65536 + 2)).length + 1 := by
      rw [productSums, if_neg Bool.false_ne_true, List.length_append, List.length_map]; rfl
    rw [hlen]
    rw [productSums, if_neg Bool.false_ne_true] at hz
    by_cases hlt : z < (runSegs 0 0 k (k / 65536 + 2)).length
    · rw [List.getElem?_append_left (by rw [List.length_map]; exact hlt), List.getElem?_map, Option.map_eq_some_iff] at hz
      obtain ⟨g', hg', rfl⟩ := hz
      obtain ⟨h1, h2⟩ := hin g' hg'
      refine ⟨?_, h2⟩
      have : (z + 1 == (runSegs 0 0 k (k / 65536 + 2)).length + 1) = false := beq_false_of_ne (by omega)
      rw [this, Bool.and_false, Bool.or_false]
      exact h1
    · have hzl : z = (runSegs 0 0 k (k / 65536 + 2)).length := by
        have := (List.getElem?_eq_some_iff.mp hz).1
        rw [List.length_append, List.length_map, List.length_singleton] at this
        omega
      rw [List.getElem?_append_right (by rw [List.length_map]; omega), List.length_map, ← hzl, Nat.sub_self] at hz
      obtain rfl := Option.some.inj hz
      refine ⟨?_, fun r _ c _ => ?_⟩
      · rw [← hzl, beq_self_eq_true, Bool.not_false, Bool.and_true, Bool.or_true]
      · rw [packGet_zero, List.filter_eq_nil_iff.mpr fun t ht => ?_, List.map_nil, List.sum_nil, ite_self]
        have := hcut.enough t (List.mem_range.mp ht)
        rw [beq_iff_eq, hzl]
        omega

/-- The poison of a product (R225): that of an operand's row reaches the row, and that of its column the column. -/
theorem productPoison_testBit (mr mc m n : Nat) (badA badB : Nat → Bool) {r c : Nat} (hr : r < mr) (hc : c < mc) :
    (packBits 1 ((((List.range mr).map fun i => decide (i < m) && badA i).zip (List.range mr)).flatMap fun p =>
      ((((List.range mc).map fun j => decide (j < n) && badB j).zip (List.range mc)).map fun q =>
        if decide (p.2 < m) && decide (q.2 < n) && (p.1 || q.1) then 1 else 0))).testBit (r * mc + c) =
      (decide (r < m) && decide (c < n) && (badA r || badB c)) := by
  have e : ((((List.range mr).map fun i => decide (i < m) && badA i).zip (List.range mr)).flatMap fun p =>
      ((((List.range mc).map fun j => decide (j < n) && badB j).zip (List.range mc)).map fun q =>
        if decide (p.2 < m) && decide (q.2 < n) && (p.1 || q.1) then 1 else 0)) =
      (List.range mr).flatMap fun i => (List.range mc).map fun j => if decide (i < m) && decide (j < n) && (badA i || badB j) then 1 else 0 := by
    rw [zip_range, zip_range, List.flatMap_map]
    simp only [List.map_map]
    refine congrArg (fun f => List.flatMap f (List.range mr)) (funext fun i => List.map_congr_left fun j _ => if_congr ?_ rfl rfl)
    simp only [Bool.and_eq_true, Bool.or_eq_true, decide_eq_true_eq]
    tauto
  rw [e, testBit_packBits_grid _ hr hc]

end

/-! ## What a product adds to its accumulator (R225, R234) -/

theorem addPacked_get (n x y : Nat) {i : Nat} (hi : i < n) (h1 : -(2 ^ 47) ≤ packGet 48 x i + packGet 48 y i) (h2 : packGet 48 x i + packGet 48 y i < 2 ^ 47) :
    packGet 48 (addPacked n x y) i = packGet 48 x i + packGet 48 y i := by
  rw [addPacked]
  split
  · subst x; rw [packGet_zero, zero_add]
  · split
    · subst y; rw [packGet_zero, add_zero]
    · rw [unpack_eq, unpack_eq, List.zip_map', List.map_map]
      exact packGet_packList_range (by decide) _ hi h1 h2

theorem addSegs_cons (x : Acc) (n : Nat) (g : Nat × Bool) (rest : List (Nat × Bool)) : x.addSegs n (g :: rest) =
    (if g.2 then { x with ended := x.ended ++ [addPacked n x.part g.1], part := 0 } else { x with part := addPacked n x.part g.1 } : Acc).addSegs n rest := rfl

theorem addSegs_keeps (n : Nat) (segs : List (Nat × Bool)) (x : Acc) : ∃ e p, x.addSegs n segs = { x with ended := e, part := p } := by
  induction segs generalizing x with
  | nil => exact ⟨_, _, rfl⟩
  | cons g rest ih =>
    rw [addSegs_cons]
    split
    · obtain ⟨e, p, h⟩ := ih { x with ended := x.ended ++ [addPacked n x.part g.1], part := 0 }
      exact ⟨e, p, h⟩
    · obtain ⟨e, p, h⟩ := ih { x with part := addPacked n x.part g.1 }
      exact ⟨e, p, h⟩

theorem packGet_emod (w x i : Nat) : packGet w x i % 2 ^ w = ((x / 2 ^ (w * i) : Nat) : Int) % 2 ^ w := by
  rw [packGet, signExt_emod]
  push_cast
  rw [Int.emod_emod]

/-- Checksums add modulo 2^64. -/
theorem addSums_bits (n x y : Nat) {i : Nat} (hi : i < n) : addSums n x y / 2 ^ (64 * i) % 2 ^ 64 = (x / 2 ^ (64 * i) + y / 2 ^ (64 * i)) % 2 ^ 64 := by
  rw [addSums]
  split
  · subst y; rw [Nat.zero_div, Nat.add_zero]
  · rw [unpack_eq, unpack_eq, List.zip_map', List.map_map, packList_range_bits 64 _ hi]
    have h : ((lowBits 64 (packGet 64 x i + packGet 64 y i) : Nat) : Int) = (((x / 2 ^ (64 * i) + y / 2 ^ (64 * i)) % 2 ^ 64 : Nat) : Int) := by
      rw [cast_lowBits, Int.add_emod, packGet_emod, packGet_emod, ← Int.add_emod]
      push_cast
      rfl
    exact_mod_cast h

/-- The accumulator `x` after a product. -/
def addedProduct (n : Nat) (x : Acc) (segs : List (Nat × Bool)) (poison rc cc : Nat) (sticky ck : Bool) : Acc :=
  let new := x.addSegs (accElems n) segs
  { new with
    poison := new.poison ||| poison, sticky := new.sticky || sticky, rc := if ck then addSums (matrixRows n) new.rc rc else new.rc,
    cc := if ck then addSums (matrixCols n) new.cc cc else new.cc }

/-- A product that falls due: its segments join the accumulator's runs, its poison and its checksums are added. -/
theorem apply_acc_spec (r : Regs) (n : Nat) {d : BitVec 4} {x : Acc} (segs : List (Nat × Bool)) (poison rc cc : Nat) (sticky ck : Bool)
    (hx : r.acc[d.toNat]? = some x) :
    ∃ y, (r.apply n (.acc d segs poison sticky ck rc cc)).acc[d.toNat]? = some y ∧ y.base = x.base ∧ y.sat = x.sat ∧ y.opened = x.opened ∧ y.count = x.count ∧
      y.ckv = x.ckv ∧ y.poison = x.poison ||| poison ∧ y.sticky = (x.sticky || sticky) ∧ y.ended = (x.addSegs (accElems n) segs).ended ∧
      y.part = (x.addSegs (accElems n) segs).part ∧
      (∀ i < matrixRows n, y.rc / 2 ^ (64 * i) % 2 ^ 64 = (if ck then (x.rc / 2 ^ (64 * i) + rc / 2 ^ (64 * i)) % 2 ^ 64 else x.rc / 2 ^ (64 * i) % 2 ^ 64)) ∧
      (∀ j < matrixCols n, y.cc / 2 ^ (64 * j) % 2 ^ 64 = (if ck then (x.cc / 2 ^ (64 * j) + cc / 2 ^ (64 * j)) % 2 ^ 64 else x.cc / 2 ^ (64 * j) % 2 ^ 64)) := by
  have hd : d.toNat < 10 := (Vector.getElem?_eq_some_iff.mp hx).1
  obtain ⟨e, p, hadd⟩ := addSegs_keeps (accElems n) segs x
  have happ : (r.apply n (.acc d segs poison sticky ck rc cc)).acc = r.acc.setIfInBounds d.toNat (addedProduct n (r.acc[d.toNat]?.getD {}) segs poison rc cc sticky ck) := rfl
  refine ⟨addedProduct n x segs poison rc cc sticky ck, ?_, ?_⟩
  · rw [happ, hx]
    exact Vector.getElem?_setIfInBounds_self_of_lt hd
  · rw [addedProduct, hadd]
    refine ⟨rfl, rfl, rfl, rfl, rfl, rfl, rfl, rfl, rfl, fun i hi => ?_, fun j hj => ?_⟩
    · cases ck with
      | true => exact addSums_bits _ _ _ hi
      | false => rfl
    · cases ck with
      | true => exact addSums_bits _ _ _ hj
      | false => rfl

/-! ## MMA and MMAT -/

/-- What a product word asks of the shapes of its tiles (R225). -/
def ProductFits (t : Bool) (A B : TileView) (mr mc : Nat) : Prop :=
  A.legal = true ∧ B.legal = true ∧ A.w = B.w ∧ A.w ≤ 16 ∧ (if t then A.rows = B.rows else A.cols = B.cols ∧ A.rows ≤ mr ∧ B.rows ≤ mc)

section
variable {s : State} {t : Bool} {d : BitVec 4} {a b : BitVec 6} {ext : Option (BitVec 25)}

theorem productFits_iff (A B : TileView) (mr mc : Nat) :
    (([A, B].all fun t => t.legal) && (A.w == B.w && decide (A.w ≤ 16) &&
      (if t then A.rows == B.rows else A.cols == B.cols && decide (A.rows ≤ mr) && decide (B.rows ≤ mc)))) = true ↔ ProductFits t A B mr mc := by
  rw [ProductFits]
  cases t <;> simp only [List.all_cons, List.all_nil, Bool.and_eq_true, Bool.and_true, beq_iff_eq, decide_eq_true_eq, if_true, Bool.false_eq_true, if_false, and_assoc]

/-- A block-shift operand whose check handle does not run along K (R225). -/
def badCheck (s : State) (t : Bool) (ext : Option (BitVec 25)) (lo on : Nat) : Bool :=
  (ext.getD 0).getLsbD on && checkHandleBad s.cur.regs.h[((ext.getD 0).extractLsb' lo 4).toNat] t

theorem mma_misfit (h : ¬ ProductFits t (s.tv a) (s.tv b) (matrixRows s.slabs) (matrixCols s.slabs)) : s.mma t d a b ext = s.trapHere 3 0 :=
  if_neg (mt (productFits_iff _ _ _ _).mp h)

theorem mma_badA (h : ProductFits t (s.tv a) (s.tv b) (matrixRows s.slabs) (matrixCols s.slabs)) (hA : badCheck s t ext 0 4 = true) :
    s.mma t d a b ext = s.trapHere 4 (BitVec.ofNat 64 ((ext.getD 0).extractLsb' 0 4).toNat) := by
  rw [BitVec.ofNat_toNat]
  exact (if_pos ((productFits_iff _ _ _ _).mpr h)).trans (if_pos hA)

theorem mma_badB (h : ProductFits t (s.tv a) (s.tv b) (matrixRows s.slabs) (matrixCols s.slabs)) (hA : badCheck s t ext 0 4 = false) (hB : badCheck s t ext 5 9 = true) :
    s.mma t d a b ext = s.trapHere 4 (BitVec.ofNat 64 ((ext.getD 0).extractLsb' 5 4).toNat) := by
  rw [BitVec.ofNat_toNat]
  exact (if_pos ((productFits_iff _ _ _ _).mpr h)).trans ((if_neg (by rw [badCheck] at hA; rw [hA]; exact Bool.false_ne_true)).trans (if_pos hB))

/-- The place of element (i, k) of an operand. -/
abbrev operandAt (t : Bool) (cols i k : Nat) : Nat := if t then k * cols + i else i * cols + k

/-- A product word with tiles that fit and legal checks: one result 24 bundles later. -/
theorem mma_product (h : ProductFits t (s.tv a) (s.tv b) (matrixRows s.slabs) (matrixCols s.slabs)) (hA : badCheck s t ext 0 4 = false) (hB : badCheck s t ext 5 9 = false) :
    let A := s.tv a
    let B := s.tv b
    let mr := matrixRows s.slabs
    let mc := matrixCols s.slabs
    let x := s.accOf d
    let K := if t then A.rows else A.cols
    let M := if t then mr else A.rows
    let N := if t then mc else B.rows
    let ga := fun i k => A.get false (operandAt t A.cols i k)
    let gb := fun j k => B.get false (operandAt t B.cols j k)
    s.mma t d a b ext = (if x.opened then s.setAcc d { x with count := x.count + K } else s).withResults [⟨24, .acc d
      (productSums mr mc M N ga gb (if x.opened then x.count else 0) K x.opened)
      (packBits 1 ((((List.range mr).map fun i => decide (i < M) && (List.range K).any fun z => A.poi (operandAt t A.cols i z)).zip (List.range mr)).flatMap fun p =>
        ((((List.range mc).map fun j => decide (j < N) && (List.range K).any fun z => B.poi (operandAt t B.cols j z)).zip (List.range mc)).map fun q =>
          if decide (p.2 < M) && decide (q.2 < N) && (p.1 || q.1) then 1 else 0)))
      (A.sat || B.sat) x.ckv
      (if x.ckv then packList 64 ((List.range mr).map fun i =>
        if i < M then sumInt ((List.range K).map fun z => ga i z * sumInt ((List.range N).map fun j => gb j z)) else 0) else 0)
      (if x.ckv then packList 64 ((List.range mc).map fun j =>
        if j < N then sumInt ((List.range K).map fun z => sumInt ((List.range M).map fun i => ga i z) * gb j z) else 0) else 0)⟩] := by
  refine (if_pos ((productFits_iff _ _ _ _).mpr h)).trans ((if_neg ?_).trans ((if_neg ?_).trans rfl))
  · rw [badCheck] at hA; rw [hA]; exact Bool.false_ne_true
  · rw [badCheck] at hB; rw [hB]; exact Bool.false_ne_true

end

/-- Settles O38. -/
theorem matrixProducts : Obligations.MatrixProducts := by
  unfold Obligations.MatrixProducts
  intro s q d a b ext t
  dsimp only
  intro h
  have e : exec (if t then .mmat q d a b ext else .mma q d a b ext) s = .next (s.mma t d a b ext) := by
    cases t with
    | false => exact runs_of_word (exec_mma s q d a b ext) h
    | true => exact runs_of_word (exec_mmat s q d a b ext) h
  have hAw : 0 < (s.tv a).w := tv_w_pos s a
  have hBw : 0 < (s.tv b).w := tv_w_pos s b
  refine ⟨fun hf => e.trans (congrArg _ (mma_misfit hf)), fun hf hA => e.trans (congrArg _ (mma_badA hf hA)), fun hf hA hB => e.trans (congrArg _ (mma_badB hf hA hB)),
    fun hf hA hB => ?_, fun r n x segs poison rc cc sticky ck hx => apply_acc_spec r n segs poison rc cc sticky ck hx, fun x m v rest => ⟨rfl, addPacked m x.part v, rfl, rfl,
      fun i hi h1 h2 => addPacked_get m x.part v hi h1 h2⟩⟩
  have hproduct := e.trans (congrArg _ (mma_product hf hA hB))
  obtain ⟨-, -, hw, hw16, -⟩ := hf
  have hfit : SegmentsFit (fun i k => (s.tv a).get false (operandAt t (s.tv a).cols i k)) fun j k => (s.tv b).get false (operandAt t (s.tv b).cols j k) :=
    fun i j f len hlen => segment_bounds hAw hBw hw16 (hw ▸ hw16) (fun t' => operandAt t (s.tv a).cols i (f + t')) (fun t' => operandAt t (s.tv b).cols j (f + t')) hlen
  have hstart : (s.accOf d).opened = false → (if (s.accOf d).opened then (s.accOf d).count else 0) = 0 := fun ho => by rw [ho]; rfl
  refine ⟨_, _, _, _, hproduct, fun r hr c hc => ⟨productSums_total hfit hr hc _ _ _, productPoison_testBit _ _ _ _ _ _ hr hc⟩, ?_,
    fun z g hz => productSums_segment hfit hstart hz, fun hk r hr => ?_, fun hk c hc => ?_⟩
  · rw [productSums_ends _ _ _ hstart]
    split <;> rfl
  · rw [if_pos hk, packList_range_bits 64 _ hr]
    simp only [sumInt_eq]
  · rw [if_pos hk, packList_range_bits 64 _ hc]
    simp only [sumInt_eq]

/-! ## The epilogue words (R224 to R234) -/

theorem tileBits_or (x y w n : Nat) : tileBits (x ||| y) w n = tileBits x w n ||| tileBits y w n := by
  rw [tileBits, Nat.or_div_two_pow, Nat.or_mod_two_pow]; rfl

theorem tileBits_placed {w v : Nat} (hv : v < 2 ^ w) (m n : Nat) : tileBits (v * 2 ^ (w * m)) w n = if m = n then v else 0 := by
  rw [tileBits]
  rcases lt_trichotomy n m with h | rfl | h
  · obtain ⟨c, rfl⟩ := Nat.exists_eq_add_of_lt h
    rw [if_neg (by omega), show w * (n + c + 1) = w * n + w * c + w by ring, Nat.pow_add, Nat.pow_add, show v * (2 ^ (w * n) * 2 ^ (w * c) * 2 ^ w) =
      v * 2 ^ (w * c) * 2 ^ w * 2 ^ (w * n) by ring, Nat.mul_div_cancel _ (Nat.two_pow_pos _), Nat.mul_mod_left]
  · rw [if_pos rfl, Nat.mul_div_cancel _ (Nat.two_pow_pos _), Nat.mod_eq_of_lt hv]
  · obtain ⟨c, rfl⟩ := Nat.exists_eq_add_of_lt h
    rw [if_neg (by omega), show w * (m + c + 1) = w * m + w * (c + 1) by ring, Nat.pow_add, Nat.mul_comm v, Nat.mul_div_mul_left _ _ (Nat.two_pow_pos _),
      Nat.div_eq_of_lt (lt_of_lt_of_le hv (Nat.pow_le_pow_right (by decide) (Nat.le_mul_of_pos_right w (Nat.succ_pos c)))), Nat.zero_mod]

section
variable {α : Type} {w : Nat} {l : List α} {key g : α → Nat}

/-- Values placed at their elements: where several stand for one element, they are the same. -/
theorem tileBits_foldl_or (hg : ∀ o ∈ l, g o < 2 ^ w) {n v : Nat} (hv : ∀ o ∈ l, key o = n → g o = v) (acc : Nat) :
    tileBits (l.foldl (fun acc o => acc ||| g o * 2 ^ (w * key o)) acc) w n = tileBits acc w n ||| if l.any (fun o => key o == n) then v else 0 := by
  induction l generalizing acc with
  | nil => exact (Nat.or_zero _).symm
  | cons o l ih =>
    rw [List.foldl_cons, ih (fun o ho => hg o (by simp [ho])) (fun o ho => hv o (by simp [ho])), tileBits_or, tileBits_placed (hg o (by simp)), List.any_cons, Nat.or_assoc]
    by_cases hk : key o = n
    · rw [if_pos hk, hv o (by simp) hk, beq_iff_eq.mpr hk, Bool.true_or, if_pos rfl]
      split
      · rw [Nat.or_self]
      · rw [Nat.or_zero]
    · rw [if_neg hk, beq_false_of_ne hk, Bool.false_or, Nat.zero_or]

theorem tileBits_zero (w n : Nat) : tileBits 0 w n = 0 := by rw [tileBits, Nat.zero_div, Nat.zero_mod]

theorem placed_at (hg : ∀ o ∈ l, g o < 2 ^ w) {n v : Nat} (hv : ∀ o ∈ l, key o = n → g o = v) (h : ∃ o ∈ l, key o = n) :
    tileBits (l.foldl (fun acc o => acc ||| g o * 2 ^ (w * key o)) 0) w n = v := by
  obtain ⟨o, ho, hk⟩ := h
  rw [tileBits_foldl_or hg hv, tileBits_zero, Nat.zero_or, if_pos]
  exact List.any_eq_true.mpr ⟨o, ho, beq_iff_eq.mpr hk⟩

theorem placed_elsewhere (hg : ∀ o ∈ l, g o < 2 ^ w) {n : Nat} (h : ∀ o ∈ l, key o ≠ n) :
    tileBits (l.foldl (fun acc o => acc ||| g o * 2 ^ (w * key o)) 0) w n = 0 := by
  rw [tileBits_foldl_or hg (v := 0) fun o ho hk => absurd hk (h o ho), tileBits_zero, Nat.zero_or, ite_self]

end

/-- Element j of row i of an EPI's block: its number in the tile, its narrowed value with the clamp flag, and its poison (R228). -/
def epiCell (s : State) (x : Acc) (D : TileView) (row0 col0 mc : Nat) (hx : Bool) (X : Handle) (m : BitVec 2) (k i j : Nat) : Nat × (Int × Bool) × Bool :=
  (i * D.cols + col0 + j,
    s.narrowEl m k D.w (if hx then X.index [X.org 0 + col0 + j, X.org 1 + i, X.org 2, X.org 3, X.org 4] else i * D.cols + col0 + j) (packGet 48 x.base ((row0 + i) * mc + j)),
    x.poison.testBit ((row0 + i) * mc + j))

/-- The elements of an EPI's block in their order. -/
def epiCells (s : State) (x : Acc) (D : TileView) (row0 col0 mr mc : Nat) (hx : Bool) (X : Handle) (m : BitVec 2) (k : Nat) : List (Nat × (Int × Bool) × Bool) :=
  (List.range (min D.rows (mr - row0))).flatMap fun i => (List.range mc).map fun j => epiCell s x D row0 col0 mc hx X m k i j

theorem epiCells_eq (s : State) (x : Acc) (D : TileView) (row0 col0 mr mc : Nat) (hx : Bool) (X : Handle) (m : BitVec 2) (k : Nat) :
    ((List.range (min D.rows (mr - row0))).flatMap fun i =>
      ((((unpack 48 x.base (mr * mc)).drop ((row0 + i) * mc)).take mc).zip (List.range mc)).map fun v =>
        (i * D.cols + col0 + v.2, s.narrowEl m k D.w (if hx then X.index [X.org 0 + col0 + v.2, X.org 1 + i, X.org 2, X.org 3, X.org 4] else i * D.cols + col0 + v.2) v.1,
          x.poison.testBit ((row0 + i) * mc + v.2))) = epiCells s x D row0 col0 mr mc hx X m k := by
  refine List.flatMap_congr fun i hi => ?_
  rw [row_of_elems x.base (by have := List.mem_range.mp hi; omega), zip_range, List.map_map]
  rfl

/-- The words that read an open accumulator take the chain fault (R224). -/
theorem readAcc_open {s : State} {a : BitVec 4} {k : Acc → State → State} (h : (s.accOf a).opened = true) : s.readAcc a k = s.trapHere 0x0A 0 := if_pos h

theorem readAcc_closed {s : State} {a : BitVec 4} {k : Acc → State → State} (h : (s.accOf a).opened = false) :
    s.readAcc a k = k ((s.accOf a).read (accElems s.slabs)) s := if_neg (by rw [h]; exact Bool.false_ne_true)

/-- The state in which an EPI's result joins those in flight: with the census of its handle, where it names one (R228). -/
def epiNoted (s : State) (hx : Bool) (X : Handle) (out : List (Nat × (Int × Bool) × Bool)) : State :=
  if hx then s.mapCur fun nd => nd.noteWrite X (nd.window X) (leastCensus (out.map fun o => headroom 32 o.2.1.1)) false false else s

/-- The result of an EPI with the elements `out` of its block. -/
def epiResult (s : State) (D : TileView) (hx : Bool) (X : Handle) (sticky : Bool) (out : List (Nat × (Int × Bool) × Bool)) : State :=
  (epiNoted s hx X out).push 8 (.tile D.slot (out.foldl (fun acc o => acc ||| (2 ^ D.w - 1) * 2 ^ (D.w * o.1)) 0)
    (out.foldl (fun acc o => acc ||| lowBits D.w o.2.1.1 * 2 ^ (D.w * o.1)) 0)
    (out.foldl (fun acc o => if o.2.2 then acc ||| (2 ^ D.w - 1) * 2 ^ (D.w * o.1) else acc) 0) (sticky || out.any fun o => o.2.1.2) false)

theorem epi_eq {s : State} {t : BitVec 6} {a : BitVec 4} {cq rq m : BitVec 2} {sh : BitVec 5} {ext : Option (BitVec 25)} (ha : (s.accOf a).opened = false) :
    let x := (s.accOf a).read (accElems s.slabs)
    let D := s.tv t
    let mr := matrixRows s.slabs
    let mc := matrixCols s.slabs
    let row0 := 64 * rq.toNat
    let col0 := 64 * cq.toNat
    let hx := (ext.getD 0).getLsbD 5
    let X := s.cur.regs.h[((ext.getD 0).extractLsb' 1 4).toNat]
    let out := epiCells s x D row0 col0 mr mc hx X m (s.epiShift sh ext)
    (D.legal = true ∧ row0 < mr ∧ col0 + mc ≤ D.cols → s.epi t a cq rq m sh ext = (epiNoted s hx X out).withResults [⟨8, .tile D.slot
      (out.foldl (fun acc o => acc ||| (2 ^ D.w - 1) * 2 ^ (D.w * o.1)) 0) (out.foldl (fun acc o => acc ||| lowBits D.w o.2.1.1 * 2 ^ (D.w * o.1)) 0)
      (out.foldl (fun acc o => acc ||| (if o.2.2 then 2 ^ D.w - 1 else 0) * 2 ^ (D.w * o.1)) 0) (x.sticky || out.any fun o => o.2.1.2) false⟩]) ∧
    (¬ (D.legal = true ∧ row0 < mr ∧ col0 + mc ≤ D.cols) → s.epi t a cq rq m sh ext = s.trapHere 3 0) := by
  intro x D mr mc row0 col0 hx X out
  have hok : (([D].all fun t => t.legal) && (decide (row0 < mr) && decide (col0 + mc ≤ D.cols))) = true ↔ D.legal = true ∧ row0 < mr ∧ col0 + mc ≤ D.cols := by
    simp only [List.all_cons, List.all_nil, Bool.and_true, Bool.and_eq_true, decide_eq_true_eq]
  refine ⟨fun h => (readAcc_closed ha).trans ((if_pos (hok.mpr h)).trans ?_), fun h => (readAcc_closed ha).trans (if_neg (mt hok.mp h))⟩
  have hout := epiCells_eq s x D row0 col0 mr mc hx X m (s.epiShift sh ext)
  have hpoison : (fun (acc : Nat) (o : Nat × (Int × Bool) × Bool) => if o.2.2 then acc ||| (2 ^ D.w - 1) * 2 ^ (D.w * o.1) else acc) =
      fun acc o => acc ||| (if o.2.2 then 2 ^ D.w - 1 else 0) * 2 ^ (D.w * o.1) := by
    funext acc o
    cases o.2.2
    · rw [if_neg Bool.false_ne_true, if_neg Bool.false_ne_true, Nat.zero_mul, Nat.or_zero]
    · rfl
  refine (congrArg (epiResult s D hx X x.sticky) hout).trans ?_
  rw [epiResult, hpoison]
  rfl

theorem mem_epiCells {s : State} {x : Acc} {D : TileView} {row0 col0 mr mc : Nat} {hx : Bool} {X : Handle} {m : BitVec 2} {k : Nat} {o : Nat × (Int × Bool) × Bool} :
    o ∈ epiCells s x D row0 col0 mr mc hx X m k ↔ ∃ i j, (i < D.rows ∧ i < mr - row0 ∧ j < mc) ∧ epiCell s x D row0 col0 mc hx X m k i j = o := by
  simp only [epiCells, List.mem_flatMap, List.mem_map, List.mem_range, lt_min_iff]
  constructor
  · rintro ⟨i, ⟨h1, h2⟩, j, hj, rfl⟩; exact ⟨i, j, ⟨h1, h2, hj⟩, rfl⟩
  · rintro ⟨i, j, ⟨h1, h2, hj⟩, rfl⟩; exact ⟨i, ⟨h1, h2⟩, j, hj, rfl⟩

/-- An element of a tile has one row and one column. -/
theorem grid_inj {c i j i' j' : Nat} (hj : j < c) (hj' : j' < c) (h : i * c + j = i' * c + j') : i = i' ∧ j = j' := by
  obtain ⟨-, h1, h2⟩ := grid_index (mr := i + 1) (Nat.lt_succ_self i) hj
  obtain ⟨-, h3, h4⟩ := grid_index (mr := i' + 1) (Nat.lt_succ_self i') hj'
  rw [h] at h1 h2
  exact ⟨h1.symm.trans h3, h2.symm.trans h4⟩

section
variable {s : State} {x : Acc} {D : TileView} {row0 col0 mr mc : Nat} {hx : Bool} {X : Handle} {m : BitVec 2} {k : Nat}
  {g : Nat × (Int × Bool) × Bool → Nat} (hcol : col0 + mc ≤ D.cols) (hg : ∀ o, g o < 2 ^ D.w) {i j : Nat} (hi : i < D.rows) (hj : j < D.cols)
include hcol hg hi hj

/-- What an EPI places at an element of its block. -/
theorem epi_inside (hin : i < mr - row0 ∧ col0 ≤ j ∧ j < col0 + mc) :
    tileBits ((epiCells s x D row0 col0 mr mc hx X m k).foldl (fun acc o => acc ||| g o * 2 ^ (D.w * o.1)) 0) D.w (i * D.cols + j) =
      g (epiCell s x D row0 col0 mc hx X m k i (j - col0)) := by
  obtain ⟨h1, h2, h3⟩ := hin
  refine placed_at (key := Prod.fst) (g := g) (fun o _ => hg o) (fun o ho hk => ?_) ⟨_, mem_epiCells.mpr ⟨i, j - col0, ⟨hi, h1, by omega⟩, rfl⟩, ?_⟩
  · obtain ⟨i', j', ⟨-, -, hj'⟩, rfl⟩ := mem_epiCells.mp ho
    obtain ⟨rfl, rfl⟩ := grid_inj (j := col0 + j') (by omega) hj (by rw [← Nat.add_assoc]; exact hk)
    rw [Nat.add_sub_cancel_left]
  · rw [epiCell, Nat.add_assoc, Nat.add_sub_cancel' h2]

/-- An EPI leaves every element outside its block. -/
theorem epi_outside (hout : ¬ (i < mr - row0 ∧ col0 ≤ j ∧ j < col0 + mc)) :
    tileBits ((epiCells s x D row0 col0 mr mc hx X m k).foldl (fun acc o => acc ||| g o * 2 ^ (D.w * o.1)) 0) D.w (i * D.cols + j) = 0 := by
  refine placed_elsewhere (key := Prod.fst) (g := g) (fun o _ => hg o) fun o ho hk => ?_
  obtain ⟨i', j', ⟨-, h1, hj'⟩, rfl⟩ := mem_epiCells.mp ho
  obtain ⟨rfl, rfl⟩ := grid_inj (j := col0 + j') (by omega) hj (by rw [← Nat.add_assoc]; exact hk)
  exact hout ⟨h1, by omega, by omega⟩

end

/-- The index of an EPI's rounding (R53, R228). -/
def epiIndex (hx : Bool) (X : Handle) (cols i j : Nat) : Nat :=
  if hx then linIndex X.exts ([X.org 0 + j, X.org 1 + i, X.org 2, X.org 3, X.org 4].zipIdx.map fun e => if e.2 < X.rank then e.1 else 0) else i * cols + j

theorem narrowEl_eq (s : State) (m : BitVec 2) (k w idx : Nat) (x : Int) :
    s.narrowEl m k w idx x = narrow m s.cur.ctl.seed.toNat s.cur.ctl.step.toNat idx x k w := rfl

theorem epiCell_value (s : State) (x : Acc) (D : TileView) (row0 col0 mc : Nat) (hx : Bool) (X : Handle) (m : BitVec 2) (k i j : Nat) :
    (epiCell s x D row0 col0 mc hx X m k i j).2.1 =
      narrow m s.cur.ctl.seed.toNat s.cur.ctl.step.toNat (epiIndex hx X D.cols i (col0 + j)) (packGet 48 x.base ((row0 + i) * mc + j)) k D.w := by
  rw [epiCell, narrowEl_eq, epiIndex, Nat.add_assoc, Nat.add_assoc]
  rfl

/-- What an EPI with a legal block gives its tile (R228). -/
theorem epi_spec {s : State} {t : BitVec 6} {a : BitVec 4} {cq rq m : BitVec 2} {sh : BitVec 5} {ext : Option (BitVec 25)} (ha : (s.accOf a).opened = false) :
    let x := (s.accOf a).read (accElems s.slabs)
    let D := s.tv t
    let mr := matrixRows s.slabs
    let mc := matrixCols s.slabs
    let row0 := 64 * rq.toNat
    let col0 := 64 * cq.toNat
    let hx := (ext.getD 0).getLsbD 5
    let X := s.cur.regs.h[((ext.getD 0).extractLsb' 1 4).toNat]
    let k := s.epiShift sh ext
    let in_ := fun i j => i < mr - row0 ∧ col0 ≤ j ∧ j < col0 + mc
    let from_ := fun i j => (row0 + i) * mc + (j - col0)
    let v := fun i j => narrow m s.cur.ctl.seed.toNat s.cur.ctl.step.toNat (epiIndex hx X D.cols i j) (packGet 48 x.base (from_ i j)) k D.w
    D.legal = true ∧ row0 < mr ∧ col0 + mc ≤ D.cols →
    ∃ mask bits poison sat, s.epi t a cq rq m sh ext = (if hx then s.mapCur fun n => n.noteWrite X (n.window X)
        (leastCensus ((List.range (min D.rows (mr - row0))).flatMap fun i => (List.range mc).map fun j => headroom 32 (v i (col0 + j)).1)) false false else s).withResults
        [{ dist := 8, eff := .tile D.slot mask bits poison sat false }] ∧
      (∀ i < D.rows, ∀ j < D.cols,
        (in_ i j → tileBits mask D.w (i * D.cols + j) = 2 ^ D.w - 1 ∧ tileBits bits D.w (i * D.cols + j) = lowBits D.w (v i j).1 ∧
          elemPoison poison D.w (i * D.cols + j) = x.poison.testBit (from_ i j)) ∧
        (¬ in_ i j → tileBits mask D.w (i * D.cols + j) = 0 ∧ tileBits bits D.w (i * D.cols + j) = 0 ∧ elemPoison poison D.w (i * D.cols + j) = false)) ∧
      (sat = true ↔ x.sticky = true ∨ ∃ i j, i < D.rows ∧ j < D.cols ∧ in_ i j ∧ (v i j).2 = true) := by
  intro x D mr mc row0 col0 hx X k in_ from_ v hok
  have hw : 0 < D.w := tv_w_pos s t
  have hpow : 1 < 2 ^ D.w := Nat.one_lt_two_pow hw.ne'
  have hval : ∀ i j, (epiCell s x D row0 col0 mc hx X m k i (j - col0)).2.1 = v i (col0 + (j - col0)) := fun i j => by
    rw [epiCell_value]
    simp only [v, from_, Nat.add_sub_cancel_left]
  have hcensus : ((epiCells s x D row0 col0 mr mc hx X m k).map fun o => headroom 32 o.2.1.1) =
      (List.range (min D.rows (mr - row0))).flatMap fun i => (List.range mc).map fun j => headroom 32 (v i (col0 + j)).1 := by
    rw [epiCells, List.map_flatMap]
    refine List.flatMap_congr fun i _ => ?_
    rw [List.map_map]
    refine List.map_congr_left fun j _ => ?_
    rw [Function.comp, epiCell_value]
    simp only [v, from_, Nat.add_sub_cancel_left]
  have he := (epi_eq (t := t) (cq := cq) (rq := rq) (m := m) (sh := sh) (ext := ext) ha).1 hok
  have hfull : ∀ o : Nat × (Int × Bool) × Bool, 2 ^ D.w - 1 < 2 ^ D.w := fun _ => by omega
  have hmark : ∀ o : Nat × (Int × Bool) × Bool, (if o.2.2 then 2 ^ D.w - 1 else 0) < 2 ^ D.w := fun o => by split <;> omega
  refine ⟨_, _, _, _, he.trans (congrArg (fun l => (if hx then s.mapCur fun nd => nd.noteWrite X (nd.window X) (leastCensus l) false false else s).withResults _) hcensus),
    fun i hi j hj => ⟨fun hin => ⟨epi_inside hok.2.2 hfull hi hj hin, (epi_inside hok.2.2 (fun _ => lowBits_lt _ _) hi hj hin).trans ?_, ?_⟩,
      fun hout => ⟨epi_outside hok.2.2 hfull hi hj hout, epi_outside hok.2.2 (fun _ => lowBits_lt _ _) hi hj hout, ?_⟩⟩, ?_⟩
  · rw [hval, Nat.add_sub_cancel' hin.2.1]
  · refine (congrArg (· != 0) (epi_inside hok.2.2 hmark hi hj hin)).trans ?_
    rw [epiCell]
    dsimp only
    split
    · rename_i h
      exact (bne_iff_ne.mpr (by omega)).trans h.symm
    · rename_i h
      exact (Bool.eq_false_iff.mpr h).symm
  · exact congrArg (· != 0) (epi_outside hok.2.2 hmark hi hj hout)
  · rw [Bool.or_eq_true, List.any_eq_true]
    refine or_congr_right ⟨?_, ?_⟩
    · rintro ⟨o, ho, hc⟩
      obtain ⟨i, j, ⟨h1, h2, h3⟩, rfl⟩ := mem_epiCells.mp ho
      have hval' := hval i (col0 + j)
      rw [Nat.add_sub_cancel_left] at hval'
      exact ⟨i, col0 + j, h1, by have := hok.2.2; omega, ⟨h2, by omega, by omega⟩, hval' ▸ hc⟩
    · rintro ⟨i, j, h1, h2, ⟨h3, h4, h5⟩, hc⟩
      refine ⟨_, mem_epiCells.mpr ⟨i, j - col0, ⟨h1, h3, by omega⟩, rfl⟩, ?_⟩
      rw [hval, Nat.add_sub_cancel' h4]
      exact hc

/-! ### EPI.ADD, EPI.SEND and EPI.CK -/

theorem epiRoom_full {s : State} {k : State → State} (h : 8 ≤ s.cur.eng.epi.length) : s.epiRoom k = s.delay := if_pos h

theorem epiRoom_room {s : State} {k : State → State} (h : s.cur.eng.epi.length < 8) : s.epiRoom k = k s := if_neg (by omega)

section
variable {s : State} {h a : BitVec 4} {m r : BitVec 2} {sh : BitVec 5} {acq : Bool} {ext : Option (BitVec 25)}

theorem epiAdd_spec (ha : (s.accOf a).opened = false) :
    let x := (s.accOf a).read (accElems s.slabs)
    let H := s.cur.regs.h[h.toNat]
    let add := s.epiAdd h a m sh acq ext
    (∀ f, s.checkHandle s.cur H true = some f → add = s.engineFault f h true H) ∧
    (s.checkHandle s.cur H true = none → H.fmt ≠ 3 → add = s.trapHere 4 (BitVec.ofNat 64 (h.toNat + 16))) ∧
    (s.checkHandle s.cur H true = none → H.fmt = 3 → 8 ≤ s.cur.eng.epi.length → add = s.delay) ∧
    (s.checkHandle s.cur H true = none → H.fmt = 3 → s.cur.eng.epi.length < 8 → add = s.mapEng fun g => { g with
      nextOrd := g.nextOrd + 1
      epi := g.epi ++ [.add { h := H, vals := s.epiVals x H m (s.epiShift sh ext) 32, sticky := x.sticky, win := s.cur.window H, acq := acq, ord := g.nextOrd }] }) := by
  intro x H add
  have e : add = _ := readAcc_closed ha
  refine ⟨fun f hf => ?_, fun hc hf => ?_, fun hc hf hl => ?_, fun hc hf hl => ?_⟩
  · rw [e]; simp only [H] at hf; simp only [hf]; rfl
  · rw [e]; simp only [H] at hc; simp only [hc]; exact if_pos hf
  · rw [e]; simp only [H] at hc; simp only [hc]; exact (if_neg (not_not_intro hf)).trans (epiRoom_full hl)
  · rw [e]; simp only [H] at hc; simp only [hc]; exact (if_neg (not_not_intro hf)).trans ((epiRoom_room hl).trans rfl)

theorem epiSend_faults (ha : (s.accOf a).opened = false) :
    let H := s.cur.regs.h[h.toNat]
    let er := s.cur.regs.e[r.toNat]
    let val : Word := BitVec.ofNat 64 (h.toNat + 16)
    let send := s.epiSend r h a m sh ext
    (routeBad er = true → send = s.trapHere 7 0) ∧
    (routeBad er = false → handleStep1 H = false → send = s.trapHere 5 val) ∧
    (routeBad er = false → handleStep1 H = true → handleStep2 s.cur H = false ∨ fmtBlock H.fmt = true → send = s.trapHere 4 val) ∧
    (routeBad er = false → handleStep1 H = true → handleStep2 s.cur H = true → fmtBlock H.fmt = false → 8 ≤ s.cur.eng.epi.length → send = s.delay) := by
  intro H er val send
  have e : send = _ := readAcc_closed ha
  have no {b : Bool} (hb : b = false) : ¬ b = true := by rw [hb]; exact Bool.false_ne_true
  have yes {b : Bool} (hb : b = true) : ¬ (!b) = true := by rw [hb]; exact Bool.false_ne_true
  refine ⟨fun h1 => e.trans (if_pos h1), fun h1 h2 => e.trans ((if_neg (no h1)).trans (if_pos (by rw [h2]; rfl))), fun h1 h2 h3 => ?_, fun h1 h2 h3 h4 hl => ?_⟩
  · refine e.trans ((if_neg (no h1)).trans ((if_neg (yes h2)).trans ?_))
    by_cases h4 : handleStep2 s.cur H = true
    · exact (if_neg (yes h4)).trans (if_pos (h3.resolve_left (by rw [h4]; decide)))
    · exact if_pos (by rw [Bool.not_eq_true _ |>.mp h4]; rfl)
  · exact e.trans ((if_neg (no h1)).trans ((if_neg (yes h2)).trans ((if_neg (yes h3)).trans ((if_neg (no h4)).trans (epiRoom_full hl)))))

/-- The command that an EPI.SEND queues (R233). -/
def epiSendCmd (s : State) (r : BitVec 2) (H : Handle) (vals : List EpiVal) : SendCmd :=
  { epi := true, route := r, er := s.cur.regs.e[r.toNat], hD := H, hS := 0, sw := 0, ctrl := 0, trigger := 0,
    payload := vals.map (fun v => { e := v.v, m := 0, poison := v.poison }), extents := [matrixCols s.slabs, matrixRows s.slabs, 1, 1, 1],
    coreIdx := BitVec.ofNat 10 s.focus, sent := false, ord := s.cur.eng.nextOrd }

/-- A command of the epilogue has been queued with the census, SAT and POI of its write. -/
def epiQueued (s : State) (r : BitVec 2) (H : Handle) (census : Option Nat) (sat poi : Bool) (c : SendCmd) : State :=
  (((s.mapCur fun n => n.noteWrite H (n.window H) census sat poi).mapRun fun q => { q with irrev := true }).mapEng fun e =>
    { e.take with epi := e.epi ++ [.send c] }).push 1 (.e r (routeNext s.cur.regs.e[r.toNat]))

theorem epiQueued_fields (s : State) (r : BitVec 2) (H : Handle) (census : Option Nat) (sat poi : Bool) (c : SendCmd) :
    (epiQueued s r H census sat poi c).cur.run.irrev = true ∧
    (epiQueued s r H census sat poi c).cur.eng = { s.cur.eng with nextOrd := s.cur.eng.nextOrd + 1, epi := s.cur.eng.epi ++ [.send c] } ∧
    (epiQueued s r H census sat poi c).cur.ctl.flight = s.cur.ctl.flight ++ [{ dist := 1, eff := .e r (routeNext s.cur.regs.e[r.toNat]) }] ∧
    (epiQueued s r H census sat poi c).mem = s.mem ∧ (epiQueued s r H census sat poi c).nodes = s.nodes := ⟨rfl, rfl, rfl, rfl, rfl⟩

theorem epiSend_queued (ha : (s.accOf a).opened = false) :
    let x := (s.accOf a).read (accElems s.slabs)
    let H := s.cur.regs.h[h.toNat]
    routeBad s.cur.regs.e[r.toNat] = false → handleStep1 H = true → handleStep2 s.cur H = true → fmtBlock H.fmt = false → s.cur.eng.epi.length < 8 →
    ∃ census sat poi, s.epiSend r h a m sh ext =
      epiQueued s r H census sat poi (epiSendCmd s r H (s.epiVals x H m (s.epiShift sh ext) (fmtWidth H.fmt))) := by
  intro x H h1 h2 h3 h4 hl
  have no {b : Bool} (hb : b = false) : ¬ b = true := by rw [hb]; exact Bool.false_ne_true
  have yes {b : Bool} (hb : b = true) : ¬ (!b) = true := by rw [hb]; exact Bool.false_ne_true
  exact ⟨_, _, _, (readAcc_closed ha).trans ((if_neg (no h1)).trans ((if_neg (yes h2)).trans ((if_neg (yes h3)).trans ((if_neg (no h4)).trans ((epiRoom_room hl).trans rfl)))))⟩

theorem epiCk_spec {p : BitVec 3} (ha : (s.accOf a).opened = false) :
    let x := (s.accOf a).read (accElems s.slabs)
    let mr := matrixRows s.slabs
    let mc := matrixCols s.slabs
    (x.ckv = false → s.epiCk p a = s.trapHere 0x0A 0) ∧
    (x.ckv = true → x.poison ≠ 0 → s.epiCk p a = s.consume) ∧
    (x.ckv = true → x.poison = 0 → s.epiCk p a = s.withResults (predResult 8 p
      (packList 64 (rowSums mr mc (x.elems s.slabs)) == x.rc && packList 64 (colSums mr mc (x.elems s.slabs)) == x.cc))) := by
  intro x mr mc
  have e : s.epiCk p a = _ := readAcc_closed ha
  have yes (hb : x.ckv = true) : ¬ (!x.ckv) = true := by rw [hb]; exact Bool.false_ne_true
  exact ⟨fun h1 => e.trans (if_pos (by rw [h1]; rfl)), fun h1 h2 => e.trans ((if_neg (yes h1)).trans (if_pos h2)),
    fun h1 h2 => e.trans ((if_neg (yes h1)).trans ((if_neg (not_not_intro h2)).trans (State.pushP_eq ..)))⟩

/-- The narrowed values of an epilogue write (R229, R233). -/
theorem mem_epiVals {x : Acc} {H : Handle} {k w : Nat} {v : EpiVal} (hv : v ∈ s.epiVals x H m k w) :
    ∃ n < matrixRows s.slabs * matrixCols s.slabs,
      v.v = (narrow m s.cur.ctl.seed.toNat s.cur.ctl.step.toNat (linIndex H.exts (accCell H (matrixCols s.slabs) n)) (packGet 48 x.base n) k w).1 ∧ v.poison = x.poison.testBit n := by
  rw [State.epiVals, Acc.elems, unpack_eq, zip_range, List.map_map] at hv
  obtain ⟨n, hn, rfl⟩ := List.mem_map.mp hv
  exact ⟨n, List.mem_range.mp hn, rfl, rfl⟩

end

/-- Settles O40. -/
theorem epilogueWords : Obligations.EpilogueWords := by
  unfold Obligations.EpilogueWords
  intro s q t a h cq rq m r sh e1 l1 o p ext
  dsimp only
  refine ⟨fun ho i hi hr => ?_, fun ha => ⟨fun hr => ⟨?_, ?_⟩, fun hr => ?_, fun hr => ?_, fun hr => ?_, fun v hv => mem_epiVals hv⟩⟩
  · simp only [List.mem_cons, List.not_mem_nil, or_false] at hi
    rcases hi with rfl | rfl | rfl | rfl
    · exact (runs_of_word (exec_epi s q t a cq rq m sh ext) hr).trans (congrArg _ (readAcc_open ho))
    · exact (runs_of_word (exec_epiAdd s q h a m sh e1 l1 o ext) hr).trans (congrArg _ (readAcc_open ho))
    · exact (runs_of_word (exec_epiSend s q r h a m sh ext) hr).trans (congrArg _ (readAcc_open ho))
    · exact (runs_of_word (exec_epiCk s q p a) hr).trans (congrArg _ (readAcc_open ho))
  · exact fun hf => (runs_of_word (exec_epi s q t a cq rq m sh ext) hr).trans (congrArg _ ((epi_eq ha).2 hf))
  · intro hok
    obtain ⟨mask, bits, poison, sat, he, hrest⟩ := epi_spec (m := m) (sh := sh) (ext := ext) ha hok
    exact ⟨mask, bits, poison, sat, (runs_of_word (exec_epi s q t a cq rq m sh ext) hr).trans (congrArg _ he), hrest⟩
  · have e := runs_of_word (exec_epiAdd s q h a m sh e1 l1 o ext) hr
    obtain ⟨h1, h2, h3, h4⟩ := epiAdd_spec (h := h) (m := m) (sh := sh) (acq := e1 == 1) (ext := ext) ha
    exact ⟨fun f hf => e.trans (congrArg _ (h1 f hf)), fun hc hf => e.trans (congrArg _ (h2 hc hf)), fun hc hf hl => e.trans (congrArg _ (h3 hc hf hl)),
      fun hc hf hl => e.trans (congrArg _ (h4 hc hf hl))⟩
  · have e := runs_of_word (exec_epiSend s q r h a m sh ext) hr
    obtain ⟨h1, h2, h3, h4⟩ := epiSend_faults (h := h) (m := m) (r := r) (sh := sh) (ext := ext) ha
    refine ⟨fun hb => e.trans (congrArg _ (h1 hb)), fun hb hs => e.trans (congrArg _ (h2 hb hs)), fun hb hs hf => e.trans (congrArg _ (h3 hb hs hf)),
      fun hb hs1 hs2 hf => ⟨fun hl => e.trans (congrArg _ (h4 hb hs1 hs2 hf hl)), fun hl => ?_⟩⟩
    obtain ⟨census, sat, poi, hu⟩ := epiSend_queued (m := m) (sh := sh) (ext := ext) ha hb hs1 hs2 hf hl
    obtain ⟨hirrev, heng, hflight, hmem, hnodes⟩ := epiQueued_fields s r s.cur.regs.h[h.toNat] census sat poi (epiSendCmd s r s.cur.regs.h[h.toNat] _)
    exact ⟨_, _, e.trans (congrArg _ hu), hirrev, heng, hflight, hmem, hnodes, rfl, rfl, rfl, rfl, rfl, rfl, rfl, rfl⟩
  · have e := runs_of_word (exec_epiCk s q p a) hr
    obtain ⟨h1, h2, h3⟩ := epiCk_spec (p := p) ha
    exact ⟨fun hc => e.trans (congrArg _ (h1 hc)), fun hc hp => e.trans (congrArg _ (h2 hc hp)), fun hc hp => e.trans (congrArg _ (h3 hc hp))⟩

end Sys2Proof.Proofs
end

