-- ==== Sys2Proof/Proofs/Commands.lean ====
section
/-! Copy words and link words at issue (R273 to R282, R331 to R342). -/
namespace Sys2Proof.Proofs
open Sys2Proof Sys2Proof.Machine

-- One theorem after another: side by side they need more memory than one run may take.
set_option Elab.async false

/-! ## The copy words at issue (R273 to R279) -/

theorem leastSeq_isSome (l : List (Nat × CopyCmd)) : (leastSeq l).isSome = !l.isEmpty := by
  cases l with
  | nil => rfl
  | cons a l =>
    rw [leastSeq]
    split
    · rfl
    · split <;> rfl

/-- A command of a slot has fired and found no room, on a node that shares the slot (log entry 33). -/
theorem firstFired_isSome_iff (s : State) (uid : Nat) (b : Bool) :
    (s.firstFired uid b).isSome = true ↔ ∃ n ∈ s.sharers uid, ∃ c ∈ n.eng.armedOf b, c.fired = true := by
  rw [State.firstFired, leastSeq_isSome, Bool.not_eq_true', List.isEmpty_eq_false_iff_exists_mem]
  simp only [List.mem_flatMap, List.mem_map, Eng.firedOf, List.mem_filter]
  constructor
  · rintro ⟨x, n, hn, c, ⟨hc, hf⟩, rfl⟩; exact ⟨n, hn, c, hc, hf⟩
  · rintro ⟨n, hn, c, hc, hf⟩; exact ⟨_, n, hn, c, ⟨hc, hf⟩, rfl⟩

section
variable {s : State} {c : CopyCmd}

/-- A command fires at issue, or is armed (R279). -/
def FiresAtIssue (s : State) (k : CopyKind) (x : Word) : Prop := k ≠ .cpyq ∨ trigThreshold x ≤ (s.cur.regs.c[trigCounter x]?.getD 0).toNat

theorem fires_iff : (c.kind != .cpyq || s.cur.triggered c.x) = true ↔ FiresAtIssue s c.kind c.x := by
  rw [Bool.or_eq_true, bne_iff_ne, Node.triggered, decide_eq_true_eq]; rfl

theorem queueCopy_spec :
    let b := s.bnd.slotCB
    let uid := s.cur.desc.uid
    let cmd : CopyCmd := { c with ord := s.cur.eng.nextOrd }
    let behind : Prop := ∃ n ∈ s.sharers uid, ∃ c ∈ n.eng.armedOf b, c.fired = true
    let armed := s.cur.eng.armedOf b
    (FiresAtIssue s c.kind c.x → s.slotLoad uid b < 16 → ¬ behind → s.queueCopy c = s.mapEng fun n =>
      ({ n with nextOrd := n.nextOrd + 1 } : Eng).setQueue b (n.queue b ++ [{ cmd with seq := s.nextSeq uid b }])) ∧
    (FiresAtIssue s c.kind c.x → 16 ≤ s.slotLoad uid b ∨ behind → s.queueCopy c = s.delay) ∧
    (¬ FiresAtIssue s c.kind c.x → armed.length < 8 → s.queueCopy c = s.mapEng fun n =>
      ({ n with nextOrd := n.nextOrd + 1 } : Eng).setArmed b (n.armedOf b ++ [cmd])) ∧
    (¬ FiresAtIssue s c.kind c.x → 8 ≤ armed.length → s.queueCopy c = s.delay) := by
  intro b uid cmd behind armed
  have hf := fires_iff (s := s) (c := cmd)
  have hfull : (decide (16 ≤ s.slotLoad uid b) || (s.firstFired uid b).isSome) = true ↔ 16 ≤ s.slotLoad uid b ∨ behind := by
    rw [Bool.or_eq_true, decide_eq_true_eq, firstFired_isSome_iff]
  refine ⟨fun h h1 h2 => ?_, fun h h1 => ?_, fun h h1 => ?_, fun h h1 => ?_⟩
  · exact (if_pos (hf.mpr h)).trans ((if_neg (mt hfull.mp (by rintro (h3 | h3); exacts [absurd h3 (by omega), h2 h3]))).trans rfl)
  · exact (if_pos (hf.mpr h)).trans (if_pos (hfull.mpr h1))
  · exact (if_neg (mt hf.mp h)).trans ((if_neg (Nat.not_le.mpr h1)).trans rfl)
  · exact (if_neg (mt hf.mp h)).trans (if_pos h1)

end

/-- A copy word at issue: `src` is the source handle where the word has one, `xv` what its extra register holds. -/
theorem issueCopy_spec {s : State} {i : Instr} {k : CopyKind} {hd hs w : BitVec 4} {x : Option (BitVec 5)} {src : Option Handle} {xv : Word}
    (hsrc : (if k = .cpyf then none else some s.cur.regs.h[hs.toNat]) = src) (hx : x.elim 0 (fun r => s.cur.s r) = xv) :
    let sw := s.cur.s (BitVec.ofNat 5 (2 * w.toNat))
    let sw1 := s.cur.s (BitVec.ofNat 5 (2 * w.toNat + 1))
    let hD := s.cur.regs.h[hd.toNat]
    let cmd : CopyCmd := { kind := k, hD := hD, hS := src.getD 0, sw := sw, sw1 := sw1, x := xv, seed := s.cur.ctl.seed, step := s.cur.ctl.step, addr := s.bnd.addr,
                           win := s.cur.window hD, word := (encode i).headD 0 }
    (copyBad k s.cur.desc.image.uirq sw sw1 xv = true → s.issueCopy i k hd hs w x = s.trapHere 8 0) ∧
    (copyBad k s.cur.desc.image.uirq sw sw1 xv = false →
      (∀ e, s.copyHandles s.cur src hD = some (e, true) → s.issueCopy i k hd hs w x = s.engineFault e hd true hD) ∧
      (∀ e, s.copyHandles s.cur src hD = some (e, false) → s.issueCopy i k hd hs w x = s.engineFault e hs false (src.getD 0)) ∧
      (s.copyHandles s.cur src hD = none →
        (copyFormat k src hD (windowExts sw sw1) xv = some true → s.issueCopy i k hd hs w x = s.trapHere 4 (BitVec.ofNat 64 (hd.toNat + 16))) ∧
        (copyFormat k src hD (windowExts sw sw1) xv = some false → s.issueCopy i k hd hs w x = s.trapHere 4 (BitVec.ofNat 64 hs.toNat)) ∧
        (copyFormat k src hD (windowExts sw sw1) xv = none → s.issueCopy i k hd hs w x = s.queueCopy cmd))) := by
  subst hsrc
  have no {b : Bool} (hb : b = false) : ¬ b = true := by rw [hb]; exact Bool.false_ne_true
  cases x <;> subst hx
  all_goals
    dsimp only [Option.elim_none, Option.elim_some]
    refine ⟨fun h => if_pos h, fun h => ⟨fun e he => (if_neg (no h)).trans ?_, fun e he => (if_neg (no h)).trans ?_, fun he =>
      ⟨fun hf => (if_neg (no h)).trans ?_, fun hf => (if_neg (no h)).trans ?_, fun hf => (if_neg (no h)).trans ?_⟩⟩⟩
    · simp only [he]
    · simp only [he]
    · simp only [he, hf]
    · simp only [he, hf]
    · simp only [he, hf]

/-- A copy word, with the queueing of its command. -/
theorem copyWord_spec {s : State} {i : Instr} {k : CopyKind} {hd hs w : BitVec 4} {x : Option (BitVec 5)} {src : Option Handle} {xv : Word}
    (e : exec i s = .next (s.issueCopy i k hd hs w x))
    (hsrc : (if k = .cpyf then none else some s.cur.regs.h[hs.toNat]) = src) (hx : x.elim 0 (fun r => s.cur.s r) = xv) :
    let b := s.bnd.slotCB
    let uid := s.cur.desc.uid
    let sw := s.cur.s (BitVec.ofNat 5 (2 * w.toNat))
    let sw1 := s.cur.s (BitVec.ofNat 5 (2 * w.toNat + 1))
    let hD := s.cur.regs.h[hd.toNat]
    let cmd : CopyCmd := { kind := k, hD := hD, hS := src.getD 0, sw := sw, sw1 := sw1, x := xv, seed := s.cur.ctl.seed, step := s.cur.ctl.step, addr := s.bnd.addr,
                           win := s.cur.window hD, word := (encode i).headD 0, ord := s.cur.eng.nextOrd }
    let behind : Prop := ∃ n ∈ s.sharers uid, ∃ c ∈ n.eng.armedOf b, c.fired = true
    let armed := s.cur.eng.armedOf b
    (copyBad k s.cur.desc.image.uirq sw sw1 xv = true → exec i s = .next (s.trapHere 8 0)) ∧
    (copyBad k s.cur.desc.image.uirq sw sw1 xv = false →
      (∀ e, s.copyHandles s.cur src hD = some (e, true) → exec i s = .next (s.engineFault e hd true hD)) ∧
      (∀ e, s.copyHandles s.cur src hD = some (e, false) → exec i s = .next (s.engineFault e hs false (src.getD 0))) ∧
      (s.copyHandles s.cur src hD = none →
        (copyFormat k src hD (windowExts sw sw1) xv = some true → exec i s = .next (s.trapHere 4 (BitVec.ofNat 64 (hd.toNat + 16)))) ∧
        (copyFormat k src hD (windowExts sw sw1) xv = some false → exec i s = .next (s.trapHere 4 (BitVec.ofNat 64 hs.toNat))) ∧
        (copyFormat k src hD (windowExts sw sw1) xv = none →
          (FiresAtIssue s k xv → s.slotLoad uid b < 16 → ¬ behind → exec i s = .next (s.mapEng fun n =>
            ({ n with nextOrd := n.nextOrd + 1 } : Eng).setQueue b (n.queue b ++ [{ cmd with seq := s.nextSeq uid b }]))) ∧
          (FiresAtIssue s k xv → 16 ≤ s.slotLoad uid b ∨ behind → exec i s = .next s.delay) ∧
          (¬ FiresAtIssue s k xv → armed.length < 8 → exec i s = .next (s.mapEng fun n =>
            ({ n with nextOrd := n.nextOrd + 1 } : Eng).setArmed b (n.armedOf b ++ [cmd]))) ∧
          (¬ FiresAtIssue s k xv → 8 ≤ armed.length → exec i s = .next s.delay)))) := by
  intro b uid sw sw1 hD cmd behind armed
  obtain ⟨hbad, hgood⟩ := issueCopy_spec (i := i) (hd := hd) (w := w) hsrc hx
  rw [e]
  refine ⟨fun h => congrArg _ (hbad h), fun h => ?_⟩
  obtain ⟨hdst, hsrc', hchecked⟩ := hgood h
  refine ⟨fun f hf => congrArg _ (hdst f hf), fun f hf => congrArg _ (hsrc' f hf), fun hn => ?_⟩
  obtain ⟨hfd, hfs, hq⟩ := hchecked hn
  refine ⟨fun hf => congrArg _ (hfd hf), fun hf => congrArg _ (hfs hf), fun hf => ?_⟩
  obtain ⟨q1, q2, q3, q4⟩ := queueCopy_spec (s := s) (c :=
    { kind := k, hD := hD, hS := src.getD 0, sw := sw, sw1 := sw1, x := xv, seed := s.cur.ctl.seed, step := s.cur.ctl.step, addr := s.bnd.addr,
      win := s.cur.window hD, word := (encode i).headD 0 })
  rw [hq hf]
  exact ⟨fun a1 a2 a3 => congrArg _ (q1 a1 a2 a3), fun a1 a2 => congrArg _ (q2 a1 a2), fun a1 a2 => congrArg _ (q3 a1 a2), fun a1 a2 => congrArg _ (q4 a1 a2)⟩

theorem mem_sharers {s : State} {uid : Nat} {k : Core} (h : s.coreOf uid = some k) (n : Node) :
    n ∈ s.sharers uid ↔ ∃ u ∈ k.slots.toList, u ≠ 0 ∧ n = s.node u ∧ (n.desc.uid = uid ∨ n.run.st ≠ .placed) := by
  simp only [State.sharers, h, List.mem_filter, List.mem_map, Bool.or_eq_true, beq_iff_eq, Bool.not_eq_true', beq_eq_false_iff_ne, bne_iff_ne]
  constructor
  · rintro ⟨⟨u, ⟨hu, h0⟩, rfl⟩, hn⟩; exact ⟨u, hu, h0, rfl, hn⟩
  · rintro ⟨u, hu, h0, rfl, hn⟩; exact ⟨⟨u, ⟨hu, h0⟩, rfl⟩, hn⟩

/-! ### CPYCAN (R282) -/

theorem begunLen_spec : ∀ l : List CopyCmd, begunLen l ≤ l.length ∧ (∀ c ∈ (l.take (begunLen l)).getLast?, c.progress.done ≠ []) ∧
    ∀ c ∈ l.drop (begunLen l), c.progress.done = []
  | [] => ⟨le_rfl, fun c hc => absurd hc (by simp), fun c hc => absurd hc (by simp)⟩
  | c :: rest => by
    obtain ⟨h1, h2, h3⟩ := begunLen_spec rest
    rw [begunLen]
    split
    · rename_i hpos
      refine ⟨Nat.succ_le_succ h1, ?_, ?_⟩
      · rw [List.take_succ_cons]
        have hne : rest.take (begunLen rest) ≠ [] := fun h => by
          have := congrArg List.length h
          rw [List.length_take, List.length_nil] at this
          omega
        rwa [List.getLast?_cons, List.getLast?_eq_some_getLast hne, Option.getD_some, ← List.getLast?_eq_some_getLast hne]
      · rw [List.drop_succ_cons]; exact h3
    · rename_i hzero
      have h0 : begunLen rest = 0 := by omega
      rw [h0, List.drop_zero] at h3
      split
      · rename_i hd
        refine ⟨Nat.zero_le _, fun d hd => absurd hd (by simp), fun d hd' => ?_⟩
        rcases List.mem_cons.mp hd' with rfl | hd'
        · exact List.isEmpty_iff.mp hd
        · exact h3 d hd'
      · rename_i hd
        refine ⟨by rw [List.length_cons]; omega, fun d hd' => ?_, fun d hd' => h3 d hd'⟩
        rw [List.take_succ_cons, List.take_zero] at hd'
        obtain rfl := Option.some.inj hd'
        exact fun h => hd (List.isEmpty_iff.mpr h)

section
variable (e : Eng) (b : Bool) (l : List CopyCmd)

@[simp] theorem queue_setQueue : (e.setQueue b l).queue b = l := by cases b <;> rfl
@[simp] theorem queue_setArmed (b' : Bool) : (e.setArmed b l).queue b' = e.queue b' := by cases b <;> cases b' <;> rfl
@[simp] theorem armedOf_setArmed : (e.setArmed b l).armedOf b = l := by cases b <;> rfl
@[simp] theorem armedOf_setQueue (b' : Bool) : (e.setQueue b l).armedOf b' = e.armedOf b' := by cases b <;> cases b' <;> rfl
theorem queue_setQueue_not : (e.setQueue b l).queue (!b) = e.queue (!b) := by cases b <;> rfl
theorem armedOf_setArmed_not : (e.setArmed b l).armedOf (!b) = e.armedOf (!b) := by cases b <;> rfl

end

theorem cancel_spec {e : Eng} {b : Bool} {k : Nat} (h : e.cancels.find? (fun c => c.1 == b) = some (b, k)) :
    (∃ begun stay : List CopyCmd, e.queue b = begun ++ stay ∧ (∀ c ∈ begun.getLast?, c.progress.done ≠ []) ∧ (∀ c ∈ stay, c.progress.done = []) ∧
      (e.cancel b).queue b = begun ++ stay.filter fun c => decide (k ≤ c.ord)) ∧
    (e.cancel b).armedOf b = (e.armedOf b).filter (fun c => decide (k ≤ c.ord)) ∧
    (e.cancel b).queue (!b) = e.queue (!b) ∧ (e.cancel b).armedOf (!b) = e.armedOf (!b) ∧
    { e.cancel b with ca := e.ca, cb := e.cb, caArmed := e.caArmed, cbArmed := e.cbArmed } = { e with cancels := e.cancels.erase (b, k) } := by
  obtain ⟨-, h2, h3⟩ := begunLen_spec (e.queue b)
  have heq : e.cancel b = { (e.setQueue b ((e.queue b).take (begunLen (e.queue b)) ++ ((e.queue b).drop (begunLen (e.queue b))).filter fun x => decide (k ≤ x.ord))).setArmed b
      ((e.armedOf b).filter fun x => decide (k ≤ x.ord)) with cancels := e.cancels.erase (b, k) } := by
    simp only [Eng.cancel, h]
    cases b <;> rfl
  refine ⟨⟨(e.queue b).take (begunLen (e.queue b)), (e.queue b).drop (begunLen (e.queue b)), (List.take_append_drop ..).symm, h2, h3, ?_⟩, ?_⟩
  · rw [heq]; cases b <;> rfl
  · rw [heq]; cases b <;> exact ⟨rfl, rfl, rfl, rfl⟩

/-- CPYCAN takes effect in a step of its own (R282). -/
theorem step_cancel {s : State} {uid : Nat} {b : Bool} {rest : List Agendum} (ha : s.agenda = .cancel uid b :: rest) (hu : s.cur.desc.uid = uid) (hl : s.cur.live = true) :
    ∃ t, step s = .next t ∧ t.mem = s.mem ∧ t.cur = { s.cur with eng := s.cur.eng.cancel b } ∧ t.nodes = s.nodes := by
  subst hu
  have hnode : ({ s with agenda := rest } : State).node s.cur.desc.uid = s.cur := if_pos rfl
  have e : ({ s with agenda := rest } : State).cancelNow s.cur.desc.uid b = { s with agenda := rest, cur := { s.cur with eng := s.cur.eng.cancel b } } := by
    rw [State.cancelNow, hnode, if_pos hl, State.mapNode, hnode]
    exact if_pos rfl
  have hs : step s = .next ((({ s with agenda := rest } : State).cancelNow s.cur.desc.uid b).settlePool) := by
    simp only [step, ha]
    rfl
  exact ⟨_, hs.trans (congrArg (fun t : State => Host.Outcome.next t.settlePool) e), rfl, rfl, rfl⟩

/-- Settles O41. -/
theorem copyWords : Obligations.CopyWords := by
  unfold Obligations.CopyWords
  intro s q g hd hs w v ca cb
  dsimp only
  refine ⟨fun f hf hr => ?_, fun hr => ?_, fun uid b k rest ha hu hl hk => ?_, fun uid k b hk => ⟨mem_sharers hk, rfl⟩⟩
  · simp only [List.mem_cons, List.not_mem_nil, or_false] at hf
    rcases hf with rfl | rfl | rfl | rfl | rfl
    · exact copyWord_spec (runs_of_word (exec_cpy s q g hd hs w) hr) rfl rfl
    · exact copyWord_spec (runs_of_word (exec_cpyk s q g hd hs w) hr) rfl rfl
    · exact copyWord_spec (runs_of_word (exec_cpyf s q g hd w v) hr) rfl rfl
    · exact copyWord_spec (runs_of_word (exec_cpyb s q g hd hs w v) hr) rfl rfl
    · exact copyWord_spec (runs_of_word (exec_cpyq s q g hd hs w v) hr) rfl rfl
  · refine (runs_of_word (exec_cpycan s q g ca cb) hr).trans (congrArg _ ?_)
    by_cases ha : ca = 1
    · by_cases hb : cb = 1
      · simp only [ha, hb, if_true, State.cancelSlot, State.mapEng, State.mapCur]
      · simp only [ha, hb, if_true, if_false, State.cancelSlot, State.mapEng, State.mapCur, List.append_nil]
    · by_cases hb : cb = 1
      · simp only [ha, hb, if_true, if_false, State.cancelSlot, State.mapEng, State.mapCur, List.append_nil]
      · simp only [ha, hb, if_false, State.mapEng, State.mapCur, List.append_nil]
  · obtain ⟨t, ht, hmem, hcur, hnodes⟩ := step_cancel ha hu hl
    exact ⟨t, ht, hmem, by rw [hcur], by rw [hcur], hnodes, by rw [hcur]; exact cancel_spec hk⟩

/-! ## The link words at issue (R331 to R342) -/

/-- A link word that issues makes its run irreversible and takes the next SEQ of its route (R331, R333). -/
def linkIssued (s : State) (r : BitVec 2) (f : Eng → Eng) : State :=
  ((s.mapRun fun x => { x with irrev := true }).mapEng f).withResults [{ dist := 1, eff := .e r (routeNext s.cur.regs.e[r.toNat]) }]

/-- The command of a SEND or a SENDT (R334, R337). -/
def sendCmdOf (s : State) (r : BitVec 2) (hd hs w : BitVec 4) (tr : Word) : SendCmd :=
  { epi := false, route := r, er := s.cur.regs.e[r.toNat], hD := s.cur.regs.h[hd.toNat], hS := s.cur.regs.h[hs.toNat], sw := s.linkReg w 0, ctrl := s.linkReg w 1,
    trigger := tr, payload := [], extents := windowExts (s.linkReg w 0) (s.linkReg w 1), coreIdx := BitVec.ofNat 10 s.focus, sent := false, ord := s.cur.eng.nextOrd }

theorem issueSend_spec (s : State) (trig : Bool) (hd hs w : BitVec 4) (r : BitVec 2) :
    let er := s.cur.regs.e[r.toNat]
    let sw := s.linkReg w 0
    let c := s.linkReg w 1
    let tr := if trig then s.linkReg w 2 else 0
    let hD := s.cur.regs.h[hd.toNat]
    let hS := s.cur.regs.h[hs.toNat]
    let offMap := s.link.dx ≤ (routeX er).toNat ∨ s.link.dy ≤ (routeY er).toNat ∨ s.link.dz ≤ (routeZ er).toNat
    let fires := trig = false ∨ trigThreshold tr ≤ (s.cur.regs.c[trigCounter tr]?.getD 0).toNat
    let cmd := sendCmdOf s r hd hs w tr
    let behind : Prop := ∃ c ∈ s.cur.eng.armed, c.fired = true
    let send := s.issueSend trig hd hs w r
    (routeBad er = true ∨ offMap → send = s.trapHere 7 0) ∧
    (¬ (routeBad er = true ∨ offMap) →
      (sendBad s.cur.desc.image.uirq trig sw c tr = true → send = s.trapHere 8 0) ∧
      (sendBad s.cur.desc.image.uirq trig sw c tr = false →
        (∀ f dest, s.linkHandles (some hS) hD = some (f, dest) → send = s.linkFault f dest hd hs) ∧
        (s.linkHandles (some hS) hD = none →
          (copyFormat .cpy (some hS) hD (windowExts sw c) 0 = some true → send = s.trapHere 4 (BitVec.ofNat 64 (hd.toNat + 16))) ∧
          (copyFormat .cpy (some hS) hD (windowExts sw c) 0 = some false → send = s.trapHere 4 (BitVec.ofNat 64 hs.toNat)) ∧
          (copyFormat .cpy (some hS) hD (windowExts sw c) 0 = none →
            (fires → s.cur.eng.sends.length < 16 → ¬ behind → send = linkIssued s r fun e => { e with nextOrd := e.nextOrd + 1, sends := e.sends ++ [cmd] }) ∧
            (fires → 16 ≤ s.cur.eng.sends.length ∨ behind → send = s.delay) ∧
            (¬ fires → s.cur.eng.armed.length < 16 → send = linkIssued s r fun e => { e with nextOrd := e.nextOrd + 1, armed := e.armed ++ [cmd] }) ∧
            (¬ fires → 16 ≤ s.cur.eng.armed.length → send = s.delay))))) := by
  dsimp only
  have no {b : Bool} (hb : b = false) : ¬ b = true := by rw [hb]; exact Bool.false_ne_true
  refine ⟨fun h => if_pos h, fun h1 => ⟨fun h2 => (if_neg h1).trans (if_pos h2), fun h2 => ⟨fun f dest he => (if_neg h1).trans ((if_neg (no h2)).trans ?_), fun he =>
    ⟨fun hf => (if_neg h1).trans ((if_neg (no h2)).trans ?_), fun hf => (if_neg h1).trans ((if_neg (no h2)).trans ?_), fun hf => ?_⟩⟩⟩⟩
  · simp only [he]
  · simp only [he, hf]
  · simp only [he, hf]
  · have hfires : (!trig || s.cur.triggered (if trig then s.linkReg w 2 else 0)) = true ↔
        trig = false ∨ trigThreshold (if trig then s.linkReg w 2 else 0) ≤ (s.cur.regs.c[trigCounter (if trig then s.linkReg w 2 else 0)]?.getD 0).toNat := by
      rw [Bool.or_eq_true, Bool.not_eq_true', Node.triggered, decide_eq_true_eq]
    have hbehind : s.cur.eng.armed.any (·.fired) = true ↔ ∃ c ∈ s.cur.eng.armed, c.fired = true := List.any_eq_true
    refine ⟨fun hfi hlen hno => ?_, fun hfi hfull => ?_, fun hfi hlen => ?_, fun hfi hfull => ?_⟩ <;>
      refine (if_neg h1).trans ((if_neg (no h2)).trans ?_) <;> simp only [he, hf] <;> rw [← hfires] at hfi
    · rw [← hbehind] at hno
      rw [if_neg (by rw [hfi]; simp only [Bool.true_and, Bool.not_true, Bool.false_and, Bool.or_false, Bool.or_eq_true, decide_eq_true_eq]; exact fun h => h.elim (by omega) hno)]
      simp only [hfi]
      rfl
    · rw [← hbehind] at hfull
      exact if_pos (by rw [hfi]; simpa using hfull)
    · rw [Bool.not_eq_true] at hfi
      rw [if_neg (by rw [hfi]; simpa using hlen)]
      simp only [hfi]
      rfl
    · rw [Bool.not_eq_true] at hfi
      exact if_pos (by rw [hfi]; simpa using hfull)

/-! ### COLL (R333, R340 to R342) -/

theorem countCorrectable_cur (s : State) (uid : Nat) (m : Memory) : (s.countCorrectable uid m).cur = s.cur := by
  cases m with
  | pool => obtain ⟨cs, h⟩ := countFor_keeps s uid "correctable errors"; change (s.countFor uid _).cur = s.cur; rw [h]
  | ring g k => rfl
  | dram c => rfl
  | host => rfl

theorem countCorrected_cur (s : State) (uid : Nat) (l : List (Option ElemRead)) : (s.countCorrected uid l).cur = s.cur := by
  have all (found : List (Nat × Memory)) : ∀ t : State, (found.foldl (fun s c => s.countCorrectable uid c.2) t).cur = t.cur := by
    induction found with
    | nil => exact fun _ => rfl
    | cons c found ih => exact fun t => (ih _).trans (countCorrectable_cur t uid c.2)
  exact all _ s

/-- A window read by the current node's link engine leaves the node's registers and control registers. -/
theorem readWindow_keeps {s v : State} {h : Handle} {exts : List Nat} {es : List Elem} (hr : s.readWindow s.cur.desc.uid h exts = .ok (es, v)) :
    ∃ g, v.cur = { s.cur with ctl := { s.cur.ctl with guard := g } } := by
  unfold State.readWindow at hr
  split at hr
  · cases hr
  · next l _ =>
    obtain ⟨-, rfl⟩ := Prod.mk.inj (Except.ok.inj hr)
    have hc := countCorrected_cur s s.cur.desc.uid l
    rw [State.touchLink]
    split
    · exact ⟨s.cur.ctl.guard, hc⟩
    · generalize s.countCorrected s.cur.desc.uid l = t at hc
      obtain ⟨cs, g, ht⟩ := touch_own { t with free := t.free + 1 } (BitVec.ofNat 3 (Config.freeNat t.free)) none (guardOf l)
      rw [← hc]
      exact ⟨g, congrArg State.cur ht⟩

theorem linkReg_congr {s v : State} {g : Option GuardRec} (h : v.cur = { s.cur with ctl := { s.cur.ctl with guard := g } }) (w : BitVec 4) (i : Nat) :
    v.linkReg w i = s.linkReg w i := by
  rw [State.linkReg, h]
  rfl

/-- What a COLL that reads a window waits for (R288, R292, R294, R341). -/
theorem collWaits_iff (s : State) (hS : Handle) (c : Word) (src : Bool) (exts : List Nat) :
    (src && (!s.mayRead s.cur s.cur.eng.nextOrd (s.windowPlaces s.cur hS exts false (List.range (prodN exts))) ||
        (ctlAcq c == 1 && !(s.cur.eng.acquired 3 s.cur.eng.nextOrd && s.cur.eng.sends.isEmpty && s.cur.eng.colls.isEmpty)) ||
        (lnkOrig c && !s.link.roomFor (payloadBytes (prodN exts) (fmtWidth hS.fmt))))) = true ↔
      src = true ∧
        ((∃ x ∈ s.linkWrites s.cur s.cur.eng.nextOrd ++ s.linkReads s.cur s.cur.eng.nextOrd,
            placesMeet (s.cur.desc.uid, s.windowPlaces s.cur hS exts false (List.range (prodN exts))) x = true) ∨
          (lnkOrig c = true ∧ 2 ^ 24 < s.link.buffered + payloadBytes (prodN exts) (fmtWidth hS.fmt)) ∨
          (ctlAcq c = 1 ∧ ¬ (s.cur.eng.acquired 3 s.cur.eng.nextOrd = true ∧ s.cur.eng.sends = [] ∧ s.cur.eng.colls = []))) := by
  have hread (n : Node) (o : Nat) (l : List Place) : (!s.mayRead n o l) = true ↔ ∃ x ∈ s.linkWrites n o ++ s.linkReads n o, placesMeet (n.desc.uid, l) x = true := by
    rw [State.mayRead, Bool.not_not, List.any_eq_true]
  have hroom (b : Nat) : (!s.link.roomFor b) = true ↔ 2 ^ 24 < s.link.buffered + b := by
    rw [LinkUnit.roomFor, ← decide_not, decide_eq_true_eq, Nat.not_le]
  have hacq : (!(s.cur.eng.acquired 3 s.cur.eng.nextOrd && s.cur.eng.sends.isEmpty && s.cur.eng.colls.isEmpty)) = true ↔
      ¬ (s.cur.eng.acquired 3 s.cur.eng.nextOrd = true ∧ s.cur.eng.sends = [] ∧ s.cur.eng.colls = []) := by
    rw [Bool.not_eq_true', ← Bool.not_eq_true, Bool.and_eq_true, Bool.and_eq_true, List.isEmpty_iff, List.isEmpty_iff, and_assoc]
  rw [Bool.and_eq_true, Bool.or_eq_true, Bool.or_eq_true, Bool.and_eq_true, Bool.and_eq_true, hread, hroom, hacq, beq_iff_eq]
  exact and_congr_right' (or_assoc.trans (or_congr_right or_comm))

/-- ORIG and CONTR exclude each other in a COLL that passes its check (R339). -/
theorem not_orig_and_contr {uirq : Bool} {hs : BitVec 4} {hS hD : Handle} {sw c l0 l1 : Word} (h : collBad uirq hs hS hD sw c l0 l1 = false) :
    ¬ (lnkOrig c = true ∧ lnkContr c = true) := by
  intro ⟨ho, hc⟩
  have : collBad uirq hs hS hD sw c l0 l1 = true := by simp [collBad, ho, hc]
  rw [h] at this
  cases this

theorem collFormat_iff (h : Handle) : (h.fmt == 1 || h.fmt == 2 || h.fmt == 3) = true ↔ h.fmt = 1 ∨ h.fmt = 2 ∨ h.fmt = 3 := by
  simp [or_assoc]

/-- The COLL that a node issues (R340). -/
def collCmdOf (s : State) (hd w : BitVec 4) (r : BitVec 2) : CollCmd :=
  let c := s.linkReg w 1
  { tag := { space := s.cur.desc.queue, route := r, seq := routeSeq s.cur.regs.e[r.toNat] }, orig := lnkOrig c, contr := lnkContr c, recv := lnkRecv c,
    cnt := ctlCnt c, ui := ctlUi c, hD := s.cur.regs.h[hd.toNat], exts := windowExts (s.linkReg w 0) c, origDone := false, contrDone := false,
    recvDone := false, ord := s.cur.eng.nextOrd, core := s.focus }

/-- A COLL has joined the engine and its tag the unit (R340). -/
def collJoined (s : State) (hd w : BitVec 4) (r : BitVec 2) : State :=
  let k := collCmdOf s hd w r
  let u := linkIssued s r fun e => { e.take with colls := e.colls ++ [k] }
  { u with link := { u.link with registered := u.link.registered ++ [(k.tag, s.cur.desc.uid)], aborted := u.link.aborted.filter fun t => t != k.tag } }

/-- A COLL whose window is read: its contribution, or its packet, waits at the module (R340, R341). -/
def collReads (s : State) (hd hs w : BitVec 4) (r : BitVec 2) : State :=
  let c := s.linkReg w 1
  let uid := s.cur.desc.uid
  let hS := s.cur.regs.h[hs.toNat]
  let k := collCmdOf s hd w r
  match (collJoined s hd w r).readWindow uid hS k.exts with
  | .error .access => (((collJoined s hd w r).mapColl uid k.tag fun c => { c with ui := false }).startAbort k.tag).linkFlag uid 0x24
  | .error f => (collJoined s hd w r).memFault uid f
  | .ok (es, v) =>
    if k.contr then { v with link := { v.link with contribs := v.link.contribs ++ [{ tag := k.tag, uid := uid, width := fmtWidth hS.fmt, elems := es }] } }
    else { v with link := { v.link with
      waiting := v.link.waiting ++ [{ tag := k.tag, ops := opList (v.linkReg w 2) (v.linkReg w 3) (lnkLen c), width := fmtWidth hS.fmt, elems := es, clamp := false,
                                      extents := k.exts, hD := k.hD, seed := v.cur.ctl.seed, step := v.cur.ctl.step, origin := true }] } }

/-- A COLL that has passed its checks and need not wait (R340, R342, R395). -/
def collIssued (s : State) (hd hs w : BitVec 4) (r : BitVec 2) : State :=
  let c := s.linkReg w 1
  let k := collCmdOf s hd w r
  let u := linkIssued s r Eng.take
  if s.link.tagAborted k.tag then
    let u := if k.recv then u.addCounter s.cur.desc.uid k.cnt abortMark else u
    if k.ui then ({ u with free := u.free + 1 } : State).mapCur fun n => n.addRecord (if Config.freeBool u.free then 1 else 0) k.cnt else u
  else if s.link.registered.any (fun e => e.1 == k.tag) then u.linkFlag s.cur.desc.uid 0x22
  else if lnkOrig c || lnkContr c then collReads s hd hs w r
  else collJoined s hd w r

theorem issueColl_spec (s : State) (hd hs w : BitVec 4) (r : BitVec 2) :
    let c := s.linkReg w 1
    let hD := s.cur.regs.h[hd.toNat]
    let hS := s.cur.regs.h[hs.toNat]
    let exts := windowExts (s.linkReg w 0) c
    let src := lnkOrig c || lnkContr c
    let coll := fun (h : Handle) => h.fmt = 1 ∨ h.fmt = 2 ∨ h.fmt = 3
    let waits : Prop := src = true ∧
      ((∃ x ∈ s.linkWrites s.cur s.cur.eng.nextOrd ++ s.linkReads s.cur s.cur.eng.nextOrd,
          placesMeet (s.cur.desc.uid, s.windowPlaces s.cur hS exts false (List.range (prodN exts))) x = true) ∨
        (lnkOrig c = true ∧ 2 ^ 24 < s.link.buffered + payloadBytes (prodN exts) (fmtWidth hS.fmt)) ∨
        (ctlAcq c = 1 ∧ ¬ (s.cur.eng.acquired 3 s.cur.eng.nextOrd = true ∧ s.cur.eng.sends = [] ∧ s.cur.eng.colls = [])))
    routeBad s.cur.regs.e[r.toNat] = false → collBad s.cur.desc.image.uirq hs hS hD (s.linkReg w 0) c (s.linkReg w 2) (s.linkReg w 3) = false →
    s.linkHandles (if src then some hS else none) hD = none →
      (src = true → ¬ coll hS → s.issueColl hd hs w r = s.trapHere 4 (BitVec.ofNat 64 hs.toNat)) ∧
      ((src = true → coll hS) → ¬ coll hD → s.issueColl hd hs w r = s.trapHere 4 (BitVec.ofNat 64 (hd.toNat + 16))) ∧
      ((src = true → coll hS) → coll hD → waits → s.issueColl hd hs w r = s.delay) ∧
      ((src = true → coll hS) → coll hD → ¬ waits → s.issueColl hd hs w r = collIssued s hd hs w r) := by
  dsimp only
  intro h1 h2 he
  have no {b : Bool} (hb : b = false) : ¬ b = true := by rw [hb]; exact Bool.false_ne_true
  rw [← collWaits_iff, ← collFormat_iff, ← collFormat_iff]
  have hform (src x : Bool) (h : src = true → x = true) : ¬ (src && !x) = true := by
    cases src with
    | false => exact Bool.false_ne_true
    | true => rw [h rfl]; exact Bool.false_ne_true
  have hbad (x : Bool) (h : x = true) : ¬ (!x) = true := by rw [h]; exact Bool.false_ne_true
  refine ⟨fun h3 h4 => ?_, fun h3 h4 => ?_, fun h3 h4 h5 => ?_, fun h3 h4 h5 => ?_⟩ <;> refine (if_neg (no h1)).trans ((if_neg (no h2)).trans ?_) <;> simp only [he]
  · exact if_pos (by rw [h3, eq_false_of_ne_true h4]; rfl)
  · rw [if_neg (hform _ _ h3)]
    exact if_pos (by rw [eq_false_of_ne_true h4]; rfl)
  · rw [if_neg (hform _ _ h3), if_neg (hbad _ h4)]
    exact if_pos h5
  · rw [if_neg (hform _ _ h3), if_neg (hbad _ h4), if_neg h5]
    refine if_congr Iff.rfl ?_ (if_congr Iff.rfl rfl ?_)
    · cases hui : ctlUi (s.linkReg w 1) <;> simp only [collCmdOf, hui] <;> rfl
    · cases hsrc : lnkOrig (s.linkReg w 1) || lnkContr (s.linkReg w 1)
      · rfl
      · rfl

theorem collReads_spec (s : State) (hd hs w : BitVec 4) (r : BitVec 2) :
    let c := s.linkReg w 1
    let uid := s.cur.desc.uid
    let hS := s.cur.regs.h[hs.toNat]
    let k := collCmdOf s hd w r
    let joined := collJoined s hd w r
    (joined.readWindow uid hS k.exts = .error .access →
      collReads s hd hs w r = ((joined.mapColl uid k.tag fun c => { c with ui := false }).startAbort k.tag).linkFlag uid 0x24) ∧
    (∀ f, f ≠ .access → joined.readWindow uid hS k.exts = .error f → collReads s hd hs w r = joined.memFault uid f) ∧
    (∀ es v, joined.readWindow uid hS k.exts = .ok (es, v) → k.contr = true → collReads s hd hs w r = { v with link := { v.link with
      contribs := v.link.contribs ++ [{ tag := k.tag, uid := uid, width := fmtWidth hS.fmt, elems := es }] } }) ∧
    (∀ es v, joined.readWindow uid hS k.exts = .ok (es, v) → k.contr = false → collReads s hd hs w r = { v with link := { v.link with
      waiting := v.link.waiting ++ [{ tag := k.tag, ops := opList (s.linkReg w 2) (s.linkReg w 3) (lnkLen c), width := fmtWidth hS.fmt, elems := es, clamp := false,
                                      extents := k.exts, hD := k.hD, seed := s.cur.ctl.seed, step := s.cur.ctl.step, origin := true }] } }) := by
  dsimp only
  refine ⟨fun h => ?_, fun f hf h => ?_, fun es v h hc => ?_, fun es v h hc => ?_⟩
  · simp only [collReads, h]
  · cases f with
    | access => exact absurd rfl hf
    | _ => simp only [collReads, h]
  · simp only [collReads, h, hc, if_true]
  · obtain ⟨g, hv⟩ := readWindow_keeps (s := collJoined s hd w r) h
    have hreg (i : Nat) : v.linkReg w i = s.linkReg w i := linkReg_congr (s := collJoined s hd w r) hv w i
    have hseed : v.cur.ctl.seed = s.cur.ctl.seed ∧ v.cur.ctl.step = s.cur.ctl.step := by rw [hv]; exact ⟨rfl, rfl⟩
    simp only [collReads, h, hc, hreg, hseed, Bool.false_eq_true, if_false]

/-- Settles O42: SEND and SENDT by the cases of `issueSend_spec`, COLL by those of `issueColl_spec` and `collReads_spec`, ABORT by the two outcomes of its check. -/
theorem linkWords : Obligations.LinkWords := by
  unfold Obligations.LinkWords
  intro s q g hd hs w r trig
  dsimp only
  have no {b : Bool} (hb : b = false) : ¬ b = true := by rw [hb]; exact Bool.false_ne_true
  refine ⟨fun h => ?_, fun h => ?_, fun h => ?_⟩
  · have run : exec (if trig then Instr.sendt q g hd hs w r else .send q g hd hs w r) s = .next (s.issueSend trig hd hs w r) := by
      cases trig
      · exact runs_of_word (exec_send s q g hd hs w r) h
      · exact runs_of_word (exec_sendt s q g hd hs w r) h
    have gives {t : State} (e : s.issueSend trig hd hs w r = t) := run.trans (congrArg Host.Outcome.next e)
    obtain ⟨off, on⟩ := issueSend_spec s trig hd hs w r
    refine ⟨fun h1 => gives (off h1), fun h1 => ?_⟩
    obtain ⟨bad, good⟩ := on h1
    refine ⟨fun h2 => gives (bad h2), fun h2 => ?_⟩
    obtain ⟨fault, pass⟩ := good h2
    refine ⟨fun f dest he => gives (fault f dest he), fun he => ?_⟩
    obtain ⟨dst, src, fit⟩ := pass he
    refine ⟨fun hf => gives (dst hf), fun hf => gives (src hf), fun hf => ?_⟩
    obtain ⟨now, full, arm, noRoom⟩ := fit hf
    exact ⟨fun hfi hl hb => gives (now hfi hl hb), fun hfi hl => gives (full hfi hl), fun hfi hl => gives (arm hfi hl), fun hfi hl => gives (noRoom hfi hl)⟩
  · have run := runs_of_word (exec_coll s q g hd hs w r) h
    have gives {t : State} (e : s.issueColl hd hs w r = t) := run.trans (congrArg Host.Outcome.next e)
    refine ⟨fun h1 => gives (if_pos h1), fun h1 h2 => gives ((if_neg (no h1)).trans (if_pos h2)), fun h1 h2 => ⟨fun f dest he => ?_, fun he => ?_⟩⟩
    · refine gives ((if_neg (no h1)).trans ((if_neg (no h2)).trans ?_))
      simp only [he]
    · obtain ⟨srcBad, dstBad, delays, issues⟩ := issueColl_spec s hd hs w r h1 h2 he
      refine ⟨fun h3 hf => gives (srcBad h3 hf), fun h3 hf => gives (dstBad h3 hf), fun h3 h4 h5 => gives (delays h3 h4 h5), fun h3 h4 h5 ha => ?_,
        fun h3 h4 h5 ha hreg => ?_, fun h3 h4 h5 ha hreg => ?_⟩ <;>
        have goes {t : State} (e : collIssued s hd hs w r = t) := gives ((issues h3 h4 h5).trans e)
      · exact ⟨fun hui => goes ((if_pos ha).trans (if_neg (no hui))), fun hui => ⟨_, goes ((if_pos ha).trans (if_pos hui))⟩⟩
      · exact goes ((if_neg (no ha)).trans (if_pos hreg))
      · have joins {t : State} (e) : exec (.coll q g hd hs w r) s = .next t := goes ((if_neg (no ha)).trans ((if_neg (no hreg)).trans e))
        obtain ⟨access, fault, contr, orig⟩ := collReads_spec s hd hs w r
        refine ⟨fun hsrc => joins (if_neg (no hsrc)), fun hsrc hr => joins ((if_pos hsrc).trans (access hr)), fun hsrc f hf hr => joins ((if_pos hsrc).trans (fault f hf hr)),
          fun es v hr hc => joins ((if_pos ?_).trans (contr es v hr hc)), fun es v hr ho => joins ((if_pos ?_).trans (orig es v hr ?_))⟩
        · rw [hc, Bool.or_true]
        · rw [ho, Bool.true_or]
        · exact eq_false_of_ne_true fun hc => not_orig_and_contr h2 ⟨ho, hc⟩
  · have run := runs_of_word (exec_abort s q g r) h
    exact ⟨fun h1 => run.trans (congrArg _ (if_pos h1)), fun h1 => run.trans (congrArg _ (if_neg (no h1)))⟩

end Sys2Proof.Proofs
end

