-- ==== Sys2Proof/Proofs/Traps.lean ====
section
namespace Sys2Proof.Proofs
open Sys2Proof Sys2Proof.Machine

-- One theorem after another: side by side they need more memory than one run may take.
set_option Elab.async false

/-! ## Taking a trap (R345 to R349, R357) -/

theorem rewind_of_none {s : State} (h : s.bnd.before = none) : s.rewind = s := by simp only [State.rewind, h]

theorem rewind_of_some {s : State} {r : Regs} {fl : List InFlight} (h : s.bnd.before = some (r, fl)) :
    s.rewind = { s with cur := { s.cur with regs := r, ctl := { s.cur.ctl with flight := fl } } } := by
  simp only [State.rewind, h]
  rfl

theorem rewind_keeps (s : State) : s.rewind.focus = s.focus ∧ s.rewind.mem = s.mem ∧ s.rewind.nodes = s.nodes := by
  cases h : s.bnd.before with
  | none => rw [rewind_of_none h]; exact ⟨rfl, rfl, rfl⟩
  | some x => rw [rewind_of_some h]; exact ⟨rfl, rfl, rfl⟩

theorem mem_recorded (c : Ctl) (f : InFlight) : f ∈ c.recorded ↔ f ∈ c.flight ∧ ∀ j, f.eff ≠ .cenClose j := by
  rw [Ctl.recorded, List.mem_filter]
  refine and_congr_right' ?_
  cases f.eff <;> simp

theorem mem_closing (c : Ctl) (k : BitVec 6) : k ∈ c.closing ↔ ∃ g ∈ c.flight, g.eff = .cenClose k := by
  rw [Ctl.closing, List.mem_filterMap]
  refine exists_congr fun g => and_congr_right' ?_
  cases g.eff <;> simp

/-- The state in which a trap is taken: before the bundle under way, with the cause counted (R140, R345). -/
def countedTrap (s : State) (x : Cause) : State := s.rewind.countCore s.rewind.focus ("cause " ++ toString x.code.toNat)

/-- A third compare trap in a row is reported where its rollback would be allowed (R357). -/
def reportedTrap (b : State) (x : Cause) : State :=
  if (x.code = 0x18 ∨ x.code = 0x19) ∧ b.cur.ctl.trap.crb = true ∧ b.mayRollBack b.cur.desc.uid = true ∧ 2 ≤ b.cur.run.compareRollbacks then
    b.countCore b.focus "reported for repair" else b

theorem reportedTrap_keeps (b : State) (x : Cause) : ∃ cs, reportedTrap b x = { b with cores := cs } := by
  unfold reportedTrap
  split
  · exact ⟨_, rfl⟩
  · exact ⟨b.cores, rfl⟩

theorem takeTrap_back {s b : State} {x : Cause} (hb : countedTrap s x = b)
    (h : (x.code = 0x18 ∨ x.code = 0x19) ∧ b.cur.ctl.trap.crb = true ∧ b.mayRollBack b.cur.desc.uid = true ∧ b.cur.run.compareRollbacks < 2) :
    s.takeTrap x = ((b.countCore b.focus "compare rollbacks").mapRun fun r => { r with compareRollbacks := r.compareRollbacks + 1 }).rollback b.cur.desc.uid none := by
  subst hb
  exact if_pos (by rwa [decide_eq_true_eq])

theorem takeTrap_forward {s b : State} {x : Cause} (hb : countedTrap s x = b)
    (h : ¬ ((x.code = 0x18 ∨ x.code = 0x19) ∧ b.cur.ctl.trap.crb = true ∧ b.mayRollBack b.cur.desc.uid = true ∧ b.cur.run.compareRollbacks < 2)) :
    let n := b.cur
    let u := reportedTrap b x
    s.takeTrap x = if n.ctl.trap.en ∧ ¬ n.ctl.trap.act then
        if offsetOf n.desc.image.ovl (n.ctl.enterTrap x).pc.toNat % 12 ≠ 0 then (u.countCore u.focus ("cause " ++ toString 12)).failNode n.desc.uid (stNodeTrap 0x0C)
        else { (u.mapCtl fun c => c.enterTrap x) with bnd := { u.bnd with stop := .taken, post := [] } }
      else u.failNode n.desc.uid (stNodeTrap x.code) := by
  subst hb
  refine (if_neg (by rwa [decide_eq_true_eq])).trans ?_
  have hr : reportedTrap (countedTrap s x) x = if decide (x.code = 0x18 ∨ x.code = 0x19) = true ∧ (countedTrap s x).cur.ctl.trap.crb = true ∧
      (countedTrap s x).mayRollBack (countedTrap s x).cur.desc.uid = true ∧ 2 ≤ (countedTrap s x).cur.run.compareRollbacks then
        (countedTrap s x).countCore (countedTrap s x).focus "reported for repair" else countedTrap s x := if_congr (by rw [decide_eq_true_eq]) rfl rfl
  dsimp only
  rw [hr]
  rfl

/-- Settles O43: the cases of a taken trap by `takeTrap_back` and `takeTrap_forward`. -/
theorem trapEntry : Obligations.TrapEntry := by
  unfold Obligations.TrapEntry
  intro s x
  dsimp only
  obtain ⟨hfocus, hmem, hnodes⟩ := rewind_keeps s
  rw [← hfocus]
  have hb : countedTrap s x = s.rewind.countCore s.rewind.focus ("cause " ++ toString x.code.toNat) := rfl
  have hm : (s.rewind.countCore s.rewind.focus ("cause " ++ toString x.code.toNat)).mem = s.mem := hmem
  have hn : (s.rewind.countCore s.rewind.focus ("cause " ++ toString x.code.toNat)).nodes = s.nodes := hnodes
  have entered {b : Bool} (h : b = false) : ¬ b = true := by rw [h]; exact Bool.false_ne_true
  have barred {e a : Bool} (h : e = false ∨ a = true) : ¬ (e = true ∧ ¬ a = true) := fun hk => h.elim (fun he => entered he hk.1) hk.2
  have silent {b : State} (h : ¬ ((x.code = 0x18 ∨ x.code = 0x19) ∧ b.cur.ctl.trap.crb = true)) : reportedTrap b x = b := if_neg fun hk => h ⟨hk.1, hk.2.1⟩
  refine ⟨fun h1 h2 h3 h4 => ?_, fun h1 h2 => ?_, fun h1 h2 h3 h4 => ?_, fun h1 h2 h3 h4 => ?_, fun h1 => takeTrap_back hb h1, fun r fl h => ?_, fun h => ?_,
    fun c f k => ⟨mem_recorded c f, mem_closing c k⟩, fun c => rfl⟩
  · have h := (takeTrap_forward hb h1).trans ((if_pos ⟨h2, entered h3⟩).trans (if_neg (not_not_intro h4)))
    obtain ⟨cs, hr⟩ := reportedTrap_keeps (s.rewind.countCore s.rewind.focus ("cause " ++ toString x.code.toNat)) x
    rw [hr] at h
    rw [h]
    exact ⟨rfl, rfl, rfl, rfl, rfl, rfl, rfl, rfl, rfl, rfl, rfl, rfl, rfl, rfl, hm, hn, rfl, rfl⟩
  · rw [(takeTrap_forward hb fun hk => h1 ⟨hk.1, hk.2.1⟩).trans (if_neg (barred h2)), silent h1]
  · rw [(takeTrap_forward hb fun hk => h1 ⟨hk.1, hk.2.1⟩).trans ((if_pos ⟨h2, entered h3⟩).trans (if_pos h4)), silent h1]
    rfl
  · rw [(takeTrap_forward hb h3).trans (if_neg (barred h4))]
    exact congrArg (fun u : State => u.failNode _ _) (if_congr ⟨fun hk => hk.2.2, fun hk => ⟨h1, h2, hk⟩⟩ rfl rfl)
  · rw [rewind_of_some h]; exact ⟨rfl, rfl⟩
  · rw [rewind_of_none h]; rfl

/-! ## TRAP, BRK, CMPT and the returns (R321 to R323, R350) -/

theorem raOk_iff (t : TrapRegs) (ovl : Bool) : t.raOk ovl = true ↔
    t.ra = t.fa ∨ t.ra = t.recRa ∨ ((t.cause = 0x18 ∨ t.cause = 0x1A ∨ t.cause = 0x1B) ∧ t.ra = t.val.extractLsb' 22 22) ∨
      (if ovl then t.ra.toNat % 65536 else t.ra.toNat) % 12 = 0 := by
  have hna : (some t.ra == t.na) = true ↔ (t.cause = 0x18 ∨ t.cause = 0x1A ∨ t.cause = 0x1B) ∧ t.ra = t.val.extractLsb' 22 22 := by
    rw [TrapRegs.na, beq_iff_eq]
    split
    · next h => rw [Option.some_inj, and_iff_right h]
    · next h => exact iff_of_false (fun e => by cases e) fun e => h e.1
  rw [TrapRegs.raOk, Bool.or_eq_true, Bool.or_eq_true, Bool.or_eq_true, hna, beq_iff_eq, beq_iff_eq, beq_iff_eq, offsetOf]
  tauto

theorem firstCause_none {ra : BitVec 22} {l : List InFlight} (h : ∀ f ∈ l, f.eff.cause? ra = none) : firstCause ra l = none :=
  List.findSome?_eq_none_iff.mpr h

/-- A bundle keeps asking for its next one only where it has come back from a handler (R326). -/
theorem advance_mustIssue (old n : Node) (at_ : Nat) (out : Bool) :
    let back := (old.ctl.trap.act = true ∧ n.ctl.trap.act = false) ∨ (old.ctl.ui.act = true ∧ n.ctl.ui.act = false)
    let t := n.advance at_ out (old.ctl.cameBack n.ctl)
    (back → t.ctl.mustIssue = n.ctl.mustIssue) ∧ (¬ back → t.ctl.mustIssue = false) := by
  dsimp only
  have hback : old.ctl.cameBack n.ctl = true ↔ (old.ctl.trap.act = true ∧ n.ctl.trap.act = false) ∨ (old.ctl.ui.act = true ∧ n.ctl.ui.act = false) := by
    rw [Ctl.cameBack, Bool.or_eq_true, Bool.and_eq_true, Bool.and_eq_true, Bool.not_eq_true', Bool.not_eq_true']
  rw [← hback]
  refine ⟨fun h => ?_, fun h => ?_⟩ <;> change (old.ctl.cameBack n.ctl && n.ctl.mustIssue) = _
  · rw [h, Bool.true_and]
  · rw [eq_false_of_ne_true h, Bool.false_and]

/-- Settles O44: each word by its entry, the returns along their checks. -/
theorem trapAndReturnWords : Obligations.TrapAndReturnWords := by
  unfold Obligations.TrapAndReturnWords
  intro s q g k a b
  dsimp only
  have holds {b : Bool} (h : b = false) : (!b) = true := by rw [h]; rfl
  have fails {b : Bool} (h : b = true) : ¬ (!b) = true := by rw [h]; exact Bool.false_ne_true
  refine ⟨fun h => runs_of_word (exec_trap s q g k) h, fun h => runs_of_word (exec_brk s q g k) h, fun h => ?_, fun h => ?_, fun h => ?_, advance_mustIssue⟩
  · have run := runs_of_word (exec_cmpt s q g a b) h
    exact ⟨fun e => run.trans (congrArg _ (if_pos e)), fun e => run.trans (congrArg _ (if_neg e))⟩
  · have run := runs_of_word (exec_tret s q) h
    rw [← raOk_iff]
    refine ⟨fun h1 => run.trans (congrArg _ (if_pos (holds h1))), fun h1 h2 => run.trans (congrArg _ ((if_neg (fails h1)).trans ?_)),
      fun h1 h2 x hx => run.trans (congrArg _ ((if_neg (fails h1)).trans ((if_neg (fails h2)).trans ?_))),
      fun h1 h2 hx => run.trans (congrArg _ ((if_neg (fails h1)).trans ((if_neg (fails h2)).trans ?_)))⟩
    · rw [BitVec.ofNat_toNat]
      exact if_pos (holds (eq_false_of_ne_true h2))
    · simp only [hx]
    · simp only [firstCause_none hx]
      rfl
  · have run := runs_of_word (exec_uiret s q) h
    exact ⟨fun h1 => run.trans (congrArg _ (if_pos (holds h1))), fun h1 => run.trans (congrArg _ (if_neg (fails h1)))⟩

/-! ## Control registers (R317 to R319) -/

theorem toNat_mul (b : Bool) (k : Nat) : (if b then k else 0) = b.toNat * k := by cases b <;> simp

theorem trapWord_eq (t : TrapRegs) : t.trapWord = BitVec.ofNat 64 (t.vbase.toNat * 2 ^ 42 + t.en.toNat * 2 ^ 41 + t.crb.toNat * 2 ^ 40 + t.act.toNat * 2 ^ 32 +
    t.pos.toNat * 2 ^ 24 + t.dly.toNat * 2 ^ 7 + t.cause.toNat) := by
  simp only [TrapRegs.trapWord, toNat_mul]

theorem loopWord_eq (l : Loop) : l.word = BitVec.ofNat 64 (l.act.toNat * 2 ^ 63 + l.t % 2 ^ 31 * 2 ^ 32 + l.i % 2 ^ 32) := by
  simp only [Loop.word, toNat_mul]

theorem uiWord_eq (u : UiRegs) : u.word =
    BitVec.ofNat 64 (u.ra.toNat * 2 ^ 32 + u.act.toNat * 2 ^ 31 + u.ovf.toNat * 2 ^ 30 + u.recs.length * 2 ^ 18 + u.slot.toNat * 2 ^ 7 + u.cnt.toNat) := by
  simp only [UiRegs.word, toNat_mul]

/-- The low four bits of CTL.EFLG are the DONE flags, the next four the FAULT flags, the rest 0 (R319). -/
theorem eflg_bit (n : Node) (j : Nat) : n.eflg.getLsbD j = if j < 4 then n.done (BitVec.ofNat 2 j) else if j < 8 then n.ctl.flt.getLsbD (j - 4) else false := by
  have low : ∀ (a b c d : Bool) (j : Fin 4), ((if a then 1 else 0) + (if b then 2 else 0) + (if c then 4 else 0) + (if d then 8 else 0)).testBit j.val =
      (if j = 0 then a else if j = 1 then b else if j = 2 then c else d) := by decide
  have lt : ∀ a b c d : Bool, (if a then 1 else 0) + (if b then 2 else 0) + (if c then 4 else 0) + (if d then 8 else 0) < 2 ^ 4 := by decide
  rw [Node.eflg, BitVec.getLsbD_ofNat, Nat.add_comm, show 16 = 2 ^ 4 from rfl, Nat.testBit_two_pow_mul_add _ (lt _ _ _ _)]
  by_cases h4 : j < 4
  · rw [if_pos h4, if_pos h4, low _ _ _ _ ⟨j, h4⟩, decide_eq_true (by omega), Bool.true_and]
    match j, h4 with
    | 0, _ => rfl
    | 1, _ => rfl
    | 2, _ => rfl
    | 3, _ => rfl
  · rw [if_neg h4, if_neg h4]
    by_cases h8 : j < 8
    · rw [if_pos h8, decide_eq_true (by omega), Bool.true_and]
      rfl
    · rw [if_neg h8, Nat.testBit_lt_two_pow (lt_of_lt_of_le n.ctl.flt.isLt (Nat.pow_le_pow_right (by omega) (by omega))), Bool.and_false]

/-- The slabs of a core in ascending order are the one ascending list without repeats of its halves' places (R103). -/
theorem slabList_eq {l : List BoundHalf} {slabs : List (Nat × Nat)} (asc : slabs.Pairwise fun a b => a.1 * 32 + a.2 < b.1 * 32 + b.2)
    (mem : ∀ p, p ∈ slabs ↔ ∃ b ∈ l, p = (b.y, b.x)) (lt : ∀ b ∈ l, b.x < 32) : slabList l = slabs := by
  have fold (m : List Nat) : ∀ acc : List Nat, acc.Pairwise (· < ·) → (m.foldl setAdd acc).Pairwise (· < ·) ∧ ∀ x, x ∈ m.foldl setAdd acc ↔ x ∈ m ∨ x ∈ acc := by
    induction m with
    | nil => exact fun acc h => ⟨h, by simp⟩
    | cons k m ih =>
      intro acc h
      obtain ⟨hp, hm⟩ := ih _ (setAdd_pairwise h k)
      refine ⟨hp, fun x => (hm x).trans ?_⟩
      rw [mem_setAdd, List.mem_cons]
      tauto
  obtain ⟨hp, hm⟩ := fold (l.map fun b => b.y * 32 + b.x) [] List.Pairwise.nil
  have keys : (l.map fun b => b.y * 32 + b.x).foldl setAdd [] = slabs.map fun p => p.1 * 32 + p.2 := by
    refine List.Pairwise.eq_of_mem_iff hp (List.pairwise_map.mpr asc) fun x => ?_
    rw [hm, List.mem_map, List.mem_map]
    constructor
    · rintro (⟨b, hb, rfl⟩ | h)
      · exact ⟨(b.y, b.x), (mem _).mpr ⟨b, hb, rfl⟩, rfl⟩
      · cases h
    · rintro ⟨p, hp, rfl⟩
      obtain ⟨b, hb, rfl⟩ := (mem p).mp hp
      exact .inl ⟨b, hb, rfl⟩
  change ((l.map fun b => b.y * 32 + b.x).foldl setAdd []).map (fun k => (k / 32, k % 32)) = slabs
  rw [keys, List.map_map]
  refine (List.map_congr_left fun p hp => ?_).trans (List.map_id slabs)
  obtain ⟨b, hb, rfl⟩ := (mem p).mp hp
  have := lt b hb
  exact Prod.ext (show (b.y * 32 + b.x) / 32 = b.y by omega) (show (b.y * 32 + b.x) % 32 = b.x by omega)

/-- The slab list, for entries of CTL.BIND. -/
theorem slabEntry_eq (y x : Nat) (ha hb : Bool) : slabEntry y x ha hb = 2 ^ 11 + hb.toNat * 2 ^ 10 + ha.toNat * 2 ^ 9 + y % 16 * 2 ^ 5 + x % 32 := by
  simp only [slabEntry, toNat_mul]

/-- The numbered registers as CTLR reads them (R317, R318). -/
theorem ctlRead_numbered (s : State) :
    (∀ i : Fin 6, s.ctlRead (BitVec.ofNat 12 (0x10 + i.val)) = (s.cur.ctl.loops[i]).word) ∧
    (∀ i : Fin 12, s.ctlRead (BitVec.ofNat 12 (0x20 + i.val)) = s.cur.ctl.ls[i]) ∧
    (∀ i : Fin 4, s.ctlRead (BitVec.ofNat 12 (0x30 + i.val)) = s.cur.regs.e[i]) ∧
    (∀ i : Fin 64, s.ctlRead (BitVec.ofNat 12 (0x100 + i.val)) = BitVec.ofNat 64 (s.cur.regs.c[i]).toNat) := by
  refine ⟨fun i => ?_, fun i => ?_, fun i => ?_, fun i => ?_⟩ <;> obtain ⟨i, hi⟩ := i <;> unfold State.ctlRead <;> dsimp only <;> rw [BitVec.toNat_ofNat, Nat.mod_eq_of_lt (by omega)] <;>
    iterate rw [if_neg (by omega)]
  all_goals rw [if_pos (by omega), Nat.add_sub_cancel_left, Vector.getElem?_eq_getElem hi, Option.getD_some]
  · rfl
  · rfl
  · rfl
  · exact (BitVec.ofNat_toNat _ _).symm

theorem spliceWord_of_pair {sp : Splice} {refusal : Option (Bool × BitVec 8)} (h : sp.st ≠ .none ∨ refusal = none) (uid : Nat) :
    spliceWord sp refusal uid = sp.word uid := by
  cases refusal with
  | none => rfl
  | some x => exact if_neg (h.elim id fun h => by cases h)

theorem spliceWord_of_refusal {sp : Splice} (h : sp.st = .none) (isP : Bool) (code : BitVec 8) (uid : Nat) :
    spliceWord sp (some (isP, code)) uid = BitVec.ofNat 64 ((if isP then 1 else 2) * 2 ^ 18 + code.toNat * 2 ^ 8 + 3) := if_pos h

theorem bind_eq {c : Core} {slabs : List (Nat × Nat)} (h : slabList c.halves = slabs) :
    let has := fun (y x : Nat) (h : BitVec 1) => c.halves.any fun b => b.y == y && b.x == x && b.half == h
    let slab := fun (p : Nat × Nat) => 2 ^ 11 + (has p.1 p.2 1).toNat * 2 ^ 10 + (has p.1 p.2 0).toNat * 2 ^ 9 + p.1 % 16 * 2 ^ 5 + p.2 % 32
    let entry := fun (i : Nat) => ((slabs.map slab)[i]?).getD 0
    c.bind = BitVec.ofNat 64 (c.epoch.toNat * 2 ^ 56 + entry 3 * 2 ^ 44 + entry 2 * 2 ^ 32 + entry 1 * 2 ^ 20 + entry 0 * 2 ^ 8 + c.rsv.toNat * 2 ^ 5 + c.join.toNat * 2 ^ 4 +
      (c.emap != 0).toNat * 2 ^ 3 + c.paired.toNat * 2 ^ 2 + c.gang.toNat) := by
  subst h
  simp only [Core.bind, slabEntry_eq, List.getD_eq_getElem?_getD, toNat_mul]
  rfl

/-- A write of the number `n` reaches the register of that number alone (R318). -/
theorem ctlWrite_spec (nd : Node) (n : BitVec 12) (v : Word) :
    let w := nd.ctlWrite n v
    w.run = nd.run ∧ w.eng = nd.eng ∧ w.ctl.pc = nd.ctl.pc ∧ w.ctl.flight = nd.ctl.flight ∧ w.ctl.loops = nd.ctl.loops ∧ w.ctl.part = nd.ctl.part ∧
    (n = 8 → w.ctl.seed = v.extractLsb' 0 32) ∧ (n = 9 → w.ctl.step = v.extractLsb' 0 32) ∧ (n = 0x0A → w.ctl.rtb = (v.extractLsb' 0 5) &&& 0x1E#5) ∧
    (n = 0x50 → w.ctl.trap = { nd.ctl.trap with vbase := v.extractLsb' 42 22, en := v.getLsbD 41, crb := v.getLsbD 40 }) ∧
    (n = 0x51 → w.ctl.trap = { nd.ctl.trap with ra := v.extractLsb' 22 22 }) ∧
    (∀ i : Fin 12, n = BitVec.ofNat 12 (0x20 + i.val) → w.ctl.ls[i] = v &&& 0xFF03FFFFFF03FFFF#64) ∧
    (∀ i : Fin 4, n = BitVec.ofNat 12 (0x30 + i.val) → w.regs.e[i] = v &&& 0xFFFFFFFFFC007FFF#64) ∧
    (n ≠ 8 → w.ctl.seed = nd.ctl.seed) ∧ (n ≠ 9 → w.ctl.step = nd.ctl.step) ∧ (n ≠ 0x50 → n ≠ 0x51 → w.ctl.trap = nd.ctl.trap) ∧
    (n.toNat < 8 ∨ n = 0x52 ∨ (0x10 ≤ n.toNat ∧ n.toNat < 0x16) ∨ (0x40 ≤ n.toNat ∧ n.toNat < 0x43) ∨ 0x100 ≤ n.toNat → w = nd) := by
  dsimp only
  have frame : (nd.ctlWrite n v).run = nd.run ∧ (nd.ctlWrite n v).eng = nd.eng ∧ (nd.ctlWrite n v).ctl.pc = nd.ctl.pc ∧ (nd.ctlWrite n v).ctl.flight = nd.ctl.flight ∧
      (nd.ctlWrite n v).ctl.loops = nd.ctl.loops ∧ (nd.ctlWrite n v).ctl.part = nd.ctl.part := by
    unfold Node.ctlWrite
    dsimp only
    split_ifs <;> exact ⟨rfl, rfl, rfl, rfl, rfl, rfl⟩
  obtain ⟨hrun, heng, hpc, hflight, hloops, hpart⟩ := frame
  refine ⟨hrun, heng, hpc, hflight, hloops, hpart, fun h => by rw [h]; rfl, fun h => by rw [h]; rfl, fun h => by rw [h]; rfl, fun h => by rw [h]; rfl, fun h => by rw [h]; rfl,
    fun i h => ?ls, fun i h => ?route, fun h => ?seed, fun h => ?step, fun h h' => ?trap, fun h => ?other⟩ <;> unfold Node.ctlWrite <;> dsimp only
  case ls =>
    obtain ⟨i, hi⟩ := i
    rw [h, BitVec.toNat_ofNat, Nat.mod_eq_of_lt (by dsimp only; omega)]
    iterate rw [if_neg (by omega)]
    rw [if_pos (by omega)]
    simp only [Nat.add_sub_cancel_left, Fin.getElem_fin, Vector.getElem_setIfInBounds_self]
    rfl
  case route =>
    obtain ⟨i, hi⟩ := i
    rw [h, BitVec.toNat_ofNat, Nat.mod_eq_of_lt (by dsimp only; omega)]
    iterate rw [if_neg (by omega)]
    rw [if_pos (by omega)]
    simp only [Nat.add_sub_cancel_left, Fin.getElem_fin, Vector.getElem_setIfInBounds_self]
    rfl
  case seed =>
    rw [if_neg (c := n.toNat = 8) fun e => h (BitVec.eq_of_toNat_eq e)]
    split_ifs <;> rfl
  case step =>
    rw [if_neg (c := n.toNat = 9) fun e => h (BitVec.eq_of_toNat_eq e)]
    split_ifs <;> rfl
  case trap =>
    rw [if_neg (c := n.toNat = 0x50) fun e => h (BitVec.eq_of_toNat_eq e), if_neg (c := n.toNat = 0x51) fun e => h' (BitVec.eq_of_toNat_eq e)]
    split_ifs <;> rfl
  case other =>
    replace h := h.imp_right (Or.imp_left fun e : n = 0x52 => (by rw [e]; rfl : n.toNat = 0x52))
    iterate rw [if_neg (by omega)]

/-- Settles O45: what CTLR reads register by register, and what CTLW writes by `ctlWrite_spec`. -/
theorem controlRegisterWords : Obligations.ControlRegisterWords := by
  unfold Obligations.ControlRegisterWords
  intro s q g d n nd fa v
  dsimp only
  have wide {w : Nat} (x : BitVec w) {y : Word} (h : y = x.setWidth 64 := by rfl) : y = BitVec.ofNat 64 x.toNat := h.trans (BitVec.ofNat_toNat 64 x).symm
  obtain ⟨loops, strides, routes, counters⟩ := ctlRead_numbered s
  refine ⟨fun h => givesS_of_word (exec_ctlr s q g d n) h rfl, runs_of_word (exec_ctlw s q g d n), wide s.cur.ctl.part, wide s.cur.ctl.seed, wide s.cur.ctl.step,
    wide s.cur.ctl.rtb, rfl, rfl, rfl, rfl, trapWord_eq s.cur.ctl.trap, counters, ⟨rfl, wide (s.core s.focus).stage, wide (s.core s.focus).emap,
      fun slabs asc mem lt => bind_eq (slabList_eq asc mem lt), fun h => ?_, fun isP code h hr => ?_, rfl, fun e => ⟨?_, ?_⟩, fun j hj => ?_, fun i => (loops i).trans (loopWord_eq _),
      uiWord_eq s.cur.ctl.ui⟩, strides, routes, ctlWrite_spec nd n v⟩
  · refine (spliceWord_of_pair h _).trans ?_
    rw [Splice.word]
    by_cases hmine : s.cur.desc.uid ≠ 0 ∧ (((s.core s.focus).pairOf s.cur.desc.uid).p = s.cur.desc.uid ∨ ((s.core s.focus).pairOf s.cur.desc.uid).c = s.cur.desc.uid)
    · rw [if_neg (by tauto), if_pos hmine]
    · rw [if_pos (by tauto), if_neg hmine]
  · change spliceWord _ s.cur.run.refusal _ = _
    rw [hr, spliceWord_of_refusal h]
  · exact (eflg_bit s.cur e.val).trans (if_pos e.isLt)
  · exact (eflg_bit s.cur (4 + e.val)).trans ((if_neg (by omega)).trans ((if_pos (by omega)).trans (by rw [Nat.add_sub_cancel_left])))
  · exact (eflg_bit s.cur j).trans ((if_neg (by omega)).trans (if_neg (by omega)))

/-! ## Counters, waits and switches (R293, R304 to R307, R324 to R326) -/

/-- A node that waits on nothing, and has read nothing ahead (R292). -/
def freed (nd : Node) : Node := { nd with run := { nd.run with ahead := [] }, ctl := { nd.ctl with waits := [], uiWaits := [], trapWaits := [] } }

/-- A node that waits on one condition: of its next bundle, or of the bundle that its user-level or its trap handler interrupts (R296). -/
def heldAt (nd : Node) (k : Fin 3) (w : Wait) : Node :=
  { nd with ctl := { nd.ctl with waits := if k = 0 then [w] else [], uiWaits := if k = 1 then [w] else [], trapWaits := if k = 2 then [w] else [] } }

/-- The bundle that has waited must issue before a pre-emption (R326). -/
def mustAt (nd : Node) (k : Fin 3) : Node :=
  { nd with ctl := { nd.ctl with mustIssue := nd.ctl.mustIssue || k == 0, uiMust := nd.ctl.uiMust || k == 1, trapMust := nd.ctl.trapMust || k == 2 } }

theorem allWaits_heldAt (nd : Node) (k : Fin 3) (w : Wait) : (heldAt nd k w).ctl.allWaits = [w] := by
  match k with
  | 0 => rfl
  | 1 => rfl
  | 2 => rfl

theorem settleWaits_heldAt (nd : Node) (k : Fin 3) {w : Wait} (h : nd.holds w = true) :
    (heldAt nd k w).settleWaits = if w.subtracts then mustAt ((freed nd).subtract w) k else (freed nd).subtract w := by
  have hh : (heldAt nd k w).holds w = true := h
  have left (p : Prop) [Decidable p] : ((if p then [w] else []).filter fun v => !(heldAt nd k w).holds v) = [] := by
    split <;> simp [hh]
  have sub (j : Fin 3) : ((if k = j then [w] else []).filter (heldAt nd k w).holds).any Wait.subtracts = (w.subtracts && k == j) := by
    by_cases e : k = j
    · subst e; simp [hh]
    · simp [e]
  have hall : [w].filter (heldAt nd k w).holds = [w] ∧ [w].any (heldAt nd k w).holds = true := by simp [hh]
  unfold Node.settleWaits
  dsimp only
  rw [allWaits_heldAt, hall.1, hall.2]
  change ({ (heldAt nd k w).subtract w with
    run := { ((heldAt nd k w).subtract w).run with ahead := [] }
    ctl := { ((heldAt nd k w).subtract w).ctl with
      waits := (if k = 0 then [w] else []).filter fun v => !(heldAt nd k w).holds v
      uiWaits := (if k = 1 then [w] else []).filter fun v => !(heldAt nd k w).holds v
      trapWaits := (if k = 2 then [w] else []).filter fun v => !(heldAt nd k w).holds v
      mustIssue := nd.ctl.mustIssue || ((if k = 0 then [w] else []).filter (heldAt nd k w).holds).any Wait.subtracts
      uiMust := nd.ctl.uiMust || ((if k = 1 then [w] else []).filter (heldAt nd k w).holds).any Wait.subtracts
      trapMust := nd.ctl.trapMust || ((if k = 2 then [w] else []).filter (heldAt nd k w).holds).any Wait.subtracts } } : Node) = _
  rw [left, left, left, sub, sub, sub]
  cases hs : w.subtracts
  · simp only [Bool.false_and, Bool.or_false, Bool.false_eq_true, if_false]
    cases w <;> rfl
  · simp only [Bool.true_and, if_true]
    cases w <;> rfl

theorem settleWaits_of_none {n : Node} (h : ∀ w ∈ n.ctl.allWaits, n.holds w = false) : n.settleWaits = n := by
  have keep {l : List Wait} (hl : ∀ w ∈ l, n.holds w = false) : (l.filter fun w => !n.holds w) = l ∧ l.filter n.holds = [] :=
    ⟨List.filter_eq_self.mpr fun w hw => by rw [hl w hw]; rfl, List.filter_eq_nil_iff.mpr fun w hw => by rw [hl w hw]; exact Bool.false_ne_true⟩
  have part {w : Wait} (hw : w ∈ n.ctl.waits ∨ w ∈ n.ctl.uiWaits ∨ w ∈ n.ctl.trapWaits) : n.holds w = false :=
    h w (by rw [Ctl.allWaits, List.mem_append, List.mem_append]; tauto)
  have hany : n.ctl.allWaits.any n.holds = false := List.any_eq_false.mpr fun w hw => by rw [h w hw]; exact Bool.false_ne_true
  obtain ⟨w1, w2⟩ := keep fun w hw => part (.inl hw)
  obtain ⟨u1, u2⟩ := keep fun w hw => part (.inr (.inl hw))
  obtain ⟨t1, t2⟩ := keep fun w hw => part (.inr (.inr hw))
  unfold Node.settleWaits
  dsimp only
  rw [(keep h).2, hany, w1, w2, u1, u2, t1, t2]
  simp only [List.foldl_nil, List.any_nil, Bool.or_false, Bool.false_eq_true, if_false]

theorem settleWaits_heldAt_of_not (nd : Node) (k : Fin 3) {w : Wait} (h : nd.holds w = false) : (heldAt nd k w).settleWaits = heldAt nd k w :=
  settleWaits_of_none fun v hv => by
    rw [allWaits_heldAt] at hv
    rw [List.mem_singleton.mp hv]
    exact h

/-- The list of conditions that a settling leaves (R305 to R307). -/
theorem mem_settled (n : Node) (w : Wait) (l : List Wait) : w ∈ l.filter (fun w => !n.holds w) ↔ w ∈ l ∧ n.holds w = false := by
  rw [List.mem_filter, Bool.not_eq_true']

theorem holds_bar (n : Node) (m : BitVec 4) : n.holds (.bar m) = true ↔ ∀ e : Fin 4, m.getLsbD e = true → n.done (BitVec.ofNat 2 e) = true := by
  change (List.range 4).all (fun e => !m.getLsbD e || n.done (BitVec.ofNat 2 e)) = true ↔ _
  rw [List.all_eq_true]
  constructor
  · intro h e he
    have := h e (List.mem_range.mpr e.isLt)
    rwa [he, Bool.not_true, Bool.false_or] at this
  · intro h e he
    cases hm : m.getLsbD e
    · rfl
    · exact h ⟨e, List.mem_range.mp he⟩ hm

theorem holds_idle (n : Node) : n.holds .idle = true ↔ n.ctl.ui.recs ≠ [] ∨ n.eng.uiPending = false := by
  change (!n.ctl.ui.recs.isEmpty || !n.eng.uiPending) = true ↔ _
  rw [Bool.or_eq_true, Bool.not_eq_true', Bool.not_eq_true', List.isEmpty_eq_false_iff]

/-! ### The next node (R98) -/

/-- A slot's node may take the core's issue. -/
theorem runnable_iff (s : State) (k : Core) (u : Nat) : (u ≠ k.current ∧ s.runnable k u = true) ↔ (u != k.current && s.runnable k u) = true := by
  rw [Bool.and_eq_true, bne_iff_ne]

theorem nextOther_eq (s : State) (idx : Nat) : s.nextOther idx =
    ((List.range 4).map fun i => ((s.core idx).slots[((s.core idx).lastSlot + 1 + i) % 4]?).getD 0).find? fun u => u != (s.core idx).current && s.runnable (s.core idx) u := by
  rw [State.nextOther, List.map_map]
  rfl

theorem nextOther_first {p : Nat → Bool} {f : Nat → Nat} {i : Nat} (hi : i < 4) (hp : p (f i) = true) (hn : ∀ j < i, ¬ p (f j) = true) :
    ((List.range 4).map f).find? p = some (f i) := by
  rw [List.find?_map, (List.find?_range_eq_some (p := p ∘ f)).mpr ⟨hp, List.mem_range.mpr hi, fun j hj => by simpa using hn j hj⟩]
  rfl

/-- A node whose BARB has subtracted is not stopped before its next bundle (R326). -/
theorem bound_stays (s : State) (nd : Node) (h : nd.ctl.mustIssue = true ∨ nd.ctl.uiMust = true ∨ nd.ctl.trapMust = true) : s.stopsFor nd = false := by
  have hb : nd.ctl.bound = true := by rw [Ctl.bound, Bool.or_eq_true, Bool.or_eq_true, or_assoc]; exact h
  have hm : nd ∈ s.savedWith nd := by
    unfold State.savedWith
    split_ifs <;> simp
  have hany : ((s.savedWith nd).any fun m => m.ctl.bound) = true := List.any_eq_true.mpr ⟨nd, hm, hb⟩
  rw [State.stopsFor, hany, Bool.not_true, Bool.and_false, Bool.false_and]

/-- Settles O46: the words by their entries, a settling by `settleWaits_heldAt` and `settleWaits_heldAt_of_not`, YIELD by the order of `nextOther_eq`. -/
theorem countersAndWaits : Obligations.CountersAndWaits := by
  unfold Obligations.CountersAndWaits
  intro s q g n a i x y z w sc ext
  dsimp only
  refine ⟨fun h => runs_of_word (exec_cset s q g n a) h, fun h => runs_of_word (exec_csetImm s q g n i ext) h, fun h => runs_of_word (exec_cadd s q g n a) h,
    fun h => runs_of_word (exec_caddImm s q g n i ext) h, fun r k v => ⟨Vector.getElem_setIfInBounds_self .., Vector.getElem_setIfInBounds_self ..⟩,
    fun h => runs_of_word (exec_cwait s q g n a) h, fun h => runs_of_word (exec_cwaitImm s q g n i ext) h,
    fun h => runs_of_word (exec_barb s q g n a) h, fun h => runs_of_word (exec_barbImm s q g n i ext) h, fun h => runs_of_word (exec_bar s q g x y z w) h,
    fun h => runs_of_word (exec_idle s q) h, fun h => runs_of_word (exec_fence s q g x y sc) h, fun h => runs_of_word (exec_yield s q g) h, fun na old h => ?_, ⟨fun h => ?_, fun i hi hm hn => ?_⟩,
    fun nd fa c t m => ⟨fun w => rfl, fun w => ⟨mem_settled nd w _, mem_settled nd w _, mem_settled nd w _⟩, fun k => ⟨fun h => ⟨?_, ?_⟩, fun h => ⟨?_, ?_⟩, fun h => ?_, fun h => ?_, fun h => ?_, fun h h' => ?_⟩⟩,
    fun uid hl h => ?_, fun nd h => ?_⟩
  · unfold State.finish
    dsimp only
    rw [h]
    rfl
  · rw [State.switchOther, nextOther_eq, List.find?_eq_none.mpr]
    · rfl
    intro u hu
    obtain ⟨i, hi, rfl⟩ := List.mem_map.mp hu
    rw [← runnable_iff]
    exact h i (List.mem_range.mp hi)
  · rw [State.switchOther, nextOther_eq, nextOther_first hi ((runnable_iff _ _ _).mp hm) fun j hj => mt (runnable_iff _ _ _).mpr (hn j hj)]
    rfl
  · exact settleWaits_heldAt nd k (decide_eq_true h)
  · refine (settleWaits_heldAt nd k (w := .barb c t) (decide_eq_true h)).trans ?_
    by_cases ht : t = 0
    · rw [if_neg (by simp [Wait.subtracts, ht])]
      simp only [ht, if_true]
      rfl
    · rw [if_pos (by simpa [Wait.subtracts] using ht)]
      simp only [ht, if_false]
      rfl
  · exact settleWaits_heldAt_of_not nd k (decide_eq_false (Nat.not_le.mpr h))
  · exact settleWaits_heldAt_of_not nd k (decide_eq_false (Nat.not_le.mpr h))
  · exact settleWaits_heldAt nd k ((holds_bar nd m).mpr h)
  · refine settleWaits_heldAt_of_not nd k (eq_false_of_ne_true fun hb => ?_)
    obtain ⟨e, he, hd⟩ := h
    rw [(holds_bar nd m).mp hb e he] at hd
    cases hd
  · exact settleWaits_heldAt nd k ((holds_idle nd).mpr h)
  · refine settleWaits_heldAt_of_not nd k (eq_false_of_ne_true fun hi => ?_)
    rw [holds_idle, h, h'] at hi
    exact hi.elim (fun e => e rfl) fun e => by cases e
  · obtain ⟨c, hc, hh⟩ := h
    exact if_pos (by rw [hl, Bool.true_and]; exact List.any_eq_true.mpr ⟨c, hc, hh⟩)
  · exact bound_stays s nd h

/-! ## ENQ, TOK, JCB and GENR (R309 to R316) -/

/-- The packet of an ENQ holds the eight registers of its group, in order (R314). -/
theorem groupPacket_spec (n : Node) (y : BitVec 2) (j : Fin 8) : (n.groupPacket y).extractLsb' (64 * j.val) 64 = n.s (BitVec.ofNat 5 (8 * y.toNat + j.val)) := by
  have hlt : ∀ v ∈ (List.range 8).map (fun i => (n.s (BitVec.ofNat 5 (8 * y.toNat + i))).toNat), v < 2 ^ 64 := by
    intro v hv
    obtain ⟨i, -, rfl⟩ := List.mem_map.mp hv
    exact (n.s _).isLt
  obtain ⟨htot, hbits⟩ := packBits_spec hlt
  have hj := hbits j.val (by simp)
  rw [List.getElem_map, List.getElem_range, tileBits] at hj
  rw [List.length_map, List.length_range, show 64 * 8 = 512 from rfl] at htot
  refine BitVec.eq_of_toNat_eq ?_
  rw [BitVec.extractLsb'_toNat, Node.groupPacket, BitVec.toNat_ofNat, Nat.mod_eq_of_lt htot, Nat.shiftRight_eq_div_pow, ← hj, Nat.mul_comm]

theorem raiseBy_spec (s : State) (p : BitVec 3) (n : Word) :
    let id := s.cur.run.nextReq
    (s.cur.desc.jcb = none → s.raiseBy p n = s.withResults (predResult 6 p false)) ∧
    (s.cur.desc.jcb ≠ none → n = 0 → s.raiseBy p n = s.withResults (predResult 6 p true)) ∧
    (s.cur.desc.jcb ≠ none → n ≠ 0 → s.cur.desc.image.unstg = false → s.cur.run.doneIssued = true → s.raiseBy p n =
      (s.mapRun fun r => { r with late := r.late + 1, refused := r.refused + 1 }).withResults (predResult 6 p false)) ∧
    (s.cur.desc.jcb ≠ none → n ≠ 0 → s.cur.desc.image.unstg = true ∨ s.cur.run.doneIssued = false → s.raiseBy p n =
      (s.mapRun fun r => { r with nextReq := id + 1, pendingRaise := r.pendingRaise ++ [{ id := id, n := n, posted := r.doneIssued, ans := none }] }).withResults
        [{ dist := 6, eff := .pAnswer id p none }]) := by
  dsimp only
  refine ⟨fun h => (if_pos h).trans (State.pushP_eq ..), fun h h1 => (if_neg h).trans ((if_pos h1).trans (State.pushP_eq ..)),
    fun h h1 hu hd => (if_neg h).trans ((if_neg h1).trans ((if_pos ?_).trans (State.pushP_eq ..))), fun h h1 hx => (if_neg h).trans ((if_neg h1).trans ((if_neg ?_).trans rfl))⟩
  · rw [hu, hd]; rfl
  · rw [Bool.and_eq_true, Bool.not_eq_true']
    exact fun ⟨hu, hd⟩ => hx.elim (fun e => by rw [e] at hu; cases hu) fun e => by rw [e] at hd; cases hd

theorem give_spec (s : State) (l : BitVec 6) (count : Nat) :
    let core := s.core s.focus
    (2 ≤ core.outbox.length → s.give l count = s.delay) ∧
    (core.outbox.length < 2 → s.give l count = s.toOutbox (BitVec.ofNat 512 (6 + s.cur.run.qgen.toNat * 2 ^ 32 + l.toNat * 2 ^ 128 +
      (if 1 ≤ count ∧ count ≤ 65535 then count else 0) * 2 ^ 144))) :=
  ⟨fun h => if_pos h, fun h => if_neg (Nat.not_le.mpr h)⟩

/-- Settles O47: each word by its entry, the raises, gives and JCB.DONE by what their operations do. -/
theorem requestWords : Obligations.RequestWords := by
  unfold Obligations.RequestWords
  intro s q g p y d a l i10 i13 i7 ext
  dsimp only
  have raised {i : Instr} {n : Word} (run : exec i s = .next (s.raiseBy p n)) := by
    obtain ⟨none_, zero, late, goes⟩ := raiseBy_spec s p n
    exact And.intro (fun h => run.trans (congrArg _ (none_ h))) (And.intro (fun h h1 => run.trans (congrArg _ (zero h h1)))
      (And.intro (fun h h1 hu hd => run.trans (congrArg _ (late h h1 hu hd))) fun h h1 hx => run.trans (congrArg _ (goes h h1 hx))))
  have given {i : Instr} {count : Nat} (run : exec i s = .next (s.give l count)) :=
    And.intro (fun h => run.trans (congrArg _ ((give_spec s l count).1 h))) fun h => run.trans (congrArg _ ((give_spec s l count).2 h))
  refine ⟨fun h => ?_, fun h => given (runs_of_word (exec_tokGive s q g l a) h), fun h => given (runs_of_word (exec_tokGiveImm s q g l i10 ext) h),
    fun h => runs_of_word (exec_tokTake s q g p l a) h, fun h => runs_of_word (exec_tokTakeImm s q g p l i7 ext) h,
    fun h => raised (runs_of_word (exec_jcbRaise s q g p a) h), fun h => raised (runs_of_word (exec_jcbRaiseImm s q g p i13 ext) h), fun h => ?_,
    fun h => givesS_of_word (exec_genr s q g d) h rfl⟩
  · have run := runs_of_word (exec_enq s q g p y) h
    have waiting : (!s.cur.run.pendingRaise.isEmpty) = true ↔ s.cur.run.pendingRaise ≠ [] := by rw [Bool.not_eq_true', List.isEmpty_eq_false_iff]
    refine ⟨fun h1 => run.trans (congrArg _ (if_pos (waiting.mpr h1))), fun h1 h2 => run.trans (congrArg _ ((if_neg (mt waiting.mp (not_not_intro h1))).trans
      ((if_pos h2).trans (State.pushP_eq ..)))), fun h1 h2 => ⟨s.cur.groupPacket y, run.trans (congrArg _ ((if_neg (mt waiting.mp (not_not_intro h1))).trans
      ((if_neg (Nat.not_le.mpr h2)).trans (State.pushP_eq ..)))), groupPacket_spec s.cur y⟩⟩
  · have run := runs_of_word (exec_jcbDone s q g) h
    refine ⟨fun h1 => run.trans (congrArg _ ?_), fun j hj hd => ⟨fun hu => run.trans (congrArg _ ?_), fun hu => run.trans (congrArg _ ?_)⟩⟩
    · rcases h1 with h1 | h1
      · simp only [State.doneEarly, h1]
      · cases hj : s.cur.desc.jcb <;> simp only [State.doneEarly, hj, h1, if_true]
    · simp only [State.doneEarly, hj, hd, hu, Bool.false_eq_true, if_false]
    · simp only [State.doneEarly, hj, hd, hu, Bool.false_eq_true, if_false, if_true]
      rfl

/-! ## The communication reserve (R101) -/

/-- A change of each stack's reserve in turn. -/
theorem foldl_stacks (f : Nat → Reserve → Reserve) (v : Vector Reserve 4) (i : Fin 4) :
    ((List.range 4).foldl (fun (r : Vector Reserve 4) j => r.setIfInBounds j (f j (r[j]?.getD {}))) v)[i] = f i.val v[i] := by
  match i with
  | 0 => simp [List.range, List.range.loop]
  | 1 => simp [List.range, List.range.loop]
  | 2 => simp [List.range, List.range.loop]
  | 3 => simp [List.range, List.range.loop]

theorem reverse_take_reverse {α : Type} (l : List α) (n : Nat) : (l.reverse.take n).reverse = l.drop (l.length - n) := by
  rw [List.take_reverse, List.reverse_reverse]

/-- Settles O53: a decision by its cases; a sample and a decision of every stack by `foldl_stacks`. -/
theorem reserveDecisions : Obligations.ReserveDecisions := by
  unfold Obligations.ReserveDecisions
  intro x s
  dsimp only
  have cool (k : BitVec 2) : x.cool ≤ 1 ∨ x.last ≠ k ↔ ¬ (0 < x.cool - 1 ∧ x.last = k) := by
    rw [not_and_or, Nat.pos_iff_ne_zero, Nat.sub_ne_zero_iff_lt, Nat.not_lt]
  simp only [cool]
  refine ⟨fun h => if_pos h, fun h h1 => (if_neg (Nat.not_lt.mpr h)).trans (if_pos h1), fun h h1 => (if_neg (Nat.not_lt.mpr h.1)).trans ((if_neg (Nat.not_lt.mpr h.2)).trans (if_pos h1)),
    fun h h1 h2 => (if_neg (Nat.not_lt.mpr h.1)).trans ((if_neg (Nat.not_lt.mpr h.2)).trans ((if_neg h1).trans (if_pos h2))),
    fun h h1 h2 => (if_neg (Nat.not_lt.mpr h.1)).trans ((if_neg (Nat.not_lt.mpr h.2)).trans ((if_neg h1).trans (if_neg h2))), ⟨_, rfl, fun i => ?_⟩, ⟨_, fun i => ?_, rfl⟩⟩
  · rw [foldl_stacks fun i x => { x with samples := (x.samples ++ [s.waitingFlits i]).reverse.take 10 |>.reverse }, reverse_take_reverse]
  · exact foldl_stacks (fun _ => Reserve.decide) s.dist.reserve i

/-! ## Job control blocks (R71, R308) -/

/-- What a raise, a completion and a failure do at the home stop (R71). -/
theorem jcbRaise_spec (s : State) (j : BitVec 12) (n : Nat) (posted : Bool) :
    let pa := jcbPA j
    let e := s.rd pa 4
    let opened := s.rd (pa + 8) 4 % 4 = 0
    (posted = false → opened → e + n < 2 ^ 32 → s.jcbRaise j n posted = (true, s.wr pa (e + n) 4)) ∧
    (posted = true ∨ ¬ opened → s.jcbRaise j n posted = (false, s.jcbOr j 4)) ∧
    (posted = false → opened → 2 ^ 32 ≤ e + n → s.jcbRaise j n posted = (false, s.jcbOr j 8)) := by
  dsimp only
  have passes {p : Bool} {o : Prop} (hp : p = false) (ho : o) : ¬ (p = true ∨ ¬ o) := fun h => h.elim (fun e => by rw [hp] at e; cases e) fun e => e ho
  exact ⟨fun hp ho he => (if_neg (passes hp ho)).trans (if_neg (Nat.not_le.mpr he)), fun h => if_pos h, fun hp ho he => (if_neg (passes hp ho)).trans (if_pos he)⟩

theorem jcbCompletion_spec (s : State) (j : BitVec 12) :
    let pa := jcbPA j
    let e := s.rd pa 4
    let d := s.rd (pa + 4) 4
    let opened := s.rd (pa + 8) 4 % 4 = 0
    let counted := s.wr (pa + 4) ((d + 1) % 2 ^ 32) 4
    (¬ opened ∨ d = e → s.jcbCompletion j = s.jcbOr j 16) ∧ (opened → d ≠ e → d + 1 ≠ e → s.jcbCompletion j = counted) ∧
    (opened → d + 1 = e → s.jcbCompletion j = (counted.jcbOr j 1).jcbFire j) := by
  dsimp only
  refine ⟨fun h => if_pos h, fun ho h h1 => (if_neg fun hx => hx.elim (fun e => e ho) h).trans (if_neg h1), fun ho h => (if_neg fun hx => hx.elim (fun e => e ho) fun e => ?_).trans (if_pos h)⟩
  omega

theorem jcbFailure_spec (s : State) (j : BitVec 12) (node : BitVec 20) (status : BitVec 32) :
    let pa := jcbPA j
    (s.rd (pa + 8) 4 % 4 ≠ 0 → s.jcbFailure j node status = s) ∧
    (s.rd (pa + 8) 4 % 4 = 0 → s.jcbFailure j node status = (((s.jcbOr j 2).wr (pa + 32) node.toNat 4).wr (pa + 36) status.toNat 4).jcbFire j) :=
  ⟨fun h => if_pos h, fun h => if_neg (not_not_intro h)⟩

/-- The answer of the home stop reaches the raiser (R308). -/
def raiseAnswered (t : State) (uid : Nat) (r : RaiseReq) (ok : Bool) : State :=
  t.mapNode uid fun m => { m with run := { m.run with
    pendingRaise := m.run.pendingRaise.map (fun x => if x.id = r.id then { x with ans := some ok } else x)
    raises := m.run.raises + (if ok = true ∧ m.desc.image.unstg = false then r.n.toNat else 0)
    refused := m.run.refused + (if ok then 0 else 1) } }

theorem jcbHomeRaise_of_open {s : State} {uid : Nat} {r : RaiseReq} {j : BitVec 12} (hr : (s.node uid).run.pendingRaise.find? (fun r => r.ans == none) = some r)
    (hj : (s.node uid).desc.jcb = some j) :
    exec (.jcbHomeRaise uid) s = .next (raiseAnswered (s.jcbRaise j r.n.toNat r.posted).2 uid r (s.jcbRaise j r.n.toNat r.posted).1) := by
  have hf : firstOpen (s.node uid).run.pendingRaise = some r := hr
  rw [exec_jcbHomeRaise]
  simp only [execJcbHomeRaise, hf, hj, raiseAnswered, Bool.and_eq_true, Bool.not_eq_true']

theorem not_any_iff {α : Type} {l : List α} {p : α → Bool} : (∀ x ∈ l, p x = false) ↔ l.any p = false := by
  rw [List.any_eq_false]
  simp only [Bool.not_eq_true]

/-- Settles O56: each row by what its operation does at the home stop, and the rows that are not enabled by the list that they find empty. -/
theorem jobControlBlocks : Obligations.JobControlBlocks := by
  unfold Obligations.JobControlBlocks
  intro s uid jcb node status
  dsimp only
  have rd (l : List JcbPost) (a : Nat) : ({ s with awl := { s.awl with posts := l } } : State).rd a 4 = s.rd a 4 := rd_congr rfl a 4
  refine ⟨fun r hr hj => ?_, fun h => ?_, fun r ok rest hr ha => ?_, fun h => ?_, ⟨fun p hp => ⟨fun hf => ?_, fun r hr hq => ?_⟩, fun h => ?_⟩, ⟨fun h => ?_, fun h => ?_⟩⟩
  · have run := jcbHomeRaise_of_open hr hj
    obtain ⟨accepted, refused, full⟩ := jcbRaise_spec s jcb r.n.toNat r.posted
    exact ⟨fun hp ho he => by rw [run, accepted hp ho he]; rfl, fun h => by rw [run, refused h]; rfl, fun hp ho he => by rw [run, full hp ho he]; rfl⟩
  · rw [exec_jcbHomeRaise]
    rcases h with h | h
    · have hf : firstOpen (s.node uid).run.pendingRaise = none := List.find?_eq_none.mpr fun r hr => by simpa using h r hr
      simp only [execJcbHomeRaise, hf]
    · cases hf : firstOpen (s.node uid).run.pendingRaise <;> simp only [execJcbHomeRaise, hf, h]
  · obtain ⟨id, n, posted, ans⟩ := r
    cases ha
    rw [exec_jcbRaiseAnswer]
    simp only [execJcbRaiseAnswer, hr]
  · rw [exec_jcbRaiseAnswer]
    cases hr : (s.node uid).run.pendingRaise with
    | nil => simp only [execJcbRaiseAnswer, hr]
    | cons r rest =>
      obtain ⟨id, n, posted, ans⟩ := r
      cases h _ (congrArg List.head? hr)
      simp only [execJcbRaiseAnswer, hr]
  · have hany : ((firstOpen (s.node p.uid).run.pendingRaise).any fun r => !r.posted) = false := by
      cases hr : firstOpen (s.node p.uid).run.pendingRaise with
      | none => rfl
      | some r => rw [Option.any_some, hf r hr]; rfl
    have run : exec (.jcbHomeCompletion jcb) s = .next (({ s with awl := { s.awl with posts := dropPost s.awl.posts fun p => p.jcb == jcb && p.fail == none } } : State).jcbCompletion jcb) := by
      rw [exec_jcbHomeCompletion]
      simp only [execJcbHomeCompletion, hp, hany, Bool.false_eq_true, if_false]
    obtain ⟨extra, counted, last⟩ := jcbCompletion_spec { s with awl := { s.awl with posts := dropPost s.awl.posts fun p => p.jcb == jcb && p.fail == none } } jcb
    rw [rd, rd, rd] at extra counted last
    exact ⟨fun h => run.trans (congrArg _ (extra h)), fun ho h h1 => run.trans (congrArg _ (counted ho h h1)), fun ho h => run.trans (congrArg _ (last ho h))⟩
  · have hany : ((firstOpen (s.node p.uid).run.pendingRaise).any fun r => !r.posted) = true := by
      rw [firstOpen, hr, Option.any_some, hq]; rfl
    rw [exec_jcbHomeCompletion]
    simp only [execJcbHomeCompletion, hp, hany, if_true]
  · have hp : s.awl.posts.find? (fun p => p.jcb == jcb && p.fail == none) = none := List.find?_eq_none.mpr fun p hp => by rw [h p hp]; exact Bool.false_ne_true
    rw [exec_jcbHomeCompletion]
    simp only [execJcbHomeCompletion, hp]
  · have hany : (!(s.awl.posts.any fun p => p.jcb == jcb && p.fail == some (node, status))) = false := by rw [List.any_eq_true.mpr h]; rfl
    have run : exec (.jcbHomeNodeFailure jcb node status) s =
        .next (({ s with awl := { s.awl with posts := dropPost s.awl.posts fun p => p.jcb == jcb && p.fail == some (node, status) } } : State).jcbFailure jcb node status) := by
      rw [exec_jcbHomeNodeFailure]
      simp only [execJcbHomeNodeFailure, hany, Bool.false_eq_true, if_false]
    obtain ⟨ended, failed⟩ := jcbFailure_spec { s with awl := { s.awl with posts := dropPost s.awl.posts fun p => p.jcb == jcb && p.fail == some (node, status) } } jcb node status
    rw [rd] at ended failed
    exact ⟨fun h1 => run.trans (congrArg _ (ended h1)), fun h1 => run.trans (congrArg _ (failed h1))⟩
  · have hany : (!(s.awl.posts.any fun p => p.jcb == jcb && p.fail == some (node, status))) = true := by rw [not_any_iff.mp h]; rfl
    rw [exec_jcbHomeNodeFailure]
    simp only [execJcbHomeNodeFailure, hany, if_true]

/-! ## Areas of memory that a record of cells fills (R355, R369, R394) -/

theorem writeArea_reads {s : State} (h : Memory.wf s.mem = true) {base len i : Nat} {cells : List Host.Cell} {poison : List Nat} {v : Byte} (hi : i < len)
    (hu : unlisted (base + i) = 0) (all : ∀ c ∈ cells, c.1 = i → c.2 = v) (some : v ≠ 0 → (i, v) ∈ cells) :
    (s.writeArea base len cells poison).byte (base + i) = v := by
  rw [(State.writeArea_byte h base len cells poison (base + i)).2]
  split
  · next c hc =>
    have hmem := List.mem_reverse.mp (List.mem_of_find?_eq_some hc)
    have hat := List.find?_some hc
    rw [beq_iff_eq] at hat
    exact all c hmem (by omega)
  · next hc =>
    rw [if_neg (by omega), hu]
    by_contra hv
    have := List.find?_eq_none.mp hc (i, v) (List.mem_reverse.mpr (some (Ne.symm hv)))
    simp at this

theorem writeArea_elsewhere {s : State} (h : Memory.wf s.mem = true) {base len x : Nat} {cells : List Host.Cell} {poison : List Nat} (inside : ∀ c ∈ cells, c.1 < len)
    (hx : x < base ∨ base + len ≤ x) : (s.writeArea base len cells poison).byte x = s.byte x := by
  rw [(State.writeArea_byte h base len cells poison x).2]
  have hnone : cells.reverse.find? (fun c => base + c.1 == x) = none := List.find?_eq_none.mpr fun c hc => by
    have := inside c (List.mem_reverse.mp hc)
    rw [beq_iff_eq]
    omega
  rw [hnone]
  exact if_pos hx

theorem mem_partCells (off len : Nat) (f : Nat → Byte) (c : Host.Cell) : c ∈ partCells off len f ↔ off ≤ c.1 ∧ c.1 < off + len ∧ c.2 = f (c.1 - off) ∧ c.2 ≠ 0 := by
  rw [partCells, List.mem_filter, List.mem_map, bne_iff_ne]
  constructor
  · rintro ⟨⟨i, hi, rfl⟩, hz⟩
    have := List.mem_range.mp hi
    exact ⟨by dsimp only; omega, by dsimp only; omega, by rw [Nat.add_sub_cancel_left], hz⟩
  · rintro ⟨h1, h2, h3, h4⟩
    exact ⟨⟨c.1 - off, List.mem_range.mpr (by omega), Prod.ext (by dsimp only; omega) h3.symm⟩, h4⟩

theorem mem_parts (off w n : Nat) (f : Nat → Nat → Byte) (c : Host.Cell) : c ∈ ((List.range n).flatMap fun p => partCells (off + w * p) w (f p)) ↔
    ∃ p < n, off + w * p ≤ c.1 ∧ c.1 < off + w * p + w ∧ c.2 = f p (c.1 - (off + w * p)) ∧ c.2 ≠ 0 := by
  simp only [List.mem_flatMap, List.mem_range, mem_partCells]

theorem mem_fieldCells (off w : Nat) (l : List Nat) (c : Host.Cell) : c ∈ fieldCells off w l ↔
    ∃ j v, l[j]? = some v ∧ off + w * j ≤ c.1 ∧ c.1 < off + w * j + w ∧ c.2 = BitVec.ofNat 8 (v / 2 ^ (8 * (c.1 - (off + w * j)))) ∧ c.2 ≠ 0 := by
  induction l generalizing off with
  | nil => simp [fieldCells]
  | cons x l ih =>
    rw [fieldCells, List.mem_append, mem_cellsOf, ih]
    have next (j : Nat) : off + w + w * j = off + w * (j + 1) := by rw [Nat.mul_succ]; omega
    constructor
    · rintro (h | ⟨j, v, hv, h⟩)
      · exact ⟨0, x, rfl, h⟩
      · exact ⟨j + 1, v, hv, by rwa [next] at h⟩
    · rintro ⟨j, v, hv, h⟩
      match j with
      | 0 => cases hv; exact .inl h
      | j + 1 => exact .inr ⟨j, v, hv, by rwa [next]⟩

/-! ## Power and telemetry (R368, R369) -/

theorem sparesWord_free (s : State) : ∃ f, s.sparesWord.2 = { s with free := f } := by
  unfold State.sparesWord
  dsimp only
  split
  · exact ⟨s.free, rfl⟩
  · exact ⟨s.free + 1, rfl⟩

/-- The first part of the telemetry area: the header, the channels and the ports (R369). -/
def telemetryHead (s : State) (spares : Nat) : List Host.Cell :=
  partCells 0 0x100 (Config.headerByte (s.headerContent spares) s.svc.tele) ++ chanCells s.svc.dramCounts ++
    (List.range 12).flatMap fun p => partCells (0x2000 + 64 * p) 64 (Config.portByte (s.port p).content)

/-- The second part: the cores. -/
def telemetryCores (s : State) : List Host.Cell := (List.range 1024).flatMap fun i => partCells (512 * i) 512 (Config.coreByte (s.core i).content)

theorem mem_telemetryHead {s : State} {spares : Nat} {c : Host.Cell} : c ∈ telemetryHead s spares ↔
    (c.1 < 0x100 ∧ c.2 = Config.headerByte (s.headerContent spares) s.svc.tele c.1 ∧ c.2 ≠ 0) ∨
    (∃ ch < 256, ∃ k < 4, 0x1000 + 16 * ch + 4 * k ≤ c.1 ∧ c.1 < 0x1000 + 16 * ch + 4 * k + 4 ∧
      c.2 = BitVec.ofNat 8 (chanCount s.svc.dramCounts ch k / 2 ^ (8 * (c.1 - (0x1000 + 16 * ch + 4 * k)))) ∧ c.2 ≠ 0) ∨
    ∃ p < 12, 0x2000 + 64 * p ≤ c.1 ∧ c.1 < 0x2000 + 64 * p + 64 ∧ c.2 = Config.portByte (s.port p).content (c.1 - (0x2000 + 64 * p)) ∧ c.2 ≠ 0 := by
  have chan (c : Host.Cell) : c ∈ chanCells s.svc.dramCounts ↔ ∃ ch < 256, ∃ k < 4, 0x1000 + 16 * ch + 4 * k ≤ c.1 ∧ c.1 < 0x1000 + 16 * ch + 4 * k + 4 ∧
      c.2 = BitVec.ofNat 8 (chanCount s.svc.dramCounts ch k / 2 ^ (8 * (c.1 - (0x1000 + 16 * ch + 4 * k)))) ∧ c.2 ≠ 0 := by
    rw [chanCells, mem_fieldCells]
    constructor
    · rintro ⟨j, v, hv, h⟩
      have hj : j < 256 * 4 := by
        have := (List.getElem?_eq_some_iff.mp hv).1
        rwa [(flatMap_rows (fun c => by rw [List.length_map, List.length_range]) 256).1] at this
      have hat := flatMap_grid (fun c k => chanCount s.svc.dramCounts c k) (mr := 256) (mc := 4) (r := j / 4) (c := j % 4) (by omega) (by omega)
      rw [show j / 4 * 4 + j % 4 = j by omega, hv, Option.some_inj] at hat
      refine ⟨j / 4, by omega, j % 4, by omega, ?_⟩
      rwa [show 0x1000 + 16 * (j / 4) + 4 * (j % 4) = 0x1000 + 4 * j by omega, ← hat]
    · rintro ⟨ch, hch, k, hk, h⟩
      exact ⟨ch * 4 + k, _, flatMap_grid _ hch hk, by rwa [show 0x1000 + 4 * (ch * 4 + k) = 0x1000 + 16 * ch + 4 * k by omega]⟩
  rw [telemetryHead, List.mem_append, List.mem_append, mem_partCells, chan, mem_parts, or_assoc]
  simp only [Nat.zero_le, true_and, Nat.zero_add, Nat.sub_zero]

theorem mem_telemetryCores {s : State} {c : Host.Cell} : c ∈ telemetryCores s ↔
    ∃ i < 1024, 512 * i ≤ c.1 ∧ c.1 < 512 * i + 512 ∧ c.2 = Config.coreByte (s.core i).content (c.1 - 512 * i) ∧ c.2 ≠ 0 := by
  have := mem_parts 0 512 1024 (fun i => Config.coreByte (s.core i).content) c
  simp only [Nat.zero_add] at this
  exact this

/-- The state after a refresh of the telemetry area. -/
def refreshed (s u : State) : State :=
  (u.writeArea (ringPA 0x50000) 0x2300 (telemetryHead s s.sparesWord.1) []).writeArea (ringPA 0x50000 + 0x3000) 0x80000 (telemetryCores s) []

theorem writeArea_rest (s : State) (base len : Nat) (cells : List Host.Cell) (poison : List Nat) :
    (s.writeArea base len cells poison).cur = s.cur ∧ (s.writeArea base len cells poison).nodes = s.nodes ∧ (s.writeArea base len cells poison).cores = s.cores ∧
      (s.writeArea base len cells poison).awl = s.awl := ⟨rfl, rfl, rfl, rfl⟩

theorem refreshed_rest (s u : State) : (refreshed s u).cur = u.cur ∧ (refreshed s u).nodes = u.nodes ∧ (refreshed s u).cores = u.cores ∧ (refreshed s u).awl = u.awl := by
  obtain ⟨c1, n1, k1, a1⟩ := writeArea_rest u (ringPA 0x50000) 0x2300 (telemetryHead s s.sparesWord.1) []
  obtain ⟨c2, n2, k2, a2⟩ := writeArea_rest (u.writeArea (ringPA 0x50000) 0x2300 (telemetryHead s s.sparesWord.1) []) (ringPA 0x50000 + 0x3000) 0x80000 (telemetryCores s) []
  exact ⟨c2.trans c1, n2.trans n1, k2.trans k1, a2.trans a1⟩

theorem telemetryRefresh_eq {s : State} (h : 3 ≤ s.svc.phase) : ∃ f, exec .telemetryRefresh s = .next (refreshed s { s with free := f }) := by
  obtain ⟨f, hf⟩ := sparesWord_free s
  refine ⟨f, (exec_telemetryRefresh s).trans ((if_neg (Nat.not_lt.mpr h)).trans ?_)⟩
  dsimp only
  rw [hf]
  rfl

theorem ring_plain (a : Nat) (h : 1 < a) : unlisted (2 ^ 62 + a) = 0 := if_neg (by omega)

theorem telemetryHead_lt {s : State} {spares : Nat} : ∀ c ∈ telemetryHead s spares, c.1 < 0x2300 := by
  intro c hc
  rcases mem_telemetryHead.mp hc with ⟨h, -⟩ | ⟨ch, hch, k, hk, -, h, -⟩ | ⟨p, hp, -, h, -⟩ <;> omega

theorem telemetryCores_lt {s : State} : ∀ c ∈ telemetryCores s, c.1 < 0x80000 := by
  intro c hc
  obtain ⟨i, hi, -, h, -⟩ := mem_telemetryCores.mp hc
  omega

section
variable {s u : State} (h : Memory.wf u.mem = true)
include h

/-- A byte of the first part reads as its cells have it. -/
theorem refreshed_head {i : Nat} {v : Byte} (hi : i < 0x2300) (all : ∀ c ∈ telemetryHead s s.sparesWord.1, c.1 = i → c.2 = v)
    (some : v ≠ 0 → (i, v) ∈ telemetryHead s s.sparesWord.1) : (refreshed s u).byte (ringPA 0x50000 + i) = v := by
  have hw := (State.writeArea_byte h (ringPA 0x50000) 0x2300 (telemetryHead s s.sparesWord.1) [] 0).1
  refine (writeArea_elsewhere hw telemetryCores_lt (.inl (by omega))).trans (writeArea_reads h hi ?_ all some)
  exact (congrArg unlisted (by rw [ringPA, Nat.add_assoc])).trans (ring_plain (0x50000 + i) (by omega))

theorem refreshed_chan {ch k : Nat} (hch : ch < 256) (hk : k < 4) :
    (refreshed s u).rd (ringPA 0x50000 + (0x1000 + 16 * ch + 4 * k)) 4 = chanCount s.svc.dramCounts ch k % 2 ^ 32 := by
  refine rd_of_bytes fun b hb => ?_
  rw [Nat.add_assoc]
  refine refreshed_head h (by omega) (fun c hc hat => ?_) fun hv => mem_telemetryHead.mpr (.inr (.inl ⟨ch, hch, k, hk, by dsimp only; omega, by dsimp only; omega, ?_, hv⟩))
  · rcases mem_telemetryHead.mp hc with ⟨h1, -⟩ | ⟨ch', hch', k', hk', h1, h2, h3, -⟩ | ⟨p, -, h1, -⟩
    · omega
    · obtain rfl : ch' = ch := by omega
      obtain rfl : k' = k := by omega
      rw [h3, hat, Nat.add_sub_cancel_left]
    · omega
  · rw [Nat.add_sub_cancel_left]

theorem refreshed_header {i : Nat} (hi : i < 256) : (refreshed s u).byte (ringPA 0x50000 + i) = Config.headerByte (s.headerContent s.sparesWord.1) s.svc.tele i := by
  refine refreshed_head h (by omega) (fun c hc hat => ?_) fun hv => mem_telemetryHead.mpr (.inl ⟨hi, rfl, hv⟩)
  rcases mem_telemetryHead.mp hc with ⟨-, h2, -⟩ | ⟨ch, -, k, -, h1, -⟩ | ⟨p, -, h1, -⟩
  · rw [h2, hat]
  · omega
  · omega

theorem refreshed_port {p i : Nat} (hp : p < 12) (hi : i < 64) : (refreshed s u).byte (ringPA 0x50000 + (0x2000 + 64 * p + i)) = Config.portByte (s.port p).content i := by
  refine refreshed_head h (by omega) (fun c hc hat => ?_) fun hv => mem_telemetryHead.mpr (.inr (.inr ⟨p, hp, by dsimp only; omega, by dsimp only; omega, ?_, hv⟩))
  · rcases mem_telemetryHead.mp hc with ⟨h1, -⟩ | ⟨ch, hch, k, hk, -, h2, -⟩ | ⟨p', hp', h1, h2, h3, -⟩
    · omega
    · omega
    · obtain rfl : p' = p := by omega
      rw [h3, hat, Nat.add_sub_cancel_left]
  · rw [Nat.add_sub_cancel_left]

theorem refreshed_core {c i : Nat} (hc : c < 1024) (hi : i < 512) : (refreshed s u).byte (ringPA 0x50000 + 0x3000 + (512 * c + i)) = Config.coreByte (s.core c).content i := by
  have hw := (State.writeArea_byte h (ringPA 0x50000) 0x2300 (telemetryHead s s.sparesWord.1) [] 0).1
  refine writeArea_reads hw (by omega) ?_ (fun x hx hat => ?_) fun hv => mem_telemetryCores.mpr ⟨c, hc, by dsimp only; omega, by dsimp only; omega, ?_, hv⟩
  · exact (congrArg unlisted (by rw [ringPA]; omega)).trans (ring_plain (0x50000 + 0x3000 + (512 * c + i)) (by omega))
  · obtain ⟨c', hc', h1, h2, h3, -⟩ := mem_telemetryCores.mp hx
    obtain rfl : c' = c := by omega
    rw [h3, hat, Nat.add_sub_cancel_left]
  · rw [Nat.add_sub_cancel_left]

theorem refreshed_elsewhere {a : Nat} (ha : ¬ ((ringPA 0x50000 ≤ a ∧ a < ringPA 0x52300) ∨ (ringPA 0x53000 ≤ a ∧ a < ringPA 0xD3000))) :
    (refreshed s u).byte a = u.byte a := by
  have hw := (State.writeArea_byte h (ringPA 0x50000) 0x2300 (telemetryHead s s.sparesWord.1) [] 0).1
  unfold ringPA at ha
  exact (writeArea_elsewhere hw telemetryCores_lt (by unfold ringPA; omega)).trans (writeArea_elsewhere h telemetryHead_lt (by unfold ringPA; omega))

end

/-- Settles O60: the clock step by its cases, the telemetry area part by part. -/
theorem powerAndTelemetry : Obligations.PowerAndTelemetry := by
  unfold Obligations.PowerAndTelemetry
  intro s watts
  dsimp only
  have off {b : Bool} (h : b = false) : ¬ b = true := by rw [h]; exact Bool.false_ne_true
  have cold {p : Prop} [Decidable p] (h : ¬ p) : ¬ decide p = true := mt of_decide_eq_true h
  have stays {p q : Prop} [Decidable p] (h : ¬ p ∨ q) (hq : q ↔ ¬ 0 < s.svc.clockStep) : ¬ (decide p = true ∧ 0 < s.svc.clockStep) :=
    fun hx => h.elim (fun hp => hp (of_decide_eq_true hx.1)) fun h0 => hq.mp h0 hx.2
  have idle : s.svc.clockStep = 0 ↔ ¬ 0 < s.svc.clockStep := by omega
  refine ⟨?_, fun h1 h2 => (exec_clockStep s).trans ((if_pos (decide_eq_true h1)).trans (if_pos h2)),
    fun h1 h2 h3 => (exec_clockStep s).trans ((if_pos (decide_eq_true h1)).trans ((if_neg (Nat.not_lt.mpr h2)).trans (if_neg (off h3)))),
    fun h1 h2 h3 => (exec_clockStep s).trans ((if_pos (decide_eq_true h1)).trans ((if_neg (Nat.not_lt.mpr h2)).trans (if_pos h3))),
    fun h1 h2 h3 => (exec_clockStep s).trans ((if_neg (cold h1)).trans (if_pos ⟨decide_eq_true h2, h3⟩)),
    fun h1 h2 h3 => (exec_clockStep s).trans ((if_neg (cold h1)).trans ((if_neg (stays h2 idle)).trans (if_pos h3))),
    fun h1 h2 h3 => (exec_clockStep s).trans ((if_neg (cold h1)).trans ((if_neg (stays h2 idle)).trans (if_neg (off h3)))),
    fun h => (exec_telemetryRefresh s).trans (if_pos h), fun h hw => ?_⟩
  · rw [exec_powerSample, execPowerSample]
    dsimp only
    rw [reverse_take_reverse, List.length_append, List.length_singleton]
  · obtain ⟨f, run⟩ := telemetryRefresh_eq h
    have hu : Memory.wf ({ s with free := f } : State).mem = true := hw
    obtain ⟨hcur, hnodes, hcores, hawl⟩ := refreshed_rest s { s with free := f }
    refine ⟨_, run, hcur, hnodes, hcores, hawl, fun a ha => refreshed_elsewhere hu ha, fun ch k => ?_, fun i hi => refreshed_header hu hi, fun p i => ?_, fun c i => ?_⟩
    · rw [show ringPA 0x51000 + 16 * ch.val + 4 * k.val = ringPA 0x50000 + (0x1000 + 16 * ch.val + 4 * k.val) by unfold ringPA; omega]
      exact refreshed_chan hu ch.isLt k.isLt
    · rw [show ringPA 0x52000 + 64 * p.val + i.val = ringPA 0x50000 + (0x2000 + 64 * p.val + i.val) by unfold ringPA; omega]
      exact refreshed_port hu p.isLt i.isLt
    · rw [show ringPA 0x53000 + 512 * c.val + i.val = ringPA 0x50000 + 0x3000 + (512 * c.val + i.val) by unfold ringPA; omega]
      exact refreshed_core hu c.isLt i.isLt

end Sys2Proof.Proofs
end

