-- ==== Sys2Proof/Proofs/HostRegisters.lean ====
section
namespace Sys2Proof.Proofs
open Sys2Proof Sys2Proof.Machine

-- One theorem after another: side by side they need more memory than one run may take.
set_option Elab.async false

/-! # Host registers (R74 to R76, R82, R83, R86, R87, R89)

## What leaves memory as it stands -/

theorem foldl_mem {α : Type} {f : State → α → State} (h : ∀ s a, (f s a).mem = s.mem) (l : List α) (s : State) : (l.foldl f s).mem = s.mem := by
  induction l generalizing s with
  | nil => rfl
  | cons a l ih => exact (ih _).trans (h s a)

@[simp] theorem settleHolder_mem (s : State) (prio : Nat) : (s.settleHolder prio).mem = s.mem := by
  unfold State.settleHolder
  dsimp only
  split
  · split
    · rfl
    · split <;> rfl
  · split
    · split
      · rfl
      · split <;> rfl
    · split
      · split <;> rfl
      · rfl

@[simp] theorem settleQueue_mem (s : State) (q : BitVec 6) : (s.settleQueue q).mem = s.mem := by
  unfold State.settleQueue
  dsimp only
  split_ifs <;> rfl

@[simp] theorem settleHolders_mem : ∀ (fuel : Nat) (s : State), (s.settleHolders fuel).mem = s.mem
  | 0, _ => rfl
  | fuel + 1, s => by
    have h : ((List.range 8).foldl State.settleHolder s).mem = s.mem := foldl_mem settleHolder_mem _ s
    unfold State.settleHolders
    dsimp only
    split
    · exact h
    · exact (settleHolders_mem fuel _).trans h

@[simp] theorem settle_mem (s : State) : s.settle.mem = s.mem :=
  (foldl_mem (fun s _ => settleQueue_mem s _) _ _).trans (settleHolders_mem 65 s)

@[simp] theorem leaveCore_mem (s : State) (uid : Nat) : (s.leaveCore uid).mem = s.mem := by
  unfold State.leaveCore
  split
  · rfl
  · exact (apply_ite State.mem _ _ _).trans (ite_self _)

@[simp] theorem unsplice_mem (s : State) (uid : Nat) : (s.unsplice uid).mem = s.mem := by
  unfold State.unsplice
  split <;> rfl

@[simp] theorem firstReady_mem (s : State) (uid : Nat) : (s.firstReady uid).mem = s.mem := by
  unfold State.firstReady
  dsimp only
  split
  · exact (State.nextReady_mem _).trans (State.setNode_mem _ _)
  · rfl

@[simp] theorem endRun_mem (s : State) (uid : Nat) (st : NodeState) (remaining : Nat) (mark : Option (Nat × Nat × Nat)) : (s.endRun uid st remaining mark).mem = s.mem := by
  unfold State.endRun
  dsimp only
  rw [firstReady_mem, State.setNode_mem]
  split
  · exact leaveCore_mem s uid
  · exact leaveCore_mem s uid

theorem dropJob_mem (s : State) (j : BindJob) : (s.dropJob j).mem = s.mem := rfl

@[simp] theorem startReset_mem (s : State) (q : BitVec 6) (newhead : BitVec 32) (by_ : Option (BitVec 6 × BitVec 32 × BitVec 512)) : (s.startReset q newhead by_).mem = s.mem := by
  unfold State.startReset
  exact (foldl_mem (fun s u => (unsplice_mem _ u).trans (endRun_mem s u _ _ _)) _ _).trans (foldl_mem dropJob_mem _ _)

@[simp] theorem writeQcfg_mem (s : State) (q : BitVec 6) (v : Word) : (s.writeQcfg q v).mem = s.mem := by
  unfold State.writeQcfg
  dsimp only
  repeat' split
  all_goals simp

@[simp] theorem writeQtail_mem (s : State) (q : BitVec 6) (v : Word) : (s.writeQtail q v).mem = s.mem := by
  unfold State.writeQtail
  dsimp only
  repeat' split
  all_goals simp

@[simp] theorem writeQctl_mem (s : State) (q : BitVec 6) (v : Word) : (s.writeQctl q v).mem = s.mem := by
  unfold State.writeQctl
  split
  · simp
  · rfl

@[simp] theorem excommit_mem (s : State) : s.excommit.mem = s.mem := by
  unfold State.excommit
  dsimp only
  split <;> rfl

theorem writeTlink_mem (s : State) (n : BitVec 6) (v : Word) : (s.writeTlink n v).mem = s.mem := rfl
theorem writeFlip_mem (s : State) (v : Word) : (s.writeFlip v).mem = s.mem := rfl

@[simp] theorem writeBar_mem (s : State) (off : Nat) (v : Word) (size : Nat) : (s.writeBar off v size).mem = s.mem := by
  unfold State.writeBar
  dsimp only
  repeat' split
  · rfl
  · exact State.mapQueue_mem ..
  · exact State.mapQueue_mem ..
  · exact writeQcfg_mem ..
  · exact writeQtail_mem ..
  · exact writeQctl_mem ..
  · rfl
  · exact writeTlink_mem ..
  · rfl
  · exact excommit_mem s
  · exact writeFlip_mem ..
  · rfl

/-! ## The rows (R74 to R76, R82, R83, R86, R87, R89) -/

theorem writeQtail_spec (s : State) (q : BitVec 6) (v : Word) :
    let x := s.queue q
    let y : Queue := { x with tail := v.extractLsb' 0 32 }
    let counted := x.st = .idle ∨ x.st = .active ∨ x.st = .waiting ∨ x.st = .suspended
    (¬ counted → s.writeQtail q v = s.setQueue q y) ∧ (counted → y.pending ≤ x.ring → s.writeQtail q v = (s.setQueue q y).settle) ∧
    (counted → x.ring < y.pending → x.cur = none → s.writeQtail q v = (s.setQueue q (y.fail 3)).settle) ∧
    (counted → x.ring < y.pending → x.cur ≠ none → s.writeQtail q v = s.setQueue q { y with tailError := true }) := by
  dsimp only
  refine ⟨fun h => if_neg h, fun h h1 => (if_pos h).trans (if_neg (Nat.not_lt.mpr h1)), fun h h1 h2 => (if_pos h).trans ((if_pos h1).trans (if_neg ?_)),
    fun h h1 h2 => (if_pos h).trans ((if_pos h1).trans (if_pos (Option.isSome_iff_ne_none.mpr h2)))⟩
  exact fun hs => Option.isSome_iff_ne_none.mp hs h2

/-- The fields of QCFG that a write carries (R75). -/
def cfgFields (x : Queue) (v : Word) : Queue :=
  { x with slice := v.extractLsb' 32 16, prio := v.extractLsb' 24 3, logsize := if (v.extractLsb' 16 4).toNat < 4 then 4 else v.extractLsb' 16 4, nextSlice := none }

theorem writeQcfg_spec (s : State) (q : BitVec 6) (v : Word) :
    let x := s.queue q
    let set := cfgFields x v
    let same := v.extractLsb' 32 16 = x.slice ∧ v.extractLsb' 24 3 = x.prio ∧ (if (v.extractLsb' 16 4).toNat < 4 then 4 else v.extractLsb' 16 4) = x.logsize
    let owns := s.awl.slots.contains (BitVec.ofNat 8 q.toNat) = true
    (x.st = .disabled → v.getLsbD 0 = true → owns → s.writeQcfg q v = (s.setQueue q ({ set with en := true, heldClear := false } : Queue).enterIdle).settle) ∧
    (x.st = .disabled → v.getLsbD 0 = false ∨ ¬ owns → s.writeQcfg q v = (s.setQueue q set).settle) ∧
    (x.st ≠ .disabled → ¬ same → s.writeQcfg q v = s) ∧
    (x.st ≠ .disabled → same → v.getLsbD 0 = true → s.writeQcfg q v = s.setQueue q { x with en := true, heldClear := false }) ∧
    (x.st = .idle → same → v.getLsbD 0 = false → s.writeQcfg q v = (s.setQueue q { x with st := .disabled, en := false, heldClear := false }).settle) ∧
    (x.st ≠ .disabled → x.st ≠ .idle → same → v.getLsbD 0 = false → s.writeQcfg q v = s.setQueue q { x with en := false, heldClear := true }) := by
  dsimp only
  have off {b : Bool} (h : b = false) : ¬ b = true := by rw [h]; exact Bool.false_ne_true
  have differs {a b c : Prop} : ¬ (a ∧ b ∧ c) ↔ ¬ a ∨ ¬ b ∨ ¬ c := by rw [not_and_or, not_and_or]
  refine ⟨fun h h1 h2 => (if_pos h).trans ?_, fun h h1 => (if_pos h).trans ?_, fun h h1 => (if_neg h).trans (if_pos (differs.mp h1)),
    fun h h1 h2 => (if_neg h).trans ((if_neg (mt differs.mpr (not_not_intro h1))).trans (if_pos h2)),
    fun h h1 h2 => (if_neg ?_).trans ((if_neg (mt differs.mpr (not_not_intro h1))).trans ((if_neg (off h2)).trans (if_pos h))),
    fun h h0 h1 h2 => (if_neg h).trans ((if_neg (mt differs.mpr (not_not_intro h1))).trans ((if_neg (off h2)).trans (if_neg h0)))⟩
  · rw [if_pos (by rw [h1, h2]; rfl)]
    rfl
  · rw [if_neg (by rw [Bool.and_eq_true]; exact fun hx => h1.elim (fun e => off e hx.1) fun e => e hx.2)]
    rfl
  · rw [h]
    exact fun e => by cases e

/-- EXCOMMIT installs a legal table when every queue is disabled (R83). -/
theorem excommit_iff (s : State) :
    let t := s.awl.exslot
    let ok := (∀ q : BitVec 6, (s.queue q).st = .disabled) ∧ (∀ e ∈ t, e.toNat ≤ 0x42 ∨ e = 0xFF) ∧ 0x40 ∈ t ∧ 0x41 ∈ t ∧ 0x42 ∈ t
    (ok → s.excommit = { s with awl := { s.awl with slots := t } }) ∧ (¬ ok → s.excommit = s) := by
  dsimp only
  have queues : (s.awl.queues.toList.all fun x => x.st == .disabled) = true ↔ ∀ q : BitVec 6, (s.queue q).st = .disabled := by
    rw [List.all_eq_true]
    constructor
    · intro h q
      have := h (s.queue q) (Vector.mem_toList_iff.mpr (Vector.getElem_mem _))
      rwa [beq_iff_eq] at this
    · intro h x hx
      obtain ⟨i, hi, rfl⟩ := Vector.mem_iff_getElem.mp (Vector.mem_toList_iff.mp hx)
      rw [beq_iff_eq]
      simpa only [State.queue, show (BitVec.ofNat 6 i).toNat = i from Nat.mod_eq_of_lt hi] using h (BitVec.ofNat 6 i)
  have legal : (s.awl.exslot.all fun e => decide (e.toNat ≤ 0x42) || e == 0xFF) = true ↔ ∀ e ∈ s.awl.exslot, e.toNat ≤ 0x42 ∨ e = 0xFF := by
    rw [List.all_eq_true]
    simp only [Bool.or_eq_true, decide_eq_true_eq, beq_iff_eq]
  unfold State.excommit
  dsimp only
  simp only [Bool.and_eq_true, queues, legal, List.contains_iff_mem, and_assoc]
  exact ⟨fun h => if_pos h, fun h => if_neg h⟩

/-! ### BAR0 (R74, R75) -/

theorem writeBar_exslot (s : State) {off j : Nat} (v : Word) (hj : j < 16) (hl : s.awl.exslot.length = 128) (ho : off = 0x41000 + 8 * j) :
    let t := s.writeBar off v 8
    t = { s with awl := { s.awl with exslot := t.awl.exslot } } ∧ t.awl.exslot.length = 128 ∧
      ∀ i < 128, t.awl.exslot[i]? = if 8 * j ≤ i ∧ i < 8 * j + 8 then some (v.extractLsb' (8 * (i - 8 * j)) 8) else s.awl.exslot[i]? := by
  have e : s.writeBar off v 8 = { s with awl := { s.awl with
      exslot := s.awl.exslot.take (8 * j) ++ ((List.range 8).map fun i => (v.extractLsb' (8 * i) 8 : BitVec 8)) ++ s.awl.exslot.drop (8 * j + 8) } } := by
    unfold State.writeBar
    rw [if_neg (by omega), if_neg (by omega), if_neg (by omega), if_pos (by omega), show (off - 0x41000) / 8 = j by omega]
  dsimp only
  rw [e]
  refine ⟨rfl, ?_, fun i hi => ?_⟩
  · simp only [List.length_append, List.length_take, List.length_drop, List.length_map, List.length_range, hl]
    omega
  · have ht : (s.awl.exslot.take (8 * j)).length = 8 * j := by rw [List.length_take]; omega
    dsimp only
    rw [List.append_assoc, List.getElem?_append, ht]
    by_cases h1 : i < 8 * j
    · rw [if_pos h1, if_neg (by omega), List.getElem?_take, if_pos h1]
    · rw [if_neg h1, List.getElem?_append, List.length_map, List.length_range]
      by_cases h2 : i < 8 * j + 8
      · rw [if_pos (by omega), if_pos (by omega), List.getElem?_map, List.getElem?_range (by omega), Option.map_some]
      · rw [if_neg (by omega), if_neg (by omega), List.getElem?_drop]
        congr 1
        omega

/-- The registers of a queue at its offsets (R75). -/
theorem writeBar_queue (s : State) (q : BitVec 6) (v : Word) {off r : Nat} (hr : r < 0x1000) (h8 : r % 8 = 0) (ho : off = 0x1000 * q.toNat + r) :
    (r = 0 → s.writeBar off v 8 = s.setQueue q { s.queue q with qbase := v &&& ~~~0x3F#64 }) ∧
    (r = 8 → s.writeBar off v 8 = s.setQueue q { s.queue q with qcbase := v &&& ~~~0x3F#64 }) := by
  have hq := q.isLt
  have hd : BitVec.ofNat 6 (off / 0x1000) = q := by rw [show off / 0x1000 = q.toNat by omega, BitVec.ofNat_toNat, BitVec.setWidth_eq]
  refine ⟨fun h => ?_, fun h => ?_⟩ <;> unfold State.writeBar <;> dsimp only <;> rw [if_neg (by omega), if_pos (by omega), hd, show off % 0x1000 = r by omega, h]
  · rfl
  · rfl

theorem readBar_queue (s : State) (q : BitVec 6) {r : Nat} (hr : r < 0x1000) (h8 : r % 8 = 0) :
    let x := s.queue q
    s.readBar (0x1000 * q.toNat + r) 8 =
      if r = 0 then x.qbase
      else if r = 8 then x.qcbase
      else if r = 0x10 then BitVec.ofNat 64 (x.slice.toNat * 2 ^ 32 + x.prio.toNat * 2 ^ 24 + x.logsize.toNat * 2 ^ 16 + if x.en then 1 else 0)
      else if r = 0x18 then BitVec.ofNat 64 x.tail.toNat
      else if r = 0x20 then BitVec.ofNat 64 x.head.toNat
      else if r = 0x28 then BitVec.ofNat 64 (x.gen.toNat * 2 ^ 48 + x.status.toNat * 2 ^ 32 + x.erridx.toNat * 2 ^ 16 + x.st.code)
      else 0 := by
  have hq := q.isLt
  have hd : BitVec.ofNat 6 ((0x1000 * q.toNat + r) / 0x1000) = q := by
    rw [show (0x1000 * q.toNat + r) / 0x1000 = q.toNat by omega, BitVec.ofNat_toNat, BitVec.setWidth_eq]
  unfold State.readBar
  dsimp only
  rw [if_neg (by omega), if_pos (by omega), hd, show (0x1000 * q.toNat + r) % 0x1000 = r by omega]

/-- The fields of QCFG and of QSTAT as they are read (R75). -/
theorem qcfgWord_fields (slice : BitVec 16) (prio : BitVec 3) (logsize : BitVec 4) (en : Bool) :
    let w := BitVec.ofNat 64 (slice.toNat * 2 ^ 32 + prio.toNat * 2 ^ 24 + logsize.toNat * 2 ^ 16 + if en then 1 else 0)
    w.extractLsb' 32 16 = slice ∧ w.extractLsb' 24 3 = prio ∧ w.extractLsb' 16 4 = logsize ∧ w.getLsbD 0 = en := by
  have h1 := slice.isLt
  have h2 := prio.isLt
  have h3 := logsize.isLt
  dsimp only
  refine ⟨BitVec.eq_of_toNat_eq ?_, BitVec.eq_of_toNat_eq ?_, BitVec.eq_of_toNat_eq ?_, ?_⟩
  · rw [BitVec.extractLsb'_toNat, BitVec.toNat_ofNat, Nat.shiftRight_eq_div_pow]
    cases en <;> simp only [Bool.false_eq_true, if_true, if_false] <;> omega
  · rw [BitVec.extractLsb'_toNat, BitVec.toNat_ofNat, Nat.shiftRight_eq_div_pow]
    cases en <;> simp only [Bool.false_eq_true, if_true, if_false] <;> omega
  · rw [BitVec.extractLsb'_toNat, BitVec.toNat_ofNat, Nat.shiftRight_eq_div_pow]
    cases en <;> simp only [Bool.false_eq_true, if_true, if_false] <;> omega
  · rw [BitVec.getLsbD_ofNat, Nat.testBit_zero]
    cases en <;> simp only [Bool.false_eq_true, if_true, if_false] <;> simp <;> omega

theorem qstatWord_fields (gen status erridx : BitVec 16) {code : Nat} (hc : code < 2 ^ 16) :
    let w := BitVec.ofNat 64 (gen.toNat * 2 ^ 48 + status.toNat * 2 ^ 32 + erridx.toNat * 2 ^ 16 + code)
    w.extractLsb' 48 16 = gen ∧ w.extractLsb' 32 16 = status ∧ w.extractLsb' 16 16 = erridx := by
  have h1 := gen.isLt
  have h2 := status.isLt
  have h3 := erridx.isLt
  dsimp only
  refine ⟨BitVec.eq_of_toNat_eq ?_, BitVec.eq_of_toNat_eq ?_, BitVec.eq_of_toNat_eq ?_⟩ <;>
    rw [BitVec.extractLsb'_toNat, BitVec.toNat_ofNat, Nat.shiftRight_eq_div_pow] <;> omega

/-- Settles O48: QTAIL, QCFG and EXCOMMIT by the cases of their writes, BAR0 offset by offset. -/
theorem hostRegisterWrites : Obligations.HostRegisterWrites := by
  unfold Obligations.HostRegisterWrites
  intro s q n v off prio
  dsimp only
  have not_on {b : Bool} (h : b = false) : ¬ b = true := by rw [h]; exact Bool.false_ne_true
  obtain ⟨uncounted, fits, tooMany, later⟩ := writeQtail_spec s q v
  obtain ⟨enabled, set, refused, again, disabled, held⟩ := writeQcfg_spec s q v
  have enables {t : State} (h : v.getLsbD 0 = true) (e : s.writeQcfg q v = t) : exec (.queueEnable q v) s = .next t :=
    (exec_queueEnable s q v).trans ((if_pos h).trans (congrArg _ e))
  have disables {t : State} (h : v.getLsbD 0 = false) (e : s.writeQcfg q v = t) : exec (.queueDisable q v) s = .next t :=
    (exec_queueDisable s q v).trans ((if_neg (not_on h)).trans (congrArg _ e))
  have tail {t : State} (e : s.writeQtail q v = t) : exec (.qtailWrite q v) s = .next t := (exec_qtailWrite s q v).trans (congrArg _ e)
  refine ⟨fun h => tail (uncounted h), fun h h1 => tail (fits h h1), fun h h1 h2 => tail (tooMany h h1 h2), fun h h1 h2 => tail (later h h1 h2),
    fun h h1 h2 => enables h (enabled h1 h h2), ⟨fun h h1 => disables h (set h1 (.inl h)), fun h h1 h2 => enables h (set h1 (.inr (not_on h2)))⟩,
    fun h h1 h2 => enables h (again h1 h2 h), fun h h1 h2 => disables h (disabled h1 h2 h), fun h h1 h2 h3 => disables h (held h1 h2 h3 h),
    fun h h1 => ⟨fun h2 => enables h2 (refused h h1), fun h2 => disables h2 (refused h h1)⟩, fun h h1 => ?_, fun h => ?_, exec_tlinkWrite s n v, ?_, fun h => ?_, fun h => ?_,
    fun size h => ?_, ⟨s.writeBar off.toNat v 8, rfl, writeBar_mem .., ?_⟩, fun size h => if_pos h, ?_, fun h hh => ⟨fun hc => ?_, fun hc => ?_⟩⟩
  · rw [exec_qctlRst, execQctlRst, State.writeQctl, if_pos (by rw [h, Bool.true_and, bne_iff_ne]; exact h1)]
  · rw [exec_qctlRst, execQctlRst, State.writeQctl, if_neg]
    rw [Bool.and_eq_true, bne_iff_ne]
    exact fun hx => h.elim (fun e => not_on e hx.1) hx.2
  · obtain ⟨installs, keeps⟩ := excommit_iff s
    exact ⟨fun h => (exec_excommit s v).trans (congrArg _ (installs h)), fun h => (exec_excommit s v).trans (congrArg _ (keeps h))⟩
  · exact (exec_flipreqAck s v).trans ((if_pos h).trans (by rw [State.writeFlip, h]))
  · exact (exec_flipreqToHost s v).trans ((if_neg (not_on h)).trans (by rw [State.writeFlip, h]))
  · exact (exec_registerWrite s off _).trans (congrArg _ (if_pos (.inl h)))
  · have hq := q.isLt
    exact ⟨fun j hj ho hl => writeBar_exslot s v hj hl (by rw [ho, BitVec.toNat_ofNat]; omega),
      fun ho => (writeBar_queue s q v (r := 0) (by omega) rfl (by rw [ho, BitVec.toNat_ofNat]; omega)).1 rfl,
      fun ho => (writeBar_queue s q v (r := 8) (by omega) rfl (by rw [ho, BitVec.toNat_ofNat]; omega)).2 rfl, fun h => if_pos (.inr h)⟩
  · have hcode : (s.queue q).st.code < 2 ^ 16 := by cases (s.queue q).st <;> decide
    rw [readBar_queue s q (r := 0) (by omega) rfl, readBar_queue s q (r := 8) (by omega) rfl, readBar_queue s q (r := 0x10) (by omega) rfl,
      readBar_queue s q (r := 0x18) (by omega) rfl, readBar_queue s q (r := 0x20) (by omega) rfl, readBar_queue s q (r := 0x28) (by omega) rfl,
      readBar_queue s q (r := 0x30) (by omega) rfl]
    obtain ⟨c1, c2, c3, c4⟩ := qcfgWord_fields (s.queue q).slice (s.queue q).prio (s.queue q).logsize (s.queue q).en
    obtain ⟨t1, t2, t3⟩ := qstatWord_fields (s.queue q).gen (s.queue q).status (s.queue q).erridx hcode
    exact ⟨rfl, rfl, BitVec.ofNat_toNat .., BitVec.ofNat_toNat .., rfl, c1, c2, c3, c4, t1, t2, t3⟩
  · rw [exec_sliceExpiry]
    simp only [execSliceExpiry, hh, Option.isSome_iff_ne_none.mpr hc, if_true]
  · rw [exec_sliceExpiry]
    simp only [execSliceExpiry, hh, hc, Option.isSome_none, Bool.false_eq_true, if_false]

end Sys2Proof.Proofs
end

