-- ==== Sys2Proof/Proofs/Service.lean ====
section
namespace Sys2Proof.Proofs
open Sys2Proof Sys2Proof.Machine

-- One theorem after another: side by side they need more memory than one run may take.
set_option Elab.async false

/-! # Bring-up (R9, R16, R100, R362, R365) -/

/-- Counting an event again and again changes the counters alone. -/
theorem foldl_count {α : Type} (name : String) (l : List α) (s : State) : ∃ tele, l.foldl (fun s _ => s.count name) s = { s with svc := { s.svc with tele := tele } } := by
  induction l generalizing s with
  | nil => exact ⟨s.svc.tele, rfl⟩
  | cons a l ih =>
    obtain ⟨tele, h⟩ := ih (s.count name)
    exact ⟨tele, h⟩

/-- What host memory holds outlives POWER_GOOD, and ring and DRAM read as nothing has written them (R362; log entries 4 and 48). -/
theorem memGet_hostPart (m : List Host.Cell) (a : Nat) : memGet (m.filter fun c => decide (hostPA 0 ≤ c.1)) a = if hostPA 0 ≤ a then memGet m a else unlisted a := by
  simp only [memGet, cellGet?_filter m fun k => decide (hostPA 0 ≤ k), decide_eq_true_eq, apply_ite (fun o : Option Byte => o.getD (unlisted a)), Option.getD_none]

theorem powerGood_spec (s : State) :
    ∃ t, exec .powerGood s = .next t ∧ t.svc.phase = 2 ∧ t.nodes = [] ∧ t.cur = Node.none ∧ t.cores = [] ∧ t.link = LinkUnit.reset ∧ t.dist = Dist.reset ∧
      t.svc.map = s.svc.map ∧ t.svc.loneHalves = s.svc.loneHalves ∧ t.svc.halfStates = s.svc.halfStates.filter (fun e => e.2.2.2.2 == HalfState.retired) ∧
      (∀ q : BitVec 6, t.queue q = {}) ∧ (Canonical s → (∀ a, hostPA 0 ≤ a → t.byte a = s.byte a) ∧ ∀ a, a < hostPA 0 → t.byte a = unlisted a) := by
  rw [exec_powerGood]
  unfold execPowerGood
  dsimp only
  obtain ⟨tele, h⟩ := foldl_count "patches skipped" (checkPatches s.free (mramPatches s.awl.patches s.awl.newPatches)).2 _
  rw [h]
  refine ⟨_, rfl, rfl, rfl, rfl, rfl, rfl, rfl, rfl, rfl, rfl, fun q => ?_, fun _ => ⟨fun a ha => ?_, fun a ha => ?_⟩⟩
  · simp [State.queue, State.reset, Awl.reset]
  · exact (memGet_hostPart s.mem a).trans (if_pos ha)
  · exact (memGet_hostPart s.mem a).trans (if_neg (Nat.not_le.mpr ha))

theorem mendCore_spec (s : State) (idx : Nat) :
    let c := s.core idx
    let bad := c.halves.filter fun b => !s.halfGood (coreStack idx) b.y b.x b.half
    let mend := c.active = true ∧ (bad ≠ [] ∨ s.frontFailed c = true)
    (¬ mend → s.mendCore idx = s) ∧ (mend → ∀ plan, s.planFor idx bad = some plan → s.mendCore idx = s.applyPlan plan) ∧
      (mend → s.planFor idx bad = none → s.mendCore idx = s.retireCore idx) := by
  intro c bad mend
  have e : (!c.active || (bad.isEmpty && !s.frontFailed c)) = true ↔ ¬ mend := by
    cases ha : c.active <;> cases hf : s.frontFailed c <;> simp [mend, ha, hf]
  have stays : ¬ mend → s.mendCore idx = s := fun h => if_pos (e.mpr h)
  have moves : mend → s.mendCore idx = match s.planFor idx bad with
      | some plan => s.applyPlan plan
      | none => s.retireCore idx := fun h => if_neg fun hn => e.mp hn h
  exact ⟨stays, fun h plan hp => by rw [moves h, hp], fun h hp => by rw [moves h, hp]⟩

theorem probing_iff (s : State) (axis : Axis) : s.probing axis = true ↔ 3 ≤ s.svc.phase ∧ s.link.probed.getLsbD (axisCode axis) = false := by
  simp [State.probing]

theorem capReserve_svc (s : State) (cores : List Core) (st : Nat) : (State.capReserve { s with cores := cores } st).svc = s.svc := rfl

/-- The stack waits for its self-test at bring-up. -/
def awaitsTest (s : State) (st : BitVec 2) : Prop := 2 ≤ s.svc.phase ∧ s.svc.stk[st.toNat] = .waiting

theorem awaitsTest_iff (s : State) (st : BitVec 2) : (s.svc.phase < 2 ∨ s.svc.stk[st.toNat]?.getD .absent ≠ .waiting) ↔ ¬ awaitsTest s st := by
  simp only [awaitsTest, Vector.getElem?_eq_getElem st.isLt, Option.getD_some, not_and_or, Nat.not_le]

theorem selfTestPass_awaited {s : State} {r : SelfTest} (h : awaitsTest s r.stack) :
    exec (.stackSelfTestPass r) s = .next { s.bootStack r.stack.toNat r.fronts r.halves with svc := { (s.bootStack r.stack.toNat r.fronts r.halves).svc with
      phase := if s.svc.phase = 2 then 3 else max s.svc.phase 4
      slowStack := if s.svc.phase = 2 then some r.stack.toNat else s.svc.slowStack.map fun k => min k r.stack.toNat } } := by
  rw [exec_stackSelfTestPass, execStackSelfTestPass]
  exact if_neg fun hn => (awaitsTest_iff s r.stack).mp hn h

theorem selfTestPass_unawaited {s : State} {r : SelfTest} (h : ¬ awaitsTest s r.stack) : exec (.stackSelfTestPass r) s = .fault (.notEnabled "STACK_SELF_TEST_PASS") := by
  rw [exec_stackSelfTestPass, execStackSelfTestPass]
  exact if_pos ((awaitsTest_iff s r.stack).mpr h)

theorem selfTestFail_awaited {s : State} {st : BitVec 2} (h : awaitsTest s st) :
    exec (.stackSelfTestFail st) s = .next { s with svc := { s.svc with
      stackFails := s.svc.stackFails.setIfInBounds st.toNat (s.svc.stackFails[st.toNat] + 1)
      stk := if 2 ≤ s.svc.stackFails[st.toNat] + 1 then s.svc.stk.setIfInBounds st.toNat .absent else s.svc.stk } } := by
  rw [exec_stackSelfTestFail, execStackSelfTestFail]
  refine (if_neg fun hn => (awaitsTest_iff s st).mp hn h).trans ?_
  simp only [Vector.getElem?_eq_getElem st.isLt, Option.getD_some]

theorem selfTestFail_unawaited {s : State} {st : BitVec 2} (h : ¬ awaitsTest s st) : exec (.stackSelfTestFail st) s = .fault (.notEnabled "STACK_SELF_TEST_FAIL") := by
  rw [exec_stackSelfTestFail, execStackSelfTestFail]
  exact if_pos ((awaitsTest_iff s st).mpr h)

/-- Settles O58. -/
theorem bringUp : Obligations.BringUp := by
  unfold Obligations.BringUp
  intro s st fronts halves axis hops v waiting
  let r : SelfTest := { stack := st, fronts := fronts, halves := halves }
  refine ⟨powerGood_spec s, fun h => ?_, mendCore_spec s, fun h => ⟨selfTestPass_unawaited (r := r) h, selfTestFail_unawaited (st := st) h⟩, fun h => ?_, fun h => ?_, fun h3 h4 => ?_, ?_⟩
  · intro cores b m members w u
    refine ⟨(selfTestPass_awaited (r := r) h).trans ?_, capReserve_svc m _ _⟩
    have hb : s.bootStack st.toNat fronts halves = u := by
      simp only [State.bootStack, Vector.getElem?_eq_getElem st.isLt, Option.getD_some, u, members, m, b, cores, v]
    have hu : u.svc = m.svc := capReserve_svc m _ _
    clear_value u
    clear_value m
    simp only [r, hb, hu, w, v]
  · intro k w
    exact ⟨fun hk => (selfTestFail_awaited (st := st) h).trans (by rw [if_neg (Nat.not_le.mpr hk)]), fun hk => (selfTestFail_awaited (st := st) h).trans (by rw [if_pos hk])⟩
  · exact if_pos h
  · exact if_neg (not_or.mpr ⟨h3, h4⟩)
  · intro bit set out
    have ho : out ↔ s.probing axis = true := by
      rw [probing_iff]
      cases axis <;> rfl
    have hset : ∀ k, s.endProbe axis k = set k := fun k => by cases axis <;> rfl
    have hz : hops = 0 ↔ hops.toNat = 0 := BitVec.toNat_eq.trans Iff.rfl
    have back : exec (.probeReturn axis hops) s = if !s.probing axis ∨ hops = 0 ∨ 32 < hops.toNat then .fault (.notEnabled "PROBE_RETURN") else .next (s.endProbe axis hops.toNat) := rfl
    have late : exec (.probeTimeout axis) s = if !s.probing axis then .fault (.notEnabled "PROBE_TIMEOUT") else .next (s.endProbe axis 1) := rfl
    rw [back, late, ho, hset, hset]
    refine ⟨fun hp h1 h2 => if_neg ?_, fun hn => if_pos ?_, fun hp => if_neg ?_, fun hn => if_pos ?_⟩
    · rw [hp]
      rintro (hf | h0 | h3)
      · exact nomatch hf
      · rw [hz] at h0
        omega
      · omega
    · rw [hz]
      exact hn.imp_left fun hp => by simpa using hp
    · simpa using hp
    · simpa using hn
/-! # Checks, drains and repairs (R104, R105, R363, R365 to R367)

## What the lists of halves hold (R365) -/

/-- An entry of a list by half is that half's. -/
def ofHalf {α : Type} (st : Nat) (b : BoundHalf) (e : Nat × Nat × Nat × BitVec 1 × α) : Bool :=
  e.1 == st && e.2.1 == b.y && e.2.2.1 == b.x && e.2.2.2.1 == b.half

theorem ofHalf_iff {α : Type} {st : Nat} {b : BoundHalf} {e : Nat × Nat × Nat × BitVec 1 × α} :
    ofHalf st b e = true ↔ e.1 = st ∧ e.2.1 = b.y ∧ e.2.2.1 = b.x ∧ e.2.2.2.1 = b.half := by
  simp only [ofHalf, Bool.and_eq_true, beq_iff_eq, and_assoc]

theorem ofHalf_self {α : Type} (st : Nat) (b : BoundHalf) (v : α) : ofHalf st b (st, b.y, b.x, b.half, v) = true := ofHalf_iff.mpr ⟨rfl, rfl, rfl, rfl⟩

theorem ofHalf_unique {α : Type} {st st' : Nat} {b b' : BoundHalf} {e : Nat × Nat × Nat × BitVec 1 × α} (h : ofHalf st b e = true) (h' : ofHalf st' b' e = true) :
    st = st' ∧ b = b' := by
  rw [ofHalf_iff] at h h'
  obtain ⟨h1, h2, h3, h4⟩ := h
  obtain ⟨k1, k2, k3, k4⟩ := h'
  cases b
  cases b'
  simp_all

/-- The first entry of a half after the entries of a half have been replaced. -/
theorem find_replaced {α : Type} (l r : List (Nat × Nat × Nat × BitVec 1 × α)) (st : Nat) (b : BoundHalf) (st' : Nat) (b' : BoundHalf) :
    ((l.filter fun e => !ofHalf st b e) ++ r).find? (ofHalf st' b') =
      if st' = st ∧ b' = b then r.find? (ofHalf st' b') else (l.find? (ofHalf st' b')).or (r.find? (ofHalf st' b')) := by
  rw [List.find?_append, List.find?_filter]
  split
  · next h =>
    obtain ⟨rfl, rfl⟩ := h
    rw [List.find?_eq_none.mpr fun e _ => by simp, Option.none_or]
  · next h =>
    congr 2
    funext e
    rw [Bool.decide_and, Bool.decide_coe, Bool.decide_coe, Bool.and_eq_right_iff_imp]
    intro he
    by_contra hn
    exact h (ofHalf_unique he (by simpa using hn))

/-- The state that a list gives a half. -/
def stateIn (l : List (Nat × Nat × Nat × BitVec 1 × HalfState)) (st : Nat) (b : BoundHalf) : HalfState := ((l.find? (ofHalf st b)).map (·.2.2.2.2)).getD .good

theorem halfState_eq (s : State) (st : Nat) (b : BoundHalf) : s.halfState st b = stateIn s.svc.halfStates st b := rfl

theorem stateIn_set (l : List (Nat × Nat × Nat × BitVec 1 × HalfState)) (st : Nat) (b : BoundHalf) (v : HalfState) (st' : Nat) (b' : BoundHalf) :
    stateIn (setHalfState l st b.y b.x b.half v) st' b' = if st' = st ∧ b' = b then v else stateIn l st' b' := by
  have hr : (if v = .good then [] else [(st, b.y, b.x, b.half, v)]).find? (ofHalf st' b') = if st' = st ∧ b' = b ∧ v ≠ .good then some (st, b.y, b.x, b.half, v) else none := by
    by_cases hv : v = .good
    · simp [hv]
    · rw [if_neg hv, List.find?_singleton]
      refine if_congr ?_ rfl rfl
      rw [ofHalf_iff]
      exact ⟨fun ⟨h1, h2, h3, h4⟩ => ⟨h1.symm, (BoundHalf.mk.injEq ..).mpr ⟨h2.symm, h3.symm, h4.symm⟩, hv⟩, fun ⟨h1, h2, _⟩ => h1 ▸ h2 ▸ ⟨rfl, rfl, rfl, rfl⟩⟩
  have e : setHalfState l st b.y b.x b.half v = (l.filter fun e => !ofHalf st b e) ++ if v = .good then [] else [(st, b.y, b.x, b.half, v)] := rfl
  rw [stateIn, stateIn, e, find_replaced, hr]
  by_cases h : st' = st ∧ b' = b
  · by_cases hv : v = .good <;> simp [h, hv]
  · have hn : ¬ (st' = st ∧ b' = b ∧ v ≠ .good) := fun k => h ⟨k.1, k.2.1⟩
    rw [if_neg h, if_neg h, if_neg hn, Option.or_none]

/-- The halves of one slab retired one after the other. -/
theorem stateIn_retired (gone : List (BitVec 1)) (l : List (Nat × Nat × Nat × BitVec 1 × HalfState)) (st y x st' : Nat) (b' : BoundHalf) :
    stateIn (gone.foldl (fun l h => setHalfState l st y x h .retired) l) st' b' =
      if st' = st ∧ b'.y = y ∧ b'.x = x ∧ b'.half ∈ gone then .retired else stateIn l st' b' := by
  induction gone generalizing l with
  | nil => simp
  | cons h gone ih =>
    have hb : b' = { y := y, x := x, half := h } ↔ b'.y = y ∧ b'.x = x ∧ b'.half = h := by cases b'; simp
    rw [List.foldl_cons, ih, stateIn_set l st { y := y, x := x, half := h }, ← ite_or]
    refine if_congr ?_ rfl rfl
    rw [hb, List.mem_cons]
    tauto

/-- Moving cores leaves the states of the halves as they stand. -/
theorem applyPlan_halfStates (s : State) (plan : List (Nat × Nat × List BoundHalf)) : (s.applyPlan plan).svc.halfStates = s.svc.halfStates := by
  unfold State.applyPlan
  generalize plan.reverse = l
  induction l generalizing s with
  | nil => rfl
  | cons e l ih => exact (ih _).trans rfl

theorem rebind_halfState (s : State) (j : BindJob) (st : Nat) (b : BoundHalf) :
    (s.rebind j).halfState st b = if st = j.stack ∧ b.y = j.row ∧ b.x = j.site ∧ b.half ∈ repairHalves j.half then .retired else s.halfState st b := by
  rw [halfState_eq, halfState_eq, ← stateIn_retired]
  exact congrArg (fun l => stateIn l st b) (applyPlan_halfStates _ _)

/-! ## A failed check (R104, R365) -/

/-- The failed checks that a list gives a half. -/
def checksIn (l : List (Nat × Nat × Nat × BitVec 1 × Nat)) (st : Nat) (b : BoundHalf) : Nat := ((l.find? (ofHalf st b)).map (·.2.2.2.2)).getD 0

theorem failCount_eq (s : State) (st : Nat) (b : BoundHalf) : s.failCount st b = checksIn s.svc.failedChecks st b := rfl

theorem checksIn_replaced (l : List (Nat × Nat × Nat × BitVec 1 × Nat)) (st : Nat) (b : BoundHalf) (n st' : Nat) (b' : BoundHalf) :
    checksIn ((l.filter fun e => !ofHalf st b e) ++ [(st, b.y, b.x, b.half, n)]) st' b' = if st' = st ∧ b' = b then n else checksIn l st' b' := by
  rw [checksIn, checksIn, find_replaced]
  by_cases h : st' = st ∧ b' = b
  · obtain ⟨rfl, rfl⟩ := h
    rw [if_pos ⟨rfl, rfl⟩, if_pos ⟨rfl, rfl⟩, List.find?_singleton, if_pos (ofHalf_self _ _ _)]
    rfl
  · have hn : ¬ ofHalf st' b' (st, b.y, b.x, b.half, n) = true := fun k => h (ofHalf_unique k (ofHalf_self st b n))
    rw [if_neg h, if_neg h, List.find?_singleton, if_neg hn, Option.or_none]

theorem failHalf_halfState (s : State) (st : Nat) (b : BoundHalf) (slot : EngineSlot) (st' : Nat) (b' : BoundHalf) :
    (s.failHalf st b slot).halfState st' b' = if st' = st ∧ b' = b ∧ s.halfState st b = .good then .split else s.halfState st' b' := by
  have e : (s.failHalf st b slot).svc.halfStates = if s.halfState st b = .good then setHalfState s.svc.halfStates st b.y b.x b.half .split else s.svc.halfStates := rfl
  rw [halfState_eq, e]
  by_cases hg : s.halfState st b = .good
  · rw [if_pos hg, stateIn_set]
    exact if_congr (by simp [hg]) rfl rfl
  · rw [if_neg hg, if_neg fun h => hg h.2.2]
    rfl

theorem failHalf_failCount (s : State) (st : Nat) (b : BoundHalf) (slot : EngineSlot) (st' : Nat) (b' : BoundHalf) :
    (s.failHalf st b slot).failCount st' b' = if st' = st ∧ b' = b then s.failCount st b + 1 else s.failCount st' b' := by
  rw [failCount_eq, failCount_eq s st' b', ← checksIn_replaced]
  congr 1
  simp only [State.failHalf, ofHalf, Bool.and_assoc]

/-- The state after a failed check of a half, its core's engine map sent to the sibling (R104). -/
def checkFailed (s : State) (c : Core) (b : BoundHalf) (slot : EngineSlot) : State :=
  (({ s with free := s.free + 1 } : State).setCore { c with
    emap := if c.emap.getLsbD (emapBit (emapSibling slot)) then c.emap else c.emap ||| BitVec.ofNat 8 (2 ^ emapBit slot) }).failHalf (coreStack c.idx) b slot

theorem checkFailed_halfState (s : State) (c : Core) (b : BoundHalf) (slot : EngineSlot) (st : Nat) (b' : BoundHalf) :
    (checkFailed s c b slot).halfState st b' = if st = coreStack c.idx ∧ b' = b ∧ s.halfState (coreStack c.idx) b = .good then .split else s.halfState st b' :=
  failHalf_halfState _ _ _ _ _ _

theorem checkFailed_failCount (s : State) (c : Core) (b : BoundHalf) (slot : EngineSlot) (st : Nat) (b' : BoundHalf) :
    (checkFailed s c b slot).failCount st b' = if st = coreStack c.idx ∧ b' = b then s.failCount (coreStack c.idx) b + 1 else s.failCount st b' :=
  failHalf_failCount _ _ _ _ _ _

theorem engineCheckFail_some {s : State} {core : BitVec 10} {slot : EngineSlot} {b : BoundHalf} (ha : (s.core core.toNat).active = true)
    (hb : (s.core core.toNat).halves[Config.freeNat s.free % (s.core core.toNat).halves.length]? = some b) :
    exec (.engineCheckFail core slot) s = .next (
      let t := checkFailed s (s.core core.toNat) b slot
      if 64 ≤ t.failCount (coreStack (s.core core.toNat).idx) b ∧ t.halfState (coreStack (s.core core.toNat).idx) b = .split then t.ownRebind (s.core core.toNat).idx b else t) := by
  have hl : 1 ≤ (s.core core.toNat).halves.length := by
    by_contra hn
    rw [List.length_eq_zero_iff.mp (by omega : (s.core core.toNat).halves.length = 0)] at hb
    exact nomatch hb
  rw [exec_engineCheckFail, execEngineCheckFail]
  simp only [ha, Bool.not_true, Bool.false_eq_true, if_false, State.takeFreeNat, Nat.max_eq_right hl, hb]
  rfl

theorem engineCheckFail_none {s : State} {core : BitVec 10} {slot : EngineSlot} (h : (s.core core.toNat).active = false ∨ (s.core core.toNat).halves = []) :
    exec (.engineCheckFail core slot) s = .fault (.notEnabled "ENGINE_CHECK_FAIL") := by
  rw [exec_engineCheckFail, execEngineCheckFail]
  cases ha : (s.core core.toNat).active with
  | false => simp
  | true => simp [h.resolve_left (by simp [ha])]

/-! ## The end of a drained job (R79, R363) -/

theorem endJob_spec (s : State) (j : BindJob) (moved : Nat) (done : State → State) :
    let ended := fun (t : State) => ({ t with dist := { t.dist with jobs := t.dist.jobs.erase j } } : State)
    let repair := pk j.pkt 0 1 = 13
    let fits := repair → s.recordFits j.queue (pk j.pkt 0x20 8) = true
    (j.pkt = 0 → s.endJob j moved done = ended (done s)) ∧
    (j.pkt ≠ 0 → ¬ repair → s.endJob j moved done = (ended (done s)).completeLater j.queue j.index 0) ∧
    (j.pkt ≠ 0 → repair → fits → s.endJob j moved done =
      ((ended (done s)).resultRecord j.queue (pk j.pkt 0x20 8) 0 (pk j.pkt 0x10 1) moved 0).completeLater j.queue j.index 0) ∧
    (j.pkt ≠ 0 → ¬ fits → s.endJob j moved done = (s.dropJob j).failLater j.queue j.index 6) := by
  intro ended repair fits
  have ends : s.jobFits j = true → s.endJob j moved done = if j.pkt = 0 then ended (done s) else
      (if repair then (ended (done s)).resultRecord j.queue (pk j.pkt 0x20 8) 0 (pk j.pkt 0x10 1) moved 0 else ended (done s)).completeLater j.queue j.index 0 :=
    fun h => if_neg (by simp [h])
  refine ⟨fun h => ?_, fun h hr => ?_, fun h hr hf => ?_, fun h hf => ?_⟩
  · rw [ends (by simp [State.jobFits, h]), if_pos h]
  · rw [ends (by simp [State.jobFits, show pk j.pkt 0 1 ≠ 13 from hr]), if_neg h, if_neg hr]
  · rw [ends (by simp [State.jobFits, hf hr]), if_neg h, if_pos hr]
  · obtain ⟨hr, hn⟩ := Classical.not_imp.mp hf
    exact if_pos (by simp [State.jobFits, show ¬ j.pkt = 0#512 from h, show pk j.pkt 0 1 = 13 from hr, hn])

/-! ## A port's held flits (R329, R367) -/

theorem setPort_setPort (s : State) (p : Nat) (x y : Port) : (s.setPort p x).setPort p y = s.setPort p y := by
  simp only [State.setPort, Vector.setIfInBounds_setIfInBounds]

theorem setPort_port {s : State} {p : Nat} (h : p < 12) (x : Port) : (s.setPort p x).port p = x := by
  simp [State.port, State.setPort, h]

theorem press_short (x : Port) :
    Port.press { x with held := x.held.filter fun h => x.noCredit.getLsbD h.flit.chan } = { x with
      held := (x.held.filter fun h => x.noCredit.getLsbD h.flit.chan).map fun h => { h with pressed := true }
      heldCount := (x.heldCount + ((x.held.filter fun h => x.noCredit.getLsbD h.flit.chan && !h.pressed).map fun h => h.flit.size).sum) % 2 ^ 32 } := by
  have hm : ((x.held.filter fun h => x.noCredit.getLsbD h.flit.chan).map fun h => { h with pressed := h.pressed || x.noCredit.getLsbD h.flit.chan }) =
      (x.held.filter fun h => x.noCredit.getLsbD h.flit.chan).map fun h => { h with pressed := true } :=
    List.map_congr_left fun h hh => by rw [(List.mem_filter.mp hh).2, Bool.or_true]
  have hf : ((x.held.filter fun h => x.noCredit.getLsbD h.flit.chan).filter fun h => x.noCredit.getLsbD h.flit.chan && !h.pressed) =
      x.held.filter fun h => x.noCredit.getLsbD h.flit.chan && !h.pressed := by
    rw [List.filter_filter]
    exact List.filter_congr fun h _ => by cases x.noCredit.getLsbD h.flit.chan <;> simp
  simp only [Port.press, hm, hf]

theorem packetLeft_eq (s : State) (p : CollPacket) :
    s.packetLeft p = if p.origin = false ∨ s.portsHold (·.starts p.tag) = true ∨ (s.link.waiting.any fun q => q.tag == p.tag && q.origin) = true then s
      else (s.link.registered.filter fun e => e.1 == p.tag).foldl (fun (t : State) e => t.mapColl e.2 p.tag fun c => if c.orig then { c with origDone := true } else c) s := by
  unfold State.packetLeft State.originLeft
  cases p.origin with
  | false => simp
  | true => simp only [if_true, Bool.true_eq_false, false_or, Bool.or_eq_true]

/-- What a port lets go when its retraining ends, and what it holds on (R329, R367). -/
theorem laneRetrainDone_spec {s : State} {port : BitVec 4} (hp : port.toNat < 12) (hr : (s.port port.toNat).retraining = true) :
    let x := s.port port.toNat
    let short := fun (h : HeldFlit) => x.noCredit.getLsbD h.flit.chan
    let goes := (x.held.filter fun h => !short h).map fun h => h.flit
    let u := s.setPort port.toNat { x with
      retraining := false, held := (x.held.filter short).map fun h => { h with pressed := true }
      heldCount := (x.heldCount + ((x.held.filter fun h => short h && !h.pressed).map fun h => h.flit.size).sum) % 2 ^ 32 }
    let t : State := { u with link := { s.link with out := s.link.out ++ goes.map fun f => (port.toNat, f.plain) } }
    let left := goes.foldl (fun (t : State) f => match f with
      | .coll p => t.packetLeft p
      | _ => t) t
    exec (.laneRetrainDone port) s = .next ((left.allNodes.filter fun n => !n.eng.aborts.isEmpty).foldl (fun (t : State) n => t.mapNode n.desc.uid fun m =>
      { m with eng := { m.eng with aborts := m.eng.aborts.filter fun tag => t.portsHold (· == .abort tag) } }) left) := by
  intro x short goes u t left
  have he : exec (.laneRetrainDone port) s = .next ((s.setPort port.toNat { x with retraining := false }).releaseFlits port.toNat) :=
    if_neg fun h => h.elim (by omega) (by simp [hr])
  rw [he]
  unfold State.releaseFlits
  dsimp only
  rw [setPort_port hp, setPort_setPort]
  have hx : ({ x with retraining := false } : Port).holds = fun f => x.noCredit.getLsbD f.chan := funext fun f => Bool.false_or _
  have hpress := press_short { x with retraining := false }
  simp only [hx]
  rw [show Port.press { ({ x with retraining := false } : Port) with held := x.held.filter fun h => x.noCredit.getLsbD h.flit.chan } = _ from hpress]
  rfl

/-- Settles O59. -/
theorem serviceEvents : Obligations.ServiceEvents := by
  unfold Obligations.ServiceEvents
  intro s core slot chan bank row lost port lane j c
  refine ⟨fun b ha hb => ?_, fun ha hc => ?_, engineCheckFail_none, fun h => ?_, fun st b => ⟨fun h => ?_, fun h => ?_⟩, fun h => ?_, fun h => ⟨fun h0 => ?_, fun h1 => ?_⟩, fun h => ?_,
    fun h => ?_, fun h => ?_, endJob_spec s j, ⟨fun h => ?_, fun h => ?_⟩, fun hp hr => ?_, fun h => ?_, fun hp hl hu hd => ?_, fun h => ?_⟩
  · intro st emap t soon
    have hcount : t.failCount st b = s.failCount st b + 1 := (checkFailed_failCount s c b slot st b).trans (if_pos ⟨rfl, rfl⟩)
    have hstate : t.halfState st b = if s.halfState st b = .good then .split else s.halfState st b := by
      refine (checkFailed_halfState s c b slot st b).trans (if_congr ?_ rfl rfl)
      simp [st]
    have hsoon : soon ↔ 64 ≤ t.failCount st b ∧ t.halfState st b = .split := by
      rw [hcount, hstate]
      cases hg : s.halfState st b <;> simp [soon, hg]
    refine ⟨fun h => ?_, fun h => ?_, hstate, hcount, fun st' b' hn => ⟨?_, ?_⟩, fun e he => ?_, fun i y plan he => ?_⟩
    · exact (engineCheckFail_some ha hb).trans (congrArg _ (if_neg fun hs => h (hsoon.mpr hs)))
    · exact (engineCheckFail_some ha hb).trans (congrArg _ (if_pos (hsoon.mp h)))
    · exact (checkFailed_halfState s c b slot st' b').trans (if_neg fun k => hn.elim (fun hs => hs k.1) fun hs => hs k.2.1)
    · exact (checkFailed_failCount s c b slot st' b').trans (if_neg fun k => hn.elim (fun hs => hs k.1) fun hs => hs k.2)
    · simp only [State.ownRebind, he]
    · simp only [State.ownRebind, he]
  · have hl : Config.freeNat s.free % c.halves.length < c.halves.length := Nat.mod_lt _ (List.length_pos_iff.mpr hc)
    exact ⟨_, engineCheckFail_some ha (List.getElem?_eq_getElem hl)⟩
  · rw [exec_rebindDone, execRebindDone, h]
  · exact (rebind_halfState s j st b).trans (if_pos h)
  · exact (rebind_halfState s j st b).trans (if_neg h)
  · rw [exec_rebindDone, execRebindDone, h]
  · rw [exec_bindDrainDone, execBindDrainDone, h]
    simp only [h0, if_true]
  · rw [exec_bindDrainDone, execBindDrainDone, h]
    simp [h1]
  · rw [exec_bindDrainDone, execBindDrainDone, h]
  · rw [exec_coreRetireDrainDone, execCoreRetireDrainDone, h]
  · rw [exec_coreRetireDrainDone, execCoreRetireDrainDone, h]
  · intro t
    have he : exec (.dramSoftRepair chan bank row lost) s = .next (if t.repairRoom chan.toNat = true then t.softRepair chan.toNat bank.toNat row.toNat else t.noteChan chan.toNat 3) :=
      if_neg (by simpa [and_assoc] using h)
    exact ⟨fun hr => he.trans (congrArg _ (if_pos hr)), fun hr => he.trans (congrArg _ (if_neg (by simp [hr])))⟩
  · exact if_pos (by simpa [and_assoc] using h)
  · intro short goes u t left
    refine (laneRetrainDone_spec hp hr).trans ?_
    simp only [packetLeft_eq]
    rfl
  · exact if_pos (h.imp_right fun hr => by simp [hr])
  · exact if_neg (by simp [hu, hd]; omega)
  · exact if_pos (by simpa using h)
/-! # Command packets (R73, R77 to R90)

## The last step of a queue's packet (R77 to R79) -/

/-- A packet is of a row's type, and operation where the row has one. -/
def ofRow (p : BitVec 512) (ty : Nat) (sub : Option Nat) : Bool :=
  pk p 0 1 == ty && (match sub with
    | some k => pk p 0x10 1 == k
    | none => true)

theorem ofRow_iff {p : BitVec 512} {ty : Nat} {sub : Option Nat} : ofRow p ty sub = true ↔ pk p 0 1 = ty ∧ ∀ k, sub = some k → pk p 0x10 1 = k := by
  cases sub <;> simp [ofRow]

theorem packetRow_refused {s : State} {p : BitVec 512} {ty : Nat} {sub : Option Nat} (h : ofRow p ty sub = false ∨ s.svc.phase < 3) (row : String) (src : PacketSource) :
    s.packetRow row ty sub src p = .fault (.notEnabled row) :=
  if_pos (Bool.or_eq_true _ _ ▸ h.imp (fun h => Bool.not_eq_true' _ ▸ h) fun h => decide_eq_true h)

/-- A packet row of a queue whose packet is of the row's type, in a module whose Awl runs. -/
theorem packetRow_queue {s : State} {p : BitVec 512} {ty : Nat} {sub : Option Nat} (h : ofRow p ty sub = true) (hp : 3 ≤ s.svc.phase) (row : String) (q : BitVec 6) :
    s.packetRow row ty sub (.queue q) p = match (s.queue q).cur with
      | some c => if c.pkt = p ∧ !c.waiting then .next (s.lastStep q c.index p) else .fault (.notEnabled row)
      | none => if s.headStep q = .start p then .next ((s.mapQueue q fun x => { x with st := .active }).lastStep q (s.queue q).head p) else .fault (.notEnabled row) :=
  if_neg fun hn => (Bool.or_eq_true _ _ ▸ hn).elim (fun hn => by
    have hn : (!ofRow p ty sub) = true := hn
    simp [h] at hn) fun hn => by
    have := of_decide_eq_true hn
    omega

theorem packetRow_atLast {s : State} {q : BitVec 6} {idx : BitVec 32} {p : BitVec 512} {ty : Nat} {sub : Option Nat} (h : s.atLastStep q idx p ty sub) (row : String) :
    s.packetRow row ty sub (.queue q) p = .next (s.lastStep q idx p) := by
  obtain ⟨hphase, ⟨c, hc, rfl, rfl, hw⟩, hty⟩ := h
  rw [packetRow_queue (ofRow_iff.mpr hty) hphase, hc]
  exact if_pos ⟨rfl, by rw [hw]; rfl⟩

theorem lastStep_error {s t : State} {q : BitVec 6} {idx : BitVec 32} {p : BitVec 512} {e : BitVec 16} (h : s.performPacket q idx p = (t, .error e)) :
    s.lastStep q idx p = t.inError q p e := by simp only [State.lastStep, h]; rfl

theorem lastStep_tokens {s t : State} {q : BitVec 6} {idx : BitVec 32} {p : BitVec 512} (h : s.performPacket q idx p = (t, .tokens)) :
    s.lastStep q idx p = t.mapQueue q fun x => { x with st := .waiting, cur := none } := by simp only [State.lastStep, h]

theorem lastStep_hold {s t : State} {q : BitVec 6} {idx : BitVec 32} {p : BitVec 512} (h : s.performPacket q idx p = (t, .hold)) :
    s.lastStep q idx p = t.inProgress q idx p 1 false := by simp only [State.lastStep, h]

theorem lastStep_done {s t : State} {q : BitVec 6} {idx : BitVec 32} {p : BitVec 512} {st : BitVec 16} (h : s.performPacket q idx p = (t, .done st)) :
    s.lastStep q idx p = t.retired q idx p st := by simp only [State.lastStep, h]; rfl

theorem lastStep_graph {s t : State} {q : BitVec 6} {idx : BitVec 32} {p : BitVec 512} {g : Nat} (h : s.performPacket q idx p = (t, .graph g)) :
    s.lastStep q idx p = t.leftWaiting q idx p g := by simp only [State.lastStep, h]; rfl

theorem lastStep_later {s t : State} {q : BitVec 6} {idx : BitVec 32} {p : BitVec 512} (h : s.performPacket q idx p = (t, .later)) :
    s.lastStep q idx p = t.underWay q idx p := by simp only [State.lastStep, h]; rfl

/-! ## What a packet of each type does (R80) -/

/-- How a packet that writes ends (R263, R264). -/
def writeEnd (s : State) (q : BitVec 6) (idx : BitVec 32) (r : Except (BitVec 16) (State × List Nat)) : State × PacketEnd :=
  match r with
  | .error e => (s, .error e)
  | .ok (t, ks) => if s.packetStale q then (s.dropWrite, .done 0) else t.written q idx ks

/-- The types, and operations of a type, of packets that read. -/
def packetReads (p : BitVec 512) : Bool :=
  pk p 0 1 == 1 || pk p 0 1 == 2 || (pk p 0 1 == 4 && pk p 0x20 1 == 1) || (pk p 0 1 == 5 && pk p 0x19 1 == 1) || pk p 0 1 == 8 || pk p 0 1 == 14

theorem performPacket_staleRead {s : State} {q : BitVec 6} {idx : BitVec 32} {p : BitVec 512} (hs : s.packetStale q = true) (hr : packetReads p = true) :
    s.performPacket q idx p = (s, .error 6) := by
  unfold State.performPacket
  exact if_pos (by rw [hs]; exact hr)

section
variable {s : State} {q : BitVec 6} {idx : BitVec 32} {p : BitVec 512}

theorem performPacket_write (ht : pk p 0 1 = 3) : s.performPacket q idx p =
    writeEnd s q idx (s.awlWrite q true (pk p 0x10 8) ((leBytes (pk p 0x20 32) (pk p 0x18 1)).map fun b => (b, false))) := by
  simp [State.performPacket, ht]
  rfl

section
variable (hn : ¬ (s.packetStale q = true ∧ packetReads p = true))
include hn

theorem performPacket_signal (ht : pk p 0 1 = 4) : s.performPacket q idx p = writeEnd s q idx (s.awlSignal q true (pk p 0x10 8) (pk p 0x18 8) (pk p 0x20 1)) := by
  unfold State.performPacket
  refine (if_neg fun h => hn (Bool.and_eq_true_iff.mp h)).trans ?_
  simp only [ht]
  rfl

/-- WRITE_SIGNAL writes its data, and then its signal (R81). -/
theorem performPacket_writeSignal (ht : pk p 0 1 = 5) : s.performPacket q idx p = writeEnd s q idx
    (match s.awlWrite q true (pk p 0x10 8) ((leBytes (pk p 0x20 16) (pk p 0x18 1)).map fun b => (b, false)) with
     | .error e => .error e
     | .ok (t, ks) => match t.awlSignal q true (pk p 0x30 8) (pk p 0x38 8) (pk p 0x19 1) with
       | .error e => .error e
       | .ok (u, ks') => .ok (u, ks ++ ks')) := by
  unfold State.performPacket
  refine (if_neg fun h => hn (Bool.and_eq_true_iff.mp h)).trans ?_
  simp only [ht]
  cases s.awlWrite q true (pk p 0x10 8) ((leBytes (pk p 0x20 16) (pk p 0x18 1)).map fun b => (b, false)) with
  | error e => rfl
  | ok r =>
    obtain ⟨t, ks⟩ := r
    dsimp only
    cases t.awlSignal q true (pk p 0x30 8) (pk p 0x38 8) (pk p 0x19 1) with
    | error e => rfl
    | ok r => rfl

theorem performPacket_copy (ht : pk p 0 1 = 8) : s.performPacket q idx p = writeEnd s q idx (s.awlCopy q (pk p 0x10 8) (pk p 0x18 8) (pk p 0x20 4)) := by
  unfold State.performPacket
  refine (if_neg fun h => hn (Bool.and_eq_true_iff.mp h)).trans ?_
  simp only [ht]
  rfl

theorem performPacket_attest (ht : pk p 0 1 = 14) : s.performPacket q idx p = s.attestPacket q idx p := by
  unfold State.performPacket
  refine (if_neg fun h => hn (Bool.and_eq_true_iff.mp h)).trans ?_
  simp only [ht]

end

theorem performPacket_tokenGive (ht : pk p 0 1 = 6) : s.performPacket q idx p = s.tokenGive q (pk p 0x10 1) (pk p 0x12 2) := by
  simp [State.performPacket, ht]

theorem performPacket_tokenWait (ht : pk p 0 1 = 7) : s.performPacket q idx p = s.tokenWait q (pk p 0x10 1) (pk p 0x12 2) := by
  simp [State.performPacket, ht]

theorem performPacket_fence (ht : pk p 0 1 = 9) : s.performPacket q idx p = if (pk p 0x11 1).testBit 1 && s.unseen q then (s, .hold) else (s, .done 0) := by
  simp [State.performPacket, ht]

theorem performPacket_qreset (ht : pk p 0 1 = 10) : s.performPacket q idx p =
    if (s.queue (BitVec.ofNat 6 (pk p 0x10 1))).st = .disabled then (s, .error 3)
    else ((s.startReset (BitVec.ofNat 6 (pk p 0x10 1)) (BitVec.ofNat 32 (pk p 0x14 4)) (some (q, idx, p))).settle, .later) := by
  simp [State.performPacket, ht]

theorem performPacket_slice (ht : pk p 0 1 = 11) : s.performPacket q idx p =
    (s.sliceChange (BitVec.ofNat 6 (pk p 0x10 1)) (BitVec.ofNat 3 (pk p 0x11 1)) (BitVec.ofNat 16 (pk p 0x12 2)), .done 0) := by
  simp [State.performPacket, ht]

theorem performPacket_bind (ht : pk p 0 1 = 12) : s.performPacket q idx p = s.bindPacket q idx p := by
  simp [State.performPacket, ht]

theorem performPacket_repair (ht : pk p 0 1 = 13) : s.performPacket q idx p = s.repairPacket q idx p := by
  simp [State.performPacket, ht]

/-- How a launch packet ends (R80, R393). -/
def launchPacketEnd (q : BitVec 6) (p : BitVec 512) (r : State × LaunchEnd) : State × PacketEnd :=
  match r with
  | (s, .graph g) => (s, .graph g)
  | (s, .xlate) => (s, .error 6)
  | (s, .refuse c n) => (s.postRefusal q (headerJcb p) c n, .done (BitVec.ofNat 16 c))

theorem performPacket_launch (ht : pk p 0 1 = 1 ∨ pk p 0 1 = 2) (hs : s.packetStale q = false) :
    s.performPacket q idx p = launchPacketEnd q p (s.launchPacket q true 0 p) := by
  unfold State.performPacket
  refine (if_neg (by simp [hs])).trans ?_
  rcases ht with ht | ht
  · simp only [ht]
    rfl
  · simp only [ht]
    rfl

end

/-- A write of the Awl, from how it ends. -/
theorem awlWrites_of_writeEnd {i : Instr} {s : State} {q : BitVec 6} {idx : BitVec 32} {p : BitVec 512} {reads : Prop} {r : Except (BitVec 16) (State × List Nat)}
    (hx : exec i s = .next (s.lastStep q idx p)) (hr : reads ↔ packetReads p = true)
    (hw : ¬ (s.packetStale q = true ∧ packetReads p = true) → s.performPacket q idx p = writeEnd s q idx r) : AwlWrites i s q idx p reads r := by
  refine ⟨fun hs h => ?_, fun hn e he => ?_, fun hs hn t ks ht => ?_, fun hs t ht => ?_, fun hs t k ks ht => ?_⟩
  · rw [hx, lastStep_error (performPacket_staleRead hs (hr.mp h))]
  · rw [hx, lastStep_error ((hw fun h => hn ⟨h.1, hr.mpr h.2⟩).trans (by rw [he]; rfl))]
  · rw [hx, lastStep_done ((hw fun h => hn (hr.mpr h.2)).trans (by rw [ht]; exact if_pos hs))]
  · rw [hx, lastStep_done ((hw fun h => by simp [hs] at h).trans (by rw [ht]; exact if_neg (by simp [hs])))]
  · rw [hx, lastStep_later ((hw fun h => by simp [hs] at h).trans (by rw [ht]; exact if_neg (by simp [hs])))]

theorem tokenGive_spec (s : State) (q : BitVec 6) (n count : Nat) (l : Link) (hl : s.awl.links[n]? = some l) :
    (l.en = true → l.prod = q → l.count.toNat + count ≤ 65535 → s.tokenGive q n count = (s.setLink n { l with count := BitVec.ofNat 16 (l.count.toNat + count) }, .done 0)) ∧
    (l.en = true → l.prod = q → 65535 < l.count.toNat + count → s.tokenGive q n count = (s, .error 5)) ∧
    (l.en = false ∨ l.prod ≠ q → s.tokenGive q n count = (s, .error 4)) := by
  refine ⟨fun he hp hc => ?_, fun he hp hc => ?_, fun h => ?_⟩
  · simp [State.tokenGive, State.linkFor, hl, he, hp, Nat.not_lt.mpr hc]
  · simp [State.tokenGive, State.linkFor, hl, he, hp, hc]
  · have : ¬ (l.en = true ∧ l.prod = q) := fun k => h.elim (fun h => by simp [h] at k) fun h => h k.2
    simp [State.tokenGive, State.linkFor, hl, this]

theorem tokenWait_spec (s : State) (q : BitVec 6) (n count : Nat) (l : Link) (hl : s.awl.links[n]? = some l) :
    (l.en = true → l.cons = q → count ≤ l.count.toNat → s.tokenWait q n count = (s.setLink n { l with count := BitVec.ofNat 16 (l.count.toNat - count) }, .done 0)) ∧
    (l.en = true → l.cons = q → l.count.toNat < count → s.tokenWait q n count = (s, .tokens)) ∧
    (l.en = false ∨ l.cons ≠ q → s.tokenWait q n count = (s, .error 4)) := by
  refine ⟨fun he hp hc => ?_, fun he hp hc => ?_, fun h => ?_⟩
  · simp [State.tokenWait, State.linkFor, hl, he, hp, Nat.not_lt.mpr hc]
  · simp [State.tokenWait, State.linkFor, hl, he, hp, hc]
  · have : ¬ (l.en = true ∧ l.cons = q) := fun k => h.elim (fun h => by simp [h] at k) fun h => h k.2
    simp [State.tokenWait, State.linkFor, hl, this]

/-! ## A launch of nodes that all pass their checks (R64, R65, R67, R393) -/

theorem launchImage_known {s : State} {sp : BitVec 6} {host : Bool} {addr : Nat} {img : Image} (h : s.imageKnown sp host addr img) :
    s.launchImage sp host addr = (s, .ok img) := by
  obtain ⟨h, l, room, e, hh, hr, he, hl, hi, rfl⟩ := h
  simp only [State.launchImage, hh, hr, he, hl, hi, if_true]

theorem launchNodeCheck_ok {s : State} {sp : BitVec 6} {host : Bool} {addr index : Nat} {solo : Bool} {seed step : BitVec 32} {c : Checked}
    (h : s.launchable sp host addr index solo seed step c) : s.launchNodeCheck sp host addr index solo seed step = (s, .ok c) := by
  obtain ⟨d, sl, img, hd, hres, hsl, hsucc, himg, hn, hops, hk, hsolo, hp, hc, hdesc⟩ := h
  have hs : ((List.range (fieldB d 0x18 2)).map fun i => fieldB sl (4 * i) 4).any (fun x => decide (2 ^ 20 ≤ x)) = false := by
    simp only [List.any_eq_false, List.mem_map, List.mem_range, decide_eq_true_eq]
    rintro x ⟨i, hi, rfl⟩
    exact Nat.not_le.mpr (hsucc i hi)
  have ho : (!(((List.range (fieldB d 0x1A 1)).map (nodeHandle d)).zip img.opnds).all fun e => operandAgrees img.unstg e.1 e.2) = false := by
    rw [Bool.not_eq_false', List.all_eq_true]
    exact hops
  have hq : (solo && (fieldB d 6 2 != 0 || fieldB d 0x18 2 != 0)) = false := by
    cases solo with
    | false => rfl
    | true => simp [hsolo rfl]
  unfold State.launchNodeCheck
  simp only [hd, hres, hsl, hs, launchImage_known himg, Bool.not_true, Bool.false_eq_true, if_false]
  refine (if_neg (not_not_intro hn)).trans ((if_neg (by simp [ho, hk])).trans ((if_neg (by simp [hq])).trans ?_))
  obtain ⟨desc, pred, succ⟩ := c
  dsimp only at hp hc hdesc
  rw [hp, hc, hdesc]

theorem launchNodes_ok {s : State} {sp : BitVec 6} {host : Bool} {addr : Nat} {solo : Bool} {seed step : BitVec 32} (l : List Checked) (i : Nat)
    (h : ∀ k c, l[k]? = some c → s.launchable sp host (addr + 512 * (i + k)) (i + k) solo seed step c) :
    s.launchNodes sp host addr solo seed step i l.length = (s, .ok l) := by
  induction l generalizing i with
  | nil => rfl
  | cons c l ih =>
    have hrest := ih (i + 1) fun k c hk => by simpa only [Nat.add_right_comm i 1 k, Nat.add_assoc] using h (k + 1) c (by simpa using hk)
    simp only [List.length_cons, State.launchNodes, show s.launchNodeCheck sp host (addr + 512 * i) i solo seed step = _ from launchNodeCheck_ok (h 0 c rfl), hrest]

theorem launch_ok {s : State} {sp : BitVec 6} {host : Bool} {addr n : Nat} {solo : Bool} {seed step : BitVec 32} (jcb : Option (BitVec 12)) (parent : Nat) (l : List Checked)
    (hn : l.length = n) (h : ∀ k c, l[k]? = some c → s.launchable sp host (addr + 512 * k) k solo seed step c)
    (hg : solo = false → graphBadCount l = none ∧ graphCycle l = none) :
    s.launch sp host addr n solo seed step jcb parent = ((s.createNodes sp jcb parent l).2, .graph s.awl.nextGraph) := by
  have hb : (if solo then none else graphBadCount l) = none := by
    cases solo with
    | false => exact (hg rfl).1
    | true => rfl
  have hc : (if solo then none else graphCycle l) = none := by
    cases solo with
    | false => exact (hg rfl).2
    | true => rfl
  have hl := launchNodes_ok l 0 (s := s) (sp := sp) (host := host) (addr := addr) (solo := solo) (seed := seed) (step := step) fun k c hk => by simpa using h k c hk
  rw [hn] at hl
  simp only [State.launch, hl, hb, hc]
  rfl

/-! ## The nodes that a launch makes (R66, R67) -/

theorem mem_nodesPut_self (l : List Node) (n : Node) : n ∈ nodesPut l n := by
  induction l with
  | nil => exact List.mem_singleton.mpr rfl
  | cons d rest ih =>
    unfold nodesPut
    split_ifs
    · exact List.mem_cons_self
    · exact List.mem_cons_self
    · exact List.mem_cons_of_mem _ ih

theorem mem_nodesPut_of_mem {l : List Node} {n x : Node} (h : x ∈ l) (hu : x.desc.uid ≠ n.desc.uid) : x ∈ nodesPut l n := by
  induction l with
  | nil => exact nomatch h
  | cons d rest ih =>
    unfold nodesPut
    split_ifs with h1 h2
    · exact List.mem_cons_of_mem _ h
    · rcases List.mem_cons.mp h with rfl | h
      · exact absurd h2.symm hu
      · exact List.mem_cons_of_mem _ h
    · rcases List.mem_cons.mp h with rfl | h
      · exact List.mem_cons_self
      · exact List.mem_cons_of_mem _ (ih h)

/-- Nodes put into a list stand there, where no two have one number. -/
theorem mem_foldl_nodesPut (new : List Node) (old : List Node) (hd : new.Pairwise fun a b => a.desc.uid ≠ b.desc.uid) : ∀ n ∈ new, n ∈ new.foldl nodesPut old := by
  induction new generalizing old with
  | nil => exact fun n h => nomatch h
  | cons m rest ih =>
    obtain ⟨hm, hr⟩ := List.pairwise_cons.mp hd
    have kept : ∀ (l : List Node) (old : List Node) (x : Node), x ∈ old → (∀ b ∈ l, x.desc.uid ≠ b.desc.uid) → x ∈ l.foldl nodesPut old := by
      intro l
      induction l with
      | nil => exact fun _ _ h _ => h
      | cons b l ihl => exact fun old x h hl => ihl _ x (mem_nodesPut_of_mem h (hl b List.mem_cons_self)) fun c hc => hl c (List.mem_cons_of_mem _ hc)
    intro n hn
    rcases List.mem_cons.mp hn with rfl | hn
    · exact kept rest _ n (mem_nodesPut_self _ _) hm
    · exact ih _ hr n hn

theorem createNodes_mem (s : State) (sp : BitVec 6) (jcb : Option (BitVec 12)) (parent : Nat) (l : List Checked) (k : Nat) (c : Checked) (hk : l[k]? = some c) :
    ∃ m ∈ (s.createNodes sp jcb parent l).2.nodes, m.desc.uid = s.awl.nextUid + k ∧ m.desc.graph = s.awl.nextGraph ∧ m.desc.args = c.desc.args ∧
      m.desc.handles = c.desc.handles ∧ m.desc.image = c.desc.image ∧ m.run.remaining = c.pred ∧ m.run.st = if c.pred = 0 then NodeState.ready else .waiting := by
  refine ⟨_, mem_foldl_nodesPut _ s.nodes ?_ _ (List.mem_map_of_mem (List.mem_iff_getElem?.mpr ⟨k, by rw [List.getElem?_zipIdx, hk]; rfl⟩ : (c, 0 + k) ∈ l.zipIdx)),
    by rw [Nat.zero_add], rfl, rfl, rfl, rfl, rfl, rfl⟩
  rw [List.pairwise_map]
  refine List.Pairwise.imp ?_ (R := fun a b => a.2 < b.2) ?_
  · exact fun h => by simp only [ne_eq, Nat.add_left_cancel_iff]; omega
  · have hs : (l.zipIdx.map Prod.snd).Pairwise (· < ·) := List.zipIdx_map_snd 0 l ▸ List.pairwise_lt_range'
    exact List.pairwise_map.mp hs

/-- The rows of packets that a queue or an inbox may hold, but for the operations of BIND, REPAIR and ATTEST: type, word and name. -/
def plainRows (src : PacketSource) (p : BitVec 512) : List (Nat × Instr × String) :=
  [(1, .launchGraph src p, "LAUNCH_GRAPH"), (2, .launchNode src p, "LAUNCH_NODE"), (3, .write src p, "WRITE"),
    (4, .signal src p, "SIGNAL"), (5, .writeSignal src p, "WRITE_SIGNAL"), (6, .tokenGive src p, "TOKEN_GIVE"), (7, .tokenWait src p, "TOKEN_WAIT"),
    (8, .copy src p, "COPY"), (9, .fencePacket src p, "FENCE_PACKET"), (10, .qreset src p, "QRESET"), (11, .slice src p, "SLICE")]

theorem exec_plainRow {src : PacketSource} {p : BitVec 512} (s : State) : ∀ r ∈ plainRows src p, exec r.2.1 s = s.packetRow r.2.2 r.1 none src p := by
  simp only [plainRows, List.forall_mem_cons]
  exact ⟨rfl, rfl, rfl, rfl, rfl, rfl, rfl, rfl, rfl, rfl, rfl, fun _ h => nomatch h⟩

/-- What a launch packet asks for: its nodes, whether it launches one alone, its seed and its step (R80). -/
theorem launchPacket_eq {s : State} {q : BitVec 6} {host : Bool} {parent : Nat} {p : BitVec 512} {type : Nat} (ht : type = 1 ∨ type = 2) (hp : pk p 0 1 = type) :
    s.launchPacket q host parent p = s.launch q host (pk p 0x10 8) (if type = 1 then pk p 0x18 4 else 1) (type == 2)
      (BitVec.ofNat 32 (if type = 1 then pk p 0x1C 4 else pk p 0x18 4)) (BitVec.ofNat 32 (if type = 1 then pk p 0x20 4 else pk p 0x1C 4)) (headerJcb p) parent := by
  rcases ht with rfl | rfl
  · simp [State.launchPacket, hp]
  · simp [State.launchPacket, hp]

/-- The packets of a queue at their last step (R80). -/
theorem hostPackets_lastStep (s : State) (q : BitVec 6) (idx : BitVec 32) (p : BitVec 512) :
    let at_ := fun (type : Nat) => s.atLastStep q idx p type none
    let src : PacketSource := .queue q
    let n := pk p 0x10 1
    let count := pk p 0x12 2
    (at_ 3 → AwlWrites (.write src p) s q idx p False (s.awlWrite q true (pk p 0x10 8) ((leBytes (pk p 0x20 32) (pk p 0x18 1)).map fun b => (b, false)))) ∧
    (at_ 4 → AwlWrites (.signal src p) s q idx p (pk p 0x20 1 = 1) (s.awlSignal q true (pk p 0x10 8) (pk p 0x18 8) (pk p 0x20 1))) ∧
    (at_ 8 → AwlWrites (.copy src p) s q idx p True (s.awlCopy q (pk p 0x10 8) (pk p 0x18 8) (pk p 0x20 4))) ∧
    (at_ 5 → AwlWrites (.writeSignal src p) s q idx p (pk p 0x19 1 = 1)
      (match s.awlWrite q true (pk p 0x10 8) ((leBytes (pk p 0x20 16) (pk p 0x18 1)).map fun b => (b, false)) with
       | .error e => .error e
       | .ok (t, ks) => match t.awlSignal q true (pk p 0x30 8) (pk p 0x38 8) (pk p 0x19 1) with
         | .error e => .error e
         | .ok (u, ks') => .ok (u, ks ++ ks'))) ∧
    (at_ 6 → ∀ l, s.awl.links[n]? = some l →
      (l.en = true → l.prod = q → l.count.toNat + count ≤ 65535 → exec (.tokenGive src p) s =
        .next ((s.setLink n { l with count := BitVec.ofNat 16 (l.count.toNat + count) }).retired q idx p 0)) ∧
      (l.en = true → l.prod = q → 65535 < l.count.toNat + count → exec (.tokenGive src p) s = .next (s.inError q p 5)) ∧
      (l.en = false ∨ l.prod ≠ q → exec (.tokenGive src p) s = .next (s.inError q p 4))) ∧
    (at_ 7 → ∀ l, s.awl.links[n]? = some l →
      (l.en = true → l.cons = q → count ≤ l.count.toNat → exec (.tokenWait src p) s =
        .next ((s.setLink n { l with count := BitVec.ofNat 16 (l.count.toNat - count) }).retired q idx p 0)) ∧
      (l.en = true → l.cons = q → l.count.toNat < count → exec (.tokenWait src p) s = .next (s.mapQueue q fun x => { x with st := .waiting, cur := none })) ∧
      (l.en = false ∨ l.cons ≠ q → exec (.tokenWait src p) s = .next (s.inError q p 4))) := by
  intro at_ src n count
  refine ⟨fun h => ?_, fun h => ?_, fun h => ?_, fun h => ?_, fun h l hl => ?_, fun h l hl => ?_⟩
  · exact awlWrites_of_writeEnd (packetRow_atLast h _) (by simp [packetReads, h.2.2.1]) fun _ => performPacket_write h.2.2.1
  · exact awlWrites_of_writeEnd (packetRow_atLast h _) (by simp [packetReads, h.2.2.1]) fun hn => performPacket_signal hn h.2.2.1
  · exact awlWrites_of_writeEnd (packetRow_atLast h _) (by simp [packetReads, h.2.2.1]) fun hn => performPacket_copy hn h.2.2.1
  · exact awlWrites_of_writeEnd (packetRow_atLast h _) (by simp [packetReads, h.2.2.1]) fun hn => performPacket_writeSignal hn h.2.2.1
  · have hx : exec (.tokenGive src p) s = .next (s.lastStep q idx p) := packetRow_atLast h _
    obtain ⟨h1, h2, h3⟩ := tokenGive_spec s q n count l hl
    have hp := performPacket_tokenGive (s := s) (q := q) (idx := idx) h.2.2.1
    exact ⟨fun he hq hc => by rw [hx, lastStep_done (hp.trans (h1 he hq hc))], fun he hq hc => by rw [hx, lastStep_error (hp.trans (h2 he hq hc))],
      fun hn => by rw [hx, lastStep_error (hp.trans (h3 hn))]⟩
  · have hx : exec (.tokenWait src p) s = .next (s.lastStep q idx p) := packetRow_atLast h _
    obtain ⟨h1, h2, h3⟩ := tokenWait_spec s q n count l hl
    have hp := performPacket_tokenWait (s := s) (q := q) (idx := idx) h.2.2.1
    exact ⟨fun he hq hc => by rw [hx, lastStep_done (hp.trans (h1 he hq hc))], fun he hq hc => by rw [hx, lastStep_tokens (hp.trans (h2 he hq hc))],
      fun hn => by rw [hx, lastStep_error (hp.trans (h3 hn))]⟩

theorem hostPackets_launch {s : State} {q : BitVec 6} {idx : BitVec 32} {p : BitVec 512} {type : Nat} {i : Instr} (ht : type = 1 ∨ type = 2) (h : s.atLastStep q idx p type none)
    (hx : exec i s = .next (s.lastStep q idx p)) :
    let solo : Bool := type == 2
    let nodes := if type = 1 then pk p 0x18 4 else 1
    let seed := BitVec.ofNat 32 (if type = 1 then pk p 0x1C 4 else pk p 0x18 4)
    let step := BitVec.ofNat 32 (if type = 1 then pk p 0x20 4 else pk p 0x1C 4)
    let r := s.launch q true (pk p 0x10 8) nodes solo seed step (headerJcb p) 0
    (s.packetStale q = true → exec i s = .next (s.inError q p 6)) ∧
    (s.packetStale q = false →
      (∀ t g, r = (t, .graph g) → exec i s = .next (t.leftWaiting q idx p g)) ∧
      (∀ t, r = (t, .xlate) → exec i s = .next (t.inError q p 6)) ∧
      (∀ t c m, r = (t, .refuse c m) → exec i s = .next ((t.postRefusal q (headerJcb p) c m).retired q idx p (BitVec.ofNat 16 c)))) := by
  intro solo nodes seed step r
  have hty : pk p 0 1 = type := h.2.2.1
  have hr : packetReads p = true := by rcases ht with rfl | rfl <;> simp [packetReads, hty]
  refine ⟨fun hs => by rw [hx, lastStep_error (performPacket_staleRead hs hr)], fun hs => ?_⟩
  have hp : s.performPacket q idx p = launchPacketEnd q p r := by rw [performPacket_launch (hty ▸ ht) hs, launchPacket_eq ht hty]
  exact ⟨fun t g hg => by rw [hx, lastStep_graph (hp.trans (by rw [hg]; rfl))], fun t hg => by rw [hx, lastStep_error (hp.trans (by rw [hg]; rfl))],
    fun t c m hg => by rw [hx, lastStep_done (hp.trans (by rw [hg]; rfl))]⟩

/-- A packet of the inbox at its last step (R88, R109). -/
theorem packetRow_inbox {s : State} {uid core : Nat} {p : BitVec 512} {rest : List InboxItem} {ty : Nat} (hi : s.awl.inbox = .packet uid core p :: rest) (hp : 3 ≤ s.svc.phase)
    (ht : pk p 0 1 = ty) (row : String) :
    s.packetRow row ty none (.inbox uid) p = .next (({ s with awl := { s.awl with inbox := rest, inboxStep := none } } : State).performInbox uid p (s.inboxAsgen uid)) := by
  unfold State.packetRow
  dsimp only
  rw [if_neg (by simp [ht]; omega)]
  simp only [hi, and_self, if_true, List.drop_one, List.tail_cons]

section
variable {s : State} {uid : Nat} {p : BitVec 512} {asgen : BitVec 16}

/-- The types, and operations of a type, of inbox packets that read. -/
def inboxReads (p : BitVec 512) : Bool := pk p 0 1 == 2 || (pk p 0 1 == 4 && pk p 0x20 1 == 1) || (pk p 0 1 == 5 && pk p 0x19 1 == 1)

theorem performInbox_gen (h : pk p 4 2 ≠ (s.queue (s.node uid).desc.queue).gen.toNat) :
    s.performInbox uid p asgen = s.mapQueue (s.node uid).desc.queue fun x => { x with discarded := x.discarded + 1 } := if_pos h

theorem performInbox_refused (h : pk p 4 2 = (s.queue (s.node uid).desc.queue).gen.toNat)
    (hb : (pk p 0 1 ≤ 1 ∨ 7 ≤ pk p 0 1) ∨ pk p 1 1 ≠ 0 ∨ (packetError p).isSome = true) : s.performInbox uid p asgen = s.enqBad uid p := by
  refine (if_neg (not_not_intro h)).trans (if_pos ?_)
  rcases hb with hb | hb | hb
  · simp; omega
  · simp [hb]
  · simp [hb]

/-- How an inbox packet that writes ends (R88, R263). -/
def inboxEnd (s : State) (uid : Nat) (p : BitVec 512) (asgen : BitVec 16) (r : Except (BitVec 16) (State × List Nat)) : State :=
  match r with
  | .error _ => (s.noteFaults (s.node uid).desc.queue false p).enqBad uid p
  | .ok (t, _) => if asgen != (s.space (s.node uid).desc.queue).asgen then s.dropWrite else t

section
variable (hg : pk p 4 2 = (s.queue (s.node uid).desc.queue).gen.toNat) (hc : pk p 1 1 = 0) (he : packetError p = none)
include hg hc he

theorem performInbox_staleRead (ht : 2 ≤ pk p 0 1 ∧ pk p 0 1 ≤ 6) (hs : asgen ≠ (s.space (s.node uid).desc.queue).asgen) (hr : inboxReads p = true) :
    s.performInbox uid p asgen = s.enqBad uid p := by
  refine (if_neg (not_not_intro hg)).trans ((if_neg ?_).trans (if_pos ?_))
  · simp [hc, he]; omega
  · exact Bool.and_eq_true_iff.mpr ⟨bne_iff_ne.mpr hs, hr⟩

variable (hn : ¬ (asgen ≠ (s.space (s.node uid).desc.queue).asgen ∧ inboxReads p = true))
include hn

theorem performInbox_write (ht : pk p 0 1 = 3) : s.performInbox uid p asgen = inboxEnd s uid p asgen
    (s.awlWrite (s.node uid).desc.queue false (pk p 0x10 8) ((leBytes (pk p 0x20 32) (pk p 0x18 1)).map fun b => (b, false))) := by
  refine (if_neg (not_not_intro hg)).trans ((if_neg (by simp [hc, he, ht])).trans ((if_neg fun h => hn ((Bool.and_eq_true_iff.mp h).imp_left bne_iff_ne.mp)).trans ?_))
  simp only [ht]
  rfl

theorem performInbox_signal (ht : pk p 0 1 = 4) : s.performInbox uid p asgen = inboxEnd s uid p asgen
    (s.awlSignal (s.node uid).desc.queue false (pk p 0x10 8) (pk p 0x18 8) (pk p 0x20 1)) := by
  refine (if_neg (not_not_intro hg)).trans ((if_neg (by simp [hc, he, ht])).trans ((if_neg fun h => hn ((Bool.and_eq_true_iff.mp h).imp_left bne_iff_ne.mp)).trans ?_))
  simp only [ht]
  rfl

theorem performInbox_writeSignal (ht : pk p 0 1 = 5) : s.performInbox uid p asgen = inboxEnd s uid p asgen
    (match s.awlWrite (s.node uid).desc.queue false (pk p 0x10 8) ((leBytes (pk p 0x20 16) (pk p 0x18 1)).map fun b => (b, false)) with
     | .error e => .error e
     | .ok (t, _) => t.awlSignal (s.node uid).desc.queue false (pk p 0x30 8) (pk p 0x38 8) (pk p 0x19 1)) := by
  refine (if_neg (not_not_intro hg)).trans ((if_neg (by simp [hc, he, ht])).trans ((if_neg fun h => hn ((Bool.and_eq_true_iff.mp h).imp_left bne_iff_ne.mp)).trans ?_))
  simp only [ht]
  cases s.awlWrite (s.node uid).desc.queue false (pk p 0x10 8) ((leBytes (pk p 0x20 16) (pk p 0x18 1)).map fun b => (b, false)) with
  | error e => rfl
  | ok r => rfl

theorem performInbox_tokenGive (ht : pk p 0 1 = 6) : s.performInbox uid p asgen =
    match s.tokenGive (s.node uid).desc.queue (pk p 0x10 1) (pk p 0x12 2) with
    | (t, .done _) => t
    | (t, _) => t.enqBad uid p := by
  refine (if_neg (not_not_intro hg)).trans ((if_neg (by simp [hc, he, ht])).trans ((if_neg fun h => hn ((Bool.and_eq_true_iff.mp h).imp_left bne_iff_ne.mp)).trans ?_))
  simp only [ht] <;> rfl

theorem performInbox_launch (ht : pk p 0 1 = 2) : s.performInbox uid p asgen =
    match s.launchPacket (s.node uid).desc.queue false uid p with
    | (t, .graph _) => t
    | (t, .xlate) => (t.noteFaults (s.node uid).desc.queue false p).enqBad uid p
    | (t, _) => t.enqBad uid p := by
  refine (if_neg (not_not_intro hg)).trans ((if_neg (by simp [hc, he, ht])).trans ((if_neg fun h => hn ((Bool.and_eq_true_iff.mp h).imp_left bne_iff_ne.mp)).trans ?_))
  simp only [ht] <;> rfl

end

end

theorem inboxEnd_writes {s t : State} {uid : Nat} {p : BitVec 512} {asgen : BitVec 16} {i : Instr} {r : Except (BitVec 16) (State × List Nat)}
    (hx : exec i t = .next (inboxEnd s uid p asgen r)) :
    (∀ e, r = .error e → exec i t = .next ((s.noteFaults (s.node uid).desc.queue false p).enqBad uid p)) ∧
      ∀ u ks, r = .ok (u, ks) → exec i t = .next (if asgen ≠ (s.space (s.node uid).desc.queue).asgen then s.dropWrite else u) := by
  refine ⟨fun e he => by rw [hx, he]; rfl, fun u ks hu => ?_⟩
  rw [hx, hu]
  exact congrArg _ (if_congr bne_iff_ne rfl rfl)

/-- Settles O49. -/
theorem hostPackets : Obligations.HostPackets := by
  unfold Obligations.HostPackets
  refine ⟨fun s q idx p => ?_, fun s q p => ?_, fun s uid core p rest hi hphase => ?_⟩
  · intro at_ src n count
    obtain ⟨h3, h4, h8, h5, h6, h7⟩ := hostPackets_lastStep s q idx p
    refine ⟨h3, h4, h8, h5, h6, h7, fun h => ?_, fun h => ?_, fun h => ?_, fun type ht h => ?_⟩
    · have hx : exec (.fencePacket src p) s = .next (s.lastStep q idx p) := packetRow_atLast h _
      have hp := performPacket_fence (s := s) (q := q) (idx := idx) h.2.2.1
      exact ⟨fun hr hu => by rw [hx, lastStep_hold (hp.trans (if_pos (by rw [hr, hu]; rfl)))],
        fun hn => by rw [hx, lastStep_done (hp.trans (if_neg (by rcases hn with hn | hn <;> simp [hn])))]⟩
    · intro t
      have hx : exec (.qreset src p) s = .next (s.lastStep q idx p) := packetRow_atLast h _
      have hp := performPacket_qreset (s := s) (q := q) (idx := idx) h.2.2.1
      exact ⟨fun hd => by rw [hx, lastStep_error (hp.trans (if_pos hd))], fun hd => by rw [hx, lastStep_later (hp.trans (if_neg hd))]⟩
    · have hx : exec (.slice src p) s = .next (s.lastStep q idx p) := packetRow_atLast h _
      rw [hx, lastStep_done (performPacket_slice h.2.2.1)]
    · intro i solo nodes seed step r
      have ht : type = 1 ∨ type = 2 := by simpa using ht
      have hx : exec i s = .next (s.lastStep q idx p) := by
        rcases ht with rfl | rfl
        · exact packetRow_atLast h _
        · exact packetRow_atLast h _
      obtain ⟨hstale, hends⟩ := hostPackets_launch ht h hx
      refine ⟨hstale, fun hs => ?_⟩
      obtain ⟨hgraph, hxlate, hrefuse⟩ := hends hs
      exact ⟨hgraph, hxlate, hrefuse, fun l hl hc hg => ⟨hgraph _ _ (launch_ok _ _ l hl hc hg), fun k c hk => createNodes_mem s q (headerJcb p) 0 l k c hk⟩⟩
  · intro src rows r hr
    have hx := exec_plainRow (src := src) (p := p) s r hr
    have hrow : ofRow p r.1 none = decide (pk p 0 1 = r.1) := by simp [ofRow, beq_eq_decide]
    refine ⟨fun h => hx.trans (packetRow_refused (h.imp_left fun h => by simp [hrow, h]) _ _), fun ht hphase => ⟨fun c hc => ⟨?_, ?_⟩, fun hc => ⟨?_, ?_⟩⟩⟩
    · intro hp hw
      rw [hx, packetRow_queue (by simp [hrow, ht]) hphase, hc]
      exact if_pos ⟨hp, by rw [hw]; rfl⟩
    · intro hn
      rw [hx, packetRow_queue (by simp [hrow, ht]) hphase, hc]
      exact if_neg fun h => hn.elim (fun hn => hn h.1) fun hn => by simp [hn] at h
    · intro hh
      rw [hx, packetRow_queue (by simp [hrow, ht]) hphase, hc]
      exact if_pos hh
    · intro hh
      rw [hx, packetRow_queue (by simp [hrow, ht]) hphase, hc]
      exact if_neg hh
  · intro taken q rows stale bad writes r hr ht
    have hx : ∀ r ∈ rows, pk p 0 1 = r.1 → exec r.2 s = .next (taken.performInbox uid p (s.inboxAsgen uid)) := by
      simp only [rows, List.forall_mem_cons]
      exact ⟨fun h => packetRow_inbox hi hphase h _, fun h => packetRow_inbox hi hphase h _, fun h => packetRow_inbox hi hphase h _, fun h => packetRow_inbox hi hphase h _,
        fun h => packetRow_inbox hi hphase h _, fun h => packetRow_inbox hi hphase h _, fun h => packetRow_inbox hi hphase h _, fun h => packetRow_inbox hi hphase h _,
        fun h => packetRow_inbox hi hphase h _, fun _ h => nomatch h⟩
    have hx := hx r hr ht
    refine ⟨fun hg => hx.trans (congrArg _ (performInbox_gen hg)), fun hg hb => hx.trans (congrArg _ (performInbox_refused hg ?_)), fun hg hc he => ⟨fun hs h => ?_, fun h => ?_, fun h hn => ?_,
      fun h hn => ?_, fun h hn => ?_, fun h l hl => ?_⟩⟩
    · exact hb.elim (fun h => .inl (.inl (by omega))) fun hb => hb.imp_left fun h => .inr (by omega)
    · refine hx.trans (congrArg _ (performInbox_staleRead hg hc he ?_ hs ?_))
      · omega
      · rcases h with h | ⟨h, h'⟩ | ⟨h, h'⟩
        · simp [inboxReads, ht, h]
        · simp [inboxReads, ht, h, h']
        · simp [inboxReads, ht, h, h']
    · exact inboxEnd_writes (hx.trans (congrArg _ (performInbox_write hg hc he (fun k => by simp [inboxReads, ht, h] at k) (ht.trans h))))
    · exact inboxEnd_writes (hx.trans (congrArg _ (performInbox_signal hg hc he (fun k => hn (k.imp_right fun k => by simpa [inboxReads, ht, h] using k)) (ht.trans h))))
    · exact inboxEnd_writes (hx.trans (congrArg _ (performInbox_writeSignal hg hc he (fun k => hn (k.imp_right fun k => by simpa [inboxReads, ht, h] using k)) (ht.trans h))))
    · intro l
      have hp := hx.trans (congrArg _ (performInbox_launch hg hc he (fun k => hn k.1) (ht.trans h)))
      have hl : taken.launchPacket (taken.node uid).desc.queue false uid p = l := launchPacket_eq (.inr rfl) (ht.trans h)
      rw [hl] at hp
      exact ⟨fun t g hg => by rw [hp, hg], fun t hg => by rw [hp, hg]; rfl, fun t c m hg => by rw [hp, hg]⟩
    · obtain ⟨h1, h2, h3⟩ := tokenGive_spec taken q (pk p 0x10 1) (pk p 0x12 2) l hl
      have hp := hx.trans (congrArg _ (performInbox_tokenGive hg hc he (fun k => by simp [inboxReads, ht, h] at k) (ht.trans h)))
      refine ⟨fun hen hq hn => ?_, fun hn => ?_⟩
      · rw [hp, show taken.tokenGive (taken.node uid).desc.queue (pk p 0x10 1) (pk p 0x12 2) = _ from h1 hen hq hn]
      · by_cases hen : l.en = true ∧ l.prod = q
        · rw [hp, show taken.tokenGive (taken.node uid).desc.queue (pk p 0x10 1) (pk p 0x12 2) = _ from h2 hen.1 hen.2 (Nat.lt_of_not_le fun h => hn ⟨hen.1, hen.2, h⟩)]
        · rw [hp, show taken.tokenGive (taken.node uid).desc.queue (pk p 0x10 1) (pk p 0x12 2) = _ from h3 (by
            rcases not_and_or.mp hen with h | h
            · exact .inl (Bool.not_eq_true _ ▸ h)
            · exact .inr h)]
/-! # BIND, REPAIR and ATTEST (R90, R102, R105, R106, R363 to R370)

## What a drain leaves as it stands -/

@[simp] theorem leaveCore_svc (s : State) (uid : Nat) : (s.leaveCore uid).svc = s.svc := by
  unfold State.leaveCore
  split
  · rfl
  · exact (apply_ite State.svc _ _ _).trans (ite_self _)

@[simp] theorem unsplice_svc (s : State) (uid : Nat) : (s.unsplice uid).svc = s.svc := by
  unfold State.unsplice
  split <;> rfl

@[simp] theorem firstReady_svc (s : State) (uid : Nat) : (s.firstReady uid).svc = s.svc := by
  unfold State.firstReady
  dsimp only
  split
  · exact State.setNode_svc _ _
  · rfl

theorem unplaceOne_svc (s : State) (uid : Nat) : (s.unplaceOne uid).svc = s.svc := by
  simp [State.unplaceOne, State.mapNode]

theorem unplace_svc (s : State) (uid : Nat) : (s.unplace uid).svc = s.svc := by
  unfold State.unplace
  dsimp only
  split
  · exact (unplaceOne_svc _ _).trans (unplaceOne_svc _ _)
  · exact unplaceOne_svc _ _

theorem foldl_svc {α : Type} {f : State → α → State} (h : ∀ s a, (f s a).svc = s.svc) (l : List α) (s : State) : (l.foldl f s).svc = s.svc := by
  induction l generalizing s with
  | nil => rfl
  | cons a l ih => exact (ih _).trans (h s a)

theorem drainCore_svc (s : State) (idx : Nat) : (s.drainCore idx).svc = s.svc := by
  unfold State.drainCore
  refine foldl_svc (fun s u => ?_) _ _
  dsimp only
  split
  · exact unplace_svc s u
  · exact State.setNode_svc _ _
  · rfl

theorem startJob_svc (s : State) (j : BindJob) : (s.startJob j).svc = s.svc := foldl_svc drainCore_svc _ _

/-- The halves of one slab that are under way. -/
theorem stateIn_foldl_set (was : List (BitVec 1 × HalfState)) (l : List (Nat × Nat × Nat × BitVec 1 × HalfState)) (st y x st' : Nat) (v : HalfState) (b' : BoundHalf) :
    stateIn (was.foldl (fun l e => setHalfState l st y x e.1 v) l) st' b' =
      if st' = st ∧ b'.y = y ∧ b'.x = x ∧ b'.half ∈ was.map (·.1) then v else stateIn l st' b' := by
  induction was generalizing l with
  | nil => simp
  | cons e was ih =>
    have hb : b' = { y := y, x := x, half := e.1 } ↔ b'.y = y ∧ b'.x = x ∧ b'.half = e.1 := by cases b'; simp
    rw [List.foldl_cons, ih, stateIn_set l st { y := y, x := x, half := e.1 }, ← ite_or]
    refine if_congr ?_ rfl rfl
    rw [hb, List.map_cons, List.mem_cons]
    tauto

theorem startRebind_halfState (s : State) (j : BindJob) (k y st : Nat) (plan : List (Nat × Nat × List BoundHalf)) (b : BoundHalf) :
    (s.startRebind j k y plan).halfState st b =
      if st = coreStack k ∧ b.y = y ∧ b.x = j.site ∧ b.half ∈ repairHalves j.half ∧ s.halfState st b ≠ .retired then .rebinding else s.halfState st b := by
  unfold State.startRebind
  dsimp only
  rw [halfState_eq, startJob_svc]
  refine (stateIn_foldl_set _ _ _ _ _ _ _ _).trans (if_congr ?_ rfl rfl)
  rw [List.mem_map]
  constructor
  · rintro ⟨hst, hy, hx, e, he, hb⟩
    obtain ⟨hm, hne⟩ := List.mem_filter.mp he
    obtain ⟨h, hh, rfl⟩ := List.mem_map.mp hm
    obtain ⟨by_, bx, bh⟩ := b
    dsimp only at hy hx hb
    subst hst hy hx hb
    exact ⟨rfl, rfl, rfl, hh, bne_iff_ne.mp hne⟩
  · rintro ⟨hst, hy, hx, hh, hne⟩
    obtain ⟨by_, bx, bh⟩ := b
    dsimp only at hy hx
    subst hst hy hx
    exact ⟨rfl, rfl, rfl, _, List.mem_filter.mpr ⟨List.mem_map_of_mem hh, bne_iff_ne.mpr hne⟩, rfl⟩

/-! ## The quote record (R370) -/

theorem getElem?_between {α : Type} {pre l post : List α} {n : Nat} (hn : pre.length = n) {k : Nat} (hk : k < l.length) : (pre ++ l ++ post)[n + k]? = l[k]? := by
  rw [List.getElem?_append_left (by rw [List.length_append, hn]; omega), List.getElem?_append_right (by omega), hn, Nat.add_sub_cancel_left]

theorem quoteRecord_spec (s : State) (nonce : List Byte) (key spares k : Nat) (hn : nonce.length = 32) :
    let r := s.quoteRecord key nonce spares
    let l := mramPatches s.awl.patches s.awl.newPatches
    r.length = 0x8500 ∧ (k < 32 → r[k]? = nonce[k]?) ∧ (k < 64 → r[32 + k]? = some (Config.measurementByte s.measured k)) ∧
    (k < 8 → r[96 + k]? = some (Config.serialByte k)) ∧
    (k < 4 → r[104 + k]? = (leBytes (Config.patchSummary l.length (maxNat (l.map fun p => p.version.toNat))) 4)[k]? ∧ r[108 + k]? = (leBytes spares 4)[k]?) ∧
    (k < 16 → r[112 + k]? = some 0) ∧ (k < 4096 → r[29952 + k]? = some (Config.certificateByte k)) := by
  intro r l
  let serial := (List.range 8).map Config.serialByte
  let measured := (List.range 64).map (Config.measurementByte s.measured)
  let patches := leBytes (Config.patchSummary l.length (maxNat (l.map fun p => p.version.toNat))) 4
  let signed := freeBytes key 29792
  let cert := (List.range 4096).map Config.certificateByte
  have hr : r = nonce ++ measured ++ serial ++ patches ++ leBytes spares 4 ++ List.replicate 16 0 ++ signed ++ List.replicate 32 0 ++ cert := rfl
  have hm : measured.length = 64 := by simp [measured]
  have hs : serial.length = 8 := by simp [serial]
  have hp : patches.length = 4 := leBytes_length _ _
  have hsp : (leBytes spares 4).length = 4 := leBytes_length _ _
  have hf : signed.length = 29792 := by simp [signed, freeBytes]
  have hc : cert.length = 4096 := by simp [cert]
  refine ⟨?_, fun hk => ?_, fun hk => ?_, fun hk => ?_, fun hk => ⟨?_, ?_⟩, fun hk => ?_, fun hk => ?_⟩
  · simp only [hr, List.length_append, List.length_replicate, hn, hm, hs, hp, hsp, hf, hc]
  · rw [hr]
    simp only [List.append_assoc]
    exact List.getElem?_append_left (hn ▸ hk)
  · have e : r = nonce ++ measured ++ (serial ++ patches ++ leBytes spares 4 ++ List.replicate 16 0 ++ signed ++ List.replicate 32 0 ++ cert) := by
      rw [hr]; simp only [List.append_assoc]
    rw [e, getElem?_between hn (hm ▸ hk)]
    simp [measured, hk]
  · have e : r = (nonce ++ measured) ++ serial ++ (patches ++ leBytes spares 4 ++ List.replicate 16 0 ++ signed ++ List.replicate 32 0 ++ cert) := by
      rw [hr]; simp only [List.append_assoc]
    rw [e, getElem?_between (by simp only [List.length_append, hn, hm]) (hs ▸ hk)]
    simp [serial, hk]
  · have e : r = (nonce ++ measured ++ serial) ++ patches ++ (leBytes spares 4 ++ List.replicate 16 0 ++ signed ++ List.replicate 32 0 ++ cert) := by
      rw [hr]; simp only [List.append_assoc]
    rw [e, getElem?_between (by simp only [List.length_append, hn, hm, hs]) (hp ▸ hk)]
  · have e : r = (nonce ++ measured ++ serial ++ patches) ++ leBytes spares 4 ++ (List.replicate 16 0 ++ signed ++ List.replicate 32 0 ++ cert) := by
      rw [hr]; simp only [List.append_assoc]
    rw [e, getElem?_between (by simp only [List.length_append, hn, hm, hs, hp]) (hsp ▸ hk)]
  · have e : r = (nonce ++ measured ++ serial ++ patches ++ leBytes spares 4) ++ List.replicate 16 0 ++ (signed ++ List.replicate 32 0 ++ cert) := by
      rw [hr]; simp only [List.append_assoc]
    rw [e, getElem?_between (by simp only [List.length_append, hn, hm, hs, hp, hsp]) (by rw [List.length_replicate]; exact hk), List.getElem?_replicate, if_pos hk]
  · have e : r = (nonce ++ measured ++ serial ++ patches ++ leBytes spares 4 ++ List.replicate 16 0 ++ signed ++ List.replicate 32 0) ++ cert ++ [] := by
      rw [List.append_nil, hr]
    rw [e, getElem?_between (by simp only [List.length_append, List.length_replicate, hn, hm, hs, hp, hsp, hf]) (hc ▸ hk)]
    simp [cert, hk]

/-! ## The ends of signature work (R90, R370) -/

theorem patchDone_eq (t : State) (w : SigWork) :
    let u : State := { t with free := t.free + 3 }
    let p : Patch := { entry := Config.freeNat (t.free + 1) % 64, version := BitVec.ofNat 32 (Config.freeNat (t.free + 2)), bytes := w.input }
    t.patchDone w = if Config.freeBool t.free = false then u.completeLater w.queue w.index 0x40
      else if ∃ e ∈ mramPatches t.awl.patches t.awl.newPatches, e.entry = p.entry ∧ p.version.toNat ≤ e.version.toNat then u.completeLater w.queue w.index 0x41
      else ({ u with awl := { u.awl with newPatches := mramPatches t.awl.newPatches [p] } } : State).completeLater w.queue w.index 0 := by
  intro u p
  refine if_congr (by simp) rfl (if_congr ?_ rfl rfl)
  simp only [List.any_eq_true, Bool.and_eq_true, beq_iff_eq, decide_eq_true_eq]
  rfl

/-- Signature work ends as a QUOTE's or as a PATCH's. -/
theorem signatureDone_spec (s : State) :
    (s.awl.sigWork = [] → exec .signatureDone s = .fault (.notEnabled "SIGNATURE_DONE")) ∧
    (∀ w rest, s.awl.sigWork = w :: rest →
      let t : State := { s with awl := { s.awl with sigWork := rest } }
      (pk w.pkt 0x10 1 = 0 →
        (t.packetStale w.queue = true → exec .signatureDone s = .next (t.dropWrite.completeLater w.queue w.index 0)) ∧
        (t.packetStale w.queue = false →
          let u := t.sparesWord.2
          let r := ({ u with free := u.free + 1 } : State).awlPut w.queue (pk w.pkt 0x20 8) (u.quoteRecord u.free w.input t.sparesWord.1)
          (r = none → exec .signatureDone s = .next (t.failLater w.queue w.index 6)) ∧
          (∀ z, r = some z → exec .signatureDone s = .next (z.completeLater w.queue w.index 0)))) ∧
      (pk w.pkt 0x10 1 ≠ 0 →
        let u : State := { t with free := t.free + 3 }
        let ok := Config.freeBool t.free = true
        let p : Patch := { entry := Config.freeNat (t.free + 1) % 64, version := BitVec.ofNat 32 (Config.freeNat (t.free + 2)), bytes := w.input }
        let newer := ∀ e ∈ mramPatches s.awl.patches s.awl.newPatches, e.entry = p.entry → e.version.toNat < p.version.toNat
        (¬ ok → exec .signatureDone s = .next (u.completeLater w.queue w.index 0x40)) ∧
        (ok → ¬ newer → exec .signatureDone s = .next (u.completeLater w.queue w.index 0x41)) ∧
        (ok → newer → exec .signatureDone s = .next
          (({ u with awl := { u.awl with newPatches := mramPatches s.awl.newPatches [p] } } : State).completeLater w.queue w.index 0)))) := by
  refine ⟨fun h => ?_, fun w rest h => ?_⟩
  · rw [exec_signatureDone, execSignatureDone, h]
  · intro t
    have hx : exec .signatureDone s = .next (if pk w.pkt 0x10 1 = 0 then t.quoteDone w else t.patchDone w) := by rw [exec_signatureDone, execSignatureDone, h]
    refine ⟨fun h0 => ?_, fun h0 => ?_⟩
    · rw [hx, if_pos h0]
      refine ⟨fun hs => congrArg _ (if_pos hs), fun hs => ?_⟩
      intro u r
      have hq : t.quoteDone w = match r with
          | none => t.failLater w.queue w.index 6
          | some z => z.completeLater w.queue w.index 0 := if_neg (by simp [hs])
      exact ⟨fun hr => by rw [hq, hr], fun z hz => by rw [hq, hz]⟩
    · rw [hx, if_neg h0]
      intro u ok p newer
      have hnew : newer ↔ ¬ ∃ e ∈ mramPatches t.awl.patches t.awl.newPatches, e.entry = p.entry ∧ p.version.toNat ≤ e.version.toNat := by
        simp only [newer, not_exists, not_and, Nat.not_le]
        rfl
      refine ⟨fun hok => congrArg _ ((patchDone_eq t w).trans (if_pos (Bool.not_eq_true _ ▸ hok))), fun hok hn => congrArg _ ?_, fun hok hn => congrArg _ ?_⟩
      · exact (patchDone_eq t w).trans ((if_neg (Bool.not_eq_false _ ▸ hok)).trans (if_pos (not_not.mp fun h => hn (hnew.mpr h))))
      · exact (patchDone_eq t w).trans ((if_neg (Bool.not_eq_false _ ▸ hok)).trans (if_neg (hnew.mp hn)))

/-! ## The packets at their last step -/

section
variable {s : State} {q : BitVec 6} {idx : BitVec 32} {p : BitVec 512}

theorem bindPacket_gang (h : pk p 0x10 1 = 0) : s.bindPacket q idx p = match s.gangCheck (pk p 0x12 2) (pk p 0x14 1) with
    | .error e => (s, .done (BitVec.ofNat 16 e))
    | .ok l => (s.startJob { op := 0, core := pk p 0x12 2, width := pk p 0x14 1, cores := l, pkt := p, queue := q, index := idx, site := 0, half := 0 }, .later) := by
  simp only [State.bindPacket, h]
  rfl

theorem bindPacket_dissolve (h : pk p 0x10 1 = 1) : s.bindPacket q idx p = match s.dissolveCheck (pk p 0x12 2) with
    | .error e => (s, .done (BitVec.ofNat 16 e))
    | .ok l => (s.startJob { op := 1, core := pk p 0x12 2, width := pk p 0x14 1, cores := l, pkt := p, queue := q, index := idx, site := 0, half := 0 }, .later) := by
  simp only [State.bindPacket, h]
  rfl

/-- The limits of the stacks that a mask names. -/
theorem foldl_setReserve (f : Reserve → Reserve) (m : Nat → Bool) (l : List Nat) (hl : l.Nodup) (r : Vector Reserve 4) (i : Fin 4) :
    (l.foldl (fun r i => if m i then r.setIfInBounds i (f (r[i]?.getD {})) else r) r)[i] = if i.val ∈ l ∧ m i = true then f r[i] else r[i] := by
  induction l generalizing r with
  | nil => simp
  | cons k l ih =>
    obtain ⟨hk, hl⟩ := List.nodup_cons.mp hl
    rw [List.foldl_cons, ih hl]
    by_cases hki : k = i.val
    · subst hki
      by_cases hm : m i.val = true <;> simp [hk, hm]
    · have hn : (if m k = true then r.setIfInBounds k (f (r[k]?.getD {})) else r)[i] = r[i] := by
        split
        · simp [hki]
        · rfl
      rw [hn]
      exact if_congr (by simp [Ne.symm hki]) rfl rfl

theorem bindPacket_reserve (h : pk p 0x10 1 = 2) : ∃ r : Vector Reserve 4, s.bindPacket q idx p = ({ s with dist := { s.dist with reserve := r } }, .done 0) ∧
    ∀ i : Fin 4, r[i] = if (pk p 0x15 1).testBit i then { s.dist.reserve[i] with nmin := pk p 0x16 1, nmax := pk p 0x17 1 } else s.dist.reserve[i] := by
  refine ⟨_, by simp only [State.bindPacket, h]; rfl, fun i => ?_⟩
  refine (foldl_setReserve (fun x => { x with nmin := pk p 0x16 1, nmax := pk p 0x17 1 }) (pk p 0x15 1).testBit (List.range 4) List.nodup_range s.dist.reserve i).trans ?_
  exact if_congr (by simp) rfl rfl

/-- A REPAIR with a place for its record (R79, R252). -/
def repairFits (s : State) (q : BitVec 6) (p : BitVec 512) : Prop :=
  s.recordFits q (pk p 0x20 8) = true ∧ ¬ (pk p 0x20 8 ≠ 0 ∧ pk p 0x20 8 / 2 ^ 44 = 0xFFFFF ∧ ∃ k < 32, firmwareByte (pk p 0x20 8 % 2 ^ 44 + k) = false)

/-- The bytes of a range that the firmware keeps (R252). -/
theorem firmwareRange_iff (a n : Nat) : firmwareRange a n = true ↔ ¬ (a / 2 ^ 44 = 0xFFFFF ∧ ∃ k < n, firmwareByte (a % 2 ^ 44 + k) = false) := by
  simp only [firmwareRange, Bool.or_eq_true, bne_iff_ne, List.all_eq_true, List.mem_range, not_and, not_exists]
  refine imp_iff_not_or.symm.trans (imp_congr_right fun _ => forall₂_congr fun k _ => ?_)
  exact (Bool.not_eq_false _).symm ▸ Iff.rfl

theorem repairPacket_unfit (h : ¬ repairFits s q p) : s.repairPacket q idx p = (s, .error (if s.recordFits q (pk p 0x20 8) then 3 else 6)) := by
  by_cases hf : s.recordFits q (pk p 0x20 8) = true
  · rw [if_pos hf]
    have hk := not_not.mp fun hn => h ⟨hf, hn⟩
    obtain ⟨h0, hk⟩ := hk
    exact (if_neg (by simp [hf])).trans (if_pos (by simp [h0, Bool.eq_false_iff.mpr fun hr => (firmwareRange_iff _ 32).mp hr hk]))
  · rw [if_neg hf]
    exact if_pos (by simp [hf])

end

section
variable {s : State} {q : BitVec 6} {idx : BitVec 32} {p : BitVec 512}

/-- The two checks before every REPAIR pass. -/
theorem repairPacket_checks (h : repairFits s q p) : ¬ (!s.recordFits q (pk p 0x20 8)) = true ∧ ¬ (!(pk p 0x20 8 == 0 || firmwareRange (pk p 0x20 8) 32)) = true := by
  obtain ⟨hf, hk⟩ := h
  refine ⟨by simp [hf], ?_⟩
  by_cases h0 : pk p 0x20 8 = 0
  · simp [h0]
  · have hr : firmwareRange (pk p 0x20 8) 32 = true := (firmwareRange_iff _ 32).mpr fun hn => hk ⟨h0, hn⟩
    simp [hr]

/-- The job that a REPAIR with a drain becomes. -/
def repairJob (q : BitVec 6) (idx : BitVec 32) (p : BitVec 512) : BindJob :=
  { op := 2, core := pk p 0x12 2, width := 0, cores := [], pkt := p, queue := q, index := idx, site := pk p 0x1D 1, half := BitVec.ofNat 2 (pk p 0x1E 1) }

section
variable (hf : repairFits s q p)
include hf

theorem repairPacket_rebind (h : pk p 0x10 1 = 0) : s.repairPacket q idx p = match s.rebindCheck (pk p 0x12 2) (pk p 0x1D 1) (BitVec.ofNat 2 (pk p 0x1E 1)) with
    | .error e => s.repairDone q p e 0 0
    | .ok (i, y, plan) => (s.startRebind (repairJob q idx p) i y plan, .later) := by
  obtain ⟨h1, h2⟩ := repairPacket_checks hf
  refine (if_neg h1).trans ((if_neg h2).trans ?_)
  simp only [h]
  rfl

theorem repairPacket_row (h : pk p 0x10 1 = 1) : s.repairPacket q idx p =
    if s.repairRoom (pk p 0x16 2) then (s.softRepair (pk p 0x16 2) (pk p 0x1C 1) (pk p 0x18 4)).repairDone q p 0 0 0 else s.repairDone q p 0x63 0 0 := by
  obtain ⟨h1, h2⟩ := repairPacket_checks hf
  refine (if_neg h1).trans ((if_neg h2).trans ?_)
  simp only [h]

theorem repairPacket_lane (h : pk p 0x10 1 = 2) :
    let x := s.port (pk p 0x14 1)
    s.repairPacket q idx p = if x.retraining then s.repairDone q p 0x62 0 0
      else if x.degraded then s.repairDone q p 0x64 0 0
      else if x.spareUsed then (s.degrade (pk p 0x14 1)).repairDone q p 0 0 0
      else (s.setPort (pk p 0x14 1) { x with spareUsed := true, retraining := true, laneOut := some (pk p 0x15 1) }).repairDone q p 0 0 0 := by
  obtain ⟨h1, h2⟩ := repairPacket_checks hf
  refine (if_neg h1).trans ((if_neg h2).trans ?_)
  simp only [h]

theorem repairPacket_retire (h : pk p 0x10 1 = 3) :
    let c := s.core (pk p 0x12 2)
    s.repairPacket q idx p = if c.active = false ∨ c.gang ≠ 0 then s.repairDone q p 0x60 0 0
      else if s.jobOn [pk p 0x12 2] then s.repairDone q p 0x62 0 0
      else (s.startJob { repairJob q idx p with op := 3, cores := [pk p 0x12 2] }, .later) := by
  obtain ⟨h1, h2⟩ := repairPacket_checks hf
  refine (if_neg h1).trans ((if_neg h2).trans ?_)
  simp only [h, Bool.or_eq_true, Bool.not_eq_true', decide_eq_true_eq]
  rfl

theorem repairPacket_scan (h : pk p 0x10 1 = 4) :
    (pk p 0x18 4 ≠ 0 → pk p 0x18 4 < 1200 ∨ 3000 < pk p 0x18 4 → s.repairPacket q idx p = s.repairDone q p 0x65 0 0) ∧
    (pk p 0x18 4 = 0 ∨ (1200 ≤ pk p 0x18 4 ∧ pk p 0x18 4 ≤ 3000) → ∃ failed, s.repairPacket q idx p =
      ({ s with svc := { s.svc with powerLimit := if pk p 0x18 4 = 0 then s.svc.powerLimit else pk p 0x18 4 }, free := s.free + 1 } : State).repairDone q p 0 0 failed) := by
  obtain ⟨h1, h2⟩ := repairPacket_checks hf
  refine ⟨fun h0 hw => ?_, fun hw => ⟨Config.freeNat s.free % (State.spareHalves { s with svc := { s.svc with powerLimit := if pk p 0x18 4 = 0 then s.svc.powerLimit else pk p 0x18 4 }, free := s.free + 1 } + 12 * 9 + 1), ?_⟩⟩
  · refine (if_neg h1).trans ((if_neg h2).trans ?_)
    simp only [h]
    exact if_pos ⟨h0, hw⟩
  · refine (if_neg h1).trans ((if_neg h2).trans ?_)
    simp only [h]
    refine (if_neg (by omega)).trans ?_
    by_cases h0 : pk p 0x18 4 = 0
    · rw [if_pos h0, if_pos h0]
      rfl
    · rw [if_neg h0, if_neg h0]
      rfl

end

/-- ATTEST reads its input, a QUOTE's record apart (R90, R370). -/
theorem attestPacket_spec {op : Nat} (ho : pk p 0x10 1 = op) :
    let input := s.awlRead q true (pk p 0x18 8) (if op = 0 then 32 else pk p 0x28 4)
    let reached := op = 0 → ∀ k < 0x8500, (s.awlPA q true (pk p 0x20 8 + k) true).isSome = true
    let kept := op = 0 ∧ pk p 0x20 8 / 2 ^ 44 = 0xFFFFF ∧ ∃ k < 0x8500, firmwareByte (pk p 0x20 8 % 2 ^ 44 + k) = false
    (input = none ∨ ¬ reached → s.attestPacket q idx p = (s, .error 6)) ∧
    (input ≠ none → reached → kept → s.attestPacket q idx p = (s, .error 3)) ∧
    (∀ l, input = some l → reached → ¬ kept → s.attestPacket q idx p =
      ({ s with awl := { s.awl with sigWork := s.awl.sigWork ++ [{ queue := q, index := idx, pkt := p, input := l }] } }, .later)) := by
  intro input reached kept
  have hreach : (!decide (pk p 0x10 1 = 0) || (List.range 0x8500).all fun i => (s.awlPA q true (pk p 0x20 8 + i) true).isSome) = true ↔ reached := by
    simp only [ho, reached, Bool.or_eq_true, Bool.not_eq_true', decide_eq_false_iff_not, List.all_eq_true, List.mem_range]
    exact imp_iff_not_or.symm
  have hkept : (decide (pk p 0x10 1 = 0) && !firmwareRange (pk p 0x20 8) 0x8500) = true ↔ kept := by
    simp only [ho, kept, Bool.and_eq_true, decide_eq_true_eq, Bool.not_eq_true', ← Bool.not_eq_true, firmwareRange_iff, not_not]
  have attest : s.attestPacket q idx p = match input with
      | none => (s, .error 6)
      | some l => if ¬ reached then (s, .error 6) else if kept then (s, .error 3)
        else ({ s with awl := { s.awl with sigWork := s.awl.sigWork ++ [{ queue := q, index := idx, pkt := p, input := l }] } }, .later) := by
    have hin : s.awlRead q true (pk p 0x18 8) (if pk p 0x10 1 = 0 then 32 else pk p 0x28 4) = input := by rw [ho]
    unfold State.attestPacket
    simp only [hin]
    cases input with
    | none => rfl
    | some l => exact if_congr (by rw [← hreach, Bool.not_eq_true', ← Bool.not_eq_true]) rfl (if_congr hkept rfl rfl)
  refine ⟨fun h => ?_, fun hi hr hk => ?_, fun l hi hr hk => ?_⟩
  · rw [attest]
    cases hi : input with
    | none => rfl
    | some l => exact if_pos (h.resolve_left (by simp [hi]))
  · obtain ⟨l, hi⟩ := Option.ne_none_iff_exists'.mp hi
    rw [attest, hi]
    exact (if_neg (not_not_intro hr)).trans (if_pos hk)
  · rw [attest, hi]
    exact (if_neg (not_not_intro hr)).trans (if_neg hk)

end

/-- How a REPAIR that is over at once leaves its queue. -/
theorem closes_of_repairDone {s t : State} {q : BitVec 6} {idx : BitVec 32} {p : BitVec 512} {i : Instr} {status moved failed : Nat} (hx : exec i s = .next (s.lastStep q idx p))
    (hp : s.performPacket q idx p = t.repairDone q p status moved failed) :
    exec i s = .next ((t.resultRecord q (pk p 0x20 8) status (pk p 0x10 1) moved failed).retired q idx p (BitVec.ofNat 16 status)) := by
  rw [hx, lastStep_done hp]

/-- Settles O50. -/
theorem servicePackets : Obligations.ServicePackets := by
  unfold Obligations.ServicePackets
  refine ⟨fun s q idx p => ?_, signatureDone_spec, fun s q idx c status code hc hw hi => ⟨?_, ?_⟩, fun s j k y st plan b => ⟨fun h => ?_, fun h => ?_⟩, fun s nonce key spares k hn => quoteRecord_spec s nonce key spares k hn⟩
  · intro at_ src core job repair kept reaches fits closes
    have hx : ∀ {ty op : Nat} {i : Instr} {row : String}, at_ ty op → exec i s = s.packetRow row ty (some op) src p → exec i s = .next (s.lastStep q idx p) :=
      fun h hi => hi.trans (packetRow_atLast h _)
    have hrep : ∀ {op : Nat}, at_ 13 op → s.performPacket q idx p = s.repairPacket q idx p ∧ pk p 0x10 1 = op := fun h => ⟨performPacket_repair h.2.2.1, h.2.2.2 _ rfl⟩
    refine ⟨fun h => ⟨fun e he => ?_, fun l hl => ?_⟩, fun h => ⟨fun e he => ?_, fun l hl => ?_⟩, fun h => ?_, fun hf => ?_, fun hf h => ⟨fun e he => ?_, fun k y plan he => ?_⟩,
      fun hf h => ⟨fun hr => ?_, fun hr => ?_⟩, fun hf h => ?_, fun hf h => ?_, fun hf h => ?_, fun op hop h => ?_⟩
    · rw [hx h rfl, lastStep_done ((performPacket_bind h.2.2.1).trans ((bindPacket_gang (h.2.2.2 _ rfl)).trans (by rw [he])))]
    · rw [hx h rfl, lastStep_later ((performPacket_bind h.2.2.1).trans ((bindPacket_gang (h.2.2.2 _ rfl)).trans (by rw [hl])))]
    · rw [hx h rfl, lastStep_done ((performPacket_bind h.2.2.1).trans ((bindPacket_dissolve (h.2.2.2 _ rfl)).trans (by rw [he])))]
    · rw [hx h rfl, lastStep_later ((performPacket_bind h.2.2.1).trans ((bindPacket_dissolve (h.2.2.2 _ rfl)).trans (by rw [hl])))]
    · obtain ⟨r, hr, hi⟩ := bindPacket_reserve (s := s) (q := q) (idx := idx) (h.2.2.2 _ rfl)
      exact ⟨r, by rw [hx h rfl, lastStep_done ((performPacket_bind h.2.2.1).trans hr)], hi⟩
    · intro e
      have refused : ∀ {op : Nat} {i : Instr} {row : String}, at_ 13 op → exec i s = s.packetRow row 13 (some op) src p → exec i s = .next (s.inError q p e) :=
        fun h hi => by rw [hx h hi, lastStep_error ((hrep h).1.trans (repairPacket_unfit hf))]
      exact ⟨fun h => refused h rfl, fun h => refused h rfl, fun h => refused h rfl, fun h => refused h rfl, fun h => refused h rfl⟩
    · obtain ⟨hp, ho⟩ := hrep h
      exact closes_of_repairDone (hx h rfl) (hp.trans ((repairPacket_rebind hf ho).trans (by rw [show s.rebindCheck (pk p 0x12 2) (pk p 0x1D 1) (BitVec.ofNat 2 (pk p 0x1E 1)) = _ from he])))
    · obtain ⟨hp, ho⟩ := hrep h
      rw [hx h rfl, lastStep_later (hp.trans ((repairPacket_rebind hf ho).trans (by rw [show s.rebindCheck (pk p 0x12 2) (pk p 0x1D 1) (BitVec.ofNat 2 (pk p 0x1E 1)) = _ from he])))]
      rfl
    · obtain ⟨hp, ho⟩ := hrep h
      exact closes_of_repairDone (hx h rfl) (hp.trans ((repairPacket_row hf ho).trans (if_pos hr)))
    · obtain ⟨hp, ho⟩ := hrep h
      exact closes_of_repairDone (hx h rfl) (hp.trans ((repairPacket_row hf ho).trans (if_neg (by simp [hr]))))
    · obtain ⟨hp, ho⟩ := hrep h
      have hl := hp.trans (repairPacket_lane hf ho)
      intro x
      exact ⟨fun h1 => closes_of_repairDone (hx h rfl) (hl.trans (if_pos h1)),
        fun h1 h2 => closes_of_repairDone (hx h rfl) (hl.trans ((if_neg (Bool.eq_false_iff.mp h1)).trans (if_pos h2))),
        fun h1 h2 h3 => closes_of_repairDone (hx h rfl) (hl.trans ((if_neg (Bool.eq_false_iff.mp h1)).trans ((if_neg (Bool.eq_false_iff.mp h2)).trans (if_pos h3)))),
        fun h1 h2 h3 => closes_of_repairDone (hx h rfl)
          (hl.trans ((if_neg (Bool.eq_false_iff.mp h1)).trans ((if_neg (Bool.eq_false_iff.mp h2)).trans (if_neg (Bool.eq_false_iff.mp h3)))))⟩
    · obtain ⟨hp, ho⟩ := hrep h
      have hl := hp.trans (repairPacket_retire hf ho)
      intro c
      have free : c.active = true → c.gang = 0 → ¬ (c.active = false ∨ c.gang ≠ 0) := fun h1 h2 hn => hn.elim (fun hn => by simp [h1] at hn) fun hn => hn h2
      refine ⟨fun h1 => closes_of_repairDone (hx h rfl) (hl.trans (if_pos h1)),
        fun h1 h2 h3 => closes_of_repairDone (hx h rfl) (hl.trans ((if_neg (free h1 h2)).trans (if_pos h3))), fun h1 h2 h3 => ?_⟩
      rw [hx h rfl, lastStep_later (hl.trans ((if_neg (free h1 h2)).trans (if_neg (Bool.eq_false_iff.mp h3))))]
      rfl
    · obtain ⟨hp, ho⟩ := hrep h
      obtain ⟨h1, h2⟩ := repairPacket_scan (idx := idx) hf ho
      refine ⟨fun h0 hw => closes_of_repairDone (hx h rfl) (hp.trans (h1 h0 hw)), fun hw => ?_⟩
      obtain ⟨failed, hd⟩ := h2 hw
      exact ⟨failed, closes_of_repairDone (hx h rfl) (hp.trans hd)⟩
    · intro i input reached kept
      have hop : op = 0 ∨ op = 1 := by simpa using hop
      have hi : exec i s = .next (s.lastStep q idx p) := by
        rcases hop with rfl | rfl
        · exact hx h rfl
        · exact hx h rfl
      have hr : packetReads p = true := by simp [packetReads, h.2.2.1]
      obtain ⟨h1, h2, h3⟩ := attestPacket_spec (s := s) (q := q) (idx := idx) (h.2.2.2 _ rfl)
      have fresh : s.packetStale q = false → s.performPacket q idx p = s.attestPacket q idx p := fun hs => performPacket_attest (by simp [hs]) h.2.2.1
      refine ⟨fun hn => ?_, fun hs ha hb hk => ?_, fun l hs hl hb hk => ?_⟩
      · cases hs : s.packetStale q with
        | true => rw [hi, lastStep_error (performPacket_staleRead hs hr)]
        | false => rw [hi, lastStep_error ((fresh hs).trans (h1 (hn.resolve_left (by simp [hs]))))]
      · rw [hi, lastStep_error ((fresh hs).trans (h2 ha hb hk))]
      · rw [hi, lastStep_later ((fresh hs).trans (h3 l hl hb hk))]
  · simp only [State.completeLater, hc, hw, hi, beq_self_eq_true, Bool.and_self, if_true]
  · simp only [State.failLater, hc, hw, hi, beq_self_eq_true, Bool.and_self, if_true]
  · exact (startRebind_halfState s j k y st plan b).trans (if_pos h)
  · exact (startRebind_halfState s j k y st plan b).trans (if_neg h)

end Sys2Proof.Proofs
end

