-- ==== Sys2Proof/Proofs/AwlEvents.lean ====
section
namespace Sys2Proof.Proofs
open Sys2Proof Sys2Proof.Machine

-- One theorem after another: side by side they need more memory than one run may take.
set_option Elab.async false

/-! # Events of the Awl (R78, R83, R87, R89, R90, R108, R262, R264, R266) -/

/-! ## Slots and completions (R78, R83, R87) -/

theorem awlSlot_spec {s : State} (hp : 3 ≤ s.svc.phase) :
    let o := (s.awl.slots[s.awl.slotNo]?.getD 0xFF).toNat
    let t : State := { s with awl := { s.awl with slotNo := (s.awl.slotNo + 1) % 128 } }
    (o < 0x40 → exec .awlSlot s = .next (t.queueStep (BitVec.ofNat 6 o))) ∧ (o = 0x40 → exec .awlSlot s = .next t.inboxOnce) ∧
      (o = 0x41 → exec .awlSlot s = .next t.flipStep) ∧ (o = 0x42 → exec .awlSlot s = .next t.rereadMarks) ∧ (0x42 < o → exec .awlSlot s = .next t) := by
  intro o t
  have hx : exec .awlSlot s = .next (if o < 0x40 then t.queueStep (BitVec.ofNat 6 o) else if o = 0x40 then t.inboxOnce else if o = 0x41 then t.flipStep
      else if o = 0x42 then t.rereadMarks else t) := if_neg (Nat.not_lt.mpr hp)
  rw [hx]
  refine ⟨fun h => by rw [if_pos h], fun h => by rw [h]; rfl, fun h => by rw [h]; rfl, fun h => by rw [h]; rfl, fun h => ?_⟩
  rw [if_neg (by omega), if_neg (by omega), if_neg (by omega), if_neg (by omega)]

/-! ## New generations (R264, R300) -/

/-- The changes of a space's generation that an acknowledgement covers, the others, and a commit of a node of the space. -/
def ackedOf (s : State) (sp : BitVec 6) : List (Nat × BitVec 16 × BitVec 6 × BitVec 32) := s.awl.asChange.filter fun e => e.1 == sp.toNat
def unackedOf (s : State) (sp : BitVec 6) : List (Nat × BitVec 16 × BitVec 6 × BitVec 32) := s.awl.asChange.filter fun e => e.1 != sp.toNat
def spaceCommits (s : State) (sp : BitVec 6) : Prop := ∃ n ∈ s.allNodes, n.run.committing ≠ none ∧ n.desc.queue = sp

theorem commits_iff {s : State} {sp : BitVec 6} (ha : ackedOf s sp ≠ []) :
    (s.allNodes.any fun n => n.run.committing.isSome && (ackedOf s sp).any fun e => e.1 == n.desc.queue.toNat) = true ↔ spaceCommits s sp := by
  have hany (n : Node) : ((ackedOf s sp).any fun e => e.1 == n.desc.queue.toNat) = true ↔ n.desc.queue = sp := by
    obtain ⟨e, he⟩ := List.exists_mem_of_ne_nil _ ha
    have hsp : ∀ e ∈ ackedOf s sp, e.1 = sp.toNat := fun e he => by simpa using (List.mem_filter.mp he).2
    rw [List.any_eq_true]
    constructor
    · rintro ⟨e, he, hq⟩
      exact BitVec.eq_of_toNat_eq ((beq_iff_eq.mp hq).symm.trans (hsp e he))
    · rintro rfl
      exact ⟨e, he, beq_iff_eq.mpr (hsp e he)⟩
  simp only [List.any_eq_true, Bool.and_eq_true, hany, Option.isSome_iff_ne_none, spaceCommits]

theorem asgenChangeDone_none {s : State} {sp : BitVec 6} (h : ackedOf s sp = [] ∨ spaceCommits s sp) : exec (.asgenChangeDone sp) s = .fault (.notEnabled "ASGEN_CHANGE_DONE") := by
  refine if_pos (Bool.or_eq_true_iff.mpr ?_)
  by_cases ha : ackedOf s sp = []
  · exact .inl (List.isEmpty_iff.mpr ha)
  · exact .inr ((commits_iff ha).mpr (h.resolve_left ha))

theorem asgenChangeDone_some {s : State} {sp : BitVec 6} (ha : ackedOf s sp ≠ []) (hc : ¬ spaceCommits s sp) :
    exec (.asgenChangeDone sp) s = .next (((ackedOf s sp).filter fun e => (unackedOf s sp).all fun r => !(r.2.2.1 == e.2.2.1 && r.2.2.2 == e.2.2.2)).foldl
      (fun s e => s.completeLater e.2.2.1 e.2.2.2 0) { s with awl := { s.awl with asChange := unackedOf s sp } }) := by
  refine (if_neg fun h => ?_).trans ?_
  · exact (Bool.or_eq_true_iff.mp h).elim (fun h => ha (List.isEmpty_iff.mp h)) fun h => hc ((commits_iff ha).mp h)
  · have hf : ∀ (t : State) (e : Nat × BitVec 16 × BitVec 6 × BitVec 32),
        (if (unackedOf s sp).all fun r => !(r.2.2.1 == e.2.2.1 && r.2.2.2 == e.2.2.2) then t.completeLater e.2.2.1 e.2.2.2 0 else t) =
          if (unackedOf s sp).any fun r => r.2.2.1 == e.2.2.1 && r.2.2.2 == e.2.2.2 then t else t.completeLater e.2.2.1 e.2.2.2 0 := by
      intro t e
      rw [List.all_eq_not_any_not]
      simp only [Bool.not_not]
      cases (unackedOf s sp).any fun r => r.2.2.1 == e.2.2.1 && r.2.2.2 == e.2.2.2 <;> rfl
    refine congrArg _ (Eq.trans ?_ List.foldl_filter.symm)
    simp only [hf]
    rfl

/-! ## Flips (R89, R301) -/

theorem stagesFrame_iff (s : State) (frame : Nat) :
    s.stagesFrame frame = true ↔ ∃ n ∈ s.allNodes, ∃ c ∈ n.run.staged.cells, c.1 / 65536 = hostPA (frame * 65536) / 65536 := by
  simp only [State.stagesFrame, List.any_eq_true, beq_iff_eq]

/-! ## Mailbox records and rebuilt entries (R262, R266) -/

theorem wr_awl (s : State) (a v n : Nat) : (s.wr a v n).awl = s.awl := by
  obtain ⟨m, p, h⟩ := State.wr_fields s a v n
  rw [h]

/-- The bytes of a mailbox record (R262). -/
theorem recordBytes_eq (r : MailRec) :
    leBytes r.kind.toNat 1 ++ leBytes r.space.toNat 1 ++ leBytes 0 2 ++ leBytes r.tid 4 ++ leBytes r.k 8 ++ leBytes r.hframe 8 ++ leBytes 0 8 =
      [r.kind, r.space, 0, 0] ++ leBytes r.tid 4 ++ leBytes r.k 8 ++ leBytes r.hframe 8 ++ leBytes 0 8 := by
  have h : leBytes r.kind.toNat 1 ++ leBytes r.space.toNat 1 ++ leBytes 0 2 = [r.kind, r.space, 0, 0] := by simp [leBytes]
  rw [h]

theorem mailed_eq {u : State} {awl : Awl} (h : u.awl = awl) (rest : List MailRec) :
    State.raiseMsix { u with awl := { u.awl with mail := rest } } 64 = { u with awl := { awl with mail := rest, msix := awl.msix ++ [64] } } := by
  subst h
  rfl

theorem mailboxRecordWrite_some {s : State} {r : MailRec} {rest : List MailRec} (hm : s.awl.mail = r :: rest) (h0 : s.rd (ringPA 8) 8 ≠ 0)
    (hf : ¬ (s.rd (ringPA 0x14) 4 + 2 ^ 32 - s.rd (ringPA 0x18) 4) % 2 ^ 32 = 2 ^ s.rd (ringPA 16) 1) :
    let t := (s.wr (hostAddr (s.rd (ringPA 8) 8 + 32 * (s.rd (ringPA 0x14) 4 % 2 ^ s.rd (ringPA 16) 1)))
      (leNat ([r.kind, r.space, 0, 0] ++ leBytes r.tid 4 ++ leBytes r.k 8 ++ leBytes r.hframe 8 ++ leBytes 0 8)) 32).wr (ringPA 0x14) ((s.rd (ringPA 0x14) 4 + 1) % 2 ^ 32) 4
    exec .mailboxRecordWrite s = .next { t with awl := { s.awl with mail := rest, msix := s.awl.msix ++ [64] } } := by
  intro t
  have ha : t.awl = s.awl := (wr_awl _ _ _ _).trans (wr_awl _ _ _ _)
  rw [exec_mailboxRecordWrite, execMailboxRecordWrite]
  simp only [hm, recordBytes_eq]
  exact (if_neg fun h => h.elim h0 hf).trans (congrArg _ (mailed_eq ha rest))

theorem mailboxRecordWrite_none {s : State}
    (h : s.awl.mail = [] ∨ s.rd (ringPA 8) 8 = 0 ∨ (s.rd (ringPA 0x14) 4 + 2 ^ 32 - s.rd (ringPA 0x18) 4) % 2 ^ 32 = 2 ^ s.rd (ringPA 16) 1) :
    exec .mailboxRecordWrite s = .fault (.notEnabled "MAILBOX_RECORD_WRITE") := by
  rw [exec_mailboxRecordWrite, execMailboxRecordWrite]
  cases hm : s.awl.mail with
  | nil => rfl
  | cons r rest => exact if_pos (h.resolve_left (by simp [hm]))

/-- What a rebuilt entry leaves, from the space, the address and the size of the entry (R266). -/
theorem entryRebuild_known {s : State} {sp : BitVec 6} {pa : BitVec 64} {y : Space} {a size : Nat} (hy : s.space sp = y) (ha : pa.toNat = a)
    (hs : (if y.ttbl ≤ a ∧ a < y.ttbl + 16 * y.tcount then 16 else 8) = size) (hb : s.awl.poisonedEntries.contains (sp, a) = true) :
    exec (.entryRebuild sp pa) s = .next (
      if decide (y.treg ≤ a) && decide (a + size ≤ y.treg + y.tlen) && !s.anyPoison (hostAddr (y.shadow + (a - y.treg))) size then
        (({ s with awl := { s.awl with poisonedEntries := s.awl.poisonedEntries.filter fun e => e.2 != a } } : State).wr a
          (s.rd (hostAddr (y.shadow + (a - y.treg))) size) size).mail { kind := 3, space := sp.zeroExtend 8, tid := 0, k := a - y.treg, hframe := 0 }
      else ({ s with awl := { s.awl with poisonedEntries := s.awl.poisonedEntries.filter fun e => e != (sp, a) } } : State).mail
        { kind := 4, space := sp.zeroExtend 8, tid := 0, k := a - y.treg, hframe := 0 }) := by
  rw [exec_entryRebuild, execEntryRebuild]
  simp only [hy, ha, hs, hb, Bool.not_true, Bool.false_eq_true, if_false]
  cases decide (y.treg ≤ a) && decide (a + size ≤ y.treg + y.tlen) && !s.anyPoison (hostAddr (y.shadow + (a - y.treg))) size with
  | false => simp only [Bool.false_eq_true, if_false]
  | true =>
    simp only [if_true]
    rw [rd_congr (s := s)]
    rfl

theorem entryRebuild_unknown {s : State} {sp : BitVec 6} {pa : BitVec 64} (hb : ¬ s.awl.poisonedEntries.contains (sp, pa.toNat) = true) :
    exec (.entryRebuild sp pa) s = .fault (.notEnabled "ENTRY_REBUILD") := if_pos (by rw [Bool.not_eq_true', ← Bool.not_eq_true]; exact hb)

/-- Settles O51. -/
theorem awlEvents : Obligations.AwlEvents := by
  unfold Obligations.AwlEvents
  intro s q sp i core pa x
  refine ⟨awlSlot_spec, fun hp => if_pos hp, fun a ha hd => ?_, fun h => ?_, fun h => (if_neg (not_not_intro h)), fun h => if_pos h, ⟨fun u p rest ho hl => ?_, fun h => ?_⟩, ?_, fun f hf => ?_, fun h => ?_,
    ⟨fun r rest hm h0 hf => mailboxRecordWrite_some hm h0 hf, mailboxRecordWrite_none⟩, ?_⟩
  · rw [exec_packetComplete, execPacketComplete, show (s.queue q).awaiting.find? (fun a => a.index == i) = some a from ha]
    exact if_neg (by simp [hd])
  · rw [exec_packetComplete, execPacketComplete]
    cases ha : (s.queue q).awaiting.find? fun a => a.index == i with
    | none => rfl
    | some a => exact if_pos (by simp [h a ha])
  · rw [exec_enqOutboxAccept, execEnqOutboxAccept, ho]
    exact if_neg (mt of_decide_eq_true (Nat.not_le.mpr hl))
  · rw [exec_enqOutboxAccept, execEnqOutboxAccept]
    cases ho : (s.core core.toNat).outbox with
    | nil => rfl
    | cons e rest => exact if_pos (decide_eq_true (h.resolve_left (by simp [ho])))
  · intro acked rest t commits
    have one : ∀ e, acked = [e] → ¬ commits → exec (.asgenChangeDone sp) s =
        .next (([e].filter fun e => rest.all fun r => !(r.2.2.1 == e.2.2.1 && r.2.2.2 == e.2.2.2)).foldl (fun s e => s.completeLater e.2.2.1 e.2.2.2 0) t) := fun e he hc => by
      have h := asgenChangeDone_some (s := s) (sp := sp) (fun h => by simp [show ackedOf s sp = [e] from he] at h) hc
      rwa [show ackedOf s sp = [e] from he] at h
    refine ⟨fun e he hc => ⟨fun hr => ?_, fun hr => ?_⟩, fun ha hc => asgenChangeDone_some ha hc, fun h => asgenChangeDone_none h⟩
    · refine (one e he hc).trans ?_
      obtain ⟨r, hr, h⟩ := hr
      have hall : (rest.all fun r => !(r.2.2.1 == e.2.2.1 && r.2.2.2 == e.2.2.2)) = false := List.all_eq_false.mpr ⟨r, hr, by simp [h]⟩
      simp only [List.filter_singleton, hall]
      rfl
    · refine (one e he hc).trans ?_
      have hall : (rest.all fun r => !(r.2.2.1 == e.2.2.1 && r.2.2.2 == e.2.2.2)) = true := List.all_eq_true.mpr fun r hr' => by
        have hne := hr r hr'
        rw [Ne, Prod.ext_iff] at hne
        simpa [imp_iff_not_or] using hne
      simp only [List.filter_singleton, hall]
      rfl
  · rw [exec_flipDrainDone, execFlipDrainDone, hf]
    intro staged
    exact ⟨fun h => if_pos ((stagesFrame_iff _ _).mpr h), fun h => if_neg fun hn => h ((stagesFrame_iff _ _).mp hn)⟩
  · rw [exec_flipDrainDone, execFlipDrainDone, h]
  · intro y a bad size good t record
    have readable : (decide (y.treg ≤ a) && decide (a + size ≤ y.treg + y.tlen) && !s.anyPoison (hostAddr (y.shadow + (a - y.treg))) size) = true ↔ good := by
      simp only [good, Bool.and_eq_true, decide_eq_true_eq, Bool.not_eq_true']
    exact ⟨fun hb hg => (entryRebuild_known rfl rfl rfl hb).trans (congrArg _ (if_pos (readable.mpr hg))),
      fun hb hg => (entryRebuild_known rfl rfl rfl hb).trans (congrArg _ (if_neg fun h => hg (readable.mp h))), entryRebuild_unknown⟩

end Sys2Proof.Proofs
end

