-- ==== Sys2Proof/Proofs/MemoryFrame.lean ====
section
namespace Sys2Proof.Proofs
open Sys2Proof Sys2Proof.Machine

-- One theorem after another: side by side they need more memory than one run may take.
set_option Elab.async false

/-! # What leaves memory as it stands

For each function of the model that writes no byte, that memory after it is memory before it. -/

@[simp] theorem focusOn_mem (s : State) (idx : ℕ) : (State.focusOn s idx).mem = s.mem :=
  rfl

@[simp] theorem countFor_mem (s : State) (uid : ℕ) (name : String) : (State.countFor s uid name).mem = s.mem := by
  unfold State.countFor
  split <;> simp

@[simp] theorem countCorrectable_mem (s : State) (uid : ℕ) (m : Memory) : (State.countCorrectable s uid m).mem = s.mem := by
  unfold State.countCorrectable
  split <;> simp

@[simp] theorem countCause_mem (s : State) (uid : ℕ) (code : ℕ) : (State.countCause s uid code).mem = s.mem := by
  simp [State.countCause]

@[simp] theorem countMany_mem (s : State) (uid : Nat) (name : String) (k : Nat) : (s.countMany uid name k).mem = s.mem := by
  induction k generalizing s with
  | zero => rfl
  | succ k ih => exact (ih _).trans (countFor_mem s uid name)

@[simp] theorem postFailure_mem (s : State) (n : Node) (fstat : BitVec 32) : (State.postFailure s n fstat).mem = s.mem := by
  unfold State.postFailure
  split <;> simp

@[simp] theorem graphFailed_mem (s : State) (g : ℕ) (fstat : BitVec 32) : (State.graphFailed s g fstat).mem = s.mem :=
  rfl

@[simp] theorem rewind_mem (s : State) : (State.rewind s).mem = s.mem := by
  unfold State.rewind
  split <;> simp

@[simp] theorem trapLater_mem (s : State) (dist : ℕ) (code : BitVec 7) (val : Word) : (State.trapLater s dist code val).mem = s.mem :=
  rfl

@[simp] theorem touch_mem (s : State) (uid : Nat) (unit : BitVec 3) (addr : Option (BitVec 22)) (x : Option Nat) :
    (s.touch uid unit addr x).mem = s.mem := by
  unfold State.touch
  split
  · rfl
  · have hc : ∀ o : Option Core, (match o, addr with
        | some c, some a => (s.countFor uid "guard touches").setCore { c with guardAddr := some a }
        | _, _ => s.countFor uid "guard touches").mem = s.mem := fun o => by split <;> simp
    dsimp only
    split <;> exact (State.setNode_mem _ _).trans (hc _)

@[simp] theorem setP_mem (s : State) (p : BitVec 3) (v : Bool) : (State.setP s p v).mem = s.mem := by
  simp [State.setP]

@[simp] theorem jumpRel_mem (s : State) (k : ℤ) : (State.jumpRel s k).mem = s.mem :=
  rfl

@[simp] theorem mapNode_mem (s : State) (uid : ℕ) (f : Node → Node) : (State.mapNode s uid f).mem = s.mem := by
  simp [State.mapNode]

@[simp] theorem joinFired_mem (s : State) (uid : Nat) (cb : Bool) (fuel : Nat) : (s.joinFired uid cb fuel).mem = s.mem := by
  induction fuel generalizing s with
  | zero => rfl
  | succ fuel ih =>
    unfold State.joinFired
    split
    · rfl
    · split
      · rfl
      · exact (ih _).trans (by simp)

@[simp] theorem fireSlot_mem (s : State) (uid : ℕ) (cb : Bool) (fires : CopyCmd → Bool) : (State.fireSlot s uid cb fires).mem = s.mem := by
  simp [State.fireSlot]

@[simp] theorem reseat_mem (s : State) (uid : ℕ) : (State.reseat s uid).mem = s.mem := by
  simp [State.reseat]

@[simp] theorem fireArmed_mem (s : State) (uid : ℕ) : (State.fireArmed s uid).mem = s.mem := by
  unfold State.fireArmed
  dsimp only
  split <;> simp

@[simp] theorem settleWaits_mem (s : State) (uid : ℕ) : (State.settleWaits s uid).mem = s.mem := by
  unfold State.settleWaits
  dsimp only
  split <;> simp

@[simp] theorem addCounter_mem (s : State) (uid : ℕ) (c : BitVec 6) (v : ℕ) : (State.addCounter s uid c v).mem = s.mem := by
  simp [State.addCounter]

@[simp] theorem countCorrected_mem (s : State) (uid : ℕ) (l : List (Option ElemRead)) : (State.countCorrected s uid l).mem = s.mem := by
  unfold State.countCorrected
  exact foldl_mem (fun _ _ => by simp) _ _

@[simp] theorem putTile_mem (s : State) (dist : ℕ) (d : TileView) (out : List ((ℕ × Bool) × Bool)) (srcSat : Bool) : (State.putTile s dist d out srcSat).mem = s.mem :=
  rfl

@[simp] theorem setPair_mem (s : State) (sp : Splice) : (State.setPair s sp).mem = s.mem :=
  rfl

@[simp] theorem fillBuffer_mem (s : State) (t : Tile) (shape : BitVec 32) (h : Handle) : (State.fillBuffer s t shape h).mem = s.mem :=
  rfl

@[simp] theorem takeBuffer_mem (s : State) (b : FwdBuffer) : (State.takeBuffer s b).mem = s.mem :=
  rfl

@[simp] theorem elideTile_mem (s : State) (h : Handle) (A : TileView) (cells : List Cell) : (State.elideTile s h A cells).mem = s.mem := by
  unfold State.elideTile
  split <;> simp

@[simp] theorem queueCopy_mem (s : State) (c : CopyCmd) : (s.queueCopy c).mem = s.mem := by
  unfold State.queueCopy
  dsimp only
  split <;> split <;> simp

@[simp] theorem cancelSlot_mem (s : State) (cb : Bool) : (State.cancelSlot s cb).mem = s.mem :=
  rfl

@[simp] theorem decrement_mem (s : State) (uid : Nat) : (s.decrement uid).mem = s.mem := by
  unfold State.decrement
  dsimp only
  split
  · rfl
  · split <;> simp

@[simp] theorem dropWrite_mem (s : State) : (State.dropWrite s).mem = s.mem :=
  rfl

@[simp] theorem makeHolder_mem (s : State) (prio : ℕ) (q : ℕ) : (State.makeHolder s prio q).mem = s.mem :=
  rfl

@[simp] theorem passHolder_mem (s : State) (prio : Nat) : (s.passHolder prio).mem = s.mem := by
  unfold State.passHolder
  dsimp only
  split
  · rfl
  · split <;> simp

@[simp] theorem afterPacket_mem (s : State) (q : BitVec 6) : (s.afterPacket q).mem = s.mem := by
  unfold State.afterPacket
  dsimp only
  split
  · simp
  · split
    · simp
    · split <;> split <;> simp

@[simp] theorem failLater_mem (s : State) (q : BitVec 6) (index : BitVec 32) (status : BitVec 16) : (s.failLater q index status).mem = s.mem := by
  unfold State.failLater
  split
  · split <;> simp
  · rfl

@[simp] theorem dropFlits_mem (s : State) (q : BitVec 6) : (State.dropFlits s q).mem = s.mem :=
  rfl

@[simp] theorem unplaceOne_mem (s : State) (uid : ℕ) : (State.unplaceOne s uid).mem = s.mem := by
  simp [State.unplaceOne]

@[simp] theorem unplace_mem (s : State) (uid : ℕ) : (State.unplace s uid).mem = s.mem := by
  unfold State.unplace
  dsimp only
  split <;> simp

@[simp] theorem drainCore_mem (s : State) (idx : Nat) : (s.drainCore idx).mem = s.mem :=
  foldl_mem (fun s u => by split <;> simp) _ _

@[simp] theorem startJob_mem (s : State) (j : BindJob) : (State.startJob s j).mem = s.mem := by
  unfold State.startJob
  exact foldl_mem (fun _ _ => by simp) _ _

@[simp] theorem formGang_mem (s : State) (j : BindJob) : (State.formGang s j).mem = s.mem := by
  unfold State.formGang
  exact foldl_mem (fun _ _ => by simp) _ _

@[simp] theorem dissolveGang_mem (s : State) (j : BindJob) : (State.dissolveGang s j).mem = s.mem := by
  unfold State.dissolveGang
  exact foldl_mem (fun _ _ => by simp) _ _

@[simp] theorem startRebind_mem (s : State) (j : BindJob) (idx : ℕ) (y : ℕ) (plan : List (ℕ × ℕ × List BoundHalf)) : (State.startRebind s j idx y plan).mem = s.mem := by
  simp [State.startRebind]

@[simp] theorem noteBinding_mem (s : State) (idx : ℕ) : (State.noteBinding s idx).mem = s.mem :=
  rfl

@[simp] theorem moveCore_mem (s : State) (idx : ℕ) (site : ℕ) (l : List BoundHalf) : (State.moveCore s idx site l).mem = s.mem :=
  rfl

@[simp] theorem applyPlan_mem (s : State) (plan : List (ℕ × ℕ × List BoundHalf)) : (State.applyPlan s plan).mem = s.mem := by
  unfold State.applyPlan
  exact foldl_mem (fun _ _ => by simp) _ _

@[simp] theorem rebind_mem (s : State) (j : BindJob) : (State.rebind s j).mem = s.mem := by
  simp [State.rebind]

@[simp] theorem retireCore_mem (s : State) (idx : ℕ) : (State.retireCore s idx).mem = s.mem :=
  rfl

@[simp] theorem mendCore_mem (s : State) (idx : Nat) : (s.mendCore idx).mem = s.mem := by
  unfold State.mendCore
  dsimp only
  split
  · rfl
  · split <;> simp

@[simp] theorem softRepair_mem (s : State) (chan : ℕ) (bank : ℕ) (row : ℕ) : (State.softRepair s chan bank row).mem = s.mem :=
  rfl

@[simp] theorem degrade_mem (s : State) (p : ℕ) : (State.degrade s p).mem = s.mem :=
  rfl

@[simp] theorem writeLink_mem (s : State) : (State.writeLink s).mem = s.mem := by
  unfold State.writeLink
  split <;> simp

@[simp] theorem moveOrigins_mem (s : State) (l : Loop) (times : ℤ) : (State.moveOrigins s l times).mem = s.mem := by
  unfold State.moveOrigins
  exact foldl_mem (fun _ _ => by simp) _ _

@[simp] theorem leaveLevels_mem (s : State) (n m : Nat) : (s.leaveLevels n m).mem = s.mem := by
  induction m generalizing s with
  | zero => rfl
  | succ m ih =>
    refine (ih _).trans ?_
    split <;> simp

@[simp] theorem setResident_mem (s : State) (r : Resident) : (State.setResident s r).mem = s.mem :=
  rfl

@[simp] theorem startSegment_mem (s : State) (seg : Nat) (half1 : Bool) : (s.startSegment seg half1).mem = s.mem := by
  unfold State.startSegment
  split
  · rfl
  · split
    · rfl
    · split <;> simp

@[simp] theorem setAcc_mem (s : State) (a : BitVec 4) (x : Acc) : (State.setAcc s a x).mem = s.mem :=
  rfl

@[simp] theorem irreversible_mem (s : State) : (State.irreversible s).mem = s.mem :=
  rfl

@[simp] theorem applyAbort_mem (s : State) (tag : CollTag) : (s.applyAbort tag).mem = s.mem := by
  unfold State.applyAbort
  dsimp only
  refine foldl_mem (fun s u => (State.mapColl_mem _ _ _ _).trans ?_) _ _
  split
  · split <;> simp
  · rfl

@[simp] theorem startAbort_mem (s : State) (tag : CollTag) : (s.startAbort tag).mem = s.mem := by
  simp [State.startAbort]

@[simp] theorem linkFlag_mem (s : State) (uid : ℕ) (code : ℕ) : (State.linkFlag s uid code).mem = s.mem := by
  simp [State.linkFlag]

@[simp] theorem touchLink_mem (s : State) (uid : Nat) (g : Option Nat) : (s.touchLink uid g).mem = s.mem := by
  unfold State.touchLink
  split
  · rfl
  · exact (touch_mem _ _ _ _ _).trans rfl

@[simp] theorem passed_mem (s : State) (p : CollPacket) (mine : List HeldDelivery) : (State.passed s p mine).mem = s.mem := by
  simp [State.passed]

@[simp] theorem waitsHere_mem (s : State) (p : CollPacket) (mine : List HeldDelivery) : (State.waitsHere s p mine).mem = s.mem :=
  rfl

@[simp] theorem walk_mem (s : State) (p : CollPacket) (mine : List HeldDelivery) (fuel : Nat) : (s.walk p mine fuel).mem = s.mem := by
  induction fuel generalizing s p mine with
  | zero => exact passed_mem s p mine
  | succ fuel ih =>
    have hgo : ∀ (s : State) (q : CollPacket) (port : Nat),
        (if port = 15 then s.walk q mine fuel else (s.sendOut [(port, .coll q)]).passed q mine).mem = s.mem := fun s q port => by
      split <;> simp [ih]
    unfold State.walk
    dsimp only
    repeat' split
    all_goals simp [ih, hgo]

@[simp] theorem hop_mem (s : State) (p : CollPacket) (fuel : ℕ) : (State.hop s p fuel).mem = s.mem := by
  simp [State.hop]

@[simp] theorem answer_mem (s : State) (d : Delivery) (a : SendAnswer) : (State.answer s d a).mem = s.mem := by
  simp [State.answer]

@[simp] theorem holdSend_mem (s : State) (d : Delivery) : (State.holdSend s d).mem = s.mem := by
  unfold State.holdSend
  split <;> simp

@[simp] theorem sendRead_mem (c : SendCmd) (s : State) (uid i : Nat) : (c.readElem s uid i).2.mem = s.mem := by
  unfold SendCmd.readElem
  dsimp only
  split
  · rfl
  · split
    · rfl
    · simp

theorem sendReads_mem (uid : Nat) (moves : List Nat) (r : SendCmd × State) :
    (moves.foldl (fun r k => r.1.readElem r.2 uid k) r).2.mem = r.2.mem := by
  induction moves generalizing r with
  | nil => rfl
  | cons k moves ih => exact (ih _).trans (sendRead_mem _ _ _ _)

@[simp] theorem moveSend_mem (s : State) (uid place : Nat) (moves : List Nat) : (s.moveSend uid place moves).mem = s.mem := by
  unfold State.moveSend
  dsimp only
  split
  · rfl
  · split
    · rfl
    · simp [sendReads_mem]

@[simp] theorem enter_mem (s : State) (idx : ℕ) (slot : ℕ) (uid : ℕ) : (State.enter s idx slot uid).mem = s.mem := by
  unfold State.enter
  dsimp only
  split <;> simp

@[simp] theorem placeOn_mem (s : State) (n : Node) (idx : ℕ) : (State.placeOn s n idx).mem = s.mem := by
  unfold State.placeOn
  refine foldl_mem (fun _ _ => ?_) _ _
  split <;> simp

@[simp] theorem placeConsumer_mem (s : State) (c : Node) (p : Node) (k : Core) : (State.placeConsumer s c p k).mem = s.mem := by
  unfold State.placeConsumer
  split <;> simp

@[simp] theorem ifGone_mem (s : State) (v : Node) : (State.ifGone s v).mem = s.mem := by
  unfold State.ifGone
  split <;> simp

@[simp] theorem askOut_mem (s : State) (v : Node) : (s.askOut v).mem = s.mem := by
  unfold State.askOut
  dsimp only
  split
  · simp
  · split <;> simp

@[simp] theorem followReserve_mem (s : State) (st : Nat) : (s.followReserve st).mem = s.mem := by
  unfold State.followReserve
  dsimp only
  split <;> exact foldl_mem (fun _ _ => by simp) _ _

@[simp] theorem capReserve_mem (s : State) (st : ℕ) : (State.capReserve s st).mem = s.mem :=
  rfl

@[simp] theorem keepReserve_mem (s : State) (st : ℕ) : (State.keepReserve s st).mem = s.mem := by
  simp [State.keepReserve]

@[simp] theorem countTransition_mem (s : State) (idx : Nat) (old new : Splice) : (s.countTransition idx old new).mem = s.mem := by
  unfold State.countTransition
  split
  · simp
  · split <;> simp

@[simp] theorem raiseBy_mem (s : State) (p : BitVec 3) (n : Word) : (s.raiseBy p n).mem = s.mem := by
  unfold State.raiseBy
  dsimp only
  split
  · simp
  · split
    · simp
    · split <;> simp

@[simp] theorem doneEarly_mem (s : State) : s.doneEarly.mem = s.mem := by
  unfold State.doneEarly
  dsimp only
  split
  · rfl
  · split
    · rfl
    · split <;> simp

@[simp] theorem toOutbox_mem (s : State) (pkt : BitVec 512) : (State.toOutbox s pkt).mem = s.mem :=
  rfl

@[simp] theorem give_mem (s : State) (l : BitVec 6) (count : ℕ) : (State.give s l count).mem = s.mem := by
  unfold State.give
  split <;> simp

@[simp] theorem takeTok_mem (s : State) (p : BitVec 3) (l : BitVec 6) (count : Word) : (State.takeTok s p l count).mem = s.mem :=
  rfl

@[simp] theorem turnTo_mem (s : State) (idx : ℕ) (uid : ℕ) : (State.turnTo s idx uid).mem = s.mem :=
  rfl

@[simp] theorem countDown_mem (s : State) (l : List ℕ) : (State.countDown s l).mem = s.mem := by
  unfold State.countDown
  exact foldl_mem (fun _ _ => by simp) _ _

@[simp] theorem lookAhead_mem (s : State) (uid tid off len : Nat) : (s.lookAhead uid tid off len).mem = s.mem := by
  unfold State.lookAhead
  dsimp only
  split
  · rfl
  · split <;> simp

@[simp] theorem newGeneration_mem (s : State) (k : ℕ) (q : BitVec 6) (index : BitVec 32) : (State.newGeneration s k q index).mem = s.mem :=
  rfl

@[simp] theorem ownJcbs_mem (s : State) (q : BitVec 6) (touched : List ℕ) : (State.ownJcbs s q touched).mem = s.mem :=
  rfl

@[simp] theorem postRefusal_mem (s : State) (q : BitVec 6) (jcb : Option (BitVec 12)) (code : ℕ) (node : ℕ) : (State.postRefusal s q jcb code node).mem = s.mem := by
  unfold State.postRefusal
  split <;> simp

@[simp] theorem sliceChange_mem (s : State) (t : BitVec 6) (prio : BitVec 3) (slice : BitVec 16) : (State.sliceChange s t prio slice).mem = s.mem :=
  rfl

@[simp] theorem askFlip_mem (s : State) (sp : BitVec 6) (tid : ℕ) (k : ℕ) (entry : ℕ) (hframe : ℕ) : (State.askFlip s sp tid k entry hframe).mem = s.mem := by
  simp [State.askFlip]

@[simp] theorem noteFaults_mem (s : State) (q : BitVec 6) (host : Bool) (p : BitVec 512) : (s.noteFaults q host p).mem = s.mem :=
  foldl_mem (fun s r => foldl_mem (fun s o => by
    split
    · rfl
    · split <;> simp) _ _) _ _

@[simp] theorem inProgress_mem (s : State) (q : BitVec 6) (index : BitVec 32) (p : BitVec 512) (left : ℕ) (waiting : Bool) : (State.inProgress s q index p left waiting).mem = s.mem :=
  rfl

@[simp] theorem enqBad_mem (s : State) (uid : ℕ) (p : BitVec 512) : (State.enqBad s uid p).mem = s.mem := by
  unfold State.enqBad
  split <;> simp

@[simp] theorem serveTake_mem (s : State) (uid id : Nat) (link : BitVec 6) (count : Word) : (s.serveTake uid id link count).mem = s.mem := by
  unfold State.serveTake
  dsimp only
  split
  · split <;> simp
  · simp

@[simp] theorem rereadMarks_mem (s : State) : s.rereadMarks.mem = s.mem :=
  foldl_mem (fun s u => by split <;> simp) _ _

@[simp] theorem abandonSegment_mem (s : State) (n : Node) : (State.abandonSegment s n).mem = s.mem :=
  rfl

@[simp] theorem vrows_mem (s : State) (D : TileView) (A : TileView) (tiles : List TileView) (f : List ℤ → List (ℕ × Bool)) (poi : ℕ → Bool) (sat : Bool) : (State.vrows s D A tiles f poi sat).mem = s.mem :=
  rfl

@[simp] theorem bootStack_mem (s : State) (st : Nat) (fronts : List (Nat × Nat)) (halves : List (Nat × Nat × BitVec 1)) :
    (s.bootStack st fronts halves).mem = s.mem := by
  unfold State.bootStack
  generalize List.range 256 = l
  dsimp only
  exact (capReserve_mem _ _).trans (foldl_mem (fun s i => mendCore_mem s _) _ _)

@[simp] theorem setExtent_mem (s : State) (axis : Axis) (n : ℕ) : (State.setExtent s axis n).mem = s.mem :=
  rfl

@[simp] theorem endProbe_mem (s : State) (axis : Axis) (n : ℕ) : (State.endProbe s axis n).mem = s.mem :=
  rfl

@[simp] theorem ownRebind_mem (s : State) (idx : ℕ) (b : BoundHalf) : (State.ownRebind s idx b).mem = s.mem := by
  unfold State.ownRebind
  dsimp only
  split <;> simp

@[simp] theorem failHalf_mem (s : State) (st : ℕ) (b : BoundHalf) (slot : EngineSlot) : (State.failHalf s st b slot).mem = s.mem :=
  rfl

@[simp] theorem atWord_mem (s : State) (l : List BWord) (w : BWord) : (State.atWord s l w).mem = s.mem :=
  rfl

@[simp] theorem endStream_mem (s : State) (uid : ℕ) : (State.endStream s uid).mem = s.mem :=
  rfl

@[simp] theorem noCurrent_mem (s : State) : (State.noCurrent s).mem = s.mem :=
  rfl

@[simp] theorem enterBundle_mem (s : State) (na : ℕ) : (State.enterBundle s na).mem = s.mem :=
  rfl

@[simp] theorem noteShared_mem (s : State) (emap : BitVec 8) (l : List BWord) : (State.noteShared s emap l).mem = s.mem := by
  unfold State.noteShared
  split <;> simp

@[simp] theorem markRedo_mem (s : State) (c : ℕ) : (State.markRedo s c).mem = s.mem := by
  unfold State.markRedo
  dsimp only
  split <;> simp

@[simp] theorem cancelNow_mem (s : State) (uid : ℕ) (cb : Bool) : (State.cancelNow s uid cb).mem = s.mem := by
  unfold State.cancelNow
  split <;> simp

@[simp] theorem spoil_mem (s : State) (uid : ℕ) (lost : List ℕ) : (State.spoil s uid lost).mem = s.mem := by
  simp [State.spoil]

@[simp] theorem touched_mem (s : State) (g : Option ℕ) : (State.touched s g).mem = s.mem := by
  simp [State.touched]

@[simp] theorem leftWaiting_mem (s : State) (q : BitVec 6) (index : BitVec 32) (p : BitVec 512) (graph : ℕ) : (State.leftWaiting s q index p graph).mem = s.mem := by
  simp [State.leftWaiting]

/-! The functions that answer more than a state. -/

@[simp] theorem takeFreeBool_mem (s : State) : s.takeFreeBool.2.mem = s.mem :=
  rfl

@[simp] theorem takeFreeNat_mem (s : State) : s.takeFreeNat.2.mem = s.mem :=
  rfl

@[simp] theorem sparesWord_mem (s : State) : s.sparesWord.2.mem = s.mem := by
  unfold State.sparesWord
  dsimp only
  split <;> rfl

@[simp] theorem createNodes_memory (s : State) (sp : BitVec 6) (jcb : Option (BitVec 12)) (parent : Nat) (l : List Checked) :
    (s.createNodes sp jcb parent l).2.mem = s.mem :=
  rfl

@[simp] theorem launchImage_mem (s : State) (sp : BitVec 6) (host : Bool) (addr : Nat) : (s.launchImage sp host addr).1.mem = s.mem := by
  unfold State.launchImage
  dsimp only
  repeat' split
  all_goals rfl

theorem launchNodeCheck_mem (s : State) (sp : BitVec 6) (host : Bool) (addr index : Nat) (solo : Bool) (seed step : BitVec 32) :
    (s.launchNodeCheck sp host addr index solo seed step).1.mem = s.mem := by
  have himg : ∀ a s' r, s.launchImage sp host a = (s', r) → s'.mem = s.mem := fun a s' r h => (congrArg (·.1.mem) h).symm.trans (launchImage_mem s sp host a)
  unfold State.launchNodeCheck
  dsimp only
  split
  · rfl
  split
  · rfl
  split
  · rfl
  split
  · rfl
  split
  next h => exact himg _ _ _ h
  next h =>
    repeat' split
    all_goals exact himg _ _ _ h

theorem launchNodes_mem (sp : BitVec 6) (host : Bool) (addr : Nat) (solo : Bool) (seed step : BitVec 32) :
    ∀ (n i : Nat) (s : State), (s.launchNodes sp host addr solo seed step i n).1.mem = s.mem
  | 0, _, _ => rfl
  | n + 1, i, s => by
    have hcheck := launchNodeCheck_mem s sp host (addr + 512 * i) i solo seed step
    unfold State.launchNodes
    split
    next s' e he => rw [he] at hcheck; exact hcheck
    next s' c he =>
      rw [he] at hcheck
      have hrest := (launchNodes_mem sp host addr solo seed step n (i + 1) s').trans hcheck
      split
      next hr => rw [hr] at hrest; exact hrest
      next hr => rw [hr] at hrest; exact hrest

theorem launch_mem (s : State) (sp : BitVec 6) (host : Bool) (addr n : Nat) (solo : Bool) (seed step : BitVec 32) (jcb : Option (BitVec 12)) (parent : Nat) :
    (s.launch sp host addr n solo seed step jcb parent).1.mem = s.mem := by
  have hn := launchNodes_mem sp host addr solo seed step n 0 s
  unfold State.launch
  split
  next he => rw [he] at hn; exact hn
  next he => rw [he] at hn; exact hn
  next he =>
    rw [he] at hn
    split
    · exact hn
    · split
      · exact hn
      · exact hn

@[simp] theorem launchPacket_mem (s : State) (q : BitVec 6) (host : Bool) (parent : Nat) (p : BitVec 512) : (s.launchPacket q host parent p).1.mem = s.mem := by
  unfold State.launchPacket
  split <;> exact launch_mem _ _ _ _ _ _ _ _ _ _

theorem readWindow_mem {s s' : State} {uid : Nat} {h : Handle} {exts : List Nat} {got : List (Nat × Option ElemRead)} {es : List Elem}
    (hr : s.readWindow uid h exts got = .ok (es, s')) : s'.mem = s.mem := by
  unfold State.readWindow at hr
  split at hr
  · cases hr
  · cases hr; simp

theorem transmit_mem {s s' : State} {n : Node} {c : SendCmd} {d : Delivery} (h : s.transmit n c = .ok (d, s')) : s'.mem = s.mem := by
  unfold State.transmit at h
  dsimp only at h
  split at h
  · cases h; rfl
  · split at h
    next hr => cases h; exact readWindow_mem hr
    · cases h; rfl
    · cases h

theorem loadScales_mem (uid : Nat) : ∀ (l : List (Handle × Word)) (s : State) (k : Vector (BitVec 32) 64), (s.loadScales uid k l).1.mem = s.mem
  | [], _, _ => rfl
  | (h, a) :: rest, s, k => by
    unfold State.loadScales
    split
    · rfl
    · dsimp only
      split
      · simp
      · exact (loadScales_mem uid rest _ _).trans (by simp)

theorem ensureCode_mem {s s' : State} {n : Node} {first : Bool} (h : s.ensureCode n first = .ok s') : s'.mem = s.mem := by
  unfold State.ensureCode at h
  dsimp only at h
  split at h
  · cases h
  · cases h; simp

@[simp] theorem delivered_mem (s : State) (tid off : Nat) (bs : List (Byte × Bool)) : (s.delivered tid off bs).2.mem = s.mem := by
  unfold State.delivered
  split
  · rfl
  · exact State.mapRun_mem _ _

theorem awlStands_mem {s s' t : State} {q : BitVec 6} {fw ks : List Nat} (h : s.awlStands s' q fw = .ok (t, ks)) : t.mem = s'.mem := by
  unfold State.awlStands at h
  split at h
  · cases h
  · split at h
    · cases h
    · cases h; simp

@[simp] theorem written_mem (s : State) (q : BitVec 6) (index : BitVec 32) (ks : List Nat) : (s.written q index ks).1.mem = s.mem := by
  unfold State.written
  split
  · rfl
  · exact foldl_mem (fun _ _ => by simp) _ _

@[simp] theorem tokenGive_mem (s : State) (q : BitVec 6) (n count : Nat) : (s.tokenGive q n count).1.mem = s.mem := by
  unfold State.tokenGive
  split
  · rfl
  · split <;> simp

@[simp] theorem tokenWait_mem (s : State) (q : BitVec 6) (n count : Nat) : (s.tokenWait q n count).1.mem = s.mem := by
  unfold State.tokenWait
  split
  · rfl
  · split <;> simp

@[simp] theorem bindPacket_mem (s : State) (q : BitVec 6) (index : BitVec 32) (p : BitVec 512) : (s.bindPacket q index p).1.mem = s.mem := by
  unfold State.bindPacket
  dsimp only
  split
  · split <;> simp
  · split <;> simp
  · rfl

@[simp] theorem attestPacket_mem (s : State) (q : BitVec 6) (index : BitVec 32) (p : BitVec 512) : (s.attestPacket q index p).1.mem = s.mem := by
  unfold State.attestPacket
  dsimp only
  split
  · rfl
  · split
    · rfl
    · split <;> rfl

end Sys2Proof.Proofs
end

