-- ==== Sys2Proof/Proofs/CanonicalMemory.lean ====
section
namespace Sys2Proof.Proofs
open Sys2Proof Sys2Proof.Machine

-- One theorem after another: side by side they need more memory than one run may take.
set_option Elab.async false

/-! # Memory stays in canonical form

Every function of the model that writes a byte keeps memory canonical; the step then does. -/

/-! ## Writes, raises, failure and rollback -/

theorem ite_wf {c : Prop} [Decidable c] {a b : State} (ha : Memory.wf a.mem = true) (hb : Memory.wf b.mem = true) : Memory.wf (if c then a else b).mem = true := by
  split
  · exact ha
  · exact hb

theorem foldl_wf {α : Type} {f : State → α → State} (hf : ∀ s a, Memory.wf s.mem = true → Memory.wf (f s a).mem = true) (l : List α) {s : State}
    (h : Memory.wf s.mem = true) : Memory.wf (l.foldl f s).mem = true := by
  induction l generalizing s with
  | nil => exact h
  | cons a l ih => exact ih (hf s a h)

@[simp] theorem setByte_wf {s : State} (h : Memory.wf s.mem = true) (pa : Nat) (b : Byte) (p : Bool) : Memory.wf (s.setByte pa b p).mem = true :=
  s.setByte_canonical h pa b p

@[simp] theorem wr_wf {s : State} (h : Memory.wf s.mem = true) (pa v n : Nat) : Memory.wf (s.wr pa v n).mem = true :=
  s.wr_canonical h pa v n

@[simp] theorem writeArea_wf {s : State} (h : Memory.wf s.mem = true) (base len : Nat) (cells : List Host.Cell) (poison : List Nat) :
    Memory.wf (s.writeArea base len cells poison).mem = true :=
  (s.writeArea_byte h base len cells poison 0).1

@[simp] theorem jcbOr_wf {s : State} (h : Memory.wf s.mem = true) (j : BitVec 12) (bits : Nat) : Memory.wf (s.jcbOr j bits).mem = true :=
  wr_wf h _ _ _

@[simp] theorem jcbRaise_wf {s : State} (h : Memory.wf s.mem = true) (j : BitVec 12) (n : Nat) (posted : Bool) : Memory.wf (s.jcbRaise j n posted).2.mem = true := by
  unfold State.jcbRaise
  dsimp only
  split
  · simp [h]
  · split <;> simp [h]

@[simp] theorem jcbWithdraw_wf {s : State} (h : Memory.wf s.mem = true) (j : BitVec 12) (n : Nat) : Memory.wf (s.jcbWithdraw j n).mem = true :=
  wr_wf h _ _ _

@[simp] theorem raiseOpen_wf {s : State} (h : Memory.wf s.mem = true) (j : BitVec 12) (l : List RaiseReq) : Memory.wf (s.raiseOpen j l).2.mem = true := by
  induction l generalizing s with
  | nil => exact h
  | cons r l ih =>
    unfold State.raiseOpen
    split
    · exact ih h
    · exact ih (jcbRaise_wf h _ _ _)

@[simp] theorem settleRaises_wf {s : State} (h : Memory.wf s.mem = true) (uid : Nat) : Memory.wf (s.settleRaises uid).mem = true := by
  unfold State.settleRaises
  split <;> simp [h]

@[simp] theorem withdrawRun_wf {s : State} (h : Memory.wf s.mem = true) (uid : Nat) : Memory.wf (s.withdrawRun uid).mem = true := by
  unfold State.withdrawRun
  dsimp only
  split
  · split <;> simp [h]
  · exact h

@[simp] theorem failNode_wf {s : State} (h : Memory.wf s.mem = true) (uid : Nat) (fstat : BitVec 32) : Memory.wf (s.failNode uid fstat).mem = true := by
  unfold State.failNode
  dsimp only
  split
  · exact h
  · split <;> simp [h]

@[simp] theorem rollback_wf {s : State} (h : Memory.wf s.mem = true) (uid : Nat) (mark : Option (Nat × Nat × Nat)) : Memory.wf (s.rollback uid mark).mem = true := by
  unfold State.rollback
  dsimp only
  split
  · exact h
  split
  · simp [h]
  split
  · simp [h]
  · split <;> split <;> simp [h]

@[simp] theorem takeTrap_wf {s : State} (h : Memory.wf s.mem = true) (x : Cause) : Memory.wf (s.takeTrap x).mem = true := by
  unfold State.takeTrap
  dsimp only
  split
  · simp [h]
  · simp only [apply_ite State.mem]
    split
    · split <;> simp [h, apply_ite State.mem]
    · simp [h, apply_ite State.mem]

@[simp] theorem trapHere_wf {s : State} (h : Memory.wf s.mem = true) (code : BitVec 7) (val : Word) : Memory.wf (s.trapHere code val).mem = true :=
  takeTrap_wf h _

@[simp] theorem memFault_wf {s : State} (h : Memory.wf s.mem = true) (uid : Nat) (f : MFault) : Memory.wf (s.memFault uid f).mem = true := by
  unfold State.memFault
  dsimp only
  repeat' split
  all_goals simp [h]

/-! ## Stores -/

@[simp] theorem writePlace_wf {s : State} (h : Memory.wf s.mem = true) (uid : Nat) (pl : Place) (v : Byte) (poison : Bool) :
    Memory.wf (s.writePlace uid pl v poison).mem = true := by
  unfold State.writePlace
  dsimp only
  split
  · exact h
  · simp [h]
  · split
    · simp [h]
    split
    · exact setByte_wf h _ _ _
    split
    · simp [h]
    split <;> simp [h]

@[simp] theorem performStore_wf {s : State} (h : Memory.wf s.mem = true) (e : LateStore) : Memory.wf (s.performStore e).mem = true :=
  foldl_wf (fun _ _ h => writePlace_wf h _ _ _ _) _ h

@[simp] theorem drain_wf {s : State} (h : Memory.wf s.mem = true) (uid : Nat) : Memory.wf (s.drain uid).mem = true :=
  foldl_wf (fun _ _ h => performStore_wf h _) _ h

@[simp] theorem performAt_wf {s : State} (h : Memory.wf s.mem = true) (i : Nat) : Memory.wf (s.performAt i).mem = true := by
  unfold State.performAt
  split
  · exact h
  · split <;> simp [h]

@[simp] theorem writePlaces_wf {s : State} (h : Memory.wf s.mem = true) (uid : Nat) (l : List (Place × Byte × Bool)) : Memory.wf (s.writePlaces uid l).mem = true :=
  foldl_wf (fun _ _ h => writePlace_wf h _ _ _ _) _ h

theorem writeBytes_wf {s t : State} (h : Memory.wf s.mem = true) {uid : Nat} {unit : BitVec 3} {addr : Option (BitVec 22)} {tid off : Nat} {l : List (Byte × Bool)}
    (ht : s.writeBytes uid unit addr tid off l = .ok t) : Memory.wf t.mem = true := by
  unfold State.writeBytes at ht
  dsimp only at ht
  split at ht
  · cases ht
  · split at ht
    · cases ht
    · cases ht; simp [h]

@[simp] theorem doWrite_wf {s : State} (h : Memory.wf s.mem = true) (uid : Nat) (w : ByteWrite) : Memory.wf (s.doWrite uid w).mem = true :=
  writePlace_wf h _ _ _ _

@[simp] theorem doWrites_wf {s : State} (h : Memory.wf s.mem = true) (uid : Nat) (unit : BitVec 3) (addr : Option (BitVec 22)) (l : List ByteWrite) :
    Memory.wf (s.doWrites uid unit addr l).mem = true := by
  unfold State.doWrites
  rw [touch_mem]
  exact foldl_wf (fun _ _ h => doWrite_wf h _ _) _ h

@[simp] theorem performPlan_wf {s : State} (h : Memory.wf s.mem = true) (uid : Nat) (unit : BitVec 3) (addr : Option (BitVec 22)) (l : List ByteWrite) :
    Memory.wf (s.performPlan uid unit addr l).mem = true := by
  unfold State.performPlan
  dsimp only
  split <;> simp [h]

/-! ## Faults of words -/

@[simp] theorem jumpTo_wf {s : State} (h : Memory.wf s.mem = true) (target : Nat) : Memory.wf (s.jumpTo target).mem = true := by
  unfold State.jumpTo
  split <;> simp [h]

@[simp] theorem wordFault_wf {s : State} (h : Memory.wf s.mem = true) (f : MFault) (val : Word) : Memory.wf (s.wordFault f val).mem = true := by
  unfold State.wordFault
  split <;> simp [h]

@[simp] theorem handleFault_wf {s : State} (h : Memory.wf s.mem = true) (f : HandleFault) (num : BitVec 4) (dest : Bool) (hd : Handle) :
    Memory.wf (s.handleFault f num dest hd).mem = true := by
  unfold State.handleFault
  split <;> simp [h]

@[simp] theorem engineFault_wf {s : State} (h : Memory.wf s.mem = true) (f : HandleFault) (num : BitVec 4) (dest : Bool) (hd : Handle) :
    Memory.wf (s.engineFault f num dest hd).mem = true := by
  unfold State.engineFault
  split <;> simp [h]

@[simp] theorem consume_wf {s : State} (h : Memory.wf s.mem = true) : Memory.wf s.consume.mem = true := by
  simp [State.consume, h]

/-! ## Vector words, tiles and copies -/

theorem vword_wf {s : State} (h : Memory.wf s.mem = true) (l : List TileView) (ok : Bool) {body : State → State}
    (hb : ∀ s, Memory.wf s.mem = true → Memory.wf (body s).mem = true) : Memory.wf (s.vword l ok body).mem = true := by
  unfold State.vword
  split
  · exact hb s h
  · exact trapHere_wf h _ _

@[simp] theorem vun_wf {s : State} (h : Memory.wf s.mem = true) (mul : Nat) (u : Bool) (d a : BitVec 6) (ok : TileView → TileView → Bool)
    (f : Nat → Nat → Int → Nat × Bool) : Memory.wf (s.vun mul u d a ok f).mem = true :=
  vword_wf h _ _ fun _ h => by simp [h]

@[simp] theorem vbin_wf {s : State} (h : Memory.wf s.mem = true) (mul : Nat) (u : Bool) (d a b : BitVec 6) (ok : TileView → TileView → TileView → Bool)
    (f : Nat → Nat → Int → Int → Nat × Bool) : Memory.wf (s.vbin mul u d a b ok f).mem = true :=
  vword_wf h _ _ fun _ h => by simp [h]

@[simp] theorem vtri_wf {s : State} (h : Memory.wf s.mem = true) (mul : Nat) (u : Bool) (d a b : BitVec 6) (ok : TileView → TileView → TileView → Bool)
    (f : Nat → Int → Int → Int → Nat × Bool) : Memory.wf (s.vtri mul u d a b ok f).mem = true :=
  vword_wf h _ _ fun _ h => by simp [h]

@[simp] theorem vreduce_wf {s : State} (h : Memory.wf s.mem = true) (x : BitVec 2) (u : Bool) (d a : BitVec 6) (f : List Int → Int) :
    Memory.wf (s.vreduce x u d a f).mem = true :=
  vword_wf h _ _ fun _ h => by simp [h]

@[simp] theorem storeTile_wf {s : State} (h : Memory.wf s.mem = true) (hn : BitVec 4) (t : BitVec 6) (m : BitVec 2) : Memory.wf (s.storeTile hn t m).mem = true := by
  unfold State.storeTile
  dsimp only
  split
  · simp [h]
  split
  · simp [h]
  · split <;> simp [h]
  · split
    · split <;> simp [h]
    · simp [h]

@[simp] theorem loadTile_wf {s : State} (h : Memory.wf s.mem = true) (hn : BitVec 4) (t : BitVec 6) : Memory.wf (s.loadTile hn t).mem = true := by
  unfold State.loadTile
  dsimp only
  split
  · simp [h]
  split
  · simp [h]
  · split <;> simp [h]

@[simp] theorem issueCopy_wf {s : State} (h : Memory.wf s.mem = true) (i : Instr) (k : CopyKind) (hd hs w : BitVec 4) (x : Option (BitVec 5)) :
    Memory.wf (s.issueCopy i k hd hs w x).mem = true := by
  unfold State.issueCopy
  dsimp only
  repeat' split
  all_goals simp [h]

theorem copyWrite_wf {r : CopyRun} (h : Memory.wf r.st.mem = true) (uid : Nat) (unit : BitVec 3) (addr : Option (BitVec 22)) (l : List ByteWrite) :
    Memory.wf (r.write uid unit addr l).st.mem = true :=
  doWrites_wf h _ _ _ _

theorem copyFetch_mem (r : CopyRun) (uid : Nat) (unit : BitVec 3) (c : CopyCmd) (base j : Nat) (blk : List Nat) :
    (r.fetch uid unit c base j blk).2.st.mem = r.st.mem := by
  unfold CopyRun.fetch
  split
  · rfl
  split
  · rfl
  · split <;> simp

theorem copyElem_wf {r : CopyRun} (h : Memory.wf r.st.mem = true) (uid : Nat) (unit : BitVec 3) (c : CopyCmd) (exts : List Nat) (k i : Nat) (e : Option ElemRead) :
    Memory.wf (copyElem uid unit c exts r k i e).st.mem = true := by
  unfold copyElem
  dsimp only
  split
  · exact h
  split
  · exact h
  · exact copyWrite_wf h _ _ _ _

theorem copyBlock_wf {r : CopyRun} (h : Memory.wf r.st.mem = true) (uid : Nat) (unit : BitVec 3) (c : CopyCmd) (exts : List Nat) (k : Nat) (blk : List Nat)
    (es : List (Option ElemRead)) : Memory.wf (copyBlock uid unit c exts r k blk es).st.mem = true := by
  unfold copyBlock
  dsimp only
  split
  · exact h
  split
  · exact h
  · exact h
  · exact copyWrite_wf h _ _ _ _

theorem copyPart_wf (uid : Nat) (cb : Bool) (c : CopyCmd) (parts : List (List Nat)) {r : CopyRun} (h : Memory.wf r.st.mem = true) (p : Nat) :
    Memory.wf (copyPart uid cb c parts r p).st.mem = true := by
  have hf := fun unit base j blk => (congrArg Memory.wf (copyFetch_mem r uid unit c base j blk)).trans h
  unfold copyPart
  dsimp only
  generalize (if cb = true then 3 else 2 : BitVec 3) = unit
  split
  · exact h
  split
  · exact hf _ _ _ _
  · dsimp only
    split
    · exact copyBlock_wf (hf _ _ _ _) _ _ _ _ _ _ _
    · exact copyElem_wf (hf _ _ _ _) _ _ _ _ _ _ _

theorem copyMove_wf (uid : Nat) (cb : Bool) (c : CopyCmd) {r : CopyRun} (h : Memory.wf r.st.mem = true) (m : Nat × Bool) :
    Memory.wf (copyMove uid cb c r m).st.mem = true := by
  unfold copyMove
  dsimp only
  split
  · exact h
  split
  · rw [copyFetch_mem]; exact h
  · exact copyPart_wf _ _ _ _ h _

/-- Steps of a copy run one after the other keep memory canonical when each does. -/
theorem copyRun_wf {α : Type} {f : CopyRun → α → CopyRun} (hf : ∀ r a, Memory.wf r.st.mem = true → Memory.wf (f r a).st.mem = true) (l : List α) {r : CopyRun}
    (h : Memory.wf r.st.mem = true) : Memory.wf (l.foldl f r).st.mem = true := by
  induction l generalizing r with
  | nil => exact h
  | cons a l ih => exact ih (hf r a h)

theorem runCopy_wf {s : State} (h : Memory.wf s.mem = true) (uid : Nat) (cb : Bool) (c : CopyCmd) (l : List Nat) : Memory.wf (s.runCopy uid cb c l).st.mem = true :=
  copyRun_wf (fun _ _ h => copyPart_wf _ _ _ _ h _) l h

@[simp] theorem moveCopy_wf {s : State} (h : Memory.wf s.mem = true) (uid : Nat) (cb : Bool) (place : Nat) (moves : List (Nat × Bool)) :
    Memory.wf (s.moveCopy uid cb place moves).mem = true := by
  unfold State.moveCopy
  dsimp only
  split
  · exact h
  split
  · exact h
  · rw [mapNode_mem]
    exact copyRun_wf (fun _ _ h => copyMove_wf _ _ _ h _) _ h

@[simp] theorem completeCopy_wf {s : State} (h : Memory.wf s.mem = true) (uid : Nat) (cb : Bool) (c : CopyCmd) : Memory.wf (s.completeCopy uid cb c).mem = true := by
  have hr := runCopy_wf h uid cb c c.rest
  unfold State.completeCopy
  dsimp only
  split
  · exact memFault_wf hr _ _
  · split
    · simp [hr]
    · split <;> split <;> simp [hr]

/-! ## Completions, loops and matrix words -/

@[simp] theorem completePacket_wf {s : State} (h : Memory.wf s.mem = true) (q : BitVec 6) (index : BitVec 32) (p : BitVec 512) (status : BitVec 16) :
    Memory.wf (s.completePacket q index p status).mem = true := by
  unfold State.completePacket
  dsimp only
  repeat' split
  all_goals simp [h]

@[simp] theorem completeLater_wf {s : State} (h : Memory.wf s.mem = true) (q : BitVec 6) (index : BitVec 32) (status : Nat) :
    Memory.wf (s.completeLater q index status).mem = true := by
  unfold State.completeLater
  split
  · split <;> simp [h]
  · exact h

@[simp] theorem resultRecord_wf {s : State} (h : Memory.wf s.mem = true) (q : BitVec 6) (raddr status op moved failed : Nat) :
    Memory.wf (s.resultRecord q raddr status op moved failed).mem = true := by
  unfold State.resultRecord
  dsimp only
  split
  · exact h
  split
  · simp [h]
  · refine foldl_wf (fun st e hst => ?_) _ (by simp [h])
    split
    · exact setByte_wf hst _ _ _
    · exact hst

@[simp] theorem closeLoop_wf {s : State} (h : Memory.wf s.mem = true) (n : BitVec 3) (k : Int) (rot : Nat) : Memory.wf (s.closeLoop n k rot).mem = true := by
  unfold State.closeLoop
  dsimp only
  repeat' split
  all_goals simp [h]

@[simp] theorem chainFault_wf {s : State} (h : Memory.wf s.mem = true) : Memory.wf s.chainFault.mem = true :=
  trapHere_wf h _ _

@[simp] theorem mbeg_wf {s : State} (h : Memory.wf s.mem = true) (a : BitVec 4) (ck : Bool) : Memory.wf (s.mbeg a ck).mem = true := by
  unfold State.mbeg
  dsimp only
  split
  · simp [h]
  · split <;> simp [h]

@[simp] theorem mend_wf {s : State} (h : Memory.wf s.mem = true) (a : BitVec 4) : Memory.wf (s.mend a).mem = true := by
  unfold State.mend
  dsimp only
  split
  · simp [h]
  · split <;> simp [h]

@[simp] theorem mzero_wf {s : State} (h : Memory.wf s.mem = true) (a : BitVec 4) : Memory.wf (s.mzero a).mem = true := by
  unfold State.mzero
  split <;> simp [h]

@[simp] theorem mma_wf {s : State} (h : Memory.wf s.mem = true) (t : Bool) (d : BitVec 4) (a b : BitVec 6) (ext : Option (BitVec 25)) :
    Memory.wf (s.mma t d a b ext).mem = true := by
  refine vword_wf h _ _ fun s h => ?_
  dsimp only
  split
  · simp [h]
  split
  · simp [h]
  · split <;> simp [h]

theorem readAcc_wf {s : State} (h : Memory.wf s.mem = true) (a : BitVec 4) {k : Acc → State → State}
    (hk : ∀ x s, Memory.wf s.mem = true → Memory.wf (k x s).mem = true) : Memory.wf (s.readAcc a k).mem = true := by
  unfold State.readAcc
  dsimp only
  split
  · exact chainFault_wf h
  · exact hk _ s h

theorem epiRoom_wf {s : State} (h : Memory.wf s.mem = true) {k : State → State} (hk : ∀ s, Memory.wf s.mem = true → Memory.wf (k s).mem = true) :
    Memory.wf (s.epiRoom k).mem = true := by
  unfold State.epiRoom
  split
  · simp [h]
  · exact hk s h

@[simp] theorem epi_wf {s : State} (h : Memory.wf s.mem = true) (t : BitVec 6) (a : BitVec 4) (cq rq m : BitVec 2) (sh : BitVec 5) (ext : Option (BitVec 25)) :
    Memory.wf (s.epi t a cq rq m sh ext).mem = true := by
  refine readAcc_wf h _ fun x s h => vword_wf h _ _ fun s h => ?_
  dsimp only
  split <;> simp [h]

@[simp] theorem epiAdd_wf {s : State} (h : Memory.wf s.mem = true) (hn a : BitVec 4) (m : BitVec 2) (sh : BitVec 5) (acq : Bool) (ext : Option (BitVec 25)) :
    Memory.wf (s.epiAdd hn a m sh acq ext).mem = true := by
  refine readAcc_wf h _ fun x s h => ?_
  dsimp only
  split
  · simp [h]
  split
  · simp [h]
  · exact epiRoom_wf h fun s h => by simp [h]

@[simp] theorem epiSend_wf {s : State} (h : Memory.wf s.mem = true) (r : BitVec 2) (hn a : BitVec 4) (m : BitVec 2) (sh : BitVec 5) (ext : Option (BitVec 25)) :
    Memory.wf (s.epiSend r hn a m sh ext).mem = true := by
  refine readAcc_wf h _ fun x s h => ?_
  dsimp only
  repeat' split
  case isFalse => exact epiRoom_wf h fun s h => by simp [h]
  all_goals simp [h]

@[simp] theorem epiCk_wf {s : State} (h : Memory.wf s.mem = true) (p : BitVec 3) (a : BitVec 4) : Memory.wf (s.epiCk p a).mem = true := by
  refine readAcc_wf h _ fun x s h => ?_
  dsimp only
  split
  · simp [h]
  · split <;> simp [h]

theorem addElem_wf (uid : Nat) (c : EpiAdd) (mc : Nat) {r : CopyRun} (h : Memory.wf r.st.mem = true) (vi : EpiVal × Nat) :
    Memory.wf (addElem uid c mc r vi).st.mem = true := by
  unfold addElem
  dsimp only
  split
  · exact h
  split
  · exact h
  split
  · exact h
  · exact copyWrite_wf (by simp [h]) _ _ _ _

theorem addMove_wf (uid : Nat) (c : EpiAdd) {r : CopyRun} (h : Memory.wf r.st.mem = true) (k : Nat) : Memory.wf (addMove uid c r k).st.mem = true := by
  unfold addMove
  dsimp only
  split
  · split
    · exact addElem_wf _ _ _ h _
    · exact h
  · exact h

@[simp] theorem moveAdd_wf {s : State} (h : Memory.wf s.mem = true) (uid : Nat) (moves : List Nat) : Memory.wf (s.moveAdd uid moves).mem = true := by
  unfold State.moveAdd
  dsimp only
  split
  · split
    · exact h
    · rw [mapNode_mem]
      exact copyRun_wf (fun _ _ h => addMove_wf _ _ h _) _ h
  · exact h

@[simp] theorem moveEngine_wf {s : State} (h : Memory.wf s.mem = true) (uid : Nat) (e : MoveEngine) (place : Nat) (parts : List (Nat × Bool)) :
    Memory.wf (s.moveEngine uid e place parts).mem = true := by
  cases e <;> simp [State.moveEngine, h]

@[simp] theorem completeAdd_wf {s : State} (h : Memory.wf s.mem = true) (uid : Nat) (c : EpiAdd) : Memory.wf (s.completeAdd uid c).mem = true := by
  have hr : Memory.wf (s.runAdd uid c c.rest).st.mem = true := copyRun_wf (fun r e h => by
    split
    · exact addElem_wf _ _ _ h _
    · exact h) _ h
  unfold State.completeAdd
  dsimp only
  split
  · exact memFault_wf hr _ _
  · split <;> simp [hr]

/-! ## Job control blocks -/

theorem signalWrite_wf {s t : State} (h : Memory.wf s.mem = true) {sp : BitVec 6} {addr v : Nat} (ht : s.signalWrite sp addr v = some t) :
    Memory.wf t.mem = true := by
  have hall : ∀ (l : List Nat) (o : Option State), (∀ u, o = some u → Memory.wf u.mem = true) →
      ∀ u, l.foldl (fun st i => match st with
        | none => none
        | some st => match s.translate sp true (addr / 2 ^ 44) (addr % 2 ^ 44 + i) true with
          | .ok (pa, _) => some (State.setByte st pa (BitVec.ofNat 8 (v / 2 ^ (8 * i))) false)
          | .error _ => none) o = some u → Memory.wf u.mem = true := by
    intro l
    induction l with
    | nil => exact fun o ho u hu => ho u hu
    | cons i l ih =>
      refine fun o ho u hu => ih _ (fun w hw => ?_) u hu
      cases o with
      | none => cases hw
      | some st =>
        dsimp only at hw
        split at hw
        · cases hw; exact setByte_wf (ho st rfl) _ _ _
        · cases hw
  exact hall _ (some s) (fun u hu => by cases hu; exact h) t ht

@[simp] theorem jcbFire_wf {s : State} (h : Memory.wf s.mem = true) (j : BitVec 12) : Memory.wf (s.jcbFire j).mem = true := by
  unfold State.jcbFire
  dsimp only
  split
  · exact h
  next q _ =>
    generalize s.rd (jcbPA j + 16) 8 = a
    generalize s.rd (jcbPA j + 24) 8 = v
    cases hs : s.signalWrite (BitVec.ofNat 6 q) a v with
    | none =>
      refine ite_wf ?_ (ite_wf h (by simp [h]))
      rw [State.raiseMsix_mem]
      exact ite_wf h (by simp [h])
    | some t =>
      have ht := signalWrite_wf h hs
      refine ite_wf ?_ (ite_wf h ht)
      rw [State.raiseMsix_mem]
      exact ite_wf h ht

@[simp] theorem jcbCompletion_wf {s : State} (h : Memory.wf s.mem = true) (j : BitVec 12) : Memory.wf (s.jcbCompletion j).mem = true := by
  unfold State.jcbCompletion
  dsimp only
  split
  · simp [h]
  · exact ite_wf (jcbFire_wf (jcbOr_wf (wr_wf h _ _ _) _ _) _) (wr_wf h _ _ _)

@[simp] theorem jcbFailure_wf {s : State} (h : Memory.wf s.mem = true) (j : BitVec 12) (node : BitVec 20) (status : BitVec 32) :
    Memory.wf (s.jcbFailure j node status).mem = true := by
  unfold State.jcbFailure
  exact ite_wf h (jcbFire_wf (wr_wf (wr_wf (jcbOr_wf h _ _) _ _ _) _ _ _) _)

/-! ## The links -/

@[simp] theorem linkFault_wf {s : State} (h : Memory.wf s.mem = true) (f : HandleFault) (dest : Bool) (hd hs : BitVec 4) :
    Memory.wf (s.linkFault f dest hd hs).mem = true := by
  unfold State.linkFault
  split <;> simp [h]

@[simp] theorem issueSend_wf {s : State} (h : Memory.wf s.mem = true) (trig : Bool) (hd hs w : BitVec 4) (r : BitVec 2) :
    Memory.wf (s.issueSend trig hd hs w r).mem = true := by
  unfold State.issueSend
  dsimp only
  repeat' split
  all_goals simp [h]

@[simp] theorem issueColl_wf {s : State} (h : Memory.wf s.mem = true) (hd hs w : BitVec 4) (r : BitVec 2) : Memory.wf (s.issueColl hd hs w r).mem = true := by
  unfold State.issueColl
  extract_lets er sw c hD hS src exts coll uid tag cmd behind full acq s1 s2 l s3 s4
  have h1 : Memory.wf s1.mem = true := by simp [s1, h]
  have h2 : Memory.wf s2.mem = true := by
    unfold s2
    split <;> simp [h1]
  have h4 : Memory.wf s4.mem = true := by simp [s4, s3, h1]
  clear_value s1 s2 s4 behind full acq cmd tag exts coll src
  refine ite_wf (trapHere_wf h _ _) (ite_wf (trapHere_wf h _ _) ?_)
  cases s.linkHandles (if src = true then some hS else none) hD with
  | some f => exact linkFault_wf h _ _ _ _
  | none =>
    refine ite_wf (trapHere_wf h _ _) (ite_wf (trapHere_wf h _ _) (ite_wf (by simp [h]) (ite_wf (ite_wf h2 (by simp [h2])) (ite_wf (by simp [h1]) (ite_wf h4 ?_)))))
    cases hr : s4.readWindow uid hS exts with
    | error f =>
      cases f with
      | access => simp [h4]
      | _ => exact memFault_wf h4 _ _
    | ok x => exact ite_wf ((congrArg Memory.wf (readWindow_mem hr)).trans h4) ((congrArg Memory.wf (readWindow_mem hr)).trans h4)

@[simp] theorem issueAbort_wf {s : State} (h : Memory.wf s.mem = true) (r : BitVec 2) : Memory.wf (s.issueAbort r).mem = true := by
  unfold State.issueAbort
  dsimp only
  split
  · simp [h]
  · split <;> simp [h]

@[simp] theorem putDirect_wf {s : State} (h : Memory.wf s.mem = true) (uid : Nat) (w : ByteWrite) : Memory.wf (s.putDirect uid w).mem = true := by
  unfold State.putDirect
  dsimp only
  split
  · exact h
  · simp [h]
  · exact setByte_wf h _ _ _

theorem deliverElem_wf {s t : State} (h : Memory.wf s.mem = true) {uid : Nat} {hd : Handle} {j : List Nat} {e : Elem} {blockBad : Bool}
    (ht : s.deliverElem uid hd j e blockBad = .ok t) : Memory.wf t.mem = true := by
  unfold State.deliverElem at ht
  cases hp : s.planDelivered uid hd j e blockBad with
  | error f => rw [hp] at ht; cases ht
  | ok l =>
    rw [hp] at ht
    cases ht
    rw [touchLink_mem]
    exact foldl_wf (fun _ _ h => putDirect_wf h _ _) _ h

@[simp] theorem deliverElems_wf {s : State} (h : Memory.wf s.mem = true) (uid : Nat) (hd : Handle) (exts : List Nat) (es : List Elem) (l : List (Elem × Nat)) :
    Memory.wf (s.deliverElems uid hd exts es l).1.mem = true := by
  induction l generalizing s with
  | nil => exact h
  | cons x l ih =>
    unfold State.deliverElems
    split
    · exact h
    · split
      · exact h
      next ht => exact ih (deliverElem_wf h ht)

@[simp] theorem applySend_wf {s : State} (h : Memory.wf s.mem = true) (uid : Nat) (d : Delivery) : Memory.wf (s.applySend uid d).2.mem = true := by
  unfold State.applySend
  dsimp only
  split
  · exact h
  split
  · simp [h]
  · split <;> simp [h]

@[simp] theorem applyNext_wf {s : State} (h : Memory.wf s.mem = true) (uid : Nat) (d : Delivery) : Memory.wf (s.applyNext uid d).mem = true := by
  simp [State.applyNext, h]

@[simp] theorem releaseHeld_wf {s : State} (h : Memory.wf s.mem = true) (uid fuel : Nat) : Memory.wf (s.releaseHeld uid fuel).mem = true := by
  induction fuel generalizing s with
  | zero => exact h
  | succ fuel ih =>
    unfold State.releaseHeld
    dsimp only
    split
    · exact h
    · refine ih (applyNext_wf ?_ _ _)
      exact h

@[simp] theorem acceptSend_wf {s : State} (h : Memory.wf s.mem = true) (uid : Nat) (d : Delivery) : Memory.wf (s.acceptSend uid d).mem = true := by
  unfold State.acceptSend
  dsimp only
  split
  · split
    · simp [h]
    · split <;> simp [h]
  · split
    · simp [h]
    · split <;> simp [h]

@[simp] theorem arrive_wf {s : State} (h : Memory.wf s.mem = true) (d : Delivery) : Memory.wf (s.arrive d).mem = true := by
  unfold State.arrive
  dsimp only
  split
  · exact h
  · split <;> simp [h]

@[simp] theorem leave_wf {s : State} (h : Memory.wf s.mem = true) (uid i : Nat) (c : SendCmd) (d : Delivery) : Memory.wf (s.leave uid i c d).mem = true := by
  unfold State.leave
  extract_lets s1 s2 odd port
  have h2 : Memory.wf s2.mem = true := ite_wf (by simp [s1, h]) (by simp [s1, h])
  exact ite_wf (arrive_wf h2 _) ((congrArg Memory.wf (State.sendOut_mem _ _)).trans h2)

/-! ## Splicing, launch and traps at a boundary -/

@[simp] theorem lateFault_wf {s : State} (h : Memory.wf s.mem = true) (p : Nat) (b : FwdBuffer) (f : MFault) (off : Nat) :
    Memory.wf (s.lateFault p b f off).mem = true := by
  unfold State.lateFault
  split <;> simp [h]

@[simp] theorem lateStores_wf {s : State} (h : Memory.wf s.mem = true) (p : Nat) (l : List FwdBuffer) : Memory.wf (s.lateStores p l).mem = true := by
  induction l generalizing s with
  | nil => exact h
  | cons b l ih =>
    unfold State.lateStores
    split
    · exact ih h
    · split
      · exact ih (performPlan_wf h _ _ _ _)
      · exact ite_wf (ih (lateFault_wf h _ _ _ _)) (lateFault_wf h _ _ _ _)
      · exact ih h

@[simp] theorem mergedAfter_wf {s : State} (h : Memory.wf s.mem = true) (idx uid : Nat) (own : Bool) : Memory.wf (s.mergedAfter idx uid own).mem = true := by
  unfold State.mergedAfter
  refine ite_wf h (ite_wf (lateStores_wf ?_ _ _) ?_)
  · exact h
  · exact h

@[simp] theorem launchNode_wf {s : State} (h : Memory.wf s.mem = true) (uid : Nat) : Memory.wf (s.launchNode uid).mem = true := by
  unfold State.launchNode
  extract_lets n d n' r n'' s1
  have hl : ∀ k l, Memory.wf (s1.loadScales uid k l).1.mem = true := fun k l => (congrArg Memory.wf ((loadScales_mem uid l s1 k).trans (s.setNode_mem _))).trans h
  have hk := hl Regs.reset.k (d.handles.zip d.srecs)
  split
  next he => rw [he] at hk; exact memFault_wf hk _ _
  next he => rw [he] at hk; simp only [rollback_wf, countCause_mem, hk]
  next he =>
    rw [he] at hk
    split
    · exact memFault_wf hk _ _
    next hc => exact (congrArg Memory.wf ((ensureCode_mem hc).trans (mapNode_mem _ _ _))).trans hk

@[simp] theorem examine_wf {s : State} (h : Memory.wf s.mem = true) (p : Nat) : Memory.wf (s.examine p).mem = true := by
  unfold State.examine
  dsimp only
  split
  · exact h
  · split <;> simp [h]

@[simp] theorem resumeNode_wf {s : State} (h : Memory.wf s.mem = true) (uid : Nat) : Memory.wf (s.resumeNode uid).mem = true := by
  unfold State.resumeNode
  extract_lets n q sp ended back s1 s2 s3
  have h2 : Memory.wf s2.mem = true := ite_wf (by simp [s1, h]) (by simp [s1, h])
  have h3 : Memory.wf s3.mem = true := by
    unfold s3
    clear_value sp
    split <;> simp [h2]
  clear_value s3
  refine ite_wf (memFault_wf h _ _) ?_
  split
  · exact memFault_wf h3 _ _
  next t ht =>
    have hm : Memory.wf t.mem = true := (congrArg Memory.wf (ensureCode_mem ht)).trans h3
    refine ite_wf hm ?_
    split
    · exact memFault_wf hm _ _
    next hu => exact (congrArg Memory.wf (ensureCode_mem hu)).trans hm

@[simp] theorem switchTo_wf {s : State} (h : Memory.wf s.mem = true) (idx uid : Nat) : Memory.wf (s.switchTo idx uid).mem = true := by
  unfold State.switchTo
  extract_lets s1 n s2 sp
  have h1 : Memory.wf s1.mem = true := by simp [s1, h]
  have h2 : Memory.wf s2.mem = true := resumeNode_wf h1 _
  exact ite_wf h1 (ite_wf (ite_wf (by simp [h2]) h2) (examine_wf (launchNode_wf h1 _) _))

@[simp] theorem pickNext_wf {s : State} (h : Memory.wf s.mem = true) (idx : Nat) : Memory.wf (s.pickNext idx).mem = true := by
  unfold State.pickNext
  split <;> simp [h]

theorem takeBoundary_wf {s t : State} (h : Memory.wf s.mem = true) {b : Boundary} (ht : s.takeBoundary b = some t) : Memory.wf t.mem = true := by
  cases b with
  | delayed x rest => cases ht; exact takeTrap_wf (by simp [h]) _
  | cause x => cases ht; exact takeTrap_wf (ite_wf (by simp [h]) h) _
  | _ => cases ht

@[simp] theorem enterUser_wf {s : State} (h : Memory.wf s.mem = true) : Memory.wf s.enterUser.mem = true := by
  unfold State.enterUser
  exact ite_wf (takeTrap_wf h _) (by simp [State.acquire, h])

theorem dueNow_wf {s t : State} (h : Memory.wf s.mem = true) (ht : s.dueNow = some t) : Memory.wf t.mem = true := by
  unfold State.dueNow at ht
  split at ht
  · exact takeBoundary_wf h ht
  · split at ht
    · exact takeBoundary_wf h ht
    · cases ht

/-! ## Commits -/

@[simp] theorem mergeAt_wf {s : State} (h : Memory.wf s.mem = true) (uid : Nat) (k : BitVec 32) (step : Nat) (pas : List Nat) :
    Memory.wf (s.mergeAt uid k step pas).mem = true := by
  have hs : ∀ v : Nat, Memory.wf (pas.zipIdx.foldl (fun (s : State) e => s.setByte e.1 (BitVec.ofNat 8 (v / 2 ^ (8 * e.2))) (s.poisoned e.1)) s).mem = true :=
    fun v => foldl_wf (fun _ _ h => setByte_wf h _ _ _) _ h
  unfold State.mergeAt
  exact ite_wf ((congrArg Memory.wf (mapNode_mem _ _ _)).trans (hs _)) (hs _)

theorem commitStop_wf {s t : State} (h : Memory.wf s.mem = true) {uid : Nat} (ht : s.commitStop uid = some t) : Memory.wf t.mem = true := by
  unfold State.commitStop at ht
  dsimp only at ht
  split at ht
  · cases ht; simp [h]
  split at ht
  · cases ht; simp [h]
  split at ht
  · cases ht; simp [h]
  · cases ht

@[simp] theorem applyStaged_wf {s : State} (h : Memory.wf s.mem = true) (uid : Nat) (b : Bytes) : Memory.wf (s.applyStaged uid b).mem = true := by
  have hs : Memory.wf (b.cells.foldl (fun (s : State) c => s.setByte c.1 c.2 (b.poison.contains c.1)) s).mem = true :=
    foldl_wf (fun _ _ h => setByte_wf h _ _ _) _ h
  unfold State.applyStaged
  exact ite_wf hs (by simp only [countFor_mem, hs])

@[simp] theorem nextReady_wf {s : State} (h : Memory.wf s.mem = true) : Memory.wf s.nextReady.mem = true :=
  h

@[simp] theorem commit_wf {s : State} (h : Memory.wf s.mem = true) (uid : Nat) : Memory.wf (s.commit uid).mem = true := by
  unfold State.commit
  extract_lets n r places s1 s2 s3 s4 s5 s6 s7
  have h2 : Memory.wf s2.mem = true := foldl_wf (fun _ _ h => mergeAt_wf h _ _ _ _) _ (applyStaged_wf h _ _)
  have h3 : Memory.wf s3.mem = true := by
    unfold s3
    split
    · exact h2
    · exact ite_wf (ite_wf h2 (jcbOr_wf h2 _ _)) (ite_wf h2 (jcbOr_wf h2 _ _))
  simp [s7, s6, s5, s4, h3]

/-! ## Loads, stores and atomics -/

theorem load_wf {s : State} (h : Memory.wf s.mem = true) (ea : Word) (len : Nat) {k : State → Nat → State}
    (hk : ∀ s v, Memory.wf s.mem = true → Memory.wf (k s v).mem = true) : Memory.wf (s.load ea len k).mem = true := by
  unfold State.load
  refine ite_wf (by simp [h]) ?_
  split
  · simp [h]
  · refine ite_wf (consume_wf h) (hk _ _ ?_)
    rw [touch_mem]
    exact (congrArg Memory.wf (delivered_mem _ _ _ _)).trans h

theorem modeChecked_wf {s : State} (h : Memory.wf s.mem = true) (tid : Nat) {k : State → State}
    (hk : ∀ s, Memory.wf s.mem = true → Memory.wf (k s).mem = true) : Memory.wf (s.modeChecked tid k).mem = true :=
  ite_wf (hk s h) (trapHere_wf h _ _)

@[simp] theorem storeAt_wf {s : State} (h : Memory.wf s.mem = true) (ea : Word) (len v : Nat) : Memory.wf (s.storeAt ea len v).mem = true := by
  have ht : Memory.wf (s.forget (s.placesOf s.cur (addrTid ea) (addrOff ea) len)).mem = true := by simp [State.forget, h]
  unfold State.storeAt
  dsimp only
  split
  · exact ht
  · split
    · exact wordFault_wf h _ _
    next hw => exact writeBytes_wf ht hw

@[simp] theorem store_wf {s : State} (h : Memory.wf s.mem = true) (ea : Word) (len v : Nat) : Memory.wf (s.store ea len v).mem = true :=
  ite_wf (by simp [h]) (modeChecked_wf h _ fun _ h => storeAt_wf h _ _ _)

@[simp] theorem loadS_wf {s : State} (h : Memory.wf s.mem = true) (d : BitVec 5) (ea : Word) (len : Nat) (signed : Bool) :
    Memory.wf (s.loadS d ea len signed).mem = true :=
  load_wf h _ _ fun _ _ h => by simp [h]

@[simp] theorem amoWrite_wf {s : State} (h : Memory.wf s.mem = true) (l : List (Place × Byte)) : Memory.wf (s.amoWrite l).mem = true := by
  refine foldl_wf (fun s e h => ?_) _ h
  split
  · exact h
  · simp [h]
  · exact setByte_wf h _ _ _

@[simp] theorem amo_wf {s : State} (h : Memory.wf s.mem = true) (op : Nat) (d a b : BitVec 5) (wide : BitVec 1) (acq : Bool) :
    Memory.wf (s.amo op d a b wide acq).mem = true := by
  unfold State.amo
  refine ite_wf (by simp [h]) (modeChecked_wf h _ fun s h => ?_)
  split
  · simp [h]
  · extract_lets bs old s1 s2 s3 s4
    have h1 : Memory.wf s1.mem = true := by
      unfold s1
      split
      · exact amoWrite_wf h _
      · exact h
    have h2 : Memory.wf s2.mem = true := ite_wf (by simp [State.acquire, h1]) (by simp [State.forget, h1])
    have h3 : Memory.wf s3.mem = true := ite_wf (by simp [h2]) h2
    exact ite_wf (by simp [h]) (ite_wf (by simp [h]) (ite_wf (consume_wf h) (by simp [s4, h3])))

theorem scratchHandle_wf {s : State} (h : Memory.wf s.mem = true) (ea : Word) {k : State → State}
    (hk : ∀ s, Memory.wf s.mem = true → Memory.wf (k s).mem = true) : Memory.wf (s.scratchHandle ea k).mem = true := by
  unfold State.scratchHandle
  refine ite_wf (trapHere_wf h _ _) ?_
  split
  · exact trapHere_wf h _ _
  · exact ite_wf (trapHere_wf h _ _) (hk s h)

theorem kword_wf {s : State} (h : Memory.wf s.mem = true) (r : BitVec 6) {body : State → State} (hb : ∀ s, Memory.wf s.mem = true → Memory.wf (body s).mem = true) :
    Memory.wf (s.kword r body).mem = true :=
  ite_wf (by simp [h]) (hb s h)

/-! ## Packets, the inbox and the flip requests -/

theorem awlWrite_wf {s t : State} (h : Memory.wf s.mem = true) {q : BitVec 6} {host : Bool} {addr : Nat} {l : List (Byte × Bool)} {ks : List Nat}
    (ht : s.awlWrite q host addr l = .ok (t, ks)) : Memory.wf t.mem = true := by
  unfold State.awlWrite at ht
  dsimp only at ht
  split at ht
  · cases ht
  · refine (congrArg Memory.wf (awlStands_mem ht)).trans (foldl_wf (fun s e h => ?_) _ h)
    split
    · exact setByte_wf h _ _ _
    · exact h

theorem awlSignal_wf {s t : State} (h : Memory.wf s.mem = true) {q : BitVec 6} {host : Bool} {addr value op : Nat} {ks : List Nat}
    (ht : s.awlSignal q host addr value op = .ok (t, ks)) : Memory.wf t.mem = true := by
  unfold State.awlSignal at ht
  split at ht
  · cases ht
  · exact awlWrite_wf h ht

theorem copyBytes_wf {s t : State} (h : Memory.wf s.mem = true) {q : BitVec 6} {src dst n : Nat} (ht : s.copyBytes q src dst n = some t) :
    Memory.wf t.mem = true := by
  induction n generalizing s src dst with
  | zero => cases ht; exact h
  | succ n ih =>
    unfold State.copyBytes at ht
    split at ht
    · exact ih (setByte_wf h _ _ _) ht
    · cases ht

theorem awlCopy_wf {s t : State} (h : Memory.wf s.mem = true) {q : BitVec 6} {src dst n : Nat} {ks : List Nat}
    (ht : s.awlCopy q src dst n = .ok (t, ks)) : Memory.wf t.mem = true := by
  unfold State.awlCopy at ht
  split at ht
  · cases ht
  next hc => exact (congrArg Memory.wf (awlStands_mem ht)).trans (copyBytes_wf h hc)

@[simp] theorem repairDone_wf {s : State} (h : Memory.wf s.mem = true) (q : BitVec 6) (p : BitVec 512) (status moved failed : Nat) :
    Memory.wf (s.repairDone q p status moved failed).1.mem = true :=
  resultRecord_wf h _ _ _ _ _ _

@[simp] theorem repairPacket_wf {s : State} (h : Memory.wf s.mem = true) (q : BitVec 6) (index : BitVec 32) (p : BitVec 512) :
    Memory.wf (s.repairPacket q index p).1.mem = true := by
  unfold State.repairPacket
  dsimp only
  split
  · exact h
  split
  · exact h
  split
  · split <;> simp [h]
  · split <;> simp [h]
  · split
    · simp [h]
    split
    · simp [h]
    split <;> simp [h]
  · split
    · simp [h]
    split <;> simp [h]
  · split
    · simp [h]
    · refine repairDone_wf ?_ _ _ _ _ _
      rw [takeFreeNat_mem]
      exact ite_wf h h

@[simp] theorem performPacket_wf {s : State} (h : Memory.wf s.mem = true) (q : BitVec 6) (index : BitVec 32) (p : BitVec 512) :
    Memory.wf (s.performPacket q index p).1.mem = true := by
  have hlaunch := (congrArg Memory.wf (launchPacket_mem s q true 0 p)).trans h
  unfold State.performPacket
  extract_lets stale ty reads w
  have hw : ∀ r : Except (BitVec 16) (State × List Nat), (∀ t ks, r = .ok (t, ks) → Memory.wf t.mem = true) → Memory.wf (w r).1.mem = true := by
    intro r hr
    cases r with
    | error e => exact h
    | ok x =>
      unfold w
      dsimp only
      split
      · simp [h]
      · simp [hr x.1 x.2 rfl]
  clear_value w reads ty
  split
  · exact h
  split
  · exact hw _ fun _ _ ht => awlWrite_wf h ht
  · exact hw _ fun _ _ ht => awlSignal_wf h ht
  · split
    · exact h
    next ha =>
      split
      · exact h
      next hb => exact hw _ fun _ _ ht => by cases ht; exact awlSignal_wf (awlWrite_wf h ha) hb
  · simp [h]
  · simp [h]
  · exact hw _ fun _ _ ht => awlCopy_wf h ht
  · split <;> exact h
  · split <;> simp [h]
  · simp [h]
  · simp [h]
  · simp [h]
  · simp [h]
  · split
    next he => rw [he] at hlaunch; exact hlaunch
    next he => rw [he] at hlaunch; exact hlaunch
    next he => rw [he] at hlaunch; simp only [postRefusal_mem, hlaunch]

@[simp] theorem lastStep_wf {s : State} (h : Memory.wf s.mem = true) (q : BitVec 6) (index : BitVec 32) (p : BitVec 512) :
    Memory.wf (s.lastStep q index p).mem = true := by
  have hp := performPacket_wf h q index p
  unfold State.lastStep
  split
  next he =>
    rw [he] at hp
    dsimp only at hp ⊢
    split <;> simp [hp]
  next he =>
    rw [he] at hp
    simpa using hp
  next he =>
    rw [he] at hp
    simpa using hp
  next he =>
    rw [he] at hp
    dsimp only at hp ⊢
    split <;> simp [hp]
  next he =>
    rw [he] at hp
    simpa using hp
  next he =>
    rw [he] at hp
    dsimp only at hp ⊢
    split <;> simp [hp]

@[simp] theorem queueStep_wf {s : State} (h : Memory.wf s.mem = true) (q : BitVec 6) : Memory.wf (s.queueStep q).mem = true := by
  unfold State.queueStep
  dsimp only
  split
  · split
    · exact h
    · split <;> simp [h]
  · split
    · exact h
    · simp [h]
    · simp [h]
    · simp [h]
    · split <;> simp [h]

@[simp] theorem performInbox_wf {s : State} (h : Memory.wf s.mem = true) (uid : Nat) (p : BitVec 512) (asgen : BitVec 16) :
    Memory.wf (s.performInbox uid p asgen).mem = true := by
  have hlaunch := (congrArg Memory.wf (launchPacket_mem s (s.node uid).desc.queue false uid p)).trans h
  have htok := (congrArg Memory.wf (tokenGive_mem s (s.node uid).desc.queue (pk p 0x10 1) (pk p 0x12 2))).trans h
  unfold State.performInbox
  extract_lets q ty allowed stale reads bad w
  have hbad : Memory.wf bad.mem = true := by simp [bad, h]
  have hw : ∀ r : Except (BitVec 16) (State × List Nat), (∀ t ks, r = .ok (t, ks) → Memory.wf t.mem = true) → Memory.wf (w r).mem = true := by
    intro r hr
    cases r with
    | error e => exact hbad
    | ok x => exact ite_wf (by simp [h]) (hr x.1 x.2 rfl)
  clear_value w bad reads allowed ty
  refine ite_wf (by simp [h]) (ite_wf (by simp [h]) (ite_wf (by simp [h]) ?_))
  split
  · exact hw _ fun _ _ ht => awlWrite_wf h ht
  · exact hw _ fun _ _ ht => awlSignal_wf h ht
  · split
    · exact hbad
    next ha => exact hw _ fun _ _ ht => awlSignal_wf (awlWrite_wf h ha) ht
  · split
    next he => rw [he] at htok; exact htok
    next he => rw [he] at htok; simp only [enqBad_mem, htok]
  · split
    next he => rw [he] at hlaunch; exact hlaunch
    next he => rw [he] at hlaunch; simp only [enqBad_mem, noteFaults_mem, hlaunch]
    next he => rw [he] at hlaunch; simp only [enqBad_mem, hlaunch]

@[simp] theorem inboxOnce_wf {s : State} (h : Memory.wf s.mem = true) : Memory.wf s.inboxOnce.mem = true := by
  unfold State.inboxOnce
  extract_lets awl drop
  have hd : Memory.wf drop.mem = true := h
  clear_value drop
  split
  · exact h
  · simp [hd]
  · exact ite_wf (performInbox_wf hd _ _ _) h

@[simp] theorem setOwn_wf {s : State} (h : Memory.wf s.mem = true) (entry : Nat) (own : Bool) : Memory.wf (s.setOwn entry own).mem = true :=
  setByte_wf h _ _ _

@[simp] theorem startDrain_wf {s : State} (h : Memory.wf s.mem = true) (frame entry : Nat) : Memory.wf (s.startDrain frame entry).mem = true :=
  setOwn_wf h entry false

@[simp] theorem endFlip_wf {s : State} (h : Memory.wf s.mem = true) (frame entry : Nat) : Memory.wf (s.endFlip frame entry).mem = true :=
  setOwn_wf h entry true

@[simp] theorem flipStep_wf {s : State} (h : Memory.wf s.mem = true) : Memory.wf s.flipStep.mem = true := by
  unfold State.flipStep
  split
  next f _ =>
    extract_lets awl served
    have hs : Memory.wf served.mem = true := h
    clear_value served
    split
    · split
      · exact hs
      · split
        · exact ite_wf (startDrain_wf h _ _) (endFlip_wf hs _ _)
        · exact endFlip_wf hs _ _
    · split
      · exact hs
      · exact startDrain_wf hs _ _
  · exact h

@[simp] theorem awlSlot_wf {s : State} (h : Memory.wf s.mem = true) : Memory.wf s.awlSlot.mem = true := by
  unfold State.awlSlot
  extract_lets o awl t
  have ht : Memory.wf t.mem = true := h
  exact ite_wf (queueStep_wf ht _) (ite_wf (inboxOnce_wf ht) (ite_wf (flipStep_wf ht) (ite_wf (by simp [ht]) ht)))

/-! ## Pre-emption and the save area -/

@[simp] theorem finishCopies_wf {s : State} (h : Memory.wf s.mem = true) (uid : Nat) (cb : Bool) (st : NodeState) (k : Nat) :
    Memory.wf (s.finishCopies uid cb st k).mem = true := by
  induction k generalizing s with
  | zero => exact h
  | succ k ih =>
    unfold State.finishCopies
    split
    · exact ite_wf (ih (by simp [h])) h
    · exact h

@[simp] theorem finishBegun_wf {s : State} (h : Memory.wf s.mem = true) (uid : Nat) (cb : Bool) (begun : Nat) : Memory.wf (s.finishBegun uid cb begun).mem = true := by
  unfold State.finishBegun
  exact ite_wf ((congrArg Memory.wf (mapNode_mem _ _ _)).trans (finishCopies_wf h _ _ _ _)) (finishCopies_wf h _ _ _ _)

@[simp] theorem finishAdd_wf {s : State} (h : Memory.wf s.mem = true) (uid : Nat) : Memory.wf (s.finishAdd uid).mem = true := by
  unfold State.finishAdd
  split
  · split <;> simp [h]
  · exact h

theorem whileIn_wf {s : State} (h : Memory.wf s.mem = true) (uid : Nat) (st : NodeState) {f : State → State}
    (hf : ∀ s, Memory.wf s.mem = true → Memory.wf (f s).mem = true) : Memory.wf (s.whileIn uid st f).mem = true :=
  ite_wf (hf s h) h

@[simp] theorem quiesceOne_wf {s : State} (h : Memory.wf s.mem = true) (uid : Nat) (begun area : Nat × Nat) : Memory.wf (s.quiesceOne uid begun area).mem = true := by
  unfold State.quiesceOne
  exact whileIn_wf (whileIn_wf (whileIn_wf (finishBegun_wf (by simp [h]) _ _ _) _ _ fun _ h => finishBegun_wf h _ _ _) _ _ fun _ h => finishAdd_wf h _) _ _
    fun _ h => by simp [h]

@[simp] theorem quiesceAll_wf {s : State} (h : Memory.wf s.mem = true) (uid : Nat) (begun : Nat × Nat) (l : List (Node × Nat × Nat)) :
    Memory.wf (s.quiesceAll uid begun l).mem = true := by
  induction l generalizing s with
  | nil => exact h
  | cons x l ih =>
    unfold State.quiesceAll
    exact ite_wf (ih (quiesceOne_wf h _ _ _)) (quiesceOne_wf h _ _ _)

@[simp] theorem saveNode_wf {s : State} (h : Memory.wf s.mem = true) (uid : Nat) (sp : Splice) : Memory.wf (s.saveNode uid sp).mem = true := by
  unfold State.saveNode
  dsimp only
  split
  · exact h
  · rw [mapNode_mem, leaveCore_mem]
    dsimp only
    generalize headerCells _ _ _ ++ _ ++ _ ++ _ = cells
    exact writeArea_wf h _ _ cells _

/-! ## Service -/

@[simp] theorem vroutine_wf {s : State} (h : Memory.wf s.mem = true) (d a : BitVec 6) (f : Nat → Int → Nat × Bool) : Memory.wf (s.vroutine d a f).mem = true :=
  vword_wf h _ _ fun _ h => by simp [h]

@[simp] theorem vnorm_wf {s : State} (h : Memory.wf s.mem = true) (mean : Bool) (d a b : BitVec 6) (ext : Option (BitVec 25)) :
    Memory.wf (s.vnorm mean d a b ext).mem = true :=
  vword_wf h _ _ fun _ h => by simp [h]

@[simp] theorem vopt2_wf {s : State} (h : Memory.wf s.mem = true) (m : BitVec 2) (d a b : BitVec 6) (ext : Option (BitVec 25))
    (f : Hyper → Nat → Nat → (Int → Nat → Int) → Int → Int → Int → (Nat × Bool) × (Nat × Bool)) : Memory.wf (s.vopt2 m d a b ext f).mem = true :=
  vword_wf h _ _ fun _ h => by simp [h]

@[simp] theorem vopt3_wf {s : State} (h : Memory.wf s.mem = true) (m : BitVec 2) (d a b : BitVec 6) (ext : Option (BitVec 25)) :
    Memory.wf (s.vopt3 m d a b ext).mem = true :=
  vword_wf h _ _ fun _ h => by simp [h]

theorem endJob_wf {s : State} (h : Memory.wf s.mem = true) (j : BindJob) (moved : Nat) {done : State → State}
    (hd : ∀ s, Memory.wf s.mem = true → Memory.wf (done s).mem = true) : Memory.wf (s.endJob j moved done).mem = true := by
  unfold State.endJob
  extract_lets s1 dist s2 s3
  have h2 : Memory.wf s2.mem = true := hd s h
  have h3 : Memory.wf s3.mem = true := ite_wf (resultRecord_wf h2 _ _ _ _ _ _) h2
  exact ite_wf ((congrArg Memory.wf ((failLater_mem _ _ _ _).trans (dropJob_mem s j))).trans h) (ite_wf h2 (completeLater_wf h3 _ _ _))

theorem awlPut_wf {s t : State} (h : Memory.wf s.mem = true) {q : BitVec 6} {addr : Nat} {l : List Byte} (ht : s.awlPut q addr l = some t) :
    Memory.wf t.mem = true := by
  unfold State.awlPut at ht
  split at ht
  · cases ht
    refine foldl_wf (fun s e h => ?_) _ h
    split
    · exact setByte_wf h _ _ _
    · exact h
  · cases ht

@[simp] theorem quoteDone_wf {s : State} (h : Memory.wf s.mem = true) (w : SigWork) : Memory.wf (s.quoteDone w).mem = true := by
  unfold State.quoteDone
  refine ite_wf (by simp [h]) ?_
  dsimp only
  split
  · simp [h]
  next ht =>
    have hs : Memory.wf s.sparesWord.2.mem = true := (congrArg Memory.wf (sparesWord_mem s)).trans h
    refine completeLater_wf (awlPut_wf ?_ ht) _ _ _
    exact hs

@[simp] theorem patchDone_wf {s : State} (h : Memory.wf s.mem = true) (w : SigWork) : Memory.wf (s.patchDone w).mem = true := by
  unfold State.patchDone
  refine ite_wf (completeLater_wf ?_ _ _ _) (ite_wf (completeLater_wf ?_ _ _ _) (completeLater_wf ?_ _ _ _))
  all_goals exact h

@[simp] theorem putShape_wf {s : State} (h : Memory.wf s.mem = true) (t : BitVec 6) (v : BitVec 32) : Memory.wf (s.putShape t v).mem = true := by
  unfold State.putShape
  split <;> simp [h]

end Sys2Proof.Proofs
end

