-- ==== Sys2Proof/Proofs/CanonicalStep.lean ====
section
namespace Sys2Proof.Proofs
open Sys2Proof Sys2Proof.Machine

-- One theorem after another: side by side they need more memory than one run may take.
set_option Elab.async false

/-! # Every step keeps memory in canonical form -/

/-! ## Outcomes -/

/-- An outcome keeps memory canonical: where it is a next state, that state's memory is. -/
def Keeps (r : Result) : Prop := ∀ t, r = .next t → Memory.wf t.mem = true

theorem keeps_next {t : State} (h : Memory.wf t.mem = true) : Keeps (.next t) := fun u hu => by cases hu; exact h

theorem keeps_fault (f : Fault) : Keeps (.fault f) := fun _ hu => by cases hu

theorem keeps_ite {c : Prop} [Decidable c] {a b : Result} (ha : Keeps a) (hb : Keeps b) : Keeps (if c then a else b) := by
  split
  · exact ha
  · exact hb

theorem word_keeps {i : Instr} {s : State} {body : State → State} (h : Memory.wf s.mem = true) (hb : ∀ s, Memory.wf s.mem = true → Memory.wf (body s).mem = true) :
    Keeps (word i s body) :=
  keeps_ite (keeps_next (trapHere_wf h _ _)) (keeps_ite (keeps_next (trapHere_wf h _ _)) (keeps_ite (keeps_next h)
    (keeps_ite (keeps_next (trapHere_wf h _ _)) (keeps_next (hb s h)))))

/-! ## Events -/

@[simp] theorem keeps_next_iff {t : State} : Keeps (.next t) ↔ Memory.wf t.mem = true :=
  ⟨fun h => h t rfl, keeps_next⟩

@[simp] theorem keeps_fault_iff (f : Fault) : Keeps (.fault f) :=
  keeps_fault f

theorem packetRow_keeps {s : State} (h : Memory.wf s.mem = true) (row : String) (ty : Nat) (sub : Option Nat) (src : PacketSource) (p : BitVec 512) :
    Keeps (s.packetRow row ty sub src p) := by
  unfold State.packetRow
  refine keeps_ite (keeps_fault _) ?_
  split
  · split
    · exact keeps_ite (keeps_next (lastStep_wf h _ _ _)) (keeps_fault _)
    · exact keeps_ite (keeps_next (lastStep_wf (by simp [h]) _ _ _)) (keeps_fault _)
  · split
    · refine keeps_ite (keeps_next (performInbox_wf ?_ _ _ _)) (keeps_fault _)
      exact h
    · exact keeps_fault _

theorem waitRow_keeps {s : State} (h : Memory.wf s.mem = true) (row : String) (uid : Nat) (kind : Wait → Bool) : Keeps (s.waitRow row uid kind) :=
  keeps_ite (keeps_next (by simp [h])) (keeps_fault _)

theorem queueEnable_keeps {s : State} (h : Memory.wf s.mem = true) (q : BitVec 6) (v : BitVec 64) : Keeps (execQueueEnable q v s) := by
  unfold execQueueEnable
  repeat' split
  all_goals simp [h]

theorem queueDisable_keeps {s : State} (h : Memory.wf s.mem = true) (q : BitVec 6) (v : BitVec 64) : Keeps (execQueueDisable q v s) := by
  unfold execQueueDisable
  repeat' split
  all_goals simp [h]

theorem excommit_keeps {s : State} (h : Memory.wf s.mem = true) (v : BitVec 64) : Keeps (execExcommit v s) := by
  exact keeps_next (by simp [h])

theorem flipreqAck_keeps {s : State} (h : Memory.wf s.mem = true) (v : BitVec 64) : Keeps (execFlipreqAck v s) := by
  exact keeps_ite (keeps_next (by simp [writeFlip_mem, h])) (keeps_fault _)

theorem flipreqToHost_keeps {s : State} (h : Memory.wf s.mem = true) (v : BitVec 64) : Keeps (execFlipreqToHost v s) := by
  exact keeps_ite (keeps_fault _) (keeps_next (by simp [writeFlip_mem, h]))

theorem awlSlot_keeps {s : State} (h : Memory.wf s.mem = true) : Keeps (execAwlSlot s) := by
  unfold execAwlSlot
  repeat' split
  all_goals simp [h]

theorem signatureDone_keeps {s : State} (h : Memory.wf s.mem = true) : Keeps (execSignatureDone s) := by
  unfold execSignatureDone
  dsimp only
  repeat' split
  all_goals simp [h]

theorem packetComplete_keeps {s : State} (h : Memory.wf s.mem = true) (q : BitVec 6) (i : BitVec 32) : Keeps (execPacketComplete q i s) := by
  unfold execPacketComplete
  dsimp only
  repeat' split
  all_goals simp [h]

theorem qresetAcksDone_keeps {s : State} (h : Memory.wf s.mem = true) (q : BitVec 6) : Keeps (execQresetAcksDone q s) := by
  unfold execQresetAcksDone
  refine keeps_ite (keeps_fault _) (keeps_next ?_)
  rw [settle_mem]
  refine foldl_wf (fun s e h => ite_wf (completePacket_wf h _ _ _ _) (completeLater_wf h _ _ _)) _ ?_
  refine (congrArg Memory.wf (State.setQueue_mem _ _ _)).trans (foldl_wf (fun s j h => ite_wf (wr_wf (jcbOr_wf h _ _) _ _ _) h) _ h)

theorem asgenChangeDone_keeps {s : State} (h : Memory.wf s.mem = true) (sp : BitVec 6) : Keeps (execAsgenChangeDone sp s) := by
  unfold execAsgenChangeDone
  refine keeps_ite (keeps_fault _) (keeps_next (foldl_wf (fun s e h => ite_wf h (completeLater_wf h _ _ _)) _ ?_))
  exact h

theorem flipDrainDone_keeps {s : State} (h : Memory.wf s.mem = true) : Keeps (execFlipDrainDone s) := by
  unfold execFlipDrainDone
  dsimp only
  repeat' split
  all_goals simp [h]

theorem enqOutboxAccept_keeps {s : State} (h : Memory.wf s.mem = true) (core : BitVec 10) : Keeps (execEnqOutboxAccept core s) := by
  unfold execEnqOutboxAccept
  dsimp only
  repeat' split
  all_goals simp [h]

theorem mailboxRecordWrite_keeps {s : State} (h : Memory.wf s.mem = true) : Keeps (execMailboxRecordWrite s) := by
  unfold execMailboxRecordWrite
  dsimp only
  repeat' split
  all_goals simp [h]

theorem entryRebuild_keeps {s : State} (h : Memory.wf s.mem = true) (sp : BitVec 6) (pa : BitVec 64) : Keeps (execEntryRebuild sp pa s) := by
  unfold execEntryRebuild
  dsimp only
  repeat' split
  all_goals simp [h]

theorem sliceExpiry_keeps {s : State} (h : Memory.wf s.mem = true) (prio : BitVec 3) : Keeps (execSliceExpiry prio s) := by
  unfold execSliceExpiry
  repeat' split
  all_goals simp [h]

theorem reserveSample_keeps {s : State} (h : Memory.wf s.mem = true) : Keeps (execReserveSample s) := by
  exact keeps_next h

theorem reserveDecision_keeps {s : State} (h : Memory.wf s.mem = true) : Keeps (execReserveDecision s) := by
  refine keeps_next ((congrArg Memory.wf (foldl_mem (fun s st => keepReserve_mem s st) _ _)).trans ?_)
  exact h

theorem reserveChangeDone_keeps {s : State} (h : Memory.wf s.mem = true) (core : BitVec 10) : Keeps (execReserveChangeDone core s) := by
  unfold execReserveChangeDone
  dsimp only
  repeat' split
  all_goals simp [h]

theorem preemptWaitExpiry_keeps {s : State} (h : Memory.wf s.mem = true) (uid : Nat) : Keeps (execPreemptWaitExpiry uid s) := by
  unfold execPreemptWaitExpiry
  dsimp only
  repeat' split
  all_goals simp [h]

theorem distributorPlace_keeps {s : State} (h : Memory.wf s.mem = true) : Keeps (execDistributorPlace s) := by
  unfold execDistributorPlace
  refine keeps_ite (keeps_fault _) ?_
  split
  · simp [h]
  · split <;> simp [h]

theorem segmentCopyDone_keeps {s : State} (h : Memory.wf s.mem = true) (core : BitVec 10) : Keeps (execSegmentCopyDone core s) := by
  unfold execSegmentCopyDone
  dsimp only
  repeat' split
  all_goals simp [h]

theorem jcbRaiseAnswer_keeps {s : State} (h : Memory.wf s.mem = true) (uid : Nat) : Keeps (execJcbRaiseAnswer uid s) := by
  unfold execJcbRaiseAnswer
  dsimp only
  repeat' split
  all_goals simp [h]

theorem censusClose_keeps {s : State} (h : Memory.wf s.mem = true) (uid : Nat) (k : BitVec 6) : Keeps (execCensusClose uid k s) := by
  unfold execCensusClose
  dsimp only
  repeat' split
  all_goals simp [h]

theorem matrixRunEnd_keeps {s : State} (h : Memory.wf s.mem = true) (uid : Nat) (a : BitVec 4) : Keeps (execMatrixRunEnd uid a s) := by
  unfold execMatrixRunEnd
  dsimp only
  repeat' split
  all_goals simp [h]

theorem copyComplete_keeps {s : State} (h : Memory.wf s.mem = true) (uid : Nat) (slot : CopySlot) : Keeps (execCopyComplete uid slot s) := by
  unfold execCopyComplete
  dsimp only
  repeat' split
  all_goals simp [h]

theorem cpyqFire_keeps {s : State} (h : Memory.wf s.mem = true) (uid : Nat) (slot : CopySlot) (i : Nat) : Keeps (execCpyqFire uid slot i s) := by
  unfold execCpyqFire
  dsimp only
  repeat' split
  all_goals simp [h]

theorem epiAddComplete_keeps {s : State} (h : Memory.wf s.mem = true) (uid : Nat) : Keeps (execEpiAddComplete uid s) := by
  unfold execEpiAddComplete
  dsimp only
  repeat' split
  all_goals simp [h]

theorem sendtFire_keeps {s : State} (h : Memory.wf s.mem = true) (uid : Nat) (i : Nat) : Keeps (execSendtFire uid i s) := by
  unfold execSendtFire
  dsimp only
  repeat' split
  all_goals simp [h]

theorem sendDelivery_keeps {s : State} (h : Memory.wf s.mem = true) (d : Delivery) : Keeps (execSendDelivery d s) := by
  unfold execSendDelivery
  refine keeps_ite (keeps_ite (keeps_fault _) ?_) (keeps_ite ?_ ?_)
  · split
    · refine keeps_next (acceptSend_wf ?_ _ _)
      exact h
    · exact keeps_fault _
  · split
    · refine keeps_ite (keeps_fault _) (keeps_next (acceptSend_wf ?_ _ _))
      exact h
    · exact keeps_fault _
  · split
    · refine keeps_next ?_
      split <;> simp [h]
    · dsimp only
      split
      · exact keeps_fault _
      split
      · exact keeps_fault _
      refine keeps_ite (keeps_fault _) ?_
      split
      · simp [h]
      next ht => exact keeps_ite (keeps_next (leave_wf ((congrArg Memory.wf (transmit_mem ht)).trans h) _ _ _ _)) (keeps_fault _)

theorem sendComplete_keeps {s : State} (h : Memory.wf s.mem = true) (uid : Nat) (i : Nat) (ans : SendAnswer) : Keeps (execSendComplete uid i ans s) := by
  unfold execSendComplete
  dsimp only
  repeat' split
  all_goals simp [h]

theorem collHop_keeps {s : State} (h : Memory.wf s.mem = true) (p : CollPacket) : Keeps (execCollHop p s) := by
  unfold execCollHop
  dsimp only
  repeat' split
  all_goals simp [h]

theorem collDeliverApply_keeps {s : State} (h : Memory.wf s.mem = true) (i : Nat) : Keeps (execCollDeliverApply i s) := by
  unfold execCollDeliverApply
  dsimp only
  repeat' split
  all_goals simp [h]

theorem abortFlit_keeps {s : State} (h : Memory.wf s.mem = true) (tag : CollTag) (port : BitVec 4) : Keeps (execAbortFlit tag port s) := by
  unfold execAbortFlit
  repeat' split
  all_goals simp [h]

theorem jcbHomeRaise_keeps {s : State} (h : Memory.wf s.mem = true) (uid : Nat) : Keeps (execJcbHomeRaise uid s) := by
  unfold execJcbHomeRaise
  dsimp only
  repeat' split
  all_goals simp [h]

theorem jcbHomeCompletion_keeps {s : State} (h : Memory.wf s.mem = true) (jcb : BitVec 12) : Keeps (execJcbHomeCompletion jcb s) := by
  unfold execJcbHomeCompletion
  dsimp only
  repeat' split
  all_goals simp [h]

theorem jcbHomeNodeFailure_keeps {s : State} (h : Memory.wf s.mem = true) (jcb : BitVec 12) (node : BitVec 20) (status : BitVec 32) : Keeps (execJcbHomeNodeFailure jcb node status s) := by
  unfold execJcbHomeNodeFailure
  dsimp only
  repeat' split
  all_goals simp [h]

theorem nodeCommit_keeps {s : State} (h : Memory.wf s.mem = true) (uid : Nat) : Keeps (execNodeCommit uid s) := by
  unfold execNodeCommit
  dsimp only
  refine keeps_ite (keeps_fault _) (keeps_ite (by simp [h]) ?_)
  split
  next t ht =>
    refine keeps_next ((congrArg Memory.wf (State.clearBnd_mem _)).trans ?_)
    cases hc : s.commitStop uid with
    | some u => rw [hc] at ht; cases ht; exact commitStop_wf h hc
    | none =>
      rw [hc] at ht
      replace ht : (if (s.node uid).run.partner = 0 then none else s.commitStop (s.node uid).run.partner) = some t := ht
      split at ht
      · cases ht
      · exact commitStop_wf h ht
  · exact keeps_next (commit_wf (ite_wf h (by simp [h])) _)

theorem trapEntry_keeps {s : State} (h : Memory.wf s.mem = true) (core : BitVec 10) : Keeps (execTrapEntry core s) := by
  unfold execTrapEntry
  have hf : Memory.wf (s.focusOn core.toNat).mem = true := by simp [h]
  dsimp only
  refine keeps_ite (keeps_fault _) ?_
  split
  next ht => exact keeps_next ((congrArg Memory.wf (State.clearBnd_mem _)).trans (dueNow_wf hf ht))
  · exact keeps_fault _

theorem userInterruptEntry_keeps {s : State} (h : Memory.wf s.mem = true) (core : BitVec 10) : Keeps (execUserInterruptEntry core s) := by
  unfold execUserInterruptEntry
  dsimp only
  repeat' split
  all_goals simp [h]

theorem preemptQuiesce_keeps {s : State} (h : Memory.wf s.mem = true) (uid : Nat) (begun : Nat × Nat) : Keeps (execPreemptQuiesce uid begun s) := by
  unfold execPreemptQuiesce
  dsimp only
  repeat' split
  all_goals simp [h]

theorem nodeSave_keeps {s : State} (h : Memory.wf s.mem = true) (uid : Nat) : Keeps (execNodeSave uid s) := by
  unfold execNodeSave
  dsimp only
  repeat' split
  all_goals simp [h]

theorem errorConsumed_keeps {s : State} (h : Memory.wf s.mem = true) (uid : Nat) : Keeps (execErrorConsumed uid s) := by
  unfold execErrorConsumed
  dsimp only
  repeat' split
  all_goals simp [h]

theorem powerGood_keeps {s : State} (h : Memory.wf s.mem = true) : Keeps (execPowerGood s) := by
  unfold execPowerGood
  refine keeps_next ((congrArg Memory.wf (foldl_mem (f := fun s _ => s.count "patches skipped") (fun _ _ => rfl) _ _)).trans ?_)
  exact filter_wf h _

theorem stackSelfTestPass_keeps {s : State} (h : Memory.wf s.mem = true) (r : SelfTest) : Keeps (execStackSelfTestPass r s) := by
  unfold execStackSelfTestPass
  dsimp only
  repeat' split
  all_goals simp [h]

theorem bringupTimeout_keeps {s : State} (h : Memory.wf s.mem = true) : Keeps (execBringupTimeout s) := by
  unfold execBringupTimeout
  dsimp only
  repeat' split
  all_goals simp [h]

theorem probeReturn_keeps {s : State} (h : Memory.wf s.mem = true) (axis : Axis) (hops : BitVec 6) : Keeps (execProbeReturn axis hops s) := by
  unfold execProbeReturn
  repeat' split
  all_goals simp [h]

theorem probeTimeout_keeps {s : State} (h : Memory.wf s.mem = true) (axis : Axis) : Keeps (execProbeTimeout axis s) := by
  unfold execProbeTimeout
  repeat' split
  all_goals simp [h]

theorem engineCheckFail_keeps {s : State} (h : Memory.wf s.mem = true) (core : BitVec 10) (slot : EngineSlot) : Keeps (execEngineCheckFail core slot s) := by
  unfold execEngineCheckFail
  dsimp only
  repeat' split
  all_goals simp [h]

theorem rebindDone_keeps {s : State} (h : Memory.wf s.mem = true) : Keeps (execRebindDone s) := by
  unfold execRebindDone
  split
  · exact keeps_fault _
  · exact keeps_next (endJob_wf h _ _ fun _ h => by simp [h])

theorem bindDrainDone_keeps {s : State} (h : Memory.wf s.mem = true) : Keeps (execBindDrainDone s) := by
  unfold execBindDrainDone
  split
  · exact keeps_fault _
  · exact keeps_next (endJob_wf h _ _ fun _ h => by simp [apply_ite State.mem, h])

theorem dramSoftRepair_keeps {s : State} (h : Memory.wf s.mem = true) (chan : BitVec 8) (bank : BitVec 8) (row : BitVec 32) (lost : List Nat) : Keeps (execDramSoftRepair chan bank row lost s) := by
  unfold execDramSoftRepair
  have hl : Memory.wf (lost.foldl (fun (s : State) a => s.setByte a (s.byte a) true) s).mem = true := foldl_wf (fun _ _ h => setByte_wf h _ _ _) _ h
  exact keeps_ite (keeps_fault _) (keeps_next (ite_wf (by simp [hl]) (by simp [hl])))

theorem laneRetrainDone_keeps {s : State} (h : Memory.wf s.mem = true) (port : BitVec 4) : Keeps (execLaneRetrainDone port s) := by
  unfold execLaneRetrainDone
  dsimp only
  repeat' split
  all_goals simp [h]

theorem laneFail_keeps {s : State} (h : Memory.wf s.mem = true) (port : BitVec 4) (lane : BitVec 4) : Keeps (execLaneFail port lane s) := by
  unfold execLaneFail
  dsimp only
  repeat' split
  all_goals simp [h]

theorem powerSample_keeps {s : State} (h : Memory.wf s.mem = true) (watts : Nat) : Keeps (execPowerSample watts s) := by
  exact keeps_next h

theorem clockStep_keeps {s : State} (h : Memory.wf s.mem = true) : Keeps (execClockStep s) := by
  unfold execClockStep
  dsimp only
  repeat' split
  all_goals simp [h]

theorem telemetryRefresh_keeps {s : State} (h : Memory.wf s.mem = true) : Keeps (execTelemetryRefresh s) := by
  unfold execTelemetryRefresh
  dsimp only
  repeat' split
  all_goals simp [h]

theorem stackSelfTestFail_keeps {s : State} (h : Memory.wf s.mem = true) (st : BitVec 2) : Keeps (execStackSelfTestFail st s) := by
  unfold execStackSelfTestFail
  dsimp only
  repeat' split
  all_goals simp [h]

theorem coreRetireDrainDone_keeps {s : State} (h : Memory.wf s.mem = true) (core : BitVec 10) : Keeps (execCoreRetireDrainDone core s) := by
  unfold execCoreRetireDrainDone
  split
  · exact keeps_fault _
  · exact keeps_next (endJob_wf h _ _ fun _ h => by simp [h])

/-! ## Every instruction -/

theorem exec_keeps (i : Instr) {s : State} (h : Memory.wf s.mem = true) : Keeps (exec i s) := by
  cases i with
  | add => exact exec_add s _ _ _ _ _ ▸ word_keeps h fun _ h => by simp [h]
  | sub => exact exec_sub s _ _ _ _ _ ▸ word_keeps h fun _ h => by simp [h]
  | addS => exact exec_addS s _ _ _ _ _ ▸ word_keeps h fun _ h => by simp [h]
  | subS => exact exec_subS s _ _ _ _ _ ▸ word_keeps h fun _ h => by simp [h]
  | and => exact exec_and s _ _ _ _ _ ▸ word_keeps h fun _ h => by simp [h]
  | or => exact exec_or s _ _ _ _ _ ▸ word_keeps h fun _ h => by simp [h]
  | xor => exact exec_xor s _ _ _ _ _ ▸ word_keeps h fun _ h => by simp [h]
  | andn => exact exec_andn s _ _ _ _ _ ▸ word_keeps h fun _ h => by simp [h]
  | shl => exact exec_shl s _ _ _ _ _ ▸ word_keeps h fun _ h => by simp [h]
  | shlS => exact exec_shlS s _ _ _ _ _ ▸ word_keeps h fun _ h => by simp [h]
  | shr => exact exec_shr s _ _ _ _ _ ▸ word_keeps h fun _ h => by simp [h]
  | sar => exact exec_sar s _ _ _ _ _ ▸ word_keeps h fun _ h => by simp [h]
  | rot => exact exec_rot s _ _ _ _ _ ▸ word_keeps h fun _ h => by simp [h]
  | mul => exact exec_mul s _ _ _ _ _ ▸ word_keeps h fun _ h => by simp [h]
  | mulS => exact exec_mulS s _ _ _ _ _ ▸ word_keeps h fun _ h => by simp [h]
  | mulh => exact exec_mulh s _ _ _ _ _ ▸ word_keeps h fun _ h => by simp [h]
  | mulhw => exact exec_mulhw s _ _ _ _ _ ▸ word_keeps h fun _ h => by simp [h]
  | div => exact exec_div s _ _ _ _ _ ▸ word_keeps h fun _ h => by simp [h]
  | divw => exact exec_divw s _ _ _ _ _ ▸ word_keeps h fun _ h => by simp [h]
  | rem => exact exec_rem s _ _ _ _ _ ▸ word_keeps h fun _ h => by simp [h]
  | remw => exact exec_remw s _ _ _ _ _ ▸ word_keeps h fun _ h => by simp [h]
  | min => exact exec_min s _ _ _ _ _ ▸ word_keeps h fun _ h => by simp [h]
  | max => exact exec_max s _ _ _ _ _ ▸ word_keeps h fun _ h => by simp [h]
  | minw => exact exec_minw s _ _ _ _ _ ▸ word_keeps h fun _ h => by simp [h]
  | maxw => exact exec_maxw s _ _ _ _ _ ▸ word_keeps h fun _ h => by simp [h]
  | clz => exact exec_clz s _ _ _ _ ▸ word_keeps h fun _ h => by simp [h]
  | cls => exact exec_cls s _ _ _ _ ▸ word_keeps h fun _ h => by simp [h]
  | popc => exact exec_popc s _ _ _ _ ▸ word_keeps h fun _ h => by simp [h]
  | bfx => exact exec_bfx s _ _ _ _ _ ▸ word_keeps h fun _ h => by simp [h]
  | bfi => exact exec_bfi s _ _ _ _ _ ▸ word_keeps h fun _ h => by simp [h]
  | sel => exact exec_sel s _ _ _ _ _ ▸ word_keeps h fun _ h => by simp [h]
  | mov => exact exec_mov s _ _ _ _ ▸ word_keeps h fun _ h => by simp [h]
  | movp => exact exec_movp s _ _ _ _ _ _ _ _ ▸ word_keeps h fun _ h => by simp [h]
  | cmpEq => exact exec_cmpEq s _ _ _ _ _ ▸ word_keeps h fun _ h => by simp [h]
  | cmpNe => exact exec_cmpNe s _ _ _ _ _ ▸ word_keeps h fun _ h => by simp [h]
  | cmpLt => exact exec_cmpLt s _ _ _ _ _ ▸ word_keeps h fun _ h => by simp [h]
  | cmpGe => exact exec_cmpGe s _ _ _ _ _ ▸ word_keeps h fun _ h => by simp [h]
  | cmpLtw => exact exec_cmpLtw s _ _ _ _ _ ▸ word_keeps h fun _ h => by simp [h]
  | cmpGew => exact exec_cmpGew s _ _ _ _ _ ▸ word_keeps h fun _ h => by simp [h]
  | addi => exact exec_addi s _ _ _ _ _ ▸ word_keeps h fun _ h => by simp [h]
  | li => exact exec_li s _ _ _ _ ▸ word_keeps h fun _ h => by simp [h]
  | lih => exact exec_lih s _ _ _ _ ▸ word_keeps h fun _ h => by simp [h]
  | cmpiEq => exact exec_cmpiEq s _ _ _ _ _ ▸ word_keeps h fun _ h => by simp [h]
  | cmpiNe => exact exec_cmpiNe s _ _ _ _ _ ▸ word_keeps h fun _ h => by simp [h]
  | cmpiLt => exact exec_cmpiLt s _ _ _ _ _ ▸ word_keeps h fun _ h => by simp [h]
  | cmpiGe => exact exec_cmpiGe s _ _ _ _ _ ▸ word_keeps h fun _ h => by simp [h]
  | cmpiLtw => exact exec_cmpiLtw s _ _ _ _ _ ▸ word_keeps h fun _ h => by simp [h]
  | cmpiGew => exact exec_cmpiGew s _ _ _ _ _ ▸ word_keeps h fun _ h => by simp [h]
  | brRel => exact exec_brRel s _ _ _ _ ▸ word_keeps h fun _ h => by simp [h]
  | brAbs => exact exec_brAbs s _ _ _ _ ▸ word_keeps h fun _ h => by simp [h]
  | callRel => exact exec_callRel s _ _ _ _ ▸ word_keeps h fun _ h => by simp [h]
  | callAbs => exact exec_callAbs s _ _ _ _ ▸ word_keeps h fun _ h => by simp [h]
  | ret => exact exec_ret s _ _ _ ▸ word_keeps h fun _ h => by simp [h]
  | brc => exact exec_brc s _ _ _ _ _ _ ▸ word_keeps h fun _ h => ite_wf (by simp [h]) h
  | brf => exact exec_brf s _ _ _ _ _ _ _ ▸ word_keeps h fun _ h => ite_wf (by simp [apply_ite State.mem, h]) (ite_wf (by simp [h]) h)
  | loopOpen => exact exec_loopOpen s _ _ _ _ _ ▸ word_keeps h fun _ h => ite_wf (by simp [h]) (ite_wf (by simp [h]) (ite_wf (by simp [h]) (by simp [h])))
  | loopClose => exact exec_loopClose s _ _ _ _ ▸ word_keeps h fun _ h => by simp [h]
  | loopr => exact exec_loopr s _ _ _ _ _ ▸ word_keeps h fun _ h => by simp [h]
  | lbrk => exact exec_lbrk s _ _ _ _ _ ▸ word_keeps h fun _ h => ite_wf (by simp [h]) (by simp [h])
  | segx => exact exec_segx s _ _ _ ▸ word_keeps h fun _ h => ite_wf h (by simp [h])
  | endNode => exact exec_endNode s ▸ word_keeps h fun _ h => by simp [h]
  | ldB => exact exec_ldB s _ _ _ _ _ _ ▸ word_keeps h fun _ h => by simp [h]
  | ldH => exact exec_ldH s _ _ _ _ _ _ ▸ word_keeps h fun _ h => by simp [h]
  | ldW => exact exec_ldW s _ _ _ _ _ _ ▸ word_keeps h fun _ h => by simp [h]
  | ldD => exact exec_ldD s _ _ _ _ _ _ ▸ word_keeps h fun _ h => by simp [h]
  | ldW8 => exact exec_ldW8 s _ _ _ _ _ _ ▸ word_keeps h fun _ h => by simp [h]
  | ldW16 => exact exec_ldW16 s _ _ _ _ _ _ ▸ word_keeps h fun _ h => by simp [h]
  | ldW32 => exact exec_ldW32 s _ _ _ _ _ _ ▸ word_keeps h fun _ h => by simp [h]
  | ldAcq => exact exec_ldAcq s _ _ _ _ _ _ ▸ word_keeps h fun _ h => by simp [h]
  | stB => exact exec_stB s _ _ _ _ _ _ ▸ word_keeps h fun _ h => by simp [h]
  | stH => exact exec_stH s _ _ _ _ _ _ ▸ word_keeps h fun _ h => by simp [h]
  | stW => exact exec_stW s _ _ _ _ _ _ ▸ word_keeps h fun _ h => by simp [h]
  | stD => exact exec_stD s _ _ _ _ _ _ ▸ word_keeps h fun _ h => by simp [h]
  | stRel => exact exec_stRel s _ _ _ _ _ _ ▸ word_keeps h fun _ h => by simp [h]
  | ldh => exact exec_ldh s _ _ _ _ _ _ ▸ word_keeps h fun _ h => load_wf h _ _ fun _ _ h => by simp [h]
  | sth => exact exec_sth s _ _ _ _ _ _ ▸ word_keeps h fun _ h => by simp [h]
  | amoAdd => exact exec_amoAdd s _ _ _ _ _ _ _ ▸ word_keeps h fun _ h => by simp [h]
  | amoAdds => exact exec_amoAdds s _ _ _ _ _ _ _ ▸ word_keeps h fun _ h => by simp [h]
  | amoMin => exact exec_amoMin s _ _ _ _ _ _ _ ▸ word_keeps h fun _ h => by simp [h]
  | amoMax => exact exec_amoMax s _ _ _ _ _ _ _ ▸ word_keeps h fun _ h => by simp [h]
  | amoAnd => exact exec_amoAnd s _ _ _ _ _ _ _ ▸ word_keeps h fun _ h => by simp [h]
  | amoOr => exact exec_amoOr s _ _ _ _ _ _ _ ▸ word_keeps h fun _ h => by simp [h]
  | amoXor => exact exec_amoXor s _ _ _ _ _ _ _ ▸ word_keeps h fun _ h => by simp [h]
  | amoSwap => exact exec_amoSwap s _ _ _ _ _ _ _ ▸ word_keeps h fun _ h => by simp [h]
  | amoCas => exact exec_amoCas s _ _ _ _ _ _ _ ▸ word_keeps h fun _ h => by simp [h]
  | amoIncw => exact exec_amoIncw s _ _ _ _ _ _ _ ▸ word_keeps h fun _ h => by simp [h]
  | trap => exact exec_trap s _ _ _ ▸ word_keeps h fun _ h => by simp [h]
  | tret => exact exec_tret s _ ▸ word_keeps h fun _ h => ite_wf (by simp [h]) (ite_wf (by simp [h]) (by split <;> simp [h]))
  | uiret => exact exec_uiret s _ ▸ word_keeps h fun _ h => ite_wf (by simp [h]) (by simp [h])
  | ctlr => exact exec_ctlr s _ _ _ _ ▸ word_keeps h fun _ h => by simp [h]
  | ctlw => exact exec_ctlw s _ _ _ _ ▸ word_keeps h fun _ h => by simp [h]
  | fence => exact exec_fence s _ _ _ _ _ ▸ word_keeps h fun _ h => ite_wf (by simp [h]) h
  | brk => exact exec_brk s _ _ _ ▸ word_keeps h fun _ h => by simp [h]
  | cmpt => exact exec_cmpt s _ _ _ _ ▸ word_keeps h fun _ h => ite_wf h (by simp [h])
  | enq => exact exec_enq s _ _ _ _ ▸ word_keeps h fun _ h => ite_wf (by simp [h]) (ite_wf (by simp [h]) (by simp [h]))
  | yield => exact exec_yield s _ _ ▸ word_keeps h fun _ h => by simp [h]
  | genr => exact exec_genr s _ _ _ ▸ word_keeps h fun _ h => by simp [h]
  | idle => exact exec_idle s _ ▸ word_keeps h fun _ h => by simp [h]
  | vadd => exact exec_vadd s _ _ _ _ _ ▸ word_keeps h fun _ h => by simp [h]
  | vsub => exact exec_vsub s _ _ _ _ _ ▸ word_keeps h fun _ h => by simp [h]
  | vadds => exact exec_vadds s _ _ _ _ _ ▸ word_keeps h fun _ h => by simp [h]
  | vsubs => exact exec_vsubs s _ _ _ _ _ ▸ word_keeps h fun _ h => by simp [h]
  | vmul => exact exec_vmul s _ _ _ _ _ _ ▸ word_keeps h fun _ h => by simp [h]
  | vmulh => exact exec_vmulh s _ _ _ _ _ ▸ word_keeps h fun _ h => by simp [h]
  | vmac => exact exec_vmac s _ _ _ _ _ _ ▸ word_keeps h fun _ h => by simp [h]
  | vmin => exact exec_vmin s _ _ _ _ _ ▸ word_keeps h fun _ h => by simp [h]
  | vmax => exact exec_vmax s _ _ _ _ _ ▸ word_keeps h fun _ h => by simp [h]
  | vand => exact exec_vand s _ _ _ _ ▸ word_keeps h fun _ h => by simp [h]
  | vor => exact exec_vor s _ _ _ _ ▸ word_keeps h fun _ h => by simp [h]
  | vxor => exact exec_vxor s _ _ _ _ ▸ word_keeps h fun _ h => by simp [h]
  | vandn => exact exec_vandn s _ _ _ _ ▸ word_keeps h fun _ h => by simp [h]
  | vsel => exact exec_vsel s _ _ _ _ ▸ word_keeps h fun _ h => by simp [h]
  | vcmpEq => exact exec_vcmpEq s _ _ _ _ ▸ word_keeps h fun _ h => by simp [h]
  | vcmpNe => exact exec_vcmpNe s _ _ _ _ ▸ word_keeps h fun _ h => by simp [h]
  | vcmpLt => exact exec_vcmpLt s _ _ _ _ ▸ word_keeps h fun _ h => by simp [h]
  | vcmpGe => exact exec_vcmpGe s _ _ _ _ ▸ word_keeps h fun _ h => by simp [h]
  | vcmpLtw => exact exec_vcmpLtw s _ _ _ _ ▸ word_keeps h fun _ h => by simp [h]
  | vcmpGew => exact exec_vcmpGew s _ _ _ _ ▸ word_keeps h fun _ h => by simp [h]
  | vperm => exact exec_vperm s _ _ _ _ ▸ word_keeps h fun _ h => vword_wf h _ _ fun _ h => by simp [h]
  | vgath => exact exec_vgath s _ _ _ _ ▸ word_keeps h fun _ h => vword_wf h _ _ fun _ h => by simp [h]
  | vscat => exact exec_vscat s _ _ _ _ ▸ word_keeps h fun _ h => vword_wf h _ _ fun _ h => by simp [h]
  | vcmpt => exact exec_vcmpt s _ _ _ ▸ word_keeps h fun _ h => vword_wf h _ _ fun _ h => by split <;> simp [h]
  | tld => exact exec_tld s _ _ _ _ ▸ word_keeps h fun _ h => vword_wf h _ _ fun _ h => by simp [h]
  | tst => exact exec_tst s _ _ _ _ _ ▸ word_keeps h fun _ h => vword_wf h _ _ fun _ h => by simp [h]
  | vshl => exact exec_vshl s _ _ _ _ _ ▸ word_keeps h fun _ h => vword_wf h _ _ fun _ h => by simp [h]
  | vshr => exact exec_vshr s _ _ _ _ _ ▸ word_keeps h fun _ h => vword_wf h _ _ fun _ h => by simp [h]
  | vsar => exact exec_vsar s _ _ _ _ _ ▸ word_keeps h fun _ h => vword_wf h _ _ fun _ h => by simp [h]
  | vshrn => exact exec_vshrn s _ _ _ _ _ _ ▸ word_keeps h fun _ h => vword_wf h _ _ fun _ h => by simp [h]
  | vabs => exact exec_vabs s _ _ _ _ ▸ word_keeps h fun _ h => by simp [h]
  | vneg => exact exec_vneg s _ _ _ _ ▸ word_keeps h fun _ h => by simp [h]
  | vclz => exact exec_vclz s _ _ _ ▸ word_keeps h fun _ h => by simp [h]
  | vcls => exact exec_vcls s _ _ _ ▸ word_keeps h fun _ h => by simp [h]
  | vpopc => exact exec_vpopc s _ _ _ ▸ word_keeps h fun _ h => by simp [h]
  | vcvt => exact exec_vcvt s _ _ _ _ _ ▸ word_keeps h fun _ h => by simp [h]
  | vpack => exact exec_vpack s _ _ _ _ _ ▸ word_keeps h fun _ h => vword_wf h _ _ fun _ h => by simp [h]
  | vunpk => exact exec_vunpk s _ _ _ _ _ ▸ word_keeps h fun _ h => vword_wf h _ _ fun _ h => by simp [h]
  | vrotl => exact exec_vrotl s _ _ _ _ _ _ ▸ word_keeps h fun _ h => vword_wf h _ _ fun _ h => by simp [h]
  | vbcast => exact exec_vbcast s _ _ _ ▸ word_keeps h fun _ h => vword_wf h _ _ fun _ h => by simp [h]
  | vbcastRow => exact exec_vbcastRow s _ _ _ ▸ word_keeps h fun _ h => vword_wf h _ _ fun _ h => by simp [h]
  | vbcastCol => exact exec_vbcastCol s _ _ _ ▸ word_keeps h fun _ h => vword_wf h _ _ fun _ h => by simp [h]
  | vmov => exact exec_vmov s _ _ _ ▸ word_keeps h fun _ h => by simp [h]
  | vredsum => exact exec_vredsum s _ _ _ _ _ ▸ word_keeps h fun _ h => by simp [h]
  | vredmax => exact exec_vredmax s _ _ _ _ _ ▸ word_keeps h fun _ h => by simp [h]
  | vredmin => exact exec_vredmin s _ _ _ _ _ ▸ word_keeps h fun _ h => by simp [h]
  | vabsmax => exact exec_vabsmax s _ _ _ _ ▸ word_keeps h fun _ h => by simp [h]
  | vpart => exact exec_vpart s _ _ _ _ ▸ word_keeps h fun _ h => vword_wf h _ _ fun _ h => ite_wf (by simp [h]) (by simp [apply_ite State.mem, h])
  | vscan => exact exec_vscan s _ _ _ _ _ _ ▸ word_keeps h fun _ h => vword_wf h _ _ fun _ h => by simp [h]
  | vlut3 => exact exec_vlut3 s _ _ _ _ _ ▸ word_keeps h fun _ h => vword_wf h _ _ fun _ h => by simp [h]
  | vfsl => exact exec_vfsl s _ _ _ _ _ ▸ word_keeps h fun _ h => by simp [h]
  | vfsr => exact exec_vfsr s _ _ _ _ _ ▸ word_keeps h fun _ h => by simp [h]
  | vexp2 => exact exec_vexp2 s _ _ _ _ _ ▸ word_keeps h fun _ h => by simp [h]
  | vlog2 => exact exec_vlog2 s _ _ _ _ _ ▸ word_keeps h fun _ h => by simp [h]
  | vrcp => exact exec_vrcp s _ _ _ _ _ ▸ word_keeps h fun _ h => by simp [h]
  | vrsq => exact exec_vrsq s _ _ _ _ _ ▸ word_keeps h fun _ h => by simp [h]
  | vsmax => exact exec_vsmax s _ _ _ _ ▸ word_keeps h fun _ h => vword_wf h _ _ fun _ h => by simp [h]
  | vrmsn => exact exec_vrmsn s _ _ _ _ _ ▸ word_keeps h fun _ h => by simp [h]
  | vlnrm => exact exec_vlnrm s _ _ _ _ _ ▸ word_keeps h fun _ h => by simp [h]
  | vgelu => exact exec_vgelu s _ _ _ _ _ ▸ word_keeps h fun _ h => by simp [h]
  | voptSgdm => exact exec_voptSgdm s _ _ _ _ _ _ ▸ word_keeps h fun _ h => by simp [h]
  | voptLion => exact exec_voptLion s _ _ _ _ _ _ ▸ word_keeps h fun _ h => by simp [h]
  | voptAdam => exact exec_voptAdam s _ _ _ _ _ _ ▸ word_keeps h fun _ h => by simp [h]
  | mbeg => exact exec_mbeg s _ _ _ ▸ word_keeps h fun _ h => by simp [h]
  | mend => exact exec_mend s _ _ ▸ word_keeps h fun _ h => by simp [h]
  | mzero => exact exec_mzero s _ _ ▸ word_keeps h fun _ h => by simp [h]
  | mma => exact exec_mma s _ _ _ _ _ ▸ word_keeps h fun _ h => by simp [h]
  | mmat => exact exec_mmat s _ _ _ _ _ ▸ word_keeps h fun _ h => by simp [h]
  | epi => exact exec_epi s _ _ _ _ _ _ _ _ ▸ word_keeps h fun _ h => by simp [h]
  | epiAdd => exact exec_epiAdd s _ _ _ _ _ _ _ _ _ ▸ word_keeps h fun _ h => by simp [h]
  | epiSend => exact exec_epiSend s _ _ _ _ _ _ _ ▸ word_keeps h fun _ h => by simp [h]
  | epiCk => exact exec_epiCk s _ _ _ ▸ word_keeps h fun _ h => by simp [h]
  | hset => exact exec_hset s _ _ _ _ _ ▸ word_keeps h fun _ h => by simp [h]
  | hld => exact exec_hld s _ _ _ _ _ ▸ word_keeps h fun _ h => scratchHandle_wf h _ fun _ h => load_wf h _ _ fun _ _ h => by simp [h]
  | hst => exact exec_hst s _ _ _ _ _ ▸ word_keeps h fun _ h => scratchHandle_wf h _ fun _ h => by simp [h]
  | horg => exact exec_horg s _ _ _ _ _ ▸ word_keeps h fun _ h => by simp [h]
  | horgImm => exact exec_horgImm s _ _ _ _ _ _ ▸ word_keeps h fun _ h => by simp [h]
  | hstep => exact exec_hstep s _ _ _ _ _ ▸ word_keeps h fun _ h => by simp [h]
  | hstepImm => exact exec_hstepImm s _ _ _ _ _ _ ▸ word_keeps h fun _ h => by simp [h]
  | kset => exact exec_kset s _ _ _ _ _ ▸ word_keeps h fun _ h => kword_wf h _ fun _ h => by simp [h]
  | kget => exact exec_kget s _ _ _ _ _ ▸ word_keeps h fun _ h => kword_wf h _ fun _ h => by simp [h]
  | cenClose => exact exec_cenClose s _ _ _ ▸ word_keeps h fun _ h => by simp [h]
  | cenGet => exact exec_cenGet s _ _ _ _ _ ▸ word_keeps h fun _ h => kword_wf h _ fun _ h => by simp [h]
  | shift => exact exec_shift s _ _ _ _ _ ▸ word_keeps h fun _ h => kword_wf h _ fun _ h => by simp [h]
  | tsh => exact exec_tsh s _ _ _ _ ▸ word_keeps h fun _ h => by simp [h]
  | tshRead => exact exec_tshRead s _ _ _ _ ▸ word_keeps h fun _ h => by simp [h]
  | tshr => exact exec_tshr s _ _ _ _ _ ▸ word_keeps h fun _ h => ite_wf (by simp [h]) (ite_wf (by simp [h]) (by simp [h]))
  | cpy => exact exec_cpy s _ _ _ _ _ ▸ word_keeps h fun _ h => by simp [h]
  | cpyk => exact exec_cpyk s _ _ _ _ _ ▸ word_keeps h fun _ h => by simp [h]
  | cpyf => exact exec_cpyf s _ _ _ _ _ ▸ word_keeps h fun _ h => by simp [h]
  | cpyb => exact exec_cpyb s _ _ _ _ _ _ ▸ word_keeps h fun _ h => by simp [h]
  | cpyq => exact exec_cpyq s _ _ _ _ _ _ ▸ word_keeps h fun _ h => by simp [h]
  | cpycan => exact exec_cpycan s _ _ _ _ ▸ word_keeps h fun _ h => ite_wf (by simp [apply_ite State.mem, h]) (by simp [apply_ite State.mem, h])
  | send => exact exec_send s _ _ _ _ _ _ ▸ word_keeps h fun _ h => by simp [h]
  | sendt => exact exec_sendt s _ _ _ _ _ _ ▸ word_keeps h fun _ h => by simp [h]
  | coll => exact exec_coll s _ _ _ _ _ _ ▸ word_keeps h fun _ h => by simp [h]
  | abort => exact exec_abort s _ _ _ ▸ word_keeps h fun _ h => by simp [h]
  | cset => exact exec_cset s _ _ _ _ ▸ word_keeps h fun _ h => by simp [h]
  | csetImm => exact exec_csetImm s _ _ _ _ _ ▸ word_keeps h fun _ h => by simp [h]
  | cadd => exact exec_cadd s _ _ _ _ ▸ word_keeps h fun _ h => by simp [h]
  | caddImm => exact exec_caddImm s _ _ _ _ _ ▸ word_keeps h fun _ h => by simp [h]
  | cwait => exact exec_cwait s _ _ _ _ ▸ word_keeps h fun _ h => by simp [h]
  | cwaitImm => exact exec_cwaitImm s _ _ _ _ _ ▸ word_keeps h fun _ h => by simp [h]
  | barb => exact exec_barb s _ _ _ _ ▸ word_keeps h fun _ h => by simp [h]
  | barbImm => exact exec_barbImm s _ _ _ _ _ ▸ word_keeps h fun _ h => by simp [h]
  | bar => exact exec_bar s _ _ _ _ _ _ ▸ word_keeps h fun _ h => by simp [h]
  | jcbRaise => exact exec_jcbRaise s _ _ _ _ ▸ word_keeps h fun _ h => by simp [h]
  | jcbRaiseImm => exact exec_jcbRaiseImm s _ _ _ _ _ ▸ word_keeps h fun _ h => by simp [h]
  | jcbDone => exact exec_jcbDone s _ _ ▸ word_keeps h fun _ h => by simp [h]
  | tokGive => exact exec_tokGive s _ _ _ _ ▸ word_keeps h fun _ h => by simp [h]
  | tokGiveImm => exact exec_tokGiveImm s _ _ _ _ _ ▸ word_keeps h fun _ h => by simp [h]
  | tokTake => exact exec_tokTake s _ _ _ _ _ ▸ word_keeps h fun _ h => by simp [h]
  | tokTakeImm => exact exec_tokTakeImm s _ _ _ _ _ _ ▸ word_keeps h fun _ h => by simp [h]
  | extensionWord => exact exec_extensionWord s _ ▸ word_keeps h fun _ h => by simp [h]
  | nop => exact exec_nop s _ _ ▸ word_keeps h fun _ h => by simp [h]
  | qtailWrite => exact exec_qtailWrite s _ _ ▸ keeps_next (by simp [h])
  | queueEnable => exact exec_queueEnable s _ _ ▸ queueEnable_keeps h _ _
  | queueDisable => exact exec_queueDisable s _ _ ▸ queueDisable_keeps h _ _
  | qctlRst => exact exec_qctlRst s _ _ ▸ keeps_next (by simp [h])
  | tlinkWrite => exact exec_tlinkWrite s _ _ ▸ keeps_next (by simp [writeTlink_mem, h])
  | excommit => exact exec_excommit s _ ▸ excommit_keeps h _
  | flipreqAck => exact exec_flipreqAck s _ ▸ flipreqAck_keeps h _
  | flipreqToHost => exact exec_flipreqToHost s _ ▸ flipreqToHost_keeps h _
  | registerWrite => exact exec_registerWrite s _ _ ▸ keeps_next (by simp [h])
  | awlSlot => exact exec_awlSlot s ▸ awlSlot_keeps h
  | launchGraph => exact exec_launchGraph s _ _ ▸ packetRow_keeps h _ _ _ _ _
  | launchNode => exact exec_launchNode s _ _ ▸ packetRow_keeps h _ _ _ _ _
  | write => exact exec_write s _ _ ▸ packetRow_keeps h _ _ _ _ _
  | signal => exact exec_signal s _ _ ▸ packetRow_keeps h _ _ _ _ _
  | writeSignal => exact exec_writeSignal s _ _ ▸ packetRow_keeps h _ _ _ _ _
  | tokenGive => exact exec_tokenGive s _ _ ▸ packetRow_keeps h _ _ _ _ _
  | tokenWait => exact exec_tokenWait s _ _ ▸ packetRow_keeps h _ _ _ _ _
  | copy => exact exec_copy s _ _ ▸ packetRow_keeps h _ _ _ _ _
  | fencePacket => exact exec_fencePacket s _ _ ▸ packetRow_keeps h _ _ _ _ _
  | qreset => exact exec_qreset s _ _ ▸ packetRow_keeps h _ _ _ _ _
  | slice => exact exec_slice s _ _ ▸ packetRow_keeps h _ _ _ _ _
  | bindGang => exact exec_bindGang s _ _ ▸ packetRow_keeps h _ _ _ _ _
  | bindDissolve => exact exec_bindDissolve s _ _ ▸ packetRow_keeps h _ _ _ _ _
  | bindReserve => exact exec_bindReserve s _ _ ▸ packetRow_keeps h _ _ _ _ _
  | repairRebindHalf => exact exec_repairRebindHalf s _ _ ▸ packetRow_keeps h _ _ _ _ _
  | repairDramRow => exact exec_repairDramRow s _ _ ▸ packetRow_keeps h _ _ _ _ _
  | repairSpareLane => exact exec_repairSpareLane s _ _ ▸ packetRow_keeps h _ _ _ _ _
  | repairRetireCore => exact exec_repairRetireCore s _ _ ▸ packetRow_keeps h _ _ _ _ _
  | repairScan => exact exec_repairScan s _ _ ▸ packetRow_keeps h _ _ _ _ _
  | attestQuote => exact exec_attestQuote s _ _ ▸ packetRow_keeps h _ _ _ _ _
  | attestPatch => exact exec_attestPatch s _ _ ▸ packetRow_keeps h _ _ _ _ _
  | signatureDone => exact exec_signatureDone s ▸ signatureDone_keeps h
  | packetComplete => exact exec_packetComplete s _ _ ▸ packetComplete_keeps h _ _
  | qresetAcksDone => exact exec_qresetAcksDone s _ ▸ qresetAcksDone_keeps h _
  | asgenChangeDone => exact exec_asgenChangeDone s _ ▸ asgenChangeDone_keeps h _
  | flipDrainDone => exact exec_flipDrainDone s ▸ flipDrainDone_keeps h
  | enqOutboxAccept => exact exec_enqOutboxAccept s _ ▸ enqOutboxAccept_keeps h _
  | mailboxRecordWrite => exact exec_mailboxRecordWrite s ▸ mailboxRecordWrite_keeps h
  | entryRebuild => exact exec_entryRebuild s _ _ ▸ entryRebuild_keeps h _ _
  | sliceExpiry => exact exec_sliceExpiry s _ ▸ sliceExpiry_keeps h _
  | reserveSample => exact exec_reserveSample s ▸ reserveSample_keeps h
  | reserveDecision => exact exec_reserveDecision s ▸ reserveDecision_keeps h
  | reserveChangeDone => exact exec_reserveChangeDone s _ ▸ reserveChangeDone_keeps h _
  | preemptWaitExpiry => exact exec_preemptWaitExpiry s _ ▸ preemptWaitExpiry_keeps h _
  | distributorPlace => exact exec_distributorPlace s ▸ distributorPlace_keeps h
  | segmentCopyDone => exact exec_segmentCopyDone s _ ▸ segmentCopyDone_keeps h _
  | waitSatisfied => exact exec_waitSatisfied s _ ▸ waitRow_keeps h _ _ _
  | barRelease => exact exec_barRelease s _ ▸ waitRow_keeps h _ _ _
  | idleEnd => exact exec_idleEnd s _ ▸ waitRow_keeps h _ _ _
  | jcbRaiseAnswer => exact exec_jcbRaiseAnswer s _ ▸ jcbRaiseAnswer_keeps h _
  | censusClose => exact exec_censusClose s _ _ ▸ censusClose_keeps h _ _
  | matrixRunEnd => exact exec_matrixRunEnd s _ _ ▸ matrixRunEnd_keeps h _ _
  | copyComplete => exact exec_copyComplete s _ _ ▸ copyComplete_keeps h _ _
  | cpyqFire => exact exec_cpyqFire s _ _ _ ▸ cpyqFire_keeps h _ _ _
  | epiAddComplete => exact exec_epiAddComplete s _ ▸ epiAddComplete_keeps h _
  | sendtFire => exact exec_sendtFire s _ _ ▸ sendtFire_keeps h _ _
  | sendDelivery => exact exec_sendDelivery s _ ▸ sendDelivery_keeps h _
  | sendComplete => exact exec_sendComplete s _ _ _ ▸ sendComplete_keeps h _ _ _
  | collHop => exact exec_collHop s _ ▸ collHop_keeps h _
  | collDeliverApply => exact exec_collDeliverApply s _ ▸ collDeliverApply_keeps h _
  | abortFlit => exact exec_abortFlit s _ _ ▸ abortFlit_keeps h _ _
  | jcbHomeRaise => exact exec_jcbHomeRaise s _ ▸ jcbHomeRaise_keeps h _
  | jcbHomeCompletion => exact exec_jcbHomeCompletion s _ ▸ jcbHomeCompletion_keeps h _
  | jcbHomeNodeFailure => exact exec_jcbHomeNodeFailure s _ _ _ ▸ jcbHomeNodeFailure_keeps h _ _ _
  | nodeCommit => exact exec_nodeCommit s _ ▸ nodeCommit_keeps h _
  | trapEntry => exact exec_trapEntry s _ ▸ trapEntry_keeps h _
  | userInterruptEntry => exact exec_userInterruptEntry s _ ▸ userInterruptEntry_keeps h _
  | preemptQuiesce => exact exec_preemptQuiesce s _ _ ▸ preemptQuiesce_keeps h _ _
  | nodeSave => exact exec_nodeSave s _ ▸ nodeSave_keeps h _
  | errorConsumed => exact exec_errorConsumed s _ ▸ errorConsumed_keeps h _
  | powerGood => exact exec_powerGood s ▸ powerGood_keeps h
  | stackSelfTestPass => exact exec_stackSelfTestPass s _ ▸ stackSelfTestPass_keeps h _
  | bringupTimeout => exact exec_bringupTimeout s ▸ bringupTimeout_keeps h
  | probeReturn => exact exec_probeReturn s _ _ ▸ probeReturn_keeps h _ _
  | probeTimeout => exact exec_probeTimeout s _ ▸ probeTimeout_keeps h _
  | engineCheckFail => exact exec_engineCheckFail s _ _ ▸ engineCheckFail_keeps h _ _
  | rebindDone => exact exec_rebindDone s ▸ rebindDone_keeps h
  | bindDrainDone => exact exec_bindDrainDone s ▸ bindDrainDone_keeps h
  | dramSoftRepair => exact exec_dramSoftRepair s _ _ _ _ ▸ dramSoftRepair_keeps h _ _ _ _
  | laneRetrainDone => exact exec_laneRetrainDone s _ ▸ laneRetrainDone_keeps h _
  | laneFail => exact exec_laneFail s _ _ ▸ laneFail_keeps h _ _
  | powerSample => exact exec_powerSample s _ ▸ powerSample_keeps h _
  | clockStep => exact exec_clockStep s ▸ clockStep_keeps h
  | telemetryRefresh => exact exec_telemetryRefresh s ▸ telemetryRefresh_keeps h
  | stackSelfTestFail => exact exec_stackSelfTestFail s _ ▸ stackSelfTestFail_keeps h _
  | coreRetireDrainDone => exact exec_coreRetireDrainDone s _ ▸ coreRetireDrainDone_keeps h _

/-! ## Bundles -/

theorem runWords_keeps {s : State} (h : Memory.wf s.mem = true) (l k : List BWord) : Keeps (s.runWords l k) := by
  induction k generalizing s with
  | nil => exact keeps_next h
  | cons w k ih =>
    have hx := exec_keeps w.i (s := s.atWord l w) (by simp [h])
    unfold State.runWords
    split
    next t ht => exact keeps_ite (ih (hx t ht)) (keeps_next (hx t ht))
    · exact hx

theorem firstStopped_wf {s t : State} (h : Memory.wf s.mem = true) {l k : List BWord} (ht : s.firstStopped l k = some t) : Memory.wf t.mem = true := by
  induction k with
  | nil => cases ht
  | cons w k ih =>
    unfold State.firstStopped at ht
    split at ht
    next u hu =>
      split at ht
      · cases ht; exact exec_keeps w.i (s := s.atWord l w) (by simp [h]) _ hu
      · exact ih ht
    · exact ih ht

theorem switchOther_wf {s t : State} (h : Memory.wf s.mem = true) (ht : s.switchOther = some t) : Memory.wf t.mem = true := by
  obtain ⟨u, -, rfl⟩ := Option.map_eq_some_iff.mp ht
  exact switchTo_wf h _ _

@[simp] theorem finish_wf {s : State} (h : Memory.wf s.mem = true) (na : Nat) (old : Node) : Memory.wf (s.finish na old).mem = true := by
  unfold State.finish
  extract_lets uid posts s1 ended s2 s3
  have h1 : Memory.wf s1.mem = true := by simp [s1, h]
  have h2 : Memory.wf s2.mem = true := ite_wf (by simp [h1]) (by simp [h1])
  have h3 : Memory.wf s3.mem = true := mergedAfter_wf h2 _ _ _
  refine ite_wf (by simp [h3]) (ite_wf ?_ h3)
  cases ho : s3.switchOther with
  | none => exact h3
  | some t => exact switchOther_wf h3 ho

/-- How a bundle ends keeps memory canonical. -/
def KeepsEnd : BundleEnd → Prop
  | .held => True
  | .stopped t => Memory.wf t.mem = true
  | .ran t => Memory.wf t.mem = true
  | .other o => Keeps o

theorem tryBundle_keeps {s : State} (h : Memory.wf s.mem = true) (l : List BWord) (na : Nat) : KeepsEnd (s.tryBundle l na) := by
  have hb : Memory.wf (s.enterBundle na).mem = true := by simp [h]
  have hr := runWords_keeps (s := (s.enterBundle na).fireArmed s.cur.desc.uid) (by simp [h]) l (issueOrder l)
  unfold State.tryBundle
  dsimp only
  split
  next t ht => exact (congrArg Memory.wf (State.clearBnd_mem _)).trans (firstStopped_wf hb ht)
  · split
    next t ht =>
      have hw := hr t ht
      split
      · exact (congrArg Memory.wf (State.clearBnd_mem _)).trans hw
      · trivial
      · split
        · trivial
        · exact (congrArg Memory.wf (State.clearBnd_mem _)).trans (finish_wf hw _ _)
    · exact hr

/-- An outcome that may be none keeps memory canonical. -/
def KeepsSome (o : Option Result) : Prop := ∀ r, o = some r → Keeps r

theorem keepsSome_none : KeepsSome none := fun _ h => by cases h

theorem keepsSome_some {r : Result} (h : Keeps r) : KeepsSome (some r) := fun _ hr => by cases hr; exact h

theorem keepsSome_next {t : State} (h : Memory.wf t.mem = true) : KeepsSome (some (.next t)) := keepsSome_some (keeps_next h)

theorem keepsSome_ite {c : Prop} [Decidable c] {a b : Option Result} (ha : KeepsSome a) (hb : KeepsSome b) : KeepsSome (if c then a else b) := by
  split
  · exact ha
  · exact hb

theorem orInterrupt_keeps {s : State} (h : Memory.wf s.mem = true) : KeepsSome s.orInterrupt :=
  keepsSome_ite (keepsSome_next (by simp [h])) keepsSome_none

theorem issueBundle_keeps {s : State} (h : Memory.wf s.mem = true) (l : List BWord) (na : Nat) : KeepsSome (s.issueBundle l na) := by
  have ht := tryBundle_keeps h l na
  unfold State.issueBundle
  cases he : s.tryBundle l na with
  | held => exact orInterrupt_keeps h
  | stopped t => rw [he] at ht; exact keepsSome_next ht
  | ran t => rw [he] at ht; exact keepsSome_ite (orInterrupt_keeps h) (keepsSome_next ((congrArg Memory.wf (noteShared_mem _ _ _)).trans ht))
  | other o => rw [he] at ht; exact keepsSome_some ht

theorem issueBoth_keeps {s : State} (h : Memory.wf s.mem = true) (l : List BWord) (na c : Nat) (l' : List BWord) (na' : Nat) :
    KeepsSome (s.issueBoth l na c l' na') := by
  have ht : Memory.wf (s.turnTo s.focus c).mem = true := by simp [h]
  have hi : KeepsSome (if (s.turnTo s.focus c).cur.userDue then some (Host.Outcome.next ((s.turnTo s.focus c).enterUser.clearBnd.markRedo c)) else none) :=
    keepsSome_ite (keepsSome_next (by simp [h])) keepsSome_none
  have hp := tryBundle_keeps h l na
  have hc := tryBundle_keeps ht l' na'
  unfold State.issueBoth
  dsimp only
  cases he : s.tryBundle l na with
  | held => exact orInterrupt_keeps h
  | stopped t => rw [he] at hp; exact keepsSome_next hp
  | other o => rw [he] at hp; exact keepsSome_some hp
  | ran p =>
    rw [he] at hp
    refine keepsSome_ite (orInterrupt_keeps h) ?_
    cases hy : (s.turnTo s.focus c).tryBundle l' na' with
    | held => exact hi
    | stopped x => rw [hy] at hc; exact keepsSome_next ((congrArg Memory.wf (markRedo_mem _ _)).trans hc)
    | other o => rw [hy] at hc; exact keepsSome_some hc
    | ran y =>
      refine keepsSome_ite hi ?_
      have hq := tryBundle_keeps (s := p.turnTo s.focus c) ((congrArg Memory.wf (turnTo_mem _ _ _)).trans hp) l' na'
      cases hz : (p.turnTo s.focus c).tryBundle l' na' with
      | held => exact keepsSome_next ((congrArg Memory.wf (noteShared_mem _ _ _)).trans hp)
      | stopped x => rw [hz] at hq; exact keepsSome_next ((congrArg Memory.wf (noteShared_mem _ _ _)).trans hq)
      | ran x => rw [hz] at hq; exact keepsSome_next ((congrArg Memory.wf (noteShared_mem _ _ _)).trans hq)
      | other o => rw [hz] at hq; exact keepsSome_some hq

theorem awaitSegment_keeps {s : State} (h : Memory.wf s.mem = true) (seg : Nat) : KeepsSome (s.awaitSegment seg) := by
  unfold State.awaitSegment
  dsimp only
  split
  · refine keepsSome_next (ite_wf (by simp [h]) ?_)
    split
    next ht => exact (congrArg Memory.wf (ensureCode_mem ht)).trans h
    · simp [h]
  · exact keepsSome_ite keepsSome_none (keepsSome_next (by simp [h]))

theorem takeBoundary_keeps {s : State} (h : Memory.wf s.mem = true) (b : Boundary) : KeepsSome ((s.takeBoundary b).map fun t => .next t.clearBnd) := by
  intro r hr
  obtain ⟨t, ht, rfl⟩ := Option.map_eq_some_iff.mp hr
  exact keeps_next ((congrArg Memory.wf (State.clearBnd_mem _)).trans (takeBoundary_wf h ht))

theorem issueHere_keeps {s : State} (h : Memory.wf s.mem = true) : KeepsSome s.issueHere := by
  unfold State.issueHere
  split
  · exact takeBoundary_keeps h _
  · exact takeBoundary_keeps h _
  · exact awaitSegment_keeps h _
  · exact keepsSome_next (by simp [h])
  · exact orInterrupt_keeps h
  · refine keepsSome_ite (keepsSome_next (by simp [h])) ?_
    split
    · exact issueBoth_keeps h _ _ _ _ _
    · exact issueBundle_keeps h _ _

theorem issueWaiting_keeps {s : State} (h : Memory.wf s.mem = true) : KeepsSome s.issueWaiting := by
  unfold State.issueWaiting
  split
  next ht => exact keepsSome_next ((congrArg Memory.wf (State.clearBnd_mem _)).trans (dueNow_wf h ht))
  · refine keepsSome_ite (keepsSome_next (by simp [h])) (keepsSome_ite (orInterrupt_keeps h) (keepsSome_ite ?_ keepsSome_none))
    intro r hr
    obtain ⟨t, ht, rfl⟩ := Option.map_eq_some_iff.mp hr
    exact keeps_next (switchOther_wf h ht)

theorem issue_keeps {s : State} (h : Memory.wf s.mem = true) : KeepsSome s.issue := by
  unfold State.issue
  dsimp only
  split
  · exact keepsSome_next (ite_wf (by simp [h]) (by simp [h]))
  · exact keepsSome_ite (keepsSome_ite (keepsSome_next (by simp [h])) keepsSome_none)
      (keepsSome_ite (keepsSome_next (by simp [h])) (keepsSome_ite keepsSome_none (keepsSome_ite (issueHere_keeps h) (issueWaiting_keeps h))))

theorem issueLate_keeps {s : State} (h : Memory.wf s.mem = true) : KeepsSome s.issueLate := by
  unfold State.issueLate
  split
  · refine keepsSome_ite (issue_keeps ?_) (issue_keeps h)
    exact h
  · exact issue_keeps h

/-! ## Events that the module takes by itself, and the step -/

/-- An event keeps memory canonical in every state. -/
def EventKeeps (e : State → Result) : Prop := ∀ s, Memory.wf s.mem = true → Keeps (e s)

theorem firstEvent_wf {s : State} (h : Memory.wf s.mem = true) {l : List (State → Result)} (hl : ∀ e ∈ l, EventKeeps e) : Memory.wf (s.firstEvent l).mem = true := by
  induction l with
  | nil => exact h
  | cons e l ih =>
    unfold State.firstEvent
    split
    next t ht => exact (congrArg Memory.wf (State.clearBnd_mem _)).trans (hl e List.mem_cons_self s h t ht)
    · exact ih fun x hx => hl x (List.mem_cons_of_mem _ hx)

theorem nodeEvents_keep (n : Node) : ∀ e ∈ nodeEvents n, EventKeeps e := by
  intro e he
  simp only [nodeEvents, List.mem_append, List.mem_map, List.mem_cons, List.not_mem_nil, or_false] at he
  intro s h
  rcases he with ((((((((⟨c, -, rfl⟩ | rfl | rfl | rfl | rfl) | ⟨i, -, rfl⟩) | ⟨i, -, rfl⟩) | rfl) | ⟨i, -, rfl⟩) | ⟨a, -, rfl⟩) | ⟨k, -, rfl⟩) |
    rfl | rfl | rfl | rfl | rfl | rfl)
  · exact keeps_ite (keeps_next (by simp [h])) (keeps_fault _)
  · exact jcbHomeRaise_keeps h _
  · exact jcbRaiseAnswer_keeps h _
  · exact copyComplete_keeps h _ _
  · exact copyComplete_keeps h _ _
  · exact cpyqFire_keeps h _ _ _
  · exact cpyqFire_keeps h _ _ _
  · exact epiAddComplete_keeps h _
  · exact sendtFire_keeps h _ _
  · exact matrixRunEnd_keeps h _ _
  · exact censusClose_keeps h _ _
  · exact waitRow_keeps h _ _ _
  · exact waitRow_keeps h _ _ _
  · exact waitRow_keeps h _ _ _
  · exact preemptQuiesce_keeps h _ _
  · exact nodeSave_keeps h _
  · exact nodeCommit_keeps h _

theorem ownEvents_keep (s : State) : ∀ e ∈ s.ownEvents, EventKeeps e := by
  intro e he
  simp only [State.ownEvents, List.mem_append, List.mem_map, List.mem_flatMap, List.mem_cons, List.not_mem_nil, or_false] at he
  rcases he with ((((((⟨i, -, rfl⟩ | ⟨n, -, hn⟩) | ⟨c, -, rfl | rfl⟩) | ⟨p, -, rfl⟩) | ⟨q, -, a, -, rfl⟩) | ⟨a, -, rfl⟩) | ⟨j, -, rfl⟩) |
    rfl | rfl | rfl | rfl | rfl | rfl <;> intro t h
  · exact keeps_next (by simp [h])
  · exact nodeEvents_keep n e hn t h
  · exact segmentCopyDone_keeps h _
  · exact enqOutboxAccept_keeps h _
  · rcases p.fail with _ | ⟨i, st⟩
    · exact jcbHomeCompletion_keeps h _
    · exact jcbHomeNodeFailure_keeps h _ _ _
  · exact packetComplete_keeps h _ _
  · exact asgenChangeDone_keeps h _
  · exact coreRetireDrainDone_keeps h _
  · exact flipDrainDone_keeps h
  · exact mailboxRecordWrite_keeps h
  · exact bindDrainDone_keeps h
  · exact rebindDone_keeps h
  · exact distributorPlace_keeps h
  · exact awlSlot_keeps h

theorem settled_keeps {r : Result} (h : Keeps r) : Keeps (settled r) := by
  cases r with
  | next t => exact keeps_next (h t rfl)
  | _ => exact fun _ hu => by cases hu

theorem step_keeps {s : State} (h : Memory.wf s.mem = true) : Keeps (step s) := by
  have ha : ∀ l, Memory.wf ({ s with agenda := l } : State).mem = true := fun _ => h
  unfold step
  refine settled_keeps ?_
  split
  next i rest _ =>
    have hx := exec_keeps i (ha rest)
    split
    next t ht => exact keeps_next ((congrArg Memory.wf (State.clearBnd_mem _)).trans (hx t ht))
    · exact hx
  next rest _ => exact keeps_next ((congrArg Memory.wf (State.clearBnd_mem _)).trans (moveEngine_wf (ha rest) _ _ _ _))
  next rest _ => exact keeps_next ((congrArg Memory.wf (lookAhead_mem _ _ _ _ _)).trans (ha rest))
  next rest _ => exact keeps_next (performAt_wf (ha rest) _)
  next rest _ => exact keeps_next ((congrArg Memory.wf (cancelNow_mem _ _ _)).trans (ha rest))
  next rest _ => exact keeps_next ((congrArg Memory.wf (spoil_mem _ _ _)).trans (ha rest))
  next rest _ => exact keeps_next ((congrArg Memory.wf (State.creditPort_mem _ _ _ _)).trans (ha rest))
  next idx rest _ =>
    have hf : Memory.wf (({ s with agenda := rest } : State).focusOn idx).mem = true := (congrArg Memory.wf (focusOn_mem _ _)).trans (ha rest)
    dsimp only
    split
    next o ho => exact issue_keeps hf o ho
    · exact keeps_next hf
  next idx rest _ =>
    have hf : Memory.wf (({ s with agenda := rest } : State).focusOn idx).mem = true := (congrArg Memory.wf (focusOn_mem _ _)).trans (ha rest)
    dsimp only
    split
    next u hu => exact keeps_next ((congrArg Memory.wf (State.clearBnd_mem _)).trans (issueLate_keeps hf _ hu u rfl))
    next o _ ho => exact issueLate_keeps hf o ho
    · exact keeps_next hf
  · split
    next o ho => exact issue_keeps h o ho
    · exact keeps_next (firstEvent_wf h (ownEvents_keep s))

/-- Settles O7: every function that writes a byte keeps memory canonical, and so does every instruction, and the step. -/
theorem everyStepKeepsMemoryCanonical : Obligations.EveryStepKeepsMemoryCanonical := by
  unfold Obligations.EveryStepKeepsMemoryCanonical
  intro s t h ht
  exact step_keeps h t ht

end Sys2Proof.Proofs
end

