-- ==== Sys2Proof/Proofs/LinkEvents.lean ====
section
namespace Sys2Proof.Proofs
open Sys2Proof Sys2Proof.Machine

-- One theorem after another: side by side they need more memory than one run may take.
set_option Elab.async false

/-! # Events of the links (R286, R288, R292, R329, R330, R335 to R342) -/

/-! ## Sends that have fired, and deliveries -/

theorem erase_eq_eraseIdx {α : Type} [DecidableEq α] {l : List α} {i : Nat} {a : α} (ha : l[i]? = some a) (h : ∀ b ∈ l.take i, b ≠ a) : l.erase a = l.eraseIdx i := by
  induction l generalizing i with
  | nil => cases ha
  | cons b l ih =>
    cases i with
    | zero => cases ha; simp
    | succ i =>
      have hb : b ≠ a := h b (by simp)
      rw [List.erase_cons_tail (by simpa using hb), List.eraseIdx_cons_succ, ih (by simpa using ha) fun x hx => h x (by simp [hx])]

theorem find_of_first {α : Type} {l : List α} {p : α → Bool} {i : Nat} {a : α} (ha : l[i]? = some a) (hp : p a = true) (h : ∀ b ∈ l.take i, p b = false) :
    l.find? p = some a := by
  obtain ⟨hi, rfl⟩ := List.getElem?_eq_some_iff.mp ha
  refine List.find?_eq_some_iff_getElem.mpr ⟨hp, i, hi, rfl, fun j hj => ?_⟩
  have := h l[j] (List.mem_take_iff_getElem.mpr ⟨j, by omega, rfl⟩)
  simpa using this

/-- The first armed send that has fired joins the queue (R333). -/
theorem joinSends_one {e : Eng} {i : Nat} {c : SendCmd} (hc : e.armed[i]? = some c) (hf : c.fired = true) (hb : ∀ b ∈ e.armed.take i, b.fired = false)
    (hl : e.sends.length < 16) : e.joinSends 1 = { e with armed := e.armed.eraseIdx i, sends := e.sends ++ [c] } := by
  have hfind : e.armed.find? (·.fired) = some c := find_of_first hc hf hb
  have herase : e.armed.erase c = e.armed.eraseIdx i := erase_eq_eraseIdx hc fun b h heq => by
    rw [heq] at h
    exact absurd ((hb c h).symm.trans hf) (by decide)
  rw [Eng.joinSends]
  simp only [hfind]
  rw [if_neg (by omega), herase, Eng.joinSends]

theorem sendtFire_spec (s : State) (uid i : Nat) :
    let n := s.node uid
    let fires := fun (c : SendCmd) => n.live = true ∧ c.fired = true ∧ (∀ b ∈ n.eng.armed.take i, b.fired = false) ∧ n.eng.sends.length < 16
    (∀ c, n.eng.armed[i]? = some c → fires c → exec (.sendtFire uid i) s =
      .next (s.setNode { n with eng := { n.eng with armed := n.eng.armed.eraseIdx i, sends := n.eng.sends ++ [c] } })) ∧
    ((∀ c, n.eng.armed[i]? = some c → ¬ fires c) → exec (.sendtFire uid i) s = .fault (.notEnabled "SENDT_FIRE")) := by
  intro n fires
  rw [exec_sendtFire]
  constructor
  · intro c hc ⟨hl, hf, hb, hr⟩
    have hb' : (n.eng.armed.take i).any (·.fired) = false := by simpa using hb
    unfold execSendtFire
    simp only [show (s.node uid).eng.armed[i]? = some c from hc]
    rw [if_neg (by rw [show (s.node uid).live = true from hl, hf, show ((s.node uid).eng.armed.take i).any (·.fired) = false from hb']; simpa using hr), joinSends_one hc hf hb hr]
  · intro h
    unfold execSendtFire
    dsimp only
    cases hc : (s.node uid).eng.armed[i]? with
    | none => rfl
    | some c =>
      have hn := h c hc
      simp only [fires] at hn
      refine if_pos ?_
      by_contra hcon
      simp only [Bool.or_eq_true, Bool.not_eq_true', decide_eq_true_eq, not_or, Bool.not_eq_false, Bool.not_eq_true, List.any_eq_false, not_le] at hcon
      exact hn ⟨hcon.1.1.1, hcon.1.1.2, by simpa using hcon.1.2, hcon.2⟩

/-- Something in a list comes before a delivery, or the delivery itself must wait. -/
theorem behind_iff (s : State) (l : List Delivery) (d : Delivery) :
    (l.any (fun q => s.standsBefore q d) || s.mustWait d) = true ↔ (∃ q ∈ l, s.standsBefore q d = true) ∨ s.mustWait d = true := by
  rw [Bool.or_eq_true, List.any_eq_true]

theorem standsBefore_iff (s : State) (q d : Delivery) :
    s.standsBefore q d = true ↔
      ((q.core = d.core ∧ q.space = d.space) ∨ (q.x = d.x ∧ q.y = d.y ∧ q.z = d.z ∧ q.serial = d.serial ∧ q.epi = d.epi)) ∧
        ¬ (s.mustWait q = true ∧ s.fillsGap d = true) := by
  simp only [State.standsBefore, sameReceiver, sameEngine, Bool.and_eq_true, Bool.or_eq_true, beq_iff_eq, Bool.not_eq_true', ← Bool.not_eq_true, and_assoc]

/-- A delivery that waits at the link stop. -/
theorem sendDelivery_pending {s : State} {d : Delivery} (hd : d ∈ s.link.pending) :
    let behind := (∃ q ∈ s.link.pending.takeWhile (· != d), s.standsBefore q d = true) ∨ s.mustWait d = true
    (¬ behind → ∀ u, s.receiver d = some u →
      exec (.sendDelivery d) s = .next (({ s with link := { s.link with pending := s.link.pending.erase d } } : State).acceptSend u d)) ∧
    (behind ∨ s.receiver d = none → exec (.sendDelivery d) s = .fault (.notEnabled "SEND_DELIVERY")) := by
  intro behind
  have hb := behind_iff s (s.link.pending.takeWhile (· != d)) d
  rw [exec_sendDelivery]
  unfold execSendDelivery
  rw [if_pos (List.contains_iff_mem.mpr hd)]
  refine ⟨fun hn u hu => ?_, fun h => ?_⟩
  · rw [if_neg fun h => hn (hb.mp h)]
    simp only [hu]
  · by_cases hn : behind
    · exact if_pos (hb.mpr hn)
    · rw [if_neg fun h => hn (hb.mp h)]
      simp only [h.resolve_left hn]

/-- A delivery that is held for a gap of its stream. -/
theorem sendDelivery_gap {s : State} {d : Delivery} (hp : d ∉ s.link.pending) (hg : d ∈ s.link.gaps) :
    let behind := (∀ u, s.receiver d = some u → (s.node u).eng.gapBefore d = true) ∨ s.link.heldBefore d = true ∨ s.mustWait d = true
    (∀ u, s.receiver d = some u → ¬ behind →
      exec (.sendDelivery d) s = .next (({ s with link := { s.link with gaps := s.link.gaps.erase d } } : State).acceptSend u d)) ∧
    (s.receiver d = none ∨ behind → exec (.sendDelivery d) s = .fault (.notEnabled "SEND_DELIVERY")) := by
  intro behind
  rw [exec_sendDelivery]
  unfold execSendDelivery
  rw [if_neg fun h => hp (List.contains_iff_mem.mp h), if_pos (List.contains_iff_mem.mpr hg)]
  cases hr : s.receiver d with
  | none => exact ⟨fun u hu => (Option.some_ne_none u hu.symm).elim, fun _ => rfl⟩
  | some v =>
    have hiff : ((s.node v).eng.gapBefore d || s.link.heldBefore d || s.mustWait d) = true ↔ behind := by
      simp [behind, hr, or_assoc]
    refine ⟨fun u hu hn => ?_, fun h => ?_⟩
    · cases hu
      exact if_neg fun h => hn (hiff.mp h)
    · exact if_pos (hiff.mpr (h.resolve_left (Option.some_ne_none v)))

/-- A delivery that comes from another module goes on by dimension order, or arrives. -/
theorem sendDelivery_transit {s : State} {d : Delivery} (hp : d ∉ s.link.pending) (hg : d ∉ s.link.gaps) (hd : d.fromUid = none) :
    let port := fun (x y z : BitVec 5) => s.link.portTo x y z d.odd
    (∀ x y z, d.dest = some (x, y, z) → port x y z ≠ 12 → exec (.sendDelivery d) s = .next (s.sendOut [(port x y z, .send d)])) ∧
    (d.dest = none ∨ (∃ x y z, d.dest = some (x, y, z) ∧ port x y z = 12) → exec (.sendDelivery d) s = .next (s.arrive d)) := by
  intro port
  have hx : exec (.sendDelivery d) s = .next (match s.onward d with
      | some p => s.sendOut [(p, .send d)]
      | none => s.arrive d) := by
    rw [exec_sendDelivery]
    unfold execSendDelivery
    rw [if_neg fun h => hp (List.contains_iff_mem.mp h), if_neg fun h => hg (List.contains_iff_mem.mp h)]
    simp only [hd] <;> rfl
  refine ⟨fun x y z h hn => ?_, fun h => ?_⟩
  · have ho : s.onward d = some (port x y z) := by simp only [State.onward, h, Option.bind_some]; exact if_neg hn
    rw [hx, ho]
  · have ho : s.onward d = none := by
      rcases h with h | ⟨x, y, z, h, hn⟩
      · simp only [State.onward, h, Option.bind_none]
      · simp only [State.onward, h, Option.bind_some]; exact if_pos hn
    rw [hx, ho]

theorem arrive_waits {s : State} {d : Delivery} (h : (∃ q ∈ s.link.pending, s.standsBefore q d = true) ∨ s.mustWait d = true ∨ s.receiver d = none) :
    s.arrive d = { s with link := { s.link with pending := s.link.pending ++ [d] } } := by
  have hb := behind_iff s s.link.pending d
  by_cases hn : (∃ q ∈ s.link.pending, s.standsBefore q d = true) ∨ s.mustWait d = true
  · exact if_pos (hb.mpr hn)
  · have hr : s.receiver d = none := (or_assoc.mpr h).resolve_left hn
    refine (if_neg fun h => hn (hb.mp h)).trans ?_
    simp only [hr]

theorem arrive_accepted {s : State} {d : Delivery} {u : Nat} (hq : ∀ q ∈ s.link.pending, s.standsBefore q d = false) (hm : s.mustWait d = false)
    (hr : s.receiver d = some u) : s.arrive d = s.acceptSend u d := by
  refine (if_neg fun h => ?_).trans (by simp only [hr])
  rcases (behind_iff s s.link.pending d).mp h with ⟨q, hmem, hs⟩ | hw
  · exact absurd ((hq q hmem).symm.trans hs) (by decide)
  · exact absurd (hm.symm.trans hw) (by decide)

/-- A send that leaves its node, or cannot. -/
theorem sendDelivery_leaves {s : State} {d : Delivery} {v k : Nat} {c : SendCmd} (hp : d ∉ s.link.pending) (hg : d ∉ s.link.gaps) (hd : d.fromUid = some v)
    (hk : (s.node v).eng.outSends.findIdx? (fun c => !c.sent && c.route == d.route && routeSeq c.er == d.seq) = some k)
    (hc : (s.node v).eng.outSends[k]? = some c) :
    let leaves := (s.node v).live = true ∧ (s.node v).eng.mayTransmit k = true ∧ s.fabricTakes (s.node v) k c = true
    (leaves → ∀ f, s.transmit (s.node v) c = .error f → exec (.sendDelivery d) s = .next (s.memFault v f)) ∧
    (leaves → ∀ t, s.transmit (s.node v) c = .ok (d, t) → exec (.sendDelivery d) s = .next (t.leave v k c d)) ∧
    (leaves → ∀ e t, s.transmit (s.node v) c = .ok (e, t) → e ≠ d → exec (.sendDelivery d) s = .fault (.notEnabled "SEND_DELIVERY")) ∧
    (¬ leaves → exec (.sendDelivery d) s = .fault (.notEnabled "SEND_DELIVERY")) := by
  intro leaves
  have hx : exec (.sendDelivery d) s = if leaves then (match s.transmit (s.node v) c with
      | .error f => .next (s.memFault v f)
      | .ok (d', t) => if d' = d then .next (t.leave v k c d) else .fault (.notEnabled "SEND_DELIVERY")) else .fault (.notEnabled "SEND_DELIVERY") := by
    rw [exec_sendDelivery]
    unfold execSendDelivery
    rw [if_neg fun h => hp (List.contains_iff_mem.mp h), if_neg fun h => hg (List.contains_iff_mem.mp h)]
    simp only [hd, hk, hc]
    by_cases hl : leaves
    · obtain ⟨h1, h2, h3⟩ := hl
      rw [if_pos (show leaves from ⟨h1, h2, h3⟩), if_neg (by simp [h1, h2, h3])] <;> rfl
    · rw [if_neg hl, if_pos]
      by_contra hcon
      exact hl (by simpa [leaves, and_assoc] using hcon)
  refine ⟨fun hl f hf => ?_, fun hl t ht => ?_, fun hl e t ht hne => ?_, fun hl => hx.trans (if_neg hl)⟩
  · rw [hx, if_pos hl, hf]
  · rw [hx, if_pos hl, ht]
    exact if_pos rfl
  · rw [hx, if_pos hl, ht]
    exact if_neg hne

/-! ## Answers of sends -/

/-- The answer of a send that is at the module's own link stop. -/
def SendCmd.ackFlit (c : SendCmd) (uid : Nat) (ans : SendAnswer) (f : Nat × Flit) : Bool :=
  match f.2 with
  | .ack d a => d.fromUid == some uid && d.route == c.route && d.seq == routeSeq c.er && a == ans
  | _ => false

/-- The flit of a send. -/
def SendCmd.ownFlit (c : SendCmd) (uid : Nat) (f : Flit) : Bool :=
  match f with
  | .send d => d.fromUid == some uid && d.route == c.route && d.seq == routeSeq c.er
  | _ => false

theorem sendComplete_spec {s : State} {uid i : Nat} {ans : SendAnswer} {c : SendCmd} (hc : (s.node uid).eng.outSends[i]? = some c) :
    let own := s.link.portTo (routeX c.er) (routeY c.er) (routeZ c.er) false = 12
    let may := (s.node uid).live = true ∧ c.sent = true ∧ s.portsHold (SendCmd.ownFlit c uid) = false ∧ (own → ∃ f ∈ s.link.out, SendCmd.ackFlit c uid ans f = true)
    let came : State := if own then { s with link := { s.link with out := s.link.out.filter fun f => !SendCmd.ackFlit c uid ans f } } else s
    let t := came.mapNode uid fun m => { m with eng := m.eng.setSend i none }
    (may → ∀ k, ans = .fault k → exec (.sendComplete uid i ans) s = .next (t.mapNode uid fun m => m.setFault (if c.epi then 2 else 3))) ∧
    (may → ans = .ack → c.epi = true ∨ c.bad = true → exec (.sendComplete uid i ans) s = .next t) ∧
    (may → ans = .ack → c.epi = false → c.bad = false →
      let u := if ctlCv c.ctrl then t.addCounter uid (ctlCnt c.ctrl) (windowBytes c.extents (fmtWidth c.hD.fmt) 1) else t
      (ctlUi c.ctrl = false → exec (.sendComplete uid i ans) s = .next u) ∧
      (ctlUi c.ctrl = true → exec (.sendComplete uid i ans) s =
        .next (({ u with free := u.free + 1 } : State).mapNode uid fun m => m.addRecord (if Config.freeBool u.free then 1 else 0) (ctlCnt c.ctrl)))) ∧
    (¬ may → exec (.sendComplete uid i ans) s = .fault (.notEnabled "SEND_COMPLETE")) := by
  intro own may came t
  have hown : (s.link.portTo (routeX c.er) (routeY c.er) (routeZ c.er) false == 12) = true ↔ own := beq_iff_eq
  have hx : exec (.sendComplete uid i ans) s = if may then (match ans with
      | .fault _ => .next (t.mapNode uid fun m => m.setFault (if c.epi then 2 else 3))
      | .ack =>
        if c.epi || c.bad then .next t
        else
          let u := if ctlCv c.ctrl then t.addCounter uid (ctlCnt c.ctrl) (windowBytes c.extents (fmtWidth c.hD.fmt) 1) else t
          if !ctlUi c.ctrl then .next u
          else .next (({ u with free := u.free + 1 } : State).mapNode uid fun m => m.addRecord (if Config.freeBool u.free then 1 else 0) (ctlCnt c.ctrl)))
      else .fault (.notEnabled "SEND_COMPLETE") := by
    have hcond : (!(s.node uid).live || !c.sent || s.portsHold (SendCmd.ownFlit c uid) ||
        (s.link.portTo (routeX c.er) (routeY c.er) (routeZ c.er) false == 12) && !s.link.out.any (SendCmd.ackFlit c uid ans)) = true ↔ ¬ may := by
      simp only [may, ← hown]
      rw [← List.any_eq_true]
      cases (s.node uid).live <;> cases c.sent <;> simp [Decidable.imp_iff_not_or]
    rw [exec_sendComplete]
    unfold execSendComplete
    simp only [hc]
    by_cases hm : may
    · rw [if_pos hm]
      refine (if_neg fun h => hcond.mp h hm).trans ?_
      have hcame : (if (s.link.portTo (routeX c.er) (routeY c.er) (routeZ c.er) false == 12) = true then
          ({ s with link := { s.link with out := s.link.out.filter fun f => !SendCmd.ackFlit c uid ans f } } : State) else s) = came := if_congr hown rfl rfl
      have ht : (if (s.link.portTo (routeX c.er) (routeY c.er) (routeZ c.er) false == 12) = true then
          ({ s with link := { s.link with out := s.link.out.filter fun f => !SendCmd.ackFlit c uid ans f } } : State) else s).mapNode uid
          (fun m => { m with eng := m.eng.setSend i none }) = t := congrArg (fun u : State => u.mapNode uid fun m => { m with eng := m.eng.setSend i none }) hcame
      clear_value t
      cases ht
      cases ans <;> rfl
    · rw [if_neg hm]
      exact if_pos (hcond.mpr hm)
  refine ⟨fun hm k ha => ?_, fun hm ha hb => ?_, fun hm ha he hb => ⟨fun hu => ?_, fun hu => ?_⟩, fun hm => hx.trans (if_neg hm)⟩
  · rw [hx, if_pos hm, ha]
  · rw [hx, if_pos hm, ha]
    exact if_pos (by simpa using hb)
  · rw [hx, if_pos hm, ha]
    exact (if_neg (by simp [he, hb])).trans (if_pos (by simp [hu]))
  · rw [hx, if_pos hm, ha]
    exact (if_neg (by simp [he, hb])).trans (if_neg (by simp [hu]))

theorem sendComplete_none {s : State} {uid i : Nat} (ans : SendAnswer) (hc : (s.node uid).eng.outSends[i]? = none) :
    exec (.sendComplete uid i ans) s = .fault (.notEnabled "SEND_COMPLETE") := by
  rw [exec_sendComplete]
  unfold execSendComplete
  simp only [hc]

/-! ## Collectives -/

theorem collHop_spec (s : State) (p : CollPacket) :
    let took : State := { s with link := { s.link with waiting := s.link.waiting.erase p } }
    let bytes := fun (p : CollPacket) => ceilDiv (p.elems.length * p.width) 8
    let buffered := fun (l : List CollPacket) => ((l ++ (s.link.held.map fun h => h.pkt) ++ s.link.unpassed.map fun u => u.copy.pkt).map bytes).sum
    let needs := ∃ e rest, p.ops = e :: rest ∧
      ((opCode e = 1 ∧ ∀ c ∈ s.link.contribs, c.tag ≠ p.tag) ∨ (opCode e = 4 ∧ 2 ^ 24 < buffered (s.link.waiting.erase p) + 2 * bytes p))
    let room := buffered s.link.waiting + bytes p ≤ 2 ^ 24
    (p.tag ∈ s.link.aborted → exec (.collHop p) s = .next took) ∧
    (p.tag ∉ s.link.aborted → p ∈ s.link.waiting → needs → exec (.collHop p) s = .fault (.notEnabled "COLL_HOP")) ∧
    (p.tag ∉ s.link.aborted → p ∈ s.link.waiting → ¬ needs → exec (.collHop p) s = .next (took.hop p 8)) ∧
    (p.tag ∉ s.link.aborted → p ∉ s.link.waiting → opsLegal 8 p.ops p.width = true → room → exec (.collHop p) s = .next (s.hop { p with origin := false } 8)) ∧
    (p.tag ∉ s.link.aborted → p ∉ s.link.waiting → opsLegal 8 p.ops p.width = false ∨ ¬ room → exec (.collHop p) s = .fault (.notEnabled "COLL_HOP")) := by
  intro took bytes buffered needs room
  have hroom : ∀ n, (!took.link.roomFor n) = true ↔ 2 ^ 24 < buffered (s.link.waiting.erase p) + n := fun n => by
    rw [show took.link.roomFor n = decide (buffered (s.link.waiting.erase p) + n ≤ 2 ^ 24) from rfl]
    simp
  have hstuck : ∀ e, (opCode e == 1 && !s.link.contribs.any (fun c => c.tag == p.tag) || opCode e == 4 && !took.link.roomFor (2 * packetBytes p)) = true ↔
      (opCode e = 1 ∧ ∀ c ∈ s.link.contribs, c.tag ≠ p.tag) ∨ (opCode e = 4 ∧ 2 ^ 24 < buffered (s.link.waiting.erase p) + 2 * bytes p) := fun e => by
    rw [Bool.or_eq_true, Bool.and_eq_true, Bool.and_eq_true, hroom]
    simp [bytes, packetBytes, payloadBytes]
  have hclosed : (!opsLegal 8 p.ops p.width || !s.link.roomFor (packetBytes p)) = true ↔ opsLegal 8 p.ops p.width = false ∨ ¬ room := by
    rw [show s.link.roomFor (packetBytes p) = decide room from rfl]
    simp
  rw [exec_collHop]
  unfold execCollHop
  refine ⟨fun ha => if_pos (List.contains_iff_mem.mpr ha), fun ha hw hn => ?_, fun ha hw hn => ?_, fun ha hw hl hr => ?_, fun ha hw h => ?_⟩
  · obtain ⟨e, rest, hops, hn⟩ := hn
    rw [if_neg fun h => ha (List.contains_iff_mem.mp h), if_pos (List.contains_iff_mem.mpr hw)]
    simp only [hops]
    refine if_pos (hstuck e |>.mpr hn)
  · rw [if_neg fun h => ha (List.contains_iff_mem.mp h), if_pos (List.contains_iff_mem.mpr hw)]
    cases hops : p.ops with
    | nil => rfl
    | cons e rest => exact if_neg fun h => hn ⟨e, rest, hops, (hstuck e).mp h⟩
  · rw [if_neg fun h => ha (List.contains_iff_mem.mp h), if_neg fun h => hw (List.contains_iff_mem.mp h)]
    exact if_neg fun h => hclosed.mp h |>.elim (fun h => absurd (hl.symm.trans h) (by decide)) fun h => h hr
  · rw [if_neg fun h => ha (List.contains_iff_mem.mp h), if_neg fun h => hw (List.contains_iff_mem.mp h)]
    exact if_pos (hclosed.mpr h)

theorem collDeliverApply_none {s : State} {i : Nat} (h : s.link.held[i]? = none) : exec (.collDeliverApply i) s = .fault (.notEnabled "COLL_DELIVER_APPLY") := by
  rw [exec_collDeliverApply]
  unfold execCollDeliverApply
  simp only [h]

/-- The registration whose RECV takes a held delivery (R341). -/
def State.openRecv (s : State) (tag : CollTag) : Option (CollTag × Nat) :=
  s.link.registered.find? fun e => e.1 == tag && (s.node e.2).live && (s.node e.2).eng.colls.any fun c => c.tag == tag && c.recv && !c.recvDone

theorem collDeliverApply_unregistered {s : State} {i : Nat} {h : HeldDelivery} (hh : s.link.held[i]? = some h) (hr : State.openRecv s h.pkt.tag = none) :
    exec (.collDeliverApply i) s = .fault (.notEnabled "COLL_DELIVER_APPLY") := by
  rw [exec_collDeliverApply]
  unfold execCollDeliverApply
  unfold State.openRecv at hr
  simp only [hh, hr]

theorem collDeliverApply_spec {s : State} {i : Nat} {h : HeldDelivery} {v : Nat} {c : CollCmd} (hh : s.link.held[i]? = some h)
    (hr : State.openRecv s h.pkt.tag = some (h.pkt.tag, v)) (hc : (s.node v).eng.colls.find? (fun c => c.tag == h.pkt.tag) = some c) :
    let t : State := { s with link := { s.link with held := s.link.held.eraseIdx i } }
    let clash := ∃ x ∈ s.linkWrites (s.node v) c.ord ++ s.linkReads (s.node v) c.ord, placesMeet (s.recvLands (s.node v) c) x = true
    let flagged := fun (u : State) (code : Nat) => (u.linkFlag v code).mapColl v h.pkt.tag fun c => { c with recvDone := true, ui := false }
    let r := t.deliverElems v c.hD c.exts h.pkt.elems h.pkt.elems.zipIdx
    let poi := (h.pkt.elems.zipIdx.take (r.2.getD (prodN c.exts))).any fun e => e.1.poison && inside c.hD.exts (addOrg c.hD.orgs (unlin c.exts e.2))
    let u := r.1.mapNode v fun m => { m with regs := m.regs.flagK c.hD.kidx 22 poi }
    (clash → exec (.collDeliverApply i) s = .fault (.notEnabled "COLL_DELIVER_APPLY")) ∧
    (¬ clash → h.pkt.width ≠ fmtWidth c.hD.fmt → exec (.collDeliverApply i) s = .next (flagged t 0x23)) ∧
    (¬ clash → h.pkt.width = fmtWidth c.hD.fmt → t.peerOk v c.hD false = false → exec (.collDeliverApply i) s = .next (flagged t 0x20)) ∧
    (¬ clash → h.pkt.width = fmtWidth c.hD.fmt → t.peerOk v c.hD false = true → r.2 ≠ none → exec (.collDeliverApply i) s = .next (flagged u 0x20)) ∧
    (¬ clash → h.pkt.width = fmtWidth c.hD.fmt → t.peerOk v c.hD false = true → r.2 = none → exec (.collDeliverApply i) s =
      .next (((u.mapNode v fun m => { m with regs := m.regs.flagK c.hD.kidx 21 h.pkt.clamp }).addCounter v c.cnt
        (windowBytes c.exts h.pkt.width 1)).mapColl v h.pkt.tag fun c => { c with recvDone := true })) := by
  intro t clash flagged r poi u
  unfold State.openRecv at hr
  have hx : exec (.collDeliverApply i) s = if clash then .fault (.notEnabled "COLL_DELIVER_APPLY") else
      if h.pkt.width ≠ fmtWidth c.hD.fmt then .next (flagged t 0x23) else if !t.peerOk v c.hD false then .next (flagged t 0x20) else
      if r.2.isSome then .next (flagged u 0x20) else .next (((u.mapNode v fun m => { m with regs := m.regs.flagK c.hD.kidx 21 h.pkt.clamp }).addCounter v c.cnt
        (windowBytes c.exts h.pkt.width 1)).mapColl v h.pkt.tag fun c => { c with recvDone := true }) := by
    rw [exec_collDeliverApply]
    unfold execCollDeliverApply
    simp only [hh, hr, hc]
    exact if_congr List.any_eq_true rfl rfl
  refine ⟨fun hc => hx.trans (if_pos hc), fun hc hw => hx.trans ((if_neg hc).trans (if_pos hw)), fun hc hw hp => ?_, fun hc hw hp hn => ?_, fun hc hw hp hn => ?_⟩
  all_goals refine hx.trans ((if_neg hc).trans ((if_neg (not_not_intro hw)).trans ?_))
  · exact if_pos (by rw [hp]; rfl)
  · exact (if_neg (by rw [hp]; decide)).trans (if_pos (Option.isSome_iff_ne_none.mpr hn))
  · exact (if_neg (by rw [hp]; decide)).trans (if_neg (by rw [hn]; decide))

theorem abortFlit_spec (s : State) (tag : CollTag) (port : BitVec 4) :
    (tag ∈ s.link.aborted → exec (.abortFlit tag port) s = .next s) ∧
    (tag ∉ s.link.aborted → exec (.abortFlit tag port) s =
      .next ((s.applyAbort tag).sendOut (((List.range 12).filter fun p => p != port.toNat).map fun p => (p, Flit.abort tag)))) :=
  ⟨fun h => if_pos (List.contains_iff_mem.mpr h), fun h => if_neg fun hc => h (List.contains_iff_mem.mp hc)⟩

/-- Settles O57. -/
theorem linkEvents : Obligations.LinkEvents := by
  unfold Obligations.LinkEvents
  intro s uid i d p tag port ans
  exact ⟨sendtFire_spec s uid i, ⟨fun hd => (sendDelivery_pending hd).1, fun hd => (sendDelivery_pending hd).2⟩, fun q => standsBefore_iff s q d,
    fun hp hg => sendDelivery_gap hp hg, fun hp hg hd => sendDelivery_transit hp hg hd, arrive_waits, fun u => arrive_accepted,
    fun v hp hg hd k c hk hc => sendDelivery_leaves hp hg hd hk hc, fun c hc => sendComplete_spec hc, sendComplete_none ans, collHop_spec s p, collDeliverApply_none,
    fun h hh => ⟨collDeliverApply_unregistered hh, fun v c hr hc => collDeliverApply_spec hh hr hc⟩, abortFlit_spec s tag port⟩

end Sys2Proof.Proofs
end

