-- ==== Sys2Proof/Proofs/NodesAndCores.lean ====
section
namespace Sys2Proof.Proofs
open Sys2Proof Sys2Proof.Machine

-- One theorem after another: side by side they need more memory than one run may take.
set_option Elab.async false

/-! # Nodes and cores by their numbers: what an update leaves (R91, R97, R360) -/

/-! ## Nodes -/

theorem node_congr {s t : State} (hc : t.cur = s.cur) (hn : t.nodes = s.nodes) (v : Nat) : t.node v = s.node v := by
  unfold State.node
  rw [hc, hn]

theorem node_of_cur {s : State} {v : Nat} (h : v = s.cur.desc.uid) : s.node v = s.cur := if_pos h
theorem node_of_list {s : State} {v : Nat} (h : v ≠ s.cur.desc.uid) : s.node v = (s.nodes.find? (fun n => n.desc.uid == v)).getD Node.none := if_neg h

theorem find_nodesPut_same (l : List Node) (n : Node) : (nodesPut l n).find? (fun m => m.desc.uid == n.desc.uid) = some n := by
  induction l with
  | nil => simp [nodesPut]
  | cons d rest ih =>
    unfold nodesPut
    split_ifs with h1 h2
    · simp
    · simp
    · rw [List.find?_cons_of_neg (by simpa using Ne.symm h2), ih]

theorem find_nodesPut_other (l : List Node) (n : Node) {v : Nat} (h : v ≠ n.desc.uid) :
    (nodesPut l n).find? (fun m => m.desc.uid == v) = l.find? (fun m => m.desc.uid == v) := by
  have away : (n.desc.uid == v) = false := by simpa using Ne.symm h
  induction l with
  | nil => simp [nodesPut, away]
  | cons d rest ih =>
    unfold nodesPut
    split_ifs with h1 h2
    · simp only [List.find?_cons (a := n), away]
    · simp only [List.find?_cons, ← h2, away]
    · simp only [List.find?_cons, ih]

theorem setNode_node_same (s : State) {n : Node} {v : Nat} (hv : n.desc.uid = v) (h : v ≠ 0) : (s.setNode n).node v = n := by
  subst hv
  unfold State.setNode
  split_ifs with hc
  · exact if_pos rfl
  · exact (node_of_list (s := { s with nodes := nodesPut s.nodes n }) hc).trans (by rw [find_nodesPut_same, Option.getD_some])

theorem setNode_node_other (s : State) (n : Node) {v : Nat} (h : v ≠ n.desc.uid) : (s.setNode n).node v = s.node v := by
  unfold State.setNode
  split_ifs with hc h0
  · rw [node_of_list (h : v ≠ ({ s with cur := n } : State).cur.desc.uid), node_of_list (hc ▸ h : v ≠ s.cur.desc.uid)]
  · rfl
  · unfold State.node
    split_ifs
    · rfl
    · rw [find_nodesPut_other _ _ h]

theorem mapNode_node_same (s : State) {v : Nat} (f : Node → Node) (hf : (f (s.node v)).desc.uid = v) (h : v ≠ 0) : (s.mapNode v f).node v = f (s.node v) :=
  setNode_node_same s hf h

theorem mapNode_node_other (s : State) {u v : Nat} (f : Node → Node) (hf : (f (s.node u)).desc.uid = u) (h : v ≠ u) : (s.mapNode u f).node v = s.node v :=
  setNode_node_other s _ (hf.symm ▸ h)

/-! ## Cores -/

theorem core_congr {s t : State} (h : t.cores = s.cores) (k : Nat) : t.core k = s.core k := by
  unfold State.core
  rw [h]

theorem coreOf_congr {s t : State} (h : t.cores = s.cores) (u : Nat) : t.coreOf u = s.coreOf u := by
  unfold State.coreOf
  rw [h]

theorem find_idx_pos {x : Core} {k : Nat} (h : x.idx = k) (l : List Core) : (x :: l).find? (fun y => y.idx == k) = some x := List.find?_cons_of_pos (by simpa using h)
theorem find_idx_neg {x : Core} {k : Nat} (h : x.idx ≠ k) (l : List Core) : (x :: l).find? (fun y => y.idx == k) = l.find? (fun y => y.idx == k) :=
  List.find?_cons_of_neg (by simpa using h)

theorem find_coresPut_same (l : List Core) (c : Core) : (coresPut l c).find? (fun d => d.idx == c.idx) = some c := by
  induction l with
  | nil => simp [coresPut]
  | cons d rest ih =>
    unfold coresPut
    split_ifs with h1 h2
    · simp
    · simp
    · rw [List.find?_cons_of_neg (by simpa using Ne.symm h2), ih]

theorem find_coresPut_other (l : List Core) (c : Core) {k : Nat} (h : k ≠ c.idx) :
    (coresPut l c).find? (fun d => d.idx == k) = l.find? (fun d => d.idx == k) := by
  have away : (c.idx == k) = false := by simpa using Ne.symm h
  induction l with
  | nil => simp [coresPut, away]
  | cons d rest ih =>
    unfold coresPut
    split_ifs with h1 h2
    · simp only [List.find?_cons (a := c), away]
    · simp only [List.find?_cons, ← h2, away]
    · simp only [List.find?_cons, ih]

theorem setCore_core_same (s : State) {c : Core} {k : Nat} (hk : c.idx = k) : (s.setCore c).core k = c := by
  subst hk
  unfold State.core
  rw [State.setCore_cores, find_coresPut_same, Option.getD_some]

theorem setCore_core_other (s : State) (c : Core) {k : Nat} (h : k ≠ c.idx) : (s.setCore c).core k = s.core k := by
  unfold State.core
  rw [State.setCore_cores, find_coresPut_other _ _ h]

theorem core_idx (s : State) (k : Nat) : (s.core k).idx = k := by
  unfold State.core
  cases h : s.cores.find? (fun c => c.idx == k) with
  | none => rfl
  | some c => exact eq_of_beq (List.find?_some h :)

/-- The first core that has a property is also the first of its index, if that one has the property, too. -/
theorem find_first {l : List Core} {p : Core → Bool} {c d : Core} (hc : l.find? p = some c) (hd : l.find? (fun x => x.idx == c.idx) = some d) (hp : p d = true) : d = c := by
  induction l with
  | nil => exact nomatch hc
  | cons x rest ih =>
    by_cases hx : p x = true
    · rw [List.find?_cons_of_pos hx] at hc
      rw [← Option.some.inj hc, find_idx_pos rfl] at hd
      exact (Option.some.inj hd).symm.trans (Option.some.inj hc)
    · rw [List.find?_cons_of_neg hx] at hc
      by_cases hi : x.idx = c.idx
      · rw [find_idx_pos hi] at hd
        exact absurd (Option.some.inj hd ▸ hp) hx
      · rw [find_idx_neg hi] at hd
        exact ih hc hd

/-- Counting for a core changes no seat: the first core of a property that does not speak of the counters stays so. -/
theorem find_coresPut_tele {l : List Core} {p : Core → Bool} (hp : ∀ (c : Core) (x : List (String × Nat)), p { c with tele := x } = p c) {c : Core} (hc : l.find? p = some c)
    {d : Core} (hd : l.find? (fun x => x.idx == c.idx) = some d) (x : List (String × Nat)) : ∃ y, (coresPut l { d with tele := x }).find? p = some { c with tele := y } := by
  have hdi : d.idx = c.idx := eq_of_beq (List.find?_some hd :)
  by_cases hpd : p d = true
  · obtain rfl := find_first hc hd hpd
    refine ⟨x, ?_⟩
    clear hd
    induction l with
    | nil => exact nomatch hc
    | cons e rest ih =>
      unfold coresPut
      split_ifs with h1 h2
      · exact List.find?_cons_of_pos ((hp _ _).trans hpd)
      · exact List.find?_cons_of_pos ((hp _ _).trans hpd)
      · by_cases he : p e = true
        · rw [List.find?_cons_of_pos he] at hc
          exact absurd (congrArg Core.idx (Option.some.inj hc)).symm h2
        · rw [List.find?_cons_of_neg he] at hc
          rw [List.find?_cons_of_neg he, ih hc]
  · refine ⟨c.tele, ?_⟩
    have hpx : ¬ p { d with tele := x } = true := by rwa [hp]
    clear hpd
    induction l with
    | nil => exact nomatch hc
    | cons e rest ih =>
      unfold coresPut
      split_ifs with h1 h2
      · rw [List.find?_cons_of_neg hpx, hc]
      · have hed : e = d := by
          rw [find_idx_pos (h2.symm.trans hdi)] at hd
          exact Option.some.inj hd
        rw [List.find?_cons_of_neg hpx]
        rwa [List.find?_cons_of_neg (by rw [hed]; rwa [hp] at hpx)] at hc
      · have hei : e.idx ≠ c.idx := fun h => h2 (hdi.trans h.symm)
        by_cases he : p e = true
        · rw [List.find?_cons_of_pos he] at hc
          exact absurd (congrArg Core.idx (Option.some.inj hc)) hei
        · rw [List.find?_cons_of_neg he] at hc
          rw [find_idx_neg hei] at hd
          rw [List.find?_cons_of_neg he, ih hc hd]

theorem countFor_rest (s : State) (u : Nat) (name : String) : ∃ l, s.countFor u name = { s with cores := l } := by
  unfold State.countFor
  cases s.coreOf u with
  | none => exact ⟨_, rfl⟩
  | some c => exact ⟨_, rfl⟩

/-- Counting for a node moves it to no other core, and it keeps its slot and its units there. -/
theorem countFor_coreOf {s : State} {u : Nat} {c : Core} (h : s.coreOf u = some c) (name : String) : ∃ y, (s.countFor u name).coreOf u = some { c with tele := y } := by
  unfold State.countFor
  rw [h]
  unfold State.coreOf at h ⊢
  by_cases hu : u = 0
  · rw [if_pos hu] at h
    exact nomatch h
  · rw [if_neg hu] at h ⊢
    have hd : s.cores.find? (fun x => x.idx == c.idx) = some (s.core c.idx) := by
      unfold State.core
      cases hf : s.cores.find? (fun x => x.idx == c.idx) with
      | some d => rfl
      | none => exact absurd (List.mem_of_find?_eq_some h) fun hm => by simpa using List.find?_eq_none.mp hf c hm
    exact find_coresPut_tele (fun _ _ => rfl) h hd _

theorem countMany_rest (s : State) (u : Nat) (name : String) (k : Nat) : ∃ l, s.countMany u name k = { s with cores := l } := by
  induction k generalizing s with
  | zero => exact ⟨_, rfl⟩
  | succ k ih =>
    obtain ⟨l, hl⟩ := countFor_rest s u name
    obtain ⟨l', hl'⟩ := ih (s.countFor u name)
    exact ⟨l', hl'.trans (by rw [hl])⟩

theorem countMany_coreOf {s : State} {u : Nat} {c : Core} (h : s.coreOf u = some c) (name : String) (k : Nat) :
    ∃ y, (s.countMany u name k).coreOf u = some { c with tele := y } := by
  induction k generalizing s c with
  | zero => exact ⟨_, h⟩
  | succ k ih =>
    obtain ⟨y, hy⟩ := countFor_coreOf h name
    obtain ⟨z, hz⟩ := ih hy
    exact ⟨z, hz⟩

theorem setNode_rest (s : State) (n : Node) : ∃ c l, s.setNode n = { s with cur := c, nodes := l } := by
  unfold State.setNode
  split
  · exact ⟨_, _, rfl⟩
  · split
    · exact ⟨_, _, rfl⟩
    · exact ⟨_, _, rfl⟩

theorem mapNode_rest (s : State) (u : Nat) (f : Node → Node) : ∃ c l, s.mapNode u f = { s with cur := c, nodes := l } := setNode_rest s _

/-! ## A run that ends (R97, R360) -/

/-- A core whose node `u` has left its slot and its units. -/
def coreWithout (c : Core) (u : Nat) : Core :=
  { c with slots := c.slots.map (fun x => if x = u then 0 else x), units := c.units.map (fun x => if x = u then 0 else x), current := if c.current = u then 0 else c.current }

theorem leaveCore_of_none {s : State} {u : Nat} (h : s.coreOf u = none) : s.leaveCore u = s := by
  unfold State.leaveCore
  rw [h]

theorem leaveCore_of_cur {s : State} {u : Nat} {c : Core} (h : s.coreOf u = some c) (hc : s.cur.desc.uid = u) :
    s.leaveCore u = { s with cores := coresPut s.cores (coreWithout c u), nodes := nodesPut s.nodes s.cur, cur := Node.none } := by
  unfold State.leaveCore
  rw [h]
  exact if_pos hc

theorem leaveCore_of_other {s : State} {u : Nat} {c : Core} (h : s.coreOf u = some c) (hc : s.cur.desc.uid ≠ u) : s.leaveCore u = s.setCore (coreWithout c u) := by
  unfold State.leaveCore
  rw [h]
  exact if_neg hc

theorem leaveCore_rest (s : State) (u : Nat) : ∃ c l k, s.leaveCore u = { s with cur := c, nodes := l, cores := k } := by
  cases h : s.coreOf u with
  | none => exact ⟨_, _, _, leaveCore_of_none h⟩
  | some c =>
    by_cases hc : s.cur.desc.uid = u
    · exact ⟨_, _, _, leaveCore_of_cur h hc⟩
    · exact ⟨_, _, _, leaveCore_of_other h hc⟩

theorem leaveCore_node (s : State) (u : Nat) {v : Nat} (hv : v ≠ 0) : (s.leaveCore u).node v = s.node v := by
  cases h : s.coreOf u with
  | none => rw [leaveCore_of_none h]
  | some c =>
    by_cases hu : s.cur.desc.uid = u
    · rw [leaveCore_of_cur h hu]
      refine (node_of_list (hv : v ≠ Node.none.desc.uid)).trans ?_
      by_cases hc : v = s.cur.desc.uid
      · rw [node_of_cur hc, hc]
        exact congrArg (Option.getD · Node.none) (find_nodesPut_same _ _)
      · rw [node_of_list hc]
        exact congrArg (Option.getD · Node.none) (find_nodesPut_other _ _ hc)
    · rw [leaveCore_of_other h hu]
      exact node_congr rfl rfl v

theorem leaveCore_core {s : State} {u : Nat} {c : Core} (h : s.coreOf u = some c) : (s.leaveCore u).core c.idx = coreWithout c u := by
  by_cases hc : s.cur.desc.uid = u
  · rw [leaveCore_of_cur h hc]
    exact (core_congr (s := s.setCore (coreWithout c u)) rfl _).trans (setCore_core_same s rfl)
  · rw [leaveCore_of_other h hc]
    exact setCore_core_same s rfl

theorem firstReady_rest (s : State) (u : Nat) : ∃ c l k, s.firstReady u = { s with cur := c, nodes := l, awl := { s.awl with readySeq := k } } := by
  unfold State.firstReady
  dsimp only
  split
  · obtain ⟨c, l, h⟩ := setNode_rest s { s.node u with desc := { (s.node u).desc with readyOrder := s.awl.readySeq + 1 } }
    exact ⟨c, l, s.awl.readySeq + 1, by rw [h]; rfl⟩
  · exact ⟨_, _, _, rfl⟩

theorem firstReady_node_other (s : State) (u : Nat) (hu : (s.node u).desc.uid = u) {v : Nat} (hv : v ≠ u) : (s.firstReady u).node v = s.node v := by
  unfold State.firstReady
  dsimp only
  split
  · exact (node_congr rfl rfl v).trans (setNode_node_other _ _ (hu.symm ▸ hv))
  · rfl

theorem firstReady_node_same (s : State) {u : Nat} (hu : (s.node u).desc.uid = u) (h0 : u ≠ 0) :
    ∃ k, (s.firstReady u).node u = { s.node u with desc := { (s.node u).desc with readyOrder := k } } ∧ ((s.node u).run.st ≠ .ready → k = (s.node u).desc.readyOrder) := by
  unfold State.firstReady
  dsimp only
  split
  · next h => exact ⟨_, (node_congr rfl rfl u).trans (setNode_node_same _ hu h0), fun hst => absurd h.1 hst⟩
  · exact ⟨_, rfl, fun _ => rfl⟩

/-- What is left of a node whose run has ended. -/
def endedNode (n : Node) (st : NodeState) (remaining : Nat) (mark : Option (Nat × Nat × Nat)) : Node :=
  { n.discard with run := { n.discard.run with st := st, remaining := remaining, mark := mark, partner := 0 } }

section
variable (s : State) (u : Nat) (st : NodeState) (remaining : Nat) (mark : Option (Nat × Nat × Nat))


theorem endRun_eq : ∃ d, s.endRun u st remaining mark = (({ s.leaveCore u with dist := d } : State).setNode (endedNode (s.node u) st remaining mark)).firstReady u := by
  by_cases h : mark = none
  · exact ⟨(s.leaveCore u).dist, by unfold State.endRun; dsimp only; rw [if_pos h]; rfl⟩
  · exact ⟨_, by unfold State.endRun; dsimp only; rw [if_neg h]; rfl⟩

theorem endRun_rest : ∃ c l k d a, s.endRun u st remaining mark = { s with cur := c, nodes := l, cores := k, dist := d, awl := { s.awl with readySeq := a } } ∧
    k = (s.leaveCore u).cores := by
  obtain ⟨d, hd⟩ := endRun_eq s u st remaining mark
  obtain ⟨c, l, k, hl⟩ := leaveCore_rest s u
  obtain ⟨c', l', hs⟩ := setNode_rest ({ s.leaveCore u with dist := d } : State) (endedNode (s.node u) st remaining mark)
  rw [hs] at hd
  obtain ⟨c'', l'', a, hf⟩ := firstReady_rest { s.leaveCore u with dist := d, cur := c', nodes := l' } u
  rw [hf] at hd
  rw [hd]
  exact ⟨c'', l'', _, d, a, by rw [hl], rfl⟩

variable {s u}

theorem endRun_node_other (hu : (s.node u).desc.uid = u) (h0 : u ≠ 0) {v : Nat} (hv : v ≠ u) (hv0 : v ≠ 0) : (s.endRun u st remaining mark).node v = s.node v := by
  obtain ⟨d, hd⟩ := endRun_eq s u st remaining mark
  have hown := setNode_node_same ({ s.leaveCore u with dist := d } : State) (n := endedNode (s.node u) st remaining mark) hu h0
  have hne : v ≠ (endedNode (s.node u) st remaining mark).desc.uid := hv.trans_eq hu.symm
  rw [hd, firstReady_node_other _ _ (by rw [hown]; exact hu) hv, setNode_node_other _ _ hne]
  exact (node_congr rfl rfl v).trans (leaveCore_node s u hv0)

theorem endRun_node_same (hu : (s.node u).desc.uid = u) (h0 : u ≠ 0) :
    ∃ k, (s.endRun u st remaining mark).node u = { endedNode (s.node u) st remaining mark with desc := { (s.node u).desc with readyOrder := k } } ∧
      (st ≠ .ready → k = (s.node u).desc.readyOrder) := by
  obtain ⟨d, hd⟩ := endRun_eq s u st remaining mark
  have hown := setNode_node_same ({ s.leaveCore u with dist := d } : State) (n := endedNode (s.node u) st remaining mark) hu h0
  obtain ⟨k, hk, hst⟩ := firstReady_node_same (({ s.leaveCore u with dist := d } : State).setNode (endedNode (s.node u) st remaining mark)) (by rw [hown]; exact hu) h0
  rw [hown] at hk hst
  rw [hd]
  exact ⟨k, hk, hst⟩

theorem endRun_core {c : Core} (h : s.coreOf u = some c) : (s.endRun u st remaining mark).core c.idx = coreWithout c u := by
  obtain ⟨_, _, k, _, _, he, hk⟩ := endRun_rest s u st remaining mark
  exact (core_congr (by rw [he]; exact hk) _).trans (leaveCore_core h)

end

/-! ## A pair that is dropped -/

theorem unsplice_rest (s : State) (u : Nat) : ∃ k, s.unsplice u = { s with cores := k } := by
  unfold State.unsplice
  split <;> exact ⟨_, rfl⟩

theorem unsplice_node (s : State) (u v : Nat) : (s.unsplice u).node v = s.node v := by
  obtain ⟨k, hk⟩ := unsplice_rest s u
  exact node_congr (by rw [hk]) (by rw [hk]) v

theorem unsplice_core (s : State) {u : Nat} (h : u ≠ 0) (k : Nat) : (s.unsplice u).core k = (s.core k).dropPair u := by
  have hcomp : ((fun d : Core => d.idx == k) ∘ fun c : Core => c.dropPair u) = fun d => d.idx == k := rfl
  unfold State.unsplice State.core
  rw [if_neg h, List.find?_map, hcomp]
  cases s.cores.find? (fun d => d.idx == k) with
  | none => rfl
  | some c => rfl

theorem unsplice_pairs (s : State) {u : Nat} (h : u ≠ 0) : ∀ c ∈ (s.unsplice u).cores, ∀ sp ∈ c.pairs, sp.p ≠ u ∧ sp.c ≠ u := by
  unfold State.unsplice
  rw [if_neg h]
  intro c hc sp hsp
  obtain ⟨d, _, rfl⟩ := List.mem_map.mp hc
  simpa using (List.mem_filter.mp hsp).2

end Sys2Proof.Proofs
end

