-- ==== Sys2Proof/Proofs/NodeCommit.lean ====
section
namespace Sys2Proof.Proofs
open Sys2Proof Sys2Proof.Machine

-- One theorem after another: side by side they need more memory than one run may take.
set_option Elab.async false

/-! # Commits of nodes (R43, R66, R70 to R72, R126, R309, R360) -/

/-! ## When a node commits -/

theorem drained_iff {n : Node} : n.drained = true ↔ (∀ e : BitVec 2, n.done e = true) ∧ n.run.pendingRaise = [] := by
  unfold Node.drained
  simp only [Bool.and_eq_true, List.isEmpty_iff]
  constructor
  · rintro ⟨⟨⟨⟨h0, h1⟩, h2⟩, h3⟩, hr⟩
    refine ⟨fun e => ?_, hr⟩
    have he : e = 0 ∨ e = 1 ∨ e = 2 ∨ e = 3 := by bv_omega
    rcases he with rfl | rfl | rfl | rfl <;> assumption
  · exact fun ⟨h, hr⟩ => ⟨⟨⟨⟨h 0, h 1⟩, h 2⟩, h 3⟩, hr⟩

theorem commitStop_none_iff {s : State} {uid : Nat} : s.commitStop uid = none ↔
    (s.node uid).ctl.guard = none ∧ s.stale (s.node uid) = false ∧ ∃ l, s.mergePlaces (s.node uid) (mergeList (s.node uid) (s.node uid).closeAll) = .ok l := by
  unfold State.commitStop
  dsimp only
  cases (s.node uid).ctl.guard with
  | some g => simp
  | none =>
    cases s.stale (s.node uid) with
    | true => simp
    | false => cases s.mergePlaces (s.node uid) (mergeList (s.node uid) (s.node uid).closeAll) <;> simp

/-- When a node may begin or end its commit (R126, R360). -/
def CommitReady (s : State) (uid : Nat) : Prop :=
  uid ≠ 0 ∧ (s.node uid).run.st = .retiring ∧ (s.node uid).run.quiesced = false ∧ ((∀ e : BitVec 2, (s.node uid).done e = true) ∧ (s.node uid).run.pendingRaise = []) ∧
    ((s.node uid).run.partner ≠ 0 → s.pairDrained (s.node uid) = true)

theorem commitReady_iff {s : State} {uid : Nat} : CommitReady s uid ↔
    ¬ (uid = 0 || (s.node uid).run.st != .retiring || (s.node uid).run.quiesced || !(s.node uid).drained ||
      ((s.node uid).run.partner != 0 && !s.pairDrained (s.node uid))) = true := by
  unfold CommitReady
  rw [← drained_iff]
  simp only [Bool.or_eq_true, Bool.and_eq_true, bne_iff_ne, Bool.not_eq_true', decide_eq_true_eq]
  constructor
  · rintro ⟨h0, h1, h2, h3, h4⟩ ((((h | h) | h) | h) | ⟨h, h'⟩)
    · exact h0 h
    · exact h h1
    · rw [h2] at h
      exact nomatch h
    · rw [h3] at h
      exact nomatch h
    · rw [h4 h] at h'
      exact nomatch h'
  · intro h
    refine ⟨fun h0 => h (.inl (.inl (.inl (.inl h0)))), by_contra fun h1 => h (.inl (.inl (.inl (.inr h1)))), ?_, ?_, fun hq => ?_⟩
    · exact Bool.eq_false_iff.mpr fun h2 => h (.inl (.inl (.inr h2)))
    · exact Bool.eq_true_of_not_eq_false fun h3 => h (.inl (.inr h3))
    · exact Bool.eq_true_of_not_eq_false fun h4 => h (.inr ⟨hq, h4⟩)

theorem nodeCommit_of_not_ready {s : State} {uid : Nat} (h : ¬ CommitReady s uid) : exec (.nodeCommit uid) s = .fault (.notEnabled "NODE_COMMIT") := by
  rw [exec_nodeCommit]
  exact if_pos (not_not.mp (mt commitReady_iff.mpr h))

theorem nodeCommit_of_committing {s : State} {uid : Nat} (h : CommitReady s uid) (hc : (s.node uid).run.committing ≠ none) :
    exec (.nodeCommit uid) s = .next (s.commit uid) := by
  rw [exec_nodeCommit]
  exact (if_neg (commitReady_iff.mp h)).trans (if_pos (Option.isSome_iff_ne_none.mpr hc))

/-- A commit that begins: the first check that stops it, of the node's own or of its consumer's, or else the commit. -/
theorem nodeCommit_of_ready {s : State} {uid : Nat} (h : CommitReady s uid) (hc : (s.node uid).run.committing = none) : exec (.nodeCommit uid) s =
    match s.commitStop uid <|> (if (s.node uid).run.partner = 0 then none else s.commitStop (s.node uid).run.partner) with
    | some t => .next t.clearBnd
    | none => .next ((if (s.node uid).run.partner = 0 then s else s.mapNode (s.node uid).run.partner fun c =>
        { c with run := { c.run with partner := 0, committing := some (s.mergePAs c) } }).commit uid) := by
  rw [exec_nodeCommit]
  refine (if_neg (commitReady_iff.mp h)).trans ((if_neg (by simp [hc])).trans ?_)
  rfl

theorem nodeCommit_of_stop {s t : State} {uid : Nat} (h : CommitReady s uid) (hc : (s.node uid).run.committing = none) (ht : s.commitStop uid = some t) :
    exec (.nodeCommit uid) s = .next t.clearBnd := by
  rw [nodeCommit_of_ready h hc, ht]
  rfl

theorem nodeCommit_alone {s : State} {uid : Nat} (h : CommitReady s uid) (hc : (s.node uid).run.committing = none) (ht : s.commitStop uid = none)
    (hq : (s.node uid).run.partner = 0) : exec (.nodeCommit uid) s = .next (s.commit uid) := by
  rw [nodeCommit_of_ready h hc, ht, if_pos hq, if_pos hq]
  rfl

theorem nodeCommit_pair_stops {s t : State} {uid : Nat} (h : CommitReady s uid) (hc : (s.node uid).run.committing = none) (ht : s.commitStop uid = none)
    (hq : (s.node uid).run.partner ≠ 0) (hs : s.commitStop (s.node uid).run.partner = some t) : exec (.nodeCommit uid) s = .next t.clearBnd := by
  rw [nodeCommit_of_ready h hc, ht, if_neg hq, hs]
  rfl

theorem nodeCommit_pair {s : State} {uid : Nat} (h : CommitReady s uid) (hc : (s.node uid).run.committing = none) (ht : s.commitStop uid = none)
    (hq : (s.node uid).run.partner ≠ 0) (hs : s.commitStop (s.node uid).run.partner = none) : exec (.nodeCommit uid) s =
      .next ((s.mapNode (s.node uid).run.partner fun c => { c with run := { c.run with partner := 0, committing := some (s.mergePAs c) } }).commit uid) := by
  rw [nodeCommit_of_ready h hc, ht, if_neg hq, hs, if_neg hq]
  rfl

theorem commitStop_of_guard {s : State} {uid : Nat} (h : (s.node uid).ctl.guard ≠ none) :
    s.commitStop uid = some ((s.countCause uid 0x12).failNode uid (stNodeTrap 0x12)) := if_pos (Option.isSome_iff_ne_none.mpr h)

theorem commitStop_of_stale {s : State} {uid : Nat} (h : (s.node uid).ctl.guard = none) (hs : s.stale (s.node uid) = true) :
    s.commitStop uid = some (s.memFault uid .generation) := (if_neg (by simp [h])).trans (if_pos hs)

theorem commitStop_of_error {s : State} {uid : Nat} {f : MFault} (h : (s.node uid).ctl.guard = none) (hs : s.stale (s.node uid) = false)
    (hf : s.mergePlaces (s.node uid) (mergeList (s.node uid) (s.node uid).closeAll) = .error f) : s.commitStop uid = some (s.memFault uid f) := by
  refine (if_neg (by simp [h])).trans ((if_neg (by simp [hs])).trans ?_)
  rw [hf]

/-! ## The records to be merged, and the windows that close (R43) -/

theorem mergeList_fold_spec (p : Nat × Word → Bool) (l acc : List (Nat × Word)) (ha : acc.Nodup) :
    let t := l.foldl (fun (l : List (Nat × Word)) e => if l.contains e || p e then l else l ++ [e]) acc
    t.Nodup ∧ ∀ x, x ∈ t ↔ x ∈ acc ∨ (x ∈ l ∧ p x = false) := by
  induction l generalizing acc with
  | nil => exact ⟨ha, fun x => by simp⟩
  | cons e rest ih =>
    rw [List.foldl_cons]
    by_cases h : (acc.contains e || p e) = true
    · rw [if_pos h]
      obtain ⟨hn, hm⟩ := ih acc ha
      refine ⟨hn, fun x => (hm x).trans ?_⟩
      simp only [Bool.or_eq_true, List.contains_iff_mem] at h
      constructor
      · rintro (hx | ⟨hx, hp⟩)
        · exact .inl hx
        · exact .inr ⟨List.mem_cons_of_mem _ hx, hp⟩
      · rintro (hx | ⟨hx, hp⟩)
        · exact .inl hx
        · rcases List.mem_cons.mp hx with rfl | hx
          · exact .inl (h.resolve_right (by simp [hp]))
          · exact .inr ⟨hx, hp⟩
    · rw [if_neg h]
      simp only [Bool.or_eq_true, List.contains_iff_mem, not_or] at h
      obtain ⟨hn, hm⟩ := ih (acc ++ [e]) (by
        rw [List.nodup_append]
        exact ⟨ha, List.nodup_singleton _, fun a hx b hb => by rw [List.mem_singleton.mp hb]; exact fun hab => h.1 (hab ▸ hx)⟩)
      refine ⟨hn, fun x => (hm x).trans ?_⟩
      have he : p e = false := by simpa using h.2
      constructor
      · rintro (hx | ⟨hx, hp⟩)
        · rcases List.mem_append.mp hx with hx | hx
          · exact .inl hx
          · rw [List.mem_singleton.mp hx]
            exact .inr ⟨List.mem_cons_self, he⟩
        · exact .inr ⟨List.mem_cons_of_mem _ hx, hp⟩
      · rintro (hx | ⟨hx, hp⟩)
        · exact .inl (List.mem_append_left _ hx)
        · rcases List.mem_cons.mp hx with rfl | hx
          · exact .inl (List.mem_append_right _ (List.mem_singleton_self _))
          · exact .inr ⟨hx, hp⟩

theorem mergeList_spec (n : Node) (r : Regs) : (mergeList n r).Nodup ∧ ∀ (k : Nat) (a : Word), (k, a) ∈ mergeList n r ↔
    (∃ h, (h, a) ∈ n.desc.handles.zip n.desc.srecs ∧ Handle.kidx h = k) ∧ (r.closed[k]?).getD 0 ≠ 0 := by
  obtain ⟨hn, hm⟩ := mergeList_fold_spec (fun e => r.closed[e.1]?.getD 0 == 0) ((n.desc.handles.zip n.desc.srecs).map fun e => (e.1.kidx, e.2)) [] List.nodup_nil
  refine ⟨hn, fun k a => (hm (k, a)).trans ?_⟩
  rw [or_iff_right List.not_mem_nil, List.mem_map]
  refine and_congr ⟨?_, ?_⟩ (by simp)
  · rintro ⟨⟨h, b⟩, hz, he⟩
    obtain ⟨rfl, rfl⟩ := Prod.mk.inj he
    exact ⟨h, hz, rfl⟩
  · exact fun ⟨h, hz, hk⟩ => ⟨(h, a), hz, by rw [← hk]⟩

/-- Two register files whose window of scale register `i` is the same: the register, how many windows have closed, and the writes of later windows. -/
def SameWindow (r t : Regs) (i : Fin 64) : Prop :=
  t.k[i] = r.k[i] ∧ t.closed[i] = r.closed[i] ∧ ∀ w, t.later.filter (fun e => e.1 == i.val && e.2.1 == w) = r.later.filter (fun e => e.1 == i.val && e.2.1 == w)

theorem SameWindow.trans {r t u : Regs} {i : Fin 64} (h : SameWindow r t i) (h' : SameWindow t u i) : SameWindow r u i :=
  ⟨h'.1.trans h.1, h'.2.1.trans h.2.1, fun w => (h'.2.2 w).trans (h.2.2 w)⟩

theorem closeWindow_other (r : Regs) {i : Fin 64} {j : Nat} (hj : j < 64) (h : j ≠ i.val) : SameWindow r (r.closeWindow (BitVec.ofNat 6 j)) i := by
  have hk : (BitVec.ofNat 6 j).toNat = j := by simp; omega
  unfold Regs.closeWindow
  dsimp only
  refine ⟨?_, ?_, fun w => ?_⟩
  · simp only [Fin.getElem_fin, hk]
    exact Vector.getElem_setIfInBounds_ne _ h
  · simp only [Fin.getElem_fin, hk]
    exact Vector.getElem_setIfInBounds_ne _ h
  · rw [List.filter_filter]
    refine List.filter_congr fun e _ => ?_
    simp only [hk]
    by_cases he : e.1 = i.val
    · have : ¬ e.1 = j := fun h' => h (h'.symm.trans he)
      simp [he, Ne.symm h]
    · simp [he]

theorem closeWindow_same {r t : Regs} {i : Fin 64} (h : SameWindow r t i) : (t.closeWindow (BitVec.ofNat 6 i.val)).k[i] = (r.closeWindow (BitVec.ofNat 6 i.val)).k[i] ∧
    (t.closeWindow (BitVec.ofNat 6 i.val)).closed[i] = r.closed[i] + 1 := by
  obtain ⟨hk, hc, hl⟩ := h
  have hi : (BitVec.ofNat 6 i.val).toNat = i.val := by simp
  simp only [Fin.getElem_fin] at hk hc
  unfold Regs.closeWindow
  simp only [Fin.getElem_fin, hi, Vector.getElem_setIfInBounds_self, hk, hc, hl, and_self]

/-- The census of every window of a list of scale registers that has seen a value is closed. -/
def closeSeen (l : List Nat) (r : Regs) : Regs := l.foldl (fun (r : Regs) i => if cenCur (r.k[i]?.getD 0) < 32 then r.closeWindow (BitVec.ofNat 6 i) else r) r

theorem closeSeen_other {i : Fin 64} : ∀ (l : List Nat) (r : Regs), (∀ j ∈ l, j < 64 ∧ j ≠ i.val) → SameWindow r (closeSeen l r) i
  | [], _, _ => ⟨rfl, rfl, fun _ => rfl⟩
  | j :: rest, r, h => by
    obtain ⟨hj, hrest⟩ := List.forall_mem_cons.mp h
    refine SameWindow.trans ?_ (closeSeen_other rest _ hrest)
    dsimp only
    split
    · exact closeWindow_other r hj.1 hj.2
    · exact ⟨rfl, rfl, fun _ => rfl⟩

theorem closeAll_eq {n : Node} (h : ∀ i : Fin 64, n.ctl.cissued[i] ≤ n.regs.closed[i]) : n.closeAll = closeSeen (List.range 64) n.regs := by
  have hid (l : List Nat) (hl : ∀ i ∈ l, i < 64) : l.foldl (fun (r : Regs) i =>
      (List.range (n.ctl.cissued[i]?.getD 0 - r.closed[i]?.getD 0)).foldl (fun (r : Regs) _ => r.closeWindow (BitVec.ofNat 6 i)) r) n.regs = n.regs := by
    induction l with
    | nil => rfl
    | cons i rest ih =>
      obtain ⟨hi, hrest⟩ := List.forall_mem_cons.mp hl
      have h0 : n.ctl.cissued[i]?.getD 0 - n.regs.closed[i]?.getD 0 = 0 := by
        rw [Vector.getElem?_eq_getElem hi, Vector.getElem?_eq_getElem hi]
        exact Nat.sub_eq_zero_of_le (h ⟨i, hi⟩)
      rw [List.foldl_cons, h0]
      exact ih hrest
  unfold Node.closeAll
  dsimp only
  rw [hid _ fun i hi => List.mem_range.mp hi]
  rfl

theorem closeAll_spec {n : Node} (h : ∀ i : Fin 64, n.ctl.cissued[i] ≤ n.regs.closed[i]) (i : Fin 64) :
    (cenCur n.regs.k[i] < 32 → n.closeAll.k[i] = (n.regs.closeWindow (BitVec.ofNat 6 i)).k[i] ∧ n.closeAll.closed[i] = n.regs.closed[i] + 1) ∧
    (32 ≤ cenCur n.regs.k[i] → n.closeAll.k[i] = n.regs.k[i] ∧ n.closeAll.closed[i] = n.regs.closed[i]) := by
  have hrange : List.range 64 = List.range i.val ++ i.val :: (List.range' (i.val + 1) (63 - i.val)) := by
    rw [List.range_eq_range', List.range_eq_range', ← List.range'_succ]
    have happ := List.range'_append_1 (s := 0) (m := i.val) (n := 63 - i.val + 1)
    rw [Nat.zero_add] at happ
    rw [happ]
    congr 1
    omega
  have before := closeSeen_other (i := i) (List.range i.val) n.regs fun j hj => by
    have := List.mem_range.mp hj
    omega
  have after (r : Regs) := closeSeen_other (i := i) (List.range' (i.val + 1) (63 - i.val)) r fun j hj => by
    have := List.mem_range'_1.mp hj
    omega
  have hstep : n.closeAll = closeSeen (List.range' (i.val + 1) (63 - i.val)) (if cenCur ((closeSeen (List.range i.val) n.regs).k[i.val]?.getD 0) < 32 then
      (closeSeen (List.range i.val) n.regs).closeWindow (BitVec.ofNat 6 i.val) else closeSeen (List.range i.val) n.regs) := by
    rw [closeAll_eq h, hrange]
    unfold closeSeen
    rw [List.foldl_append, List.foldl_cons]
  have hcur : (closeSeen (List.range i.val) n.regs).k[i.val]?.getD 0 = n.regs.k[i] := by
    rw [Vector.getElem?_eq_getElem i.isLt]
    exact before.1
  rw [hcur] at hstep
  constructor
  · intro hlt
    rw [if_pos hlt] at hstep
    obtain ⟨hk, hc, _⟩ := after ((closeSeen (List.range i.val) n.regs).closeWindow (BitVec.ofNat 6 i.val))
    obtain ⟨hk', hc'⟩ := closeWindow_same before
    rw [hstep]
    exact ⟨hk.trans hk', hc.trans hc'⟩
  · intro hle
    rw [if_neg (by omega)] at hstep
    obtain ⟨hk, hc, _⟩ := before.trans (after _)
    rw [hstep]
    exact ⟨hk, hc⟩

/-! ## The merge of a record (R43) -/

theorem mergeScale_stale {home step : Nat} (k : BitVec 32) (h : step < home / 2 ^ 32) :
    mergeScale home k step = ((BitVec.ofNat 32 home ||| (BitVec.ofNat 32 home ||| k) &&& 0x00600000#32).toNat + home / 2 ^ 32 * 2 ^ 32, true) := if_pos h

/-- The scale register that a merge leaves: CUR of the record, V, PREV and E as given, and SAT and POI of both. -/
def mergedScale (old k : BitVec 32) (v : Bool) (prev e : Nat) : BitVec 32 :=
  (setCensus old v prev (cenCur old) &&& 0xFFFFFF00#32) ||| BitVec.ofNat 32 e ||| ((old ||| k) &&& 0x00600000#32)

theorem mergeScale_newer {home step : Nat} (k : BitVec 32) (h : home / 2 ^ 32 < step) : mergeScale home k step =
    ((mergedScale (BitVec.ofNat 32 home) k (cenV k) (cenPrev k) (fieldN k 0 8)).toNat + step * 2 ^ 32, false) := by
  unfold mergeScale mergedScale
  dsimp only
  rw [if_neg (by omega)]
  simp only [if_pos h]

theorem mergeScale_same {home step : Nat} (k : BitVec 32) (h : home / 2 ^ 32 = step) : mergeScale home k step =
    ((mergedScale (BitVec.ofNat 32 home) k (cenV (BitVec.ofNat 32 home) || cenV k) (min (cenPrev (BitVec.ofNat 32 home)) (cenPrev k))
      (lowBits 8 (max (scaleE (BitVec.ofNat 32 home)) (scaleE k)))).toNat + home / 2 ^ 32 * 2 ^ 32, false) := by
  unfold mergeScale mergedScale
  dsimp only
  rw [if_neg (by omega)]
  simp only [if_neg (by omega : ¬ home / 2 ^ 32 < step)]

theorem flags_getLsbD (x : BitVec 32) (j : Nat) : (x &&& 0x00600000#32).getLsbD j = (x.getLsbD j && (j == 21 || j == 22)) := by
  have hmask : (0x00600000#32).getLsbD j = (j == 21 || j == 22) := by
    by_cases hj : j < 32
    · interval_cases j <;> rfl
    · rw [BitVec.getLsbD_of_ge _ _ (by omega)]
      have h1 : j ≠ 21 := by omega
      have h2 : j ≠ 22 := by omega
      simp [h1, h2]
  rw [BitVec.getLsbD_and, hmask]

theorem mergedScale_getLsbD (old k : BitVec 32) (v : Bool) (prev : Nat) {e : Nat} (he : e < 2 ^ 8) {j : Nat} (hj : j < 32) : (mergedScale old k v prev e).getLsbD j =
    if j < 8 then e.testBit j else ((setCensus old v prev (cenCur old)).getLsbD j || ((old.getLsbD j || k.getLsbD j) && (j == 21 || j == 22))) := by
  have hmask : (0xFFFFFF00#32).getLsbD j = decide (8 ≤ j) := by interval_cases j <;> rfl
  unfold mergedScale
  rw [BitVec.getLsbD_or, BitVec.getLsbD_or, BitVec.getLsbD_and, flags_getLsbD, BitVec.getLsbD_or, hmask, BitVec.getLsbD_ofNat]
  split_ifs with h8
  · have h1 : ¬ 8 ≤ j := by omega
    have h2 : j ≠ 21 := by omega
    have h3 : j ≠ 22 := by omega
    simp [h1, h2, h3, hj]
  · have hbit : e.testBit j = false := Nat.testBit_lt_two_pow (lt_of_lt_of_le he (Nat.pow_le_pow_right (by decide) (by omega)))
    have h1 : 8 ≤ j := by omega
    simp [h1, hbit]

theorem extract_eq_of_getLsbD {x y : BitVec 32} {lo n : Nat} (h : ∀ j, lo ≤ j → j < lo + n → j < 32 → x.getLsbD j = y.getLsbD j) : x.extractLsb' lo n = y.extractLsb' lo n := by
  refine BitVec.eq_of_getLsbD_eq fun i hi => ?_
  rw [BitVec.getLsbD_extractLsb', BitVec.getLsbD_extractLsb']
  by_cases hb : lo + i < 32
  · rw [h (lo + i) (by omega) (by omega) hb]
  · rw [BitVec.getLsbD_of_ge _ _ (by omega), BitVec.getLsbD_of_ge _ _ (by omega)]

theorem cenPrev_congr {x y : BitVec 32} (h : ∀ j, 14 ≤ j → j < 20 → x.getLsbD j = y.getLsbD j) : cenPrev x = cenPrev y :=
  congrArg BitVec.toNat (extract_eq_of_getLsbD (lo := 14) (n := 6) fun j h1 h2 _ => h j h1 h2)

theorem mergedScale_spec (old k : BitVec 32) (v : Bool) (prev : Nat) {e : Nat} (he : e < 2 ^ 8) :
    let m := mergedScale old k v prev e
    m.extractLsb' 24 4 = old.extractLsb' 24 4 ∧ m.getLsbD 21 = (old.getLsbD 21 || k.getLsbD 21) ∧ m.getLsbD 22 = (old.getLsbD 22 || k.getLsbD 22) ∧
    cenV m = v ∧ cenPrev m = min prev 32 ∧ m.extractLsb' 0 8 = BitVec.ofNat 8 e := by
  obtain ⟨hv, hp, -, hold⟩ := setCensus_spec old v prev (cenCur old)
  have bit {j : Nat} (hj : j < 32) := mergedScale_getLsbD old k v prev he hj
  dsimp only
  refine ⟨extract_eq_of_getLsbD fun j h1 h2 hj => ?_, ?_, ?_, ?_, ?_, ?_⟩
  · have h3 : j ≠ 21 := by omega
    have h4 : j ≠ 22 := by omega
    rw [bit hj, if_neg (by omega), hold j hj (.inr (by omega))]
    simp [h3, h4]
  · rw [bit (by decide), if_neg (by decide), hold 21 (by decide) (by decide)]
    simp
  · rw [bit (by decide), if_neg (by decide), hold 22 (by decide) (by decide)]
    simp
  · unfold cenV at hv ⊢
    rw [bit (by decide), if_neg (by decide), hv]
    simp
  · rw [← hp]
    refine cenPrev_congr fun j h1 h2 => ?_
    have h3 : j ≠ 21 := by omega
    have h4 : j ≠ 22 := by omega
    rw [bit (by omega), if_neg (by omega)]
    simp [h3, h4]
  · refine BitVec.eq_of_getLsbD_eq fun i hi => ?_
    rw [BitVec.getLsbD_extractLsb', Nat.zero_add, bit (by omega), if_pos hi, BitVec.getLsbD_ofNat]

theorem toNat_div (x : BitVec 32) (c : Nat) : (x.toNat + c * 2 ^ 32) / 2 ^ 32 = c := by
  have := x.isLt
  omega

theorem ofNat_toNat_add (x : BitVec 32) (c : Nat) : BitVec.ofNat 32 (x.toNat + c * 2 ^ 32) = x := by
  refine BitVec.eq_of_toNat_eq ?_
  have := x.isLt
  rw [BitVec.toNat_ofNat]
  omega

theorem mergeScale_spec (home : Nat) (k : BitVec 32) (step : Nat) :
    let old := BitVec.ofNat 32 home
    let was := home / 2 ^ 32
    let v := BitVec.ofNat 32 (mergeScale home k step).1
    (mergeScale home k step).1 / 2 ^ 32 = max was step ∧ ((mergeScale home k step).2 = true ↔ step < was) ∧
    v.extractLsb' 24 4 = old.extractLsb' 24 4 ∧ v.getLsbD 21 = (old.getLsbD 21 || k.getLsbD 21) ∧ v.getLsbD 22 = (old.getLsbD 22 || k.getLsbD 22) ∧
    (step < was → v.extractLsb' 0 21 = old.extractLsb' 0 21) ∧
    (was < step → cenV v = cenV k ∧ cenPrev v = min (cenPrev k) 32 ∧ v.extractLsb' 0 8 = k.extractLsb' 0 8) ∧
    (was = step → cenV v = (cenV old || cenV k) ∧ cenPrev v = min (min (cenPrev old) (cenPrev k)) 32 ∧
      (v.extractLsb' 0 8).toInt = max (old.extractLsb' 0 8).toInt (k.extractLsb' 0 8).toInt) := by
  dsimp only
  rcases lt_trichotomy step (home / 2 ^ 32) with h | h | h
  · rw [mergeScale_stale k h]
    dsimp only
    rw [toNat_div, ofNat_toNat_add]
    have bit (j : Nat) := (BitVec.getLsbD_or (x := BitVec.ofNat 32 home) (y := (BitVec.ofNat 32 home ||| k) &&& 0x00600000#32) (i := j)).trans
      (by rw [flags_getLsbD, BitVec.getLsbD_or])
    have away {j : Nat} (h1 : j ≠ 21) (h2 : j ≠ 22) := (bit j).trans (by simp [h1, h2] : _ = (BitVec.ofNat 32 home).getLsbD j)
    refine ⟨by omega, iff_of_true rfl h, extract_eq_of_getLsbD fun j h1 _ _ => away (by omega) (by omega), ?_, ?_,
      fun _ => extract_eq_of_getLsbD fun j _ h1 _ => away (by omega) (by omega), fun h' => by omega, fun h' => by omega⟩
    · rw [bit]
      cases (BitVec.ofNat 32 home).getLsbD 21 <;> simp
    · rw [bit]
      cases (BitVec.ofNat 32 home).getLsbD 22 <;> simp
  · rw [mergeScale_same k h.symm]
    dsimp only
    rw [toNat_div, ofNat_toNat_add]
    obtain ⟨hfmt, hsat, hpoi, hv, hp, he⟩ := mergedScale_spec (BitVec.ofNat 32 home) k (cenV (BitVec.ofNat 32 home) || cenV k)
      (min (cenPrev (BitVec.ofNat 32 home)) (cenPrev k)) (lowBits_lt 8 (max (scaleE (BitVec.ofNat 32 home)) (scaleE k)))
    refine ⟨by omega, iff_of_false (by decide) (by omega), hfmt, hsat, hpoi, fun h' => by omega, fun h' => by omega, fun _ => ⟨hv, hp, ?_⟩⟩
    rw [he, scaleE_eq, scaleE_eq]
    rcases max_choice ((BitVec.ofNat 32 home).extractLsb' 0 8).toInt (k.extractLsb' 0 8).toInt with hm | hm <;>
      rw [hm, lowBits_toInt, BitVec.ofNat_toNat, BitVec.setWidth_eq]
  · rw [mergeScale_newer k h]
    dsimp only
    rw [toNat_div, ofNat_toNat_add]
    obtain ⟨hfmt, hsat, hpoi, hv, hp, he⟩ := mergedScale_spec (BitVec.ofNat 32 home) k (cenV k) (cenPrev k) (k.extractLsb' 0 8).isLt
    exact ⟨by omega, iff_of_false (by decide) (by omega), hfmt, hsat, hpoi, fun h' => by omega,
      fun _ => ⟨hv, hp, he.trans ((BitVec.ofNat_toNat 8 _).trans (BitVec.setWidth_eq _))⟩, fun h' => by omega⟩

/-! ## Bytes and marks that a run of writes leaves (R70, R358) -/

theorem count_setAdd_other (l : List Nat) {a b : Nat} (h : b ≠ a) : (setAdd l a).count b = l.count b := by
  induction l with
  | nil => simp [setAdd, Ne.symm h]
  | cons k rest ih =>
    unfold setAdd
    split_ifs
    · simp [List.count_cons, Ne.symm h]
    · rfl
    · rw [List.count_cons, List.count_cons, ih]

theorem count_setDel_other (l : List Nat) {a b : Nat} (h : b ≠ a) : (setDel l a).count b = l.count b := by
  induction l with
  | nil => rfl
  | cons k rest ih =>
    unfold setDel
    split_ifs with hk
    · simp [← hk, Ne.symm h]
    · rw [List.count_cons, List.count_cons, ih]

theorem mem_setAdd_self (l : List Nat) (a : Nat) : a ∈ setAdd l a := mem_setAdd.mpr (.inl rfl)

theorem count_setDel_self (l : List Nat) (a : Nat) : (setDel l a).count a = l.count a - 1 := by
  induction l with
  | nil => rfl
  | cons k rest ih =>
    unfold setDel
    split_ifs with hk
    · simp [hk]
    · rw [List.count_cons_of_ne (Ne.symm hk), List.count_cons_of_ne (Ne.symm hk), ih]

theorem setByte_count_other (s : State) (b : Byte) (p : Bool) {pa a : Nat} (h : a ≠ pa) : (s.setByte pa b p).poison.count a = s.poison.count a := by
  rw [State.setByte_poison]
  cases p
  · exact count_setDel_other _ h
  · exact count_setAdd_other _ h

theorem poisoned_of_count {s : State} {a : Nat} : s.poisoned a = decide (0 < s.poison.count a) := by
  unfold State.poisoned
  rw [List.contains_eq_mem]
  exact decide_eq_decide.mpr List.count_pos_iff.symm

theorem poisoned_of_count_eq {s t : State} {a : Nat} (h : t.poison.count a = s.poison.count a) : t.poisoned a = s.poisoned a := by
  rw [poisoned_of_count, poisoned_of_count, h]

theorem setByte_poisoned_same (s : State) (b : Byte) (p : Bool) {pa : Nat} (h : s.poison.count pa ≤ 1) : (s.setByte pa b p).poisoned pa = p := by
  cases p
  · rw [poisoned_of_count]
    refine decide_eq_false ?_
    change ¬ 0 < (setDel s.poison pa).count pa
    rw [count_setDel_self]
    omega
  · unfold State.poisoned
    rw [List.contains_eq_mem]
    exact decide_eq_true (mem_setAdd_self _ _)

/-- Bytes written one after the other at addresses of their own, each with a mark that only its own byte's mark decides. -/
theorem foldl_setByte_spec {α : Type} (addr : α → Nat) (val : α → Byte) (mark : State → α → Bool) (l : List α) {s : State} (hc : Canonical s)
    (hp : ∀ e ∈ l, s.poison.count (addr e) ≤ 1) (hd : (l.map addr).Nodup) (hm : ∀ e ∈ l, ∀ t : State, t.poison.count (addr e) = s.poison.count (addr e) → mark t e = mark s e) :
    let t := l.foldl (fun (s : State) e => s.setByte (addr e) (val e) (mark s e)) s
    Canonical t ∧ (∀ e ∈ l, t.byte (addr e) = val e ∧ t.poisoned (addr e) = mark s e) ∧
      ∀ a, a ∉ l.map addr → t.byte a = s.byte a ∧ t.poison.count a = s.poison.count a := by
  induction l generalizing s with
  | nil => exact ⟨hc, List.forall_mem_nil _, fun _ _ => ⟨rfl, rfl⟩⟩
  | cons e rest ih =>
    obtain ⟨he, hrest⟩ := List.nodup_cons.mp hd
    obtain ⟨hpe, hpr⟩ := List.forall_mem_cons.mp hp
    have hne (x : α) (hx : x ∈ rest) : addr x ≠ addr e := fun h => he (h ▸ List.mem_map_of_mem hx)
    have hcount (x : α) (hx : x ∈ rest) : (s.setByte (addr e) (val e) (mark s e)).poison.count (addr x) = s.poison.count (addr x) := setByte_count_other s _ _ (hne x hx)
    have hmark (x : α) (hx : x ∈ rest) : mark (s.setByte (addr e) (val e) (mark s e)) x = mark s x := hm x (List.mem_cons_of_mem _ hx) _ (hcount x hx)
    obtain ⟨hct, hin, hout⟩ := ih (s := s.setByte (addr e) (val e) (mark s e)) (State.setByte_canonical hc _ _ _) (fun x hx => (hcount x hx).trans_le (hpr x hx)) hrest
      fun x hx t ht => (hm x (List.mem_cons_of_mem _ hx) t (ht.trans (hcount x hx))).trans (hmark x hx).symm
    refine ⟨hct, List.forall_mem_cons.mpr ⟨?_, fun x hx => ?_⟩, fun a ha => ?_⟩
    · obtain ⟨hb, hpo⟩ := hout (addr e) he
      exact ⟨hb.trans ((setByte_byte hc _ _ _ _).trans (if_pos rfl)), (poisoned_of_count_eq hpo).trans (setByte_poisoned_same s _ _ hpe)⟩
    · obtain ⟨hb, hpo⟩ := hin x hx
      exact ⟨hb, hpo.trans (hmark x hx)⟩
    · rw [List.map_cons, List.mem_cons, not_or] at ha
      obtain ⟨hb, hpo⟩ := hout a ha.2
      exact ⟨hb.trans ((setByte_byte hc _ _ _ _).trans (if_neg ha.1)), hpo.trans (setByte_count_other s _ _ ha.1)⟩

theorem foldl_setByte_rest {α : Type} (addr : α → Nat) (val : α → Byte) (mark : State → α → Bool) (l : List α) (s : State) :
    ∃ m p, l.foldl (fun (s : State) e => s.setByte (addr e) (val e) (mark s e)) s = { s with mem := m, poison := p } := by
  induction l generalizing s with
  | nil => exact ⟨_, _, rfl⟩
  | cons e rest ih =>
    obtain ⟨m, p, h⟩ := ih (s.setByte (addr e) (val e) (mark s e))
    exact ⟨m, p, h⟩

theorem leNat_bytes (v : Nat) (n i : Nat) : leNat (((List.range' i n).map fun j => BitVec.ofNat 8 (v / 2 ^ (8 * j)))) = v / 2 ^ (8 * i) % 2 ^ (8 * n) := by
  induction n generalizing i with
  | zero => simp [leNat, Nat.mod_one]
  | succ n ih =>
    rw [List.range'_succ, List.map_cons]
    change (BitVec.ofNat 8 (v / 2 ^ (8 * i))).toNat + 256 * leNat _ = _
    rw [ih, BitVec.toNat_ofNat, show 8 * (i + 1) = 8 * i + 8 by omega, Nat.pow_add, ← Nat.div_div_eq_div_mul, show 8 * (n + 1) = 8 + 8 * n by omega, Nat.pow_add, Nat.mod_mul]

/-! ### What a commit writes -/

theorem mergeAt_rest (s : State) (uid : Nat) (k : BitVec 32) (step : Nat) (pas : List Nat) :
    ∃ m p c l, s.mergeAt uid k step pas = { s with mem := m, poison := p, cur := c, nodes := l } := by
  obtain ⟨m, p, h⟩ := foldl_setByte_rest (fun e : Nat × Nat => e.1) (fun e => BitVec.ofNat 8 ((mergeScale (leNat (pas.map s.byte)) k step).1 / 2 ^ (8 * e.2)))
    (fun t e => t.poisoned e.1) pas.zipIdx s
  unfold State.mergeAt
  dsimp only
  split
  · obtain ⟨c, l, hm⟩ := mapNode_rest ({ s with mem := m, poison := p } : State) uid fun n => { n with run := { n.run with staleCensus := n.run.staleCensus + 1 } }
    exact ⟨m, p, c, l, by rw [h, hm]⟩
  · exact ⟨m, p, _, _, h⟩

theorem mergeScale_lt {home : Nat} (k : BitVec 32) {step : Nat} (hh : home < 2 ^ 64) (hs : step < 2 ^ 32) : (mergeScale home k step).1 < 2 ^ 64 := by
  obtain ⟨h, -⟩ := mergeScale_spec home k step
  omega

theorem mergeAt_spec {s : State} (hc : Canonical s) (uid : Nat) (k : BitVec 32) {step : Nat} (hs : step < 2 ^ 32) {pas : List Nat} (hl : pas.length = 8)
    (hp : ∀ a ∈ pas, s.poison.count a ≤ 1) (hd : pas.Nodup) :
    let t := s.mergeAt uid k step pas
    Canonical t ∧ leNat (pas.map t.byte) = (mergeScale (leNat (pas.map s.byte)) k step).1 ∧ (∀ a ∈ pas, t.poisoned a = s.poisoned a) ∧
      ∀ a, a ∉ pas → t.byte a = s.byte a ∧ t.poison.count a = s.poison.count a := by
  obtain ⟨v, hv⟩ : ∃ v, (mergeScale (leNat (pas.map s.byte)) k step).1 = v := ⟨_, rfl⟩
  have hlt : v < 2 ^ 64 := hv ▸ mergeScale_lt k (by have := leNat_lt (pas.map s.byte); rwa [List.length_map, hl] at this) hs
  have hmap : pas.zipIdx.map (fun e : Nat × Nat => e.1) = pas := List.zipIdx_map_fst 0 pas
  obtain ⟨hct, hin, hout⟩ := foldl_setByte_spec (fun e : Nat × Nat => e.1) (fun e => BitVec.ofNat 8 (v / 2 ^ (8 * e.2))) (fun t e => t.poisoned e.1) pas.zipIdx hc
    (fun e he => hp e.1 (by rw [← hmap]; exact List.mem_map_of_mem he)) (hmap.symm ▸ hd : (pas.zipIdx.map fun e : Nat × Nat => e.1).Nodup) fun e _ t ht => poisoned_of_count_eq ht
  rw [hmap] at hout
  obtain ⟨u, hu⟩ : ∃ u, pas.zipIdx.foldl (fun (s : State) (e : Nat × Nat) => s.setByte e.1 (BitVec.ofNat 8 (v / 2 ^ (8 * e.2))) (s.poisoned e.1)) s = u := ⟨_, rfl⟩
  rw [hu] at hct hin hout
  obtain ⟨hmem, hpoi⟩ : (s.mergeAt uid k step pas).mem = u.mem ∧ (s.mergeAt uid k step pas).poison = u.poison := by
    unfold State.mergeAt
    dsimp only
    rw [hv, hu]
    split
    · obtain ⟨c, l, hm⟩ := mapNode_rest u uid fun n => { n with run := { n.run with staleCensus := n.run.staleCensus + 1 } }
      rw [hm]
      exact ⟨rfl, rfl⟩
    · exact ⟨rfl, rfl⟩
  have hbyte (a : Nat) : (s.mergeAt uid k step pas).byte a = u.byte a := congrArg (memGet · a) hmem
  have hpoisoned (a : Nat) : (s.mergeAt uid k step pas).poisoned a = u.poisoned a := congrArg (List.contains · a) hpoi
  refine ⟨(congrArg Memory.wf hmem).trans hct, ?_, fun a ha => ?_, fun a ha => ?_⟩
  · have hbytes : pas.map (s.mergeAt uid k step pas).byte = (List.range' 0 pas.length).map fun j => BitVec.ofNat 8 (v / 2 ^ (8 * j)) :=
      calc pas.map (s.mergeAt uid k step pas).byte
        _ = pas.zipIdx.map fun e => (s.mergeAt uid k step pas).byte e.1 := (congrArg (List.map (s.mergeAt uid k step pas).byte) hmap.symm).trans List.map_map
        _ = pas.zipIdx.map fun e => BitVec.ofNat 8 (v / 2 ^ (8 * e.2)) := List.map_congr_left fun e he => (hbyte e.1).trans (hin e he).1
        _ = _ := by rw [← List.zipIdx_map_snd 0 pas, List.map_map]; rfl
    rw [hbytes, leNat_bytes, hv, hl]
    omega
  · obtain ⟨e, he, rfl⟩ : ∃ e ∈ pas.zipIdx, e.1 = a := by
      rw [← hmap] at ha
      exact List.mem_map.mp ha
    exact (hpoisoned _).trans (hin e he).2
  · obtain ⟨hb, hpo⟩ := hout a ha
    exact ⟨(hbyte a).trans hb, hpoi ▸ hpo⟩

theorem merges_rest (uid : Nat) (k : Nat → BitVec 32) (step : Nat) (l : List (Nat × List Nat)) (s : State) :
    ∃ m p c n, l.foldl (fun (s : State) e => s.mergeAt uid (k e.1) step e.2) s = { s with mem := m, poison := p, cur := c, nodes := n } := by
  induction l generalizing s with
  | nil => exact ⟨_, _, _, _, rfl⟩
  | cons e rest ih =>
    obtain ⟨_, _, _, _, he⟩ := mergeAt_rest s uid (k e.1) step e.2
    obtain ⟨m, p, c, n, h⟩ := ih (s.mergeAt uid (k e.1) step e.2)
    exact ⟨m, p, c, n, h.trans (by rw [he])⟩

theorem merges_spec (uid : Nat) (k : Nat → BitVec 32) {step : Nat} (hs : step < 2 ^ 32) (l : List (Nat × List Nat)) {s : State} (hc : Canonical s)
    (hl : ∀ e ∈ l, e.2.length = 8) (hp : ∀ a ∈ l.flatMap fun e => e.2, s.poison.count a ≤ 1) (hd : (l.flatMap fun e => e.2).Nodup) :
    let t := l.foldl (fun (s : State) e => s.mergeAt uid (k e.1) step e.2) s
    Canonical t ∧ (∀ e ∈ l, leNat (e.2.map t.byte) = (mergeScale (leNat (e.2.map s.byte)) (k e.1) step).1 ∧ ∀ a ∈ e.2, t.poisoned a = s.poisoned a) ∧
      ∀ a, a ∉ l.flatMap (fun e => e.2) → t.byte a = s.byte a ∧ t.poison.count a = s.poison.count a := by
  induction l generalizing s with
  | nil => exact ⟨hc, List.forall_mem_nil _, fun _ _ => ⟨rfl, rfl⟩⟩
  | cons e rest ih =>
    rw [List.flatMap_cons] at hp hd
    obtain ⟨hde, hdr, hdis⟩ := List.nodup_append.mp hd
    obtain ⟨hle, hlr⟩ := List.forall_mem_cons.mp hl
    obtain ⟨hct, hbytes, hmarks, hrest⟩ := mergeAt_spec hc uid (k e.1) hs hle (fun a ha => hp a (List.mem_append_left _ ha)) hde
    have away (a : Nat) (ha : a ∈ rest.flatMap fun e => e.2) : a ∉ e.2 := fun h => hdis a h a ha rfl
    obtain ⟨hct', hin, hout⟩ := ih hct hlr (fun a ha => (hrest a (away a ha)).2.trans_le (hp a (List.mem_append_right _ ha))) hdr
    refine ⟨hct', List.forall_mem_cons.mpr ⟨⟨?_, fun a ha => ?_⟩, fun x hx => ⟨?_, fun a ha => ?_⟩⟩, fun a ha => ?_⟩
    · refine Eq.trans (congrArg leNat (List.map_congr_left fun a ha => ?_)) hbytes
      exact (hout a fun h => away a h ha).1
    · exact (poisoned_of_count_eq (hout a fun h => away a h ha).2).trans (hmarks a ha)
    · refine (hin x hx).1.trans (congrArg (fun b => (mergeScale (leNat b) (k x.1) step).1) (List.map_congr_left fun a ha => ?_))
      exact (hrest a (away a (List.mem_flatMap_of_mem hx ha))).1
    · exact ((hin x hx).2 a ha).trans (poisoned_of_count_eq (hrest a (away a (List.mem_flatMap_of_mem hx ha))).2)
    · rw [List.flatMap_cons, List.mem_append, not_or] at ha
      exact ⟨(hout a ha.2).1.trans (hrest a ha.1).1, (hout a ha.2).2.trans (hrest a ha.1).2⟩

theorem applyStaged_rest (s : State) (uid : Nat) (b : Bytes) : ∃ m p k, s.applyStaged uid b = { s with mem := m, poison := p, cores := k } := by
  obtain ⟨m, p, h⟩ := foldl_setByte_rest (fun c : Host.Cell => c.1) (fun c => c.2) (fun _ c => b.poison.contains c.1) b.cells s
  unfold State.applyStaged
  dsimp only
  rw [h]
  split
  · exact ⟨m, p, _, rfl⟩
  · obtain ⟨k, hk⟩ := countFor_rest ({ s with mem := m, poison := p } : State) uid "poisoned staged data"
    exact ⟨m, p, k, hk⟩

theorem applyStaged_coreOf {s : State} {uid : Nat} {c : Core} (h : s.coreOf uid = some c) (b : Bytes) : ∃ y, (s.applyStaged uid b).coreOf uid = some { c with tele := y } := by
  obtain ⟨m, p, hs⟩ := foldl_setByte_rest (fun c : Host.Cell => c.1) (fun c => c.2) (fun _ c => b.poison.contains c.1) b.cells s
  unfold State.applyStaged
  dsimp only
  rw [hs]
  split
  · exact ⟨c.tele, (coreOf_congr rfl uid).trans h⟩
  · exact countFor_coreOf (s := { s with mem := m, poison := p }) ((coreOf_congr rfl uid).trans h) _

theorem applyStaged_spec {s : State} (hc : Canonical s) (uid : Nat) {b : Bytes} (hp : ∀ c ∈ b.cells, s.poison.count c.1 ≤ 1) (hd : (b.cells.map fun c => c.1).Nodup) :
    let t := s.applyStaged uid b
    Canonical t ∧ (∀ c ∈ b.cells, t.byte c.1 = c.2 ∧ t.poisoned c.1 = b.poison.contains c.1) ∧
      ∀ a, a ∉ b.cells.map (fun c => c.1) → t.byte a = s.byte a ∧ t.poison.count a = s.poison.count a := by
  obtain ⟨hct, hin, hout⟩ := foldl_setByte_spec (fun c : Host.Cell => c.1) (fun c => c.2) (fun _ c => b.poison.contains c.1) b.cells hc hp hd fun _ _ _ _ => rfl
  unfold State.applyStaged
  dsimp only
  split
  · exact ⟨hct, hin, hout⟩
  · obtain ⟨k, hk⟩ := countFor_rest (b.cells.foldl (fun (s : State) c => s.setByte c.1 c.2 (b.poison.contains c.1)) s) uid "poisoned staged data"
    rw [hk]
    exact ⟨hct, hin, hout⟩

/-! ### The mark of a late raise, and the posted completion (R70, R71, R309) -/

theorem rd_lt_pow (s : State) (pa n : Nat) : s.rd pa n < 2 ^ (8 * n) := by
  induction n generalizing pa with
  | zero => exact Nat.one_pos
  | succ n ih =>
    have hb := (s.byte pa).isLt
    have hr := ih (pa + 1)
    have hpow : 2 ^ (8 * (n + 1)) = 256 * 2 ^ (8 * n) := by rw [Nat.mul_add, Nat.pow_add, Nat.mul_comm]
    rw [State.rd]
    omega

theorem rd_congr_bytes {s t : State} {pa n : Nat} (h : ∀ k < n, t.byte (pa + k) = s.byte (pa + k)) : t.rd pa n = s.rd pa n := by
  induction n generalizing pa with
  | zero => rfl
  | succ n ih =>
    rw [State.rd, State.rd, ih fun k hk => by rw [Nat.add_right_comm]; exact h (k + 1) (by omega)]
    rw [show t.byte pa = s.byte pa from h 0 (by omega)]

theorem wr_count_other (s : State) (v : Nat) {pa n a : Nat} (h : a < pa ∨ pa + n ≤ a) : (s.wr pa v n).poison.count a = s.poison.count a := by
  induction n generalizing s pa v with
  | zero => rfl
  | succ n ih =>
    rw [State.wr]
    exact (ih (s.setByte pa (BitVec.ofNat 8 v) false) (v / 256) (by omega)).trans (setByte_count_other s _ _ (by omega))

/-- The bytes of the status word that a commit writes where a raise of the node came late (R309). -/
def statusBytes (n : Node) : List Nat := if n.run.late = 0 then [] else (n.desc.jcb.map fun j => (List.range 4).map fun i => jcbPA j + 8 + i).getD []

/-- The posted completion of a node, unless JCB.DONE has posted it (R70, R71). -/
def postedBy (n : Node) (uid : Nat) : List JcbPost :=
  match n.desc.jcb with
  | none => []
  | some j => if n.desc.image.unstg = true ∧ n.run.doneIssued = true then [] else [{ uid := uid, queue := n.desc.queue, jcb := j, fail := none }]

/-- The block of a node marked LATE where a raise came late, and its completion posted. -/
def commitNoted (n : Node) (uid : Nat) (t : State) : State :=
  match n.desc.jcb with
  | none => t
  | some j =>
    let s := if n.run.late = 0 then t else t.jcbOr j 4
    if n.desc.image.unstg && n.run.doneIssued then s
    else { s with awl := { s.awl with posts := s.awl.posts ++ [{ uid := uid, queue := n.desc.queue, jcb := j, fail := none }] } }

theorem jcbOr_rest (t : State) (j : BitVec 12) (bits : Nat) : ∃ m p, t.jcbOr j bits = { t with mem := m, poison := p } := t.wr_fields _ _ _

theorem commitNoted_rest (n : Node) (uid : Nat) (t : State) : ∃ m p, commitNoted n uid t = { t with mem := m, poison := p, awl := { t.awl with posts := t.awl.posts ++ postedBy n uid } } := by
  unfold commitNoted postedBy
  cases n.desc.jcb with
  | none => exact ⟨_, _, by rw [List.append_nil]⟩
  | some j =>
    obtain ⟨m, p, hs⟩ : ∃ m p, (if n.run.late = 0 then t else t.jcbOr j 4) = { t with mem := m, poison := p } := by
      split
      · exact ⟨_, _, rfl⟩
      · exact jcbOr_rest t j 4
    dsimp only
    rw [hs]
    by_cases h : (n.desc.image.unstg && n.run.doneIssued) = true
    · rw [if_pos h, if_pos (by simpa using h)]
      exact ⟨m, p, by rw [List.append_nil]⟩
    · rw [if_neg h, if_neg (by simpa using h)]
      exact ⟨m, p, rfl⟩

theorem commitNoted_memory (n : Node) (uid : Nat) (t : State) {u : State} (hu : (match n.desc.jcb with
      | none => t
      | some j => if n.run.late = 0 then t else t.jcbOr j 4) = u) : (commitNoted n uid t).mem = u.mem ∧ (commitNoted n uid t).poison = u.poison := by
  subst hu
  unfold commitNoted
  cases n.desc.jcb with
  | none => exact ⟨rfl, rfl⟩
  | some j =>
    dsimp only
    split <;> exact ⟨rfl, rfl⟩

theorem commitNoted_spec (n : Node) (uid : Nat) {t : State} (hc : Canonical t) :
    (∀ j, n.desc.jcb = some j → n.run.late ≠ 0 → (commitNoted n uid t).rd (jcbPA j + 8) 4 = t.rd (jcbPA j + 8) 4 ||| 4) ∧
    ∀ a, a ∉ statusBytes n → (commitNoted n uid t).byte a = t.byte a ∧ (commitNoted n uid t).poison.count a = t.poison.count a := by
  obtain ⟨hm, hp⟩ := commitNoted_memory n uid t rfl
  have keep {u : State} (h : (commitNoted n uid t).mem = u.mem) (h' : (commitNoted n uid t).poison = u.poison) (a : Nat) (hu : u.byte a = t.byte a ∧ u.poison.count a = t.poison.count a) :
      (commitNoted n uid t).byte a = t.byte a ∧ (commitNoted n uid t).poison.count a = t.poison.count a := ⟨(congrArg (memGet · a) h).trans hu.1, h' ▸ hu.2⟩
  unfold statusBytes
  cases hj : n.desc.jcb with
  | none =>
    rw [hj] at hm hp
    exact ⟨fun _ h => (nomatch h), fun a _ => keep hm hp a ⟨rfl, rfl⟩⟩
  | some j =>
    rw [hj] at hm hp
    by_cases hl : n.run.late = 0
    · dsimp only at hm hp
      rw [if_pos hl] at hm hp
      exact ⟨fun _ _ h => absurd hl h, fun a _ => keep hm hp a ⟨rfl, rfl⟩⟩
    · dsimp only at hm hp
      rw [if_neg hl] at hm hp ⊢
      have hlt := rd_lt_pow t (jcbPA j + 8) 4
      constructor
      · intro j' hj' _
        obtain rfl := Option.some.inj hj'
        rw [rd_congr hm]
        have hread : (t.jcbOr j 4).rd (jcbPA j + 8) 4 = (t.rd (jcbPA j + 8) 4 ||| 4) % 2 ^ (8 * 4) := rd_of_bytes fun k hk => by
          rw [State.jcbOr, wr_byte hc, if_pos (by omega), Nat.add_sub_cancel_left]
        exact hread.trans (Nat.mod_eq_of_lt (Nat.or_lt_two_pow hlt (by decide)))
      · intro a ha
        have hout : a < jcbPA j + 8 ∨ jcbPA j + 8 + 4 ≤ a := by
          by_contra hin
          refine ha (List.mem_map.mpr ⟨a - (jcbPA j + 8), List.mem_range.mpr (by omega), by omega⟩)
        refine keep hm hp a ⟨?_, wr_count_other t _ hout⟩
        rw [State.jcbOr, wr_byte hc, if_neg (by omega)]

/-! ### Successors (R64, R66, R70, R72) -/

theorem node_uid (s : State) (u : Nat) : (s.node u).desc.uid = u ∨ (s.node u).desc.uid = 0 := by
  by_cases h : u = s.cur.desc.uid
  · rw [node_of_cur h]
    exact .inl h.symm
  · rw [node_of_list h]
    cases hf : s.nodes.find? (fun n => n.desc.uid == u) with
    | none => exact .inr rfl
    | some n => exact .inl (eq_of_beq (List.find?_some hf :))

/-- No node may become READY of a graph that has failed, but for those that run on (R72). -/
def barredBy (s : State) (m : Node) (v : Nat) : Bool := s.awl.graphs.any fun e => e.id == m.desc.graph && e.failed.isSome && !e.live.contains v

theorem barredBy_iff {s : State} {m : Node} {v : Nat} : barredBy s m v = true ↔ ∃ e ∈ s.awl.graphs, e.id = m.desc.graph ∧ e.failed ≠ none ∧ v ∉ e.live := by
  unfold barredBy
  rw [List.any_eq_true]
  refine exists_congr fun e => and_congr_right fun _ => ?_
  simp [and_assoc, Option.isSome_iff_ne_none]

theorem decrement_rest (s : State) (v : Nat) : ∃ c l, s.decrement v = { s with cur := c, nodes := l } := by
  unfold State.decrement
  dsimp only
  split
  · exact ⟨_, _, rfl⟩
  · split <;> exact setNode_rest s _

theorem decrement_node_other (s : State) (v : Nat) {w : Nat} (hw : w ≠ v) (h0 : w ≠ 0) : (s.decrement v).node w = s.node w := by
  have hne {m : Node} (hm : m.desc.uid = (s.node v).desc.uid) : w ≠ m.desc.uid := by
    rcases node_uid s v with h | h <;> rw [hm, h] <;> assumption
  unfold State.decrement
  dsimp only
  split
  · rfl
  · split <;> exact setNode_node_other s _ (hne rfl)

theorem decrement_node_same {s : State} {v : Nat} (hv : (s.node v).desc.uid = v) (h0 : v ≠ 0) :
    ((s.node v).run.st = .waiting → (s.node v).run.remaining ≤ 1 → barredBy s (s.node v) v = false →
      ((s.decrement v).node v).run = { (s.node v).run with st := .ready, remaining := 0 }) ∧
    ((s.node v).run.st ≠ .waiting ∨ 1 < (s.node v).run.remaining ∨ barredBy s (s.node v) v = true →
      ((s.decrement v).node v).run = { (s.node v).run with remaining := (s.node v).run.remaining - 1 }) := by
  unfold State.decrement
  dsimp only
  constructor
  · intro hw hr hb
    rw [if_neg (fun h => h.1 hw), if_pos ⟨hw, by omega, by rw [show List.any _ _ = false from hb]; rfl⟩]
    refine congrArg Node.run (setNode_node_same s ?_ h0)
    exact hv
  · intro h
    by_cases h1 : (s.node v).run.st ≠ .waiting ∧ (s.node v).run.remaining = 0
    · rw [if_pos h1]
      exact congrArg (fun r => ({ (s.node v).run with remaining := r } : Run)) (by omega : (s.node v).run.remaining = (s.node v).run.remaining - 1)
    · rw [if_neg h1, if_neg]
      · refine congrArg Node.run (setNode_node_same s ?_ h0)
        exact hv
      rintro ⟨hw, hr, hb⟩
      have hb' : barredBy s (s.node v) v = false := (Bool.not_eq_true' _).mp hb
      rcases h with h | h | h
      · exact h hw
      · omega
      · rw [hb'] at h
        exact nomatch h

theorem countDown_rest (l : List Nat) (s : State) : ∃ c n, s.countDown l = { s with cur := c, nodes := n } := by
  induction l generalizing s with
  | nil => exact ⟨_, _, rfl⟩
  | cons v rest ih =>
    obtain ⟨_, _, hd⟩ := decrement_rest s v
    obtain ⟨c, n, h⟩ := ih (s.decrement v)
    exact ⟨c, n, h.trans (by rw [hd])⟩

theorem countDown_node_other {l : List Nat} (s : State) {w : Nat} (hw : w ∉ l) (h0 : w ≠ 0) : (s.countDown l).node w = s.node w := by
  induction l generalizing s with
  | nil => rfl
  | cons v rest ih =>
    rw [List.mem_cons, not_or] at hw
    exact (ih (s.decrement v) hw.2).trans (decrement_node_other s v hw.1 h0)

/-- A successor that is named once is counted down once. -/
theorem countDown_node_once {l : List Nat} {s : State} {v : Nat} (hv : l.count v = 1) (h0 : v ≠ 0) :
    ∃ t : State, t.node v = s.node v ∧ t.awl = s.awl ∧ (s.countDown l).node v = (t.decrement v).node v := by
  induction l generalizing s with
  | nil => exact nomatch hv
  | cons w rest ih =>
    by_cases hw : w = v
    · subst hw
      rw [List.count_cons_self] at hv
      exact ⟨s, rfl, rfl, countDown_node_other (s.decrement w) (List.count_eq_zero.mp (by omega)) h0⟩
    · rw [List.count_cons_of_ne hw] at hv
      obtain ⟨t, hn, ha, hd⟩ := ih (s := s.decrement w) hv
      obtain ⟨_, _, hr⟩ := decrement_rest s w
      exact ⟨t, hn.trans (decrement_node_other s w (Ne.symm hw) h0), ha.trans (by rw [hr]), hd⟩

/-! ### The commit, part by part -/

/-- The staged bytes and the merged records of a node at their homes. -/
def commitBytes (s : State) (uid : Nat) : State :=
  ((s.node uid).run.committing.getD (s.mergePAs (s.node uid))).foldl
    (fun (t : State) e => t.mergeAt uid ((s.node uid).closeAll.k[e.1]?.getD 0) (s.node uid).ctl.step.toNat e.2) (s.applyStaged uid (s.node uid).run.staged)

/-- What a commit has done when the counts of its core stand. -/
def commitCounted (s : State) (uid : Nat) : State :=
  let t := (commitNoted (s.node uid) uid (commitBytes s uid)).countMany uid "refused raises at commit" (s.node uid).run.refused
  t.countMany uid "stale census merges at commit" (t.node uid).run.staleCensus

/-- The state in which the run of a node that commits ends: its successors have been counted down. -/
def commitCountedDown (s : State) (uid : Nat) : State := ((commitCounted s uid).countDown (s.node uid).desc.succs).nextReady

/-- What a commit leaves before the node's pair is dropped. -/
def commitEnded (s : State) (uid : Nat) : State :=
  ((commitCountedDown s uid).endRun uid .committed 0 none).mapNode uid fun n => { n with run := { n.run with compareRollbacks := 0 } }

theorem commit_eq (s : State) (uid : Nat) : s.commit uid = (commitEnded s uid).unsplice uid := rfl

theorem commitBytes_rest (s : State) (uid : Nat) : ∃ m p c n k, commitBytes s uid = { s with mem := m, poison := p, cur := c, nodes := n, cores := k } := by
  obtain ⟨_, _, k, ha⟩ := applyStaged_rest s uid (s.node uid).run.staged
  obtain ⟨m, p, c, n, h⟩ := merges_rest uid (fun i => (s.node uid).closeAll.k[i]?.getD 0) (s.node uid).ctl.step.toNat
    ((s.node uid).run.committing.getD (s.mergePAs (s.node uid))) (s.applyStaged uid (s.node uid).run.staged)
  exact ⟨m, p, c, n, k, h.trans (by rw [ha])⟩

theorem commitCounted_rest (s : State) (uid : Nat) : ∃ c n k, commitCounted s uid = { s with
    mem := (commitNoted (s.node uid) uid (commitBytes s uid)).mem, poison := (commitNoted (s.node uid) uid (commitBytes s uid)).poison, cur := c, nodes := n, cores := k,
    awl := { s.awl with posts := s.awl.posts ++ postedBy (s.node uid) uid } } := by
  obtain ⟨_, _, c, n, _, hb⟩ := commitBytes_rest s uid
  obtain ⟨_, _, hn⟩ := commitNoted_rest (s.node uid) uid (commitBytes s uid)
  unfold commitCounted
  dsimp only
  obtain ⟨_, h1⟩ := countMany_rest (commitNoted (s.node uid) uid (commitBytes s uid)) uid "refused raises at commit" (s.node uid).run.refused
  obtain ⟨k, h2⟩ := countMany_rest ((commitNoted (s.node uid) uid (commitBytes s uid)).countMany uid "refused raises at commit" (s.node uid).run.refused) uid
    "stale census merges at commit" (((commitNoted (s.node uid) uid (commitBytes s uid)).countMany uid "refused raises at commit" (s.node uid).run.refused).node uid).run.staleCensus
  refine ⟨c, n, k, ?_⟩
  rw [h2, h1, hn, hb]

theorem commitEnded_rest (s : State) (uid : Nat) : ∃ c n k d a, commitEnded s uid = { s with
    mem := (commitNoted (s.node uid) uid (commitBytes s uid)).mem, poison := (commitNoted (s.node uid) uid (commitBytes s uid)).poison, cur := c, nodes := n, cores := k,
    dist := d, awl := { s.awl with posts := s.awl.posts ++ postedBy (s.node uid) uid, readySeq := a } } := by
  obtain ⟨_, _, _, hc⟩ := commitCounted_rest s uid
  obtain ⟨_, _, hd⟩ := countDown_rest (s.node uid).desc.succs (commitCounted s uid)
  obtain ⟨_, _, k, d, a, he, -⟩ := endRun_rest (commitCountedDown s uid) uid .committed 0 none
  obtain ⟨c, n, hm⟩ := mapNode_rest ((commitCountedDown s uid).endRun uid .committed 0 none) uid
    fun n => { n with run := { n.run with compareRollbacks := 0 } }
  refine ⟨c, n, k, d, a, hm.trans ?_⟩
  rw [he, commitCountedDown, State.nextReady, hd, hc]

theorem commit_mem (s : State) (uid : Nat) : (s.commit uid).mem = (commitNoted (s.node uid) uid (commitBytes s uid)).mem ∧
    (s.commit uid).poison = (commitNoted (s.node uid) uid (commitBytes s uid)).poison := by
  obtain ⟨_, _, _, _, _, he⟩ := commitEnded_rest s uid
  obtain ⟨_, hu⟩ := unsplice_rest (commitEnded s uid) uid
  rw [commit_eq, hu, he]
  exact ⟨rfl, rfl⟩

theorem commit_posts (s : State) (uid : Nat) : (s.commit uid).awl.posts = s.awl.posts ++ postedBy (s.node uid) uid := by
  obtain ⟨_, _, _, _, _, he⟩ := commitEnded_rest s uid
  obtain ⟨_, hu⟩ := unsplice_rest (commitEnded s uid) uid
  rw [commit_eq, hu, he]

section
variable {s : State} {uid : Nat}

/-- Memory after a commit (R43, R70, R309): the staged bytes, the merged records, the marked status word, and else what it held. -/
theorem commit_memory (hc : Canonical s) (hp : s.poison.Nodup)
    (hd : ((s.node uid).run.staged.cells.map (fun c => c.1) ++ ((s.node uid).run.committing.getD (s.mergePAs (s.node uid))).flatMap (fun e => e.2) ++ statusBytes (s.node uid)).Nodup)
    (hl : ∀ e ∈ (s.node uid).run.committing.getD (s.mergePAs (s.node uid)), e.2.length = 8) :
    (∀ c ∈ (s.node uid).run.staged.cells, (s.commit uid).byte c.1 = c.2 ∧ (s.commit uid).poisoned c.1 = (s.node uid).run.staged.poison.contains c.1) ∧
    (∀ e ∈ (s.node uid).run.committing.getD (s.mergePAs (s.node uid)),
      leNat (e.2.map (s.commit uid).byte) = (mergeScale (leNat (e.2.map s.byte)) (((s.node uid).closeAll.k[e.1]?).getD 0) (s.node uid).ctl.step.toNat).1 ∧
        ∀ a ∈ e.2, (s.commit uid).poisoned a = s.poisoned a) ∧
    (∀ j, (s.node uid).desc.jcb = some j → (s.node uid).run.late ≠ 0 → (s.commit uid).rd (jcbPA j + 8) 4 = s.rd (jcbPA j + 8) 4 ||| 4) ∧
    ∀ a, a ∉ (s.node uid).run.staged.cells.map (fun c => c.1) ++ ((s.node uid).run.committing.getD (s.mergePAs (s.node uid))).flatMap (fun e => e.2) ++ statusBytes (s.node uid) →
      (s.commit uid).byte a = s.byte a ∧ (s.commit uid).poisoned a = s.poisoned a := by
  have hone (a : Nat) : s.poison.count a ≤ 1 := List.nodup_iff_count_le_one.mp hp a
  obtain ⟨hd', -, hdstat⟩ := List.nodup_append.mp hd
  obtain ⟨hdst, hdhome, hdis⟩ := List.nodup_append.mp hd'
  obtain ⟨hca, hina, houta⟩ := applyStaged_spec hc uid (b := (s.node uid).run.staged) (fun c _ => hone c.1) hdst
  have hnotst (a : Nat) (ha : a ∈ ((s.node uid).run.committing.getD (s.mergePAs (s.node uid))).flatMap fun e => e.2) : a ∉ (s.node uid).run.staged.cells.map fun c => c.1 :=
    fun h => hdis a h a ha rfl
  obtain ⟨hcb, hinb, houtb⟩ : Canonical (commitBytes s uid) ∧ (∀ e ∈ (s.node uid).run.committing.getD (s.mergePAs (s.node uid)),
      leNat (e.2.map (commitBytes s uid).byte) = (mergeScale (leNat (e.2.map (s.applyStaged uid (s.node uid).run.staged).byte)) (((s.node uid).closeAll.k[e.1]?).getD 0)
        (s.node uid).ctl.step.toNat).1 ∧ ∀ a ∈ e.2, (commitBytes s uid).poisoned a = (s.applyStaged uid (s.node uid).run.staged).poisoned a) ∧
      ∀ a, a ∉ ((s.node uid).run.committing.getD (s.mergePAs (s.node uid))).flatMap (fun e : Nat × List Nat => e.2) →
        (commitBytes s uid).byte a = (s.applyStaged uid (s.node uid).run.staged).byte a ∧
        (commitBytes s uid).poison.count a = (s.applyStaged uid (s.node uid).run.staged).poison.count a := merges_spec uid (fun i => (s.node uid).closeAll.k[i]?.getD 0) (s.node uid).ctl.step.isLt
    ((s.node uid).run.committing.getD (s.mergePAs (s.node uid))) hca hl (fun a ha => (houta a (hnotst a ha)).2.trans_le (hone a)) hdhome
  obtain ⟨hstat, houtn⟩ := commitNoted_spec (s.node uid) uid hcb
  obtain ⟨hm, hpo⟩ := commit_mem s uid
  have final (a : Nat) (ha : a ∉ statusBytes (s.node uid)) : (s.commit uid).byte a = (commitBytes s uid).byte a ∧ (s.commit uid).poison.count a = (commitBytes s uid).poison.count a :=
    ⟨(congrArg (memGet · a) hm).trans (houtn a ha).1, (congrArg (List.count a) hpo).trans (houtn a ha).2⟩
  refine ⟨fun c hcm => ?_, fun e he => ?_, fun j hj hlate => ?_, fun a ha => ?_⟩
  · have hst : c.1 ∈ (s.node uid).run.staged.cells.map fun c => c.1 := List.mem_map_of_mem hcm
    have h1 := final c.1 fun h => hdstat c.1 (List.mem_append_left _ hst) c.1 h rfl
    have h2 := houtb c.1 fun h => hdis c.1 hst c.1 h rfl
    exact ⟨(h1.1.trans h2.1).trans (hina c hcm).1, (poisoned_of_count_eq (h1.2.trans h2.2)).trans (hina c hcm).2⟩
  · have hhome (a : Nat) (ha : a ∈ e.2) : a ∈ ((s.node uid).run.committing.getD (s.mergePAs (s.node uid))).flatMap fun e => e.2 := List.mem_flatMap_of_mem he ha
    have h1 (a : Nat) (ha : a ∈ e.2) := final a fun h => hdstat a (List.mem_append_right _ (hhome a ha)) a h rfl
    have h2 (a : Nat) (ha : a ∈ e.2) := houta a (hnotst a (hhome a ha))
    obtain ⟨hle, hpe⟩ := hinb e he
    refine ⟨(congrArg leNat (List.map_congr_left fun a ha => (h1 a ha).1)).trans (hle.trans ?_), fun a ha => ?_⟩
    · exact congrArg (fun b => (mergeScale (leNat b) _ _).1) (List.map_congr_left fun a ha => (h2 a ha).1)
    · exact (poisoned_of_count_eq (h1 a ha).2).trans ((hpe a ha).trans (poisoned_of_count_eq (h2 a ha).2))
  · refine (rd_congr hm _ _).trans ((hstat j hj hlate).trans (congrArg (· ||| 4) (rd_congr_bytes fun k hk => ?_)))
    have hst : jcbPA j + 8 + k ∈ statusBytes (s.node uid) := by
      unfold statusBytes
      rw [if_neg hlate, hj]
      exact List.mem_map_of_mem (f := fun i => jcbPA j + 8 + i) (List.mem_range.mpr hk)
    have h1 : jcbPA j + 8 + k ∉ (s.node uid).run.staged.cells.map fun c => c.1 := fun h => hdstat _ (List.mem_append_left _ h) _ hst rfl
    have h2 : jcbPA j + 8 + k ∉ ((s.node uid).run.committing.getD (s.mergePAs (s.node uid))).flatMap fun e => e.2 := fun h => hdstat _ (List.mem_append_right _ h) _ hst rfl
    exact (houtb _ h2).1.trans (houta _ h1).1
  · simp only [List.mem_append, not_or] at ha
    obtain ⟨⟨ha1, ha2⟩, ha3⟩ := ha
    have h1 := final a ha3
    have h2 := houtb a ha2
    have h3 := houta a ha1
    exact ⟨(h1.1.trans h2.1).trans h3.1, poisoned_of_count_eq ((h1.2.trans h2.2).trans h3.2)⟩

end

/-! ### Nodes and cores after a commit -/

theorem mergeAt_node {s : State} {uid : Nat} (hu : (s.node uid).desc.uid = uid) (h0 : uid ≠ 0) (k : BitVec 32) (step : Nat) (pas : List Nat) :
    (∃ x, (s.mergeAt uid k step pas).node uid = { s.node uid with run := { (s.node uid).run with staleCensus := x } }) ∧
    ∀ v, v ≠ uid → (s.mergeAt uid k step pas).node v = s.node v := by
  obtain ⟨m, p, h⟩ := foldl_setByte_rest (fun e : Nat × Nat => e.1) (fun e => BitVec.ofNat 8 ((mergeScale (leNat (pas.map s.byte)) k step).1 / 2 ^ (8 * e.2)))
    (fun t e => t.poisoned e.1) pas.zipIdx s
  have hkeep (v : Nat) : ({ s with mem := m, poison := p } : State).node v = s.node v := node_congr rfl rfl v
  unfold State.mergeAt
  dsimp only
  rw [h]
  split
  · refine ⟨⟨(s.node uid).run.staleCensus + 1, ?_⟩, fun v hv => ?_⟩
    · rw [mapNode_node_same _ _ (by rw [hkeep]; exact hu) h0, hkeep]
    · rw [mapNode_node_other _ _ (by rw [hkeep]; exact hu) hv, hkeep]
  · exact ⟨⟨(s.node uid).run.staleCensus, hkeep uid⟩, fun v _ => hkeep v⟩

theorem merges_node {uid : Nat} (h0 : uid ≠ 0) (k : Nat → BitVec 32) (step : Nat) (l : List (Nat × List Nat)) {s : State} (hu : (s.node uid).desc.uid = uid) :
    (∃ x, (l.foldl (fun (s : State) e => s.mergeAt uid (k e.1) step e.2) s).node uid = { s.node uid with run := { (s.node uid).run with staleCensus := x } }) ∧
    ∀ v, v ≠ uid → (l.foldl (fun (s : State) e => s.mergeAt uid (k e.1) step e.2) s).node v = s.node v := by
  induction l generalizing s with
  | nil => exact ⟨⟨(s.node uid).run.staleCensus, rfl⟩, fun _ _ => rfl⟩
  | cons e rest ih =>
    obtain ⟨⟨x, hx⟩, hother⟩ := mergeAt_node hu h0 (k e.1) step e.2
    obtain ⟨⟨y, hy⟩, hrest⟩ := ih (s := s.mergeAt uid (k e.1) step e.2) (by rw [hx]; exact hu)
    refine ⟨⟨y, ?_⟩, fun v hv => (hrest v hv).trans (hother v hv)⟩
    rw [hx] at hy
    exact hy

section
variable {s : State} {uid : Nat}

theorem commitCounted_node (hu : (s.node uid).desc.uid = uid) (h0 : uid ≠ 0) :
    (∃ x, (commitCounted s uid).node uid = { s.node uid with run := { (s.node uid).run with staleCensus := x } }) ∧ ∀ v, v ≠ uid → (commitCounted s uid).node v = s.node v := by
  obtain ⟨_, _, _, ha⟩ := applyStaged_rest s uid (s.node uid).run.staged
  have hna (v : Nat) : (s.applyStaged uid (s.node uid).run.staged).node v = s.node v := node_congr (by rw [ha]) (by rw [ha]) v
  obtain ⟨⟨x, hx⟩, hother⟩ := merges_node h0 (fun i => (s.node uid).closeAll.k[i]?.getD 0) (s.node uid).ctl.step.toNat
    ((s.node uid).run.committing.getD (s.mergePAs (s.node uid))) (s := s.applyStaged uid (s.node uid).run.staged) (by rw [hna]; exact hu)
  obtain ⟨_, _, hn⟩ := commitNoted_rest (s.node uid) uid (commitBytes s uid)
  obtain ⟨_, h1⟩ := countMany_rest (commitNoted (s.node uid) uid (commitBytes s uid)) uid "refused raises at commit" (s.node uid).run.refused
  obtain ⟨_, h2⟩ := countMany_rest ((commitNoted (s.node uid) uid (commitBytes s uid)).countMany uid "refused raises at commit" (s.node uid).run.refused) uid
    "stale census merges at commit" (((commitNoted (s.node uid) uid (commitBytes s uid)).countMany uid "refused raises at commit" (s.node uid).run.refused).node uid).run.staleCensus
  have hkeep (v : Nat) : (commitCounted s uid).node v = (commitBytes s uid).node v := by
    unfold commitCounted
    dsimp only
    rw [h2]
    exact (node_congr (s := commitBytes s uid) (by rw [h1, hn]) (by rw [h1, hn]) v)
  refine ⟨⟨x, (hkeep uid).trans (hx.trans (by rw [hna]))⟩, fun v hv => (hkeep v).trans ((hother v hv).trans (hna v))⟩

theorem commitCounted_coreOf {c : Core} (h : s.coreOf uid = some c) : ∃ y, (commitCounted s uid).coreOf uid = some { c with tele := y } := by
  obtain ⟨y, hy⟩ := applyStaged_coreOf h (s.node uid).run.staged
  obtain ⟨_, _, _, _, hm⟩ := merges_rest uid (fun i => (s.node uid).closeAll.k[i]?.getD 0) (s.node uid).ctl.step.toNat
    ((s.node uid).run.committing.getD (s.mergePAs (s.node uid))) (s.applyStaged uid (s.node uid).run.staged)
  obtain ⟨_, _, hn⟩ := commitNoted_rest (s.node uid) uid (commitBytes s uid)
  have hb : (commitNoted (s.node uid) uid (commitBytes s uid)).coreOf uid = some { c with tele := y } := by
    refine (coreOf_congr (s := commitBytes s uid) (by rw [hn]) uid).trans ((coreOf_congr (s := s.applyStaged uid (s.node uid).run.staged) ?_ uid).trans hy)
    unfold commitBytes
    rw [hm]
  obtain ⟨z, hz⟩ := countMany_coreOf hb "refused raises at commit" (s.node uid).run.refused
  obtain ⟨w, hw⟩ := countMany_coreOf hz "stale census merges at commit"
    (((commitNoted (s.node uid) uid (commitBytes s uid)).countMany uid "refused raises at commit" (s.node uid).run.refused).node uid).run.staleCensus
  exact ⟨w, hw⟩

theorem commit_core (h0 : uid ≠ 0) {c : Core} (h : s.coreOf uid = some c) : ((s.commit uid).core c.idx).slots = c.slots.map (fun u => if u = uid then 0 else u) ∧
    ((s.commit uid).core c.idx).units = c.units.map fun u => if u = uid then 0 else u := by
  obtain ⟨y, hy⟩ := commitCounted_coreOf h
  obtain ⟨_, _, hd⟩ := countDown_rest (s.node uid).desc.succs (commitCounted s uid)
  have hseat : (commitCountedDown s uid).coreOf uid = some { c with tele := y } := (coreOf_congr (by unfold commitCountedDown; rw [hd]; rfl) uid).trans hy
  have hcore := endRun_core .committed 0 none hseat
  obtain ⟨_, _, hm⟩ := mapNode_rest ((commitCountedDown s uid).endRun uid .committed 0 none) uid fun n => { n with run := { n.run with compareRollbacks := 0 } }
  have : (s.commit uid).core c.idx = (coreWithout { c with tele := y } uid).dropPair uid := by
    rw [commit_eq, unsplice_core _ h0]
    refine congrArg (Core.dropPair · uid) ((core_congr ?_ _).trans hcore)
    unfold commitEnded
    rw [hm]
  rw [this]
  exact ⟨rfl, rfl⟩

variable (hu : (s.node uid).desc.uid = uid) (h0 : uid ≠ 0) (hs : uid ∉ (s.node uid).desc.succs)
include hu h0 hs

theorem commitCountedDown_own : ∃ x, (commitCountedDown s uid).node uid = { s.node uid with run := { (s.node uid).run with staleCensus := x } } := by
  obtain ⟨⟨x, hx⟩, -⟩ := commitCounted_node hu h0
  exact ⟨x, (node_congr rfl rfl uid).trans ((countDown_node_other _ hs h0).trans hx)⟩

theorem commitCountedDown_uid : ((commitCountedDown s uid).node uid).desc.uid = uid := by
  obtain ⟨x, hx⟩ := commitCountedDown_own hu h0 hs
  rw [hx]
  exact hu

theorem endRun_commit_own : ∃ x, (((commitCountedDown s uid).endRun uid .committed 0 none).node uid) =
    endedNode { s.node uid with run := { (s.node uid).run with staleCensus := x } } .committed 0 none := by
  obtain ⟨x, hx⟩ := commitCountedDown_own hu h0 hs
  obtain ⟨k, hk, hst⟩ := endRun_node_same .committed 0 none (commitCountedDown_uid hu h0 hs) h0
  have hk' := hst (by decide)
  rw [hx] at hk hk'
  exact ⟨x, hk.trans (by rw [hk']; rfl)⟩

theorem commit_node_other {v : Nat} (hv : v ≠ uid) (hv0 : v ≠ 0) : (s.commit uid).node v = (commitCountedDown s uid).node v := by
  obtain ⟨x, hx⟩ := endRun_commit_own hu h0 hs
  rw [commit_eq, unsplice_node]
  exact (mapNode_node_other _ _ ((congrArg (fun n : Node => n.desc.uid) hx).trans hu) hv).trans (endRun_node_other _ _ _ (commitCountedDown_uid hu h0 hs) h0 hv hv0)

theorem commit_node_same : ∃ x, (s.commit uid).node uid =
    let e := endedNode { s.node uid with run := { (s.node uid).run with staleCensus := x } } .committed 0 none
    { e with run := { e.run with compareRollbacks := 0 } } := by
  obtain ⟨x, hx⟩ := endRun_commit_own hu h0 hs
  refine ⟨x, ?_⟩
  rw [commit_eq, unsplice_node]
  refine (mapNode_node_same _ _ ((congrArg (fun n : Node => n.desc.uid) hx).trans hu) h0).trans ?_
  exact congrArg (fun n : Node => { n with run := { n.run with compareRollbacks := 0 } }) hx

theorem commit_successor {v : Nat} (hv : v ∈ (s.node uid).desc.succs) (hone : (s.node uid).desc.succs.count v = 1) (hv0 : v ≠ 0) (hvu : (s.node v).desc.uid = v) :
    ((s.node v).run.st = .waiting → (s.node v).run.remaining ≤ 1 → barredBy s (s.node v) v = false →
      ((s.commit uid).node v).run = { (s.node v).run with st := .ready, remaining := 0 }) ∧
    ((s.node v).run.st ≠ .waiting ∨ 1 < (s.node v).run.remaining ∨ barredBy s (s.node v) v = true →
      ((s.commit uid).node v).run = { (s.node v).run with remaining := (s.node v).run.remaining - 1 }) := by
  have hne : v ≠ uid := fun h => hs (h ▸ hv)
  obtain ⟨-, hother⟩ := commitCounted_node hu h0
  obtain ⟨t, htn, hta, hd⟩ := countDown_node_once (s := commitCounted s uid) hone hv0
  rw [hother v hne] at htn
  obtain ⟨_, _, _, hr⟩ := commitCounted_rest s uid
  have hbar : barredBy t (s.node v) v = barredBy s (s.node v) v := by
    unfold barredBy
    rw [hta, hr]
  have hnode : (s.commit uid).node v = (t.decrement v).node v := (commit_node_other hu h0 hs hne hv0).trans ((node_congr rfl rfl v).trans hd)
  have hdec := decrement_node_same (s := t) (by rw [htn]; exact hvu) hv0
  rw [htn, hbar, ← hnode] at hdec
  exact hdec

theorem commit_others : SameNodesBut s (s.commit uid) (uid :: (s.node uid).desc.succs) := by
  intro v hv0 hv
  rw [List.mem_cons, not_or] at hv
  obtain ⟨-, hother⟩ := commitCounted_node hu h0
  exact (commit_node_other hu h0 hs hv.1 hv0).trans ((node_congr rfl rfl v).trans ((countDown_node_other _ hv.2 hv0).trans (hother v hv.1)))

end

/-- Settles O54, part by part of the commit: the checks before it, the bytes, the block, the successors, and the run that ends. -/
theorem nodesCommit : Obligations.NodesCommit := by
  unfold Obligations.NodesCommit
  refine ⟨fun s uid => ?_, fun s uid => ?_, fun n r => mergeList_spec n r, fun n h i => closeAll_spec h i, fun home k step => mergeScale_spec home k step⟩
  · dsimp only
    refine ⟨fun h hc => nodeCommit_of_committing h hc, fun h hg => nodeCommit_of_stop h.1 h.2 (commitStop_of_guard hg),
      fun h hg hs => nodeCommit_of_stop h.1 h.2 (commitStop_of_stale hg hs), fun h hg hs f hf => nodeCommit_of_stop h.1 h.2 (commitStop_of_error hg hs hf),
      fun h hp hq => nodeCommit_alone h.1 h.2 (commitStop_none_iff.mpr hp) hq, fun h hp hq => ⟨fun t ht => ?_, fun hn => ?_⟩, fun h => nodeCommit_of_not_ready h⟩
    · exact nodeCommit_pair_stops h.1 h.2 (commitStop_none_iff.mpr hp) hq ht
    · exact nodeCommit_pair h.1 h.2 (commitStop_none_iff.mpr hp) hq hn
  · dsimp only
    intro hu h0
    refine ⟨fun hc hp hd hl => commit_memory hc hp hd hl, commit_posts s uid, fun hs => ⟨commit_others hu h0 hs, fun v hv hone hv0 hvu => ?_⟩, fun hs => ?_⟩
    · obtain ⟨hready, hless⟩ := commit_successor hu h0 hs hv hone hv0 hvu
      rw [← barredBy_iff, Bool.not_eq_true]
      exact ⟨hready, hless⟩
    · obtain ⟨x, hx⟩ := commit_node_same hu h0 hs
      rw [hx]
      refine ⟨rfl, rfl, rfl, rfl, rfl, rfl, rfl, rfl, rfl, fun c hc => commit_core h0 hc, ?_⟩
      rw [commit_eq]
      exact unsplice_pairs _ h0

end Sys2Proof.Proofs
end

