-- ==== Sys2Proof/Proofs/NodeEvents.lean ====
section
namespace Sys2Proof.Proofs
open Sys2Proof Sys2Proof.Machine

-- One theorem after another: side by side they need more memory than one run may take.
set_option Elab.async false

/-! # Events of the engines, waits and boundaries of a node (R42, R69, R229, R278 to R280, R283 to R285, R305 to R307, R325, R349, R358) -/

/-! ## When each of them happens -/

theorem copyComplete_spec (s : State) (uid : Nat) (slot : CopySlot) :
    let q := (s.node uid).eng.queue (slot == .cb)
    (∀ c rest, q = c :: rest → s.headMoves uid (slot == .cb) c = true → exec (.copyComplete uid slot) s = .next (s.completeCopy uid (slot == .cb) c)) ∧
    ((∀ c rest, q = c :: rest → s.headMoves uid (slot == .cb) c = false) → exec (.copyComplete uid slot) s = .fault (.notEnabled "COPY_COMPLETE")) := by
  rw [exec_copyComplete]
  unfold execCopyComplete
  dsimp only
  constructor
  · intro c rest hq hm
    rw [hq]
    exact if_neg (by simp [hm])
  · intro h
    cases hq : (s.node uid).eng.queue (slot == .cb) with
    | nil => rfl
    | cons c rest => exact if_pos (by simp [h c rest hq])

theorem leastSeq_spec {l : List (Nat × CopyCmd)} {a : Nat × CopyCmd} (h : leastSeq l = some a) : a ∈ l ∧ ∀ b ∈ l, a.2.seq ≤ b.2.seq := by
  induction l generalizing a with
  | nil => exact nomatch h
  | cons x rest ih =>
    rw [leastSeq] at h
    cases hr : leastSeq rest with
    | none =>
      rw [hr] at h
      obtain rfl := Option.some.inj h
      have hnil : rest = [] := by
        have := leastSeq_isSome rest
        rw [hr] at this
        simpa using this.symm
      rw [hnil]
      exact ⟨List.mem_cons_self, fun b hb => by rw [List.mem_singleton.mp hb]⟩
    | some y =>
      obtain ⟨hy, hle⟩ := ih hr
      rw [hr] at h
      dsimp only at h
      split at h
      · next hlt =>
        obtain rfl := Option.some.inj h
        exact ⟨List.mem_cons_of_mem _ hy, List.forall_mem_cons.mpr ⟨by omega, hle⟩⟩
      · next hge =>
        obtain rfl := Option.some.inj h
        exact ⟨List.mem_cons_self, List.forall_mem_cons.mpr ⟨le_rfl, fun b hb => by have := hle b hb; omega⟩⟩

/-- The command that has fired first among the nodes of a core (log entry 33). -/
theorem firstFired_spec {s : State} {uid v : Nat} {cb : Bool} {c : CopyCmd} (h : s.firstFired uid cb = some (v, c)) :
    (∃ m ∈ s.sharers uid, m.desc.uid = v ∧ c ∈ m.eng.armedOf cb ∧ c.fired = true) ∧ ∀ m ∈ s.sharers uid, ∀ d ∈ m.eng.armedOf cb, d.fired = true → c.seq ≤ d.seq := by
  obtain ⟨hm, hle⟩ := leastSeq_spec h
  constructor
  · obtain ⟨m, hs, hc⟩ := List.mem_flatMap.mp hm
    obtain ⟨d, hd, he⟩ := List.mem_map.mp hc
    obtain ⟨rfl, rfl⟩ := Prod.mk.inj he
    obtain ⟨ha, hf⟩ := List.mem_filter.mp hd
    exact ⟨m, hs, rfl, ha, hf⟩
  · exact fun m hs d hd hf => hle (m.desc.uid, d) (List.mem_flatMap.mpr ⟨m, hs, List.mem_map_of_mem (List.mem_filter.mpr ⟨hd, hf⟩)⟩)

theorem joinFired_one {s : State} {uid : Nat} {cb : Bool} {c : CopyCmd} (h : s.firstFired uid cb = some (uid, c)) (hl : s.slotLoad uid cb < 16) :
    s.joinFired uid cb 1 = s.setNode { s.node uid with eng := ((s.node uid).eng.setArmed cb (((s.node uid).eng.armedOf cb).erase c)).setQueue cb ((s.node uid).eng.queue cb ++ [c]) } := by
  have hq (e : Eng) (l : List CopyCmd) : (e.setArmed cb l).queue cb = e.queue cb := by cases cb <;> rfl
  rw [State.joinFired, h]
  dsimp only
  rw [if_neg (by omega), State.joinFired, hq]

theorem cpyqFire_spec (s : State) (uid i : Nat) (slot : CopySlot) :
    let n := s.node uid
    let cb := slot == .cb
    let fires := fun (c : CopyCmd) => n.live = true ∧ s.firstFired uid cb = some (uid, c) ∧ s.slotLoad uid cb < 16
    (∀ c, (n.eng.armedOf cb)[i]? = some c → fires c → exec (.cpyqFire uid slot i) s =
      .next (s.setNode { n with eng := (n.eng.setArmed cb ((n.eng.armedOf cb).erase c)).setQueue cb (n.eng.queue cb ++ [c]) })) ∧
    ((∀ c, (n.eng.armedOf cb)[i]? = some c → ¬ fires c) → exec (.cpyqFire uid slot i) s = .fault (.notEnabled "CPYQ_FIRE")) := by
  rw [exec_cpyqFire]
  unfold execCpyqFire
  dsimp only
  constructor
  · rintro c hc ⟨hlive, hf, hl⟩
    rw [hc]
    exact (if_neg (by simp [hlive, hf, hl])).trans (congrArg _ (joinFired_one hf hl))
  · intro h
    cases hc : ((s.node uid).eng.armedOf (slot == .cb))[i]? with
    | none => rfl
    | some c =>
      refine if_pos (by_contra fun hcon => h c hc ?_)
      simpa [and_assoc] using hcon

theorem epiAddComplete_spec (s : State) (uid : Nat) :
    let n := s.node uid
    (∀ c rest, n.eng.epi = .add c :: rest → n.live = true → n.addMoves c = true → exec (.epiAddComplete uid) s = .next (s.completeAdd uid c)) ∧
    ((∀ c rest, n.eng.epi = .add c :: rest → n.live = false ∨ n.addMoves c = false) → exec (.epiAddComplete uid) s = .fault (.notEnabled "EPI_ADD_COMPLETE")) := by
  rw [exec_epiAddComplete]
  unfold execEpiAddComplete
  dsimp only
  constructor
  · intro c rest hq hl hm
    rw [hq]
    exact if_neg (by simp [hl, hm])
  · intro h
    cases hq : (s.node uid).eng.epi with
    | nil => rfl
    | cons e rest =>
      cases e with
      | add c => exact if_pos (by rcases h c rest hq with hl | hm <;> simp [*])
      | send _ => rfl

theorem censusClose_spec (s : State) (uid : Nat) (k : BitVec 6) :
    let n := s.node uid
    (k ∈ n.ctl.cwaiting → n.censusPending k = false → exec (.censusClose uid k) s =
      .next (s.setNode { n with regs := n.regs.closeWindow k, ctl := { n.ctl with cwaiting := n.ctl.cwaiting.erase k } })) ∧
    (k ∉ n.ctl.cwaiting ∨ n.censusPending k = true → exec (.censusClose uid k) s = .fault (.notEnabled "CENSUS_CLOSE")) := by
  rw [exec_censusClose]
  unfold execCensusClose
  exact ⟨fun hk hp => if_neg (by simp [hk, hp]), fun h => if_pos (by rcases h with h | h <;> simp [h])⟩

/-! ## The waits of a node (R305 to R307, R325) -/

theorem waitRow_spec (s : State) (row : String) (uid : Nat) (kind : Wait → Bool) :
    let n := s.node uid
    let w := (n.run.st = .running ∧ n.live = true) ∧ ∃ w ∈ n.ctl.waits ++ n.ctl.uiWaits ++ n.ctl.trapWaits, kind w = true ∧ n.holds w = true
    (w → s.waitRow row uid kind = .next (s.setNode n.settleWaits)) ∧ (¬ w → s.waitRow row uid kind = .fault (.notEnabled row)) := by
  dsimp only
  have hiff : ((s.node uid).run.st == .running && (s.node uid).live && (s.node uid).ctl.allWaits.any (fun w => kind w && (s.node uid).holds w)) = true ↔
      ((s.node uid).run.st = .running ∧ (s.node uid).live = true) ∧
        ∃ w ∈ (s.node uid).ctl.waits ++ (s.node uid).ctl.uiWaits ++ (s.node uid).ctl.trapWaits, kind w = true ∧ (s.node uid).holds w = true := by
    rw [Bool.and_eq_true, Bool.and_eq_true, beq_iff_eq, List.any_eq_true]
    simp only [Bool.and_eq_true]
    rfl
  exact ⟨fun h => if_pos (hiff.mpr h), fun h => if_neg (mt hiff.mp h)⟩

/-- A wait's event happens for a node that runs and whose wait of that kind ends. -/
theorem wait_ends {s : State} {uid : Nat} {i : Instr} {row : String} {kind : Wait → Bool} (he : exec i s = s.waitRow row uid kind) {w : Prop}
    (hw : w ↔ ∃ w ∈ (s.node uid).ctl.waits ++ (s.node uid).ctl.uiWaits ++ (s.node uid).ctl.trapWaits, kind w = true ∧ (s.node uid).holds w = true) :
    (((s.node uid).run.st = .running ∧ (s.node uid).live = true) ∧ w → exec i s = .next (s.setNode (s.node uid).settleWaits)) ∧
    (¬ (((s.node uid).run.st = .running ∧ (s.node uid).live = true) ∧ w) → exec i s = .fault (.notEnabled row)) := by
  rw [he, hw]
  exact waitRow_spec s row uid kind

theorem counts_held_iff (n : Node) (l : List Wait) : (∃ (c : BitVec 6) (t : Word), (.cwait c t ∈ l ∨ .barb c t ∈ l) ∧ t.toNat ≤ (n.regs.c[c.toNat]).toNat) ↔
    ∃ w ∈ l, w.counts = true ∧ n.holds w = true := by
  constructor
  · rintro ⟨c, t, h | h, hle⟩
    · exact ⟨_, h, rfl, decide_eq_true hle⟩
    · exact ⟨_, h, rfl, decide_eq_true hle⟩
  · rintro ⟨w, hw, hc, hh⟩
    cases w with
    | cwait c t => exact ⟨c, t, .inl hw, of_decide_eq_true hh⟩
    | barb c t => exact ⟨c, t, .inr hw, of_decide_eq_true hh⟩
    | bar m => exact nomatch hc
    | idle => exact nomatch hc

theorem holds_bar_iff {n : Node} {m : BitVec 4} : n.holds (.bar m) = true ↔ ∀ e : Fin 4, m.getLsbD e = true → n.done (BitVec.ofNat 2 e) = true := by
  change ((List.range 4).all fun e => !m.getLsbD e || n.done (BitVec.ofNat 2 e)) = true ↔ _
  rw [List.all_eq_true]
  constructor
  · intro h e he
    have := h e.val (List.mem_range.mpr e.isLt)
    rw [he] at this
    exact this
  · intro h e he
    cases hm : m.getLsbD e with
    | false => rfl
    | true => exact h ⟨e, List.mem_range.mp he⟩ hm

theorem holds_idle_iff {n : Node} : n.holds .idle = true ↔ n.ctl.ui.recs ≠ [] ∨ n.eng.uiPending = false := by
  change (!n.ctl.ui.recs.isEmpty || !n.eng.uiPending) = true ↔ _
  simp

theorem bar_held_iff (n : Node) (l : List Wait) : (∃ m, .bar m ∈ l ∧ ∀ e : Fin 4, m.getLsbD e = true → n.done (BitVec.ofNat 2 e) = true) ↔
    ∃ w ∈ l, (match w with | .bar _ => true | _ => false) = true ∧ n.holds w = true := by
  constructor
  · exact fun ⟨m, hm, hh⟩ => ⟨.bar m, hm, rfl, holds_bar_iff.mpr hh⟩
  · rintro ⟨w, hw, hc, hh⟩
    cases w with
    | bar m => exact ⟨m, hw, holds_bar_iff.mp hh⟩
    | cwait c t => exact nomatch hc
    | barb c t => exact nomatch hc
    | idle => exact nomatch hc

theorem idle_held_iff (n : Node) (l : List Wait) : (.idle ∈ l ∧ (n.ctl.ui.recs ≠ [] ∨ n.eng.uiPending = false)) ↔ ∃ w ∈ l, (w == .idle) = true ∧ n.holds w = true := by
  constructor
  · exact fun ⟨hm, hh⟩ => ⟨.idle, hm, rfl, holds_idle_iff.mpr hh⟩
  · rintro ⟨w, hw, hc, hh⟩
    obtain rfl := eq_of_beq hc
    exact ⟨hw, holds_idle_iff.mp hh⟩

theorem ctl_waits_eta (c : Ctl) {a b d : List Wait} (ha : c.waits = a) (hb : c.uiWaits = b) (hd : c.trapWaits = d) : c = { c with waits := a, uiWaits := b, trapWaits := d } := by
  subst ha hb hd
  rfl

section
variable {n : Node} (hui : n.ctl.uiWaits = []) (htrap : n.ctl.trapWaits = [])
include hui htrap

theorem settleWaits_single {w : Wait} (hw : n.ctl.waits = [w]) (h : n.holds w = true) :
    n.settleWaits = if w.subtracts then mustAt ((freed n).subtract w) 0 else (freed n).subtract w := by
  have heta : n = heldAt n 0 w := congrArg (fun c => ({ n with ctl := c } : Node)) (ctl_waits_eta n.ctl hw hui htrap)
  exact (congrArg Node.settleWaits heta).trans (settleWaits_heldAt n 0 h)

theorem freed_eq : freed n = { n with run := { n.run with ahead := [] }, ctl := { n.ctl with waits := [] } } :=
  congrArg (fun c => ({ n with run := { n.run with ahead := [] }, ctl := c } : Node)) (ctl_waits_eta { n.ctl with waits := [] } rfl hui htrap).symm

theorem settleWaits_only {w : Wait} (hw : n.ctl.waits = [w]) (h : n.holds w = true) (hs : ∀ c t, w ≠ .barb c t) :
    n.settleWaits = { n with run := { n.run with ahead := [] }, ctl := { n.ctl with waits := [] } } := by
  rw [settleWaits_single hui htrap hw h, ← freed_eq hui htrap]
  cases w with
  | barb c t => exact absurd rfl (hs c t)
  | cwait c t => rfl
  | bar m => rfl
  | idle => rfl

theorem settleWaits_barb {c : BitVec 6} {t : Word} (hw : n.ctl.waits = [.barb c t]) (h : t.toNat ≤ (n.regs.c[c.toNat]).toNat) :
    n.settleWaits = { n with run := { n.run with ahead := [] }, regs := { n.regs with c := n.regs.c.setIfInBounds c.toNat (n.regs.c[c.toNat] - t.extractLsb' 0 32) }
                             ctl := { n.ctl with waits := [], mustIssue := n.ctl.mustIssue || t != 0 } } := by
  rw [settleWaits_single hui htrap hw (decide_eq_true h), freed_eq hui htrap]
  change (if (t != 0) = true then _ else _) = _
  cases ht : t != 0 with
  | true =>
    change mustAt _ 0 = _
    unfold mustAt Node.subtract
    dsimp only
    simp only [Bool.or_false, show ((0 : Fin 3) == 1) = false from rfl, show ((0 : Fin 3) == 2) = false from rfl]
    rfl
  | false =>
    unfold Node.subtract
    simp only [Bool.or_false]
    rfl

end

/-! ## The boundary of a bundle, and consumed errors (R69, R284, R349, R358) -/

theorem trapEntry_spec (s : State) (core : BitVec 10) :
    let t := s.focusOn core.toNat
    (∀ u, t.atBoundary = true → t.dueNow = some u → exec (.trapEntry core) s = .next u.clearBnd) ∧
    (t.atBoundary = false ∨ t.dueNow = none → exec (.trapEntry core) s = .fault (.notEnabled "TRAP_ENTRY")) := by
  rw [exec_trapEntry]
  unfold execTrapEntry
  dsimp only
  constructor
  · intro u hb hd
    rw [hd]
    exact if_neg (by simp [hb])
  · intro h
    by_cases hb : (s.focusOn core.toNat).atBoundary = true
    · rw [h.resolve_left (by simp [hb])]
      exact if_neg (by simp [hb])
    · exact if_pos (by simpa using hb)

theorem userInterruptEntry_spec (s : State) (core : BitVec 10) :
    let t := s.focusOn core.toNat
    let may := t.atBoundary = true ∧ t.cur.ctl.ui.recs ≠ [] ∧ t.cur.ctl.ui.act = false ∧ t.cur.ctl.trap.act = false ∧ t.dueNow = none
    (may → exec (.userInterruptEntry core) s = .next t.enterUser.clearBnd) ∧ (¬ may → exec (.userInterruptEntry core) s = .fault (.notEnabled "USER_INTERRUPT_ENTRY")) := by
  rw [exec_userInterruptEntry]
  unfold execUserInterruptEntry
  dsimp only
  have hiff : (!(s.focusOn core.toNat).atBoundary || !(s.focusOn core.toNat).cur.userDue || (s.focusOn core.toNat).dueNow.isSome) = true ↔
      ¬ ((s.focusOn core.toNat).atBoundary = true ∧ (s.focusOn core.toNat).cur.ctl.ui.recs ≠ [] ∧ (s.focusOn core.toNat).cur.ctl.ui.act = false ∧
        (s.focusOn core.toNat).cur.ctl.trap.act = false ∧ (s.focusOn core.toNat).dueNow = none) := by
    rw [← not_iff_not, not_not]
    unfold Node.userDue
    cases (s.focusOn core.toNat).dueNow <;> simp [and_assoc]
  exact ⟨fun h => if_neg (mt hiff.mp (not_not.mpr h)), fun h => if_pos (hiff.mpr h)⟩

theorem errorConsumed_spec (s : State) (uid : Nat) :
    let n := s.node uid
    let may := uid ≠ 0 ∧ n.run.quiesced = false ∧ n.run.committing = none ∧ ((n.run.st = .running ∧ ∃ c, s.coreOf uid = some c ∧ c.current = uid) ∨ n.run.st = .retiring)
    (may → exec (.errorConsumed uid) s = .next ((s.countCause uid 0x33).rollback uid none)) ∧ (¬ may → exec (.errorConsumed uid) s = .fault (.notEnabled "ERROR_CONSUMED")) := by
  rw [exec_errorConsumed]
  unfold execErrorConsumed
  dsimp only
  have hcur : ((s.coreOf uid).any fun c => c.current == uid) = true ↔ ∃ c, s.coreOf uid = some c ∧ c.current = uid := by
    cases s.coreOf uid <;> simp
  have hiff : (uid = 0 ∨ (s.node uid).run.quiesced = true ∨ (s.node uid).run.committing.isSome = true ∨
      ¬ (((s.node uid).run.st = .running ∧ ((s.coreOf uid).any fun c => c.current == uid) = true) ∨ (s.node uid).run.st = .retiring)) ↔
      ¬ (uid ≠ 0 ∧ (s.node uid).run.quiesced = false ∧ (s.node uid).run.committing = none ∧
        (((s.node uid).run.st = .running ∧ ∃ c, s.coreOf uid = some c ∧ c.current = uid) ∨ (s.node uid).run.st = .retiring)) := by
    rw [hcur, Option.isSome_iff_ne_none, ← Bool.not_eq_false, not_and_or, not_and_or, not_and_or, ne_eq, ne_eq, not_not]
  exact ⟨fun h => if_neg (mt hiff.mp (not_not.mpr h)), fun h => if_pos (hiff.mpr h)⟩

/-! ## Copy commands: what an element receives, and where (R278 to R280) -/

theorem plainOut_other {c : CopyCmd} (h : c.kind = .cpy ∨ c.kind = .cpyb ∨ c.kind = .cpyq) (idx : Nat) (e : Option ElemRead) :
    c.plainOut idx e = ((e.map fun y => y.bits).getD 0, false, (e.map fun y => y.poison).getD false) := by
  unfold CopyCmd.plainOut
  dsimp only
  rw [if_neg (by rcases h with h | h | h <;> rw [h] <;> decide), if_neg (by rcases h with h | h | h <;> rw [h] <;> decide)]
  cases e <;> rfl

theorem plainOut_fill {c : CopyCmd} (h : c.kind = .cpyf) (idx : Nat) (e : Option ElemRead) :
    c.plainOut idx e = (lowBits (fmtWidth c.hD.fmt) (clampTo (fmtWidth c.hD.fmt) false c.x.toInt), clamps (fmtWidth c.hD.fmt) false c.x.toInt, false) := by
  unfold CopyCmd.plainOut
  dsimp only
  rw [if_neg (by rw [h]; decide), if_pos h, satI_eq]

theorem plainOut_convert {c : CopyCmd} (h : c.kind = .cpyk) (idx : Nat) (e : Option ElemRead) {v : Int}
    (hv : cpykValue c idx ((e.map fun y => y.value (fmtWidth c.hS.fmt)).getD 0) = v) :
    c.plainOut idx e = (lowBits (fmtWidth c.hD.fmt) (clampTo (fmtWidth c.hD.fmt) false v), clamps (fmtWidth c.hD.fmt) false v, (e.map fun y => y.poison).getD false) := by
  have hread : readValue (fmtWidth c.hS.fmt) e = ((e.map fun y => y.value (fmtWidth c.hS.fmt)).getD 0, (e.map fun y => y.poison).getD false) := by cases e <;> rfl
  unfold CopyCmd.plainOut
  dsimp only
  rw [if_pos h, hread, hv, satI_eq]

theorem addOrg_getD (h : Handle) {j : List Nat} (hj : 5 ≤ j.length) {d : Nat} (hd : d < 5) : (addOrg h.orgs j).getD d 0 = h.org d + j.getD d 0 := by
  have ho : h.orgs[d]? = some (h.org d) := by
    unfold Handle.orgs
    rw [List.getElem?_map, List.getElem?_range hd]
    rfl
  have hj' : j[d]? = some (j.getD d 0) := by
    rw [List.getD_eq_getElem?_getD, List.getElem?_eq_getElem (by omega : d < j.length), Option.getD_some]
  have hz : (h.orgs.zip j)[d]? = some (h.org d, j.getD d 0) := List.getElem?_zip_eq_some.mpr ⟨ho, hj'⟩
  unfold addOrg
  rw [List.getD_eq_getElem?_getD, List.getElem?_map, hz]
  rfl

theorem destCell_getD (c : CopyCmd) (k : Nat) {j : List Nat} (hj : 5 ≤ j.length) {d : Nat} (hd : d < 5) :
    (c.destCell k j).getD d 0 = c.hD.org d + j.getD d 0 + if c.kind = .cpyb ∧ d = fanDim c.x then k * fanStride c.x else 0 := by
  unfold CopyCmd.destCell
  dsimp only
  by_cases hk : c.kind = .cpyb
  · rw [if_pos hk, List.getD_eq_getElem?_getD, List.getElem?_map, List.getElem?_range hd]
    change (addOrg c.hD.orgs j).getD d 0 + _ = _
    rw [addOrg_getD _ hj hd]
    simp only [hk, true_and]
  · rw [if_neg hk, addOrg_getD _ hj hd, if_neg fun h => hk h.1, Nat.add_zero]

theorem mem_rest {c : CopyCmd} {x : Nat} : x ∈ c.rest ↔ x < (if c.kind = .cpyb then fanCount c.x else 1) * c.parts.length ∧ x ∉ c.progress.done := by
  unfold CopyCmd.rest
  rw [List.mem_filter, List.mem_range, Bool.not_eq_true', ← Bool.not_eq_true, List.contains_iff_mem]
  rfl

/-! ## One part of a copy -/

section
variable {uid : Nat} {unit : BitVec 3} {c : CopyCmd} {base j : Nat} {blk : List Nat} {run : CopyRun}

theorem fetch_fill (h : c.kind = .cpyf) : run.fetch uid unit c base j blk = (blk.map fun _ => none, run) := if_pos h

theorem fetch_again (h : c.kind ≠ .cpyf) {es : List (Option ElemRead)} (hg : run.at_.got j = some es) : run.fetch uid unit c base j blk = (es, run) := by
  unfold CopyRun.fetch
  rw [if_neg h, hg]

theorem fetch_error (h : c.kind ≠ .cpyf) (hg : run.at_.got j = none) {f : MFault × Nat} {i : Nat} {l : List Nat} (hb : blk = i :: l)
    (hf : run.st.sourceElem (run.st.node uid) c.hS (unlin (windowExts c.sw c.sw1) i) = .error f) :
    run.fetch uid unit c base j blk = ([], { run with fin := engineEnd f.1 (base + i) }) := by
  subst hb
  unfold CopyRun.fetch
  rw [if_neg h, hg]
  dsimp only
  rw [List.mapM_cons, hf]
  rfl

theorem mapM_ok {α β ε : Type} {f : α → Except ε β} {l : List α} {es : List β} (hl : es.length = l.length) (h : ∀ e ∈ l.zip es, f e.1 = .ok e.2) : l.mapM f = .ok es := by
  induction l generalizing es with
  | nil =>
    rw [List.length_eq_zero_iff.mp hl]
    rfl
  | cons a l ih =>
    cases es with
    | nil => exact nomatch hl
    | cons e es =>
      rw [List.zip_cons_cons, List.forall_mem_cons] at h
      rw [List.mapM_cons, show f a = .ok e from h.1, ih (Nat.succ.inj hl) h.2]
      rfl

theorem fetch_read (h : c.kind ≠ .cpyf) (hg : run.at_.got j = none) {es : List (Option ElemRead)} (hl : es.length = blk.length)
    (hr : ∀ e ∈ blk.zip es, run.st.sourceElem (run.st.node uid) c.hS (unlin (windowExts c.sw c.sw1) e.1) = .ok e.2) :
    run.fetch uid unit c base j blk = (es, { run with
      st := (run.st.countCorrected uid es).touch uid unit none (guardOf es), at_ := { run.at_ with vals := run.at_.vals ++ [(j, es)] } }) := by
  unfold CopyRun.fetch
  rw [if_neg h, hg]
  dsimp only
  rw [mapM_ok (f := fun i => run.st.sourceElem (run.st.node uid) c.hS (unlin (windowExts c.sw c.sw1) i)) hl hr]

/-- What a fetch leaves of the progress: all but the elements that it has kept for the copies of a CPYB. -/
theorem fetch_progress : (run.fetch uid unit c base j blk).2.at_.done = run.at_.done ∧ (run.fetch uid unit c base j blk).2.at_.sat = run.at_.sat ∧
    (run.fetch uid unit c base j blk).2.at_.poi = run.at_.poi := by
  unfold CopyRun.fetch
  split
  · exact ⟨rfl, rfl, rfl⟩
  · split
    · exact ⟨rfl, rfl, rfl⟩
    · split <;> exact ⟨rfl, rfl, rfl⟩

end

section
variable {uid : Nat} {cb : Bool} {c : CopyCmd} {parts : List (List Nat)} {run : CopyRun} {p : Nat}

theorem copyPart_stopped (h : run.fin = .done)
    (hf : (run.fetch uid (if cb then 3 else 2) c (p / parts.length * prodN (windowExts c.sw c.sw1)) (p % parts.length) (parts.getD (p % parts.length) [])).2.fin ≠ .done) :
    copyPart uid cb c parts run p = (run.fetch uid (if cb then 3 else 2) c (p / parts.length * prodN (windowExts c.sw c.sw1)) (p % parts.length) (parts.getD (p % parts.length) [])).2 := by
  unfold copyPart
  dsimp only
  rw [if_neg (not_not.mpr h), if_pos hf]

/-- A part whose elements have been fetched is written, block by block or element by element. -/
theorem copyPart_fetched (h : run.fin = .done) {es : List (Option ElemRead)} {r : CopyRun}
    (hf : run.fetch uid (if cb then 3 else 2) c (p / parts.length * prodN (windowExts c.sw c.sw1)) (p % parts.length) (parts.getD (p % parts.length) []) = (es, r))
    (hr : r.fin = .done) : copyPart uid cb c parts run p =
      let w := if fmtBlock c.hD.fmt then copyBlock uid (if cb then 3 else 2) c (windowExts c.sw c.sw1) r (p / parts.length) (parts.getD (p % parts.length) []) es
        else copyElem uid (if cb then 3 else 2) c (windowExts c.sw c.sw1) r (p / parts.length) ((parts.getD (p % parts.length) []).headD 0) (es.headD none)
      { w with at_ := w.at_.did c.kind p (p % parts.length) } := by
  unfold copyPart
  dsimp only
  rw [if_neg (not_not.mpr h), hf]
  dsimp only
  rw [if_neg (not_not.mpr hr)]

end

section
variable {uid : Nat} {unit : BitVec 3} {c : CopyCmd} {exts : List Nat} {r : CopyRun} {k i : Nat} {e : Option ElemRead} {blk : List Nat} {es : List (Option ElemRead)}

theorem copyElem_done : (copyElem uid unit c exts r k i e).at_.done = r.at_.done := by
  unfold copyElem
  dsimp only
  split
  · rfl
  · split <;> rfl

theorem copyBlock_done : (copyBlock uid unit c exts r k blk es).at_.done = r.at_.done := by
  unfold copyBlock
  dsimp only
  split
  · rfl
  · split <;> rfl

theorem copyElem_outside (h : inside c.hD.exts (c.destCell k (unlin exts i)) = false) : copyElem uid unit c exts r k i e = r := if_pos h

theorem copyElem_error (h : inside c.hD.exts (c.destCell k (unlin exts i)) = true) {f : MFault} {off : Nat}
    (hp : r.st.planElem (r.st.node uid) c.hD (c.destCell k (unlin exts i)) (c.plainOut (linIndex c.hD.exts (c.destCell k (unlin exts i))) e).1
      (c.plainOut (linIndex c.hD.exts (c.destCell k (unlin exts i))) e).2.2 = .error (f, off)) :
    copyElem uid unit c exts r k i e = { r with fin := engineEnd f (k * prodN exts + i) } := by
  unfold copyElem
  dsimp only
  rw [if_neg (by simp [h]), hp]

theorem copyElem_written (h : inside c.hD.exts (c.destCell k (unlin exts i)) = true) {l : List ByteWrite}
    (hp : r.st.planElem (r.st.node uid) c.hD (c.destCell k (unlin exts i)) (c.plainOut (linIndex c.hD.exts (c.destCell k (unlin exts i))) e).1
      (c.plainOut (linIndex c.hD.exts (c.destCell k (unlin exts i))) e).2.2 = .ok l) :
    (copyElem uid unit c exts r k i e).st = r.st.doWrites uid unit none l ∧
    (copyElem uid unit c exts r k i e).fin = (if ((r.st.doWrites uid unit none l).node uid).overBudget then .stops .overflow else r.fin) ∧
    (copyElem uid unit c exts r k i e).at_.sat = (r.at_.sat || (c.plainOut (linIndex c.hD.exts (c.destCell k (unlin exts i))) e).2.1) ∧
    (copyElem uid unit c exts r k i e).at_.poi = (r.at_.poi || (c.plainOut (linIndex c.hD.exts (c.destCell k (unlin exts i))) e).2.2) := by
  unfold copyElem
  dsimp only
  rw [if_neg (by simp [h]), hp]
  exact ⟨rfl, rfl, rfl, rfl⟩

theorem copyBlock_outside (h : ∃ x ∈ blk.map (fun i => c.destCell k (unlin exts i)), inside c.hD.exts x = false) : copyBlock uid unit c exts r k blk es = r := by
  refine if_pos ?_
  rw [Bool.not_eq_true', List.all_eq_false]
  exact h.imp fun x hx => ⟨hx.1, by simp [hx.2]⟩

theorem copyBlock_written (h : ∀ x ∈ blk.map (fun i => c.destCell k (unlin exts i)), inside c.hD.exts x = true) {l l' : List ByteWrite} {o : Nat × List (Int × Bool × Bool) × Bool}
    (ho : c.blockOut ((blk.map fun i => c.destCell k (unlin exts i)).map (linIndex c.hD.exts)) es = o)
    (hp : planAll (fun (e : List Nat × (Int × Bool × Bool)) => r.st.planElem (r.st.node uid) c.hD e.1 (lowBits (fmtWidth c.hD.fmt) e.2.1) e.2.2.2)
      ((blk.map fun i => c.destCell k (unlin exts i)).zip o.2.1) = .ok l)
    (hs : r.st.planShift (r.st.node uid) c.hD ((blk.map fun i => c.destCell k (unlin exts i)).headD []) o.1 o.2.2 = .ok l') :
    (copyBlock uid unit c exts r k blk es).st = r.st.doWrites uid unit none (l ++ l') := by
  subst ho
  unfold copyBlock
  dsimp only
  rw [if_neg (by rw [Bool.not_eq_true', Bool.not_eq_false, List.all_eq_true]; exact h), hp, hs]
  rfl

end

section
variable {s : State} {uid : Nat} {cb : Bool} {c : CopyCmd} {p : Nat} {at_ : Progress}

theorem copyPart_spec :
    let unit : BitVec 3 := if cb then 3 else 2
    let exts := windowExts c.sw c.sw1
    let k := p / c.parts.length
    let j := p % c.parts.length
    let blk := c.parts.getD j []
    let run : CopyRun := { st := s, at_ := at_, fin := .done }
    let fetched := run.fetch uid unit c (k * prodN exts) j blk
    let t := fetched.2.st
    let m := t.node uid
    let r := copyPart uid cb c c.parts run p
    let xs := blk.map fun i => c.destCell k (unlin exts i)
    let idx := fun (x : List Nat) => linIndex c.hD.exts x
    (fetched.2.fin ≠ .done → r = fetched.2) ∧
    (fetched.2.fin = .done → r.at_.done = setAdd at_.done p) ∧
    (fetched.2.fin = .done → fmtBlock c.hD.fmt = false → ∀ i, blk = [i] →
      let x := c.destCell k (unlin exts i)
      let o := c.plainOut (idx x) (fetched.1.headD none)
      (inside c.hD.exts x = false → r.st = t ∧ r.fin = .done) ∧
      (inside c.hD.exts x = true → ∀ f off, t.planElem m c.hD x o.1 o.2.2 = .error (f, off) → r.st = t ∧ r.fin = engineEnd f (k * prodN exts + i)) ∧
      (inside c.hD.exts x = true → ∀ l, t.planElem m c.hD x o.1 o.2.2 = .ok l → r.st = t.doWrites uid unit none l ∧
        r.fin = (if (r.st.node uid).overBudget then .stops .overflow else .done) ∧ r.at_.sat = (at_.sat || o.2.1) ∧ r.at_.poi = (at_.poi || o.2.2))) ∧
    (fetched.2.fin = .done → fmtBlock c.hD.fmt = true →
      let o := c.blockOut (xs.map idx) fetched.1
      ((∃ x ∈ xs, inside c.hD.exts x = false) → r.st = t ∧ r.fin = .done) ∧
      ((∀ x ∈ xs, inside c.hD.exts x = true) → ∀ l l',
        planAll (fun (e : List Nat × (Int × Bool × Bool)) => t.planElem m c.hD e.1 (lowBits (fmtWidth c.hD.fmt) e.2.1) e.2.2.2) (xs.zip o.2.1) = .ok l →
        t.planShift m c.hD (xs.headD []) o.1 o.2.2 = .ok l' → r.st = t.doWrites uid unit none (l ++ l'))) := by
  intro unit exts k j blk run fetched t m r xs idx
  obtain ⟨hdone, hsat, hpoi⟩ : fetched.2.at_.done = at_.done ∧ fetched.2.at_.sat = at_.sat ∧ fetched.2.at_.poi = at_.poi := fetch_progress
  have hpart (hf : fetched.2.fin = .done) : r = { (if fmtBlock c.hD.fmt then copyBlock uid unit c exts fetched.2 k blk fetched.1
      else copyElem uid unit c exts fetched.2 k (blk.headD 0) (fetched.1.headD none)) with
        at_ := (if fmtBlock c.hD.fmt then copyBlock uid unit c exts fetched.2 k blk fetched.1
          else copyElem uid unit c exts fetched.2 k (blk.headD 0) (fetched.1.headD none)).at_.did c.kind p j } := copyPart_fetched rfl rfl hf
  refine ⟨fun hf => copyPart_stopped rfl hf, fun hf => ?_, fun hf hb i hi => ?_, fun hf hb => ?_⟩
  · rw [hpart hf]
    refine congrArg (setAdd · p) (Eq.trans ?_ hdone)
    split
    · exact copyBlock_done
    · exact copyElem_done
  · have hr := hpart hf
    rw [if_neg (by simp [hb]), hi] at hr
    refine ⟨fun hx => ?_, fun hx f off hp => ?_, fun hx l hp => ?_⟩
    · rw [hr]
      have he := copyElem_outside (uid := uid) (unit := unit) (r := fetched.2) (e := fetched.1.headD none) hx
      exact ⟨(congrArg CopyRun.st he :), (congrArg CopyRun.fin he :).trans hf⟩
    · rw [hr]
      have he := copyElem_error (unit := unit) hx hp
      exact ⟨(congrArg CopyRun.st he :), (congrArg CopyRun.fin he :)⟩
    · obtain ⟨h1, h2, h3, h4⟩ := copyElem_written (unit := unit) hx hp
      rw [hf] at h2
      rw [hsat] at h3
      rw [hpoi] at h4
      rw [hr]
      exact ⟨h1, h2.trans (by rw [← h1]; rfl), h3, h4⟩
  · have hr := hpart hf
    rw [if_pos hb] at hr
    refine ⟨fun hx => ?_, fun hx l l' hp hs => ?_⟩
    · rw [hr]
      have he := copyBlock_outside (uid := uid) (unit := unit) (r := fetched.2) (es := fetched.1) hx
      exact ⟨(congrArg CopyRun.st he :), (congrArg CopyRun.fin he :).trans hf⟩
    · rw [hr]
      exact copyBlock_written hx rfl hp hs

/-! ## Commands that complete (R280, R283, R285) -/

theorem completeCopy_spec (s : State) (uid : Nat) (cb : Bool) (c : CopyCmd) :
    let r := c.rest.foldl (copyPart uid cb c c.parts) { st := s, at_ := c.progress, fin := .done }
    let ended := r.st.mapNode uid fun n =>
      let m := n.noteWrite c.hD c.win (if ctlCe c.sw1 then r.at_.census else none) r.at_.sat r.at_.poi
      { m with eng := m.eng.setQueue cb ((m.eng.queue cb).drop 1) }
    let added := if ctlCv c.sw1 then
        ended.addCounter uid (ctlCnt c.sw1) (windowBytes (windowExts c.sw c.sw1) (fmtWidth c.hD.fmt) (if c.kind = .cpyb then fanCount c.x else 1))
      else ended
    (∀ f, r.fin = .stops f → s.completeCopy uid cb c = r.st.memFault uid f) ∧
    (∀ e, r.fin = .access e → s.completeCopy uid cb c = (ended.countCause uid 0x11).mapNode uid fun n => n.recordCopyFault cb c.addr e) ∧
    (r.fin = .done → ctlUi c.sw1 = false → s.completeCopy uid cb c = added) ∧
    (r.fin = .done → ctlUi c.sw1 = true → s.completeCopy uid cb c = added.mapNode uid fun n => n.addRecord (if cb then 1 else 0) (ctlCnt c.sw1)) := by
  have hrun : s.runCopy uid cb c c.rest = c.rest.foldl (copyPart uid cb c c.parts) { st := s, at_ := c.progress, fin := .done } := rfl
  dsimp only
  unfold State.completeCopy
  dsimp only
  rw [hrun]
  refine ⟨fun f hf => ?_, fun e he => ?_, fun hd hui => ?_, fun hd hui => ?_⟩
  · rw [hf]
  · rw [he]
  · rw [hd]
    exact if_neg (by simp [hui])
  · rw [hd]
    exact if_pos hui

theorem completeAdd_spec (s : State) (uid : Nat) (c : EpiAdd) :
    let r := s.runAdd uid c c.rest
    let ended := r.st.mapNode uid fun n =>
      let m := n.noteWrite c.h c.win r.at_.census (c.sticky || r.at_.sat) r.at_.poi
      { m with eng := { m.eng with epi := m.eng.epi.drop 1 } }
    (∀ f, r.fin = .stops f → s.completeAdd uid c = r.st.memFault uid f) ∧
    (∀ e, r.fin = .access e → s.completeAdd uid c = (ended.countCause uid 0x11).mapNode uid fun n => n.setFault 2) ∧
    (r.fin = .done → s.completeAdd uid c = ended) := by
  dsimp only
  unfold State.completeAdd
  dsimp only
  refine ⟨fun f hf => ?_, fun e he => ?_, fun hd => ?_⟩
  · rw [hf]
  · rw [he]
  · rw [hd]

theorem runAdd_one (s : State) (uid : Nat) (c : EpiAdd) (v : EpiVal) (i : Nat) :
    s.runAdd uid c [(v, i)] = addElem uid c (matrixCols (s.node uid).run.gangWidth) { st := s, at_ := c.progress, fin := .done } (v, i) := by
  unfold State.runAdd
  rw [List.foldl_cons, List.foldl_nil, if_pos rfl]

theorem runAdd_one_spec (s : State) (uid : Nat) (c : EpiAdd) (v : EpiVal) (i : Nat) :
    let x := accCell c.h (matrixCols (s.node uid).run.gangWidth) i
    let n := s.node uid
    let one := s.runAdd uid c [(v, i)]
    (inside c.h.exts x = false → one.st = s ∧ one.fin = .done) ∧
    (inside c.h.exts x = true → ∀ f off, s.readElem n c.h x = .error (f, off) → one.st = s ∧ one.fin = engineEnd f i) ∧
    (inside c.h.exts x = true → ∀ g, s.readElem n c.h x = .ok g →
      let sum := ElemRead.value g 32 + v.v
      (∀ f off, s.planElem n c.h x (lowBits 32 (clampTo 32 false sum)) (g.poison || v.poison) = .error (f, off) → one.st = s ∧ one.fin = engineEnd f i) ∧
      ∀ l, s.planElem n c.h x (lowBits 32 (clampTo 32 false sum)) (g.poison || v.poison) = .ok l →
        one.st = (s.touch uid 4 none g.guard).doWrites uid 4 none l ∧ one.at_.sat = (c.progress.sat || v.clamp || clamps 32 false sum)) := by
  dsimp only
  rw [runAdd_one]
  unfold addElem
  dsimp only
  refine ⟨fun hx => ?_, fun hx f off hr => ?_, fun hx g hr => ⟨fun f off hp => ?_, fun l hp => ?_⟩⟩
  · rw [if_pos (by simp [hx])]
    exact ⟨rfl, rfl⟩
  · rw [if_neg (by simp [hx]), hr]
    exact ⟨rfl, rfl⟩
  · rw [if_neg (by simp [hx]), hr]
    dsimp only
    rw [satI_eq, hp]
    exact ⟨rfl, rfl⟩
  · rw [if_neg (by simp [hx]), hr]
    dsimp only
    rw [satI_eq, hp]
    exact ⟨rfl, (Bool.or_assoc _ _ _).symm⟩

end

/-! ## The entry to the user-level handler (R283 to R285, R292) -/

theorem enterUser_spec (s : State) (slot : BitVec 1) (cnt : BitVec 6) (rest : List (BitVec 1 × BitVec 6)) :
    let k := s.cur.ctl
    let v := s.cur.desc.image.uivec.toNat
    s.cur.ctl.ui.recs = (slot, cnt) :: rest → offsetOf s.cur.desc.image.ovl v % 12 = 0 →
    let u := s.enterUser
    let g := u.cur.ctl
    u.cur = { s.cur with run := { s.cur.run with ahead := [] }, ctl := g } ∧ u.nodes = s.nodes ∧ u.mem = s.mem ∧ g.ui = { k.ui with slot := slot, cnt := cnt, recs := rest, ra := k.pc, act := true } ∧
    g.bank = true ∧ g.pc = BitVec.ofNat 22 v ∧ g.flight = [] ∧ g.uiFlight = (k.flight.filter fun f => match f.eff with
      | .cenClose _ => false
      | _ => true) ∧
    g.waits = [] ∧ g.uiWaits = k.waits.filter (fun w => w != .idle) ∧ g.mustIssue = false ∧ g.uiMust = k.mustIssue ∧ g.loops = k.loops ∧ g.trap = k.trap := by
  dsimp only
  intro hr hv
  have hu : s.enterUser = s.acquire.mapCtl fun k => { k.enterUser (BitVec.ofNat 22 s.cur.desc.image.uivec.toNat) with
      pcOut := decide (2 ^ 22 ≤ s.cur.desc.image.uivec.toNat) } := if_neg (not_not.mpr hv)
  have hk : s.cur.ctl.enterUser (BitVec.ofNat 22 s.cur.desc.image.uivec.toNat) = { s.cur.ctl with
      ui := { s.cur.ctl.ui with slot := slot, cnt := cnt, recs := rest, ra := s.cur.ctl.pc, act := true }, bank := true, uiFlight := s.cur.ctl.recorded, flight := []
      cwaiting := s.cur.ctl.cwaiting ++ s.cur.ctl.closing, xseg := s.cur.ctl.pc.toNat / 65536, pcOut := false, pc := BitVec.ofNat 22 s.cur.desc.image.uivec.toNat
      waits := [], uiWaits := s.cur.ctl.waits.filter (fun w => w != .idle), mustIssue := false, uiMust := s.cur.ctl.mustIssue } := by
    unfold Ctl.enterUser
    rw [hr]
  have hctl : s.enterUser.cur.ctl = { s.cur.ctl.enterUser (BitVec.ofNat 22 s.cur.desc.image.uivec.toNat) with pcOut := decide (2 ^ 22 ≤ s.cur.desc.image.uivec.toNat) } := by
    rw [hu]
    rfl
  refine ⟨by rw [hu]; rfl, by rw [hu]; rfl, by rw [hu]; rfl, ?_⟩
  rw [hctl, hk]
  exact ⟨rfl, rfl, rfl, rfl, rfl, rfl, rfl, rfl, rfl, rfl, rfl⟩

/-! ## Rollbacks (R69, R308) -/

theorem jcbRaise_rest (s : State) (j : BitVec 12) (n : Nat) (posted : Bool) : ∃ m p, (s.jcbRaise j n posted).2 = { s with mem := m, poison := p } := by
  unfold State.jcbRaise
  dsimp only
  split
  · exact jcbOr_rest s j 4
  · split
    · exact jcbOr_rest s j 8
    · exact s.wr_fields _ _ _

theorem raiseOpen_rest (j : BitVec 12) (l : List RaiseReq) (s : State) : ∃ m p, (s.raiseOpen j l).2 = { s with mem := m, poison := p } := by
  induction l generalizing s with
  | nil => exact ⟨_, _, rfl⟩
  | cons r rest ih =>
    rw [State.raiseOpen]
    split
    · exact ih s
    · obtain ⟨_, _, hr⟩ := jcbRaise_rest s j r.n.toNat r.posted
      obtain ⟨m, p, h⟩ := ih (s.jcbRaise j r.n.toNat r.posted).2
      exact ⟨m, p, h.trans (by rw [hr])⟩

/-- The raises of a node's run withdrawn at its block (R69, R308). -/
def raisesWithdrawn (s : State) (n : Node) : State :=
  match n.desc.jcb with
  | some j => if n.run.raises + (s.raiseOpen j n.run.pendingRaise).1 = 0 then (s.raiseOpen j n.run.pendingRaise).2
    else (s.raiseOpen j n.run.pendingRaise).2.jcbWithdraw j (n.run.raises + (s.raiseOpen j n.run.pendingRaise).1)
  | none => s

theorem raisesWithdrawn_rest (s : State) (n : Node) : ∃ m p, raisesWithdrawn s n = { s with mem := m, poison := p } := by
  unfold raisesWithdrawn
  split
  · next j _ =>
    obtain ⟨_, _, hr⟩ := raiseOpen_rest j n.run.pendingRaise s
    split
    · exact ⟨_, _, hr⟩
    · obtain ⟨m, p, h⟩ : ∃ m p, (s.raiseOpen j n.run.pendingRaise).2.jcbWithdraw j (n.run.raises + (s.raiseOpen j n.run.pendingRaise).1) =
          { (s.raiseOpen j n.run.pendingRaise).2 with mem := m, poison := p } := State.wr_fields _ _ _ _
      exact ⟨m, p, h.trans (by rw [hr])⟩
  · exact ⟨_, _, rfl⟩

theorem withdrawRun_eq (s : State) (uid : Nat) : s.withdrawRun uid = { raisesWithdrawn s (s.node uid) with
    awl := { (raisesWithdrawn s (s.node uid)).awl with
      links := returnTokens (raisesWithdrawn s (s.node uid)).awl.links (s.node uid).run.tokens
      inbox := (raisesWithdrawn s (s.node uid)).awl.inbox.filter fun i => match i with
        | .take u _ _ _ => u != uid
        | _ => true } } := by
  unfold State.withdrawRun raisesWithdrawn
  dsimp only <;> (cases (s.node uid).desc.jcb <;> rfl)

theorem withdrawRun_rest (s : State) (uid : Nat) : ∃ i, s.withdrawRun uid = { s with
    mem := (raisesWithdrawn s (s.node uid)).mem, poison := (raisesWithdrawn s (s.node uid)).poison
    awl := { s.awl with links := returnTokens s.awl.links (s.node uid).run.tokens, inbox := i } } := by
  obtain ⟨m, p, h⟩ := raisesWithdrawn_rest s (s.node uid)
  exact ⟨_, (withdrawRun_eq s uid).trans (by rw [h])⟩

/-- The block after the raises of a run whose raises are all answered have been withdrawn. -/
theorem raisesWithdrawn_answered {s : State} {n : Node} (hp : n.run.pendingRaise = []) : raisesWithdrawn s n =
    match n.desc.jcb with
    | some j => if n.run.raises = 0 then s else s.jcbWithdraw j n.run.raises
    | none => s := by
  unfold raisesWithdrawn
  rw [hp]
  rfl

theorem jcbWithdraw_spec {s : State} (hc : Canonical s) (j : BitVec 12) (k : Nat) :
    ((s.jcbWithdraw j k).rd (jcbPA j) 4 + k) % 2 ^ 32 = s.rd (jcbPA j) 4 ∧ ∀ a, ¬ (jcbPA j ≤ a ∧ a < jcbPA j + 4) → (s.jcbWithdraw j k).byte a = s.byte a := by
  have hlt := rd_lt_pow s (jcbPA j) 4
  have hread : (s.jcbWithdraw j k).rd (jcbPA j) 4 = (s.rd (jcbPA j) 4 + 2 ^ 32 - k % 2 ^ 32) % 2 ^ 32 % 2 ^ (8 * 4) := rd_of_bytes fun i hi => by
    rw [State.jcbWithdraw, wr_byte hc, if_pos (by omega), Nat.add_sub_cancel_left]
  refine ⟨?_, fun a ha => by rw [State.jcbWithdraw, wr_byte hc, if_neg ha]⟩
  rw [hread]
  omega

section
variable {s : State} {uid : Nat} {mark : Option (Nat × Nat × Nat)}

theorem rollback_unstaged (h0 : uid ≠ 0) (h : (s.node uid).desc.image.unstg = true) : s.rollback uid mark = s.failNode uid 0x22 := (if_neg h0).trans (if_pos h)

theorem rollback_irreversible (h0 : uid ≠ 0) (h : (s.node uid).desc.image.unstg = false)
    (hi : (s.node uid).run.irrev = true ∨ ((s.node uid).run.partner ≠ 0 ∧ (s.node (s.node uid).run.partner).run.irrev = true)) : s.rollback uid mark = s.failNode uid 0x21 := by
  refine (if_neg h0).trans ((if_neg (by simp [h])).trans (if_pos ?_))
  unfold State.mayRollBack
  rcases hi with hi | ⟨hq, hi⟩
  · simp [hi]
  · simp [hi, hq]

theorem rollback_alone (h0 : uid ≠ 0) (h : (s.node uid).desc.image.unstg = false) (hi : (s.node uid).run.irrev = false) (hq : (s.node uid).run.partner = 0) :
    s.rollback uid mark = { ((s.withdrawRun uid).endRun uid .ready 0 mark).unsplice uid with bnd := { s.bnd with stop := .taken, post := [] } } := by
  have hmay : s.mayRollBack uid = true := by
    unfold State.mayRollBack
    simp [h, hi, hq]
  have hisC : ((s.node uid).run.partner != 0 && (s.pairOf uid).c == uid) = false := by simp [hq]
  obtain ⟨_, hw⟩ := withdrawRun_rest s uid
  obtain ⟨_, _, _, _, _, he, -⟩ := endRun_rest (s.withdrawRun uid) uid .ready 0 mark
  obtain ⟨_, hu⟩ := unsplice_rest ((s.withdrawRun uid).endRun uid .ready 0 mark) uid
  unfold State.rollback
  dsimp only
  rw [if_neg h0, if_neg (by simp [h]), if_neg (by simp [hmay]), hisC]
  simp only [if_pos hq, Bool.false_eq_true, if_false]
  rw [hu, he, hw]

/-- A node alone whose run is rolled back (R69): its run is discarded, its tokens return, and the rest of the machine stands, but for its block. -/
theorem rollback_spec (hu : (s.node uid).desc.uid = uid) (h0 : uid ≠ 0) (h : (s.node uid).desc.image.unstg = false) (hi : (s.node uid).run.irrev = false)
    (hq : (s.node uid).run.partner = 0) :
    (∃ k, (s.rollback uid mark).node uid = { endedNode (s.node uid) .ready 0 mark with desc := { (s.node uid).desc with readyOrder := k } }) ∧
    SameNodesBut s (s.rollback uid mark) [uid] ∧ (s.rollback uid mark).awl.links = returnTokens s.awl.links (s.node uid).run.tokens ∧
    (∀ c, s.coreOf uid = some c → ((s.rollback uid mark).core c.idx).slots = c.slots.map (fun u => if u = uid then 0 else u) ∧
      ((s.rollback uid mark).core c.idx).units = c.units.map fun u => if u = uid then 0 else u) ∧
    (s.rollback uid mark).mem = (raisesWithdrawn s (s.node uid)).mem := by
  obtain ⟨_, hw⟩ := withdrawRun_rest s uid
  have hwn (v : Nat) : (s.withdrawRun uid).node v = s.node v := node_congr (by rw [hw]) (by rw [hw]) v
  obtain ⟨_, _, _, _, _, he, -⟩ := endRun_rest (s.withdrawRun uid) uid .ready 0 mark
  obtain ⟨_, hun⟩ := unsplice_rest ((s.withdrawRun uid).endRun uid .ready 0 mark) uid
  have hown : ((s.withdrawRun uid).node uid).desc.uid = uid := by rw [hwn]; exact hu
  have hnode (v : Nat) : (s.rollback uid mark).node v = ((s.withdrawRun uid).endRun uid .ready 0 mark).node v := by
    rw [rollback_alone h0 h hi hq]
    exact (node_congr rfl rfl v).trans (unsplice_node _ uid v)
  refine ⟨?_, fun v hv0 hv => ?_, ?_, fun c hc => ?_, ?_⟩
  · obtain ⟨k, hk, -⟩ := endRun_node_same .ready 0 mark hown h0
    rw [hwn] at hk
    exact ⟨k, (hnode uid).trans hk⟩
  · rw [List.mem_singleton] at hv
    exact (hnode v).trans ((endRun_node_other _ _ _ hown h0 hv hv0).trans (hwn v))
  · rw [rollback_alone h0 h hi hq]
    dsimp only
    rw [hun, he, hw]
  · have hseat : (s.withdrawRun uid).coreOf uid = some c := (coreOf_congr (by rw [hw]) uid).trans hc
    have hcore : (s.rollback uid mark).core c.idx = (coreWithout c uid).dropPair uid := by
      rw [rollback_alone h0 h hi hq]
      exact (core_congr rfl _).trans ((unsplice_core _ h0 _).trans (congrArg (Core.dropPair · uid) (endRun_core .ready 0 mark hseat)))
    rw [hcore]
    exact ⟨rfl, rfl⟩
  · rw [rollback_alone h0 h hi hq]
    dsimp only
    rw [hun, he, hw]

theorem rollback_block (h0 : uid ≠ 0) (hu : (s.node uid).desc.uid = uid) (h : (s.node uid).desc.image.unstg = false) (hi : (s.node uid).run.irrev = false)
    (hq : (s.node uid).run.partner = 0) (hp : (s.node uid).run.pendingRaise = []) (hc : Canonical s) :
    ((s.node uid).desc.jcb = none ∨ (s.node uid).run.raises = 0 → (s.rollback uid mark).mem = s.mem) ∧
    ∀ j, (s.node uid).desc.jcb = some j → (s.node uid).run.raises < 2 ^ 32 →
      ((s.rollback uid mark).rd (jcbPA j) 4 + (s.node uid).run.raises) % 2 ^ 32 = s.rd (jcbPA j) 4 ∧
        SameMemoryBut s (s.rollback uid mark) fun a => jcbPA j ≤ a ∧ a < jcbPA j + 4 := by
  obtain ⟨-, -, -, -, hm⟩ := rollback_spec (mark := mark) hu h0 h hi hq
  rw [raisesWithdrawn_answered hp] at hm
  constructor
  · rintro (hj | hr)
    · rw [hj] at hm
      exact hm
    · rw [hr] at hm
      cases hj : (s.node uid).desc.jcb with
      | none =>
        rw [hj] at hm
        exact hm
      | some j =>
        rw [hj] at hm
        exact hm
  · intro j hj _
    rw [hj] at hm
    by_cases hr : (s.node uid).run.raises = 0
    · have hm' : (s.rollback uid mark).mem = s.mem := hm.trans (congrArg State.mem (if_pos hr))
      have hlt := rd_lt_pow s (jcbPA j) 4
      refine ⟨?_, fun a _ => congrArg (memGet · a) hm'⟩
      rw [rd_congr hm', hr]
      omega
    · have hm' : (s.rollback uid mark).mem = (s.jcbWithdraw j (s.node uid).run.raises).mem := hm.trans (congrArg State.mem (if_neg hr))
      obtain ⟨hread, hrest⟩ := jcbWithdraw_spec hc j (s.node uid).run.raises
      refine ⟨?_, fun a ha => (congrArg (memGet · a) hm').trans (hrest a ha)⟩
      rw [rd_congr hm']
      exact hread

end

/-- Settles O55, event by event. -/
theorem nodeEvents : Obligations.NodeEvents := by
  unfold Obligations.NodeEvents
  refine ⟨fun s uid i slot k core => ?_, fun c k x idx j e hw => ?_, fun s uid cb c p at_ _ => ?_, completeCopy_spec, fun s uid c => ?_, enterUser_spec, fun s uid mark => ?_⟩
  · dsimp only
    obtain ⟨hcopy, hcopy'⟩ := copyComplete_spec s uid slot
    obtain ⟨hfire, hfire'⟩ := cpyqFire_spec s uid i slot
    obtain ⟨hadd, hadd'⟩ := epiAddComplete_spec s uid
    obtain ⟨hclose, hclose'⟩ := censusClose_spec s uid k
    refine ⟨hcopy, hcopy', ⟨fun v c h => firstFired_spec h, hfire, hfire'⟩, hadd, hadd', hclose, hclose',
      ⟨wait_ends (exec_waitSatisfied s uid) (counts_held_iff _ _), wait_ends (exec_barRelease s uid) (bar_held_iff _ _), wait_ends (exec_idleEnd s uid) (idle_held_iff _ _)⟩,
      fun c t m hui htrap => ⟨fun hw h => ?_, fun hw h => settleWaits_barb hui htrap hw h, fun hw h => ?_, fun hw h => ?_⟩, ?_, errorConsumed_spec s uid⟩
    · exact settleWaits_only hui htrap hw (decide_eq_true h) fun _ _ h => nomatch h
    · exact settleWaits_only hui htrap hw (holds_bar_iff.mpr h) fun _ _ h => nomatch h
    · exact settleWaits_only hui htrap hw (holds_idle_iff.mpr h) fun _ _ h => nomatch h
    · obtain ⟨htrap, htrap'⟩ := trapEntry_spec s core
      exact ⟨htrap, htrap', userInterruptEntry_spec s core⟩
  · dsimp only
    refine ⟨fun h => plainOut_other h idx e, fun h => plainOut_fill h idx e, fun h hs => plainOut_convert h idx e (if_pos hs),
      fun h hs => plainOut_convert h idx e (if_neg (by omega)), fun hj d hd => destCell_getD c k hj hd, fun hb => ?_, mem_rest⟩
    exact if_neg (by simp [hb])
  · refine ⟨fun h => fetch_fill h, fun h es hg => fetch_again h hg, fun h hg f i l hb hf => ?_, fun h hg es hl hr => ?_, copyPart_spec⟩
    · rw [fetch_error h hg hb hf]
      exact ⟨rfl, rfl⟩
    · rw [fetch_read h hg hl hr]
      exact ⟨rfl, rfl, rfl⟩
  · obtain ⟨hstop, hfault, hdone⟩ := completeAdd_spec s uid c
    exact ⟨hstop, hfault, hdone, rfl, fun v i => runAdd_one_spec s uid c v i⟩
  · dsimp only
    intro hu h0
    refine ⟨fun h => rollback_unstaged h0 h, fun h hi => rollback_irreversible h0 h hi, fun h hi hq => ?_⟩
    obtain ⟨⟨k, hk⟩, hothers, hlinks, hcores, -⟩ := rollback_spec (mark := mark) hu h0 h hi hq
    refine ⟨?_, hothers, hlinks, hcores, fun hp hc => rollback_block h0 hu h hi hq hp hc⟩
    rw [hk]
    exact ⟨rfl, rfl, rfl, rfl, rfl, rfl, rfl, rfl, rfl, rfl, rfl, rfl, rfl⟩

end Sys2Proof.Proofs
end

