-- ==== Sys2Proof/Proofs/DistributorEvents.lean ====
section
namespace Sys2Proof.Proofs
open Sys2Proof Sys2Proof.Machine

-- One theorem after another: side by side they need more memory than one run may take.
set_option Elab.async false

/-! # Events of the distributor (R91 to R100, R355, R394) -/

/-- A node whose save area is the whole save region, and another whose area lies above the region: what saveRoom finds for the first lies between the two. -/
def areaAbove : State :=
  { State.reset with nodes :=
      [{ Node.none with desc := { uid := 1 }, run := { saveArea := some (0xFC0000, 0x40000) } }, { Node.none with desc := { uid := 2 }, run := { saveArea := some (0x2000000, 1) } }] }

theorem saveRoom_areaAbove : areaAbove.saveRoom (areaAbove.node 1) = some [(0x1000000, 0)] := by decide +kernel

/-- Refutes O52: the save areas that saveRoom finds are said to end at the end of the save region, frame 0x1000000, at the latest. In front of an area that stands above
the region already, as in `areaAbove`, the room below that area is taken without regard to the region's end. -/
theorem not_distributorEvents : ¬ Obligations.DistributorEvents := by
  unfold Obligations.DistributorEvents
  intro h
  obtain ⟨-, -, -, -, -, -, -, -, -, -, ⟨-, -, alone, -, within⟩, -⟩ := h areaAbove 1 0 (0, 0)
  obtain ⟨-, hareas⟩ := within _ saveRoom_areaAbove
  have hl : areaAbove.savedWith (areaAbove.node 1) = [areaAbove.node 1] := alone rfl
  obtain ⟨-, hend, -⟩ := hareas (areaAbove.node 1) 0x1000000 0 (by rw [hl]; exact List.mem_singleton_self _)
  exact absurd hend (by decide)

end Sys2Proof.Proofs
end
